-- ==== Sys2Proof/Word.lean ====
section
/-! DEFINITION. The words of the machine: 64-bit words, bytes, 512-bit vector registers (R2, R69). -/

namespace Sys2Proof

/-- A 64-bit word (an instruction, a g register, an address operand). -/
abbrev Word := BitVec 64
/-- One byte of memory. -/
abbrev Byte := BitVec 8
/-- A vector register, a q entry, an accumulator segment: 512 bits (R73). -/
abbrev Vec := BitVec 512

end Sys2Proof
end

