-- ==== Sys2Proof/Syntax.lean ====
section
/-! DEFINITION. The instruction set and the events, one constructor per row of the opcode table. An instruction carries
the fields of its format (R225, Table 15-1) at their own widths; an event carries what it acts on. -/

namespace Sys2Proof

/-- Format A: `s` the group marker, `md` the modifier bits [23:16]; bits [15:0] are zero (R225). -/
structure OpA where
  s : BitVec 1
  d : BitVec 6
  a : BitVec 6
  b : BitVec 6
  c : BitVec 6
  md : BitVec 8
deriving DecidableEq, Repr

/-- Format I: a 32-bit immediate (R225). -/
structure OpI where
  s : BitVec 1
  d : BitVec 6
  a : BitVec 6
  md : BitVec 8
  imm : BitVec 32
deriving DecidableEq, Repr

/-- Format M: base, index, scale, width, kind and a signed byte offset (R225, R227). -/
structure OpM where
  s : BitVec 1
  d : BitVec 6
  a : BitVec 6
  b : BitVec 6
  scale : BitVec 2
  width : BitVec 3
  kind : BitVec 3
  offset : BitVec 24
deriving DecidableEq, Repr

/-- Format B: `cl` and a signed word offset (R225, R228). -/
structure OpB where
  s : BitVec 1
  cl : BitVec 6
  a : BitVec 6
  b : BitVec 6
  woff : BitVec 32
deriving DecidableEq, Repr

/-- Format V: vector operands, predicate, holds, element format, rounding and a small immediate (R225). -/
structure OpV where
  s : BitVec 1
  d : BitVec 6
  a : BitVec 6
  b : BitVec 6
  c : BitVec 6
  pred : BitVec 3
  hold : BitVec 3
  fmt : BitVec 4
  rnd : BitVec 3
  limm : BitVec 12
deriving DecidableEq, Repr

/-- Format E: four register fields and a 16-bit immediate (R225). -/
structure OpE where
  s : BitVec 1
  d : BitVec 6
  a : BitVec 6
  b : BitVec 6
  c : BitVec 6
  imm : BitVec 16
deriving DecidableEq, Repr

/-- Format S: an s-register number and a 24-bit immediate (R225). -/
structure OpS where
  s : BitVec 1
  d : BitVec 6
  a : BitVec 6
  sreg : BitVec 12
  imm : BitVec 24
deriving DecidableEq, Repr

/-- One rule-table entry (Table 07-1) and the place it is written to. -/
structure RuleWrite where
  index : Nat
  w0 : Word
  w1 : Word
deriving DecidableEq, Repr

/-- A spill region of 1 MiB for a core, by its base (R138). -/
structure SpillRegion where
  core : Nat
  base : Nat
deriving DecidableEq, Repr

/-- What a load writes into a batch-graph register: the slot area, and the resident that it belongs to (R130). -/
structure BatchLoad where
  base : Nat
  resident : Nat
deriving DecidableEq, Repr

/-- What start-up finds outside the module: for each step of Table 14-5 whether it succeeds when it is tried, how many attempts it takes
and the sr.cycle value at its end; then what the firmware sets and finds: device number, page-table root, rule-table base and log2 of
its entries, usable vector rows by core, spill regions by core, clusters that fail their test, bytes of each CXL port, and for each Ralquel port that trains the
devices it reaches. -/
structure StartConfig where
  steps : List (Bool × Nat × Nat)
  device : Nat
  root : Nat
  ruleBase : Nat
  ruleLog : Nat
  rows : List (Nat × Nat)
  spill : List (Nat × Nat)
  failing : List Nat
  cxl : List Nat
  ports : List (Nat × List Nat)
deriving DecidableEq, Repr

/-- The opcode table, row by row. -/
inductive Instr where
  /-- Adds two g registers, wrapping or saturating, 64 or 32 bits wide. (R246) -/
  | add (o : OpA)
  /-- Subtracts g[b] from g[a], wrapping or saturating. (R246) -/
  | sub (o : OpA)
  /-- Multiplies two g registers and keeps the low W bits, wrapping or saturating. (R246) -/
  | mul (o : OpA)
  /-- Writes the upper half of the 2W-bit product, signed or unsigned. (R246) -/
  | mulh (o : OpA)
  /-- Divides with truncation toward zero, using the core's shared divider, and raises no fault. (R246) -/
  | div (o : OpA)
  /-- Writes the remainder of a truncating division, using the shared divider. (R246) -/
  | rem (o : OpA)
  /-- Bitwise AND of two g registers. (R246) -/
  | and (o : OpA)
  /-- Bitwise OR of two g registers. (R246) -/
  | or (o : OpA)
  /-- Bitwise XOR of two g registers. (R246) -/
  | xor (o : OpA)
  /-- Writes g[a] AND NOT g[b]. (R246) -/
  | andn (o : OpA)
  /-- Shifts left by a register or immediate count modulo W. (R246) -/
  | shl (o : OpA)
  /-- Shifts right logically by a count modulo W. (R246) -/
  | shr (o : OpA)
  /-- Shifts right arithmetically by a count modulo W. (R246) -/
  | sar (o : OpA)
  /-- Rotates left by a count modulo W. (R246) -/
  | rot (o : OpA)
  /-- Writes the smaller of two signed or unsigned operands. (R246) -/
  | min (o : OpA)
  /-- Writes the larger of two signed or unsigned operands. (R246) -/
  | max (o : OpA)
  /-- Selects g[a] when g[c] is non-zero, and g[b] otherwise. (R247) -/
  | sel (o : OpA)
  /-- Writes 1 when the chosen condition holds between the two operands, and 0 otherwise. (R247) -/
  | cmp (o : OpA)
  /-- Counts the leading zero bits of g[a]. (R246) -/
  | clz (o : OpA)
  /-- Counts the trailing zero bits of g[a]. (R246) -/
  | ctz (o : OpA)
  /-- Counts the one bits of g[a]. (R246) -/
  | popc (o : OpA)
  /-- Sign-extends or zero-extends an 8-, 16- or 32-bit value. (R247) -/
  | sext (o : OpA)
  /-- Extracts a bit field, sign-extended or zero-extended. (R247) -/
  | bfx (o : OpA)
  /-- Inserts the low bits of g[a] into a bit field of g[d]. (R247) -/
  | bfi (o : OpA)
  /-- Forms a base plus a scaled index, keeping the base's device field. (R247) -/
  | lea (o : OpA)
  /-- Adds a sign-extended 32-bit immediate to g[a]. (R248) -/
  | addi (o : OpI)
  /-- Writes a sign-extended or zero-extended 32-bit immediate. (R248) -/
  | movi (o : OpI)
  /-- Writes the immediate into the upper 32 bits and keeps the low 32 bits of g[a]. (R248) -/
  | movhi (o : OpI)
  /-- Branches when g[a] and g[b] satisfy the condition code. (R249) -/
  | br (o : OpB)
  /-- Branches when g[a] is zero, or when it is non-zero. (R250) -/
  | brz (o : OpB)
  /-- Transfers control to a PC-relative target. (R250) -/
  | jmp (o : OpB)
  /-- Writes the link register and transfers control to the target. (R250) -/
  | call (o : OpB)
  /-- Decrements a counter and branches while it stays non-zero. (R250) -/
  | loop (o : OpB)
  /-- Sends a launch to the executing core, at the target with two arguments. (R251) -/
  | fork (o : OpB)
  /-- Jumps to the address in g[a] and optionally writes a link. (R252) -/
  | jr (o : OpA)
  /-- Returns to the address in g[a]. (R252) -/
  | ret (o : OpA)
  /-- Commits a handler, releases its send buffer and slot and makes the context idle; outside handler mode it ends the context. (R255) -/
  | hret (o : OpE)
  /-- Discards a handler's effects and puts its message back at the tail of its class. (R256) -/
  | habort (o : OpE)
  /-- Sets bits of the core's hold register and returns its old value. (R257) -/
  | hold (o : OpE)
  /-- Clears bits of the core's hold register and returns its old value. (R257) -/
  | release (o : OpE)
  /-- Gives up the issue slot for n cycles. (R258) -/
  | yield (o : OpE)
  /-- Stops a gang member when a pre-emption request is pending, and otherwise acts as YIELD #0. (R258) -/
  | gyield (o : OpE)
  /-- Arrives at the cluster's wired barrier or the gang's mesh barrier and parks. (R259) -/
  | gbar (o : OpE)
  /-- Does nothing. (R232) -/
  | nop (o : OpE)
  /-- A word that names no instruction faults ILLEGAL-OPCODE, PRIV or ILLEGAL-ENCODING at issue. (R231) -/
  | illegalPattern (w : Word)
  /-- Loads 1 to 8 bytes on path 0 into g[d]. (R284) -/
  | ld (o : OpM)
  /-- Stores 1 to 8 bytes of g[d] on path 0, into the write log in handler mode. (R284) -/
  | st (o : OpM)
  /-- Loads 64 bytes into a vector register, or pushes them to a q port. (R284) -/
  | ldv (o : OpM)
  /-- Stores 64 bytes from a vector register or from a q-port pop. (R284) -/
  | stv (o : OpM)
  /-- Loads a vector register from equally spaced elements. (R285) -/
  | lds (o : OpM)
  /-- Peeks a word of a commons region, from a cached line or at the slice. (R287) -/
  | ldP (o : OpM)
  /-- Loads at the home slice and records the line's stamp in the track set. (R288) -/
  | ldt (o : OpM)
  /-- Prefetches a line into the data cache or into L2, and never faults. (R290) -/
  | pref (o : OpM)
  /-- Writes back the dirty lines of held regions in a range, and optionally invalidates them. (R291) -/
  | flush (o : OpM)
  /-- Drops the peeked lines of a range from the core's data cache. (R289) -/
  | acq (o : OpM)
  /-- Orders the later accesses on the destination paths after the earlier accesses on the source paths. (R180) -/
  | fence (o : OpE)
  /-- Posts an ordered-class store to the home slice. (R292) -/
  | sts (o : OpM)
  /-- Posts an adaptive-class store to the home slice. (R292) -/
  | stsA (o : OpM)
  /-- Performs an atomic slice operation, ADD to CAS, returning the old value or posted. (R293) -/
  | slop (o : OpM)
  /-- Conditionally writes up to four tracked words in one performance at one slice. (R295) -/
  | cmls (o : OpM)
  /-- Adds into the core's aggregation buffer for a later slice add. (R294) -/
  | agg (o : OpM)
  /-- Lends a region's token to a target after the implied flush. (R115) -/
  | tklend (o : OpA)
  /-- Returns a borrowed token to its lender, or frees a region that is not on loan. (R115) -/
  | tkret (o : OpA)
  /-- Splits a region into two buddy entries. (R115) -/
  | tksplit (o : OpA)
  /-- Joins two buddy regions into one entry. (R115) -/
  | tkjoin (o : OpA)
  /-- Freezes a region and gives a read share to a target. (R301) -/
  | tkshare (o : OpA)
  /-- Drops the issuer's share, unfreezing the region at zero shares. (R115) -/
  | tkdrop (o : OpA)
  /-- Parks a token or a share on a cell or a request record. (R300) -/
  | tkpark (o : OpA)
  /-- Carves a new region from the account's pool, subject to its quota. (R118) -/
  | tkcarve (o : OpA)
  /-- Reads the four words of the covering token entry. (R299) -/
  | tkstat (o : OpA)
  /-- Reclaims the tokens of a killed core at every home slice. (R302) -/
  | tkclaim (o : OpA)
  /-- Clears the taint of the covering entry. (R302) -/
  | tkclean (o : OpA)
  /-- Adds lanes, rounding for float formats. (R266) -/
  | vadd (o : OpV)
  /-- Subtracts lanes. (R266) -/
  | vsub (o : OpV)
  /-- Multiplies lanes. (R266) -/
  | vmul (o : OpV)
  /-- Performs a fused multiply-add per lane with one rounding. (R266) -/
  | vfma (o : OpV)
  /-- Writes the lane minimum. (R267) -/
  | vmin (o : OpV)
  /-- Writes the lane maximum. (R267) -/
  | vmax (o : OpV)
  /-- Writes the lane absolute value. (R266) -/
  | vabs (o : OpV)
  /-- Negates each lane. (R266) -/
  | vneg (o : OpV)
  /-- Adds pairwise 16-bit products into 32-bit lanes. (R268) -/
  | vdot (o : OpV)
  /-- Compares lanes and writes a predicate register. (R269) -/
  | vcmp (o : OpV)
  /-- Selects each lane from A or B by the predicate. (R270) -/
  | vsel (o : OpV)
  /-- Converts the elements of one part between formats. (R271) -/
  | vcvt (o : OpV)
  /-- Reduces the lanes in a fixed tree into lane 0. (R272) -/
  | vred (o : OpV)
  /-- Permutes the lanes of A by the indices in B. (R273) -/
  | vperm (o : OpV)
  /-- Broadcasts one lane or one g value to every lane. (R274) -/
  | vbcast (o : OpV)
  /-- Copies a vector, or moves one lane to a g register. (R275) -/
  | vmov (o : OpV)
  /-- Writes base plus the lane index into each lane. (R276) -/
  | viota (o : OpV)
  /-- Bitwise AND of lanes. (R277) -/
  | vand (o : OpV)
  /-- Bitwise OR of lanes. (R277) -/
  | vor (o : OpV)
  /-- Bitwise XOR of lanes. (R277) -/
  | vxor (o : OpV)
  /-- Shifts lanes left. (R277) -/
  | vshl (o : OpV)
  /-- Shifts lanes right, logically or arithmetically. (R277) -/
  | vshr (o : OpV)
  /-- Writes the correctly rounded reciprocal of each lane. (R278) -/
  | vrcp (o : OpV)
  /-- Writes the correctly rounded reciprocal square root of each lane. (R278) -/
  | vrsq (o : OpV)
  /-- Writes the correctly rounded 2^x of each lane. (R278) -/
  | vexp2 (o : OpV)
  /-- Writes the correctly rounded log2 of each lane. (R278) -/
  | vlog2 (o : OpV)
  /-- ANDs two predicate registers. (R279) -/
  | pand (o : OpV)
  /-- ORs two predicate registers. (R279) -/
  | por (o : OpV)
  /-- Inverts a predicate register. (R279) -/
  | pnot (o : OpV)
  /-- Moves between predicate registers, or between a predicate and a g register. (R279) -/
  | pmov (o : OpV)
  /-- Loads all 16 entries of the core's I4 table from memory. (R280) -/
  | i4tab (o : OpS)
  /-- Takes a cell block from the reservoir and buffers the cell's write. (R306) -/
  | cnew (o : OpE)
  /-- Writes one word of an existing cell at its home slice. (R307) -/
  | cset (o : OpE)
  /-- Takes an allocated, empty wire slot from the reservoir. (R306) -/
  | wnew (o : OpE)
  /-- Joins two ends, forming a pair or swapping into a wire slot. (R308) -/
  | link (o : OpE)
  /-- Reads the X word of a cell at its home slice. (R310) -/
  | cxld (o : OpE)
  /-- Returns the reservoir count for a heap and kind, and requests more items. (R311) -/
  | cgrab (o : OpE)
  /-- Sends a 48-byte message of a class to a core, context or locus. (R312) -/
  | send (o : OpE)
  /-- Frees the handler's inbox slot at once. (R314) -/
  | mrel (o : OpE)
  /-- Opens the core's chord toward a receive port. (R316) -/
  | chopen (o : OpE)
  /-- Sends 64 bytes over the open chord. (R316) -/
  | chput (o : OpE)
  /-- Takes the oldest entry of the receive port. (R316) -/
  | chget (o : OpE)
  /-- Sends the closing marker and gives up the chord. (R316) -/
  | chclose (o : OpE)
  /-- Writes a value into a ring neighbour's register. (R317) -/
  | nput (o : OpE)
  /-- Reads an s-register, popping for sr.n0 to sr.n3. (R318) -/
  | srd (o : OpS)
  /-- Writes an s-register, from the next switch group. (R318) -/
  | swr (o : OpS)
  /-- Raises the TRAP fault with code k. (R319) -/
  | trap (o : OpS)
  /-- Stops a context and saves it into a control block. (R320) -/
  | ctxsave (o : OpS)
  /-- Restores a control block onto an idle context, held or started. (R321) -/
  | ctxrest (o : OpS)
  /-- Raises the context's vector allotment. (R322) -/
  | vgrow (o : OpS)
  /-- Lowers the context's vector allotment. (R322) -/
  | vshrink (o : OpS)
  /-- Arms or disarms the context's watchdog. (R323) -/
  | wdog (o : OpS)
  /-- Recodes a tile of weights into the shadow plane under a term budget. (R328) -/
  | mstat (o : OpE)
  /-- Joins the cluster's lattice barrier and submits a lattice job. (R329) -/
  | mgang (o : OpE)
  /-- Waits for a lattice job and returns its status and flags. (R332) -/
  | mwait (o : OpE)
  /-- Waits until the job's draining segments of this group are freed. (R333) -/
  | mdrain (o : OpE)
  /-- Writes a vector to memory and frees an accumulator row segment. (R334) -/
  | memit (o : OpE)
  /-- Copies accumulator segments into a tile register. (R335) -/
  | ald (o : OpE)
  /-- Copies or adds a tile register into accumulator segments. (R335) -/
  | ast (o : OpE)
  /-- Frees accumulator segments and clears their poison. (R335) -/
  | mzero (o : OpE)
  /-- Reads a term counter or a span of the core's column group. (R336) -/
  | mterm (o : OpE)
  /-- Submits a job to the cluster job queue. (R337) -/
  | job (o : OpE)
  /-- Returns a job's status word. (R339) -/
  | jpoll (o : OpE)
  /-- Waits until a job is done or faulted. (R339) -/
  | jwait (o : OpE)
  /-- Takes the oldest queued job. (R337) -/
  | jnext (o : OpE)
  /-- Ends the held job and moves it to the completion table. (R338) -/
  | jdone (o : OpE)
  /-- Copies bytes into a tile register or the stream buffer, lowering a byte barrier. (R341) -/
  | tload (o : OpE)
  /-- Copies n bytes on the access engine. (R342) -/
  | bulk (o : OpE)
  /-- Gathers 16 indexed words to memory or a q port. (R343) -/
  | gather (o : OpE)
  /-- Scatters 16 words to indexed addresses. (R343) -/
  | scatter (o : OpE)
  /-- Gathers indexed rows into a tile or the stream buffer. (R344) -/
  | rgather (o : OpE)
  /-- Moves one entry between memory and an execute core's data queue. (R345) -/
  | qpush (o : OpE)
  /-- Pushes a bit into a branch-outcome queue. (R346) -/
  | boqp (o : OpE)
  /-- Pops a bit and branches when it is 1. (R346) -/
  | broq (o : OpE)
  /-- Sets a byte barrier's pending count. (R347) -/
  | bari (o : OpE)
  /-- Waits until a byte barrier reaches zero or below. (R347) -/
  | waitb (o : OpE)
  /-- Opens a reduction or multicast group from a descriptor. (R348) -/
  | gopen (o : OpE)
  /-- Sends a payload to every member of a multicast group. (R349) -/
  | gsend (o : OpE)
  /-- Contributes a value to a reduction round. (R350) -/
  | gred (o : OpE)
  /-- Waits until the group's inflight count reaches 0. (R351) -/
  | gdrain (o : OpE)
  /-- Sets a group to draining. (R351) -/
  | gclose (o : OpE)
  /-- Records a generated token in a request record and tests the stop condition. (R352) -/
  | rqnote (o : OpE)
  /-- Faults a request and clears its slot mask bit. (R353) -/
  | rqflt (o : OpE)
  /-- Reads a slot table entry of a batch graph. (R354) -/
  | rqslot (o : OpE)
  /-- Checks node records and starts a graph instance. (R355) -/
  | grlaunch (o : OpE)
  /-- Completes a running NET node. (R356) -/
  | grsig (o : OpE)
  /-- A context parked at a group end becomes ready in the cycle after its last result returns. (R188) -/
  | contextReady (c : Nat)
  /-- A handler's or member's budget runs out, faulting BUDGET or pre-empting the gang. (R147) -/
  | budgetExpiry (c : Nat)
  /-- The watchdog expires and the context stops at its next group end. (R323) -/
  | watchdogExpiry (c : Nat)
  /-- The die's fault queue delivers a fault record as a class-26 message to an apex core. (R200) -/
  | faultQueueDelivery (die : Nat)
  /-- The apex resumes a trapped context at the faulting instruction. (R201) -/
  | trapResume (c : Nat)
  /-- The apex releases a trapped handler so that its message runs again. (R201) -/
  | trapRelease (c : Nat)
  /-- The apex retires a context and raises its lease. (R201) -/
  | trapRetire (c : Nat)
  /-- A message reaches a core's inbox and is accepted or refused. (R137) -/
  | messageArrival (id : Nat)
  /-- A refusal arrives back at the retry entry, which arms its back-off or gives up. (R139) -/
  | refusalReturn (id : Nat)
  /-- The back-off wait expires and the message flies again. (R139) -/
  | messageRetry (id : Nat)
  /-- A notice enters a notice slot, or goes to apex core 14, when one frees. (R137) -/
  | noticeDelivery (id : Nat)
  /-- After HRET a send-buffer entry leaves once a retry entry is free. (R139) -/
  | sendBufferEntryLeave (c : Nat)
  /-- A class-27 launch reaches a core and starts an idle context or waits. (R183) -/
  | launch (id : Nat)
  /-- A waiting launch starts when a context becomes idle. (R184) -/
  | waitingLaunchStart (core : Nat)
  /-- The selector starts the chosen routine on an idle context. (R126) -/
  | routineSelect (core : Nat)
  /-- The owner pops a pair from the bottom of its deque and starts its dispatch. (R138) -/
  | dequePop (core : Nat)
  /-- An eligible core sends a steal probe in its cycle slot. (R138) -/
  | stealProbe (core : Nat)
  /-- A stolen entry reaches the stealer and is dispatched. (R138) -/
  | stealArrival (id : Nat)
  /-- The network interface begins taking both cells of a pair. (R29) -/
  | pairDispatch (core : Nat) (slot : Nat)
  /-- A home slice reads a cell, marks it freed and moves its parked tokens. (R29) -/
  | cellTake (core : Nat) (slot : Nat) (second : Bool)
  /-- Both takes return, the inbox slot is filled and the routine marked ready. (R29) -/
  | pairSlotReady (core : Nat) (slot : Nat)
  /-- A link arrives at a wire slot's home slice and swaps, completing or continuing the wire. (R33) -/
  | linkSwap (id : Nat)
  /-- A placed item is offered to the cores of each vertex on its route, or joins an inbox at its locus. (R186) -/
  | pairPlacement (id : Nat)
  /-- A CNEW or CSET write is performed at the cell's home slice. (R307) -/
  | cellWrite (id : Nat)
  /-- Requested cell blocks or wire slots arrive in the core's reservoir. (R304) -/
  | reservoirRefill (core : Nat)
  /-- A read, slice operation or posted store is performed at its home slice in the slice order. (R161) -/
  | sliceAccess (id : Nat)
  /-- A slice's acknowledgement of a posted store returns to the core. (R292) -/
  | postedStoreAck (id : Nat)
  /-- An aggregation entry is flushed as a slice add, 256 cycles after its first add. (R294) -/
  | aggFlush (core : Nat)
  /-- A missed data-cache line arrives and the parked context continues. (R96) -/
  | lineFill (core : Nat) (line : Nat)
  /-- A missed instruction line arrives and the context may issue again. (R96) -/
  | instructionFetchFill (core : Nat) (line : Nat)
  /-- After the 24-cycle hold the slice issues the channel command for a miss. (R97) -/
  | l2ChannelCommand (slice : Nat) (line : Nat)
  /-- Sectors arrive from memory and complete the joined misses. (R97) -/
  | sectorArrival (slice : Nat) (line : Nat)
  /-- A walk read returns, and the walk continues, completes or faults. (R92) -/
  | pageWalkRead (vertex : Nat)
  /-- A token-cache miss probes the candidate entries and fills or faults. (R112) -/
  | tokenWalk (c : Nat)
  /-- A write-back of an implied flush is acknowledged by its slice. (R117) -/
  | writeBackAck (id : Nat)
  /-- A token instruction changes its entry at the home slice. (R117) -/
  | tokenEntryChange (id : Nat)
  /-- A pending lattice job starts once its segments are free or kept. (R330) -/
  | latticeJobStart (vertex : Nat)
  /-- A lattice job ends at E, updating segments, counters and drains. (R330) -/
  | latticeJobEnd (vertex : Nat) (disagree : Bool)
  /-- The access engine performs one line of a transfer. (R340) -/
  | accessTransferLine (vertex : Nat)
  /-- A delivery lowers a byte barrier and may wake its waiters. (R145) -/
  | barrierDecrement (vertex : Nat)
  /-- A party parked on a full or empty queue half resumes. (R140) -/
  | dataQueueResume (c : Nat)
  /-- A stalled NPUT or neighbour read resumes when the presence bit changes. (R80) -/
  | neighbourResume (c : Nat)
  /-- Every cluster has arrived and the gang's members resume. (R259) -/
  | meshBarrierComplete (gang : Nat)
  /-- A chord word arrives in the receive port. (R143) -/
  | chordWordArrival (core : Nat)
  /-- The open timeout expires and CHOPEN faults. (R143) -/
  | chordTimeout (c : Nat)
  /-- The walker marks a node eligible in the cycle after its completing predecessor. (R189) -/
  | nodeEligible (gi : Nat) (node : Nat)
  /-- The walker starts an eligible node, at most one every 4 cycles per die. (R189) -/
  | nodeStart (die : Nat)
  /-- The walker reads a COND, SWITCH or LOOP word and takes successors. (R191) -/
  | nodeEvaluate (gi : Nat) (node : Nat)
  /-- A NET node sends its seed pair with an inline ROOT. (R397) -/
  | netSeed (gi : Nat) (node : Nat)
  /-- The walker reserves a member core's context as it becomes idle. (R193) -/
  | gangReserve (gang : Nat) (core : Nat)
  /-- All members start in one cycle once every core holds a reservation. (R193) -/
  | gangStart (gang : Nat)
  /-- The batch former releases, retires, evicts, admits and writes the slot area. (R196) -/
  | batchStep (gi : Nat) (node : Nat)
  /-- A node completes, and its successors' predecessor counts advance. (R190) -/
  | nodeComplete (gi : Nat) (node : Nat)
  /-- A pre-emption request for a gang is raised. (R194) -/
  | gangPreempt (gang : Nat)
  /-- When every member has stopped, the device saves them and frees their contexts. (R194) -/
  | gangSave (gang : Nat) (block : Nat)
  /-- A leading copy's output is performed once the trailing copy produces it. (R213) -/
  | lockstepOutput (c : Nat) (agree : Bool)
  /-- A core is killed: its contexts stop and its state is lost. (R215) -/
  | coreKill (core : Nat) (checker : Bool)
  /-- The apex contains a killed core in the steps of Table 14-2. (R216) -/
  | containment (core : Nat)
  /-- The apex acts on a recovery routine's class-24 answer for a reclaimed region. (R217) -/
  | regionRecovery (base : Nat) (clean : Bool) (holder : Nat)
  /-- An uncorrectable error marks a sector poisoned. (R91) -/
  | uncorrectableError (pa : Nat)
  /-- ralload removes rules and every rule cache is invalidated. (R123) -/
  | ruleRemoval (slots : List Nat)
  /-- The routine service writes or refuses a routine table entry. (R124) -/
  | routineWrite (core : Nat) (index : Nat) (w0 : Word) (w1 : Word)
  /-- A host read through BAR2 is translated, checked and performed. (R383) -/
  | apertureRead (requester : Nat) (offset : Nat) (count : Nat)
  /-- A host posted write through BAR2 is performed or dropped. (R383) -/
  | apertureWrite (requester : Nat) (offset : Nat) (data : List Byte)
  /-- A write to a BAR0 register that has no behaviour of its own. (R383) -/
  | controlRegisterWrite (requester : Nat) (offset : Nat) (data : List Byte)
  /-- Writing LTARGET sends a host launch from the LAUNCH words. (R384) -/
  | ltarget (requester : Nat) (target : Word)
  /-- The bridge replays a refused host launch after back-off. (R185) -/
  | hostLaunchRetry (id : Nat)
  /-- The doorbell write makes new command entries available to the apex. (R385) -/
  | ringtail (requester : Nat) (value : Word)
  /-- The host advances EVHEAD and the device writes backlogged events. (R385) -/
  | evhead (requester : Nat) (value : Word)
  /-- Writing RESYNC aborts pending commands and writes the summary. (R386) -/
  | resync (requester : Nat) (buffer : Word)
  /-- Host command that invalidates a page in every TLB. (R92) -/
  | unmap (tag : Nat) (root : Nat) (va : Nat)
  /-- Host command that sets an account's quota. (R385) -/
  | quota (tag : Nat) (account : Nat) (units : Nat)
  /-- Host command that writes counters and power readings to host memory. (R385) -/
  | telemetry (tag : Nat) (buffer : Nat) (select : Word)
  /-- Host command that clears the start record's fallbacks. (R385) -/
  | clrstart (tag : Nat)
  /-- Host command that copies and verifies an image into the inactive slot. (R391) -/
  | fwstage (tag : Nat) (image : Nat) (size : Nat)
  /-- Host command that signs a nonce with the identity key. (R392) -/
  | attest (tag : Nat) (buffer : Nat)
  /-- Host command that sets the power limit. (R393) -/
  | powerlim (tag : Nat) (watts : Nat)
  /-- A command with an unknown opcode completes with status 3. (R385) -/
  | unknownCommand (tag : Nat) (opcode : Nat)
  /-- A CXL port goes down: its accesses poison and an event is raised. (R388) -/
  | cxlLinkDown (port : Nat)
  /-- A Ralquel port fails and ordered traffic moves to the next port. (R390) -/
  | ralquelPortDown (port : Nat) (lost : List Nat)
  /-- While its clock is stopped, a module sends a stop notice every 100 µs. (R219) -/
  | stopNotice
  /-- A peer receives a stop notice and holds its traffic to the device. (R219) -/
  | stopNoticeReceived (device : Nat)
  /-- After 1 ms of silence a module is declared lost and its regions are claimed. (R219) -/
  | peerLost (device : Nat)
  /-- A power or temperature limit is reached and a thermal event is reported. (R393) -/
  | limitReached (die : Nat) (cause : Nat)
  /-- An emergency limit stops the module clock. (R20) -/
  | emergencyLimit (die : Nat)
  /-- Readings fall below the emergency limits and the clock starts again. (R393) -/
  | clockRestart
  /-- Reset runs the start-up steps and records them in the start record. (R222) -/
  | startUp (cfg : StartConfig)
  /-- Loss of power interrupts a start-up step, which is recorded as failed at the next start. (R394) -/
  | powerLoss (step : Nat)
  /-- A host command's work ends, its completion event is written, and the next ring entry starts. (R398) -/
  | hostCommandCompletion
  /-- The apex adds a spill region to a core whose deque and spill region are full, letting the parked HRET complete. (R138) -/
  | spillRegionAdd (region : SpillRegion)
  /-- A device whose clock was stopped answers again, and its peers release the accesses and messages they held for it. (R219) -/
  | peerAnswersAgain (device : Nat)
  /-- ralload adds a resident's rule entries to the rule table before its first net is seeded. (R123) -/
  | ruleAddition (rules : List RuleWrite)
  /-- The apex firmware asks to pre-empt a context that is not a gang member, reserving it at once if idle or at its handler's end. (R195) -/
  | contextPreemptRequest (c : Nat)
  /-- The apex firmware releases a context it holds reserved, so that it takes work again. (R206) -/
  | reservedContextRelease (c : Nat)
  /-- The apex registers more cell-heap or wire-heap lines with their home slices, adding free items. (R305) -/
  | heapLineRegistration (wire : Bool) (heap : Nat) (base : Nat) (size : Nat) (account : Nat)
  /-- The apex adds free blocks to an account's pool after a QUOTA reason-1 fault. (R118) -/
  | accountPoolAddition (account : Nat) (base : Nat) (lsize : Nat)
  /-- ralload writes a batch-graph register from a .slotarea directive and zeroes the slot area. (R130) -/
  | batchGraphRegisterWrite (graph : Nat) (load : BatchLoad)
deriving DecidableEq, Repr

end Sys2Proof
end

