-- ==== Sys2Proof/Machine/Accept.lean ====
section
/-! DEFINITION. Which field values an instruction accepts (R226, R233 step 2): everything that does not depend on the core
or the state. A word whose fields are not accepted faults ILLEGAL-ENCODING. -/

namespace Sys2Proof

/-- A lane format of R261: I16, N16, I32, N32, FP16, BF16, FP32. -/
def isLaneFmt (f : Nat) : Bool := (2 ≤ f && f ≤ 5) || (11 ≤ f && f ≤ 13)
/-- FP16, BF16 or FP32. -/
def isFloatFmt (f : Nat) : Bool := 11 ≤ f && f ≤ 13
/-- Lanes of a lane format (R261). -/
def laneCount (f : Nat) : Nat := if f = 4 || f = 5 || f = 13 then 16 else 32
/-- Bits of an element of a format (Table 03-1). -/
def fmtBits (f : Nat) : Nat :=
  match f with
  | 0 | 1 | 10 => 8
  | 2 | 3 | 11 | 12 => 16
  | 4 | 5 | 13 => 32
  | 6 | 7 => 64
  | 8 => 4
  | 9 => 6
  | _ => 0

/-- A format of VCVT (R271). -/
def isCvtFmt (f : Nat) : Bool := f < 14 && f ≠ 6 && f ≠ 7
/-- Elements one VCVT converts (R271). -/
def cvtCount (dst src : Nat) : Nat := if fmtBits dst = 32 || fmtBits src = 32 then 16 else 32

/-- A source slot that the instruction uses as a vector field: v0–v47, or q0–q3 without a hold (R70, R262). -/
def slotOk (r hold : Nat) : Bool := r < 48 || (r < 52 && hold = 0)
/-- A source slot that the instruction does not use (R262). -/
def slotFree (r hold : Nat) : Bool := r = 0 && hold = 0

def holdA (o : OpV) : Nat := (o.hold.toNat / 4) % 2
def holdB (o : OpV) : Nat := (o.hold.toNat / 2) % 2
def holdC (o : OpV) : Nat := o.hold.toNat % 2

/-- A vector destination of a write-masking instruction: a q port only with p0 (R263). -/
def maskedDest (o : OpV) : Bool := o.d.toNat < 48 || (o.d.toNat < 52 && o.pred = 0)

/-- rnd and limm of the arithmetic of major 0x40 that rounds (Table 17-1). -/
def roundsOk (o : OpV) : Bool :=
  if isFloatFmt o.fmt.toNat then o.rnd.toNat ≤ 5 && o.limm = 0 else o.rnd = 0 && o.limm.toNat ≤ 1

/-- Two-source arithmetic of major 0x40. -/
def acceptsArith2 (o : OpV) : Bool :=
  isLaneFmt o.fmt.toNat && roundsOk o && maskedDest o && slotOk o.a.toNat (holdA o) && slotOk o.b.toNat (holdB o) && slotFree o.c.toNat (holdC o)

/-- VMIN, VMAX, VPERM, VAND, VOR, VXOR: two sources, no rounding, limm zero. -/
def acceptsPlain2 (o : OpV) : Bool :=
  isLaneFmt o.fmt.toNat && o.rnd = 0 && o.limm = 0 && maskedDest o && slotOk o.a.toNat (holdA o) && slotOk o.b.toNat (holdB o) && slotFree o.c.toNat (holdC o)

/-- VABS, VNEG. -/
def acceptsSign (o : OpV) : Bool :=
  isLaneFmt o.fmt.toNat && o.rnd = 0 && (if isFloatFmt o.fmt.toNat then o.limm = 0 else o.limm.toNat ≤ 1) && maskedDest o &&
    slotOk o.a.toNat (holdA o) && slotFree o.b.toNat (holdB o) && slotFree o.c.toNat (holdC o)

/-- VRCP, VRSQ, VEXP2, VLOG2. -/
def acceptsFun (o : OpV) : Bool :=
  isFloatFmt o.fmt.toNat && o.rnd.toNat ≤ 5 && o.limm = 0 && maskedDest o && slotOk o.a.toNat (holdA o) && slotFree o.b.toNat (holdB o) && slotFree o.c.toNat (holdC o)

/-- VSHL, VSHR (R277). -/
def acceptsShift (o : OpV) : Bool :=
  2 ≤ o.fmt.toNat && o.fmt.toNat ≤ 5 && o.rnd = 0 && maskedDest o && slotOk o.a.toNat (holdA o) && slotFree o.c.toNat (holdC o) &&
    (if 2048 ≤ o.limm.toNat then slotFree o.b.toNat (holdB o) && o.limm.toNat - 2048 < fmtBits o.fmt.toNat && o.limm.toNat - 2048 < 32
     else o.limm = 0 && slotOk o.b.toNat (holdB o))

/-- A floating-point format of any width (Table 03-1). -/
def isFloating (f : Nat) : Bool := isFloatFmt f || f = 9 || f = 10

/-- VCVT: rnd is used with a float format only (R264, R271). -/
def acceptsVcvt (o : OpV) : Bool :=
  let src := o.limm.toNat % 16
  let sp := (o.limm.toNat / 16) % 8
  let dp := (o.limm.toNat / 128) % 8
  let dst := o.fmt.toNat
  let n := cvtCount dst src
  isCvtFmt dst && isCvtFmt src && o.limm.toNat < 1024 && n * (sp + 1) ≤ 512 / fmtBits src && n * (dp + 1) ≤ 512 / fmtBits dst &&
    (if dst = 8 || !(isFloating dst || isFloating src) then o.rnd = 0 else o.rnd.toNat ≤ 5) && maskedDest o && slotOk o.a.toNat (holdA o) && slotFree o.b.toNat (holdB o) && slotFree o.c.toNat (holdC o)

def acceptsVred (o : OpV) : Bool :=
  let op := o.limm.toNat % 8
  isLaneFmt o.fmt.toNat && op ≤ 5 && o.limm.toNat < 16 && (o.limm.toNat < 8 || (op = 0 && !isFloatFmt o.fmt.toNat)) &&
    (o.rnd = 0 || (o.rnd.toNat ≤ 5 && op = 0 && isFloatFmt o.fmt.toNat)) && o.d.toNat < 52 &&
    slotOk o.a.toNat (holdA o) && slotFree o.b.toNat (holdB o) && slotFree o.c.toNat (holdC o)

def acceptsVbcast (o : OpV) : Bool :=
  isLaneFmt o.fmt.toNat && o.rnd = 0 && maskedDest o && slotFree o.b.toNat (holdB o) && slotFree o.c.toNat (holdC o) &&
    (if 2048 ≤ o.limm.toNat then o.limm.toNat = 2048 && holdA o = 0
     else o.limm.toNat < laneCount o.fmt.toNat && slotOk o.a.toNat (holdA o))

def acceptsVmov (o : OpV) : Bool :=
  isLaneFmt o.fmt.toNat && o.rnd = 0 && slotOk o.a.toNat (holdA o) && slotFree o.b.toNat (holdB o) && slotFree o.c.toNat (holdC o) &&
    (if 2048 ≤ o.limm.toNat then o.pred = 0 && o.limm.toNat - 2048 < laneCount o.fmt.toNat else o.limm = 0 && maskedDest o)

/-- PAND, POR, PNOT, PMOV: the fields that must be zero in all of them (R279). -/
def predZero (o : OpV) : Bool := o.c = 0 && o.pred = 0 && o.hold = 0 && o.fmt = 0 && o.rnd = 0

/-- No unused register field of major 0x01 is set, for an instruction of two sources. -/
def useDab (o : OpA) : Bool := o.c = 0
/-- The same for one source. -/
def useDa (o : OpA) : Bool := o.b = 0 && o.c = 0

/-- w; s; u with s (Table 16-2). -/
def modWsu (o : OpA) : Bool := let m := o.md.toNat; m < 8 && (m < 4 || (m / 2) % 2 = 1)
/-- w, u. -/
def modWu (o : OpA) : Bool := let m := o.md.toNat; m = 0 || m = 1 || m = 4 || m = 5
/-- w, i. -/
def modWi (o : OpA) : Bool := let m := o.md.toNat; m = 0 || m = 1 || m = 8 || m = 9

/-- The range of a cache-line instruction: offset [18:0] is n ÷ 32 − 1 (R289). -/
def rangeOk (o : OpM) : Bool := o.d = 0 && o.b = 0 && o.scale = 0 && o.width = 0 && o.offset.toNat < 2 ^ 19

/-- Widths and kinds of LD and LD.P (Table 18-1, R287). -/
def loadOk (o : OpM) : Bool := o.width.toNat ≤ 3 && (o.kind = 0 || (o.kind = 1 && o.width.toNat ≤ 2))
/-- A vector field with width 5. -/
def vecOk (o : OpM) : Bool := o.d.toNat < 52 && o.width = 5 && o.kind = 0

/-- Every register field of format E is zero. -/
def zeroDabc (o : OpE) : Bool := o.d = 0 && o.a = 0 && o.b = 0 && o.c = 0

/-- Weight and activation formats of the lattice (R63). -/
def isLatticeFmt (f : Nat) : Bool := f = 0 || (8 ≤ f && f ≤ 12)

/-- The static acceptance of R233 step 2, instruction by instruction. Events are always accepted. -/
def accepts : Instr → Bool
  | .add o | .sub o | .mul o => useDab o && modWsu o
  | .mulh o | .div o | .rem o | .min o | .max o => useDab o && modWu o
  | .and o | .or o | .xor o | .andn o => useDab o && o.md = 0
  | .shl o | .shr o | .sar o | .rot o => useDab o && modWi o
  | .sel o => o.md = 0
  | .cmp o => useDab o && o.md.toNat < 96 && (o.md.toNat / 2) % 2 = 0 && (o.md.toNat / 8) % 2 = 0
  | .clz o | .ctz o | .popc o => useDa o && o.md.toNat ≤ 1
  | .sext o => useDa o && o.md.toNat < 8 && o.md.toNat % 4 ≠ 3
  | .bfx o => (o.md = 0 || o.md = 4) && o.b.toNat + (o.c.toNat + 1) ≤ 64
  | .bfi o => o.md = 0 && o.b.toNat + (o.c.toNat + 1) ≤ 64
  | .lea o => useDab o && o.md.toNat < 4
  | .jr o => useDa o && o.md = 0
  | .ret o => useDa o && o.md = 0 && o.d = 0
  | .tklend o | .tkshare o => o.c = 0 && o.d = 0 && o.md = 0
  | .tkret o | .tkdrop o | .tkclean o => o.c = 0 && o.d = 0 && o.b = 0 && o.md = 0
  | .tksplit o | .tkjoin o | .tkclaim o => o.c = 0 && o.b = 0 && o.md = 0
  | .tkpark o => o.c = 0 && o.d = 0 && o.md.toNat ≤ 1
  | .tkcarve o => o.c = 0 && o.a = 0 && o.b = 0 && (o.md.toNat / 64) % 2 = 0 && 8 ≤ o.md.toNat % 64 && o.md.toNat % 64 ≤ 40
  | .tkstat o => o.c = 0 && o.b = 0 && o.md = 0 && 1 ≤ o.d.toNat && o.d.toNat ≤ 60
  | .addi o => o.md.toNat ≤ 1
  | .movi o => o.a = 0 && (o.md = 0 || o.md = 4)
  | .movhi o => o.md = 0
  | .br o => o.cl.toNat ≤ 9
  | .brz o => o.cl.toNat ≤ 1 && o.b = 0
  | .jmp o => o.cl = 0 && o.a = 0 && o.b = 0
  | .call o => o.a = 0 && o.b = 0
  | .loop o => o.cl = 0 && o.b = 0
  | .fork o => o.cl = 0
  | .ld o | .ldP o => loadOk o
  | .st o => o.width.toNat ≤ 3 && o.kind = 0
  | .ldt o => o.width.toNat ≤ 3 && o.kind.toNat ≤ 1
  | .pref o => o.d = 0 && o.width = 0 && o.kind.toNat ≤ 1
  | .flush o => rangeOk o && o.kind.toNat ≤ 1
  | .acq o => rangeOk o && o.kind = 0
  | .ldv o | .stv o => vecOk o
  | .lds o => (o.width = 1 || o.width = 2) && o.kind = 0 && o.d.toNat < 48
  | .sts o | .stsA o => (o.width.toNat ≤ 3 && o.kind = 0) || vecOk o
  | .slop o => (o.width = 2 || o.width = 3) && o.scale = 0
  | .cmls o => o.kind.toNat ≤ 3 && o.width = 3 && o.b = 0 && o.scale = 0 && o.offset = 0 && 1 ≤ o.a.toNat && o.a.toNat + 2 * (o.kind.toNat + 1) ≤ 64
  | .agg o => o.width = 3 && o.kind = 0 && o.d = 0 && o.scale = 0
  | .vadd o | .vsub o | .vmul o => acceptsArith2 o
  | .vfma o =>
    isLaneFmt o.fmt.toNat && roundsOk o && maskedDest o && slotOk o.a.toNat (holdA o) && slotOk o.b.toNat (holdB o) && slotOk o.c.toNat (holdC o)
  | .vdot o =>
    isLaneFmt o.fmt.toNat && laneCount o.fmt.toNat = 32 && roundsOk o && maskedDest o && slotOk o.a.toNat (holdA o) && slotOk o.b.toNat (holdB o) && slotOk o.c.toNat (holdC o)
  | .vmin o | .vmax o | .vperm o | .vand o | .vor o | .vxor o => acceptsPlain2 o
  | .vabs o | .vneg o => acceptsSign o
  | .vcmp o =>
    isLaneFmt o.fmt.toNat && o.rnd = 0 && o.d.toNat < 8 && o.limm.toNat < 8 && (o.limm.toNat < 6 || isFloatFmt o.fmt.toNat) &&
      slotOk o.a.toNat (holdA o) && slotOk o.b.toNat (holdB o) && slotFree o.c.toNat (holdC o)
  | .vsel o =>
    isLaneFmt o.fmt.toNat && o.rnd = 0 && o.limm = 0 && o.d.toNat < 52 && slotOk o.a.toNat (holdA o) && slotOk o.b.toNat (holdB o) && slotFree o.c.toNat (holdC o)
  | .vcvt o => acceptsVcvt o
  | .vred o => acceptsVred o
  | .vbcast o => acceptsVbcast o
  | .vmov o => acceptsVmov o
  | .viota o =>
    2 ≤ o.fmt.toNat && o.fmt.toNat ≤ 5 && o.rnd = 0 && o.limm.toNat < 256 && maskedDest o && slotFree o.a.toNat (holdA o) && slotFree o.b.toNat (holdB o) &&
      slotFree o.c.toNat (holdC o)
  | .vshl o | .vshr o => acceptsShift o
  | .vrcp o | .vrsq o | .vexp2 o | .vlog2 o => acceptsFun o
  | .pand o | .por o => predZero o && o.limm = 0 && o.d.toNat < 8 && o.a.toNat < 8 && o.b.toNat < 8
  | .pnot o => predZero o && o.limm = 0 && o.d.toNat < 8 && o.a.toNat < 8 && o.b = 0
  | .pmov o =>
    predZero o && o.b = 0 && o.limm.toNat ≤ 2 && (o.limm.toNat = 2 || o.d.toNat < 8) && (o.limm.toNat = 1 || o.a.toNat < 8)
  | .hret o | .habort o | .gyield o | .nop o | .mrel o | .chclose o => zeroDabc o && o.imm = 0
  | .hold o | .release o => o.b = 0 && o.c = 0
  | .yield o => zeroDabc o
  | .gbar o => zeroDabc o && o.imm.toNat ≤ 1
  | .fence o => zeroDabc o && o.imm.toNat % 256 < 32 && o.imm.toNat / 256 < 32
  | .cnew o => o.imm.toNat < 32
  | .cset o => o.d = 0 && o.c = 0 && o.imm.toNat < 4
  | .wnew o => o.a = 0 && o.b = 0 && o.c = 0 && o.imm.toNat < 16
  | .link o => o.d = 0 && o.c = 0 && o.imm = 0
  | .cxld o => o.b = 0 && o.c = 0 && o.imm = 0
  | .cgrab o => o.a = 0 && o.b = 0 && o.c = 0 && o.imm.toNat < 1024
  | .send o =>
    let cls := o.imm.toNat % 32
    o.c = 0 && o.imm.toNat < 64 && o.b.toNat ≤ 58 && cls ≠ 26 && cls < 28 && (o.imm.toNat < 32 || cls = 27)
  | .chopen o => o.d = 0 && o.b = 0 && o.c = 0 && o.imm = 0
  | .chput o => o.d = 0 && o.a.toNat < 52 && o.b = 0 && o.c = 0 && o.imm = 0
  | .chget o => o.d.toNat < 48 && o.a = 0 && o.b = 0 && o.imm = 0
  | .nput o => o.d = 0 && o.b = 0 && o.c = 0 && o.imm.toNat < 4
  | .mstat o => o.a.toNat < 8 && o.b = 0 && o.c = 0 && o.imm.toNat < 512 && (o.imm.toNat / 16) % 16 ≤ 8 && isLatticeFmt (o.imm.toNat % 16)
  | .mgang o => o.imm = 0
  | .mwait o | .mdrain o | .jpoll o | .jwait o | .waitb o => o.b = 0 && o.c = 0 && o.imm = 0
  | .memit o => o.d = 0 && o.b.toNat < 48 && (o.imm = 13 || o.imm = 4 || o.imm = 11 || o.imm = 12 || o.imm = 10 || o.imm = 0)
  | .ald o => o.d.toNat < 8 && o.a = 0 && o.b = 0 && o.imm.toNat < 32
  | .ast o => o.d = 0 && o.a.toNat < 8 && o.b = 0 && o.imm.toNat < 64
  | .mzero o => o.d = 0 && o.a = 0 && o.b = 0 && o.imm.toNat < 512
  | .mterm o => o.a = 0 && o.b = 0 && o.c = 0 && o.imm.toNat ≤ 4
  | .job o => o.imm = 0
  | .jnext o => 1 ≤ o.d.toNat && o.d.toNat ≤ 59 && o.a = 0 && o.b = 0 && o.c = 0 && o.imm = 0
  | .jdone o => o.d = 0 && o.b = 0 && o.c = 0 && o.imm.toNat < 256
  | .tload o => o.d = 0
  | .bulk o => o.d = 0 && (o.c = 0 || o.imm.toNat % 32768 = 0)
  | .gather o =>
    o.d = 0 && (if 32768 ≤ o.imm.toNat then o.a = 0 && o.imm.toNat - 32768 < 128 && (o.imm.toNat / 4) % 4 = 0 else o.imm = 0)
  | .scatter o => o.d = 0 && o.imm = 0
  | .rgather _ => true
  | .qpush o => o.d = 0 && o.b = 0 && o.c = 0 && o.imm.toNat < 512 && (o.imm.toNat / 128) % 2 = 0 && (o.imm.toNat / 4) % 4 = 0
  | .boqp o => o.d = 0 && o.b = 0 && o.c = 0 && o.imm.toNat < 8
  | .broq o => o.s = 1 && o.d = 0 && o.a = 0 && o.b = 0 && o.c.toNat < 8
  | .bari o | .gopen o | .gred o => o.d = 0 && o.c = 0 && o.imm = 0
  | .gsend o => o.d = 0 && o.c = 0 && o.imm.toNat ≤ 23 && 1 ≤ o.b.toNat && o.b.toNat ≤ 58
  | .gdrain o | .gclose o | .grsig o => o.d = 0 && o.b = 0 && o.c = 0 && o.imm = 0
  | .rqnote o | .rqflt o => o.imm = 0
  | .rqslot o => 1 ≤ o.d.toNat && o.d.toNat ≤ 60 && o.c = 0 && o.imm = 0
  | .grlaunch o => o.c = 0 && o.imm.toNat < 4096
  | .srd o => o.a = 0 && o.imm = 0
  | .swr o => o.d = 0 && o.imm = 0
  | .trap o => o.d = 0 && o.a = 0 && o.sreg = 0 && o.imm.toNat < 256
  | .ctxsave o => o.sreg = 0 && o.imm = 0
  | .ctxrest o => 1 ≤ o.d.toNat && o.d.toNat ≤ 62 && o.sreg = 0 && o.imm.toNat ≤ 1
  | .vgrow o | .vshrink o => o.d = 0 && o.a = 0 && o.sreg = 0 && 6 ≤ o.imm.toNat && o.imm.toNat ≤ 48 && o.imm.toNat % 6 = 0
  | .wdog o => o.d = 0 && o.sreg = 0 && o.imm = 0
  | .i4tab o => o.d = 0 && o.sreg = 0
  | _ => true

end Sys2Proof
end

