-- ==== Sys2Proof/WellFormed.lean ====
section
/-! DEFINITION. Well-formed instructions: the fields that `accepts` refuses fault ILLEGAL-ENCODING (R226, R233). -/

namespace Sys2Proof

/-- A well-formed instruction: its fields are accepted. -/
abbrev Instr.WellFormed (i : Instr) : Prop := accepts i = true

end Sys2Proof
end

