-- ==== Sys2Proof/Decode.lean ====
section
/-! DEFINITION. Decoding and encoding of the 64-bit instruction word (R223, R225, R230, R231). -/

namespace Sys2Proof

/-- Why a word is not an instruction (R231, Table 15-4). -/
inductive DecodeError where
  /-- The major opcode or its function names no instruction. -/
  | illegalOpcode
  /-- A reserved or unused field is not zero, or a used field holds a value that is not accepted. -/
  | illegalEncoding
deriving DecidableEq, Repr

/-- The seven formats of Table 15-1. -/
inductive Format where
  | A | I | M | B | V | E | S
deriving DecidableEq, Repr

/-- The format that a major opcode names (Table 15-3). -/
def formatOf (op : Nat) : Option Format :=
  match op with
  | 0x01 => some .A
  | 0x02 => some .I
  | 0x20 => some .B
  | 0x21 => some .A
  | 0x22 => some .E
  | 0x2F => some .E
  | 0x30 => some .M
  | 0x31 => some .E
  | 0x32 => some .M
  | 0x33 => some .A
  | 0x40 => some .V
  | 0x41 => some .V
  | 0x42 => some .V
  | 0x43 => some .V
  | 0x44 => some .V
  | 0x45 => some .V
  | 0x48 => some .V
  | 0x60 => some .E
  | 0x61 => some .E
  | 0x62 => some .E
  | 0x63 => some .E
  | 0x70 => some .E
  | 0x78 => some .E
  | 0x79 => some .E
  | 0x7A => some .E
  | 0x7B => some .E
  | 0x7C => some .E
  | 0x7E => some .S
  | _ => none

/-- The fields of a format-A word (Table 15-1). -/
def unpackA (w : Word) : OpA :=
  { s := w.extractLsb' 63 1, d := w.extractLsb' 50 6, a := w.extractLsb' 44 6, b := w.extractLsb' 38 6, c := w.extractLsb' 32 6, md := w.extractLsb' 16 8 }

/-- A format-A word from its major opcode, function and fields (Table 15-1). -/
def packA (op fn : Nat) (o : OpA) : Word :=
  o.s ++ (BitVec.ofNat 7 op) ++ o.d ++ o.a ++ o.b ++ o.c ++ (BitVec.ofNat 8 fn) ++ o.md ++ (0 : BitVec 16)

/-- The function field of format A. -/
def fnOfA (w : Word) : Nat := (w.extractLsb' 24 8).toNat

/-- The instruction of format A named by a major opcode and a function (Table 15-3). -/
def nameA (op fn : Nat) (o : OpA) : Option Instr :=
  match op, fn with
  | 0x01, 0x00 => some (.add o)
  | 0x01, 0x01 => some (.sub o)
  | 0x01, 0x02 => some (.mul o)
  | 0x01, 0x03 => some (.mulh o)
  | 0x01, 0x04 => some (.div o)
  | 0x01, 0x05 => some (.rem o)
  | 0x01, 0x08 => some (.and o)
  | 0x01, 0x09 => some (.or o)
  | 0x01, 0x0A => some (.xor o)
  | 0x01, 0x0B => some (.andn o)
  | 0x01, 0x10 => some (.shl o)
  | 0x01, 0x11 => some (.shr o)
  | 0x01, 0x12 => some (.sar o)
  | 0x01, 0x13 => some (.rot o)
  | 0x01, 0x18 => some (.min o)
  | 0x01, 0x19 => some (.max o)
  | 0x01, 0x1A => some (.sel o)
  | 0x01, 0x1B => some (.cmp o)
  | 0x01, 0x20 => some (.clz o)
  | 0x01, 0x21 => some (.ctz o)
  | 0x01, 0x22 => some (.popc o)
  | 0x01, 0x23 => some (.sext o)
  | 0x01, 0x28 => some (.bfx o)
  | 0x01, 0x29 => some (.bfi o)
  | 0x01, 0x2A => some (.lea o)
  | 0x21, 0x00 => some (.jr o)
  | 0x21, 0x01 => some (.ret o)
  | 0x33, 0x00 => some (.tklend o)
  | 0x33, 0x01 => some (.tkret o)
  | 0x33, 0x02 => some (.tksplit o)
  | 0x33, 0x03 => some (.tkjoin o)
  | 0x33, 0x04 => some (.tkshare o)
  | 0x33, 0x05 => some (.tkdrop o)
  | 0x33, 0x06 => some (.tkpark o)
  | 0x33, 0x07 => some (.tkcarve o)
  | 0x33, 0x08 => some (.tkstat o)
  | 0x33, 0x09 => some (.tkclaim o)
  | 0x33, 0x0A => some (.tkclean o)
  | _, _ => none

/-- The fields of a format-I word (Table 15-1). -/
def unpackI (w : Word) : OpI :=
  { s := w.extractLsb' 63 1, d := w.extractLsb' 50 6, a := w.extractLsb' 44 6, md := w.extractLsb' 32 8, imm := w.extractLsb' 0 32 }

/-- A format-I word from its major opcode, function and fields (Table 15-1). -/
def packI (op fn : Nat) (o : OpI) : Word :=
  o.s ++ (BitVec.ofNat 7 op) ++ o.d ++ o.a ++ (BitVec.ofNat 4 fn) ++ o.md ++ o.imm

/-- The function field of format I. -/
def fnOfI (w : Word) : Nat := (w.extractLsb' 40 4).toNat

/-- The instruction of format I named by a major opcode and a function (Table 15-3). -/
def nameI (op fn : Nat) (o : OpI) : Option Instr :=
  match op, fn with
  | 0x02, 0x00 => some (.addi o)
  | 0x02, 0x01 => some (.movi o)
  | 0x02, 0x02 => some (.movhi o)
  | _, _ => none

/-- The fields of a format-M word (Table 15-1). -/
def unpackM (w : Word) : OpM :=
  { s := w.extractLsb' 63 1, d := w.extractLsb' 50 6, a := w.extractLsb' 44 6, b := w.extractLsb' 38 6, scale := w.extractLsb' 36 2, width := w.extractLsb' 33 3, kind := w.extractLsb' 30 3, offset := w.extractLsb' 0 24 }

/-- A format-M word from its major opcode, function and fields (Table 15-1). -/
def packM (op fn : Nat) (o : OpM) : Word :=
  o.s ++ (BitVec.ofNat 7 op) ++ o.d ++ o.a ++ o.b ++ o.scale ++ o.width ++ o.kind ++ (BitVec.ofNat 6 fn) ++ o.offset

/-- The function field of format M. -/
def fnOfM (w : Word) : Nat := (w.extractLsb' 24 6).toNat

/-- The instruction of format M named by a major opcode and a function (Table 15-3). -/
def nameM (op fn : Nat) (o : OpM) : Option Instr :=
  match op, fn with
  | 0x30, 0x00 => some (.ld o)
  | 0x30, 0x01 => some (.st o)
  | 0x30, 0x05 => some (.ldP o)
  | 0x30, 0x06 => some (.ldt o)
  | 0x30, 0x07 => some (.pref o)
  | 0x30, 0x08 => some (.flush o)
  | 0x30, 0x09 => some (.acq o)
  | 0x30, 0x02 => some (.ldv o)
  | 0x30, 0x03 => some (.stv o)
  | 0x30, 0x04 => some (.lds o)
  | 0x32, 0x00 => some (.sts o)
  | 0x32, 0x01 => some (.stsA o)
  | 0x32, 0x02 => some (.slop o)
  | 0x32, 0x03 => some (.cmls o)
  | 0x32, 0x04 => some (.agg o)
  | _, _ => none

/-- The fields of a format-B word (Table 15-1). -/
def unpackB (w : Word) : OpB :=
  { s := w.extractLsb' 63 1, cl := w.extractLsb' 50 6, a := w.extractLsb' 44 6, b := w.extractLsb' 38 6, woff := w.extractLsb' 0 32 }

/-- A format-B word from its major opcode, function and fields (Table 15-1). -/
def packB (op fn : Nat) (o : OpB) : Word :=
  o.s ++ (BitVec.ofNat 7 op) ++ o.cl ++ o.a ++ o.b ++ (BitVec.ofNat 6 fn) ++ o.woff

/-- The function field of format B. -/
def fnOfB (w : Word) : Nat := (w.extractLsb' 32 6).toNat

/-- The instruction of format B named by a major opcode and a function (Table 15-3). -/
def nameB (op fn : Nat) (o : OpB) : Option Instr :=
  match op, fn with
  | 0x20, 0x00 => some (.br o)
  | 0x20, 0x01 => some (.brz o)
  | 0x20, 0x02 => some (.jmp o)
  | 0x20, 0x03 => some (.call o)
  | 0x20, 0x04 => some (.loop o)
  | 0x20, 0x05 => some (.fork o)
  | _, _ => none

/-- The fields of a format-V word (Table 15-1). -/
def unpackV (w : Word) : OpV :=
  { s := w.extractLsb' 63 1, d := w.extractLsb' 50 6, a := w.extractLsb' 44 6, b := w.extractLsb' 38 6, c := w.extractLsb' 32 6, pred := w.extractLsb' 29 3, hold := w.extractLsb' 26 3, fmt := w.extractLsb' 22 4, rnd := w.extractLsb' 19 3, limm := w.extractLsb' 0 12 }

/-- A format-V word from its major opcode, function and fields (Table 15-1). -/
def packV (op fn : Nat) (o : OpV) : Word :=
  o.s ++ (BitVec.ofNat 7 op) ++ o.d ++ o.a ++ o.b ++ o.c ++ o.pred ++ o.hold ++ o.fmt ++ o.rnd ++ (BitVec.ofNat 7 fn) ++ o.limm

/-- The function field of format V. -/
def fnOfV (w : Word) : Nat := (w.extractLsb' 12 7).toNat

/-- The instruction of format V named by a major opcode and a function (Table 15-3). -/
def nameV (op fn : Nat) (o : OpV) : Option Instr :=
  match op, fn with
  | 0x40, 0x00 => some (.vadd o)
  | 0x40, 0x01 => some (.vsub o)
  | 0x40, 0x02 => some (.vmul o)
  | 0x40, 0x03 => some (.vfma o)
  | 0x40, 0x04 => some (.vmin o)
  | 0x40, 0x05 => some (.vmax o)
  | 0x40, 0x06 => some (.vabs o)
  | 0x40, 0x07 => some (.vneg o)
  | 0x40, 0x08 => some (.vdot o)
  | 0x41, 0x00 => some (.vcmp o)
  | 0x41, 0x01 => some (.vsel o)
  | 0x42, 0x00 => some (.vcvt o)
  | 0x43, 0x00 => some (.vred o)
  | 0x43, 0x01 => some (.vperm o)
  | 0x43, 0x02 => some (.vbcast o)
  | 0x43, 0x03 => some (.vmov o)
  | 0x43, 0x04 => some (.viota o)
  | 0x44, 0x00 => some (.vand o)
  | 0x44, 0x01 => some (.vor o)
  | 0x44, 0x02 => some (.vxor o)
  | 0x44, 0x03 => some (.vshl o)
  | 0x44, 0x04 => some (.vshr o)
  | 0x45, 0x00 => some (.vrcp o)
  | 0x45, 0x01 => some (.vrsq o)
  | 0x45, 0x02 => some (.vexp2 o)
  | 0x45, 0x03 => some (.vlog2 o)
  | 0x48, 0x00 => some (.pand o)
  | 0x48, 0x01 => some (.por o)
  | 0x48, 0x02 => some (.pnot o)
  | 0x48, 0x03 => some (.pmov o)
  | _, _ => none

/-- The fields of a format-E word (Table 15-1). -/
def unpackE (w : Word) : OpE :=
  { s := w.extractLsb' 63 1, d := w.extractLsb' 50 6, a := w.extractLsb' 44 6, b := w.extractLsb' 38 6, c := w.extractLsb' 32 6, imm := w.extractLsb' 0 16 }

/-- A format-E word from its major opcode, function and fields (Table 15-1). -/
def packE (op fn : Nat) (o : OpE) : Word :=
  o.s ++ (BitVec.ofNat 7 op) ++ o.d ++ o.a ++ o.b ++ o.c ++ (BitVec.ofNat 16 fn) ++ o.imm

/-- The function field of format E. -/
def fnOfE (w : Word) : Nat := (w.extractLsb' 16 16).toNat

/-- The instruction of format E named by a major opcode and a function (Table 15-3). -/
def nameE (op fn : Nat) (o : OpE) : Option Instr :=
  match op, fn with
  | 0x22, 0x00 => some (.hret o)
  | 0x22, 0x01 => some (.habort o)
  | 0x22, 0x02 => some (.hold o)
  | 0x22, 0x03 => some (.release o)
  | 0x22, 0x04 => some (.yield o)
  | 0x22, 0x05 => some (.gyield o)
  | 0x22, 0x06 => some (.gbar o)
  | 0x2F, 0x00 => some (.nop o)
  | 0x31, 0x00 => some (.fence o)
  | 0x60, 0x00 => some (.cnew o)
  | 0x60, 0x01 => some (.cset o)
  | 0x60, 0x02 => some (.wnew o)
  | 0x60, 0x03 => some (.link o)
  | 0x60, 0x04 => some (.cxld o)
  | 0x60, 0x05 => some (.cgrab o)
  | 0x61, 0x00 => some (.send o)
  | 0x61, 0x01 => some (.mrel o)
  | 0x62, 0x00 => some (.chopen o)
  | 0x62, 0x01 => some (.chput o)
  | 0x62, 0x02 => some (.chget o)
  | 0x62, 0x03 => some (.chclose o)
  | 0x63, 0x00 => some (.nput o)
  | 0x70, 0x00 => some (.mstat o)
  | 0x70, 0x01 => some (.mgang o)
  | 0x70, 0x02 => some (.mwait o)
  | 0x70, 0x03 => some (.mdrain o)
  | 0x70, 0x04 => some (.memit o)
  | 0x70, 0x05 => some (.ald o)
  | 0x70, 0x06 => some (.ast o)
  | 0x70, 0x07 => some (.mzero o)
  | 0x70, 0x08 => some (.mterm o)
  | 0x78, 0x00 => some (.job o)
  | 0x78, 0x01 => some (.jpoll o)
  | 0x78, 0x02 => some (.jwait o)
  | 0x78, 0x03 => some (.jnext o)
  | 0x78, 0x04 => some (.jdone o)
  | 0x79, 0x00 => some (.tload o)
  | 0x79, 0x01 => some (.bulk o)
  | 0x79, 0x02 => some (.gather o)
  | 0x79, 0x03 => some (.scatter o)
  | 0x79, 0x04 => some (.rgather o)
  | 0x79, 0x05 => some (.qpush o)
  | 0x79, 0x06 => some (.boqp o)
  | 0x79, 0x07 => some (.broq o)
  | 0x79, 0x08 => some (.bari o)
  | 0x79, 0x09 => some (.waitb o)
  | 0x7A, 0x00 => some (.gopen o)
  | 0x7A, 0x01 => some (.gsend o)
  | 0x7A, 0x02 => some (.gred o)
  | 0x7A, 0x03 => some (.gdrain o)
  | 0x7A, 0x04 => some (.gclose o)
  | 0x7B, 0x00 => some (.rqnote o)
  | 0x7B, 0x01 => some (.rqflt o)
  | 0x7B, 0x02 => some (.rqslot o)
  | 0x7C, 0x00 => some (.grlaunch o)
  | 0x7C, 0x01 => some (.grsig o)
  | _, _ => none

/-- The fields of a format-S word (Table 15-1). -/
def unpackS (w : Word) : OpS :=
  { s := w.extractLsb' 63 1, d := w.extractLsb' 50 6, a := w.extractLsb' 44 6, sreg := w.extractLsb' 32 12, imm := w.extractLsb' 0 24 }

/-- A format-S word from its major opcode, function and fields (Table 15-1). -/
def packS (op fn : Nat) (o : OpS) : Word :=
  o.s ++ (BitVec.ofNat 7 op) ++ o.d ++ o.a ++ o.sreg ++ (BitVec.ofNat 8 fn) ++ o.imm

/-- The function field of format S. -/
def fnOfS (w : Word) : Nat := (w.extractLsb' 24 8).toNat

/-- The instruction of format S named by a major opcode and a function (Table 15-3). -/
def nameS (op fn : Nat) (o : OpS) : Option Instr :=
  match op, fn with
  | 0x7E, 0x00 => some (.srd o)
  | 0x7E, 0x01 => some (.swr o)
  | 0x7E, 0x02 => some (.trap o)
  | 0x7E, 0x07 => some (.wdog o)
  | 0x7E, 0x03 => some (.ctxsave o)
  | 0x7E, 0x04 => some (.ctxrest o)
  | 0x7E, 0x05 => some (.vgrow o)
  | 0x7E, 0x06 => some (.vshrink o)
  | 0x7E, 0x08 => some (.i4tab o)
  | _, _ => none

/-- The bits of a format that no field covers, which must be zero: [15:0] of format A (R225). -/
def gapOf (f : Format) (w : Word) : Nat :=
  match f with
  | .A => (w.extractLsb' 0 16).toNat
  | .I | .M | .B | .V | .E | .S => 0

/-- The instruction that a word's format, major opcode and function name, whatever its other fields hold. -/
def nameOf (w : Word) : Option (Format × Instr) :=
  let op := (w.extractLsb' 56 7).toNat
  match formatOf op with
  | none => none
  | some .A => (nameA op (fnOfA w) (unpackA w)).map (fun i => (.A, i))
  | some .I => (nameI op (fnOfI w) (unpackI w)).map (fun i => (.I, i))
  | some .M => (nameM op (fnOfM w) (unpackM w)).map (fun i => (.M, i))
  | some .B => (nameB op (fnOfB w) (unpackB w)).map (fun i => (.B, i))
  | some .V => (nameV op (fnOfV w) (unpackV w)).map (fun i => (.V, i))
  | some .E => (nameE op (fnOfE w) (unpackE w)).map (fun i => (.E, i))
  | some .S => (nameS op (fnOfS w) (unpackS w)).map (fun i => (.S, i))

/-- Decoding of any word (R231): the instruction, or the reason why there is none. -/
def decode (w : Word) : Except DecodeError Instr :=
  match nameOf w with
  | none => .error .illegalOpcode
  | some (f, i) => if gapOf f w = 0 && accepts i then .ok i else .error .illegalEncoding

/-- What a fetched word runs as: its instruction, or the pattern that is none (row ILLEGAL_PATTERN). -/
def instrOf (w : Word) : Instr :=
  match decode w with
  | .ok i => i
  | .error _ => .illegalPattern w

/-- A word laid out in memory, lowest address first (R223, R2). -/
def wordBytes (w : Word) : List Byte := (List.range 8).map (fun i => w.extractLsb' (8 * i) 8)

/-- A word read from its bytes, lowest address first. -/
def wordOfBytes : List Byte → Nat
  | [] => 0
  | b :: r => b.toNat + 256 * wordOfBytes r

/-- Decoding of instruction bytes, which must be the eight bytes of one word. -/
def decodeBytes (l : List Byte) : Option Instr :=
  if l.length = 8 then some (instrOf (BitVec.ofNat 64 (wordOfBytes l))) else none

/-- The instruction read from a word whose bits above `nbits` are 0. -/
def decodeTableWord (nbits w : Nat) : Option Instr :=
  decodeBytes (wordBytes (BitVec.ofNat 64 (w % 2 ^ nbits)))

/-- The word of a well-formed instruction (Table 15-3); an event has none. -/
def encode : Instr → Option Word
  | .add o => some (packA 0x01 0x00 o)
  | .sub o => some (packA 0x01 0x01 o)
  | .mul o => some (packA 0x01 0x02 o)
  | .mulh o => some (packA 0x01 0x03 o)
  | .div o => some (packA 0x01 0x04 o)
  | .rem o => some (packA 0x01 0x05 o)
  | .and o => some (packA 0x01 0x08 o)
  | .or o => some (packA 0x01 0x09 o)
  | .xor o => some (packA 0x01 0x0A o)
  | .andn o => some (packA 0x01 0x0B o)
  | .shl o => some (packA 0x01 0x10 o)
  | .shr o => some (packA 0x01 0x11 o)
  | .sar o => some (packA 0x01 0x12 o)
  | .rot o => some (packA 0x01 0x13 o)
  | .min o => some (packA 0x01 0x18 o)
  | .max o => some (packA 0x01 0x19 o)
  | .sel o => some (packA 0x01 0x1A o)
  | .cmp o => some (packA 0x01 0x1B o)
  | .clz o => some (packA 0x01 0x20 o)
  | .ctz o => some (packA 0x01 0x21 o)
  | .popc o => some (packA 0x01 0x22 o)
  | .sext o => some (packA 0x01 0x23 o)
  | .bfx o => some (packA 0x01 0x28 o)
  | .bfi o => some (packA 0x01 0x29 o)
  | .lea o => some (packA 0x01 0x2A o)
  | .jr o => some (packA 0x21 0x00 o)
  | .ret o => some (packA 0x21 0x01 o)
  | .tklend o => some (packA 0x33 0x00 o)
  | .tkret o => some (packA 0x33 0x01 o)
  | .tksplit o => some (packA 0x33 0x02 o)
  | .tkjoin o => some (packA 0x33 0x03 o)
  | .tkshare o => some (packA 0x33 0x04 o)
  | .tkdrop o => some (packA 0x33 0x05 o)
  | .tkpark o => some (packA 0x33 0x06 o)
  | .tkcarve o => some (packA 0x33 0x07 o)
  | .tkstat o => some (packA 0x33 0x08 o)
  | .tkclaim o => some (packA 0x33 0x09 o)
  | .tkclean o => some (packA 0x33 0x0A o)
  | .addi o => some (packI 0x02 0x00 o)
  | .movi o => some (packI 0x02 0x01 o)
  | .movhi o => some (packI 0x02 0x02 o)
  | .br o => some (packB 0x20 0x00 o)
  | .brz o => some (packB 0x20 0x01 o)
  | .jmp o => some (packB 0x20 0x02 o)
  | .call o => some (packB 0x20 0x03 o)
  | .loop o => some (packB 0x20 0x04 o)
  | .fork o => some (packB 0x20 0x05 o)
  | .hret o => some (packE 0x22 0x00 o)
  | .habort o => some (packE 0x22 0x01 o)
  | .hold o => some (packE 0x22 0x02 o)
  | .release o => some (packE 0x22 0x03 o)
  | .yield o => some (packE 0x22 0x04 o)
  | .gyield o => some (packE 0x22 0x05 o)
  | .gbar o => some (packE 0x22 0x06 o)
  | .nop o => some (packE 0x2F 0x00 o)
  | .fence o => some (packE 0x31 0x00 o)
  | .cnew o => some (packE 0x60 0x00 o)
  | .cset o => some (packE 0x60 0x01 o)
  | .wnew o => some (packE 0x60 0x02 o)
  | .link o => some (packE 0x60 0x03 o)
  | .cxld o => some (packE 0x60 0x04 o)
  | .cgrab o => some (packE 0x60 0x05 o)
  | .send o => some (packE 0x61 0x00 o)
  | .mrel o => some (packE 0x61 0x01 o)
  | .chopen o => some (packE 0x62 0x00 o)
  | .chput o => some (packE 0x62 0x01 o)
  | .chget o => some (packE 0x62 0x02 o)
  | .chclose o => some (packE 0x62 0x03 o)
  | .nput o => some (packE 0x63 0x00 o)
  | .mstat o => some (packE 0x70 0x00 o)
  | .mgang o => some (packE 0x70 0x01 o)
  | .mwait o => some (packE 0x70 0x02 o)
  | .mdrain o => some (packE 0x70 0x03 o)
  | .memit o => some (packE 0x70 0x04 o)
  | .ald o => some (packE 0x70 0x05 o)
  | .ast o => some (packE 0x70 0x06 o)
  | .mzero o => some (packE 0x70 0x07 o)
  | .mterm o => some (packE 0x70 0x08 o)
  | .job o => some (packE 0x78 0x00 o)
  | .jpoll o => some (packE 0x78 0x01 o)
  | .jwait o => some (packE 0x78 0x02 o)
  | .jnext o => some (packE 0x78 0x03 o)
  | .jdone o => some (packE 0x78 0x04 o)
  | .tload o => some (packE 0x79 0x00 o)
  | .bulk o => some (packE 0x79 0x01 o)
  | .gather o => some (packE 0x79 0x02 o)
  | .scatter o => some (packE 0x79 0x03 o)
  | .rgather o => some (packE 0x79 0x04 o)
  | .qpush o => some (packE 0x79 0x05 o)
  | .boqp o => some (packE 0x79 0x06 o)
  | .broq o => some (packE 0x79 0x07 o)
  | .bari o => some (packE 0x79 0x08 o)
  | .waitb o => some (packE 0x79 0x09 o)
  | .gopen o => some (packE 0x7A 0x00 o)
  | .gsend o => some (packE 0x7A 0x01 o)
  | .gred o => some (packE 0x7A 0x02 o)
  | .gdrain o => some (packE 0x7A 0x03 o)
  | .gclose o => some (packE 0x7A 0x04 o)
  | .rqnote o => some (packE 0x7B 0x00 o)
  | .rqflt o => some (packE 0x7B 0x01 o)
  | .rqslot o => some (packE 0x7B 0x02 o)
  | .grlaunch o => some (packE 0x7C 0x00 o)
  | .grsig o => some (packE 0x7C 0x01 o)
  | .ld o => some (packM 0x30 0x00 o)
  | .st o => some (packM 0x30 0x01 o)
  | .ldP o => some (packM 0x30 0x05 o)
  | .ldt o => some (packM 0x30 0x06 o)
  | .pref o => some (packM 0x30 0x07 o)
  | .flush o => some (packM 0x30 0x08 o)
  | .acq o => some (packM 0x30 0x09 o)
  | .ldv o => some (packM 0x30 0x02 o)
  | .stv o => some (packM 0x30 0x03 o)
  | .lds o => some (packM 0x30 0x04 o)
  | .sts o => some (packM 0x32 0x00 o)
  | .stsA o => some (packM 0x32 0x01 o)
  | .slop o => some (packM 0x32 0x02 o)
  | .cmls o => some (packM 0x32 0x03 o)
  | .agg o => some (packM 0x32 0x04 o)
  | .vadd o => some (packV 0x40 0x00 o)
  | .vsub o => some (packV 0x40 0x01 o)
  | .vmul o => some (packV 0x40 0x02 o)
  | .vfma o => some (packV 0x40 0x03 o)
  | .vmin o => some (packV 0x40 0x04 o)
  | .vmax o => some (packV 0x40 0x05 o)
  | .vabs o => some (packV 0x40 0x06 o)
  | .vneg o => some (packV 0x40 0x07 o)
  | .vdot o => some (packV 0x40 0x08 o)
  | .vcmp o => some (packV 0x41 0x00 o)
  | .vsel o => some (packV 0x41 0x01 o)
  | .vcvt o => some (packV 0x42 0x00 o)
  | .vred o => some (packV 0x43 0x00 o)
  | .vperm o => some (packV 0x43 0x01 o)
  | .vbcast o => some (packV 0x43 0x02 o)
  | .vmov o => some (packV 0x43 0x03 o)
  | .viota o => some (packV 0x43 0x04 o)
  | .vand o => some (packV 0x44 0x00 o)
  | .vor o => some (packV 0x44 0x01 o)
  | .vxor o => some (packV 0x44 0x02 o)
  | .vshl o => some (packV 0x44 0x03 o)
  | .vshr o => some (packV 0x44 0x04 o)
  | .vrcp o => some (packV 0x45 0x00 o)
  | .vrsq o => some (packV 0x45 0x01 o)
  | .vexp2 o => some (packV 0x45 0x02 o)
  | .vlog2 o => some (packV 0x45 0x03 o)
  | .pand o => some (packV 0x48 0x00 o)
  | .por o => some (packV 0x48 0x01 o)
  | .pnot o => some (packV 0x48 0x02 o)
  | .pmov o => some (packV 0x48 0x03 o)
  | .srd o => some (packS 0x7E 0x00 o)
  | .swr o => some (packS 0x7E 0x01 o)
  | .trap o => some (packS 0x7E 0x02 o)
  | .wdog o => some (packS 0x7E 0x07 o)
  | .ctxsave o => some (packS 0x7E 0x03 o)
  | .ctxrest o => some (packS 0x7E 0x04 o)
  | .vgrow o => some (packS 0x7E 0x05 o)
  | .vshrink o => some (packS 0x7E 0x06 o)
  | .i4tab o => some (packS 0x7E 0x08 o)
  | .illegalPattern w => some w
  | _ => none

end Sys2Proof
end

