-- ==== Sys2Proof/Machine/Store.lean ====
section
/-! DEFINITION. Sparse data by key in one canonical form: keys strictly rising, no entry equal to the default. -/

namespace Sys2Proof.Machine

/-- A finite map from `Nat` with a default for every key not listed. -/
abbrev Store (α : Type) := List (Nat × α)

/-- The value at `k`, `d` where nothing is listed. -/
def sget {α : Type} (d : α) : Store α → Nat → α
  | [], _ => d
  | (k, v) :: m, a => if a = k then v else sget d m a

/-- Insertion in key order, replacing an entry of the same key. -/
def sins {α : Type} (a : Nat) (v : α) : Store α → Store α
  | [] => [(a, v)]
  | (k, w) :: m => if a = k then (a, v) :: m else if a < k then (a, v) :: (k, w) :: m else (k, w) :: sins a v m

/-- Writing: the default removes the entry. -/
def sput {α : Type} [DecidableEq α] (d : α) (m : Store α) (a : Nat) (v : α) : Store α :=
  if v = d then m.filter (fun e => e.1 ≠ a) else sins a v m

/-- Every key is above `lo` and rising, and no value is the default. -/
def sortedAbove {α : Type} [DecidableEq α] (d : α) : Option Nat → Store α → Bool
  | _, [] => true
  | lo, (k, v) :: m => (match lo with | none => true | some l => decide (l < k)) && decide (v ≠ d) && sortedAbove d (some k) m

/-- The canonical form. -/
def Store.ok {α : Type} [DecidableEq α] (d : α) (m : Store α) : Bool := sortedAbove d none m

/-- Bits [hi:lo] of a number. -/
def bits (x hi lo : Nat) : Nat := (x >>> lo) % 2 ^ (hi + 1 - lo)

/-- Bit i of a number. -/
def nbit (x i : Nat) : Bool := x.testBit i

/-- Replace bits [hi:lo] of a number. -/
def setBits (x hi lo v : Nat) : Nat :=
  let w := hi + 1 - lo
  (x >>> (hi + 1)) <<< (hi + 1) ||| ((v % 2 ^ w) <<< lo) ||| (x % 2 ^ lo)

/-- ⌈a ÷ b⌉ -/
def ceilDiv (a b : Nat) : Nat := (a + b - 1) / b

/-- The first element with a property and where it stands. -/
def findAt {α : Type} (p : α → Bool) : List α → Nat → Option (Nat × α)
  | [], _ => none
  | x :: r, i => if p x then some (i, x) else findAt p r (i + 1)

/-- Replace the first element with a property. -/
def replaceFirst {α : Type} (p : α → Bool) (f : α → α) : List α → List α
  | [] => []
  | x :: r => if p x then f x :: r else x :: replaceFirst p f r

/-- Remove the first element with a property. -/
def removeFirst {α : Type} (p : α → Bool) : List α → List α
  | [] => []
  | x :: r => if p x then r else x :: removeFirst p r

end Sys2Proof.Machine
end

