-- ==== Sys2Proof/Machine/Flags.lean ====
section
/-! DEFINITION. Exact values, the element formats, rounding and the IEEE flags (R44 to R61, R241). -/

namespace Sys2Proof.Machine

/-- The flags of Table 03-5. -/
abbrev Flags := BitVec 5
def fNX : Flags := 1
def fUF : Flags := 2
def fOF : Flags := 4
def fDZ : Flags := 8
def fNV : Flags := 16

/-- An exact value: a NaN (signalling or not), an infinity, a signed zero, or ±m·2^e with m > 0. -/
inductive Num where
  | nan (signalling : Bool)
  | inf (neg : Bool)
  | zero (neg : Bool)
  | fin (neg : Bool) (m : Nat) (e : Int)
deriving DecidableEq, Repr

/-- m·2^e of an integer m; zero takes the sign given. -/
def numOf (m : Int) (e : Int) (negZero : Bool) : Num := if m = 0 then .zero negZero else .fin (m < 0) m.natAbs e

/-- Bits of a positive number. -/
def bitLen (m : Nat) : Nat := if m = 0 then 0 else Nat.log2 m + 1

/-- m·2^(e − f) as an integer, for f ≤ e. -/
def scaleUp (m : Int) (e f : Int) : Int := m * 2 ^ (e - f).toNat

/-- The signed mantissa of a finite value. -/
def smant (neg : Bool) (m : Nat) : Int := if neg then -(m : Int) else m

/-- Exact product; 0 × ∞ is a NaN with NV, a signalling NaN raises NV (R266). -/
def nmul (x y : Num) : Num × Flags :=
  match x, y with
  | .inf _, .zero _ | .zero _, .inf _ => (.nan false, fNV)
  | .nan a, .nan b => (.nan false, if a || b then fNV else 0)
  | .nan a, _ => (.nan false, if a then fNV else 0)
  | _, .nan b => (.nan false, if b then fNV else 0)
  | .inf a, .inf b | .inf a, .fin b _ _ | .fin a _ _, .inf b => (.inf (a != b), 0)
  | .zero a, .zero b | .zero a, .fin b _ _ | .fin a _ _, .zero b => (.zero (a != b), 0)
  | .fin a m e, .fin b n f => (.fin (a != b) (m * n) (e + f), 0)

/-- Exact sum; ∞ − ∞ is a NaN with NV; an exact zero of opposite signs is −0 only when rounding down (R49, R266). -/
def nadd (mode : Nat) (x y : Num) : Num × Flags :=
  match x, y with
  | .nan a, .nan b => (.nan false, if a || b then fNV else 0)
  | .nan a, _ => (.nan false, if a then fNV else 0)
  | _, .nan b => (.nan false, if b then fNV else 0)
  | .inf a, .inf b => if a = b then (.inf a, 0) else (.nan false, fNV)
  | .inf a, _ => (.inf a, 0)
  | _, .inf b => (.inf b, 0)
  | .zero a, .zero b => (.zero (if a = b then a else mode = 4), 0)
  | .zero _, z => (z, 0)
  | z, .zero _ => (z, 0)
  | .fin a m e, .fin b n f =>
    let g := min e f
    (numOf (scaleUp (smant a m) e g + scaleUp (smant b n) f g) g (mode = 4), 0)

def nneg : Num → Num
  | .nan s => .nan s
  | .inf a => .inf (!a)
  | .zero a => .zero (!a)
  | .fin a m e => .fin (!a) m e

/-- Whether |m·2^e| < |n·2^f|, and equality. -/
def magLt (m : Nat) (e : Int) (n : Nat) (f : Int) : Bool := let g := min e f; scaleUp m e g < scaleUp n f g
def magEq (m : Nat) (e : Int) (n : Nat) (f : Int) : Bool := let g := min e f; scaleUp m e g = scaleUp n f g

/-- x < y for values that are not NaNs; −0 and +0 are equal. -/
def nlt (x y : Num) : Bool :=
  match x, y with
  | .nan _, _ | _, .nan _ => false
  | .inf a, .inf b => a && !b
  | .inf a, _ => a
  | _, .inf b => !b
  | .zero _, .zero _ => false
  | .zero _, .fin b _ _ => !b
  | .fin a _ _, .zero _ => a
  | .fin a m e, .fin b n f => if a != b then a else if a then magLt n f m e else magLt m e n f

def isNan : Num → Bool | .nan _ => true | _ => false
def isSig : Num → Bool | .nan s => s | _ => false
def neq (x y : Num) : Bool := !(isNan x) && !(isNan y) && !(nlt x y) && !(nlt y x)

/-- Exponent bits and fraction bits of an IEEE format (R49). -/
def expBits (f : Nat) : Nat := if f = 11 then 5 else 8
def fracBits (f : Nat) : Nat := if f = 11 then 10 else if f = 12 then 7 else 23
def bias (f : Nat) : Int := 2 ^ (expBits f - 1) - 1
/-- The canonical quiet NaN (R49). -/
def canonNan (f : Nat) : Nat := if f = 11 then 0x7E00 else if f = 12 then 0x7FC0 else 0x7FC00000
def infBits (f : Nat) : Nat := (2 ^ expBits f - 1) * 2 ^ fracBits f
def signBit (f : Nat) (neg : Bool) : Nat := if neg then 2 ^ (expBits f + fracBits f) else 0

/-- The value of an IEEE bit pattern. -/
def decodeIeee (f x : Nat) : Num :=
  let fb := fracBits f
  let frac := x % 2 ^ fb
  let ex := (x / 2 ^ fb) % 2 ^ expBits f
  let neg := nbit x (expBits f + fb)
  if ex = 2 ^ expBits f - 1 then (if frac = 0 then .inf neg else .nan (frac < 2 ^ (fb - 1)))
  else if ex = 0 then (if frac = 0 then .zero neg else .fin neg frac (1 - bias f - fb))
  else .fin neg (2 ^ fb + frac) (ex - bias f - fb)

/-- Whether rounding goes up in magnitude: mode 1 RNE, 2 RTZ, 3 RUP, 4 RDN, 5 RNA (Table 03-3). -/
def roundsUp (mode : Nat) (neg odd : Bool) (rem half : Nat) : Bool :=
  match mode with
  | 1 => half < rem || (rem = half && odd)
  | 3 => 0 < rem && !neg
  | 4 => 0 < rem && neg
  | 5 => half ≤ rem
  | _ => false

/-- m·2^e rounded to a multiple of 2^q: the multiple, and whether it is inexact. -/
def roundTo (mode : Nat) (neg : Bool) (m : Nat) (e q : Int) : Nat × Bool :=
  if q ≤ e then (m * 2 ^ (e - q).toNat, false)
  else
    let sh := (q - e).toNat
    let k := m / 2 ^ sh
    let rem := m % 2 ^ sh
    -- compared as 2·rem against 2^sh, so that no half is lost
    (if roundsUp mode neg (k % 2 = 1) (2 * rem) (2 ^ sh) then k + 1 else k, rem ≠ 0)

/-- IEEE rounding of ±m·2^e, m > 0, with tininess after rounding (R49, R50). -/
def roundIeee (mode f : Nat) (neg : Bool) (m : Nat) (e : Int) : Nat × Flags :=
  let p : Int := fracBits f + 1
  let emin := 1 - bias f
  let ex := e + bitLen m - 1
  let q := max (ex - (p - 1)) (emin - (p - 1))
  let (k, inexact) := roundTo mode neg m e q
  let sg := signBit f neg
  -- overflow: k·2^q ≥ 2^(emax+1)
  if bias f + 1 ≤ q + bitLen k - 1 then
    let toInf := mode = 1 || mode = 5 || (mode = 3 && !neg) || (mode = 4 && neg)
    (sg + (if toInf then infBits f else infBits f - 1), fOF ||| fNX)
  else
    let bitsOf := if k < 2 ^ fracBits f then k
      else ((q + bitLen k - 1 + bias f).toNat) * 2 ^ fracBits f + (if bitLen k = fracBits f + 2 then 0 else k - 2 ^ fracBits f)
    let (k2, _) := roundTo mode neg m e (ex - (p - 1))
    let tiny := ex < emin && !(ex = emin - 1 && bitLen k2 = fracBits f + 2)
    (sg + bitsOf, (if inexact then fNX else 0) ||| (if inexact && tiny then fUF else 0))

/-- The magnitude of a tapered code of w magnitude bits as m·2^e (R56). -/
def taperMag (w fld : Nat) : Nat × Int :=
  let b := nbit fld (w - 1)
  let m := ((List.range w).find? (fun i => nbit fld (w - 1 - i) != b)).getD w
  let k : Int := if b then (m : Int) - 1 else -(m : Int)
  let rest := if m = w then 0 else w - m - 1
  if rest = 0 then (1, 2 * k)
  else
    let fb := rest - 1
    let ebit : Int := if nbit fld fb then 1 else 0
    (2 ^ fb + fld % 2 ^ fb, 2 * k + ebit - fb)

/-- Magnitude bits of T8 and T6. -/
def taperWidth (f : Nat) : Nat := if f = 10 then 7 else 5

/-- The value of a tapered code (R56, R57). -/
def decodeTaper (f x : Nat) : Num :=
  let w := taperWidth f
  let fld := x % 2 ^ w
  if fld = 0 then (if nbit x w then .nan false else .zero false)
  else let (m, e) := taperMag w fld
    .fin (nbit x w) m e

/-- The largest code from 1 to n whose value is at most m·2^e; 0 if none. -/
def taperFloor (w m : Nat) (e : Int) : Nat → Nat
  | 0 => 0
  | n + 1 => let (tm, te) := taperMag w (n + 1)
    if magLt m e tm te then taperFloor w m e n else n + 1

/-- Encoding into T8 or T6 (R60). -/
def encodeTaper (mode f : Nat) (x : Num) : Nat × Flags :=
  let w := taperWidth f
  let top := 2 ^ w - 1
  let sg := fun neg : Bool => if neg then 2 ^ w else 0
  match x with
  | .zero _ => (0, 0)
  | .nan s => (2 ^ w, if s then fNV else 0)
  | .inf neg => (sg neg + top, fOF ||| fNX)
  | .fin neg m e =>
    let lo := taperFloor w m e top
    if lo = 0 then (sg neg + 1, fUF ||| fNX)
    else
      let (lm, le) := taperMag w lo
      if magEq m e lm le then (sg neg + lo, 0)
      else if lo = top then (sg neg + top, fOF ||| fNX)
      else
        let (hm, he) := taperMag w (lo + 1)
        let g := min e (min le he)
        let x2 := 2 * scaleUp m e g
        let mid := scaleUp lm le g + scaleUp hm he g
        let up := match mode with
          | 1 => mid < x2 || (x2 = mid && lo % 2 = 1)
          | 5 => mid ≤ x2
          | 3 => !neg
          | 4 => neg
          | _ => false
        (sg neg + (if up then lo + 1 else lo), fNX)

/-- A value rounded to an integer in a mode (R241), with its flags; a special value has none. -/
def roundInt (mode : Nat) (neg : Bool) (m : Nat) (e : Int) : Int × Bool :=
  let (k, inexact) := roundTo mode neg m e 0
  (smant neg k, inexact)

/-- The range of an integer format. -/
def intRange (f : Nat) : Int × Int :=
  let b := fmtBits f
  if f % 2 = 0 then (-(2 ^ (b - 1)), 2 ^ (b - 1) - 1) else (0, 2 ^ b - 1)

/-- Conversion to an integer format (R55). `fromInt` says that the source is an integer, which raises no flag. -/
def toInt (mode f : Nat) (fromInt : Bool) (x : Num) : Nat × Flags :=
  let (lo, hi) := intRange f
  let put := fun r : Int => (r % 2 ^ fmtBits f).toNat
  match x with
  | .nan _ => (0, fNV)
  | .inf neg => (put (if neg then lo else hi), fNV)
  | .zero _ => (0, 0)
  | .fin neg m e =>
    let (r, inexact) := roundInt mode neg m e
    if r < lo then (put lo, if fromInt then 0 else fNV)
    else if hi < r then (put hi, if fromInt then 0 else fNV)
    else (put r, if inexact then fNX else 0)

/-- Round(x, mode, fmt) for a mode already resolved (R241): the bits in fmt and the flags. -/
def roundNum (mode f : Nat) (fromInt : Bool) (x : Num) : Nat × Flags :=
  if 11 ≤ f then
    match x with
    | .nan s => (canonNan f, if s then fNV else 0)
    | .inf neg => (signBit f neg + infBits f, 0)
    | .zero neg => (signBit f neg, 0)
    | .fin neg m e => roundIeee mode f neg m e
  else if f = 9 || f = 10 then encodeTaper mode f x
  else toInt mode f fromInt x

/-- The signed value of entry `code` of an I4 table (R47). -/
def i4Entry (t0 t1 : BitVec 64) (code : Nat) : Int :=
  signedN8 (((if code < 8 then t0 else t1).toNat / 2 ^ (8 * (code % 8))) % 256)
where
  /-- A byte read as signed. -/
  signedN8 (x : Nat) : Int := if x < 128 then x else (x : Int) - 256

/-- The exact value of an element of a format (R46, R47, R49, R56). -/
def decodeElem (t0 t1 : BitVec 64) (f x : Nat) : Num :=
  if 11 ≤ f then decodeIeee f x
  else if f = 9 || f = 10 then decodeTaper f x
  else if f = 8 then numOf (i4Entry t0 t1 (x % 16)) 0 false
  else if f % 2 = 1 then numOf (x % 2 ^ fmtBits f) 0 false
  else numOf (let y := x % 2 ^ fmtBits f; if y < 2 ^ (fmtBits f - 1) then (y : Int) else (y : Int) - 2 ^ fmtBits f) 0 false

/-- Twice... the distance of a value m·2^e (signed) to an integer, as an exact comparison key: |x − t| scaled by 2^−min(e,0). -/
def i4Distance (x : Int) (e : Int) (t : Int) : Nat := let g := min e 0; (scaleUp x e g - scaleUp t 0 g).natAbs

/-- The code whose entry is nearest to a value, the lowest on a tie (R95, R271). -/
def nearestI4 (t0 t1 : BitVec 64) (x e : Int) : Nat :=
  (List.range 16).foldl (fun best c => if i4Distance x e (i4Entry t0 t1 c) < i4Distance x e (i4Entry t0 t1 best) then c else best) 0

/-- Encoding to I4 (R95, R271): NV for a NaN, NX for a float source that differs from its entry. An infinity takes the code
nearest to it: the largest or the smallest entry. -/
def encodeI4 (t0 t1 : BitVec 64) (fromInt : Bool) (x : Num) : Nat × Flags :=
  match x with
  | .nan _ => (nearestI4 t0 t1 0 0, if fromInt then 0 else fNV)
  | .zero _ => let c := nearestI4 t0 t1 0 0
    (c, if fromInt || i4Entry t0 t1 c = 0 then 0 else fNX)
  | .inf neg => (nearestI4 t0 t1 (if neg then -1000 else 1000) 0, fNX)
  | .fin neg m e => let c := nearestI4 t0 t1 (smant neg m) e
    (c, if fromInt || i4Distance (smant neg m) e (i4Entry t0 t1 c) = 0 then 0 else fNX)

/-- Integer square root: the largest r with r² ≤ n, bit by bit from bit b. -/
def isqrtFrom (n : Nat) : Nat → Nat → Nat
  | 0, r => r
  | b + 1, r => let t := r + 2 ^ b; isqrtFrom n b (if t * t ≤ n then t else r)

def isqrt (n : Nat) : Nat := isqrtFrom n (bitLen n / 2 + 1) 0

/-- 1/x (Table 17-4). -/
def rcpNum (x : Num) : Num × Flags :=
  match x with
  | .nan s => (.nan false, if s then fNV else 0)
  | .inf a => (.zero a, 0)
  | .zero a => (.inf a, fDZ)
  | .fin a m e =>
    -- 2^200 ÷ m with the remainder folded into the last bit: more than 40 bits beyond any fraction
    let q := 2 ^ 200 / m
    let r := 2 ^ 200 % m
    (.fin a (2 * q + (if r = 0 then 0 else 1)) (-e - 201), 0)

/-- 1/√x (Table 17-4). -/
def rsqNum (x : Num) : Num × Flags :=
  match x with
  | .nan s => (.nan false, if s then fNV else 0)
  | .inf a => if a then (.nan false, fNV) else (.zero false, 0)
  | .zero a => (.inf a, fDZ)
  | .fin a m e =>
    if a then (.nan false, fNV)
    else
      let (m, e) := if e % 2 = 0 then (m, e) else (2 * m, e - 1)
      -- √(2^400 ÷ m) with what is left folded into the last bit
      let n := 2 ^ 400 / m
      let r := isqrt n
      let exact := r * r * m = 2 ^ 400
      (.fin false (2 * r + (if exact then 0 else 1)) (-(e / 2) - 201), 0)

/-- Fraction bits carried by EXP2 and LOG2 (log 21). -/
def workBits : Nat := 256

/-- ln 2 scaled by 2^workBits, as Σ 1/(k·2^k), within workBits units from below. -/
def ln2Scaled : Nat := ((List.range (workBits + 8)).map (fun i => 2 ^ (workBits + 16) / ((i + 1) * 2 ^ (i + 1)))).foldl (· + ·) 0 / 2 ^ 16

/-- Σ y^k/k! scaled by 2^workBits, for y scaled the same way, from below within the number of its terms. -/
def expSeries (y : Nat) : Nat → Nat → Nat → Nat → Nat
  | 0, _, _, acc => acc
  | fuel + 1, k, term, acc => let t := term * y / 2 ^ workBits / k
    expSeries y fuel (k + 1) t (acc + t)

/-- 2^x (Table 17-4, R278): exact for an integer x; otherwise 2^⌊x⌋ times the series of the fraction, whose last bit stands for what
is left (log 21). A magnitude beyond every format's range is rounded as its power of two would be. -/
def exp2Num (x : Num) : Num × Flags :=
  match x with
  | .nan s => (.nan false, if s then fNV else 0)
  | .inf a => (if a then .zero false else .inf false, 0)
  | .zero _ => (.fin false 1 0, 0)
  | .fin a m e =>
    -- x = n + f with 0 ≤ f < 1
    if e ≥ 0 then
      let n := smant a m * 2 ^ (min e 40).toNat
      (.fin false 1 (max (-100000) (min n 100000)), 0)
    else
      let d := (-e).toNat
      let n := smant a m / 2 ^ d
      let r := (smant a m % 2 ^ d).toNat
      if r = 0 then (.fin false 1 (max (-100000) (min n 100000)), 0)
      else
        let f := r * 2 ^ workBits / 2 ^ d
        let y := f * ln2Scaled / 2 ^ workBits
        let v := expSeries y 90 1 (2 ^ workBits) (2 ^ workBits)
        (.fin false (2 * v + 1) (max (-100000) (min n 100000) - workBits - 1), 0)

/-- log2 of z/2^workBits in [1, 2), b bits by squaring. -/
def log2Bits : Nat → Nat → Nat → Nat
  | 0, _, acc => acc
  | b + 1, z, acc =>
    let q := z * z / 2 ^ workBits
    if 2 ^ (workBits + 1) ≤ q then log2Bits b (q / 2) (2 * acc + 1) else log2Bits b q (2 * acc)

/-- Bits of log2 found by squaring. -/
def logBits : Nat := 120

/-- log2 x (Table 17-4, R278): exact for a power of two; otherwise the exponent and 120 bits of the fraction by squaring, whose
last bit stands for what is left (log 21). -/
def log2Num (x : Num) : Num × Flags :=
  match x with
  | .nan s => (.nan false, if s then fNV else 0)
  | .inf a => if a then (.nan false, fNV) else (.inf false, 0)
  | .zero _ => (.inf true, fDZ)
  | .fin a m e =>
    if a then (.nan false, fNV)
    else
      let l := bitLen m - 1
      let ex : Int := e + l
      if m = 2 ^ l then (numOf ex 0 false, 0)
      else
        let z := m * 2 ^ workBits / 2 ^ l
        let fr := log2Bits logBits z 0
        (numOf (2 * (ex * 2 ^ logBits + fr) + 1) (-(logBits : Int) - 1) false, 0)

end Sys2Proof.Machine
end

