-- ==== Sys2Proof/Config.lean ====
section
/-! DEFINITION. What the spec fixes outside the programs: the free values, none of which has a body, and the turn,
which says what moves next. The log entries are notes/assumptions. -/

namespace Sys2Proof

/-- A token instruction of another device's agent, with the holder word that it takes (R177). -/
inductive PeerToken where
  | lend (holder : Word) | ret | split | join | share (holder : Word) | drop | park (holder : Word) (share : Bool)
deriving DecidableEq, Repr

/-- What another device asks of this one through a global reference (R88, R175, R177): a load of n bytes, a peek or not; a store, of a slice
operation's kind or not; a read-modify-write; a token instruction with the transfer count that its issuer saw, and whether a stale count has
been refused before (R110); TKSTAT and TKCLEAN; a CSET, a LINK, a CXLD; the take of a cell
into an inbox slot there, and the end of that take, which frees its block or lets the cell stand again. -/
inductive PeerRequest where
  | load (n : Nat) (peek : Bool)
  | store (data : List Byte) (slice : Bool)
  | rmw (width op : Nat) (val cmp : Word)
  | token (what : PeerToken) (xfer : BitVec 32) (again : Bool) | stat | clean
  | cset (word : Nat) (val : Word) | link (other : Word) | cxld
  | take (slot : Nat) | release (live : Bool)
deriving DecidableEq, Repr

/-- A message that comes from another device (R15, R176): its m0 fields, its destination, its words; a pair with its references, and the
locus and radius of a placed item. -/
structure Arrival where
  cls : Nat
  sender : Nat
  msgid : BitVec 16
  lease : BitVec 16
  checked : Bool
  attempts : Nat
  dest : Nat
  payload : List Word
  pair : Option (Word × Word)
  placed : Option (Nat × Nat)
deriving DecidableEq, Repr

/-- What comes from outside the module, or from its firmware, and is no row of the opcode table (log 110): a read of the control window (R4,
R383); an access or a message of an agent of another device; a take of another device's cell, on which this module's tokens are
parked, into an inbox slot there, or that slot's hand-over to its context (R29, R116, R300); a region made open (R107); counters cleared, a core's or the module's (R148); an account's
recovery core named (R217); what ralload writes: a page of a section (R378, Table 21-2), the routine entries of an
object on every execute core (R377), a static cell or wire slot (R362), a request's record (R366); the memory region behind a queue force-unmapped (R140); the host's posted writes
performed as far as their sectors are there (R178). -/
inductive External where
  | controlRead (requester offset count : Nat)
  | serve (agent : Nat) (ref : Word) (what : PeerRequest)
  | arrive (port : Nat) (a : Arrival)
  | openRegion (base : Nat)
  | clearCounters (core : Option Nat)
  | setRecovery (account core : Nat)
  | foreignMove (old new_ : Word)
  | loadPage (va pa part : Nat) (tables : List Nat)
  | loadRoutines (l : List (Nat × Word × Word))
  | loadRecord (va : Nat) (words : List Word)
  | placeItem (wire : Bool) (addr : Nat)
  | loseQueue (core port : Nat)
  | drainPosted
deriving DecidableEq, Repr

/-- What moves in one step: the issue slot of a core, one event of the opcode table, or something from outside. `checker` counts the
mismatches the checker stage sees at that issue (R209): 0 none, 1 one that the retry mends, 2 two. -/
inductive Act where
  | issue (core : Nat) (checker : Nat)
  | event (e : Instr)
  | outside (o : External)
deriving DecidableEq, Repr, Inhabited

/-- One turn: `cycles` module cycles pass, then `act` happens (log 1). -/
structure Turn where
  cycles : Nat
  act : Act
deriving DecidableEq, Repr, Inhabited

/-- The turn that comes when the agenda is empty: which agent moves next, and after how many cycles, is open (log 1). -/
opaque Config.freeTurn : Nat → Turn

/-- What another device answers to a global reference: not this module's state (R88, R175; log 17). -/
opaque Config.remoteWord : Nat → Word

/-- The header of a cell of another device, as far as this module must know it before it takes the cell (R27; log 17). -/
opaque Config.remoteHeader : Nat → Word → Word

/-- The fault that another device answers a global reference with, when its code is one an access can meet there (R88, R177; log 17). -/
opaque Config.remoteFault : Nat → BitVec 8

/-- Power in watts and temperature in °C of a die at a reading (R393, Table 27-2; log 16). -/
opaque Config.powerReading : Nat → Nat → Word
/-- See `Config.powerReading`. -/
opaque Config.temperatureReading : Nat → Nat → Word

/-- Whether the bytes of a firmware image verify against a public key (R391; log 15). -/
opaque Config.imageVerifies : List Byte → List Byte → Bool
/-- The version that the bytes of an image carry (R391; log 15). -/
opaque Config.imageVersion : List Byte → Nat
/-- Byte `k` of the attestation signature made with leaf `q` over a nonce, the active firmware and the start record (R392; log 15). -/
opaque Config.signatureByte : Nat → List Byte → List Byte → List Byte → Nat → Byte
/-- How a part of the RESYNC summary lays out what Table 14-4 says that it holds, byte by byte (R221; log 18). -/
opaque Config.summaryByte : Nat → List Nat → Nat → Byte

/-- The version that the header of the RESYNC summary gives (Table 14-4; log 18). -/
opaque Config.summaryVersion : Nat

/-- The smallest physical address of the CXL tier (Table 05-2). -/
def Config.cxlBase : Nat := 0x20000000000
/-- Bytes of LPDDR-6 (Table 05-2). -/
def Config.lpddrTop : Nat := 0x18000000000
/-- Token entries and share records a device holds (R108). -/
def Config.tokenEntries : Nat := 1048576
/-- See `Config.tokenEntries`. -/
def Config.shareRecords : Nat := 4194304

end Sys2Proof
end

