-- ==== Sys2Proof/Machine/State.lean ====
section
/-! DEFINITION. The state of the module: every register, memory, table, queue and counter the spec gives it.

Keys are plain numbers. A context is `c = x·2^11 + y·2^7 + core·2^3 + context` (an agent id of R14 without its device),
its core is `c / 8`, its vertex `c / 128`; a slice is the id of R16; a die is 0 to 3. -/

namespace Sys2Proof.Machine

/-- Why a step stops for good: nothing in this spec does, so the type has the one reason that no step raises. -/
inductive Fault where
  /-- Raised by no step: kept so that the type is inhabited. Safe: it could only stop a run. -/
  | none
deriving DecidableEq, Repr

/-- Why an instruction has no meaning. -/
inductive Refusal where
  /-- Raised by an arm of `exec` whose instruction has no meaning yet. Safe: the run stops. -/
  | notModelled (mnemonic : String)
deriving DecidableEq, Repr

/-! ### Ownership -/

/-- Region modes (R107). -/
inductive Mode where
  | exclusive | frozen | commons
deriving DecidableEq, Repr

/-- A token entry (R108, Tables 06-1 to 06-3) with its share records (R109). -/
structure Token where
  base : Nat
  lsize : Nat
  mode : Mode
  holder : Word
  lender : Word
  opened : Bool
  records : List Word
  xfer : BitVec 32
  acct : BitVec 12
  taint : Bool
  wr : Bool
deriving DecidableEq, Repr

/-- An entry of a core's token cache (R112): what its context, or the engine it stands for, may do. -/
structure TokenHit where
  ctx : Nat
  base : Nat
  lsize : Nat
  mode : Mode
  holds : Bool
  shares : Bool
  xfer : BitVec 32
deriving DecidableEq, Repr

/-- A quota account (R119, Table 06-6) with its pool of free blocks (base, log2 size) and the core of its recovery
routine (R217). -/
structure Account where
  quota : BitVec 32
  charge : Nat
  pool : List (Nat × Nat)
  recovery : Option Nat
deriving DecidableEq, Repr

/-- A registered heap (R103): its ranges (base, size) and the account it is carved from. -/
structure Heap where
  ranges : List (Nat × Nat)
  acct : BitVec 12
deriving DecidableEq, Repr

/-- Where a cell block or wire slot stands (R29, R103, R304): free at its slice, in a core's reservoir, allocated, or
freed by a take and held back until the handler commits. -/
inductive ItemState where
  | free | drawn | live | heldBack
deriving DecidableEq, Repr

/-! ### Messages -/

/-- A pair in flight (R28, R138): its two references, first then second, its radius, and the words a NET seed brings
(argument, GRSIG word, account; R397); `net` is the NET node in whose net a handler formed it (R39, R190). -/
structure PairRef where
  first : Word
  second : Word
  radius : Nat
  seed : Option (Word × Word × BitVec 12)
  net : Option Nat := none
deriving DecidableEq, Repr

/-- A message (R77, R312, R313); `bad` says that the sending interface refuses it at once, `fromHost`
that the host launched it (R185). -/
structure Msg where
  cls : Nat
  sender : Nat
  msgid : BitVec 16
  lease : BitVec 16
  checked : Bool
  dest : Nat
  payload : List Word
  pair : Option PairRef
  placed : Option (Nat × Nat × Nat)
  attempts : Nat
  group : Option Nat
  bad : Bool
  fromHost : Bool
deriving DecidableEq, Repr

/-- A reclaimed region that the recovery routine on a core has been told of (R217): base, log2 size, taint, the dead agent id. -/
structure Report where
  base : Nat
  lsize : Nat
  taint : Bool
  dead : Nat
  core : Nat
deriving DecidableEq, Repr

/-- Who keeps the retry entry of a message (R139): a core, a vertex's pair retry buffer, a die's fault queue, the host
bridge, the device itself for what its engines send, or another device. -/
inductive MsgHome where
  | core (k : Nat) | vertex (v : Nat) | die (d : Nat) | host | device | remote
deriving DecidableEq, Repr

/-- Where a message of a retry entry is: flying, refused and on its way back, waiting for its next attempt, to be told
to its sender as a notice, or waiting for a retry entry of its vertex. -/
inductive MsgPhase where
  | flying | returning (code : Nat) | backoff (due : Nat) | notice (code : Nat) | queued
deriving DecidableEq, Repr

/-- A retry entry (R139). Before `due` its message does not reach what it flies to (R12); `told` says that a core without a pair
routine reported its refusal (R125), `hops` how many vertices of its route a placed item has left behind (R186). -/
structure MsgFlight where
  id : Nat
  home : MsgHome
  from_ : Nat
  phase : MsgPhase
  msg : Msg
  due : Nat
  told : Bool
  hops : Nat
deriving DecidableEq, Repr

/-- What an inbox slot is doing (R29, R137): waiting to be chosen, a pair not yet dispatched, a pair whose takes are
out, kept for want of a rule (R27), or run by a context. -/
inductive SlotPhase where
  | waiting | pairWaiting | taking | noRule | running (c : Nat)
deriving DecidableEq, Repr

/-- An inbox slot (R77, R137): `firstWords` and `secondWords` are the words of a dispatched pair as far as its takes have returned,
`firstTokens` and `secondTokens` the tokens and shares that came with each cell (R29), `since` the cycle in which the message came to wait. -/
structure Slot where
  index : Nat
  msg : Msg
  phase : SlotPhase
  routine : Nat
  entry : Nat
  firstWords : Option (List Word)
  secondWords : Option (List Word)
  firstTokens : List (Nat × Bool)
  secondTokens : List (Nat × Bool)
  acct : BitVec 12
  since : Nat
deriving DecidableEq, Repr

/-! ### What leaves a core -/

/-- The token instructions that go to a home slice (Table 06-5). -/
inductive TokenKind where
  | lend | ret | split | join | share | drop | park | parkShare | carve | claim | clean
deriving DecidableEq, Repr

/-- A token instruction on its way: the address, the holder word, the destination register (0 none), the size of a
carve and the transfer count seen. -/
structure TokenOp where
  kind : TokenKind
  va : Nat
  holder : Word
  d : Nat
  lsize : Nat
  commons : Bool
  xfer : BitVec 32
  retried : Bool
deriving DecidableEq, Repr

/-- What a write to another device is (R175, R177): a store or slice operation, the MEMIT of a handler with its row, a write to a cell, a link, a
token instruction with its destination register and which one it is. -/
inductive RemoteKind where
  | store | emit (row : Nat) | cell | link | token (d : Nat) (kind : TokenKind)
deriving DecidableEq, Repr

/-- What a context waits for from another device before it goes on with its instruction: the value of a load or a peek, or that a store, a slice
operation or a token instruction passes the checks made there (R175, R177, R237, R238). -/
inductive RemoteAsk where
  | load | peek | store | sliceop | token
deriving DecidableEq, Repr

/-- What is performed at a home slice in one step of its slice order (R161). Addresses are physical; `d` is the g
register the result goes to, 0 for none; a remote read that `acts` has an effect there, which marks its handler (R32). The line
operations are path-0 accesses of a core that wait for their lines or for a fence: `vec` says that `d` is a v register, `lo` and `hi` are what
the logged bytes of the context make of zeros and of ones (R154); `emit` is the MEMIT of a handler, which frees its row (R380), and
`first` the address whose region is told of a store when a handler's leaves (R114, R154). -/
inductive SliceOp where
  | load (pa n : Nat) (sx : Bool) (d : Nat)
  | lineLoad (pa n : Nat) (sx vec : Bool) (d lo hi : Nat)
  | lineStore (va pa : Nat) (data : List Byte)
  | tracked (pa n : Nat) (sx : Bool) (d : Nat)
  | rmw (pa width op : Nat) (val cmp : Word) (d : Nat)
  | write (pa : Nat) (data : List Byte) (first : Option Nat := none)
  | emit (pa row : Nat) (data : List Byte)
  | cmls (targets : List (Nat × Word)) (d : Nat)
  | cell (addr pa : Nat) (words : List Word)
  | cset (ref : Word) (pa word : Nat) (val : Word)
  | link (slot : Word) (pa : Nat) (other : Word)
  | cxld (ref : Word) (pa d : Nat)
  | note (pa : Nat) (tok slotWord : Word) (d : Nat)
  | flt (pa : Nat) (code : BitVec 8) (slotWord : Word) (d : Nat)
  | slotRead (graph slot d : Nat)
  | stat (va d : Nat)
  | token (t : TokenOp)
  | bari (pa : Nat) (count : Word)
  | waitb (pa d : Nat)
  | contribute (gid member : Nat) (val : Word)
  | result (gid pa : Nat) (val : Word)
  | grlaunch (records statuses n d : Nat)
  | grsig (word : Word)
  | fence (src dst : Nat)
  | push (pair : PairRef)
  | flush (base count : Nat) (inv : Bool)
  | remoteRead (ref : Word) (n : Nat) (sx : Bool) (d : Nat) (acts : Bool)
  | remoteLoad (ref : Word) (n : Nat) (ask : RemoteAsk)
  | remoteWrite (ref : Word) (kind : RemoteKind)
deriving DecidableEq, Repr

/-- An entry of a send buffer (R30, R240), or the same thing sent at once outside handler mode. `next` is the next member of a
multicast (R349), `since` the cycle in which a neighbour write issued (R160). -/
inductive Entry where
  | slice (ordered : Bool) (home : Nat) (op : SliceOp)
  | message (m : Msg)
  | agg (pa home : Nat) (addend : Word)
  | nput (j : Nat) (val : Word) (since : Nat)
  | memit (row home pa : Nat) (data : List Byte)
  | gsend (gid cls : Nat) (payload : List Word) (next : Nat)
  | gclose (gid : Nat)
deriving DecidableEq, Repr

/-- What a fault reports beside the place (Table 13-2, R395); `keepTrack` says that it leaves the track set (Table 18-4). -/
structure FaultInfo where
  code : Nat
  addr : Word := 0
  detail : Word := 0
  reason : Nat := 0
  xfer : BitVec 32 := 0
  keepTrack : Bool := false
deriving DecidableEq, Repr

/-- One access on its way to its home slice or back (log 9). `group` numbers the switch group of its context; `done`
says that it was performed and only its acknowledgement is out; `wb` are the lines whose write-backs come first (R117,
R286); `undo` are the registers at its issue, kept while it can still fault (R151); before `due` it cannot be performed, and
its result is not back before `back` (R12, R234).
`cls` is the traffic class of its page, `ea` the address that a fault of it reports; `fault` is a fault that it met and that waits for
the accesses before it; `net` is the NET node whose handler sent it (R190). -/
structure Flight (ρ : Type) where
  id : Nat
  ctx : Nat
  group : Nat
  path : Nat
  ordered : Bool
  posted : Bool
  slice : Nat
  cls : Nat
  ea : Word
  op : SliceOp
  wb : List Nat
  done : Bool
  pc : Word
  undo : Option ρ
  due : Nat
  back : Nat
  fault : Option FaultInfo
  net : Option Nat
deriving DecidableEq, Repr

/-! ### A context -/

/-- The registers that instructions of a group write and that a precise fault of an earlier instruction takes back
(R72, R73, R52, R151); `cf` are flags that sr.cflags shows once no earlier instruction can fault (R53). -/
structure Regs where
  g : Store Word
  v : Store Vec
  p : Store (BitVec 32)
  flags : BitVec 5
  cf : BitVec 5
deriving DecidableEq, Repr

/-- Why a context waits at an instruction (R78, R80, R92, R96, R112, R137 to R147, R188). -/
inductive Stall where
  | fetch (line : Nat) | fill (line : Nat) | walk (va : Nat) | tokenWalk (va path due : Nat)
  | flights | qPop (port : Nat) | qPush (port : Nat) | branchPop (core : Nat) | branchPush (core : Nat)
  | nRead (j : Nat) | nWrite (core : Nat) (o : OpE) (x : Word) (since : Nat)
  | divider | functionUnit | retryFull | storesFull | reservoir (wire : Bool) (heap : Nat)
  | jobQueueFull | jobQueueEmpty | jobWait (id : BitVec 16) | transfer
  | segments (row n : Nat) | shadow | mgang | mwait (jid : BitVec 16) | mdrain (jid : BitVec 16)
  | gbar | chordOpen (since dest : Nat) | chordPut | chordGet | barrier (pa : Nat) | groupDrain (gid : Nat)
  | stopping (target : Nat) | dequeFull (n : Nat) | round (gid : Nat) | completion | lockstep
deriving DecidableEq, Repr

/-- The run state of a context (R184, R188, R200, R206, R212, R255, R320, R321, R323). -/
inductive Run where
  | idle | ready | groupEnd | stalled (why : Stall) | leaving | aborting | trapped | stopped | preempted
  | reserved | held | savedOut | trailing
deriving DecidableEq, Repr

/-- The record of the switch group that a context issues (R71, R224, R396): how many instructions, the registers
written, the smaller allotment after a VGROW or VSHRINK. -/
structure Group where
  len : Nat
  g : List Nat
  v : List Nat
  p : List Nat
  s : List Nat
  lowAllot : Option Nat
deriving DecidableEq, Repr

/-- What a write-log line stands for (R30, R157, R175): memory, a core's scratchpad, or memory of another device. -/
inductive LogPlace where
  | memory | scratch (core : Nat) | remote
deriving DecidableEq, Repr

/-- A line of a write log (R30, R157): data and which bits were written; `line` is the address divided by 32, of a remote line with its
device; `home` is the slice and class that a memory line is filled from. -/
structure LogLine where
  place : LogPlace
  line : Nat
  home : Nat
  data : BitVec 256
  mask : BitVec 256
deriving DecidableEq, Repr

/-- An entry of a track set (R288). -/
structure Track where
  line : Nat
  stamp : BitVec 16
  broken : Bool
deriving DecidableEq, Repr

/-- One hardware context. `pair` is the pair of a pair handler, `stopWhy` is a stop asked for at the next group end, by CTXSAVE (false) or
the watchdog (true), `fresh` says that its first instruction is still to issue, `budgetKept` is a budget that does not count down (R81,
R147), `committed` says that its HRET has committed (R255), `heldUntil` the first
cycle in which it can go on after a queue moved (R140), `tried` says that the instruction due has issued before and waited (R148), `late` are cycles that the TLB and the checker add to the results of the
instruction that issues (R92, R209), `ownBytes` what it last stored through global references on path 0 (R152), `remoteGot` the
answers that the waiting instruction has from other devices: address, bytes, value; `popSince` the ports and the cycle of pops that wait or are
tried again (R78), `skip` a trap that resumes
after its instruction; `lockPass` says that the trailing copy agreed with the output now due, `lockLag` that an output
has waited for the 64 cycles by which it runs behind (R213); `cooked` is the value that the end of
a wait gives the waiting instruction; `pendingS` and `newAllot` are what SWR, I4TAB, VGROW and VSHRINK change from the next group on (R48,
R318, R322). -/
structure Ctx where
  regs : Regs
  pc : Word
  allot : Nat
  rmode : BitVec 3
  acct : BitVec 12
  lease : BitVec 16
  lockstep : Bool
  gang : Option Nat
  member : Nat
  cip : Bool
  hmode : Bool
  routine : Nat
  budgetEnd : Option Nat
  watchdog : Option Nat
  run : Run
  group : Group
  groupNo : Nat
  readyAt : Nat
  heldUntil : Nat
  latches : List (Option Nat)
  slot : Option Nat
  pair : Option PairRef
  mapped : Bool
  sendBuf : List Entry
  writeLog : List LogLine
  track : List Track
  startFlags : BitVec 5
  takenItems : List (Bool × Nat × Nat)
  slotTokens : List (Nat × Bool)
  fresh : Bool
  budgetKept : Option Nat
  committed : Bool
  tried : Bool
  late : Nat
  popSince : Option (List Nat × Nat)
  remoteGot : List (Nat × Nat × Nat)
  job : Option (BitVec 16)
  drain : Option (Nat × BitVec 16)
  walkFails : List (Nat × Nat)
  tokenFails : List (Nat × Nat × BitVec 32)
  preemptAsked : Bool
  stopWhy : Option Bool
  skip : Bool
  lockPass : Bool
  lockLag : Bool
  barrierArrived : Bool
  passBarrier : Bool
  cooked : Option Word
  pendingS : List (Nat × Word)
  newAllot : Option Nat
  ownBytes : Store (Option Byte)
deriving DecidableEq, Repr

/-! ### A core -/

/-- A line of a data cache (R96): 32 bytes, dirty, filled as a peek, poisoned (R91), its home slice with the class (R99, R101), and its
rank of use within its set. -/
structure Line where
  data : BitVec 256
  dirty : Bool
  peeked : Bool
  poison : Bool
  home : Nat
  used : Nat
deriving DecidableEq, Repr

/-- A line on its way to a data cache (R96, R290): filled as a peek, for the slice only (PREF.L2), from which home slice and class, held
back by which fences of which context (R180); `stale` says that its region's token has left the core meanwhile (R168). -/
structure Fill where
  line : Nat
  peeked : Bool
  l2 : Bool
  home : Nat
  due : Nat
  ctx : Nat
  before : Nat
  stale : Bool
deriving DecidableEq, Repr

/-- A TLB entry: page base, log2 of the page size, the leaf (R92, R135). -/
structure TlbEntry where
  page : Nat
  lsize : Nat
  leaf : Word
deriving DecidableEq, Repr

/-- A chord held by a context of the core (R143, R315). -/
structure Chord where
  holder : Nat
  dest : Nat
  closing : Bool
deriving DecidableEq, Repr

/-- A result due at the write port of a register bank (R74): bank and cycle, how many accesses the module had sent when its instruction issued,
its context. -/
structure PortUse where
  bank : Nat
  cycle : Nat
  order : Nat
  ctx : Nat
deriving DecidableEq, Repr

/-- The core counter block (Table 08-5). -/
structure Counters where
  issued : Word
  parked : Word
  bank : Word
  tokmiss : Word
  rulemiss : Word
  refused : Word
  retries : Word
  undeliv : Word
  steals : Word
  spills : Word
  dupbytes : Word
  checker : Word
  faults : Store (BitVec 32)
deriving DecidableEq, Repr

/-- One core of any kind; what its kind does not have stays at its reset value. -/
structure Core where
  capacity : Nat
  hold : BitVec 16
  last : Nat
  routines : Store (Word × Word)
  inbox : List Slot
  sealed_ : Bool
  killed : Bool
  deque : List PairRef
  spill : List PairRef
  spillLimit : Nat
  spillBases : List Nat
  victim : Nat
  probed : Nat
  msgid : BitVec 16
  reservoir : List (Bool × Nat × Nat)
  /-- Refills asked for (R304): wire, heap, number of items. -/
  requests : List (Bool × Nat × Nat)
  /-- Items on their way from their slices: the item, and the cycle in which it is there (R12, R304). -/
  arriving : List ((Bool × Nat × Nat) × Nat)
  dcache : Store (Option Line)
  fills : List Fill
  icache : Store (Option (BitVec 256 × Bool × Nat))
  fetches : List (Nat × Nat × Nat)
  tlb : List TlbEntry
  tokenCache : List TokenHit
  ruleCache : List (Nat × Nat × Word × Word)
  i4tab0 : Word
  i4tab1 : Word
  n : Store Word
  npres : BitVec 4
  tiles : Store (BitVec 256)
  scratch : List Host.Cell
  qIn : Store (List Vec)
  qOut : Store (List Vec)
  boqToAccess : List Bool
  boqFromAccess : List Bool
  /-- Ports whose queue lost the memory region behind it (R140). -/
  queuesLost : List Nat
  agg : List (Nat × Nat × Word × Nat)
  chord : Option Chord
  port : List (Option Vec)
  portIn : List (Nat × Option Vec)
  portHolder : Option Nat
  /-- The source of the chord into the port was killed: CHGET ends with DEAD-PEER until another chord opens (R143). -/
  portDead : Bool
  win : Word
  turn : Nat
  /-- The cycle from which the issue slot is free again: one instruction a cycle, and its extra cycles (R74, R188, R209, R374). -/
  issueFree : Nat
  /-- Results due at the write ports of the register banks (R74, R375). -/
  bankWrites : List PortUse
  /-- I4 tables that take effect in cycles to come (R280). -/
  i4next : List (Nat × Word × Word)
  /-- Prefetches whose page is being walked: address, context, for the slice only (R92, R290). -/
  prefs : List (Nat × Nat × Bool)
  dividerFree : Nat
  unitFree : Nat
  heldRecords : List (List Word)
  restored : List (Nat × Nat)
  stolen : List (Nat × PairRef)
  stolenFrom : List Nat
  /-- Inbox slots with the first cycle in which they can take an arrival again (R137). -/
  slotFree : Store Nat
  /-- The cycle of the last change of the holds, plus one, and the holds before it (R126). -/
  heldAt : Nat
  heldWas : BitVec 16
  /-- The cycle of the last selection, plus one (R126). -/
  selectedAt : Nat
  counters : Counters
deriving DecidableEq, Repr

/-! ### A cluster -/

/-- A value a lattice weight or activation stands for (R62, R64): ±m·2^e, an infinity, a NaN. -/
inductive LatVal where
  | fin (m : Int) (e : Int) | inf (neg : Bool) | nan
deriving DecidableEq, Repr

/-- A weight plane of a column group (R328): format, span, terms in all, the recoded weights by 16k + n. -/
structure Plane where
  fmt : BitVec 4
  span : Nat
  terms : Nat
  weights : Store LatVal
deriving DecidableEq, Repr

/-- The states of an accumulator row segment (R327). -/
inductive SegState where
  | free | busy | kept | draining
deriving DecidableEq, Repr

/-- An accumulator row segment: 16 lanes, state, poison (R211), the job that left it draining, the batch slot of the
drain (R331), whether a drain handler runs for it, the cycle in which it came to its state: a kept one is busy until then (R327), a draining
one is ready from the next on (R126). -/
structure Seg where
  data : Vec
  state : SegState
  poison : Bool
  jid : BitVec 16
  batch : Nat
  started : Bool
  since : Nat
deriving DecidableEq, Repr

/-- A column group: planes, segments, counters (R146), segments a MEMIT wrote by job (R333). -/
structure ColGroup where
  active : Plane
  shadow : Plane
  segs : Store Seg
  applied : Word
  dropped : Word
  idle : Word
  written : Store Nat
deriving DecidableEq, Repr

/-- A lattice job (R329, R330): id, words, slot mask sampled at the barrier, I4 tables, members and their accounts by core at the barrier;
`poison` says that a sector of the mask or of its map entries was poisoned (R91). -/
structure LatJob where
  jid : BitVec 16
  wordA : Word
  wordB : Word
  wordC : Word
  mask : Nat
  maps : List Nat
  poison : Bool
  tables : List (Word × Word)
  members : List Nat
  accts : List (BitVec 12)
  start : Option Nat
deriving DecidableEq, Repr

/-- A lattice job that ended: id, code, wrap, flags by group, members that have not yet taken their flags, the entry
of its drains, the batch graph when it is ragged, the accounts by core. -/
structure LatDone where
  jid : BitVec 16
  code : Nat
  wrap : Bool
  flags : List (BitVec 5)
  owed : List Nat
  entry : Nat
  graph : Option Nat
  accts : List (BitVec 12)
deriving DecidableEq, Repr

/-- A job of the access core (R141, R337): its start waits for the fences of its submitter with numbers below `before` (R180); `seq` is its
place among what its submitter sent, `net` the NET node whose handler submitted it (R190). -/
structure Job where
  id : BitVec 16
  entry : Word
  arg0 : Word
  arg1 : Word
  submitter : Nat
  before : Nat
  seq : Nat
  code : Nat
  running : Option Nat
  net : Option Nat
deriving DecidableEq, Repr

/-- A target of TLOAD and RGATHER (Table 20-6): a tile register from a row, or the stream buffer from an offset. -/
inductive Place where
  | tile (core tile row : Nat) | stream (offset : Nat)
deriving DecidableEq, Repr

/-- What a transfer does (R341 to R345): addresses as operands give them, lengths in 32-byte lines, a port as (core, port). -/
inductive EngineOp where
  | tload (src : Word) (dst : Place) (lines : Nat)
  | bulk (dst src : Word) (lines : Nat) (dup : Bool)
  | gather (dst base idx : Word) (port : Option (Nat × Nat))
  | scatter (base data idx : Word)
  | rgather (base idx : Word) (rows rowLines : Nat) (dst : Place)
  | qpush (ea : Word) (core port : Nat) (out : Bool)
deriving DecidableEq, Repr

/-- One transfer of an access engine (R340): the context and instruction, the job, the switch group, the cycle from which it moves,
how many line performances it has made, the indices and lines read so far, the barrier (0: none) and the byte counts by which it is
still to be lowered. -/
structure Transfer where
  id : Nat
  ctx : Nat
  pc : Word
  job : Option (BitVec 16)
  group : Nat
  due : Nat
  op : EngineOp
  step : Nat
  idx : List Nat
  got : List (Word × BitVec 256)
  barrier : Word
  owed : List Nat
deriving DecidableEq, Repr

/-- One cluster: lattice, access engine, walker, second-level TLB, job queue. `arrivals` are the members parked at an MGANG with the
three job words, the I4 table and the account of each; `waiting` are jobs whose barriers are complete while another is pending, oldest first (R329);
`nexters` the contexts parked at JNEXT, oldest first; `engine` the lines moved in a cycle (R340). -/
structure Cluster where
  cflags : BitVec 5
  tlb : List TlbEntry
  walks : List (Nat × Nat × Nat × Nat)
  walkDue : Nat
  /-- Walks for the engine that ended in a fault: address and code (R92). -/
  walkFails : List (Nat × Nat)
  groups : Store ColGroup
  running : Option LatJob
  pending : Option LatJob
  nextJid : BitVec 16
  ended : List LatDone
  waiting : List LatJob
  arrivals : List (Nat × List Word)
  stream : List Host.Cell
  jobCounter : BitVec 16
  jobs : List Job
  completed : List Job
  nexters : List Nat
  transfers : List Transfer
  engine : Nat × Nat
  wired : List (Nat × Bool)
  unfit : Bool
  disabled : Bool
deriving DecidableEq, Repr

/-! ### Graphs, gangs, groups -/

/-- What the walker keeps of a node: its status (Table 07-9), how many predecessors completed, how often a LOOP has run its body since
its status was reset, the cycle of the last change, `stage`: a seed is sent, a slot area written, a LOOP to be evaluated again, and the
cycle in which its last predecessor completed, 0 for none (R18, R133, R189, R190). -/
structure Node where
  state : Nat
  brc : Bool
  done : Nat
  complete : Nat
  iter : Nat
  value : BitVec 32
  runs : Nat
  changed : Nat
  stage : Bool
  doneAt : Nat
deriving DecidableEq, Repr

/-- A running graph (R132, R355). -/
structure GraphRun where
  die : Nat
  records : Nat
  statuses : Nat
  count : Nat
  acct : BitVec 12
  nodes : Store Node
  faulted : Option (Nat × Nat)
  live : Bool
deriving DecidableEq, Repr

/-- Where a batch former stands (R189, R196): returning released pages, retiring from a slot on, evicting, admitting, writing from a slot on
with the rows given so far, clearing the rest of the map, or at its end. -/
inductive BatchPhase where
  | release | retire (slot : Nat) | evict | enter | write (slot off : Nat) | last (off : Nat) | done
deriving DecidableEq, Repr

/-- One access of a batch former, at a virtual address (R189): the read of a record that its graph is to release, that stands in a slot or in
the queue, that is written next, or that is to be evicted, and the write that evicts it; fields of a record (offset, high and low bit,
value); an entry of a page list whose page goes back to the pool; bytes of the slot area or of a page list; a bit of a mask. -/
inductive BatchAccess where
  | free (va : Nat)
  | fetch (slot : Option Nat) (va : Nat)
  | give (slot va off : Nat)
  | bytes (va : Nat) (data : List Byte)
  | bit (va index : Nat) (on : Bool)
  | unpage (va : Nat)
  | fields (va : Nat) (l : List (Nat × Nat × Nat × Nat))
  | check (slot va : Nat)
  | evict (slot va : Nat) (l : List (Nat × Nat × Nat × Nat))
deriving DecidableEq, Repr

/-- A batch former at work: the virtual address of the slot area, the records to release, the queue and the quarantine mask that it found,
occupied slots with their records, slots freed, the accesses to make next, and the words of the records as it has read or written them. -/
structure BatchRun where
  phase : BatchPhase
  area : Nat
  returns : List Nat
  queue : List Nat
  barred : Nat
  slots : List (Nat × Nat)
  freed : List Nat
  todo : List BatchAccess
  recs : List (Nat × List Nat)
deriving DecidableEq, Repr

/-- A gang (R193, R194): its graph node, clusters, entry, argument, budget, reserved and running members, and the
requests and barriers it has. -/
structure Gang where
  graph : Option (Nat × Nat)
  clusters : List Nat
  entry : Word
  arg : Word
  lbudget : Nat
  acct : BitVec 12
  members : List (Nat × Nat)
  started : Bool
  ended : List Nat
  arrived : List Nat
  arrivedAt : Nat
  preempt : Bool
  blocks : List (Nat × Nat)
  lost : Bool
deriving DecidableEq, Repr

/-- A reduction or multicast group (R134, Table 07-10): state 0 free, 1 opened, 2 draining. -/
structure GroupEntry where
  state : Nat
  kind : Nat
  fmt : BitVec 4
  op : Nat
  inflight : Nat
  mlist : Word
  root : Nat
  dest : Word
  destPa : Nat
  members : List Nat
  round : List (Nat × Word)
deriving DecidableEq, Repr

/-! ### Slices, dies, host -/

/-- Who reaches a slice and may have to wait for sectors (R97): an access by its number, a core's fill or fetch of a line, the walker of
a vertex, a take of a core's slot, an engine by its vertex, the host, an agent of another device, or a die's scheduler block with its walker, batch
formers and request faults. -/
inductive Requester where
  | flight (id : Nat) | fill (core line : Nat) | fetch (core line : Nat) | walk (vertex : Nat) | take (core slot : Nat) (second : Bool)
  | engine (vertex transfer : Nat) | host | remote (agent : Nat) | scheduler (die : Nat)
deriving DecidableEq, Repr

/-- A line record of a slice (R98 to R100): tag, valid sectors, dirty sectors, re-reference value; `owed` are the accesses, each with its
sectors, whose miss its last bursts served and that have not come back for it. -/
structure L2Line where
  line : Nat
  valid : BitVec 8
  dirty : BitVec 8
  rrpv : Nat
  owed : List (Requester × BitVec 8)
deriving DecidableEq, Repr

/-- A miss of a slice (R97): the sectors it asks for, its class, whether its channel command was given, when the hold ends or the sectors
arrive, and the accesses that joined it, each with its sectors. -/
structure Miss where
  line : Nat
  sectors : BitVec 8
  cls : Nat
  sent : Bool
  due : Nat
  joined : List (Requester × BitVec 8)
deriving DecidableEq, Repr

/-- A slice: its ways by set, its policy-B insertion counters by class (R100), misses held and commanded (R97). -/
structure Slice where
  ways : Store (List (Option L2Line))
  inserts : Store Nat
  misses : List Miss
deriving DecidableEq, Repr

/-- A die: the fault queue (R200), the walker's last start (R189), the policy selectors by class (R102), the cores whose deque-full event
stands before the apex (R138). -/
structure Die where
  faultQueue : List (List Word)
  lastStart : Option Nat
  selectors : Store Nat
  dequeFull : List Nat
deriving DecidableEq, Repr

/-- The host endpoint: BAR0 registers, the command in progress (tag, opcode, status, value), RESYNC asked for, the events backlogged, the
launches that wait for a retry entry (requester, target, words), the host's own memory, the MSI-X vectors raised, and the read
completions sent: requester, status 0 successful, 1 Unsupported Request, 2 with the EP bit, data (R382 to R386). -/
structure HostSide where
  apbase : Word
  ringbase : Word
  evbase : Word
  ringtail : BitVec 32
  ringhead : BitVec 32
  evtail : BitVec 32
  evhead : BitVec 32
  launch : List Word
  command : Option (Nat × Nat × Nat × Word)
  resync : Option Word
  backlog : List (Word × Word)
  waitingLaunches : List (Nat × Word × List Word)
  /-- Posted writes that wait for their slices, oldest first: requester, address, data (R178). -/
  posted : List (Nat × Nat × List Byte)
  memory : List Host.Cell
  vectors : List Nat
  completions : List (Nat × Nat × List Byte)
deriving DecidableEq, Repr

/-- The module. `agenda`, `turns`, `cur` and the flight numbers are the model's own (log 1, log 9). -/
structure State where
  agenda : List Turn
  turns : Nat
  cur : Nat
  free : Nat
  cycle : Nat
  clockStopped : Bool
  device : Nat
  mem : List Host.Cell
  poisoned : Store Bool
  stamps : Store (BitVec 16)
  root : Nat
  ruleBase : Nat
  ruleLog : Nat
  batchRegs : Store Nat
  /-- The resident whose load set a batch-graph register (R130). -/
  batchOwners : Store Nat
  /-- Batch formers at work, by 4096 × instance + node (R189). -/
  batches : Store (Option BatchRun)
  quarantine : Store Nat
  tokens : Store (Option Token)
  accounts : Store Account
  cellHeaps : Store (Option Heap)
  wireHeaps : Store (Option Heap)
  cells : Store ItemState
  wires : Store ItemState
  ctxs : Store Ctx
  cores : Store Core
  clusters : Store Cluster
  dies : Store Die
  slices : Store Slice
  nextId : Nat
  flights : List (Flight Regs)
  messages : List MsgFlight
  graphs : Store (Option GraphRun)
  gangs : Store (Option Gang)
  groups : Store GroupEntry
  releases : Store (List Nat)
  admission : Store (List Nat)
  pools : Store (List Nat)
  host : HostSide
  startRecord : List (Word × Word)
  startHeader : Word × Word
  firmwareSlot : Nat
  /-- The images in the two firmware slots (R391), and whether the inactive one takes effect at the next start-up. -/
  firmware : Store (List Byte)
  stagedImage : Bool
  attestLeaf : Nat
  /-- What an image is verified with: the public key in fuses, and the least version, in non-volatile memory (R391). -/
  fuseKey : List Byte
  minVersion : Nat
  powerLimit : Nat
  statStopped : Word
  statHostdrop : Word
  statThermal : Word
  statPoison : Word
  cxlSizes : Store Nat
  cxlDown : List Nat
  portsUp : List Nat
  routes : Store (List Nat)
  peersStopped : List Nat
  peersLost : List Nat
  /-- When each device last answered or sent a notice, on the clock that no stop holds (R219). -/
  peerSeen : Store Nat
  hostOnline : Bool
  /-- The mandatory start-up step that failed and was reported to the host (R222). -/
  startHalted : Option Nat
  /-- Answers that left for agents of other devices: agent, fault code or 0, words (R175, R177). -/
  answers : List (Nat × Nat × List Word)
  /-- Regions that a claim gave to the apex and that are still to be reported: base and dead agent id (R217). -/
  claimed : List (Nat × Nat)
  reclaimed : List Report
  lastRecords : List (List Word)
  /-- Stopped cycles, which no counter service clears (R20, R219). -/
  stoppedAll : Nat
  /-- Ordered accesses that were out on a Ralquel port when it failed (R390). -/
  draining : List Nat
  noticeAt : Word
  notices : Nat
deriving DecidableEq, Repr

/-! ### Reset -/

def Regs.reset : Regs := { g := [], v := [], p := [], flags := 0, cf := 0 }

def Group.empty : Group := { len := 0, g := [], v := [], p := [], s := [], lowAllot := none }

/-- A context right after reset: R50, R52, R76, R82, R83; registers without a reset value are 0 (log 3). -/
def Ctx.reset : Ctx :=
  { regs := Regs.reset, pc := 0, allot := 48, rmode := 1, acct := 0, lease := 0, lockstep := false, gang := none, member := 0,
    cip := false, hmode := false, routine := 0, budgetEnd := none, watchdog := none, run := .idle, group := Group.empty,
    groupNo := 0, readyAt := 0, heldUntil := 0, latches := [], slot := none, pair := none, mapped := false, sendBuf := [], writeLog := [], track := [],
    startFlags := 0, takenItems := [], slotTokens := [], fresh := false, budgetKept := none, committed := false, tried := false, late := 0, popSince := none, remoteGot := [], job := none, drain := none, walkFails := [],
    tokenFails := [], preemptAsked := false, stopWhy := none, skip := false, lockPass := false, lockLag := false, barrierArrived := false, passBarrier := false, cooked := none,
    pendingS := [], newAllot := none, ownBytes := [] }

def Counters.reset : Counters :=
  { issued := 0, parked := 0, bank := 0, tokmiss := 0, rulemiss := 0, refused := 0, retries := 0, undeliv := 0, steals := 0,
    spills := 0, dupbytes := 0, checker := 0, faults := [] }

/-- Word 0 and word 1 of a routine entry at reset: invalid, lbudget 20 (Table 07-2). -/
def routineReset : Word × Word := (0, 0xA000000000)

/-- A core right after reset: R47, R76 (log 4), R93, R104, R126, R257; the issue slot so that context 0 is next (log 13). -/
def Core.reset : Core :=
  { capacity := 48, hold := 0, last := 0, routines := [], inbox := [], sealed_ := false, killed := false, deque := [], spill := [],
    spillLimit := 32768, spillBases := [], victim := 0, probed := 0, msgid := 0, reservoir := [], requests := [], arriving := [], dcache := [], fills := [], icache := [],
    fetches := [], tlb := [], tokenCache := [], ruleCache := [], i4tab0 := 0x0706050403020100, i4tab1 := 0xFFFEFDFCFBFAF9F8,
    n := [], npres := 0, tiles := [], scratch := [], qIn := [], qOut := [], boqToAccess := [], boqFromAccess := [], queuesLost := [], agg := [],
    chord := none, port := [], portIn := [], portHolder := none, portDead := false, win := 0, turn := 7, issueFree := 0, bankWrites := [], i4next := [], prefs := [], dividerFree := 0, unitFree := 0, heldRecords := [],
    restored := [], stolen := [], stolenFrom := [], slotFree := [], heldAt := 0, heldWas := 0, selectedAt := 0, counters := Counters.reset }

/-- The weight plane of start-up: zero weights of I8, span 0 (R328). -/
def Plane.reset : Plane := { fmt := 0, span := 0, terms := 0, weights := [] }

def Seg.reset : Seg := { data := 0, state := .free, poison := false, jid := 0, batch := 0, started := false, since := 0 }

def ColGroup.reset : ColGroup :=
  { active := Plane.reset, shadow := Plane.reset, segs := [], applied := 0, dropped := 0, idle := 0, written := [] }

def Cluster.reset : Cluster :=
  { cflags := 0, tlb := [], walks := [], walkDue := 0, walkFails := [], groups := [], running := none, pending := none, waiting := [], nextJid := 0, ended := [], arrivals := [],
    stream := [], jobCounter := 0, jobs := [], completed := [], nexters := [], transfers := [], engine := (0, 0), wired := [], unfit := false,
    disabled := false }

def Slice.reset : Slice := { ways := [], inserts := [], misses := [] }

def Die.reset : Die := { faultQueue := [], lastStart := none, selectors := [], dequeFull := [] }

def GroupEntry.reset : GroupEntry :=
  { state := 0, kind := 0, fmt := 0, op := 0, inflight := 0, mlist := 0, root := 0, dest := 0, destPa := 0, members := [], round := [] }

def Account.reset : Account := { quota := 0, charge := 0, pool := [], recovery := none }

def Node.reset : Node := { state := 0, brc := false, done := 0, complete := 0, iter := 0, value := 0, runs := 0, changed := 0, stage := false, doneAt := 0 }

def HostSide.reset : HostSide :=
  { apbase := 0, ringbase := 0, evbase := 0, ringtail := 0, ringhead := 0, evtail := 0, evhead := 0,
    launch := [0, 0, 0, 0, 0, 0], command := none, resync := none, backlog := [], waitingLaunches := [], posted := [], memory := [], vectors := [],
    completions := [] }

/-- The module right after reset: the cycle count is 0 (Table 04-6), LPDDR-6 reads zero (R90), no token entry exists (R108),
every counter is zero (R148), the selectors stand at 512 (R102). What the spec gives no value is named in logs 3 to 6 and 10 to 13. -/
def State.reset : State :=
  { agenda := [], turns := 0, cur := 0, free := 0, cycle := 0, clockStopped := false, device := 0, mem := [], poisoned := [],
    stamps := [], root := 0, ruleBase := 0, ruleLog := 8, batchRegs := [], batchOwners := [], batches := [], quarantine := [], tokens := [], accounts := [],
    cellHeaps := [], wireHeaps := [], cells := [], wires := [], ctxs := [], cores := [], clusters := [], dies := [], slices := [],
    nextId := 0, flights := [], messages := [], graphs := [], gangs := [], groups := [], releases := [], admission := [], pools := [],
    host := HostSide.reset, startRecord := [], startHeader := (0, 0), firmwareSlot := 0, firmware := [], stagedImage := false, attestLeaf := 0,
    fuseKey := List.replicate 56 0, minVersion := 0, powerLimit := 2600, statStopped := 0, stoppedAll := 0, draining := [], statHostdrop := 0, statThermal := 0, statPoison := 0, cxlSizes := [], cxlDown := [],
    portsUp := [], routes := [], peersStopped := [], peersLost := [], peerSeen := [], hostOnline := false, startHalted := none, answers := [], claimed := [], reclaimed := [], lastRecords := [],
    noticeAt := 0, notices := 0 }

end Sys2Proof.Machine
end

