-- ==== Sys2Proof/Machine/Geometry.lean ====
section
/-! DEFINITION. Dies, vertices, slices, agent ids and latencies (R9 to R17, R99). -/

namespace Sys2Proof.Machine

/-- Core number of a core key, vertex key of a core key; a vertex key is 16x + y. -/
def coreNo (k : Nat) : Nat := k % 16
def vertexOf (k : Nat) : Nat := k / 16
def vx (v : Nat) : Nat := v / 16
def vy (v : Nat) : Nat := v % 16
def mkVertex (x y : Nat) : Nat := 16 * x + y
/-- The die of a vertex (R9). -/
def dieOf (v : Nat) : Nat := vx v / 16 + 2 * (vy v / 8)
/-- The vertex index within its die (R9). -/
def vertexIndex (v : Nat) : Nat := 16 * (vy v % 8) + vx v % 16
/-- The vertex with an index in a die. -/
def vertexAt (d idx : Nat) : Nat := mkVertex (16 * (d % 2) + idx % 16) (8 * (d / 2) + idx / 16)
/-- The apex vertex of a die (Table 01-1). -/
def apexVertex (d : Nat) : Nat := mkVertex (16 * (d % 2) + 7) (8 * (d / 2) + 3)
def isApexVertex (v : Nat) : Bool := vx v % 16 = 7 && vy v % 8 = 3
/-- Execute, access and apex cores; whether a core key names a core of the module (R10). -/
def isExecute (k : Nat) : Bool := coreNo k < 8
def isAccess (k : Nat) : Bool := coreNo k = 8
def isApex (k : Nat) : Bool := 14 ≤ coreNo k && isApexVertex (vertexOf k)
def coreExists (k : Nat) : Bool := k < 8192 && (coreNo k ≤ 8 || isApex k)

/-- An agent id from the device number and a context key, and its parts (R14). -/
def agentId (device c : Nat) : Nat := device * 65536 + c
def agentDevice (a : Nat) : Nat := a / 65536
def agentLocal (a : Nat) : Nat := a % 65536
/-- Agent ids that name no agent (R15), for an id of this device. -/
def namesAgent (a : Nat) : Bool :=
  let n := (a / 8) % 16
  let v := agentLocal a / 128
  a < 2 ^ 27 && n ≠ 9 && n ≠ 10 && n ≠ 11 && (n < 14 || isApexVertex v) && ((n ≠ 12 && n ≠ 13) || a % 8 = 0)
/-- Agent ids that a message or launch may be sent to (R15). -/
def namesTarget (a : Nat) : Bool := namesAgent a && (a / 8) % 16 ≠ 12 && (a / 8) % 16 ≠ 13

/-- Distance between two vertices (R17). -/
def distance (v w : Nat) : Nat := ((vx v : Int) - vx w).natAbs + ((vy v : Int) - vy w).natAbs

/-- Cycles of one straight run from `a` to `b` along an axis whose die edge lies before `m` (R12). -/
def runCycles (a b m : Nat) : Nat :=
  let lo := min a b
  let hi := max a b
  if lo < m && m ≤ hi then ceilDiv (m - 1 - lo) 8 + 3 + ceilDiv (hi - m) 8 else ceilDiv (hi - lo) 8

/-- Zero-load latency between two vertices (R12). -/
def latency (v w : Nat) : Nat := 2 + runCycles (vx v) (vx w) 16 + runCycles (vy v) (vy w) 8

/-! ### External ports (R13, Table 01-3) -/

/-- The vertex of the PCIe host bridge. -/
def bridgeVertex : Nat := mkVertex 8 0
/-- The vertex of a CXL root port. -/
def cxlVertex (p : Nat) : Nat := match p with | 0 => mkVertex 4 0 | 1 => mkVertex 27 0 | 2 => mkVertex 4 15 | _ => mkVertex 27 15
/-- The vertex of a Ralquel port: two ports to a vertex, along the outer columns. -/
def portVertex (p : Nat) : Nat := mkVertex (if (p / 16) % 2 = 0 then 0 else 31) (8 * (p / 32) + p % 16 / 2)

/-- The Ralquel port of ordered-class traffic from a vertex to a device (R389). -/
def orderedPort (s : State) (v d : Nat) : Option Nat :=
  ((List.range 16).map (fun i => 16 * dieOf v + (vx v + vy v + d + i) % 16)).find? (fun p => s.portsUp.contains p)

/-- The vertex of the port by which traffic from a vertex leaves for a device: of the first port of its group when none is up. -/
def exitVertex (s : State) (v d : Nat) : Nat := portVertex ((orderedPort s v d).getD (16 * dieOf v + (vx v + vy v + d) % 16))

/-- Whether a port that is up reaches a device (R15, R389). -/
def reachable (s : State) (d : Nat) : Bool := s.portsUp.any (fun p => (sget [] s.routes p).contains d)

/-- Zero-load cycles from a vertex to a home slice of another device, at least: to the port, over the fabric, and into the other mesh
(R13, R390). Adaptive traffic may use any port of the die's group that is up: the nearest one bounds it (R389). -/
def fabricHop (s : State) (v d : Nat) (ordered : Bool) : Nat :=
  let first := latency v (exitVertex s v d)
  402 + (if ordered then first else
    (((List.range 16).map (16 * dieOf v + ·)).filter s.portsUp.contains).foldl (fun m p => min m (latency v (portVertex p))) first)

/-- The context that runs the other copy of a lockstep context (R212). -/
def partnerOf (c : Nat) : Nat := (c / 128 ^^^ 16) * 128 + c % 128

/-- The vertex of a slice id (R16). -/
def sliceVertex (s : Nat) : Nat := vertexAt (s / 512) ((s / 4) % 128)
/-- The slice id of slice n at a vertex (R16). -/
def sliceId (v n : Nat) : Nat := 512 * dieOf v + 4 * vertexIndex v + n

/-- The fold of a physical line number (R99). -/
def fold (l : Nat) : Nat := (l % 2048) ^^^ ((l >>> 11) % 2048) ^^^ ((l >>> 22) % 2048) ^^^ ((l >>> 33) % 8)
/-- The home slice of a physical address under package-wide homing or homing on a die (R99). -/
def homeSlice (pkg : Bool) (d pa : Nat) : Nat := if pkg then fold (pa >>> 8) else d * 512 + fold (pa >>> 8) % 512

/-- The die and the channel within it that hold a line of LPDDR-6 (R90, Table 05-2). -/
def lpddrDie (pa : Nat) : Nat := pa / 0x6000000000
def channelOf (pa : Nat) : Nat := fold (pa >>> 8) % 32

/-- Whether a physical page is backed (R90, Table 05-2). -/
def backed (s : State) (pa : Nat) : Bool :=
  pa < Config.lpddrTop || (Config.cxlBase ≤ pa && pa < 0xA0000000000 &&
    (pa - Config.cxlBase) % 0x20000000000 < min (sget 0 s.cxlSizes ((pa - Config.cxlBase) / 0x20000000000)) 0x20000000000)

/-- The CXL port of a physical address. -/
def cxlPort (pa : Nat) : Option Nat := if Config.cxlBase ≤ pa && pa < 0xA0000000000 then some ((pa - Config.cxlBase) / 0x20000000000) else none

end Sys2Proof.Machine
end

