-- ==== Sys2Proof/Machine/Ops.lean ====
section
/-! DEFINITION. The named operations: reading and writing registers, memory and tables, taking a trap (R236) and returning
from one (R201). -/

namespace Sys2Proof.Machine

/-! ### Accessors -/

def ctxOf (s : State) (c : Nat) : Ctx := sget Ctx.reset s.ctxs c
def setCtx (s : State) (c : Nat) (x : Ctx) : State := { s with ctxs := sput Ctx.reset s.ctxs c x }
def modCtx (s : State) (c : Nat) (f : Ctx → Ctx) : State := setCtx s c (f (ctxOf s c))
def coreAt (s : State) (k : Nat) : Core := sget Core.reset s.cores k
def setCore (s : State) (k : Nat) (x : Core) : State := { s with cores := sput Core.reset s.cores k x }
def modCore (s : State) (k : Nat) (f : Core → Core) : State := setCore s k (f (coreAt s k))
def clusterAt (s : State) (v : Nat) : Cluster := sget Cluster.reset s.clusters v
def setCluster (s : State) (v : Nat) (x : Cluster) : State := { s with clusters := sput Cluster.reset s.clusters v x }
def modCluster (s : State) (v : Nat) (f : Cluster → Cluster) : State := setCluster s v (f (clusterAt s v))
def dieAt (s : State) (d : Nat) : Die := sget Die.reset s.dies d
def setDie (s : State) (d : Nat) (x : Die) : State := { s with dies := sput Die.reset s.dies d x }
def sliceAt (s : State) (i : Nat) : Slice := sget Slice.reset s.slices i
def setSlice (s : State) (i : Nat) (x : Slice) : State := { s with slices := sput Slice.reset s.slices i x }
def accountOf (s : State) (a : Nat) : Account := sget Account.reset s.accounts a
def setAccount (s : State) (a : Nat) (x : Account) : State := { s with accounts := sput Account.reset s.accounts a x }
def groupOf (s : State) (i : Nat) : GroupEntry := sget GroupEntry.reset s.groups i
def setGroup (s : State) (i : Nat) (x : GroupEntry) : State := { s with groups := sput GroupEntry.reset s.groups i x }
def colOf (s : State) (v i : Nat) : ColGroup := sget ColGroup.reset (clusterAt s v).groups i
def setCol (s : State) (v i : Nat) (x : ColGroup) : State :=
  modCluster s v (fun k => { k with groups := sput ColGroup.reset k.groups i x })

/-- The core and vertex of a context key. -/
def coreOf (c : Nat) : Nat := c / 8
def vertOf (c : Nat) : Nat := c / 128
/-- The agent id of a context of this module (R14). -/
def agentOf (s : State) (c : Nat) : Nat := agentId s.device c

/-- A context does not become ready before a cycle, which the checker's retry and the TLB put off (R92, R209). -/
def notBefore (s : State) (c n : Nat) : State := modCtx s c (fun x => { x with readyAt := max x.readyAt (n + x.late) })

/-- A value nothing constrains: the next one of the free values (log 17). -/
def freeWord (s : State) : Word × State := (Config.remoteWord s.free, { s with free := s.free + 1 })

/-! ### Registers -/

/-- g[r] of context c; g0 reads zero (R72). -/
def rg (s : State) (c r : Nat) : Word := if r = 0 then 0 else sget 0 (ctxOf s c).regs.g r
/-- g[r] ← x; a write to g0 is discarded (R72). -/
def wg (s : State) (c r : Nat) (x : Word) : State :=
  if r = 0 then s else modCtx s c (fun k => { k with regs := { k.regs with g := sput 0 k.regs.g r x } })
/-- v[r] of context c (R73). -/
def rv (s : State) (c r : Nat) : Vec := sget 0 (ctxOf s c).regs.v r
def wv (s : State) (c r : Nat) (x : Vec) : State :=
  modCtx s c (fun k => { k with regs := { k.regs with v := sput 0 k.regs.v r x } })
/-- p[r] of context c; p0 reads all ones (R73). -/
def rp (s : State) (c r : Nat) : BitVec 32 := if r = 0 then 0xFFFFFFFF else sget 0 (ctxOf s c).regs.p r
/-- p[r] ← x; a write to p0 is discarded (R73). -/
def wp (s : State) (c r : Nat) (x : BitVec 32) : State :=
  if r = 0 then s else modCtx s c (fun k => { k with regs := { k.regs with p := sput 0 k.regs.p r x } })

/-- g[r], g[r+1], … ← a list of words. -/
def wgs (s : State) (c r : Nat) : List Word → State
  | [] => s
  | x :: l => wgs (wg s c r x) c (r + 1) l

/-- n registers from g[r]. -/
def rgs (s : State) (c r n : Nat) : List Word := (List.range n).map (fun i => rg s c (r + i))

/-- Whether an earlier instruction of the context can still fault (R151). -/
def unsettled (s : State) (c : Nat) : Bool := s.flights.any (fun f => f.ctx = c && !f.done && f.undo.isSome)

/-- Flags that a context raised pass to sr.cflags of its cluster, and of the cluster in which its trailing copy raises the same flags (R212),
once no earlier instruction can fault (R53, R151). -/
def showFlags (s : State) (c : Nat) : State :=
  let f := (ctxOf s c).regs.cf
  if f = 0 || unsettled s c then s else
    let t := modCluster (modCtx s c (fun k => { k with regs := { k.regs with cf := 0 } })) (vertOf c) (fun k => { k with cflags := k.cflags ||| f })
    if (ctxOf s c).lockstep then modCluster t (vertOf (partnerOf c)) (fun k => { k with cflags := k.cflags ||| f }) else t

/-- OR flags into sr.flags of a context and into sr.cflags of its cluster (R52, R53). -/
def raiseFlags (s : State) (c : Nat) (f : BitVec 5) : State :=
  if f = 0 then s else
    showFlags (modCtx s c (fun k => { k with regs := { k.regs with flags := k.regs.flags ||| f, cf := k.regs.cf ||| f } })) c

/-! ### Physical memory -/

/-- The byte at a physical address; an address nothing was written to reads 0 (R90, R161; log 5). -/
def memByte (s : State) (pa : Nat) : Byte := sget 0 s.mem pa
def setByte (s : State) (pa : Nat) (b : Byte) : State := { s with mem := sput 0 s.mem pa b }

/-- The form of memory that every operation keeps: addresses strictly rising, no byte listed that reads as unlisted. -/
abbrev Memory.wf (m : List Host.Cell) : Prop := Store.ok (0 : Byte) m = true

/-- n bytes from pa as one little-endian number (R2). -/
def readMem (s : State) (pa : Nat) : Nat → Nat
  | 0 => 0
  | n + 1 => (memByte s pa).toNat + 256 * readMem s (pa + 1) n

/-- Write bytes from pa up. -/
def writeMem (s : State) (pa : Nat) : List Byte → State
  | [] => s
  | b :: l => writeMem (setByte s pa b) (pa + 1) l

/-- The n low bytes of a number, lowest first. -/
def bytesOf (x : Nat) : Nat → List Byte
  | 0 => []
  | n + 1 => BitVec.ofNat 8 x :: bytesOf (x / 256) n

/-- The change stamp of the line of pa (R98, R239), kept when its line leaves the slice (log 10). -/
def stampOf (s : State) (pa : Nat) : BitVec 16 := sget 0 s.stamps (pa / 256)
def bumpLine (s : State) (line : Nat) : State := { s with stamps := sput 0 s.stamps line (sget 0 s.stamps line + 1) }

/-- Whether a physical address lies behind a CXL port that is down (R388). -/
def cxlGone (s : State) (pa : Nat) : Bool := match cxlPort pa with | some p => s.cxlDown.contains p | none => false

/-- Whether a 32-byte sector holds an uncorrectable error (R91, R388). -/
def isPoisoned (s : State) (pa : Nat) : Bool := sget false s.poisoned (pa / 32) || cxlGone s pa
def anyPoison (s : State) (pa n : Nat) : Bool := (List.range ((pa % 32 + n + 31) / 32)).any (fun i => isPoisoned s (pa + 32 * i))
/-- Mark a sector poisoned, counted in the module's poison counter (R91, Table 08-6). -/
def poisonSector (s : State) (pa : Nat) : State :=
  if sget false s.poisoned (pa / 32) then s else { s with poisoned := sput false s.poisoned (pa / 32) true, statPoison := s.statPoison + 1 }
/-- Clear the marks of the sectors that a write covers whole (R91). -/
def clearFull (s : State) (pa n : Nat) : State :=
  (List.range (n / 32 + 1)).foldl
    (fun t i => let q := (pa + 31) / 32 + i
      if q * 32 + 32 ≤ pa + n then { t with poisoned := sput false t.poisoned q false } else t) s

/-- One write performed at a slice: the bytes, the stamp of each line once, the poison of whole sectors (R91, R161, R239). Behind a CXL
port that is down it reaches nothing (R388). -/
def performWrite (s : State) (pa : Nat) (l : List Byte) : State :=
  if cxlGone s pa then s else
  let s := writeMem s pa l
  let s := clearFull s pa l.length
  (List.range ((pa % 256 + l.length + 255) / 256)).foldl (fun t i => bumpLine t (pa / 256 + i)) s

/-! ### L2 bookkeeping (R97 to R102): contents stand in State.mem, a slice keeps which sectors it holds. -/

/-- The set of a line and its number within the die (R99, R102). -/
def l2Set (line : Nat) : Nat := line % 64
def leaderIndex (slice line : Nat) : Nat := 64 * (slice % 512) + l2Set line

/-- The policy of an insertion of class cls at a set (R102): true for B. -/
def policyB (s : State) (slice line cls : Nat) : Bool :=
  let g := leaderIndex slice line
  let j := g % 1024
  let b := g / 1024
  if j = 64 * cls + b then false
  else if j = 64 * cls + 32 + b then true
  else 512 ≤ sget 512 (dieAt s (slice / 512)).selectors cls

/-- A miss of class cls moves its selector when the set is one of its leaders (R102): a line that is not there, and no sector that a present
line lacks (log 37). -/
def moveSelector (s : State) (slice line cls : Nat) : State :=
  let d := slice / 512
  let g := leaderIndex slice line
  let v := sget 512 (dieAt s d).selectors cls
  let w := if g % 1024 = 64 * cls + g / 1024 then min 1023 (v + 1) else if g % 1024 = 64 * cls + 32 + g / 1024 then v - 1 else v
  setDie s d { dieAt s d with selectors := sput 512 (dieAt s d).selectors cls w }

/-- The victim way of a full set, and the set with re-reference values raised as the search goes (R100). -/
def findVictim : Nat → List (Option L2Line) → Nat × List (Option L2Line)
  | 0, l => (0, l)
  | fuel + 1, l =>
    match findAt (fun w => w.isNone) l 0 with
    | some (i, _) => (i, l)
    | none =>
      match findAt (fun w => match w with | some x => x.rrpv = 3 | none => false) l 0 with
      | some (i, _) => (i, l)
      | none => findVictim fuel (l.map (fun w => w.map (fun x => { x with rrpv := x.rrpv + 1 })))

def waysOf (x : Slice) (set : Nat) : List (Option L2Line) :=
  let l := sget [] x.ways set
  l ++ List.replicate (16 - l.length) none
def setWays (x : Slice) (set : Nat) (l : List (Option L2Line)) : Slice :=
  { x with ways := sput [] x.ways set (if l.all (·.isNone) then [] else l) }

def findWay (l : List (Option L2Line)) (line : Nat) : Option L2Line :=
  match l.find? (fun w => match w with | some x => x.line = line | none => false) with
  | some (some x) => some x
  | _ => none

/-- Allocate a line that a slice does not hold (R97, R100, R102). -/
def allocateL2 (s : State) (slice line cls : Nat) : State :=
  let polB := policyB s slice line cls
  let s := moveSelector s slice line cls
  let x := sliceAt s slice
  let n := sget 0 x.inserts cls + 1
  let (v, l) := findVictim 4 (waysOf x (l2Set line))
  let new_ : L2Line := { line := line, valid := 0, dirty := 0, rrpv := if polB && n % 32 ≠ 0 then 3 else 2, owed := [] }
  let x := setWays x (l2Set line) (l.set v (some new_))
  setSlice s slice { x with inserts := if polB then sput 0 x.inserts cls (n % 32) else x.inserts }

/-- Change the line record of a line that a slice holds. -/
def modL2 (s : State) (slice line : Nat) (f : L2Line → L2Line) : State :=
  let x := sliceAt s slice
  setSlice s slice (setWays x (l2Set line)
    ((waysOf x (l2Set line)).map (fun w => w.map (fun y => if y.line = line then f y else y))))

/-- The sectors of n bytes at pa within their line. -/
def sectorMask (pa n : Nat) : BitVec 8 :=
  BitVec.ofNat 8 (((2 ^ ((pa % 32 + n + 31) / 32)) - 1) <<< ((pa % 256) / 32))

/-- A miss joins a command already sent that fetches every sector it asks for (the model's choice: the spec speaks of misses within the hold
only; log 112), or the miss of its line that is still held, or is held for 24 cycles for the channel itself (R97). -/
def joinMiss (s : State) (l : List Miss) (who : Requester × BitVec 8) (line cls : Nat) (miss : BitVec 8) : List Miss :=
  let add := fun (m : Miss) => { m with sectors := m.sectors ||| miss, joined := if m.joined.contains who then m.joined else m.joined ++ [who] }
  if l.any (fun m => m.line = line && m.sent && miss &&& ~~~m.sectors = 0) then
    replaceFirst (fun m => m.line = line && m.sent && miss &&& ~~~m.sectors = 0) add l
  else if l.any (fun m => m.line = line && !m.sent) then replaceFirst (fun m => m.line = line && !m.sent) add l
  else l ++ [{ line := line, sectors := miss, cls := cls, sent := false, due := s.cycle + 24, joined := [who] }]

/-- An access whose sectors came some other way waits for no miss of the line any more (R100). -/
def leaveMisses (s : State) (slice line : Nat) (who : Requester × BitVec 8) : State :=
  let x := sliceAt s slice
  if x.misses.any (fun m => m.line = line && m.joined.contains who) then
    setSlice s slice { x with misses := x.misses.map (fun m => if m.line = line then { m with joined := m.joined.filter (· ≠ who) } else m) }
  else s

/-- An access reaches its slice: true when every sector it needs is there; otherwise its miss waits for the channel (R97). A line that is
not there is allocated. Only a hit sets the re-reference value to 0: not the access that allocated the line, nor one that comes back after
its own miss, which its agent and its sectors tell (R100). A write of whole sectors needs no sector (log 92), and behind a port that is down nothing is fetched (R388). -/
def reachL2 (s : State) (who : Requester) (slice pa n cls : Nat) (write : Bool) : Bool × State :=
  let line := pa / 256
  if cxlGone s pa then (true, s) else
  let need := if write && pa % 32 = 0 && n % 32 = 0 then (0 : BitVec 8) else sectorMask pa n
  let self := (who, sectorMask pa n)
  let made := (findWay (waysOf (sliceAt s slice) (l2Set line)) line).isNone
  let s := if made then allocateL2 s slice line cls else s
  match findWay (waysOf (sliceAt s slice) (l2Set line)) line with
  | none => (true, s)
  | some y =>
    let x := sliceAt s slice
    if need &&& ~~~y.valid = 0 then
      let missed := y.owed.contains self || x.misses.any (fun m => m.line = line && m.joined.contains self)
      (true, modL2 (leaveMisses s slice line self) slice line (fun z => { z with
        rrpv := if made || missed then z.rrpv else 0, owed := z.owed.filter (· ≠ self)
        valid := z.valid ||| (if write then sectorMask pa n else 0), dirty := z.dirty ||| (if write then sectorMask pa n else 0) }))
    else (false, setSlice s slice { x with misses := joinMiss s x.misses self line cls (need &&& ~~~y.valid) })

/-- The same for an agent that waits inside its own step: the sectors are there afterwards, and nothing of it waits at the slice (log 11).
Only an access that finds every sector sets the re-reference value to 0 (R100). -/
def touchL2 (s : State) (slice pa n cls : Nat) (write : Bool) : State :=
  if cxlGone s pa then s else
  let line := pa / 256
  let need := if write && pa % 32 = 0 && n % 32 = 0 then (0 : BitVec 8) else sectorMask pa n
  let made := (findWay (waysOf (sliceAt s slice) (l2Set line)) line).isNone
  let s := if made then allocateL2 s slice line cls else s
  modL2 s slice line (fun y => { y with
    rrpv := if made || need &&& ~~~y.valid ≠ 0 then y.rrpv else 0
    valid := y.valid ||| sectorMask pa n, dirty := y.dirty ||| (if write then sectorMask pa n else 0) })

/-- A write by such an agent: `home` is the home slice with the class (R97, R161). -/
def placeWrite (s : State) (pa home : Nat) (l : List Byte) : State :=
  performWrite (touchL2 s (home % 2048) pa l.length (home / 2048) true) pa l

/-- Slice.Op (R239): the old value and the state after. A CAS that fails writes nothing. -/
def sliceRmw (s : State) (pa w op : Nat) (val cmp : Word) : Nat × State :=
  let old := readMem s pa (w / 8)
  let v := val.toNat % 2 ^ w
  let sg := fun x : Nat => if x < 2 ^ (w - 1) then (x : Int) else (x : Int) - 2 ^ w
  let put := fun x : Nat => (old, performWrite s pa (bytesOf x (w / 8)))
  match op with
  | 0 => put ((old + v) % 2 ^ w)
  | 1 => put (if sg v < sg old then v else old)
  | 2 => put (if sg old < sg v then v else old)
  | 3 => put (old &&& v)
  | 4 => put (old ||| v)
  | 5 => put (old ^^^ v)
  | 6 => put v
  | _ => if old = cmp.toNat % 2 ^ w then put v else (old, s)

/-! ### Numbers of bits -/

/-- Sign extension of the low n bits of a number to a word. -/
def sextN (x n : Nat) : Word := if n = 0 then 0 else
  let y := x % 2 ^ n
  if y < 2 ^ (n - 1) then BitVec.ofNat 64 y else BitVec.ofInt 64 ((y : Int) - 2 ^ n)

/-- A low-n-bit number read as signed. -/
def signedN (x n : Nat) : Int := let y := x % 2 ^ n; if y < 2 ^ (n - 1) then y else (y : Int) - 2 ^ n

/-! ### Holder words (Table 06-2) -/

def holderAgent (a : Nat) : Word := BitVec.ofNat 64 (2 ^ 61 + a)
def holderHost : Word := BitVec.ofNat 64 (2 * 2 ^ 61)
def holderSlot (device k idx : Nat) : Word := BitVec.ofNat 64 (5 * 2 ^ 61 + idx * 2 ^ 27 + agentId device (k * 8))
def holderKind (w : Word) : Nat := w.toNat / 2 ^ 61
def holderVal (w : Word) : Nat := w.toNat % 2 ^ 61

/-! ### Fault codes (Table 13-1) -/

def cIllegalOpcode : Nat := 0x01
def cIllegalEncoding : Nat := 0x02
def cGroupHazard : Nat := 0x03
def cRegAllot : Nat := 0x04
def cOverlap : Nat := 0x05
def cPriv : Nat := 0x06
def cAlign : Nat := 0x07
def cXlateMiss : Nat := 0x08
def cXlatePerm : Nat := 0x09
def cTokenNone : Nat := 0x0A
def cTokenFrozen : Nat := 0x0B
def cTokenBadop : Nat := 0x0C
def cTainted : Nat := 0x0D
def cQuota : Nat := 0x0E
def cCommonsPlain : Nat := 0x0F
def cFacetRange : Nat := 0x10
def cSendOverflow : Nat := 0x11
def cWlogOverflow : Nat := 0x12
def cBudget : Nat := 0x13
def cNoRule : Nat := 0x14
def cBadRef : Nat := 0x15
def cUndeliverable : Nat := 0x16
def cStale : Nat := 0x17
def cDeadPeer : Nat := 0x18
def cQueueLost : Nat := 0x19
def cGangMismatch : Nat := 0x1A
def cGangLost : Nat := 0x1B
def cTermBudget : Nat := 0x1C
def cResidue : Nat := 0x1D
def cChecker : Nat := 0x1E
def cLockstep : Nat := 0x1F
def cGroupBusy : Nat := 0x20
def cPlacement : Nat := 0x21
def cChordTimeout : Nat := 0x22
def cPoison : Nat := 0x23
def cBadBlock : Nat := 0x24
def cTrap : Nat := 0x25
def cWatchdog : Nat := 0x26

/-- How an instruction ends when it does not complete: it waits, or it faults. -/
inductive Stop where
  | park (why : Stall) (s : State)
  | trap (f : FaultInfo) (s : State)
deriving DecidableEq

/-- The result of a part of an instruction. -/
abbrev Res (α : Type) := Except Stop α

def trapWith {α : Type} (code : Nat) (s : State) : Res α := .error (.trap { code := code } s)
def trapAt {α : Type} (code : Nat) (addr : Word) (s : State) : Res α := .error (.trap { code := code, addr := addr } s)
def parkOn {α : Type} (why : Stall) (s : State) : Res α := .error (.park why s)

/-! ### Host memory and events (R385) -/

/-- n bytes of host memory as a little-endian number, and bytes written to it. -/
def hostRead (s : State) (a : Nat) : Nat → Nat
  | 0 => 0
  | n + 1 => (sget (0 : Byte) s.host.memory a).toNat + 256 * hostRead s (a + 1) n
/-- See `hostRead`. -/
def hostWrite (s : State) (a : Nat) : List Byte → State
  | [] => s
  | b :: l => hostWrite { s with host := { s.host with memory := sput (0 : Byte) s.host.memory a b } } (a + 1) l

/-- The event queue has no room: the next index is the one that the host reads next (log 27). -/
def eventsFull (s : State) : Bool := (s.host.evtail.toNat + 1) % 256 = s.host.evhead.toNat % 256

/-- An event is written into the queue, and its vector raised: 0 for a command's completion, 1 for the others. -/
def writeEvent (s : State) (w0 w1 : Word) : State :=
  let i := s.host.evtail.toNat % 256
  let s := hostWrite s (s.host.evbase.toNat + 16 * i) (bytesOf w0.toNat 8 ++ bytesOf w1.toNat 8)
  { s with host := { s.host with
      evtail := BitVec.ofNat 32 ((i + 1) % 256), vectors := s.host.vectors ++ [if w0.toNat % 256 = 0 then 0 else 1] } }

/-- An event of another source than a command: written, or behind the backlog; types 1 and 4 stand there once (R385). -/
def hostEvent (s : State) (w0 w1 : Word) : State :=
  if s.host.backlog.isEmpty && !(eventsFull s) then writeEvent s w0 w1
  else if (w0.toNat % 256 = 1 || w0.toNat % 256 = 4) && s.host.backlog.contains (w0, w1) then s
  else { s with host := { s.host with backlog := s.host.backlog ++ [(w0, w1)] } }

/-! ### Fault records (R200, R395) -/

/-- The six payload words of a fault record (Table 13-2). -/
def recordWords (code origin reason : Nat) (cip hmode : Bool) (agent : Nat) (place addr : Word) (slot msgid : Nat) (detail xfer : Word) :
    List Word :=
  [BitVec.ofNat 64 (code * 2 ^ 56 + origin * 2 ^ 53 + reason * 2 ^ 48 + cip.toNat * 2 ^ 28 + hmode.toNat * 2 ^ 27 + agent),
    place, addr, BitVec.ofNat 64 (slot * 2 ^ 16 + msgid), detail, xfer]

/-- Count a code in a core's fault counter, saturating (R148). -/
def countFault (s : State) (k code : Nat) : State :=
  modCore s k (fun x => { x with counters := { x.counters with
    faults := sput 0 x.counters.faults code (let n := sget 0 x.counters.faults code; if n = 0xFFFFFFFF then n else n + 1) } })

/-- Put a record in a die's fault queue; when its 256 places are taken the core keeps it and the host is told (R200, R385). -/
def putRecord (s : State) (k : Nat) (ws : List Word) : State :=
  let d := dieOf (vertexOf k)
  let die := dieAt s d
  let s := { s with lastRecords := (s.lastRecords ++ [ws]).drop (s.lastRecords.length + 1 - 32) }
  if die.faultQueue.length < 256 then setDie s d { die with faultQueue := die.faultQueue ++ [ws] }
  else hostEvent (modCore s k (fun x => { x with heldRecords := x.heldRecords ++ [ws] })) 4 (BitVec.ofNat 64 d)

/-- The slot that a context's handler runs. -/
def slotOf (s : State) (c : Nat) : Option Slot :=
  match (ctxOf s c).slot with
  | none => none
  | some i => (coreAt s (coreOf c)).inbox.find? (fun x => x.index = i)

/-- A class-I or class-S record about a context, at its pc (R200). -/
def reportCtx (s : State) (c origin : Nat) (f : FaultInfo) : State :=
  let x := ctxOf s c
  let (slot, msgid) := match slotOf s c with | some q => (q.index, q.msg.msgid.toNat) | none => (0, 0)
  putRecord (countFault s (coreOf c) f.code) (coreOf c)
    (recordWords f.code origin f.reason x.cip x.hmode (agentOf s c) x.pc f.addr slot msgid f.detail (f.xfer.setWidth 64))

/-- A class-S or class-W record that names no running context (dispatch, walker, lockstep). -/
def reportFor (s : State) (k origin agent : Nat) (place : Word) (f : FaultInfo) : State :=
  putRecord (countFault s k f.code) k (recordWords f.code origin f.reason false false agent place f.addr 0 0 f.detail (f.xfer.setWidth 64))

/-! ### Tokens in the table -/

/-- The token entry whose region covers a virtual address (R106). -/
def tokenCovering (s : State) (va : Nat) : Option Token :=
  match s.tokens.find? (fun e => match e.2 with | some t => t.base ≤ va && va < t.base + 2 ^ t.lsize | none => false) with
  | some (_, some t) => some t
  | _ => none

def setToken (s : State) (t : Token) : State := { s with tokens := sput none s.tokens t.base (some t) }
def dropToken (s : State) (base : Nat) : State := { s with tokens := sput none s.tokens base none }

/-- Share count of an entry as word 3 gives it (Table 06-3). -/
def shareCount (t : Token) : Nat := if t.opened then 0xFFFF else t.records.length

/-- Drop the token-cache entries of a region in one core (R112, R159). -/
def uncache (s : State) (k base : Nat) : State :=
  modCore s k (fun x => { x with tokenCache := x.tokenCache.filter (fun e => e.base ≠ base) })

/-- Give the tokens (false) and shares (true) of some regions from one holder to another, each in one step at its own home
slice; the transfer count rises with the holder, not with a share (R110, R116). No rule gives an operation that takes a request record's slot
(R116), and none moves what is parked on a record (the model's choice, log 122). -/
def moveTokens (s : State) (old new_ : Word) : List (Nat × Bool) → State
  | [] => s
  | (b, sh) :: l =>
    let s := match sget none s.tokens b with
      | none => s
      | some t =>
        if sh then setToken s { t with records := replaceFirst (fun r => r = old) (fun _ => new_) t.records }
        else if t.holder = old then setToken s { t with holder := new_, xfer := t.xfer + 1 } else s
    moveTokens s old new_ l

/-- Everything held under a holder word: (base, share). -/
def heldBy (s : State) (h : Word) : List (Nat × Bool) :=
  s.tokens.flatMap (fun e => match e.2 with
    | none => []
    | some t => (if t.holder = h then [(t.base, false)] else []) ++ (t.records.filter (fun r => r = h)).map (fun _ => (t.base, true)))

/-! ### Inbox, heaps -/

def modSlot (s : State) (k i : Nat) (f : Slot → Slot) : State :=
  modCore s k (fun x => { x with inbox := x.inbox.map (fun q => if q.index = i then f q else q) })

/-- Take a slot out of an inbox: it can take an arrival again from the next cycle (R77, R137). -/
def freeSlot (s : State) (k i : Nat) : State :=
  modCore s k (fun x => { x with inbox := x.inbox.filter (fun q => q.index ≠ i), slotFree := sput 0 x.slotFree i (s.cycle + 1) })

/-- References (Table 02-3). -/
def refKind (r : Word) : Nat := r.toNat / 2 ^ 61
def refAddr (r : Word) : Nat := r.toNat % 2 ^ 50
def refDevice (r : Word) : Nat := (r.toNat / 2 ^ 50) % 2 ^ 11
def cellRef (device a : Nat) : Word := BitVec.ofNat 64 (2 ^ 61 + device * 2 ^ 50 + a)
def wireRef (device a : Nat) : Word := BitVec.ofNat 64 (2 * 2 ^ 61 + device * 2 ^ 50 + a)

/-- A reference whose kind is assigned and whose bits marked zero are zero (R25). -/
def refOk (r : Word) : Bool :=
  match refKind r with
  | 0 => r.toNat % 2 ^ 61 = 0
  | 1 => r.toNat % 32 = 0
  | 2 => r.toNat % 8 = 0
  | 3 => bits r.toNat 60 48 = 0
  | 4 => bits r.toNat 60 16 = 0
  | _ => false

/-- A principal: a stored cell, an inline number or an inline symbol (R26). -/
def isPrincipal (r : Word) : Bool := refKind r = 1 || refKind r = 3 || refKind r = 4

/-- The blocks that the cells of a pair hold back go back to the free pool of this device (R29, R31). -/
def releaseBlocks (s : State) (p : PairRef) : State :=
  [p.first, p.second].foldl (fun t r =>
    if refKind r = 1 && refDevice r = s.device && sget ItemState.free t.cells (refAddr r) = .heldBack then { t with cells := sput .free t.cells (refAddr r) .free } else t) s

/-! ### Routines and holds (R124, R126) -/

/-- The routine table entry j of a core (R124), and its fields (Table 07-2). -/
def routineAt (s : State) (k j : Nat) : Word × Word := sget routineReset (coreAt s k).routines j
def routineValid (w : Word × Word) : Bool := nbit w.2.toNat 63
def routineClass (w : Word × Word) : Nat := bits w.2.toNat 62 58
def routinePrio (w : Word × Word) : Nat := bits w.2.toNat 57 56
def routineHmask (w : Word × Word) : Nat := bits w.2.toNat 55 40
def routineBudget (w : Word × Word) : Nat := bits w.2.toNat 39 35
def routineAcct (w : Word × Word) : Nat := bits w.2.toNat 11 0
def routineEntry (w : Word × Word) : Nat := bits w.1.toNat 52 0

/-- The routines held now: by the hold register, or by the hmask of a routine that a context of the core runs, up to the end of its HRET
(R126, R255). -/
def holdsNow (s : State) (k : Nat) : BitVec 16 :=
  (List.range 8).foldl (fun m i => let x := ctxOf s (8 * k + i)
    if x.hmode && x.run ≠ .idle && x.run ≠ .reserved then m ||| BitVec.ofNat 16 (routineHmask (routineAt s k x.routine)) else m) (coreAt s k).hold

/-- Before the holds of a core change: what the selector of this cycle still sees (R126). -/
def keepHolds (s : State) (k : Nat) : State :=
  if (coreAt s k).heldAt = s.cycle + 1 then s
  else modCore s k (fun x => { x with heldAt := s.cycle + 1, heldWas := holdsNow s k })

/-! ### Contexts that start and end -/

/-- A core with no idle context is no longer eligible to steal: its order of victims starts again (R138). -/
def stealEnds (s : State) (k : Nat) : State :=
  if (List.range 8).any (fun i => (ctxOf s (8 * k + i)).run = .idle) then s else modCore s k (fun x => { x with victim := 0 })

/-- The registers and modes of a context that starts (R86, Table 09 rules): allotment at sr.capacity, everything else zero; its first instruction issues in the
next cycle at the earliest (R126). -/
def startCtx (s : State) (c : Nat) (f : Ctx → Ctx) : State :=
  let s := keepHolds s (coreOf c)
  let old := ctxOf s c
  stealEnds (setCtx s c (f { Ctx.reset with
    allot := (coreAt s (coreOf c)).capacity, lease := old.lease, run := .ready, groupNo := old.groupNo + 1, readyAt := s.cycle + 1, heldUntil := s.cycle + 1, fresh := true })) (coreOf c)

/-- A context becomes idle: everything but its registers, lease and allotment ends (R184, R255). -/
def idleCtx (s : State) (c : Nat) : State :=
  modCtx (keepHolds s (coreOf c)) c (fun x => { Ctx.reset with
    regs := x.regs, pc := x.pc, allot := x.allot, rmode := x.rmode, acct := x.acct, lease := x.lease, groupNo := x.groupNo + 1,
    run := if x.preemptAsked then .reserved else .idle })

/-- The tokens and shares that a handler's slot gave to its context go back to the slot, of a handler that is neither committed nor
committed-in-part (R29, R32). -/
def returnTokens (s : State) (c : Nat) : State :=
  let x := ctxOf s c
  let k := coreOf c
  if x.cip || x.committed then s
  else match x.slot with
  | some i =>
    let s := moveTokens s (holderAgent (agentOf s c)) (holderSlot s.device k i) x.slotTokens
    x.slotTokens.foldl (fun t b => uncache t k b.1) s
  | none => s

/-- What a trap, HABORT or retire of an uncommitted handler gives back: reservoir items (R304), the tokens that came with its
slot (R29), the flags of its start (R52); its send buffer and write log go (R31). -/
def rollback (s : State) (c : Nat) : State :=
  let x := ctxOf s c
  let k := coreOf c
  let s := modCore s k (fun y => { y with reservoir := y.reservoir ++ x.takenItems })
  modCtx (returnTokens s c) c (fun y => { y with
    regs := { y.regs with flags := x.startFlags }, sendBuf := [], writeLog := [], takenItems := [],
    slotTokens := if x.cip then y.slotTokens else [] })

/-- Cycles left of a context's budget, when it has one (R81). -/
def budgetLeft (s : State) (x : Ctx) : Option Nat := match x.budgetEnd with | some e => some (e - s.cycle) | none => x.budgetKept

/-- A budget that no longer counts down: it keeps what is left (R147, R255). -/
def stopBudget (s : State) (x : Ctx) : Ctx := { x with budgetEnd := none, budgetKept := budgetLeft s x }

/-- The release of a handler: its slot, if it is still mapped, and the blocks of its pair, which a commit has released before (R31, R255). -/
def releaseHandler (s : State) (c : Nat) : State :=
  let s := match (ctxOf s c).pair with | some p => if (ctxOf s c).committed then s else releaseBlocks s p | none => s
  match slotOf s c with
  | some q => freeSlot s (coreOf c) q.index
  | none => s

/-- The message of a rolled-back handler goes to the head of the inbox (R31): a core with work steals no longer (R138). -/
def messageToHead (s : State) (c : Nat) : State :=
  match slotOf s c with
  | none => s
  | some q => modCore s (coreOf c) (fun x => { x with
      victim := 0
      inbox := { q with phase := .waiting, since := s.cycle } :: x.inbox.filter (fun r => r.index ≠ q.index) })

/-- Free an accumulator segment without a write, as if by MEMIT with no destination (R207, R211); its poison mark is separate
(R327). -/
def freeSegment (s : State) (v i row : Nat) : State :=
  let g := colOf s v i
  setCol s v i { g with segs := sput Seg.reset g.segs row { Seg.reset with poison := (sget Seg.reset g.segs row).poison } }

/-! ### Page tables (R135) -/

/-- The outcome of a full walk: the leaf, or the fault. -/
inductive Walk where
  | leaf (page lsize : Nat) (pte : Word)
  | fault (code : Nat)
deriving DecidableEq, Repr

/-- log2 of the page size of a level. -/
def levelSize (l : Nat) : Nat := match l with | 0 => 39 | 1 => 30 | 2 => 21 | _ => 16

/-- What one entry of level l says (R135): the next table, a leaf, or a fault. -/
def readEntry (s : State) (l va : Nat) (e : Nat) : Except Walk Nat :=
  let ty := bits e 62 60
  let addr := bits e 43 8 * 256
  let size := levelSize l
  if !nbit e 63 then .error (.fault cXlateMiss)
  else if ty = 0 then
    if l = 3 || bits e 59 44 ≠ 0 || bits e 7 0 ≠ 0 then .error (.fault cXlatePerm) else .ok addr
  else if (ty = 3 && l = 1) || (ty = 2 && l = 2) || (ty = 1 && l = 3) then
    if nbit e 56 || bits e 7 0 ≠ 0 || bits e 49 44 ≠ 0 || addr % 2 ^ size ≠ 0 || 6 ≤ bits e 55 53 || !backed s addr then .error (.fault cXlatePerm)
    else .error (.leaf (va / 2 ^ size * 2 ^ size) size (BitVec.ofNat 64 e))
  else .error (.fault cXlatePerm)

/-- Where the entry of level l stands in a table. -/
def entryAddr (table l va : Nat) : Nat :=
  table + 8 * (match l with | 0 => bits va 52 39 | 1 => bits va 38 30 | 2 => bits va 29 21 | _ => bits va 20 16)

/-- Walk from level l down; `fuel` bounds the levels. -/
def walkFrom (s : State) (va : Nat) : Nat → Nat → Nat → Walk
  | 0, _, _ => .fault cXlatePerm
  | fuel + 1, l, table =>
    match readEntry s l va (readMem s (entryAddr table l va) 8) with
    | .ok next => walkFrom s va fuel (l + 1) next
    | .error w => w

/-- The whole walk of a virtual address below the untranslated top. -/
def walkNow (s : State) (va : Nat) : Walk := walkFrom s va 4 0 s.root

/-- Leaf fields (Table 07-11). -/
def leafRd (e : Word) : Bool := nbit e.toNat 59
def leafWr (e : Word) : Bool := nbit e.toNat 58
def leafEx (e : Word) : Bool := nbit e.toNat 57
def leafClass (e : Word) : Nat := bits e.toNat 55 53
def leafPa (page va : Nat) (e : Word) : Nat := bits e.toNat 43 8 * 256 + (va - page)
/-- The home slice of a physical address under a leaf's homing (R99). -/
def leafSlice (e : Word) (pa : Nat) : Nat := homeSlice (nbit e.toNat 52) (bits e.toNat 51 50) pa

/-- Home slice and traffic class in one number: the slice modulo 2048, the class above it. -/
def leafHome (e : Word) (pa : Nat) : Nat := leafSlice e pa + 2048 * leafClass e

/-- A translation for an agent that is not an instruction of a core: its physical address, its home with the class, and the leaf; or a
fault. -/
def translateNow (s : State) (va : Nat) (write : Bool) : Except Nat (Nat × Nat × Word) :=
  if 0x1FFFFF00000000 ≤ va then .error cXlatePerm else
  match walkNow s va with
  | .fault c => .error c
  | .leaf page _ e =>
    if (if write then leafWr e else leafRd e) then .ok (leafPa page va e, leafHome e (leafPa page va e), e) else .error cXlatePerm

/-- The physical address of a slot area (R130), when its graph has one and it is mapped. -/
def slotArea (s : State) (g : Nat) : Option Nat :=
  let b := sget 0 s.batchRegs g
  if b = 0 then none else match translateNow s b false with | .ok (pa, _, _) => some pa | .error _ => none

/-- Byte `off` of a slot area, as a physical address and a home with the class. -/
def slotPlace (s : State) (g off : Nat) : Option (Nat × Nat) :=
  let b := sget 0 s.batchRegs g
  if b = 0 then none else match translateNow s (b + off) false with | .ok (pa, home, _) => some (pa, home) | .error _ => none

/-- Fault a request at its record in one step (R207, R353): fault field, state FAULTED, and the mask bit cleared of the graph, when it
has a slot area. `recPa` is physical, `home` its home slice with the class. -/
def faultRecord (s : State) (recPa home : Nat) (graph : Option Nat) (code : Nat) : State :=
  let w0 := readMem s recPa 8
  let slot := readMem s (recPa + 0x18) 8 % 1024
  let s := placeWrite s recPa home (bytesOf (setBits (setBits w0 15 8 code) 2 0 5) 8)
  match graph.bind (fun g => slotPlace s g (0x8000 + slot / 8)) with
  | none => s
  | some (b, h) => placeWrite s b h (bytesOf (let m := (memByte s b).toNat; if nbit m (slot % 8) then m - 2 ^ (slot % 8) else m) 1)

/-! ### Graph node records (R132) -/

/-- A word of a node record (R132). -/
def nodeWord (s : State) (g : GraphRun) (i j : Nat) : Nat :=
  match translateNow s (g.records + 64 * i + 8 * j) false with
  | .ok (pa, _, _) => readMem s pa 8
  | .error _ => 0
/-- Whether a sector of a node record is poisoned (R91). -/
def nodePoisoned (s : State) (g : GraphRun) (i : Nat) : Bool :=
  match translateNow s (g.records + 64 * i) false with | .ok (pa, _, _) => anyPoison s pa 64 | .error _ => false

def nodeKind (s : State) (g : GraphRun) (i : Nat) : Nat := bits (nodeWord s g i 0) 63 60
def nodeParam (s : State) (g : GraphRun) (i : Nat) : Nat := bits (nodeWord s g i 0) 31 0
def nodePreds (s : State) (g : GraphRun) (i : Nat) : Nat := bits (nodeWord s g i 0) 59 48
/-- The batch graphs that the STEP nodes of an instance name (R192, R196). -/
def stepNumbers (s : State) (gi : Nat) : List Nat :=
  match sget none s.graphs gi with
  | none => []
  | some g => (List.range 16).filter (fun k => (List.range g.count).any (fun i => nodeKind s g i = 5 && nodeParam s g i = k))

/-! ### Taking a trap and returning from one -/

/-- Apply what SWR, I4TAB, VGROW and VSHRINK left for the next group (R48, R318, R322). -/
def applySreg (s : State) (c n : Nat) (w : Word) : State :=
  match n with
  | 4 => let m := w.setWidth 3
    if m.toNat = 0 || 6 ≤ m.toNat then s else modCtx s c (fun x => { x with rmode := m })
  | 5 => modCtx s c (fun x => { x with regs := { x.regs with flags := w.setWidth 5 } })
  | 7 => modCore s (coreOf c) (fun x => { x with i4tab0 := w })
  | 8 => modCore s (coreOf c) (fun x => { x with i4tab1 := w })
  | 0x7FF => modCore s (coreOf c) (fun x => { x with win := w &&& 0x1FFF07 })
  | _ => s

/-- The registers below a new allotment; those regained read zero (R76, R322). -/
def reallot (x : Ctx) (n : Nat) : Ctx :=
  { x with
    allot := n, regs := { x.regs with v := x.regs.v.filter (fun e => e.1 < min n x.allot) },
    latches := x.latches.map (fun l => match l with | some r => if r < min n x.allot then some r else none | none => none) }

def endGroup (s : State) (c : Nat) : State :=
  let x := ctxOf s c
  let s := x.pendingS.foldl (fun t e => applySreg t c e.1 e.2) (showFlags s c)
  modCtx s c (fun y =>
    let y := match y.newAllot with | some n => reallot y n | none => y
    { y with pendingS := [], newAllot := none, group := Group.empty, groupNo := y.groupNo + 1 })

/-- The vertex at which a message's sender is told: the host bridge, the sender's own, or the port toward its device (R13, R185). -/
def senderVertex (s : State) (v : Nat) (m : Msg) : Nat :=
  if m.fromHost then mkVertex 8 0 else if agentDevice m.sender = s.device then vertOf (agentLocal m.sender) else exitVertex s v (agentDevice m.sender)

/-- A notice about a message that was accepted at core k and is not to run: it flies back to the sender (R12, R172, R203). -/
def noticeFlight (s : State) (k code : Nat) (m : Msg) : State :=
  { s with
    nextId := s.nextId + 1
    messages := s.messages ++ [{
      id := s.nextId, home := .device, from_ := vertexOf k, phase := .notice code, msg := m, told := false, hops := 0
      due := s.cycle + latency (vertexOf k) (senderVertex s (vertexOf k) m) }] }

/-- A lease rises by one: the messages accepted for it and not dispatched leave as STALE (R172). -/
def raiseLease (s : State) (c : Nat) : State :=
  let s := modCtx s c (fun x => { x with lease := x.lease + 1 })
  let k := coreOf c
  let gone := (coreAt s k).inbox.filter (fun q => q.msg.checked && agentLocal q.msg.dest = c && (q.phase = .waiting || q.phase = .pairWaiting))
  gone.foldl (fun t q => noticeFlight (freeSlot t k q.index) k cStale q.msg) s

/-- POISON at an access to a region parked on a request's record faults that request (R207). -/
def poisonRequest (s : State) (f : FaultInfo) : State :=
  if f.code ≠ cPoison || f.addr.toNat / 2 ^ 53 ≠ s.device then s
  else match tokenCovering s (f.addr.toNat % 2 ^ 53) with
  | none => s
  | some t =>
    if holderKind t.holder ≠ 4 || bits t.holder.toNat 60 50 ≠ s.device then s
    else match translateNow s (holderVal t.holder % 2 ^ 50) false with
    | .error _ => s
    | .ok (pa, home, _) =>
      let st := bits (readMem s pa 8) 2 0
      if st = 2 || st = 3 then faultRecord s pa home (some (bits (readMem s (pa + 0x18) 8) 15 12)) f.code else s
/-- The same for an access that no instruction of this module waits for. -/
def poisonAt (s : State) (va : Nat) : State := poisonRequest s { code := cPoison, addr := BitVec.ofNat 64 (s.device * 2 ^ 53 + va) }

/-- Trap(code) at an instruction of context c (R236): the earlier instructions of the group keep their effect, the faulting one
and the later ones have none; a handler is rolled back (R31) unless it is committed-in-part (R32); the context is TRAPPED and a
fault record goes to the die. A stop that the watchdog asked for stays due (R323). The track set is emptied (R288), except where Table 18-4 keeps it. A drain handler's request is faulted, its segment freed
and its context retired (R207). -/
def takeTrap (s : State) (c : Nat) (f : FaultInfo) : State :=
  let s := endGroup s c
  let s := poisonRequest (reportCtx s c 0 f) f
  let x := ctxOf s c
  let s := if x.hmode then (let t := rollback s c; if x.cip then t else messageToHead t c) else s
  let s := modCtx s c (fun y => { y with run := .trapped, skip := f.code = cTrap && f.reason = 0, stopWhy := y.stopWhy.filter (· = true), track := if f.keepTrack then y.track else [], latches := [], tried := false, late := 0, popSince := none, remoteGot := [], walkFails := [], tokenFails := [], cooked := none })
  let s := modCtx s c (fun y => if y.hmode then stopBudget s y else y)
  match x.drain with
  | none => s
  | some (row, _) =>
    let v := vertOf c
    let i := coreNo (coreOf c)
    let seg := sget Seg.reset (colOf s v i).segs row
    let graph := ((clusterAt s v).ended.find? (fun d => d.jid = seg.jid)).bind (fun d => d.graph)
    let s := match graph.bind (fun g => slotArea s g) with
      | none => s
      | some area =>
        match translateNow s (readMem s (area + 32 * seg.batch) 8 % 2 ^ 53) false with
        | .ok (pa, home, _) =>
          let st := bits (readMem s pa 8) 2 0
          if readMem s (area + 32 * seg.batch) 8 ≠ 0 && (st = 2 || st = 3) then faultRecord s pa home graph f.code else s
        | .error _ => s
    let s := freeSegment s v i row
    idleCtx (raiseLease s c) c

/-- The gangs that have a member on a core, or a context reserved there, which has not ended (R193, R216). -/
def gangsOn (s : State) (k : Nat) : List Nat :=
  s.gangs.filterMap (fun e => match e.2 with
    | some y => if y.members.any (fun m => coreOf m.2 = k && !(y.ended.contains m.1)) then some e.1 else none
    | none => none)

/-- An instruction that issued, waited, and ends in a fault by an event counts as issued (R148). -/
def countEvent (s : State) (c : Nat) : State :=
  modCore s (coreOf c) (fun y => { y with counters := { y.counters with issued := y.counters.issued + 1 } })

/-- A gang that lost a member: the members parked at its barriers fault GANG-LOST, one with an access still to be performed when
it has been (R151), and later ones as they arrive (R201, R259). -/
def loseGang (s : State) (g : Nat) : State :=
  match sget none s.gangs g with
  | none => s
  | some y =>
    let s := { s with gangs := sput none s.gangs g (some { y with lost := true }) }
    y.members.foldl (fun t m =>
      let v := vertOf m.2
      let parked := (ctxOf t m.2).run = .stalled .gbar || ((ctxOf t m.2).run = .stalled .mgang && (clusterAt t v).arrivals.any (fun e => e.1 = m.2))
      let late := t.flights.any (fun f => f.ctx = m.2 && (!f.posted || !f.done))
      let t := if (ctxOf t m.2).gang = some g then
          modCluster t v (fun x => { x with arrivals := x.arrivals.filter (fun e => e.1 ≠ m.2), wired := x.wired.filter (fun e => e.1 ≠ m.2) }) else t
      if parked && late && (ctxOf t m.2).gang = some g then modCtx t m.2 (fun x => { x with run := .ready, barrierArrived := false })
      else if parked && (ctxOf t m.2).gang = some g then
        modCtx (takeTrap (countEvent t m.2) m.2 { code := cGangLost }) m.2 (fun x => { x with barrierArrived := false })
      else t) s

/-- Resume a trapped context that runs no handler: it issues again at its pc, after a TRAP at the next one (R201, R319), once what it issued
before has returned (R164). -/
def resumeTrap (s : State) (c : Nat) : State :=
  modCtx s c (fun x => { x with run := if s.flights.any (fun f => f.ctx = c && !f.posted) then .groupEnd else .ready, skip := false, pc := if x.skip then x.pc + 8 else x.pc })

/-- Release a trapped handler: the context is idle, its message at the inbox head waits to be dispatched again (R201). -/
def releaseTrap (s : State) (c : Nat) : State := idleCtx s c

end Sys2Proof.Machine
end

