-- ==== Sys2Proof/Machine/Issue.lean ====
section
/-! DEFINITION. The checks at issue in the order of R233, the switch-group record (R71, R224, R396), operand latches (R75)
and the end of an instruction. -/

namespace Sys2Proof.Machine

/-- What an instruction reads and writes for the group rules: g, v and p registers, s-registers (R71, R396). -/
structure Uses where
  rg : List Nat := []
  wg : List Nat := []
  rv : List Nat := []
  wv : List Nat := []
  rp : List Nat := []
  wp : List Nat := []
  rs : List Nat := []
  ws : List Nat := []

/-- The mark under which a floating-point instruction enters sr.flags as written: two of them do not clash, an SRD or SWR of
sr.flags after one does (R52; log 19). -/
def fpMark : Nat := 0x1005

/-- v registers among vector fields; q ports are no registers (R70). -/
def vRegs (l : List (BitVec 6)) : List Nat := (l.map (·.toNat)).filter (· < 48)
def gRegs (l : List (BitVec 6)) : List Nat := l.map (·.toNat)
/-- Consecutive registers. -/
def regSpan (r n : Nat) : List Nat := (List.range n).map (r + ·)

def usesA3 (o : OpA) : Uses := { rg := if 8 ≤ o.md.toNat % 16 then gRegs [o.a] else gRegs [o.a, o.b], wg := gRegs [o.d] }
def usesV (o : OpV) (n : Nat) : Uses := { rv := vRegs ([o.a, o.b, o.c].take n), rp := [o.pred.toNat], wv := vRegs [o.d] }
def usesM (o : OpM) (d : List Nat) : Uses := { rg := gRegs [o.a, o.b], wg := d }

/-- Registers read and written, instruction by instruction. -/
def usesOf : Instr → Uses
  | .add o | .sub o | .mul o | .mulh o | .div o | .rem o | .and o | .or o | .xor o | .andn o | .shl o | .shr o | .sar o | .rot o | .min o | .max o => usesA3 o
  | .sel o => { rg := gRegs [o.a, o.b, o.c], wg := gRegs [o.d] }
  | .cmp o | .lea o => { rg := gRegs [o.a, o.b], wg := gRegs [o.d] }
  | .clz o | .ctz o | .popc o | .sext o | .bfx o | .jr o => { rg := gRegs [o.a], wg := gRegs [o.d] }
  | .bfi o => { rg := gRegs [o.a, o.d], wg := gRegs [o.d] }
  | .ret o => { rg := gRegs [o.a] }
  | .addi o | .movhi o => { rg := gRegs [o.a], wg := gRegs [o.d] }
  | .movi o => { wg := gRegs [o.d] }
  | .br o | .fork o => { rg := gRegs [o.a, o.b] }
  | .brz o => { rg := gRegs [o.a] }
  | .call o => { wg := gRegs [o.cl] }
  | .loop o => { rg := gRegs [o.a], wg := gRegs [o.a] }
  | .tklend o | .tkshare o | .tkpark o => { rg := gRegs [o.a, o.b] }
  | .tkret o | .tkdrop o | .tkclean o => { rg := gRegs [o.a] }
  | .tksplit o | .tkjoin o | .tkclaim o => { rg := gRegs [o.a], wg := gRegs [o.d] }
  | .tkcarve o => { wg := gRegs [o.d] }
  | .tkstat o => { rg := gRegs [o.a], wg := regSpan o.d.toNat 4 }
  | .ld o | .ldP o | .ldt o => usesM o (gRegs [o.d])
  | .st o => { rg := gRegs [o.a, o.b, o.d] }
  | .pref o => usesM o []
  | .flush o | .acq o => { rg := gRegs [o.a] }
  | .ldv o => { rg := gRegs [o.a, o.b], wv := vRegs [o.d] }
  | .stv o => { rg := gRegs [o.a, o.b], rv := vRegs [o.d] }
  | .lds o => { rg := gRegs [o.a, o.b], wv := vRegs [o.d] }
  | .sts o | .stsA o => if o.width = 5 then { rg := gRegs [o.a, o.b], rv := vRegs [o.d] } else { rg := gRegs [o.a, o.b, o.d] }
  | .slop o => { rg := if o.kind = 7 then gRegs [o.a, o.b, o.d] else gRegs [o.a, o.b], wg := gRegs [o.d] }
  | .cmls o => { rg := regSpan o.a.toNat (2 * (o.kind.toNat + 1)), wg := gRegs [o.d] }
  | .agg o => { rg := gRegs [o.a, o.b] }
  | .vadd o | .vsub o | .vmul o | .vmin o | .vmax o | .vsel o | .vperm o | .vand o | .vor o | .vxor o => usesV o 2
  | .vfma o | .vdot o => usesV o 3
  | .vabs o | .vneg o | .vcvt o | .vred o | .vrcp o | .vrsq o | .vexp2 o | .vlog2 o => usesV o 1
  | .vshl o | .vshr o => usesV o (if 2048 ≤ o.limm.toNat then 1 else 2)
  | .vcmp o => { rv := vRegs [o.a, o.b], rp := [o.pred.toNat], wp := [o.d.toNat] }
  | .vbcast o => if 2048 ≤ o.limm.toNat then { rg := gRegs [o.a], rp := [o.pred.toNat], wv := vRegs [o.d] } else usesV o 1
  | .vmov o => if 2048 ≤ o.limm.toNat then { rv := vRegs [o.a], wg := gRegs [o.d] } else usesV o 1
  | .viota o => usesV o 0
  | .pand o | .por o => { rp := [o.a.toNat, o.b.toNat], wp := [o.d.toNat] }
  | .pnot o => { rp := [o.a.toNat], wp := [o.d.toNat] }
  | .pmov o =>
    if o.limm = 0 then { rp := [o.a.toNat], wp := [o.d.toNat] } else if o.limm = 1 then { rg := gRegs [o.a], wp := [o.d.toNat] }
    else { rp := [o.a.toNat], wg := gRegs [o.d] }
  | .hold o | .release o => { rg := gRegs [o.a], wg := gRegs [o.d] }
  | .cnew o => { rg := gRegs [o.a, o.b, o.c], wg := gRegs [o.d] }
  | .cset o | .link o => { rg := gRegs [o.a, o.b] }
  | .wnew o | .cgrab o => { wg := gRegs [o.d] }
  | .cxld o => { rg := gRegs [o.a], wg := gRegs [o.d] }
  | .send o => { rg := if o.b = 0 then gRegs [o.a] else o.a.toNat :: regSpan o.b.toNat 6, wg := gRegs [o.d] }
  | .mrel _ => { ws := regSpan 0x40 8 }
  | .chopen o | .nput o => { rg := gRegs [o.a] }
  | .chput o => { rv := vRegs [o.a] }
  | .chget o => { wv := vRegs [o.d], wg := gRegs [o.c] }
  | .mstat o => { wg := gRegs [o.d] }
  | .mgang o => { rg := gRegs [o.a, o.b, o.c], wg := gRegs [o.d] }
  | .mwait o | .mdrain o | .jpoll o | .jwait o | .waitb o => { rg := gRegs [o.a], wg := gRegs [o.d] }
  | .memit o => { rg := gRegs [o.a, o.c], rv := vRegs [o.b] }
  | .ald o | .ast o | .mzero o => { rg := gRegs [o.c] }
  | .mterm o => { wg := gRegs [o.d] }
  | .job o => { rg := gRegs [o.a, o.b, o.c], wg := gRegs [o.d] }
  | .jnext o => { wg := regSpan o.d.toNat 5 }
  | .jdone o | .boqp o | .qpush o | .gdrain o | .gclose o | .grsig o => { rg := gRegs [o.a] }
  | .tload o | .bulk o | .gather o | .scatter o => { rg := gRegs [o.a, o.b, o.c] }
  | .rgather o => { rg := gRegs [o.a, o.b, o.c, o.d] }
  | .bari o | .gopen o | .gred o => { rg := gRegs [o.a, o.b] }
  | .gsend o => { rg := o.a.toNat :: regSpan o.b.toNat 6 }
  | .rqnote o | .rqflt o => { rg := gRegs [o.a, o.b, o.c], wg := gRegs [o.d] }
  | .rqslot o => { rg := gRegs [o.a, o.b], wg := regSpan o.d.toNat 4 }
  | .grlaunch o => { rg := gRegs [o.a, o.b], wg := gRegs [o.d] }
  | .srd o => { wg := gRegs [o.d], rs := [o.sreg.toNat] }
  | .swr o => { rg := gRegs [o.a], ws := [o.sreg.toNat] }
  | .ctxsave o => { rg := gRegs [o.a, o.d] }
  | .ctxrest o => { rg := o.a.toNat :: regSpan o.d.toNat 2 }
  | .vgrow _ | .vshrink _ => { ws := [2] }
  | .wdog o => { rg := gRegs [o.a] }
  | .i4tab o => { rg := gRegs [o.a], ws := [7, 8] }
  | _ => {}

/-- The effective address of a format-M operand (R227). -/
def effAddr (s : State) (c : Nat) (o : OpM) : Word :=
  rg s c o.a.toNat + (rg s c o.b.toNat <<< o.scale.toNat) + o.offset.signExtend 64
/-- An address without an index: g[a] + sext(offset) (R293). -/
def baseAddr (s : State) (c : Nat) (o : OpM) : Word := rg s c o.a.toNat + o.offset.signExtend 64

/-- The lane addresses of LDS, b being the stride (R285). -/
def laneAddrs (s : State) (c : Nat) (o : OpM) : List Word :=
  let step := rg s c o.b.toNat <<< o.scale.toNat
  (List.range (64 / 2 ^ o.width.toNat)).map (fun i => baseAddr s c o + BitVec.ofNat 64 i * step)

/-- The facet that an address of this module names on an execute core (Table 05-1). -/
def facetOf (s : State) (ea : Word) : Option Nat :=
  let va := ea.toNat % 2 ^ 53
  if ea.toNat / 2 ^ 53 = s.device && 0x1FFFFF00000000 ≤ va && va < 0x1FFFFF01000000 then some ((va - 0x1FFFFF00000000) / 0x200000) else none

/-- A floating-point instruction (R396). -/
def isFp (s : State) (c : Nat) : Instr → Bool
  | .vadd o | .vsub o | .vmul o | .vfma o | .vmin o | .vmax o | .vabs o | .vneg o | .vdot o | .vcmp o | .vred o | .vrcp o | .vrsq o | .vexp2 o | .vlog2 o =>
    isFloatFmt o.fmt.toNat
  | .vcvt o => isFloating o.fmt.toNat || isFloating (o.limm.toNat % 16)
  | .memit o => o.imm = 10 || o.imm = 11 || o.imm = 12
  | .st o | .stv o => isExecute (coreOf c) && (match facetOf s (effAddr s c o) with | some f => f ≠ 0 && f ≠ 3 | none => false)
  | .mwait _ => true
  | _ => false

/-- An address in facet 3 or 4, through which a load decodes I4. -/
def isI4Addr (s : State) (ea : Word) : Bool := match facetOf s ea with | some f => f = 3 || f = 4 | none => false

/-- An instruction that decodes I4 through the table (R48, R396): an LDS when one of its lanes does. -/
def decodesI4 (s : State) (c : Nat) : Instr → Bool
  | .ld o | .ldv o | .ldP o => isExecute (coreOf c) && isI4Addr s (effAddr s c o)
  | .lds o => isExecute (coreOf c) && (laneAddrs s c o).any (isI4Addr s)
  | .vcvt o => o.limm.toNat % 16 = 8
  | .mstat o => o.imm.toNat % 16 = 8
  | .mgang o => bits (rg s c o.a.toNat).toNat 51 48 = 8
  | _ => false

/-- The uses with the s-register readings and writings of R396. -/
def usesIn (s : State) (c : Nat) (i : Instr) : Uses :=
  let u := usesOf i
  let u := if isFp s c i then { u with rs := 4 :: 5 :: u.rs, ws := fpMark :: u.ws } else u
  if decodesI4 s c i then { u with rs := 7 :: 8 :: u.rs } else u

/-- Cores column of Table 15-3: instructions of execute cores only, execute and access, access only. -/
def unitOk (k : Nat) : Instr → Bool
  | .gbar _ | .ldv _ | .stv _ | .lds _ | .vadd _ | .vsub _ | .vmul _ | .vfma _ | .vmin _ | .vmax _ | .vabs _ | .vneg _ | .vdot _ | .vcmp _ | .vsel _
  | .vcvt _ | .vred _ | .vperm _ | .vbcast _ | .vmov _ | .viota _ | .vand _ | .vor _ | .vxor _ | .vshl _ | .vshr _ | .vrcp _ | .vrsq _ | .vexp2 _ | .vlog2 _
  | .pand _ | .por _ | .pnot _ | .pmov _ | .chopen _ | .chput _ | .chget _ | .chclose _ | .nput _ | .mstat _ | .mgang _ | .mwait _ | .mdrain _ | .memit _
  | .ald _ | .ast _ | .mzero _ | .mterm _ | .waitb _ | .vgrow _ | .vshrink _ => isExecute k
  | .job _ | .jpoll _ | .jwait _ | .boqp _ | .broq _ | .bari _ | .i4tab _ => isExecute k || isAccess k
  | .jnext _ | .jdone _ | .tload _ | .bulk _ | .gather _ | .scatter _ | .rgather _ | .qpush _ => isAccess k
  | _ => true

/-- P-only instructions (Table 15-3). -/
def isPOnly : Instr → Bool
  | .tkclaim _ | .tkclean _ | .ctxsave _ | .ctxrest _ => true
  | _ => false

/-- An instruction that the mode of its context makes illegal (R256, R315, R323, R357). -/
def modeIllegal (hmode : Bool) : Instr → Bool
  | .habort _ => !hmode
  | .chopen _ | .chput _ | .chget _ | .chclose _ | .wdog _ | .mstat _ | .mwait _ | .mdrain _ | .ald _ | .ast _ | .mzero _ | .jwait _ | .jnext _ | .jdone _
  | .tload _ | .bulk _ | .gather _ | .scatter _ | .rgather _ | .qpush _ | .bari _ | .waitb _ | .gdrain _ => hmode
  | _ => false

/-- s-register numbers below the window that Table 04-6 assigns and does not mark absent on a core's kind. -/
def sregOn (k n : Nat) : Bool :=
  if n = 0 || (3 ≤ n && n ≤ 5) || n = 9 || n = 10 || n = 0x18 || n = 0x19 || (0x40 ≤ n && n ≤ 0x47) then true
  else if n = 1 || n = 2 || (0xB ≤ n && n ≤ 0x17) then isExecute k
  else if n = 6 then !(14 ≤ coreNo k)
  else if n = 7 || n = 8 then isExecute k || isAccess k
  else n = 0x7FF && 14 ≤ coreNo k

/-- The context that sr.win names (Table 04-8). -/
def winTarget (w : Word) : Nat :=
  let n := w.toNat
  (bits n 20 16) * 2048 + (bits n 15 12) * 128 + (bits n 11 8) * 8 + bits n 2 0

/-- A window access that R85 refuses. -/
def windowBad (s : State) (c n : Nat) : Bool :=
  let t := winTarget (coreAt s (coreOf c)).win
  !(coreExists (coreOf t)) || !(sregOn (coreOf t) n)

/-- The s-register number of an SRD or SWR is accepted (R233 step 2, R81, R85). -/
def sregOk (s : State) (c n : Nat) : Bool :=
  if 0x800 ≤ n then !(isApex (coreOf c)) || !(windowBad s c (n - 0x800)) else sregOn (coreOf c) n

/-- A target descriptor of TLOAD and RGATHER for n bytes (Table 20-6). -/
def descriptorOk (w : Word) (n : Nat) : Bool :=
  let x := w.toNat
  bits x 62 22 = 0 &&
    (if nbit x 63 then bits x 21 16 = 0 && bits x 15 0 % 32 = 0 && bits x 15 0 + n ≤ 65536
     else bits x 15 11 = 0 && bits x 7 3 = 0 && bits x 21 16 * 32 + n ≤ 2048)

/-- Values in registers that an instruction does not accept, which fault ILLEGAL-ENCODING (Tables 19-7 and 20-8). -/
def operandBad (s : State) (c : Nat) : Instr → Bool
  | .srd o => !(sregOk s c o.sreg.toNat)
  | .swr o => !(sregOk s c o.sreg.toNat)
  | .boqp o => isExecute (coreOf c) && o.imm ≠ 0
  | .broq o => isExecute (coreOf c) && o.c ≠ 0
  | .jnext _ => (ctxOf s c).job.isSome
  | .jdone o => (ctxOf s c).job ≠ some ((rg s c o.a.toNat).setWidth 16) || 2 ^ 16 ≤ (rg s c o.a.toNat).toNat
  | .memit o =>
    let x := ctxOf s c
    let row := (rg s c o.c.toNat).toNat
    let seg := sget Seg.reset (colOf s (vertOf c) (coreNo (coreOf c))).segs row
    512 ≤ row || !(seg.state = .draining || (seg.state = .kept && seg.since ≤ s.cycle)) || (match x.drain with | some (r, _) => r ≠ row | none => false) ||
      x.sendBuf.any (fun e => match e with | .memit r _ _ _ => r = row | _ => false)
  | .ald o => 512 < (rg s c o.c.toNat).toNat + (o.imm.toNat % 32 + 1)
  | .ast o => 512 < (rg s c o.c.toNat).toNat + (o.imm.toNat % 32 + 1)
  | .mzero o => 512 < (rg s c o.c.toNat).toNat + (o.imm.toNat + 1)
  | .tload o => !(descriptorOk (rg s c o.b.toNat) (o.imm.toNat * 32 + 32))
  | .rgather o => !(descriptorOk (rg s c o.a.toNat) ((o.imm.toNat / 1024 + 1) * ((o.imm.toNat % 1024) * 32 + 32)))
  | .rqslot o => 16 ≤ (rg s c o.a.toNat).toNat || 1024 ≤ (rg s c o.b.toNat).toNat
  | .rqflt o => (rg s c o.b.toNat).toNat % 256 = 0
  | .gopen o => 256 ≤ (rg s c o.a.toNat).toNat
  | .gsend o => 256 ≤ (rg s c o.a.toNat).toNat
  | .gred o => 256 ≤ (rg s c o.a.toNat).toNat
  | .gdrain o => 256 ≤ (rg s c o.a.toNat).toNat
  | .gclose o => 256 ≤ (rg s c o.a.toNat).toNat
  | .grsig o => 2 ^ 18 ≤ (rg s c o.a.toNat).toNat
  | _ => false

/-- The privilege of an instruction on its core and in its context (R233 step 3, R38, R315, R350). -/
def privBad (s : State) (c : Nat) (i : Instr) : Bool :=
  (isPOnly i && !(isApex (coreOf c))) ||
  match i with
  | .srd o => 0x800 ≤ o.sreg.toNat && !(isApex (coreOf c))
  | .swr o => 0x800 ≤ o.sreg.toNat && !(isApex (coreOf c))
  | .gbar _ | .mgang _ => (ctxOf s c).gang.isNone
  | .chput _ | .chclose _ => (match (coreAt s (coreOf c)).chord with | some h => h.holder ≠ c || h.closing | none => true)
  | .gred o => let e := groupOf s (rg s c o.a.toNat).toNat
    e.state = 1 && e.kind = 0 && !(e.members.contains (agentOf s c))
  | _ => false

/-- A vector register at or above the allotment (R233 step 4), those left to step 6 apart; VGROW above the capacity (R322). -/
def allotBad (s : State) (c : Nat) (i : Instr) : Bool :=
  let x := ctxOf s c
  let u := usesOf i
  (u.rv ++ u.wv).any (fun r => x.allot ≤ r && (match x.group.lowAllot with | some n => r < n | none => true)) ||
  (match i with | .vgrow o => (coreAt s (coreOf c)).capacity < o.imm.toNat | _ => false)

/-- Partial overlap of register groups (R233 step 5). -/
def overlapBad : Instr → Bool
  | .cmls o => o.d ≠ 0 && (regSpan o.a.toNat (2 * (o.kind.toNat + 1))).contains o.d.toNat
  | .tkstat o => (regSpan o.d.toNat 4).contains o.a.toNat
  | .send o => o.b ≠ 0 && (regSpan o.b.toNat 6).contains o.d.toNat
  | .ctxrest o => (regSpan o.d.toNat 2).contains o.a.toNat
  | .rqslot o => (regSpan o.d.toNat 4).contains o.a.toNat || (regSpan o.d.toNat 4).contains o.b.toNat
  | _ => false

def meets (l m : List Nat) : Bool := l.any (fun x => m.contains x)

/-- A hazard within the switch group, or a 33rd instruction (R233 step 6, R71, R224, R322, R396). -/
def hazardBad (s : State) (c : Nat) (i : Instr) : Bool :=
  let x := ctxOf s c
  let q := x.group
  let u := usesIn s c i
  32 ≤ q.len || meets (u.rg ++ u.wg) q.g || meets (u.rv ++ u.wv) q.v || meets (u.rp ++ u.wp) q.p || meets (u.rs ++ u.ws.filter (· ≠ fpMark)) q.s ||
    (meets (u.rs.filter (· ≠ 4) ++ u.ws) [5] && q.s.contains fpMark && !(isFp s c i)) ||
    (match q.lowAllot with | some n => (u.rv ++ u.wv).any (n ≤ ·) | none => false)

def isHret : Instr → Bool | .hret _ => true | _ => false

/-- The budget would go below zero at this issue (R81, R147; log 20). -/
def budgetBad (s : State) (c : Nat) (i : Instr) : Bool :=
  let x := ctxOf s c
  x.hmode && (match x.budgetEnd with | some e => if isHret i then e < s.cycle else e ≤ s.cycle | none => false)

/-- The fate of a word that is no instruction: the first row of Table 15-4 that it meets; a word of NOP's opcode is always one of NOP
(R231, R232; log 7). -/
def patternFault (i : Instr) (s : State) : Option FaultInfo :=
  match i with
  | .illegalPattern w =>
    match nameOf w with
    | none => some { code := if w.toNat / 2 ^ 56 % 128 = 0x2F then cIllegalEncoding else cIllegalOpcode }
    | some (_, j) =>
      if isPOnly j && !(isApex (coreOf s.cur)) then some { code := cPriv }
      else if !(unitOk (coreOf s.cur) j) || modeIllegal (ctxOf s s.cur).hmode j then some { code := cIllegalOpcode } else some { code := cIllegalEncoding }
  | _ => none

/-- The first check at issue that fails (R233), then BUDGET (R199). -/
def issueFault (i : Instr) (s : State) : Option FaultInfo :=
  let c := s.cur
  if (patternFault i s).isSome then patternFault i s
  else if !(unitOk (coreOf c) i) || modeIllegal (ctxOf s c).hmode i then some { code := cIllegalOpcode }
  else if !(accepts i) || operandBad s c i then some { code := cIllegalEncoding }
  else if privBad s c i then some { code := cPriv }
  else if allotBad s c i then some { code := cRegAllot }
  else if overlapBad i then some { code := cOverlap }
  else if hazardBad s c i then some { code := cGroupHazard }
  else if budgetBad s c i then some { code := cBudget }
  else none

/-- Whether an instruction ends its switch group (R224). -/
def endsGroup : Instr → Bool
  | .br _ | .brz _ | .jmp _ | .call _ | .ret _ | .jr _ | .loop _ | .hret _ | .habort _ | .yield _ | .gyield _ | .trap _ | .acq _ => true
  | .add o | .sub o | .mul o | .mulh o | .div o | .rem o | .and o | .or o | .xor o | .andn o | .shl o | .shr o | .sar o | .rot o | .min o | .max o | .sel o
  | .cmp o | .clz o | .ctz o | .popc o | .sext o | .bfx o | .bfi o | .lea o | .tklend o | .tkret o | .tksplit o | .tkjoin o | .tkshare o | .tkdrop o
  | .tkpark o | .tkcarve o | .tkstat o | .tkclaim o | .tkclean o => o.s = 1
  | .addi o | .movi o | .movhi o => o.s = 1
  | .fork o => o.s = 1
  | .ld o | .st o | .ldP o | .ldt o | .pref o | .flush o | .ldv o | .stv o | .lds o | .sts o | .stsA o | .slop o | .cmls o | .agg o => o.s = 1
  | .vadd o | .vsub o | .vmul o | .vfma o | .vmin o | .vmax o | .vabs o | .vneg o | .vdot o | .vcmp o | .vsel o | .vcvt o | .vred o | .vperm o | .vbcast o
  | .vmov o | .viota o | .vand o | .vor o | .vxor o | .vshl o | .vshr o | .vrcp o | .vrsq o | .vexp2 o | .vlog2 o | .pand o | .por o | .pnot o | .pmov o => o.s = 1
  | .hold o | .release o | .gbar o | .nop o | .fence o | .cnew o | .cset o | .wnew o | .link o | .cxld o | .cgrab o | .send o | .mrel o | .chopen o | .chput o
  | .chget o | .chclose o | .nput o | .mstat o | .mgang o | .mwait o | .mdrain o | .memit o | .ald o | .ast o | .mzero o | .mterm o | .job o | .jpoll o
  | .jwait o | .jnext o | .jdone o | .tload o | .bulk o | .gather o | .scatter o | .rgather o | .qpush o | .boqp o | .broq o | .bari o | .waitb o | .gopen o
  | .gsend o | .gred o | .gdrain o | .gclose o | .rqnote o | .rqflt o | .rqslot o | .grlaunch o | .grsig o => o.s = 1
  | .srd o | .swr o | .wdog o | .ctxsave o | .ctxrest o | .vgrow o | .vshrink o | .i4tab o => o.s = 1
  | _ => false

/-- Result times that do not depend on where an access goes (Tables 16-2, 16-3, 17-1, R253, R257); an instruction without a result
returns in the cycle after its issue, and its context is ready in the one after that (R188, R234). Accesses have their own. -/
def resultTime : Instr → Nat
  | .hret _ => 1
  | .mul _ => 4
  | .mulh _ => 5
  | .div o | .rem o => if o.md.toNat % 2 = 1 then 18 else 34
  | .vadd o | .vsub o => if isFloatFmt o.fmt.toNat then 4 else 3
  | .vmul _ | .vcvt _ => 4
  | .vfma _ => 5
  | .vmin _ | .vmax _ | .vcmp _ | .vperm _ => 3
  | .vdot _ => 6
  | .vred o => if laneCount o.fmt.toNat = 16 then 12 else 14
  | .vrcp _ | .vrsq _ => 12
  | .vexp2 _ | .vlog2 _ => 14
  | .ld _ | .ldv _ | .lds _ | .ldP _ => 3
  | .mstat o => if o.imm.toNat % 16 = 11 || o.imm.toNat % 16 = 12 then 32 else 16
  | .ald o | .ast o => o.imm.toNat % 32 + 1 + 4
  | .mzero o => o.imm.toNat + 1 + 4
  | .job _ | .jpoll _ | .jnext _ | .jwait _ => 4
  | .acq o => 2 + ceilDiv ((o.offset.toNat + 1) * 32) 4096
  | .st _ | .stv _ | .sts _ | .stsA _ | .agg _ | .pref _ | .swr _ | .trap _ | .wdog _ | .cset _ | .link _ | .mrel _ | .nput _ | .fork _ | .nop _ | .fence _ | .jdone _ | .tload _ | .bulk _
  | .gather _ | .scatter _ | .rgather _ | .qpush _ | .boqp _ | .gsend _ | .gred _ | .gclose _ | .grsig _ | .memit _ => 2
  | _ => 2

/-- Format-V fields of an instruction that uses the operand latches. -/
def vectorOf : Instr → Option (OpV × Nat)
  | .vadd o | .vsub o | .vmul o | .vmin o | .vmax o | .vsel o | .vperm o | .vand o | .vor o | .vxor o | .vcmp o => some (o, 2)
  | .vfma o | .vdot o => some (o, 3)
  | .vabs o | .vneg o | .vcvt o | .vred o | .vrcp o | .vrsq o | .vexp2 o | .vlog2 o => some (o, 1)
  | .vshl o | .vshr o => some (o, if 2048 ≤ o.limm.toNat then 1 else 2)
  | .vbcast o => some (o, if 2048 ≤ o.limm.toNat then 0 else 1)
  | .vmov o => some (o, 1)
  | .viota o => some (o, 0)
  | _ => none

/-- The v registers of the source slots A, B, C. -/
def slotRegs (o : OpV) (n : Nat) : List (Option Nat) :=
  ([o.a, o.b, o.c].zip [0, 1, 2]).map (fun (r, i) => if i < n && r.toNat < 48 then some r.toNat else none)

/-- Extra issue cycles of the bank reads of R74: the slots not held, k at a time in one bank, cost k − 1. -/
def bankExtra (x : Ctx) (o : OpV) (n : Nat) : Nat :=
  let old := x.latches ++ List.replicate (3 - x.latches.length) none
  let read := ((slotRegs o n).zip old).filterMap (fun (r, h) => if r.isSome && r = h then none else r)
  (List.range 6).foldl (fun a b => a + ((read.filter (fun r => r % 6 = b)).length - 1)) 0

/-- The latches after a vector instruction (R75). -/
def newLatches (o : OpV) (n : Nat) : List (Option Nat) :=
  ((slotRegs o n).zip [holdA o, holdB o, holdC o]).map (fun (r, h) => if h = 1 then r else none)

/-- A context stops at a switch-group end, for CTXSAVE (R320) or because its watchdog ran out (R323). -/
def stopCtx (s : State) (c : Nat) (dog : Bool) : State :=
  let s := modCtx s c (fun y => { y with run := .stopped, stopWhy := none, popSince := none })
  if dog then reportCtx s c 5 { code := cWatchdog } else s

/-- I4 tables whose second read has returned take effect (R280). -/
def settleTables (s : State) (k : Nat) : State :=
  match (coreAt s k).i4next.filter (fun e => e.1 ≤ s.cycle) with
  | [] => s
  | l => modCore s k (fun y =>
      l.foldl (fun z e => { z with i4tab0 := e.2.1, i4tab1 := e.2.2 }) { y with i4next := y.i4next.filter (fun e => s.cycle < e.1) })

/-- Extra issue cycles of an instruction: its register banks (R74). -/
def extraCycles (i : Instr) (x : Ctx) : Nat := match vectorOf i with | some (o, n) => bankExtra x o n | none => 0

/-- The last cycle that an instruction occupies the issue slot (R374), a retry of the checker apart, which `Ctx.late` counts (R209). -/
def lastIssue (i : Instr) (s : State) : Nat := s.cycle + extraCycles i (ctxOf s s.cur)

/-- The first cycle from `due` on in which nothing is written to a bank yet; `fuel` bounds the search. -/
def freeWrite (l : List PortUse) (bank : Nat) : Nat → Nat → Nat
  | 0, due => due
  | fuel + 1, due => if l.any (fun e => e.bank = bank && e.cycle = due) then freeWrite l bank fuel (due + 1) else due

/-- The cycle in which a result for v[r] that is due at `due` is written: behind those of instructions of the core that issued before and
are due at the write port of its bank (R74, R375). -/
def writeDue (s : State) (k r due : Nat) : Nat :=
  let l := (coreAt s k).bankWrites
  freeWrite l (r % 6) l.length due

/-- The write port of the bank of v[r] is taken in a cycle, for context c. -/
def takePort (s : State) (c r due : Nat) : State :=
  modCore s (coreOf c) (fun y => { y with
    bankWrites := { bank := r % 6, cycle := due, order := s.nextId, ctx := c } :: y.bankWrites.filter (fun e => s.cycle ≤ e.cycle) })

/-- A result for v[r] that is due at `due`, a TLB's or the checker's delay apart: its context is not ready before it is written. -/
def resultAt (s : State) (c r due : Nat) : State :=
  let d := writeDue s (coreOf c) r (due + (ctxOf s c).late)
  modCtx (takePort s c r d) c (fun x => { x with readyAt := max x.readyAt d })

/-- The result of access `id` of context c for v[r] is written at `due`: behind those of instructions that issued before it, while one that
issued after it and is due in that cycle is written later (R74, R375). -/
def lateResult (s : State) (c id r due : Nat) : State :=
  let k := coreOf c
  let first := (coreAt s k).bankWrites.filter (fun e => e.order ≤ id)
  let d := freeWrite first (r % 6) first.length (max s.cycle due)
  let moved := (coreAt s k).bankWrites.filter (fun e => id < e.order && e.bank = r % 6 && e.cycle = d)
  let s := modCore s k (fun y => { y with bankWrites := y.bankWrites.filter (fun e => !(moved.contains e)) })
  let s := modCtx (takePort s c r d) c (fun x => { x with readyAt := max x.readyAt d })
  moved.foldl (fun t e =>
    let n := writeDue t k e.bank (d + 1)
    modCtx (modCore t k (fun y => { y with bankWrites := { e with cycle := n } :: y.bankWrites })) e.ctx (fun x => { x with readyAt := max x.readyAt n })) s

/-- The v register that an instruction writes at its result time: a load writes its own when its access returns. -/
def vectorDest : Instr → Option Nat
  | .ldv _ | .lds _ => none
  | i => (usesOf i).wv.head?

/-- The cycle in which the result of an instruction is written (R74, R188, R234, R374). -/
def resultDue (i : Instr) (s : State) : Nat :=
  let d := lastIssue i s + resultTime i + (ctxOf s s.cur).late
  match vectorDest i with | some r => writeDue s (coreOf s.cur) r d | none => d

/-- The counters of an issued instruction (R148), and the cycles that it keeps the slot (R74, R188). -/
def countIssue (i : Instr) (s : State) : State :=
  modCore s (coreOf s.cur) (fun y => { y with
    issueFree := max y.issueFree (s.cycle + 1) + extraCycles i (ctxOf s s.cur)
    counters := { y.counters with issued := y.counters.issued + 1, bank := y.counters.bank + BitVec.ofNat 64 (extraCycles i (ctxOf s s.cur)) } })

/-- A context whose instruction completed: latches, the group record, the next pc (R71, R75, R224, R396). -/
def retiredCtx (i : Instr) (s : State) (npc : Word) : Ctx :=
  let x := ctxOf s s.cur
  let u := usesIn s s.cur i
  let q := x.group
  { x with
    pc := npc
    latches := (match vectorOf i with | some (o, n) => newLatches o n | none => x.latches).map
      (fun l => match l with | some r => if u.wv.contains r then none else some r | none => none)
    readyAt := max x.readyAt (resultDue i s)
    tried := false
    late := 0
    popSince := none
    remoteGot := []
    walkFails := []
    tokenFails := []
    cooked := none
    lockPass := false
    group :=
      { len := q.len + 1, g := q.g ++ u.wg.filter (· ≠ 0), v := q.v ++ u.wv, p := q.p ++ u.wp.filter (· ≠ 0), s := q.s ++ u.ws
        lowAllot := match i with
          | .vgrow _ => some x.allot
          | .vshrink o => some (min x.allot o.imm.toNat)
          | _ => q.lowAllot } }

/-- The end of a switch group: its context parks, or stops when that was asked for (R188, R320, R323). -/
def parkGroup (s : State) (c : Nat) : State :=
  let s := endGroup s c
  if (ctxOf s c).run ≠ .ready then s
  else
    match (ctxOf s c).stopWhy with
    | none => modCtx s c (fun y => { y with run := .groupEnd })
    | some dog => stopCtx s c dog

/-- The trailing copy stands where the last performed output left the leading one (R213, R214). -/
def followCopy (s : State) (c : Nat) (x : Ctx) (npc : Word) : State :=
  if x.lockPass then modCtx s (partnerOf c) (fun y => { y with regs := x.regs, pc := npc, allot := x.allot, rmode := x.rmode }) else s

/-- What an issued instruction costs its core: the counters and the slot, and the write port of its result (R74, R148, R188, R375). -/
def chargeIssue (i : Instr) (s : State) : State :=
  match vectorDest i with
  | some r => takePort (countIssue i s) s.cur r (resultDue i s)
  | none => countIssue i s

/-- The end of an instruction that completed at its issue: counters, the group record, latches, the next pc, and the end of the
group (R71, R74, R75, R188, R224). -/
def retire (i : Instr) (s : State) (npc : Word) : State :=
  let c := s.cur
  let x := ctxOf s c
  let t := chargeIssue i s
  if x.run = .idle || x.run = .reserved || x.run = .trapped then t
  else
    let t := followCopy (setCtx t c (retiredCtx i s npc)) c x npc
    if endsGroup i then parkGroup t c else t

/-- The first instruction of a handler or member: its budget starts (R81, R147), and the tokens that came with its slot pass to the
context (R29). -/
def beginIssue (s : State) : State :=
  let c := s.cur
  let x := ctxOf s c
  if !x.fresh then s
  else
    let s := modCtx s c (fun y => { y with fresh := false, budgetEnd := y.budgetKept.map (s.cycle + ·), budgetKept := none })
    match x.slot with
    | some i =>
      let h := holderSlot s.device (coreOf c) i
      let l := heldBy s h
      modCtx (moveTokens s h (holderAgent (agentOf s c)) l) c (fun y => { y with slotTokens := l })
    | none => s

/-- Accesses of a context that return a result or a completion and are still out. -/
def returning (s : State) (c : Nat) : Bool := s.flights.any (fun f => f.ctx = c && !f.posted)
/-- An instruction whose effect cannot be undone waits until no earlier one can fault (R151; log 23). -/
def settle (s : State) : Res Unit := if unsettled s s.cur then parkOn .flights s else .ok ()

/-- An output in delayed lockstep waits until the trailing copy has produced it too, 64 cycles later: once it has waited so, the context runs
64 cycles late and each output only waits for the copy's agreement (R213; log 24). -/
def lockGate (s : State) : Res Unit :=
  let x := ctxOf s s.cur
  if x.lockstep && !x.lockPass then parkOn .lockstep (modCtx s s.cur (fun y => { y with heldUntil := max y.heldUntil (s.cycle + (if y.lockLag then 0 else 64)), lockLag := true }))
  else .ok ()

/-- An output whose effect cannot be undone: it waits as `settle` does, and as `lockGate` does. -/
def outputGate (s : State) : Res Unit := if unsettled s s.cur then parkOn .flights s else lockGate s

/-- Accesses of a context that have not taken their full effect: not back, or posted and not performed. -/
def unfinished (s : State) (c : Nat) : Bool := s.flights.any (fun f => f.ctx = c && (!f.posted || !f.done))

/-- A fault at the instruction of s.cur: it is taken once every earlier access of the context has taken its full effect (R151). -/
def faultNow (f : FaultInfo) (s : State) : State :=
  if unfinished s s.cur then modCtx s s.cur (fun x => { x with run := .stalled .flights, late := 0 }) else takeTrap s s.cur f

/-- An instruction that has passed the checks at issue and faults: it counts as issued when its trap is taken (R148). -/
def faultIssued (i : Instr) (f : FaultInfo) (s : State) : State := faultNow f (if unfinished s s.cur then s else countIssue i s)

/-- An instruction of context s.cur: the checks of R233, then its body; a body that waits leaves the context stalled at the
instruction, with the cycles that a retry of the checker adds (R209), one that faults takes the trap. An instruction that is tried again has
issued before, whatever stops it now (R148). -/
def run (i : Instr) (s : State) (body : State → Res (State × Word)) : Host.Outcome State Fault Refusal :=
  match issueFault i s with
  | some f => .next (if (ctxOf s s.cur).tried then faultIssued i f s else faultNow f s)
  | none =>
    match body (beginIssue s) with
    | .ok (t, npc) => .next (retire i t npc)
    | .error (.park w t) => .next (modCtx t t.cur (fun x => { x with run := .stalled w, tried := true }))
    | .error (.trap f t) => .next (faultIssued i f t)

/-- The address of the instruction being run, and of the one after it. -/
def pcOf (s : State) : Word := (ctxOf s s.cur).pc
def nextPc (s : State) : Word := pcOf s + 8

/-- An instruction that goes on to the next one. -/
def runSeq (i : Instr) (s : State) (body : State → Res State) : Host.Outcome State Fault Refusal :=
  run i s (fun t => match body t with | .ok u => .ok (u, nextPc u) | .error e => .error e)

/-- An instruction that neither waits nor faults once it has issued. -/
def runPure (i : Instr) (s : State) (body : State → State) : Host.Outcome State Fault Refusal :=
  run i s (fun t => .ok (body t, nextPc t))

/-- Transfer(T) (R250): a target of another device faults XLATE-PERM, one that is not aligned faults ALIGN (R223). -/
def transfer (s : State) (t : Word) (k : State) : Res (State × Word) :=
  if t.toNat % 8 ≠ 0 then trapAt cAlign t s
  else if t.toNat / 2 ^ 53 ≠ s.device then trapAt cXlatePerm t s
  else .ok (k, t)

/-- A handler becomes committed-in-part (R32); outside handler mode nothing. -/
def markCip (s : State) (c : Nat) : State := modCtx s c (fun x => { x with cip := x.cip || x.hmode })

end Sys2Proof.Machine
end

