-- ==== Sys2Proof/Machine/Memory.lean ====
section
/-! DEFINITION. Translation, token checks, facets, the write log, core caches, L2 bookkeeping and accesses on their way
(R88 to R103, R111 to R114, R161, R237 to R240). -/

namespace Sys2Proof.Machine

/-! ### Translation -/

/-- Where an address leads (R88, R89, R90). -/
inductive Target where
  | facet (f o : Nat)
  | scratch (core o : Nat)
  | phys (va pa : Nat) (leaf : Word)
  | remote (ref : Word)
deriving DecidableEq, Repr

/-- The page permission an access needs (R237). -/
inductive Perm where
  | rd | wr | ex
deriving DecidableEq, Repr

def allows (p : Perm) (leaf : Word) : Bool := match p with | .rd => leafRd leaf | .wr => leafWr leaf | .ex => leafEx leaf

def tlbFind (l : List TlbEntry) (va : Nat) : Option TlbEntry := l.find? (fun e => e.page ≤ va && va < e.page + 2 ^ e.lsize)

/-- Use an entry of a core's TLB of 32 entries: it becomes the latest used, the least recently used leaves (log 93). -/
def tlbUse (l : List TlbEntry) (e : TlbEntry) : List TlbEntry := (e :: l.filter (fun x => x.page ≠ e.page || x.lsize ≠ e.lsize)).take 32

/-- The set of a cluster's TLB of 128 sets of 8 ways (R92): by the page number (log 11). -/
def tlbSet (e : TlbEntry) : Nat := e.page / 2 ^ e.lsize % 128
/-- Use an entry of a cluster's TLB: of a full set the least recently used leaves (log 93). -/
def clusterUse (l : List TlbEntry) (e : TlbEntry) : List TlbEntry :=
  let rest := l.filter (fun x => x.page ≠ e.page || x.lsize ≠ e.lsize)
  let own := (rest.filter (fun x => tlbSet x = tlbSet e)).take 7
  e :: rest.filter (fun x => tlbSet x ≠ tlbSet e || own.contains x)

/-- An entry enters the TLBs of a core and of its cluster. -/
def tlbFill (s : State) (k : Nat) (e : TlbEntry) : State :=
  modCluster (modCore s k (fun x => { x with tlb := tlbUse x.tlb e })) (vertexOf k) (fun x => { x with tlb := clusterUse x.tlb e })

/-- The valid entry for a page: from the core's TLB, or from the cluster's, which costs 8 cycles more (R92). -/
def tlbLookup (s : State) (k va : Nat) : Option (TlbEntry × Nat × State) :=
  match tlbFind (coreAt s k).tlb va with
  | some e => some (e, 0, modCore s k (fun x => { x with tlb := tlbUse x.tlb e }))
  | none =>
    match tlbFind (clusterAt s (vertexOf k)).tlb va with
    | some e => some (e, 8, tlbFill s k e)
    | none => none

/-- Cycles that come on top of the results of the instruction that issues. -/
def addLate (s : State) (c n : Nat) : State := if n = 0 then s else modCtx s c (fun x => { x with late := x.late + n })

/-- Cycles of one walk read: to the package-wide home of the entry of level l of a table, and back (R92). -/
def walkRead (v table l va : Nat) : Nat := 2 * latency v (sliceVertex (homeSlice true 0 (entryAddr table l va))) + 4

/-- The key under which the access engine of a vertex has its walks (R14). -/
def engineKey (v : Nat) : Nat := 128 * v + 8 * 13

/-- Start a walk for a context, unless one waits already (R92): 8 cycles for the lookup in the cluster's TLB, then its first read. The
engine of a vertex walks as `engineKey`, a prefetch as the context that issued it. -/
def askWalk (s : State) (c va : Nat) : State :=
  modCluster s (vertOf c) (fun x =>
    if x.walks.any (fun w => w.1 = c && w.2.1 = va) then x
    else { x with walks := x.walks ++ [(c, va, 0, s.root)], walkDue := if x.walks.isEmpty then s.cycle + 8 + walkRead (vertOf c) s.root 0 va else x.walkDue })

/-- Translate(va, perm) (R237): a page in no TLB makes the context wait for a walk. -/
def translate (s : State) (ea : Word) (p : Perm) : Res (Target × State) :=
  let c := s.cur
  let k := coreOf c
  let va := ea.toNat % 2 ^ 53
  if ea.toNat / 2 ^ 53 ≠ s.device then
    (if 0x1FFFFF00000000 ≤ va then trapAt cXlatePerm ea s else .ok (.remote ea, s))
  else if 0x1FFFFF00000000 ≤ va then
    (match facetOf s ea with
    | some f => if isExecute k && p ≠ .ex then .ok (.facet f ((va - 0x1FFFFF00000000) % 0x200000), s) else trapAt cXlatePerm ea s
    | none =>
      if isAccess k && p ≠ .ex && 0x1FFFFF80000000 ≤ va && va < 0x1FFFFF80200000 then
        .ok (.scratch (16 * vertexOf k + (va - 0x1FFFFF80000000) / 0x40000) ((va - 0x1FFFFF80000000) % 0x40000), s)
      else trapAt cXlatePerm ea s)
  else match (ctxOf s c).walkFails.find? (fun f => f.1 = va) with
  | some (_, code) => trapAt code ea s
  | none =>
    match tlbLookup s k va with
    | none => parkOn (.walk va) (askWalk s c va)
    | some (e, n, s) => if allows p e.leaf then .ok (.phys va (leafPa e.page va e.leaf) e.leaf, addLate s c n) else trapAt cXlatePerm ea s

/-- What a translation for an engine, a barrier decrement or a prefetch finds (R92): the page, the code of a fault, or a walk that is asked
for and still to end. -/
inductive Found where
  | page (pa : Nat) (leaf : Word) (late : Nat)
  | fault (code : Nat)
  | wait
deriving DecidableEq, Repr

/-- Translation through the TLBs of the access core and the cluster of a vertex and their walker, for its engine (R92). A walk that failed
is reported once. -/
def engineTranslate (s : State) (v va : Nat) (p : Perm) : Found × State :=
  if 0x1FFFFF00000000 ≤ va then (.fault cXlatePerm, s)
  else match (clusterAt s v).walkFails.find? (fun f => f.1 = va) with
  | some (_, code) => (.fault code, modCluster s v (fun x => { x with walkFails := x.walkFails.filter (fun f => f.1 ≠ va) }))
  | none =>
    match tlbLookup s (16 * v + 8) va with
    | none => (.wait, askWalk s (engineKey v) va)
    | some (e, n, s) => if allows p e.leaf then (.page (leafPa e.page va e.leaf) e.leaf n, s) else (.fault cXlatePerm, s)

/-! ### Token checks -/

/-- What an access does, for Table 06-4. -/
inductive TokenUse where
  | read | write | peek | sliceop | net
deriving DecidableEq, Repr

/-- The fault of an access to a region in a mode by an agent that holds it, or a share, or not (R238). -/
def tokenFault (m : Mode) (holds shares : Bool) (u : TokenUse) : Option Nat :=
  match m with
  | .exclusive => if holds then none else some cTokenNone
  | .frozen => if !(holds || shares) then some cTokenNone else if u = .read || u = .peek then none else some cTokenFrozen
  | .commons => if u = .read || u = .write then some cCommonsPlain else none

/-- The state of a request record (R127). -/
def recordState (s : State) (pa : Nat) : Nat := readMem s pa 8 % 8

/-- The records of the slot tables of a graph instance's STEP nodes that are ADMITTED or RUNNING, as holder words (R111). -/
def recordHolders (s : State) (gi : Nat) : List Word :=
  (stepNumbers s gi).flatMap (fun g => match slotArea s g with
  | none => []
  | some a => (List.range 1024).filterMap (fun i =>
      let r := readMem s (a + 32 * i) 8
      if r = 0 then none else
      match translateNow s (r % 2 ^ 53) false with
      | .ok (pa, _, _) => if recordState s pa = 2 || recordState s pa = 3 then some (BitVec.ofNat 64 (4 * 2 ^ 61 + s.device * 2 ^ 50 + r % 2 ^ 50)) else none
      | .error _ => none))

/-- The NET node in whose net a handler runs, as 4096 × instance + node: that of its seed, whose GRSIG word names it (R397), or that of the
handler that formed its pair (R39, R190; log 94). -/
def netOf (s : State) (c : Nat) : Option Nat :=
  (ctxOf s c).pair.bind (fun p => match p.seed with | some w => some (bits w.2.1.toNat 17 0) | none => p.net)

/-- The graph instance whose node started a context (R111): through its gang, or as a handler of a NET node's net
(R397; log 94). -/
def graphOfCtx (s : State) (c : Nat) : Option Nat :=
  match (ctxOf s c).gang with
  | none => (netOf s c).map (· / 4096)
  | some g => (sget none s.gangs g).bind (fun x => x.graph.map (·.1))

/-- The holder words that an access of context c on a path may use (R111): the engine's on path 2, the lattice's on path 3 (R334). -/
def holderWords (s : State) (c path : Nat) : List Word :=
  let v := vertOf c
  if path = 2 then [holderAgent (agentId s.device (128 * v + 8 * 13))]
  else if path = 3 then [holderAgent (agentId s.device (128 * v + 8 * 12))]
  else
    [holderAgent (agentOf s c)] ++ (if isAccess (coreOf c) then [holderAgent (agentId s.device (128 * v + 8 * 13))] else [])

/-- Whether an agent with these holder words, in a graph or not, holds an entry, or a share of it. -/
def holdsToken (s : State) (ws : List Word) (g : Option Nat) (t : Token) : Bool :=
  ws.contains t.holder || (holderKind t.holder = 4 && (match g with | some i => (recordHolders s i).contains t.holder | none => false))
/-- An open region needs no share; nor does it for an agent of another device that is served here (R107, Table 06-4; log 123). -/
def sharesToken (s : State) (ws : List Word) (g : Option Nat) (t : Token) : Bool :=
  t.opened || t.records.any (fun r => ws.contains r) ||
    (match g with | some i => t.records.any (fun r => holderKind r = 4 && (recordHolders s i).contains r) | none => false)

/-- The entry that a walk of the table finds: the page of its base has an entry in the page tables (R112). -/
def tokenProbe (s : State) (va : Nat) : Option Token :=
  (tokenCovering s va).filter (fun t => match walkNow s t.base with | .leaf .. => true | .fault _ => false)

/-- A region held by a context of a killed core, until it is claimed (R120). -/
def orphaned (s : State) (t : Token) : Bool :=
  holderKind t.holder = 1 && agentDevice (holderVal t.holder) = s.device && (coreAt s (coreOf (agentLocal (holderVal t.holder)))).killed

/-- What bars every access to a region: taint, which comes first (R113), or a dead holder, which the table answers with TOKEN-NONE (R120;
log 97). -/
def barred (s : State) (t : Token) : Option Nat := if t.taint then some cTainted else if orphaned s t then some cTokenNone else none

/-- The whole check against the table, for an agent that has no token cache of its own (R113): a fault and the count seen. -/
def tokenCheckNow (s : State) (ws : List Word) (g : Option Nat) (va : Nat) (u : TokenUse) : Option (Nat × BitVec 32) :=
  match tokenProbe s va with
  | none => some (cTokenNone, 0)
  | some t => (barred s t <|> tokenFault t.mode (holdsToken s ws g t) (sharesToken s ws g t) u).map (fun f => (f, t.xfer))

/-- The tag of a token-cache entry: the context, or 12 or 13 for the engine whose path it serves (R112). -/
def tokenTag (c path : Nat) : Nat := if path = 3 then 12 else c % 8

/-- A cached grant that a request record gives is the asking context's own only while that record holds the region and is ADMITTED or RUNNING
in the slot table of its node's instance: of a context that a node started the entry as it stands for it now (R111, R112; log 94). -/
def grantNow (s : State) (c path : Nat) (e : TokenHit) : TokenHit :=
  match sget none s.tokens e.base with
  | none => e
  | some t =>
    let ws := holderWords s c path
    let g := graphOfCtx s c
    { e with
      holds := if g.isSome || holderKind t.holder = 4 then holdsToken s ws g t else e.holds
      shares := if g.isSome || t.records.any (fun r => holderKind r = 4) then sharesToken s ws g t else e.shares }

/-- The entry of a core's token cache that answers an access of context c (R112). -/
def tokenHit (s : State) (c path va : Nat) : Option TokenHit :=
  ((coreAt s (coreOf c)).tokenCache.find? (fun e => e.ctx = tokenTag c path && e.base ≤ va && va < e.base + 2 ^ e.lsize)).map (grantNow s c path)

/-- A token instruction of the context is out: what follows it is checked against the new entry (R117). -/
def tokenOut (s : State) (c : Nat) : Bool :=
  s.flights.any (fun f => f.ctx = c && (match f.op with | .token _ => true | .remoteWrite _ (.token ..) => true | _ => false))

/-- The apex vertex of a context's die, as the place of its scheduler block. -/
def blockSlice (c : Nat) : Nat := sliceId (apexVertex (dieOf (vertOf c))) 0

/-- The least cycles to a slice (R12). -/
def hop (c slice : Nat) : Nat := latency (vertOf c) (sliceVertex (slice % 2048))

/-- The bases that could cover an address, one for each lsize (R112). -/
def candidates (va : Nat) : List Nat := (List.range 33).map (fun i => va / 2 ^ (8 + i) * 2 ^ (8 + i))

/-- The least time of a token walk: to the farthest slice that it probes (R112), 8 cycles more when a candidate's page is in the cluster's
TLB only (R92). -/
def tokenWalkTime (s : State) (c va : Nat) : Nat :=
  2 * ((candidates va).foldl (fun m base =>
    match walkNow s base with
    | .leaf page _ e => max m (hop c (leafHome e (leafPa page base e)))
    | .fault _ => m) 0) + 6 +
  (if (candidates va).any (fun b => (tlbFind (coreAt s (coreOf c)).tlb b).isNone && (tlbFind (clusterAt s (vertOf c)).tlb b).isSome) then 8 else 0)

/-- A candidate base of an address whose page is in no TLB of the core and whose walk has not failed (R112). -/
def nextCandidate (s : State) (c va : Nat) : Option Nat :=
  (candidates va).find? (fun b =>
    (tlbFind (coreAt s (coreOf c)).tlb b).isNone && (tlbFind (clusterAt s (vertOf c)).tlb b).isNone && !((ctxOf s c).walkFails.any (fun f => f.1 = b)))

/-- A miss of the token cache (R112): the candidates are translated, each that misses both TLBs by a walk of its own, then probed. -/
def askTokenWalk {α : Type} (s : State) (va path : Nat) : Res α :=
  let c := s.cur
  match nextCandidate s c va with
  | some b => parkOn (.walk b) (askWalk s c b)
  | none => parkOn (.tokenWalk va path (s.cycle + tokenWalkTime s c va))
      ((candidates va).foldl (fun t b => match tlbLookup t (coreOf c) b with | some (_, _, u) => u | none => t) s)

/-- What bars every access to an address whose region a cached entry names: taint, or a dead holder; of the entry that covers it now, which
a TKJOIN of another core may have made (R113). -/
def barredAt (s : State) (va : Nat) : Option Nat := (tokenCovering s va).bind (barred s)

/-- Token.Check of a context's access (R238) through its core's token cache: an entry that grants the access decides it; otherwise a
walk does, for which the context waits (R112). The mode of the region is returned. -/
def tokenCheck (s : State) (ea : Word) (u : TokenUse) (path : Nat) : Res (Mode × State) :=
  let c := s.cur
  let va := ea.toNat % 2 ^ 53
  let k := coreOf c
  if tokenOut s c then parkOn .flights s else
  let bad := fun (code : Nat) (x : BitVec 32) => (.error (.trap { code := code, addr := ea, xfer := x } s) : Res (Mode × State))
  let walked := (ctxOf s c).tokenFails.find? (fun f => f.1 = va)
  match walked with
  | some (_, code, x) =>
    if code ≠ 0 then bad code x
    else match tokenHit s c path va with
      | some e =>
        match barredAt s va <|> tokenFault e.mode e.holds e.shares u with | some f => bad f e.xfer | none => .ok (e.mode, s)
      | none => askTokenWalk (modCtx s c (fun y => { y with tokenFails := y.tokenFails.filter (fun f => f.1 ≠ va) })) va path
  | none =>
    match tokenHit s c path va with
    | some e =>
      match barredAt s va with
      | some f => bad f e.xfer
      | none =>
      match tokenFault e.mode e.holds e.shares u with
      | none => .ok (e.mode, modCore s k (fun y => { y with tokenCache := e :: y.tokenCache.filter (fun z => !(z.ctx = e.ctx && z.base = e.base)) }))
      | some _ => askTokenWalk s va path
    | none => askTokenWalk s va path

/-- The walk of the table for a waiting context (R112): the cache is filled, or the fault is kept for the instruction. -/
def tokenWalkNow (s : State) (c va path : Nat) : State :=
  let ws := holderWords s c path
  let g := graphOfCtx s c
  let keep := fun (code : Nat) (x : BitVec 32) (t : State) => modCtx t c (fun y => { y with tokenFails := (va, code, x) :: y.tokenFails })
  let s := if (tokenHit s c path va).isSome then s
    else modCore s (coreOf c) (fun y => { y with counters := { y.counters with tokmiss := y.counters.tokmiss + 1 } })
  match tokenProbe s va with
  | none => keep cTokenNone 0 s
  | some t =>
    match barred s t with
    | some f => keep f t.xfer s
    | none =>
      let h := holdsToken s ws g t
      let sh := sharesToken s ws g t
      match tokenFault t.mode h sh (if t.mode = .commons then .peek else .read) with
      | some f => keep f t.xfer s
      | none =>
        let e : TokenHit := { ctx := tokenTag c path, base := t.base, lsize := t.lsize, mode := t.mode, holds := h, shares := sh, xfer := t.xfer }
        keep 0 t.xfer (modCore s (coreOf c) (fun y => { y with
          tokenCache := (e :: y.tokenCache.filter (fun z => !(z.ctx = e.ctx && z.base = e.base))).take 64 }))

/-- The notice of a first store sets wr at the entry, in the step of the store: of a logged store too, whatever becomes of its handler
(R114; log 38). -/
def noticeStore (s : State) (va : Nat) : State :=
  match tokenCovering s va with
  | some t => if t.wr then s else setToken s { t with wr := true }
  | none => s

/-! ### The write log (R30, R157) -/

/-- Bits of a log byte: the bits of `old` outside the mask, those logged inside. -/
def logOver (l : List LogLine) (p : LogPlace) (a : Nat) (old : Byte) : Byte :=
  match l.find? (fun e => e.place = p && e.line = a / 32) with
  | none => old
  | some e =>
    let d := e.data.extractLsb' (8 * (a % 32)) 8
    let m := e.mask.extractLsb' (8 * (a % 32)) 8
    (old &&& ~~~m) ||| (d &&& m)

/-- Log some bits of one byte. -/
def logPut (l : List LogLine) (p : LogPlace) (home a : Nat) (m v : Byte) : List LogLine :=
  let sh := 8 * (a % 32)
  let mm : BitVec 256 := m.setWidth 256 <<< sh
  let vv : BitVec 256 := (v &&& m).setWidth 256 <<< sh
  if l.any (fun e => e.place = p && e.line = a / 32) then
    l.map (fun e => if e.place = p && e.line = a / 32 then { e with data := (e.data &&& ~~~mm) ||| vv, mask := e.mask ||| mm } else e)
  else l ++ [{ place := p, line := a / 32, home := home, data := vv, mask := mm }]

/-- Whether logging n bytes at a passes 64 lines (R30). -/
def logFull (l : List LogLine) (p : LogPlace) (a n : Nat) : Bool :=
  let new_ := (List.range (a % 32 + n + 31)).filter (fun i => i % 32 = 0 && i < a % 32 + n && !(l.any (fun e => e.place = p && e.line = (a + i) / 32)))
  64 < l.length + new_.length

/-- A whole store enters the write log of context s.cur. -/
def logBytes (s : State) (p : LogPlace) (home a n x : Nat) : State :=
  modCtx s s.cur (fun y => { y with writeLog := (bytesOf x n).zipIdx.foldl (fun l e => logPut l p home (a + e.2) 0xFF e.1) y.writeLog })

/-! ### Scratchpads and facets (R93 to R95, R243) -/

def scratchByte (s : State) (k o : Nat) : Byte := sget 0 (coreAt s k).scratch o
def setScratch (s : State) (k o : Nat) (b : Byte) : State := modCore s k (fun x => { x with scratch := sput 0 x.scratch o b })
/-- A byte that context c stores in a scratchpad: in delayed lockstep the trailing copy stores it in that of its own cluster too (R212, R213). -/
def keepScratch (s : State) (c k o : Nat) (b : Byte) : State :=
  let t := setScratch s k o b
  if (ctxOf s c).lockstep then setScratch t (coreOf (partnerOf (8 * k))) o b else t

/-- n bytes of a scratchpad as context c sees them: its own logged bytes over the committed ones. -/
def seeScratch (s : State) (c k o : Nat) : Nat → Nat
  | 0 => 0
  | n + 1 =>
    let b := scratchByte s k o
    (logOver (ctxOf s c).writeLog (.scratch k) o b).toNat + 256 * seeScratch s c k (o + 1) n

/-- Write n bits of a scratchpad of the issuing core, from bit position p, through the log in handler mode. -/
def putBits (s : State) (p n v : Nat) : State :=
  let c := s.cur
  let k := coreOf c
  (List.range ((p % 8 + n + 7) / 8)).foldl (fun t i =>
    let o := p / 8 + i
    let mask := BitVec.ofNat 8 (((2 ^ n - 1) <<< (p % 8)) >>> (8 * i))
    let val := BitVec.ofNat 8 ((v % 2 ^ n) <<< (p % 8) >>> (8 * i))
    if (ctxOf t c).hmode then modCtx t c (fun x => { x with writeLog := logPut x.writeLog (.scratch k) 0 o mask val })
    else keepScratch t c k o ((scratchByte t k o &&& ~~~mask) ||| (val &&& mask))) s

/-- Element size, seen range, stored bits, seen and stored formats of a facet (Table 05-3). -/
def facetElem (f : Nat) : Nat := match f with | 0 | 3 => 1 | 7 => 2 | _ => 4
def facetRange (f : Nat) : Nat := match f with | 0 => 0x40000 | 1 => 0x100000 | 2 => 0x155540 | 4 => 0x200000 | _ => 0x80000
def facetBits (f : Nat) : Nat := match f with | 2 => 6 | 3 | 4 => 4 | 5 | 6 => 16 | _ => 8
def facetSeen (f : Nat) : Nat := match f with | 3 => 0 | 7 => 12 | _ => 13
def facetStored (f : Nat) : Nat := match f with | 1 | 7 => 10 | 2 => 9 | 5 => 11 | 6 => 12 | _ => 8
/-- The bit at which element i is stored. -/
def facetPos (f i : Nat) : Nat := match f with | 2 => 96 * (i / 16) + 6 * (i % 16) | 3 | 4 => 4 * i | 5 | 6 => 16 * i | _ => 8 * i

/-- The three checks of a facet access (R94, R237, R243). -/
def facetCheck (s : State) (ea : Word) (f o n : Nat) : Res Unit :=
  if ea.toNat % n ≠ 0 || n % facetElem f ≠ 0 then trapAt cAlign ea s
  else if facetRange f < o + n then trapAt cFacetRange ea s
  else .ok ()

/-- The seen bits of element i (R95): decoding raises no flag. -/
def facetDecode (s : State) (f i : Nat) : Nat :=
  let c := s.cur
  let k := coreOf c
  let p := facetPos f i
  let raw := (seeScratch s c k (p / 8) 3 >>> (p % 8)) % 2 ^ facetBits f
  if f = 0 then raw else (roundNum 1 (facetSeen f) true (decodeElem (coreAt s k).i4tab0 (coreAt s k).i4tab1 (facetStored f) raw)).1

/-- The stored bits of a seen element and the flags raised (R95). -/
def facetEncode (s : State) (f x : Nat) : Nat × Flags :=
  let k := coreAt s (coreOf s.cur)
  let v := decodeElem k.i4tab0 k.i4tab1 (facetSeen f) x
  match f with
  | 0 => (x, 0)
  | 3 => encodeI4 k.i4tab0 k.i4tab1 true v
  | 4 => encodeI4 k.i4tab0 k.i4tab1 false v
  | _ => roundNum (ctxOf s s.cur).rmode.toNat (facetStored f) false v

/-- Facet.Decode (R243): n seen bytes. -/
def facetRead (s : State) (ea : Word) (f o n : Nat) : Res Nat :=
  match facetCheck s ea f o n with
  | .error e => .error e
  | .ok () =>
    let e := facetElem f
    .ok ((List.range (n / e)).foldl (fun acc i => acc + facetDecode s f (o / e + i) * 2 ^ (8 * e * i)) 0)

/-- Facet.Encode (R243). -/
def facetWrite (s : State) (ea : Word) (f o n x : Nat) : Res State :=
  match facetCheck s ea f o n with
  | .error e => .error e
  | .ok () =>
    let e := facetElem f
    let first := facetPos f (o / e) / 8
    let last := (facetPos f ((o + n) / e - 1) + facetBits f - 1) / 8
    if (ctxOf s s.cur).hmode && logFull (ctxOf s s.cur).writeLog (.scratch (coreOf s.cur)) first (last + 1 - first) then trapAt cWlogOverflow ea s
    else
      let (t, fl) := (List.range (n / e)).foldl (fun (a : State × Flags) i =>
        let (st, g) := facetEncode s f ((x >>> (8 * e * i)) % 2 ^ (8 * e))
        (putBits a.1 (facetPos f (o / e + i)) (facetBits f) st, a.2 ||| g)) (s, 0)
      .ok (raiseFlags t s.cur fl)

/-! ### The data cache (R96) -/

def lineOf (s : State) (k l : Nat) : Option Line := sget none (coreAt s k).dcache l
def setLine (s : State) (k l : Nat) (x : Option Line) : State := modCore s k (fun y => { y with dcache := sput none y.dcache l x })

/-- The lines of the set of line l that a core holds. -/
def setLines (s : State) (k l : Nat) : List (Nat × Line) :=
  (coreAt s k).dcache.filterMap (fun e => match e.2 with | some x => if e.1 % 128 = l % 128 then some (e.1, x) else none | none => none)

/-- A rank above every line of the set. -/
def nextRank (s : State) (k l : Nat) : Nat := (setLines s k l).foldl (fun a e => max a (e.2.used + 1)) 0

/-- The write-back of a dirty line at its home slice, whose sector is dirty from then on (R97, R161): a poisoned sector stays poisoned
(R91). It stands there in the step in which it leaves: nobody else reads the region before it is acknowledged (R117, R168; log 9). Behind a
CXL port that is down it is lost, and its sector is poisoned (R388). -/
def writeBackLine (s : State) (k l : Nat) : State :=
  match lineOf s k l with
  | none => s
  | some x =>
    if !x.dirty then s
    else if cxlGone s (32 * l) then setLine (poisonSector s (32 * l)) k l (some { x with dirty := false })
    else
    let t := performWrite (touchL2 s (x.home % 2048) (32 * l) 32 (x.home / 2048) true) (32 * l) (bytesOf x.data.toNat 32)
    let t := if x.poison then { t with poisoned := sput false t.poisoned l true } else t
    setLine t k l (some { x with dirty := false })

/-- Put a line into the data cache; the least recently used line of a full set leaves it (R96). -/
def installLine (s : State) (k l : Nat) (x : Line) : State :=
  let others := (setLines s k l).filter (fun e => e.1 ≠ l)
  let s := if others.length < 8 then s else
    match others.foldl (fun (b : Option (Nat × Nat)) e => match b with | some (_, u) => if e.2.used < u then some (e.1, e.2.used) else b | none => some (e.1, e.2.used)) none with
    | some (v, _) => setLine (writeBackLine s k v) k v none
    | none => s
  setLine s k l (some { x with used := nextRank s k l })

/-- Fill a line from its home slice, now. -/
def fillLine (s : State) (k l home : Nat) (peeked : Bool) : State :=
  installLine s k l { data := BitVec.ofNat 256 (readMem s (32 * l) 32), dirty := false, peeked := peeked, poison := isPoisoned s (32 * l), home := home, used := 0 }

/-- Take a line out of a core's cache, writing it back first when it is dirty (R286). -/
def ousterLine (s : State) (k l : Nat) : State := setLine (writeBackLine s k l) k l none

/-- The 32-byte lines of n bytes at pa. -/
def linesOf (pa n : Nat) : List Nat := (List.range ((pa % 32 + n + 31) / 32)).map (fun i => pa / 32 + i)

/-- n bytes from cached lines, under the context's log. -/
def seeLines (s : State) (c pa : Nat) : Nat → Nat
  | 0 => 0
  | n + 1 =>
    let b := match lineOf s (coreOf c) (pa / 32) with
      | some x => x.data.extractLsb' (8 * (pa % 32)) 8
      | none => memByte s pa
    (logOver (ctxOf s c).writeLog .memory pa b).toNat + 256 * seeLines s c (pa + 1) n

/-- Mark lines as used now. -/
def useLines (s : State) (k : Nat) (l : List Nat) : State :=
  l.foldl (fun t a => match lineOf t k a with | some x => setLine t k a (some { x with used := nextRank t k a }) | none => t) s

/-- The least cycles from a core to a slice and back with a line (R96). -/
def fillTime (k home : Nat) : Nat := 2 * latency (vertexOf k) (sliceVertex (home % 2048)) + 4

/-- Ask for a line from its home slice, behind the fences that context c has given (R96, R180). -/
def askFill (s : State) (k c l home : Nat) (peeked l2 : Bool) (extra : Nat := 0) : State :=
  modCore s k (fun x => if x.fills.any (fun f => f.line = l && f.l2 = l2 && !f.stale) then x else { x with fills := x.fills ++
    [{ line := l, peeked := peeked, l2 := l2, home := home, due := s.cycle + fillTime k home + extra, ctx := c, before := s.nextId, stale := false }] })

/-- Fill a line now from its home slice, which is reached (R97). -/
def fillNow (s : State) (k l home : Nat) (peeked : Bool) : State :=
  fillLine (touchL2 s (home % 2048) (32 * l) 32 (home / 2048) false) k l home peeked

/-- Make the lines of a path-0 access present, each with its home: the context waits for the first that is missing; when it has waited once,
the rest is filled within the step, so that an access of more lines than a set holds ends (log 22). -/
def needHomes (s : State) (l : List (Nat × Nat)) : Res State :=
  let k := coreOf s.cur
  match l.find? (fun a => (lineOf s k a.1).isNone) with
  | none => .ok s
  | some a =>
    if (ctxOf s s.cur).cooked.isSome then .ok (l.foldl (fun t b => if (lineOf t k b.1).isNone then fillNow t k b.1 b.2 false else t) s)
    else parkOn (.fill a.1) (askFill s k s.cur a.1 a.2 false false)

/-- The same for lines of one home. -/
def needLines (s : State) (l : List Nat) (home : Nat) : Res State := needHomes s (l.map (fun a => (a, home)))

/-! ### Accesses on their way (log 9) -/

/-- The physical bytes that an operation touches at its slice: address and count. -/
def opSpan : SliceOp → List (Nat × Nat)
  | .load pa n _ _ => [(pa, n)]
  | .lineLoad pa n _ _ _ _ _ => [(pa, n)]
  | .lineStore _ pa data => [(pa, data.length)]
  | .tracked pa n _ _ => [(pa, n)]
  | .rmw pa w _ _ _ _ => [(pa, w / 8)]
  | .write pa data _ => [(pa, data.length)]
  | .emit pa _ data => [(pa, data.length)]
  | .cmls ts _ => ts.map (fun t => (t.1, 8))
  | .cell _ pa ws => [(pa, 8 * ws.length)]
  | .cset _ pa w _ => [(pa + 8 * w, 8)]
  | .link _ pa _ => [(pa, 8)]
  | .cxld _ pa _ => [(pa + 24, 8)]
  | .note pa _ _ _ => [(pa, 256)]
  | .flt pa _ _ _ => [(pa, 256)]
  | .bari pa _ => [(pa, 8)]
  | .waitb pa _ => [(pa, 8)]
  | .result _ pa _ => [(pa, 8)]
  | _ => []

/-- Path-0 accesses that wait for their lines (R188, R284). -/
def isLineOp : SliceOp → Bool
  | .lineLoad .. | .lineStore .. => true
  | _ => false

/-- Whether an operation changes the bytes of its span at the slice. -/
def opWrites : SliceOp → Bool
  | .load .. => false
  | .lineLoad .. => false
  | .lineStore .. => false
  | .tracked .. => false
  | .cxld .. => false
  | .waitb .. => false
  | _ => true

/-- Whether performing an operation can still fault its instruction (R91, R283, R295, R388). -/
def mayFault : SliceOp → Bool
  | .load .. => true
  | .lineLoad .. => true
  | .lineStore _ pa _ => (cxlPort pa).isSome
  | .tracked .. => true
  | .rmw _ _ _ _ _ d => d ≠ 0
  | .slotRead .. => true
  | .waitb .. => true
  | .cxld .. => true
  | .remoteRead .. => true
  | .remoteLoad .. => true
  | .cmls ts _ => ts.any (fun t => (cxlPort t.1).isSome)
  | .remoteWrite _ .store => true
  | .remoteWrite _ (.token ..) => true
  | .note .. => true
  | .flt .. => true
  | .bari .. => true
  | .grlaunch .. => true
  | .token _ => true
  | _ => false

/-- The global reference of an access to another device. -/
def remoteRef : SliceOp → Option Word
  | .remoteRead ref .. => some ref
  | .remoteLoad ref .. => some ref
  | .remoteWrite ref _ => some ref
  | _ => none

/-- A FENCE on its way. -/
def isFence : SliceOp → Bool
  | .fence .. => true
  | _ => false

/-- A fence of the context that holds back accesses on a path (R180). -/
def fenced (s : State) (c path : Nat) : Bool :=
  s.flights.any (fun f => f.ctx = c && (match f.op with | .fence _ dst => nbit dst path | _ => false))

/-- Waiting for the fences of the context that name a destination path. -/
def passFence (s : State) (path : Nat) : Res Unit := if fenced s s.cur path then parkOn .flights s else .ok ()

/-- Send an access; it can be performed from the time it takes to reach the slice, and its result is back that time later
(R234, log 9). A slice of another device stands under the number of its device; a `near` access finds its lines in the core. What a handler sends once it
has committed faults nothing. -/
def sendFlight (s : State) (c path : Nat) (ordered posted : Bool) (slice : Nat) (op : SliceOp) (extra : Nat) (ea : Word := 0) (near : Bool := false) : State :=
  let x := ctxOf s c
  let (home, cls, l) := match remoteRef op with
    | some ref => (4096 + ref.toNat / 2 ^ 53, 0, fabricHop s (vertOf c) (ref.toNat / 2 ^ 53) ordered)
    | none => (slice % 2048, slice / 2048, if near then 0 else hop c slice)
  let f : Flight Regs :=
    { id := s.nextId, ctx := c, group := x.groupNo, path := path, ordered := ordered, posted := posted, slice := home, cls := cls, ea := ea, op := op, wb := [],
      done := false, pc := x.pc, undo := if mayFault op && x.run ≠ .leaving then some x.regs else none
      due := s.cycle + l + extra + x.late, back := s.cycle + 2 * l + 4 + extra + x.late, fault := none, net := netOf s c }
  { s with nextId := s.nextId + 1, flights := s.flights ++ [f] }

/-- Posted stores of a core that are not acknowledged (R292). -/
def postedCount (s : State) (k : Nat) : Nat := (s.flights.filter (fun f => coreOf f.ctx = k && f.posted)).length

/-- Send.Buffer for an entry that goes to a slice (R240): into the send buffer in handler mode; otherwise it leaves now. -/
def sendBuffer (s : State) (e : Entry) (leave : State → Res State) : Res State :=
  let x := ctxOf s s.cur
  if x.hmode then
    (if 32 ≤ x.sendBuf.length then trapWith cSendOverflow s
     else .ok (modCtx s s.cur (fun y => { y with sendBuf := y.sendBuf ++ [e] })))
  else leave s

/-- A line of this core that an access at its slice still has to reach (R286, R288). -/
def lineBusy (s : State) (k l : Nat) : Bool :=
  s.flights.any (fun f => coreOf f.ctx = k && (match f.op with | .load .. => false | o => !(isLineOp o)) && (opSpan f.op).any (fun p => (linesOf p.1 p.2).contains l))

/-- An access through a global reference: it is held while the peer is stopped, and behind a token instruction of its context (R117), and
ends in DEAD-PEER when the peer is lost (R219), in UNDELIVERABLE when no port that is up reaches it (R15, R389; log 113). -/
def remoteOk (s : State) (ref : Word) : Res Unit :=
  let d := ref.toNat / 2 ^ 53
  if s.peersLost.contains d then trapAt cDeadPeer ref s else if !(reachable s d) then trapAt cUndeliverable ref s else if s.peersStopped.contains d || tokenOut s s.cur then parkOn .flights s else .ok ()

/-- Words, lowest first, as one number. -/
def joinWords : List Word → Nat
  | [] => 0
  | w :: l => w.toNat + 2 ^ 64 * joinWords l

/-- Whether no agent but the context itself can be the holder under whose token it stores abroad: then what it stored last stays what it
reads (R111, R152, R168). Where an engine's or a record's token serves it, others may have stored there since. -/
def soleHolder (s : State) (c : Nat) : Bool := !(isAccess (coreOf c)) && (graphOfCtx s c).isNone

/-- n bytes at a global reference as context c sees them: what it logged, else what it stored last (R152, R154), else the answer. -/
def seeRemote (x : Ctx) (own : Bool) (a ans : Nat) : Nat → Nat
  | 0 => 0
  | n + 1 =>
    let b := if own then (sget none x.ownBytes a).getD (BitVec.ofNat 8 ans) else BitVec.ofNat 8 ans
    (logOver x.writeLog .remote a b).toNat + 256 * seeRemote x own (a + 1) (ans / 256) n

/-- The value of a global read on path 0: the context waits for the answer to each reference of its instruction, which is free where it did
not store itself (R152, R283, R285; log 17). -/
def remoteRead (s : State) (ref : Word) (n : Nat) (peek : Bool := false) : Res (Nat × State) :=
  match (ctxOf s s.cur).remoteGot.find? (fun e => e.1 = ref.toNat && e.2.1 = n) with
  | some (_, _, w) => .ok (seeRemote (ctxOf s s.cur) (soleHolder s s.cur) ref.toNat w n, s)
  | none =>
    match remoteOk s ref with
    | .error e => .error e
    | .ok () => parkOn .completion (sendFlight s s.cur 0 false false 0 (.remoteLoad ref n (if peek then .peek else .load)) 0)

/-- Translate and Token.Check of a store, a slice operation or a token instruction on a region of another device, which are made there: its
instruction waits for the answer before it goes on (R175, R177, R237, R238). -/
def remoteCheck (s : State) (ref : Word) (ask : RemoteAsk) : Res Unit :=
  if (ctxOf s s.cur).remoteGot.any (fun e => e.1 = ref.toNat && e.2.1 = 0) then .ok ()
  else match remoteOk s ref with
  | .error e => .error e
  | .ok () => parkOn .completion (sendFlight s s.cur (if ask = .store then 0 else 1) false false 0 (.remoteLoad ref 0 ask) 0)

/-- An access that can no longer fault its instruction, its checks being made. -/
def sendSure (s : State) (c path : Nat) (ordered posted : Bool) (slice : Nat) (op : SliceOp) : State :=
  let t := sendFlight s c path ordered posted slice op 0
  if (ctxOf s c).remoteGot.isEmpty then t
  else { t with flights := t.flights.map (fun f => if f.id = s.nextId then { f with undo := none } else f) }

/-- A store of context c through a global reference leaves on path 0 (R175, R283): its bytes are what the context reads back (R152). -/
def remoteStore (s : State) (c : Nat) (posted : Bool) (ref : Word) (l : List (Nat × Byte)) : State :=
  modCtx (sendSure s c 0 true posted 0 (.remoteWrite ref .store)) c (fun x => { x with
    ownBytes := l.foldl (fun m e => sput none m e.1 (some e.2)) x.ownBytes })

/-- A context no longer knows what stands around a global reference: the 64-byte block of a slice operation, or everything after a token
instruction. -/
def forgetRemote (s : State) (c : Nat) (ref : Word) (all : Bool) : State :=
  modCtx s c (fun x => { x with ownBytes := if all then [] else x.ownBytes.filter (fun e => e.1 / 64 ≠ ref.toNat / 64) })

/-- A path-0 access of the core that is out to one of these lines (R152, R286). -/
def lineOut (s : State) (k : Nat) (ls : List Nat) : Bool :=
  s.flights.any (fun f => coreOf f.ctx = k && isLineOp f.op && (opSpan f.op).any (fun p => (linesOf p.1 p.2).any ls.contains))

/-- What logged bytes of context c make of n bytes at pa that are all `old`. -/
def logBoth (s : State) (c pa : Nat) (old : Byte) (n : Nat) : Nat :=
  ((List.range n).map (fun i => (logOver (ctxOf s c).writeLog .memory (pa + i) old).toNat * 2 ^ (8 * i))).sum

/-- Where a read on path 0 leads, with the checks of R237 and, for a peek, LD.P's rules (R287) when the region is not a commons region. A
line that an access at its slice still has to reach is waited for (R286). -/
def readPlace (s : State) (ea : Word) (n : Nat) (u : TokenUse) : Res (Target × State) := do
  if ea.toNat % n ≠ 0 then trapAt cAlign ea s
  else
    let (tgt, s) ← translate s ea .rd
    match tgt with
    | .phys _ pa leaf => do
      let s ← (if leafWr leaf then (do let (_, t) ← tokenCheck s ea u 0; .ok t) else .ok s)
      if (linesOf pa n).any (fun l => lineBusy s (coreOf s.cur) l) then parkOn .flights s else .ok (tgt, s)
    | _ => .ok (tgt, s)

/-- The value of a read on path 0, now. -/
def readAt (s : State) (ea : Word) (n : Nat) (tgt : Target) (u : TokenUse := .read) : Res (Nat × State) := do
  let c := s.cur
  let k := coreOf c
  match tgt with
  | .facet f o => do
    let x ← facetRead s ea f o n
    .ok (x, s)
  | .scratch q o => .ok (seeScratch s c q o n, s)
  | .remote r => remoteRead s r n (decide (u = .peek))
  | .phys _ pa leaf => do
    let ls := linesOf pa n
    if lineOut s k ls then parkOn .flights s
    else
      let s ← needLines s ls (leafHome leaf pa)
      if ls.any (fun l => match lineOf s k l with | some x => x.poison | none => isPoisoned s (32 * l)) then trapAt cPoison ea s
      else .ok (seeLines s c pa n, notBefore (useLines s k ls) c (s.cycle + 4))

/-- Mem.Read on path 0 (R237), for an instruction that goes on with the value. -/
def memRead (s : State) (ea : Word) (n : Nat) (u : TokenUse) : Res (Nat × State) := do
  passFence s 0
  let (tgt, s) ← readPlace s ea n u
  readAt s ea n tgt u

/-- Whether a path-0 access of context c to some lines is out rather than performed at its issue: a line is missing, an earlier such access to
one of them is out, or a fence keeps it back (R152, R180, R284). -/
def lineWaits (s : State) (c : Nat) (ls : List Nat) : Bool :=
  ls.any (fun l => (lineOf s (coreOf c) l).isNone) || lineOut s (coreOf c) ls || fenced s c 0

/-- LD, LDV and LD.P (R284, R287): the value for g[d] or v[d], or an access that is out while its group goes on (R188). -/
def loadTo (s : State) (ea : Word) (n : Nat) (u : TokenUse) (sx vec : Bool) (d : Nat) (give : Nat → State → State) : Res State := do
  let (tgt, s) ← readPlace s ea n u
  let c := s.cur
  match tgt with
  | .phys _ pa leaf =>
    if lineWaits s c (linesOf pa n) then
      .ok (sendFlight s c 0 false false (leafHome leaf pa) (.lineLoad pa n sx vec d (logBoth s c pa 0 n) (logBoth s c pa 0xFF n)) 0 ea
        (!((linesOf pa n).any (fun l => (lineOf s (coreOf c) l).isNone))))
    else do
      let (x, s) ← readAt s ea n tgt u
      .ok (give x s)
  | _ => do
    passFence s 0
    let (x, s) ← readAt s ea n tgt u
    .ok (give x s)

/-- Write n bytes into cached lines. -/
def writeLines (s : State) (k pa : Nat) : List Byte → State
  | [] => s
  | b :: l =>
    let s := match lineOf s k (pa / 32) with
      | some x =>
        let sh := 8 * (pa % 32)
        let m : BitVec 256 := (0xFF : BitVec 256) <<< sh
        setLine s k (pa / 32) (some { x with data := (x.data &&& ~~~m) ||| (b.setWidth 256 <<< sh), dirty := true })
      | none => setByte s pa b
    writeLines s k (pa + 1) l

/-- The poison of cached lines that a store covers whole ends (R91). -/
def cleanLines (s : State) (k pa n : Nat) (ls : List Nat) : State :=
  ls.foldl (fun t l => match lineOf t k l with
    | some x => if pa ≤ 32 * l && 32 * l + 32 ≤ pa + n then setLine t k l (some { x with poison := false }) else t
    | none => t) s

/-- n bytes into cached lines, which the home slice is told of (R114, R237). -/
def storeLines (s : State) (k va pa : Nat) (l : List Byte) : State :=
  let ls := linesOf pa l.length
  useLines (cleanLines (writeLines (noticeStore s va) k pa l) k pa l.length ls) k ls

/-- Mem.Write on path 0 (R237): a store whose lines are missing, or that an earlier access or a fence keeps back, is out while its group goes
on (R151, R188, R284). -/
def memWrite (s : State) (ea : Word) (n x : Nat) : Res State := do
  let c := s.cur
  let k := coreOf c
  if ea.toNat % n ≠ 0 then trapAt cAlign ea s
  else
    let (tgt, s) ← translate s ea .wr
    match tgt with
    | .facet f o => do
      let _ ← facetCheck s ea f o n
      passFence s 0
      outputGate s
      facetWrite s ea f o n x
    | .scratch q o =>
      if (ctxOf s c).hmode then
        if logFull (ctxOf s c).writeLog (.scratch q) o n then trapAt cWlogOverflow ea s else .ok (logBytes s (.scratch q) 0 o n x)
      else do
        passFence s 0
        outputGate s
        .ok ((bytesOf x n).zipIdx.foldl (fun t e => keepScratch t c q (o + e.2) e.1) s)
    | .remote r => do
      remoteOk s r
      if (ctxOf s c).hmode then
        remoteCheck s r .store
        if logFull (ctxOf s c).writeLog .remote r.toNat n then trapAt cWlogOverflow ea s else .ok (logBytes s .remote 0 r.toNat n x)
      else
        lockGate s
        .ok (remoteStore s c false r ((bytesOf x n).zipIdx.map (fun e => (r.toNat + e.2, e.1))))
    | .phys va pa leaf => do
      let (_, s) ← tokenCheck s ea .write 0
      let ls := linesOf pa n
      if (ctxOf s c).hmode then
        if logFull (ctxOf s c).writeLog .memory pa n then trapAt cWlogOverflow ea s
        else do
          outputGate s
          let s := ls.foldl (fun t l => writeBackLine t k l) (noticeStore s va)
          .ok (logBytes s .memory (leafHome leaf pa) pa n x)
      else if ls.any (fun l => lineBusy s k l) then parkOn .flights s
      else do
        lockGate s
        if lineWaits s c ls || unsettled s c then
          .ok (sendFlight s c 0 false false (leafHome leaf pa) (.lineStore va pa (bytesOf x n)) 0 ea (!(ls.any (fun l => (lineOf s k l).isNone))))
        else .ok (storeLines s k va pa (bytesOf x n))

/-- Translation and check of a slice operation or posted store on path 1 (R292, R293): the target, or a global reference. -/
def sliceTarget (s : State) (ea : Word) (n : Nat) : Res (Target × State) := do
  if ea.toNat % n ≠ 0 then trapAt cAlign ea s
  else
    let (tgt, s) ← translate s ea .wr
    match tgt with
    | .phys _ _ _ => do
      let (_, s) ← tokenCheck s ea .sliceop 1
      .ok (tgt, s)
    | .remote r => do
      remoteOk s r
      .ok (tgt, s)
    | _ => trapAt cXlatePerm ea s

/-- Before an access on path 1 leaves, the core gives up its own copy of the lines it touches when the region is held exclusive
(R286); a peeked line stays (R153). -/
def clearPath (s : State) (k : Nat) (op : SliceOp) : State :=
  (opSpan op).foldl (fun t p => (linesOf p.1 p.2).foldl (fun u l =>
    match lineOf u k l with | some x => if x.peeked then u else ousterLine u k l | none => u) t) s

/-- The dirty lines that an access writes back before it leaves: each adds a cycle to its result (R286). -/
def clearCost (s : State) (k : Nat) (op : SliceOp) : Nat :=
  (((opSpan op).flatMap (fun p => linesOf p.1 p.2)).dedup.filter (fun l => match lineOf s k l with | some x => x.dirty | none => false)).length

/-- An access that leaves for its slice once the core has given up its own copy of the lines (R286). -/
def sendClear (s : State) (c path : Nat) (ordered posted : Bool) (slice : Nat) (op : SliceOp) (extra : Nat) (ea : Word := 0) : State :=
  sendFlight (clearPath s (coreOf c) op) c path ordered posted slice op (extra + clearCost s (coreOf c) op) ea

/-- An access on path 1 leaves only when no access of its core on path 0 is out to its lines (R286). -/
def pathClear (s : State) (k : Nat) (op : SliceOp) : Res Unit :=
  if lineOut s k ((opSpan op).flatMap (fun p => linesOf p.1 p.2)) then parkOn .flights s else .ok ()

/-- A posted access outside handler mode: at most 64 of a core are out (R292); a fence of its context keeps it back on its way (R180). -/
def postNow (path : Nat) (ordered : Bool) (slice : Nat) (op : SliceOp) (s : State) : Res State :=
  match pathClear s (coreOf s.cur) op with
  | .error e => .error e
  | .ok () => if 64 ≤ postedCount s (coreOf s.cur) then parkOn .storesFull s else .ok (sendClear s s.cur path ordered true slice op 0)

/-- Writes to cells, and the links and pairs that publish them (R309). -/
def writesCell : SliceOp → Bool
  | .cell .. | .cset .. | .remoteWrite _ .cell => true
  | _ => false
/-- See `writesCell`. -/
def publishes : SliceOp → Bool
  | .link .. | .push _ | .remoteWrite _ .link => true
  | _ => false

/-- An access that changes something when it is performed. -/
def changes : SliceOp → Bool
  | .lineStore .. | .remoteWrite .. | .remoteRead _ _ _ _ true => true
  | .fence .. | .remoteRead .. | .remoteLoad .. | .stat .. => false
  | op => opWrites op && !(isLineOp op)

/-- Two accesses through global references to one block of 64 bytes, which no aligned access crosses. -/
def sameRemote (a b : SliceOp) : Bool := match remoteRef a, remoteRef b with | some x, some y => x.toNat / 64 = y.toNat / 64 | _, _ => false

/-- Two line accesses to one line. -/
def sameLine (a b : SliceOp) : Bool :=
  isLineOp a && isLineOp b && (opSpan a).any (fun p => (linesOf p.1 p.2).any (fun l => (opSpan b).any (fun q => (linesOf q.1 q.2).contains l)))

/-- Whether an earlier access `h` of one context keeps a later one `f` back: one that can still fault, before a write (R151); earlier posted
stores of the ordered class at one slice (R166), returning accesses of earlier groups (R164), accesses of path 0 to the same bytes of
another device or the same line (R152), a fence that names the path (R180), cell writes before a link or a pair (R309). -/
def keepsBack (h f : Flight Regs) : Bool :=
  (!h.done && h.posted && h.ordered && f.ordered && h.path = f.path && h.slice = f.slice) ||
    (!h.done && !h.posted && !f.posted && h.group < f.group) ||
    (!h.done && h.undo.isSome && changes f.op) ||
    (!h.done && h.path = 0 && f.path = 0 && (sameRemote h.op f.op || sameLine h.op f.op)) ||
    (match h.op with | .fence _ dst => nbit dst f.path | _ => false) ||
    (publishes f.op && writesCell h.op)

/-- Whether a flight can be performed now: its time has come, its write-backs are acknowledged, and no earlier access keeps it back. -/
def mayPerform (s : State) (f : Flight Regs) : Bool :=
  !f.done && f.fault.isNone && f.wb.isEmpty && f.due ≤ s.cycle && !(s.flights.any (fun h => h.ctx = f.ctx && h.id < f.id && keepsBack h f))

/-- Words for registers from d on that an undo keeps too. -/
def undoWords (r : Regs) (d : Nat) : List Word → Regs
  | [] => r
  | x :: l => undoWords (if d = 0 then r else { r with g := sput 0 r.g d x }) (d + 1) l

/-- The end of an access that returns words to registers from d on: their time, and what later accesses would undo to (R151, log 23). -/
def giveWords (s : State) (f : Flight Regs) (d : Nat) (l : List Word) : State :=
  if (coreAt s (coreOf f.ctx)).killed then s else
  let s := wgs s f.ctx d l
  let s := modCtx s f.ctx (fun y => { y with readyAt := max y.readyAt f.back })
  { s with flights := s.flights.map (fun h => if h.ctx = f.ctx && f.id < h.id then { h with undo := h.undo.map (fun r => undoWords r d l) } else h) }

/-- The end of a vector load. -/
def giveVec (s : State) (f : Flight Regs) (d : Nat) (x : Vec) : State :=
  if (coreAt s (coreOf f.ctx)).killed then s else
  let s := lateResult (wv s f.ctx d x) f.ctx f.id d f.back
  { s with flights := s.flights.map (fun h => if h.ctx = f.ctx && f.id < h.id then { h with undo := h.undo.map (fun r => { r with v := sput 0 r.v d x }) } else h) }

/-- The same for one register. -/
def giveResult (s : State) (f : Flight Regs) (d : Nat) (x : Word) : State := giveWords s f d [x]

/-- A flight by its number. -/
def flightOf (s : State) (id : Nat) : Option (Flight Regs) := s.flights.find? (fun f => f.id = id)
def setFlight (s : State) (f : Flight Regs) : State := { s with flights := s.flights.map (fun h => if h.id = f.id then f else h) }

/-- Take a flight out. -/
def dropFlight (s : State) (id : Nat) : State := { s with flights := s.flights.filter (fun f => f.id ≠ id) }

/-- An access is over: flags that waited for it are shown (R53). -/
def endFlight (s : State) (f : Flight Regs) : State := showFlags (dropFlight s f.id) f.ctx

/-- A posted access was performed: its acknowledgement is out; any other one that gives no result is over. -/
def donePosted (s : State) (f : Flight Regs) : State := if f.posted && f.ctx < 65536 then setFlight s { f with done := true } else endFlight s f

/-! ### Request records (R42, R127, R128) -/

/-- Whether an address is of a request table: traffic class 5, which only request pages have (Table 21-2), or the table that a STEP node of a
live instance names (R127; log 29). -/
def inRequestTable (s : State) (va : Nat) : Bool :=
  match tokenCovering s va, translateNow s va true with
  | some t, .ok (_, _, e) =>
    t.mode = .commons && (leafClass e = 5 || s.graphs.any (fun g => match g.2 with
      | some r => r.live && (List.range r.count).any (fun i => nodeKind s r i = 5 && tokenCovering s (nodeWord s r i 1 % 2 ^ 53) = some t)
      | none => false))
  | _, _ => false

/-- A table of up to 65,536 records (R127) that a STEP node names holds a physical address: page by page of its region. -/
def tableHolds (s : State) (va pa : Nat) : Bool :=
  match tokenCovering s va with
  | none => false
  | some t => t.mode = .commons && (List.range (min (2 ^ t.lsize) 0x1000000 / 0x10000 + 1)).any (fun j =>
      match translateNow s (t.base + 0x10000 * j) true with
      | .ok (q, _, _) => 0x10000 * j < 2 ^ t.lsize && q ≤ pa && pa < q + min (2 ^ t.lsize - 0x10000 * j) 0x10000
      | .error _ => false)

/-- The live graph instances. -/
def liveGraphs (s : State) : List GraphRun := s.graphs.filterMap (fun g => g.2.filter (·.live))

/-- A byte of a request record that only the host, the batch former, RQNOTE, RQFLT and a request fault change (R42, R128), reached through a
page of class `cls`. -/
def recordByte (s : State) (cls pa : Nat) : Bool :=
  pa % 256 < 0xC0 && (cls = 5 || (liveGraphs s).any (fun r => (List.range r.count).any (fun i => nodeKind s r i = 5 && tableHolds s (nodeWord s r i 1 % 2 ^ 53) pa)))

/-- A byte of the slot area of a batch graph, which only STEP and request faults write (R129, Table 07-5). -/
def slotByte (s : State) (pa : Nat) : Bool := (List.range 16).any (fun g => match slotArea s g with | some a => a ≤ pa && pa < a + 0x10000 | none => false)

/-- A byte of a node status of a live instance, which only the walker writes (R133, Table 07-9). -/
def statusByte (s : State) (pa : Nat) : Bool := (liveGraphs s).any (fun r => (List.range r.count).any (fun i =>
  match translateNow s (r.statuses + 8 * i) false with | .ok (q, _, _) => q ≤ pa && pa < q + 8 | .error _ => false))

/-- A byte that no write of a context or an engine changes: it is dropped there (R4, R42, R128, R129, R133; log 104). -/
def barsWrite (s : State) (cls pa : Nat) : Bool := recordByte s cls pa || slotByte s pa || statusByte s pa

/-- A write of a context or an engine, performed at its slice where nothing bars it (R4, R161, R239). -/
def programWrite (s : State) (cls pa : Nat) (l : List Byte) : State :=
  let kept := l.zipIdx.filter (fun e => !(barsWrite s cls (pa + e.2)))
  if kept.length = l.length then performWrite s pa l
  else if kept.isEmpty || cxlGone s pa then s
  else bumpLine (kept.foldl (fun t e => setByte t (pa + e.2) e.1) s) (pa / 256)

/-- A fault of an access already on its way (R151): it waits until every earlier access of the context has taken its full effect; then the
registers of the instructions after it are undone, and the context traps at it, when the answer has come back (R12); its later accesses,
none of which was performed if it changes anything, are dropped. A killed core takes no trap. -/
def flightFault (s : State) (f : Flight Regs) (i : FaultInfo) : State :=
  if (coreAt s (coreOf f.ctx)).killed then dropFlight s f.id
  else if s.cycle < f.back || s.flights.any (fun h => h.ctx = f.ctx && h.id < f.id && (!h.posted || !h.done)) then setFlight s { f with fault := some i }
  else
    let s := { s with flights := s.flights.filter (fun h => h.id ≠ f.id && !(h.ctx = f.ctx && f.id < h.id && !h.done)) }
    let s := modCtx s f.ctx (fun y => { y with
      regs := f.undo.getD y.regs, pc := f.pc, run := .ready, ownBytes := [] })
    takeTrap s f.ctx i

end Sys2Proof.Machine
end

