-- ==== Sys2Proof/Machine/Kill.lean ====
section
/-! DEFINITION. The kill of a core (R203, R214, R215). -/

namespace Sys2Proof.Machine

/-- The registers and modes of a copy of a context that runs on alone: `moved` to another core it issues again what it waits for, but for an
access whose answer is forwarded to it or a transfer that its engine performs; where the leading copy stays it goes on waiting, but for the other copy. -/
def aloneCopy (moved : Bool) (x y : Ctx) : Ctx :=
  { x with
    lease := y.lease, lockstep := false, lockPass := false
    run := match x.run with
      | .stalled .completion => .stalled .completion
      | .stalled .transfer => .stalled .transfer
      | .stalled w => if moved || w = .lockstep then .ready else .stalled w
      | r => r }

/-- The surviving copy of a lockstep context runs on alone (R214). The trailing copy consumes the inputs that were forwarded to it, so it
comes to where the leading one stood before its next output, and results still out are forwarded to it too (R213; log 24). Tokens and shares
held under the killed leading copy's agent id do not pass to it (the model's choice: the spec is silent; log 114). -/
def loseLockstep (s : State) (c : Nat) : State :=
  let x := ctxOf s c
  if !x.lockstep then s
  else
    let p := partnerOf c
    let s := if x.run = .trailing then setCtx s p (aloneCopy false (ctxOf s p) (ctxOf s p))
      else
        let s := modCluster s (vertOf c) (fun y => { y with transfers := y.transfers.map (fun t => if t.ctx = c then { t with ctx := p } else t) })
        { setCtx s p (aloneCopy true x (ctxOf s p)) with flights := s.flights.map (fun f => if f.ctx = c && !f.posted then { f with ctx := p } else f) }
    reportFor s (coreOf p) 3 (agentOf s p) (ctxOf s p).pc { code := cLockstep, reason := 1 }

/-- What a context leaves when its core is killed: nothing but its lease, and which node it ran for, until the core is contained (R215); what
came with the slot of its handler is parked on the slot again, what it took from the reservoir goes back, of a handler that had not committed
(R203, R218, R304). -/
def killCtx (s : State) (c : Nat) : State :=
  let s := returnTokens (loseLockstep s c) c
  let x := ctxOf s c
  let s := modCore s (coreOf c) (fun y => { y with reservoir := y.reservoir ++ (if x.committed then [] else x.takenItems) })
  setCtx s c { Ctx.reset with lease := x.lease, gang := x.gang, member := x.member, pair := x.pair, run := .stopped }

/-- The routes from and to a killed core are released (R143): a receive port that it fed ends CHGET with DEAD-PEER, a chord closing toward
it is gone; its holder finds an open one dead at its next CHPUT. -/
def releaseRoutes (s : State) (k : Nat) : State :=
  let s := match (coreAt s k).chord with
    | some h => modCore (modCore s h.dest (fun y => { y with portHolder := none, portDead := true, port := [], portIn := [] })) k (fun x => { x with chord := none })
    | none => s
  match (coreAt s k).portHolder with
  | some h =>
    let s := modCore s k (fun x => { x with portHolder := none, port := [], portIn := [] })
    modCore s h (fun y => match y.chord with | some z => if z.closing then { y with chord := none } else y | none => y)
  | none => s

/-- A core is killed in this cycle: its contexts stop, registers, tiles, scratchpad and aggregation sums are lost, its inbox is sealed,
the messages of its handlers count as accepted (R203), but for those whose handlers have committed; the apex gets a record; an access
core's jobs end with DEAD-PEER (R216). -/
def killCore (s : State) (k c : Nat) : State :=
  if !(coreExists k) || (coreAt s k).killed then s
  else
    let place := (ctxOf s c).pc
    let left := ((List.range 8).map (8 * k + ·)).filter (fun i => (ctxOf s i).committed)
    let s := left.foldl releaseHandler s
    let s := (List.range 8).foldl (fun t i => killCtx t (8 * k + i)) s
    let s := (gangsOn s k).foldl loseGang s
    let s := modCore s k (fun x => { x with
      killed := true, sealed_ := true, tiles := [], scratch := [], agg := [], dcache := [], icache := [], fills := [], fetches := [], tlb := [], tokenCache := [],
      n := [], npres := 0, prefs := [], bankWrites := [], i4next := [], reservoir := x.reservoir ++ x.arriving.map (·.1), arriving := [], requests := [], inbox := x.inbox.map (fun q => match q.phase with | .running _ => { q with phase := .waiting } | _ => q) })
    let s := { s with flights := (s.flights.filter (fun f => coreOf f.ctx ≠ k || (f.wb.isEmpty && !(isLineOp f.op)))).map (fun f => if coreOf f.ctx = k then { f with posted := true, undo := none } else f) }
    let s := releaseRoutes s k
    let s := if isAccess k then
        modCluster s (vertexOf k) (fun x =>
          let all := x.completed ++ (x.jobs.filter (fun j => j.running.isSome)).map (fun j => { j with running := none, code := cDeadPeer })
          { x with
          transfers := [], completed := all.drop (all.length - 64)
          jobs := x.jobs.filter (fun j => j.running.isNone) })
      else s
    let s := reportFor s k 0 (agentOf s c) place { code := cChecker }
    -- both apex cores of a die killed is told to the host (Table 27-3)
    if isApex k && (coreAt s (k ^^^ 1)).killed then hostEvent s 4 (BitVec.ofNat 64 (dieOf (vertexOf k))) else s

end Sys2Proof.Machine
end

