-- ==== Sys2Proof/Machine/Operands.lean ====
section
/-! DEFINITION. Vector operand forms: lanes, the source slots with their q-port pops, and the masked destination
(R73, R78, R261 to R264). -/

namespace Sys2Proof.Machine

/-- Bits of a lane (R261). -/
def laneBits (f : Nat) : Nat := if laneCount f = 16 then 32 else 16
/-- Element i of b bits of a register (R73, R271). -/
def lane (x : Vec) (b i : Nat) : Nat := (x.toNat >>> (b * i)) % 2 ^ b

/-- Elements of b bits, lowest first, as one number. -/
def packList (b : Nat) : List Nat → Nat
  | [] => 0
  | x :: l => x % 2 ^ b + 2 ^ b * packList b l
/-- A register from its elements. -/
def packVec (b : Nat) (l : List Nat) : Vec := BitVec.ofNat 512 (packList b l)
/-- A register with some elements replaced, from element k up. -/
def mergeVec (b k : Nat) (old : Vec) : List (Option Nat) → Vec
  | [] => old
  | none :: l => mergeVec b (k + 1) old l
  | some x :: l => mergeVec b (k + 1) (BitVec.ofNat 512 (setBits old.toNat (b * k + b - 1) (b * k) x)) l

/-- The rounding mode of an instruction: its rnd field, 0 standing for sr.rmode (R50, R264). -/
def modeOf (s : State) (c rnd : Nat) : Nat := if rnd = 0 then (ctxOf s c).rmode.toNat else rnd

/-- The inbound and outbound halves of port j of the core of context c (R78, R140). -/
def qInOf (s : State) (k j : Nat) : List Vec := sget [] (coreAt s k).qIn j
def qOutOf (s : State) (k j : Nat) : List Vec := sget [] (coreAt s k).qOut j
/-- The contexts of a core that are parked on a half that has just moved go on in the next cycle (R140). -/
def holdParked (s : State) (k : Nat) (w : Stall) : State :=
  (List.range 8).foldl (fun t i => modCtx t (8 * k + i) (fun x => if x.run = .stalled w then { x with heldUntil := max x.heldUntil (s.cycle + 1) } else x)) s

/-- So does a transfer of the access engine that is parked on it. -/
def holdEngine (s : State) (k j : Nat) (out : Bool) : State :=
  modCluster s (vertexOf k) (fun x => { x with transfers := x.transfers.map (fun t =>
    if (match t.op with | .qpush _ a b o => a = k && b = j && o = out | .gather _ _ _ (some p) => p = (k, j) && !out | _ => false) then { t with due := max t.due (s.cycle + 1) } else t) })

/-- A half changes; who is parked on it when it was empty, or full with its 16 entries, goes on in the next cycle (R140). -/
def setQIn (s : State) (k j : Nat) (l : List Vec) : State :=
  let old := qInOf s k j
  let s := modCore s k (fun x => { x with qIn := sput [] x.qIn j l })
  let s := if old.isEmpty && !l.isEmpty then holdParked s k (.qPop j) else s
  if 16 ≤ old.length && l.length < 16 then holdEngine s k j false else s
/-- See `setQIn`. -/
def setQOut (s : State) (k j : Nat) (l : List Vec) : State :=
  let old := qOutOf s k j
  let s := modCore s k (fun x => { x with qOut := sput [] x.qOut j l })
  let s := if old.isEmpty && !l.isEmpty then holdEngine s k j true else s
  if 16 ≤ old.length && l.length < 16 then holdParked s k (.qPush j) else s
/-- The access core that serves an execute core. -/
def accessOf (k : Nat) : Nat := 16 * vertexOf k + 8

/-- The queue of a port has lost the access core that serves it, or the memory region behind it (R140). -/
def queueLost (s : State) (k j : Nat) : Bool := (coreAt s (accessOf k)).killed || (coreAt s k).queuesLost.contains j

/-- How a pop of an empty half, or a push to a full one, ends: the context waits, or QUEUE-LOST when the queue is lost (R140). -/
def queueStop {α : Type} (s : State) (j : Nat) (w : Stall) : Res α :=
  if queueLost s (coreOf s.cur) j then trapWith cQueueLost s else parkOn w s

/-- The pops of the instruction of s.cur keep the place of their first issue (R78). -/
def keepPop (s : State) (ports : List Nat) : State :=
  modCtx s s.cur (fun x => { x with popSince := some (x.popSince.getD (ports, s.cycle)) })

/-- Another context of the core whose pop of one of these ports issued earlier and still waits (R78). -/
def popAhead (s : State) (ports : List Nat) : Bool :=
  let c := s.cur
  let since := match (ctxOf s c).popSince with | some (_, t) => t | none => s.cycle
  (List.range 8).any (fun i =>
    8 * coreOf c + i ≠ c && (match (ctxOf s (8 * coreOf c + i)).popSince with | some (l, t) => t < since && ports.any l.contains | none => false))

/-- The port of the first source slot, in slot order, whose pop finds no entry; `seen` are the ports of the slots before it (R78, R262). -/
def shortPort (have_ : Nat → Nat) (seen : List Nat) : List Nat → Option Nat
  | [] => none
  | p :: l => if have_ p ≤ (seen.filter (· = p)).length then some p else shortPort have_ (p :: seen) l

/-- Whether every pop and the push that a vector instruction makes can be served; nothing is popped before that, and entries go to contexts
in the order in which their pops issued (R78); a push is an output of a lockstep context (R213). -/
def portsServe (s : State) (reads : List (BitVec 6)) (dest : Option (BitVec 6)) : Res Unit :=
  let k := coreOf s.cur
  let ports := (reads.filter (fun r => 48 ≤ r.toNat)).map (fun r => r.toNat - 48)
  let w := if ports.isEmpty then s else keepPop s ports
  if unsettled s s.cur && (!ports.isEmpty || (match dest with | some d => 48 ≤ d.toNat | none => false)) then parkOn .flights w
  else if !ports.isEmpty && popAhead s ports then parkOn (.qPop (ports.headD 0)) w
  else match shortPort (fun p => (qInOf s k p).length) [] ports with
  | some j => queueStop w j (.qPop j)
  | none =>
    match dest with
    | some d => if 48 ≤ d.toNat && d.toNat < 52 && 16 ≤ (qOutOf s k (d.toNat - 48)).length then queueStop w (d.toNat - 48) (.qPush (d.toNat - 48))
      else if 48 ≤ d.toNat then lockGate w else .ok ()
    | none => .ok ()

/-- One source slot: a v register, or a pop that in handler mode marks the handler committed-in-part (R78, R154). -/
def readSlot (s : State) (r : BitVec 6) : Vec × State :=
  let c := s.cur
  if r.toNat < 48 then (rv s c r.toNat, s)
  else match qInOf s (coreOf c) (r.toNat - 48) with
    | [] => (0, s)
    | x :: l => (x, markCip (setQIn s (coreOf c) (r.toNat - 48) l) c)

/-- The sources a, b and c, of which the first n are used, in slot order (R262). -/
def readSlots (s : State) (o : OpV) (n : Nat) : Vec × Vec × Vec × State :=
  let (a, s) := if 1 ≤ n then readSlot s o.a else (0, s)
  let (b, s) := if 2 ≤ n then readSlot s o.b else (0, s)
  let (x, s) := if 3 ≤ n then readSlot s o.c else (0, s)
  (a, b, x, s)

/-- A push toward the access core (R78, R263). -/
def pushOut (s : State) (j : Nat) (x : Vec) : State :=
  markCip (setQOut s (coreOf s.cur) j (qOutOf s (coreOf s.cur) j ++ [x])) s.cur

/-- Eight free words: the bits of a push that the instruction does not write (log 17). -/
def freeVec (s : State) : Vec × State :=
  let f := fun i => Config.remoteWord (s.free + i)
  (BitVec.ofNat 512 (packList 64 ((List.range 8).map (fun i => (f i).toNat))), { s with free := s.free + 8 })

/-- The destination of a vector instruction: elements of b bits from element k up, those not written keep their value; a q port
is pushed whole (R263). -/
def writeDest (s : State) (d : BitVec 6) (b k : Nat) (l : List (Option Nat)) : State :=
  if d.toNat < 48 then wv s s.cur d.toNat (mergeVec b k (rv s s.cur d.toNat) l)
  else if b * l.length = 512 && l.all (·.isSome) then pushOut s (d.toNat - 48) (mergeVec b k 0 l)
  else
    let (old, s) := freeVec s
    pushOut s (d.toNat - 48) (mergeVec b k old l)

/-- Whether bit i of the instruction's predicate is 1. -/
def predOn (s : State) (o : OpV) (i : Nat) : Bool := nbit (rp s s.cur o.pred.toNat).toNat i

/-- A write-masking instruction of n sources: lane i of the destination, where the predicate lets it be written, is what `f` gives
for its operands; the flags of the lanes written go to sr.flags (R263, R264). -/
def laneOp (s : State) (o : OpV) (n : Nat) (f : State → Vec → Vec → Vec → Nat → Nat × Flags) : Res State :=
  match portsServe s (([o.a, o.b, o.c]).take n) (some o.d) with
  | .error e => .error e
  | .ok () =>
    let (a, b, x, s) := readSlots s o n
    let w := laneBits o.fmt.toNat
    let r := (List.range (laneCount o.fmt.toNat)).map (fun i => if predOn s o i then some (f s a b x i) else none)
    let fl := r.foldl (fun acc e => match e with | some (_, g) => acc ||| g | none => acc) 0
    .ok (raiseFlags (writeDest s o.d w 0 (r.map (fun e => e.map (·.1)))) s.cur fl)

/-- Clamping to the range of an integer format when limm[0] is set, then the low bits (R266). -/
def intLane (f : Nat) (sat : Bool) (r : Int) : Nat :=
  let (lo, hi) := intRange f
  ((if sat then max lo (min hi r) else r) % 2 ^ fmtBits f).toNat

/-- A lane of an integer format as a number (R46, R266). -/
def intVal (f x : Nat) : Int := if f % 2 = 1 then (x : Int) else signedN x (fmtBits f)

/-- The sign bit of a float lane (R266). -/
def topBit (f : Nat) : Nat := 2 ^ (expBits f + fracBits f)

/-- −0 below +0, otherwise the order of values (R267). -/
def minMaxLess (f x y : Nat) : Bool :=
  let a := decodeIeee f x
  let b := decodeIeee f y
  nlt a b || (neq a b && x % 2 ^ fmtBits f ≥ topBit f && y < topBit f)

/-- Float VMIN and VMAX (R267). -/
def floatMinMax (f : Nat) (wantMax : Bool) (x y : Nat) : Nat × Flags :=
  let a := decodeIeee f x
  let b := decodeIeee f y
  let fl := if isSig a || isSig b then fNV else 0
  if isNan a && isNan b then (canonNan f, fl)
  else if isNan a then (y, fl)
  else if isNan b then (x, fl)
  else if minMaxLess f x y then (if wantMax then y else x, fl) else (if wantMax then x else y, fl)

/-- A rounded float lane with the flags of what came before it. -/
def rounded (mode f : Nat) (p : Num × Flags) : Nat × Flags :=
  let (y, fl) := roundNum mode f false p.1
  (y, fl ||| p.2)

/-- Float sum and product of two lanes, each rounded once (R266). -/
def floatAdd (mode f x y : Nat) : Nat × Flags := rounded mode f (nadd mode (decodeIeee f x) (decodeIeee f y))
def floatSub (mode f x y : Nat) : Nat × Flags := rounded mode f (nadd mode (decodeIeee f x) (nneg (decodeIeee f y)))
def floatMul (mode f x y : Nat) : Nat × Flags := rounded mode f (nmul (decodeIeee f x) (decodeIeee f y))

/-- x·y + z exactly, with the flags of both operations (R266). -/
def mulAdd (mode : Nat) (x y z : Num) : Num × Flags :=
  let (p, f1) := nmul x y
  let (r, f2) := nadd mode p z
  (r, f1 ||| f2)

/-- VABS and VNEG of a float lane (R266). -/
def floatSign (f : Nat) (neg : Bool) (x : Nat) : Nat × Flags :=
  match decodeIeee f x with
  | .nan sg => (canonNan f, if sg then fNV else 0)
  | _ => (if neg then x ^^^ topBit f else x % topBit f, 0)

/-- VArith of R266: a two-source lane, integer or float. -/
def arith2 (s : State) (o : OpV) (fi : Int → Int → Int) (ff : Nat → Nat → Nat → Nat → Nat × Flags) : Res State :=
  let f := o.fmt.toNat
  let w := laneBits f
  let sat := nbit o.limm.toNat 0
  laneOp s o 2 (fun t a b _ i =>
    if isFloatFmt f then ff (modeOf t t.cur o.rnd.toNat) f (lane a w i) (lane b w i)
    else (intLane f sat (fi (intVal f (lane a w i)) (intVal f (lane b w i))), 0))

/-- A one-source lane. -/
def lane1 (s : State) (o : OpV) (g : State → Nat → Nat × Flags) : Res State :=
  let w := laneBits o.fmt.toNat
  laneOp s o 1 (fun t a _ _ i => g t (lane a w i))

/-- A two-source lane that moves bits (R264). -/
def bits2 (s : State) (o : OpV) (g : Nat → Nat → Nat) : Res State :=
  let w := laneBits o.fmt.toNat
  laneOp s o 2 (fun _ a b _ i => (g (lane a w i) (lane b w i), 0))

end Sys2Proof.Machine
end

