-- ==== Sys2Proof/Machine/MemInstr.lean ====
section
/-! DEFINITION. Loads and stores, peeks, prefetches, flushes, slice operations, posted stores, CMLS, AGG and FENCE
(R282 to R296, R180). -/

namespace Sys2Proof.Machine

/-- A loaded value of n bytes, sign-extended or not (R284). -/
def loaded (kind : BitVec 3) (n x : Nat) : Word := if kind = 1 then sextN x (8 * n) else BitVec.ofNat 64 x

/-- LD (R284). -/
def execLd (o : OpM) (s : State) : Host.Outcome State Fault Refusal :=
  runSeq (.ld o) s (fun t =>
    let n := 2 ^ o.width.toNat
    loadTo t (effAddr t t.cur o) n .read (o.kind = 1) false o.d.toNat (fun x u => wg u u.cur o.d.toNat (loaded o.kind n x)))

/-- ST (R284). -/
def execSt (o : OpM) (s : State) : Host.Outcome State Fault Refusal :=
  runSeq (.st o) s (fun t =>
    let n := 2 ^ o.width.toNat
    memWrite t (effAddr t t.cur o) n ((rg t t.cur o.d.toNat).toNat % 2 ^ (8 * n)))

/-- LDV (R284): to a v register, or a push to a q port. -/
def execLdv (o : OpM) (s : State) : Host.Outcome State Fault Refusal :=
  runSeq (.ldv o) s (fun t =>
    if o.d.toNat < 48 then
      loadTo t (effAddr t t.cur o) 64 .read false true o.d.toNat (fun x u => resultAt (wv u u.cur o.d.toNat (BitVec.ofNat 512 x)) u.cur o.d.toNat
        (if (facetOf u (effAddr t t.cur o)).isSome then u.cycle + 3 else u.cycle + 4))
    else do
      let (x, t) ← memRead t (effAddr t t.cur o) 64 .read
      portsServe t [] (some o.d)
      .ok (pushOut t (o.d.toNat - 48) (BitVec.ofNat 512 x)))

/-- The checks of a store abroad whose value a queue is to give come before the pop, which no fault can undo (R151, R284, R292). -/
def checkAbroad (s : State) (ea : Word) (ask : RemoteAsk) : Res Unit :=
  if ea.toNat % 64 ≠ 0 then trapAt cAlign ea s
  else if 0x1FFFFF00000000 ≤ ea.toNat % 2 ^ 53 then trapAt cXlatePerm ea s
  else remoteCheck s ea ask

/-- STV (R284): from a v register, or a pop, which is made only when the store is: abroad, once it can no longer fault. -/
def execStv (o : OpM) (s : State) : Host.Outcome State Fault Refusal :=
  runSeq (.stv o) s (fun t => do
    if 48 ≤ o.d.toNat then settle t
    let ea := effAddr t t.cur o
    if 48 ≤ o.d.toNat && ea.toNat / 2 ^ 53 ≠ t.device then checkAbroad t ea .store
    let u ← memWrite t ea 64 (readSlot t o.d).1.toNat
    portsServe t [o.d] none
    .ok (readSlot u o.d).2)

/-- The reads of LDS in lane order (R285). -/
def readLanes (s : State) (size : Nat) : List Word → Res (List Nat × State)
  | [] => .ok ([], s)
  | e :: l => do
    let (x, s) ← memRead s e size .read
    let (r, s) ← readLanes s size l
    .ok (x :: r, s)

/-- Cycles that LDS takes: one more for each distinct line after the first (R285). -/
def lanesTime (l : List Word) : Nat :=
  (if l.any (fun e => e.toNat % 2 ^ 53 < 0x1FFFFF00000000) then 4 else 3) + ((l.map (fun e => e.toNat / 32)).dedup.length - 1)

/-- LDS (R285): b is the stride. -/
def execLds (o : OpM) (s : State) : Host.Outcome State Fault Refusal :=
  runSeq (.lds o) s (fun t => do
    let size := 2 ^ o.width.toNat
    let l := laneAddrs t t.cur o
    let (r, t) ← readLanes t size l
    .ok (resultAt (wv t t.cur o.d.toNat (packVec (8 * size) r)) t.cur o.d.toNat (t.cycle + lanesTime l)))

/-- LD.P (R162, R287): a commons line is read from the copy a core peeked, or at the slice, which fills it. -/
def execLdP (o : OpM) (s : State) : Host.Outcome State Fault Refusal :=
  runSeq (.ldP o) s (fun t => do
    let c := t.cur
    let k := coreOf c
    let n := 2 ^ o.width.toNat
    let ea := effAddr t c o
    let plain := fun (u : State) => loadTo u ea n .peek (o.kind = 1) false o.d.toNat (fun x v => wg v c o.d.toNat (loaded o.kind n x))
    if ea.toNat % n ≠ 0 then trapAt cAlign ea t
    else
      let (tgt, t) ← translate t ea .rd
      match tgt with
      | .phys _ pa leaf =>
        if !(leafWr leaf) then plain t
        else
          let (m, t) ← tokenCheck t ea .peek 0
          if m ≠ .commons then plain t
          else
            match lineOf t k (pa / 32) with
            | some x =>
              if fenced t c 0 then parkOn .flights t
              else if x.poison then trapAt cPoison ea t
              else .ok (notBefore (useLines (wg t c o.d.toNat (loaded o.kind n ((x.data.toNat >>> (8 * (pa % 32))) % 2 ^ (8 * n)))) k [pa / 32]) c (t.cycle + 4))
            | none => .ok (sendFlight t c 0 false false (leafHome leaf pa) (.load pa n (o.kind = 1) o.d.toNat) 0 ea)
      | _ => plain t)

/-- Whether a tracked load or a CMLS of the context is out (R288; log 23). -/
def trackBusy (s : State) (c : Nat) (cm : Bool) : Bool :=
  s.flights.any (fun f => f.ctx = c && (match f.op with | .tracked .. => cm | .cmls .. => true | _ => false))

/-- An address of a scratchpad window of Table 05-1. -/
def isFacetAddr (ea : Word) : Bool :=
  let va := ea.toNat % 2 ^ 53
  (0x1FFFFF00000000 ≤ va && va < 0x1FFFFF01000000) || (0x1FFFFF80000000 ≤ va && va < 0x1FFFFF80200000)

/-- LDT (R288): on an exclusive region it comes behind the core's accesses to its line (R286). -/
def execLdt (o : OpM) (s : State) : Host.Outcome State Fault Refusal :=
  runSeq (.ldt o) s (fun t => do
    let c := t.cur
    let n := 2 ^ o.width.toNat
    let ea := effAddr t c o
    let noForm := fun (u : State) => (.error (.trap { code := cXlatePerm, addr := ea, keepTrack := true } u) : Res State)
    if ea.toNat % n ≠ 0 then trapAt cAlign ea t
    else if ea.toNat / 2 ^ 53 ≠ t.device || isFacetAddr ea then noForm t
    else
      let (tgt, t) ← translate t ea .rd
      match tgt with
      | .phys va pa leaf => do
        let frozen := match tokenCovering t va with | some k => k.mode = .frozen | none => false
        if leafWr leaf && frozen then trapAt cXlatePerm ea t
        else
          let (m, t) ← (if leafWr leaf then tokenCheck t ea .peek 0 else .ok (Mode.frozen, t))
          let op := SliceOp.tracked pa n (o.kind = 1) o.d.toNat
          if trackBusy t c false || (m = .exclusive && lineBusy t (coreOf c) (pa / 32)) then parkOn .flights t
          else do
            pathClear t (coreOf c) op
            .ok (sendClear t c 0 false false (leafHome leaf pa) op 0 ea)
      | _ => trapAt cXlatePerm ea t)

/-- A prefetch whose page is known asks for its line, if nothing would fault it (R290). -/
def prefLine (s : State) (c va pa : Nat) (leaf : Word) (l2 : Bool) (late : Nat := 0) : State :=
  let ok := !(leafWr leaf) || (tokenCheckNow s (holderWords s c 0) (graphOfCtx s c) va .peek).isNone
  if !ok || isPoisoned s pa then s
  else if !l2 && (lineOf s (coreOf c) (pa / 32)).isSome then s
  else askFill s (coreOf c) c (pa / 32) (leafHome leaf pa) (leafWr leaf && (match tokenCovering s va with | some k => k.mode = .commons | none => false)) l2 late

/-- PREF (R290): it waits for nothing and faults nothing; its line comes later, for the core's cache or for the slice only. A page in no TLB
is walked first (R92). -/
def execPref (o : OpM) (s : State) : Host.Outcome State Fault Refusal :=
  runPure (.pref o) s (fun t =>
    let c := t.cur
    let ea := effAddr t c o
    let va := ea.toNat % 2 ^ 53
    if ea.toNat / 2 ^ 53 ≠ t.device || 0x1FFFFF00000000 ≤ va then t else
    match tlbLookup t (coreOf c) va with
    | some (e, n, t) => if leafRd e.leaf then prefLine t c va (leafPa e.page va e.leaf) e.leaf (o.kind = 1) n else t
    | none => modCore (askWalk t c va) (coreOf c) (fun x => { x with prefs := x.prefs ++ [(va, c, decide (o.kind = 1))] }))

/-- A range of addresses cut at 64 KiB pages. -/
def pieces (va n : Nat) : List (Nat × Nat) :=
  (List.range (n / 65536 + 2)).filterMap (fun i =>
    let lo := max va ((va / 65536 + i) * 65536)
    let hi := min (va + n) ((va / 65536 + i + 1) * 65536)
    if lo < hi then some (lo, hi - lo) else none)

/-- The lines of a core's data cache in a range, with the address of each: pages without an entry hold none (R289). -/
def cachedIn (s : State) (k va n : Nat) : List (Nat × Nat) :=
  (pieces va n).flatMap (fun p =>
    if 0x1FFFFF00000000 ≤ p.1 then [] else
    match walkNow s p.1 with
    | .fault _ => []
    | .leaf page _ e =>
      let pa := leafPa page p.1 e
      (coreAt s k).dcache.filterMap (fun x => if pa ≤ 32 * x.1 && 32 * x.1 < pa + p.2 then some (p.1 + (32 * x.1 - pa), x.1) else none))

/-- ACQ and FLUSH translate each page of their range, which is walked when no TLB holds it; one without a valid entry is passed over, and so is
a facet window (R92, R289). -/
def rangePages (s : State) (c : Nat) : List (Nat × Nat) → Res State
  | [] => .ok s
  | p :: l =>
    if 0x1FFFFF00000000 ≤ p.1 || (ctxOf s c).walkFails.any (fun f => f.1 = p.1) then rangePages s c l
    else match tlbLookup s (coreOf c) p.1 with
    | none => parkOn (.walk p.1) (askWalk s c p.1)
    | some (_, n, t) => rangePages (addLate t c n) c l

/-- Bytes of the range of a cache-line instruction (R289). -/
def rangeBytes (o : OpM) : Nat := (o.offset.toNat + 1) * 32

/-- Whether a context of a core holds the region of an address, whose lines ACQ leaves (R165). -/
def coreHolds (s : State) (k va : Nat) : Bool :=
  match tokenCovering s va with
  | none => false
  | some t => t.mode = .exclusive && (List.range 8).any (fun i => holdsToken s (holderWords s (8 * k + i) 0) (graphOfCtx s (8 * k + i)) t)

/-- ACQ (R165, R289). -/
def execAcq (o : OpM) (s : State) : Host.Outcome State Fault Refusal :=
  runSeq (.acq o) s (fun t => do
    let k := coreOf t.cur
    let ea := rg t t.cur o.a.toNat
    if ea.toNat % 32 ≠ 0 then trapAt cAlign ea t
    else if ea.toNat / 2 ^ 53 ≠ t.device then .ok t
    else
      let t ← rangePages t t.cur (pieces (ea.toNat % 2 ^ 53) (rangeBytes o))
      .ok ((cachedIn t k (ea.toNat % 2 ^ 53) (rangeBytes o)).foldl (fun u e =>
      match lineOf u k e.2 with | some x => if x.peeked && !(coreHolds t k e.1) then setLine u k e.2 none else u | none => u) t))

/-- The lines of a range that FLUSH acts on: those of regions that the context holds or shares (R291). -/
def flushable (s : State) (c va n : Nat) : List Nat :=
  let ws := holderWords s c 0
  let g := graphOfCtx s c
  (cachedIn s (coreOf c) va n).filterMap (fun e =>
    match tokenCovering s e.1 with
    | some t => if t.mode ≠ .commons && (holdsToken s ws g t || (!t.opened && sharesToken s ws g t)) then some e.2 else none
    | none => none)

/-- Write lines back, and drop them when they are to be invalidated. -/
def flushLines (s : State) (k : Nat) (inv : Bool) (l : List Nat) : State :=
  l.foldl (fun t a => if inv then ousterLine t k a else writeBackLine t k a) s

/-- D and W of R117 for the dirty lines among some lines. -/
def flushCost (s : State) (c : Nat) (l : List Nat) : Nat × Nat :=
  let dirty := l.filter (fun a => match lineOf s (coreOf c) a with | some x => x.dirty | none => false)
  (dirty.length, dirty.foldl (fun m a => match lineOf s (coreOf c) a with | some x => max m (2 * hop c x.home) | none => m) 0)

/-- FLUSH (R291). -/
def execFlush (o : OpM) (s : State) : Host.Outcome State Fault Refusal :=
  runSeq (.flush o) s (fun t => do
    let c := t.cur
    let ea := rg t c o.a.toNat
    if ea.toNat % 32 ≠ 0 then trapAt cAlign ea t
    else
      outputGate t
      sendBuffer t (.slice false 0 (.flush ea.toNat (rangeBytes o) (o.kind = 1))) (fun u =>
        if ea.toNat / 2 ^ 53 ≠ u.device then .ok u
        else if s.flights.any (fun f => f.ctx = c && isLineOp f.op) then parkOn .flights u
        else do
          passFence u 0
          let u ← rangePages u c (pieces (ea.toNat % 2 ^ 53) (rangeBytes o))
          let l := flushable u c (ea.toNat % 2 ^ 53) (rangeBytes o)
          let (d, w) := flushCost u c l
          .ok (notBefore (flushLines u (coreOf c) (o.kind = 1) l) c (u.cycle + d + w + 1))))

/-- A posted access at a target goes into the send buffer or leaves (R292); what could still fault before it keeps it back on its way
(R151). Abroad too it is one of the 64 that are out. -/
def post (s : State) (tgt : Target) (ordered : Bool) (mk : Nat → SliceOp) : Res State := do
  lockGate s
  match tgt with
  | .remote r => do
    if (ctxOf s s.cur).hmode then remoteCheck s r .sliceop
    sendBuffer (forgetRemote s s.cur r false) (.slice ordered 0 (.remoteWrite r .store)) (fun u =>
      if 64 ≤ postedCount u (coreOf u.cur) then parkOn .storesFull u else .ok (sendSure u u.cur 1 ordered true 0 (.remoteWrite r .store)))
  | .phys _ pa leaf => sendBuffer s (.slice ordered (leafHome leaf pa) (mk pa)) (fun u =>
      postNow 1 ordered (leafHome leaf pa) (mk pa) u)
  | _ => .ok s

/-- A posted store of STS and STS.A (R292): to an exclusive region it is a store of which the home slice is told (R114); that notice, like a
pop, cannot be undone and waits for what could still fault (log 23); of a handler's it comes when the store leaves (R154). -/
def postStore (s : State) (o : OpM) (ordered : Bool) : Res State := do
  let c := s.cur
  let n := 2 ^ (if o.width = 5 then 6 else o.width.toNat)
  if o.width = 5 && 48 ≤ o.d.toNat && (effAddr s c o).toNat / 2 ^ 53 ≠ s.device then checkAbroad s (effAddr s c o) .sliceop
  let (tgt, s) ← sliceTarget s (effAddr s c o) n
  if (o.width = 5 && 48 ≤ o.d.toNat) || (match tgt with | .phys va _ _ => (tokenCovering s va).any (·.mode = .exclusive) | _ => false) then settle s
  if o.width = 5 then portsServe s [o.d] none
  let x := if o.width = 5 then (readSlot s o.d).1.toNat else (rg s c o.d.toNat).toNat
  let owned := match tgt with | .phys va _ _ => if (tokenCovering s va).any (·.mode = .exclusive) then some va else none | _ => none
  let t ← post s tgt ordered (fun pa => .write pa (bytesOf x n) (if (ctxOf s c).hmode then owned else none))
  let t := match owned with | some va => if (ctxOf t c).hmode then t else noticeStore t va | none => t
  .ok (if o.width = 5 then (readSlot t o.d).2 else t)

/-- STS (R292). -/
def execSts (o : OpM) (s : State) : Host.Outcome State Fault Refusal := runSeq (.sts o) s (fun t => postStore t o true)
/-- STS.A (R292). -/
def execStsA (o : OpM) (s : State) : Host.Outcome State Fault Refusal := runSeq (.stsA o) s (fun t => postStore t o false)

/-- SLOP (R293): the form that returns takes effect at its slice, where it marks its handler (R32). -/
def execSlop (o : OpM) (s : State) : Host.Outcome State Fault Refusal :=
  runSeq (.slop o) s (fun t => do
    let c := t.cur
    let w := if o.width = 2 then 32 else 64
    let (tgt, t) ← sliceTarget t (baseAddr t c o) (w / 8)
    let d := o.d.toNat
    let mk := fun pa => SliceOp.rmw pa w o.kind.toNat (rg t c o.b.toNat) (rg t c d) d
    if d = 0 then post t tgt true mk
    else
      lockGate t
      match tgt with
      | .remote r => .ok (sendFlight (forgetRemote t c r false) c 1 true false 0 (.remoteRead r (w / 8) true d true) 0)
      | .phys _ pa leaf => do
        pathClear t (coreOf c) (mk pa)
        .ok (sendClear t c 1 true false (leafHome leaf pa) (mk pa) 0 (baseAddr t c o))
      | _ => .ok t)

/-- The targets of CMLS, checked in pair order (R295). -/
def cmlsTargets (s : State) (a : Nat) : List Nat → Res (List (Nat × Nat × Word) × State)
  | [] => .ok ([], s)
  | j :: l => do
    let c := s.cur
    let ea := rg s c (a + 2 * j)
    if ea.toNat % 8 ≠ 0 then trapAt cAlign ea s
    else
      let (tgt, s) ← translate s ea .wr
      match tgt with
      | .phys _ pa leaf => do
        let (_, s) ← tokenCheck s ea .sliceop 1
        let (r, s) ← cmlsTargets s a l
        .ok ((leafHome leaf pa, pa, rg s c (a + 2 * j + 1)) :: r, s)
      | _ => trapAt cXlatePerm ea s

/-- CMLS (R295): codes 3 and 2 are decided at the core, 0 and 1 at the common slice. -/
def execCmls (o : OpM) (s : State) : Host.Outcome State Fault Refusal :=
  runSeq (.cmls o) s (fun t => do
    let c := t.cur
    let (ts, t) ← cmlsTargets t o.a.toNat (List.range (o.kind.toNat + 1))
    outputGate t
    if trackBusy t c true then parkOn .flights t
    else
      let home := (ts.headD (0, 0, 0)).1
      let endWith := fun (r : Nat) => (.ok (wg (modCtx t c (fun x => { x with track := [] })) c o.d.toNat (BitVec.ofNat 64 r)) : Res State)
      if ts.any (fun e => e.1 % 2048 ≠ home % 2048) then endWith 3
      else if ts.any (fun e => !((ctxOf t c).track.any (fun k => k.line = e.2.1 / 256))) then endWith 2
      else
        let op := SliceOp.cmls (ts.map (·.2)) o.d.toNat
        pathClear t (coreOf c) op
        .ok (sendClear t c 1 true false home op 2))

/-- A word abroad stands in the aggregation buffer under its global reference, above every physical address. -/
def aggAbroad : Nat := 2 ^ 52

/-- Send the sum of an aggregation entry as one posted slice addition (R294): the core gives up its copy of the line (R286). -/
def aggSend (s : State) (c : Nat) (e : Nat × Nat × Word × Nat) : State :=
  if aggAbroad ≤ e.1 then
    let t := sendFlight s c 7 false true 0 (.remoteWrite (BitVec.ofNat 64 e.2.1) .store) 0
    { t with flights := t.flights.map (fun f => if f.id = s.nextId then { f with undo := none } else f) }
  else sendClear s c 7 false true e.2.1 (.rmw e.1 64 0 e.2.2.1 0 0) 0

/-- A core may send some of its sums: with them no more than 64 of its posted stores are out (R292, R293), and no access on path 0 is out to
their lines (R286). -/
def aggRoom (s : State) (k : Nat) (l : List (Nat × Nat × Word × Nat)) : Bool :=
  postedCount s k + l.length ≤ 64 && !(l.any (fun e => lineOut s k [e.1 / 32]))

/-- It may send all of them. -/
def sumsReady (s : State) (k : Nat) : Bool := aggRoom s k (coreAt s k).agg

/-- Add into the aggregation buffer of the core of context c (R294). -/
def aggAdd (s : State) (c pa home : Nat) (x : Word) : State :=
  let k := coreOf c
  let b := (coreAt s k).agg
  if b.any (fun e => e.1 = pa) then
    modCore s k (fun y => { y with agg := b.map (fun e => if e.1 = pa then (e.1, e.2.1, e.2.2.1 + x, e.2.2.2) else e) })
  else
    let (s, b) := if b.length < 8 then (s, b) else match b with | e :: r => (aggSend s c e, r) | [] => (s, [])
    modCore s k (fun y => { y with agg := b ++ [(pa, home, x, s.cycle + 256)] })

/-- Flush the whole aggregation buffer (R294). -/
def aggFlushAll (s : State) (c : Nat) : State :=
  let k := coreOf c
  modCore ((coreAt s k).agg.foldl (fun t e => aggSend t c e) s) k (fun y => { y with agg := [] })

/-- Whether an AGG to an address can enter the buffer now: with no place for it the oldest sum must be able to leave. -/
def aggFits (s : State) (k pa : Nat) : Bool :=
  let b := (coreAt s k).agg
  b.any (fun e => e.1 = pa) || b.length < 8 ||
aggRoom s k (b.take 1)

/-- An AGG reaches the buffer: the core gives up its copy of the line (R286). -/
def aggNow (pa home : Nat) (x : Word) (s : State) : Res State := do
  let c := s.cur
  passFence s 1
  let op := SliceOp.rmw pa 64 0 0 0 0
  if aggAbroad ≤ pa then (if aggFits s (coreOf c) pa then .ok (aggAdd s c pa home x) else parkOn .storesFull s)
  else do
    pathClear s (coreOf c) op
    if aggFits s (coreOf c) pa then .ok (aggAdd (clearPath s (coreOf c) op) c pa home x) else parkOn .storesFull s

/-- AGG (R294): checked at issue, abroad by an access of its own. -/
def execAgg (o : OpM) (s : State) : Host.Outcome State Fault Refusal :=
  runSeq (.agg o) s (fun t => do
    let c := t.cur
    let (tgt, t) ← sliceTarget t (baseAddr t c o) 8
    let x := rg t c o.b.toNat
    outputGate t
    match tgt with
    | .remote r => do
      remoteCheck t r .sliceop
      sendBuffer (forgetRemote t c r false) (.agg (aggAbroad + r.toNat) r.toNat x) (aggNow (aggAbroad + r.toNat) r.toNat x)
    | .phys _ pa leaf => sendBuffer t (.agg pa (leafHome leaf pa) x) (aggNow pa (leafHome leaf pa) x)
    | _ => .ok t)

/-- FENCE (R180, R296). -/
def execFence (o : OpE) (s : State) : Host.Outcome State Fault Refusal :=
  runSeq (.fence o) s (fun t => do
    let src := o.imm.toNat / 256
    let dst := o.imm.toNat % 256
    if nbit src 1 then settle t
    sendBuffer t (.slice false 0 (.fence src dst)) (fun u => do
      if nbit src 1 && !(sumsReady u (coreOf u.cur)) then parkOn .storesFull u
      let u := if nbit src 1 then aggFlushAll u u.cur else u
      if src = 0 || dst = 0 then .ok u else .ok (sendFlight u u.cur 6 false false 0 (.fence src dst) 0)))

end Sys2Proof.Machine
end

