-- ==== Sys2Proof/Machine/Msg.lean ====
section
/-! DEFINITION. Messages, launches, inboxes, rules and pairs (R22 to R33, R121 to R126, R137 to R139, R183 to R187). -/

namespace Sys2Proof.Machine

/-! ### Retry entries (R139) -/

/-- The valid routine that serves a class on a core (R125). -/
def serving (s : State) (k cls : Nat) : Option Nat :=
  (List.range 16).find? (fun j => let w := routineAt s k j
    routineValid w && routineClass w = cls)

/-- The apex core that has a die's duties: core 14, or 15 when 14 is killed (R200, R216). -/
def apexOf (s : State) (d : Nat) : Option Nat :=
  let k := 16 * apexVertex d + 14
  if !((coreAt s k).killed) then some k else if !((coreAt s (k + 1)).killed) then some (k + 1) else none

/-- The core whose notice slots take a notice for a sender (R137, R202, R216). -/
def noticeCore (s : State) (sender cls : Nat) : Option Nat :=
  let k := coreOf (agentLocal sender)
  if !((coreAt s k).killed) && (serving s k cls).isSome then some k else apexOf s (dieOf (vertexOf k))

/-- Whether slot i of an inbox can take an arrival now: it is empty, since before this cycle (R137). -/
def slotOpen (s : State) (k i : Nat) : Bool := !((coreAt s k).inbox.any (fun q => q.index = i)) && sget 0 (coreAt s k).slotFree i ≤ s.cycle

/-- The 60 ordinary slots of an inbox and its 4 notice slots (R137). -/
def freeOrdinary (s : State) (k : Nat) : Option Nat := (List.range 60).find? (slotOpen s k)
def freeNotice (s : State) (k : Nat) : Option Nat := ((List.range 4).map (60 + ·)).find? (slotOpen s k)
def freeCount (s : State) (k : Nat) : Nat := ((List.range 60).filter (slotOpen s k)).length

/-- The class of a notice of a code (R137). -/
def noticeClass (code : Nat) : Nat := if code = cDeadPeer then 28 else 29

/-- A notice whose slots are full, or whose host event finds the backlog full: it keeps its retry entry (R137, R385). -/
def noticeWaits (s : State) (f : MsgFlight) (code : Nat) : Bool :=
  if f.msg.fromHost then 4096 ≤ s.host.backlog.length
  else match noticeCore s f.msg.sender (noticeClass code) with | some k => (freeNotice s k).isNone | none => true

/-- Retry entries that a home uses: a message finally refused keeps none, unless its notice waits (R137, R139). -/
def entriesOf (s : State) (h : MsgHome) : Nat :=
  (s.messages.filter (fun m => m.home = h && (match m.phase with | .queued => false | .notice code => noticeWaits s m code | _ => true))).length
def retryFull (s : State) (k : Nat) : Bool := 32 ≤ entriesOf s (.core k)

/-- Zero-load cycles from a vertex to a vertex of a device (R12, R390). -/
def flightTime (s : State) (v d w : Nat) : Nat := if d = s.device then latency v w else fabricHop s v d false

/-- Cycles of one attempt from a vertex: to the destination's vertex, or to the other device; a placed item on this module travels as its
placement says (R12, R186). -/
def msgTime (s : State) (v : Nat) (m : Msg) : Nat :=
  match m.placed with
  | some (_, _, d) => if d = s.device then 0 else fabricHop s v d false
  | none => flightTime s v (agentDevice m.dest) (vertOf (agentLocal m.dest))

/-- A message takes a retry entry and leaves in a phase. -/
def sendMsg (s : State) (h : MsgHome) (v : Nat) (p : MsgPhase) (m : Msg) : State :=
  { s with nextId := s.nextId + 1, messages := s.messages ++ [{ id := s.nextId, home := h, from_ := v, phase := p, msg := m, told := false, hops := 0, due := if p = .flying then s.cycle + msgTime s v m else s.cycle }] }

def msgOf (s : State) (id : Nat) : Option MsgFlight := s.messages.find? (fun m => m.id = id)
def modMsg (s : State) (id : Nat) (g : MsgFlight → MsgFlight) : State := { s with messages := s.messages.map (fun m => if m.id = id then g m else m) }
def setPhase (s : State) (id : Nat) (p : MsgPhase) : State := modMsg s id (fun m => { m with phase := p })
/-- An attempt leaves (R139). -/
def flyMsg (s : State) (id : Nat) : State := modMsg s id (fun m => { m with phase := .flying, hops := 0, due := s.cycle + msgTime s m.from_ m.msg })
/-- A refusal flies back to where the entry is held, over n cycles (R139). -/
def returnMsg (s : State) (id code n : Nat) : State :=
  modMsg s id (fun m => { m with phase := .returning code, due := s.cycle + n, msg := { m.msg with attempts := m.msg.attempts + 1 } })

/-- A message of a multicast group is accepted or finally refused: the group's count falls (R351). -/
def finishMsg (s : State) (m : Msg) : State :=
  match m.group with
  | none => s
  | some g => let e := groupOf s g
    let n := e.inflight - 1
    setGroup s g (if e.state = 2 && n = 0 then GroupEntry.reset else { e with inflight := n })

def dropMsg (s : State) (id : Nat) : State := { s with messages := s.messages.filter (fun m => m.id ≠ id) }

/-- A wait before attempt k (R139). -/
def backoffWait (k : Nat) : Nat := min (64 * 2 ^ (k - 2)) 8192

/-- The payload of a notice (Table 13-3). -/
def noticePayload (code : Nat) (m : Msg) : List Word :=
  BitVec.ofNat 64 (code * 2 ^ 56 + m.msgid.toNat * 2 ^ 27 + m.dest) :: m.payload.take 5

/-! ### Inboxes (R137) -/

/-- Put a message into a slot, behind those that wait: the core has work, so it is no longer eligible to steal (R138). -/
def putSlot (s : State) (k i : Nat) (m : Msg) (p : SlotPhase) : State :=
  modCore s k (fun x => { x with
    victim := 0
    inbox := x.inbox ++ [{ index := i, msg := m, phase := p, routine := 0, entry := 0, firstWords := none, secondWords := none, firstTokens := [], secondTokens := [], acct := 0, since := s.cycle }] })

/-- The holds that a selection of this cycle sees: those at the end of the previous one (R126). -/
def heldMask (s : State) (k : Nat) : BitVec 16 := if (coreAt s k).heldAt = s.cycle + 1 then (coreAt s k).heldWas else holdsNow s k

/-- Routine j is held (R126). -/
def isHeld (s : State) (k j : Nat) : Bool := nbit (heldMask s k).toNat j

/-- A core that takes work: not killed or sealed, and not disabled at start-up (R76, R203, R222). -/
def takesWork (s : State) (k : Nat) : Bool :=
  coreExists k && !((coreAt s k).sealed_) && !((coreAt s k).killed) && !(isExecute k && (coreAt s k).capacity < 6) &&
    !((clusterAt s (vertexOf k)).disabled && coreNo k < 9)

/-- The lowest-numbered idle context of a core (R184, R187). -/
def idleOf (s : State) (k : Nat) : Option Nat :=
  if !(takesWork s k) then none else
  ((List.range 8).map (8 * k + ·)).find? (fun c => (ctxOf s c).run = .idle && (ctxOf s c).readyAt ≤ s.cycle)

/-- A fresh message of class cls. -/
def newMsg (cls sender : Nat) (msgid lease : BitVec 16) (dest : Nat) (payload : List Word) : Msg :=
  { cls := cls, sender := sender, msgid := msgid, lease := lease, checked := false, dest := dest, payload := payload, pair := none, placed := none,
    attempts := 0, group := none, bad := false, fromHost := false }

/-! ### Launches (R183, R184) -/

/-- A launch whose reserved bits are zero and whose entry is aligned (Table 12-1). -/
def launchOk (l : List Word) : Bool :=
  bits (l.getD 0 0).toNat 63 53 = 0 && (l.getD 0 0).toNat % 8 = 0 && bits (l.getD 3 0).toNat 63 12 = 0 && l.getD 4 0 = 0 && l.getD 5 0 = 0

/-- An address of this module's code as a program counter. -/
def codePc (s : State) (a : Nat) : Word := BitVec.ofNat 64 (s.device * 2 ^ 53 + a % 2 ^ 53)

/-- Start a launched context (Table 04-9). -/
def startLaunch (s : State) (c : Nat) (l : List Word) : State :=
  startCtx s c (fun x => { x with
    pc := codePc s (l.getD 0 0).toNat
    acct := (l.getD 3 0).setWidth 12
    regs := { x.regs with g := sput 0 (sput 0 [] 1 (l.getD 1 0)) 2 (l.getD 2 0) } })

/-! ### Rules and pairs -/

/-- Words of a cell in memory at the address of a reference, through the page tables; none when it does not translate. -/
def cellPlace (s : State) (a : Nat) : Option (Nat × Nat) :=
  match translateNow s a true with
  | .ok (pa, slice, _) => some (pa, slice)
  | .error _ => none

/-- Whether an address lies in a registered heap, and the heap's account (R103). -/
def heapAt (l : Store (Option Heap)) (a : Nat) : Option (Nat × Heap) :=
  (l.find? (fun e => match e.2 with | some h => h.ranges.any (fun r => r.1 ≤ a && a < r.1 + r.2) | none => false)).bind
    (fun e => e.2.map (fun h => (e.1, h)))

/-- The symbol of a principal: in the reference, or in the header of the cell, of which another device's is not this module's state
(R22, R25; log 17). -/
def symbolOf (s : State) (r : Word) : Nat :=
  match refKind r with
  | 3 => bits r.toNat 47 32
  | 4 => bits r.toNat 15 0
  | _ => if refDevice r ≠ s.device then (Config.remoteHeader s.free r).toNat % 65536 else match cellPlace s (refAddr r) with | some (pa, _) => readMem s pa 2 | none => 0

/-- The order of a pair (R27). -/
def orderPair (s : State) (a b : Word) : Word × Word :=
  let x := symbolOf s a
  let y := symbolOf s b
  if x < y then (a, b)
  else if y < x then (b, a)
  else match decide (refKind a = 1), decide (refKind b = 1) with
    | true, true => if refAddr b < refAddr a then (b, a) else (a, b)
    | false, true => (b, a)
    | _, _ => (a, b)

/-- The rule of two symbols in the rule table (R122): at most 16 probes, up to the first invalid entry, or one that is poisoned (R91). -/
def probeRules (s : State) (x y : Nat) : Nat → Nat → Option (Word × Word)
  | 0, _ => none
  | fuel + 1, h =>
    let a := s.ruleBase + 16 * (h % 2 ^ s.ruleLog)
    match translateNow s (a % 2 ^ 53) false with
    | .error _ => none
    | .ok (pa, _, _) =>
      let w := readMem s pa 8
      if anyPoison s pa 16 || !(nbit w 0) then none
      else if bits w 63 48 = x && bits w 47 32 = y then some (BitVec.ofNat 64 w, BitVec.ofNat 64 (readMem s (pa + 8) 8))
      else probeRules s x y fuel (h + 1)

/-- Whether the probes of the rule of two symbols meet a poisoned entry (R91). -/
def rulePoisoned (s : State) (x y : Nat) : Nat → Nat → Bool
  | 0, _ => false
  | fuel + 1, h =>
    match translateNow s ((s.ruleBase + 16 * (h % 2 ^ s.ruleLog)) % 2 ^ 53) false with
    | .error _ => false
    | .ok (pa, _, _) => anyPoison s pa 16 || (nbit (readMem s pa 8) 0 && (probeRules s x y 1 h).isNone && rulePoisoned s x y fuel (h + 1))

def ruleOf (s : State) (x y : Nat) : Option (Word × Word) := probeRules s x y 16 ((x + 3 * y) % 2 ^ s.ruleLog)

/-- A lookup through the core's rule cache of 64 sets of 4 ways, least recently used last (R122). -/
def ruleLookup (s : State) (k x y : Nat) : Option (Word × Word) × State :=
  let set := fun (e : Nat × Nat × Word × Word) => (e.1 ^^^ e.2.1) % 64
  let mine := (x ^^^ y) % 64
  match (coreAt s k).ruleCache.find? (fun e => e.1 = x && e.2.1 = y) with
  | some e => (some e.2.2, modCore s k (fun c => { c with ruleCache := e :: c.ruleCache.filter (fun d => d ≠ e) }))
  | none =>
    let s := modCore s k (fun c => { c with counters := { c.counters with rulemiss := c.counters.rulemiss + 1 } })
    match ruleOf s x y with
    | none => (none, s)
    | some r => (some r, modCore s k (fun c => { c with ruleCache :=
        (x, y, r) :: (let own := c.ruleCache.filter (fun e => set e = mine)
          c.ruleCache.filter (fun e => set e ≠ mine || (own.take 3).contains e)) }))

/-- The radius of a pair's rule, 0 when there is none. -/
def radiusOf (s : State) (a b : Word) : Nat := match ruleOf s (symbolOf s a) (symbolOf s b) with | some r => bits r.1.toNat 31 28 | none => 0

/-- FormPair (R27, R33), in the net of a NET node or in none. -/
def formPair (s : State) (a b : Word) (net : Option Nat := none) : PairRef :=
  let (x, y) := orderPair s a b
  { first := x, second := y, radius := radiusOf s x y, seed := none, net := net }

/-- The pairs among send-buffer entries. -/
def pushCount (l : List Entry) : Nat := (l.filter (fun e => match e with | .slice _ _ (.push _) => true | _ => false)).length

/-- Whether the deque of a core takes n pushes more than those of the handlers that are leaving: each move of 128 entries to the spill region
makes room for as many (R138). -/
def canPush (s : State) (k n : Nat) : Bool :=
  let x := coreAt s k
  let m := (List.range 8).foldl (fun a i => let y := ctxOf s (8 * k + i)
    if y.run = .leaving then a + pushCount y.sendBuf else a) n
  x.spill.length + 128 * ceilDiv (x.deque.length + m - 256) 128 ≤ x.spillLimit || x.deque.length + m ≤ 256

/-- The deque-full event of a core stands before the apex of its die (R138). -/
def tellDeque (s : State) (k : Nat) : State :=
  let d := dieOf (vertexOf k)
  if (dieAt s d).dequeFull.contains k then s else setDie s d { dieAt s d with dequeFull := (dieAt s d).dequeFull ++ [k] }

/-- Spill record i of a core: the references, the radius, zero (R138). It stands in the core's spill regions, where the page tables map
them (log 31). -/
def putSpill (s : State) (k i : Nat) (p : PairRef) : State :=
  match (coreAt s k).spillBases[i / 32768]? with
  | none => s
  | some b =>
    match translateNow s (b + 32 * (i % 32768)) true with
    | .error _ => s
    | .ok (pa, home, _) => placeWrite s pa home
        (([p.first, p.second, BitVec.ofNat 64 p.radius, 0] : List Word).flatMap (fun w => bytesOf w.toNat 8))

/-- A push at the bottom; a full deque first moves its 128 oldest entries to the spill region as one block (R138). -/
def pushPair (s : State) (k : Nat) (p : PairRef) : State :=
  let x := coreAt s k
  if x.deque.length < 256 then modCore s k (fun y => { y with deque := y.deque ++ [p], victim := 0 })
  else
    modCore ((x.deque.take 128).zipIdx.foldl (fun t e => putSpill t k (x.spill.length + e.2) e.1) s) k (fun y => { y with
      victim := 0
      spill := y.spill ++ y.deque.take 128, deque := y.deque.drop 128 ++ [p]
      counters := { y.counters with spills := y.counters.spills + 1 } })

/-- Below 64 entries, the 64 most recently spilled records come back at the top (R138). -/
def unspill (x : Core) : Core :=
  if x.deque.length < 64 && !x.spill.isEmpty then
    let n := x.spill.length - 64
    { x with deque := x.spill.drop n ++ x.deque, spill := x.spill.take n }
  else x

/-- The locus that a header names (Table 02-2). -/
def headerLocus (h : Nat) : Option Nat := if nbit h 20 then some (mkVertex (bits h 25 21) (bits h 29 26)) else none

/-- The locus of a cell: in its header, of which another device's is not this module's state (R28; log 17). -/
def locusOf (s : State) (r : Word) : Option Nat :=
  if refKind r ≠ 1 then none
  else if refDevice r ≠ s.device then headerLocus (Config.remoteHeader s.free r).toNat
  else (cellPlace s (refAddr r)).bind (fun p => headerLocus (readMem s p.1 8))

/-- The device that a pair formed at a slice goes to (R308). -/
def pairDevice (s : State) (p : PairRef) : Nat := if refKind p.first = 1 then refDevice p.first else if refKind p.second = 1 then refDevice p.second else s.device

/-- Send a pair toward its locus from an entry of a vertex's pair retry buffer, or waiting for one behind those formed before it (R28, R139);
`sender` is the agent id under which it was formed (R77). -/
def sendPairAs (s : State) (v sender : Nat) (p : PairRef) : State :=
  let (locus, radius) := match locusOf s p.first, locusOf s p.second with
    | some l, _ => (l, p.radius)
    | none, some l => (l, p.radius)
    | none, none => (v, 0)
  let m := newMsg 31 sender 0 0 (pairDevice s p * 65536) []
  let waits := 64 ≤ entriesOf s (.vertex v) || s.messages.any (fun f => f.home = .vertex v && f.phase = .queued)
  sendMsg s (.vertex v) v (if waits then .queued else .flying)
    { m with pair := some p, placed := some (locus, radius, pairDevice s p) }

/-- Send a pair that was formed at a slice of a vertex. -/
def sendPair (s : State) (v : Nat) (p : PairRef) : State := sendPairAs s v (agentId s.device (128 * v)) p

/-! ### Headers (R22 to R24) -/

/-- A header that is not malformed (R22, R23, R24): the element format of a tile is an assigned one (R44). -/
def headerOk (h : Nat) : Bool :=
  let ar := bits h 17 16
  let kind := bits h 19 18
  let sym := bits h 15 0
  ar ≠ 3 && bits h 31 30 = 0 && (sym ≠ 1 || ar = 2) && (sym ≠ 2 || ar = 1) &&
    (match kind with | 0 | 3 => bits h 63 32 = 0 | 2 => bits h 35 32 = 0 && bits h 39 36 < 14 | _ => true)

/-- A cell that is not malformed: its header, and auxiliary words above the arity empty (R22). -/
def cellOk (ws : List Word) : Bool :=
  let h := (ws.headD 0).toNat
  headerOk h && (1 ≤ bits h 17 16 || ws.getD 1 0 = 0) && (2 ≤ bits h 17 16 || ws.getD 2 0 = 0)

/-- A header that CNEW and CSET may write (R24, R306). -/
def headerWritable (h : Nat) : Bool := headerOk h && (let sym := bits h 15 0
  sym ≠ 0 && !(3 ≤ sym && sym ≤ 15))

/-! ### Messages of a context -/

/-- Accesses and sends of a context on source paths that began before a number and have not been performed (R179, R180): its
flights, the sums of its core's aggregation buffer, the jobs it submitted, its own transfers, messages not accepted, chord words. -/
def pathOut (s : State) (c before src : Nat) : Bool :=
  let k := coreOf c
  s.flights.any (fun f => f.id < before && ((f.ctx = c && f.path < 5 && nbit src f.path) || (nbit src 1 && f.path = 7 && coreOf f.ctx = k))) ||
    (nbit src 2 && ((clusterAt s (vertOf c)).jobs.any (fun j => j.submitter = c && j.seq < before) ||
      (clusterAt s (vertOf c)).transfers.any (fun t => t.ctx = c && t.job.isNone && t.id < before))) ||
    (nbit src 4 && (s.messages.any (fun m => m.id < before && m.home = .core k && m.msg.sender = agentOf s c &&
        (match m.phase with | .notice _ => false | _ => true)) ||
      (match (coreAt s k).chord with | some h => h.holder = c && !(coreAt s h.dest).portIn.isEmpty | none => false)))

/-- The msgid counter of a core rises (R313). -/
def takeMsgid (s : State) (k : Nat) : BitVec 16 × State :=
  ((coreAt s k).msgid, modCore s k (fun x => { x with msgid := x.msgid + 1 }))

/-- A destination that the sending interface refuses at once (R15, R313). -/
def refusedAtOnce (s : State) (dest : Nat) : Bool :=
  !(namesTarget dest) || (agentDevice dest ≠ s.device && !(reachable s (agentDevice dest)))

/-- A message that its sending interface refuses at once: malformed, to no agent, or to a device that no route reaches (R15). -/
def unsendable (s : State) (m : Msg) : Bool :=
  m.bad || (match m.placed with | some (_, _, d) => d ≠ s.device && !(reachable s d) | none => refusedAtOnce s m.dest)

/-- A message leaves from a vertex: refused at once, or on its way (R15, R170). -/
def sendOut (s : State) (h : MsgHome) (v : Nat) (m : Msg) : State := sendMsg s h v (if unsendable s m then .notice cUndeliverable else .flying) m

/-- A message leaves a core; what is refused at once was its group's last word of it too (R170, R351). -/
def leaveMsg (s : State) (k : Nat) (m : Msg) : State :=
  let t := sendOut s (.core k) (vertexOf k) m
  if unsendable s m then finishMsg t m else t

/-- Send.Buffer of a message (R170, R240). Outside handler mode it waits for the accesses that return a result and for a
retry entry; a fence that names path 4 keeps it on its way (R180). -/
def bufferMsg (s : State) (m : Msg) : Res State := do
  let c := s.cur
  outputGate s
  sendBuffer s (.message m) (fun t => do
    if returning t c then parkOn .flights t
    else if retryFull t (coreOf c) then parkOn .retryFull t
    else .ok (leaveMsg t (coreOf c) m))

end Sys2Proof.Machine
end

