-- ==== Sys2Proof/Machine/Scalar.lean ====
section
/-! DEFINITION. Scalar arithmetic and immediates (R244 to R248). -/

namespace Sys2Proof.Machine

/-- The operands of major 0x01 (R246): width, a and b as unsigned and as chosen by mod.u, and the shift count. -/
structure AluIn where
  w : Nat
  xu : Nat
  yu : Nat
  xs : Int
  xv : Int
  yv : Int
  k : Nat

/-- Reading the operands (R246). Bits of mod: 0 w, 1 s, 2 u, 3 i. -/
def aluIn (s : State) (c : Nat) (o : OpA) : AluIn :=
  let m := o.md.toNat
  let w := if nbit m 0 then 32 else 64
  let xu := (rg s c o.a.toNat).toNat % 2 ^ w
  let yu := if nbit m 3 then o.b.toNat else (rg s c o.b.toNat).toNat % 2 ^ w
  { w := w, xu := xu, yu := yu, xs := signedN xu w,
    xv := if nbit m 2 then xu else signedN xu w, yv := if nbit m 2 then yu else signedN yu w, k := yu % w }

/-- The end of R246: saturation when mod.s is set, then the result modulo 2^W, sign-extended from bit W − 1. -/
def aluOut (o : OpA) (w : Nat) (r : Int) : Word :=
  let m := o.md.toNat
  let r := if nbit m 1 then (if nbit m 2 then max 0 (min r (2 ^ w - 1)) else max (-(2 ^ (w - 1))) (min r (2 ^ (w - 1) - 1))) else r
  sextN (r % 2 ^ w).toNat w

/-- Quotient and remainder of R246: by zero −1 and the dividend, the overflowing signed quotient wraps, else truncated. -/
def aluQuot (o : OpA) (a : AluIn) : Int :=
  if a.yv = 0 then -1 else if !(nbit o.md.toNat 2) && a.xv = -(2 ^ (a.w - 1)) && a.yv = -1 then a.xv else a.xv.tdiv a.yv
/-- See `aluQuot`. -/
def aluRem (o : OpA) (a : AluIn) : Int :=
  if a.yv = 0 then a.xv else if !(nbit o.md.toNat 2) && a.xv = -(2 ^ (a.w - 1)) && a.yv = -1 then 0 else a.xv - a.yv * (a.xv.tdiv a.yv)

/-- One bits of a number below 2^w. -/
def popCount (x w : Nat) : Nat := ((List.range w).filter (fun i => nbit x i)).length
/-- Trailing zero bits of a number; w when it is 0. -/
def trailingZeros (x w : Nat) : Nat := ((List.range w).find? (fun i => nbit x i)).getD w
/-- Leading zero bits of a number of w bits; w when it is 0. -/
def leadingZeros (x w : Nat) : Nat := ((List.range w).find? (fun i => nbit x (w - 1 - i))).getD w

/-- The write of an instruction of major 0x01. -/
def aluWrite (s : State) (o : OpA) (f : AluIn → Int) : State :=
  let a := aluIn s s.cur o
  wg s s.cur o.d.toNat (aluOut o a.w (f a))

/-- Conditions of CMP (R247): 0 EQ, 1 NE, 2 LT, 3 GE, 4 LE, 5 GT. -/
def condHolds (cond : Nat) (x y : Int) : Bool :=
  match cond with
  | 0 => x = y
  | 1 => x ≠ y
  | 2 => x < y
  | 3 => y ≤ x
  | 4 => x ≤ y
  | _ => y < x

/-- The divider serves one instruction of the core at a time, until its result time (R246). -/
def withDivider (s : State) (time : Nat) (f : State → State) : Res State :=
  let k := coreOf s.cur
  if s.cycle < (coreAt s k).dividerFree then parkOn .divider s
  else .ok (f (modCore s k (fun x => { x with dividerFree := s.cycle + time })))

/-- ADD (R246). -/
def execAdd (o : OpA) (s : State) : Host.Outcome State Fault Refusal :=
  runPure (.add o) s (fun t => aluWrite t o (fun a => a.xv + a.yv))

/-- SUB (R246). -/
def execSub (o : OpA) (s : State) : Host.Outcome State Fault Refusal :=
  runPure (.sub o) s (fun t => aluWrite t o (fun a => a.xv - a.yv))

/-- MUL (R246). -/
def execMul (o : OpA) (s : State) : Host.Outcome State Fault Refusal :=
  runPure (.mul o) s (fun t => aluWrite t o (fun a => a.xv * a.yv))

/-- MULH (R246). -/
def execMulh (o : OpA) (s : State) : Host.Outcome State Fault Refusal :=
  runPure (.mulh o) s (fun t => aluWrite t o (fun a => (a.xv * a.yv) / 2 ^ a.w))

/-- AND (R246). -/
def execAnd (o : OpA) (s : State) : Host.Outcome State Fault Refusal :=
  runPure (.and o) s (fun t => aluWrite t o (fun a => ((a.xu &&& a.yu : Nat) : Int)))

/-- OR (R246). -/
def execOr (o : OpA) (s : State) : Host.Outcome State Fault Refusal :=
  runPure (.or o) s (fun t => aluWrite t o (fun a => ((a.xu ||| a.yu : Nat) : Int)))

/-- XOR (R246). -/
def execXor (o : OpA) (s : State) : Host.Outcome State Fault Refusal :=
  runPure (.xor o) s (fun t => aluWrite t o (fun a => ((a.xu ^^^ a.yu : Nat) : Int)))

/-- ANDN (R246). -/
def execAndn (o : OpA) (s : State) : Host.Outcome State Fault Refusal :=
  runPure (.andn o) s (fun t => aluWrite t o (fun a => ((a.xu &&& (2 ^ a.w - 1 - a.yu) : Nat) : Int)))

/-- SHL (R246). -/
def execShl (o : OpA) (s : State) : Host.Outcome State Fault Refusal :=
  runPure (.shl o) s (fun t => aluWrite t o (fun a => ((a.xu * 2 ^ a.k : Nat) : Int)))

/-- SHR (R246). -/
def execShr (o : OpA) (s : State) : Host.Outcome State Fault Refusal :=
  runPure (.shr o) s (fun t => aluWrite t o (fun a => ((a.xu / 2 ^ a.k : Nat) : Int)))

/-- SAR (R246). -/
def execSar (o : OpA) (s : State) : Host.Outcome State Fault Refusal :=
  runPure (.sar o) s (fun t => aluWrite t o (fun a => a.xs / 2 ^ a.k))

/-- ROT (R246). -/
def execRot (o : OpA) (s : State) : Host.Outcome State Fault Refusal :=
  runPure (.rot o) s (fun t => aluWrite t o (fun a => ((a.xu * 2 ^ a.k + a.xu / 2 ^ (a.w - a.k) : Nat) : Int)))

/-- MIN (R246). -/
def execMin (o : OpA) (s : State) : Host.Outcome State Fault Refusal :=
  runPure (.min o) s (fun t => aluWrite t o (fun a => min a.xv a.yv))

/-- MAX (R246). -/
def execMax (o : OpA) (s : State) : Host.Outcome State Fault Refusal :=
  runPure (.max o) s (fun t => aluWrite t o (fun a => max a.xv a.yv))

/-- CLZ (R246). -/
def execClz (o : OpA) (s : State) : Host.Outcome State Fault Refusal :=
  runPure (.clz o) s (fun t => aluWrite t o (fun a => (leadingZeros a.xu a.w : Int)))

/-- CTZ (R246). -/
def execCtz (o : OpA) (s : State) : Host.Outcome State Fault Refusal :=
  runPure (.ctz o) s (fun t => aluWrite t o (fun a => (trailingZeros a.xu a.w : Int)))

/-- POPC (R246). -/
def execPopc (o : OpA) (s : State) : Host.Outcome State Fault Refusal :=
  runPure (.popc o) s (fun t => aluWrite t o (fun a => (popCount a.xu a.w : Int)))

/-- DIV (R246). -/
def execDiv (o : OpA) (s : State) : Host.Outcome State Fault Refusal :=
  runSeq (.div o) s (fun t => withDivider t (resultTime (.div o)) (fun u => aluWrite u o (aluQuot o)))

/-- REM (R246). -/
def execRem (o : OpA) (s : State) : Host.Outcome State Fault Refusal :=
  runSeq (.rem o) s (fun t => withDivider t (resultTime (.rem o)) (fun u => aluWrite u o (aluRem o)))

/-- SEL (R247). -/
def execSel (o : OpA) (s : State) : Host.Outcome State Fault Refusal :=
  runPure (.sel o) s (fun t => wg t t.cur o.d.toNat (if rg t t.cur o.c.toNat ≠ 0 then rg t t.cur o.a.toNat else rg t t.cur o.b.toNat))

/-- CMP (R247). -/
def execCmp (o : OpA) (s : State) : Host.Outcome State Fault Refusal :=
  runPure (.cmp o) s (fun t =>
    let a := aluIn t t.cur o
    wg t t.cur o.d.toNat (if condHolds (bits o.md.toNat 6 4) a.xv a.yv then 1 else 0))

/-- SEXT (R247): width code 0, 1, 2 for 8, 16, 32 bits. -/
def execSext (o : OpA) (s : State) : Host.Outcome State Fault Refusal :=
  runPure (.sext o) s (fun t =>
    let n := 8 * 2 ^ (o.md.toNat % 4)
    let x := (rg t t.cur o.a.toNat).toNat % 2 ^ n
    wg t t.cur o.d.toNat (if nbit o.md.toNat 2 then BitVec.ofNat 64 x else sextN x n))

/-- BFX (R247): the field of len = c + 1 bits at b. -/
def execBfx (o : OpA) (s : State) : Host.Outcome State Fault Refusal :=
  runPure (.bfx o) s (fun t =>
    let len := o.c.toNat + 1
    let f := ((rg t t.cur o.a.toNat).toNat / 2 ^ o.b.toNat) % 2 ^ len
    wg t t.cur o.d.toNat (if nbit o.md.toNat 2 then BitVec.ofNat 64 f else sextN f len))

/-- BFI (R247): the low len bits of g[a] into g[d] at b. -/
def execBfi (o : OpA) (s : State) : Host.Outcome State Fault Refusal :=
  runPure (.bfi o) s (fun t =>
    let pos := o.b.toNat
    let len := o.c.toNat + 1
    wg t t.cur o.d.toNat (BitVec.ofNat 64 (setBits (rg t t.cur o.d.toNat).toNat (pos + len - 1) pos (rg t t.cur o.a.toNat).toNat)))

/-- LEA (R247): the step wraps within the 53-bit space, the device field of the base stays. -/
def execLea (o : OpA) (s : State) : Host.Outcome State Fault Refusal :=
  runPure (.lea o) s (fun t =>
    let x := rg t t.cur o.a.toNat
    let e := x + (rg t t.cur o.b.toNat <<< (o.md.toNat % 4))
    wg t t.cur o.d.toNat (BitVec.ofNat 64 (x.toNat / 2 ^ 53 * 2 ^ 53 + e.toNat % 2 ^ 53)))

/-- ADDI (R248). -/
def execAddi (o : OpI) (s : State) : Host.Outcome State Fault Refusal :=
  runPure (.addi o) s (fun t =>
    let x := rg t t.cur o.a.toNat
    wg t t.cur o.d.toNat (if o.md = 1 then (x.setWidth 32 + o.imm).signExtend 64 else x + o.imm.signExtend 64))

/-- MOVI (R248). -/
def execMovi (o : OpI) (s : State) : Host.Outcome State Fault Refusal :=
  runPure (.movi o) s (fun t => wg t t.cur o.d.toNat (if o.md = 4 then o.imm.setWidth 64 else o.imm.signExtend 64))

/-- MOVHI (R248). -/
def execMovhi (o : OpI) (s : State) : Host.Outcome State Fault Refusal :=
  runPure (.movhi o) s (fun t => wg t t.cur o.d.toNat (o.imm ++ (rg t t.cur o.a.toNat).setWidth 32))

end Sys2Proof.Machine
end

