-- ==== Sys2Proof/Machine/Control.lean ====
section
/-! DEFINITION. Branches, handler ends, holds, yields, gang barriers, NOP and words that are no instruction (R231, R232, R249 to
R259). -/

namespace Sys2Proof.Machine

/-- The target of a branch-format instruction (R228). -/
def target (s : State) (o : OpB) : Word := pcOf s + (o.woff.signExtend 64 <<< 3)

/-- Whether a condition code of BR holds (Table 16-4). -/
def brHolds (cl : Nat) (x y : Word) : Bool :=
  match cl with
  | 0 => x = y
  | 1 => x ≠ y
  | 2 => x.slt y
  | 3 => !(x.slt y)
  | 4 => !(y.slt x)
  | 5 => y.slt x
  | 6 => x < y
  | 7 => y ≤ x
  | 8 => x ≤ y
  | _ => y < x

/-- BR (R249). -/
def execBr (o : OpB) (s : State) : Host.Outcome State Fault Refusal :=
  run (.br o) s (fun t =>
    if brHolds o.cl.toNat (rg t t.cur o.a.toNat) (rg t t.cur o.b.toNat) then transfer t (target t o) t else .ok (t, nextPc t))

/-- BRZ (R250). -/
def execBrz (o : OpB) (s : State) : Host.Outcome State Fault Refusal :=
  run (.brz o) s (fun t =>
    if (rg t t.cur o.a.toNat = 0) = (o.cl = 0) then transfer t (target t o) t else .ok (t, nextPc t))

/-- JMP (R250). -/
def execJmp (o : OpB) (s : State) : Host.Outcome State Fault Refusal := run (.jmp o) s (fun t => transfer t (target t o) t)

/-- CALL (R250): the link register is cl. -/
def execCall (o : OpB) (s : State) : Host.Outcome State Fault Refusal :=
  run (.call o) s (fun t => transfer t (target t o) (wg t t.cur o.cl.toNat (nextPc t)))

/-- LOOP (R250). -/
def execLoop (o : OpB) (s : State) : Host.Outcome State Fault Refusal :=
  run (.loop o) s (fun t =>
    let x := rg t t.cur o.a.toNat
    if x = 0 then .ok (t, nextPc t)
    else
      let u := wg t t.cur o.a.toNat (x - 1)
      if x - 1 ≠ 0 then transfer t (target t o) u else .ok (u, nextPc t))

/-- A SEND or FORK that stops keeps no message id (R151). -/
def takeBack {α : Type} (s : State) (r : Res α) : Res α :=
  match r with
  | .error (.park w _) => .error (.park w s)
  | .error (.trap f _) => .error (.trap f s)
  | .ok x => .ok x

/-- FORK (R251): a launch to the executing core, sent as a message of class 27. -/
def execFork (o : OpB) (s : State) : Host.Outcome State Fault Refusal :=
  runSeq (.fork o) s (fun t => do
    let c := t.cur
    let k := coreOf c
    let p := target t o
    if p.toNat / 2 ^ 53 ≠ t.device then trapAt cXlatePerm p t
    else
      outputGate t
      let (id, u) := takeMsgid t k
      let m := newMsg 27 (agentOf t c) id (ctxOf t c).lease (agentOf t (8 * k))
        [BitVec.ofNat 64 (p.toNat % 2 ^ 53), rg t c o.a.toNat, rg t c o.b.toNat, (ctxOf t c).acct.setWidth 64, 0, 0]
      takeBack t (bufferMsg u m))

/-- JR (R252): the target is read before the link is written. -/
def execJr (o : OpA) (s : State) : Host.Outcome State Fault Refusal :=
  run (.jr o) s (fun t => transfer t (rg t t.cur o.a.toNat) (wg t t.cur o.d.toNat (nextPc t)))

/-- RET (R252). -/
def execRet (o : OpA) (s : State) : Host.Outcome State Fault Refusal :=
  run (.ret o) s (fun t => transfer t (rg t t.cur o.a.toNat) t)

/-! ### The end of a context's work -/

/-- Logged bytes of one line over a line. -/
def mergeLine (d : BitVec 256) (e : LogLine) : BitVec 256 := (d &&& ~~~e.mask) ||| (e.data &&& e.mask)

/-- The bytes that a log line holds whole, by their place within it. -/
def loggedBytes (e : LogLine) : List (Nat × Byte) :=
  (List.range 32).filterMap (fun i => if e.mask.extractLsb' (8 * i) 8 = 0xFF then some (i, e.data.extractLsb' (8 * i) 8) else none)

/-- One logged line becomes the contents of its addresses (R31, R157): in the data cache, in a scratchpad, or as a store that leaves for
another device (R175). A line behind a CXL port that is down is reported as POISON: its handler has committed (R388; log 115). -/
def commitLine (s : State) (c : Nat) (e : LogLine) : State :=
  let k := coreOf c
  match e.place with
  | .scratch q =>
    (List.range 32).foldl (fun u i =>
      let m := e.mask.extractLsb' (8 * i) 8
      let a := 32 * e.line + i
      if m = 0 then u else keepScratch u c q a ((scratchByte u q a &&& ~~~m) ||| (e.data.extractLsb' (8 * i) 8 &&& m))) s
  | .remote => remoteStore s c true (BitVec.ofNat 64 (32 * e.line)) ((loggedBytes e).map (fun b => (32 * e.line + b.1, b.2)))
  | .memory =>
    if (lineOf s k e.line).isNone && cxlGone s (32 * e.line) then reportCtx s c 0 { code := cPoison, addr := BitVec.ofNat 64 (32 * e.line) } else
    let s := if (lineOf s k e.line).isNone then fillNow s k e.line e.home false else s
    match lineOf s k e.line with
    | some x => setLine s k e.line (some { x with data := mergeLine x.data e, dirty := true, poison := x.poison && e.mask ≠ BitVec.allOnes 256 })
    | none => s

/-- The whole log of a handler. -/
def commitLog (s : State) (c : Nat) : State :=
  modCtx ((ctxOf s c).writeLog.foldl (fun t e => commitLine t c e) s) c (fun x => { x with writeLog := [] })

/-- The region's size for each TKSHARE that a pair handler commits (R36, R148); another device's region has a size that this module does not
know, a power of two from 2^8 to 2^40 (log 17). -/
def countShares (s : State) (k : Nat) (l : List Entry) : State :=
  l.foldl (fun t e => match e with
    | .slice _ _ (.remoteWrite _ (.token _ .share)) =>
      let (w, t) := freeWord t
      modCore t k (fun y => { y with counters := { y.counters with dupbytes := y.counters.dupbytes + BitVec.ofNat 64 (2 ^ (8 + w.toNat % 33)) } })
    | .slice _ _ (.token o) =>
      if o.kind = .share then
        match tokenCovering t o.va with
        | some r => modCore t k (fun y => { y with counters := { y.counters with dupbytes := y.counters.dupbytes + BitVec.ofNat 64 (2 ^ r.lsize) } })
        | none => t
      else t
    | _ => t) s

/-- Cell writes that stand behind a handler's first link move ahead of it: all are performed before it leaves (R173, R309; log 95). -/
def cellsFirst (l : List Entry) : List Entry :=
  let cell := fun (e : Entry) => match e with | .slice _ _ op => writesCell op | _ => false
  match findAt (fun e => match e with | .slice _ _ op => publishes op | _ => false) l 0 with
  | none => l
  | some (i, _) => l.take i ++ (l.drop i).filter cell ++ (l.drop i).filter (fun e => !(cell e))

/-- The commit of a handler (R31, R255): its log, and the blocks of the cells that it took; its entries are still to leave. A drain that issued no MEMIT frees its segment (R331). -/
def commitHandler (s : State) (c : Nat) : State :=
  let s := commitLog s c
  let x := ctxOf s c
  let k := coreOf c
  let s := if x.pair.isSome then countShares s k x.sendBuf else s
  let s := match x.pair with | some p => releaseBlocks s p | none => s
  let s := modCtx s c (fun y => { y with committed := true, sendBuf := cellsFirst y.sendBuf })
  match x.drain with
  | some (row, _) =>
    if x.sendBuf.any (fun e => match e with | .memit r _ _ _ => r = row | _ => false) then s else freeSegment s (vertOf c) (coreNo k) row
  | none => s

/-- The context becomes idle, not before the times of R255 and R256; a gang notes the end of its member (R190). -/
def endContext (s : State) (c wait : Nat) : State :=
  let x := ctxOf s c
  let s := match x.gang with
    | some g => match sget none s.gangs g with
      | some y => { s with gangs := sput none s.gangs g (some { y with ended := y.ended ++ [x.member] }) }
      | none => s
    | none => s
  let s := if x.lockstep then idleCtx s (partnerOf c) else s
  modCtx (idleCtx s c) c (fun y => { y with readyAt := s.cycle + wait })

/-- The end of a handler whose last entry has left: release, then idle (R255). -/
def finishHandler (s : State) (c : Nat) : State := endContext (releaseHandler s c) c 1

/-- A chord that its holder gives up by closing, ending or retiring sends the closing marker; toward a killed core it is gone (R143, R316). -/
def closeChord (s : State) (c : Nat) : State :=
  let k := coreOf c
  match (coreAt s k).chord with
  | some h =>
    if h.holder ≠ c || h.closing then s
    else if (coreAt s h.dest).killed then modCore s k (fun y => { y with chord := none })
    else modCore (modCore s h.dest (fun y => { y with portIn := y.portIn ++ [(s.cycle + latency (vertOf c) (vertexOf h.dest), none)] })) k
      (fun y => { y with chord := some { h with closing := true } })
  | none => s

/-- HRET (R255): in handler mode the budget stops at its issue, the commit comes in the next cycle, the entries after it. -/
def execHret (o : OpE) (s : State) : Host.Outcome State Fault Refusal :=
  run (.hret o) s (fun t => do
    let c := t.cur
    if (ctxOf t c).hmode then
      let t := modCtx t c (stopBudget t)
      let n := pushCount (ctxOf t c).sendBuf
      if returning t c then parkOn .flights t
      else if !(canPush t (coreOf c) n) then parkOn (.dequeFull n) (tellDeque t (coreOf c))
      else .ok (modCtx t c (fun y => { y with run := .leaving }), nextPc t)
    else if returning t c then parkOn .flights t
    else if !(sumsReady t (coreOf c)) then parkOn .storesFull t
    else
      let u := aggFlushAll t c
      if u.flights.any (fun f => f.ctx = c) || pathOut u c u.nextId 31 then parkOn .flights u
      else .ok (endContext (closeChord (endGroup u c) c) c 2, nextPc t))

/-- HABORT (R256): what the handler did goes at once; it gives its message back, and is idle, two cycles later. -/
def execHabort (o : OpE) (s : State) : Host.Outcome State Fault Refusal :=
  run (.habort o) s (fun t =>
    let c := t.cur
    if returning t c then parkOn .flights t
    else if (ctxOf t c).cip then .error (.trap { code := cTrap, reason := 1 } t)
    else .ok (modCtx (rollback (endGroup t c) c) c (fun x => { stopBudget t x with run := .aborting, readyAt := t.cycle + 2 }), nextPc t))

/-- The end of an aborted handler (R256): its message waits last of its class from this cycle on, and a core with work steals no longer (R138).
A drain has no message: its segment waits in its old place, the model's choice (log 128). -/
def endAborted (s : State) (c : Nat) : State :=
  let k := coreOf c
  let s := match slotOf s c with
    | some q => modCore s k (fun y => { y with
        victim := 0, inbox := y.inbox.filter (fun r => r.index ≠ q.index) ++ [{ q with phase := .waiting, since := s.cycle }] })
    | none => s
  let s := match (ctxOf s c).drain with
    | some (row, _) => let g := colOf s (vertOf c) (coreNo k)
      modCore (setCol s (vertOf c) (coreNo k) { g with segs := sput Seg.reset g.segs row { sget Seg.reset g.segs row with started := false } }) k
        (fun y => { y with victim := 0 })
    | none => s
  endContext s c 0

/-- The mask of HOLD and RELEASE (R257). -/
def holdMask (s : State) (o : OpE) : BitVec 16 := o.imm ||| (rg s s.cur o.a.toNat).setWidth 16

/-- HOLD and RELEASE: the old hold register is the result, and the selector sees the change from the next cycle (R126, R257). -/
def changeHold (s : State) (o : OpE) (f : BitVec 16 → BitVec 16) : Res State := do
  settle s
  let k := coreOf s.cur
  .ok (modCore (keepHolds (wg s s.cur o.d.toNat ((coreAt s k).hold.setWidth 64)) k) k (fun x => { x with hold := f x.hold }))

/-- HOLD (R257). -/
def execHold (o : OpE) (s : State) : Host.Outcome State Fault Refusal :=
  runSeq (.hold o) s (fun t => changeHold t o (fun h => h ||| holdMask t o))

/-- RELEASE (R257). -/
def execRelease (o : OpE) (s : State) : Host.Outcome State Fault Refusal :=
  runSeq (.release o) s (fun t => changeHold t o (fun h => h &&& ~~~(holdMask t o)))

/-- YIELD (R258): not ready until issue + 2 + n. -/
def execYield (o : OpE) (s : State) : Host.Outcome State Fault Refusal :=
  runPure (.yield o) s (fun t => modCtx t t.cur (fun x => { x with readyAt := max x.readyAt (t.cycle + 2 + o.imm.toNat) }))

/-- Whether a request to pre-empt the gang of a context is pending (R194). -/
def preemptPending (s : State) (c : Nat) : Bool :=
  match (ctxOf s c).gang with
  | some g => (match sget none s.gangs g with | some y => y.preempt | none => false)
  | none => false

/-- GYIELD (R258): a member stops there while a request is pending. -/
def execGyield (o : OpE) (s : State) : Host.Outcome State Fault Refusal :=
  runPure (.gyield o) s (fun t =>
    if preemptPending t t.cur then modCtx t t.cur (fun x => { x with run := .preempted }) else t)

/-- NOP (R232). -/
def execNop (o : OpE) (s : State) : Host.Outcome State Fault Refusal := runPure (.nop o) s (fun t => t)

/-- A word that is no instruction (R231): the checks at issue fault it. -/
def execIllegalPattern (w : Word) (s : State) : Host.Outcome State Fault Refusal := runPure (.illegalPattern w) s (fun t => t)

/-! ### Gang barriers -/

/-- Members of a barrier go on: they pass their GBAR when they issue it again. -/
def passMembers (s : State) (l : List Nat) : State :=
  l.foldl (fun t c => modCtx t c (fun x => { x with passBarrier := true, barrierArrived := false, run := if x.run = .stalled .gbar then .ready else x.run })) s

/-- The arrivals at the wired barrier of a cluster for one gang. -/
def wiredOf (s : State) (v g : Nat) : List (Nat × Bool) := (clusterAt s v).wired.filter (fun e => (ctxOf s e.1).gang = some g)

/-- The eighth arrival at a wired barrier (R259): different scopes fault all eight; 0 completes it; 1 is the cluster's arrival at the
mesh barrier of the gang. -/
def wiredComplete (s : State) (v g : Nat) : Res State :=
  let l := wiredOf s v g
  let s := modCluster s v (fun x => { x with wired := x.wired.filter (fun e => !(l.contains e)) })
  let members := l.map (·.1)
  if l.any (fun e => e.2 ≠ (l.headD (0, false)).2) then
    let s := members.foldl (fun t c => modCtx t c (fun x => { x with barrierArrived := false })) s
    .error (.trap { code := cGangMismatch }
      ((members.filter (· ≠ s.cur)).foldl (fun t c => takeTrap (countEvent t c) c { code := cGangMismatch }) s))
  else if !((l.headD (0, false)).2) then .ok (passMembers s (members.filter (· ≠ s.cur)))
  else
    match sget none s.gangs g with
    | some y => parkOn .gbar { s with gangs := sput none s.gangs g (some { y with arrived := y.arrived ++ [v], arrivedAt := s.cycle }) }
    | none => parkOn .gbar s

/-- GBAR (R259): it waits for the context's earlier accesses, then arrives, and goes on when the barrier completes. -/
def execGbar (o : OpE) (s : State) : Host.Outcome State Fault Refusal :=
  runSeq (.gbar o) s (fun t => do
    let c := t.cur
    let x := ctxOf t c
    let v := vertOf c
    let g := x.gang.getD 0
    if x.passBarrier then .ok (modCtx t c (fun y => { y with passBarrier := false, barrierArrived := false }))
    else if (match sget none t.gangs g with | some y => y.lost | none => false) then trapWith cGangLost t
    else if x.barrierArrived then parkOn .gbar t
    else if !(sumsReady t (coreOf c)) then parkOn .storesFull t
    else
      let t := aggFlushAll t c
      if t.flights.any (fun f => f.ctx = c) || pathOut t c t.nextId 31 then parkOn .flights t
      else
        let t := modCtx t c (fun y => { y with barrierArrived := true })
        let t := modCluster t v (fun y => { y with wired := y.wired ++ [(c, decide (o.imm = 1))] })
        if (wiredOf t v g).length < 8 then parkOn .gbar t
        else
          let u ← wiredComplete t v g
          .ok (modCtx u c (fun y => { y with passBarrier := false, barrierArrived := false })))

end Sys2Proof.Machine
end

