-- ==== Sys2Proof/Machine/MsgInstr.lean ====
section
/-! DEFINITION. SEND, MREL, chords and neighbour writes (R77 to R80, R143, R312 to R317). -/

namespace Sys2Proof.Machine

/-- The payload group of SEND and GSEND: zero for b = 0 (R312). -/
def payloadOf (s : State) (c : Nat) (b : BitVec 6) : List Word := if b = 0 then [0, 0, 0, 0, 0, 0] else rgs s c b.toNat 6

/-- The message of a SEND (R312, R313, Table 19-3). -/
def sendMessage (s : State) (c : Nat) (o : OpE) (id : BitVec 16) : Msg :=
  let w := (rg s c o.a.toNat).toNat
  let cls := o.imm.toNat % 32
  let pay := payloadOf s c o.b
  if nbit o.imm.toNat 5 then
    { newMsg cls (agentOf s c) id (ctxOf s c).lease (bits w 26 16 * 65536) pay with
      placed := some (mkVertex (bits w 4 0) (bits w 8 5), bits w 12 9, bits w 26 16)
      bad := bits w 63 27 ≠ 0 || bits w 15 13 ≠ 0 }
  else
    { newMsg cls (agentOf s c) id (if nbit w 43 then BitVec.ofNat 16 (bits w 42 27) else (ctxOf s c).lease) (bits w 26 0) pay with
      checked := nbit w 43, bad := bits w 63 44 ≠ 0 }

/-- SEND (R312, R313). -/
def execSend (o : OpE) (s : State) : Host.Outcome State Fault Refusal :=
  runSeq (.send o) s (fun t => do
    let c := t.cur
    outputGate t
    let (id, u) := takeMsgid t (coreOf c)
    takeBack t (bufferMsg (wg u c o.d.toNat (id.setWidth 64)) (sendMessage t c o id)))

/-- MREL (R314). -/
def execMrel (o : OpE) (s : State) : Host.Outcome State Fault Refusal :=
  runSeq (.mrel o) s (fun t => do
    settle t
    let c := t.cur
    match slotOf t c with
    | some q =>
      if (ctxOf t c).mapped then .ok (modCtx (markCip (freeSlot t (coreOf c) q.index) c) c (fun x => { x with mapped := false, slot := none })) else .ok t
    | none => .ok t)

/-! ### Chords -/

/-- CHOPEN (R143, R316). -/
def execChopen (o : OpE) (s : State) : Host.Outcome State Fault Refusal :=
  runSeq (.chopen o) s (fun t => do
    let c := t.cur
    let k := coreOf c
    let a := rg t c o.a.toNat
    let dest := coreOf (agentLocal a.toNat)
    if 2 ^ 27 ≤ a.toNat || agentDevice a.toNat ≠ t.device || !(isExecute dest) then trapAt cXlatePerm a t
    else if (match (coreAt t k).chord with | some h => h.holder = c && !h.closing | none => false) then trapAt cChordTimeout a t
    else if (coreAt t dest).killed then trapAt cDeadPeer a t
    else
      settle t
      let since := match (ctxOf t c).cooked with | some w => w.toNat | none => t.cycle
      if since + 2 ^ 20 ≤ t.cycle then trapAt cChordTimeout a t
      else if (coreAt t k).chord.isSome || (coreAt t dest).portHolder.isSome then parkOn (.chordOpen since dest) t
      else
        let u := modCore t k (fun x => { x with chord := some { holder := c, dest := dest, closing := false } })
        let u := modCore u dest (fun x => { x with portHolder := some k, portDead := false })
        .ok (notBefore u c (t.cycle + 2 * latency (vertOf c) (vertexOf dest) + 4)))

/-- A fault that also releases a route, once the context's earlier accesses have taken their full effect (R143, R151). -/
def faultReleasing {α : Type} (s : State) (code : Nat) (release : State → State) : Res α :=
  if unfinished s s.cur then parkOn .flights s else trapWith code (release s)

/-- CHPUT (R316): from a vector register or a pop. -/
def execChput (o : OpE) (s : State) : Host.Outcome State Fault Refusal :=
  runSeq (.chput o) s (fun t => do
    let c := t.cur
    let k := coreOf c
    match (coreAt t k).chord with
    | none => .ok t
    | some h =>
      if (coreAt t h.dest).killed then faultReleasing t cDeadPeer (fun u => modCore u k (fun x => { x with chord := none }))
      else
        passFence t 4
        outputGate t
        portsServe t [o.a] none
        let p := coreAt t h.dest
        if 16 ≤ p.port.length + p.portIn.length then parkOn .chordPut t
        else
          let (x, u) := readSlot t o.a
          .ok (modCore u h.dest (fun y => { y with portIn := y.portIn ++ [(t.cycle + latency (vertOf c) (vertexOf h.dest), some x)] })))

/-- The receive port among the ports whose takes go to contexts in issue order (R78, R316). -/
def chordPort : Nat := 4

/-- CHGET (R316): the oldest entry of the core's port, to the contexts in issue order; the marker releases route and port. -/
def execChget (o : OpE) (s : State) : Host.Outcome State Fault Refusal :=
  runSeq (.chget o) s (fun t => do
    let c := t.cur
    let k := coreOf c
    let x := coreAt t k
    if x.portDead then trapWith cDeadPeer t
    else
      settle t
      let t := keepPop t [chordPort]
      if popAhead t [chordPort] then parkOn .chordGet t else
      match x.port with
      | [] => parkOn .chordGet t
      | some v :: r => .ok (wg (wv (modCore t k (fun y => { y with port := r })) c o.d.toNat v) c o.c.toNat 0)
      | none :: r =>
        let u := match x.portHolder with | some h => modCore t h (fun y => { y with chord := none }) | none => t
        .ok (wg (wv (modCore u k (fun y => { y with port := r, portHolder := none })) c o.d.toNat 0) c o.c.toNat 1))

/-- CHCLOSE (R316). -/
def execChclose (o : OpE) (s : State) : Host.Outcome State Fault Refusal :=
  runSeq (.chclose o) s (fun t => do
    settle t
    .ok (closeChord t t.cur))

/-- CHORD_WORD_ARRIVAL: the oldest word on its way to a core's receive port arrives, after its flight (R12, R143, R316). -/
def execChordWordArrival (core : Nat) (s : State) : Host.Outcome State Fault Refusal :=
  .next (match (coreAt s core).portIn with
    | [] => s
    | (due, x) :: r => if s.cycle < due then s else modCore s core (fun y => { y with port := y.port ++ [x], portIn := r }))

/-- CHORD_TIMEOUT: a CHOPEN that has waited 2^20 cycles faults (R143). -/
def execChordTimeout (c : Nat) (s : State) : Host.Outcome State Fault Refusal :=
  .next (match (ctxOf s c).run with
    | .stalled (.chordOpen since _) =>
      if s.cycle < since + 2 ^ 20 || unfinished s c then s else takeTrap (countEvent s c) c { code := cChordTimeout }
    | _ => s)

/-! ### Neighbour registers -/

/-- The core whose register j an NPUT of core k writes (R317). -/
def neighbourOf (k j : Nat) : Nat := k / 16 * 16 + (if j < 2 then (coreNo k + 1) % 8 else (coreNo k + 7) % 8)
/-- The core that feeds register j of core k (R80). -/
def feederOf (k j : Nat) : Nat := k / 16 * 16 + (if j < 2 then (coreNo k + 7) % 8 else (coreNo k + 1) % 8)

/-- Write a neighbour register and set its presence bit (R80). -/
def putNeighbour (s : State) (k j : Nat) (x : Word) : State :=
  modCore s k (fun y => { y with n := sput 0 y.n j x, npres := y.npres ||| (1 : BitVec 4) <<< j })

/-- The NPUTs of a core that wait to write register j of core k, with the cycle of their issue and their context: those stalled at it, and the
entries of handlers that have committed (R160). -/
def putsWaiting (s : State) (core k j : Nat) : List (Nat × Nat) :=
  ((List.range 8).map (8 * core + ·)).flatMap (fun c => match (ctxOf s c).run with
    | .stalled (.nWrite k' o _ since) => if k' = k && o.imm.toNat % 4 = j then [(since, c)] else []
    | .leaving => (ctxOf s c).sendBuf.filterMap (fun e => match e with
        | .nput i _ since => if i = j && neighbourOf core i = k then some (since, c) else none
        | _ => none)
    | _ => [])

/-- Whether a write of register j of core k can be made now: it is clear, and no earlier NPUT of the core waits for it (R80, R160). -/
def putOpen (s : State) (core k j : Nat) : Bool := !(nbit (coreAt s k).npres.toNat j) && (putsWaiting s core k j).isEmpty

/-- NPUT (R80, R317): one that waits keeps its value and its place (R160). -/
def execNput (o : OpE) (s : State) : Host.Outcome State Fault Refusal :=
  runSeq (.nput o) s (fun t => do
    let c := t.cur
    let j := o.imm.toNat % 4
    let k := neighbourOf (coreOf c) j
    let x := rg t c o.a.toNat
    if (coreAt t k).killed then trapWith cDeadPeer t
    else
      outputGate t
      sendBuffer t (.nput j x t.cycle) (fun u =>
        if putOpen u (coreOf c) k j then .ok (putNeighbour u k j x) else parkOn (.nWrite k o x u.cycle) u))

/-- NEIGHBOUR_RESUME: a neighbour read or a waiting NPUT goes on when the presence bit changed, or its other core was killed (R80). Of
several readers the next in issue rotation reads; of several NPUTs the earliest is performed, and its instruction is complete (R160). -/
def execNeighbourResume (c : Nat) (s : State) : Host.Outcome State Fault Refusal :=
  .next (let k := coreOf c
    let go := modCtx s c (fun x => { x with run := .ready })
    match (ctxOf s c).run with
    | .stalled (.nRead j) =>
      let order := (List.range 8).map (fun i => 8 * k + ((coreAt s k).turn + 1 + i) % 8)
      let first := order.find? (fun d => (ctxOf s d).run = .stalled (.nRead j))
      if (nbit (coreAt s k).npres.toNat j && first = some c) || (coreAt s (feederOf k j)).killed then go else s
    | .stalled (.nWrite dest o x since) =>
      let j := o.imm.toNat % 4
      if (coreAt s dest).killed then go
      else if nbit (coreAt s dest).npres.toNat j || (putsWaiting s k dest j).any (fun e => e.1 < since) then s
      else retire (.nput o) (putNeighbour { go with cur := c } dest j x) ((ctxOf s c).pc + 8)
    | _ => s)

end Sys2Proof.Machine
end

