-- ==== Sys2Proof/Machine/Tokens.lean ====
section
/-! DEFINITION. Token instructions: who may move a token, what a move changes, the implied flush, carving and freeing, reclaim
(R106 to R120, R297 to R303). -/

namespace Sys2Proof.Machine

/-! ### Words and checks -/

/-- A holder word in the layout of Table 06-2 whose kind is accepted and whose agent exists (R297). -/
def holderOk (kinds : List Nat) (w : Word) : Bool :=
  kinds.contains (holderKind w) &&
    (match holderKind w with
    | 1 => holderVal w < 2 ^ 27 && namesAgent (holderVal w)
    | 2 => holderVal w = 0
    | 3 => holderVal w % 32 = 0
    | 4 => holderVal w % 256 = 0
    | _ => false)

/-- Holder kinds that each instruction takes in g[b] (Table 18-3). -/
def kindsOf : TokenKind → List Nat
  | .lend => [1, 2]
  | .share => [1, 2, 3, 4]
  | .park | .parkShare => [3, 4]
  | _ => []

/-- The share record that an agent may use (R111). -/
def shareOf (s : State) (ws : List Word) (g : Option Nat) (t : Token) : Option Word :=
  t.records.find? (fun r => ws.contains r || (holderKind r = 4 && (match g with | some i => (recordHolders s i).contains r | none => false)))

/-- The buddy of an entry, as another entry of its size. -/
def buddyOf (s : State) (t : Token) : Option Token :=
  (sget none s.tokens (t.base ^^^ 2 ^ t.lsize)).filter (fun u => u.lsize = t.lsize)

/-- Whether the "Allowed when" column of Table 06-5 holds. -/
def tokenAllowed (s : State) (ws : List Word) (g : Option Nat) (o : TokenOp) (t : Token) : Bool :=
  let mine := holdsToken s ws g t
  let whole := t.mode ≠ .frozen && t.lender = 0 && shareCount t = 0
  match o.kind with
  | .lend | .park => mine && whole
  | .ret => mine && shareCount t = 0
  | .share => mine && t.mode ≠ .commons && shareCount t < 65534 && !(t.records.contains o.holder) && t.holder ≠ o.holder
  | .drop | .parkShare => (shareOf s ws g t).isSome
  | .split => mine && whole && 8 < t.lsize
  | .join => mine && t.lender = 0 && shareCount t = 0 && t.lsize < 40 &&
      (match buddyOf s t with
      | some u => holdsToken s ws g u && u.mode = t.mode && u.acct = t.acct && u.lender = 0 && shareCount u = 0
      | none => false)
  | _ => true

/-- Whether the issuer still holds what an instruction requires: the token, or a share (R110). -/
def tokenNeeded (s : State) (ws : List Word) (g : Option Nat) (o : TokenOp) (t : Token) : Bool :=
  match o.kind with
  | .drop | .parkShare => (shareOf s ws g t).isSome
  | .lend | .ret | .park | .share | .split | .join => holdsToken s ws g t
  | _ => true

/-- All share records of the device (R108). -/
def recordCount (s : State) : Nat := s.tokens.foldl (fun n e => match e.2 with | some t => n + t.records.length | none => n) 0

/-- Room for the entry or the share record that an instruction needs (R108). -/
def tokenRoom (s : State) (k : TokenKind) : Bool :=
  match k with
  | .share => recordCount s < Config.shareRecords
  | .split | .carve => s.tokens.length < Config.tokenEntries
  | _ => true

/-- The fault of a token instruction on an entry, none when it may go on (R115, R297, R395). -/
def tokenBad (s : State) (ws : List Word) (g : Option Nat) (o : TokenOp) (t : Token) : Option FaultInfo :=
  let at_ := fun (reason : Nat) (detail : Word) =>
    ({ code := cTokenBadop, addr := BitVec.ofNat 64 (s.device * 2 ^ 53 + o.va), detail := detail, reason := reason, xfer := t.xfer } : FaultInfo)
  if !(kindsOf o.kind).isEmpty && !(holderOk (kindsOf o.kind) o.holder) then some (at_ 2 o.holder)
  else if !(tokenAllowed s ws g o t) then some (at_ 0 0)
  else if !(tokenRoom s o.kind) then some (at_ 1 0)
  else none

/-! ### Free pools and charges (R118, R119) -/

/-- A freed block joins its free buddy, again and again. -/
def poolAdd : Nat → List (Nat × Nat) → Nat × Nat → List (Nat × Nat)
  | 0, p, b => sins b.1 b.2 p
  | fuel + 1, p, b =>
    if p.contains (b.1 ^^^ 2 ^ b.2, b.2) then poolAdd fuel (p.filter (fun e => e.1 ≠ b.1 ^^^ 2 ^ b.2)) (min b.1 (b.1 ^^^ 2 ^ b.2), b.2 + 1)
    else sins b.1 b.2 p

/-- The upper halves left when a block of size 2^l is taken from the start of a block of size 2^m. -/
def leftovers (base l m : Nat) : List (Nat × Nat) := (List.range (m - l)).map (fun i => (base + 2 ^ (l + i), l + i))

/-- The lowest-addressed free aligned block of a size in a pool kept by rising address, and the pool without it. -/
def poolTake (p : List (Nat × Nat)) (l : Nat) : Option (Nat × List (Nat × Nat)) :=
  (p.find? (fun e => l ≤ e.2)).map (fun e => (e.1, (leftovers e.1 l e.2).foldl (fun q x => sins x.1 x.2 q) (p.filter (fun x => x.1 ≠ e.1))))

/-- A region goes back to its account: entry removed, charge lowered, block to the pool (R37, R119). -/
def freeRegion (s : State) (t : Token) : State :=
  let a := accountOf s t.acct.toNat
  setAccount (dropToken s t.base) t.acct.toNat { a with charge := a.charge - 2 ^ t.lsize, pool := poolAdd 64 a.pool (t.base, t.lsize) }

/-! ### Entry changes -/

/-- The core of a holder word that is a context of this module. -/
def coreOfHolder (s : State) (w : Word) : Option Nat :=
  if holderKind w = 1 && agentDevice (holderVal w) = s.device then some (coreOf (agentLocal (holderVal w))) else none

/-- The entry with a new holder. -/
def withHolder (t : Token) (holder lender : Word) (clean : Bool) : Token :=
  { t with holder := holder, lender := lender, xfer := t.xfer + 1, wr := t.wr && !clean }

/-- Issuer and receiver of a loan or return are contexts of one core (R117, R159). -/
def sameCore (s : State) (k : Nat) (o : TokenOp) (t : Token) : Bool :=
  match o.kind with
  | .lend => coreOfHolder s o.holder = some k
  | .ret => t.lender ≠ 0 && coreOfHolder s t.lender = some k
  | _ => false

/-- The token-cache entry of a new holder on the issuer's core (R159), unless the region is tainted (R113). -/
def fillHolder (s : State) (k : Nat) (t : Token) : State :=
  if coreOfHolder s t.holder = some k && !t.taint then
    modCore s k (fun y => { y with tokenCache :=
      ({ ctx := holderVal t.holder % 8, base := t.base, lsize := t.lsize, mode := t.mode, holds := true, shares := false, xfer := t.xfer } :: y.tokenCache).take 64 })
  else s

/-- The lines of a region in a core's data cache. -/
def regionLines (s : State) (k : Nat) (t : Token) : List Nat := (cachedIn s k t.base (2 ^ t.lsize)).map (·.2)

/-- Whether a physical address lies in a region. -/
def regionHas (s : State) (t : Token) (pa : Nat) : Bool :=
  (pieces t.base (2 ^ t.lsize)).any (fun p =>
    match walkNow s p.1 with
    | .leaf page _ e => leafPa page p.1 e ≤ pa && pa < leafPa page p.1 e + p.2
    | .fault _ => false)

/-- Whether a core still holds a dirty line of a region: then an implied flush of another core leaves wr set (R114). -/
def stillDirty (s : State) (t : Token) : Bool :=
  s.cores.any (fun e => (regionLines s e.1 t).any (fun l => match lineOf s e.1 l with | some x => x.dirty | none => false))

/-- The change of Table 06-5, in one step at the home slice; the issuer's core forgets what it cached of the region. Share records that come to
name one holder word, as two sharers parked on one cell, stay two records: the model's choice (log 132). -/
def applyToken (s : State) (ws : List Word) (g : Option Nat) (k : Nat) (o : TokenOp) (t : Token) : State :=
  let same := sameCore s k o t
  let share := (shareOf s ws g t).getD 0
  let clean := !(stillDirty s t)
  let s := uncache s k t.base
  match o.kind with
  | .lend => (fun u => if same then fillHolder u k (withHolder t o.holder t.holder (!same && clean)) else u) (setToken s (withHolder t o.holder t.holder (!same && clean)))
  | .ret =>
    if t.lender = 0 then freeRegion s t
    else (fun u => if same then fillHolder u k (withHolder t t.lender 0 (!same && clean)) else u) (setToken s (withHolder t t.lender 0 (!same && clean)))
  | .park => setToken s (withHolder t o.holder t.lender clean)
  | .share => setToken s { t with mode := .frozen, records := t.records ++ [o.holder], xfer := t.xfer + 1, wr := t.wr && !clean }
  | .drop =>
    let l := removeFirst (fun r => r = share) t.records
    setToken s { t with records := l, mode := if l.isEmpty && !t.opened then .exclusive else t.mode, xfer := t.xfer + 1 }
  | .parkShare => setToken s { t with records := replaceFirst (fun r => r = share) (fun _ => o.holder) t.records }
  | .split =>
    let lo := { t with lsize := t.lsize - 1, xfer := t.xfer + 1 }
    setToken (setToken (dropToken s t.base) lo) { lo with base := t.base + 2 ^ (t.lsize - 1) }
  | .join =>
    match buddyOf s t with
    | none => s
    | some u =>
      let s := uncache (dropToken (dropToken s t.base) u.base) k u.base
      setToken s { t with
        base := min t.base u.base, lsize := t.lsize + 1, taint := t.taint || u.taint, wr := t.wr || u.wr,
        xfer := (if t.xfer < u.xfer then u.xfer else t.xfer) + 1 }
  | .clean => setToken s { t with taint := false }
  | _ => s

/-! ### The implied flush (R117) -/

/-- Whether a token instruction writes the region's dirty lines back, and whether it then drops its lines. -/
def flushBack (s : State) (k : Nat) (o : TokenOp) (t : Token) : Bool :=
  match o.kind with
  | .lend | .park | .share => !(sameCore s k o t)
  | .ret => t.lender ≠ 0 && !(sameCore s k o t)
  | _ => false
/-- See `flushBack`. -/
def flushDrop (s : State) (k : Nat) (o : TokenOp) (t : Token) : Bool :=
  match o.kind with
  | .lend | .park | .ret => !(sameCore s k o t)
  | .drop | .parkShare => true
  | _ => false

/-- The dirty lines that an instruction writes back first. -/
def flushDirty (s : State) (k : Nat) (o : TokenOp) (t : Token) : List Nat :=
  if flushBack s k o t then (regionLines s k t).filter (fun l => match lineOf s k l with | some x => x.dirty | none => false) else []

/-- Drop a region's lines from a core, unwritten; those still on their way are not to enter its cache (R168). -/
def dropRegion (s : State) (k : Nat) (t : Token) : State :=
  modCore ((regionLines s k t).foldl (fun u l => setLine u k l none) s) k (fun x => { x with
    fills := x.fills.map (fun f => if regionHas s t (32 * f.line) then { f with stale := true } else f) })

/-- Drop the region's lines when the instruction does. -/
def dropLines (s : State) (k : Nat) (o : TokenOp) (t : Token) : State := if flushDrop s k o t then dropRegion s k t else s

/-- The home slice of an entry: of the line of its base (R108). -/
def tokenHome (s : State) (base : Nat) : Nat :=
  match walkNow s base with
  | .leaf page _ e => leafHome e (leafPa page base e)
  | .fault _ => homeSlice true 0 base

/-- Cycles to the entry, or to the farther of two (R117). -/
def tokenHop (s : State) (c : Nat) (o : TokenOp) (t : Token) : Nat :=
  match o.kind with
  | .split => max (hop c (tokenHome s t.base)) (hop c (tokenHome s (t.base + 2 ^ (t.lsize - 1))))
  | .join => max (hop c (tokenHome s t.base)) (hop c (tokenHome s (t.base ^^^ 2 ^ t.lsize)))
  | _ => hop c (tokenHome s t.base)

/-- A token instruction on its way: write-backs first, then its entry change at cycle D + W + L + 3, its result at D + W + 2L + 6
(R117). -/
def sendToken (s : State) (c : Nat) (posted : Bool) (o : TokenOp) (t : Token) : State :=
  let dirty := flushDirty s (coreOf c) o t
  let (d, w) := flushCost s c dirty
  let l := tokenHop s c o t
  let x := ctxOf s c
  let home := tokenHome s t.base
  let f : Flight Regs :=
    { id := s.nextId, ctx := c, group := x.groupNo, path := 1, ordered := false, posted := posted, slice := home % 2048, cls := home / 2048
      ea := BitVec.ofNat 64 (s.device * 2 ^ 53 + o.va), op := .token o, wb := dirty, done := false, pc := x.pc, undo := if posted then none else some x.regs
      due := s.cycle + d + w + l + 3 + x.late, back := s.cycle + d + w + 2 * l + 6 + x.late, fault := none, net := netOf s c }
  { s with nextId := s.nextId + 1, flights := s.flights ++ [f] }

/-- The entry as the issuer's token cache or a walk finds it, and the transfer count seen (R110, R298). -/
def tokenSeen (s : State) (c va : Nat) : Option (Token × BitVec 32) :=
  match tokenHit s c 0 va with
  | some e => match sget none s.tokens e.base with
    | some t => some (t, e.xfer)
    | none => (tokenProbe s va).map (fun t => (t, e.xfer))
  | none => (tokenProbe s va).map (fun t => (t, t.xfer))

/-- What TKSPLIT and TKJOIN write (R298); 0 for the others. -/
def tokenResult (s : State) (o : TokenOp) (t : Token) : Word :=
  match o.kind with
  | .split => BitVec.ofNat 64 (s.device * 2 ^ 53 + t.base + 2 ^ (t.lsize - 1))
  | .join => BitVec.ofNat 64 (s.device * 2 ^ 53 + t.base / 2 ^ (t.lsize + 1) * 2 ^ (t.lsize + 1))
  | _ => 0

/-- A token instruction waits for what can still fault and for the context's accesses that return something (R151, R169). -/
def tokenGate (s : State) : Res Unit := if returning s s.cur then parkOn .flights s else outputGate s

/-- One that acts within its step waits for fences that name its path too (R180). -/
def tokenGateNow (s : State) : Res Unit := do
  passFence s 1
  tokenGate s

/-- A token instruction on a region of another device (R177): it goes there, what it writes is not this module's state; a holder word that
names no agent, or of a kind that it does not take, faults (R15, R297); in handler mode it is checked there at issue (R298). -/
def tokenRemote (s : State) (ea : Word) (d : Nat) (kind : TokenKind) (holder : Word) : Res State := do
  if !(kindsOf kind).isEmpty && !(holderOk (kindsOf kind) holder) then
    .error (.trap { code := cTokenBadop, addr := ea, detail := holder, reason := 2 } s)
  remoteOk s ea
  tokenGate s
  let c := s.cur
  if (ctxOf s c).hmode && kind ≠ .clean then remoteCheck s ea .token
  let s := forgetRemote s c ea true
  if (ctxOf s c).hmode && kind ≠ .clean then
    let (x, s) := freeWord s
    let s ← sendBuffer s (.slice false 0 (.remoteWrite ea (.token 0 kind))) (fun u => .ok u)
    .ok (wg s c d x)
  else if s.flights.any (fun f => f.ctx = c) then parkOn .flights s
  else .ok (sendFlight s c 1 false false 0 (.remoteWrite ea (.token d kind)) 2)

/-- The core's sums for words of a region: the adds of its contexts to it are to be performed before its token leaves (R117, R168). -/
def sumsOf (s : State) (k : Nat) (t : Token) : Bool := (coreAt s k).agg.any (fun e => e.1 < aggAbroad && regionHas s t e.1)

/-- Accesses that a token instruction of a context on a region follows: its own to the region, and sums of its core for it (R168). -/
def regionOut (s : State) (c : Nat) (t : Token) : Bool :=
  sumsOf s (coreOf c) t ||
    s.flights.any (fun f => (f.ctx = c || (f.path = 7 && coreOf f.ctx = coreOf c)) && (opSpan f.op).any (fun p => regionHas s t p.1))

/-- TKLEND, TKRET, TKSHARE, TKDROP, TKPARK, TKSPLIT and TKJOIN (R115, R117, R298): in handler mode they are checked at issue and go into the
send buffer; otherwise they are on their way once the context's earlier accesses have completed, and are checked at their slice (R177). -/
def tokenInstr (s : State) (o : OpA) (kind : TokenKind) : Res State := do
  let c := s.cur
  let ea := rg s c o.a.toNat
  let d := o.d.toNat
  if ea.toNat / 2 ^ 53 ≠ s.device then tokenRemote s ea d kind (rg s c o.b.toNat)
  else
    let va := ea.toNat % 2 ^ 53
    match tokenSeen s c va with
    | none => trapAt cTokenNone ea s
    | some (t, x) =>
      let op : TokenOp := { kind := kind, va := va, holder := rg s c o.b.toNat, d := d, lsize := 0, commons := false, xfer := x, retried := false }
      let bad := if (ctxOf s c).hmode then tokenBad s (holderWords s c 0) (graphOfCtx s c) op t else none
      match bad with
      | some f => .error (.trap f s)
      | none => do
        tokenGate s
        if (ctxOf s c).hmode then
          let u ← sendBuffer s (.slice false (tokenHome s t.base) (.token op)) (fun u => .ok u)
          .ok (wg u c d (tokenResult s op t))
        else if sumsOf s (coreOf c) t then (if sumsReady s (coreOf c) then parkOn .flights (aggFlushAll s c) else parkOn .storesFull s)
        else if regionOut s c t then parkOn .flights s
        else .ok (sendToken s c false op t)

/-- TKLEND (Table 18-3). -/
def execTklend (o : OpA) (s : State) : Host.Outcome State Fault Refusal := runSeq (.tklend o) s (fun t => tokenInstr t o .lend)
/-- TKRET (Table 18-3). -/
def execTkret (o : OpA) (s : State) : Host.Outcome State Fault Refusal := runSeq (.tkret o) s (fun t => tokenInstr t o .ret)
/-- TKSPLIT (Table 18-3). -/
def execTksplit (o : OpA) (s : State) : Host.Outcome State Fault Refusal := runSeq (.tksplit o) s (fun t => tokenInstr t o .split)
/-- TKJOIN (Table 18-3). -/
def execTkjoin (o : OpA) (s : State) : Host.Outcome State Fault Refusal := runSeq (.tkjoin o) s (fun t => tokenInstr t o .join)
/-- TKSHARE (Table 18-3). -/
def execTkshare (o : OpA) (s : State) : Host.Outcome State Fault Refusal := runSeq (.tkshare o) s (fun t => tokenInstr t o .share)
/-- TKDROP (Table 18-3). -/
def execTkdrop (o : OpA) (s : State) : Host.Outcome State Fault Refusal := runSeq (.tkdrop o) s (fun t => tokenInstr t o .drop)
/-- TKPARK (R300): mod[0] parks the share. -/
def execTkpark (o : OpA) (s : State) : Host.Outcome State Fault Refusal :=
  runSeq (.tkpark o) s (fun t => tokenInstr t o (if nbit o.md.toNat 0 then .parkShare else .park))

/-- 64 KiB units of a region, rounded up, above the units that are free (R395). -/
def quotaDetail (size free : Nat) : Word := BitVec.ofNat 64 (ceilDiv size 65536 % 2 ^ 32 * 2 ^ 32 + free % 2 ^ 32)

/-- TKCARVE (R118, R299): at once. -/
def execTkcarve (o : OpA) (s : State) : Host.Outcome State Fault Refusal :=
  runSeq (.tkcarve o) s (fun t => do
    let c := t.cur
    let l := o.md.toNat % 64
    let acct := (ctxOf t c).acct
    let a := accountOf t acct.toNat
    if a.quota.toNat * 65536 < a.charge + 2 ^ l then
      .error (.trap { code := cQuota, reason := 0, detail := quotaDetail (2 ^ l) ((a.quota.toNat * 65536 - a.charge) / 65536) } t)
    else
      match poolTake a.pool l with
      | none => .error (.trap { code := cQuota, reason := 1, detail := quotaDetail (2 ^ l) (a.pool.foldl (fun m e => max m (2 ^ e.2)) 0 / 65536) } t)
      | some (base, pool) =>
        if !(tokenRoom t .carve) then .error (.trap { code := cTokenBadop, reason := 1 } t)
        else do
          tokenGateNow t
          let e : Token :=
            { base := base, lsize := l, mode := if nbit o.md.toNat 7 then .commons else .exclusive, holder := holderAgent (agentOf t c), lender := 0,
              opened := false, records := [], xfer := 0, acct := acct, taint := false, wr := false }
          let u := setToken (setAccount t acct.toNat { a with charge := a.charge + 2 ^ l, pool := pool }) e
          let u := notBefore (markCip u c) c (t.cycle + 2 * hop c (tokenHome t base) + 14)
          .ok (wg u c o.d.toNat (BitVec.ofNat 64 (t.device * 2 ^ 53 + base))))

/-- The four words of an entry (Tables 06-1 to 06-3). -/
def tokenWords (t : Token) : List Word :=
  [BitVec.ofNat 64 (t.base + (match t.mode with | .exclusive => 0 | .frozen => 1 | .commons => 2) * 64 + t.lsize), t.holder, t.lender,
    BitVec.ofNat 64 (shareCount t * 2 ^ 48 + t.xfer.toNat * 2 ^ 16 + t.acct.toNat * 16 + t.taint.toNat * 8 + t.wr.toNat * 4)]

/-- TKSTAT (R299): read at the home slice, in every mode, after the context's earlier accesses (R169). -/
def execTkstat (o : OpA) (s : State) : Host.Outcome State Fault Refusal :=
  runSeq (.tkstat o) s (fun t => do
    let c := t.cur
    let ea := rg t c o.a.toNat
    if returning t c then parkOn .flights t
    else if ea.toNat / 2 ^ 53 ≠ t.device then
      remoteOk t ea
      .ok (sendFlight t c 1 false false 0 (.remoteRead ea 32 false o.d.toNat false) 0)
    else
      let va := ea.toNat % 2 ^ 53
      let base := match tokenProbe t va with | some e => e.base | none => va
      .ok (sendFlight t c 1 false false (tokenHome t base) (.stat va o.d.toNat) 2))

/-! ### Reclaim (R120, R302) -/

/-- A holder word that names a context of a core of this module, or an inbox slot of it. -/
def isDeadAgent (s : State) (k : Nat) (w : Word) : Bool :=
  holderKind w = 1 && holderVal w < 2 ^ 27 && agentDevice (holderVal w) = s.device && coreOf (agentLocal (holderVal w)) = k
/-- See `isDeadAgent`. -/
def isDeadSlot (s : State) (k : Nat) (w : Word) : Bool :=
  holderKind w = 5 && agentDevice (holderVal w % 2 ^ 27) = s.device && coreOf (agentLocal (holderVal w % 2 ^ 27)) = k

/-- What a claim makes of one entry (R120): `dead` says which holder words name dead contexts, `slot` dead inbox slots. A region that a dead
context only lent out is one of those whose lender names a context of the core: it is tainted too (log 42). -/
def claimEntry (dead slot : Word → Bool) (me : Word) (t : Token) : Token :=
  let gone := dead t.holder
  let hit := gone || slot t.holder || dead t.lender
  let (holder, lender) :=
    if gone then (if t.lender ≠ 0 && !(dead t.lender) then (t.lender, (0 : Word)) else (me, (0 : Word)))
    else (t.holder, if dead t.lender then me else t.lender)
  let records := t.records.filter (fun r => !(dead r))
  let mode := if records.isEmpty && !t.records.isEmpty && !t.opened then Mode.exclusive else t.mode
  { t with
    holder := holder, lender := lender, records := records, mode := mode
    taint := t.taint || (hit && t.wr), wr := t.wr && !hit
    xfer := if holder = t.holder && lender = t.lender && records = t.records then t.xfer else t.xfer + 1 }

/-- The claim at every home slice: the state, how many entries it changed, and the regions that passed to the claiming context, with
the holder each had. -/
def claimAll (s : State) (dead slot : Word → Bool) (me : Word) : State × Nat × List (Token × Word) :=
  s.tokens.foldl (fun (a : State × Nat × List (Token × Word)) e =>
    match e.2 with
    | none => a
    | some t =>
      let u := claimEntry dead slot me t
      if u = t then a
      else (setToken a.1 u, a.2.1 + 1, if u.holder = me && t.holder ≠ me then a.2.2 ++ [(u, t.holder)] else a.2.2)) (s, 0, [])

/-- The claim for one killed core. -/
def claimCore (s : State) (k : Nat) (me : Word) : State × Nat × List (Token × Word) := claimAll s (isDeadAgent s k) (isDeadSlot s k) me

/-- Regions that a claim gave to the apex wait to be reported (R216 step 7, R217). -/
def noteClaimed (s : State) (l : List (Token × Word)) : State :=
  { s with claimed := s.claimed ++ l.map (fun r => (r.1.base, holderVal r.2 % 2 ^ 27)) }

/-- L of TKCLAIM: from the vertex to the farthest slice of the device, which stands at a corner of the mesh (R12, R14, R302). -/
def farCorner (v : Nat) : Nat := [mkVertex 0 0, mkVertex 31 0, mkVertex 0 15, mkVertex 31 15].foldl (fun m w => max m (latency v w)) 0

/-- A token instruction that goes to its slices outside the tables of R117: no lines are written back for it (R302). -/
def sendPlain (s : State) (c home l : Nat) (o : TokenOp) : State :=
  let x := ctxOf s c
  { s with
    nextId := s.nextId + 1
    flights := s.flights ++ [{
      id := s.nextId, ctx := c, group := x.groupNo, path := 1, ordered := false, posted := false, slice := home % 2048, cls := home / 2048
      ea := BitVec.ofNat 64 (s.device * 2 ^ 53 + o.va), op := .token o, wb := [], done := false, pc := x.pc, undo := some x.regs
      due := s.cycle + l + 3 + x.late, back := s.cycle + 2 * l + 6 + x.late, fault := none, net := netOf s c }] }

/-- TKCLAIM (R302): it goes to every slice, and its result is back when the farthest has reported. -/
def execTkclaim (o : OpA) (s : State) : Host.Outcome State Fault Refusal :=
  runSeq (.tkclaim o) s (fun t => do
    let c := t.cur
    let a := (rg t c o.a.toNat).toNat
    let k := coreOf (agentLocal a)
    if 2 ^ 27 ≤ a || agentDevice a ≠ t.device || !(coreExists k) || !((coreAt t k).killed) then
      .error (.trap { code := cTokenBadop, reason := 3 } t)
    else
      tokenGate t
      .ok (sendPlain t c (blockSlice c) (farCorner (vertOf c))
        { kind := .claim, va := k, holder := 0, d := o.d.toNat, lsize := 0, commons := false, xfer := 0, retried := false }))

/-- TKCLEAN (R302). -/
def execTkclean (o : OpA) (s : State) : Host.Outcome State Fault Refusal :=
  runSeq (.tkclean o) s (fun t => do
    let c := t.cur
    let ea := rg t c o.a.toNat
    let va := ea.toNat % 2 ^ 53
    if ea.toNat / 2 ^ 53 ≠ t.device then tokenRemote t ea 0 .clean 0
    else
      match tokenSeen t c va with
      | none => trapAt cTokenNone ea t
      | some (e, x) =>
        tokenGate t
        .ok (sendPlain t c (tokenHome t e.base) (hop c (tokenHome t e.base))
          { kind := .clean, va := va, holder := 0, d := 0, lsize := 0, commons := false, xfer := x, retried := false }))

/-! ### Events -/

/-- A token instruction's fault at its performance: a trap of its context, or nothing once it has committed (R298). -/
def tokenFail (s : State) (f : Flight Regs) (i : FaultInfo) : State := if f.posted then dropFlight s f.id else flightFault s f i

/-- WRITE_BACK_ACK: the next line of an implied flush has been written at its slice (R117). -/
def execWriteBackAck (id : Nat) (s : State) : Host.Outcome State Fault Refusal :=
  .next (match flightOf s id with
    | none => s
    | some f =>
      match f.wb with
      | [] => s
      | l :: r =>
        setFlight (writeBackLine s (coreOf f.ctx) l) { f with wb := r })

/-- TOKEN_ENTRY_CHANGE: the instruction acts at the home slice, once its write-backs are acknowledged; a stale transfer count is
refused, and tried once more with the new one; an issuer that no longer holds what it needs then faults as Table 06-4 says (R110, R115,
R117). TKCLAIM acts at every slice in the step in which it reaches the farthest, and gives its context the regions that it takes, to be reported
(R217, R302; log 42); TKCLEAN asks for no count (R302). -/
def execTokenEntryChange (id : Nat) (s : State) : Host.Outcome State Fault Refusal :=
  .next (match flightOf s id with
    | none => s
    | some f =>
      match f.op with
      | .token o =>
        if !f.wb.isEmpty || s.cycle < f.due || f.fault.isSome then s
        else
          let c := f.ctx
          let k := coreOf c
          let ws := holderWords s c 0
          let g := graphOfCtx s c
          if o.kind = .claim then
            let (u, n, l) := claimCore s o.va (holderAgent (agentOf s c))
            giveResult (dropFlight (noteClaimed u l) f.id) f o.d (BitVec.ofNat 64 n)
          else match tokenProbe s o.va with
          | none => tokenFail s f { code := cTokenNone, addr := BitVec.ofNat 64 (s.device * 2 ^ 53 + o.va) }
          | some t =>
            if o.kind = .clean then giveResult (dropFlight (setToken s { t with taint := false }) f.id) f 0 0
            else if t.xfer ≠ o.xfer && !o.retried then
              let l := tokenHop s c o t
              setFlight (uncache s k t.base) { f with
                op := .token { o with xfer := t.xfer, retried := true }, wb := flushDirty s k o t, due := s.cycle + 2 * l + 3, back := s.cycle + 3 * l + 6 }
            else
              let at_ := fun (code : Nat) => ({ code := code, addr := BitVec.ofNat 64 (s.device * 2 ^ 53 + o.va), xfer := t.xfer } : FaultInfo)
              match (if o.retried && !(tokenNeeded s ws g o t) then some (at_ cTokenNone) else if t.xfer ≠ o.xfer then some (at_ cTokenBadop) else tokenBad s ws g o t) with
              | some i => tokenFail s f i
              | none =>
                let u := dropFlight (applyToken (dropLines s k o t) ws g k o t) f.id
                if f.posted then u else giveResult u f o.d (tokenResult s o t)
      | _ => s)

end Sys2Proof.Machine
end

