-- ==== Sys2Proof/Machine/System.lean ====
section
/-! DEFINITION. s-registers and the supervisor window, TRAP, context save and restore, allotments, watchdogs (R76 to R87, R204 to
R206, R318 to R323). -/

namespace Sys2Proof.Machine

/-! ### s-registers (Table 04-6) -/

/-- sr.ctx (Table 04-7). -/
def ctxWord (x : Ctx) : Word :=
  BitVec.ofNat 64 (x.lockstep.toNat * 128 + x.gang.isSome.toNat * 64 + x.cip.toNat * 32 + x.hmode.toNat * 16 + (if x.hmode then x.routine % 16 else 0))

/-- sr.budget (R81): the cycles left, 0 outside handler mode. -/
def budgetWord (s : State) (c : Nat) : Word :=
  let x := ctxOf s c
  match budgetLeft s x with
  | some n => if x.hmode then BitVec.ofNat 64 (n % 2 ^ 32) else 0
  | none => 0

/-- Row r of tile register j of a core (R79). -/
def tileRow (s : State) (k j r : Nat) : BitVec 256 := sget 0 (coreAt s k).tiles (64 * j + r)
def setTileRow (s : State) (k j r : Nat) (x : BitVec 256) : State := modCore s k (fun y => { y with tiles := sput 0 y.tiles (64 * j + r) x })

/-- sr.tzj (R79): bit k is the zero bit of row k. -/
def zeroBits (s : State) (k j : Nat) : Word :=
  BitVec.ofNat 64 ((List.range 64).foldl (fun a r => if tileRow s k j r = 0 then a + 2 ^ r else a) 0)

/-- m0 to m7 (R77, Tables 04-3 and 04-4): zero when no slot is mapped, and before the handler's first instruction. -/
def mWord (s : State) (c j : Nat) : Word :=
  if !((ctxOf s c).mapped) || (ctxOf s c).fresh then 0 else
  match slotOf s c with
  | none => 0
  | some q =>
    match j with
    | 0 => BitVec.ofNat 64 (q.msg.sender % 2 ^ 27 * 2 ^ 37 + q.msg.msgid.toNat * 2 ^ 21 + q.msg.lease.toNat * 32 + q.msg.cls % 32)
    | 7 => BitVec.ofNat 64 (min q.msg.attempts 15 * 2 ^ 20 + (!q.firstTokens.isEmpty || !q.secondTokens.isEmpty).toNat * 2 ^ 19 + q.msg.pair.isSome.toNat * 2 ^ 18 +
        routinePrio (routineAt s (coreOf c) q.routine) * 2 ^ 16 + q.routine % 16 * 2 ^ 12 + q.index % 64)
    | _ => q.msg.payload.getD (j - 1) 0

/-- The value of s-register n for context c; sr.cycle is read in the last cycle that the reading instruction occupies its slot (R209, R374). -/
def sregValue (s : State) (c n : Nat) : Word :=
  let x := ctxOf s c
  let k := coreAt s (coreOf c)
  if n = 0 then BitVec.ofNat 64 (agentOf s c)
  else if n = 1 then BitVec.ofNat 64 k.capacity
  else if n = 2 then BitVec.ofNat 64 x.allot
  else if n = 3 then ctxWord x
  else if n = 4 then x.rmode.setWidth 64
  else if n = 5 then x.regs.flags.setWidth 64
  else if n = 6 then (clusterAt s (vertOf c)).cflags.setWidth 64
  else if n = 7 then k.i4tab0
  else if n = 8 then k.i4tab1
  else if n = 9 then budgetWord s c
  else if n = 0xA then BitVec.ofNat 64 (s.cycle + (ctxOf s s.cur).late)
  else if n = 0xB then k.npres.setWidth 64
  else if 0xC ≤ n && n ≤ 0xF then sget 0 k.n (n - 0xC)
  else if 0x10 ≤ n && n ≤ 0x17 then zeroBits s (coreOf c) (n - 0x10)
  else if n = 0x18 then x.acct.setWidth 64
  else if n = 0x19 then x.lease.setWidth 64
  else if 0x40 ≤ n && n ≤ 0x47 then mWord s c (n - 0x40)
  else if n = 0x7FF then k.win
  else 0

/-- SRD (R80, R84, R318): a read of sr.n0 to sr.n3 pops, except through the window; what the register holds stays, only its presence bit is
cleared (log 99). -/
def execSrd (o : OpS) (s : State) : Host.Outcome State Fault Refusal :=
  runSeq (.srd o) s (fun t => do
    let c := t.cur
    let k := coreOf c
    let n := o.sreg.toNat
    if 0x800 ≤ n then
      let w := winTarget (coreAt t k).win
      .ok (notBefore (wg t c o.d.toNat (sregValue (settleTables t (coreOf w)) w (n - 0x800))) c (t.cycle + 2 * latency (vertOf c) (vertOf w) + 6))
    else if 0xC ≤ n && n ≤ 0xF then
      let j := n - 0xC
      if nbit (coreAt t k).npres.toNat j then do
        settle t
        let u := modCore t k (fun y => { y with npres := y.npres &&& ~~~((1 : BitVec 4) <<< j) })
        .ok (markCip (wg u c o.d.toNat (sregValue t c n)) c)
      else if (coreAt t (feederOf k j)).killed then trapWith cDeadPeer t
      else parkOn (.nRead j) t
    else .ok (wg t c o.d.toNat (sregValue t c n)))

/-- A write through the window (R85): sr.cflags W1C at once; a running context sees the others between two groups. -/
def windowWrite (s : State) (w n : Nat) (x : Word) : State :=
  if n = 6 then modCluster s (vertOf w) (fun y => { y with cflags := y.cflags &&& ~~~(x.setWidth 5) })
  else if n = 7 || n = 8 then applySreg (settleTables s (coreOf w)) w n x
  else if n = 4 || n = 5 then
    (if 0 < (ctxOf s w).group.len then modCtx s w (fun y => { y with pendingS := y.pendingS ++ [(n, x)] }) else applySreg s w n x)
  else s

/-- SWR (R81, R318): for later groups; registers that are read-only do not change. -/
def execSwr (o : OpS) (s : State) : Host.Outcome State Fault Refusal :=
  runSeq (.swr o) s (fun t => do
    let c := t.cur
    let n := o.sreg.toNat
    let x := rg t c o.a.toNat
    settle t
    if 0x800 ≤ n then .ok (windowWrite t (winTarget (coreAt t (coreOf c)).win) (n - 0x800) x)
    else .ok (modCtx t c (fun y => { y with pendingS := y.pendingS ++ [(n, x)] })))

/-- TRAP (R319). -/
def execTrap (o : OpS) (s : State) : Host.Outcome State Fault Refusal :=
  runSeq (.trap o) s (fun t => .error (.trap { code := cTrap, reason := 0, detail := BitVec.ofNat 64 (o.imm.toNat % 256) } t))

/-- VGROW (R76, R322). -/
def execVgrow (o : OpS) (s : State) : Host.Outcome State Fault Refusal :=
  runSeq (.vgrow o) s (fun t => do
    settle t
    let n := o.imm.toNat
    .ok (if n ≤ (ctxOf t t.cur).allot then t else modCtx t t.cur (fun x => { x with newAllot := some n })))

/-- VSHRINK (R76, R322). -/
def execVshrink (o : OpS) (s : State) : Host.Outcome State Fault Refusal :=
  runSeq (.vshrink o) s (fun t => do
    settle t
    let n := o.imm.toNat
    .ok (if (ctxOf t t.cur).allot ≤ n then t else modCtx t t.cur (fun x => { x with newAllot := some n })))

/-- WDOG (R323): 0 disarms. -/
def execWdog (o : OpS) (s : State) : Host.Outcome State Fault Refusal :=
  runSeq (.wdog o) s (fun t => do
    settle t
    let n := min (rg t t.cur o.a.toNat).toNat (2 ^ 48 - 1)
    .ok (modCtx t t.cur (fun x => { x with watchdog := if n = 0 then none else some (t.cycle + n) })))

/-- WATCHDOG_EXPIRY: the context stops at its next switch-group end, at once when it stands at one; one that is trapped, pre-empted or held
stops at the next one after it goes on (R323). -/
def execWatchdogExpiry (c : Nat) (s : State) : Host.Outcome State Fault Refusal :=
  .next (match (ctxOf s c).watchdog with
    | none => s
    | some w =>
      if s.cycle < w then s
      else
        let s := modCtx s c (fun x => { x with watchdog := none })
        match (ctxOf s c).run with
        | .groupEnd => stopCtx s c true
        | .ready => if (ctxOf s c).group.len = 0 then stopCtx s c true else modCtx s c (fun x => { x with stopWhy := some true })
        | _ => modCtx s c (fun x => { x with stopWhy := some true }))

/-! ### Control blocks (R204) -/

/-- A control block: its places in this module's memory, 256 bytes each, or what was read of it at another device, 64 bytes each. -/
inductive Block where
  | here (places : List Nat)
  | abroad (ref : Word) (pieces : List Nat)
deriving DecidableEq

/-- The physical address and the home of each 256 bytes of a block, each translated and checked (R113, R237). -/
def blockPlaces (s : State) (ea : Word) (p : Perm) : Nat → Res (List (Nat × Nat) × State)
  | 0 => .ok ([], s)
  | n + 1 => do
    let a := ea + BitVec.ofNat 64 (256 * (79 - n))
    let (tgt, s) ← translate s a p
    match tgt with
    | .phys _ pa leaf => do
      let s ← (if leafWr leaf then (do let (_, u) ← tokenCheck s a (if p = .wr then .write else .read) 0; .ok u) else .ok s)
      let (l, s) ← blockPlaces s ea p n
      .ok ((pa, leafHome leaf pa) :: l, s)
    | _ => trapAt cXlatePerm a s

/-- The 32-byte lines of a block. -/
def blockLines (places : List Nat) : List Nat := places.flatMap (fun pa => (List.range 8).map (fun i => pa / 32 + i))

/-- The first n pieces of a block of another device, from piece i on (R88, R175). -/
def readPieces (s : State) (ea : Word) : Nat → Nat → Res (List Nat × State)
  | 0, _ => .ok ([], s)
  | n + 1, i => do
    let (x, s) ← remoteRead s (ea + BitVec.ofNat 64 (64 * i)) 64
    let (l, s) ← readPieces s ea n (i + 1)
    .ok (x :: l, s)

/-- The lines of a block that an instruction reads: all of them, or for a save the one with the header words that it keeps. -/
def readLinesOf (places : List Nat) (p : Perm) : List Nat := if p = .wr then (blockLines places).take 1 else blockLines places

/-- The block at g[a]: alignment, places, its lines present and not busy, those that are read not poisoned; and the cycles to its farthest home
slice. -/
def openBlock (s : State) (ea : Word) (p : Perm) : Res (Block × Nat × State) := do
  let k := coreOf s.cur
  passFence s 0
  if ea.toNat % 4096 ≠ 0 then trapAt cAlign ea s
  else if ea.toNat / 2 ^ 53 ≠ s.device then
    match (List.range 320).find? (fun i => 0x1FFFFF00000000 ≤ (ea.toNat + 64 * i) % 2 ^ 53) with
    | some i => trapAt cXlatePerm (ea + BitVec.ofNat 64 (64 * i)) s
    | none => do
      let (l, s) ← readPieces s ea (if p = .wr then 1 else 320) 0
      .ok (.abroad ea l, fabricHop s (vertOf s.cur) (ea.toNat / 2 ^ 53) false, s)
  else
    let (l, s) ← blockPlaces s ea p 80
    let places := l.map (·.1)
    if (blockLines places).any (fun a => lineBusy s k a) || lineOut s k (blockLines places) then parkOn .flights s
    else
      let s ← needHomes s (l.flatMap (fun e => (blockLines [e.1]).map (fun a => (a, e.2))))
      if (readLinesOf places p).any (fun a => match lineOf s k a with | some x => x.poison | none => isPoisoned s (32 * a)) then trapAt cPoison ea s
      else .ok (.here places, l.foldl (fun m e => max m (hop s.cur e.2)) 0, s)

/-- Cycles to move a block of an allotment and a tile mask: B bytes, 64 a cycle (R321). -/
def blockCycles (allot tmask : Nat) : Nat := ceilDiv (0x2C0 + 64 * allot + 2048 * ((List.range 8).filter (nbit tmask)).length) 64

/-- A save or restore on a gang's behalf that faults: the gang stays stopped, and the fault goes to the apex as a record of the member, not to
the context that issued (R206). The record's place is the member's pc (the model's choice; log 101). -/
def gangFault (s : State) (member : Option Nat) (r : Res State) : Res State :=
  match r, member with
  | .error (.trap f t), some w => if (ctxOf s w).gang.isSome then .ok (reportFor t (coreOf w) 0 (agentOf s w) (ctxOf s w).pc f) else r
  | _, _ => r

/-- n bytes at an offset of a block, within 64 bytes of it. -/
def blockGet (s : State) (b : Block) (off n : Nat) : Nat :=
  match b with
  | .here places => seeLines s s.cur (places.getD (off / 256) 0 + off % 256) n
  | .abroad _ l => (l.getD (off / 64) 0 >>> (8 * (off % 64))) % 2 ^ (8 * n)
def blockWord (s : State) (b : Block) (off : Nat) : Word := BitVec.ofNat 64 (blockGet s b off 8)

/-- Write values (offset, bytes, value) into a block: a line written whole is poisoned no longer (R91). -/
def blockPut (s : State) (b : Block) (l : List (Nat × Nat × Nat)) : State :=
  let k := coreOf s.cur
  match b with
  | .here places => l.foldl (fun t e =>
      let pa := places.getD (e.1 / 256) 0 + e.1 % 256
      cleanLines (writeLines t k pa (bytesOf e.2.2 e.2.1)) k pa e.2.1 (linesOf pa e.2.1)) s
  | .abroad ref _ => l.foldl (fun t e => remoteStore t t.cur false (ref + BitVec.ofNat 64 e.1)
      ((bytesOf e.2.2 e.2.1).zipIdx.map (fun x => (ref.toNat + e.1 + x.2, x.1)))) s

/-- A member parked at a barrier of its gang: at a GBAR at which it has arrived, or at an MGANG (R194, R259). -/
def atBarrier (s : State) (w : Nat) : Bool := (ctxOf s w).barrierArrived || (clusterAt s (vertOf w)).arrivals.any (fun e => e.1 = w)

/-- Values of the header and the registers that CTXSAVE writes (Tables 13-4 to 13-6); a member whose barrier has completed goes on after its
GBAR. -/
def blockHeader (s : State) (w : Nat) (live tmask feat lock : Nat) : List (Nat × Nat × Nat) :=
  let x := ctxOf s w
  let budget := if x.gang.isSome then (match budgetLeft s x with | some n => n % 2 ^ 32 | none => 0xFFFFFFFF) else 0
  [(0, 8, live * 2 ^ 24 + x.allot * 2 ^ 16 + tmask * 256 + feat),
    (8, 8, lock * 2 ^ 63 + x.gang.isSome.toNat * 2 ^ 62 + x.acct.toNat * 2 ^ 32 + budget),
    (16, 8, (if x.passBarrier then x.pc + 8 else x.pc).toNat % 2 ^ 53), (24, 8, (atBarrier s w).toNat * 2 ^ 16 + x.member % 2 ^ 12), (32, 32, 0)]
/-- See `blockHeader`. -/
def blockRegs (s : State) (w : Nat) (tmask : Nat) : List (Nat × Nat × Nat) :=
  let x := ctxOf s w
  (List.range 64).map (fun i => (0x40 + 8 * i, 8, (rg s w i).toNat)) ++ [(0x240, 64, 0)] ++
    (List.range 8).map (fun i => (0x280 + 4 * i, 4, (rp s w i).toNat)) ++
    [(0x2A0, 8, x.rmode.toNat), (0x2A8, 8, x.regs.flags.toNat), (0x2B0, 16, 0)] ++
    (List.range x.allot).map (fun i => (0x2C0 + 64 * i, 64, (rv s w i).toNat)) ++
    (List.range 10).map (fun i => (0xEC0 + 32 * i, 32, 0)) ++
    (List.range 512).map (fun i => (0x1000 + 32 * i, 32, if nbit tmask (i / 64) then (tileRow s (coreOf w) (i / 64) (i % 64)).toNat else 0))

/-- A context id of this module whose context can be saved or restored onto; none for one that names no context (R15). -/
def contextNamed (s : State) (a : Word) : Option Nat :=
  let n := a.toNat
  if n < 2 ^ 27 && agentDevice n = s.device && namesTarget n && coreExists (coreOf (agentLocal n)) then some (agentLocal n) else none

/-- A target that CTXSAVE takes (R320); the model also refuses a trailing copy, a context of a killed core and one held for a gang, which R320
does not name (log 127). -/
def saveable (s : State) (w : Nat) : Bool :=
  let x := ctxOf s w
  !x.hmode && !((coreAt s (coreOf w)).killed) && x.run ≠ .idle && x.run ≠ .savedOut && x.run ≠ .reserved && x.run ≠ .trailing

/-- Stop a target at its next group end: true once it stands still with every result returned; one parked at a barrier is stopped there, and what
it waits for no longer makes it go on (R320). A stop that its watchdog has asked for
stays one of the watchdog (R323). -/
def stopTarget (s : State) (w : Nat) : Bool × State :=
  let x := ctxOf s w
  let later := modCtx s w (fun y => { y with stopWhy := if y.stopWhy = some true then some true else some false })
  match x.run with
  | .groupEnd => (!(returning s w), modCtx s w (fun y => { y with run := .stopped }))
  | .stalled .mgang =>
    if (clusterAt s (vertOf w)).arrivals.any (fun e => e.1 = w) then (!(returning s w), modCtx s w (fun y => { y with run := .stopped })) else (false, later)
  | .stalled .gbar => (!(returning s w), modCtx s w (fun y => { y with run := .stopped }))
  | .stopped => (!(returning s w) && !((clusterAt s (vertOf w)).waiting.any (fun j => j.members.contains w)), s)
  | .trapped | .preempted | .held => (!(returning s w), s)
  | _ => (false, later)

/-- What a saved context leaves at its barriers (R194, R259): it is no longer counted there. -/
def leaveBarrier (s : State) (w : Nat) : State :=
  let s := modCluster s (vertOf w) (fun x => { x with arrivals := x.arrivals.filter (fun e => e.1 ≠ w) })
  if !((ctxOf s w).barrierArrived) then s
  else
    let v := vertOf w
    let s := modCluster s v (fun x => { x with wired := x.wired.filter (fun e => e.1 ≠ w) })
    match (ctxOf s w).gang with
    | none => s
    | some g => match sget none s.gangs g with
      | none => s
      | some y => { s with gangs := sput none s.gangs g (some { y with arrived := y.arrived.filter (fun a => a ≠ v) }) }

/-- What a save writes into its block: live, tmask, feat and lock as software wrote them there (R320). -/
def blockValues (s : State) (b : Block) (w : Nat) : List (Nat × Nat × Nat) :=
  let w0 := blockGet s b 0 8
  let live := if bits w0 31 24 = 0 || (ctxOf s w).allot < bits w0 31 24 then (ctxOf s w).allot else bits w0 31 24
  blockHeader s w live (bits w0 15 8) (w0 % 256) (blockGet s b 8 8 / 2 ^ 63) ++ blockRegs s w (bits w0 15 8)

/-- A saved context: it keeps its agent id, tokens and lease, and its trailing copy's context is free (R320). -/
def savedOut (s : State) (w : Nat) : State :=
  let s := leaveBarrier s w
  let s := if (ctxOf s w).lockstep then idleCtx s (partnerOf w) else s
  modCtx s w (fun y => { y with run := .savedOut, watchdog := none, track := [], latches := [], popSince := none, budgetEnd := none, budgetKept := none, barrierArrived := false, passBarrier := false, stopWhy := none })

/-- The save of a stopped context into a block whose places are open (R320); the home slices are told of the store (R114). Into a block of
another device the values leave, and the save ends when all of them are there. -/
def saveCtx (s : State) (ea : Word) (b : Block) (w : Nat) : Res State :=
  match b with
  | .here places =>
    let s := (List.range 80).foldl (fun t i => noticeStore t (ea.toNat % 2 ^ 53 + 256 * i)) s
    .ok (savedOut (useLines (blockPut s b (blockValues s b w)) (coreOf s.cur) (blockLines places)) w)
  | .abroad .. => if (ctxOf s s.cur).cooked.isSome then .ok (savedOut s w) else parkOn .completion (blockPut s b (blockValues s b w))

/-- CTXSAVE (R320): a fit target is stopped first, and stays so when the block faults (Table 19-7); an unfit one faults after what the block
itself faults (R199). -/
def execCtxsave (o : OpS) (s : State) : Host.Outcome State Fault Refusal :=
  runSeq (.ctxsave o) s (fun t =>
    let c := t.cur
    let ea := rg t c o.a.toNat
    let target := contextNamed t (rg t c o.d.toNat)
    gangFault t target (
      match target.filter (saveable t) with
      | none => do
        let (_, _, t) ← openBlock t ea .wr
        trapAt cPlacement (rg t c o.d.toNat) t
      | some w => do
        outputGate t
        let (still, t) := stopTarget t w
        if !still then parkOn (.stopping w) t
        else do
          let (b, l, t) ← openBlock t ea .wr
          let u ← saveCtx t ea b w
          .ok (notBefore (markCip u c) c (t.cycle + blockCycles (ctxOf t w).allot (bits (blockGet t b 0 8) 15 8) + 2 * l + 6))))

/-- A block that R205 calls malformed. -/
def badBlock (s : State) (b : Block) : Bool :=
  let w := fun i => blockGet s b (8 * i) 8
  let allot := bits (w 0) 23 16
  bits (w 0) 63 32 ≠ 0 || allot % 6 ≠ 0 || allot < 6 || 48 < allot || allot < bits (w 0) 31 24 || bits (w 0) 7 6 ≠ 0 || blockGet s b 0x240 64 ≠ 0 ||
    bits (w 1) 61 44 ≠ 0 || bits (w 2) 63 53 ≠ 0 || bits (w 2) 2 0 ≠ 0 || bits (w 3) 63 17 ≠ 0 || bits (w 3) 15 12 ≠ 0 || blockGet s b 32 32 ≠ 0 ||
    bits (blockGet s b 0x2A0 8) 63 3 ≠ 0 || bits (blockGet s b 0x2A8 8) 63 5 ≠ 0 || blockGet s b 0x2B0 16 ≠ 0 ||
    (List.range 10).any (fun i => blockGet s b (0xEC0 + 32 * i) 32 ≠ 0) ||
    (List.range 512).any (fun i => !(nbit (bits (w 0) 15 8) (i / 64)) && blockGet s b (0x1000 + 32 * i) 32 ≠ 0)

/-- The target core lacks a unit of the feature mask (Table 01-2, R205). -/
def lacksUnit (k feat : Nat) : Bool :=
  (feat % 16 ≠ 0 && !(isExecute k)) || (nbit feat 4 && !(isAccess k)) || (nbit feat 5 && !(14 ≤ coreNo k))

/-- A context that can run the trailing copy of a lockstep context (R205, R212). -/
def partnerFree (s : State) (w : Nat) : Bool :=
  (ctxOf s (partnerOf w)).run = .idle && takesWork s (coreOf (partnerOf w))

/-- The allotment that a restore gives (R205), none when the capacity is below the live registers. -/
def restoreAllot (cap allot live : Nat) : Option Nat := if allot ≤ cap then some allot else if live ≤ cap then some cap else none

/-- The GBAR at the pc of a context: whether its scope is the gang's (R259). -/
def barrierScope (s : State) (w : Nat) : Option Bool :=
  match translateNow s ((ctxOf s w).pc.toNat % 2 ^ 53) false with
  | .ok (pa, _, _) => (match instrOf (BitVec.ofNat 64 (readMem s pa 8)) with | .gbar o => some (decide (o.imm = 1)) | _ => none)
  | .error _ => none

/-- A restored member that had arrived is counted at its barrier again, under the scope of the GBAR at its pc (R259); one that was parked at an
MGANG arrives by issuing it again. -/
def rejoinBarrier (s : State) (w g : Nat) : State :=
  let v := vertOf w
  match barrierScope s w with
  | none => modCtx s w (fun x => { x with barrierArrived := false })
  | some scope =>
    let s := modCluster s v (fun x => { x with wired := x.wired ++ [(w, scope)] })
    let l := wiredOf s v g
    if 8 ≤ l.length && l.all (·.2) then
      match sget none s.gangs g with
      | some y => { modCluster s v (fun x => { x with wired := x.wired.filter (fun e => !(l.contains e)) }) with
          gangs := sput none s.gangs g (some { y with arrived := y.arrived ++ [v], arrivedAt := s.cycle }) }
      | none => s
    else s

/-- The restored context: values from the block, held (R205, R321); its budget counts from its first instruction on (R147). The tiles go to
the core of each copy (R212). -/
def restoreCtx (s : State) (b : Block) (origin w allot : Nat) : State :=
  let w0 := blockGet s b 0 8
  let w1 := blockGet s b 8 8
  let old := ctxOf s w
  let isGang := nbit w1 62
  let mode := BitVec.ofNat 3 (blockGet s b 0x2A0 8)
  let x : Ctx := { Ctx.reset with
    lease := old.lease, groupNo := old.groupNo + 1, allot := allot, pc := codePc s (blockGet s b 16 8)
    rmode := if mode.toNat = 0 || 6 ≤ mode.toNat then 1 else mode
    acct := BitVec.ofNat 12 (bits w1 43 32), lockstep := nbit w1 63
    gang := if isGang then (ctxOf s origin).gang else none, member := bits (blockGet s b 24 8) 11 0
    barrierArrived := nbit (blockGet s b 24 8) 16
    budgetKept := if isGang && bits w1 31 0 ≠ 0xFFFFFFFF then some (bits w1 31 0) else none, fresh := true
    regs := { Regs.reset with flags := BitVec.ofNat 5 (blockGet s b 0x2A8 8) }, run := .held }
  let s := setCtx s w x
  let s := (List.range 64).foldl (fun t i => wg t w i (blockWord t b (0x40 + 8 * i))) s
  let s := (List.range 8).foldl (fun t i => wp t w i (BitVec.ofNat 32 (blockGet t b (0x280 + 4 * i) 4))) s
  let s := (List.range allot).foldl (fun t i => wv t w i (BitVec.ofNat 512 (blockGet t b (0x2C0 + 64 * i) 64))) s
  let s := (coreOf w :: (if x.lockstep then [coreOf (partnerOf w)] else [])).foldl (fun u k => (List.range 512).foldl (fun t i =>
    if nbit (bits w0 15 8) (i / 64) then setTileRow t k (i / 64) (i % 64) (BitVec.ofNat 256 (blockGet t b (0x1000 + 32 * i) 32)) else t) u) s
  let s := match x.gang with
    | none => s
    | some g => match sget none s.gangs g with
      | none => s
      | some y =>
        let l := y.members.map (fun m => if m.1 = x.member then (x.member, w) else m)
        let places := y.clusters.zipIdx.map (fun e => match l.find? (fun m => m.1 = x.member && m.1 / 8 = e.2) with | some m => vertOf m.2 | none => e.1)
        { s with gangs := sput none s.gangs g (some { y with members := l, clusters := places }) }
  let s := stealEnds s (coreOf w)
  if x.lockstep then modCtx s (partnerOf w) (fun y => { ctxOf s w with run := .trailing, lease := y.lease }) else s

/-- A region leaves a core: what its contexts stored and added there is performed first, and its lines go (R117, R168). -/
def leaveCore (s : State) (k : Nat) (t : Token) : State :=
  let sums := (coreAt s k).agg.filter (fun e => e.1 < aggAbroad && regionHas s t e.1)
  let s := sums.foldl (fun u e => (sliceRmw (touchL2 u (e.2.1 % 2048) e.1 8 (e.2.1 / 2048) true) e.1 64 0 e.2.2.1 0).2) s
  let s := modCore s k (fun x => { x with agg := x.agg.filter (fun e => !(sums.contains e)) })
  dropRegion (flushLines s k false (regionLines s k t)) k t

/-- Tokens and shares of a saved context pass to the one it is restored onto, and it becomes idle with a new lease (R321). -/
def moveOrigin (s : State) (origin w : Nat) : State :=
  if origin = w then s
  else
    let h := holderAgent (agentOf s origin)
    let l := heldBy s h
    let s := if coreOf origin = coreOf w then s else
      l.foldl (fun t b => match sget none t.tokens b.1 with | some r => leaveCore t (coreOf origin) r | none => t) s
    let s := moveTokens s h (holderAgent (agentOf s w)) l
    let s := l.foldl (fun t b => uncache t (coreOf origin) b.1) s
    idleCtx (raiseLease (modCtx s origin (fun x => { x with gang := none })) origin) origin

/-- Members of a gang that stand on whole clusters: member i on core i mod 8, with the seven others of its eight on its cluster (R193, R194). -/
def wholeClusters (l : List (Nat × Nat)) : Bool :=
  l.all (fun m => coreNo (coreOf m.2) = m.1 % 8 && l.all (fun n => decide (n.1 / 8 = m.1 / 8) = decide (vertOf n.2 = vertOf m.2)))

/-- The members of a gang that have not ended. -/
def membersLeft (y : Gang) : List (Nat × Nat) := y.members.filter (fun m => !(y.ended.contains m.1))

/-- A held context that may start: one of a gang only when every member that has not ended is held, on whole clusters (R194, R206). -/
def mayStart (s : State) (w : Nat) : Bool :=
  (ctxOf s w).run = .held &&
    (match (ctxOf s w).gang.bind (fun g => sget none s.gangs g) with
    | none => true
    | some y => (membersLeft y).all (fun m => (ctxOf s m.2).run = .held) && wholeClusters (membersLeft y))

/-- Start a held context (R321). -/
def startHeld (s : State) (w : Nat) : State :=
  let s := match (ctxOf s w).gang with
    | some g => if (ctxOf s w).barrierArrived then rejoinBarrier s w g else s
    | none => s
  modCtx s w (fun x => { x with run := .ready })

/-- The contexts that start together with one: the members of its gang. -/
def startsWith (s : State) (w : Nat) : List Nat :=
  match (ctxOf s w).gang.bind (fun g => sget none s.gangs g) with
  | none => [w]
  | some y => (membersLeft y).map (·.2)

/-- CTXREST.GO: what an apex context restored held starts in one cycle, a gang as a whole, whichever apex context restored the other members
(R194, R321). -/
def startRestored (s : State) (k c : Nat) : State :=
  let l := (((((coreAt s k).restored.filter (fun e => e.1 = c)).map (·.2)).filter (mayStart s)).flatMap (startsWith s)).dedup
  let s := l.foldl startHeld s
  (List.range 4).foldl (fun t d => [16 * apexVertex d + 14, 16 * apexVertex d + 15].foldl (fun u q =>
    modCore u q (fun x => { x with restored := x.restored.filter (fun e => !(l.contains e.2)) })) t) s

/-- A context that the apex firmware holds reserved: not one that a gang waits for, and not a trailing copy (R195). -/
def apexReserved (s : State) (c : Nat) : Bool :=
  (ctxOf s c).run = .reserved && !(s.gangs.any (fun e => match e.2 with | some g => !g.started && g.members.any (fun m => m.2 = c) | none => false))

/-- CTXREST (R205, R321). -/
def execCtxrest (o : OpS) (s : State) : Host.Outcome State Fault Refusal :=
  runSeq (.ctxrest o) s (fun t =>
    let c := t.cur
    let k := coreOf c
    let target := rg t c o.d.toNat
    let from_ := contextNamed t (rg t c (o.d.toNat + 1))
    gangFault t from_ (do
      let ea := rg t c o.a.toNat
      let (b, l, t) ← openBlock t ea .rd
      let w0 := blockGet t b 0 8
      if badBlock t b then trapAt cBadBlock ea t
      else
        match contextNamed t target, from_ with
        | some w, some origin =>
          let idle := (ctxOf t w).run = .idle || apexReserved t w || (w = origin && (ctxOf t w).run = .savedOut)
          if !idle || (ctxOf t origin).run ≠ .savedOut || !(takesWork t (coreOf w)) then trapAt cPlacement target t
          else if lacksUnit (coreOf w) (bits w0 5 0) then trapAt cPlacement target t
          else if nbit (blockGet t b 8 8) 63 && !(partnerFree t w) then trapAt cPlacement target t
          else
            match restoreAllot (coreAt t (coreOf w)).capacity (bits w0 23 16) (bits w0 31 24) with
            | none => trapAt cPlacement target t
            | some n =>
              outputGate t
              if w ≠ origin && (unfinished t origin || t.flights.any (fun f => f.path = 7 && coreOf f.ctx = coreOf origin)) then parkOn .flights t
              let u := moveOrigin (restoreCtx t b origin w n) origin w
              let u := markCip (modCore u k (fun x => { x with restored := x.restored ++ [(c, w)] })) c
              let u := if nbit o.imm.toNat 0 then startRestored u k c else u
              .ok (notBefore u c (t.cycle + blockCycles n (bits w0 15 8) + 2 * l + 6))
        | _, _ => trapAt cPlacement target t))

end Sys2Proof.Machine
end

