-- ==== Sys2Proof/Machine/Lattice.lean ====
section
/-! DEFINITION. The lattice: weight planes, jobs, accumulator segments and drains (R62 to R68, R146, R210, R211, R327 to R336). -/

namespace Sys2Proof.Machine

/-! ### Terms (R64, R65) -/

/-- NAF (R242): the digits of the non-adjacent form, lowest first. -/
def nafDigits : Nat → Nat → List Int
  | 0, _ => []
  | _ + 1, 0 => []
  | fuel + 1, m => if m % 2 = 0 then 0 :: nafDigits fuel (m / 2) else if m % 4 = 1 then 1 :: nafDigits fuel (m / 2) else -1 :: nafDigits fuel (m / 2 + 1)

/-- The non-zero digits of a list. -/
def termCount (l : List Int) : Nat := (l.filter (· ≠ 0)).length

/-- The value of digits, lowest first. -/
def digitSum : List Int → Int
  | [] => 0
  | d :: l => d + 2 * digitSum l

/-- Clear the n lowest non-zero digits (R65). -/
def dropTerms : Nat → List Int → List Int
  | _, [] => []
  | 0, l => l
  | n + 1, d :: l => if d = 0 then 0 :: dropTerms (n + 1) l else 0 :: dropTerms n l

/-- A value in the internal form (R62): the class, and a signed significand. -/
def latOf : Num → LatVal
  | .nan _ => .nan
  | .inf neg => .inf neg
  | .zero _ => .fin 0 0
  | .fin neg m e => .fin (smant neg m) e

/-- The terms of a weight (R64): one for an infinity or a NaN. -/
def weightTerms : LatVal → Nat
  | .fin m _ => termCount (nafDigits 64 m.natAbs)
  | _ => 1

/-- A weight under a budget (0: none). -/
def recode (budget : Nat) : LatVal → LatVal
  | .fin m e =>
    let l := nafDigits 64 m.natAbs
    if budget = 0 || termCount l ≤ budget then .fin m e
    else .fin (let x := digitSum (dropTerms (termCount l - budget) l)
      if m < 0 then -x else x) e
  | w => w

/-! ### Segments of a group -/

/-- A segment of a column group. -/
def segOf (s : State) (v i row : Nat) : Seg := sget Seg.reset (colOf s v i).segs row
def setSeg (s : State) (v i row : Nat) (x : Seg) : State := let g := colOf s v i
  setCol s v i { g with segs := sput Seg.reset g.segs row x }

/-- Every segment of some rows of a group is free or kept, and no ALD or AST still keeps it busy (R327). -/
def segsReady (s : State) (v i row n : Nat) : Bool :=
  (List.range n).all (fun j => let x := segOf s v i (row + j)
    x.state = .free || (x.state = .kept && x.since ≤ s.cycle))

/-- A group whose weights are integers (R330). -/
def isIntFmt (f : Nat) : Bool := f = 0 || f = 8

/-- Contexts of a cluster whose wait has a property go on. -/
def wakeStalls (s : State) (v : Nat) (p : Nat → Stall → Bool) : State :=
  (List.range 128).foldl (fun t i =>
    let c := 128 * v + i
    match (ctxOf t c).run with
    | .stalled w => if p c w then modCtx t c (fun x => { x with run := .ready }) else t
    | _ => t) s

/-! ### MSTAT (R328) -/

/-- A tile register as one number, row 0 lowest. -/
def tileBits (s : State) (k j : Nat) : Nat := packList 256 ((List.range 64).map (fun r => (tileRow s k j r).toNat))

/-- Whether a job that swaps planes waits to start. -/
def swapWaits (s : State) (v : Nat) : Bool :=
  let k := clusterAt s v
  (match k.pending with | some j => nbit j.wordA.toNat 61 | none => false) || k.waiting.any (fun j => nbit j.wordA.toNat 61)

/-- The 1,024 weights of a tile, element 16k + n. -/
def tileWeights (s : State) (k j fmt : Nat) : List LatVal :=
  let x := tileBits s k j
  let w := fmtBits fmt
  (List.range 1024).map (fun i => latOf (decodeElem (coreAt s k).i4tab0 (coreAt s k).i4tab1 fmt ((x >>> (w * i)) % 2 ^ w)))

/-- The plane of some weights. -/
def planeOf (fmt : Nat) (l : List LatVal) : Plane :=
  { fmt := BitVec.ofNat 4 fmt, span := (l.map weightTerms).foldl max 0, terms := (l.map weightTerms).sum
    weights := (l.zipIdx).foldl (fun m e => sput (.fin 0 0) m e.2 e.1) [] }

/-- MSTAT (R328), on path 3 (R180). -/
def execMstat (o : OpE) (s : State) : Host.Outcome State Fault Refusal :=
  runSeq (.mstat o) s (fun t => do
    let c := t.cur
    let k := coreOf c
    let v := vertOf c
    let i := coreNo k
    let fmt := o.imm.toNat % 16
    let budget := bits o.imm.toNat 7 4
    passFence t 3
    if swapWaits t v then parkOn .shadow t
    else
      let l := tileWeights t k o.a.toNat fmt
      let cut := l.map (recode budget)
      let total := (l.map weightTerms).sum
      let removed := total - (cut.map weightTerms).sum
      if nbit o.imm.toNat 8 && removed ≠ 0 then trapWith cTermBudget t
      else
        settle t
        let p := planeOf fmt cut
        let g := colOf t v i
        let u := setCol t v i { g with shadow := p, dropped := g.dropped + BitVec.ofNat 64 removed }
        .ok (wg u c o.d.toNat (BitVec.ofNat 64 (total * 2 ^ 32 + removed * 2 ^ 16 + p.span % 16))))

/-! ### MGANG (R329) -/

/-- V, row0, afmt and the other fields of word A (Table 20-2). -/
def jobV (a : Word) : Nat := bits a.toNat 8 0 + 1
def jobRow (a : Word) : Nat := bits a.toNat 24 16
def jobFmt (a : Word) : Nat := bits a.toNat 51 48
def jobRagged (a : Word) : Bool := nbit a.toNat 60
/-- The first map entry and the graph of word C (Table 20-3). -/
def jobBase (c : Word) : Nat := bits c.toNat 27 16
def jobGraph (c : Word) : Nat := bits c.toNat 3 0

/-- Job words that Tables 20-2 and 20-3 and the two further cases of R329 allow. -/
def jobOk (s : State) (v : Nat) (a b c : Word) : Bool :=
  bits a.toNat 63 62 = 0 && bits a.toNat 57 52 = 0 && bits a.toNat 47 42 = 0 && bits a.toNat 31 25 = 0 && bits a.toNat 15 9 = 0 &&
    isLatticeFmt (jobFmt a) && jobRow a + jobV a ≤ 512 && bits a.toNat 41 32 * 64 + jobV a * (8 * fmtBits (jobFmt a)) ≤ 65536 &&
    bits b.toNat 63 53 = 0 && b.toNat % 8 = 0 && bits c.toNat 63 28 = 0 && bits c.toNat 15 4 = 0 &&
    (if jobRagged a then jobBase c + jobV a ≤ 4096 && sget 0 s.batchRegs (jobGraph c) ≠ 0 else jobBase c = 0 && jobGraph c = 0) &&
    (b = 0 || (List.range 8).all (fun i => (serving s (16 * v + i) 30).isSome))

/-- The job that a barrier makes: the slot mask and the map entries as they stand (R131; log 43). With a slot area that does not translate every
row streams as zero, and a poisoned sector ends the job with POISON: the model's choices (log 126). -/
def jobOf (s : State) (v : Nat) (jid : BitVec 16) (l : List (Nat × List Word)) (a b c : Word) : LatJob :=
  let area := if jobRagged a then slotArea s (jobGraph c) else none
  { jid := jid, wordA := a, wordB := b, wordC := c
    mask := match area with | some pa => readMem s (pa + 0x8000) 128 | none => 0
    maps := match area with | some pa => (List.range (jobV a)).map (fun r => readMem s (pa + 0x8100 + 2 * (jobBase c + r)) 2) | none => []
    poison := match area with | some pa => anyPoison s (pa + 0x8000) 128 || anyPoison s (pa + 0x8100 + 2 * jobBase c) (2 * jobV a) | none => false
    tables := (List.range 8).map (fun i => match l.find? (fun e => coreOf e.1 = 16 * v + i) with | some e => (e.2.getD 3 0, e.2.getD 4 0) | none => (0, 0))
    members := l.map (·.1)
    accts := (List.range 8).map (fun i => match l.find? (fun e => coreOf e.1 = 16 * v + i) with | some e => (e.2.getD 5 0).setWidth 12 | none => 0)
    start := some (s.cycle + 1) }

/-- The destination of the MGANG at the pc of a context. -/
def mgangDest (s : State) (c : Nat) : Option Nat :=
  match translateNow s ((ctxOf s c).pc.toNat % 2 ^ 53) false with
  | .ok (pa, _, _) => (match instrOf (BitVec.ofNat 64 (readMem s pa 8)) with | .mgang o => some o.d.toNat | _ => none)
  | .error _ => none

/-- The members of a job that are parked at its MGANG receive its id; that of one stopped there (R320) is complete, and it stays stopped. -/
def giveJid (s : State) (j : LatJob) (except : Nat) : State :=
  (j.members.filter (· ≠ except)).foldl (fun t c =>
    match (ctxOf t c).run, mgangDest t c with
    | .stalled .mgang, _ => modCtx t c (fun x => { x with run := .ready, cooked := some (j.jid.setWidth 64) })
    | .stopped, some d => modCtx (wg t c d (j.jid.setWidth 64)) c (fun x => { x with pc := x.pc + 8 })
    | _, _ => t) s

/-- The arrivals at the lattice barrier of a cluster for one gang. -/
def arrivalsOf (s : State) (v g : Nat) : List (Nat × List Word) := (clusterAt s v).arrivals.filter (fun e => (ctxOf s e.1).gang = some g)

/-- The eighth arrival at the lattice barrier of a gang (R329): every member faults, once what they all issued before has taken its full
effect (R151), or the job is pending, or waits for those before it. -/
def latticeBarrier (s : State) (v g : Nat) : Res State :=
  let l := arrivalsOf s v g
  let w := fun i => (l.headD (0, [])).2.getD i 0
  let t := modCluster s v (fun x => { x with arrivals := x.arrivals.filter (fun e => !(l.contains e)) })
  let fault := fun (code : Nat) => (if l.any (fun e => unfinished s e.1) then parkOn .flights s else .error (.trap { code := code }
    ((l.filter (fun e => e.1 ≠ s.cur)).foldl (fun u e => takeTrap (countEvent u e.1) e.1 { code := code }) t)) : Res State)
  if l.any (fun e => e.2.take 3 ≠ [w 0, w 1, w 2]) then fault cGangMismatch
  else if !(jobOk s v (w 0) (w 1) (w 2)) then fault cIllegalEncoding
  else
    let jid := (clusterAt s v).nextJid
    let j := jobOf s v jid l (w 0) (w 1) (w 2)
    let s := modCluster t v (fun x => { x with nextJid := jid + 1 })
    if (clusterAt s v).pending.isNone then
      .ok (giveJid (modCtx (modCluster s v (fun x => { x with pending := some j })) s.cur (fun x => { x with cooked := some (jid.setWidth 64) })) j s.cur)
    else parkOn .mgang (modCluster s v (fun x => { x with waiting := x.waiting ++ [j] }))

/-- MGANG (R329). -/
def execMgang (o : OpE) (s : State) : Host.Outcome State Fault Refusal :=
  runSeq (.mgang o) s (fun t => do
    let c := t.cur
    let v := vertOf c
    match (ctxOf t c).cooked with
    | some id => .ok (wg t c o.d.toNat id)
    | none =>
      if (match (ctxOf t c).gang.bind (fun g => sget none t.gangs g) with | some y => y.lost | none => false) then trapWith cGangLost t
      else if returning t c then parkOn .flights t
      else do
        lockGate t
        let g := (ctxOf t c).gang.getD 0
        let k := coreAt t (coreOf c)
        let t := modCluster t v (fun x => { x with
          arrivals := x.arrivals.filter (fun e => e.1 ≠ c) ++
            [(c, [rg t c o.a.toNat, rg t c o.b.toNat, rg t c o.c.toNat, k.i4tab0, k.i4tab1, (ctxOf t c).acct.setWidth 64])] })
        if (arrivalsOf t v g).length < 8 then parkOn .mgang t
        else
          let u ← latticeBarrier t v g
          .ok (wg u c o.d.toNat (((ctxOf u c).cooked).getD 0)))

/-- LATTICE_JOB_START (R330): the pending job starts; the oldest waiting one takes its place. -/
def execLatticeJobStart (v : Nat) (s : State) : Host.Outcome State Fault Refusal :=
  .next (match (clusterAt s v).pending with
    | none => s
    | some j =>
      if (clusterAt s v).running.isSome || s.cycle < j.start.getD 0 || !((List.range 8).all (fun i => segsReady s v i (jobRow j.wordA) (jobV j.wordA))) then s
      else
        let s := (List.range 8).foldl (fun t i =>
          let g := colOf t v i
          setCol t v i { g with
            active := if nbit j.wordA.toNat 61 then g.shadow else g.active
            segs := (List.range (jobV j.wordA)).foldl (fun m r => sput Seg.reset m (jobRow j.wordA + r) { sget Seg.reset m (jobRow j.wordA + r) with state := .busy }) g.segs
            written := sput 0 g.written j.jid.toNat 0 }) s
        let next := (clusterAt s v).waiting.head?
        let s := modCluster s v (fun x => { x with
          running := some { j with start := some s.cycle }, pending := next.map (fun w => { w with start := some (s.cycle + 1) }), waiting := x.waiting.drop 1 })
        let s := match next with | some w => giveJid s w 65536 | none => s
        wakeStalls s v (fun _ w => w = .shadow))

/-! ### A job's arithmetic (R62, R66 to R68) -/

/-- An exact product. -/
def latMul : LatVal → LatVal → LatVal
  | .nan, _ | _, .nan => .nan
  | .fin m _, .inf b => if m = 0 then .nan else .inf (b != decide (m < 0))
  | .inf a, .fin m _ => if m = 0 then .nan else .inf (a != decide (m < 0))
  | .inf a, .inf b => .inf (a != b)
  | .fin m e, .fin n f => .fin (m * n) (e + f)

/-- Finite non-zero products as (m, e). -/
def finites (l : List LatVal) : List (Int × Int) := l.filterMap (fun p => match p with | .fin m e => if m = 0 then none else some (m, e) | _ => none)

/-- A product truncated toward zero to a multiple of 2^q, in units of 2^q, and whether it differs (R66 step 3). -/
def truncTo (q : Int) (p : Int × Int) : Int × Bool :=
  if q ≤ p.2 then (scaleUp p.1 p.2 q, false)
  else let d : Int := 2 ^ (q - p.2).toNat
    (Int.tdiv p.1 d, Int.tmod p.1 d ≠ 0)

/-- A float accumulator after one vector (R66, R67): its bits and the flags, among which R67 names no UF (log 52). -/
def floatColumn (acc : Nat) (l : List LatVal) : Nat × Flags :=
  let plus := l.any (fun p => p = .inf false)
  let minus := l.any (fun p => p = .inf true)
  if l.any (fun p => p = .nan) || (plus && minus) then (canonNan 13, fNV)
  else if plus || minus then (signBit 13 minus + infBits 13, 0)
  else
    let fs := finites l
    match fs with
    | [] => (acc, 0)
    | p0 :: _ =>
      let top := fun (p : Int × Int) => p.2 + bitLen p.1.natAbs - 1
      let q := fs.foldl (fun a p => max a (top p)) (top p0) - 60
      let ts := fs.map (truncTo q)
      let sticky := ts.any (·.2)
      let sum := ts.foldl (fun a p => a + p.1) 0
      let nx : Flags := if sticky then fNX else 0
      let (x, f1) := nadd 1 (decodeIeee 13 acc) (numOf sum q false)
      let (y, f2) := roundNum (if sticky then 5 else 1) 13 false x
      (y, (f1 ||| f2 ||| nx) &&& (fNV ||| fOF ||| fNX))

/-- An integer accumulator after one vector (R68): its bits and whether it wrapped or was clamped. -/
def intColumn (sat : Bool) (acc : Nat) (l : List LatVal) : Nat × Bool :=
  let r := signedN acc 32 + (finites l).foldl (fun a p => a + scaleUp p.1 p.2 0) 0
  let y := if sat then max (-2147483648) (min 2147483647 r) else r
  ((y % 2 ^ 32).toNat, r < -2147483648 || 2147483647 < r)

/-- One vector of the stream buffer as a number. -/
def streamBits (s : State) (v off : Nat) : Nat → Nat
  | 0 => 0
  | n + 1 => (sget (0 : Byte) (clusterAt s v).stream off).toNat + 256 * streamBits s v (off + 1) n

/-- Whether vector r of a job streams as zero by the ragged map and mask (R330). -/
def mapZero (j : LatJob) (r : Nat) : Bool :=
  jobRagged j.wordA && (let m := j.maps.getD r 0
    !(nbit m 15) || !(nbit j.mask (m % 1024)))

/-- What one row of a group becomes: the segment's 16 lanes after its vector, the flags, whether it wrapped. -/
def rowResult (g : ColGroup) (j : LatJob) (i old vec : Nat) : Nat × Flags × Bool :=
  let fmt := jobFmt j.wordA
  let w := fmtBits fmt
  let tab := j.tables.getD i (0, 0)
  let acts := (List.range 64).map (fun k => latOf (decodeElem tab.1 tab.2 fmt ((vec >>> (w * k)) % 2 ^ w)))
  let lanes := (List.range 16).map (fun n =>
    let prods := (acts.zipIdx).map (fun e => latMul e.1 (sget (.fin 0 0) g.active.weights (16 * e.2 + n)))
    let acc := (old >>> (32 * n)) % 2 ^ 32
    if isIntFmt g.active.fmt.toNat && isIntFmt fmt then (let (y, b) := intColumn (nbit j.wordA.toNat 58) acc prods; (y, (0 : Flags), b))
    else (let (y, f) := floatColumn acc prods; (y, f, false)))
  (packList 32 (lanes.map (·.1)), lanes.foldl (fun a e => a ||| e.2.1) 0, lanes.any (fun e => e.2.2))

/-- One row of a group at the end of a job (R330 steps 3 to 6, R210, R211): the group, the flags and the wrap. -/
def endRow (s : State) (v i : Nat) (j : LatJob) (residue : Bool) (r : Nat) (g : ColGroup) : ColGroup × Flags × Bool :=
  let n := 8 * fmtBits (jobFmt j.wordA)
  let vec := if mapZero j r then 0 else streamBits s v (bits j.wordA.toNat 41 32 * 64 + r * n) n
  let row := jobRow j.wordA + r
  let seg := sget Seg.reset g.segs row
  let add := nbit j.wordA.toNat 59
  let old := if add then seg.data.toNat else 0
  let (data, fl, wrap) := if vec = 0 then (old, (0 : Flags), false) else rowResult g j i old vec
  let poison := residue || (add && seg.poison)
  let drain := j.wordB ≠ 0
  let seg : Seg :=
    if !drain then { Seg.reset with data := BitVec.ofNat 512 data, state := .kept, poison := poison }
    else if mapZero j r || poison then { Seg.reset with poison := poison }
    else { data := BitVec.ofNat 512 data, state := .draining, poison := false, jid := j.jid, started := false, since := s.cycle
           batch := if jobRagged j.wordA then j.maps.getD r 0 % 1024 else r }
  ({ g with segs := sput Seg.reset g.segs row seg, applied := if vec = 0 then g.applied else g.applied + BitVec.ofNat 64 g.active.terms }, fl, wrap)

/-- All rows of one group. -/
def endRows (s : State) (v i : Nat) (j : LatJob) (residue : Bool) (n : Nat) : ColGroup × Flags × Bool :=
  (List.range n).foldl (fun a r =>
    let (g, f, w) := endRow s v i j residue r a.1
    (g, a.2.1 ||| f, a.2.2 || w)) (colOf s v i, 0, false)

/-- S of R330: the busy cycles of the slowest group. -/
def jobSpan (s : State) (v : Nat) (j : LatJob) : Nat := (List.range 8).foldl (fun a i => max a (jobV j.wordA * max 1 (colOf s v i).active.span)) 0

/-- Whether a job left segments draining in a cluster. -/
def jobDrains (s : State) (v : Nat) (jid : BitVec 16) : Bool :=
  (List.range 8).any (fun i => (colOf s v i).segs.any (fun e => e.2.state = .draining && e.2.jid = jid))

/-- Cores with drains to do are no longer eligible to steal (R138). -/
def drainsReady (s : State) (v : Nat) (jid : BitVec 16) : State :=
  (List.range 8).foldl (fun t i =>
    if (colOf t v i).segs.any (fun e => e.2.state = .draining && e.2.jid = jid) then modCore t (16 * v + i) (fun x => { x with victim := 0 }) else t) s

/-- LATTICE_JOB_END (R330, R146, R210): the job's vectors are read and its rows written in this step (log 111); `disagree` says that a column's
residue check failed; a job whose mask or map was poisoned ends with POISON (R91; log 126). -/
def execLatticeJobEnd (v : Nat) (disagree : Bool) (s : State) : Host.Outcome State Fault Refusal :=
  .next (match (clusterAt s v).running with
    | none => s
    | some j =>
      let span := jobSpan s v j
      if s.cycle < j.start.getD 0 + 18 + span then s
      else
        let n := jobV j.wordA
        let code := if disagree then cResidue else if j.poison then cPoison else 0
        let rs := (List.range 8).map (fun i => endRows s v i j (code ≠ 0) n)
        let s := (rs.zipIdx).foldl (fun t e =>
          setCol t v e.2 { e.1.1 with idle := e.1.1.idle + BitVec.ofNat 64 (span - n * max 1 e.1.1.active.span) }) s
        let d : LatDone :=
          { jid := j.jid, code := code, wrap := rs.any (fun e => e.2.2), flags := rs.map (fun e => e.2.1), owed := j.members
            entry := j.wordB.toNat, graph := if jobRagged j.wordA then some (jobGraph j.wordC) else none
            accts := j.accts }
        let s := if code ≠ 0 then countFault s (16 * v) code else s
        let s := drainsReady s v j.jid
        let l := (clusterAt s v).ended ++ [d]
        let s := modCluster s v (fun x => { x with running := none, ended := (l.zipIdx.filter (fun e => l.length ≤ e.2 + 8 || jobDrains s v e.1.jid)).map (·.1) })
        wakeStalls s v (fun _ w => match w with | .mwait k => k = j.jid | .mdrain k => k = j.jid | .segments _ _ => true | _ => false))

/-! ### Waiting for jobs and drains (R332, R333) -/

/-- The record of an ended job among the last eight (R332). -/
def endedJob (k : Cluster) (w : Word) : Option LatDone :=
  if 2 ^ 16 ≤ w.toNat then none else ((k.ended.drop (k.ended.length - 8)).reverse).find? (fun d => d.jid = w.setWidth 16)

/-- A job that has not ended. -/
def jobOut (k : Cluster) (w : Word) : Bool :=
  w.toNat < 2 ^ 16 && (k.running.toList ++ k.pending.toList ++ k.waiting).any (fun j => j.jid = w.setWidth 16)

/-- MWAIT (R332, Table 20-4). -/
def execMwait (o : OpE) (s : State) : Host.Outcome State Fault Refusal :=
  runSeq (.mwait o) s (fun t => do
    let c := t.cur
    let v := vertOf c
    let w := rg t c o.a.toNat
    if jobOut (clusterAt t v) w then parkOn (.mwait (w.setWidth 16)) t
    else
      match endedJob (clusterAt t v) w with
      | none => .ok (wg t c o.d.toNat (BitVec.ofNat 64 (w.toNat % 2 ^ 16 * 2 ^ 48 + 4)))
      | some d =>
        settle t
        let u := if d.owed.contains c then
            modCluster (raiseFlags t c (d.flags.getD (coreNo (coreOf c)) 0)) v (fun x => { x with
              ended := x.ended.map (fun e => if e = d then { e with owed := e.owed.filter (· ≠ c) } else e) })
          else t
        .ok (wg u c o.d.toNat (BitVec.ofNat 64 (d.jid.toNat * 2 ^ 48 + d.code * 2 ^ 40 + d.wrap.toNat * 8 + (if d.code = 0 then 2 else 3)))))

/-- MDRAIN (R333): a drain's segment is free once its write has been performed (R380). One that has waited names a job that was known. -/
def execMdrain (o : OpE) (s : State) : Host.Outcome State Fault Refusal :=
  runSeq (.mdrain o) s (fun t => do
    let c := t.cur
    let v := vertOf c
    let g := colOf t v (coreNo (coreOf c))
    let w := rg t c o.a.toNat
    if jobOut (clusterAt t v) w then parkOn (.mdrain (w.setWidth 16)) t
    else if (endedJob (clusterAt t v) w).isNone && !((ctxOf t c).tried) then .ok (wg t c o.d.toNat 0)
    else if g.segs.any (fun e => e.2.state = .draining && e.2.jid = w.setWidth 16) then parkOn (.mdrain (w.setWidth 16)) t
    else .ok (wg t c o.d.toNat (BitVec.ofNat 64 (sget 0 g.written (w.toNat % 2 ^ 16)))))

/-! ### MEMIT (R334) -/

/-- The bytes that MEMIT writes, and the flags of the rounding. -/
def emitBytes (s : State) (c fmt : Nat) (x : Vec) : List Byte × Flags :=
  let f32 := fun i => decodeIeee 13 (lane x 32 i)
  let conv := fun (g : Nat → Nat × Flags) => ((List.range 16).foldl (fun (a : List Nat × Flags) i => let (y, f) := g i; (a.1 ++ [y], a.2 ||| f)) ([], 0))
  if fmt = 13 || fmt = 4 then (bytesOf x.toNat 64, 0)
  else if fmt = 0 then
    (bytesOf (packList 8 ((List.range 16).map (fun i => (max (-128) (min 127 (signedN (lane x 32 i) 32)) % 256).toNat))) 16, 0)
  else
    let (l, f) := conv (fun i => roundNum (ctxOf s c).rmode.toNat fmt false (f32 i))
    (bytesOf (packList (fmtBits fmt) l) (2 * fmtBits fmt), f)

/-- A segment is freed by a MEMIT, which counts for its job when it writes (R333). -/
def emitFree (s : State) (v i row : Nat) (wrote : Bool) : State :=
  let g := colOf s v i
  let x := sget Seg.reset g.segs row
  let s := if wrote && x.state = .draining then setCol s v i { g with written := sput 0 g.written x.jid.toNat (sget 0 g.written x.jid.toNat + 1) } else s
  freeSegment s v i row

/-- The home of a MEMIT entry that goes to another device. -/
def remoteHome (d : Nat) : Nat := 2 ^ 20 + d

/-- MEMIT (R334): outside handler mode it acts at issue; that of a handler leaves at HRET and frees its row when it is performed (R380). -/
def execMemit (o : OpE) (s : State) : Host.Outcome State Fault Refusal :=
  runSeq (.memit o) s (fun t => do
    let c := t.cur
    let v := vertOf c
    let i := coreNo (coreOf c)
    let ea := rg t c o.a.toNat
    let row := (rg t c o.c.toNat).toNat
    let (data, fl) := emitBytes t c (o.imm.toNat % 16) (rv t c o.b.toNat)
    if ea = 0 then
      outputGate t
      let u ← sendBuffer t (.memit row 0 0 []) (fun u => .ok (emitFree u v i row false))
      .ok (raiseFlags u c fl)
    else if ea.toNat % data.length ≠ 0 then trapAt cAlign ea t
    else
      let (tgt, t) ← translate t ea .wr
      match tgt with
      | .phys _ pa leaf =>
        let (_, t) ← tokenCheck t ea .sliceop 3
        outputGate t
        let u := raiseFlags t c fl
        if (ctxOf t c).hmode then (do let u ← sendBuffer t (.memit row (leafHome leaf pa) pa data) (fun u => .ok u); .ok (raiseFlags u c fl))
        else
          .ok (emitFree (sendFlight u c 3 true true (leafHome leaf pa) (.write pa data) 0) v i row true)
      | .remote r =>
        remoteOk t r
        outputGate t
        let u := raiseFlags t c fl
        if (ctxOf t c).hmode then (do let u ← sendBuffer t (.memit row (remoteHome (r.toNat / 2 ^ 53)) (r.toNat % 2 ^ 53) data) (fun u => .ok u); .ok (raiseFlags u c fl))
        else
          .ok (emitFree (sendFlight u c 3 true true 0 (.remoteWrite r .store) 0) v i row true)
      | _ => trapAt cXlatePerm ea t)

/-! ### ALD, AST, MZERO, MTERM (R335, R336) -/

/-- Wait until segments are free or kept; a poisoned one faults (R211, R335). -/
def openSegs (s : State) (row n : Nat) (poison : Bool) : Res Unit :=
  let v := vertOf s.cur
  let i := coreNo (coreOf s.cur)
  if !(segsReady s v i row n) then parkOn (.segments row n) s
  else if poison && (List.range n).any (fun j => (segOf s v i (row + j)).poison) then trapWith cPoison s
  else settle s

/-- The cycle in which an ALD or AST of n segments ends: until then they are busy (R327, R335). -/
def busyUntil (s : State) (n : Nat) : Nat := s.cycle + n + 4 + (ctxOf s s.cur).late

/-- A tile row that context c writes: in delayed lockstep the trailing copy writes its own (R212). -/
def keepTile (s : State) (c k tile row : Nat) (x : BitVec 256) : State :=
  let t := setTileRow s k tile row x
  if (ctxOf s c).lockstep then setTileRow t (coreOf (partnerOf c)) tile row x else t

/-- ALD (R335). -/
def execAld (o : OpE) (s : State) : Host.Outcome State Fault Refusal :=
  runSeq (.ald o) s (fun t => do
    let v := vertOf t.cur
    let k := coreOf t.cur
    let n := o.imm.toNat % 32 + 1
    let row := (rg t t.cur o.c.toNat).toNat
    openSegs t row n true
    .ok ((List.range n).foldl (fun u j =>
      let x := segOf u v (coreNo k) (row + j)
      let u := keepTile (keepTile u t.cur k o.d.toNat (2 * j) (x.data.setWidth 256)) t.cur k o.d.toNat (2 * j + 1) (x.data.extractLsb' 256 256)
      setSeg u v (coreNo k) (row + j) { x with state := .kept, since := busyUntil t n }) t))

/-- Lanes of two segments added (R335). -/
def addLanes (int : Bool) (x y : Vec) : Vec :=
  packVec 32 ((List.range 16).map (fun i => if int then lane x 32 i + lane y 32 i else (floatAdd 1 13 (lane x 32 i) (lane y 32 i)).1))

/-- AST (R335). -/
def execAst (o : OpE) (s : State) : Host.Outcome State Fault Refusal :=
  runSeq (.ast o) s (fun t => do
    let v := vertOf t.cur
    let k := coreOf t.cur
    let n := o.imm.toNat % 32 + 1
    let row := (rg t t.cur o.c.toNat).toNat
    openSegs t row n true
    let int := isIntFmt (colOf t v (coreNo k)).active.fmt.toNat
    .ok ((List.range n).foldl (fun u j =>
      let x := segOf u v (coreNo k) (row + j)
      let y : Vec := tileRow u k o.a.toNat (2 * j + 1) ++ tileRow u k o.a.toNat (2 * j)
      setSeg u v (coreNo k) (row + j) { x with state := .kept, since := busyUntil t n, data := if nbit o.imm.toNat 5 then addLanes int x.data y else y }) t))

/-- MZERO (R335). -/
def execMzero (o : OpE) (s : State) : Host.Outcome State Fault Refusal :=
  runSeq (.mzero o) s (fun t => do
    let v := vertOf t.cur
    let i := coreNo (coreOf t.cur)
    let n := o.imm.toNat + 1
    let row := (rg t t.cur o.c.toNat).toNat
    openSegs t row n false
    .ok ((List.range n).foldl (fun u j => setSeg u v i (row + j) Seg.reset) t))

/-- MTERM (R336). -/
def execMterm (o : OpE) (s : State) : Host.Outcome State Fault Refusal :=
  runPure (.mterm o) s (fun t =>
    let g := colOf t (vertOf t.cur) (coreNo (coreOf t.cur))
    wg t t.cur o.d.toNat
      (match o.imm.toNat with
      | 0 => g.applied
      | 1 => g.dropped
      | 2 => g.idle
      | 3 => BitVec.ofNat 64 g.active.span
      | _ => BitVec.ofNat 64 g.shadow.span))

end Sys2Proof.Machine
end

