-- ==== Sys2Proof/Machine/Engine.lean ====
section
/-! DEFINITION. The access core: jobs, transfers of the access engine, branch-outcome queues and byte barriers (R141, R144, R145, R182,
R337 to R347). -/

namespace Sys2Proof.Machine

/-! ### Jobs -/

/-- Hand queued jobs, oldest first, to the contexts parked at JNEXT, oldest first; a job waits for every fence that its submitter gave before
its JOB (R180). -/
def offerJobs (s : State) (v : Nat) : Nat → State
  | 0 => s
  | n + 1 =>
    let k := clusterAt s v
    let waiting := k.nexters.filter (fun c => (ctxOf s c).run = .stalled .jobQueueEmpty)
    match k.jobs.find? (fun j => j.running.isNone), waiting with
    | some j, c :: r =>
      if s.flights.any (fun h => h.ctx = j.submitter && h.id < j.before && isFence h.op) then s
      else
        let s := modCluster s v (fun x => { x with
          nexters := r, jobs := x.jobs.map (fun i => if i.seq = j.seq then { i with running := some c } else i) })
        offerJobs (modCtx s c (fun x => { x with run := .ready, cooked := some (BitVec.ofNat 64 j.seq) })) v n
    | _, _ => s

/-- JOB (R141, R337). -/
def execJob (o : OpE) (s : State) : Host.Outcome State Fault Refusal :=
  runSeq (.job o) s (fun t => do
    let c := t.cur
    let v := vertOf c
    let e := rg t c o.a.toNat
    let k := clusterAt t v
    if e.toNat % 8 ≠ 0 then trapAt cAlign e t
    else
      outputGate t
      if 64 ≤ (k.jobs.filter (fun j => j.running.isNone)).length then parkOn .jobQueueFull t
      else
        let j : Job :=
          { id := k.jobCounter, entry := e, arg0 := rg t c o.b.toNat, arg1 := rg t c o.c.toNat, submitter := c, before := t.nextId, seq := t.nextId,
            code := 0, running := none, net := netOf t c }
        let u := modCluster { t with nextId := t.nextId + 1 } v (fun x => { x with jobCounter := x.jobCounter + 1, jobs := x.jobs ++ [j] })
        .ok (offerJobs (markCip (wg u c o.d.toNat (j.id.setWidth 64)) c) v 8))

/-- The job of an id: queued or running, or the latest completed one (R141). -/
def jobNamed (k : Cluster) (w : Word) : Option (Job × Bool) :=
  if 2 ^ 16 ≤ w.toNat then none
  else match k.jobs.find? (fun j => j.id = w.setWidth 16) with
  | some j => some (j, false)
  | none => (k.completed.reverse.find? (fun j => j.id = w.setWidth 16)).map (fun j => (j, true))

/-- The status word (Table 08-3). -/
def jobWord (k : Cluster) (w : Word) : Word :=
  match jobNamed k w with
  | none => BitVec.ofNat 64 (w.toNat % 2 ^ 16 * 2 ^ 48 + 4)
  | some (j, false) => BitVec.ofNat 64 (j.id.toNat * 2 ^ 48 + (if j.running.isSome then 1 else 0))
  | some (j, true) => BitVec.ofNat 64 (j.id.toNat * 2 ^ 48 + j.code % 256 * 2 ^ 40 + (if j.code = 0 then 2 else 3))

/-- The status returned; its submitter takes a completed job out of the table (R141). -/
def pollJob (s : State) (d : Nat) (w : Word) : Res State :=
  let c := s.cur
  let v := vertOf c
  let k := clusterAt s v
  let t := wg s c d (jobWord k w)
  match jobNamed k w with
  | some (j, true) =>
    if j.submitter ≠ c then .ok t
    else do
      settle s
      .ok (modCluster t v (fun x => { x with completed := x.completed.filter (fun i => i.seq ≠ j.seq) }))
  | _ => .ok t

/-- JPOLL (R339). -/
def execJpoll (o : OpE) (s : State) : Host.Outcome State Fault Refusal := runSeq (.jpoll o) s (fun t => pollJob t o.d.toNat (rg t t.cur o.a.toNat))

/-- JWAIT (R339). -/
def execJwait (o : OpE) (s : State) : Host.Outcome State Fault Refusal :=
  runSeq (.jwait o) s (fun t =>
    let w := rg t t.cur o.a.toNat
    match jobNamed (clusterAt t (vertOf t.cur)) w with
    | some (j, false) => parkOn (.jobWait j.id) t
    | _ => pollJob t o.d.toNat w)

/-- The job handed to a context that was parked at JNEXT. -/
def takeJob (s : State) (d : Nat) (seq : Nat) : Res State :=
  let c := s.cur
  let v := vertOf c
  match (clusterAt s v).jobs.find? (fun j => j.seq = seq) with
  | none => parkOn .jobQueueEmpty s
  | some j =>
    let s := modCtx (wgs s c d [j.id.setWidth 64, j.entry, j.arg0, j.arg1, BitVec.ofNat 64 (agentOf s j.submitter)]) c (fun x => { x with job := some j.id })
    .ok (wakeStalls s v (fun _ w => w = .jobQueueFull))

/-- JNEXT (R337). -/
def execJnext (o : OpE) (s : State) : Host.Outcome State Fault Refusal :=
  runSeq (.jnext o) s (fun t => do
    let c := t.cur
    let v := vertOf c
    match (ctxOf t c).cooked with
    | some q => takeJob t o.d.toNat q.toNat
    | none =>
      settle t
      let u := modCluster (modCtx t c (fun x => { x with run := .stalled .jobQueueEmpty })) v (fun x => { x with nexters := x.nexters.filter (· ≠ c) ++ [c] })
      let u := offerJobs u v 8
      match (ctxOf u c).cooked with
      | some q => takeJob u o.d.toNat q.toNat
      | none => parkOn .jobQueueEmpty u)

/-- JDONE (R338). Of the completion table the 64 latest entries still in it stay: entries that a JPOLL or JWAIT has taken out displace none
(the model's choice; log 116). -/
def execJdone (o : OpE) (s : State) : Host.Outcome State Fault Refusal :=
  runSeq (.jdone o) s (fun t => do
    let c := t.cur
    let v := vertOf c
    let k := clusterAt t v
    let id := (rg t c o.a.toNat).setWidth 16
    if k.transfers.any (fun x => x.job = some id && x.ctx = c) then parkOn .transfer t
    else
      settle t
      let ended := (k.jobs.filter (fun j => j.running = some c)).map (fun j => { j with running := none, code := if j.code = 0 then o.imm.toNat % 256 else j.code })
      let u := modCluster t v (fun x => { x with
        jobs := x.jobs.filter (fun j => j.running ≠ some c)
        completed := (x.completed ++ ended).drop (x.completed.length + ended.length - 64) })
      let u := modCtx u c (fun x => { x with job := none })
      .ok (wakeStalls u v (fun _ w => w = .jobWait id)))

/-! ### Starting a transfer -/

/-- Whether the job that a context holds is marked faulted (R338). -/
def jobFaulted (s : State) (c : Nat) : Bool := (clusterAt s (vertOf c)).jobs.any (fun j => j.running = some c && j.code ≠ 0)

/-- Addresses of each 256-byte line of n bytes. -/
def span256 (a : Word) (n : Nat) : List Word := (List.range ((a.toNat % 256 + n + 255) / 256)).map (fun i => BitVec.ofNat 64 (a.toNat - a.toNat % 256 + 256 * i))

/-- The memory that an operation names as far as its operands show it (R340). -/
def opSpans (s : State) : EngineOp → List Word
  | .tload src _ n => span256 src (32 * n)
  | .bulk dst src n _ => span256 dst (32 * n) ++ span256 src (32 * n)
  | .gather dst base idx port => span256 idx 64 ++ (if port.isSome then [] else span256 dst 64) ++ lanesAt s base idx
  | .scatter base data idx => span256 idx 64 ++ span256 data 64 ++ lanesAt s base idx
  | .rgather base idx rows n _ => span256 idx (4 * rows) ++ (peekWords s idx rows).flatMap (fun i => span256 (base + BitVec.ofNat 64 (i * (32 * n))) (32 * n))
  | .qpush ea _ _ _ => span256 ea 64
where
  /-- Index words as memory holds them now. -/
  peekWords (s : State) (ea : Word) (n : Nat) : List Nat :=
    match translateNow s (ea.toNat % 2 ^ 53) false with
    | .ok (pa, _, _) => (List.range n).map (fun i => readMem s (pa + 4 * i) 4)
    | .error _ => []
  /-- Lane addresses by the indices as memory holds them now. -/
  lanesAt (s : State) (base idx : Word) : List Word := (peekWords s idx 16).map (fun i => base + BitVec.ofInt 64 (4 * signedN i 32))

/-- L of R340: to the farthest home slice among the lines and the barrier, over the fabric to one of another device (R13, R390). -/
def farthest (s : State) (v : Nat) (l : List Word) : Nat :=
  l.foldl (fun m a =>
    if a.toNat / 2 ^ 53 ≠ s.device then max m (fabricHop s v (a.toNat / 2 ^ 53) false)
    else match translateNow s (a.toNat % 2 ^ 53) false with
    | .ok (_, home, _) => max m (latency v (sliceVertex (home % 2048)))
    | .error _ => m) 0

/-- An engine instruction: attributed to the job the context holds, or held at issue until it has been performed (R338);
in delayed lockstep it starts when the trailing copy has come to it (R213). -/
def startTransfer (s : State) (op : EngineOp) (barrier : Word) : Res State := do
  let c := s.cur
  let v := vertOf c
  lockGate s
  let add := fun (u : State) => modCluster { u with nextId := u.nextId + 1 } v (fun x => { x with transfers := x.transfers ++
    [{ id := u.nextId, ctx := c, pc := pcOf u, job := (ctxOf u c).job, group := (ctxOf u c).groupNo
       due := u.cycle + 2 * farthest u v (opSpans u op ++ (if barrier = 0 then [] else [barrier])) + 6
       op := op, step := 0, idx := [], got := [], barrier := barrier, owed := [] }] })
  if (ctxOf s c).job.isSome then
    settle s
    .ok (if jobFaulted s c then s else add s)
  else if (ctxOf s c).cooked.isSome then .ok s
  else
    settle s
    parkOn .transfer (add s)

/-- The place of a target descriptor (Table 20-6). -/
def placeOf (w : Word) : Place :=
  let x := w.toNat
  if nbit x 63 then .stream (bits x 15 0) else .tile (bits x 10 8) (bits x 2 0) (bits x 21 16)

/-- TLOAD (R341). -/
def execTload (o : OpE) (s : State) : Host.Outcome State Fault Refusal :=
  runSeq (.tload o) s (fun t =>
    let a := rg t t.cur o.a.toNat
    if a.toNat % 32 ≠ 0 then trapAt cAlign a t
    else startTransfer t (.tload a (placeOf (rg t t.cur o.b.toNat)) (o.imm.toNat + 1)) (rg t t.cur o.c.toNat))

/-- BULK (R342): nothing is copied for a count of 0. -/
def execBulk (o : OpE) (s : State) : Host.Outcome State Fault Refusal :=
  runSeq (.bulk o) s (fun t =>
    let a := rg t t.cur o.a.toNat
    let b := rg t t.cur o.b.toNat
    let n := if o.c = 0 then o.imm.toNat % 32768 * 32 + 32 else (rg t t.cur o.c.toNat).toNat
    if a.toNat % 32 ≠ 0 then trapAt cAlign a t
    else if b.toNat % 32 ≠ 0 then trapAt cAlign b t
    else if n % 32 ≠ 0 then trapAt cAlign (rg t t.cur o.c.toNat) t
    else if n = 0 then .ok t
    else startTransfer t (.bulk a b (n / 32) (nbit o.imm.toNat 15)) 0)

/-- GATHER (R343). -/
def execGather (o : OpE) (s : State) : Host.Outcome State Fault Refusal :=
  runSeq (.gather o) s (fun t =>
    let a := rg t t.cur o.a.toNat
    let b := rg t t.cur o.b.toNat
    let x := rg t t.cur o.c.toNat
    let q := nbit o.imm.toNat 15
    if !q && a.toNat % 64 ≠ 0 then trapAt cAlign a t
    else if b.toNat % 4 ≠ 0 then trapAt cAlign b t
    else if x.toNat % 64 ≠ 0 then trapAt cAlign x t
    else startTransfer t (.gather a b x (if q then some (16 * vertOf t.cur + bits o.imm.toNat 6 4, o.imm.toNat % 4) else none)) 0)

/-- SCATTER (R343). -/
def execScatter (o : OpE) (s : State) : Host.Outcome State Fault Refusal :=
  runSeq (.scatter o) s (fun t =>
    let a := rg t t.cur o.a.toNat
    let b := rg t t.cur o.b.toNat
    let x := rg t t.cur o.c.toNat
    if a.toNat % 4 ≠ 0 then trapAt cAlign a t
    else if b.toNat % 32 ≠ 0 then trapAt cAlign b t
    else if x.toNat % 64 ≠ 0 then trapAt cAlign x t
    else startTransfer t (.scatter a b x) 0)

/-- RGATHER (R344): g[d] is the barrier. -/
def execRgather (o : OpE) (s : State) : Host.Outcome State Fault Refusal :=
  runSeq (.rgather o) s (fun t =>
    let b := rg t t.cur o.b.toNat
    let x := rg t t.cur o.c.toNat
    if b.toNat % 32 ≠ 0 then trapAt cAlign b t
    else if x.toNat % 4 ≠ 0 then trapAt cAlign x t
    else startTransfer t (.rgather b x (o.imm.toNat / 1024 + 1) (o.imm.toNat % 1024 + 1) (placeOf (rg t t.cur o.a.toNat))) (rg t t.cur o.d.toNat))

/-- QPUSH (R345). -/
def execQpush (o : OpE) (s : State) : Host.Outcome State Fault Refusal :=
  runSeq (.qpush o) s (fun t =>
    let a := rg t t.cur o.a.toNat
    if a.toNat % 64 ≠ 0 then trapAt cAlign a t
    else startTransfer t (.qpush a (16 * vertOf t.cur + bits o.imm.toNat 6 4) (o.imm.toNat % 4) (nbit o.imm.toNat 8)) 0)

/-! ### Performing a transfer -/

/-- How a line performance ends when it does not move its line: it waits, some cycles at least; it parks the engine at a full or empty queue (R345);
or it faults; with the state then. -/
inductive Halt where
  | wait (cycles : Nat) (s : State)
  | park
  | fault (i : FaultInfo) (s : State)

/-- One line performance. -/
abbrev Move (α : Type) := Except Halt α

/-- A transfer faults at an address; `xfer` is the transfer count of the token entry it met (R200). -/
def moveFault {α : Type} (s : State) (code : Nat) (ea : Word) (xfer : BitVec 32 := 0) : Move α :=
  .error (.fault { code := code, addr := ea, xfer := xfer } s)

/-- The token use of an engine access under the mode of its region (R340). -/
def engineUse (s : State) (va : Nat) (write : Bool) : TokenUse :=
  match (tokenCovering s va).map (fun t => t.mode) with
  | some Mode.commons => if write then .sliceop else .peek
  | _ => if write then .write else .read

/-- The codes that an engine access through a global reference can meet at the device that serves it: translation and tokens, and for a read
poison (R88, R113, R182). -/
def engineCodes (write : Bool) : List Nat :=
  [cXlateMiss, cXlatePerm, cTokenNone, cTainted] ++ (if write then [cTokenFrozen] else [cPoison])

/-- An engine access through a global reference is served, or ends with a code that the other device gives (R175, R182; log 17). -/
def engineAbroad (s : State) (ea : Word) (codes : List Nat) : Move State :=
  let d := ea.toNat / 2 ^ 53
  let code := (Config.remoteFault s.free).toNat
  let t := { s with free := s.free + 1 }
  if s.peersLost.contains d then moveFault s cDeadPeer ea
  else if !(reachable s d) then moveFault s cUndeliverable ea
  else if s.peersStopped.contains d then .error (.wait 0 s)
  else if 0x1FFFFF00000000 ≤ ea.toNat % 2 ^ 53 then moveFault s cXlatePerm ea
  else if codes.contains code then moveFault t code ea
  else .ok t

/-- Where an engine access goes (R92, R93, R340): physical memory with its home, a scratchpad, or another device. -/
def enginePlace (s : State) (v : Nat) (ea : Word) (write : Bool) : Move (Target × State) :=
  let va := ea.toNat % 2 ^ 53
  if ea.toNat / 2 ^ 53 ≠ s.device then (engineAbroad s ea (engineCodes write)).map (fun t => (.remote ea, t))
  else if 0x1FFFFF80000000 ≤ va && va < 0x1FFFFF80200000 then
    .ok (.scratch (16 * v + (va - 0x1FFFFF80000000) / 0x40000) ((va - 0x1FFFFF80000000) % 0x40000), s)
  else match engineTranslate s v va (if write then .wr else .rd) with
  | (.wait, t) => .error (.wait 0 t)
  | (.fault code, t) => moveFault t code ea
  | (.page pa leaf late, t) =>
    let bad := if leafWr leaf then tokenCheckNow s [holderAgent (agentId s.device (engineKey v))] none va (engineUse s va write) else none
    match bad with
    | some (code, x) => moveFault t code ea x
    | none => if late = 0 then .ok (.phys va pa leaf, t) else .error (.wait late t)

/-- Read one 32-byte line for a transfer, once its sector is at its slice (R97). -/
def engineRead (s : State) (v id : Nat) (ea : Word) : Move (BitVec 256 × State) :=
  match enginePlace s v ea false with
  | .error e => .error e
  | .ok (.scratch k o, s) => .ok (BitVec.ofNat 256 ((List.range 32).foldl (fun a i => a + (scratchByte s k (o + i)).toNat * 2 ^ (8 * i)) 0), s)
  | .ok (.phys _ pa leaf, s) =>
    let (ok, s) := reachL2 s (.engine v id) (leafSlice leaf pa) pa 32 (leafClass leaf) false
    if !ok then .error (.wait 0 s)
    else if isPoisoned s pa then moveFault s cPoison ea
    else .ok (BitVec.ofNat 256 (readMem s pa 32), s)
  | .ok (_, s) =>
    let w := packList 64 ((List.range 4).map (fun i => (Config.remoteWord (s.free + i)).toNat))
    .ok (BitVec.ofNat 256 w, { s with free := s.free + 4 })

/-- Write words of one 32-byte line, in one performance: bytes outside the mask, and those that no engine changes, stay (R4, R239, R340). A
scratchpad line is written through facet 0 by every transfer that names memory as its target, GATHER and QPUSH.OUT too (R93, R340; log 102).
Behind a CXL port that is down the write ends with POISON (R388). -/
def engineWrite (s : State) (v id : Nat) (ea : Word) (x mask : BitVec 256) : Move State :=
  let byte := fun (old : Byte) (i : Nat) => let m := mask.extractLsb' (8 * i) 8
    (old &&& ~~~m) ||| (x.extractLsb' (8 * i) 8 &&& m)
  match enginePlace s v ea true with
  | .error e => .error e
  | .ok (.scratch k o, s) => .ok ((List.range 32).foldl (fun t i => setScratch t k (o + i) (byte (scratchByte t k (o + i)) i)) s)
  | .ok (.phys _ pa leaf, s) =>
    if cxlGone s pa then moveFault s cPoison ea else
    let (ok, s) := reachL2 s (.engine v id) (leafSlice leaf pa) pa 32 (leafClass leaf) true
    if !ok then .error (.wait 0 s)
    else if mask = BitVec.allOnes 256 then .ok (programWrite s (leafClass leaf) pa (bytesOf x.toNat 32))
    else
      let kept := (List.range 32).filter (fun i => !(barsWrite s (leafClass leaf) (pa + i)))
      .ok (bumpLine (kept.foldl (fun t i => setByte t (pa + i) (byte (memByte t (pa + i)) i)) s) (pa / 256))
  | .ok (_, s) => .ok s

/-- Write a line at an offset of a target of context c; its zero bit follows from its contents (R79, R341). In delayed lockstep the trailing copy
takes it too (R212). -/
def placeLine (s : State) (c : Nat) (p : Place) (off : Nat) (x : BitVec 256) : State :=
  (vertOf c :: (if (ctxOf s c).lockstep then [vertOf (partnerOf c)] else [])).foldl (fun u v => match p with
    | .tile core tile row => setTileRow u (16 * v + core) tile (row + off / 32) x
    | .stream o => modCluster u v (fun k => { k with
        stream := (List.range 32).foldl (fun m i => sput 0 m (o + off + i) (x.extractLsb' (8 * i) 8)) k.stream })) s

/-- 32-bit words of a line. -/
def lineWords (x : BitVec 256) : List Nat := (List.range 8).map (fun i => (x.extractLsb' (32 * i) 32).toNat)

/-- The line of an address, and each line of some addresses once, in order (R182). -/
def lineBase (a : Word) : Word := BitVec.ofNat 64 (a.toNat / 32 * 32)
def distinct {α : Type} [DecidableEq α] (l : List α) : List α := l.foldl (fun a x => if a.contains x then a else a ++ [x]) []

/-- Lane addresses of a gather or scatter. -/
def laneList (base : Word) (idx : List Nat) : List Word := idx.map (fun i => base + BitVec.ofInt 64 (4 * signedN i 32))

/-- The 64 bytes a gather has read. -/
def gathered (t : Transfer) (base : Word) : List (BitVec 256) :=
  let ws := (laneList base t.idx).map (fun a => match t.got.find? (fun e => e.1 = lineBase a) with
    | some e => (e.2.extractLsb' (8 * (a.toNat % 32)) 32).toNat | none => 0)
  [BitVec.ofNat 256 (packList 32 (ws.take 8)), BitVec.ofNat 256 (packList 32 (ws.drop 8))]

/-- The line that a scatter writes at an address, and its mask: the highest lane of a word stands (R343). -/
def scattered (t : Transfer) (base line : Word) : BitVec 256 × BitVec 256 :=
  let data := (t.got.flatMap (fun e => lineWords e.2))
  ((laneList base t.idx).zip data).foldl (fun (a : BitVec 256 × BitVec 256) e =>
    if lineBase e.1 ≠ line then a
    else
      let sh := 8 * (e.1.toNat % 32)
      let m : BitVec 256 := (0xFFFFFFFF : BitVec 256) <<< sh
      ((a.1 &&& ~~~m) ||| (BitVec.ofNat 256 e.2 <<< sh), a.2 ||| m)) (0, 0)

/-- A push into the inbound half of a port; a killed execute core, or a lost queue, ends the transfer (R140, R345). R140 does not name a push into a
lost inbound half that has room: it ends with QUEUE-LOST at once too (the model's choice; log 130). A full queue parks the engine. -/
def enginePush (s : State) (core port : Nat) (x : Vec) : Move State :=
  if (coreAt s core).killed || (coreAt s core).queuesLost.contains port then moveFault s cQueueLost 0
  else if 16 ≤ (qInOf s core port).length then .error .park
  else .ok (setQIn s core port (qInOf s core port ++ [x]))

/-- One line performance of a transfer (R340 to R345). -/
def engineStep (s : State) (v : Nat) (t : Transfer) : Move (State × Transfer × Bool) :=
  let at_ := fun (a : Word) (n : Nat) => a + BitVec.ofNat 64 (32 * n)
  let full := BitVec.allOnes 256
  let up := { t with step := t.step + 1 }
  match t.op with
  | .tload src dst n => do
    let (x, s) ← engineRead s v t.id (at_ src t.step)
    .ok (placeLine s t.ctx dst (32 * t.step) x, { up with owed := if t.barrier = 0 then [] else t.owed ++ [32] }, n ≤ t.step + 1)
  | .bulk dst src n _ => do
    let (x, s) ← engineRead s v t.id (at_ src t.step)
    let s ← engineWrite s v t.id (at_ dst t.step) x full
    .ok (s, up, n ≤ t.step + 1)
  | .gather dst base idx port =>
    if t.step < 2 then do
      let (x, s) ← engineRead s v t.id (at_ idx t.step)
      .ok (s, { up with idx := t.idx ++ lineWords x }, false)
    else
      let lines := distinct ((laneList base t.idx).map lineBase)
      let i := t.step - 2
      if i < lines.length then do
        let (x, s) ← engineRead s v t.id (lines.getD i 0)
        .ok (s, { up with got := t.got ++ [(lines.getD i 0, x)] }, false)
      else match port with
      | some (core, q) => do
        let s ← enginePush s core q (BitVec.ofNat 512 (packList 256 ((gathered t base).map (·.toNat))))
        .ok (s, up, true)
      | none => do
        let j := i - lines.length
        let s ← engineWrite s v t.id (at_ dst j) ((gathered t base).getD j 0) full
        .ok (s, up, 1 ≤ j)
  | .scatter base data idx =>
    if t.step < 2 then do
      let (x, s) ← engineRead s v t.id (at_ idx t.step)
      .ok (s, { up with idx := t.idx ++ lineWords x }, false)
    else if t.step < 4 then do
      let (x, s) ← engineRead s v t.id (at_ data (t.step - 2))
      .ok (s, { up with got := t.got ++ [(at_ data (t.step - 2), x)] }, false)
    else do
      let lines := distinct ((laneList base t.idx).map lineBase)
      let line := lines.getD (t.step - 4) 0
      let (x, m) := scattered t base line
      let s ← engineWrite s v t.id line x m
      .ok (s, up, lines.length ≤ t.step - 3)
  | .rgather base idx rows rowLines dst =>
    let first := idx.toNat / 32 * 32
    let skip := (idx.toNat - first) / 4
    let n := (skip + rows + 7) / 8
    if t.step < n then do
      let (x, s) ← engineRead s v t.id (at_ (BitVec.ofNat 64 first) t.step)
      .ok (s, { up with idx := t.idx ++ lineWords x }, false)
    else do
      let list := (t.idx.drop skip).take rows
      let items := distinct list
      let i := t.step - n
      let row := items.getD (i / rowLines) 0
      let j := i % rowLines
      let (x, s) ← engineRead s v t.id (at_ (base + BitVec.ofNat 64 (row * (32 * rowLines))) j)
      let places := list.zipIdx.filter (fun e => e.1 = row)
      .ok (places.foldl (fun u e => placeLine u t.ctx dst (32 * (e.2 * rowLines + j)) x) s,
        { up with owed := if t.barrier = 0 then [] else t.owed ++ [32 * places.length] }, items.length * rowLines ≤ i + 1)
  | .qpush ea core port out =>
    if out then
      if t.step = 0 then
        match qOutOf s core port with
        | [] => if (coreAt s core).killed || (coreAt s core).queuesLost.contains port then moveFault s cQueueLost 0 else .error .park
        | x :: r => .ok (setQOut s core port r, { up with got := [(0, x.setWidth 256), (0, x.extractLsb' 256 256)] }, false)
      else do
        let s ← engineWrite s v t.id (at_ ea (t.step - 1)) ((t.got.getD (t.step - 1) (0, 0)).2) full
        .ok (s, up, 2 ≤ t.step)
    else if t.step < 2 then do
      let (x, s) ← engineRead s v t.id (at_ ea t.step)
      .ok (s, { up with got := t.got ++ [(0, x)] }, false)
    else do
      let s ← enginePush s core port (BitVec.ofNat 512 (packList 256 (t.got.map (fun e => e.2.toNat))))
      .ok (s, up, true)

def setTransfer (s : State) (v : Nat) (t : Transfer) : State :=
  modCluster s v (fun k => { k with transfers := k.transfers.map (fun x => if x.id = t.id then t else x) })
/-- Behind the others: lines of different contexts interleave (R340). -/
def rotateTransfer (s : State) (v : Nat) (t : Transfer) : State :=
  modCluster s v (fun k => { k with transfers := k.transfers.filter (fun x => x.id ≠ t.id) ++ [t] })
def dropTransfer (s : State) (v id : Nat) : State := modCluster s v (fun k => { k with transfers := k.transfers.filter (fun x => x.id ≠ id) })

/-- No line is left to move: marked by a step past every line. -/
def allMoved (t : Transfer) : Transfer := { t with step := 2 ^ 64 }

/-- A transfer whose lines and decrements are all performed is over: its context, or its JDONE, goes on; `.D` is counted (R342). One that a fault cut short but for its decrements does not end a later one of its context. -/
def endTransfer (s : State) (v : Nat) (t : Transfer) : State :=
  if t.step < 2 ^ 64 || !t.owed.isEmpty then s
  else
    let s := dropTransfer s v t.id
    let who := match t.job with
      | some id => (match (clusterAt s v).jobs.find? (fun j => j.id = id && j.running = some t.ctx) with | some j => coreOf j.submitter | none => coreOf t.ctx)
      | none => coreOf t.ctx
    let s := match t.op with
      | .bulk _ _ n true => modCore s who (fun k => { k with counters := { k.counters with dupbytes := k.counters.dupbytes + BitVec.ofNat 64 (32 * n) } })
      | _ => s
    if (ctxOf s t.ctx).run = .stalled .transfer && !((clusterAt s v).transfers.any (fun x => x.ctx = t.ctx && x.job.isNone = t.job.isNone)) then
      modCtx s t.ctx (fun x => { x with run := .ready, cooked := if t.job.isNone then some 0 else x.cooked })
    else s

/-- A transfer that a fault ends: the decrements for the lines that it delivered are still to come (R341). -/
def cutTransfer (s : State) (v : Nat) (t : Transfer) : State := if t.owed.isEmpty then dropTransfer s v t.id else setTransfer s v (allMoved t)

/-- A fault of a transfer (R338): class J marks the job and discards what the job still has, and POISON is attributed to the request that
holds the region (R207); class I is taken at the instruction, with the transfer count seen (R200). -/
def failTransfer (s : State) (v : Nat) (t : Transfer) (i : FaultInfo) : State :=
  match t.job with
  | none =>
    let s := cutTransfer s v t
    if (ctxOf s t.ctx).run = .stalled .transfer then takeTrap (countEvent s t.ctx) t.ctx i else s
  | some id =>
    let code := i.code
    let s := countFault (poisonRequest s i) (coreOf t.ctx) code
    let s := ((clusterAt s v).transfers.filter (fun x => x.job = some id && x.ctx = t.ctx && t.id ≤ x.id)).foldl (fun u x => cutTransfer u v x) s
    let s := modCluster s v (fun k => { k with
      jobs := k.jobs.map (fun j => if j.id = id && j.running = some t.ctx && j.code = 0 then { j with code := code } else j) })
    if (ctxOf s t.ctx).run = .stalled .transfer then modCtx s t.ctx (fun x => { x with run := .ready }) else s

/-- A transfer may move a line now: it has begun, no fence of its context before it names path 2 (R180), and no transfer of an earlier switch group
of its context is left (R182). -/
def mayMove (s : State) (l : List Transfer) (t : Transfer) : Bool :=
  t.due ≤ s.cycle && t.step < 2 ^ 64 &&
    !(t.job.isNone && s.flights.any (fun f => f.ctx = t.ctx && f.id < t.id && (match f.op with | .fence _ dst => nbit dst 2 | _ => false))) && !(l.any (fun x => x.ctx = t.ctx && x.group < t.group))

/-- ACCESS_TRANSFER_LINE: at most eight lines a cycle (R340). A transfer whose page is walked, or whose sector is on its way, waits, and the
others go on; one whose queue is full or empty parks the engine (R345); a fault of class I is taken once what its context sent before has taken its full effect (R151). -/
def execAccessTransferLine (v : Nat) (s : State) : Host.Outcome State Fault Refusal :=
  .next (
    let k := clusterAt s v
    let n := if k.engine.1 = s.cycle then k.engine.2 else 0
    if 8 ≤ n then s
    else match k.transfers.find? (mayMove s k.transfers) with
    | none => s
    | some t =>
      match engineStep s v t with
      | .error (.wait n u) => rotateTransfer u v { t with due := s.cycle + n }
      | .error .park => modCluster s v (fun x => { x with transfers := t :: x.transfers.filter (fun y => y.id ≠ t.id) })
      | .error (.fault i u) => if t.job.isNone && unfinished s t.ctx then s else failTransfer u v t i
      | .ok (u, t, last) =>
        let u := modCluster u v (fun x => { x with engine := (s.cycle, n + 1) })
        let t := if last then allMoved t else t
        endTransfer (rotateTransfer u v t) v t)

/-! ### Byte barriers (R144, R145) -/

/-- The WAITB of a context that is registered at a barrier. -/
def waiterAt (s : State) (c pa : Nat) : Option (Flight Regs) :=
  s.flights.find? (fun f => f.ctx = c && f.done && (match f.op with | .waitb q _ => q = pa | _ => false))

/-- A WAITB ends with its barrier's count, 2L + 4 cycles after the test that found it (R347). -/
def endWait (s : State) (f : Flight Regs) (p : Word) : State :=
  modCtx (dropFlight s f.id) f.ctx (fun x => { x with cooked := some p, run := .ready, readyAt := max x.readyAt (s.cycle + 2 * hop f.ctx f.slice + 4) })

/-- The contexts of cluster v that a waiters word names receive the count; one that is not parked at a WAITB of this barrier ignores the
wake (R145, Table 08-4). -/
def wakeBarrier (s : State) (v pa waiters : Nat) (p : Word) : State :=
  ((List.range 64).filter (nbit waiters)).foldl (fun t i =>
    match waiterAt t (128 * v + i) pa with
    | some f => if (ctxOf t f.ctx).run = .stalled (.barrier pa) then endWait t f p else t
    | none => t) s

/-- Write pending; at or below zero, wake the waiters and clear their bits in the same step (R145). -/
def setPending (s : State) (v cls pa : Nat) (p : Word) : State :=
  if 0 < p.toInt then programWrite s cls pa (bytesOf p.toNat 8)
  else wakeBarrier (programWrite s cls pa (bytesOf p.toNat 16)) v pa (readMem s (pa + 8) 8) p

/-- The test of a WAITB at its slice: the count when it is at or below zero, otherwise its bit is set (R145); poison ends it (R91). -/
def testBarrier (s : State) (f : Flight Regs) (pa : Nat) : State :=
  let p := BitVec.ofNat 64 (readMem s pa 8)
  if anyPoison s pa 16 then flightFault s f { code := cPoison, addr := f.ea }
  else if 0 < p.toInt then setFlight (programWrite (touchL2 s f.slice (pa + 8) 8 f.cls true) f.cls (pa + 8) (bytesOf (readMem s (pa + 8) 8 ||| 2 ^ (f.ctx % 64)) 8)) { f with done := true }
  else endWait s f p

/-- BARI at its slice: waiters are read only when they are woken, so that poison matters only then (R91, R145). -/
def performBari (s : State) (f : Flight Regs) (pa : Nat) (count : Word) : State :=
  if count.toInt ≤ 0 && anyPoison s pa 16 then flightFault s f { code := cPoison, addr := f.ea }
  else setPending (giveWords (endFlight s f) f 0 []) (vertOf f.ctx) f.cls pa count

/-- BARRIER_DECREMENT: the next delivery of a cluster's transfers lowers its barrier (R145). A barrier in the untranslated top of any device
ends the transfer with XLATE-PERM (R89), one of a lost device with DEAD-PEER (R219). One whose page only the cluster's TLB holds is 8 cycles later
(R92), and one whose sector is missing waits for it (R97). -/
def execBarrierDecrement (v : Nat) (s : State) : Host.Outcome State Fault Refusal :=
  .next (match (clusterAt s v).transfers.find? (fun t => !t.owed.isEmpty && t.due ≤ s.cycle) with
    | none => s
    | some t =>
      let next := { t with owed := t.owed.drop 1 }
      let fail := fun (u : State) (i : FaultInfo) => if t.job.isNone && unfinished s t.ctx then s else failTransfer (setTransfer u v { t with owed := [] }) v { t with owed := [] } i
      if t.barrier.toNat / 2 ^ 53 ≠ s.device then
        match engineAbroad s t.barrier [cXlateMiss, cXlatePerm, cPoison] with
        | .error (.fault i u) => fail u i
        | .error (.wait _ u) => u
        | .error .park => s
        | .ok u => endTransfer (setTransfer u v next) v next
      else match engineTranslate s v (t.barrier.toNat % 2 ^ 53) .wr with
      | (.wait, u) => u
      | (.fault code, u) => fail u { code := code, addr := t.barrier }
      | (.page pa leaf late, u) =>
        if late ≠ 0 then setTransfer u v { t with due := s.cycle + late } else
        let (ok, u) := reachL2 u (.engine v t.id) (leafSlice leaf pa) pa 16 (leafClass leaf) true
        if !ok then u
        else if anyPoison u pa 16 then fail u { code := cPoison, addr := t.barrier }
        else endTransfer (setTransfer (setPending u v (leafClass leaf) pa (BitVec.ofNat 64 (readMem u pa 8) - BitVec.ofNat 64 (t.owed.headD 0))) v next) v next)

/-- BARI (R347). -/
def execBari (o : OpE) (s : State) : Host.Outcome State Fault Refusal :=
  runSeq (.bari o) s (fun t => do
    let c := t.cur
    let ea := rg t c o.a.toNat
    if ea.toNat % 16 ≠ 0 then trapAt cAlign ea t
    else
      let (tgt, t) ← translate t ea .wr
      match tgt with
      | .phys _ pa leaf =>
        let (_, t) ← tokenCheck t ea .write 1
        outputGate t
        .ok (sendClear t c 1 true false (leafHome leaf pa) (.bari pa (rg t c o.b.toNat)) 0 ea)
      | .remote r =>
        remoteOk t r
        outputGate t
        .ok (forgetRemote (sendFlight t c 1 true false 0 (.remoteWrite r .store) 0) c r false)
      | _ => trapAt cXlatePerm ea t)

/-- WAITB (R145, R347): parked until the count is at or below zero; that of a barrier abroad comes with the answer. -/
def execWaitb (o : OpE) (s : State) : Host.Outcome State Fault Refusal :=
  runSeq (.waitb o) s (fun t => do
    let c := t.cur
    let ea := rg t c o.a.toNat
    match (ctxOf t c).cooked, decide (ea.toNat / 2 ^ 53 = t.device) with
    | some p, true => .ok (wg t c o.d.toNat p)
    | _, _ =>
      let (tgt, t) ← translate t ea .rd
      match tgt with
      | .phys _ pa leaf =>
        if t.flights.any (fun f => f.ctx = c && (match f.op with | .waitb .. => true | _ => false)) then parkOn (.barrier pa) t
        else parkOn (.barrier pa) (sendFlight t c 1 true false (leafHome leaf pa) (.waitb pa o.d.toNat) 0 ea)
      | .remote r =>
        let (x, u) ← remoteRead t r 8
        .ok (wg u c o.d.toNat (if 0 < (BitVec.ofNat 64 x).toInt then 0 - BitVec.ofNat 64 x else BitVec.ofNat 64 x))
      | _ => trapAt cXlatePerm ea t)

/-! ### Branch-outcome queues (R140, R346) -/

/-- The core whose queues an instruction names: its own, or one of its cluster for the access core. -/
def boqCore (c n : Nat) : Nat := if isExecute (coreOf c) then coreOf c else 16 * vertOf c + n

/-- The port number under which the branch-outcome queue of a core loses the region behind it (R140; log 103). -/
def branchPort : Nat := 4

/-- A full or empty queue: the context waits, or QUEUE-LOST when the other side is killed or the queue is lost (R140). -/
def boqStop {α : Type} (s : State) (k : Nat) (w : Stall) : Res α :=
  if (coreAt s (if isExecute (coreOf s.cur) then accessOf k else k)).killed || (coreAt s k).queuesLost.contains branchPort then trapWith cQueueLost s
  else parkOn w s

/-- The queue of an execute core toward the access core, or from it. -/
def boqOf (s : State) (k : Nat) (up : Bool) : List Bool := if up then (coreAt s k).boqToAccess else (coreAt s k).boqFromAccess

/-- A queue changes: a context parked on it goes on in the next cycle (R140). -/
def setBoq (s : State) (k : Nat) (up : Bool) (l : List Bool) : State :=
  let old := boqOf s k up
  let s := modCore s k (fun y => if up then { y with boqToAccess := l } else { y with boqFromAccess := l })
  let reader := if up then accessOf k else k
  let writer := if up then k else accessOf k
  let s := if old.isEmpty && !l.isEmpty then holdParked s reader (.branchPop k) else s
  if 32 ≤ old.length && l.length < 32 then holdParked s writer (.branchPush k) else s

/-- BOQP (R346). -/
def execBoqp (o : OpE) (s : State) : Host.Outcome State Fault Refusal :=
  runSeq (.boqp o) s (fun t => do
    let c := t.cur
    let k := boqCore c (o.imm.toNat % 8)
    let b := rg t c o.a.toNat ≠ 0
    let up := isExecute (coreOf c)
    outputGate t
    if 32 ≤ (boqOf t k up).length then boqStop t k (.branchPush k) else .ok (markCip (setBoq t k up (boqOf t k up ++ [decide b])) c))

/-- BROQ (R346): a target that faults leaves the bit. -/
def execBroq (o : OpE) (s : State) : Host.Outcome State Fault Refusal :=
  run (.broq o) s (fun t => do
    let c := t.cur
    let k := boqCore c (o.c.toNat % 8)
    let up := !(isExecute (coreOf c))
    settle t
    match boqOf t k up with
    | [] => boqStop t k (.branchPop k)
    | b :: r =>
      let u := markCip (setBoq t k up r) c
      if b then transfer t (pcOf t + (o.imm.signExtend 64 <<< 3)) u else .ok (u, nextPc u))

end Sys2Proof.Machine
end

