-- ==== Sys2Proof/Machine/Fetch.lean ====
section
/-! DEFINITION. Cycles passing, the issue slot (R188), instruction fetch (R96, R223) and the checker stage (R209). -/

namespace Sys2Proof.Machine

/-- Events that happen while the module clock is stopped: the links' own, and the host's (R20, R219, R393). No core, engine, router or slice
runs, so neither firmware reports nor claims. -/
def runsStopped : Instr → Bool
  | .clockRestart | .stopNotice | .startUp _ | .powerLoss _ | .stopNoticeReceived _ | .peerAnswersAgain _ => true
  | _ => false

/-- Contexts waiting at a group end, by core: each such cycle counts in the core's parked counter (R148). -/
def countParked (s : State) (n : Nat) : State :=
  s.ctxs.foldl (fun t e => if e.2.run = .groupEnd then
    modCore t (coreOf e.1) (fun x => { x with counters := { x.counters with parked := x.counters.parked + BitVec.ofNat 64 n } }) else t) s

/-- n module cycles pass, counted as stopped while the clock is (R20, R81). -/
def passCycles (s : State) (n : Nat) : State :=
  if n = 0 then s
  else if s.clockStopped then { s with statStopped := s.statStopped + BitVec.ofNat 64 n, stoppedAll := s.stoppedAll + n }
  else countParked { s with cycle := s.cycle + n } n

/-- A context that can issue in this cycle: ready, not before the cycle after a queue that it waited for moved (R140), and, as a gang member,
with cycles left in its budget: on exhaustion it stops at once (R147, R194). -/
def canIssue (s : State) (c : Nat) : Bool :=
  let x := ctxOf s c
  x.run = .ready && x.heldUntil ≤ s.cycle &&
    !(x.gang.isSome && !x.hmode && (match x.budgetEnd with | some e => e ≤ s.cycle | none => false))

/-- The context that issues next on a core: the holder of the slot while its group goes on, otherwise the next ready one after it
(R188). -/
def nextCtx (s : State) (k : Nat) : Option Nat :=
  let h := (coreAt s k).turn
  if canIssue s (8 * k + h) && 0 < (ctxOf s (8 * k + h)).group.len then some (8 * k + h)
  else ((List.range 8).map (fun i => 8 * k + (h + 1 + i) % 8)).find? (canIssue s)

/-- What an issue slot gives: a word to run, or a step already taken. -/
inductive Issued where
  | done (s : State)
  | word (i : Instr) (s : State)

/-- Put a line into an instruction cache; the least recently used of a full set leaves (R96). -/
def installCode (s : State) (k l : Nat) : State :=
  modCore s k (fun x =>
    let set := x.icache.filterMap (fun e => match e.2 with | some y => if e.1 % 128 = l % 128 && e.1 ≠ l then some (e.1, y.2.2) else none | none => none)
    let rank := set.foldl (fun a e => max a (e.2 + 1)) 0
    let old := set.foldl (fun (b : Option (Nat × Nat)) e => match b with | some (_, u) => if e.2 < u then some e else b | none => some e) none
    let c := match old with | some (v, _) => if 8 ≤ set.length then sput none x.icache v none else x.icache | none => x.icache
    { x with icache := sput none c l (some (BitVec.ofNat 256 (readMem s (32 * l) 32), isPoisoned s (32 * l), rank)) })

/-- The instruction at a physical address in a cached line, and the line marked as used (R96). -/
def codeAt (s : State) (k pa : Nat) : Option (Instr × Bool × State) :=
  match sget none (coreAt s k).icache (pa / 32) with
  | none => none
  | some (d, bad, _) =>
    let used := modCore s k (fun x =>
      let rank := x.icache.foldl (fun a e => match e.2 with | some y => if e.1 % 128 = pa / 32 % 128 then max a (y.2.2 + 1) else a | none => a) 0
      { x with icache := sput none x.icache (pa / 32) (some (d, bad, rank)) })
    some (instrOf (d.extractLsb' (8 * (pa % 32)) 64), bad, used)

/-- Fetch at the program counter of context s.cur (R223): a fault of the fetch is one of the instruction. -/
def fetch (s : State) : Issued :=
  let c := s.cur
  let k := coreOf c
  let pc := (ctxOf s c).pc
  let va := pc.toNat % 2 ^ 53
  let bad := fun (code : Nat) => Issued.done (faultNow { code := code, addr := pc } s)
  if 0x1FFFFF00000000 ≤ va then bad cXlatePerm
  else match (ctxOf s c).walkFails.find? (fun f => f.1 = va) with
  | some (_, code) => bad code
  | none =>
    match tlbLookup s k va with
    | none => .done (modCtx (askWalk s c va) c (fun x => { x with run := .stalled (.walk va) }))
    | some (e, n, s) =>
      let s := addLate s c n
      if !(leafEx e.leaf) then .done (faultNow { code := cXlatePerm, addr := pc } s)
      else
        let pa := leafPa e.page va e.leaf
        match codeAt s k pa with
        | none => .done (modCtx (modCore s k (fun x => { x with fetches := if x.fetches.any (fun f => f.1 = pa / 32) then x.fetches else
            x.fetches ++ [(pa / 32, s.cycle + fillTime k (leafSlice e.leaf pa) + n, leafSlice e.leaf pa)] })) c
            (fun x => { x with run := .stalled (.fetch (pa / 32)), late := 0 }))
        | some (i, poison, s) => if poison then .done (faultNow { code := cPoison, addr := pc } s) else .word i s

/-- A mismatch that the checker stage saw at an issue of core k (R148, R209). -/
def countMismatch (s : State) (k : Nat) : State :=
  modCore s k (fun x => { x with counters := { x.counters with checker := x.counters.checker + 1 } })

/-- The issue slot of a core (R188), which takes one instruction a cycle: a retry of the checker stage is counted, keeps the slot 16 cycles
longer and delays the results as much (R209, R234), as the lookup of its page in the cluster's TLB does by 8 (R92, R374), I4 tables whose second read has returned stand (R280); a second mismatch kills the core before the instruction has any effect. -/
def issue (s : State) (k checker : Nat) : Issued :=
  if s.clockStopped || !(coreExists k) || (coreAt s k).killed || s.cycle < (coreAt s k).issueFree then .done s
  else match nextCtx s k with
  | none => .done s
  | some c =>
    match fetch { modCore (settleTables s k) k (fun x => { x with turn := c % 8 }) with cur := c } with
    | .done t => .done t
    | .word i t =>
      let wait := (ctxOf t c).late - (ctxOf s c).late
      if checker = 0 then .word i (modCore t k (fun x => { x with issueFree := t.cycle + 1 + wait }))
      else if checker = 1 then .word i (addLate (modCore (countMismatch t k) k (fun x => { x with issueFree := t.cycle + 17 + wait })) c 16)
      else .done (killCore (countMismatch t k) k c)

/-! ### Placing a word to be fetched (log 8) -/

/-- The first core, of the few kinds there are, that has the instruction: execute core 0 and access core 8 of vertex (0, 0), apex
core 14 of die 0. -/
def coreFor (i : Instr) : Nat :=
  let apex := 16 * apexVertex 0 + 14
  if isPOnly i then apex else
  match i with
  | .srd o => if 0x7FF ≤ o.sreg.toNat then apex else if sregOn 0 o.sreg.toNat then 0 else 8
  | .swr o => if 0x7FF ≤ o.sreg.toNat then apex else if sregOn 0 o.sreg.toNat then 0 else 8
  | _ => if unitOk 0 i then 0 else if unitOk 8 i then 8 else apex

/-- A word at physical address 0, mapped for execution at virtual address 0x10000, cached, with context 0 of its core ready there
and the issue slot next. -/
def placeWord (s : State) (w : Word) : State :=
  let k := coreFor (instrOf w)
  let c := 8 * k
  let va := 0x10000
  let s := writeMem { s with agenda := [{ cycles := 0, act := .issue k 0 }], clockStopped := false } 0 (bytesOf w.toNat 8)
  let s := modCore s k (fun x => { x with
    killed := false, tlb := [{ page := va, lsize := 16, leaf := 0x9A90000000000000 }],
    icache := [(0, some (BitVec.ofNat 256 w.toNat, false, 0))], turn := 7, issueFree := 0 })
  modCtx s c (fun x => { x with run := .ready, heldUntil := 0, budgetEnd := none, pc := BitVec.ofNat 64 (s.device * 2 ^ 53 + va), group := Group.empty, walkFails := [] })

end Sys2Proof.Machine
end

