-- ==== Sys2Proof/Machine/Groups.lean ====
section
/-! DEFINITION. Reduction and multicast groups, request records, graph launch and signal (R127 to R134, R207, R348 to R357). -/

namespace Sys2Proof.Machine

/-! ### Groups -/

/-- The vertex that keeps the group table: the apex vertex of die 0 (R134; log 44), and the slice of an entry. -/
def groupSlice (gid : Nat) : Nat := sliceId (apexVertex 0) (gid % 4)

/-- Member agent ids of a list in memory, two to a word (R134, R348). -/
def readMembers (s : State) (ea : Word) : Nat → Res (List Nat × State)
  | 0 => .ok ([], s)
  | n + 1 => do
    let (x, s) ← memRead s ea 4 .peek
    let (l, s) ← readMembers s (ea + 4) n
    .ok (x :: l, s)

/-- Whether an address lies in a commons region of this module that translates; where its word stands. -/
def commonsPlace (s : State) (ea : Word) : Option Nat :=
  let va := ea.toNat % 2 ^ 53
  if ea.toNat / 2 ^ 53 ≠ s.device then none
  else match (tokenProbe s va).map (fun t => t.mode), translateNow s va true with
  | some Mode.commons, .ok (pa, _, _) => some pa
  | _, _ => none

/-- GOPEN (R348): descriptor and member list are read on path 0, what they meet comes before the group's own faults (R199), and the entry is
filled in one step. -/
def execGopen (o : OpE) (s : State) : Host.Outcome State Fault Refusal :=
  runSeq (.gopen o) s (fun t => do
    let c := t.cur
    let gid := (rg t c o.a.toNat).toNat
    let ea := rg t c o.b.toNat
    if ea.toNat % 32 ≠ 0 then trapAt cAlign ea t
    else
      let (w0, t) ← memRead t ea 8 .peek
      let (mlist, t) ← memRead t (ea + 8) 8 .peek
      let (w2, t) ← memRead t (ea + 16) 8 .peek
      let (dest, t) ← memRead t (ea + 24) 8 .peek
      let kind := bits w0 61 60
      let fmt := bits w0 59 56
      let op := bits w0 55 52
      if bits w0 63 62 ≠ 0 || bits w0 31 0 ≠ 0 || 2 ≤ kind || 6 ≤ op then trapWith cIllegalEncoding t
      else if kind = 0 && !([4, 5, 6, 7, 13].contains fmt) then trapWith cIllegalEncoding t
      else if mlist % 8 ≠ 0 || dest % 8 ≠ 0 then trapAt cAlign (BitVec.ofNat 64 (if mlist % 8 ≠ 0 then mlist else dest)) t
      else
        let (members, t) ← readMembers t (BitVec.ofNat 64 mlist) (bits w0 43 32 + 1)
        if kind = 0 && (commonsPlace t (BitVec.ofNat 64 dest)).isNone then trapAt cTokenBadop (BitVec.ofNat 64 dest) t
        if (groupOf t gid).state ≠ 0 then trapWith cGroupBusy t
        outputGate t
        let u := setGroup t gid
          { state := 1, kind := kind, fmt := BitVec.ofNat 4 fmt, op := op, inflight := 0, mlist := BitVec.ofNat 64 mlist, root := bits w2 26 0
            dest := BitVec.ofNat 64 dest, destPa := (commonsPlace t (BitVec.ofNat 64 dest)).getD 0, members := members, round := [] }
        .ok (notBefore (markCip u c) c (t.cycle + 2 * hop c (groupSlice gid) + 6)))

/-- One copy of a multicast to member n (R349): a message of its own. -/
def sendCopy (s : State) (c gid cls n : Nat) (pay : List Word) : State :=
  let e := groupOf s gid
  let k := coreOf c
  let (id, s) := takeMsgid s k
  let s := setGroup s gid { e with inflight := e.inflight + 1 }
  leaveMsg s k { newMsg cls (agentOf s c) id (ctxOf s c).lease (e.members.getD n 0) pay with group := some gid }

/-- Copies from member n on while the core has retry entries: the first member left. -/
def sendCopies (s : State) (c gid cls : Nat) (pay : List Word) : Nat → Nat → Nat × State
  | 0, n => (n, s)
  | fuel + 1, n =>
    if (groupOf s gid).members.length ≤ n || retryFull s (coreOf c) then (n, s)
    else sendCopies (sendCopy s c gid cls n pay) c gid cls pay fuel (n + 1)

/-- GSEND (R349): outside handler mode it waits for accesses that return a result, and for retry entries. -/
def execGsend (o : OpE) (s : State) : Host.Outcome State Fault Refusal :=
  runSeq (.gsend o) s (fun t => do
    let c := t.cur
    let gid := (rg t c o.a.toNat).toNat
    let pay := rgs t c o.b.toNat 6
    let e := groupOf t gid
    let cls := o.imm.toNat
    if (e.state ≠ 1 || e.kind ≠ 1) && (ctxOf t c).cooked.isNone then trapWith cGroupBusy t
    else
      outputGate t
      sendBuffer t (.gsend gid cls pay 0) (fun u => do
        if returning u c then parkOn .flights u
        else
          let (n, u) := sendCopies u c gid cls pay 4096 (match (ctxOf u c).cooked with | some w => w.toNat | none => 0)
          if n < (groupOf u gid).members.length then parkOn .retryFull (modCtx u c (fun x => { x with cooked := some (BitVec.ofNat 64 n) }))
          else .ok u))

/-- The index of an agent in a group. -/
def memberIndex (e : GroupEntry) (a : Nat) : Nat := e.members.findIdx (· = a)

/-- Whether a member has contributed to the current round, performed or on its way (R350). -/
def hasGiven (s : State) (gid m : Nat) : Bool :=
  (groupOf s gid).round.any (fun e => e.1 = m) ||
    s.flights.any (fun f => match f.op with | .contribute g n _ => g = gid && n = m | _ => false)

/-- A contribution leaves: it counts in inflight until it is performed. -/
def sendContribution (s : State) (c gid m : Nat) (x : Word) : State :=
  let e := groupOf s gid
  sendFlight (setGroup s gid { e with inflight := e.inflight + 1 }) c 1 false true (groupSlice gid) (.contribute gid m x) 0

/-- GRED (R350). -/
def execGred (o : OpE) (s : State) : Host.Outcome State Fault Refusal :=
  runSeq (.gred o) s (fun t => do
    let c := t.cur
    let gid := (rg t c o.a.toNat).toNat
    let e := groupOf t gid
    let m := memberIndex e (agentOf t c)
    let w := rg t c o.b.toNat
    let x := if [4, 5, 13].contains e.fmt.toNat then BitVec.ofNat 64 (w.toNat % 2 ^ 32) else w
    if e.state ≠ 1 || e.kind ≠ 0 then trapWith cGroupBusy t
    else
      outputGate t
      sendBuffer t (.slice false (groupSlice gid) (.contribute gid m x)) (fun u => do
        if hasGiven u gid m then parkOn (.round gid) u else .ok (sendContribution u c gid m x)))

/-- GDRAIN (R351). -/
def execGdrain (o : OpE) (s : State) : Host.Outcome State Fault Refusal :=
  runSeq (.gdrain o) s (fun t =>
    let gid := (rg t t.cur o.a.toNat).toNat
    if (groupOf t gid).inflight ≠ 0 then parkOn (.groupDrain gid) t else .ok t)

/-- GCLOSE at its performance (R134, R351): the round is discarded, the entry is free once nothing is in flight. -/
def closeGroup (s : State) (gid : Nat) : State :=
  let e := groupOf s gid
  if e.state = 0 then s
  else setGroup s gid (if e.inflight = 0 then GroupEntry.reset else { e with state := 2, round := [] })

/-- GCLOSE (R351). -/
def execGclose (o : OpE) (s : State) : Host.Outcome State Fault Refusal :=
  runSeq (.gclose o) s (fun t => do
    let gid := (rg t t.cur o.a.toNat).toNat
    outputGate t
    sendBuffer t (.gclose gid) (fun u => .ok (closeGroup u gid)))

/-- Two contributions combined (Table 07-10, R350): FP32 sums round RNE, flags are discarded. -/
def combine (e : GroupEntry) (x y : Word) : Word :=
  let f := e.fmt.toNat
  let w := fmtBits f
  let a := x.toNat % 2 ^ w
  let b := y.toNat % 2 ^ w
  BitVec.ofNat 64 (match e.op with
    | 0 => if f = 13 then (floatAdd 1 13 a b).1 else (a + b) % 2 ^ w
    | 1 => if f = 13 then (floatMinMax 13 false a b).1 else if intVal f b < intVal f a then b else a
    | 2 => if f = 13 then (floatMinMax 13 true a b).1 else if intVal f a < intVal f b then b else a
    | 3 => a &&& b
    | 4 => a ||| b
    | _ => a ^^^ b)

/-- One level of the tree of R134. -/
def combineLevel (e : GroupEntry) : List Word → List Word
  | x :: y :: l => combine e x y :: combineLevel e l
  | l => l

/-- All levels; `fuel` bounds them. -/
def combineTree (e : GroupEntry) : Nat → List Word → Word
  | 0, l => l.headD 0
  | _ + 1, [x] => x
  | n + 1, l => combineTree e n (combineLevel e l)

/-- The result as it is written and sent (R350). -/
def roundResult (e : GroupEntry) : Word :=
  let r := combineTree e 13 ((List.range e.members.length).map (fun m => match e.round.find? (fun x => x.1 = m) with | some x => x.2 | none => 0))
  if e.fmt.toNat = 4 || e.fmt.toNat = 13 then sextN r.toNat 32 else r

/-- The result packet of a round leaves the group's home slice for that of its destination (R350); it counts in inflight. -/
def sendResult (s : State) (gid : Nat) (e : GroupEntry) (x : Word) : State :=
  let (pa, home) := match translateNow s (e.dest.toNat % 2 ^ 53) true with
    | .ok (pa, home, _) => (pa, home)
    | .error _ => (e.destPa, homeSlice true 0 e.destPa)
  { setGroup s gid { e with inflight := e.inflight + 1, round := [] } with
    nextId := s.nextId + 1
    flights := s.flights ++ [{
      id := s.nextId, ctx := 65536, group := 0, path := 1, ordered := false, posted := true, slice := home % 2048, cls := home / 2048, ea := e.dest
      op := .result gid pa x, wb := [], done := false, pc := 0, undo := none
      due := s.cycle + latency (sliceVertex (groupSlice gid)) (sliceVertex (home % 2048)), back := 0, fault := none, net := none }] }

/-- The result is written at its slice; then the message to the root takes the packet's place in inflight (R350, R351). -/
def performResult (s : State) (f : Flight Regs) (gid pa : Nat) (x : Word) : State :=
  let s := endFlight (programWrite s f.cls pa (bytesOf x.toNat 8)) f
  let m := { newMsg 25 (agentId s.device (128 * apexVertex 0)) 0 0 (groupOf s gid).root [BitVec.ofNat 64 gid, x, 0, 0, 0, 0] with group := some gid }
  let t := sendOut s .device (apexVertex 0) m
  if unsendable s m then finishMsg t m else t

/-- A contribution is performed (R350): the last of a round sends the result. -/
def contribute (s : State) (gid m : Nat) (x : Word) : State :=
  let e := groupOf s gid
  let e := { e with inflight := e.inflight - 1 }
  if e.state ≠ 1 then setGroup s gid (if e.inflight = 0 then GroupEntry.reset else e)
  else
    let e := { e with round := e.round ++ [(m, x)] }
    if e.round.length < e.members.length then setGroup s gid e
    else sendResult s gid e (roundResult e)

/-! ### Request records (Tables 07-3, 07-4) -/

/-- Bits [hi:lo] of the word at an offset of a record, and the record with them replaced by a slice write. -/
def recGet (s : State) (pa off hi lo : Nat) : Nat := bits (readMem s (pa + off) 8) hi lo
def recPut (s : State) (pa off hi lo x : Nat) : State := performWrite s (pa + off) (bytesOf (setBits (readMem s (pa + off) 8) hi lo x) 8)

/-- Several fields of a record in one step (R161): one performance, one rise of the stamp. -/
def recPuts (s : State) (pa : Nat) (l : List (Nat × Nat × Nat × Nat)) : State :=
  if cxlGone s pa then s else
  let t := l.foldl (fun u e => writeMem u (pa + e.1) (bytesOf (setBits (readMem u (pa + e.1) 8) e.2.1 e.2.2.1 e.2.2.2) 8)) s
  bumpLine t (pa / 256)

/-- Lease and slot of a slot word name a record (R352). -/
def slotMatches (s : State) (pa : Nat) (w : Word) : Bool := recGet s pa 0x18 31 16 = bits w.toNat 31 16 && recGet s pa 0x18 9 0 = bits w.toNat 9 0

/-- A 32-bit token of a sequence in memory; none when its address does not translate: RQNOTE then counts it as unequal (log 106). -/
def seqToken (s : State) (base i : Nat) : Option Nat :=
  match translateNow s ((base + 4 * i) % 2 ^ 53) false with
  | .ok (pa, _, _) => some (readMem s pa 4)
  | .error _ => none

/-- The tokens of the stop sequence that RQNOTE compares with, as places in memory: the one that match names, and the first (R128). -/
def seqPlaces (s : State) (pa : Nat) : List Nat :=
  let seq := recGet s pa 0x30 63 0
  let seqlen := recGet s pa 0x28 47 40
  ((if recGet s pa 0x28 55 48 < seqlen then [recGet s pa 0x28 55 48] else []) ++ (if 0 < seqlen then [0] else [])).filterMap (fun i =>
    match translateNow s ((seq + 4 * i) % 2 ^ 53) false with | .ok (q, _, _) => some q | .error _ => none)

/-- Whether the read of that sequence meets poison (R91). -/
def seqPoison (s : State) (pa : Nat) : Bool := (seqPlaces s pa).any (fun q => anyPoison s q 4)

/-- RQNOTE at the record's home slice (R128, R352): the result and the state. With seqlen 0 no sequence is compared and match is 0; a
match that is not below a seqlen, left over from an earlier use of the record, counts as unequal: the model's choices (log 106). -/
def noteRecord (s : State) (pa tok : Nat) (w : Word) : Nat × State :=
  let st := recGet s pa 0 2 0
  if !(slotMatches s pa w) then (0x17, s)
  else if st ≠ 2 && st ≠ 3 then (2, s)
  else if 0 < recGet s pa 0x50 31 0 then (3, s)
  else
    let seq := recGet s pa 0x30 63 0
    let pos := (recGet s pa 0x20 31 0 + 1) % 2 ^ 32
    let m := recGet s pa 0x28 55 48
    let seqlen := recGet s pa 0x28 47 40
    let m := if m < seqlen && seqToken s seq m = some tok then m + 1 else if 0 < seqlen && seqToken s seq 0 = some tok then 1 else 0
    let stop := (List.range (min 8 (recGet s pa 0x28 35 32))).any (fun i => readMem s (pa + 0x58 + 4 * i) 4 = tok) || (seqlen ≠ 0 && m = seqlen) ||
      recGet s pa 0x20 63 32 ≤ pos
    (if stop then 1 else 0,
      recPuts s pa [(0x28, 31, 0, tok), (0x20, 31, 0, pos), (0x28, 55, 48, m), (0, 2, 0, if stop then 4 else 3)])

/-- RQFLT at the record's home slice (R353). -/
def faultNote (s : State) (pa home code : Nat) (w : Word) : Nat × State :=
  let st := recGet s pa 0 2 0
  if !(slotMatches s pa w) then (0x17, s)
  else if st ≠ 2 && st ≠ 3 then (2, s)
  else (0, faultRecord s pa home (some (recGet s pa 0x18 15 12)) code)

/-- RQNOTE and RQFLT: alignment, the check of a slice operation, and the returning access (R352, R353). -/
def requestOp (s : State) (o : OpE) (mk : Nat → SliceOp) : Res State := do
  let c := s.cur
  let ea := rg s c o.a.toNat
  if ea.toNat % 256 ≠ 0 then trapAt cAlign ea s
  else
    let (tgt, s) ← sliceTarget s ea 8
    outputGate s
    match tgt with
    | .phys _ pa leaf => .ok (sendClear s c 1 true false (leafHome leaf pa) (mk pa) 2 ea)
    | .remote r => .ok (sendFlight (forgetRemote s c r false) c 1 true false 0 (.remoteRead r 8 false o.d.toNat true) 0)
    | _ => .ok s

/-- RQNOTE (R352). -/
def execRqnote (o : OpE) (s : State) : Host.Outcome State Fault Refusal :=
  runSeq (.rqnote o) s (fun t => requestOp t o (fun pa => .note pa (rg t t.cur o.b.toNat) (rg t t.cur o.c.toNat) o.d.toNat))

/-- RQFLT (R353). -/
def execRqflt (o : OpE) (s : State) : Host.Outcome State Fault Refusal :=
  runSeq (.rqflt o) s (fun t => requestOp t o (fun pa => .flt pa ((rg t t.cur o.b.toNat).setWidth 8) (rg t t.cur o.c.toNat) o.d.toNat))

/-- Where entry i of a slot table stands, with its home and class; none for a graph without an area (R99, R101, R130). -/
def entryPlace (s : State) (g i : Nat) : Option (Nat × Nat) := slotPlace s g (32 * i)

/-- RQSLOT (R354): a read on path 1, as those of a slice (R179). -/
def execRqslot (o : OpE) (s : State) : Host.Outcome State Fault Refusal :=
  runSeq (.rqslot o) s (fun t => do
    let c := t.cur
    let g := (rg t c o.a.toNat).toNat
    let i := (rg t c o.b.toNat).toNat
    .ok (sendFlight t c 1 false false (match entryPlace t g i with | some (_, home) => home | none => blockSlice c) (.slotRead g i o.d.toNat) 0))

/-- The four words of a slot table entry; zeros for a graph without an area (R130, R354), and, by the model's choice, where the area does not
translate (log 131). -/
def slotWords (s : State) (g i : Nat) : List Word :=
  match entryPlace s g i with
  | none => [0, 0, 0, 0]
  | some (a, _) => (List.range 4).map (fun j => BitVec.ofNat 64 (readMem s (a + 8 * j) 8))

/-! ### Graph instances (R132, R355) -/

/-- An address as the walker takes it: below 2^53 in this module, and above every translated address for one that names another device. -/
def walkerAddr (s : State) (ea : Word) : Nat := if ea.toNat / 2 ^ 53 = s.device then ea.toNat % 2 ^ 53 else 2 ^ 64 + ea.toNat

/-- GRLAUNCH (R355): the instruction faults for its alignment only (Table 20-8). -/
def execGrlaunch (o : OpE) (s : State) : Host.Outcome State Fault Refusal :=
  runSeq (.grlaunch o) s (fun t => do
    let c := t.cur
    let a := rg t c o.a.toNat
    let b := rg t c o.b.toNat
    if a.toNat % 64 ≠ 0 then trapAt cAlign a t
    else if b.toNat % 8 ≠ 0 then trapAt cAlign b t
    else
      outputGate t
      .ok (sendFlight t c 1 false false (blockSlice c) (.grlaunch (walkerAddr t a) (walkerAddr t b) (o.imm.toNat + 1) o.d.toNat) 2))

/-- GRSIG (R356): at HRET in handler mode, otherwise at once on its way. -/
def execGrsig (o : OpE) (s : State) : Host.Outcome State Fault Refusal :=
  runSeq (.grsig o) s (fun t => do
    let c := t.cur
    outputGate t
    sendBuffer t (.slice false (blockSlice c) (.grsig (rg t c o.a.toNat))) (fun u =>
      .ok (sendFlight u c 1 false true (blockSlice c) (.grsig (rg t c o.a.toNat)) 0)))

/-- Successors in use, in order; at most 16. -/
def nodeSuccs (s : State) (g : GraphRun) (i : Nat) : List Nat :=
  (List.range (min 16 (bits (nodeWord s g i 0) 47 43))).map (fun j => bits (nodeWord s g i (4 + j / 4)) (16 * (j % 4) + 11) (16 * (j % 4)))

/-- The checks of R132 on node i of n, its npred apart. -/
def nodeOk (s : State) (g : GraphRun) (i : Nat) : Bool :=
  let w0 := nodeWord s g i 0
  let kind := bits w0 63 60
  let p := bits w0 31 0
  let w := nodeWord s g i
  let succs := nodeSuccs s g i
  kind ≤ 5 && bits w0 47 43 ≤ 16 && bits w0 42 32 = 0 &&
    (List.range 16).all (fun j => bits (w (4 + j / 4)) (16 * (j % 4) + 15) (16 * (j % 4) + 12) = 0) &&
    succs.all (fun j => j < g.count && (i < j || nodeKind s g j = 4)) && (i = 0 || nodePreds s g i ≠ 0) &&
    (match kind with
    | 0 => p = 0 && w 3 ≤ 4095
    | 1 => bits p 31 21 = 0 && bits p 15 10 = 0 && bits p 9 0 ≠ 0 && (bits p 20 16 = 0 || 10 ≤ bits p 20 16)
    | 2 => p = 0 && w 2 = 0 && w 3 = 0 && succs.length = 2
    | 3 => p = 0 && w 2 = 0 && w 3 = 0
    | 4 => w 3 = 0 && w 2 < 2 ^ 32 && succs.length = 2 && p ≠ 0 && succs.headD 0 = i + 1 && i + p < g.count
    | _ => p ≤ 15)

/-- Every record passes, and every npred counts the forward successor fields that name its node. -/
def graphOk (s : State) (g : GraphRun) : Bool :=
  let succs := (List.range g.count).map (fun i => (i, nodeSuccs s g i))
  (List.range g.count).all (fun i => nodeOk s g i &&
    nodePreds s g i = succs.foldl (fun n e => n + (e.2.filter (fun j => j = i && e.1 < j)).length) 0)

/-- The first record or status that the walker cannot reach, or record that is poisoned: the fault and its address (R91, R92). -/
def graphPlace (s : State) (records statuses n : Nat) : Option (Nat × Nat) :=
  match (List.range n).findSome? (fun i => match translateNow s (records + 64 * i) false with
    | .error c => some (c, records + 64 * i)
    | .ok (pa, _, _) => if anyPoison s pa 64 then some (cPoison, records + 64 * i) else none) with
  | some e => some e
  | none => (List.range n).findSome? (fun i => match translateNow s (statuses + 8 * i) true with | .error c => some (c, statuses + 8 * i) | .ok _ => none)

/-- The walker reads the records at their home slices (R97). -/
def readRecords (s : State) (records n : Nat) : State :=
  (List.range n).foldl (fun t i => match translateNow t (records + 64 * i) false with
    | .ok (pa, home, _) => touchL2 t (home % 2048) pa 64 (home / 2048) false
    | .error _ => t) s

/-- The status word of a node (Table 07-9), written by the walker as a slice write. -/
def statusWord (x : Node) : Nat := x.state * 2 ^ 61 + x.brc.toNat * 2 ^ 60 + x.done % 2 ^ 12 * 2 ^ 48 + x.iter % 2 ^ 16 * 2 ^ 32 + x.value.toNat

def graphOf (s : State) (gi : Nat) : Option GraphRun := sget none s.graphs gi
def setGraph (s : State) (gi : Nat) (g : GraphRun) : State := { s with graphs := sput none s.graphs gi (some g) }
def nodeOf (g : GraphRun) (i : Nat) : Node := sget Node.reset g.nodes i

/-- A node's status changes. -/
def setNode (s : State) (gi i : Nat) (x : Node) : State :=
  match graphOf s gi with
  | none => s
  | some g =>
    let s := setGraph s gi { g with nodes := sput Node.reset g.nodes i x }
    match translateNow s (g.statuses + 8 * i) true with
    | .ok (pa, home, _) => placeWrite s pa home (bytesOf (statusWord x) 8)
    | .error _ => s

/-- A node that is about to become eligible: its predecessors are done and one completed, or its LOOP body came back (R133, R189). -/
def nodePending (s : State) (g : GraphRun) (i : Nat) (x : Node) : Bool :=
  (x.state = 0 && 0 < x.complete && nodePreds s g i ≤ x.done) || (x.stage && nodeKind s g i = 4)

/-- The instance ends when no node is eligible or running, or about to be (R133). -/
def settleGraph (s : State) (gi : Nat) : State :=
  match graphOf s gi with
  | none => s
  | some g => if g.nodes.any (fun e => e.2.state = 1 || e.2.state = 2 || nodePending s g e.1 e.2) then s else setGraph s gi { g with live := false }

/-- A node faults (R191, R200): its status, and a class-W record whose agent is core 0 of the apex vertex. -/
def faultNode (s : State) (gi i : Nat) (f : FaultInfo) (value : Nat) : State :=
  match graphOf s gi with
  | none => s
  | some g =>
    let s := setNode s gi i { nodeOf g i with state := 4, value := BitVec.ofNat 32 value }
    let s := match graphOf s gi with | some g => setGraph s gi { g with faulted := some (i, f.code) } | none => s
    let k := 16 * apexVertex g.die
    settleGraph (reportFor s k 4 (agentId s.device (8 * k)) (BitVec.ofNat 64 i) f) gi

/-- GRLAUNCH at the scheduler block: an instance, or all ones when 64 are running (R355). Records or statuses that the walker cannot read make
node 0 faulted with their code, as a record that fails its check does (log 59). -/
def launchGraph (s : State) (c records statuses n : Nat) : Word × State :=
  match (List.range 64).find? (fun i => match graphOf s i with | some g => !g.live | none => true) with
  | none => (BitVec.allOnes 64, s)
  | some gi =>
    let g : GraphRun :=
      { die := dieOf (vertOf c), records := records, statuses := statuses, count := n, acct := (ctxOf s c).acct.toNat, nodes := [], faulted := none, live := true }
    let s := readRecords ((List.range n).foldl (fun t i => setNode t gi i Node.reset) (setGraph s gi g)) records n
    (BitVec.ofNat 64 gi, match graphPlace s records statuses n with
      | some (code, va) => faultNode s gi 0 { code := code, addr := BitVec.ofNat 64 (if va < 2 ^ 53 then s.device * 2 ^ 53 + va else va) } code
      | none => if graphOk s g then setNode s gi 0 { Node.reset with state := 1 } else faultNode s gi 0 { code := cIllegalEncoding } cIllegalEncoding)

end Sys2Proof.Machine
end

