-- ==== Sys2Proof/Machine/Graphs.lean ====
section
/-! DEFINITION. The graph walker, gangs and the batch former (R128 to R133, R189 to R197, R397). -/

namespace Sys2Proof.Machine

/-! ### Completion and skipping (R133) -/

/-- Nodes whose predecessor completed (true) or was skipped: a node all of whose predecessors are skipped is skipped and passes it on.
`fuel` bounds the successor fields of an instance. -/
def credit (gi : Nat) : Nat → List (Nat × Bool) → State → State
  | 0, _, s => s
  | _, [], s => s
  | fuel + 1, (i, comp) :: l, s =>
    match graphOf s gi with
    | none => s
    | some g =>
      let x := nodeOf g i
      if x.state ≠ 0 then credit gi fuel l s
      else
        let x := { x with done := x.done + 1, complete := x.complete + comp.toNat, changed := s.cycle, doneAt := s.cycle }
        if nodePreds s g i ≤ x.done && x.complete = 0 then
          credit gi fuel (l ++ ((nodeSuccs s g i).filter (i < ·)).map (fun j => (j, false))) (setNode s gi i { x with state := 5 })
        else credit gi fuel l (setNode s gi i x)

/-- A successor that a COND or SWITCH does not take is skipped, and its own successors count it so. -/
def skipNode (s : State) (gi i : Nat) : State :=
  match graphOf s gi with
  | none => s
  | some g =>
    if (nodeOf g i).state ≠ 0 then s
    else credit gi 65536 (((nodeSuccs s g i).filter (i < ·)).map (fun j => (j, false))) (setNode s gi i { nodeOf g i with state := 5, changed := s.cycle })

/-- Node i completes and takes the successors at some positions; a back edge has its LOOP evaluated again (R133, R190). -/
def completeNode (s : State) (gi i : Nat) (take : Nat → Bool) : State :=
  match graphOf s gi with
  | none => s
  | some g =>
    let succs := (nodeSuccs s g i).zipIdx
    let taken := (succs.filter (fun e => take e.2)).map (·.1)
    let left := (succs.filter (fun e => !(take e.2))).map (·.1)
    let s := setNode s gi i { nodeOf g i with state := 3, changed := s.cycle, stage := false }
    let s := (taken.filter (· ≤ i)).foldl (fun t j => match graphOf t gi with
      | some h => setNode t gi j { nodeOf h j with stage := true, changed := s.cycle }
      | none => t) s
    let s := credit gi 65536 ((taken.filter (i < ·)).map (fun j => (j, true)) ++
      (left.filter (fun j => i < j && taken.contains j)).map (fun j => (j, false))) s
    let kind := nodeKind s g i
    let s := if kind = 2 || kind = 3 then (left.filter (fun j => i < j && !(taken.contains j))).foldl (fun t j => skipNode t gi j) s else s
    settleGraph s gi

/-- The records that stand in the slot tables of an instance, whatever their state, as holder words (R111). -/
def slotHolders (s : State) (gi : Nat) : List Word :=
  (stepNumbers s gi).flatMap (fun g => (List.range 1024).filterMap (fun i => match entryPlace s g i with
    | some (a, _) => let r := readMem s a 8
        if r = 0 then none else some (BitVec.ofNat 64 (4 * 2 ^ 61 + s.device * 2 ^ 50 + r % 2 ^ 50))
    | none => none))

/-- The implied flush of one region in some cores: lines are written back and given up, grants forgotten, and wr is cleared when no core holds
a dirty line any more (R111, R114). -/
def flushRegion (s : State) (cores : List Nat) (r : Token) : State :=
  let s := cores.foldl (fun u k => uncache (dropRegion ((regionLines u k r).foldl (fun w l => writeBackLine w k l) u) k r) k r.base) s
  match sget none s.tokens r.base with
  | some t => if t.wr && !(stillDirty s t) then setToken s { t with wr := false } else s
  | none => s

/-- At the end of a node its contexts' cores flush every region that is parked on a record of the instance's slot tables (R111). -/
def nodeFlush (s : State) (gi : Nat) (cores : List Nat) : State :=
  let held := slotHolders s gi
  (s.tokens.filterMap (·.2)).foldl (fun t r => if held.contains r.holder || r.records.any (held.contains ·) then flushRegion t cores r else t) s

/-- The contexts of a NET node as far as they can be told: the one that signals, and those that run the handler of its seed (log 94). -/
def netContexts (s : State) (c : Nat) (w : Word) : List Nat :=
  c :: ((s.ctxs.filter (fun e => e.2.run ≠ .idle && (match e.2.pair with | some p => (match p.seed with | some q => q.2.1.toNat % 2 ^ 18 = w.toNat % 2 ^ 18 | none => false) | none => false))).map (·.1))

/-- GRSIG at the scheduler block: the first completes a running NET node, any other does nothing (R39, R356). The flush runs in every core,
since a handler of the node may have ended (log 94). -/
def signalNode (s : State) (w : Word) : State :=
  let gi := bits w.toNat 17 12
  let i := bits w.toNat 11 0
  match graphOf s gi with
  | none => s
  | some g =>
    if g.live && i < g.count && (nodeOf g i).state = 2 && nodeKind s g i = 0 then
      completeNode (nodeFlush s gi (s.cores.map (·.1))) gi i (fun _ => true)
    else s

/-- A GRSIG waits at the scheduler block until every access of the node's contexts before it has been performed and acknowledged, those of
handlers of the net that have ended and of their jobs too: what a pair still in flight does is not waited for (R39, R190). -/
def signalWaits (s : State) (f : Flight Regs) (w : Word) : Bool :=
  let net := some (w.toNat % 2 ^ 18)
  let l := netContexts s f.ctx w
  l.any (fun c => pathOut s c f.id 31) || s.flights.any (fun h => h.net = net && h.id < f.id && (h.posted || l.contains h.ctx)) ||
    s.clusters.any (fun e => e.2.jobs.any (fun j => j.net = net && j.seq < f.id))

/-- NODE_ELIGIBLE: in a cycle after the completion that satisfies R133 (R189). -/
def execNodeEligible (gi node : Nat) (s : State) : Host.Outcome State Fault Refusal :=
  .next (match graphOf s gi with
    | none => s
    | some g =>
      let x := nodeOf g node
      if g.live && node < g.count && nodePending s g node x && x.changed < s.cycle then
        setNode s gi node { x with state := 1, stage := false, changed := s.cycle }
      else s)

/-- The word of a COND, SWITCH or LOOP, or why it cannot be read (R191). -/
def readWord (s : State) (ea : Nat) : Except Nat Nat :=
  match translateNow s (ea % 2 ^ 53) false with
  | .error c => .error c
  | .ok (pa, _, _) => if anyPoison s pa 4 then .error cPoison else .ok (readMem s pa 4)

/-- The fault of a node whose record the walker cannot read (R91). -/
def recordFault (g : GraphRun) (i : Nat) : FaultInfo := { code := cPoison, addr := BitVec.ofNat 64 (g.records + 64 * i) }

/-- NODE_EVALUATE (R40, R133, R191). -/
def execNodeEvaluate (gi node : Nat) (s : State) : Host.Outcome State Fault Refusal :=
  .next (match graphOf s gi with
    | none => s
    | some g =>
      let x := nodeOf g node
      let kind := nodeKind s g node
      if !(g.live && node < g.count && x.state = 1 && 2 ≤ kind && kind ≤ 4) then s
      else
        let ea := nodeWord s g node 1
        if nodePoisoned s g node then faultNode s gi node (recordFault g node) cPoison
        else match readWord s ea with
        | .error c => faultNode s gi node { code := c, addr := BitVec.ofNat 64 ea } c
        | .ok w =>
          let x := { x with value := BitVec.ofNat 32 w }
          if kind = 2 then completeNode (setNode s gi node x) gi node (fun j => j = (if w = 0 then 1 else 0))
          else if kind = 3 then
            (if (nodeSuccs s g node).length ≤ w then
              faultNode s gi node { code := cIllegalEncoding, reason := 1, detail := BitVec.ofNat 64 w } cIllegalEncoding
            else completeNode (setNode s gi node x) gi node (fun j => j = w))
          else
            let full := nodeWord s g node 2 ≤ x.runs
            let x := { x with iter := (x.iter + 1) % 65536, brc := full }
            if w = 0 || full then completeNode (setNode s gi node x) gi node (fun j => j = 1)
            else
              let s := setNode s gi node { x with runs := x.runs + 1 }
              let s := (List.range (nodeParam s g node)).foldl (fun t b => match graphOf t gi with
                | some h => let y := nodeOf h (node + 1 + b)
                  setNode t gi (node + 1 + b) { y with state := 0, done := 0, complete := 0, runs := 0, stage := false }
                | none => t) s
              completeNode s gi node (fun j => j = 0))

/-! ### Starting nodes (R189, R192, R193) -/

/-- The clusters of a GANG node, as vertex keys; none when the range runs past vertex number 511 (R192). -/
def gangClusters (first n : Nat) : Option (List Nat) :=
  let v0 := 32 * bits first 8 5 + bits first 4 0
  if 512 < v0 + n then none else some ((List.range n).map (fun i => mkVertex ((v0 + i) % 32) ((v0 + i) / 32)))

/-- A gang that waits for its contexts. -/
def newGang (g : GraphRun) (gi node : Nat) (clusters : List Nat) (w : Nat → Nat) : Gang :=
  { graph := some (gi, node), clusters := clusters, entry := BitVec.ofNat 64 (w 1), arg := BitVec.ofNat 64 (w 3), lbudget := bits (w 0) 20 16, acct := g.acct
    members := [], started := false, ended := [], arrived := [], arrivedAt := 0, preempt := false, blocks := [], lost := false }

/-- A number no gang uses: gangs are as many as their graph nodes at most. -/
def freeGang (s : State) : Nat := ((List.range (s.gangs.length + 1)).find? (fun i => (sget none s.gangs i).isNone)).getD s.gangs.length

/-- One node begins to run; one whose record is poisoned faults (R91; log 125). -/
def startNode (s : State) (gi node : Nat) (g : GraphRun) : State :=
  let w := nodeWord s g node
  let kind := nodeKind s g node
  let s := setNode s gi node { nodeOf g node with state := 2, stage := false }
  if nodePoisoned s g node then faultNode s gi node (recordFault g node) cPoison
  else if kind = 1 then
    match gangClusters (w 2) (bits (w 0) 9 0) with
    | none => faultNode s gi node { code := cPlacement } cPlacement
    | some l =>
      if l.any (fun v => (clusterAt s v).unfit) then faultNode s gi node { code := cPlacement } cPlacement
      else { s with gangs := sput none s.gangs (freeGang s) (some (newGang g gi node l w)) }
  else if kind = 5 && sget 0 s.batchRegs (nodeParam s g node) = 0 then faultNode s gi node { code := cIllegalEncoding } cIllegalEncoding
  else s

/-- NODE_START: the walker of a die starts the lowest-numbered eligible NET, GANG or STEP node, four cycles after its last start
(R189). Of nodes of one number in several instances the one of the lower instance starts first (log 118). -/
def execNodeStart (die : Nat) (s : State) : Host.Outcome State Fault Refusal :=
  .next (
    let ready := (List.range 64).flatMap (fun gi => match graphOf s gi with
      | some g => if g.live && g.die = die then (g.nodes.filter (fun e => e.2.state = 1 && (let k := nodeKind s g e.1
          k = 0 || k = 1 || k = 5))).map (fun e => (e.1, gi)) else []
      | none => [])
    let first := ready.foldl (fun (b : Option (Nat × Nat)) e => match b with | some x => if e.1 < x.1 then some e else b | none => some e) none
    match first with
    | none => s
    | some (node, gi) =>
      if (match (dieAt s die).lastStart with | some t => decide (s.cycle < t + 4) | none => false) then s
      else match graphOf s gi with
      | none => s
      | some g => startNode (setDie s die { dieAt s die with lastStart := some s.cycle }) gi node g)

/-- NET_SEED: the pair of an inline ROOT and the seed cell leaves from the walker's apex vertex (R397). ROOT is the first whatever the symbol of
the seed cell is (log 108). -/
def execNetSeed (gi node : Nat) (s : State) : Host.Outcome State Fault Refusal :=
  .next (match graphOf s gi with
    | none => s
    | some g =>
      let x := nodeOf g node
      if !(g.live && node < g.count && x.state = 2 && nodeKind s g node = 0 && !x.stage) then s
      else
        let w := nodeWord s g node
        let root := BitVec.ofNat 64 (4 * 2 ^ 61 + 2)
        let cell := cellRef s.device (w 1 % 2 ^ 50)
        let p : PairRef :=
          { first := root, second := cell, radius := radiusOf s root cell
            seed := some (BitVec.ofNat 64 (w 2), BitVec.ofNat 64 (gi * 4096 + node), BitVec.ofNat 12 (w 3)) }
        sendPair (setNode s gi node { x with stage := true }) (apexVertex g.die) p)

/-! ### Gangs (R193, R194) -/

def gangAt (s : State) (i : Nat) : Option Gang := sget none s.gangs i
def setGang (s : State) (i : Nat) (g : Option Gang) : State := { s with gangs := sput none s.gangs i g }

/-- The member index of a core in a gang. -/
def memberOf (g : Gang) (k : Nat) : Option Nat :=
  if isExecute k then (findAt (fun v => v = vertexOf k) g.clusters 0).map (fun e => 8 * e.1 + coreNo k) else none

/-- GANG_RESERVE (R193). -/
def execGangReserve (gang core : Nat) (s : State) : Host.Outcome State Fault Refusal :=
  .next (match gangAt s gang with
    | none => s
    | some g =>
      match memberOf g core, idleOf s core with
      | some m, some c =>
        if g.started || g.members.any (fun e => e.1 = m) then s
        else setGang (stealEnds (modCtx s c (fun x => { x with run := .reserved })) core) gang (some { g with members := g.members ++ [(m, c)] })
      | _, _ => s)

/-- One member starts (R86, R193). -/
def startMember (s : State) (gang : Nat) (g : Gang) (m c : Nat) : State :=
  startCtx s c (fun x => { x with
    pc := codePc s g.entry.toNat, acct := g.acct, gang := some gang, member := m
    budgetKept := if g.lbudget = 0 then none else some (2 ^ g.lbudget)
    regs := { x.regs with g := sput 0 (sput 0 [] 1 g.arg) 2 (BitVec.ofNat 64 m) } })

/-- The cycle before which no first instruction of a node issues: 192 after its last predecessor completed (R18, R189). -/
def nodeFirst (s : State) (gi node : Nat) : Nat :=
  match graphOf s gi with | some g => (let t := (nodeOf g node).doneAt; if t = 0 then 0 else t + 192) | none => 0

/-- GANG_START: every member starts in one cycle (R193), but one whose core was killed meanwhile (R216). -/
def execGangStart (gang : Nat) (s : State) : Host.Outcome State Fault Refusal :=
  .next (match gangAt s gang with
    | none => s
    | some g =>
      if g.started || g.members.length < 8 * g.clusters.length || s.cycle + 1 < (match g.graph with | some (gi, node) => nodeFirst s gi node | none => 0) then s
      else (g.members.filter (fun e => !(g.ended.contains e.1))).foldl (fun t e => startMember t gang g e.1 e.2) (setGang s gang (some { g with started := true })))

/-- GANG_PREEMPT: the apex firmware asks (R194). -/
def execGangPreempt (gang : Nat) (s : State) : Host.Outcome State Fault Refusal :=
  .next (match gangAt s gang with
    | none => s
    | some g => if g.started then setGang s gang (some { g with preempt := true }) else s)

/-- A member stands still for a pre-emption: stopped, or parked at a barrier (R194). -/
def memberStopped (s : State) (c : Nat) : Bool :=
  !(returning s c) &&
    (match (ctxOf s c).run with
    | .preempted | .stopped => true
    | .stalled .gbar => true
    | .stalled .mgang => (clusterAt s (vertOf c)).arrivals.any (fun e => e.1 = c)
    | _ => false)

/-- Words written into a block at their pages' translations, each line at its slice (R161). -/
def putBlock (s : State) (va : Nat) (l : List (Nat × Nat × Nat)) : State :=
  l.foldl (fun t e => match translateNow t (va + e.1) true with
    | .ok (pa, home, _) => placeWrite t pa home (bytesOf e.2.2 e.2.1)
    | .error _ => t) s

/-- Bytes of a control block (R204). -/
def blockBytes : Nat := 20480

/-- What a save of a gang member by the device meets first (R204): the alignment, the translation and the token check of each 256 bytes, for
a region that a context of an apex core of die d holds (log 107), poison in the header that it reads. -/
def blockFault (s : State) (d va : Nat) : Option FaultInfo :=
  let word := fun (a : Nat) => BitVec.ofNat 64 (s.device * 2 ^ 53 + a)
  let agents := (List.range 16).map (fun i => holderAgent (agentId s.device (128 * apexVertex d + 112 + i)))
  if va % 4096 ≠ 0 then some { code := cAlign, addr := word va }
  else (List.range 80).findSome? (fun i =>
    let a := va + 256 * i
    match translateNow s a true with
    | .error c => some { code := c, addr := word a }
    | .ok (pa, _, _) =>
      match tokenCheckNow s agents none a .write with
      | some (c, x) => some { code := c, addr := word a, xfer := x }
      | none => if i = 0 && anyPoison s pa 32 then some { code := cPoison, addr := word a } else none)

/-- The apex cores give up what they hold of a block before the device writes it. -/
def clearBlock (s : State) (d va : Nat) : State :=
  (List.range 80).foldl (fun t i => match translateNow t (va + 256 * i) true with
    | .ok (pa, _, _) => (linesOf pa 256).foldl (fun u l => ousterLine (ousterLine u (16 * apexVertex d + 14) l) (16 * apexVertex d + 15) l) t
    | .error _ => t) s

/-- One member saved by the device into a control block at a virtual address (R194, R204, R320). -/
def saveMember (s : State) (d va c : Nat) : State :=
  let s := noticeStore (clearBlock s d va) va
  let x := ctxOf s c
  let get := fun (o : Nat) => match translateNow s (va + o) true with | .ok (pa, _, _) => readMem s (pa) 8 | .error _ => 0
  let w0 := get 0
  let live := if bits w0 31 24 = 0 || x.allot < bits w0 31 24 then x.allot else bits w0 31 24
  let tmask := bits w0 15 8
  savedOut (putBlock s va (blockHeader s c live tmask (w0 % 256) (get 8 / 2 ^ 63) ++ blockRegs s c tmask)) c

/-- The die whose walker keeps a gang's instance. -/
def gangDie (s : State) (g : Gang) : Nat := match g.graph.bind (fun e => graphOf s e.1) with | some r => r.die | none => 0

/-- GANG_SAVE: the members go to control blocks that stand one behind the other from `block`, by member index; a fault leaves the
gang stopped and is reported for the member, at the member's pc (R194, R206; log 101). -/
def execGangSave (gang block : Nat) (s : State) : Host.Outcome State Fault Refusal :=
  .next (match gangAt s gang with
    | none => s
    | some g =>
      let live := g.members.filter (fun e => !(g.ended.contains e.1))
      let d := gangDie s g
      if !g.preempt || live.isEmpty || !(live.all (fun e => memberStopped s e.2)) then s
      else match live.findSome? (fun e => (blockFault s d (block + blockBytes * e.1)).map (fun i => (e.2, i))) with
      | some (c, i) => reportFor s (coreOf c) 0 (agentOf s c) (ctxOf s c).pc i
      | none =>
        let s := live.foldl (fun t e => saveMember t d (block + blockBytes * e.1) e.2) s
        setGang s gang (some { g with preempt := false, arrived := [], blocks := live.map (fun e => (e.1, block + blockBytes * e.1)) }))

/-- MESH_BARRIER_COMPLETE: every cluster has arrived, and 2L + 6 cycles have passed since the last (R259); that of a gang that
has lost a member completes no more (R201). -/
def execMeshBarrierComplete (gang : Nat) (s : State) : Host.Outcome State Fault Refusal :=
  .next (match gangAt s gang with
    | none => s
    | some g =>
      let l := g.clusters.foldl (fun m v => max m (if v = g.clusters.headD 0 then 0 else latency (g.clusters.headD 0) v)) 0
      if g.lost || g.arrived.isEmpty || !(g.clusters.all (fun v => g.arrived.contains v)) || s.cycle < g.arrivedAt + 2 * l + 6 then s
      else passMembers (setGang s gang (some { g with arrived := [] })) (g.members.map (·.2)))

/-! ### The batch former (R196, R197) -/

/-- Occupied slots of a graph: slot and virtual address of its record. -/
abbrev Slots := List (Nat × Nat)

/-- Where a record stands. -/
def recPa (s : State) (va : Nat) : Nat := match translateNow s (va % 2 ^ 53) true with | .ok (pa, _, _) => pa | .error _ => 0
/-- An address of this module as a word (R88). -/
def homeWord (s : State) (va : Nat) : Nat := s.device * 2 ^ 53 + va % 2 ^ 53

/-- Bits of a record as the batch former has read or written it. -/
def copyGet (b : BatchRun) (va off hi lo : Nat) : Nat :=
  bits (match b.recs.find? (fun e => e.1 = va) with | some e => e.2.getD (off / 8) 0 | none => 0) hi lo

/-- Fields of that copy as the batch former writes them. -/
def copyPuts (b : BatchRun) (va : Nat) (l : List (Nat × Nat × Nat × Nat)) : BatchRun :=
  let put := fun (ws : List Nat) (e : Nat × Nat × Nat × Nat) => ws.set (e.1 / 8) (setBits (ws.getD (e.1 / 8) 0) e.2.1 e.2.2.1 e.2.2.2)
  { b with recs := b.recs.map (fun e => if e.1 = va then (e.1, l.foldl put e.2) else e) }

/-- The rows a record is given when `left` remain of the map (R196, R197). -/
def recRows (b : BatchRun) (va left : Nat) : Nat :=
  let pend := copyGet b va 0x50 31 0
  min left (if 0 < pend then min (copyGet b va 0x50 47 32) pend else 1)

/-- Pages of a record with its new rows. -/
def recPages (b : BatchRun) (va rows : Nat) : Nat := ceilDiv (copyGet b va 0x20 31 0 + rows) (2 ^ copyGet b va 0x48 39 32)
def recHeld (b : BatchRun) (va : Nat) : Nat := copyGet b va 0x48 31 0

/-- Rows by slot, as far as the map has room. -/
def giveRows (b : BatchRun) : Nat → Slots → List (Nat × Nat × Nat)
  | _, [] => []
  | left, (i, va) :: l => (i, va, recRows b va left) :: giveRows b (left - recRows b va left) l

def rowsOf (b : BatchRun) : Nat := ((giveRows b 4096 b.slots).map (fun e => e.2.2)).sum
def needOf (b : BatchRun) : Nat := ((giveRows b 4096 b.slots).map (fun e => recPages b e.2.1 e.2.2)).sum
def heldOf (b : BatchRun) : Nat := (b.slots.map (fun e => recHeld b e.2)).sum
/-- Pool pages that no request holds. -/
def freePages (s : State) (g count : Nat) : Nat := count - ((sget [] s.pools g).filter (· < count)).length

/-- The n lowest-numbered free pages of a pool. -/
def lowestPages (used : List Nat) (count n : Nat) : List Nat :=
  ((List.range (used.length + n)).filter (fun p => p < count && !(used.contains p))).take n

/-- ReturnPages, access by access: every entry of the page list, then pages. -/
def returnPages (b : BatchRun) (va : Nat) : List BatchAccess :=
  (List.range (recHeld b va)).map (fun j => .unpage ((copyGet b va 0x40 63 0 + 4 * j) % 2 ^ 53))

/-- Whether record v is evicted before w: lowest priority, then latest admitted, then highest rid. -/
def evictsFirst (b : BatchRun) (v w : Nat) : Bool :=
  let key := fun (va : Nat) => (copyGet b va 0 19 16, copyGet b va 0x10 63 0, copyGet b va 0 63 32)
  let (p, a, r) := key v
  let (q, c, t) := key w
  p < q || (p = q && (c < a || (a = c && t < r)))

/-- Whether a record stands before another in the admission queue (R142). -/
def admitsFirst (b : BatchRun) (v w : Nat) : Bool :=
  let key := fun (va : Nat) => (copyGet b va 0 19 16, copyGet b va 0x08 63 0, copyGet b va 0 63 32)
  let (p, a, r) := key v
  let (q, c, t) := key w
  q < p || (p = q && (a < c || (a = c && (r < t || (r = t && v < w)))))

/-- The occupied slot whose record is evicted next, while the pages do not suffice (R196). -/
def evictNext (s : State) (g count : Nat) (b : BatchRun) : Option (Nat × Nat) :=
  if needOf b ≤ freePages s g count + heldOf b then none
  else b.slots.foldl (fun (m : Option (Nat × Nat)) e => match m with | some x => if evictsFirst b e.2 x.2 then some e else m | none => some e) none

/-- The fields that an eviction writes. -/
def evictFields (b : BatchRun) (va : Nat) : List (Nat × Nat × Nat × Nat) :=
  let pend := copyGet b va 0x50 31 0
  let pos := copyGet b va 0x20 31 0
  [(0x50, 31, 0, if pend = 0 then pos + 1 else pend + pos), (0x20, 31, 0, 0), (0x48, 31, 0, 0), (0, 2, 0, 6)]

/-- Put an occupied slot in its place. -/
def putSlots (l : Slots) (i va : Nat) : Slots := l.filter (fun e => e.1 < i) ++ [(i, va)] ++ l.filter (fun e => i < e.1)

/-- The next admission: the lowest slot that may be taken, and the head of the queue, when its rows and pages suffice (R196, R197). -/
def admitNext (s : State) (g count : Nat) (b : BatchRun) : Option (Nat × Nat) :=
  match b.queue.foldl (fun (m : Option Nat) e => match m with | some x => if admitsFirst b e x then some e else m | none => some e) none,
    (List.range 1024).find? (fun i => !(b.freed.contains i || nbit b.barred i) && !(b.slots.any (fun e => e.1 = i))) with
  | some va, some i =>
    let rows := recRows b va 4096
    if 4096 < rowsOf b + rows then none
    else if (freePages s g count : Int) - ((needOf b : Int) - heldOf b) < (recPages b va rows : Int) - recHeld b va then none
    else some (i, va)
  | _, _ => none

/-- The fields that an admission writes. -/
def admitFields (s : State) (b : BatchRun) (i va : Nat) : List (Nat × Nat × Nat × Nat) :=
  [(0x18, 9, 0, i), (0x18, 31, 16, copyGet b va 0x18 31 16 + 1), (0x10, 63, 0, s.cycle), (0, 2, 0, 2)]

/-- Map entries from offset off on that name slot i, one access to each line (R131, R189). -/
def mapWrites (b : BatchRun) (i off rows : Nat) : List BatchAccess :=
  let start := b.area + 0x8100 + 2 * off
  (List.range 33).filterMap (fun j =>
    let line := 256 * (start / 256 + j)
    let lo := max start line
    let hi := min (start + 2 * rows) (line + 256)
    if hi ≤ lo then none else some (.bytes lo ((List.range ((hi - lo) / 2)).flatMap (fun _ => bytesOf (0x8000 + i) 2))))

/-- The writes of step 4 for slot i, in BatchStep's order: its entry, its rows of the map, its bits of the two masks (R129, R131, R196). -/
def entryWrites (b : BatchRun) (i : Nat) (ws : List Nat) (off rows : Nat) : List BatchAccess :=
  [.bytes (b.area + 32 * i) (ws.flatMap (fun w => bytesOf w 8))] ++ mapWrites b i off rows ++
    [.bit (b.area + 0x8000) i (ws.headD 0 ≠ 0), .bit (b.area + 0x8080) i (b.freed.contains i)]

/-- Step 4 for an occupied slot, its record just read: the pages that it takes from the pool, the record's new fields, its entry and its map
entries. -/
def giveSlot (s : State) (g count : Nat) (b : BatchRun) (i va off : Nat) : State × BatchRun :=
  let rows := recRows b va (4096 - off)
  let used := sget [] s.pools g
  let held := recHeld b va
  let l := lowestPages used count (recPages b va rows - held)
  let p := copyGet b va 0x20 31 0
  let pend := copyGet b va 0x50 31 0
  let fields := (if l.isEmpty then [] else [(0x48, 31, 0, held + l.length)]) ++
    (if 0 < pend then [(0x50, 31, 0, pend - rows), (0x20, 31, 0, if 0 < pend - rows then p + rows else p + rows - 1)] else [])
  let list := (copyGet b va 0x40 63 0)
  let pages := l.zipIdx.map (fun e => BatchAccess.bytes ((list + 4 * (held + e.2)) % 2 ^ 53) (bytesOf e.1 4))
  let entry := entryWrites b i [homeWord s va, p * 2 ^ 32 + rows * 2 ^ 16 + copyGet b va 0x18 31 16, list, off] off rows
  ({ s with pools := sput [] s.pools g (used ++ l) },
    { copyPuts b va fields with
      phase := .write (i + 1) (off + rows)
      todo := pages ++ (if fields.isEmpty then [] else [.fields va fields]) ++ entry })

/-- Where an access of the batch former goes; what it meets there, with its address, otherwise: XLATE, or POISON where it reads (R91, R92). -/
def batchPlace (s : State) (va n : Nat) (reads : Bool) : Except (Nat × Nat) (Nat × Nat) :=
  match translateNow s (va % 2 ^ 53) true with
  | .error c => .error (c, va)
  | .ok (pa, home, _) => if reads && anyPoison s pa n then .error (cPoison, va) else .ok (pa, home)

/-- A record read at its home slice: its words are the former's copy. -/
def readCopy (s : State) (b : BatchRun) (va : Nat) : Except (Nat × Nat) (State × BatchRun) :=
  match batchPlace s va 96 true with
  | .error e => .error e
  | .ok (pa, home) =>
    .ok (touchL2 s (home % 2048) pa 96 (home / 2048) false,
      { b with recs := (va, (List.range 12).map (fun i => readMem s (pa + 8 * i) 8)) :: b.recs.filter (fun e => e.1 ≠ va) })

/-- Fields of a record written at its home slice, in one step (R161); behind a CXL port that is down the write ends with POISON (R388). -/
def writeFields (s : State) (va : Nat) (l : List (Nat × Nat × Nat × Nat)) : Except (Nat × Nat) State :=
  match batchPlace s va 96 false with
  | .error e => .error e
  | .ok (pa, home) => if cxlGone s pa then .error (cPoison, va) else .ok (recPuts (l.foldl (fun t e => touchL2 t (home % 2048) (pa + e.1) 8 (home / 2048) true) s) pa l)

/-- One access of the batch former, at its home slice. An eviction leaves the state of a record that ended since it was read (R42). -/
def batchAccess (s : State) (g count : Nat) (b : BatchRun) (a : BatchAccess) : Except (Nat × Nat) (State × BatchRun) :=
  match a with
  | .free va => do
    let (s, b) ← readCopy s b va
    .ok (s, { b with todo := returnPages b va ++ [.fields va [(0x48, 31, 0, 0)]] ++ b.todo })
  | .fetch slot va => do
    let (s, b) ← readCopy s b va
    let st := copyGet b va 0 2 0
    .ok (s, match slot with
      | none => b
      | some i => if st = 4 || st = 5 then { b with freed := b.freed ++ [i] } else { b with slots := b.slots ++ [(i, va)] })
  | .give i va off => do
    let (s, b) ← readCopy s b va
    .ok (giveSlot s g count b i va off)
  | .check i va => do
    let (s, b) ← readCopy s b va
    let st := copyGet b va 0 2 0
    .ok (s, if st = 2 || st = 3 then { b with todo := returnPages b va ++ [.evict i va (evictFields b va)] }
      else { b with slots := b.slots.filter (fun e => e.1 ≠ i), freed := b.freed ++ [i] })
  | .evict i va l => do
    let (t, b) ← readCopy s b va
    let st := copyGet b va 0 2 0
    let b := { b with slots := b.slots.filter (fun e => e.1 ≠ i), freed := b.freed ++ [i] }
    if st = 2 || st = 3 then
      let t ← writeFields t va l
      .ok ({ t with admission := sput [] t.admission g (sget [] t.admission g ++ [va]) }, b)
    else
      let t ← writeFields t va [(0x48, 31, 0, 0)]
      .ok (t, b)
  | .fields va l => do
    let t ← writeFields s va l
    .ok (t, b)
  | .unpage va => do
    let (pa, home) ← batchPlace s va 4 true
    .ok (touchL2 { s with pools := sput [] s.pools g ((sget [] s.pools g).filter (fun p => p ≠ readMem s pa 4)) } (home % 2048) pa 4 (home / 2048) false, b)
  | .bytes va data => do
    let (pa, home) ← batchPlace s va data.length false
    .ok (placeWrite s pa home data, b)
  | .bit va i on => do
    let (pa, home) ← batchPlace s (va + i / 8) 1 true
    .ok (placeWrite s pa home (bytesOf (setBits (memByte s pa).toNat (i % 8) (i % 8) on.toNat) 1), b)

/-- The batch former's next decision, when no access is left to make: the accesses that follow from it, or the read of one entry of the slot
table (R196). -/
def batchDecide (s : State) (g count : Nat) (b : BatchRun) : Except (Nat × Nat) (State × BatchRun) :=
  match b.phase with
  | .release =>
    match b.returns with
    | r :: l => .ok (s, { b with returns := l, todo := [.free r] })
    | [] => .ok (s, { b with phase := .retire 0 })
  | .retire i =>
    if 1024 ≤ i then .ok (s, { b with phase := .evict, todo := b.queue.map (fun va => .fetch none va) })
    else do
      let (pa, home) ← batchPlace s (b.area + 32 * i) 8 true
      let r := readMem s pa 8
      .ok (touchL2 s (home % 2048) pa 8 (home / 2048) false, { b with phase := .retire (i + 1), todo := if r = 0 then [] else [.fetch (some i) (r % 2 ^ 53)] })
  | .evict =>
    match evictNext s g count b with
    | none => .ok (s, { b with phase := .enter })
    | some (i, va) => .ok (s, { b with todo := [.check i va] })
  | .enter =>
    match admitNext s g count b with
    | none => .ok (s, { b with phase := .write 0 0 })
    | some (i, va) =>
      let l := admitFields s b i va
      .ok ({ s with admission := sput [] s.admission g ((sget [] s.admission g).filter (· ≠ va)) },
        { copyPuts b va l with slots := putSlots b.slots i va, queue := b.queue.filter (· ≠ va), todo := [.fields va l] })
  | .write i off =>
    if 1024 ≤ i then .ok (s, { b with phase := .last off })
    else match b.slots.find? (fun e => e.1 = i) with
    | none => .ok (s, { b with phase := .write (i + 1) off, todo := entryWrites b i [0, 0, 0, off] off 0 })
    | some (_, va) => .ok (s, { b with todo := [.give i va off] })
  | .last off =>
    let start := 0x8100 + 2 * off
    .ok (s, { b with
      phase := .done
      todo := ((List.range 256).filter (fun j => start < 256 * j + 256)).map (fun j =>
        let lo := max start (256 * j)
        BatchAccess.bytes (b.area + lo) (List.replicate (256 * j + 256 - lo) 0) ) })
  | .done => .ok (s, b)

/-- One piece of BatchStep: one access, or one decision; the accesses follow in BatchStep's order (R189, R196; log 67). -/
def batchPiece (s : State) (g count : Nat) (b : BatchRun) : Except (Nat × Nat) (State × BatchRun) :=
  match b.todo with
  | a :: l => batchAccess s g count { b with todo := l } a
  | [] => batchDecide s g count b

/-- A range of memory set to zero, which is what nothing reads as; poison of whole sectors goes. -/
def zeroFill (s : State) (pa n : Nat) : State := clearFull { s with mem := s.mem.filter (fun e => !(pa ≤ e.1 && e.1 < pa + n)) } pa n

def batchOf (s : State) (gi node : Nat) : Option BatchRun := sget none s.batches (4096 * gi + node)
def setBatch (s : State) (gi node : Nat) (b : Option BatchRun) : State := { s with batches := sput none s.batches (4096 * gi + node) b }

/-- The batch former begins: what is in the release list, the admission queue and the quarantine mask is what this step takes up (R142,
R196). -/
def newBatch (s : State) (g : Nat) : Except (Nat × Nat) (State × BatchRun) := do
  let area := sget 0 s.batchRegs g
  let (pa, home) ← batchPlace s (area + 0x8080) 128 true
  .ok (touchL2 { s with releases := sput [] s.releases g [] } (home % 2048) pa 128 (home / 2048) false,
    { phase := .release, area := area, returns := sget [] s.releases g, queue := sget [] s.admission g, barred := readMem s pa 128, slots := [], freed := [],
      todo := [], recs := [] })

/-- BATCH_STEP: one piece of a running STEP node's batch former, which begins 64 cycles after the node became eligible (R189, R196). An access
that does not translate, to the slot area, a record or a page list, or a poisoned one that it reads, makes the node faulted, class W (log 119). -/
def execBatchStep (gi node : Nat) (s : State) : Host.Outcome State Fault Refusal :=
  .next (match graphOf s gi with
    | none => s
    | some r =>
      let x := nodeOf r node
      if !(r.live && node < r.count && x.state = 2 && nodeKind s r node = 5 && !x.stage) || s.cycle < x.changed + 63 then s
      else
        let g := nodeParam s r node
        match (match batchOf s gi node with | some b => batchPiece s g (nodeWord s r node 3 % 2 ^ 32) b | none => newBatch s g) with
        | .error (c, va) => faultNode (setBatch s gi node none) gi node { code := c, addr := BitVec.ofNat 64 (homeWord s va) } c
        | .ok (s, b) => if b.phase = .done && b.todo.isEmpty then setNode (setBatch s gi node none) gi node { x with stage := true } else setBatch s gi node (some b))

/-- NODE_COMPLETE: a STEP whose slot area is written, or a GANG whose members have all ended (R190). -/
def execNodeComplete (gi node : Nat) (s : State) : Host.Outcome State Fault Refusal :=
  .next (match graphOf s gi with
    | none => s
    | some g =>
      let x := nodeOf g node
      if !(g.live && node < g.count && x.state = 2) then s
      else match nodeKind s g node with
      | 5 => if x.stage then completeNode s gi node (fun _ => true) else s
      | 1 =>
        match s.gangs.find? (fun e => match e.2 with | some y => y.graph = some (gi, node) | none => false) with
        | some (i, some y) =>
          if y.started && y.members.all (fun e => y.ended.contains e.1) then
            completeNode (nodeFlush (setGang s i none) gi (y.members.map (fun m => coreOf m.2)).dedup) gi node (fun _ => true)
          else s
        | _ => s
      | _ => s)

end Sys2Proof.Machine
end

