-- ==== Sys2Proof/Machine/Nets.lean ====
section
/-! DEFINITION. Cells, wire slots, links, the net reservoir and the I4 table load (R22 to R34, R103, R280, R304 to R311). -/

namespace Sys2Proof.Machine

/-- The tables to come, in the order in which their second reads return; of two in one cycle the later issued is the later. -/
def nextTable (l : List (Nat × Word × Word)) (e : Nat × Word × Word) : List (Nat × Word × Word) :=
  l.filter (fun x => x.1 ≤ e.1) ++ [e] ++ l.filter (fun x => e.1 < x.1)

/-- I4TAB (R280): two reads of path 0; both halves change in the cycle in which the second returns. -/
def execI4tab (o : OpS) (s : State) : Host.Outcome State Fault Refusal :=
  runSeq (.i4tab o) s (fun t => do
    let c := t.cur
    let ea := rg t c o.a.toNat + o.imm.signExtend 64
    if ea.toNat % 16 ≠ 0 then trapAt cAlign ea t
    else
      settle t
      let (x, t) ← memRead t ea 8 .read
      let (y, t) ← memRead t (ea + 8) 8 .read
      let due := t.cycle + (if ea.toNat / 2 ^ 53 ≠ t.device then 0 else if 0x1FFFFF00000000 ≤ ea.toNat % 2 ^ 53 then 3 else 4)
      .ok (notBefore (modCore t (coreOf c) (fun k => { k with
        i4next := nextTable k.i4next (due + (ctxOf t c).late, BitVec.ofNat 64 x, BitVec.ofNat 64 y) })) c due))

/-! ### The reservoir (R304, R305) -/

/-- The registered heap of a kind and number (R103). -/
def heapOf (s : State) (wire : Bool) (h : Nat) : Option Heap := sget none (if wire then s.wireHeaps else s.cellHeaps) h

/-- Items of a heap and kind that a core's reservoir holds, and all of a kind. -/
def itemCount (s : State) (k : Nat) (wire : Bool) (h : Nat) : Nat := ((coreAt s k).reservoir.filter (fun e => e.1 = wire && e.2.1 = h)).length
def kindCount (s : State) (k : Nat) (wire : Bool) : Nat := ((coreAt s k).reservoir.filter (fun e => e.1 = wire)).length

/-- Places of a kind that a refill may still fill: those of items on their way, and of items that a running handler took and may give back, are
taken (R304). -/
def kindRoom (s : State) (k : Nat) (wire : Bool) : Nat :=
  let taken := (List.range 8).flatMap (fun i => (ctxOf s (8 * k + i)).takenItems)
  64 - (kindCount s k wire + (taken.filter (fun e => e.1 = wire)).length + ((coreAt s k).arriving.filter (fun e => e.1.1 = wire)).length)

/-- Ask the slices for n more items. -/
def askItems (s : State) (k : Nat) (wire : Bool) (h n : Nat) : State := modCore s k (fun x => { x with requests := x.requests ++ [(wire, h, n)] })

/-- NetAlloc (R304, R305): an item of the reservoir; without one the context waits for a refill, and a refill that found none is the
QUOTA fault. -/
def netAlloc (s : State) (wire : Bool) (h : Nat) : Res (Nat × State) :=
  let c := s.cur
  let k := coreOf c
  if (heapOf s wire h).isNone then trapWith cBadRef s
  else
    match (coreAt s k).reservoir.find? (fun e => e.1 = wire && e.2.1 = h) with
    | some e =>
      let s := modCore s k (fun x => { x with reservoir := removeFirst (fun d => d = e) x.reservoir })
      let s := if (ctxOf s c).hmode then modCtx s c (fun x => { x with takenItems := x.takenItems ++ [e] }) else s
      .ok (e.2.2, if itemCount s k wire h < 8 then askItems s k wire h 16 else s)
    | none =>
      if (ctxOf s c).cooked.isSome then
        .error (.trap { code := cQuota, reason := 2, detail := BitVec.ofNat 64 (h + 16 * wire.toNat) } s)
      else parkOn (.reservoir wire h) (if (coreAt s k).requests.any (fun r => r.1 = wire && r.2.1 = h) ||
          (coreAt s k).arriving.any (fun e => e.1.1 = wire && e.1.2.1 = h) then s else askItems s k wire h 16)

/-- Where a free item stands: distance of its home vertex, y, x, address. -/
def placeKey (s : State) (v a : Nat) : Option (Nat × Nat × Nat × Nat) :=
  match translateNow s a true with
  | .ok (_, home, _) => let w := sliceVertex (home % 2048)
    some (distance v w, vy w, vx w, a)
  | .error _ => none

def keyLess (a b : Nat × Nat × Nat × Nat) : Bool :=
  a.1 < b.1 || (a.1 = b.1 && (a.2.1 < b.2.1 || (a.2.1 = b.2.1 && (a.2.2.1 < b.2.2.1 || (a.2.2.1 = b.2.2.1 && a.2.2.2 < b.2.2.2)))))

/-- The least of a list of keys. -/
def leastKey (l : List (Nat × Nat × Nat × Nat)) : Option (Nat × Nat × Nat × Nat) :=
  l.foldl (fun b e => match b with | some x => if keyLess e x then some e else b | none => some e) none

/-- Up to n free items, nearest first (R103). -/
def drawFrom : Nat → List (Nat × Nat × Nat × Nat) → List Nat
  | 0, _ => []
  | n + 1, l => match leastKey l with
    | none => []
    | some e => e.2.2.2 :: drawFrom n (l.filter (fun x => x ≠ e))

/-- The state of a cell block or wire slot. -/
def itemState (s : State) (wire : Bool) (a : Nat) : ItemState := sget .free (if wire then s.wires else s.cells) a
def setItem (s : State) (wire : Bool) (a : Nat) (x : ItemState) : State :=
  if wire then { s with wires := sput .free s.wires a x } else { s with cells := sput .free s.cells a x }

/-- All free items of a heap. -/
def freeItems (s : State) (wire : Bool) (h : Heap) : List Nat :=
  let w := if wire then 8 else 32
  h.ranges.flatMap (fun r => ((List.range (r.2 / w)).map (fun i => r.1 + w * i)).filter (fun a => itemState s wire a = .free))

/-- An item is drawn: no longer free at its slice; a slot is empty (R304). -/
def drawItem (s : State) (wire : Bool) (a : Nat) : State :=
  let s := setItem s wire a .drawn
  if wire then
    match translateNow s a true with
    | .ok (pa, home, _) => if readMem s pa 8 = 0 then s else placeWrite s pa home (bytesOf 0 8)
    | .error _ => s
  else s

/-- Contexts of a core that wait for items of a heap and kind go on; when none was found they fault there. -/
def wakeAlloc (s : State) (k : Nat) (wire : Bool) (h : Nat) (found : Bool) : State :=
  (List.range 8).foldl (fun t i => modCtx t (8 * k + i) (fun x =>
    if x.run = .stalled (.reservoir wire h) then { x with run := .ready, cooked := if found then none else some 0 } else x)) s

/-- The farthest of some items' home slices from a core, in cycles (R304). -/
def itemHop (s : State) (k : Nat) (l : List Nat) : Nat :=
  l.foldl (fun m a => match translateNow s a true with
    | .ok (_, home, _) => max m (latency (vertexOf k) (sliceVertex (home % 2048)))
    | .error _ => m) 0

/-- Items whose time has come enter the reservoir, and the contexts that wait for them go on. -/
def takeArrivals (s : State) (k : Nat) (l : List ((Bool × Nat × Nat) × Nat)) : State :=
  let s := modCore s k (fun x => { x with reservoir := x.reservoir ++ l.map (·.1), arriving := x.arriving.filter (fun e => !(l.contains e)) })
  l.foldl (fun t e => wakeAlloc t k e.1.1 e.1.2.1 true) s

/-- RESERVOIR_REFILL: what has come is taken; else the oldest request of a core is served at the slices, up to 64 items of the kind, which
are on their way there and back; a device without a free item of the heap ends the wait in QUOTA; a request that finds no place waits
(R12, R304, R305). -/
def execReservoirRefill (core : Nat) (s : State) : Host.Outcome State Fault Refusal :=
  .next (
    let come := (coreAt s core).arriving.filter (fun e => e.2 ≤ s.cycle)
    if !come.isEmpty then takeArrivals s core come
    else match (coreAt s core).requests with
    | [] => s
    | (wire, h, n) :: r =>
      let room := kindRoom s core wire
      let free := match heapOf s wire h with | some p => freeItems s wire p | none => []
      let waited := (List.range 8).any (fun i => (ctxOf s (8 * core + i)).run = .stalled (.reservoir wire h))
      let s := modCore s core (fun x => { x with requests := r ++ (if room = 0 && waited && !free.isEmpty then [(wire, h, n)] else []) })
      let items := drawFrom (min n room) (free.filterMap (placeKey s (vertexOf core)))
      let due := s.cycle + 2 * itemHop s core items
      let s := items.foldl (fun t a => drawItem t wire a) s
      let s := modCore s core (fun x => { x with arriving := x.arriving ++ items.map (fun a => ((wire, h, a), due)) })
      if free.isEmpty then wakeAlloc s core wire h false else s)

/-! ### Instructions -/

/-- The header that CNEW writes (R306). -/
def cnewHeader (s : State) (o : OpE) : Nat :=
  let v := vertOf s.cur
  let h := (rg s s.cur o.a.toNat).toNat
  if nbit o.imm.toNat 4 then setBits (setBits (setBits h 29 26 (vy v)) 25 21 (vx v)) 20 20 1 else h

/-- Before an ordered posted write outside handler mode takes anything: the limit of R292. -/
def postRoom (s : State) : Res Unit :=
  if (ctxOf s s.cur).hmode then .ok ()
  else if 64 ≤ postedCount s (coreOf s.cur) then parkOn .storesFull s else .ok ()

/-- An ordered write to a home slice: a send-buffer entry, or a posted access at once. -/
def orderedPost (s : State) (home : Nat) (op : SliceOp) : Res State :=
  sendBuffer s (.slice true home op) (fun u => .ok (sendFlight u u.cur 1 true true home op 0))

/-- CNEW (R306). -/
def execCnew (o : OpE) (s : State) : Host.Outcome State Fault Refusal :=
  runSeq (.cnew o) s (fun t => do
    let c := t.cur
    let h := cnewHeader t o
    let a1 := rg t c o.b.toNat
    let a2 := rg t c o.c.toNat
    if !(headerWritable h) then trapWith cBadRef t
    else if !(refOk a1) || (bits h 17 16 < 1 && a1 ≠ 0) then trapAt cBadRef a1 t
    else if !(refOk a2) || (bits h 17 16 < 2 && a2 ≠ 0) then trapAt cBadRef a2 t
    else
      outputGate t
      postRoom t
      let (x, u) ← netAlloc t false (o.imm.toNat % 16)
      match translateNow u x true with
      | .error code => trapAt code (BitVec.ofNat 64 x) t
      | .ok (pa, home, _) =>
        let u ← orderedPost u home (.cell x pa [BitVec.ofNat 64 h, a1, a2, 0])
        .ok (wg u c o.d.toNat (cellRef t.device x)))

/-- WNEW (R306). -/
def execWnew (o : OpE) (s : State) : Host.Outcome State Fault Refusal :=
  runSeq (.wnew o) s (fun t => do
    settle t
    let (x, u) ← netAlloc t true (o.imm.toNat % 16)
    .ok (wg u t.cur o.d.toNat (wireRef t.device x)))

/-- The address that a reference to a cell or slot translates as (R307). -/
def refEa (r : Word) : Word := BitVec.ofNat 64 (refDevice r * 2 ^ 53 + refAddr r)

/-- CSET (R307): what is wrong with its value comes after the translation (R199). -/
def execCset (o : OpE) (s : State) : Host.Outcome State Fault Refusal :=
  runSeq (.cset o) s (fun t => do
    let c := t.cur
    let r := rg t c o.a.toNat
    let x := rg t c o.b.toNat
    let w := o.imm.toNat % 4
    if refKind r ≠ 1 || !(refOk r) then trapAt cBadRef r t
    else
      let (tgt, t) ← translate t (refEa r) .wr
      if w = 0 && !(headerWritable x.toNat) then trapWith cBadRef t
      else if (w = 1 || w = 2) && !(refOk x) then trapAt cBadRef x t
      else
      outputGate t
      postRoom t
      match tgt with
      | .phys _ pa leaf => orderedPost t (leafHome leaf pa) (.cset r pa w x)
      | .remote q =>
        remoteOk t q
        sendBuffer t (.slice true 0 (.remoteWrite q .cell)) (fun u => .ok (sendFlight u c 1 true true 0 (.remoteWrite q .cell) 0))
      | _ => trapAt cXlatePerm (refEa r) t)

/-- Whether the context has cell writes that their slices, here or on another device, have not acknowledged (R309). -/
def cellsOut (s : State) (c : Nat) : Bool := s.flights.any (fun f => f.ctx = c && writesCell f.op)

/-- What is wrong with the operands of LINK, when something is (R308). -/
def linkBad (a b : Word) : Option Word :=
  if a = 0 || !(refOk a) then some a else if b = 0 || !(refOk b) then some b else if refKind a = 2 && a = b then some a else none

/-- LINK (R308, R309): the slot operand is translated first (R199). -/
def execLink (o : OpE) (s : State) : Host.Outcome State Fault Refusal :=
  runSeq (.link o) s (fun t => do
    let c := t.cur
    let k := coreOf c
    let a := rg t c o.a.toNat
    let b := rg t c o.b.toNat
    let slot := if refKind a = 2 then a else b
    let other := if refKind a = 2 then b else a
    if refKind slot = 2 && refOk slot then
      let (tgt, t) ← translate t (refEa slot) .wr
      match linkBad a b with
      | some r => trapAt cBadRef r t
      | none =>
      outputGate t
      postRoom t
      match tgt with
      | .phys _ pa leaf => orderedPost t (leafHome leaf pa) (.link slot pa other)
      | .remote q =>
        remoteOk t q
        sendBuffer t (.slice true 0 (.remoteWrite q .link)) (fun u => .ok (sendFlight u c 1 true true 0 (.remoteWrite q .link) 0))
      | _ => trapAt cXlatePerm (refEa slot) t
    else match linkBad a b with
    | some r => trapAt cBadRef r t
    | none =>
      outputGate t
      postRoom t
      let p : PairRef := { first := a, second := b, radius := 0, seed := none }
      sendBuffer t (.slice false 0 (.push p)) (fun u =>
        if cellsOut u c || fenced u c 1 then .ok (sendFlight u c 1 false true 0 (.push p) 0)
        else if !(canPush u k 1) then parkOn (.dequeFull 1) (tellDeque u k)
        else .ok (pushPair u k (formPair u a b (netOf u c)))))

/-- CXLD (R310). -/
def execCxld (o : OpE) (s : State) : Host.Outcome State Fault Refusal :=
  runSeq (.cxld o) s (fun t => do
    let c := t.cur
    let r := rg t c o.a.toNat
    if refKind r ≠ 1 || !(refOk r) then trapAt cBadRef r t
    else
      let (tgt, t) ← translate t (refEa r) .rd
      match tgt with
      | .phys _ pa leaf => .ok (sendFlight t c 1 true false (leafHome leaf pa) (.cxld r pa o.d.toNat) 0 r)
      | .remote q =>
        remoteOk t q
        .ok (sendFlight t c 1 true false 0 (.remoteRead q 8 false o.d.toNat false) 0)
      | _ => trapAt cXlatePerm (refEa r) t)

/-- CGRAB (R311). -/
def execCgrab (o : OpE) (s : State) : Host.Outcome State Fault Refusal :=
  runSeq (.cgrab o) s (fun t => do
    settle t
    let k := coreOf t.cur
    let wire := nbit o.imm.toNat 4
    let h := o.imm.toNat % 16
    .ok (askItems (wg t t.cur o.d.toNat (BitVec.ofNat 64 (itemCount t k wire h))) k wire h (bits o.imm.toNat 9 5 + 1)))

/-! ### Events at the slices -/

/-- A report of a slice to the supervisor, class S, about an access of a context (R29, R33, R307, R388; log 26); POISON also faults the
request on whose record the region is parked (R207). -/
def reportCode (s : State) (f : Flight Regs) (code : Nat) (ref : Word) : State :=
  let s := if code = cPoison then poisonAt s (refAddr ref) else s
  if f.ctx < 65536 then reportFor s (coreOf f.ctx) 0 (agentOf s f.ctx) f.pc { code := code, addr := ref }
  else reportFor s (16 * sliceVertex f.slice) 0 (agentId s.device (128 * sliceVertex f.slice)) 0 { code := code, addr := ref }

/-- The report of an item that is not allocated. -/
def reportSlice (s : State) (f : Flight Regs) (ref : Word) : State := reportCode s f cBadRef ref

/-- Why a write of a net instruction is dropped at its slice and reported, no context trapping: a CXL port that is down (R388), a taint, or an
orphaned region (R113, R120, R325; log 115). -/
def netBarred (s : State) (va pa : Nat) : Option Nat := if cxlGone s pa then some cPoison else barredAt s va

/-- CELL_WRITE: a CNEW or CSET is performed at its home slice; a CSET of a free cell, of one that a take freed and that is
still held back, or outside every heap is dropped and reported (R29, R306, R307). -/
def execCellWrite (id : Nat) (s : State) : Host.Outcome State Fault Refusal :=
  .next (match flightOf s id with
    | none => s
    | some f =>
      if !(mayPerform s f) then s else
      match f.op with
      | .cell a pa ws =>
        match netBarred s a pa with
        | some code => donePosted (reportCode s f code (cellRef s.device a)) f
        | none => donePosted (setItem (placeWrite s pa (f.slice + 2048 * f.cls) (ws.flatMap (fun w => bytesOf w.toNat 8))) false a .live) f
      | .cset r pa w x =>
        match netBarred s (refAddr r) pa with
        | some code => donePosted (reportCode s f code r) f
        | none =>
        let st := itemState s false (refAddr r)
        if st = .free || st = .heldBack || (heapAt s.cellHeaps (refAddr r)).isNone then donePosted (reportSlice s f r) f
        else
          let (ok, s) := reachL2 s (.flight f.id) f.slice (pa + 8 * w) 8 f.cls true
          if !ok then s else donePosted (performWrite s (pa + 8 * w) (bytesOf x.toNat 8)) f
      | _ => s)

/-- Link(a, b) continued from a slice (R33). -/
def linkFrom (s : State) (f : Flight Regs) (a b : Word) : State :=
  let v := sliceVertex f.slice
  if refKind a = 2 || refKind b = 2 then
    let slot := if refKind a = 2 then a else b
    let other := if refKind a = 2 then b else a
    let go := fun (slice cls due : Nat) (op : SliceOp) => { s with
      nextId := s.nextId + 1
      flights := s.flights ++ [{
        id := s.nextId, ctx := 65536, group := 0, path := 1, ordered := false, posted := true, slice := slice, cls := cls, ea := slot, op := op
        wb := [], done := false, pc := 0, undo := none, due := s.cycle + due, back := 0, fault := none, net := f.net }] }
    if refDevice slot ≠ s.device then go (4096 + refDevice slot) 0 (fabricHop s v (refDevice slot) true) (.remoteWrite (refEa slot) .link)
    else
      match translateNow s (refAddr slot) true with
      | .error _ => reportSlice s f slot
      | .ok (pa, home, _) => go (home % 2048) (home / 2048) (latency v (sliceVertex (home % 2048))) (.link slot pa other)
  else sendPair s v (formPair s a b f.net)

/-- LINK_SWAP: a link reaches its slot's home slice, or a pair its core's deque (R33, R308). A slot whose sector is poisoned stays as it is, and
POISON is reported (R91; log 115). -/
def execLinkSwap (id : Nat) (s : State) : Host.Outcome State Fault Refusal :=
  .next (match flightOf s id with
    | none => s
    | some f =>
      if !(mayPerform s f) then s else
      match f.op with
      | .push p =>
        let k := coreOf f.ctx
        if canPush s k 1 then dropFlight (pushPair s k (formPair s p.first p.second f.net)) f.id else s
      | .link slot pa other =>
        match netBarred s (refAddr slot) pa with
        | some code => donePosted (reportCode s f code slot) f
        | none =>
        let (ok, s) := reachL2 s (.flight f.id) f.slice pa 8 f.cls true
        if !ok then s
        else if isPoisoned s pa then donePosted (reportCode s f cPoison slot) f
        else
          let s := donePosted s f
          if itemState s true (refAddr slot) = .free || (heapAt s.wireHeaps (refAddr slot)).isNone then reportSlice s f slot
          else
            let old := BitVec.ofNat 64 (readMem s pa 8)
            if old = 0 then setItem (performWrite s pa (bytesOf other.toNat 8)) true (refAddr slot) .live
            else
              let s := setItem (performWrite s pa (bytesOf 0 8)) true (refAddr slot) .free
              if !(refOk old) then reportSlice s f old else linkFrom s f old other
      | _ => s)

end Sys2Proof.Machine
end

