-- ==== Sys2Proof/Machine/Slices.lean ====
section
/-! DEFINITION. What happens at home slices, caches, walkers, and to contexts that wait: accesses performed, fills, misses, walks,
resumes, budgets, lockstep outputs (R80, R91, R92, R96, R97, R112, R140, R147, R161, R188, R213, R214, R292, R294). -/

namespace Sys2Proof.Machine

/-! ### Accesses performed at a slice (R161) -/

/-- A value of n bytes, sign-extended or not. -/
def extended (n : Nat) (sx : Bool) (x : Nat) : Word := if sx then sextN x (8 * n) else BitVec.ofNat 64 (x % 2 ^ (8 * n))

/-- Lines of a path-0 access that the core does not hold. -/
def missingLines (s : State) (k pa n : Nat) : List Nat := (linesOf pa n).filter (fun l => (lineOf s k l).isNone)

/-- The bytes that must be at the slice: whole lines for what a core fills, a slot table entry for RQSLOT. -/
def neededSpans (s : State) (f : Flight Regs) : List (Nat × Nat) :=
  match f.op with
  | .load pa _ _ _ => [(pa / 32 * 32, 32)]
  | .lineLoad pa n .. => (missingLines s (coreOf f.ctx) pa n).map (fun l => (32 * l, 32))
  | .lineStore _ pa data => (missingLines s (coreOf f.ctx) pa data.length).map (fun l => (32 * l, 32))
  | .slotRead g i _ => match entryPlace s g i with | some (pa, _) => [(pa, 32)] | none => []
  | .cmls ts _ => (opSpan (.cmls ts 0)).filter (fun p => !(cxlGone s p.1))
  | op => opSpan op

/-- Whether an access brings all bytes that it needs: RQNOTE and RQFLT read the record that they change (R97, R128). -/
def opFills : SliceOp → Bool
  | .note .. | .flt .. => false
  | op => opWrites op

/-- Every needed sector reached at the slice; those that miss are asked for (R97). -/
def reachAll (s : State) (f : Flight Regs) : Bool × State :=
  (neededSpans s f).foldl (fun (a : Bool × State) p =>
    let (ok, t) := reachL2 a.2 (.flight f.id) f.slice p.1 p.2 f.cls (opFills f.op)
    (a.1 && ok, t)) (true, s)

/-- An access that returns is over: its result, and the core's own peeked copy of its lines after a returning write (R153). -/
def finishReturn (s : State) (f : Flight Regs) (d : Nat) (l : List Word) : State :=
  let k := coreOf f.ctx
  let s := if opWrites f.op then
      (opSpan f.op).foldl (fun t p => (linesOf p.1 p.2).foldl (fun u a =>
        match lineOf u k a with | some x => if x.peeked then setLine u k a none else u | none => u) t) s
    else s
  giveWords (endFlight s f) f d l

/-- A tracked load at its slice: the track set of its context (R288). -/
def trackLine (l : List Track) (line : Nat) (stamp : BitVec 16) : List Track :=
  if l.any (fun e => e.line = line) then l.map (fun e => if e.line = line && e.stamp ≠ stamp then { e with broken := true } else e)
  else (l ++ [({ line := line, stamp := stamp, broken := false } : Track)]).drop (l.length + 1 - 4)

/-- CMLS at the common slice (R295): the result and the state. -/
def performCmls (s : State) (c cls : Nat) (ts : List (Nat × Word)) : Nat × State :=
  let track := (ctxOf s c).track
  let good := ts.all (fun t => track.any (fun e => e.line = t.1 / 256 && !e.broken && e.stamp = stampOf s t.1))
  let s := modCtx s c (fun x => { x with track := [] })
  if !good then (1, s)
  else
    let ts := ts.filter (fun e => !(barsWrite s cls e.1) && !(cxlGone s e.1))
    let u := ts.foldl (fun t e => clearFull (writeMem t e.1 (bytesOf e.2.toNat 8)) e.1 8) s
    (0, markCip ((distinct (ts.map (fun t => t.1 / 256))).foldl bumpLine u) c)

/-! ### Accesses to other devices (R88, R175, R177) -/

/-- The clock that no stop holds, by which a peer's silence is measured (R219). -/
def wallClock (s : State) : Nat := s.cycle + s.stoppedAll

/-- A device answered or sent a notice now (R219). -/
def peerSpoke (s : State) (d : Nat) : State := { s with peerSeen := sput 0 s.peerSeen d (wallClock s) }

/-- The codes that an access can meet at the device that serves it: a load, a peek, a store, a slice operation or request note, CXLD, TKSTAT,
and the token instructions, as Tables 06-4, 18-4, 19-7 and 20-8 list them. A cell write or a link faults nothing. -/
def remoteCodes (f : Flight Regs) : List Nat :=
  let place := [cXlateMiss, cXlatePerm]
  let read := [cTokenNone, cTainted]
  let plain := if f.path = 0 then [cCommonsPlain] else []
  match f.op with
  | .remoteLoad _ _ .load => place ++ read ++ [cCommonsPlain, cPoison]
  | .remoteLoad _ _ .peek => place ++ read ++ [cPoison]
  | .remoteLoad _ _ .store => place ++ read ++ [cTokenFrozen, cCommonsPlain]
  | .remoteLoad _ _ .sliceop => place ++ read ++ [cTokenFrozen]
  | .remoteLoad _ _ .token => [cTokenNone, cTokenBadop]
  | .remoteRead _ n _ _ acts => if acts then place ++ read ++ [cTokenFrozen] else if n = 32 then [] else place ++ [cBadRef, cPoison]
  | .remoteWrite _ .store => place ++ read ++ [cTokenFrozen] ++ plain
  | .remoteWrite _ (.emit _) => place ++ read ++ [cTokenFrozen] ++ plain
  | .remoteWrite _ (.token ..) => [cTokenNone, cTokenBadop]
  | _ => []

/-- What the end of an access leaves beside its result: the row of a MEMIT is free and counts as written (R333), also where its write failed
after it had left (the model's choice: the spec is silent; log 124). -/
def remoteEnds (s : State) (f : Flight Regs) : State :=
  match f.op with | .remoteWrite _ (.emit row) => emitFree s (vertOf f.ctx) (coreNo (coreOf f.ctx)) row true | _ => s

/-- An access through a global reference faults; one that no instruction waits for or can be undone to is dropped, and reported when it ends with
DEAD-PEER (R390; log 98). -/
def remoteFails (s : State) (f : Flight Regs) (code : Nat) (ref : Word) : State :=
  if f.undo.isNone then donePosted (remoteEnds (if code = cDeadPeer then reportCode s f code ref else s) f) f else flightFault s f { code := code, addr := ref }

/-- Ordered traffic does not pass what is still out, unacknowledged, on a port that failed (R390). -/
def portHolds (s : State) (f : Flight Regs) : Bool :=
  f.ordered && !(s.draining.contains f.id) && s.flights.any (fun h => s.draining.contains h.id && h.slice = f.slice && h.ordered && !h.done && h.id < f.id)

/-- An access through a global reference ends with its answer, which is free, or a fault (R175; log 17). A load or a check gives its context what
it asked for. -/
def performRemote (s : State) (f : Flight Regs) (ref : Word) : State :=
  let dev := ref.toNat / 2 ^ 53
  if s.peersStopped.contains dev || portHolds s f then s
  else if s.peersLost.contains dev then remoteFails s f cDeadPeer ref
  else if !(reachable s dev) then remoteFails s f cUndeliverable ref
  else
    let code := (Config.remoteFault s.free).toNat
    let s := peerSpoke { s with free := s.free + 1 } dev
    if (remoteCodes f).contains code then remoteFails s f code ref
    else match f.op with
    | .remoteLoad _ n _ =>
      let k := ceilDiv n 8
      let ws := (List.range k).map (fun i => Config.remoteWord (s.free + i))
      modCtx (endFlight { s with free := s.free + k } f) f.ctx (fun x => { x with
        remoteGot := x.remoteGot ++ [(ref.toNat, n, joinWords ws % 2 ^ (8 * n))]
        run := if x.run = .stalled .completion then .ready else x.run, readyAt := max x.readyAt f.back })
    | .remoteRead _ n sx d acts =>
      let k := ceilDiv n 8
      let ws := (List.range k).map (fun i => Config.remoteWord (s.free + i))
      let s := { s with free := s.free + k }
      giveWords (endFlight (if acts then markCip s f.ctx else s) f) f d (ws.map (fun w => extended (min n 8) sx w.toNat))
    | .remoteWrite _ (.token d _) =>
      let (x, s) := freeWord s
      giveWords (endFlight s f) f d [x]
    | _ => donePosted (remoteEnds s f) f

/-! ### Accesses of this module -/

/-- n bytes at the slice as context c sees them: under its write log (R154). -/
def readLogged (s : State) (c pa : Nat) : Nat → Nat
  | 0 => 0
  | n + 1 => (logOver (ctxOf s c).writeLog .memory pa (memByte s pa)).toNat + 256 * readLogged s c (pa + 1) n

/-- Whether the fill of a path-0 access is a peek: of a commons region (R153, R287). -/
def peeksFor (s : State) (f : Flight Regs) : Bool := match tokenCovering s (f.ea.toNat % 2 ^ 53) with | some t => t.mode = .commons | none => false

/-- The lines of a path-0 access that are missing enter the cache of its core. -/
def fillMissing (s : State) (f : Flight Regs) (pa n : Nat) : State :=
  let k := coreOf f.ctx
  if (coreAt s k).killed then s
  else (linesOf pa n).foldl (fun t l => if (lineOf t k l).isSome then t else fillLine t k l (f.slice + 2048 * f.cls) (peeksFor t f)) s

/-- A load of path 0 whose lines are there (R284): what it logged at its issue lies over them. -/
def performLoad (s : State) (f : Flight Regs) (pa n : Nat) (sx vec : Bool) (d lo hi : Nat) : State :=
  let k := coreOf f.ctx
  let ls := linesOf pa n
  let u := fillMissing s f pa n
  if ls.any (fun l => match lineOf u k l with | some x => x.poison | none => isPoisoned u (32 * l)) then flightFault u f { code := cPoison, addr := f.ea }
  else
    let u := endFlight (useLines u k ls) f
    let bytes := (List.range n).map (fun i => (match lineOf u k ((pa + i) / 32) with
      | some x => x.data.extractLsb' (8 * ((pa + i) % 32)) 8
      | none => memByte u (pa + i)).toNat)
    let x := ((bytes.zipIdx.map (fun e => e.1 * 2 ^ (8 * e.2))).sum &&& hi) ||| lo
    if vec then giveVec u f d (BitVec.ofNat 512 x) else giveResult u f d (extended n sx x)

/-- One access performed, its sectors being there. -/
def performAccess (s : State) (f : Flight Regs) : State :=
  let poison := fun (pa n : Nat) (u : Unit → State) => if anyPoison s pa n then flightFault s f { code := cPoison, addr := f.ea } else u ()
  match f.op with
  | .load pa n sx d =>
    let u := if (coreAt s (coreOf f.ctx)).killed then s else fillLine s (coreOf f.ctx) (pa / 32) (f.slice + 2048 * f.cls) true
    if anyPoison s pa n then flightFault u f { code := cPoison, addr := f.ea } else finishReturn u f d [extended n sx (readMem s pa n)]
  | .lineLoad pa n sx vec d lo hi => performLoad s f pa n sx vec d lo hi
  | .lineStore va pa data => endFlight (storeLines (fillMissing s f pa data.length) (coreOf f.ctx) va pa data) f
  | .tracked pa n sx d => poison pa n (fun _ =>
      finishReturn (modCtx s f.ctx (fun x => { x with track := trackLine x.track (pa / 256) (stampOf s pa) })) f d [extended n sx (readLogged s f.ctx pa n)])
  | .rmw pa w op val cmp d =>
    let (old, t) := sliceRmw s pa w op val cmp
    let t := if barsWrite s f.cls pa then s else t
    if f.posted then donePosted t f
    else if d = 0 then finishReturn t f 0 []
    else finishReturn (markCip t f.ctx) f d [sextN old w]
  | .write pa data _ => donePosted (programWrite s f.cls pa data) f
  | .emit pa row data => donePosted (emitFree (programWrite s f.cls pa data) (vertOf f.ctx) (coreNo (coreOf f.ctx)) row true) f
  | .cmls ts d =>
    let (r, s) := performCmls s f.ctx f.cls ts
    finishReturn s f d [BitVec.ofNat 64 r]
  | .cxld ref pa d =>
    let st := itemState s false (refAddr ref)
    if (heapAt s.cellHeaps (refAddr ref)).isNone || !(st = .live || st = .heldBack || st = .drawn) then flightFault s f { code := cBadRef, addr := ref }
    else if anyPoison s (pa + 24) 8 then flightFault s f { code := cPoison, addr := ref }
    else finishReturn s f d [BitVec.ofNat 64 (readMem s (pa + 24) 8)]
  | .note pa tok w d =>
    if anyPoison s pa 256 || (slotMatches s pa w && seqPoison s pa) then flightFault s f { code := cPoison, addr := f.ea }
    else
      let (r, s) := noteRecord (touchL2 s f.slice pa 32 f.cls true) pa (tok.toNat % 2 ^ 32) w
      finishReturn (markCip s f.ctx) f d [BitVec.ofNat 64 r]
  | .flt pa code w d => poison pa 256 (fun _ =>
      let (r, s) := faultNote s pa (f.slice + 2048 * f.cls) code.toNat w
      finishReturn (markCip s f.ctx) f d [BitVec.ofNat 64 r])
  | .slotRead g i d =>
    match entryPlace s g i with
    | some (a, _) =>
      if anyPoison s a 32 then
        flightFault s f { code := cPoison, addr := BitVec.ofNat 64 (s.device * 2 ^ 53 + sget 0 s.batchRegs g % 2 ^ 53 + 32 * i) }
      else finishReturn s f d (slotWords s g i)
    | none => finishReturn s f d (slotWords s g i)
  | .stat va d => finishReturn s f d (match tokenProbe s va with | some t => tokenWords t | none => [0, 0, 0, 0])
  | .bari pa count => performBari s f pa count
  | .waitb pa _ => testBarrier s f pa
  | .contribute gid m x => donePosted (contribute s gid m x) f
  | .result gid pa x => performResult s f gid pa x
  | .grlaunch records statuses n d =>
    let (r, s) := launchGraph s f.ctx records statuses n
    finishReturn (markCip s f.ctx) f d [r]
  | .grsig w => if signalWaits s f w then s else donePosted (signalNode s w) f
  | .fence src _ =>
    if pathOut s f.ctx f.id src then s
    else offerJobs (giveWords (endFlight s f) { f with back := s.cycle } 0 []) (vertOf f.ctx) 8
  | .remoteRead ref .. => performRemote s f ref
  | .remoteLoad ref .. => performRemote s f ref
  | .remoteWrite ref _ => performRemote s f ref
  | _ => s

/-- Operations that have an event of their own. -/
def ownEvent : SliceOp → Bool
  | .token _ | .cell .. | .cset .. | .link .. | .push _ | .flush .. => true
  | _ => false

/-- SLICE_ACCESS: one access is performed at its home slice, once it may be and its sectors are there (R161, R164, R166); behind a CXL
port that is down it ends with POISON (R388), which a posted one reports, its instruction being over (log 115). One that has met a fault takes it once the accesses before it have taken their effect (R151). -/
def execSliceAccess (id : Nat) (s : State) : Host.Outcome State Fault Refusal :=
  .next (match flightOf s id with
    | none => s
    | some f =>
      if f.fault.isSome then flightFault s f (f.fault.getD { code := 0 })
      else if ownEvent f.op || !(mayPerform s f) then s
      else if (opSpan f.op).any (fun p => cxlGone s p.1) then
        (if f.undo.isNone then performAccess (reportCode s f cPoison f.ea) f else flightFault s f { code := cPoison, addr := f.ea })
      else
        let (ok, s) := reachAll s f
        if ok then performAccess s f else s)

/-- POSTED_STORE_ACK: the acknowledgement of a performed posted access is back (R292). -/
def execPostedStoreAck (id : Nat) (s : State) : Host.Outcome State Fault Refusal :=
  .next (match flightOf s id with
    | some f => if f.done && f.posted && f.back ≤ s.cycle then endFlight s f else s
    | none => s)

/-- AGG_FLUSH: the oldest entry of an aggregation buffer leaves 256 cycles after its first add, once it has room among the posted stores of its
core (R293, R294). -/
def execAggFlush (core : Nat) (s : State) : Host.Outcome State Fault Refusal :=
  .next (match (coreAt s core).agg with
    | e :: r => if e.2.2.2 ≤ s.cycle && aggRoom s core [e] then modCore (aggSend s (8 * core) e) core (fun x => { x with agg := r }) else s
    | [] => s)

/-! ### Misses (R96, R97) -/

/-- Contexts of a core that wait for a line go on. -/
def wakeCore (s : State) (k : Nat) (w : Stall) (mark : Bool) : State :=
  (List.range 8).foldl (fun t i => modCtx t (8 * k + i) (fun x =>
    if x.run = .stalled w then { x with run := .ready, cooked := if mark then some 0 else x.cooked } else x)) s

/-- A fence holds a fill back that its context asked for behind it (R180), and an access of the core that its slice has still to
acknowledge holds back a fill of its line (R286). -/
def fillHeld (s : State) (f : Fill) : Bool :=
  lineBusy s (coreOf f.ctx) f.line ||
  s.flights.any (fun h => h.ctx = f.ctx && h.id < f.before && (match h.op with | .fence _ dst => nbit dst 0 | _ => false))

/-- LINE_FILL: a missed data line arrives from its home slice (R96); one asked for by PREF.L2 goes no further than its slice (R290); one of a
region whose token has left the core meanwhile is dropped (R168). -/
def execLineFill (core line : Nat) (s : State) : Host.Outcome State Fault Refusal :=
  .next (match (coreAt s core).fills.find? (fun f => f.line = line && f.due ≤ s.cycle && !(fillHeld s f)) with
    | none => s
    | some f =>
      let gone := fun (t : State) => modCore t core (fun x => { x with fills := removeFirst (fun g => g = f) x.fills })
      if f.stale then wakeCore (gone s) core (.fill line) false
      else
        let (ok, s) := reachL2 s (.fill core line) (f.home % 2048) (32 * line) 32 (f.home / 2048) false
        if !ok then s
        else if f.l2 then gone s
        else wakeCore (if (lineOf s core line).isSome then gone s else fillLine (gone s) core line f.home f.peeked) core (.fill line) true)

/-- INSTRUCTION_FETCH_FILL: a missed instruction line arrives, as class 4 (R96, R101). -/
def execInstructionFetchFill (core line : Nat) (s : State) : Host.Outcome State Fault Refusal :=
  .next (match (coreAt s core).fetches.find? (fun f => f.1 = line) with
    | none => s
    | some (_, due, home) =>
      if s.cycle < due then s
      else
        let (ok, s) := reachL2 s (.fetch core line) (home % 2048) (32 * line) 32 4 false
        if !ok then s
        else wakeCore (installCode (modCore s core (fun x => { x with fetches := x.fetches.filter (fun f => f.1 ≠ line) })) core line) core (.fetch line) false)

/-- Cycles from a channel command to the sectors' arrival: the channel's rate, and the CXL tier, to whose port and back the mesh is crossed
(R13, R97, R222, R388; log 9). -/
def channelTime (s : State) (slice line : Nat) : Nat :=
  (match (s.startRecord.getD 2 (0, 0)).1.toNat with | w => if bits w 11 10 = 3 then 196 else 176) +
    (match cxlPort (256 * line) with | some p => 480 + 2 * latency (sliceVertex slice) (cxlVertex p) | none => 0)

/-- L2_CHANNEL_COMMAND: a miss held for 24 cycles goes to its channel (R97). -/
def execL2ChannelCommand (slice line : Nat) (s : State) : Host.Outcome State Fault Refusal :=
  .next (let x := sliceAt s slice
    let held := fun (m : Miss) => m.line = line && !m.sent && m.due ≤ s.cycle
    let go := fun (m : Miss) => { m with sent := true, due := s.cycle + channelTime s slice line }
    setSlice s slice { x with misses := replaceFirst held go x.misses })

/-- SECTOR_ARRIVAL: the sectors of a command arrive and complete every joined miss (R97). -/
def execSectorArrival (slice line : Nat) (s : State) : Host.Outcome State Fault Refusal :=
  .next (let x := sliceAt s slice
    match x.misses.find? (fun m => m.line = line && m.sent && m.due ≤ s.cycle) with
    | none => s
    | some m =>
      let s := setSlice s slice { x with misses := removeFirst (fun n => n = m) x.misses }
      modL2 s slice line (fun y => { y with valid := y.valid ||| m.sectors, owed := y.owed ++ m.joined }))

/-! ### Walks (R92, R112) -/

/-- A walk ends: the leaf goes into both TLBs, or its fault waits for the instruction or the engine; the context goes on, and prefetches of the
page ask for their lines (R92, R290). -/
def endWalk (s : State) (v : Nat) (w : Nat × Nat × Nat × Nat) (r : Walk) : State :=
  let engine := decide (w.1 = engineKey v)
  let k := if engine then 16 * v + 8 else coreOf w.1
  let s := modCluster s v (fun x => { x with
    walks := x.walks.drop 1
    walkDue := match x.walks.drop 1 with | n :: _ => s.cycle + walkRead v n.2.2.2 n.2.2.1 n.2.1 | [] => s.cycle })
  let s := match r with
    | .leaf page lsize pte =>
      if (coreAt s k).killed then s else tlbFill s k { page := page, lsize := lsize, leaf := pte }
    | .fault code =>
      if engine then modCluster s v (fun x => { x with walkFails := (w.2.1, code) :: x.walkFails })
      else modCtx s w.1 (fun x => if x.run = .stalled (.walk w.2.1) then { x with walkFails := (w.2.1, code) :: x.walkFails } else x)
  let s := if engine then s else modCtx s w.1 (fun x => if x.run = .stalled (.walk w.2.1) then { x with run := .ready } else x)
  let mine := (coreAt s k).prefs.filter (fun p => p.1 = w.2.1 && p.2.1 = w.1)
  let s := if mine.isEmpty then s else modCore s k (fun x => { x with prefs := x.prefs.filter (fun p => !(p.1 = w.2.1 && p.2.1 = w.1)) })
  match r with
  | .leaf page _ pte => if (coreAt s k).killed || !(leafRd pte) then s else mine.foldl (fun t p => prefLine t p.2.1 p.1 (leafPa page p.1 pte) pte p.2.2) s
  | .fault _ => s

/-- PAGE_WALK_READ: the walker of a cluster reads one entry of its oldest walk at the entry's home slice, as class 4 and homed
package-wide (R92, R101, R135). -/
def execPageWalkRead (vertex : Nat) (s : State) : Host.Outcome State Fault Refusal :=
  .next (match (clusterAt s vertex).walks with
    | [] => s
    | w :: _ =>
      if s.cycle < (clusterAt s vertex).walkDue then s
      else
        let pa := entryAddr w.2.2.2 w.2.2.1 w.2.1
        let home := homeSlice true 0 pa
        let (ok, s) := reachL2 s (.walk vertex) home pa 8 4 false
        if !ok then s
        else if isPoisoned s pa then endWalk s vertex w (.fault cPoison)
        else match readEntry s w.2.2.1 w.2.1 (readMem s pa 8) with
        | .error r => endWalk s vertex w r
        | .ok next => modCluster s vertex (fun x => { x with
            walks := (w.1, w.2.1, w.2.2.1 + 1, next) :: x.walks.drop 1
            walkDue := s.cycle + walkRead vertex next (w.2.2.1 + 1) w.2.1 }))

/-- TOKEN_WALK: the candidate entries are probed in one round (R112). -/
def execTokenWalk (c : Nat) (s : State) : Host.Outcome State Fault Refusal :=
  .next (match (ctxOf s c).run with
    | .stalled (.tokenWalk va path due) =>
      if s.cycle < due then s else modCtx (tokenWalkNow s c va path) c (fun x => { x with run := .ready })
    | _ => s)

/-- UNCORRECTABLE_ERROR: a sector is marked poisoned (R91). -/
def execUncorrectableError (pa : Nat) (s : State) : Host.Outcome State Fault Refusal := .next (if backed s pa then poisonSector s pa else s)

/-! ### Contexts that wait -/

/-- A wait whose end is seen by trying the instruction again; the others end by an event of their own. -/
def retries (s : State) (c : Nat) : Stall → Bool
  | .flights => true
  | .retryFull => !(retryFull s (coreOf c))
  | .dequeFull n => canPush s (coreOf c) n
  | .storesFull => postedCount s (coreOf c) < 64
  | .chordOpen _ dest => (coreAt s (coreOf c)).chord.isNone && ((coreAt s dest).portHolder.isNone || (coreAt s dest).killed)
  | .chordPut =>
    match (coreAt s (coreOf c)).chord with
    | some h => (coreAt s h.dest).killed || (coreAt s h.dest).port.length + (coreAt s h.dest).portIn.length < 16
    | none => true
  | .chordGet =>
    !(coreAt s (coreOf c)).port.isEmpty || (coreAt s (coreOf c)).portDead
  | .segments row n => segsReady s (vertOf c) (coreNo (coreOf c)) row n
  | .shadow => !(swapWaits s (vertOf c))
  | .mwait j => !(jobOut (clusterAt s (vertOf c)) (j.setWidth 64))
  | .mdrain j =>
    !(jobOut (clusterAt s (vertOf c)) (j.setWidth 64)) &&
      !((colOf s (vertOf c) (coreNo (coreOf c))).segs.any (fun e => e.2.state = .draining && e.2.jid = j))
  | .jobQueueFull => ((clusterAt s (vertOf c)).jobs.filter (fun j => j.running.isNone)).length < 64
  | .jobWait id => !((clusterAt s (vertOf c)).jobs.any (fun j => j.id = id))
  | .groupDrain gid => (groupOf s gid).inflight = 0
  | .round gid => !(hasGiven s gid (memberIndex (groupOf s gid) (agentOf s c)))
  | .stopping w => !(saveable s w) || (stopTarget s w).1
  | .divider => (coreAt s (coreOf c)).dividerFree ≤ s.cycle
  | .functionUnit => (coreAt s (coreOf c)).unitFree ≤ s.cycle
  | .transfer => !(s.clusters.any (fun e => e.2.transfers.any (fun t => t.ctx = c && (t.job.isNone || t.job = (ctxOf s c).job))))
  | _ => false

/-- CONTEXT_READY: a context parked at a group end is ready once the last result of its group is back, or stops there when that was
asked for; one that waits at an instruction for something that may have come tries it again (R188); a handler that aborts ends (R256). -/
def execContextReady (c : Nat) (s : State) : Host.Outcome State Fault Refusal :=
  .next (let x := ctxOf s c
    match x.run with
    | .groupEnd =>
      if returning s c || s.cycle < x.readyAt then s
      else match x.stopWhy with
      | some dog => stopCtx s c dog
      | none => modCtx s c (fun y => { y with run := .ready })
    | .aborting => if s.cycle < x.readyAt then s else endAborted s c
    | .stalled w =>
      if !(retries s c w) then s
      else modCtx s c (fun y => { y with
        run := .ready
        cooked := match w with | .chordOpen since _ => some (BitVec.ofNat 64 since) | _ => y.cooked })
    | _ => s)

/-- DATA_QUEUE_RESUME: a party parked on a full or empty half goes on when the half moved, in the next cycle (`heldUntil`, R140); of those that
wait for entries of one port, the one whose pop issued first (R78). -/
def execDataQueueResume (c : Nat) (s : State) : Host.Outcome State Fault Refusal :=
  .next (let k := coreOf c
    let go := modCtx s c (fun x => { x with run := .ready })
    let ahead := fun (j : Nat) => popAhead { s with cur := c } [j]
    let other := fun (q : Nat) => (coreAt s (if isExecute k then accessOf k else q)).killed || (coreAt s q).queuesLost.contains branchPort
    match (ctxOf s c).run with
    | .stalled (.qPop j) => if (queueLost s k j || !(qInOf s k j).isEmpty) && !(ahead j) then go else s
    | .stalled (.qPush j) => if queueLost s k j || (qOutOf s k j).length < 16 then go else s
    | .stalled (.branchPop q) => if other q || !(boqOf s q !(isExecute k)).isEmpty then go else s
    | .stalled (.branchPush q) => if other q || (boqOf s q (isExecute k)).length < 32 then go else s
    | _ => s)

/-- Accesses that must return before a budget's fault at a parked instruction: all but a WAITB that is registered at its barrier. -/
def budgetWaits (s : State) (c : Nat) : Bool :=
  s.flights.any (fun f => f.ctx = c && !f.posted && !(f.done && (match f.op with | .waitb .. => true | _ => false)))

/-- The WAITBs of a context end without a wake; their bits stay among the waiters of their barriers, which only a wake clears (Table 08-4). -/
def dropWaits (s : State) (c : Nat) : State :=
  { s with flights := s.flights.filter (fun f => !(f.ctx = c && (match f.op with | .waitb .. => true | _ => false))) }

/-- A WAITB of a handler whose budget runs out takes no effect: it leaves its barrier's waiters (R145, R147; log 71). -/
def dropWaiter (s : State) (c : Nat) : State :=
  (s.flights.filter (fun f => f.ctx = c && (match f.op with | .waitb .. => true | _ => false))).foldl (fun t f =>
    match f.op with
    | .waitb pa _ =>
      let w := readMem t (pa + 8) 8
      dropFlight (if nbit w (c % 64) then placeWrite t (pa + 8) (f.slice + 2048 * f.cls) (bytesOf (w - 2 ^ (c % 64)) 8) else t) f.id
    | _ => t) s

/-- BUDGET_EXPIRY: the counter of a parked handler reaches zero, or a gang member's budget runs out (R147, R194): a parked
instruction has issued before its fault (R148); a member whose transfer or access abroad is under way stops when that has ended. -/
def execBudgetExpiry (c : Nat) (s : State) : Host.Outcome State Fault Refusal :=
  .next (let x := ctxOf s c
    match x.budgetEnd with
    | none => s
    | some e =>
      if s.cycle < e then s
      else if x.hmode then
        let counted := if x.tried then countEvent s c else s
        match x.run with
        | .stalled .transfer => if (clusterAt s (vertOf c)).transfers.any (fun t => t.ctx = c && t.job.isNone) then s else takeTrap counted c { code := cBudget }
        | .stalled _ => if budgetWaits s c then s else takeTrap (dropWaiter counted c) c { code := cBudget }
        | .groupEnd => if returning s c || s.cycle < x.readyAt then s else takeTrap s c { code := cBudget }
        | _ => s
      else match x.gang.bind (fun g => (gangAt s g).map (fun y => (g, y))) with
      | none => s
      | some (g, y) =>
        let s := setGang s g (some { y with preempt := true })
        match x.run with
        | .stalled .gbar | .stalled .mgang => s
        | .stalled .transfer | .stalled .completion => s
        | .ready | .groupEnd | .stalled _ => modCtx (endGroup (dropWaits s c) c) c (fun z => { z with run := .preempted, popSince := none })
        | _ => s)

/-- The address of the output that an instruction at the pc of a context is about to perform; 0 for one without an address. -/
def outputAddr (s : State) (c : Nat) : Word :=
  match walkNow s ((ctxOf s c).pc.toNat % 2 ^ 53) with
  | .fault _ => 0
  | .leaf page _ leaf =>
    let pa := leafPa page ((ctxOf s c).pc.toNat % 2 ^ 53) leaf
    match instrOf (BitVec.ofNat 64 (readMem s pa 8)) with
    | .st o | .stv o | .sts o | .stsA o => effAddr s c o
    | .slop o | .agg o => baseAddr s c o
    | .flush o | .cmls o => rg s c o.a.toNat
    | .tklend o | .tkret o | .tkshare o | .tkdrop o | .tkpark o | .tksplit o | .tkjoin o => rg s c o.a.toNat
    | .tkclean o => rg s c o.a.toNat
    | .link o => if refKind (rg s c o.a.toNat) = 2 then rg s c o.a.toNat else if refKind (rg s c o.b.toNat) = 2 then rg s c o.b.toNat else 0
    | .cnew o => match (coreAt s (coreOf c)).reservoir.find? (fun e => !e.1 && e.2.1 = o.imm.toNat % 16) with | some e => cellRef s.device e.2.2 | none => 0
    | .cset o | .memit o | .bari o | .rqnote o | .rqflt o | .job o | .grlaunch o => rg s c o.a.toNat
    | _ => 0

/-- LOCKSTEP_OUTPUT: the trailing copy produces the output that its leading copy waits to perform, or another one: then both stop
(R213, R214). -/
def execLockstepOutput (c : Nat) (agree : Bool) (s : State) : Host.Outcome State Fault Refusal :=
  .next (let x := ctxOf s c
    if !(x.lockstep && x.run = .stalled .lockstep) || s.cycle < x.heldUntil then s
    else if agree then modCtx s c (fun y => { y with run := .ready, lockPass := true })
    else
      let s := reportFor s (coreOf c) 3 (agentOf s c) x.pc { code := cLockstep, addr := outputAddr s c }
      let s := modCtx (endGroup s c) c (fun y => { y with run := .trapped, skip := false, cooked := none, sendBuf := [] })
      modCtx s (partnerOf c) (fun y => { y with run := .stopped }))

end Sys2Proof.Machine
end

