-- ==== Sys2Proof/Machine/Sched.lean ====
section
/-! DEFINITION. What leaves after HRET, how messages arrive or come back, launches, the selector, pair deques, steals and the dispatch of
pairs (R26 to R33, R121 to R126, R137 to R139, R169 to R173, R183 to R187). -/

namespace Sys2Proof.Machine

/-! ### The send buffer after HRET (R31, R139, R167, R169, R180, R240) -/

/-- Cell writes of a context that have not been performed, to cells of other devices too (R173). -/
def cellsLeft (s : State) (c : Nat) : Bool := s.flights.any (fun f => f.ctx = c && !f.done && writesCell f.op)

/-- A posted access of a committed handler: it waits while 64 are out (R292), or while an access of its core on path 0 is out to its lines
(R286). -/
def leavePosted (s : State) (c path : Nat) (ordered : Bool) (home : Nat) (op : SliceOp) : Option State :=
  if 64 ≤ postedCount s (coreOf c) || lineOut s (coreOf c) ((opSpan op).flatMap (fun p => linesOf p.1 p.2)) then none
  else some (sendClear s c path ordered true home op 0)

/-- Whether one more pair can go to the bottom of a deque now (R138). -/
def deepens (s : State) (k : Nat) : Bool := (coreAt s k).deque.length < 256 || (coreAt s k).spill.length + 128 ≤ (coreAt s k).spillLimit

/-- A committed write log whose stores to other devices are out (R180). -/
def logOut (s : State) (c : Nat) : Bool := s.flights.any (fun f => f.ctx = c && f.path = 0)

/-- What a send-buffer entry does when it leaves: none when it still waits. A neighbour write that finds its core killed is dropped and
reported as DEAD-PEER, its handler having committed (R80; log 98). -/
def leaveEntry (s : State) (c : Nat) (e : Entry) : Option State :=
  let k := coreOf c
  match e with
  | .slice ordered home op =>
    match op with
    | .token o =>
      if tokenOut s c then none
      else match tokenProbe s o.va with
      | none => some s
      | some t => if regionOut s c t then none else some (sendToken s c true o t)
    | .link .. | .remoteWrite _ .link => if cellsLeft s c || tokenOut s c then none else leavePosted s c 1 ordered home op
    | .push p => if cellsLeft s c || tokenOut s c || 64 ≤ postedCount s k || !(deepens s k) then none else some (pushPair s k (formPair s p.first p.second (netOf s c)))
    | .fence src dst =>
      if nbit src 1 && !(coreAt s k).agg.isEmpty then none
      else if src = 0 || dst = 0 then some s
      else if logOut s c || tokenOut s c || pathOut s c s.nextId src then none else some s
    | .flush base n inv =>
      if tokenOut s c then none
      else if base / 2 ^ 53 ≠ s.device then some s
      else
        let l := flushable s c (base % 2 ^ 53) n
        let (d, w) := flushCost s c l
        some (notBefore (flushLines s k inv l) c (s.cycle + d + w + 1))
    | .contribute gid m x => if tokenOut s c || hasGiven s gid m then none else some (sendContribution s c gid m x)
    | .grsig _ => if tokenOut s c then none else some (sendFlight s c 1 ordered true home op 0)
    | .write _ _ (some va) => if tokenOut s c then none else (leavePosted s c 1 ordered home op).map (fun t => noticeStore t va)
    | _ => if tokenOut s c then none else leavePosted s c 1 ordered home op
  | .message m => if tokenOut s c || retryFull s k then none else some (leaveMsg s k m)
  | .agg pa home x =>
    if tokenOut s c || !(aggFits s k pa) then none
    else if aggAbroad ≤ pa then some (aggAdd s c pa home x)
    else if lineOut s k [pa / 32] then none
    else some (aggAdd (clearPath s k (.rmw pa 64 0 0 0 0)) c pa home x)
  | .nput j x since =>
    let n := neighbourOf k j
    if tokenOut s c || (putsWaiting s k n j).any (fun e => e.1 < since) then none
    else if (coreAt s n).killed then some (reportCtx s c 0 { code := cDeadPeer })
    else if nbit (coreAt s n).npres.toNat j then none else some (putNeighbour s n j x)
  | .memit row home pa data =>
    if tokenOut s c then none
    else if data.isEmpty then some (emitFree s (vertOf c) (coreNo k) row false)
    else leavePosted s c 3 true home (if 2 ^ 20 ≤ home then .remoteWrite (BitVec.ofNat 64 ((home - 2 ^ 20) * 2 ^ 53 + pa)) (.emit row) else .emit pa row data)
  | .gsend gid cls pay n =>
    if (groupOf s gid).state ≠ 1 || (groupOf s gid).members.length ≤ n then some s
    else if tokenOut s c || retryFull s k then none else some (sendCopy s c gid cls n pay)
  | .gclose gid => if tokenOut s c then none else some (closeGroup s gid)

/-- Whether an entry has more copies to send after this one (R349). -/
def moreCopies (s : State) (e : Entry) : Option Entry :=
  match e with
  | .gsend gid cls pay n => if (groupOf s gid).state = 1 && n + 1 < (groupOf s gid).members.length then some (.gsend gid cls pay (n + 1)) else none
  | _ => none

/-- A FENCE whose source mask names path 1 flushes the aggregation buffer before it waits, and so does a token instruction on a region with sums
there, once they have room among the posted stores (R168, R293, R294, R296). -/
def flushFirst (s : State) (c : Nat) (e : Entry) : State :=
  let go := if sumsReady s (coreOf c) then aggFlushAll s c else s
  match e with
  | .slice _ _ (.fence src _) => if nbit src 1 then go else s
  | .slice _ _ (.token o) => (match tokenProbe s o.va with | some t => if sumsOf s (coreOf c) t then go else s | none => s)
  | _ => s

/-- SEND_BUFFER_ENTRY_LEAVE: in the cycle after HRET the handler commits; then its oldest entry leaves, when it may; in the cycle after the
last the context is idle (R139, R255). -/
def execSendBufferEntryLeave (c : Nat) (s : State) : Host.Outcome State Fault Refusal :=
  .next (let x := ctxOf s c
    if x.run ≠ .leaving || s.cycle < x.readyAt then s
    else if !x.committed then
      let t := commitHandler s c
      if (ctxOf t c).sendBuf.isEmpty then finishHandler t c else t
    else match x.sendBuf with
    | [] => finishHandler s c
    | e :: r =>
      let s := flushFirst s c e
      match leaveEntry s c e with
      | none => s
      | some t =>
        let rest := match moreCopies s e with | some n => n :: r | none => r
        let t := modCtx t c (fun y => { y with sendBuf := rest, readyAt := max y.readyAt (s.cycle + 1) })
        if rest.isEmpty then finishHandler t c else t)

/-! ### Arrival and refusal (R125, R137, R139, R171, R203) -/

/-- A message whose lease check names a context that is trapped or switched out (R137). -/
def namedAway (s : State) (m : Msg) : Bool :=
  m.checked && (match (ctxOf s (agentLocal m.dest)).run with | .trapped => true | .savedOut => true | _ => false)

/-- Apex firmware serves fault records on its cores without an entry of the routine table (R125, R200). -/
def firmwareServes (k cls : Nat) : Bool := isApex k && cls = 26

/-- What an arrival meets: an inbox slot, or a refusal, 0 for one that is retried. A core that start-up has put out of use refuses as a sealed
one does (log 96). -/
def arrivalAt (s : State) (k : Nat) (m : Msg) : Nat ⊕ Nat :=
  if !(takesWork s k) then .inr cDeadPeer
  else if (serving s k m.cls).isNone && !(firmwareServes k m.cls) then .inr cUndeliverable
  else if m.checked && m.lease ≠ (ctxOf s (agentLocal m.dest)).lease then .inr cStale
  else if namedAway s m then .inr 0
  else match freeOrdinary s k with | some i => .inl i | none => .inr 0

/-- A message is refused at core k: the refusal flies back to where its entry is (R139). -/
def refuse (s : State) (f : MsgFlight) (k code : Nat) : State :=
  returnMsg (modCore s k (fun x => { x with counters := { x.counters with refused := x.counters.refused + 1 } })) f.id code (latency (vertexOf k) f.from_)

/-- Messages from one sender core to one destination core that meet no refusal are accepted in the order in which they left (R171), none
before a fence of its context that names path 4 has completed (R180). -/
def inOrder (s : State) (f : MsgFlight) : Bool :=
  f.msg.attempts ≠ 0 ||
    !(s.flights.any (fun h => h.ctx < 65536 && agentOf s h.ctx = f.msg.sender && h.id < f.id && (match h.op with | .fence _ dst => nbit dst 4 | _ => false))) && !(s.messages.any (fun g => g.id < f.id && g.home = f.home && g.msg.sender / 8 = f.msg.sender / 8 && g.phase = .flying && g.msg.attempts = 0 && g.msg.placed.isNone &&
    agentDevice g.msg.dest = agentDevice f.msg.dest && coreOf (agentLocal g.msg.dest) = coreOf (agentLocal f.msg.dest)))

/-- A host launch takes a retry entry of the bridge at (8, 0) and leaves; its first instruction issues 720 cycles later at the earliest (R18); its
msgid is not stated (R184, R385; log 17). -/
def hostLaunch (s : State) (target : Word) (l : List Word) : State :=
  let (w, s) := freeWord s
  let dest := target.toNat % 2 ^ 27
  modMsg (sendOut s .host (mkVertex 8 0) { newMsg 27 0 (w.setWidth 16) 0 dest l with fromHost := true }) s.nextId (fun f =>
    if f.phase = .flying then { f with due := max f.due (s.cycle + 719) } else f)

/-- The oldest launch that waits in the bridge takes an entry that is free (R385). -/
def pumpHost (s : State) : State :=
  match s.host.waitingLaunches with
  | [] => s
  | (_, t, l) :: r => if entriesOf s .host < 32 then hostLaunch { s with host := { s.host with waitingLaunches := r } } t l else s

/-- A message is accepted: its entry is free. -/
def accepted (s : State) (f : MsgFlight) : State := pumpHost (finishMsg (dropMsg s f.id) f.msg)

/-- What another device does with a message is not this module's state: it accepts, or answers with a refusal (R176; log 17). A device that
no route reaches any more refuses through its port (R15); a pair is retried whatever the refusal (R139). -/
def remoteArrival (s : State) (f : MsgFlight) (d : Nat) : State :=
  let back := fabricHop s f.from_ d false
  if s.peersStopped.contains d then s
  else if s.peersLost.contains d then returnMsg s f.id (if f.msg.pair.isSome then 0 else cDeadPeer) back
  else if !(reachable s d) then returnMsg s f.id (if f.msg.pair.isSome then 0 else cUndeliverable) back
  else
    let code := (Config.remoteFault s.free).toNat
    let s := peerSpoke { s with free := s.free + 1 } d
    if f.msg.pair.isNone && (code = cUndeliverable || code = cStale || code = cDeadPeer) then returnMsg s f.id code back
    else if code = 1 then returnMsg s f.id 0 back
    else accepted s f

/-- MESSAGE_ARRIVAL: a message for one core, launches and placed items apart. -/
def execMessageArrival (id : Nat) (s : State) : Host.Outcome State Fault Refusal :=
  .next (match msgOf s id with
    | none => s
    | some f =>
      if f.phase ≠ .flying || f.msg.placed.isSome || s.cycle < f.due || !(inOrder s f) then s
      else if agentDevice f.msg.dest ≠ s.device then remoteArrival s f (agentDevice f.msg.dest)
      else if f.msg.cls = 27 then s
      else
        let k := coreOf (agentLocal f.msg.dest)
        match arrivalAt s k f.msg with
        | .inr code => refuse s f k code
        | .inl i => accepted (putSlot s k i { f.msg with attempts := f.msg.attempts + 1 } .waiting) f)

/-- REFUSAL_RETURN: the refusal is back where the entry is held (R139); codes other than a plain refusal end the message at once. One for
another device has left. -/
def execRefusalReturn (id : Nat) (s : State) : Host.Outcome State Fault Refusal :=
  .next (match msgOf s id with
    | none => s
    | some f =>
      match f.phase with
      | .returning code =>
        if s.cycle < f.due then s
        else if f.home = .remote then dropMsg s id
        else if code ≠ 0 then setPhase (finishMsg s f.msg) id (.notice code)
        else if f.msg.pair.isNone && 12 ≤ f.msg.attempts then setPhase (finishMsg s f.msg) id (.notice cUndeliverable)
        else setPhase s id (.backoff (s.cycle + backoffWait (f.msg.attempts + 1)))
      | _ => s)

/-- MESSAGE_RETRY: the wait is over (a host launch has HOST_LAUNCH_RETRY), or an entry of the vertex's pair retry buffer is free for the
oldest pair that waits (R139). -/
def execMessageRetry (id : Nat) (s : State) : Host.Outcome State Fault Refusal :=
  .next (match msgOf s id with
    | none => s
    | some f =>
      match f.phase with
      | .backoff due =>
        if s.cycle < due || f.home = .host then s
        else
          let s := flyMsg s id
          match f.home with
          | .core k => modCore s k (fun x => { x with counters := { x.counters with retries := x.counters.retries + 1 } })
          | _ => s
      | .queued =>
        if entriesOf s f.home < 64 && ((s.messages.find? (fun m => m.home = f.home && m.phase = .queued)).map (·.id) = some id) then flyMsg s id else s
      | _ => s)

/-- A message that the device makes itself: what m0 holds beside the class is not stated (log 17). -/
def deviceMsg (s : State) (cls dest : Nat) (payload : List Word) : Msg × State :=
  let (w, s) := freeWord s
  ({ newMsg cls (w.toNat % 2 ^ 27) (BitVec.ofNat 16 (bits w.toNat 42 27)) (BitVec.ofNat 16 (bits w.toNat 58 43)) dest payload with attempts := 1 }, s)

/-- NOTICE_DELIVERY: a notice enters a notice slot of its sender's core, or of the apex core; for a host launch the host gets an
event of type 2, for which its entry waits while the backlog is full (R137, R185, R202, R384, R385); one for an agent of another device
leaves through its port (R176). -/
def execNoticeDelivery (id : Nat) (s : State) : Host.Outcome State Fault Refusal :=
  .next (match msgOf s id with
    | none => s
    | some f =>
      match f.phase with
      | .notice code =>
        if s.cycle < f.due then s
        else if f.msg.fromHost then
          (if 4096 ≤ s.host.backlog.length then s
          else pumpHost (hostEvent (dropMsg s id) 2 (BitVec.ofNat 64 (f.msg.msgid.toNat + f.msg.dest * 2 ^ 16))))
        else if agentDevice f.msg.sender ≠ s.device then dropMsg s id
        else
          let cls := noticeClass code
          match noticeCore s f.msg.sender cls with
          | none => s
          | some k =>
            match freeNotice s k with
            | none => s
            | some i =>
              let (m, s) := deviceMsg s cls (agentId s.device (8 * k)) (noticePayload code f.msg)
              let s := putSlot (dropMsg s id) k i m .waiting
              if code = cUndeliverable then
                modCore s k (fun x => { x with counters := { x.counters with undeliv := x.counters.undeliv + 1 } })
              else s
      | _ => s)

/-! ### Launches (R183, R184) -/

/-- The oldest launch that waits in an inbox. -/
def waitingLaunch (s : State) (k : Nat) : Option Slot := (coreAt s k).inbox.find? (fun q => q.msg.cls = 27 && q.phase = .waiting)

/-- A launch at its core: it starts the lowest idle context, unless another waits already, or waits in a slot, or is refused (R184). -/
def launchAt (s : State) (f : MsgFlight) (k : Nat) : State :=
  match (if (waitingLaunch s k).isNone then idleOf s k else none), freeOrdinary s k with
  | some c, _ => accepted (startLaunch s c f.msg.payload) f
  | none, some i => accepted (putSlot s k i { f.msg with attempts := f.msg.attempts + 1 } .waiting) f
  | none, none => refuse s f k 0

/-- LAUNCH: a launch for one core starts a context there, waits in a slot, or is refused. -/
def execLaunch (id : Nat) (s : State) : Host.Outcome State Fault Refusal :=
  .next (match msgOf s id with
    | none => s
    | some f =>
      let m := f.msg
      let c := agentLocal m.dest
      let k := coreOf c
      if f.phase ≠ .flying || m.placed.isSome || m.cls ≠ 27 || agentDevice m.dest ≠ s.device || s.cycle < f.due || !(inOrder s f) then s
      else if !(takesWork s k) then refuse s f k cDeadPeer
      else if !(launchOk m.payload) then refuse s f k cUndeliverable
      else if f.home ≠ .host && isApex (coreOf (agentLocal m.sender)) && apexReserved s c then accepted (startLaunch s c m.payload) f
      else launchAt s f k)

/-- WAITING_LAUNCH_START (R184, R187). -/
def execWaitingLaunchStart (core : Nat) (s : State) : Host.Outcome State Fault Refusal :=
  .next (match waitingLaunch s core, idleOf s core with
    | some q, some c => startLaunch (freeSlot s core q.index) c q.msg.payload
    | _, _ => s)

/-! ### The selector (R126, R187) -/

/-- The message of a trapped handler stays where it is until the supervisor releases it (R31, R201). -/
def slotHeld (s : State) (k i : Nat) : Bool := (List.range 8).any (fun j => (ctxOf s (8 * k + j)).slot = some i && (ctxOf s (8 * k + j)).run ≠ .idle)

/-- The oldest message of a class that a context may run: the selector sees what waited at the end of the previous cycle (R126). -/
def messageFor (s : State) (c cls : Nat) : Option Slot :=
  (coreAt s (coreOf c)).inbox.find? (fun q => q.msg.cls = cls && q.phase = .waiting && q.since < s.cycle && !(slotHeld s (coreOf c) q.index) &&
    (!q.msg.checked || agentLocal q.msg.dest = c))

/-- The next drain of a core's column group, by job and row, of those that stood at the end of the previous cycle (R126, R331). -/
def nextDrain (s : State) (k : Nat) : Option (Nat × Seg) :=
  if !(isExecute k) then none
  else
    let l := (colOf s (vertexOf k) (coreNo k)).segs.filter (fun e => e.2.state = .draining && !e.2.started && !e.2.poison && e.2.since < s.cycle)
    let order := (clusterAt s (vertexOf k)).ended.map (·.jid)
    match order.findSome? (fun j => l.find? (fun e => e.2.jid = j)) with
    | some e => some e
    | none => l.head?

/-- Whether routine j has something to run on a context. -/
def hasWork (s : State) (c j : Nat) : Bool :=
  let w := routineAt s (coreOf c) j
  routineValid w && !(isHeld s (coreOf c) j) &&
    (if routineClass w = 30 then (nextDrain s (coreOf c)).isSome else (messageFor s c (routineClass w)).isSome)

/-- The routine that the selector chooses for an idle context. -/
def chooseRoutine (s : State) (c : Nat) : Option Nat :=
  let k := coreOf c
  let l := ((List.range 16).map (fun i => ((coreAt s k).last + 1 + i) % 16)).filter (hasWork s c)
  l.foldl (fun (b : Option Nat) j => match b with
    | some i => if routinePrio (routineAt s k i) < routinePrio (routineAt s k j) then some j else b
    | none => some j) none

/-- Idle contexts of a core, lowest first. -/
def idleContexts (s : State) (k : Nat) : List Nat :=
  if (idleOf s k).isNone then [] else ((List.range 8).map (8 * k + ·)).filter (fun c => (ctxOf s c).run = .idle && (ctxOf s c).readyAt ≤ s.cycle)

/-- A handler starts with the values of Table 04-9; that of a NET node's seed issues 192 cycles after the node's last predecessor completed, at the
earliest (R18, R189). -/
def startHandler (s : State) (c j : Nat) : State :=
  let k := coreOf c
  let w := routineAt s k j
  let s := modCore s k (fun x => { x with last := j })
  if routineClass w = 30 then
    match nextDrain s k with
    | none => s
    | some (row, g) =>
      let v := vertexOf k
      let d := (clusterAt s v).ended.find? (fun e => e.jid = g.jid)
      let s := setSeg s v (coreNo k) row { g with started := true }
      startCtx s c (fun x => { x with
        pc := codePc s ((d.map (·.entry)).getD 0), hmode := true, routine := j, acct := (d.bind (fun e => e.accts[coreNo k]?)).getD 0
        budgetKept := some (2 ^ routineBudget w), drain := some (row, g.jid)
        regs := { x.regs with g := sput 0 (sput 0 [] 1 (BitVec.ofNat 64 row)) 2 (BitVec.ofNat 64 g.batch), v := sput 0 [] 0 g.data } })
  else
    match messageFor s c (routineClass w) with
    | none => s
    | some q =>
      let s := modSlot s k q.index (fun r => { r with phase := .running c, routine := j })
      let start := fun (entry : Nat) (acct : BitVec 12) (g : Store Word) =>
        startCtx s c (fun x => { x with
          pc := codePc s entry, hmode := true, routine := j, acct := acct, budgetKept := some (2 ^ routineBudget w), slot := some q.index, mapped := true, pair := q.msg.pair
          regs := { x.regs with g := g } })
      match q.msg.pair with
      | none => start (routineEntry w) (BitVec.ofNat 12 (routineAcct w)) []
      | some p =>
        match p.seed with
        | none => start q.entry q.acct []
        | some (a, b, _) =>
          notBefore (start q.entry q.acct (sput 0 (sput 0 [] 1 a) 2 b)) c (nodeFirst s (bits b.toNat 17 12) (bits b.toNat 11 0))

/-- ROUTINE_SELECT: the lowest-numbered idle context that has a candidate starts it; launches that wait come first. A selection takes a
cycle (R126). -/
def execRoutineSelect (core : Nat) (s : State) : Host.Outcome State Fault Refusal :=
  .next (if (waitingLaunch s core).isSome || (coreAt s core).selectedAt = s.cycle + 1 then s
    else match (idleContexts s core).findSome? (fun c => (chooseRoutine s c).map (fun j => (c, j))) with
    | some (c, j) => startHandler (modCore s core (fun x => { x with selectedAt := s.cycle + 1 })) c j
    | none => s)

/-! ### Deques and steals (R138) -/

/-- The pair routine of a core, when it is not held. -/
def pairRoutine (s : State) (k : Nat) : Option Nat := (serving s k 31).filter (fun j => !(isHeld s k j))

/-- A pair in a slot whose takes are still to leave: its sender is the vertex where it was formed. -/
def pairMsg (s : State) (v : Nat) (p : PairRef) : Msg :=
  { newMsg 31 (agentId s.device (128 * v)) 0 0 0 [] with pair := some p, attempts := 1 }

/-- A class-31 message waits in the inbox; one that is kept there for want of a rule does not bar the deque (the model's choice, log 120). -/
def pairWaits (s : State) (k : Nat) : Bool :=
  (coreAt s k).inbox.any (fun q => q.msg.cls = 31 && (match q.phase with | .waiting => true | .pairWaiting => true | .taking => true | _ => false))

/-- The owner may pop: nothing else may start on its idle context (R138, R187). -/
def ownerPops (s : State) (k : Nat) : Bool :=
  (freeOrdinary s k).isSome && (pairRoutine s k).isSome && !(idleContexts s k).isEmpty && (waitingLaunch s k).isNone && !(pairWaits s k) &&
    !((idleContexts s k).any (fun c => (chooseRoutine s c).isSome))

/-- DEQUE_POP: the owner pops the newest entry (R138, R187). -/
def execDequePop (core : Nat) (s : State) : Host.Outcome State Fault Refusal :=
  .next (match (coreAt s core).deque.getLast?, freeOrdinary s core with
    | some p, some i =>
      if !(ownerPops s core) then s
      else putSlot (modCore s core (fun x => unspill { x with deque := x.deque.dropLast })) core i (pairMsg s (vertexOf core) p) .pairWaiting
    | _, _ => s)

/-- Whether some routine of a core is ready: the inbox holds an undispatched message of its class, or a drain waits (R126). -/
def anyReady (s : State) (k : Nat) : Bool :=
  (coreAt s k).inbox.any (fun q => (serving s k q.msg.cls).isSome && (match q.phase with | .running _ => false | .noRule => false | _ => true)) ||
    ((serving s k 30).isSome && (nextDrain s k).isSome)

/-- A core may steal: an idle context, an empty deque, no ready routine (R138), and a routine for pairs, since stolen pairs are placed items
(R125, R186). -/
def mayStealNow (s : State) (k : Nat) : Bool :=
  !(idleContexts s k).isEmpty && (coreAt s k).deque.isEmpty && !(anyReady s k) && (serving s k 31).isSome

/-- Vertices at a distance, by y, then x. -/
def ringOf (v d : Nat) : List Nat :=
  (List.range 16).flatMap (fun y => ((List.range 32).map (fun x => mkVertex x y)).filter (fun w => distance v w = d))

/-- The victims of a core, in order. -/
def victims (k : Nat) : List Nat :=
  ((List.range 8).map (16 * vertexOf k + ·)).filter (· ≠ k) ++
    (List.range 15).flatMap (fun d => (ringOf (vertexOf k) (d + 1)).flatMap (fun w => (List.range 8).map (16 * w + ·)))

/-- STEAL_PROBE: at most one in each cycle whose number modulo 64 is 8 times the core's; a last entry that its owner may pop in the same cycle
is the owner's (R138). -/
def execStealProbe (core : Nat) (s : State) : Host.Outcome State Fault Refusal :=
  .next (if !(isExecute core) || s.cycle % 64 ≠ 8 * coreNo core || (coreAt s core).probed = s.cycle + 1 then s
    else if !(mayStealNow s core) then modCore s core (fun x => { x with victim := 0 })
    else
      let l := victims core
      let n := (coreAt s core).victim
      let k := l.getD (n % l.length) core
      let s := modCore s core (fun x => { x with probed := s.cycle + 1, victim := (n + 1) % l.length })
      match (coreAt s k).deque with
      | [] => s
      | p :: r =>
        if (coreAt s k).killed || (r.isEmpty && ownerPops s k) || p.radius < distance (vertexOf k) (vertexOf core) then s
        else
          let s := modCore s k (fun x => unspill { x with deque := r })
          modCore s core (fun x => { x with
            victim := 0
            stolen := x.stolen ++ [(s.cycle + 2 * latency (vertexOf core) (vertexOf k) + 6, p)]
            stolenFrom := x.stolenFrom ++ [vertexOf k]
            counters := { x.counters with steals := x.counters.steals + 1 } }))

/-- STEAL_ARRIVAL: the oldest entry that core `id` took reaches it and is dispatched as a popped one (R29, R138). -/
def execStealArrival (id : Nat) (s : State) : Host.Outcome State Fault Refusal :=
  .next (match (coreAt s id).stolen, freeOrdinary s id with
    | (due, p) :: r, some i =>
      if s.cycle < due then s
      else
        let v := (coreAt s id).stolenFrom.headD (vertexOf id)
        putSlot (modCore s id (fun x => { x with stolen := r, stolenFrom := x.stolenFrom.drop 1 })) id i (pairMsg s v p) .pairWaiting
    | _, _ => s)

/-! ### Dispatch of a pair (R29, R122) -/

/-- The made-up words of an inline reference: its symbol, arity 0, kind 0b01 with the value, or 0b00 for a nullary symbol. -/
def inlineWords (r : Word) : List Word :=
  if refKind r = 3 then [BitVec.ofNat 64 (bits r.toNat 31 0 * 2 ^ 32 + 2 ^ 18 + bits r.toNat 47 32), 0, 0] else [BitVec.ofNat 64 (bits r.toNat 15 0), 0, 0]

/-- PAIR_DISPATCH: both takes leave together. -/
def execPairDispatch (core slot : Nat) (s : State) : Host.Outcome State Fault Refusal :=
  .next (modSlot s core slot (fun q =>
    match q.phase, q.msg.pair with
    | .pairWaiting, some p => { q with
        phase := .taking, since := s.cycle
        firstWords := if refKind p.first = 1 then none else some (inlineWords p.first)
        secondWords := if refKind p.second = 1 then none else some (inlineWords p.second) }
    | _, _ => q))

/-- Zero-load cycles from a core to the home slice of a cell (R29). -/
def takeHop (s : State) (k : Nat) (r : Word) : Nat :=
  if refKind r ≠ 1 then 0
  else if refDevice r ≠ s.device then fabricHop s (vertexOf k) (refDevice r) false
  else match cellPlace s (refAddr r) with | some (_, home) => latency (vertexOf k) (sliceVertex (home % 2048)) | none => 0

/-- Cycles from the beginning of a dispatch to a ready slot, at least: 2L + 6 to the farther cell, 1 for two inline references (R29). -/
def dispatchTime (s : State) (k : Nat) (p : PairRef) : Nat :=
  if refKind p.first ≠ 1 && refKind p.second ≠ 1 then 1 else 2 * max (takeHop s k p.first) (takeHop s k p.second) + 6

/-- The holder word of a cell (Table 06-2). -/
def holderCell (device a : Nat) : Word := BitVec.ofNat 64 (3 * 2 ^ 61 + device * 2 ^ 50 + a)

/-- The words of a take go into the slot, with the tokens and shares that came with the cell. -/
def giveTake (s : State) (k i : Nat) (second : Bool) (ws : List Word) (l : List (Nat × Bool)) : State :=
  modSlot s k i (fun q => if second then { q with secondWords := some ws, secondTokens := l } else { q with firstWords := some ws, firstTokens := l })

/-- Symbols of a pair as m5 of a NO-RULE record gives them (R395). -/
def pairSymbols (x y : Nat) : Word := BitVec.ofNat 64 (x * 65536 + y)

/-- A stored cell among the two of a pair that is malformed (R22). -/
def badCell (p : PairRef) (a b : List Word) : Option Word :=
  if refKind p.first = 1 && !(cellOk a) then some p.first
  else if refKind p.second = 1 && !(cellOk b) then some p.second else none

/-- A cell that was taken stands again as it was found, with the tokens that were parked on it (R198; log 25). -/
def giveBack (s : State) (k i : Nat) (r : Word) (taken : Bool) (l : List (Nat × Bool)) : State :=
  if refKind r ≠ 1 || !taken then s
  else
    let s := moveTokens s (holderSlot s.device k i) (holderCell (refDevice r) (refAddr r)) l
    if refDevice r = s.device && itemState s false (refAddr r) = .heldBack then setItem s false (refAddr r) .live else s

/-- A dispatch that fails: the report, no handler for that pair, and both cells as they were found (R29, R198; log 25). -/
def badTake (s : State) (k : Nat) (q : Slot) (p : PairRef) (ref : Word) (code : Nat) : State :=
  let s := reportFor (if code = cPoison then poisonAt s (refAddr ref) else s) k 2 q.msg.sender 0 { code := code, addr := ref }
  let s := giveBack s k q.index p.first q.firstWords.isSome q.firstTokens
  freeSlot (giveBack s k q.index p.second q.secondWords.isSome q.secondTokens) k q.index

/-- CELL_TAKE: one cell is read and freed at its home slice, its block held back, and the tokens parked on it pass to the slot (R29, R116): for
a cell of another device too, when their entries are this module's. What such a cell holds, or that it is no cell, is free (R175; log 17). -/
def execCellTake (core slot : Nat) (second : Bool) (s : State) : Host.Outcome State Fault Refusal :=
  .next (match (coreAt s core).inbox.find? (fun q => q.index = slot) with
    | none => s
    | some q =>
      match q.phase, q.msg.pair with
      | .taking, some p =>
        let ref := if second then p.second else p.first
        let a := refAddr ref
        let d := refDevice ref
        let take := fun (t : State) (ws : List Word) =>
          let l := heldBy t (holderCell d a)
          giveTake (moveTokens t (holderCell d a) (holderSlot t.device core slot) l) core slot second ws l
        if (if second then q.secondWords else q.firstWords).isSome || s.cycle < q.since + takeHop s core ref then s
        else if d ≠ s.device then
          if s.peersStopped.contains d then s
          else if s.peersLost.contains d then badTake s core q p ref cDeadPeer
          else if !(reachable s d) then badTake s core q p ref cUndeliverable
          else if (Config.remoteFault s.free).toNat = cBadRef then badTake { s with free := s.free + 1 } core q p ref cBadRef
          else take (peerSpoke { s with free := s.free + 4 } d) ((List.range 3).map (fun i => Config.remoteWord (s.free + 1 + i)))
        else
          match cellPlace s a with
          | none => badTake s core q p ref cBadRef
          | some (pa, home) =>
            let (ok, s) := reachL2 s (.take core slot second) (home % 2048) pa 24 (home / 2048) false
            if !ok then s
            else if (heapAt s.cellHeaps a).isNone || !(itemState s false a = .live || itemState s false a = .drawn) then badTake s core q p ref cBadRef
            else if anyPoison s pa 24 then badTake s core q p ref cPoison
            else take (setItem s false a .heldBack) ((List.range 3).map (fun i => BitVec.ofNat 64 (readMem s (pa + 8 * i) 8)))
      | _, _ => s)

/-- Whether a pair's account is another device's to give: its first stored cell stands there (R86; log 17). -/
def acctAbroad (s : State) (p : PairRef) : Bool :=
  p.seed.isNone && (let r := if refKind p.first = 1 then p.first else p.second
    refKind r = 1 && refDevice r ≠ s.device)

/-- The account of a pair's handler (R86). -/
def pairAcct (s : State) (k : Nat) (p : PairRef) : BitVec 12 :=
  match p.seed with
  | some (_, _, a) => a
  | none =>
    if acctAbroad s p then (Config.remoteWord s.free).setWidth 12 else
    let of := fun (r : Word) => if refKind r = 1 then (heapAt s.cellHeaps (refAddr r)).map (fun e => e.2.acct) else none
    match of p.first, of p.second with
    | some a, _ => a
    | none, some a => a
    | none, none => match serving s k 31 with | some j => BitVec.ofNat 12 (routineAcct (routineAt s k j)) | none => 0

/-- A slot whose pair is the other way round. -/
def swapSlot (q : Slot) : Slot :=
  { q with
    msg := { q.msg with pair := q.msg.pair.map (fun p => { p with first := p.second, second := p.first }) }
    firstWords := q.secondWords, secondWords := q.firstWords, firstTokens := q.secondTokens, secondTokens := q.firstTokens }

/-- Whether a dispatched pair stands in the wrong order: of a cell of another device the symbol is known only once it is taken (R27). Of two cells
of one symbol on different devices the addresses without the device numbers decide, and the order stays when they are equal (the model's
choice, log 117). -/
def wrongOrder (s : State) (p : PairRef) (x y : Nat) : Bool :=
  ((refKind p.first = 1 && refDevice p.first ≠ s.device) || (refKind p.second = 1 && refDevice p.second ≠ s.device)) &&
    (y < x || (x = y && refKind p.second = 1 && (refKind p.first ≠ 1 || refAddr p.second < refAddr p.first)))

/-- Probes of a walk of the rule table. -/
def probeCount (s : State) (x y : Nat) : Nat → Nat → Nat
  | 0, _ => 0
  | fuel + 1, h =>
    match probeRules s x y 1 h, translateNow s ((s.ruleBase + 16 * (h % 2 ^ s.ruleLog)) % 2 ^ 53) false with
    | none, .ok (pa, _, _) => if nbit (readMem s pa 8) 0 then 1 + probeCount s x y fuel (h + 1) else 1
    | _, _ => 1

/-- Cycles that a miss of the rule cache adds to a dispatch (R122). -/
def ruleTime (s : State) (k x y : Nat) : Nat :=
  if (coreAt s k).ruleCache.any (fun e => e.1 = x && e.2.1 = y) then 0
  else
    let h := x + 3 * y
    let l := match translateNow s ((s.ruleBase + 16 * (h % 2 ^ s.ruleLog)) % 2 ^ 53) false with
      | .ok (_, home, _) => latency (vertexOf k) (sliceVertex (home % 2048))
      | .error _ => 0
    2 * l + 6 + probeCount s x y 16 h - 1

/-- The pair of a slot is looked up under its symbols: its routine is ready, after the time of a rule-cache miss, or it stays at the inbox head
and NO-RULE is reported (R27, R122), or POISON when a probe met a poisoned entry of the table (R91; log 125). -/
def readyPair (s : State) (core : Nat) (q : Slot) (p : PairRef) (a b : List Word) : State :=
  let x := (a.headD 0).toNat % 65536
  let y := (b.headD 0).toNat % 65536
  let late := ruleTime s core x y
  let (r, s) := ruleLookup s core x y
  let q := { q with msg := { q.msg with payload := a ++ b } }
  match r with
  | some (_, w1) => modSlot (if acctAbroad s p then { s with free := s.free + 1 } else s) core q.index (fun _ => { q with phase := .waiting, since := s.cycle + late, entry := w1.toNat % 2 ^ 53, acct := pairAcct s core p })
  | none =>
    let code := if rulePoisoned s x y 16 ((x + 3 * y) % 2 ^ s.ruleLog) then cPoison else cNoRule
    let s := reportFor s core 2 q.msg.sender 0 { code := code, detail := pairSymbols x y }
    modCore s core (fun k => { k with inbox := { q with phase := .noRule } :: k.inbox.filter (fun r => r.index ≠ q.index) })

/-- PAIR_SLOT_READY: both takes are back, the rule is looked up and the routine is ready; a malformed cell is reported as a bad take
(R22, R29). The pair runs under the core's one valid routine of class 31; the routine field of its rule entry is not read (R121; log 109). -/
def execPairSlotReady (core slot : Nat) (s : State) : Host.Outcome State Fault Refusal :=
  .next (match (coreAt s core).inbox.find? (fun q => q.index = slot) with
    | none => s
    | some q =>
      match q.phase, q.msg.pair, q.firstWords, q.secondWords with
      | .taking, some p, some a, some b =>
        if s.cycle < q.since + dispatchTime s core p then s
        else match badCell p a b with
        | some ref => badTake s core q p ref cBadRef
        | none =>
          if wrongOrder s p ((a.headD 0).toNat % 65536) ((b.headD 0).toNat % 65536) then
            readyPair s core (swapSlot q) { p with first := p.second, second := p.first } b a
          else readyPair s core q p a b
      | _, _, _, _ => s)

/-! ### Placement by locus (R186) -/

/-- The vertices of the ordered-class route from one vertex to another: along x, then along y (R17). -/
def routeOf (v w : Nat) : List Nat :=
  let xs := if vx v ≤ vx w then (List.range (vx w - vx v + 1)).map (vx v + ·) else (List.range (vx v - vx w + 1)).map (vx v - ·)
  let ys := if vy v ≤ vy w then (List.range (vy w - vy v)).map (vy v + 1 + ·) else (List.range (vy v - vy w)).map (fun i => vy v - 1 - i)
  xs.map (fun x => mkVertex x (vy v)) ++ ys.map (fun y => mkVertex (vx w) y)

/-- The first core of a vertex, when that is within the radius of the locus, that takes an item: with an idle context, and for a pair a pair
routine that is not held. -/
def takerOf (s : State) (v locus radius : Nat) (pair : Bool) : Option Nat :=
  if radius < distance v locus then none
  else ((List.range 8).map (16 * v + ·)).find? (fun k => (idleOf s k).isSome && (!pair || (pairRoutine s k).isSome))

/-- The core of the locus with the most free ordinary slots, the lowest-numbered of equals. -/
def locusCore (s : State) (v : Nat) : Option Nat :=
  (((List.range 8).map (16 * v + ·)).filter (takesWork s)).foldl (fun (b : Option Nat) k =>
    match b with | some x => if freeCount s x < freeCount s k then some k else b | none => some k) none

/-- An item joins the inbox of a core of its locus, or is refused there; a core without a pair routine reports the first such refusal of each
pair message (R125). -/
def joinLocus (s : State) (f : MsgFlight) (k : Nat) : State :=
  let m := { f.msg with attempts := f.msg.attempts + 1 }
  match m.pair with
  | none => launchAt s f k
  | some p =>
    if (serving s k 31).isNone then
      let s := refuse s f k 0
      if f.told then s
      else modMsg (reportFor s k 2 m.sender 0 { code := cNoRule, reason := 1, detail := pairSymbols (symbolOf s p.first) (symbolOf s p.second) }) f.id (fun g => { g with told := true })
    else match freeOrdinary s k with
    | some i => accepted (putSlot s k i m .pairWaiting) f
    | none => refuse s f k 0

/-- PAIR_PLACEMENT: a placed item reaches the next vertex of its route, once it has flown so far: a core there takes it, or it goes on; at its
locus it joins an inbox (R12, R186). -/
def execPairPlacement (id : Nat) (s : State) : Host.Outcome State Fault Refusal :=
  .next (match msgOf s id with
    | none => s
    | some f =>
      match f.phase, f.msg.placed with
      | .flying, some (locus, radius, device) =>
        let route := routeOf f.from_ locus
        let v := route.getD f.hops locus
        if s.cycle < f.due then s
        else if device ≠ s.device then remoteArrival s f device
        else if f.msg.pair.isNone && !(launchOk f.msg.payload) then returnMsg s id cUndeliverable (latency f.from_ locus)
        else if s.cycle < f.due + latency f.from_ v then s
        else match takerOf s v locus radius f.msg.pair.isSome with
        | some k => joinLocus s f k
        | none =>
          if f.hops + 1 < route.length then modMsg s id (fun g => { g with hops := g.hops + 1 })
          else match locusCore s locus with
          | some k => joinLocus s f k
          | none => returnMsg s id (if f.msg.pair.isSome then 0 else cDeadPeer) (latency f.from_ locus)
      | _, _ => s)

end Sys2Proof.Machine
end

