-- ==== Sys2Proof/Machine/Firmware.lean ====
section
/-! DEFINITION. What the apex firmware does: delivery of fault records, the three ends of a trap, kills and their containment, recovery
of regions, reserved contexts, and the services that ralload asks for (R118, R121 to R125, R130, R138, R195, R200 to R203, R206, R215 to
R218, R305). Which of them comes when is the firmware's policy, so each is a turn (log 14). -/

namespace Sys2Proof.Machine

/-- Firmware runs for a context's die (R216). -/
def firmwareUp (s : State) (c : Nat) : Bool := (apexOf s (dieOf (vertOf c))).isSome

/-! ### Fault records (R200) -/

/-- A slot of an apex core for a class-26 message: a free one, or that of the oldest record, which the firmware has read, when no routine
of the core serves the class (log 14). -/
def recordSlot (s : State) (k : Nat) : Option Nat :=
  match freeOrdinary s k with
  | some i => some i
  | none =>
    if (serving s k 26).isSome then none
    else ((coreAt s k).inbox.find? (fun q => q.msg.cls = 26 && q.phase = .waiting)).map (·.index)

/-- The first core of a die that keeps a record for want of room in the queue. -/
def keeperOf (s : State) (d : Nat) : Option Nat := (s.cores.find? (fun e => dieOf (vertexOf e.1) = d && !e.2.heldRecords.isEmpty)).map (·.1)

/-- A kept record moves up when the queue has room. -/
def refillQueue (s : State) (d : Nat) : State :=
  match keeperOf s d with
  | none => s
  | some k =>
    match (coreAt s k).heldRecords with
    | [] => s
    | r :: l => setDie (modCore s k (fun x => { x with heldRecords := l })) d { dieAt s d with faultQueue := (dieAt s d).faultQueue ++ [r] }

/-- FAULT_QUEUE_DELIVERY: the oldest record of a die becomes a class-26 message in the inbox of its apex core. -/
def execFaultQueueDelivery (die : Nat) (s : State) : Host.Outcome State Fault Refusal :=
  .next (match (dieAt s die).faultQueue, apexOf s die with
    | r :: l, some k =>
      match recordSlot s k with
      | none => s
      | some i =>
        let (m, s) := deviceMsg s 26 (agentId s.device (8 * k)) r
        refillQueue (setDie (putSlot (freeSlot s k i) k i m .waiting) die { dieAt s die with faultQueue := l }) die
    | _, _ => s)

/-! ### The three ends of a trap (R201) -/

/-- A context that the apex may end the trap of: trapped, or stopped by its watchdog or by a disagreement, on a live core (R214, R323). -/
def heldByFault (s : State) (c : Nat) : Bool :=
  firmwareUp s c && !((coreAt s (coreOf c)).killed) && (match (ctxOf s c).run with | .trapped => true | .stopped => true | _ => false)

/-- TRAP_RESUME: not for a handler, nor for the copies that disagreed. -/
def execTrapResume (c : Nat) (s : State) : Host.Outcome State Fault Refusal :=
  .next (let x := ctxOf s c
    if !(heldByFault s c) || x.hmode || (x.lockstep && (ctxOf s (partnerOf c)).run = .stopped) then s else resumeTrap s c)

/-- TRAP_RELEASE: refused for a committed-in-part handler. -/
def execTrapRelease (c : Nat) (s : State) : Host.Outcome State Fault Refusal :=
  .next (let x := ctxOf s c
    if firmwareUp s c && x.run = .trapped && x.hmode && !x.cip then releaseTrap s c else s)

/-- A retired handler's message goes back to its sender as STALE, and the blocks of a pair are free. -/
def dropMessage (s : State) (c : Nat) : State :=
  match slotOf s c with
  | none => s
  | some q =>
    let s := match q.msg.pair with | some p => releaseBlocks s p | none => s
    noticeFlight (freeSlot s (coreOf c) q.index) (coreOf c) cStale q.msg

/-- A retired member: the gang counts its end and is lost (R201, R259). -/
def retireMember (s : State) (c : Nat) : State :=
  let x := ctxOf s c
  match x.gang.bind (fun g => (gangAt s g).map (fun y => (g, y))) with
  | none => s
  | some (g, y) =>
    let s := leaveBarrier s c
    let s := modCtx s c (fun z => { z with gang := none })
    loseGang (setGang s g (some { y with ended := y.ended ++ [x.member], arrived := ((gangAt s g).map (·.arrived)).getD [] })) g

/-- Retire: the context is idle, its lease one higher. -/
def retireCtx (s : State) (c : Nat) : State :=
  let x := ctxOf s c
  let s := if x.hmode then dropMessage s c else s
  let s := retireMember (closeChord s c) c
  let s := if x.lockstep then idleCtx s (partnerOf c) else s
  raiseLease (idleCtx s c) c

/-- TRAP_RETIRE. -/
def execTrapRetire (c : Nat) (s : State) : Host.Outcome State Fault Refusal := .next (if heldByFault s c then retireCtx s c else s)

/-! ### Kill and containment (R203, R215, R216, R218) -/

/-- CORE_KILL: by the checker or an uncorrectable error at the core's issuing context, or by the firmware. -/
def execCoreKill (core : Nat) (checker : Bool) (s : State) : Host.Outcome State Fault Refusal :=
  .next (killCore s core (8 * core + if checker then (coreAt s core).turn else 0))

/-- The cells that a pair's dispatch took stand again, with what was parked on them, so that the pair runs afresh elsewhere (R203; log 25). -/
def untakePair (s : State) (k : Nat) (q : Slot) (p : PairRef) : State :=
  giveBack (giveBack s k q.index p.first q.firstWords.isSome q.firstTokens) k q.index p.second q.secondWords.isSome q.secondTokens

/-- One accepted message of a killed core goes on: a pair or placed launch toward its locus, a fault record back into the queue, any
other as a class-28 notice (R203). -/
def drainSlot (k : Nat) (s : State) (q : Slot) : State :=
  match q.msg.pair, q.msg.placed with
  | some p, _ => sendPairAs (untakePair s k q p) (vertexOf k) q.msg.sender p
  | none, some _ => sendOut s .device (vertexOf k) q.msg
  | none, none =>
    if q.msg.cls = 26 then
      let d := dieOf (vertexOf k)
      setDie s d { dieAt s d with faultQueue := q.msg.payload :: (dieAt s d).faultQueue }
    else noticeFlight s k cDeadPeer q.msg

/-- Step 4 of Table 14-2: inbox, deque, spill region, entries on their way to it, reservoir (R304). A pair keeps the sender under which it was
formed (R77). -/
def drainCore (s : State) (k : Nat) : State :=
  let x := coreAt s k
  let s := modCore s k (fun y => { y with inbox := [], deque := [], spill := [], stolen := [], stolenFrom := [], reservoir := [], requests := [] })
  let s := x.inbox.foldl (drainSlot k) s
  let s := (x.deque ++ x.spill).foldl (fun t p => sendPair t (vertexOf k) p) s
  let s := (x.stolen.map (·.2)).zipIdx.foldl (fun t e => sendPairAs t (vertexOf k) (agentId s.device (128 * x.stolenFrom.getD e.2 (vertexOf k))) e.1) s
  x.reservoir.foldl (fun t e => setItem t e.1 e.2.2 .free) s

/-- A region parked on a request's record: where the record stands, its home with the class, and its batch graph (R111, R127). -/
def recordOf (s : State) (t : Token) : Option (Nat × Nat × Nat) :=
  if holderKind t.holder ≠ 4 || bits t.holder.toNat 60 50 ≠ s.device then none
  else match translateNow s (holderVal t.holder % 2 ^ 50) true with
  | .ok (pa, home, _) => some (pa, home, bits (readMem s (pa + 0x18) 8) 15 12)
  | .error _ => none

/-- A region with wr = 1 that a record of one of these batch graphs holds is tainted, and its request, when it is in the batch, is
faulted (R207, R218). -/
def taintOne (graphs : List Nat) (s : State) (t : Token) : State :=
  match recordOf s t with
  | none => s
  | some (pa, home, g) =>
    if !t.wr || !(graphs.contains g) then s
    else
      let s := setToken s { t with taint := true }
      if recordState s pa = 2 || recordState s pa = 3 then faultRecord s pa home (some g) cTainted else s

/-- The batch graphs of the instances whose nodes ran on a killed core taint what their requests hold (R218). -/
def taintRequests (s : State) (k : Nat) : State :=
  let graphs := ((List.range 8).filterMap (fun i => graphOfCtx s (8 * k + i))).flatMap (stepNumbers s)
  (s.tokens.filterMap (·.2)).foldl (taintOne graphs) s

/-- A reclaimed region: to the recovery core of its account as a class-24 message, or freed (R217). -/
def reportRegion (s : State) (t : Token) (dead : Nat) : State :=
  match (accountOf s t.acct.toNat).recovery with
  | none => freeRegion s t
  | some k =>
    let (m, s) := deviceMsg s 24 (agentId s.device (8 * k))
      [BitVec.ofNat 64 t.base, BitVec.ofNat 64 (t.lsize + t.taint.toNat * 256), BitVec.ofNat 64 dead, 0, 0, 0]
    sendOut { s with reclaimed := s.reclaimed ++ [{ base := t.base, lsize := t.lsize, taint := t.taint, dead := dead, core := k }] } .device (vertexOf k) m

/-- Report the regions that claims gave to the apex and whose dead agents meet a test, those of a TKCLAIM before the containment too (R216
step 7, R217). -/
def reportClaimed (s : State) (dead : Nat → Bool) : State :=
  let mine := s.claimed.filter (fun e => dead e.2)
  mine.foldl (fun t e => match sget none t.tokens e.1 with | some u => reportRegion t u e.2 | none => t)
    { s with claimed := s.claimed.filter (fun e => !(dead e.2)) }

/-- A gang that had members on a killed core is retired there: they count as ended, and it is lost (R201, R216). -/
def retireOn (k : Nat) (s : State) (g : Nat) : State :=
  match gangAt s g with
  | none => s
  | some y => loseGang (setGang s g (some { y with ended := y.ended ++ ((y.members.filter (fun m => coreOf m.2 = k)).map (·.1)).filter (fun m => !(y.ended.contains m)) })) g

/-- CONTAINMENT: the steps of Table 14-2. -/
def execContainment (core : Nat) (s : State) : Host.Outcome State Fault Refusal :=
  .next (match apexOf s (dieOf (vertexOf core)) with
    | none => s
    | some a =>
      if !((coreAt s core).killed) then s
      else
        let s := modCore s core (fun x => { x with sealed_ := true })
        let s := taintRequests s core
        let (s, _, mine) := claimCore s core (holderAgent (agentOf s (8 * a)))
        let s := drainCore (noteClaimed s mine) core
        let s := (gangsOn s core).foldl (retireOn core) s
        let s := (List.range 8).foldl (fun t i => modCtx t (8 * core + i) (fun x => { x with gang := none, pair := none })) s
        let s := if isExecute core then modCluster s (vertexOf core) (fun x => { x with unfit := true }) else s
        reportClaimed s (fun w => agentDevice w = s.device && coreOf (agentLocal w) = core))

/-- The answer of a recovery routine that waits at the apex core which holds the region: m1 and m2 as asked, from the core that was told of
it (R217). -/
def answerAt (s : State) (t : Token) (r : Report) (clean : Bool) (holder : Nat) : Option (Nat × Nat) :=
  (coreOfHolder s t.holder).bind (fun h => (apexOf s (dieOf (vertexOf h))).bind (fun k =>
    ((coreAt s k).inbox.find? (fun q => q.msg.cls = 24 && q.phase = .waiting && agentDevice q.msg.sender = s.device &&
      coreOf (agentLocal q.msg.sender) = r.core && nbit (q.msg.payload.getD 0 0).toNat 0 = clean &&
      (!clean || (q.msg.payload.getD 1 0).toNat % 2 ^ 27 = holder))).map (fun q => (k, q.index))))

/-- REGION_RECOVERY: the region is cleaned and lent to the agent named, or freed (R217). -/
def execRegionRecovery (base : Nat) (clean : Bool) (holder : Nat) (s : State) : Host.Outcome State Fault Refusal :=
  .next (match sget none s.tokens base, s.reclaimed.find? (fun r => r.base = base) with
    | some t, some r =>
      match answerAt s t r clean holder with
      | none => s
      | some (k, i) =>
        let s := { freeSlot s k i with reclaimed := removeFirst (fun x => x = r) s.reclaimed }
        if !clean then freeRegion s t
        else if !(namesAgent holder) then s
        else setToken s { withHolder t (holderAgent holder) t.holder true with taint := false }
    | _, _ => s)

/-! ### Services -/

/-- A routine table entry whose reserved bits are zero and whose fields are in range (Table 07-2). -/
def routineOk (w0 w1 : Word) : Bool :=
  bits w0.toNat 63 53 = 0 && w0.toNat % 8 = 0 && bits w1.toNat 34 12 = 0 &&
    (!(nbit w1.toNat 63) || (10 ≤ bits w1.toNat 39 35 && bits w1.toNat 39 35 ≤ 31))

/-- ROUTINE_WRITE: refused while a context runs the entry, while a message of its class waits, for a second entry of a class, and
in place of another resident's valid entry (R124, R125, R377). -/
def execRoutineWrite (core index : Nat) (w0 w1 : Word) (s : State) : Host.Outcome State Fault Refusal :=
  .next (
    let old := routineAt s core index
    let runs := (List.range 8).any (fun i => let x := ctxOf s (8 * core + i)
      x.hmode && x.routine = index && x.run ≠ .idle && x.run ≠ .reserved)
    let waits := routineValid old && (coreAt s core).inbox.any (fun q => q.msg.cls = routineClass old && (match q.phase with | .running _ => false | _ => true))
    let second := nbit w1.toNat 63 && (List.range 16).any (fun j => j ≠ index && routineValid (routineAt s core j) && routineClass (routineAt s core j) = bits w1.toNat 62 58)
    let foreign := nbit w1.toNat 63 && routineValid old && routineAcct old ≠ routineAcct (w0, w1)
    if !(coreExists core) || 16 ≤ index || !(routineOk w0 w1) || runs || waits || second || foreign then s
    else modCore s core (fun x => { x with routines := sput routineReset x.routines index (w0, w1) }))

/-- Where an entry of the rule table stands (R121). -/
def rulePlace (s : State) (i : Nat) : Option Nat :=
  match translateNow s ((s.ruleBase + 16 * i) % 2 ^ 53) false with | .ok (pa, _, _) => some pa | .error _ => none

/-- A rule may be added at its place: valid, reserved bits zero, the place free and at most 15 beyond its h (R121 to R123). -/
def ruleAddable (s : State) (r : RuleWrite) : Bool :=
  let w := r.w0.toNat
  let n := 2 ^ s.ruleLog
  let h := (bits w 63 48 + 3 * bits w 47 32) % n
  r.index < n && nbit w 0 && bits w 23 1 = 0 && bits r.w1.toNat 63 53 = 0 && r.w1.toNat % 8 = 0 && (r.index + n - h) % n ≤ 15 &&
    (match rulePlace s r.index with | some pa => !(nbit (readMem s pa 8) 0) | none => false)

def writeRule (s : State) (i : Nat) (w0 w1 : Word) : State :=
  match translateNow s ((s.ruleBase + 16 * i) % 2 ^ 53) false with
  | .ok (pa, home, _) => placeWrite s pa home (bytesOf w0.toNat 8 ++ bytesOf w1.toNat 8)
  | .error _ => s

/-- RULE_ADDITION: a set of rules, or none of it (R122, R123). -/
def execRuleAddition (rules : List RuleWrite) (s : State) : Host.Outcome State Fault Refusal :=
  .next (if rules.all (ruleAddable s) && (rules.map (·.index)).Nodup then rules.foldl (fun t r => writeRule t r.index r.w0 r.w1) s else s)

/-- RULE_REMOVAL: the entries are invalid, and every rule cache of the device is (R123). -/
def execRuleRemoval (slots : List Nat) (s : State) : Host.Outcome State Fault Refusal :=
  .next (
    let s := (slots.filter (· < 2 ^ s.ruleLog)).foldl (fun t i => writeRule t i 0 0) s
    (s.cores.map (·.1)).foldl (fun t k => modCore t k (fun x => { x with ruleCache := [] })) s)


/-- CONTEXT_PREEMPT_REQUEST: an idle context is reserved at once, a handler's when the handler ends (R195, R206). -/
def execContextPreemptRequest (c : Nat) (s : State) : Host.Outcome State Fault Refusal :=
  .next (let x := ctxOf s c
    if !(firmwareUp s c) || x.gang.isSome || (coreAt s (coreOf c)).killed then s
    else if x.run = .idle then stealEnds (modCtx s c (fun y => { y with run := .reserved })) (coreOf c)
    else if x.hmode then modCtx s c (fun y => { y with preemptAsked := true })
    else s)

/-- RESERVED_CONTEXT_RELEASE (R206). -/
def execReservedContextRelease (c : Nat) (s : State) : Host.Outcome State Fault Refusal :=
  .next (if apexReserved s c then modCtx s c (fun y => { y with run := .idle, preemptAsked := false }) else s)

/-- A range lies in a commons region of an account. -/
def inCommons (s : State) (base size : Nat) (account : BitVec 12) : Bool :=
  match tokenCovering s base with
  | some t => t.mode = .commons && t.acct = account && base + size ≤ t.base + 2 ^ t.lsize
  | none => false

/-- A core has one more spill region: 32,768 records in a commons region of account 0 (R138). -/
def addSpill (s : State) (core base : Nat) : State :=
  modCore s core (fun x => { x with spillLimit := 32768 * (x.spillBases.length + 1), spillBases := x.spillBases ++ [base] })

/-- The pushes of a core that wait for room: those of an HRET that is held, one at least (R138). -/
def pushesWaiting (s : State) (k : Nat) : Nat :=
  (List.range 8).foldl (fun n i => match (ctxOf s (8 * k + i)).run with | .stalled (.dequeFull m) => max n m | _ => n) 1

/-- SPILL_REGION_ADD: for a core that has no room for what waits; its deque-full event is answered (R138). -/
def execSpillRegionAdd (r : SpillRegion) (s : State) : Host.Outcome State Fault Refusal :=
  .next (if (canPush s r.core (pushesWaiting s r.core) && deepens s r.core) || !(inCommons s r.base (2 ^ 20) 0) then s
    else
      let d := dieOf (vertexOf r.core)
      addSpill (setDie s d { dieAt s d with dequeFull := (dieAt s d).dequeFull.filter (· ≠ r.core) }) r.core r.base)

/-- HEAP_LINE_REGISTRATION: lines of a commons region join a heap, every block or slot of them free but those that static items have
taken (R103, R305, R362); cells and slots stand below 2^50 (R22). -/
def execHeapLineRegistration (wire : Bool) (heap base size account : Nat) (s : State) : Host.Outcome State Fault Refusal :=
  .next (
    let old := heapOf s wire heap
    let acct := BitVec.ofNat 12 account
    let clash := (s.cellHeaps ++ s.wireHeaps).any (fun e => match e.2 with | some h => h.ranges.any (fun r => base < r.1 + r.2 && r.1 < base + size) | none => false)
    if 16 ≤ heap || 4096 ≤ account || size = 0 || base % 256 ≠ 0 || size % 256 ≠ 0 || 2 ^ 50 < base + size || !(inCommons s base size acct) || clash ||
      (match old with | some h => decide (h.acct ≠ acct) | none => false) then s
    else
      let h : Heap := { ranges := (match old with | some h => h.ranges | none => []) ++ [(base, size)], acct := acct }
      if wire then { s with wireHeaps := sput none s.wireHeaps heap (some h) } else { s with cellHeaps := sput none s.cellHeaps heap (some h) })

/-- ACCOUNT_POOL_ADDITION: a free aligned block that no region and no pool covers joins an account's pool (R118). -/
def execAccountPoolAddition (account base lsize : Nat) (s : State) : Host.Outcome State Fault Refusal :=
  .next (
    let meets_ := fun (b l : Nat) => decide (base < b + 2 ^ l) && decide (b < base + 2 ^ lsize)
    let taken := s.tokens.any (fun e => match e.2 with | some t => meets_ t.base t.lsize | none => false)
    let pooled := s.accounts.any (fun e => e.2.pool.any (fun b => meets_ b.1 b.2))
    let a := accountOf s account
    if 4096 ≤ account || base % 2 ^ lsize ≠ 0 || taken || pooled then s
    else setAccount s account { a with pool := poolAdd 64 a.pool (base, lsize) })

/-- BATCH_GRAPH_REGISTER_WRITE: the area is zeroed and the register written for a resident; refused when another resident has set it
(R129, R130). -/
def execBatchGraphRegisterWrite (graph : Nat) (l : BatchLoad) (s : State) : Host.Outcome State Fault Refusal :=
  .next (if 16 ≤ graph || l.base = 0 || l.base % 65536 ≠ 0 || (sget 0 s.batchRegs graph ≠ 0 && sget 0 s.batchOwners graph ≠ l.resident) then s
    else match translateNow s l.base true with
    | .error _ => s
    | .ok (pa, _, _) =>
      let s := zeroFill s pa 65536
      let s := (List.range 256).foldl (fun t i => bumpLine t (pa / 256 + i)) s
      { s with batchRegs := sput 0 s.batchRegs graph l.base, batchOwners := sput 0 s.batchOwners graph l.resident })

end Sys2Proof.Machine
end

