-- ==== Sys2Proof/Machine/HostSide.lean ====
section
/-! DEFINITION. The host bridge and its commands, power, expansion memory, the fabric and start-up (R20, R92, R178, R185, R219, R221,
R222, R382 to R394, R398). -/

namespace Sys2Proof.Machine

/-! ### The aperture (R111, R128, R178, R383) -/

/-- A requester whose launch waits in the bridge: its later posted writes are held back (R385). -/
def launchWaits (s : State) (requester : Nat) : Bool := s.host.waitingLaunches.any (fun w => w.1 = requester)

/-- What else a requester asks for waits while its launch waits, or one of its posted writes for its slices (R178, R385). -/
def heldBack (s : State) (requester : Nat) : Bool := launchWaits s requester || s.host.posted.any (fun w => w.1 = requester)

/-- An access cut at 256-byte lines: address and length of each part. -/
def cutLines : Nat → Nat → Nat → List (Nat × Nat)
  | 0, _, _ => []
  | fuel + 1, a, n => if n = 0 then [] else
    let m := min n (256 - a % 256)
    (a, m) :: cutLines fuel (a + m) (n - m)

/-- Where a part goes: its physical address and home slice, or none when the host may not make the access (R111, R178). A page that is not
writable has no token check (R106). A read is checked as a peek, so that a commons region is served (log 133). -/
def hostPlace (s : State) (va : Nat) (write : Bool) : Option (Nat × Nat) :=
  match translateNow s va write with
  | .error _ => none
  | .ok (pa, home, leaf) =>
    if leafWr leaf && (tokenCheckNow s [holderHost] none va (if write then .sliceop else .peek)).isSome then none else some (pa, home % 2048)

/-- Every part of an access, placed; none when one of them is refused (log 28). -/
def placeAll (s : State) (write : Bool) : List (Nat × Nat) → Option (List (Nat × Nat × Nat × Nat))
  | [] => some []
  | (a, n) :: l =>
    match hostPlace s a write, placeAll s write l with
    | some (pa, slice), some r => some ((a, n, pa, slice) :: r)
    | _, _ => none

/-- The parts reach their slices as traffic class 5 (R97, R101). -/
def hostReach (s : State) (write : Bool) (l : List (Nat × Nat × Nat × Nat)) : Bool × State :=
  l.foldl (fun (a : Bool × State) p =>
    let (ok, t) := reachL2 a.2 .host p.2.2.2 p.2.2.1 p.2.1 5 write
    (a.1 && ok, t)) (true, s)

/-- A completion for a requester: status 0 successful, 1 Unsupported Request, 2 with the EP bit. -/
def completeRead (s : State) (requester status : Nat) (data : List Byte) : State :=
  { s with host := { s.host with completions := s.host.completions ++ [(requester, status, data)] } }

/-- A request that a PCIe requester can make: inside the aperture, within 4 KiB. -/
def requestOk (offset n most : Nat) : Bool := 1 ≤ n && n ≤ most && offset + n ≤ 2 ^ 36 && offset % 4096 + n ≤ 4096

/-- APERTURE_READ. -/
def execApertureRead (requester offset count : Nat) (s : State) : Host.Outcome State Fault Refusal :=
  .next (if !(requestOk offset count 4096) || heldBack s requester then s
    else match placeAll s false (cutLines 17 (s.host.apbase.toNat + offset) count) with
    | none => completeRead s requester 1 []
    | some l =>
      let (ok, s) := hostReach s false l
      if !ok then s
      else completeRead s requester (if l.any (fun p => anyPoison s p.2.2.1 p.2.1) then 2 else 0) (l.flatMap (fun p => bytesOf (readMem s p.2.2.1 p.2.1) p.2.1)))

/-- The bits of a record's word that the host writes (Table 07-4): what the device keeps there, and the reserved bits, stay. -/
def hostBits (word : Nat) : Nat :=
  match word with
  | 2 => 0
  | 3 => 0xF000
  | 5 => 0xFF0F00000000
  | 9 => 0xFF00000000
  | 10 => 2 ^ 48 - 1
  | w => if 15 ≤ w && w < 24 then 0 else 2 ^ 64 - 1

/-- Byte `i` of a record under a host write of a byte. -/
def hostByte (s : State) (pa i : Nat) (b : Byte) : Byte :=
  let m := BitVec.ofNat 8 (hostBits (i / 8) / 2 ^ (8 * (i % 8)))
  (memByte s (pa + i) &&& ~~~m) ||| (b &&& m)

/-- What the home slice makes of a host write to bytes of a record: the bytes it writes, or none when it drops it (R128). A write of some
bytes of word 0 is a write of the word that they leave (log 105). -/
def recordWrite (s : State) (pa off : Nat) (data : List Byte) : Option (List Byte) :=
  let st := recordState s pa
  if 8 ≤ off then (if st = 0 then some (data.zipIdx.map (fun e => hostByte s pa (off + e.2) e.1)) else none)
  else if 8 < off + data.length then none
  else
    let old := bytesOf (readMem s pa 8) 8
    let w := (old.take off ++ data ++ old.drop (off + data.length)).foldr (fun b x => b.toNat + 256 * x) 0
    let new_ := w % 8
    if (st = 0 && new_ = 1) || ((st = 4 || st = 5) && new_ = 0) then
      some (((bytesOf (bits w 63 32 * 2 ^ 32 + bits w 19 16 * 2 ^ 16 + new_) 8)))
    else none

/-- One part of a posted write performed at its slice: a record enters the admission queue or the release list of its graph (R128,
R142); a first store of the host to a region that it owns is noted (R114). -/
def performPart (s : State) (va pa : Nat) (data : List Byte) : State :=
  if !(inRequestTable s va) then
    let s := programWrite s 0 pa data
    match tokenCovering s va with | some t => if t.mode = .exclusive then noticeStore s va else s | none => s
  else
    let base := pa / 256 * 256
    let rec_ := va / 256 * 256
    match recordWrite s base (pa % 256) data with
    | none => s
    | some l =>
      if 8 ≤ pa % 256 then performWrite s pa l
      else
        let g := bits (readMem s (base + 0x18) 8) 15 12
        let pages := bits (readMem s (base + 0x48) 8) 31 0
        let s := performWrite s base l
        if recordState s base = 1 then { s with admission := sput [] s.admission g (sget [] s.admission g ++ [rec_]) }
        else if pages ≠ 0 then { s with releases := sput [] s.releases g (sget [] s.releases g ++ [rec_]) }
        else s

/-- A part that its slice would drop. -/
def partDropped (s : State) (va pa : Nat) (data : List Byte) : Bool := inRequestTable s va && (recordWrite s (pa / 256 * 256) (pa % 256) data).isNone

/-- The parts of a posted write with their bytes. -/
def partsOf : List Byte → List (Nat × Nat × Nat × Nat) → List (Nat × Nat × List Byte)
  | _, [] => []
  | d, (va, n, pa, _) :: l => (va, pa, d.take n) :: partsOf (d.drop n) l

/-- A posted write tried at its slices: performed whole, or dropped and counted in hostdrop (log 28), unless a sector is still to come. -/
def tryPosted (s : State) (va : Nat) (data : List Byte) : Bool × State :=
  let dropped : State := { s with statHostdrop := s.statHostdrop + 1 }
  match placeAll s true (cutLines 17 va data.length) with
  | none => (true, dropped)
  | some l =>
    let parts := partsOf data l
    if parts.any (fun p => partDropped s p.1 p.2.1 p.2.2) then (true, dropped)
    else
      let (ok, s) := hostReach s true l
      (ok, if ok then parts.foldl (fun t p => performPart t p.1 p.2.1 p.2.2) s else s)

/-- A posted write that the bridge keeps until its slices have it, behind those before it (R178). -/
def keepPosted (s : State) (requester va : Nat) (data : List Byte) : State :=
  { s with host := { s.host with posted := s.host.posted ++ [(requester, va, data)] } }

/-- APERTURE_WRITE: tried at once, or kept behind an earlier posted write of its requester (R178). -/
def execApertureWrite (requester offset : Nat) (data : List Byte) (s : State) : Host.Outcome State Fault Refusal :=
  .next (let va := s.host.apbase.toNat + offset
    if !(requestOk offset data.length 512) || launchWaits s requester then s
    else if heldBack s requester then keepPosted s requester va data
    else
      let (ok, t) := tryPosted s va data
      if ok then t else keepPosted t requester va data)

/-- The oldest posted write that the bridge keeps is tried again (R178). -/
def drainPosted (s : State) : State :=
  match s.host.posted with
  | [] => s
  | (_, va, data) :: l =>
    let (ok, t) := tryPosted s va data
    if ok then { t with host := { t.host with posted := l } } else t

/-! ### BAR0 (R383, R384) -/

/-- Bytes written over a register of 8 bytes, from byte `o` of it. -/
def overWord (w : Word) (o : Nat) (data : List Byte) : Word :=
  let old := bytesOf w.toNat 8
  BitVec.ofNat 64 (((old.take o ++ data ++ old.drop (o + data.length)).take 8).foldr (fun b x => b.toNat + 256 * x) 0)

/-- Bytes written to one register of 8 bytes: APBASE, RINGBASE, EVBASE and the LAUNCH words; other offsets are read-only, reserved, or have an
instruction of their own. -/
def controlPart (s : State) (offset : Nat) (data : List Byte) : State :=
  let h := s.host
  let o := offset % 8
  if offset / 8 = 0 then
    let w := overWord h.apbase o data
    if bits w.toNat 35 0 ≠ 0 then s else { s with host := { h with apbase := w } }
  else if offset / 8 = 1 then { s with host := { h with ringbase := overWord h.ringbase o data } }
  else if offset / 8 = 2 then { s with host := { h with evbase := overWord h.evbase o data } }
  else if 0x80 ≤ offset && offset < 0xB0 then
    let i := (offset - 0x80) / 8
    { s with host := { h with launch := h.launch.set i (overWord (h.launch.getD i 0) o data) } }
  else s

/-- A write cut at the registers; `fuel` bounds its bytes. -/
def controlParts : Nat → Nat → List Byte → State → State
  | 0, _, _, s => s
  | fuel + 1, offset, data, s =>
    if data.isEmpty then s
    else
      let m := 8 - offset % 8
      controlParts fuel (offset + m) (data.drop m) (controlPart s offset (data.take m))

/-- CONTROL_REGISTER_WRITE (R383). -/
def execControlRegisterWrite (requester offset : Nat) (data : List Byte) (s : State) : Host.Outcome State Fault Refusal :=
  .next (if heldBack s requester then s else controlParts data.length offset data s)

/-- LTARGET: the launch leaves with the LAUNCH words as they stand, or waits in the bridge for a retry entry. -/
def execLtarget (requester : Nat) (target : Word) (s : State) : Host.Outcome State Fault Refusal :=
  .next (if heldBack s requester then s
    else if entriesOf s .host < 32 && s.host.waitingLaunches.isEmpty then hostLaunch s target s.host.launch
    else { s with host := { s.host with waitingLaunches := s.host.waitingLaunches ++ [(requester, target, s.host.launch)] } })

/-- HOST_LAUNCH_RETRY: the back-off of R139. -/
def execHostLaunchRetry (id : Nat) (s : State) : Host.Outcome State Fault Refusal :=
  .next (match msgOf s id with
    | none => s
    | some f =>
      match f.home, f.phase with
      | .host, .backoff due => if s.cycle < due then s else flyMsg s id
      | _, _ => s)

/-! ### Commands (R385, R386, R398) -/

/-- An event word 0 of type 0. -/
def commandEvent (tag status : Nat) : Word := BitVec.ofNat 64 (tag % 65536 * 2 ^ 8 + status * 2 ^ 24)

/-- A word of the ring entry that the device reads next. -/
def ringWord (s : State) (i : Nat) : Nat := hostRead s (s.host.ringbase.toNat + 64 * (s.host.ringhead.toNat % 64) + 8 * i) 8

/-- A command may start: start-up is over, an apex core of die 0 takes commands, none is in progress, no RESYNC waits, events can be
written, and the ring holds an entry. -/
def canStart (s : State) : Bool :=
  s.hostOnline && (apexOf s 0).isSome && s.host.command.isNone && s.host.resync.isNone && !(eventsFull s) &&
    s.host.ringhead.toNat % 64 ≠ s.host.ringtail.toNat % 64

/-- The entry read next holds a command with an opcode, a tag and operands. -/
def ringHolds (s : State) (opcode tag : Nat) (operands : List Nat) : Bool :=
  ringWord s 0 % 256 = opcode && bits (ringWord s 0) 23 8 = tag && operands.zipIdx.all (fun e => ringWord s (e.2 + 1) = e.1)

/-- The command at the head of the ring starts: its work is done in this step, and its event waits for its end. -/
def startCommand (s : State) (opcode tag : Nat) (operands : List Nat) (work : State → State × Nat × Option Word) : State :=
  if !(canStart s && ringHolds s opcode tag operands) then s
  else
    let (t, status, value) := work s
    let (v, t) := match value with | some v => (v, t) | none => freeWord t
    { t with host := { t.host with
        ringhead := BitVec.ofNat 32 ((t.host.ringhead.toNat % 64 + 1) % 64), command := some (tag, opcode, status, v) } }

/-- Where the leaf entry of an address stands, from level l down. -/
def leafPlace (s : State) (va : Nat) : Nat → Nat → Nat → Option Nat
  | 0, _, _ => none
  | fuel + 1, l, table =>
    match readEntry s l va (readMem s (entryAddr table l va) 8) with
    | .ok next => leafPlace s va fuel (l + 1) next
    | .error (.leaf ..) => some (entryAddr table l va)
    | .error (.fault _) => none

/-- UNMAP: the page's entry is valid no more, and it leaves every TLB (R92); a root that is not the device's is refused. -/
def execUnmap (tag root va : Nat) (s : State) : Host.Outcome State Fault Refusal :=
  .next (startCommand s 1 tag [root, va] (fun t =>
    if root ≠ t.root then (t, 1, none)
    else
      let t := match leafPlace t (va % 2 ^ 53) 4 0 t.root with
        | some a => placeWrite t a (homeSlice true 0 a + 2048 * 4) (bytesOf (readMem t a 8 % 2 ^ 63) 8)
        | none => t
      let keep := fun (e : TlbEntry) => !(e.page ≤ va % 2 ^ 53 && va % 2 ^ 53 < e.page + 2 ^ e.lsize)
      let t := (t.cores.map (·.1)).foldl (fun u k => modCore u k (fun x => { x with tlb := x.tlb.filter keep })) t
      ((t.clusters.map (·.1)).foldl (fun u v => modCluster u v (fun x => { x with tlb := x.tlb.filter keep })) t, 0, none)))

/-- QUOTA: a value below the charge is refused. -/
def execQuota (tag account units : Nat) (s : State) : Host.Outcome State Fault Refusal :=
  .next (startCommand s 2 tag [account, units] (fun t =>
    let a := accountOf t account
    if account = 0 || 4096 ≤ account || 2 ^ 32 ≤ units || units * 65536 < a.charge then (t, 1, none)
    else (setAccount t account { a with quota := BitVec.ofNat 32 units }, 0, none)))

/-- The counter block of a core (Table 08-5). -/
def coreBlock (x : Counters) : List Byte :=
  ([x.issued, x.parked, x.bank, x.tokmiss, x.rulemiss, x.refused, x.retries, x.undeliv, x.steals, x.spills, x.dupbytes, x.checker].flatMap
    (fun w => bytesOf w.toNat 8)) ++ bytesOf 0 160 ++ (List.range 64).flatMap (fun i => bytesOf (if i = 0 then 0 else (sget 0 x.faults i).toNat) 4)

/-- The block of 8 KiB that TELEMETRY writes, with the readings numbered from `n` (Table 27-2; log 16). -/
def telemetryBlock (s : State) (select : Word) (n : Nat) : List Byte :=
  let v := vertexAt (bits select.toNat 1 0) (bits select.toNat 8 2)
  let core := fun (k : Nat) => if 9 ≤ k && !(isApexVertex v) then bytesOf 0 512 else coreBlock (coreAt s (16 * v + (if 9 ≤ k then k + 5 else k))).counters
  [s.statStopped, s.statHostdrop, s.statThermal, s.statPoison].flatMap (fun w => bytesOf w.toNat 8) ++ bytesOf 0 32 ++
    (List.range 4).flatMap (fun d => bytesOf (Config.powerReading d n).toNat 8 ++ bytesOf (Config.temperatureReading d n).toNat 8) ++
    bytesOf 0 384 ++ (List.range 11).flatMap core ++ bytesOf 0 2048

/-- TELEMETRY. -/
def execTelemetry (tag buffer : Nat) (select : Word) (s : State) : Host.Outcome State Fault Refusal :=
  .next (startCommand s 3 tag [buffer, select.toNat] (fun t =>
    if bits select.toNat 63 9 ≠ 0 then (t, 1, none)
    else (hostWrite { t with free := t.free + 1 } buffer (telemetryBlock t select t.free), 0, none)))

/-- A start record entry without its sticky mark (Table 27-5). -/
def unstick (e : Word × Word) : Word × Word := (BitVec.ofNat 64 (setBits e.1.toNat 9 9 0), e.2)

/-- CLRSTART: no fallback is in force any more. -/
def execClrstart (tag : Nat) (s : State) : Host.Outcome State Fault Refusal :=
  .next (startCommand s 4 tag [] (fun t => ({ t with startRecord := t.startRecord.map unstick }, 0, none)))

/-- An image that the fused key verifies and whose version is not below the stored minimum (R391). -/
def imageOk (s : State) (image : List Byte) : Bool := Config.imageVerifies s.fuseKey image && s.minVersion ≤ Config.imageVersion image

/-- The image that the next start-up takes: a staged one stands in the slot that is not active (R391, Table 27-2). -/
def bootImage (s : State) : List Byte := sget [] s.firmware (if s.stagedImage then 1 - s.firmwareSlot else s.firmwareSlot)

/-- FWSTAGE: the image is copied from host memory, and one that verifies stands in the inactive slot and takes effect at the next start-up
(R391, Table 27-2; log 15). -/
def execFwstage (tag image size : Nat) (s : State) : Host.Outcome State Fault Refusal :=
  .next (startCommand s 5 tag [image, size] (fun t =>
    let bytes := bytesOf (hostRead t image size) size
    if imageOk t bytes then ({ t with firmware := sput [] t.firmware (1 - t.firmwareSlot) bytes, stagedImage := true }, 0, none) else (t, 1, none)))

/-- The bytes of the start record. -/
def recordBytes (s : State) : List Byte := (s.startHeader :: s.startRecord).flatMap (fun e => bytesOf e.1.toNat 8 ++ bytesOf e.2.toNat 8)

/-- What ATTEST writes with leaf q: a signature of 2,668 bytes over the nonce, the active firmware and the start record, q, and how many leaves
remain, the two as words of 4 bytes (R391, R392; log 15). -/
def attestation (s : State) (q : Nat) (nonce : List Byte) : List Byte :=
  (List.range 2668).map (Config.signatureByte q nonce (sget [] s.firmware s.firmwareSlot) (recordBytes s)) ++ bytesOf q 4 ++ bytesOf (32767 - q) 4

/-- ATTEST: the leaf index moves on first, then the result area is written behind the nonce; without a leaf it is refused (R392). -/
def execAttest (tag buffer : Nat) (s : State) : Host.Outcome State Fault Refusal :=
  .next (startCommand s 6 tag [buffer] (fun t =>
    let q := t.attestLeaf
    if 32768 ≤ q then (t, 1, some 0)
    else (hostWrite { t with attestLeaf := q + 1 } (buffer + 32) (attestation t q (bytesOf (hostRead t buffer 32) 32)), 0, some (BitVec.ofNat 64 (32767 - q)))))

/-- POWERLIM. -/
def execPowerlim (tag watts : Nat) (s : State) : Host.Outcome State Fault Refusal :=
  .next (startCommand s 7 tag [watts] (fun t => if 1800 ≤ watts && watts ≤ 2600 then ({ t with powerLimit := watts }, 0, none) else (t, 1, none)))

/-- UNKNOWN_COMMAND: status 3. -/
def execUnknownCommand (tag opcode : Nat) (s : State) : Host.Outcome State Fault Refusal :=
  .next (if (1 ≤ opcode && opcode ≤ 7) || 256 ≤ opcode then s else startCommand s opcode tag [] (fun t => (t, 3, none)))

/-! ### RESYNC (R221, R386) -/

/-- Killed cores of a die. -/
def killedOn (s : State) (d : Nat) : List Nat := (s.cores.filter (fun e => e.2.killed && dieOf (vertexOf e.1) = d)).map (·.1)

/-- Header of the summary: version, device number, sr.cycle, killed cores, the start record's status. -/
def headerPart (s : State) : List Nat :=
  [Config.summaryVersion, s.device, s.cycle, (s.cores.filter (fun e => e.2.killed)).length] ++ s.startRecord.map (fun e => e.1.toNat)

/-- Health: by die the killed cores, how many of them are apex cores, the lattices with RESIDUE and the thermal state, which is whether the clock
stands and the temperature (log 16); the module counters (Table 08-6). -/
def healthPart (s : State) : List Nat :=
  (List.range 4).flatMap (fun d => [(killedOn s d).length, ((killedOn s d).filter isApex).length,
    (s.clusters.filter (fun e => dieOf e.1 = d && e.2.ended.any (fun j => j.code = cResidue))).length, s.clockStopped.toNat, (Config.temperatureReading d s.free).toNat]) ++
  [s.statStopped, s.statHostdrop, s.statThermal, s.statPoison].map (·.toNat)

/-- Graph instances: state, node count, the faulted node with its code. -/
def graphPart (s : State) : List Nat :=
  (List.range 64).flatMap (fun i => match graphOf s i with
    | some g => [1 + g.live.toNat, g.count] ++ (match g.faulted with | some (n, code) => [n, code] | none => [0, 0])
    | none => [0, 0, 0, 0])

/-- The records of the request tables that STEP nodes of live instances name for a batch graph, up to 65,536 each (R127). -/
def tableRecords (s : State) (k : Nat) : List Nat :=
  (liveGraphs s).flatMap (fun r => (List.range r.count).flatMap (fun i =>
    if nodeKind s r i = 5 && nodeParam s r i = k then
      (match tokenCovering s (nodeWord s r i 1 % 2 ^ 53) with
      | some t => ((List.range (min 65536 (2 ^ t.lsize / 256))).map (fun j => t.base + 256 * j)).filter (fun va => recGet s (recPa s va) 0x18 15 12 = k)
      | none => [])
    else []))

/-- The records of a batch graph: those of its request tables, and those that its slots, its admission queue and its release list name. -/
def graphRecords (s : State) (k : Nat) : List Nat :=
  (tableRecords s k ++ (List.range 1024).map (fun i => match entryPlace s k i with | some (a, _) => readMem s a 8 % 2 ^ 53 | none => 0) ++
    sget [] s.admission k ++ sget [] s.releases k).dedup.filter (· ≠ 0)

/-- Batch graphs: the number of records in each state, the bits of the slot mask. -/
def batchPart (s : State) : List Nat :=
  (List.range 16).flatMap (fun k =>
    let states := (graphRecords s k).map (fun va => recGet s (recPa s va) 0 2 0)
    (List.range 7).map (fun x => states.count x) ++
      [match slotArea s k with | some a => ((List.range 1024).filter (fun i => nbit (memByte s (a + 0x8000 + i / 8)).toNat (i % 8))).length | none => 0])

/-- Orphaned and claimed regions: base, lsize, taint, dead agent (R120, R217). -/
def regionPart (s : State) : List Nat :=
  let orphans := s.tokens.filterMap (fun e => e.2.bind (fun t => if orphaned s t then some (t, holderVal t.holder % 2 ^ 27) else none))
  let claims := (s.claimed ++ s.reclaimed.map (fun r => (r.base, r.dead))).filterMap (fun r => (sget none s.tokens r.1).map (fun t => (t, r.2)))
  ((orphans ++ claims).take 64).flatMap (fun e => [e.1.base, e.1.lsize, e.1.taint.toNat, e.2])

/-- The last 32 fault records: code, origin, agent, where. -/
def faultPart (s : State) : List Nat :=
  s.lastRecords.flatMap (fun r =>
    let w := (r.getD 0 0).toNat
    [bits w 63 56, bits w 55 53, bits w 26 0, (r.getD 1 0).toNat])

/-- Jobs in flight: by die how many are queued and running, and the oldest id. -/
def jobPart (s : State) : List Nat :=
  (List.range 4).flatMap (fun d =>
    let jobs := (s.clusters.filter (fun e => dieOf e.1 = d)).flatMap (fun e => e.2.jobs)
    let oldest := jobs.foldl (fun (b : Option Job) j => match b with | some x => if j.seq < x.seq then some j else b | none => some j) none
    [(jobs.filter (fun j => j.running.isNone)).length, (jobs.filter (fun j => j.running.isSome)).length, match oldest with | some j => j.id.toNat | none => 0])

/-- The summary of 4 KiB (Table 14-4): seven parts by offset, whose contents are laid out as the spec leaves open (log 18), then the copy of the
start record. -/
def summary (s : State) : List Byte :=
  ([(64, headerPart s), (256, healthPart s), (1024, graphPart s), (512, batchPart s), (1024, regionPart s), (512, faultPart s), (256, jobPart s)].zipIdx.flatMap
    (fun e => (List.range e.1.1).map (Config.summaryByte e.2 e.1.2))) ++
    ((s.startHeader :: (s.startRecord ++ List.replicate 27 (0, 0)).take 27).flatMap (fun e => bytesOf e.1.toNat 8 ++ bytesOf e.2.toNat 8))

/-- Entries of the ring that have not started. -/
def ringPending (s : State) : Nat := (s.host.ringtail.toNat % 64 + 64 - s.host.ringhead.toNat % 64) % 64

/-- The unstarted entries end as aborted, one event each. -/
def abortRing : Nat → State → State
  | 0, s => s
  | n + 1, s =>
    let (v, s) := freeWord s
    let s := writeEvent s (commandEvent (bits (ringWord s 0) 23 8) 2) v
    abortRing n { s with host := { s.host with ringhead := BitVec.ofNat 32 ((s.host.ringhead.toNat % 64 + 1) % 64) } }

/-- Free places of the event queue. -/
def eventRoom (s : State) : Nat := (s.host.evhead.toNat % 256 + 255 - s.host.evtail.toNat % 256) % 256

/-- RESYNC is served once no command is in progress and every event of it has a place (log 27). -/
def serveResync (s : State) : State :=
  match s.host.resync with
  | none => s
  | some b =>
    if s.host.command.isSome || !s.host.backlog.isEmpty || (apexOf s 0).isNone || eventRoom s < ringPending s + 1 then s
    else
      let s := hostWrite { s with free := s.free + 1 } b.toNat (summary s)
      let s := abortRing (ringPending s) s
      let s := writeEvent s 3 b
      { s with host := { s.host with resync := none } }

/-- RESYNC. -/
def execResync (requester : Nat) (buffer : Word) (s : State) : Host.Outcome State Fault Refusal :=
  .next (if heldBack s requester then s else serveResync { s with host := { s.host with resync := some buffer } })

/-- RINGTAIL: the doorbell. -/
def execRingtail (requester : Nat) (value : Word) (s : State) : Host.Outcome State Fault Refusal :=
  .next (if heldBack s requester then s else { s with host := { s.host with ringtail := value.setWidth 32 } })

/-- Events of the backlog are written while there is room. -/
def writeBacklog : Nat → State → State
  | 0, s => s
  | n + 1, s =>
    match s.host.backlog with
    | [] => s
    | e :: l => if eventsFull s then s else writeBacklog n (writeEvent { s with host := { s.host with backlog := l } } e.1 e.2)

/-- EVHEAD: the backlog goes first into the room that this makes. -/
def execEvhead (requester : Nat) (value : Word) (s : State) : Host.Outcome State Fault Refusal :=
  .next (if heldBack s requester then s else serveResync (writeBacklog 256 { s with host := { s.host with evhead := value.setWidth 32 } }))

/-- HOST_COMMAND_COMPLETION: the event of the command in progress is written, behind the backlog, and the next may start. -/
def execHostCommandCompletion (s : State) : Host.Outcome State Fault Refusal :=
  .next (match s.host.command with
    | none => s
    | some (tag, _, status, value) =>
      if (apexOf s 0).isNone || eventsFull s || !s.host.backlog.isEmpty then s
      else serveResync (let t := writeEvent s (commandEvent tag status) value
        { t with host := { t.host with command := none } }))

/-! ### Expansion memory and the fabric (R219, R388 to R390) -/

/-- The dirty sectors of one line record are marked poisoned and dropped. -/
def dropDirty (s : State) (port : Nat) (l : Option L2Line) : State × Option L2Line :=
  match l with
  | none => (s, none)
  | some y =>
    if cxlPort (256 * y.line) ≠ some port then (s, some y)
    else ((List.range 8).foldl (fun t i => if nbit y.dirty.toNat i then poisonSector t (256 * y.line + 32 * i) else t) s,
      some { y with valid := y.valid &&& ~~~y.dirty, dirty := 0 })

/-- The same for a set of a slice. -/
def dropDirtySet (s : State) (port slice set : Nat) : State :=
  let (s, l) := (waysOf (sliceAt s slice) set).foldl (fun (a : State × List (Option L2Line)) y =>
    let (t, z) := dropDirty a.1 port y
    (t, a.2 ++ [z])) (s, [])
  setSlice s slice (setWays (sliceAt s slice) set l)

/-- CXL_LINK_DOWN: from now on every access to the port ends with POISON (`cxlGone`), and its dirty sectors are lost. -/
def execCxlLinkDown (port : Nat) (s : State) : Host.Outcome State Fault Refusal :=
  .next (if 4 ≤ port || s.cxlDown.contains port then s
    else
      let s := (s.slices.map (·.1)).foldl (fun t i => ((sliceAt t i).ways.map (·.1)).foldl (fun u set => dropDirtySet u port i set) t) s
      hostEvent { s with cxlDown := port :: s.cxlDown } 5 (BitVec.ofNat 64 port))

/-- The device that a flight goes to over the fabric. -/
def flightDevice (f : Flight Regs) : Option Nat := (remoteRef f.op).map (fun r => r.toNat / 2 ^ 53)

/-- A flight uses a port: the port of its ordered traffic, or any of its die's group for the adaptive class. -/
def usesPort (s : State) (port : Nat) (f : Flight Regs) : Bool :=
  match flightDevice f with
  | none => false
  | some d => if f.ordered then orderedPort s (vertOf f.ctx) d = some port else port / 16 = dieOf (vertOf f.ctx)

/-- A lost access ends with DEAD-PEER. -/
def loseFlight (s : State) (id : Nat) : State :=
  match flightOf s id with
  | none => s
  | some f => remoteFails s f cDeadPeer f.ea

/-- A transfer whose line through a global reference was lost ends with DEAD-PEER (R338, R390). -/
def loseTransfer (s : State) (port id : Nat) : State :=
  match s.clusters.findSome? (fun e => (e.2.transfers.find? (fun t => t.id = id)).map (fun t => (e.1, t))) with
  | some (v, t) =>
    match (opSpans s t.op ++ [t.barrier]).find? (fun a => a.toNat / 2 ^ 53 ≠ s.device) with
    | some a => if port / 16 = dieOf v then failTransfer s v t { code := cDeadPeer, addr := a } else s
    | none => s
  | none => s

/-- The number under which a take of a cell of another device is reported lost: core, slot, and whether it takes the second cell. -/
def takeNumber (core slot : Nat) (second : Bool) : Nat := 2 ^ 40 + core * 128 + slot * 2 + second.toNat

/-- The take of a cell of another device that was lost ends with DEAD-PEER (R29, R390). -/
def loseTake (s : State) (port n : Nat) : State :=
  let core := (n - 2 ^ 40) / 128
  match (coreAt s core).inbox.find? (fun q => q.index = (n - 2 ^ 40) % 128 / 2) with
  | none => s
  | some q =>
    match q.phase, q.msg.pair with
    | .taking, some p =>
      let second := n % 2 = 1
      let ref := if second then p.second else p.first
      if refDevice ref = s.device || port / 16 ≠ dieOf (vertexOf core) || (if second then q.secondWords else q.firstWords).isSome then s
      else badTake s core q p ref cDeadPeer
    | _, _ => s

/-- RALQUEL_PORT_DOWN: `lost` are the accesses on it that were not acknowledged and are reported lost: of an instruction or an engine by their
number, takes by `takeNumber`. Ordered traffic that is still out holds what comes after it (R390). -/
def execRalquelPortDown (port : Nat) (lost : List Nat) (s : State) : Host.Outcome State Fault Refusal :=
  .next (if !(s.portsUp.contains port) then s
    else
      let on := s.flights.filter (fun f => usesPort s port f)
      let gone := (on.map (·.id)).filter lost.contains
      let out := ((on.filter (fun f => f.ordered && !f.done)).map (·.id)).filter (fun id => !(gone.contains id))
      let s := { s with portsUp := s.portsUp.filter (· ≠ port), draining := s.draining ++ out }
      let s := gone.foldl loseFlight s
      lost.foldl (fun t n => if 2 ^ 40 ≤ n then loseTake t port n else loseTransfer t port n) s)

/-- Cycles of 100 µs (R19, R219). -/
def noticeInterval : Nat := 160000

/-- STOP_NOTICE: one more notice to every peer, 100 µs after the last. -/
def execStopNotice (s : State) : Host.Outcome State Fault Refusal :=
  .next (if s.clockStopped && noticeInterval ≤ (s.statStopped - s.noticeAt).toNat then { s with noticeAt := s.statStopped, notices := s.notices + 1 } else s)

/-- STOP_NOTICE_RECEIVED: accesses and messages to the device are held; it does not count as silent. -/
def execStopNoticeReceived (device : Nat) (s : State) : Host.Outcome State Fault Refusal :=
  .next (if device = s.device || s.peersLost.contains device then s
    else
      let s := peerSpoke s device
      if s.peersStopped.contains device then s else { s with peersStopped := device :: s.peersStopped })

/-- PEER_ANSWERS_AGAIN: what was held goes on. -/
def execPeerAnswersAgain (device : Nat) (s : State) : Host.Outcome State Fault Refusal :=
  .next { peerSpoke s device with peersStopped := s.peersStopped.filter (· ≠ device) }

/-- A holder word that names a context or an inbox slot of another device. -/
def isLostAgent (device : Nat) (w : Word) : Bool := holderKind w = 1 && agentDevice (holderVal w) = device
/-- See `isLostAgent`. -/
def isLostSlot (device : Nat) (w : Word) : Bool := holderKind w = 5 && agentDevice (holderVal w % 2 ^ 27) = device

/-- PEER_LOST: a device neither answered nor sent a stop notice for 1 ms, one that had sent them before too: its regions are claimed by apex core
14 or 15 of die 0, and the host is told (R219; log 30). -/
def execPeerLost (device : Nat) (s : State) : Host.Outcome State Fault Refusal :=
  .next (if device = s.device || s.peersLost.contains device || wallClock s < sget 0 s.peerSeen device + 10 * noticeInterval then s
    else
      let s := hostEvent { s with peersLost := device :: s.peersLost, peersStopped := s.peersStopped.filter (· ≠ device) } 6 (BitVec.ofNat 64 device)
      match apexOf s 0 with
      | none => s
      | some a =>
        let (s, _, mine) := claimAll s (isLostAgent device) (isLostSlot device) (holderAgent (agentOf s (8 * a)))
        reportClaimed (noteClaimed s mine) (fun w => agentDevice w = device))

/-! ### Power (R20, R393) -/

/-- A thermal event of a die with a cause: counted when it is reported, which one that stands in the backlog is not again. -/
def thermalEvent (s : State) (die cause : Nat) : State :=
  let w : Word := BitVec.ofNat 64 (die % 4 + cause * 16)
  if s.host.backlog.contains (1, w) then s else hostEvent { s with statThermal := s.statThermal + 1 } 1 w

/-- What the module draws at a reading, in watts, and how hot a die is, in °C (R393; log 16). -/
def modulePower (n : Nat) : Nat := (List.range 4).foldl (fun a d => a + (Config.powerReading d n).toNat) 0
/-- See `modulePower`. -/
def dieHeat (n die : Nat) : Nat := (Config.temperatureReading die n).toNat

/-- Whether a reading reaches a limit of Table 27-4: cause 1 the power limit that POWERLIM sets, 2 the temperature of a die, 3 an emergency
limit. -/
def limitMet (s : State) (n die cause : Nat) : Bool :=
  if cause = 1 then s.powerLimit ≤ modulePower n else if cause = 2 then 95 ≤ dieHeat n die else 2900 ≤ modulePower n || 105 ≤ dieHeat n die

/-- LIMIT_REACHED: cause 1 power, 2 temperature, when the next reading says so; the module runs on. -/
def execLimitReached (die cause : Nat) (s : State) : Host.Outcome State Fault Refusal :=
  .next (if die < 4 && (cause = 1 || cause = 2) then
      (let t := { s with free := s.free + 1 }; if limitMet s s.free die cause then thermalEvent t die cause else t)
    else s)

/-- EMERGENCY_LIMIT: no cycle passes from now on, when the next reading reaches an emergency limit. -/
def execEmergencyLimit (die : Nat) (s : State) : Host.Outcome State Fault Refusal :=
  .next (if s.clockStopped || 4 ≤ die then s
    else
      let t := { s with free := s.free + 1 }
      if limitMet s s.free die 3 then { thermalEvent t die 3 with clockStopped := true, noticeAt := s.statStopped } else t)

/-- Both readings are 50 W and 5 °C below their emergency limits, on every die (R393). -/
def cooled (n : Nat) : Bool := modulePower n ≤ 2850 && (List.range 4).all (fun d => dieHeat n d ≤ 100)

/-- CLOCK_RESTART: the clock starts again when the next reading says that the module has cooled down. -/
def execClockRestart (s : State) : Host.Outcome State Fault Refusal :=
  .next (if s.clockStopped then { s with clockStopped := !(cooled s.free), free := s.free + 1 } else s)

/-! ### Start-up (R222, R394) -/

/-- What a step may do when it failed: halt, take its fallback, be skipped (Table 14-5). -/
inductive StepKind where
  | mandatory | fallback | optional
deriving DecidableEq, Repr

def stepKind (i : Nat) : StepKind :=
  match i with
  | 3 | 5 => .fallback
  | 7 | 8 => .optional
  | _ => .mandatory

/-- Fields of a start record entry (Table 27-5). -/
def stepOutcome (e : Word × Word) : Nat := bits e.1.toNat 11 10
def stepSticky (e : Word × Word) : Bool := nbit e.1.toNat 9
def stepWritten (e : Word × Word) : Bool := e.1.toNat % 256 ≠ 0
def stepEntry (i outcome attempts : Nat) (sticky : Bool) (cycle : Nat) : Word × Word :=
  (BitVec.ofNat 64 (attempts % 16 * 2 ^ 12 + outcome * 2 ^ 10 + sticky.toNat * 2 ^ 9 + i), BitVec.ofNat 64 cycle)

/-- The outcome of step i, from its entry at the last start and from what happens when it is tried: 0 done, 1 failed, 2 skipped, 3
fallback (R222; log 31). -/
def outcomeOf (i : Nat) (old : Word × Word) (passes : Bool) : Nat :=
  let failed := stepWritten old && stepOutcome old = 1
  match stepKind i with
  | .optional => if failed then 2 else if passes then 0 else 1
  | .fallback => if stepSticky old || failed then 3 else if passes then 0 else 1
  | .mandatory => if passes then 0 else 1

/-- Entry i (from 1) of the start record. -/
def entryOf (s : State) (i : Nat) : Word × Word := s.startRecord.getD (i - 1) (0, 0)
def setEntry (s : State) (i : Nat) (e : Word × Word) : State :=
  { s with startRecord := ((s.startRecord ++ List.replicate 27 (0, 0)).take 27).set (i - 1) e }

/-- A spill region of a core: a commons region of account 0, held by the apex core of its die (R138). -/
def carveSpill (s : State) (core base : Nat) : State :=
  let a := accountOf s 0
  let t : Token :=
    { base := base, lsize := 20, mode := .commons, holder := holderAgent (agentId s.device (8 * (16 * apexVertex (dieOf (vertexOf core)) + 14))), lender := 0,
      opened := false, records := [], xfer := 0, acct := 0, taint := false, wr := false }
  addSpill (setToken (setAccount s 0 { a with charge := a.charge + 2 ^ 20 }) t) core base

/-- The register capacity that a start-up finds, which is the allotment of every context of the core too (R76, Table 04-2). -/
def setCapacity (s : State) (k n : Nat) : State :=
  (List.range 8).foldl (fun t i => modCtx t (8 * k + i) (fun x => { x with allot := n })) (modCore s k (fun x => { x with capacity := n }))

/-- What a step leaves in the module. Step 7 that failed for the device of one port leaves that port, which has no bytes, unused and the others in
use (R387). -/
def stepEffect (s : State) (cfg : StartConfig) (i outcome : Nat) : State :=
  match i with
  | 1 => if s.stagedImage then { s with firmwareSlot := 1 - s.firmwareSlot, stagedImage := false } else s
  | 2 => cfg.rows.foldl (fun t e => if isExecute e.1 && e.1 < 8192 then setCapacity t e.1 (6 * min 8 (e.2 / 8)) else t) s
  | 5 => if outcome = 3 then cfg.failing.foldl (fun t v => modCluster t v (fun x => { x with disabled := true })) s else s
  | 6 => cfg.spill.foldl (fun t e => if coreExists e.1 && e.2 % 2 ^ 20 = 0 && (tokenCovering t e.2).isNone then carveSpill t e.1 e.2 else t) s
  | 7 => if outcome ≤ 1 then { s with cxlSizes := cfg.cxl.zipIdx.foldl (fun l e => if e.2 < 4 then sput 0 l e.2 e.1 else l) [] } else s
  | 8 => if outcome = 0 then
      { s with
        device := cfg.device % 2048, portsUp := cfg.ports.map (·.1)
        routes := cfg.ports.foldl (fun l e => sput [] l e.1 e.2) [] }
    else s
  | 9 => { s with hostOnline := true }
  | _ => s

/-- The steps from i on: each is tried, recorded when it ends, and takes effect; the first also needs an image that verifies (R391); a failed mandatory step halts start-up and is reported to the
host. -/
def startSteps (cfg : StartConfig) : Nat → List (Bool × Nat × Nat) → State → State
  | _, [], s => s
  | i, (passes, attempts, cycle) :: l, s =>
    if 9 < i then s
    else
      let o := outcomeOf i (entryOf s i) (passes && (i ≠ 1 || imageOk s (bootImage s)))
      let s := setEntry { s with cycle := max s.cycle cycle } i (stepEntry i o (max 1 (min attempts 15)) (o = 3) (max s.cycle cycle))
      if o = 1 && stepKind i = .mandatory then { s with startHalted := some i } else startSteps cfg (i + 1) l (stepEffect s cfg i o)

/-- What survives the loss of power and a reset: the non-volatile memory, what stands outside the module, and the model's own turns. -/
def powerOff (s : State) : State :=
  { State.reset with
    agenda := s.agenda, turns := s.turns, free := s.free, startRecord := s.startRecord, startHeader := s.startHeader, firmwareSlot := s.firmwareSlot
    firmware := s.firmware, stagedImage := s.stagedImage, attestLeaf := s.attestLeaf, fuseKey := s.fuseKey, minVersion := s.minVersion
    mem := s.mem.filter (fun e => Config.lpddrTop ≤ e.1), poisoned := s.poisoned.filter (fun e => Config.lpddrTop ≤ 32 * e.1)
    host := { HostSide.reset with memory := s.host.memory } }

/-- START_UP: the steps of Table 14-5, on a module that keeps nothing but its non-volatile memory (log 31). -/
def execStartUp (cfg : StartConfig) (s : State) : Host.Outcome State Fault Refusal :=
  .next (startSteps cfg 1 cfg.steps { powerOff s with root := cfg.root, ruleBase := cfg.ruleBase, ruleLog := max 8 (min cfg.ruleLog 16) })

/-- POWER_LOSS: the step that was interrupted stands as failed at the next start (R394). -/
def execPowerLoss (step : Nat) (s : State) : Host.Outcome State Fault Refusal :=
  .next (let s := powerOff s
    if 1 ≤ step && step ≤ 9 then setEntry s step (stepEntry step 1 (max 1 (bits (entryOf s step).1.toNat 15 12)) (stepSticky (entryOf s step)) (entryOf s step).2.toNat) else s)

end Sys2Proof.Machine
end

