-- ==== Sys2Proof/Machine/Vector.lean ====
section
/-! DEFINITION. Vector arithmetic, comparison, conversion, reduction, moves, predicates (R261 to R279). -/

namespace Sys2Proof.Machine

/-- VADD (R266). -/
def execVadd (o : OpV) (s : State) : Host.Outcome State Fault Refusal := runSeq (.vadd o) s (fun t => arith2 t o (· + ·) floatAdd)
/-- VSUB (R266). -/
def execVsub (o : OpV) (s : State) : Host.Outcome State Fault Refusal := runSeq (.vsub o) s (fun t => arith2 t o (· - ·) floatSub)
/-- VMUL (R266). -/
def execVmul (o : OpV) (s : State) : Host.Outcome State Fault Refusal := runSeq (.vmul o) s (fun t => arith2 t o (· * ·) floatMul)

/-- VFMA (R266): one rounding. -/
def execVfma (o : OpV) (s : State) : Host.Outcome State Fault Refusal :=
  runSeq (.vfma o) s (fun t =>
    let f := o.fmt.toNat
    let w := laneBits f
    laneOp t o 3 (fun u a b x i =>
      if isFloatFmt f then
        let m := modeOf u u.cur o.rnd.toNat
        rounded m f (mulAdd m (decodeIeee f (lane a w i)) (decodeIeee f (lane b w i)) (decodeIeee f (lane x w i)))
      else (intLane f (nbit o.limm.toNat 0) (intVal f (lane a w i) * intVal f (lane b w i) + intVal f (lane x w i)), 0)))

/-- VMIN (R266, R267). -/
def execVmin (o : OpV) (s : State) : Host.Outcome State Fault Refusal :=
  runSeq (.vmin o) s (fun t => arith2 t o min (fun _ f x y => floatMinMax f false x y))
/-- VMAX (R266, R267). -/
def execVmax (o : OpV) (s : State) : Host.Outcome State Fault Refusal :=
  runSeq (.vmax o) s (fun t => arith2 t o max (fun _ f x y => floatMinMax f true x y))

/-- VABS (R266). -/
def execVabs (o : OpV) (s : State) : Host.Outcome State Fault Refusal :=
  runSeq (.vabs o) s (fun t => lane1 t o (fun _ x =>
    let f := o.fmt.toNat
    if isFloatFmt f then floatSign f false x else (intLane f (nbit o.limm.toNat 0) (intVal f x).natAbs, 0)))
/-- VNEG (R266). -/
def execVneg (o : OpV) (s : State) : Host.Outcome State Fault Refusal :=
  runSeq (.vneg o) s (fun t => lane1 t o (fun _ x =>
    let f := o.fmt.toNat
    if isFloatFmt f then floatSign f true x else (intLane f (nbit o.limm.toNat 0) (-(intVal f x)), 0)))

/-- One result lane of VDOT (R268). -/
def dotLane (o : OpV) (mode : Nat) (a b x : Vec) (i : Nat) : Nat × Flags :=
  let f := o.fmt.toNat
  if isFloatFmt f then
    let d := fun v j => decodeIeee f (lane v 16 j)
    let (p, f1) := nmul (d a (2 * i)) (d b (2 * i))
    let (q, f2) := mulAdd mode (d a (2 * i + 1)) (d b (2 * i + 1)) p
    rounded mode 13 (let (r, f3) := nadd mode q (decodeIeee 13 (lane x 32 i)); (r, f1 ||| f2 ||| f3))
  else
    let d := fun v j => intVal f (lane v 16 j)
    (intLane (f + 2) (nbit o.limm.toNat 0)
      (d a (2 * i) * d b (2 * i) + d a (2 * i + 1) * d b (2 * i + 1) + intVal (f + 2) (lane x 32 i)), 0)

/-- VDOT (R268): 16 result lanes of 32 bits. -/
def execVdot (o : OpV) (s : State) : Host.Outcome State Fault Refusal :=
  runSeq (.vdot o) s (fun t =>
    match portsServe t [o.a, o.b, o.c] (some o.d) with
    | .error e => .error e
    | .ok () =>
      let (a, b, x, t) := readSlots t o 3
      let m := modeOf t t.cur o.rnd.toNat
      let r := (List.range 16).map (fun i => if predOn t o i then some (dotLane o m a b x i) else none)
      let fl := r.foldl (fun acc e => match e with | some (_, g) => acc ||| g | none => acc) 0
      .ok (raiseFlags (writeDest t o.d 32 0 (r.map (fun e => e.map (·.1)))) t.cur fl))

/-- Whether a condition of Table 17-2 holds, and whether it raises NV. -/
def laneCond (f cond x y : Nat) : Bool × Flags :=
  if isFloatFmt f then
    let a := decodeIeee f x
    let b := decodeIeee f y
    let nan := isNan a || isNan b
    let fl := if isSig a || isSig b || (nan && 2 ≤ cond && cond ≤ 5) then fNV else 0
    let r := match cond with
      | 0 => neq a b
      | 1 => !(neq a b)
      | 2 => nlt a b
      | 3 => !nan && !(nlt a b)
      | 4 => !nan && !(nlt b a)
      | 5 => nlt b a
      | 6 => nan
      | _ => !nan
    (r, fl)
  else
    let a := intVal f x
    let b := intVal f y
    (match cond with
      | 0 => a = b
      | 1 => a ≠ b
      | 2 => a < b
      | 3 => b ≤ a
      | 4 => a ≤ b
      | _ => b < a, 0)

/-- VCMP (R269): lanes whose predicate bit is 0 give 0 and raise nothing. -/
def execVcmp (o : OpV) (s : State) : Host.Outcome State Fault Refusal :=
  runSeq (.vcmp o) s (fun t =>
    match portsServe t [o.a, o.b] none with
    | .error e => .error e
    | .ok () =>
      let (a, b, _, t) := readSlots t o 2
      let f := o.fmt.toNat
      let w := laneBits f
      let r := (List.range (laneCount f)).map (fun i => if predOn t o i then laneCond f o.limm.toNat (lane a w i) (lane b w i) else (false, 0))
      let fl := r.foldl (fun acc e => acc ||| e.2) 0
      .ok (raiseFlags (wp t t.cur o.d.toNat (BitVec.ofNat 32 (packList 1 (r.map (fun e => e.1.toNat))))) t.cur fl))

/-- VSEL (R270): every lane is written. -/
def execVsel (o : OpV) (s : State) : Host.Outcome State Fault Refusal :=
  runSeq (.vsel o) s (fun t =>
    match portsServe t [o.a, o.b] (some o.d) with
    | .error e => .error e
    | .ok () =>
      let (a, b, _, t) := readSlots t o 2
      let w := laneBits o.fmt.toNat
      .ok (writeDest t o.d w 0 ((List.range (laneCount o.fmt.toNat)).map (fun i => some (if predOn t o i then lane a w i else lane b w i)))))

/-- VCVT (R271). -/
def execVcvt (o : OpV) (s : State) : Host.Outcome State Fault Refusal :=
  runSeq (.vcvt o) s (fun t =>
    match portsServe t [o.a] (some o.d) with
    | .error e => .error e
    | .ok () =>
      let (a, _, _, t) := readSlots t o 1
      let dst := o.fmt.toNat
      let src := o.limm.toNat % 16
      let sp := (o.limm.toNat / 16) % 8
      let dp := (o.limm.toNat / 128) % 8
      let n := cvtCount dst src
      let k := coreAt t (coreOf t.cur)
      let m := modeOf t t.cur o.rnd.toNat
      let fromInt := !(isFloatFmt src) && src ≠ 9 && src ≠ 10
      let r := (List.range n).map (fun j =>
        if predOn t o j then
          let x := decodeElem k.i4tab0 k.i4tab1 src (lane a (fmtBits src) (n * sp + j))
          some (if dst = 8 then encodeI4 k.i4tab0 k.i4tab1 fromInt x else roundNum m dst fromInt x)
        else none)
      let fl := r.foldl (fun acc e => match e with | some (_, g) => acc ||| g | none => acc) 0
      .ok (raiseFlags (writeDest t o.d (fmtBits dst) (n * dp) (r.map (fun e => e.map (·.1)))) t.cur fl))

/-- Combine of VRED for two members (R272). -/
def redCombine (mode f op : Nat) (sat : Bool) (x y : Nat) : Nat × Flags :=
  match op with
  | 0 => if isFloatFmt f then floatAdd mode f x y else (intLane f sat (intVal f x + intVal f y), 0)
  | 1 => if isFloatFmt f then floatMinMax f false x y else (intLane f false (min (intVal f x) (intVal f y)), 0)
  | 2 => if isFloatFmt f then floatMinMax f true x y else (intLane f false (max (intVal f x) (intVal f y)), 0)
  | 3 => (x &&& y, 0)
  | 4 => (x ||| y, 0)
  | _ => (x ^^^ y, 0)

/-- One level of the tree of R134: neighbours combine, an absent member passes the other. -/
def treeLevel (g : Nat → Nat → Nat × Flags) : List (Option Nat) → List (Option Nat) × Flags
  | x :: y :: l =>
    let (r, fl) := treeLevel g l
    match x, y with
    | some a, some b => let (z, f2) := g a b
      (some z :: r, fl ||| f2)
    | some a, none => (some a :: r, fl)
    | none, b => (b :: r, fl)
  | l => (l, 0)

/-- The whole tree over at most 2^n members. -/
def treeAll (g : Nat → Nat → Nat × Flags) : Nat → List (Option Nat) → Option Nat × Flags
  | 0, l => (l.headD none, 0)
  | n + 1, l =>
    let (m, f1) := treeLevel g l
    let (r, f2) := treeAll g n m
    (r, f1 ||| f2)

/-- VRED (R272). -/
def execVred (o : OpV) (s : State) : Host.Outcome State Fault Refusal :=
  runSeq (.vred o) s (fun t =>
    match portsServe t [o.a] (some o.d) with
    | .error e => .error e
    | .ok () =>
      let (a, _, _, t) := readSlots t o 1
      let f := o.fmt.toNat
      let w := laneBits f
      let n := laneCount f
      let items := (List.range n).map (fun i => if predOn t o i then some (lane a w i) else none)
      let (r, fl) := treeAll (redCombine (modeOf t t.cur o.rnd.toNat) f (o.limm.toNat % 8) (nbit o.limm.toNat 3)) 5 items
      .ok (raiseFlags (writeDest t o.d w 0 (some (r.getD 0) :: List.replicate (n - 1) (some 0))) t.cur fl))

/-- VPERM (R273). -/
def execVperm (o : OpV) (s : State) : Host.Outcome State Fault Refusal :=
  runSeq (.vperm o) s (fun t =>
    let w := laneBits o.fmt.toNat
    laneOp t o 2 (fun _ a b _ i => (lane a w (lane b w i % laneCount o.fmt.toNat), 0)))

/-- VBCAST (R274). -/
def execVbcast (o : OpV) (s : State) : Host.Outcome State Fault Refusal :=
  runSeq (.vbcast o) s (fun t =>
    let w := laneBits o.fmt.toNat
    if 2048 ≤ o.limm.toNat then laneOp t o 0 (fun u _ _ _ _ => ((rg u u.cur o.a.toNat).toNat % 2 ^ w, 0))
    else laneOp t o 1 (fun _ a _ _ _ => (lane a w (o.limm.toNat % 32), 0)))

/-- VMOV (R275). -/
def execVmov (o : OpV) (s : State) : Host.Outcome State Fault Refusal :=
  runSeq (.vmov o) s (fun t =>
    let f := o.fmt.toNat
    let w := laneBits f
    if 2048 ≤ o.limm.toNat then
      match portsServe t [o.a] none with
      | .error e => .error e
      | .ok () =>
        let (a, _, _, t) := readSlots t o 1
        let x := lane a w (o.limm.toNat % 32)
        .ok (wg t t.cur o.d.toNat (if f = 2 || f = 4 then sextN x w else BitVec.ofNat 64 x))
    else laneOp t o 1 (fun _ a _ _ i => (lane a w i, 0)))

/-- VIOTA (R276). -/
def execViota (o : OpV) (s : State) : Host.Outcome State Fault Refusal :=
  runSeq (.viota o) s (fun t => laneOp t o 0 (fun _ _ _ _ i => ((o.limm.toNat + i) % 2 ^ laneBits o.fmt.toNat, 0)))

/-- VAND (R277). -/
def execVand (o : OpV) (s : State) : Host.Outcome State Fault Refusal := runSeq (.vand o) s (fun t => bits2 t o (· &&& ·))
/-- VOR (R277). -/
def execVor (o : OpV) (s : State) : Host.Outcome State Fault Refusal := runSeq (.vor o) s (fun t => bits2 t o (· ||| ·))
/-- VXOR (R277). -/
def execVxor (o : OpV) (s : State) : Host.Outcome State Fault Refusal := runSeq (.vxor o) s (fun t => bits2 t o (· ^^^ ·))

/-- A shift of R277: the count is limm[4:0], or the lane of B. -/
def shiftOp (s : State) (o : OpV) (g : Nat → Nat → Nat → Nat) : Res State :=
  let w := laneBits o.fmt.toNat
  if 2048 ≤ o.limm.toNat then laneOp s o 1 (fun _ a _ _ i => (g w (lane a w i) (o.limm.toNat % 32), 0))
  else laneOp s o 2 (fun _ a b _ i => (g w (lane a w i) (lane b w i), 0))

/-- VSHL (R277). -/
def execVshl (o : OpV) (s : State) : Host.Outcome State Fault Refusal :=
  runSeq (.vshl o) s (fun t => shiftOp t o (fun w x n => if w ≤ n then 0 else (x <<< n) % 2 ^ w))
/-- VSHR (R277): copies of the sign for signed formats, zeros otherwise. -/
def execVshr (o : OpV) (s : State) : Host.Outcome State Fault Refusal :=
  runSeq (.vshr o) s (fun t => shiftOp t o (fun w x n =>
    if o.fmt.toNat % 2 = 1 then (if w ≤ n then 0 else x >>> n) else ((signedN x w) / 2 ^ (min n w) % 2 ^ w).toNat))

/-- A correctly rounded function (R278); the function unit takes one instruction every 4 or 8 cycles (R265). -/
def funcOp (s : State) (o : OpV) (g : Num → Num × Flags) : Res State :=
  let k := coreOf s.cur
  if s.cycle < (coreAt s k).unitFree then parkOn .functionUnit s
  else
    let f := o.fmt.toNat
    match lane1 s o (fun t x => rounded (modeOf t t.cur o.rnd.toNat) f (g (decodeIeee f x))) with
    | .error e => .error e
    | .ok t => .ok (modCore t k (fun x => { x with unitFree := s.cycle + (if laneCount f = 16 then 4 else 8) }))

/-- VRCP (R278). -/
def execVrcp (o : OpV) (s : State) : Host.Outcome State Fault Refusal := runSeq (.vrcp o) s (fun t => funcOp t o rcpNum)
/-- VRSQ (R278). -/
def execVrsq (o : OpV) (s : State) : Host.Outcome State Fault Refusal := runSeq (.vrsq o) s (fun t => funcOp t o rsqNum)
/-- VEXP2 (R278). -/
def execVexp2 (o : OpV) (s : State) : Host.Outcome State Fault Refusal := runSeq (.vexp2 o) s (fun t => funcOp t o exp2Num)
/-- VLOG2 (R278). -/
def execVlog2 (o : OpV) (s : State) : Host.Outcome State Fault Refusal := runSeq (.vlog2 o) s (fun t => funcOp t o log2Num)

/-- PAND (R279). -/
def execPand (o : OpV) (s : State) : Host.Outcome State Fault Refusal :=
  runPure (.pand o) s (fun t => wp t t.cur o.d.toNat (rp t t.cur o.a.toNat &&& rp t t.cur o.b.toNat))
/-- POR (R279). -/
def execPor (o : OpV) (s : State) : Host.Outcome State Fault Refusal :=
  runPure (.por o) s (fun t => wp t t.cur o.d.toNat (rp t t.cur o.a.toNat ||| rp t t.cur o.b.toNat))
/-- PNOT (R279). -/
def execPnot (o : OpV) (s : State) : Host.Outcome State Fault Refusal :=
  runPure (.pnot o) s (fun t => wp t t.cur o.d.toNat (~~~ (rp t t.cur o.a.toNat)))
/-- PMOV (R279, Table 17-5). -/
def execPmov (o : OpV) (s : State) : Host.Outcome State Fault Refusal :=
  runPure (.pmov o) s (fun t =>
    if o.limm = 0 then wp t t.cur o.d.toNat (rp t t.cur o.a.toNat)
    else if o.limm = 1 then wp t t.cur o.d.toNat ((rg t t.cur o.a.toNat).setWidth 32)
    else wg t t.cur o.d.toNat ((rp t t.cur o.a.toNat).setWidth 64))

end Sys2Proof.Machine
end

