-- ==== Sys2Proof/Machine/Dispatch.lean ====
section
/-! DEFINITION. One arm per row of the opcode table. -/

namespace Sys2Proof.Machine

/-- What an instruction or event does. -/
def exec (i : Instr) (s : State) : Host.Outcome State Fault Refusal :=
  match i with
  | .add o => Sys2Proof.Machine.execAdd o s
  | .sub o => Sys2Proof.Machine.execSub o s
  | .mul o => Sys2Proof.Machine.execMul o s
  | .mulh o => Sys2Proof.Machine.execMulh o s
  | .div o => Sys2Proof.Machine.execDiv o s
  | .rem o => Sys2Proof.Machine.execRem o s
  | .and o => Sys2Proof.Machine.execAnd o s
  | .or o => Sys2Proof.Machine.execOr o s
  | .xor o => Sys2Proof.Machine.execXor o s
  | .andn o => Sys2Proof.Machine.execAndn o s
  | .shl o => Sys2Proof.Machine.execShl o s
  | .shr o => Sys2Proof.Machine.execShr o s
  | .sar o => Sys2Proof.Machine.execSar o s
  | .rot o => Sys2Proof.Machine.execRot o s
  | .min o => Sys2Proof.Machine.execMin o s
  | .max o => Sys2Proof.Machine.execMax o s
  | .sel o => Sys2Proof.Machine.execSel o s
  | .cmp o => Sys2Proof.Machine.execCmp o s
  | .clz o => Sys2Proof.Machine.execClz o s
  | .ctz o => Sys2Proof.Machine.execCtz o s
  | .popc o => Sys2Proof.Machine.execPopc o s
  | .sext o => Sys2Proof.Machine.execSext o s
  | .bfx o => Sys2Proof.Machine.execBfx o s
  | .bfi o => Sys2Proof.Machine.execBfi o s
  | .lea o => Sys2Proof.Machine.execLea o s
  | .addi o => Sys2Proof.Machine.execAddi o s
  | .movi o => Sys2Proof.Machine.execMovi o s
  | .movhi o => Sys2Proof.Machine.execMovhi o s
  | .br o => Sys2Proof.Machine.execBr o s
  | .brz o => Sys2Proof.Machine.execBrz o s
  | .jmp o => Sys2Proof.Machine.execJmp o s
  | .call o => Sys2Proof.Machine.execCall o s
  | .loop o => Sys2Proof.Machine.execLoop o s
  | .fork o => Sys2Proof.Machine.execFork o s
  | .jr o => Sys2Proof.Machine.execJr o s
  | .ret o => Sys2Proof.Machine.execRet o s
  | .hret o => Sys2Proof.Machine.execHret o s
  | .habort o => Sys2Proof.Machine.execHabort o s
  | .hold o => Sys2Proof.Machine.execHold o s
  | .release o => Sys2Proof.Machine.execRelease o s
  | .yield o => Sys2Proof.Machine.execYield o s
  | .gyield o => Sys2Proof.Machine.execGyield o s
  | .gbar o => Sys2Proof.Machine.execGbar o s
  | .nop o => Sys2Proof.Machine.execNop o s
  | .illegalPattern w => Sys2Proof.Machine.execIllegalPattern w s
  | .ld o => Sys2Proof.Machine.execLd o s
  | .st o => Sys2Proof.Machine.execSt o s
  | .ldv o => Sys2Proof.Machine.execLdv o s
  | .stv o => Sys2Proof.Machine.execStv o s
  | .lds o => Sys2Proof.Machine.execLds o s
  | .ldP o => Sys2Proof.Machine.execLdP o s
  | .ldt o => Sys2Proof.Machine.execLdt o s
  | .pref o => Sys2Proof.Machine.execPref o s
  | .flush o => Sys2Proof.Machine.execFlush o s
  | .acq o => Sys2Proof.Machine.execAcq o s
  | .fence o => Sys2Proof.Machine.execFence o s
  | .sts o => Sys2Proof.Machine.execSts o s
  | .stsA o => Sys2Proof.Machine.execStsA o s
  | .slop o => Sys2Proof.Machine.execSlop o s
  | .cmls o => Sys2Proof.Machine.execCmls o s
  | .agg o => Sys2Proof.Machine.execAgg o s
  | .tklend o => Sys2Proof.Machine.execTklend o s
  | .tkret o => Sys2Proof.Machine.execTkret o s
  | .tksplit o => Sys2Proof.Machine.execTksplit o s
  | .tkjoin o => Sys2Proof.Machine.execTkjoin o s
  | .tkshare o => Sys2Proof.Machine.execTkshare o s
  | .tkdrop o => Sys2Proof.Machine.execTkdrop o s
  | .tkpark o => Sys2Proof.Machine.execTkpark o s
  | .tkcarve o => Sys2Proof.Machine.execTkcarve o s
  | .tkstat o => Sys2Proof.Machine.execTkstat o s
  | .tkclaim o => Sys2Proof.Machine.execTkclaim o s
  | .tkclean o => Sys2Proof.Machine.execTkclean o s
  | .vadd o => Sys2Proof.Machine.execVadd o s
  | .vsub o => Sys2Proof.Machine.execVsub o s
  | .vmul o => Sys2Proof.Machine.execVmul o s
  | .vfma o => Sys2Proof.Machine.execVfma o s
  | .vmin o => Sys2Proof.Machine.execVmin o s
  | .vmax o => Sys2Proof.Machine.execVmax o s
  | .vabs o => Sys2Proof.Machine.execVabs o s
  | .vneg o => Sys2Proof.Machine.execVneg o s
  | .vdot o => Sys2Proof.Machine.execVdot o s
  | .vcmp o => Sys2Proof.Machine.execVcmp o s
  | .vsel o => Sys2Proof.Machine.execVsel o s
  | .vcvt o => Sys2Proof.Machine.execVcvt o s
  | .vred o => Sys2Proof.Machine.execVred o s
  | .vperm o => Sys2Proof.Machine.execVperm o s
  | .vbcast o => Sys2Proof.Machine.execVbcast o s
  | .vmov o => Sys2Proof.Machine.execVmov o s
  | .viota o => Sys2Proof.Machine.execViota o s
  | .vand o => Sys2Proof.Machine.execVand o s
  | .vor o => Sys2Proof.Machine.execVor o s
  | .vxor o => Sys2Proof.Machine.execVxor o s
  | .vshl o => Sys2Proof.Machine.execVshl o s
  | .vshr o => Sys2Proof.Machine.execVshr o s
  | .vrcp o => Sys2Proof.Machine.execVrcp o s
  | .vrsq o => Sys2Proof.Machine.execVrsq o s
  | .vexp2 o => Sys2Proof.Machine.execVexp2 o s
  | .vlog2 o => Sys2Proof.Machine.execVlog2 o s
  | .pand o => Sys2Proof.Machine.execPand o s
  | .por o => Sys2Proof.Machine.execPor o s
  | .pnot o => Sys2Proof.Machine.execPnot o s
  | .pmov o => Sys2Proof.Machine.execPmov o s
  | .i4tab o => Sys2Proof.Machine.execI4tab o s
  | .cnew o => Sys2Proof.Machine.execCnew o s
  | .cset o => Sys2Proof.Machine.execCset o s
  | .wnew o => Sys2Proof.Machine.execWnew o s
  | .link o => Sys2Proof.Machine.execLink o s
  | .cxld o => Sys2Proof.Machine.execCxld o s
  | .cgrab o => Sys2Proof.Machine.execCgrab o s
  | .send o => Sys2Proof.Machine.execSend o s
  | .mrel o => Sys2Proof.Machine.execMrel o s
  | .chopen o => Sys2Proof.Machine.execChopen o s
  | .chput o => Sys2Proof.Machine.execChput o s
  | .chget o => Sys2Proof.Machine.execChget o s
  | .chclose o => Sys2Proof.Machine.execChclose o s
  | .nput o => Sys2Proof.Machine.execNput o s
  | .srd o => Sys2Proof.Machine.execSrd o s
  | .swr o => Sys2Proof.Machine.execSwr o s
  | .trap o => Sys2Proof.Machine.execTrap o s
  | .ctxsave o => Sys2Proof.Machine.execCtxsave o s
  | .ctxrest o => Sys2Proof.Machine.execCtxrest o s
  | .vgrow o => Sys2Proof.Machine.execVgrow o s
  | .vshrink o => Sys2Proof.Machine.execVshrink o s
  | .wdog o => Sys2Proof.Machine.execWdog o s
  | .mstat o => Sys2Proof.Machine.execMstat o s
  | .mgang o => Sys2Proof.Machine.execMgang o s
  | .mwait o => Sys2Proof.Machine.execMwait o s
  | .mdrain o => Sys2Proof.Machine.execMdrain o s
  | .memit o => Sys2Proof.Machine.execMemit o s
  | .ald o => Sys2Proof.Machine.execAld o s
  | .ast o => Sys2Proof.Machine.execAst o s
  | .mzero o => Sys2Proof.Machine.execMzero o s
  | .mterm o => Sys2Proof.Machine.execMterm o s
  | .job o => Sys2Proof.Machine.execJob o s
  | .jpoll o => Sys2Proof.Machine.execJpoll o s
  | .jwait o => Sys2Proof.Machine.execJwait o s
  | .jnext o => Sys2Proof.Machine.execJnext o s
  | .jdone o => Sys2Proof.Machine.execJdone o s
  | .tload o => Sys2Proof.Machine.execTload o s
  | .bulk o => Sys2Proof.Machine.execBulk o s
  | .gather o => Sys2Proof.Machine.execGather o s
  | .scatter o => Sys2Proof.Machine.execScatter o s
  | .rgather o => Sys2Proof.Machine.execRgather o s
  | .qpush o => Sys2Proof.Machine.execQpush o s
  | .boqp o => Sys2Proof.Machine.execBoqp o s
  | .broq o => Sys2Proof.Machine.execBroq o s
  | .bari o => Sys2Proof.Machine.execBari o s
  | .waitb o => Sys2Proof.Machine.execWaitb o s
  | .gopen o => Sys2Proof.Machine.execGopen o s
  | .gsend o => Sys2Proof.Machine.execGsend o s
  | .gred o => Sys2Proof.Machine.execGred o s
  | .gdrain o => Sys2Proof.Machine.execGdrain o s
  | .gclose o => Sys2Proof.Machine.execGclose o s
  | .rqnote o => Sys2Proof.Machine.execRqnote o s
  | .rqflt o => Sys2Proof.Machine.execRqflt o s
  | .rqslot o => Sys2Proof.Machine.execRqslot o s
  | .grlaunch o => Sys2Proof.Machine.execGrlaunch o s
  | .grsig o => Sys2Proof.Machine.execGrsig o s
  | .contextReady c => Sys2Proof.Machine.execContextReady c s
  | .budgetExpiry c => Sys2Proof.Machine.execBudgetExpiry c s
  | .watchdogExpiry c => Sys2Proof.Machine.execWatchdogExpiry c s
  | .faultQueueDelivery die => Sys2Proof.Machine.execFaultQueueDelivery die s
  | .trapResume c => Sys2Proof.Machine.execTrapResume c s
  | .trapRelease c => Sys2Proof.Machine.execTrapRelease c s
  | .trapRetire c => Sys2Proof.Machine.execTrapRetire c s
  | .messageArrival id => Sys2Proof.Machine.execMessageArrival id s
  | .refusalReturn id => Sys2Proof.Machine.execRefusalReturn id s
  | .messageRetry id => Sys2Proof.Machine.execMessageRetry id s
  | .noticeDelivery id => Sys2Proof.Machine.execNoticeDelivery id s
  | .sendBufferEntryLeave c => Sys2Proof.Machine.execSendBufferEntryLeave c s
  | .launch id => Sys2Proof.Machine.execLaunch id s
  | .waitingLaunchStart core => Sys2Proof.Machine.execWaitingLaunchStart core s
  | .routineSelect core => Sys2Proof.Machine.execRoutineSelect core s
  | .dequePop core => Sys2Proof.Machine.execDequePop core s
  | .stealProbe core => Sys2Proof.Machine.execStealProbe core s
  | .stealArrival id => Sys2Proof.Machine.execStealArrival id s
  | .pairDispatch core slot => Sys2Proof.Machine.execPairDispatch core slot s
  | .cellTake core slot second => Sys2Proof.Machine.execCellTake core slot second s
  | .pairSlotReady core slot => Sys2Proof.Machine.execPairSlotReady core slot s
  | .linkSwap id => Sys2Proof.Machine.execLinkSwap id s
  | .pairPlacement id => Sys2Proof.Machine.execPairPlacement id s
  | .cellWrite id => Sys2Proof.Machine.execCellWrite id s
  | .reservoirRefill core => Sys2Proof.Machine.execReservoirRefill core s
  | .sliceAccess id => Sys2Proof.Machine.execSliceAccess id s
  | .postedStoreAck id => Sys2Proof.Machine.execPostedStoreAck id s
  | .aggFlush core => Sys2Proof.Machine.execAggFlush core s
  | .lineFill core line => Sys2Proof.Machine.execLineFill core line s
  | .instructionFetchFill core line => Sys2Proof.Machine.execInstructionFetchFill core line s
  | .l2ChannelCommand slice line => Sys2Proof.Machine.execL2ChannelCommand slice line s
  | .sectorArrival slice line => Sys2Proof.Machine.execSectorArrival slice line s
  | .pageWalkRead vertex => Sys2Proof.Machine.execPageWalkRead vertex s
  | .tokenWalk c => Sys2Proof.Machine.execTokenWalk c s
  | .writeBackAck id => Sys2Proof.Machine.execWriteBackAck id s
  | .tokenEntryChange id => Sys2Proof.Machine.execTokenEntryChange id s
  | .latticeJobStart vertex => Sys2Proof.Machine.execLatticeJobStart vertex s
  | .latticeJobEnd vertex disagree => Sys2Proof.Machine.execLatticeJobEnd vertex disagree s
  | .accessTransferLine vertex => Sys2Proof.Machine.execAccessTransferLine vertex s
  | .barrierDecrement vertex => Sys2Proof.Machine.execBarrierDecrement vertex s
  | .dataQueueResume c => Sys2Proof.Machine.execDataQueueResume c s
  | .neighbourResume c => Sys2Proof.Machine.execNeighbourResume c s
  | .meshBarrierComplete gang => Sys2Proof.Machine.execMeshBarrierComplete gang s
  | .chordWordArrival core => Sys2Proof.Machine.execChordWordArrival core s
  | .chordTimeout c => Sys2Proof.Machine.execChordTimeout c s
  | .nodeEligible gi node => Sys2Proof.Machine.execNodeEligible gi node s
  | .nodeStart die => Sys2Proof.Machine.execNodeStart die s
  | .nodeEvaluate gi node => Sys2Proof.Machine.execNodeEvaluate gi node s
  | .netSeed gi node => Sys2Proof.Machine.execNetSeed gi node s
  | .gangReserve gang core => Sys2Proof.Machine.execGangReserve gang core s
  | .gangStart gang => Sys2Proof.Machine.execGangStart gang s
  | .batchStep gi node => Sys2Proof.Machine.execBatchStep gi node s
  | .nodeComplete gi node => Sys2Proof.Machine.execNodeComplete gi node s
  | .gangPreempt gang => Sys2Proof.Machine.execGangPreempt gang s
  | .gangSave gang block => Sys2Proof.Machine.execGangSave gang block s
  | .lockstepOutput c agree => Sys2Proof.Machine.execLockstepOutput c agree s
  | .coreKill core checker => Sys2Proof.Machine.execCoreKill core checker s
  | .containment core => Sys2Proof.Machine.execContainment core s
  | .regionRecovery base clean holder => Sys2Proof.Machine.execRegionRecovery base clean holder s
  | .uncorrectableError pa => Sys2Proof.Machine.execUncorrectableError pa s
  | .ruleRemoval slots => Sys2Proof.Machine.execRuleRemoval slots s
  | .routineWrite core index w0 w1 => Sys2Proof.Machine.execRoutineWrite core index w0 w1 s
  | .apertureRead requester offset count => Sys2Proof.Machine.execApertureRead requester offset count s
  | .apertureWrite requester offset data => Sys2Proof.Machine.execApertureWrite requester offset data s
  | .controlRegisterWrite requester offset data => Sys2Proof.Machine.execControlRegisterWrite requester offset data s
  | .ltarget requester target => Sys2Proof.Machine.execLtarget requester target s
  | .hostLaunchRetry id => Sys2Proof.Machine.execHostLaunchRetry id s
  | .ringtail requester value => Sys2Proof.Machine.execRingtail requester value s
  | .evhead requester value => Sys2Proof.Machine.execEvhead requester value s
  | .resync requester buffer => Sys2Proof.Machine.execResync requester buffer s
  | .unmap tag root va => Sys2Proof.Machine.execUnmap tag root va s
  | .quota tag account units => Sys2Proof.Machine.execQuota tag account units s
  | .telemetry tag buffer select => Sys2Proof.Machine.execTelemetry tag buffer select s
  | .clrstart tag => Sys2Proof.Machine.execClrstart tag s
  | .fwstage tag image size => Sys2Proof.Machine.execFwstage tag image size s
  | .attest tag buffer => Sys2Proof.Machine.execAttest tag buffer s
  | .powerlim tag watts => Sys2Proof.Machine.execPowerlim tag watts s
  | .unknownCommand tag opcode => Sys2Proof.Machine.execUnknownCommand tag opcode s
  | .cxlLinkDown port => Sys2Proof.Machine.execCxlLinkDown port s
  | .ralquelPortDown port lost => Sys2Proof.Machine.execRalquelPortDown port lost s
  | .stopNotice => Sys2Proof.Machine.execStopNotice s
  | .stopNoticeReceived device => Sys2Proof.Machine.execStopNoticeReceived device s
  | .peerLost device => Sys2Proof.Machine.execPeerLost device s
  | .limitReached die cause => Sys2Proof.Machine.execLimitReached die cause s
  | .emergencyLimit die => Sys2Proof.Machine.execEmergencyLimit die s
  | .clockRestart => Sys2Proof.Machine.execClockRestart s
  | .startUp cfg => Sys2Proof.Machine.execStartUp cfg s
  | .powerLoss step => Sys2Proof.Machine.execPowerLoss step s
  | .hostCommandCompletion => Sys2Proof.Machine.execHostCommandCompletion s
  | .spillRegionAdd region => Sys2Proof.Machine.execSpillRegionAdd region s
  | .peerAnswersAgain device => Sys2Proof.Machine.execPeerAnswersAgain device s
  | .ruleAddition rules => Sys2Proof.Machine.execRuleAddition rules s
  | .contextPreemptRequest c => Sys2Proof.Machine.execContextPreemptRequest c s
  | .reservedContextRelease c => Sys2Proof.Machine.execReservedContextRelease c s
  | .heapLineRegistration wire heap base size account => Sys2Proof.Machine.execHeapLineRegistration wire heap base size account s
  | .accountPoolAddition account base lsize => Sys2Proof.Machine.execAccountPoolAddition account base lsize s
  | .batchGraphRegisterWrite graph load => Sys2Proof.Machine.execBatchGraphRegisterWrite graph load s

end Sys2Proof.Machine
end

