-- ==== Sys2Proof/Machine/Outside.lean ====
section
/-! DEFINITION. What comes from outside the module, or from its firmware, and is no row of the opcode table: reads of the control window,
accesses and messages of other devices' agents, regions made open, counters cleared, recovery cores named (R4, R88, R107, R148, R175 to R177,
R217, R383; log 110). -/

namespace Sys2Proof.Machine

/-! ### BAR0 reads (R4, R383, Table 27-1) -/

/-- A byte of the control window: what is write-only or reserved reads zero. -/
def controlByte (s : State) (a : Nat) : Byte :=
  let h := s.host
  ((bytesOf h.apbase.toNat 8 ++ bytesOf h.ringbase.toNat 8 ++ bytesOf h.evbase.toNat 8 ++ bytesOf h.ringtail.toNat 4 ++ bytesOf h.ringhead.toNat 4 ++
    bytesOf h.evtail.toNat 4 ++ bytesOf h.evhead.toNat 4).getD a 0)

/-- A read of the control window. -/
def controlRead (requester offset count : Nat) (s : State) : State :=
  if !(requestOk offset count 4096) || 2 ^ 24 < offset + count || heldBack s requester then s
  else completeRead s requester 0 ((List.range count).map (fun i => controlByte s (offset + i)))

/-! ### Accesses of other devices (R88, R111, R175, R177) -/

/-- An answer leaves for an agent of another device. -/
def answer (s : State) (agent code : Nat) (l : List Word) : State := { s with answers := s.answers ++ [(agent, code, l)] }

/-- The number of no core of this module: an issuer that caches nothing here (R175). -/
def noCore : Nat := 8192

/-- The answer that refuses a stale transfer count, which is no fault code (R110). -/
def staleCount : Nat := 256

/-- The holder words under which another device's agent asks: its own, and of an access core's context that of its engine (R111). -/
def servedWords (agent : Nat) : List Word :=
  let k := coreOf (agentLocal agent)
  [holderAgent agent] ++ (if isAccess k then [holderAgent (agentId (agentDevice agent) (8 * k / 128 * 128 + 8 * 13))] else [])

/-- A token instruction of another device's agent, at the entry: checked and performed in one step; a stale transfer count is refused with the
count that stands, once; an agent that then does not hold what it needs faults TOKEN-NONE, any other breach of Table 06-5 is TOKEN-BADOP (R110,
R115, R177). -/
def serveToken (s : State) (agent va : Nat) (kind : TokenKind) (holder : Word) (xfer : BitVec 32) (again : Bool) : State :=
  let ws := servedWords agent
  match tokenProbe s va with
  | none => answer s agent cTokenNone []
  | some t =>
    let o : TokenOp := { kind := kind, va := va, holder := holder, d := 0, lsize := 0, commons := false, xfer := xfer, retried := again }
    if t.xfer ≠ xfer && !again then answer s agent staleCount [t.xfer.setWidth 64]
    else if again && !(tokenNeeded s ws none o t) then answer s agent cTokenNone []
    else if t.xfer ≠ xfer then answer s agent cTokenBadop []
    else match tokenBad s ws none o t with
    | some i => answer s agent i.code []
    | none => answer (applyToken s ws none noCore o t) agent 0 [tokenResult s o t]

/-- TKCLEAN of another device's agent (R302). -/
def serveClean (s : State) (agent va : Nat) : State :=
  match tokenProbe s va with
  | none => answer s agent cTokenNone []
  | some t => answer (setToken s { t with taint := false }) agent 0 []

/-- How an access of another device checks its region (R113), and the bytes that it reaches from its address. -/
def servedUse : PeerRequest → TokenUse × Nat
  | .load n peek => (if peek then .peek else .read, n)
  | .store data slice => (if slice then .sliceop else .write, data.length)
  | .rmw w _ _ _ => (.sliceop, w / 8)
  | _ => (.net, 8)

/-- An access whose sectors are at its slice is performed there; a first store of a holder is noted at the entry (R114). -/
def performServed (s : State) (agent va pa cls : Nat) (what : PeerRequest) : State :=
  match what with
  | .load n _ => answer s agent 0 ((List.range (ceilDiv n 8)).map (fun i => BitVec.ofNat 64 (readMem s (pa + 8 * i) (min 8 n))))
  | .store data _ =>
    let s := programWrite s cls pa data
    answer (match tokenCovering s va with | some t => if t.mode = .exclusive then noticeStore s va else s | none => s) agent 0 []
  | .rmw w op val cmp =>
    let (old, t) := sliceRmw s pa w op val cmp
    answer (if barsWrite s cls pa then s else t) agent 0 [sextN old w]
  | _ => s

/-- An access of another device's agent to memory: translated and checked here, on a page that is not writable under its permission alone (R106),
then performed at its home slice (R88, R175, R388). -/
def serveAccess (s : State) (agent va : Nat) (what : PeerRequest) : State :=
  let (use, n) := servedUse what
  if 2 ^ 53 - 2 ^ 32 ≤ va then answer s agent cXlatePerm []
  else match translateNow s va (use = .write || use = .sliceop) with
  | .error c => answer s agent c []
  | .ok (pa, home, leaf) =>
    match (if leafWr leaf then tokenCheckNow s (servedWords agent) none va use else none) with
    | some (c, _) => answer s agent c []
    | none =>
      let (ok, s) := reachL2 s (.remote agent) (home % 2048) pa n (home / 2048) (use = .write || use = .sliceop)
      if !ok then s
      else if cxlGone s pa || (anyPoison s pa n && !(match what with | .store .. => true | _ => false)) then answer (poisonAt s va) agent cPoison []
      else performServed s agent va pa (home / 2048) what

/-- A net access of another device's agent goes to its home slice as a posted flight of no context. -/
def injectFlight (s : State) (home : Nat) (ea : Word) (op : SliceOp) : State :=
  { s with
    nextId := s.nextId + 1
    flights := s.flights ++ [{
      id := s.nextId, ctx := 65536, group := 0, path := 1, ordered := true, posted := true, slice := home % 2048, cls := home / 2048, ea := ea, op := op
      wb := [], done := false, pc := 0, undo := none, due := s.cycle, back := 0, fault := none, net := none }] }

/-- A take of a cell here into an inbox slot of the agent's core there: its words leave, what is parked on it passes to that slot (R29, R116,
R177). -/
def serveTake (s : State) (agent slot : Nat) (ref : Word) (pa home : Nat) : State :=
  let a := refAddr ref
  let (ok, s) := reachL2 s (.remote agent) (home % 2048) pa 24 (home / 2048) false
  if !ok then s
  else if (heapAt s.cellHeaps a).isNone || !(itemState s false a = .live || itemState s false a = .drawn) then answer s agent cBadRef []
  else if anyPoison s pa 24 then answer (poisonAt s a) agent cPoison []
  else
    let ws := (List.range 3).map (fun i => BitVec.ofNat 64 (readMem s (pa + 8 * i) 8))
    let l := heldBy s (holderCell s.device a)
    answer (moveTokens (setItem s false a .heldBack) (holderCell s.device a) (BitVec.ofNat 64 (5 * 2 ^ 61 + slot * 2 ^ 27 + agent / 8 * 8)) l) agent 0 ws

/-- A net access of another device's agent (R28, R29, R175, R307, R308). -/
def serveNet (s : State) (agent : Nat) (ref : Word) (what : PeerRequest) : State :=
  let a := refAddr ref
  match translateNow s a true with
  | .error _ => answer s agent cBadRef []
  | .ok (pa, home, _) =>
    match what with
    | .cset w x => answer (injectFlight s home ref (.cset ref pa (w % 4) x)) agent 0 []
    | .link other => answer (injectFlight s home ref (.link ref pa other)) agent 0 []
    | .cxld =>
      let (ok, s) := reachL2 s (.remote agent) (home % 2048) (pa + 24) 8 (home / 2048) false
      if !ok then s
      else if (heapAt s.cellHeaps a).isNone || itemState s false a = .free then answer s agent cBadRef []
      else if anyPoison s (pa + 24) 8 then answer (poisonAt s a) agent cPoison []
      else answer s agent 0 [BitVec.ofNat 64 (readMem s (pa + 24) 8)]
    | .take slot => serveTake s agent slot ref pa home
    | .release live => if itemState s false a = .heldBack then setItem s false a (if live then .live else .free) else s
    | _ => s

/-- What another device asks for is served here: `ref` is a global reference for accesses and token instructions, a cell or slot reference for
net accesses. One that names another device than this one has not come here. -/
def serve (agent : Nat) (ref : Word) (what : PeerRequest) (s : State) : State :=
  let va := ref.toNat % 2 ^ 53
  let mine := ref.toNat / 2 ^ 53 = s.device
  let net := refDevice ref = s.device
  if agentDevice agent = s.device || !(namesAgent agent) then s
  else
  let s := peerSpoke s (agentDevice agent)
  match what with
  | .load .. | .store .. | .rmw .. => if mine then serveAccess s agent va what else s
  | .token w x again => if !mine then s else match w with
    | .lend h => serveToken s agent va .lend h x again
    | .ret => serveToken s agent va .ret 0 x again
    | .split => serveToken s agent va .split 0 x again
    | .join => serveToken s agent va .join 0 x again
    | .share h => serveToken s agent va .share h x again
    | .drop => serveToken s agent va .drop 0 x again
    | .park h sh => serveToken s agent va (if sh then .parkShare else .park) h x again
  | .clean => if mine then serveClean s agent va else s
  | .stat => if mine then answer s agent 0 (match tokenProbe s va with | some t => tokenWords t | none => [0, 0, 0, 0]) else s
  | .cset .. | .link _ | .cxld | .take _ | .release _ => if net then serveNet s agent ref what else s

/-! ### Messages of other devices (R15, R176) -/

/-- A message, launch, pair or placed item of another device enters at a Ralquel port, and flies to its core or locus. -/
def arrive (port : Nat) (a : Arrival) (s : State) : State :=
  if agentDevice a.sender = s.device || (a.placed.isNone && agentDevice a.dest ≠ s.device) || !(s.portsUp.contains port) then s
  else
    sendMsg (peerSpoke s (agentDevice a.sender)) .remote (portVertex port) .flying
      { newMsg a.cls a.sender a.msgid a.lease a.dest a.payload with
        checked := a.checked, attempts := a.attempts
        pair := a.pair.map (fun p => { first := p.1, second := p.2, radius := (a.placed.map (·.2)).getD 0, seed := none })
        placed := a.placed.map (fun p => (p.1, p.2, s.device)) }

/-! ### The firmware's own acts (R107, R148, R217) -/

/-- A region that is not on loan becomes open: frozen, with the share count 0xFFFF; share records that it has stay (R107; log 110). No core
grants a store of its old holder any more. -/
def openRegion (base : Nat) (s : State) : State :=
  match sget none s.tokens base with
  | some t =>
    if t.mode = .commons || t.lender ≠ 0 then s
    else (s.cores.map (·.1)).foldl (fun u k => uncache u k base) (setToken s { t with mode := .frozen, opened := true, xfer := t.xfer + 1 })
  | none => s

/-- The counter service clears a core's block, or the module's (R148). -/
def clearCounters (core : Option Nat) (s : State) : State :=
  match core with
  | some k => modCore s k (fun x => { x with counters := Counters.reset })
  | none => { s with statStopped := 0, statHostdrop := 0, statThermal := 0, statPoison := 0, noticeAt := 0 }

/-- ralload names the execute core of the recovery routine of an account, 1 to 4,095 (R217, R366). -/
def setRecovery (account core : Nat) (s : State) : State :=
  if account = 0 || 4096 ≤ account || !(isExecute core) || !(coreExists core) then s else setAccount s account { accountOf s account with recovery := some core }

/-- A take of a cell of another device, on which tokens and shares of this module are parked, gives them to the inbox slot there; that slot gives
them to its context (R29, R116, R300). -/
def foreignMove (old new_ : Word) (s : State) : State :=
  let slotAgent := fun (w : Word) => holderVal w % 2 ^ 27
  let cell := holderKind old = 3 && bits old.toNat 60 50 ≠ s.device && holderKind new_ = 5 && agentDevice (slotAgent new_) = bits old.toNat 60 50
  let slot := holderKind old = 5 && agentDevice (slotAgent old) ≠ s.device && holderKind new_ = 1 && slotAgent old / 8 = holderVal new_ / 8
  if cell || slot then moveTokens s old new_ (heldBy s old) else s

/-! ### What ralload writes (R362, R377, R378) -/

/-- The leaf of a 64 KiB page of a section: .text, .data, .commons, .cells, .tiles and .reqs as 0 to 5, homed package-wide (R378, Table 21-2). Every
page is readable and writable, so that the token decides and a store to code is TOKEN-FROZEN (R96, R106); .text alone is executable. R378 names
no permissions: they are the model's choice (log 129). -/
def sectionLeaf (part pa : Nat) : Nat :=
  let cls := [4, 2, 2, 3, 0, 5].getD part 0
  2 ^ 63 + 2 ^ 60 + 2 ^ 59 + 2 ^ 58 + (if part = 0 then 2 ^ 57 else 0) + cls * 2 ^ 53 + 2 ^ 52 + pa

/-- The entry of level 3 for an address, with the tables that are missing on the way made, empty, where the load has room for them; none when the
way ends in a leaf or a bad entry. -/
def makePath (va : Nat) (tables : List Nat) : Nat → Nat → Nat → State → Option (Nat × State)
  | 0, _, _, _ => none
  | fuel + 1, l, table, s =>
    if l = 3 then some (entryAddr table 3 va, s)
    else
      let a := entryAddr table l va
      match readEntry s l va (readMem s a 8) with
      | .ok next => makePath va tables fuel (l + 1) next s
      | .error (.fault c) =>
        let t := tables.getD l 0
        if c ≠ cXlateMiss || t = 0 || t % 256 ≠ 0 || !(backed s t) then none
        else makePath va tables fuel (l + 1) t (performWrite (zeroFill s t (if l = 2 then 256 else 4096)) a (bytesOf (2 ^ 63 + t) 8))
      | .error (.leaf ..) => none

/-- ralload maps a page of a section; a valid entry changes only through the unmap service (R92, R378). -/
def loadPage (va pa part : Nat) (tables : List Nat) (s : State) : State :=
  if va % 65536 ≠ 0 || 0x1FFFFF00000000 ≤ va || pa % 65536 ≠ 0 || 6 ≤ part || !(backed s pa) then s
  else match makePath va tables 4 0 s.root s with
  | none => s
  | some (a, t) => if nbit (readMem t a 8) 63 then s else performWrite t a (bytesOf (sectionLeaf part pa) 8)

/-- Whether a routine entry may not be loaded on a core: a message or context uses what it replaces, its class is served already, or a valid
entry of another resident's account stands in its place or serves its class (R124, R125, R368, R377). -/
def routineClash (s : State) (j : Nat) (w0 w1 : Word) (k : Nat) : Bool :=
  let old := routineAt s k j
  let foreign := fun (w : Word × Word) => routineValid w && routineAcct w ≠ routineAcct (w0, w1)
  foreign old ||
    (List.range 8).any (fun i => let x := ctxOf s (8 * k + i)
      x.hmode && x.routine = j && x.run ≠ .idle && x.run ≠ .reserved) ||
    (routineValid old && (coreAt s k).inbox.any (fun q => q.msg.cls = routineClass old && (match q.phase with | .running _ => false | _ => true))) ||
    (List.range 16).any (fun i => i ≠ j && routineValid (routineAt s k i) && routineClass (routineAt s k i) = routineClass (w0, w1))

/-- One routine entry of an object in the table of every execute core; none when it may not be loaded on one of them. -/
def loadRoutine (s : State) (e : Nat × Word × Word) : Option State :=
  let cores := (List.range 8192).filter (fun k => isExecute k && coreExists k)
  if 16 ≤ e.1 || !(routineOk e.2.1 e.2.2) || !(nbit e.2.2.toNat 63) || cores.any (routineClash s e.1 e.2.1 e.2.2) then none
  else some (cores.foldl (fun t k => modCore t k (fun x => { x with routines := sput routineReset x.routines e.1 e.2 })) s)

/-- ralload writes every routine entry of an object, or refuses the load and changes no table (R377). -/
def loadRoutines (l : List (Nat × Word × Word)) (s : State) : State :=
  (l.foldl (fun (a : Option State) e => a.bind (fun t => loadRoutine t e)) (some s)).getD s

/-- A static cell or wire slot of an object takes its block or slot before the lines of its heap are registered, so that no refill draws it
(R103, R362). -/
def placeItem (wire : Bool) (addr : Nat) (s : State) : State :=
  if (heapAt s.wireHeaps addr).isNone && (heapAt s.cellHeaps addr).isNone && (tokenCovering s addr).any (·.mode = .commons) &&
      itemState s wire addr = .free && addr % (if wire then 8 else 32) = 0 then
    setItem s wire addr .live
  else s

/-- ralload writes the record of a .request, in state FREE, into a page of request tables (R127, R366). -/
def loadRecord (va : Nat) (words : List Word) (s : State) : State :=
  match translateNow s va true with
  | .ok (pa, _, leaf) =>
    if va % 256 = 0 && leafClass leaf = 5 && words.length = 32 && (words.headD 0).toNat % 8 = 0 && recordState s pa = 0 then
      performWrite s pa (words.flatMap (fun w => bytesOf w.toNat 8))
    else s
  | .error _ => s

/-- The apex force-unmaps the memory region behind a queue of an execute core: port 0 to 3, or its branch-outcome queue, 4 (R140; log 103). -/
def loseQueue (core port : Nat) (s : State) : State :=
  if isExecute core && coreExists core && port ≤ branchPort && !((coreAt s core).queuesLost.contains port) then
    modCore s core (fun x => { x with queuesLost := x.queuesLost ++ [port] })
  else s

/-- What comes from outside, none of it while the clock is stopped (R20, R219). -/
def outside (o : External) (s : State) : State :=
  if s.clockStopped then s
  else match o with
  | .controlRead requester offset count => controlRead requester offset count s
  | .serve agent ref what => serve agent ref what s
  | .arrive port a => arrive port a s
  | .openRegion base => openRegion base s
  | .clearCounters core => clearCounters core s
  | .setRecovery account core => setRecovery account core s
  | .foreignMove old new_ => foreignMove old new_ s
  | .loadPage va pa part tables => loadPage va pa part tables s
  | .loadRoutines l => loadRoutines l s
  | .loadRecord va words => loadRecord va words s
  | .placeItem wire addr => placeItem wire addr s
  | .loseQueue core port => loseQueue core port s
  | .drainPosted => drainPosted s

end Sys2Proof.Machine
end

