-- ==== Sys2Proof/Machine/Step.lean ====
section
/-! DEFINITION. One step of the module: a turn lets its cycles pass, then a core issues one instruction, one event happens, or something comes from outside
(R188, R223; log 1). -/

namespace Sys2Proof.Machine

/-- What a turn does. -/
def act (s : State) : Act → Host.Outcome State Fault Refusal
  | .event e => if s.clockStopped && !(runsStopped e) then .next s else exec e s
  | .outside o => .next (outside o s)
  | .issue k checker =>
    match issue s k checker with
    | .done t => .next t
    | .word i t => exec i t

/-- One step. -/
def step (s : State) : Host.Outcome State Fault Refusal :=
  match s.agenda with
  | t :: r => act (passCycles { s with agenda := r } t.cycles) t.act
  | [] => act (passCycles { s with turns := s.turns + 1 } (Config.freeTurn s.turns).cycles) (Config.freeTurn s.turns).act

/-- s with one instruction placed so that the next step issues it (log 8). -/
def State.withFetchWord (s : State) (nbits w : Nat) : State :=
  placeWord s (BitVec.ofNat 64 (w % 2 ^ nbits))

end Sys2Proof.Machine
end

