-- ==== Sys2Proof/Safety.lean ====
section
/-! DEFINITION. What counts as a safe run, and the terms in which the statements speak: an instruction that may issue, one that
answers a next state, and what an instruction leaves alone. -/

namespace Sys2Proof.Machine

/-- A step that goes on. -/
def goesOn (o : Host.Outcome State Fault Refusal) : Prop := ∃ t, o = .next t

/-- The state that every step keeps: memory in its canonical form. -/
abbrev State.Inv (s : State) : Prop := Memory.wf s.mem

/-- An instruction or event answers a next state with a property. -/
def Gives (i : Instr) (s : State) (P : State → Prop) : Prop := ∃ t, exec i s = .next t ∧ P t

/-- The context whose turn it is may issue an instruction: it is ready and no check of R233 stops it. -/
abbrev Issues (i : Instr) (s : State) : Prop := (ctxOf s s.cur).run = .ready ∧ issueFault i s = none

/-- Nothing waits for the context whose turn it is: no write of SWR, I4TAB, VGROW or VSHRINK for the next group (R48, R318, R322), no
stop at the group's end (R320, R323), no first instruction of a handler or member (R29, R147), no lockstep output (R213), no flags that sr.cflags is still to show (R53). -/
abbrev Quiet (s : State) : Prop :=
  (ctxOf s s.cur).pendingS = [] ∧ (ctxOf s s.cur).newAllot = none ∧ (ctxOf s s.cur).stopWhy = none ∧ (ctxOf s s.cur).fresh = false ∧
    (ctxOf s s.cur).lockPass = false ∧ (ctxOf s s.cur).regs.cf = 0

/-- Every byte of memory reads as before. -/
def MemKept (s t : State) : Prop := ∀ a, memByte t a = memByte s a

/-- Memory, the g registers but for `gs` and the p registers but for `ps` are as before; so are those of every other context, but for
the copy that follows in delayed lockstep (R214). -/
structure RegFrame (s t : State) (gs ps : List Nat) : Prop where
  cur : t.cur = s.cur
  mem : MemKept s t
  g : ∀ r, r ∉ gs → rg t s.cur r = rg s s.cur r
  p : ∀ r, r ∉ ps → rp t s.cur r = rp s s.cur r
  others : ∀ e, e ≠ s.cur → e ≠ partnerOf s.cur → (∀ r, rg t e r = rg s e r) ∧ ∀ r, rp t e r = rp s e r

/-- Of the whole module only the context whose turn it is and its core may differ. -/
def OwnOnly (s t : State) : Prop :=
  t = { s with ctxs := t.ctxs, cores := t.cores } ∧ (∀ k, k ≠ coreOf s.cur → coreAt t k = coreAt s k) ∧ ∀ e, e ≠ s.cur → ctxOf t e = ctxOf s e

/-- Of its core only the time of the issue slot, the write ports that wait for results, and the counters of issued instructions and of bank
conflicts may differ (R148, R375). -/
def CoreKept (s t : State) : Prop :=
  coreAt t (coreOf s.cur) = { coreAt s (coreOf s.cur) with issueFree := (coreAt t (coreOf s.cur)).issueFree, bankWrites := (coreAt t (coreOf s.cur)).bankWrites, counters := { (coreAt s (coreOf s.cur)).counters with
    issued := (coreAt s (coreOf s.cur)).counters.issued + 1, bank := (coreAt t (coreOf s.cur)).counters.bank } }

/-- The special registers, mode and buffers of the context whose turn it is, sr.flags apart. -/
structure SpecialKept (s t : State) : Prop where
  rmode : (ctxOf t s.cur).rmode = (ctxOf s s.cur).rmode
  allot : (ctxOf t s.cur).allot = (ctxOf s s.cur).allot
  acct : (ctxOf t s.cur).acct = (ctxOf s s.cur).acct
  lease : (ctxOf t s.cur).lease = (ctxOf s s.cur).lease
  gang : (ctxOf t s.cur).gang = (ctxOf s s.cur).gang
  hmode : (ctxOf t s.cur).hmode = (ctxOf s s.cur).hmode
  cip : (ctxOf t s.cur).cip = (ctxOf s s.cur).cip
  slot : (ctxOf t s.cur).slot = (ctxOf s s.cur).slot
  sendBuf : (ctxOf t s.cur).sendBuf = (ctxOf s s.cur).sendBuf
  writeLog : (ctxOf t s.cur).writeLog = (ctxOf s s.cur).writeLog
  track : (ctxOf t s.cur).track = (ctxOf s s.cur).track
  watchdog : (ctxOf t s.cur).watchdog = (ctxOf s s.cur).watchdog
  budget : (ctxOf t s.cur).budgetEnd = (ctxOf s s.cur).budgetEnd

/-- sr.flags of the context whose turn it is are as before. -/
def FlagsKept (s t : State) : Prop := (ctxOf t s.cur).regs.flags = (ctxOf s s.cur).regs.flags

/-- The v registers of the context whose turn it is, but for `vs`. -/
def VKept (s t : State) (vs : List Nat) : Prop := ∀ r, r ∉ vs → rv t s.cur r = rv s s.cur r

/-- An instruction that writes g[d] and no other state: g0 reads zero and discards the write (R72). -/
structure Writes (s t : State) (d : Nat) (x : Word) : Prop where
  value : rg t s.cur d = if d = 0 then 0 else x
  next : pcOf t = pcOf s + 8
  frame : RegFrame s t [d] []
  quiet : Quiet s → OwnOnly s t ∧ CoreKept s t ∧ SpecialKept s t ∧ FlagsKept s t ∧ VKept s t []

/-- An instruction that goes to an address and writes no register but those of `gs`. -/
structure GoesTo (s t : State) (pc : Word) (gs : List Nat) : Prop where
  next : pcOf t = pc
  frame : RegFrame s t gs []
  quiet : Quiet s → OwnOnly s t ∧ CoreKept s t ∧ SpecialKept s t ∧ FlagsKept s t ∧ VKept s t []

/-- What BR compares (Table 16-4). -/
def brTaken (cl : Nat) (x y : Word) : Bool :=
  match cl with
  | 0 => x == y
  | 1 => x != y
  | 2 => x.slt y
  | 3 => y.sle x
  | 4 => x.sle y
  | 5 => y.slt x
  | 6 => x.ult y
  | 7 => y.ule x
  | 8 => x.ule y
  | _ => y.ult x

/-- A transfer that is made goes to a multiple of 8 of this device (R223, R228). -/
abbrev TargetOk (s : State) (t : Word) : Prop := t &&& 7 = 0 ∧ t.toNat / 2 ^ 53 = s.device

/-- The second operand of major 0x01: g[b], or the field b itself with mod.i (R246). -/
def operandB (s : State) (o : OpA) : Word := if o.md.getLsbD 3 then o.b.setWidth 64 else rg s s.cur o.b.toNat

/-- An operation at the width W of mod.w, its result sign-extended from bit W − 1 (R246). -/
def atWidth (md : BitVec 8) (f : (w : Nat) → BitVec w → BitVec w → BitVec w) (x y : Word) : Word :=
  if md.getLsbD 0 then (f 32 (x.setWidth 32) (y.setWidth 32)).signExtend 64 else f 64 x y

/-- A number held between the bounds of W bits, signed or unsigned, as a word sign-extended from bit W − 1 (mod.s of R246). -/
def saturated (md : BitVec 8) (r : Int) : Word :=
  let w := if md.getLsbD 0 then 32 else 64
  let lo : Int := if md.getLsbD 2 then 0 else -(2 ^ (w - 1))
  let hi : Int := if md.getLsbD 2 then 2 ^ w - 1 else 2 ^ (w - 1) - 1
  ((BitVec.ofInt w (max lo (min r hi))).signExtend 64)

/-- An operand at the width of mod.w, as a signed or unsigned number (mod.u of R246). -/
def asNumber (md : BitVec 8) (x : Word) : Int :=
  if md.getLsbD 0 then (if md.getLsbD 2 then ((x.setWidth 32).toNat : Int) else (x.setWidth 32).toInt)
  else if md.getLsbD 2 then (x.toNat : Int) else x.toInt

/-- An instruction after which the context goes on at the next word, having written no register but those of `gs`. -/
def Proceeds (s t : State) (gs : List Nat) : Prop := pcOf t = pcOf s + 8 ∧ RegFrame s t gs []

/-- The same for an instruction that may change memory. -/
structure Moves (s t : State) (gs : List Nat) : Prop where
  next : pcOf t = pcOf s + 8
  cur : t.cur = s.cur
  g : ∀ r, r ∉ gs → rg t s.cur r = rg s s.cur r
  p : ∀ r, rp t s.cur r = rp s s.cur r

/-- A loaded value: the low 8n bits, sign-extended or zero-extended (R284). -/
def loadedValue (o : OpM) (n x : Nat) : Word := if o.kind = 1 then (BitVec.ofNat (8 * n) x).signExtend 64 else (BitVec.ofNat (8 * n) x).setWidth 64

/-- The context may read a cached line on path 0 at an address of its own device below the untranslated top: no fence holds it back,
its page is in the core's TLB, its token cache grants the access, its region is not barred, and no access of the core to the line is out
(R92, R112, R113, R120, R180, R237, R284, R288). -/
structure LineReady (s : State) (ea : Word) (u : TokenUse) (p : Perm) (e : TlbEntry) (h : TokenHit) (x : Line) : Prop where
  fence : fenced s s.cur 0 = false
  own : ea.toNat / 2 ^ 53 = s.device
  below : ea.toNat % 2 ^ 53 < 0x1FFFFF00000000
  noFail : (ctxOf s s.cur).walkFails = [] ∧ (ctxOf s s.cur).tokenFails = []
  page : tlbFind (coreAt s (coreOf s.cur)).tlb (ea.toNat % 2 ^ 53) = some e
  perm : allows p e.leaf = true
  tokens : tokenOut s s.cur = false
  grant : tokenHit s s.cur 0 (ea.toNat % 2 ^ 53) = some h
  alive : barredAt s (ea.toNat % 2 ^ 53) = none
  allowed : tokenFault h.mode h.holds h.shares u = none
  free : lineBusy s (coreOf s.cur) (leafPa e.page (ea.toNat % 2 ^ 53) e.leaf / 32) = false
  alone : lineOut s (coreOf s.cur) [leafPa e.page (ea.toNat % 2 ^ 53) e.leaf / 32] = false
  cached : lineOf s (coreOf s.cur) (leafPa e.page (ea.toNat % 2 ^ 53) e.leaf / 32) = some x
  sound : x.poison = false

/-- The physical addresses of the 80 pieces of a control block in one page. -/
def blockAt (ea : Word) (e : TlbEntry) : List Nat := (List.range 80).map (fun i => leafPa e.page (ea.toNat % 2 ^ 53 + 256 * i) e.leaf)

/-- A control block that can be read or written at once: aligned, of this device, in one page of the core's TLB, in regions that one cached
grant of the context covers and nothing bars, all its lines in the core's cache, those that are read not poisoned, and no access
out (R92, R112, R113, R204, R237, R320, R321). -/
structure BlockReady (s : State) (ea : Word) (p : Perm) (u : TokenUse) (e : TlbEntry) (h : TokenHit) : Prop where
  aligned : ea.toNat % 4096 = 0
  own : ea.toNat / 2 ^ 53 = s.device
  below : ea.toNat % 2 ^ 53 + 20480 ≤ 0x1FFFFF00000000
  noFail : (ctxOf s s.cur).walkFails = [] ∧ (ctxOf s s.cur).tokenFails = []
  page : ∀ i, i < 80 → tlbFind (coreAt s (coreOf s.cur)).tlb (ea.toNat % 2 ^ 53 + 256 * i) = some e
  perm : allows p e.leaf = true
  grant : ∀ i, i < 80 → tokenHit s s.cur 0 (ea.toNat % 2 ^ 53 + 256 * i) = some h ∧ barredAt s (ea.toNat % 2 ^ 53 + 256 * i) = none
  allowed : tokenFault h.mode h.holds h.shares u = none
  cached : ∀ a ∈ blockLines (blockAt ea e), (lineOf s (coreOf s.cur) a).isSome = true
  sound : ∀ a ∈ readLinesOf (blockAt ea e) p, ∀ x, lineOf s (coreOf s.cur) a = some x → x.poison = false
  apart : (blockAt ea e).Nodup ∧ ∀ a ∈ blockAt ea e, a % 256 = 0
  nothingOut : s.flights = []

/-- A byte of memory as a core sees it: of its cached line, or of memory where the line is not cached. -/
def coreByte (s : State) (k a : Nat) : Byte :=
  match lineOf s k (a / 32) with
  | some x => x.data.extractLsb' (8 * (a % 32)) 8
  | none => memByte s a

/-- A control block holds the number x in n bytes from an offset, lowest first (Table 13-4). -/
def blockHolds (s : State) (k : Nat) (places : List Nat) (off n x : Nat) : Prop :=
  ∀ i, i < n → coreByte s k (places.getD ((off + i) / 256) 0 + (off + i) % 256) = BitVec.ofNat 8 (x / 2 ^ (8 * i))

/-- What a save of context w leaves in its block, as core k sees it: Tables 13-4 to 13-6, with the header words w0 and w1 that stood there
before (R204, R320). -/
structure BlockSaved (s t : State) (k w : Nat) (places : List Nat) (w0 w1 : Nat) : Prop where
  word0 : blockHolds t k places 0 8 ((if bits w0 31 24 = 0 ∨ (ctxOf s w).allot < bits w0 31 24 then (ctxOf s w).allot else bits w0 31 24) * 2 ^ 24 +
    (ctxOf s w).allot * 2 ^ 16 + bits w0 15 8 * 2 ^ 8 + w0 % 2 ^ 8)
  word1 : blockHolds t k places 8 8 (w1 / 2 ^ 63 * 2 ^ 63 + (if (ctxOf s w).gang = none then 0 else 2 ^ 62) + (ctxOf s w).acct.toNat * 2 ^ 32 +
    if (ctxOf s w).gang = none then 0 else match budgetLeft s (ctxOf s w) with | some n => n % 2 ^ 32 | none => 0xFFFFFFFF)
  word2 : blockHolds t k places 16 8 ((if (ctxOf s w).passBarrier then (ctxOf s w).pc + 8 else (ctxOf s w).pc).toNat % 2 ^ 53)
  word3 : blockHolds t k places 24 8 ((if atBarrier s w then 2 ^ 16 else 0) + (ctxOf s w).member % 2 ^ 12)
  words4 : blockHolds t k places 32 32 0
  g : ∀ r, r < 64 → blockHolds t k places (0x40 + 8 * r) 8 (rg s w r).toNat
  m : blockHolds t k places 0x240 64 0
  p : ∀ r, r < 8 → blockHolds t k places (0x280 + 4 * r) 4 (rp s w r).toNat
  rmode : blockHolds t k places 0x2A0 8 (ctxOf s w).rmode.toNat
  flags : blockHolds t k places 0x2A8 8 (ctxOf s w).regs.flags.toNat
  reserved : blockHolds t k places 0x2B0 16 0
  v : ∀ r, r < (ctxOf s w).allot → blockHolds t k places (0x2C0 + 64 * r) 64 (rv s w r).toNat
  rest : blockHolds t k places 0xEC0 320 0
  tiles : ∀ i, i < 512 → blockHolds t k places (0x1000 + 32 * i) 32
    (if nbit (bits w0 15 8) (i / 64) then (tileRow s (coreOf w) (i / 64) (i % 64)).toNat else 0)

/-- What a restore takes from its block for context w, with the allotment n (R205, R321); the budget of a gang member, as any, counts from its
first instruction on (R147). -/
structure Restored (s t : State) (b : Block) (w origin n : Nat) : Prop where
  g : ∀ r, 0 < r → r < 64 → rg t w r = BitVec.ofNat 64 (blockGet s b (0x40 + 8 * r) 8)
  p : ∀ r, 0 < r → r < 8 → rp t w r = BitVec.ofNat 32 (blockGet s b (0x280 + 4 * r) 4)
  v : ∀ r, r < n → rv t w r = BitVec.ofNat 512 (blockGet s b (0x2C0 + 64 * r) 64)
  allot : (ctxOf t w).allot = n
  pc : (ctxOf t w).pc = codePc s (blockGet s b 16 8)
  rmode : 1 ≤ blockGet s b 0x2A0 8 → blockGet s b 0x2A0 8 ≤ 5 → (ctxOf t w).rmode = BitVec.ofNat 3 (blockGet s b 0x2A0 8)
  flags : (ctxOf t w).regs.flags = BitVec.ofNat 5 (blockGet s b 0x2A8 8)
  acct : (ctxOf t w).acct = BitVec.ofNat 12 (bits (blockGet s b 8 8) 43 32)
  gang : (ctxOf t w).gang = if nbit (blockGet s b 8 8) 62 then (ctxOf s origin).gang else none
  budget : (ctxOf t w).budgetEnd = none ∧ (ctxOf t w).budgetKept = if nbit (blockGet s b 8 8) 62 = true ∧ bits (blockGet s b 8 8) 31 0 ≠ 0xFFFFFFFF then
    some (bits (blockGet s b 8 8) 31 0) else none
  member : (ctxOf t w).member = bits (blockGet s b 24 8) 11 0
  tiles : ∀ i, i < 512 → nbit (bits (blockGet s b 0 8) 15 8) (i / 64) = true →
    tileRow t (coreOf w) (i / 64) (i % 64) = BitVec.ofNat 256 (blockGet s b (0x1000 + 32 * i) 32)

/-- The number that a lane of an integer format stands for: signed in I16 and I32, unsigned in N16 and N32 (R261). -/
def laneValue (f x : Nat) : Int := if f % 2 = 1 then (x : Int) else (BitVec.ofNat (laneBits f) x).toInt

/-- The lane that a number is stored as: modulo 2^w, or first held between the bounds of its format (R266). -/
def laneResult (f : Nat) (sat : Bool) (r : Int) : Nat :=
  let w := laneBits f
  let lo : Int := if f % 2 = 1 then 0 else -(2 ^ (w - 1))
  let hi : Int := if f % 2 = 1 then 2 ^ w - 1 else 2 ^ (w - 1) - 1
  (BitVec.ofInt w (if sat then max lo (min r hi) else r)).toNat

/-- What a source slot of a vector instruction reads: a v register, or the entry of a q port that follows those which the earlier slots
pop (R78, R262). -/
def slotValue (s : State) (earlier : List (BitVec 6)) (r : BitVec 6) : Vec :=
  if r.toNat < 48 then rv s s.cur r.toNat else (qInOf s (coreOf s.cur) (r.toNat - 48)).getD (earlier.count r) 0

/-- The values of the slots A, B and C. -/
abbrev slotA (s : State) (o : OpV) : Vec := slotValue s [] o.a
abbrev slotB (s : State) (o : OpV) : Vec := slotValue s [o.a] o.b
abbrev slotC (s : State) (o : OpV) : Vec := slotValue s [o.a, o.b] o.c

/-- Every q port among the slots `l` holds an entry for each slot that names it, no earlier access of the context can still fault, and no
context of the core that issued a pop earlier still waits at one of these ports (R78, R151). -/
abbrev SourcesServed (s : State) (l : List (BitVec 6)) : Prop :=
  (∀ r ∈ l, 48 ≤ r.toNat → unsettled s s.cur = false ∧ l.count r ≤ (qInOf s (coreOf s.cur) (r.toNat - 48)).length) ∧
    popAhead s ((l.filter (fun r => 48 ≤ r.toNat)).map (fun r => r.toNat - 48)) = false

/-- A destination that is a q port has room (R78, R140). -/
abbrev DestServed (s : State) (d : BitVec 6) : Prop :=
  48 ≤ d.toNat → unsettled s s.cur = false ∧ (qOutOf s (coreOf s.cur) (d.toNat - 48)).length < 16

/-- The tree of R134 over 2^n members: neighbours combine, an absent one passes the other (R272). -/
def treeOf (g : Nat → Nat → Nat) (l : Nat → Option Nat) : Nat → Nat → Option Nat
  | 0, j => l j
  | n + 1, j => match treeOf g l n (2 * j), treeOf g l n (2 * j + 1) with
    | some x, some y => some (g x y)
    | some x, none => some x
    | none, y => y

/-- What VRED combines two members with: its operation in format f, rounded in mode m (R272). -/
def redPair (m f op : Nat) (sat : Bool) (x y : Nat) : Nat :=
  match op with
  | 0 => if isFloatFmt f then (floatAdd m f x y).1 else laneResult f sat (laneValue f x + laneValue f y)
  | 1 => if isFloatFmt f then (floatMinMax f false x y).1 else laneResult f false (min (laneValue f x) (laneValue f y))
  | 2 => if isFloatFmt f then (floatMinMax f true x y).1 else laneResult f false (max (laneValue f x) (laneValue f y))
  | 3 => x &&& y
  | 4 => x ||| y
  | _ => x ^^^ y

/-- Whether a condition of Table 17-2 holds of two floating-point values: with a NaN only NE and UN do; −0 equals +0. -/
def floatCond (c : Nat) (x y : Machine.Num) : Bool :=
  if isNan x || isNan y then c = 1 || c = 6
  else match c with
    | 0 => !(nlt x y) && !(nlt y x)
    | 1 => nlt x y || nlt y x
    | 2 => nlt x y
    | 3 => !(nlt x y)
    | 4 => !(nlt y x)
    | 5 => nlt y x
    | 6 => false
    | _ => true

/-- The number that a finite lattice value stands for, 0 for the others (R62). -/
def latInt : LatVal → Int
  | .fin m e => scaleUp m e 0
  | _ => 0

/-- A float accumulator after one vector of finite products, not all zero (R66): q is the exponent of u, where the largest product lies
below 2^(q + 61); every product is cut toward zero to a multiple of u, the sum is added exactly and rounded once. -/
def floatAfter (q : Int) (acc : Nat) (l : List LatVal) : Nat :=
  let cut := l.map (fun p => match p with | .fin m e => truncTo q (m, e) | _ => (0, false))
  (roundNum (if cut.any (·.2) then 5 else 1) 13 false (nadd 1 (decodeIeee 13 acc) (numOf (cut.map (·.1)).sum q false)).1).1

/-- The vector that row r of a lattice job streams to every group (R330). -/
def jobVector (s : State) (v : Nat) (j : LatJob) (r : Nat) : Nat :=
  if mapZero j r then 0
  else streamBits s v (bits j.wordA.toNat 41 32 * 64 + r * (8 * fmtBits (jobFmt j.wordA))) (8 * fmtBits (jobFmt j.wordA))

/-- The 64 products of row r and column n of group i of a job (R66 step 1, R330). -/
def jobProducts (s : State) (v i : Nat) (j : LatJob) (r n : Nat) : List LatVal :=
  let w := fmtBits (jobFmt j.wordA)
  let tab := j.tables.getD i (0, 0)
  (List.range 64).map (fun k => latMul (latOf (decodeElem tab.1 tab.2 (jobFmt j.wordA) (jobVector s v j r / 2 ^ (w * k) % 2 ^ w)))
    (sget (.fin 0 0) (colOf s v i).active.weights (16 * k + n)))

/-- What column n of row r of a group holds at the end of a job (R66 to R68, R330): the column sum added to zero or, in add mode, to the
segment's value; a vector that is zero adds nothing. -/
def jobLane (s : State) (v i : Nat) (j : LatJob) (r n : Nat) : Nat :=
  let old := if j.wordA.getLsbD 59 then lane (segOf s v i (jobRow j.wordA + r)).data 32 n else 0
  let l := jobProducts s v i j r n
  if jobVector s v j r = 0 then old
  else if isIntFmt (colOf s v i).active.fmt.toNat && isIntFmt (jobFmt j.wordA) then
    let x := (BitVec.ofNat 32 old).toInt + (l.map latInt).sum
    (BitVec.ofInt 32 (if j.wordA.getLsbD 58 then max (-2 ^ 31) (min (2 ^ 31 - 1) x) else x)).toNat
  else (floatColumn old l).1 % 2 ^ 32

/-- Entry h of the rule table, counted modulo its length, can be read and holds the words w0 and w1 (R121, R122). -/
def RuleAt (s : State) (h w0 w1 : Nat) : Prop :=
  ∃ pa home leaf, translateNow s ((s.ruleBase + 16 * (h % 2 ^ s.ruleLog)) % 2 ^ 53) false = .ok (pa, home, leaf) ∧ anyPoison s pa 16 = false ∧
    readMem s pa 8 = w0 ∧ readMem s (pa + 8) 8 = w1

/-- Word 0 of a valid entry for the symbols x and y (R121). -/
abbrev RuleFor (w x y : Nat) : Prop := nbit w 0 = true ∧ bits w 63 48 = x ∧ bits w 47 32 = y

/-- Node n of instance gi is the one that the walker of its die starts next: eligible, of a kind that runs, and of the lowest number (R189),
of equals in the lowest instance (log 118); the walker's last start is four cycles back. -/
structure NextToStart (s : State) (gi n : Nat) (g : GraphRun) : Prop where
  run : graphOf s gi = some g ∧ gi < 64 ∧ g.live = true
  node : (n, nodeOf g n) ∈ g.nodes ∧ (nodeOf g n).state = 1
  kind : nodeKind s g n = 0 ∨ nodeKind s g n = 1 ∨ nodeKind s g n = 5
  first : ∀ gj h, gj < 64 → graphOf s gj = some h → h.live = true → h.die = g.die → ∀ e ∈ h.nodes, e.2.state = 1 →
    nodeKind s h e.1 = 0 ∨ nodeKind s h e.1 = 1 ∨ nodeKind s h e.1 = 5 → n < e.1 ∨ (n = e.1 ∧ gi ≤ gj)
  pace : ∀ c, (dieAt s g.die).lastStart = some c → c + 4 ≤ s.cycle

/-- A line performance of the only transfer of a cluster begins: it may move, and no line has moved in this cycle (R340). -/
abbrev EngineTurn (s : State) (v : Nat) (y : Transfer) : Prop :=
  (clusterAt s v).transfers = [y] ∧ mayMove s [y] y = true ∧ (clusterAt s v).engine.1 ≠ s.cycle ∧ y.step + 1 < 2 ^ 64

/-- The engine may write a line of memory at an address: it translates, its token allows it, its sectors need nothing, no port is down, and no
byte of it is barred (R4, R92, R97, R340, R388). -/
def EngineWrites (s : State) (v id : Nat) (ea : Word) (pd : Nat) : Prop :=
  ∃ a l w, enginePlace s v ea true = .ok (.phys a pd l, w) ∧ cxlGone w pd = false ∧ (∀ i, i < 32 → barsWrite w (leafClass l) (pd + i) = false) ∧
    (reachL2 w (.engine v id) (leafSlice l pd) pd 32 (leafClass l) true).1 = true

/-- Every byte of memory but the 32 of a line reads as before. -/
def LineFrame (s t : State) (pd : Nat) : Prop := ∀ e, e < pd ∨ pd + 32 ≤ e → memByte t e = memByte s e

/-- The first n source slots. -/
abbrev slots (o : OpV) (n : Nat) : List (BitVec 6) := [o.a, o.b, o.c].take n

/-- The q ports among the slots `l` gave one entry for each slot that names them; in handler mode the handler is committed-in-part
(R78, R154). -/
structure Popped (s t : State) (l : List (BitVec 6)) : Prop where
  entries : ∀ j, j < 4 → qInOf t (coreOf s.cur) j = (qInOf s (coreOf s.cur) j).drop (l.countP (fun r => r.toNat = 48 + j))
  marked : (ctxOf s s.cur).hmode = true → (∃ r ∈ l, 48 ≤ r.toNat) → (ctxOf t s.cur).cip = true

/-- A vector instruction that reads the slots `l` and gives x to its destination d, a v register or a q port (R78, R262, R263); no other
register is written. -/
structure VectorWrites (s t : State) (l : List (BitVec 6)) (d : BitVec 6) (x : Vec) : Prop where
  register : d.toNat < 48 → rv t s.cur d.toNat = x
  pushed : ∀ j, j < 4 → qOutOf t (coreOf s.cur) j =
    if d.toNat = 48 + j then qOutOf s (coreOf s.cur) j ++ [x] else qOutOf s (coreOf s.cur) j
  marked : (ctxOf s s.cur).hmode = true → 48 ≤ d.toNat → (ctxOf t s.cur).cip = true
  popped : Popped s t l
  others : ∀ r, r ≠ d.toNat → rv t s.cur r = rv s s.cur r
  frame : Proceeds s t []

/-- A write-masking instruction of n sources: lane i of the destination is f i where the predicate lets it be written, and every other
lane keeps its value (R263). -/
def LaneWrites (s t : State) (o : OpV) (n : Nat) (f : Nat → Nat) : Prop :=
  ∃ x, VectorWrites s t (slots o n) o.d x ∧ ∀ i, i < laneCount o.fmt.toNat → lane x (laneBits o.fmt.toNat) i =
    if (rp s s.cur o.pred.toNat).getLsbD i then f i else lane (rv s s.cur o.d.toNat) (laneBits o.fmt.toNat) i

/-- The q ports that an instruction of n sources names can serve it. -/
abbrev Served (s : State) (o : OpV) (n : Nat) : Prop := SourcesServed s (slots o n) ∧ DestServed s o.d

/-- Nothing holds back an effect of the context that cannot be undone: no earlier access can still fault, and no lockstep copy is waited for
(R151, R213). -/
abbrev FreeToAct (s : State) : Prop :=
  unsettled s s.cur = false ∧ ((ctxOf s s.cur).lockstep = false ∨ (ctxOf s s.cur).lockPass = true)

/-- The context has no access, message, sum or job out. -/
abbrev NothingOut (s : State) : Prop :=
  s.flights.all (fun f => f.ctx ≠ s.cur) = true ∧ (coreAt s (coreOf s.cur)).agg = [] ∧ pathOut s s.cur s.nextId 31 = false

/-- Room for a posted access outside handler mode: fewer than 64 of the core are out (R292). -/
abbrev PostRoom (s : State) : Prop := (ctxOf s s.cur).hmode = false ∧ postedCount s (coreOf s.cur) < 64

/-- No path-0 access of the core is out to the lines that an operation touches (R286). -/
abbrev LinesFree (s : State) (op : SliceOp) : Prop :=
  lineOut s (coreOf s.cur) ((opSpan op).flatMap (fun p => linesOf p.1 p.2)) = false

/-- Room in the send buffer of a handler (R240). -/
abbrev BufferRoom (s : State) : Prop := (ctxOf s s.cur).hmode = true ∧ (ctxOf s s.cur).sendBuf.length < 32

/-- A message can leave the core now (R139, R170). -/
abbrev SendRoom (s : State) : Prop :=
  (ctxOf s s.cur).hmode = false ∧ fenced s s.cur 4 = false ∧ returning s s.cur = false ∧ retryFull s (coreOf s.cur) = false

/-- One access of the context more is on its way. -/
def Sends (s t : State) (path : Nat) (ordered posted : Bool) (slice : Nat) (op : SliceOp) : Prop :=
  ∃ f, t.flights = s.flights ++ [f] ∧ f.id = s.nextId ∧ f.ctx = s.cur ∧ f.path = path ∧ f.ordered = ordered ∧ f.posted = posted ∧
    f.slice = slice ∧ f.op = op ∧ f.done = false

/-- One entry more stands in the send buffer of the context. -/
def Buffers (s t : State) (e : Entry) : Prop := (ctxOf t s.cur).sendBuf = (ctxOf s s.cur).sendBuf ++ [e]

/-- One message more has left the core of the context, flying. -/
def Posts (s t : State) (m : Msg) : Prop :=
  t.messages = s.messages ++ [{ id := s.nextId, home := .core (coreOf s.cur), from_ := vertexOf (coreOf s.cur), phase := .flying, msg := m, told := false, hops := 0, due := s.cycle + msgTime s (vertexOf (coreOf s.cur)) m }]

/-- What a slice operation writes (R239): add, signed minimum and maximum, and, or, exclusive or, swap, compare and swap. -/
def rmwNew (w op : Nat) (old v cmp : BitVec w) : BitVec w :=
  match op with
  | 0 => old + v
  | 1 => if v.slt old then v else old
  | 2 => if old.slt v then v else old
  | 3 => old &&& v
  | 4 => old ||| v
  | 5 => old ^^^ v
  | 6 => v
  | _ => if old = cmp then v else old

/-- An access that its home slice may perform: its time has come, its sectors are there, its port is up (R161, R164, R388). -/
structure AtSlice (s : State) (id : Nat) (f : Flight Regs) (u : State) : Prop where
  flight : flightOf s id = some f
  may : mayPerform s f = true
  up : ∀ p ∈ opSpan f.op, cxlGone s p.1 = false
  there : reachAll s f = (true, u)

/-- Memory, and the registers and pcs of every context but those of `cs`, are as before. -/
def Outside (s t : State) (cs : List Nat) : Prop :=
  MemKept s t ∧ ∀ e, e ∉ cs → (ctxOf t e).regs = (ctxOf s e).regs ∧ (ctxOf t e).pc = (ctxOf s e).pc

/-- A host command at the head of the ring may start: word 0 with its opcode and tag, its operands behind it (R385). -/
abbrev Commanded (s : State) (op tag : Nat) (operands : List Nat) : Prop := canStart s = true ∧ ringHolds s op tag operands = true

/-- A command was taken from the ring and ends with a status (R385, R398). -/
def Taken (s t : State) (op tag status : Nat) : Prop :=
  (∃ v, t.host.command = some (tag, op, status, v)) ∧ t.host.ringhead.toNat = (s.host.ringhead.toNat % 64 + 1) % 64

/-- An event was written at the tail of the host's event queue (R385). -/
def Told (s t : State) (w0 w1 : Word) : Prop :=
  hostRead t (s.host.evbase.toNat + 16 * (s.host.evtail.toNat % 256)) 8 = w0.toNat ∧
    hostRead t (s.host.evbase.toNat + 16 * (s.host.evtail.toNat % 256) + 8) 8 = w1.toNat ∧
    t.host.evtail.toNat = (s.host.evtail.toNat % 256 + 1) % 256

/-- The launch that FORK builds (R251). -/
def forkLaunch (s : State) (o : OpB) : Msg :=
  newMsg 27 (agentOf s s.cur) (coreAt s (coreOf s.cur)).msgid (ctxOf s s.cur).lease (agentOf s (8 * coreOf s.cur))
    [BitVec.ofNat 64 ((pcOf s + o.woff.signExtend 64 * 8).toNat % 2 ^ 53), rg s s.cur o.a.toNat, rg s s.cur o.b.toNat,
      (ctxOf s s.cur).acct.setWidth 64, 0, 0]

end Sys2Proof.Machine
end

