-- ==== Sys2Proof/Certificates/Slice0/Obligations.lean ====
section
/-! DEFINITION. The statements for the provers. -/

open Sys2Proof Sys2Proof.Machine

/-! ### Decoding, stepping, reset -/

/-- A turn that issues, at a context whose instruction line is cached, runs the instruction that the 64 bits at the program counter decode
to (R188, R223): n cycles pass first, the slot moves and is taken for one cycle, an I4 table that is due takes effect (R280), the use order
of the TLB and of the instruction cache moves, nothing else. -/
def Obligations.StepRunsDecodedInstruction : Prop :=
  ∀ (s : State) (n k c : Nat) (rest : List Turn) (e : TlbEntry) (d : BitVec 256) (rank : Nat) (i : Instr),
    s.agenda = { cycles := n, act := .issue k 0 } :: rest →
    let u := passCycles { s with agenda := rest } n
    let va := (ctxOf u c).pc.toNat % 2 ^ 53
    let pa := leafPa e.page va e.leaf
    s.clockStopped = false → coreExists k = true → (coreAt u k).killed = false → (coreAt u k).issueFree ≤ u.cycle → nextCtx u k = some c →
    va < 0x1FFFFF00000000 → (ctxOf u c).walkFails = [] → tlbFind (coreAt u k).tlb va = some e → leafEx e.leaf = true →
    sget none (coreAt u k).icache (pa / 32) = some (d, false, rank) → decode (d.extractLsb' (8 * (pa % 32)) 64) = .ok i →
    ∃ t, step s = exec i t ∧ t = { u with cur := c, cores := t.cores } ∧ (∀ j, j ≠ k → coreAt t j = coreAt u j) ∧
      coreAt t k = { coreAt (settleTables u k) k with turn := c % 8, issueFree := u.cycle + 1, tlb := (coreAt t k).tlb, icache := (coreAt t k).icache }

/-- Words written out from the encoding tables decode to the instructions they stand for (R225 to R230). -/
def Obligations.WordsDecode : Prop :=
  decode 0x010C414000000000 = .ok (.add { s := 0, d := 3, a := 4, b := 5, c := 0, md := 0 }) ∧
  decode 0x021C010012345678 = .ok (.movi { s := 0, d := 7, a := 0, md := 0, imm := 0x12345678 }) ∧
  decode 0xA0084140FFFFFFFD = .ok (.br { s := 1, cl := 2, a := 4, b := 5, woff := 0xFFFFFFFD }) ∧
  decode 0x3010900A02000040 = .ok (.ldv { s := 0, d := 4, a := 9, b := 0, scale := 0, width := 5, kind := 0, offset := 0x40 }) ∧
  decode 0x4108414003400002 = .ok (.vcmp { s := 0, d := 2, a := 4, b := 5, c := 0, pred := 0, hold := 0, fmt := 13, rnd := 0, limm := 2 }) ∧
  decode 0x610C428000000005 = .ok (.send { s := 0, d := 3, a := 4, b := 10, c := 0, imm := 5 }) ∧
  decode 0x7E2C004100000000 = .ok (.srd { s := 0, d := 11, a := 0, sreg := 0x41, imm := 0 })

/-- Every well-formed instruction of the opcode table is read back from its word, with every operand (R225, R230). -/
def Obligations.DecodeOfEncode : Prop :=
  ∀ (i : Instr) (w : Word), i.WellFormed → (∀ x, i ≠ .illegalPattern x) → encode i = some w → decode w = .ok i

/-- A word that decodes is the word of the instruction it decodes to: no two words stand for one instruction, and no bit of a word is
left unread (R225, R226). -/
def Obligations.EncodeOfDecode : Prop :=
  ∀ (w : Word) (i : Instr), decode w = .ok i → encode i = some w ∧ i.WellFormed

/-- Every step keeps memory in its canonical form: equal memories stay equal data. -/
def Obligations.StepKeepsMemoryForm : Prop :=
  ∀ s t : State, s.Inv → step s = .next t → t.Inv

/-- Memory is in its canonical form after reset. -/
def Obligations.ResetMemoryForm : Prop := State.reset.Inv

/-- What the spec gives for reset: sr.cycle 0, LPDDR-6 (below 0x18000000000) zero, no token entry, sr.rmode RNE and an empty sr.flags, no handler mode, sr.hold 0,
the standard I4 table, the routine budget 20, the counters 0 (R47, R50, R52, R90, R108, R126, R148, R257). -/
def Obligations.ResetValues : Prop :=
  State.reset.cycle = 0 ∧ (∀ a, a < 0x18000000000 → memByte State.reset a = 0) ∧ (∀ a, tokenCovering State.reset a = none) ∧
  (∀ c, (ctxOf State.reset c).rmode = 1 ∧ (ctxOf State.reset c).regs.flags = 0 ∧ (ctxOf State.reset c).hmode = false ∧
    (ctxOf State.reset c).run = .idle) ∧
  (∀ k, (coreAt State.reset k).hold = 0 ∧ (coreAt State.reset k).i4tab0 = 0x0706050403020100 ∧
    (coreAt State.reset k).i4tab1 = 0xFFFEFDFCFBFAF9F8 ∧ (coreAt State.reset k).counters = Counters.reset ∧
    ∀ j, routineValid (routineAt State.reset k j) = false ∧ routineBudget (routineAt State.reset k j) = 20)

/-! ### Issue checks and traps -/

/-- The checks at issue come in the order of R233: an earlier one decides, and the fault is taken at the instruction, which has no
effect. That an unused pattern of major 0x2F faults ILLEGAL-ENCODING, and a bad word of a P-only instruction PRIV where no apex core meets
it, is the model's choice (log 7). -/
def Obligations.IssueCheckOrder : Prop :=
  (∀ (w : Word) (s : State), nameOf w = none → w.toNat / 2 ^ 56 % 128 ≠ 0x2F →
    issueFault (.illegalPattern w) s = some { code := cIllegalOpcode }) ∧
  (∀ (w : Word) (s : State), nameOf w = none → w.toNat / 2 ^ 56 % 128 = 0x2F →
    issueFault (.illegalPattern w) s = some { code := cIllegalEncoding }) ∧
  (∀ (w : Word) (s : State) (f : Format) (j : Instr), nameOf w = some (f, j) → isPOnly j = true → isApex (coreOf s.cur) = false →
    issueFault (.illegalPattern w) s = some { code := cPriv }) ∧
  (∀ (i : Instr) (s : State), patternFault i s = none → unitOk (coreOf s.cur) i = false → issueFault i s = some { code := cIllegalOpcode }) ∧
  (∀ (i : Instr) (s : State), patternFault i s = none → unitOk (coreOf s.cur) i = true → modeIllegal (ctxOf s s.cur).hmode i = false →
    accepts i = false → issueFault i s = some { code := cIllegalEncoding }) ∧
  (∀ (i : Instr) (s : State), patternFault i s = none → unitOk (coreOf s.cur) i = true → modeIllegal (ctxOf s s.cur).hmode i = false →
    accepts i = true → operandBad s s.cur i = false → isPOnly i = true → isApex (coreOf s.cur) = false →
    issueFault i s = some { code := cPriv }) ∧
  (∀ (i : Instr) (s : State), patternFault i s = none → unitOk (coreOf s.cur) i = true → modeIllegal (ctxOf s s.cur).hmode i = false →
    accepts i = true → operandBad s s.cur i = false → privBad s s.cur i = false →
    (∃ r ∈ (usesOf i).rv ++ (usesOf i).wv, (ctxOf s s.cur).allot ≤ r ∧ ∀ n, (ctxOf s s.cur).group.lowAllot = some n → r < n) →
    issueFault i s = some { code := cRegAllot }) ∧
  (∀ (i : Instr) (s : State), patternFault i s = none → unitOk (coreOf s.cur) i = true → modeIllegal (ctxOf s s.cur).hmode i = false →
    accepts i = true → operandBad s s.cur i = false → privBad s s.cur i = false → allotBad s s.cur i = false → overlapBad i = true →
    issueFault i s = some { code := cOverlap }) ∧
  (∀ (i : Instr) (s : State), patternFault i s = none → unitOk (coreOf s.cur) i = true → modeIllegal (ctxOf s s.cur).hmode i = false →
    accepts i = true → operandBad s s.cur i = false → privBad s s.cur i = false → allotBad s s.cur i = false → overlapBad i = false →
    (32 ≤ (ctxOf s s.cur).group.len ∨ (∃ r ∈ (usesIn s s.cur i).rg ++ (usesIn s s.cur i).wg, r ∈ (ctxOf s s.cur).group.g) ∨
      (∃ r ∈ (usesIn s s.cur i).rv ++ (usesIn s s.cur i).wv, r ∈ (ctxOf s s.cur).group.v)) →
    issueFault i s = some { code := cGroupHazard }) ∧
  (∀ (i : Instr) (s : State) (f : FaultInfo), issueFault i s = some f → (ctxOf s s.cur).tried = false → unfinished s s.cur = false →
    (∃ o, i = .add o ∨ i = .div o ∨ i = .tklend o) ∨ (∃ o, i = .addi o) ∨ (∃ o, i = .br o) ∨ (∃ o, i = .ldv o ∨ i = .st o) ∨
      (∃ o, i = .vadd o ∨ i = .vcmp o) ∨ (∃ o, i = .send o ∨ i = .wnew o) ∨ (∃ o, i = .swr o) →
    exec i s = .next (takeTrap s s.cur f)) ∧
  (∀ (o : OpE) (s : State), unitOk (coreOf s.cur) (.gbar o) = true → accepts (.gbar o) = true → (ctxOf s s.cur).gang = none →
    issueFault (.gbar o) s = some { code := cPriv })

/-- A trap outside handler mode (R236, R200): the context stops at the instruction as TRAPPED with its g and p registers as they were, the
code is counted at its core, and a record that names the code, the context, its pc and the address goes to the fault queue of its
die. -/
def Obligations.TrapOutsideHandler : Prop :=
  ∀ (s : State) (c : Nat) (f : FaultInfo), (ctxOf s c).hmode = false → (ctxOf s c).drain = none → (ctxOf s c).slot = none →
    (ctxOf s c).pendingS = [] → (ctxOf s c).newAllot = none → (ctxOf s c).regs.cf = 0 → f.code ≠ cPoison →
    (dieAt s (dieOf (vertOf c))).faultQueue.length < 256 →
    let t := takeTrap s c f
    (ctxOf t c).run = .trapped ∧ (ctxOf t c).pc = (ctxOf s c).pc ∧ (ctxOf t c).regs = (ctxOf s c).regs ∧ MemKept s t ∧
    (dieAt t (dieOf (vertOf c))).faultQueue = (dieAt s (dieOf (vertOf c))).faultQueue ++
      [recordWords f.code 0 f.reason (ctxOf s c).cip false (agentOf s c) (ctxOf s c).pc f.addr 0 0 f.detail (f.xfer.setWidth 64)] ∧
    (sget 0 (coreAt s (coreOf c)).counters.faults f.code ≠ 0xFFFFFFFF →
      sget 0 (coreAt t (coreOf c)).counters.faults f.code = sget 0 (coreAt s (coreOf c)).counters.faults f.code + 1) ∧
    (∀ e, e ≠ c → ctxOf t e = ctxOf s e)

/-- A trap in a handler that is not committed-in-part rolls it back (R31, R236): its send buffer and write log are discarded, sr.flags is
what it was at the start, and its message is first in the inbox again, waiting. -/
def Obligations.TrapInHandlerRollsBack : Prop :=
  ∀ (s : State) (c : Nat) (f : FaultInfo) (q : Slot), (ctxOf s c).hmode = true → (ctxOf s c).cip = false → (ctxOf s c).drain = none →
    slotOf s c = some q → (ctxOf s c).pendingS = [] → (ctxOf s c).newAllot = none → f.code ≠ cPoison →
    let t := takeTrap s c f
    (ctxOf t c).run = .trapped ∧ (ctxOf t c).sendBuf = [] ∧ (ctxOf t c).writeLog = [] ∧ (ctxOf t c).regs.flags = (ctxOf s c).startFlags ∧
    MemKept s t ∧ ∃ l, (coreAt t (coreOf c)).inbox = { q with phase := .waiting, since := s.cycle } :: l

/-- An instruction that a check stops takes the trap in its step once every earlier access of its context has taken its full effect; one
that issues and faults counts as issued (R148, R151). TRAP k is one that always does (R201, R319). -/
def Obligations.TrapInstruction : Prop :=
  (∀ (o : OpS) (s : State), Issues (.trap o) s → unfinished (beginIssue s) s.cur = false →
    exec (.trap o) s = .next (takeTrap (countIssue (.trap o) (beginIssue s)) s.cur { code := cTrap, reason := 0, detail := BitVec.ofNat 64 (o.imm.toNat % 256) })) ∧
  (∀ (w : Word) (s : State), unfinished s s.cur = false → (ctxOf s s.cur).tried = false → nameOf w = none → w.toNat / 2 ^ 56 % 128 ≠ 0x2F →
    exec (.illegalPattern w) s = .next (takeTrap s s.cur { code := cIllegalOpcode })) ∧
  (∀ (w : Word) (s : State) (f : Format) (j : Instr), unfinished s s.cur = false → (ctxOf s s.cur).tried = false → nameOf w = some (f, j) →
    (isPOnly j = false ∨ isApex (coreOf s.cur) = true) → unitOk (coreOf s.cur) j = true → modeIllegal (ctxOf s s.cur).hmode j = false → exec (.illegalPattern w) s = .next (takeTrap s s.cur { code := cIllegalEncoding }))

/-! ### Scalar instructions -/

/-- ADD, SUB, MUL without saturation, MULH, AND, OR, XOR, ANDN, MIN and MAX write g[d] with the operation at W bits, sign-extended from bit
W − 1 (R246); nothing else changes but the pc. -/
def Obligations.ScalarResults : Prop :=
  (∀ (o : OpA) (s : State), Issues (.add o) s → o.md.getLsbD 1 = false →
    Gives (.add o) s (fun t => Writes s t o.d.toNat (atWidth o.md (fun _ x y => x + y) (rg s s.cur o.a.toNat) (operandB s o)))) ∧
  (∀ (o : OpA) (s : State), Issues (.sub o) s → o.md.getLsbD 1 = false →
    Gives (.sub o) s (fun t => Writes s t o.d.toNat (atWidth o.md (fun _ x y => x - y) (rg s s.cur o.a.toNat) (operandB s o)))) ∧
  (∀ (o : OpA) (s : State), Issues (.mul o) s → o.md.getLsbD 1 = false →
    Gives (.mul o) s (fun t => Writes s t o.d.toNat (atWidth o.md (fun _ x y => x * y) (rg s s.cur o.a.toNat) (operandB s o)))) ∧
  (∀ (o : OpA) (s : State), Issues (.mulh o) s →
    Gives (.mulh o) s (fun t => Writes s t o.d.toNat (atWidth o.md
      (fun w x y => if o.md.getLsbD 2 then BitVec.ofNat w (x.toNat * y.toNat / 2 ^ w) else BitVec.ofInt w (x.toInt * y.toInt / 2 ^ w))
      (rg s s.cur o.a.toNat) (operandB s o)))) ∧
  (∀ (o : OpA) (s : State), Issues (.and o) s →
    Gives (.and o) s (fun t => Writes s t o.d.toNat (atWidth o.md (fun _ x y => x &&& y) (rg s s.cur o.a.toNat) (operandB s o)))) ∧
  (∀ (o : OpA) (s : State), Issues (.or o) s →
    Gives (.or o) s (fun t => Writes s t o.d.toNat (atWidth o.md (fun _ x y => x ||| y) (rg s s.cur o.a.toNat) (operandB s o)))) ∧
  (∀ (o : OpA) (s : State), Issues (.xor o) s →
    Gives (.xor o) s (fun t => Writes s t o.d.toNat (atWidth o.md (fun _ x y => x ^^^ y) (rg s s.cur o.a.toNat) (operandB s o)))) ∧
  (∀ (o : OpA) (s : State), Issues (.andn o) s →
    Gives (.andn o) s (fun t => Writes s t o.d.toNat (atWidth o.md (fun _ x y => x &&& ~~~y) (rg s s.cur o.a.toNat) (operandB s o)))) ∧
  (∀ (o : OpA) (s : State), Issues (.min o) s →
    Gives (.min o) s (fun t => Writes s t o.d.toNat (atWidth o.md
      (fun _ x y => if (if o.md.getLsbD 2 then y.ult x else y.slt x) then y else x) (rg s s.cur o.a.toNat) (operandB s o)))) ∧
  (∀ (o : OpA) (s : State), Issues (.max o) s →
    Gives (.max o) s (fun t => Writes s t o.d.toNat (atWidth o.md
      (fun _ x y => if (if o.md.getLsbD 2 then x.ult y else x.slt y) then y else x) (rg s s.cur o.a.toNat) (operandB s o))))

/-- ADD, SUB and MUL with mod.s write the exact result held between the smallest and the largest number of W bits (R246). -/
def Obligations.ScalarSaturation : Prop :=
  (∀ (o : OpA) (s : State), Issues (.add o) s → o.md.getLsbD 1 = true →
    Gives (.add o) s (fun t => Writes s t o.d.toNat
      (saturated o.md (asNumber o.md (rg s s.cur o.a.toNat) + asNumber o.md (operandB s o))))) ∧
  (∀ (o : OpA) (s : State), Issues (.sub o) s → o.md.getLsbD 1 = true →
    Gives (.sub o) s (fun t => Writes s t o.d.toNat
      (saturated o.md (asNumber o.md (rg s s.cur o.a.toNat) - asNumber o.md (operandB s o))))) ∧
  (∀ (o : OpA) (s : State), Issues (.mul o) s → o.md.getLsbD 1 = true →
    Gives (.mul o) s (fun t => Writes s t o.d.toNat
      (saturated o.md (asNumber o.md (rg s s.cur o.a.toNat) * asNumber o.md (operandB s o)))))

/-- Shifts and rotates take their count modulo W; CLZ, CTZ and POPC count within W bits (R246). DIV and REM truncate toward zero, divide
by zero to all ones and to the dividend, and wrap at the one signed overflow; none faults. They wait for the core's divider and keep it
busy for their result time (R246). -/
def Obligations.ShiftsCountsAndDivision : Prop :=
  (∀ (o : OpA) (s : State), Issues (.shl o) s →
    Gives (.shl o) s (fun t => Writes s t o.d.toNat (atWidth o.md (fun w x y => x <<< (y.toNat % w)) (rg s s.cur o.a.toNat) (operandB s o)))) ∧
  (∀ (o : OpA) (s : State), Issues (.shr o) s →
    Gives (.shr o) s (fun t => Writes s t o.d.toNat (atWidth o.md (fun w x y => x >>> (y.toNat % w)) (rg s s.cur o.a.toNat) (operandB s o)))) ∧
  (∀ (o : OpA) (s : State), Issues (.sar o) s →
    Gives (.sar o) s (fun t => Writes s t o.d.toNat
      (atWidth o.md (fun w x y => x.sshiftRight (y.toNat % w)) (rg s s.cur o.a.toNat) (operandB s o)))) ∧
  (∀ (o : OpA) (s : State), Issues (.rot o) s →
    Gives (.rot o) s (fun t => Writes s t o.d.toNat
      (atWidth o.md (fun w x y => x.rotateLeft (y.toNat % w)) (rg s s.cur o.a.toNat) (operandB s o)))) ∧
  (∀ (o : OpA) (s : State), Issues (.clz o) s →
    Gives (.clz o) s (fun t => Writes s t o.d.toNat (atWidth o.md (fun _ x _ => x.clz) (rg s s.cur o.a.toNat) 0))) ∧
  (∀ (o : OpA) (s : State), Issues (.ctz o) s →
    Gives (.ctz o) s (fun t => Writes s t o.d.toNat (atWidth o.md (fun _ x _ => x.ctz) (rg s s.cur o.a.toNat) 0))) ∧
  (∀ (o : OpA) (s : State), Issues (.popc o) s →
    Gives (.popc o) s (fun t => Writes s t o.d.toNat (atWidth o.md (fun _ x _ => x.cpop) (rg s s.cur o.a.toNat) 0))) ∧
  (∀ (o : OpA) (s : State), Issues (.div o) s → (coreAt s (coreOf s.cur)).dividerFree ≤ s.cycle →
    Gives (.div o) s (fun t =>
      rg t s.cur o.d.toNat = (if o.d = 0 then 0 else atWidth o.md
        (fun _ x y => if y = 0 then BitVec.allOnes _ else if o.md.getLsbD 2 then x / y else x.sdiv y) (rg s s.cur o.a.toNat) (operandB s o)) ∧
      pcOf t = pcOf s + 8 ∧ RegFrame s t [o.d.toNat] [] ∧
      (coreAt t (coreOf s.cur)).dividerFree = s.cycle + (if o.md.getLsbD 0 then 18 else 34))) ∧
  (∀ (o : OpA) (s : State), Issues (.rem o) s → (coreAt s (coreOf s.cur)).dividerFree ≤ s.cycle →
    Gives (.rem o) s (fun t =>
      rg t s.cur o.d.toNat = (if o.d = 0 then 0 else atWidth o.md
        (fun _ x y => if o.md.getLsbD 2 then x % y else x.srem y) (rg s s.cur o.a.toNat) (operandB s o)) ∧
      pcOf t = pcOf s + 8 ∧ RegFrame s t [o.d.toNat] [] ∧
      (coreAt t (coreOf s.cur)).dividerFree = s.cycle + (if o.md.getLsbD 0 then 18 else 34))) ∧
  (∀ (o : OpA) (s : State), Issues (.div o) s → s.cycle < (coreAt s (coreOf s.cur)).dividerFree →
    Gives (.div o) s (fun t => (ctxOf t s.cur).run = .stalled .divider ∧ pcOf t = pcOf s ∧ RegFrame s t [] [])) ∧
  (∀ (o : OpA) (s : State), Issues (.rem o) s → s.cycle < (coreAt s (coreOf s.cur)).dividerFree →
    Gives (.rem o) s (fun t => (ctxOf t s.cur).run = .stalled .divider ∧ pcOf t = pcOf s ∧ RegFrame s t [] []))

/-- SEL, CMP, SEXT, BFX, BFI and LEA (R247). -/
def Obligations.SelectsAndFields : Prop :=
  (∀ (o : OpA) (s : State), Issues (.sel o) s →
    Gives (.sel o) s (fun t => Writes s t o.d.toNat (if rg s s.cur o.c.toNat = 0 then rg s s.cur o.b.toNat else rg s s.cur o.a.toNat))) ∧
  (∀ (o : OpA) (s : State), Issues (.cmp o) s →
    Gives (.cmp o) s (fun t => Writes s t o.d.toNat
      (let x := asNumber o.md (rg s s.cur o.a.toNat)
       let y := asNumber o.md (operandB s o)
       let holds := match (o.md.extractLsb' 4 3).toNat with
         | 0 => decide (x = y) | 1 => decide (x ≠ y) | 2 => decide (x < y) | 3 => decide (x ≥ y) | 4 => decide (x ≤ y) | _ => decide (x > y)
       if holds then 1 else 0))) ∧
  (∀ (o : OpA) (s : State), Issues (.sext o) s →
    Gives (.sext o) s (fun t => Writes s t o.d.toNat
      (let x := rg s s.cur o.a.toNat
       match (o.md.extractLsb' 0 2).toNat, o.md.getLsbD 2 with
       | 0, false => (x.setWidth 8).signExtend 64 | 1, false => (x.setWidth 16).signExtend 64 | _, false => (x.setWidth 32).signExtend 64
       | 0, true => (x.setWidth 8).setWidth 64 | 1, true => (x.setWidth 16).setWidth 64 | _, true => (x.setWidth 32).setWidth 64))) ∧
  (∀ (o : OpA) (s : State), Issues (.bfx o) s →
    Gives (.bfx o) s (fun t => Writes s t o.d.toNat
      (let f := (rg s s.cur o.a.toNat).extractLsb' o.b.toNat (o.c.toNat + 1)
       if o.md.getLsbD 2 then f.setWidth 64 else f.signExtend 64))) ∧
  (∀ (o : OpA) (s : State), Issues (.bfi o) s →
    Gives (.bfi o) s (fun t => ∃ x, Writes s t o.d.toNat x ∧ ∀ n, n < 64 → x.getLsbD n =
      (if o.b.toNat ≤ n ∧ n ≤ o.b.toNat + o.c.toNat then (rg s s.cur o.a.toNat).getLsbD (n - o.b.toNat)
        else (rg s s.cur o.d.toNat).getLsbD n))) ∧
  (∀ (o : OpA) (s : State), Issues (.lea o) s →
    Gives (.lea o) s (fun t => Writes s t o.d.toNat
      ((rg s s.cur o.a.toNat).extractLsb' 53 11 ++
        ((rg s s.cur o.a.toNat + (rg s s.cur o.b.toNat <<< (o.md.toNat % 4))).setWidth 53 : BitVec 53))))

/-- ADDI, MOVI and MOVHI (R248): their effect, the mod bits that each accepts, MOVI's zero field, and the other fn values. -/
def Obligations.Immediates : Prop :=
  (∀ (o : OpI) (s : State), Issues (.addi o) s →
    Gives (.addi o) s (fun t => Writes s t o.d.toNat
      (if o.md = 1 then ((rg s s.cur o.a.toNat).setWidth 32 + o.imm).signExtend 64 else rg s s.cur o.a.toNat + o.imm.signExtend 64))) ∧
  (∀ (o : OpI) (s : State), Issues (.movi o) s →
    Gives (.movi o) s (fun t => Writes s t o.d.toNat (if o.md = 4 then o.imm.setWidth 64 else o.imm.signExtend 64))) ∧
  (∀ (o : OpI) (s : State), Issues (.movhi o) s →
    Gives (.movhi o) s (fun t => Writes s t o.d.toNat ((o.imm.setWidth 64 <<< 32) ||| ((rg s s.cur o.a.toNat).setWidth 32).setWidth 64))) ∧
  (∀ (o : OpI) (s : State), o.md ≠ 0 ∧ o.md ≠ 1 → issueFault (instrOf (packI 0x02 0 o)) s = some { code := cIllegalEncoding }) ∧
  (∀ (o : OpI) (s : State), (o.md ≠ 0 ∧ o.md ≠ 4) ∨ o.a ≠ 0 → issueFault (instrOf (packI 0x02 1 o)) s = some { code := cIllegalEncoding }) ∧
  (∀ (o : OpI) (s : State), o.md ≠ 0 → issueFault (instrOf (packI 0x02 2 o)) s = some { code := cIllegalEncoding }) ∧
  (∀ (o : OpI) (fn : Nat) (s : State), 2 < fn → fn < 16 → issueFault (instrOf (packI 0x02 fn o)) s = some { code := cIllegalOpcode })

/-! ### Control -/

/-- Integer instructions leave sr.flags and the predicates alone, and S ends the switch group: the context parks, otherwise it stays ready
(R71, R224). BR compares, BRZ tests, LOOP counts down, CALL and JR write the link, RET returns (R249, R250, R252): the pc goes to the
target, which is 8 × woff after the branch (R228), or to the next word; a target is checked only when the transfer is made. -/
def Obligations.MarkersAndBranches : Prop :=
  (∀ (o : OpA) (s : State), Issues (.add o) s → Quiet s →
    Gives (.add o) s (fun t => (ctxOf t s.cur).regs.flags = (ctxOf s s.cur).regs.flags ∧
      (if o.s = 1 then (ctxOf t s.cur).run = .groupEnd ∧ (ctxOf t s.cur).group = Group.empty
       else (ctxOf t s.cur).run = .ready ∧ (ctxOf t s.cur).group.len = (ctxOf s s.cur).group.len + 1 ∧
         ∀ r, r ∈ (ctxOf t s.cur).group.g ↔ r ∈ (ctxOf s s.cur).group.g ∨ (r = o.d.toNat ∧ r ≠ 0)))) ∧
  (∀ (o : OpB) (s : State), Issues (.br o) s →
    let taken := brTaken o.cl.toNat (rg s s.cur o.a.toNat) (rg s s.cur o.b.toNat)
    (taken = true → TargetOk s (pcOf s + o.woff.signExtend 64 * 8)) →
    Gives (.br o) s (fun t => GoesTo s t (if taken then pcOf s + o.woff.signExtend 64 * 8 else pcOf s + 8) [])) ∧
  (∀ (o : OpB) (s : State), 10 ≤ o.cl.toNat → issueFault (instrOf (packB 0x20 0 o)) s = some { code := cIllegalEncoding }) ∧
  (∀ (o : OpB) (s : State), Issues (.brz o) s →
    let taken := if o.cl = 0 then rg s s.cur o.a.toNat == 0 else rg s s.cur o.a.toNat != 0
    (taken = true → TargetOk s (pcOf s + o.woff.signExtend 64 * 8)) →
    Gives (.brz o) s (fun t => GoesTo s t (if taken then pcOf s + o.woff.signExtend 64 * 8 else pcOf s + 8) [])) ∧
  (∀ (o : OpB) (s : State), Issues (.jmp o) s → TargetOk s (pcOf s + o.woff.signExtend 64 * 8) →
    Gives (.jmp o) s (fun t => GoesTo s t (pcOf s + o.woff.signExtend 64 * 8) [])) ∧
  (∀ (o : OpB) (s : State), Issues (.call o) s → TargetOk s (pcOf s + o.woff.signExtend 64 * 8) →
    Gives (.call o) s (fun t => GoesTo s t (pcOf s + o.woff.signExtend 64 * 8) [o.cl.toNat] ∧
      rg t s.cur o.cl.toNat = if o.cl = 0 then 0 else pcOf s + 8)) ∧
  (∀ (o : OpB) (s : State), Issues (.loop o) s →
    (2 ≤ (rg s s.cur o.a.toNat).toNat → TargetOk s (pcOf s + o.woff.signExtend 64 * 8)) →
    Gives (.loop o) s (fun t => GoesTo s t
      (if 2 ≤ (rg s s.cur o.a.toNat).toNat then pcOf s + o.woff.signExtend 64 * 8 else pcOf s + 8) [o.a.toNat] ∧
      rg t s.cur o.a.toNat = if rg s s.cur o.a.toNat = 0 then 0 else rg s s.cur o.a.toNat - 1)) ∧
  (∀ (o : OpA) (s : State), Issues (.jr o) s → TargetOk s (rg s s.cur o.a.toNat) →
    Gives (.jr o) s (fun t => GoesTo s t (rg s s.cur o.a.toNat) [o.d.toNat] ∧ rg t s.cur o.d.toNat = if o.d = 0 then 0 else pcOf s + 8)) ∧
  (∀ (o : OpA) (s : State), Issues (.ret o) s → TargetOk s (rg s s.cur o.a.toNat) →
    Gives (.ret o) s (fun t => GoesTo s t (rg s s.cur o.a.toNat) []))

/-- FORK sends a launch of its own core (R251): at once outside handler mode, from the send buffer at HRET in it. A target of another
device faults XLATE-PERM. HRET outside handler mode ends the context once nothing of it is out. In handler mode the commit comes after its
issue: a handler without entries commits its log, frees its slot and is idle; one with entries lets them leave first (R255), those of its new cells before the first link that follows them (R309, where log 95 names the
model's order). HABORT discards the handler's effects; two cycles later its message is last in the inbox, waiting, and the context
idle (R256). -/
def Obligations.ForkAndHandlerEnd : Prop :=
  (∀ (o : OpB) (s : State), Issues (.fork o) s → FreeToAct s → BufferRoom s →
    (pcOf s + o.woff.signExtend 64 * 8).toNat / 2 ^ 53 = s.device →
    Gives (.fork o) s (fun t => Proceeds s t [] ∧ Buffers s t (.message (forkLaunch s o)) ∧ t.messages = s.messages)) ∧
  (∀ (o : OpB) (s : State), Issues (.fork o) s → FreeToAct s → SendRoom s → coreExists (coreOf s.cur) = true → s.device < 2048 →
    (pcOf s + o.woff.signExtend 64 * 8).toNat / 2 ^ 53 = s.device →
    Gives (.fork o) s (fun t => Proceeds s t [] ∧ Posts s t (forkLaunch s o) ∧
      (coreAt t (coreOf s.cur)).msgid = (coreAt s (coreOf s.cur)).msgid + 1)) ∧
  (∀ (o : OpB) (s : State), Issues (.fork o) s → unfinished (beginIssue s) s.cur = false →
    (pcOf s + o.woff.signExtend 64 * 8).toNat / 2 ^ 53 ≠ s.device →
    exec (.fork o) s = .next (takeTrap (countIssue (.fork o) (beginIssue s)) s.cur { code := cXlatePerm, addr := pcOf s + o.woff.signExtend 64 * 8 })) ∧
  (∀ (o : OpE) (s : State), Issues (.hret o) s → (ctxOf s s.cur).hmode = false → NothingOut s → (ctxOf s s.cur).gang = none →
    (ctxOf s s.cur).lockstep = false → (ctxOf s s.cur).preemptAsked = false → (ctxOf s s.cur).fresh = false →
    Gives (.hret o) s (fun t => (ctxOf t s.cur).run = .idle ∧ MemKept s t ∧ (∀ r, rg t s.cur r = rg s s.cur r) ∧
      (ctxOf t s.cur).lease = (ctxOf s s.cur).lease)) ∧
  (∀ (o : OpE) (s : State), Issues (.hret o) s → (ctxOf s s.cur).hmode = true → returning s s.cur = false →
    canPush s (coreOf s.cur) (pushCount (ctxOf s s.cur).sendBuf) = true → (ctxOf s s.cur).fresh = false →
    Gives (.hret o) s (fun t => (ctxOf t s.cur).run = .leaving ∧ (ctxOf t s.cur).sendBuf = (ctxOf s s.cur).sendBuf ∧
      (ctxOf t s.cur).writeLog = (ctxOf s s.cur).writeLog ∧ (ctxOf t s.cur).hmode = true ∧ MemKept s t)) ∧
  (∀ (s : State) (c : Nat) (q : Slot), (ctxOf s c).run = .leaving → (ctxOf s c).readyAt ≤ s.cycle → (ctxOf s c).committed = false →
    slotOf s c = some q → (ctxOf s c).sendBuf = [] → (ctxOf s c).writeLog = [] → (ctxOf s c).pair = none → (ctxOf s c).drain = none →
    (ctxOf s c).gang = none → (ctxOf s c).lockstep = false → (ctxOf s c).preemptAsked = false →
    Gives (.sendBufferEntryLeave c) s (fun t => (ctxOf t c).run = .idle ∧ (ctxOf t c).hmode = false ∧ MemKept s t ∧
      (coreAt t (coreOf c)).inbox = (coreAt s (coreOf c)).inbox.filter (fun r => r.index ≠ q.index))) ∧
  (∀ (s : State) (c : Nat) (e : Entry) (l : List Entry), (ctxOf s c).run = .leaving → (ctxOf s c).readyAt ≤ s.cycle →
    (ctxOf s c).committed = false → (ctxOf s c).sendBuf = e :: l → (ctxOf s c).writeLog = [] → (ctxOf s c).pair = none → (ctxOf s c).drain = none →
    Gives (.sendBufferEntryLeave c) s (fun t => (ctxOf t c).run = .leaving ∧ (ctxOf t c).committed = true ∧
      (ctxOf t c).sendBuf = cellsFirst (e :: l) ∧ MemKept s t)) ∧
  (∀ (s : State) (c : Nat) (x : Line) (e : LogLine), (ctxOf s c).run = .leaving → (ctxOf s c).readyAt ≤ s.cycle →
    (ctxOf s c).committed = false → (ctxOf s c).sendBuf = [] → (ctxOf s c).writeLog = [e] → e.place = .memory → lineOf s (coreOf c) e.line = some x →
    Gives (.sendBufferEntryLeave c) s (fun t => ∃ y, lineOf t (coreOf c) e.line = some y ∧ y.dirty = true ∧
      y.data = (x.data &&& ~~~e.mask) ||| (e.data &&& e.mask))) ∧
  (∀ (o : OpE) (s : State) (q : Slot), Issues (.habort o) s → returning s s.cur = false → (ctxOf s s.cur).cip = false →
    slotOf s s.cur = some q → (ctxOf s s.cur).drain = none → (ctxOf s s.cur).gang = none → (ctxOf s s.cur).lockstep = false →
    (ctxOf s s.cur).preemptAsked = false → (ctxOf s s.cur).fresh = false →
    Gives (.habort o) s (fun t => (ctxOf t s.cur).run = .aborting ∧ (ctxOf t s.cur).sendBuf = [] ∧ (ctxOf t s.cur).writeLog = [] ∧ MemKept s t ∧
      (ctxOf t s.cur).regs.flags = (ctxOf s s.cur).startFlags ∧ s.cycle + 2 ≤ (ctxOf t s.cur).readyAt ∧
      (coreAt t (coreOf s.cur)).inbox = (coreAt s (coreOf s.cur)).inbox)) ∧
  (∀ (s : State) (c : Nat) (q : Slot), (ctxOf s c).run = .aborting → (ctxOf s c).readyAt ≤ s.cycle → slotOf s c = some q →
    (ctxOf s c).drain = none → (ctxOf s c).gang = none → (ctxOf s c).lockstep = false → (ctxOf s c).preemptAsked = false →
    Gives (.contextReady c) s (fun t => (ctxOf t c).run = .idle ∧ (ctxOf t c).hmode = false ∧ (ctxOf t c).regs = (ctxOf s c).regs ∧ MemKept s t ∧
      (coreAt t (coreOf c)).inbox =
        (coreAt s (coreOf c)).inbox.filter (fun r => r.index ≠ q.index) ++ [{ q with phase := .waiting, since := s.cycle }]))

/-- HOLD and RELEASE return the old hold register and set or clear the bits of imm OR g[a] (R257). NOP does nothing (R232); YIELD parks
its context, which is not ready again before issue + 2 + n; GYIELD stops a gang member while a request to pre-empt its gang is pending,
and is YIELD #0 otherwise (R258). GBAR (R259): an arrival parks its context; the eighth of its gang at the wired barrier completes it, and all
eight go on past their GBAR; arrivals of another gang stay. -/
def Obligations.HoldYieldAndBarrier : Prop :=
  (∀ (o : OpE) (s : State), Issues (.hold o) s → unsettled s s.cur = false →
    Gives (.hold o) s (fun t => Proceeds s t [o.d.toNat] ∧
      rg t s.cur o.d.toNat = (if o.d = 0 then 0 else (coreAt s (coreOf s.cur)).hold.setWidth 64) ∧
      (coreAt t (coreOf s.cur)).hold = (coreAt s (coreOf s.cur)).hold ||| (o.imm ||| (rg s s.cur o.a.toNat).setWidth 16))) ∧
  (∀ (o : OpE) (s : State), Issues (.release o) s → unsettled s s.cur = false →
    Gives (.release o) s (fun t => Proceeds s t [o.d.toNat] ∧
      rg t s.cur o.d.toNat = (if o.d = 0 then 0 else (coreAt s (coreOf s.cur)).hold.setWidth 64) ∧
      (coreAt t (coreOf s.cur)).hold = (coreAt s (coreOf s.cur)).hold &&& ~~~(o.imm ||| (rg s s.cur o.a.toNat).setWidth 16))) ∧
  (∀ (o : OpE) (s : State), Issues (.nop o) s → Gives (.nop o) s (fun t => GoesTo s t (pcOf s + 8) [])) ∧
  (∀ (o : OpE) (s : State), Issues (.yield o) s → Quiet s →
    Gives (.yield o) s (fun t => Proceeds s t [] ∧ OwnOnly s t ∧ (ctxOf t s.cur).run = .groupEnd ∧
      s.cycle + 2 + o.imm.toNat ≤ (ctxOf t s.cur).readyAt)) ∧
  (∀ (o : OpE) (s : State), Issues (.gyield o) s → preemptPending s s.cur = false → Quiet s →
    Gives (.gyield o) s (fun t => Proceeds s t [] ∧ OwnOnly s t ∧ (ctxOf t s.cur).run = .groupEnd ∧ s.cycle + 2 ≤ (ctxOf t s.cur).readyAt)) ∧
  (∀ (o : OpE) (s : State), Issues (.gyield o) s → preemptPending s s.cur = true →
    Gives (.gyield o) s (fun t => Proceeds s t [] ∧ (ctxOf t s.cur).run = .preempted)) ∧
  (∀ (o : OpE) (s : State), Issues (.gbar o) s → (ctxOf s s.cur).passBarrier = true →
    Gives (.gbar o) s (fun t => Proceeds s t [] ∧ (ctxOf t s.cur).passBarrier = false)) ∧
  (∀ (o : OpE) (s : State) (g : Nat) (y : Gang), Issues (.gbar o) s → (ctxOf s s.cur).passBarrier = false →
    (ctxOf s s.cur).barrierArrived = false → (ctxOf s s.cur).gang = some g → sget none s.gangs g = some y → y.lost = false →
    NothingOut s → (wiredOf s (vertOf s.cur) g).length < 7 →
    Gives (.gbar o) s (fun t => (ctxOf t s.cur).run = .stalled .gbar ∧ pcOf t = pcOf s ∧ (ctxOf t s.cur).barrierArrived = true ∧
      (clusterAt t (vertOf s.cur)).wired = (clusterAt s (vertOf s.cur)).wired ++ [(s.cur, decide (o.imm = 1))])) ∧
  (∀ (o : OpE) (s : State) (g : Nat) (y : Gang), Issues (.gbar o) s → o.imm = 0 → (ctxOf s s.cur).passBarrier = false →
    (ctxOf s s.cur).barrierArrived = false → (ctxOf s s.cur).gang = some g → sget none s.gangs g = some y → y.lost = false →
    NothingOut s → (wiredOf s (vertOf s.cur) g).length = 7 →
    (∀ e ∈ wiredOf s (vertOf s.cur) g, e.2 = false ∧ e.1 ≠ s.cur ∧ (ctxOf s e.1).run = .stalled .gbar) →
    Gives (.gbar o) s (fun t => Proceeds s t [] ∧ wiredOf t (vertOf s.cur) g = [] ∧
      (∀ e ∈ wiredOf s (vertOf s.cur) g, (ctxOf t e.1).passBarrier = true) ∧
      ∀ e ∈ (clusterAt s (vertOf s.cur)).wired, e ∉ wiredOf s (vertOf s.cur) g → e.1 ≠ s.cur → e ∈ (clusterAt t (vertOf s.cur)).wired))

/-! ### Nets, messages, chords, neighbours -/

/-- CNEW takes a block from the reservoir, returns its reference and buffers the cell's write (R306); WNEW takes and returns a wire slot;
CGRAB returns the reservoir's count and asks for more (R311). Which item of several is taken, the first of the reservoir's list, is the
model's choice (log 45). -/
def Obligations.CellsAndSlots : Prop :=
  (∀ (o : OpE) (s : State) (a pa home : Nat) (leaf : Word), Issues (.cnew o) s → FreeToAct s → BufferRoom s →
    let h := cnewHeader s o
    headerWritable h = true → refOk (rg s s.cur o.b.toNat) = true → refOk (rg s s.cur o.c.toNat) = true →
    (bits h 17 16 < 1 → rg s s.cur o.b.toNat = 0) → (bits h 17 16 < 2 → rg s s.cur o.c.toNat = 0) →
    heapOf s false (o.imm.toNat % 16) ≠ none →
    (coreAt s (coreOf s.cur)).reservoir.find? (fun e => e.1 = false && e.2.1 = o.imm.toNat % 16) = some (false, o.imm.toNat % 16, a) →
    translateNow s a true = .ok (pa, home, leaf) →
    Gives (.cnew o) s (fun t => Proceeds s t [o.d.toNat] ∧ rg t s.cur o.d.toNat = (if o.d = 0 then 0 else cellRef s.device a) ∧
      (coreAt t (coreOf s.cur)).reservoir = (coreAt s (coreOf s.cur)).reservoir.erase (false, o.imm.toNat % 16, a) ∧
      Buffers s t (.slice true home (.cell a pa [BitVec.ofNat 64 h, rg s s.cur o.b.toNat, rg s s.cur o.c.toNat, 0])))) ∧
  (∀ (o : OpE) (s : State) (a pa home : Nat) (leaf : Word), Issues (.cnew o) s → FreeToAct s → PostRoom s →
    let h := cnewHeader s o
    headerWritable h = true → refOk (rg s s.cur o.b.toNat) = true → refOk (rg s s.cur o.c.toNat) = true →
    (bits h 17 16 < 1 → rg s s.cur o.b.toNat = 0) → (bits h 17 16 < 2 → rg s s.cur o.c.toNat = 0) →
    heapOf s false (o.imm.toNat % 16) ≠ none →
    (coreAt s (coreOf s.cur)).reservoir.find? (fun e => e.1 = false && e.2.1 = o.imm.toNat % 16) = some (false, o.imm.toNat % 16, a) →
    translateNow s a true = .ok (pa, home, leaf) →
    Gives (.cnew o) s (fun t => Proceeds s t [o.d.toNat] ∧ rg t s.cur o.d.toNat = (if o.d = 0 then 0 else cellRef s.device a) ∧
      (coreAt t (coreOf s.cur)).reservoir = (coreAt s (coreOf s.cur)).reservoir.erase (false, o.imm.toNat % 16, a) ∧
      Sends s t 1 true true (home % 2048) (.cell a pa [BitVec.ofNat 64 h, rg s s.cur o.b.toNat, rg s s.cur o.c.toNat, 0]))) ∧
  (∀ (o : OpE) (s : State) (a : Nat), Issues (.wnew o) s → FreeToAct s → heapOf s true (o.imm.toNat % 16) ≠ none →
    (coreAt s (coreOf s.cur)).reservoir.find? (fun e => e.1 = true && e.2.1 = o.imm.toNat % 16) = some (true, o.imm.toNat % 16, a) →
    Gives (.wnew o) s (fun t => Proceeds s t [o.d.toNat] ∧ rg t s.cur o.d.toNat = (if o.d = 0 then 0 else wireRef s.device a) ∧
      (coreAt t (coreOf s.cur)).reservoir = (coreAt s (coreOf s.cur)).reservoir.erase (true, o.imm.toNat % 16, a))) ∧
  (∀ (o : OpE) (s : State), Issues (.cgrab o) s → FreeToAct s →
    Gives (.cgrab o) s (fun t => Proceeds s t [o.d.toNat] ∧
      rg t s.cur o.d.toNat = (if o.d = 0 then 0 else
        BitVec.ofNat 64 (((coreAt s (coreOf s.cur)).reservoir.filter (fun e => e.1 = o.imm.getLsbD 4 && e.2.1 = o.imm.toNat % 16)).length)) ∧
      (coreAt t (coreOf s.cur)).requests =
        (coreAt s (coreOf s.cur)).requests ++ [(o.imm.getLsbD 4, o.imm.toNat % 16, o.imm.toNat / 32 % 32 + 1)]))

/-- CSET and LINK post their writes to the home slice of the cell or slot; LINK of two ends without a slot pushes their pair; CXLD reads the X
word there (R307, R308, R310). -/
def Obligations.LinksAndCellWrites : Prop :=
  (∀ (o : OpE) (s u : State) (va pa : Nat) (leaf : Word), Issues (.cset o) s → FreeToAct s → PostRoom s →
    let r := rg s s.cur o.a.toNat
    let w := o.imm.toNat % 4
    refKind r = 1 → refOk r = true → (w = 0 → headerWritable (rg s s.cur o.b.toNat).toNat = true) →
    ((w = 1 ∨ w = 2) → refOk (rg s s.cur o.b.toNat) = true) → translate (beginIssue s) (refEa r) .wr = .ok (.phys va pa leaf, u) →
    Gives (.cset o) s (fun t => Proceeds s t [] ∧ Sends s t 1 true true (leafSlice leaf pa % 2048) (.cset r pa w (rg s s.cur o.b.toNat)))) ∧
  (∀ (o : OpE) (s u : State) (va pa : Nat) (leaf : Word), Issues (.cset o) s → FreeToAct s → BufferRoom s →
    let r := rg s s.cur o.a.toNat
    let w := o.imm.toNat % 4
    refKind r = 1 → refOk r = true → (w = 0 → headerWritable (rg s s.cur o.b.toNat).toNat = true) →
    ((w = 1 ∨ w = 2) → refOk (rg s s.cur o.b.toNat) = true) → translate (beginIssue s) (refEa r) .wr = .ok (.phys va pa leaf, u) →
    Gives (.cset o) s (fun t => Proceeds s t [] ∧ Buffers s t (.slice true (leafHome leaf pa) (.cset r pa w (rg s s.cur o.b.toNat))))) ∧
  (∀ (o : OpE) (s u : State) (va pa : Nat) (leaf : Word), Issues (.link o) s → FreeToAct s → PostRoom s →
    let a := rg s s.cur o.a.toNat
    let b := rg s s.cur o.b.toNat
    a ≠ 0 → refOk a = true → b ≠ 0 → refOk b = true → refKind a = 2 → a ≠ b →
    translate (beginIssue s) (refEa a) .wr = .ok (.phys va pa leaf, u) →
    Gives (.link o) s (fun t => Proceeds s t [] ∧ Sends s t 1 true true (leafSlice leaf pa % 2048) (.link a pa b))) ∧
  (∀ (o : OpE) (s : State), Issues (.link o) s → FreeToAct s → PostRoom s →
    let a := rg s s.cur o.a.toNat
    let b := rg s s.cur o.b.toNat
    a ≠ 0 → refOk a = true → b ≠ 0 → refOk b = true → refKind a ≠ 2 → refKind b ≠ 2 → cellsOut s s.cur = false → fenced s s.cur 1 = false →
    (coreAt s (coreOf s.cur)).deque.length < 256 → canPush s (coreOf s.cur) 1 = true → (ctxOf s s.cur).fresh = false →
    Gives (.link o) s (fun t => Proceeds s t [] ∧
      (coreAt t (coreOf s.cur)).deque = (coreAt s (coreOf s.cur)).deque ++ [formPair s a b (netOf s s.cur)])) ∧
  (∀ (o : OpE) (s u : State) (va pa : Nat) (leaf : Word), Issues (.cxld o) s →
    let r := rg s s.cur o.a.toNat
    refKind r = 1 → refOk r = true → translate (beginIssue s) (refEa r) .rd = .ok (.phys va pa leaf, u) →
    Gives (.cxld o) s (fun t => Proceeds s t [] ∧ Sends s t 1 true false (leafSlice leaf pa % 2048) (.cxld r pa o.d.toNat)))

/-- A target that is not a multiple of 8 faults ALIGN, and one of another device XLATE-PERM, at the transferring instruction, which has no
other effect: no link is written and no counter lowered (R223, R250, R252). A reference that is no cell, or malformed, faults BAD-REF with
the reference as its address (R306 to R308). -/
def Obligations.BadTargetsAndReferences : Prop :=
  (∀ (o : OpA) (s : State), Issues (.jr o) s → unfinished (beginIssue s) s.cur = false → rg s s.cur o.a.toNat &&& 7 ≠ 0 →
    exec (.jr o) s = .next (takeTrap (countIssue (.jr o) (beginIssue s)) s.cur { code := cAlign, addr := rg s s.cur o.a.toNat })) ∧
  (∀ (o : OpA) (s : State), Issues (.ret o) s → unfinished (beginIssue s) s.cur = false → rg s s.cur o.a.toNat &&& 7 = 0 →
    (rg s s.cur o.a.toNat).toNat / 2 ^ 53 ≠ s.device →
    exec (.ret o) s = .next (takeTrap (countIssue (.ret o) (beginIssue s)) s.cur { code := cXlatePerm, addr := rg s s.cur o.a.toNat })) ∧
  (∀ (o : OpB) (s : State), Issues (.call o) s → unfinished (beginIssue s) s.cur = false →
    let t := pcOf s + o.woff.signExtend 64 * 8
    t &&& 7 = 0 → t.toNat / 2 ^ 53 ≠ s.device →
    exec (.call o) s = .next (takeTrap (countIssue (.call o) (beginIssue s)) s.cur { code := cXlatePerm, addr := t })) ∧
  (∀ (o : OpB) (s : State), Issues (.loop o) s → unfinished (beginIssue s) s.cur = false → 2 ≤ (rg s s.cur o.a.toNat).toNat →
    let t := pcOf s + o.woff.signExtend 64 * 8
    t &&& 7 = 0 → t.toNat / 2 ^ 53 ≠ s.device →
    exec (.loop o) s = .next (takeTrap (countIssue (.loop o) (beginIssue s)) s.cur { code := cXlatePerm, addr := t })) ∧
  (∀ (o : OpE) (s : State), Issues (.cset o) s → unfinished (beginIssue s) s.cur = false → refKind (rg s s.cur o.a.toNat) ≠ 1 →
    exec (.cset o) s = .next (takeTrap (countIssue (.cset o) (beginIssue s)) s.cur { code := cBadRef, addr := rg s s.cur o.a.toNat })) ∧
  (∀ (o : OpE) (s : State), Issues (.cxld o) s → unfinished (beginIssue s) s.cur = false → refKind (rg s s.cur o.a.toNat) ≠ 1 →
    exec (.cxld o) s = .next (takeTrap (countIssue (.cxld o) (beginIssue s)) s.cur { code := cBadRef, addr := rg s s.cur o.a.toNat })) ∧
  (∀ (o : OpE) (s : State), Issues (.link o) s → unfinished (beginIssue s) s.cur = false → rg s s.cur o.a.toNat = 0 → refKind (rg s s.cur o.b.toNat) ≠ 2 →
    exec (.link o) s = .next (takeTrap (countIssue (.link o) (beginIssue s)) s.cur { code := cBadRef })) ∧
  (∀ (o : OpE) (s u : State) (x : Target), Issues (.link o) s → refOk (rg s s.cur o.a.toNat) = true →
    refKind (rg s s.cur o.a.toNat) = 2 → rg s s.cur o.a.toNat = rg s s.cur o.b.toNat →
    translate (beginIssue s) (refEa (rg s s.cur o.a.toNat)) .wr = .ok (x, u) → unfinished u s.cur = false →
    exec (.link o) s = .next (takeTrap (countIssue (.link o) u) s.cur { code := cBadRef, addr := rg s s.cur o.a.toNat }))

/-- SEND returns its message id and sends 48 bytes of its class, at once or from the send buffer (R312, R313); MREL frees the handler's
slot, which makes it committed-in-part (R314). -/
def Obligations.SendAndRelease : Prop :=
  (∀ (o : OpE) (s : State), Issues (.send o) s → FreeToAct s → BufferRoom s →
    Gives (.send o) s (fun t => Proceeds s t [o.d.toNat] ∧
      rg t s.cur o.d.toNat = (if o.d = 0 then 0 else (coreAt s (coreOf s.cur)).msgid.setWidth 64) ∧
      (coreAt t (coreOf s.cur)).msgid = (coreAt s (coreOf s.cur)).msgid + 1 ∧ ∃ m, Buffers s t (.message m) ∧
        m.cls = o.imm.toNat % 32 ∧ m.sender = agentOf s s.cur ∧ m.msgid = (coreAt s (coreOf s.cur)).msgid ∧
        (o.b ≠ 0 → m.payload = rgs s s.cur o.b.toNat 6) ∧ (o.b = 0 → m.payload = [0, 0, 0, 0, 0, 0]) ∧
        (o.imm.getLsbD 5 = false → m.dest = (rg s s.cur o.a.toNat).toNat % 2 ^ 27))) ∧
  (∀ (o : OpE) (s : State), Issues (.send o) s → FreeToAct s → SendRoom s → o.imm.getLsbD 5 = false → s.device < 2048 →
    rg s s.cur o.a.toNat >>> 43 = 0 → namesTarget ((rg s s.cur o.a.toNat).toNat % 2 ^ 27) = true →
    (rg s s.cur o.a.toNat).toNat % 2 ^ 27 / 65536 = s.device →
    Gives (.send o) s (fun t => Proceeds s t [o.d.toNat] ∧
      rg t s.cur o.d.toNat = (if o.d = 0 then 0 else (coreAt s (coreOf s.cur)).msgid.setWidth 64) ∧ ∃ m, Posts s t m ∧
        m.cls = o.imm.toNat % 32 ∧ m.sender = agentOf s s.cur ∧ m.msgid = (coreAt s (coreOf s.cur)).msgid ∧
        m.lease = (ctxOf s s.cur).lease ∧ m.dest = (rg s s.cur o.a.toNat).toNat % 2 ^ 27 ∧ (o.b ≠ 0 → m.payload = rgs s s.cur o.b.toNat 6))) ∧
  (∀ (o : OpE) (s : State) (q : Slot), Issues (.mrel o) s → FreeToAct s → slotOf s s.cur = some q → (ctxOf s s.cur).mapped = true →
    Gives (.mrel o) s (fun t => Proceeds s t [] ∧ (ctxOf t s.cur).mapped = false ∧
      ((ctxOf s s.cur).hmode = true → (ctxOf t s.cur).cip = true) ∧
      (coreAt t (coreOf s.cur)).inbox = (coreAt s (coreOf s.cur)).inbox.filter (fun r => r.index ≠ q.index)))

/-- CHOPEN takes the core's chord and the port of its target; CHPUT sends 64 bytes, from a v register or a q port, which arrive after their
flight; CHGET takes the oldest entry and gives 0, or 1 for the marker, which frees the chord; CHCLOSE sends the marker (R12, R315, R316).
NPUT writes its value into the neighbour's register and sets the presence bit, a handler's at HRET; while that bit is set, or an earlier
NPUT of the core waits for it, it waits; toward a killed core it faults DEAD-PEER (R80, R160, R317). -/
def Obligations.ChordsAndNeighbours : Prop :=
  (∀ (o : OpE) (s : State), Issues (.chopen o) s → unsettled s s.cur = false →
    let a := (rg s s.cur o.a.toNat).toNat
    let dest := a % 65536 / 8
    a < 2 ^ 27 → a / 65536 = s.device → isExecute dest = true → (coreAt s dest).killed = false →
    (∀ w, (ctxOf s s.cur).cooked = some w → s.cycle < w.toNat + 2 ^ 20) → (coreAt s (coreOf s.cur)).chord = none → (coreAt s dest).portHolder = none →
    ∃ t, exec (.chopen o) s = .next t ∧ Proceeds s t [] ∧
      (coreAt t (coreOf s.cur)).chord = some { holder := s.cur, dest := dest, closing := false } ∧ (coreAt t dest).portHolder = some (coreOf s.cur)) ∧
  (∀ (o : OpE) (s : State) (dest : Nat), Issues (.chput o) s → FreeToAct s → fenced s s.cur 4 = false → SourcesServed s [o.a] →
    (coreAt s (coreOf s.cur)).chord = some { holder := s.cur, dest := dest, closing := false } → (coreAt s dest).killed = false →
    (coreAt s dest).port.length + (coreAt s dest).portIn.length < 16 →
    ∃ t, exec (.chput o) s = .next t ∧ Proceeds s t [] ∧ Popped s t [o.a] ∧
      (coreAt t dest).portIn = (coreAt s dest).portIn ++ [(s.cycle + latency (vertOf s.cur) (vertexOf dest), some (slotValue s [] o.a))]) ∧
  (∀ (o : OpE) (s : State) (x : Vec) (l : List (Option Vec)), Issues (.chget o) s → unsettled s s.cur = false →
    (coreAt s (coreOf s.cur)).portDead = false → popAhead s [chordPort] = false → (coreAt s (coreOf s.cur)).port = some x :: l → Quiet s →
    ∃ t, exec (.chget o) s = .next t ∧ Proceeds s t [o.c.toNat] ∧ rv t s.cur o.d.toNat = x ∧ rg t s.cur o.c.toNat = 0 ∧
      (coreAt t (coreOf s.cur)).port = l) ∧
  (∀ (o : OpE) (s : State) (k : Nat) (l : List (Option Vec)), Issues (.chget o) s → unsettled s s.cur = false →
    (coreAt s (coreOf s.cur)).portDead = false → popAhead s [chordPort] = false → (coreAt s (coreOf s.cur)).portHolder = some k →
    (coreAt s (coreOf s.cur)).port = none :: l → Quiet s →
    ∃ t, exec (.chget o) s = .next t ∧ Proceeds s t [o.c.toNat] ∧ rv t s.cur o.d.toNat = 0 ∧ rg t s.cur o.c.toNat = (if o.c = 0 then 0 else 1) ∧
      (coreAt t (coreOf s.cur)).port = l ∧ (coreAt t (coreOf s.cur)).portHolder = none ∧ (coreAt t k).chord = none) ∧
  (∀ (o : OpE) (s : State) (dest : Nat), Issues (.chclose o) s → unsettled s s.cur = false →
    (coreAt s (coreOf s.cur)).chord = some { holder := s.cur, dest := dest, closing := false } → (coreAt s dest).killed = false →
    ∃ t, exec (.chclose o) s = .next t ∧ Proceeds s t [] ∧
      (coreAt t dest).portIn = (coreAt s dest).portIn ++ [(s.cycle + latency (vertOf s.cur) (vertexOf dest), none)] ∧
      (coreAt t (coreOf s.cur)).chord = some { holder := s.cur, dest := dest, closing := true }) ∧
  (∀ (o : OpE) (s : State), Issues (.nput o) s → FreeToAct s → (ctxOf s s.cur).hmode = false →
    let j := o.imm.toNat % 4
    let k := coreOf s.cur / 16 * 16 + (coreOf s.cur % 16 + (if j < 2 then 1 else 7)) % 8
    (coreAt s k).killed = false → (coreAt s k).npres.getLsbD j = false → putsWaiting s (coreOf s.cur) k j = [] →
    ∃ t, exec (.nput o) s = .next t ∧ Proceeds s t [] ∧ sget 0 (coreAt t k).n j = rg s s.cur o.a.toNat ∧ (coreAt t k).npres.getLsbD j = true) ∧
  (∀ (o : OpE) (s : State), Issues (.nput o) s → FreeToAct s → BufferRoom s →
    let j := o.imm.toNat % 4
    let k := coreOf s.cur / 16 * 16 + (coreOf s.cur % 16 + (if j < 2 then 1 else 7)) % 8
    (coreAt s k).killed = false →
    ∃ t, exec (.nput o) s = .next t ∧ Proceeds s t [] ∧ Buffers s t (.nput j (rg s s.cur o.a.toNat) s.cycle)) ∧
  (∀ (o : OpE) (s : State), Issues (.nput o) s → FreeToAct s → (ctxOf s s.cur).hmode = false →
    let j := o.imm.toNat % 4
    let k := coreOf s.cur / 16 * 16 + (coreOf s.cur % 16 + (if j < 2 then 1 else 7)) % 8
    (coreAt s k).killed = false → ((coreAt s k).npres.getLsbD j = true ∨ putsWaiting s (coreOf s.cur) k j ≠ []) →
    Gives (.nput o) s (fun t => (ctxOf t s.cur).run = .stalled (.nWrite k o (rg s s.cur o.a.toNat) s.cycle) ∧ pcOf t = pcOf s ∧
      RegFrame s t [] [])) ∧
  (∀ (o : OpE) (s : State), Issues (.nput o) s → unfinished (beginIssue s) s.cur = false →
    (coreAt s (coreOf s.cur / 16 * 16 + (coreOf s.cur % 16 + (if o.imm.toNat % 4 < 2 then 1 else 7)) % 8)).killed = true →
    exec (.nput o) s = .next (takeTrap (countIssue (.nput o) (beginIssue s)) s.cur { code := cDeadPeer }))

/-! ### Memory -/

/-- LD of a cached line reads its bytes, lowest first, extended as the form says (R2, R237, R284): nothing else changes but times and the
order of use; LD of the raw facet reads the core's scratchpad (R93, R94). -/
def Obligations.LoadOfCachedLine : Prop :=
  (∀ (o : OpM) (s : State) (e : TlbEntry) (h : TokenHit) (x : Line), Issues (.ld o) s → Quiet s → (ctxOf s s.cur).writeLog = [] →
    let ea := effAddr s s.cur o
    let n := 2 ^ o.width.toNat
    let pa := leafPa e.page (ea.toNat % 2 ^ 53) e.leaf
    ea.toNat % n = 0 → o.width.toNat ≤ 3 → pa % 32 = ea.toNat % 32 → LineReady s ea .read .rd e h x →
    Gives (.ld o) s (fun t => Proceeds s t [o.d.toNat] ∧
      rg t s.cur o.d.toNat = if o.d = 0 then 0 else loadedValue o n (x.data.extractLsb' (8 * (pa % 32)) (8 * n)).toNat)) ∧
  (∀ (o : OpM) (s : State), Issues (.ld o) s → Quiet s → (ctxOf s s.cur).writeLog = [] →
    let ea := effAddr s s.cur o
    let n := 2 ^ o.width.toNat
    let a := ea.toNat % 2 ^ 53 - 0x1FFFFF00000000
    ea.toNat % n = 0 → isExecute (coreOf s.cur) = true → fenced s s.cur 0 = false → ea.toNat / 2 ^ 53 = s.device →
    0x1FFFFF00000000 ≤ ea.toNat % 2 ^ 53 → a + n ≤ 0x40000 →
    Gives (.ld o) s (fun t => Proceeds s t [o.d.toNat] ∧
      rg t s.cur o.d.toNat = if o.d = 0 then 0 else
        loadedValue o n ((List.range n).foldl (fun acc i => acc + (scratchByte s (coreOf s.cur) (a + i)).toNat * 2 ^ (8 * i)) 0)))

/-- ST to a cached line outside handler mode changes the stored bytes of the line and no other, and no byte of memory; in handler mode it
goes into the write log and changes neither (R30, R237, R284). A misaligned address faults ALIGN. -/
def Obligations.StoreToCachedLine : Prop :=
  (∀ (o : OpM) (s : State) (e : TlbEntry) (h : TokenHit) (x : Line), Issues (.st o) s → Quiet s → FreeToAct s → (ctxOf s s.cur).hmode = false →
    let ea := effAddr s s.cur o
    let n := 2 ^ o.width.toNat
    let pa := leafPa e.page (ea.toNat % 2 ^ 53) e.leaf
    ea.toNat % n = 0 → o.width.toNat ≤ 3 → pa % 32 = ea.toNat % 32 → LineReady s ea .write .wr e h x →
    Gives (.st o) s (fun t => Proceeds s t [] ∧ (∃ y, lineOf t (coreOf s.cur) (pa / 32) = some y ∧ y.dirty = true ∧
        y.data.extractLsb' (8 * (pa % 32)) (8 * n) = (rg s s.cur o.d.toNat).setWidth (8 * n) ∧
        ∀ i, i < 32 → (i < pa % 32 ∨ pa % 32 + n ≤ i) → y.data.extractLsb' (8 * i) 8 = x.data.extractLsb' (8 * i) 8) ∧
      ∀ l, l ≠ pa / 32 → lineOf t (coreOf s.cur) l = lineOf s (coreOf s.cur) l)) ∧
  (∀ (o : OpM) (s : State) (e : TlbEntry) (h : TokenHit) (x : Line), Issues (.st o) s → Quiet s → FreeToAct s → (ctxOf s s.cur).hmode = true →
    let ea := effAddr s s.cur o
    let n := 2 ^ o.width.toNat
    let pa := leafPa e.page (ea.toNat % 2 ^ 53) e.leaf
    ea.toNat % n = 0 → o.width.toNat ≤ 3 → pa % 32 = ea.toNat % 32 → LineReady s ea .write .wr e h x → x.dirty = false →
    (ctxOf s s.cur).writeLog = [] →
    Gives (.st o) s (fun t => Proceeds s t [] ∧ lineOf t (coreOf s.cur) (pa / 32) = some x ∧
      ∃ g, (ctxOf t s.cur).writeLog = [g] ∧ g.place = .memory ∧ g.line = pa / 32 ∧
        g.data.extractLsb' (8 * (pa % 32)) (8 * n) = (rg s s.cur o.d.toNat).setWidth (8 * n) ∧
        ∀ i, i < 256 → g.mask.getLsbD i = decide (8 * (pa % 32) ≤ i ∧ i < 8 * (pa % 32) + 8 * n))) ∧
  (∀ (o : OpM) (s : State), Issues (.st o) s → unfinished (beginIssue s) s.cur = false → fenced s s.cur 0 = false →
    (effAddr s s.cur o).toNat % 2 ^ o.width.toNat ≠ 0 →
    exec (.st o) s = .next (takeTrap (countIssue (.st o) (beginIssue s)) s.cur { code := cAlign, addr := effAddr s s.cur o }))

/-- Whatever path 0 reads, the loads write their destination with it, in their form, and no other register (R284, R285, R287): LDV a vector
register or the end of a q port, LDS one element a lane, LD.P a peek. While a line of theirs is missing, LD and LDV are out and their
group goes on (R188, R284). -/
def Obligations.LoadForms : Prop :=
  (∀ (o : OpM) (s w u : State) (tgt : Target) (x : Nat), Issues (.ldv o) s → Quiet s → o.d.toNat < 48 → fenced s s.cur 0 = false →
    readPlace (beginIssue s) (effAddr s s.cur o) 64 .read = .ok (tgt, w) →
    (∀ va pa leaf, tgt = .phys va pa leaf → lineWaits w s.cur (linesOf pa 64) = false) →
    readAt w (effAddr s s.cur o) 64 tgt = .ok (x, u) →
    Gives (.ldv o) s (fun t => Moves s t [] ∧ rv t s.cur o.d.toNat = BitVec.ofNat 512 x ∧ MemKept u t)) ∧
  (∀ (o : OpM) (s w : State) (va pa : Nat) (leaf : Word) (i : Instr) (n : Nat) (sx vec : Bool),
    (i, n, sx, vec) ∈ [(Instr.ld o, 2 ^ o.width.toNat, decide (o.kind = 1), false), (.ldv o, 64, false, true)] → Issues i s → o.d.toNat < 48 →
    readPlace (beginIssue s) (effAddr s s.cur o) n .read = .ok (.phys va pa leaf, w) → lineWaits w s.cur (linesOf pa n) = true →
    Gives i s (fun t => Proceeds s t [] ∧ Sends s t 0 false false (leafSlice leaf pa % 2048)
      (.lineLoad pa n sx vec o.d.toNat (logBoth w s.cur pa 0 n) (logBoth w s.cur pa 0xFF n)))) ∧
  (∀ (o : OpM) (s u : State) (x : Nat), Issues (.ldv o) s → memRead (beginIssue s) (effAddr s s.cur o) 64 .read = .ok (x, u) →
    unsettled u s.cur = false → 48 ≤ o.d.toNat → (sget [] (coreAt u (coreOf s.cur)).qOut (o.d.toNat - 48)).length < 16 →
    Gives (.ldv o) s (fun t => Moves s t [] ∧ MemKept u t ∧
      sget [] (coreAt t (coreOf s.cur)).qOut (o.d.toNat - 48) =
        sget [] (coreAt u (coreOf s.cur)).qOut (o.d.toNat - 48) ++ [BitVec.ofNat 512 x])) ∧
  (∀ (o : OpM) (s u : State) (l : List Nat), Issues (.lds o) s → Quiet s →
    readLanes (beginIssue s) (2 ^ o.width.toNat) ((List.range (64 / 2 ^ o.width.toNat)).map (fun i =>
      rg s s.cur o.a.toNat + o.offset.signExtend 64 + BitVec.ofNat 64 i * (rg s s.cur o.b.toNat <<< o.scale.toNat))) = .ok (l, u) →
    Gives (.lds o) s (fun t => Moves s t [] ∧ rv t s.cur o.d.toNat = packVec (8 * 2 ^ o.width.toNat) l ∧ MemKept u t)) ∧
  (∀ (o : OpM) (s u w : State) (va pa : Nat) (leaf : Word) (x : Line), Issues (.ldP o) s → fenced s s.cur 0 = false →
    let n := 2 ^ o.width.toNat
    (effAddr s s.cur o).toNat % n = 0 → translate (beginIssue s) (effAddr s s.cur o) .rd = .ok (.phys va pa leaf, u) → leafWr leaf = true →
    tokenCheck u (effAddr s s.cur o) .peek 0 = .ok (.commons, w) → lineOf w (coreOf s.cur) (pa / 32) = some x → x.poison = false →
    Gives (.ldP o) s (fun t => Proceeds s t [o.d.toNat] ∧
      rg t s.cur o.d.toNat = if o.d = 0 then 0 else loadedValue o n (x.data.toNat >>> (8 * (pa % 32))))) ∧
  (∀ (o : OpM) (s u w : State) (va pa : Nat) (leaf : Word), Issues (.ldP o) s →
    let n := 2 ^ o.width.toNat
    (effAddr s s.cur o).toNat % n = 0 → translate (beginIssue s) (effAddr s s.cur o) .rd = .ok (.phys va pa leaf, u) → leafWr leaf = true →
    tokenCheck u (effAddr s s.cur o) .peek 0 = .ok (.commons, w) → lineOf w (coreOf s.cur) (pa / 32) = none →
    Gives (.ldP o) s (fun t => Proceeds s t [] ∧
      Sends s t 0 false false (leafSlice leaf pa % 2048) (.load pa n (o.kind = 1) o.d.toNat)))

/-- STV stores a vector register through the same path as ST; LDT leaves for the home slice as a tracked load; PREF never waits and never
faults; ACQ drops the peeked lines of its range, but for those of a region that the core holds (R165); FLUSH writes the dirty lines of its range
back and leaves none of it dirty; FENCE stands between earlier and later accesses (R180, R284, R288 to R291, R296). -/
def Obligations.LineInstructions : Prop :=
  (∀ (o : OpM) (s u : State), Issues (.stv o) s → Quiet s → o.d.toNat < 48 → (ctxOf s s.cur).cooked = none →
    memWrite (beginIssue s) (effAddr s s.cur o) 64 (rv s s.cur o.d.toNat).toNat = .ok u →
    Gives (.stv o) s (fun t => Moves s t [] ∧ MemKept u t ∧ ∀ k l, lineOf t k l = lineOf u k l)) ∧
  (∀ (o : OpM) (s u : State) (x : Vec) (l : List Vec), Issues (.stv o) s → 48 ≤ o.d.toNat → unsettled s s.cur = false →
    (ctxOf s s.cur).cooked = none → (effAddr s s.cur o).toNat / 2 ^ 53 = s.device → popAhead s [o.d.toNat - 48] = false →
    qInOf s (coreOf s.cur) (o.d.toNat - 48) = x :: l → memWrite (beginIssue s) (effAddr s s.cur o) 64 x.toNat = .ok u →
    Gives (.stv o) s (fun t => Moves s t [] ∧ MemKept u t ∧ qInOf t (coreOf s.cur) (o.d.toNat - 48) = l)) ∧
  (∀ (o : OpM) (s u : State) (va pa : Nat) (leaf : Word), Issues (.ldt o) s → (effAddr s s.cur o).toNat % 2 ^ o.width.toNat = 0 →
    translate (beginIssue s) (effAddr s s.cur o) .rd = .ok (.phys va pa leaf, u) → leafWr leaf = false → trackBusy s s.cur false = false →
    LinesFree s (.tracked pa (2 ^ o.width.toNat) (o.kind = 1) o.d.toNat) →
    Gives (.ldt o) s (fun t => Moves s t [] ∧
      Sends s t 0 false false (leafSlice leaf pa % 2048) (.tracked pa (2 ^ o.width.toNat) (o.kind = 1) o.d.toNat))) ∧
  (∀ (o : OpM) (s u w : State) (va pa : Nat) (leaf : Word) (m : Mode), Issues (.ldt o) s →
    (effAddr s s.cur o).toNat % 2 ^ o.width.toNat = 0 → translate (beginIssue s) (effAddr s s.cur o) .rd = .ok (.phys va pa leaf, u) →
    leafWr leaf = true → (∀ k, tokenCovering u va = some k → k.mode ≠ .frozen) →
    tokenCheck u (effAddr s s.cur o) .peek 0 = .ok (m, w) → trackBusy s s.cur false = false →
    (m = .exclusive → lineBusy s (coreOf s.cur) (pa / 32) = false) → LinesFree s (.tracked pa (2 ^ o.width.toNat) (o.kind = 1) o.d.toNat) →
    Gives (.ldt o) s (fun t => Moves s t [] ∧
      Sends s t 0 false false (leafSlice leaf pa % 2048) (.tracked pa (2 ^ o.width.toNat) (o.kind = 1) o.d.toNat))) ∧
  (∀ (o : OpM) (s : State), Issues (.pref o) s → Gives (.pref o) s (fun t => Proceeds s t [])) ∧
  (∀ (o : OpM) (s : State), Issues (.acq o) s → (rg s s.cur o.a.toNat).toNat % 32 = 0 → (rg s s.cur o.a.toNat).toNat / 2 ^ 53 = s.device →
    (∀ p ∈ pieces ((rg s s.cur o.a.toNat).toNat % 2 ^ 53) (rangeBytes o), (tlbFind (coreAt s (coreOf s.cur)).tlb p.1).isSome = true) →
    Gives (.acq o) s (fun t => Proceeds s t [] ∧
      ∀ e ∈ cachedIn s (coreOf s.cur) ((rg s s.cur o.a.toNat).toNat % 2 ^ 53) (rangeBytes o),
        ∀ x, lineOf t (coreOf s.cur) e.2 = some x → x.peeked = false ∨ coreHolds (beginIssue s) (coreOf s.cur) e.1 = true)) ∧
  (∀ (o : OpM) (s : State), Issues (.flush o) s → FreeToAct s → (ctxOf s s.cur).hmode = false → (ctxOf s s.cur).fresh = false →
    fenced s s.cur 0 = false → s.flights.any (fun f => f.ctx = s.cur && isLineOp f.op) = false →
    (rg s s.cur o.a.toNat).toNat % 32 = 0 → (rg s s.cur o.a.toNat).toNat / 2 ^ 53 = s.device →
    (∀ p ∈ pieces ((rg s s.cur o.a.toNat).toNat % 2 ^ 53) (rangeBytes o), (tlbFind (coreAt s (coreOf s.cur)).tlb p.1).isSome = true) →
    Gives (.flush o) s (fun t => Moves s t [] ∧
      ∀ l ∈ flushable s s.cur ((rg s s.cur o.a.toNat).toNat % 2 ^ 53) (rangeBytes o),
        (∀ x, lineOf t (coreOf s.cur) l = some x → x.dirty = false) ∧ (o.kind = 1 → lineOf t (coreOf s.cur) l = none) ∧
        ∀ x, lineOf s (coreOf s.cur) l = some x → x.dirty = true → cxlGone s (32 * l) = false →
          ∀ i, i < 32 → memByte t (32 * l + i) = x.data.extractLsb' (8 * i) 8)) ∧
  (∀ (o : OpM) (s : State), Issues (.flush o) s → FreeToAct s → BufferRoom s → (rg s s.cur o.a.toNat).toNat % 32 = 0 →
    Gives (.flush o) s (fun t => Proceeds s t [] ∧
      Buffers s t (.slice false 0 (.flush (rg s s.cur o.a.toNat).toNat (rangeBytes o) (o.kind = 1))))) ∧
  (∀ (o : OpE) (s : State), Issues (.fence o) s → (nbit (o.imm.toNat / 256) 1 = true → unsettled s s.cur = false) → BufferRoom s →
    Gives (.fence o) s (fun t => Proceeds s t [] ∧ Buffers s t (.slice false 0 (.fence (o.imm.toNat / 256) (o.imm.toNat % 256))))) ∧
  (∀ (o : OpE) (s : State), Issues (.fence o) s → (ctxOf s s.cur).hmode = false →
    (nbit (o.imm.toNat / 256) 1 = true → unsettled s s.cur = false ∧ (coreAt s (coreOf s.cur)).agg = []) → o.imm.toNat / 256 ≠ 0 → o.imm.toNat % 256 ≠ 0 →
    Gives (.fence o) s (fun t => Proceeds s t [] ∧ Sends s t 6 false false 0 (.fence (o.imm.toNat / 256) (o.imm.toNat % 256))))

/-- STS, STS.A, SLOP, CMLS and AGG act at the home slice of their address on path 1 (R292 to R295): posted stores in the ordered or the
adaptive class, slice operations posted or returning the old value, conditional writes that end with code 3, 2 or the slice's, sums
kept in the core's buffer. -/
def Obligations.SliceInstructions : Prop :=
  (∀ (o : OpM) (s u : State) (i : Instr) (ordered : Bool) (va pa : Nat) (leaf : Word), (i, ordered) ∈ [(Instr.sts o, true), (.stsA o, false)] →
    Issues i s → FreeToAct s → (o.width = 5 → SourcesServed s [o.d]) →
    let n := if o.width = 5 then 64 else 2 ^ o.width.toNat
    let op := fun first => SliceOp.write pa (bytesOf (if o.width = 5 then (slotValue s [] o.d).toNat else (rg s s.cur o.d.toNat).toNat) n) first
    sliceTarget (beginIssue s) (effAddr s s.cur o) n = .ok (.phys va pa leaf, u) →
    (PostRoom s → LinesFree s (op none) → Gives i s (fun t => Moves s t [] ∧ Sends s t 1 ordered true (leafSlice leaf pa % 2048) (op none))) ∧
    (BufferRoom s → Gives i s (fun t => Moves s t [] ∧ Buffers s t (.slice ordered (leafHome leaf pa)
      (op (if ∃ e, tokenCovering u va = some e ∧ e.mode = .exclusive then some va else none)))))) ∧
  (∀ (o : OpM) (s u : State) (va pa : Nat) (leaf : Word), Issues (.slop o) s → FreeToAct s →
    let w := if o.width = 2 then 32 else 64
    sliceTarget (beginIssue s) (rg s s.cur o.a.toNat + o.offset.signExtend 64) (w / 8) = .ok (.phys va pa leaf, u) →
    let op := SliceOp.rmw pa w o.kind.toNat (rg s s.cur o.b.toNat) (rg s s.cur o.d.toNat) o.d.toNat
    (o.d = 0 → PostRoom s → LinesFree s op → Gives (.slop o) s (fun t => Moves s t [] ∧ Sends s t 1 true true (leafSlice leaf pa % 2048) op)) ∧
    (o.d = 0 → BufferRoom s → Gives (.slop o) s (fun t => Moves s t [] ∧ Buffers s t (.slice true (leafHome leaf pa) op))) ∧
    (o.d ≠ 0 → LinesFree s op → Gives (.slop o) s (fun t => Moves s t [] ∧
      Sends s t 1 true false (leafSlice leaf pa % 2048) op))) ∧
  (∀ (o : OpM) (s u : State) (ts : List (Nat × Nat × Word)), Issues (.cmls o) s → FreeToAct s → fenced s s.cur 1 = false →
    trackBusy s s.cur true = false →
    cmlsTargets (beginIssue s) o.a.toNat (List.range (o.kind.toNat + 1)) = .ok (ts, u) →
    ((∃ e ∈ ts, e.1 % 2048 ≠ (ts.headD (0, 0, 0)).1 % 2048) → Gives (.cmls o) s (fun t => Moves s t [o.d.toNat] ∧
      rg t s.cur o.d.toNat = (if o.d = 0 then 0 else 3) ∧ (ctxOf t s.cur).track = [] ∧ t.flights = s.flights)) ∧
    ((∀ e ∈ ts, e.1 % 2048 = (ts.headD (0, 0, 0)).1 % 2048) → (∃ e ∈ ts, ∀ k ∈ (ctxOf s s.cur).track, k.line ≠ e.2.1 / 256) →
      Gives (.cmls o) s (fun t => Moves s t [o.d.toNat] ∧ rg t s.cur o.d.toNat = (if o.d = 0 then 0 else 2) ∧
        (ctxOf t s.cur).track = [] ∧ t.flights = s.flights)) ∧
    ((∀ e ∈ ts, e.1 % 2048 = (ts.headD (0, 0, 0)).1 % 2048) → (∀ e ∈ ts, ∃ k ∈ (ctxOf s s.cur).track, k.line = e.2.1 / 256) →
      LinesFree s (.cmls (ts.map (·.2)) o.d.toNat) → Gives (.cmls o) s (fun t => Moves s t [] ∧
        Sends s t 1 true false ((ts.headD (0, 0, 0)).1 % 2048) (.cmls (ts.map (·.2)) o.d.toNat)))) ∧
  (∀ (o : OpM) (s u : State) (va pa : Nat) (leaf : Word), Issues (.agg o) s → FreeToAct s →
    sliceTarget (beginIssue s) (rg s s.cur o.a.toNat + o.offset.signExtend 64) 8 = .ok (.phys va pa leaf, u) →
    ((ctxOf s s.cur).hmode = false → fenced s s.cur 1 = false → LinesFree s (.rmw pa 64 0 0 0 0) → (coreAt s (coreOf s.cur)).agg = [] →
      Gives (.agg o) s (fun t => Moves s t [] ∧
        (coreAt t (coreOf s.cur)).agg = [(pa, leafHome leaf pa, rg s s.cur o.b.toNat, s.cycle + 256)] ∧ t.flights = s.flights)) ∧
    (BufferRoom s → Gives (.agg o) s (fun t => Moves s t [] ∧ Buffers s t (.agg pa (leafHome leaf pa) (rg s s.cur o.b.toNat)))))

/-- Translation by the core's TLB, and what it refuses (R88, R89, R92, R237): a page with the permission gives its physical address, one
without it XLATE-PERM, a page that only the cluster's TLB holds costs 8 cycles, one in no TLB makes the context wait for a walk; the
untranslated top is refused to an apex core. What a region's mode allows (Table 06-4, R238): its holder everything in an exclusive region;
in a frozen one holders and sharers only reads; in a commons region slice operations and peeks, never a plain access. -/
def Obligations.TranslationAndModes : Prop :=
  (∀ (s : State) (ea : Word) (p : Perm) (e : TlbEntry), ea.toNat / 2 ^ 53 = s.device → ea.toNat % 2 ^ 53 < 0x1FFFFF00000000 →
    (ctxOf s s.cur).walkFails = [] → tlbFind (coreAt s (coreOf s.cur)).tlb (ea.toNat % 2 ^ 53) = some e → allows p e.leaf = true →
    ∃ u, translate s ea p = .ok (.phys (ea.toNat % 2 ^ 53) (leafPa e.page (ea.toNat % 2 ^ 53) e.leaf) e.leaf, u) ∧
      u = { s with cores := u.cores }) ∧
  (∀ (s : State) (ea : Word) (p : Perm) (e : TlbEntry), ea.toNat / 2 ^ 53 = s.device → ea.toNat % 2 ^ 53 < 0x1FFFFF00000000 →
    (ctxOf s s.cur).walkFails = [] → tlbFind (coreAt s (coreOf s.cur)).tlb (ea.toNat % 2 ^ 53) = some e → allows p e.leaf = false →
    ∃ u, translate s ea p = .error (.trap { code := cXlatePerm, addr := ea } u)) ∧
  (∀ (s : State) (ea : Word) (p : Perm) (e : TlbEntry), ea.toNat / 2 ^ 53 = s.device → ea.toNat % 2 ^ 53 < 0x1FFFFF00000000 →
    (ctxOf s s.cur).walkFails = [] → tlbFind (coreAt s (coreOf s.cur)).tlb (ea.toNat % 2 ^ 53) = none →
    tlbFind (clusterAt s (vertexOf (coreOf s.cur))).tlb (ea.toNat % 2 ^ 53) = some e → allows p e.leaf = true →
    ∃ u, translate s ea p = .ok (.phys (ea.toNat % 2 ^ 53) (leafPa e.page (ea.toNat % 2 ^ 53) e.leaf) e.leaf, u) ∧
      (ctxOf u s.cur).late = (ctxOf s s.cur).late + 8) ∧
  (∀ (s : State) (ea : Word) (p : Perm), ea.toNat / 2 ^ 53 = s.device → ea.toNat % 2 ^ 53 < 0x1FFFFF00000000 →
    (ctxOf s s.cur).walkFails = [] → tlbFind (coreAt s (coreOf s.cur)).tlb (ea.toNat % 2 ^ 53) = none →
    tlbFind (clusterAt s (vertexOf (coreOf s.cur))).tlb (ea.toNat % 2 ^ 53) = none →
    ∃ u, translate s ea p = .error (.park (.walk (ea.toNat % 2 ^ 53)) u) ∧
      ∃ w ∈ (clusterAt u (vertOf s.cur)).walks, w.1 = s.cur ∧ w.2.1 = ea.toNat % 2 ^ 53) ∧
  (∀ (s : State) (ea : Word) (p : Perm), 0x1FFFFF00000000 ≤ ea.toNat % 2 ^ 53 → isExecute (coreOf s.cur) = false →
    isAccess (coreOf s.cur) = false → translate s ea p = .error (.trap { code := cXlatePerm, addr := ea } s)) ∧
  (∀ u sh, tokenFault .exclusive true sh u = none) ∧ (∀ u sh, tokenFault .exclusive false sh u = some cTokenNone) ∧
  (∀ u, tokenFault .frozen false false u = some cTokenNone) ∧
  (∀ h sh, (h || sh) = true → tokenFault .frozen h sh .read = none ∧ tokenFault .frozen h sh .peek = none ∧
    tokenFault .frozen h sh .write = some cTokenFrozen ∧ tokenFault .frozen h sh .sliceop = some cTokenFrozen) ∧
  (∀ h sh, tokenFault .commons h sh .read = some cCommonsPlain ∧ tokenFault .commons h sh .write = some cCommonsPlain ∧
    tokenFault .commons h sh .peek = none ∧ tokenFault .commons h sh .sliceop = none)

/-! ### Tokens -/

/-- A token instruction leaves for the home slice of its entry, where Table 06-5 is looked at, once the context's other accesses and the core's
sums for the region are over, with its dirty lines to be written back first (R115, R117, R177); in handler mode one that the table allows
stands in the send buffer, and TKSPLIT and TKJOIN write their result at once (R298). TOKEN_ENTRY_CHANGE makes the change of Table 06-5 in one step, when the instruction's write-backs are acknowledged and the
count it saw is still the entry's (R110, R115, R117); wr falls when no dirty line of the region is left (R114); WRITE_BACK_ACK writes the
next dirty line at its slice. TKCLAIM and TKCLEAN leave too: TKCLAIM's claim is made at every slice in one step, when it reaches the farthest
(R217, R302; the one step is the model's choice, log 42). Two equal share records stay two (log 132). -/
def Obligations.TokenInstructionsAndEntries : Prop :=
  (∀ (o : OpA) (s : State) (i : Instr) (kind : TokenKind) (t : Token) (x : BitVec 32),
    (i, kind) ∈ [(Instr.tklend o, TokenKind.lend), (.tkret o, .ret), (.tksplit o, .split), (.tkjoin o, .join), (.tkshare o, .share),
      (.tkdrop o, .drop), (.tkpark o, if o.md.getLsbD 0 then .parkShare else .park)] →
    Issues i s → (ctxOf s s.cur).fresh = false → FreeToAct s → returning s s.cur = false →
    let ea := rg s s.cur o.a.toNat
    let op : TokenOp := { kind := kind, va := ea.toNat % 2 ^ 53, holder := rg s s.cur o.b.toNat, d := o.d.toNat, lsize := 0, commons := false,
                          xfer := x, retried := false }
    ea.toNat / 2 ^ 53 = s.device → tokenSeen s s.cur (ea.toNat % 2 ^ 53) = some (t, x) →
    ((ctxOf s s.cur).hmode = false → sumsOf s (coreOf s.cur) t = false → (∀ f ∈ s.flights, (f.ctx = s.cur ∨ (f.path = 7 ∧ coreOf f.ctx = coreOf s.cur)) → ∀ p ∈ opSpan f.op, regionHas s t p.1 = false) →
      Gives i s (fun u => Proceeds s u [] ∧ u.tokens = s.tokens ∧ ∃ f, u.flights = s.flights ++ [f] ∧ f.ctx = s.cur ∧ f.op = .token op ∧
        f.posted = false ∧ f.wb = flushDirty s (coreOf s.cur) op t)) ∧
    (BufferRoom s → tokenBad s (holderWords s s.cur 0) (graphOfCtx s s.cur) op t = none → Gives i s (fun u => Proceeds s u [o.d.toNat] ∧ u.tokens = s.tokens ∧
      Buffers s u (.slice false (tokenHome s t.base) (.token op)) ∧
      rg u s.cur o.d.toNat = if o.d = 0 then 0 else tokenResult s op t))) ∧
  (∀ (o : OpA) (s : State) (base : Nat) (pool : List (Nat × Nat)), Issues (.tkcarve o) s → FreeToAct s →
    (ctxOf s s.cur).fresh = false → fenced s s.cur 1 = false → returning s s.cur = false →
    let l := o.md.toNat % 64
    let a := accountOf s (ctxOf s s.cur).acct.toNat
    a.charge + 2 ^ l ≤ a.quota.toNat * 65536 → poolTake a.pool l = some (base, pool) → s.tokens.length < Config.tokenEntries →
    Gives (.tkcarve o) s (fun u => Proceeds s u [o.d.toNat] ∧
      rg u s.cur o.d.toNat = (if o.d = 0 then 0 else BitVec.ofNat 64 (s.device * 2 ^ 53 + base)) ∧
      accountOf u (ctxOf s s.cur).acct.toNat = { a with charge := a.charge + 2 ^ l, pool := pool } ∧
      sget none u.tokens base = some { base := base, lsize := l, mode := if o.md.getLsbD 7 then .commons else .exclusive
                                       holder := holderAgent (agentOf s s.cur), lender := 0, opened := false, records := [], xfer := 0
                                       acct := (ctxOf s s.cur).acct, taint := false, wr := false })) ∧
  (∀ (o : OpA) (s : State), Issues (.tkcarve o) s → unfinished (beginIssue s) s.cur = false →
    let a := accountOf s (ctxOf s s.cur).acct.toNat
    a.quota.toNat * 65536 < a.charge + 2 ^ (o.md.toNat % 64) →
    ∃ f, exec (.tkcarve o) s = .next (takeTrap (countIssue (.tkcarve o) (beginIssue s)) s.cur f) ∧ f.code = cQuota ∧ f.reason = 0) ∧
  (∀ (o : OpA) (s : State), Issues (.tkstat o) s → returning s s.cur = false →
    (rg s s.cur o.a.toNat).toNat / 2 ^ 53 = s.device →
    Gives (.tkstat o) s (fun u => Proceeds s u [] ∧ ∃ f, u.flights = s.flights ++ [f] ∧ f.ctx = s.cur ∧
      f.op = .stat ((rg s s.cur o.a.toNat).toNat % 2 ^ 53) o.d.toNat)) ∧
  (∀ (o : OpA) (s : State), Issues (.tkclaim o) s → FreeToAct s → (ctxOf s s.cur).fresh = false → returning s s.cur = false →
    let a := (rg s s.cur o.a.toNat).toNat
    let k := a % 65536 / 8
    a < 2 ^ 27 → a / 65536 = s.device → coreExists k = true → (coreAt s k).killed = true →
    Gives (.tkclaim o) s (fun u => Proceeds s u [] ∧ u.tokens = s.tokens ∧ ∃ f e, u.flights = s.flights ++ [f] ∧ f.ctx = s.cur ∧ f.op = .token e ∧
      e.kind = .claim ∧ e.va = k ∧ e.d = o.d.toNat ∧ f.wb = [] ∧ f.fault = none ∧ f.due = s.cycle + farCorner (vertOf s.cur) + 3 + (ctxOf s s.cur).late ∧
      f.back = s.cycle + 2 * farCorner (vertOf s.cur) + 6 + (ctxOf s s.cur).late)) ∧
  (∀ (s : State) (id : Nat) (f : Flight Regs) (o : TokenOp), flightOf s id = some f → f.op = .token o → o.kind = .claim → f.wb = [] →
    f.fault = none → f.due ≤ s.cycle → (coreAt s (coreOf f.ctx)).killed = false →
    let r := claimCore s o.va (holderAgent (agentOf s f.ctx))
    Gives (.tokenEntryChange id) s (fun u => MemKept s u ∧ u.tokens = r.1.tokens ∧ flightOf u id = none ∧
      rg u f.ctx o.d = if o.d = 0 then 0 else BitVec.ofNat 64 r.2.1)) ∧
  (∀ (o : OpA) (s : State) (t : Token) (x : BitVec 32), Issues (.tkclean o) s → FreeToAct s → (ctxOf s s.cur).fresh = false → returning s s.cur = false →
    (rg s s.cur o.a.toNat).toNat / 2 ^ 53 = s.device → tokenSeen s s.cur ((rg s s.cur o.a.toNat).toNat % 2 ^ 53) = some (t, x) →
    Gives (.tkclean o) s (fun u => Proceeds s u [] ∧ u.tokens = s.tokens ∧ ∃ f e, u.flights = s.flights ++ [f] ∧ f.ctx = s.cur ∧ f.op = .token e ∧
      e.kind = .clean ∧ e.va = (rg s s.cur o.a.toNat).toNat % 2 ^ 53 ∧ f.wb = [] ∧ f.fault = none)) ∧
  (∀ (s : State) (id : Nat) (f : Flight Regs) (o : TokenOp) (t : Token), flightOf s id = some f → f.op = .token o → o.kind = .clean → f.wb = [] →
    f.fault = none → f.due ≤ s.cycle → tokenProbe s o.va = some t →
    Gives (.tokenEntryChange id) s (fun u => MemKept s u ∧ flightOf u id = none ∧ sget none u.tokens t.base = some { t with taint := false })) ∧
  (∀ (s : State) (id : Nat) (f : Flight Regs) (o : TokenOp) (t : Token), flightOf s id = some f → f.op = .token o → f.wb = [] →
    f.fault = none → f.due ≤ s.cycle → tokenProbe s o.va = some t → t.xfer = o.xfer →
    tokenBad s (holderWords s f.ctx 0) (graphOfCtx s f.ctx) o t = none →
    let v := dropLines s (coreOf f.ctx) o t
    let w := t.wr && stillDirty v t
    let l := t.wr && (sameCore v (coreOf f.ctx) o t || stillDirty v t)
    Gives (.tokenEntryChange id) s (fun u => MemKept s u ∧
      (o.kind = .lend → sget none u.tokens t.base = some { t with holder := o.holder, lender := t.holder, xfer := t.xfer + 1, wr := l }) ∧
      (o.kind = .ret → t.lender ≠ 0 → sget none u.tokens t.base = some { t with holder := t.lender, lender := 0, xfer := t.xfer + 1, wr := l }) ∧
      (o.kind = .ret → t.lender = 0 → sget none u.tokens t.base = none ∧
        (accountOf u t.acct.toNat).charge = (accountOf s t.acct.toNat).charge - 2 ^ t.lsize) ∧
      (o.kind = .park → sget none u.tokens t.base = some { t with holder := o.holder, xfer := t.xfer + 1, wr := w }) ∧
      (o.kind = .share → sget none u.tokens t.base =
        some { t with mode := .frozen, records := t.records ++ [o.holder], xfer := t.xfer + 1, wr := w }) ∧
      (o.kind = .split → sget none u.tokens (t.base + 2 ^ (t.lsize - 1)) =
          some { t with base := t.base + 2 ^ (t.lsize - 1), lsize := t.lsize - 1, xfer := t.xfer + 1 } ∧
        sget none u.tokens t.base = some { t with lsize := t.lsize - 1, xfer := t.xfer + 1 }) ∧
      (∀ b, o.kind = .join → buddyOf s t = some b → b.base ≠ t.base → sget none u.tokens (max t.base b.base) = none ∧
        sget none u.tokens (min t.base b.base) = some { t with base := min t.base b.base, lsize := t.lsize + 1, taint := t.taint || b.taint
                                                               wr := t.wr || b.wr, xfer := (if t.xfer < b.xfer then b.xfer else t.xfer) + 1 }) ∧
      (∀ r, shareOf s (holderWords s f.ctx 0) (graphOfCtx s f.ctx) t = some r →
        (o.kind = .drop → sget none u.tokens t.base = some { t with records := t.records.erase r, xfer := t.xfer + 1
                                                                    mode := if t.records.erase r = [] ∧ t.opened = false then .exclusive else t.mode }) ∧
        ∀ l m, o.kind = .parkShare → t.records = l ++ r :: m → r ∉ l → sget none u.tokens t.base = some { t with records := l ++ o.holder :: m }))) ∧
  (∀ (s : State) (id l : Nat) (r : List Nat) (f : Flight Regs) (x : Line), flightOf s id = some f → f.wb = l :: r →
    lineOf s (coreOf f.ctx) l = some x → x.dirty = true → cxlGone s (32 * l) = false →
    Gives (.writeBackAck id) s (fun u => (∀ i, i < 32 → memByte u (32 * l + i) = x.data.extractLsb' (8 * i) 8) ∧
      (∀ a, a / 32 ≠ l → memByte u a = memByte s a) ∧ ∃ y, lineOf u (coreOf f.ctx) l = some y ∧ y.dirty = false))

/-! ### Vectors -/

/-- Integer lanes (R261, R263, R266, R268): VADD, VSUB, VMUL, VMIN, VMAX, VFMA, VABS and VNEG compute exactly and wrap, or saturate with
limm 1; VDOT adds two products to a 32-bit lane. No flag is raised. VFMA keeps the issue
slot for the extra cycles of its bank reads (R74, R374). -/
def Obligations.VectorIntegers : Prop :=
  (∀ (o : OpV) (s : State) (i : Instr) (g : Int → Int → Int),
    (i, g) ∈ [(Instr.vadd o, fun x y => x + y), (.vsub o, fun x y => x - y), (.vmul o, fun x y => x * y), (.vmin o, min), (.vmax o, max)] →
    isFloatFmt o.fmt.toNat = false → Issues i s → Quiet s → Served s o 2 →
    let f := o.fmt.toNat
    let x := fun v j => laneValue f (lane v (laneBits f) j)
    Gives i s (fun t => LaneWrites s t o 2 (fun j => laneResult f (o.limm.getLsbD 0) (g (x (slotA s o) j) (x (slotB s o) j))) ∧ FlagsKept s t)) ∧
  (∀ (o : OpV) (s : State) (i : Instr) (g : Int → Int), (i, g) ∈ [(Instr.vabs o, fun x => (x.natAbs : Int)), (.vneg o, fun x => -x)] →
    isFloatFmt o.fmt.toNat = false → Issues i s → Quiet s → Served s o 1 →
    let f := o.fmt.toNat
    Gives i s (fun t => LaneWrites s t o 1 (fun j => laneResult f (o.limm.getLsbD 0) (g (laneValue f (lane (slotA s o) (laneBits f) j)))) ∧
      FlagsKept s t)) ∧
  (∀ (o : OpV) (s : State), isFloatFmt o.fmt.toNat = false → Issues (.vfma o) s → Quiet s → Served s o 3 →
    let f := o.fmt.toNat
    let x := fun v j => laneValue f (lane v (laneBits f) j)
    Gives (.vfma o) s (fun t => LaneWrites s t o 3 (fun j =>
      laneResult f (o.limm.getLsbD 0) (x (slotA s o) j * x (slotB s o) j + x (slotC s o) j)) ∧ FlagsKept s t ∧
      ((coreAt s (coreOf s.cur)).issueFree ≤ s.cycle + 1 → (coreAt t (coreOf s.cur)).issueFree = s.cycle + 1 + bankExtra (ctxOf s s.cur) o 3))) ∧
  (∀ (o : OpV) (s : State), isFloatFmt o.fmt.toNat = false → Issues (.vdot o) s → Quiet s → Served s o 3 →
    let f := o.fmt.toNat
    let x := fun v j => laneValue f (lane v 16 j)
    Gives (.vdot o) s (fun t => FlagsKept s t ∧ ∃ y, VectorWrites s t (slots o 3) o.d y ∧
      ∀ j, j < 16 → lane y 32 j = if (rp s s.cur o.pred.toNat).getLsbD j then
        laneResult (f + 2) (o.limm.getLsbD 0) (x (slotA s o) (2 * j) * x (slotB s o) (2 * j) +
          x (slotA s o) (2 * j + 1) * x (slotB s o) (2 * j + 1) + laneValue (f + 2) (lane (slotC s o) 32 j))
        else lane (rv s s.cur o.d.toNat) 32 j))

/-- Floating-point lanes (R50, R52, R264, R266, R271, R278): each lane that the predicate lets be written is rounded once, in the mode of
rnd or, for 0, of sr.rmode, and its flags are ORed into sr.flags and, once no earlier instruction can fault, into sr.cflags. VFMA and VDOT
round once; VABS and VNEG act on the sign bit; VCMP writes the predicate (R268, R269). VCVT converts the elements of one part of its source
into one part of its destination; the code that an infinity takes in I4 is the model's choice (log 32). VEXP2 and VLOG2 round what the
model's working precision gives (log 21). VRED combines the lanes that the predicate names in the tree of R134; with ADD and without
saturation in an integer format the shape of the tree does not show (R272). -/
def Obligations.VectorFloatsAndSums : Prop :=
  (∀ (o : OpV) (s : State) (i : Instr) (g : Nat → Nat → Nat → Nat → Nat × Flags),
    (i, g) ∈ [(Instr.vadd o, floatAdd), (.vsub o, floatSub), (.vmul o, floatMul), (.vmin o, fun _ f x y => floatMinMax f false x y),
      (.vmax o, fun _ f x y => floatMinMax f true x y)] →
    isFloatFmt o.fmt.toNat = true → Issues i s → Quiet s → Served s o 2 →
    let f := o.fmt.toNat
    let m := if o.rnd = 0 then (ctxOf s s.cur).rmode.toNat else o.rnd.toNat
    let r := fun j => g m f (lane (slotA s o) (laneBits f) j) (lane (slotB s o) (laneBits f) j)
    Gives i s (fun t => LaneWrites s t o 2 (fun j => (r j).1 % 2 ^ laneBits f) ∧
      (∀ j, j < laneCount f → (rp s s.cur o.pred.toNat).getLsbD j = true →
        (ctxOf t s.cur).regs.flags &&& (r j).2 = (r j).2 ∧
          (unsettled s s.cur = false → (clusterAt t (vertOf s.cur)).cflags &&& (r j).2 = (r j).2)) ∧
      (ctxOf t s.cur).regs.flags &&& (ctxOf s s.cur).regs.flags = (ctxOf s s.cur).regs.flags)) ∧
  (∀ (o : OpV) (s : State) (i : Instr) (g : Machine.Num → Machine.Num × Flags),
    (i, g) ∈ [(Instr.vrcp o, rcpNum), (.vrsq o, rsqNum), (.vexp2 o, exp2Num), (.vlog2 o, log2Num)] →
    Issues i s → Quiet s → Served s o 1 → (coreAt s (coreOf s.cur)).unitFree ≤ s.cycle →
    let f := o.fmt.toNat
    let m := if o.rnd = 0 then (ctxOf s s.cur).rmode.toNat else o.rnd.toNat
    Gives i s (fun t => LaneWrites s t o 1 (fun j => (rounded m f (g (decodeIeee f (lane (slotA s o) (laneBits f) j)))).1 % 2 ^ laneBits f) ∧
      (coreAt t (coreOf s.cur)).unitFree = s.cycle + if laneCount f = 16 then 4 else 8)) ∧
  (∀ (o : OpV) (s : State), Issues (.vcvt o) s → Quiet s → Served s o 1 →
    let dst := o.fmt.toNat
    let src := o.limm.toNat % 16
    let n := cvtCount dst src
    let k := coreAt s (coreOf s.cur)
    let m := if o.rnd = 0 then (ctxOf s s.cur).rmode.toNat else o.rnd.toNat
    let whole := !(isFloatFmt src) && src ≠ 9 && src ≠ 10
    let e := fun j => decodeElem k.i4tab0 k.i4tab1 src (lane (slotA s o) (fmtBits src) (n * (o.limm.toNat / 16 % 8) + j))
    let y := fun j => if dst = 8 then (encodeI4 k.i4tab0 k.i4tab1 whole (e j)).1 else (roundNum m dst whole (e j)).1
    Gives (.vcvt o) s (fun t => ∃ x, VectorWrites s t (slots o 1) o.d x ∧
      (∀ j, j < n → (rp s s.cur o.pred.toNat).getLsbD j = true →
        lane x (fmtBits dst) (n * (o.limm.toNat / 128 % 8) + j) = y j % 2 ^ fmtBits dst) ∧
      (o.d.toNat < 48 → ∀ i, i < 512 / fmtBits dst →
        i < n * (o.limm.toNat / 128 % 8) ∨ n * (o.limm.toNat / 128 % 8) + n ≤ i ∨
          (rp s s.cur o.pred.toNat).getLsbD (i - n * (o.limm.toNat / 128 % 8)) = false →
        lane x (fmtBits dst) i = lane (rv s s.cur o.d.toNat) (fmtBits dst) i))) ∧
  (∀ (o : OpV) (s : State), Issues (.vred o) s → Quiet s → Served s o 1 →
    Gives (.vred o) s (fun t => ∃ x, VectorWrites s t (slots o 1) o.d x ∧
      ∀ i, 0 < i → i < laneCount o.fmt.toNat → lane x (laneBits o.fmt.toNat) i = 0)) ∧
  (∀ (o : OpV) (s : State), isFloatFmt o.fmt.toNat = false → o.limm = 0 → Issues (.vred o) s → Quiet s → Served s o 1 →
    let f := o.fmt.toNat
    Gives (.vred o) s (fun t => ∃ x, VectorWrites s t (slots o 1) o.d x ∧ lane x (laneBits f) 0 =
      ((List.range (laneCount f)).foldl (fun acc j =>
        if (rp s s.cur o.pred.toNat).getLsbD j then acc + lane (slotA s o) (laneBits f) j else acc) 0) % 2 ^ laneBits f)) ∧
  (∀ (o : OpV) (s : State), Issues (.vred o) s → Quiet s → Served s o 1 →
    let f := o.fmt.toNat
    let m := if o.rnd = 0 then (ctxOf s s.cur).rmode.toNat else o.rnd.toNat
    let item := fun j => if (rp s s.cur o.pred.toNat).getLsbD j then some (lane (slotA s o) (laneBits f) j) else none
    Gives (.vred o) s (fun t => ∃ x, VectorWrites s t (slots o 1) o.d x ∧ lane x (laneBits f) 0 =
      ((treeOf (redPair m f (o.limm.toNat % 8) (o.limm.getLsbD 3)) item (if laneCount f = 16 then 4 else 5) 0).getD 0) % 2 ^ laneBits f)) ∧
  (∀ (o : OpV) (s : State), isFloatFmt o.fmt.toNat = true → Issues (.vfma o) s → Quiet s → Served s o 3 →
    let f := o.fmt.toNat
    let m := if o.rnd = 0 then (ctxOf s s.cur).rmode.toNat else o.rnd.toNat
    let x := fun v j => decodeIeee f (lane v (laneBits f) j)
    let p := fun j => nmul (x (slotA s o) j) (x (slotB s o) j)
    let q := fun j => nadd m (p j).1 (x (slotC s o) j)
    Gives (.vfma o) s (fun t => LaneWrites s t o 3 (fun j => (roundNum m f false (q j).1).1 % 2 ^ laneBits f) ∧
      ∀ j, j < laneCount f → (rp s s.cur o.pred.toNat).getLsbD j = true →
        (ctxOf t s.cur).regs.flags &&& ((p j).2 ||| (q j).2) = (p j).2 ||| (q j).2)) ∧
  (∀ (o : OpV) (s : State), isFloatFmt o.fmt.toNat = true → Issues (.vdot o) s → Quiet s → Served s o 3 →
    let m := if o.rnd = 0 then (ctxOf s s.cur).rmode.toNat else o.rnd.toNat
    let x := fun v j => decodeIeee o.fmt.toNat (lane v 16 j)
    let p := fun j => (nmul (x (slotA s o) j) (x (slotB s o) j)).1
    Gives (.vdot o) s (fun t => ∃ y, VectorWrites s t (slots o 3) o.d y ∧
      ∀ j, j < 16 → lane y 32 j = if (rp s s.cur o.pred.toNat).getLsbD j then
        (roundNum m 13 false (nadd m (nadd m (p (2 * j + 1)) (p (2 * j))).1 (decodeIeee 13 (lane (slotC s o) 32 j))).1).1 % 2 ^ 32
        else lane (rv s s.cur o.d.toNat) 32 j)) ∧
  (∀ (o : OpV) (s : State) (i : Instr) (g : BitVec 64 → BitVec 64 → BitVec 64),
    (i, g) ∈ [(Instr.vabs o, fun x top => x &&& ~~~top), (.vneg o, fun x top => x ^^^ top)] →
    isFloatFmt o.fmt.toNat = true → Issues i s → Quiet s → Served s o 1 →
    let f := o.fmt.toNat
    let w := laneBits f
    let x := fun j => lane (slotA s o) w j
    Gives i s (fun t => LaneWrites s t o 1 (fun j => if isNan (decodeIeee f (x j)) then canonNan f
      else (g (BitVec.ofNat 64 (x j)) (BitVec.ofNat 64 (2 ^ (w - 1)))).toNat) ∧
      ∀ j, j < laneCount f → (rp s s.cur o.pred.toNat).getLsbD j = true → isSig (decodeIeee f (x j)) = true →
        (ctxOf t s.cur).regs.flags &&& fNV = fNV)) ∧
  (∀ (o : OpV) (s : State), isFloatFmt o.fmt.toNat = true → Issues (.vcmp o) s → Quiet s → SourcesServed s [o.a, o.b] →
    let f := o.fmt.toNat
    let x := fun v j => decodeIeee f (lane v (laneBits f) j)
    Gives (.vcmp o) s (fun t => pcOf t = pcOf s + 8 ∧ RegFrame s t [] [o.d.toNat] ∧ Popped s t [o.a, o.b] ∧ VKept s t [] ∧
      ∀ j, j < 32 → (rp t s.cur o.d.toNat).getLsbD j = if o.d = 0 then true else
        (decide (j < laneCount f) && (rp s s.cur o.pred.toNat).getLsbD j && floatCond o.limm.toNat (x (slotA s o) j) (x (slotB s o) j))))

/-- VPERM writes each lane that is written with the lane of A that the low bits of its lane of B name; every lane of A is read before any is
written (R273). VBCAST (R274), VMOV (R275) and VIOTA (R276), with the field values that each refuses. VAND, VOR, VXOR, VSEL, VSHL and
VSHR move bits and shift (R270, R277). -/
def Obligations.VectorMoves : Prop :=
  (∀ (o : OpV) (s : State) (i : Instr) (g : Nat → Nat → Nat), (i, g) ∈ [(Instr.vand o, (· &&& ·)), (.vor o, (· ||| ·)), (.vxor o, (· ^^^ ·))] →
    Issues i s → Quiet s → Served s o 2 →
    let w := laneBits o.fmt.toNat
    Gives i s (fun t => LaneWrites s t o 2 (fun j => g (lane (slotA s o) w j) (lane (slotB s o) w j)))) ∧
  (∀ (o : OpV) (s : State), Issues (.vsel o) s → Quiet s → Served s o 2 →
    let w := laneBits o.fmt.toNat
    Gives (.vsel o) s (fun t => ∃ x, VectorWrites s t (slots o 2) o.d x ∧ ∀ j, j < laneCount o.fmt.toNat →
      lane x w j = if (rp s s.cur o.pred.toNat).getLsbD j then lane (slotA s o) w j else lane (slotB s o) w j)) ∧
  (∀ (o : OpV) (s : State), Issues (.vperm o) s → Quiet s → Served s o 2 →
    let w := laneBits o.fmt.toNat
    let k := fun j => lane (slotB s o) w j % 2 ^ (if w = 16 then 5 else 4)
    Gives (.vperm o) s (fun t => LaneWrites s t o 2 (fun j => lane (slotA s o) w (k j)))) ∧
  (∀ (o : OpV) (s : State), let n := if 2048 ≤ o.limm.toNat then 0 else 1
    Issues (.vbcast o) s → Quiet s → Served s o n →
    Gives (.vbcast o) s (fun t => LaneWrites s t o n (fun _ =>
      if 2048 ≤ o.limm.toNat then (rg s s.cur o.a.toNat).toNat % 2 ^ laneBits o.fmt.toNat
      else lane (slotA s o) (laneBits o.fmt.toNat) (o.limm.toNat % 32)))) ∧
  (∀ (o : OpV) (s : State), Issues (.vmov o) s → Quiet s → Served s o 1 → o.limm.toNat < 2048 →
    Gives (.vmov o) s (fun t => LaneWrites s t o 1 (fun j => lane (slotA s o) (laneBits o.fmt.toNat) j))) ∧
  (∀ (o : OpV) (s : State), Issues (.vmov o) s → Quiet s → SourcesServed s [o.a] → 2048 ≤ o.limm.toNat →
    Gives (.vmov o) s (fun t => Proceeds s t [o.d.toNat] ∧ Popped s t [o.a] ∧ VKept s t [] ∧ rg t s.cur o.d.toNat =
      if o.d = 0 then 0 else
        let x := lane (slotA s o) (laneBits o.fmt.toNat) (o.limm.toNat % 32)
        if o.fmt.toNat = 2 then (BitVec.ofNat 16 x).signExtend 64 else if o.fmt.toNat = 4 then (BitVec.ofNat 32 x).signExtend 64
        else BitVec.ofNat 64 x)) ∧
  (∀ (o : OpV) (s : State), Issues (.viota o) s → Quiet s → DestServed s o.d →
    Gives (.viota o) s (fun t => LaneWrites s t o 0 (fun j => (o.limm.toNat + j) % 2 ^ laneBits o.fmt.toNat))) ∧
  (∀ (o : OpV) (s : State), unitOk (coreOf s.cur) (.vbcast o) = true →
    (o.limm.toNat < 2048 ∧ laneCount o.fmt.toNat ≤ o.limm.toNat) ∨ 2048 < o.limm.toNat →
    issueFault (instrOf (packV 0x43 2 o)) s = some { code := cIllegalEncoding }) ∧
  (∀ (o : OpV) (s : State), unitOk (coreOf s.cur) (.vmov o) = true →
    (o.limm.toNat < 2048 ∧ o.limm ≠ 0) ∨ (2048 ≤ o.limm.toNat ∧ (o.pred ≠ 0 ∨ laneCount o.fmt.toNat ≤ o.limm.toNat - 2048)) →
    issueFault (instrOf (packV 0x43 3 o)) s = some { code := cIllegalEncoding }) ∧
  (∀ (o : OpV) (s : State), unitOk (coreOf s.cur) (.viota o) = true → o.a ≠ 0 ∨ o.b ≠ 0 ∨ o.c ≠ 0 ∨ 256 ≤ o.limm.toNat →
    issueFault (instrOf (packV 0x43 4 o)) s = some { code := cIllegalEncoding }) ∧
  (∀ (o : OpV) (s : State), let n := if 2048 ≤ o.limm.toNat then 1 else 2
    Issues (.vshl o) s → Quiet s → Served s o n →
    let w := laneBits o.fmt.toNat
    let m := fun j => if 2048 ≤ o.limm.toNat then o.limm.toNat % 32 else lane (slotB s o) w j
    Gives (.vshl o) s (fun t => LaneWrites s t o n (fun j => (BitVec.ofNat w (lane (slotA s o) w j) <<< m j).toNat))) ∧
  (∀ (o : OpV) (s : State), let n := if 2048 ≤ o.limm.toNat then 1 else 2
    Issues (.vshr o) s → Quiet s → Served s o n →
    let w := laneBits o.fmt.toNat
    let m := fun j => if 2048 ≤ o.limm.toNat then o.limm.toNat % 32 else lane (slotB s o) w j
    Gives (.vshr o) s (fun t => LaneWrites s t o n (fun j =>
      if o.fmt.toNat % 2 = 1 then (BitVec.ofNat w (lane (slotA s o) w j) >>> m j).toNat
      else ((BitVec.ofNat w (lane (slotA s o) w j)).sshiftRight (m j)).toNat)))

/-- VCMP writes one predicate bit a lane, 0 where its predicate is 0 (R269); PAND, POR, PNOT and PMOV act on all 32 bits, with the fields
that they do not use zero (R279); p0 reads all ones and discards writes (R73). A pop of an empty queue and a push to a full one make the
context wait at its instruction, and nothing is popped; once the access core is killed, or the region behind the queue is gone, they fault
QUEUE-LOST (R78, R140, R262). -/
def Obligations.PredicatesAndQueuePorts : Prop :=
  (∀ (o : OpV) (s : State), isFloatFmt o.fmt.toNat = false → Issues (.vcmp o) s → Quiet s → SourcesServed s [o.a, o.b] →
    let x := fun v j => laneValue o.fmt.toNat (lane v (laneBits o.fmt.toNat) j)
    let a := x (slotA s o)
    let b := x (slotB s o)
    Gives (.vcmp o) s (fun t => pcOf t = pcOf s + 8 ∧ RegFrame s t [] [o.d.toNat] ∧ Popped s t [o.a, o.b] ∧ VKept s t [] ∧
      ∀ j, j < 32 → (rp t s.cur o.d.toNat).getLsbD j = if o.d = 0 then true else
        (decide (j < laneCount o.fmt.toNat) && (rp s s.cur o.pred.toNat).getLsbD j &&
        (match o.limm.toNat with
        | 0 => decide (a j = b j) | 1 => decide (a j ≠ b j) | 2 => decide (a j < b j)
        | 3 => decide (a j ≥ b j) | 4 => decide (a j ≤ b j) | _ => decide (a j > b j))))) ∧
  (∀ (o : OpV) (s : State) (i : Instr) (g : BitVec 32 → BitVec 32 → BitVec 32),
    (i, g) ∈ [(Instr.pand o, fun x y => x &&& y), (.por o, fun x y => x ||| y), (.pnot o, fun x _ => ~~~x)] → Issues i s →
    o.c = 0 ∧ o.pred = 0 ∧ o.hold = 0 ∧ o.fmt = 0 ∧ o.rnd = 0 ∧ o.limm = 0 ∧
    Gives i s (fun t => pcOf t = pcOf s + 8 ∧ RegFrame s t [] [o.d.toNat] ∧
      rp t s.cur o.d.toNat = if o.d = 0 then BitVec.allOnes 32 else g (rp s s.cur o.a.toNat) (rp s s.cur o.b.toNat))) ∧
  (∀ (o : OpV) (s : State), Issues (.pmov o) s →
    o.b = 0 ∧ o.c = 0 ∧ o.pred = 0 ∧ o.hold = 0 ∧ o.fmt = 0 ∧ o.rnd = 0 ∧ o.limm.toNat ≤ 2 ∧
    (o.limm.toNat ≤ 1 → Gives (.pmov o) s (fun t => pcOf t = pcOf s + 8 ∧ RegFrame s t [] [o.d.toNat] ∧ rp t s.cur o.d.toNat =
      if o.d = 0 then BitVec.allOnes 32 else if o.limm = 0 then rp s s.cur o.a.toNat else (rg s s.cur o.a.toNat).setWidth 32)) ∧
    (o.limm.toNat = 2 → Gives (.pmov o) s (fun t => Proceeds s t [o.d.toNat] ∧
      rg t s.cur o.d.toNat = if o.d = 0 then 0 else (rp s s.cur o.a.toNat).setWidth 64))) ∧
  (∀ (o : OpV) (s : State), Issues (.vmov o) s → o.limm.toNat < 2048 → o.d.toNat < 48 → 48 ≤ o.a.toNat →
    unsettled s s.cur = false → qInOf s (coreOf s.cur) (o.a.toNat - 48) = [] →
    queueLost s (coreOf s.cur) (o.a.toNat - 48) = false →
    Gives (.vmov o) s (fun t => (ctxOf t s.cur).run = .stalled (.qPop (o.a.toNat - 48)) ∧ pcOf t = pcOf s ∧ RegFrame s t [] [] ∧ Popped s t [])) ∧
  (∀ (o : OpV) (s : State), Issues (.vmov o) s → o.limm.toNat < 2048 → 48 ≤ o.d.toNat → SourcesServed s [o.a] →
    unsettled s s.cur = false → (qOutOf s (coreOf s.cur) (o.d.toNat - 48)).length = 16 →
    queueLost s (coreOf s.cur) (o.d.toNat - 48) = false →
    Gives (.vmov o) s (fun t => (ctxOf t s.cur).run = .stalled (.qPush (o.d.toNat - 48)) ∧ pcOf t = pcOf s ∧ RegFrame s t [] [] ∧ Popped s t [])) ∧
  (∀ (o : OpV) (s : State), Issues (.vmov o) s → o.limm.toNat < 2048 → o.d.toNat < 48 → 48 ≤ o.a.toNat →
    unsettled s s.cur = false → unfinished (beginIssue s) s.cur = false → qInOf s (coreOf s.cur) (o.a.toNat - 48) = [] →
    popAhead s [o.a.toNat - 48] = false → queueLost s (coreOf s.cur) (o.a.toNat - 48) = true →
    exec (.vmov o) s = .next (takeTrap (countIssue (.vmov o) (keepPop (beginIssue s) [o.a.toNat - 48])) s.cur { code := cQueueLost }))

/-! ### System registers and contexts -/

/-- SRD reads an s-register of Table 04-6, zero for one without a value; a read of sr.n0 to sr.n3 takes the value and clears its presence
bit, and waits while there is none (R80, R81, R318). SWR, VGROW and VSHRINK change what they write from the next switch group on (R48, R76,
R318, R322): with S at once after it, without S not before the group ends. The words that I4TAB reads become the table when its second
read has returned (R280). WDOG arms or disarms the watchdog (R323). -/
def Obligations.SpecialRegisters : Prop :=
  (∀ (o : OpS) (s : State) (n : Nat) (x : Word), Issues (.srd o) s → o.sreg.toNat = n →
    (n, x) ∈ [(0x00, BitVec.ofNat 64 (s.device * 65536 + s.cur)), (0x01, BitVec.ofNat 64 (coreAt s (coreOf s.cur)).capacity),
      (0x02, BitVec.ofNat 64 (ctxOf s s.cur).allot), (0x04, (ctxOf s s.cur).rmode.setWidth 64), (0x05, (ctxOf s s.cur).regs.flags.setWidth 64),
      (0x06, (clusterAt s (vertOf s.cur)).cflags.setWidth 64), (0x07, (coreAt s (coreOf s.cur)).i4tab0),
      (0x08, (coreAt s (coreOf s.cur)).i4tab1), (0x0A, BitVec.ofNat 64 (s.cycle + (ctxOf s s.cur).late)), (0x0B, (coreAt s (coreOf s.cur)).npres.setWidth 64),
      (0x18, (ctxOf s s.cur).acct.setWidth 64), (0x19, (ctxOf s s.cur).lease.setWidth 64)] →
    Gives (.srd o) s (fun t => Writes s t o.d.toNat x)) ∧
  (∀ (o : OpS) (s : State), Issues (.srd o) s → o.sreg.toNat < 0x800 → (o.sreg.toNat < 0xC ∨ 0xF < o.sreg.toNat) →
    Gives (.srd o) s (fun t => Writes s t o.d.toNat (sregValue (beginIssue s) s.cur o.sreg.toNat))) ∧
  (∀ (o : OpS) (s : State), Issues (.srd o) s → unsettled s s.cur = false → 0xC ≤ o.sreg.toNat → o.sreg.toNat ≤ 0xF →
    (coreAt s (coreOf s.cur)).npres.getLsbD (o.sreg.toNat - 0xC) = true →
    Gives (.srd o) s (fun t => Proceeds s t [o.d.toNat] ∧
      rg t s.cur o.d.toNat = (if o.d = 0 then 0 else sget 0 (coreAt s (coreOf s.cur)).n (o.sreg.toNat - 0xC)) ∧
      (coreAt t (coreOf s.cur)).npres.getLsbD (o.sreg.toNat - 0xC) = false)) ∧
  (∀ (o : OpS) (s : State), Issues (.srd o) s → 0xC ≤ o.sreg.toNat → o.sreg.toNat ≤ 0xF →
    (coreAt s (coreOf s.cur)).npres.getLsbD (o.sreg.toNat - 0xC) = false →
    (coreAt s (feederOf (coreOf s.cur) (o.sreg.toNat - 0xC))).killed = false →
    Gives (.srd o) s (fun t => (ctxOf t s.cur).run = .stalled (.nRead (o.sreg.toNat - 0xC)) ∧ pcOf t = pcOf s ∧ RegFrame s t [] [])) ∧
  (∀ (o : OpS) (s : State), Issues (.swr o) s → Quiet s → unsettled s s.cur = false → o.sreg.toNat < 0x800 → o.s = 0 →
    Gives (.swr o) s (fun t => Proceeds s t [] ∧ FlagsKept s t ∧ (ctxOf t s.cur).rmode = (ctxOf s s.cur).rmode ∧
      (ctxOf t s.cur).pendingS = [(o.sreg.toNat, rg s s.cur o.a.toNat)])) ∧
  (∀ (o : OpS) (s : State), Issues (.swr o) s → Quiet s → unsettled s s.cur = false → o.s = 1 → o.sreg = 5 →
    Gives (.swr o) s (fun t => Proceeds s t [] ∧ (ctxOf t s.cur).regs.flags = (rg s s.cur o.a.toNat).setWidth 5)) ∧
  (∀ (o : OpS) (s : State), Issues (.swr o) s → Quiet s → unsettled s s.cur = false → o.s = 1 → o.sreg = 4 →
    let m := (rg s s.cur o.a.toNat).setWidth 3
    Gives (.swr o) s (fun t => Proceeds s t [] ∧
      (ctxOf t s.cur).rmode = if 1 ≤ m.toNat ∧ m.toNat ≤ 5 then m else (ctxOf s s.cur).rmode)) ∧
  (∀ (o : OpS) (s : State), Issues (.vgrow o) s → Quiet s → unsettled s s.cur = false → o.s = 1 →
    Gives (.vgrow o) s (fun t => Proceeds s t [] ∧ (ctxOf t s.cur).allot = max o.imm.toNat (ctxOf s s.cur).allot ∧
      ∀ r, r < (ctxOf s s.cur).allot → rv t s.cur r = rv s s.cur r)) ∧
  (∀ (o : OpS) (s : State), Issues (.vshrink o) s → Quiet s → unsettled s s.cur = false → o.s = 1 →
    Gives (.vshrink o) s (fun t => Proceeds s t [] ∧ (ctxOf t s.cur).allot = min o.imm.toNat (ctxOf s s.cur).allot ∧
      ∀ r, r < min o.imm.toNat (ctxOf s s.cur).allot → rv t s.cur r = rv s s.cur r)) ∧
  (∀ (o : OpS) (s u w : State) (x y : Nat), Issues (.i4tab o) s → Quiet s → unsettled s s.cur = false →
    let ea := rg s s.cur o.a.toNat + o.imm.signExtend 64
    ea.toNat % 16 = 0 → memRead (beginIssue s) ea 8 .read = .ok (x, u) → memRead u (ea + 8) 8 .read = .ok (y, w) →
    let n := w.cycle + (if ea.toNat / 2 ^ 53 ≠ s.device then 0 else if 0x1FFFFF00000000 ≤ ea.toNat % 2 ^ 53 then 3 else 4) + (ctxOf w s.cur).late
    Gives (.i4tab o) s (fun t => Moves s t [] ∧ (coreAt t (coreOf s.cur)).i4next =
      (coreAt w (coreOf s.cur)).i4next ++ [(n, BitVec.ofNat 64 x, BitVec.ofNat 64 y)])) ∧
  (∀ (s : State) (k n : Nat) (x y : Word), (coreAt s k).i4next = [(n, x, y)] →
    (n ≤ s.cycle → (coreAt (settleTables s k) k).i4tab0 = x ∧ (coreAt (settleTables s k) k).i4tab1 = y ∧ (coreAt (settleTables s k) k).i4next = []) ∧
    (s.cycle < n → settleTables s k = s)) ∧
  (∀ (o : OpS) (s : State), Issues (.wdog o) s → unsettled s s.cur = false →
    let n := (rg s s.cur o.a.toNat).toNat
    Gives (.wdog o) s (fun t => Proceeds s t [] ∧
      (ctxOf t s.cur).watchdog = if n = 0 then none else some (s.cycle + min n (2 ^ 48 - 1))))

/-- CTXSAVE saves a context that stands still into its control block, all of Tables 13-4 to 13-6, and waits until it does; CTXREST restores a
block onto an idle context, held, or started with GO, with all that R205 takes from the block (R204, R205, R320, R321). With the block's
lines in the core's cache, both end in their step. -/
def Obligations.ContextSaveRestore : Prop :=
  (∀ (o : OpS) (s : State) (w : Nat) (e : TlbEntry) (h : TokenHit), Issues (.ctxsave o) s → Quiet s → (ctxOf s s.cur).lockstep = false →
    contextNamed s (rg s s.cur o.d.toNat) = some w → w ≠ s.cur → saveable s w = true →
    (ctxOf s w).run ∈ [Run.stopped, .held, .trapped, .preempted] → (ctxOf s w).lockstep = false →
    ((ctxOf s w).run = .stopped → ∀ j ∈ (clusterAt s (vertOf w)).waiting, w ∉ j.members) → (ctxOf s w).allot ≤ 48 →
    BlockReady s (rg s s.cur o.a.toNat) .wr .write e h →
    let b := blockAt (rg s s.cur o.a.toNat) e
    ∃ t, exec (.ctxsave o) s = .next t ∧ Moves s t [] ∧ (ctxOf t w).run = .savedOut ∧ (ctxOf t w).watchdog = none ∧
      (ctxOf t w).regs = (ctxOf s w).regs ∧ BlockSaved s t (coreOf s.cur) w b (blockGet s (.here b) 0 8) (blockGet s (.here b) 8 8)) ∧
  (∀ (o : OpS) (s : State) (w origin n : Nat) (e : TlbEntry) (h : TokenHit), Issues (.ctxrest o) s → Quiet s → (ctxOf s s.cur).lockstep = false →
    BlockReady s (rg s s.cur o.a.toNat) .rd .read e h →
    let b := Block.here (blockAt (rg s s.cur o.a.toNat) e)
    badBlock s b = false →
    contextNamed s (rg s s.cur o.d.toNat) = some w → contextNamed s (rg s s.cur (o.d.toNat + 1)) = some origin → w ≠ s.cur → origin ≠ s.cur →
    (ctxOf s w).run = .idle → (ctxOf s origin).run = .savedOut → (ctxOf s origin).preemptAsked = false → takesWork s (coreOf w) = true →
    lacksUnit (coreOf w) (bits (blockGet s b 0 8) 5 0) = false → nbit (blockGet s b 8 8) 63 = false →
    (o.imm = 1 → nbit (blockGet s b 8 8) 62 = false) →
    restoreAllot (coreAt s (coreOf w)).capacity (bits (blockGet s b 0 8) 23 16) (bits (blockGet s b 0 8) 31 24) = some n →
    ∃ t, exec (.ctxrest o) s = .next t ∧ Moves s t [] ∧ (o.imm = 0 → (ctxOf t w).run = .held) ∧ (o.imm = 1 → (ctxOf t w).run = .ready) ∧
      Restored s t b w origin n ∧
      (ctxOf t origin).run = .idle ∧ (ctxOf t origin).lease = (ctxOf s origin).lease + 1) ∧
  (∀ (o : OpS) (s u v : State) (places : List Nat) (far w : Nat), Issues (.ctxsave o) s → Quiet s →
    contextNamed s (rg s s.cur o.d.toNat) = some w → w ≠ s.cur → saveable s w = true → FreeToAct s →
    stopTarget (beginIssue s) w = (true, v) → openBlock v (rg s s.cur o.a.toNat) .wr = .ok (.here places, far, u) → (ctxOf s w).lockstep = false →
    (ctxOf u w).allot ≤ 48 → places.length = 80 → places.Nodup → (∀ a ∈ places, a % 256 = 0) →
    ∃ t, exec (.ctxsave o) s = .next t ∧ Moves s t [] ∧ (ctxOf t w).run = .savedOut ∧ (ctxOf t w).watchdog = none ∧
      (ctxOf t w).regs = (ctxOf u w).regs ∧
      BlockSaved u t (coreOf s.cur) w places (blockGet u (.here places) 0 8) (blockGet u (.here places) 8 8)) ∧
  (∀ (o : OpS) (s v : State) (w : Nat), Issues (.ctxsave o) s → contextNamed s (rg s s.cur o.d.toNat) = some w →
    saveable (beginIssue s) w = true → FreeToAct s → stopTarget (beginIssue s) w = (false, v) →
    Gives (.ctxsave o) s (fun t => (ctxOf t s.cur).run = .stalled (.stopping w))) ∧
  (∀ (o : OpS) (s u : State) (places : List Nat) (far w origin n : Nat), Issues (.ctxrest o) s → Quiet s →
    openBlock s (rg s s.cur o.a.toNat) .rd = .ok (.here places, far, u) →
    let b := Block.here places
    badBlock u b = false →
    contextNamed s (rg s s.cur o.d.toNat) = some w → contextNamed s (rg s s.cur (o.d.toNat + 1)) = some origin → w ≠ s.cur → origin ≠ s.cur →
    (ctxOf u w).run = .idle → (ctxOf u origin).run = .savedOut → (ctxOf u origin).preemptAsked = false → takesWork u (coreOf w) = true →
    lacksUnit (coreOf w) (bits (blockGet u b 0 8) 5 0) = false → nbit (blockGet u b 8 8) 63 = false →
    (o.imm = 1 → nbit (blockGet u b 8 8) 62 = false) →
    restoreAllot (coreAt u (coreOf w)).capacity (bits (blockGet u b 0 8) 23 16) (bits (blockGet u b 0 8) 31 24) = some n →
    FreeToAct s → unfinished s origin = false → (∀ f ∈ s.flights, f.path = 7 → coreOf f.ctx ≠ coreOf origin) →
    ∃ t, exec (.ctxrest o) s = .next t ∧ Moves s t [] ∧ (o.imm = 0 → (ctxOf t w).run = .held) ∧ (o.imm = 1 → (ctxOf t w).run = .ready) ∧
      Restored u t b w origin n ∧
      (ctxOf t origin).run = .idle ∧ (ctxOf t origin).lease = (ctxOf u origin).lease + 1)

/-! ### The lattice -/

/-- The non-adjacent form that weights are recoded in, by the function NAF (R242). MSTAT recodes a tile of weights into the shadow plane, drops
terms above its budget and returns their counts (R64, R65, R328); with STRICT a dropped term faults TERM-BUDGET and nothing changes. -/
def Obligations.WeightRecoding : Prop :=
  (∀ (n m : Nat), nafDigits (n + 1) m = if m = 0 then [] else
    let d : Int := if m % 2 = 1 then 2 - ((m % 4 : Nat) : Int) else 0
    d :: nafDigits n (((m : Int) - d) / 2).toNat) ∧
  (∀ (m : Nat), m < 2 ^ 63 → let l := nafDigits 64 m
    digitSum l = m ∧ (∀ d ∈ l, d = -1 ∨ d = 0 ∨ d = 1) ∧ ∀ i, l.getD i 0 ≠ 0 → l.getD (i + 1) 0 = 0) ∧
  (∀ (o : OpE) (s : State), Issues (.mstat o) s → fenced s s.cur 3 = false → swapWaits s (vertOf s.cur) = false → unsettled s s.cur = false →
    let fmt := o.imm.toNat % 16
    let l := tileWeights s (coreOf s.cur) o.a.toNat fmt
    let cut := l.map (recode (o.imm.toNat / 16 % 16))
    let total := (l.map weightTerms).sum
    let removed := total - (cut.map weightTerms).sum
    (o.imm.getLsbD 8 = true → removed = 0) →
    Gives (.mstat o) s (fun t => Proceeds s t [o.d.toNat] ∧
      rg t s.cur o.d.toNat = (if o.d = 0 then 0 else BitVec.ofNat 64 (total * 2 ^ 32 + removed * 2 ^ 16 + (planeOf fmt cut).span % 16)) ∧
      (colOf t (vertOf s.cur) (coreNo (coreOf s.cur))).shadow = planeOf fmt cut ∧
      (colOf t (vertOf s.cur) (coreNo (coreOf s.cur))).active = (colOf s (vertOf s.cur) (coreNo (coreOf s.cur))).active ∧
      (colOf t (vertOf s.cur) (coreNo (coreOf s.cur))).dropped =
        (colOf s (vertOf s.cur) (coreNo (coreOf s.cur))).dropped + BitVec.ofNat 64 removed)) ∧
  (∀ (o : OpE) (s : State), Issues (.mstat o) s → fenced s s.cur 3 = false → swapWaits s (vertOf s.cur) = false → unfinished (beginIssue s) s.cur = false →
    o.imm.getLsbD 8 = true →
    let l := tileWeights s (coreOf s.cur) o.a.toNat (o.imm.toNat % 16)
    (l.map weightTerms).sum - ((l.map (recode (o.imm.toNat / 16 % 16))).map weightTerms).sum ≠ 0 →
    exec (.mstat o) s = .next (takeTrap (countIssue (.mstat o) (beginIssue s)) s.cur { code := cTermBudget }))

/-- MGANG (R329): the first seven arrivals of a gang park with their words; the eighth makes the job pending when no other is, and all receive
its id; while another is pending the job waits, and its members with it. -/
def Obligations.LatticeBarrier : Prop :=
  (∀ (o : OpE) (s : State) (id : Word), Issues (.mgang o) s → (ctxOf s s.cur).cooked = some id →
    ∃ t, exec (.mgang o) s = .next t ∧ Proceeds s t [o.d.toNat] ∧ rg t s.cur o.d.toNat = if o.d = 0 then 0 else id) ∧
  (∀ (o : OpE) (s : State) (g : Nat) (y : Gang), Issues (.mgang o) s → (ctxOf s s.cur).cooked = none → (ctxOf s s.cur).gang = some g →
    sget none s.gangs g = some y → y.lost = false → returning s s.cur = false → (ctxOf s s.cur).lockstep = false → (arrivalsOf s (vertOf s.cur) g).length < 7 →
    Gives (.mgang o) s (fun t => (ctxOf t s.cur).run = .stalled .mgang ∧ pcOf t = pcOf s ∧ RegFrame s t [] [] ∧
      (s.cur, [rg s s.cur o.a.toNat, rg s s.cur o.b.toNat, rg s s.cur o.c.toNat, (coreAt s (coreOf s.cur)).i4tab0,
        (coreAt s (coreOf s.cur)).i4tab1, (ctxOf s s.cur).acct.setWidth 64]) ∈ (clusterAt t (vertOf s.cur)).arrivals)) ∧
  (∀ (o : OpE) (s : State) (g : Nat) (y : Gang), Issues (.mgang o) s → (ctxOf s s.cur).cooked = none → (ctxOf s s.cur).gang = some g →
    sget none s.gangs g = some y → y.lost = false → returning s s.cur = false → (ctxOf s s.cur).lockstep = false → (arrivalsOf s (vertOf s.cur) g).length = 7 →
    (∀ e ∈ arrivalsOf s (vertOf s.cur) g,
      e.1 ≠ s.cur ∧ e.2.take 3 = [rg s s.cur o.a.toNat, rg s s.cur o.b.toNat, rg s s.cur o.c.toNat]) →
    jobOk s (vertOf s.cur) (rg s s.cur o.a.toNat) (rg s s.cur o.b.toNat) (rg s s.cur o.c.toNat) = true →
    ((clusterAt s (vertOf s.cur)).pending = none →
      ∃ t, exec (.mgang o) s = .next t ∧ Proceeds s t [o.d.toNat] ∧
        rg t s.cur o.d.toNat = (if o.d = 0 then 0 else (clusterAt s (vertOf s.cur)).nextJid.setWidth 64) ∧
        (clusterAt t (vertOf s.cur)).nextJid = (clusterAt s (vertOf s.cur)).nextJid + 1 ∧ arrivalsOf t (vertOf s.cur) g = [] ∧
        (∀ e ∈ arrivalsOf s (vertOf s.cur) g, (ctxOf s e.1).run = .stalled .mgang →
          (ctxOf t e.1).run = .ready ∧ (ctxOf t e.1).cooked = some ((clusterAt s (vertOf s.cur)).nextJid.setWidth 64)) ∧
        ∃ j, (clusterAt t (vertOf s.cur)).pending = some j ∧ j.jid = (clusterAt s (vertOf s.cur)).nextJid ∧
          j.wordA = rg s s.cur o.a.toNat ∧ j.wordB = rg s s.cur o.b.toNat ∧ j.wordC = rg s s.cur o.c.toNat) ∧
    ((clusterAt s (vertOf s.cur)).pending ≠ none →
      Gives (.mgang o) s (fun t => (ctxOf t s.cur).run = .stalled .mgang ∧ pcOf t = pcOf s ∧ RegFrame s t [] [] ∧
        ∃ j, (clusterAt t (vertOf s.cur)).waiting = (clusterAt s (vertOf s.cur)).waiting ++ [j] ∧ j.jid = (clusterAt s (vertOf s.cur)).nextJid)))

/-- MWAIT and MDRAIN wait while the job has not ended, MDRAIN also while a segment of it drains, and answer for a job that is unknown; ALD, AST and MZERO move accumulator segments
that are free or kept; MTERM reads a counter or a span (R332 to R336). MEMIT (R334): address 0 writes nothing and frees the segment;
otherwise the converted lanes are posted on path 3 in the ordered class and the segment is freed. In handler mode both happen at HRET. -/
def Obligations.LatticeReadsAndEmit : Prop :=
  (∀ (o : OpE) (s : State), Issues (.mwait o) s → jobOut (clusterAt s (vertOf s.cur)) (rg s s.cur o.a.toNat) = true →
    Gives (.mwait o) s (fun t => (ctxOf t s.cur).run = .stalled (.mwait ((rg s s.cur o.a.toNat).setWidth 16)) ∧ RegFrame s t [] [])) ∧
  (∀ (o : OpE) (s : State), Issues (.mwait o) s → jobOut (clusterAt s (vertOf s.cur)) (rg s s.cur o.a.toNat) = false →
    endedJob (clusterAt s (vertOf s.cur)) (rg s s.cur o.a.toNat) = none →
    Gives (.mwait o) s (fun t => Writes s t o.d.toNat (((rg s s.cur o.a.toNat).setWidth 16).setWidth 64 <<< 48 ||| 4))) ∧
  (∀ (o : OpE) (s : State) (d : LatDone), Issues (.mwait o) s → jobOut (clusterAt s (vertOf s.cur)) (rg s s.cur o.a.toNat) = false →
    endedJob (clusterAt s (vertOf s.cur)) (rg s s.cur o.a.toNat) = some d → unsettled s s.cur = false →
    Gives (.mwait o) s (fun t => Proceeds s t [o.d.toNat] ∧ rg t s.cur o.d.toNat = (if o.d = 0 then 0 else
      BitVec.ofNat 64 (d.jid.toNat * 2 ^ 48 + d.code * 2 ^ 40 + d.wrap.toNat * 8 + if d.code = 0 then 2 else 3)))) ∧
  (∀ (o : OpE) (s : State), Issues (.mdrain o) s → jobOut (clusterAt s (vertOf s.cur)) (rg s s.cur o.a.toNat) = false →
    (∀ e ∈ (colOf s (vertOf s.cur) (coreNo (coreOf s.cur))).segs, e.2.state ≠ .draining) →
    Gives (.mdrain o) s (fun t => Writes s t o.d.toNat (if endedJob (clusterAt s (vertOf s.cur)) (rg s s.cur o.a.toNat) = none ∧ (ctxOf s s.cur).tried = false then 0 else
      BitVec.ofNat 64 (sget 0 (colOf s (vertOf s.cur) (coreNo (coreOf s.cur))).written ((rg s s.cur o.a.toNat).toNat % 2 ^ 16))))) ∧
  (∀ (o : OpE) (s : State), Issues (.mdrain o) s →
    let w := rg s s.cur o.a.toNat
    (jobOut (clusterAt s (vertOf s.cur)) w = true ∨ (endedJob (clusterAt s (vertOf s.cur)) w ≠ none ∧
      ∃ e ∈ (colOf s (vertOf s.cur) (coreNo (coreOf s.cur))).segs, e.2.state = .draining ∧ e.2.jid = w.setWidth 16)) →
    Gives (.mdrain o) s (fun t => (ctxOf t s.cur).run = .stalled (.mdrain (w.setWidth 16)) ∧ pcOf t = pcOf s ∧ RegFrame s t [] [])) ∧
  (∀ (o : OpE) (s : State) (n row : Nat), Issues (.ald o) s → unsettled s s.cur = false → n = o.imm.toNat % 32 + 1 →
    row = (rg s s.cur o.c.toNat).toNat → segsReady s (vertOf s.cur) (coreNo (coreOf s.cur)) row n = true →
    (∀ j, j < n → (segOf s (vertOf s.cur) (coreNo (coreOf s.cur)) (row + j)).poison = false) →
    Gives (.ald o) s (fun t => Proceeds s t [] ∧ ∀ j, j < n →
      tileRow t (coreOf s.cur) o.d.toNat (2 * j + 1) ++ tileRow t (coreOf s.cur) o.d.toNat (2 * j) =
        (segOf s (vertOf s.cur) (coreNo (coreOf s.cur)) (row + j)).data)) ∧
  (∀ (o : OpE) (s : State) (n row : Nat), Issues (.ast o) s → unsettled s s.cur = false → n = o.imm.toNat % 32 + 1 → o.imm.getLsbD 5 = false →
    row = (rg s s.cur o.c.toNat).toNat → segsReady s (vertOf s.cur) (coreNo (coreOf s.cur)) row n = true →
    (∀ j, j < n → (segOf s (vertOf s.cur) (coreNo (coreOf s.cur)) (row + j)).poison = false) →
    Gives (.ast o) s (fun t => Proceeds s t [] ∧ ∀ j, j < n →
      (segOf t (vertOf s.cur) (coreNo (coreOf s.cur)) (row + j)).state = .kept ∧
      (segOf t (vertOf s.cur) (coreNo (coreOf s.cur)) (row + j)).data =
        tileRow s (coreOf s.cur) o.a.toNat (2 * j + 1) ++ tileRow s (coreOf s.cur) o.a.toNat (2 * j))) ∧
  (∀ (o : OpE) (s : State) (n row : Nat), Issues (.ast o) s → unsettled s s.cur = false → n = o.imm.toNat % 32 + 1 → o.imm.getLsbD 5 = true →
    row = (rg s s.cur o.c.toNat).toNat → segsReady s (vertOf s.cur) (coreNo (coreOf s.cur)) row n = true →
    (∀ j, j < n → (segOf s (vertOf s.cur) (coreNo (coreOf s.cur)) (row + j)).poison = false) →
    let int := isIntFmt (colOf s (vertOf s.cur) (coreNo (coreOf s.cur))).active.fmt.toNat
    Gives (.ast o) s (fun t => Proceeds s t [] ∧ ∀ j, j < n →
      (segOf t (vertOf s.cur) (coreNo (coreOf s.cur)) (row + j)).state = .kept ∧ ∀ i, i < 16 →
        let x := lane (segOf s (vertOf s.cur) (coreNo (coreOf s.cur)) (row + j)).data 32 i
        let y := lane (tileRow s (coreOf s.cur) o.a.toNat (2 * j + 1) ++ tileRow s (coreOf s.cur) o.a.toNat (2 * j)) 32 i
        lane (segOf t (vertOf s.cur) (coreNo (coreOf s.cur)) (row + j)).data 32 i =
          if int then (x + y) % 2 ^ 32 else (roundNum 1 13 false (nadd 1 (decodeIeee 13 x) (decodeIeee 13 y)).1).1)) ∧
  (∀ (o : OpE) (s : State) (row : Nat), Issues (.mzero o) s → unsettled s s.cur = false → row = (rg s s.cur o.c.toNat).toNat →
    segsReady s (vertOf s.cur) (coreNo (coreOf s.cur)) row (o.imm.toNat + 1) = true →
    Gives (.mzero o) s (fun t => Proceeds s t [] ∧ ∀ j, j ≤ o.imm.toNat →
      segOf t (vertOf s.cur) (coreNo (coreOf s.cur)) (row + j) = Seg.reset)) ∧
  (∀ (o : OpE) (s : State), Issues (.mterm o) s →
    let g := colOf s (vertOf s.cur) (coreNo (coreOf s.cur))
    Gives (.mterm o) s (fun t => Writes s t o.d.toNat (match o.imm.toNat with
      | 0 => g.applied | 1 => g.dropped | 2 => g.idle | 3 => BitVec.ofNat 64 g.active.span | _ => BitVec.ofNat 64 g.shadow.span))) ∧
  (∀ (o : OpE) (s : State), Issues (.memit o) s → FreeToAct s → (ctxOf s s.cur).hmode = false → rg s s.cur o.a.toNat = 0 →
    Gives (.memit o) s (fun t => Proceeds s t [] ∧
      (segOf t (vertOf s.cur) (coreNo (coreOf s.cur)) (rg s s.cur o.c.toNat).toNat).state = .free ∧ t.flights = s.flights)) ∧
  (∀ (o : OpE) (s u w : State) (va pa : Nat) (leaf : Word) (m : Mode), Issues (.memit o) s → FreeToAct s → rg s s.cur o.a.toNat ≠ 0 →
    let data := (emitBytes s s.cur (o.imm.toNat % 16) (rv s s.cur o.b.toNat)).1
    (rg s s.cur o.a.toNat).toNat % data.length = 0 → translate (beginIssue s) (rg s s.cur o.a.toNat) .wr = .ok (.phys va pa leaf, u) →
    tokenCheck u (rg s s.cur o.a.toNat) .sliceop 3 = .ok (m, w) →
    ((ctxOf s s.cur).hmode = false → Gives (.memit o) s (fun t => Proceeds s t [] ∧ Sends s t 3 true true (leafSlice leaf pa % 2048) (.write pa data) ∧
      (segOf t (vertOf s.cur) (coreNo (coreOf s.cur)) (rg s s.cur o.c.toNat).toNat).state = .free)) ∧
    (BufferRoom s → Gives (.memit o) s (fun t => Proceeds s t [] ∧ t.flights = s.flights ∧
      Buffers s t (.memit (rg s s.cur o.c.toNat).toNat (leafHome leaf pa) pa data) ∧
      segOf t (vertOf s.cur) (coreNo (coreOf s.cur)) (rg s s.cur o.c.toNat).toNat =
        segOf s (vertOf s.cur) (coreNo (coreOf s.cur)) (rg s s.cur o.c.toNat).toNat))) ∧
  (∀ (o : OpE) (s : State), Issues (.memit o) s → FreeToAct s → BufferRoom s → rg s s.cur o.a.toNat = 0 →
    Gives (.memit o) s (fun t => Proceeds s t [] ∧ Buffers s t (.memit (rg s s.cur o.c.toNat).toNat 0 0 []) ∧
      segOf t (vertOf s.cur) (coreNo (coreOf s.cur)) (rg s s.cur o.c.toNat).toNat =
        segOf s (vertOf s.cur) (coreNo (coreOf s.cur)) (rg s s.cur o.c.toNat).toNat)) ∧
  (∀ (s : State) (c : Nat) (x : Vec), emitBytes s c 13 x = (bytesOf x.toNat 64, 0) ∧ emitBytes s c 4 x = (bytesOf x.toNat 64, 0))

/-! ### The access core -/

/-- JOB queues a job and returns its id; JPOLL and JWAIT give its status word, JWAIT only once it is over; JNEXT takes the oldest queued job;
JDONE ends the held job and puts it into the completion table (R141, R337 to R339). -/
def Obligations.Jobs : Prop :=
  (∀ (o : OpE) (s : State), Issues (.job o) s → FreeToAct s → (rg s s.cur o.a.toNat).toNat % 8 = 0 →
    ((clusterAt s (vertOf s.cur)).jobs.filter (fun j => j.running.isNone)).length < 64 → (clusterAt s (vertOf s.cur)).nexters = [] →
    Gives (.job o) s (fun t => Proceeds s t [o.d.toNat] ∧
      rg t s.cur o.d.toNat = (if o.d = 0 then 0 else (clusterAt s (vertOf s.cur)).jobCounter.setWidth 64) ∧
      ∃ j, (clusterAt t (vertOf s.cur)).jobs = (clusterAt s (vertOf s.cur)).jobs ++ [j] ∧ j.id = (clusterAt s (vertOf s.cur)).jobCounter ∧
        j.entry = rg s s.cur o.a.toNat ∧ j.arg0 = rg s s.cur o.b.toNat ∧ j.arg1 = rg s s.cur o.c.toNat ∧ j.submitter = s.cur ∧
        j.running = none)) ∧
  (∀ (o : OpE) (s : State), Issues (.jpoll o) s → unsettled s s.cur = false →
    Gives (.jpoll o) s (fun t => Proceeds s t [o.d.toNat] ∧
      rg t s.cur o.d.toNat = if o.d = 0 then 0 else jobWord (clusterAt s (vertOf s.cur)) (rg s s.cur o.a.toNat))) ∧
  (∀ (o : OpE) (s : State), Issues (.jwait o) s → unsettled s s.cur = false →
    (∀ j, jobNamed (clusterAt s (vertOf s.cur)) (rg s s.cur o.a.toNat) ≠ some (j, false)) →
    Gives (.jwait o) s (fun t => Proceeds s t [o.d.toNat] ∧
      rg t s.cur o.d.toNat = if o.d = 0 then 0 else jobWord (clusterAt s (vertOf s.cur)) (rg s s.cur o.a.toNat))) ∧
  (∀ (o : OpE) (s : State) (j : Job), Issues (.jwait o) s →
    jobNamed (clusterAt s (vertOf s.cur)) (rg s s.cur o.a.toNat) = some (j, false) →
    Gives (.jwait o) s (fun t => (ctxOf t s.cur).run = .stalled (.jobWait j.id) ∧ RegFrame s t [] [])) ∧
  (∀ (o : OpE) (s : State) (j : Job) (l : List Job), Issues (.jnext o) s → unsettled s s.cur = false → (ctxOf s s.cur).cooked = none →
    (clusterAt s (vertOf s.cur)).jobs = j :: l → j.running = none →
    (∀ h ∈ s.flights, isFence h.op = true → h.ctx = j.submitter → j.before ≤ h.id) → j.seq < 2 ^ 64 → (clusterAt s (vertOf s.cur)).nexters = [] →
    0 < o.d.toNat → o.d.toNat + 4 < 64 →
    Gives (.jnext o) s (fun t => pcOf t = pcOf s + 8 ∧ MemKept s t ∧ (ctxOf t s.cur).job = some j.id ∧
      rgs t s.cur o.d.toNat 5 = [j.id.setWidth 64, j.entry, j.arg0, j.arg1, BitVec.ofNat 64 (agentOf s j.submitter)])) ∧
  (∀ (o : OpE) (s : State) (j : Job), Issues (.jdone o) s → unsettled s s.cur = false → (clusterAt s (vertOf s.cur)).transfers = [] →
    (clusterAt s (vertOf s.cur)).jobs = [j] → j.running = some s.cur → (clusterAt s (vertOf s.cur)).completed.length < 64 →
    Gives (.jdone o) s (fun t => Proceeds s t [] ∧ (ctxOf t s.cur).job = none ∧ (clusterAt t (vertOf s.cur)).jobs = [] ∧
      (clusterAt t (vertOf s.cur)).completed = (clusterAt s (vertOf s.cur)).completed ++
        [{ j with running := none, code := if j.code = 0 then o.imm.toNat % 256 else j.code }]))

/-- An engine instruction whose operands are aligned (R341 to R345) starts its transfer: within a job the context goes on at once; without one
it waits for the transfer, and goes on when that is over (R338). -/
def Obligations.Transfers : Prop :=
  ∀ (o : OpE) (s : State) (i : Instr) (ok : Bool) (op : EngineOp) (barrier : Word),
    let a := rg s s.cur o.a.toNat
    let b := rg s s.cur o.b.toNat
    let x := rg s s.cur o.c.toNat
    let n := if o.c = 0 then o.imm.toNat % 32768 * 32 + 32 else x.toNat
    let q := o.imm.getLsbD 15
    (i, ok, op, barrier) ∈ [
      (Instr.tload o, decide (a.toNat % 32 = 0), EngineOp.tload a (placeOf b) (o.imm.toNat + 1), x),
      (.bulk o, decide (a.toNat % 32 = 0 ∧ b.toNat % 32 = 0 ∧ n % 32 = 0 ∧ n ≠ 0), .bulk a b (n / 32) q, 0),
      (.gather o, decide ((q = true ∨ a.toNat % 64 = 0) ∧ b.toNat % 4 = 0 ∧ x.toNat % 64 = 0),
        .gather a b x (if q then some (16 * vertOf s.cur + o.imm.toNat / 16 % 8, o.imm.toNat % 4) else none), 0),
      (.scatter o, decide (a.toNat % 4 = 0 ∧ b.toNat % 32 = 0 ∧ x.toNat % 64 = 0), .scatter a b x, 0),
      (.rgather o, decide (b.toNat % 32 = 0 ∧ x.toNat % 4 = 0),
        .rgather b x (o.imm.toNat / 1024 + 1) (o.imm.toNat % 1024 + 1) (placeOf a), rg s s.cur o.d.toNat),
      (.qpush o, decide (a.toNat % 64 = 0), .qpush a (16 * vertOf s.cur + o.imm.toNat / 16 % 8) (o.imm.toNat % 4) (o.imm.getLsbD 8), 0)] →
    Issues i s → ok = true → FreeToAct s →
    ((ctxOf s s.cur).job.isSome = true → jobFaulted s s.cur = false →
      Gives i s (fun t => Proceeds s t [] ∧ ∃ y, (clusterAt t (vertOf s.cur)).transfers = (clusterAt s (vertOf s.cur)).transfers ++ [y] ∧
        y.op = op ∧ y.ctx = s.cur ∧ y.job = (ctxOf s s.cur).job ∧ y.barrier = barrier ∧ y.step = 0)) ∧
    ((ctxOf s s.cur).job = none → (ctxOf s s.cur).cooked = none →
      Gives i s (fun t => (ctxOf t s.cur).run = .stalled .transfer ∧ RegFrame s t [] [] ∧
        ∃ y, (clusterAt t (vertOf s.cur)).transfers = (clusterAt s (vertOf s.cur)).transfers ++ [y] ∧ y.op = op ∧ y.job = none)) ∧
    ((ctxOf s s.cur).job = none → (ctxOf s s.cur).cooked ≠ none → Gives i s (fun t => Proceeds s t []))

/-- BARI and WAITB act at the barrier's home slice on path 1; BOQP pushes and BROQ pops a branch bit (R346, R347). -/
def Obligations.BarriersAndBranchBits : Prop :=
  (∀ (o : OpE) (s u w : State) (va pa : Nat) (leaf : Word) (m : Mode), Issues (.bari o) s → FreeToAct s →
    (rg s s.cur o.a.toNat).toNat % 16 = 0 → translate (beginIssue s) (rg s s.cur o.a.toNat) .wr = .ok (.phys va pa leaf, u) →
    tokenCheck u (rg s s.cur o.a.toNat) .write 1 = .ok (m, w) →
    Gives (.bari o) s (fun t => Moves s t [] ∧ Sends s t 1 true false (leafSlice leaf pa % 2048) (.bari pa (rg s s.cur o.b.toNat)))) ∧
  (∀ (o : OpE) (s : State) (p : Word), Issues (.waitb o) s → (ctxOf s s.cur).cooked = some p →
    (rg s s.cur o.a.toNat).toNat / 2 ^ 53 = s.device →
    Gives (.waitb o) s (fun t => Writes s t o.d.toNat p)) ∧
  (∀ (o : OpE) (s u : State) (va pa : Nat) (leaf : Word), Issues (.waitb o) s → (ctxOf s s.cur).cooked = none →
    s.flights.all (fun f => f.ctx ≠ s.cur) = true → translate (beginIssue s) (rg s s.cur o.a.toNat) .rd = .ok (.phys va pa leaf, u) →
    Gives (.waitb o) s (fun t => (ctxOf t s.cur).run = .stalled (.barrier pa) ∧
      Sends s t 1 true false (leafSlice leaf pa % 2048) (.waitb pa o.d.toNat))) ∧
  (∀ (o : OpE) (s : State), Issues (.boqp o) s → FreeToAct s → isExecute (coreOf s.cur) = true →
    (coreAt s (coreOf s.cur)).boqToAccess.length < 32 →
    Gives (.boqp o) s (fun t => Proceeds s t [] ∧ (coreAt t (coreOf s.cur)).boqToAccess =
      (coreAt s (coreOf s.cur)).boqToAccess ++ [decide (rg s s.cur o.a.toNat ≠ 0)])) ∧
  (∀ (o : OpE) (s : State) (b : Bool) (l : List Bool), Issues (.broq o) s → unsettled s s.cur = false → isExecute (coreOf s.cur) = true →
    (coreAt s (coreOf s.cur)).boqFromAccess = b :: l → TargetOk s (pcOf s + o.imm.signExtend 64 * 8) →
    Gives (.broq o) s (fun t => pcOf t = (if b then pcOf s + o.imm.signExtend 64 * 8 else pcOf s + 8) ∧ RegFrame s t [] [] ∧
      (coreAt t (coreOf s.cur)).boqFromAccess = l)) ∧
  (∀ (o : OpE) (s : State), Issues (.broq o) s → unsettled s s.cur = false → isExecute (coreOf s.cur) = true →
    (coreAt s (coreOf s.cur)).boqFromAccess = [] → (coreAt s (accessOf (coreOf s.cur))).killed = false →
    (coreAt s (coreOf s.cur)).queuesLost.contains branchPort = false →
    Gives (.broq o) s (fun t => (ctxOf t s.cur).run = .stalled (.branchPop (coreOf s.cur)) ∧ pcOf t = pcOf s ∧ RegFrame s t [] []))

/-! ### Groups, requests, graphs -/

/-- Groups (R348 to R351): GOPEN fills a free entry from its descriptor; GSEND sends one copy to each member; GRED contributes once a round;
GDRAIN waits for what is in flight; GCLOSE frees the entry or sets it draining. An entry that does not fit faults GROUP-BUSY. A complete round
sends its result, in flight too, which is written at its home slice and told the root. -/
def Obligations.Groups : Prop :=
  (∀ (o : OpE) (s s1 s2 s3 s4 u : State) (w0 ml w2 dest : Nat) (l : List Nat), Issues (.gopen o) s →
    let ea := rg s s.cur o.b.toNat
    let gid := (rg s s.cur o.a.toNat).toNat
    ea.toNat % 32 = 0 → memRead (beginIssue s) ea 8 .peek = .ok (w0, s1) → memRead s1 (ea + 8) 8 .peek = .ok (ml, s2) →
    memRead s2 (ea + 16) 8 .peek = .ok (w2, s3) → memRead s3 (ea + 24) 8 .peek = .ok (dest, s4) →
    bits w0 63 62 = 0 → bits w0 31 0 = 0 → bits w0 61 60 ≤ 1 → bits w0 55 52 < 6 → ml % 8 = 0 → dest % 8 = 0 →
    (bits w0 61 60 = 0 → bits w0 59 56 ∈ [4, 5, 6, 7, 13]) → readMembers s4 (BitVec.ofNat 64 ml) (bits w0 43 32 + 1) = .ok (l, u) →
    (bits w0 61 60 = 0 → (commonsPlace u (BitVec.ofNat 64 dest)).isSome = true) → (groupOf u gid).state = 0 → FreeToAct u → u.cur = s.cur →
    Gives (.gopen o) s (fun t => (groupOf t gid).state = 1 ∧ (groupOf t gid).kind = bits w0 61 60 ∧ (groupOf t gid).members = l ∧
      (groupOf t gid).inflight = 0 ∧ (groupOf t gid).round = [] ∧ (groupOf t gid).root = bits w2 26 0)) ∧
  (∀ (o : OpE) (s : State), Issues (.gsend o) s → FreeToAct s → BufferRoom s → (ctxOf s s.cur).cooked = none →
    (groupOf s (rg s s.cur o.a.toNat).toNat).state = 1 → (groupOf s (rg s s.cur o.a.toNat).toNat).kind = 1 →
    Gives (.gsend o) s (fun t => Proceeds s t [] ∧
      Buffers s t (.gsend (rg s s.cur o.a.toNat).toNat o.imm.toNat (rgs s s.cur o.b.toNat 6) 0))) ∧
  (∀ (o : OpE) (s : State), Issues (.gsend o) s → FreeToAct s → SendRoom s → (ctxOf s s.cur).cooked = none →
    let gid := (rg s s.cur o.a.toNat).toNat
    let e := groupOf s gid
    e.state = 1 → e.kind = 1 → e.members.length + entriesOf s (.core (coreOf s.cur)) ≤ 32 →
    Gives (.gsend o) s (fun t => Proceeds s t [] ∧
      ∃ l, t.messages = s.messages ++ l ∧ (groupOf t gid).inflight = e.inflight + (l.filter (fun m => m.phase = .flying)).length ∧ l.map (fun m => m.msg.dest) = e.members ∧
        ∀ m ∈ l, m.msg.cls = o.imm.toNat ∧ m.msg.payload = rgs s s.cur o.b.toNat 6 ∧ m.msg.group = some gid ∧
          m.home = .core (coreOf s.cur))) ∧
  (∀ (o : OpE) (s : State), Issues (.gsend o) s → (ctxOf s s.cur).cooked = none → unfinished (beginIssue s) s.cur = false →
    ((groupOf s (rg s s.cur o.a.toNat).toNat).state ≠ 1 ∨ (groupOf s (rg s s.cur o.a.toNat).toNat).kind ≠ 1) →
    exec (.gsend o) s = .next (takeTrap (countIssue (.gsend o) (beginIssue s)) s.cur { code := cGroupBusy })) ∧
  (∀ (o : OpE) (s : State), Issues (.gred o) s → FreeToAct s → (ctxOf s s.cur).hmode = false ∨ (ctxOf s s.cur).sendBuf.length < 32 →
    let gid := (rg s s.cur o.a.toNat).toNat
    let e := groupOf s gid
    let w := rg s s.cur o.b.toNat
    let m := memberIndex e (agentOf s s.cur)
    let x : Word := if e.fmt = 4 ∨ e.fmt = 5 ∨ e.fmt = 13 then (w.setWidth 32).setWidth 64 else w
    e.state = 1 → e.kind = 0 → hasGiven s gid m = false →
    Gives (.gred o) s (fun t => Proceeds s t [] ∧
      if (ctxOf s s.cur).hmode = true then Buffers s t (.slice false (groupSlice gid) (.contribute gid m x)) ∧ t.flights = s.flights
      else (groupOf t gid).inflight = e.inflight + 1 ∧ Sends s t 1 false true (groupSlice gid % 2048) (.contribute gid m x))) ∧
  (∀ (o : OpE) (s : State), Issues (.gred o) s → unfinished (beginIssue s) s.cur = false →
    ((groupOf s (rg s s.cur o.a.toNat).toNat).state ≠ 1 ∨ (groupOf s (rg s s.cur o.a.toNat).toNat).kind ≠ 0) →
    exec (.gred o) s = .next (takeTrap (countIssue (.gred o) (beginIssue s)) s.cur { code := cGroupBusy })) ∧
  (∀ (o : OpE) (s : State), Issues (.gdrain o) s →
    ((groupOf s (rg s s.cur o.a.toNat).toNat).inflight = 0 → Gives (.gdrain o) s (fun t => Proceeds s t [])) ∧
    ((groupOf s (rg s s.cur o.a.toNat).toNat).inflight ≠ 0 →
      Gives (.gdrain o) s (fun t => (ctxOf t s.cur).run = .stalled (.groupDrain (rg s s.cur o.a.toNat).toNat) ∧ RegFrame s t [] []))) ∧
  (∀ (o : OpE) (s : State), Issues (.gclose o) s → FreeToAct s → BufferRoom s →
    Gives (.gclose o) s (fun t => Proceeds s t [] ∧ Buffers s t (.gclose (rg s s.cur o.a.toNat).toNat) ∧ t.groups = s.groups)) ∧
  (∀ (o : OpE) (s : State), Issues (.gclose o) s → FreeToAct s → (ctxOf s s.cur).hmode = false →
    let gid := (rg s s.cur o.a.toNat).toNat
    let e := groupOf s gid
    Gives (.gclose o) s (fun t => Proceeds s t [] ∧
      groupOf t gid = (if e.state = 0 then e else if e.inflight = 0 then GroupEntry.reset else { e with state := 2, round := [] }))) ∧
  (∀ (s : State) (id gid m : Nat) (x : Word) (f : Flight Regs), flightOf s id = some f → f.op = .contribute gid m x → mayPerform s f = true →
    let e := groupOf s gid
    e.state = 1 → e.round.length + 1 < e.members.length →
    Gives (.sliceAccess id) s (fun t => MemKept s t ∧ groupOf t gid = { e with inflight := e.inflight - 1, round := e.round ++ [(m, x)] })) ∧
  (∀ (s : State) (id gid m : Nat) (x : Word) (f : Flight Regs), flightOf s id = some f → f.op = .contribute gid m x → mayPerform s f = true →
    let e := { groupOf s gid with inflight := (groupOf s gid).inflight - 1, round := (groupOf s gid).round ++ [(m, x)] }
    e.state = 1 → e.round.length = e.members.length →
    Gives (.sliceAccess id) s (fun t => MemKept s t ∧ groupOf t gid = { e with inflight := e.inflight + 1, round := [] } ∧
      ∃ h ∈ t.flights, h.posted = true ∧ ∃ pa, h.op = .result gid pa (roundResult e))) ∧
  (∀ (s u : State) (id gid pa : Nat) (x : Word) (f : Flight Regs), AtSlice s id f u → f.op = .result gid pa x →
    (∀ i, i < 8 → barsWrite u f.cls (pa + i) = false) →
    Gives (.sliceAccess id) s (fun t => readMem t pa 8 = x.toNat ∧ (∀ a, a < pa ∨ pa + 8 ≤ a → memByte t a = memByte s a) ∧ flightOf t id = none ∧
      ∃ q, t.messages = s.messages ++ [q] ∧ q.msg.cls = 25 ∧ q.msg.dest = (groupOf s gid).root ∧ q.msg.group = some gid ∧
        q.msg.payload = [BitVec.ofNat 64 gid, x, 0, 0, 0, 0]))

/-- Request records (R352 to R354): RQNOTE and RQFLT go to the record's home slice; there RQNOTE answers 0x17 for a slot word that does
not match, 2 for a request that is not admitted or running, 3 for one with pending rows, and otherwise writes the token and the position;
RQFLT faults the request and clears its slot's mask bit. RQSLOT reads a slot table entry. GRLAUNCH and GRSIG go to the scheduler block of the die (R355, R356); records that
are not aligned to 64 fault ALIGN. -/
def Obligations.RequestsAndGraphLaunch : Prop :=
  (∀ (o : OpE) (s u : State) (va pa : Nat) (leaf : Word), Issues (.rqnote o) s → FreeToAct s →
    (rg s s.cur o.a.toNat).toNat % 256 = 0 → sliceTarget (beginIssue s) (rg s s.cur o.a.toNat) 8 = .ok (.phys va pa leaf, u) →
    Gives (.rqnote o) s (fun t => Moves s t [] ∧
      Sends s t 1 true false (leafSlice leaf pa % 2048) (.note pa (rg s s.cur o.b.toNat) (rg s s.cur o.c.toNat) o.d.toNat))) ∧
  (∀ (o : OpE) (s u : State) (va pa : Nat) (leaf : Word), Issues (.rqflt o) s → FreeToAct s →
    (rg s s.cur o.a.toNat).toNat % 256 = 0 → sliceTarget (beginIssue s) (rg s s.cur o.a.toNat) 8 = .ok (.phys va pa leaf, u) →
    Gives (.rqflt o) s (fun t => Moves s t [] ∧
      Sends s t 1 true false (leafSlice leaf pa % 2048) (.flt pa ((rg s s.cur o.b.toNat).setWidth 8) (rg s s.cur o.c.toNat) o.d.toNat))) ∧
  (∀ (o : OpE) (s : State), Issues (.rqslot o) s →
    Gives (.rqslot o) s (fun t => Proceeds s t [] ∧ Sends s t 1 false false
      ((match entryPlace (beginIssue s) (rg s s.cur o.a.toNat).toNat (rg s s.cur o.b.toNat).toNat with | some p => p.2 | none => blockSlice s.cur) % 2048)
      (.slotRead (rg s s.cur o.a.toNat).toNat (rg s s.cur o.b.toNat).toNat o.d.toNat))) ∧
  (∀ (s : State) (pa tok : Nat) (w : Word),
    (slotMatches s pa w = false → noteRecord s pa tok w = (0x17, s)) ∧
    (slotMatches s pa w = true → recGet s pa 0 2 0 ≠ 2 → recGet s pa 0 2 0 ≠ 3 → noteRecord s pa tok w = (2, s)) ∧
    (slotMatches s pa w = true → recGet s pa 0 2 0 = 2 ∨ recGet s pa 0 2 0 = 3 → 0 < recGet s pa 0x50 31 0 → noteRecord s pa tok w = (3, s)) ∧
    (slotMatches s pa w = true → recGet s pa 0 2 0 = 2 ∨ recGet s pa 0 2 0 = 3 → recGet s pa 0x50 31 0 = 0 → tok < 2 ^ 32 →
      let r := noteRecord s pa tok w
      r.1 ≤ 1 ∧ recGet r.2 pa 0 2 0 = (if r.1 = 1 then 4 else 3) ∧ recGet r.2 pa 0x28 31 0 = tok ∧
        recGet r.2 pa 0x20 31 0 = (recGet s pa 0x20 31 0 + 1) % 2 ^ 32 ∧
        (recGet s pa 0x20 63 32 ≤ (recGet s pa 0x20 31 0 + 1) % 2 ^ 32 → r.1 = 1) ∧
        ∀ a, a < pa ∨ pa + 48 ≤ a → memByte r.2 a = memByte s a)) ∧
  (∀ (s u : State) (id pa d : Nat) (tok w : Word) (f : Flight Regs), AtSlice s id f u → f.op = .note pa tok w d →
    (coreAt s (coreOf f.ctx)).killed = false → anyPoison u pa 256 = false → (slotMatches u pa w = true → seqPoison u pa = false) →
    Gives (.sliceAccess id) s (fun t => rg t f.ctx d = (if d = 0 then 0 else BitVec.ofNat 64 (noteRecord u pa (tok.toNat % 2 ^ 32) w).1) ∧
      MemKept (noteRecord u pa (tok.toNat % 2 ^ 32) w).2 t)) ∧
  (∀ (s u : State) (id pa d : Nat) (code : BitVec 8) (w : Word) (f : Flight Regs), AtSlice s id f u → f.op = .flt pa code w d →
    (coreAt s (coreOf f.ctx)).killed = false → anyPoison u pa 256 = false → slotMatches u pa w = true →
    recGet u pa 0 2 0 = 2 ∨ recGet u pa 0 2 0 = 3 → cxlGone u pa = false →
    let v := placeWrite u pa (f.slice + 2048 * f.cls) (bytesOf (setBits (setBits (readMem u pa 8) 15 8 code.toNat) 2 0 5) 8)
    let slot := recGet u pa 0x18 9 0
    let place := slotPlace v (recGet u pa 0x18 15 12) (0x8000 + slot / 8);
    (place = none → Gives (.sliceAccess id) s (fun t => rg t f.ctx d = 0 ∧ recGet t pa 0 2 0 = 5 ∧ recGet t pa 0 15 8 = code.toNat ∧
      ∀ a, a < pa ∨ pa + 8 ≤ a → memByte t a = memByte s a)) ∧
    (∀ b h, place = some (b, h) → b < pa ∨ pa + 8 ≤ b → cxlGone v b = false →
      Gives (.sliceAccess id) s (fun t => rg t f.ctx d = 0 ∧ recGet t pa 0 2 0 = 5 ∧ recGet t pa 0 15 8 = code.toNat ∧
        (∀ i, i < 8 → (memByte t b).getLsbD i = (decide (i ≠ slot % 8) && (memByte s b).getLsbD i)) ∧
        ∀ a, (a < pa ∨ pa + 8 ≤ a) → a ≠ b → memByte t a = memByte s a))) ∧
  (∀ (o : OpE) (s : State), Issues (.grlaunch o) s → FreeToAct s →
    let a := rg s s.cur o.a.toNat
    let b := rg s s.cur o.b.toNat
    a.toNat % 64 = 0 → b.toNat % 8 = 0 →
    Gives (.grlaunch o) s (fun t => Proceeds s t [] ∧ Sends s t 1 false false (blockSlice s.cur % 2048)
      (.grlaunch (walkerAddr s a) (walkerAddr s b) (o.imm.toNat + 1) o.d.toNat))) ∧
  (∀ (o : OpE) (s : State), Issues (.grlaunch o) s → unfinished (beginIssue s) s.cur = false → (rg s s.cur o.a.toNat).toNat % 64 ≠ 0 →
    exec (.grlaunch o) s = .next (takeTrap (countIssue (.grlaunch o) (beginIssue s)) s.cur { code := cAlign, addr := rg s s.cur o.a.toNat })) ∧
  (∀ (o : OpE) (s : State), Issues (.grsig o) s → FreeToAct s → (ctxOf s s.cur).hmode = false →
    Gives (.grsig o) s (fun t => Proceeds s t [] ∧ Sends s t 1 false true (blockSlice s.cur % 2048) (.grsig (rg s s.cur o.a.toNat)))) ∧
  (∀ (o : OpE) (s : State), Issues (.grsig o) s → FreeToAct s → BufferRoom s →
    Gives (.grsig o) s (fun t => Proceeds s t [] ∧
      Buffers s t (.slice false (blockSlice s.cur) (.grsig (rg s s.cur o.a.toNat)))))

/-! ### At the home slices -/

/-- SLICE_ACCESS performs one access at its home slice: a slice operation returns the old value and writes the new one (R239), a load returns
memory's bytes, a store writes its bytes and is performed, conditional writes happen only when every tracked stamp still stands, and raise each line's stamp once (R239,
R288, R295). POSTED_STORE_ACK ends a performed store; AGG_FLUSH sends the oldest sum (R292, R294). -/
def Obligations.SlicePerformance : Prop :=
  (∀ (s u : State) (id pa w op d : Nat) (val cmp : Word) (f : Flight Regs), AtSlice s id f u → f.op = .rmw pa w op val cmp d →
    f.posted = false → w = 32 ∨ w = 64 → barsWrite u f.cls pa = false → (coreAt s (coreOf f.ctx)).killed = false →
    (d ≠ 0 → anyPoison u pa (w / 8) = false) →
    let old := BitVec.ofNat w (readMem s pa (w / 8))
    Gives (.sliceAccess id) s (fun t => rg t f.ctx d = (if d = 0 then 0 else old.signExtend 64) ∧
      BitVec.ofNat w (readMem t pa (w / 8)) = rmwNew w op old (val.setWidth w) (cmp.setWidth w) ∧
      ∀ a, a < pa ∨ pa + w / 8 ≤ a → memByte t a = memByte s a)) ∧
  (∀ (s u : State) (id pa n d : Nat) (sx : Bool) (f : Flight Regs), AtSlice s id f u → f.op = .tracked pa n sx d → anyPoison u pa n = false →
    (ctxOf s f.ctx).writeLog = [] →
    (coreAt s (coreOf f.ctx)).killed = false →
    Gives (.sliceAccess id) s (fun t => MemKept s t ∧
      rg t f.ctx d = (if d = 0 then 0 else if n = 0 then 0 else
        if sx then (BitVec.ofNat (8 * n) (readMem s pa n)).signExtend 64 else (BitVec.ofNat (8 * n) (readMem s pa n)).setWidth 64) ∧
      ∃ e ∈ (ctxOf t f.ctx).track, e.line = pa / 256)) ∧
  (∀ (s u : State) (id pa n d : Nat) (sx : Bool) (f : Flight Regs), AtSlice s id f u → f.op = .load pa n sx d →
    anyPoison u pa n = false → (coreAt s (coreOf f.ctx)).killed = false →
    Gives (.sliceAccess id) s (fun t => MemKept (fillLine u (coreOf f.ctx) (pa / 32) (f.slice + 2048 * f.cls) true) t ∧
      rg t f.ctx d = (if d = 0 then 0 else extended n sx (readMem s pa n)))) ∧
  (∀ (s u : State) (id pa : Nat) (data : List Byte) (first : Option Nat) (f : Flight Regs), AtSlice s id f u → f.op = .write pa data first → f.posted = true → f.ctx < 65536 →
    (∀ i, i < data.length → barsWrite u f.cls (pa + i) = false) →
    Gives (.sliceAccess id) s (fun t => (∀ i, i < data.length → memByte t (pa + i) = data.getD i 0) ∧
      (∀ a, a < pa ∨ pa + data.length ≤ a → memByte t a = memByte s a) ∧ ∃ g ∈ t.flights, g.id = id ∧ g.done = true)) ∧
  (∀ (s u : State) (id d : Nat) (ts : List (Nat × Word)) (f : Flight Regs), AtSlice s id f u → f.op = .cmls ts d →
    (∀ p ∈ ts, barsWrite u f.cls p.1 = false) → (coreAt s (coreOf f.ctx)).killed = false →
    ((∀ p ∈ ts, ∃ e ∈ (ctxOf s f.ctx).track, e.line = p.1 / 256 ∧ e.broken = false ∧ e.stamp = stampOf s p.1) →
      (ts.map (·.1)).Pairwise (fun a b => a + 8 ≤ b ∨ b + 8 ≤ a) →
      Gives (.sliceAccess id) s (fun t => rg t f.ctx d = 0 ∧ (ctxOf t f.ctx).track = [] ∧ (∀ p ∈ ts, readMem t p.1 8 = p.2.toNat) ∧
        (∀ a, (∀ p ∈ ts, a < p.1 ∨ p.1 + 8 ≤ a) → memByte t a = memByte s a) ∧ (∀ p ∈ ts, stampOf t p.1 = stampOf s p.1 + 1) ∧
        ∀ a, (∀ p ∈ ts, p.1 / 256 ≠ a / 256) → stampOf t a = stampOf s a)) ∧
    ((∃ p ∈ ts, ∀ e ∈ (ctxOf s f.ctx).track, e.line = p.1 / 256 → e.broken = true ∨ e.stamp ≠ stampOf s p.1) →
      Gives (.sliceAccess id) s (fun t => MemKept s t ∧ rg t f.ctx d = (if d = 0 then 0 else 1) ∧ (ctxOf t f.ctx).track = []))) ∧
  (∀ (s : State) (id : Nat) (f : Flight Regs), flightOf s id = some f → f.done = true → f.posted = true →
    (f.back ≤ s.cycle → Gives (.postedStoreAck id) s (fun t => MemKept s t ∧ t.flights = s.flights.filter (fun g => g.id ≠ f.id) ∧ t.cores = s.cores ∧
      ∀ c r, rg t c r = rg s c r)) ∧
    (s.cycle < f.back → exec (.postedStoreAck id) s = .next s)) ∧
  (∀ (s : State) (k : Nat) (e : Nat × Nat × Word × Nat) (l : List (Nat × Nat × Word × Nat)), (coreAt s k).agg = e :: l → e.2.2.2 ≤ s.cycle →
    aggRoom s k [e] = true → e.1 < aggAbroad → (∀ a ∈ linesOf e.1 8, lineOf s k a = none) →
    Gives (.aggFlush k) s (fun t => Outside s t [] ∧ (coreAt t k).agg = l ∧
      ∃ f, t.flights = s.flights ++ [f] ∧ f.posted = true ∧ f.slice = e.2.1 % 2048 ∧ f.op = .rmw e.1 64 0 e.2.2.1 0 0))

/-- CELL_WRITE writes a new cell, which is then allocated, or one word of an allocated cell (R306, R307); a CSET of a free cell is reported
BAD-REF and writes nothing, and so is one of a region that is barred (R113, R120). LINK_SWAP puts a reference into an empty slot; a slot that holds one is emptied and freed, and the two
references go on as a pair (R33, R308). RESERVOIR_REFILL draws free items, which stand in the reservoir once they have come from their
slices (R12, R103, R304). -/
def Obligations.CellsAtSlices : Prop :=
  (∀ (s : State) (id a pa : Nat) (ws : List Word) (f : Flight Regs), flightOf s id = some f → mayPerform s f = true → f.op = .cell a pa ws →
    netBarred s a pa = none →
    Gives (.cellWrite id) s (fun t => itemState t false a = .live ∧ (∀ i, i < ws.length → readMem t (pa + 8 * i) 8 = (ws.getD i 0).toNat) ∧
      ∀ b, b < pa ∨ pa + 8 * ws.length ≤ b → memByte t b = memByte s b)) ∧
  (∀ (s : State) (id pa w : Nat) (r x : Word) (f : Flight Regs), flightOf s id = some f → mayPerform s f = true → f.op = .cset r pa w x →
    netBarred s (refAddr r) pa = none → itemState s false (refAddr r) ≠ .free → itemState s false (refAddr r) ≠ .heldBack →
    heapAt s.cellHeaps (refAddr r) ≠ none → (reachL2 s (.flight f.id) f.slice (pa + 8 * w) 8 f.cls true).1 = true →
    cxlGone s (pa + 8 * w) = false →
    Gives (.cellWrite id) s (fun t => readMem t (pa + 8 * w) 8 = x.toNat ∧
      ∀ b, b < pa + 8 * w ∨ pa + 8 * w + 8 ≤ b → memByte t b = memByte s b)) ∧
  (∀ (s : State) (id pa w : Nat) (r x : Word) (f : Flight Regs), flightOf s id = some f → mayPerform s f = true → f.op = .cset r pa w x →
    netBarred s (refAddr r) pa ≠ none ∨ itemState s false (refAddr r) = .free ∨ itemState s false (refAddr r) = .heldBack ∨
      heapAt s.cellHeaps (refAddr r) = none → Gives (.cellWrite id) s (fun t => MemKept s t ∧
        (netBarred s (refAddr r) pa = none → f.ctx < 65536 → (dieAt s (dieOf (vertexOf (coreOf f.ctx)))).faultQueue.length < 256 →
          (dieAt t (dieOf (vertexOf (coreOf f.ctx)))).faultQueue = (dieAt s (dieOf (vertexOf (coreOf f.ctx)))).faultQueue ++
            [recordWords cBadRef 0 0 false false (agentOf s f.ctx) f.pc r 0 0 0 0]))) ∧
  (∀ (s : State) (id pa : Nat) (r x : Word) (f : Flight Regs), flightOf s id = some f → mayPerform s f = true → f.op = .link r pa x →
    netBarred s (refAddr r) pa = none → itemState s true (refAddr r) ≠ .free → heapAt s.wireHeaps (refAddr r) ≠ none → isPoisoned s pa = false →
    (reachL2 s (.flight f.id) f.slice pa 8 f.cls true).1 = true →
    (readMem s pa 8 = 0 → Gives (.linkSwap id) s (fun t => readMem t pa 8 = x.toNat ∧ itemState t true (refAddr r) = .live ∧
      t.messages = s.messages)) ∧
    (readMem s pa 8 ≠ 0 → refOk (BitVec.ofNat 64 (readMem s pa 8)) = true → refKind (BitVec.ofNat 64 (readMem s pa 8)) ≠ 2 → refKind x ≠ 2 →
      Gives (.linkSwap id) s (fun t => readMem t pa 8 = 0 ∧ itemState t true (refAddr r) = .free ∧
        ∃ m p, t.messages = s.messages ++ [m] ∧ m.msg.pair = some p ∧ m.home = .vertex (sliceVertex f.slice) ∧
          ((p.first = BitVec.ofNat 64 (readMem s pa 8) ∧ p.second = x) ∨ (p.first = x ∧ p.second = BitVec.ofNat 64 (readMem s pa 8)))))) ∧
  (∀ (s : State) (id : Nat) (p : PairRef) (f : Flight Regs), flightOf s id = some f → mayPerform s f = true → f.op = .push p →
    canPush s (coreOf f.ctx) 1 = true → (coreAt s (coreOf f.ctx)).deque.length < 256 →
    Gives (.linkSwap id) s (fun t => (coreAt t (coreOf f.ctx)).deque =
      (coreAt s (coreOf f.ctx)).deque ++ [formPair s p.first p.second f.net] ∧ flightOf t id = none)) ∧
  (∀ (s : State) (k h n : Nat) (wire : Bool) (r : List (Bool × Nat × Nat)), (coreAt s k).requests = (wire, h, n) :: r →
    (∀ e ∈ (coreAt s k).arriving, s.cycle < e.2) → 0 < kindRoom s k wire →
    Gives (.reservoirRefill k) s (fun t => (coreAt t k).requests = r ∧ (coreAt t k).reservoir = (coreAt s k).reservoir ∧
      ∃ (l : List Nat) (due : Nat), (coreAt t k).arriving = (coreAt s k).arriving ++ l.map (fun a => ((wire, h, a), due)) ∧ s.cycle ≤ due ∧
        l.length = min (min n (kindRoom s k wire)) ((match heapOf s wire h with | some p => freeItems s wire p | none => []).filterMap (placeKey s (vertexOf k))).dedup.length ∧
        ∀ a ∈ l, itemState s wire a = .free ∧ itemState t wire a = .drawn)) ∧
  (∀ (s : State) (k due : Nat) (e : Bool × Nat × Nat), (coreAt s k).arriving = [(e, due)] → due ≤ s.cycle →
    Gives (.reservoirRefill k) s (fun t => Outside s t [] ∧ (coreAt t k).arriving = [] ∧ (coreAt t k).reservoir = (coreAt s k).reservoir ++ [e]))

/-- Misses, walks and errors (R91, R92, R96, R97, R112): a line arrives with memory's bytes and its waiting contexts go on; a held miss goes
to the channel and its sectors arrive; a walk goes down one level, or its leaf enters both TLBs; a token walk fills the cache or keeps
its fault, TOKEN-NONE for an orphaned region (R120 names no code: the model's choice, log 97); an uncorrectable error marks its sector. -/
def Obligations.FillsAndWalks : Prop :=
  (∀ (s : State) (k l : Nat) (f : Fill), (coreAt s k).fills.find? (fun f => f.line = l && f.due ≤ s.cycle && !(fillHeld s f)) = some f →
    (f.stale = true → Gives (.lineFill k l) s (fun t => Outside s t [] ∧ lineOf t k l = lineOf s k l ∧
      (coreAt t k).fills = removeFirst (fun g => g = f) (coreAt s k).fills)) ∧
    (f.stale = false → (reachL2 s (.fill k l) (f.home % 2048) (32 * l) 32 (f.home / 2048) false).1 = true →
      (f.l2 = true → Gives (.lineFill k l) s (fun t => Outside s t [] ∧ lineOf t k l = lineOf s k l)) ∧
      (f.l2 = false → lineOf s k l = none →
        Gives (.lineFill k l) s (fun t => (∃ x, lineOf t k l = some x ∧ x.data = BitVec.ofNat 256 (readMem s (32 * l) 32) ∧ x.peeked = f.peeked ∧
            x.dirty = false) ∧
          ∀ i, i < 8 → (ctxOf s (8 * k + i)).run = .stalled (.fill l) → (ctxOf t (8 * k + i)).run = .ready)))) ∧
  (∀ (s : State) (k l due home : Nat), (coreAt s k).fetches.find? (fun f => f.1 = l) = some (l, due, home) → due ≤ s.cycle →
    (reachL2 s (.fetch k l) (home % 2048) (32 * l) 32 4 false).1 = true →
    Gives (.instructionFetchFill k l) s (fun t =>
      (∃ b n, sget none (coreAt t k).icache l = some (BitVec.ofNat 256 (readMem s (32 * l) 32), b, n)) ∧
      ∀ i, i < 8 → (ctxOf s (8 * k + i)).run = .stalled (.fetch l) → (ctxOf t (8 * k + i)).run = .ready)) ∧
  (∀ (s : State) (i : Nat) (m : Miss) (r : List Miss), (sliceAt s i).misses = m :: r → m.due ≤ s.cycle → m.sent = false →
    Gives (.l2ChannelCommand i m.line) s (fun t => Outside s t [] ∧
      (sliceAt t i).misses = { m with sent := true, due := s.cycle + channelTime s i m.line } :: r)) ∧
  (∀ (s : State) (i : Nat) (m : Miss) (r : List Miss) (y : L2Line), (sliceAt s i).misses = m :: r → m.due ≤ s.cycle → m.sent = true →
    findWay (waysOf (sliceAt s i) (l2Set m.line)) m.line = some y →
    Gives (.sectorArrival i m.line) s (fun t => Outside s t [] ∧ (sliceAt t i).misses = r ∧
      findWay (waysOf (sliceAt t i) (l2Set m.line)) m.line = some { y with valid := y.valid ||| m.sectors, owed := y.owed ++ m.joined })) ∧
  (∀ (s : State) (v c va l table : Nat) (r : List (Nat × Nat × Nat × Nat)), (clusterAt s v).walks = (c, va, l, table) :: r → c ≠ engineKey v →
    (∀ p ∈ (coreAt s (coreOf c)).prefs, ¬(p.1 = va ∧ p.2.1 = c)) →
    (clusterAt s v).walkDue ≤ s.cycle → isPoisoned s (entryAddr table l va) = false →
    (reachL2 s (.walk v) (homeSlice true 0 (entryAddr table l va)) (entryAddr table l va) 8 4 false).1 = true →
    (∀ next, readEntry s l va (readMem s (entryAddr table l va) 8) = .ok next →
      Gives (.pageWalkRead v) s (fun t => Outside s t [] ∧ (clusterAt t v).walks = (c, va, l + 1, next) :: r)) ∧
    (∀ page n pte, (coreAt s (coreOf c)).killed = false → readEntry s l va (readMem s (entryAddr table l va) 8) = .error (.leaf page n pte) →
      Gives (.pageWalkRead v) s (fun t => Outside s t [] ∧ (clusterAt t v).walks = r ∧
        { page := page, lsize := n, leaf := pte } ∈ (coreAt t (coreOf c)).tlb ∧ { page := page, lsize := n, leaf := pte } ∈ (clusterAt t (vertOf c)).tlb ∧
        ((ctxOf s c).run = .stalled (.walk va) → (ctxOf t c).run = .ready))) ∧
    (∀ code, readEntry s l va (readMem s (entryAddr table l va) 8) = .error (.fault code) → (ctxOf s c).run = .stalled (.walk va) →
      Gives (.pageWalkRead v) s (fun t => Outside s t [] ∧ (clusterAt t v).walks = r ∧ (ctxOf t c).run = .ready ∧ (va, code) ∈ (ctxOf t c).walkFails))) ∧
  (∀ (s : State) (c va path due : Nat), (ctxOf s c).run = .stalled (.tokenWalk va path due) → due ≤ s.cycle →
    (∀ k, tokenProbe s va = some k → barred s k = none → k.mode = .exclusive → holdsToken s (holderWords s c path) (graphOfCtx s c) k = true →
      Gives (.tokenWalk c) s (fun t => Outside s t [] ∧ (ctxOf t c).run = .ready ∧ ∃ e ∈ (coreAt t (coreOf c)).tokenCache, e.ctx = tokenTag c path ∧ e.base = k.base ∧
        e.lsize = k.lsize ∧ e.mode = .exclusive ∧ e.holds = true)) ∧
    (tokenProbe s va = none → Gives (.tokenWalk c) s (fun t => Outside s t [] ∧ (ctxOf t c).run = .ready ∧ (va, cTokenNone, 0) ∈ (ctxOf t c).tokenFails)) ∧
    (∀ k, tokenProbe s va = some k → k.taint = true ∨ orphaned s k = true →
      Gives (.tokenWalk c) s (fun t => Outside s t [] ∧ (ctxOf t c).run = .ready ∧
        (va, if k.taint then cTainted else cTokenNone, k.xfer) ∈ (ctxOf t c).tokenFails))) ∧
  (∀ (s : State) (pa : Nat), backed s pa = true → sget false s.poisoned (pa / 32) = false →
    Gives (.uncorrectableError pa) s (fun t => Outside s t [] ∧ isPoisoned t pa = true ∧ t.statPoison = s.statPoison + 1 ∧ MemKept s t))

/-! ### Waiting contexts, engines -/

/-- Contexts that wait go on (R80, R140, R143, R188, R213): at a group end when the last result is back, unless a stop was asked for; at a
queue, a neighbour register, an instruction that may be tried again, or an output that the trailing copy has produced. One that may not go
on stays as it is. Limits that run out (R143, R147, R194, R323): a handler's budget faults BUDGET at its parked instruction, a gang
member's stops the member and asks for the gang's pre-emption; the watchdog stops its context at the group end, and is reported; a CHOPEN that
waited 2^20 cycles faults. That an instruction which waits is tried again (log 84), that a WAITB cut off by BUDGET takes its bit off the
barrier (log 71), and that the lockstep event carries whether the copies agree (log 24) are the model's choices. -/
def Obligations.WaitsAndLimits : Prop :=
  (∀ (s : State) (c : Nat), (ctxOf s c).run = .groupEnd → returning s c = false → (ctxOf s c).readyAt ≤ s.cycle → (ctxOf s c).stopWhy = none →
    exec (.contextReady c) s = .next (modCtx s c (fun y => { y with run := .ready }))) ∧
  (∀ (s : State) (c : Nat), (ctxOf s c).run = .groupEnd → returning s c = false → (ctxOf s c).readyAt ≤ s.cycle → (ctxOf s c).stopWhy ≠ none →
    Gives (.contextReady c) s (fun t => Outside s t [] ∧ (ctxOf t c).run = .stopped ∧ (ctxOf t c).pc = (ctxOf s c).pc)) ∧
  (∀ (s : State) (c : Nat), (ctxOf s c).run = .groupEnd → (returning s c = true ∨ s.cycle < (ctxOf s c).readyAt) →
    exec (.contextReady c) s = .next s) ∧
  (∀ (s : State) (c : Nat) (w : Stall), (ctxOf s c).run = .stalled w → retries s c w = true →
    Gives (.contextReady c) s (fun t => Outside s t [] ∧ (ctxOf t c).run = .ready ∧ (ctxOf t c).pc = (ctxOf s c).pc ∧ (ctxOf t c).regs = (ctxOf s c).regs)) ∧
  (∀ (s : State) (c j q : Nat) (w : Stall) (go : Prop),
    let k := coreOf c
    let lost := (coreAt s (if isExecute k then accessOf k else q)).killed = true ∨ (coreAt s q).queuesLost.contains branchPort = true
    (w, go) ∈ [(Stall.qPop j, (queueLost s k j = true ∨ qInOf s k j ≠ []) ∧ popAhead { s with cur := c } [j] = false),
      (.qPush j, queueLost s k j = true ∨ (qOutOf s k j).length < 16),
      (.branchPop q, lost ∨ boqOf s q (!(isExecute k)) ≠ []), (.branchPush q, lost ∨ (boqOf s q (isExecute k)).length < 32)] →
    (ctxOf s c).run = .stalled w →
    (go → exec (.dataQueueResume c) s = .next (modCtx s c (fun x => { x with run := .ready }))) ∧
    (¬go → exec (.dataQueueResume c) s = .next s)) ∧
  (∀ (s : State) (c j : Nat), (ctxOf s c).run = .stalled (.nRead j) → j < 4 →
    let k := coreOf c
    let first := ((List.range 8).map (fun i => 8 * k + ((coreAt s k).turn + 1 + i) % 8)).find? (fun d => (ctxOf s d).run = .stalled (.nRead j))
    ((coreAt s k).npres.getLsbD j = true → first = some c → exec (.neighbourResume c) s = .next (modCtx s c (fun x => { x with run := .ready }))) ∧
    ((coreAt s k).npres.getLsbD j = false ∨ first ≠ some c → (coreAt s (feederOf k j)).killed = false → exec (.neighbourResume c) s = .next s)) ∧
  (∀ (s : State) (c k since : Nat) (o : OpE) (x : Word), (ctxOf s c).run = .stalled (.nWrite k o x since) → (coreAt s k).killed = false →
    let j := o.imm.toNat % 4
    ((coreAt s k).npres.getLsbD j = false → (∀ e ∈ putsWaiting s (coreOf c) k j, since ≤ e.1) →
      Gives (.neighbourResume c) s (fun t => MemKept s t ∧ (ctxOf t c).pc = (ctxOf s c).pc + 8 ∧ sget 0 (coreAt t k).n j = x ∧
        (coreAt t k).npres.getLsbD j = true)) ∧
    ((coreAt s k).npres.getLsbD j = true ∨ (∃ e ∈ putsWaiting s (coreOf c) k j, e.1 < since) → exec (.neighbourResume c) s = .next s)) ∧
  (∀ (s : State) (c : Nat), (ctxOf s c).lockstep = true → (ctxOf s c).run = .stalled .lockstep → (ctxOf s c).heldUntil ≤ s.cycle →
    exec (.lockstepOutput c true) s = .next (modCtx s c (fun y => { y with run := .ready, lockPass := true }))) ∧
  (∀ (s : State) (c : Nat), (ctxOf s c).lockstep = true → (ctxOf s c).run = .stalled .lockstep → (ctxOf s c).heldUntil ≤ s.cycle →
    let d := dieOf (vertexOf (coreOf c))
    Gives (.lockstepOutput c false) s (fun t => Outside s t [c] ∧ (ctxOf t c).run = .trapped ∧ (ctxOf t (partnerOf c)).run = .stopped ∧
      (ctxOf t c).sendBuf = [] ∧ ((dieAt s d).faultQueue.length < 256 → (dieAt t d).faultQueue = (dieAt s d).faultQueue ++
        [recordWords cLockstep 3 0 false false (agentOf s c) (ctxOf s c).pc (outputAddr s c) 0 0 0 0]))) ∧
  (∀ (s : State) (k due : Nat) (x : Option Vec) (l : List (Nat × Option Vec)), (coreAt s k).portIn = (due, x) :: l → due ≤ s.cycle →
    exec (.chordWordArrival k) s = .next (modCore s k (fun y => { y with port := y.port ++ [x], portIn := l }))) ∧
  (∀ (s : State) (c e : Nat) (w : Stall), (ctxOf s c).budgetEnd = some e → e ≤ s.cycle → (ctxOf s c).hmode = true →
    (ctxOf s c).run = .stalled w → w ≠ .transfer → budgetWaits s c = false →
    exec (.budgetExpiry c) s = .next (takeTrap (dropWaiter (if (ctxOf s c).tried then countEvent s c else s) c) c { code := cBudget })) ∧
  (∀ (s : State) (c e : Nat), (ctxOf s c).budgetEnd = some e → e ≤ s.cycle → (ctxOf s c).hmode = true → (ctxOf s c).run = .groupEnd →
    ((returning s c = false → (ctxOf s c).readyAt ≤ s.cycle → exec (.budgetExpiry c) s = .next (takeTrap s c { code := cBudget })) ∧
    (returning s c = true ∨ s.cycle < (ctxOf s c).readyAt → exec (.budgetExpiry c) s = .next s))) ∧
  (∀ (s : State) (c e : Nat), (ctxOf s c).budgetEnd = some e → s.cycle < e → exec (.budgetExpiry c) s = .next s) ∧
  (∀ (s : State) (c e g : Nat) (y : Gang), (ctxOf s c).budgetEnd = some e → e ≤ s.cycle → (ctxOf s c).hmode = false → (ctxOf s c).gang = some g →
    sget none s.gangs g = some y → (ctxOf s c).run = .ready →
    Gives (.budgetExpiry c) s (fun t => Outside s t [c] ∧ sget none t.gangs g = some { y with preempt := true } ∧ (ctxOf t c).run = .preempted)) ∧
  (∀ (s : State) (c w : Nat), (ctxOf s c).watchdog = some w → w ≤ s.cycle →
    let d := dieOf (vertexOf (coreOf c));
    ((ctxOf s c).run = .groupEnd → Gives (.watchdogExpiry c) s (fun t => Outside s t [] ∧ (ctxOf t c).run = .stopped ∧ (ctxOf t c).watchdog = none ∧
      ((ctxOf s c).slot = none → (dieAt s d).faultQueue.length < 256 → (dieAt t d).faultQueue = (dieAt s d).faultQueue ++
        [recordWords cWatchdog 5 0 (ctxOf s c).cip (ctxOf s c).hmode (agentOf s c) (ctxOf s c).pc 0 0 0 0 0]))) ∧
    ((ctxOf s c).run = .ready → (ctxOf s c).group.len ≠ 0 →
      Gives (.watchdogExpiry c) s (fun t => Outside s t [] ∧ (ctxOf t c).run = .ready ∧ (ctxOf t c).stopWhy = some true ∧ (ctxOf t c).watchdog = none))) ∧
  (∀ (s : State) (c since dest : Nat), (ctxOf s c).run = .stalled (.chordOpen since dest) → since + 2 ^ 20 ≤ s.cycle → unfinished s c = false →
    exec (.chordTimeout c) s = .next (takeTrap (countEvent s c) c { code := cChordTimeout })) ∧
  (∀ (s : State) (c since dest : Nat), (ctxOf s c).run = .stalled (.chordOpen since dest) → s.cycle < since + 2 ^ 20 →
    exec (.chordTimeout c) s = .next s)

/-- The engines move (R66 to R68, R145, R330, R340 to R345): a line of each transfer is read and written, at most eight lines of a cluster a
cycle; a delivery lowers its barrier and, at or below zero, wakes the WAITBs that stand there; a lattice job starts when its segments are
free or kept, and makes them busy; it ends with its code and its sums in its rows, its segments kept when it drains nothing, draining
otherwise, those of rows that streamed as zero free. The job's vectors are read when it ends (log 111); its end with POISON is the model's
choice (log 126). -/
def Obligations.EnginesMove : Prop :=
  (∀ (s u : State) (v n pd : Nat) (y : Transfer) (dst src : Word) (q : Bool) (x : BitVec 256), EngineTurn s v y → y.op = .bulk dst src n q →
    engineRead s v y.id (src + BitVec.ofNat 64 (32 * y.step)) = .ok (x, u) → EngineWrites u v y.id (dst + BitVec.ofNat 64 (32 * y.step)) pd →
    Gives (.accessTransferLine v) s (fun t => readMem t pd 32 = x.toNat ∧ LineFrame s t pd ∧
      (clusterAt t v).engine = (s.cycle, 1) ∧ (n ≤ y.step + 1 → y.owed = [] → (clusterAt t v).transfers = []) ∧
      (y.step + 1 < n → (clusterAt t v).transfers = [{ y with step := y.step + 1 }]))) ∧
  (∀ (s w u : State) (v id va pa : Nat) (ea leaf : Word), enginePlace s v ea false = .ok (.phys va pa leaf, w) →
    reachL2 w (.engine v id) (leafSlice leaf pa) pa 32 (leafClass leaf) false = (true, u) → isPoisoned u pa = false →
    engineRead s v id ea = .ok (BitVec.ofNat 256 (readMem u pa 32), u)) ∧
  (∀ (s u : State) (v n : Nat) (y : Transfer) (src : Word) (dst : Place) (x : BitVec 256), EngineTurn s v y → y.op = .tload src dst n →
    engineRead s v y.id (src + BitVec.ofNat 64 (32 * y.step)) = .ok (x, u) → vertOf y.ctx = v → (ctxOf u y.ctx).lockstep = false →
    Gives (.accessTransferLine v) s (fun t => MemKept s t ∧
      (∀ core tile row, dst = .tile core tile row → tileRow t (16 * v + core) tile (row + y.step) = x) ∧
      (∀ o, dst = .stream o → ∀ i, i < 32 → sget 0 (clusterAt t v).stream (o + 32 * y.step + i) = x.extractLsb' (8 * i) 8) ∧
      (y.step + 1 < n → (clusterAt t v).transfers = [{ y with step := y.step + 1, owed := if y.barrier = 0 then [] else y.owed ++ [32] }]))) ∧
  (∀ (s u : State) (v i : Nat) (y : Transfer) (dst base idx : Word) (port : Option (Nat × Nat)) (x : BitVec 256), EngineTurn s v y → y.op = .gather dst base idx port →
    (y.step = i → i < 2 → engineRead s v y.id (idx + BitVec.ofNat 64 (32 * i)) = .ok (x, u) →
      Gives (.accessTransferLine v) s (fun t => MemKept s t ∧ (clusterAt t v).transfers = [{ y with step := i + 1, idx := y.idx ++ lineWords x }])) ∧
    (let lines := distinct ((laneList base y.idx).map lineBase);
      y.step = i + 2 → i < lines.length → engineRead s v y.id (lines.getD i 0) = .ok (x, u) →
      Gives (.accessTransferLine v) s (fun t => MemKept s t ∧
        (clusterAt t v).transfers = [{ y with step := i + 3, got := y.got ++ [(lines.getD i 0, x)] }])) ∧
    (∀ pd, port = none → y.step = (distinct ((laneList base y.idx).map lineBase)).length + 2 + i → i < 2 → y.idx.length = 16 →
      EngineWrites s v y.id (dst + BitVec.ofNat 64 (32 * i)) pd →
      Gives (.accessTransferLine v) s (fun t => LineFrame s t pd ∧ ∀ m, m < 8 →
        let a := base + BitVec.ofInt 64 (4 * (BitVec.ofNat 32 (y.idx.getD (8 * i + m) 0)).toInt)
        ∀ e, y.got.find? (fun e => e.1 = BitVec.ofNat 64 (a.toNat / 32 * 32)) = some e →
          readMem t (pd + 4 * m) 4 = (e.2.extractLsb' (8 * (a.toNat % 32)) 32).toNat))) ∧
  (∀ (s : State) (v pd : Nat) (y : Transfer) (base data idx line : Word), EngineTurn s v y → y.op = .scatter base data idx → base.toNat % 4 = 0 →
    4 ≤ y.step → y.idx.length = 16 → y.got.length = 2 → line = (distinct ((laneList base y.idx).map lineBase)).getD (y.step - 4) 0 →
    EngineWrites s v y.id line pd →
    let a := fun m => base + BitVec.ofInt 64 (4 * (BitVec.ofNat 32 (y.idx.getD m 0)).toInt)
    Gives (.accessTransferLine v) s (fun t => LineFrame s t pd ∧
      (∀ m, m < 16 → BitVec.ofNat 64 ((a m).toNat / 32 * 32) = line → (∀ k, m < k → k < 16 → a k ≠ a m) →
        readMem t (pd + (a m).toNat % 32) 4 = ((y.got.getD (m / 8) (0, 0)).2.extractLsb' (32 * (m % 8)) 32).toNat) ∧
      ∀ i, i < 32 → (∀ m, m < 16 → BitVec.ofNat 64 ((a m).toNat / 32 * 32) = line → i / 4 ≠ (a m).toNat % 32 / 4) → memByte t (pd + i) = memByte s (pd + i))) ∧
  (∀ (s u : State) (v rows rowLines i : Nat) (y : Transfer) (base idx : Word) (dst : Place) (x : BitVec 256), EngineTurn s v y →
    y.op = .rgather base idx rows rowLines dst → y.step = (idx.toNat % 32 / 4 + rows + 7) / 8 + i → 0 < rowLines →
    let list := (y.idx.drop (idx.toNat % 32 / 4)).take rows
    let row := (distinct list).getD (i / rowLines) 0
    engineRead s v y.id (base + BitVec.ofNat 64 (row * (32 * rowLines)) + BitVec.ofNat 64 (32 * (i % rowLines))) = .ok (x, u) →
    vertOf y.ctx = v → (ctxOf u y.ctx).lockstep = false →
    Gives (.accessTransferLine v) s (fun t => MemKept s t ∧ ∀ p, p < list.length → list.getD p 0 = row →
      (∀ core tile r, dst = .tile core tile r → tileRow t (16 * v + core) tile (r + (p * rowLines + i % rowLines)) = x) ∧
      ∀ o, dst = .stream o → ∀ b, b < 32 → sget 0 (clusterAt t v).stream (o + 32 * (p * rowLines + i % rowLines) + b) = x.extractLsb' (8 * b) 8)) ∧
  (∀ (s : State) (v core port : Nat) (y : Transfer) (ea : Word), EngineTurn s v y →
    (y.op = .qpush ea core port false → y.step = 2 → (coreAt s core).killed = false → (coreAt s core).queuesLost.contains port = false →
      ((qInOf s core port).length < 16 → Gives (.accessTransferLine v) s (fun t => MemKept s t ∧ ∃ x, qInOf t core port = qInOf s core port ++ [x] ∧
        ∀ i, i < 2 → i < y.got.length → x.extractLsb' (256 * i) 256 = (y.got.getD i (0, 0)).2)) ∧
      ((qInOf s core port).length = 16 → Gives (.accessTransferLine v) s (fun t => (clusterAt t v).transfers = [y] ∧ qInOf t core port = qInOf s core port))) ∧
    (y.op = .qpush ea core port true → y.step = 0 → ∀ x l, qOutOf s core port = x :: l →
      Gives (.accessTransferLine v) s (fun t => MemKept s t ∧ qOutOf t core port = l ∧
        (clusterAt t v).transfers = [{ y with step := 1, got := [(0, x.extractLsb' 0 256), (0, x.extractLsb' 256 256)] }])) ∧
    (∀ i pd, y.op = .qpush ea core port true → y.step = i + 1 → i < 2 → EngineWrites s v y.id (ea + BitVec.ofNat 64 (32 * i)) pd →
      Gives (.accessTransferLine v) s (fun t => LineFrame s t pd ∧ readMem t pd 32 = (y.got.getD i (0, 0)).2.toNat))) ∧
  (∀ (s : State) (v : Nat), (clusterAt s v).engine.1 = s.cycle → 8 ≤ (clusterAt s v).engine.2 → exec (.accessTransferLine v) s = .next s) ∧
  (∀ (s u : State) (v n pa : Nat) (y : Transfer) (leaf : Word) (l : List Transfer) (r : List Nat), (clusterAt s v).transfers = y :: l → y.owed = n :: r →
    y.due ≤ s.cycle → y.barrier.toNat / 2 ^ 53 = s.device → engineTranslate s v (y.barrier.toNat % 2 ^ 53) .wr = (.page pa leaf 0, u) →
    (reachL2 u (.engine v y.id) (leafSlice leaf pa) pa 16 (leafClass leaf) true).1 = true → cxlGone s pa = false → anyPoison s pa 16 = false → (∀ i, i < 16 → barsWrite s (leafClass leaf) (pa + i) = false) →
    Gives (.barrierDecrement v) s (fun t => BitVec.ofNat 64 (readMem t pa 8) = BitVec.ofNat 64 (readMem s pa 8) - BitVec.ofNat 64 n ∧
      ((BitVec.ofNat 64 (readMem s pa 8) - BitVec.ofNat 64 n).toInt ≤ 0 → readMem t (pa + 8) 8 = 0 ∧ ((s.flights.map (·.id)).Nodup →
        ∀ i f, i < 64 → nbit (readMem s (pa + 8) 8) i = true → waiterAt s (128 * v + i) pa = some f → (ctxOf s (128 * v + i)).run = .stalled (.barrier pa) →
          (ctxOf t (128 * v + i)).run = .ready ∧ flightOf t f.id = none ∧ s.cycle + 2 * hop (128 * v + i) f.slice + 4 ≤ (ctxOf t (128 * v + i)).readyAt ∧
          (ctxOf t (128 * v + i)).cooked = some (BitVec.ofNat 64 (readMem s pa 8) - BitVec.ofNat 64 n))) ∧
      ((∀ x ∈ l, x.id ≠ y.id) → r ≠ [] → (clusterAt t v).transfers = { y with owed := r } :: l))) ∧
  (∀ (s : State) (v : Nat) (j : LatJob), (clusterAt s v).pending = some j → (clusterAt s v).running = none → j.start.getD 0 ≤ s.cycle →
    (∀ i, i < 8 → segsReady s v i (jobRow j.wordA) (jobV j.wordA) = true) → (clusterAt s v).waiting = [] →
    Gives (.latticeJobStart v) s (fun t => Outside s t [] ∧ (clusterAt t v).running = some { j with start := some s.cycle } ∧ (clusterAt t v).pending = none ∧
      ∀ i, i < 8 → (colOf t v i).active = (if j.wordA.getLsbD 61 then (colOf s v i).shadow else (colOf s v i).active) ∧
        ∀ r, r < jobV j.wordA → (segOf t v i (jobRow j.wordA + r)).state = .busy)) ∧
  (∀ (s : State) (v : Nat) (j : LatJob) (bad : Bool), (clusterAt s v).running = some j → j.start.getD 0 + 18 + jobSpan s v j ≤ s.cycle →
    Gives (.latticeJobEnd v bad) s (fun t => Outside s t [] ∧ (clusterAt t v).running = none ∧
      (∃ d ∈ (clusterAt t v).ended, d.jid = j.jid ∧ d.code = if bad then cResidue else if j.poison then cPoison else 0) ∧
      (j.wordB = 0 → ∀ i r, i < 8 → r < jobV j.wordA → (segOf t v i (jobRow j.wordA + r)).state = .kept) ∧
      (bad = true → ∀ i r, i < 8 → r < jobV j.wordA → (segOf t v i (jobRow j.wordA + r)).poison = true) ∧ MemKept s t)) ∧
  (∀ (s : State) (v i r : Nat) (j : LatJob), (clusterAt s v).running = some j → j.start.getD 0 + 18 + jobSpan s v j ≤ s.cycle → i < 8 → r < jobV j.wordA →
    j.poison = false → (j.wordA.getLsbD 59 = true → (segOf s v i (jobRow j.wordA + r)).poison = false) →
    Gives (.latticeJobEnd v false) s (fun t =>
      let x := segOf t v i (jobRow j.wordA + r)
      x.poison = false ∧
      (j.wordB = 0 ∨ mapZero j r = false → ∀ n, n < 16 → lane x.data 32 n = jobLane s v i j r n) ∧
      (j.wordB ≠ 0 → mapZero j r = true → x.state = .free) ∧
      (j.wordB ≠ 0 → mapZero j r = false → x.state = .draining ∧ x.jid = j.jid ∧ x.started = false ∧ x.since = s.cycle ∧
        x.batch = if jobRagged j.wordA then j.maps.getD r 0 % 1024 else r))) ∧
  (∀ (acc : Nat) (l : List LatVal),
    (LatVal.nan ∈ l ∨ (LatVal.inf false ∈ l ∧ LatVal.inf true ∈ l) → floatColumn acc l = (0x7FC00000, fNV)) ∧
    (∀ b, LatVal.nan ∉ l → LatVal.inf b ∈ l → LatVal.inf (!b) ∉ l → floatColumn acc l = (if b then 0xFF800000 else 0x7F800000, 0)) ∧
    ((∀ p ∈ l, ∃ e, p = .fin 0 e) → floatColumn acc l = (acc, 0)) ∧
    (∀ q : Int, (∀ p ∈ l, ∃ m e, p = .fin m e ∧ (m ≠ 0 → e + bitLen m.natAbs - 61 ≤ q)) → (∃ m e, .fin m e ∈ l ∧ m ≠ 0 ∧ e + bitLen m.natAbs - 61 = q) →
      (floatColumn acc l).1 = floatAfter q acc l))

/-! ### Messages, launches, pairs -/

/-- A message arrives (R137, R139, R203): at a live core with a routine for its class and a free ordinary slot it waits there and its retry
entry is free; a sealed core, a class without a routine and a stale lease refuse it for good, a full inbox refuses it plainly, and so does a trapped or switched-out context that a checked message names. A core that is out of use answers
DEAD-PEER as a sealed one does (the model's choice for a core that start-up put out of use, log 96). A plain
refusal backs off 64 cycles doubling to 8,192 and becomes UNDELIVERABLE after twelve attempts; a notice enters a notice slot. -/
def Obligations.MessageDelivery : Prop :=
  (∀ (s : State) (id i : Nat) (f : MsgFlight), msgOf s id = some f → f.phase = .flying → f.msg.placed = none → agentDevice f.msg.dest = s.device →
    f.msg.cls ≠ 27 → f.due ≤ s.cycle → inOrder s f = true → f.msg.group = none → s.host.waitingLaunches = [] →
    let k := coreOf (agentLocal f.msg.dest)
    arrivalAt s k f.msg = .inl i →
    Gives (.messageArrival id) s (fun t => Outside s t [] ∧ msgOf t id = none ∧ ∃ q, (coreAt t k).inbox = (coreAt s k).inbox ++ [q] ∧ q.index = i ∧ i < 60 ∧
      q.phase = .waiting ∧ q.msg = { f.msg with attempts := f.msg.attempts + 1 })) ∧
  (∀ (s : State) (id code : Nat) (f : MsgFlight), msgOf s id = some f → f.phase = .flying → f.msg.placed = none →
    agentDevice f.msg.dest = s.device → f.msg.cls ≠ 27 → f.due ≤ s.cycle → inOrder s f = true →
    let k := coreOf (agentLocal f.msg.dest)
    arrivalAt s k f.msg = .inr code →
    Gives (.messageArrival id) s (fun t => Outside s t [] ∧ (∃ g, msgOf t id = some g ∧ g.phase = .returning code ∧ g.msg.attempts = f.msg.attempts + 1) ∧
      (coreAt t k).inbox = (coreAt s k).inbox ∧ (coreAt t k).counters.refused = (coreAt s k).counters.refused + 1)) ∧
  (∀ (s : State) (k : Nat) (m : Msg),
    ((coreAt s k).sealed_ = true ∨ (coreAt s k).killed = true ∨ takesWork s k = false → arrivalAt s k m = .inr cDeadPeer) ∧
    (takesWork s k = true → firmwareServes k m.cls = false → serving s k m.cls = none → arrivalAt s k m = .inr cUndeliverable) ∧
    (takesWork s k = true → serving s k m.cls ≠ none → m.checked = true →
      m.lease ≠ (ctxOf s (agentLocal m.dest)).lease → arrivalAt s k m = .inr cStale) ∧
    (takesWork s k = true → serving s k m.cls ≠ none → m.checked = true → m.lease = (ctxOf s (agentLocal m.dest)).lease →
      (ctxOf s (agentLocal m.dest)).run = .trapped ∨ (ctxOf s (agentLocal m.dest)).run = .savedOut → arrivalAt s k m = .inr 0) ∧
    (takesWork s k = true → serving s k m.cls ≠ none → m.checked = false → freeOrdinary s k = none →
      arrivalAt s k m = .inr 0)) ∧
  (∀ (s : State) (id code : Nat) (f : MsgFlight), msgOf s id = some f → f.phase = .returning code → f.due ≤ s.cycle → f.home ≠ .remote →
    Gives (.refusalReturn id) s (fun t => Outside s t [] ∧ ∃ g, msgOf t id = some g ∧
      g.phase = (if code ≠ 0 then .notice code else if f.msg.pair = none ∧ 12 ≤ f.msg.attempts then .notice cUndeliverable
        else .backoff (s.cycle + min (64 * 2 ^ (f.msg.attempts - 1)) 8192)))) ∧
  (∀ (s : State) (id due : Nat) (f : MsgFlight), msgOf s id = some f → f.phase = .backoff due → due ≤ s.cycle → f.home ≠ .host →
    Gives (.messageRetry id) s (fun t => Outside s t [] ∧ ∃ g, msgOf t id = some g ∧ g.phase = .flying ∧ g.msg = f.msg)) ∧
  (∀ (s : State) (id code k i : Nat) (f : MsgFlight), msgOf s id = some f → f.phase = .notice code → f.due ≤ s.cycle → f.msg.fromHost = false →
    agentDevice f.msg.sender = s.device →
    noticeCore s f.msg.sender (if code = cDeadPeer then 28 else 29) = some k → freeNotice s k = some i →
    Gives (.noticeDelivery id) s (fun t => Outside s t [] ∧ msgOf t id = none ∧ ∃ q, (coreAt t k).inbox = (coreAt s k).inbox ++ [q] ∧ q.index = i ∧ 60 ≤ i ∧
      q.phase = .waiting ∧ q.msg.cls = (if code = cDeadPeer then 28 else 29) ∧
      q.msg.payload = BitVec.ofNat 64 (code * 2 ^ 56 + f.msg.msgid.toNat * 2 ^ 27 + f.msg.dest) :: f.msg.payload.take 5))

/-- Launches and the selector (R86, R126, R183 to R187): a launch starts the lowest idle context of its core with its argument words in g1 and
g2, or waits in a slot; one that waits starts when a context is idle, and one that the apex firmware sends to a context it holds reserved
starts there (R184). The selector takes, of the ready routines that neither the hold register nor the hmask of a running one holds, the
one of highest priority, of equals the first from last + 1 on, and starts its handler on the lowest idle context that has a candidate,
with its account and budget (R86, R126, R147); a committed handler's oldest send-buffer entry leaves, and after the last the context is idle; a placed item is taken by the
first core of a vertex that its route has reached, or goes on to the next vertex; at its locus it joins the inbox of the core with the
most free slots, the lowest of equals (R186). -/
def Obligations.Starts : Prop :=
  (∀ (s : State) (c j : Nat), chooseRoutine s c = some j →
    let k := coreOf c
    let w := routineAt s k
    let turn := fun i => (i + 15 - (coreAt s k).last % 16) % 16
    j < 16 ∧ routineValid (w j) = true ∧
      ((coreAt s k).heldAt ≠ s.cycle + 1 → nbit (coreAt s k).hold.toNat j = false ∧
        ∀ i, i < 8 → (ctxOf s (8 * k + i)).hmode = true → (ctxOf s (8 * k + i)).run ≠ .idle → (ctxOf s (8 * k + i)).run ≠ .reserved →
          nbit (routineHmask (w (ctxOf s (8 * k + i)).routine)) j = false) ∧
      (routineClass (w j) ≠ 30 → ∃ q ∈ (coreAt s k).inbox, q.msg.cls = routineClass (w j) ∧ q.phase = .waiting ∧ q.since < s.cycle ∧
        (q.msg.checked = true → agentLocal q.msg.dest = c)) ∧
      ∀ i, i < 16 → hasWork s c i = true → routinePrio (w i) < routinePrio (w j) ∨
        (routinePrio (w i) = routinePrio (w j) ∧ turn j ≤ turn i)) ∧
  (∀ (s : State) (c i : Nat), i < 16 → hasWork s c i = true → (chooseRoutine s c).isSome = true) ∧
  (∀ (s : State) (v k : Nat), locusCore s v = some k → k / 16 = v ∧ k % 16 < 8 ∧ takesWork s k = true ∧
    ∀ j, j < 8 → takesWork s (16 * v + j) = true → freeCount s (16 * v + j) < freeCount s k ∨
      (freeCount s (16 * v + j) = freeCount s k ∧ k ≤ 16 * v + j)) ∧
  (∀ (s : State) (id : Nat) (f : MsgFlight), msgOf s id = some f → f.phase = .flying → f.msg.placed = none → f.msg.cls = 27 →
    agentDevice f.msg.dest = s.device → f.msg.group = none → s.host.waitingLaunches = [] → f.due ≤ s.cycle → inOrder s f = true →
    f.home ≠ .host → isApex (coreOf (agentLocal f.msg.sender)) = true →
    let c := agentLocal f.msg.dest
    apexReserved s c = true → takesWork s (coreOf c) = true → launchOk f.msg.payload = true →
    Gives (.launch id) s (fun t => Outside s t [c] ∧ msgOf t id = none ∧ (ctxOf t c).run = .ready ∧ (ctxOf t c).hmode = false ∧
      (ctxOf t c).pc = BitVec.ofNat 64 (s.device * 2 ^ 53 + (f.msg.payload.getD 0 0).toNat % 2 ^ 53) ∧
      rg t c 1 = f.msg.payload.getD 1 0 ∧ rg t c 2 = f.msg.payload.getD 2 0 ∧ (coreAt t (coreOf c)).inbox = (coreAt s (coreOf c)).inbox)) ∧
  (∀ (s : State) (id c : Nat) (f : MsgFlight), msgOf s id = some f → f.phase = .flying → f.msg.placed = none → f.msg.cls = 27 →
    agentDevice f.msg.dest = s.device → f.msg.group = none → (f.home = .host ∨ isApex (coreOf (agentLocal f.msg.sender)) = false) → s.host.waitingLaunches = [] →
    f.due ≤ s.cycle → inOrder s f = true →
    let k := coreOf (agentLocal f.msg.dest)
    launchOk f.msg.payload = true → waitingLaunch s k = none → idleOf s k = some c →
    Gives (.launch id) s (fun t => Outside s t [c] ∧ (ctxOf t c).run = .ready ∧ (ctxOf t c).hmode = false ∧
      (ctxOf t c).pc = BitVec.ofNat 64 (s.device * 2 ^ 53 + (f.msg.payload.getD 0 0).toNat % 2 ^ 53) ∧
      (ctxOf t c).acct = (f.msg.payload.getD 3 0).setWidth 12 ∧ rg t c 1 = f.msg.payload.getD 1 0 ∧ rg t c 2 = f.msg.payload.getD 2 0 ∧
      (∀ r, 2 < r → rg t c r = 0) ∧ (∀ r, rv t c r = 0) ∧ (ctxOf t c).rmode = 1 ∧ (ctxOf t c).regs.flags = 0 ∧
      (ctxOf t c).allot = (coreAt s (coreOf c)).capacity ∧ (ctxOf t c).lease = (ctxOf s c).lease)) ∧
  (∀ (s : State) (id i : Nat) (f : MsgFlight), msgOf s id = some f → f.phase = .flying → f.msg.placed = none → f.msg.cls = 27 →
    agentDevice f.msg.dest = s.device → (f.home = .host ∨ isApex (coreOf (agentLocal f.msg.sender)) = false) →
    f.due ≤ s.cycle → inOrder s f = true →
    let k := coreOf (agentLocal f.msg.dest)
    takesWork s k = true → launchOk f.msg.payload = true → idleOf s k = none ∨ waitingLaunch s k ≠ none →
    (freeOrdinary s k = some i → Gives (.launch id) s (fun t => Outside s t [] ∧ ∃ q ∈ (coreAt t k).inbox, q.index = i ∧ q.phase = .waiting ∧ q.msg.cls = 27)) ∧
    (freeOrdinary s k = none → Gives (.launch id) s (fun t => Outside s t [] ∧ ∃ g, msgOf t id = some g ∧ g.phase = .returning 0))) ∧
  (∀ (s : State) (k c : Nat) (q : Slot), waitingLaunch s k = some q → idleOf s k = some c →
    Gives (.waitingLaunchStart k) s (fun t => Outside s t [c] ∧ (ctxOf t c).run = .ready ∧ rg t c 1 = q.msg.payload.getD 1 0 ∧ rg t c 2 = q.msg.payload.getD 2 0 ∧
      ∀ r ∈ (coreAt t k).inbox, r.index ≠ q.index)) ∧
  (∀ (s : State) (k c j : Nat) (q : Slot), waitingLaunch s k = none → (coreAt s k).selectedAt ≠ s.cycle + 1 →
    (idleContexts s k).findSome? (fun c => (chooseRoutine s c).map (fun j => (c, j))) = some (c, j) →
    let w := routineAt s (coreOf c) j
    routineClass w ≠ 30 → messageFor s c (routineClass w) = some q → q.msg.pair = none →
    Gives (.routineSelect k) s (fun t => Outside s t [c] ∧ (ctxOf t c).run = .ready ∧ (ctxOf t c).hmode = true ∧ (ctxOf t c).slot = some q.index ∧
      (ctxOf t c).mapped = true ∧ (ctxOf t c).cip = false ∧ (ctxOf t c).pc = BitVec.ofNat 64 (s.device * 2 ^ 53 + routineEntry w % 2 ^ 53) ∧
      (∀ r, rg t c r = 0) ∧ (ctxOf t c).routine = j ∧ (coreAt t (coreOf c)).last = j ∧ (ctxOf t c).acct = BitVec.ofNat 12 (routineAcct w) ∧
      (ctxOf t c).budgetEnd = none ∧ (ctxOf t c).budgetKept = some (2 ^ routineBudget w) ∧ (ctxOf t c).readyAt = s.cycle + 1)) ∧
  (∀ (s : State) (k c j row : Nat) (g : Seg), waitingLaunch s k = none → (coreAt s k).selectedAt ≠ s.cycle + 1 →
    (idleContexts s k).findSome? (fun c => (chooseRoutine s c).map (fun j => (c, j))) = some (c, j) →
    routineClass (routineAt s (coreOf c) j) = 30 → nextDrain s (coreOf c) = some (row, g) →
    Gives (.routineSelect k) s (fun t => Outside s t [c] ∧ (ctxOf t c).run = .ready ∧ (ctxOf t c).hmode = true ∧ (ctxOf t c).drain = some (row, g.jid) ∧
      rg t c 1 = BitVec.ofNat 64 row ∧ rg t c 2 = BitVec.ofNat 64 g.batch ∧ rv t c 0 = g.data ∧ (∀ r, 2 < r → rg t c r = 0))) ∧
  (∀ (s : State) (c : Nat) (m : Msg) (l : List Entry), (ctxOf s c).run = .leaving → (ctxOf s c).readyAt ≤ s.cycle →
    (ctxOf s c).committed = true → (ctxOf s c).sendBuf = .message m :: l → l ≠ [] → tokenOut s c = false → retryFull s (coreOf c) = false →
    Gives (.sendBufferEntryLeave c) s (fun t => Outside s t [] ∧ (ctxOf t c).sendBuf = l ∧ (ctxOf t c).run = .leaving ∧ s.cycle + 1 ≤ (ctxOf t c).readyAt ∧
      ∃ g, t.messages = s.messages ++ [g] ∧ g.msg = m ∧ g.home = .core (coreOf c))) ∧
  (∀ (s : State) (c : Nat) (m : Msg), (ctxOf s c).run = .leaving → (ctxOf s c).readyAt ≤ s.cycle → (ctxOf s c).committed = true →
    (ctxOf s c).sendBuf = [.message m] →
    tokenOut s c = false → retryFull s (coreOf c) = false → (ctxOf s c).preemptAsked = false →
    Gives (.sendBufferEntryLeave c) s (fun t => Outside s t [] ∧ (ctxOf t c).run = .idle ∧ ∃ g, t.messages = s.messages ++ [g] ∧ g.msg = m)) ∧
  (∀ (s : State) (c : Nat) (m : Msg) (l : List Entry), (ctxOf s c).run = .leaving → (ctxOf s c).committed = true → (ctxOf s c).sendBuf = .message m :: l →
    retryFull s (coreOf c) = true → exec (.sendBufferEntryLeave c) s = .next s) ∧
  (∀ (s : State) (id k c locus radius : Nat) (f : MsgFlight), msgOf s id = some f → f.phase = .flying → f.msg.pair = none →
    f.msg.placed = some (locus, radius, s.device) → launchOk f.msg.payload = true →
    let v := (routeOf f.from_ locus).getD f.hops locus
    f.due + latency f.from_ v ≤ s.cycle → takerOf s v locus radius false = some k → waitingLaunch s k = none → idleOf s k = some c →
    f.msg.group = none → s.host.waitingLaunches = [] →
    Gives (.pairPlacement id) s (fun t => Outside s t [c] ∧ (ctxOf t c).run = .ready ∧ rg t c 1 = f.msg.payload.getD 1 0 ∧ msgOf t id = none)) ∧
  (∀ (s : State) (id k i locus radius : Nat) (p : PairRef) (f : MsgFlight), msgOf s id = some f → f.phase = .flying → f.msg.pair = some p →
    f.msg.placed = some (locus, radius, s.device) →
    let v := (routeOf f.from_ locus).getD f.hops locus
    f.due + latency f.from_ v ≤ s.cycle →
    (takerOf s v locus radius true = some k → serving s k 31 ≠ none → freeOrdinary s k = some i → f.msg.group = none → s.host.waitingLaunches = [] →
      Gives (.pairPlacement id) s (fun t => Outside s t [] ∧ msgOf t id = none ∧ ∃ q ∈ (coreAt t k).inbox, q.index = i ∧ q.phase = .pairWaiting ∧ q.msg.pair = some p)) ∧
    (∀ m, takerOf s v locus radius true = none → (routeOf f.from_ locus).length ≤ f.hops + 1 → locusCore s locus = some m → serving s m 31 ≠ none →
      freeOrdinary s m = some i → f.msg.group = none → s.host.waitingLaunches = [] →
      Gives (.pairPlacement id) s (fun t => Outside s t [] ∧ msgOf t id = none ∧ ∃ q ∈ (coreAt t m).inbox, q.index = i ∧ q.phase = .pairWaiting ∧ q.msg.pair = some p)) ∧
    (takerOf s v locus radius true = none → f.hops + 1 < (routeOf f.from_ locus).length →
      Gives (.pairPlacement id) s (fun t => Outside s t [] ∧ msgOf t id = some { f with hops := f.hops + 1 } ∧ ∀ m, coreAt t m = coreAt s m)))

/-- Pairs (R22, R27, R29, R122, R138): the owner pops the newest pair of its deque, a stealer takes the oldest of a victim within the pair's
radius; both takes leave together; each reads its cell, holds its block back and passes its parked tokens to the slot; an inline reference gives made-up words; when both are
back a pair whose symbols prove to be in the wrong order is exchanged, the rule's routine is ready, and without a rule the pair stays at the
inbox head. A lookup takes the first matching entry from h = first + 3 × second on, and ends at an invalid one and after 16. -/
def Obligations.PairDispatch : Prop :=
  (∀ (s : State) (x y j w0 w1 : Nat), j < 16 → RuleAt s (x + 3 * y + j) w0 w1 →
    (∀ i, i < j → ∃ v0 v1, RuleAt s (x + 3 * y + i) v0 v1 ∧ nbit v0 0 = true ∧ ¬ RuleFor v0 x y) →
    (RuleFor w0 x y → ruleOf s x y = some (BitVec.ofNat 64 w0, BitVec.ofNat 64 w1)) ∧ (nbit w0 0 = false → ruleOf s x y = none)) ∧
  (∀ (s : State) (x y : Nat), (∀ i, i < 16 → ∃ v0 v1, RuleAt s (x + 3 * y + i) v0 v1 ∧ nbit v0 0 = true ∧ ¬ RuleFor v0 x y) → ruleOf s x y = none) ∧
  (∀ (s : State) (k x y : Nat) (r : Word × Word), (x, y, r) ∈ (coreAt s k).ruleCache → ruleTime s k x y = 0) ∧
  (∀ (s : State) (k x y : Nat), (∀ e ∈ (coreAt s k).ruleCache, ¬ (e.1 = x ∧ e.2.1 = y)) → (ruleLookup s k x y).1 = ruleOf s x y) ∧
  (∀ (s : State) (k x y j w0 w1 pa home : Nat) (leaf : Word), (∀ e ∈ (coreAt s k).ruleCache, ¬ (e.1 = x ∧ e.2.1 = y)) → j < 16 →
    RuleAt s (x + 3 * y + j) w0 w1 → RuleFor w0 x y →
    (∀ i, i < j → ∃ v0 v1, RuleAt s (x + 3 * y + i) v0 v1 ∧ nbit v0 0 = true ∧ ¬ RuleFor v0 x y) →
    translateNow s ((s.ruleBase + 16 * ((x + 3 * y) % 2 ^ s.ruleLog)) % 2 ^ 53) false = .ok (pa, home, leaf) →
    ruleTime s k x y = 2 * latency (vertexOf k) (sliceVertex (home % 2048)) + 6 + (j + 1) - 1) ∧
  (∀ (s : State) (k i j : Nat) (p : PairRef), (coreAt s k).deque.getLast? = some p → freeOrdinary s k = some i → pairRoutine s k = some j →
    idleContexts s k ≠ [] → waitingLaunch s k = none → pairWaits s k = false → (∀ c ∈ idleContexts s k, chooseRoutine s c = none) →
    (coreAt s k).spill = [] →
    Gives (.dequePop k) s (fun t => Outside s t [] ∧ (coreAt t k).deque = (coreAt s k).deque.dropLast ∧
      ∃ q, (coreAt t k).inbox = (coreAt s k).inbox ++ [q] ∧ q.index = i ∧ q.phase = .pairWaiting ∧ q.msg.pair = some p ∧ q.msg.cls = 31)) ∧
  (∀ (s : State) (k v : Nat) (p : PairRef) (l : List PairRef), isExecute k = true → s.cycle % 64 = 8 * coreNo k → (coreAt s k).probed ≠ s.cycle + 1 →
    mayStealNow s k = true → v = (victims k).getD ((coreAt s k).victim % (victims k).length) k → v ≠ k → (coreAt s v).deque = p :: l →
    (coreAt s v).killed = false → distance (vertexOf v) (vertexOf k) ≤ p.radius → (l ≠ [] ∨ ownerPops s v = false) → (coreAt s v).spill = [] →
    Gives (.stealProbe k) s (fun t => Outside s t [] ∧ (coreAt t v).deque = l ∧ (coreAt t k).counters.steals = (coreAt s k).counters.steals + 1 ∧
      ∃ due, (coreAt t k).stolen = (coreAt s k).stolen ++ [(due, p)] ∧ s.cycle < due)) ∧
  (∀ (s : State) (k due i : Nat) (p : PairRef) (l : List (Nat × PairRef)), (coreAt s k).stolen = (due, p) :: l → due ≤ s.cycle →
    freeOrdinary s k = some i →
    Gives (.stealArrival k) s (fun t => Outside s t [] ∧ (coreAt t k).stolen = l ∧
      ∃ q, (coreAt t k).inbox = (coreAt s k).inbox ++ [q] ∧ q.index = i ∧ q.phase = .pairWaiting ∧ q.msg.pair = some p)) ∧
  (∀ (s : State) (k i : Nat) (p : PairRef), (∃ q ∈ (coreAt s k).inbox, q.index = i) →
    (∀ q ∈ (coreAt s k).inbox, q.index = i → q.phase = .pairWaiting ∧ q.msg.pair = some p) →
    Gives (.pairDispatch k i) s (fun t => Outside s t [] ∧ (∃ q ∈ (coreAt t k).inbox, q.index = i) ∧
      ∀ q ∈ (coreAt t k).inbox, q.index = i → q.phase = .taking ∧ (q.firstWords = none ↔ refKind p.first = 1) ∧
        (q.secondWords = none ↔ refKind p.second = 1) ∧
        (refKind p.first = 3 → q.firstWords = some [BitVec.ofNat 64 (bits p.first.toNat 31 0 * 2 ^ 32 + 2 ^ 18 + bits p.first.toNat 47 32), 0, 0]) ∧
        (refKind p.first = 4 → q.firstWords = some [BitVec.ofNat 64 (bits p.first.toNat 15 0), 0, 0]) ∧
        (refKind p.second = 3 → q.secondWords = some [BitVec.ofNat 64 (bits p.second.toNat 31 0 * 2 ^ 32 + 2 ^ 18 + bits p.second.toNat 47 32), 0, 0]) ∧
        (refKind p.second = 4 → q.secondWords = some [BitVec.ofNat 64 (bits p.second.toNat 15 0), 0, 0]))) ∧
  (∀ (s : State) (k i pa home : Nat) (p : PairRef) (q : Slot), (coreAt s k).inbox = [q] → q.index = i → q.phase = .taking → q.msg.pair = some p →
    q.firstWords = none → refDevice p.first = s.device → cellPlace s (refAddr p.first) = some (pa, home) →
    heapAt s.cellHeaps (refAddr p.first) ≠ none → itemState s false (refAddr p.first) = .live → q.since + takeHop s k p.first ≤ s.cycle →
    (reachL2 s (.take k i false) (home % 2048) pa 24 (home / 2048) false).1 = true → anyPoison s pa 24 = false →
    Gives (.cellTake k i false) s (fun t => Outside s t [] ∧ MemKept s t ∧ itemState t false (refAddr p.first) = .heldBack ∧
      ∃ r, (coreAt t k).inbox = [r] ∧ r.firstTokens = heldBy s (holderCell s.device (refAddr p.first)) ∧ r.firstWords = some [BitVec.ofNat 64 (readMem s pa 8), BitVec.ofNat 64 (readMem s (pa + 8) 8),
        BitVec.ofNat 64 (readMem s (pa + 16) 8)])) ∧
  (∀ (s : State) (k i : Nat) (p : PairRef) (q : Slot) (a b : List Word), (coreAt s k).inbox = [q] → q.index = i → q.phase = .taking →
    q.msg.pair = some p → q.firstWords = some a → q.secondWords = some b → q.since + dispatchTime s k p ≤ s.cycle →
    let x := (a.headD 0).toNat % 65536
    let y := (b.headD 0).toNat % 65536
    let r := (ruleLookup s k x y).1
    (badCell p a b = none → wrongOrder s p x y = false →
      (∀ w0 w1, r = some (w0, w1) → Gives (.pairSlotReady k i) s (fun t => Outside s t [] ∧ ∃ z, (coreAt t k).inbox = [z] ∧ z.phase = .waiting ∧
        z.msg.payload = a ++ b ∧ z.entry = w1.toNat % 2 ^ 53 ∧ z.since = s.cycle + ruleTime s k x y)) ∧
      (r = none → Gives (.pairSlotReady k i) s (fun t => Outside s t [] ∧ ∃ z l, (coreAt t k).inbox = z :: l ∧ z.index = i ∧ z.phase = .noRule))) ∧
    (∀ w0 w1, badCell p a b = none → y < x → refKind p.first = 1 → refDevice p.first ≠ s.device → (ruleLookup s k y x).1 = some (w0, w1) →
      Gives (.pairSlotReady k i) s (fun t => Outside s t [] ∧ ∃ z, (coreAt t k).inbox = [z] ∧ z.phase = .waiting ∧ z.msg.payload = b ++ a ∧
        z.msg.pair = some { p with first := p.second, second := p.first } ∧ z.firstTokens = q.secondTokens ∧ z.secondTokens = q.firstTokens ∧
        z.entry = w1.toNat % 2 ^ 53)) ∧
    (∀ ref, badCell p a b = some ref → refKind p.first = 1 → refDevice p.first = s.device → itemState s false (refAddr p.first) = .heldBack →
      Gives (.pairSlotReady k i) s (fun t => Outside s t [] ∧ (coreAt t k).inbox = [] ∧ itemState t false (refAddr p.first) = .live)))

/-! ### Graphs and gangs -/

/-- The walker (R133, R189 to R192, R196, R397): a node whose predecessors are done and one of them complete becomes eligible; of the
eligible nodes of a die the one of the lowest number starts, four cycles after the last; a NET, STEP or
GANG node that starts runs, a GANG takes the n clusters from its first one on, and faults PLACEMENT when the range passes vertex number
511 (R192) or a cluster is unfit; a COND takes its first successor for a non-zero word and its second for zero, a SWITCH the one its word
numbers, a LOOP its first, with its body reset, and its second when its word is zero or its bound is reached (brc is that bound; log 63); a node whose
word cannot be read faults; a NET node seeds its pair; a STEP node's batch
former makes one access a step (in the order of BatchStep; log 67) and faults the node where one does not translate or is poisoned (log 119), its node completes when the slot
area is written, a GANG when its members have ended. -/
def Obligations.GraphWalker : Prop :=
  (∀ (s : State) (gi n : Nat) (g : GraphRun), graphOf s gi = some g → g.live = true → n < g.count → nodePending s g n (nodeOf g n) = true →
    (nodeOf g n).changed < s.cycle →
    Gives (.nodeEligible gi n) s (fun t => (∃ h, graphOf t gi = some h ∧ (nodeOf h n).state = 1 ∧ ∀ m, m ≠ n → nodeOf h m = nodeOf g m) ∧
      ∀ pa home leaf, translateNow s (g.statuses + 8 * n) true = .ok (pa, home, leaf) → cxlGone s pa = false → bits (readMem t pa 8) 63 61 = 1)) ∧
  (∀ (s : State) (gi n : Nat) (g : GraphRun), NextToStart s gi n g →
    let u := setNode (setDie s g.die { dieAt s g.die with lastStart := some s.cycle }) gi n { nodeOf g n with state := 2, stage := false }
    let v0 := 32 * bits (nodeWord s g n 2) 8 5 + bits (nodeWord s g n 2) 4 0
    let size := bits (nodeWord s g n 0) 9 0
    let l := (List.range size).map (fun i => mkVertex ((v0 + i) % 32) ((v0 + i) / 32))
    nodePoisoned u g n = false →
    (nodeKind s g n = 0 ∨ (nodeKind s g n = 5 ∧ sget 0 s.batchRegs (nodeParam u g n) ≠ 0) →
      Gives (.nodeStart g.die) s (fun t => (dieAt t g.die).lastStart = some s.cycle ∧
      ∃ h, graphOf t gi = some h ∧ (nodeOf h n).state = 2)) ∧
    (nodeKind s g n = 1 → v0 + size ≤ 512 → (∀ v ∈ l, (clusterAt s v).unfit = false) →
      Gives (.nodeStart g.die) s (fun t => (∃ h, graphOf t gi = some h ∧ (nodeOf h n).state = 2) ∧
        ∃ i y, sget none t.gangs i = some y ∧ y.graph = some (gi, n) ∧ y.clusters = l ∧ y.members = [] ∧ y.started = false ∧
          y.entry = BitVec.ofNat 64 (nodeWord s g n 1) ∧ y.arg = BitVec.ofNat 64 (nodeWord s g n 3) ∧ y.acct = g.acct)) ∧
    (nodeKind s g n = 1 → 512 < v0 + size ∨ (∃ v ∈ l, (clusterAt s v).unfit = true) →
      Gives (.nodeStart g.die) s (fun t => ∃ h, graphOf t gi = some h ∧ (nodeOf h n).state = 4 ∧ h.faulted = some (n, cPlacement)))) ∧
  (∀ (s : State) (gi n c pa home : Nat) (g : GraphRun) (leaf : Word), graphOf s gi = some g → g.live = true → n < g.count → (nodeOf g n).state = 1 →
    2 ≤ nodeKind s g n → nodeKind s g n ≤ 4 → nodePoisoned s g n = false →
    (translateNow s (nodeWord s g n 1 % 2 ^ 53) false = .error c ∨
      (translateNow s (nodeWord s g n 1 % 2 ^ 53) false = .ok (pa, home, leaf) ∧ anyPoison s pa 4 = true ∧ c = cPoison)) →
    exec (.nodeEvaluate gi n) s = .next (faultNode s gi n { code := c, addr := BitVec.ofNat 64 (nodeWord s g n 1) } c) ∧
    Gives (.nodeEvaluate gi n) s (fun t => ∃ h, graphOf t gi = some h ∧ (nodeOf h n).state = 4 ∧ (nodeOf h n).value = BitVec.ofNat 32 c ∧
      h.faulted = some (n, c) ∧ ∀ m, m ≠ n → nodeOf h m = nodeOf g m)) ∧
  (∀ (s : State) (gi n w : Nat) (g : GraphRun), graphOf s gi = some g → g.live = true → n < g.count → (nodeOf g n).state = 1 →
    nodePoisoned s g n = false → readWord s (nodeWord s g n 1) = .ok w →
    let x := { nodeOf g n with value := BitVec.ofNat 32 w }
    (nodeKind s g n = 2 → exec (.nodeEvaluate gi n) s =
      .next (completeNode (setNode s gi n x) gi n (fun j => decide (j = if w = 0 then 1 else 0)))) ∧
    (nodeKind s g n = 3 → w < (nodeSuccs s g n).length → exec (.nodeEvaluate gi n) s =
      .next (completeNode (setNode s gi n x) gi n (fun j => decide (j = w)))) ∧
    (nodeKind s g n = 3 → (nodeSuccs s g n).length ≤ w → exec (.nodeEvaluate gi n) s =
      .next (faultNode s gi n { code := cIllegalEncoding, reason := 1, detail := BitVec.ofNat 64 w } cIllegalEncoding)) ∧
    (nodeKind s g n = 4 → (w = 0 ∨ nodeWord s g n 2 ≤ (nodeOf g n).runs) → exec (.nodeEvaluate gi n) s =
      .next (completeNode (setNode s gi n { x with
        iter := (x.iter + 1) % 65536, brc := decide (nodeWord s g n 2 ≤ (nodeOf g n).runs) }) gi n (fun j => decide (j = 1)))) ∧
    (nodeKind s g n = 4 → w ≠ 0 → (nodeOf g n).runs < nodeWord s g n 2 →
      let u := setNode s gi n { x with iter := (x.iter + 1) % 65536, brc := false, runs := x.runs + 1 }
      ∃ t h, graphOf t gi = some h ∧ (nodeOf h n).state = 1 ∧ (nodeOf h n).iter = ((nodeOf g n).iter + 1) % 65536 ∧
        (nodeOf h n).runs = (nodeOf g n).runs + 1 ∧ (nodeOf h n).brc = false ∧ (nodeOf h n).value = BitVec.ofNat 32 w ∧
        (∀ m, n < m → m ≤ n + nodeParam u g n → (nodeOf h m).state = 0 ∧ (nodeOf h m).done = 0 ∧ (nodeOf h m).complete = 0 ∧ (nodeOf h m).runs = 0) ∧
        (∀ m, m < n ∨ n + nodeParam u g n < m → nodeOf h m = nodeOf g m) ∧
        exec (.nodeEvaluate gi n) s = .next (completeNode t gi n (fun j => decide (j = 0))))) ∧
  (∀ (s : State) (gi n : Nat) (g : GraphRun), graphOf s gi = some g → g.live = true → n < g.count → (nodeOf g n).state = 2 → nodeKind s g n = 0 →
    (nodeOf g n).stage = false →
    Gives (.netSeed gi n) s (fun t => ∃ m p, t.messages = s.messages ++ [m] ∧ m.msg.pair = some p ∧ m.home = .vertex (apexVertex g.die) ∧
      p.first = BitVec.ofNat 64 (4 * 2 ^ 61 + 2) ∧ p.second = cellRef s.device (nodeWord s g n 1 % 2 ^ 50) ∧
      p.seed = some (BitVec.ofNat 64 (nodeWord s g n 2), BitVec.ofNat 64 (gi * 4096 + n), BitVec.ofNat 12 (nodeWord s g n 3)))) ∧
  (∀ (s : State) (gi n : Nat) (g : GraphRun), graphOf s gi = some g → g.live = true → n < g.count → (nodeOf g n).state = 2 →
    nodeKind s g n = 5 → (nodeOf g n).stage = false → (nodeOf g n).changed + 63 ≤ s.cycle →
    let q := nodeParam s g n
    let count := nodeWord s g n 3 % 2 ^ 32
    (∀ pa home leaf, batchOf s gi n = none → translateNow s ((sget 0 s.batchRegs q + 0x8080) % 2 ^ 53) true = .ok (pa, home, leaf) →
      anyPoison s pa 128 = false →
      Gives (.batchStep gi n) s (fun t => sget [] t.releases q = [] ∧ MemKept s t ∧ ∃ b, batchOf t gi n = some b ∧ b.area = sget 0 s.batchRegs q ∧
        b.queue = sget [] s.admission q ∧ b.returns = sget [] s.releases q ∧ b.barred = readMem s pa 128)) ∧
    (∀ b, batchOf s gi n = some b →
      (∀ u d, batchPiece s q count b = .ok (u, d) → d.phase ≠ .done ∨ d.todo ≠ [] → exec (.batchStep gi n) s = .next (setBatch u gi n (some d))) ∧
      (∀ u d, batchPiece s q count b = .ok (u, d) → d.phase = .done → d.todo = [] → ∀ h, graphOf u gi = some h →
        Gives (.batchStep gi n) s (fun t => batchOf t gi n = none ∧ ∃ h, graphOf t gi = some h ∧ (nodeOf h n).stage = true)) ∧
      (∀ c va, batchPiece s q count b = .error (c, va) →
        exec (.batchStep gi n) s = .next (faultNode (setBatch s gi n none) gi n { code := c, addr := BitVec.ofNat 64 (homeWord s va) } c)) ∧
      (∀ va data l pa home leaf, b.todo = .bytes va data :: l → translateNow s (va % 2 ^ 53) true = .ok (pa, home, leaf) → cxlGone s pa = false →
        b.phase ≠ .done ∨ l ≠ [] → Gives (.batchStep gi n) s (fun t => batchOf t gi n = some { b with todo := l } ∧
          (∀ i, i < data.length → memByte t (pa + i) = data.getD i 0) ∧ ∀ a, a < pa ∨ pa + data.length ≤ a → memByte t a = memByte s a)) ∧
      (∀ off, b.todo = [] → b.phase = .last off → 0x8100 + 2 * off < 65536 → Gives (.batchStep gi n) s (fun t => MemKept s t ∧
        ∃ d, batchOf t gi n = some d ∧ d.phase = .done ∧ ∀ e, 0x8100 + 2 * off ≤ e → e < 65536 →
          ∃ va z, BatchAccess.bytes va (List.replicate z 0) ∈ d.todo ∧ va ≤ b.area + e ∧ b.area + e < va + z)))) ∧
  (∀ (s : State) (gi n : Nat) (g : GraphRun), graphOf s gi = some g → g.live = true → n < g.count → (nodeOf g n).state = 2 →
    (nodeKind s g n = 5 → (nodeOf g n).stage = true → exec (.nodeComplete gi n) s = .next (completeNode s gi n (fun _ => true))) ∧
    (∀ i y, nodeKind s g n = 1 → s.gangs = [(i, some y)] → y.graph = some (gi, n) → y.started = true →
      (∀ e ∈ y.members, e.1 ∈ y.ended) →
      exec (.nodeComplete gi n) s =
        .next (completeNode (nodeFlush { s with gangs := [] } gi (y.members.map (fun m => coreOf m.2)).dedup) gi n (fun _ => true)))) ∧
  (∀ (s : State) (gi n : Nat) (g : GraphRun) (take : Nat → Bool), graphOf s gi = some g →
    ∃ h, graphOf (completeNode s gi n take) gi = some h ∧ (nodeOf h n).state = 3)

/-- Gangs (R86, R193, R194, R259): a member's core gives its lowest idle context; when every core holds one, all members start in one
cycle with the argument in g1 and the member index in g2, its budget to count from its first instruction on (R147); a gang that is asked
to stop is saved once every live member stands still, its block for the header words, the pc, the g, p and v registers, the modes and the tiles
of Tables 13-4 to 13-6 (one behind the other by member index, log 66; checked for the die's apex contexts, log 107); a mesh barrier at which every cluster arrived lets the members go on. -/
def Obligations.Gangs : Prop :=
  (∀ (s : State) (n k m c : Nat) (g : Gang), gangAt s n = some g → memberOf g k = some m → idleOf s k = some c → g.started = false →
    (∀ e ∈ g.members, e.1 ≠ m) →
    Gives (.gangReserve n k) s (fun t => Outside s t [] ∧ (ctxOf t c).run = .reserved ∧ gangAt t n = some { g with members := g.members ++ [(m, c)] })) ∧
  (∀ (s : State) (n : Nat) (g : Gang), gangAt s n = some g → g.started = false → 8 * g.clusters.length ≤ g.members.length →
    (match g.graph with | some (gi, node) => nodeFirst s gi node | none => 0) ≤ s.cycle + 1 →
    (g.members.map (·.2)).Nodup → (∀ e ∈ g.members, e.1 ∉ g.ended) →
    Gives (.gangStart n) s (fun t => Outside s t (g.members.map (·.2)) ∧ gangAt t n = some { g with started := true } ∧ ∀ e ∈ g.members, (ctxOf t e.2).run = .ready ∧
      (ctxOf t e.2).hmode = false ∧ (ctxOf t e.2).gang = some n ∧ (ctxOf t e.2).member = e.1 ∧ (ctxOf t e.2).acct = g.acct ∧
      (ctxOf t e.2).pc = BitVec.ofNat 64 (s.device * 2 ^ 53 + g.entry.toNat % 2 ^ 53) ∧ rg t e.2 1 = g.arg ∧ rg t e.2 2 = BitVec.ofNat 64 e.1 ∧
      (∀ r, 2 < r → rg t e.2 r = 0) ∧ (ctxOf t e.2).budgetEnd = none ∧ (ctxOf t e.2).budgetKept = if g.lbudget = 0 then none else some (2 ^ g.lbudget))) ∧
  (∀ (s : State) (n : Nat) (g : Gang), gangAt s n = some g → g.started = true →
    exec (.gangPreempt n) s = .next { s with gangs := sput none s.gangs n (some { g with preempt := true }) }) ∧
  (∀ (s : State) (n b m c : Nat) (g : Gang), gangAt s n = some g → g.preempt = true → g.members = [(m, c)] → m ∉ g.ended → memberStopped s c = true →
    blockFault s (gangDie s g) (b + 20480 * m) = none → exec (.gangSave n b) s =
      .next (setGang (saveMember s (gangDie s g) (b + 20480 * m) c) n (some { g with preempt := false, arrived := [], blocks := [(m, b + 20480 * m)] }))) ∧
  (∀ (s : State) (n b : Nat) (g : Gang), gangAt s n = some g → g.preempt = true →
    let live := g.members.filter (fun e => !(g.ended.contains e.1))
    live ≠ [] → (∀ e ∈ live, memberStopped s e.2 = true ∧ (ctxOf s e.2).lockstep = false ∧ blockFault s (gangDie s g) (b + 20480 * e.1) = none) →
    Gives (.gangSave n b) s (fun t => (∀ e ∈ live, (ctxOf t e.2).run = .savedOut) ∧
      ∃ h, gangAt t n = some h ∧ h.preempt = false ∧ h.blocks = live.map (fun e => (e.1, b + 20480 * e.1)))) ∧
  (∀ (s : State) (d va c : Nat), coreNo (coreOf c) < 8 → ∃ u l, saveMember s d va c = savedOut (putBlock u va l) c ∧
    (ctxOf u c = ctxOf s c ∧ coreAt u (coreOf c) = coreAt s (coreOf c)) ∧
    (16, 8, (if (ctxOf s c).passBarrier then (ctxOf s c).pc + 8 else (ctxOf s c).pc).toNat % 2 ^ 53) ∈ l ∧
    (24, 8, (if atBarrier s c then 2 ^ 16 else 0) + (ctxOf s c).member % 2 ^ 12) ∈ l ∧
    (∀ r, r < 64 → (0x40 + 8 * r, 8, (rg s c r).toNat) ∈ l) ∧ (∀ r, r < 8 → (0x280 + 4 * r, 4, (rp s c r).toNat) ∈ l) ∧
    (0x2A0, 8, (ctxOf s c).rmode.toNat) ∈ l ∧ (0x2A8, 8, (ctxOf s c).regs.flags.toNat) ∈ l ∧
    (∀ r, r < (ctxOf s c).allot → (0x2C0 + 64 * r, 64, (rv s c r).toNat) ∈ l) ∧
    ∃ w0 w1 : Nat, (0, 8, (if bits w0 31 24 = 0 ∨ (ctxOf s c).allot < bits w0 31 24 then (ctxOf s c).allot else bits w0 31 24) * 2 ^ 24 +
        (ctxOf s c).allot * 2 ^ 16 + bits w0 15 8 * 2 ^ 8 + w0 % 2 ^ 8) ∈ l ∧
      (8, 8, w1 / 2 ^ 63 * 2 ^ 63 + (if (ctxOf s c).gang = none then 0 else 2 ^ 62) + (ctxOf s c).acct.toNat * 2 ^ 32 +
        if (ctxOf s c).gang = none then 0 else match budgetLeft s (ctxOf s c) with | some m => m % 2 ^ 32 | none => 0xFFFFFFFF) ∈ l ∧
      ∀ i, i < 512 → (0x1000 + 32 * i, 32, if nbit (bits w0 15 8) (i / 64) then (tileRow s (coreOf c) (i / 64) (i % 64)).toNat else 0) ∈ l) ∧
  (∀ (s : State) (va off n x pa home : Nat) (leaf : Word), translateNow s (va + off) true = .ok (pa, home, leaf) → cxlGone s pa = false →
    readMem (putBlock s va [(off, n, x)]) pa n = x % 2 ^ (8 * n)) ∧
  (∀ (s : State) (n : Nat) (g : Gang), gangAt s n = some g → g.arrived ≠ [] → (∀ v ∈ g.clusters, v ∈ g.arrived) →
    (∀ v ∈ g.clusters, g.arrivedAt + 2 * latency (g.clusters.headD 0) v + 6 ≤ s.cycle) → g.arrivedAt + 6 ≤ s.cycle →
    Gives (.meshBarrierComplete n) s (fun t => Outside s t [] ∧ gangAt t n = some { g with arrived := [] } ∧ ∀ e ∈ g.members, (ctxOf s e.2).run = .stalled .gbar →
      (ctxOf t e.2).run = .ready ∧ (ctxOf t e.2).passBarrier = true))

/-! ### The apex firmware -/

/-- Trap ends (R201): resume issues the context again, after a TRAP at the next instruction; release makes a handler's context idle and
leaves its message to run again; retire makes the context idle, raises its lease by one and sends a handler's message back as STALE. The fault queue delivers its oldest record as
a class-26 message (R200). A killed core (R203, R215, R216): its contexts stop, its registers are lost (zeros stand in their place, the model's choice, log 121), its
inbox is sealed, and the fault queue gets a CHECKER record with origin 0; containment
claims its regions, sends its messages back and its pairs on, and its cluster is unfit for gangs. A reclaimed region goes to its recovery agent clean, or is freed (R217). -/
def Obligations.TrapEndsAndKills : Prop :=
  (∀ (s : State) (c : Nat), heldByFault s c = true → (ctxOf s c).hmode = false → (ctxOf s c).lockstep = false →
    Gives (.trapResume c) s (fun t => Outside s t [c] ∧ (ctxOf t c).run = (if returning s c then .groupEnd else .ready) ∧ (ctxOf t c).regs = (ctxOf s c).regs ∧ MemKept s t ∧
      (ctxOf t c).pc = if (ctxOf s c).skip then (ctxOf s c).pc + 8 else (ctxOf s c).pc)) ∧
  (∀ (s : State) (c : Nat), (ctxOf s c).hmode = true → exec (.trapResume c) s = .next s) ∧
  (∀ (s : State) (c : Nat), firmwareUp s c = true → (ctxOf s c).run = .trapped → (ctxOf s c).hmode = true → (ctxOf s c).cip = false →
    (ctxOf s c).preemptAsked = false →
    Gives (.trapRelease c) s (fun t => Outside s t [] ∧ (ctxOf t c).run = .idle ∧ (ctxOf t c).hmode = false ∧ (ctxOf t c).lease = (ctxOf s c).lease ∧
      (coreAt t (coreOf c)).inbox = (coreAt s (coreOf c)).inbox)) ∧
  (∀ (s : State) (c : Nat), (ctxOf s c).cip = true → exec (.trapRelease c) s = .next s) ∧
  (∀ (s : State) (c : Nat), heldByFault s c = true → (ctxOf s c).gang = none → (ctxOf s c).preemptAsked = false →
    Gives (.trapRetire c) s (fun t => Outside s t [] ∧ (ctxOf t c).run = .idle ∧ (ctxOf t c).hmode = false ∧ (ctxOf t c).lease = (ctxOf s c).lease + 1 ∧
      MemKept s t)) ∧
  (∀ (s : State) (c : Nat) (q : Slot), heldByFault s c = true → (ctxOf s c).hmode = true → slotOf s c = some q → q.msg.pair = none → (ctxOf s c).gang = none →
    (ctxOf s c).preemptAsked = false →
    Gives (.trapRetire c) s (fun t => Outside s t [] ∧ (ctxOf t c).run = .idle ∧ (∀ r ∈ (coreAt t (coreOf c)).inbox, r.index ≠ q.index) ∧
      ∃ g ∈ t.messages, g.phase = .notice cStale ∧ g.msg = q.msg)) ∧
  (∀ (s : State) (d k i : Nat) (r : List Word) (l : List (List Word)), (dieAt s d).faultQueue = r :: l → apexOf s d = some k →
    freeOrdinary s k = some i → keeperOf s d = none →
    Gives (.faultQueueDelivery d) s (fun t => Outside s t [] ∧ (dieAt t d).faultQueue = l ∧
      ∃ q ∈ (coreAt t k).inbox, q.index = i ∧ q.phase = .waiting ∧ q.msg.cls = 26 ∧ q.msg.payload = r)) ∧
  (∀ (s : State) (k : Nat) (b : Bool), coreExists k = true → (coreAt s k).killed = false → (∀ i, i < 8 → (ctxOf s (8 * k + i)).lockstep = false) →
    gangsOn s k = [] →
    Gives (.coreKill k b) s (fun t => Outside s t ((List.range 8).map (8 * k + ·)) ∧ (coreAt t k).killed = true ∧ (coreAt t k).sealed_ = true ∧ (coreAt t k).scratch = [] ∧
      (coreAt t k).tiles = [] ∧ (coreAt t k).agg = [] ∧ MemKept s t ∧ ∀ i, i < 8 → (ctxOf t (8 * k + i)).run = .stopped ∧
        (ctxOf t (8 * k + i)).lease = (ctxOf s (8 * k + i)).lease ∧ ∀ r, rg t (8 * k + i) r = 0)) ∧
  (∀ (s : State) (k : Nat) (b : Bool), coreExists k = true → (coreAt s k).killed = false → (∀ i, i < 8 → (ctxOf s (8 * k + i)).lockstep = false) →
    gangsOn s k = [] → (dieAt s (dieOf (vertexOf k))).faultQueue.length < 256 →
    let c := 8 * k + if b then (coreAt s k).turn else 0
    Gives (.coreKill k b) s (fun t => (dieAt t (dieOf (vertexOf k))).faultQueue = (dieAt s (dieOf (vertexOf k))).faultQueue ++
      [[BitVec.ofNat 64 (0x1E * 2 ^ 56 + agentOf s c), (ctxOf s c).pc, 0, 0, 0, 0]])) ∧
  (∀ (s : State) (k : Nat) (b : Bool), (coreAt s k).killed = true → exec (.coreKill k b) s = .next s) ∧
  (∀ (s : State) (k a : Nat), apexOf s (dieOf (vertexOf k)) = some a → (coreAt s k).killed = true → isExecute k = true →
    gangsOn s k = [] →
    Gives (.containment k) s (fun t => (coreAt t k).sealed_ = true ∧ (coreAt t k).inbox = [] ∧ (coreAt t k).deque = [] ∧
      (coreAt t k).spill = [] ∧ (coreAt t k).reservoir = [] ∧ (clusterAt t (vertexOf k)).unfit = true)) ∧
  (∀ (s : State) (k a base r : Nat) (t0 : Token), apexOf s (dieOf (vertexOf k)) = some a → (coreAt s k).killed = true →
    s.tokens = [(base, some t0)] → t0.base = base → t0.lender = 0 → isDeadAgent s k t0.holder = true → s.graphs = [] → s.gangs = [] → s.claimed = [] →
    (coreAt s k).inbox = [] → (accountOf s t0.acct.toNat).recovery = some r →
    Gives (.containment k) s (fun t => (∃ u, sget none t.tokens base = some u ∧ u.holder = holderAgent (agentOf s (8 * a)) ∧
        u.taint = (t0.taint || t0.wr) ∧ u.wr = false ∧ u.xfer = t0.xfer + 1) ∧
      ∃ m ∈ t.messages, m.msg.cls = 24 ∧ m.msg.dest = agentOf s (8 * r) ∧ m.msg.payload =
        [BitVec.ofNat 64 base, BitVec.ofNat 64 (t0.lsize + (t0.taint || t0.wr).toNat * 256), BitVec.ofNat 64 (holderVal t0.holder % 2 ^ 27), 0, 0, 0])) ∧
  (∀ (s : State) (k a : Nat), apexOf s (dieOf (vertexOf k)) = some a → (coreAt s k).killed = true → s.tokens = [] → s.graphs = [] → s.gangs = [] →
    (∀ q, (coreAt s k).inbox = [q] → q.msg.pair = none → q.msg.placed = none → q.msg.cls ≠ 26 →
      Gives (.containment k) s (fun t => ∃ g ∈ t.messages, g.phase = .notice cDeadPeer ∧ g.msg = q.msg)) ∧
    (∀ p, (coreAt s k).inbox = [] → (coreAt s k).deque = [p] → entriesOf s (.vertex (vertexOf k)) < 64 →
      Gives (.containment k) s (fun t => ∃ g ∈ t.messages, g.msg.pair = some p ∧ g.msg.cls = 31 ∧ g.msg.placed.isSome = true))) ∧
  (∀ (s : State) (base k i h : Nat) (t0 : Token) (r : Report), sget none s.tokens base = some t0 → t0.base = base →
    s.reclaimed.find? (fun r => r.base = base) = some r →
    (answerAt s t0 r true h = some (k, i) → namesAgent h = true →
      Gives (.regionRecovery base true h) s (fun t => Outside s t [] ∧ (∃ u, sget none t.tokens base = some u ∧ u.holder = holderAgent h ∧ u.taint = false) ∧
        t.reclaimed = removeFirst (fun x => x = r) s.reclaimed)) ∧
    (answerAt s t0 r false h = some (k, i) →
      Gives (.regionRecovery base false h) s (fun t => Outside s t [] ∧ sget none t.tokens base = none)))

/-- What the firmware writes on request, and what it would refuse changes nothing (the model's choice, log 76): routine entries (R124), rules and
their removal, which empties every rule cache in the same step (R121 to R123; log 75),
spill regions (R138; the list of cores with a full deque is the model's, log 79), heap lines (R103, R305), pool blocks (R118), batch-graph registers with a zeroed slot area, which another resident's
register refuses (R130), reserved contexts (R195, R206), open regions (R107), cleared counters (R148), recovery cores (R217). -/
def Obligations.Services : Prop :=
  (∀ (s : State) (k j : Nat) (w0 w1 : Word), coreExists k = true → j < 16 → routineOk w0 w1 = true →
    (∀ i, i < 8 → (ctxOf s (8 * k + i)).hmode = false) → (coreAt s k).inbox = [] →
    (w1.getLsbD 63 = true → ∀ m, m < 16 → m ≠ j → routineValid (routineAt s k m) = true →
      routineClass (routineAt s k m) ≠ bits w1.toNat 62 58) →
    (w1.getLsbD 63 = true → routineValid (routineAt s k j) = true → routineAcct (routineAt s k j) = bits w1.toNat 11 0) →
    Gives (.routineWrite k j w0 w1) s (fun t => Outside s t [] ∧ routineAt t k j = (w0, w1) ∧ ∀ m, m ≠ j → routineAt t k m = routineAt s k m)) ∧
  (∀ (s : State) (k j m : Nat) (w0 w1 : Word), w1.getLsbD 63 = true → m < 16 → m ≠ j → routineValid (routineAt s k m) = true →
    routineClass (routineAt s k m) = bits w1.toNat 62 58 → exec (.routineWrite k j w0 w1) s = .next s) ∧
  (∀ (s : State) (k j : Nat) (w0 w1 : Word), w1.getLsbD 63 = true → routineValid (routineAt s k j) = true →
    routineAcct (routineAt s k j) ≠ bits w1.toNat 11 0 → exec (.routineWrite k j w0 w1) s = .next s) ∧
  (∀ (s : State) (r : RuleWrite) (pa : Nat), ruleAddable s r = true → rulePlace s r.index = some pa → cxlGone s pa = false →
    Gives (.ruleAddition [r]) s (fun t => readMem t pa 8 = r.w0.toNat ∧ readMem t (pa + 8) 8 = r.w1.toNat)) ∧
  (∀ (s : State) (r : RuleWrite), ruleAddable s r = false → exec (.ruleAddition [r]) s = .next s) ∧
  (∀ (s : State) (i pa : Nat), i < 2 ^ s.ruleLog → rulePlace s i = some pa → cxlGone s pa = false →
    Gives (.ruleRemoval [i]) s (fun t => readMem t pa 8 = 0 ∧ ∀ k, (coreAt t k).ruleCache = [])) ∧
  (∀ (s : State) (k base : Nat),
    (canPush s k (pushesWaiting s k) = false ∨ deepens s k = false → inCommons s base (2 ^ 20) 0 = true → Gives (.spillRegionAdd ⟨k, base⟩) s (fun t => Outside s t [] ∧
      (coreAt t k).spillBases = (coreAt s k).spillBases ++ [base] ∧ (coreAt t k).spillLimit = 32768 * ((coreAt s k).spillBases.length + 1) ∧
      k ∉ (dieAt t (dieOf (vertexOf k))).dequeFull)) ∧
    ((canPush s k (pushesWaiting s k) = true ∧ deepens s k = true) ∨ inCommons s base (2 ^ 20) 0 = false → exec (.spillRegionAdd ⟨k, base⟩) s = .next s)) ∧
  (∀ (s : State) (c : Nat), firmwareUp s c = true → (ctxOf s c).gang = none → (coreAt s (coreOf c)).killed = false →
    ((ctxOf s c).run = .idle → exec (.contextPreemptRequest c) s = .next (modCtx s c (fun y => { y with run := .reserved }))) ∧
    ((ctxOf s c).run = .ready → (ctxOf s c).hmode = true →
      exec (.contextPreemptRequest c) s = .next (modCtx s c (fun y => { y with preemptAsked := true })))) ∧
  (∀ (s : State) (c : Nat), (ctxOf s c).run = .reserved → s.gangs = [] →
    exec (.reservedContextRelease c) s = .next (modCtx s c (fun y => { y with run := .idle, preemptAsked := false }))) ∧
  (∀ (s : State) (h base size acct : Nat) (wire : Bool), h < 16 → acct < 4096 → size ≠ 0 → base % 256 = 0 → size % 256 = 0 → base + size ≤ 2 ^ 50 →
    inCommons s base size (BitVec.ofNat 12 acct) = true → s.cellHeaps = [] → s.wireHeaps = [] →
    Gives (.heapLineRegistration wire h base size acct) s (fun t =>
      heapOf t wire h = some { ranges := [(base, size)], acct := BitVec.ofNat 12 acct } ∧ MemKept s t)) ∧
  (∀ (s : State) (h base size acct : Nat) (wire : Bool), base % 256 ≠ 0 ∨ size % 256 ≠ 0 ∨ 2 ^ 50 < base + size ∨ inCommons s base size (BitVec.ofNat 12 acct) = false →
    exec (.heapLineRegistration wire h base size acct) s = .next s) ∧
  (∀ (s : State) (acct base n : Nat), acct < 4096 → base % 2 ^ n = 0 → s.tokens = [] → s.accounts = [] →
    Gives (.accountPoolAddition acct base n) s (fun t => Outside s t [] ∧ (accountOf t acct).pool = [(base, n)] ∧ (accountOf t acct).charge = 0)) ∧
  (∀ (s : State) (g base r pa home : Nat) (leaf : Word), g < 16 → base ≠ 0 → base % 65536 = 0 → sget 0 s.batchRegs g = 0 ∨ sget 0 s.batchOwners g = r →
    translateNow s base true = .ok (pa, home, leaf) →
    Gives (.batchGraphRegisterWrite g ⟨base, r⟩) s (fun t => sget 0 t.batchRegs g = base ∧ sget 0 t.batchOwners g = r ∧
      ∀ a, memByte t a = if pa ≤ a ∧ a < pa + 65536 then 0 else memByte s a)) ∧
  (∀ (s : State) (g base r : Nat), sget 0 s.batchRegs g ≠ 0 → sget 0 s.batchOwners g ≠ r →
    exec (.batchGraphRegisterWrite g ⟨base, r⟩) s = .next s) ∧
  (∀ (s : State) (base : Nat) (t0 : Token), sget none s.tokens base = some t0 → t0.base = base → t0.mode ≠ .commons → t0.lender = 0 →
    sget none (openRegion base s).tokens base = some { t0 with mode := .frozen, opened := true, xfer := t0.xfer + 1 }) ∧
  (∀ (s : State) (k : Nat), (coreAt (clearCounters (some k) s) k).counters = Counters.reset ∧ (clearCounters none s).statHostdrop = 0 ∧
    (clearCounters none s).statStopped = 0 ∧ (clearCounters none s).statThermal = 0 ∧ (clearCounters none s).statPoison = 0) ∧
  (∀ (s : State) (a k : Nat), 0 < a → a < 4096 → isExecute k = true → coreExists k = true → (accountOf (setRecovery a k s) a).recovery = some k)

/-! ### The host, power and the fabric -/

/-- The aperture (R128, R178, R383): a read of a readable range completes with its bytes, status 2 where a sector is poisoned, status 1 where the
host may not read; a posted write is performed, but for bytes of a slot area or a node status (R129, R133; log 104), or dropped and counted, or kept in order until the
bytes of its line have come; writing 1 into a FREE record's state admits it to its graph's
queue. BAR0 words are written whole, APBASE on 64 GiB; a read gives what may be read, and zero for what is write-only or reserved (R4, R384). -/
def Obligations.Aperture : Prop :=
  (∀ (s : State) (q o n pa h : Nat), requestOk o n 4096 = true → heldBack s q = false →
    let a := s.host.apbase.toNat + o
    a % 256 + n ≤ 256 →
    (hostPlace s a false = some (pa, h) → (reachL2 s .host h pa n 5 false).1 = true →
      Gives (.apertureRead q o n) s (fun t => Outside s t [] ∧ MemKept s t ∧
        t.host.completions = s.host.completions ++ [(q, if anyPoison s pa n then 2 else 0, bytesOf (readMem s pa n) n)])) ∧
    (hostPlace s a false = none → exec (.apertureRead q o n) s = .next (completeRead s q 1 []))) ∧
  (∀ (s : State) (q o pa h : Nat) (data : List Byte), requestOk o data.length 512 = true → heldBack s q = false →
    let a := s.host.apbase.toNat + o
    a % 256 + data.length ≤ 256 →
    (hostPlace s a true = some (pa, h) → inRequestTable s a = false → (reachL2 s .host h pa data.length 5 true).1 = true → cxlGone s pa = false →
      Gives (.apertureWrite q o data) s (fun t => (∀ i, i < data.length → memByte t (pa + i) =
          if slotByte s (pa + i) || statusByte s (pa + i) then memByte s (pa + i) else data.getD i 0) ∧
        (∀ b, b < pa ∨ pa + data.length ≤ b → memByte t b = memByte s b) ∧ t.statHostdrop = s.statHostdrop)) ∧
    (hostPlace s a true = none → exec (.apertureWrite q o data) s = .next { s with statHostdrop := s.statHostdrop + 1 })) ∧
  (∀ (s : State) (q o pa h : Nat) (data : List Byte), requestOk o data.length 512 = true → launchWaits s q = false →
    let a := s.host.apbase.toNat + o
    a % 256 + data.length ≤ 256 → hostPlace s a true = some (pa, h) → inRequestTable s a = false →
    heldBack s q = true ∨ (reachL2 s .host h pa data.length 5 true).1 = false →
    Gives (.apertureWrite q o data) s (fun t => MemKept s t ∧ t.host.posted = s.host.posted ++ [(q, a, data)] ∧ t.statHostdrop = s.statHostdrop)) ∧
  (∀ (s : State) (q o pa h w : Nat), requestOk o 8 512 = true → heldBack s q = false →
    let a := s.host.apbase.toNat + o
    a % 256 = 0 → pa % 256 = 0 → hostPlace s a true = some (pa, h) → inRequestTable s a = true → (reachL2 s .host h pa 8 5 true).1 = true →
    cxlGone s pa = false → recordState s pa = 0 → w < 2 ^ 64 → w % 8 = 1 →
    Gives (.apertureWrite q o (bytesOf w 8)) s (fun t => recordState t pa = 1 ∧
      let g := bits (readMem s (pa + 0x18) 8) 15 12
      sget [] t.admission g = sget [] s.admission g ++ [a])) ∧
  (∀ (s : State) (q : Nat) (w : Word), heldBack s q = false →
    (bits w.toNat 35 0 = 0 → exec (.controlRegisterWrite q 0 (bytesOf w.toNat 8)) s = .next { s with host := { s.host with apbase := w } }) ∧
    (bits w.toNat 35 0 ≠ 0 → exec (.controlRegisterWrite q 0 (bytesOf w.toNat 8)) s = .next s) ∧
    exec (.controlRegisterWrite q 8 (bytesOf w.toNat 8)) s = .next { s with host := { s.host with ringbase := w } } ∧
    exec (.controlRegisterWrite q 16 (bytesOf w.toNat 8)) s = .next { s with host := { s.host with evbase := w } } ∧
    ∀ i, i < 6 → exec (.controlRegisterWrite q (0x80 + 8 * i) (bytesOf w.toNat 8)) s =
      .next { s with host := { s.host with launch := s.host.launch.set i w } }) ∧
  (∀ (s : State) (q o n : Nat) (rest : List Turn), s.agenda = { cycles := 0, act := .outside (.controlRead q o n) } :: rest → s.clockStopped = false →
    requestOk o n 4096 = true → o + n ≤ 2 ^ 24 → heldBack s q = false →
    (o = 0 → n = 8 → step s = .next (completeRead { s with agenda := rest } q 0 (bytesOf s.host.apbase.toNat 8))) ∧
    (o = 0x18 → n = 8 → step s = .next (completeRead { s with agenda := rest } q 0 (bytesOf s.host.ringtail.toNat 4 ++ bytesOf s.host.ringhead.toNat 4))) ∧
    (0x28 ≤ o → step s = .next (completeRead { s with agenda := rest } q 0 (List.replicate n 0))))

/-- Launches of the host, the doorbell, events and RESYNC (R184, R185, R385, R386): LTARGET sends the LAUNCH words, whose first instruction comes 720 cycles later at the earliest (R18), or waits while 32
launches are out; a refused launch flies again after its wait; EVHEAD lets backlogged events be written; RESYNC with no command out writes
its summary (log 18), ends the ring's unstarted entries as aborted, and writes its event; a command's completion writes its event. Host commands (R92, R385, R391 to R393, R398): each is taken from the
ring when its entry stands there and does its work: TELEMETRY writes the module's and the vertex's counters, CLRSTART clears the sticky bits and
no more (log 82), FWSTAGE keeps an image that verifies, ATTEST writes its signature and leaf behind the nonce (log 15); a command of an unknown opcode ends with status 3, one whose operands are refused with
status 1. -/
def Obligations.HostQueuesAndCommands : Prop :=
  (∀ (s : State) (q : Nat) (w : Word), heldBack s q = false → s.host.waitingLaunches = [] →
    (entriesOf s .host < 32 → (∀ m ∈ s.messages, m.id < s.nextId) → Gives (.ltarget q w) s (fun t => Outside s t [] ∧ ∃ m, t.messages = s.messages ++ [m] ∧ m.home = .host ∧ m.msg.cls = 27 ∧
      m.msg.payload = s.host.launch ∧ m.msg.dest = w.toNat % 2 ^ 27 ∧ (m.phase = .flying → s.cycle + 719 ≤ m.due))) ∧
    (32 ≤ entriesOf s .host → Gives (.ltarget q w) s (fun t => Outside s t [] ∧ t.messages = s.messages ∧
      t.host.waitingLaunches = [(q, w, s.host.launch)]))) ∧
  (∀ (s : State) (id due : Nat) (f : MsgFlight), msgOf s id = some f → f.home = .host → f.phase = .backoff due → due ≤ s.cycle →
    Gives (.hostLaunchRetry id) s (fun t => Outside s t [] ∧ ∃ g, msgOf t id = some g ∧ g.phase = .flying ∧ g.msg = f.msg)) ∧
  (∀ (s : State) (q : Nat) (w : Word), heldBack s q = false →
    exec (.ringtail q w) s = .next { s with host := { s.host with ringtail := w.setWidth 32 } }) ∧
  (∀ (s : State) (q : Nat) (w : Word), heldBack s q = false → s.host.backlog = [] → s.host.resync = none →
    exec (.evhead q w) s = .next { s with host := { s.host with evhead := w.setWidth 32 } }) ∧
  (∀ (s : State) (q : Nat) (w : Word) (e : Word × Word), heldBack s q = false → s.host.backlog = [e] → s.host.resync = none →
    (s.host.evtail.toNat + 1) % 256 ≠ (w.setWidth 32).toNat % 256 →
    Gives (.evhead q w) s (fun t => Outside s t [] ∧ t.host.backlog = [] ∧ Told s t e.1 e.2)) ∧
  (∀ (s : State) (q : Nat) (b : Word), heldBack s q = false → s.host.command = none → s.host.backlog = [] → (apexOf s 0).isSome = true →
    1 ≤ eventRoom s → ringPending s = 0 →
    Gives (.resync q b) s (fun t => Outside s t [] ∧ t.host.resync = none ∧ Told s t 3 b)) ∧
  (∀ (s : State) (q tag : Nat) (b : Word), heldBack s q = false → s.host.command = none → s.host.backlog = [] → (apexOf s 0).isSome = true →
    2 ≤ eventRoom s → ringPending s = 1 → bits (ringWord s 0) 23 8 = tag →
    s.host.ringbase.toNat + 4096 ≤ b.toNat ∨ b.toNat + 4096 ≤ s.host.ringbase.toNat →
    Gives (.resync q b) s (fun t => Outside s t [] ∧ t.host.resync = none ∧ t.host.ringhead.toNat = (s.host.ringhead.toNat % 64 + 1) % 64 ∧
      t.host.evtail.toNat = (s.host.evtail.toNat % 256 + 2) % 256 ∧
      hostRead t (s.host.evbase.toNat + 16 * (s.host.evtail.toNat % 256)) 8 = tag * 2 ^ 8 + 2 * 2 ^ 24 ∧
      hostRead t (s.host.evbase.toNat + 16 * ((s.host.evtail.toNat % 256 + 1) % 256)) 8 = 3)) ∧
  (∀ (s : State) (q : Nat) (b : Word), heldBack s q = false → s.host.command = none → s.host.backlog = [] → (apexOf s 0).isSome = true →
    1 ≤ eventRoom s → ringPending s = 0 →
    s.host.evbase.toNat + 4096 ≤ b.toNat ∨ b.toNat + 4096 ≤ s.host.evbase.toNat →
    Gives (.resync q b) s (fun t =>
      (∀ e ∈ [(0, 0, 64, headerPart s), (64, 1, 256, healthPart s), (320, 2, 1024, graphPart s), (1344, 3, 512, batchPart s),
        (1856, 4, 1024, regionPart s), (2880, 5, 512, faultPart s), (3392, 6, 256, jobPart s)], ∀ i, i < e.2.2.1 →
          hostRead t (b.toNat + e.1 + i) 1 = (Config.summaryByte e.2.1 e.2.2.2 i).toNat) ∧
      hostRead t (b.toNat + 3648) 8 = s.startHeader.1.toNat ∧ hostRead t (b.toNat + 3656) 8 = s.startHeader.2.toNat ∧
      ∀ i, i < 27 → hostRead t (b.toNat + 3664 + 16 * i) 8 = (s.startRecord.getD i (0, 0)).1.toNat ∧
        hostRead t (b.toNat + 3672 + 16 * i) 8 = (s.startRecord.getD i (0, 0)).2.toNat)) ∧
  (∀ (s : State) (q : Nat) (b : Word), heldBack s q = false → s.host.command ≠ none →
    exec (.resync q b) s = .next { s with host := { s.host with resync := some b } }) ∧
  (∀ (s : State) (tag op status : Nat) (v : Word), s.host.command = some (tag, op, status, v) → (apexOf s 0).isSome = true → eventsFull s = false →
    s.host.backlog = [] → s.host.resync = none → tag < 65536 → status < 4 →
    Gives (.hostCommandCompletion) s (fun t => Outside s t [] ∧ t.host.command = none ∧ Told s t (BitVec.ofNat 64 (tag * 2 ^ 8 + status * 2 ^ 24)) v)) ∧
  (∀ (s : State) (tag va a : Nat), Commanded s 1 tag [s.root, va] → leafPlace s (va % 2 ^ 53) 4 0 s.root = some a → cxlGone s a = false →
    Gives (.unmap tag s.root va) s (fun t => Taken s t 1 tag 0 ∧ readMem t a 8 = readMem s a 8 % 2 ^ 63 ∧
      (∀ k, ∀ e ∈ (coreAt t k).tlb, ¬(e.page ≤ va % 2 ^ 53 ∧ va % 2 ^ 53 < e.page + 2 ^ e.lsize)) ∧
      ∀ v, ∀ e ∈ (clusterAt t v).tlb, ¬(e.page ≤ va % 2 ^ 53 ∧ va % 2 ^ 53 < e.page + 2 ^ e.lsize))) ∧
  (∀ (s : State) (tag a n : Nat), Commanded s 2 tag [a, n] →
    (0 < a → a < 4096 → n < 2 ^ 32 → (accountOf s a).charge ≤ n * 65536 →
      Gives (.quota tag a n) s (fun t => Outside s t [] ∧ Taken s t 2 tag 0 ∧ accountOf t a = { accountOf s a with quota := BitVec.ofNat 32 n })) ∧
    (n * 65536 < (accountOf s a).charge → Gives (.quota tag a n) s (fun t => Outside s t [] ∧ Taken s t 2 tag 1 ∧ t.accounts = s.accounts))) ∧
  (∀ (s : State) (tag b : Nat) (x : Word), Commanded s 3 tag [b, x.toNat] → bits x.toNat 63 9 = 0 →
    Gives (.telemetry tag b x) s (fun t => Outside s t [] ∧ Taken s t 3 tag 0 ∧ hostRead t b 8 = s.statStopped.toNat ∧
      hostRead t (b + 8) 8 = s.statHostdrop.toNat ∧ hostRead t (b + 16) 8 = s.statThermal.toNat ∧ hostRead t (b + 24) 8 = s.statPoison.toNat ∧
      ∀ k, k < 11 → ∀ i e : Nat,
        let v := vertexAt (bits x.toNat 1 0) (bits x.toNat 8 2)
        let y := (coreAt s (16 * v + if 9 ≤ k then k + 5 else k)).counters
        let live := k < 9 ∨ isApexVertex v = true
        (live → [y.issued, y.parked, y.bank, y.tokmiss, y.rulemiss, y.refused, y.retries, y.undeliv, y.steals, y.spills, y.dupbytes, y.checker][i]? = some (BitVec.ofNat 64 e) →
          e < 2 ^ 64 → hostRead t (b + 0x200 + 0x200 * k + 8 * i) 8 = e) ∧
        (live → 1 ≤ i → i < 64 → hostRead t (b + 0x200 + 0x200 * k + 0x100 + 4 * i) 4 = (sget 0 y.faults i).toNat) ∧
        (¬ live → i < 64 → hostRead t (b + 0x200 + 0x200 * k + 8 * i) 8 = 0))) ∧
  (∀ (s : State) (tag : Nat), Commanded s 4 tag [] →
    Gives (.clrstart tag) s (fun t => Outside s t [] ∧ Taken s t 4 tag 0 ∧ ∀ i, stepSticky (entryOf t i) = false ∧ stepOutcome (entryOf t i) = stepOutcome (entryOf s i))) ∧
  (∀ (s : State) (tag a n : Nat), Commanded s 5 tag [a, n] →
    let image := bytesOf (hostRead s a n) n
    Gives (.fwstage tag a n) s (fun t => Outside s t [] ∧ Taken s t 5 tag (if imageOk s image then 0 else 1) ∧
      t.stagedImage = (imageOk s image || s.stagedImage) ∧
      t.firmware = if imageOk s image then sput [] s.firmware (1 - s.firmwareSlot) image else s.firmware)) ∧
  (∀ (s : State) (tag b : Nat), Commanded s 6 tag [b] →
    (s.attestLeaf < 32768 → Gives (.attest tag b) s (fun t => Outside s t [] ∧ t.attestLeaf = s.attestLeaf + 1 ∧ Taken s t 6 tag 0 ∧
      t.host.command = some (tag, 6, 0, BitVec.ofNat 64 (32767 - s.attestLeaf)) ∧
      (∀ i, i < 2668 → hostRead t (b + 32 + i) 1 = (Config.signatureByte s.attestLeaf (bytesOf (hostRead s b 32) 32)
        (sget [] s.firmware s.firmwareSlot) (recordBytes s) i).toNat) ∧
      hostRead t (b + 2700) 4 = s.attestLeaf ∧ hostRead t (b + 2704) 4 = 32767 - s.attestLeaf)) ∧
    (32768 ≤ s.attestLeaf → Gives (.attest tag b) s (fun t => Outside s t [] ∧ t.attestLeaf = s.attestLeaf ∧ Taken s t 6 tag 1))) ∧
  (∀ (s : State) (tag w : Nat), Commanded s 7 tag [w] →
    (1800 ≤ w → w ≤ 2600 → Gives (.powerlim tag w) s (fun t => Outside s t [] ∧ Taken s t 7 tag 0 ∧ t.powerLimit = w)) ∧
    (w < 1800 ∨ 2600 < w → Gives (.powerlim tag w) s (fun t => Outside s t [] ∧ Taken s t 7 tag 1 ∧ t.powerLimit = s.powerLimit))) ∧
  (∀ (s : State) (tag op : Nat), Commanded s op tag [] → op = 0 ∨ 7 < op → op < 256 →
    Gives (.unknownCommand tag op) s (fun t => Outside s t [] ∧ Taken s t op tag 3 ∧ t.mem = s.mem))

/-- While the module clock is stopped, turns let no module cycle pass and issue nothing: the stopped cycles are counted (R20, R148).
Power, expansion memory, the fabric and start-up (R20, R219, R222, R388 to R390, R393, R394): while the clock is stopped no cycle passes,
no core issues and no event of the module happens; a limit acts when the reading says that it is reached; a port that goes down poisons what lies behind it; a peer's stop notice holds it, and ten notice times of silence lose it, so that an apex core of die 0 claims its regions with taint (one notice counts for every interval, log 80); a load of
another device's agent is checked here and answered (R88, R113, R175);
start-up runs its nine steps and a mandatory one that fails halts it; a loss of power clears memory and keeps what is non-volatile. -/
def Obligations.PowerAndFabric : Prop :=
  (∀ (s : State) (n k x : Nat) (rest : List Turn), s.agenda = { cycles := n, act := .issue k x } :: rest → s.clockStopped = true →
    step s = .next { s with agenda := rest, statStopped := s.statStopped + BitVec.ofNat 64 n, stoppedAll := s.stoppedAll + n }) ∧
  (∀ (s : State) (d : Nat), d < 4 → s.clockStopped = false → Gives (.emergencyLimit d) s (fun t => Outside s t [] ∧ t.cycle = s.cycle ∧
    (t.clockStopped = true ↔ 2900 ≤ modulePower s.free ∨ 105 ≤ dieHeat s.free d))) ∧
  (∀ (s : State), s.clockStopped = true → Gives .clockRestart s (fun t => Outside s t [] ∧
    (t.clockStopped = false ↔ modulePower s.free ≤ 2850 ∧ ∀ d, d < 4 → dieHeat s.free d ≤ 100))) ∧
  (∀ (s : State) (d cause : Nat), d < 4 → cause = 1 ∨ cause = 2 → s.host.backlog = [] → eventsFull s = false →
    Gives (.limitReached d cause) s (fun t => Outside s t [] ∧ t.clockStopped = s.clockStopped ∧
      let met := (cause = 1 ∧ s.powerLimit ≤ modulePower s.free) ∨ (cause = 2 ∧ 95 ≤ dieHeat s.free d)
      (met → t.statThermal = s.statThermal + 1 ∧ Told s t 1 (BitVec.ofNat 64 (d + cause * 16))) ∧
      (¬ met → t.statThermal = s.statThermal ∧ t.host = s.host))) ∧
  (∀ (s : State) (p : Nat), p < 4 → s.cxlDown.contains p = false → s.host.backlog = [] → eventsFull s = false →
    Gives (.cxlLinkDown p) s (fun t => Outside s t [] ∧ (∀ pa, cxlPort pa = some p → isPoisoned t pa = true) ∧ Told s t 5 (BitVec.ofNat 64 p))) ∧
  (∀ (s : State) (p : Nat), s.portsUp.contains p = true →
    exec (.ralquelPortDown p []) s = .next { s with
      portsUp := s.portsUp.filter (· ≠ p)
      draining := s.draining ++ ((s.flights.filter (fun f => usesPort s p f)).filter (fun f => f.ordered && !f.done)).map (·.id) }) ∧
  (∀ (s : State) (p id : Nat) (f : Flight Regs), s.portsUp.contains p = true → flightOf s id = some f → usesPort s p f = true → f.undo ≠ none → f.back ≤ s.cycle →
    f.ctx < 65536 → (ctxOf s f.ctx).drain = none → (coreAt s (coreOf f.ctx)).killed = false →
    (∀ h ∈ s.flights, h.ctx = f.ctx → h.id < f.id → h.posted = true ∧ h.done = true) →
    Gives (.ralquelPortDown p [id]) s (fun t => flightOf t id = none ∧ (ctxOf t f.ctx).run = .trapped)) ∧
  (∀ (s : State), s.clockStopped = true → 160000 ≤ (s.statStopped - s.noticeAt).toNat →
    exec .stopNotice s = .next { s with noticeAt := s.statStopped, notices := s.notices + 1 }) ∧
  (∀ (s : State) (d : Nat), d ≠ s.device → s.peersLost.contains d = false → s.peersStopped.contains d = false →
    exec (.stopNoticeReceived d) s = .next { peerSpoke s d with peersStopped := d :: s.peersStopped }) ∧
  (∀ (s : State) (d : Nat), exec (.peerAnswersAgain d) s = .next { peerSpoke s d with peersStopped := s.peersStopped.filter (· ≠ d) }) ∧
  (∀ (s : State) (d : Nat), s.peersLost.contains d = true ∨ s.cycle + s.stoppedAll < sget 0 s.peerSeen d + 1600000 →
    exec (.peerLost d) s = .next s) ∧
  (∀ (s : State) (d : Nat), d ≠ s.device → s.peersLost.contains d = false → sget 0 s.peerSeen d + 1600000 ≤ s.cycle + s.stoppedAll → s.host.backlog = [] →
    eventsFull s = false → Gives (.peerLost d) s (fun t => Outside s t [] ∧ t.peersLost = d :: s.peersLost ∧ t.peersStopped = s.peersStopped.filter (· ≠ d) ∧ Told s t 6 (BitVec.ofNat 64 d))) ∧
  (∀ (s : State) (d a base r : Nat) (t0 : Token), d ≠ s.device → s.peersLost.contains d = false → sget 0 s.peerSeen d + 1600000 ≤ s.cycle + s.stoppedAll →
    apexOf s 0 = some a → s.tokens = [(base, some t0)] → t0.base = base → t0.lender = 0 → holderKind t0.holder = 1 → holderVal t0.holder < 2 ^ 27 →
    agentDevice (holderVal t0.holder) = d → s.claimed = [] → (accountOf s t0.acct.toNat).recovery = some r →
    Gives (.peerLost d) s (fun t => (∃ u, sget none t.tokens base = some u ∧ u.holder = holderAgent (agentOf s (8 * a)) ∧
        u.taint = (t0.taint || t0.wr) ∧ u.wr = false ∧ u.xfer = t0.xfer + 1) ∧
      ∃ m ∈ t.messages, m.msg.cls = 24 ∧ m.msg.payload =
        [BitVec.ofNat 64 base, BitVec.ofNat 64 (t0.lsize + (t0.taint || t0.wr).toNat * 256), BitVec.ofNat 64 (holderVal t0.holder), 0, 0, 0])) ∧
  (∀ (s : State) (rest : List Turn) (d : Nat), s.agenda = { cycles := 0, act := .event (.peerLost d) } :: rest → s.clockStopped = true →
    step s = .next { s with agenda := rest }) ∧
  (∀ (s : State) (rest : List Turn) (agent n pa home : Nat) (ref leaf : Word),
    s.agenda = { cycles := 0, act := .outside (.serve agent ref (.load n false)) } :: rest → s.clockStopped = false → agentDevice agent ≠ s.device →
    namesAgent agent = true → ref.toNat / 2 ^ 53 = s.device →
    let va := ref.toNat % 2 ^ 53
    va < 0x1FFFFF00000000 → translateNow s va false = .ok (pa, home, leaf) →
    (∀ c x, leafWr leaf = true → tokenCheckNow s [holderAgent agent] none va .read = some (c, x) →
      step s = .next { peerSpoke s (agentDevice agent) with agenda := rest, answers := s.answers ++ [(agent, c, [])] }) ∧
    (leafWr leaf = false ∨ tokenCheckNow s [holderAgent agent] none va .read = none → cxlGone s pa = false → (reachL2 s (.remote agent) (home % 2048) pa n (home / 2048) false).1 = true →
      anyPoison s pa n = false → ∃ t, step s = .next t ∧ MemKept s t ∧
        t.answers = s.answers ++ [(agent, 0, (List.range (ceilDiv n 8)).map (fun i => BitVec.ofNat 64 (readMem s (pa + 8 * i) (min 8 n))))])) ∧
  (∀ (s : State) (cfg : StartConfig), s.startRecord = [] → cfg.steps.length = 9 → (∀ e ∈ cfg.steps, e.1 = true) →
    Gives (.startUp cfg) s (fun t => t.root = cfg.root ∧
      (imageOk s (bootImage s) = true → t.hostOnline = true ∧ t.device = cfg.device % 2048 ∧
        ∀ i, 1 ≤ i → i ≤ 9 → stepWritten (entryOf t i) = true ∧ stepOutcome (entryOf t i) = 0) ∧
      (imageOk s (bootImage s) = false → t.hostOnline = false ∧ t.startHalted = some 1 ∧ stepOutcome (entryOf t 1) = 1) ∧
      ∀ a, a < 0x18000000000 → memByte t a = 0)) ∧
  (∀ (s : State) (cfg : StartConfig) (n c : Nat) (l : List (Bool × Nat × Nat)), cfg.steps = (false, n, c) :: l →
    Gives (.startUp cfg) s (fun t => t.hostOnline = false ∧ t.startHalted = some 1 ∧ stepOutcome (entryOf t 1) = 1)) ∧
  (∀ (s : State) (i : Nat), 1 ≤ i → i ≤ 9 →
    Gives (.powerLoss i) s (fun t => stepOutcome (entryOf t i) = 1 ∧ t.attestLeaf = s.attestLeaf ∧ t.hostOnline = false ∧ t.tokens = [] ∧
      ∀ a, a < 0x18000000000 → memByte t a = 0))
end

