-- ==== Sys2Proof/Laws/Store.lean ====
section
/-! SUPPORT. Reading after writing a store, and its canonical form. -/

namespace Sys2Proof.Machine

variable {α : Type}

theorem sget_sins_self (d : α) (m : Store α) (a : Nat) (v : α) : sget d (sins a v m) a = v := by
  induction m with
  | nil => simp [sins, sget]
  | cons e m ih => grind [sins, sget]

theorem sget_sins_ne (d : α) (m : Store α) {a b : Nat} (v : α) (h : b ≠ a) : sget d (sins a v m) b = sget d m b := by
  induction m with
  | nil => simp [sins, sget, h]
  | cons e m ih => grind [sins, sget]

theorem sget_filter_self (d : α) (m : Store α) (a : Nat) : sget d (m.filter (fun e => e.1 ≠ a)) a = d := by
  induction m with
  | nil => rfl
  | cons e m ih => grind [sget]

theorem sget_filter_ne (d : α) (m : Store α) {a b : Nat} (h : b ≠ a) : sget d (m.filter (fun e => e.1 ≠ a)) b = sget d m b := by
  induction m with
  | nil => rfl
  | cons e m ih => grind [sget]

/-- What was written is read. -/
@[simp] theorem sget_sput_self [DecidableEq α] (d : α) (m : Store α) (a : Nat) (v : α) : sget d (sput d m a v) a = v := by
  unfold sput
  split
  · rename_i h
    rw [h]
    exact sget_filter_self d m a
  · exact sget_sins_self d m a v

/-- Every other key reads as before. -/
theorem sget_sput_ne [DecidableEq α] (d : α) (m : Store α) {a b : Nat} (v : α) (h : b ≠ a) : sget d (sput d m a v) b = sget d m b := by
  unfold sput
  split
  · exact sget_filter_ne d m h
  · exact sget_sins_ne d m v h

theorem sget_sput [DecidableEq α] (d : α) (m : Store α) (a b : Nat) (v : α) : sget d (sput d m a v) b = if b = a then v else sget d m b := by
  split
  · simp_all
  · exact sget_sput_ne d m v ‹_›

/-! ### The canonical form -/

/-- A lower bound may be lowered. -/
theorem sortedAbove_mono [DecidableEq α] (d : α) {m : Store α} {l k : Nat} (hk : l ≤ k) (h : sortedAbove d (some k) m = true) :
    sortedAbove d (some l) m = true := by
  cases m with
  | nil => rfl
  | cons e m => grind [sortedAbove]

theorem sortedAbove_none [DecidableEq α] (d : α) {m : Store α} {lo : Option Nat} (h : sortedAbove d lo m = true) :
    sortedAbove d none m = true := by
  cases m with
  | nil => rfl
  | cons e m => cases lo <;> grind [sortedAbove]

theorem sortedAbove_filter [DecidableEq α] (d : α) (p : Nat × α → Bool) (m : Store α) (lo : Option Nat) (h : sortedAbove d lo m = true) :
    sortedAbove d lo (m.filter p) = true := by
  induction m generalizing lo with
  | nil => rfl
  | cons e m ih =>
    obtain ⟨k, v⟩ := e
    simp only [sortedAbove, Bool.and_eq_true] at h
    rw [List.filter_cons]
    split
    · simp only [sortedAbove, Bool.and_eq_true]
      exact ⟨h.1, ih _ h.2⟩
    · cases lo with
      | none => exact sortedAbove_none d (ih _ h.2)
      | some l => exact sortedAbove_mono d (by have := h.1.1; simp only [decide_eq_true_eq] at this; omega) (ih _ h.2)

theorem sortedAbove_sins [DecidableEq α] (d : α) (m : Store α) (lo : Option Nat) (a : Nat) (v : α) (hv : v ≠ d)
    (ha : ∀ l, lo = some l → l < a) (h : sortedAbove d lo m = true) : sortedAbove d lo (sins a v m) = true := by
  induction m generalizing lo with
  | nil => cases lo <;> simp_all [sins, sortedAbove]
  | cons e m ih =>
    obtain ⟨k, w⟩ := e
    simp only [sortedAbove, Bool.and_eq_true] at h
    unfold sins
    split
    · cases lo <;> simp_all [sortedAbove]
    · split
      · cases lo <;> simp_all [sortedAbove]
      · simp only [sortedAbove, Bool.and_eq_true]
        exact ⟨h.1, ih _ (by rintro l ⟨⟩; omega) h.2⟩

/-- A write keeps the canonical form. -/
theorem ok_sput [DecidableEq α] (d : α) (m : Store α) (a : Nat) (v : α) (h : Store.ok d m = true) : Store.ok d (sput d m a v) = true := by
  unfold sput
  split
  · exact sortedAbove_filter d _ m none h
  · exact sortedAbove_sins d m none a v ‹_› (by simp) h

/-- Taking entries out keeps the canonical form. -/
theorem ok_filter [DecidableEq α] (d : α) (p : Nat × α → Bool) (m : Store α) (h : Store.ok d m = true) : Store.ok d (m.filter p) = true :=
  sortedAbove_filter d p m none h

/-- Below its first key a store reads the default. -/
theorem sget_above [DecidableEq α] (d : α) {m : Store α} {l b : Nat} (h : sortedAbove d (some l) m = true) (hb : b ≤ l) : sget d m b = d := by
  induction m generalizing l with
  | nil => rfl
  | cons e m ih =>
    obtain ⟨k, v⟩ := e
    simp only [sortedAbove, Bool.and_eq_true, decide_eq_true_eq] at h
    have : b ≠ k := by omega
    simp only [sget, this, if_false]
    exact ih h.2 (by omega)

end Sys2Proof.Machine
end

