-- ==== Sys2Proof/Laws/State.lean ====
section
/-! SUPPORT. What each update of a table leaves of every other field of the state, and what reading it gives. -/

namespace Sys2Proof.Machine

variable (s : State)

/-! ### setCtx -/

@[simp] theorem setCtx_agenda (c : Nat) (x : Ctx) : (setCtx s c x).agenda = s.agenda := rfl
@[simp] theorem setCtx_turns (c : Nat) (x : Ctx) : (setCtx s c x).turns = s.turns := rfl
@[simp] theorem setCtx_cur (c : Nat) (x : Ctx) : (setCtx s c x).cur = s.cur := rfl
@[simp] theorem setCtx_free (c : Nat) (x : Ctx) : (setCtx s c x).free = s.free := rfl
@[simp] theorem setCtx_cycle (c : Nat) (x : Ctx) : (setCtx s c x).cycle = s.cycle := rfl
@[simp] theorem setCtx_clockStopped (c : Nat) (x : Ctx) : (setCtx s c x).clockStopped = s.clockStopped := rfl
@[simp] theorem setCtx_device (c : Nat) (x : Ctx) : (setCtx s c x).device = s.device := rfl
@[simp] theorem setCtx_mem (c : Nat) (x : Ctx) : (setCtx s c x).mem = s.mem := rfl
@[simp] theorem setCtx_poisoned (c : Nat) (x : Ctx) : (setCtx s c x).poisoned = s.poisoned := rfl
@[simp] theorem setCtx_stamps (c : Nat) (x : Ctx) : (setCtx s c x).stamps = s.stamps := rfl
@[simp] theorem setCtx_root (c : Nat) (x : Ctx) : (setCtx s c x).root = s.root := rfl
@[simp] theorem setCtx_ruleBase (c : Nat) (x : Ctx) : (setCtx s c x).ruleBase = s.ruleBase := rfl
@[simp] theorem setCtx_ruleLog (c : Nat) (x : Ctx) : (setCtx s c x).ruleLog = s.ruleLog := rfl
@[simp] theorem setCtx_batchRegs (c : Nat) (x : Ctx) : (setCtx s c x).batchRegs = s.batchRegs := rfl
@[simp] theorem setCtx_batchOwners (c : Nat) (x : Ctx) : (setCtx s c x).batchOwners = s.batchOwners := rfl
@[simp] theorem setCtx_batches (c : Nat) (x : Ctx) : (setCtx s c x).batches = s.batches := rfl
@[simp] theorem setCtx_quarantine (c : Nat) (x : Ctx) : (setCtx s c x).quarantine = s.quarantine := rfl
@[simp] theorem setCtx_tokens (c : Nat) (x : Ctx) : (setCtx s c x).tokens = s.tokens := rfl
@[simp] theorem setCtx_accounts (c : Nat) (x : Ctx) : (setCtx s c x).accounts = s.accounts := rfl
@[simp] theorem setCtx_cellHeaps (c : Nat) (x : Ctx) : (setCtx s c x).cellHeaps = s.cellHeaps := rfl
@[simp] theorem setCtx_wireHeaps (c : Nat) (x : Ctx) : (setCtx s c x).wireHeaps = s.wireHeaps := rfl
@[simp] theorem setCtx_cells (c : Nat) (x : Ctx) : (setCtx s c x).cells = s.cells := rfl
@[simp] theorem setCtx_wires (c : Nat) (x : Ctx) : (setCtx s c x).wires = s.wires := rfl
@[simp] theorem setCtx_cores (c : Nat) (x : Ctx) : (setCtx s c x).cores = s.cores := rfl
@[simp] theorem setCtx_clusters (c : Nat) (x : Ctx) : (setCtx s c x).clusters = s.clusters := rfl
@[simp] theorem setCtx_dies (c : Nat) (x : Ctx) : (setCtx s c x).dies = s.dies := rfl
@[simp] theorem setCtx_slices (c : Nat) (x : Ctx) : (setCtx s c x).slices = s.slices := rfl
@[simp] theorem setCtx_nextId (c : Nat) (x : Ctx) : (setCtx s c x).nextId = s.nextId := rfl
@[simp] theorem setCtx_flights (c : Nat) (x : Ctx) : (setCtx s c x).flights = s.flights := rfl
@[simp] theorem setCtx_messages (c : Nat) (x : Ctx) : (setCtx s c x).messages = s.messages := rfl
@[simp] theorem setCtx_graphs (c : Nat) (x : Ctx) : (setCtx s c x).graphs = s.graphs := rfl
@[simp] theorem setCtx_gangs (c : Nat) (x : Ctx) : (setCtx s c x).gangs = s.gangs := rfl
@[simp] theorem setCtx_groups (c : Nat) (x : Ctx) : (setCtx s c x).groups = s.groups := rfl
@[simp] theorem setCtx_releases (c : Nat) (x : Ctx) : (setCtx s c x).releases = s.releases := rfl
@[simp] theorem setCtx_admission (c : Nat) (x : Ctx) : (setCtx s c x).admission = s.admission := rfl
@[simp] theorem setCtx_pools (c : Nat) (x : Ctx) : (setCtx s c x).pools = s.pools := rfl
@[simp] theorem setCtx_host (c : Nat) (x : Ctx) : (setCtx s c x).host = s.host := rfl
@[simp] theorem setCtx_startRecord (c : Nat) (x : Ctx) : (setCtx s c x).startRecord = s.startRecord := rfl
@[simp] theorem setCtx_startHeader (c : Nat) (x : Ctx) : (setCtx s c x).startHeader = s.startHeader := rfl
@[simp] theorem setCtx_firmwareSlot (c : Nat) (x : Ctx) : (setCtx s c x).firmwareSlot = s.firmwareSlot := rfl
@[simp] theorem setCtx_firmware (c : Nat) (x : Ctx) : (setCtx s c x).firmware = s.firmware := rfl
@[simp] theorem setCtx_stagedImage (c : Nat) (x : Ctx) : (setCtx s c x).stagedImage = s.stagedImage := rfl
@[simp] theorem setCtx_attestLeaf (c : Nat) (x : Ctx) : (setCtx s c x).attestLeaf = s.attestLeaf := rfl
@[simp] theorem setCtx_powerLimit (c : Nat) (x : Ctx) : (setCtx s c x).powerLimit = s.powerLimit := rfl
@[simp] theorem setCtx_statStopped (c : Nat) (x : Ctx) : (setCtx s c x).statStopped = s.statStopped := rfl
@[simp] theorem setCtx_statHostdrop (c : Nat) (x : Ctx) : (setCtx s c x).statHostdrop = s.statHostdrop := rfl
@[simp] theorem setCtx_statThermal (c : Nat) (x : Ctx) : (setCtx s c x).statThermal = s.statThermal := rfl
@[simp] theorem setCtx_statPoison (c : Nat) (x : Ctx) : (setCtx s c x).statPoison = s.statPoison := rfl
@[simp] theorem setCtx_cxlSizes (c : Nat) (x : Ctx) : (setCtx s c x).cxlSizes = s.cxlSizes := rfl
@[simp] theorem setCtx_cxlDown (c : Nat) (x : Ctx) : (setCtx s c x).cxlDown = s.cxlDown := rfl
@[simp] theorem setCtx_portsUp (c : Nat) (x : Ctx) : (setCtx s c x).portsUp = s.portsUp := rfl
@[simp] theorem setCtx_routes (c : Nat) (x : Ctx) : (setCtx s c x).routes = s.routes := rfl
@[simp] theorem setCtx_peersStopped (c : Nat) (x : Ctx) : (setCtx s c x).peersStopped = s.peersStopped := rfl
@[simp] theorem setCtx_peersLost (c : Nat) (x : Ctx) : (setCtx s c x).peersLost = s.peersLost := rfl
@[simp] theorem setCtx_peerSeen (c : Nat) (x : Ctx) : (setCtx s c x).peerSeen = s.peerSeen := rfl
@[simp] theorem setCtx_hostOnline (c : Nat) (x : Ctx) : (setCtx s c x).hostOnline = s.hostOnline := rfl
@[simp] theorem setCtx_startHalted (c : Nat) (x : Ctx) : (setCtx s c x).startHalted = s.startHalted := rfl
@[simp] theorem setCtx_answers (c : Nat) (x : Ctx) : (setCtx s c x).answers = s.answers := rfl
@[simp] theorem setCtx_claimed (c : Nat) (x : Ctx) : (setCtx s c x).claimed = s.claimed := rfl
@[simp] theorem setCtx_reclaimed (c : Nat) (x : Ctx) : (setCtx s c x).reclaimed = s.reclaimed := rfl
@[simp] theorem setCtx_lastRecords (c : Nat) (x : Ctx) : (setCtx s c x).lastRecords = s.lastRecords := rfl
@[simp] theorem setCtx_noticeAt (c : Nat) (x : Ctx) : (setCtx s c x).noticeAt = s.noticeAt := rfl
@[simp] theorem setCtx_notices (c : Nat) (x : Ctx) : (setCtx s c x).notices = s.notices := rfl
@[simp] theorem setCtx_stoppedAll (c : Nat) (x : Ctx) : (setCtx s c x).stoppedAll = s.stoppedAll := rfl
@[simp] theorem setCtx_draining (c : Nat) (x : Ctx) : (setCtx s c x).draining = s.draining := rfl
@[simp] theorem setCtx_fuseKey (c : Nat) (x : Ctx) : (setCtx s c x).fuseKey = s.fuseKey := rfl
@[simp] theorem setCtx_minVersion (c : Nat) (x : Ctx) : (setCtx s c x).minVersion = s.minVersion := rfl

/-! ### modCtx -/

@[simp] theorem modCtx_agenda (c : Nat) (f : Ctx → Ctx) : (modCtx s c f).agenda = s.agenda := rfl
@[simp] theorem modCtx_turns (c : Nat) (f : Ctx → Ctx) : (modCtx s c f).turns = s.turns := rfl
@[simp] theorem modCtx_cur (c : Nat) (f : Ctx → Ctx) : (modCtx s c f).cur = s.cur := rfl
@[simp] theorem modCtx_free (c : Nat) (f : Ctx → Ctx) : (modCtx s c f).free = s.free := rfl
@[simp] theorem modCtx_cycle (c : Nat) (f : Ctx → Ctx) : (modCtx s c f).cycle = s.cycle := rfl
@[simp] theorem modCtx_clockStopped (c : Nat) (f : Ctx → Ctx) : (modCtx s c f).clockStopped = s.clockStopped := rfl
@[simp] theorem modCtx_device (c : Nat) (f : Ctx → Ctx) : (modCtx s c f).device = s.device := rfl
@[simp] theorem modCtx_mem (c : Nat) (f : Ctx → Ctx) : (modCtx s c f).mem = s.mem := rfl
@[simp] theorem modCtx_poisoned (c : Nat) (f : Ctx → Ctx) : (modCtx s c f).poisoned = s.poisoned := rfl
@[simp] theorem modCtx_stamps (c : Nat) (f : Ctx → Ctx) : (modCtx s c f).stamps = s.stamps := rfl
@[simp] theorem modCtx_root (c : Nat) (f : Ctx → Ctx) : (modCtx s c f).root = s.root := rfl
@[simp] theorem modCtx_ruleBase (c : Nat) (f : Ctx → Ctx) : (modCtx s c f).ruleBase = s.ruleBase := rfl
@[simp] theorem modCtx_ruleLog (c : Nat) (f : Ctx → Ctx) : (modCtx s c f).ruleLog = s.ruleLog := rfl
@[simp] theorem modCtx_batchRegs (c : Nat) (f : Ctx → Ctx) : (modCtx s c f).batchRegs = s.batchRegs := rfl
@[simp] theorem modCtx_batchOwners (c : Nat) (f : Ctx → Ctx) : (modCtx s c f).batchOwners = s.batchOwners := rfl
@[simp] theorem modCtx_batches (c : Nat) (f : Ctx → Ctx) : (modCtx s c f).batches = s.batches := rfl
@[simp] theorem modCtx_quarantine (c : Nat) (f : Ctx → Ctx) : (modCtx s c f).quarantine = s.quarantine := rfl
@[simp] theorem modCtx_tokens (c : Nat) (f : Ctx → Ctx) : (modCtx s c f).tokens = s.tokens := rfl
@[simp] theorem modCtx_accounts (c : Nat) (f : Ctx → Ctx) : (modCtx s c f).accounts = s.accounts := rfl
@[simp] theorem modCtx_cellHeaps (c : Nat) (f : Ctx → Ctx) : (modCtx s c f).cellHeaps = s.cellHeaps := rfl
@[simp] theorem modCtx_wireHeaps (c : Nat) (f : Ctx → Ctx) : (modCtx s c f).wireHeaps = s.wireHeaps := rfl
@[simp] theorem modCtx_cells (c : Nat) (f : Ctx → Ctx) : (modCtx s c f).cells = s.cells := rfl
@[simp] theorem modCtx_wires (c : Nat) (f : Ctx → Ctx) : (modCtx s c f).wires = s.wires := rfl
@[simp] theorem modCtx_cores (c : Nat) (f : Ctx → Ctx) : (modCtx s c f).cores = s.cores := rfl
@[simp] theorem modCtx_clusters (c : Nat) (f : Ctx → Ctx) : (modCtx s c f).clusters = s.clusters := rfl
@[simp] theorem modCtx_dies (c : Nat) (f : Ctx → Ctx) : (modCtx s c f).dies = s.dies := rfl
@[simp] theorem modCtx_slices (c : Nat) (f : Ctx → Ctx) : (modCtx s c f).slices = s.slices := rfl
@[simp] theorem modCtx_nextId (c : Nat) (f : Ctx → Ctx) : (modCtx s c f).nextId = s.nextId := rfl
@[simp] theorem modCtx_flights (c : Nat) (f : Ctx → Ctx) : (modCtx s c f).flights = s.flights := rfl
@[simp] theorem modCtx_messages (c : Nat) (f : Ctx → Ctx) : (modCtx s c f).messages = s.messages := rfl
@[simp] theorem modCtx_graphs (c : Nat) (f : Ctx → Ctx) : (modCtx s c f).graphs = s.graphs := rfl
@[simp] theorem modCtx_gangs (c : Nat) (f : Ctx → Ctx) : (modCtx s c f).gangs = s.gangs := rfl
@[simp] theorem modCtx_groups (c : Nat) (f : Ctx → Ctx) : (modCtx s c f).groups = s.groups := rfl
@[simp] theorem modCtx_releases (c : Nat) (f : Ctx → Ctx) : (modCtx s c f).releases = s.releases := rfl
@[simp] theorem modCtx_admission (c : Nat) (f : Ctx → Ctx) : (modCtx s c f).admission = s.admission := rfl
@[simp] theorem modCtx_pools (c : Nat) (f : Ctx → Ctx) : (modCtx s c f).pools = s.pools := rfl
@[simp] theorem modCtx_host (c : Nat) (f : Ctx → Ctx) : (modCtx s c f).host = s.host := rfl
@[simp] theorem modCtx_startRecord (c : Nat) (f : Ctx → Ctx) : (modCtx s c f).startRecord = s.startRecord := rfl
@[simp] theorem modCtx_startHeader (c : Nat) (f : Ctx → Ctx) : (modCtx s c f).startHeader = s.startHeader := rfl
@[simp] theorem modCtx_firmwareSlot (c : Nat) (f : Ctx → Ctx) : (modCtx s c f).firmwareSlot = s.firmwareSlot := rfl
@[simp] theorem modCtx_firmware (c : Nat) (f : Ctx → Ctx) : (modCtx s c f).firmware = s.firmware := rfl
@[simp] theorem modCtx_stagedImage (c : Nat) (f : Ctx → Ctx) : (modCtx s c f).stagedImage = s.stagedImage := rfl
@[simp] theorem modCtx_attestLeaf (c : Nat) (f : Ctx → Ctx) : (modCtx s c f).attestLeaf = s.attestLeaf := rfl
@[simp] theorem modCtx_powerLimit (c : Nat) (f : Ctx → Ctx) : (modCtx s c f).powerLimit = s.powerLimit := rfl
@[simp] theorem modCtx_statStopped (c : Nat) (f : Ctx → Ctx) : (modCtx s c f).statStopped = s.statStopped := rfl
@[simp] theorem modCtx_statHostdrop (c : Nat) (f : Ctx → Ctx) : (modCtx s c f).statHostdrop = s.statHostdrop := rfl
@[simp] theorem modCtx_statThermal (c : Nat) (f : Ctx → Ctx) : (modCtx s c f).statThermal = s.statThermal := rfl
@[simp] theorem modCtx_statPoison (c : Nat) (f : Ctx → Ctx) : (modCtx s c f).statPoison = s.statPoison := rfl
@[simp] theorem modCtx_cxlSizes (c : Nat) (f : Ctx → Ctx) : (modCtx s c f).cxlSizes = s.cxlSizes := rfl
@[simp] theorem modCtx_cxlDown (c : Nat) (f : Ctx → Ctx) : (modCtx s c f).cxlDown = s.cxlDown := rfl
@[simp] theorem modCtx_portsUp (c : Nat) (f : Ctx → Ctx) : (modCtx s c f).portsUp = s.portsUp := rfl
@[simp] theorem modCtx_routes (c : Nat) (f : Ctx → Ctx) : (modCtx s c f).routes = s.routes := rfl
@[simp] theorem modCtx_peersStopped (c : Nat) (f : Ctx → Ctx) : (modCtx s c f).peersStopped = s.peersStopped := rfl
@[simp] theorem modCtx_peersLost (c : Nat) (f : Ctx → Ctx) : (modCtx s c f).peersLost = s.peersLost := rfl
@[simp] theorem modCtx_peerSeen (c : Nat) (f : Ctx → Ctx) : (modCtx s c f).peerSeen = s.peerSeen := rfl
@[simp] theorem modCtx_hostOnline (c : Nat) (f : Ctx → Ctx) : (modCtx s c f).hostOnline = s.hostOnline := rfl
@[simp] theorem modCtx_startHalted (c : Nat) (f : Ctx → Ctx) : (modCtx s c f).startHalted = s.startHalted := rfl
@[simp] theorem modCtx_answers (c : Nat) (f : Ctx → Ctx) : (modCtx s c f).answers = s.answers := rfl
@[simp] theorem modCtx_claimed (c : Nat) (f : Ctx → Ctx) : (modCtx s c f).claimed = s.claimed := rfl
@[simp] theorem modCtx_reclaimed (c : Nat) (f : Ctx → Ctx) : (modCtx s c f).reclaimed = s.reclaimed := rfl
@[simp] theorem modCtx_lastRecords (c : Nat) (f : Ctx → Ctx) : (modCtx s c f).lastRecords = s.lastRecords := rfl
@[simp] theorem modCtx_noticeAt (c : Nat) (f : Ctx → Ctx) : (modCtx s c f).noticeAt = s.noticeAt := rfl
@[simp] theorem modCtx_notices (c : Nat) (f : Ctx → Ctx) : (modCtx s c f).notices = s.notices := rfl
@[simp] theorem modCtx_stoppedAll (c : Nat) (f : Ctx → Ctx) : (modCtx s c f).stoppedAll = s.stoppedAll := rfl
@[simp] theorem modCtx_draining (c : Nat) (f : Ctx → Ctx) : (modCtx s c f).draining = s.draining := rfl
@[simp] theorem modCtx_fuseKey (c : Nat) (f : Ctx → Ctx) : (modCtx s c f).fuseKey = s.fuseKey := rfl
@[simp] theorem modCtx_minVersion (c : Nat) (f : Ctx → Ctx) : (modCtx s c f).minVersion = s.minVersion := rfl

/-! ### setCore -/

@[simp] theorem setCore_agenda (k : Nat) (x : Core) : (setCore s k x).agenda = s.agenda := rfl
@[simp] theorem setCore_turns (k : Nat) (x : Core) : (setCore s k x).turns = s.turns := rfl
@[simp] theorem setCore_cur (k : Nat) (x : Core) : (setCore s k x).cur = s.cur := rfl
@[simp] theorem setCore_free (k : Nat) (x : Core) : (setCore s k x).free = s.free := rfl
@[simp] theorem setCore_cycle (k : Nat) (x : Core) : (setCore s k x).cycle = s.cycle := rfl
@[simp] theorem setCore_clockStopped (k : Nat) (x : Core) : (setCore s k x).clockStopped = s.clockStopped := rfl
@[simp] theorem setCore_device (k : Nat) (x : Core) : (setCore s k x).device = s.device := rfl
@[simp] theorem setCore_mem (k : Nat) (x : Core) : (setCore s k x).mem = s.mem := rfl
@[simp] theorem setCore_poisoned (k : Nat) (x : Core) : (setCore s k x).poisoned = s.poisoned := rfl
@[simp] theorem setCore_stamps (k : Nat) (x : Core) : (setCore s k x).stamps = s.stamps := rfl
@[simp] theorem setCore_root (k : Nat) (x : Core) : (setCore s k x).root = s.root := rfl
@[simp] theorem setCore_ruleBase (k : Nat) (x : Core) : (setCore s k x).ruleBase = s.ruleBase := rfl
@[simp] theorem setCore_ruleLog (k : Nat) (x : Core) : (setCore s k x).ruleLog = s.ruleLog := rfl
@[simp] theorem setCore_batchRegs (k : Nat) (x : Core) : (setCore s k x).batchRegs = s.batchRegs := rfl
@[simp] theorem setCore_batchOwners (k : Nat) (x : Core) : (setCore s k x).batchOwners = s.batchOwners := rfl
@[simp] theorem setCore_batches (k : Nat) (x : Core) : (setCore s k x).batches = s.batches := rfl
@[simp] theorem setCore_quarantine (k : Nat) (x : Core) : (setCore s k x).quarantine = s.quarantine := rfl
@[simp] theorem setCore_tokens (k : Nat) (x : Core) : (setCore s k x).tokens = s.tokens := rfl
@[simp] theorem setCore_accounts (k : Nat) (x : Core) : (setCore s k x).accounts = s.accounts := rfl
@[simp] theorem setCore_cellHeaps (k : Nat) (x : Core) : (setCore s k x).cellHeaps = s.cellHeaps := rfl
@[simp] theorem setCore_wireHeaps (k : Nat) (x : Core) : (setCore s k x).wireHeaps = s.wireHeaps := rfl
@[simp] theorem setCore_cells (k : Nat) (x : Core) : (setCore s k x).cells = s.cells := rfl
@[simp] theorem setCore_wires (k : Nat) (x : Core) : (setCore s k x).wires = s.wires := rfl
@[simp] theorem setCore_ctxs (k : Nat) (x : Core) : (setCore s k x).ctxs = s.ctxs := rfl
@[simp] theorem setCore_clusters (k : Nat) (x : Core) : (setCore s k x).clusters = s.clusters := rfl
@[simp] theorem setCore_dies (k : Nat) (x : Core) : (setCore s k x).dies = s.dies := rfl
@[simp] theorem setCore_slices (k : Nat) (x : Core) : (setCore s k x).slices = s.slices := rfl
@[simp] theorem setCore_nextId (k : Nat) (x : Core) : (setCore s k x).nextId = s.nextId := rfl
@[simp] theorem setCore_flights (k : Nat) (x : Core) : (setCore s k x).flights = s.flights := rfl
@[simp] theorem setCore_messages (k : Nat) (x : Core) : (setCore s k x).messages = s.messages := rfl
@[simp] theorem setCore_graphs (k : Nat) (x : Core) : (setCore s k x).graphs = s.graphs := rfl
@[simp] theorem setCore_gangs (k : Nat) (x : Core) : (setCore s k x).gangs = s.gangs := rfl
@[simp] theorem setCore_groups (k : Nat) (x : Core) : (setCore s k x).groups = s.groups := rfl
@[simp] theorem setCore_releases (k : Nat) (x : Core) : (setCore s k x).releases = s.releases := rfl
@[simp] theorem setCore_admission (k : Nat) (x : Core) : (setCore s k x).admission = s.admission := rfl
@[simp] theorem setCore_pools (k : Nat) (x : Core) : (setCore s k x).pools = s.pools := rfl
@[simp] theorem setCore_host (k : Nat) (x : Core) : (setCore s k x).host = s.host := rfl
@[simp] theorem setCore_startRecord (k : Nat) (x : Core) : (setCore s k x).startRecord = s.startRecord := rfl
@[simp] theorem setCore_startHeader (k : Nat) (x : Core) : (setCore s k x).startHeader = s.startHeader := rfl
@[simp] theorem setCore_firmwareSlot (k : Nat) (x : Core) : (setCore s k x).firmwareSlot = s.firmwareSlot := rfl
@[simp] theorem setCore_firmware (k : Nat) (x : Core) : (setCore s k x).firmware = s.firmware := rfl
@[simp] theorem setCore_stagedImage (k : Nat) (x : Core) : (setCore s k x).stagedImage = s.stagedImage := rfl
@[simp] theorem setCore_attestLeaf (k : Nat) (x : Core) : (setCore s k x).attestLeaf = s.attestLeaf := rfl
@[simp] theorem setCore_powerLimit (k : Nat) (x : Core) : (setCore s k x).powerLimit = s.powerLimit := rfl
@[simp] theorem setCore_statStopped (k : Nat) (x : Core) : (setCore s k x).statStopped = s.statStopped := rfl
@[simp] theorem setCore_statHostdrop (k : Nat) (x : Core) : (setCore s k x).statHostdrop = s.statHostdrop := rfl
@[simp] theorem setCore_statThermal (k : Nat) (x : Core) : (setCore s k x).statThermal = s.statThermal := rfl
@[simp] theorem setCore_statPoison (k : Nat) (x : Core) : (setCore s k x).statPoison = s.statPoison := rfl
@[simp] theorem setCore_cxlSizes (k : Nat) (x : Core) : (setCore s k x).cxlSizes = s.cxlSizes := rfl
@[simp] theorem setCore_cxlDown (k : Nat) (x : Core) : (setCore s k x).cxlDown = s.cxlDown := rfl
@[simp] theorem setCore_portsUp (k : Nat) (x : Core) : (setCore s k x).portsUp = s.portsUp := rfl
@[simp] theorem setCore_routes (k : Nat) (x : Core) : (setCore s k x).routes = s.routes := rfl
@[simp] theorem setCore_peersStopped (k : Nat) (x : Core) : (setCore s k x).peersStopped = s.peersStopped := rfl
@[simp] theorem setCore_peersLost (k : Nat) (x : Core) : (setCore s k x).peersLost = s.peersLost := rfl
@[simp] theorem setCore_peerSeen (k : Nat) (x : Core) : (setCore s k x).peerSeen = s.peerSeen := rfl
@[simp] theorem setCore_hostOnline (k : Nat) (x : Core) : (setCore s k x).hostOnline = s.hostOnline := rfl
@[simp] theorem setCore_startHalted (k : Nat) (x : Core) : (setCore s k x).startHalted = s.startHalted := rfl
@[simp] theorem setCore_answers (k : Nat) (x : Core) : (setCore s k x).answers = s.answers := rfl
@[simp] theorem setCore_claimed (k : Nat) (x : Core) : (setCore s k x).claimed = s.claimed := rfl
@[simp] theorem setCore_reclaimed (k : Nat) (x : Core) : (setCore s k x).reclaimed = s.reclaimed := rfl
@[simp] theorem setCore_lastRecords (k : Nat) (x : Core) : (setCore s k x).lastRecords = s.lastRecords := rfl
@[simp] theorem setCore_noticeAt (k : Nat) (x : Core) : (setCore s k x).noticeAt = s.noticeAt := rfl
@[simp] theorem setCore_notices (k : Nat) (x : Core) : (setCore s k x).notices = s.notices := rfl
@[simp] theorem setCore_stoppedAll (k : Nat) (x : Core) : (setCore s k x).stoppedAll = s.stoppedAll := rfl
@[simp] theorem setCore_draining (k : Nat) (x : Core) : (setCore s k x).draining = s.draining := rfl
@[simp] theorem setCore_fuseKey (k : Nat) (x : Core) : (setCore s k x).fuseKey = s.fuseKey := rfl
@[simp] theorem setCore_minVersion (k : Nat) (x : Core) : (setCore s k x).minVersion = s.minVersion := rfl

/-! ### modCore -/

@[simp] theorem modCore_agenda (k : Nat) (f : Core → Core) : (modCore s k f).agenda = s.agenda := rfl
@[simp] theorem modCore_turns (k : Nat) (f : Core → Core) : (modCore s k f).turns = s.turns := rfl
@[simp] theorem modCore_cur (k : Nat) (f : Core → Core) : (modCore s k f).cur = s.cur := rfl
@[simp] theorem modCore_free (k : Nat) (f : Core → Core) : (modCore s k f).free = s.free := rfl
@[simp] theorem modCore_cycle (k : Nat) (f : Core → Core) : (modCore s k f).cycle = s.cycle := rfl
@[simp] theorem modCore_clockStopped (k : Nat) (f : Core → Core) : (modCore s k f).clockStopped = s.clockStopped := rfl
@[simp] theorem modCore_device (k : Nat) (f : Core → Core) : (modCore s k f).device = s.device := rfl
@[simp] theorem modCore_mem (k : Nat) (f : Core → Core) : (modCore s k f).mem = s.mem := rfl
@[simp] theorem modCore_poisoned (k : Nat) (f : Core → Core) : (modCore s k f).poisoned = s.poisoned := rfl
@[simp] theorem modCore_stamps (k : Nat) (f : Core → Core) : (modCore s k f).stamps = s.stamps := rfl
@[simp] theorem modCore_root (k : Nat) (f : Core → Core) : (modCore s k f).root = s.root := rfl
@[simp] theorem modCore_ruleBase (k : Nat) (f : Core → Core) : (modCore s k f).ruleBase = s.ruleBase := rfl
@[simp] theorem modCore_ruleLog (k : Nat) (f : Core → Core) : (modCore s k f).ruleLog = s.ruleLog := rfl
@[simp] theorem modCore_batchRegs (k : Nat) (f : Core → Core) : (modCore s k f).batchRegs = s.batchRegs := rfl
@[simp] theorem modCore_batchOwners (k : Nat) (f : Core → Core) : (modCore s k f).batchOwners = s.batchOwners := rfl
@[simp] theorem modCore_batches (k : Nat) (f : Core → Core) : (modCore s k f).batches = s.batches := rfl
@[simp] theorem modCore_quarantine (k : Nat) (f : Core → Core) : (modCore s k f).quarantine = s.quarantine := rfl
@[simp] theorem modCore_tokens (k : Nat) (f : Core → Core) : (modCore s k f).tokens = s.tokens := rfl
@[simp] theorem modCore_accounts (k : Nat) (f : Core → Core) : (modCore s k f).accounts = s.accounts := rfl
@[simp] theorem modCore_cellHeaps (k : Nat) (f : Core → Core) : (modCore s k f).cellHeaps = s.cellHeaps := rfl
@[simp] theorem modCore_wireHeaps (k : Nat) (f : Core → Core) : (modCore s k f).wireHeaps = s.wireHeaps := rfl
@[simp] theorem modCore_cells (k : Nat) (f : Core → Core) : (modCore s k f).cells = s.cells := rfl
@[simp] theorem modCore_wires (k : Nat) (f : Core → Core) : (modCore s k f).wires = s.wires := rfl
@[simp] theorem modCore_ctxs (k : Nat) (f : Core → Core) : (modCore s k f).ctxs = s.ctxs := rfl
@[simp] theorem modCore_clusters (k : Nat) (f : Core → Core) : (modCore s k f).clusters = s.clusters := rfl
@[simp] theorem modCore_dies (k : Nat) (f : Core → Core) : (modCore s k f).dies = s.dies := rfl
@[simp] theorem modCore_slices (k : Nat) (f : Core → Core) : (modCore s k f).slices = s.slices := rfl
@[simp] theorem modCore_nextId (k : Nat) (f : Core → Core) : (modCore s k f).nextId = s.nextId := rfl
@[simp] theorem modCore_flights (k : Nat) (f : Core → Core) : (modCore s k f).flights = s.flights := rfl
@[simp] theorem modCore_messages (k : Nat) (f : Core → Core) : (modCore s k f).messages = s.messages := rfl
@[simp] theorem modCore_graphs (k : Nat) (f : Core → Core) : (modCore s k f).graphs = s.graphs := rfl
@[simp] theorem modCore_gangs (k : Nat) (f : Core → Core) : (modCore s k f).gangs = s.gangs := rfl
@[simp] theorem modCore_groups (k : Nat) (f : Core → Core) : (modCore s k f).groups = s.groups := rfl
@[simp] theorem modCore_releases (k : Nat) (f : Core → Core) : (modCore s k f).releases = s.releases := rfl
@[simp] theorem modCore_admission (k : Nat) (f : Core → Core) : (modCore s k f).admission = s.admission := rfl
@[simp] theorem modCore_pools (k : Nat) (f : Core → Core) : (modCore s k f).pools = s.pools := rfl
@[simp] theorem modCore_host (k : Nat) (f : Core → Core) : (modCore s k f).host = s.host := rfl
@[simp] theorem modCore_startRecord (k : Nat) (f : Core → Core) : (modCore s k f).startRecord = s.startRecord := rfl
@[simp] theorem modCore_startHeader (k : Nat) (f : Core → Core) : (modCore s k f).startHeader = s.startHeader := rfl
@[simp] theorem modCore_firmwareSlot (k : Nat) (f : Core → Core) : (modCore s k f).firmwareSlot = s.firmwareSlot := rfl
@[simp] theorem modCore_firmware (k : Nat) (f : Core → Core) : (modCore s k f).firmware = s.firmware := rfl
@[simp] theorem modCore_stagedImage (k : Nat) (f : Core → Core) : (modCore s k f).stagedImage = s.stagedImage := rfl
@[simp] theorem modCore_attestLeaf (k : Nat) (f : Core → Core) : (modCore s k f).attestLeaf = s.attestLeaf := rfl
@[simp] theorem modCore_powerLimit (k : Nat) (f : Core → Core) : (modCore s k f).powerLimit = s.powerLimit := rfl
@[simp] theorem modCore_statStopped (k : Nat) (f : Core → Core) : (modCore s k f).statStopped = s.statStopped := rfl
@[simp] theorem modCore_statHostdrop (k : Nat) (f : Core → Core) : (modCore s k f).statHostdrop = s.statHostdrop := rfl
@[simp] theorem modCore_statThermal (k : Nat) (f : Core → Core) : (modCore s k f).statThermal = s.statThermal := rfl
@[simp] theorem modCore_statPoison (k : Nat) (f : Core → Core) : (modCore s k f).statPoison = s.statPoison := rfl
@[simp] theorem modCore_cxlSizes (k : Nat) (f : Core → Core) : (modCore s k f).cxlSizes = s.cxlSizes := rfl
@[simp] theorem modCore_cxlDown (k : Nat) (f : Core → Core) : (modCore s k f).cxlDown = s.cxlDown := rfl
@[simp] theorem modCore_portsUp (k : Nat) (f : Core → Core) : (modCore s k f).portsUp = s.portsUp := rfl
@[simp] theorem modCore_routes (k : Nat) (f : Core → Core) : (modCore s k f).routes = s.routes := rfl
@[simp] theorem modCore_peersStopped (k : Nat) (f : Core → Core) : (modCore s k f).peersStopped = s.peersStopped := rfl
@[simp] theorem modCore_peersLost (k : Nat) (f : Core → Core) : (modCore s k f).peersLost = s.peersLost := rfl
@[simp] theorem modCore_peerSeen (k : Nat) (f : Core → Core) : (modCore s k f).peerSeen = s.peerSeen := rfl
@[simp] theorem modCore_hostOnline (k : Nat) (f : Core → Core) : (modCore s k f).hostOnline = s.hostOnline := rfl
@[simp] theorem modCore_startHalted (k : Nat) (f : Core → Core) : (modCore s k f).startHalted = s.startHalted := rfl
@[simp] theorem modCore_answers (k : Nat) (f : Core → Core) : (modCore s k f).answers = s.answers := rfl
@[simp] theorem modCore_claimed (k : Nat) (f : Core → Core) : (modCore s k f).claimed = s.claimed := rfl
@[simp] theorem modCore_reclaimed (k : Nat) (f : Core → Core) : (modCore s k f).reclaimed = s.reclaimed := rfl
@[simp] theorem modCore_lastRecords (k : Nat) (f : Core → Core) : (modCore s k f).lastRecords = s.lastRecords := rfl
@[simp] theorem modCore_noticeAt (k : Nat) (f : Core → Core) : (modCore s k f).noticeAt = s.noticeAt := rfl
@[simp] theorem modCore_notices (k : Nat) (f : Core → Core) : (modCore s k f).notices = s.notices := rfl
@[simp] theorem modCore_stoppedAll (k : Nat) (f : Core → Core) : (modCore s k f).stoppedAll = s.stoppedAll := rfl
@[simp] theorem modCore_draining (k : Nat) (f : Core → Core) : (modCore s k f).draining = s.draining := rfl
@[simp] theorem modCore_fuseKey (k : Nat) (f : Core → Core) : (modCore s k f).fuseKey = s.fuseKey := rfl
@[simp] theorem modCore_minVersion (k : Nat) (f : Core → Core) : (modCore s k f).minVersion = s.minVersion := rfl

/-! ### setCluster -/

@[simp] theorem setCluster_agenda (v : Nat) (x : Cluster) : (setCluster s v x).agenda = s.agenda := rfl
@[simp] theorem setCluster_turns (v : Nat) (x : Cluster) : (setCluster s v x).turns = s.turns := rfl
@[simp] theorem setCluster_cur (v : Nat) (x : Cluster) : (setCluster s v x).cur = s.cur := rfl
@[simp] theorem setCluster_free (v : Nat) (x : Cluster) : (setCluster s v x).free = s.free := rfl
@[simp] theorem setCluster_cycle (v : Nat) (x : Cluster) : (setCluster s v x).cycle = s.cycle := rfl
@[simp] theorem setCluster_clockStopped (v : Nat) (x : Cluster) : (setCluster s v x).clockStopped = s.clockStopped := rfl
@[simp] theorem setCluster_device (v : Nat) (x : Cluster) : (setCluster s v x).device = s.device := rfl
@[simp] theorem setCluster_mem (v : Nat) (x : Cluster) : (setCluster s v x).mem = s.mem := rfl
@[simp] theorem setCluster_poisoned (v : Nat) (x : Cluster) : (setCluster s v x).poisoned = s.poisoned := rfl
@[simp] theorem setCluster_stamps (v : Nat) (x : Cluster) : (setCluster s v x).stamps = s.stamps := rfl
@[simp] theorem setCluster_root (v : Nat) (x : Cluster) : (setCluster s v x).root = s.root := rfl
@[simp] theorem setCluster_ruleBase (v : Nat) (x : Cluster) : (setCluster s v x).ruleBase = s.ruleBase := rfl
@[simp] theorem setCluster_ruleLog (v : Nat) (x : Cluster) : (setCluster s v x).ruleLog = s.ruleLog := rfl
@[simp] theorem setCluster_batchRegs (v : Nat) (x : Cluster) : (setCluster s v x).batchRegs = s.batchRegs := rfl
@[simp] theorem setCluster_batchOwners (v : Nat) (x : Cluster) : (setCluster s v x).batchOwners = s.batchOwners := rfl
@[simp] theorem setCluster_batches (v : Nat) (x : Cluster) : (setCluster s v x).batches = s.batches := rfl
@[simp] theorem setCluster_quarantine (v : Nat) (x : Cluster) : (setCluster s v x).quarantine = s.quarantine := rfl
@[simp] theorem setCluster_tokens (v : Nat) (x : Cluster) : (setCluster s v x).tokens = s.tokens := rfl
@[simp] theorem setCluster_accounts (v : Nat) (x : Cluster) : (setCluster s v x).accounts = s.accounts := rfl
@[simp] theorem setCluster_cellHeaps (v : Nat) (x : Cluster) : (setCluster s v x).cellHeaps = s.cellHeaps := rfl
@[simp] theorem setCluster_wireHeaps (v : Nat) (x : Cluster) : (setCluster s v x).wireHeaps = s.wireHeaps := rfl
@[simp] theorem setCluster_cells (v : Nat) (x : Cluster) : (setCluster s v x).cells = s.cells := rfl
@[simp] theorem setCluster_wires (v : Nat) (x : Cluster) : (setCluster s v x).wires = s.wires := rfl
@[simp] theorem setCluster_ctxs (v : Nat) (x : Cluster) : (setCluster s v x).ctxs = s.ctxs := rfl
@[simp] theorem setCluster_cores (v : Nat) (x : Cluster) : (setCluster s v x).cores = s.cores := rfl
@[simp] theorem setCluster_dies (v : Nat) (x : Cluster) : (setCluster s v x).dies = s.dies := rfl
@[simp] theorem setCluster_slices (v : Nat) (x : Cluster) : (setCluster s v x).slices = s.slices := rfl
@[simp] theorem setCluster_nextId (v : Nat) (x : Cluster) : (setCluster s v x).nextId = s.nextId := rfl
@[simp] theorem setCluster_flights (v : Nat) (x : Cluster) : (setCluster s v x).flights = s.flights := rfl
@[simp] theorem setCluster_messages (v : Nat) (x : Cluster) : (setCluster s v x).messages = s.messages := rfl
@[simp] theorem setCluster_graphs (v : Nat) (x : Cluster) : (setCluster s v x).graphs = s.graphs := rfl
@[simp] theorem setCluster_gangs (v : Nat) (x : Cluster) : (setCluster s v x).gangs = s.gangs := rfl
@[simp] theorem setCluster_groups (v : Nat) (x : Cluster) : (setCluster s v x).groups = s.groups := rfl
@[simp] theorem setCluster_releases (v : Nat) (x : Cluster) : (setCluster s v x).releases = s.releases := rfl
@[simp] theorem setCluster_admission (v : Nat) (x : Cluster) : (setCluster s v x).admission = s.admission := rfl
@[simp] theorem setCluster_pools (v : Nat) (x : Cluster) : (setCluster s v x).pools = s.pools := rfl
@[simp] theorem setCluster_host (v : Nat) (x : Cluster) : (setCluster s v x).host = s.host := rfl
@[simp] theorem setCluster_startRecord (v : Nat) (x : Cluster) : (setCluster s v x).startRecord = s.startRecord := rfl
@[simp] theorem setCluster_startHeader (v : Nat) (x : Cluster) : (setCluster s v x).startHeader = s.startHeader := rfl
@[simp] theorem setCluster_firmwareSlot (v : Nat) (x : Cluster) : (setCluster s v x).firmwareSlot = s.firmwareSlot := rfl
@[simp] theorem setCluster_firmware (v : Nat) (x : Cluster) : (setCluster s v x).firmware = s.firmware := rfl
@[simp] theorem setCluster_stagedImage (v : Nat) (x : Cluster) : (setCluster s v x).stagedImage = s.stagedImage := rfl
@[simp] theorem setCluster_attestLeaf (v : Nat) (x : Cluster) : (setCluster s v x).attestLeaf = s.attestLeaf := rfl
@[simp] theorem setCluster_powerLimit (v : Nat) (x : Cluster) : (setCluster s v x).powerLimit = s.powerLimit := rfl
@[simp] theorem setCluster_statStopped (v : Nat) (x : Cluster) : (setCluster s v x).statStopped = s.statStopped := rfl
@[simp] theorem setCluster_statHostdrop (v : Nat) (x : Cluster) : (setCluster s v x).statHostdrop = s.statHostdrop := rfl
@[simp] theorem setCluster_statThermal (v : Nat) (x : Cluster) : (setCluster s v x).statThermal = s.statThermal := rfl
@[simp] theorem setCluster_statPoison (v : Nat) (x : Cluster) : (setCluster s v x).statPoison = s.statPoison := rfl
@[simp] theorem setCluster_cxlSizes (v : Nat) (x : Cluster) : (setCluster s v x).cxlSizes = s.cxlSizes := rfl
@[simp] theorem setCluster_cxlDown (v : Nat) (x : Cluster) : (setCluster s v x).cxlDown = s.cxlDown := rfl
@[simp] theorem setCluster_portsUp (v : Nat) (x : Cluster) : (setCluster s v x).portsUp = s.portsUp := rfl
@[simp] theorem setCluster_routes (v : Nat) (x : Cluster) : (setCluster s v x).routes = s.routes := rfl
@[simp] theorem setCluster_peersStopped (v : Nat) (x : Cluster) : (setCluster s v x).peersStopped = s.peersStopped := rfl
@[simp] theorem setCluster_peersLost (v : Nat) (x : Cluster) : (setCluster s v x).peersLost = s.peersLost := rfl
@[simp] theorem setCluster_peerSeen (v : Nat) (x : Cluster) : (setCluster s v x).peerSeen = s.peerSeen := rfl
@[simp] theorem setCluster_hostOnline (v : Nat) (x : Cluster) : (setCluster s v x).hostOnline = s.hostOnline := rfl
@[simp] theorem setCluster_startHalted (v : Nat) (x : Cluster) : (setCluster s v x).startHalted = s.startHalted := rfl
@[simp] theorem setCluster_answers (v : Nat) (x : Cluster) : (setCluster s v x).answers = s.answers := rfl
@[simp] theorem setCluster_claimed (v : Nat) (x : Cluster) : (setCluster s v x).claimed = s.claimed := rfl
@[simp] theorem setCluster_reclaimed (v : Nat) (x : Cluster) : (setCluster s v x).reclaimed = s.reclaimed := rfl
@[simp] theorem setCluster_lastRecords (v : Nat) (x : Cluster) : (setCluster s v x).lastRecords = s.lastRecords := rfl
@[simp] theorem setCluster_noticeAt (v : Nat) (x : Cluster) : (setCluster s v x).noticeAt = s.noticeAt := rfl
@[simp] theorem setCluster_notices (v : Nat) (x : Cluster) : (setCluster s v x).notices = s.notices := rfl
@[simp] theorem setCluster_stoppedAll (v : Nat) (x : Cluster) : (setCluster s v x).stoppedAll = s.stoppedAll := rfl
@[simp] theorem setCluster_draining (v : Nat) (x : Cluster) : (setCluster s v x).draining = s.draining := rfl
@[simp] theorem setCluster_fuseKey (v : Nat) (x : Cluster) : (setCluster s v x).fuseKey = s.fuseKey := rfl
@[simp] theorem setCluster_minVersion (v : Nat) (x : Cluster) : (setCluster s v x).minVersion = s.minVersion := rfl

/-! ### modCluster -/

@[simp] theorem modCluster_agenda (v : Nat) (f : Cluster → Cluster) : (modCluster s v f).agenda = s.agenda := rfl
@[simp] theorem modCluster_turns (v : Nat) (f : Cluster → Cluster) : (modCluster s v f).turns = s.turns := rfl
@[simp] theorem modCluster_cur (v : Nat) (f : Cluster → Cluster) : (modCluster s v f).cur = s.cur := rfl
@[simp] theorem modCluster_free (v : Nat) (f : Cluster → Cluster) : (modCluster s v f).free = s.free := rfl
@[simp] theorem modCluster_cycle (v : Nat) (f : Cluster → Cluster) : (modCluster s v f).cycle = s.cycle := rfl
@[simp] theorem modCluster_clockStopped (v : Nat) (f : Cluster → Cluster) : (modCluster s v f).clockStopped = s.clockStopped := rfl
@[simp] theorem modCluster_device (v : Nat) (f : Cluster → Cluster) : (modCluster s v f).device = s.device := rfl
@[simp] theorem modCluster_mem (v : Nat) (f : Cluster → Cluster) : (modCluster s v f).mem = s.mem := rfl
@[simp] theorem modCluster_poisoned (v : Nat) (f : Cluster → Cluster) : (modCluster s v f).poisoned = s.poisoned := rfl
@[simp] theorem modCluster_stamps (v : Nat) (f : Cluster → Cluster) : (modCluster s v f).stamps = s.stamps := rfl
@[simp] theorem modCluster_root (v : Nat) (f : Cluster → Cluster) : (modCluster s v f).root = s.root := rfl
@[simp] theorem modCluster_ruleBase (v : Nat) (f : Cluster → Cluster) : (modCluster s v f).ruleBase = s.ruleBase := rfl
@[simp] theorem modCluster_ruleLog (v : Nat) (f : Cluster → Cluster) : (modCluster s v f).ruleLog = s.ruleLog := rfl
@[simp] theorem modCluster_batchRegs (v : Nat) (f : Cluster → Cluster) : (modCluster s v f).batchRegs = s.batchRegs := rfl
@[simp] theorem modCluster_batchOwners (v : Nat) (f : Cluster → Cluster) : (modCluster s v f).batchOwners = s.batchOwners := rfl
@[simp] theorem modCluster_batches (v : Nat) (f : Cluster → Cluster) : (modCluster s v f).batches = s.batches := rfl
@[simp] theorem modCluster_quarantine (v : Nat) (f : Cluster → Cluster) : (modCluster s v f).quarantine = s.quarantine := rfl
@[simp] theorem modCluster_tokens (v : Nat) (f : Cluster → Cluster) : (modCluster s v f).tokens = s.tokens := rfl
@[simp] theorem modCluster_accounts (v : Nat) (f : Cluster → Cluster) : (modCluster s v f).accounts = s.accounts := rfl
@[simp] theorem modCluster_cellHeaps (v : Nat) (f : Cluster → Cluster) : (modCluster s v f).cellHeaps = s.cellHeaps := rfl
@[simp] theorem modCluster_wireHeaps (v : Nat) (f : Cluster → Cluster) : (modCluster s v f).wireHeaps = s.wireHeaps := rfl
@[simp] theorem modCluster_cells (v : Nat) (f : Cluster → Cluster) : (modCluster s v f).cells = s.cells := rfl
@[simp] theorem modCluster_wires (v : Nat) (f : Cluster → Cluster) : (modCluster s v f).wires = s.wires := rfl
@[simp] theorem modCluster_ctxs (v : Nat) (f : Cluster → Cluster) : (modCluster s v f).ctxs = s.ctxs := rfl
@[simp] theorem modCluster_cores (v : Nat) (f : Cluster → Cluster) : (modCluster s v f).cores = s.cores := rfl
@[simp] theorem modCluster_dies (v : Nat) (f : Cluster → Cluster) : (modCluster s v f).dies = s.dies := rfl
@[simp] theorem modCluster_slices (v : Nat) (f : Cluster → Cluster) : (modCluster s v f).slices = s.slices := rfl
@[simp] theorem modCluster_nextId (v : Nat) (f : Cluster → Cluster) : (modCluster s v f).nextId = s.nextId := rfl
@[simp] theorem modCluster_flights (v : Nat) (f : Cluster → Cluster) : (modCluster s v f).flights = s.flights := rfl
@[simp] theorem modCluster_messages (v : Nat) (f : Cluster → Cluster) : (modCluster s v f).messages = s.messages := rfl
@[simp] theorem modCluster_graphs (v : Nat) (f : Cluster → Cluster) : (modCluster s v f).graphs = s.graphs := rfl
@[simp] theorem modCluster_gangs (v : Nat) (f : Cluster → Cluster) : (modCluster s v f).gangs = s.gangs := rfl
@[simp] theorem modCluster_groups (v : Nat) (f : Cluster → Cluster) : (modCluster s v f).groups = s.groups := rfl
@[simp] theorem modCluster_releases (v : Nat) (f : Cluster → Cluster) : (modCluster s v f).releases = s.releases := rfl
@[simp] theorem modCluster_admission (v : Nat) (f : Cluster → Cluster) : (modCluster s v f).admission = s.admission := rfl
@[simp] theorem modCluster_pools (v : Nat) (f : Cluster → Cluster) : (modCluster s v f).pools = s.pools := rfl
@[simp] theorem modCluster_host (v : Nat) (f : Cluster → Cluster) : (modCluster s v f).host = s.host := rfl
@[simp] theorem modCluster_startRecord (v : Nat) (f : Cluster → Cluster) : (modCluster s v f).startRecord = s.startRecord := rfl
@[simp] theorem modCluster_startHeader (v : Nat) (f : Cluster → Cluster) : (modCluster s v f).startHeader = s.startHeader := rfl
@[simp] theorem modCluster_firmwareSlot (v : Nat) (f : Cluster → Cluster) : (modCluster s v f).firmwareSlot = s.firmwareSlot := rfl
@[simp] theorem modCluster_firmware (v : Nat) (f : Cluster → Cluster) : (modCluster s v f).firmware = s.firmware := rfl
@[simp] theorem modCluster_stagedImage (v : Nat) (f : Cluster → Cluster) : (modCluster s v f).stagedImage = s.stagedImage := rfl
@[simp] theorem modCluster_attestLeaf (v : Nat) (f : Cluster → Cluster) : (modCluster s v f).attestLeaf = s.attestLeaf := rfl
@[simp] theorem modCluster_powerLimit (v : Nat) (f : Cluster → Cluster) : (modCluster s v f).powerLimit = s.powerLimit := rfl
@[simp] theorem modCluster_statStopped (v : Nat) (f : Cluster → Cluster) : (modCluster s v f).statStopped = s.statStopped := rfl
@[simp] theorem modCluster_statHostdrop (v : Nat) (f : Cluster → Cluster) : (modCluster s v f).statHostdrop = s.statHostdrop := rfl
@[simp] theorem modCluster_statThermal (v : Nat) (f : Cluster → Cluster) : (modCluster s v f).statThermal = s.statThermal := rfl
@[simp] theorem modCluster_statPoison (v : Nat) (f : Cluster → Cluster) : (modCluster s v f).statPoison = s.statPoison := rfl
@[simp] theorem modCluster_cxlSizes (v : Nat) (f : Cluster → Cluster) : (modCluster s v f).cxlSizes = s.cxlSizes := rfl
@[simp] theorem modCluster_cxlDown (v : Nat) (f : Cluster → Cluster) : (modCluster s v f).cxlDown = s.cxlDown := rfl
@[simp] theorem modCluster_portsUp (v : Nat) (f : Cluster → Cluster) : (modCluster s v f).portsUp = s.portsUp := rfl
@[simp] theorem modCluster_routes (v : Nat) (f : Cluster → Cluster) : (modCluster s v f).routes = s.routes := rfl
@[simp] theorem modCluster_peersStopped (v : Nat) (f : Cluster → Cluster) : (modCluster s v f).peersStopped = s.peersStopped := rfl
@[simp] theorem modCluster_peersLost (v : Nat) (f : Cluster → Cluster) : (modCluster s v f).peersLost = s.peersLost := rfl
@[simp] theorem modCluster_peerSeen (v : Nat) (f : Cluster → Cluster) : (modCluster s v f).peerSeen = s.peerSeen := rfl
@[simp] theorem modCluster_hostOnline (v : Nat) (f : Cluster → Cluster) : (modCluster s v f).hostOnline = s.hostOnline := rfl
@[simp] theorem modCluster_startHalted (v : Nat) (f : Cluster → Cluster) : (modCluster s v f).startHalted = s.startHalted := rfl
@[simp] theorem modCluster_answers (v : Nat) (f : Cluster → Cluster) : (modCluster s v f).answers = s.answers := rfl
@[simp] theorem modCluster_claimed (v : Nat) (f : Cluster → Cluster) : (modCluster s v f).claimed = s.claimed := rfl
@[simp] theorem modCluster_reclaimed (v : Nat) (f : Cluster → Cluster) : (modCluster s v f).reclaimed = s.reclaimed := rfl
@[simp] theorem modCluster_lastRecords (v : Nat) (f : Cluster → Cluster) : (modCluster s v f).lastRecords = s.lastRecords := rfl
@[simp] theorem modCluster_noticeAt (v : Nat) (f : Cluster → Cluster) : (modCluster s v f).noticeAt = s.noticeAt := rfl
@[simp] theorem modCluster_notices (v : Nat) (f : Cluster → Cluster) : (modCluster s v f).notices = s.notices := rfl
@[simp] theorem modCluster_stoppedAll (v : Nat) (f : Cluster → Cluster) : (modCluster s v f).stoppedAll = s.stoppedAll := rfl
@[simp] theorem modCluster_draining (v : Nat) (f : Cluster → Cluster) : (modCluster s v f).draining = s.draining := rfl
@[simp] theorem modCluster_fuseKey (v : Nat) (f : Cluster → Cluster) : (modCluster s v f).fuseKey = s.fuseKey := rfl
@[simp] theorem modCluster_minVersion (v : Nat) (f : Cluster → Cluster) : (modCluster s v f).minVersion = s.minVersion := rfl

/-! ### setDie -/

@[simp] theorem setDie_agenda (d : Nat) (x : Die) : (setDie s d x).agenda = s.agenda := rfl
@[simp] theorem setDie_turns (d : Nat) (x : Die) : (setDie s d x).turns = s.turns := rfl
@[simp] theorem setDie_cur (d : Nat) (x : Die) : (setDie s d x).cur = s.cur := rfl
@[simp] theorem setDie_free (d : Nat) (x : Die) : (setDie s d x).free = s.free := rfl
@[simp] theorem setDie_cycle (d : Nat) (x : Die) : (setDie s d x).cycle = s.cycle := rfl
@[simp] theorem setDie_clockStopped (d : Nat) (x : Die) : (setDie s d x).clockStopped = s.clockStopped := rfl
@[simp] theorem setDie_device (d : Nat) (x : Die) : (setDie s d x).device = s.device := rfl
@[simp] theorem setDie_mem (d : Nat) (x : Die) : (setDie s d x).mem = s.mem := rfl
@[simp] theorem setDie_poisoned (d : Nat) (x : Die) : (setDie s d x).poisoned = s.poisoned := rfl
@[simp] theorem setDie_stamps (d : Nat) (x : Die) : (setDie s d x).stamps = s.stamps := rfl
@[simp] theorem setDie_root (d : Nat) (x : Die) : (setDie s d x).root = s.root := rfl
@[simp] theorem setDie_ruleBase (d : Nat) (x : Die) : (setDie s d x).ruleBase = s.ruleBase := rfl
@[simp] theorem setDie_ruleLog (d : Nat) (x : Die) : (setDie s d x).ruleLog = s.ruleLog := rfl
@[simp] theorem setDie_batchRegs (d : Nat) (x : Die) : (setDie s d x).batchRegs = s.batchRegs := rfl
@[simp] theorem setDie_batchOwners (d : Nat) (x : Die) : (setDie s d x).batchOwners = s.batchOwners := rfl
@[simp] theorem setDie_batches (d : Nat) (x : Die) : (setDie s d x).batches = s.batches := rfl
@[simp] theorem setDie_quarantine (d : Nat) (x : Die) : (setDie s d x).quarantine = s.quarantine := rfl
@[simp] theorem setDie_tokens (d : Nat) (x : Die) : (setDie s d x).tokens = s.tokens := rfl
@[simp] theorem setDie_accounts (d : Nat) (x : Die) : (setDie s d x).accounts = s.accounts := rfl
@[simp] theorem setDie_cellHeaps (d : Nat) (x : Die) : (setDie s d x).cellHeaps = s.cellHeaps := rfl
@[simp] theorem setDie_wireHeaps (d : Nat) (x : Die) : (setDie s d x).wireHeaps = s.wireHeaps := rfl
@[simp] theorem setDie_cells (d : Nat) (x : Die) : (setDie s d x).cells = s.cells := rfl
@[simp] theorem setDie_wires (d : Nat) (x : Die) : (setDie s d x).wires = s.wires := rfl
@[simp] theorem setDie_ctxs (d : Nat) (x : Die) : (setDie s d x).ctxs = s.ctxs := rfl
@[simp] theorem setDie_cores (d : Nat) (x : Die) : (setDie s d x).cores = s.cores := rfl
@[simp] theorem setDie_clusters (d : Nat) (x : Die) : (setDie s d x).clusters = s.clusters := rfl
@[simp] theorem setDie_slices (d : Nat) (x : Die) : (setDie s d x).slices = s.slices := rfl
@[simp] theorem setDie_nextId (d : Nat) (x : Die) : (setDie s d x).nextId = s.nextId := rfl
@[simp] theorem setDie_flights (d : Nat) (x : Die) : (setDie s d x).flights = s.flights := rfl
@[simp] theorem setDie_messages (d : Nat) (x : Die) : (setDie s d x).messages = s.messages := rfl
@[simp] theorem setDie_graphs (d : Nat) (x : Die) : (setDie s d x).graphs = s.graphs := rfl
@[simp] theorem setDie_gangs (d : Nat) (x : Die) : (setDie s d x).gangs = s.gangs := rfl
@[simp] theorem setDie_groups (d : Nat) (x : Die) : (setDie s d x).groups = s.groups := rfl
@[simp] theorem setDie_releases (d : Nat) (x : Die) : (setDie s d x).releases = s.releases := rfl
@[simp] theorem setDie_admission (d : Nat) (x : Die) : (setDie s d x).admission = s.admission := rfl
@[simp] theorem setDie_pools (d : Nat) (x : Die) : (setDie s d x).pools = s.pools := rfl
@[simp] theorem setDie_host (d : Nat) (x : Die) : (setDie s d x).host = s.host := rfl
@[simp] theorem setDie_startRecord (d : Nat) (x : Die) : (setDie s d x).startRecord = s.startRecord := rfl
@[simp] theorem setDie_startHeader (d : Nat) (x : Die) : (setDie s d x).startHeader = s.startHeader := rfl
@[simp] theorem setDie_firmwareSlot (d : Nat) (x : Die) : (setDie s d x).firmwareSlot = s.firmwareSlot := rfl
@[simp] theorem setDie_firmware (d : Nat) (x : Die) : (setDie s d x).firmware = s.firmware := rfl
@[simp] theorem setDie_stagedImage (d : Nat) (x : Die) : (setDie s d x).stagedImage = s.stagedImage := rfl
@[simp] theorem setDie_attestLeaf (d : Nat) (x : Die) : (setDie s d x).attestLeaf = s.attestLeaf := rfl
@[simp] theorem setDie_powerLimit (d : Nat) (x : Die) : (setDie s d x).powerLimit = s.powerLimit := rfl
@[simp] theorem setDie_statStopped (d : Nat) (x : Die) : (setDie s d x).statStopped = s.statStopped := rfl
@[simp] theorem setDie_statHostdrop (d : Nat) (x : Die) : (setDie s d x).statHostdrop = s.statHostdrop := rfl
@[simp] theorem setDie_statThermal (d : Nat) (x : Die) : (setDie s d x).statThermal = s.statThermal := rfl
@[simp] theorem setDie_statPoison (d : Nat) (x : Die) : (setDie s d x).statPoison = s.statPoison := rfl
@[simp] theorem setDie_cxlSizes (d : Nat) (x : Die) : (setDie s d x).cxlSizes = s.cxlSizes := rfl
@[simp] theorem setDie_cxlDown (d : Nat) (x : Die) : (setDie s d x).cxlDown = s.cxlDown := rfl
@[simp] theorem setDie_portsUp (d : Nat) (x : Die) : (setDie s d x).portsUp = s.portsUp := rfl
@[simp] theorem setDie_routes (d : Nat) (x : Die) : (setDie s d x).routes = s.routes := rfl
@[simp] theorem setDie_peersStopped (d : Nat) (x : Die) : (setDie s d x).peersStopped = s.peersStopped := rfl
@[simp] theorem setDie_peersLost (d : Nat) (x : Die) : (setDie s d x).peersLost = s.peersLost := rfl
@[simp] theorem setDie_peerSeen (d : Nat) (x : Die) : (setDie s d x).peerSeen = s.peerSeen := rfl
@[simp] theorem setDie_hostOnline (d : Nat) (x : Die) : (setDie s d x).hostOnline = s.hostOnline := rfl
@[simp] theorem setDie_startHalted (d : Nat) (x : Die) : (setDie s d x).startHalted = s.startHalted := rfl
@[simp] theorem setDie_answers (d : Nat) (x : Die) : (setDie s d x).answers = s.answers := rfl
@[simp] theorem setDie_claimed (d : Nat) (x : Die) : (setDie s d x).claimed = s.claimed := rfl
@[simp] theorem setDie_reclaimed (d : Nat) (x : Die) : (setDie s d x).reclaimed = s.reclaimed := rfl
@[simp] theorem setDie_lastRecords (d : Nat) (x : Die) : (setDie s d x).lastRecords = s.lastRecords := rfl
@[simp] theorem setDie_noticeAt (d : Nat) (x : Die) : (setDie s d x).noticeAt = s.noticeAt := rfl
@[simp] theorem setDie_notices (d : Nat) (x : Die) : (setDie s d x).notices = s.notices := rfl
@[simp] theorem setDie_stoppedAll (d : Nat) (x : Die) : (setDie s d x).stoppedAll = s.stoppedAll := rfl
@[simp] theorem setDie_draining (d : Nat) (x : Die) : (setDie s d x).draining = s.draining := rfl
@[simp] theorem setDie_fuseKey (d : Nat) (x : Die) : (setDie s d x).fuseKey = s.fuseKey := rfl
@[simp] theorem setDie_minVersion (d : Nat) (x : Die) : (setDie s d x).minVersion = s.minVersion := rfl

/-! ### setSlice -/

@[simp] theorem setSlice_agenda (i : Nat) (x : Slice) : (setSlice s i x).agenda = s.agenda := rfl
@[simp] theorem setSlice_turns (i : Nat) (x : Slice) : (setSlice s i x).turns = s.turns := rfl
@[simp] theorem setSlice_cur (i : Nat) (x : Slice) : (setSlice s i x).cur = s.cur := rfl
@[simp] theorem setSlice_free (i : Nat) (x : Slice) : (setSlice s i x).free = s.free := rfl
@[simp] theorem setSlice_cycle (i : Nat) (x : Slice) : (setSlice s i x).cycle = s.cycle := rfl
@[simp] theorem setSlice_clockStopped (i : Nat) (x : Slice) : (setSlice s i x).clockStopped = s.clockStopped := rfl
@[simp] theorem setSlice_device (i : Nat) (x : Slice) : (setSlice s i x).device = s.device := rfl
@[simp] theorem setSlice_mem (i : Nat) (x : Slice) : (setSlice s i x).mem = s.mem := rfl
@[simp] theorem setSlice_poisoned (i : Nat) (x : Slice) : (setSlice s i x).poisoned = s.poisoned := rfl
@[simp] theorem setSlice_stamps (i : Nat) (x : Slice) : (setSlice s i x).stamps = s.stamps := rfl
@[simp] theorem setSlice_root (i : Nat) (x : Slice) : (setSlice s i x).root = s.root := rfl
@[simp] theorem setSlice_ruleBase (i : Nat) (x : Slice) : (setSlice s i x).ruleBase = s.ruleBase := rfl
@[simp] theorem setSlice_ruleLog (i : Nat) (x : Slice) : (setSlice s i x).ruleLog = s.ruleLog := rfl
@[simp] theorem setSlice_batchRegs (i : Nat) (x : Slice) : (setSlice s i x).batchRegs = s.batchRegs := rfl
@[simp] theorem setSlice_batchOwners (i : Nat) (x : Slice) : (setSlice s i x).batchOwners = s.batchOwners := rfl
@[simp] theorem setSlice_batches (i : Nat) (x : Slice) : (setSlice s i x).batches = s.batches := rfl
@[simp] theorem setSlice_quarantine (i : Nat) (x : Slice) : (setSlice s i x).quarantine = s.quarantine := rfl
@[simp] theorem setSlice_tokens (i : Nat) (x : Slice) : (setSlice s i x).tokens = s.tokens := rfl
@[simp] theorem setSlice_accounts (i : Nat) (x : Slice) : (setSlice s i x).accounts = s.accounts := rfl
@[simp] theorem setSlice_cellHeaps (i : Nat) (x : Slice) : (setSlice s i x).cellHeaps = s.cellHeaps := rfl
@[simp] theorem setSlice_wireHeaps (i : Nat) (x : Slice) : (setSlice s i x).wireHeaps = s.wireHeaps := rfl
@[simp] theorem setSlice_cells (i : Nat) (x : Slice) : (setSlice s i x).cells = s.cells := rfl
@[simp] theorem setSlice_wires (i : Nat) (x : Slice) : (setSlice s i x).wires = s.wires := rfl
@[simp] theorem setSlice_ctxs (i : Nat) (x : Slice) : (setSlice s i x).ctxs = s.ctxs := rfl
@[simp] theorem setSlice_cores (i : Nat) (x : Slice) : (setSlice s i x).cores = s.cores := rfl
@[simp] theorem setSlice_clusters (i : Nat) (x : Slice) : (setSlice s i x).clusters = s.clusters := rfl
@[simp] theorem setSlice_dies (i : Nat) (x : Slice) : (setSlice s i x).dies = s.dies := rfl
@[simp] theorem setSlice_nextId (i : Nat) (x : Slice) : (setSlice s i x).nextId = s.nextId := rfl
@[simp] theorem setSlice_flights (i : Nat) (x : Slice) : (setSlice s i x).flights = s.flights := rfl
@[simp] theorem setSlice_messages (i : Nat) (x : Slice) : (setSlice s i x).messages = s.messages := rfl
@[simp] theorem setSlice_graphs (i : Nat) (x : Slice) : (setSlice s i x).graphs = s.graphs := rfl
@[simp] theorem setSlice_gangs (i : Nat) (x : Slice) : (setSlice s i x).gangs = s.gangs := rfl
@[simp] theorem setSlice_groups (i : Nat) (x : Slice) : (setSlice s i x).groups = s.groups := rfl
@[simp] theorem setSlice_releases (i : Nat) (x : Slice) : (setSlice s i x).releases = s.releases := rfl
@[simp] theorem setSlice_admission (i : Nat) (x : Slice) : (setSlice s i x).admission = s.admission := rfl
@[simp] theorem setSlice_pools (i : Nat) (x : Slice) : (setSlice s i x).pools = s.pools := rfl
@[simp] theorem setSlice_host (i : Nat) (x : Slice) : (setSlice s i x).host = s.host := rfl
@[simp] theorem setSlice_startRecord (i : Nat) (x : Slice) : (setSlice s i x).startRecord = s.startRecord := rfl
@[simp] theorem setSlice_startHeader (i : Nat) (x : Slice) : (setSlice s i x).startHeader = s.startHeader := rfl
@[simp] theorem setSlice_firmwareSlot (i : Nat) (x : Slice) : (setSlice s i x).firmwareSlot = s.firmwareSlot := rfl
@[simp] theorem setSlice_firmware (i : Nat) (x : Slice) : (setSlice s i x).firmware = s.firmware := rfl
@[simp] theorem setSlice_stagedImage (i : Nat) (x : Slice) : (setSlice s i x).stagedImage = s.stagedImage := rfl
@[simp] theorem setSlice_attestLeaf (i : Nat) (x : Slice) : (setSlice s i x).attestLeaf = s.attestLeaf := rfl
@[simp] theorem setSlice_powerLimit (i : Nat) (x : Slice) : (setSlice s i x).powerLimit = s.powerLimit := rfl
@[simp] theorem setSlice_statStopped (i : Nat) (x : Slice) : (setSlice s i x).statStopped = s.statStopped := rfl
@[simp] theorem setSlice_statHostdrop (i : Nat) (x : Slice) : (setSlice s i x).statHostdrop = s.statHostdrop := rfl
@[simp] theorem setSlice_statThermal (i : Nat) (x : Slice) : (setSlice s i x).statThermal = s.statThermal := rfl
@[simp] theorem setSlice_statPoison (i : Nat) (x : Slice) : (setSlice s i x).statPoison = s.statPoison := rfl
@[simp] theorem setSlice_cxlSizes (i : Nat) (x : Slice) : (setSlice s i x).cxlSizes = s.cxlSizes := rfl
@[simp] theorem setSlice_cxlDown (i : Nat) (x : Slice) : (setSlice s i x).cxlDown = s.cxlDown := rfl
@[simp] theorem setSlice_portsUp (i : Nat) (x : Slice) : (setSlice s i x).portsUp = s.portsUp := rfl
@[simp] theorem setSlice_routes (i : Nat) (x : Slice) : (setSlice s i x).routes = s.routes := rfl
@[simp] theorem setSlice_peersStopped (i : Nat) (x : Slice) : (setSlice s i x).peersStopped = s.peersStopped := rfl
@[simp] theorem setSlice_peersLost (i : Nat) (x : Slice) : (setSlice s i x).peersLost = s.peersLost := rfl
@[simp] theorem setSlice_peerSeen (i : Nat) (x : Slice) : (setSlice s i x).peerSeen = s.peerSeen := rfl
@[simp] theorem setSlice_hostOnline (i : Nat) (x : Slice) : (setSlice s i x).hostOnline = s.hostOnline := rfl
@[simp] theorem setSlice_startHalted (i : Nat) (x : Slice) : (setSlice s i x).startHalted = s.startHalted := rfl
@[simp] theorem setSlice_answers (i : Nat) (x : Slice) : (setSlice s i x).answers = s.answers := rfl
@[simp] theorem setSlice_claimed (i : Nat) (x : Slice) : (setSlice s i x).claimed = s.claimed := rfl
@[simp] theorem setSlice_reclaimed (i : Nat) (x : Slice) : (setSlice s i x).reclaimed = s.reclaimed := rfl
@[simp] theorem setSlice_lastRecords (i : Nat) (x : Slice) : (setSlice s i x).lastRecords = s.lastRecords := rfl
@[simp] theorem setSlice_noticeAt (i : Nat) (x : Slice) : (setSlice s i x).noticeAt = s.noticeAt := rfl
@[simp] theorem setSlice_notices (i : Nat) (x : Slice) : (setSlice s i x).notices = s.notices := rfl
@[simp] theorem setSlice_stoppedAll (i : Nat) (x : Slice) : (setSlice s i x).stoppedAll = s.stoppedAll := rfl
@[simp] theorem setSlice_draining (i : Nat) (x : Slice) : (setSlice s i x).draining = s.draining := rfl
@[simp] theorem setSlice_fuseKey (i : Nat) (x : Slice) : (setSlice s i x).fuseKey = s.fuseKey := rfl
@[simp] theorem setSlice_minVersion (i : Nat) (x : Slice) : (setSlice s i x).minVersion = s.minVersion := rfl

/-! ### setAccount -/

@[simp] theorem setAccount_agenda (a : Nat) (x : Account) : (setAccount s a x).agenda = s.agenda := rfl
@[simp] theorem setAccount_turns (a : Nat) (x : Account) : (setAccount s a x).turns = s.turns := rfl
@[simp] theorem setAccount_cur (a : Nat) (x : Account) : (setAccount s a x).cur = s.cur := rfl
@[simp] theorem setAccount_free (a : Nat) (x : Account) : (setAccount s a x).free = s.free := rfl
@[simp] theorem setAccount_cycle (a : Nat) (x : Account) : (setAccount s a x).cycle = s.cycle := rfl
@[simp] theorem setAccount_clockStopped (a : Nat) (x : Account) : (setAccount s a x).clockStopped = s.clockStopped := rfl
@[simp] theorem setAccount_device (a : Nat) (x : Account) : (setAccount s a x).device = s.device := rfl
@[simp] theorem setAccount_mem (a : Nat) (x : Account) : (setAccount s a x).mem = s.mem := rfl
@[simp] theorem setAccount_poisoned (a : Nat) (x : Account) : (setAccount s a x).poisoned = s.poisoned := rfl
@[simp] theorem setAccount_stamps (a : Nat) (x : Account) : (setAccount s a x).stamps = s.stamps := rfl
@[simp] theorem setAccount_root (a : Nat) (x : Account) : (setAccount s a x).root = s.root := rfl
@[simp] theorem setAccount_ruleBase (a : Nat) (x : Account) : (setAccount s a x).ruleBase = s.ruleBase := rfl
@[simp] theorem setAccount_ruleLog (a : Nat) (x : Account) : (setAccount s a x).ruleLog = s.ruleLog := rfl
@[simp] theorem setAccount_batchRegs (a : Nat) (x : Account) : (setAccount s a x).batchRegs = s.batchRegs := rfl
@[simp] theorem setAccount_batchOwners (a : Nat) (x : Account) : (setAccount s a x).batchOwners = s.batchOwners := rfl
@[simp] theorem setAccount_batches (a : Nat) (x : Account) : (setAccount s a x).batches = s.batches := rfl
@[simp] theorem setAccount_quarantine (a : Nat) (x : Account) : (setAccount s a x).quarantine = s.quarantine := rfl
@[simp] theorem setAccount_tokens (a : Nat) (x : Account) : (setAccount s a x).tokens = s.tokens := rfl
@[simp] theorem setAccount_cellHeaps (a : Nat) (x : Account) : (setAccount s a x).cellHeaps = s.cellHeaps := rfl
@[simp] theorem setAccount_wireHeaps (a : Nat) (x : Account) : (setAccount s a x).wireHeaps = s.wireHeaps := rfl
@[simp] theorem setAccount_cells (a : Nat) (x : Account) : (setAccount s a x).cells = s.cells := rfl
@[simp] theorem setAccount_wires (a : Nat) (x : Account) : (setAccount s a x).wires = s.wires := rfl
@[simp] theorem setAccount_ctxs (a : Nat) (x : Account) : (setAccount s a x).ctxs = s.ctxs := rfl
@[simp] theorem setAccount_cores (a : Nat) (x : Account) : (setAccount s a x).cores = s.cores := rfl
@[simp] theorem setAccount_clusters (a : Nat) (x : Account) : (setAccount s a x).clusters = s.clusters := rfl
@[simp] theorem setAccount_dies (a : Nat) (x : Account) : (setAccount s a x).dies = s.dies := rfl
@[simp] theorem setAccount_slices (a : Nat) (x : Account) : (setAccount s a x).slices = s.slices := rfl
@[simp] theorem setAccount_nextId (a : Nat) (x : Account) : (setAccount s a x).nextId = s.nextId := rfl
@[simp] theorem setAccount_flights (a : Nat) (x : Account) : (setAccount s a x).flights = s.flights := rfl
@[simp] theorem setAccount_messages (a : Nat) (x : Account) : (setAccount s a x).messages = s.messages := rfl
@[simp] theorem setAccount_graphs (a : Nat) (x : Account) : (setAccount s a x).graphs = s.graphs := rfl
@[simp] theorem setAccount_gangs (a : Nat) (x : Account) : (setAccount s a x).gangs = s.gangs := rfl
@[simp] theorem setAccount_groups (a : Nat) (x : Account) : (setAccount s a x).groups = s.groups := rfl
@[simp] theorem setAccount_releases (a : Nat) (x : Account) : (setAccount s a x).releases = s.releases := rfl
@[simp] theorem setAccount_admission (a : Nat) (x : Account) : (setAccount s a x).admission = s.admission := rfl
@[simp] theorem setAccount_pools (a : Nat) (x : Account) : (setAccount s a x).pools = s.pools := rfl
@[simp] theorem setAccount_host (a : Nat) (x : Account) : (setAccount s a x).host = s.host := rfl
@[simp] theorem setAccount_startRecord (a : Nat) (x : Account) : (setAccount s a x).startRecord = s.startRecord := rfl
@[simp] theorem setAccount_startHeader (a : Nat) (x : Account) : (setAccount s a x).startHeader = s.startHeader := rfl
@[simp] theorem setAccount_firmwareSlot (a : Nat) (x : Account) : (setAccount s a x).firmwareSlot = s.firmwareSlot := rfl
@[simp] theorem setAccount_firmware (a : Nat) (x : Account) : (setAccount s a x).firmware = s.firmware := rfl
@[simp] theorem setAccount_stagedImage (a : Nat) (x : Account) : (setAccount s a x).stagedImage = s.stagedImage := rfl
@[simp] theorem setAccount_attestLeaf (a : Nat) (x : Account) : (setAccount s a x).attestLeaf = s.attestLeaf := rfl
@[simp] theorem setAccount_powerLimit (a : Nat) (x : Account) : (setAccount s a x).powerLimit = s.powerLimit := rfl
@[simp] theorem setAccount_statStopped (a : Nat) (x : Account) : (setAccount s a x).statStopped = s.statStopped := rfl
@[simp] theorem setAccount_statHostdrop (a : Nat) (x : Account) : (setAccount s a x).statHostdrop = s.statHostdrop := rfl
@[simp] theorem setAccount_statThermal (a : Nat) (x : Account) : (setAccount s a x).statThermal = s.statThermal := rfl
@[simp] theorem setAccount_statPoison (a : Nat) (x : Account) : (setAccount s a x).statPoison = s.statPoison := rfl
@[simp] theorem setAccount_cxlSizes (a : Nat) (x : Account) : (setAccount s a x).cxlSizes = s.cxlSizes := rfl
@[simp] theorem setAccount_cxlDown (a : Nat) (x : Account) : (setAccount s a x).cxlDown = s.cxlDown := rfl
@[simp] theorem setAccount_portsUp (a : Nat) (x : Account) : (setAccount s a x).portsUp = s.portsUp := rfl
@[simp] theorem setAccount_routes (a : Nat) (x : Account) : (setAccount s a x).routes = s.routes := rfl
@[simp] theorem setAccount_peersStopped (a : Nat) (x : Account) : (setAccount s a x).peersStopped = s.peersStopped := rfl
@[simp] theorem setAccount_peersLost (a : Nat) (x : Account) : (setAccount s a x).peersLost = s.peersLost := rfl
@[simp] theorem setAccount_peerSeen (a : Nat) (x : Account) : (setAccount s a x).peerSeen = s.peerSeen := rfl
@[simp] theorem setAccount_hostOnline (a : Nat) (x : Account) : (setAccount s a x).hostOnline = s.hostOnline := rfl
@[simp] theorem setAccount_startHalted (a : Nat) (x : Account) : (setAccount s a x).startHalted = s.startHalted := rfl
@[simp] theorem setAccount_answers (a : Nat) (x : Account) : (setAccount s a x).answers = s.answers := rfl
@[simp] theorem setAccount_claimed (a : Nat) (x : Account) : (setAccount s a x).claimed = s.claimed := rfl
@[simp] theorem setAccount_reclaimed (a : Nat) (x : Account) : (setAccount s a x).reclaimed = s.reclaimed := rfl
@[simp] theorem setAccount_lastRecords (a : Nat) (x : Account) : (setAccount s a x).lastRecords = s.lastRecords := rfl
@[simp] theorem setAccount_noticeAt (a : Nat) (x : Account) : (setAccount s a x).noticeAt = s.noticeAt := rfl
@[simp] theorem setAccount_notices (a : Nat) (x : Account) : (setAccount s a x).notices = s.notices := rfl
@[simp] theorem setAccount_stoppedAll (a : Nat) (x : Account) : (setAccount s a x).stoppedAll = s.stoppedAll := rfl
@[simp] theorem setAccount_draining (a : Nat) (x : Account) : (setAccount s a x).draining = s.draining := rfl
@[simp] theorem setAccount_fuseKey (a : Nat) (x : Account) : (setAccount s a x).fuseKey = s.fuseKey := rfl
@[simp] theorem setAccount_minVersion (a : Nat) (x : Account) : (setAccount s a x).minVersion = s.minVersion := rfl

/-! ### setGroup -/

@[simp] theorem setGroup_agenda (i : Nat) (x : GroupEntry) : (setGroup s i x).agenda = s.agenda := rfl
@[simp] theorem setGroup_turns (i : Nat) (x : GroupEntry) : (setGroup s i x).turns = s.turns := rfl
@[simp] theorem setGroup_cur (i : Nat) (x : GroupEntry) : (setGroup s i x).cur = s.cur := rfl
@[simp] theorem setGroup_free (i : Nat) (x : GroupEntry) : (setGroup s i x).free = s.free := rfl
@[simp] theorem setGroup_cycle (i : Nat) (x : GroupEntry) : (setGroup s i x).cycle = s.cycle := rfl
@[simp] theorem setGroup_clockStopped (i : Nat) (x : GroupEntry) : (setGroup s i x).clockStopped = s.clockStopped := rfl
@[simp] theorem setGroup_device (i : Nat) (x : GroupEntry) : (setGroup s i x).device = s.device := rfl
@[simp] theorem setGroup_mem (i : Nat) (x : GroupEntry) : (setGroup s i x).mem = s.mem := rfl
@[simp] theorem setGroup_poisoned (i : Nat) (x : GroupEntry) : (setGroup s i x).poisoned = s.poisoned := rfl
@[simp] theorem setGroup_stamps (i : Nat) (x : GroupEntry) : (setGroup s i x).stamps = s.stamps := rfl
@[simp] theorem setGroup_root (i : Nat) (x : GroupEntry) : (setGroup s i x).root = s.root := rfl
@[simp] theorem setGroup_ruleBase (i : Nat) (x : GroupEntry) : (setGroup s i x).ruleBase = s.ruleBase := rfl
@[simp] theorem setGroup_ruleLog (i : Nat) (x : GroupEntry) : (setGroup s i x).ruleLog = s.ruleLog := rfl
@[simp] theorem setGroup_batchRegs (i : Nat) (x : GroupEntry) : (setGroup s i x).batchRegs = s.batchRegs := rfl
@[simp] theorem setGroup_batchOwners (i : Nat) (x : GroupEntry) : (setGroup s i x).batchOwners = s.batchOwners := rfl
@[simp] theorem setGroup_batches (i : Nat) (x : GroupEntry) : (setGroup s i x).batches = s.batches := rfl
@[simp] theorem setGroup_quarantine (i : Nat) (x : GroupEntry) : (setGroup s i x).quarantine = s.quarantine := rfl
@[simp] theorem setGroup_tokens (i : Nat) (x : GroupEntry) : (setGroup s i x).tokens = s.tokens := rfl
@[simp] theorem setGroup_accounts (i : Nat) (x : GroupEntry) : (setGroup s i x).accounts = s.accounts := rfl
@[simp] theorem setGroup_cellHeaps (i : Nat) (x : GroupEntry) : (setGroup s i x).cellHeaps = s.cellHeaps := rfl
@[simp] theorem setGroup_wireHeaps (i : Nat) (x : GroupEntry) : (setGroup s i x).wireHeaps = s.wireHeaps := rfl
@[simp] theorem setGroup_cells (i : Nat) (x : GroupEntry) : (setGroup s i x).cells = s.cells := rfl
@[simp] theorem setGroup_wires (i : Nat) (x : GroupEntry) : (setGroup s i x).wires = s.wires := rfl
@[simp] theorem setGroup_ctxs (i : Nat) (x : GroupEntry) : (setGroup s i x).ctxs = s.ctxs := rfl
@[simp] theorem setGroup_cores (i : Nat) (x : GroupEntry) : (setGroup s i x).cores = s.cores := rfl
@[simp] theorem setGroup_clusters (i : Nat) (x : GroupEntry) : (setGroup s i x).clusters = s.clusters := rfl
@[simp] theorem setGroup_dies (i : Nat) (x : GroupEntry) : (setGroup s i x).dies = s.dies := rfl
@[simp] theorem setGroup_slices (i : Nat) (x : GroupEntry) : (setGroup s i x).slices = s.slices := rfl
@[simp] theorem setGroup_nextId (i : Nat) (x : GroupEntry) : (setGroup s i x).nextId = s.nextId := rfl
@[simp] theorem setGroup_flights (i : Nat) (x : GroupEntry) : (setGroup s i x).flights = s.flights := rfl
@[simp] theorem setGroup_messages (i : Nat) (x : GroupEntry) : (setGroup s i x).messages = s.messages := rfl
@[simp] theorem setGroup_graphs (i : Nat) (x : GroupEntry) : (setGroup s i x).graphs = s.graphs := rfl
@[simp] theorem setGroup_gangs (i : Nat) (x : GroupEntry) : (setGroup s i x).gangs = s.gangs := rfl
@[simp] theorem setGroup_releases (i : Nat) (x : GroupEntry) : (setGroup s i x).releases = s.releases := rfl
@[simp] theorem setGroup_admission (i : Nat) (x : GroupEntry) : (setGroup s i x).admission = s.admission := rfl
@[simp] theorem setGroup_pools (i : Nat) (x : GroupEntry) : (setGroup s i x).pools = s.pools := rfl
@[simp] theorem setGroup_host (i : Nat) (x : GroupEntry) : (setGroup s i x).host = s.host := rfl
@[simp] theorem setGroup_startRecord (i : Nat) (x : GroupEntry) : (setGroup s i x).startRecord = s.startRecord := rfl
@[simp] theorem setGroup_startHeader (i : Nat) (x : GroupEntry) : (setGroup s i x).startHeader = s.startHeader := rfl
@[simp] theorem setGroup_firmwareSlot (i : Nat) (x : GroupEntry) : (setGroup s i x).firmwareSlot = s.firmwareSlot := rfl
@[simp] theorem setGroup_firmware (i : Nat) (x : GroupEntry) : (setGroup s i x).firmware = s.firmware := rfl
@[simp] theorem setGroup_stagedImage (i : Nat) (x : GroupEntry) : (setGroup s i x).stagedImage = s.stagedImage := rfl
@[simp] theorem setGroup_attestLeaf (i : Nat) (x : GroupEntry) : (setGroup s i x).attestLeaf = s.attestLeaf := rfl
@[simp] theorem setGroup_powerLimit (i : Nat) (x : GroupEntry) : (setGroup s i x).powerLimit = s.powerLimit := rfl
@[simp] theorem setGroup_statStopped (i : Nat) (x : GroupEntry) : (setGroup s i x).statStopped = s.statStopped := rfl
@[simp] theorem setGroup_statHostdrop (i : Nat) (x : GroupEntry) : (setGroup s i x).statHostdrop = s.statHostdrop := rfl
@[simp] theorem setGroup_statThermal (i : Nat) (x : GroupEntry) : (setGroup s i x).statThermal = s.statThermal := rfl
@[simp] theorem setGroup_statPoison (i : Nat) (x : GroupEntry) : (setGroup s i x).statPoison = s.statPoison := rfl
@[simp] theorem setGroup_cxlSizes (i : Nat) (x : GroupEntry) : (setGroup s i x).cxlSizes = s.cxlSizes := rfl
@[simp] theorem setGroup_cxlDown (i : Nat) (x : GroupEntry) : (setGroup s i x).cxlDown = s.cxlDown := rfl
@[simp] theorem setGroup_portsUp (i : Nat) (x : GroupEntry) : (setGroup s i x).portsUp = s.portsUp := rfl
@[simp] theorem setGroup_routes (i : Nat) (x : GroupEntry) : (setGroup s i x).routes = s.routes := rfl
@[simp] theorem setGroup_peersStopped (i : Nat) (x : GroupEntry) : (setGroup s i x).peersStopped = s.peersStopped := rfl
@[simp] theorem setGroup_peersLost (i : Nat) (x : GroupEntry) : (setGroup s i x).peersLost = s.peersLost := rfl
@[simp] theorem setGroup_peerSeen (i : Nat) (x : GroupEntry) : (setGroup s i x).peerSeen = s.peerSeen := rfl
@[simp] theorem setGroup_hostOnline (i : Nat) (x : GroupEntry) : (setGroup s i x).hostOnline = s.hostOnline := rfl
@[simp] theorem setGroup_startHalted (i : Nat) (x : GroupEntry) : (setGroup s i x).startHalted = s.startHalted := rfl
@[simp] theorem setGroup_answers (i : Nat) (x : GroupEntry) : (setGroup s i x).answers = s.answers := rfl
@[simp] theorem setGroup_claimed (i : Nat) (x : GroupEntry) : (setGroup s i x).claimed = s.claimed := rfl
@[simp] theorem setGroup_reclaimed (i : Nat) (x : GroupEntry) : (setGroup s i x).reclaimed = s.reclaimed := rfl
@[simp] theorem setGroup_lastRecords (i : Nat) (x : GroupEntry) : (setGroup s i x).lastRecords = s.lastRecords := rfl
@[simp] theorem setGroup_noticeAt (i : Nat) (x : GroupEntry) : (setGroup s i x).noticeAt = s.noticeAt := rfl
@[simp] theorem setGroup_notices (i : Nat) (x : GroupEntry) : (setGroup s i x).notices = s.notices := rfl
@[simp] theorem setGroup_stoppedAll (i : Nat) (x : GroupEntry) : (setGroup s i x).stoppedAll = s.stoppedAll := rfl
@[simp] theorem setGroup_draining (i : Nat) (x : GroupEntry) : (setGroup s i x).draining = s.draining := rfl
@[simp] theorem setGroup_fuseKey (i : Nat) (x : GroupEntry) : (setGroup s i x).fuseKey = s.fuseKey := rfl
@[simp] theorem setGroup_minVersion (i : Nat) (x : GroupEntry) : (setGroup s i x).minVersion = s.minVersion := rfl

/-! ### setToken -/

@[simp] theorem setToken_agenda (t : Token) : (setToken s t).agenda = s.agenda := rfl
@[simp] theorem setToken_turns (t : Token) : (setToken s t).turns = s.turns := rfl
@[simp] theorem setToken_cur (t : Token) : (setToken s t).cur = s.cur := rfl
@[simp] theorem setToken_free (t : Token) : (setToken s t).free = s.free := rfl
@[simp] theorem setToken_cycle (t : Token) : (setToken s t).cycle = s.cycle := rfl
@[simp] theorem setToken_clockStopped (t : Token) : (setToken s t).clockStopped = s.clockStopped := rfl
@[simp] theorem setToken_device (t : Token) : (setToken s t).device = s.device := rfl
@[simp] theorem setToken_mem (t : Token) : (setToken s t).mem = s.mem := rfl
@[simp] theorem setToken_poisoned (t : Token) : (setToken s t).poisoned = s.poisoned := rfl
@[simp] theorem setToken_stamps (t : Token) : (setToken s t).stamps = s.stamps := rfl
@[simp] theorem setToken_root (t : Token) : (setToken s t).root = s.root := rfl
@[simp] theorem setToken_ruleBase (t : Token) : (setToken s t).ruleBase = s.ruleBase := rfl
@[simp] theorem setToken_ruleLog (t : Token) : (setToken s t).ruleLog = s.ruleLog := rfl
@[simp] theorem setToken_batchRegs (t : Token) : (setToken s t).batchRegs = s.batchRegs := rfl
@[simp] theorem setToken_batchOwners (t : Token) : (setToken s t).batchOwners = s.batchOwners := rfl
@[simp] theorem setToken_batches (t : Token) : (setToken s t).batches = s.batches := rfl
@[simp] theorem setToken_quarantine (t : Token) : (setToken s t).quarantine = s.quarantine := rfl
@[simp] theorem setToken_accounts (t : Token) : (setToken s t).accounts = s.accounts := rfl
@[simp] theorem setToken_cellHeaps (t : Token) : (setToken s t).cellHeaps = s.cellHeaps := rfl
@[simp] theorem setToken_wireHeaps (t : Token) : (setToken s t).wireHeaps = s.wireHeaps := rfl
@[simp] theorem setToken_cells (t : Token) : (setToken s t).cells = s.cells := rfl
@[simp] theorem setToken_wires (t : Token) : (setToken s t).wires = s.wires := rfl
@[simp] theorem setToken_ctxs (t : Token) : (setToken s t).ctxs = s.ctxs := rfl
@[simp] theorem setToken_cores (t : Token) : (setToken s t).cores = s.cores := rfl
@[simp] theorem setToken_clusters (t : Token) : (setToken s t).clusters = s.clusters := rfl
@[simp] theorem setToken_dies (t : Token) : (setToken s t).dies = s.dies := rfl
@[simp] theorem setToken_slices (t : Token) : (setToken s t).slices = s.slices := rfl
@[simp] theorem setToken_nextId (t : Token) : (setToken s t).nextId = s.nextId := rfl
@[simp] theorem setToken_flights (t : Token) : (setToken s t).flights = s.flights := rfl
@[simp] theorem setToken_messages (t : Token) : (setToken s t).messages = s.messages := rfl
@[simp] theorem setToken_graphs (t : Token) : (setToken s t).graphs = s.graphs := rfl
@[simp] theorem setToken_gangs (t : Token) : (setToken s t).gangs = s.gangs := rfl
@[simp] theorem setToken_groups (t : Token) : (setToken s t).groups = s.groups := rfl
@[simp] theorem setToken_releases (t : Token) : (setToken s t).releases = s.releases := rfl
@[simp] theorem setToken_admission (t : Token) : (setToken s t).admission = s.admission := rfl
@[simp] theorem setToken_pools (t : Token) : (setToken s t).pools = s.pools := rfl
@[simp] theorem setToken_host (t : Token) : (setToken s t).host = s.host := rfl
@[simp] theorem setToken_startRecord (t : Token) : (setToken s t).startRecord = s.startRecord := rfl
@[simp] theorem setToken_startHeader (t : Token) : (setToken s t).startHeader = s.startHeader := rfl
@[simp] theorem setToken_firmwareSlot (t : Token) : (setToken s t).firmwareSlot = s.firmwareSlot := rfl
@[simp] theorem setToken_firmware (t : Token) : (setToken s t).firmware = s.firmware := rfl
@[simp] theorem setToken_stagedImage (t : Token) : (setToken s t).stagedImage = s.stagedImage := rfl
@[simp] theorem setToken_attestLeaf (t : Token) : (setToken s t).attestLeaf = s.attestLeaf := rfl
@[simp] theorem setToken_powerLimit (t : Token) : (setToken s t).powerLimit = s.powerLimit := rfl
@[simp] theorem setToken_statStopped (t : Token) : (setToken s t).statStopped = s.statStopped := rfl
@[simp] theorem setToken_statHostdrop (t : Token) : (setToken s t).statHostdrop = s.statHostdrop := rfl
@[simp] theorem setToken_statThermal (t : Token) : (setToken s t).statThermal = s.statThermal := rfl
@[simp] theorem setToken_statPoison (t : Token) : (setToken s t).statPoison = s.statPoison := rfl
@[simp] theorem setToken_cxlSizes (t : Token) : (setToken s t).cxlSizes = s.cxlSizes := rfl
@[simp] theorem setToken_cxlDown (t : Token) : (setToken s t).cxlDown = s.cxlDown := rfl
@[simp] theorem setToken_portsUp (t : Token) : (setToken s t).portsUp = s.portsUp := rfl
@[simp] theorem setToken_routes (t : Token) : (setToken s t).routes = s.routes := rfl
@[simp] theorem setToken_peersStopped (t : Token) : (setToken s t).peersStopped = s.peersStopped := rfl
@[simp] theorem setToken_peersLost (t : Token) : (setToken s t).peersLost = s.peersLost := rfl
@[simp] theorem setToken_peerSeen (t : Token) : (setToken s t).peerSeen = s.peerSeen := rfl
@[simp] theorem setToken_hostOnline (t : Token) : (setToken s t).hostOnline = s.hostOnline := rfl
@[simp] theorem setToken_startHalted (t : Token) : (setToken s t).startHalted = s.startHalted := rfl
@[simp] theorem setToken_answers (t : Token) : (setToken s t).answers = s.answers := rfl
@[simp] theorem setToken_claimed (t : Token) : (setToken s t).claimed = s.claimed := rfl
@[simp] theorem setToken_reclaimed (t : Token) : (setToken s t).reclaimed = s.reclaimed := rfl
@[simp] theorem setToken_lastRecords (t : Token) : (setToken s t).lastRecords = s.lastRecords := rfl
@[simp] theorem setToken_noticeAt (t : Token) : (setToken s t).noticeAt = s.noticeAt := rfl
@[simp] theorem setToken_notices (t : Token) : (setToken s t).notices = s.notices := rfl
@[simp] theorem setToken_stoppedAll (t : Token) : (setToken s t).stoppedAll = s.stoppedAll := rfl
@[simp] theorem setToken_draining (t : Token) : (setToken s t).draining = s.draining := rfl
@[simp] theorem setToken_fuseKey (t : Token) : (setToken s t).fuseKey = s.fuseKey := rfl
@[simp] theorem setToken_minVersion (t : Token) : (setToken s t).minVersion = s.minVersion := rfl

/-! ### dropToken -/

@[simp] theorem dropToken_agenda (b : Nat) : (dropToken s b).agenda = s.agenda := rfl
@[simp] theorem dropToken_turns (b : Nat) : (dropToken s b).turns = s.turns := rfl
@[simp] theorem dropToken_cur (b : Nat) : (dropToken s b).cur = s.cur := rfl
@[simp] theorem dropToken_free (b : Nat) : (dropToken s b).free = s.free := rfl
@[simp] theorem dropToken_cycle (b : Nat) : (dropToken s b).cycle = s.cycle := rfl
@[simp] theorem dropToken_clockStopped (b : Nat) : (dropToken s b).clockStopped = s.clockStopped := rfl
@[simp] theorem dropToken_device (b : Nat) : (dropToken s b).device = s.device := rfl
@[simp] theorem dropToken_mem (b : Nat) : (dropToken s b).mem = s.mem := rfl
@[simp] theorem dropToken_poisoned (b : Nat) : (dropToken s b).poisoned = s.poisoned := rfl
@[simp] theorem dropToken_stamps (b : Nat) : (dropToken s b).stamps = s.stamps := rfl
@[simp] theorem dropToken_root (b : Nat) : (dropToken s b).root = s.root := rfl
@[simp] theorem dropToken_ruleBase (b : Nat) : (dropToken s b).ruleBase = s.ruleBase := rfl
@[simp] theorem dropToken_ruleLog (b : Nat) : (dropToken s b).ruleLog = s.ruleLog := rfl
@[simp] theorem dropToken_batchRegs (b : Nat) : (dropToken s b).batchRegs = s.batchRegs := rfl
@[simp] theorem dropToken_batchOwners (b : Nat) : (dropToken s b).batchOwners = s.batchOwners := rfl
@[simp] theorem dropToken_batches (b : Nat) : (dropToken s b).batches = s.batches := rfl
@[simp] theorem dropToken_quarantine (b : Nat) : (dropToken s b).quarantine = s.quarantine := rfl
@[simp] theorem dropToken_accounts (b : Nat) : (dropToken s b).accounts = s.accounts := rfl
@[simp] theorem dropToken_cellHeaps (b : Nat) : (dropToken s b).cellHeaps = s.cellHeaps := rfl
@[simp] theorem dropToken_wireHeaps (b : Nat) : (dropToken s b).wireHeaps = s.wireHeaps := rfl
@[simp] theorem dropToken_cells (b : Nat) : (dropToken s b).cells = s.cells := rfl
@[simp] theorem dropToken_wires (b : Nat) : (dropToken s b).wires = s.wires := rfl
@[simp] theorem dropToken_ctxs (b : Nat) : (dropToken s b).ctxs = s.ctxs := rfl
@[simp] theorem dropToken_cores (b : Nat) : (dropToken s b).cores = s.cores := rfl
@[simp] theorem dropToken_clusters (b : Nat) : (dropToken s b).clusters = s.clusters := rfl
@[simp] theorem dropToken_dies (b : Nat) : (dropToken s b).dies = s.dies := rfl
@[simp] theorem dropToken_slices (b : Nat) : (dropToken s b).slices = s.slices := rfl
@[simp] theorem dropToken_nextId (b : Nat) : (dropToken s b).nextId = s.nextId := rfl
@[simp] theorem dropToken_flights (b : Nat) : (dropToken s b).flights = s.flights := rfl
@[simp] theorem dropToken_messages (b : Nat) : (dropToken s b).messages = s.messages := rfl
@[simp] theorem dropToken_graphs (b : Nat) : (dropToken s b).graphs = s.graphs := rfl
@[simp] theorem dropToken_gangs (b : Nat) : (dropToken s b).gangs = s.gangs := rfl
@[simp] theorem dropToken_groups (b : Nat) : (dropToken s b).groups = s.groups := rfl
@[simp] theorem dropToken_releases (b : Nat) : (dropToken s b).releases = s.releases := rfl
@[simp] theorem dropToken_admission (b : Nat) : (dropToken s b).admission = s.admission := rfl
@[simp] theorem dropToken_pools (b : Nat) : (dropToken s b).pools = s.pools := rfl
@[simp] theorem dropToken_host (b : Nat) : (dropToken s b).host = s.host := rfl
@[simp] theorem dropToken_startRecord (b : Nat) : (dropToken s b).startRecord = s.startRecord := rfl
@[simp] theorem dropToken_startHeader (b : Nat) : (dropToken s b).startHeader = s.startHeader := rfl
@[simp] theorem dropToken_firmwareSlot (b : Nat) : (dropToken s b).firmwareSlot = s.firmwareSlot := rfl
@[simp] theorem dropToken_firmware (b : Nat) : (dropToken s b).firmware = s.firmware := rfl
@[simp] theorem dropToken_stagedImage (b : Nat) : (dropToken s b).stagedImage = s.stagedImage := rfl
@[simp] theorem dropToken_attestLeaf (b : Nat) : (dropToken s b).attestLeaf = s.attestLeaf := rfl
@[simp] theorem dropToken_powerLimit (b : Nat) : (dropToken s b).powerLimit = s.powerLimit := rfl
@[simp] theorem dropToken_statStopped (b : Nat) : (dropToken s b).statStopped = s.statStopped := rfl
@[simp] theorem dropToken_statHostdrop (b : Nat) : (dropToken s b).statHostdrop = s.statHostdrop := rfl
@[simp] theorem dropToken_statThermal (b : Nat) : (dropToken s b).statThermal = s.statThermal := rfl
@[simp] theorem dropToken_statPoison (b : Nat) : (dropToken s b).statPoison = s.statPoison := rfl
@[simp] theorem dropToken_cxlSizes (b : Nat) : (dropToken s b).cxlSizes = s.cxlSizes := rfl
@[simp] theorem dropToken_cxlDown (b : Nat) : (dropToken s b).cxlDown = s.cxlDown := rfl
@[simp] theorem dropToken_portsUp (b : Nat) : (dropToken s b).portsUp = s.portsUp := rfl
@[simp] theorem dropToken_routes (b : Nat) : (dropToken s b).routes = s.routes := rfl
@[simp] theorem dropToken_peersStopped (b : Nat) : (dropToken s b).peersStopped = s.peersStopped := rfl
@[simp] theorem dropToken_peersLost (b : Nat) : (dropToken s b).peersLost = s.peersLost := rfl
@[simp] theorem dropToken_peerSeen (b : Nat) : (dropToken s b).peerSeen = s.peerSeen := rfl
@[simp] theorem dropToken_hostOnline (b : Nat) : (dropToken s b).hostOnline = s.hostOnline := rfl
@[simp] theorem dropToken_startHalted (b : Nat) : (dropToken s b).startHalted = s.startHalted := rfl
@[simp] theorem dropToken_answers (b : Nat) : (dropToken s b).answers = s.answers := rfl
@[simp] theorem dropToken_claimed (b : Nat) : (dropToken s b).claimed = s.claimed := rfl
@[simp] theorem dropToken_reclaimed (b : Nat) : (dropToken s b).reclaimed = s.reclaimed := rfl
@[simp] theorem dropToken_lastRecords (b : Nat) : (dropToken s b).lastRecords = s.lastRecords := rfl
@[simp] theorem dropToken_noticeAt (b : Nat) : (dropToken s b).noticeAt = s.noticeAt := rfl
@[simp] theorem dropToken_notices (b : Nat) : (dropToken s b).notices = s.notices := rfl
@[simp] theorem dropToken_stoppedAll (b : Nat) : (dropToken s b).stoppedAll = s.stoppedAll := rfl
@[simp] theorem dropToken_draining (b : Nat) : (dropToken s b).draining = s.draining := rfl
@[simp] theorem dropToken_fuseKey (b : Nat) : (dropToken s b).fuseKey = s.fuseKey := rfl
@[simp] theorem dropToken_minVersion (b : Nat) : (dropToken s b).minVersion = s.minVersion := rfl

/-! ### setByte -/

@[simp] theorem setByte_agenda (a : Nat) (b : Byte) : (setByte s a b).agenda = s.agenda := rfl
@[simp] theorem setByte_turns (a : Nat) (b : Byte) : (setByte s a b).turns = s.turns := rfl
@[simp] theorem setByte_cur (a : Nat) (b : Byte) : (setByte s a b).cur = s.cur := rfl
@[simp] theorem setByte_free (a : Nat) (b : Byte) : (setByte s a b).free = s.free := rfl
@[simp] theorem setByte_cycle (a : Nat) (b : Byte) : (setByte s a b).cycle = s.cycle := rfl
@[simp] theorem setByte_clockStopped (a : Nat) (b : Byte) : (setByte s a b).clockStopped = s.clockStopped := rfl
@[simp] theorem setByte_device (a : Nat) (b : Byte) : (setByte s a b).device = s.device := rfl
@[simp] theorem setByte_poisoned (a : Nat) (b : Byte) : (setByte s a b).poisoned = s.poisoned := rfl
@[simp] theorem setByte_stamps (a : Nat) (b : Byte) : (setByte s a b).stamps = s.stamps := rfl
@[simp] theorem setByte_root (a : Nat) (b : Byte) : (setByte s a b).root = s.root := rfl
@[simp] theorem setByte_ruleBase (a : Nat) (b : Byte) : (setByte s a b).ruleBase = s.ruleBase := rfl
@[simp] theorem setByte_ruleLog (a : Nat) (b : Byte) : (setByte s a b).ruleLog = s.ruleLog := rfl
@[simp] theorem setByte_batchRegs (a : Nat) (b : Byte) : (setByte s a b).batchRegs = s.batchRegs := rfl
@[simp] theorem setByte_batchOwners (a : Nat) (b : Byte) : (setByte s a b).batchOwners = s.batchOwners := rfl
@[simp] theorem setByte_batches (a : Nat) (b : Byte) : (setByte s a b).batches = s.batches := rfl
@[simp] theorem setByte_quarantine (a : Nat) (b : Byte) : (setByte s a b).quarantine = s.quarantine := rfl
@[simp] theorem setByte_tokens (a : Nat) (b : Byte) : (setByte s a b).tokens = s.tokens := rfl
@[simp] theorem setByte_accounts (a : Nat) (b : Byte) : (setByte s a b).accounts = s.accounts := rfl
@[simp] theorem setByte_cellHeaps (a : Nat) (b : Byte) : (setByte s a b).cellHeaps = s.cellHeaps := rfl
@[simp] theorem setByte_wireHeaps (a : Nat) (b : Byte) : (setByte s a b).wireHeaps = s.wireHeaps := rfl
@[simp] theorem setByte_cells (a : Nat) (b : Byte) : (setByte s a b).cells = s.cells := rfl
@[simp] theorem setByte_wires (a : Nat) (b : Byte) : (setByte s a b).wires = s.wires := rfl
@[simp] theorem setByte_ctxs (a : Nat) (b : Byte) : (setByte s a b).ctxs = s.ctxs := rfl
@[simp] theorem setByte_cores (a : Nat) (b : Byte) : (setByte s a b).cores = s.cores := rfl
@[simp] theorem setByte_clusters (a : Nat) (b : Byte) : (setByte s a b).clusters = s.clusters := rfl
@[simp] theorem setByte_dies (a : Nat) (b : Byte) : (setByte s a b).dies = s.dies := rfl
@[simp] theorem setByte_slices (a : Nat) (b : Byte) : (setByte s a b).slices = s.slices := rfl
@[simp] theorem setByte_nextId (a : Nat) (b : Byte) : (setByte s a b).nextId = s.nextId := rfl
@[simp] theorem setByte_flights (a : Nat) (b : Byte) : (setByte s a b).flights = s.flights := rfl
@[simp] theorem setByte_messages (a : Nat) (b : Byte) : (setByte s a b).messages = s.messages := rfl
@[simp] theorem setByte_graphs (a : Nat) (b : Byte) : (setByte s a b).graphs = s.graphs := rfl
@[simp] theorem setByte_gangs (a : Nat) (b : Byte) : (setByte s a b).gangs = s.gangs := rfl
@[simp] theorem setByte_groups (a : Nat) (b : Byte) : (setByte s a b).groups = s.groups := rfl
@[simp] theorem setByte_releases (a : Nat) (b : Byte) : (setByte s a b).releases = s.releases := rfl
@[simp] theorem setByte_admission (a : Nat) (b : Byte) : (setByte s a b).admission = s.admission := rfl
@[simp] theorem setByte_pools (a : Nat) (b : Byte) : (setByte s a b).pools = s.pools := rfl
@[simp] theorem setByte_host (a : Nat) (b : Byte) : (setByte s a b).host = s.host := rfl
@[simp] theorem setByte_startRecord (a : Nat) (b : Byte) : (setByte s a b).startRecord = s.startRecord := rfl
@[simp] theorem setByte_startHeader (a : Nat) (b : Byte) : (setByte s a b).startHeader = s.startHeader := rfl
@[simp] theorem setByte_firmwareSlot (a : Nat) (b : Byte) : (setByte s a b).firmwareSlot = s.firmwareSlot := rfl
@[simp] theorem setByte_firmware (a : Nat) (b : Byte) : (setByte s a b).firmware = s.firmware := rfl
@[simp] theorem setByte_stagedImage (a : Nat) (b : Byte) : (setByte s a b).stagedImage = s.stagedImage := rfl
@[simp] theorem setByte_attestLeaf (a : Nat) (b : Byte) : (setByte s a b).attestLeaf = s.attestLeaf := rfl
@[simp] theorem setByte_powerLimit (a : Nat) (b : Byte) : (setByte s a b).powerLimit = s.powerLimit := rfl
@[simp] theorem setByte_statStopped (a : Nat) (b : Byte) : (setByte s a b).statStopped = s.statStopped := rfl
@[simp] theorem setByte_statHostdrop (a : Nat) (b : Byte) : (setByte s a b).statHostdrop = s.statHostdrop := rfl
@[simp] theorem setByte_statThermal (a : Nat) (b : Byte) : (setByte s a b).statThermal = s.statThermal := rfl
@[simp] theorem setByte_statPoison (a : Nat) (b : Byte) : (setByte s a b).statPoison = s.statPoison := rfl
@[simp] theorem setByte_cxlSizes (a : Nat) (b : Byte) : (setByte s a b).cxlSizes = s.cxlSizes := rfl
@[simp] theorem setByte_cxlDown (a : Nat) (b : Byte) : (setByte s a b).cxlDown = s.cxlDown := rfl
@[simp] theorem setByte_portsUp (a : Nat) (b : Byte) : (setByte s a b).portsUp = s.portsUp := rfl
@[simp] theorem setByte_routes (a : Nat) (b : Byte) : (setByte s a b).routes = s.routes := rfl
@[simp] theorem setByte_peersStopped (a : Nat) (b : Byte) : (setByte s a b).peersStopped = s.peersStopped := rfl
@[simp] theorem setByte_peersLost (a : Nat) (b : Byte) : (setByte s a b).peersLost = s.peersLost := rfl
@[simp] theorem setByte_peerSeen (a : Nat) (b : Byte) : (setByte s a b).peerSeen = s.peerSeen := rfl
@[simp] theorem setByte_hostOnline (a : Nat) (b : Byte) : (setByte s a b).hostOnline = s.hostOnline := rfl
@[simp] theorem setByte_startHalted (a : Nat) (b : Byte) : (setByte s a b).startHalted = s.startHalted := rfl
@[simp] theorem setByte_answers (a : Nat) (b : Byte) : (setByte s a b).answers = s.answers := rfl
@[simp] theorem setByte_claimed (a : Nat) (b : Byte) : (setByte s a b).claimed = s.claimed := rfl
@[simp] theorem setByte_reclaimed (a : Nat) (b : Byte) : (setByte s a b).reclaimed = s.reclaimed := rfl
@[simp] theorem setByte_lastRecords (a : Nat) (b : Byte) : (setByte s a b).lastRecords = s.lastRecords := rfl
@[simp] theorem setByte_noticeAt (a : Nat) (b : Byte) : (setByte s a b).noticeAt = s.noticeAt := rfl
@[simp] theorem setByte_notices (a : Nat) (b : Byte) : (setByte s a b).notices = s.notices := rfl
@[simp] theorem setByte_stoppedAll (a : Nat) (b : Byte) : (setByte s a b).stoppedAll = s.stoppedAll := rfl
@[simp] theorem setByte_draining (a : Nat) (b : Byte) : (setByte s a b).draining = s.draining := rfl
@[simp] theorem setByte_fuseKey (a : Nat) (b : Byte) : (setByte s a b).fuseKey = s.fuseKey := rfl
@[simp] theorem setByte_minVersion (a : Nat) (b : Byte) : (setByte s a b).minVersion = s.minVersion := rfl

/-! ### bumpLine -/

@[simp] theorem bumpLine_agenda (l : Nat) : (bumpLine s l).agenda = s.agenda := rfl
@[simp] theorem bumpLine_turns (l : Nat) : (bumpLine s l).turns = s.turns := rfl
@[simp] theorem bumpLine_cur (l : Nat) : (bumpLine s l).cur = s.cur := rfl
@[simp] theorem bumpLine_free (l : Nat) : (bumpLine s l).free = s.free := rfl
@[simp] theorem bumpLine_cycle (l : Nat) : (bumpLine s l).cycle = s.cycle := rfl
@[simp] theorem bumpLine_clockStopped (l : Nat) : (bumpLine s l).clockStopped = s.clockStopped := rfl
@[simp] theorem bumpLine_device (l : Nat) : (bumpLine s l).device = s.device := rfl
@[simp] theorem bumpLine_mem (l : Nat) : (bumpLine s l).mem = s.mem := rfl
@[simp] theorem bumpLine_poisoned (l : Nat) : (bumpLine s l).poisoned = s.poisoned := rfl
@[simp] theorem bumpLine_root (l : Nat) : (bumpLine s l).root = s.root := rfl
@[simp] theorem bumpLine_ruleBase (l : Nat) : (bumpLine s l).ruleBase = s.ruleBase := rfl
@[simp] theorem bumpLine_ruleLog (l : Nat) : (bumpLine s l).ruleLog = s.ruleLog := rfl
@[simp] theorem bumpLine_batchRegs (l : Nat) : (bumpLine s l).batchRegs = s.batchRegs := rfl
@[simp] theorem bumpLine_batchOwners (l : Nat) : (bumpLine s l).batchOwners = s.batchOwners := rfl
@[simp] theorem bumpLine_batches (l : Nat) : (bumpLine s l).batches = s.batches := rfl
@[simp] theorem bumpLine_quarantine (l : Nat) : (bumpLine s l).quarantine = s.quarantine := rfl
@[simp] theorem bumpLine_tokens (l : Nat) : (bumpLine s l).tokens = s.tokens := rfl
@[simp] theorem bumpLine_accounts (l : Nat) : (bumpLine s l).accounts = s.accounts := rfl
@[simp] theorem bumpLine_cellHeaps (l : Nat) : (bumpLine s l).cellHeaps = s.cellHeaps := rfl
@[simp] theorem bumpLine_wireHeaps (l : Nat) : (bumpLine s l).wireHeaps = s.wireHeaps := rfl
@[simp] theorem bumpLine_cells (l : Nat) : (bumpLine s l).cells = s.cells := rfl
@[simp] theorem bumpLine_wires (l : Nat) : (bumpLine s l).wires = s.wires := rfl
@[simp] theorem bumpLine_ctxs (l : Nat) : (bumpLine s l).ctxs = s.ctxs := rfl
@[simp] theorem bumpLine_cores (l : Nat) : (bumpLine s l).cores = s.cores := rfl
@[simp] theorem bumpLine_clusters (l : Nat) : (bumpLine s l).clusters = s.clusters := rfl
@[simp] theorem bumpLine_dies (l : Nat) : (bumpLine s l).dies = s.dies := rfl
@[simp] theorem bumpLine_slices (l : Nat) : (bumpLine s l).slices = s.slices := rfl
@[simp] theorem bumpLine_nextId (l : Nat) : (bumpLine s l).nextId = s.nextId := rfl
@[simp] theorem bumpLine_flights (l : Nat) : (bumpLine s l).flights = s.flights := rfl
@[simp] theorem bumpLine_messages (l : Nat) : (bumpLine s l).messages = s.messages := rfl
@[simp] theorem bumpLine_graphs (l : Nat) : (bumpLine s l).graphs = s.graphs := rfl
@[simp] theorem bumpLine_gangs (l : Nat) : (bumpLine s l).gangs = s.gangs := rfl
@[simp] theorem bumpLine_groups (l : Nat) : (bumpLine s l).groups = s.groups := rfl
@[simp] theorem bumpLine_releases (l : Nat) : (bumpLine s l).releases = s.releases := rfl
@[simp] theorem bumpLine_admission (l : Nat) : (bumpLine s l).admission = s.admission := rfl
@[simp] theorem bumpLine_pools (l : Nat) : (bumpLine s l).pools = s.pools := rfl
@[simp] theorem bumpLine_host (l : Nat) : (bumpLine s l).host = s.host := rfl
@[simp] theorem bumpLine_startRecord (l : Nat) : (bumpLine s l).startRecord = s.startRecord := rfl
@[simp] theorem bumpLine_startHeader (l : Nat) : (bumpLine s l).startHeader = s.startHeader := rfl
@[simp] theorem bumpLine_firmwareSlot (l : Nat) : (bumpLine s l).firmwareSlot = s.firmwareSlot := rfl
@[simp] theorem bumpLine_firmware (l : Nat) : (bumpLine s l).firmware = s.firmware := rfl
@[simp] theorem bumpLine_stagedImage (l : Nat) : (bumpLine s l).stagedImage = s.stagedImage := rfl
@[simp] theorem bumpLine_attestLeaf (l : Nat) : (bumpLine s l).attestLeaf = s.attestLeaf := rfl
@[simp] theorem bumpLine_powerLimit (l : Nat) : (bumpLine s l).powerLimit = s.powerLimit := rfl
@[simp] theorem bumpLine_statStopped (l : Nat) : (bumpLine s l).statStopped = s.statStopped := rfl
@[simp] theorem bumpLine_statHostdrop (l : Nat) : (bumpLine s l).statHostdrop = s.statHostdrop := rfl
@[simp] theorem bumpLine_statThermal (l : Nat) : (bumpLine s l).statThermal = s.statThermal := rfl
@[simp] theorem bumpLine_statPoison (l : Nat) : (bumpLine s l).statPoison = s.statPoison := rfl
@[simp] theorem bumpLine_cxlSizes (l : Nat) : (bumpLine s l).cxlSizes = s.cxlSizes := rfl
@[simp] theorem bumpLine_cxlDown (l : Nat) : (bumpLine s l).cxlDown = s.cxlDown := rfl
@[simp] theorem bumpLine_portsUp (l : Nat) : (bumpLine s l).portsUp = s.portsUp := rfl
@[simp] theorem bumpLine_routes (l : Nat) : (bumpLine s l).routes = s.routes := rfl
@[simp] theorem bumpLine_peersStopped (l : Nat) : (bumpLine s l).peersStopped = s.peersStopped := rfl
@[simp] theorem bumpLine_peersLost (l : Nat) : (bumpLine s l).peersLost = s.peersLost := rfl
@[simp] theorem bumpLine_peerSeen (l : Nat) : (bumpLine s l).peerSeen = s.peerSeen := rfl
@[simp] theorem bumpLine_hostOnline (l : Nat) : (bumpLine s l).hostOnline = s.hostOnline := rfl
@[simp] theorem bumpLine_startHalted (l : Nat) : (bumpLine s l).startHalted = s.startHalted := rfl
@[simp] theorem bumpLine_answers (l : Nat) : (bumpLine s l).answers = s.answers := rfl
@[simp] theorem bumpLine_claimed (l : Nat) : (bumpLine s l).claimed = s.claimed := rfl
@[simp] theorem bumpLine_reclaimed (l : Nat) : (bumpLine s l).reclaimed = s.reclaimed := rfl
@[simp] theorem bumpLine_lastRecords (l : Nat) : (bumpLine s l).lastRecords = s.lastRecords := rfl
@[simp] theorem bumpLine_noticeAt (l : Nat) : (bumpLine s l).noticeAt = s.noticeAt := rfl
@[simp] theorem bumpLine_notices (l : Nat) : (bumpLine s l).notices = s.notices := rfl
@[simp] theorem bumpLine_stoppedAll (l : Nat) : (bumpLine s l).stoppedAll = s.stoppedAll := rfl
@[simp] theorem bumpLine_draining (l : Nat) : (bumpLine s l).draining = s.draining := rfl
@[simp] theorem bumpLine_fuseKey (l : Nat) : (bumpLine s l).fuseKey = s.fuseKey := rfl
@[simp] theorem bumpLine_minVersion (l : Nat) : (bumpLine s l).minVersion = s.minVersion := rfl

/-! ### Reading after an update -/

@[simp] theorem ctxOf_setCtx_self (c : Nat) (x : Ctx) : ctxOf (setCtx s c x) c = x := sget_sput_self _ _ _ _
theorem ctxOf_setCtx_ne {c d : Nat} (x : Ctx) (h : d ≠ c) : ctxOf (setCtx s c x) d = ctxOf s d := sget_sput_ne _ _ _ h
theorem ctxOf_setCtx (c d : Nat) (x : Ctx) : ctxOf (setCtx s c x) d = if d = c then x else ctxOf s d := sget_sput _ _ _ _ _
@[simp] theorem ctxOf_modCtx_self (c : Nat) (f : Ctx → Ctx) : ctxOf (modCtx s c f) c = f (ctxOf s c) := sget_sput_self _ _ _ _
theorem ctxOf_modCtx_ne {c d : Nat} (f : Ctx → Ctx) (h : d ≠ c) : ctxOf (modCtx s c f) d = ctxOf s d := sget_sput_ne _ _ _ h
theorem ctxOf_modCtx (c d : Nat) (f : Ctx → Ctx) : ctxOf (modCtx s c f) d = if d = c then f (ctxOf s c) else ctxOf s d := sget_sput _ _ _ _ _
@[simp] theorem ctxOf_setCore (k : Nat) (x : Core) (z : Nat) : ctxOf (setCore s k x) z = ctxOf s z := rfl
@[simp] theorem ctxOf_modCore (k : Nat) (f : Core → Core) (z : Nat) : ctxOf (modCore s k f) z = ctxOf s z := rfl
@[simp] theorem ctxOf_setCluster (v : Nat) (x : Cluster) (z : Nat) : ctxOf (setCluster s v x) z = ctxOf s z := rfl
@[simp] theorem ctxOf_modCluster (v : Nat) (f : Cluster → Cluster) (z : Nat) : ctxOf (modCluster s v f) z = ctxOf s z := rfl
@[simp] theorem ctxOf_setDie (d : Nat) (x : Die) (z : Nat) : ctxOf (setDie s d x) z = ctxOf s z := rfl
@[simp] theorem ctxOf_setSlice (i : Nat) (x : Slice) (z : Nat) : ctxOf (setSlice s i x) z = ctxOf s z := rfl
@[simp] theorem ctxOf_setAccount (a : Nat) (x : Account) (z : Nat) : ctxOf (setAccount s a x) z = ctxOf s z := rfl
@[simp] theorem ctxOf_setGroup (i : Nat) (x : GroupEntry) (z : Nat) : ctxOf (setGroup s i x) z = ctxOf s z := rfl
@[simp] theorem ctxOf_setToken (t : Token) (z : Nat) : ctxOf (setToken s t) z = ctxOf s z := rfl
@[simp] theorem ctxOf_dropToken (b : Nat) (z : Nat) : ctxOf (dropToken s b) z = ctxOf s z := rfl
@[simp] theorem ctxOf_setByte (a : Nat) (b : Byte) (z : Nat) : ctxOf (setByte s a b) z = ctxOf s z := rfl
@[simp] theorem ctxOf_bumpLine (l : Nat) (z : Nat) : ctxOf (bumpLine s l) z = ctxOf s z := rfl

@[simp] theorem coreAt_setCore_self (c : Nat) (x : Core) : coreAt (setCore s c x) c = x := sget_sput_self _ _ _ _
theorem coreAt_setCore_ne {c d : Nat} (x : Core) (h : d ≠ c) : coreAt (setCore s c x) d = coreAt s d := sget_sput_ne _ _ _ h
theorem coreAt_setCore (c d : Nat) (x : Core) : coreAt (setCore s c x) d = if d = c then x else coreAt s d := sget_sput _ _ _ _ _
@[simp] theorem coreAt_modCore_self (c : Nat) (f : Core → Core) : coreAt (modCore s c f) c = f (coreAt s c) := sget_sput_self _ _ _ _
theorem coreAt_modCore_ne {c d : Nat} (f : Core → Core) (h : d ≠ c) : coreAt (modCore s c f) d = coreAt s d := sget_sput_ne _ _ _ h
theorem coreAt_modCore (c d : Nat) (f : Core → Core) : coreAt (modCore s c f) d = if d = c then f (coreAt s c) else coreAt s d := sget_sput _ _ _ _ _
@[simp] theorem coreAt_setCtx (c : Nat) (x : Ctx) (z : Nat) : coreAt (setCtx s c x) z = coreAt s z := rfl
@[simp] theorem coreAt_modCtx (c : Nat) (f : Ctx → Ctx) (z : Nat) : coreAt (modCtx s c f) z = coreAt s z := rfl
@[simp] theorem coreAt_setCluster (v : Nat) (x : Cluster) (z : Nat) : coreAt (setCluster s v x) z = coreAt s z := rfl
@[simp] theorem coreAt_modCluster (v : Nat) (f : Cluster → Cluster) (z : Nat) : coreAt (modCluster s v f) z = coreAt s z := rfl
@[simp] theorem coreAt_setDie (d : Nat) (x : Die) (z : Nat) : coreAt (setDie s d x) z = coreAt s z := rfl
@[simp] theorem coreAt_setSlice (i : Nat) (x : Slice) (z : Nat) : coreAt (setSlice s i x) z = coreAt s z := rfl
@[simp] theorem coreAt_setAccount (a : Nat) (x : Account) (z : Nat) : coreAt (setAccount s a x) z = coreAt s z := rfl
@[simp] theorem coreAt_setGroup (i : Nat) (x : GroupEntry) (z : Nat) : coreAt (setGroup s i x) z = coreAt s z := rfl
@[simp] theorem coreAt_setToken (t : Token) (z : Nat) : coreAt (setToken s t) z = coreAt s z := rfl
@[simp] theorem coreAt_dropToken (b : Nat) (z : Nat) : coreAt (dropToken s b) z = coreAt s z := rfl
@[simp] theorem coreAt_setByte (a : Nat) (b : Byte) (z : Nat) : coreAt (setByte s a b) z = coreAt s z := rfl
@[simp] theorem coreAt_bumpLine (l : Nat) (z : Nat) : coreAt (bumpLine s l) z = coreAt s z := rfl

@[simp] theorem clusterAt_setCluster_self (c : Nat) (x : Cluster) : clusterAt (setCluster s c x) c = x := sget_sput_self _ _ _ _
theorem clusterAt_setCluster_ne {c d : Nat} (x : Cluster) (h : d ≠ c) : clusterAt (setCluster s c x) d = clusterAt s d := sget_sput_ne _ _ _ h
theorem clusterAt_setCluster (c d : Nat) (x : Cluster) : clusterAt (setCluster s c x) d = if d = c then x else clusterAt s d := sget_sput _ _ _ _ _
@[simp] theorem clusterAt_modCluster_self (c : Nat) (f : Cluster → Cluster) : clusterAt (modCluster s c f) c = f (clusterAt s c) := sget_sput_self _ _ _ _
theorem clusterAt_modCluster_ne {c d : Nat} (f : Cluster → Cluster) (h : d ≠ c) : clusterAt (modCluster s c f) d = clusterAt s d := sget_sput_ne _ _ _ h
theorem clusterAt_modCluster (c d : Nat) (f : Cluster → Cluster) : clusterAt (modCluster s c f) d = if d = c then f (clusterAt s c) else clusterAt s d := sget_sput _ _ _ _ _
@[simp] theorem clusterAt_setCtx (c : Nat) (x : Ctx) (z : Nat) : clusterAt (setCtx s c x) z = clusterAt s z := rfl
@[simp] theorem clusterAt_modCtx (c : Nat) (f : Ctx → Ctx) (z : Nat) : clusterAt (modCtx s c f) z = clusterAt s z := rfl
@[simp] theorem clusterAt_setCore (k : Nat) (x : Core) (z : Nat) : clusterAt (setCore s k x) z = clusterAt s z := rfl
@[simp] theorem clusterAt_modCore (k : Nat) (f : Core → Core) (z : Nat) : clusterAt (modCore s k f) z = clusterAt s z := rfl
@[simp] theorem clusterAt_setDie (d : Nat) (x : Die) (z : Nat) : clusterAt (setDie s d x) z = clusterAt s z := rfl
@[simp] theorem clusterAt_setSlice (i : Nat) (x : Slice) (z : Nat) : clusterAt (setSlice s i x) z = clusterAt s z := rfl
@[simp] theorem clusterAt_setAccount (a : Nat) (x : Account) (z : Nat) : clusterAt (setAccount s a x) z = clusterAt s z := rfl
@[simp] theorem clusterAt_setGroup (i : Nat) (x : GroupEntry) (z : Nat) : clusterAt (setGroup s i x) z = clusterAt s z := rfl
@[simp] theorem clusterAt_setToken (t : Token) (z : Nat) : clusterAt (setToken s t) z = clusterAt s z := rfl
@[simp] theorem clusterAt_dropToken (b : Nat) (z : Nat) : clusterAt (dropToken s b) z = clusterAt s z := rfl
@[simp] theorem clusterAt_setByte (a : Nat) (b : Byte) (z : Nat) : clusterAt (setByte s a b) z = clusterAt s z := rfl
@[simp] theorem clusterAt_bumpLine (l : Nat) (z : Nat) : clusterAt (bumpLine s l) z = clusterAt s z := rfl

@[simp] theorem dieAt_setDie_self (c : Nat) (x : Die) : dieAt (setDie s c x) c = x := sget_sput_self _ _ _ _
theorem dieAt_setDie_ne {c d : Nat} (x : Die) (h : d ≠ c) : dieAt (setDie s c x) d = dieAt s d := sget_sput_ne _ _ _ h
theorem dieAt_setDie (c d : Nat) (x : Die) : dieAt (setDie s c x) d = if d = c then x else dieAt s d := sget_sput _ _ _ _ _
@[simp] theorem dieAt_setCtx (c : Nat) (x : Ctx) (z : Nat) : dieAt (setCtx s c x) z = dieAt s z := rfl
@[simp] theorem dieAt_modCtx (c : Nat) (f : Ctx → Ctx) (z : Nat) : dieAt (modCtx s c f) z = dieAt s z := rfl
@[simp] theorem dieAt_setCore (k : Nat) (x : Core) (z : Nat) : dieAt (setCore s k x) z = dieAt s z := rfl
@[simp] theorem dieAt_modCore (k : Nat) (f : Core → Core) (z : Nat) : dieAt (modCore s k f) z = dieAt s z := rfl
@[simp] theorem dieAt_setCluster (v : Nat) (x : Cluster) (z : Nat) : dieAt (setCluster s v x) z = dieAt s z := rfl
@[simp] theorem dieAt_modCluster (v : Nat) (f : Cluster → Cluster) (z : Nat) : dieAt (modCluster s v f) z = dieAt s z := rfl
@[simp] theorem dieAt_setSlice (i : Nat) (x : Slice) (z : Nat) : dieAt (setSlice s i x) z = dieAt s z := rfl
@[simp] theorem dieAt_setAccount (a : Nat) (x : Account) (z : Nat) : dieAt (setAccount s a x) z = dieAt s z := rfl
@[simp] theorem dieAt_setGroup (i : Nat) (x : GroupEntry) (z : Nat) : dieAt (setGroup s i x) z = dieAt s z := rfl
@[simp] theorem dieAt_setToken (t : Token) (z : Nat) : dieAt (setToken s t) z = dieAt s z := rfl
@[simp] theorem dieAt_dropToken (b : Nat) (z : Nat) : dieAt (dropToken s b) z = dieAt s z := rfl
@[simp] theorem dieAt_setByte (a : Nat) (b : Byte) (z : Nat) : dieAt (setByte s a b) z = dieAt s z := rfl
@[simp] theorem dieAt_bumpLine (l : Nat) (z : Nat) : dieAt (bumpLine s l) z = dieAt s z := rfl

@[simp] theorem sliceAt_setSlice_self (c : Nat) (x : Slice) : sliceAt (setSlice s c x) c = x := sget_sput_self _ _ _ _
theorem sliceAt_setSlice_ne {c d : Nat} (x : Slice) (h : d ≠ c) : sliceAt (setSlice s c x) d = sliceAt s d := sget_sput_ne _ _ _ h
theorem sliceAt_setSlice (c d : Nat) (x : Slice) : sliceAt (setSlice s c x) d = if d = c then x else sliceAt s d := sget_sput _ _ _ _ _
@[simp] theorem sliceAt_setCtx (c : Nat) (x : Ctx) (z : Nat) : sliceAt (setCtx s c x) z = sliceAt s z := rfl
@[simp] theorem sliceAt_modCtx (c : Nat) (f : Ctx → Ctx) (z : Nat) : sliceAt (modCtx s c f) z = sliceAt s z := rfl
@[simp] theorem sliceAt_setCore (k : Nat) (x : Core) (z : Nat) : sliceAt (setCore s k x) z = sliceAt s z := rfl
@[simp] theorem sliceAt_modCore (k : Nat) (f : Core → Core) (z : Nat) : sliceAt (modCore s k f) z = sliceAt s z := rfl
@[simp] theorem sliceAt_setCluster (v : Nat) (x : Cluster) (z : Nat) : sliceAt (setCluster s v x) z = sliceAt s z := rfl
@[simp] theorem sliceAt_modCluster (v : Nat) (f : Cluster → Cluster) (z : Nat) : sliceAt (modCluster s v f) z = sliceAt s z := rfl
@[simp] theorem sliceAt_setDie (d : Nat) (x : Die) (z : Nat) : sliceAt (setDie s d x) z = sliceAt s z := rfl
@[simp] theorem sliceAt_setAccount (a : Nat) (x : Account) (z : Nat) : sliceAt (setAccount s a x) z = sliceAt s z := rfl
@[simp] theorem sliceAt_setGroup (i : Nat) (x : GroupEntry) (z : Nat) : sliceAt (setGroup s i x) z = sliceAt s z := rfl
@[simp] theorem sliceAt_setToken (t : Token) (z : Nat) : sliceAt (setToken s t) z = sliceAt s z := rfl
@[simp] theorem sliceAt_dropToken (b : Nat) (z : Nat) : sliceAt (dropToken s b) z = sliceAt s z := rfl
@[simp] theorem sliceAt_setByte (a : Nat) (b : Byte) (z : Nat) : sliceAt (setByte s a b) z = sliceAt s z := rfl
@[simp] theorem sliceAt_bumpLine (l : Nat) (z : Nat) : sliceAt (bumpLine s l) z = sliceAt s z := rfl

@[simp] theorem accountOf_setAccount_self (c : Nat) (x : Account) : accountOf (setAccount s c x) c = x := sget_sput_self _ _ _ _
theorem accountOf_setAccount_ne {c d : Nat} (x : Account) (h : d ≠ c) : accountOf (setAccount s c x) d = accountOf s d := sget_sput_ne _ _ _ h
theorem accountOf_setAccount (c d : Nat) (x : Account) : accountOf (setAccount s c x) d = if d = c then x else accountOf s d := sget_sput _ _ _ _ _
@[simp] theorem accountOf_setCtx (c : Nat) (x : Ctx) (z : Nat) : accountOf (setCtx s c x) z = accountOf s z := rfl
@[simp] theorem accountOf_modCtx (c : Nat) (f : Ctx → Ctx) (z : Nat) : accountOf (modCtx s c f) z = accountOf s z := rfl
@[simp] theorem accountOf_setCore (k : Nat) (x : Core) (z : Nat) : accountOf (setCore s k x) z = accountOf s z := rfl
@[simp] theorem accountOf_modCore (k : Nat) (f : Core → Core) (z : Nat) : accountOf (modCore s k f) z = accountOf s z := rfl
@[simp] theorem accountOf_setCluster (v : Nat) (x : Cluster) (z : Nat) : accountOf (setCluster s v x) z = accountOf s z := rfl
@[simp] theorem accountOf_modCluster (v : Nat) (f : Cluster → Cluster) (z : Nat) : accountOf (modCluster s v f) z = accountOf s z := rfl
@[simp] theorem accountOf_setDie (d : Nat) (x : Die) (z : Nat) : accountOf (setDie s d x) z = accountOf s z := rfl
@[simp] theorem accountOf_setSlice (i : Nat) (x : Slice) (z : Nat) : accountOf (setSlice s i x) z = accountOf s z := rfl
@[simp] theorem accountOf_setGroup (i : Nat) (x : GroupEntry) (z : Nat) : accountOf (setGroup s i x) z = accountOf s z := rfl
@[simp] theorem accountOf_setToken (t : Token) (z : Nat) : accountOf (setToken s t) z = accountOf s z := rfl
@[simp] theorem accountOf_dropToken (b : Nat) (z : Nat) : accountOf (dropToken s b) z = accountOf s z := rfl
@[simp] theorem accountOf_setByte (a : Nat) (b : Byte) (z : Nat) : accountOf (setByte s a b) z = accountOf s z := rfl
@[simp] theorem accountOf_bumpLine (l : Nat) (z : Nat) : accountOf (bumpLine s l) z = accountOf s z := rfl

@[simp] theorem groupOf_setGroup_self (c : Nat) (x : GroupEntry) : groupOf (setGroup s c x) c = x := sget_sput_self _ _ _ _
theorem groupOf_setGroup_ne {c d : Nat} (x : GroupEntry) (h : d ≠ c) : groupOf (setGroup s c x) d = groupOf s d := sget_sput_ne _ _ _ h
theorem groupOf_setGroup (c d : Nat) (x : GroupEntry) : groupOf (setGroup s c x) d = if d = c then x else groupOf s d := sget_sput _ _ _ _ _
@[simp] theorem groupOf_setCtx (c : Nat) (x : Ctx) (z : Nat) : groupOf (setCtx s c x) z = groupOf s z := rfl
@[simp] theorem groupOf_modCtx (c : Nat) (f : Ctx → Ctx) (z : Nat) : groupOf (modCtx s c f) z = groupOf s z := rfl
@[simp] theorem groupOf_setCore (k : Nat) (x : Core) (z : Nat) : groupOf (setCore s k x) z = groupOf s z := rfl
@[simp] theorem groupOf_modCore (k : Nat) (f : Core → Core) (z : Nat) : groupOf (modCore s k f) z = groupOf s z := rfl
@[simp] theorem groupOf_setCluster (v : Nat) (x : Cluster) (z : Nat) : groupOf (setCluster s v x) z = groupOf s z := rfl
@[simp] theorem groupOf_modCluster (v : Nat) (f : Cluster → Cluster) (z : Nat) : groupOf (modCluster s v f) z = groupOf s z := rfl
@[simp] theorem groupOf_setDie (d : Nat) (x : Die) (z : Nat) : groupOf (setDie s d x) z = groupOf s z := rfl
@[simp] theorem groupOf_setSlice (i : Nat) (x : Slice) (z : Nat) : groupOf (setSlice s i x) z = groupOf s z := rfl
@[simp] theorem groupOf_setAccount (a : Nat) (x : Account) (z : Nat) : groupOf (setAccount s a x) z = groupOf s z := rfl
@[simp] theorem groupOf_setToken (t : Token) (z : Nat) : groupOf (setToken s t) z = groupOf s z := rfl
@[simp] theorem groupOf_dropToken (b : Nat) (z : Nat) : groupOf (dropToken s b) z = groupOf s z := rfl
@[simp] theorem groupOf_setByte (a : Nat) (b : Byte) (z : Nat) : groupOf (setByte s a b) z = groupOf s z := rfl
@[simp] theorem groupOf_bumpLine (l : Nat) (z : Nat) : groupOf (bumpLine s l) z = groupOf s z := rfl

end Sys2Proof.Machine
end

