-- ==== Sys2Proof/Laws/Registers.lean ====
section
/-! SUPPORT. Reading registers, memory and tables after the shared operations of Machine/Ops.lean. -/

namespace Sys2Proof.Machine

/-! ### Registers (R72, R73) -/

theorem rg_zero (s : State) (c : Nat) : rg s c 0 = 0 := rfl
theorem wg_zero (s : State) (c : Nat) (x : Word) : wg s c 0 x = s := rfl

/-- A written g register reads as written; g0 reads zero. -/
theorem rg_wg_self (s : State) (c r : Nat) (x : Word) : rg (wg s c r x) c r = if r = 0 then 0 else x := by
  unfold rg wg
  split <;> simp_all

theorem rg_wg_ne (s : State) (c : Nat) {d r : Nat} (x : Word) (h : r ≠ d) : rg (wg s c d x) c r = rg s c r := by
  unfold rg wg
  split
  · rfl
  · split
    · rfl
    · simp [sget_sput_ne _ _ _ h]

theorem ctxOf_wg_ne (s : State) {c e : Nat} (r : Nat) (x : Word) (h : e ≠ c) : ctxOf (wg s c r x) e = ctxOf s e := by
  unfold wg
  split
  · rfl
  · exact ctxOf_modCtx_ne s _ h

/-- A write of a g register changes only the g registers of its context. -/
theorem ctxOf_wg (s : State) (c r : Nat) (x : Word) :
    ctxOf (wg s c r x) c = { ctxOf s c with regs := { (ctxOf s c).regs with g := if r = 0 then (ctxOf s c).regs.g else sput 0 (ctxOf s c).regs.g r x } } := by
  unfold wg
  split <;> simp_all

@[simp] theorem rv_wg (s : State) (c r d : Nat) (x : Word) : rv (wg s c r x) c d = rv s c d := by simp [rv, ctxOf_wg]
@[simp] theorem rp_wg (s : State) (c r d : Nat) (x : Word) : rp (wg s c r x) c d = rp s c d := by simp [rp, ctxOf_wg]
@[simp] theorem rv_wv_self (s : State) (c r : Nat) (x : Vec) : rv (wv s c r x) c r = x := by simp [rv, wv]
theorem rv_wv_ne (s : State) (c : Nat) {d r : Nat} (x : Vec) (h : r ≠ d) : rv (wv s c d x) c r = rv s c r := by simp [rv, wv, sget_sput_ne _ _ _ h]
@[simp] theorem rg_wv (s : State) (c r d : Nat) (x : Vec) : rg (wv s c r x) c d = rg s c d := by simp [rg, wv]
@[simp] theorem rp_wv (s : State) (c r d : Nat) (x : Vec) : rp (wv s c r x) c d = rp s c d := by simp [rp, wv]

/-- A written p register reads as written; p0 reads all ones. -/
theorem rp_wp_self (s : State) (c r : Nat) (x : BitVec 32) : rp (wp s c r x) c r = if r = 0 then 0xFFFFFFFF else x := by
  unfold rp wp
  split <;> simp_all

@[simp] theorem rg_wp (s : State) (c r d : Nat) (x : BitVec 32) : rg (wp s c r x) c d = rg s c d := by
  unfold wp
  split <;> simp [rg]

@[simp] theorem rv_wp (s : State) (c r d : Nat) (x : BitVec 32) : rv (wp s c r x) c d = rv s c d := by
  unfold wp
  split <;> simp [rv]

@[simp] theorem wg_mem (s : State) (c r : Nat) (x : Word) : (wg s c r x).mem = s.mem := by unfold wg; split <;> rfl
@[simp] theorem wg_cur (s : State) (c r : Nat) (x : Word) : (wg s c r x).cur = s.cur := by unfold wg; split <;> rfl
@[simp] theorem wg_cores (s : State) (c r : Nat) (x : Word) : (wg s c r x).cores = s.cores := by unfold wg; split <;> rfl
@[simp] theorem wg_clusters (s : State) (c r : Nat) (x : Word) : (wg s c r x).clusters = s.clusters := by unfold wg; split <;> rfl
@[simp] theorem wg_flights (s : State) (c r : Nat) (x : Word) : (wg s c r x).flights = s.flights := by unfold wg; split <;> rfl
@[simp] theorem wg_cycle (s : State) (c r : Nat) (x : Word) : (wg s c r x).cycle = s.cycle := by unfold wg; split <;> rfl
@[simp] theorem wg_device (s : State) (c r : Nat) (x : Word) : (wg s c r x).device = s.device := by unfold wg; split <;> rfl
@[simp] theorem wv_mem (s : State) (c r : Nat) (x : Vec) : (wv s c r x).mem = s.mem := rfl
@[simp] theorem wv_cur (s : State) (c r : Nat) (x : Vec) : (wv s c r x).cur = s.cur := rfl
@[simp] theorem wp_mem (s : State) (c r : Nat) (x : BitVec 32) : (wp s c r x).mem = s.mem := by unfold wp; split <;> rfl
@[simp] theorem wp_cur (s : State) (c r : Nat) (x : BitVec 32) : (wp s c r x).cur = s.cur := by unfold wp; split <;> rfl

@[simp] theorem wgs_mem (l : List Word) : ∀ (s : State) (c r : Nat), (wgs s c r l).mem = s.mem := by
  induction l with
  | nil => intro s c r; rfl
  | cons x l ih => intro s c r; simp [wgs, ih]

/-! ### Memory (R90, R161) -/

@[simp] theorem memByte_setByte_self (s : State) (a : Nat) (b : Byte) : memByte (setByte s a b) a = b := sget_sput_self _ _ _ _
theorem memByte_setByte_ne (s : State) {a e : Nat} (b : Byte) (h : e ≠ a) : memByte (setByte s a b) e = memByte s e := sget_sput_ne _ _ _ h

/-- A write leaves every byte outside it alone. -/
theorem memByte_writeMem_outside (l : List Byte) : ∀ (s : State) (pa a : Nat), (a < pa ∨ pa + l.length ≤ a) → memByte (writeMem s pa l) a = memByte s a := by
  induction l with
  | nil => intro s pa a _; rfl
  | cons b l ih =>
    intro s pa a h
    simp only [List.length_cons] at h
    rw [writeMem, ih _ _ _ (by omega)]
    exact memByte_setByte_ne s b (by omega)

/-- A write gives every byte of it. -/
theorem memByte_writeMem_inside (l : List Byte) : ∀ (s : State) (pa i : Nat) (h : i < l.length), memByte (writeMem s pa l) (pa + i) = l[i] := by
  induction l with
  | nil => intro s pa i h; simp at h
  | cons b l ih =>
    intro s pa i h
    rw [writeMem]
    cases i with
    | zero => rw [memByte_writeMem_outside l _ _ _ (by omega)]; simp
    | succ i =>
      have := ih (setByte s pa b) (pa + 1) i (by simpa using h)
      simpa [Nat.add_assoc, Nat.add_comm 1 i] using this

theorem memByte_congr {s t : State} (h : t.mem = s.mem) (a : Nat) : memByte t a = memByte s a := by simp [memByte, h]

/-! ### The canonical form of memory -/

theorem setByte_wf {s : State} (a : Nat) (b : Byte) (h : Memory.wf s.mem) : Memory.wf (setByte s a b).mem := ok_sput _ _ _ _ h

/-- Every write of memory keeps its form. -/
theorem writeMem_wf (l : List Byte) : ∀ {s : State} (pa : Nat), Memory.wf s.mem → Memory.wf (writeMem s pa l).mem := by
  induction l with
  | nil => intro s pa h; exact h
  | cons b l ih => intro s pa h; exact ih _ (setByte_wf _ _ h)

/-- A fold whose every step leaves memory alone leaves it alone. -/
theorem foldl_mem {β : Type} (f : State → β → State) (hf : ∀ s x, (f s x).mem = s.mem) (l : List β) : ∀ s : State, (l.foldl f s).mem = s.mem := by
  induction l with
  | nil => intro s; rfl
  | cons x l ih => intro s; simp [ih, hf]

/-- A fold whose every step keeps the form of memory keeps it. -/
theorem foldl_wf {β : Type} (f : State → β → State) (hf : ∀ s x, Memory.wf s.mem → Memory.wf (f s x).mem) (l : List β) :
    ∀ {s : State}, Memory.wf s.mem → Memory.wf (l.foldl f s).mem := by
  induction l with
  | nil => intro s h; exact h
  | cons x l ih => intro s h; exact ih (hf _ _ h)

@[simp] theorem clearFull_mem (s : State) (pa n : Nat) : (clearFull s pa n).mem = s.mem := by
  unfold clearFull
  exact foldl_mem _ (by intro t i; dsimp only; split <;> rfl) _ _

@[simp] theorem poisonSector_mem (s : State) (pa : Nat) : (poisonSector s pa).mem = s.mem := by unfold poisonSector; split <;> rfl

/-- A performed write changes memory as a plain write does, or not at all behind a CXL port that is down. -/
theorem performWrite_mem (s : State) (pa : Nat) (l : List Byte) :
    (performWrite s pa l).mem = if cxlGone s pa then s.mem else (writeMem s pa l).mem := by
  unfold performWrite
  split
  · rfl
  · rw [foldl_mem _ (by intro t i; rfl)]
    simp

theorem performWrite_wf {s : State} (pa : Nat) (l : List Byte) (h : Memory.wf s.mem) : Memory.wf (performWrite s pa l).mem := by
  rw [performWrite_mem]
  split
  · exact h
  · exact writeMem_wf l pa h

theorem sliceRmw_wf {s : State} (pa w op : Nat) (x y : Word) (h : Memory.wf s.mem) : Memory.wf (sliceRmw s pa w op x y).2.mem := by
  unfold sliceRmw
  dsimp only
  repeat' split
  all_goals first | exact performWrite_wf _ _ h | exact h

/-! ### Fault records and tokens leave memory alone -/

theorem hostWrite_mem (l : List Byte) : ∀ (s : State) (a : Nat), (hostWrite s a l).mem = s.mem := by
  induction l with
  | nil => intro s a; rfl
  | cons b l ih => intro s a; rw [hostWrite, ih]

@[simp] theorem writeEvent_mem (s : State) (a b : Word) : (writeEvent s a b).mem = s.mem := by simp [writeEvent, hostWrite_mem]
@[simp] theorem hostEvent_mem (s : State) (a b : Word) : (hostEvent s a b).mem = s.mem := by
  unfold hostEvent
  repeat' split
  all_goals simp

@[simp] theorem putRecord_mem (s : State) (k : Nat) (ws : List Word) : (putRecord s k ws).mem = s.mem := by
  unfold putRecord
  dsimp only
  split <;> simp

@[simp] theorem countFault_mem (s : State) (k c : Nat) : (countFault s k c).mem = s.mem := rfl
@[simp] theorem reportCtx_mem (s : State) (c o : Nat) (f : FaultInfo) : (reportCtx s c o f).mem = s.mem := by simp [reportCtx]
@[simp] theorem reportFor_mem (s : State) (k o a : Nat) (p : Word) (f : FaultInfo) : (reportFor s k o a p f).mem = s.mem := by simp [reportFor]

theorem moveTokens_mem (l : List (Nat × Bool)) : ∀ (s : State) (a b : Word), (moveTokens s a b l).mem = s.mem := by
  induction l with
  | nil => intro s a b; rfl
  | cons e l ih =>
    intro s a b
    obtain ⟨n, sh⟩ := e
    rw [moveTokens, ih]
    repeat' split
    all_goals rfl

theorem moveTokens_ctxs (l : List (Nat × Bool)) : ∀ (s : State) (a b : Word), (moveTokens s a b l).ctxs = s.ctxs := by
  induction l with
  | nil => intro s a b; rfl
  | cons e l ih =>
    intro s a b
    obtain ⟨n, sh⟩ := e
    rw [moveTokens, ih]
    repeat' split
    all_goals rfl

end Sys2Proof.Machine
end

