-- ==== Sys2Proof/Laws/Run.lean ====
section
/-! SUPPORT. What an instruction's frame does around its body: its start, the end of its group, its retirement, and the three ends of
a body (R71, R188, R224, R233, R236). -/

namespace Sys2Proof.Machine

/-! ### The start of a handler -/

@[simp] theorem beginIssue_mem (s : State) : (beginIssue s).mem = s.mem := by
  unfold beginIssue
  dsimp only
  repeat' split
  all_goals simp [moveTokens_mem]

@[simp] theorem beginIssue_cur (s : State) : (beginIssue s).cur = s.cur := by
  have (l : List (Nat × Bool)) : ∀ (s : State) (a b : Word), (moveTokens s a b l).cur = s.cur := by
    induction l with
    | nil => intro s a b; rfl
    | cons e l ih =>
      intro s a b
      obtain ⟨n, sh⟩ := e
      rw [moveTokens, ih]
      repeat' split
      all_goals rfl
  unfold beginIssue
  dsimp only
  repeat' split
  all_goals simp [this]

/-- The start of a handler changes no register of any context. -/
@[simp] theorem beginIssue_regs (s : State) (c : Nat) : (ctxOf (beginIssue s) c).regs = (ctxOf s c).regs := by
  have tok (s : State) (a b : Word) (l) (c : Nat) : ctxOf (moveTokens s a b l) c = ctxOf s c := by simp [ctxOf, moveTokens_ctxs]
  unfold beginIssue
  dsimp only
  repeat' split
  all_goals
    first
    | rfl
    | (by_cases h : c = s.cur
       · subst h; simp [tok]
       · simp [tok, ctxOf_modCtx, h])

@[simp] theorem beginIssue_pc (s : State) (c : Nat) : (ctxOf (beginIssue s) c).pc = (ctxOf s c).pc := by
  have tok (s : State) (a b : Word) (l) (c : Nat) : ctxOf (moveTokens s a b l) c = ctxOf s c := by simp [ctxOf, moveTokens_ctxs]
  unfold beginIssue
  dsimp only
  repeat' split
  all_goals
    first
    | rfl
    | (by_cases h : c = s.cur
       · subst h; simp [tok]
       · simp [tok, ctxOf_modCtx, h])

@[simp] theorem rg_beginIssue (s : State) (c r : Nat) : rg (beginIssue s) c r = rg s c r := by simp [rg]
@[simp] theorem rv_beginIssue (s : State) (c r : Nat) : rv (beginIssue s) c r = rv s c r := by simp [rv]
@[simp] theorem rp_beginIssue (s : State) (c r : Nat) : rp (beginIssue s) c r = rp s c r := by simp [rp]

/-- An instruction that is not a handler's first changes nothing at its start. -/
theorem beginIssue_eq (s : State) (h : (ctxOf s s.cur).fresh = false) : beginIssue s = s := by simp [beginIssue, h]

/-! ### Flags shown to the cluster (R53) -/

@[simp] theorem showFlags_mem (s : State) (c : Nat) : (showFlags s c).mem = s.mem := by
  unfold showFlags; dsimp only; (repeat' split) <;> rfl
@[simp] theorem showFlags_cur (s : State) (c : Nat) : (showFlags s c).cur = s.cur := by
  unfold showFlags; dsimp only; (repeat' split) <;> rfl

/-- With no flags to show nothing changes. -/
theorem showFlags_eq (s : State) (c : Nat) (h : (ctxOf s c).regs.cf = 0) : showFlags s c = s := by simp [showFlags, h]

/-- Flags that are shown leave every context as it was, but for what is still to be shown. -/
theorem ctxOf_showFlags (s : State) (c e : Nat) :
    ctxOf (showFlags s c) e = { ctxOf s e with regs := { (ctxOf s e).regs with cf := (ctxOf (showFlags s c) e).regs.cf } } := by
  unfold showFlags
  dsimp only
  split
  · rfl
  · by_cases h : e = c
    · subst h; split <;> simp
    · split <;> simp [ctxOf_modCtx, h]

/-! ### The end of a switch group (R48, R76, R318, R322) -/

theorem applySreg_mem (s : State) (c n : Nat) (w : Word) : (applySreg s c n w).mem = s.mem := by
  unfold applySreg
  split <;> (try dsimp only) <;> (repeat' split) <;> rfl

/-- What SWR and I4TAB leave for the next group touches no g, v or p register. -/
theorem applySreg_gvp (s : State) (c n : Nat) (w : Word) (e : Nat) :
    (ctxOf (applySreg s c n w) e).regs.g = (ctxOf s e).regs.g ∧ (ctxOf (applySreg s c n w) e).regs.v = (ctxOf s e).regs.v ∧
      (ctxOf (applySreg s c n w) e).regs.p = (ctxOf s e).regs.p := by
  by_cases h : e = c
  · subst h
    unfold applySreg
    split <;> (try dsimp only) <;> (repeat' split) <;> simp
  · unfold applySreg
    split <;> (try dsimp only) <;> (repeat' split) <;> simp [ctxOf_modCtx, h]

theorem pending_mem (l : List (Nat × Word)) (c : Nat) : ∀ s : State, (l.foldl (fun t e => applySreg t c e.1 e.2) s).mem = s.mem :=
  foldl_mem _ (fun _ _ => applySreg_mem _ _ _ _) l

theorem pending_gvp (l : List (Nat × Word)) (c e : Nat) : ∀ s : State,
    (ctxOf (l.foldl (fun t e => applySreg t c e.1 e.2) s) e).regs.g = (ctxOf s e).regs.g ∧
    (ctxOf (l.foldl (fun t e => applySreg t c e.1 e.2) s) e).regs.v = (ctxOf s e).regs.v ∧
    (ctxOf (l.foldl (fun t e => applySreg t c e.1 e.2) s) e).regs.p = (ctxOf s e).regs.p := by
  induction l with
  | nil => intro s; exact ⟨rfl, rfl, rfl⟩
  | cons x l ih =>
    intro s
    have h := ih (applySreg s c x.1 x.2)
    have k := applySreg_gvp s c x.1 x.2 e
    simp only [List.foldl_cons]
    exact ⟨h.1.trans k.1, h.2.1.trans k.2.1, h.2.2.trans k.2.2⟩

@[simp] theorem endGroup_mem (s : State) (c : Nat) : (endGroup s c).mem = s.mem := by
  simp [endGroup, pending_mem]

/-- The end of a group changes no g and no p register; a v register only where the allotment changes. -/
theorem endGroup_gp (s : State) (c e : Nat) :
    (ctxOf (endGroup s c) e).regs.g = (ctxOf s e).regs.g ∧ (ctxOf (endGroup s c) e).regs.p = (ctxOf s e).regs.p := by
  unfold endGroup
  dsimp only
  by_cases h : e = c
  · subst h
    rw [ctxOf_modCtx_self]
    have k := pending_gvp (ctxOf s e).pendingS e e (showFlags s e)
    rw [ctxOf_showFlags] at k
    constructor
    · split <;> simp [reallot, k.1]
    · split <;> simp [reallot, k.2.2]
  · rw [ctxOf_modCtx_ne _ _ h]
    have k := pending_gvp (ctxOf s c).pendingS c e (showFlags s c)
    rw [ctxOf_showFlags] at k
    exact ⟨k.1, k.2.2⟩

/-- With nothing pending the end of a group leaves every register of every context alone. -/
theorem endGroup_regs (s : State) (c e : Nat) (hp : (ctxOf s c).pendingS = []) (ha : (ctxOf s c).newAllot = none) (hf : (ctxOf s c).regs.cf = 0) :
    (ctxOf (endGroup s c) e).regs = (ctxOf s e).regs := by
  unfold endGroup
  dsimp only
  rw [hp, showFlags_eq s c hf]
  by_cases h : e = c
  · subst h
    simp [ha]
  · simp [ctxOf_modCtx, h]

theorem ctxOf_reportCtx (s : State) (c o : Nat) (f : FaultInfo) (e : Nat) : ctxOf (reportCtx s c o f) e = ctxOf s e := by
  have hw (l : List Byte) : ∀ (s : State) (a : Nat), (hostWrite s a l).ctxs = s.ctxs := by
    induction l with
    | nil => intro s a; rfl
    | cons b l ih => intro s a; rw [hostWrite, ih]
  have he (s : State) (a b : Word) : (hostEvent s a b).ctxs = s.ctxs := by
    unfold hostEvent writeEvent
    repeat' split
    all_goals simp [hw]
  have hp (s : State) (k : Nat) (ws : List Word) : (putRecord s k ws).ctxs = s.ctxs := by
    unfold putRecord
    dsimp only
    split <;> simp [he]
  simp [ctxOf, reportCtx, hp, countFault]

@[simp] theorem stopCtx_mem (s : State) (c : Nat) (d : Bool) : (stopCtx s c d).mem = s.mem := by
  unfold stopCtx
  dsimp only
  split <;> simp

@[simp] theorem stopCtx_regs (s : State) (c : Nat) (d : Bool) (e : Nat) : (ctxOf (stopCtx s c d) e).regs = (ctxOf s e).regs := by
  unfold stopCtx
  dsimp only
  by_cases h : e = c
  · subst h
    split <;> simp [ctxOf_reportCtx]
  · split <;> simp [ctxOf_reportCtx, ctxOf_modCtx, h]

/-! ### Retiring an instruction (R71, R188, R224) -/

@[simp] theorem parkGroup_mem (s : State) (c : Nat) : (parkGroup s c).mem = s.mem := by
  unfold parkGroup
  dsimp only
  repeat' split
  all_goals simp

/-- The end of a group, parked or stopped, has the registers that `endGroup` leaves. -/
theorem parkGroup_regs (s : State) (c e : Nat) : (ctxOf (parkGroup s c) e).regs = (ctxOf (endGroup s c) e).regs := by
  unfold parkGroup
  dsimp only
  repeat' split
  all_goals first | rfl | simp | (by_cases h : e = c <;> simp_all [ctxOf_modCtx])

@[simp] theorem countIssue_mem (i : Instr) (s : State) : (countIssue i s).mem = s.mem := rfl
@[simp] theorem ctxOf_countIssue (i : Instr) (s : State) (c : Nat) : ctxOf (countIssue i s) c = ctxOf s c := rfl
@[simp] theorem chargeIssue_mem (i : Instr) (s : State) : (chargeIssue i s).mem = s.mem := by unfold chargeIssue; split <;> rfl
@[simp] theorem chargeIssue_cur (i : Instr) (s : State) : (chargeIssue i s).cur = s.cur := by unfold chargeIssue; split <;> rfl
@[simp] theorem ctxOf_chargeIssue (i : Instr) (s : State) (c : Nat) : ctxOf (chargeIssue i s) c = ctxOf s c := by unfold chargeIssue; split <;> rfl
/-- What an instruction costs stands in its core. -/
theorem chargeIssue_only (i : Instr) (s : State) : chargeIssue i s = { s with cores := (chargeIssue i s).cores } := by
  unfold chargeIssue; split <;> rfl
theorem coreAt_chargeIssue_ne (i : Instr) (s : State) {k : Nat} (h : k ≠ coreOf s.cur) : coreAt (chargeIssue i s) k = coreAt s k := by
  unfold chargeIssue takePort countIssue; split <;> simp [coreAt_modCore_ne _ _ h]
/-- What an instruction costs stands in three fields of its core. -/
theorem coreAt_chargeIssue (i : Instr) (s : State) : coreAt (chargeIssue i s) (coreOf s.cur) =
    { coreAt s (coreOf s.cur) with
      issueFree := (coreAt (chargeIssue i s) (coreOf s.cur)).issueFree
      bankWrites := (coreAt (chargeIssue i s) (coreOf s.cur)).bankWrites
      counters := { (coreAt s (coreOf s.cur)).counters with
        issued := (coreAt s (coreOf s.cur)).counters.issued + 1
        bank := (coreAt (chargeIssue i s) (coreOf s.cur)).counters.bank } } := by
  unfold chargeIssue takePort countIssue; split <;> simp
@[simp] theorem retiredCtx_regs (i : Instr) (s : State) (npc : Word) : (retiredCtx i s npc).regs = (ctxOf s s.cur).regs := rfl
@[simp] theorem followCopy_mem (s : State) (c : Nat) (x : Ctx) (npc : Word) : (followCopy s c x npc).mem = s.mem := by
  unfold followCopy
  split <;> rfl

theorem partnerOf_ne (c : Nat) : partnerOf c ≠ c := by
  unfold partnerOf
  have : (c / 128) ^^^ 16 ≠ c / 128 := by
    intro h
    have := congrArg (fun x => x ^^^ (c / 128)) h
    simp [Nat.xor_comm] at this
  omega

theorem ctxOf_followCopy (s : State) (c : Nat) (x : Ctx) (npc : Word) {e : Nat} (h : e ≠ partnerOf c) :
    ctxOf (followCopy s c x npc) e = ctxOf s e := by
  unfold followCopy
  split
  · exact ctxOf_modCtx_ne s _ h
  · rfl

@[simp] theorem retire_mem (i : Instr) (s : State) (npc : Word) : (retire i s npc).mem = s.mem := by
  unfold retire
  dsimp only
  repeat' split
  all_goals simp

/-- The registers of the context after its instruction retired: as they were, but for what the end of its group changes. -/
theorem retire_regs (i : Instr) (s : State) (npc : Word) :
    (ctxOf (retire i s npc) s.cur).regs = (ctxOf s s.cur).regs ∨
      ∃ t, ctxOf t s.cur = retiredCtx i s npc ∧ (ctxOf (retire i s npc) s.cur).regs = (ctxOf (endGroup t s.cur) s.cur).regs := by
  have h := (partnerOf_ne s.cur).symm
  unfold retire
  dsimp only
  split
  · exact Or.inl (by rw [ctxOf_chargeIssue])
  · split
    · exact Or.inr ⟨_, by rw [ctxOf_followCopy _ _ _ _ h, ctxOf_setCtx_self], parkGroup_regs _ _ _⟩
    · left
      rw [ctxOf_followCopy _ _ _ _ h, ctxOf_setCtx_self, retiredCtx_regs]

/-- Retiring changes no g and no p register of the context. -/
theorem retire_gp (i : Instr) (s : State) (npc : Word) :
    (ctxOf (retire i s npc) s.cur).regs.g = (ctxOf s s.cur).regs.g ∧ (ctxOf (retire i s npc) s.cur).regs.p = (ctxOf s s.cur).regs.p := by
  obtain h | ⟨t, ht, h⟩ := retire_regs i s npc
  · simp [h]
  · simp [h, endGroup_gp, ht]

/-- An instruction that does not end its group leaves every register of its context alone when it retires. -/
theorem retire_inside (i : Instr) (s : State) (npc : Word) (hi : endsGroup i = false) :
    (ctxOf (retire i s npc) s.cur).regs = (ctxOf s s.cur).regs := by
  have h := (partnerOf_ne s.cur).symm
  unfold retire
  dsimp only
  split
  · rw [ctxOf_chargeIssue]
  · simp [hi, ctxOf_followCopy _ _ _ _ h]

/-- With nothing pending for the next group, retiring leaves every register of the context alone. -/
theorem retire_quiet (i : Instr) (s : State) (npc : Word) (hp : (ctxOf s s.cur).pendingS = []) (ha : (ctxOf s s.cur).newAllot = none)
    (hf : (ctxOf s s.cur).regs.cf = 0) :
    (ctxOf (retire i s npc) s.cur).regs = (ctxOf s s.cur).regs := by
  obtain h | ⟨t, ht, h⟩ := retire_regs i s npc
  · exact h
  · rw [h, endGroup_regs _ _ _ (by rw [ht]; exact hp) (by rw [ht]; exact ha) (by rw [ht]; exact hf), ht]
    rfl

@[simp] theorem rg_retire (i : Instr) (s : State) (npc : Word) (r : Nat) : rg (retire i s npc) s.cur r = rg s s.cur r := by
  simp [rg, (retire_gp i s npc).1]

@[simp] theorem rp_retire (i : Instr) (s : State) (npc : Word) (r : Nat) : rp (retire i s npc) s.cur r = rp s s.cur r := by
  simp [rp, (retire_gp i s npc).2]

/-- Retiring leaves the g and p registers of every other context alone, but for the trailing copy in delayed lockstep (R214). -/
theorem retire_other (i : Instr) (s : State) (npc : Word) {e : Nat} (h : e ≠ s.cur) (hp : e ≠ partnerOf s.cur) :
    (ctxOf (retire i s npc) e).regs.g = (ctxOf s e).regs.g ∧ (ctxOf (retire i s npc) e).regs.p = (ctxOf s e).regs.p := by
  unfold retire
  dsimp only
  repeat' split
  all_goals simp [parkGroup_regs, endGroup_gp, ctxOf_followCopy _ _ _ _ hp, ctxOf_setCtx_ne _ _ h]

/-! ### The ends of an instruction -/

theorem run_ok {i : Instr} {s t : State} {npc : Word} {body : State → Res (State × Word)} (h : issueFault i s = none)
    (hb : body (beginIssue s) = .ok (t, npc)) : run i s body = .next (retire i t npc) := by simp [run, h, hb]

theorem run_trap {i : Instr} {s t : State} {f : FaultInfo} {body : State → Res (State × Word)} (h : issueFault i s = none)
    (hb : body (beginIssue s) = .error (.trap f t)) : run i s body = .next (faultIssued i f t) := by simp [run, h, hb]

theorem run_park {i : Instr} {s t : State} {w : Stall} {body : State → Res (State × Word)} (h : issueFault i s = none)
    (hb : body (beginIssue s) = .error (.park w t)) : run i s body = .next (modCtx t t.cur (fun x => { x with run := .stalled w, tried := true })) := by
  simp [run, h, hb]

/-- An instruction that an issue check stops traps and does nothing else (R233). -/
theorem run_fault {i : Instr} {s : State} {f : FaultInfo} {body : State → Res (State × Word)} (h : issueFault i s = some f)
    (ht : (ctxOf s s.cur).tried = false) : run i s body = .next (faultNow f s) := by simp [run, h, ht]

theorem runSeq_ok {i : Instr} {s t : State} {body : State → Res State} (h : issueFault i s = none)
    (hb : body (beginIssue s) = .ok t) : runSeq i s body = .next (retire i t (nextPc t)) := by simp [runSeq, run, h, hb]

theorem runPure_eq {i : Instr} {s : State} {body : State → State} (h : issueFault i s = none) :
    runPure i s body = .next (retire i (body (beginIssue s)) (nextPc (beginIssue s))) := by simp [runPure, run, h]

/-- Whatever its body does, an instruction answers a next state: the model has no other stop. -/
theorem run_next (i : Instr) (s : State) (body : State → Res (State × Word)) : ∃ t, run i s body = .next t := by
  unfold run
  repeat' split
  all_goals exact ⟨_, rfl⟩

end Sys2Proof.Machine
end

