-- ==== Sys2Proof/Laws/Frames.lean ====
section
/-! SUPPORT. The frames of the statements: what a retiring instruction leaves alone, in the terms of Safety. -/

namespace Sys2Proof.Machine

@[simp] theorem retire_cur (i : Instr) (s : State) (npc : Word) : (retire i s npc).cur = s.cur := by
  have ap (s : State) (c n : Nat) (w : Word) : (applySreg s c n w).cur = s.cur := by
    unfold applySreg; split <;> (try dsimp only) <;> (repeat' split) <;> rfl
  have pend (c : Nat) (l : List (Nat × Word)) : ∀ s : State, (l.foldl (fun t e => applySreg t c e.1 e.2) s).cur = s.cur := by
    induction l with
    | nil => intro s; rfl
    | cons e l ih => intro s; rw [List.foldl_cons, ih, ap]
  have eg (s : State) (c : Nat) : (endGroup s c).cur = s.cur := by simp [endGroup, pend]
  have hw (l : List Byte) : ∀ (s : State) (a : Nat), (hostWrite s a l).cur = s.cur := by
    induction l with
    | nil => intro s a; rfl
    | cons b l ih => intro s a; rw [hostWrite, ih]
  have he (s : State) (a b : Word) : (hostEvent s a b).cur = s.cur := by
    unfold hostEvent writeEvent; repeat' split
    all_goals simp [hw]
  have hp (s : State) (k : Nat) (ws : List Word) : (putRecord s k ws).cur = s.cur := by
    unfold putRecord; dsimp only; split <;> simp [he]
  have st (s : State) (c : Nat) (d : Bool) : (stopCtx s c d).cur = s.cur := by
    unfold stopCtx; dsimp only; split <;> simp [reportCtx, hp, countFault]
  unfold retire parkGroup followCopy
  dsimp only
  repeat' split
  all_goals simp [eg, st]

/-- The pc of a context after its instruction retired. -/
theorem retire_pc (i : Instr) (s : State) (npc : Word) (h : (ctxOf s s.cur).run = .ready) : (ctxOf (retire i s npc) s.cur).pc = npc := by
  have ap (s : State) (c n : Nat) (w : Word) (e : Nat) : (ctxOf (applySreg s c n w) e).pc = (ctxOf s e).pc := by
    by_cases h : e = c
    · subst h
      unfold applySreg; split <;> (try dsimp only) <;> (repeat' split) <;> simp
    · unfold applySreg; split <;> (try dsimp only) <;> (repeat' split) <;> simp [ctxOf_modCtx, h]
  have pend (c e : Nat) (l : List (Nat × Word)) : ∀ s : State, (ctxOf (l.foldl (fun t e => applySreg t c e.1 e.2) s) e).pc = (ctxOf s e).pc := by
    induction l with
    | nil => intro s; rfl
    | cons x l ih => intro s; rw [List.foldl_cons, ih, ap]
  have eg (s : State) (c : Nat) : (ctxOf (endGroup s c) c).pc = (ctxOf s c).pc := by
    unfold endGroup
    dsimp only
    rw [ctxOf_modCtx_self]
    split <;> simp [reallot, pend, congrArg Ctx.pc (ctxOf_showFlags s c c)]
  have hk := (partnerOf_ne s.cur).symm
  have hp : (ctxOf (followCopy (setCtx (chargeIssue i s) s.cur (retiredCtx i s npc)) s.cur (ctxOf s s.cur) npc) s.cur).pc = npc := by
    rw [ctxOf_followCopy _ _ _ _ hk, ctxOf_setCtx_self]; rfl
  unfold retire
  simp only [h, reduceCtorEq, decide_false, Bool.or_self, Bool.false_eq_true, if_false]
  split
  · unfold parkGroup stopCtx
    dsimp only
    repeat' split
    all_goals simp [eg, ctxOf_reportCtx, hp]
  · exact hp

/-- Nothing waits for a context: the conditions of `Quiet` that the end of its group looks at. -/
def Still (x : Ctx) : Prop := x.pendingS = [] ∧ x.newAllot = none ∧ x.stopWhy = none ∧ x.lockPass = false ∧ x.regs.cf = 0

/-- The context after an instruction of a quiet context retired. -/
def settledCtx (i : Instr) (s : State) (npc : Word) : Ctx :=
  let x := retiredCtx i s npc
  if endsGroup i then { x with pendingS := [], newAllot := none, group := Group.empty, groupNo := x.groupNo + 1, run := .groupEnd } else x

/-- A change of contexts on top of a change of cores. -/
theorem ctxs_over {s u t : State} (h : u = { s with cores := u.cores }) (ht : t = { u with ctxs := t.ctxs }) :
    t = { s with ctxs := t.ctxs, cores := u.cores } := by
  generalize u.cores = k at h ⊢
  subst h
  exact ht

theorem setCtx_only (u : State) (c : Nat) (x : Ctx) : setCtx u c x = { u with ctxs := (setCtx u c x).ctxs } := rfl

/-- A change of contexts on top of another. -/
theorem ctxs_trans {s u t : State} (h : u = { s with ctxs := u.ctxs }) (ht : t = { u with ctxs := t.ctxs }) : t = { s with ctxs := t.ctxs } := by
  generalize u.ctxs = k at h
  subst h
  exact ht

/-- What retiring changes when nothing waits: the context, and what the instruction costs its core. -/
theorem retire_still (i : Instr) (s : State) (npc : Word) (hr : (ctxOf s s.cur).run = .ready) (h : Still (ctxOf s s.cur)) :
    retire i s npc = { s with ctxs := (retire i s npc).ctxs, cores := (chargeIssue i s).cores } ∧
      ctxOf (retire i s npc) s.cur = settledCtx i s npc ∧ ∀ e, e ≠ s.cur → ctxOf (retire i s npc) e = ctxOf s e := by
  obtain ⟨hp, ha, hs, hl, hc⟩ := h
  have hx : (retiredCtx i s npc).pendingS = [] ∧ (retiredCtx i s npc).newAllot = none ∧ (retiredCtx i s npc).stopWhy = none ∧
      (retiredCtx i s npc).run = .ready ∧ (retiredCtx i s npc).regs.cf = 0 := ⟨hp, ha, hs, hr, hc⟩
  have hf : retire i s npc = if endsGroup i then parkGroup (setCtx (chargeIssue i s) s.cur (retiredCtx i s npc)) s.cur
      else setCtx (chargeIssue i s) s.cur (retiredCtx i s npc) := by
    unfold retire followCopy
    simp [hr, hl]
  rw [hf]
  unfold settledCtx
  dsimp only
  split
  · have hg : parkGroup (setCtx (chargeIssue i s) s.cur (retiredCtx i s npc)) s.cur =
        setCtx (setCtx (setCtx (chargeIssue i s) s.cur (retiredCtx i s npc)) s.cur (let y := retiredCtx i s npc
          { y with pendingS := [], newAllot := none, group := Group.empty, groupNo := y.groupNo + 1 })) s.cur (let y := retiredCtx i s npc
          { y with pendingS := [], newAllot := none, group := Group.empty, groupNo := y.groupNo + 1, run := .groupEnd }) := by
      unfold parkGroup endGroup
      rw [showFlags_eq _ _ (by rw [ctxOf_setCtx_self]; exact hc)]
      simp only [modCtx, ctxOf_setCtx_self, hx, List.foldl_nil, ne_eq, not_true_eq_false, if_false]
    rw [hg]
    exact ⟨ctxs_over (chargeIssue_only i s) (ctxs_trans (setCtx_only _ _ _) (ctxs_trans (setCtx_only _ _ _) (setCtx_only _ _ _))), ctxOf_setCtx_self .., fun e he => by simp [ctxOf_setCtx_ne _ _ he]⟩
  · exact ⟨ctxs_over (chargeIssue_only i s) (setCtx_only _ _ _), ctxOf_setCtx_self .., fun e he => by simp [ctxOf_setCtx_ne _ _ he]⟩

/-- The registers of a quiet context do not change as its instruction retires. -/
theorem settledCtx_regs (i : Instr) (s : State) (npc : Word) : (settledCtx i s npc).regs = (ctxOf s s.cur).regs := by
  unfold settledCtx; dsimp only; split <;> rfl

@[simp] theorem beginIssue_run (s : State) (c : Nat) : (ctxOf (beginIssue s) c).run = (ctxOf s c).run := by
  have tok (s : State) (a b : Word) (l) (c : Nat) : ctxOf (moveTokens s a b l) c = ctxOf s c := by simp [ctxOf, moveTokens_ctxs]
  unfold beginIssue
  dsimp only
  repeat' split
  all_goals
    first
    | rfl
    | (by_cases h : c = s.cur
       · subst h; simp [tok]
       · simp [tok, ctxOf_modCtx, h])

@[simp] theorem wg_run (s : State) (c r : Nat) (x : Word) (e : Nat) : (ctxOf (wg s c r x) e).run = (ctxOf s e).run := by
  unfold wg; split
  · rfl
  · by_cases h : e = c
    · subst h; simp
    · simp [ctxOf_modCtx, h]
/-- A write of a g register changes nothing of its context but the g registers. -/
theorem wg_ctx (s : State) (c r : Nat) (x : Word) :
    ctxOf (wg s c r x) c = { ctxOf s c with regs := { (ctxOf s c).regs with g := (ctxOf (wg s c r x) c).regs.g } } := by
  unfold wg; split
  · rfl
  · simp
theorem wg_only (s : State) (c r : Nat) (x : Word) : wg s c r x = { s with ctxs := (wg s c r x).ctxs } := by
  unfold wg; split <;> rfl

/-- The frame of a retiring instruction from the frame of its body. -/
theorem regFrame_retire {i : Instr} {s u : State} {npc : Word} {gs ps : List Nat} (hc : u.cur = s.cur) (hm : u.mem = s.mem)
    (hg : ∀ r, r ∉ gs → rg u s.cur r = rg s s.cur r) (hp : ∀ r, r ∉ ps → rp u s.cur r = rp s s.cur r)
    (ho : ∀ e, e ≠ s.cur → (∀ r, rg u e r = rg s e r) ∧ ∀ r, rp u e r = rp s e r) : RegFrame s (retire i u npc) gs ps where
  cur := by simp [hc]
  mem a := by simp [memByte, hm]
  g r hr := by rw [← hc, rg_retire, hc, hg r hr]
  p r hr := by rw [← hc, rp_retire, hc, hp r hr]
  others e he hpn := by
    have h := retire_other i u npc (e := e) (by rw [hc]; exact he) (by rw [hc]; exact hpn)
    exact ⟨fun r => by rw [← (ho e he).1 r]; simp [rg, h.1], fun r => by rw [← (ho e he).2 r]; simp [rp, h.2]⟩

/-- What a quiet instruction leaves alone, when its body changed the g registers and the pc of its context alone. -/
theorem quiet_retire {i : Instr} {s u : State} {npc : Word} (hr : (ctxOf s s.cur).run = .ready) (hq : Quiet s)
    (hu : u = { s with ctxs := u.ctxs }) (hx : ctxOf u s.cur = { ctxOf s s.cur with regs := { (ctxOf s s.cur).regs with g := (ctxOf u s.cur).regs.g } })
    (ho : ∀ e, e ≠ s.cur → ctxOf u e = ctxOf s e) :
    let t := retire i u npc
    OwnOnly s t ∧ CoreKept s t ∧ SpecialKept s t ∧ FlagsKept s t ∧ VKept s t [] := by
  obtain ⟨q1, q2, q3, -, q5, q6⟩ := hq
  have hc : u.cur = s.cur := by rw [hu]
  have hco : u.cores = s.cores := by rw [hu]
  have hxu : ctxOf u u.cur = { ctxOf s s.cur with regs := { (ctxOf s s.cur).regs with g := (ctxOf u s.cur).regs.g } } := by rw [hc]; exact hx
  obtain ⟨h1, h2, h3⟩ := retire_still i u npc (by rw [hxu]; exact hr) (by rw [hxu]; exact ⟨q1, q2, q3, q5, q6⟩)
  rw [hc] at h2 h3
  have hs : settledCtx i u npc = { settledCtx i u npc with
      regs := { (ctxOf s s.cur).regs with g := (ctxOf u s.cur).regs.g }
      rmode := (ctxOf s s.cur).rmode, allot := (ctxOf s s.cur).allot, acct := (ctxOf s s.cur).acct, lease := (ctxOf s s.cur).lease
      gang := (ctxOf s s.cur).gang, hmode := (ctxOf s s.cur).hmode, cip := (ctxOf s s.cur).cip, slot := (ctxOf s s.cur).slot
      sendBuf := (ctxOf s s.cur).sendBuf, writeLog := (ctxOf s s.cur).writeLog, track := (ctxOf s s.cur).track
      watchdog := (ctxOf s s.cur).watchdog, budgetEnd := (ctxOf s s.cur).budgetEnd } := by
    unfold settledCtx retiredCtx
    simp only [hxu]
    split <;> rfl
  have hcore : ∀ k, coreAt (retire i u npc) k = coreAt (chargeIssue i u) k := fun k => by rw [h1]; rfl
  refine ⟨⟨?_, ?_, ?_⟩, ?_, ?_, ?_, ?_⟩
  · rw [h1, hu]
  · intro k hk
    rw [hcore, coreAt_chargeIssue_ne _ _ (by rw [hc]; exact hk)]
    simp [coreAt, hco]
  · intro e he; rw [h3 e he, ho e he]
  · unfold CoreKept
    rw [hcore, ← hc, coreAt_chargeIssue]
    simp [coreAt, hco]
  · constructor <;> rw [h2, hs]
  · unfold FlagsKept; rw [h2, hs]
  · intro r _; unfold rv; rw [h2, hs]

/-- An instruction whose body writes one g register. -/
theorem writes_retire {i : Instr} {s : State} {d : Nat} {x npc : Word} (hr : (ctxOf s s.cur).run = .ready) (hn : npc = pcOf s + 8) :
    Writes s (retire i (wg (beginIssue s) s.cur d x) npc) d x where
  value := by
    have h := rg_retire i (wg (beginIssue s) s.cur d x) npc d
    rw [wg_cur, beginIssue_cur] at h
    rw [h]
    by_cases hd : d = 0
    · simp [hd, rg]
    · simp [hd, rg_wg_self]
  next := by
    have h := retire_pc i (wg (beginIssue s) s.cur d x) npc (by simp [hr])
    rw [wg_cur, beginIssue_cur] at h
    unfold pcOf
    rw [retire_cur, wg_cur, beginIssue_cur, h, hn]
    rfl
  frame := regFrame_retire (by simp) (by simp [wg_mem])
    (fun r h => by rw [rg_wg_ne _ _ _ (by simpa using h)]; simp)
    (fun r _ => by simp)
    (fun e he => by simp [rg, rp, ctxOf_wg_ne _ _ _ he])
  quiet hq := by
    have hb : beginIssue s = s := beginIssue_eq s hq.2.2.2.1
    rw [hb]
    exact quiet_retire hr hq (wg_only _ _ _ _) (wg_ctx _ _ _ _) (fun e he => ctxOf_wg_ne _ _ _ he)

end Sys2Proof.Machine
end

