-- ==== Sys2Proof/Laws/Numbers.lean ====
section
/-! SUPPORT. The numbers of the scalar instructions as bit vectors: operands, results and widths of R246. -/

namespace Sys2Proof.Machine

theorem toInt_ofNat_signedN {n : Nat} (hn : 0 < n) (x : Nat) : (BitVec.ofNat n x).toInt = signedN x n := by
  have hp : 2 ^ n = 2 * 2 ^ (n - 1) := by rw [← Nat.pow_succ', Nat.succ_eq_add_one, Nat.sub_add_cancel hn]
  rw [BitVec.toInt_eq_toNat_cond, BitVec.toNat_ofNat]
  unfold signedN
  dsimp only
  split <;> split <;> first | rfl | omega

/-- Sign extension from bit n − 1 of the low n bits of a number. -/
theorem sextN_eq {n : Nat} (hn : 0 < n) (x : Nat) : sextN x n = (BitVec.ofNat n x).signExtend 64 := by
  unfold BitVec.signExtend
  rw [toInt_ofNat_signedN hn]
  unfold sextN signedN
  have h0 : n ≠ 0 := by omega
  simp only [h0, if_false]
  split
  · exact (BitVec.ofInt_natCast 64 _).symm
  · rfl

theorem ofNat_toNat_emod (w : Nat) (r : Int) : BitVec.ofNat w (r % 2 ^ w).toNat = BitVec.ofInt w r := by
  apply BitVec.eq_of_toNat_eq
  rw [BitVec.toNat_ofInt, BitVec.toNat_ofNat]
  have : (r % 2 ^ w).toNat < 2 ^ w := by
    have h1 := Int.emod_nonneg r (b := 2 ^ w) (by positivity)
    have h2 := Int.emod_lt_of_pos r (b := 2 ^ w) (by positivity)
    rw [Int.toNat_lt h1]
    push_cast
    exact h2
  rw [Nat.mod_eq_of_lt this]
  push_cast
  rfl

/-- A result without saturation: the number modulo 2^W, sign-extended (R246). -/
theorem aluOut_wrap (o : OpA) (w : Nat) (hw : 0 < w) (h : nbit o.md.toNat 1 = false) (r : Int) :
    aluOut o w r = (BitVec.ofInt w r).signExtend 64 := by
  simp [aluOut, h, sextN_eq hw, ofNat_toNat_emod]

theorem aluOut_sat (o : OpA) (w : Nat) (hw : 0 < w) (h : nbit o.md.toNat 1 = true) (r : Int) :
    aluOut o w r = (BitVec.ofInt w (if nbit o.md.toNat 2 then max 0 (min r (2 ^ w - 1)) else max (-(2 ^ (w - 1))) (min r (2 ^ (w - 1) - 1)))).signExtend 64 := by
  simp [aluOut, h, sextN_eq hw, ofNat_toNat_emod]

theorem nbit_md (m : BitVec 8) (i : Nat) : nbit m.toNat i = m.getLsbD i := rfl

/-- Reading the operands changes nothing before the handler's start and after it. -/
theorem aluIn_beginIssue (s : State) (c : Nat) (o : OpA) : aluIn (beginIssue s) c o = aluIn s c o := by simp [aluIn]

end Sys2Proof.Machine
end

