-- ==== Sys2Proof/Laws/PerInstr.lean ====
section
/-! SUPPORT. A law for every instruction as syntax: the major opcode of its word names a format (Table 15-3); an event has no word. -/

namespace Sys2Proof.Laws.MajorNamed

theorem major_A (op fn : Nat) (o : OpA) : ((packA op fn o).extractLsb' 56 7).toNat = op % 128 := by
  have h : (packA op fn o).extractLsb' 56 7 = BitVec.ofNat 7 op := by
    unfold packA
    ext i hi
    rw [BitVec.getElem_extractLsb']
    simp only [BitVec.getLsbD_append]
    interval_cases i <;> simp
  rw [h, BitVec.toNat_ofNat]

theorem major_I (op fn : Nat) (o : OpI) : ((packI op fn o).extractLsb' 56 7).toNat = op % 128 := by
  have h : (packI op fn o).extractLsb' 56 7 = BitVec.ofNat 7 op := by
    unfold packI
    ext i hi
    rw [BitVec.getElem_extractLsb']
    simp only [BitVec.getLsbD_append]
    interval_cases i <;> simp
  rw [h, BitVec.toNat_ofNat]

theorem major_M (op fn : Nat) (o : OpM) : ((packM op fn o).extractLsb' 56 7).toNat = op % 128 := by
  have h : (packM op fn o).extractLsb' 56 7 = BitVec.ofNat 7 op := by
    unfold packM
    ext i hi
    rw [BitVec.getElem_extractLsb']
    simp only [BitVec.getLsbD_append]
    interval_cases i <;> simp
  rw [h, BitVec.toNat_ofNat]

theorem major_B (op fn : Nat) (o : OpB) : ((packB op fn o).extractLsb' 56 7).toNat = op % 128 := by
  have h : (packB op fn o).extractLsb' 56 7 = BitVec.ofNat 7 op := by
    unfold packB
    ext i hi
    rw [BitVec.getElem_extractLsb']
    simp only [BitVec.getLsbD_append]
    interval_cases i <;> simp
  rw [h, BitVec.toNat_ofNat]

theorem major_V (op fn : Nat) (o : OpV) : ((packV op fn o).extractLsb' 56 7).toNat = op % 128 := by
  have h : (packV op fn o).extractLsb' 56 7 = BitVec.ofNat 7 op := by
    unfold packV
    ext i hi
    rw [BitVec.getElem_extractLsb']
    simp only [BitVec.getLsbD_append]
    interval_cases i <;> simp
  rw [h, BitVec.toNat_ofNat]

theorem major_E (op fn : Nat) (o : OpE) : ((packE op fn o).extractLsb' 56 7).toNat = op % 128 := by
  have h : (packE op fn o).extractLsb' 56 7 = BitVec.ofNat 7 op := by
    unfold packE
    ext i hi
    rw [BitVec.getElem_extractLsb']
    simp only [BitVec.getLsbD_append]
    interval_cases i <;> simp
  rw [h, BitVec.toNat_ofNat]

theorem major_S (op fn : Nat) (o : OpS) : ((packS op fn o).extractLsb' 56 7).toNat = op % 128 := by
  have h : (packS op fn o).extractLsb' 56 7 = BitVec.ofNat 7 op := by
    unfold packS
    ext i hi
    rw [BitVec.getElem_extractLsb']
    simp only [BitVec.getLsbD_append]
    interval_cases i <;> simp
  rw [h, BitVec.toNat_ofNat]

/-- The major opcode of the word of an instruction names a format, the 64 bits of an illegal pattern apart. -/
def Statement (i : Instr) : Prop := ∀ w, encode i = some w → (∃ x, i = .illegalPattern x) ∨ (formatOf (w.extractLsb' 56 7).toNat).isSome = true

theorem add (o : OpA) : Statement (.add o) := fun w h => by cases h; exact .inr (by rw [major_A]; rfl)
theorem sub (o : OpA) : Statement (.sub o) := fun w h => by cases h; exact .inr (by rw [major_A]; rfl)
theorem mul (o : OpA) : Statement (.mul o) := fun w h => by cases h; exact .inr (by rw [major_A]; rfl)
theorem mulh (o : OpA) : Statement (.mulh o) := fun w h => by cases h; exact .inr (by rw [major_A]; rfl)
theorem div (o : OpA) : Statement (.div o) := fun w h => by cases h; exact .inr (by rw [major_A]; rfl)
theorem rem (o : OpA) : Statement (.rem o) := fun w h => by cases h; exact .inr (by rw [major_A]; rfl)
theorem and (o : OpA) : Statement (.and o) := fun w h => by cases h; exact .inr (by rw [major_A]; rfl)
theorem or (o : OpA) : Statement (.or o) := fun w h => by cases h; exact .inr (by rw [major_A]; rfl)
theorem xor (o : OpA) : Statement (.xor o) := fun w h => by cases h; exact .inr (by rw [major_A]; rfl)
theorem andn (o : OpA) : Statement (.andn o) := fun w h => by cases h; exact .inr (by rw [major_A]; rfl)
theorem shl (o : OpA) : Statement (.shl o) := fun w h => by cases h; exact .inr (by rw [major_A]; rfl)
theorem shr (o : OpA) : Statement (.shr o) := fun w h => by cases h; exact .inr (by rw [major_A]; rfl)
theorem sar (o : OpA) : Statement (.sar o) := fun w h => by cases h; exact .inr (by rw [major_A]; rfl)
theorem rot (o : OpA) : Statement (.rot o) := fun w h => by cases h; exact .inr (by rw [major_A]; rfl)
theorem min (o : OpA) : Statement (.min o) := fun w h => by cases h; exact .inr (by rw [major_A]; rfl)
theorem max (o : OpA) : Statement (.max o) := fun w h => by cases h; exact .inr (by rw [major_A]; rfl)
theorem sel (o : OpA) : Statement (.sel o) := fun w h => by cases h; exact .inr (by rw [major_A]; rfl)
theorem cmp (o : OpA) : Statement (.cmp o) := fun w h => by cases h; exact .inr (by rw [major_A]; rfl)
theorem clz (o : OpA) : Statement (.clz o) := fun w h => by cases h; exact .inr (by rw [major_A]; rfl)
theorem ctz (o : OpA) : Statement (.ctz o) := fun w h => by cases h; exact .inr (by rw [major_A]; rfl)
theorem popc (o : OpA) : Statement (.popc o) := fun w h => by cases h; exact .inr (by rw [major_A]; rfl)
theorem sext (o : OpA) : Statement (.sext o) := fun w h => by cases h; exact .inr (by rw [major_A]; rfl)
theorem bfx (o : OpA) : Statement (.bfx o) := fun w h => by cases h; exact .inr (by rw [major_A]; rfl)
theorem bfi (o : OpA) : Statement (.bfi o) := fun w h => by cases h; exact .inr (by rw [major_A]; rfl)
theorem lea (o : OpA) : Statement (.lea o) := fun w h => by cases h; exact .inr (by rw [major_A]; rfl)
theorem addi (o : OpI) : Statement (.addi o) := fun w h => by cases h; exact .inr (by rw [major_I]; rfl)
theorem movi (o : OpI) : Statement (.movi o) := fun w h => by cases h; exact .inr (by rw [major_I]; rfl)
theorem movhi (o : OpI) : Statement (.movhi o) := fun w h => by cases h; exact .inr (by rw [major_I]; rfl)
theorem br (o : OpB) : Statement (.br o) := fun w h => by cases h; exact .inr (by rw [major_B]; rfl)
theorem brz (o : OpB) : Statement (.brz o) := fun w h => by cases h; exact .inr (by rw [major_B]; rfl)
theorem jmp (o : OpB) : Statement (.jmp o) := fun w h => by cases h; exact .inr (by rw [major_B]; rfl)
theorem call (o : OpB) : Statement (.call o) := fun w h => by cases h; exact .inr (by rw [major_B]; rfl)
theorem loop (o : OpB) : Statement (.loop o) := fun w h => by cases h; exact .inr (by rw [major_B]; rfl)
theorem fork (o : OpB) : Statement (.fork o) := fun w h => by cases h; exact .inr (by rw [major_B]; rfl)
theorem jr (o : OpA) : Statement (.jr o) := fun w h => by cases h; exact .inr (by rw [major_A]; rfl)
theorem ret (o : OpA) : Statement (.ret o) := fun w h => by cases h; exact .inr (by rw [major_A]; rfl)
theorem hret (o : OpE) : Statement (.hret o) := fun w h => by cases h; exact .inr (by rw [major_E]; rfl)
theorem habort (o : OpE) : Statement (.habort o) := fun w h => by cases h; exact .inr (by rw [major_E]; rfl)
theorem hold (o : OpE) : Statement (.hold o) := fun w h => by cases h; exact .inr (by rw [major_E]; rfl)
theorem release (o : OpE) : Statement (.release o) := fun w h => by cases h; exact .inr (by rw [major_E]; rfl)
theorem yield (o : OpE) : Statement (.yield o) := fun w h => by cases h; exact .inr (by rw [major_E]; rfl)
theorem gyield (o : OpE) : Statement (.gyield o) := fun w h => by cases h; exact .inr (by rw [major_E]; rfl)
theorem gbar (o : OpE) : Statement (.gbar o) := fun w h => by cases h; exact .inr (by rw [major_E]; rfl)
theorem nop (o : OpE) : Statement (.nop o) := fun w h => by cases h; exact .inr (by rw [major_E]; rfl)
theorem illegalPattern (x : Word) : Statement (.illegalPattern x) := fun _ _ => .inl ⟨x, rfl⟩
theorem ld (o : OpM) : Statement (.ld o) := fun w h => by cases h; exact .inr (by rw [major_M]; rfl)
theorem st (o : OpM) : Statement (.st o) := fun w h => by cases h; exact .inr (by rw [major_M]; rfl)
theorem ldv (o : OpM) : Statement (.ldv o) := fun w h => by cases h; exact .inr (by rw [major_M]; rfl)
theorem stv (o : OpM) : Statement (.stv o) := fun w h => by cases h; exact .inr (by rw [major_M]; rfl)
theorem lds (o : OpM) : Statement (.lds o) := fun w h => by cases h; exact .inr (by rw [major_M]; rfl)
theorem ldP (o : OpM) : Statement (.ldP o) := fun w h => by cases h; exact .inr (by rw [major_M]; rfl)
theorem ldt (o : OpM) : Statement (.ldt o) := fun w h => by cases h; exact .inr (by rw [major_M]; rfl)
theorem pref (o : OpM) : Statement (.pref o) := fun w h => by cases h; exact .inr (by rw [major_M]; rfl)
theorem flush (o : OpM) : Statement (.flush o) := fun w h => by cases h; exact .inr (by rw [major_M]; rfl)
theorem acq (o : OpM) : Statement (.acq o) := fun w h => by cases h; exact .inr (by rw [major_M]; rfl)
theorem fence (o : OpE) : Statement (.fence o) := fun w h => by cases h; exact .inr (by rw [major_E]; rfl)
theorem sts (o : OpM) : Statement (.sts o) := fun w h => by cases h; exact .inr (by rw [major_M]; rfl)
theorem stsA (o : OpM) : Statement (.stsA o) := fun w h => by cases h; exact .inr (by rw [major_M]; rfl)
theorem slop (o : OpM) : Statement (.slop o) := fun w h => by cases h; exact .inr (by rw [major_M]; rfl)
theorem cmls (o : OpM) : Statement (.cmls o) := fun w h => by cases h; exact .inr (by rw [major_M]; rfl)
theorem agg (o : OpM) : Statement (.agg o) := fun w h => by cases h; exact .inr (by rw [major_M]; rfl)
theorem tklend (o : OpA) : Statement (.tklend o) := fun w h => by cases h; exact .inr (by rw [major_A]; rfl)
theorem tkret (o : OpA) : Statement (.tkret o) := fun w h => by cases h; exact .inr (by rw [major_A]; rfl)
theorem tksplit (o : OpA) : Statement (.tksplit o) := fun w h => by cases h; exact .inr (by rw [major_A]; rfl)
theorem tkjoin (o : OpA) : Statement (.tkjoin o) := fun w h => by cases h; exact .inr (by rw [major_A]; rfl)
theorem tkshare (o : OpA) : Statement (.tkshare o) := fun w h => by cases h; exact .inr (by rw [major_A]; rfl)
theorem tkdrop (o : OpA) : Statement (.tkdrop o) := fun w h => by cases h; exact .inr (by rw [major_A]; rfl)
theorem tkpark (o : OpA) : Statement (.tkpark o) := fun w h => by cases h; exact .inr (by rw [major_A]; rfl)
theorem tkcarve (o : OpA) : Statement (.tkcarve o) := fun w h => by cases h; exact .inr (by rw [major_A]; rfl)
theorem tkstat (o : OpA) : Statement (.tkstat o) := fun w h => by cases h; exact .inr (by rw [major_A]; rfl)
theorem tkclaim (o : OpA) : Statement (.tkclaim o) := fun w h => by cases h; exact .inr (by rw [major_A]; rfl)
theorem tkclean (o : OpA) : Statement (.tkclean o) := fun w h => by cases h; exact .inr (by rw [major_A]; rfl)
theorem vadd (o : OpV) : Statement (.vadd o) := fun w h => by cases h; exact .inr (by rw [major_V]; rfl)
theorem vsub (o : OpV) : Statement (.vsub o) := fun w h => by cases h; exact .inr (by rw [major_V]; rfl)
theorem vmul (o : OpV) : Statement (.vmul o) := fun w h => by cases h; exact .inr (by rw [major_V]; rfl)
theorem vfma (o : OpV) : Statement (.vfma o) := fun w h => by cases h; exact .inr (by rw [major_V]; rfl)
theorem vmin (o : OpV) : Statement (.vmin o) := fun w h => by cases h; exact .inr (by rw [major_V]; rfl)
theorem vmax (o : OpV) : Statement (.vmax o) := fun w h => by cases h; exact .inr (by rw [major_V]; rfl)
theorem vabs (o : OpV) : Statement (.vabs o) := fun w h => by cases h; exact .inr (by rw [major_V]; rfl)
theorem vneg (o : OpV) : Statement (.vneg o) := fun w h => by cases h; exact .inr (by rw [major_V]; rfl)
theorem vdot (o : OpV) : Statement (.vdot o) := fun w h => by cases h; exact .inr (by rw [major_V]; rfl)
theorem vcmp (o : OpV) : Statement (.vcmp o) := fun w h => by cases h; exact .inr (by rw [major_V]; rfl)
theorem vsel (o : OpV) : Statement (.vsel o) := fun w h => by cases h; exact .inr (by rw [major_V]; rfl)
theorem vcvt (o : OpV) : Statement (.vcvt o) := fun w h => by cases h; exact .inr (by rw [major_V]; rfl)
theorem vred (o : OpV) : Statement (.vred o) := fun w h => by cases h; exact .inr (by rw [major_V]; rfl)
theorem vperm (o : OpV) : Statement (.vperm o) := fun w h => by cases h; exact .inr (by rw [major_V]; rfl)
theorem vbcast (o : OpV) : Statement (.vbcast o) := fun w h => by cases h; exact .inr (by rw [major_V]; rfl)
theorem vmov (o : OpV) : Statement (.vmov o) := fun w h => by cases h; exact .inr (by rw [major_V]; rfl)
theorem viota (o : OpV) : Statement (.viota o) := fun w h => by cases h; exact .inr (by rw [major_V]; rfl)
theorem vand (o : OpV) : Statement (.vand o) := fun w h => by cases h; exact .inr (by rw [major_V]; rfl)
theorem vor (o : OpV) : Statement (.vor o) := fun w h => by cases h; exact .inr (by rw [major_V]; rfl)
theorem vxor (o : OpV) : Statement (.vxor o) := fun w h => by cases h; exact .inr (by rw [major_V]; rfl)
theorem vshl (o : OpV) : Statement (.vshl o) := fun w h => by cases h; exact .inr (by rw [major_V]; rfl)
theorem vshr (o : OpV) : Statement (.vshr o) := fun w h => by cases h; exact .inr (by rw [major_V]; rfl)
theorem vrcp (o : OpV) : Statement (.vrcp o) := fun w h => by cases h; exact .inr (by rw [major_V]; rfl)
theorem vrsq (o : OpV) : Statement (.vrsq o) := fun w h => by cases h; exact .inr (by rw [major_V]; rfl)
theorem vexp2 (o : OpV) : Statement (.vexp2 o) := fun w h => by cases h; exact .inr (by rw [major_V]; rfl)
theorem vlog2 (o : OpV) : Statement (.vlog2 o) := fun w h => by cases h; exact .inr (by rw [major_V]; rfl)
theorem pand (o : OpV) : Statement (.pand o) := fun w h => by cases h; exact .inr (by rw [major_V]; rfl)
theorem por (o : OpV) : Statement (.por o) := fun w h => by cases h; exact .inr (by rw [major_V]; rfl)
theorem pnot (o : OpV) : Statement (.pnot o) := fun w h => by cases h; exact .inr (by rw [major_V]; rfl)
theorem pmov (o : OpV) : Statement (.pmov o) := fun w h => by cases h; exact .inr (by rw [major_V]; rfl)
theorem i4tab (o : OpS) : Statement (.i4tab o) := fun w h => by cases h; exact .inr (by rw [major_S]; rfl)
theorem cnew (o : OpE) : Statement (.cnew o) := fun w h => by cases h; exact .inr (by rw [major_E]; rfl)
theorem cset (o : OpE) : Statement (.cset o) := fun w h => by cases h; exact .inr (by rw [major_E]; rfl)
theorem wnew (o : OpE) : Statement (.wnew o) := fun w h => by cases h; exact .inr (by rw [major_E]; rfl)
theorem link (o : OpE) : Statement (.link o) := fun w h => by cases h; exact .inr (by rw [major_E]; rfl)
theorem cxld (o : OpE) : Statement (.cxld o) := fun w h => by cases h; exact .inr (by rw [major_E]; rfl)
theorem cgrab (o : OpE) : Statement (.cgrab o) := fun w h => by cases h; exact .inr (by rw [major_E]; rfl)
theorem send (o : OpE) : Statement (.send o) := fun w h => by cases h; exact .inr (by rw [major_E]; rfl)
theorem mrel (o : OpE) : Statement (.mrel o) := fun w h => by cases h; exact .inr (by rw [major_E]; rfl)
theorem chopen (o : OpE) : Statement (.chopen o) := fun w h => by cases h; exact .inr (by rw [major_E]; rfl)
theorem chput (o : OpE) : Statement (.chput o) := fun w h => by cases h; exact .inr (by rw [major_E]; rfl)
theorem chget (o : OpE) : Statement (.chget o) := fun w h => by cases h; exact .inr (by rw [major_E]; rfl)
theorem chclose (o : OpE) : Statement (.chclose o) := fun w h => by cases h; exact .inr (by rw [major_E]; rfl)
theorem nput (o : OpE) : Statement (.nput o) := fun w h => by cases h; exact .inr (by rw [major_E]; rfl)
theorem srd (o : OpS) : Statement (.srd o) := fun w h => by cases h; exact .inr (by rw [major_S]; rfl)
theorem swr (o : OpS) : Statement (.swr o) := fun w h => by cases h; exact .inr (by rw [major_S]; rfl)
theorem trap (o : OpS) : Statement (.trap o) := fun w h => by cases h; exact .inr (by rw [major_S]; rfl)
theorem ctxsave (o : OpS) : Statement (.ctxsave o) := fun w h => by cases h; exact .inr (by rw [major_S]; rfl)
theorem ctxrest (o : OpS) : Statement (.ctxrest o) := fun w h => by cases h; exact .inr (by rw [major_S]; rfl)
theorem vgrow (o : OpS) : Statement (.vgrow o) := fun w h => by cases h; exact .inr (by rw [major_S]; rfl)
theorem vshrink (o : OpS) : Statement (.vshrink o) := fun w h => by cases h; exact .inr (by rw [major_S]; rfl)
theorem wdog (o : OpS) : Statement (.wdog o) := fun w h => by cases h; exact .inr (by rw [major_S]; rfl)
theorem mstat (o : OpE) : Statement (.mstat o) := fun w h => by cases h; exact .inr (by rw [major_E]; rfl)
theorem mgang (o : OpE) : Statement (.mgang o) := fun w h => by cases h; exact .inr (by rw [major_E]; rfl)
theorem mwait (o : OpE) : Statement (.mwait o) := fun w h => by cases h; exact .inr (by rw [major_E]; rfl)
theorem mdrain (o : OpE) : Statement (.mdrain o) := fun w h => by cases h; exact .inr (by rw [major_E]; rfl)
theorem memit (o : OpE) : Statement (.memit o) := fun w h => by cases h; exact .inr (by rw [major_E]; rfl)
theorem ald (o : OpE) : Statement (.ald o) := fun w h => by cases h; exact .inr (by rw [major_E]; rfl)
theorem ast (o : OpE) : Statement (.ast o) := fun w h => by cases h; exact .inr (by rw [major_E]; rfl)
theorem mzero (o : OpE) : Statement (.mzero o) := fun w h => by cases h; exact .inr (by rw [major_E]; rfl)
theorem mterm (o : OpE) : Statement (.mterm o) := fun w h => by cases h; exact .inr (by rw [major_E]; rfl)
theorem job (o : OpE) : Statement (.job o) := fun w h => by cases h; exact .inr (by rw [major_E]; rfl)
theorem jpoll (o : OpE) : Statement (.jpoll o) := fun w h => by cases h; exact .inr (by rw [major_E]; rfl)
theorem jwait (o : OpE) : Statement (.jwait o) := fun w h => by cases h; exact .inr (by rw [major_E]; rfl)
theorem jnext (o : OpE) : Statement (.jnext o) := fun w h => by cases h; exact .inr (by rw [major_E]; rfl)
theorem jdone (o : OpE) : Statement (.jdone o) := fun w h => by cases h; exact .inr (by rw [major_E]; rfl)
theorem tload (o : OpE) : Statement (.tload o) := fun w h => by cases h; exact .inr (by rw [major_E]; rfl)
theorem bulk (o : OpE) : Statement (.bulk o) := fun w h => by cases h; exact .inr (by rw [major_E]; rfl)
theorem gather (o : OpE) : Statement (.gather o) := fun w h => by cases h; exact .inr (by rw [major_E]; rfl)
theorem scatter (o : OpE) : Statement (.scatter o) := fun w h => by cases h; exact .inr (by rw [major_E]; rfl)
theorem rgather (o : OpE) : Statement (.rgather o) := fun w h => by cases h; exact .inr (by rw [major_E]; rfl)
theorem qpush (o : OpE) : Statement (.qpush o) := fun w h => by cases h; exact .inr (by rw [major_E]; rfl)
theorem boqp (o : OpE) : Statement (.boqp o) := fun w h => by cases h; exact .inr (by rw [major_E]; rfl)
theorem broq (o : OpE) : Statement (.broq o) := fun w h => by cases h; exact .inr (by rw [major_E]; rfl)
theorem bari (o : OpE) : Statement (.bari o) := fun w h => by cases h; exact .inr (by rw [major_E]; rfl)
theorem waitb (o : OpE) : Statement (.waitb o) := fun w h => by cases h; exact .inr (by rw [major_E]; rfl)
theorem gopen (o : OpE) : Statement (.gopen o) := fun w h => by cases h; exact .inr (by rw [major_E]; rfl)
theorem gsend (o : OpE) : Statement (.gsend o) := fun w h => by cases h; exact .inr (by rw [major_E]; rfl)
theorem gred (o : OpE) : Statement (.gred o) := fun w h => by cases h; exact .inr (by rw [major_E]; rfl)
theorem gdrain (o : OpE) : Statement (.gdrain o) := fun w h => by cases h; exact .inr (by rw [major_E]; rfl)
theorem gclose (o : OpE) : Statement (.gclose o) := fun w h => by cases h; exact .inr (by rw [major_E]; rfl)
theorem rqnote (o : OpE) : Statement (.rqnote o) := fun w h => by cases h; exact .inr (by rw [major_E]; rfl)
theorem rqflt (o : OpE) : Statement (.rqflt o) := fun w h => by cases h; exact .inr (by rw [major_E]; rfl)
theorem rqslot (o : OpE) : Statement (.rqslot o) := fun w h => by cases h; exact .inr (by rw [major_E]; rfl)
theorem grlaunch (o : OpE) : Statement (.grlaunch o) := fun w h => by cases h; exact .inr (by rw [major_E]; rfl)
theorem grsig (o : OpE) : Statement (.grsig o) := fun w h => by cases h; exact .inr (by rw [major_E]; rfl)
theorem contextReady (c : Nat) : Statement (.contextReady c) := fun _ h => by cases h
theorem budgetExpiry (c : Nat) : Statement (.budgetExpiry c) := fun _ h => by cases h
theorem watchdogExpiry (c : Nat) : Statement (.watchdogExpiry c) := fun _ h => by cases h
theorem faultQueueDelivery (die : Nat) : Statement (.faultQueueDelivery die) := fun _ h => by cases h
theorem trapResume (c : Nat) : Statement (.trapResume c) := fun _ h => by cases h
theorem trapRelease (c : Nat) : Statement (.trapRelease c) := fun _ h => by cases h
theorem trapRetire (c : Nat) : Statement (.trapRetire c) := fun _ h => by cases h
theorem messageArrival (id : Nat) : Statement (.messageArrival id) := fun _ h => by cases h
theorem refusalReturn (id : Nat) : Statement (.refusalReturn id) := fun _ h => by cases h
theorem messageRetry (id : Nat) : Statement (.messageRetry id) := fun _ h => by cases h
theorem noticeDelivery (id : Nat) : Statement (.noticeDelivery id) := fun _ h => by cases h
theorem sendBufferEntryLeave (c : Nat) : Statement (.sendBufferEntryLeave c) := fun _ h => by cases h
theorem launch (id : Nat) : Statement (.launch id) := fun _ h => by cases h
theorem waitingLaunchStart (core : Nat) : Statement (.waitingLaunchStart core) := fun _ h => by cases h
theorem routineSelect (core : Nat) : Statement (.routineSelect core) := fun _ h => by cases h
theorem dequePop (core : Nat) : Statement (.dequePop core) := fun _ h => by cases h
theorem stealProbe (core : Nat) : Statement (.stealProbe core) := fun _ h => by cases h
theorem stealArrival (id : Nat) : Statement (.stealArrival id) := fun _ h => by cases h
theorem pairDispatch (core : Nat) (slot : Nat) : Statement (.pairDispatch core slot) := fun _ h => by cases h
theorem cellTake (core : Nat) (slot : Nat) (second : Bool) : Statement (.cellTake core slot second) := fun _ h => by cases h
theorem pairSlotReady (core : Nat) (slot : Nat) : Statement (.pairSlotReady core slot) := fun _ h => by cases h
theorem linkSwap (id : Nat) : Statement (.linkSwap id) := fun _ h => by cases h
theorem pairPlacement (id : Nat) : Statement (.pairPlacement id) := fun _ h => by cases h
theorem cellWrite (id : Nat) : Statement (.cellWrite id) := fun _ h => by cases h
theorem reservoirRefill (core : Nat) : Statement (.reservoirRefill core) := fun _ h => by cases h
theorem sliceAccess (id : Nat) : Statement (.sliceAccess id) := fun _ h => by cases h
theorem postedStoreAck (id : Nat) : Statement (.postedStoreAck id) := fun _ h => by cases h
theorem aggFlush (core : Nat) : Statement (.aggFlush core) := fun _ h => by cases h
theorem lineFill (core : Nat) (line : Nat) : Statement (.lineFill core line) := fun _ h => by cases h
theorem instructionFetchFill (core : Nat) (line : Nat) : Statement (.instructionFetchFill core line) := fun _ h => by cases h
theorem l2ChannelCommand (slice : Nat) (line : Nat) : Statement (.l2ChannelCommand slice line) := fun _ h => by cases h
theorem sectorArrival (slice : Nat) (line : Nat) : Statement (.sectorArrival slice line) := fun _ h => by cases h
theorem pageWalkRead (vertex : Nat) : Statement (.pageWalkRead vertex) := fun _ h => by cases h
theorem tokenWalk (c : Nat) : Statement (.tokenWalk c) := fun _ h => by cases h
theorem writeBackAck (id : Nat) : Statement (.writeBackAck id) := fun _ h => by cases h
theorem tokenEntryChange (id : Nat) : Statement (.tokenEntryChange id) := fun _ h => by cases h
theorem latticeJobStart (vertex : Nat) : Statement (.latticeJobStart vertex) := fun _ h => by cases h
theorem latticeJobEnd (vertex : Nat) (disagree : Bool) : Statement (.latticeJobEnd vertex disagree) := fun _ h => by cases h
theorem accessTransferLine (vertex : Nat) : Statement (.accessTransferLine vertex) := fun _ h => by cases h
theorem barrierDecrement (vertex : Nat) : Statement (.barrierDecrement vertex) := fun _ h => by cases h
theorem dataQueueResume (c : Nat) : Statement (.dataQueueResume c) := fun _ h => by cases h
theorem neighbourResume (c : Nat) : Statement (.neighbourResume c) := fun _ h => by cases h
theorem meshBarrierComplete (gang : Nat) : Statement (.meshBarrierComplete gang) := fun _ h => by cases h
theorem chordWordArrival (core : Nat) : Statement (.chordWordArrival core) := fun _ h => by cases h
theorem chordTimeout (c : Nat) : Statement (.chordTimeout c) := fun _ h => by cases h
theorem nodeEligible (gi : Nat) (node : Nat) : Statement (.nodeEligible gi node) := fun _ h => by cases h
theorem nodeStart (die : Nat) : Statement (.nodeStart die) := fun _ h => by cases h
theorem nodeEvaluate (gi : Nat) (node : Nat) : Statement (.nodeEvaluate gi node) := fun _ h => by cases h
theorem netSeed (gi : Nat) (node : Nat) : Statement (.netSeed gi node) := fun _ h => by cases h
theorem gangReserve (gang : Nat) (core : Nat) : Statement (.gangReserve gang core) := fun _ h => by cases h
theorem gangStart (gang : Nat) : Statement (.gangStart gang) := fun _ h => by cases h
theorem batchStep (gi : Nat) (node : Nat) : Statement (.batchStep gi node) := fun _ h => by cases h
theorem nodeComplete (gi : Nat) (node : Nat) : Statement (.nodeComplete gi node) := fun _ h => by cases h
theorem gangPreempt (gang : Nat) : Statement (.gangPreempt gang) := fun _ h => by cases h
theorem gangSave (gang : Nat) (block : Nat) : Statement (.gangSave gang block) := fun _ h => by cases h
theorem lockstepOutput (c : Nat) (agree : Bool) : Statement (.lockstepOutput c agree) := fun _ h => by cases h
theorem coreKill (core : Nat) (checker : Bool) : Statement (.coreKill core checker) := fun _ h => by cases h
theorem containment (core : Nat) : Statement (.containment core) := fun _ h => by cases h
theorem regionRecovery (base : Nat) (clean : Bool) (holder : Nat) : Statement (.regionRecovery base clean holder) := fun _ h => by cases h
theorem uncorrectableError (pa : Nat) : Statement (.uncorrectableError pa) := fun _ h => by cases h
theorem ruleRemoval (slots : List Nat) : Statement (.ruleRemoval slots) := fun _ h => by cases h
theorem routineWrite (core : Nat) (index : Nat) (w0 : Word) (w1 : Word) : Statement (.routineWrite core index w0 w1) := fun _ h => by cases h
theorem apertureRead (requester : Nat) (offset : Nat) (count : Nat) : Statement (.apertureRead requester offset count) := fun _ h => by cases h
theorem apertureWrite (requester : Nat) (offset : Nat) (data : List Byte) : Statement (.apertureWrite requester offset data) := fun _ h => by cases h
theorem controlRegisterWrite (requester : Nat) (offset : Nat) (data : List Byte) : Statement (.controlRegisterWrite requester offset data) := fun _ h => by cases h
theorem ltarget (requester : Nat) (target : Word) : Statement (.ltarget requester target) := fun _ h => by cases h
theorem hostLaunchRetry (id : Nat) : Statement (.hostLaunchRetry id) := fun _ h => by cases h
theorem ringtail (requester : Nat) (value : Word) : Statement (.ringtail requester value) := fun _ h => by cases h
theorem evhead (requester : Nat) (value : Word) : Statement (.evhead requester value) := fun _ h => by cases h
theorem resync (requester : Nat) (buffer : Word) : Statement (.resync requester buffer) := fun _ h => by cases h
theorem unmap (tag : Nat) (root : Nat) (va : Nat) : Statement (.unmap tag root va) := fun _ h => by cases h
theorem quota (tag : Nat) (account : Nat) (units : Nat) : Statement (.quota tag account units) := fun _ h => by cases h
theorem telemetry (tag : Nat) (buffer : Nat) (select : Word) : Statement (.telemetry tag buffer select) := fun _ h => by cases h
theorem clrstart (tag : Nat) : Statement (.clrstart tag) := fun _ h => by cases h
theorem fwstage (tag : Nat) (image : Nat) (size : Nat) : Statement (.fwstage tag image size) := fun _ h => by cases h
theorem attest (tag : Nat) (buffer : Nat) : Statement (.attest tag buffer) := fun _ h => by cases h
theorem powerlim (tag : Nat) (watts : Nat) : Statement (.powerlim tag watts) := fun _ h => by cases h
theorem unknownCommand (tag : Nat) (opcode : Nat) : Statement (.unknownCommand tag opcode) := fun _ h => by cases h
theorem cxlLinkDown (port : Nat) : Statement (.cxlLinkDown port) := fun _ h => by cases h
theorem ralquelPortDown (port : Nat) (lost : List Nat) : Statement (.ralquelPortDown port lost) := fun _ h => by cases h
theorem stopNotice : Statement (.stopNotice) := fun _ h => by cases h
theorem stopNoticeReceived (device : Nat) : Statement (.stopNoticeReceived device) := fun _ h => by cases h
theorem peerLost (device : Nat) : Statement (.peerLost device) := fun _ h => by cases h
theorem limitReached (die : Nat) (cause : Nat) : Statement (.limitReached die cause) := fun _ h => by cases h
theorem emergencyLimit (die : Nat) : Statement (.emergencyLimit die) := fun _ h => by cases h
theorem clockRestart : Statement (.clockRestart) := fun _ h => by cases h
theorem startUp (cfg : StartConfig) : Statement (.startUp cfg) := fun _ h => by cases h
theorem powerLoss (step : Nat) : Statement (.powerLoss step) := fun _ h => by cases h
theorem hostCommandCompletion : Statement (.hostCommandCompletion) := fun _ h => by cases h
theorem spillRegionAdd (region : SpillRegion) : Statement (.spillRegionAdd region) := fun _ h => by cases h
theorem peerAnswersAgain (device : Nat) : Statement (.peerAnswersAgain device) := fun _ h => by cases h
theorem ruleAddition (rules : List RuleWrite) : Statement (.ruleAddition rules) := fun _ h => by cases h
theorem contextPreemptRequest (c : Nat) : Statement (.contextPreemptRequest c) := fun _ h => by cases h
theorem reservedContextRelease (c : Nat) : Statement (.reservedContextRelease c) := fun _ h => by cases h
theorem heapLineRegistration (wire : Bool) (heap : Nat) (base : Nat) (size : Nat) (account : Nat) : Statement (.heapLineRegistration wire heap base size account) := fun _ h => by cases h
theorem accountPoolAddition (account : Nat) (base : Nat) (lsize : Nat) : Statement (.accountPoolAddition account base lsize) := fun _ h => by cases h
theorem batchGraphRegisterWrite (graph : Nat) (load : BatchLoad) : Statement (.batchGraphRegisterWrite graph load) := fun _ h => by cases h

end Sys2Proof.Laws.MajorNamed
end

