-- ==== Sys2Proof/Tests/Slice0.lean ====
section
/-! SUPPORT. Tests: worked words, ill-formed terms, and for every statement that has hypotheses a state and operands that meet them. -/

open Sys2Proof Sys2Proof.Machine

namespace Sys2Proof.Tests

set_option Elab.async false
set_option linter.unusedVariables false

/-- A leaf with every permission at physical address 0. -/
def leafT : Word := 0xBE00000000000000
/-- A module whose page table maps the first GiB to itself. -/
def base : State := { State.reset with mem := [(1, 0x10), (7, 0x80), (0x1007, 0xBE)] }
def tlb0 : TlbEntry := { page := 0, lsize := 30, leaf := leafT }
/-- Context 0 holds the block at 0x10000; the block at 0x20000 is commons. -/
def hit1 : TokenHit := { ctx := 0, base := 0x10000, lsize := 16, mode := .exclusive, holds := true, shares := false, xfer := 0 }
def hit2 : TokenHit := { ctx := 0, base := 0x20000, lsize := 16, mode := .commons, holds := false, shares := false, xfer := 0 }
def line0 : Line := { data := 0x88F7F6F5F4F3F2F1, dirty := false, peeked := false, poison := false, home := 0, used := 0 }
def msg0 : Msg := { cls := 3, sender := 0, msgid := 0, lease := 0, checked := false, dest := 0, payload := [1, 2, 3, 4, 5, 6], pair := none,
                    placed := none, attempts := 0, group := none, bad := false, fromHost := false }
def slot0 : Slot := { index := 0, msg := msg0, phase := .running 0, routine := 0, entry := 0, firstWords := none, secondWords := none, firstTokens := []
                      secondTokens := [], acct := 0, since := 0 }
/-- Context 0 of core 0 is ready with some registers; its core has its page and its regions cached. -/
def at_ (f : Ctx → Ctx) (h : Core → Core) : State :=
  modCore (modCtx base 0 (fun x => f { x with
    pc := 0x4000, run := .ready, regs := { x.regs with g := [(4, 7), (5, 3), (6, 0xFFFFFFFFFFFFFFFF), (7, 16), (8, 0x10000), (9, 0x20000), (10, 0x10020)] } })) 0
    (fun k => h { k with tlb := [tlb0], tokenCache := [hit1, hit2, { hit2 with ctx := 12 }], dcache := [(2048, some line0), (2049, some line0), (4096, some { line0 with peeked := true })] })
/-- The same in handler mode, with its slot. -/
def hand (f : Ctx → Ctx) (h : Core → Core) : State :=
  at_ (fun x => f { x with hmode := true, slot := some 0, mapped := true }) (fun k => h { k with inbox := [slot0] })
/-- The same in a gang of the cluster. -/
def gang0 : Gang := { graph := none, clusters := [0], entry := 0x4000, arg := 0, lbudget := 0, acct := 0, members := [(0, 0)], started := true,
                      ended := [], arrived := [], arrivedAt := 0, preempt := false, blocks := [], lost := false }
def ganged (s : State) : State := { s with gangs := [(1, some gang0)], ctxs := s.ctxs.map (fun e => (e.1, { e.2 with gang := some 1 })) }
def okState {α : Type} (r : Res (α × State)) : State := match r with | .ok (_, u) => u | .error _ => State.reset
def g (r : Nat) (x : Word) (f : Ctx → Ctx) : Ctx → Ctx := fun c => f { c with regs := { c.regs with g := sput 0 c.regs.g r x } }
def v (r : Nat) (x : Vec) (f : Ctx → Ctx) : Ctx → Ctx := fun c => f { c with regs := { c.regs with v := sput 0 c.regs.v r x } }
/-- The seven other contexts of the core stand at the wired barrier of the gang. -/
def allHere : State :=
  let s := ganged (at_ id id)
  { s with clusters := [(0, { Cluster.reset with wired := (List.range 7).map (fun i => (i + 1, false)) })]
           ctxs := s.ctxs ++ (List.range 7).map (fun i => (i + 1, { Ctx.reset with run := .stalled .gbar, gang := some 1 })) }
def isNext (o : Host.Outcome State Fault Refusal) : Bool := match o with | .next _ => true | _ => false
def okNext (o : Host.Outcome State Fault Refusal) : State := match o with | .next t => t | _ => State.reset
theorem next_okNext (o : Host.Outcome State Fault Refusal) (h : isNext o = true) : o = .next (okNext o) := by cases o <;> simp_all [isNext, okNext]
/-- The result of a translation, a check, a read. -/
def okOf {α : Type} (d : α) (r : Res (α × State)) : α := match r with | .ok (x, _) => x | .error _ => d
/-- No line is cached. -/
def noCache : State := modCore (at_ id id) 0 (fun k => { k with dcache := [] })
/-- A page that is only read, in the core's TLB. -/
def roLeaf : Word := 0xB800000040000000
def roPage : State :=
  modCore (at_ (g 11 0x40000000 id) id) 0 (fun k => { k with tlb := [tlb0, { page := 0x40000000, lsize := 30, leaf := roLeaf }] })
def tok (b l : Nat) (m : Mode) (h : Word) (r : List Word) : Token :=
  { base := b, lsize := l, mode := m, holder := h, lender := 0, opened := false, records := r, xfer := 0, acct := 0, taint := false, wr := false }
/-- Context 0 holds the blocks at 0x10000 and 0x14000, and a share of the one at 0x12000; g11 names context 1. -/
def withTokens (s : State) : State :=
  { s with tokens := [(0x10000, some (tok 0x10000 12 .exclusive (holderAgent 0) [])), (0x12000, some (tok 0x12000 12 .frozen (holderAgent 1) [holderAgent 0])),
                      (0x14000, some (tok 0x14000 12 .exclusive (holderAgent 0) [])), (0x15000, some (tok 0x15000 12 .exclusive (holderAgent 0) []))] }
def tokAt (s : State) (va : Nat) : Token := (tokenProbe s va).getD (tok 0 0 .commons 0 [])
def tokRegs : Ctx → Ctx := g 11 (holderAgent 1) (g 13 0x12000 (g 14 0x14000 (g 15 0x8000000000020000 id)))
def held : State := withTokens (at_ tokRegs (fun k => { k with tokenCache := [] }))
def heldH : State := withTokens (hand tokRegs (fun k => { k with tokenCache := [] }))
/-- An account with a free block. -/
def carved : State := { at_ id id with accounts := [(0, { quota := 16, charge := 0, pool := [(0x100000, 20)], recovery := none })] }
/-- Context 0 of an apex core issues. -/
def apex (f : Ctx → Ctx) : State :=
  { modCtx base 14832 (fun x => f { x with pc := 0x4000, run := .ready, regs := { x.regs with g := [(4, 7), (5, 3), (8, 0x10000), (9, 0x20000), (10, 0x30000)] } })
    with cur := 14832 }
def blockLine (i : Nat) : Line := { line0 with data := if i = 0 then 0x40000000000000000000000000000CFF00 else 0 }
/-- An apex core holds the block at 0x30000; context 16 is g12, context 24 is g16 and its origin g17. -/
def blocks (r : Run) : State :=
  let s := apex (fun x => { x with regs := { x.regs with g := [(10, 0x30000), (12, 16), (16, 24), (17, 16)] } })
  let lines := (List.range' 0 640).map (fun i => (0x1800 + i, some (blockLine i)))
  let s := modCore s 1854 (fun k => { k with tlb := [tlb0], tokenCache := [{ hit1 with base := 0x30000 }], dcache := lines })
  modCtx s 16 (fun x => { x with run := r })
/-- A context of the access core issues, with cluster state `k`. -/
def access (f : Ctx → Ctx) (k : Cluster → Cluster) : State :=
  modCluster { modCore (modCtx base 64 (fun x => f { x with
    pc := 0x4000, run := .ready, regs := { x.regs with g := [(4, 7), (5, 3), (8, 0x10000), (9, 0x20000), (10, 0x30000), (11, 0x40), (12, 0x10040)] } })) 8
      (fun y => { y with tlb := [tlb0], tokenCache := [hit1, hit2] }) with cur := 64 } 0 k
def job0 : Job := { id := 5, entry := 0x4000, arg0 := 1, arg1 := 2, submitter := 3, before := 0, seq := 0, code := 0, running := none, net := none }
def cl (k : Cluster → Cluster) (s : State) : State := modCluster s 0 k
def lat0 : LatJob := { jid := 7, wordA := 0x20001, wordB := 0, wordC := 0, mask := 0, maps := [], tables := [], members := [], accts := [], start := none, poison := false }
/-- Seven members stand at MGANG with the words of g8, g9, g4. -/
def sevenMore : State :=
  let s := cl (fun k => { k with arrivals := (List.range 7).map (fun i => (i + 1, [0x20001, 0, 0, 0, 0, 0])) }) (ganged (at_ (g 11 0x20001 id) id))
  { s with ctxs := s.ctxs ++ (List.range 7).map (fun i => (i + 1, { Ctx.reset with run := .stalled .mgang, gang := some 1 })) }
def tiled : State := at_ id (fun k => { k with tiles := [(0, 0x7F0380FF), (1, 0x55), (64, 3)] })
/-- One access of context 0 on its way. -/
def fl (id : Nat) (op : SliceOp) (wb : List Nat) : Flight Regs :=
  { id := id, ctx := 0, group := 0, path := 1, ordered := true, posted := false, slice := 0, cls := 0, ea := 0, op := op, wb := wb, done := false
    pc := 0x4000, undo := none, net := none, due := 0, back := 0, fault := none }
def flying (s : State) (op : SliceOp) : State := { s with flights := [fl 7 op []], nextId := 8 }
def isOk {α : Type} (r : Res (α × State)) : Bool := match r with | .ok _ => true | .error _ => false
theorem eq_okOf {α : Type} (d : α) (r : Res (α × State)) (h : isOk r = true) : r = .ok (okOf d r, okState r) := by
  cases r <;> simp_all [isOk, okOf, okState]
theorem jobNamed_done (k : Cluster) (w : Word) (h : k.jobs = []) (j : Job) : jobNamed k w ≠ some (j, false) := by
  unfold jobNamed; split <;> simp [h]
/-- A group's descriptor with its member list, cached, in a commons region. -/
def grp (w0 dest : Nat) : State :=
  let d := w0 + 0x20020 * 2 ^ 64 + dest * 2 ^ 192
  { at_ (g 11 3 id) (fun k => { k with dcache := [(4096, some { line0 with data := BitVec.ofNat 256 d, peeked := true }), (4097, some { line0 with data := 0x800000000, peeked := true })] })
    with tokens := [(0x20000, some (tok 0x20000 16 .commons 0 []))] }
def grp1 (w d : Nat) : State := okState (memRead (beginIssue (grp w d)) 0x20000 8 .peek)
def grp2 (w d : Nat) : State := okState (memRead (grp1 w d) 0x20008 8 .peek)
def grp3 (w d : Nat) : State := okState (memRead (grp2 w d) 0x20010 8 .peek)
def grp4 (w d : Nat) : State := okState (memRead (grp3 w d) 0x20018 8 .peek)
def grp5 (w d : Nat) : State := okState (readMembers (grp4 w d) 0x20020 2)
/-- Group 3 is open: kind 0 reduces, kind 1 sends. -/
def ge (kind n : Nat) : GroupEntry :=
  { state := 1, kind := kind, fmt := 5, op := 0, inflight := n, mlist := 0x20020, root := 8, dest := 0x20040, destPa := 0x20040, members := [0, 8], round := [] }
def inGroup (e : GroupEntry) (s : State) : State := { s with groups := [(3, e)] }
/-- Slice 0 holds the lines 0x100 and 0x200. -/
def inL2 (s : State) : State :=
  { s with slices := [(0, { Slice.reset with ways := [(0, [some { line := 0x200, valid := 0xFF, dirty := 0, rrpv := 0, owed := [] }, some { line := 0x100, valid := 0xFF, dirty := 0, rrpv := 0, owed := [] }])] })] }
/-- A request record with slot 7 in a state. -/
def record (st : Nat) : State := inL2 { base with mem := base.mem ++ [(0x20000, BitVec.ofNat 8 st), (0x20018, 7), (0x20024, 5)] }
def noteAt : State := flying (record 2) (.note 0x20000 9 7 3)
def fltAt : State := flying (record 3) (.flt 0x20000 0x42 7 3)
/-- An access stands at slice 0, which holds its lines. -/
def at7 (f : Flight Regs) (m : List Host.Cell) : State := inL2 { base with mem := base.mem ++ m, flights := [f], nextId := 8 }
def reached (s : State) (f : Flight Regs) : State := (reachAll s f).2
/-- The package-wide home slice of an address holds its line. -/
def l2At (s : State) (pa : Nat) : State :=
  setSlice s (homeSlice true 0 pa % 2048) { Slice.reset with ways := [(l2Set (pa / 256), [some { line := pa / 256, valid := 0xFF, dirty := 0, rrpv := 0, owed := [] }])] }
/-- A walk of context 0 stands at level l. -/
def walking (m : List Host.Cell) (va l table : Nat) : State :=
  l2At (modCtx { base with mem := m, clusters := [(0, { Cluster.reset with walks := [(0, va, l, table)] })] } 0 (fun x => { x with run := .stalled (.walk va) }))
    (entryAddr table l va)
def miss0 (sent : Bool) : State :=
  { base with slices := [(5, { Slice.reset with misses := [{ line := 0x200, sectors := 3, cls := 1, sent := sent, due := 0, joined := [] }], ways := [(0, [some { line := 0x200, valid := 4, dirty := 0, rrpv := 2, owed := [] }])] })] }
theorem eq_pair {α β : Type} (p : α × β) (a : α) (h : p.1 = a) : p = (a, p.2) := Prod.ext h rfl
/-- A message entry of core 0, posted at cycle 64. -/
def mf (p : MsgPhase) (m : Msg) : MsgFlight := { id := 7, home := .core 0, from_ := 0, phase := p, msg := m, due := 0, told := false, hops := 0 }
def post (f : MsgFlight) (k : Core → Core) : State := modCore { base with messages := [f], nextId := 8, cycle := 64 } 0 k
/-- A valid routine entry of a class. -/
def routineW (cls : Nat) : Word × Word := (0x4000, BitVec.ofNat 64 (2 ^ 63 + cls * 2 ^ 58 + 20 * 2 ^ 35))
def serves (cls : Nat) (k : Core) : Core := { k with routines := [(2, routineW cls)] }
def launch0 : Msg := { msg0 with cls := 27, dest := 5, payload := [0x4000, 8, 9, 3, 0, 0] }
def full (k : Core) : Core := { k with inbox := (List.range 60).map (fun i => { slot0 with index := i }) }
def allBusy (s : State) : State := (List.range 8).foldl (fun t c => modCtx t c (fun x => { x with run := .ready })) s
/-- A transfer of two lines from 0x20000 to 0x10000. -/
def bulk0 : Transfer := { id := 3, ctx := 64, pc := 0x4000, job := none, group := 0, due := 0, op := .bulk 0x10000 0x20000 2 false, step := 0, idx := [], got := [], barrier := 0, owed := [] }
def pair0 : PairRef := { first := 0x6000000000000005, second := 0x6000000000000006, radius := 2, seed := none, net := none }
def pairSlot (p : SlotPhase) (q : PairRef) : Slot := { slot0 with index := 4, phase := p, msg := { msg0 with cls := 31, pair := some q } }
/-- The home that a translation answers. -/
def translateTarget (s : State) (va : Nat) : Nat := match translateNow s va true with | .ok (_, h, _) => h | .error _ => 0
def graph0 : GraphRun := { die := 0, records := 0x30000, statuses := 0x40000, count := 3, acct := 7, nodes := [(0, { Node.reset with state := 1 })], faulted := none, live := true }
def withGraph (g : GraphRun) (l : List (Nat × Nat)) : State :=
  { l.foldl (fun t e => writeMem t e.1 (bytesOf e.2 8)) base with graphs := [(3, some g)], cycle := 200, nextId := 8 }
def nodeAt0 (x : Node) : GraphRun := { graph0 with nodes := [(0, x)] }
def gangW (g : Gang) (s : State) : State := { s with gangs := [(1, some g)] }
def gang8 : Gang := { gang0 with members := (List.range 8).map (fun i => (i, 8 * i)), started := false, lbudget := 12, arg := 77 }
/-- The home slice of an address of a page without package-wide homing holds its line. -/
def l2Of (s : State) (pa : Nat) : State :=
  setSlice s (homeSlice false 0 pa % 2048) { Slice.reset with ways := [(l2Set (pa / 256), [some { line := pa / 256, valid := 0xFF, dirty := 0, rrpv := 0, owed := [] }])] }
/-- The ring holds one command with operands. -/
def ring (op tag : Nat) (l : List Nat) : State :=
  hostWrite { base with hostOnline := true, host := { HostSide.reset with ringbase := 0x1000, evbase := 0x2000, ringtail := 1 } } 0x1000
    (((op + tag * 256) :: l).flatMap (fun x => bytesOf x 8))
def commons (s : State) : State := { s with tokens := [(0x20000, some { tok 0x20000 16 .commons 0 [] with acct := 9 })] }
def isAt (r : Res (Target × State)) (va pa : Nat) (leaf : Word) : Bool :=
  match r with | .ok (.phys a b l, _) => a == va && b == pa && l == leaf | _ => false
theorem eq_isAt (r : Res (Target × State)) (va pa : Nat) (leaf : Word) (h : isAt r va pa leaf = true) : r = .ok (.phys va pa leaf, okState r) := by
  unfold isAt at h; split at h <;> simp_all [okState]
/-- The result of an engine's translation. -/
def moved (r : Move (Target × State)) : State := match r with | .ok (_, t) => t | .error _ => State.reset
def isPhys (r : Move (Target × State)) (va pa : Nat) (leaf : Word) : Bool :=
  match r with | .ok (.phys a b l, _) => a == va && b == pa && l == leaf | _ => false
theorem eq_moved (r : Move (Target × State)) (va pa : Nat) (leaf : Word) (h : isPhys r va pa leaf = true) : r = .ok (.phys va pa leaf, moved r) := by
  unfold isPhys at h; split at h <;> simp_all [moved]
/-- The access core of cluster 0 has its page in its TLB. -/
def served (s : State) : State := modCore s 8 (fun k => { k with tlb := [tlb0] })
/-- Entry h of the rule table holds two words. -/
def ruleIs (s : State) (h w0 w1 : Nat) : Bool :=
  match translateNow s ((s.ruleBase + 16 * (h % 2 ^ s.ruleLog)) % 2 ^ 53) false with
  | .ok (pa, _, _) => !(anyPoison s pa 16) && readMem s pa 8 == w0 && readMem s (pa + 8) 8 == w1
  | .error _ => false
theorem ruleIs_at (s : State) (h w0 w1 : Nat) (e : ruleIs s h w0 w1 = true) : RuleAt s h w0 w1 := by
  unfold ruleIs at e
  split at e
  · rename_i pa home leaf ht
    simp only [Bool.and_eq_true, Bool.not_eq_true', beq_iff_eq] at e
    exact ⟨pa, home, leaf, ht, e.1.1, e.1.2, e.2⟩
  · simp at e
/-- A rule table of 256 entries: 7 holds a rule for other symbols. -/
def rules (m : List Host.Cell) : State :=
  { base with ruleBase := 0x50000, ruleLog := 8, mem := base.mem ++ [(0x50070, 1), (0x50074, 9), (0x50076, 9)] ++ m }
/-- Sixteen rules for other symbols. -/
def fullRules : State :=
  { base with ruleBase := 0x50000, ruleLog := 8, mem := base.mem ++ (List.range 16).flatMap (fun i => [(0x50070 + 16 * i, 1), (0x50074 + 16 * i, 9), (0x50076 + 16 * i, 9)]) }
def nextOk (s : State) (gi n : Nat) (g : GraphRun) : Bool :=
  decide (graphOf s gi = some g) && decide (gi < 64) && g.live && decide ((n, nodeOf g n) ∈ g.nodes) && decide ((nodeOf g n).state = 1) &&
    decide (nodeKind s g n = 0 ∨ nodeKind s g n = 1 ∨ nodeKind s g n = 5) &&
    (List.range 64).all (fun gj => match graphOf s gj with
      | some h => !h.live || h.die != g.die || h.nodes.all (fun e => e.2.state != 1 || decide (¬ (nodeKind s h e.1 = 0 ∨ nodeKind s h e.1 = 1 ∨ nodeKind s h e.1 = 5)) ||
          decide (n < e.1 ∨ (n = e.1 ∧ gi ≤ gj)))
      | none => true) &&
    (match (dieAt s g.die).lastStart with | some c => decide (c + 4 ≤ s.cycle) | none => true)
theorem next_ok (s : State) (gi n : Nat) (g : GraphRun) (e : nextOk s gi n g = true) : NextToStart s gi n g := by
  unfold nextOk at e
  simp only [Bool.and_eq_true, decide_eq_true_eq, List.all_eq_true, List.mem_range] at e
  obtain ⟨⟨⟨⟨⟨⟨⟨h1, h2⟩, h3⟩, h4⟩, h5⟩, h6⟩, h7⟩, h8⟩ := e
  refine ⟨⟨h1, h2, h3⟩, ⟨h4, h5⟩, h6, ?_, ?_⟩
  · intro gj h hj hg hl hd x hx hs hk
    have := h7 gj hj
    rw [hg] at this
    simp only [hl, hd, Bool.not_true, bne_self_eq_false, Bool.false_or, List.all_eq_true] at this
    have := this x hx
    simpa [hs, hk] using this
  · intro c hc
    rw [hc] at h8
    simpa using h8
def readOk (r : Move (BitVec 256 × State)) : Bool := match r with | .ok _ => true | .error _ => false
def readX (r : Move (BitVec 256 × State)) : BitVec 256 := match r with | .ok (x, _) => x | .error _ => 0
def readS (r : Move (BitVec 256 × State)) : State := match r with | .ok (_, t) => t | .error _ => State.reset
theorem eq_read (r : Move (BitVec 256 × State)) (h : readOk r = true) : r = .ok (readX r, readS r) := by
  cases r <;> simp_all [readOk, readX, readS]
def writesAt (s : State) (v id : Nat) (ea : Word) (pd : Nat) : Bool :=
  match enginePlace s v ea true with
  | .ok (.phys _ p l, w) => p == pd && !(cxlGone w pd) && (List.range 32).all (fun i => !(barsWrite w (leafClass l) (pd + i))) &&
      (reachL2 w (.engine v id) (leafSlice l pd) pd 32 (leafClass l) true).1
  | _ => false
theorem writes_at (s : State) (v id : Nat) (ea : Word) (pd : Nat) (h : writesAt s v id ea pd = true) : EngineWrites s v id ea pd := by
  unfold writesAt at h
  split at h
  · rename_i a p l w he
    simp only [Bool.and_eq_true, beq_iff_eq, Bool.not_eq_true', List.all_eq_true, List.mem_range] at h
    obtain ⟨⟨⟨rfl, h2⟩, h3⟩, h4⟩ := h
    exact ⟨a, l, w, he, h2, h3, h4⟩
  · simp at h
/-- Slices hold the lines of some addresses. -/
def lines (s : State) (l : List Nat) : State :=
  l.foldl (fun t pa => setSlice t (leafSlice leafT pa) { Slice.reset with ways := [(l2Set (pa / 256), [some { line := pa / 256, valid := 0xFF, dirty := 0, rrpv := 0, owed := [] }])] }) s
/-- One transfer stands at the engine of cluster 0, and its lines are at their slices. -/
def turn (y : Transfer) (m : List Host.Cell) : State :=
  lines (modCore { modCluster base 0 (fun k => { k with transfers := [y], engine := (0, 0) }) with
    cycle := 8, mem := base.mem ++ m
    tokens := [(0x10000, some (tok 0x10000 16 .commons 0 [])), (0x20000, some (tok 0x20000 16 .commons 0 []))] } 8 (fun k => { k with tlb := [tlb0] })) [0x10000, 0x20000]
def tr0 (op : EngineOp) (step : Nat) (idx : List Nat) (got : List (Word × BitVec 256)) : Transfer :=
  { id := 3, ctx := 64, pc := 0x4000, job := none, group := 0, due := 0, op := op, step := step, idx := idx, got := got, barrier := 0, owed := [] }

open Sys2Proof.Tests

/-! ### Words of the spec's encoding tables (Tables 15-1 to 15-3), by family -/

theorem test_decode_scalar :
    decode 0x010C414000000000 = .ok (.add { s := 0, d := 3, a := 4, b := 5, c := 0, md := 0 }) ∧
    decode 0x810C414000030000 = .ok (.add { s := 1, d := 3, a := 4, b := 5, c := 0, md := 3 }) ∧
    decode 0x021C010012345678 = .ok (.movi { s := 0, d := 7, a := 0, md := 0, imm := 0x12345678 }) := by decide +kernel

theorem test_decode_control :
    decode 0xA0084140FFFFFFFD = .ok (.br { s := 1, cl := 2, a := 4, b := 5, woff := 0xFFFFFFFD }) ∧
    decode 0xA0004004FFFFFFFF = .ok (.loop { s := 1, cl := 0, a := 4, b := 0, woff := 0xFFFFFFFF }) ∧
    decode 0xA150900000000000 = .ok (.jr { s := 1, d := 20, a := 9, b := 0, c := 0, md := 0 }) ∧
    decode 0xA200000000000000 = .ok (.hret { s := 1, d := 0, a := 0, b := 0, c := 0, imm := 0 }) ∧
    decode 0x2200000000060001 = .ok (.gbar { s := 0, d := 0, a := 0, b := 0, c := 0, imm := 1 }) ∧
    decode 0x2F00000000000000 = .ok (.nop { s := 0, d := 0, a := 0, b := 0, c := 0, imm := 0 }) := by decide +kernel

theorem test_decode_memory :
    decode 0xB00CB00605000000 = .ok (.ldP { s := 1, d := 3, a := 11, b := 0, scale := 0, width := 3, kind := 0, offset := 0 }) ∧
    decode 0x3014A00601000000 = .ok (.st { s := 0, d := 5, a := 10, b := 0, scale := 0, width := 3, kind := 0, offset := 0 }) ∧
    decode 0x3010900A02000040 = .ok (.ldv { s := 0, d := 4, a := 9, b := 0, scale := 0, width := 5, kind := 0, offset := 0x40 }) ∧
    decode 0xB000A00009000000 = .ok (.acq { s := 1, d := 0, a := 10, b := 0, scale := 0, width := 0, kind := 0, offset := 0 }) ∧
    decode 0x320CF00600000000 = .ok (.sts { s := 0, d := 3, a := 15, b := 0, scale := 0, width := 3, kind := 0, offset := 0 }) ∧
    decode 0xB100000000000204 = .ok (.fence { s := 1, d := 0, a := 0, b := 0, c := 0, imm := 0x204 }) := by decide +kernel

theorem test_decode_slice :
    decode 0x321CA207C2000000 = .ok (.slop { s := 0, d := 7, a := 10, b := 8, scale := 0, width := 3, kind := 7, offset := 0 }) ∧
    decode 0x3200420602000000 = .ok (.slop { s := 0, d := 0, a := 4, b := 8, scale := 0, width := 3, kind := 0, offset := 0 }) ∧
    decode 0xB219400643000000 = .ok (.cmls { s := 1, d := 6, a := 20, b := 0, scale := 0, width := 3, kind := 1, offset := 0 }) := by decide +kernel

theorem test_decode_token :
    decode 0xB300A30000000000 = .ok (.tklend { s := 1, d := 0, a := 10, b := 12, c := 0, md := 0 }) ∧
    decode 0x330C000007100000 = .ok (.tkcarve { s := 0, d := 3, a := 0, b := 0, c := 0, md := 16 }) := by decide +kernel

theorem test_decode_vector :
    decode 0x4000631313403000 = .ok (.vfma { s := 0, d := 0, a := 6, b := 12, c := 19, pred := 0, hold := 4, fmt := 13, rnd := 0, limm := 0 }) ∧
    decode 0x4108414003400002 = .ok (.vcmp { s := 0, d := 2, a := 4, b := 5, c := 0, pred := 0, hold := 0, fmt := 13, rnd := 0, limm := 2 }) ∧
    decode 0x422040000288000D = .ok (.vcvt { s := 0, d := 8, a := 4, b := 0, c := 0, pred := 0, hold := 0, fmt := 10, rnd := 1, limm := 13 }) ∧
    decode 0xC21000000110000D = .ok (.vcvt { s := 1, d := 4, a := 0, b := 0, c := 0, pred := 0, hold := 0, fmt := 4, rnd := 2, limm := 13 }) := by decide +kernel

theorem test_decode_message :
    decode 0x610C428000000005 = .ok (.send { s := 0, d := 3, a := 4, b := 10, c := 0, imm := 5 }) ∧
    decode 0x6114928000000005 = .ok (.send { s := 0, d := 5, a := 9, b := 10, c := 0, imm := 5 }) ∧
    decode 0x6100000000010000 = .ok (.mrel { s := 0, d := 0, a := 0, b := 0, c := 0, imm := 0 }) ∧
    decode 0x6300700000000000 = .ok (.nput { s := 0, d := 0, a := 7, b := 0, c := 0, imm := 0 }) := by decide +kernel

theorem test_decode_cell :
    decode 0x600C414600000001 = .ok (.cnew { s := 0, d := 3, a := 4, b := 5, c := 6, imm := 1 }) ∧
    decode 0x6000414000030000 = .ok (.link { s := 0, d := 0, a := 4, b := 5, c := 0, imm := 0 }) ∧
    decode 0x601C900000040000 = .ok (.cxld { s := 0, d := 7, a := 9, b := 0, c := 0, imm := 0 }) := by decide +kernel

theorem test_decode_system :
    decode 0x7E2C004100000000 = .ok (.srd { s := 0, d := 11, a := 0, sreg := 0x41, imm := 0 }) ∧
    decode 0x7E00500401000000 = .ok (.swr { s := 0, d := 0, a := 5, sreg := 4, imm := 0 }) ∧
    decode 0xFE00000002000042 = .ok (.trap { s := 1, d := 0, a := 0, sreg := 0, imm := 0x42 }) ∧
    decode 0x7E30A00003000000 = .ok (.ctxsave { s := 0, d := 12, a := 10, sreg := 0, imm := 0 }) ∧
    decode 0x7E30A00004000001 = .ok (.ctxrest { s := 0, d := 12, a := 10, sreg := 0, imm := 1 }) ∧
    decode 0x7E00000005000018 = .ok (.vgrow { s := 0, d := 0, a := 0, sreg := 0, imm := 24 }) ∧
    decode 0x7E00900008000010 = .ok (.i4tab { s := 0, d := 0, a := 9, sreg := 0, imm := 16 }) := by decide +kernel

theorem test_decode_lattice :
    decode 0x700CA2CC00010000 = .ok (.mgang { s := 0, d := 3, a := 10, b := 11, c := 12, imm := 0 }) ∧
    decode 0xF025060000010000 = .ok (.mgang { s := 1, d := 9, a := 16, b := 24, c := 0, imm := 0 }) ∧
    decode 0x701020000000013A = .ok (.mstat { s := 0, d := 4, a := 2, b := 0, c := 0, imm := 0x13A }) ∧
    decode 0x700050010004000D = .ok (.memit { s := 0, d := 0, a := 5, b := 0, c := 1, imm := 13 }) := by decide +kernel

theorem test_decode_engine :
    decode 0x790041460000003F = .ok (.tload { s := 0, d := 0, a := 4, b := 5, c := 6, imm := 63 }) ∧
    decode 0x7825455600000000 = .ok (.job { s := 0, d := 9, a := 20, b := 21, c := 22, imm := 0 }) := by decide +kernel

theorem test_decode_service :
    decode 0x7B0CA2CC00000000 = .ok (.rqnote { s := 0, d := 3, a := 10, b := 11, c := 12, imm := 0 }) ∧
    decode 0x7C00500000010000 = .ok (.grsig { s := 0, d := 0, a := 5, b := 0, c := 0, imm := 0 }) := by decide +kernel

/-! ### Terms that are not well formed, one for each check (R226, R233) -/

def mkA (s d a b c md : Nat) : OpA := { s := BitVec.ofNat 1 s, d := BitVec.ofNat 6 d, a := BitVec.ofNat 6 a, b := BitVec.ofNat 6 b, c := BitVec.ofNat 6 c, md := BitVec.ofNat 8 md }
def mkI (s d a md imm : Nat) : OpI := { s := BitVec.ofNat 1 s, d := BitVec.ofNat 6 d, a := BitVec.ofNat 6 a, md := BitVec.ofNat 8 md, imm := BitVec.ofNat 32 imm }
def mkM (s d a b scale width kind offset : Nat) : OpM :=
  { s := BitVec.ofNat 1 s, d := BitVec.ofNat 6 d, a := BitVec.ofNat 6 a, b := BitVec.ofNat 6 b, scale := BitVec.ofNat 2 scale, width := BitVec.ofNat 3 width, kind := BitVec.ofNat 3 kind, offset := BitVec.ofNat 24 offset }
def mkB (s cl a b woff : Nat) : OpB := { s := BitVec.ofNat 1 s, cl := BitVec.ofNat 6 cl, a := BitVec.ofNat 6 a, b := BitVec.ofNat 6 b, woff := BitVec.ofNat 32 woff }
def mkV (s d a b c pred hold fmt rnd limm : Nat) : OpV :=
  { s := BitVec.ofNat 1 s, d := BitVec.ofNat 6 d, a := BitVec.ofNat 6 a, b := BitVec.ofNat 6 b, c := BitVec.ofNat 6 c, pred := BitVec.ofNat 3 pred, hold := BitVec.ofNat 3 hold, fmt := BitVec.ofNat 4 fmt, rnd := BitVec.ofNat 3 rnd, limm := BitVec.ofNat 12 limm }
def mkE (s d a b c imm : Nat) : OpE := { s := BitVec.ofNat 1 s, d := BitVec.ofNat 6 d, a := BitVec.ofNat 6 a, b := BitVec.ofNat 6 b, c := BitVec.ofNat 6 c, imm := BitVec.ofNat 16 imm }
def mkS (s d a sreg imm : Nat) : OpS := { s := BitVec.ofNat 1 s, d := BitVec.ofNat 6 d, a := BitVec.ofNat 6 a, sreg := BitVec.ofNat 12 sreg, imm := BitVec.ofNat 24 imm }

def illFormed_scalar : List Instr :=
  ([Instr.add (mkA 0 0 0 0 1 0), Instr.add (mkA 0 0 0 0 0 4), Instr.sub (mkA 0 0 0 0 0 8),
    Instr.mulh (mkA 0 0 0 0 0 2), Instr.div (mkA 0 0 0 0 1 0), Instr.and (mkA 0 0 0 0 0 1),
    Instr.shl (mkA 0 0 0 0 0 2), Instr.sel (mkA 0 0 0 0 0 1), Instr.cmp (mkA 0 0 0 0 0 96),
    Instr.cmp (mkA 0 0 0 0 0 2), Instr.cmp (mkA 0 0 0 0 0 8), Instr.clz (mkA 0 0 0 1 0 0),
    Instr.clz (mkA 0 0 0 0 0 2), Instr.sext (mkA 0 0 0 0 0 8), Instr.sext (mkA 0 0 0 0 0 3),
    Instr.bfx (mkA 0 0 0 0 0 1), Instr.bfx (mkA 0 0 0 60 10 0), Instr.bfi (mkA 0 0 0 0 0 4)] : List Instr) ++
  ([Instr.bfi (mkA 0 0 0 63 1 0), Instr.lea (mkA 0 0 0 0 0 4), Instr.addi (mkI 0 0 0 2 0),
    Instr.movi (mkI 0 0 1 0 0), Instr.movi (mkI 0 0 0 1 0), Instr.movhi (mkI 0 0 0 1 0)] : List Instr)
theorem test_illFormed_scalar : ∀ i ∈ illFormed_scalar, ¬i.WellFormed := by decide +kernel

def illFormed_control : List Instr :=
  ([Instr.jr (mkA 0 0 0 1 0 0), Instr.jr (mkA 0 0 0 0 0 1), Instr.ret (mkA 0 1 0 0 0 0),
    Instr.br (mkB 0 10 0 0 0), Instr.brz (mkB 0 2 0 0 0), Instr.brz (mkB 0 0 0 1 0),
    Instr.jmp (mkB 0 0 1 0 0), Instr.call (mkB 0 0 1 0 0), Instr.loop (mkB 0 1 0 0 0),
    Instr.loop (mkB 0 0 0 1 0), Instr.fork (mkB 0 1 0 0 0), Instr.hret (mkE 0 1 0 0 0 0),
    Instr.habort (mkE 0 0 0 0 0 1), Instr.gyield (mkE 0 0 1 0 0 0), Instr.nop (mkE 0 0 0 0 0 1),
    Instr.hold (mkE 0 0 0 1 0 0), Instr.release (mkE 0 0 0 0 1 0), Instr.yield (mkE 0 1 0 0 0 0)] : List Instr) ++
  ([Instr.gbar (mkE 0 0 0 0 0 2), Instr.fence (mkE 0 0 0 0 0 0x20), Instr.fence (mkE 0 0 0 0 0 0x2000),
    Instr.fence (mkE 0 1 0 0 0 0)] : List Instr)
theorem test_illFormed_control : ∀ i ∈ illFormed_control, ¬i.WellFormed := by decide +kernel

def illFormed_token : List Instr :=
  ([Instr.tklend (mkA 0 0 0 0 1 0), Instr.tklend (mkA 0 1 0 0 0 0), Instr.tkshare (mkA 0 0 0 0 0 1),
    Instr.tkret (mkA 0 0 0 1 0 0), Instr.tkdrop (mkA 0 1 0 0 0 0), Instr.tkclean (mkA 0 0 0 0 0 1),
    Instr.tksplit (mkA 0 0 0 1 0 0), Instr.tkjoin (mkA 0 0 0 0 1 0), Instr.tkclaim (mkA 0 0 0 0 0 1),
    Instr.tkpark (mkA 0 0 0 0 0 2), Instr.tkpark (mkA 0 1 0 0 0 0), Instr.tkcarve (mkA 0 0 0 0 0 7),
    Instr.tkcarve (mkA 0 0 0 0 0 41), Instr.tkcarve (mkA 0 0 0 0 0 80), Instr.tkcarve (mkA 0 0 1 0 0 16),
    Instr.tkstat (mkA 0 0 0 0 0 0), Instr.tkstat (mkA 0 61 0 0 0 0), Instr.tkstat (mkA 0 1 0 0 0 1)] : List Instr)
theorem test_illFormed_token : ∀ i ∈ illFormed_token, ¬i.WellFormed := by decide +kernel

def illFormed_memory : List Instr :=
  ([Instr.ld (mkM 0 0 0 0 0 4 0 0), Instr.ld (mkM 0 0 0 0 0 0 2 0), Instr.ld (mkM 0 0 0 0 0 3 1 0),
    Instr.ldP (mkM 0 0 0 0 0 5 0 0), Instr.st (mkM 0 0 0 0 0 4 0 0), Instr.st (mkM 0 0 0 0 0 0 1 0),
    Instr.ldt (mkM 0 0 0 0 0 0 2 0), Instr.ldt (mkM 0 0 0 0 0 4 0 0), Instr.pref (mkM 0 1 0 0 0 0 0 0),
    Instr.pref (mkM 0 0 0 0 0 1 0 0), Instr.pref (mkM 0 0 0 0 0 0 2 0), Instr.flush (mkM 0 0 0 1 0 0 0 0),
    Instr.flush (mkM 0 0 0 0 0 0 0 0x80000), Instr.flush (mkM 0 0 0 0 0 0 2 0), Instr.acq (mkM 0 0 0 0 0 0 1 0),
    Instr.acq (mkM 0 0 0 0 1 0 0 0), Instr.ldv (mkM 0 52 0 0 0 5 0 0), Instr.ldv (mkM 0 0 0 0 0 3 0 0)] : List Instr) ++
  ([Instr.stv (mkM 0 0 0 0 0 5 1 0), Instr.lds (mkM 0 0 0 0 0 3 0 0), Instr.lds (mkM 0 48 0 0 0 1 0 0),
    Instr.lds (mkM 0 0 0 0 0 1 1 0), Instr.sts (mkM 0 0 0 0 0 4 0 0), Instr.stsA (mkM 0 52 0 0 0 5 0 0),
    Instr.slop (mkM 0 0 0 0 0 1 0 0), Instr.slop (mkM 0 0 0 0 1 2 0 0), Instr.cmls (mkM 0 0 1 0 0 3 4 0),
    Instr.cmls (mkM 0 0 1 0 0 2 0 0), Instr.cmls (mkM 0 0 0 0 0 3 0 0), Instr.cmls (mkM 0 0 63 0 0 3 0 0),
    Instr.cmls (mkM 0 0 1 0 0 3 0 1), Instr.agg (mkM 0 0 0 0 0 2 0 0), Instr.agg (mkM 0 1 0 0 0 3 0 0),
    Instr.agg (mkM 0 0 0 0 1 3 0 0)] : List Instr)
theorem test_illFormed_memory : ∀ i ∈ illFormed_memory, ¬i.WellFormed := by decide +kernel

def illFormed_vector : List Instr :=
  ([Instr.vadd (mkV 0 0 0 0 0 0 0 1 0 0), Instr.vadd (mkV 0 0 0 0 0 0 0 13 6 0), Instr.vadd (mkV 0 0 0 0 0 0 0 13 0 1),
    Instr.vadd (mkV 0 0 0 0 0 0 0 4 1 0), Instr.vadd (mkV 0 0 0 0 0 0 0 4 0 2), Instr.vadd (mkV 0 52 0 0 0 0 0 4 0 0),
    Instr.vadd (mkV 0 48 0 0 0 1 0 4 0 0), Instr.vadd (mkV 0 0 48 0 0 0 4 4 0 0), Instr.vadd (mkV 0 0 0 52 0 0 0 4 0 0),
    Instr.vadd (mkV 0 0 0 0 1 0 0 4 0 0), Instr.vadd (mkV 0 0 0 0 0 0 1 4 0 0), Instr.vfma (mkV 0 0 0 0 52 0 0 4 0 0),
    Instr.vdot (mkV 0 0 0 0 0 0 0 4 0 0), Instr.vmin (mkV 0 0 0 0 0 0 0 4 0 1), Instr.vperm (mkV 0 0 0 0 0 0 0 13 1 0),
    Instr.vabs (mkV 0 0 0 0 0 0 0 13 0 1), Instr.vneg (mkV 0 0 0 1 0 0 0 4 0 0), Instr.vcmp (mkV 0 8 0 0 0 0 0 4 0 0)] : List Instr) ++
  ([Instr.vcmp (mkV 0 0 0 0 0 0 0 4 0 6), Instr.vcmp (mkV 0 0 0 0 0 0 0 13 0 8), Instr.vsel (mkV 0 0 0 0 0 0 0 4 0 1),
    Instr.vsel (mkV 0 52 0 0 0 0 0 4 0 0), Instr.vcvt (mkV 0 0 0 0 0 0 0 6 0 13), Instr.vcvt (mkV 0 0 0 0 0 0 0 13 0 6),
    Instr.vcvt (mkV 0 0 0 0 0 0 0 13 0 0x40D), Instr.vcvt (mkV 0 0 0 0 0 0 0 13 0 0x1D), Instr.vcvt (mkV 0 0 0 0 0 0 0 13 0 0x8D),
    Instr.vcvt (mkV 0 0 0 0 0 0 0 8 1 13), Instr.vcvt (mkV 0 0 0 0 0 0 0 13 6 4), Instr.vred (mkV 0 0 0 0 0 0 0 4 0 6),
    Instr.vred (mkV 0 0 0 0 0 0 0 13 0 8), Instr.vred (mkV 0 0 0 0 0 0 0 4 0 16), Instr.vred (mkV 0 0 0 0 0 0 0 4 1 0),
    Instr.vbcast (mkV 0 0 0 0 0 0 0 4 0 16), Instr.vbcast (mkV 0 0 0 0 0 0 0 4 0 2049), Instr.vbcast (mkV 0 0 0 1 0 0 0 4 0 0)] : List Instr) ++
  ([Instr.vmov (mkV 0 0 0 0 0 0 0 4 0 2064), Instr.vmov (mkV 0 0 0 0 0 0 0 4 0 1), Instr.vmov (mkV 0 0 0 0 0 1 0 4 0 2048),
    Instr.viota (mkV 0 0 0 0 0 0 0 13 0 0), Instr.viota (mkV 0 0 0 0 0 0 0 4 0 256), Instr.vshl (mkV 0 0 0 0 0 0 0 13 0 0),
    Instr.vshr (mkV 0 0 0 0 0 0 0 4 0 2080), Instr.vshl (mkV 0 0 0 0 0 0 0 4 0 1), Instr.vshr (mkV 0 0 0 1 0 0 0 4 0 2048),
    Instr.vrcp (mkV 0 0 0 0 0 0 0 4 0 0), Instr.vrsq (mkV 0 0 0 1 0 0 0 13 0 0), Instr.vexp2 (mkV 0 0 0 0 0 0 0 13 0 1),
    Instr.vlog2 (mkV 0 0 0 0 0 0 0 13 6 0), Instr.pand (mkV 0 0 0 0 1 0 0 0 0 0), Instr.por (mkV 0 0 8 0 0 0 0 0 0 0),
    Instr.pand (mkV 0 0 0 0 0 0 0 0 0 1), Instr.pnot (mkV 0 0 0 1 0 0 0 0 0 0), Instr.pmov (mkV 0 0 0 0 0 0 0 0 0 3)] : List Instr) ++
  ([Instr.pmov (mkV 0 8 0 0 0 0 0 0 0 0), Instr.pmov (mkV 0 0 8 0 0 0 0 0 0 0)] : List Instr)
theorem test_illFormed_vector : ∀ i ∈ illFormed_vector, ¬i.WellFormed := by decide +kernel

def illFormed_message : List Instr :=
  ([Instr.cnew (mkE 0 0 0 0 0 32), Instr.cset (mkE 0 0 0 0 0 4), Instr.cset (mkE 0 1 0 0 0 0),
    Instr.wnew (mkE 0 0 0 0 0 16), Instr.wnew (mkE 0 0 1 0 0 0), Instr.link (mkE 0 0 0 0 0 1),
    Instr.cxld (mkE 0 0 0 1 0 0), Instr.cgrab (mkE 0 0 0 0 0 1024), Instr.cgrab (mkE 0 0 0 0 1 0),
    Instr.send (mkE 0 0 0 0 0 26), Instr.send (mkE 0 0 0 0 0 28), Instr.send (mkE 0 0 0 59 0 1),
    Instr.send (mkE 0 0 0 0 0 33), Instr.send (mkE 0 0 0 0 1 1), Instr.chopen (mkE 0 1 0 0 0 0),
    Instr.chput (mkE 0 0 52 0 0 0), Instr.chget (mkE 0 48 0 0 0 0), Instr.nput (mkE 0 0 0 0 0 4)] : List Instr) ++
  ([Instr.chclose (mkE 0 0 1 0 0 0), Instr.mrel (mkE 0 0 0 0 0 1)] : List Instr)
theorem test_illFormed_message : ∀ i ∈ illFormed_message, ¬i.WellFormed := by decide +kernel

def illFormed_unit : List Instr :=
  ([Instr.mstat (mkE 0 0 8 0 0 0), Instr.mstat (mkE 0 0 0 0 0 0x190), Instr.mstat (mkE 0 0 0 0 0 1),
    Instr.mgang (mkE 0 0 0 0 0 1), Instr.mwait (mkE 0 0 0 1 0 0), Instr.memit (mkE 0 0 0 0 0 1),
    Instr.memit (mkE 0 0 0 48 0 13), Instr.ald (mkE 0 8 0 0 0 0), Instr.ald (mkE 0 0 0 0 0 32),
    Instr.ast (mkE 0 0 0 0 0 64), Instr.mzero (mkE 0 0 0 0 0 512), Instr.mterm (mkE 0 0 0 0 0 5),
    Instr.job (mkE 0 0 0 0 0 1), Instr.jnext (mkE 0 0 0 0 0 0), Instr.jnext (mkE 0 60 0 0 0 0),
    Instr.jdone (mkE 0 0 0 0 0 256), Instr.jpoll (mkE 0 0 0 0 1 0), Instr.tload (mkE 0 1 0 0 0 0)] : List Instr) ++
  ([Instr.bulk (mkE 0 1 0 0 0 0), Instr.bulk (mkE 0 0 0 0 1 1), Instr.gather (mkE 0 0 0 0 0 1),
    Instr.gather (mkE 0 0 0 0 0 0x8004), Instr.scatter (mkE 0 0 0 0 0 1), Instr.qpush (mkE 0 0 0 0 0 0x80),
    Instr.qpush (mkE 0 0 0 0 0 512), Instr.boqp (mkE 0 0 0 0 0 8), Instr.broq (mkE 0 0 0 0 0 0),
    Instr.broq (mkE 1 0 0 0 8 0), Instr.bari (mkE 0 0 0 0 0 1), Instr.waitb (mkE 0 0 0 0 0 1)] : List Instr)
theorem test_illFormed_unit : ∀ i ∈ illFormed_unit, ¬i.WellFormed := by decide +kernel

def illFormed_system : List Instr :=
  ([Instr.gopen (mkE 0 1 0 0 0 0), Instr.gsend (mkE 0 0 0 1 0 24), Instr.gsend (mkE 0 0 0 0 0 0),
    Instr.gsend (mkE 0 0 0 59 0 0), Instr.gdrain (mkE 0 0 0 1 0 0), Instr.grsig (mkE 0 0 0 0 0 1),
    Instr.gred (mkE 0 0 0 0 1 0), Instr.rqnote (mkE 0 0 0 0 0 1), Instr.rqslot (mkE 0 0 0 0 0 0),
    Instr.rqslot (mkE 0 61 0 0 0 0), Instr.grlaunch (mkE 0 0 0 0 0 4096), Instr.srd (mkS 0 0 1 0 0),
    Instr.swr (mkS 0 1 0 0 0), Instr.trap (mkS 0 0 0 0 256), Instr.trap (mkS 0 0 0 1 0),
    Instr.ctxsave (mkS 0 0 0 0 1), Instr.ctxrest (mkS 0 0 0 0 0), Instr.ctxrest (mkS 0 1 0 0 2)] : List Instr) ++
  ([Instr.vgrow (mkS 0 0 0 0 5), Instr.vgrow (mkS 0 0 0 0 54), Instr.vshrink (mkS 0 0 0 0 7),
    Instr.wdog (mkS 0 1 0 0 0), Instr.i4tab (mkS 0 0 0 1 0)] : List Instr)
theorem test_illFormed_system : ∀ i ∈ illFormed_system, ¬i.WellFormed := by decide +kernel

/-! ### Values that the spec works out (R60, R68, R99, R246, R248, R272, R278) -/

/-- The state after one instruction of context 0 whose registers f sets. -/
def after (i : Instr) (f : Ctx → Ctx) : State := okNext (exec i (at_ f id))

theorem test_add_word_saturates : rg (after (.add (mkA 0 3 4 5 0 3)) (g 4 0x7FFFFFF0 (g 5 0x20 id))) 0 3 = 0x7FFFFFFF ∧
    rg (after (.add (mkA 0 3 4 5 0 1)) (g 4 0x7FFFFFF0 (g 5 0x20 id))) 0 3 = 0xFFFFFFFF80000010 := by decide +kernel

theorem test_div_by_zero : rg (after (.div (mkA 0 3 4 0 0 4)) id) 0 3 = 0xFFFFFFFFFFFFFFFF := by decide +kernel

theorem test_movhi_keeps_low_half : rg (after (.movhi (mkI 0 7 7 0 0x1F00)) (g 7 0xDEADBEEF id)) 0 7 = 0x1F00DEADBEEF := by decide +kernel

theorem test_home_slice : homeSlice true 0 0x320000100 = 0x40D ∧ homeSlice false 0 0x320000100 = 0x00D := by decide +kernel

theorem test_vcvt_t8 : let t := after (.vcvt (mkV 0 8 4 0 0 0 0 10 1 13)) (v 4 0x7FC0000000000000C59C4000439600003F8000003F570A3D (v 8 0x1122334400000000000000000000000000000099 id))
    rv t 0 8 = 0x11223344000000000000000000008000FF7C403B ∧ (ctxOf t 0).regs.flags = 5 := by decide +kernel

theorem test_vred_tree : let s := v 3 0x3380000033800000338000003F800000 id
    rv (after (.vred (mkV 0 9 3 0 0 0 0 13 1 0)) s) 0 9 = 0x3F800001 ∧ (ctxOf (after (.vred (mkV 0 9 3 0 0 0 0 13 1 0)) s) 0).regs.flags = 1 := by decide +kernel

theorem test_vrcp_of_subnormal : let t := after (.vrcp (mkV 0 9 3 0 0 0 0 13 1 0)) (v 3 0x3F8000003F8000003F8000003F8000003F8000003F8000003F8000003F8000003F8000003F8000003F8000003F8000003F8000003F8000003F80000000000001 id)
    lane (rv t 0 9) 32 0 = 0x7F800000 ∧ lane (rv t 0 9) 32 1 = 0x3F800000 ∧ (ctxOf t 0).regs.flags = 5 := by decide +kernel

/-! ### What the control blocks of CTXREST need -/

/-- A core with one page and one region cached stays as it is when they are used. -/
theorem setCore_same (s : State) (k : Nat) (x : Core) (hs : s.cores = [(k, x)]) (hx : x ≠ Core.reset) : setCore s k x = s := by
  unfold setCore sput; rw [if_neg hx, hs]; simp only [sins, if_true]; cases s; simp_all
theorem coreAt_one (s : State) (k : Nat) (x : Core) (hs : s.cores = [(k, x)]) : coreAt s k = x := by simp [coreAt, hs, sget]
/-- What the blocks' core is used with. -/
structure Cached (s : State) (x : Core) : Prop where
  cores : s.cores = [(coreOf s.cur, x)]
  tlb : x.tlb = [tlb0]
  tok : ∃ h, x.tokenCache = [h] ∧ h = { hit1 with base := 0x30000 }
  cur : s.cur = 14832
  flights : s.flights = []
  device : s.device = 0
  tokens : s.tokens = []
  fails : (ctxOf s s.cur).walkFails = [] ∧ (ctxOf s s.cur).tokenFails = []
theorem Cached.ne {s : State} {x : Core} (h : Cached s x) : x ≠ Core.reset := by
  intro hx; have := h.tlb; rw [hx] at this; cases this
theorem translate_same {s : State} {x : Core} (h : Cached s x) (i : Nat) (hi : i < 80) (p : Perm) :
    translate s (0x30000 + BitVec.ofNat 64 (256 * i)) p = .ok (.phys (0x30000 + 256 * i) (0x30000 + 256 * i) leafT, s) := by
  have ha : ((0x30000 : Word) + BitVec.ofNat 64 (256 * i)).toNat = 0x30000 + 256 * i := by
    rw [BitVec.toNat_add, BitVec.toNat_ofNat, show (0x30000 : Word).toNat = 0x30000 from rfl]; omega
  have hm : (0x30000 + 256 * i) % 2 ^ 53 = 0x30000 + 256 * i := by omega
  have hd : (0x30000 + 256 * i) / 2 ^ 53 = 0 := by omega
  have hf : tlbFind [tlb0] (0x30000 + 256 * i) = some tlb0 := by
    unfold tlbFind; simp [tlb0]; omega
  have hx := coreAt_one _ _ _ h.cores
  have hu : tlbUse x.tlb tlb0 = x.tlb := by rw [h.tlb]; decide
  have hl : tlbLookup s (coreOf s.cur) (0x30000 + 256 * i) = some (tlb0, 0, s) := by
    unfold tlbLookup; rw [hx, h.tlb, hf]
    simp only [modCore, hx, hu]
    rw [show ({ x with tlb := x.tlb } : Core) = x from rfl, setCore_same _ _ _ h.cores h.ne]
  have hp : leafPa tlb0.page (0x30000 + 256 * i) tlb0.leaf = 0x30000 + 256 * i := by
    unfold leafPa; rw [show bits tlb0.leaf.toNat 43 8 * 256 = 0 from by decide]; simp [tlb0]
  have hal : allows p tlb0.leaf = true := by cases p <;> decide
  unfold Machine.translate
  simp only [ha, hm, hd, h.device, h.fails.1, hl, hal, hp]
  simp [tlb0, addLate]; omega
theorem tokenCheck_same {s : State} {x : Core} (h : Cached s x) (i : Nat) (hi : i < 80) (u : TokenUse) :
    tokenCheck s (0x30000 + BitVec.ofNat 64 (256 * i)) u 0 = .ok (.exclusive, s) := by
  have ha : ((0x30000 : Word) + BitVec.ofNat 64 (256 * i)).toNat = 0x30000 + 256 * i := by
    rw [BitVec.toNat_add, BitVec.toNat_ofNat, show (0x30000 : Word).toNat = 0x30000 from rfl]; omega
  have hm : (0x30000 + 256 * i) % 2 ^ 53 = 0x30000 + 256 * i := by omega
  have hx := coreAt_one _ _ _ h.cores
  obtain ⟨e, he, rfl⟩ := h.tok
  have hh : tokenHit s s.cur 0 (0x30000 + 256 * i) = some { hit1 with base := 0x30000 } := by
    unfold tokenHit; rw [hx, he, h.cur]; simp [tokenTag, hit1, grantNow, h.tokens, sget]; exact decide_eq_true (by omega)
  have ho : tokenOut s s.cur = false := by simp [tokenOut, h.flights]
  have hf : tokenFault hit1.mode hit1.holds hit1.shares u = none := by cases u <;> rfl
  have hb : ∀ b, barredAt s b = none := fun b => by simp [barredAt, tokenCovering, h.tokens]
  unfold tokenCheck
  simp only [ha, hm, ho, h.fails.2, List.find?_nil, hh, hf, hb]
  simp only [modCore, hx, he]
  rw [show [({ hit1 with base := 0x30000 } : TokenHit)].filter (fun z => !(z.ctx = ({ hit1 with base := 0x30000 } : TokenHit).ctx &&
      z.base = ({ hit1 with base := 0x30000 } : TokenHit).base)) = [] from by decide,
    show ({ x with tokenCache := [{ hit1 with base := 0x30000 }] } : Core) = x from by rw [← he], setCore_same _ _ _ h.cores h.ne]
  rfl
theorem blockPlaces_same {s : State} {x : Core} (h : Cached s x) (p : Perm) : ∀ n, n ≤ 80 →
    blockPlaces s 0x30000 p n = .ok ((List.range' (80 - n) n).map (fun i => (0x30000 + 256 * i, leafHome leafT (0x30000 + 256 * i))), s)
  | 0, _ => rfl
  | n + 1, hn => by
    have e : 79 - n = 80 - (n + 1) := by omega
    unfold blockPlaces
    dsimp only
    rw [e, translate_same h (80 - (n + 1)) (by omega) p]
    simp only [bind, Except.bind]
    rw [if_pos (show leafWr leafT = true by decide), tokenCheck_same h _ (by omega)]
    simp only [blockPlaces_same h p n (by omega)]
    rw [show 80 - n = 80 - (n + 1) + 1 by omega]
    rfl
def homed : List (Nat × Nat) := (List.range' 0 80).map (fun i => (0x30000 + 256 * i, leafHome leafT (0x30000 + 256 * i)))
def places : List Nat := homed.map (·.1)
def far : Nat := homed.foldl (fun m e => max m (hop 14832 e.2)) 0
theorem openBlock_same {s : State} {x : Core} (h : Cached s x) (p : Perm)
    (hl : ∀ a ∈ blockLines places, ∃ y, lineOf s (coreOf s.cur) a = some y ∧ y.poison = false) : openBlock s 0x30000 p = .ok (.here places, far, s) := by
  have hf : fenced s s.cur 0 = false := by simp [fenced, h.flights]
  have hb : ((blockLines places).any (fun a => lineBusy s (coreOf s.cur) a) || lineOut s (coreOf s.cur) (blockLines places)) = false := by
    simp [lineBusy, lineOut, h.flights]
  have hn : (homed.flatMap (fun e => (blockLines [e.1]).map (fun a => (a, e.2)))).find? (fun a => (lineOf s (coreOf s.cur) a.1).isNone) = none := by
    rw [List.find?_eq_none]; intro a ha
    obtain ⟨e, he, ha⟩ := List.mem_flatMap.1 ha
    obtain ⟨b, hb, rfl⟩ := List.mem_map.1 ha
    obtain ⟨y, hy, -⟩ := hl b (by
      simp only [blockLines, List.flatMap_cons, List.flatMap_nil, List.append_nil] at hb
      exact List.mem_flatMap.2 ⟨e.1, List.mem_map.2 ⟨e, he, rfl⟩, hb⟩)
    simp [hy]
  have hr : (readLinesOf places p).any (fun a => match lineOf s (coreOf s.cur) a with | some x => x.poison | none => isPoisoned s (32 * a)) = false := by
    rw [List.any_eq_false]; intro a ha
    obtain ⟨y, hy, hz⟩ := hl a (by unfold readLinesOf at ha; split at ha <;> first | exact List.mem_of_mem_take ha | exact ha)
    simp [hy, hz]
  unfold openBlock
  simp only [passFence, hf, bind, Except.bind, blockPlaces_same h p 80 (by decide)]
  rw [if_neg (by decide)]
  simp only [show (List.range' (80 - 80) 80).map (fun i => (0x30000 + 256 * i, leafHome leafT (0x30000 + 256 * i))) = homed from rfl,
    show homed.map (·.1) = places from rfl, needHomes, hn, h.device, hb]
  rw [if_neg (by decide), if_neg (by decide)]
  rw [h.cur] at hr
  simp only [far, h.cur]
  rw [if_neg Bool.false_ne_true]
  split
  · rename_i hh; exact absurd (hh.symm.trans hr) (by decide)
  · rfl
theorem sget_map (f : Nat → Option Line) : ∀ (n b i : Nat), i < n → sget none ((List.range' b n).map (fun j => (0x1800 + j, f j))) (0x1800 + b + i) = f (b + i)
  | n + 1, b, 0, _ => by simp [List.range'_succ, sget]
  | n + 1, b, i + 1, h => by
    have := sget_map f n (b + 1) i (by omega)
    rw [show 0x1800 + (b + 1) + i = 0x1800 + b + (i + 1) by omega, show b + 1 + i = b + (i + 1) by omega] at this
    simpa [List.range'_succ, sget] using this
theorem blockLine_mem : ∀ a ∈ blockLines places, 0x1800 ≤ a ∧ a < 0x1800 + 640 := by decide +kernel
theorem blocks_line (r : Run) (hr : r ∈ [Run.stopped, .ready, .savedOut]) (a : Nat) (ha : a ∈ blockLines places) :
    lineOf (blocks r) 1854 a = some (blockLine (a - 0x1800)) := by
  have hd : (blocks r).cores = [(1854, coreAt (blocks r) 1854)] ∧
      (coreAt (blocks r) 1854).dcache = (List.range' 0 640).map (fun i => (0x1800 + i, some (blockLine i))) := by
    fin_cases hr <;> exact ⟨by decide +kernel, by decide +kernel⟩
  obtain ⟨h1, h2⟩ := blockLine_mem a ha
  have := sget_map (fun i => some (blockLine i)) 640 0 (a - 0x1800) (by omega)
  rw [show 0x1800 + 0 + (a - 0x1800) = a by omega, Nat.zero_add] at this
  rw [lineOf, hd.2, this]
/-- The block is ready to be saved to and restored from. -/
theorem blocks_ready (r : Run) (hr : r ∈ [Run.stopped, .ready, .savedOut]) (p : Perm) (u : TokenUse) :
    BlockReady (blocks r) 0x30000 p u tlb0 { hit1 with base := 0x30000 } := by
  have hp : blockAt 0x30000 tlb0 = places := by decide +kernel
  have hc : coreOf (blocks r).cur = 1854 := by fin_cases hr <;> decide +kernel
  constructor
  · decide
  · fin_cases hr <;> decide +kernel
  · decide
  · fin_cases hr <;> decide +kernel
  · fin_cases hr <;> decide +kernel
  · cases p <;> decide
  · fin_cases hr <;> decide +kernel
  · cases u <;> rfl
  · rw [hp, hc]; intro a ha; rw [blocks_line r hr a ha]; exact Option.isSome_some
  · rw [hp, hc]; intro a ha x hx
    have hm : a ∈ blockLines places := by unfold readLinesOf at ha; split at ha <;> first | exact List.mem_of_mem_take ha | exact ha
    rw [blocks_line r hr a hm, Option.some.injEq] at hx; rw [← hx]; simp [blockLine, line0]
  · rw [hp]; decide +kernel
  · fin_cases hr <;> decide +kernel
theorem blocks_open (r : Run) (hr : r ∈ [Run.stopped, .ready, .savedOut]) (p : Perm) :
    openBlock (beginIssue (blocks r)) 0x30000 p = .ok (.here places, far, beginIssue (blocks r)) := by
  have hc : beginIssue (blocks r) = blocks r ∧ Cached (blocks r) (coreAt (blocks r) 1854) ∧
      (coreAt (blocks r) 1854).dcache = (List.range' 0 640).map (fun i => (0x1800 + i, some (blockLine i))) := by
    fin_cases hr <;> refine ⟨by decide +kernel, ?_, by decide +kernel⟩ <;> constructor <;> first | decide +kernel | exact ⟨_, by decide +kernel, rfl⟩
  obtain ⟨hb, hc, hd⟩ := hc
  rw [hb]
  refine openBlock_same hc p (fun a ha => ?_)
  obtain ⟨h1, h2⟩ := blockLine_mem a ha
  refine ⟨blockLine (a - 0x1800), ?_, by simp [blockLine, line0]⟩
  have := sget_map (fun i => some (blockLine i)) 640 0 (a - 0x1800) (by omega)
  rw [show 0x1800 + 0 + (a - 0x1800) = a by omega, Nat.zero_add] at this
  rw [lineOf, coreAt_one _ _ _ hc.cores, hd, this]
theorem blocks_open' (r : Run) (hr : r ∈ [Run.stopped, .ready, .savedOut]) (p : Perm) :
    openBlock (blocks r) 0x30000 p = .ok (.here places, far, blocks r) := by
  have h := blocks_open r hr p
  rwa [show beginIssue (blocks r) = blocks r by fin_cases hr <;> decide +kernel] at h

theorem blocks_openS : openBlock (stopTarget (beginIssue (blocks .stopped)) 16).2 0x30000 .wr = .ok (.here places, far, beginIssue (blocks .stopped)) := by
  rw [show (stopTarget (beginIssue (blocks .stopped)) 16).2 = beginIssue (blocks .stopped) by decide +kernel]
  exact blocks_open .stopped (by simp) .wr

/-! ### Witnesses of the hypotheses, statement by statement -/

theorem test_witness_StepRunsDecodedInstruction :
  (∃ (s : State) (n k c : Nat) (rest : List Turn) (e : TlbEntry) (d : BitVec 256) (rank : Nat) (i : Instr),
    let u := passCycles { s with agenda := rest } n
    let va := (ctxOf u c).pc.toNat % 2 ^ 53
    let pa := leafPa e.page va e.leaf
    s.agenda = { cycles := n, act := .issue k 0 } :: rest ∧ s.clockStopped = false ∧ coreExists k = true ∧ (coreAt u k).killed = false ∧ (coreAt u k).issueFree ≤ u.cycle ∧ nextCtx u k = some c ∧ va < 0x1FFFFF00000000 ∧ (ctxOf u c).walkFails = [] ∧ tlbFind (coreAt u k).tlb va = some e ∧ leafEx e.leaf = true ∧ sget none (coreAt u k).icache (pa / 32) = some (d, false, rank) ∧ decode (d.extractLsb' (8 * (pa % 32)) 64) = .ok i) :=
  ⟨{ at_ id (fun k => { k with icache := [(512, some (0x010C414000000000, false, 0))] }) with agenda := [{ cycles := 2, act := .issue 0 0 }] }, 2, 0, 0, [], tlb0, 0x010C414000000000, 0, .add { s := 0, d := 3, a := 4, b := 5, c := 0, md := 0 }, by decide +kernel⟩

theorem test_witness_DecodeOfEncode :
  (∃ (i : Instr) (w : Word),
    i.WellFormed ∧ (∀ x, i ≠ .illegalPattern x) ∧ encode i = some w) :=
  ⟨.add { s := 0, d := 3, a := 4, b := 5, c := 0, md := 0 }, 0x010C414000000000, by decide, (by intro x h; cases h), by decide⟩

theorem test_witness_EncodeOfDecode :
  (∃ (w : Word) (i : Instr),
    decode w = .ok i) :=
  ⟨0x010C414000000000, .add { s := 0, d := 3, a := 4, b := 5, c := 0, md := 0 }, by decide +kernel⟩

theorem test_witness_StepKeepsMemoryForm :
  (∃ (s t : State),
    s.Inv ∧ step s = .next t) :=
  ⟨{ at_ id (fun k => { k with icache := [(512, some (0x010C414000000000, false, 0))] }) with agenda := [{ cycles := 2, act := .issue 0 0 }] }, okNext (step ({ at_ id (fun k => { k with icache := [(512, some (0x010C414000000000, false, 0))] }) with agenda := [{ cycles := 2, act := .issue 0 0 }] })), by decide +kernel, next_okNext _ (by decide +kernel)⟩

theorem test_witness_IssueCheckOrder :
  (∃ (w : Word) (s : State),
    nameOf w = none ∧ w.toNat / 2 ^ 56 % 128 ≠ 0x2F) ∧
  (∃ (w : Word) (s : State),
    nameOf w = none ∧ w.toNat / 2 ^ 56 % 128 = 0x2F) ∧
  (∃ (w : Word) (s : State) (f : Format) (j : Instr),
    nameOf w = some (f, j) ∧ isPOnly j = true ∧ isApex (coreOf s.cur) = false) ∧
  (∃ (i : Instr) (s : State),
    patternFault i s = none ∧ unitOk (coreOf s.cur) i = false) ∧
  (∃ (i : Instr) (s : State),
    patternFault i s = none ∧ unitOk (coreOf s.cur) i = true ∧ modeIllegal (ctxOf s s.cur).hmode i = false ∧ accepts i = false) ∧
  (∃ (i : Instr) (s : State),
    patternFault i s = none ∧ unitOk (coreOf s.cur) i = true ∧ modeIllegal (ctxOf s s.cur).hmode i = false ∧ accepts i = true ∧ operandBad s s.cur i = false ∧ isPOnly i = true ∧ isApex (coreOf s.cur) = false) ∧
  (∃ (i : Instr) (s : State),
    patternFault i s = none ∧ unitOk (coreOf s.cur) i = true ∧ modeIllegal (ctxOf s s.cur).hmode i = false ∧ accepts i = true ∧ operandBad s s.cur i = false ∧ privBad s s.cur i = false ∧ ((∃ r ∈ (usesOf i).rv ++ (usesOf i).wv, (ctxOf s s.cur).allot ≤ r ∧ ∀ n, (ctxOf s s.cur).group.lowAllot = some n → r < n))) ∧
  (∃ (i : Instr) (s : State),
    patternFault i s = none ∧ unitOk (coreOf s.cur) i = true ∧ modeIllegal (ctxOf s s.cur).hmode i = false ∧ accepts i = true ∧ operandBad s s.cur i = false ∧ privBad s s.cur i = false ∧ allotBad s s.cur i = false ∧ overlapBad i = true) ∧
  (∃ (i : Instr) (s : State),
    patternFault i s = none ∧ unitOk (coreOf s.cur) i = true ∧ modeIllegal (ctxOf s s.cur).hmode i = false ∧ accepts i = true ∧ operandBad s s.cur i = false ∧ privBad s s.cur i = false ∧ allotBad s s.cur i = false ∧ overlapBad i = false ∧ ((32 ≤ (ctxOf s s.cur).group.len ∨ (∃ r ∈ (usesIn s s.cur i).rg ++ (usesIn s s.cur i).wg, r ∈ (ctxOf s s.cur).group.g) ∨
      (∃ r ∈ (usesIn s s.cur i).rv ++ (usesIn s s.cur i).wv, r ∈ (ctxOf s s.cur).group.v)))) ∧
  (∃ (i : Instr) (s : State) (f : FaultInfo),
    issueFault i s = some f ∧ (ctxOf s s.cur).tried = false ∧ unfinished s s.cur = false ∧ ((∃ o, i = .add o ∨ i = .div o ∨ i = .tklend o) ∨ (∃ o, i = .addi o) ∨ (∃ o, i = .br o) ∨ (∃ o, i = .ldv o ∨ i = .st o) ∨
      (∃ o, i = .vadd o ∨ i = .vcmp o) ∨ (∃ o, i = .send o ∨ i = .wnew o) ∨ (∃ o, i = .swr o))) ∧
  (∃ (o : OpE) (s : State),
    unitOk (coreOf s.cur) (.gbar o) = true ∧ accepts (.gbar o) = true ∧ (ctxOf s s.cur).gang = none) :=
  ⟨⟨0, at_ id id, by decide +kernel⟩,
   ⟨0x2F00000000010000, at_ id id, by decide +kernel⟩,
   ⟨0x7E30A00003000001, at_ id id, .S, .ctxsave { s := 0, d := 12, a := 10, sreg := 0, imm := 1 }, by decide +kernel⟩,
   ⟨.mgang { s := 0, d := 3, a := 4, b := 5, c := 0, imm := 0 }, { base with cur := 104 }, by decide +kernel⟩,
   ⟨.add { s := 0, d := 3, a := 4, b := 5, c := 0, md := 64 }, at_ id id, by decide +kernel⟩,
   ⟨.ctxsave { s := 0, d := 12, a := 10, sreg := 0, imm := 0 }, at_ id id, by decide +kernel⟩,
   ⟨.vadd { s := 0, d := 3, a := 4, b := 40, c := 0, pred := 0, hold := 0, fmt := 4, rnd := 0, limm := 0 }, at_ (fun x => { x with allot := 6 }) (id), by decide +kernel, by decide +kernel, by decide +kernel, by decide +kernel, by decide +kernel, by decide +kernel, ⟨40, by decide +kernel, by decide +kernel, fun n h => absurd ((show (ctxOf (at_ (fun x => { x with allot := 6 }) (id)) 0).group.lowAllot = none by decide +kernel).symm.trans h) (by simp)⟩⟩,
   ⟨.tkstat { s := 0, d := 4, a := 5, b := 0, c := 0, md := 0 }, at_ id id, by decide +kernel⟩,
   ⟨.add { s := 0, d := 3, a := 4, b := 5, c := 0, md := 0 }, at_ (fun x => { x with group := { x.group with g := [4] } }) (id), by decide +kernel⟩,
   ⟨.add { s := 0, d := 3, a := 4, b := 5, c := 0, md := 64 }, at_ id id, { code := cIllegalEncoding }, by decide +kernel, by decide +kernel, by decide +kernel, .inl ⟨_, .inl rfl⟩⟩,
   ⟨{ s := 0, d := 0, a := 0, b := 0, c := 0, imm := 0 }, at_ id id, by decide +kernel⟩⟩

theorem test_witness_TrapOutsideHandler :
  (∃ (s : State) (c : Nat) (f : FaultInfo),
    let t := takeTrap s c f
    (ctxOf s c).hmode = false ∧ (ctxOf s c).drain = none ∧ (ctxOf s c).slot = none ∧ (ctxOf s c).pendingS = [] ∧ (ctxOf s c).newAllot = none ∧ (ctxOf s c).regs.cf = 0 ∧ f.code ≠ cPoison ∧ (dieAt s (dieOf (vertOf c))).faultQueue.length < 256) :=
  ⟨at_ id id, 0, { code := cAlign, addr := 0x1001 }, by decide +kernel⟩

theorem test_witness_TrapInHandlerRollsBack :
  (∃ (s : State) (c : Nat) (f : FaultInfo) (q : Slot),
    let t := takeTrap s c f
    (ctxOf s c).hmode = true ∧ (ctxOf s c).cip = false ∧ (ctxOf s c).drain = none ∧ slotOf s c = some q ∧ (ctxOf s c).pendingS = [] ∧ (ctxOf s c).newAllot = none ∧ f.code ≠ cPoison) :=
  ⟨hand (fun x => { x with sendBuf := [.nput 0 3 0], startFlags := 3 }) (id), 0, { code := cAlign, addr := 0x1001 }, slot0, by decide +kernel⟩

theorem test_witness_TrapInstruction :
  (∃ (o : OpS) (s : State),
    Issues (.trap o) s ∧ unfinished (beginIssue s) s.cur = false) ∧
  (∃ (w : Word) (s : State),
    unfinished s s.cur = false ∧ (ctxOf s s.cur).tried = false ∧ nameOf w = none ∧ w.toNat / 2 ^ 56 % 128 ≠ 0x2F) ∧
  (∃ (w : Word) (s : State) (f : Format) (j : Instr),
    unfinished s s.cur = false ∧ (ctxOf s s.cur).tried = false ∧ nameOf w = some (f, j) ∧ ((isPOnly j = false ∨ isApex (coreOf s.cur) = true)) ∧ unitOk (coreOf s.cur) j = true ∧ modeIllegal (ctxOf s s.cur).hmode j = false) :=
  ⟨⟨{ s := 0, d := 0, a := 0, sreg := 0, imm := 66 }, at_ id id, by decide +kernel⟩,
   ⟨0, at_ id id, by decide +kernel⟩,
   ⟨0x010C414000000001, at_ id id, .A, .add { s := 0, d := 3, a := 4, b := 5, c := 0, md := 0 }, by decide +kernel, by decide +kernel, by decide +kernel, by decide +kernel, by decide +kernel⟩⟩

theorem test_witness_ScalarResults :
  (∃ (o : OpA) (s : State),
    Issues (.add o) s ∧ o.md.getLsbD 1 = false) ∧
  (∃ (o : OpA) (s : State),
    Issues (.sub o) s ∧ o.md.getLsbD 1 = false) ∧
  (∃ (o : OpA) (s : State),
    Issues (.mul o) s ∧ o.md.getLsbD 1 = false) ∧
  (∃ (o : OpA) (s : State),
    Issues (.mulh o) s) ∧
  (∃ (o : OpA) (s : State),
    Issues (.and o) s) ∧
  (∃ (o : OpA) (s : State),
    Issues (.or o) s) ∧
  (∃ (o : OpA) (s : State),
    Issues (.xor o) s) ∧
  (∃ (o : OpA) (s : State),
    Issues (.andn o) s) ∧
  (∃ (o : OpA) (s : State),
    Issues (.min o) s) ∧
  (∃ (o : OpA) (s : State),
    Issues (.max o) s) :=
  ⟨⟨{ s := 0, d := 3, a := 4, b := 5, c := 0, md := 0 }, at_ id id, by decide +kernel⟩,
   ⟨{ s := 0, d := 3, a := 4, b := 5, c := 0, md := 1 }, at_ id id, by decide +kernel⟩,
   ⟨{ s := 0, d := 3, a := 4, b := 5, c := 0, md := 0 }, at_ id id, by decide +kernel⟩,
   ⟨{ s := 0, d := 3, a := 4, b := 5, c := 0, md := 0 }, at_ id id, by decide +kernel⟩,
   ⟨{ s := 0, d := 3, a := 4, b := 5, c := 0, md := 0 }, at_ id id, by decide +kernel⟩,
   ⟨{ s := 0, d := 3, a := 4, b := 5, c := 0, md := 0 }, at_ id id, by decide +kernel⟩,
   ⟨{ s := 0, d := 3, a := 4, b := 5, c := 0, md := 0 }, at_ id id, by decide +kernel⟩,
   ⟨{ s := 0, d := 3, a := 4, b := 5, c := 0, md := 0 }, at_ id id, by decide +kernel⟩,
   ⟨{ s := 0, d := 3, a := 4, b := 5, c := 0, md := 0 }, at_ id id, by decide +kernel⟩,
   ⟨{ s := 0, d := 3, a := 4, b := 5, c := 0, md := 0 }, at_ id id, by decide +kernel⟩⟩

theorem test_witness_ScalarSaturation :
  (∃ (o : OpA) (s : State),
    Issues (.add o) s ∧ o.md.getLsbD 1 = true) ∧
  (∃ (o : OpA) (s : State),
    Issues (.sub o) s ∧ o.md.getLsbD 1 = true) ∧
  (∃ (o : OpA) (s : State),
    Issues (.mul o) s ∧ o.md.getLsbD 1 = true) :=
  ⟨⟨{ s := 0, d := 3, a := 4, b := 5, c := 0, md := 2 }, at_ id id, by decide +kernel⟩,
   ⟨{ s := 0, d := 3, a := 4, b := 5, c := 0, md := 2 }, at_ id id, by decide +kernel⟩,
   ⟨{ s := 0, d := 3, a := 4, b := 5, c := 0, md := 2 }, at_ id id, by decide +kernel⟩⟩

theorem test_witness_ShiftsCountsAndDivision :
  (∃ (o : OpA) (s : State),
    Issues (.shl o) s) ∧
  (∃ (o : OpA) (s : State),
    Issues (.shr o) s) ∧
  (∃ (o : OpA) (s : State),
    Issues (.sar o) s) ∧
  (∃ (o : OpA) (s : State),
    Issues (.rot o) s) ∧
  (∃ (o : OpA) (s : State),
    Issues (.clz o) s) ∧
  (∃ (o : OpA) (s : State),
    Issues (.ctz o) s) ∧
  (∃ (o : OpA) (s : State),
    Issues (.popc o) s) ∧
  (∃ (o : OpA) (s : State),
    Issues (.div o) s ∧ (coreAt s (coreOf s.cur)).dividerFree ≤ s.cycle) ∧
  (∃ (o : OpA) (s : State),
    Issues (.rem o) s ∧ (coreAt s (coreOf s.cur)).dividerFree ≤ s.cycle) ∧
  (∃ (o : OpA) (s : State),
    Issues (.div o) s ∧ s.cycle < (coreAt s (coreOf s.cur)).dividerFree) ∧
  (∃ (o : OpA) (s : State),
    Issues (.rem o) s ∧ s.cycle < (coreAt s (coreOf s.cur)).dividerFree) :=
  ⟨⟨{ s := 0, d := 3, a := 4, b := 5, c := 0, md := 0 }, at_ id id, by decide +kernel⟩,
   ⟨{ s := 0, d := 3, a := 4, b := 5, c := 0, md := 0 }, at_ id id, by decide +kernel⟩,
   ⟨{ s := 0, d := 3, a := 4, b := 5, c := 0, md := 0 }, at_ id id, by decide +kernel⟩,
   ⟨{ s := 0, d := 3, a := 4, b := 5, c := 0, md := 0 }, at_ id id, by decide +kernel⟩,
   ⟨{ s := 0, d := 3, a := 4, b := 0, c := 0, md := 0 }, at_ id id, by decide +kernel⟩,
   ⟨{ s := 0, d := 3, a := 4, b := 0, c := 0, md := 0 }, at_ id id, by decide +kernel⟩,
   ⟨{ s := 0, d := 3, a := 4, b := 0, c := 0, md := 0 }, at_ id id, by decide +kernel⟩,
   ⟨{ s := 0, d := 3, a := 4, b := 5, c := 0, md := 0 }, at_ id id, by decide +kernel⟩,
   ⟨{ s := 0, d := 3, a := 4, b := 5, c := 0, md := 0 }, at_ id id, by decide +kernel⟩,
   ⟨{ s := 0, d := 3, a := 4, b := 5, c := 0, md := 0 }, at_ (id) (fun x => { x with dividerFree := 3 }), by decide +kernel⟩,
   ⟨{ s := 0, d := 3, a := 4, b := 5, c := 0, md := 0 }, at_ (id) (fun x => { x with dividerFree := 3 }), by decide +kernel⟩⟩

theorem test_witness_SelectsAndFields :
  (∃ (o : OpA) (s : State),
    Issues (.sel o) s) ∧
  (∃ (o : OpA) (s : State),
    Issues (.cmp o) s) ∧
  (∃ (o : OpA) (s : State),
    Issues (.sext o) s) ∧
  (∃ (o : OpA) (s : State),
    Issues (.bfx o) s) ∧
  (∃ (o : OpA) (s : State),
    Issues (.bfi o) s) ∧
  (∃ (o : OpA) (s : State),
    Issues (.lea o) s) :=
  ⟨⟨{ s := 0, d := 3, a := 4, b := 5, c := 5, md := 0 }, at_ id id, by decide +kernel⟩,
   ⟨{ s := 0, d := 3, a := 4, b := 5, c := 0, md := 32 }, at_ id id, by decide +kernel⟩,
   ⟨{ s := 0, d := 3, a := 6, b := 0, c := 0, md := 0 }, at_ id id, by decide +kernel⟩,
   ⟨{ s := 0, d := 3, a := 6, b := 3, c := 7, md := 0 }, at_ id id, by decide +kernel⟩,
   ⟨{ s := 0, d := 6, a := 4, b := 3, c := 7, md := 0 }, at_ id id, by decide +kernel⟩,
   ⟨{ s := 0, d := 3, a := 6, b := 5, c := 0, md := 3 }, at_ id id, by decide +kernel⟩⟩

theorem test_witness_Immediates :
  (∃ (o : OpI) (s : State),
    Issues (.addi o) s) ∧
  (∃ (o : OpI) (s : State),
    Issues (.movi o) s) ∧
  (∃ (o : OpI) (s : State),
    Issues (.movhi o) s) ∧
  (∃ (o : OpI) (s : State),
    (o.md ≠ 0 ∧ o.md ≠ 1)) ∧
  (∃ (o : OpI) (s : State),
    ((o.md ≠ 0 ∧ o.md ≠ 4) ∨ o.a ≠ 0)) ∧
  (∃ (o : OpI) (s : State),
    o.md ≠ 0) ∧
  (∃ (o : OpI) (fn : Nat) (s : State),
    2 < fn ∧ fn < 16) :=
  ⟨⟨{ s := 0, d := 3, a := 4, md := 0, imm := 4294967295 }, at_ id id, by decide +kernel⟩,
   ⟨{ s := 0, d := 3, a := 0, md := 0, imm := 4294967295 }, at_ id id, by decide +kernel⟩,
   ⟨{ s := 0, d := 3, a := 6, md := 0, imm := 4294967295 }, at_ id id, by decide +kernel⟩,
   ⟨{ s := 0, d := 3, a := 4, md := 2, imm := 4294967295 }, at_ id id, by decide +kernel⟩,
   ⟨{ s := 0, d := 3, a := 1, md := 0, imm := 4294967295 }, at_ id id, by decide +kernel⟩,
   ⟨{ s := 0, d := 3, a := 4, md := 1, imm := 4294967295 }, at_ id id, by decide +kernel⟩,
   ⟨{ s := 0, d := 3, a := 4, md := 0, imm := 4294967295 }, 3, at_ id id, by decide +kernel⟩⟩

theorem test_witness_MarkersAndBranches :
  (∃ (o : OpA) (s : State),
    Issues (.add o) s ∧ Quiet s) ∧
  (∃ (o : OpB) (s : State),
    let taken := brTaken o.cl.toNat (rg s s.cur o.a.toNat) (rg s s.cur o.b.toNat)
    Issues (.br o) s ∧ ((taken = true → TargetOk s (pcOf s + o.woff.signExtend 64 * 8)))) ∧
  (∃ (o : OpB) (s : State),
    10 ≤ o.cl.toNat) ∧
  (∃ (o : OpB) (s : State),
    let taken := if o.cl = 0 then rg s s.cur o.a.toNat == 0 else rg s s.cur o.a.toNat != 0
    Issues (.brz o) s ∧ ((taken = true → TargetOk s (pcOf s + o.woff.signExtend 64 * 8)))) ∧
  (∃ (o : OpB) (s : State),
    Issues (.jmp o) s ∧ TargetOk s (pcOf s + o.woff.signExtend 64 * 8)) ∧
  (∃ (o : OpB) (s : State),
    Issues (.call o) s ∧ TargetOk s (pcOf s + o.woff.signExtend 64 * 8)) ∧
  (∃ (o : OpB) (s : State),
    Issues (.loop o) s ∧ ((2 ≤ (rg s s.cur o.a.toNat).toNat → TargetOk s (pcOf s + o.woff.signExtend 64 * 8)))) ∧
  (∃ (o : OpA) (s : State),
    Issues (.jr o) s ∧ TargetOk s (rg s s.cur o.a.toNat)) ∧
  (∃ (o : OpA) (s : State),
    Issues (.ret o) s ∧ TargetOk s (rg s s.cur o.a.toNat)) :=
  ⟨⟨{ s := 0, d := 3, a := 4, b := 5, c := 0, md := 0 }, at_ id id, by decide +kernel⟩,
   ⟨{ s := 0, cl := 1, a := 4, b := 5, woff := 2 }, at_ id id, by decide +kernel⟩,
   ⟨{ s := 0, cl := 10, a := 4, b := 5, woff := 2 }, at_ id id, by decide +kernel⟩,
   ⟨{ s := 0, cl := 0, a := 0, b := 0, woff := 2 }, at_ id id, by decide +kernel⟩,
   ⟨{ s := 0, cl := 0, a := 0, b := 0, woff := 2 }, at_ id id, by decide +kernel⟩,
   ⟨{ s := 0, cl := 20, a := 0, b := 0, woff := 2 }, at_ id id, by decide +kernel⟩,
   ⟨{ s := 0, cl := 0, a := 4, b := 0, woff := 2 }, at_ id id, by decide +kernel⟩,
   ⟨{ s := 0, d := 20, a := 8, b := 0, c := 0, md := 0 }, at_ id id, by decide +kernel⟩,
   ⟨{ s := 0, d := 0, a := 8, b := 0, c := 0, md := 0 }, at_ id id, by decide +kernel⟩⟩

theorem test_witness_ForkAndHandlerEnd :
  (∃ (o : OpB) (s : State),
    Issues (.fork o) s ∧ FreeToAct s ∧ BufferRoom s ∧ (pcOf s + o.woff.signExtend 64 * 8).toNat / 2 ^ 53 = s.device) ∧
  (∃ (o : OpB) (s : State),
    Issues (.fork o) s ∧ FreeToAct s ∧ SendRoom s ∧ coreExists (coreOf s.cur) = true ∧ s.device < 2048 ∧ (pcOf s + o.woff.signExtend 64 * 8).toNat / 2 ^ 53 = s.device) ∧
  (∃ (o : OpB) (s : State),
    Issues (.fork o) s ∧ unfinished (beginIssue s) s.cur = false ∧ (pcOf s + o.woff.signExtend 64 * 8).toNat / 2 ^ 53 ≠ s.device) ∧
  (∃ (o : OpE) (s : State),
    Issues (.hret o) s ∧ (ctxOf s s.cur).hmode = false ∧ NothingOut s ∧ (ctxOf s s.cur).gang = none ∧ (ctxOf s s.cur).lockstep = false ∧ (ctxOf s s.cur).preemptAsked = false ∧ (ctxOf s s.cur).fresh = false) ∧
  (∃ (o : OpE) (s : State),
    Issues (.hret o) s ∧ (ctxOf s s.cur).hmode = true ∧ returning s s.cur = false ∧ canPush s (coreOf s.cur) (pushCount (ctxOf s s.cur).sendBuf) = true ∧ (ctxOf s s.cur).fresh = false) ∧
  (∃ (s : State) (c : Nat) (q : Slot),
    (ctxOf s c).run = .leaving ∧ (ctxOf s c).readyAt ≤ s.cycle ∧ (ctxOf s c).committed = false ∧ slotOf s c = some q ∧ (ctxOf s c).sendBuf = [] ∧ (ctxOf s c).writeLog = [] ∧ (ctxOf s c).pair = none ∧ (ctxOf s c).drain = none ∧ (ctxOf s c).gang = none ∧ (ctxOf s c).lockstep = false ∧ (ctxOf s c).preemptAsked = false) ∧
  (∃ (s : State) (c : Nat) (e : Entry) (l : List Entry),
    (ctxOf s c).run = .leaving ∧ (ctxOf s c).readyAt ≤ s.cycle ∧ (ctxOf s c).committed = false ∧ (ctxOf s c).sendBuf = e :: l ∧ (ctxOf s c).writeLog = [] ∧ (ctxOf s c).pair = none ∧ (ctxOf s c).drain = none) ∧
  (∃ (s : State) (c : Nat) (x : Line) (e : LogLine),
    (ctxOf s c).run = .leaving ∧ (ctxOf s c).readyAt ≤ s.cycle ∧ (ctxOf s c).committed = false ∧ (ctxOf s c).sendBuf = [] ∧ (ctxOf s c).writeLog = [e] ∧ e.place = .memory ∧ lineOf s (coreOf c) e.line = some x) ∧
  (∃ (o : OpE) (s : State) (q : Slot),
    Issues (.habort o) s ∧ returning s s.cur = false ∧ (ctxOf s s.cur).cip = false ∧ slotOf s s.cur = some q ∧ (ctxOf s s.cur).drain = none ∧ (ctxOf s s.cur).gang = none ∧ (ctxOf s s.cur).lockstep = false ∧ (ctxOf s s.cur).preemptAsked = false ∧ (ctxOf s s.cur).fresh = false) ∧
  (∃ (s : State) (c : Nat) (q : Slot),
    (ctxOf s c).run = .aborting ∧ (ctxOf s c).readyAt ≤ s.cycle ∧ slotOf s c = some q ∧ (ctxOf s c).drain = none ∧ (ctxOf s c).gang = none ∧ (ctxOf s c).lockstep = false ∧ (ctxOf s c).preemptAsked = false) :=
  ⟨⟨{ s := 0, cl := 0, a := 4, b := 5, woff := 2 }, hand id id, by decide +kernel⟩,
   ⟨{ s := 0, cl := 0, a := 4, b := 5, woff := 2 }, at_ id id, by decide +kernel⟩,
   ⟨{ s := 0, cl := 0, a := 4, b := 5, woff := 2147483648 }, at_ id id, by decide +kernel⟩,
   ⟨{ s := 0, d := 0, a := 0, b := 0, c := 0, imm := 0 }, at_ id id, by decide +kernel⟩,
   ⟨{ s := 0, d := 0, a := 0, b := 0, c := 0, imm := 0 }, hand (fun x => { x with sendBuf := [.nput 0 3 0] }) (id), by decide +kernel⟩,
   ⟨hand (fun x => { x with run := .leaving }) (id), 0, slot0, by decide +kernel⟩,
   ⟨hand (fun x => { x with run := .leaving, sendBuf := [.nput 0 3 0] }) (id), 0, .nput 0 3 0, [], by decide +kernel⟩,
   ⟨hand (fun x => { x with run := .leaving, writeLog := [{ place := .memory, line := 2048, home := 0, data := 0xFF, mask := 0xFFFF }] }) (id), 0, line0, { place := .memory, line := 2048, home := 0, data := 0xFF, mask := 0xFFFF }, by decide +kernel⟩,
   ⟨{ s := 0, d := 0, a := 0, b := 0, c := 0, imm := 0 }, hand (fun x => { x with startFlags := 3 }) (id), slot0, by decide +kernel⟩,
   ⟨hand (fun x => { x with run := .aborting }) (id), 0, slot0, by decide +kernel⟩⟩

theorem test_witness_HoldYieldAndBarrier :
  (∃ (o : OpE) (s : State),
    Issues (.hold o) s ∧ unsettled s s.cur = false) ∧
  (∃ (o : OpE) (s : State),
    Issues (.release o) s ∧ unsettled s s.cur = false) ∧
  (∃ (o : OpE) (s : State),
    Issues (.nop o) s) ∧
  (∃ (o : OpE) (s : State),
    Issues (.yield o) s ∧ Quiet s) ∧
  (∃ (o : OpE) (s : State),
    Issues (.gyield o) s ∧ preemptPending s s.cur = false ∧ Quiet s) ∧
  (∃ (o : OpE) (s : State),
    Issues (.gyield o) s ∧ preemptPending s s.cur = true) ∧
  (∃ (o : OpE) (s : State),
    Issues (.gbar o) s ∧ (ctxOf s s.cur).passBarrier = true) ∧
  (∃ (o : OpE) (s : State) (g : Nat) (y : Gang),
    Issues (.gbar o) s ∧ (ctxOf s s.cur).passBarrier = false ∧ (ctxOf s s.cur).barrierArrived = false ∧ (ctxOf s s.cur).gang = some g ∧ sget none s.gangs g = some y ∧ y.lost = false ∧ NothingOut s ∧ (wiredOf s (vertOf s.cur) g).length < 7) ∧
  (∃ (o : OpE) (s : State) (g : Nat) (y : Gang),
    Issues (.gbar o) s ∧ o.imm = 0 ∧ (ctxOf s s.cur).passBarrier = false ∧ (ctxOf s s.cur).barrierArrived = false ∧ (ctxOf s s.cur).gang = some g ∧ sget none s.gangs g = some y ∧ y.lost = false ∧ NothingOut s ∧ (wiredOf s (vertOf s.cur) g).length = 7 ∧ ((∀ e ∈ wiredOf s (vertOf s.cur) g, e.2 = false ∧ e.1 ≠ s.cur ∧ (ctxOf s e.1).run = .stalled .gbar))) :=
  ⟨⟨{ s := 0, d := 3, a := 4, b := 0, c := 0, imm := 32769 }, at_ id id, by decide +kernel⟩,
   ⟨{ s := 0, d := 3, a := 4, b := 0, c := 0, imm := 32769 }, at_ id id, by decide +kernel⟩,
   ⟨{ s := 0, d := 0, a := 0, b := 0, c := 0, imm := 0 }, at_ id id, by decide +kernel⟩,
   ⟨{ s := 0, d := 0, a := 0, b := 0, c := 0, imm := 5 }, at_ id id, by decide +kernel⟩,
   ⟨{ s := 0, d := 0, a := 0, b := 0, c := 0, imm := 0 }, at_ id id, by decide +kernel⟩,
   ⟨{ s := 0, d := 0, a := 0, b := 0, c := 0, imm := 0 }, { ganged (at_ id id) with gangs := [(1, some { gang0 with preempt := true })] }, by decide +kernel⟩,
   ⟨{ s := 0, d := 0, a := 0, b := 0, c := 0, imm := 1 }, ganged (at_ (fun x => { x with passBarrier := true }) (id)), by decide +kernel⟩,
   ⟨{ s := 0, d := 0, a := 0, b := 0, c := 0, imm := 0 }, ganged (at_ id id), 1, gang0, by decide +kernel⟩,
   ⟨{ s := 0, d := 0, a := 0, b := 0, c := 0, imm := 0 }, allHere, 1, gang0, by decide +kernel⟩⟩

theorem test_witness_CellsAndSlots :
  (∃ (o : OpE) (s : State) (a pa home : Nat) (leaf : Word),
    let h := cnewHeader s o
    Issues (.cnew o) s ∧ FreeToAct s ∧ BufferRoom s ∧ headerWritable h = true ∧ refOk (rg s s.cur o.b.toNat) = true ∧ refOk (rg s s.cur o.c.toNat) = true ∧ ((bits h 17 16 < 1 → rg s s.cur o.b.toNat = 0)) ∧ ((bits h 17 16 < 2 → rg s s.cur o.c.toNat = 0)) ∧ heapOf s false (o.imm.toNat % 16) ≠ none ∧ (coreAt s (coreOf s.cur)).reservoir.find? (fun e => e.1 = false && e.2.1 = o.imm.toNat % 16) = some (false, o.imm.toNat % 16, a) ∧ translateNow s a true = .ok (pa, home, leaf)) ∧
  (∃ (o : OpE) (s : State) (a pa home : Nat) (leaf : Word),
    let h := cnewHeader s o
    Issues (.cnew o) s ∧ FreeToAct s ∧ PostRoom s ∧ headerWritable h = true ∧ refOk (rg s s.cur o.b.toNat) = true ∧ refOk (rg s s.cur o.c.toNat) = true ∧ ((bits h 17 16 < 1 → rg s s.cur o.b.toNat = 0)) ∧ ((bits h 17 16 < 2 → rg s s.cur o.c.toNat = 0)) ∧ heapOf s false (o.imm.toNat % 16) ≠ none ∧ (coreAt s (coreOf s.cur)).reservoir.find? (fun e => e.1 = false && e.2.1 = o.imm.toNat % 16) = some (false, o.imm.toNat % 16, a) ∧ translateNow s a true = .ok (pa, home, leaf)) ∧
  (∃ (o : OpE) (s : State) (a : Nat),
    Issues (.wnew o) s ∧ FreeToAct s ∧ heapOf s true (o.imm.toNat % 16) ≠ none ∧ (coreAt s (coreOf s.cur)).reservoir.find? (fun e => e.1 = true && e.2.1 = o.imm.toNat % 16) = some (true, o.imm.toNat % 16, a)) ∧
  (∃ (o : OpE) (s : State),
    Issues (.cgrab o) s ∧ FreeToAct s) :=
  ⟨⟨{ s := 0, d := 3, a := 7, b := 0, c := 0, imm := 0 }, { hand (id) (fun x => { x with reservoir := [(false, 0, 0x30000), (true, 0, 0x40000)] }) with cellHeaps := [(0, some { ranges := [(0x30000, 0x100)], acct := 0 })], wireHeaps := [(0, some { ranges := [(0x40000, 0x100)], acct := 0 })] }, 0x30000, 0x30000, leafHome leafT 0x30000, leafT, by decide +kernel⟩,
   ⟨{ s := 0, d := 3, a := 7, b := 0, c := 0, imm := 0 }, { at_ (id) (fun x => { x with reservoir := [(false, 0, 0x30000), (true, 0, 0x40000)] }) with cellHeaps := [(0, some { ranges := [(0x30000, 0x100)], acct := 0 })], wireHeaps := [(0, some { ranges := [(0x40000, 0x100)], acct := 0 })] }, 0x30000, 0x30000, leafHome leafT 0x30000, leafT, by decide +kernel⟩,
   ⟨{ s := 0, d := 3, a := 0, b := 0, c := 0, imm := 0 }, { at_ (id) (fun x => { x with reservoir := [(false, 0, 0x30000), (true, 0, 0x40000)] }) with cellHeaps := [(0, some { ranges := [(0x30000, 0x100)], acct := 0 })], wireHeaps := [(0, some { ranges := [(0x40000, 0x100)], acct := 0 })] }, 0x40000, by decide +kernel⟩,
   ⟨{ s := 0, d := 3, a := 0, b := 0, c := 0, imm := 0 }, { at_ (id) (fun x => { x with reservoir := [(false, 0, 0x30000), (true, 0, 0x40000)] }) with cellHeaps := [(0, some { ranges := [(0x30000, 0x100)], acct := 0 })], wireHeaps := [(0, some { ranges := [(0x40000, 0x100)], acct := 0 })] }, by decide +kernel⟩⟩

theorem test_witness_LinksAndCellWrites :
  (∃ (o : OpE) (s u : State) (va pa : Nat) (leaf : Word),
    let r := rg s s.cur o.a.toNat
    let w := o.imm.toNat % 4
    Issues (.cset o) s ∧ FreeToAct s ∧ PostRoom s ∧ refKind r = 1 ∧ refOk r = true ∧ ((w = 0 → headerWritable (rg s s.cur o.b.toNat).toNat = true)) ∧ (((w = 1 ∨ w = 2) → refOk (rg s s.cur o.b.toNat) = true)) ∧ translate (beginIssue s) (refEa r) .wr = .ok (.phys va pa leaf, u)) ∧
  (∃ (o : OpE) (s u : State) (va pa : Nat) (leaf : Word),
    let r := rg s s.cur o.a.toNat
    let w := o.imm.toNat % 4
    Issues (.cset o) s ∧ FreeToAct s ∧ BufferRoom s ∧ refKind r = 1 ∧ refOk r = true ∧ ((w = 0 → headerWritable (rg s s.cur o.b.toNat).toNat = true)) ∧ (((w = 1 ∨ w = 2) → refOk (rg s s.cur o.b.toNat) = true)) ∧ translate (beginIssue s) (refEa r) .wr = .ok (.phys va pa leaf, u)) ∧
  (∃ (o : OpE) (s u : State) (va pa : Nat) (leaf : Word),
    let a := rg s s.cur o.a.toNat
    let b := rg s s.cur o.b.toNat
    Issues (.link o) s ∧ FreeToAct s ∧ PostRoom s ∧ a ≠ 0 ∧ refOk a = true ∧ b ≠ 0 ∧ refOk b = true ∧ refKind a = 2 ∧ a ≠ b ∧ translate (beginIssue s) (refEa a) .wr = .ok (.phys va pa leaf, u)) ∧
  (∃ (o : OpE) (s : State),
    let a := rg s s.cur o.a.toNat
    let b := rg s s.cur o.b.toNat
    Issues (.link o) s ∧ FreeToAct s ∧ PostRoom s ∧ a ≠ 0 ∧ refOk a = true ∧ b ≠ 0 ∧ refOk b = true ∧ refKind a ≠ 2 ∧ refKind b ≠ 2 ∧ cellsOut s s.cur = false ∧ fenced s s.cur 1 = false ∧ (coreAt s (coreOf s.cur)).deque.length < 256 ∧ canPush s (coreOf s.cur) 1 = true ∧ (ctxOf s s.cur).fresh = false) ∧
  (∃ (o : OpE) (s u : State) (va pa : Nat) (leaf : Word),
    let r := rg s s.cur o.a.toNat
    Issues (.cxld o) s ∧ refKind r = 1 ∧ refOk r = true ∧ translate (beginIssue s) (refEa r) .rd = .ok (.phys va pa leaf, u)) :=
  ⟨⟨{ s := 0, d := 0, a := 11, b := 13, c := 0, imm := 1 }, at_ (g 11 0x2000000000030000 (g 12 0x4000000000040000 (g 13 0x6000000000000005 (g 14 0x4000000000040008 (id))))) (id), okState (translate (beginIssue (at_ (g 11 0x2000000000030000 (g 12 0x4000000000040000 (g 13 0x6000000000000005 (g 14 0x4000000000040008 (id))))) (id))) 196608 .wr), 0x30000, 0x30000, leafT, by decide +kernel⟩,
   ⟨{ s := 0, d := 0, a := 11, b := 13, c := 0, imm := 2 }, hand (g 11 0x2000000000030000 (g 12 0x4000000000040000 (g 13 0x6000000000000005 (g 14 0x4000000000040008 (id))))) (id), okState (translate (beginIssue (hand (g 11 0x2000000000030000 (g 12 0x4000000000040000 (g 13 0x6000000000000005 (g 14 0x4000000000040008 (id))))) (id))) 196608 .wr), 0x30000, 0x30000, leafT, by decide +kernel⟩,
   ⟨{ s := 0, d := 0, a := 12, b := 13, c := 0, imm := 0 }, at_ (g 11 0x2000000000030000 (g 12 0x4000000000040000 (g 13 0x6000000000000005 (g 14 0x4000000000040008 (id))))) (id), okState (translate (beginIssue (at_ (g 11 0x2000000000030000 (g 12 0x4000000000040000 (g 13 0x6000000000000005 (g 14 0x4000000000040008 (id))))) (id))) 262144 .wr), 0x40000, 0x40000, leafT, by decide +kernel⟩,
   ⟨{ s := 0, d := 0, a := 11, b := 13, c := 0, imm := 0 }, at_ (g 11 0x2000000000030000 (g 12 0x4000000000040000 (g 13 0x6000000000000005 (g 14 0x4000000000040008 (id))))) (id), by decide +kernel⟩,
   ⟨{ s := 0, d := 3, a := 11, b := 0, c := 0, imm := 0 }, at_ (g 11 0x2000000000030000 (g 12 0x4000000000040000 (g 13 0x6000000000000005 (g 14 0x4000000000040008 (id))))) (id), okState (translate (beginIssue (at_ (g 11 0x2000000000030000 (g 12 0x4000000000040000 (g 13 0x6000000000000005 (g 14 0x4000000000040008 (id))))) (id))) 196608 .rd), 0x30000, 0x30000, leafT, by decide +kernel⟩⟩

theorem test_witness_BadTargetsAndReferences :
  (∃ (o : OpA) (s : State),
    Issues (.jr o) s ∧ unfinished (beginIssue s) s.cur = false ∧ rg s s.cur o.a.toNat &&& 7 ≠ 0) ∧
  (∃ (o : OpA) (s : State),
    Issues (.ret o) s ∧ unfinished (beginIssue s) s.cur = false ∧ rg s s.cur o.a.toNat &&& 7 = 0 ∧ (rg s s.cur o.a.toNat).toNat / 2 ^ 53 ≠ s.device) ∧
  (∃ (o : OpB) (s : State),
    let t := pcOf s + o.woff.signExtend 64 * 8
    Issues (.call o) s ∧ unfinished (beginIssue s) s.cur = false ∧ t &&& 7 = 0 ∧ t.toNat / 2 ^ 53 ≠ s.device) ∧
  (∃ (o : OpB) (s : State),
    let t := pcOf s + o.woff.signExtend 64 * 8
    Issues (.loop o) s ∧ unfinished (beginIssue s) s.cur = false ∧ 2 ≤ (rg s s.cur o.a.toNat).toNat ∧ t &&& 7 = 0 ∧ t.toNat / 2 ^ 53 ≠ s.device) ∧
  (∃ (o : OpE) (s : State),
    Issues (.cset o) s ∧ unfinished (beginIssue s) s.cur = false ∧ refKind (rg s s.cur o.a.toNat) ≠ 1) ∧
  (∃ (o : OpE) (s : State),
    Issues (.cxld o) s ∧ unfinished (beginIssue s) s.cur = false ∧ refKind (rg s s.cur o.a.toNat) ≠ 1) ∧
  (∃ (o : OpE) (s : State),
    Issues (.link o) s ∧ unfinished (beginIssue s) s.cur = false ∧ rg s s.cur o.a.toNat = 0 ∧ refKind (rg s s.cur o.b.toNat) ≠ 2) ∧
  (∃ (o : OpE) (s u : State) (x : Target),
    Issues (.link o) s ∧ refOk (rg s s.cur o.a.toNat) = true ∧ refKind (rg s s.cur o.a.toNat) = 2 ∧ rg s s.cur o.a.toNat = rg s s.cur o.b.toNat ∧ translate (beginIssue s) (refEa (rg s s.cur o.a.toNat)) .wr = .ok (x, u) ∧ unfinished u s.cur = false) :=
  ⟨⟨{ s := 0, d := 1, a := 4, b := 0, c := 0, md := 0 }, at_ id id, by decide +kernel⟩,
   ⟨{ s := 0, d := 0, a := 10, b := 0, c := 0, md := 0 }, at_ (g 10 0xffe0000000000008 (id)) (id), by decide +kernel⟩,
   ⟨{ s := 0, cl := 7, a := 0, b := 0, woff := 2 }, { at_ id id with device := 5 }, by decide +kernel⟩,
   ⟨{ s := 0, cl := 0, a := 4, b := 0, woff := 2 }, { at_ id id with device := 5 }, by decide +kernel⟩,
   ⟨{ s := 0, d := 0, a := 13, b := 13, c := 0, imm := 3 }, at_ (g 11 0x2000000000030000 (g 12 0x4000000000040000 (g 13 0x6000000000000005 (g 14 0x4000000000040008 (id))))) (id), by decide +kernel⟩,
   ⟨{ s := 0, d := 3, a := 12, b := 0, c := 0, imm := 0 }, at_ (g 11 0x2000000000030000 (g 12 0x4000000000040000 (g 13 0x6000000000000005 (g 14 0x4000000000040008 (id))))) (id), by decide +kernel⟩,
   ⟨{ s := 0, d := 0, a := 15, b := 13, c := 0, imm := 0 }, at_ (g 11 0x2000000000030000 (g 12 0x4000000000040000 (g 13 0x6000000000000005 (g 14 0x4000000000040008 (id))))) (id), by decide +kernel⟩,
   ⟨{ s := 0, d := 0, a := 12, b := 12, c := 0, imm := 0 }, at_ (g 11 0x2000000000030000 (g 12 0x4000000000040000 (g 13 0x6000000000000005 (g 14 0x4000000000040008 (id))))) (id), okState (translate (beginIssue (at_ (g 11 0x2000000000030000 (g 12 0x4000000000040000 (g 13 0x6000000000000005 (g 14 0x4000000000040008 (id))))) (id))) 0x40000 .wr), .phys 0x40000 0x40000 leafT, by decide +kernel⟩⟩

theorem test_witness_SendAndRelease :
  (∃ (o : OpE) (s : State),
    Issues (.send o) s ∧ FreeToAct s ∧ BufferRoom s) ∧
  (∃ (o : OpE) (s : State),
    Issues (.send o) s ∧ FreeToAct s ∧ SendRoom s ∧ o.imm.getLsbD 5 = false ∧ s.device < 2048 ∧ rg s s.cur o.a.toNat >>> 43 = 0 ∧ namesTarget ((rg s s.cur o.a.toNat).toNat % 2 ^ 27) = true ∧ (rg s s.cur o.a.toNat).toNat % 2 ^ 27 / 65536 = s.device) ∧
  (∃ (o : OpE) (s : State) (q : Slot),
    Issues (.mrel o) s ∧ FreeToAct s ∧ slotOf s s.cur = some q ∧ (ctxOf s s.cur).mapped = true) :=
  ⟨⟨{ s := 0, d := 3, a := 9, b := 8, c := 0, imm := 5 }, hand id id, by decide +kernel⟩,
   ⟨{ s := 0, d := 3, a := 11, b := 4, c := 0, imm := 5 }, at_ (g 11 0x8 (id)) (id), by decide +kernel⟩,
   ⟨{ s := 0, d := 0, a := 0, b := 0, c := 0, imm := 0 }, hand id id, slot0, by decide +kernel⟩⟩

theorem test_witness_ChordsAndNeighbours :
  (∃ (o : OpE) (s : State),
    let a := (rg s s.cur o.a.toNat).toNat
    let dest := a % 65536 / 8
    Issues (.chopen o) s ∧ unsettled s s.cur = false ∧ a < 2 ^ 27 ∧ a / 65536 = s.device ∧ isExecute dest = true ∧ (coreAt s dest).killed = false ∧ ((∀ w, (ctxOf s s.cur).cooked = some w → s.cycle < w.toNat + 2 ^ 20)) ∧ (coreAt s (coreOf s.cur)).chord = none ∧ (coreAt s dest).portHolder = none) ∧
  (∃ (o : OpE) (s : State) (dest : Nat),
    Issues (.chput o) s ∧ FreeToAct s ∧ fenced s s.cur 4 = false ∧ SourcesServed s [o.a] ∧ (coreAt s (coreOf s.cur)).chord = some { holder := s.cur, dest := dest, closing := false } ∧ (coreAt s dest).killed = false ∧ (coreAt s dest).port.length + (coreAt s dest).portIn.length < 16) ∧
  (∃ (o : OpE) (s : State) (x : Vec) (l : List (Option Vec)),
    Issues (.chget o) s ∧ unsettled s s.cur = false ∧ (coreAt s (coreOf s.cur)).portDead = false ∧ popAhead s [chordPort] = false ∧ (coreAt s (coreOf s.cur)).port = some x :: l ∧ Quiet s) ∧
  (∃ (o : OpE) (s : State) (k : Nat) (l : List (Option Vec)),
    Issues (.chget o) s ∧ unsettled s s.cur = false ∧ (coreAt s (coreOf s.cur)).portDead = false ∧ popAhead s [chordPort] = false ∧ (coreAt s (coreOf s.cur)).portHolder = some k ∧ (coreAt s (coreOf s.cur)).port = none :: l ∧ Quiet s) ∧
  (∃ (o : OpE) (s : State) (dest : Nat),
    Issues (.chclose o) s ∧ unsettled s s.cur = false ∧ (coreAt s (coreOf s.cur)).chord = some { holder := s.cur, dest := dest, closing := false } ∧ (coreAt s dest).killed = false) ∧
  (∃ (o : OpE) (s : State),
    let j := o.imm.toNat % 4
    let k := coreOf s.cur / 16 * 16 + (coreOf s.cur % 16 + (if j < 2 then 1 else 7)) % 8
    Issues (.nput o) s ∧ FreeToAct s ∧ (ctxOf s s.cur).hmode = false ∧ (coreAt s k).killed = false ∧ (coreAt s k).npres.getLsbD j = false ∧ putsWaiting s (coreOf s.cur) k j = []) ∧
  (∃ (o : OpE) (s : State),
    let j := o.imm.toNat % 4
    let k := coreOf s.cur / 16 * 16 + (coreOf s.cur % 16 + (if j < 2 then 1 else 7)) % 8
    Issues (.nput o) s ∧ FreeToAct s ∧ BufferRoom s ∧ (coreAt s k).killed = false) ∧
  (∃ (o : OpE) (s : State),
    let j := o.imm.toNat % 4
    let k := coreOf s.cur / 16 * 16 + (coreOf s.cur % 16 + (if j < 2 then 1 else 7)) % 8
    Issues (.nput o) s ∧ FreeToAct s ∧ (ctxOf s s.cur).hmode = false ∧ (coreAt s k).killed = false ∧ (((coreAt s k).npres.getLsbD j = true ∨ putsWaiting s (coreOf s.cur) k j ≠ []))) ∧
  (∃ (o : OpE) (s : State),
    Issues (.nput o) s ∧ unfinished (beginIssue s) s.cur = false ∧ (coreAt s (coreOf s.cur / 16 * 16 + (coreOf s.cur % 16 + (if o.imm.toNat % 4 < 2 then 1 else 7)) % 8)).killed = true) :=
  ⟨⟨{ s := 0, d := 0, a := 11, b := 0, c := 0, imm := 0 }, at_ (g 11 0x10 (id)) (id), by decide +kernel, by decide +kernel, by decide +kernel, by decide +kernel, by decide +kernel, by decide +kernel, (fun w h => absurd ((show (ctxOf (at_ (g 11 0x10 (id)) (id)) 0).cooked = none by decide +kernel).symm.trans h) (by simp)), by decide +kernel, by decide +kernel⟩,
   ⟨{ s := 0, d := 0, a := 5, b := 0, c := 0, imm := 0 }, at_ (v 5 0x77 id) (fun x => { x with chord := some { holder := 0, dest := 2, closing := false } }), 2, by decide +kernel⟩,
   ⟨{ s := 0, d := 6, a := 0, b := 0, c := 7, imm := 0 }, at_ (id) (fun x => { x with port := [some 5, none] }), 5, [none], by decide +kernel⟩,
   ⟨{ s := 0, d := 6, a := 0, b := 0, c := 7, imm := 0 }, modCore (at_ (id) (fun x => { x with port := [none], portHolder := some 2 })) 2 (fun x => { x with chord := some { holder := 17, dest := 0, closing := true } }), 2, [], by decide +kernel⟩,
   ⟨{ s := 0, d := 0, a := 0, b := 0, c := 0, imm := 0 }, at_ (id) (fun x => { x with chord := some { holder := 0, dest := 2, closing := false } }), 2, by decide +kernel⟩,
   ⟨{ s := 0, d := 0, a := 4, b := 0, c := 0, imm := 2 }, at_ id id, by decide +kernel⟩,
   ⟨{ s := 0, d := 0, a := 4, b := 0, c := 0, imm := 1 }, hand id id, by decide +kernel⟩,
   ⟨{ s := 0, d := 0, a := 4, b := 0, c := 0, imm := 1 }, modCore (at_ id id) 1 (fun x => { x with npres := 2 }), by decide +kernel⟩,
   ⟨{ s := 0, d := 0, a := 4, b := 0, c := 0, imm := 1 }, modCore (at_ id id) 1 (fun x => { x with killed := true }), by decide +kernel⟩⟩

theorem test_witness_LoadOfCachedLine :
  (∃ (o : OpM) (s : State) (e : TlbEntry) (h : TokenHit) (x : Line),
    let ea := effAddr s s.cur o
    let n := 2 ^ o.width.toNat
    let pa := leafPa e.page (ea.toNat % 2 ^ 53) e.leaf
    Issues (.ld o) s ∧ Quiet s ∧ (ctxOf s s.cur).writeLog = [] ∧ ea.toNat % n = 0 ∧ o.width.toNat ≤ 3 ∧ pa % 32 = ea.toNat % 32 ∧ LineReady s ea .read .rd e h x) ∧
  (∃ (o : OpM) (s : State),
    let ea := effAddr s s.cur o
    let n := 2 ^ o.width.toNat
    let a := ea.toNat % 2 ^ 53 - 0x1FFFFF00000000
    Issues (.ld o) s ∧ Quiet s ∧ (ctxOf s s.cur).writeLog = [] ∧ ea.toNat % n = 0 ∧ isExecute (coreOf s.cur) = true ∧ fenced s s.cur 0 = false ∧ ea.toNat / 2 ^ 53 = s.device ∧ 0x1FFFFF00000000 ≤ ea.toNat % 2 ^ 53 ∧ a + n ≤ 0x40000) :=
  ⟨⟨{ s := 0, d := 3, a := 8, b := 0, scale := 0, width := 3, kind := 0, offset := 0 }, at_ id id, tlb0, hit1, line0, by decide +kernel, by decide +kernel, by decide +kernel, by decide +kernel, by decide +kernel, by decide +kernel, by constructor <;> decide +kernel⟩,
   ⟨{ s := 0, d := 3, a := 11, b := 0, scale := 0, width := 3, kind := 0, offset := 0 }, at_ (g 11 0x1fffff00000008 (id)) (fun x => { x with scratch := [(8, 0xF1), (15, 0x80)] }), by decide +kernel⟩⟩

theorem test_witness_StoreToCachedLine :
  (∃ (o : OpM) (s : State) (e : TlbEntry) (h : TokenHit) (x : Line),
    let ea := effAddr s s.cur o
    let n := 2 ^ o.width.toNat
    let pa := leafPa e.page (ea.toNat % 2 ^ 53) e.leaf
    Issues (.st o) s ∧ Quiet s ∧ FreeToAct s ∧ (ctxOf s s.cur).hmode = false ∧ ea.toNat % n = 0 ∧ o.width.toNat ≤ 3 ∧ pa % 32 = ea.toNat % 32 ∧ LineReady s ea .write .wr e h x) ∧
  (∃ (o : OpM) (s : State) (e : TlbEntry) (h : TokenHit) (x : Line),
    let ea := effAddr s s.cur o
    let n := 2 ^ o.width.toNat
    let pa := leafPa e.page (ea.toNat % 2 ^ 53) e.leaf
    Issues (.st o) s ∧ Quiet s ∧ FreeToAct s ∧ (ctxOf s s.cur).hmode = true ∧ ea.toNat % n = 0 ∧ o.width.toNat ≤ 3 ∧ pa % 32 = ea.toNat % 32 ∧ LineReady s ea .write .wr e h x ∧ x.dirty = false ∧ (ctxOf s s.cur).writeLog = []) ∧
  (∃ (o : OpM) (s : State),
    Issues (.st o) s ∧ unfinished (beginIssue s) s.cur = false ∧ fenced s s.cur 0 = false ∧ (effAddr s s.cur o).toNat % 2 ^ o.width.toNat ≠ 0) :=
  ⟨⟨{ s := 0, d := 6, a := 8, b := 0, scale := 0, width := 3, kind := 0, offset := 0 }, at_ id id, tlb0, hit1, line0, by decide +kernel, by decide +kernel, by decide +kernel, by decide +kernel, by decide +kernel, by decide +kernel, by decide +kernel, by constructor <;> decide +kernel⟩,
   ⟨{ s := 0, d := 6, a := 8, b := 0, scale := 0, width := 3, kind := 0, offset := 0 }, hand id id, tlb0, hit1, line0, by decide +kernel, by decide +kernel, by decide +kernel, by decide +kernel, by decide +kernel, by decide +kernel, by decide +kernel, by constructor <;> decide +kernel, by decide +kernel, by decide +kernel⟩,
   ⟨{ s := 0, d := 3, a := 8, b := 0, scale := 0, width := 1, kind := 0, offset := 1 }, at_ id id, by decide +kernel⟩⟩

theorem test_witness_LoadForms :
  (∃ (o : OpM) (s w u : State) (tgt : Target) (x : Nat),
    Issues (.ldv o) s ∧ Quiet s ∧ o.d.toNat < 48 ∧ fenced s s.cur 0 = false ∧ readPlace (beginIssue s) (effAddr s s.cur o) 64 .read = .ok (tgt, w) ∧ ((∀ va pa leaf, tgt = .phys va pa leaf → lineWaits w s.cur (linesOf pa 64) = false)) ∧ readAt w (effAddr s s.cur o) 64 tgt = .ok (x, u)) ∧
  (∃ (o : OpM) (s w : State) (va pa : Nat) (leaf : Word) (i : Instr) (n : Nat) (sx vec : Bool),
    (i, n, sx, vec) ∈ [(Instr.ld o, 2 ^ o.width.toNat, decide (o.kind = 1), false), (.ldv o, 64, false, true)] ∧ Issues i s ∧ o.d.toNat < 48 ∧ readPlace (beginIssue s) (effAddr s s.cur o) n .read = .ok (.phys va pa leaf, w) ∧ lineWaits w s.cur (linesOf pa n) = true) ∧
  (∃ (o : OpM) (s u : State) (x : Nat),
    Issues (.ldv o) s ∧ memRead (beginIssue s) (effAddr s s.cur o) 64 .read = .ok (x, u) ∧ unsettled u s.cur = false ∧ 48 ≤ o.d.toNat ∧ (sget [] (coreAt u (coreOf s.cur)).qOut (o.d.toNat - 48)).length < 16) ∧
  (∃ (o : OpM) (s u : State) (l : List Nat),
    Issues (.lds o) s ∧ Quiet s ∧ readLanes (beginIssue s) (2 ^ o.width.toNat) ((List.range (64 / 2 ^ o.width.toNat)).map (fun i =>
      rg s s.cur o.a.toNat + o.offset.signExtend 64 + BitVec.ofNat 64 i * (rg s s.cur o.b.toNat <<< o.scale.toNat))) = .ok (l, u)) ∧
  (∃ (o : OpM) (s u w : State) (va pa : Nat) (leaf : Word) (x : Line),
    let n := 2 ^ o.width.toNat
    Issues (.ldP o) s ∧ fenced s s.cur 0 = false ∧ (effAddr s s.cur o).toNat % n = 0 ∧ translate (beginIssue s) (effAddr s s.cur o) .rd = .ok (.phys va pa leaf, u) ∧ leafWr leaf = true ∧ tokenCheck u (effAddr s s.cur o) .peek 0 = .ok (.commons, w) ∧ lineOf w (coreOf s.cur) (pa / 32) = some x ∧ x.poison = false) ∧
  (∃ (o : OpM) (s u w : State) (va pa : Nat) (leaf : Word),
    let n := 2 ^ o.width.toNat
    Issues (.ldP o) s ∧ (effAddr s s.cur o).toNat % n = 0 ∧ translate (beginIssue s) (effAddr s s.cur o) .rd = .ok (.phys va pa leaf, u) ∧ leafWr leaf = true ∧ tokenCheck u (effAddr s s.cur o) .peek 0 = .ok (.commons, w) ∧ lineOf w (coreOf s.cur) (pa / 32) = none) :=
  ⟨⟨{ s := 0, d := 5, a := 8, b := 0, scale := 0, width := 5, kind := 0, offset := 0 }, at_ id id, okState (readPlace (beginIssue (at_ id id)) 0x10000 64 .read), okState (readAt (okState (readPlace (beginIssue (at_ id id)) 0x10000 64 .read)) 0x10000 64 (.phys 0x10000 0x10000 leafT)), .phys 0x10000 0x10000 leafT, okOf 0 (readAt (okState (readPlace (beginIssue (at_ id id)) 0x10000 64 .read)) 0x10000 64 (.phys 0x10000 0x10000 leafT)), by decide +kernel, by decide +kernel, by decide +kernel, by decide +kernel, eq_isAt _ _ _ _ (by decide +kernel), (fun va pa leaf h => by cases h; decide +kernel), eq_okOf _ _ (by decide +kernel)⟩,
   ⟨{ s := 0, d := 5, a := 8, b := 0, scale := 0, width := 5, kind := 0, offset := 0 }, noCache, okState (readPlace (beginIssue noCache) 0x10000 64 .read), 0x10000, 0x10000, leafT, .ldv { s := 0, d := 5, a := 8, b := 0, scale := 0, width := 5, kind := 0, offset := 0 }, 64, false, true, by decide +kernel, by decide +kernel, by decide +kernel, eq_isAt _ _ _ _ (by decide +kernel), by decide +kernel⟩,
   ⟨{ s := 0, d := 48, a := 8, b := 0, scale := 0, width := 5, kind := 0, offset := 0 }, at_ id id, okState (memRead (beginIssue (at_ id id)) 0x10000 64 .read), okOf 0 (memRead (beginIssue (at_ id id)) 0x10000 64 .read), by decide +kernel⟩,
   ⟨{ s := 0, d := 5, a := 8, b := 5, scale := 0, width := 2, kind := 0, offset := 0 }, at_ (g 5 0x4 (id)) (id), okState (readLanes (beginIssue (at_ (g 5 0x4 (id)) (id))) (2 ^ ({ s := 0, d := 5, a := 8, b := 5, scale := 0, width := 2, kind := 0, offset := 0 } : OpM).width.toNat) ((List.range (64 / 2 ^ ({ s := 0, d := 5, a := 8, b := 5, scale := 0, width := 2, kind := 0, offset := 0 } : OpM).width.toNat)).map (fun i => rg (at_ (g 5 0x4 (id)) (id)) (at_ (g 5 0x4 (id)) (id)).cur ({ s := 0, d := 5, a := 8, b := 5, scale := 0, width := 2, kind := 0, offset := 0 } : OpM).a.toNat + ({ s := 0, d := 5, a := 8, b := 5, scale := 0, width := 2, kind := 0, offset := 0 } : OpM).offset.signExtend 64 + BitVec.ofNat 64 i * (rg (at_ (g 5 0x4 (id)) (id)) (at_ (g 5 0x4 (id)) (id)).cur ({ s := 0, d := 5, a := 8, b := 5, scale := 0, width := 2, kind := 0, offset := 0 } : OpM).b.toNat <<< ({ s := 0, d := 5, a := 8, b := 5, scale := 0, width := 2, kind := 0, offset := 0 } : OpM).scale.toNat)))), okOf [] (readLanes (beginIssue (at_ (g 5 0x4 (id)) (id))) (2 ^ ({ s := 0, d := 5, a := 8, b := 5, scale := 0, width := 2, kind := 0, offset := 0 } : OpM).width.toNat) ((List.range (64 / 2 ^ ({ s := 0, d := 5, a := 8, b := 5, scale := 0, width := 2, kind := 0, offset := 0 } : OpM).width.toNat)).map (fun i => rg (at_ (g 5 0x4 (id)) (id)) (at_ (g 5 0x4 (id)) (id)).cur ({ s := 0, d := 5, a := 8, b := 5, scale := 0, width := 2, kind := 0, offset := 0 } : OpM).a.toNat + ({ s := 0, d := 5, a := 8, b := 5, scale := 0, width := 2, kind := 0, offset := 0 } : OpM).offset.signExtend 64 + BitVec.ofNat 64 i * (rg (at_ (g 5 0x4 (id)) (id)) (at_ (g 5 0x4 (id)) (id)).cur ({ s := 0, d := 5, a := 8, b := 5, scale := 0, width := 2, kind := 0, offset := 0 } : OpM).b.toNat <<< ({ s := 0, d := 5, a := 8, b := 5, scale := 0, width := 2, kind := 0, offset := 0 } : OpM).scale.toNat)))), by decide +kernel, by decide +kernel, eq_okOf _ _ (by decide +kernel)⟩,
   ⟨{ s := 0, d := 3, a := 9, b := 0, scale := 0, width := 3, kind := 0, offset := 0 }, at_ id id, okState (translate (beginIssue (at_ id id)) 0x20000 .rd), okState (tokenCheck (okState (translate (beginIssue (at_ id id)) 0x20000 .rd)) 0x20000 .peek 0), 0x20000, 0x20000, leafT, { line0 with peeked := true }, by decide +kernel⟩,
   ⟨{ s := 0, d := 3, a := 9, b := 0, scale := 0, width := 3, kind := 0, offset := 0 }, noCache, okState (translate (beginIssue (noCache)) 0x20000 .rd), okState (tokenCheck (okState (translate (beginIssue (noCache)) 0x20000 .rd)) 0x20000 .peek 0), 0x20000, 0x20000, leafT, by decide +kernel⟩⟩

theorem test_witness_LineInstructions :
  (∃ (o : OpM) (s u : State),
    Issues (.stv o) s ∧ Quiet s ∧ o.d.toNat < 48 ∧ (ctxOf s s.cur).cooked = none ∧ memWrite (beginIssue s) (effAddr s s.cur o) 64 (rv s s.cur o.d.toNat).toNat = .ok u) ∧
  (∃ (o : OpM) (s u : State) (x : Vec) (l : List Vec),
    Issues (.stv o) s ∧ 48 ≤ o.d.toNat ∧ unsettled s s.cur = false ∧ (ctxOf s s.cur).cooked = none ∧ (effAddr s s.cur o).toNat / 2 ^ 53 = s.device ∧ popAhead s [o.d.toNat - 48] = false ∧ qInOf s (coreOf s.cur) (o.d.toNat - 48) = x :: l ∧ memWrite (beginIssue s) (effAddr s s.cur o) 64 x.toNat = .ok u) ∧
  (∃ (o : OpM) (s u : State) (va pa : Nat) (leaf : Word),
    Issues (.ldt o) s ∧ (effAddr s s.cur o).toNat % 2 ^ o.width.toNat = 0 ∧ translate (beginIssue s) (effAddr s s.cur o) .rd = .ok (.phys va pa leaf, u) ∧ leafWr leaf = false ∧ trackBusy s s.cur false = false ∧ LinesFree s (.tracked pa (2 ^ o.width.toNat) (o.kind = 1) o.d.toNat)) ∧
  (∃ (o : OpM) (s u w : State) (va pa : Nat) (leaf : Word) (m : Mode),
    Issues (.ldt o) s ∧ (effAddr s s.cur o).toNat % 2 ^ o.width.toNat = 0 ∧ translate (beginIssue s) (effAddr s s.cur o) .rd = .ok (.phys va pa leaf, u) ∧ leafWr leaf = true ∧ ((∀ k, tokenCovering u va = some k → k.mode ≠ .frozen)) ∧ tokenCheck u (effAddr s s.cur o) .peek 0 = .ok (m, w) ∧ trackBusy s s.cur false = false ∧ ((m = .exclusive → lineBusy s (coreOf s.cur) (pa / 32) = false)) ∧ LinesFree s (.tracked pa (2 ^ o.width.toNat) (o.kind = 1) o.d.toNat)) ∧
  (∃ (o : OpM) (s : State),
    Issues (.pref o) s) ∧
  (∃ (o : OpM) (s : State),
    Issues (.acq o) s ∧ (rg s s.cur o.a.toNat).toNat % 32 = 0 ∧ (rg s s.cur o.a.toNat).toNat / 2 ^ 53 = s.device ∧ (∀ p ∈ pieces ((rg s s.cur o.a.toNat).toNat % 2 ^ 53) (rangeBytes o), (tlbFind (coreAt s (coreOf s.cur)).tlb p.1).isSome = true)) ∧
  (∃ (o : OpM) (s : State),
    Issues (.flush o) s ∧ FreeToAct s ∧ (ctxOf s s.cur).hmode = false ∧ (ctxOf s s.cur).fresh = false ∧ fenced s s.cur 0 = false ∧ s.flights.any (fun f => f.ctx = s.cur && isLineOp f.op) = false ∧ (rg s s.cur o.a.toNat).toNat % 32 = 0 ∧ (rg s s.cur o.a.toNat).toNat / 2 ^ 53 = s.device ∧ (∀ p ∈ pieces ((rg s s.cur o.a.toNat).toNat % 2 ^ 53) (rangeBytes o), (tlbFind (coreAt s (coreOf s.cur)).tlb p.1).isSome = true)) ∧
  (∃ (o : OpM) (s : State),
    Issues (.flush o) s ∧ FreeToAct s ∧ BufferRoom s ∧ (rg s s.cur o.a.toNat).toNat % 32 = 0) ∧
  (∃ (o : OpE) (s : State),
    Issues (.fence o) s ∧ ((nbit (o.imm.toNat / 256) 1 = true → unsettled s s.cur = false)) ∧ BufferRoom s) ∧
  (∃ (o : OpE) (s : State),
    Issues (.fence o) s ∧ (ctxOf s s.cur).hmode = false ∧ ((nbit (o.imm.toNat / 256) 1 = true → unsettled s s.cur = false ∧ (coreAt s (coreOf s.cur)).agg = [])) ∧ o.imm.toNat / 256 ≠ 0 ∧ o.imm.toNat % 256 ≠ 0) :=
  ⟨⟨{ s := 0, d := 5, a := 8, b := 0, scale := 0, width := 5, kind := 0, offset := 0 }, at_ (v 5 0x77 id) (id), (match memWrite (beginIssue (at_ (v 5 0x77 id) (id))) 0x10000 64 0x77 with | .ok u => u | .error _ => State.reset), by decide +kernel⟩,
   ⟨{ s := 0, d := 49, a := 8, b := 0, scale := 0, width := 5, kind := 0, offset := 0 }, at_ (id) (fun x => { x with qIn := [(1, [0x55, 0x66])] }), (match memWrite (beginIssue (at_ (id) (fun x => { x with qIn := [(1, [0x55, 0x66])] }))) 0x10000 64 0x55 with | .ok u => u | .error _ => State.reset), 0x55, [0x66], by decide +kernel⟩,
   ⟨{ s := 0, d := 3, a := 11, b := 0, scale := 0, width := 3, kind := 0, offset := 0 }, roPage, okState (translate (beginIssue (roPage)) 0x40000000 .rd), 0x40000000, 0x40000000, roLeaf, by decide +kernel⟩,
   ⟨{ s := 0, d := 3, a := 9, b := 0, scale := 0, width := 3, kind := 0, offset := 0 }, at_ id id, okState (translate (beginIssue (at_ id id)) 0x20000 .rd), okState (tokenCheck (okState (translate (beginIssue (at_ id id)) 0x20000 .rd)) 0x20000 .peek 0), 0x20000, 0x20000, leafT, .commons, by decide +kernel⟩,
   ⟨{ s := 0, d := 0, a := 8, b := 0, scale := 0, width := 0, kind := 0, offset := 32 }, at_ id id, by decide +kernel⟩,
   ⟨{ s := 0, d := 0, a := 9, b := 0, scale := 0, width := 0, kind := 0, offset := 64 }, at_ id id, by decide +kernel⟩,
   ⟨{ s := 0, d := 0, a := 8, b := 0, scale := 0, width := 0, kind := 1, offset := 64 }, at_ id id, by decide +kernel⟩,
   ⟨{ s := 0, d := 0, a := 8, b := 0, scale := 0, width := 0, kind := 1, offset := 64 }, hand id id, by decide +kernel⟩,
   ⟨{ s := 0, d := 0, a := 0, b := 0, c := 0, imm := 543 }, hand id id, by decide +kernel⟩,
   ⟨{ s := 0, d := 0, a := 0, b := 0, c := 0, imm := 516 }, at_ id id, by decide +kernel⟩⟩

theorem test_witness_SliceInstructions :
  (∃ (o : OpM) (s u : State) (i : Instr) (ordered : Bool) (va pa : Nat) (leaf : Word),
    let n := if o.width = 5 then 64 else 2 ^ o.width.toNat
    let op := fun first => SliceOp.write pa (bytesOf (if o.width = 5 then (slotValue s [] o.d).toNat else (rg s s.cur o.d.toNat).toNat) n) first
    (i, ordered) ∈ [(Instr.sts o, true), (.stsA o, false)] ∧ Issues i s ∧ FreeToAct s ∧ ((o.width = 5 → SourcesServed s [o.d])) ∧ sliceTarget (beginIssue s) (effAddr s s.cur o) n = .ok (.phys va pa leaf, u) ∧ PostRoom s ∧ LinesFree s (op none)) ∧
  (∃ (o : OpM) (s u : State) (i : Instr) (ordered : Bool) (va pa : Nat) (leaf : Word),
    let n := if o.width = 5 then 64 else 2 ^ o.width.toNat
    let op := fun first => SliceOp.write pa (bytesOf (if o.width = 5 then (slotValue s [] o.d).toNat else (rg s s.cur o.d.toNat).toNat) n) first
    (i, ordered) ∈ [(Instr.sts o, true), (.stsA o, false)] ∧ Issues i s ∧ FreeToAct s ∧ ((o.width = 5 → SourcesServed s [o.d])) ∧ sliceTarget (beginIssue s) (effAddr s s.cur o) n = .ok (.phys va pa leaf, u) ∧ BufferRoom s) ∧
  (∃ (o : OpM) (s u : State) (va pa : Nat) (leaf : Word),
    let w := if o.width = 2 then 32 else 64
    let op := SliceOp.rmw pa w o.kind.toNat (rg s s.cur o.b.toNat) (rg s s.cur o.d.toNat) o.d.toNat
    Issues (.slop o) s ∧ FreeToAct s ∧ sliceTarget (beginIssue s) (rg s s.cur o.a.toNat + o.offset.signExtend 64) (w / 8) = .ok (.phys va pa leaf, u) ∧ o.d = 0 ∧ PostRoom s ∧ LinesFree s op) ∧
  (∃ (o : OpM) (s u : State) (va pa : Nat) (leaf : Word),
    let w := if o.width = 2 then 32 else 64
    let op := SliceOp.rmw pa w o.kind.toNat (rg s s.cur o.b.toNat) (rg s s.cur o.d.toNat) o.d.toNat
    Issues (.slop o) s ∧ FreeToAct s ∧ sliceTarget (beginIssue s) (rg s s.cur o.a.toNat + o.offset.signExtend 64) (w / 8) = .ok (.phys va pa leaf, u) ∧ o.d = 0 ∧ BufferRoom s) ∧
  (∃ (o : OpM) (s u : State) (va pa : Nat) (leaf : Word),
    let w := if o.width = 2 then 32 else 64
    let op := SliceOp.rmw pa w o.kind.toNat (rg s s.cur o.b.toNat) (rg s s.cur o.d.toNat) o.d.toNat
    Issues (.slop o) s ∧ FreeToAct s ∧ sliceTarget (beginIssue s) (rg s s.cur o.a.toNat + o.offset.signExtend 64) (w / 8) = .ok (.phys va pa leaf, u) ∧ o.d ≠ 0 ∧ LinesFree s op) ∧
  (∃ (o : OpM) (s u : State) (ts : List (Nat × Nat × Word)),
    Issues (.cmls o) s ∧ FreeToAct s ∧ fenced s s.cur 1 = false ∧ trackBusy s s.cur true = false ∧ cmlsTargets (beginIssue s) o.a.toNat (List.range (o.kind.toNat + 1)) = .ok (ts, u) ∧ (∃ e ∈ ts, e.1 % 2048 ≠ (ts.headD (0, 0, 0)).1 % 2048)) ∧
  (∃ (o : OpM) (s u : State) (ts : List (Nat × Nat × Word)),
    Issues (.cmls o) s ∧ FreeToAct s ∧ fenced s s.cur 1 = false ∧ trackBusy s s.cur true = false ∧ cmlsTargets (beginIssue s) o.a.toNat (List.range (o.kind.toNat + 1)) = .ok (ts, u) ∧ (∀ e ∈ ts, e.1 % 2048 = (ts.headD (0, 0, 0)).1 % 2048) ∧ (∃ e ∈ ts, ∀ k ∈ (ctxOf s s.cur).track, k.line ≠ e.2.1 / 256)) ∧
  (∃ (o : OpM) (s u : State) (ts : List (Nat × Nat × Word)),
    Issues (.cmls o) s ∧ FreeToAct s ∧ fenced s s.cur 1 = false ∧ trackBusy s s.cur true = false ∧ cmlsTargets (beginIssue s) o.a.toNat (List.range (o.kind.toNat + 1)) = .ok (ts, u) ∧ (∀ e ∈ ts, e.1 % 2048 = (ts.headD (0, 0, 0)).1 % 2048) ∧ (∀ e ∈ ts, ∃ k ∈ (ctxOf s s.cur).track, k.line = e.2.1 / 256) ∧ LinesFree s (.cmls (ts.map (·.2)) o.d.toNat)) ∧
  (∃ (o : OpM) (s u : State) (va pa : Nat) (leaf : Word),
    Issues (.agg o) s ∧ FreeToAct s ∧ sliceTarget (beginIssue s) (rg s s.cur o.a.toNat + o.offset.signExtend 64) 8 = .ok (.phys va pa leaf, u) ∧ (ctxOf s s.cur).hmode = false ∧ fenced s s.cur 1 = false ∧ LinesFree s (.rmw pa 64 0 0 0 0) ∧ (coreAt s (coreOf s.cur)).agg = []) ∧
  (∃ (o : OpM) (s u : State) (va pa : Nat) (leaf : Word),
    Issues (.agg o) s ∧ FreeToAct s ∧ sliceTarget (beginIssue s) (rg s s.cur o.a.toNat + o.offset.signExtend 64) 8 = .ok (.phys va pa leaf, u) ∧ BufferRoom s) :=
  ⟨⟨{ s := 0, d := 6, a := 9, b := 0, scale := 0, width := 3, kind := 0, offset := 0 }, at_ id id, okState (sliceTarget (beginIssue (at_ id id)) 0x20000 8), (.sts { s := 0, d := 6, a := 9, b := 0, scale := 0, width := 3, kind := 0, offset := 0 }), true, 0x20000, 0x20000, leafT, by simp, by decide +kernel, by decide +kernel, by decide +kernel, by decide +kernel, by decide +kernel⟩,
   ⟨{ s := 0, d := 6, a := 9, b := 0, scale := 0, width := 3, kind := 0, offset := 0 }, hand id id, okState (sliceTarget (beginIssue (hand id id)) 0x20000 8), (.stsA { s := 0, d := 6, a := 9, b := 0, scale := 0, width := 3, kind := 0, offset := 0 }), false, 0x20000, 0x20000, leafT, by simp, by decide +kernel, by decide +kernel, by decide +kernel, by decide +kernel, by decide +kernel⟩,
   ⟨{ s := 0, d := 0, a := 9, b := 5, scale := 0, width := 3, kind := 0, offset := 0 }, at_ id id, okState (sliceTarget (beginIssue (at_ id id)) 0x20000 8), 0x20000, 0x20000, leafT, by decide +kernel⟩,
   ⟨{ s := 0, d := 0, a := 9, b := 5, scale := 0, width := 2, kind := 2, offset := 0 }, hand id id, okState (sliceTarget (beginIssue (hand id id)) 0x20000 4), 0x20000, 0x20000, leafT, by decide +kernel⟩,
   ⟨{ s := 0, d := 6, a := 9, b := 5, scale := 0, width := 3, kind := 7, offset := 0 }, at_ id id, okState (sliceTarget (beginIssue (at_ id id)) 0x20000 8), 0x20000, 0x20000, leafT, by decide +kernel⟩,
   ⟨{ s := 0, d := 6, a := 20, b := 0, scale := 0, width := 3, kind := 1, offset := 0 }, at_ (g 20 0x20000 (g 22 0x20100 (id))) (id), okState (cmlsTargets (beginIssue (at_ (g 20 0x20000 (g 22 0x20100 (id))) (id))) 20 (List.range 2)), okOf [] (cmlsTargets (beginIssue (at_ (g 20 0x20000 (g 22 0x20100 (id))) (id))) 20 (List.range 2)), by decide +kernel⟩,
   ⟨{ s := 0, d := 6, a := 20, b := 0, scale := 0, width := 3, kind := 1, offset := 0 }, at_ (g 20 0x20000 (g 22 0x20008 (id))) (id), okState (cmlsTargets (beginIssue (at_ (g 20 0x20000 (g 22 0x20008 (id))) (id))) 20 (List.range 2)), okOf [] (cmlsTargets (beginIssue (at_ (g 20 0x20000 (g 22 0x20008 (id))) (id))) 20 (List.range 2)), by decide +kernel⟩,
   ⟨{ s := 0, d := 6, a := 20, b := 0, scale := 0, width := 3, kind := 1, offset := 0 }, at_ (g 20 0x20000 (g 22 0x20008 (fun x => { x with track := [{ line := 0x200, stamp := 0, broken := false }] }))) (id), okState (cmlsTargets (beginIssue (at_ (g 20 0x20000 (g 22 0x20008 (fun x => { x with track := [{ line := 0x200, stamp := 0, broken := false }] }))) (id))) 20 (List.range 2)), okOf [] (cmlsTargets (beginIssue (at_ (g 20 0x20000 (g 22 0x20008 (fun x => { x with track := [{ line := 0x200, stamp := 0, broken := false }] }))) (id))) 20 (List.range 2)), by decide +kernel⟩,
   ⟨{ s := 0, d := 0, a := 9, b := 5, scale := 0, width := 3, kind := 0, offset := 0 }, at_ id id, okState (sliceTarget (beginIssue (at_ id id)) 0x20000 8), 0x20000, 0x20000, leafT, by decide +kernel⟩,
   ⟨{ s := 0, d := 0, a := 9, b := 5, scale := 0, width := 3, kind := 0, offset := 0 }, hand id id, okState (sliceTarget (beginIssue (hand id id)) 0x20000 8), 0x20000, 0x20000, leafT, by decide +kernel⟩⟩

theorem test_witness_TranslationAndModes :
  (∃ (s : State) (ea : Word) (p : Perm) (e : TlbEntry),
    ea.toNat / 2 ^ 53 = s.device ∧ ea.toNat % 2 ^ 53 < 0x1FFFFF00000000 ∧ (ctxOf s s.cur).walkFails = [] ∧ tlbFind (coreAt s (coreOf s.cur)).tlb (ea.toNat % 2 ^ 53) = some e ∧ allows p e.leaf = true) ∧
  (∃ (s : State) (ea : Word) (p : Perm) (e : TlbEntry),
    ea.toNat / 2 ^ 53 = s.device ∧ ea.toNat % 2 ^ 53 < 0x1FFFFF00000000 ∧ (ctxOf s s.cur).walkFails = [] ∧ tlbFind (coreAt s (coreOf s.cur)).tlb (ea.toNat % 2 ^ 53) = some e ∧ allows p e.leaf = false) ∧
  (∃ (s : State) (ea : Word) (p : Perm) (e : TlbEntry),
    ea.toNat / 2 ^ 53 = s.device ∧ ea.toNat % 2 ^ 53 < 0x1FFFFF00000000 ∧ (ctxOf s s.cur).walkFails = [] ∧ tlbFind (coreAt s (coreOf s.cur)).tlb (ea.toNat % 2 ^ 53) = none ∧ tlbFind (clusterAt s (vertexOf (coreOf s.cur))).tlb (ea.toNat % 2 ^ 53) = some e ∧ allows p e.leaf = true) ∧
  (∃ (s : State) (ea : Word) (p : Perm),
    ea.toNat / 2 ^ 53 = s.device ∧ ea.toNat % 2 ^ 53 < 0x1FFFFF00000000 ∧ (ctxOf s s.cur).walkFails = [] ∧ tlbFind (coreAt s (coreOf s.cur)).tlb (ea.toNat % 2 ^ 53) = none ∧ tlbFind (clusterAt s (vertexOf (coreOf s.cur))).tlb (ea.toNat % 2 ^ 53) = none) ∧
  (∃ (s : State) (ea : Word) (p : Perm),
    0x1FFFFF00000000 ≤ ea.toNat % 2 ^ 53 ∧ isExecute (coreOf s.cur) = false ∧ isAccess (coreOf s.cur) = false) ∧
  (∃ h sh,
    (h || sh) = true) :=
  ⟨⟨roPage, 0x40000008, .rd, { page := 0x40000000, lsize := 30, leaf := roLeaf }, by decide +kernel⟩,
   ⟨roPage, 0x40000008, .wr, { page := 0x40000000, lsize := 30, leaf := roLeaf }, by decide +kernel⟩,
   ⟨(modCluster (roPage) 0 (fun k => { k with tlb := [{ page := 0x80000000, lsize := 30, leaf := roLeaf }] })), 0x80000008, .rd, { page := 0x80000000, lsize := 30, leaf := roLeaf }, by decide +kernel⟩,
   ⟨roPage, 0x80000000, .rd, by decide +kernel⟩,
   ⟨{ base with cur := 14832 }, 0x1FFFFF00000000, .rd, by decide +kernel⟩,
   ⟨false, true, by decide +kernel⟩⟩

theorem test_witness_TokenInstructionsAndEntries :
  (∃ (o : OpA) (s : State) (i : Instr) (kind : TokenKind) (t : Token) (x : BitVec 32),
    let ea := rg s s.cur o.a.toNat
    let op : TokenOp := { kind := kind, va := ea.toNat % 2 ^ 53, holder := rg s s.cur o.b.toNat, d := o.d.toNat, lsize := 0, commons := false,
                          xfer := x, retried := false }
    (i, kind) ∈ [(Instr.tklend o, TokenKind.lend), (.tkret o, .ret), (.tksplit o, .split), (.tkjoin o, .join), (.tkshare o, .share),
      (.tkdrop o, .drop), (.tkpark o, if o.md.getLsbD 0 then .parkShare else .park)] ∧ Issues i s ∧ (ctxOf s s.cur).fresh = false ∧ FreeToAct s ∧ returning s s.cur = false ∧ ea.toNat / 2 ^ 53 = s.device ∧ tokenSeen s s.cur (ea.toNat % 2 ^ 53) = some (t, x) ∧ (ctxOf s s.cur).hmode = false ∧ sumsOf s (coreOf s.cur) t = false ∧ ((∀ f ∈ s.flights, (f.ctx = s.cur ∨ (f.path = 7 ∧ coreOf f.ctx = coreOf s.cur)) → ∀ p ∈ opSpan f.op, regionHas s t p.1 = false))) ∧
  (∃ (o : OpA) (s : State) (i : Instr) (kind : TokenKind) (t : Token) (x : BitVec 32),
    let ea := rg s s.cur o.a.toNat
    let op : TokenOp := { kind := kind, va := ea.toNat % 2 ^ 53, holder := rg s s.cur o.b.toNat, d := o.d.toNat, lsize := 0, commons := false,
                          xfer := x, retried := false }
    (i, kind) ∈ [(Instr.tklend o, TokenKind.lend), (.tkret o, .ret), (.tksplit o, .split), (.tkjoin o, .join), (.tkshare o, .share),
      (.tkdrop o, .drop), (.tkpark o, if o.md.getLsbD 0 then .parkShare else .park)] ∧ Issues i s ∧ (ctxOf s s.cur).fresh = false ∧ FreeToAct s ∧ returning s s.cur = false ∧ ea.toNat / 2 ^ 53 = s.device ∧ tokenSeen s s.cur (ea.toNat % 2 ^ 53) = some (t, x) ∧ BufferRoom s ∧ tokenBad s (holderWords s s.cur 0) (graphOfCtx s s.cur) op t = none) ∧
  (∃ (o : OpA) (s : State) (base : Nat) (pool : List (Nat × Nat)),
    let l := o.md.toNat % 64
    let a := accountOf s (ctxOf s s.cur).acct.toNat
    Issues (.tkcarve o) s ∧ FreeToAct s ∧ (ctxOf s s.cur).fresh = false ∧ fenced s s.cur 1 = false ∧ returning s s.cur = false ∧ a.charge + 2 ^ l ≤ a.quota.toNat * 65536 ∧ poolTake a.pool l = some (base, pool) ∧ s.tokens.length < Config.tokenEntries) ∧
  (∃ (o : OpA) (s : State),
    let a := accountOf s (ctxOf s s.cur).acct.toNat
    Issues (.tkcarve o) s ∧ unfinished (beginIssue s) s.cur = false ∧ a.quota.toNat * 65536 < a.charge + 2 ^ (o.md.toNat % 64)) ∧
  (∃ (o : OpA) (s : State),
    Issues (.tkstat o) s ∧ returning s s.cur = false ∧ (rg s s.cur o.a.toNat).toNat / 2 ^ 53 = s.device) ∧
  (∃ (o : OpA) (s : State),
    let a := (rg s s.cur o.a.toNat).toNat
    let k := a % 65536 / 8
    Issues (.tkclaim o) s ∧ FreeToAct s ∧ (ctxOf s s.cur).fresh = false ∧ returning s s.cur = false ∧ a < 2 ^ 27 ∧ a / 65536 = s.device ∧ coreExists k = true ∧ (coreAt s k).killed = true) ∧
  (∃ (s : State) (id : Nat) (f : Flight Regs) (o : TokenOp),
    let r := claimCore s o.va (holderAgent (agentOf s f.ctx))
    flightOf s id = some f ∧ f.op = .token o ∧ o.kind = .claim ∧ f.wb = [] ∧ f.fault = none ∧ f.due ≤ s.cycle ∧ (coreAt s (coreOf f.ctx)).killed = false) ∧
  (∃ (o : OpA) (s : State) (t : Token) (x : BitVec 32),
    Issues (.tkclean o) s ∧ FreeToAct s ∧ (ctxOf s s.cur).fresh = false ∧ returning s s.cur = false ∧ (rg s s.cur o.a.toNat).toNat / 2 ^ 53 = s.device ∧ tokenSeen s s.cur ((rg s s.cur o.a.toNat).toNat % 2 ^ 53) = some (t, x)) ∧
  (∃ (s : State) (id : Nat) (f : Flight Regs) (o : TokenOp) (t : Token),
    flightOf s id = some f ∧ f.op = .token o ∧ o.kind = .clean ∧ f.wb = [] ∧ f.fault = none ∧ f.due ≤ s.cycle ∧ tokenProbe s o.va = some t) ∧
  (∃ (s : State) (id : Nat) (f : Flight Regs) (o : TokenOp) (t : Token),
    let v := dropLines s (coreOf f.ctx) o t
    let w := t.wr && stillDirty v t
    let l := t.wr && (sameCore v (coreOf f.ctx) o t || stillDirty v t)
    flightOf s id = some f ∧ f.op = .token o ∧ f.wb = [] ∧ f.fault = none ∧ f.due ≤ s.cycle ∧ tokenProbe s o.va = some t ∧ t.xfer = o.xfer ∧ tokenBad s (holderWords s f.ctx 0) (graphOfCtx s f.ctx) o t = none) ∧
  (∃ (s : State) (id l : Nat) (r : List Nat) (f : Flight Regs) (x : Line),
    flightOf s id = some f ∧ f.wb = l :: r ∧ lineOf s (coreOf f.ctx) l = some x ∧ x.dirty = true ∧ cxlGone s (32 * l) = false) :=
  ⟨⟨{ s := 0, d := 0, a := 8, b := 11, c := 0, md := 0 }, held, (.tklend { s := 0, d := 0, a := 8, b := 11, c := 0, md := 0 }), .lend, (tokAt held 0x10000), 0, by simp, by decide +kernel⟩,
   ⟨{ s := 0, d := 0, a := 8, b := 11, c := 0, md := 0 }, heldH, (.tklend { s := 0, d := 0, a := 8, b := 11, c := 0, md := 0 }), .lend, (tokAt heldH 0x10000), 0, by simp, by decide +kernel⟩,
   ⟨{ s := 0, d := 3, a := 0, b := 0, c := 0, md := 16 }, carved, 0x100000, [(0x110000, 16), (0x120000, 17), (0x140000, 18), (0x180000, 19)], by decide +kernel⟩,
   ⟨{ s := 0, d := 3, a := 0, b := 0, c := 0, md := 21 }, carved, by decide +kernel⟩,
   ⟨{ s := 0, d := 3, a := 8, b := 0, c := 0, md := 0 }, at_ id id, by decide +kernel⟩,
   ⟨{ s := 0, d := 3, a := 8, b := 0, c := 0, md := 0 }, (modCore (apex (g 8 8 id)) 1 (fun k => { k with killed := true })), by decide +kernel⟩,
   ⟨{ flying (modCore base 2 (fun k => { k with killed := true })) (.token { kind := .claim, va := 2, holder := 0, d := 3, lsize := 0, commons := false, xfer := 0, retried := false }) with tokens := [(0x10000, some { tok 0x10000 12 .exclusive (holderAgent 17) [] with wr := true })] }, 7, fl 7 (.token { kind := .claim, va := 2, holder := 0, d := 3, lsize := 0, commons := false, xfer := 0, retried := false }) [], { kind := .claim, va := 2, holder := 0, d := 3, lsize := 0, commons := false, xfer := 0, retried := false }, by decide +kernel⟩,
   ⟨{ s := 0, d := 0, a := 8, b := 0, c := 0, md := 0 }, (withTokens (apex id)), (tokAt (withTokens (apex id)) 0x10000), 0, by decide +kernel⟩,
   ⟨{ flying base (.token { kind := .clean, va := 0x10000, holder := 0, d := 0, lsize := 0, commons := false, xfer := 0, retried := false }) with tokens := [(0x10000, some { tok 0x10000 12 .exclusive (holderAgent 17) [] with taint := true })] }, 7, fl 7 (.token { kind := .clean, va := 0x10000, holder := 0, d := 0, lsize := 0, commons := false, xfer := 0, retried := false }) [], { kind := .clean, va := 0x10000, holder := 0, d := 0, lsize := 0, commons := false, xfer := 0, retried := false }, { tok 0x10000 12 .exclusive (holderAgent 17) [] with taint := true }, by decide +kernel⟩,
   ⟨(flying held (.token { kind := .lend, va := 0x10000, holder := holderAgent 1, d := 0, lsize := 0, commons := false, xfer := 0, retried := false })), 7, fl 7 (.token { kind := .lend, va := 0x10000, holder := holderAgent 1, d := 0, lsize := 0, commons := false, xfer := 0, retried := false }) [], { kind := .lend, va := 0x10000, holder := holderAgent 1, d := 0, lsize := 0, commons := false, xfer := 0, retried := false }, tokAt held 0x10000, by decide +kernel⟩,
   ⟨{ modCore base 0 (fun k => { k with dcache := [(2048, some { line0 with dirty := true })] }) with flights := [fl 7 (.fence 0 0) [2048]] }, 7, 2048, [], fl 7 (.fence 0 0) [2048], { line0 with dirty := true }, by decide +kernel⟩⟩

theorem test_witness_VectorIntegers :
  (∃ (o : OpV) (s : State) (i : Instr) (g : Int → Int → Int),
    let f := o.fmt.toNat
    let x := fun v j => laneValue f (lane v (laneBits f) j)
    (i, g) ∈ [(Instr.vadd o, fun x y => x + y), (.vsub o, fun x y => x - y), (.vmul o, fun x y => x * y), (.vmin o, min), (.vmax o, max)] ∧ isFloatFmt o.fmt.toNat = false ∧ Issues i s ∧ Quiet s ∧ Served s o 2) ∧
  (∃ (o : OpV) (s : State) (i : Instr) (g : Int → Int),
    let f := o.fmt.toNat
    (i, g) ∈ [(Instr.vabs o, fun x => (x.natAbs : Int)), (.vneg o, fun x => -x)] ∧ isFloatFmt o.fmt.toNat = false ∧ Issues i s ∧ Quiet s ∧ Served s o 1) ∧
  (∃ (o : OpV) (s : State),
    let f := o.fmt.toNat
    let x := fun v j => laneValue f (lane v (laneBits f) j)
    isFloatFmt o.fmt.toNat = false ∧ Issues (.vfma o) s ∧ Quiet s ∧ Served s o 3) ∧
  (∃ (o : OpV) (s : State),
    let f := o.fmt.toNat
    let x := fun v j => laneValue f (lane v 16 j)
    isFloatFmt o.fmt.toNat = false ∧ Issues (.vdot o) s ∧ Quiet s ∧ Served s o 3) :=
  ⟨⟨{ s := 0, d := 3, a := 4, b := 5, c := 0, pred := 0, hold := 0, fmt := 4, rnd := 0, limm := 0 }, at_ (v 4 0x80007FFF00010002FFFFFFFF80000000 (v 5 0x00010003FFFF0005FFFFFFFF00000002 (v 6 0x3F8000004000000041200000 (v 7 0x402000003F80000000000001 (id))))) (id), (.vadd { s := 0, d := 3, a := 4, b := 5, c := 0, pred := 0, hold := 0, fmt := 4, rnd := 0, limm := 0 }), (fun x y => x + y), by simp, by decide +kernel⟩,
   ⟨{ s := 0, d := 3, a := 4, b := 0, c := 0, pred := 0, hold := 0, fmt := 4, rnd := 0, limm := 0 }, at_ (v 4 0x80007FFF00010002FFFFFFFF80000000 (v 5 0x00010003FFFF0005FFFFFFFF00000002 (v 6 0x3F8000004000000041200000 (v 7 0x402000003F80000000000001 (id))))) (id), (.vabs { s := 0, d := 3, a := 4, b := 0, c := 0, pred := 0, hold := 0, fmt := 4, rnd := 0, limm := 0 }), (fun x => (x.natAbs : Int)), by simp, by decide +kernel⟩,
   ⟨{ s := 0, d := 3, a := 4, b := 5, c := 6, pred := 0, hold := 0, fmt := 4, rnd := 0, limm := 0 }, at_ (v 4 0x80007FFF00010002FFFFFFFF80000000 (v 5 0x00010003FFFF0005FFFFFFFF00000002 (v 6 0x3F8000004000000041200000 (v 7 0x402000003F80000000000001 (id))))) (id), by decide +kernel⟩,
   ⟨{ s := 0, d := 3, a := 4, b := 5, c := 6, pred := 0, hold := 0, fmt := 2, rnd := 0, limm := 0 }, at_ (v 4 0x80007FFF00010002FFFFFFFF80000000 (v 5 0x00010003FFFF0005FFFFFFFF00000002 (v 6 0x3F8000004000000041200000 (v 7 0x402000003F80000000000001 (id))))) (id), by decide +kernel⟩⟩

theorem test_witness_VectorFloatsAndSums :
  (∃ (o : OpV) (s : State) (i : Instr) (g : Nat → Nat → Nat → Nat → Nat × Flags),
    let f := o.fmt.toNat
    let m := if o.rnd = 0 then (ctxOf s s.cur).rmode.toNat else o.rnd.toNat
    let r := fun j => g m f (lane (slotA s o) (laneBits f) j) (lane (slotB s o) (laneBits f) j)
    (i, g) ∈ [(Instr.vadd o, floatAdd), (.vsub o, floatSub), (.vmul o, floatMul), (.vmin o, fun _ f x y => floatMinMax f false x y),
      (.vmax o, fun _ f x y => floatMinMax f true x y)] ∧ isFloatFmt o.fmt.toNat = true ∧ Issues i s ∧ Quiet s ∧ Served s o 2) ∧
  (∃ (o : OpV) (s : State) (i : Instr) (g : Machine.Num → Machine.Num × Flags),
    let f := o.fmt.toNat
    let m := if o.rnd = 0 then (ctxOf s s.cur).rmode.toNat else o.rnd.toNat
    (i, g) ∈ [(Instr.vrcp o, rcpNum), (.vrsq o, rsqNum), (.vexp2 o, exp2Num), (.vlog2 o, log2Num)] ∧ Issues i s ∧ Quiet s ∧ Served s o 1 ∧ (coreAt s (coreOf s.cur)).unitFree ≤ s.cycle) ∧
  (∃ (o : OpV) (s : State),
    let dst := o.fmt.toNat
    let src := o.limm.toNat % 16
    let n := cvtCount dst src
    let k := coreAt s (coreOf s.cur)
    let m := if o.rnd = 0 then (ctxOf s s.cur).rmode.toNat else o.rnd.toNat
    let whole := !(isFloatFmt src) && src ≠ 9 && src ≠ 10
    let e := fun j => decodeElem k.i4tab0 k.i4tab1 src (lane (slotA s o) (fmtBits src) (n * (o.limm.toNat / 16 % 8) + j))
    let y := fun j => if dst = 8 then (encodeI4 k.i4tab0 k.i4tab1 whole (e j)).1 else (roundNum m dst whole (e j)).1
    Issues (.vcvt o) s ∧ Quiet s ∧ Served s o 1) ∧
  (∃ (o : OpV) (s : State),
    Issues (.vred o) s ∧ Quiet s ∧ Served s o 1) ∧
  (∃ (o : OpV) (s : State),
    let f := o.fmt.toNat
    isFloatFmt o.fmt.toNat = false ∧ o.limm = 0 ∧ Issues (.vred o) s ∧ Quiet s ∧ Served s o 1) ∧
  (∃ (o : OpV) (s : State),
    let f := o.fmt.toNat
    let m := if o.rnd = 0 then (ctxOf s s.cur).rmode.toNat else o.rnd.toNat
    let item := fun j => if (rp s s.cur o.pred.toNat).getLsbD j then some (lane (slotA s o) (laneBits f) j) else none
    Issues (.vred o) s ∧ Quiet s ∧ Served s o 1) ∧
  (∃ (o : OpV) (s : State),
    let f := o.fmt.toNat
    let m := if o.rnd = 0 then (ctxOf s s.cur).rmode.toNat else o.rnd.toNat
    let x := fun v j => decodeIeee f (lane v (laneBits f) j)
    let p := fun j => nmul (x (slotA s o) j) (x (slotB s o) j)
    let q := fun j => nadd m (p j).1 (x (slotC s o) j)
    isFloatFmt o.fmt.toNat = true ∧ Issues (.vfma o) s ∧ Quiet s ∧ Served s o 3) ∧
  (∃ (o : OpV) (s : State),
    let m := if o.rnd = 0 then (ctxOf s s.cur).rmode.toNat else o.rnd.toNat
    let x := fun v j => decodeIeee o.fmt.toNat (lane v 16 j)
    let p := fun j => (nmul (x (slotA s o) j) (x (slotB s o) j)).1
    isFloatFmt o.fmt.toNat = true ∧ Issues (.vdot o) s ∧ Quiet s ∧ Served s o 3) ∧
  (∃ (o : OpV) (s : State) (i : Instr) (g : BitVec 64 → BitVec 64 → BitVec 64),
    let f := o.fmt.toNat
    let w := laneBits f
    let x := fun j => lane (slotA s o) w j
    (i, g) ∈ [(Instr.vabs o, fun x top => x &&& ~~~top), (.vneg o, fun x top => x ^^^ top)] ∧ isFloatFmt o.fmt.toNat = true ∧ Issues i s ∧ Quiet s ∧ Served s o 1) ∧
  (∃ (o : OpV) (s : State),
    let f := o.fmt.toNat
    let x := fun v j => decodeIeee f (lane v (laneBits f) j)
    isFloatFmt o.fmt.toNat = true ∧ Issues (.vcmp o) s ∧ Quiet s ∧ SourcesServed s [o.a, o.b]) :=
  ⟨⟨{ s := 0, d := 3, a := 6, b := 7, c := 0, pred := 0, hold := 0, fmt := 13, rnd := 0, limm := 0 }, at_ (v 4 0x80007FFF00010002FFFFFFFF80000000 (v 5 0x00010003FFFF0005FFFFFFFF00000002 (v 6 0x3F8000004000000041200000 (v 7 0x402000003F80000000000001 (id))))) (id), (.vadd { s := 0, d := 3, a := 6, b := 7, c := 0, pred := 0, hold := 0, fmt := 13, rnd := 0, limm := 0 }), floatAdd, by simp, by decide +kernel⟩,
   ⟨{ s := 0, d := 3, a := 6, b := 0, c := 0, pred := 0, hold := 0, fmt := 13, rnd := 0, limm := 0 }, at_ (v 4 0x80007FFF00010002FFFFFFFF80000000 (v 5 0x00010003FFFF0005FFFFFFFF00000002 (v 6 0x3F8000004000000041200000 (v 7 0x402000003F80000000000001 (id))))) (id), (.vrcp { s := 0, d := 3, a := 6, b := 0, c := 0, pred := 0, hold := 0, fmt := 13, rnd := 0, limm := 0 }), rcpNum, by simp, by decide +kernel⟩,
   ⟨{ s := 0, d := 8, a := 4, b := 0, c := 0, pred := 0, hold := 0, fmt := 8, rnd := 0, limm := 13 }, at_ (v 4 0x80007FFF00010002FFFFFFFF80000000 (v 5 0x00010003FFFF0005FFFFFFFF00000002 (v 6 0x3F8000004000000041200000 (v 7 0x402000003F80000000000001 (id))))) (id), by decide +kernel⟩,
   ⟨{ s := 0, d := 3, a := 4, b := 0, c := 0, pred := 0, hold := 0, fmt := 4, rnd := 0, limm := 0 }, at_ (v 4 0x80007FFF00010002FFFFFFFF80000000 (v 5 0x00010003FFFF0005FFFFFFFF00000002 (v 6 0x3F8000004000000041200000 (v 7 0x402000003F80000000000001 (id))))) (id), by decide +kernel⟩,
   ⟨{ s := 0, d := 3, a := 4, b := 0, c := 0, pred := 0, hold := 0, fmt := 4, rnd := 0, limm := 0 }, at_ (v 4 0x80007FFF00010002FFFFFFFF80000000 (v 5 0x00010003FFFF0005FFFFFFFF00000002 (v 6 0x3F8000004000000041200000 (v 7 0x402000003F80000000000001 (id))))) (id), by decide +kernel⟩,
   ⟨{ s := 0, d := 3, a := 6, b := 0, c := 0, pred := 0, hold := 0, fmt := 13, rnd := 0, limm := 0 }, at_ (v 4 0x80007FFF00010002FFFFFFFF80000000 (v 5 0x00010003FFFF0005FFFFFFFF00000002 (v 6 0x3F8000004000000041200000 (v 7 0x402000003F80000000000001 (v 8 0x7F800000FF8000007FA000007F800000BF800000 (id)))))) (id), by decide +kernel⟩,
   ⟨{ s := 0, d := 3, a := 6, b := 7, c := 8, pred := 0, hold := 0, fmt := 13, rnd := 0, limm := 0 }, at_ (v 4 0x80007FFF00010002FFFFFFFF80000000 (v 5 0x00010003FFFF0005FFFFFFFF00000002 (v 6 0x3F8000004000000041200000 (v 7 0x402000003F80000000000001 (v 8 0x7F800000FF8000007FA000007F800000BF800000 (id)))))) (id), by decide +kernel⟩,
   ⟨{ s := 0, d := 3, a := 6, b := 7, c := 8, pred := 0, hold := 0, fmt := 12, rnd := 0, limm := 0 }, at_ (v 4 0x80007FFF00010002FFFFFFFF80000000 (v 5 0x00010003FFFF0005FFFFFFFF00000002 (v 6 0x3F8000004000000041200000 (v 7 0x402000003F80000000000001 (v 8 0x7F800000FF8000007FA000007F800000BF800000 (id)))))) (id), by decide +kernel⟩,
   ⟨{ s := 0, d := 3, a := 8, b := 0, c := 0, pred := 0, hold := 0, fmt := 13, rnd := 0, limm := 0 }, at_ (v 4 0x80007FFF00010002FFFFFFFF80000000 (v 5 0x00010003FFFF0005FFFFFFFF00000002 (v 6 0x3F8000004000000041200000 (v 7 0x402000003F80000000000001 (v 8 0x7F800000FF8000007FA000007F800000BF800000 (id)))))) (id), (.vabs { s := 0, d := 3, a := 8, b := 0, c := 0, pred := 0, hold := 0, fmt := 13, rnd := 0, limm := 0 }), fun x top => x &&& ~~~top, .head _, by decide +kernel⟩,
   ⟨{ s := 0, d := 2, a := 6, b := 7, c := 0, pred := 0, hold := 0, fmt := 13, rnd := 0, limm := 0 }, at_ (v 4 0x80007FFF00010002FFFFFFFF80000000 (v 5 0x00010003FFFF0005FFFFFFFF00000002 (v 6 0x3F8000004000000041200000 (v 7 0x402000003F80000000000001 (v 8 0x7F800000FF8000007FA000007F800000BF800000 (id)))))) (id), by decide +kernel⟩⟩

theorem test_witness_VectorMoves :
  (∃ (o : OpV) (s : State) (i : Instr) (g : Nat → Nat → Nat),
    let w := laneBits o.fmt.toNat
    (i, g) ∈ [(Instr.vand o, (· &&& ·)), (.vor o, (· ||| ·)), (.vxor o, (· ^^^ ·))] ∧ Issues i s ∧ Quiet s ∧ Served s o 2) ∧
  (∃ (o : OpV) (s : State),
    let w := laneBits o.fmt.toNat
    Issues (.vsel o) s ∧ Quiet s ∧ Served s o 2) ∧
  (∃ (o : OpV) (s : State),
    let w := laneBits o.fmt.toNat
    let k := fun j => lane (slotB s o) w j % 2 ^ (if w = 16 then 5 else 4)
    Issues (.vperm o) s ∧ Quiet s ∧ Served s o 2) ∧
  (∃ (o : OpV) (s : State),
    let n := if 2048 ≤ o.limm.toNat then 0 else 1
    Issues (.vbcast o) s ∧ Quiet s ∧ Served s o n) ∧
  (∃ (o : OpV) (s : State),
    Issues (.vmov o) s ∧ Quiet s ∧ Served s o 1 ∧ o.limm.toNat < 2048) ∧
  (∃ (o : OpV) (s : State),
    Issues (.vmov o) s ∧ Quiet s ∧ SourcesServed s [o.a] ∧ 2048 ≤ o.limm.toNat) ∧
  (∃ (o : OpV) (s : State),
    Issues (.viota o) s ∧ Quiet s ∧ DestServed s o.d) ∧
  (∃ (o : OpV) (s : State),
    unitOk (coreOf s.cur) (.vbcast o) = true ∧ ((o.limm.toNat < 2048 ∧ laneCount o.fmt.toNat ≤ o.limm.toNat) ∨ 2048 < o.limm.toNat)) ∧
  (∃ (o : OpV) (s : State),
    unitOk (coreOf s.cur) (.vmov o) = true ∧ ((o.limm.toNat < 2048 ∧ o.limm ≠ 0) ∨ (2048 ≤ o.limm.toNat ∧ (o.pred ≠ 0 ∨ laneCount o.fmt.toNat ≤ o.limm.toNat - 2048)))) ∧
  (∃ (o : OpV) (s : State),
    unitOk (coreOf s.cur) (.viota o) = true ∧ (o.a ≠ 0 ∨ o.b ≠ 0 ∨ o.c ≠ 0 ∨ 256 ≤ o.limm.toNat)) ∧
  (∃ (o : OpV) (s : State),
    let n := if 2048 ≤ o.limm.toNat then 1 else 2
    let w := laneBits o.fmt.toNat
    let m := fun j => if 2048 ≤ o.limm.toNat then o.limm.toNat % 32 else lane (slotB s o) w j
    Issues (.vshl o) s ∧ Quiet s ∧ Served s o n) ∧
  (∃ (o : OpV) (s : State),
    let n := if 2048 ≤ o.limm.toNat then 1 else 2
    let w := laneBits o.fmt.toNat
    let m := fun j => if 2048 ≤ o.limm.toNat then o.limm.toNat % 32 else lane (slotB s o) w j
    Issues (.vshr o) s ∧ Quiet s ∧ Served s o n) :=
  ⟨⟨{ s := 0, d := 3, a := 4, b := 5, c := 0, pred := 0, hold := 0, fmt := 4, rnd := 0, limm := 0 }, at_ (v 4 0x80007FFF00010002FFFFFFFF80000000 (v 5 0x00010003FFFF0005FFFFFFFF00000002 (v 6 0x3F8000004000000041200000 (v 7 0x402000003F80000000000001 (id))))) (id), (.vand { s := 0, d := 3, a := 4, b := 5, c := 0, pred := 0, hold := 0, fmt := 4, rnd := 0, limm := 0 }), (· &&& ·), by simp, by decide +kernel⟩,
   ⟨{ s := 0, d := 3, a := 4, b := 5, c := 0, pred := 1, hold := 0, fmt := 4, rnd := 0, limm := 0 }, at_ (v 4 0x80007FFF00010002FFFFFFFF80000000 (v 5 0x00010003FFFF0005FFFFFFFF00000002 (v 6 0x3F8000004000000041200000 (v 7 0x402000003F80000000000001 (fun x => { x with regs := { x.regs with p := [(1, 0x55)] } }))))) (id), by decide +kernel⟩,
   ⟨{ s := 0, d := 3, a := 4, b := 5, c := 0, pred := 1, hold := 0, fmt := 4, rnd := 0, limm := 0 }, at_ (v 4 0x80007FFF00010002FFFFFFFF80000000 (v 5 0x00010003FFFF0005FFFFFFFF00000002 (v 6 0x3F8000004000000041200000 (v 7 0x402000003F80000000000001 (fun x => { x with regs := { x.regs with p := [(1, 0x55)] } }))))) (id), by decide +kernel⟩,
   ⟨{ s := 0, d := 3, a := 6, b := 0, c := 0, pred := 0, hold := 0, fmt := 4, rnd := 0, limm := 2048 }, at_ (v 4 0x80007FFF00010002FFFFFFFF80000000 (v 5 0x00010003FFFF0005FFFFFFFF00000002 (v 6 0x3F8000004000000041200000 (v 7 0x402000003F80000000000001 (id))))) (id), by decide +kernel⟩,
   ⟨{ s := 0, d := 3, a := 4, b := 0, c := 0, pred := 1, hold := 0, fmt := 4, rnd := 0, limm := 0 }, at_ (v 4 0x80007FFF00010002FFFFFFFF80000000 (v 5 0x00010003FFFF0005FFFFFFFF00000002 (v 6 0x3F8000004000000041200000 (v 7 0x402000003F80000000000001 (fun x => { x with regs := { x.regs with p := [(1, 0x55)] } }))))) (id), by decide +kernel⟩,
   ⟨{ s := 0, d := 3, a := 4, b := 0, c := 0, pred := 0, hold := 0, fmt := 4, rnd := 0, limm := 2051 }, at_ (v 4 0x80007FFF00010002FFFFFFFF80000000 (v 5 0x00010003FFFF0005FFFFFFFF00000002 (v 6 0x3F8000004000000041200000 (v 7 0x402000003F80000000000001 (id))))) (id), by decide +kernel⟩,
   ⟨{ s := 0, d := 3, a := 0, b := 0, c := 0, pred := 0, hold := 0, fmt := 4, rnd := 0, limm := 5 }, at_ (v 4 0x80007FFF00010002FFFFFFFF80000000 (v 5 0x00010003FFFF0005FFFFFFFF00000002 (v 6 0x3F8000004000000041200000 (v 7 0x402000003F80000000000001 (id))))) (id), by decide +kernel⟩,
   ⟨{ s := 0, d := 3, a := 4, b := 0, c := 0, pred := 0, hold := 0, fmt := 4, rnd := 0, limm := 16 }, at_ (v 4 0x80007FFF00010002FFFFFFFF80000000 (v 5 0x00010003FFFF0005FFFFFFFF00000002 (v 6 0x3F8000004000000041200000 (v 7 0x402000003F80000000000001 (id))))) (id), by decide +kernel⟩,
   ⟨{ s := 0, d := 3, a := 4, b := 0, c := 0, pred := 0, hold := 0, fmt := 4, rnd := 0, limm := 1 }, at_ (v 4 0x80007FFF00010002FFFFFFFF80000000 (v 5 0x00010003FFFF0005FFFFFFFF00000002 (v 6 0x3F8000004000000041200000 (v 7 0x402000003F80000000000001 (id))))) (id), by decide +kernel⟩,
   ⟨{ s := 0, d := 3, a := 1, b := 0, c := 0, pred := 0, hold := 0, fmt := 4, rnd := 0, limm := 0 }, at_ (v 4 0x80007FFF00010002FFFFFFFF80000000 (v 5 0x00010003FFFF0005FFFFFFFF00000002 (v 6 0x3F8000004000000041200000 (v 7 0x402000003F80000000000001 (id))))) (id), by decide +kernel⟩,
   ⟨{ s := 0, d := 3, a := 4, b := 5, c := 0, pred := 0, hold := 0, fmt := 4, rnd := 0, limm := 0 }, at_ (v 4 0x80007FFF00010002FFFFFFFF80000000 (v 5 0x00010003FFFF0005FFFFFFFF00000002 (v 6 0x3F8000004000000041200000 (v 7 0x402000003F80000000000001 (id))))) (id), by decide +kernel⟩,
   ⟨{ s := 0, d := 3, a := 4, b := 5, c := 0, pred := 0, hold := 0, fmt := 4, rnd := 0, limm := 0 }, at_ (v 4 0x80007FFF00010002FFFFFFFF80000000 (v 5 0x00010003FFFF0005FFFFFFFF00000002 (v 6 0x3F8000004000000041200000 (v 7 0x402000003F80000000000001 (id))))) (id), by decide +kernel⟩⟩

theorem test_witness_PredicatesAndQueuePorts :
  (∃ (o : OpV) (s : State),
    let x := fun v j => laneValue o.fmt.toNat (lane v (laneBits o.fmt.toNat) j)
    let a := x (slotA s o)
    let b := x (slotB s o)
    isFloatFmt o.fmt.toNat = false ∧ Issues (.vcmp o) s ∧ Quiet s ∧ SourcesServed s [o.a, o.b]) ∧
  (∃ (o : OpV) (s : State) (i : Instr) (g : BitVec 32 → BitVec 32 → BitVec 32),
    (i, g) ∈ [(Instr.pand o, fun x y => x &&& y), (.por o, fun x y => x ||| y), (.pnot o, fun x _ => ~~~x)] ∧ Issues i s) ∧
  (∃ (o : OpV) (s : State),
    Issues (.pmov o) s) ∧
  (∃ (o : OpV) (s : State),
    Issues (.vmov o) s ∧ o.limm.toNat < 2048 ∧ o.d.toNat < 48 ∧ 48 ≤ o.a.toNat ∧ unsettled s s.cur = false ∧ qInOf s (coreOf s.cur) (o.a.toNat - 48) = [] ∧ queueLost s (coreOf s.cur) (o.a.toNat - 48) = false) ∧
  (∃ (o : OpV) (s : State),
    Issues (.vmov o) s ∧ o.limm.toNat < 2048 ∧ 48 ≤ o.d.toNat ∧ SourcesServed s [o.a] ∧ unsettled s s.cur = false ∧ (qOutOf s (coreOf s.cur) (o.d.toNat - 48)).length = 16 ∧ queueLost s (coreOf s.cur) (o.d.toNat - 48) = false) ∧
  (∃ (o : OpV) (s : State),
    Issues (.vmov o) s ∧ o.limm.toNat < 2048 ∧ o.d.toNat < 48 ∧ 48 ≤ o.a.toNat ∧ unsettled s s.cur = false ∧ unfinished (beginIssue s) s.cur = false ∧ qInOf s (coreOf s.cur) (o.a.toNat - 48) = [] ∧ popAhead s [o.a.toNat - 48] = false ∧ queueLost s (coreOf s.cur) (o.a.toNat - 48) = true) :=
  ⟨⟨{ s := 0, d := 2, a := 4, b := 5, c := 0, pred := 0, hold := 0, fmt := 4, rnd := 0, limm := 2 }, at_ (v 4 0x80007FFF00010002FFFFFFFF80000000 (v 5 0x00010003FFFF0005FFFFFFFF00000002 (v 6 0x3F8000004000000041200000 (v 7 0x402000003F80000000000001 (id))))) (id), by decide +kernel⟩,
   ⟨{ s := 0, d := 3, a := 1, b := 2, c := 0, pred := 0, hold := 0, fmt := 0, rnd := 0, limm := 0 }, at_ (v 4 0x80007FFF00010002FFFFFFFF80000000 (v 5 0x00010003FFFF0005FFFFFFFF00000002 (v 6 0x3F8000004000000041200000 (v 7 0x402000003F80000000000001 (fun x => { x with regs := { x.regs with p := [(1, 0x55), (2, 0xFFFF0000)] } }))))) (id), (.pand { s := 0, d := 3, a := 1, b := 2, c := 0, pred := 0, hold := 0, fmt := 0, rnd := 0, limm := 0 }), (fun x y => x &&& y), by simp, by decide +kernel⟩,
   ⟨{ s := 0, d := 2, a := 1, b := 0, c := 0, pred := 0, hold := 0, fmt := 0, rnd := 0, limm := 0 }, at_ (v 4 0x80007FFF00010002FFFFFFFF80000000 (v 5 0x00010003FFFF0005FFFFFFFF00000002 (v 6 0x3F8000004000000041200000 (v 7 0x402000003F80000000000001 (fun x => { x with regs := { x.regs with p := [(1, 0x55), (2, 0xFFFF0000)] } }))))) (id), by decide +kernel⟩,
   ⟨{ s := 0, d := 2, a := 50, b := 0, c := 0, pred := 0, hold := 0, fmt := 4, rnd := 0, limm := 0 }, at_ (v 4 0x80007FFF00010002FFFFFFFF80000000 (v 5 0x00010003FFFF0005FFFFFFFF00000002 (v 6 0x3F8000004000000041200000 (v 7 0x402000003F80000000000001 (id))))) (fun x => { x with qIn := [(1, [0x77, 0x88])] }), by decide +kernel⟩,
   ⟨{ s := 0, d := 51, a := 4, b := 0, c := 0, pred := 0, hold := 0, fmt := 4, rnd := 0, limm := 0 }, at_ (v 4 0x80007FFF00010002FFFFFFFF80000000 (v 5 0x00010003FFFF0005FFFFFFFF00000002 (v 6 0x3F8000004000000041200000 (v 7 0x402000003F80000000000001 (id))))) (fun x => { x with qOut := [(3, List.replicate 16 0)] }), by decide +kernel⟩,
   ⟨{ s := 0, d := 2, a := 50, b := 0, c := 0, pred := 0, hold := 0, fmt := 4, rnd := 0, limm := 0 }, setCore (at_ (v 4 0x80007FFF00010002FFFFFFFF80000000 (v 5 0x00010003FFFF0005FFFFFFFF00000002 (v 6 0x3F8000004000000041200000 (v 7 0x402000003F80000000000001 (id))))) (id)) 8 { coreAt (at_ (v 4 0x80007FFF00010002FFFFFFFF80000000 (v 5 0x00010003FFFF0005FFFFFFFF00000002 (v 6 0x3F8000004000000041200000 (v 7 0x402000003F80000000000001 (id))))) (id)) 8 with killed := true }, by decide +kernel⟩⟩

theorem test_witness_SpecialRegisters :
  (∃ (o : OpS) (s : State) (n : Nat) (x : Word),
    Issues (.srd o) s ∧ o.sreg.toNat = n ∧ (n, x) ∈ [(0x00, BitVec.ofNat 64 (s.device * 65536 + s.cur)), (0x01, BitVec.ofNat 64 (coreAt s (coreOf s.cur)).capacity),
      (0x02, BitVec.ofNat 64 (ctxOf s s.cur).allot), (0x04, (ctxOf s s.cur).rmode.setWidth 64), (0x05, (ctxOf s s.cur).regs.flags.setWidth 64),
      (0x06, (clusterAt s (vertOf s.cur)).cflags.setWidth 64), (0x07, (coreAt s (coreOf s.cur)).i4tab0),
      (0x08, (coreAt s (coreOf s.cur)).i4tab1), (0x0A, BitVec.ofNat 64 (s.cycle + (ctxOf s s.cur).late)), (0x0B, (coreAt s (coreOf s.cur)).npres.setWidth 64),
      (0x18, (ctxOf s s.cur).acct.setWidth 64), (0x19, (ctxOf s s.cur).lease.setWidth 64)]) ∧
  (∃ (o : OpS) (s : State),
    Issues (.srd o) s ∧ o.sreg.toNat < 0x800 ∧ ((o.sreg.toNat < 0xC ∨ 0xF < o.sreg.toNat))) ∧
  (∃ (o : OpS) (s : State),
    Issues (.srd o) s ∧ unsettled s s.cur = false ∧ 0xC ≤ o.sreg.toNat ∧ o.sreg.toNat ≤ 0xF ∧ (coreAt s (coreOf s.cur)).npres.getLsbD (o.sreg.toNat - 0xC) = true) ∧
  (∃ (o : OpS) (s : State),
    Issues (.srd o) s ∧ 0xC ≤ o.sreg.toNat ∧ o.sreg.toNat ≤ 0xF ∧ (coreAt s (coreOf s.cur)).npres.getLsbD (o.sreg.toNat - 0xC) = false ∧ (coreAt s (feederOf (coreOf s.cur) (o.sreg.toNat - 0xC))).killed = false) ∧
  (∃ (o : OpS) (s : State),
    Issues (.swr o) s ∧ Quiet s ∧ unsettled s s.cur = false ∧ o.sreg.toNat < 0x800 ∧ o.s = 0) ∧
  (∃ (o : OpS) (s : State),
    Issues (.swr o) s ∧ Quiet s ∧ unsettled s s.cur = false ∧ o.s = 1 ∧ o.sreg = 5) ∧
  (∃ (o : OpS) (s : State),
    let m := (rg s s.cur o.a.toNat).setWidth 3
    Issues (.swr o) s ∧ Quiet s ∧ unsettled s s.cur = false ∧ o.s = 1 ∧ o.sreg = 4) ∧
  (∃ (o : OpS) (s : State),
    Issues (.vgrow o) s ∧ Quiet s ∧ unsettled s s.cur = false ∧ o.s = 1) ∧
  (∃ (o : OpS) (s : State),
    Issues (.vshrink o) s ∧ Quiet s ∧ unsettled s s.cur = false ∧ o.s = 1) ∧
  (∃ (o : OpS) (s u w : State) (x y : Nat),
    let ea := rg s s.cur o.a.toNat + o.imm.signExtend 64
    let n := w.cycle + (if ea.toNat / 2 ^ 53 ≠ s.device then 0 else if 0x1FFFFF00000000 ≤ ea.toNat % 2 ^ 53 then 3 else 4) + (ctxOf w s.cur).late
    Issues (.i4tab o) s ∧ Quiet s ∧ unsettled s s.cur = false ∧ ea.toNat % 16 = 0 ∧ memRead (beginIssue s) ea 8 .read = .ok (x, u) ∧ memRead u (ea + 8) 8 .read = .ok (y, w)) ∧
  (∃ (s : State) (k n : Nat) (x y : Word),
    (coreAt s k).i4next = [(n, x, y)] ∧ n ≤ s.cycle) ∧
  (∃ (s : State) (k n : Nat) (x y : Word),
    (coreAt s k).i4next = [(n, x, y)] ∧ s.cycle < n) ∧
  (∃ (o : OpS) (s : State),
    let n := (rg s s.cur o.a.toNat).toNat
    Issues (.wdog o) s ∧ unsettled s s.cur = false) :=
  ⟨⟨{ s := 0, d := 3, a := 0, sreg := 0, imm := 0 }, at_ id id, 0, BitVec.ofNat 64 0, by decide +kernel, by decide +kernel, by decide +kernel⟩,
   ⟨{ s := 0, d := 3, a := 0, sreg := 65, imm := 0 }, at_ id id, by decide +kernel⟩,
   ⟨{ s := 0, d := 3, a := 0, sreg := 13, imm := 0 }, at_ (id) (fun x => { x with n := [(1, 0x99)], npres := 2 }), by decide +kernel⟩,
   ⟨{ s := 0, d := 3, a := 0, sreg := 13, imm := 0 }, at_ (id) (fun x => { x with npres := 1 }), by decide +kernel⟩,
   ⟨{ s := 0, d := 0, a := 4, sreg := 4, imm := 0 }, at_ id id, by decide +kernel⟩,
   ⟨{ s := 1, d := 0, a := 4, sreg := 5, imm := 0 }, at_ id id, by decide +kernel⟩,
   ⟨{ s := 1, d := 0, a := 4, sreg := 4, imm := 0 }, at_ id id, by decide +kernel⟩,
   ⟨{ s := 1, d := 0, a := 0, sreg := 0, imm := 24 }, at_ (fun x => { x with allot := 12 }) (id), by decide +kernel⟩,
   ⟨{ s := 1, d := 0, a := 0, sreg := 0, imm := 24 }, at_ (v 4 0x80007FFF00010002FFFFFFFF80000000 (v 5 0x00010003FFFF0005FFFFFFFF00000002 (v 6 0x3F8000004000000041200000 (v 7 0x402000003F80000000000001 (id))))) (id), by decide +kernel⟩,
   ⟨{ s := 1, d := 0, a := 8, sreg := 0, imm := 16 }, at_ id id, okState (memRead (beginIssue (at_ id id)) 0x10010 8 .read), okState (memRead (okState (memRead (beginIssue (at_ id id)) 0x10010 8 .read)) 0x10018 8 .read), okOf 0 (memRead (beginIssue (at_ id id)) 0x10010 8 .read), okOf 0 (memRead (okState (memRead (beginIssue (at_ id id)) 0x10010 8 .read)) 0x10018 8 .read), by decide +kernel⟩,
   ⟨modCore base 0 (fun k => { k with i4next := [(5, 8, 9)] }) |> fun s => { s with cycle := 5 }, 0, 5, 8, 9, by decide +kernel⟩,
   ⟨modCore base 0 (fun k => { k with i4next := [(5, 8, 9)] }), 0, 5, 8, 9, by decide +kernel⟩,
   ⟨{ s := 0, d := 0, a := 4, sreg := 0, imm := 0 }, at_ id id, by decide +kernel⟩⟩

theorem test_witness_ContextSaveRestore :
  (∃ (o : OpS) (s : State) (w : Nat) (e : TlbEntry) (h : TokenHit),
    let b := blockAt (rg s s.cur o.a.toNat) e
    Issues (.ctxsave o) s ∧ Quiet s ∧ (ctxOf s s.cur).lockstep = false ∧ contextNamed s (rg s s.cur o.d.toNat) = some w ∧ w ≠ s.cur ∧ saveable s w = true ∧ (ctxOf s w).run ∈ [Run.stopped, .held, .trapped, .preempted] ∧ (ctxOf s w).lockstep = false ∧ (((ctxOf s w).run = .stopped → ∀ j ∈ (clusterAt s (vertOf w)).waiting, w ∉ j.members)) ∧ (ctxOf s w).allot ≤ 48 ∧ BlockReady s (rg s s.cur o.a.toNat) .wr .write e h) ∧
  (∃ (o : OpS) (s : State) (w origin n : Nat) (e : TlbEntry) (h : TokenHit),
    let b := Block.here (blockAt (rg s s.cur o.a.toNat) e)
    Issues (.ctxrest o) s ∧ Quiet s ∧ (ctxOf s s.cur).lockstep = false ∧ BlockReady s (rg s s.cur o.a.toNat) .rd .read e h ∧ badBlock s b = false ∧ contextNamed s (rg s s.cur o.d.toNat) = some w ∧ contextNamed s (rg s s.cur (o.d.toNat + 1)) = some origin ∧ w ≠ s.cur ∧ origin ≠ s.cur ∧ (ctxOf s w).run = .idle ∧ (ctxOf s origin).run = .savedOut ∧ (ctxOf s origin).preemptAsked = false ∧ takesWork s (coreOf w) = true ∧ lacksUnit (coreOf w) (bits (blockGet s b 0 8) 5 0) = false ∧ nbit (blockGet s b 8 8) 63 = false ∧ ((o.imm = 1 → nbit (blockGet s b 8 8) 62 = false)) ∧ restoreAllot (coreAt s (coreOf w)).capacity (bits (blockGet s b 0 8) 23 16) (bits (blockGet s b 0 8) 31 24) = some n) ∧
  (∃ (o : OpS) (s u v : State) (places : List Nat) (far w : Nat),
    Issues (.ctxsave o) s ∧ Quiet s ∧ contextNamed s (rg s s.cur o.d.toNat) = some w ∧ w ≠ s.cur ∧ saveable s w = true ∧ FreeToAct s ∧ stopTarget (beginIssue s) w = (true, v) ∧ openBlock v (rg s s.cur o.a.toNat) .wr = .ok (.here places, far, u) ∧ (ctxOf s w).lockstep = false ∧ (ctxOf u w).allot ≤ 48 ∧ places.length = 80 ∧ places.Nodup ∧ (∀ a ∈ places, a % 256 = 0)) ∧
  (∃ (o : OpS) (s v : State) (w : Nat),
    Issues (.ctxsave o) s ∧ contextNamed s (rg s s.cur o.d.toNat) = some w ∧ saveable (beginIssue s) w = true ∧ FreeToAct s ∧ stopTarget (beginIssue s) w = (false, v)) ∧
  (∃ (o : OpS) (s u : State) (places : List Nat) (far w origin n : Nat),
    let b := Block.here places
    Issues (.ctxrest o) s ∧ Quiet s ∧ openBlock s (rg s s.cur o.a.toNat) .rd = .ok (.here places, far, u) ∧ badBlock u b = false ∧ contextNamed s (rg s s.cur o.d.toNat) = some w ∧ contextNamed s (rg s s.cur (o.d.toNat + 1)) = some origin ∧ w ≠ s.cur ∧ origin ≠ s.cur ∧ (ctxOf u w).run = .idle ∧ (ctxOf u origin).run = .savedOut ∧ (ctxOf u origin).preemptAsked = false ∧ takesWork u (coreOf w) = true ∧ lacksUnit (coreOf w) (bits (blockGet u b 0 8) 5 0) = false ∧ nbit (blockGet u b 8 8) 63 = false ∧ ((o.imm = 1 → nbit (blockGet u b 8 8) 62 = false)) ∧ restoreAllot (coreAt u (coreOf w)).capacity (bits (blockGet u b 0 8) 23 16) (bits (blockGet u b 0 8) 31 24) = some n ∧ FreeToAct s ∧ unfinished s origin = false ∧ ((∀ f ∈ s.flights, f.path = 7 → coreOf f.ctx ≠ coreOf origin))) :=
  ⟨⟨{ s := 0, d := 12, a := 10, sreg := 0, imm := 0 }, blocks .stopped, 16, tlb0, { hit1 with base := 0x30000 }, by decide +kernel, by decide +kernel, by decide +kernel, by decide +kernel, by decide +kernel, by decide +kernel, by decide +kernel, by decide +kernel, by decide +kernel, by decide +kernel, blocks_ready _ (by simp) _ _⟩,
   ⟨{ s := 0, d := 16, a := 10, sreg := 0, imm := 0 }, blocks .savedOut, 24, 16, 12, tlb0, { hit1 with base := 0x30000 }, by decide +kernel, by decide +kernel, by decide +kernel, blocks_ready _ (by simp) _ _, by and_intros <;> decide +kernel⟩,
   ⟨{ s := 0, d := 12, a := 10, sreg := 0, imm := 0 }, blocks .stopped, beginIssue (blocks .stopped), (stopTarget (beginIssue (blocks .stopped)) 16).2, places, far, 16, by decide +kernel, by decide +kernel, by decide +kernel, by decide +kernel, by decide +kernel, by decide +kernel, eq_pair _ _ (by decide +kernel), blocks_openS, by decide +kernel, by decide +kernel, by decide +kernel, by decide +kernel, by decide +kernel⟩,
   ⟨{ s := 0, d := 12, a := 10, sreg := 0, imm := 0 }, blocks .ready, (stopTarget (beginIssue (blocks .ready)) 16).2, 16, by decide +kernel⟩,
   ⟨{ s := 0, d := 16, a := 10, sreg := 0, imm := 0 }, blocks .savedOut, blocks .savedOut, places, far, 24, 16, 12, by decide +kernel, by decide +kernel, blocks_open' .savedOut (by simp) _, by and_intros <;> decide +kernel⟩⟩

theorem test_witness_WeightRecoding :
  (∃ (m : Nat),
    let l := nafDigits 64 m
    m < 2 ^ 63) ∧
  (∃ (o : OpE) (s : State),
    let fmt := o.imm.toNat % 16
    let l := tileWeights s (coreOf s.cur) o.a.toNat fmt
    let cut := l.map (recode (o.imm.toNat / 16 % 16))
    let total := (l.map weightTerms).sum
    let removed := total - (cut.map weightTerms).sum
    Issues (.mstat o) s ∧ fenced s s.cur 3 = false ∧ swapWaits s (vertOf s.cur) = false ∧ unsettled s s.cur = false ∧ ((o.imm.getLsbD 8 = true → removed = 0))) ∧
  (∃ (o : OpE) (s : State),
    let l := tileWeights s (coreOf s.cur) o.a.toNat (o.imm.toNat % 16)
    Issues (.mstat o) s ∧ fenced s s.cur 3 = false ∧ swapWaits s (vertOf s.cur) = false ∧ unfinished (beginIssue s) s.cur = false ∧ o.imm.getLsbD 8 = true ∧ (l.map weightTerms).sum - ((l.map (recode (o.imm.toNat / 16 % 16))).map weightTerms).sum ≠ 0) :=
  ⟨⟨27, by decide +kernel⟩,
   ⟨{ s := 0, d := 3, a := 0, b := 0, c := 0, imm := 128 }, tiled, by decide +kernel⟩,
   ⟨{ s := 0, d := 3, a := 0, b := 0, c := 0, imm := 272 }, tiled, by decide +kernel⟩⟩

theorem test_witness_LatticeBarrier :
  (∃ (o : OpE) (s : State) (id : Word),
    Issues (.mgang o) s ∧ (ctxOf s s.cur).cooked = some id) ∧
  (∃ (o : OpE) (s : State) (g : Nat) (y : Gang),
    Issues (.mgang o) s ∧ (ctxOf s s.cur).cooked = none ∧ (ctxOf s s.cur).gang = some g ∧ sget none s.gangs g = some y ∧ y.lost = false ∧ returning s s.cur = false ∧ (ctxOf s s.cur).lockstep = false ∧ (arrivalsOf s (vertOf s.cur) g).length < 7) ∧
  (∃ (o : OpE) (s : State) (g : Nat) (y : Gang),
    Issues (.mgang o) s ∧ (ctxOf s s.cur).cooked = none ∧ (ctxOf s s.cur).gang = some g ∧ sget none s.gangs g = some y ∧ y.lost = false ∧ returning s s.cur = false ∧ (ctxOf s s.cur).lockstep = false ∧ (arrivalsOf s (vertOf s.cur) g).length = 7 ∧ ((∀ e ∈ arrivalsOf s (vertOf s.cur) g,
      e.1 ≠ s.cur ∧ e.2.take 3 = [rg s s.cur o.a.toNat, rg s s.cur o.b.toNat, rg s s.cur o.c.toNat])) ∧ jobOk s (vertOf s.cur) (rg s s.cur o.a.toNat) (rg s s.cur o.b.toNat) (rg s s.cur o.c.toNat) = true ∧ (clusterAt s (vertOf s.cur)).pending = none) ∧
  (∃ (o : OpE) (s : State) (g : Nat) (y : Gang),
    Issues (.mgang o) s ∧ (ctxOf s s.cur).cooked = none ∧ (ctxOf s s.cur).gang = some g ∧ sget none s.gangs g = some y ∧ y.lost = false ∧ returning s s.cur = false ∧ (ctxOf s s.cur).lockstep = false ∧ (arrivalsOf s (vertOf s.cur) g).length = 7 ∧ ((∀ e ∈ arrivalsOf s (vertOf s.cur) g,
      e.1 ≠ s.cur ∧ e.2.take 3 = [rg s s.cur o.a.toNat, rg s s.cur o.b.toNat, rg s s.cur o.c.toNat])) ∧ jobOk s (vertOf s.cur) (rg s s.cur o.a.toNat) (rg s s.cur o.b.toNat) (rg s s.cur o.c.toNat) = true ∧ (clusterAt s (vertOf s.cur)).pending ≠ none) :=
  ⟨⟨{ s := 0, d := 3, a := 11, b := 0, c := 0, imm := 0 }, ganged (at_ (fun x => { x with cooked := some 9 }) (id)), 9, by decide +kernel⟩,
   ⟨{ s := 0, d := 3, a := 11, b := 0, c := 0, imm := 0 }, ganged (at_ (g 11 0x20001 (id)) (id)), 1, gang0, by decide +kernel⟩,
   ⟨{ s := 0, d := 3, a := 11, b := 0, c := 0, imm := 0 }, sevenMore, 1, gang0, by decide +kernel⟩,
   ⟨{ s := 0, d := 3, a := 11, b := 0, c := 0, imm := 0 }, cl (fun k => { k with pending := some lat0 }) sevenMore, 1, gang0, by decide +kernel⟩⟩

theorem test_witness_LatticeReadsAndEmit :
  (∃ (o : OpE) (s : State),
    Issues (.mwait o) s ∧ jobOut (clusterAt s (vertOf s.cur)) (rg s s.cur o.a.toNat) = true) ∧
  (∃ (o : OpE) (s : State),
    Issues (.mwait o) s ∧ jobOut (clusterAt s (vertOf s.cur)) (rg s s.cur o.a.toNat) = false ∧ endedJob (clusterAt s (vertOf s.cur)) (rg s s.cur o.a.toNat) = none) ∧
  (∃ (o : OpE) (s : State) (d : LatDone),
    Issues (.mwait o) s ∧ jobOut (clusterAt s (vertOf s.cur)) (rg s s.cur o.a.toNat) = false ∧ endedJob (clusterAt s (vertOf s.cur)) (rg s s.cur o.a.toNat) = some d ∧ unsettled s s.cur = false) ∧
  (∃ (o : OpE) (s : State),
    Issues (.mdrain o) s ∧ jobOut (clusterAt s (vertOf s.cur)) (rg s s.cur o.a.toNat) = false ∧ (∀ e ∈ (colOf s (vertOf s.cur) (coreNo (coreOf s.cur))).segs, e.2.state ≠ .draining)) ∧
  (∃ (o : OpE) (s : State),
    let w := rg s s.cur o.a.toNat
    Issues (.mdrain o) s ∧ ((jobOut (clusterAt s (vertOf s.cur)) w = true ∨ (endedJob (clusterAt s (vertOf s.cur)) w ≠ none ∧
      ∃ e ∈ (colOf s (vertOf s.cur) (coreNo (coreOf s.cur))).segs, e.2.state = .draining ∧ e.2.jid = w.setWidth 16)))) ∧
  (∃ (o : OpE) (s : State) (n row : Nat),
    Issues (.ald o) s ∧ unsettled s s.cur = false ∧ n = o.imm.toNat % 32 + 1 ∧ row = (rg s s.cur o.c.toNat).toNat ∧ segsReady s (vertOf s.cur) (coreNo (coreOf s.cur)) row n = true ∧ ((∀ j, j < n → (segOf s (vertOf s.cur) (coreNo (coreOf s.cur)) (row + j)).poison = false))) ∧
  (∃ (o : OpE) (s : State) (n row : Nat),
    Issues (.ast o) s ∧ unsettled s s.cur = false ∧ n = o.imm.toNat % 32 + 1 ∧ o.imm.getLsbD 5 = false ∧ row = (rg s s.cur o.c.toNat).toNat ∧ segsReady s (vertOf s.cur) (coreNo (coreOf s.cur)) row n = true ∧ ((∀ j, j < n → (segOf s (vertOf s.cur) (coreNo (coreOf s.cur)) (row + j)).poison = false))) ∧
  (∃ (o : OpE) (s : State) (n row : Nat),
    let int := isIntFmt (colOf s (vertOf s.cur) (coreNo (coreOf s.cur))).active.fmt.toNat
    Issues (.ast o) s ∧ unsettled s s.cur = false ∧ n = o.imm.toNat % 32 + 1 ∧ o.imm.getLsbD 5 = true ∧ row = (rg s s.cur o.c.toNat).toNat ∧ segsReady s (vertOf s.cur) (coreNo (coreOf s.cur)) row n = true ∧ ((∀ j, j < n → (segOf s (vertOf s.cur) (coreNo (coreOf s.cur)) (row + j)).poison = false))) ∧
  (∃ (o : OpE) (s : State) (row : Nat),
    Issues (.mzero o) s ∧ unsettled s s.cur = false ∧ row = (rg s s.cur o.c.toNat).toNat ∧ segsReady s (vertOf s.cur) (coreNo (coreOf s.cur)) row (o.imm.toNat + 1) = true) ∧
  (∃ (o : OpE) (s : State),
    let g := colOf s (vertOf s.cur) (coreNo (coreOf s.cur))
    Issues (.mterm o) s) ∧
  (∃ (o : OpE) (s : State),
    Issues (.memit o) s ∧ FreeToAct s ∧ (ctxOf s s.cur).hmode = false ∧ rg s s.cur o.a.toNat = 0) ∧
  (∃ (o : OpE) (s u w : State) (va pa : Nat) (leaf : Word) (m : Mode),
    let data := (emitBytes s s.cur (o.imm.toNat % 16) (rv s s.cur o.b.toNat)).1
    Issues (.memit o) s ∧ FreeToAct s ∧ rg s s.cur o.a.toNat ≠ 0 ∧ (rg s s.cur o.a.toNat).toNat % data.length = 0 ∧ translate (beginIssue s) (rg s s.cur o.a.toNat) .wr = .ok (.phys va pa leaf, u) ∧ tokenCheck u (rg s s.cur o.a.toNat) .sliceop 3 = .ok (m, w) ∧ (ctxOf s s.cur).hmode = false) ∧
  (∃ (o : OpE) (s u w : State) (va pa : Nat) (leaf : Word) (m : Mode),
    let data := (emitBytes s s.cur (o.imm.toNat % 16) (rv s s.cur o.b.toNat)).1
    Issues (.memit o) s ∧ FreeToAct s ∧ rg s s.cur o.a.toNat ≠ 0 ∧ (rg s s.cur o.a.toNat).toNat % data.length = 0 ∧ translate (beginIssue s) (rg s s.cur o.a.toNat) .wr = .ok (.phys va pa leaf, u) ∧ tokenCheck u (rg s s.cur o.a.toNat) .sliceop 3 = .ok (m, w) ∧ BufferRoom s) ∧
  (∃ (o : OpE) (s : State),
    Issues (.memit o) s ∧ FreeToAct s ∧ BufferRoom s ∧ rg s s.cur o.a.toNat = 0) :=
  ⟨⟨{ s := 0, d := 3, a := 4, b := 0, c := 0, imm := 0 }, cl (fun k => { k with running := some lat0 }) (at_ id id), by decide +kernel⟩,
   ⟨{ s := 0, d := 3, a := 4, b := 0, c := 0, imm := 0 }, at_ id id, by decide +kernel⟩,
   ⟨{ s := 0, d := 3, a := 4, b := 0, c := 0, imm := 0 }, cl (fun k => { k with ended := [{ jid := 7, code := 0, wrap := true, flags := [], owed := [], entry := 0, graph := none, accts := [] }] }) (at_ id id), { jid := 7, code := 0, wrap := true, flags := [], owed := [], entry := 0, graph := none, accts := [] }, by decide +kernel⟩,
   ⟨{ s := 0, d := 3, a := 4, b := 0, c := 0, imm := 0 }, cl (fun k => { k with groups := [(0, { ColGroup.reset with written := [(7, 4)] })], ended := [{ jid := 7, code := 0, wrap := true, flags := [], owed := [], entry := 0, graph := none, accts := [] }] }) (at_ id id), by decide +kernel⟩,
   ⟨{ s := 0, d := 3, a := 4, b := 0, c := 0, imm := 0 }, cl (fun k => { k with running := some lat0 }) (at_ id id), by decide +kernel⟩,
   ⟨{ s := 0, d := 1, a := 0, b := 0, c := 5, imm := 1 }, cl (fun k => { k with groups := [(0, { ColGroup.reset with segs := [(3, { data := 0x123456789, state := .kept, poison := false, jid := 0, batch := 0, started := false, since := 0 }), (4, { data := 0x123456789, state := .kept, poison := false, jid := 0, batch := 0, started := false, since := 0 })], applied := 9, written := [(7, 4)], active := { Plane.reset with span := 3 } })] }) (at_ id id), 2, 3, by decide +kernel⟩,
   ⟨{ s := 0, d := 0, a := 0, b := 0, c := 5, imm := 1 }, cl (fun k => { k with groups := [(0, { ColGroup.reset with segs := [(3, { data := 0x123456789, state := .kept, poison := false, jid := 0, batch := 0, started := false, since := 0 })] })] }) tiled, 2, 3, by decide +kernel⟩,
   ⟨{ s := 0, d := 0, a := 0, b := 0, c := 5, imm := 33 }, cl (fun k => { k with groups := [(0, { ColGroup.reset with segs := [(3, { data := 0x123456789, state := .kept, poison := false, jid := 7, batch := 0, started := false, since := 0 }), (4, { data := 0x123456789, state := .kept, poison := false, jid := 7, batch := 0, started := false, since := 0 })] })] }) tiled, 2, 3, by decide +kernel⟩,
   ⟨{ s := 0, d := 0, a := 0, b := 0, c := 5, imm := 1 }, cl (fun k => { k with groups := [(0, { ColGroup.reset with segs := [(3, { data := 0x123456789, state := .kept, poison := false, jid := 0, batch := 0, started := false, since := 0 }), (4, { data := 0x123456789, state := .kept, poison := false, jid := 0, batch := 0, started := false, since := 0 })], applied := 9, written := [(7, 4)], active := { Plane.reset with span := 3 } })] }) (at_ id id), 3, by decide +kernel⟩,
   ⟨{ s := 0, d := 3, a := 0, b := 0, c := 0, imm := 0 }, cl (fun k => { k with groups := [(0, { ColGroup.reset with segs := [(3, { data := 0x123456789, state := .kept, poison := false, jid := 0, batch := 0, started := false, since := 0 }), (4, { data := 0x123456789, state := .kept, poison := false, jid := 0, batch := 0, started := false, since := 0 })], applied := 9, written := [(7, 4)], active := { Plane.reset with span := 3 } })] }) (at_ id id), by decide +kernel⟩,
   ⟨{ s := 0, d := 0, a := 0, b := 4, c := 5, imm := 13 }, cl (fun k => { k with groups := [(0, { ColGroup.reset with segs := [(3, { data := 0x123456789, state := .kept, poison := false, jid := 0, batch := 0, started := false, since := 0 }), (4, { data := 0x123456789, state := .kept, poison := false, jid := 0, batch := 0, started := false, since := 0 })], applied := 9, written := [(7, 4)], active := { Plane.reset with span := 3 } })] }) (at_ id id), by decide +kernel⟩,
   ⟨{ s := 0, d := 0, a := 9, b := 4, c := 5, imm := 13 }, cl (fun k => { k with groups := [(0, { ColGroup.reset with segs := [(3, { data := 0x123456789, state := .kept, poison := false, jid := 0, batch := 0, started := false, since := 0 })] })] }) (at_ (v 4 0x99 id) (id)), okState (translate (beginIssue (cl (fun k => { k with groups := [(0, { ColGroup.reset with segs := [(3, { data := 0x123456789, state := .kept, poison := false, jid := 0, batch := 0, started := false, since := 0 })] })] }) (at_ (v 4 0x99 id) (id)))) 0x20000 .wr), okState (tokenCheck (okState (translate (beginIssue (cl (fun k => { k with groups := [(0, { ColGroup.reset with segs := [(3, { data := 0x123456789, state := .kept, poison := false, jid := 0, batch := 0, started := false, since := 0 })] })] }) (at_ (v 4 0x99 id) (id)))) 0x20000 .wr)) 0x20000 .sliceop 3), 0x20000, 0x20000, leafT, .commons, by decide +kernel⟩,
   ⟨{ s := 0, d := 0, a := 9, b := 4, c := 5, imm := 13 }, cl (fun k => { k with groups := [(0, { ColGroup.reset with segs := [(3, { data := 0x123456789, state := .kept, poison := false, jid := 7, batch := 0, started := false, since := 0 })] })] }) (hand (v 4 0x99 id) id), okState (translate (beginIssue (cl (fun k => { k with groups := [(0, { ColGroup.reset with segs := [(3, { data := 0x123456789, state := .kept, poison := false, jid := 7, batch := 0, started := false, since := 0 })] })] }) (hand (v 4 0x99 id) id))) 0x20000 .wr), okState (tokenCheck (okState (translate (beginIssue (cl (fun k => { k with groups := [(0, { ColGroup.reset with segs := [(3, { data := 0x123456789, state := .kept, poison := false, jid := 7, batch := 0, started := false, since := 0 })] })] }) (hand (v 4 0x99 id) id))) 0x20000 .wr)) 0x20000 .sliceop 3), 0x20000, 0x20000, leafT, .commons, by decide +kernel⟩,
   ⟨{ s := 0, d := 0, a := 0, b := 4, c := 5, imm := 13 }, cl (fun k => { k with groups := [(0, { ColGroup.reset with segs := [(3, { data := 0x123456789, state := .kept, poison := false, jid := 0, batch := 0, started := false, since := 0 }), (4, { data := 0x123456789, state := .kept, poison := false, jid := 0, batch := 0, started := false, since := 0 })] })] }) (hand id id), by decide +kernel⟩⟩

theorem test_witness_Jobs :
  (∃ (o : OpE) (s : State),
    Issues (.job o) s ∧ FreeToAct s ∧ (rg s s.cur o.a.toNat).toNat % 8 = 0 ∧ ((clusterAt s (vertOf s.cur)).jobs.filter (fun j => j.running.isNone)).length < 64 ∧ (clusterAt s (vertOf s.cur)).nexters = []) ∧
  (∃ (o : OpE) (s : State),
    Issues (.jpoll o) s ∧ unsettled s s.cur = false) ∧
  (∃ (o : OpE) (s : State),
    Issues (.jwait o) s ∧ unsettled s s.cur = false ∧ (∀ j, jobNamed (clusterAt s (vertOf s.cur)) (rg s s.cur o.a.toNat) ≠ some (j, false))) ∧
  (∃ (o : OpE) (s : State) (j : Job),
    Issues (.jwait o) s ∧ jobNamed (clusterAt s (vertOf s.cur)) (rg s s.cur o.a.toNat) = some (j, false)) ∧
  (∃ (o : OpE) (s : State) (j : Job) (l : List Job),
    Issues (.jnext o) s ∧ unsettled s s.cur = false ∧ (ctxOf s s.cur).cooked = none ∧ (clusterAt s (vertOf s.cur)).jobs = j :: l ∧ j.running = none ∧ ((∀ h ∈ s.flights, isFence h.op = true → h.ctx = j.submitter → j.before ≤ h.id)) ∧ j.seq < 2 ^ 64 ∧ (clusterAt s (vertOf s.cur)).nexters = [] ∧ 0 < o.d.toNat ∧ o.d.toNat + 4 < 64) ∧
  (∃ (o : OpE) (s : State) (j : Job),
    Issues (.jdone o) s ∧ unsettled s s.cur = false ∧ (clusterAt s (vertOf s.cur)).transfers = [] ∧ (clusterAt s (vertOf s.cur)).jobs = [j] ∧ j.running = some s.cur ∧ (clusterAt s (vertOf s.cur)).completed.length < 64) :=
  ⟨⟨{ s := 0, d := 3, a := 8, b := 4, c := 5, imm := 0 }, at_ id id, by decide +kernel⟩,
   ⟨{ s := 0, d := 3, a := 4, b := 0, c := 0, imm := 0 }, at_ id id, by decide +kernel⟩,
   ⟨{ s := 0, d := 3, a := 11, b := 0, c := 0, imm := 0 }, cl (fun k => { k with completed := [{ job0 with code := 3 }] }) (at_ (g 11 0x5 (id)) (id)), by decide +kernel, by decide +kernel, fun j => jobNamed_done _ _ (by decide +kernel) j⟩,
   ⟨{ s := 0, d := 3, a := 11, b := 0, c := 0, imm := 0 }, cl (fun k => { k with jobs := [job0] }) (at_ (g 11 0x5 (id)) (id)), job0, by decide +kernel⟩,
   ⟨{ s := 0, d := 3, a := 0, b := 0, c := 0, imm := 0 }, access id (fun k => { k with jobs := [job0] }), job0, [], by decide +kernel⟩,
   ⟨{ s := 0, d := 0, a := 5, b := 0, c := 0, imm := 0 }, access (fun x => g 5 5 (fun y => { y with job := some 5 }) x) (fun k => { k with jobs := [{ job0 with running := some 64 }] }), { job0 with running := some 64 }, by decide +kernel⟩⟩

theorem test_witness_Transfers :
  (∃ (o : OpE) (s : State) (i : Instr) (ok : Bool) (op : EngineOp) (barrier : Word),
    let a := rg s s.cur o.a.toNat
    let b := rg s s.cur o.b.toNat
    let x := rg s s.cur o.c.toNat
    let n := if o.c = 0 then o.imm.toNat % 32768 * 32 + 32 else x.toNat
    let q := o.imm.getLsbD 15
    ((i, ok, op, barrier) ∈ [
      (Instr.tload o, decide (a.toNat % 32 = 0), EngineOp.tload a (placeOf b) (o.imm.toNat + 1), x),
      (.bulk o, decide (a.toNat % 32 = 0 ∧ b.toNat % 32 = 0 ∧ n % 32 = 0 ∧ n ≠ 0), .bulk a b (n / 32) q, 0),
      (.gather o, decide ((q = true ∨ a.toNat % 64 = 0) ∧ b.toNat % 4 = 0 ∧ x.toNat % 64 = 0),
        .gather a b x (if q then some (16 * vertOf s.cur + o.imm.toNat / 16 % 8, o.imm.toNat % 4) else none), 0),
      (.scatter o, decide (a.toNat % 4 = 0 ∧ b.toNat % 32 = 0 ∧ x.toNat % 64 = 0), .scatter a b x, 0),
      (.rgather o, decide (b.toNat % 32 = 0 ∧ x.toNat % 4 = 0),
        .rgather b x (o.imm.toNat / 1024 + 1) (o.imm.toNat % 1024 + 1) (placeOf a), rg s s.cur o.d.toNat),
      (.qpush o, decide (a.toNat % 64 = 0), .qpush a (16 * vertOf s.cur + o.imm.toNat / 16 % 8) (o.imm.toNat % 4) (o.imm.getLsbD 8), 0)]) ∧ Issues i s ∧ ok = true ∧ FreeToAct s ∧ (ctxOf s s.cur).job.isSome = true ∧ jobFaulted s s.cur = false) ∧
  (∃ (o : OpE) (s : State) (i : Instr) (ok : Bool) (op : EngineOp) (barrier : Word),
    let a := rg s s.cur o.a.toNat
    let b := rg s s.cur o.b.toNat
    let x := rg s s.cur o.c.toNat
    let n := if o.c = 0 then o.imm.toNat % 32768 * 32 + 32 else x.toNat
    let q := o.imm.getLsbD 15
    ((i, ok, op, barrier) ∈ [
      (Instr.tload o, decide (a.toNat % 32 = 0), EngineOp.tload a (placeOf b) (o.imm.toNat + 1), x),
      (.bulk o, decide (a.toNat % 32 = 0 ∧ b.toNat % 32 = 0 ∧ n % 32 = 0 ∧ n ≠ 0), .bulk a b (n / 32) q, 0),
      (.gather o, decide ((q = true ∨ a.toNat % 64 = 0) ∧ b.toNat % 4 = 0 ∧ x.toNat % 64 = 0),
        .gather a b x (if q then some (16 * vertOf s.cur + o.imm.toNat / 16 % 8, o.imm.toNat % 4) else none), 0),
      (.scatter o, decide (a.toNat % 4 = 0 ∧ b.toNat % 32 = 0 ∧ x.toNat % 64 = 0), .scatter a b x, 0),
      (.rgather o, decide (b.toNat % 32 = 0 ∧ x.toNat % 4 = 0),
        .rgather b x (o.imm.toNat / 1024 + 1) (o.imm.toNat % 1024 + 1) (placeOf a), rg s s.cur o.d.toNat),
      (.qpush o, decide (a.toNat % 64 = 0), .qpush a (16 * vertOf s.cur + o.imm.toNat / 16 % 8) (o.imm.toNat % 4) (o.imm.getLsbD 8), 0)]) ∧ Issues i s ∧ ok = true ∧ FreeToAct s ∧ (ctxOf s s.cur).job = none ∧ (ctxOf s s.cur).cooked = none) ∧
  (∃ (o : OpE) (s : State) (i : Instr) (ok : Bool) (op : EngineOp) (barrier : Word),
    let a := rg s s.cur o.a.toNat
    let b := rg s s.cur o.b.toNat
    let x := rg s s.cur o.c.toNat
    let n := if o.c = 0 then o.imm.toNat % 32768 * 32 + 32 else x.toNat
    let q := o.imm.getLsbD 15
    ((i, ok, op, barrier) ∈ [
      (Instr.tload o, decide (a.toNat % 32 = 0), EngineOp.tload a (placeOf b) (o.imm.toNat + 1), x),
      (.bulk o, decide (a.toNat % 32 = 0 ∧ b.toNat % 32 = 0 ∧ n % 32 = 0 ∧ n ≠ 0), .bulk a b (n / 32) q, 0),
      (.gather o, decide ((q = true ∨ a.toNat % 64 = 0) ∧ b.toNat % 4 = 0 ∧ x.toNat % 64 = 0),
        .gather a b x (if q then some (16 * vertOf s.cur + o.imm.toNat / 16 % 8, o.imm.toNat % 4) else none), 0),
      (.scatter o, decide (a.toNat % 4 = 0 ∧ b.toNat % 32 = 0 ∧ x.toNat % 64 = 0), .scatter a b x, 0),
      (.rgather o, decide (b.toNat % 32 = 0 ∧ x.toNat % 4 = 0),
        .rgather b x (o.imm.toNat / 1024 + 1) (o.imm.toNat % 1024 + 1) (placeOf a), rg s s.cur o.d.toNat),
      (.qpush o, decide (a.toNat % 64 = 0), .qpush a (16 * vertOf s.cur + o.imm.toNat / 16 % 8) (o.imm.toNat % 4) (o.imm.getLsbD 8), 0)]) ∧ Issues i s ∧ ok = true ∧ FreeToAct s ∧ (ctxOf s s.cur).job = none ∧ (ctxOf s s.cur).cooked ≠ none) :=
  ⟨⟨{ s := 0, d := 0, a := 8, b := 5, c := 0, imm := 2 }, access (fun x => { x with job := some 5 }) (fun k => { k with jobs := [{ job0 with running := some 64 }] }), (.tload { s := 0, d := 0, a := 8, b := 5, c := 0, imm := 2 }), true, (.tload 0x10000 (placeOf 3) 3), 0, by decide +kernel⟩,
   ⟨{ s := 0, d := 0, a := 8, b := 5, c := 0, imm := 2 }, access id id, (.tload { s := 0, d := 0, a := 8, b := 5, c := 0, imm := 2 }), true, (.tload 0x10000 (placeOf 3) 3), 0, by decide +kernel⟩,
   ⟨{ s := 0, d := 0, a := 8, b := 5, c := 0, imm := 2 }, access (fun x => { x with cooked := some 1 }) id, (.tload { s := 0, d := 0, a := 8, b := 5, c := 0, imm := 2 }), true, (.tload 0x10000 (placeOf 3) 3), 0, by decide +kernel⟩⟩

theorem test_witness_BarriersAndBranchBits :
  (∃ (o : OpE) (s u w : State) (va pa : Nat) (leaf : Word) (m : Mode),
    Issues (.bari o) s ∧ FreeToAct s ∧ (rg s s.cur o.a.toNat).toNat % 16 = 0 ∧ translate (beginIssue s) (rg s s.cur o.a.toNat) .wr = .ok (.phys va pa leaf, u) ∧ tokenCheck u (rg s s.cur o.a.toNat) .write 1 = .ok (m, w)) ∧
  (∃ (o : OpE) (s : State) (p : Word),
    Issues (.waitb o) s ∧ (ctxOf s s.cur).cooked = some p ∧ (rg s s.cur o.a.toNat).toNat / 2 ^ 53 = s.device) ∧
  (∃ (o : OpE) (s u : State) (va pa : Nat) (leaf : Word),
    Issues (.waitb o) s ∧ (ctxOf s s.cur).cooked = none ∧ s.flights.all (fun f => f.ctx ≠ s.cur) = true ∧ translate (beginIssue s) (rg s s.cur o.a.toNat) .rd = .ok (.phys va pa leaf, u)) ∧
  (∃ (o : OpE) (s : State),
    Issues (.boqp o) s ∧ FreeToAct s ∧ isExecute (coreOf s.cur) = true ∧ (coreAt s (coreOf s.cur)).boqToAccess.length < 32) ∧
  (∃ (o : OpE) (s : State) (b : Bool) (l : List Bool),
    Issues (.broq o) s ∧ unsettled s s.cur = false ∧ isExecute (coreOf s.cur) = true ∧ (coreAt s (coreOf s.cur)).boqFromAccess = b :: l ∧ TargetOk s (pcOf s + o.imm.signExtend 64 * 8)) ∧
  (∃ (o : OpE) (s : State),
    Issues (.broq o) s ∧ unsettled s s.cur = false ∧ isExecute (coreOf s.cur) = true ∧ (coreAt s (coreOf s.cur)).boqFromAccess = [] ∧ (coreAt s (accessOf (coreOf s.cur))).killed = false ∧ (coreAt s (coreOf s.cur)).queuesLost.contains branchPort = false) :=
  ⟨⟨{ s := 0, d := 0, a := 8, b := 5, c := 0, imm := 0 }, at_ id id, okState (translate (beginIssue (at_ id id)) 0x10000 .wr), okState (tokenCheck (okState (translate (beginIssue (at_ id id)) 0x10000 .wr)) 0x10000 .write 1), 0x10000, 0x10000, leafT, .exclusive, by decide +kernel⟩,
   ⟨{ s := 0, d := 3, a := 8, b := 0, c := 0, imm := 0 }, at_ (fun x => { x with cooked := some 4 }) (id), 4, by decide +kernel⟩,
   ⟨{ s := 0, d := 3, a := 8, b := 0, c := 0, imm := 0 }, at_ id id, okState (translate (beginIssue (at_ id id)) 0x10000 .rd), 0x10000, 0x10000, leafT, by decide +kernel⟩,
   ⟨{ s := 0, d := 0, a := 4, b := 0, c := 0, imm := 0 }, at_ id id, by decide +kernel⟩,
   ⟨{ s := 1, d := 0, a := 0, b := 0, c := 0, imm := 65534 }, at_ (id) (fun x => { x with boqFromAccess := [true, false] }), true, [false], by decide +kernel⟩,
   ⟨{ s := 1, d := 0, a := 0, b := 0, c := 0, imm := 5 }, at_ id id, by decide +kernel⟩⟩

theorem test_witness_Groups :
  (∃ (o : OpE) (s s1 s2 s3 s4 u : State) (w0 ml w2 dest : Nat) (l : List Nat),
    let ea := rg s s.cur o.b.toNat
    let gid := (rg s s.cur o.a.toNat).toNat
    Issues (.gopen o) s ∧ ea.toNat % 32 = 0 ∧ memRead (beginIssue s) ea 8 .peek = .ok (w0, s1) ∧ memRead s1 (ea + 8) 8 .peek = .ok (ml, s2) ∧ memRead s2 (ea + 16) 8 .peek = .ok (w2, s3) ∧ memRead s3 (ea + 24) 8 .peek = .ok (dest, s4) ∧ bits w0 63 62 = 0 ∧ bits w0 31 0 = 0 ∧ bits w0 61 60 ≤ 1 ∧ bits w0 55 52 < 6 ∧ ml % 8 = 0 ∧ dest % 8 = 0 ∧ ((bits w0 61 60 = 0 → bits w0 59 56 ∈ [4, 5, 6, 7, 13])) ∧ readMembers s4 (BitVec.ofNat 64 ml) (bits w0 43 32 + 1) = .ok (l, u) ∧ ((bits w0 61 60 = 0 → (commonsPlace u (BitVec.ofNat 64 dest)).isSome = true)) ∧ (groupOf u gid).state = 0 ∧ FreeToAct u ∧ u.cur = s.cur) ∧
  (∃ (o : OpE) (s : State),
    Issues (.gsend o) s ∧ FreeToAct s ∧ BufferRoom s ∧ (ctxOf s s.cur).cooked = none ∧ (groupOf s (rg s s.cur o.a.toNat).toNat).state = 1 ∧ (groupOf s (rg s s.cur o.a.toNat).toNat).kind = 1) ∧
  (∃ (o : OpE) (s : State),
    let gid := (rg s s.cur o.a.toNat).toNat
    let e := groupOf s gid
    Issues (.gsend o) s ∧ FreeToAct s ∧ SendRoom s ∧ (ctxOf s s.cur).cooked = none ∧ e.state = 1 ∧ e.kind = 1 ∧ e.members.length + entriesOf s (.core (coreOf s.cur)) ≤ 32) ∧
  (∃ (o : OpE) (s : State),
    Issues (.gsend o) s ∧ (ctxOf s s.cur).cooked = none ∧ unfinished (beginIssue s) s.cur = false ∧ (((groupOf s (rg s s.cur o.a.toNat).toNat).state ≠ 1 ∨ (groupOf s (rg s s.cur o.a.toNat).toNat).kind ≠ 1))) ∧
  (∃ (o : OpE) (s : State),
    let gid := (rg s s.cur o.a.toNat).toNat
    let e := groupOf s gid
    let w := rg s s.cur o.b.toNat
    let m := memberIndex e (agentOf s s.cur)
    let x : Word := if e.fmt = 4 ∨ e.fmt = 5 ∨ e.fmt = 13 then (w.setWidth 32).setWidth 64 else w
    Issues (.gred o) s ∧ FreeToAct s ∧ ((ctxOf s s.cur).hmode = false ∨ (ctxOf s s.cur).sendBuf.length < 32) ∧ e.state = 1 ∧ e.kind = 0 ∧ hasGiven s gid m = false) ∧
  (∃ (o : OpE) (s : State),
    Issues (.gred o) s ∧ unfinished (beginIssue s) s.cur = false ∧ (((groupOf s (rg s s.cur o.a.toNat).toNat).state ≠ 1 ∨ (groupOf s (rg s s.cur o.a.toNat).toNat).kind ≠ 0))) ∧
  (∃ (o : OpE) (s : State),
    Issues (.gdrain o) s ∧ (groupOf s (rg s s.cur o.a.toNat).toNat).inflight = 0) ∧
  (∃ (o : OpE) (s : State),
    Issues (.gdrain o) s ∧ (groupOf s (rg s s.cur o.a.toNat).toNat).inflight ≠ 0) ∧
  (∃ (o : OpE) (s : State),
    Issues (.gclose o) s ∧ FreeToAct s ∧ BufferRoom s) ∧
  (∃ (o : OpE) (s : State),
    let gid := (rg s s.cur o.a.toNat).toNat
    let e := groupOf s gid
    Issues (.gclose o) s ∧ FreeToAct s ∧ (ctxOf s s.cur).hmode = false) ∧
  (∃ (s : State) (id gid m : Nat) (x : Word) (f : Flight Regs),
    let e := groupOf s gid
    flightOf s id = some f ∧ f.op = .contribute gid m x ∧ mayPerform s f = true ∧ e.state = 1 ∧ e.round.length + 1 < e.members.length) ∧
  (∃ (s : State) (id gid m : Nat) (x : Word) (f : Flight Regs),
    let e := { groupOf s gid with inflight := (groupOf s gid).inflight - 1, round := (groupOf s gid).round ++ [(m, x)] }
    flightOf s id = some f ∧ f.op = .contribute gid m x ∧ mayPerform s f = true ∧ e.state = 1 ∧ e.round.length = e.members.length) ∧
  (∃ (s u : State) (id gid pa : Nat) (x : Word) (f : Flight Regs),
    AtSlice s id f u ∧ f.op = .result gid pa x ∧ ((∀ i, i < 8 → barsWrite u f.cls (pa + i) = false))) :=
  ⟨⟨{ s := 0, d := 0, a := 11, b := 9, c := 0, imm := 0 }, grp 1152921508901814272 0, grp1 1152921508901814272 0, grp2 1152921508901814272 0, grp3 1152921508901814272 0, grp4 1152921508901814272 0, grp5 1152921508901814272 0, 1152921508901814272, 0x20020, 0, 0, [0, 8], by decide +kernel⟩,
   ⟨{ s := 0, d := 0, a := 11, b := 4, c := 0, imm := 5 }, inGroup (ge 1 0) (hand (g 11 0x3 (id)) id), by decide +kernel⟩,
   ⟨{ s := 0, d := 0, a := 11, b := 4, c := 0, imm := 5 }, inGroup (ge 1 0) (at_ (g 11 0x3 (id)) (id)), by decide +kernel⟩,
   ⟨{ s := 0, d := 0, a := 11, b := 4, c := 0, imm := 5 }, inGroup (ge 0 0) (at_ (g 11 0x3 (id)) (id)), by decide +kernel⟩,
   ⟨{ s := 0, d := 0, a := 11, b := 6, c := 0, imm := 0 }, inGroup (ge 0 0) (at_ (g 11 0x3 (id)) (id)), by decide +kernel⟩,
   ⟨{ s := 0, d := 0, a := 11, b := 6, c := 0, imm := 0 }, inGroup GroupEntry.reset (at_ (g 11 0x3 (id)) (id)), by decide +kernel⟩,
   ⟨{ s := 0, d := 0, a := 11, b := 0, c := 0, imm := 0 }, inGroup (ge 1 0) (at_ (g 11 0x3 (id)) (id)), by decide +kernel⟩,
   ⟨{ s := 0, d := 0, a := 11, b := 0, c := 0, imm := 0 }, inGroup (ge 1 2) (at_ (g 11 0x3 (id)) (id)), by decide +kernel⟩,
   ⟨{ s := 0, d := 0, a := 11, b := 0, c := 0, imm := 0 }, inGroup (ge 1 2) (hand (g 11 0x3 (id)) id), by decide +kernel⟩,
   ⟨{ s := 0, d := 0, a := 11, b := 0, c := 0, imm := 0 }, inGroup (ge 1 2) (at_ (g 11 0x3 (id)) (id)), by decide +kernel⟩,
   ⟨flying (inGroup (ge 0 1) (base)) (.contribute 3 1 5), 7, 3, 1, 5, (fl 7 (.contribute 3 1 5) []), by decide +kernel⟩,
   ⟨flying (inGroup { ge 0 1 with round := [(0, 9)] } base) (.contribute 3 1 5), 7, 3, 1, 5, (fl 7 (.contribute 3 1 5) []), by decide +kernel⟩,
   ⟨(at7 (fl 7 (.result 3 0x20040 5) []) [] |> inGroup (ge 0 1)), reached (at7 (fl 7 (.result 3 0x20040 5) []) [] |> inGroup (ge 0 1)) (fl 7 (.result 3 0x20040 5) []), 7, 3, 0x20040, 5, (fl 7 (.result 3 0x20040 5) []), ⟨by decide +kernel, by decide +kernel, by decide +kernel, eq_pair _ _ (by decide +kernel)⟩, by decide +kernel, by decide +kernel⟩⟩

theorem test_witness_RequestsAndGraphLaunch :
  (∃ (o : OpE) (s u : State) (va pa : Nat) (leaf : Word),
    Issues (.rqnote o) s ∧ FreeToAct s ∧ (rg s s.cur o.a.toNat).toNat % 256 = 0 ∧ sliceTarget (beginIssue s) (rg s s.cur o.a.toNat) 8 = .ok (.phys va pa leaf, u)) ∧
  (∃ (o : OpE) (s u : State) (va pa : Nat) (leaf : Word),
    Issues (.rqflt o) s ∧ FreeToAct s ∧ (rg s s.cur o.a.toNat).toNat % 256 = 0 ∧ sliceTarget (beginIssue s) (rg s s.cur o.a.toNat) 8 = .ok (.phys va pa leaf, u)) ∧
  (∃ (o : OpE) (s : State),
    Issues (.rqslot o) s) ∧
  (∃ (s : State) (pa tok : Nat) (w : Word),
    slotMatches s pa w = false) ∧
  (∃ (s : State) (pa tok : Nat) (w : Word),
    slotMatches s pa w = true ∧ recGet s pa 0 2 0 ≠ 2 ∧ recGet s pa 0 2 0 ≠ 3) ∧
  (∃ (s : State) (pa tok : Nat) (w : Word),
    slotMatches s pa w = true ∧ (recGet s pa 0 2 0 = 2 ∨ recGet s pa 0 2 0 = 3) ∧ 0 < recGet s pa 0x50 31 0) ∧
  (∃ (s : State) (pa tok : Nat) (w : Word),
    let r := noteRecord s pa tok w
    slotMatches s pa w = true ∧ (recGet s pa 0 2 0 = 2 ∨ recGet s pa 0 2 0 = 3) ∧ recGet s pa 0x50 31 0 = 0 ∧ tok < 2 ^ 32) ∧
  (∃ (s u : State) (id pa d : Nat) (tok w : Word) (f : Flight Regs),
    AtSlice s id f u ∧ f.op = .note pa tok w d ∧ (coreAt s (coreOf f.ctx)).killed = false ∧ anyPoison u pa 256 = false ∧ ((slotMatches u pa w = true → seqPoison u pa = false))) ∧
  (∃ (s u : State) (id pa d : Nat) (code : BitVec 8) (w : Word) (f : Flight Regs),
    let v := placeWrite u pa (f.slice + 2048 * f.cls) (bytesOf (setBits (setBits (readMem u pa 8) 15 8 code.toNat) 2 0 5) 8)
    let slot := recGet u pa 0x18 9 0
    let place := slotPlace v (recGet u pa 0x18 15 12) (0x8000 + slot / 8);
    AtSlice s id f u ∧ f.op = .flt pa code w d ∧ (coreAt s (coreOf f.ctx)).killed = false ∧ anyPoison u pa 256 = false ∧ slotMatches u pa w = true ∧ (recGet u pa 0 2 0 = 2 ∨ recGet u pa 0 2 0 = 3) ∧ cxlGone u pa = false ∧ place = none) ∧
  (∃ (s u : State) (id pa d : Nat) (code : BitVec 8) (w : Word) (f : Flight Regs) (b h : Nat),
    let v := placeWrite u pa (f.slice + 2048 * f.cls) (bytesOf (setBits (setBits (readMem u pa 8) 15 8 code.toNat) 2 0 5) 8)
    let slot := recGet u pa 0x18 9 0
    let place := slotPlace v (recGet u pa 0x18 15 12) (0x8000 + slot / 8);
    AtSlice s id f u ∧ f.op = .flt pa code w d ∧ (coreAt s (coreOf f.ctx)).killed = false ∧ anyPoison u pa 256 = false ∧ slotMatches u pa w = true ∧ (recGet u pa 0 2 0 = 2 ∨ recGet u pa 0 2 0 = 3) ∧ cxlGone u pa = false ∧ place = some (b, h) ∧ (b < pa ∨ pa + 8 ≤ b) ∧ cxlGone v b = false) ∧
  (∃ (o : OpE) (s : State),
    let a := rg s s.cur o.a.toNat
    let b := rg s s.cur o.b.toNat
    Issues (.grlaunch o) s ∧ FreeToAct s ∧ a.toNat % 64 = 0 ∧ b.toNat % 8 = 0) ∧
  (∃ (o : OpE) (s : State),
    Issues (.grlaunch o) s ∧ unfinished (beginIssue s) s.cur = false ∧ (rg s s.cur o.a.toNat).toNat % 64 ≠ 0) ∧
  (∃ (o : OpE) (s : State),
    Issues (.grsig o) s ∧ FreeToAct s ∧ (ctxOf s s.cur).hmode = false) ∧
  (∃ (o : OpE) (s : State),
    Issues (.grsig o) s ∧ FreeToAct s ∧ BufferRoom s) :=
  ⟨⟨{ s := 0, d := 3, a := 9, b := 4, c := 5, imm := 0 }, at_ id id, okState (sliceTarget (beginIssue (at_ id id)) 0x20000 8), 0x20000, 0x20000, leafT, by decide +kernel⟩,
   ⟨{ s := 0, d := 3, a := 9, b := 4, c := 5, imm := 0 }, at_ id id, okState (sliceTarget (beginIssue (at_ id id)) 0x20000 8), 0x20000, 0x20000, leafT, by decide +kernel⟩,
   ⟨{ s := 0, d := 16, a := 4, b := 5, c := 0, imm := 0 }, at_ id id, by decide +kernel⟩,
   ⟨record 2, 0x20000, 9, 8, by decide +kernel⟩,
   ⟨record 1, 0x20000, 9, 7, by decide +kernel⟩,
   ⟨{ record 2 with mem := (record 2).mem ++ [(0x20050, 1)] }, 0x20000, 9, 7, by decide +kernel⟩,
   ⟨record 2, 0x20000, 9, 7, by decide +kernel⟩,
   ⟨noteAt, (reachAll noteAt (fl 7 (.note 0x20000 9 7 3) [])).2, 7, 0x20000, 3, 9, 7, fl 7 (.note 0x20000 9 7 3) [], ⟨by decide +kernel, by decide +kernel, by decide +kernel, eq_pair _ _ (by decide +kernel)⟩, by decide +kernel, by decide +kernel, by decide +kernel, by decide +kernel⟩,
   ⟨fltAt, (reachAll fltAt (fl 7 (.flt 0x20000 0x42 7 3) [])).2, 7, 0x20000, 3, 0x42, 7, fl 7 (.flt 0x20000 0x42 7 3) [], ⟨by decide +kernel, by decide +kernel, by decide +kernel, eq_pair _ _ (by decide +kernel)⟩, by decide +kernel, by decide +kernel, by decide +kernel, by decide +kernel, by decide +kernel, by decide +kernel, by decide +kernel⟩,
   ⟨{ fltAt with batchRegs := [(0, 0x60000)], mem := fltAt.mem ++ [(0x68000, 0xFF)] }, (reachAll ({ fltAt with batchRegs := [(0, 0x60000)], mem := fltAt.mem ++ [(0x68000, 0xFF)] }) (fl 7 (.flt 0x20000 0x42 7 3) [])).2, 7, 0x20000, 3, 0x42, 7, fl 7 (.flt 0x20000 0x42 7 3) [], 0x68000, (match slotPlace ((reachAll ({ fltAt with batchRegs := [(0, 0x60000)], mem := fltAt.mem ++ [(0x68000, 0xFF)] }) (fl 7 (.flt 0x20000 0x42 7 3) [])).2) 0 0x8000 with | some (_, h) => h | none => 0), ⟨by decide +kernel, by decide +kernel, by decide +kernel, eq_pair _ _ (by decide +kernel)⟩, by decide +kernel, by decide +kernel, by decide +kernel, by decide +kernel, by decide +kernel, by decide +kernel, by decide +kernel, by decide +kernel, by decide +kernel⟩,
   ⟨{ s := 0, d := 3, a := 8, b := 9, c := 0, imm := 3 }, at_ id id, by decide +kernel⟩,
   ⟨{ s := 0, d := 3, a := 4, b := 9, c := 0, imm := 3 }, at_ id id, by decide +kernel⟩,
   ⟨{ s := 0, d := 0, a := 4, b := 0, c := 0, imm := 0 }, at_ id id, by decide +kernel⟩,
   ⟨{ s := 0, d := 0, a := 4, b := 0, c := 0, imm := 0 }, hand id id, by decide +kernel⟩⟩

theorem test_witness_SlicePerformance :
  (∃ (s u : State) (id pa w op d : Nat) (val cmp : Word) (f : Flight Regs),
    let old := BitVec.ofNat w (readMem s pa (w / 8))
    AtSlice s id f u ∧ f.op = .rmw pa w op val cmp d ∧ f.posted = false ∧ (w = 32 ∨ w = 64) ∧ barsWrite u f.cls pa = false ∧ (coreAt s (coreOf f.ctx)).killed = false ∧ ((d ≠ 0 → anyPoison u pa (w / 8) = false))) ∧
  (∃ (s u : State) (id pa n d : Nat) (sx : Bool) (f : Flight Regs),
    AtSlice s id f u ∧ f.op = .tracked pa n sx d ∧ anyPoison u pa n = false ∧ (ctxOf s f.ctx).writeLog = [] ∧ (coreAt s (coreOf f.ctx)).killed = false) ∧
  (∃ (s u : State) (id pa n d : Nat) (sx : Bool) (f : Flight Regs),
    AtSlice s id f u ∧ f.op = .load pa n sx d ∧ anyPoison u pa n = false ∧ (coreAt s (coreOf f.ctx)).killed = false) ∧
  (∃ (s u : State) (id pa : Nat) (data : List Byte) (first : Option Nat) (f : Flight Regs),
    AtSlice s id f u ∧ f.op = .write pa data first ∧ f.posted = true ∧ f.ctx < 65536 ∧ ((∀ i, i < data.length → barsWrite u f.cls (pa + i) = false))) ∧
  (∃ (s u : State) (id d : Nat) (ts : List (Nat × Word)) (f : Flight Regs),
    AtSlice s id f u ∧ f.op = .cmls ts d ∧ (∀ p ∈ ts, barsWrite u f.cls p.1 = false) ∧ (coreAt s (coreOf f.ctx)).killed = false ∧ ((∀ p ∈ ts, ∃ e ∈ (ctxOf s f.ctx).track, e.line = p.1 / 256 ∧ e.broken = false ∧ e.stamp = stampOf s p.1)) ∧ ((ts.map (·.1)).Pairwise (fun a b => a + 8 ≤ b ∨ b + 8 ≤ a))) ∧
  (∃ (s u : State) (id d : Nat) (ts : List (Nat × Word)) (f : Flight Regs),
    AtSlice s id f u ∧ f.op = .cmls ts d ∧ (∀ p ∈ ts, barsWrite u f.cls p.1 = false) ∧ (coreAt s (coreOf f.ctx)).killed = false ∧ ((∃ p ∈ ts, ∀ e ∈ (ctxOf s f.ctx).track, e.line = p.1 / 256 → e.broken = true ∨ e.stamp ≠ stampOf s p.1))) ∧
  (∃ (s : State) (id : Nat) (f : Flight Regs),
    flightOf s id = some f ∧ f.done = true ∧ f.posted = true ∧ f.back ≤ s.cycle) ∧
  (∃ (s : State) (id : Nat) (f : Flight Regs),
    flightOf s id = some f ∧ f.done = true ∧ f.posted = true ∧ s.cycle < f.back) ∧
  (∃ (s : State) (k : Nat) (e : Nat × Nat × Word × Nat) (l : List (Nat × Nat × Word × Nat)),
    (coreAt s k).agg = e :: l ∧ e.2.2.2 ≤ s.cycle ∧ aggRoom s k [e] = true ∧ e.1 < aggAbroad ∧ (∀ a ∈ linesOf e.1 8, lineOf s k a = none)) :=
  ⟨⟨at7 ((fl 7 (.rmw 0x20000 64 0 5 0 3) [])) [(0x10000, 0xF0), (0x10003, 0x80), (0x20000, 0x80), (0x20001, 0x12), (0x20003, 0x80), (0x20007, 0xFF)], reached (at7 ((fl 7 (.rmw 0x20000 64 0 5 0 3) [])) [(0x10000, 0xF0), (0x10003, 0x80), (0x20000, 0x80), (0x20001, 0x12), (0x20003, 0x80), (0x20007, 0xFF)]) ((fl 7 (.rmw 0x20000 64 0 5 0 3) [])), 7, 0x20000, 64, 0, 3, 5, 0, (fl 7 (.rmw 0x20000 64 0 5 0 3) []), ⟨by decide +kernel, by decide +kernel, by decide +kernel, eq_pair _ _ (by decide +kernel)⟩, by decide +kernel, by decide +kernel, by decide +kernel, by decide +kernel, by decide +kernel, by decide +kernel⟩,
   ⟨at7 ((fl 7 (.tracked 0x20000 4 true 3) [])) [(0x10000, 0xF0), (0x10003, 0x80), (0x20000, 0x80), (0x20001, 0x12), (0x20003, 0x80), (0x20007, 0xFF)], reached (at7 ((fl 7 (.tracked 0x20000 4 true 3) [])) [(0x10000, 0xF0), (0x10003, 0x80), (0x20000, 0x80), (0x20001, 0x12), (0x20003, 0x80), (0x20007, 0xFF)]) ((fl 7 (.tracked 0x20000 4 true 3) [])), 7, 0x20000, 4, 3, true, (fl 7 (.tracked 0x20000 4 true 3) []), ⟨by decide +kernel, by decide +kernel, by decide +kernel, eq_pair _ _ (by decide +kernel)⟩, by decide +kernel, by decide +kernel, by decide +kernel, by decide +kernel⟩,
   ⟨at7 ((fl 7 (.load 0x20000 4 true 3) [])) [(0x10000, 0xF0), (0x10003, 0x80), (0x20000, 0x80), (0x20001, 0x12), (0x20003, 0x80), (0x20007, 0xFF)], reached (at7 ((fl 7 (.load 0x20000 4 true 3) [])) [(0x10000, 0xF0), (0x10003, 0x80), (0x20000, 0x80), (0x20001, 0x12), (0x20003, 0x80), (0x20007, 0xFF)]) ((fl 7 (.load 0x20000 4 true 3) [])), 7, 0x20000, 4, 3, true, (fl 7 (.load 0x20000 4 true 3) []), ⟨by decide +kernel, by decide +kernel, by decide +kernel, eq_pair _ _ (by decide +kernel)⟩, by decide +kernel, by decide +kernel, by decide +kernel⟩,
   ⟨at7 ({ fl 7 (.write 0x20001 [1, 0, 3] none) [] with posted := true }) [(0x10000, 0xF0), (0x10003, 0x80), (0x20000, 0x80), (0x20001, 0x12), (0x20003, 0x80), (0x20007, 0xFF)], reached (at7 ({ fl 7 (.write 0x20001 [1, 0, 3] none) [] with posted := true }) [(0x10000, 0xF0), (0x10003, 0x80), (0x20000, 0x80), (0x20001, 0x12), (0x20003, 0x80), (0x20007, 0xFF)]) ({ fl 7 (.write 0x20001 [1, 0, 3] none) [] with posted := true }), 7, 0x20001, [1, 0, 3], none, { fl 7 (.write 0x20001 [1, 0, 3] none) [] with posted := true }, ⟨by decide +kernel, by decide +kernel, by decide +kernel, eq_pair _ _ (by decide +kernel)⟩, by decide +kernel, by decide +kernel, by decide +kernel, by decide +kernel⟩,
   ⟨modCtx (at7 ((fl 7 (.cmls [(0x20000, 0x99), (0x20008, 0x77)] 3) [])) [(0x10000, 0xF0), (0x10003, 0x80), (0x20000, 0x80), (0x20001, 0x12), (0x20003, 0x80), (0x20007, 0xFF)]) 0 (fun x => { x with track := [{ line := 0x200, stamp := 0, broken := false }] }), reached (modCtx (at7 ((fl 7 (.cmls [(0x20000, 0x99), (0x20008, 0x77)] 3) [])) [(0x10000, 0xF0), (0x10003, 0x80), (0x20000, 0x80), (0x20001, 0x12), (0x20003, 0x80), (0x20007, 0xFF)]) 0 (fun x => { x with track := [{ line := 0x200, stamp := 0, broken := false }] })) ((fl 7 (.cmls [(0x20000, 0x99), (0x20008, 0x77)] 3) [])), 7, 3, [(0x20000, 0x99), (0x20008, 0x77)], (fl 7 (.cmls [(0x20000, 0x99), (0x20008, 0x77)] 3) []), ⟨by decide +kernel, by decide +kernel, by decide +kernel, eq_pair _ _ (by decide +kernel)⟩, by decide +kernel, by decide +kernel, by decide +kernel, by decide +kernel, by decide +kernel⟩,
   ⟨modCtx (at7 ((fl 7 (.cmls [(0x20000, 0x99), (0x20008, 0x77)] 3) [])) [(0x10000, 0xF0), (0x10003, 0x80), (0x20000, 0x80), (0x20001, 0x12), (0x20003, 0x80), (0x20007, 0xFF)]) 0 (fun x => { x with track := [{ line := 0x200, stamp := 0, broken := true }] }), reached (modCtx (at7 ((fl 7 (.cmls [(0x20000, 0x99), (0x20008, 0x77)] 3) [])) [(0x10000, 0xF0), (0x10003, 0x80), (0x20000, 0x80), (0x20001, 0x12), (0x20003, 0x80), (0x20007, 0xFF)]) 0 (fun x => { x with track := [{ line := 0x200, stamp := 0, broken := true }] })) ((fl 7 (.cmls [(0x20000, 0x99), (0x20008, 0x77)] 3) [])), 7, 3, [(0x20000, 0x99), (0x20008, 0x77)], (fl 7 (.cmls [(0x20000, 0x99), (0x20008, 0x77)] 3) []), ⟨by decide +kernel, by decide +kernel, by decide +kernel, eq_pair _ _ (by decide +kernel)⟩, by decide +kernel, by decide +kernel, by decide +kernel, by decide +kernel⟩,
   ⟨at7 ({ fl 7 (.fence 0 0) [] with done := true, posted := true }) [(0x10000, 0xF0), (0x10003, 0x80), (0x20000, 0x80), (0x20001, 0x12), (0x20003, 0x80), (0x20007, 0xFF)], 7, { fl 7 (.fence 0 0) [] with done := true, posted := true }, by decide +kernel⟩,
   ⟨at7 ({ fl 7 (.fence 0 0) [] with done := true, posted := true, back := 9 }) [(0x10000, 0xF0), (0x10003, 0x80), (0x20000, 0x80), (0x20001, 0x12), (0x20003, 0x80), (0x20007, 0xFF)], 7, { fl 7 (.fence 0 0) [] with done := true, posted := true, back := 9 }, by decide +kernel⟩,
   ⟨modCore { base with cycle := 300 } 0 (fun k => { k with agg := [(0x20000, 0, 5, 256), (0x20008, 0, 7, 512)] }), 0, (0x20000, 0, 5, 256), [(0x20008, 0, 7, 512)], by decide +kernel⟩⟩

theorem test_witness_CellsAtSlices :
  (∃ (s : State) (id a pa : Nat) (ws : List Word) (f : Flight Regs),
    flightOf s id = some f ∧ mayPerform s f = true ∧ f.op = .cell a pa ws ∧ netBarred s a pa = none) ∧
  (∃ (s : State) (id pa w : Nat) (r x : Word) (f : Flight Regs),
    flightOf s id = some f ∧ mayPerform s f = true ∧ f.op = .cset r pa w x ∧ netBarred s (refAddr r) pa = none ∧ itemState s false (refAddr r) ≠ .free ∧ itemState s false (refAddr r) ≠ .heldBack ∧ heapAt s.cellHeaps (refAddr r) ≠ none ∧ (reachL2 s (.flight f.id) f.slice (pa + 8 * w) 8 f.cls true).1 = true ∧ cxlGone s (pa + 8 * w) = false) ∧
  (∃ (s : State) (id pa w : Nat) (r x : Word) (f : Flight Regs),
    flightOf s id = some f ∧ mayPerform s f = true ∧ f.op = .cset r pa w x ∧ (netBarred s (refAddr r) pa ≠ none ∨ itemState s false (refAddr r) = .free ∨ itemState s false (refAddr r) = .heldBack ∨
      heapAt s.cellHeaps (refAddr r) = none)) ∧
  (∃ (s : State) (id pa : Nat) (r x : Word) (f : Flight Regs),
    flightOf s id = some f ∧ mayPerform s f = true ∧ f.op = .link r pa x ∧ netBarred s (refAddr r) pa = none ∧ itemState s true (refAddr r) ≠ .free ∧ heapAt s.wireHeaps (refAddr r) ≠ none ∧ isPoisoned s pa = false ∧ (reachL2 s (.flight f.id) f.slice pa 8 f.cls true).1 = true ∧ readMem s pa 8 = 0) ∧
  (∃ (s : State) (id pa : Nat) (r x : Word) (f : Flight Regs),
    flightOf s id = some f ∧ mayPerform s f = true ∧ f.op = .link r pa x ∧ netBarred s (refAddr r) pa = none ∧ itemState s true (refAddr r) ≠ .free ∧ heapAt s.wireHeaps (refAddr r) ≠ none ∧ isPoisoned s pa = false ∧ (reachL2 s (.flight f.id) f.slice pa 8 f.cls true).1 = true ∧ readMem s pa 8 ≠ 0 ∧ refOk (BitVec.ofNat 64 (readMem s pa 8)) = true ∧ refKind (BitVec.ofNat 64 (readMem s pa 8)) ≠ 2 ∧ refKind x ≠ 2) ∧
  (∃ (s : State) (id : Nat) (p : PairRef) (f : Flight Regs),
    flightOf s id = some f ∧ mayPerform s f = true ∧ f.op = .push p ∧ canPush s (coreOf f.ctx) 1 = true ∧ (coreAt s (coreOf f.ctx)).deque.length < 256) ∧
  (∃ (s : State) (k h n : Nat) (wire : Bool) (r : List (Bool × Nat × Nat)),
    (coreAt s k).requests = (wire, h, n) :: r ∧ (∀ e ∈ (coreAt s k).arriving, s.cycle < e.2) ∧ 0 < kindRoom s k wire) ∧
  (∃ (s : State) (k due : Nat) (e : Bool × Nat × Nat),
    (coreAt s k).arriving = [(e, due)] ∧ due ≤ s.cycle) :=
  ⟨⟨{ at7 ((fl 7 (.cell 0x20000 0x20000 [1, 2, 3, 4]) [])) [(0x10000, 0xF0), (0x10003, 0x80), (0x20000, 0x80), (0x20001, 0x12), (0x20003, 0x80), (0x20007, 0xFF)] with cellHeaps := [(0, some { ranges := [(0x20000, 0x100)], acct := 0 })], wireHeaps := [(0, some { ranges := [(0x20000, 0x100)], acct := 0 })], cells := [(0x20000, .live)], wires := [(0x20000, .live)] }, 7, 0x20000, 0x20000, [1, 2, 3, 4], (fl 7 (.cell 0x20000 0x20000 [1, 2, 3, 4]) []), by decide +kernel⟩,
   ⟨{ at7 ((fl 7 (.cset 0x2000000000020000 0x20000 1 9) [])) [(0x10000, 0xF0), (0x10003, 0x80), (0x20000, 0x80), (0x20001, 0x12), (0x20003, 0x80), (0x20007, 0xFF)] with cellHeaps := [(0, some { ranges := [(0x20000, 0x100)], acct := 0 })], wireHeaps := [(0, some { ranges := [(0x20000, 0x100)], acct := 0 })], cells := [(0x20000, .live)], wires := [(0x20000, .live)] }, 7, 0x20000, 1, 0x2000000000020000, 9, (fl 7 (.cset 0x2000000000020000 0x20000 1 9) []), by decide +kernel⟩,
   ⟨at7 ((fl 7 (.cset 0x2000000000020000 0x20000 1 9) [])) [(0x10000, 0xF0), (0x10003, 0x80), (0x20000, 0x80), (0x20001, 0x12), (0x20003, 0x80), (0x20007, 0xFF)], 7, 0x20000, 1, 0x2000000000020000, 9, (fl 7 (.cset 0x2000000000020000 0x20000 1 9) []), by decide +kernel⟩,
   ⟨{ at7 ((fl 7 (.link 0x4000000000020000 0x20000 0x6000000000000005) [])) [(0x10000, 0xF0)] with cellHeaps := [(0, some { ranges := [(0x20000, 0x100)], acct := 0 })], wireHeaps := [(0, some { ranges := [(0x20000, 0x100)], acct := 0 })], cells := [(0x20000, .live)], wires := [(0x20000, .live)] }, 7, 0x20000, 0x4000000000020000, 0x6000000000000005, (fl 7 (.link 0x4000000000020000 0x20000 0x6000000000000005) []), by decide +kernel⟩,
   ⟨{ at7 ((fl 7 (.link 0x4000000000020000 0x20000 0x6000000000000005) [])) [(0x20000, 9), (0x20007, 0x60)] with cellHeaps := [(0, some { ranges := [(0x20000, 0x100)], acct := 0 })], wireHeaps := [(0, some { ranges := [(0x20000, 0x100)], acct := 0 })], cells := [(0x20000, .live)], wires := [(0x20000, .live)] }, 7, 0x20000, 0x4000000000020000, 0x6000000000000005, (fl 7 (.link 0x4000000000020000 0x20000 0x6000000000000005) []), by decide +kernel⟩,
   ⟨at7 ((fl 7 (.push { first := 0x6000000000000005, second := 0x2000000000020000, radius := 0, seed := none }) [])) [(0x10000, 0xF0), (0x10003, 0x80), (0x20000, 0x80), (0x20001, 0x12), (0x20003, 0x80), (0x20007, 0xFF)], 7, { first := 0x6000000000000005, second := 0x2000000000020000, radius := 0, seed := none }, (fl 7 (.push { first := 0x6000000000000005, second := 0x2000000000020000, radius := 0, seed := none }) []), by decide +kernel⟩,
   ⟨modCore ({ base with cellHeaps := [(0, some { ranges := [(0x20000, 0x100)], acct := 0 })], wireHeaps := [(0, some { ranges := [(0x20000, 0x100)], acct := 0 })], cells := [(0x20000, .live)], wires := [(0x20000, .live)] }) 0 (fun k => { k with requests := [(false, 0, 3), (true, 0, 2)] }), 0, 0, 3, false, [(true, 0, 2)], by decide +kernel⟩,
   ⟨modCore { base with cycle := 5 } 0 (fun k => { k with arriving := [((true, 0, 0x30000), 5)] }), 0, 5, (true, 0, 0x30000), by decide +kernel⟩⟩

theorem test_witness_FillsAndWalks :
  (∃ (s : State) (k l : Nat) (f : Fill),
    (coreAt s k).fills.find? (fun f => f.line = l && f.due ≤ s.cycle && !(fillHeld s f)) = some f ∧ f.stale = true) ∧
  (∃ (s : State) (k l : Nat) (f : Fill),
    (coreAt s k).fills.find? (fun f => f.line = l && f.due ≤ s.cycle && !(fillHeld s f)) = some f ∧ f.stale = false ∧ (reachL2 s (.fill k l) (f.home % 2048) (32 * l) 32 (f.home / 2048) false).1 = true ∧ f.l2 = true) ∧
  (∃ (s : State) (k l : Nat) (f : Fill),
    (coreAt s k).fills.find? (fun f => f.line = l && f.due ≤ s.cycle && !(fillHeld s f)) = some f ∧ f.stale = false ∧ (reachL2 s (.fill k l) (f.home % 2048) (32 * l) 32 (f.home / 2048) false).1 = true ∧ f.l2 = false ∧ lineOf s k l = none) ∧
  (∃ (s : State) (k l due home : Nat),
    (coreAt s k).fetches.find? (fun f => f.1 = l) = some (l, due, home) ∧ due ≤ s.cycle ∧ (reachL2 s (.fetch k l) (home % 2048) (32 * l) 32 4 false).1 = true) ∧
  (∃ (s : State) (i : Nat) (m : Miss) (r : List Miss),
    (sliceAt s i).misses = m :: r ∧ m.due ≤ s.cycle ∧ m.sent = false) ∧
  (∃ (s : State) (i : Nat) (m : Miss) (r : List Miss) (y : L2Line),
    (sliceAt s i).misses = m :: r ∧ m.due ≤ s.cycle ∧ m.sent = true ∧ findWay (waysOf (sliceAt s i) (l2Set m.line)) m.line = some y) ∧
  (∃ (s : State) (v c va l table : Nat) (r : List (Nat × Nat × Nat × Nat)) (next : Nat),
    (clusterAt s v).walks = (c, va, l, table) :: r ∧ c ≠ engineKey v ∧ ((∀ p ∈ (coreAt s (coreOf c)).prefs, ¬(p.1 = va ∧ p.2.1 = c))) ∧ (clusterAt s v).walkDue ≤ s.cycle ∧ isPoisoned s (entryAddr table l va) = false ∧ (reachL2 s (.walk v) (homeSlice true 0 (entryAddr table l va)) (entryAddr table l va) 8 4 false).1 = true ∧ readEntry s l va (readMem s (entryAddr table l va) 8) = .ok next) ∧
  (∃ (s : State) (v c va l table : Nat) (r : List (Nat × Nat × Nat × Nat)) (page n : Nat) (pte : Word),
    (clusterAt s v).walks = (c, va, l, table) :: r ∧ c ≠ engineKey v ∧ ((∀ p ∈ (coreAt s (coreOf c)).prefs, ¬(p.1 = va ∧ p.2.1 = c))) ∧ (clusterAt s v).walkDue ≤ s.cycle ∧ isPoisoned s (entryAddr table l va) = false ∧ (reachL2 s (.walk v) (homeSlice true 0 (entryAddr table l va)) (entryAddr table l va) 8 4 false).1 = true ∧ (coreAt s (coreOf c)).killed = false ∧ readEntry s l va (readMem s (entryAddr table l va) 8) = .error (.leaf page n pte)) ∧
  (∃ (s : State) (v c va l table : Nat) (r : List (Nat × Nat × Nat × Nat)) (code : Nat),
    (clusterAt s v).walks = (c, va, l, table) :: r ∧ c ≠ engineKey v ∧ ((∀ p ∈ (coreAt s (coreOf c)).prefs, ¬(p.1 = va ∧ p.2.1 = c))) ∧ (clusterAt s v).walkDue ≤ s.cycle ∧ isPoisoned s (entryAddr table l va) = false ∧ (reachL2 s (.walk v) (homeSlice true 0 (entryAddr table l va)) (entryAddr table l va) 8 4 false).1 = true ∧ readEntry s l va (readMem s (entryAddr table l va) 8) = .error (.fault code) ∧ (ctxOf s c).run = .stalled (.walk va)) ∧
  (∃ (s : State) (c va path due : Nat) (k : Token),
    (ctxOf s c).run = .stalled (.tokenWalk va path due) ∧ due ≤ s.cycle ∧ tokenProbe s va = some k ∧ barred s k = none ∧ k.mode = .exclusive ∧ holdsToken s (holderWords s c path) (graphOfCtx s c) k = true) ∧
  (∃ (s : State) (c va path due : Nat),
    (ctxOf s c).run = .stalled (.tokenWalk va path due) ∧ due ≤ s.cycle ∧ tokenProbe s va = none) ∧
  (∃ (s : State) (c va path due : Nat) (k : Token),
    (ctxOf s c).run = .stalled (.tokenWalk va path due) ∧ due ≤ s.cycle ∧ tokenProbe s va = some k ∧ (k.taint = true ∨ orphaned s k = true)) ∧
  (∃ (s : State) (pa : Nat),
    backed s pa = true ∧ sget false s.poisoned (pa / 32) = false) :=
  ⟨⟨l2At (modCtx (modCore { base with mem := base.mem ++ [(0x10000, 0xF0)] } 0 (fun k => { k with fills := [{ line := 2048, peeked := true, l2 := false, home := homeSlice true 0 0x10000 % 2048, due := 0, ctx := 3, before := 0, stale := true }], fetches := [(2048, 0, homeSlice true 0 0x10000 % 2048)] })) 3 (fun x => { x with run := .stalled (.fill 2048) })) 0x10000, 0, 2048, { line := 2048, peeked := true, l2 := false, home := homeSlice true 0 0x10000 % 2048, due := 0, ctx := 3, before := 0, stale := true }, by decide +kernel⟩,
   ⟨l2At (modCtx (modCore { base with mem := base.mem ++ [(0x10000, 0xF0)] } 0 (fun k => { k with fills := [{ line := 2048, peeked := true, l2 := true, home := homeSlice true 0 0x10000 % 2048, due := 0, ctx := 3, before := 0, stale := false }], fetches := [(2048, 0, homeSlice true 0 0x10000 % 2048)] })) 3 (fun x => { x with run := .stalled (.fill 2048) })) 0x10000, 0, 2048, { line := 2048, peeked := true, l2 := true, home := homeSlice true 0 0x10000 % 2048, due := 0, ctx := 3, before := 0, stale := false }, by decide +kernel⟩,
   ⟨l2At (modCtx (modCore { base with mem := base.mem ++ [(0x10000, 0xF0)] } 0 (fun k => { k with fills := [{ line := 2048, peeked := true, l2 := false, home := homeSlice true 0 0x10000 % 2048, due := 0, ctx := 3, before := 0, stale := false }], fetches := [(2048, 0, homeSlice true 0 0x10000 % 2048)] })) 3 (fun x => { x with run := .stalled (.fill 2048) })) 0x10000, 0, 2048, { line := 2048, peeked := true, l2 := false, home := homeSlice true 0 0x10000 % 2048, due := 0, ctx := 3, before := 0, stale := false }, by decide +kernel⟩,
   ⟨l2At (modCtx (modCore { base with mem := base.mem ++ [(0x10000, 0xF0)] } 0 (fun k => { k with fills := [{ line := 2048, peeked := true, l2 := false, home := homeSlice true 0 0x10000 % 2048, due := 0, ctx := 3, before := 0, stale := false }], fetches := [(2048, 0, homeSlice true 0 0x10000 % 2048)] })) 3 (fun x => { x with run := .stalled (.fetch 2048) })) 0x10000, 0, 2048, 0, homeSlice true 0 0x10000 % 2048, by decide +kernel⟩,
   ⟨miss0 false, 5, { line := 0x200, sectors := 3, cls := 1, sent := false, due := 0, joined := [] }, [], by decide +kernel⟩,
   ⟨miss0 true, 5, { line := 0x200, sectors := 3, cls := 1, sent := true, due := 0, joined := [] }, [], { line := 0x200, valid := 4, dirty := 0, rrpv := 2, owed := [] }, by decide +kernel⟩,
   ⟨walking base.mem 0x10000 0 0, 0, 0, 0x10000, 0, 0, [], 0x1000, by decide +kernel⟩,
   ⟨walking base.mem 0x10000 1 0x1000, 0, 0, 0x10000, 1, 0x1000, [], 0, 30, leafT, by decide +kernel⟩,
   ⟨walking [] 0x10000 1 0x1000, 0, 0, 0x10000, 1, 0x1000, [], cXlateMiss, by decide +kernel⟩,
   ⟨modCtx (held) 0 (fun x => { x with run := .stalled (.tokenWalk 0x10000 0 0) }), 0, 0x10000, 0, 0, tokAt held 0x10000, by decide +kernel⟩,
   ⟨modCtx (base) 0 (fun x => { x with run := .stalled (.tokenWalk 0x10000 0 0) }), 0, 0x10000, 0, 0, by decide +kernel⟩,
   ⟨modCtx ({ held with tokens := [(0x10000, some { tok 0x10000 12 .exclusive 0 [] with taint := true })] }) 0 (fun x => { x with run := .stalled (.tokenWalk 0x10000 0 0) }), 0, 0x10000, 0, 0, { tok 0x10000 12 .exclusive 0 [] with taint := true }, by decide +kernel⟩,
   ⟨base, 0x12345, by decide +kernel⟩⟩

theorem test_witness_WaitsAndLimits :
  (∃ (s : State) (c : Nat),
    (ctxOf s c).run = .groupEnd ∧ returning s c = false ∧ (ctxOf s c).readyAt ≤ s.cycle ∧ (ctxOf s c).stopWhy = none) ∧
  (∃ (s : State) (c : Nat),
    (ctxOf s c).run = .groupEnd ∧ returning s c = false ∧ (ctxOf s c).readyAt ≤ s.cycle ∧ (ctxOf s c).stopWhy ≠ none) ∧
  (∃ (s : State) (c : Nat),
    (ctxOf s c).run = .groupEnd ∧ ((returning s c = true ∨ s.cycle < (ctxOf s c).readyAt))) ∧
  (∃ (s : State) (c : Nat) (w : Stall),
    (ctxOf s c).run = .stalled w ∧ retries s c w = true) ∧
  (∃ (s : State) (c j q : Nat) (w : Stall) (go : Prop),
    let k := coreOf c
    let lost := (coreAt s (if isExecute k then accessOf k else q)).killed = true ∨ (coreAt s q).queuesLost.contains branchPort = true
    ((w, go) ∈ [(Stall.qPop j, (queueLost s k j = true ∨ qInOf s k j ≠ []) ∧ popAhead { s with cur := c } [j] = false),
      (.qPush j, queueLost s k j = true ∨ (qOutOf s k j).length < 16),
      (.branchPop q, lost ∨ boqOf s q (!(isExecute k)) ≠ []), (.branchPush q, lost ∨ (boqOf s q (isExecute k)).length < 32)]) ∧ (ctxOf s c).run = .stalled w ∧ go) ∧
  (∃ (s : State) (c j q : Nat) (w : Stall) (go : Prop),
    let k := coreOf c
    let lost := (coreAt s (if isExecute k then accessOf k else q)).killed = true ∨ (coreAt s q).queuesLost.contains branchPort = true
    ((w, go) ∈ [(Stall.qPop j, (queueLost s k j = true ∨ qInOf s k j ≠ []) ∧ popAhead { s with cur := c } [j] = false),
      (.qPush j, queueLost s k j = true ∨ (qOutOf s k j).length < 16),
      (.branchPop q, lost ∨ boqOf s q (!(isExecute k)) ≠ []), (.branchPush q, lost ∨ (boqOf s q (isExecute k)).length < 32)]) ∧ (ctxOf s c).run = .stalled w ∧ ¬go) ∧
  (∃ (s : State) (c j : Nat),
    let k := coreOf c
    let first := ((List.range 8).map (fun i => 8 * k + ((coreAt s k).turn + 1 + i) % 8)).find? (fun d => (ctxOf s d).run = .stalled (.nRead j))
    (ctxOf s c).run = .stalled (.nRead j) ∧ j < 4 ∧ (coreAt s k).npres.getLsbD j = true ∧ first = some c) ∧
  (∃ (s : State) (c j : Nat),
    let k := coreOf c
    let first := ((List.range 8).map (fun i => 8 * k + ((coreAt s k).turn + 1 + i) % 8)).find? (fun d => (ctxOf s d).run = .stalled (.nRead j))
    (ctxOf s c).run = .stalled (.nRead j) ∧ j < 4 ∧ ((coreAt s k).npres.getLsbD j = false ∨ first ≠ some c) ∧ (coreAt s (feederOf k j)).killed = false) ∧
  (∃ (s : State) (c k since : Nat) (o : OpE) (x : Word),
    let j := o.imm.toNat % 4
    (ctxOf s c).run = .stalled (.nWrite k o x since) ∧ (coreAt s k).killed = false ∧ (coreAt s k).npres.getLsbD j = false ∧ (∀ e ∈ putsWaiting s (coreOf c) k j, since ≤ e.1)) ∧
  (∃ (s : State) (c k since : Nat) (o : OpE) (x : Word),
    let j := o.imm.toNat % 4
    (ctxOf s c).run = .stalled (.nWrite k o x since) ∧ (coreAt s k).killed = false ∧ ((coreAt s k).npres.getLsbD j = true ∨ (∃ e ∈ putsWaiting s (coreOf c) k j, e.1 < since))) ∧
  (∃ (s : State) (c : Nat),
    (ctxOf s c).lockstep = true ∧ (ctxOf s c).run = .stalled .lockstep ∧ (ctxOf s c).heldUntil ≤ s.cycle) ∧
  (∃ (s : State) (c : Nat),
    let d := dieOf (vertexOf (coreOf c))
    (ctxOf s c).lockstep = true ∧ (ctxOf s c).run = .stalled .lockstep ∧ (ctxOf s c).heldUntil ≤ s.cycle) ∧
  (∃ (s : State) (k due : Nat) (x : Option Vec) (l : List (Nat × Option Vec)),
    (coreAt s k).portIn = (due, x) :: l ∧ due ≤ s.cycle) ∧
  (∃ (s : State) (c e : Nat) (w : Stall),
    (ctxOf s c).budgetEnd = some e ∧ e ≤ s.cycle ∧ (ctxOf s c).hmode = true ∧ (ctxOf s c).run = .stalled w ∧ w ≠ .transfer ∧ budgetWaits s c = false) ∧
  (∃ (s : State) (c e : Nat),
    (ctxOf s c).budgetEnd = some e ∧ e ≤ s.cycle ∧ (ctxOf s c).hmode = true ∧ (ctxOf s c).run = .groupEnd ∧ returning s c = false ∧ (ctxOf s c).readyAt ≤ s.cycle) ∧
  (∃ (s : State) (c e : Nat),
    (ctxOf s c).budgetEnd = some e ∧ e ≤ s.cycle ∧ (ctxOf s c).hmode = true ∧ (ctxOf s c).run = .groupEnd ∧ (returning s c = true ∨ s.cycle < (ctxOf s c).readyAt)) ∧
  (∃ (s : State) (c e : Nat),
    (ctxOf s c).budgetEnd = some e ∧ s.cycle < e) ∧
  (∃ (s : State) (c e g : Nat) (y : Gang),
    (ctxOf s c).budgetEnd = some e ∧ e ≤ s.cycle ∧ (ctxOf s c).hmode = false ∧ (ctxOf s c).gang = some g ∧ sget none s.gangs g = some y ∧ (ctxOf s c).run = .ready) ∧
  (∃ (s : State) (c w : Nat),
    let d := dieOf (vertexOf (coreOf c));
    (ctxOf s c).watchdog = some w ∧ w ≤ s.cycle ∧ (ctxOf s c).run = .groupEnd) ∧
  (∃ (s : State) (c w : Nat),
    let d := dieOf (vertexOf (coreOf c));
    (ctxOf s c).watchdog = some w ∧ w ≤ s.cycle ∧ (ctxOf s c).run = .ready ∧ (ctxOf s c).group.len ≠ 0) ∧
  (∃ (s : State) (c since dest : Nat),
    (ctxOf s c).run = .stalled (.chordOpen since dest) ∧ since + 2 ^ 20 ≤ s.cycle ∧ unfinished s c = false) ∧
  (∃ (s : State) (c since dest : Nat),
    (ctxOf s c).run = .stalled (.chordOpen since dest) ∧ s.cycle < since + 2 ^ 20) :=
  ⟨⟨at_ (fun x => { x with run := .groupEnd }) (id), 0, by decide +kernel⟩,
   ⟨at_ (fun x => { x with run := .groupEnd, stopWhy := some true }) (id), 0, by decide +kernel⟩,
   ⟨at_ (fun x => { x with run := .groupEnd, readyAt := 9 }) (id), 0, by decide +kernel⟩,
   ⟨at_ (fun x => { x with run := .stalled .flights }) (id), 0, .flights, by decide +kernel⟩,
   ⟨at_ (fun x => { x with run := .stalled (.qPop 1) }) (fun k => { k with qIn := [(1, [5])] }), 0, 1, 0, .qPop 1, ((queueLost (at_ (fun x => { x with run := .stalled (.qPop 1) }) (fun k => { k with qIn := [(1, [5])] })) (coreOf 0) 1 = true ∨ qInOf (at_ (fun x => { x with run := .stalled (.qPop 1) }) (fun k => { k with qIn := [(1, [5])] })) (coreOf 0) 1 ≠ []) ∧ popAhead { (at_ (fun x => { x with run := .stalled (.qPop 1) }) (fun k => { k with qIn := [(1, [5])] })) with cur := 0 } [1] = false), List.Mem.head _, by decide +kernel, by decide +kernel⟩,
   ⟨at_ (fun x => { x with run := .stalled (.qPop 1) }) (id), 0, 1, 0, .qPop 1, ((queueLost (at_ (fun x => { x with run := .stalled (.qPop 1) }) (id)) (coreOf 0) 1 = true ∨ qInOf (at_ (fun x => { x with run := .stalled (.qPop 1) }) (id)) (coreOf 0) 1 ≠ []) ∧ popAhead { (at_ (fun x => { x with run := .stalled (.qPop 1) }) (id)) with cur := 0 } [1] = false), List.Mem.head _, by decide +kernel, by decide +kernel⟩,
   ⟨at_ (fun x => { x with run := .stalled (.nRead 2) }) (fun k => { k with npres := 4 }), 0, 2, by decide +kernel⟩,
   ⟨at_ (fun x => { x with run := .stalled (.nRead 2) }) (id), 0, 2, by decide +kernel⟩,
   ⟨at_ (fun x => { x with run := .stalled (.nWrite 1 { s := 0, d := 0, a := 4, b := 0, c := 0, imm := 1 } 7 0) }) (id), 0, 1, 0, { s := 0, d := 0, a := 4, b := 0, c := 0, imm := 1 }, 7, by decide +kernel⟩,
   ⟨modCore (at_ (fun x => { x with run := .stalled (.nWrite 1 { s := 0, d := 0, a := 4, b := 0, c := 0, imm := 1 } 7 0) }) (id)) 1 (fun k => { k with npres := 2 }), 0, 1, 0, { s := 0, d := 0, a := 4, b := 0, c := 0, imm := 1 }, 7, by decide +kernel⟩,
   ⟨at_ (fun x => { x with run := .stalled .lockstep, lockstep := true }) (id), 0, by decide +kernel⟩,
   ⟨at_ (fun x => { x with run := .stalled .lockstep, lockstep := true }) (id), 0, by decide +kernel⟩,
   ⟨at_ (id) (fun k => { k with portIn := [(0, some 5), (9, none)] }), 0, 0, some 5, [(9, none)], by decide +kernel⟩,
   ⟨{ hand (fun x => { x with run := .stalled .divider, budgetEnd := some 32 }) (id) with cycle := 64 }, 0, 32, .divider, by decide +kernel⟩,
   ⟨{ hand (fun x => { x with run := .groupEnd, budgetEnd := some 32 }) (id) with cycle := 64 }, 0, 32, by decide +kernel⟩,
   ⟨{ hand (fun x => { x with run := .groupEnd, budgetEnd := some 32, readyAt := 100 }) (id) with cycle := 64 }, 0, 32, by decide +kernel⟩,
   ⟨at_ (fun x => { x with run := .ready, budgetEnd := some 32 }) (id), 0, 32, by decide +kernel⟩,
   ⟨{ ganged (at_ (fun x => { x with run := .ready, budgetEnd := some 32 }) (id)) with cycle := 64 }, 0, 32, 1, gang0, by decide +kernel⟩,
   ⟨{ at_ (fun x => { x with run := .groupEnd, watchdog := some 32 }) (id) with cycle := 64 }, 0, 32, by decide +kernel⟩,
   ⟨{ at_ (fun x => { x with run := .ready, watchdog := some 32, group := { x.group with len := 2 } }) (id) with cycle := 64 }, 0, 32, by decide +kernel⟩,
   ⟨{ at_ (fun x => { x with run := .stalled (.chordOpen 4 16) }) (id) with cycle := 1048580 }, 0, 4, 16, by decide +kernel⟩,
   ⟨at_ (fun x => { x with run := .stalled (.chordOpen 4 16) }) (id), 0, 4, 16, by decide +kernel⟩⟩

theorem test_witness_EnginesMove :
  (∃ (s u : State) (v n pd : Nat) (y : Transfer) (dst src : Word) (q : Bool) (x : BitVec 256),
    EngineTurn s v y ∧ y.op = .bulk dst src n q ∧ engineRead s v y.id (src + BitVec.ofNat 64 (32 * y.step)) = .ok (x, u) ∧ EngineWrites u v y.id (dst + BitVec.ofNat 64 (32 * y.step)) pd) ∧
  (∃ (s w u : State) (v id va pa : Nat) (ea leaf : Word),
    enginePlace s v ea false = .ok (.phys va pa leaf, w) ∧ reachL2 w (.engine v id) (leafSlice leaf pa) pa 32 (leafClass leaf) false = (true, u) ∧ isPoisoned u pa = false) ∧
  (∃ (s u : State) (v n : Nat) (y : Transfer) (src : Word) (dst : Place) (x : BitVec 256),
    EngineTurn s v y ∧ y.op = .tload src dst n ∧ engineRead s v y.id (src + BitVec.ofNat 64 (32 * y.step)) = .ok (x, u) ∧ vertOf y.ctx = v ∧ (ctxOf u y.ctx).lockstep = false) ∧
  (∃ (s u : State) (v i : Nat) (y : Transfer) (dst base idx : Word) (port : Option (Nat × Nat)) (x : BitVec 256),
    EngineTurn s v y ∧ y.op = .gather dst base idx port ∧ y.step = i ∧ i < 2 ∧ engineRead s v y.id (idx + BitVec.ofNat 64 (32 * i)) = .ok (x, u)) ∧
  (∃ (s u : State) (v i : Nat) (y : Transfer) (dst base idx : Word) (port : Option (Nat × Nat)) (x : BitVec 256),
    let lines := distinct ((laneList base y.idx).map lineBase);
    EngineTurn s v y ∧ y.op = .gather dst base idx port ∧ y.step = i + 2 ∧ i < lines.length ∧ engineRead s v y.id (lines.getD i 0) = .ok (x, u)) ∧
  (∃ (s u : State) (v i : Nat) (y : Transfer) (dst base idx : Word) (port : Option (Nat × Nat)) (x : BitVec 256) (pd : Nat),
    EngineTurn s v y ∧ y.op = .gather dst base idx port ∧ port = none ∧ y.step = (distinct ((laneList base y.idx).map lineBase)).length + 2 + i ∧ i < 2 ∧ y.idx.length = 16 ∧ EngineWrites s v y.id (dst + BitVec.ofNat 64 (32 * i)) pd) ∧
  (∃ (s : State) (v pd : Nat) (y : Transfer) (base data idx line : Word),
    let a := fun m => base + BitVec.ofInt 64 (4 * (BitVec.ofNat 32 (y.idx.getD m 0)).toInt)
    EngineTurn s v y ∧ y.op = .scatter base data idx ∧ base.toNat % 4 = 0 ∧ 4 ≤ y.step ∧ y.idx.length = 16 ∧ y.got.length = 2 ∧ line = (distinct ((laneList base y.idx).map lineBase)).getD (y.step - 4) 0 ∧ EngineWrites s v y.id line pd) ∧
  (∃ (s u : State) (v rows rowLines i : Nat) (y : Transfer) (base idx : Word) (dst : Place) (x : BitVec 256),
    let list := (y.idx.drop (idx.toNat % 32 / 4)).take rows
    let row := (distinct list).getD (i / rowLines) 0
    EngineTurn s v y ∧ y.op = .rgather base idx rows rowLines dst ∧ y.step = (idx.toNat % 32 / 4 + rows + 7) / 8 + i ∧ 0 < rowLines ∧ engineRead s v y.id (base + BitVec.ofNat 64 (row * (32 * rowLines)) + BitVec.ofNat 64 (32 * (i % rowLines))) = .ok (x, u) ∧ vertOf y.ctx = v ∧ (ctxOf u y.ctx).lockstep = false) ∧
  (∃ (s : State) (v core port : Nat) (y : Transfer) (ea : Word),
    EngineTurn s v y ∧ y.op = .qpush ea core port false ∧ y.step = 2 ∧ (coreAt s core).killed = false ∧ (coreAt s core).queuesLost.contains port = false ∧ (qInOf s core port).length < 16) ∧
  (∃ (s : State) (v core port : Nat) (y : Transfer) (ea : Word),
    EngineTurn s v y ∧ y.op = .qpush ea core port false ∧ y.step = 2 ∧ (coreAt s core).killed = false ∧ (coreAt s core).queuesLost.contains port = false ∧ (qInOf s core port).length = 16) ∧
  (∃ (s : State) (v core port : Nat) (y : Transfer) (ea : Word) (x : Vec) (l : List Vec),
    EngineTurn s v y ∧ y.op = .qpush ea core port true ∧ y.step = 0 ∧ qOutOf s core port = x :: l) ∧
  (∃ (s : State) (v core port : Nat) (y : Transfer) (ea : Word) (i pd : Nat),
    EngineTurn s v y ∧ y.op = .qpush ea core port true ∧ y.step = i + 1 ∧ i < 2 ∧ EngineWrites s v y.id (ea + BitVec.ofNat 64 (32 * i)) pd) ∧
  (∃ (s : State) (v : Nat),
    (clusterAt s v).engine.1 = s.cycle ∧ 8 ≤ (clusterAt s v).engine.2) ∧
  (∃ (s u : State) (v n pa : Nat) (y : Transfer) (leaf : Word) (l : List Transfer) (r : List Nat),
    (clusterAt s v).transfers = y :: l ∧ y.owed = n :: r ∧ y.due ≤ s.cycle ∧ y.barrier.toNat / 2 ^ 53 = s.device ∧ engineTranslate s v (y.barrier.toNat % 2 ^ 53) .wr = (.page pa leaf 0, u) ∧ (reachL2 u (.engine v y.id) (leafSlice leaf pa) pa 16 (leafClass leaf) true).1 = true ∧ cxlGone s pa = false ∧ anyPoison s pa 16 = false ∧ ((∀ i, i < 16 → barsWrite s (leafClass leaf) (pa + i) = false))) ∧
  (∃ (s : State) (v : Nat) (j : LatJob),
    (clusterAt s v).pending = some j ∧ (clusterAt s v).running = none ∧ j.start.getD 0 ≤ s.cycle ∧ ((∀ i, i < 8 → segsReady s v i (jobRow j.wordA) (jobV j.wordA) = true)) ∧ (clusterAt s v).waiting = []) ∧
  (∃ (s : State) (v : Nat) (j : LatJob) (bad : Bool),
    (clusterAt s v).running = some j ∧ j.start.getD 0 + 18 + jobSpan s v j ≤ s.cycle) ∧
  (∃ (s : State) (v i r : Nat) (j : LatJob),
    (clusterAt s v).running = some j ∧ j.start.getD 0 + 18 + jobSpan s v j ≤ s.cycle ∧ i < 8 ∧ r < jobV j.wordA ∧ j.poison = false ∧ ((j.wordA.getLsbD 59 = true → (segOf s v i (jobRow j.wordA + r)).poison = false))) ∧
  (∃ (acc : Nat) (l : List LatVal),
    (LatVal.nan ∈ l ∨ (LatVal.inf false ∈ l ∧ LatVal.inf true ∈ l))) ∧
  (∃ (acc : Nat) (l : List LatVal) (b : Bool),
    LatVal.nan ∉ l ∧ LatVal.inf b ∈ l ∧ LatVal.inf (!b) ∉ l) ∧
  (∃ (acc : Nat) (l : List LatVal),
    (∀ p ∈ l, ∃ e, p = .fin 0 e)) ∧
  (∃ (acc : Nat) (l : List LatVal) (q : Int),
    ((∀ p ∈ l, ∃ m e, p = .fin m e ∧ (m ≠ 0 → e + bitLen m.natAbs - 61 ≤ q))) ∧ ((∃ m e, .fin m e ∈ l ∧ m ≠ 0 ∧ e + bitLen m.natAbs - 61 = q))) :=
  ⟨⟨turn (tr0 (.bulk 0x10000 0x20000 2 false) 0 ([]) ([])) [(0x20000, 0x80), (0x20005, 9), (0x20021, 7), (0x20040, 3), (0x20061, 5)], readS (engineRead (turn (tr0 (.bulk 0x10000 0x20000 2 false) 0 ([]) ([])) [(0x20000, 0x80), (0x20005, 9), (0x20021, 7), (0x20040, 3), (0x20061, 5)]) 0 (tr0 (.bulk 0x10000 0x20000 2 false) 0 ([]) ([])).id (0x20000 + BitVec.ofNat 64 (32 * (tr0 (.bulk 0x10000 0x20000 2 false) 0 ([]) ([])).step))), 0, 2, 0x10000, tr0 (.bulk 0x10000 0x20000 2 false) 0 ([]) ([]), 0x10000, 0x20000, false, readX (engineRead (turn (tr0 (.bulk 0x10000 0x20000 2 false) 0 ([]) ([])) [(0x20000, 0x80), (0x20005, 9), (0x20021, 7), (0x20040, 3), (0x20061, 5)]) 0 (tr0 (.bulk 0x10000 0x20000 2 false) 0 ([]) ([])).id (0x20000 + BitVec.ofNat 64 (32 * (tr0 (.bulk 0x10000 0x20000 2 false) 0 ([]) ([])).step))), by decide +kernel, by decide +kernel, eq_read _ (by decide +kernel), writes_at _ _ _ _ _ (by decide +kernel)⟩,
   ⟨turn (tr0 (.bulk 0x10000 0x20000 2 false) 0 ([]) ([])) [(0x20000, 0x80), (0x20005, 9), (0x20021, 7), (0x20040, 3), (0x20061, 5)], moved (enginePlace (turn (tr0 (.bulk 0x10000 0x20000 2 false) 0 ([]) ([])) [(0x20000, 0x80), (0x20005, 9), (0x20021, 7), (0x20040, 3), (0x20061, 5)]) 0 0x20000 false), (reachL2 (moved (enginePlace (turn (tr0 (.bulk 0x10000 0x20000 2 false) 0 ([]) ([])) [(0x20000, 0x80), (0x20005, 9), (0x20021, 7), (0x20040, 3), (0x20061, 5)]) 0 0x20000 false)) (.engine 0 3) (leafSlice leafT 0x20000) 0x20000 32 (leafClass leafT) false).2, 0, 3, 0x20000, 0x20000, 0x20000, leafT, eq_moved _ _ _ _ (by decide +kernel), eq_pair _ _ (by decide +kernel), by decide +kernel⟩,
   ⟨turn (tr0 (.tload 0x20000 (.tile 2 1 4) 2) 0 ([]) ([])) [(0x20000, 0x80), (0x20005, 9), (0x20021, 7), (0x20040, 3), (0x20061, 5)], readS (engineRead (turn (tr0 (.tload 0x20000 (.tile 2 1 4) 2) 0 ([]) ([])) [(0x20000, 0x80), (0x20005, 9), (0x20021, 7), (0x20040, 3), (0x20061, 5)]) 0 (tr0 (.tload 0x20000 (.tile 2 1 4) 2) 0 ([]) ([])).id (0x20000 + BitVec.ofNat 64 (32 * (tr0 (.tload 0x20000 (.tile 2 1 4) 2) 0 ([]) ([])).step))), 0, 2, tr0 (.tload 0x20000 (.tile 2 1 4) 2) 0 ([]) ([]), 0x20000, .tile 2 1 4, readX (engineRead (turn (tr0 (.tload 0x20000 (.tile 2 1 4) 2) 0 ([]) ([])) [(0x20000, 0x80), (0x20005, 9), (0x20021, 7), (0x20040, 3), (0x20061, 5)]) 0 (tr0 (.tload 0x20000 (.tile 2 1 4) 2) 0 ([]) ([])).id (0x20000 + BitVec.ofNat 64 (32 * (tr0 (.tload 0x20000 (.tile 2 1 4) 2) 0 ([]) ([])).step))), by decide +kernel, by decide +kernel, eq_read _ (by decide +kernel), by decide +kernel, by decide +kernel⟩,
   ⟨turn (tr0 (.gather 0x10000 0x20000 0x20040 none) 0 ([]) ([])) [(0x20000, 0x80), (0x20005, 9), (0x20021, 7), (0x20040, 3), (0x20061, 5)], readS (engineRead (turn (tr0 (.gather 0x10000 0x20000 0x20040 none) 0 ([]) ([])) [(0x20000, 0x80), (0x20005, 9), (0x20021, 7), (0x20040, 3), (0x20061, 5)]) 0 (tr0 (.gather 0x10000 0x20000 0x20040 none) 0 ([]) ([])).id (0x20040 + BitVec.ofNat 64 (32 * 0))), 0, 0, tr0 (.gather 0x10000 0x20000 0x20040 none) 0 ([]) ([]), 0x10000, 0x20000, 0x20040, none, readX (engineRead (turn (tr0 (.gather 0x10000 0x20000 0x20040 none) 0 ([]) ([])) [(0x20000, 0x80), (0x20005, 9), (0x20021, 7), (0x20040, 3), (0x20061, 5)]) 0 (tr0 (.gather 0x10000 0x20000 0x20040 none) 0 ([]) ([])).id (0x20040 + BitVec.ofNat 64 (32 * 0))), by decide +kernel, by decide +kernel, by decide +kernel, by decide +kernel, eq_read _ (by decide +kernel)⟩,
   ⟨turn (tr0 (.gather 0x10000 0x20000 0x20040 none) 2 (List.range 16) ([])) [(0x20000, 0x80), (0x20005, 9), (0x20021, 7), (0x20040, 3), (0x20061, 5)], readS (engineRead (turn (tr0 (.gather 0x10000 0x20000 0x20040 none) 2 (List.range 16) ([])) [(0x20000, 0x80), (0x20005, 9), (0x20021, 7), (0x20040, 3), (0x20061, 5)]) 0 (tr0 (.gather 0x10000 0x20000 0x20040 none) 2 (List.range 16) ([])).id ((distinct ((laneList 0x20000 (tr0 (.gather 0x10000 0x20000 0x20040 none) 2 (List.range 16) ([])).idx).map lineBase)).getD 0 0)), 0, 0, tr0 (.gather 0x10000 0x20000 0x20040 none) 2 (List.range 16) ([]), 0x10000, 0x20000, 0x20040, none, readX (engineRead (turn (tr0 (.gather 0x10000 0x20000 0x20040 none) 2 (List.range 16) ([])) [(0x20000, 0x80), (0x20005, 9), (0x20021, 7), (0x20040, 3), (0x20061, 5)]) 0 (tr0 (.gather 0x10000 0x20000 0x20040 none) 2 (List.range 16) ([])).id ((distinct ((laneList 0x20000 (tr0 (.gather 0x10000 0x20000 0x20040 none) 2 (List.range 16) ([])).idx).map lineBase)).getD 0 0)), by decide +kernel, by decide +kernel, by decide +kernel, by decide +kernel, eq_read _ (by decide +kernel)⟩,
   ⟨turn (tr0 (.gather 0x10000 0x20000 0x20040 none) 4 (List.range 16) ([(0x20000, 0x0807060504030201), (0x20020, 0x99000000AA000000BB000000CC)])) [(0x20000, 0x80), (0x20005, 9), (0x20021, 7), (0x20040, 3), (0x20061, 5)], turn (tr0 (.gather 0x10000 0x20000 0x20040 none) 4 (List.range 16) ([(0x20000, 0x0807060504030201), (0x20020, 0x99000000AA000000BB000000CC)])) [(0x20000, 0x80), (0x20005, 9), (0x20021, 7), (0x20040, 3), (0x20061, 5)], 0, 0, tr0 (.gather 0x10000 0x20000 0x20040 none) 4 (List.range 16) ([(0x20000, 0x0807060504030201), (0x20020, 0x99000000AA000000BB000000CC)]), 0x10000, 0x20000, 0x20040, none, 0, 0x10000, by decide +kernel, by decide +kernel, by decide +kernel, by decide +kernel, by decide +kernel, by decide +kernel, writes_at _ _ _ _ _ (by decide +kernel)⟩,
   ⟨turn (tr0 (.scatter 0x10000 0x20000 0x20040) 4 (List.range 16) ([(0x20000, 0x0807060504030201), (0x20020, 0x99000000AA000000BB000000CC)])) [(0x20000, 0x80), (0x10001, 0x44), (0x1003F, 0x45)], 0, 0x10000, tr0 (.scatter 0x10000 0x20000 0x20040) 4 (List.range 16) ([(0x20000, 0x0807060504030201), (0x20020, 0x99000000AA000000BB000000CC)]), 0x10000, 0x20000, 0x20040, 0x10000, by decide +kernel, by decide +kernel, by decide +kernel, by decide +kernel, by decide +kernel, by decide +kernel, by decide +kernel, writes_at _ _ _ _ _ (by decide +kernel)⟩,
   ⟨turn (tr0 (.rgather 0x20000 0x20000 3 1 (.tile 2 1 4)) 1 ([1, 0, 1, 0, 0, 0, 0, 0]) ([])) [(0x20000, 0x80), (0x20005, 9), (0x20021, 7), (0x20040, 3), (0x20061, 5)], readS (engineRead (turn (tr0 (.rgather 0x20000 0x20000 3 1 (.tile 2 1 4)) 1 ([1, 0, 1, 0, 0, 0, 0, 0]) ([])) [(0x20000, 0x80), (0x20005, 9), (0x20021, 7), (0x20040, 3), (0x20061, 5)]) 0 (tr0 (.rgather 0x20000 0x20000 3 1 (.tile 2 1 4)) 1 ([1, 0, 1, 0, 0, 0, 0, 0]) ([])).id (0x20000 + BitVec.ofNat 64 (((distinct (((tr0 (.rgather 0x20000 0x20000 3 1 (.tile 2 1 4)) 1 ([1, 0, 1, 0, 0, 0, 0, 0]) ([])).idx.drop ((0x20000 : Word).toNat % 32 / 4)).take 3)).getD (0 / 1) 0) * (32 * 1)) + BitVec.ofNat 64 (32 * (0 % 1)))), 0, 3, 1, 0, tr0 (.rgather 0x20000 0x20000 3 1 (.tile 2 1 4)) 1 ([1, 0, 1, 0, 0, 0, 0, 0]) ([]), 0x20000, 0x20000, .tile 2 1 4, readX (engineRead (turn (tr0 (.rgather 0x20000 0x20000 3 1 (.tile 2 1 4)) 1 ([1, 0, 1, 0, 0, 0, 0, 0]) ([])) [(0x20000, 0x80), (0x20005, 9), (0x20021, 7), (0x20040, 3), (0x20061, 5)]) 0 (tr0 (.rgather 0x20000 0x20000 3 1 (.tile 2 1 4)) 1 ([1, 0, 1, 0, 0, 0, 0, 0]) ([])).id (0x20000 + BitVec.ofNat 64 (((distinct (((tr0 (.rgather 0x20000 0x20000 3 1 (.tile 2 1 4)) 1 ([1, 0, 1, 0, 0, 0, 0, 0]) ([])).idx.drop ((0x20000 : Word).toNat % 32 / 4)).take 3)).getD (0 / 1) 0) * (32 * 1)) + BitVec.ofNat 64 (32 * (0 % 1)))), by decide +kernel, by decide +kernel, by decide +kernel, by decide +kernel, eq_read _ (by decide +kernel), by decide +kernel, by decide +kernel⟩,
   ⟨turn (tr0 (.qpush 0x20000 2 1 false) 2 ([]) ([(0x20000, 0x0807060504030201), (0x20020, 0x99000000AA000000BB000000CC)])) [(0x20000, 0x80), (0x20005, 9), (0x20021, 7), (0x20040, 3), (0x20061, 5)], 0, 2, 1, tr0 (.qpush 0x20000 2 1 false) 2 ([]) ([(0x20000, 0x0807060504030201), (0x20020, 0x99000000AA000000BB000000CC)]), 0x20000, by decide +kernel⟩,
   ⟨setQIn (turn (tr0 (.qpush 0x20000 2 1 false) 2 ([]) ([(0x20000, 0x0807060504030201), (0x20020, 0x99000000AA000000BB000000CC)])) [(0x20000, 0x80), (0x20005, 9), (0x20021, 7), (0x20040, 3), (0x20061, 5)]) 2 1 (List.replicate 16 5), 0, 2, 1, tr0 (.qpush 0x20000 2 1 false) 2 ([]) ([(0x20000, 0x0807060504030201), (0x20020, 0x99000000AA000000BB000000CC)]), 0x20000, by decide +kernel⟩,
   ⟨modCore (turn (tr0 (.qpush 0x20000 2 1 true) 0 ([]) ([])) [(0x20000, 0x80), (0x20005, 9), (0x20021, 7), (0x20040, 3), (0x20061, 5)]) 2 (fun k => { k with qOut := [(1, [0x123456789, 4])] }), 0, 2, 1, tr0 (.qpush 0x20000 2 1 true) 0 ([]) ([]), 0x20000, 0x123456789, [4], by decide +kernel⟩,
   ⟨turn (tr0 (.qpush 0x20000 2 1 true) 1 ([]) ([(0x20000, 0x0807060504030201), (0x20020, 0x99000000AA000000BB000000CC)])) [(0x20000, 0x80), (0x20005, 9), (0x20021, 7), (0x20040, 3), (0x20061, 5)], 0, 2, 1, tr0 (.qpush 0x20000 2 1 true) 1 ([]) ([(0x20000, 0x0807060504030201), (0x20020, 0x99000000AA000000BB000000CC)]), 0x20000, 0, 0x20000, by decide +kernel, by decide +kernel, by decide +kernel, by decide +kernel, writes_at _ _ _ _ _ (by decide +kernel)⟩,
   ⟨{ modCluster base 0 (fun k => { k with engine := (0, 8) }) with cycle := 0 }, 0, by decide +kernel⟩,
   ⟨turn ({ tr0 (.tload 0x20000 (.tile 2 1 4) 2) 0 ([]) ([]) with barrier := 0x20000, owed := [32, 64] }) [(0x20000, 33), (0x20008, 2)], (engineTranslate (turn ({ tr0 (.tload 0x20000 (.tile 2 1 4) 2) 0 ([]) ([]) with barrier := 0x20000, owed := [32, 64] }) [(0x20000, 33), (0x20008, 2)]) 0 0x20000 .wr).2, 0, 32, 0x20000, { tr0 (.tload 0x20000 (.tile 2 1 4) 2) 0 ([]) ([]) with barrier := 0x20000, owed := [32, 64] }, leafT, [], [64], by decide +kernel, by decide +kernel, by decide +kernel, by decide +kernel, eq_pair _ _ (by decide +kernel), by decide +kernel, by decide +kernel, by decide +kernel, by decide +kernel⟩,
   ⟨{ modCluster base 0 (fun k => { k with pending := some lat0 }) with cycle := 9 }, 0, lat0, by decide +kernel, by decide +kernel, by decide +kernel, by decide +kernel, by decide +kernel⟩,
   ⟨{ modCluster base 0 (fun k => { k with running := some lat0 }) with cycle := 900 }, 0, lat0, true, by decide +kernel⟩,
   ⟨{ modCluster base 0 (fun k => { k with running := some { jid := 7, wordA := 0x20001, wordB := 0, wordC := 0, mask := 0, maps := [], tables := [], members := [], accts := [], start := none, poison := false } }) with cycle := 900 }, 0, 0, 0, { jid := 7, wordA := 0x20001, wordB := 0, wordC := 0, mask := 0, maps := [], tables := [], members := [], accts := [], start := none, poison := false }, by decide +kernel, by decide +kernel, by decide +kernel, by decide +kernel, by decide +kernel, by decide +kernel⟩,
   ⟨5, [LatVal.fin 3 4, LatVal.nan], .inl (by simp)⟩,
   ⟨5, [LatVal.fin 3 4, LatVal.inf true], true, by simp, by simp, by simp⟩,
   ⟨5, [LatVal.fin 0 4], fun p h => ⟨4, by simpa using h⟩⟩,
   ⟨5, [LatVal.fin 4 0], -58, fun p h => ⟨4, 0, by simpa using h, fun _ => by decide⟩, ⟨4, 0, by simp, by decide, by decide⟩⟩⟩

theorem test_witness_MessageDelivery :
  (∃ (s : State) (id i : Nat) (f : MsgFlight),
    let k := coreOf (agentLocal f.msg.dest)
    msgOf s id = some f ∧ f.phase = .flying ∧ f.msg.placed = none ∧ agentDevice f.msg.dest = s.device ∧ f.msg.cls ≠ 27 ∧ f.due ≤ s.cycle ∧ inOrder s f = true ∧ f.msg.group = none ∧ s.host.waitingLaunches = [] ∧ arrivalAt s k f.msg = .inl i) ∧
  (∃ (s : State) (id code : Nat) (f : MsgFlight),
    let k := coreOf (agentLocal f.msg.dest)
    msgOf s id = some f ∧ f.phase = .flying ∧ f.msg.placed = none ∧ agentDevice f.msg.dest = s.device ∧ f.msg.cls ≠ 27 ∧ f.due ≤ s.cycle ∧ inOrder s f = true ∧ arrivalAt s k f.msg = .inr code) ∧
  (∃ (s : State) (k : Nat) (m : Msg),
    ((coreAt s k).sealed_ = true ∨ (coreAt s k).killed = true ∨ takesWork s k = false)) ∧
  (∃ (s : State) (k : Nat) (m : Msg),
    takesWork s k = true ∧ firmwareServes k m.cls = false ∧ serving s k m.cls = none) ∧
  (∃ (s : State) (k : Nat) (m : Msg),
    takesWork s k = true ∧ serving s k m.cls ≠ none ∧ m.checked = true ∧ m.lease ≠ (ctxOf s (agentLocal m.dest)).lease) ∧
  (∃ (s : State) (k : Nat) (m : Msg),
    takesWork s k = true ∧ serving s k m.cls ≠ none ∧ m.checked = true ∧ m.lease = (ctxOf s (agentLocal m.dest)).lease ∧ ((ctxOf s (agentLocal m.dest)).run = .trapped ∨ (ctxOf s (agentLocal m.dest)).run = .savedOut)) ∧
  (∃ (s : State) (k : Nat) (m : Msg),
    takesWork s k = true ∧ serving s k m.cls ≠ none ∧ m.checked = false ∧ freeOrdinary s k = none) ∧
  (∃ (s : State) (id code : Nat) (f : MsgFlight),
    msgOf s id = some f ∧ f.phase = .returning code ∧ f.due ≤ s.cycle ∧ f.home ≠ .remote) ∧
  (∃ (s : State) (id due : Nat) (f : MsgFlight),
    msgOf s id = some f ∧ f.phase = .backoff due ∧ due ≤ s.cycle ∧ f.home ≠ .host) ∧
  (∃ (s : State) (id code k i : Nat) (f : MsgFlight),
    msgOf s id = some f ∧ f.phase = .notice code ∧ f.due ≤ s.cycle ∧ f.msg.fromHost = false ∧ agentDevice f.msg.sender = s.device ∧ noticeCore s f.msg.sender (if code = cDeadPeer then 28 else 29) = some k ∧ freeNotice s k = some i) :=
  ⟨⟨post (mf .flying msg0) (serves 3), 7, 0, mf .flying msg0, by decide +kernel⟩,
   ⟨post (mf .flying msg0) (id), 7, cUndeliverable, mf .flying msg0, by decide +kernel⟩,
   ⟨post (mf .flying msg0) (fun k => { k with sealed_ := true }), 0, msg0, by decide +kernel⟩,
   ⟨post (mf .flying msg0) (id), 0, msg0, by decide +kernel⟩,
   ⟨post (mf .flying msg0) (serves 3), 0, { msg0 with checked := true, lease := 4 }, by decide +kernel⟩,
   ⟨modCtx (post (mf .flying msg0) (serves 3)) 0 (fun x => { x with run := .trapped }), 0, { msg0 with checked := true }, by decide +kernel⟩,
   ⟨post (mf .flying msg0) (fun k => full (serves 3 k)), 0, msg0, by decide +kernel⟩,
   ⟨post (mf (.returning 0) { msg0 with attempts := 3 }) (id), 7, 0, mf (.returning 0) { msg0 with attempts := 3 }, by decide +kernel⟩,
   ⟨post (mf (.backoff 60) msg0) (id), 7, 60, mf (.backoff 60) msg0, by decide +kernel⟩,
   ⟨post (mf (.notice cUndeliverable) msg0) (serves 29), 7, cUndeliverable, 0, 60, mf (.notice cUndeliverable) msg0, by decide +kernel⟩⟩

theorem test_witness_Starts :
  (∃ (s : State) (c j : Nat),
    let k := coreOf c
    let w := routineAt s k
    let turn := fun i => (i + 15 - (coreAt s k).last % 16) % 16
    chooseRoutine s c = some j) ∧
  (∃ (s : State) (c i : Nat),
    i < 16 ∧ hasWork s c i = true) ∧
  (∃ (s : State) (v k : Nat),
    locusCore s v = some k) ∧
  (∃ (s : State) (id : Nat) (f : MsgFlight),
    let c := agentLocal f.msg.dest
    msgOf s id = some f ∧ f.phase = .flying ∧ f.msg.placed = none ∧ f.msg.cls = 27 ∧ agentDevice f.msg.dest = s.device ∧ f.msg.group = none ∧ s.host.waitingLaunches = [] ∧ f.due ≤ s.cycle ∧ inOrder s f = true ∧ f.home ≠ .host ∧ isApex (coreOf (agentLocal f.msg.sender)) = true ∧ apexReserved s c = true ∧ takesWork s (coreOf c) = true ∧ launchOk f.msg.payload = true) ∧
  (∃ (s : State) (id c : Nat) (f : MsgFlight),
    let k := coreOf (agentLocal f.msg.dest)
    msgOf s id = some f ∧ f.phase = .flying ∧ f.msg.placed = none ∧ f.msg.cls = 27 ∧ agentDevice f.msg.dest = s.device ∧ f.msg.group = none ∧ ((f.home = .host ∨ isApex (coreOf (agentLocal f.msg.sender)) = false)) ∧ s.host.waitingLaunches = [] ∧ f.due ≤ s.cycle ∧ inOrder s f = true ∧ launchOk f.msg.payload = true ∧ waitingLaunch s k = none ∧ idleOf s k = some c) ∧
  (∃ (s : State) (id i : Nat) (f : MsgFlight),
    let k := coreOf (agentLocal f.msg.dest)
    msgOf s id = some f ∧ f.phase = .flying ∧ f.msg.placed = none ∧ f.msg.cls = 27 ∧ agentDevice f.msg.dest = s.device ∧ ((f.home = .host ∨ isApex (coreOf (agentLocal f.msg.sender)) = false)) ∧ f.due ≤ s.cycle ∧ inOrder s f = true ∧ takesWork s k = true ∧ launchOk f.msg.payload = true ∧ (idleOf s k = none ∨ waitingLaunch s k ≠ none) ∧ freeOrdinary s k = some i) ∧
  (∃ (s : State) (id i : Nat) (f : MsgFlight),
    let k := coreOf (agentLocal f.msg.dest)
    msgOf s id = some f ∧ f.phase = .flying ∧ f.msg.placed = none ∧ f.msg.cls = 27 ∧ agentDevice f.msg.dest = s.device ∧ ((f.home = .host ∨ isApex (coreOf (agentLocal f.msg.sender)) = false)) ∧ f.due ≤ s.cycle ∧ inOrder s f = true ∧ takesWork s k = true ∧ launchOk f.msg.payload = true ∧ (idleOf s k = none ∨ waitingLaunch s k ≠ none) ∧ freeOrdinary s k = none) ∧
  (∃ (s : State) (k c : Nat) (q : Slot),
    waitingLaunch s k = some q ∧ idleOf s k = some c) ∧
  (∃ (s : State) (k c j : Nat) (q : Slot),
    let w := routineAt s (coreOf c) j
    waitingLaunch s k = none ∧ (coreAt s k).selectedAt ≠ s.cycle + 1 ∧ (idleContexts s k).findSome? (fun c => (chooseRoutine s c).map (fun j => (c, j))) = some (c, j) ∧ routineClass w ≠ 30 ∧ messageFor s c (routineClass w) = some q ∧ q.msg.pair = none) ∧
  (∃ (s : State) (k c j row : Nat) (g : Seg),
    waitingLaunch s k = none ∧ (coreAt s k).selectedAt ≠ s.cycle + 1 ∧ (idleContexts s k).findSome? (fun c => (chooseRoutine s c).map (fun j => (c, j))) = some (c, j) ∧ routineClass (routineAt s (coreOf c) j) = 30 ∧ nextDrain s (coreOf c) = some (row, g)) ∧
  (∃ (s : State) (c : Nat) (m : Msg) (l : List Entry),
    (ctxOf s c).run = .leaving ∧ (ctxOf s c).readyAt ≤ s.cycle ∧ (ctxOf s c).committed = true ∧ (ctxOf s c).sendBuf = .message m :: l ∧ l ≠ [] ∧ tokenOut s c = false ∧ retryFull s (coreOf c) = false) ∧
  (∃ (s : State) (c : Nat) (m : Msg),
    (ctxOf s c).run = .leaving ∧ (ctxOf s c).readyAt ≤ s.cycle ∧ (ctxOf s c).committed = true ∧ (ctxOf s c).sendBuf = [.message m] ∧ tokenOut s c = false ∧ retryFull s (coreOf c) = false ∧ (ctxOf s c).preemptAsked = false) ∧
  (∃ (s : State) (c : Nat) (m : Msg) (l : List Entry),
    (ctxOf s c).run = .leaving ∧ (ctxOf s c).committed = true ∧ (ctxOf s c).sendBuf = .message m :: l ∧ retryFull s (coreOf c) = true) ∧
  (∃ (s : State) (id k c locus radius : Nat) (f : MsgFlight),
    let v := (routeOf f.from_ locus).getD f.hops locus
    msgOf s id = some f ∧ f.phase = .flying ∧ f.msg.pair = none ∧ f.msg.placed = some (locus, radius, s.device) ∧ launchOk f.msg.payload = true ∧ f.due + latency f.from_ v ≤ s.cycle ∧ takerOf s v locus radius false = some k ∧ waitingLaunch s k = none ∧ idleOf s k = some c ∧ f.msg.group = none ∧ s.host.waitingLaunches = []) ∧
  (∃ (s : State) (id k i locus radius : Nat) (p : PairRef) (f : MsgFlight),
    let v := (routeOf f.from_ locus).getD f.hops locus
    msgOf s id = some f ∧ f.phase = .flying ∧ f.msg.pair = some p ∧ f.msg.placed = some (locus, radius, s.device) ∧ f.due + latency f.from_ v ≤ s.cycle ∧ takerOf s v locus radius true = some k ∧ serving s k 31 ≠ none ∧ freeOrdinary s k = some i ∧ f.msg.group = none ∧ s.host.waitingLaunches = []) ∧
  (∃ (s : State) (id k i locus radius : Nat) (p : PairRef) (f : MsgFlight) (m : Nat),
    let v := (routeOf f.from_ locus).getD f.hops locus
    msgOf s id = some f ∧ f.phase = .flying ∧ f.msg.pair = some p ∧ f.msg.placed = some (locus, radius, s.device) ∧ f.due + latency f.from_ v ≤ s.cycle ∧ takerOf s v locus radius true = none ∧ (routeOf f.from_ locus).length ≤ f.hops + 1 ∧ locusCore s locus = some m ∧ serving s m 31 ≠ none ∧ freeOrdinary s m = some i ∧ f.msg.group = none ∧ s.host.waitingLaunches = []) ∧
  (∃ (s : State) (id k i locus radius : Nat) (p : PairRef) (f : MsgFlight),
    let v := (routeOf f.from_ locus).getD f.hops locus
    msgOf s id = some f ∧ f.phase = .flying ∧ f.msg.pair = some p ∧ f.msg.placed = some (locus, radius, s.device) ∧ f.due + latency f.from_ v ≤ s.cycle ∧ takerOf s v locus radius true = none ∧ f.hops + 1 < (routeOf f.from_ locus).length) :=
  ⟨⟨modCtx (post (mf .flying msg0) (fun k => { serves 3 k with inbox := [{ slot0 with index := 9, phase := .waiting }] })) 1 (fun x => { x with run := .ready, hmode := true, routine := 5 }), 0, 2, by decide +kernel⟩,
   ⟨modCtx (post (mf .flying msg0) (fun k => { serves 3 k with inbox := [{ slot0 with index := 9, phase := .waiting }] })) 1 (fun x => { x with run := .ready, hmode := true, routine := 5 }), 0, 2, by decide +kernel⟩,
   ⟨base, 0, 0, by decide +kernel⟩,
   ⟨modCtx (post (mf .flying { launch0 with sender := 14832 }) id) 5 (fun x => { x with run := .reserved }), 7, mf .flying { launch0 with sender := 14832 }, by decide +kernel⟩,
   ⟨post (mf .flying launch0) (id), 7, 0, mf .flying launch0, by decide +kernel⟩,
   ⟨allBusy (post (mf .flying launch0) (id)), 7, 0, mf .flying launch0, by decide +kernel⟩,
   ⟨allBusy (post (mf .flying launch0) (full)), 7, 0, mf .flying launch0, by decide +kernel⟩,
   ⟨post (mf .flying msg0) (fun k => { k with inbox := [{ slot0 with index := 9, msg := launch0, phase := .waiting }] }), 0, 0, { slot0 with index := 9, msg := launch0, phase := .waiting }, by decide +kernel⟩,
   ⟨post (mf .flying msg0) (fun k => { serves 3 k with inbox := [{ slot0 with index := 9, phase := .waiting }] }), 0, 0, 2, { slot0 with index := 9, phase := .waiting }, by decide +kernel⟩,
   ⟨setSeg (post (mf .flying msg0) (serves 30)) 0 0 3 { Seg.reset with state := .draining, jid := 7, data := 0x99, batch := 2 }, 0, 0, 2, 3, { Seg.reset with state := .draining, jid := 7, data := 0x99, batch := 2 }, by decide +kernel⟩,
   ⟨modCtx (post (mf .flying msg0) id) 0 (fun x => { x with run := .leaving, sendBuf := [.message msg0, .message msg0], committed := true }), 0, msg0, [.message msg0], by decide +kernel⟩,
   ⟨modCtx (post (mf .flying msg0) id) 0 (fun x => { x with run := .leaving, sendBuf := [.message msg0], committed := true }), 0, msg0, by decide +kernel⟩,
   ⟨{ modCtx (post (mf .flying msg0) id) 0 (fun x => { x with run := .leaving, sendBuf := [.message msg0], committed := true }) with messages := (List.range 32).map (fun i => { mf .flying msg0 with id := i }) }, 0, msg0, [], by decide +kernel⟩,
   ⟨post (mf .flying { launch0 with placed := some (0, 1, 0) }) (id), 7, 0, 0, 0, 1, mf .flying { launch0 with placed := some (0, 1, 0) }, by decide +kernel⟩,
   ⟨post (mf .flying { msg0 with cls := 31, pair := some pair0, placed := some (0, 1, 0) }) (serves 31), 7, 0, 0, 0, 1, pair0, mf .flying { msg0 with cls := 31, pair := some pair0, placed := some (0, 1, 0) }, by decide +kernel⟩,
   ⟨modCore (post ({ mf .flying { msg0 with cls := 31, pair := some pair0, placed := some (2, 1, 0) } with hops := 2 }) id) 32 (fun k => { serves 31 k with hold := 4 }), 7, 0, 0, 2, 1, pair0, { mf .flying { msg0 with cls := 31, pair := some pair0, placed := some (2, 1, 0) } with hops := 2 }, 32, by decide +kernel⟩,
   ⟨post (mf .flying { msg0 with cls := 31, pair := some pair0, placed := some (2, 1, 0) }) (serves 31), 7, 0, 0, 2, 1, pair0, mf .flying { msg0 with cls := 31, pair := some pair0, placed := some (2, 1, 0) }, by decide +kernel⟩⟩

theorem test_witness_PairDispatch :
  (∃ (s : State) (x y j w0 w1 : Nat),
    j < 16 ∧ RuleAt s (x + 3 * y + j) w0 w1 ∧ ((∀ i, i < j → ∃ v0 v1, RuleAt s (x + 3 * y + i) v0 v1 ∧ nbit v0 0 = true ∧ ¬ RuleFor v0 x y)) ∧ RuleFor w0 x y) ∧
  (∃ (s : State) (x y j w0 w1 : Nat),
    j < 16 ∧ RuleAt s (x + 3 * y + j) w0 w1 ∧ ((∀ i, i < j → ∃ v0 v1, RuleAt s (x + 3 * y + i) v0 v1 ∧ nbit v0 0 = true ∧ ¬ RuleFor v0 x y)) ∧ nbit w0 0 = false) ∧
  (∃ (s : State) (x y : Nat),
    ((∀ i, i < 16 → ∃ v0 v1, RuleAt s (x + 3 * y + i) v0 v1 ∧ nbit v0 0 = true ∧ ¬ RuleFor v0 x y))) ∧
  (∃ (s : State) (k x y : Nat) (r : Word × Word),
    (x, y, r) ∈ (coreAt s k).ruleCache) ∧
  (∃ (s : State) (k x y : Nat),
    ((∀ e ∈ (coreAt s k).ruleCache, ¬ (e.1 = x ∧ e.2.1 = y)))) ∧
  (∃ (s : State) (k x y j w0 w1 pa home : Nat) (leaf : Word),
    ((∀ e ∈ (coreAt s k).ruleCache, ¬ (e.1 = x ∧ e.2.1 = y))) ∧ j < 16 ∧ RuleAt s (x + 3 * y + j) w0 w1 ∧ RuleFor w0 x y ∧ ((∀ i, i < j → ∃ v0 v1, RuleAt s (x + 3 * y + i) v0 v1 ∧ nbit v0 0 = true ∧ ¬ RuleFor v0 x y)) ∧ translateNow s ((s.ruleBase + 16 * ((x + 3 * y) % 2 ^ s.ruleLog)) % 2 ^ 53) false = .ok (pa, home, leaf)) ∧
  (∃ (s : State) (k i j : Nat) (p : PairRef),
    (coreAt s k).deque.getLast? = some p ∧ freeOrdinary s k = some i ∧ pairRoutine s k = some j ∧ idleContexts s k ≠ [] ∧ waitingLaunch s k = none ∧ pairWaits s k = false ∧ (∀ c ∈ idleContexts s k, chooseRoutine s c = none) ∧ (coreAt s k).spill = []) ∧
  (∃ (s : State) (k v : Nat) (p : PairRef) (l : List PairRef),
    isExecute k = true ∧ s.cycle % 64 = 8 * coreNo k ∧ (coreAt s k).probed ≠ s.cycle + 1 ∧ mayStealNow s k = true ∧ v = (victims k).getD ((coreAt s k).victim % (victims k).length) k ∧ v ≠ k ∧ (coreAt s v).deque = p :: l ∧ (coreAt s v).killed = false ∧ distance (vertexOf v) (vertexOf k) ≤ p.radius ∧ ((l ≠ [] ∨ ownerPops s v = false)) ∧ (coreAt s v).spill = []) ∧
  (∃ (s : State) (k due i : Nat) (p : PairRef) (l : List (Nat × PairRef)),
    (coreAt s k).stolen = (due, p) :: l ∧ due ≤ s.cycle ∧ freeOrdinary s k = some i) ∧
  (∃ (s : State) (k i : Nat) (p : PairRef),
    (∃ q ∈ (coreAt s k).inbox, q.index = i) ∧ ((∀ q ∈ (coreAt s k).inbox, q.index = i → q.phase = .pairWaiting ∧ q.msg.pair = some p))) ∧
  (∃ (s : State) (k i pa home : Nat) (p : PairRef) (q : Slot),
    (coreAt s k).inbox = [q] ∧ q.index = i ∧ q.phase = .taking ∧ q.msg.pair = some p ∧ q.firstWords = none ∧ refDevice p.first = s.device ∧ cellPlace s (refAddr p.first) = some (pa, home) ∧ heapAt s.cellHeaps (refAddr p.first) ≠ none ∧ itemState s false (refAddr p.first) = .live ∧ q.since + takeHop s k p.first ≤ s.cycle ∧ (reachL2 s (.take k i false) (home % 2048) pa 24 (home / 2048) false).1 = true ∧ anyPoison s pa 24 = false) ∧
  (∃ (s : State) (k i : Nat) (p : PairRef) (q : Slot) (a b : List Word) (w0 w1 : Word),
    let x := (a.headD 0).toNat % 65536
    let y := (b.headD 0).toNat % 65536
    let r := (ruleLookup s k x y).1
    (coreAt s k).inbox = [q] ∧ q.index = i ∧ q.phase = .taking ∧ q.msg.pair = some p ∧ q.firstWords = some a ∧ q.secondWords = some b ∧ q.since + dispatchTime s k p ≤ s.cycle ∧ badCell p a b = none ∧ wrongOrder s p x y = false ∧ r = some (w0, w1)) ∧
  (∃ (s : State) (k i : Nat) (p : PairRef) (q : Slot) (a b : List Word),
    let x := (a.headD 0).toNat % 65536
    let y := (b.headD 0).toNat % 65536
    let r := (ruleLookup s k x y).1
    (coreAt s k).inbox = [q] ∧ q.index = i ∧ q.phase = .taking ∧ q.msg.pair = some p ∧ q.firstWords = some a ∧ q.secondWords = some b ∧ q.since + dispatchTime s k p ≤ s.cycle ∧ badCell p a b = none ∧ wrongOrder s p x y = false ∧ r = none) ∧
  (∃ (s : State) (k i : Nat) (p : PairRef) (q : Slot) (a b : List Word) (w0 w1 : Word),
    let x := (a.headD 0).toNat % 65536
    let y := (b.headD 0).toNat % 65536
    let r := (ruleLookup s k x y).1
    (coreAt s k).inbox = [q] ∧ q.index = i ∧ q.phase = .taking ∧ q.msg.pair = some p ∧ q.firstWords = some a ∧ q.secondWords = some b ∧ q.since + dispatchTime s k p ≤ s.cycle ∧ badCell p a b = none ∧ y < x ∧ refKind p.first = 1 ∧ refDevice p.first ≠ s.device ∧ (ruleLookup s k y x).1 = some (w0, w1)) ∧
  (∃ (s : State) (k i : Nat) (p : PairRef) (q : Slot) (a b : List Word) (ref : Word),
    let x := (a.headD 0).toNat % 65536
    let y := (b.headD 0).toNat % 65536
    let r := (ruleLookup s k x y).1
    (coreAt s k).inbox = [q] ∧ q.index = i ∧ q.phase = .taking ∧ q.msg.pair = some p ∧ q.firstWords = some a ∧ q.secondWords = some b ∧ q.since + dispatchTime s k p ≤ s.cycle ∧ badCell p a b = some ref ∧ refKind p.first = 1 ∧ refDevice p.first = s.device ∧ itemState s false (refAddr p.first) = .heldBack) :=
  ⟨⟨rules [(0x50080, 1), (0x50084, 2), (0x50086, 1), (0x50089, 0x40)], 1, 2, 1, 0x1000200000001, 0x4000, by decide +kernel, ruleIs_at (rules [(0x50080, 1), (0x50084, 2), (0x50086, 1), (0x50089, 0x40)]) (1 + 3 * 2 + 1) 0x1000200000001 0x4000 (by decide +kernel), (fun i h => ⟨0x9000900000001, 0, ruleIs_at _ _ _ _ ((show ∀ i, i < 1 → ruleIs (rules [(0x50080, 1), (0x50084, 2), (0x50086, 1), (0x50089, 0x40)]) (1 + 3 * 2 + i) 0x9000900000001 0 = true by decide +kernel) i h), by decide +kernel, by decide +kernel⟩), by decide +kernel⟩,
   ⟨rules [], 1, 2, 1, 0, 0, by decide +kernel, ruleIs_at (rules []) (1 + 3 * 2 + 1) 0x0 0x0 (by decide +kernel), (fun i h => ⟨0x9000900000001, 0, ruleIs_at _ _ _ _ ((show ∀ i, i < 1 → ruleIs (rules []) (1 + 3 * 2 + i) 0x9000900000001 0 = true by decide +kernel) i h), by decide +kernel, by decide +kernel⟩), by decide +kernel⟩,
   ⟨fullRules, 1, 2, (fun i h => ⟨0x9000900000001, 0, ruleIs_at _ _ _ _ ((show ∀ i, i < 16 → ruleIs (fullRules) (1 + 3 * 2 + i) 0x9000900000001 0 = true by decide +kernel) i h), by decide +kernel, by decide +kernel⟩)⟩,
   ⟨post (mf .flying msg0) (fun k => { k with ruleCache := [(5, 6, 0x10000000, 0x5008)] }), 0, 5, 6, (0x10000000, 0x5008), by decide +kernel⟩,
   ⟨post (mf .flying msg0) (fun k => { k with ruleCache := [(5, 6, 0x10000000, 0x5008)] }), 0, 5, 7, by decide +kernel⟩,
   ⟨rules [(0x50080, 1), (0x50084, 2), (0x50086, 1), (0x50089, 0x40)], 2, 1, 2, 1, 0x1000200000001, 0x4000, 0x50070, translateTarget (rules [(0x50080, 1), (0x50084, 2), (0x50086, 1), (0x50089, 0x40)]) 0x50070, leafT, by decide +kernel, by decide +kernel, ruleIs_at (rules [(0x50080, 1), (0x50084, 2), (0x50086, 1), (0x50089, 0x40)]) (1 + 3 * 2 + 1) 0x1000200000001 0x4000 (by decide +kernel), by decide +kernel, (fun i h => ⟨0x9000900000001, 0, ruleIs_at _ _ _ _ ((show ∀ i, i < 1 → ruleIs (rules [(0x50080, 1), (0x50084, 2), (0x50086, 1), (0x50089, 0x40)]) (1 + 3 * 2 + i) 0x9000900000001 0 = true by decide +kernel) i h), by decide +kernel, by decide +kernel⟩), by decide +kernel⟩,
   ⟨post (mf .flying msg0) (fun k => { serves 31 k with deque := [pair0] }), 0, 0, 2, pair0, by decide +kernel⟩,
   ⟨{ modCore (post (mf .flying msg0) (serves 31)) 1 (fun k => { k with deque := [pair0] }) with cycle := 128 }, 0, 1, pair0, [], by decide +kernel⟩,
   ⟨post (mf .flying msg0) (fun k => { k with stolen := [(64, pair0)], stolenFrom := [3] }), 0, 64, 0, pair0, [], by decide +kernel⟩,
   ⟨post (mf .flying msg0) (fun k => { k with inbox := [pairSlot .pairWaiting pair0] }), 0, 4, pair0, by decide +kernel⟩,
   ⟨{ { { inL2 { base with mem := base.mem ++ [(0x20000, 5), (0x20008, 7)] } with cellHeaps := [(0, some { ranges := [(0x20000, 0x100)], acct := 0 })], wireHeaps := [(0, some { ranges := [(0x20000, 0x100)], acct := 0 })], cells := [(0x20000, .live)], wires := [(0x20000, .live)] } with cores := [(0, { Core.reset with inbox := [pairSlot .taking { pair0 with first := 0x2000000000020000 }] })] } with cycle := 64 }, 0, 4, 0x20000, (((cellPlace ({ { { inL2 { base with mem := base.mem ++ [(0x20000, 5), (0x20008, 7)] } with cellHeaps := [(0, some { ranges := [(0x20000, 0x100)], acct := 0 })], wireHeaps := [(0, some { ranges := [(0x20000, 0x100)], acct := 0 })], cells := [(0x20000, .live)], wires := [(0x20000, .live)] } with cores := [(0, { Core.reset with inbox := [pairSlot .taking { pair0 with first := 0x2000000000020000 }] })] } with cycle := 64 }) 0x20000).getD (0, 0)).2), { pair0 with first := 0x2000000000020000 }, pairSlot .taking { pair0 with first := 0x2000000000020000 }, by decide +kernel⟩,
   ⟨post (mf .flying msg0) (fun k => { k with ruleCache := [(5, 6, 0x10000000, 0x5008)], inbox := [{ pairSlot .taking pair0 with firstWords := some [5, 0, 0], secondWords := some [6, 0, 0] }] }), 0, 4, pair0, { pairSlot .taking pair0 with firstWords := some [5, 0, 0], secondWords := some [6, 0, 0] }, [5, 0, 0], [6, 0, 0], 0x10000000, 0x5008, by decide +kernel⟩,
   ⟨post (mf .flying msg0) (fun k => { k with inbox := [{ pairSlot .taking pair0 with firstWords := some [5, 0, 0], secondWords := some [6, 0, 0] }] }), 0, 4, pair0, { pairSlot .taking pair0 with firstWords := some [5, 0, 0], secondWords := some [6, 0, 0] }, [5, 0, 0], [6, 0, 0], by decide +kernel⟩,
   ⟨{ post (mf .flying msg0) (fun k => { k with ruleCache := [(5, 9, 0x10000000, 0x5008)], inbox := [{ pairSlot .taking { pair0 with first := 0x2010000000020000 } with firstWords := some [9, 0, 0], secondWords := some [5, 0, 0], firstTokens := [(0x10000, false)] }] }) with cycle := 20000 }, 0, 4, { pair0 with first := 0x2010000000020000 }, { pairSlot .taking { pair0 with first := 0x2010000000020000 } with firstWords := some [9, 0, 0], secondWords := some [5, 0, 0], firstTokens := [(0x10000, false)] }, [9, 0, 0], [5, 0, 0], 0x10000000, 0x5008, by decide +kernel⟩,
   ⟨{ { base with cellHeaps := [(0, some { ranges := [(0x20000, 0x100)], acct := 0 })], wireHeaps := [(0, some { ranges := [(0x20000, 0x100)], acct := 0 })], cells := [(0x20000, .live)], wires := [(0x20000, .live)] } with cores := [(0, { Core.reset with inbox := [{ pairSlot .taking { pair0 with first := 0x2000000000020000 } with firstWords := some [0xFFFFFFFFFFFFFFFF, 0, 0], secondWords := some [6, 0, 0] }] })], cells := [(0x20000, .heldBack)], cycle := 64 }, 0, 4, { pair0 with first := 0x2000000000020000 }, { pairSlot .taking { pair0 with first := 0x2000000000020000 } with firstWords := some [0xFFFFFFFFFFFFFFFF, 0, 0], secondWords := some [6, 0, 0] }, [0xFFFFFFFFFFFFFFFF, 0, 0], [6, 0, 0], 0x2000000000020000, by decide +kernel⟩⟩

theorem test_witness_GraphWalker :
  (∃ (s : State) (gi n : Nat) (g : GraphRun),
    graphOf s gi = some g ∧ g.live = true ∧ n < g.count ∧ nodePending s g n (nodeOf g n) = true ∧ (nodeOf g n).changed < s.cycle) ∧
  (∃ (s : State) (gi n : Nat) (g : GraphRun),
    let u := setNode (setDie s g.die { dieAt s g.die with lastStart := some s.cycle }) gi n { nodeOf g n with state := 2, stage := false }
    let v0 := 32 * bits (nodeWord s g n 2) 8 5 + bits (nodeWord s g n 2) 4 0
    let size := bits (nodeWord s g n 0) 9 0
    let l := (List.range size).map (fun i => mkVertex ((v0 + i) % 32) ((v0 + i) / 32))
    NextToStart s gi n g ∧ nodePoisoned u g n = false ∧ (nodeKind s g n = 0 ∨ (nodeKind s g n = 5 ∧ sget 0 s.batchRegs (nodeParam u g n) ≠ 0))) ∧
  (∃ (s : State) (gi n : Nat) (g : GraphRun),
    let u := setNode (setDie s g.die { dieAt s g.die with lastStart := some s.cycle }) gi n { nodeOf g n with state := 2, stage := false }
    let v0 := 32 * bits (nodeWord s g n 2) 8 5 + bits (nodeWord s g n 2) 4 0
    let size := bits (nodeWord s g n 0) 9 0
    let l := (List.range size).map (fun i => mkVertex ((v0 + i) % 32) ((v0 + i) / 32))
    NextToStart s gi n g ∧ nodePoisoned u g n = false ∧ nodeKind s g n = 1 ∧ v0 + size ≤ 512 ∧ (∀ v ∈ l, (clusterAt s v).unfit = false)) ∧
  (∃ (s : State) (gi n : Nat) (g : GraphRun),
    let u := setNode (setDie s g.die { dieAt s g.die with lastStart := some s.cycle }) gi n { nodeOf g n with state := 2, stage := false }
    let v0 := 32 * bits (nodeWord s g n 2) 8 5 + bits (nodeWord s g n 2) 4 0
    let size := bits (nodeWord s g n 0) 9 0
    let l := (List.range size).map (fun i => mkVertex ((v0 + i) % 32) ((v0 + i) / 32))
    NextToStart s gi n g ∧ nodePoisoned u g n = false ∧ nodeKind s g n = 1 ∧ (512 < v0 + size ∨ (∃ v ∈ l, (clusterAt s v).unfit = true))) ∧
  (∃ (s : State) (gi n c pa home : Nat) (g : GraphRun) (leaf : Word),
    graphOf s gi = some g ∧ g.live = true ∧ n < g.count ∧ (nodeOf g n).state = 1 ∧ 2 ≤ nodeKind s g n ∧ nodeKind s g n ≤ 4 ∧ nodePoisoned s g n = false ∧ ((translateNow s (nodeWord s g n 1 % 2 ^ 53) false = .error c ∨
      (translateNow s (nodeWord s g n 1 % 2 ^ 53) false = .ok (pa, home, leaf) ∧ anyPoison s pa 4 = true ∧ c = cPoison)))) ∧
  (∃ (s : State) (gi n c pa home : Nat) (g : GraphRun) (leaf : Word),
    graphOf s gi = some g ∧ g.live = true ∧ n < g.count ∧ (nodeOf g n).state = 1 ∧ 2 ≤ nodeKind s g n ∧ nodeKind s g n ≤ 4 ∧ nodePoisoned s g n = false ∧ ((translateNow s (nodeWord s g n 1 % 2 ^ 53) false = .error c ∨
      (translateNow s (nodeWord s g n 1 % 2 ^ 53) false = .ok (pa, home, leaf) ∧ anyPoison s pa 4 = true ∧ c = cPoison)))) ∧
  (∃ (s : State) (gi n w : Nat) (g : GraphRun),
    let x := { nodeOf g n with value := BitVec.ofNat 32 w }
    graphOf s gi = some g ∧ g.live = true ∧ n < g.count ∧ (nodeOf g n).state = 1 ∧ nodePoisoned s g n = false ∧ readWord s (nodeWord s g n 1) = .ok w ∧ nodeKind s g n = 2) ∧
  (∃ (s : State) (gi n w : Nat) (g : GraphRun),
    let x := { nodeOf g n with value := BitVec.ofNat 32 w }
    graphOf s gi = some g ∧ g.live = true ∧ n < g.count ∧ (nodeOf g n).state = 1 ∧ nodePoisoned s g n = false ∧ readWord s (nodeWord s g n 1) = .ok w ∧ nodeKind s g n = 3 ∧ w < (nodeSuccs s g n).length) ∧
  (∃ (s : State) (gi n w : Nat) (g : GraphRun),
    let x := { nodeOf g n with value := BitVec.ofNat 32 w }
    graphOf s gi = some g ∧ g.live = true ∧ n < g.count ∧ (nodeOf g n).state = 1 ∧ nodePoisoned s g n = false ∧ readWord s (nodeWord s g n 1) = .ok w ∧ nodeKind s g n = 3 ∧ (nodeSuccs s g n).length ≤ w) ∧
  (∃ (s : State) (gi n w : Nat) (g : GraphRun),
    let x := { nodeOf g n with value := BitVec.ofNat 32 w }
    graphOf s gi = some g ∧ g.live = true ∧ n < g.count ∧ (nodeOf g n).state = 1 ∧ nodePoisoned s g n = false ∧ readWord s (nodeWord s g n 1) = .ok w ∧ nodeKind s g n = 4 ∧ ((w = 0 ∨ nodeWord s g n 2 ≤ (nodeOf g n).runs))) ∧
  (∃ (s : State) (gi n w : Nat) (g : GraphRun),
    let x := { nodeOf g n with value := BitVec.ofNat 32 w }
    let u := setNode s gi n { x with iter := (x.iter + 1) % 65536, brc := false, runs := x.runs + 1 }
    graphOf s gi = some g ∧ g.live = true ∧ n < g.count ∧ (nodeOf g n).state = 1 ∧ nodePoisoned s g n = false ∧ readWord s (nodeWord s g n 1) = .ok w ∧ nodeKind s g n = 4 ∧ w ≠ 0 ∧ (nodeOf g n).runs < nodeWord s g n 2) ∧
  (∃ (s : State) (gi n : Nat) (g : GraphRun),
    graphOf s gi = some g ∧ g.live = true ∧ n < g.count ∧ (nodeOf g n).state = 2 ∧ nodeKind s g n = 0 ∧ (nodeOf g n).stage = false) ∧
  (∃ (s : State) (gi n : Nat) (g : GraphRun) (pa home : Nat) (leaf : Word),
    let q := nodeParam s g n
    let count := nodeWord s g n 3 % 2 ^ 32
    graphOf s gi = some g ∧ g.live = true ∧ n < g.count ∧ (nodeOf g n).state = 2 ∧ nodeKind s g n = 5 ∧ (nodeOf g n).stage = false ∧ (nodeOf g n).changed + 63 ≤ s.cycle ∧ batchOf s gi n = none ∧ translateNow s ((sget 0 s.batchRegs q + 0x8080) % 2 ^ 53) true = .ok (pa, home, leaf) ∧ anyPoison s pa 128 = false) ∧
  (∃ (s : State) (gi n : Nat) (g : GraphRun) (b : BatchRun) (u : State) (d : BatchRun),
    let q := nodeParam s g n
    let count := nodeWord s g n 3 % 2 ^ 32
    graphOf s gi = some g ∧ g.live = true ∧ n < g.count ∧ (nodeOf g n).state = 2 ∧ nodeKind s g n = 5 ∧ (nodeOf g n).stage = false ∧ (nodeOf g n).changed + 63 ≤ s.cycle ∧ batchOf s gi n = some b ∧ batchPiece s q count b = .ok (u, d) ∧ (d.phase ≠ .done ∨ d.todo ≠ [])) ∧
  (∃ (s : State) (gi n : Nat) (g : GraphRun) (b : BatchRun) (u : State) (d : BatchRun) (h : GraphRun),
    let q := nodeParam s g n
    let count := nodeWord s g n 3 % 2 ^ 32
    graphOf s gi = some g ∧ g.live = true ∧ n < g.count ∧ (nodeOf g n).state = 2 ∧ nodeKind s g n = 5 ∧ (nodeOf g n).stage = false ∧ (nodeOf g n).changed + 63 ≤ s.cycle ∧ batchOf s gi n = some b ∧ batchPiece s q count b = .ok (u, d) ∧ d.phase = .done ∧ d.todo = [] ∧ graphOf u gi = some h) ∧
  (∃ (s : State) (gi n : Nat) (g : GraphRun) (b : BatchRun) (c va : Nat),
    let q := nodeParam s g n
    let count := nodeWord s g n 3 % 2 ^ 32
    graphOf s gi = some g ∧ g.live = true ∧ n < g.count ∧ (nodeOf g n).state = 2 ∧ nodeKind s g n = 5 ∧ (nodeOf g n).stage = false ∧ (nodeOf g n).changed + 63 ≤ s.cycle ∧ batchOf s gi n = some b ∧ batchPiece s q count b = .error (c, va)) ∧
  (∃ (s : State) (gi n : Nat) (g : GraphRun) (b : BatchRun) (va : Nat) (data : List Byte) (l : List BatchAccess) (pa home : Nat) (leaf : Word),
    let q := nodeParam s g n
    let count := nodeWord s g n 3 % 2 ^ 32
    graphOf s gi = some g ∧ g.live = true ∧ n < g.count ∧ (nodeOf g n).state = 2 ∧ nodeKind s g n = 5 ∧ (nodeOf g n).stage = false ∧ (nodeOf g n).changed + 63 ≤ s.cycle ∧ batchOf s gi n = some b ∧ b.todo = .bytes va data :: l ∧ translateNow s (va % 2 ^ 53) true = .ok (pa, home, leaf) ∧ cxlGone s pa = false ∧ (b.phase ≠ .done ∨ l ≠ [])) ∧
  (∃ (s : State) (gi n : Nat) (g : GraphRun) (b : BatchRun) (off : Nat),
    let q := nodeParam s g n
    let count := nodeWord s g n 3 % 2 ^ 32
    graphOf s gi = some g ∧ g.live = true ∧ n < g.count ∧ (nodeOf g n).state = 2 ∧ nodeKind s g n = 5 ∧ (nodeOf g n).stage = false ∧ (nodeOf g n).changed + 63 ≤ s.cycle ∧ batchOf s gi n = some b ∧ b.todo = [] ∧ b.phase = .last off ∧ 0x8100 + 2 * off < 65536) ∧
  (∃ (s : State) (gi n : Nat) (g : GraphRun),
    graphOf s gi = some g ∧ g.live = true ∧ n < g.count ∧ (nodeOf g n).state = 2 ∧ nodeKind s g n = 5 ∧ (nodeOf g n).stage = true) ∧
  (∃ (s : State) (gi n : Nat) (g : GraphRun) (i : Nat) (y : Gang),
    graphOf s gi = some g ∧ g.live = true ∧ n < g.count ∧ (nodeOf g n).state = 2 ∧ nodeKind s g n = 1 ∧ s.gangs = [(i, some y)] ∧ y.graph = some (gi, n) ∧ y.started = true ∧ (∀ e ∈ y.members, e.1 ∈ y.ended)) ∧
  (∃ (s : State) (gi n : Nat) (g : GraphRun) (take : Nat → Bool),
    graphOf s gi = some g) :=
  ⟨⟨withGraph ({ graph0 with nodes := [(0, { Node.reset with state := 3 }), (1, { Node.reset with done := 1, complete := 1, changed := 100 })] }) [(0x30000, 0x80000000000), (0x30020, 0x1), (0x30040, 0x1000000000000), (0x30080, 0x1000000000000)], 3, 1, { graph0 with nodes := [(0, { Node.reset with state := 3 }), (1, { Node.reset with done := 1, complete := 1, changed := 100 })] }, by decide +kernel⟩,
   ⟨withGraph (nodeAt0 { Node.reset with state := 1 }) [(0x30000, 0x80000000000), (0x30020, 0x1), (0x30040, 0x1000000000000), (0x30080, 0x1000000000000)], 3, 0, nodeAt0 { Node.reset with state := 1 }, next_ok _ _ _ _ (by decide +kernel), by decide +kernel, by decide +kernel⟩,
   ⟨withGraph (nodeAt0 { Node.reset with state := 1 }) [(0x30000, 0x1000080000000002), (0x30008, 0x4000), (0x30010, 0x5), (0x30018, 0x9), (0x30020, 0x1), (0x30040, 0x1000000000000), (0x30080, 0x1000000000000)], 3, 0, nodeAt0 { Node.reset with state := 1 }, next_ok _ _ _ _ (by decide +kernel), by decide +kernel, by decide +kernel, by decide +kernel, by decide +kernel⟩,
   ⟨modCluster (withGraph (nodeAt0 { Node.reset with state := 1 }) [(0x30000, 0x1000080000000002), (0x30008, 0x4000), (0x30010, 0x5), (0x30018, 0x9), (0x30020, 0x1), (0x30040, 0x1000000000000), (0x30080, 0x1000000000000)]) (mkVertex 6 0) (fun k => { k with unfit := true }), 3, 0, nodeAt0 { Node.reset with state := 1 }, next_ok _ _ _ _ (by decide +kernel), by decide +kernel, by decide +kernel, by decide +kernel⟩,
   ⟨withGraph (nodeAt0 { Node.reset with state := 1 }) [(0x30000, 0x2000100000000000), (0x30008, 0x4000000000), (0x30020, 0x20001), (0x30040, 0x1000000000000), (0x30080, 0x1000000000000)], 3, 0, cXlateMiss, 0, 0, nodeAt0 { Node.reset with state := 1 }, 0, by decide +kernel⟩,
   ⟨withGraph (nodeAt0 { Node.reset with state := 1 }) [(0x30000, 0x2000100000000000), (0x30008, 0x4000000000), (0x30020, 0x20001), (0x30040, 0x1000000000000), (0x30080, 0x1000000000000)], 3, 0, cXlateMiss, 0, 0, nodeAt0 { Node.reset with state := 1 }, 0, by decide +kernel⟩,
   ⟨withGraph (nodeAt0 { Node.reset with state := 1 }) [(0x30000, 0x2000100000000000), (0x30008, 0x50000), (0x30020, 0x20001), (0x30040, 0x1000000000000), (0x30080, 0x1000000000000)], 3, 0, 0, (nodeAt0 { Node.reset with state := 1 }), by decide +kernel⟩,
   ⟨withGraph (nodeAt0 { Node.reset with state := 1 }) [(0x30000, 0x3000100000000000), (0x30008, 0x50000), (0x30020, 0x20001), (0x30040, 0x1000000000000), (0x30080, 0x1000000000000), (0x50000, 1)], 3, 0, 1, (nodeAt0 { Node.reset with state := 1 }), by decide +kernel⟩,
   ⟨withGraph (nodeAt0 { Node.reset with state := 1 }) [(0x30000, 0x3000100000000000), (0x30008, 0x50000), (0x30020, 0x20001), (0x30040, 0x1000000000000), (0x30080, 0x1000000000000), (0x50000, 2)], 3, 0, 2, (nodeAt0 { Node.reset with state := 1 }), by decide +kernel⟩,
   ⟨withGraph (nodeAt0 { Node.reset with state := 1 }) [(0x30000, 0x4000100000000001), (0x30008, 0x50000), (0x30010, 0x9), (0x30020, 0x20001), (0x30040, 0x1000000000000), (0x30080, 0x1000000000000)], 3, 0, 0, (nodeAt0 { Node.reset with state := 1 }), by decide +kernel⟩,
   ⟨withGraph ({ graph0 with nodes := [(0, { Node.reset with state := 1, iter := 3, runs := 3 }), (1, { Node.reset with state := 3, done := 1, complete := 1, runs := 2 })] }) [(0x30000, 0x4000100000000001), (0x30008, 0x50000), (0x30010, 0x9), (0x30020, 0x20001), (0x30040, 0x1000000000000), (0x30080, 0x1000000000000), (0x50000, 0x5)], 3, 0, 5, { graph0 with nodes := [(0, { Node.reset with state := 1, iter := 3, runs := 3 }), (1, { Node.reset with state := 3, done := 1, complete := 1, runs := 2 })] }, by decide +kernel⟩,
   ⟨withGraph (nodeAt0 { Node.reset with state := 2 }) [(0x30000, 0x80000000000), (0x30008, 0x20000), (0x30010, 0x21), (0x30018, 0x6), (0x30020, 0x1), (0x30040, 0x1000000000000), (0x30080, 0x1000000000000)], 3, 0, (nodeAt0 { Node.reset with state := 2 }), by decide +kernel⟩,
   ⟨{ { withGraph (nodeAt0 { Node.reset with state := 2 }) [(0x30000, 0x5000080000000004), (0x30018, 0x8), (0x30020, 0x1), (0x30040, 0x1000000000000), (0x30080, 0x1000000000000), (0x60000, 0x70000)] with batchRegs := [(4, 0x60000)], releases := [(4, [0x80000])] } with cycle := 900 }, 3, 0, (nodeAt0 { Node.reset with state := 2 }), 0x68080, translateTarget ({ { withGraph (nodeAt0 { Node.reset with state := 2 }) [(0x30000, 0x5000080000000004), (0x30018, 0x8), (0x30020, 0x1), (0x30040, 0x1000000000000), (0x30080, 0x1000000000000), (0x60000, 0x70000)] with batchRegs := [(4, 0x60000)], releases := [(4, [0x80000])] } with cycle := 900 }) 0x68080, leafT, by decide +kernel⟩,
   ⟨{ { { withGraph (nodeAt0 { Node.reset with state := 2 }) [(0x30000, 0x5000080000000004), (0x30018, 0x8), (0x30020, 0x1), (0x30040, 0x1000000000000), (0x30080, 0x1000000000000), (0x60000, 0x70000)] with batchRegs := [(4, 0x60000)], releases := [(4, [0x80000])] } with cycle := 900 } with batches := [(12288, some { phase := .evict, area := 0x60000, returns := [], queue := [], barred := 0, slots := [], freed := [], todo := [], recs := [] })] }, 3, 0, (nodeAt0 { Node.reset with state := 2 }), { phase := .evict, area := 0x60000, returns := [], queue := [], barred := 0, slots := [], freed := [], todo := [], recs := [] }, (match batchPiece ({ { { withGraph (nodeAt0 { Node.reset with state := 2 }) [(0x30000, 0x5000080000000004), (0x30018, 0x8), (0x30020, 0x1), (0x30040, 0x1000000000000), (0x30080, 0x1000000000000), (0x60000, 0x70000)] with batchRegs := [(4, 0x60000)], releases := [(4, [0x80000])] } with cycle := 900 } with batches := [(12288, some { phase := .evict, area := 0x60000, returns := [], queue := [], barred := 0, slots := [], freed := [], todo := [], recs := [] })] }) 4 8 { phase := .evict, area := 0x60000, returns := [], queue := [], barred := 0, slots := [], freed := [], todo := [], recs := [] } with | .ok (u, _) => u | .error _ => State.reset), { ({ phase := .evict, area := 0x60000, returns := [], queue := [], barred := 0, slots := [], freed := [], todo := [], recs := [] } : BatchRun) with phase := .enter }, by decide +kernel⟩,
   ⟨{ { { withGraph (nodeAt0 { Node.reset with state := 2 }) [(0x30000, 0x5000080000000004), (0x30018, 0x8), (0x30020, 0x1), (0x30040, 0x1000000000000), (0x30080, 0x1000000000000), (0x60000, 0x70000)] with batchRegs := [(4, 0x60000)], releases := [(4, [0x80000])] } with cycle := 900 } with batches := [(12288, some { phase := .done, area := 0x60000, returns := [], queue := [], barred := 0, slots := [], freed := [], todo := [.bytes 0x60100 [7, 8]], recs := [] })] }, 3, 0, (nodeAt0 { Node.reset with state := 2 }), { phase := .done, area := 0x60000, returns := [], queue := [], barred := 0, slots := [], freed := [], todo := [.bytes 0x60100 [7, 8]], recs := [] }, (match batchPiece ({ { { withGraph (nodeAt0 { Node.reset with state := 2 }) [(0x30000, 0x5000080000000004), (0x30018, 0x8), (0x30020, 0x1), (0x30040, 0x1000000000000), (0x30080, 0x1000000000000), (0x60000, 0x70000)] with batchRegs := [(4, 0x60000)], releases := [(4, [0x80000])] } with cycle := 900 } with batches := [(12288, some { phase := .done, area := 0x60000, returns := [], queue := [], barred := 0, slots := [], freed := [], todo := [.bytes 0x60100 [7, 8]], recs := [] })] }) 4 8 { phase := .done, area := 0x60000, returns := [], queue := [], barred := 0, slots := [], freed := [], todo := [.bytes 0x60100 [7, 8]], recs := [] } with | .ok (u, _) => u | .error _ => State.reset), { phase := .done, area := 0x60000, returns := [], queue := [], barred := 0, slots := [], freed := [], todo := [], recs := [] }, (nodeAt0 { Node.reset with state := 2 }), by decide +kernel⟩,
   ⟨{ { { withGraph (nodeAt0 { Node.reset with state := 2 }) [(0x30000, 0x5000080000000004), (0x30018, 0x8), (0x30020, 0x1), (0x30040, 0x1000000000000), (0x30080, 0x1000000000000), (0x60000, 0x70000)] with batchRegs := [(4, 0x60000)], releases := [(4, [0x80000])] } with cycle := 900 } with batches := [(12288, some { phase := .write 3 0, area := 0x60000, returns := [], queue := [], barred := 0, slots := [], freed := [], todo := [.bytes 0x4000000000 [7]], recs := [] })] }, 3, 0, (nodeAt0 { Node.reset with state := 2 }), { phase := .write 3 0, area := 0x60000, returns := [], queue := [], barred := 0, slots := [], freed := [], todo := [.bytes 0x4000000000 [7]], recs := [] }, cXlateMiss, 0x4000000000, by decide +kernel⟩,
   ⟨{ { { withGraph (nodeAt0 { Node.reset with state := 2 }) [(0x30000, 0x5000080000000004), (0x30018, 0x8), (0x30020, 0x1), (0x30040, 0x1000000000000), (0x30080, 0x1000000000000), (0x60000, 0x70000)] with batchRegs := [(4, 0x60000)], releases := [(4, [0x80000])] } with cycle := 900 } with batches := [(12288, some { phase := .write 3 0, area := 0x60000, returns := [], queue := [], barred := 0, slots := [], freed := [], todo := [.bytes 0x60100 [7, 8]], recs := [] })] }, 3, 0, (nodeAt0 { Node.reset with state := 2 }), { phase := .write 3 0, area := 0x60000, returns := [], queue := [], barred := 0, slots := [], freed := [], todo := [.bytes 0x60100 [7, 8]], recs := [] }, 0x60100, [7, 8], [], 0x60100, translateTarget ({ { { withGraph (nodeAt0 { Node.reset with state := 2 }) [(0x30000, 0x5000080000000004), (0x30018, 0x8), (0x30020, 0x1), (0x30040, 0x1000000000000), (0x30080, 0x1000000000000), (0x60000, 0x70000)] with batchRegs := [(4, 0x60000)], releases := [(4, [0x80000])] } with cycle := 900 } with batches := [(12288, some { phase := .write 3 0, area := 0x60000, returns := [], queue := [], barred := 0, slots := [], freed := [], todo := [.bytes 0x60100 [7, 8]], recs := [] })] }) 0x60100, leafT, by decide +kernel⟩,
   ⟨{ { { withGraph (nodeAt0 { Node.reset with state := 2 }) [(0x30000, 0x5000080000000004), (0x30018, 0x8), (0x30020, 0x1), (0x30040, 0x1000000000000), (0x30080, 0x1000000000000), (0x60000, 0x70000)] with batchRegs := [(4, 0x60000)], releases := [(4, [0x80000])] } with cycle := 900 } with batches := [(12288, some { phase := .last 3, area := 0x60000, returns := [], queue := [], barred := 0, slots := [], freed := [], todo := [], recs := [] })] }, 3, 0, (nodeAt0 { Node.reset with state := 2 }), { phase := .last 3, area := 0x60000, returns := [], queue := [], barred := 0, slots := [], freed := [], todo := [], recs := [] }, 3, by decide +kernel⟩,
   ⟨withGraph (nodeAt0 { Node.reset with state := 2, stage := true }) [(0x30000, 0x5000080000000000), (0x30020, 0x1), (0x30040, 0x1000000000000), (0x30080, 0x1000000000000)], 3, 0, (nodeAt0 { Node.reset with state := 2, stage := true }), by decide +kernel⟩,
   ⟨{ withGraph (nodeAt0 { Node.reset with state := 2 }) [(0x30000, 0x1000080000000000), (0x30020, 0x1), (0x30040, 0x1000000000000), (0x30080, 0x1000000000000)] with gangs := [(1, some { gang0 with graph := some (3, 0), ended := [0] })] }, 3, 0, (nodeAt0 { Node.reset with state := 2 }), 1, { gang0 with graph := some (3, 0), ended := [0] }, by decide +kernel⟩,
   ⟨withGraph (nodeAt0 { Node.reset with state := 2 }) [(0x30000, 0x80000000000), (0x30020, 0x1), (0x30040, 0x1000000000000), (0x30080, 0x1000000000000)], 3, 0, (nodeAt0 { Node.reset with state := 2 }), fun _ => true, by decide +kernel⟩⟩

theorem test_witness_Gangs :
  (∃ (s : State) (n k m c : Nat) (g : Gang),
    gangAt s n = some g ∧ memberOf g k = some m ∧ idleOf s k = some c ∧ g.started = false ∧ (∀ e ∈ g.members, e.1 ≠ m)) ∧
  (∃ (s : State) (n : Nat) (g : Gang),
    gangAt s n = some g ∧ g.started = false ∧ 8 * g.clusters.length ≤ g.members.length ∧ (match g.graph with | some (gi, node) => nodeFirst s gi node | none => 0) ≤ s.cycle + 1 ∧ (g.members.map (·.2)).Nodup ∧ (∀ e ∈ g.members, e.1 ∉ g.ended)) ∧
  (∃ (s : State) (n : Nat) (g : Gang),
    gangAt s n = some g ∧ g.started = true) ∧
  (∃ (s : State) (n b m c : Nat) (g : Gang),
    gangAt s n = some g ∧ g.preempt = true ∧ g.members = [(m, c)] ∧ m ∉ g.ended ∧ memberStopped s c = true ∧ blockFault s (gangDie s g) (b + 20480 * m) = none) ∧
  (∃ (s : State) (n b : Nat) (g : Gang),
    let live := g.members.filter (fun e => !(g.ended.contains e.1))
    gangAt s n = some g ∧ g.preempt = true ∧ live ≠ [] ∧ ((∀ e ∈ live, memberStopped s e.2 = true ∧ (ctxOf s e.2).lockstep = false ∧ blockFault s (gangDie s g) (b + 20480 * e.1) = none))) ∧
  (∃ (s : State) (d va c : Nat),
    coreNo (coreOf c) < 8) ∧
  (∃ (s : State) (va off n x pa home : Nat) (leaf : Word),
    translateNow s (va + off) true = .ok (pa, home, leaf) ∧ cxlGone s pa = false) ∧
  (∃ (s : State) (n : Nat) (g : Gang),
    gangAt s n = some g ∧ g.arrived ≠ [] ∧ (∀ v ∈ g.clusters, v ∈ g.arrived) ∧ (∀ v ∈ g.clusters, g.arrivedAt + 2 * latency (g.clusters.headD 0) v + 6 ≤ s.cycle) ∧ g.arrivedAt + 6 ≤ s.cycle) :=
  ⟨⟨gangW { gang0 with members := [], started := false } base, 1, 3, 3, 24, { gang0 with members := [], started := false }, by decide +kernel⟩,
   ⟨gangW gang8 base, 1, gang8, by decide +kernel⟩,
   ⟨gangW gang0 base, 1, gang0, by decide +kernel⟩,
   ⟨{ gangW { gang0 with preempt := true } (modCtx (at_ id id) 0 (fun x => { x with run := .preempted, gang := some 1 })) with tokens := [(0x50000, some (tok 0x50000 16 .exclusive (holderAgent 14832) []))] }, 1, 0x50000, 0, 0, { gang0 with preempt := true }, by decide +kernel⟩,
   ⟨{ gangW { gang0 with preempt := true } (modCtx (at_ id id) 0 (fun x => { x with run := .preempted, gang := some 1 })) with tokens := [(0x50000, some (tok 0x50000 16 .exclusive (holderAgent 14832) []))] }, 1, 0x50000, { gang0 with preempt := true }, by decide +kernel⟩,
   ⟨{ gangW { gang0 with preempt := true } (modCtx (at_ id id) 0 (fun x => { x with run := .preempted, gang := some 1 })) with tokens := [(0x50000, some (tok 0x50000 16 .exclusive (holderAgent 14832) []))] }, 0, 0x50000, 0, by decide +kernel⟩,
   ⟨base, 0x20000, 8, 8, 0x1122334455667788, 0x20008, translateTarget base 0x20008, leafT, by decide +kernel⟩,
   ⟨gangW { gang0 with clusters := [0, 5], arrived := [5, 0], arrivedAt := 10 } { modCtx (at_ id id) 0 (fun x => { x with run := .stalled .gbar, gang := some 1 }) with cycle := 400 }, 1, { gang0 with clusters := [0, 5], arrived := [5, 0], arrivedAt := 10 }, by decide +kernel⟩⟩

theorem test_witness_TrapEndsAndKills :
  (∃ (s : State) (c : Nat),
    heldByFault s c = true ∧ (ctxOf s c).hmode = false ∧ (ctxOf s c).lockstep = false) ∧
  (∃ (s : State) (c : Nat),
    (ctxOf s c).hmode = true) ∧
  (∃ (s : State) (c : Nat),
    firmwareUp s c = true ∧ (ctxOf s c).run = .trapped ∧ (ctxOf s c).hmode = true ∧ (ctxOf s c).cip = false ∧ (ctxOf s c).preemptAsked = false) ∧
  (∃ (s : State) (c : Nat),
    (ctxOf s c).cip = true) ∧
  (∃ (s : State) (c : Nat),
    heldByFault s c = true ∧ (ctxOf s c).gang = none ∧ (ctxOf s c).preemptAsked = false) ∧
  (∃ (s : State) (c : Nat) (q : Slot),
    heldByFault s c = true ∧ (ctxOf s c).hmode = true ∧ slotOf s c = some q ∧ q.msg.pair = none ∧ (ctxOf s c).gang = none ∧ (ctxOf s c).preemptAsked = false) ∧
  (∃ (s : State) (d k i : Nat) (r : List Word) (l : List (List Word)),
    (dieAt s d).faultQueue = r :: l ∧ apexOf s d = some k ∧ freeOrdinary s k = some i ∧ keeperOf s d = none) ∧
  (∃ (s : State) (k : Nat) (b : Bool),
    coreExists k = true ∧ (coreAt s k).killed = false ∧ ((∀ i, i < 8 → (ctxOf s (8 * k + i)).lockstep = false)) ∧ gangsOn s k = []) ∧
  (∃ (s : State) (k : Nat) (b : Bool),
    let c := 8 * k + if b then (coreAt s k).turn else 0
    coreExists k = true ∧ (coreAt s k).killed = false ∧ ((∀ i, i < 8 → (ctxOf s (8 * k + i)).lockstep = false)) ∧ gangsOn s k = [] ∧ (dieAt s (dieOf (vertexOf k))).faultQueue.length < 256) ∧
  (∃ (s : State) (k : Nat) (b : Bool),
    (coreAt s k).killed = true) ∧
  (∃ (s : State) (k a : Nat),
    apexOf s (dieOf (vertexOf k)) = some a ∧ (coreAt s k).killed = true ∧ isExecute k = true ∧ gangsOn s k = []) ∧
  (∃ (s : State) (k a base r : Nat) (t0 : Token),
    apexOf s (dieOf (vertexOf k)) = some a ∧ (coreAt s k).killed = true ∧ s.tokens = [(base, some t0)] ∧ t0.base = base ∧ t0.lender = 0 ∧ isDeadAgent s k t0.holder = true ∧ s.graphs = [] ∧ s.gangs = [] ∧ s.claimed = [] ∧ (coreAt s k).inbox = [] ∧ (accountOf s t0.acct.toNat).recovery = some r) ∧
  (∃ (s : State) (k a : Nat) (q : Slot),
    apexOf s (dieOf (vertexOf k)) = some a ∧ (coreAt s k).killed = true ∧ s.tokens = [] ∧ s.graphs = [] ∧ s.gangs = [] ∧ (coreAt s k).inbox = [q] ∧ q.msg.pair = none ∧ q.msg.placed = none ∧ q.msg.cls ≠ 26) ∧
  (∃ (s : State) (k a : Nat) (p : PairRef),
    apexOf s (dieOf (vertexOf k)) = some a ∧ (coreAt s k).killed = true ∧ s.tokens = [] ∧ s.graphs = [] ∧ s.gangs = [] ∧ (coreAt s k).inbox = [] ∧ (coreAt s k).deque = [p] ∧ entriesOf s (.vertex (vertexOf k)) < 64) ∧
  (∃ (s : State) (base k i h : Nat) (t0 : Token) (r : Report),
    sget none s.tokens base = some t0 ∧ t0.base = base ∧ s.reclaimed.find? (fun r => r.base = base) = some r ∧ answerAt s t0 r true h = some (k, i) ∧ namesAgent h = true) ∧
  (∃ (s : State) (base k i h : Nat) (t0 : Token) (r : Report),
    sget none s.tokens base = some t0 ∧ t0.base = base ∧ s.reclaimed.find? (fun r => r.base = base) = some r ∧ answerAt s t0 r false h = some (k, i)) :=
  ⟨⟨at_ (fun x => { x with run := .trapped }) (id), 0, by decide +kernel⟩,
   ⟨hand id id, 0, by decide +kernel⟩,
   ⟨hand (fun x => { x with run := .trapped }) (id), 0, by decide +kernel⟩,
   ⟨at_ (fun x => { x with cip := true }) (id), 0, by decide +kernel⟩,
   ⟨at_ (fun x => { x with run := .trapped }) (id), 0, by decide +kernel⟩,
   ⟨hand (fun x => { x with run := .trapped }) (id), 0, slot0, by decide +kernel⟩,
   ⟨setDie base 0 { Die.reset with faultQueue := [[1, 2, 3, 4, 5, 6], [7]] }, 0, 1854, 0, [1, 2, 3, 4, 5, 6], [[7]], by decide +kernel⟩,
   ⟨at_ id id, 0, true, by decide +kernel⟩,
   ⟨at_ id id, 0, true, by decide +kernel⟩,
   ⟨modCore base 0 (fun k => { k with killed := true }), 0, true, by decide +kernel⟩,
   ⟨modCore (withTokens (at_ id id)) 0 (fun k => { k with killed := true, deque := [pair0], inbox := [slot0] }), 0, 1854, by decide +kernel⟩,
   ⟨{ modCore base 2 (fun k => { k with killed := true }) with tokens := [(0x10000, some { tok 0x10000 12 .exclusive (holderAgent 17) [] with wr := true })], accounts := [(0, { quota := 16, charge := 0, pool := [], recovery := some 5 })] }, 2, (apexOf base 0).getD 0, 0x10000, 5, { tok 0x10000 12 .exclusive (holderAgent 17) [] with wr := true }, by decide +kernel⟩,
   ⟨modCore base 2 (fun k => { k with killed := true, inbox := [{ slot0 with phase := .waiting }] }), 2, (apexOf base 0).getD 0, { slot0 with phase := .waiting }, by decide +kernel⟩,
   ⟨modCore base 2 (fun k => { k with killed := true, deque := [pair0] }), 2, (apexOf base 0).getD 0, pair0, by decide +kernel⟩,
   ⟨{ modCore (withTokens base) 1854 (fun k => { k with inbox := [{ slot0 with index := 2, phase := .waiting, msg := { msg0 with cls := 24, payload := [1, 5, 0, 0, 0, 0] } }] }) with reclaimed := [{ base := 0x10000, lsize := 12, taint := true, dead := 9, core := 0 }], tokens := [(0x10000, some (tok 0x10000 12 .exclusive (holderAgent 14832) []))] }, 0x10000, 1854, 2, 5, tok 0x10000 12 .exclusive (holderAgent 14832) [], { base := 0x10000, lsize := 12, taint := true, dead := 9, core := 0 }, by decide +kernel⟩,
   ⟨{ modCore (withTokens base) 1854 (fun k => { k with inbox := [{ slot0 with index := 2, phase := .waiting, msg := { msg0 with cls := 24, payload := [0, 5, 0, 0, 0, 0] } }] }) with reclaimed := [{ base := 0x10000, lsize := 12, taint := true, dead := 9, core := 0 }], tokens := [(0x10000, some (tok 0x10000 12 .exclusive (holderAgent 14832) []))] }, 0x10000, 1854, 2, 5, tok 0x10000 12 .exclusive (holderAgent 14832) [], { base := 0x10000, lsize := 12, taint := true, dead := 9, core := 0 }, by decide +kernel⟩⟩

theorem test_witness_Services :
  (∃ (s : State) (k j : Nat) (w0 w1 : Word),
    coreExists k = true ∧ j < 16 ∧ routineOk w0 w1 = true ∧ ((∀ i, i < 8 → (ctxOf s (8 * k + i)).hmode = false)) ∧ (coreAt s k).inbox = [] ∧ ((w1.getLsbD 63 = true → ∀ m, m < 16 → m ≠ j → routineValid (routineAt s k m) = true →
      routineClass (routineAt s k m) ≠ bits w1.toNat 62 58)) ∧ ((w1.getLsbD 63 = true → routineValid (routineAt s k j) = true → routineAcct (routineAt s k j) = bits w1.toNat 11 0))) ∧
  (∃ (s : State) (k j m : Nat) (w0 w1 : Word),
    w1.getLsbD 63 = true ∧ m < 16 ∧ m ≠ j ∧ routineValid (routineAt s k m) = true ∧ routineClass (routineAt s k m) = bits w1.toNat 62 58) ∧
  (∃ (s : State) (k j : Nat) (w0 w1 : Word),
    w1.getLsbD 63 = true ∧ routineValid (routineAt s k j) = true ∧ routineAcct (routineAt s k j) ≠ bits w1.toNat 11 0) ∧
  (∃ (s : State) (r : RuleWrite) (pa : Nat),
    ruleAddable s r = true ∧ rulePlace s r.index = some pa ∧ cxlGone s pa = false) ∧
  (∃ (s : State) (r : RuleWrite),
    ruleAddable s r = false) ∧
  (∃ (s : State) (i pa : Nat),
    i < 2 ^ s.ruleLog ∧ rulePlace s i = some pa ∧ cxlGone s pa = false) ∧
  (∃ (s : State) (k base : Nat),
    (canPush s k (pushesWaiting s k) = false ∨ deepens s k = false) ∧ inCommons s base (2 ^ 20) 0 = true) ∧
  (∃ (s : State) (k base : Nat),
    ((canPush s k (pushesWaiting s k) = true ∧ deepens s k = true) ∨ inCommons s base (2 ^ 20) 0 = false)) ∧
  (∃ (s : State) (c : Nat),
    firmwareUp s c = true ∧ (ctxOf s c).gang = none ∧ (coreAt s (coreOf c)).killed = false ∧ (ctxOf s c).run = .idle) ∧
  (∃ (s : State) (c : Nat),
    firmwareUp s c = true ∧ (ctxOf s c).gang = none ∧ (coreAt s (coreOf c)).killed = false ∧ (ctxOf s c).run = .ready ∧ (ctxOf s c).hmode = true) ∧
  (∃ (s : State) (c : Nat),
    (ctxOf s c).run = .reserved ∧ s.gangs = []) ∧
  (∃ (s : State) (h base size acct : Nat) (wire : Bool),
    h < 16 ∧ acct < 4096 ∧ size ≠ 0 ∧ base % 256 = 0 ∧ size % 256 = 0 ∧ base + size ≤ 2 ^ 50 ∧ inCommons s base size (BitVec.ofNat 12 acct) = true ∧ s.cellHeaps = [] ∧ s.wireHeaps = []) ∧
  (∃ (s : State) (h base size acct : Nat) (wire : Bool),
    (base % 256 ≠ 0 ∨ size % 256 ≠ 0 ∨ 2 ^ 50 < base + size ∨ inCommons s base size (BitVec.ofNat 12 acct) = false)) ∧
  (∃ (s : State) (acct base n : Nat),
    acct < 4096 ∧ base % 2 ^ n = 0 ∧ s.tokens = [] ∧ s.accounts = []) ∧
  (∃ (s : State) (g base r pa home : Nat) (leaf : Word),
    g < 16 ∧ base ≠ 0 ∧ base % 65536 = 0 ∧ (sget 0 s.batchRegs g = 0 ∨ sget 0 s.batchOwners g = r) ∧ translateNow s base true = .ok (pa, home, leaf)) ∧
  (∃ (s : State) (g base r : Nat),
    sget 0 s.batchRegs g ≠ 0 ∧ sget 0 s.batchOwners g ≠ r) ∧
  (∃ (s : State) (base : Nat) (t0 : Token),
    sget none s.tokens base = some t0 ∧ t0.base = base ∧ t0.mode ≠ .commons ∧ t0.lender = 0) ∧
  (∃ (s : State) (a k : Nat),
    0 < a ∧ a < 4096 ∧ isExecute k = true ∧ coreExists k = true) :=
  ⟨⟨base, 0, 3, (routineW 4).1, (routineW 4).2, by decide +kernel⟩,
   ⟨modCore base 0 (serves 3), 0, 5, 2, (routineW 3).1, (routineW 3).2, by decide +kernel⟩,
   ⟨modCore base 0 (serves 3), 0, 2, (routineW 3).1, (routineW 3).2 + 5, by decide +kernel⟩,
   ⟨{ base with ruleBase := 0x70000 }, { index := 8, w0 := 0x0005000100000001, w1 := 0x5000 }, 0x70080, by decide +kernel⟩,
   ⟨{ base with ruleBase := 0x70000 }, { index := 300, w0 := 0x0005000100000001, w1 := 0x5000 }, by decide +kernel⟩,
   ⟨{ writeMem { base with ruleBase := 0x70000 } 0x70080 [1, 2] with cores := [(0, { Core.reset with ruleCache := [(5, 1, 7, 8)] })] }, 8, 0x70080, by decide +kernel⟩,
   ⟨{ modCore base 0 (fun k => { k with deque := List.replicate 256 pair0, spillLimit := 100 }) with tokens := [(0x200000, some (tok 0x200000 21 .commons 0 []))] }, 0, 0x200000, by decide +kernel⟩,
   ⟨base, 0, 0x200000, by decide +kernel⟩,
   ⟨base, 5, by decide +kernel⟩,
   ⟨hand id id, 0, by decide +kernel⟩,
   ⟨modCtx base 5 (fun x => { x with run := .reserved }), 5, by decide +kernel⟩,
   ⟨commons base, 4, 0x20100, 0x200, 9, false, by decide +kernel⟩,
   ⟨commons base, 4, 0x20100, 0x210, 9, false, by decide +kernel⟩,
   ⟨base, 9, 0x40000, 16, by decide +kernel⟩,
   ⟨{ base with mem := base.mem ++ [(0x50008, 7)] }, 4, 0x50000, 6, 0x50000, translateTarget base 0x50000, leafT, by decide +kernel⟩,
   ⟨{ base with batchRegs := [(4, 0x50000)], batchOwners := [(4, 3)] }, 4, 0x60000, 6, by decide +kernel⟩,
   ⟨withTokens base, 0x10000, tokAt (withTokens base) 0x10000, by decide +kernel⟩,
   ⟨base, 9, 2, by decide +kernel⟩⟩

theorem test_witness_Aperture :
  (∃ (s : State) (q o n pa h : Nat),
    let a := s.host.apbase.toNat + o
    requestOk o n 4096 = true ∧ heldBack s q = false ∧ a % 256 + n ≤ 256 ∧ hostPlace s a false = some (pa, h) ∧ (reachL2 s .host h pa n 5 false).1 = true) ∧
  (∃ (s : State) (q o n pa h : Nat),
    let a := s.host.apbase.toNat + o
    requestOk o n 4096 = true ∧ heldBack s q = false ∧ a % 256 + n ≤ 256 ∧ hostPlace s a false = none) ∧
  (∃ (s : State) (q o pa h : Nat) (data : List Byte),
    let a := s.host.apbase.toNat + o
    requestOk o data.length 512 = true ∧ heldBack s q = false ∧ a % 256 + data.length ≤ 256 ∧ hostPlace s a true = some (pa, h) ∧ inRequestTable s a = false ∧ (reachL2 s .host h pa data.length 5 true).1 = true ∧ cxlGone s pa = false) ∧
  (∃ (s : State) (q o pa h : Nat) (data : List Byte),
    let a := s.host.apbase.toNat + o
    requestOk o data.length 512 = true ∧ heldBack s q = false ∧ a % 256 + data.length ≤ 256 ∧ hostPlace s a true = none) ∧
  (∃ (s : State) (q o pa h : Nat) (data : List Byte),
    let a := s.host.apbase.toNat + o
    requestOk o data.length 512 = true ∧ launchWaits s q = false ∧ a % 256 + data.length ≤ 256 ∧ hostPlace s a true = some (pa, h) ∧ inRequestTable s a = false ∧ (heldBack s q = true ∨ (reachL2 s .host h pa data.length 5 true).1 = false)) ∧
  (∃ (s : State) (q o pa h w : Nat),
    let a := s.host.apbase.toNat + o
    requestOk o 8 512 = true ∧ heldBack s q = false ∧ a % 256 = 0 ∧ pa % 256 = 0 ∧ hostPlace s a true = some (pa, h) ∧ inRequestTable s a = true ∧ (reachL2 s .host h pa 8 5 true).1 = true ∧ cxlGone s pa = false ∧ recordState s pa = 0 ∧ w < 2 ^ 64 ∧ w % 8 = 1) ∧
  (∃ (s : State) (q : Nat) (w : Word),
    heldBack s q = false ∧ bits w.toNat 35 0 = 0) ∧
  (∃ (s : State) (q : Nat) (w : Word),
    heldBack s q = false ∧ bits w.toNat 35 0 ≠ 0) ∧
  (∃ (s : State) (q : Nat) (w : Word),
    heldBack s q = false) ∧
  (∃ (s : State) (q : Nat) (w : Word),
    heldBack s q = false) ∧
  (∃ (s : State) (q : Nat) (w : Word) (i : Nat),
    heldBack s q = false ∧ i < 6) ∧
  (∃ (s : State) (q o n : Nat) (rest : List Turn),
    s.agenda = { cycles := 0, act := .outside (.controlRead q o n) } :: rest ∧ s.clockStopped = false ∧ requestOk o n 4096 = true ∧ o + n ≤ 2 ^ 24 ∧ heldBack s q = false ∧ o = 0 ∧ n = 8) ∧
  (∃ (s : State) (q o n : Nat) (rest : List Turn),
    s.agenda = { cycles := 0, act := .outside (.controlRead q o n) } :: rest ∧ s.clockStopped = false ∧ requestOk o n 4096 = true ∧ o + n ≤ 2 ^ 24 ∧ heldBack s q = false ∧ o = 0x18 ∧ n = 8) ∧
  (∃ (s : State) (q o n : Nat) (rest : List Turn),
    s.agenda = { cycles := 0, act := .outside (.controlRead q o n) } :: rest ∧ s.clockStopped = false ∧ requestOk o n 4096 = true ∧ o + n ≤ 2 ^ 24 ∧ heldBack s q = false ∧ 0x28 ≤ o) :=
  ⟨⟨l2Of (commons { base with mem := base.mem ++ [(0x20010, 0x77), (0x20011, 0x88)] }) 0x20000, 5, 0x20010, 4, 0x20010, homeSlice false 0 0x20000 % 2048, by decide +kernel⟩,
   ⟨l2Of (commons { base with mem := base.mem ++ [(0x20010, 0x77), (0x20011, 0x88)] }) 0x20000, 5, 0x10010, 4, 0, 0, by decide +kernel⟩,
   ⟨l2Of (commons { base with mem := base.mem ++ [(0x20010, 0x77), (0x20011, 0x88)] }) 0x20000, 5, 0x20010, 0x20010, homeSlice false 0 0x20000 % 2048, [1, 2, 3], by decide +kernel⟩,
   ⟨l2Of (commons { base with mem := base.mem ++ [(0x20010, 0x77), (0x20011, 0x88)] }) 0x20000, 5, 0x10010, 0, 0, [1, 2], by decide +kernel⟩,
   ⟨{ l2Of (commons { base with mem := base.mem ++ [(0x20010, 0x77), (0x20011, 0x88)] }) 0x20000 with host := { (l2Of (commons { base with mem := base.mem ++ [(0x20010, 0x77), (0x20011, 0x88)] }) 0x20000).host with posted := [(5, 0x30000, [1])] } }, 5, 0x20010, 0x20010, homeSlice false 0 0x20000 % 2048, [1, 2, 3], by decide +kernel⟩,
   ⟨l2Of (commons { base with mem := [(1, 0x10), (7, 0x80), (0x1006, 0xA0), (0x1007, 0xBE), (0x20004, 9), (0x20019, 0x30)] }) 0x20000, 5, 0x20000, 0x20000, homeSlice false 0 0x20000 % 2048, 0x500000001, by decide +kernel⟩,
   ⟨base, 5, 0x3000000000, by decide +kernel⟩,
   ⟨base, 5, 0x3000000008, by decide +kernel⟩,
   ⟨base, 5, 0x1234, by decide +kernel⟩,
   ⟨base, 5, 0x1234, by decide +kernel⟩,
   ⟨base, 5, 0x1234, 2, by decide +kernel⟩,
   ⟨{ base with agenda := [{ cycles := 0, act := .outside (.controlRead 5 0 8) }], host := { HostSide.reset with apbase := 0x3000000000, ringtail := 5, ringhead := 9 } }, 5, 0, 8, [], by decide +kernel⟩,
   ⟨{ base with agenda := [{ cycles := 0, act := .outside (.controlRead 5 0x18 8) }], host := { HostSide.reset with apbase := 0x3000000000, ringtail := 5, ringhead := 9 } }, 5, 0x18, 8, [], by decide +kernel⟩,
   ⟨{ base with agenda := [{ cycles := 0, act := .outside (.controlRead 5 0x80 48) }], host := { HostSide.reset with apbase := 0x3000000000, ringtail := 5, ringhead := 9 } }, 5, 0x80, 48, [], by decide +kernel⟩⟩

theorem test_witness_HostQueuesAndCommands :
  (∃ (s : State) (q : Nat) (w : Word),
    heldBack s q = false ∧ s.host.waitingLaunches = [] ∧ entriesOf s .host < 32 ∧ (∀ m ∈ s.messages, m.id < s.nextId)) ∧
  (∃ (s : State) (q : Nat) (w : Word),
    heldBack s q = false ∧ s.host.waitingLaunches = [] ∧ 32 ≤ entriesOf s .host) ∧
  (∃ (s : State) (id due : Nat) (f : MsgFlight),
    msgOf s id = some f ∧ f.home = .host ∧ f.phase = .backoff due ∧ due ≤ s.cycle) ∧
  (∃ (s : State) (q : Nat) (w : Word),
    heldBack s q = false) ∧
  (∃ (s : State) (q : Nat) (w : Word),
    heldBack s q = false ∧ s.host.backlog = [] ∧ s.host.resync = none) ∧
  (∃ (s : State) (q : Nat) (w : Word) (e : Word × Word),
    heldBack s q = false ∧ s.host.backlog = [e] ∧ s.host.resync = none ∧ (s.host.evtail.toNat + 1) % 256 ≠ (w.setWidth 32).toNat % 256) ∧
  (∃ (s : State) (q : Nat) (b : Word),
    heldBack s q = false ∧ s.host.command = none ∧ s.host.backlog = [] ∧ (apexOf s 0).isSome = true ∧ 1 ≤ eventRoom s ∧ ringPending s = 0) ∧
  (∃ (s : State) (q tag : Nat) (b : Word),
    heldBack s q = false ∧ s.host.command = none ∧ s.host.backlog = [] ∧ (apexOf s 0).isSome = true ∧ 2 ≤ eventRoom s ∧ ringPending s = 1 ∧ bits (ringWord s 0) 23 8 = tag ∧ (s.host.ringbase.toNat + 4096 ≤ b.toNat ∨ b.toNat + 4096 ≤ s.host.ringbase.toNat)) ∧
  (∃ (s : State) (q : Nat) (b : Word),
    heldBack s q = false ∧ s.host.command = none ∧ s.host.backlog = [] ∧ (apexOf s 0).isSome = true ∧ 1 ≤ eventRoom s ∧ ringPending s = 0 ∧ (s.host.evbase.toNat + 4096 ≤ b.toNat ∨ b.toNat + 4096 ≤ s.host.evbase.toNat)) ∧
  (∃ (s : State) (q : Nat) (b : Word),
    heldBack s q = false ∧ s.host.command ≠ none) ∧
  (∃ (s : State) (tag op status : Nat) (v : Word),
    s.host.command = some (tag, op, status, v) ∧ (apexOf s 0).isSome = true ∧ eventsFull s = false ∧ s.host.backlog = [] ∧ s.host.resync = none ∧ tag < 65536 ∧ status < 4) ∧
  (∃ (s : State) (tag va a : Nat),
    Commanded s 1 tag [s.root, va] ∧ leafPlace s (va % 2 ^ 53) 4 0 s.root = some a ∧ cxlGone s a = false) ∧
  (∃ (s : State) (tag a n : Nat),
    Commanded s 2 tag [a, n] ∧ 0 < a ∧ a < 4096 ∧ n < 2 ^ 32 ∧ (accountOf s a).charge ≤ n * 65536) ∧
  (∃ (s : State) (tag a n : Nat),
    Commanded s 2 tag [a, n] ∧ n * 65536 < (accountOf s a).charge) ∧
  (∃ (s : State) (tag b : Nat) (x : Word),
    Commanded s 3 tag [b, x.toNat] ∧ bits x.toNat 63 9 = 0) ∧
  (∃ (s : State) (tag : Nat),
    Commanded s 4 tag []) ∧
  (∃ (s : State) (tag a n : Nat),
    let image := bytesOf (hostRead s a n) n
    Commanded s 5 tag [a, n]) ∧
  (∃ (s : State) (tag b : Nat),
    Commanded s 6 tag [b] ∧ s.attestLeaf < 32768) ∧
  (∃ (s : State) (tag b : Nat),
    Commanded s 6 tag [b] ∧ 32768 ≤ s.attestLeaf) ∧
  (∃ (s : State) (tag w : Nat),
    Commanded s 7 tag [w] ∧ 1800 ≤ w ∧ w ≤ 2600) ∧
  (∃ (s : State) (tag w : Nat),
    Commanded s 7 tag [w] ∧ (w < 1800 ∨ 2600 < w)) ∧
  (∃ (s : State) (tag op : Nat),
    Commanded s op tag [] ∧ (op = 0 ∨ 7 < op) ∧ op < 256) :=
  ⟨⟨base, 5, 0x2003, by decide +kernel⟩,
   ⟨{ base with messages := (List.range 32).map (fun i => { mf .flying launch0 with id := i, home := .host }) }, 5, 0x2003, by decide +kernel⟩,
   ⟨post ({ mf (.backoff 60) launch0 with home := .host }) id, 7, 60, { mf (.backoff 60) launch0 with home := .host }, by decide +kernel⟩,
   ⟨base, 5, 9, by decide +kernel⟩,
   ⟨base, 5, 9, by decide +kernel⟩,
   ⟨{ base with host := { HostSide.reset with backlog := [(3, 4)], evbase := 0x2000, evhead := 1 } }, 5, 9, (3, 4), by decide +kernel⟩,
   ⟨{ base with host := { HostSide.reset with evbase := 0x9000 } }, 5, 0x5000, by decide +kernel⟩,
   ⟨ring 1 7 [], 5, 7, 0x5000, by decide +kernel⟩,
   ⟨{ base with host := { HostSide.reset with evbase := 0x9000 }, startHeader := (7, 8), startRecord := [(9, 10), (11, 12)] }, 5, 0x5000, by decide +kernel⟩,
   ⟨{ base with host := { HostSide.reset with command := some (1, 2, 0, 5) } }, 5, 0x5000, by decide +kernel⟩,
   ⟨{ base with host := { HostSide.reset with command := some (1, 2, 3, 5), evbase := 0x2000 } }, 1, 2, 3, 5, by decide +kernel⟩,
   ⟨{ ring 1 21 [0, 74565] with cores := [(0, { Core.reset with tlb := [tlb0] })], clusters := [(0, { Cluster.reset with tlb := [tlb0] })] }, 21, 0x12345, 0x1000, by decide +kernel⟩,
   ⟨ring 2 21 [9, 40], 21, 9, 40, by decide +kernel⟩,
   ⟨{ ring 2 21 [9, 40] with accounts := [(9, { quota := 90, charge := 0x300000, pool := [], recovery := none })] }, 21, 9, 40, by decide +kernel⟩,
   ⟨ring 3 21 [32768, 5], 21, 0x8000, 5, by decide +kernel⟩,
   ⟨{ ring 4 21 [] with startRecord := [(0x201, 5), (0xE02, 6)] }, 21, by decide +kernel⟩,
   ⟨ring 5 21 [32768, 64], 21, 0x8000, 64, by decide +kernel⟩,
   ⟨ring 6 21 [32768], 21, 0x8000, by decide +kernel⟩,
   ⟨{ ring 6 21 [32768] with attestLeaf := 32768 }, 21, 0x8000, by decide +kernel⟩,
   ⟨ring 7 21 [1800], 21, 1800, by decide +kernel⟩,
   ⟨ring 7 21 [1799], 21, 1799, by decide +kernel⟩,
   ⟨ring 8 21 [], 21, 8, by decide +kernel⟩⟩

theorem test_witness_PowerAndFabric :
  (∃ (s : State) (n k x : Nat) (rest : List Turn),
    s.agenda = { cycles := n, act := .issue k x } :: rest ∧ s.clockStopped = true) ∧
  (∃ (s : State) (d : Nat),
    d < 4 ∧ s.clockStopped = false) ∧
  (∃ (s : State),
    s.clockStopped = true) ∧
  (∃ (s : State) (d cause : Nat),
    d < 4 ∧ (cause = 1 ∨ cause = 2) ∧ s.host.backlog = [] ∧ eventsFull s = false) ∧
  (∃ (s : State) (p : Nat),
    p < 4 ∧ s.cxlDown.contains p = false ∧ s.host.backlog = [] ∧ eventsFull s = false) ∧
  (∃ (s : State) (p : Nat),
    s.portsUp.contains p = true) ∧
  (∃ (s : State) (p id : Nat) (f : Flight Regs),
    s.portsUp.contains p = true ∧ flightOf s id = some f ∧ usesPort s p f = true ∧ f.undo ≠ none ∧ f.back ≤ s.cycle ∧ f.ctx < 65536 ∧ (ctxOf s f.ctx).drain = none ∧ (coreAt s (coreOf f.ctx)).killed = false ∧ ((∀ h ∈ s.flights, h.ctx = f.ctx → h.id < f.id → h.posted = true ∧ h.done = true))) ∧
  (∃ (s : State),
    s.clockStopped = true ∧ 160000 ≤ (s.statStopped - s.noticeAt).toNat) ∧
  (∃ (s : State) (d : Nat),
    d ≠ s.device ∧ s.peersLost.contains d = false ∧ s.peersStopped.contains d = false) ∧
  (∃ (s : State) (d : Nat),
    (s.peersLost.contains d = true ∨ s.cycle + s.stoppedAll < sget 0 s.peerSeen d + 1600000)) ∧
  (∃ (s : State) (d : Nat),
    d ≠ s.device ∧ s.peersLost.contains d = false ∧ sget 0 s.peerSeen d + 1600000 ≤ s.cycle + s.stoppedAll ∧ s.host.backlog = [] ∧ eventsFull s = false) ∧
  (∃ (s : State) (d a base r : Nat) (t0 : Token),
    d ≠ s.device ∧ s.peersLost.contains d = false ∧ sget 0 s.peerSeen d + 1600000 ≤ s.cycle + s.stoppedAll ∧ apexOf s 0 = some a ∧ s.tokens = [(base, some t0)] ∧ t0.base = base ∧ t0.lender = 0 ∧ holderKind t0.holder = 1 ∧ holderVal t0.holder < 2 ^ 27 ∧ agentDevice (holderVal t0.holder) = d ∧ s.claimed = [] ∧ (accountOf s t0.acct.toNat).recovery = some r) ∧
  (∃ (s : State) (rest : List Turn) (d : Nat),
    s.agenda = { cycles := 0, act := .event (.peerLost d) } :: rest ∧ s.clockStopped = true) ∧
  (∃ (s : State) (rest : List Turn) (agent n pa home : Nat) (ref leaf : Word) (c : Nat) (x : BitVec 32),
    let va := ref.toNat % 2 ^ 53
    s.agenda = { cycles := 0, act := .outside (.serve agent ref (.load n false)) } :: rest ∧ s.clockStopped = false ∧ agentDevice agent ≠ s.device ∧ namesAgent agent = true ∧ ref.toNat / 2 ^ 53 = s.device ∧ va < 0x1FFFFF00000000 ∧ translateNow s va false = .ok (pa, home, leaf) ∧ leafWr leaf = true ∧ tokenCheckNow s [holderAgent agent] none va .read = some (c, x)) ∧
  (∃ (s : State) (rest : List Turn) (agent n pa home : Nat) (ref leaf : Word),
    let va := ref.toNat % 2 ^ 53
    s.agenda = { cycles := 0, act := .outside (.serve agent ref (.load n false)) } :: rest ∧ s.clockStopped = false ∧ agentDevice agent ≠ s.device ∧ namesAgent agent = true ∧ ref.toNat / 2 ^ 53 = s.device ∧ va < 0x1FFFFF00000000 ∧ translateNow s va false = .ok (pa, home, leaf) ∧ (leafWr leaf = false ∨ tokenCheckNow s [holderAgent agent] none va .read = none) ∧ cxlGone s pa = false ∧ (reachL2 s (.remote agent) (home % 2048) pa n (home / 2048) false).1 = true ∧ anyPoison s pa n = false) ∧
  (∃ (s : State) (cfg : StartConfig),
    s.startRecord = [] ∧ cfg.steps.length = 9 ∧ (∀ e ∈ cfg.steps, e.1 = true)) ∧
  (∃ (s : State) (cfg : StartConfig) (n c : Nat) (l : List (Bool × Nat × Nat)),
    cfg.steps = (false, n, c) :: l) ∧
  (∃ (s : State) (i : Nat),
    1 ≤ i ∧ i ≤ 9) :=
  ⟨⟨{ base with agenda := [{ cycles := 9, act := .issue 0 0 }], clockStopped := true }, 9, 0, 0, [], by decide +kernel⟩,
   ⟨base, 2, by decide +kernel⟩,
   ⟨{ base with clockStopped := true }, by decide +kernel⟩,
   ⟨base, 3, 1, by decide +kernel⟩,
   ⟨{ base with slices := [(0, { Slice.reset with ways := [(0, [some { line := 0x200000000, valid := 0xFF, dirty := 3, rrpv := 0, owed := [] }])] })] }, 1, by decide +kernel⟩,
   ⟨{ base with portsUp := [3, 4] }, 3, by decide +kernel⟩,
   ⟨{ modCtx base 0 (fun x => { x with run := .stalled .flights }) with portsUp := (List.range 16), flights := [{ fl 7 (.remoteRead 0x00A0000000000008 8 false 3 false) [] with undo := some Regs.reset }], nextId := 8 }, 5, 7, { fl 7 (.remoteRead 0x00A0000000000008 8 false 3 false) [] with undo := some Regs.reset }, by decide +kernel⟩,
   ⟨{ base with clockStopped := true, statStopped := 160000 }, by decide +kernel⟩,
   ⟨base, 4, by decide +kernel⟩,
   ⟨base, 4, by decide +kernel⟩,
   ⟨{ base with cycle := 1600000 }, 4, by decide +kernel⟩,
   ⟨{ base with cycle := 1600000, tokens := [(0x10000, some { tok 0x10000 12 .exclusive (holderAgent 262147) [] with wr := true })], accounts := [(0, { quota := 16, charge := 0, pool := [], recovery := some 5 })] }, 4, (apexOf base 0).getD 0, 0x10000, 5, { tok 0x10000 12 .exclusive (holderAgent 262147) [] with wr := true }, by decide +kernel⟩,
   ⟨{ base with clockStopped := true, agenda := [{ cycles := 0, act := .event (.peerLost 4) }] }, [], 4, by decide +kernel⟩,
   ⟨{ l2Of base 0x20000 with mem := base.mem ++ [(0x20000, 0x77), (0x20009, 3)], tokens := [(0x20000, some (tok 0x20000 16 .frozen (holderAgent 0x50008) []))], agenda := [{ cycles := 0, act := .outside (.serve 0x50000 0x20000 (.load 16 false)) }] }, [], 0x50000, 16, 0x20000, translateTarget ({ l2Of base 0x20000 with mem := base.mem ++ [(0x20000, 0x77), (0x20009, 3)], tokens := [(0x20000, some (tok 0x20000 16 .frozen (holderAgent 0x50008) []))], agenda := [{ cycles := 0, act := .outside (.serve 0x50000 0x20000 (.load 16 false)) }] }) 0x20000, 0x20000, leafT, cTokenNone, 0, by decide +kernel⟩,
   ⟨{ l2Of base 0x20000 with mem := base.mem ++ [(0x20000, 0x77), (0x20009, 3)], tokens := [(0x20000, some (tok 0x20000 16 .frozen (holderAgent 0x50008) []))], agenda := [{ cycles := 0, act := .outside (.serve 0x50008 0x20000 (.load 16 false)) }] }, [], 0x50008, 16, 0x20000, translateTarget ({ l2Of base 0x20000 with mem := base.mem ++ [(0x20000, 0x77), (0x20009, 3)], tokens := [(0x20000, some (tok 0x20000 16 .frozen (holderAgent 0x50008) []))], agenda := [{ cycles := 0, act := .outside (.serve 0x50008 0x20000 (.load 16 false)) }] }) 0x20000, 0x20000, leafT, by decide +kernel⟩,
   ⟨{ base with mem := base.mem ++ [(0x5000, 3)] }, { steps := List.replicate 9 (true, 1, 40), device := 3, root := 0x2000, ruleBase := 0x3000, ruleLog := 9, rows := [], spill := [], failing := [], cxl := [64], ports := [(1, [2])] }, by decide +kernel⟩,
   ⟨base, { steps := [(false, 3, 4), (true, 1, 1)], device := 3, root := 0x2000, ruleBase := 0x3000, ruleLog := 9, rows := [], spill := [], failing := [], cxl := [64], ports := [(1, [2])] }, 3, 4, [(true, 1, 1)], by decide +kernel⟩,
   ⟨base, 9, by decide +kernel⟩⟩

end Sys2Proof.Tests
end

