-- ==== Sys2Proof/Proofs/Placed.lean ====
section
/-! SUPPORT. Writes that an agent places at home slices inside its own step: what they leave alone, and the bytes that stand afterwards
(R97, R102, R161). -/

namespace Sys2Proof.Machine

/-! ### What a placed write may change -/

/-- From s to t only memory with its stamps and poison marks, the slices, and of a die its selectors may differ. -/
structure PlacedOnly (s t : State) : Prop where
  rest : t = { s with mem := t.mem, poisoned := t.poisoned, stamps := t.stamps, dies := t.dies, slices := t.slices }
  starts : ∀ d, (dieAt t d).lastStart = (dieAt s d).lastStart

namespace PlacedOnly

theorem refl (s : State) : PlacedOnly s s := ⟨rfl, fun _ => rfl⟩

theorem trans {s t u : State} (h : PlacedOnly s t) (k : PlacedOnly t u) : PlacedOnly s u :=
  ⟨k.rest.trans (congrArg (fun x : State => { x with mem := u.mem, poisoned := u.poisoned, stamps := u.stamps, dies := u.dies, slices := u.slices }) h.rest),
    fun d => (k.starts d).trans (h.starts d)⟩

/-- A fold of such changes is one. -/
theorem foldl {β : Type} {f : State → β → State} (hf : ∀ t x, PlacedOnly t (f t x)) (l : List β) : ∀ s : State, PlacedOnly s (l.foldl f s) := by
  induction l with
  | nil => exact refl
  | cons x l ih => exact fun s => (hf s x).trans (ih _)

variable {s t : State} (h : PlacedOnly s t)
include h

theorem graphs : t.graphs = s.graphs := by rw [h.rest]
theorem gangs : t.gangs = s.gangs := by rw [h.rest]
theorem clusters : t.clusters = s.clusters := by rw [h.rest]
theorem batches : t.batches = s.batches := by rw [h.rest]
theorem batchRegs : t.batchRegs = s.batchRegs := by rw [h.rest]
theorem releases : t.releases = s.releases := by rw [h.rest]
theorem messages : t.messages = s.messages := by rw [h.rest]
theorem cxlDown : t.cxlDown = s.cxlDown := by rw [h.rest]

theorem cxlGone (pa : Nat) : cxlGone t pa = Machine.cxlGone s pa := by simp [Machine.cxlGone, h.cxlDown]

end PlacedOnly

theorem setSlice_placed (s : State) (i : Nat) (x : Slice) : PlacedOnly s (setSlice s i x) := ⟨rfl, fun _ => rfl⟩

theorem moveSelector_placed (s : State) (slice line cls : Nat) : PlacedOnly s (moveSelector s slice line cls) := by
  refine ⟨rfl, fun d => ?_⟩
  unfold moveSelector
  dsimp only
  rw [dieAt_setDie]
  split
  · rename_i hd
    rw [hd]
  · rfl

theorem allocateL2_placed (s : State) (slice line cls : Nat) : PlacedOnly s (allocateL2 s slice line cls) :=
  (moveSelector_placed s slice line cls).trans (setSlice_placed _ _ _)

theorem modL2_placed (s : State) (slice line : Nat) (f : L2Line → L2Line) : PlacedOnly s (modL2 s slice line f) := setSlice_placed _ _ _

theorem touchL2_placed (s : State) (slice pa n cls : Nat) (write : Bool) : PlacedOnly s (touchL2 s slice pa n cls write) := by
  unfold touchL2
  split
  · exact .refl s
  · refine PlacedOnly.trans ?_ (modL2_placed _ _ _ _)
    split
    · exact allocateL2_placed _ _ _ _
    · exact .refl s

/-- The bookkeeping of a slice holds no byte. -/
@[simp] theorem touchL2_mem (s : State) (slice pa n cls : Nat) (write : Bool) : (touchL2 s slice pa n cls write).mem = s.mem := by
  unfold touchL2
  split
  · rfl
  · dsimp only [modL2, setSlice_mem]
    split
    · rfl
    · rfl

theorem setByte_placed (s : State) (a : Nat) (b : Byte) : PlacedOnly s (setByte s a b) := ⟨rfl, fun _ => rfl⟩

theorem bumpLine_placed (s : State) (line : Nat) : PlacedOnly s (bumpLine s line) := ⟨rfl, fun _ => rfl⟩

theorem writeMem_placed (l : List Byte) : ∀ (s : State) (pa : Nat), PlacedOnly s (writeMem s pa l) := by
  induction l with
  | nil => exact fun s _ => .refl s
  | cons b l ih => exact fun s pa => (setByte_placed s pa b).trans (ih (setByte s pa b) (pa + 1))

theorem clearFull_placed (s : State) (pa n : Nat) : PlacedOnly s (clearFull s pa n) := by
  refine PlacedOnly.foldl (fun t i => ?_) _ s
  dsimp only
  split
  · exact ⟨rfl, fun _ => rfl⟩
  · exact .refl t

theorem performWrite_placed (s : State) (pa : Nat) (l : List Byte) : PlacedOnly s (performWrite s pa l) := by
  unfold performWrite
  split
  · exact .refl s
  · exact ((writeMem_placed l s pa).trans (clearFull_placed _ _ _)).trans (.foldl (fun t i => bumpLine_placed t (pa / 256 + i)) _ _)

theorem placeWrite_placed (s : State) (pa home : Nat) (l : List Byte) : PlacedOnly s (placeWrite s pa home l) :=
  (touchL2_placed _ _ _ _ _ _).trans (performWrite_placed _ _ _)

/-! ### The bytes that stand afterwards -/

theorem memByte_placeWrite_inside {s : State} {pa : Nat} (home : Nat) {l : List Byte} (h : cxlGone s pa = false) {i : Nat} (hi : i < l.length) :
    memByte (placeWrite s pa home l) (pa + i) = l[i] := by
  rw [← memByte_writeMem_inside l (touchL2 s (home % 2048) pa l.length (home / 2048) true) pa i hi]
  refine memByte_congr ?_ _
  rw [placeWrite, performWrite_mem, (touchL2_placed _ _ _ _ _ _).cxlGone, h]
  rfl

theorem memByte_placeWrite_outside (s : State) {pa : Nat} (home : Nat) {l : List Byte} {a : Nat} (h : a < pa ∨ pa + l.length ≤ a) :
    memByte (placeWrite s pa home l) a = memByte s a := by
  rw [← memByte_congr (touchL2_mem s (home % 2048) pa l.length (home / 2048) true) a]
  unfold placeWrite memByte
  rw [performWrite_mem]
  split
  · rfl
  · exact memByte_writeMem_outside l _ pa a h

@[simp] theorem bytesOf_length (n : Nat) : ∀ x, (bytesOf x n).length = n := by
  induction n with
  | zero => intro x; rfl
  | succ n ih => intro x; simp [bytesOf, ih]

/-- Memory that holds the bytes of a number reads as that number. -/
theorem readMem_of_bytes {s : State} (n : Nat) : ∀ (pa x : Nat), (∀ i (h : i < (bytesOf x n).length), memByte s (pa + i) = (bytesOf x n)[i]) →
    readMem s pa n = x % 2 ^ (8 * n) := by
  induction n with
  | zero => intro pa x _; simp [readMem, Nat.mod_one]
  | succ n ih =>
    intro pa x h
    have low : memByte s pa = BitVec.ofNat 8 x := h 0 (by simp)
    have high : readMem s (pa + 1) n = x / 256 % 2 ^ (8 * n) := ih (pa + 1) (x / 256) (fun i hi => by
      have hi' : i + 1 < (bytesOf x (n + 1)).length := by simpa using hi
      rw [show pa + 1 + i = pa + (i + 1) by omega, h (i + 1) hi']
      rfl)
    rw [readMem, low, high, BitVec.toNat_ofNat, show 2 ^ (8 * (n + 1)) = 256 * 2 ^ (8 * n) by rw [Nat.mul_add, Nat.pow_add, Nat.mul_comm], Nat.mod_mul]

/-- A number placed in memory is read back. -/
theorem readMem_placeWrite {s : State} {pa : Nat} (home x n : Nat) (h : cxlGone s pa = false) :
    readMem (placeWrite s pa home (bytesOf x n)) pa n = x % 2 ^ (8 * n) :=
  readMem_of_bytes n pa x (fun _ hi => memByte_placeWrite_inside home h hi)

/-! ### Translations and node records read memory, the root and the sizes behind the CXL ports only -/

section
variable {s t : State} (hm : t.mem = s.mem)
include hm

theorem readMem_congr (n : Nat) : ∀ pa, readMem t pa n = readMem s pa n := by
  induction n with
  | zero => intro pa; rfl
  | succ n ih => intro pa; rw [readMem, readMem, ih, memByte_congr hm]

variable (hc : t.cxlSizes = s.cxlSizes)
include hc

theorem walkFrom_congr (va fuel : Nat) : ∀ l table, walkFrom t va fuel l table = walkFrom s va fuel l table := by
  induction fuel with
  | zero => intro l table; rfl
  | succ fuel ih =>
    intro l table
    have entry : ∀ e, readEntry t l va e = readEntry s l va e := by intro e; simp [readEntry, backed, hc]
    simp only [walkFrom, readMem_congr hm, entry, ih]

variable (hr : t.root = s.root)
include hr

theorem translateNow_congr (va : Nat) (write : Bool) : translateNow t va write = translateNow s va write := by
  simp only [translateNow, walkNow, walkFrom_congr hm hc, hr]

theorem nodeWord_congr (g : GraphRun) (i j : Nat) : nodeWord t g i j = nodeWord s g i j := by
  simp only [nodeWord, translateNow_congr hm hc hr, readMem_congr hm]

end

end Sys2Proof.Machine
end

