-- ==== Sys2Proof/Proofs/GraphNodes.lean ====
section
/-! SUPPORT. The nodes of a running graph after the walker's operations: a status written, a fault, a completion (R133, R189 to R191). -/

namespace Sys2Proof.Machine

/-! ### One node of a graph -/

/-- A graph with node i's status replaced. -/
def GraphRun.put (g : GraphRun) (i : Nat) (x : Node) : GraphRun := { g with nodes := sput Node.reset g.nodes i x }

@[simp] theorem nodeOf_put_self (g : GraphRun) (i : Nat) (x : Node) : nodeOf (g.put i x) i = x := sget_sput_self _ _ _ _
theorem nodeOf_put_ne (g : GraphRun) {i m : Nat} (x : Node) (h : m ≠ i) : nodeOf (g.put i x) m = nodeOf g m := sget_sput_ne _ _ _ h

@[simp] theorem graphOf_setGraph (s : State) (gi : Nat) (g : GraphRun) : graphOf (setGraph s gi g) gi = some g := by simp [graphOf, setGraph]

/-- Node n of a running graph stands in a state of Table 07-9. -/
structure NodeIn (s : State) (gi n : Nat) (g : GraphRun) (st : Nat) : Prop where
  graph : graphOf s gi = some g
  live : g.live = true
  count : n < g.count
  state : (nodeOf g n).state = st

/-- A graph's table entry changes nothing that a translation reads. -/
theorem translateNow_setGraph (s : State) (gi : Nat) (g : GraphRun) (va : Nat) (write : Bool) :
    translateNow (setGraph s gi g) va write = translateNow s va write := translateNow_congr rfl rfl rfl va write

/-! ### A status written -/

section
variable {s : State} {gi : Nat} {g : GraphRun} (hg : graphOf s gi = some g)
include hg

/-- The status word is placed where the status translates to. -/
theorem setNode_of_ok (i : Nat) (x : Node) {pa home : Nat} {leaf : Word} (h : translateNow s (g.statuses + 8 * i) true = .ok (pa, home, leaf)) :
    setNode s gi i x = placeWrite (setGraph s gi (g.put i x)) pa home (bytesOf (statusWord x) 8) := by
  simp only [setNode, hg, translateNow_setGraph, h]
  rfl

theorem setNode_placed (i : Nat) (x : Node) : PlacedOnly (setGraph s gi (g.put i x)) (setNode s gi i x) := by
  simp only [setNode, hg]
  split
  · exact placeWrite_placed _ _ _ _
  · exact .refl _

theorem graphOf_setNode (i : Nat) (x : Node) : graphOf (setNode s gi i x) gi = some (g.put i x) := by
  rw [graphOf, (setNode_placed hg i x).graphs]
  exact graphOf_setGraph s gi _

theorem setNode_messages (i : Nat) (x : Node) : (setNode s gi i x).messages = s.messages := (setNode_placed hg i x).messages
theorem setNode_batchRegs (i : Nat) (x : Node) : (setNode s gi i x).batchRegs = s.batchRegs := (setNode_placed hg i x).batchRegs
theorem batchOf_setNode (i n : Nat) (x : Node) : batchOf (setNode s gi i x) gi n = batchOf s gi n := by
  rw [batchOf, (setNode_placed hg i x).batches]
  rfl
theorem clusterAt_setNode (i v : Nat) (x : Node) : clusterAt (setNode s gi i x) v = clusterAt s v := by
  rw [clusterAt, (setNode_placed hg i x).clusters]
  rfl
theorem lastStart_setNode (i d : Nat) (x : Node) : (dieAt (setNode s gi i x) d).lastStart = (dieAt s d).lastStart := (setNode_placed hg i x).starts d

end

/-- The state stands in the three high bits of a status word (Table 07-9). -/
theorem statusWord_state (x : Node) (h : x.state < 8) : bits (statusWord x % 2 ^ 64) 63 61 = x.state := by
  have hv : x.value.toNat < 2 ^ 32 := x.value.isLt
  have hb : x.brc.toNat < 2 := Bool.toNat_lt x.brc
  simp only [statusWord, bits, Nat.shiftRight_eq_div_pow]
  omega

/-! ### The end of a graph, and a fault -/

theorem graphOf_settleGraph {s : State} {gi : Nat} {g : GraphRun} (hg : graphOf s gi = some g) :
    ∃ b, graphOf (settleGraph s gi) gi = some { g with live := b } := by
  simp only [settleGraph, hg]
  split
  · exact ⟨g.live, hg⟩
  · exact ⟨false, graphOf_setGraph s gi _⟩

theorem hostWrite_graphs (l : List Byte) : ∀ (s : State) (a : Nat), (hostWrite s a l).graphs = s.graphs := by
  induction l with
  | nil => exact fun _ _ => rfl
  | cons b l ih => exact fun s a => by rw [hostWrite, ih]

theorem hostEvent_graphs (s : State) (a b : Word) : (hostEvent s a b).graphs = s.graphs := by
  unfold hostEvent
  split
  · simp [writeEvent, hostWrite_graphs]
  · split
    · rfl
    · rfl

/-- A fault record changes no graph. -/
theorem reportFor_graphs (s : State) (k o a : Nat) (p : Word) (f : FaultInfo) : (reportFor s k o a p f).graphs = s.graphs := by
  unfold reportFor putRecord
  dsimp only
  split
  · rfl
  · rw [hostEvent_graphs]
    rfl

/-- A node that faults stands in state 4 with the fault's value, its graph names it, and every other node is as before. -/
theorem graphOf_faultNode {s : State} {gi : Nat} {g : GraphRun} (hg : graphOf s gi = some g) (i : Nat) (f : FaultInfo) (value : Nat) :
    ∃ h, graphOf (faultNode s gi i f value) gi = some h ∧ (nodeOf h i).state = 4 ∧ (nodeOf h i).value = BitVec.ofNat 32 value ∧
      h.faulted = some (i, f.code) ∧ ∀ m, m ≠ i → nodeOf h m = nodeOf g m := by
  let x : Node := { nodeOf g i with state := 4, value := BitVec.ofNat 32 value }
  have ends : ∃ b, graphOf (faultNode s gi i f value) gi = some { g.put i x with faulted := some (i, f.code), live := b } := by
    simp only [faultNode, hg, graphOf_setNode hg]
    refine graphOf_settleGraph (g := { g.put i x with faulted := some (i, f.code) }) ?_
    rw [graphOf, reportFor_graphs]
    exact graphOf_setGraph _ gi _
  obtain ⟨b, hb⟩ := ends
  have self : nodeOf (g.put i x) i = x := nodeOf_put_self g i x
  exact ⟨_, hb, congrArg Node.state self, congrArg Node.value self, rfl, fun m hm => nodeOf_put_ne g x hm⟩

/-! ### Completion: the node that completes stays complete -/

/-- Node n of graph gi stands in a state. -/
def NodeStands (gi n st : Nat) (s : State) : Prop := ∃ h, graphOf s gi = some h ∧ (nodeOf h n).state = st

theorem NodeStands.setNode {s : State} {gi n st i : Nat} {x : Node} (h : NodeStands gi n st s) (hx : i = n → x.state = st) :
    NodeStands gi n st (setNode s gi i x) := by
  obtain ⟨g, hg, hs⟩ := h
  refine ⟨g.put i x, graphOf_setNode hg i x, ?_⟩
  by_cases hi : n = i
  · rw [← hi, nodeOf_put_self]
    exact hx hi.symm
  · rw [nodeOf_put_ne g x hi]
    exact hs

theorem NodeStands.settleGraph {s : State} {gi n st : Nat} (h : NodeStands gi n st s) : NodeStands gi n st (settleGraph s gi) := by
  obtain ⟨g, hg, hs⟩ := h
  obtain ⟨b, hb⟩ := graphOf_settleGraph hg
  exact ⟨_, hb, hs⟩

/-- A fold whose every step keeps a property keeps it. -/
theorem foldl_keeps {β : Type} {P : State → Prop} {f : State → β → State} (hf : ∀ t x, P t → P (f t x)) (l : List β) :
    ∀ {s : State}, P s → P (l.foldl f s) := by
  induction l with
  | nil => exact id
  | cons x l ih => exact fun h => ih (hf _ x h)

/-- The same for a fold that is made under a condition. -/
theorem foldl_if_keeps {β : Type} {P : State → Prop} {f : State → β → State} {c : Prop} [Decidable c] (hf : ∀ t x, P t → P (f t x)) (l : List β)
    {s : State} (h : P s) : P (if c then l.foldl f s else s) := by
  split
  · exact foldl_keeps hf l h
  · exact h

/-- Credit goes to nodes in state 0 only. -/
theorem NodeStands.credit {gi n st : Nat} (hst : st ≠ 0) (fuel : Nat) :
    ∀ (l : List (Nat × Bool)) {s : State}, NodeStands gi n st s → NodeStands gi n st (credit gi fuel l s) := by
  induction fuel with
  | zero => exact fun _ _ h => h
  | succ fuel ih =>
    intro l s h
    cases l with
    | nil => exact h
    | cons e l =>
      obtain ⟨i, comp⟩ := e
      obtain ⟨g, hg, hs⟩ := h
      have other : ∀ {x : Node}, (nodeOf g i).state = 0 → NodeStands gi n st (Machine.setNode s gi i x) := fun h0 =>
        NodeStands.setNode ⟨g, hg, hs⟩ (fun hi => absurd (hs.symm.trans (hi ▸ h0)) hst)
      simp only [Machine.credit, hg]
      split
      · exact ih _ ⟨g, hg, hs⟩
      · rename_i h0
        have h0 : (nodeOf g i).state = 0 := by simpa using h0
        split
        · exact ih _ (other h0)
        · exact ih _ (other h0)

/-- Only a node in state 0 is skipped. -/
theorem NodeStands.skipNode {s : State} {gi n st : Nat} (hst : st ≠ 0) (h : NodeStands gi n st s) (i : Nat) : NodeStands gi n st (skipNode s gi i) := by
  obtain ⟨g, hg, hs⟩ := h
  simp only [Machine.skipNode, hg]
  split
  · exact ⟨g, hg, hs⟩
  · rename_i h0
    have h0 : (nodeOf g i).state = 0 := by simpa using h0
    exact .credit hst _ _ (.setNode ⟨g, hg, hs⟩ (fun hi => absurd (hs.symm.trans (hi ▸ h0)) hst))

/-- A node that completes stands in state 3 (R133). -/
theorem completeNode_stands {s : State} {gi : Nat} {g : GraphRun} (hg : graphOf s gi = some g) (n : Nat) (take : Nat → Bool) :
    NodeStands gi n 3 (completeNode s gi n take) := by
  simp only [completeNode, hg]
  have first : NodeStands gi n 3 (setNode s gi n { nodeOf g n with state := 3, changed := s.cycle, stage := false }) :=
    ⟨_, graphOf_setNode hg n _, by rw [nodeOf_put_self]⟩
  refine .settleGraph (foldl_if_keeps (fun u j hu => hu.skipNode (by decide) j) _ (.credit (by decide) _ _ (foldl_keeps (fun u j hu => ?_) _ first)))
  obtain ⟨k, hk, hs⟩ := hu
  rw [hk]
  exact .setNode ⟨k, hk, hs⟩ (fun hj => hj ▸ hs)

end Sys2Proof.Machine
end

