-- ==== Sys2Proof/Proofs/Walker.lean ====
section
/-! SUPPORT. The walker's events: a node becomes eligible, starts, is evaluated, seeds its net and completes (R133, R189 to R192, R397). -/

namespace Sys2Proof.Machine

theorem exec_nodeEligible (gi n : Nat) (s : State) : exec (.nodeEligible gi n) s = execNodeEligible gi n s := rfl
theorem exec_nodeStart (die : Nat) (s : State) : exec (.nodeStart die) s = execNodeStart die s := rfl
theorem exec_nodeEvaluate (gi n : Nat) (s : State) : exec (.nodeEvaluate gi n) s = execNodeEvaluate gi n s := rfl
theorem exec_netSeed (gi n : Nat) (s : State) : exec (.netSeed gi n) s = execNetSeed gi n s := rfl
theorem exec_nodeComplete (gi n : Nat) (s : State) : exec (.nodeComplete gi n) s = execNodeComplete gi n s := rfl

/-! ### A node becomes eligible -/

theorem nodeEligible_next {s : State} {gi n : Nat} {g : GraphRun} (hg : graphOf s gi = some g) (hl : g.live = true) (hn : n < g.count)
    (hp : nodePending s g n (nodeOf g n) = true) (hc : (nodeOf g n).changed < s.cycle) :
    exec (.nodeEligible gi n) s = .next (setNode s gi n { nodeOf g n with state := 1, stage := false, changed := s.cycle }) := by
  simp [exec_nodeEligible, execNodeEligible, hg, hl, hn, hp, hc]

/-- The status word that was placed is read back. -/
theorem readMem_setNode {s : State} {gi : Nat} {g : GraphRun} (hg : graphOf s gi = some g) (i : Nat) (x : Node) {pa home : Nat} {leaf : Word}
    (h : translateNow s (g.statuses + 8 * i) true = .ok (pa, home, leaf)) (hc : cxlGone s pa = false) :
    readMem (setNode s gi i x) pa 8 = statusWord x % 2 ^ 64 := by
  rw [setNode_of_ok hg i x h]
  exact readMem_placeWrite _ _ 8 hc

theorem nodeEligible_gives {s : State} {gi n : Nat} {g : GraphRun} (hg : graphOf s gi = some g) (hl : g.live = true) (hn : n < g.count)
    (hp : nodePending s g n (nodeOf g n) = true) (hc : (nodeOf g n).changed < s.cycle) :
    Gives (.nodeEligible gi n) s (fun t => (∃ h, graphOf t gi = some h ∧ (nodeOf h n).state = 1 ∧ ∀ m, m ≠ n → nodeOf h m = nodeOf g m) ∧
      ∀ pa home leaf, translateNow s (g.statuses + 8 * n) true = .ok (pa, home, leaf) → cxlGone s pa = false → bits (readMem t pa 8) 63 61 = 1) := by
  refine ⟨_, nodeEligible_next hg hl hn hp hc, ⟨_, graphOf_setNode hg n _, by rw [nodeOf_put_self], fun m hm => nodeOf_put_ne g _ hm⟩, ?_⟩
  intro pa home leaf ht hx
  rw [readMem_setNode hg n _ ht hx, statusWord_state _ (by simp)]

/-! ### The node that starts next -/

/-- The nodes of a graph that the walker of a die could start, each with its graph's number (R189). -/
def readyIn (s : State) (die gi : Nat) : List (Nat × Nat) :=
  match graphOf s gi with
  | some g => if g.live && g.die = die then (g.nodes.filter (fun e => e.2.state = 1 && (let k := nodeKind s g e.1
      k = 0 || k = 1 || k = 5))).map (fun e => (e.1, gi)) else []
  | none => []

theorem mem_readyIn {s : State} {die gi : Nat} {e : Nat × Nat} :
    e ∈ readyIn s die gi ↔ e.2 = gi ∧ ∃ g, graphOf s gi = some g ∧ g.live = true ∧ g.die = die ∧
      ∃ x, (e.1, x) ∈ g.nodes ∧ x.state = 1 ∧ (nodeKind s g e.1 = 0 ∨ nodeKind s g e.1 = 1 ∨ nodeKind s g e.1 = 5) := by
  unfold readyIn
  cases graphOf s gi with
  | none => simp
  | some g =>
    dsimp only
    split
    · rename_i here
      obtain ⟨hl, hd⟩ : g.live = true ∧ g.die = die := by simpa using here
      constructor
      · intro he
        obtain ⟨y, hy, rfl⟩ := List.mem_map.mp he
        obtain ⟨mem, runs⟩ := List.mem_filter.mp hy
        exact ⟨rfl, g, rfl, hl, hd, y.2, mem, by simpa [or_assoc] using runs⟩
      · rintro ⟨rfl, _, ⟨⟩, _, _, x, mem, runs⟩
        exact List.mem_map.mpr ⟨(e.1, x), List.mem_filter.mpr ⟨mem, by simpa [or_assoc] using runs⟩, rfl⟩
    · rename_i elsewhere
      refine iff_of_false (by simp) ?_
      rintro ⟨_, _, ⟨⟩, hl, hd, _⟩
      exact elsewhere (by simp [hl, hd])

/-- The earlier of two nodes by number; of equals the one that came first. -/
def lower (b : Option (Nat × Nat)) (e : Nat × Nat) : Option (Nat × Nat) :=
  match b with
  | some x => if e.1 < x.1 then some e else b
  | none => some e

/-- Of nodes in the order of their graphs `lower` leaves the one of the lowest number, of equals the one of the lowest graph. -/
theorem foldl_lower (l : List (Nat × Nat)) : ∀ x, (x :: l).Pairwise (fun a b => a.2 ≤ b.2) →
    ∃ r ∈ x :: l, l.foldl lower (some x) = some r ∧ ∀ e ∈ x :: l, r.1 < e.1 ∨ (r.1 = e.1 ∧ r.2 ≤ e.2) := by
  induction l with
  | nil => exact fun x _ => ⟨x, by simp, rfl, by simp⟩
  | cons y l ih =>
    intro x hx
    obtain ⟨hxl, hyl⟩ := List.pairwise_cons.mp hx
    obtain ⟨hy, hl⟩ := List.pairwise_cons.mp hyl
    have hxy : x.2 ≤ y.2 := hxl y (by simp)
    rw [List.foldl_cons, lower]
    split
    · rename_i lt
      obtain ⟨r, hr, hf, hmin⟩ := ih y hyl
      refine ⟨r, List.mem_cons_of_mem x hr, hf, fun e he => ?_⟩
      obtain rfl | he := List.mem_cons.mp he
      · have := hmin y (by simp)
        omega
      · exact hmin e he
    · rename_i ge
      obtain ⟨r, hr, hf, hmin⟩ := ih x (List.pairwise_cons.mpr ⟨fun a ha => hxl a (List.mem_cons_of_mem y ha), hl⟩)
      refine ⟨r, by simp only [List.mem_cons] at hr ⊢; tauto, hf, fun e he => ?_⟩
      have hrx := hmin x (by simp)
      simp only [List.mem_cons] at he
      obtain rfl | rfl | he := he
      · exact hrx
      · omega
      · exact hmin e (by simp [he])

theorem readyIn_ordered (s : State) (die : Nat) : ((List.range 64).flatMap (readyIn s die)).Pairwise (fun a b => a.2 ≤ b.2) := by
  refine List.pairwise_flatMap.mpr ⟨fun i _ => List.pairwise_of_forall_mem_list (fun a ha b hb => ?_), ?_⟩
  · rw [(mem_readyIn.mp ha).1, (mem_readyIn.mp hb).1]
  · refine List.pairwise_lt_range.imp (fun hij a ha b hb => ?_)
    rw [(mem_readyIn.mp ha).1, (mem_readyIn.mp hb).1]
    exact hij.le

theorem foldl_lower_of_nextToStart {s : State} {gi n : Nat} {g : GraphRun} (h : NextToStart s gi n g) :
    ((List.range 64).flatMap (readyIn s g.die)).foldl lower none = some (n, gi) := by
  obtain ⟨hg, hi, hl⟩ := h.run
  have mine : (n, gi) ∈ (List.range 64).flatMap (readyIn s g.die) :=
    List.mem_flatMap.mpr ⟨gi, List.mem_range.mpr hi, mem_readyIn.mpr ⟨rfl, g, hg, hl, rfl, _, h.node.1, h.node.2, h.kind⟩⟩
  have ordered := readyIn_ordered s g.die
  cases hr : (List.range 64).flatMap (readyIn s g.die) with
  | nil => simp [hr] at mine
  | cons x l =>
    rw [hr] at mine ordered
    obtain ⟨r, hmem, hf, hmin⟩ := foldl_lower l x ordered
    obtain ⟨gj, hj, hready⟩ := List.mem_flatMap.mp (hr ▸ hmem)
    obtain ⟨hrj, k, hk, hkl, hkd, y, hy, hys, hkind⟩ := mem_readyIn.mp hready
    have mine_first := h.first gj k (List.mem_range.mp hj) hk hkl hkd (r.1, y) hy hys hkind
    have r_first := hmin (n, gi) mine
    dsimp only at mine_first r_first
    rw [List.foldl_cons, lower, hf, show r = (n, gi) from Prod.ext (by omega) (by omega)]

/-- The walker of a die starts a node in this cycle. -/
def walkerStart (s : State) (die : Nat) : State := setDie s die { dieAt s die with lastStart := some s.cycle }

theorem nodeStart_next {s : State} {gi n : Nat} {g : GraphRun} (h : NextToStart s gi n g) :
    exec (.nodeStart g.die) s = .next (startNode (walkerStart s g.die) gi n g) := by
  have first := foldl_lower_of_nextToStart h
  rw [exec_nodeStart]
  unfold execNodeStart
  dsimp only
  split
  · rename_i none_first
    cases first.symm.trans none_first
  · rename_i m gj some_first
    cases first.symm.trans some_first
    rw [h.run.1]
    cases hc : (dieAt s g.die).lastStart with
    | none => rfl
    | some c =>
      have pace := h.pace c hc
      exact congrArg _ (if_neg (by simpa using pace))

/-! ### What a node does that starts -/

/-- A node in state 2. -/
def runNode (s : State) (gi n : Nat) (g : GraphRun) : State := setNode s gi n { nodeOf g n with state := 2, stage := false }

section
variable {s : State} {gi n : Nat} {g : GraphRun} (hp : nodePoisoned (runNode s gi n g) g n = false)
include hp

theorem startNode_runs (hk : nodeKind s g n = 0 ∨ (nodeKind s g n = 5 ∧ sget 0 (runNode s gi n g).batchRegs (nodeParam (runNode s gi n g) g n) ≠ 0)) :
    startNode s gi n g = runNode s gi n g := by
  rw [runNode] at hp hk ⊢
  obtain hk | ⟨hk, hb⟩ := hk
  · simp [startNode, hp, hk]
  · simp [startNode, hp, hk, hb]

variable (hk : nodeKind s g n = 1)
include hk

theorem startNode_gang {l : List Nat} (hl : gangClusters (nodeWord s g n 2) (bits (nodeWord s g n 0) 9 0) = some l)
    (fit : ∀ v ∈ l, (clusterAt (runNode s gi n g) v).unfit = false) :
    startNode s gi n g = { runNode s gi n g with
      gangs := sput none (runNode s gi n g).gangs (freeGang (runNode s gi n g)) (some (newGang g gi n l (nodeWord s g n))) } := by
  have none_unfit : l.any (fun v => (clusterAt (runNode s gi n g) v).unfit) = false := by simpa using fit
  rw [runNode] at hp none_unfit ⊢
  simp [startNode, hp, hk, hl, none_unfit]

theorem startNode_placement (h : gangClusters (nodeWord s g n 2) (bits (nodeWord s g n 0) 9 0) = none ∨
      ∃ l, gangClusters (nodeWord s g n 2) (bits (nodeWord s g n 0) 9 0) = some l ∧ ∃ v ∈ l, (clusterAt (runNode s gi n g) v).unfit = true) :
    startNode s gi n g = faultNode (runNode s gi n g) gi n { code := cPlacement } cPlacement := by
  rw [runNode] at hp h ⊢
  obtain h | ⟨l, hl, unfit⟩ := h
  · simp [startNode, hp, hk, h]
  · have some_unfit := List.any_eq_true.mpr unfit
    simp only [startNode, hp, hk, hl, some_unfit]
    rfl

end

section
variable {s : State} {gi n : Nat} {g : GraphRun} (h : NextToStart s gi n g) (hp : nodePoisoned (runNode (walkerStart s g.die) gi n g) g n = false)
include h hp

theorem nodeStart_runs (hk : nodeKind s g n = 0 ∨ (nodeKind s g n = 5 ∧ sget 0 s.batchRegs (nodeParam (runNode (walkerStart s g.die) gi n g) g n) ≠ 0)) :
    Gives (.nodeStart g.die) s (fun t => (dieAt t g.die).lastStart = some s.cycle ∧ ∃ h, graphOf t gi = some h ∧ (nodeOf h n).state = 2) := by
  have hg : graphOf (walkerStart s g.die) gi = some g := h.run.1
  have same : nodeKind (walkerStart s g.die) g n = nodeKind s g n := congrArg (bits · 63 60) (nodeWord_congr rfl rfl rfl g n 0)
  have regs : (runNode (walkerStart s g.die) gi n g).batchRegs = s.batchRegs := setNode_batchRegs hg n _
  refine ⟨_, (nodeStart_next h).trans (congrArg _ (startNode_runs hp (by rwa [same, regs]))), ?_, _, graphOf_setNode hg n _, by rw [nodeOf_put_self]⟩
  rw [runNode, lastStart_setNode hg, walkerStart, dieAt_setDie_self]

variable (hk : nodeKind s g n = 1)
include hk

theorem nodeStart_gang {l : List Nat} (hl : gangClusters (nodeWord s g n 2) (bits (nodeWord s g n 0) 9 0) = some l)
    (fit : ∀ v ∈ l, (clusterAt s v).unfit = false) :
    Gives (.nodeStart g.die) s (fun t => (∃ h, graphOf t gi = some h ∧ (nodeOf h n).state = 2) ∧
      ∃ i y, sget none t.gangs i = some y ∧ y.graph = some (gi, n) ∧ y.clusters = l ∧ y.members = [] ∧ y.started = false ∧
        y.entry = BitVec.ofNat 64 (nodeWord s g n 1) ∧ y.arg = BitVec.ofNat 64 (nodeWord s g n 3) ∧ y.acct = g.acct) := by
  have hg : graphOf (walkerStart s g.die) gi = some g := h.run.1
  have word : ∀ j, nodeWord (walkerStart s g.die) g n j = nodeWord s g n j := nodeWord_congr rfl rfl rfl g n
  have fit' : ∀ v ∈ l, (clusterAt (runNode (walkerStart s g.die) gi n g) v).unfit = false := fun v hv => by
    rw [runNode, clusterAt_setNode hg]
    exact fit v hv
  have starts := startNode_gang hp (by rwa [nodeKind, word]) (by rwa [word, word]) fit'
  refine ⟨_, (nodeStart_next h).trans (congrArg _ starts), ⟨_, graphOf_setNode hg n _, by rw [nodeOf_put_self]⟩,
    freeGang (runNode (walkerStart s g.die) gi n g), newGang g gi n l (nodeWord (walkerStart s g.die) g n), by simp, ?_⟩
  exact ⟨rfl, rfl, rfl, rfl, congrArg (BitVec.ofNat 64) (word 1), congrArg (BitVec.ofNat 64) (word 3), rfl⟩

theorem nodeStart_placement (hf : gangClusters (nodeWord s g n 2) (bits (nodeWord s g n 0) 9 0) = none ∨
      ∃ l, gangClusters (nodeWord s g n 2) (bits (nodeWord s g n 0) 9 0) = some l ∧ ∃ v ∈ l, (clusterAt s v).unfit = true) :
    Gives (.nodeStart g.die) s (fun t => ∃ h, graphOf t gi = some h ∧ (nodeOf h n).state = 4 ∧ h.faulted = some (n, cPlacement)) := by
  have hg : graphOf (walkerStart s g.die) gi = some g := h.run.1
  have word : ∀ j, nodeWord (walkerStart s g.die) g n j = nodeWord s g n j := nodeWord_congr rfl rfl rfl g n
  have cluster : ∀ v, clusterAt (runNode (walkerStart s g.die) gi n g) v = clusterAt s v := fun v => clusterAt_setNode hg n v _
  have faults := startNode_placement hp (by rwa [nodeKind, word]) (by simpa only [word, cluster] using hf)
  obtain ⟨k, hk, state, _, faulted, _⟩ := graphOf_faultNode (graphOf_setNode hg n _) n { code := cPlacement } cPlacement
  exact ⟨_, (nodeStart_next h).trans (congrArg _ faults), k, hk, state, faulted⟩

end

/-! ### A COND, SWITCH or LOOP is evaluated -/

theorem readWord_error {s : State} {ea c : Nat} (h : translateNow s (ea % 2 ^ 53) false = .error c ∨
      ∃ pa home leaf, translateNow s (ea % 2 ^ 53) false = .ok (pa, home, leaf) ∧ anyPoison s pa 4 = true ∧ c = cPoison) :
    readWord s ea = .error c := by
  obtain h | ⟨pa, home, leaf, h, hp, rfl⟩ := h
  · simp only [readWord, h]
  · simp only [readWord, h, hp, if_true]

/-- A node of a LOOP's body is reset before the body runs again (R190). -/
def clearNode (gi n : Nat) (t : State) (b : Nat) : State :=
  match graphOf t gi with
  | some h => let y := nodeOf h (n + 1 + b)
    setNode t gi (n + 1 + b) { y with state := 0, done := 0, complete := 0, runs := 0, stage := false }
  | none => t

/-- Of the k nodes behind node n the status is reset, every other node is as before. -/
theorem graphOf_foldl_clearNode {s : State} {gi : Nat} {g : GraphRun} (hg : graphOf s gi = some g) (n k : Nat) :
    ∃ h, graphOf ((List.range k).foldl (clearNode gi n) s) gi = some h ∧
      (∀ m, n < m → m ≤ n + k → (nodeOf h m).state = 0 ∧ (nodeOf h m).done = 0 ∧ (nodeOf h m).complete = 0 ∧ (nodeOf h m).runs = 0) ∧
      ∀ m, m ≤ n ∨ n + k < m → nodeOf h m = nodeOf g m := by
  induction k with
  | zero => exact ⟨g, hg, fun m lo hi => by omega, fun m _ => rfl⟩
  | succ k ih =>
    obtain ⟨h, hh, reset, kept⟩ := ih
    rw [List.range_succ, List.foldl_append, List.foldl_cons, List.foldl_nil, clearNode, hh]
    refine ⟨_, graphOf_setNode hh _ _, fun m lo hi => ?_, fun m hm => ?_⟩
    · by_cases last : m = n + 1 + k
      · rw [last, nodeOf_put_self]
        exact ⟨rfl, rfl, rfl, rfl⟩
      · rw [nodeOf_put_ne h _ last]
        exact reset m lo (by omega)
    · rw [nodeOf_put_ne h _ (by omega)]
      exact kept m (by omega)

section
variable {s : State} {gi n : Nat} {g : GraphRun} (h : NodeIn s gi n g 1) (hp : nodePoisoned s g n = false)
include h hp

theorem nodeEvaluate_unread {c : Nat} (h2 : 2 ≤ nodeKind s g n) (h4 : nodeKind s g n ≤ 4) (hw : readWord s (nodeWord s g n 1) = .error c) :
    exec (.nodeEvaluate gi n) s = .next (faultNode s gi n { code := c, addr := BitVec.ofNat 64 (nodeWord s g n 1) } c) := by
  simp [exec_nodeEvaluate, execNodeEvaluate, h.graph, h.live, h.count, h.state, h2, h4, hp, hw]

variable {w : Nat} (hw : readWord s (nodeWord s g n 1) = .ok w)
include hw

theorem nodeEvaluate_cond (hk : nodeKind s g n = 2) : exec (.nodeEvaluate gi n) s =
    .next (completeNode (setNode s gi n { nodeOf g n with value := BitVec.ofNat 32 w }) gi n (fun j => decide (j = if w = 0 then 1 else 0))) := by
  simp [exec_nodeEvaluate, execNodeEvaluate, h.graph, h.live, h.count, h.state, hk, hp, hw]

theorem nodeEvaluate_switch (hk : nodeKind s g n = 3) (hs : w < (nodeSuccs s g n).length) : exec (.nodeEvaluate gi n) s =
    .next (completeNode (setNode s gi n { nodeOf g n with value := BitVec.ofNat 32 w }) gi n (fun j => decide (j = w))) := by
  simp [exec_nodeEvaluate, execNodeEvaluate, h.graph, h.live, h.count, h.state, hk, hp, hw, hs]

theorem nodeEvaluate_switch_fault (hk : nodeKind s g n = 3) (hs : (nodeSuccs s g n).length ≤ w) : exec (.nodeEvaluate gi n) s =
    .next (faultNode s gi n { code := cIllegalEncoding, reason := 1, detail := BitVec.ofNat 64 w } cIllegalEncoding) := by
  simp [exec_nodeEvaluate, execNodeEvaluate, h.graph, h.live, h.count, h.state, hk, hp, hw, hs]

theorem nodeEvaluate_loop_end (hk : nodeKind s g n = 4) (he : w = 0 ∨ nodeWord s g n 2 ≤ (nodeOf g n).runs) : exec (.nodeEvaluate gi n) s =
    .next (completeNode (setNode s gi n { nodeOf g n with
      value := BitVec.ofNat 32 w, iter := ((nodeOf g n).iter + 1) % 65536, brc := decide (nodeWord s g n 2 ≤ (nodeOf g n).runs) })
      gi n (fun j => decide (j = 1))) := by
  simp [exec_nodeEvaluate, execNodeEvaluate, h.graph, h.live, h.count, h.state, hk, hp, hw, he]

theorem nodeEvaluate_loop_body (hk : nodeKind s g n = 4) (h0 : w ≠ 0) (hr : (nodeOf g n).runs < nodeWord s g n 2) {u : State}
    (hu : u = setNode s gi n { nodeOf g n with
      value := BitVec.ofNat 32 w, iter := ((nodeOf g n).iter + 1) % 65536, brc := false, runs := (nodeOf g n).runs + 1 }) :
    exec (.nodeEvaluate gi n) s =
      .next (completeNode ((List.range (nodeParam u g n)).foldl (clearNode gi n) u) gi n (fun j => decide (j = 0))) := by
  have full : ¬ nodeWord s g n 2 ≤ (nodeOf g n).runs := by omega
  subst hu
  simp only [exec_nodeEvaluate, execNodeEvaluate, h.graph, h.live, h.count, h.state, hk, hp, hw, h0, full]
  rfl

end

/-- The body of a LOOP runs again: its nodes are reset, the count of runs and the iteration rise (R190). -/
theorem nodeEvaluate_loop_again {s : State} {gi n w : Nat} {g : GraphRun} (h : NodeIn s gi n g 1) (hp : nodePoisoned s g n = false)
    (hw : readWord s (nodeWord s g n 1) = .ok w) (hk : nodeKind s g n = 4) (h0 : w ≠ 0) (hr : (nodeOf g n).runs < nodeWord s g n 2) {u : State}
    (hu : u = setNode s gi n { nodeOf g n with
      value := BitVec.ofNat 32 w, iter := ((nodeOf g n).iter + 1) % 65536, brc := false, runs := (nodeOf g n).runs + 1 }) :
    ∃ t h, graphOf t gi = some h ∧ (nodeOf h n).state = 1 ∧ (nodeOf h n).iter = ((nodeOf g n).iter + 1) % 65536 ∧
      (nodeOf h n).runs = (nodeOf g n).runs + 1 ∧ (nodeOf h n).brc = false ∧ (nodeOf h n).value = BitVec.ofNat 32 w ∧
      (∀ m, n < m → m ≤ n + nodeParam u g n → (nodeOf h m).state = 0 ∧ (nodeOf h m).done = 0 ∧ (nodeOf h m).complete = 0 ∧ (nodeOf h m).runs = 0) ∧
      (∀ m, m < n ∨ n + nodeParam u g n < m → nodeOf h m = nodeOf g m) ∧
      exec (.nodeEvaluate gi n) s = .next (completeNode t gi n (fun j => decide (j = 0))) := by
  have hgu := graphOf_setNode h.graph n { nodeOf g n with
      value := BitVec.ofNat 32 w, iter := ((nodeOf g n).iter + 1) % 65536, brc := false, runs := (nodeOf g n).runs + 1 }
  rw [← hu] at hgu
  obtain ⟨k, hk', reset, kept⟩ := graphOf_foldl_clearNode hgu n (nodeParam u g n)
  have self := (kept n (.inl (Nat.le_refl n))).trans (nodeOf_put_self g n _)
  refine ⟨_, k, hk', ?_, ?_, ?_, ?_, ?_, reset, fun m hm => ?_, nodeEvaluate_loop_body h hp hw hk h0 hr hu⟩
  · rw [self]
    exact h.state
  · rw [self]
  · rw [self]
  · rw [self]
  · rw [self]
  · rw [kept m (by omega), nodeOf_put_ne g _ (by omega)]

/-! ### A NET node seeds its pair -/

/-- A pair that leaves a vertex is one message more (R397). -/
theorem sendPair_messages (s : State) (v : Nat) (p : PairRef) :
    ∃ m, (sendPair s v p).messages = s.messages ++ [m] ∧ m.msg.pair = some p ∧ m.home = .vertex v :=
  ⟨_, rfl, rfl, rfl⟩

/-- The pair of an inline ROOT and the seed cell of a NET node (R397). -/
def netPair (s : State) (gi n : Nat) (g : GraphRun) : PairRef :=
  let w := nodeWord s g n
  let root := BitVec.ofNat 64 (4 * 2 ^ 61 + 2)
  let cell := cellRef s.device (w 1 % 2 ^ 50)
  { first := root, second := cell, radius := radiusOf s root cell
    seed := some (BitVec.ofNat 64 (w 2), BitVec.ofNat 64 (gi * 4096 + n), BitVec.ofNat 12 (w 3)) }

section
variable {s : State} {gi n : Nat} {g : GraphRun} (h : NodeIn s gi n g 2) (hk : nodeKind s g n = 0) (hs : (nodeOf g n).stage = false)
include h hk hs

theorem netSeed_next :
    exec (.netSeed gi n) s = .next (sendPair (setNode s gi n { nodeOf g n with stage := true }) (apexVertex g.die) (netPair s gi n g)) := by
  rw [exec_netSeed, execNetSeed, h.graph]
  exact congrArg _ (if_neg (by simp [h.live, h.count, h.state, hk, hs]))

theorem netSeed_gives :
    Gives (.netSeed gi n) s (fun t => ∃ m p, t.messages = s.messages ++ [m] ∧ m.msg.pair = some p ∧ m.home = .vertex (apexVertex g.die) ∧
      p.first = BitVec.ofNat 64 (4 * 2 ^ 61 + 2) ∧ p.second = cellRef s.device (nodeWord s g n 1 % 2 ^ 50) ∧
      p.seed = some (BitVec.ofNat 64 (nodeWord s g n 2), BitVec.ofNat 64 (gi * 4096 + n), BitVec.ofNat 12 (nodeWord s g n 3))) := by
  obtain ⟨m, hm, hpair, home⟩ := sendPair_messages (setNode s gi n { nodeOf g n with stage := true }) (apexVertex g.die) (netPair s gi n g)
  exact ⟨_, netSeed_next h hk hs, m, _, hm.trans (by rw [setNode_messages h.graph]), hpair, home, rfl, rfl, rfl⟩

end

/-! ### A STEP or a GANG completes -/

theorem nodeComplete_step {s : State} {gi n : Nat} {g : GraphRun} (h : NodeIn s gi n g 2) (hk : nodeKind s g n = 5) (hs : (nodeOf g n).stage = true) :
    exec (.nodeComplete gi n) s = .next (completeNode s gi n (fun _ => true)) := by
  simp [exec_nodeComplete, execNodeComplete, h.graph, h.live, h.count, h.state, hk, hs]

theorem nodeComplete_gang {s : State} {gi n i : Nat} {g : GraphRun} {y : Gang} (h : NodeIn s gi n g 2) (hk : nodeKind s g n = 1)
    (only : s.gangs = [(i, some y)]) (hy : y.graph = some (gi, n)) (hs : y.started = true) (he : ∀ e ∈ y.members, e.1 ∈ y.ended) :
    exec (.nodeComplete gi n) s =
      .next (completeNode (nodeFlush { s with gangs := [] } gi (y.members.map (fun m => coreOf m.2)).dedup) gi n (fun _ => true)) := by
  have gone : setGang s i none = { s with gangs := [] } := by simp [setGang, only, sput]
  have all_ended : y.members.all (fun e => y.ended.contains e.1) = true := by simpa using he
  simp only [exec_nodeComplete, execNodeComplete, h.graph, h.live, h.count, h.state, hk, only, List.find?_cons, hy, hs, all_ended, gone,
    decide_true, Bool.and_self, Bool.not_true, Bool.false_eq_true, if_false, if_true]

end Sys2Proof.Machine
end

