-- ==== Sys2Proof/Proofs/BatchFormer.lean ====
section
/-! SUPPORT. The batch former of a STEP node, access by access (R189, R196, R197; logs 67, 119). -/

namespace Sys2Proof.Machine

theorem exec_batchStep (gi n : Nat) (s : State) : exec (.batchStep gi n) s = execBatchStep gi n s := rfl

@[simp] theorem batchOf_setBatch_self (s : State) (gi n : Nat) (b : Option BatchRun) : batchOf (setBatch s gi n b) gi n = b := by
  simp [batchOf, setBatch]

/-! ### One piece of a running node's batch former -/

section
variable {s : State} {gi n : Nat} {g : GraphRun} (h : NodeIn s gi n g 2) (hk : nodeKind s g n = 5) (hs : (nodeOf g n).stage = false)
  (ht : (nodeOf g n).changed + 63 ≤ s.cycle)
include h hk hs ht

/-- The batch former begins. -/
theorem batchStep_begins {u : State} {d : BatchRun} (hb : batchOf s gi n = none) (hp : newBatch s (nodeParam s g n) = .ok (u, d))
    (hd : d.phase ≠ .done) : exec (.batchStep gi n) s = .next (setBatch u gi n (some d)) := by
  have late : ¬ s.cycle < (nodeOf g n).changed + 63 := by omega
  simp [exec_batchStep, execBatchStep, h.graph, h.live, h.count, h.state, hk, hs, late, hb, hp, hd]

variable {b : BatchRun} (hb : batchOf s gi n = some b)
include hb

theorem batchStep_goes_on {u : State} {d : BatchRun} (hp : batchPiece s (nodeParam s g n) (nodeWord s g n 3 % 2 ^ 32) b = .ok (u, d))
    (hd : d.phase ≠ .done ∨ d.todo ≠ []) : exec (.batchStep gi n) s = .next (setBatch u gi n (some d)) := by
  have late : ¬ s.cycle < (nodeOf g n).changed + 63 := by omega
  have more : (d.phase = .done && d.todo.isEmpty) = false := by simpa [imp_iff_not_or] using hd
  simp only [exec_batchStep, execBatchStep, h.graph, h.live, h.count, h.state, hk, hs, late, hb, hp, more]
  rfl

theorem batchStep_ends {u : State} {d : BatchRun} (hp : batchPiece s (nodeParam s g n) (nodeWord s g n 3 % 2 ^ 32) b = .ok (u, d))
    (hd : d.phase = .done) (hl : d.todo = []) :
    exec (.batchStep gi n) s = .next (setNode (setBatch u gi n none) gi n { nodeOf g n with stage := true }) := by
  have late : ¬ s.cycle < (nodeOf g n).changed + 63 := by omega
  simp only [exec_batchStep, execBatchStep, h.graph, h.live, h.count, h.state, hk, hs, late, hb, hp, hd, hl]
  rfl

theorem batchStep_faults {c va : Nat} (hp : batchPiece s (nodeParam s g n) (nodeWord s g n 3 % 2 ^ 32) b = .error (c, va)) :
    exec (.batchStep gi n) s = .next (faultNode (setBatch s gi n none) gi n { code := c, addr := BitVec.ofNat 64 (homeWord s va) } c) := by
  have late : ¬ s.cycle < (nodeOf g n).changed + 63 := by omega
  simp only [exec_batchStep, execBatchStep, h.graph, h.live, h.count, h.state, hk, hs, late, hb, hp]
  rfl

end

/-! ### What the pieces are -/

theorem newBatch_ok {s : State} {q pa home : Nat} {leaf : Word} (h : translateNow s ((sget 0 s.batchRegs q + 0x8080) % 2 ^ 53) true = .ok (pa, home, leaf))
    (hp : anyPoison s pa 128 = false) :
    newBatch s q = .ok (touchL2 { s with releases := sput [] s.releases q [] } (home % 2048) pa 128 (home / 2048) false,
      { phase := .release, area := sget 0 s.batchRegs q, returns := sget [] s.releases q, queue := sget [] s.admission q, barred := readMem s pa 128,
        slots := [], freed := [], todo := [], recs := [] }) := by
  simp only [newBatch, batchPlace, h, hp]
  rfl

theorem batchPiece_bytes {s : State} {b : BatchRun} {va pa home : Nat} {data : List Byte} {l : List BatchAccess} {leaf : Word} (q count : Nat)
    (hb : b.todo = .bytes va data :: l) (h : translateNow s (va % 2 ^ 53) true = .ok (pa, home, leaf)) :
    batchPiece s q count b = .ok (placeWrite s pa home data, { b with todo := l }) := by
  simp only [batchPiece, hb, batchAccess, batchPlace, h]
  rfl

/-- The writes that clear the map from byte `start` of the slot area on, one to each line (R131, R189). -/
def clearWrites (area start : Nat) : List BatchAccess :=
  ((List.range 256).filter (fun j => start < 256 * j + 256)).map (fun j =>
    let lo := max start (256 * j)
    BatchAccess.bytes (area + lo) (List.replicate (256 * j + 256 - lo) 0))

theorem batchPiece_last {s : State} {b : BatchRun} {off : Nat} (q count : Nat) (hb : b.todo = []) (hp : b.phase = .last off) :
    batchPiece s q count b = .ok (s, { b with phase := .done, todo := clearWrites b.area (0x8100 + 2 * off) }) := by
  simp only [batchPiece, hb, batchDecide, hp]
  rfl

/-- Every byte from `start` to the end of the slot area is in one of the writes that clear it. -/
theorem clearWrites_cover (area : Nat) {start e : Nat} (lo : start ≤ e) (hi : e < 65536) :
    ∃ va z, BatchAccess.bytes va (List.replicate z 0) ∈ clearWrites area start ∧ va ≤ area + e ∧ area + e < va + z := by
  refine ⟨area + max start (256 * (e / 256)), 256 * (e / 256) + 256 - max start (256 * (e / 256)), ?_, by omega, by omega⟩
  exact List.mem_map.mpr ⟨e / 256, List.mem_filter.mpr ⟨List.mem_range.mpr (by omega), by simp; omega⟩, rfl⟩

/-! ### What they leave -/

section
variable {s : State} {gi n : Nat} {g : GraphRun} (h : NodeIn s gi n g 2) (hk : nodeKind s g n = 5) (hs : (nodeOf g n).stage = false)
  (ht : (nodeOf g n).changed + 63 ≤ s.cycle)
include h hk hs ht

theorem batchStep_new {q pa home : Nat} {leaf : Word} (hq : q = nodeParam s g n) (hb : batchOf s gi n = none)
    (hx : translateNow s ((sget 0 s.batchRegs q + 0x8080) % 2 ^ 53) true = .ok (pa, home, leaf)) (hp : anyPoison s pa 128 = false) :
    Gives (.batchStep gi n) s (fun t => sget [] t.releases q = [] ∧ MemKept s t ∧ ∃ b, batchOf t gi n = some b ∧ b.area = sget 0 s.batchRegs q ∧
      b.queue = sget [] s.admission q ∧ b.returns = sget [] s.releases q ∧ b.barred = readMem s pa 128) := by
  subst hq
  have emptied := (touchL2_placed { s with releases := sput [] s.releases (nodeParam s g n) [] } (home % 2048) pa 128 (home / 2048) false).releases
  refine ⟨_, batchStep_begins h hk hs ht hb (newBatch_ok hx hp) (by simp), ?_, memByte_congr (touchL2_mem _ _ _ _ _ _), _,
    batchOf_setBatch_self _ _ _ _, rfl, rfl, rfl, rfl⟩
  exact (congrArg (sget [] · (nodeParam s g n)) emptied).trans (by simp)

variable {b : BatchRun} (hb : batchOf s gi n = some b)
include hb

theorem batchStep_done {u : State} {d : BatchRun} (hp : batchPiece s (nodeParam s g n) (nodeWord s g n 3 % 2 ^ 32) b = .ok (u, d))
    (hd : d.phase = .done) (hl : d.todo = []) {k : GraphRun} (hu : graphOf u gi = some k) :
    Gives (.batchStep gi n) s (fun t => batchOf t gi n = none ∧ ∃ h, graphOf t gi = some h ∧ (nodeOf h n).stage = true) := by
  have hu' : graphOf (setBatch u gi n none) gi = some k := hu
  refine ⟨_, batchStep_ends h hk hs ht hb hp hd hl, ?_, _, graphOf_setNode hu' n _, by rw [nodeOf_put_self]⟩
  rw [batchOf_setNode hu', batchOf_setBatch_self]

theorem batchStep_bytes {va pa home : Nat} {data : List Byte} {l : List BatchAccess} {leaf : Word} (hl : b.todo = .bytes va data :: l)
    (hx : translateNow s (va % 2 ^ 53) true = .ok (pa, home, leaf)) (hc : cxlGone s pa = false) (hd : b.phase ≠ .done ∨ l ≠ []) :
    Gives (.batchStep gi n) s (fun t => batchOf t gi n = some { b with todo := l } ∧
      (∀ i, i < data.length → memByte t (pa + i) = data.getD i 0) ∧ ∀ a, a < pa ∨ pa + data.length ≤ a → memByte t a = memByte s a) := by
  refine ⟨_, batchStep_goes_on h hk hs ht hb (batchPiece_bytes _ _ hl hx) hd, batchOf_setBatch_self _ _ _ _, fun i hi => ?_, fun a ha => ?_⟩
  · rw [List.getD_eq_getElem _ _ hi]
    exact memByte_placeWrite_inside home hc hi
  · exact memByte_placeWrite_outside s home ha

theorem batchStep_clears {off : Nat} (hl : b.todo = []) (hp : b.phase = .last off) (ho : 0x8100 + 2 * off < 65536) :
    Gives (.batchStep gi n) s (fun t => MemKept s t ∧ ∃ d, batchOf t gi n = some d ∧ d.phase = .done ∧ ∀ e, 0x8100 + 2 * off ≤ e → e < 65536 →
      ∃ va z, BatchAccess.bytes va (List.replicate z 0) ∈ d.todo ∧ va ≤ b.area + e ∧ b.area + e < va + z) := by
  have some_left : clearWrites b.area (0x8100 + 2 * off) ≠ [] := by
    obtain ⟨va, z, mem, _⟩ := clearWrites_cover b.area (Nat.le_refl _) ho
    exact List.ne_nil_of_mem mem
  exact ⟨_, batchStep_goes_on h hk hs ht hb (batchPiece_last _ _ hl hp) (.inr some_left), fun _ => rfl, _, batchOf_setBatch_self _ _ _ _, rfl,
    fun e lo hi => clearWrites_cover b.area lo hi⟩

end

end Sys2Proof.Machine
end

