-- ==== Sys2Proof/Proofs/GraphWalker.lean ====
section
/-! SUPPORT. The graph walker's statement, from the laws of its events. -/

namespace Sys2Proof.Machine

theorem gangClusters_of_le {first n : Nat} (h : 32 * bits first 8 5 + bits first 4 0 + n ≤ 512) :
    gangClusters first n = some ((List.range n).map (fun i =>
      mkVertex ((32 * bits first 8 5 + bits first 4 0 + i) % 32) ((32 * bits first 8 5 + bits first 4 0 + i) / 32))) :=
  if_neg (by omega)

theorem gangClusters_of_lt {first n : Nat} (h : 512 < 32 * bits first 8 5 + bits first 4 0 + n) : gangClusters first n = none := if_pos h

/-- Settles O54: each event is computed once, the node of the lowest number is found by an induction over the eligible nodes, a LOOP's body by
one over its length, and the node that completes is kept in state 3 by everything that a completion credits. -/
theorem graphWalker : Obligations.GraphWalker := by
  unfold Obligations.GraphWalker
  refine ⟨?eligible, ?starts, ?unread, ?evaluates, ?seeds, ?batches, ?completes, ?complete⟩
  case eligible => exact fun s gi n g hg hl hn hp hc => nodeEligible_gives hg hl hn hp hc
  case starts =>
    intro s gi n g next u v0 size l hp
    refine ⟨nodeStart_runs next hp, fun hk inside fit => nodeStart_gang next hp hk (gangClusters_of_le inside) fit, ?_⟩
    intro hk outside
    refine nodeStart_placement next hp hk ?_
    by_cases inside : v0 + size ≤ 512
    · exact .inr ⟨l, gangClusters_of_le inside, outside.resolve_left (by omega)⟩
    · exact .inl (gangClusters_of_lt (by omega))
  case unread =>
    intro s gi n c pa home g leaf hg hl hn hst h2 h4 hp hw
    have unread : readWord s (nodeWord s g n 1) = .error c := readWord_error (hw.imp_right fun h => ⟨pa, home, leaf, h⟩)
    have faults := nodeEvaluate_unread ⟨hg, hl, hn, hst⟩ hp h2 h4 unread
    obtain ⟨k, hk, state, value, faulted, others⟩ := graphOf_faultNode hg n { code := c, addr := BitVec.ofNat 64 (nodeWord s g n 1) } c
    exact ⟨faults, _, faults, k, hk, state, value, faulted, others⟩
  case evaluates =>
    intro s gi n w g hg hl hn hst hp hw
    have node : NodeIn s gi n g 1 := ⟨hg, hl, hn, hst⟩
    exact ⟨nodeEvaluate_cond node hp hw, nodeEvaluate_switch node hp hw, nodeEvaluate_switch_fault node hp hw, nodeEvaluate_loop_end node hp hw,
      fun hk h0 hr => nodeEvaluate_loop_again node hp hw hk h0 hr rfl⟩
  case seeds => exact fun s gi n g hg hl hn hst hk hs => netSeed_gives ⟨hg, hl, hn, hst⟩ hk hs
  case batches =>
    intro s gi n g hg hl hn hst hk hs ht
    have node : NodeIn s gi n g 2 := ⟨hg, hl, hn, hst⟩
    refine ⟨fun pa home leaf hb hx hp => batchStep_new node hk hs ht rfl hb hx hp, fun b hb => ⟨?_, ?_, ?_, ?_, ?_⟩⟩
    · exact fun u d hp hd => batchStep_goes_on node hk hs ht hb hp hd
    · exact fun u d hp hd hl k hu => batchStep_done node hk hs ht hb hp hd hl hu
    · exact fun c va hp => batchStep_faults node hk hs ht hb hp
    · exact fun va data l pa home leaf hl hx hc hd => batchStep_bytes node hk hs ht hb hl hx hc hd
    · exact fun off hl hp ho => batchStep_clears node hk hs ht hb hl hp ho
  case completes =>
    intro s gi n g hg hl hn hst
    have node : NodeIn s gi n g 2 := ⟨hg, hl, hn, hst⟩
    exact ⟨nodeComplete_step node, fun i y hk only hy hs he => nodeComplete_gang node hk only hy hs he⟩
  case complete => exact fun s gi n g take hg => completeNode_stands hg n take

end Sys2Proof.Machine
end

