-- ==== Sys2Proof/Proofs/LatticeFrame.lean ====
section
/-! SUPPORT. What an instruction of the lattice takes for granted around its body: that its start changes no flight, core or cluster, that its
retirement changes no column group, and how a fault of its body ends (R53, R62, R148, R224, R236). -/

namespace Sys2Proof.Machine

/-! ### The start of an instruction -/

theorem moveTokens_only (l : List (Nat × Bool)) : ∀ (s : State) (a b : Word),
    moveTokens s a b l = { s with tokens := (moveTokens s a b l).tokens } := by
  induction l with
  | nil => exact fun _ _ _ => rfl
  | cons e l ih =>
    intro s a b
    obtain ⟨n, sh⟩ := e
    rw [moveTokens, ih]
    repeat' split
    all_goals rfl

/-- A handler's start changes contexts and token entries alone. -/
theorem beginIssue_only (s : State) : beginIssue s = { s with ctxs := (beginIssue s).ctxs, tokens := (beginIssue s).tokens } := by
  unfold beginIssue
  dsimp only
  split
  · rfl
  · split
    · rw [moveTokens_only]
      rfl
    · rfl

@[simp] theorem beginIssue_flights (s : State) : (beginIssue s).flights = s.flights := by rw [beginIssue_only]
@[simp] theorem beginIssue_cores (s : State) : (beginIssue s).cores = s.cores := by rw [beginIssue_only]
@[simp] theorem beginIssue_clusters (s : State) : (beginIssue s).clusters = s.clusters := by rw [beginIssue_only]

theorem fenced_beginIssue (s : State) (c p : Nat) : fenced (beginIssue s) c p = fenced s c p := by rw [fenced, beginIssue_flights, fenced]
theorem unsettled_beginIssue (s : State) (c : Nat) : unsettled (beginIssue s) c = unsettled s c := by
  rw [unsettled, beginIssue_flights, unsettled]

/-! ### A body that faults -/

/-- An instruction whose body faults takes the fault in the state where the body met it. -/
theorem runSeq_trap {i : Instr} {s t : State} {f : FaultInfo} {body : State → Res State} (h : issueFault i s = none)
    (hb : body (beginIssue s) = .error (.trap f t)) : runSeq i s body = .next (faultIssued i f t) := run_trap h (by rw [hb])

/-- A fault with nothing of the context out is a trap at once, and counts as issued. -/
theorem faultIssued_takes (i : Instr) (f : FaultInfo) {s : State} (h : unfinished s s.cur = false) :
    faultIssued i f s = takeTrap (countIssue i s) s.cur f := by
  have counted : unfinished (countIssue i s) (countIssue i s).cur = false := h
  rw [faultIssued, h, if_neg Bool.false_ne_true, faultNow, counted, if_neg Bool.false_ne_true]
  rfl

/-! ### Column groups -/

theorem clusterAt_congr {s t : State} (h : t.clusters = s.clusters) (v : Nat) : clusterAt t v = clusterAt s v := by simp only [clusterAt, h]
theorem colOf_congr {s t : State} (h : t.clusters = s.clusters) (v i : Nat) : colOf t v i = colOf s v i := by simp only [colOf, clusterAt, h]

theorem colOf_setCol_self (s : State) (v i : Nat) (x : ColGroup) : colOf (setCol s v i x) v i = x := by simp [colOf, setCol]

theorem colOf_raiseFlags (s : State) (w : Nat) (f : BitVec 5) (v i : Nat) :
    colOf (modCluster s w (fun k => { k with cflags := k.cflags ||| f })) v i = colOf s v i := by
  unfold colOf
  rw [clusterAt_modCluster]
  split
  case isTrue e => rw [e]
  case isFalse => rfl

/-! ### Fault records -/

theorem hostWrite_clusters (l : List Byte) : ∀ (s : State) (a : Nat), (hostWrite s a l).clusters = s.clusters := by
  induction l with
  | nil => exact fun _ _ => rfl
  | cons b l ih => exact fun s a => by rw [hostWrite, ih]

theorem hostEvent_clusters (s : State) (a b : Word) : (hostEvent s a b).clusters = s.clusters := by
  unfold hostEvent
  split
  · simp [writeEvent, hostWrite_clusters]
  · split <;> rfl

theorem putRecord_clusters (s : State) (k : Nat) (ws : List Word) : (putRecord s k ws).clusters = s.clusters := by
  unfold putRecord
  dsimp only
  split
  · rfl
  · rw [hostEvent_clusters]
    rfl

theorem stopCtx_clusters (s : State) (c : Nat) (dog : Bool) : (stopCtx s c dog).clusters = s.clusters := by
  unfold stopCtx
  dsimp only
  split
  · rw [reportCtx, putRecord_clusters]
    rfl
  · rfl

/-! ### The end of a group, and of an instruction -/

theorem applySreg_clusters (s : State) (c n : Nat) (w : Word) : (applySreg s c n w).clusters = s.clusters := by
  unfold applySreg
  split <;> (try dsimp only) <;> (try split) <;> rfl

/-- Flags that are shown change sr.cflags of two clusters at most. -/
theorem colOf_showFlags (s : State) (c v i : Nat) : colOf (showFlags s c) v i = colOf s v i := by
  unfold showFlags
  dsimp only
  split
  · rfl
  · split
    · exact (colOf_raiseFlags _ _ _ v i).trans (colOf_raiseFlags _ _ _ v i)
    · exact colOf_raiseFlags _ _ _ v i

theorem colOf_endGroup (s : State) (c v i : Nat) : colOf (endGroup s c) v i = colOf s v i :=
  foldl_keeps (P := fun t => colOf t v i = colOf s v i) (fun t e h => (colOf_congr (applySreg_clusters t c e.1 e.2) v i).trans h)
    (ctxOf s c).pendingS (colOf_showFlags s c v i)

theorem colOf_parkGroup (s : State) (c v i : Nat) : colOf (parkGroup s c) v i = colOf s v i := by
  unfold parkGroup
  dsimp only
  split
  · exact colOf_endGroup s c v i
  · split
    · exact colOf_endGroup s c v i
    · exact (colOf_congr (stopCtx_clusters _ c _) v i).trans (colOf_endGroup s c v i)

theorem followCopy_clusters (s : State) (c : Nat) (x : Ctx) (npc : Word) : (followCopy s c x npc).clusters = s.clusters := by
  unfold followCopy
  split <;> rfl

/-- An instruction that retires changes no column group. -/
@[simp] theorem colOf_retire (i : Instr) (s : State) (npc : Word) (v j : Nat) : colOf (retire i s npc) v j = colOf s v j := by
  have charged : (chargeIssue i s).clusters = s.clusters := by rw [chargeIssue_only]
  have followed : ∀ c x y, (followCopy (setCtx (chargeIssue i s) c x) c y npc).clusters = s.clusters :=
    fun c x y => (followCopy_clusters _ _ _ _).trans charged
  unfold retire
  dsimp only
  split
  · exact colOf_congr charged v j
  · split
    · exact (colOf_parkGroup _ _ v j).trans (colOf_congr (followed _ _ _) v j)
    · exact colOf_congr (followed _ _ _) v j

end Sys2Proof.Machine
end

