-- ==== Sys2Proof/Proofs/NonAdjacentForm.lean ====
section
/-! SUPPORT. The non-adjacent form that NAF gives: its digits, their value, and that no two digits in a row are non-zero (R64, R242). -/

namespace Sys2Proof.Machine

/-! ### One digit, by the remainder of the number -/

@[simp] theorem nafDigits_zero (n : Nat) : nafDigits n 0 = [] := by cases n <;> rfl

theorem nafDigits_of_ne_zero (n : Nat) {m : Nat} (h : m ≠ 0) : nafDigits (n + 1) m =
    if m % 2 = 0 then 0 :: nafDigits n (m / 2) else if m % 4 = 1 then 1 :: nafDigits n (m / 2) else -1 :: nafDigits n (m / 2 + 1) := by
  obtain ⟨k, rfl⟩ := Nat.exists_eq_succ_of_ne_zero h
  rfl

theorem nafDigits_even (n : Nat) {m : Nat} (h0 : m ≠ 0) (h : m % 2 = 0) : nafDigits (n + 1) m = 0 :: nafDigits n (m / 2) := by
  rw [nafDigits_of_ne_zero n h0, if_pos h]

theorem nafDigits_one (n : Nat) {m : Nat} (h : m % 4 = 1) : nafDigits (n + 1) m = 1 :: nafDigits n (m / 2) := by
  rw [nafDigits_of_ne_zero n (by omega), if_neg (by omega), if_pos h]

theorem nafDigits_three (n : Nat) {m : Nat} (h : m % 4 = 3) : nafDigits (n + 1) m = -1 :: nafDigits n (m / 2 + 1) := by
  rw [nafDigits_of_ne_zero n (by omega), if_neg (by omega), if_neg (by omega)]

theorem naf_cases (m : Nat) : m = 0 ∨ (m ≠ 0 ∧ m % 2 = 0) ∨ m % 4 = 1 ∨ m % 4 = 3 := by omega

/-- One digit of NAF, and the number that is left: an odd number gives the digit d with m ≡ d modulo 4. -/
theorem nafDigits_succ (n m : Nat) : nafDigits (n + 1) m = if m = 0 then [] else
    let d : Int := if m % 2 = 1 then 2 - ((m % 4 : Nat) : Int) else 0
    d :: nafDigits n (((m : Int) - d) / 2).toNat := by
  obtain rfl | ⟨h0, h⟩ | h | h := naf_cases m
  · simp
  · rw [nafDigits_even n h0 h, if_neg h0, if_neg (by omega)]
    exact congrArg (fun k => 0 :: nafDigits n k) (by omega)
  · rw [nafDigits_one n h, if_neg (by omega), if_pos (by omega), h]
    exact congrArg (fun k => 1 :: nafDigits n k) (by omega)
  · rw [nafDigits_three n h, if_neg (by omega), if_pos (by omega), h]
    exact congrArg (fun k => -1 :: nafDigits n k) (by omega)

/-! ### The digits, their value, and their order -/

theorem mem_nafDigits (n : Nat) : ∀ m, ∀ d ∈ nafDigits n m, d = -1 ∨ d = 0 ∨ d = 1 := by
  induction n with
  | zero => simp [nafDigits]
  | succ n ih =>
    intro m d hd
    obtain rfl | ⟨h0, h⟩ | h | h := naf_cases m
    · simp at hd
    · rw [nafDigits_even n h0 h, List.mem_cons] at hd
      exact hd.elim (fun e => .inr (.inl e)) (ih _ d)
    · rw [nafDigits_one n h, List.mem_cons] at hd
      exact hd.elim (fun e => .inr (.inr e)) (ih _ d)
    · rw [nafDigits_three n h, List.mem_cons] at hd
      exact hd.elim .inl (ih _ d)

/-- n + 1 digits are enough for the numbers up to 2^n: the digit −1 leaves (m + 1) / 2, which is at most half of 2^n again. -/
theorem digitSum_nafDigits (n : Nat) : ∀ m, m ≤ 2 ^ n → digitSum (nafDigits (n + 1) m) = m := by
  induction n with
  | zero =>
    intro m hm
    obtain rfl | rfl : m = 0 ∨ m = 1 := by omega
    · rfl
    · rfl
  | succ n ih =>
    intro m hm
    rw [Nat.pow_succ] at hm
    obtain rfl | ⟨h0, h⟩ | h | h := naf_cases m
    · rfl
    · rw [nafDigits_even _ h0 h, digitSum, ih _ (by omega)]
      omega
    · rw [nafDigits_one _ h, digitSum, ih _ (by omega)]
      omega
    · rw [nafDigits_three _ h, digitSum, ih _ (by omega)]
      omega

/-- The lowest digit of an even number is zero. -/
theorem nafDigits_head_even (n : Nat) {m : Nat} (h : m % 2 = 0) : (nafDigits n m).getD 0 0 = 0 := by
  cases n with
  | zero => rfl
  | succ n =>
    by_cases h0 : m = 0
    · simp [h0]
    · simp [nafDigits_even n h0 h]

/-- Non-adjacency: what an odd number leaves is even. -/
theorem nafDigits_nonadjacent (n : Nat) : ∀ m i, (nafDigits n m).getD i 0 ≠ 0 → (nafDigits n m).getD (i + 1) 0 = 0 := by
  induction n with
  | zero => simp [nafDigits]
  | succ n ih =>
    intro m i
    obtain rfl | ⟨h0, h⟩ | h | h := naf_cases m
    · simp
    · rw [nafDigits_even n h0 h]
      cases i with
      | zero => exact fun hd => absurd rfl hd
      | succ i => exact ih (m / 2) i
    · rw [nafDigits_one n h]
      cases i with
      | zero => exact fun _ => nafDigits_head_even n (by omega)
      | succ i => exact ih (m / 2) i
    · rw [nafDigits_three n h]
      cases i with
      | zero => exact fun _ => nafDigits_head_even n (by omega)
      | succ i => exact ih (m / 2 + 1) i

end Sys2Proof.Machine
end

