-- ==== Sys2Proof/Proofs/WeightRecoding.lean ====
section
/-! SUPPORT. MSTAT: the state it leaves, its trap, and the statement on recoding (R64, R65, R328). -/

namespace Sys2Proof.Machine

/-! ### What MSTAT counts and leaves -/

/-- The weights of the tile that MSTAT reads, before its budget. -/
def mstatWeights (o : OpE) (s : State) : List LatVal := tileWeights s (coreOf s.cur) o.a.toNat (o.imm.toNat % 16)

/-- The same under its budget. -/
def mstatCut (o : OpE) (s : State) : List LatVal := (mstatWeights o s).map (recode (o.imm.toNat / 16 % 16))

/-- The terms before the budget. -/
def mstatTotal (o : OpE) (s : State) : Nat := ((mstatWeights o s).map weightTerms).sum

/-- The terms above the budget. -/
def mstatRemoved (o : OpE) (s : State) : Nat := mstatTotal o s - ((mstatCut o s).map weightTerms).sum

/-- The new shadow plane. -/
def mstatPlane (o : OpE) (s : State) : Plane := planeOf (o.imm.toNat % 16) (mstatCut o s)

/-- The result word: total, removed and span. -/
def mstatWord (o : OpE) (s : State) : Word :=
  BitVec.ofNat 64 (mstatTotal o s * 2 ^ 32 + mstatRemoved o s * 2 ^ 16 + (mstatPlane o s).span % 16)

/-- The column group of the issuing core with the new shadow plane and the count of dropped terms. -/
def mstatGroup (o : OpE) (s : State) : ColGroup :=
  let g := colOf s (vertOf s.cur) (coreNo (coreOf s.cur))
  { g with shadow := mstatPlane o s, dropped := g.dropped + BitVec.ofNat 64 (mstatRemoved o s) }

/-- The state that MSTAT leaves to its retirement. -/
def mstatDone (o : OpE) (s : State) : State :=
  wg (setCol s (vertOf s.cur) (coreNo (coreOf s.cur)) (mstatGroup o s)) s.cur o.d.toNat (mstatWord o s)

/-- The state after MSTAT has loaded the shadow plane. -/
def mstatNext (o : OpE) (s : State) : State :=
  retire (.mstat o) (mstatDone o (beginIssue s)) (nextPc (mstatDone o (beginIssue s)))

/-! ### The start changes none of it -/

theorem tileWeights_congr {s t : State} (h : t.cores = s.cores) (k j f : Nat) : tileWeights t k j f = tileWeights s k j f := by
  simp only [tileWeights, tileBits, tileRow, coreAt, h]

theorem mstatWeights_beginIssue (o : OpE) (s : State) : mstatWeights o (beginIssue s) = mstatWeights o s := by
  rw [mstatWeights, beginIssue_cur, tileWeights_congr (beginIssue_cores s), mstatWeights]

theorem mstatRemoved_beginIssue (o : OpE) (s : State) : mstatRemoved o (beginIssue s) = mstatRemoved o s := by
  simp only [mstatRemoved, mstatTotal, mstatCut, mstatWeights_beginIssue]

theorem mstatPlane_beginIssue (o : OpE) (s : State) : mstatPlane o (beginIssue s) = mstatPlane o s := by
  simp only [mstatPlane, mstatCut, mstatWeights_beginIssue]

theorem mstatWord_beginIssue (o : OpE) (s : State) : mstatWord o (beginIssue s) = mstatWord o s := by
  simp only [mstatWord, mstatTotal, mstatRemoved_beginIssue, mstatPlane_beginIssue, mstatWeights_beginIssue]

theorem mstatGroup_beginIssue (o : OpE) (s : State) : mstatGroup o (beginIssue s) = mstatGroup o s := by
  simp only [mstatGroup, beginIssue_cur, colOf_congr (beginIssue_clusters s), mstatPlane_beginIssue, mstatRemoved_beginIssue]

theorem swapWaits_beginIssue (s : State) (v : Nat) : swapWaits (beginIssue s) v = swapWaits s v := by
  rw [swapWaits, clusterAt_congr (beginIssue_clusters s), swapWaits]

/-! ### The two ends of MSTAT -/

theorem budget_field (x : Nat) : bits x 7 4 = x / 16 % 16 := by
  rw [bits, Nat.shiftRight_eq_div_pow]
  rfl

/-- MSTAT case by case: it waits for a fence, or for the job that takes the shadow plane; it faults under STRICT; it waits until nothing earlier
can fault; it loads the shadow plane. -/
def mstatBody (o : OpE) (t : State) : Res State :=
  if fenced t t.cur 3 then parkOn .flights t
  else if swapWaits t (vertOf t.cur) then parkOn .shadow t
  else if o.imm.getLsbD 8 && mstatRemoved o t ≠ 0 then trapWith cTermBudget t
  else if unsettled t t.cur then parkOn .flights t
  else .ok (mstatDone o t)

theorem exec_mstat (o : OpE) (s : State) : exec (.mstat o) s = runSeq (.mstat o) s (mstatBody o) := by
  change execMstat o s = _
  unfold execMstat
  congr 1
  funext t
  unfold mstatBody passFence settle
  rw [budget_field]
  split
  · rfl
  · change (if swapWaits t (vertOf t.cur) then _ else _) = _
    split
    · rfl
    · change (if nbit o.imm.toNat 8 && mstatRemoved o t ≠ 0 then _ else _) = (if nbit o.imm.toNat 8 && mstatRemoved o t ≠ 0 then _ else _)
      split
      · rfl
      · split
        · rfl
        · rfl

section

variable {o : OpE} {s : State} (hi : issueFault (.mstat o) s = none) (fence : fenced s s.cur 3 = false)
  (shadow : swapWaits s (vertOf s.cur) = false)

include hi fence shadow

/-- MSTAT with no term dropped under STRICT loads the shadow plane and goes on. -/
theorem exec_mstat_loads (hu : unsettled s s.cur = false) (strict : o.imm.getLsbD 8 = true → mstatRemoved o s = 0) :
    exec (.mstat o) s = .next (mstatNext o s) := by
  rw [exec_mstat]
  refine runSeq_ok hi ?_
  have kept : ¬ (o.imm.getLsbD 8 && mstatRemoved o s ≠ 0) = true := by simpa using strict
  simp only [mstatBody, fenced_beginIssue, swapWaits_beginIssue, unsettled_beginIssue, mstatRemoved_beginIssue, beginIssue_cur, fence, shadow, hu,
    kept, Bool.false_eq_true, if_false]

/-- MSTAT with a term dropped under STRICT faults. -/
theorem exec_mstat_faults (strict : o.imm.getLsbD 8 = true) (dropped : mstatRemoved o s ≠ 0) :
    exec (.mstat o) s = .next (faultIssued (.mstat o) { code := cTermBudget } (beginIssue s)) := by
  rw [exec_mstat]
  refine runSeq_trap hi ?_
  simp [mstatBody, fenced_beginIssue, swapWaits_beginIssue, mstatRemoved_beginIssue, fence, shadow, strict, dropped, trapWith]

end

/-! ### The state after MSTAT -/

@[simp] theorem mstatDone_cur (o : OpE) (s : State) : (mstatDone o s).cur = s.cur := by simp [mstatDone, setCol]
@[simp] theorem mstatDone_mem (o : OpE) (s : State) : (mstatDone o s).mem = s.mem := by simp [mstatDone, setCol]

theorem ctxOf_setCol (s : State) (v i : Nat) (x : ColGroup) (e : Nat) : ctxOf (setCol s v i x) e = ctxOf s e := rfl

/-- MSTAT writes its result word and no other g register. -/
theorem rg_mstatDone_self (o : OpE) (s : State) : rg (mstatDone o s) s.cur o.d.toNat = if o.d = 0 then 0 else mstatWord o s := by
  rw [mstatDone, rg_wg_self]
  simp [BitVec.toNat_eq]

theorem rg_mstatDone_ne (o : OpE) (s : State) {r : Nat} (h : r ≠ o.d.toNat) : rg (mstatDone o s) s.cur r = rg s s.cur r := by
  rw [mstatDone, rg_wg_ne _ _ _ h]
  rfl

theorem rp_mstatDone (o : OpE) (s : State) (r : Nat) : rp (mstatDone o s) s.cur r = rp s s.cur r := by
  rw [mstatDone, rp_wg]
  rfl

theorem ctxOf_mstatDone_ne (o : OpE) (s : State) {e : Nat} (h : e ≠ s.cur) : ctxOf (mstatDone o s) e = ctxOf s e := by
  rw [mstatDone, ctxOf_wg_ne _ _ _ h, ctxOf_setCol]

theorem mstatDone_pc (o : OpE) (s : State) : pcOf (mstatDone o s) = pcOf s := by
  rw [pcOf, mstatDone_cur, mstatDone, ctxOf_wg]
  rfl

theorem colOf_mstatDone (o : OpE) (s : State) : colOf (mstatDone o s) (vertOf s.cur) (coreNo (coreOf s.cur)) = mstatGroup o s := by
  rw [mstatDone, colOf_congr (wg_clusters _ _ _ _), colOf_setCol_self]

theorem mstatDone_run (o : OpE) (s : State) : (ctxOf (mstatDone o s) s.cur).run = (ctxOf s s.cur).run := by
  rw [mstatDone, wg_run, ctxOf_setCol]

/-- The context goes on at the next word, having written g[d] alone. -/
theorem mstatNext_proceeds (o : OpE) {s : State} (hr : (ctxOf s s.cur).run = .ready) : Proceeds s (mstatNext o s) [o.d.toNat] := by
  have cur : (mstatDone o (beginIssue s)).cur = s.cur := by simp
  have here : (beginIssue s).cur = s.cur := beginIssue_cur s
  constructor
  · have ready : (ctxOf (mstatDone o (beginIssue s)) (mstatDone o (beginIssue s)).cur).run = .ready := by
      rw [cur, ← here, mstatDone_run, here, beginIssue_run, hr]
    calc pcOf (mstatNext o s) = nextPc (mstatDone o (beginIssue s)) := by
          rw [pcOf, mstatNext, retire_cur, retire_pc _ _ _ ready]
      _ = pcOf s + 8 := by rw [nextPc, mstatDone_pc, pcOf, here, beginIssue_pc, pcOf]
  · refine regFrame_retire cur (by simp) ?g ?p ?others
    case g =>
      intro r hr
      rw [← here, rg_mstatDone_ne o _ (by simpa using hr), rg_beginIssue]
    case p =>
      intro r _
      rw [← here, rp_mstatDone, rp_beginIssue]
    case others =>
      intro e he
      simp [rg, rp, ctxOf_mstatDone_ne o (beginIssue s) (here.symm ▸ he)]

/-- The result word reads back from g[d]. -/
theorem rg_mstatNext (o : OpE) (s : State) : rg (mstatNext o s) s.cur o.d.toNat = if o.d = 0 then 0 else mstatWord o s := by
  have read := rg_retire (.mstat o) (mstatDone o (beginIssue s)) (nextPc (mstatDone o (beginIssue s))) o.d.toNat
  rw [mstatDone_cur, rg_mstatDone_self, mstatWord_beginIssue, beginIssue_cur] at read
  exact read

/-- The column group of the core has the new shadow plane and the new count. -/
theorem colOf_mstatNext (o : OpE) (s : State) : colOf (mstatNext o s) (vertOf s.cur) (coreNo (coreOf s.cur)) = mstatGroup o s := by
  have group := colOf_mstatDone o (beginIssue s)
  rw [mstatGroup_beginIssue, beginIssue_cur] at group
  rw [mstatNext, colOf_retire, group]

/-- Settles O38: NAF digit by digit, by what its number leaves modulo 4; MSTAT by its two ends, the loaded plane and the trap. -/
theorem weightRecoding : Obligations.WeightRecoding := by
  unfold Obligations.WeightRecoding
  refine ⟨nafDigits_succ, ?form, ?loads, ?faults⟩
  case form =>
    intro m hm
    exact ⟨digitSum_nafDigits 63 m hm.le, mem_nafDigits 64 m, nafDigits_nonadjacent 64 m⟩
  case loads =>
    intro o s hi fence shadow settled fmt l cut total removed strict
    refine ⟨mstatNext o s, exec_mstat_loads hi.2 fence shadow settled strict, mstatNext_proceeds o hi.1, rg_mstatNext o s, ?_⟩
    rw [colOf_mstatNext]
    exact ⟨rfl, rfl, rfl⟩
  case faults =>
    intro o s hi fence shadow nothing strict l dropped
    rw [exec_mstat_faults hi.2 fence shadow strict dropped, faultIssued_takes _ _ (by rw [beginIssue_cur]; exact nothing), beginIssue_cur]

end Sys2Proof.Machine
end

