-- ==== Sys2Proof/Proofs/RefusedWords.lean ====
section
/-! SUPPORT. Words of the formats I and B that issue refuses: the instruction that the fields of a packed word name, and the fault of a word that
is none (R225, R231, R233). -/

namespace Sys2Proof.Machine

/-! ### The fields of a packed word -/

/-- The lowest field of a word. -/
theorem extractLsb'_append_lowest {u v : Nat} (x : BitVec u) (y : BitVec v) : (x ++ y).extractLsb' 0 v = y := by
  rw [BitVec.extractLsb'_append_eq_of_add_le (by omega), BitVec.extractLsb'_eq_self]

/-- The field above the lowest. -/
theorem extractLsb'_append_above {u v w : Nat} (x : BitVec u) (y : BitVec v) (z : BitVec w) : (x ++ y ++ z).extractLsb' w v = y := by
  rw [BitVec.extractLsb'_append_eq_of_le le_rfl, Nat.sub_self, extractLsb'_append_lowest]

/-- A field is the lowest of a word once those below it are dropped; S is the highest, and stands alone then. -/
theorem unpackI_packI (op fn : Nat) (o : OpI) : unpackI (packI op fn o) = o := by
  unfold unpackI packI
  congr 1
  all_goals repeat rw [BitVec.extractLsb'_append_eq_of_le (by omega)]
  case e_s => exact BitVec.extractLsb'_eq_self
  all_goals exact extractLsb'_append_lowest _ _

theorem unpackB_packB (op fn : Nat) (o : OpB) : unpackB (packB op fn o) = o := by
  unfold unpackB packB
  congr 1
  all_goals repeat rw [BitVec.extractLsb'_append_eq_of_le (by omega)]
  case e_s => exact BitVec.extractLsb'_eq_self
  all_goals exact extractLsb'_append_lowest _ _

theorem fnOfI_packI (op fn : Nat) (o : OpI) : fnOfI (packI op fn o) = fn % 16 := by
  have field : (packI op fn o).extractLsb' 40 4 = BitVec.ofNat 4 fn := by
    rw [packI, BitVec.extractLsb'_append_eq_of_le (by omega)]
    exact extractLsb'_append_above _ _ o.md
  rw [fnOfI, field, BitVec.toNat_ofNat]

theorem fnOfB_packB (op fn : Nat) (o : OpB) : fnOfB (packB op fn o) = fn % 64 := by
  have field : (packB op fn o).extractLsb' 32 6 = BitVec.ofNat 6 fn := extractLsb'_append_above _ _ o.woff
  rw [fnOfB, field, BitVec.toNat_ofNat]

/-- A word of major opcode 0x02 is named by its fn field (Table 16-3). -/
theorem nameOf_packI (fn : Nat) (o : OpI) : nameOf (packI 0x02 fn o) = (nameI 0x02 (fn % 16) o).map (fun i => (.I, i)) := by
  rw [nameOf, Laws.MajorNamed.major_I, fnOfI_packI, unpackI_packI]
  rfl

/-- A word of major opcode 0x20 is named by its fn field (Table 16-5). -/
theorem nameOf_packB (fn : Nat) (o : OpB) : nameOf (packB 0x20 fn o) = (nameB 0x20 (fn % 64) o).map (fun i => (.B, i)) := by
  rw [nameOf, Laws.MajorNamed.major_B, fnOfB_packB, unpackB_packB]
  rfl

/-! ### The fault of a word that is no instruction -/

theorem instrOf_of_unnamed {w : Word} (h : nameOf w = none) : instrOf w = .illegalPattern w := by simp [instrOf, decode, h]

theorem instrOf_of_refused {w : Word} {f : Format} {i : Instr} (h : nameOf w = some (f, i)) (ha : accepts i = false) :
    instrOf w = .illegalPattern w := by simp [instrOf, decode, h, ha]

/-- The fate of a word that is no instruction comes before every other check (R233). -/
theorem issueFault_of_patternFault {i : Instr} {s : State} {f : FaultInfo} (h : patternFault i s = some f) : issueFault i s = some f := by
  simp [issueFault, h]

/-- A word that names nothing faults ILLEGAL-OPCODE, those of the opcode of NOP apart (R231, R232). -/
theorem issueFault_of_unnamed {w : Word} (s : State) (h : nameOf w = none) (nop : (w.extractLsb' 56 7).toNat ≠ 0x2F) :
    issueFault (instrOf w) s = some { code := cIllegalOpcode } := by
  rw [BitVec.extractLsb'_toNat, Nat.shiftRight_eq_div_pow] at nop
  rw [instrOf_of_unnamed h]
  apply issueFault_of_patternFault
  simp only [patternFault, h]
  rw [if_neg nop]

/-- An instruction of every core, privilege and mode whose fields are not accepted faults ILLEGAL-ENCODING (R231, R233). -/
theorem issueFault_of_refused {w : Word} {f : Format} {i : Instr} (s : State) (h : nameOf w = some (f, i)) (ha : accepts i = false)
    (priv : isPOnly i = false) (unit : unitOk (coreOf s.cur) i = true) (mode : modeIllegal (ctxOf s s.cur).hmode i = false) :
    issueFault (instrOf w) s = some { code := cIllegalEncoding } := by
  rw [instrOf_of_refused h ha]
  apply issueFault_of_patternFault
  simp [patternFault, h, priv, unit, mode]

end Sys2Proof.Machine
end

