-- ==== Sys2Proof/Proofs/Immediates.lean ====
section
/-! SUPPORT. ADDI, MOVI and MOVHI: what they write, and the words of their major opcode that fault (R248). -/

namespace Sys2Proof.Machine

/-! ### What they write -/

/-- An instruction that only writes f of the state to g[d], where the start of a handler does not change f. -/
theorem gives_writes {i : Instr} {s : State} {d : Nat} (f : State → Word) (hi : Issues i s)
    (he : exec i s = runPure i s (fun t => wg t t.cur d (f t))) (hf : f (beginIssue s) = f s) :
    Gives i s (fun t => Writes s t d (f s)) := by
  refine ⟨retire i (wg (beginIssue s) s.cur d (f s)) (nextPc (beginIssue s)), ?_, writes_retire hi.1 ?_⟩
  · rw [he, runPure_eq hi.2, hf, beginIssue_cur]
  · simp [nextPc, pcOf]

/-- What ADDI gives (Table 16-3). -/
def addiValue (o : OpI) (s : State) : Word :=
  if o.md = 1 then ((rg s s.cur o.a.toNat).setWidth 32 + o.imm).signExtend 64 else rg s s.cur o.a.toNat + o.imm.signExtend 64

/-- What MOVHI gives: the immediate above the low half of g[a] (Table 16-3). -/
def movhiValue (o : OpI) (s : State) : Word := o.imm ++ (rg s s.cur o.a.toNat).setWidth 32

theorem addiValue_beginIssue (o : OpI) (s : State) : addiValue o (beginIssue s) = addiValue o s := by simp [addiValue]
theorem movhiValue_beginIssue (o : OpI) (s : State) : movhiValue o (beginIssue s) = movhiValue o s := by simp [movhiValue]

theorem movhiValue_eq (o : OpI) (s : State) :
    movhiValue o s = (o.imm.setWidth 64 <<< 32) ||| ((rg s s.cur o.a.toNat).setWidth 32).setWidth 64 := by
  rw [movhiValue, BitVec.append_def, BitVec.shiftLeftZeroExtend_eq, BitVec.setWidth'_eq]

theorem exec_addi (o : OpI) (s : State) : exec (.addi o) s = runPure (.addi o) s (fun t => wg t t.cur o.d.toNat (addiValue o t)) := rfl
theorem exec_movi (o : OpI) (s : State) :
    exec (.movi o) s = runPure (.movi o) s (fun t => wg t t.cur o.d.toNat (if o.md = 4 then o.imm.setWidth 64 else o.imm.signExtend 64)) := rfl
theorem exec_movhi (o : OpI) (s : State) : exec (.movhi o) s = runPure (.movhi o) s (fun t => wg t t.cur o.d.toNat (movhiValue o t)) := rfl

/-! ### What they refuse -/

theorem accepts_addi (o : OpI) : accepts (.addi o) = true ↔ o.md = 0 ∨ o.md = 1 := by
  change decide _ = true ↔ _
  rw [decide_eq_true_eq]
  bv_omega

theorem accepts_movi (o : OpI) : accepts (.movi o) = true ↔ o.a = 0 ∧ (o.md = 0 ∨ o.md = 4) := by
  change (decide _ && (decide _ || decide _)) = true ↔ _
  simp

theorem accepts_movhi (o : OpI) : accepts (.movhi o) = true ↔ o.md = 0 := decide_eq_true_iff

/-- fn 3 to 15 of major opcode 0x02 name nothing. -/
theorem nameI_unnamed (o : OpI) {fn : Nat} (h : 2 < fn) : nameI 0x02 fn o = none := by
  unfold nameI
  split
  case h_4 => rfl
  all_goals omega

/-- Settles O16: the three effects by their one write, and the refused words by what their fields name. -/
theorem immediates : Obligations.Immediates := by
  unfold Obligations.Immediates
  refine ⟨?addi, ?movi, ?movhi, ?addiMod, ?moviFields, ?movhiMod, ?otherFn⟩
  case addi =>
    intro o s hi
    exact gives_writes (addiValue o) hi (exec_addi o s) (addiValue_beginIssue o s)
  case movi =>
    intro o s hi
    exact gives_writes (fun _ => _) hi (exec_movi o s) rfl
  case movhi =>
    intro o s hi
    rw [← movhiValue_eq]
    exact gives_writes (movhiValue o) hi (exec_movhi o s) (movhiValue_beginIssue o s)
  case addiMod =>
    rintro o s ⟨zero, one⟩
    have refused : accepts (.addi o) = false := by
      rw [← Bool.not_eq_true, accepts_addi]
      exact not_or.mpr ⟨zero, one⟩
    exact issueFault_of_refused s (nameOf_packI 0 o) refused rfl rfl rfl
  case moviFields =>
    intro o s fields
    have refused : accepts (.movi o) = false := by
      rw [← Bool.not_eq_true, accepts_movi]
      tauto
    exact issueFault_of_refused s (nameOf_packI 1 o) refused rfl rfl rfl
  case movhiMod =>
    intro o s md
    have refused : accepts (.movhi o) = false := by rwa [← Bool.not_eq_true, accepts_movhi]
    exact issueFault_of_refused s (nameOf_packI 2 o) refused rfl rfl rfl
  case otherFn =>
    intro o fn s above below
    refine issueFault_of_unnamed s ?_ (by rw [Laws.MajorNamed.major_I]; decide)
    rw [nameOf_packI, Nat.mod_eq_of_lt below, nameI_unnamed o above]
    rfl

end Sys2Proof.Machine
end

