-- ==== Sys2Proof/Proofs/Branches.lean ====
section
/-! SUPPORT. The switch-group marker, and the branches: where they go, the one register that CALL, JR and LOOP write, and the refused condition
codes (R71, R224, R228, R249, R250, R252). -/

namespace Sys2Proof.Machine

/-! ### The group of an instruction that writes one register -/

theorem beginIssue_of_quiet {s : State} (hq : Quiet s) : beginIssue s = s := by
  obtain ⟨-, -, -, fresh, -, -⟩ := hq
  exact beginIssue_eq s fresh

/-- An instruction of a quiet context that writes one g register leaves its context settled. -/
theorem ctxOf_retire_wg {i : Instr} {s : State} (d : Nat) (x npc : Word) (hr : (ctxOf s s.cur).run = .ready) (hq : Quiet s) :
    ctxOf (retire i (wg s s.cur d x) npc) s.cur = settledCtx i (wg s s.cur d x) npc := by
  obtain ⟨sregs, allot, stop, -, pass, cf⟩ := hq
  have still : Still (ctxOf (wg s s.cur d x) s.cur) := by
    rw [wg_ctx]
    exact ⟨sregs, allot, stop, pass, cf⟩
  have settled := (retire_still i (wg s s.cur d x) npc (by rw [wg_cur, wg_run, hr]) (by rwa [wg_cur])).2.1
  rwa [wg_cur] at settled

/-- After an instruction that ends its group the context parks, with a new group. -/
theorem settledCtx_ends {i : Instr} (s : State) (npc : Word) (h : endsGroup i = true) :
    (settledCtx i s npc).run = .groupEnd ∧ (settledCtx i s npc).group = Group.empty := by
  simp [settledCtx, h]

/-- Within a group the context goes on as it retired. -/
theorem settledCtx_inside {i : Instr} (s : State) (npc : Word) (h : endsGroup i = false) : settledCtx i s npc = retiredCtx i s npc := by
  simp [settledCtx, h]

/-- An instruction that retires within its group counts in it, with the g registers that it writes. -/
theorem retiredCtx_group (i : Instr) (s : State) (npc : Word) :
    (retiredCtx i s npc).run = (ctxOf s s.cur).run ∧ (retiredCtx i s npc).group.len = (ctxOf s s.cur).group.len + 1 ∧
      (retiredCtx i s npc).group.g = (ctxOf s s.cur).group.g ++ (usesIn s s.cur i).wg.filter (· ≠ 0) := ⟨rfl, rfl, rfl⟩

/-- ADD writes its one destination. -/
theorem usesIn_add_wg (s : State) (c : Nat) (o : OpA) : (usesIn s c (.add o)).wg = [o.d.toNat] := rfl

/-- The state after ADD in a quiet context. -/
def addNext (o : OpA) (s : State) : State := retire (.add o) (aluWrite s o (fun a => a.xv + a.yv)) (nextPc s)

theorem exec_add (o : OpA) (s : State) : exec (.add o) s = runPure (.add o) s (fun t => aluWrite t o (fun a => a.xv + a.yv)) := rfl

theorem exec_add_quiet {o : OpA} {s : State} (hi : Issues (.add o) s) (hq : Quiet s) : exec (.add o) s = .next (addNext o s) := by
  rw [exec_add, runPure_eq hi.2, beginIssue_of_quiet hq, addNext]

section

variable {o : OpA} {s : State} (hi : Issues (.add o) s) (hq : Quiet s)
include hi hq

theorem ctxOf_addNext : ctxOf (addNext o s) s.cur = settledCtx (.add o) (aluWrite s o (fun a => a.xv + a.yv)) (nextPc s) :=
  ctxOf_retire_wg _ _ _ hi.1 hq

/-- ADD leaves sr.flags as they are. -/
theorem flags_addNext : (ctxOf (addNext o s) s.cur).regs.flags = (ctxOf s s.cur).regs.flags := by
  rw [ctxOf_addNext hi hq, settledCtx_regs, aluWrite, wg_cur, wg_ctx]

/-- An ADD with S parks its context at the end of the group. -/
theorem addNext_ends (marked : o.s = 1) :
    (ctxOf (addNext o s) s.cur).run = .groupEnd ∧ (ctxOf (addNext o s) s.cur).group = Group.empty := by
  have ends : endsGroup (.add o) = true := decide_eq_true marked
  rw [ctxOf_addNext hi hq]
  exact settledCtx_ends _ _ ends

/-- An ADD without S leaves its context ready, and enters its destination in the group. -/
theorem addNext_inside (plain : o.s ≠ 1) :
    (ctxOf (addNext o s) s.cur).run = .ready ∧ (ctxOf (addNext o s) s.cur).group.len = (ctxOf s s.cur).group.len + 1 ∧
      ∀ r, r ∈ (ctxOf (addNext o s) s.cur).group.g ↔ r ∈ (ctxOf s s.cur).group.g ∨ (r = o.d.toNat ∧ r ≠ 0) := by
  have inside : endsGroup (.add o) = false := decide_eq_false plain
  have before : (ctxOf (aluWrite s o (fun a => a.xv + a.yv)) s.cur).run = .ready ∧
      (ctxOf (aluWrite s o (fun a => a.xv + a.yv)) s.cur).group = (ctxOf s s.cur).group := by
    rw [aluWrite, wg_ctx]
    exact ⟨hi.1, rfl⟩
  have cur : (aluWrite s o (fun a => a.xv + a.yv)).cur = s.cur := wg_cur _ _ _ _
  obtain ⟨run, len, gs⟩ := retiredCtx_group (.add o) (aluWrite s o (fun a => a.xv + a.yv)) (nextPc s)
  rw [cur] at run len gs
  rw [ctxOf_addNext hi hq, settledCtx_inside _ _ inside, run, len, gs, before.1, before.2, usesIn_add_wg]
  refine ⟨rfl, rfl, fun r => ?_⟩
  simp

end

/-! ### Where a branch goes -/

theorem RegFrame.mono {s t : State} {gs gs' ps : List Nat} (h : RegFrame s t gs ps) (sub : gs ⊆ gs') : RegFrame s t gs' ps :=
  { h with g := fun r hr => h.g r (fun hm => hr (sub hm)) }

theorem GoesTo.mono {s t : State} {pc : Word} {gs gs' : List Nat} (h : GoesTo s t pc gs) (sub : gs ⊆ gs') : GoesTo s t pc gs' :=
  { h with frame := h.frame.mono sub }

/-- An instruction that wrote g[d] at most, and goes to npc. -/
theorem goesTo_retire_wg (i : Instr) {s : State} (d : Nat) (x npc : Word) (hr : (ctxOf s s.cur).run = .ready) :
    GoesTo s (retire i (wg (beginIssue s) s.cur d x) npc) npc [d] where
  next := by
    rw [pcOf, retire_cur]
    exact retire_pc i _ npc (by simp [hr])
  frame := regFrame_retire (by simp) (by simp) (fun r h => by rw [rg_wg_ne _ _ _ (by simpa using h), rg_beginIssue]) (by simp)
    (fun e he => by simp [rg, rp, ctxOf_wg_ne _ _ _ he])
  quiet hq := by
    rw [beginIssue_of_quiet hq]
    exact quiet_retire hr hq (wg_only _ _ _ _) (wg_ctx _ _ _ _) (fun e he => ctxOf_wg_ne _ _ _ he)

/-- The link or counter that it wrote reads back. -/
theorem rg_retire_wg (i : Instr) (s : State) (d : BitVec 6) (x npc : Word) :
    rg (retire i (wg (beginIssue s) s.cur d.toNat x) npc) s.cur d.toNat = if d = 0 then 0 else x := by
  have read := rg_retire i (wg (beginIssue s) s.cur d.toNat x) npc d.toNat
  rw [wg_cur, beginIssue_cur, rg_wg_self] at read
  simpa [BitVec.toNat_eq] using read

/-- An instruction that wrote nothing, and goes to npc: g0 holds no write (R72). -/
theorem goesTo_retire (i : Instr) {s : State} (npc : Word) (hr : (ctxOf s s.cur).run = .ready) :
    GoesTo s (retire i (beginIssue s) npc) npc [] := by
  have h := goesTo_retire_wg i 0 0 npc hr
  rw [wg_zero] at h
  refine { h with frame := { h.frame with g := fun r _ => ?_ } }
  by_cases zero : r = 0
  · rw [zero, rg_zero, rg_zero]
  · exact h.frame.g r (by simpa using zero)

/-! ### The target -/

theorem pcOf_beginIssue (s : State) : pcOf (beginIssue s) = pcOf s := by simp [pcOf]

theorem nextPc_beginIssue (s : State) : nextPc (beginIssue s) = pcOf s + 8 := by rw [nextPc, pcOf_beginIssue]

theorem beginIssue_device (s : State) : (beginIssue s).device = s.device := by rw [beginIssue_only]

/-- 8 × woff after the branch (R228). -/
theorem target_eq (s : State) (o : OpB) : target s o = pcOf s + o.woff.signExtend 64 * 8 := by
  rw [target, BitVec.shiftLeft_eq_mul_twoPow]
  rfl

/-- A transfer to a target that passes its checks is made. -/
theorem transfer_ok {s : State} {t : Word} (k : State) (h : TargetOk s t) : transfer (beginIssue s) t k = .ok (k, t) := by
  obtain ⟨aligned, device⟩ := h
  have multiple : t.toNat % 8 = 0 := by
    rw [← Nat.and_two_pow_sub_one_eq_mod t.toNat 3]
    exact congrArg BitVec.toNat aligned
  rw [transfer, beginIssue_device, if_neg (not_not.mpr multiple), if_neg (not_not.mpr device)]

theorem transfer_target_ok {s : State} {o : OpB} (k : State) (h : TargetOk s (pcOf s + o.woff.signExtend 64 * 8)) :
    transfer (beginIssue s) (target (beginIssue s) o) k = .ok (k, pcOf s + o.woff.signExtend 64 * 8) := by
  rw [target_eq, pcOf_beginIssue, transfer_ok k h]

/-- What a branch does once its condition is known: it transfers, or goes to the next word. -/
theorem transferIf_ok {s : State} {o : OpB} {taken : Prop} [Decidable taken] (k : State)
    (ok : taken → TargetOk s (pcOf s + o.woff.signExtend 64 * 8)) :
    (if taken then transfer (beginIssue s) (target (beginIssue s) o) k else .ok (k, nextPc (beginIssue s))) =
      .ok (k, if taken then pcOf s + o.woff.signExtend 64 * 8 else pcOf s + 8) := by
  split
  case isTrue h => exact transfer_target_ok k (ok h)
  case isFalse => rw [nextPc_beginIssue]

/-! ### The conditions -/

/-- Table 16-4: the model reads GE and LE as the complements of LT and GT. -/
theorem brHolds_eq (cl : Nat) (x y : Word) : brHolds cl x y = brTaken cl x y := by
  match cl with
  | 1 => exact decide_not
  | 3 | 4 => exact BitVec.sle_eq_not_slt.symm
  | 0 | 2 | 5 | 6 | 7 | 8 | _ + 9 => rfl

/-- BRZ is taken on zero with cl 0, and on a number that is not zero with cl 1 (Table 16-5). -/
theorem brz_taken_iff (cl : BitVec 6) (x : Word) : ((x = 0) = (cl = 0)) ↔ (if cl = 0 then x == 0 else x != 0) = true := by
  rw [eq_iff_iff]
  by_cases h : cl = 0
  · rw [if_pos h, beq_iff_eq]
    exact iff_true_right h
  · rw [if_neg h, bne_iff_ne]
    exact iff_false_right h

/-- A counter that is not zero reaches zero with this count, or is 2 and more. -/
theorem sub_one_ne_zero_iff {x : Word} (h : x ≠ 0) : x - 1 ≠ 0 ↔ 2 ≤ x.toNat := by bv_omega

/-! ### The bodies -/

theorem exec_br (o : OpB) (s : State) : exec (.br o) s = run (.br o) s (fun t =>
    if brHolds o.cl.toNat (rg t t.cur o.a.toNat) (rg t t.cur o.b.toNat) then transfer t (target t o) t else .ok (t, nextPc t)) := rfl

theorem exec_brz (o : OpB) (s : State) : exec (.brz o) s = run (.brz o) s (fun t =>
    if (rg t t.cur o.a.toNat = 0) = (o.cl = 0) then transfer t (target t o) t else .ok (t, nextPc t)) := rfl

theorem exec_jmp (o : OpB) (s : State) : exec (.jmp o) s = run (.jmp o) s (fun t => transfer t (target t o) t) := rfl

theorem exec_call (o : OpB) (s : State) :
    exec (.call o) s = run (.call o) s (fun t => transfer t (target t o) (wg t t.cur o.cl.toNat (nextPc t))) := rfl

theorem exec_jr (o : OpA) (s : State) :
    exec (.jr o) s = run (.jr o) s (fun t => transfer t (rg t t.cur o.a.toNat) (wg t t.cur o.d.toNat (nextPc t))) := rfl

theorem exec_ret (o : OpA) (s : State) : exec (.ret o) s = run (.ret o) s (fun t => transfer t (rg t t.cur o.a.toNat) t) := rfl

/-- LOOP by its counter: zero falls through, every other counts down and transfers until it is zero. -/
def loopBody (o : OpB) (t : State) : Res (State × Word) :=
  if rg t t.cur o.a.toNat = 0 then .ok (t, nextPc t)
  else if rg t t.cur o.a.toNat - 1 ≠ 0 then transfer t (target t o) (wg t t.cur o.a.toNat (rg t t.cur o.a.toNat - 1))
  else .ok (wg t t.cur o.a.toNat (rg t t.cur o.a.toNat - 1), nextPc t)

theorem exec_loop (o : OpB) (s : State) : exec (.loop o) s = run (.loop o) s (loopBody o) := rfl

/-! ### What they give -/

section

variable {i : Instr} {s : State} {body : State → Res (State × Word)} {npc : Word} (hi : Issues i s) (he : exec i s = run i s body)
include hi he

/-- A branch that goes to npc and writes nothing. -/
theorem gives_goesTo (hb : body (beginIssue s) = .ok (beginIssue s, npc)) : Gives i s (fun t => GoesTo s t npc []) :=
  ⟨_, he.trans (run_ok hi.2 hb), goesTo_retire i npc hi.1⟩

/-- A branch that goes to npc and writes x to g[d]. -/
theorem gives_goesTo_wg {d : BitVec 6} {x : Word} (hb : body (beginIssue s) = .ok (wg (beginIssue s) s.cur d.toNat x, npc)) :
    Gives i s (fun t => GoesTo s t npc [d.toNat] ∧ rg t s.cur d.toNat = if d = 0 then 0 else x) :=
  ⟨_, he.trans (run_ok hi.2 hb), goesTo_retire_wg i _ x npc hi.1, rg_retire_wg i s d x npc⟩

end

theorem loopBody_zero {o : OpB} {s : State} (h : rg s s.cur o.a.toNat = 0) :
    loopBody o (beginIssue s) = .ok (beginIssue s, pcOf s + 8) := by
  rw [loopBody, beginIssue_cur, rg_beginIssue, if_pos h, nextPc_beginIssue]

theorem loopBody_counts {o : OpB} {s : State} (h : rg s s.cur o.a.toNat ≠ 0)
    (ok : 2 ≤ (rg s s.cur o.a.toNat).toNat → TargetOk s (pcOf s + o.woff.signExtend 64 * 8)) :
    loopBody o (beginIssue s) = .ok (wg (beginIssue s) s.cur o.a.toNat (rg s s.cur o.a.toNat - 1),
      if 2 ≤ (rg s s.cur o.a.toNat).toNat then pcOf s + o.woff.signExtend 64 * 8 else pcOf s + 8) := by
  rw [loopBody, beginIssue_cur, rg_beginIssue, if_neg h]
  simp only [sub_one_ne_zero_iff h]
  exact transferIf_ok _ ok

/-- LOOP on a counter of zero falls through; on every other it counts down, and transfers while 1 or more is left. -/
theorem gives_loop {o : OpB} {s : State} (hi : Issues (.loop o) s)
    (ok : 2 ≤ (rg s s.cur o.a.toNat).toNat → TargetOk s (pcOf s + o.woff.signExtend 64 * 8)) :
    Gives (.loop o) s (fun t => GoesTo s t
      (if 2 ≤ (rg s s.cur o.a.toNat).toNat then pcOf s + o.woff.signExtend 64 * 8 else pcOf s + 8) [o.a.toNat] ∧
      rg t s.cur o.a.toNat = if rg s s.cur o.a.toNat = 0 then 0 else rg s s.cur o.a.toNat - 1) := by
  by_cases h : rg s s.cur o.a.toNat = 0
  · obtain ⟨t, ht, goes⟩ := gives_goesTo hi (exec_loop o s) (loopBody_zero h)
    have low : ¬ 2 ≤ (rg s s.cur o.a.toNat).toNat := by simp [h]
    refine ⟨t, ht, ?_⟩
    rw [if_pos h, if_neg low]
    exact ⟨goes.mono (List.nil_subset _), (goes.frame.g _ List.not_mem_nil).trans h⟩
  · have counter : o.a ≠ 0 := fun zero => h (by rw [zero]; exact rg_zero s s.cur)
    have counted := gives_goesTo_wg hi (exec_loop o s) (loopBody_counts h ok)
    simpa only [if_neg h, if_neg counter] using counted

theorem accepts_br (o : OpB) : accepts (.br o) = true ↔ o.cl.toNat ≤ 9 := decide_eq_true_iff

/-- Settles O17: ADD by its settled context, each branch by where its body goes and what it wrote. -/
theorem markersAndBranches : Obligations.MarkersAndBranches := by
  unfold Obligations.MarkersAndBranches
  refine ⟨?add, ?br, ?codes, ?brz, ?jmp, ?call, fun o s hi ok => gives_loop hi ok, ?jr, ?ret⟩
  case add =>
    intro o s hi hq
    refine ⟨addNext o s, exec_add_quiet hi hq, flags_addNext hi hq, ?_⟩
    split
    case isTrue marked => exact addNext_ends hi hq marked
    case isFalse plain => exact addNext_inside hi hq plain
  case br =>
    intro o s hi taken ok
    refine gives_goesTo hi (exec_br o s) ?_
    rw [brHolds_eq, beginIssue_cur, rg_beginIssue, rg_beginIssue]
    exact transferIf_ok _ ok
  case codes =>
    intro o s code
    have refused : accepts (.br o) = false := by
      rw [← Bool.not_eq_true, accepts_br]
      omega
    exact issueFault_of_refused s (nameOf_packB 0 o) refused rfl rfl rfl
  case brz =>
    intro o s hi taken ok
    refine gives_goesTo hi (exec_brz o s) ?_
    simp only [brz_taken_iff, beginIssue_cur, rg_beginIssue]
    exact transferIf_ok _ ok
  case jmp =>
    intro o s hi ok
    exact gives_goesTo hi (exec_jmp o s) (transfer_target_ok _ ok)
  case call =>
    intro o s hi ok
    refine gives_goesTo_wg hi (exec_call o s) ?_
    rw [nextPc_beginIssue, beginIssue_cur, transfer_target_ok _ ok]
  case jr =>
    intro o s hi ok
    refine gives_goesTo_wg hi (exec_jr o s) ?_
    rw [nextPc_beginIssue, beginIssue_cur, rg_beginIssue, transfer_ok _ ok]
  case ret =>
    intro o s hi ok
    refine gives_goesTo hi (exec_ret o s) ?_
    rw [beginIssue_cur, rg_beginIssue, transfer_ok _ ok]

end Sys2Proof.Machine
end

