-- ==== Sys2Proof/Proofs/LockstepPushes.lean ====
section
/-! SUPPORT. A push to a q port in delayed lockstep: an output, which waits until the trailing copy has produced it too (R78, R213; log 24). This
refutes the statement on vector moves, whose premises let a lockstep context push. -/

namespace Sys2Proof.Machine

/-! ### An output waits -/

/-- The state in which the context whose turn it is waits with an output for its trailing copy. -/
def outputHeld (s : State) : State :=
  modCtx s s.cur (fun y => { y with heldUntil := max y.heldUntil (s.cycle + (if y.lockLag then 0 else 64)), lockLag := true })

/-- The same, stalled at the instruction that produces the output. -/
def outputStalled (s : State) : State := modCtx (outputHeld s) s.cur (fun x => { x with run := .stalled .lockstep, tried := true })

/-- Stalled at an instruction, the context has not gone on to the next one. -/
theorem pcOf_outputStalled (s : State) : pcOf (outputStalled s) = pcOf s := by simp [pcOf, outputStalled, outputHeld]

section

variable {s : State} (leads : (ctxOf s s.cur).lockstep = true) (waits : (ctxOf s s.cur).lockPass = false)
include leads waits

theorem lockGate_waits : lockGate s = parkOn .lockstep (outputHeld s) := by simp [lockGate, leads, waits, outputHeld]

/-- With nothing to pop and room at the port, only the trailing copy holds a push back. -/
theorem portsServe_push_waits {d : BitVec 6} (port : 48 ≤ d.toNat) (served : DestServed s d) :
    portsServe s [] (some d) = parkOn .lockstep (outputHeld s) := by
  obtain ⟨settled, room⟩ := served port
  have notFull : ¬ 16 ≤ (qOutOf s (coreOf s.cur) (d.toNat - 48)).length := by omega
  simp [portsServe, shortPort, settled, notFull, port, lockGate_waits leads waits]

theorem laneOp_push_waits {o : OpV} (f : State → Vec → Vec → Vec → Nat → Nat × Flags) (port : 48 ≤ o.d.toNat) (served : DestServed s o.d) :
    laneOp s o 0 f = parkOn .lockstep (outputHeld s) := by
  simp only [laneOp, List.take_zero, portsServe_push_waits leads waits port served, parkOn]

end

/-! ### VIOTA to a q port -/

theorem exec_viota (o : OpV) (s : State) : exec (.viota o) s =
    runSeq (.viota o) s (fun t => laneOp t o 0 (fun _ _ _ _ i => ((o.limm.toNat + i) % 2 ^ laneBits o.fmt.toNat, 0))) := rfl

/-- In a lockstep context a VIOTA that pushes stalls, though its port has room. -/
theorem viota_push_stalls {o : OpV} {s : State} (hi : Issues (.viota o) s) (hq : Quiet s) (port : 48 ≤ o.d.toNat) (served : DestServed s o.d)
    (leads : (ctxOf s s.cur).lockstep = true) : exec (.viota o) s = .next (outputStalled s) := by
  have ⟨_, _, _, _, waits, _⟩ := hq
  rw [exec_viota, runSeq]
  refine run_park hi.2 ?_
  rw [beginIssue_of_quiet hq, laneOp_push_waits leads waits _ port served]
  rfl

/-- An instruction that leaves its context at the same pc has written no lane. -/
theorem not_laneWrites_of_pc {s t : State} {o : OpV} {n : Nat} {f : Nat → Nat} (same : pcOf t = pcOf s) : ¬ LaneWrites s t o n f := by
  rintro ⟨x, written, -⟩
  have next : pcOf t = pcOf s + 8 := written.frame.1
  rw [same] at next
  bv_omega

/-! ### A module in which it happens -/

/-- VIOTA.I32 q0, #5. -/
def iotaToPort : OpV := { s := 0, d := 48, a := 0, b := 0, c := 0, pred := 0, hold := 0, fmt := 4, rnd := 0, limm := 5 }

/-- After reset, context 0 runs the leading copy of a lockstep context, and its partner the trailing one (R212). -/
def leadingCopy : State :=
  modCtx (modCtx State.reset 0 (fun x => { x with run := .ready, lockstep := true })) (partnerOf 0) (fun x => { x with run := .trailing })

theorem leadingCopy_may_push :
    Issues (.viota iotaToPort) leadingCopy ∧ Quiet leadingCopy ∧ 48 ≤ iotaToPort.d.toNat ∧ DestServed leadingCopy iotaToPort.d ∧
      (ctxOf leadingCopy leadingCopy.cur).lockstep = true := by decide +kernel

/-- Refutes O34: `Quiet` says that no output of the context has been let pass, and nothing says that the context is not in lockstep. In
`leadingCopy` the VIOTA `iotaToPort` meets every premise of its clause, and waits for the trailing copy where the clause has it push and go on. -/
theorem not_vectorMoves : ¬ Obligations.VectorMoves := by
  unfold Obligations.VectorMoves
  rintro ⟨-, -, -, -, -, -, viota, -⟩
  obtain ⟨issues, quiet, port, served, leads⟩ := leadingCopy_may_push
  obtain ⟨t, next, written⟩ := viota iotaToPort leadingCopy issues quiet served
  rw [viota_push_stalls issues quiet port served leads] at next
  obtain rfl : outputStalled leadingCopy = t := by simpa using next
  exact not_laneWrites_of_pc (pcOf_outputStalled leadingCopy) written

end Sys2Proof.Machine
end

