-- ==== Sys2Proof/Proofs/WordFields.lean ====
section
/-! SUPPORT. Each format read back from its word, and each word put together again from its fields (R225). -/

namespace Sys2Proof.Machine

/-! ### The fields of a packed word -/

theorem unpackA_packA (op fn : Nat) (o : OpA) : unpackA (packA op fn o) = o := by
  unfold unpackA packA
  congr 1
  all_goals repeat rw [BitVec.extractLsb'_append_eq_of_le (by omega)]
  case e_s => exact BitVec.extractLsb'_eq_self
  all_goals exact extractLsb'_append_lowest _ _

theorem unpackM_packM (op fn : Nat) (o : OpM) : unpackM (packM op fn o) = o := by
  unfold unpackM packM
  congr 1
  all_goals repeat rw [BitVec.extractLsb'_append_eq_of_le (by omega)]
  case e_s => exact BitVec.extractLsb'_eq_self
  all_goals exact extractLsb'_append_lowest _ _

theorem unpackV_packV (op fn : Nat) (o : OpV) : unpackV (packV op fn o) = o := by
  unfold unpackV packV
  congr 1
  all_goals repeat rw [BitVec.extractLsb'_append_eq_of_le (by omega)]
  case e_s => exact BitVec.extractLsb'_eq_self
  all_goals exact extractLsb'_append_lowest _ _

theorem unpackE_packE (op fn : Nat) (o : OpE) : unpackE (packE op fn o) = o := by
  unfold unpackE packE
  congr 1
  all_goals repeat rw [BitVec.extractLsb'_append_eq_of_le (by omega)]
  case e_s => exact BitVec.extractLsb'_eq_self
  all_goals exact extractLsb'_append_lowest _ _

theorem unpackS_packS (op fn : Nat) (o : OpS) : unpackS (packS op fn o) = o := by
  unfold unpackS packS
  congr 1
  all_goals repeat rw [BitVec.extractLsb'_append_eq_of_le (by omega)]
  case e_s => exact BitVec.extractLsb'_eq_self
  all_goals exact extractLsb'_append_lowest _ _

theorem fnOfA_packA (op fn : Nat) (o : OpA) : fnOfA (packA op fn o) = fn % 256 := by
  have field : (packA op fn o).extractLsb' 24 8 = BitVec.ofNat 8 fn := by
    rw [packA, BitVec.extractLsb'_append_eq_of_le (by omega)]
    exact extractLsb'_append_above _ _ o.md
  rw [fnOfA, field, BitVec.toNat_ofNat]

theorem fnOfM_packM (op fn : Nat) (o : OpM) : fnOfM (packM op fn o) = fn % 64 := by
  have field : (packM op fn o).extractLsb' 24 6 = BitVec.ofNat 6 fn := extractLsb'_append_above _ _ o.offset
  rw [fnOfM, field, BitVec.toNat_ofNat]

theorem fnOfV_packV (op fn : Nat) (o : OpV) : fnOfV (packV op fn o) = fn % 128 := by
  have field : (packV op fn o).extractLsb' 12 7 = BitVec.ofNat 7 fn := extractLsb'_append_above _ _ o.limm
  rw [fnOfV, field, BitVec.toNat_ofNat]

theorem fnOfE_packE (op fn : Nat) (o : OpE) : fnOfE (packE op fn o) = fn % 65536 := by
  have field : (packE op fn o).extractLsb' 16 16 = BitVec.ofNat 16 fn := extractLsb'_append_above _ _ o.imm
  rw [fnOfE, field, BitVec.toNat_ofNat]

theorem fnOfS_packS (op fn : Nat) (o : OpS) : fnOfS (packS op fn o) = fn % 256 := by
  have field : (packS op fn o).extractLsb' 24 8 = BitVec.ofNat 8 fn := extractLsb'_append_above _ _ o.imm
  rw [fnOfS, field, BitVec.toNat_ofNat]

/-- The bits of a format-A word below its fields are zero. -/
theorem gapOf_packA (op fn : Nat) (o : OpA) : gapOf .A (packA op fn o) = 0 :=
  congrArg BitVec.toNat (extractLsb'_append_lowest _ (0 : BitVec 16))

/-! ### A word from its fields -/

/-- Two fields that meet make one. -/
theorem extractLsb'_append_meet {n w i k j : Nat} (x : BitVec n) (h : i = j + k) :
    x.extractLsb' i w ++ x.extractLsb' j k = x.extractLsb' j (w + k) := by
  subst h
  ext m hm
  simp only [BitVec.getElem_append, BitVec.getElem_extractLsb']
  split
  · rfl
  · congr 1; omega

theorem packA_unpackA (w : Word) (h : gapOf .A w = 0) : packA (w.extractLsb' 56 7).toNat (fnOfA w) (unpackA w) = w := by
  have low : w.extractLsb' 0 16 = 0 := BitVec.eq_of_toNat_eq h
  simp only [packA, unpackA, fnOfA, BitVec.ofNat_toNat, BitVec.setWidth_eq]
  rw [← low]
  repeat rw [extractLsb'_append_meet w (by omega)]
  exact BitVec.extractLsb'_eq_self

theorem packI_unpackI (w : Word) : packI (w.extractLsb' 56 7).toNat (fnOfI w) (unpackI w) = w := by
  simp only [packI, unpackI, fnOfI, BitVec.ofNat_toNat, BitVec.setWidth_eq]
  repeat rw [extractLsb'_append_meet w (by omega)]
  exact BitVec.extractLsb'_eq_self

theorem packM_unpackM (w : Word) : packM (w.extractLsb' 56 7).toNat (fnOfM w) (unpackM w) = w := by
  simp only [packM, unpackM, fnOfM, BitVec.ofNat_toNat, BitVec.setWidth_eq]
  repeat rw [extractLsb'_append_meet w (by omega)]
  exact BitVec.extractLsb'_eq_self

theorem packB_unpackB (w : Word) : packB (w.extractLsb' 56 7).toNat (fnOfB w) (unpackB w) = w := by
  simp only [packB, unpackB, fnOfB, BitVec.ofNat_toNat, BitVec.setWidth_eq]
  repeat rw [extractLsb'_append_meet w (by omega)]
  exact BitVec.extractLsb'_eq_self

theorem packV_unpackV (w : Word) : packV (w.extractLsb' 56 7).toNat (fnOfV w) (unpackV w) = w := by
  simp only [packV, unpackV, fnOfV, BitVec.ofNat_toNat, BitVec.setWidth_eq]
  repeat rw [extractLsb'_append_meet w (by omega)]
  exact BitVec.extractLsb'_eq_self

theorem packE_unpackE (w : Word) : packE (w.extractLsb' 56 7).toNat (fnOfE w) (unpackE w) = w := by
  simp only [packE, unpackE, fnOfE, BitVec.ofNat_toNat, BitVec.setWidth_eq]
  repeat rw [extractLsb'_append_meet w (by omega)]
  exact BitVec.extractLsb'_eq_self

theorem packS_unpackS (w : Word) : packS (w.extractLsb' 56 7).toNat (fnOfS w) (unpackS w) = w := by
  simp only [packS, unpackS, fnOfS, BitVec.ofNat_toNat, BitVec.setWidth_eq]
  repeat rw [extractLsb'_append_meet w (by omega)]
  exact BitVec.extractLsb'_eq_self

end Sys2Proof.Machine
end

