-- ==== Sys2Proof/Proofs/DecodeEncode.lean ====
section
/-! SUPPORT. Decoding and encoding are inverse to each other: a packed word is named by its major opcode and function, and what a word names is packed
to that word (R225, R226, R230). -/

namespace Sys2Proof.Machine

/-! ### What a packed word names -/

/-- A word names an instruction, and holds nothing outside its fields. -/
def Named (w : Word) (i : Instr) : Prop := ∃ f, nameOf w = some (f, i) ∧ gapOf f w = 0

theorem named_packA {op fn : Nat} {o : OpA} {i : Instr} (hf : formatOf (op % 128) = some .A) (hn : nameA (op % 128) (fn % 256) o = some i) :
    Named (packA op fn o) i := by
  refine ⟨.A, ?_, gapOf_packA op fn o⟩
  simp only [nameOf, Laws.MajorNamed.major_A, hf, fnOfA_packA, unpackA_packA, hn, Option.map_some]

theorem named_packI {op fn : Nat} {o : OpI} {i : Instr} (hf : formatOf (op % 128) = some .I) (hn : nameI (op % 128) (fn % 16) o = some i) :
    Named (packI op fn o) i := by
  refine ⟨.I, ?_, rfl⟩
  simp only [nameOf, Laws.MajorNamed.major_I, hf, fnOfI_packI, unpackI_packI, hn, Option.map_some]

theorem named_packM {op fn : Nat} {o : OpM} {i : Instr} (hf : formatOf (op % 128) = some .M) (hn : nameM (op % 128) (fn % 64) o = some i) :
    Named (packM op fn o) i := by
  refine ⟨.M, ?_, rfl⟩
  simp only [nameOf, Laws.MajorNamed.major_M, hf, fnOfM_packM, unpackM_packM, hn, Option.map_some]

theorem named_packB {op fn : Nat} {o : OpB} {i : Instr} (hf : formatOf (op % 128) = some .B) (hn : nameB (op % 128) (fn % 64) o = some i) :
    Named (packB op fn o) i := by
  refine ⟨.B, ?_, rfl⟩
  simp only [nameOf, Laws.MajorNamed.major_B, hf, fnOfB_packB, unpackB_packB, hn, Option.map_some]

theorem named_packV {op fn : Nat} {o : OpV} {i : Instr} (hf : formatOf (op % 128) = some .V) (hn : nameV (op % 128) (fn % 128) o = some i) :
    Named (packV op fn o) i := by
  refine ⟨.V, ?_, rfl⟩
  simp only [nameOf, Laws.MajorNamed.major_V, hf, fnOfV_packV, unpackV_packV, hn, Option.map_some]

theorem named_packE {op fn : Nat} {o : OpE} {i : Instr} (hf : formatOf (op % 128) = some .E) (hn : nameE (op % 128) (fn % 65536) o = some i) :
    Named (packE op fn o) i := by
  refine ⟨.E, ?_, rfl⟩
  simp only [nameOf, Laws.MajorNamed.major_E, hf, fnOfE_packE, unpackE_packE, hn, Option.map_some]

theorem named_packS {op fn : Nat} {o : OpS} {i : Instr} (hf : formatOf (op % 128) = some .S) (hn : nameS (op % 128) (fn % 256) o = some i) :
    Named (packS op fn o) i := by
  refine ⟨.S, ?_, rfl⟩
  simp only [nameOf, Laws.MajorNamed.major_S, hf, fnOfS_packS, unpackS_packS, hn, Option.map_some]

/-- The word of an instruction names it, by the row of its format; an event has no word. -/
theorem named_of_encode {i : Instr} {w : Word} (real : ∀ x, i ≠ .illegalPattern x) (h : encode i = some w) : Named w i := by
  cases i
  case illegalPattern x => exact absurd rfl (real x)
  case add | sub | mul | mulh | div | rem | and | or | xor | andn | shl | shr | sar | rot | min | max | sel | cmp | clz | ctz | popc | sext |
      bfx | bfi | lea | jr | ret | tklend | tkret | tksplit | tkjoin | tkshare | tkdrop | tkpark | tkcarve | tkstat | tkclaim | tkclean =>
    cases h
    exact named_packA rfl rfl
  case addi | movi | movhi =>
    cases h
    exact named_packI rfl rfl
  case br | brz | jmp | call | loop | fork =>
    cases h
    exact named_packB rfl rfl
  case ld | st | ldP | ldt | pref | flush | acq | ldv | stv | lds | sts | stsA | slop | cmls | agg =>
    cases h
    exact named_packM rfl rfl
  case vadd | vsub | vmul | vfma | vmin | vmax | vabs | vneg | vdot | vcmp | vsel | vcvt | vred | vperm | vbcast | vmov | viota | vand | vor |
      vxor | vshl | vshr | vrcp | vrsq | vexp2 | vlog2 | pand | por | pnot | pmov =>
    cases h
    exact named_packV rfl rfl
  case hret | habort | hold | release | yield | gyield | gbar | nop | fence | cnew | cset | wnew | link | cxld | cgrab | send | mrel | chopen |
      chput | chget | chclose | nput | mstat | mgang | mwait | mdrain | memit | ald | ast | mzero | mterm | job | jpoll | jwait | jnext | jdone |
      tload | bulk | gather | scatter | rgather | qpush | boqp | broq | bari | waitb | gopen | gsend | gred | gdrain | gclose | rqnote | rqflt |
      rqslot | grlaunch | grsig =>
    cases h
    exact named_packE rfl rfl
  case srd | swr | trap | wdog | ctxsave | ctxrest | vgrow | vshrink | i4tab =>
    cases h
    exact named_packS rfl rfl
  all_goals cases h

/-- Settles O3: the word of an instruction names it and leaves no gap, and its fields are accepted. -/
theorem decodeOfEncode : Obligations.DecodeOfEncode := by
  unfold Obligations.DecodeOfEncode
  intro i w wellFormed real h
  obtain ⟨f, named, gap⟩ := named_of_encode real h
  have accepted : accepts i = true := wellFormed
  simp [decode, named, gap, accepted]

/-! ### The word of what a word names -/

theorem encode_of_nameA {op fn : Nat} {o : OpA} {i : Instr} (h : nameA op fn o = some i) : encode i = some (packA op fn o) := by
  unfold nameA at h
  split at h
  all_goals cases h
  all_goals rfl

theorem encode_of_nameI {op fn : Nat} {o : OpI} {i : Instr} (h : nameI op fn o = some i) : encode i = some (packI op fn o) := by
  unfold nameI at h
  split at h
  all_goals cases h
  all_goals rfl

theorem encode_of_nameM {op fn : Nat} {o : OpM} {i : Instr} (h : nameM op fn o = some i) : encode i = some (packM op fn o) := by
  unfold nameM at h
  split at h
  all_goals cases h
  all_goals rfl

theorem encode_of_nameB {op fn : Nat} {o : OpB} {i : Instr} (h : nameB op fn o = some i) : encode i = some (packB op fn o) := by
  unfold nameB at h
  split at h
  all_goals cases h
  all_goals rfl

theorem encode_of_nameV {op fn : Nat} {o : OpV} {i : Instr} (h : nameV op fn o = some i) : encode i = some (packV op fn o) := by
  unfold nameV at h
  split at h
  all_goals cases h
  all_goals rfl

theorem encode_of_nameE {op fn : Nat} {o : OpE} {i : Instr} (h : nameE op fn o = some i) : encode i = some (packE op fn o) := by
  unfold nameE at h
  split at h
  all_goals cases h
  all_goals rfl

theorem encode_of_nameS {op fn : Nat} {o : OpS} {i : Instr} (h : nameS op fn o = some i) : encode i = some (packS op fn o) := by
  unfold nameS at h
  split at h
  all_goals cases h
  all_goals rfl

/-- The instruction that a word without a gap names is packed to that word, format by format. -/
theorem encode_of_nameOf {w : Word} {f : Format} {i : Instr} (h : nameOf w = some (f, i)) (gap : gapOf f w = 0) : encode i = some w := by
  unfold nameOf at h
  dsimp only at h
  split at h
  case h_1 => cases h
  all_goals
    obtain ⟨j, named, pair⟩ := Option.map_eq_some_iff.mp h
    cases pair
  case h_2 => rw [encode_of_nameA named, packA_unpackA w gap]
  case h_3 => rw [encode_of_nameI named, packI_unpackI]
  case h_4 => rw [encode_of_nameM named, packM_unpackM]
  case h_5 => rw [encode_of_nameB named, packB_unpackB]
  case h_6 => rw [encode_of_nameV named, packV_unpackV]
  case h_7 => rw [encode_of_nameE named, packE_unpackE]
  case h_8 => rw [encode_of_nameS named, packS_unpackS]

/-- Settles O4: decoding checks that the gap is zero and the fields accepted, and the named instruction is packed to the word. -/
theorem encodeOfDecode : Obligations.EncodeOfDecode := by
  unfold Obligations.EncodeOfDecode
  intro w i h
  unfold decode at h
  split at h
  case h_1 => cases h
  case h_2 f j named =>
    split at h
    case isFalse => cases h
    case isTrue fits =>
      obtain ⟨gap, accepted⟩ := Bool.and_eq_true_iff.mp fits
      cases h
      exact ⟨encode_of_nameOf named (of_decide_eq_true gap), accepted⟩

end Sys2Proof.Machine
end

