-- ==== Sys2Proof/Proofs/IssueChecks.lean ====
section
/-! SUPPORT. The checks at issue in their order, and the instructions that always trap (R148, R151, R231, R233, R319). -/

namespace Sys2Proof.Machine

/-! ### The fate of a word that is no instruction -/

theorem patternFault_of_unnamed {w : Word} (s : State) (h : nameOf w = none) : patternFault (.illegalPattern w) s =
    some { code := if w.toNat / 2 ^ 56 % 128 = 0x2F then cIllegalEncoding else cIllegalOpcode } := by
  simp only [patternFault, h]

theorem issueFault_unnamed {w : Word} (s : State) (h : nameOf w = none) (other : w.toNat / 2 ^ 56 % 128 ≠ 0x2F) :
    issueFault (.illegalPattern w) s = some { code := cIllegalOpcode } := by
  rw [issueFault_of_patternFault (patternFault_of_unnamed s h), if_neg other]

theorem issueFault_unnamed_nop {w : Word} (s : State) (h : nameOf w = none) (nop : w.toNat / 2 ^ 56 % 128 = 0x2F) :
    issueFault (.illegalPattern w) s = some { code := cIllegalEncoding } := by
  rw [issueFault_of_patternFault (patternFault_of_unnamed s h), if_pos nop]

/-- The word of a P-only instruction faults PRIV away from the apex cores. -/
theorem issueFault_ponly_pattern {w : Word} {f : Format} {j : Instr} {s : State} (h : nameOf w = some (f, j)) (p : isPOnly j = true)
    (apex : isApex (coreOf s.cur) = false) : issueFault (.illegalPattern w) s = some { code := cPriv } := by
  apply issueFault_of_patternFault
  simp only [patternFault, h, p, apex]
  rfl

/-- A named word whose instruction the core and the mode have, and no privilege stops, faults ILLEGAL-ENCODING. -/
theorem issueFault_refused_pattern {w : Word} {f : Format} {j : Instr} {s : State} (h : nameOf w = some (f, j))
    (priv : isPOnly j = false ∨ isApex (coreOf s.cur) = true) (unit : unitOk (coreOf s.cur) j = true)
    (mode : modeIllegal (ctxOf s s.cur).hmode j = false) : issueFault (.illegalPattern w) s = some { code := cIllegalEncoding } := by
  apply issueFault_of_patternFault
  have allowed : (isPOnly j && !(isApex (coreOf s.cur))) = false := by
    rcases priv with p | p
    · rw [p, Bool.false_and]
    · rw [p, Bool.not_true, Bool.and_false]
  simp only [patternFault, h, allowed, unit, mode]
  rfl

/-! ### The six steps of the checks, each behind those before it -/

section

variable {i : Instr} {s : State} (pattern : patternFault i s = none)
include pattern

theorem issueFault_unit (unit : unitOk (coreOf s.cur) i = false) : issueFault i s = some { code := cIllegalOpcode } := by
  simp [issueFault, pattern, unit]

variable (unit : unitOk (coreOf s.cur) i = true) (mode : modeIllegal (ctxOf s s.cur).hmode i = false)
include unit mode

theorem issueFault_encoding (fields : accepts i = false) : issueFault i s = some { code := cIllegalEncoding } := by
  simp [issueFault, pattern, unit, mode, fields]

variable (fields : accepts i = true) (operands : operandBad s s.cur i = false)
include fields operands

theorem issueFault_priv (bad : privBad s s.cur i = true) : issueFault i s = some { code := cPriv } := by
  simp [issueFault, pattern, unit, mode, fields, operands, bad]

variable (priv : privBad s s.cur i = false)
include priv

theorem issueFault_allot (bad : allotBad s s.cur i = true) : issueFault i s = some { code := cRegAllot } := by
  simp [issueFault, pattern, unit, mode, fields, operands, priv, bad]

variable (allot : allotBad s s.cur i = false)
include allot

theorem issueFault_overlap (bad : overlapBad i = true) : issueFault i s = some { code := cOverlap } := by
  simp [issueFault, pattern, unit, mode, fields, operands, priv, allot, bad]

theorem issueFault_hazard (overlap : overlapBad i = false) (bad : hazardBad s s.cur i = true) :
    issueFault i s = some { code := cGroupHazard } := by
  simp [issueFault, pattern, unit, mode, fields, operands, priv, allot, overlap, bad]

end

/-! ### What makes a check fail -/

theorem privBad_of_ponly {i : Instr} {s : State} {c : Nat} (p : isPOnly i = true) (apex : isApex (coreOf c) = false) : privBad s c i = true := by
  simp [privBad, p, apex]

/-- A vector register at or above the allotment, and below what a VGROW or VSHRINK of the group leaves to the hazard check. -/
theorem allotBad_of_mem {i : Instr} {s : State} {c r : Nat} (named : r ∈ (usesOf i).rv ++ (usesOf i).wv) (above : (ctxOf s c).allot ≤ r)
    (below : ∀ n, (ctxOf s c).group.lowAllot = some n → r < n) : allotBad s c i = true := by
  have here : (decide ((ctxOf s c).allot ≤ r) && (match (ctxOf s c).group.lowAllot with | some n => decide (r < n) | none => true)) = true := by
    rw [decide_eq_true above, Bool.true_and]
    split
    · exact decide_eq_true (below _ ‹_›)
    · rfl
  exact Bool.or_eq_true_iff.mpr (.inl (List.any_eq_true.mpr ⟨r, named, here⟩))

theorem meets_iff {l m : List Nat} : meets l m = true ↔ ∃ r ∈ l, r ∈ m := by simp [meets]

/-- A 33rd instruction, or a g or v register that the group has written. -/
theorem hazardBad_of_group {i : Instr} {s : State} {c : Nat} (h : 32 ≤ (ctxOf s c).group.len ∨
    (∃ r ∈ (usesIn s c i).rg ++ (usesIn s c i).wg, r ∈ (ctxOf s c).group.g) ∨
    (∃ r ∈ (usesIn s c i).rv ++ (usesIn s c i).wv, r ∈ (ctxOf s c).group.v)) : hazardBad s c i = true := by
  rw [← meets_iff, ← meets_iff] at h
  rcases h with h | h | h
  all_goals simp [hazardBad, h]

/-! ### The trap of an instruction that a check stops -/

/-- An instruction that its first issue stops, with no earlier access unfinished, traps and does nothing else. -/
theorem run_takesTrap {i : Instr} {s : State} {f : FaultInfo} {body : State → Res (State × Word)} (h : issueFault i s = some f)
    (first : (ctxOf s s.cur).tried = false) (settled : unfinished s s.cur = false) : run i s body = .next (takeTrap s s.cur f) := by
  rw [run_fault h first, faultNow, if_neg (Bool.eq_false_iff.mp settled)]

/-- Settles O8: each clause by the step of the checks that it speaks of, and what makes that step fail. -/
theorem issueCheckOrder : Obligations.IssueCheckOrder := by
  unfold Obligations.IssueCheckOrder
  refine ⟨fun w s h other => issueFault_unnamed s h other, fun w s h nop => issueFault_unnamed_nop s h nop,
    fun w s f j h p apex => issueFault_ponly_pattern h p apex, fun i s pattern unit => issueFault_unit pattern unit,
    fun i s pattern unit mode fields => issueFault_encoding pattern unit mode fields,
    fun i s pattern unit mode fields operands p apex => issueFault_priv pattern unit mode fields operands (privBad_of_ponly p apex),
    ?allot, fun i s pattern unit mode fields operands priv allot overlap => issueFault_overlap pattern unit mode fields operands priv allot overlap,
    ?hazard, ?takes, ?gbar⟩
  case allot =>
    rintro i s pattern unit mode fields operands priv ⟨r, named, above, below⟩
    exact issueFault_allot pattern unit mode fields operands priv (allotBad_of_mem named above below)
  case hazard =>
    intro i s pattern unit mode fields operands priv allot overlap clash
    exact issueFault_hazard pattern unit mode fields operands priv allot overlap (hazardBad_of_group clash)
  case takes =>
    rintro i s f h first settled (⟨o, rfl | rfl | rfl⟩ | ⟨o, rfl⟩ | ⟨o, rfl⟩ | ⟨o, rfl | rfl⟩ | ⟨o, rfl | rfl⟩ | ⟨o, rfl | rfl⟩ | ⟨o, rfl⟩)
    all_goals
      simp only [exec, execAdd, execDiv, execTklend, execAddi, execBr, execLdv, execSt, execVadd, execVcmp, execSend, execWnew, execSwr,
        runPure, runSeq, run_takesTrap h first settled]
  case gbar =>
    intro o s unit fields gang
    exact issueFault_priv rfl unit rfl fields rfl (by simp [privBad, isPOnly, gang])

/-! ### TRAP, and the words that are no instruction -/

theorem exec_trap (o : OpS) (s : State) : exec (.trap o) s = runSeq (.trap o) s
    (fun t => .error (.trap { code := cTrap, reason := 0, detail := BitVec.ofNat 64 (o.imm.toNat % 256) } t)) := rfl

theorem exec_illegalPattern (w : Word) (s : State) :
    exec (.illegalPattern w) s = run (.illegalPattern w) s (fun t => .ok (t, nextPc t)) := rfl

/-- Settles O11: TRAP faults once it has issued, an unnamed or refused word at its checks; no earlier access keeps the trap back. -/
theorem trapInstruction : Obligations.TrapInstruction := by
  unfold Obligations.TrapInstruction
  refine ⟨?trap, ?unnamed, ?refused⟩
  case trap =>
    intro o s hi settled
    rw [exec_trap, runSeq_trap hi.2 rfl, faultIssued_takes _ _ (by rwa [beginIssue_cur]), beginIssue_cur]
  case unnamed =>
    intro w s settled first named other
    rw [exec_illegalPattern, run_takesTrap (issueFault_unnamed s named other) first settled]
  case refused =>
    intro w s f j settled first named priv unit mode
    rw [exec_illegalPattern, run_takesTrap (issueFault_refused_pattern named priv unit mode) first settled]

end Sys2Proof.Machine
end

