-- ==== Sys2Proof/Proofs/Traps.lean ====
section
/-! SUPPORT. The parts of a trap: the end of the group, the fault record, the rollback of a handler, its message at the inbox head (R31, R200, R236). -/

namespace Sys2Proof.Machine

theorem vertexOf_coreOf (c : Nat) : vertexOf (coreOf c) = vertOf c := Nat.div_div_eq_div_mul c 8 16

/-- A state without the tables that a trap may change: two states with the same rest agree in memory, the cycle, and every other field. -/
def State.rest (s : State) : State :=
  { s with ctxs := [], cores := [], clusters := [], dies := [], tokens := [], host := HostSide.reset, lastRecords := [] }

section

variable {s t : State} (h : t.rest = s.rest)
include h

theorem State.rest_mem : t.mem = s.mem := (congrArg State.mem h : t.rest.mem = s.rest.mem)
theorem State.rest_cycle : t.cycle = s.cycle := (congrArg State.cycle h : t.rest.cycle = s.rest.cycle)
theorem State.rest_cur : t.cur = s.cur := (congrArg State.cur h : t.rest.cur = s.rest.cur)
theorem State.rest_device : t.device = s.device := (congrArg State.device h : t.rest.device = s.rest.device)

end

/-! ### The end of the group, with nothing pending -/

theorem showFlags_only (s : State) (c : Nat) : showFlags s c = { s with ctxs := (showFlags s c).ctxs, clusters := (showFlags s c).clusters } := by
  have cluster (t : State) (v : Nat) (f : Cluster → Cluster) (h : t = { s with ctxs := t.ctxs, clusters := t.clusters }) :
      modCluster t v f = { s with ctxs := (modCluster t v f).ctxs, clusters := (modCluster t v f).clusters } := by
    rw [h]
    rfl
  unfold showFlags
  dsimp only
  split
  · rfl
  · split
    · exact cluster _ _ _ (cluster _ _ _ rfl)
    · exact cluster _ _ _ rfl

@[simp] theorem showFlags_rest (s : State) (c : Nat) : (showFlags s c).rest = s.rest := by
  rw [showFlags_only]
  rfl

@[simp] theorem coreAt_showFlags (s : State) (c k : Nat) : coreAt (showFlags s c) k = coreAt s k := by
  rw [coreAt, showFlags_only, coreAt]

@[simp] theorem dieAt_showFlags (s : State) (c d : Nat) : dieAt (showFlags s c) d = dieAt s d := by
  rw [dieAt, showFlags_only, dieAt]

/-- A context at the end of its group, when nothing is pending for the next. -/
def endedGroup (x : Ctx) : Ctx := { x with pendingS := [], newAllot := none, group := Group.empty, groupNo := x.groupNo + 1 }

section

variable {s : State} {c : Nat} (hp : (ctxOf s c).pendingS = [])
include hp

/-- Flags are shown, and the context is given a new group. -/
theorem endGroup_eq (ha : (ctxOf s c).newAllot = none) : endGroup s c = modCtx (showFlags s c) c endedGroup := by
  have none_ : (ctxOf (showFlags s c) c).newAllot = none := by rw [ctxOf_showFlags]; exact ha
  unfold endGroup
  dsimp only
  rw [hp, List.foldl_nil]
  simp only [modCtx, none_, endedGroup]

variable (ha : (ctxOf s c).newAllot = none)
include ha

theorem endGroup_rest : (endGroup s c).rest = s.rest := by
  rw [endGroup_eq hp ha]
  exact showFlags_rest s c

theorem coreAt_endGroup (k : Nat) : coreAt (endGroup s c) k = coreAt s k := by
  rw [endGroup_eq hp ha]
  exact coreAt_showFlags s c k

theorem dieAt_endGroup (d : Nat) : dieAt (endGroup s c) d = dieAt s d := by
  rw [endGroup_eq hp ha]
  exact dieAt_showFlags s c d

theorem ctxOf_endGroup_self : ctxOf (endGroup s c) c =
    { endedGroup (ctxOf s c) with regs := { (ctxOf s c).regs with cf := (ctxOf (showFlags s c) c).regs.cf } } := by
  rw [endGroup_eq hp ha, ctxOf_modCtx_self, ctxOf_showFlags]
  rfl

end

/-! ### The fault record (R148, R200) -/

@[simp] theorem hostWrite_rest (l : List Byte) : ∀ (s : State) (a : Nat), (hostWrite s a l).rest = s.rest := by
  induction l with
  | nil => intro s a; rfl
  | cons b l ih => intro s a; rw [hostWrite, ih]; rfl

@[simp] theorem hostWrite_cores (l : List Byte) : ∀ (s : State) (a : Nat), (hostWrite s a l).cores = s.cores := by
  induction l with
  | nil => intro s a; rfl
  | cons b l ih => intro s a; rw [hostWrite, ih]

theorem rest_host (s : State) (h : HostSide) : State.rest { s with host := h } = s.rest := rfl

@[simp] theorem hostEvent_rest (s : State) (a b : Word) : (hostEvent s a b).rest = s.rest := by
  unfold hostEvent writeEvent
  split
  · exact (rest_host _ _).trans (hostWrite_rest _ _ _)
  · split
    · rfl
    · exact rest_host _ _

@[simp] theorem hostEvent_cores (s : State) (a b : Word) : (hostEvent s a b).cores = s.cores := by
  unfold hostEvent writeEvent
  split
  · exact hostWrite_cores _ _ _
  · split <;> rfl

theorem coreAt_hostEvent (s : State) (a b : Word) (k : Nat) : coreAt (hostEvent s a b) k = coreAt s k := by
  simp only [coreAt, hostEvent_cores]

@[simp] theorem putRecord_rest (s : State) (k : Nat) (ws : List Word) : (putRecord s k ws).rest = s.rest := by
  unfold putRecord
  dsimp only
  split
  · rfl
  · rw [hostEvent_rest]; rfl

/-- What a record changes of a core: the records it holds. -/
theorem coreAt_putRecord (s : State) (k : Nat) (ws : List Word) (j : Nat) :
    coreAt (putRecord s k ws) j = { coreAt s j with heldRecords := (coreAt (putRecord s k ws) j).heldRecords } := by
  unfold putRecord
  dsimp only
  split
  · rfl
  · rw [coreAt_hostEvent, coreAt_modCore]
    split
    · subst j; rfl
    · rfl

@[simp] theorem reportCtx_rest (s : State) (c o : Nat) (f : FaultInfo) : (reportCtx s c o f).rest = s.rest := putRecord_rest _ _ _

/-- What a report changes of a core: its counters, and the records it holds. -/
theorem coreAt_reportCtx (s : State) (c o : Nat) (f : FaultInfo) (j : Nat) : coreAt (reportCtx s c o f) j =
    { coreAt s j with counters := (coreAt (reportCtx s c o f) j).counters, heldRecords := (coreAt (reportCtx s c o f) j).heldRecords } := by
  have counted : coreAt (countFault s (coreOf c) f.code) j = { coreAt s j with counters := (coreAt (countFault s (coreOf c) f.code) j).counters } := by
    unfold countFault
    rw [coreAt_modCore]
    split
    · subst j; rfl
    · rfl
  unfold reportCtx
  dsimp only
  rw [coreAt_putRecord, counted]

/-- A report counts its code at its core, up to the end of the counter (R148). -/
theorem faults_reportCtx {s : State} {c : Nat} (o : Nat) {f : FaultInfo} (h : sget 0 (coreAt s (coreOf c)).counters.faults f.code ≠ 0xFFFFFFFF) :
    sget 0 (coreAt (reportCtx s c o f) (coreOf c)).counters.faults f.code = sget 0 (coreAt s (coreOf c)).counters.faults f.code + 1 := by
  unfold reportCtx
  dsimp only
  rw [coreAt_putRecord, countFault, coreAt_modCore_self]
  simp only [sget_sput_self]
  rw [if_neg h]

/-- With room in the fault queue of the die, the record stands at its end (R200). -/
theorem faultQueue_reportCtx {s : State} {c : Nat} (o : Nat) (f : FaultInfo) (hs : (ctxOf s c).slot = none)
    (room : (dieAt s (dieOf (vertOf c))).faultQueue.length < 256) :
    (dieAt (reportCtx s c o f) (dieOf (vertOf c))).faultQueue = (dieAt s (dieOf (vertOf c))).faultQueue ++
      [recordWords f.code o f.reason (ctxOf s c).cip (ctxOf s c).hmode (agentOf s c) (ctxOf s c).pc f.addr 0 0 f.detail (f.xfer.setWidth 64)] := by
  have none_ : slotOf s c = none := by simp only [slotOf, hs]
  unfold reportCtx putRecord
  simp only [none_, vertexOf_coreOf]
  have same : dieAt (countFault s (coreOf c) f.code) (dieOf (vertOf c)) = dieAt s (dieOf (vertOf c)) := rfl
  rw [same, if_pos room, dieAt_setDie_self]

theorem poisonRequest_other (s : State) {f : FaultInfo} (h : f.code ≠ cPoison) : poisonRequest s f = s := by
  simp [poisonRequest, h]

/-! ### The rollback of a handler (R29, R31, R52) -/

@[simp] theorem moveTokens_rest (l : List (Nat × Bool)) (s : State) (a b : Word) : (moveTokens s a b l).rest = s.rest := by
  rw [moveTokens_only]; rfl

@[simp] theorem moveTokens_cores (l : List (Nat × Bool)) (s : State) (a b : Word) : (moveTokens s a b l).cores = s.cores := by
  rw [moveTokens_only]

/-- Dropping token-cache entries changes of each core its token cache alone. -/
theorem foldl_uncache (k : Nat) (l : List (Nat × Bool)) : ∀ s : State,
    (l.foldl (fun t b => uncache t k b.1) s).rest = s.rest ∧ (l.foldl (fun t b => uncache t k b.1) s).ctxs = s.ctxs ∧
      ∀ j, (coreAt (l.foldl (fun t b => uncache t k b.1) s) j).inbox = (coreAt s j).inbox := by
  induction l with
  | nil => exact fun s => ⟨rfl, rfl, fun _ => rfl⟩
  | cons b l ih =>
    intro s
    obtain ⟨rest, ctxs, inbox⟩ := ih (uncache s k b.1)
    refine ⟨rest, ctxs, fun j => (inbox j).trans ?_⟩
    rw [uncache, coreAt_modCore]
    split
    · subst j; rfl
    · rfl

theorem returnTokens_keeps (s : State) (c : Nat) : (returnTokens s c).rest = s.rest ∧ (returnTokens s c).ctxs = s.ctxs ∧
    ∀ k, (coreAt (returnTokens s c) k).inbox = (coreAt s k).inbox := by
  unfold returnTokens
  dsimp only
  split
  · exact ⟨rfl, rfl, fun _ => rfl⟩
  · split
    · obtain ⟨rest, ctxs, inbox⟩ := foldl_uncache (coreOf c) (ctxOf s c).slotTokens
        (moveTokens s (holderAgent (agentOf s c)) (holderSlot s.device (coreOf c) ‹Nat›) (ctxOf s c).slotTokens)
      exact ⟨rest.trans (moveTokens_rest _ _ _ _), ctxs.trans (moveTokens_ctxs _ _ _ _), fun k => (inbox k).trans (by simp only [coreAt, moveTokens_cores])⟩
    · exact ⟨rfl, rfl, fun _ => rfl⟩

theorem rollback_rest (s : State) (c : Nat) : (rollback s c).rest = s.rest := (returnTokens_keeps _ c).1

/-- The context of a handler that is rolled back. -/
theorem ctxOf_rollback_self (s : State) (c : Nat) : ctxOf (rollback s c) c = { ctxOf s c with
    regs := { (ctxOf s c).regs with flags := (ctxOf s c).startFlags }, sendBuf := [], writeLog := [], takenItems := [],
    slotTokens := if (ctxOf s c).cip then (ctxOf s c).slotTokens else [] } := by
  unfold rollback
  dsimp only
  rw [ctxOf_modCtx_self]
  simp only [ctxOf, (returnTokens_keeps _ c).2.1]
  rfl

theorem inbox_rollback (s : State) (c k : Nat) : (coreAt (rollback s c) k).inbox = (coreAt s k).inbox := by
  refine ((returnTokens_keeps _ c).2.2 k).trans ?_
  rw [coreAt_modCore]
  split
  · subst k; rfl
  · rfl

/-- The slot of a context depends on its number and on the inbox of its core. -/
theorem slotOf_congr {s t : State} {c : Nat} (slot : (ctxOf t c).slot = (ctxOf s c).slot)
    (inbox : (coreAt t (coreOf c)).inbox = (coreAt s (coreOf c)).inbox) : slotOf t c = slotOf s c := by
  simp only [slotOf, slot, inbox]

theorem messageToHead_some {s : State} {c : Nat} {q : Slot} (h : slotOf s c = some q) : messageToHead s c = modCore s (coreOf c) (fun x => { x with
    victim := 0
    inbox := { q with phase := .waiting, since := s.cycle } :: x.inbox.filter (fun r => r.index ≠ q.index) }) := by
  simp only [messageToHead, h]

/-! ### A trap of a context that drains no segment -/

/-- A context as the trap leaves it, its budget apart (R236). -/
def stoppedCtx (f : FaultInfo) (y : Ctx) : Ctx := { y with
  run := .trapped, skip := f.code = cTrap && f.reason = 0, stopWhy := y.stopWhy.filter (· = true), track := if f.keepTrack then y.track else [],
  latches := [], tried := false, late := 0, popSince := none, remoteGot := [], walkFails := [], tokenFails := [], cooked := none }

/-- A handler's budget no longer counts down (R147). -/
def budgetHeld (s : State) (y : Ctx) : Ctx := if y.hmode then stopBudget s y else y

/-- The state in which the fault is recorded. -/
def reported (s : State) (c : Nat) (f : FaultInfo) : State := poisonRequest (reportCtx (endGroup s c) c 0 f) f

/-- The state in which a handler is rolled back. -/
def rolledBack (s : State) (c : Nat) : State :=
  if (ctxOf s c).hmode then (if (ctxOf s c).cip then rollback s c else messageToHead (rollback s c) c) else s

/-- A trap records the fault, rolls a handler back, and stops the context. -/
theorem takeTrap_eq {s : State} {c : Nat} {f : FaultInfo} (hd : (ctxOf (reported s c f) c).drain = none) : takeTrap s c f =
    modCtx (modCtx (rolledBack (reported s c f) c) c (stoppedCtx f)) c
      (budgetHeld (modCtx (rolledBack (reported s c f) c) c (stoppedCtx f))) := by
  unfold reported at hd
  unfold takeTrap
  simp only [hd]
  rfl

section

variable {s : State} {c : Nat} {f : FaultInfo} (hp : (ctxOf s c).pendingS = []) (ha : (ctxOf s c).newAllot = none) (hf : f.code ≠ cPoison)
include hp ha hf

theorem reported_rest : (reported s c f).rest = s.rest := by
  rw [reported, poisonRequest_other _ hf, reportCtx_rest, endGroup_rest hp ha]

theorem ctxOf_reported : ctxOf (reported s c f) c =
    { endedGroup (ctxOf s c) with regs := { (ctxOf s c).regs with cf := (ctxOf (showFlags s c) c).regs.cf } } := by
  rw [reported, poisonRequest_other _ hf, ctxOf_reportCtx, ctxOf_endGroup_self hp ha]

theorem inbox_reported (k : Nat) : (coreAt (reported s c f) k).inbox = (coreAt s k).inbox := by
  rw [reported, poisonRequest_other _ hf, coreAt_reportCtx, coreAt_endGroup hp ha]

end

/-- Settles O9: nothing is pending and no handler runs, so the trap ends the group, reports the fault, and stops the context. -/
theorem trapOutsideHandler : Obligations.TrapOutsideHandler := by
  unfold Obligations.TrapOutsideHandler
  intro s c f hmode drain slot hp ha cf code room
  have group := endGroup_eq hp ha
  rw [showFlags_eq s c cf] at group
  have ended : ctxOf (endGroup s c) c = endedGroup (ctxOf s c) := by rw [group, ctxOf_modCtx_self]
  have rep : reported s c f = reportCtx (endGroup s c) c 0 f := poisonRequest_other _ code
  have ctx : ctxOf (reported s c f) c = endedGroup (ctxOf s c) := by rw [rep, ctxOf_reportCtx, ended]
  have back : rolledBack (reported s c f) c = reported s c f := by
    have outside : (ctxOf (reported s c f) c).hmode = false := by rw [ctx]; exact hmode
    rw [rolledBack, outside, if_neg Bool.false_ne_true]
  have trap := takeTrap_eq (f := f) (c := c) (s := s) (by rw [ctx]; exact drain)
  rw [back] at trap
  have stopped : ctxOf (takeTrap s c f) c = stoppedCtx f (endedGroup (ctxOf s c)) := by
    have plain : (stoppedCtx f (endedGroup (ctxOf s c))).hmode = false := hmode
    rw [trap, ctxOf_modCtx_self, ctxOf_modCtx_self, ctx, budgetHeld, plain, if_neg Bool.false_ne_true]
  have mem : (takeTrap s c f).mem = (reported s c f).mem := by rw [trap, modCtx_mem, modCtx_mem]
  have core (k : Nat) : coreAt (takeTrap s c f) k = coreAt (reported s c f) k := by simp only [coreAt, trap, modCtx_cores]
  have die (d : Nat) : dieAt (takeTrap s c f) d = dieAt (reported s c f) d := by simp only [dieAt, trap, modCtx_dies]
  refine ⟨?run, ?pc, ?regs, ?mem, ?queue, ?count, ?others⟩
  case run => rw [stopped]; rfl
  case pc => rw [stopped]; rfl
  case regs => rw [stopped]; rfl
  case mem => exact memByte_congr (mem.trans (State.rest_mem (reported_rest hp ha code)))
  case queue =>
    have free : (dieAt (endGroup s c) (dieOf (vertOf c))).faultQueue.length < 256 := by rwa [dieAt_endGroup hp ha]
    rw [die, rep, faultQueue_reportCtx 0 f (by rw [ended]; exact slot) free, dieAt_endGroup hp ha, ended]
    have agent : agentOf (endGroup s c) c = agentOf s c := by rw [agentOf, State.rest_device (endGroup_rest hp ha), agentOf]
    have mode : (endedGroup (ctxOf s c)).hmode = false := hmode
    rw [agent, mode]
    rfl
  case count =>
    intro below
    rw [core, rep, faults_reportCtx 0 (by rwa [coreAt_endGroup hp ha]), coreAt_endGroup hp ha]
  case others =>
    intro e he
    rw [trap, ctxOf_modCtx_ne _ _ he, ctxOf_modCtx_ne _ _ he, rep, ctxOf_reportCtx, group, ctxOf_modCtx_ne _ _ he]

/-- Settles O10: the handler is rolled back and its message put first, before the context stops. -/
theorem trapInHandlerRollsBack : Obligations.TrapInHandlerRollsBack := by
  unfold Obligations.TrapInHandlerRollsBack
  intro s c f q hmode cip drain slot hp ha code
  have ctx := ctxOf_reported hp ha code
  have same : slotOf (rollback (reported s c f) c) c = some q := by
    rw [← slot]
    refine slotOf_congr ?_ ?_
    · rw [ctxOf_rollback_self, ctx]; rfl
    · rw [inbox_rollback, inbox_reported hp ha code]
  have inHandler : (ctxOf (reported s c f) c).hmode = true := by rw [ctx]; exact hmode
  have whole : (ctxOf (reported s c f) c).cip = false := by rw [ctx]; exact cip
  have back : rolledBack (reported s c f) c = messageToHead (rollback (reported s c f) c) c := by
    rw [rolledBack, inHandler, whole, if_pos rfl, if_neg Bool.false_ne_true]
  rw [messageToHead_some same] at back
  have cycle : (rollback (reported s c f) c).cycle = s.cycle := State.rest_cycle ((rollback_rest _ c).trans (reported_rest hp ha code))
  have trap := takeTrap_eq (f := f) (c := c) (s := s) (by rw [ctx]; exact drain)
  have stopped : ctxOf (takeTrap s c f) c =
      stopBudget (modCtx (rolledBack (reported s c f) c) c (stoppedCtx f)) (stoppedCtx f (ctxOf (rollback (reported s c f) c) c)) := by
    have before : ctxOf (rolledBack (reported s c f) c) c = ctxOf (rollback (reported s c f) c) c := by rw [back]; rfl
    have mode : (stoppedCtx f (ctxOf (rollback (reported s c f) c) c)).hmode = true := by rw [ctxOf_rollback_self]; exact inHandler
    rw [trap, ctxOf_modCtx_self, ctxOf_modCtx_self, before, budgetHeld, mode, if_pos rfl]
  rw [ctxOf_rollback_self, ctx] at stopped
  have mem : (takeTrap s c f).mem = (rolledBack (reported s c f) c).mem := by rw [trap, modCtx_mem, modCtx_mem]
  have core (k : Nat) : coreAt (takeTrap s c f) k = coreAt (rolledBack (reported s c f) c) k := by simp only [coreAt, trap, modCtx_cores]
  refine ⟨?run, ?buffer, ?log, ?flags, ?mem, ?inbox⟩
  case run => rw [stopped]; rfl
  case buffer => rw [stopped]; rfl
  case log => rw [stopped]; rfl
  case flags => rw [stopped]; rfl
  case mem =>
    have rolled : (rollback (reported s c f) c).mem = s.mem := State.rest_mem ((rollback_rest _ c).trans (reported_rest hp ha code))
    rw [back, modCore_mem, rolled] at mem
    exact memByte_congr mem
  case inbox =>
    refine ⟨(coreAt (rollback (reported s c f) c) (coreOf c)).inbox.filter (fun r => r.index ≠ q.index), ?_⟩
    rw [core, back, coreAt_modCore_self, cycle]

end Sys2Proof.Machine
end

