-- ==== Sys2Proof/Proofs/ScalarNumbers.lean ====
section
/-! SUPPORT. The operands and results of major 0x01 as bit vectors of width W, and its integer operations on them (R246). -/

namespace Sys2Proof.Machine

/-! ### The operands -/

/-- A number of w bits as mod.u reads it. -/
def numberOf {w : Nat} (u : Bool) (x : BitVec w) : Int := if u then (x.toNat : Int) else x.toInt

/-- The operands of R246, given as bit vectors of the width. -/
def aluOf (w : Nat) (u : Bool) (x y : BitVec w) : AluIn :=
  { w := w, xu := x.toNat, yu := y.toNat, xs := x.toInt, xv := numberOf u x, yv := numberOf u y, k := y.toNat % w }

theorem signedN_toNat {w : Nat} (hw : 0 < w) (x : BitVec w) : signedN x.toNat w = x.toInt := by
  rw [← toInt_ofNat_signedN hw, BitVec.ofNat_toNat, BitVec.setWidth_eq]

/-- The second operand of R246 at a width above that of its field. -/
theorem toNat_operandB {w : Nat} (hw : 6 ≤ w) (s : State) (o : OpA) :
    ((operandB s o).setWidth w).toNat = if nbit o.md.toNat 3 then o.b.toNat else (rg s s.cur o.b.toNat).toNat % 2 ^ w := by
  have small : o.b.toNat < 2 ^ 6 := o.b.isLt
  have wide : 2 ^ 6 ≤ 2 ^ w := Nat.pow_le_pow_right (by omega) hw
  rw [operandB, nbit_md, BitVec.toNat_setWidth]
  split
  · rw [BitVec.toNat_setWidth, Nat.mod_eq_of_lt (a := o.b.toNat) (by omega), Nat.mod_eq_of_lt (by omega)]
  · rfl

/-- The operands at one width. -/
theorem aluIn_width {w : Nat} (hw : 6 ≤ w) (s : State) (o : OpA) (h : (if nbit o.md.toNat 0 then 32 else 64) = w) :
    aluIn s s.cur o = aluOf w (o.md.getLsbD 2) ((rg s s.cur o.a.toNat).setWidth w) ((operandB s o).setWidth w) := by
  have x : (rg s s.cur o.a.toNat).toNat % 2 ^ w = ((rg s s.cur o.a.toNat).setWidth w).toNat := (BitVec.toNat_setWidth _ _).symm
  have y := (toNat_operandB hw s o).symm
  unfold aluIn aluOf numberOf
  simp only [h, x, y, signedN_toNat (show 0 < w by omega)]
  rfl

theorem aluIn_eq (s : State) (o : OpA) : aluIn s s.cur o = if o.md.getLsbD 0
    then aluOf 32 (o.md.getLsbD 2) ((rg s s.cur o.a.toNat).setWidth 32) ((operandB s o).setWidth 32)
    else aluOf 64 (o.md.getLsbD 2) (rg s s.cur o.a.toNat) (operandB s o) := by
  split
  case isTrue h => exact aluIn_width (by omega) s o (by rw [nbit_md, h]; rfl)
  case isFalse h =>
    have whole := aluIn_width (w := 64) (by omega) s o (by rw [nbit_md, Bool.eq_false_iff.mpr h]; rfl)
    rwa [BitVec.setWidth_eq, BitVec.setWidth_eq] at whole

/-- The numbers that the operands stand for. -/
theorem aluIn_values (s : State) (o : OpA) :
    (aluIn s s.cur o).xv = asNumber o.md (rg s s.cur o.a.toNat) ∧ (aluIn s s.cur o).yv = asNumber o.md (operandB s o) := by
  rw [aluIn_eq]
  unfold asNumber
  split
  · exact ⟨rfl, rfl⟩
  · exact ⟨rfl, rfl⟩

/-! ### The results -/

/-- An operation on numbers gives, at both widths, what g gives on bit vectors. -/
def Computes (u : Bool) (f : AluIn → Int) (g : (w : Nat) → BitVec w → BitVec w → BitVec w) : Prop :=
  ∀ (w : Nat) (x y : BitVec w), w = 32 ∨ w = 64 → BitVec.ofInt w (f (aluOf w u x y)) = g w x y

/-- Without saturation the result is the operation at W bits, sign-extended. -/
theorem aluOut_atWidth {o : OpA} {f : AluIn → Int} {g : (w : Nat) → BitVec w → BitVec w → BitVec w} (plain : o.md.getLsbD 1 = false)
    (h : Computes (o.md.getLsbD 2) f g) (s : State) :
    aluOut o (aluIn s s.cur o).w (f (aluIn s s.cur o)) = atWidth o.md g (rg s s.cur o.a.toNat) (operandB s o) := by
  rw [aluIn_eq]
  unfold atWidth
  split
  · refine (aluOut_wrap o 32 (by omega) plain _).trans ?_
    exact congrArg (BitVec.signExtend 64) (h 32 _ _ (.inl rfl))
  · refine (aluOut_wrap o 64 (by omega) plain _).trans ?_
    exact (BitVec.signExtend_eq _).trans (h 64 _ _ (.inr rfl))

/-- With saturation it is the number held between the bounds. -/
theorem aluOut_saturated {o : OpA} (sat : o.md.getLsbD 1 = true) (s : State) (r : Int) :
    aluOut o (aluIn s s.cur o).w r = saturated o.md r := by
  rw [aluIn_eq]
  unfold saturated
  split
  · refine (aluOut_sat o 32 (by omega) sat r).trans ?_
    rw [nbit_md]
    cases o.md.getLsbD 2 <;> rfl
  · refine (aluOut_sat o 64 (by omega) sat r).trans ?_
    rw [nbit_md]
    cases o.md.getLsbD 2 <;> rfl

/-! ### The operations, each at any width -/

theorem ofInt_numberOf (w : Nat) (u : Bool) (x : BitVec w) : BitVec.ofInt w (numberOf u x) = x := by
  unfold numberOf
  split
  · rw [BitVec.ofInt_natCast, BitVec.ofNat_toNat, BitVec.setWidth_eq]
  · exact BitVec.ofInt_toInt

theorem ofInt_natCast_toNat {w : Nat} {n : Nat} {x : BitVec w} (h : n % 2 ^ w = x.toNat) : BitVec.ofInt w (n : Int) = x := by
  rw [BitVec.ofInt_natCast]
  exact BitVec.eq_of_toNat_eq (by rw [BitVec.toNat_ofNat, h])

theorem computes_add (u : Bool) : Computes u (fun a => a.xv + a.yv) (fun _ x y => x + y) := by
  intro w x y _
  exact (BitVec.ofInt_add _ _).trans (by rw [aluOf, ofInt_numberOf, ofInt_numberOf])

theorem computes_sub (u : Bool) : Computes u (fun a => a.xv - a.yv) (fun _ x y => x - y) := by
  intro w x y _
  change BitVec.ofInt w (numberOf u x - numberOf u y) = x - y
  rw [Int.sub_eq_add_neg, BitVec.ofInt_add, BitVec.ofInt_neg, ofInt_numberOf, ofInt_numberOf, BitVec.sub_eq_add_neg]

theorem computes_mul (u : Bool) : Computes u (fun a => a.xv * a.yv) (fun _ x y => x * y) := by
  intro w x y _
  exact (BitVec.ofInt_mul _ _).trans (by rw [aluOf, ofInt_numberOf, ofInt_numberOf])

theorem computes_mulh (u : Bool) : Computes u (fun a => (a.xv * a.yv) / 2 ^ a.w)
    (fun w x y => if u then BitVec.ofNat w (x.toNat * y.toNat / 2 ^ w) else BitVec.ofInt w (x.toInt * y.toInt / 2 ^ w)) := by
  intro w x y _
  cases u
  · rfl
  · change BitVec.ofInt w ((x.toNat : Int) * y.toNat / 2 ^ w) = BitVec.ofNat w (x.toNat * y.toNat / 2 ^ w)
    rw [← BitVec.ofInt_natCast]
    push_cast
    rfl

theorem computes_and (u : Bool) : Computes u (fun a => ((a.xu &&& a.yu : Nat) : Int)) (fun _ x y => x &&& y) := by
  intro w x y _
  exact ofInt_natCast_toNat (by rw [BitVec.toNat_and]; exact Nat.mod_eq_of_lt (BitVec.toNat_and x y ▸ (x &&& y).isLt))

theorem computes_or (u : Bool) : Computes u (fun a => ((a.xu ||| a.yu : Nat) : Int)) (fun _ x y => x ||| y) := by
  intro w x y _
  exact ofInt_natCast_toNat (by rw [BitVec.toNat_or]; exact Nat.mod_eq_of_lt (BitVec.toNat_or x y ▸ (x ||| y).isLt))

theorem computes_xor (u : Bool) : Computes u (fun a => ((a.xu ^^^ a.yu : Nat) : Int)) (fun _ x y => x ^^^ y) := by
  intro w x y _
  exact ofInt_natCast_toNat (by rw [BitVec.toNat_xor]; exact Nat.mod_eq_of_lt (BitVec.toNat_xor x y ▸ (x ^^^ y).isLt))

theorem computes_andn (u : Bool) : Computes u (fun a => ((a.xu &&& (2 ^ a.w - 1 - a.yu) : Nat) : Int)) (fun _ x y => x &&& ~~~y) := by
  intro w x y _
  refine ofInt_natCast_toNat ?_
  rw [BitVec.toNat_and, BitVec.toNat_not]
  exact Nat.mod_eq_of_lt (Nat.lt_of_le_of_lt Nat.and_le_left x.isLt)

theorem numberOf_lt_iff {w : Nat} (u : Bool) (x y : BitVec w) : numberOf u x < numberOf u y ↔ (if u then x.ult y else x.slt y) = true := by
  unfold numberOf
  cases u
  · simp only [Bool.false_eq_true, if_false, BitVec.slt_iff_toInt_lt]
  · simp only [if_true, BitVec.ult_iff_lt, BitVec.lt_def, Int.ofNat_lt]

theorem computes_min (u : Bool) : Computes u (fun a => min a.xv a.yv) (fun _ x y => if (if u then y.ult x else y.slt x) then y else x) := by
  intro w x y _
  change BitVec.ofInt w (min (numberOf u x) (numberOf u y)) = _
  simp only [← numberOf_lt_iff]
  split
  case isTrue less => rw [min_eq_right less.le, ofInt_numberOf]
  case isFalse more => rw [min_eq_left (not_lt.mp more), ofInt_numberOf]

theorem computes_max (u : Bool) : Computes u (fun a => max a.xv a.yv) (fun _ x y => if (if u then x.ult y else x.slt y) then y else x) := by
  intro w x y _
  change BitVec.ofInt w (max (numberOf u x) (numberOf u y)) = _
  simp only [← numberOf_lt_iff]
  split
  case isTrue less => rw [max_eq_right less.le, ofInt_numberOf]
  case isFalse more => rw [max_eq_left (not_lt.mp more), ofInt_numberOf]

theorem computes_shl (u : Bool) : Computes u (fun a => ((a.xu * 2 ^ a.k : Nat) : Int)) (fun w x y => x <<< (y.toNat % w)) := by
  intro w x y _
  refine ofInt_natCast_toNat ?_
  rw [BitVec.toNat_shiftLeft, Nat.shiftLeft_eq]
  rfl

theorem computes_shr (u : Bool) : Computes u (fun a => ((a.xu / 2 ^ a.k : Nat) : Int)) (fun w x y => x >>> (y.toNat % w)) := by
  intro w x y _
  refine ofInt_natCast_toNat ?_
  rw [BitVec.toNat_ushiftRight, Nat.shiftRight_eq_div_pow]
  exact Nat.mod_eq_of_lt (Nat.lt_of_le_of_lt (Nat.div_le_self _ _) x.isLt)

theorem computes_sar (u : Bool) : Computes u (fun a => a.xs / 2 ^ a.k) (fun w x y => x.sshiftRight (y.toNat % w)) := by
  intro w x y _
  change BitVec.ofInt w (x.toInt / 2 ^ (y.toNat % w)) = x.sshiftRight (y.toNat % w)
  rw [BitVec.sshiftRight_eq, Int.shiftRight_eq_div_pow]
  push_cast
  rfl

theorem computes_rot (u : Bool) : Computes u (fun a => ((a.xu * 2 ^ a.k + a.xu / 2 ^ (a.w - a.k) : Nat) : Int))
    (fun w x y => x.rotateLeft (y.toNat % w)) := by
  intro w x y hw
  refine ofInt_natCast_toNat ?_
  change (x.toNat * 2 ^ (y.toNat % w) + x.toNat / 2 ^ (w - y.toNat % w)) % 2 ^ w = (x.rotateLeft (y.toNat % w)).toNat
  have lt : y.toNat % w < w := Nat.mod_lt _ (by omega)
  generalize y.toNat % w = k at lt
  have low : x.toNat >>> (w - k) < 2 ^ k := by
    rw [Nat.shiftRight_eq_div_pow, Nat.div_lt_iff_lt_mul (Nat.two_pow_pos _), ← Nat.pow_add, Nat.add_sub_cancel' lt.le]
    exact x.isLt
  have high : (x.toNat <<< k) % 2 ^ w = (x.toNat % 2 ^ (w - k)) <<< k := by
    rw [Nat.shiftLeft_eq, Nat.shiftLeft_eq, Nat.mul_comm, Nat.mul_comm (_ % _), ← Nat.mul_mod_mul_left, ← Nat.pow_add, Nat.add_sub_cancel' lt.le]
  have small : (x.toNat % 2 ^ (w - k)) <<< k + x.toNat >>> (w - k) < 2 ^ w := by
    have below : x.toNat % 2 ^ (w - k) + 1 ≤ 2 ^ (w - k) := Nat.mod_lt _ (Nat.two_pow_pos _)
    calc (x.toNat % 2 ^ (w - k)) <<< k + x.toNat >>> (w - k)
        < (x.toNat % 2 ^ (w - k) + 1) * 2 ^ k := by rw [Nat.shiftLeft_eq, Nat.add_mul, Nat.one_mul]; omega
      _ ≤ 2 ^ (w - k) * 2 ^ k := Nat.mul_le_mul_right _ below
      _ = 2 ^ w := by rw [← Nat.pow_add, Nat.sub_add_cancel lt.le]
  rw [BitVec.toNat_rotateLeft, Nat.mod_eq_of_lt lt, high, ← Nat.shiftLeft_add_eq_or_of_lt low, ← Nat.shiftRight_eq_div_pow,
    ← Nat.shiftLeft_eq, Nat.add_mod, high, Nat.mod_eq_of_lt (a := x.toNat >>> (w - k)) (by
      have := Nat.pow_le_pow_right (n := 2) (by omega) lt.le; omega), Nat.mod_eq_of_lt small]

/-! ### Counts -/

/-- The first index with a property, or the length when none has it. -/
theorem find_range_getD {p : Nat → Bool} {w n : Nat} (le : n ≤ w) (before : ∀ i < n, p i = false) (at_ : n < w → p n = true) :
    ((List.range w).find? p).getD w = n := by
  cases h : (List.range w).find? p with
  | none =>
    rw [List.find?_range_eq_none] at h
    by_contra ne
    have lt : n < w := by simp only [Option.getD_none] at ne; omega
    simpa [at_ lt] using h n lt
  | some i =>
    rw [List.find?_range_eq_some] at h
    obtain ⟨holds, inside, first⟩ := h
    rw [List.mem_range] at inside
    change i = n
    rcases Nat.lt_trichotomy i n with lt | eq | gt
    · rw [before i lt] at holds; cases holds
    · exact eq
    · simpa [at_ (by omega)] using first n gt

theorem leadingZeros_eq {w : Nat} (hw : 0 < w) (x : BitVec w) : leadingZeros x.toNat w = x.clz.toNat := by
  have bounded : x.clz.toNat ≤ w := by
    have := BitVec.clz_le (x := x)
    rw [BitVec.le_def, BitVec.natCast_eq_ofNat, BitVec.toNat_ofNat] at this
    exact this.trans (Nat.mod_le _ _)
  refine find_range_getD bounded (fun i hi => ?_) (fun lt => ?_)
  · refine Nat.testBit_lt_two_pow (Nat.lt_of_lt_of_le BitVec.toNat_lt_two_pow_sub_clz (Nat.pow_le_pow_right (by omega) (by omega)))
  · refine BitVec.getLsbD_true_clz_of_ne_zero hw (fun zero => ?_)
    have full : x.clz = BitVec.ofNat w w := BitVec.clz_eq_iff_eq_zero.mpr zero
    rw [full, BitVec.toNat_ofNat, Nat.mod_eq_of_lt Nat.lt_two_pow_self] at lt
    omega

theorem trailingZeros_eq {w : Nat} (x : BitVec w) : trailingZeros x.toNat w = x.ctz.toNat := by
  have bounded : x.ctz.toNat ≤ w := by
    have := BitVec.clz_le (x := x.reverse)
    rw [BitVec.le_def, BitVec.natCast_eq_ofNat, BitVec.toNat_ofNat] at this
    exact this.trans (Nat.mod_le _ _)
  refine find_range_getD bounded (fun i hi => BitVec.getLsbD_false_of_lt_ctz hi) (fun lt => ?_)
  refine BitVec.getLsbD_true_ctz_of_ne_zero (fun zero => ?_)
  have full : x.ctz = BitVec.ofNat w w := by
    rw [BitVec.ctz, ← BitVec.natCast_eq_ofNat, BitVec.clz_eq_iff_eq_zero, zero]
    exact BitVec.eq_of_getLsbD_eq (fun i _ => by simp [BitVec.getLsbD_reverse])
  rw [full, BitVec.toNat_ofNat, Nat.mod_eq_of_lt Nat.lt_two_pow_self] at lt
  omega

theorem popCount_eq {w : Nat} (x : BitVec w) : popCount x.toNat w = x.cpop.toNat := by
  have counts (n : Nat) : ((List.range n).filter (fun i => nbit x.toNat i)).length = x.cpopNatRec n 0 := by
    induction n with
    | zero => rfl
    | succ n ih =>
      rw [List.range_succ, List.filter_append, List.length_append, ih, BitVec.cpopNatRec_succ, BitVec.cpopNatRec_eq (0 + _), Nat.zero_add]
      congr 1
      simp only [List.filter_cons, List.filter_nil, nbit]
      cases h : x.toNat.testBit n
      all_goals simp [BitVec.getLsbD, h]
  rw [popCount, counts, BitVec.toNat_cpop]

theorem computes_clz (u : Bool) : Computes u (fun a => (leadingZeros a.xu a.w : Int)) (fun _ x _ => x.clz) := by
  intro w x y hw
  refine ofInt_natCast_toNat ?_
  change leadingZeros x.toNat w % 2 ^ w = _
  rw [leadingZeros_eq (by omega), Nat.mod_eq_of_lt x.clz.isLt]

theorem computes_ctz (u : Bool) : Computes u (fun a => (trailingZeros a.xu a.w : Int)) (fun _ x _ => x.ctz) := by
  intro w x y _
  refine ofInt_natCast_toNat ?_
  change trailingZeros x.toNat w % 2 ^ w = _
  rw [trailingZeros_eq, Nat.mod_eq_of_lt x.ctz.isLt]

theorem computes_popc (u : Bool) : Computes u (fun a => (popCount a.xu a.w : Int)) (fun _ x _ => x.cpop) := by
  intro w x y _
  refine ofInt_natCast_toNat ?_
  change popCount x.toNat w % 2 ^ w = _
  rw [popCount_eq, Nat.mod_eq_of_lt x.cpop.isLt]

/-! ### Division -/

theorem numberOf_eq_zero_iff {w : Nat} (u : Bool) (x : BitVec w) : numberOf u x = 0 ↔ x = 0 := by
  unfold numberOf
  cases u
  · simp only [Bool.false_eq_true, if_false]
    rw [← BitVec.toInt_zero (w := w), BitVec.toInt_inj]
    rfl
  · simp only [if_true, Int.natCast_eq_zero]
    exact ⟨fun h => BitVec.eq_of_toNat_eq (by simpa using h), fun h => by simp [h]⟩

theorem computes_quot {o : OpA} : Computes (o.md.getLsbD 2) (aluQuot o)
    (fun _ x y => if y = 0 then BitVec.allOnes _ else if o.md.getLsbD 2 then x / y else x.sdiv y) := by
  intro w x y hw
  change BitVec.ofInt w (if numberOf _ y = 0 then -1 else if (!(o.md.getLsbD 2) && numberOf _ x = -(2 ^ (w - 1)) && numberOf _ y = -1) = true
    then numberOf _ x else (numberOf _ x).tdiv (numberOf _ y)) = if y = 0 then BitVec.allOnes w else if o.md.getLsbD 2 then x / y else x.sdiv y
  by_cases zero : y = 0
  · rw [if_pos ((numberOf_eq_zero_iff _ _).mpr zero), if_pos zero]
    exact (BitVec.ofInt_neg (n := 1)).trans BitVec.neg_one_eq_allOnes
  rw [if_neg (mt (numberOf_eq_zero_iff _ _).mp zero), if_neg zero]
  cases u : o.md.getLsbD 2
  case true =>
    refine ofInt_natCast_toNat (n := x.toNat / y.toNat) ?_
    rw [if_pos rfl, BitVec.toNat_udiv]
    exact Nat.mod_eq_of_lt (Nat.lt_of_le_of_lt (Nat.div_le_self _ _) x.isLt)
  case false =>
    change BitVec.ofInt w (if (true && decide (x.toInt = -(2 ^ (w - 1))) && decide (y.toInt = -1)) = true then x.toInt else x.toInt.tdiv y.toInt) = x.sdiv y
    split
    case isTrue wraps =>
      simp only [Bool.true_and, Bool.and_eq_true, decide_eq_true_eq] at wraps
      obtain ⟨low, neg⟩ := wraps
      have hx : x = BitVec.intMin w := by
        apply BitVec.eq_of_toInt_eq
        rw [low, BitVec.toInt_intMin_of_pos (by omega)]
      have hy : y = -1#w := by
        apply BitVec.eq_of_toInt_eq
        rw [neg, BitVec.neg_one_eq_allOnes, BitVec.toInt_allOnes, if_pos (by omega)]
      rw [BitVec.ofInt_toInt, hx, hy, BitVec.intMin_sdiv_neg_one]
    case isFalse =>
      apply BitVec.eq_of_toInt_eq
      rw [BitVec.toInt_sdiv, BitVec.toInt_ofInt]

theorem computes_rem {o : OpA} : Computes (o.md.getLsbD 2) (aluRem o) (fun _ x y => if o.md.getLsbD 2 then x % y else x.srem y) := by
  intro w x y hw
  change BitVec.ofInt w (if numberOf _ y = 0 then numberOf _ x else if (!(o.md.getLsbD 2) && numberOf _ x = -(2 ^ (w - 1)) && numberOf _ y = -1) = true
    then 0 else numberOf _ x - numberOf _ y * (numberOf _ x).tdiv (numberOf _ y)) = _
  by_cases zero : y = 0
  · rw [if_pos ((numberOf_eq_zero_iff _ _).mpr zero), ofInt_numberOf, zero]
    cases o.md.getLsbD 2
    · exact BitVec.srem_zero.symm
    · exact BitVec.umod_zero.symm
  rw [if_neg (mt (numberOf_eq_zero_iff _ _).mp zero)]
  cases u : o.md.getLsbD 2
  case true =>
    change BitVec.ofInt w ((x.toNat : Int) - y.toNat * (x.toNat : Int).tdiv y.toNat) = x % y
    rw [← Int.tmod_def]
    refine ofInt_natCast_toNat (n := x.toNat % y.toNat) ?_
    rw [BitVec.toNat_umod]
    exact Nat.mod_eq_of_lt (Nat.lt_of_le_of_lt (Nat.mod_le _ _) x.isLt)
  case false =>
    change BitVec.ofInt w (if (true && decide (x.toInt = -(2 ^ (w - 1))) && decide (y.toInt = -1)) = true then 0
      else x.toInt - y.toInt * x.toInt.tdiv y.toInt) = x.srem y
    rw [← Int.tmod_def]
    split
    case isTrue wraps =>
      simp only [Bool.true_and, Bool.and_eq_true, decide_eq_true_eq] at wraps
      rw [← BitVec.ofInt_toInt (x := x.srem y), BitVec.toInt_srem, wraps.2, Int.tmod_neg, Int.tmod_one]
    case isFalse => rw [← BitVec.toInt_srem, BitVec.ofInt_toInt]

end Sys2Proof.Machine
end

