-- ==== Sys2Proof/Proofs/RetireFrame.lean ====
section
/-! SUPPORT. What a retiring instruction leaves of the module, whatever its context had pending (R71, R188, R224). -/

namespace Sys2Proof.Machine

/-- A core without what the end of an instruction and of its group may change in it. -/
def Core.kept (x : Core) : Core :=
  { x with issueFree := 0, bankWrites := [], counters := Core.reset.counters, i4tab0 := 0, i4tab1 := 0, win := 0, heldRecords := [] }

/-- A change of one core that is none of `Core.kept`. -/
theorem kept_modCore {s : State} {j : Nat} {f : Core → Core} (hf : (f (coreAt s j)).kept = (coreAt s j).kept) (k : Nat) :
    (coreAt (modCore s j f) k).kept = (coreAt s k).kept := by
  rw [coreAt_modCore]
  split
  case isTrue same => rw [same]; exact hf
  case isFalse => rfl

theorem applySreg_rest (s : State) (c n : Nat) (w : Word) : (applySreg s c n w).rest = s.rest := by
  unfold applySreg
  split
  · dsimp only
    split <;> rfl
  all_goals rfl

theorem kept_applySreg (s : State) (c n : Nat) (w : Word) (k : Nat) : (coreAt (applySreg s c n w) k).kept = (coreAt s k).kept := by
  unfold applySreg
  split
  case h_1 =>
    dsimp only
    split <;> rfl
  case h_2 => rfl
  case h_6 => rfl
  all_goals exact kept_modCore (by rfl) k

@[simp] theorem endGroup_rest_any (s : State) (c : Nat) : (endGroup s c).rest = s.rest := by
  have pending (l : List (Nat × Word)) : ∀ t : State, (l.foldl (fun t e => applySreg t c e.1 e.2) t).rest = t.rest := by
    induction l with
    | nil => exact fun t => rfl
    | cons e l ih => exact fun t => (ih _).trans (applySreg_rest _ _ _ _)
  unfold endGroup
  exact (pending _ _).trans (showFlags_rest s c)

theorem kept_endGroup (s : State) (c k : Nat) : (coreAt (endGroup s c) k).kept = (coreAt s k).kept := by
  have pending (l : List (Nat × Word)) : ∀ t : State, (coreAt (l.foldl (fun t e => applySreg t c e.1 e.2) t) k).kept = (coreAt t k).kept := by
    induction l with
    | nil => exact fun t => rfl
    | cons e l ih => exact fun t => (ih _).trans (kept_applySreg _ _ _ _ _)
  unfold endGroup
  exact (pending _ _).trans (by rw [coreAt_showFlags])

@[simp] theorem stopCtx_rest (s : State) (c : Nat) (dog : Bool) : (stopCtx s c dog).rest = s.rest := by
  unfold stopCtx
  dsimp only
  split
  · exact reportCtx_rest _ _ _ _
  · rfl

theorem kept_stopCtx (s : State) (c : Nat) (dog : Bool) (k : Nat) : (coreAt (stopCtx s c dog) k).kept = (coreAt s k).kept := by
  unfold stopCtx
  dsimp only
  split
  · rw [coreAt_reportCtx]; rfl
  · rfl

@[simp] theorem parkGroup_rest (s : State) (c : Nat) : (parkGroup s c).rest = s.rest := by
  unfold parkGroup
  dsimp only
  split
  · exact endGroup_rest_any s c
  · split
    · exact endGroup_rest_any s c
    · exact (stopCtx_rest _ _ _).trans (endGroup_rest_any s c)

theorem kept_parkGroup (s : State) (c k : Nat) : (coreAt (parkGroup s c) k).kept = (coreAt s k).kept := by
  unfold parkGroup
  dsimp only
  split
  · exact kept_endGroup s c k
  · split
    · exact kept_endGroup s c k
    · exact (kept_stopCtx _ _ _ _).trans (kept_endGroup s c k)

@[simp] theorem followCopy_rest (s : State) (c : Nat) (x : Ctx) (npc : Word) : (followCopy s c x npc).rest = s.rest := by
  unfold followCopy; split <;> rfl

@[simp] theorem coreAt_followCopy (s : State) (c : Nat) (x : Ctx) (npc : Word) (k : Nat) : coreAt (followCopy s c x npc) k = coreAt s k := by
  unfold followCopy; split <;> rfl

@[simp] theorem chargeIssue_rest (i : Instr) (s : State) : (chargeIssue i s).rest = s.rest := by
  rw [chargeIssue_only]; rfl

theorem kept_chargeIssue (i : Instr) (s : State) (k : Nat) : (coreAt (chargeIssue i s) k).kept = (coreAt s k).kept := by
  by_cases own : k = coreOf s.cur
  · subst own; rw [coreAt_chargeIssue]; rfl
  · rw [coreAt_chargeIssue_ne _ _ own]

@[simp] theorem retire_rest (i : Instr) (s : State) (npc : Word) : (retire i s npc).rest = s.rest := by
  unfold retire
  dsimp only
  split
  · exact chargeIssue_rest i s
  · split
    · exact (parkGroup_rest _ _).trans ((followCopy_rest _ _ _ _).trans (chargeIssue_rest i s))
    · exact (followCopy_rest _ _ _ _).trans (chargeIssue_rest i s)

theorem kept_retire (i : Instr) (s : State) (npc : Word) (k : Nat) : (coreAt (retire i s npc) k).kept = (coreAt s k).kept := by
  unfold retire
  dsimp only
  split
  · exact kept_chargeIssue i s k
  · split
    · refine (kept_parkGroup _ _ _).trans ?_
      rw [coreAt_followCopy]
      exact kept_chargeIssue i s k
    · rw [coreAt_followCopy]
      exact kept_chargeIssue i s k

/-- A field of a core that the end of an instruction leaves alone. -/
theorem dividerFree_retire (i : Instr) (s : State) (npc : Word) (k : Nat) : (coreAt (retire i s npc) k).dividerFree = (coreAt s k).dividerFree :=
  (congrArg Core.dividerFree (kept_retire i s npc k) : (coreAt (retire i s npc) k).kept.dividerFree = (coreAt s k).kept.dividerFree)

end Sys2Proof.Machine
end

