-- ==== Sys2Proof/Proofs/ScalarResults.lean ====
section
/-! SUPPORT. The instructions of major 0x01: what they write, the divider, selects and fields (R246, R247). -/

namespace Sys2Proof.Machine

/-! ### What an instruction that issues satisfies, and one that waits leaves -/

theorem accepts_of_issues {i : Instr} {s : State} (hi : Issues i s) : accepts i = true := by
  by_contra refused
  have h := hi.2
  unfold issueFault at h
  simp only [Bool.not_eq_true] at refused
  simp only [refused, Bool.not_false, Bool.true_or, if_true] at h
  grind

theorem runSeq_park {i : Instr} {s t : State} {w : Stall} {body : State → Res State} (h : issueFault i s = none)
    (hb : body (beginIssue s) = .error (.park w t)) :
    runSeq i s body = .next (modCtx t t.cur (fun x => { x with run := .stalled w, tried := true })) := by
  unfold runSeq
  exact run_park h (by rw [hb])

/-- A context that waits at its instruction, whose body changed no register and no memory. -/
theorem gives_stalled {i : Instr} {s u : State} {w : Stall} {body : State → Res State} (hi : Issues i s) (he : exec i s = runSeq i s body)
    (hb : body (beginIssue s) = .error (.park w u)) (cur : u.cur = s.cur) (mem : u.mem = s.mem)
    (regs : ∀ e, (ctxOf u e).regs = (ctxOf s e).regs) (pc : (ctxOf u s.cur).pc = (ctxOf s s.cur).pc) :
    Gives i s (fun t => (ctxOf t s.cur).run = .stalled w ∧ pcOf t = pcOf s ∧ RegFrame s t [] []) := by
  refine ⟨_, he.trans (runSeq_park hi.2 hb), ?_⟩
  rw [cur]
  have same (e : Nat) : (ctxOf (modCtx u s.cur (fun x => { x with run := .stalled w, tried := true })) e).regs = (ctxOf s e).regs := by
    rw [ctxOf_modCtx]
    split
    case isTrue h => rw [h]; exact regs _
    case isFalse => exact regs _
  refine ⟨by rw [ctxOf_modCtx_self], ?_, cur, fun a => memByte_congr mem a, ?_, ?_, ?_⟩
  · unfold pcOf
    rw [modCtx_cur, cur, ctxOf_modCtx_self]
    exact pc
  · exact fun r _ => by rw [rg, rg, same]
  · exact fun r _ => by rw [rp, rp, same]
  · exact fun e _ _ => ⟨fun r => by rw [rg, rg, same], fun r => by rw [rp, rp, same]⟩

/-! ### Results at W bits -/

theorem plain_of_modWu : ∀ {o : OpA}, modWu o = true → o.md.getLsbD 1 = false := by
  have all : ∀ m : BitVec 8, (m = 0 ∨ m = 1 ∨ m = 4 ∨ m = 5) → m.getLsbD 1 = false := by decide
  intro o h
  simp only [modWu, Bool.or_eq_true, decide_eq_true_eq] at h
  exact all o.md (by bv_omega)

theorem plain_of_modWi : ∀ {o : OpA}, modWi o = true → o.md.getLsbD 1 = false := by
  have all : ∀ m : BitVec 8, (m = 0 ∨ m = 1 ∨ m = 8 ∨ m = 9) → m.getLsbD 1 = false := by decide
  intro o h
  simp only [modWi, Bool.or_eq_true, decide_eq_true_eq] at h
  exact all o.md (by bv_omega)

theorem plain_of_low {o : OpA} (h : o.md.toNat ≤ 1) : o.md.getLsbD 1 = false :=
  (by decide : ∀ m : BitVec 8, m.toNat ≤ 1 → m.getLsbD 1 = false) o.md h

theorem plain_of_zero {o : OpA} (h : (useDab o && decide (o.md = 0)) = true) : o.md.getLsbD 1 = false := by
  rw [of_decide_eq_true (Bool.and_elim_right h)]
  rfl

/-- An instruction of major 0x01 that writes f of its operands. -/
theorem gives_alu {i : Instr} {o : OpA} {s : State} {f : AluIn → Int} (hi : Issues i s)
    (he : exec i s = runPure i s (fun t => aluWrite t o f)) :
    Gives i s (fun t => Writes s t o.d.toNat (aluOut o (aluIn s s.cur o).w (f (aluIn s s.cur o)))) :=
  gives_writes (fun t => aluOut o (aluIn t t.cur o).w (f (aluIn t t.cur o))) hi he (by simp only [aluIn_beginIssue, beginIssue_cur])

/-- One without saturation: the result is the operation at W bits, sign-extended. -/
theorem gives_atWidth {i : Instr} {o : OpA} {s : State} {f : AluIn → Int} {g : (w : Nat) → BitVec w → BitVec w → BitVec w} (hi : Issues i s)
    (h : Computes (o.md.getLsbD 2) f g) (plain : o.md.getLsbD 1 = false) (he : exec i s = runPure i s (fun t => aluWrite t o f)) :
    Gives i s (fun t => Writes s t o.d.toNat (atWidth o.md g (rg s s.cur o.a.toNat) (operandB s o))) := by
  rw [← aluOut_atWidth plain h s]
  exact gives_alu hi he

/-- One of a single operand. -/
theorem gives_atWidth_unary {i : Instr} {o : OpA} {s : State} {f : AluIn → Int} {g : (w : Nat) → BitVec w → BitVec w} (hi : Issues i s)
    (h : Computes (o.md.getLsbD 2) f (fun w x _ => g w x)) (plain : o.md.getLsbD 1 = false) (he : exec i s = runPure i s (fun t => aluWrite t o f)) :
    Gives i s (fun t => Writes s t o.d.toNat (atWidth o.md (fun w x _ => g w x) (rg s s.cur o.a.toNat) 0)) :=
  gives_atWidth hi h plain he

/-- Settles O12: each operation agrees with its bit vector operation at the width. -/
theorem scalarResults : Obligations.ScalarResults := by
  unfold Obligations.ScalarResults
  refine ⟨?add, ?sub, ?mul, ?mulh, ?and, ?or, ?xor, ?andn, ?min, ?max⟩
  case add => exact fun o s hi plain => gives_atWidth hi (computes_add _) plain rfl
  case sub => exact fun o s hi plain => gives_atWidth hi (computes_sub _) plain rfl
  case mul => exact fun o s hi plain => gives_atWidth hi (computes_mul _) plain rfl
  case mulh => exact fun o s hi => gives_atWidth hi (computes_mulh _) (plain_of_modWu (Bool.and_elim_right (accepts_of_issues hi))) rfl
  case and => exact fun o s hi => gives_atWidth hi (computes_and _) (plain_of_zero (accepts_of_issues hi)) rfl
  case or => exact fun o s hi => gives_atWidth hi (computes_or _) (plain_of_zero (accepts_of_issues hi)) rfl
  case xor => exact fun o s hi => gives_atWidth hi (computes_xor _) (plain_of_zero (accepts_of_issues hi)) rfl
  case andn => exact fun o s hi => gives_atWidth hi (computes_andn _) (plain_of_zero (accepts_of_issues hi)) rfl
  case min => exact fun o s hi => gives_atWidth hi (computes_min _) (plain_of_modWu (Bool.and_elim_right (accepts_of_issues hi))) rfl
  case max => exact fun o s hi => gives_atWidth hi (computes_max _) (plain_of_modWu (Bool.and_elim_right (accepts_of_issues hi))) rfl

/-- An operation with saturation, on the numbers that its operands stand for. -/
theorem gives_saturated {i : Instr} {o : OpA} {s : State} {f : AluIn → Int} (hi : Issues i s)
    (he : exec i s = runPure i s (fun t => aluWrite t o f)) (sat : o.md.getLsbD 1 = true) :
    Gives i s (fun t => Writes s t o.d.toNat (saturated o.md (f (aluIn s s.cur o)))) := by
  rw [← aluOut_saturated sat]
  exact gives_alu hi he

/-- Settles O13: the exact number of the operands' numbers, held between the bounds. -/
theorem scalarSaturation : Obligations.ScalarSaturation := by
  unfold Obligations.ScalarSaturation
  refine ⟨?add, ?sub, ?mul⟩
  all_goals
    intro o s hi sat
    rw [← (aluIn_values s o).1, ← (aluIn_values s o).2]
  case add => exact gives_saturated (f := fun a => a.xv + a.yv) hi rfl sat
  case sub => exact gives_saturated (f := fun a => a.xv - a.yv) hi rfl sat
  case mul => exact gives_saturated (f := fun a => a.xv * a.yv) hi rfl sat

/-! ### The divider -/

/-- The state in which a division has taken the divider and written its result. -/
def divided (s : State) (o : OpA) (time : Nat) (x : Word) : State :=
  wg (modCore (beginIssue s) (coreOf s.cur) (fun y => { y with dividerFree := s.cycle + time })) s.cur o.d.toNat x

theorem coreAt_beginIssue (s : State) (k : Nat) : coreAt (beginIssue s) k = coreAt s k := by rw [coreAt, beginIssue_cores]; rfl
theorem beginIssue_cycle (s : State) : (beginIssue s).cycle = s.cycle := by rw [beginIssue_only]

/-- A division with the divider free. -/
theorem gives_divided {i : Instr} {o : OpA} {s : State} {f : AluIn → Int} {g : (w : Nat) → BitVec w → BitVec w → BitVec w} {time : Nat} (hi : Issues i s)
    (h : Computes (o.md.getLsbD 2) f g) (plain : o.md.getLsbD 1 = false) (free : (coreAt s (coreOf s.cur)).dividerFree ≤ s.cycle)
    (he : exec i s = runSeq i s (fun t => withDivider t time (fun u => aluWrite u o f))) :
    Gives i s (fun t =>
      rg t s.cur o.d.toNat = (if o.d = 0 then 0 else atWidth o.md g (rg s s.cur o.a.toNat) (operandB s o)) ∧
      pcOf t = pcOf s + 8 ∧ RegFrame s t [o.d.toNat] [] ∧ (coreAt t (coreOf s.cur)).dividerFree = s.cycle + time) := by
  rw [← aluOut_atWidth plain h s]
  generalize hx : aluOut o (aluIn s s.cur o).w (f (aluIn s s.cur o)) = x
  have body : withDivider (beginIssue s) time (fun u => aluWrite u o f) = .ok (divided s o time x) := by
    have operands (k : Nat) (y : Core → Core) : aluIn (modCore (beginIssue s) k y) s.cur o = aluIn s s.cur o := by
      rw [← aluIn_beginIssue s]; rfl
    unfold withDivider
    dsimp only
    rw [beginIssue_cur, beginIssue_cycle, coreAt_beginIssue, if_neg (Nat.not_lt.mpr free)]
    unfold aluWrite
    dsimp only
    rw [modCore_cur, beginIssue_cur, operands, hx]
    rfl
  have cur : (divided s o time x).cur = s.cur := by simp [divided]
  have run : (ctxOf (divided s o time x) s.cur).run = .ready := by simp [divided, hi.1]
  have next : nextPc (divided s o time x) = pcOf s + 8 := by
    rw [nextPc, pcOf, cur, divided, wg_ctx]
    exact congrArg (· + 8) (beginIssue_pc s _)
  refine ⟨retire i (divided s o time x) (nextPc (divided s o time x)), he.trans (runSeq_ok hi.2 body), ?_, ?_, ?_, ?_⟩
  · have result := rg_retire i (divided s o time x) (nextPc (divided s o time x)) o.d.toNat
    rw [cur] at result
    rw [result, divided, rg_wg_self]
    exact if_congr (by rw [BitVec.toNat_eq]; rfl) rfl rfl
  · have pc := retire_pc i (divided s o time x) (nextPc (divided s o time x)) (by rw [cur, run])
    rw [cur] at pc
    unfold pcOf at next ⊢
    rw [retire_cur, cur, pc, next]
  · refine regFrame_retire cur (by simp [divided]) (fun r h => ?_) (fun r _ => (rp_wg _ _ _ _ _).trans (rp_beginIssue s s.cur r)) (fun e h => ?_)
    · rw [divided, rg_wg_ne _ _ _ (by simpa using h)]
      exact rg_beginIssue s s.cur r
    · simp [divided, rg, rp, ctxOf_wg_ne _ _ _ h]
  · rw [dividerFree_retire]
    unfold divided
    rw [coreAt, wg_cores]
    exact congrArg Core.dividerFree (coreAt_modCore_self _ _ _)

/-- The time of a division at the width of mod.w (Table 16-2). -/
theorem divTime_eq (o : OpA) : resultTime (.div o) = if o.md.getLsbD 0 then 18 else 34 := by
  have low : o.md.toNat % 2 = 1 ↔ o.md.getLsbD 0 = true := by
    rw [BitVec.getLsbD, Nat.testBit_zero, decide_eq_true_eq]
  change (if _ then _ else _) = _
  exact if_congr low rfl rfl

/-- A division that waits for the divider. -/
theorem gives_waitsForDivider {i : Instr} {s : State} {time : Nat} {f : State → State} (hi : Issues i s)
    (busy : s.cycle < (coreAt s (coreOf s.cur)).dividerFree) (he : exec i s = runSeq i s (fun t => withDivider t time f)) :
    Gives i s (fun t => (ctxOf t s.cur).run = .stalled .divider ∧ pcOf t = pcOf s ∧ RegFrame s t [] []) := by
  refine gives_stalled (u := beginIssue s) hi he ?_ (beginIssue_cur s) (beginIssue_mem s) (beginIssue_regs s) (beginIssue_pc s _)
  unfold withDivider
  dsimp only
  rw [beginIssue_cur, beginIssue_cycle, coreAt_beginIssue]
  exact if_pos busy

/-- Settles O14: shifts, counts and quotients by their bit vector operations, the divider by its time. -/
theorem shiftsCountsAndDivision : Obligations.ShiftsCountsAndDivision := by
  have wu {i : Instr} {o : OpA} {s : State} (hi : Issues i s) (h : accepts i = (useDab o && modWu o)) : o.md.getLsbD 1 = false :=
    plain_of_modWu (Bool.and_elim_right (h ▸ accepts_of_issues hi))
  have wi {i : Instr} {o : OpA} {s : State} (hi : Issues i s) (h : accepts i = (useDab o && modWi o)) : o.md.getLsbD 1 = false :=
    plain_of_modWi (Bool.and_elim_right (h ▸ accepts_of_issues hi))
  have low {i : Instr} {o : OpA} {s : State} (hi : Issues i s) (h : accepts i = (useDa o && decide (o.md.toNat ≤ 1))) : o.md.getLsbD 1 = false :=
    plain_of_low (of_decide_eq_true (Bool.and_elim_right (h ▸ accepts_of_issues hi)))
  unfold Obligations.ShiftsCountsAndDivision
  refine ⟨?shl, ?shr, ?sar, ?rot, ?clz, ?ctz, ?popc, ?div, ?rem, ?divWaits, ?remWaits⟩
  case shl => exact fun o s hi => gives_atWidth hi (computes_shl _) (wi hi rfl) rfl
  case shr => exact fun o s hi => gives_atWidth hi (computes_shr _) (wi hi rfl) rfl
  case sar => exact fun o s hi => gives_atWidth hi (computes_sar _) (wi hi rfl) rfl
  case rot => exact fun o s hi => gives_atWidth hi (computes_rot _) (wi hi rfl) rfl
  case clz => exact fun o s hi => gives_atWidth_unary hi (computes_clz _) (low hi rfl) rfl
  case ctz => exact fun o s hi => gives_atWidth_unary hi (computes_ctz _) (low hi rfl) rfl
  case popc => exact fun o s hi => gives_atWidth_unary hi (computes_popc _) (low hi rfl) rfl
  case div =>
    intro o s hi free
    rw [← divTime_eq]
    exact gives_divided hi computes_quot (wu hi rfl) free rfl
  case rem =>
    intro o s hi free
    rw [← divTime_eq]
    exact gives_divided hi computes_rem (wu hi rfl) free rfl
  case divWaits => exact fun o s hi busy => gives_waitsForDivider (time := resultTime (.div o)) (f := fun u => aluWrite u o (aluQuot o)) hi busy rfl
  case remWaits => exact fun o s hi busy => gives_waitsForDivider (time := resultTime (.rem o)) (f := fun u => aluWrite u o (aluRem o)) hi busy rfl

end Sys2Proof.Machine
end

