-- ==== Sys2Proof/Proofs/ScalarFields.lean ====
section
/-! SUPPORT. SEL, CMP, SEXT, BFX, BFI and LEA: the fields they read and write, as parts of bit vectors (R247). -/

namespace Sys2Proof.Machine

/-- What CMP gives. -/
def cmpValue (o : OpA) (s : State) : Word := if condHolds (bits o.md.toNat 6 4) (aluIn s s.cur o).xv (aluIn s s.cur o).yv then 1 else 0

/-- What SEXT gives. -/
def sextValue (o : OpA) (s : State) : Word :=
  if nbit o.md.toNat 2 then BitVec.ofNat 64 ((rg s s.cur o.a.toNat).toNat % 2 ^ (8 * 2 ^ (o.md.toNat % 4)))
  else sextN ((rg s s.cur o.a.toNat).toNat % 2 ^ (8 * 2 ^ (o.md.toNat % 4))) (8 * 2 ^ (o.md.toNat % 4))

/-- What BFX gives. -/
def bfxValue (o : OpA) (s : State) : Word :=
  if nbit o.md.toNat 2 then BitVec.ofNat 64 ((rg s s.cur o.a.toNat).toNat / 2 ^ o.b.toNat % 2 ^ (o.c.toNat + 1))
  else sextN ((rg s s.cur o.a.toNat).toNat / 2 ^ o.b.toNat % 2 ^ (o.c.toNat + 1)) (o.c.toNat + 1)

/-- What BFI gives. -/
def bfiValue (o : OpA) (s : State) : Word :=
  BitVec.ofNat 64 (setBits (rg s s.cur o.d.toNat).toNat (o.b.toNat + (o.c.toNat + 1) - 1) o.b.toNat (rg s s.cur o.a.toNat).toNat)

/-- What LEA gives. -/
def leaValue (o : OpA) (s : State) : Word :=
  BitVec.ofNat 64 ((rg s s.cur o.a.toNat).toNat / 2 ^ 53 * 2 ^ 53 + (rg s s.cur o.a.toNat + (rg s s.cur o.b.toNat <<< (o.md.toNat % 4))).toNat % 2 ^ 53)

theorem exec_sel (o : OpA) (s : State) : exec (.sel o) s = runPure (.sel o) s
    (fun t => wg t t.cur o.d.toNat (if rg t t.cur o.c.toNat ≠ 0 then rg t t.cur o.a.toNat else rg t t.cur o.b.toNat)) := rfl
theorem exec_cmp (o : OpA) (s : State) : exec (.cmp o) s = runPure (.cmp o) s (fun t => wg t t.cur o.d.toNat (cmpValue o t)) := rfl
theorem exec_sext (o : OpA) (s : State) : exec (.sext o) s = runPure (.sext o) s (fun t => wg t t.cur o.d.toNat (sextValue o t)) := rfl
theorem exec_bfx (o : OpA) (s : State) : exec (.bfx o) s = runPure (.bfx o) s (fun t => wg t t.cur o.d.toNat (bfxValue o t)) := rfl
theorem exec_bfi (o : OpA) (s : State) : exec (.bfi o) s = runPure (.bfi o) s (fun t => wg t t.cur o.d.toNat (bfiValue o t)) := rfl
theorem exec_lea (o : OpA) (s : State) : exec (.lea o) s = runPure (.lea o) s (fun t => wg t t.cur o.d.toNat (leaValue o t)) := rfl

theorem cmpValue_beginIssue (o : OpA) (s : State) : cmpValue o (beginIssue s) = cmpValue o s := by simp [cmpValue, aluIn_beginIssue]
theorem sextValue_beginIssue (o : OpA) (s : State) : sextValue o (beginIssue s) = sextValue o s := by simp [sextValue]
theorem bfxValue_beginIssue (o : OpA) (s : State) : bfxValue o (beginIssue s) = bfxValue o s := by simp [bfxValue]
theorem bfiValue_beginIssue (o : OpA) (s : State) : bfiValue o (beginIssue s) = bfiValue o s := by simp [bfiValue]
theorem leaValue_beginIssue (o : OpA) (s : State) : leaValue o (beginIssue s) = leaValue o s := by simp [leaValue]

/-! ### The values as parts of bit vectors -/

/-- The low n bits of a number as a field, zero-extended or sign-extended. -/
theorem ofNat_mod (n x : Nat) : BitVec.ofNat n (x % 2 ^ n) = BitVec.ofNat n x :=
  BitVec.eq_of_toNat_eq (by rw [BitVec.toNat_ofNat, BitVec.toNat_ofNat, Nat.mod_mod])

theorem ofNat_low (n x : Nat) : BitVec.ofNat 64 (x % 2 ^ n) = (BitVec.ofNat n x).setWidth 64 := by
  refine BitVec.eq_of_toNat_eq ?_
  rw [BitVec.toNat_ofNat, BitVec.toNat_setWidth, BitVec.toNat_ofNat]

theorem sextN_low {n : Nat} (hn : 0 < n) (x : Nat) : sextN (x % 2 ^ n) n = (BitVec.ofNat n x).signExtend 64 := by
  rw [sextN_eq hn, ofNat_mod]

theorem ofNat_toNat_field (x : Word) (pos len : Nat) : BitVec.ofNat len (x.toNat / 2 ^ pos) = x.extractLsb' pos len := by
  rw [BitVec.extractLsb', Nat.shiftRight_eq_div_pow]

theorem ofNat_toNat_low (x : Word) (n : Nat) : BitVec.ofNat n x.toNat = x.setWidth n := BitVec.ofNat_toNat n x

theorem bfxValue_eq (o : OpA) (s : State) : bfxValue o s =
    (if o.md.getLsbD 2 then ((rg s s.cur o.a.toNat).extractLsb' o.b.toNat (o.c.toNat + 1)).setWidth 64
      else ((rg s s.cur o.a.toNat).extractLsb' o.b.toNat (o.c.toNat + 1)).signExtend 64) := by
  unfold bfxValue
  rw [nbit_md, ofNat_low, sextN_low (by omega), ofNat_toNat_field]

/-- The one of SEXT's widths that a code below 3 names. -/
theorem sextValue_eq {o : OpA} {s : State} {n : Nat} (pos : 0 < n) (width : 8 * 2 ^ (o.md.toNat % 4) = n) : sextValue o s =
    if o.md.getLsbD 2 then ((rg s s.cur o.a.toNat).setWidth n).setWidth 64 else ((rg s s.cur o.a.toNat).setWidth n).signExtend 64 := by
  unfold sextValue
  rw [width, nbit_md, ofNat_low, sextN_low pos, ofNat_toNat_low]

theorem leaValue_eq (o : OpA) (s : State) : leaValue o s = ((rg s s.cur o.a.toNat).extractLsb' 53 11 ++
    ((rg s s.cur o.a.toNat + (rg s s.cur o.b.toNat <<< (o.md.toNat % 4))).setWidth 53 : BitVec 53) : BitVec 64) := by
  unfold leaValue
  generalize rg s s.cur o.a.toNat = x
  generalize x + _ = e
  refine BitVec.eq_of_toNat_eq ?_
  have top : x.toNat / 2 ^ 53 < 2 ^ 11 := by have := x.isLt; omega
  have low : e.toNat % 2 ^ 53 < 2 ^ 53 := Nat.mod_lt _ (by omega)
  rw [BitVec.toNat_append, BitVec.extractLsb'_toNat, BitVec.toNat_setWidth, ← Nat.shiftLeft_add_eq_or_of_lt low, BitVec.toNat_ofNat,
    Nat.shiftRight_eq_div_pow, Nat.mod_eq_of_lt top, Nat.shiftLeft_eq, Nat.mod_eq_of_lt]
  omega

theorem testBit_setBits {x v pos len n : Nat} (hl : 0 < len) : (setBits x (pos + len - 1) pos v).testBit n =
    if pos ≤ n ∧ n < pos + len then v.testBit (n - pos) else x.testBit n := by
  have top : pos + len - 1 + 1 = pos + len := by omega
  unfold setBits
  dsimp only
  rw [top, Nat.add_sub_cancel_left]
  simp only [Nat.testBit_or, Nat.testBit_shiftLeft, Nat.testBit_shiftRight, Nat.testBit_mod_two_pow]
  rcases Nat.lt_or_ge n pos with below | above
  · rw [if_neg (by omega)]
    simp [show ¬ pos + len ≤ n by omega, show ¬ pos ≤ n by omega, below]
  rcases Nat.lt_or_ge n (pos + len) with inside | beyond
  · rw [if_pos ⟨above, inside⟩]
    simp [show ¬ pos + len ≤ n by omega, above, show ¬ n < pos by omega, show n - pos < len by omega]
  · rw [if_neg (by omega)]
    simp [beyond, show ¬ n < pos by omega, show ¬ n - pos < len by omega]

theorem bfiValue_bits (o : OpA) (s : State) {n : Nat} (hn : n < 64) : (bfiValue o s).getLsbD n =
    (if o.b.toNat ≤ n ∧ n ≤ o.b.toNat + o.c.toNat then (rg s s.cur o.a.toNat).getLsbD (n - o.b.toNat) else (rg s s.cur o.d.toNat).getLsbD n) := by
  unfold bfiValue
  rw [BitVec.getLsbD_ofNat, testBit_setBits (by omega), decide_eq_true hn, Bool.true_and]
  exact if_congr (by omega) rfl rfl

theorem cmpValue_eq (o : OpA) (s : State) : cmpValue o s = (if condHolds (o.md.extractLsb' 4 3).toNat
    (asNumber o.md (rg s s.cur o.a.toNat)) (asNumber o.md (operandB s o)) then 1 else 0) := by
  unfold cmpValue
  rw [(aluIn_values s o).1, (aluIn_values s o).2, BitVec.extractLsb'_toNat]
  rfl

/-- Settles O15: each value is a part of bit vectors, BFI bit by bit. -/
theorem selectsAndFields : Obligations.SelectsAndFields := by
  unfold Obligations.SelectsAndFields
  refine ⟨?sel, ?cmp, ?sext, ?bfx, ?bfi, ?lea⟩
  case sel =>
    intro o s hi
    rw [← ite_not]
    exact gives_writes (fun t => if rg t t.cur o.c.toNat ≠ 0 then rg t t.cur o.a.toNat else rg t t.cur o.b.toNat) hi (exec_sel o s) (by simp)
  case cmp =>
    intro o s hi
    convert gives_writes (cmpValue o) hi (exec_cmp o s) (cmpValue_beginIssue o s) using 3
    dsimp only
    rw [cmpValue_eq]
    generalize (o.md.extractLsb' 4 3).toNat = code
    rcases code with _ | _ | _ | _ | _ | _
    all_goals rfl
  case sext =>
    intro o s hi
    have named : o.md.toNat % 4 ≠ 3 := of_decide_eq_true (Bool.and_elim_right (accepts_of_issues hi))
    have code : (o.md.extractLsb' 0 2).toNat = o.md.toNat % 4 := by rw [BitVec.extractLsb'_toNat]; rfl
    have gives := gives_writes (sextValue o) hi (exec_sext o s) (sextValue_beginIssue o s)
    convert gives using 3
    dsimp only
    rw [code]
    rcases (by omega : o.md.toNat % 4 = 0 ∨ o.md.toNat % 4 = 1 ∨ o.md.toNat % 4 = 2) with c | c | c
    · rw [sextValue_eq (n := 8) (by omega) (by rw [c]; rfl), c]
      cases o.md.getLsbD 2 <;> rfl
    · rw [sextValue_eq (n := 16) (by omega) (by rw [c]; rfl), c]
      cases o.md.getLsbD 2 <;> rfl
    · rw [sextValue_eq (n := 32) (by omega) (by rw [c]; rfl), c]
      cases o.md.getLsbD 2 <;> rfl
  case bfx =>
    intro o s hi
    dsimp only
    rw [← bfxValue_eq]
    exact gives_writes (bfxValue o) hi (exec_bfx o s) (bfxValue_beginIssue o s)
  case bfi =>
    intro o s hi
    obtain ⟨t, next, writes⟩ := gives_writes (bfiValue o) hi (exec_bfi o s) (bfiValue_beginIssue o s)
    exact ⟨t, next, bfiValue o s, writes, fun n hn => bfiValue_bits o s hn⟩
  case lea =>
    intro o s hi
    rw [← leaValue_eq]
    exact gives_writes (leaValue o) hi (exec_lea o s) (leaValue_beginIssue o s)

end Sys2Proof.Machine
end

