-- ==== Sys2Proof/Proofs/TurnsAndReset.lean ====
section
/-! SUPPORT. The values at reset, words of the encoding tables, and a turn of a core whose slot stands beyond its eight contexts (R188). -/

namespace Sys2Proof.Machine

/-- Settles O2, by decoding each word. -/
theorem wordsDecode : Obligations.WordsDecode := by
  unfold Obligations.WordsDecode
  decide +kernel

/-- Settles O6: nothing is written at reset. -/
theorem resetMemoryForm : Obligations.ResetMemoryForm := rfl

/-- Settles O7: every table is empty at reset, so each lookup gives its default. -/
theorem resetValues : Obligations.ResetValues := by
  unfold Obligations.ResetValues
  refine ⟨rfl, fun _ _ => rfl, fun _ => rfl, fun _ => ⟨rfl, rfl, rfl, rfl⟩, fun _ => ⟨rfl, rfl, rfl, rfl, fun _ => ⟨?_, ?_⟩⟩⟩
  · change routineValid routineReset = false
    decide
  · change routineBudget routineReset = 20
    decide

/-! ### A slot beyond the contexts of its core

The slot of core 0 stands at 8, so that the context that issues next is context 0 of core 1. Its page is in the TLB of core 0 alone. -/

/-- NOP. -/
def nop0 : OpE := { s := 0, d := 0, a := 0, b := 0, c := 0, imm := 0 }

/-- An entry that maps the first pages of memory for execution. -/
def lowPage : TlbEntry := { page := 0, lsize := 16, leaf := 0x9A90000000000000 }

/-- Context 0 of core 1, ready inside a switch group. -/
def insideGroup : Ctx := { Ctx.reset with run := .ready, group := { Group.empty with len := 1 } }

/-- Core 0 with its slot at 8, its page and a line of NOPs cached. -/
def slotBeyond : Core := { Core.reset with turn := 8, tlb := [lowPage], icache := [(0, some (0x2F00000000000000, false, 0))] }

/-- The state of the counterexample. -/
def beyondTurn : State := { State.reset with agenda := [{ cycles := 0, act := .issue 0 0 }], ctxs := [(8, insideGroup)], cores := [(0, slotBeyond)] }

/-- The context waits for a walk, since no TLB of its own core has its page. -/
theorem step_beyondTurn : ∃ t, step beyondTurn = .next t ∧ (ctxOf t 8).run = .stalled (.walk 0) := ⟨_, rfl, rfl⟩

/-- A NOP of that context leaves it ready, whatever stands in the cores. -/
theorem exec_nop_beyondTurn (ks : Store Core) : ∃ t, exec (.nop nop0) { beyondTurn with agenda := [], cur := 8, cores := ks } = .next t ∧ (ctxOf t 8).run = .ready := by
  generalize hs : { beyondTurn with agenda := [], cur := 8, cores := ks } = s
  have ctx : ctxOf s 8 = insideGroup := by rw [← hs]; rfl
  have cur : s.cur = 8 := by rw [← hs]
  have passes : issueFault (.nop nop0) s = none := by rw [← hs]; rfl
  have still := (retire_still (.nop nop0) s (nextPc s) (by rw [cur, ctx]; rfl) (by rw [cur, ctx]; exact ⟨rfl, rfl, rfl, rfl, rfl⟩)).2.1
  have runs : exec (.nop nop0) s = .next (retire (.nop nop0) s (nextPc s)) := by
    refine (runPure_eq (body := fun t => t) passes).trans ?_
    rw [beginIssue_eq s (by rw [cur, ctx]; rfl)]
  refine ⟨_, runs, ?_⟩
  rw [cur] at still
  rw [still]
  have same : (retiredCtx (.nop nop0) s (nextPc s)).run = (ctxOf s s.cur).run := rfl
  exact same.trans (by rw [cur, ctx]; rfl)

/-- Refutes O1: the slot of a core at 8 lets a context of the next core issue, which is fetched for through that core's own TLB. -/
theorem not_stepRunsDecodedInstruction : ¬ Obligations.StepRunsDecodedInstruction := by
  unfold Obligations.StepRunsDecodedInstruction
  intro h
  have low : (ctxOf (passCycles { beyondTurn with agenda := [] } 0) 8).pc.toNat % 2 ^ 53 < 0x1FFFFF00000000 := by decide +kernel
  have cached : sget none slotBeyond.icache (leafPa lowPage.page 0 lowPage.leaf / 32) = some (0x2F00000000000000, false, 0) := by decide +kernel
  have decodes : decode ((0x2F00000000000000 : BitVec 256).extractLsb' (8 * (leafPa lowPage.page 0 lowPage.leaf % 32)) 64) = .ok (.nop nop0) := by
    decide +kernel
  obtain ⟨t, step_eq, t_eq, -⟩ := h beyondTurn 0 0 8 [] lowPage 0x2F00000000000000 0 (.nop nop0) rfl rfl rfl rfl (Nat.zero_le _) rfl low
    rfl rfl rfl cached decodes
  obtain ⟨u, stepped, waits⟩ := step_beyondTurn
  obtain ⟨v, executed, ready⟩ := exec_nop_beyondTurn t.cores
  have same : u = v := by
    have : (Host.Outcome.next u : Host.Outcome State Fault Refusal) = .next v := by
      rw [← stepped, step_eq, t_eq]
      exact executed
    injection this
  rw [same, ready] at waits
  cases waits

end Sys2Proof.Machine
end

