-- ==== Sys2Proof/Proofs/ConcreteRuns.lean ====
section
/-! SUPPORT. Refutations by a state that the model runs: each state is written out, and what the step leaves in it is computed. -/

namespace Sys2Proof.Machine

/-- What an observation sees in the state that a step answers with. -/
def observed {α : Type} (f : State → α) : Host.Outcome State Fault Refusal → Option α
  | .next t => some (f t)
  | _ => none

/-- Where a step is said to give a state of which an observation holds, running it must show that. -/
theorem Gives.observed {α : Type} {i : Instr} {s : State} {P : State → Prop} {f : State → α} {x : α} (h : Gives i s P)
    (shows : ∀ t, P t → f t = x) : observed f (exec i s) = some x := by
  obtain ⟨t, next, holds⟩ := h
  rw [next, Machine.observed, shows t holds]

/-- The same, for an observation that is a test. -/
theorem Gives.passes {i : Instr} {s : State} {P : State → Prop} {f : State → Bool} (h : Gives i s P) (shows : ∀ t, P t → f t = true)
    (fails : Machine.observed f (exec i s) ≠ some true) : False := fails (h.observed shows)

/-! ### Posted stores of another context

R292 lets 64 posted accesses of a core be out. The model counts them when a context ends or arrives at a barrier, whoever issued them. -/

/-- A posted store of context 1, out on path 1. -/
def otherStore : Flight Regs := { id := 0, ctx := 1, group := 0, path := 1, ordered := true, posted := true, slice := 0, cls := 1, ea := 0, op := .write 0 [0], wb := [], done := false, pc := 0, undo := none, due := 0, back := 0, fault := none, net := none }

/-- Context 0 may issue, and 65 stores of context 1 are out. -/
def storesOut : State := { State.reset with ctxs := [(0, insideGroup)], flights := List.replicate 65 otherStore }

/-- HRET. -/
def hret0 : OpE := { s := 0, d := 0, a := 0, b := 0, c := 0, imm := 0 }

/-- Refutes O18: the stores of another context hold back the end of one that has nothing out. -/
theorem not_forkAndHandlerEnd : ¬ Obligations.ForkAndHandlerEnd := by
  unfold Obligations.ForkAndHandlerEnd
  rintro ⟨-, -, -, ends, -⟩
  have premises : Issues (.hret hret0) storesOut ∧ NothingOut storesOut := by decide +kernel
  refine (ends hret0 storesOut premises.1 rfl premises.2 rfl rfl rfl rfl).passes (f := fun t => (ctxOf t 0).run = .idle) (fun _ ht => decide_eq_true ht.1) ?_
  decide +kernel

/-- A gang of which context 0 is a member. -/
def gangOfOne : Gang := { graph := none, clusters := [0], entry := 0, arg := 0, lbudget := 0, acct := 0, members := [(0, 0)], started := true, ended := [], arrived := [], arrivedAt := 0, preempt := false, blocks := [], lost := false }

/-- The same stores are out while context 0, a member of a gang, may issue. -/
def storesOutInGang : State := { storesOut with ctxs := [(0, { insideGroup with gang := some 0 })], gangs := [(0, some gangOfOne)] }

/-- Refutes O19: the stores of another context hold back the arrival at the barrier of one that has nothing out. -/
theorem not_holdYieldAndBarrier : ¬ Obligations.HoldYieldAndBarrier := by
  unfold Obligations.HoldYieldAndBarrier
  rintro ⟨-, -, -, -, -, -, -, arrives, -⟩
  have premises : Issues (.gbar nop0) storesOutInGang ∧ NothingOut storesOutInGang := by decide +kernel
  refine (arrives nop0 storesOutInGang 0 gangOfOne premises.1 rfl rfl rfl rfl rfl premises.2 (by decide)).passes
    (f := fun t => (ctxOf t 0).run = .stalled .gbar) (fun _ ht => decide_eq_true ht.1) ?_
  decide +kernel

/-! ### Pushes in delayed lockstep -/

/-- LDV q0, [g1]. -/
def loadToPort : OpM := { s := 0, d := 48, a := 1, b := 0, scale := 0, width := 5, kind := 0, offset := 0 }

/-- `leadingCopy` with the address of its own tiles in g1. -/
def leadingLoad : State := modCtx leadingCopy 0 (fun x => { x with regs := { x.regs with g := [(1, 0x1FFFFF00000000)] } })

theorem leadingLoad_reads : ∃ x u, memRead (beginIssue leadingLoad) (effAddr leadingLoad leadingLoad.cur loadToPort) 64 .read = .ok (x, u) ∧
    unsettled u leadingLoad.cur = false ∧ (sget [] (coreAt u (coreOf leadingLoad.cur)).qOut (loadToPort.d.toNat - 48)).length < 16 :=
  ⟨_, _, rfl, by decide +kernel, by decide +kernel⟩

/-- Refutes O27: a load into a q port of a lockstep context waits for the trailing copy. -/
theorem not_loadForms : ¬ Obligations.LoadForms := by
  unfold Obligations.LoadForms
  rintro ⟨-, -, toPort, -⟩
  obtain ⟨x, u, reads, settled, room⟩ := leadingLoad_reads
  have issues : Issues (.ldv loadToPort) leadingLoad := by decide +kernel
  refine (toPort loadToPort leadingLoad u x issues reads settled (by decide) room).passes (f := fun t => pcOf t = pcOf leadingLoad + 8)
    (fun _ ht => decide_eq_true ht.1.next) ?_
  decide +kernel

/-- VADD q0, v0, v0 in a format. -/
def addToPort (fmt : BitVec 4) : OpV := { s := 0, d := 48, a := 0, b := 0, c := 0, pred := 0, hold := 0, fmt := fmt, rnd := 0, limm := 0 }

/-- A context that has written lanes stands at the next word. -/
theorem laneWrites_moves {s t : State} {o : OpV} {n : Nat} {f : Nat → Nat} (written : LaneWrites s t o n f) : pcOf t = pcOf s + 8 := by
  obtain ⟨x, writes, -⟩ := written
  exact writes.frame.1

/-- Refutes O32: a VADD.I32 of a lockstep context that pushes its result waits for the trailing copy. -/
theorem not_vectorIntegers : ¬ Obligations.VectorIntegers := by
  unfold Obligations.VectorIntegers
  rintro ⟨adds, -⟩
  have premises : Issues (.vadd (addToPort 4)) leadingCopy ∧ Quiet leadingCopy ∧ Served leadingCopy (addToPort 4) 2 := by decide +kernel
  refine (adds (addToPort 4) leadingCopy _ _ List.mem_cons_self (by decide) premises.1 premises.2.1 premises.2.2).passes
    (f := fun t => pcOf t = pcOf leadingCopy + 8) (fun _ ht => decide_eq_true (laneWrites_moves ht.1)) ?_
  decide +kernel

/-- Refutes O33: a VADD.FP32 of a lockstep context that pushes its result waits for the trailing copy. -/
theorem not_vectorFloatsAndSums : ¬ Obligations.VectorFloatsAndSums := by
  unfold Obligations.VectorFloatsAndSums
  rintro ⟨adds, -⟩
  have premises : Issues (.vadd (addToPort 13)) leadingCopy ∧ Quiet leadingCopy ∧ Served leadingCopy (addToPort 13) 2 := by decide +kernel
  refine (adds (addToPort 13) leadingCopy _ _ List.mem_cons_self (by decide) premises.1 premises.2.1 premises.2.2).passes
    (f := fun t => pcOf t = pcOf leadingCopy + 8) (fun _ ht => decide_eq_true (laneWrites_moves ht.1)) ?_
  decide +kernel

/-! ### A TLB of more entries than R88 gives it -/

/-- ACQ of 64 bytes from g1 on. -/
def acquire64 : OpM := { s := 0, d := 0, a := 1, b := 0, scale := 0, width := 0, kind := 0, offset := 1 }

/-- The page of an index. -/
def pageOf (n : Nat) : TlbEntry := { page := 65536 * n, lsize := 16, leaf := 0x9A90000000000000 }

/-- The range of 64 bytes at 0xFFE0 lies in pages 0 and 1, which stand first and last of 33 in the TLB. -/
def crowdedTlb : State := { State.reset with
  ctxs := [(0, { insideGroup with regs := { Regs.reset with g := [(1, 0xFFE0)] } })]
  cores := [(0, { Core.reset with tlb := [pageOf 0] ++ (List.range 31).map (fun i => pageOf (i + 2)) ++ [pageOf 1] })] }

/-- Refutes O28: the use of the first page drops the last entry, and the second page of the range must be walked. -/
theorem not_lineInstructions : ¬ Obligations.LineInstructions := by
  unfold Obligations.LineInstructions
  rintro ⟨-, -, -, -, -, acquires, -⟩
  have issues : Issues (.acq acquire64) crowdedTlb := by decide +kernel
  have found : ∀ p ∈ pieces ((rg crowdedTlb crowdedTlb.cur acquire64.a.toNat).toNat % 2 ^ 53) (rangeBytes acquire64),
      (tlbFind (coreAt crowdedTlb (coreOf crowdedTlb.cur)).tlb p.1).isSome = true := by decide +kernel
  refine (acquires acquire64 crowdedTlb issues (by decide +kernel) (by decide +kernel) found).passes
    (f := fun t => pcOf t = pcOf crowdedTlb + 8) (fun _ ht => decide_eq_true ht.1.1) ?_
  decide +kernel

/-! ### An I4 table that is due later -/

/-- I4TAB [g1]. -/
def tableLoad : OpS := { s := 0, d := 0, a := 1, sreg := 0, imm := 0 }

/-- A table that is due in a thousand cycles stands at core 0, and g1 holds the address of its own tiles. -/
def tableWaiting : State := { State.reset with
  ctxs := [(0, { insideGroup with regs := { Regs.reset with g := [(1, 0x1FFFFF00000000)] } })]
  cores := [(0, { Core.reset with i4next := [(1000, 0, 0)] })] }

theorem tableWaiting_reads : ∃ x u y w, memRead (beginIssue tableWaiting) 0x1FFFFF00000000 8 .read = .ok (x, u) ∧
    memRead u 0x1FFFFF00000008 8 .read = .ok (y, w) ∧ (coreAt w 0).i4next.map (·.1) = [1000] := ⟨_, _, _, _, rfl, rfl, rfl⟩

/-- Refutes O36: tables stand in the order in which they take effect, so that a new one comes before one that is due later. -/
theorem not_specialRegisters : ¬ Obligations.SpecialRegisters := by
  unfold Obligations.SpecialRegisters
  rintro ⟨-, -, -, -, -, -, -, -, -, loads, -⟩
  obtain ⟨x, u, y, w, first, second, waiting⟩ := tableWaiting_reads
  have premises : Issues (.i4tab tableLoad) tableWaiting ∧ Quiet tableWaiting ∧ unsettled tableWaiting tableWaiting.cur = false := by decide +kernel
  refine (loads tableLoad tableWaiting u w x y premises.1 premises.2.1 premises.2.2 (by decide +kernel) first second).passes
    (f := fun t => ((coreAt t 0).i4next.map (·.1)).head? = some 1000) (fun t ht => decide_eq_true ?_) ?_
  · obtain ⟨-, tables⟩ := ht
    have tables0 : (coreAt t 0).i4next = (coreAt w 0).i4next ++ _ := tables
    rw [tables0, List.map_append, waiting]
    rfl
  · decide +kernel

end Sys2Proof.Machine
end

