-- ==== Sys2Proof/Proofs/IssueFrame.lean ====
section
/-! SUPPORT. What the checks on the way of an access leave alone, and what an instruction that goes on leaves when it has retired: the frame
in which the statements on sends, cells, chords, slices and jobs are proved. -/

namespace Sys2Proof.Machine

/-! ### What the checks of an access may change -/

/-- The start of an instruction, a translation and a token check change only what is looked up, and times. -/
structure Looked (s u : State) : Prop where
  only : u = { s with ctxs := u.ctxs, cores := u.cores, clusters := u.clusters, tokens := u.tokens }
  ctx : ∀ c, ctxOf u c = { ctxOf s c with
    late := (ctxOf u c).late, fresh := (ctxOf u c).fresh, budgetEnd := (ctxOf u c).budgetEnd, budgetKept := (ctxOf u c).budgetKept
    slotTokens := (ctxOf u c).slotTokens }
  core : ∀ k, coreAt u k = { coreAt s k with tlb := (coreAt u k).tlb, tokenCache := (coreAt u k).tokenCache }
  cluster : ∀ v, clusterAt u v = { clusterAt s v with tlb := (clusterAt u v).tlb }

namespace Looked

theorem refl (s : State) : Looked s s := ⟨rfl, fun _ => rfl, fun _ => rfl, fun _ => rfl⟩

theorem trans {s t u : State} (h : Looked s t) (k : Looked t u) : Looked s u where
  only := by
    rw [k.only, h.only]
  ctx c := by
    rw [k.ctx c, h.ctx c]
  core c := by
    rw [k.core c, h.core c]
  cluster v := by
    rw [k.cluster v, h.cluster v]

variable {s u : State} (h : Looked s u)
include h

theorem cur : u.cur = s.cur := by rw [h.only]
theorem mem : u.mem = s.mem := by rw [h.only]
theorem cycle : u.cycle = s.cycle := by rw [h.only]
theorem device : u.device = s.device := by rw [h.only]
theorem flights : u.flights = s.flights := by rw [h.only]
theorem messages : u.messages = s.messages := by rw [h.only]
theorem nextId : u.nextId = s.nextId := by rw [h.only]
theorem regs (c : Nat) : (ctxOf u c).regs = (ctxOf s c).regs := by rw [h.ctx]
theorem pc (c : Nat) : (ctxOf u c).pc = (ctxOf s c).pc := by rw [h.ctx]
theorem run (c : Nat) : (ctxOf u c).run = (ctxOf s c).run := by rw [h.ctx]
theorem hmode (c : Nat) : (ctxOf u c).hmode = (ctxOf s c).hmode := by rw [h.ctx]
theorem sendBuf (c : Nat) : (ctxOf u c).sendBuf = (ctxOf s c).sendBuf := by rw [h.ctx]
theorem unsettled (c : Nat) : Machine.unsettled u c = Machine.unsettled s c := by rw [Machine.unsettled, h.flights, Machine.unsettled]
theorem fenced (c p : Nat) : Machine.fenced u c p = Machine.fenced s c p := by rw [Machine.fenced, h.flights, Machine.fenced]
theorem rg (c r : Nat) : Machine.rg u c r = Machine.rg s c r := by rw [Machine.rg, h.regs, Machine.rg]
theorem rp (c r : Nat) : Machine.rp u c r = Machine.rp s c r := by rw [Machine.rp, h.regs, Machine.rp]
theorem rv (c r : Nat) : Machine.rv u c r = Machine.rv s c r := by rw [Machine.rv, h.regs, Machine.rv]

end Looked

/-- A change of the lookup fields of one core. -/
theorem modCore_looked (s : State) (k : Nat) {f : Core → Core} (hf : ∀ x, f x = { x with tlb := (f x).tlb, tokenCache := (f x).tokenCache }) :
    Looked s (modCore s k f) where
  only := rfl
  ctx _ := rfl
  core j := by
    rw [coreAt_modCore]
    split
    case isTrue same => rw [same]; exact hf _
    case isFalse => rfl
  cluster _ := rfl

theorem modCluster_looked (s : State) (k : Nat) {f : Cluster → Cluster} (hf : ∀ x, f x = { x with tlb := (f x).tlb }) :
    Looked s (modCluster s k f) where
  only := rfl
  ctx _ := rfl
  core _ := rfl
  cluster j := by
    rw [clusterAt_modCluster]
    split
    case isTrue same => rw [same]; exact hf _
    case isFalse => rfl

theorem modCtx_looked (s : State) (k : Nat) {f : Ctx → Ctx} (hf : ∀ x, f x = { x with
      late := (f x).late, fresh := (f x).fresh, budgetEnd := (f x).budgetEnd, budgetKept := (f x).budgetKept, slotTokens := (f x).slotTokens }) :
    Looked s (modCtx s k f) where
  only := rfl
  ctx j := by
    rw [ctxOf_modCtx]
    split
    case isTrue same => rw [same]; exact hf _
    case isFalse => rfl
  core _ := rfl
  cluster _ := rfl

theorem addLate_looked (s : State) (c n : Nat) : Looked s (addLate s c n) := by
  unfold addLate
  split
  case isTrue => exact .refl s
  case isFalse => exact modCtx_looked s c (fun _ => rfl)

theorem moveTokens_looked (s : State) (a b : Word) (l : List (Nat × Bool)) : Looked s (moveTokens s a b l) := by
  rw [moveTokens_only]
  exact ⟨rfl, fun _ => rfl, fun _ => rfl, fun _ => rfl⟩

theorem beginIssue_looked (s : State) : Looked s (beginIssue s) := by
  unfold beginIssue
  dsimp only
  split
  · exact .refl s
  · refine (modCtx_looked s s.cur (f := fun y => { y with fresh := false, budgetEnd := y.budgetKept.map (s.cycle + ·), budgetKept := none })
      (fun _ => rfl)).trans ?_
    split
    · exact (moveTokens_looked _ _ _ _).trans (modCtx_looked _ _ (fun _ => rfl))
    · exact .refl _

theorem tlbLookup_looked {s u : State} {k va n : Nat} {e : TlbEntry} (h : tlbLookup s k va = some (e, n, u)) : Looked s u := by
  unfold tlbLookup at h
  split at h
  case h_1 =>
    cases h
    exact modCore_looked s k (fun _ => rfl)
  case h_2 =>
    split at h
    case h_1 =>
      cases h
      exact (modCore_looked s k (fun _ => rfl)).trans (modCluster_looked _ _ (fun _ => rfl))
    case h_2 => cases h

theorem translate_looked {s u : State} {ea : Word} {p : Perm} {x : Target} (h : translate s ea p = .ok (x, u)) : Looked s u := by
  unfold translate at h
  simp only [trapAt, parkOn] at h
  split at h
  case isTrue =>
    split at h
    all_goals cases h
    exact .refl s
  case isFalse =>
    split at h
    case isTrue =>
      repeat' split at h
      all_goals cases h
      all_goals exact .refl s
    case isFalse =>
      split at h
      case h_1 => cases h
      case h_2 =>
        split at h
        case h_1 => cases h
        case h_2 e n v found =>
          split at h
          all_goals cases h
          exact (tlbLookup_looked found).trans (addLate_looked _ _ _)

theorem tokenCheck_looked {s u : State} {ea : Word} {k : TokenUse} {path : Nat} {m : Mode} (h : tokenCheck s ea k path = .ok (m, u)) : Looked s u := by
  have walks {α : Type} (t : State) (va : Nat) (x : α) : askTokenWalk (α := α) t va path ≠ .ok x := by
    unfold askTokenWalk
    dsimp only [parkOn]
    split <;> exact fun h => by cases h
  unfold tokenCheck at h
  simp only [parkOn] at h
  split at h
  case isTrue => cases h
  case isFalse =>
    split at h
    case h_1 =>
      split at h
      case isTrue => cases h
      case isFalse =>
        split at h
        case h_1 =>
          split at h
          all_goals cases h
          exact .refl s
        case h_2 => exact absurd h (walks _ _ _)
    case h_2 =>
      split at h
      case h_1 =>
        split at h
        case h_1 => cases h
        case h_2 =>
          split at h
          case h_1 =>
            cases h
            exact modCore_looked s _ (fun _ => rfl)
          case h_2 => exact absurd h (walks _ _ _)
      case h_2 => exact absurd h (walks _ _ _)

/-! ### What retiring leaves of a context -/

/-- A context without what the end of an instruction and of its group may change in it. -/
def Ctx.kept (x : Ctx) : Ctx :=
  { x with
    regs := { x.regs with v := [], flags := 0, cf := 0 }, pc := 0, allot := 0, rmode := 0, latches := [], readyAt := 0, tried := false, late := 0
    popSince := none, remoteGot := [], walkFails := [], tokenFails := [], cooked := none, lockPass := false, group := Group.empty, groupNo := 0
    pendingS := [], newAllot := none, run := .idle, stopWhy := none }

theorem ctxKept_modCtx {s : State} {j : Nat} {f : Ctx → Ctx} (hf : (f (ctxOf s j)).kept = (ctxOf s j).kept) (c : Nat) :
    (ctxOf (modCtx s j f) c).kept = (ctxOf s c).kept := by
  rw [ctxOf_modCtx]
  split
  case isTrue same => rw [same]; exact hf
  case isFalse => rfl

theorem ctxKept_applySreg (s : State) (c n : Nat) (w : Word) (e : Nat) : (ctxOf (applySreg s c n w) e).kept = (ctxOf s e).kept := by
  unfold applySreg
  split
  case h_1 =>
    dsimp only
    split
    · rfl
    · exact ctxKept_modCtx rfl e
  case h_2 => exact ctxKept_modCtx rfl e
  all_goals rfl

theorem kept_reallot (x : Ctx) (n : Nat) : (reallot x n).kept = x.kept := rfl

theorem ctxKept_endGroup (s : State) (c e : Nat) : (ctxOf (endGroup s c) e).kept = (ctxOf s e).kept := by
  have pending (l : List (Nat × Word)) : ∀ t : State, (ctxOf (l.foldl (fun t e => applySreg t c e.1 e.2) t) e).kept = (ctxOf t e).kept := by
    induction l with
    | nil => exact fun t => rfl
    | cons e l ih => exact fun t => (ih _).trans (ctxKept_applySreg _ _ _ _ _)
  unfold endGroup
  refine (ctxKept_modCtx ?_ e).trans ((pending _ _).trans ?_)
  · dsimp only
    split <;> rfl
  · rw [ctxOf_showFlags]
    rfl

theorem ctxKept_stopCtx (s : State) (c : Nat) (dog : Bool) (e : Nat) : (ctxOf (stopCtx s c dog) e).kept = (ctxOf s e).kept := by
  unfold stopCtx
  dsimp only
  split
  · rw [ctxOf_reportCtx]
    exact ctxKept_modCtx rfl e
  · exact ctxKept_modCtx rfl e

theorem ctxKept_parkGroup (s : State) (c e : Nat) : (ctxOf (parkGroup s c) e).kept = (ctxOf s e).kept := by
  unfold parkGroup
  dsimp only
  split
  · exact ctxKept_endGroup s c e
  · split
    · exact (ctxKept_modCtx rfl e).trans (ctxKept_endGroup s c e)
    · exact (ctxKept_stopCtx _ _ _ _).trans (ctxKept_endGroup s c e)

/-- What retiring leaves of its own context. -/
theorem ctxKept_retire (i : Instr) (s : State) (npc : Word) : (ctxOf (retire i s npc) s.cur).kept = (ctxOf s s.cur).kept := by
  have own := (partnerOf_ne s.cur).symm
  unfold retire
  dsimp only
  split
  · rw [ctxOf_chargeIssue]
  · split
    · refine (ctxKept_parkGroup _ _ _).trans ?_
      rw [ctxOf_followCopy _ _ _ _ own, ctxOf_setCtx_self]
      rfl
    · rw [ctxOf_followCopy _ _ _ _ own, ctxOf_setCtx_self]
      rfl


section

variable (i : Instr) (s : State) (npc : Word)

@[simp] theorem retire_flights : (retire i s npc).flights = s.flights :=
  (congrArg State.flights (retire_rest i s npc) : (retire i s npc).rest.flights = s.rest.flights)
@[simp] theorem retire_messages : (retire i s npc).messages = s.messages :=
  (congrArg State.messages (retire_rest i s npc) : (retire i s npc).rest.messages = s.rest.messages)
@[simp] theorem retire_nextId : (retire i s npc).nextId = s.nextId :=
  (congrArg State.nextId (retire_rest i s npc) : (retire i s npc).rest.nextId = s.rest.nextId)
@[simp] theorem retire_cycle : (retire i s npc).cycle = s.cycle := State.rest_cycle (retire_rest i s npc)

theorem retire_sendBuf : (ctxOf (retire i s npc) s.cur).sendBuf = (ctxOf s s.cur).sendBuf :=
  (congrArg Ctx.sendBuf (ctxKept_retire i s npc) : (ctxOf (retire i s npc) s.cur).kept.sendBuf = (ctxOf s s.cur).kept.sendBuf)
theorem retire_cip : (ctxOf (retire i s npc) s.cur).cip = (ctxOf s s.cur).cip :=
  (congrArg Ctx.cip (ctxKept_retire i s npc) : (ctxOf (retire i s npc) s.cur).kept.cip = (ctxOf s s.cur).kept.cip)

end

/-! ### An instruction that goes on -/

/-- The state in which an instruction that goes on has done its work: of its context it wrote the g registers `gs`. -/
structure Acts (s u : State) (gs : List Nat) : Prop where
  cur : u.cur = s.cur
  run : (ctxOf u s.cur).run = .ready
  pc : (ctxOf u s.cur).pc = (ctxOf s s.cur).pc
  g : ∀ r, r ∉ gs → rg u s.cur r = rg s s.cur r
  p : ∀ r, rp u s.cur r = rp s s.cur r
  others : ∀ e, e ≠ s.cur → (∀ r, rg u e r = rg s e r) ∧ ∀ r, rp u e r = rp s e r

namespace Acts

variable {s u v : State} {gs : List Nat}

theorem of_looked (hr : (ctxOf s s.cur).run = .ready) (h : Looked s u) : Acts s u [] where
  cur := h.cur
  run := (h.run _).trans hr
  pc := h.pc _
  g r _ := h.rg _ r
  p r := h.rp _ r
  others e _ := ⟨h.rg e, h.rp e⟩

/-- A change that leaves the registers of every context, and the place and run of its own. -/
theorem same (h : Acts s u gs) (cur : v.cur = u.cur) (regs : ∀ e, (ctxOf v e).regs = (ctxOf u e).regs)
    (pc : (ctxOf v u.cur).pc = (ctxOf u u.cur).pc) (run : (ctxOf v u.cur).run = (ctxOf u u.cur).run) : Acts s v gs where
  cur := cur.trans h.cur
  run := by rw [h.cur] at run; rw [run, h.run]
  pc := by rw [h.cur] at pc; rw [pc, h.pc]
  g r hr := by rw [← h.g r hr, rg, rg, regs]
  p r := by rw [← h.p r, rp, rp, regs]
  others e he := by
    obtain ⟨g, p⟩ := h.others e he
    exact ⟨fun r => by rw [← g r, rg, rg, regs], fun r => by rw [← p r, rp, rp, regs]⟩

theorem ctxs (h : Acts s u gs) (cur : v.cur = u.cur) (hc : v.ctxs = u.ctxs) : Acts s v gs := by
  have at_ (e : Nat) : ctxOf v e = ctxOf u e := by rw [ctxOf, hc, ctxOf]
  exact h.same cur (fun e => by rw [at_]) (by rw [at_]) (by rw [at_])

theorem modCtx (h : Acts s u gs) {c : Nat} {f : Ctx → Ctx} (hf : ∀ x, (f x).regs = x.regs ∧ (f x).pc = x.pc ∧ (f x).run = x.run) :
    Acts s (modCtx u c f) gs := by
  have at_ (e : Nat) : (ctxOf (Machine.modCtx u c f) e).regs = (ctxOf u e).regs ∧ (ctxOf (Machine.modCtx u c f) e).pc = (ctxOf u e).pc ∧
      (ctxOf (Machine.modCtx u c f) e).run = (ctxOf u e).run := by
    rw [ctxOf_modCtx]
    split
    case isTrue same => rw [same]; exact hf _
    case isFalse => exact ⟨rfl, rfl, rfl⟩
  exact h.same rfl (fun e => (at_ e).1) (at_ _).2.1 (at_ _).2.2

theorem wg (h : Acts s u gs) {d : Nat} (x : Word) (hd : d ∈ gs) : Acts s (wg u s.cur d x) gs where
  cur := (wg_cur _ _ _ _).trans h.cur
  run := by rw [wg_run, h.run]
  pc := by rw [wg_ctx]; exact h.pc
  g r hr := by
    rw [rg_wg_ne _ _ _ (fun same => hr (by rw [same]; exact hd)), h.g r hr]
  p r := by rw [rp_wg, h.p r]
  others e he := by
    obtain ⟨g, p⟩ := h.others e he
    exact ⟨fun r => by rw [← g r, rg, rg, ctxOf_wg_ne _ _ _ he], fun r => by rw [← p r, rp, rp, ctxOf_wg_ne _ _ _ he]⟩

theorem mono {gs' : List Nat} (h : Acts s u gs) (sub : gs ⊆ gs') : Acts s u gs' := { h with g := fun r hr => h.g r (fun hm => hr (sub hm)) }

end Acts

section

variable {i : Instr} {s u : State} {gs : List Nat}

/-- Where the context stands after its instruction retired. -/
theorem pcOf_retire (h : Acts s u gs) : pcOf (retire i u (nextPc u)) = pcOf s + 8 := by
  have pc := retire_pc i u (nextPc u) (by rw [h.cur, h.run])
  rw [pcOf, retire_cur, pc, nextPc, pcOf, h.cur, h.pc, pcOf]

theorem proceeds_retire (h : Acts s u gs) (mem : u.mem = s.mem) : Proceeds s (retire i u (nextPc u)) gs :=
  ⟨pcOf_retire h, regFrame_retire h.cur mem h.g (fun r _ => h.p r) h.others⟩

theorem moves_retire (h : Acts s u gs) : Moves s (retire i u (nextPc u)) gs where
  next := pcOf_retire h
  cur := (retire_cur _ _ _).trans h.cur
  g r hr := by
    have g := rg_retire i u (nextPc u) r
    rw [h.cur] at g
    rw [g, h.g r hr]
  p r := by
    have p := rp_retire i u (nextPc u) r
    rw [h.cur] at p
    rw [p, h.p r]

variable {body : State → Res State} {P : State → Prop}

/-- An instruction whose body gives u answers u, retired. -/
theorem gives_retire (hi : Issues i s) (he : exec i s = runSeq i s body) (hb : body (beginIssue s) = .ok u)
    (hP : P (retire i u (nextPc u))) : Gives i s P := ⟨_, he.trans (runSeq_ok hi.2 hb), hP⟩

end

/-- What the instruction wrote to g[d] reads back (R72). -/
theorem rg_retire_written (i : Instr) {s u : State} (d : BitVec 6) (x npc : Word) (cur : u.cur = s.cur) :
    rg (retire i (wg u s.cur d.toNat x) npc) s.cur d.toNat = if d = 0 then 0 else x := by
  have read := rg_retire i (wg u s.cur d.toNat x) npc d.toNat
  rw [wg_cur, cur, rg_wg_self] at read
  simpa [BitVec.toNat_eq] using read

/-! ### The gates of an effect that cannot be undone, and the two ways on from them -/

section

variable {s u : State} (h : Looked s u)
include h

theorem settle_ok (settled : unsettled s s.cur = false) : settle u = .ok () := by
  rw [settle, h.cur, h.unsettled, settled]
  rfl

theorem outputGate_ok (free : FreeToAct s) : outputGate u = .ok () := by
  obtain ⟨settled, alone⟩ := free
  have lockstep : (ctxOf u s.cur).lockstep = (ctxOf s s.cur).lockstep := by rw [h.ctx]
  have pass : (ctxOf u s.cur).lockPass = (ctxOf s s.cur).lockPass := by rw [h.ctx]
  rw [outputGate, h.cur, h.unsettled, settled, if_neg Bool.false_ne_true, lockGate, h.cur, lockstep, pass]
  refine if_neg ?_
  obtain alone | alone := alone <;> simp [alone]

/-- A handler does not wait for room among the posted accesses: its own stand in the send buffer. -/
theorem postRoom_inside (room : BufferRoom s) : postRoom u = .ok () := by rw [postRoom, h.cur, h.hmode, room.1]; rfl

theorem postRoom_outside (room : PostRoom s) : postRoom u = .ok () := by
  have count : postedCount u (coreOf s.cur) = postedCount s (coreOf s.cur) := by rw [postedCount, h.flights, postedCount]
  rw [postRoom, h.cur, h.hmode, room.1, count, if_neg Bool.false_ne_true, if_neg (Nat.not_le.mpr room.2)]

end

/-- The state in which an entry more stands in the send buffer. -/
def buffered (u : State) (e : Entry) : State := modCtx u u.cur (fun y => { y with sendBuf := y.sendBuf ++ [e] })

section

variable {s u : State} (cur : u.cur = s.cur)
include cur

theorem sendBuffer_inside (hm : (ctxOf u s.cur).hmode = (ctxOf s s.cur).hmode) (hb : (ctxOf u s.cur).sendBuf = (ctxOf s s.cur).sendBuf)
    (room : BufferRoom s) (e : Entry) (leave : State → Res State) : sendBuffer u e leave = .ok (buffered u e) := by
  rw [sendBuffer, cur, hm, hb, room.1, if_pos rfl, if_neg (Nat.not_le.mpr room.2), buffered, cur]

theorem sendBuffer_outside (hm : (ctxOf u s.cur).hmode = false) (e : Entry) (leave : State → Res State) : sendBuffer u e leave = leave u := by
  rw [sendBuffer, cur, hm]
  rfl

theorem buffers_retire (i : Instr) (npc : Word) (hb : (ctxOf u s.cur).sendBuf = (ctxOf s s.cur).sendBuf) (e : Entry) :
    Buffers s (retire i (buffered u e) npc) e := by
  have kept := retire_sendBuf i (buffered u e) npc
  rw [buffered, modCtx_cur, cur, ctxOf_modCtx_self] at kept
  rw [Buffers, buffered, cur, kept, hb]

theorem sends_retire (i : Instr) (npc : Word) (flights : u.flights = s.flights) (id : u.nextId = s.nextId) {op : SliceOp} (own : remoteRef op = none)
    (path : Nat) (ordered posted : Bool) (home extra : Nat) (ea : Word) (near : Bool) :
    Sends s (retire i (sendFlight u u.cur path ordered posted home op extra ea near) npc) path ordered posted (home % 2048) op := by
  unfold Sends
  rw [retire_flights, sendFlight, own, flights, cur, id]
  exact ⟨_, rfl, rfl, rfl, rfl, rfl, rfl, rfl, rfl, rfl⟩

end

@[simp] theorem buffered_cur (u : State) (e : Entry) : (buffered u e).cur = u.cur := rfl
@[simp] theorem buffered_mem (u : State) (e : Entry) : (buffered u e).mem = u.mem := rfl

theorem Acts.buffered {s u : State} {gs : List Nat} (h : Acts s u gs) (e : Entry) : Acts s (buffered u e) gs := h.modCtx (fun _ => ⟨rfl, rfl, rfl⟩)

@[simp] theorem sendFlight_ctxs (s : State) (c path : Nat) (ordered posted : Bool) (slice : Nat) (op : SliceOp) (extra : Nat) (ea : Word) (near : Bool) :
    (sendFlight s c path ordered posted slice op extra ea near).ctxs = s.ctxs := rfl
@[simp] theorem sendFlight_cur (s : State) (c path : Nat) (ordered posted : Bool) (slice : Nat) (op : SliceOp) (extra : Nat) (ea : Word) (near : Bool) :
    (sendFlight s c path ordered posted slice op extra ea near).cur = s.cur := rfl
@[simp] theorem sendFlight_mem (s : State) (c path : Nat) (ordered posted : Bool) (slice : Nat) (op : SliceOp) (extra : Nat) (ea : Word) (near : Bool) :
    (sendFlight s c path ordered posted slice op extra ea near).mem = s.mem := rfl
@[simp] theorem sendFlight_cores (s : State) (c path : Nat) (ordered posted : Bool) (slice : Nat) (op : SliceOp) (extra : Nat) (ea : Word) (near : Bool) :
    (sendFlight s c path ordered posted slice op extra ea near).cores = s.cores := rfl

/-- The class of a leaf does not show in the slice that an access goes to. -/
theorem leafHome_slice (leaf : Word) (pa : Nat) : leafHome leaf pa % 2048 = leafSlice leaf pa % 2048 := Nat.add_mul_mod_self_left _ _ _

/-- An access leaves: the context goes on. -/
theorem Acts.sendFlight {s u : State} {gs : List Nat} (h : Acts s u gs) (c path : Nat) (ordered posted : Bool) (slice : Nat) (op : SliceOp) (extra : Nat) (ea : Word) (near : Bool) :
    Acts s (Machine.sendFlight u c path ordered posted slice op extra ea near) gs := h.ctxs rfl rfl

end Sys2Proof.Machine
end

