-- ==== Sys2Proof/Proofs/BadTargets.lean ====
section
/-! SUPPORT. O22: a target that is not a multiple of 8 or not of this device, and a reference that is no cell, stop their instruction. -/

namespace Sys2Proof.Machine

/-- An instruction whose body traps in the state u takes the trap there, counted as issued (R148, R151). -/
theorem run_takes {i : Instr} {s u : State} {f : FaultInfo} {body : State → Res (State × Word)} (hi : Issues i s)
    (cur : u.cur = s.cur) (finished : unfinished u s.cur = false) (hb : body (beginIssue s) = .error (.trap f u)) :
    run i s body = .next (takeTrap (countIssue i u) s.cur f) := by
  rw [run_trap hi.2 hb, faultIssued_takes i f (by rw [cur]; exact finished), cur]

theorem runSeq_takes {i : Instr} {s u : State} {f : FaultInfo} {body : State → Res State} (hi : Issues i s)
    (cur : u.cur = s.cur) (finished : unfinished u s.cur = false) (hb : body (beginIssue s) = .error (.trap f u)) :
    runSeq i s body = .next (takeTrap (countIssue i u) s.cur f) := by
  rw [runSeq_trap hi.2 hb, faultIssued_takes i f (by rw [cur]; exact finished), cur]

/-! ### Targets -/

/-- A word is a multiple of 8 when its low three bits are clear. -/
theorem toNat_mod_eight (x : Word) : x.toNat % 8 = 0 ↔ x &&& 7 = 0 := by
  rw [← Nat.and_two_pow_sub_one_eq_mod x.toNat 3, ← BitVec.toNat_inj]
  rfl

/-- A target that is no multiple of 8 (R223). -/
theorem transfer_align {s : State} {t : Word} (k : State) (h : t &&& 7 ≠ 0) :
    transfer s t k = .error (.trap { code := cAlign, addr := t } s) := by
  rw [transfer, if_pos ((toNat_mod_eight t).not.mpr h)]
  rfl

/-- A target of another device (R223). -/
theorem transfer_foreign {s : State} {t : Word} (k : State) (h : t &&& 7 = 0) (away : t.toNat / 2 ^ 53 ≠ s.device) :
    transfer s t k = .error (.trap { code := cXlatePerm, addr := t } s) := by
  rw [transfer, if_neg (not_not.mpr ((toNat_mod_eight t).mpr h)), if_pos away]
  rfl

theorem target_beginIssue (s : State) (o : OpB) : target (beginIssue s) o = pcOf s + o.woff.signExtend 64 * 8 := by
  rw [target_eq, pcOf_beginIssue]

/-- A count that ends at a foreign target faults before the counter is lowered (R250). -/
theorem loopBody_foreign {o : OpB} {s : State} (counts : 2 ≤ (rg s s.cur o.a.toNat).toNat)
    (h : (pcOf s + o.woff.signExtend 64 * 8) &&& 7 = 0) (away : (pcOf s + o.woff.signExtend 64 * 8).toNat / 2 ^ 53 ≠ s.device) :
    loopBody o (beginIssue s) = .error (.trap { code := cXlatePerm, addr := pcOf s + o.woff.signExtend 64 * 8 } (beginIssue s)) := by
  have nonzero : rg s s.cur o.a.toNat ≠ 0 := fun h => by simp [h] at counts
  rw [loopBody, beginIssue_cur, rg_beginIssue, if_neg nonzero, if_pos ((sub_one_ne_zero_iff nonzero).mpr counts), target_beginIssue,
    transfer_foreign _ h (by rw [beginIssue_device]; exact away)]

/-! ### References -/

theorem not_refOk_zero_kind {r : Word} (h : refKind r ≠ 1) : (refKind r ≠ 1 || !(refOk r)) = true := by simp [h]

/-- LINK by the slot among its ends: without one it pushes the pair. -/
theorem linkBad_zero {b : Word} : linkBad 0 b = some 0 := rfl

theorem linkBad_same {a : Word} (ok : refOk a = true) (slot : refKind a = 2) : linkBad a a = some a := by
  simp [linkBad, ok, slot]

/-- Settles O22: each body stops at the check, in the state in which it was made. -/
theorem badTargetsAndReferences : Obligations.BadTargetsAndReferences := by
  unfold Obligations.BadTargetsAndReferences
  refine ⟨?jr, ?ret, ?call, ?loop, ?cset, ?cxld, ?linkZero, ?linkSelf⟩
  case jr =>
    intro o s hi finished odd
    refine (exec_jr o s).trans (run_takes hi (beginIssue_cur s) finished ?_)
    rw [beginIssue_cur, rg_beginIssue, transfer_align _ odd]
  case ret =>
    intro o s hi finished even away
    refine (exec_ret o s).trans (run_takes hi (beginIssue_cur s) finished ?_)
    rw [beginIssue_cur, rg_beginIssue, transfer_foreign _ even (by rw [beginIssue_device]; exact away)]
  case call =>
    intro o s hi finished t even away
    refine (exec_call o s).trans (run_takes hi (beginIssue_cur s) finished ?_)
    rw [target_beginIssue, transfer_foreign _ even (by rw [beginIssue_device]; exact away)]
  case loop =>
    intro o s hi finished counts t even away
    exact (exec_loop o s).trans (run_takes hi (beginIssue_cur s) finished (loopBody_foreign counts even away))
  case cset =>
    intro o s hi finished kind
    change execCset o s = _
    unfold execCset
    refine runSeq_takes hi (beginIssue_cur s) finished ?_
    dsimp only
    rw [beginIssue_cur, rg_beginIssue]
    exact if_pos (not_refOk_zero_kind kind)
  case cxld =>
    intro o s hi finished kind
    change execCxld o s = _
    unfold execCxld
    refine runSeq_takes hi (beginIssue_cur s) finished ?_
    dsimp only
    rw [beginIssue_cur, rg_beginIssue]
    exact if_pos (not_refOk_zero_kind kind)
  case linkZero =>
    intro o s hi finished zero kind
    change execLink o s = _
    unfold execLink
    refine runSeq_takes hi (beginIssue_cur s) finished ?_
    have first : refKind (0 : Word) ≠ 2 := by decide
    simp only [beginIssue_cur, rg_beginIssue, zero, if_neg first, kind, decide_false, Bool.false_and, Bool.false_eq_true, if_false, linkBad_zero]
    rfl
  case linkSelf =>
    intro o s u x hi ok slot same found finished
    change execLink o s = _
    unfold execLink
    refine runSeq_takes hi ((translate_looked found).cur.trans (beginIssue_cur s)) finished ?_
    simp only [beginIssue_cur, rg_beginIssue, ← same, slot, if_true, ok, decide_true, Bool.and_self, found]
    show (match linkBad _ _ with | some r => _ | none => _) = _
    rw [linkBad_same ok slot]
    rfl

end Sys2Proof.Machine
end

