-- ==== Sys2Proof/Proofs/CellInstructions.lean ====
section
/-! SUPPORT. O20 and O21: the instructions on cells, wire slots and links, on their way to the slice. -/

namespace Sys2Proof.Machine

/-- A step of a body that goes on. The proof is no `rfl`, so that the kernel need not evaluate a body to see it. -/
@[simp] theorem ok_bind {α β : Type} (x : α) (f : α → Res β) : (Except.ok x >>= f : Res β) = f x := by simp only [bind, Except.bind]

/-- A field of a core, or of the context, that the end of an instruction leaves alone. -/
theorem core_retire {α : Type} (f : Core → α) (hf : ∀ x, f x.kept = f x) (i : Instr) (s : State) (npc : Word) (k : Nat) :
    f (coreAt (retire i s npc) k) = f (coreAt s k) := by rw [← hf, kept_retire, hf]

theorem ctx_retire {α : Type} (f : Ctx → α) (hf : ∀ x, f x.kept = f x) (i : Instr) {s u : State} (npc : Word) (cur : u.cur = s.cur) :
    f (ctxOf (retire i u npc) s.cur) = f (ctxOf u s.cur) := by rw [← cur, ← hf, ctxKept_retire, hf]

/-! ### The reservoir -/

theorem removeFirst_eq_erase {α : Type} [BEq α] [LawfulBEq α] [DecidableEq α] (x : α) (l : List α) : removeFirst (fun d => d = x) l = l.erase x := by
  induction l with
  | nil => rfl
  | cons y l ih => by_cases h : y = x <;> simp [removeFirst, h, ih]

/-- What taking an item from the reservoir changes: the core's reservoir and requests, and what the handler may give back. -/
structure TookItem (u v : State) (e : Bool × Nat × Nat) : Prop where
  only : v = { u with ctxs := v.ctxs, cores := v.cores }
  ctx : ∀ c, ctxOf v c = { ctxOf u c with takenItems := (ctxOf v c).takenItems }
  reservoir : (coreAt v (coreOf u.cur)).reservoir = (coreAt u (coreOf u.cur)).reservoir.erase e

namespace TookItem

variable {s u v : State} {e : Bool × Nat × Nat} (h : TookItem u v e)
include h

theorem cur : v.cur = u.cur := by rw [h.only]
theorem mem : v.mem = u.mem := by rw [h.only]
theorem flights : v.flights = u.flights := by rw [h.only]
theorem nextId : v.nextId = u.nextId := by rw [h.only]
theorem hmode (c : Nat) : (ctxOf v c).hmode = (ctxOf u c).hmode := by rw [h.ctx]
theorem sendBuf (c : Nat) : (ctxOf v c).sendBuf = (ctxOf u c).sendBuf := by rw [h.ctx]
theorem translates (a : Nat) (write : Bool) : translateNow v a write = translateNow u a write :=
  translateNow_congr h.mem (by rw [h.only]) (by rw [h.only]) a write

theorem acts {gs : List Nat} (ha : Acts s u gs) : Acts s v gs :=
  ha.same h.cur (fun c => by rw [h.ctx]) (by rw [h.ctx]) (by rw [h.ctx])

end TookItem

/-- A request for more items leaves the reservoir alone. -/
theorem tookItem_ask {u v : State} {e : Bool × Nat × Nat} (h : TookItem u v e) (k : Nat) (wire : Bool) (n m : Nat) :
    TookItem u (askItems v k wire n m) e where
  only := by
    unfold askItems modCore
    rw [setCore, h.only]
  ctx c := h.ctx c
  reservoir := by
    rw [askItems, coreAt_modCore]
    split
    case isTrue same => rw [← h.reservoir, same]
    case isFalse => exact h.reservoir

/-- The state in which the item e left the reservoir, in handler mode to be given back if the handler is undone. -/
def itemTaken (u : State) (e : Bool × Nat × Nat) : State :=
  let v := modCore u (coreOf u.cur) (fun x => { x with reservoir := removeFirst (fun d => d = e) x.reservoir })
  if (ctxOf v u.cur).hmode then modCtx v u.cur (fun x => { x with takenItems := x.takenItems ++ [e] }) else v

theorem itemTaken_took (u : State) (e : Bool × Nat × Nat) : TookItem u (itemTaken u e) e := by
  have taken : (coreAt (modCore u (coreOf u.cur) (fun x => { x with reservoir := removeFirst (fun d => d = e) x.reservoir })) (coreOf u.cur)).reservoir =
      (coreAt u (coreOf u.cur)).reservoir.erase e := by
    rw [coreAt_modCore_self]
    exact removeFirst_eq_erase _ _
  unfold itemTaken
  dsimp only
  split
  case isFalse => exact ⟨rfl, fun _ => rfl, taken⟩
  case isTrue =>
    refine ⟨rfl, fun c => ?_, taken⟩
    rw [ctxOf_modCtx]
    split
    case isTrue same => rw [same]; rfl
    case isFalse => rfl

/-- NetAlloc with an item in the reservoir (R304). -/
theorem netAlloc_takes {u : State} {wire : Bool} {n : Nat} {e : Bool × Nat × Nat} (registered : heapOf u wire n ≠ none)
    (found : (coreAt u (coreOf u.cur)).reservoir.find? (fun e => e.1 = wire && e.2.1 = n) = some e) :
    ∃ v, netAlloc u wire n = .ok (e.2.2, v) ∧ TookItem u v e := by
  have present : (heapOf u wire n).isNone = false := by rwa [Option.isNone_eq_false_iff, Option.isSome_iff_ne_none]
  unfold netAlloc
  simp only [present, Bool.false_eq_true, if_false, found]
  refine ⟨_, rfl, ?_⟩
  change TookItem u (if itemCount (itemTaken u e) (coreOf u.cur) wire n < 8 then askItems (itemTaken u e) (coreOf u.cur) wire n 16 else itemTaken u e) e
  split
  · exact tookItem_ask (itemTaken_took u e) _ _ _ _
  · exact itemTaken_took u e

/-! ### CNEW, WNEW and CGRAB -/

theorem cnewHeader_beginIssue (s : State) (o : OpE) : cnewHeader (beginIssue s) o = cnewHeader s o := by simp [cnewHeader]

theorem heapOf_beginIssue (s : State) (wire : Bool) (n : Nat) : heapOf (beginIssue s) wire n = heapOf s wire n := by
  rw [heapOf, beginIssue_only, heapOf]

theorem translateNow_beginIssue (s : State) (a : Nat) (write : Bool) : translateNow (beginIssue s) a write = translateNow s a write :=
  translateNow_congr (beginIssue_mem s) (by rw [beginIssue_only]) (by rw [beginIssue_only]) a write

section

variable {o : OpE} {s : State} {a pa home : Nat} {leaf : Word} (hi : Issues (.cnew o) s) (free : FreeToAct s)
  (writable : headerWritable (cnewHeader s o) = true) (okB : refOk (rg s s.cur o.b.toNat) = true) (okC : refOk (rg s s.cur o.c.toNat) = true)
  (one : bits (cnewHeader s o) 17 16 < 1 → rg s s.cur o.b.toNat = 0) (two : bits (cnewHeader s o) 17 16 < 2 → rg s s.cur o.c.toNat = 0)
  (registered : heapOf s false (o.imm.toNat % 16) ≠ none)
  (found : (coreAt s (coreOf s.cur)).reservoir.find? (fun e => e.1 = false && e.2.1 = o.imm.toNat % 16) = some (false, o.imm.toNat % 16, a))
  (page : translateNow s a true = .ok (pa, home, leaf))

/-- The cell that CNEW writes. -/
def newCell (s : State) (o : OpE) (a pa : Nat) : SliceOp :=
  .cell a pa [BitVec.ofNat 64 (cnewHeader s o), rg s s.cur o.b.toNat, rg s s.cur o.c.toNat, 0]

include hi free writable okB okC one two registered found page

/-- CNEW whose header and arguments pass takes the item, sends the cell's write on its way w, and returns the reference. -/
theorem gives_cnew (room : postRoom (beginIssue s) = .ok ()) {way : State → State}
    (hw : ∀ v, TookItem (beginIssue s) v (false, o.imm.toNat % 16, a) → orderedPost v home (newCell s o a pa) = .ok (way v))
    (acts : ∀ v, Acts s v [o.d.toNat] → Acts s (way v) [o.d.toNat]) (mem : ∀ v, (way v).mem = v.mem) (cores : ∀ v, (way v).cores = v.cores)
    {P : State → Prop} (hP : ∀ v npc, TookItem (beginIssue s) v (false, o.imm.toNat % 16, a) →
      P (retire (.cnew o) (wg (way v) s.cur o.d.toNat (cellRef s.device a)) npc)) :
    Gives (.cnew o) s (fun t => Proceeds s t [o.d.toNat] ∧ rg t s.cur o.d.toNat = (if o.d = 0 then 0 else cellRef s.device a) ∧
      (coreAt t (coreOf s.cur)).reservoir = (coreAt s (coreOf s.cur)).reservoir.erase (false, o.imm.toNat % 16, a) ∧ P t) := by
  have begun := beginIssue_looked s
  obtain ⟨v, took, hv⟩ := netAlloc_takes (u := beginIssue s) (wire := false) (n := o.imm.toNat % 16) (e := (false, o.imm.toNat % 16, a))
    (by rw [heapOf_beginIssue]; exact registered) (by rw [beginIssue_cur, coreAt_beginIssue]; exact found)
  have acted : Acts s (way v) [o.d.toNat] := acts v ((hv.acts (.of_looked hi.1 begun)).mono (by simp))
  refine gives_retire (u := wg (way v) s.cur o.d.toNat (cellRef s.device a)) hi (rfl : _ = execCnew o s) ?_ ⟨?_, ?_, ?_, ?_⟩
  · have passB : (!refOk (rg s s.cur o.b.toNat) || (decide (bits (cnewHeader s o) 17 16 < 1) && decide (rg s s.cur o.b.toNat ≠ 0))) = false := by
      simp only [okB, Bool.not_true, Bool.false_or, Bool.and_eq_false_imp, decide_eq_true_eq, decide_eq_false_iff_not, not_not]; exact one
    have passC : (!refOk (rg s s.cur o.c.toNat) || (decide (bits (cnewHeader s o) 17 16 < 2) && decide (rg s s.cur o.c.toNat ≠ 0))) = false := by
      simp only [okC, Bool.not_true, Bool.false_or, Bool.and_eq_false_imp, decide_eq_true_eq, decide_eq_false_iff_not, not_not]; exact two
    have placed : translateNow v a true = .ok (pa, home, leaf) := by rw [hv.translates, translateNow_beginIssue, page]
    have way_ : orderedPost v home (.cell a pa [BitVec.ofNat 64 (cnewHeader s o), rg s s.cur o.b.toNat, rg s s.cur o.c.toNat, 0]) = .ok (way v) := hw v hv
    simp only [beginIssue_cur, rg_beginIssue, cnewHeader_beginIssue, writable, Bool.not_true, Bool.false_eq_true, if_false, passB, passC,
      outputGate_ok begun free, room, ok_bind, took, placed, way_, beginIssue_device]
  · exact proceeds_retire (acted.wg _ (by simp)) (by rw [wg_mem, mem, hv.mem, beginIssue_mem])
  · exact rg_retire_written _ _ _ _ acted.cur
  · rw [core_retire Core.reservoir (fun _ => rfl)]
    have reservoir := hv.reservoir
    rw [beginIssue_cur, coreAt_beginIssue] at reservoir
    rw [← reservoir, coreAt, wg_cores, cores, coreAt]
  · exact hP v _ hv

end

theorem itemCount_beginIssue (s : State) (k : Nat) (wire : Bool) (n : Nat) : itemCount (beginIssue s) k wire n = itemCount s k wire n := by
  rw [itemCount, coreAt_beginIssue, itemCount]

/-- The state in which CGRAB has counted the items and asked for more (R311). -/
def grabbed (s : State) (o : OpE) : State :=
  askItems (wg (beginIssue s) s.cur o.d.toNat (BitVec.ofNat 64 (itemCount s (coreOf s.cur) (nbit o.imm.toNat 4) (o.imm.toNat % 16))))
    (coreOf s.cur) (nbit o.imm.toNat 4) (o.imm.toNat % 16) (bits o.imm.toNat 9 5 + 1)

/-- Settles O20: the item that the reservoir's list gives first is taken, by NetAlloc. -/
theorem cellsAndSlots : Obligations.CellsAndSlots := by
  unfold Obligations.CellsAndSlots
  refine ⟨?inside, ?outside, ?wnew, ?cgrab⟩
  case inside =>
    intro o s a pa home leaf hi free room h writable okB okC one two registered found page
    have begun := beginIssue_looked s
    refine gives_cnew hi free writable okB okC one two registered found page (postRoom_inside begun room)
      (way := fun v => buffered v (.slice true home (newCell s o a pa))) (fun v took => ?_) (fun v acts => acts.buffered _) (fun _ => rfl) (fun _ => rfl)
      (fun v npc took => ?_)
    · exact sendBuffer_inside (took.cur.trans begun.cur) ((took.hmode _).trans (begun.hmode _)) ((took.sendBuf _).trans (begun.sendBuf _)) room _ _
    · have cur : v.cur = s.cur := took.cur.trans begun.cur
      rw [Buffers, ctx_retire Ctx.sendBuf (fun _ => rfl) _ _ (u := wg (buffered v _) s.cur o.d.toNat _) ((wg_cur _ _ _ _).trans cur), wg_ctx, buffered,
        cur, ctxOf_modCtx_self, took.sendBuf, begun.sendBuf]
      rfl
  case outside =>
    intro o s a pa home leaf hi free room h writable okB okC one two registered found page
    have begun := beginIssue_looked s
    refine gives_cnew hi free writable okB okC one two registered found page (postRoom_outside begun room)
      (way := fun v => sendFlight v v.cur 1 true true home (newCell s o a pa) 0) (fun v took => ?_) (fun v acts => acts.sendFlight ..) (fun _ => rfl) (fun _ => rfl)
      (fun v npc took => ?_)
    · exact sendBuffer_outside (took.cur.trans begun.cur) (((took.hmode _).trans (begun.hmode _)).trans room.1) _ _
    · rw [Sends, retire_flights, wg_only]
      have sent := sends_retire (took.cur.trans begun.cur) (.cnew o) npc (took.flights.trans begun.flights) (took.nextId.trans begun.nextId)
        (op := newCell s o a pa) rfl 1 true true home 0 0 false
      rwa [Sends, retire_flights] at sent
  case wnew =>
    intro o s a hi free registered found
    have begun := beginIssue_looked s
    obtain ⟨v, took, hv⟩ := netAlloc_takes (u := beginIssue s) (wire := true) (n := o.imm.toNat % 16) (e := (true, o.imm.toNat % 16, a))
      (by rw [heapOf_beginIssue]; exact registered) (by rw [beginIssue_cur, coreAt_beginIssue]; exact found)
    have acts : Acts s v [o.d.toNat] := (hv.acts (.of_looked hi.1 begun)).mono (by simp)
    refine gives_retire (u := wg v s.cur o.d.toNat (wireRef s.device a)) hi (rfl : _ = execWnew o s) ?_ ⟨?_, ?_, ?_⟩
    · simp only [settle_ok begun free.1, ok_bind, took, beginIssue_cur, beginIssue_device]
    · exact proceeds_retire (acts.wg _ (by simp)) (by rw [wg_mem, hv.mem, beginIssue_mem])
    · exact rg_retire_written _ _ _ _ acts.cur
    · have reservoir := hv.reservoir
      rw [beginIssue_cur, coreAt_beginIssue] at reservoir
      rw [core_retire Core.reservoir (fun _ => rfl), ← reservoir, coreAt, wg_cores, coreAt]
  case cgrab =>
    intro o s hi free
    have begun := beginIssue_looked s
    have acts : Acts s (beginIssue s) [o.d.toNat] := (Acts.of_looked hi.1 begun).mono (by simp)
    refine gives_retire (u := grabbed s o) hi (rfl : _ = execCgrab o s) ?_ ⟨?_, ?_, ?_⟩
    · simp only [settle_ok begun free.1, ok_bind, beginIssue_cur, itemCount_beginIssue]
      rfl
    · exact proceeds_retire (u := grabbed s o) ((acts.wg _ (by simp)).ctxs rfl rfl) (by rw [grabbed, askItems, modCore_mem, wg_mem, beginIssue_mem])
    · have read := rg_retire (.cgrab o) (grabbed s o) (nextPc (grabbed s o)) o.d.toNat
      have cur : (grabbed s o).cur = s.cur := (wg_cur _ _ _ _).trans (beginIssue_cur s)
      rw [cur] at read
      exact read.trans ((rg_wg_self _ _ _ _).trans (if_congr (by rw [BitVec.toNat_eq]; rfl) rfl rfl))
    · have asked : bits o.imm.toNat 9 5 = o.imm.toNat / 32 % 32 := by norm_num [bits, Nat.shiftRight_eq_div_pow]
      rw [core_retire Core.requests (fun _ => rfl), grabbed, askItems, coreAt_modCore_self, asked, coreAt, wg_cores, beginIssue_cores]
      rfl

/-! ### CSET, LINK and CXLD -/

section

variable {s u : State} (looked : Looked s u)
include looked

/-- An ordered write with room among the posted accesses leaves at once (R292). -/
theorem orderedPost_outside (room : PostRoom s) (home : Nat) (op : SliceOp) :
    orderedPost u home op = .ok (sendFlight u u.cur 1 true true home op 0) :=
  sendBuffer_outside looked.cur ((looked.hmode _).trans room.1) _ _

/-- In handler mode it stands in the send buffer (R240). -/
theorem orderedPost_inside (room : BufferRoom s) (home : Nat) (op : SliceOp) :
    orderedPost u home op = .ok (buffered u (.slice true home op)) :=
  sendBuffer_inside looked.cur (looked.hmode _) (looked.sendBuf _) room _ _

end

section

variable {i : Instr} {s u : State} {body : State → Res State} (hi : Issues i s) (he : exec i s = runSeq i s body) (looked : Looked s u)
include hi he looked

/-- An instruction that sends one access and writes nothing. -/
theorem gives_sends {path : Nat} {ordered posted : Bool} {home extra : Nat} {op : SliceOp} {ea : Word} {near : Bool} (own : remoteRef op = none)
    (hb : body (beginIssue s) = .ok (sendFlight u u.cur path ordered posted home op extra ea near)) :
    Gives i s (fun t => Proceeds s t [] ∧ Sends s t path ordered posted (home % 2048) op) :=
  gives_retire hi he hb ⟨proceeds_retire ((Acts.of_looked hi.1 looked).sendFlight ..) looked.mem,
    sends_retire looked.cur i _ looked.flights looked.nextId own ..⟩

/-- One that puts one entry into the send buffer. -/
theorem gives_buffers {e : Entry} (hb : body (beginIssue s) = .ok (buffered u e)) : Gives i s (fun t => Proceeds s t [] ∧ Buffers s t e) :=
  gives_retire hi he hb ⟨proceeds_retire ((Acts.of_looked hi.1 looked).buffered e) looked.mem, buffers_retire looked.cur i _ (looked.sendBuf _) e⟩

end

/-- Ends of a link that are well formed and distinct (R308). -/
theorem linkBad_none {a b : Word} (aNonzero : a ≠ 0) (aOk : refOk a = true) (bNonzero : b ≠ 0) (bOk : refOk b = true)
    (distinct : refKind a = 2 → a ≠ b) : linkBad a b = none := by
  simp only [linkBad, aNonzero, bNonzero, aOk, bOk, decide_false, Bool.not_true, Bool.or_self, Bool.false_eq_true, if_false]
  refine if_neg ?_
  simpa using distinct

/-- The body of CSET, with a reference, a value and a translation that pass: it goes the way of an ordered write (R307). -/
theorem cset_passes {o : OpE} {s u v : State} {va pa : Nat} {leaf : Word} (free : FreeToAct s) (kind : refKind (rg s s.cur o.a.toNat) = 1)
    (ok : refOk (rg s s.cur o.a.toNat) = true) (header : o.imm.toNat % 4 = 0 → headerWritable (rg s s.cur o.b.toNat).toNat = true)
    (argument : o.imm.toNat % 4 = 1 ∨ o.imm.toNat % 4 = 2 → refOk (rg s s.cur o.b.toNat) = true)
    (found : translate (beginIssue s) (refEa (rg s s.cur o.a.toNat)) .wr = .ok (.phys va pa leaf, u)) (room : postRoom u = .ok ())
    (way : orderedPost u (leafHome leaf pa) (.cset (rg s s.cur o.a.toNat) pa (o.imm.toNat % 4) (rg s s.cur o.b.toNat)) = .ok v) :
    ∃ body, exec (.cset o) s = runSeq (.cset o) s body ∧ body (beginIssue s) = .ok v := by
  have looked := (beginIssue_looked s).trans (translate_looked found)
  have writable : (decide (o.imm.toNat % 4 = 0) && !headerWritable (rg s s.cur o.b.toNat).toNat) = false := by
    simp only [Bool.and_eq_false_imp, decide_eq_true_eq, Bool.not_eq_false']
    exact header
  have passes : ((decide (o.imm.toNat % 4 = 1) || decide (o.imm.toNat % 4 = 2)) && !refOk (rg s s.cur o.b.toNat)) = false := by
    simp only [Bool.and_eq_false_imp, Bool.or_eq_true, decide_eq_true_eq, Bool.not_eq_false']
    exact argument
  refine ⟨_, (rfl : _ = execCset o s), ?_⟩
  simp only [beginIssue_cur, rg_beginIssue, kind, ok, ne_eq, not_true_eq_false, decide_false, Bool.not_true, Bool.or_self, Bool.false_eq_true, if_false,
    found, ok_bind, writable, passes, outputGate_ok looked free, room, way]

/-- Settles O21: each goes through the gates of a posted write, and a pair without a slot through the core's deque. -/
theorem linksAndCellWrites : Obligations.LinksAndCellWrites := by
  unfold Obligations.LinksAndCellWrites
  refine ⟨?csetOut, ?csetIn, ?linkSlot, ?linkPair, ?cxld⟩
  case csetOut =>
    intro o s u va pa leaf hi free room r w kind ok header argument found
    have looked := (beginIssue_looked s).trans (translate_looked found)
    obtain ⟨body, he, hb⟩ := cset_passes free kind ok header argument found (postRoom_outside looked room) (orderedPost_outside looked room _ _)
    rw [← leafHome_slice]
    exact gives_sends hi he looked rfl hb
  case csetIn =>
    intro o s u va pa leaf hi free room r w kind ok header argument found
    have looked := (beginIssue_looked s).trans (translate_looked found)
    obtain ⟨body, he, hb⟩ := cset_passes free kind ok header argument found (postRoom_inside looked room) (orderedPost_inside looked room _ _)
    exact gives_buffers hi he looked hb
  case linkSlot =>
    intro o s u va pa leaf hi free room
    dsimp only
    intro aNonzero aOk bNonzero bOk slot distinct found
    have looked := (beginIssue_looked s).trans (translate_looked found)
    rw [← leafHome_slice]
    refine gives_sends hi (rfl : _ = execLink o s) looked (extra := 0) (ea := 0) (near := false) rfl ?_
    simp only [beginIssue_cur, rg_beginIssue, slot, aOk, if_true, decide_true, Bool.and_self, found, ok_bind,
      linkBad_none aNonzero aOk bNonzero bOk (fun _ => distinct), outputGate_ok looked free, postRoom_outside looked room, orderedPost_outside looked room]
  case linkPair =>
    intro o s hi free room
    dsimp only
    intro aNonzero aOk bNonzero bOk aKind bKind noCells unfenced short push fresh
    have begun : beginIssue s = s := beginIssue_eq s fresh
    have looked := Looked.refl s
    refine gives_retire hi (rfl : _ = execLink o s) (u := pushPair s (coreOf s.cur) (formPair s (rg s s.cur o.a.toNat) (rg s s.cur o.b.toNat) (netOf s s.cur)))
      ?_ ⟨?_, ?_⟩
    · rw [begun]
      simp only [aKind, bKind, if_false, decide_false, Bool.false_and, Bool.false_eq_true, linkBad_none aNonzero aOk bNonzero bOk (fun h => absurd h aKind),
        outputGate_ok looked free, postRoom_outside looked room, ok_bind, sendBuffer_outside rfl room.1, noCells, unfenced, Bool.or_self, push, Bool.not_true]
    · rw [pushPair, if_pos short]
      exact proceeds_retire ((Acts.of_looked hi.1 looked).ctxs rfl rfl) rfl
    · rw [core_retire Core.deque (fun _ => rfl), pushPair, if_pos short, coreAt_modCore_self]
  case cxld =>
    intro o s u va pa leaf hi
    dsimp only
    intro kind ok found
    have looked := (beginIssue_looked s).trans (translate_looked found)
    rw [← leafHome_slice]
    refine gives_sends hi (rfl : _ = execCxld o s) looked (extra := 0) (ea := rg s s.cur o.a.toNat) (near := false) rfl ?_
    simp only [beginIssue_cur, rg_beginIssue, kind, ok, ne_eq, not_true_eq_false, decide_false, Bool.not_true, Bool.or_self, Bool.false_eq_true, if_false,
      found, ok_bind, looked.cur]

end Sys2Proof.Machine
end

