-- ==== Sys2Proof/Proofs/QueuePorts.lean ====
section
/-! SUPPORT. What the slots of an instruction take from the q ports: when they are served, and what a read of a slot leaves alone (R78, R262). -/

namespace Sys2Proof.Machine

/-- A read of source slots changes the core's inbound queues and those who wait for them, and marks a handler committed-in-part. -/
structure PopsOnly (u v : State) : Prop where
  only : v = { u with ctxs := v.ctxs, cores := v.cores, clusters := v.clusters }
  ctx : ∀ c, ctxOf v c = { ctxOf u c with heldUntil := (ctxOf v c).heldUntil, cip := (ctxOf v c).cip }
  core : ∀ k, coreAt v k = { coreAt u k with qIn := (coreAt v k).qIn }

namespace PopsOnly

theorem refl (s : State) : PopsOnly s s := ⟨rfl, fun _ => rfl, fun _ => rfl⟩

theorem trans {s t u : State} (h : PopsOnly s t) (k : PopsOnly t u) : PopsOnly s u where
  only := by rw [k.only, h.only]
  ctx c := by rw [k.ctx c, h.ctx c]
  core c := by rw [k.core c, h.core c]

variable {s u v : State} (h : PopsOnly u v)
include h

theorem cur : v.cur = u.cur := by rw [h.only]
theorem mem : v.mem = u.mem := by rw [h.only]
theorem cycle : v.cycle = u.cycle := by rw [h.only]
theorem flights : v.flights = u.flights := by rw [h.only]
theorem nextId : v.nextId = u.nextId := by rw [h.only]
theorem hmode (c : Nat) : (ctxOf v c).hmode = (ctxOf u c).hmode := by rw [h.ctx]
theorem regs (c : Nat) : (ctxOf v c).regs = (ctxOf u c).regs := by rw [h.ctx]

theorem acts {gs : List Nat} (ha : Acts s u gs) : Acts s v gs :=
  ha.same h.cur h.regs (by rw [h.ctx]) (by rw [h.ctx])

end PopsOnly

theorem modCore_pops (u : State) (k : Nat) (f : Store (List Vec) → Store (List Vec)) : PopsOnly u (modCore u k (fun x => { x with qIn := f x.qIn })) where
  only := rfl
  ctx _ := rfl
  core j := by
    rw [coreAt_modCore]
    split
    case isTrue same => rw [same]
    case isFalse => rfl

theorem modCtx_pops (u : State) (k : Nat) {f : Ctx → Ctx} (hf : ∀ x, f x = { x with heldUntil := (f x).heldUntil, cip := (f x).cip }) :
    PopsOnly u (modCtx u k f) where
  only := rfl
  ctx j := by
    rw [ctxOf_modCtx]
    split
    case isTrue same => rw [same]; exact hf _
    case isFalse => rfl
  core _ := rfl

theorem holdParked_pops (u : State) (k : Nat) (w : Stall) : PopsOnly u (holdParked u k w) := by
  unfold holdParked
  generalize List.range 8 = l
  have each (l : List Nat) : ∀ t : State, PopsOnly t (l.foldl (fun t i => modCtx t (8 * k + i)
      (fun x => if x.run = .stalled w then { x with heldUntil := max x.heldUntil (u.cycle + 1) } else x)) t) := by
    induction l with
    | nil => exact .refl
    | cons i l ih =>
      refine fun t => PopsOnly.trans (modCtx_pops t _ (fun x => ?_)) (ih _)
      split <;> rfl
  exact each l u

theorem holdEngine_pops (u : State) (k j : Nat) (out : Bool) : PopsOnly u (holdEngine u k j out) := ⟨rfl, fun _ => rfl, fun _ => rfl⟩

theorem qInOf_holdParked (u : State) (k : Nat) (w : Stall) (m j : Nat) : qInOf (holdParked u k w) m j = qInOf u m j := by
  have cores : (holdParked u k w).cores = u.cores := by
    unfold holdParked
    refine foldl_keeps (P := fun t => t.cores = u.cores) (fun t i same => ?_) _ rfl
    exact same
  rw [qInOf, coreAt, cores]
  rfl

theorem setQIn_pops (u : State) (k j : Nat) (l : List Vec) : PopsOnly u (setQIn u k j l) := by
  have set := modCore_pops u k (fun q => sput [] q j l)
  have parked : PopsOnly u (if (qInOf u k j).isEmpty && !l.isEmpty then holdParked (modCore u k (fun x => { x with qIn := sput [] x.qIn j l })) k (.qPop j)
      else modCore u k (fun x => { x with qIn := sput [] x.qIn j l })) := by
    split
    · exact set.trans (holdParked_pops _ _ _)
    · exact set
  unfold setQIn
  dsimp only
  split
  · exact parked.trans (holdEngine_pops _ _ _ _)
  · exact parked

/-- The half that was set reads as it was set, the others as before. -/
theorem qInOf_setQIn (u : State) (k j : Nat) (l : List Vec) (i : Nat) : qInOf (setQIn u k j l) k i = if i = j then l else qInOf u k i := by
  have set : qInOf (modCore u k (fun x => { x with qIn := sput [] x.qIn j l })) k i = if i = j then l else qInOf u k i := by
    rw [qInOf, coreAt_modCore_self, sget_sput]
    rfl
  have parked : qInOf (if (qInOf u k j).isEmpty && !l.isEmpty then holdParked (modCore u k (fun x => { x with qIn := sput [] x.qIn j l })) k (.qPop j)
      else modCore u k (fun x => { x with qIn := sput [] x.qIn j l })) k i = if i = j then l else qInOf u k i := by
    split
    · rw [qInOf_holdParked, set]
    · exact set
  unfold setQIn
  dsimp only
  split <;> exact parked

/-! ### The slots of an instruction, one after the other -/

/-- The state after the slots `l` have been read. -/
structure Takes (u v : State) (l : List (BitVec 6)) : Prop where
  pops : PopsOnly u v
  entries : ∀ j, qInOf v (coreOf u.cur) j = (qInOf u (coreOf u.cur) j).drop (l.countP (fun r => r.toNat = 48 + j))
  marked : (ctxOf u u.cur).hmode = true → (∃ r ∈ l, 48 ≤ r.toNat) → (ctxOf v u.cur).cip = true

theorem Takes.nil (u : State) : Takes u u [] := ⟨.refl u, fun _ => rfl, fun _ h => by simp at h⟩

/-- The slots that pop port j are those that are equal to one of them. -/
theorem countP_port {r : BitVec 6} (port : 48 ≤ r.toNat) (l : List (BitVec 6)) :
    l.countP (fun x => x.toNat = 48 + (r.toNat - 48)) = l.count r := by
  rw [List.count]
  refine congrArg (List.countP · l) (funext fun x => ?_)
  rw [show 48 + (r.toNat - 48) = r.toNat by omega]
  exact Bool.eq_iff_iff.mpr (by simp [BitVec.toNat_eq])

/-- Reading one more slot, which holds an entry behind those that the earlier slots take. -/
theorem Takes.readSlot {u v : State} {l : List (BitVec 6)} (h : Takes u v l) (r : BitVec 6)
    (served : 48 ≤ r.toNat → l.count r < (qInOf u (coreOf u.cur) (r.toNat - 48)).length) :
    ∃ w, readSlot v r = (slotValue u l r, w) ∧ Takes u w (l ++ [r]) := by
  unfold Machine.readSlot slotValue
  dsimp only
  by_cases low : r.toNat < 48
  case pos =>
    refine ⟨v, ?_, h.pops, fun j => ?_, fun hm ⟨x, hx, port⟩ => h.marked hm ⟨x, ?_, port⟩⟩
    · rw [if_pos low, if_pos low, rv, h.pops.regs, h.pops.cur, rv]
    · rw [List.countP_append, List.countP_cons_of_neg (by simp; omega)]
      exact h.entries j
    · obtain hx | hx := List.mem_append.mp hx
      · exact hx
      · rw [List.mem_singleton.mp hx] at port
        omega
  case neg =>
    have port : 48 ≤ r.toNat := Nat.not_lt.mp low
    have left := h.entries (r.toNat - 48)
    rw [countP_port port] at left
    have cons : (qInOf u (coreOf u.cur) (r.toNat - 48)).drop (l.count r) =
        (qInOf u (coreOf u.cur) (r.toNat - 48)).getD (l.count r) 0 :: (qInOf u (coreOf u.cur) (r.toNat - 48)).drop (l.count r + 1) := by
      rw [List.drop_eq_getElem_cons (served port), List.getD_eq_getElem _ _ (served port)]
    rw [cons] at left
    have set := setQIn_pops v (coreOf u.cur) (r.toNat - 48) ((qInOf u (coreOf u.cur) (r.toNat - 48)).drop (l.count r + 1))
    refine ⟨markCip (setQIn v (coreOf u.cur) (r.toNat - 48) ((qInOf u (coreOf u.cur) (r.toNat - 48)).drop (l.count r + 1))) u.cur, ?_, ?_, fun j => ?_,
      fun hm _ => ?_⟩
    · rw [if_neg low, if_neg low, h.pops.cur, left]
    · exact h.pops.trans (set.trans (modCtx_pops _ _ (fun _ => rfl)))
    · rw [List.countP_append, markCip]
      change qInOf (setQIn _ _ _ _) _ _ = _
      rw [qInOf_setQIn]
      split
      case isTrue same => rw [same, countP_port port]; simp [show 48 + (r.toNat - 48) = r.toNat by omega]
      case isFalse other => rw [h.entries, List.countP_cons_of_neg (by simp; omega), List.countP_nil, Nat.add_zero]
    · rw [markCip, ctxOf_modCtx_self, set.hmode, h.pops.hmode, hm, Bool.or_true]

/-! ### When the slots are served -/

/-- No port is short that holds an entry for each slot that names it. -/
theorem shortPort_none (have_ : Nat → Nat) (ports : List Nat) : ∀ seen : List Nat, (∀ p ∈ ports, seen.count p + ports.count p ≤ have_ p) →
    shortPort have_ seen ports = none := by
  induction ports with
  | nil => exact fun _ _ => rfl
  | cons p l ih =>
    intro seen enough
    have here := enough p (List.mem_cons_self ..)
    have seen_ : (seen.filter (· = p)).length = seen.count p := by
      rw [List.count, List.countP_eq_length_filter]
      rfl
    rw [List.count_cons_self] at here
    rw [shortPort, seen_, if_neg (by omega)]
    refine ih _ (fun q hq => ?_)
    have there := enough q (List.mem_cons_of_mem _ hq)
    rw [List.count_cons] at there ⊢
    omega

/-- The q ports among source slots. -/
def portsOf (l : List (BitVec 6)) : List Nat := (l.filter (fun r => 48 ≤ r.toNat)).map (fun r => r.toNat - 48)

theorem count_portsOf {r : BitVec 6} (port : 48 ≤ r.toNat) (l : List (BitVec 6)) : (portsOf l).count (r.toNat - 48) = l.count r := by
  induction l with
  | nil => rfl
  | cons x l ih =>
    unfold portsOf at ih ⊢
    by_cases high : 48 ≤ x.toNat
    · have same : (x.toNat - 48 == r.toNat - 48) = (x == r) := Bool.eq_iff_iff.mpr (by simp [BitVec.toNat_eq]; omega)
      rw [List.filter_cons_of_pos (by simpa using high), List.map_cons, List.count_cons, List.count_cons, ih, same]
    · have other : (x == r) = false := by
        rw [beq_eq_false_iff_ne]
        exact fun same => high (same ▸ port)
      rw [List.filter_cons_of_neg (by simpa using high), List.count_cons, ih, other]
      rfl

section

variable {s u : State} (looked : Looked s u)
include looked

theorem qInOf_looked (k j : Nat) : qInOf u k j = qInOf s k j := by rw [qInOf, looked.core, qInOf]
theorem qOutOf_looked (k j : Nat) : qOutOf u k j = qOutOf s k j := by rw [qOutOf, looked.core, qOutOf]

theorem popAhead_looked (ports : List Nat) : popAhead u ports = popAhead s ports := by
  have since (c : Nat) : (ctxOf u c).popSince = (ctxOf s c).popSince := by rw [looked.ctx]
  unfold popAhead
  simp only [looked.cur, looked.cycle, since]

/-- Source slots that are served hold nothing back. -/
theorem portsServe_sources {l : List (BitVec 6)} (served : SourcesServed s l) : portsServe u l none = .ok () := by
  obtain ⟨entries, ahead⟩ := served
  have enough : shortPort (fun p => (qInOf u (coreOf u.cur) p).length) [] (portsOf l) = none := by
    refine shortPort_none _ _ _ (fun p hp => ?_)
    obtain ⟨r, hr, rfl⟩ := List.mem_map.mp hp
    obtain ⟨mem, port⟩ := List.mem_filter.mp hr
    have port : 48 ≤ r.toNat := by simpa using port
    rw [List.count_nil, Nat.zero_add, count_portsOf port, looked.cur, qInOf_looked looked]
    exact (entries r mem port).2
  have settled : (Machine.unsettled u u.cur && (!(portsOf l).isEmpty || false)) = false := by
    cases none_ : (portsOf l).isEmpty with
    | true => simp
    | false =>
      obtain ⟨p, hp⟩ := List.exists_mem_of_ne_nil (portsOf l) (by simpa using none_)
      obtain ⟨r, hr, -⟩ := List.mem_map.mp hp
      obtain ⟨mem, port⟩ := List.mem_filter.mp hr
      rw [looked.cur, looked.unsettled, (entries r mem (by simpa using port)).1, Bool.false_and]
  have first : (!(portsOf l).isEmpty && popAhead u (portsOf l)) = false := by rw [popAhead_looked looked, portsOf, ahead, Bool.and_false]
  have fold : (l.filter (fun r => 48 ≤ r.toNat)).map (fun r => r.toNat - 48) = portsOf l := rfl
  simp only [portsServe, fold, settled, first, enough, Bool.false_eq_true, if_false]

/-- A destination with room holds nothing back either, where no lockstep copy is waited for (R78, R213). -/
theorem portsServe_dest {l : List (BitVec 6)} {d : BitVec 6} (served : SourcesServed s l) (low : d.toNat < 48) : portsServe u l (some d) = .ok () := by
  have none_ := portsServe_sources looked served
  unfold portsServe at none_ ⊢
  dsimp only at none_ ⊢
  have high : ¬ 48 ≤ d.toNat := Nat.not_le.mpr low
  simpa only [high, decide_false, Bool.false_and, Bool.false_eq_true, if_false] using none_

end

/-- What the statement says of the ports that gave entries, once the instruction has retired. -/
theorem popped_retire {i : Instr} {s u v w : State} {npc : Word} {l : List (BitVec 6)} (looked : Looked s u) (takes : Takes u v l) (cur : w.cur = s.cur)
    (queues : ∀ j, qInOf w (coreOf s.cur) j = qInOf v (coreOf s.cur) j) (cip : (ctxOf w s.cur).cip = (ctxOf v s.cur).cip) : Popped s (retire i w npc) l where
  entries j _ := by
    have taken := takes.entries j
    rw [looked.cur, qInOf_looked looked] at taken
    rw [← taken, ← queues, qInOf, qInOf, core_retire Core.qIn (fun _ => rfl)]
  marked hm some_ := by
    have marked := takes.marked
    rw [looked.cur, looked.hmode] at marked
    rw [ctx_retire Ctx.cip (fun _ => rfl) i npc cur, cip]
    exact marked hm some_

/-- What a slot reads does not hang on what is looked up. -/
theorem slotValue_looked {s u : State} (looked : Looked s u) (earlier : List (BitVec 6)) (r : BitVec 6) : slotValue u earlier r = slotValue s earlier r := by
  rw [slotValue, looked.cur, looked.rv, qInOf_looked looked, slotValue]

end Sys2Proof.Machine
end

