-- ==== Sys2Proof/Proofs/ChordsAndNeighbours.lean ====
section
/-! SUPPORT. O24: the chord instructions on the core's chord and ports, and NPUT on the neighbour's register. -/

namespace Sys2Proof.Machine

theorem Acts.wv {s u : State} {gs : List Nat} (h : Acts s u gs) (d : Nat) (x : Vec) : Acts s (wv u s.cur d x) gs where
  cur := h.cur
  run := by rw [Machine.wv, ctxOf_modCtx_self, h.run]
  pc := by rw [Machine.wv, ctxOf_modCtx_self, h.pc]
  g r hr := by rw [rg_wv, h.g r hr]
  p r := by rw [rp_wv, h.p r]
  others e he := by
    have same : ctxOf (Machine.wv u s.cur d x) e = ctxOf u e := ctxOf_modCtx_ne _ _ he
    obtain ⟨g, p⟩ := h.others e he
    exact ⟨fun r => by rw [← g r, rg, rg, same], fun r => by rw [← p r, rp, rp, same]⟩

theorem Acts.modCore {s u : State} {gs : List Nat} (h : Acts s u gs) (k : Nat) (f : Core → Core) : Acts s (modCore u k f) gs := h.ctxs rfl rfl

/-! ### Chords -/

/-- The state in which CHOPEN took the core's chord and the port of its target. -/
def chordOpened (s : State) (dest : Nat) : State :=
  notBefore (modCore (modCore (beginIssue s) (coreOf s.cur) (fun x => { x with chord := some { holder := s.cur, dest := dest, closing := false } }))
    dest (fun x => { x with portHolder := some (coreOf s.cur), portDead := false })) s.cur (s.cycle + 2 * latency (vertOf s.cur) (vertexOf dest) + 4)

theorem chopen_admitted {a device dest : Nat} (small : a < 2 ^ 27) (own : agentDevice a = device) (execute : isExecute dest = true) :
    (decide (2 ^ 27 ≤ a) || decide (agentDevice a ≠ device) || !isExecute dest) = false := by
  rw [decide_eq_false (Nat.not_le.mpr small), decide_eq_false (not_not.mpr own), execute]
  rfl

theorem passFence_ok {s u : State} (looked : Looked s u) {path : Nat} (unfenced : fenced s s.cur path = false) : passFence u path = .ok () := by
  rw [passFence, looked.cur, looked.fenced, unfenced]
  rfl

/-- A word more is on its way to the port of a core (R12, R316). -/
def chordSent (s v : State) (dest : Nat) (x : Option Vec) : State :=
  modCore v dest (fun y => { y with portIn := y.portIn ++ [(s.cycle + latency (vertOf s.cur) (vertexOf dest), x)] })

/-- Waiting with a pop keeps its place, and changes nothing else (R78). -/
theorem keepPop_acts {s u : State} {gs : List Nat} (h : Acts s u gs) (ports : List Nat) : Acts s (keepPop u ports) gs := h.modCtx (fun _ => ⟨rfl, rfl, rfl⟩)

theorem popAhead_keepPop (u : State) (ports l : List Nat) : popAhead (keepPop u l) ports = popAhead u ports := by
  have others (i : Nat) (h : 8 * coreOf u.cur + i ≠ u.cur) : ctxOf (keepPop u l) (8 * coreOf u.cur + i) = ctxOf u (8 * coreOf u.cur + i) :=
    ctxOf_modCtx_ne _ _ h
  have own : (ctxOf (keepPop u l) u.cur).popSince = some ((ctxOf u u.cur).popSince.getD (l, u.cycle)) := by rw [keepPop, ctxOf_modCtx_self]
  have cur : (keepPop u l).cur = u.cur := rfl
  unfold popAhead
  simp only [cur, own]
  refine congrArg (List.any (List.range 8)) (funext fun i => ?_)
  by_cases h : 8 * coreOf u.cur + i = u.cur
  · simp [h]
  · rw [others i h]
    cases (ctxOf u u.cur).popSince <;> rfl

/-- The v registers of a context with nothing pending are as its instruction left them (R71, R188). -/
theorem rv_retire {i : Instr} {s u : State} (npc : Word) (cur : u.cur = s.cur) (pending : (ctxOf u s.cur).pendingS = []) (allot : (ctxOf u s.cur).newAllot = none)
    (shown : (ctxOf u s.cur).regs.cf = 0) (r : Nat) : rv (retire i u npc) s.cur r = rv u s.cur r := by
  have regs := retire_quiet i u npc (by rw [cur, pending]) (by rw [cur, allot]) (by rw [cur, shown])
  rw [cur] at regs
  rw [rv, regs, rv]

/-- The state in which CHGET took the oldest entry of the port, x, and gave the mark. -/
def chordTaken (s u : State) (o : OpE) (x : Vec) (mark : Word) : State := wg (wv u s.cur o.d.toNat x) s.cur o.c.toNat mark

theorem coreAt_chordTaken (s u : State) (o : OpE) (x : Vec) (mark : Word) (k : Nat) : coreAt (chordTaken s u o x mark) k = coreAt u k := by
  rw [coreAt, chordTaken, wg_cores]
  rfl

/-- What CHGET of a context with nothing pending writes. -/
theorem chget_writes {s u : State} {o : OpE} (x : Vec) (mark npc : Word) (quiet : Quiet s) (acts : Acts s u [o.c.toNat]) (mem : u.mem = s.mem)
    (ctx : ctxOf u s.cur = { ctxOf s s.cur with popSince := (ctxOf u s.cur).popSince }) :
    Proceeds s (retire (.chget o) (chordTaken s u o x mark) (nextPc (chordTaken s u o x mark))) [o.c.toNat] ∧
      rv (retire (.chget o) (chordTaken s u o x mark) npc) s.cur o.d.toNat = x ∧
      rg (retire (.chget o) (chordTaken s u o x mark) npc) s.cur o.c.toNat = if o.c = 0 then 0 else mark := by
  obtain ⟨pending, allot, -, -, -, shown⟩ := quiet
  have same : (ctxOf (chordTaken s u o x mark) s.cur).pendingS = (ctxOf s s.cur).pendingS ∧
      (ctxOf (chordTaken s u o x mark) s.cur).newAllot = (ctxOf s s.cur).newAllot ∧ (ctxOf (chordTaken s u o x mark) s.cur).regs.cf = (ctxOf s s.cur).regs.cf := by
    rw [chordTaken, wg_ctx, wv, ctxOf_modCtx_self, ctx]
    exact ⟨rfl, rfl, rfl⟩
  refine ⟨proceeds_retire ((acts.wv _ _).wg _ (List.mem_singleton_self _)) (by rw [chordTaken, wg_mem, wv_mem, mem]), ?_,
    rg_retire_written _ _ _ _ ((wv_cur _ _ _ _).trans acts.cur)⟩
  rw [rv_retire (u := chordTaken s u o x mark) npc ((wg_cur _ _ _ _).trans ((wv_cur _ _ _ _).trans acts.cur)) (same.1.trans pending) (same.2.1.trans allot) (same.2.2.trans shown),
    chordTaken, rv_wg, rv_wv_self]

/-! ### NPUT -/

theorem neighbourOf_eq (k j : Nat) : neighbourOf k j = k / 16 * 16 + (k % 16 + (if j < 2 then 1 else 7)) % 8 := by
  unfold neighbourOf coreNo
  split <;> rfl

theorem putsWaiting_looked {s u : State} (looked : Looked s u) (core k j : Nat) : putsWaiting u core k j = putsWaiting s core k j := by
  simp only [putsWaiting, looked.run, looked.sendBuf]

theorem putOpen_looked {s u : State} (looked : Looked s u) (core k j : Nat) : putOpen u core k j = putOpen s core k j := by
  rw [putOpen, putsWaiting_looked looked, looked.core, putOpen]

/-- The presence bit that a write sets (R80). -/
theorem presence_set (x : BitVec 4) {j : Nat} (h : j < 4) : (x ||| (1 : BitVec 4) <<< j).getLsbD j = true := by
  simp [h]

/-- Settles O24: each body by the state of the chord, the ports or the neighbour's register. -/
theorem chordsAndNeighbours : Obligations.ChordsAndNeighbours := by
  unfold Obligations.ChordsAndNeighbours
  refine ⟨?chopen, ?chput, ?chget, ?marker, ?chclose, ?nput, ?nputInside, ?nputWaits, ?nputKilled⟩
  case chopen =>
    intro o s hi settled
    dsimp only
    intro small own execute alive waits noChord noHolder
    have begun := beginIssue_looked s
    have place : coreOf (agentLocal (rg s s.cur o.a.toNat).toNat) = (rg s s.cur o.a.toNat).toNat % 65536 / 8 := rfl
    have device : agentDevice (rg s s.cur o.a.toNat).toNat = s.device := own
    generalize (rg s s.cur o.a.toNat).toNat % 65536 / 8 = dest at *
    have acts : Acts s (chordOpened s dest) [] := by
      unfold chordOpened notBefore
      exact (((Acts.of_looked hi.1 begun).modCore _ _).modCore _ _).modCtx (fun _ => ⟨rfl, rfl, rfl⟩)
    refine gives_retire (u := chordOpened s dest) hi (rfl : _ = execChopen o s) ?_ ⟨proceeds_retire acts ?_, ?_, ?_⟩
    · have cooked : (ctxOf (beginIssue s) s.cur).cooked = (ctxOf s s.cur).cooked := by rw [begun.ctx]
      simp only [beginIssue_cur, rg_beginIssue, beginIssue_device, place, chopen_admitted small device execute, Bool.false_eq_true, if_false, coreAt_beginIssue, alive, noChord,
        settle_ok begun settled, ok_bind, noHolder, beginIssue_cycle, cooked]
      cases waited : (ctxOf s s.cur).cooked with
      | none =>
        have patient : ¬ s.cycle + 2 ^ 20 ≤ s.cycle := Nat.not_le.mpr (Nat.lt_add_of_pos_right (Nat.two_pow_pos 20))
        simp only [patient, if_false, Option.isSome_none, Bool.or_self, Bool.false_eq_true, chordOpened]
      | some w =>
        have patient : ¬ w.toNat + 2 ^ 20 ≤ s.cycle := Nat.not_le.mpr (waits w waited)
        simp only [patient, if_false, Option.isSome_none, Bool.or_self, Bool.false_eq_true, chordOpened]
    · rw [chordOpened, notBefore, modCtx_mem, modCore_mem, modCore_mem, beginIssue_mem]
    · rw [core_retire Core.chord (fun _ => rfl), chordOpened, notBefore, coreAt_modCtx, coreAt_modCore, coreAt_modCore_self]
      split
      case isTrue same => rw [← same, coreAt_modCore_self]
      case isFalse => rfl
    · rw [core_retire Core.portHolder (fun _ => rfl), chordOpened, notBefore, coreAt_modCtx, coreAt_modCore_self]
  case chput =>
    intro o s dest hi free unfenced served chord alive room
    have begun := beginIssue_looked s
    obtain ⟨v, read, takes⟩ := (Takes.nil (beginIssue s)).readSlot o.a (fun port => by
      rw [beginIssue_cur, qInOf_looked begun, List.count_nil]
      have one := (served.1 o.a (List.mem_singleton_self _) port).2
      rw [List.count_singleton_self] at one
      exact one)
    rw [slotValue_looked begun] at read
    have acts : Acts s (chordSent s v dest (some (slotValue s [] o.a))) [] := (takes.pops.acts (.of_looked hi.1 begun)).modCore _ _
    refine gives_retire (u := chordSent s v dest (some (slotValue s [] o.a))) hi (rfl : _ = execChput o s) ?_ ⟨proceeds_retire acts ?_, ?_, ?_⟩
    · have space : ¬ 16 ≤ (coreAt s dest).port.length + (coreAt s dest).portIn.length := Nat.not_le.mpr room
      simp only [beginIssue_cur, coreAt_beginIssue, chord, alive, Bool.false_eq_true, if_false, passFence_ok begun unfenced, outputGate_ok begun free,
        portsServe_sources begun served, ok_bind, space, read, beginIssue_cycle, chordSent]
    · rw [chordSent, modCore_mem, takes.pops.mem, beginIssue_mem]
    · refine popped_retire begun takes (takes.pops.cur.trans begun.cur) (fun j => ?_) rfl
      rw [qInOf, chordSent, coreAt_modCore]
      split
      case isTrue same => rw [← same]; rfl
      case isFalse => rfl
    · rw [core_retire Core.portIn (fun _ => rfl), chordSent, coreAt_modCore_self, takes.pops.core, coreAt_beginIssue]
  case chget =>
    intro o s x l hi settled live ahead entry quiet
    have fresh := beginIssue_of_quiet quiet
    have acts : Acts s (modCore (keepPop s [chordPort]) (coreOf s.cur) (fun y => { y with port := l })) [o.c.toNat] :=
      (keepPop_acts (.of_looked hi.1 (.refl s)) _).modCore _ _ |>.mono (by simp)
    obtain ⟨goes, value, mark⟩ := chget_writes (o := o) x 0 (nextPc (chordTaken s _ o x 0)) quiet acts rfl (by rw [ctxOf_modCore, keepPop, ctxOf_modCtx_self])
    refine gives_retire hi (rfl : _ = execChget o s) ?_ ⟨goes, value, by rw [mark, ite_self], ?_⟩
    · rw [fresh]
      simp only [live, Bool.false_eq_true, if_false, settle_ok (.refl s) settled, ok_bind, popAhead_keepPop, ahead, entry]
      rfl
    · rw [core_retire Core.port (fun _ => rfl), coreAt_chordTaken, coreAt_modCore_self]
  case marker =>
    intro o s k l hi settled live ahead holder entry quiet
    have fresh := beginIssue_of_quiet quiet
    let u := modCore (modCore (keepPop s [chordPort]) k (fun y => { y with chord := none })) (coreOf s.cur) (fun y => { y with port := l, portHolder := none })
    have acts : Acts s u [o.c.toNat] := ((keepPop_acts (.of_looked hi.1 (.refl s)) _).modCore _ _).modCore _ _ |>.mono (by simp)
    obtain ⟨goes, value, mark⟩ := chget_writes (o := o) 0 1 (nextPc (chordTaken s u o 0 1)) quiet acts rfl
      (by rw [ctxOf_modCore, ctxOf_modCore, keepPop, ctxOf_modCtx_self])
    refine gives_retire hi (rfl : _ = execChget o s) ?_ ⟨goes, value, mark, ?_, ?_, ?_⟩
    · rw [fresh]
      simp only [live, Bool.false_eq_true, if_false, settle_ok (.refl s) settled, ok_bind, popAhead_keepPop, ahead, entry, holder]
      rfl
    · rw [core_retire Core.port (fun _ => rfl), coreAt_chordTaken, coreAt_modCore_self]
    · rw [core_retire Core.portHolder (fun _ => rfl), coreAt_chordTaken, coreAt_modCore_self]
    · rw [core_retire Core.chord (fun _ => rfl), coreAt_chordTaken, coreAt_modCore]
      split
      case isTrue same => rw [← same, coreAt_modCore_self]
      case isFalse => rw [coreAt_modCore_self]
  case chclose =>
    intro o s dest hi settled chord alive
    have begun := beginIssue_looked s
    refine gives_retire (u := modCore (chordSent s (beginIssue s) dest none) (coreOf s.cur)
      (fun y => { y with chord := some { holder := s.cur, dest := dest, closing := true } })) hi (rfl : _ = execChclose o s) ?_ ⟨proceeds_retire ?_ ?_, ?_, ?_⟩
    · simp only [settle_ok begun settled, ok_bind, closeChord, beginIssue_cur, coreAt_beginIssue, chord, ne_eq, not_true_eq_false, decide_false, Bool.or_self,
        Bool.false_eq_true, if_false, alive, beginIssue_cycle, chordSent]
    · exact ((Acts.of_looked hi.1 begun).modCore _ _).modCore _ _
    · rw [modCore_mem, chordSent, modCore_mem, beginIssue_mem]
    · rw [core_retire Core.portIn (fun _ => rfl), coreAt_modCore, chordSent, coreAt_modCore_self]
      split
      case isTrue same => rw [same, coreAt_modCore_self, coreAt_beginIssue]
      case isFalse => rw [coreAt_beginIssue]
    · rw [core_retire Core.chord (fun _ => rfl), coreAt_modCore_self]
  case nput =>
    intro o s hi free outside
    dsimp only
    rw [← neighbourOf_eq]
    intro alive clear none_
    have begun := beginIssue_looked s
    generalize hk : neighbourOf (coreOf s.cur) (o.imm.toNat % 4) = k at *
    have open_ : putOpen s (coreOf s.cur) k (o.imm.toNat % 4) = true := by
      rw [putOpen, none_, nbit, ← BitVec.getLsbD, clear]
      rfl
    refine gives_retire (u := putNeighbour (beginIssue s) k (o.imm.toNat % 4) (rg s s.cur o.a.toNat)) hi (rfl : _ = execNput o s) ?_
      ⟨proceeds_retire ((Acts.of_looked hi.1 begun).modCore _ _) begun.mem, ?_, ?_⟩
    · simp only [beginIssue_cur, hk, coreAt_beginIssue, alive, Bool.false_eq_true, if_false, outputGate_ok begun free, ok_bind,
        sendBuffer_outside begun.cur ((begun.hmode _).trans outside), putOpen_looked begun, open_, if_true, rg_beginIssue]
    · rw [core_retire Core.n (fun _ => rfl), putNeighbour, coreAt_modCore_self, sget_sput_self]
    · rw [core_retire Core.npres (fun _ => rfl), putNeighbour, coreAt_modCore_self]
      exact presence_set _ (Nat.mod_lt _ (by decide))
  case nputInside =>
    intro o s hi free room
    dsimp only
    rw [← neighbourOf_eq]
    intro alive
    have begun := beginIssue_looked s
    refine gives_buffers hi (rfl : _ = execNput o s) begun ?_
    simp only [beginIssue_cur, coreAt_beginIssue, alive, Bool.false_eq_true, if_false, outputGate_ok begun free, ok_bind, rg_beginIssue, beginIssue_cycle,
      sendBuffer_inside begun.cur (begun.hmode _) (begun.sendBuf _) room]
  case nputWaits =>
    intro o s hi free outside
    dsimp only
    rw [← neighbourOf_eq]
    intro alive held
    have begun := beginIssue_looked s
    have shut : putOpen s (coreOf s.cur) (neighbourOf (coreOf s.cur) (o.imm.toNat % 4)) (o.imm.toNat % 4) = false := by
      rw [putOpen, nbit, ← BitVec.getLsbD]
      obtain held | held := held
      · rw [held]; rfl
      · rw [Bool.and_eq_false_iff]
        exact .inr (by simpa using held)
    refine gives_stalled (u := beginIssue s) hi (rfl : _ = execNput o s) ?_ begun.cur begun.mem begun.regs (begun.pc _)
    simp only [beginIssue_cur, coreAt_beginIssue, alive, Bool.false_eq_true, if_false, outputGate_ok begun free, ok_bind, rg_beginIssue, beginIssue_cycle,
      sendBuffer_outside begun.cur ((begun.hmode _).trans outside), putOpen_looked begun, shut]
    rfl
  case nputKilled =>
    intro o s hi finished
    rw [← neighbourOf_eq]
    intro killed
    change execNput o s = _
    unfold execNput
    refine runSeq_takes hi (beginIssue_cur s) finished ?_
    simp only [beginIssue_cur, coreAt_beginIssue, killed, if_true]
    rfl

end Sys2Proof.Machine
end

