-- ==== Sys2Proof/Proofs/SendAndRelease.lean ====
section
/-! SUPPORT. O23: SEND and its message, at once or from the send buffer, and MREL. -/

namespace Sys2Proof.Machine

/-! ### What the sending interface looks at -/

/-- Two states between which the sending interface and the retry entries see no difference. -/
structure SameMail (s u : State) : Prop where
  messages : u.messages = s.messages
  host : u.host = s.host
  cycle : u.cycle = s.cycle
  device : u.device = s.device
  ports : u.portsUp = s.portsUp
  routes : u.routes = s.routes
  killed : ∀ k, (coreAt u k).killed = (coreAt s k).killed
  routines : ∀ k, (coreAt u k).routines = (coreAt s k).routines
  inbox : ∀ k, (coreAt u k).inbox = (coreAt s k).inbox
  slotFree : ∀ k, (coreAt u k).slotFree = (coreAt s k).slotFree

namespace SameMail

variable {s u : State} (h : SameMail s u)
include h

theorem serving (k cls : Nat) : Machine.serving u k cls = Machine.serving s k cls := by
  have at_ (j : Nat) : routineAt u k j = routineAt s k j := by rw [routineAt, h.routines, routineAt]
  simp only [Machine.serving, at_]

theorem noticeCore (sender cls : Nat) : Machine.noticeCore u sender cls = Machine.noticeCore s sender cls := by
  simp only [Machine.noticeCore, apexOf, h.killed, h.serving]

theorem freeNotice (k : Nat) : Machine.freeNotice u k = Machine.freeNotice s k := by
  have open_ : slotOpen u k = slotOpen s k := funext fun i => by rw [slotOpen, h.inbox, h.slotFree, h.cycle, slotOpen]
  rw [Machine.freeNotice, open_, Machine.freeNotice]

theorem noticeWaits (f : MsgFlight) (code : Nat) : Machine.noticeWaits u f code = Machine.noticeWaits s f code := by
  simp only [Machine.noticeWaits, h.host, h.noticeCore, h.freeNotice]

theorem retryFull (k : Nat) : Machine.retryFull u k = Machine.retryFull s k := by
  have waits : Machine.noticeWaits u = Machine.noticeWaits s := funext fun f => funext fun code => h.noticeWaits f code
  unfold Machine.retryFull entriesOf
  rw [h.messages, waits]

theorem unsendable (m : Msg) : Machine.unsendable u m = Machine.unsendable s m := by
  simp only [Machine.unsendable, refusedAtOnce, reachable, h.device, h.ports, h.routes]

theorem msgTime (v : Nat) (m : Msg) : Machine.msgTime u v m = Machine.msgTime s v m := by
  simp only [Machine.msgTime, flightTime, fabricHop, exitVertex, orderedPort, h.device, h.ports]

end SameMail

/-- The state in which SEND took its message id and returned it (R313). -/
def idTaken (s : State) (d : BitVec 6) : State :=
  wg (modCore (beginIssue s) (coreOf s.cur) (fun x => { x with msgid := x.msgid + 1 })) s.cur d.toNat ((coreAt s (coreOf s.cur)).msgid.setWidth 64)

theorem coreAt_idTaken (s : State) (d : BitVec 6) (k : Nat) :
    coreAt (idTaken s d) k = if k = coreOf s.cur then { coreAt s (coreOf s.cur) with msgid := (coreAt s (coreOf s.cur)).msgid + 1 } else coreAt s k := by
  rw [coreAt, idTaken, wg_cores]
  change coreAt (modCore (beginIssue s) _ _) k = _
  rw [coreAt_modCore, coreAt_beginIssue, coreAt_beginIssue]

theorem idTaken_only (s : State) (d : BitVec 6) :
    idTaken s d = { s with ctxs := (idTaken s d).ctxs, cores := (idTaken s d).cores, clusters := (idTaken s d).clusters, tokens := (idTaken s d).tokens } := by
  unfold idTaken
  rw [wg_only, beginIssue_only]
  rfl

theorem sameMail_idTaken (s : State) (d : BitVec 6) : SameMail s (idTaken s d) := by
  have core {α : Type} (f : Core → α) (hf : ∀ x n, f { x with msgid := n } = f x) (k : Nat) : f (coreAt (idTaken s d) k) = f (coreAt s k) := by
    rw [coreAt_idTaken]
    split
    case isTrue same => rw [same, hf]
    case isFalse => rfl
  exact ⟨by rw [idTaken_only], by rw [idTaken_only], by rw [idTaken_only], by rw [idTaken_only], by rw [idTaken_only], by rw [idTaken_only],
    core _ (fun _ _ => rfl), core _ (fun _ _ => rfl), core _ (fun _ _ => rfl), core _ (fun _ _ => rfl)⟩

theorem ctxOf_idTaken (s : State) (d : BitVec 6) : ctxOf (idTaken s d) s.cur =
    { ctxOf (beginIssue s) s.cur with regs := { (ctxOf (beginIssue s) s.cur).regs with g := (ctxOf (idTaken s d) s.cur).regs.g } } := wg_ctx _ _ _ _

section

variable {s : State} (d : BitVec 6)

theorem idTaken_cur : (idTaken s d).cur = s.cur := by rw [idTaken_only]
theorem idTaken_hmode : (ctxOf (idTaken s d) s.cur).hmode = (ctxOf s s.cur).hmode := by rw [ctxOf_idTaken, (beginIssue_looked s).ctx]
theorem idTaken_sendBuf : (ctxOf (idTaken s d) s.cur).sendBuf = (ctxOf s s.cur).sendBuf := by rw [ctxOf_idTaken, (beginIssue_looked s).ctx]

theorem outputGate_idTaken (free : FreeToAct s) : outputGate (idTaken s d) = .ok () := by
  have settled : unsettled (idTaken s d) s.cur = false := by
    rw [← free.1, unsettled, idTaken_only, unsettled]
  have lockstep : (ctxOf (idTaken s d) s.cur).lockstep = (ctxOf s s.cur).lockstep := by rw [ctxOf_idTaken, (beginIssue_looked s).ctx]
  have pass : (ctxOf (idTaken s d) s.cur).lockPass = (ctxOf s s.cur).lockPass := by rw [ctxOf_idTaken, (beginIssue_looked s).ctx]
  rw [outputGate, idTaken_cur, settled, if_neg Bool.false_ne_true, lockGate, idTaken_cur, lockstep, pass]
  refine if_neg ?_
  obtain alone | alone := free.2 <;> simp [alone]

theorem idTaken_acts (hr : (ctxOf s s.cur).run = .ready) : Acts s (idTaken s d) [d.toNat] :=
  (((Acts.of_looked hr (beginIssue_looked s)).modCore _ _).mono (List.nil_subset _)).wg _ (List.mem_singleton_self _)

end

/-- The message that SEND builds, from its operands (R312). -/
theorem sendMessage_beginIssue (s : State) (o : OpE) (id : BitVec 16) : sendMessage (beginIssue s) s.cur o id = sendMessage s s.cur o id := by
  have lease : (ctxOf (beginIssue s) s.cur).lease = (ctxOf s s.cur).lease := by rw [(beginIssue_looked s).ctx]
  simp only [sendMessage, payloadOf, rgs, rg_beginIssue, lease, agentOf, beginIssue_device]

/-- Its fields that do not hang on whether it is placed. -/
theorem sendMessage_fields (s : State) (c : Nat) (o : OpE) (id : BitVec 16) :
    let m := sendMessage s c o id
    m.cls = o.imm.toNat % 32 ∧ m.sender = agentOf s c ∧ m.msgid = id ∧ (o.b ≠ 0 → m.payload = rgs s c o.b.toNat 6) ∧ (o.b = 0 → m.payload = [0, 0, 0, 0, 0, 0]) ∧
      (o.imm.getLsbD 5 = false → m.dest = (rg s c o.a.toNat).toNat % 2 ^ 27) := by
  have pay : (o.b ≠ 0 → payloadOf s c o.b = rgs s c o.b.toNat 6) ∧ (o.b = 0 → payloadOf s c o.b = [0, 0, 0, 0, 0, 0]) :=
    ⟨fun h => if_neg h, fun h => if_pos h⟩
  dsimp only
  unfold sendMessage
  dsimp only
  split
  case isTrue placed => exact ⟨rfl, rfl, rfl, pay.1, pay.2, fun h => absurd (placed.symm.trans h) (by decide)⟩
  case isFalse => exact ⟨rfl, rfl, rfl, pay.1, pay.2, fun _ => rfl⟩

/-- The body of SEND, up to the send buffer. -/
theorem send_buffers {o : OpE} {s w : State} (free : FreeToAct s)
    (way : sendBuffer (idTaken s o.d) (.message (sendMessage s s.cur o (coreAt s (coreOf s.cur)).msgid)) (fun t => do
      if returning t s.cur then parkOn .flights t else if retryFull t (coreOf s.cur) then parkOn .retryFull t
      else .ok (leaveMsg t (coreOf s.cur) (sendMessage s s.cur o (coreAt s (coreOf s.cur)).msgid))) = .ok w) :
    ∃ body, exec (.send o) s = runSeq (.send o) s body ∧ body (beginIssue s) = .ok w := by
  have begun := beginIssue_looked s
  refine ⟨_, (rfl : _ = execSend o s), ?_⟩
  have state : wg (modCore (beginIssue s) (coreOf s.cur) (fun x => { x with msgid := x.msgid + 1 })) s.cur o.d.toNat
      ((coreAt s (coreOf s.cur)).msgid.setWidth 64) = idTaken s o.d := rfl
  simp only [beginIssue_cur, outputGate_ok begun free, ok_bind, takeMsgid, coreAt_beginIssue, sendMessage_beginIssue, bufferMsg, state,
    outputGate_idTaken o.d free, idTaken_cur]
  rw [way]
  rfl

/-- What SEND returns reads back: the send buffer and the messages hold nothing of it. -/
theorem rg_idTaken_retire (i : Instr) {s w : State} (d : BitVec 6) (npc : Word) (cur : w.cur = s.cur) (regs : (ctxOf w s.cur).regs = (ctxOf (idTaken s d) s.cur).regs) :
    rg (retire i w npc) s.cur d.toNat = if d = 0 then 0 else (coreAt s (coreOf s.cur)).msgid.setWidth 64 := by
  have read := rg_retire i w npc d.toNat
  rw [cur, rg, rg, regs] at read
  have written := rg_wg_self (modCore (beginIssue s) (coreOf s.cur) (fun x => { x with msgid := x.msgid + 1 })) s.cur d.toNat
    ((coreAt s (coreOf s.cur)).msgid.setWidth 64)
  rw [rg] at written ⊢
  rw [read]
  refine written.trans (if_congr ?_ rfl rfl)
  rw [BitVec.toNat_eq]
  rfl

/-- A plain SEND with an address in its low bits, of an agent of this device: the interface lets it go (R15, R313). -/
theorem sendMessage_plain {s : State} {o : OpE} (id : BitVec 16) (plain : o.imm.getLsbD 5 = false) (clear : rg s s.cur o.a.toNat >>> 43 = 0)
    (target : namesTarget ((rg s s.cur o.a.toNat).toNat % 2 ^ 27) = true) (own : (rg s s.cur o.a.toNat).toNat % 2 ^ 27 / 65536 = s.device) :
    unsendable s (sendMessage s s.cur o id) = false ∧ (sendMessage s s.cur o id).lease = (ctxOf s s.cur).lease := by
  have small : (rg s s.cur o.a.toNat).toNat < 2 ^ 43 := by
    have zero := congrArg BitVec.toNat clear
    rw [BitVec.toNat_ushiftRight, Nat.shiftRight_eq_div_pow] at zero
    exact (Nat.div_eq_zero_iff_lt (Nat.two_pow_pos 43)).mp zero
  have unchecked : nbit (rg s s.cur o.a.toNat).toNat 43 = false := Nat.testBit_lt_two_pow small
  have reserved : bits (rg s s.cur o.a.toNat).toNat 63 44 = 0 := by
    rw [bits, Nat.shiftRight_eq_div_pow, Nat.div_eq_of_lt (small.trans (by decide)), Nat.zero_mod]
  have dest : bits (rg s s.cur o.a.toNat).toNat 26 0 = (rg s s.cur o.a.toNat).toNat % 2 ^ 27 := rfl
  have bit : nbit o.imm.toNat 5 = false := plain
  unfold sendMessage
  simp only [bit, Bool.false_eq_true, if_false, unchecked, reserved, dest, unsendable, newMsg, refusedAtOnce, target, agentDevice, own, and_true]
  simp

/-- The state in which MREL freed the handler's slot (R314). -/
def slotReleased (s : State) (q : Slot) : State :=
  modCtx (markCip (freeSlot (beginIssue s) (coreOf s.cur) q.index) s.cur) s.cur (fun x => { x with mapped := false, slot := none })

/-- Settles O23: the message stands in the send buffer, or leaves the core through the gates of its class. -/
theorem sendAndRelease : Obligations.SendAndRelease := by
  unfold Obligations.SendAndRelease
  refine ⟨?inside, ?outside, ?mrel⟩
  case inside =>
    intro o s hi free room
    have begun := beginIssue_looked s
    let m := sendMessage s s.cur o (coreAt s (coreOf s.cur)).msgid
    have fields := sendMessage_fields s s.cur o (coreAt s (coreOf s.cur)).msgid
    obtain ⟨body, he, hb⟩ := send_buffers free (sendBuffer_inside (idTaken_cur o.d) (idTaken_hmode o.d) (idTaken_sendBuf o.d) room _ _)
    refine gives_retire hi he hb ⟨proceeds_retire ((idTaken_acts o.d hi.1).buffered _) ?_, ?_, ?_, m, ?_, fields⟩
    · rw [buffered_mem, idTaken_only]
    · exact rg_idTaken_retire _ _ _ ((buffered_cur _ _).trans (idTaken_cur _)) (by rw [buffered, idTaken_cur, ctxOf_modCtx_self])
    · rw [core_retire Core.msgid (fun _ => rfl), buffered, coreAt_modCtx, coreAt_idTaken, if_pos rfl]
    · exact buffers_retire (idTaken_cur o.d) _ _ (idTaken_sendBuf o.d) _
  case outside =>
    intro o s hi free room plain width clear target own
    obtain ⟨outside, unfenced, quiet, space⟩ := room
    have fields := sendMessage_fields s s.cur o (coreAt s (coreOf s.cur)).msgid
    obtain ⟨sendable, lease⟩ := sendMessage_plain (coreAt s (coreOf s.cur)).msgid plain clear target own
    have mail := sameMail_idTaken s o.d
    let m := sendMessage s s.cur o (coreAt s (coreOf s.cur)).msgid
    have leaves : leaveMsg (idTaken s o.d) (coreOf s.cur) m = sendMsg (idTaken s o.d) (.core (coreOf s.cur)) (vertexOf (coreOf s.cur)) .flying m := by
      simp only [leaveMsg, sendOut, mail.unsendable, m, sendable, Bool.false_eq_true, if_false]
    have idle : returning (idTaken s o.d) s.cur = false := by rw [← quiet, returning, idTaken_only, returning]
    obtain ⟨body, he, hb⟩ := send_buffers free ((sendBuffer_outside (idTaken_cur o.d) ((idTaken_hmode o.d).trans outside) _ _).trans (by
      rw [idle, mail.retryFull, space, leaves]
      rfl))
    have acts : Acts s (sendMsg (idTaken s o.d) (.core (coreOf s.cur)) (vertexOf (coreOf s.cur)) .flying m) [o.d.toNat] := (idTaken_acts o.d hi.1).ctxs rfl rfl
    refine gives_retire hi he hb ⟨proceeds_retire acts ?_, ?_, m, ?_, fields.1, fields.2.1, fields.2.2.1, lease, fields.2.2.2.2.2 plain, fields.2.2.2.1⟩
    · rw [sendMsg, idTaken_only]
    · exact rg_idTaken_retire _ _ _ acts.cur rfl
    · rw [Posts, retire_messages, sendMsg, mail.messages, mail.cycle, if_pos rfl, mail.msgTime, idTaken_only]
  case mrel =>
    intro o s q hi free slot mapped
    have begun := beginIssue_looked s
    have acts : Acts s (slotReleased s q) [] := by
      unfold slotReleased markCip freeSlot
      refine Acts.modCtx (Acts.modCtx ((Acts.of_looked hi.1 begun).modCore _ _) ?_) ?_
      all_goals exact fun _ => ⟨rfl, rfl, rfl⟩
    have own : slotOf (beginIssue s) s.cur = some q := by
      rw [← slot, slotOf, coreAt_beginIssue, begun.ctx, slotOf]
    have held : (ctxOf (beginIssue s) s.cur).mapped = true := by rw [begun.ctx, mapped]
    refine gives_retire (u := slotReleased s q) hi (rfl : _ = execMrel o s) ?_ ⟨proceeds_retire acts ?_, ?_, ?_, ?_⟩
    · simp only [settle_ok begun free.1, ok_bind, beginIssue_cur, own, held, if_true, slotReleased]
    · rw [slotReleased, modCtx_mem, markCip, modCtx_mem, freeSlot, modCore_mem, beginIssue_mem]
    · rw [ctx_retire Ctx.mapped (fun _ => rfl) _ _ acts.cur, slotReleased, ctxOf_modCtx_self]
    · intro handler
      rw [ctx_retire Ctx.cip (fun _ => rfl) _ _ acts.cur, slotReleased, ctxOf_modCtx_self, markCip, ctxOf_modCtx_self, freeSlot, ctxOf_modCore,
        begun.hmode, handler]
      exact Bool.or_true _
    · rw [core_retire Core.inbox (fun _ => rfl), slotReleased, coreAt_modCtx, markCip, coreAt_modCtx, freeSlot, coreAt_modCore_self, coreAt_beginIssue]

end Sys2Proof.Machine
end

