-- ==== Sys2Proof/Proofs/Translation.lean ====
section
/-! SUPPORT. O30: translation by the TLBs, and what a region's mode allows. -/

namespace Sys2Proof.Machine

section

variable {s : State} {ea : Word} {p : Perm} (own : ea.toNat / 2 ^ 53 = s.device) (below : ea.toNat % 2 ^ 53 < 0x1FFFFF00000000)
  (noFail : (ctxOf s s.cur).walkFails = [])
include own below noFail

/-- Translation of an address of this device below the untranslated top is what the lookup in the TLBs says (R92, R237). -/
theorem translate_lookup : translate s ea p = match tlbLookup s (coreOf s.cur) (ea.toNat % 2 ^ 53) with
    | none => parkOn (.walk (ea.toNat % 2 ^ 53)) (askWalk s s.cur (ea.toNat % 2 ^ 53))
    | some (e, n, t) => if allows p e.leaf then .ok (.phys (ea.toNat % 2 ^ 53) (leafPa e.page (ea.toNat % 2 ^ 53) e.leaf) e.leaf, addLate t s.cur n)
      else trapAt cXlatePerm ea t := by
  unfold translate
  simp only [own, ne_eq, not_true_eq_false, if_false, Nat.not_le.mpr below, noFail, List.find?_nil] <;> rfl

theorem translate_found {e : TlbEntry} {n : Nat} {t : State} (found : tlbLookup s (coreOf s.cur) (ea.toNat % 2 ^ 53) = some (e, n, t)) (perm : allows p e.leaf = true) :
    translate s ea p = .ok (.phys (ea.toNat % 2 ^ 53) (leafPa e.page (ea.toNat % 2 ^ 53) e.leaf) e.leaf, addLate t s.cur n) := by
  rw [translate_lookup own below noFail, found]
  exact if_pos perm

end

/-- The lookup in the core's TLB, and behind it in the cluster's (R92). -/
theorem tlbLookup_core {s : State} {k va : Nat} {e : TlbEntry} (found : tlbFind (coreAt s k).tlb va = some e) :
    tlbLookup s k va = some (e, 0, modCore s k (fun x => { x with tlb := tlbUse x.tlb e })) := by rw [tlbLookup, found]

theorem tlbLookup_cluster {s : State} {k va : Nat} {e : TlbEntry} (missed : tlbFind (coreAt s k).tlb va = none)
    (found : tlbFind (clusterAt s (vertexOf k)).tlb va = some e) : tlbLookup s k va = some (e, 8, tlbFill s k e) := by rw [tlbLookup, missed, found]

theorem tlbLookup_none {s : State} {k va : Nat} (missed : tlbFind (coreAt s k).tlb va = none)
    (missed' : tlbFind (clusterAt s (vertexOf k)).tlb va = none) : tlbLookup s k va = none := by rw [tlbLookup, missed, missed']

/-- A walk for the address waits at the walker of the context's cluster. -/
theorem askWalk_waits (s : State) (c va : Nat) : ∃ w ∈ (clusterAt (askWalk s c va) (vertOf c)).walks, w.1 = c ∧ w.2.1 = va := by
  rw [askWalk, clusterAt_modCluster_self]
  split
  case isTrue asked =>
    obtain ⟨w, mem, same⟩ := List.any_eq_true.mp asked
    exact ⟨w, mem, by simpa using same⟩
  case isFalse => exact ⟨(c, va, 0, s.root), List.mem_append_right _ (List.mem_singleton_self _), rfl, rfl⟩

/-- The untranslated top is for execute and access cores alone (R89). -/
theorem translate_top_refused {s : State} {ea : Word} (p : Perm) (top : 0x1FFFFF00000000 ≤ ea.toNat % 2 ^ 53) (noExecute : isExecute (coreOf s.cur) = false)
    (noAccess : isAccess (coreOf s.cur) = false) : translate s ea p = .error (.trap { code := cXlatePerm, addr := ea } s) := by
  unfold translate
  simp only [top, if_true, noExecute, noAccess, Bool.false_and, Bool.false_eq_true, if_false, trapAt]
  split
  · rfl
  · cases facetOf s ea <;> rfl

/-- Settles O30: the lookup decides; the modes by Table 06-4. -/
theorem translationAndModes : Obligations.TranslationAndModes := by
  unfold Obligations.TranslationAndModes
  refine ⟨?page, ?refused, ?cluster, ?walk, ?top, ?exclusive, ?exclusiveNone, ?frozenNone, ?frozen, ?commons⟩
  case page =>
    intro s ea p e own below noFail found perm
    exact ⟨_, translate_found own below noFail (tlbLookup_core found) perm, rfl⟩
  case refused =>
    intro s ea p e own below noFail found perm
    rw [translate_lookup own below noFail, tlbLookup_core found]
    exact ⟨_, if_neg (by simp [perm])⟩
  case cluster =>
    intro s ea p e own below noFail missed found perm
    refine ⟨_, translate_found own below noFail (tlbLookup_cluster missed found) perm, ?_⟩
    rw [addLate, if_neg (by decide), ctxOf_modCtx_self]
    rfl
  case walk =>
    intro s ea p own below noFail missed missed'
    rw [translate_lookup own below noFail, tlbLookup_none missed missed']
    exact ⟨_, rfl, askWalk_waits _ _ _⟩
  case top => exact fun s ea p top noExecute noAccess => translate_top_refused p top noExecute noAccess
  case exclusive => exact fun _ _ => rfl
  case exclusiveNone => exact fun _ _ => rfl
  case frozenNone => exact fun _ => rfl
  case frozen =>
    intro h sh some_
    have granted (u : TokenUse) : tokenFault .frozen h sh u = if u = .read || u = .peek then none else some cTokenFrozen := if_neg (by simp [some_])
    simp [granted]
  case commons => exact fun _ _ => ⟨rfl, rfl, rfl, rfl⟩

end Sys2Proof.Machine
end

