-- ==== Sys2Proof/Proofs/TokenInstructions.lean ====
section
/-! SUPPORT. O31: the token instructions on their way, and the change of an entry in its one step. -/

namespace Sys2Proof.Machine

/-! ### The end of an instruction leaves the entries of tokens -/

theorem hostWrite_tokens (l : List Byte) : ∀ (s : State) (a : Nat), (hostWrite s a l).tokens = s.tokens := by
  induction l with
  | nil => exact fun _ _ => rfl
  | cons b l ih => exact fun s a => by rw [hostWrite, ih]

theorem hostEvent_tokens (s : State) (a b : Word) : (hostEvent s a b).tokens = s.tokens := by
  unfold hostEvent
  split
  · simp [writeEvent, hostWrite_tokens]
  · split <;> rfl

theorem putRecord_tokens (s : State) (k : Nat) (ws : List Word) : (putRecord s k ws).tokens = s.tokens := by
  unfold putRecord
  dsimp only
  split
  · rfl
  · rw [hostEvent_tokens]
    rfl

theorem stopCtx_tokens (s : State) (c : Nat) (dog : Bool) : (stopCtx s c dog).tokens = s.tokens := by
  unfold stopCtx
  dsimp only
  split
  · rw [reportCtx, putRecord_tokens]
    rfl
  · rfl

theorem endGroup_tokens (s : State) (c : Nat) : (endGroup s c).tokens = s.tokens := by
  refine foldl_keeps (P := fun t => t.tokens = s.tokens) (fun t e h => ?_) (ctxOf s c).pendingS ?_
  · refine Eq.trans ?_ h
    unfold applySreg
    split <;> (try dsimp only) <;> (try split) <;> rfl
  · rw [showFlags_only]

theorem parkGroup_tokens (s : State) (c : Nat) : (parkGroup s c).tokens = s.tokens := by
  unfold parkGroup
  dsimp only
  split
  · exact endGroup_tokens s c
  · split
    · exact endGroup_tokens s c
    · exact (stopCtx_tokens _ c _).trans (endGroup_tokens s c)

@[simp] theorem retire_tokens (i : Instr) (s : State) (npc : Word) : (retire i s npc).tokens = s.tokens := by
  have followed (t : State) (c : Nat) (x : Ctx) : (followCopy t c x npc).tokens = t.tokens := by unfold followCopy; split <;> rfl
  have charged : (chargeIssue i s).tokens = s.tokens := by rw [chargeIssue_only]
  unfold retire
  dsimp only
  split
  · exact charged
  · split
    · exact (parkGroup_tokens _ _).trans ((followed _ _ _).trans charged)
    · exact (followed _ _ _).trans charged

@[simp] theorem retire_accounts (i : Instr) (s : State) (npc : Word) : (retire i s npc).accounts = s.accounts :=
  (congrArg State.accounts (retire_rest i s npc) : (retire i s npc).rest.accounts = s.rest.accounts)

/-! ### Leaving -/

theorem tokenGate_ok {s : State} (free : FreeToAct s) (idle : returning s s.cur = false) : tokenGate s = .ok () := by
  rw [tokenGate, idle, if_neg Bool.false_ne_true, outputGate_ok (.refl s) free]

/-- A state that differs from another in its flights and their count alone. -/
theorem Acts.of_flights {s : State} (hr : (ctxOf s s.cur).run = .ready) (l : List (Flight Regs)) (n : Nat) :
    Acts s { s with nextId := n, flights := l } [] := (Acts.of_looked hr (.refl s)).ctxs rfl rfl

section

variable {s : State} {o : OpA} {kind : TokenKind} {t : Token} {x : BitVec 32}

/-- What a token instruction carries to its slice. -/
def tokenOpOf (s : State) (o : OpA) (kind : TokenKind) (x : BitVec 32) : TokenOp :=
  { kind := kind, va := (rg s s.cur o.a.toNat).toNat % 2 ^ 53, holder := rg s s.cur o.b.toNat, d := o.d.toNat, lsize := 0, commons := false, xfer := x, retried := false }

variable (free : FreeToAct s) (idle : returning s s.cur = false) (own : (rg s s.cur o.a.toNat).toNat / 2 ^ 53 = s.device)
  (seen : tokenSeen s s.cur ((rg s s.cur o.a.toNat).toNat % 2 ^ 53) = some (t, x))
include free idle own seen

theorem tokenInstr_sends (outside : (ctxOf s s.cur).hmode = false) (noSums : sumsOf s (coreOf s.cur) t = false)
    (apart : ∀ f ∈ s.flights, (f.ctx = s.cur ∨ (f.path = 7 ∧ coreOf f.ctx = coreOf s.cur)) → ∀ p ∈ opSpan f.op, regionHas s t p.1 = false) :
    tokenInstr s o kind = .ok (sendToken s s.cur false (tokenOpOf s o kind x) t) := by
  have out : regionOut s s.cur t = false := by
    rw [regionOut, noSums, Bool.false_or, List.any_eq_false]
    intro f hf there
    obtain ⟨mine, some_⟩ := (Bool.and_eq_true _ _).mp there
    obtain ⟨p, hp, inside⟩ := List.any_eq_true.mp some_
    rw [apart f hf (by simpa using mine) p hp] at inside
    exact Bool.false_ne_true inside
  unfold tokenInstr
  simp only [own, ne_eq, not_true_eq_false, if_false, seen, outside, Bool.false_eq_true, tokenGate_ok free idle, ok_bind, noSums, out, tokenOpOf]

theorem tokenInstr_buffers (room : BufferRoom s) (good : tokenBad s (holderWords s s.cur 0) (graphOfCtx s s.cur) (tokenOpOf s o kind x) t = none) :
    tokenInstr s o kind = .ok (wg (buffered s (.slice false (tokenHome s t.base) (.token (tokenOpOf s o kind x)))) s.cur o.d.toNat
      (tokenResult s (tokenOpOf s o kind x) t)) := by
  have good' := good
  unfold tokenOpOf at good'
  unfold tokenInstr
  simp only [own, ne_eq, not_true_eq_false, if_false, seen, room.1, if_true, good', tokenGate_ok free idle, ok_bind, sendBuffer_inside rfl rfl rfl room, tokenOpOf]

end

/-! ### The step at the slice -/

/-- A state that differs from another in its cores alone. -/
abbrev CoresOnly (s v : State) : Prop := v = { s with cores := v.cores }

theorem dropLines_only (s : State) (k : Nat) (o : TokenOp) (t : Token) : CoresOnly s (dropLines s k o t) := by
  have lines (l : List Nat) : ∀ u : State, CoresOnly u (l.foldl (fun u l => setLine u k l none) u) := by
    induction l with
    | nil => exact fun u => rfl
    | cons l r ih =>
      intro u
      rw [List.foldl_cons, CoresOnly, ih]
      rfl
  unfold dropLines dropRegion
  split
  · rw [CoresOnly, modCore, setCore, lines]
  · rfl

section

variable {s v : State} (h : CoresOnly s v)
include h

theorem translateNow_coresOnly (a : Nat) (write : Bool) : translateNow v a write = translateNow s a write :=
  translateNow_congr (by rw [h]) (by rw [h]) (by rw [h]) a write

theorem readMem_coresOnly (a n : Nat) : readMem v a n = readMem s a n := readMem_congr (by rw [h]) n a

theorem recordHolders_coresOnly (g : Nat) : recordHolders v g = recordHolders s g := by
  have word : nodeWord v = nodeWord s :=
    funext fun r => funext fun i => funext fun j => nodeWord_congr (by rw [h]) (by rw [h]) (by rw [h]) r i j
  have steps : stepNumbers v g = stepNumbers s g := by
    have graphs : v.graphs = s.graphs := by rw [h]
    have kind : nodeKind v = nodeKind s := funext fun r => funext fun i => by rw [nodeKind, word, nodeKind]
    have param : nodeParam v = nodeParam s := funext fun r => funext fun i => by rw [nodeParam, word, nodeParam]
    rw [stepNumbers, graphs, kind, param, stepNumbers]
  have area (n : Nat) : slotArea v n = slotArea s n := by
    have regs : v.batchRegs = s.batchRegs := by rw [h]
    simp only [slotArea, regs, translateNow_coresOnly h]
  have device : v.device = s.device := by rw [h]
  have read : readMem v = readMem s := funext fun a => funext fun n => readMem_coresOnly h a n
  have page : translateNow v = translateNow s := funext fun a => funext fun write => translateNow_coresOnly h a write
  have state : recordState v = recordState s := funext fun a => by rw [recordState, read, recordState]
  have areas : slotArea v = slotArea s := funext area
  rw [recordHolders, steps, areas, read, page, state, device, recordHolders]

theorem shareOf_coresOnly (ws : List Word) (g : Option Nat) (t : Token) : shareOf v ws g t = shareOf s ws g t := by
  simp only [shareOf, recordHolders_coresOnly h]

end

/-! What Table 06-5 makes of the entries. -/

section

variable (v : State) (ws : List Word) (g : Option Nat) (k : Nat) (o : TokenOp) (t : Token)

theorem entry_setToken (s : State) (e : Token) : sget none (setToken s e).tokens e.base = some e := by
  simp [setToken]
theorem entry_setToken_ne (s : State) {e : Token} {b : Nat} (h : b ≠ e.base) : sget none (setToken s e).tokens b = sget none s.tokens b := by
  simp [setToken, sget_sput_ne _ _ _ h]
theorem entry_dropToken (s : State) (b : Nat) : sget none (dropToken s b).tokens b = none := by
  simp [dropToken]
theorem entry_dropToken_ne (s : State) {a b : Nat} (h : b ≠ a) : sget none (dropToken s a).tokens b = sget none s.tokens b := by
  simp [dropToken, sget_sput_ne _ _ _ h]

theorem fillHolder_tokens (s : State) : (fillHolder s k t).tokens = s.tokens ∧ (fillHolder s k t).mem = s.mem ∧ (fillHolder s k t).accounts = s.accounts := by
  unfold fillHolder
  split <;> exact ⟨rfl, rfl, rfl⟩

/-- A change of the entry at its base, with the new holder's cached grant on the issuer's core. -/
theorem entryAt_filled (s : State) (same : Bool) (e : Token) :
    sget none (if same then fillHolder (setToken s e) k e else setToken s e).tokens e.base = some e := by
  cases same with
  | false => exact entry_setToken s e
  | true =>
    rw [if_pos rfl, (fillHolder_tokens k e (setToken s e)).1]
    exact entry_setToken s e

theorem entryMem_filled (s : State) (same : Bool) (e : Token) : (if same then fillHolder (setToken s e) k e else setToken s e).mem = s.mem := by
  cases same with
  | false => rfl
  | true => exact (fillHolder_tokens k e (setToken s e)).2.1

theorem applyToken_mem : (applyToken v ws g k o t).mem = v.mem := by
  unfold applyToken
  dsimp only
  split
  case h_1 => exact (entryMem_filled k (uncache v k t.base) _ _).trans (modCore_mem _ _ _)
  case h_2 =>
    split
    · rw [freeRegion, setAccount_mem, dropToken_mem, uncache, modCore_mem]
    · exact (entryMem_filled k (uncache v k t.base) _ _).trans (modCore_mem _ _ _)
  case h_8 => split <;> simp [uncache]
  all_goals simp [uncache]

variable {o t}

theorem applyToken_lend (h : o.kind = .lend) : sget none (applyToken v ws g k o t).tokens t.base =
    some { t with holder := o.holder, lender := t.holder, xfer := t.xfer + 1, wr := t.wr && (sameCore v k o t || stillDirty v t) } := by
  unfold applyToken
  simp only [h]
  refine (entryAt_filled k (uncache v k t.base) _ (withHolder t o.holder t.holder _)).trans ?_
  simp [withHolder]

theorem applyToken_ret (h : o.kind = .ret) (lent : t.lender ≠ 0) : sget none (applyToken v ws g k o t).tokens t.base =
    some { t with holder := t.lender, lender := 0, xfer := t.xfer + 1, wr := t.wr && (sameCore v k o t || stillDirty v t) } := by
  unfold applyToken
  simp only [h, lent, if_false]
  refine (entryAt_filled k (uncache v k t.base) _ (withHolder t t.lender 0 _)).trans ?_
  simp [withHolder]

theorem applyToken_free (h : o.kind = .ret) (own : t.lender = 0) : sget none (applyToken v ws g k o t).tokens t.base = none ∧
    (accountOf (applyToken v ws g k o t) t.acct.toNat).charge = (accountOf v t.acct.toNat).charge - 2 ^ t.lsize := by
  unfold applyToken
  simp only [h, own, if_true]
  refine ⟨entry_dropToken _ _, ?_⟩
  rw [freeRegion, accountOf, setAccount, sget_sput_self]
  rfl

theorem applyToken_park (h : o.kind = .park) : sget none (applyToken v ws g k o t).tokens t.base =
    some { t with holder := o.holder, xfer := t.xfer + 1, wr := t.wr && stillDirty v t } := by
  unfold applyToken
  simp only [h]
  refine (entry_setToken (uncache v k t.base) (withHolder t o.holder t.lender _)).trans ?_
  simp [withHolder]

theorem applyToken_share (h : o.kind = .share) : sget none (applyToken v ws g k o t).tokens t.base =
    some { t with mode := .frozen, records := t.records ++ [o.holder], xfer := t.xfer + 1, wr := t.wr && stillDirty v t } := by
  unfold applyToken
  simp only [h]
  refine (entry_setToken (uncache v k t.base) ({ t with mode := .frozen, records := t.records ++ [o.holder], xfer := t.xfer + 1, wr := t.wr && !!stillDirty v t })).trans ?_
  simp

theorem applyToken_split (h : o.kind = .split) : sget none (applyToken v ws g k o t).tokens (t.base + 2 ^ (t.lsize - 1)) =
      some { t with base := t.base + 2 ^ (t.lsize - 1), lsize := t.lsize - 1, xfer := t.xfer + 1 } ∧
    sget none (applyToken v ws g k o t).tokens t.base = some { t with lsize := t.lsize - 1, xfer := t.xfer + 1 } := by
  have apart : t.base ≠ t.base + 2 ^ (t.lsize - 1) := Nat.ne_of_lt (Nat.lt_add_of_pos_right (Nat.two_pow_pos _))
  unfold applyToken
  simp only [h]
  exact ⟨entry_setToken _ _, (entry_setToken_ne _ apart).trans (entry_setToken _ _)⟩

theorem applyToken_join {b : Token} (h : o.kind = .join) (buddy : buddyOf v t = some b) (apart : b.base ≠ t.base) :
    sget none (applyToken v ws g k o t).tokens (max t.base b.base) = none ∧ sget none (applyToken v ws g k o t).tokens (min t.base b.base) =
      some { t with base := min t.base b.base, lsize := t.lsize + 1, taint := t.taint || b.taint, wr := t.wr || b.wr
                    xfer := (if t.xfer < b.xfer then b.xfer else t.xfer) + 1 } := by
  have cached : buddyOf (uncache v k t.base) t = some b := buddy
  have high : max t.base b.base ≠ min t.base b.base := by omega
  unfold applyToken
  simp only [h, cached]
  refine ⟨(entry_setToken_ne _ high).trans ?_, entry_setToken _ _⟩
  change sget none (dropToken _ _).tokens _ = none
  by_cases first : max t.base b.base = b.base
  · rw [first]
    exact entry_dropToken _ _
  · have second : max t.base b.base = t.base := by omega
    rw [entry_dropToken_ne _ first, second]
    exact entry_dropToken _ _

theorem applyToken_drop {r : Word} (h : o.kind = .drop) (mine : shareOf v ws g t = some r) : sget none (applyToken v ws g k o t).tokens t.base =
    some { t with records := t.records.erase r, xfer := t.xfer + 1, mode := if t.records.erase r = [] ∧ t.opened = false then .exclusive else t.mode } := by
  unfold applyToken
  simp only [h, mine, Option.getD_some, removeFirst_eq_erase]
  refine (entry_setToken (uncache v k t.base) ({ t with records := t.records.erase r, xfer := t.xfer + 1, mode := if ((t.records.erase r).isEmpty && !t.opened) = true then .exclusive else t.mode })).trans ?_
  simp

theorem replaceFirst_at {α : Type} [DecidableEq α] {r : α} {l m : List α} (f : α → α) (first : r ∉ l) :
    replaceFirst (fun x => x = r) f (l ++ r :: m) = l ++ f r :: m := by
  induction l with
  | nil => simp [replaceFirst]
  | cons x l ih =>
    obtain ⟨other, rest⟩ := not_or.mp (List.mem_cons.not.mp first)
    simp [replaceFirst, Ne.symm other, ih rest]

theorem applyToken_parkShare {r : Word} {l m : List Word} (h : o.kind = .parkShare) (mine : shareOf v ws g t = some r) (records : t.records = l ++ r :: m)
    (first : r ∉ l) : sget none (applyToken v ws g k o t).tokens t.base = some { t with records := l ++ o.holder :: m } := by
  unfold applyToken
  simp only [h, mine, Option.getD_some, records, replaceFirst_at _ first]
  exact entry_setToken (uncache v k t.base) { t with records := l ++ o.holder :: m }

end

/-! What the event leaves. -/

theorem wgs_only (c : Nat) (l : List Word) : ∀ (s : State) (r : Nat), wgs s c r l = { s with ctxs := (wgs s c r l).ctxs } := by
  induction l with
  | nil => exact fun _ _ => rfl
  | cons x l ih =>
    intro s r
    rw [wgs, ih, wg_only]

theorem giveWords_only (s : State) (f : Flight Regs) (d : Nat) (l : List Word) :
    giveWords s f d l = { s with ctxs := (giveWords s f d l).ctxs, flights := (giveWords s f d l).flights } := by
  unfold giveWords
  split
  case isTrue => rfl
  case isFalse =>
    dsimp only
    rw [modCtx, setCtx, wgs_only]

section

variable {s : State} {id : Nat} {f : Flight Regs} {o : TokenOp} {t : Token} (here : flightOf s id = some f) (op : f.op = .token o) (acked : f.wb = [])
  (sound : f.fault = none) (due : f.due ≤ s.cycle)

theorem flightOf_id {s : State} {id : Nat} {f : Flight Regs} (here : flightOf s id = some f) : f.id = id := by
  have found := List.find?_some here
  simpa using found

/-- An instruction that the table allows is one whose issuer holds what it needs (R110). -/
theorem tokenNeeded_of_good {ws : List Word} {g : Option Nat} (good : tokenBad s ws g o t = none) : tokenNeeded s ws g o t = true := by
  have allowed : tokenAllowed s ws g o t = true := by
    cases refused : tokenAllowed s ws g o t with
    | true => rfl
    | false =>
      unfold tokenBad at good
      simp only [refused, Bool.not_false, if_true] at good
      split at good <;> cases good
  unfold tokenAllowed at allowed
  unfold tokenNeeded
  cases kind : o.kind <;> simp only [kind, Bool.and_eq_true] at allowed ⊢
  case lend => exact allowed.1
  case ret => exact allowed.1
  case split => exact allowed.1.1
  case join => exact allowed.1.1.1.1
  case share => exact allowed.1.1.1.1
  case drop => exact allowed
  case park => exact allowed.1
  case parkShare => exact allowed

theorem tokenEntry_ready (acked : f.wb = []) (sound : f.fault = none) (due : f.due ≤ s.cycle) :
    (!f.wb.isEmpty || decide (s.cycle < f.due) || f.fault.isSome) = false := by
  rw [acked, sound, decide_eq_false (Nat.not_lt.mpr due)]
  rfl

include here op acked sound due

/-- A claim is made at every slice (R302). -/
theorem tokenEntryChange_claim (kind : o.kind = .claim) : exec (.tokenEntryChange id) s = .next (
    let r := claimCore s o.va (holderAgent (agentOf s f.ctx))
    giveResult (dropFlight (noteClaimed r.1 r.2.2) f.id) f o.d (BitVec.ofNat 64 r.2.1)) := by
  change execTokenEntryChange id s = _
  unfold execTokenEntryChange
  simp only [here, op, tokenEntry_ready acked sound due, Bool.false_eq_true, if_false, kind, if_true]

/-- TKCLEAN takes the taint off the entry. -/
theorem tokenEntryChange_clean (kind : o.kind = .clean) (found : tokenProbe s o.va = some t) : exec (.tokenEntryChange id) s =
    .next (giveResult (dropFlight (setToken s { t with taint := false }) f.id) f 0 0) := by
  have other : ¬ TokenKind.clean = .claim := by decide
  change execTokenEntryChange id s = _
  unfold execTokenEntryChange
  simp only [here, op, tokenEntry_ready acked sound due, Bool.false_eq_true, if_false, kind, if_true, found, other]

/-- Any other instruction that the table allows, at the count that it saw, makes its change. -/
theorem tokenEntryChange_applies (noClaim : o.kind ≠ .claim) (noClean : o.kind ≠ .clean) (found : tokenProbe s o.va = some t) (count : t.xfer = o.xfer)
    (good : tokenBad s (holderWords s f.ctx 0) (graphOfCtx s f.ctx) o t = none) : exec (.tokenEntryChange id) s = .next (
    let u := dropFlight (applyToken (dropLines s (coreOf f.ctx) o t) (holderWords s f.ctx 0) (graphOfCtx s f.ctx) (coreOf f.ctx) o t) f.id
    if f.posted then u else giveResult u f o.d (tokenResult s o t)) := by
  have held := tokenNeeded_of_good good
  change execTokenEntryChange id s = _
  unfold execTokenEntryChange
  simp only [here, op, tokenEntry_ready acked sound due, Bool.false_eq_true, if_false, noClaim, noClean, found, count, ne_eq, not_true_eq_false,
    decide_false, Bool.false_and, held, Bool.not_true, Bool.and_false, good]

end

/-- What the entries and memory are after it. -/
theorem tokenEntry_tables (f : Flight Regs) (o : TokenOp) (x : Word) (v : State) :
    (if f.posted then dropFlight v f.id else giveResult (dropFlight v f.id) f o.d x).tokens = v.tokens ∧
      (if f.posted then dropFlight v f.id else giveResult (dropFlight v f.id) f o.d x).mem = v.mem ∧
      (if f.posted then dropFlight v f.id else giveResult (dropFlight v f.id) f o.d x).accounts = v.accounts := by
  split
  · exact ⟨rfl, rfl, rfl⟩
  · rw [giveResult, giveWords_only]
    exact ⟨rfl, rfl, rfl⟩

/-- One entry of a claim. -/
def claimStep (dead slot : Word → Bool) (me : Word) (a : State × Nat × List (Token × Word)) (e : Nat × Option Token) : State × Nat × List (Token × Word) :=
  match e.2 with
  | none => a
  | some t =>
    let u := claimEntry dead slot me t
    if u = t then a else (setToken a.1 u, a.2.1 + 1, if u.holder = me && t.holder ≠ me then a.2.2 ++ [(u, t.holder)] else a.2.2)

/-- A claim changes entries alone. -/
theorem claimCore_only (s : State) (k : Nat) (me : Word) : (claimCore s k me).1 = { s with tokens := (claimCore s k me).1.tokens } := by
  have step (dead slot : Word → Bool) (l : Store (Option Token)) : ∀ a, (l.foldl (claimStep dead slot me) a).1 =
      { a.1 with tokens := (l.foldl (claimStep dead slot me) a).1.tokens } := by
    induction l with
    | nil => exact fun _ => rfl
    | cons e l ih =>
      intro a
      have one : (claimStep dead slot me a e).1 = { a.1 with tokens := (claimStep dead slot me a e).1.tokens } := by
        unfold claimStep
        split
        · rfl
        · dsimp only
          split <;> rfl
      rw [List.foldl_cons, ih, one]
  exact step _ _ s.tokens (s, 0, [])

/-- After the event the result stands in its register, and the flight is gone. -/
theorem rg_giveResult {v : State} {f : Flight Regs} (d : Nat) (x : Word) (alive : (coreAt v (coreOf f.ctx)).killed = false) :
    rg (giveResult (dropFlight v f.id) f d x) f.ctx d = if d = 0 then 0 else x := by
  have regs : (ctxOf (giveResult (dropFlight v f.id) f d x) f.ctx).regs = (ctxOf (wg (dropFlight v f.id) f.ctx d x) f.ctx).regs := by
    unfold giveResult giveWords
    rw [show coreAt (dropFlight v f.id) (coreOf f.ctx) = coreAt v (coreOf f.ctx) from rfl, alive, if_neg Bool.false_ne_true]
    change (ctxOf (modCtx (wg (dropFlight v f.id) f.ctx d x) f.ctx (fun y => { y with readyAt := max y.readyAt f.back })) f.ctx).regs = _
    rw [ctxOf_modCtx_self]
  rw [← rg_wg_self (dropFlight v f.id) f.ctx d x, rg, rg, regs]

theorem flightOf_map {g : Flight Regs → Flight Regs} (hg : ∀ f, (g f).id = f.id) {l : List (Flight Regs)} {id : Nat} (gone : l.find? (fun f => f.id = id) = none) :
    (l.map g).find? (fun f => f.id = id) = none := by
  rw [List.find?_eq_none] at gone ⊢
  intro x hx
  obtain ⟨y, hy, rfl⟩ := List.mem_map.mp hx
  rw [hg]
  exact gone y hy

theorem flightOf_dropFlight (v : State) (id : Nat) : flightOf (dropFlight v id) id = none := by
  rw [flightOf, List.find?_eq_none]
  intro x hx
  simpa using (List.mem_filter.mp hx).2

theorem flightOf_giveResult (v : State) (f : Flight Regs) (d : Nat) (x : Word) : flightOf (giveResult (dropFlight v f.id) f d x) f.id = none := by
  have gone := flightOf_dropFlight v f.id
  unfold giveResult giveWords
  split
  · exact gone
  · refine flightOf_map (fun h => ?_) ?_
    · split <;> rfl
    · rw [modCtx, setCtx, wgs_only]
      exact gone

/-- The entry that TKCARVE makes (R110). -/
def carvedEntry (s : State) (o : OpA) (base : Nat) : Token :=
  { base := base, lsize := o.md.toNat % 64, mode := if o.md.getLsbD 7 then .commons else .exclusive, holder := holderAgent (agentOf s s.cur), lender := 0,
    opened := false, records := [], xfer := 0, acct := (ctxOf s s.cur).acct, taint := false, wr := false }

/-- The account that it charges. -/
def carvedAccount (s : State) (o : OpA) (pool : List (Nat × Nat)) : Account :=
  { accountOf s (ctxOf s s.cur).acct.toNat with charge := (accountOf s (ctxOf s s.cur).acct.toNat).charge + 2 ^ (o.md.toNat % 64), pool := pool }

/-- What TKCARVE leaves: the charge and the pool of the account, the entry, and its base in g[d]. -/
def carved (s : State) (o : OpA) (base : Nat) (pool : List (Nat × Nat)) : State :=
  wg (notBefore (markCip (setToken (setAccount s (ctxOf s s.cur).acct.toNat (carvedAccount s o pool)) (carvedEntry s o base)) s.cur)
    s.cur (s.cycle + 2 * hop s.cur (tokenHome s base) + 14)) s.cur o.d.toNat (BitVec.ofNat 64 (s.device * 2 ^ 53 + base))

theorem carved_acts {s : State} (hr : (ctxOf s s.cur).run = .ready) (o : OpA) (base : Nat) (pool : List (Nat × Nat)) : Acts s (carved s o base pool) [o.d.toNat] := by
  unfold carved
  refine (((Acts.modCtx (Acts.modCtx ?_ ?_) ?_).mono (List.nil_subset _)).wg _ (List.mem_singleton_self _))
  · exact (Acts.of_looked hr (.refl s)).ctxs rfl rfl
  · exact fun _ => ⟨rfl, rfl, rfl⟩
  · exact fun _ => ⟨rfl, rfl, rfl⟩

theorem carved_mem (s : State) (o : OpA) (base : Nat) (pool : List (Nat × Nat)) : (carved s o base pool).mem = s.mem := by
  rw [carved, wg_mem, notBefore, modCtx_mem, markCip, modCtx_mem, setToken_mem, setAccount_mem]

theorem carved_account (s : State) (o : OpA) (base : Nat) (pool : List (Nat × Nat)) : accountOf (carved s o base pool) (ctxOf s s.cur).acct.toNat = carvedAccount s o pool := by
  rw [carved, wg_only]
  exact sget_sput_self _ _ _ _

theorem carved_entry (s : State) (o : OpA) (base : Nat) (pool : List (Nat × Nat)) :
    sget none (carved s o base pool).tokens base = some (carvedEntry s o base) := by
  rw [carved, wg_only]
  exact entry_setToken _ (carvedEntry s o base)

theorem carved_base (i : Instr) (s : State) (o : OpA) (base : Nat) (pool : List (Nat × Nat)) (npc : Word) :
    rg (retire i (carved s o base pool) npc) s.cur o.d.toNat = if o.d = 0 then 0 else BitVec.ofNat 64 (s.device * 2 ^ 53 + base) := by
  have cur : (notBefore (markCip (setToken (setAccount s (ctxOf s s.cur).acct.toNat (carvedAccount s o pool)) (carvedEntry s o base)) s.cur)
      s.cur (s.cycle + 2 * hop s.cur (tokenHome s base) + 14)).cur = s.cur := by rw [notBefore, modCtx_cur, markCip, modCtx_cur, setToken_cur, setAccount_cur]
  rw [carved]
  exact rg_retire_written i o.d _ npc cur

/-- A block that the quota does not hold (R110). -/
def quotaFault (s : State) (o : OpA) : FaultInfo :=
  let a := accountOf s (ctxOf s s.cur).acct.toNat
  { code := cQuota, reason := 0, detail := quotaDetail (2 ^ (o.md.toNat % 64)) ((a.quota.toNat * 65536 - a.charge) / 65536) }

/-- The home slice of the entry that TKSTAT asks for, or of its address. -/
def statHome (s : State) (va : Nat) : Nat :=
  tokenHome s (match tokenProbe s va with | some e => e.base | none => va)

/-- TKCARVE takes the block from the account's pool and makes its entry at once. -/
theorem execTkcarve_carved {s : State} {o : OpA} {base : Nat} {pool : List (Nat × Nat)} (free : FreeToAct s) (unfenced : fenced s s.cur 1 = false)
    (idle : returning s s.cur = false)
    (quota : (accountOf s (ctxOf s s.cur).acct.toNat).charge + 2 ^ (o.md.toNat % 64) ≤ (accountOf s (ctxOf s s.cur).acct.toNat).quota.toNat * 65536)
    (taken : poolTake (accountOf s (ctxOf s s.cur).acct.toNat).pool (o.md.toNat % 64) = some (base, pool)) (room : s.tokens.length < Config.tokenEntries)
    (hi : Issues (.tkcarve o) s) (begun : beginIssue s = s) : Gives (.tkcarve o) s (fun u => u = retire (.tkcarve o) (carved s o base pool) (nextPc (carved s o base pool))) := by
  refine gives_retire (u := carved s o base pool) hi (rfl : _ = execTkcarve o s) ?_ rfl
  have gate : tokenGateNow s = .ok () := by rw [tokenGateNow, passFence_ok (.refl s) unfenced]; exact tokenGate_ok free idle
  have roomy : tokenRoom s .carve = true := decide_eq_true room
  simp only [begun, Nat.not_lt.mpr quota, if_false, taken, roomy, Bool.not_true, Bool.false_eq_true, gate, ok_bind]
  rfl

/-! The instructions of Table 06-5 on their way. -/

/-- The token instructions of Table 06-5 but TKCARVE, with the kinds of their changes. -/
theorem exec_tokenInstr {o : OpA} {i : Instr} {kind : TokenKind} (hk : (i, kind) ∈ [(Instr.tklend o, TokenKind.lend), (.tkret o, .ret), (.tksplit o, .split),
    (.tkjoin o, .join), (.tkshare o, .share), (.tkdrop o, .drop), (.tkpark o, if o.md.getLsbD 0 then .parkShare else .park)]) (s : State) :
    exec i s = runSeq i s (fun t => tokenInstr t o kind) := by
  simp only [List.mem_cons, Prod.mk.injEq, List.not_mem_nil, or_false] at hk
  obtain ⟨rfl, rfl⟩ | ⟨rfl, rfl⟩ | ⟨rfl, rfl⟩ | ⟨rfl, rfl⟩ | ⟨rfl, rfl⟩ | ⟨rfl, rfl⟩ | ⟨rfl, rfl⟩ := hk <;> rfl

section

variable {i : Instr} {s u : State} {body : State → Res State} (hi : Issues i s) (he : exec i s = runSeq i s body)
include hi he

/-- An instruction that leaves with a flight changes no register and no entry. -/
theorem gives_flight {f : Flight Regs} {n : Nat} (hb : body (beginIssue s) = .ok { s with nextId := n, flights := s.flights ++ [f] }) :
    Gives i s (fun u => Proceeds s u [] ∧ u.tokens = s.tokens ∧ u.flights = s.flights ++ [f]) :=
  gives_retire hi he hb ⟨proceeds_retire (Acts.of_flights hi.1 _ _) rfl, retire_tokens _ _ _, retire_flights _ _ _⟩

/-- One that goes to its slices outside Table 06-5 has no line to write back (R302). -/
theorem gives_plain {home l : Nat} {e : TokenOp} (hb : body (beginIssue s) = .ok (sendPlain s s.cur home l e)) :
    Gives i s (fun u => Proceeds s u [] ∧ u.tokens = s.tokens ∧ ∃ f, u.flights = s.flights ++ [f] ∧ f.ctx = s.cur ∧ f.op = .token e ∧ f.wb = [] ∧
      f.fault = none ∧ f.due = s.cycle + l + 3 + (ctxOf s s.cur).late ∧ f.back = s.cycle + 2 * l + 6 + (ctxOf s s.cur).late) := by
  obtain ⟨u, hu, goes, entries, flights⟩ := gives_flight hi he hb
  exact ⟨u, hu, goes, entries, _, flights, rfl, rfl, rfl, rfl, rfl, rfl⟩

/-- An entry put into the send buffer, with its result in g[d] at once. -/
theorem gives_buffered_result {e : Entry} {d : BitVec 6} {x : Word} (hb : body (beginIssue s) = .ok (wg (buffered s e) s.cur d.toNat x)) :
    Gives i s (fun u => Proceeds s u [d.toNat] ∧ u.tokens = s.tokens ∧ Buffers s u e ∧ rg u s.cur d.toNat = if d = 0 then 0 else x) := by
  refine gives_retire hi he hb ⟨proceeds_retire ?_ ?_, ?_, ?_, rg_retire_written _ _ _ _ rfl⟩
  · exact (((Acts.of_looked hi.1 (.refl s)).buffered _).mono (List.nil_subset _)).wg _ (List.mem_singleton_self _)
  · rw [wg_mem, buffered_mem]
  · rw [retire_tokens, wg_only]
    rfl
  · have kept := retire_sendBuf i (wg (buffered s e) s.cur d.toNat x) (nextPc (wg (buffered s e) s.cur d.toNat x))
    rw [wg_cur, buffered_cur] at kept
    rw [Buffers, kept, wg_ctx, buffered, ctxOf_modCtx_self]

end

/-! A dirty line that is written back. -/

/-- Byte i of a number, lowest first (R2). -/
theorem bytesOf_getElem (n : Nat) : ∀ (x i : Nat) (h : i < (bytesOf x n).length), (bytesOf x n)[i] = BitVec.ofNat 8 (x / 256 ^ i) := by
  induction n with
  | zero => exact fun _ _ h => absurd h (Nat.not_lt_zero _)
  | succ n ih =>
    intro x i h
    cases i with
    | zero => simp [bytesOf]
    | succ i => exact (ih (x / 256) i _).trans (by rw [Nat.div_div_eq_div_mul, ← Nat.pow_succ'])

section

variable {s : State} {k l : Nat} {x : Line} (line : lineOf s k l = some x) (dirty : x.dirty = true) (near : cxlGone s (32 * l) = false)
include line dirty near

/-- The line's bytes are written at its slice. -/
theorem writeBackLine_mem : (writeBackLine s k l).mem = (placeWrite s (32 * l) x.home (bytesOf x.data.toNat 32)).mem := by
  have size : (bytesOf x.data.toNat 32).length = 32 := by simp [bytesOf]
  unfold writeBackLine
  simp only [line, dirty, Bool.not_true, Bool.false_eq_true, if_false, near]
  rw [setLine, modCore_mem, placeWrite, size]
  split <;> rfl

theorem lineOf_writeBackLine : lineOf (writeBackLine s k l) k l = some { x with dirty := false } := by
  unfold writeBackLine
  simp only [line, dirty, Bool.not_true, Bool.false_eq_true, if_false, near]
  rw [setLine, lineOf, coreAt_modCore_self, sget_sput_self]

end

/-- Settles O31: the gates of a token instruction, and the change that its kind makes of the entry. -/
theorem tokenInstructionsAndEntries : Obligations.TokenInstructionsAndEntries := by
  unfold Obligations.TokenInstructionsAndEntries
  refine ⟨?leave, ?carve, ?quota, ?stat, ?claim, ?claims, ?clean, ?cleans, ?changes, ?writeBack⟩
  case leave =>
    intro o s i kind t x hk hi fresh free idle
    dsimp only
    intro own seen
    have begun : beginIssue s = s := beginIssue_eq s fresh
    refine ⟨fun outside noSums apart => ?_, fun room good => ?_⟩
    · have ok := tokenInstr_sends (kind := kind) free idle own seen outside noSums apart
      obtain ⟨u, hu, goes, entries, flights⟩ := gives_flight hi (exec_tokenInstr hk s) (by rw [begun]; exact ok)
      exact ⟨u, hu, goes, entries, _, flights, rfl, rfl, rfl, rfl⟩
    · exact gives_buffered_result hi (exec_tokenInstr hk s) (by rw [begun]; exact tokenInstr_buffers free idle own seen room good)
  case carve =>
    intro o s base pool hi free fresh unfenced idle
    dsimp only
    intro quota taken room
    obtain ⟨u, he, rfl⟩ := execTkcarve_carved free unfenced idle quota taken room hi (beginIssue_eq s fresh)
    have goes := proceeds_retire (i := .tkcarve o) (carved_acts hi.1 o base pool) (carved_mem s o base pool)
    refine ⟨_, he, goes, ?_, ?_, ?_⟩
    · exact carved_base _ s o base pool _
    · rw [accountOf, retire_accounts]
      exact carved_account s o base pool
    · rw [retire_tokens]
      exact carved_entry s o base pool
  case quota =>
    intro o s hi finished
    dsimp only
    intro exceeded
    have takes : execTkcarve o s = .next (takeTrap (countIssue (.tkcarve o) (beginIssue s)) s.cur (quotaFault s o)) := by
      refine runSeq_takes hi (beginIssue_cur s) finished ?_
      have same : accountOf (beginIssue s) (ctxOf (beginIssue s) s.cur).acct.toNat = accountOf s (ctxOf s s.cur).acct.toNat := by
        rw [(beginIssue_looked s).ctx, accountOf, beginIssue_only]
        rfl
      simp only [beginIssue_cur, same, exceeded, if_true]
      rfl
    exact ⟨_, takes, rfl, rfl⟩
  case stat =>
    intro o s hi idle own
    have here : returning (beginIssue s) s.cur = false := by rw [returning, beginIssue_flights]; exact idle
    have ok := gives_sends hi (rfl : _ = execTkstat o s) (beginIssue_looked s) (path := 1) (ordered := false) (posted := false) (ea := 0) (near := false)
      (op := .stat ((rg s s.cur o.a.toNat).toNat % 2 ^ 53) o.d.toNat) (extra := 2) (home := statHome (beginIssue s) ((rg s s.cur o.a.toNat).toNat % 2 ^ 53)) rfl ?_
    · obtain ⟨u, hu, goes, f, flights, -, ctx, -, -, -, -, op, -⟩ := ok
      exact ⟨u, hu, goes, f, flights, ctx, op⟩
    · simp only [beginIssue_cur, rg_beginIssue, here, Bool.false_eq_true, if_false, beginIssue_device, own, ne_eq, not_true_eq_false]
      rfl
  case claim =>
    intro o s hi free fresh idle
    dsimp only
    intro small own there dead
    have begun : beginIssue s = s := beginIssue_eq s fresh
    have ok : Gives (.tkclaim o) s _ := gives_plain hi (rfl : _ = execTkclaim o s) (home := blockSlice s.cur) (l := farCorner (vertOf s.cur))
      (e := { kind := .claim, va := coreOf (agentLocal (rg s s.cur o.a.toNat).toNat), holder := 0, d := o.d.toNat, lsize := 0, commons := false, xfer := 0, retried := false }) ?_
    · obtain ⟨u, hu, goes, entries, f, flights, own, op, back, sound, due, returns⟩ := ok
      exact ⟨u, hu, goes, entries, f, _, flights, own, op, rfl, rfl, rfl, back, sound, due, returns⟩
    rw [begun]
    have here : agentDevice (rg s s.cur o.a.toNat).toNat = s.device := own
    have core : coreOf (agentLocal (rg s s.cur o.a.toNat).toNat) = (rg s s.cur o.a.toNat).toNat % 65536 / 8 := rfl
    have gate := tokenGate_ok free idle
    simp only [Nat.not_le.mpr small, here, core, there, dead, decide_false, ne_eq, not_true_eq_false, Bool.not_true, Bool.or_self, Bool.false_eq_true, if_false, gate, ok_bind]
  case claims =>
    intro s id f o here op kind acked sound due alive
    dsimp only
    refine ⟨_, tokenEntryChange_claim here op acked sound due kind, ?_, ?_, ?_, ?_⟩
    · intro a
      refine memByte_congr ?_ a
      dsimp only
      rw [giveResult, giveWords_only]
      exact (congrArg State.mem (claimCore_only s o.va (holderAgent (agentOf s f.ctx)))).trans rfl
    · dsimp only
      rw [giveResult, giveWords_only]
      rfl
    · rw [← flightOf_id here]
      exact flightOf_giveResult _ f _ _
    · refine rg_giveResult o.d _ ?_
      rw [coreAt, noteClaimed, claimCore_only]
      exact alive
  case clean =>
    intro o s t x hi free fresh idle own seen
    have begun : beginIssue s = s := beginIssue_eq s fresh
    have ok : Gives (.tkclean o) s _ := gives_plain hi (rfl : _ = execTkclean o s) (home := tokenHome s t.base) (l := hop s.cur (tokenHome s t.base))
      (e := { kind := .clean, va := (rg s s.cur o.a.toNat).toNat % 2 ^ 53, holder := 0, d := 0, lsize := 0, commons := false, xfer := x, retried := false }) ?_
    · obtain ⟨u, hu, goes, entries, f, flights, own, op, back, sound, -, -⟩ := ok
      exact ⟨u, hu, goes, entries, f, _, flights, own, op, rfl, rfl, back, sound⟩
    rw [begun]
    have gate := tokenGate_ok free idle
    simp only [own, ne_eq, not_true_eq_false, if_false, seen, gate, ok_bind]
  case cleans =>
    intro s id f o t here op kind acked sound due found
    refine ⟨_, tokenEntryChange_clean here op acked sound due kind found, ?_, ?_, ?_⟩
    · intro a
      refine memByte_congr ?_ a
      rw [giveResult, giveWords_only]
      rfl
    · rw [← flightOf_id here]
      exact flightOf_giveResult _ f _ _
    · rw [giveResult, giveWords_only]
      exact entry_setToken s { t with taint := false }
  case changes =>
    intro s id f o t here op acked sound due found count good
    dsimp only
    have only := dropLines_only s (coreOf f.ctx) o t
    have buddy : buddyOf (dropLines s (coreOf f.ctx) o t) t = buddyOf s t := by rw [only]; rfl
    have share := shareOf_coresOnly only (holderWords s f.ctx 0) (graphOfCtx s f.ctx) t
    have charge (a : Nat) : accountOf (dropLines s (coreOf f.ctx) o t) a = accountOf s a := by rw [only]; rfl
    have memory : (dropLines s (coreOf f.ctx) o t).mem = s.mem := by rw [only]
    by_cases claim : o.kind = .claim
    · refine ⟨_, tokenEntryChange_claim here op acked sound due claim, ?_, ?_⟩
      · intro a
        refine memByte_congr ?_ a
        dsimp only
        rw [giveResult, giveWords_only]
        exact (congrArg State.mem (claimCore_only s o.va (holderAgent (agentOf s f.ctx)))).trans rfl
      · simp only [claim, reduceCtorEq, false_implies, implies_true, and_self]
    by_cases clean : o.kind = .clean
    · refine ⟨_, tokenEntryChange_clean here op acked sound due clean found, ?_, ?_⟩
      · intro a
        refine memByte_congr ?_ a
        rw [giveResult, giveWords_only]
        rfl
      · simp only [clean, reduceCtorEq, false_implies, implies_true, and_self]
    obtain ⟨entries, mem, accounts⟩ := tokenEntry_tables f o (tokenResult s o t)
      (applyToken (dropLines s (coreOf f.ctx) o t) (holderWords s f.ctx 0) (graphOfCtx s f.ctx) (coreOf f.ctx) o t)
    refine ⟨_, tokenEntryChange_applies here op acked sound due claim clean found count good, ?_⟩
    dsimp only
    refine ⟨fun a => memByte_congr (mem.trans ((applyToken_mem _ _ _ _ _ _).trans memory)) a, ?_⟩
    rw [entries]
    refine ⟨applyToken_lend _ _ _ _, applyToken_ret _ _ _ _, fun ret own => ?_, applyToken_park _ _ _ _, applyToken_share _ _ _ _,
      applyToken_split _ _ _ _, fun b join found apart => applyToken_join _ _ _ _ join (buddy.trans found) apart,
      fun r mine => ⟨fun drop => applyToken_drop _ _ _ _ drop (share.trans mine),
        fun l m park records first => applyToken_parkShare _ _ _ _ park (share.trans mine) records first⟩⟩
    obtain ⟨gone, freed⟩ := applyToken_free (dropLines s (coreOf f.ctx) o t) (holderWords s f.ctx 0) (graphOfCtx s f.ctx) (coreOf f.ctx) ret own
    refine ⟨gone, ?_⟩
    rw [accountOf, accounts, ← charge]
    exact freed
  case writeBack =>
    intro s id l r f x here pending line dirty near
    refine ⟨setFlight (writeBackLine s (coreOf f.ctx) l) { f with wb := r }, ?_, fun i hi => ?_, fun a ha => ?_, ?_⟩
    · change execWriteBackAck id s = _
      unfold execWriteBackAck
      simp only [here, pending]
    · refine (memByte_congr (writeBackLine_mem line dirty near) _).trans ?_
      rw [memByte_placeWrite_inside _ near (by simpa using hi), bytesOf_getElem, BitVec.extractLsb', Nat.shiftRight_eq_div_pow, Nat.pow_mul]
    · refine (memByte_congr (writeBackLine_mem line dirty near) _).trans (memByte_placeWrite_outside s x.home ?_)
      rw [bytesOf_length]
      omega
    · exact ⟨{ x with dirty := false }, lineOf_writeBackLine line dirty near, rfl⟩

end Sys2Proof.Machine
end

