-- ==== Sys2Proof/Proofs/ConcreteEvents.lean ====
section
/-! SUPPORT. Refutations by a state that the model runs: events, and what they write to memory. -/

namespace Sys2Proof.Machine

/-! ### A page table in memory -/

/-- A state with bytes at some addresses of its memory. -/
def storing (s : State) (l : List (Nat × Nat)) : State := l.foldl (fun t e => writeMem t e.1 (bytesOf e.2 8)) s

/-- The root table at 0x1000 leads to one at 0x2000, whose first leaf maps the first 2^30 addresses to the same places, readable and
writable. -/
def firstPages : State := storing { State.reset with root := 0x1000 } [(0x1000, 0x8000000000002000), (0x2000, 0xBC00000000000000)]

/-! ### A stopped member of a lattice barrier -/

/-- MGANG g1, g0, g0, g0. -/
def mgang1 : OpE := { s := 0, d := 1, a := 0, b := 0, c := 0, imm := 0 }

/-- The words of an arrival with the job words zero. -/
def zeroArrival (c : Nat) : Nat × List Word := (c, [0, 0, 0, 0, 0, 0])

/-- Context 0 is the eighth at the barrier; the other seven arrivals are of context 8, which was stopped at its MGANG at address 0. -/
def stoppedAtBarrier : State := { storing firstPages [(0, ((encode (.mgang mgang1)).getD 0).toNat)] with
  ctxs := [(0, { insideGroup with gang := some 0, pc := 0x100 }), (8, { Ctx.reset with run := .stopped, gang := some 0 })]
  gangs := [(0, some gangOfOne)]
  clusters := [(0, { Cluster.reset with nextJid := 7, arrivals := List.replicate 7 (zeroArrival 8) })] }

/-- Refutes O39: the member that was stopped at its MGANG gets the id of the job in its g1, though it is another context (R320). -/
theorem not_latticeBarrier : ¬ Obligations.LatticeBarrier := by
  unfold Obligations.LatticeBarrier
  rintro ⟨-, -, eighth⟩
  have issues : Issues (.mgang mgang1) stoppedAtBarrier := by decide +kernel
  have settled : returning stoppedAtBarrier stoppedAtBarrier.cur = false := by decide +kernel
  have arrivals : (arrivalsOf stoppedAtBarrier (vertOf stoppedAtBarrier.cur) 0).length = 7 ∧
      ∀ e ∈ arrivalsOf stoppedAtBarrier (vertOf stoppedAtBarrier.cur) 0, e.1 ≠ stoppedAtBarrier.cur ∧ e.2.take 3 = [0, 0, 0] := by decide +kernel
  have words : jobOk stoppedAtBarrier (vertOf stoppedAtBarrier.cur) 0 0 0 = true := by decide +kernel
  obtain ⟨t, next, ⟨-, frame⟩, -⟩ :=
    (eighth mgang1 stoppedAtBarrier 0 gangOfOne issues rfl rfl rfl rfl settled rfl arrivals.1 arrivals.2 words).1 rfl
  have kept : rg t 8 1 = rg stoppedAtBarrier 8 1 := (frame.others 8 (by decide +kernel) (by decide +kernel)).1 1
  refine Gives.passes (P := fun t => rg t 8 1 = rg stoppedAtBarrier 8 1) (f := fun t => rg t 8 1 = rg stoppedAtBarrier 8 1)
    ⟨t, next, kept⟩ (fun _ ht => decide_eq_true ht) ?_
  decide +kernel

/-! ### A port of expansion memory that is down -/

/-- A request record at the first address of expansion memory, running, whose port is down. -/
def recordBehindPort : State := { storing State.reset [(Config.cxlBase, 2)] with cxlDown := [0] }

/-- Refutes O45: no token is written into a record behind a port that is down (R388). -/
theorem not_requestsAndGraphLaunch : ¬ Obligations.RequestsAndGraphLaunch := by
  unfold Obligations.RequestsAndGraphLaunch
  rintro ⟨-, -, -, notes, -⟩
  obtain ⟨-, -, -, writes⟩ := notes recordBehindPort Config.cxlBase 1 0
  obtain ⟨-, -, token, -⟩ := writes (by decide +kernel) (by decide +kernel) (by decide +kernel) (by decide)
  revert token
  decide +kernel

/-! ### A request whose memory is poisoned -/

/-- The region of 64 KiB at 0x10000 belongs to the request whose record stands at 0x4000 (R110). -/
def regionOfRequest : Token := { base := 0x10000, lsize := 16, mode := .exclusive, holder := 0x8000000000004000, lender := 0, opened := false, records := [], xfer := 0, acct := 0, taint := false, wr := false }

/-- A CSET of the cell at 0x10000, whose block lies behind the port that is down. -/
def csetBehindPort : Flight Regs := { id := 0, ctx := 0, group := 0, path := 1, ordered := true, posted := true, slice := 0, cls := 0, ea := 0, op := .cset 0x2000000000010000 Config.cxlBase 0 0, wb := [], done := false, pc := 0, undo := none, due := 0, back := 0, fault := none, net := none }

/-- That access is at its slice, and the request runs. -/
def requestRuns : State := { storing firstPages [(0x4000, 2)] with tokens := [(0x10000, some regionOfRequest)], flights := [csetBehindPort], cxlDown := [0] }

/-- Refutes O47: the refusal of a CSET with POISON writes the fault into the record of the request that holds the region. -/
theorem not_cellsAtSlices : ¬ Obligations.CellsAtSlices := by
  unfold Obligations.CellsAtSlices
  rintro ⟨-, -, refused, -⟩
  have may : mayPerform requestRuns csetBehindPort = true := by decide +kernel
  have barred : netBarred requestRuns (refAddr 0x2000000000010000) Config.cxlBase ≠ none := by decide +kernel
  refine (refused requestRuns 0 Config.cxlBase 0 0x2000000000010000 0 csetBehindPort rfl may rfl (.inl barred)).passes
    (f := fun t => memByte t 0x4000 = memByte requestRuns 0x4000) (fun t ht => decide_eq_true (ht.1 0x4000)) ?_
  decide +kernel

/-! ### A result with the number of its last contribution -/

/-- A reduction group of one member. -/
def groupOfOne : GroupEntry := { GroupEntry.reset with state := 1, fmt := 4, inflight := 1, members := [0] }

/-- The contribution of that member, whose number is the next one to be given. -/
def lastContribution : Flight Regs := { csetBehindPort with op := .contribute 0 0 5 }

/-- That contribution is at the slice of its group. -/
def roundEnds : State := { State.reset with flights := [lastContribution], groups := [(0, groupOfOne)] }

/-- Refutes O44: in a state whose next number is that of the last contribution, ending the contribution takes the result packet with it. -/
theorem not_groups : ¬ Obligations.Groups := by
  unfold Obligations.Groups
  rintro ⟨-, -, -, -, -, -, -, -, -, -, ends, -⟩
  have may : mayPerform roundEnds lastContribution = true := by decide +kernel
  refine (ends roundEnds 0 0 0 5 lastContribution rfl rfl may rfl rfl).passes
    (f := fun t => t.flights.any (fun h => match h.op with | .result .. => true | _ => false)) (fun t ht => ?_) ?_
  · obtain ⟨-, -, h, out, -, pa, op⟩ := ht
    exact List.any_eq_true.mpr ⟨h, out, by rw [op]⟩
  · decide +kernel

/-! ### A gang that lost a member -/

/-- A lost gang whose only cluster has arrived at its mesh barrier. -/
def lostGang : Gang := { gangOfOne with members := [], arrived := [0], lost := true }

/-- Refutes O55: the mesh barrier of a lost gang stays as it is. -/
theorem not_gangs : ¬ Obligations.Gangs := by
  unfold Obligations.Gangs
  rintro ⟨-, -, -, -, -, -, -, barrier⟩
  have times : ∀ v ∈ lostGang.clusters, lostGang.arrivedAt + 2 * latency (lostGang.clusters.headD 0) v + 6 ≤ 100 := by decide
  refine (barrier { State.reset with cycle := 100, gangs := [(0, some lostGang)] } 0 lostGang rfl (by decide) (by decide) times (by decide)).passes
    (f := fun t => (gangAt t 0).map (·.arrived) = some []) (fun t ht => decide_eq_true (by rw [ht.2.1]; rfl)) ?_
  decide +kernel

/-! ### The last idle context of a core -/

/-- Context 0 alone is idle at core 0, whose next victim is 5. -/
def lastIdle : State := { State.reset with
  ctxs := (List.range 7).map (fun i => (i + 1, { Ctx.reset with run := .reserved }))
  cores := [(0, { Core.reset with victim := 5 })] }

/-- Refutes O57: reserving the last idle context of a core also ends its search for work, with the victim back at the first. -/
theorem not_services : ¬ Obligations.Services := by
  unfold Obligations.Services
  rintro ⟨-, -, -, -, -, -, -, reserves, -⟩
  have reserved := (reserves lastIdle 0 (by decide +kernel) rfl rfl).1 rfl
  refine Gives.passes (P := fun t => (coreAt t 0).victim = 5) (f := fun t => (coreAt t 0).victim = 5) ⟨_, reserved, rfl⟩
    (fun _ ht => decide_eq_true ht) ?_
  decide +kernel

end Sys2Proof.Machine
end

