-- ==== Sys2Proof/Proofs/Predicates.lean ====
section
/-! SUPPORT. O35: VCMP on integers, the predicate instructions, and q ports that are empty, full or lost. -/

namespace Sys2Proof.Machine

/-! ### Predicates -/

theorem wp_ctx (s : State) (c r : Nat) (x : BitVec 32) : ∀ e, ctxOf (wp s c r x) e =
    { ctxOf s e with regs := { (ctxOf s e).regs with p := (ctxOf (wp s c r x) e).regs.p } } := by
  intro e
  unfold wp
  split
  · rfl
  · rw [ctxOf_modCtx]
    split
    case isTrue same => rw [same]
    case isFalse => rfl

theorem rp_wp_ne (s : State) (c : Nat) {d r : Nat} (x : BitVec 32) (h : r ≠ d) : rp (wp s c d x) c r = rp s c r := by
  unfold rp wp
  split
  · rfl
  · split
    · rfl
    · rw [ctxOf_modCtx_self, sget_sput_ne _ _ _ h]

theorem ctxOf_wp_ne (s : State) {c e : Nat} (d : Nat) (x : BitVec 32) (h : e ≠ c) : ctxOf (wp s c d x) e = ctxOf s e := by
  unfold wp
  split
  · rfl
  · exact ctxOf_modCtx_ne _ _ h

theorem coreAt_wp (s : State) (c d : Nat) (x : BitVec 32) (k : Nat) : coreAt (wp s c d x) k = coreAt s k := by
  unfold wp
  split
  · rfl
  · exact coreAt_modCtx _ _ _ _

/-- An instruction that writes one predicate register goes on, and changes no other register. -/
theorem writesPredicate_retire {i : Instr} {s u : State} (h : Acts s u []) (mem : u.mem = s.mem) (d : BitVec 6) (x : BitVec 32) :
    pcOf (retire i (wp u s.cur d.toNat x) (nextPc u)) = pcOf s + 8 ∧ RegFrame s (retire i (wp u s.cur d.toNat x) (nextPc u)) [] [d.toNat] ∧
      rp (retire i (wp u s.cur d.toNat x) (nextPc u)) s.cur d.toNat = if d = 0 then BitVec.allOnes 32 else x := by
  have cur : (wp u s.cur d.toNat x).cur = s.cur := (wp_cur _ _ _ _).trans h.cur
  refine ⟨?_, regFrame_retire cur ((wp_mem _ _ _ _).trans mem) ?_ ?_ ?_, ?_⟩
  · have pc := retire_pc i (wp u s.cur d.toNat x) (nextPc u) (by rw [cur, wp_ctx, h.run])
    rw [pcOf, retire_cur, pc, nextPc, pcOf, h.cur, h.pc, pcOf]
  · intro r _
    rw [rg_wp, h.g r (List.not_mem_nil)]
  · intro r other
    rw [rp_wp_ne _ _ _ (fun same => other (by rw [same]; exact List.mem_singleton_self _)), h.p r]
  · intro e he
    obtain ⟨g, p⟩ := h.others e he
    exact ⟨fun r => by rw [← g r, rg, rg, ctxOf_wp_ne _ _ _ he], fun r => by rw [← p r, rp, rp, ctxOf_wp_ne _ _ _ he]⟩
  · have read := rp_retire i (wp u s.cur d.toNat x) (nextPc u) d.toNat
    rw [cur] at read
    rw [read, rp_wp_self]
    by_cases zero : d = 0
    · rw [if_pos zero, zero]
      rfl
    · have nonzero : d.toNat ≠ 0 := fun h => zero (BitVec.eq_of_toNat_eq h)
      rw [if_neg zero, if_neg nonzero]

/-- The instructions on predicates alone (R279). -/
theorem gives_predicate {i : Instr} {s : State} {d : BitVec 6} {f : State → BitVec 32} (hi : Issues i s)
    (he : exec i s = runPure i s (fun t => wp t t.cur d.toNat (f t))) {x : BitVec 32} (hf : f (beginIssue s) = x) :
    Gives i s (fun t => pcOf t = pcOf s + 8 ∧ RegFrame s t [] [d.toNat] ∧ rp t s.cur d.toNat = if d = 0 then BitVec.allOnes 32 else x) := by
  refine ⟨_, he.trans (runPure_eq hi.2), ?_⟩
  rw [beginIssue_cur, hf]
  exact writesPredicate_retire (.of_looked hi.1 (beginIssue_looked s)) (beginIssue_mem s) d x

theorem exec_pand (o : OpV) (s : State) : exec (.pand o) s = runPure (.pand o) s (fun t => wp t t.cur o.d.toNat (rp t t.cur o.a.toNat &&& rp t t.cur o.b.toNat)) := rfl
theorem exec_por (o : OpV) (s : State) : exec (.por o) s = runPure (.por o) s (fun t => wp t t.cur o.d.toNat (rp t t.cur o.a.toNat ||| rp t t.cur o.b.toNat)) := rfl
theorem exec_pnot (o : OpV) (s : State) : exec (.pnot o) s = runPure (.pnot o) s (fun t => wp t t.cur o.d.toNat (~~~ (rp t t.cur o.a.toNat))) := rfl

/-- PMOV from a predicate or from a general register (Table 17-5). -/
theorem exec_pmov_in {o : OpV} (low : o.limm.toNat ≤ 1) (s : State) : exec (.pmov o) s = runPure (.pmov o) s (fun t =>
    wp t t.cur o.d.toNat (if o.limm = 0 then rp t t.cur o.a.toNat else (rg t t.cur o.a.toNat).setWidth 32)) := by
  change execPmov o s = _
  unfold execPmov
  by_cases zero : o.limm = 0
  · simp only [zero, if_true]
  · have one : o.limm = 1 := by bv_omega
    simp only [one, if_true]
    rfl

theorem exec_pmov_out {o : OpV} (two : o.limm.toNat = 2) (s : State) :
    exec (.pmov o) s = runPure (.pmov o) s (fun t => wg t t.cur o.d.toNat ((rp t t.cur o.a.toNat).setWidth 64)) := by
  have two : o.limm = 2 := by bv_omega
  change execPmov o s = _
  unfold execPmov
  simp only [two]
  rfl

/-! ### VCMP -/

theorem testBit_packList_one (l : List Bool) : ∀ j, (packList 1 (l.map Bool.toNat)).testBit j = l.getD j false := by
  induction l with
  | nil => intro j; simp [packList]
  | cons b l ih =>
    intro j
    have low : b.toNat % 2 ^ 1 = b.toNat := by cases b <;> rfl
    rw [List.map_cons, packList, low]
    cases j with
    | zero => cases b <;> simp [Nat.testBit_zero, Nat.add_mod]
    | succ j =>
      rw [Nat.testBit_succ, show (b.toNat + 2 ^ 1 * packList 1 (l.map Bool.toNat)) / 2 = packList 1 (l.map Bool.toNat) by cases b <;> simp <;> omega, ih]
      rfl

/-- The lanes of an integer format have the bits of its elements. -/
theorem intVal_eq_laneValue {f : Nat} (lanes : f = 2 ∨ f = 3 ∨ f = 4 ∨ f = 5) (x : Nat) : intVal f x = laneValue f x := by
  obtain rfl | rfl | rfl | rfl := lanes <;> simp [intVal, laneValue, signedN, fmtBits, laneBits, laneCount, BitVec.toInt_eq_toNat_cond] <;> omega

/-- The two source slots of an instruction that they serve. -/
theorem readSlots_two {s u : State} {o : OpV} (looked : Looked s u) (served : SourcesServed s [o.a, o.b]) :
    ∃ v, readSlots u o 2 = (slotA s o, slotB s o, 0, v) ∧ Takes u v [o.a, o.b] := by
  have room (r : BitVec 6) (mem : r ∈ [o.a, o.b]) (port : 48 ≤ r.toNat) : [o.a, o.b].count r ≤ (qInOf u (coreOf u.cur) (r.toNat - 48)).length := by
    rw [looked.cur, qInOf_looked looked]
    exact (served.1 r mem port).2
  obtain ⟨v, readA, takesA⟩ := (Takes.nil u).readSlot o.a (fun port => by
    have enough := room o.a (by simp) port
    rw [List.count_cons_self] at enough
    rw [List.count_nil]
    omega)
  obtain ⟨w, readB, takesB⟩ := takesA.readSlot o.b (fun port => by
    have enough := room o.b (by simp) port
    rw [List.count_cons, List.count_cons_self, List.count_nil] at enough
    rw [List.nil_append, List.count_cons, List.count_nil]
    omega)
  refine ⟨w, ?_, takesB⟩
  rw [readSlots, if_pos (by decide), readA]
  dsimp only
  rw [if_pos (by decide), readB, slotValue_looked looked, slotValue_looked looked]
  rfl

/-- The comparison that VCMP makes of two integers (Table 17-2). -/
def intCond (cond : Nat) (x y : Int) : Bool :=
  match cond with
  | 0 => decide (x = y) | 1 => decide (x ≠ y) | 2 => decide (x < y)
  | 3 => decide (x ≥ y) | 4 => decide (x ≤ y) | _ => decide (x > y)

theorem laneCond_int {f : Nat} (int : isFloatFmt f = false) (lanes : isLaneFmt f = true) (cond x y : Nat) :
    laneCond f cond x y = (intCond cond (laneValue f x) (laneValue f y), 0) := by
  have format : f = 2 ∨ f = 3 ∨ f = 4 ∨ f = 5 := by
    simp [isFloatFmt, isLaneFmt] at int lanes
    omega
  rw [laneCond, int, if_neg Bool.false_ne_true, intVal_eq_laneValue format, intVal_eq_laneValue format]
  rfl

/-- The predicate bits of VCMP on integers. -/
def vcmpBits (s : State) (o : OpV) : List Bool :=
  (List.range (laneCount o.fmt.toNat)).map (fun j => (rp s s.cur o.pred.toNat).getLsbD j &&
    intCond o.limm.toNat (laneValue o.fmt.toNat (lane (slotA s o) (laneBits o.fmt.toNat) j)) (laneValue o.fmt.toNat (lane (slotB s o) (laneBits o.fmt.toNat) j)))

theorem vcmpBits_getLsbD (s : State) (o : OpV) {j : Nat} (hj : j < 32) :
    (BitVec.ofNat 32 (packList 1 ((vcmpBits s o).map Bool.toNat))).getLsbD j = (decide (j < laneCount o.fmt.toNat) && (rp s s.cur o.pred.toNat).getLsbD j &&
      intCond o.limm.toNat (laneValue o.fmt.toNat (lane (slotA s o) (laneBits o.fmt.toNat) j)) (laneValue o.fmt.toNat (lane (slotB s o) (laneBits o.fmt.toNat) j))) := by
  rw [BitVec.getLsbD_ofNat, decide_eq_true hj, Bool.true_and, testBit_packList_one, vcmpBits, List.getD_eq_getElem?_getD, List.getElem?_map]
  by_cases lane_ : j < laneCount o.fmt.toNat
  · rw [List.getElem?_range lane_, decide_eq_true lane_]
    rfl
  · rw [List.getElem?_eq_none (by simpa using lane_), decide_eq_false lane_]
    rfl

theorem foldl_or_zero (l : List (Bool × Flags)) (h : ∀ e ∈ l, e.2 = 0) : l.foldl (fun acc e => acc ||| e.2) (0 : Flags) = 0 := by
  induction l with
  | nil => rfl
  | cons e l ih =>
    rw [List.foldl_cons, h e (List.mem_cons_self ..)]
    exact ih (fun x hx => h x (List.mem_cons_of_mem _ hx))

/-- VCMP on integers takes its slots, raises no flag and writes its bits. -/
theorem vcmp_body {s v : State} {o : OpV} (int : isFloatFmt o.fmt.toNat = false) (lanes : isLaneFmt o.fmt.toNat = true)
    (served : SourcesServed s [o.a, o.b]) (read : readSlots s o 2 = (slotA s o, slotB s o, 0, v)) (pops : PopsOnly s v) (fresh : beginIssue s = s)
    (hi : Issues (.vcmp o) s) : exec (.vcmp o) s =
    .next (retire (.vcmp o) (wp v s.cur o.d.toNat (BitVec.ofNat 32 (packList 1 ((vcmpBits s o).map Bool.toNat)))) (nextPc v)) := by
  have each (j : Nat) : (if predOn v o j then laneCond o.fmt.toNat o.limm.toNat (lane (slotA s o) (laneBits o.fmt.toNat) j)
      (lane (slotB s o) (laneBits o.fmt.toNat) j) else (false, 0)) = ((rp s s.cur o.pred.toNat).getLsbD j &&
    intCond o.limm.toNat (laneValue o.fmt.toNat (lane (slotA s o) (laneBits o.fmt.toNat) j)) (laneValue o.fmt.toNat (lane (slotB s o) (laneBits o.fmt.toNat) j)), 0) := by
    have on : predOn v o j = (rp s s.cur o.pred.toNat).getLsbD j := by rw [predOn, pops.cur, rp, pops.regs, ← rp]; rfl
    rw [on, laneCond_int int lanes]
    split
    case isTrue set => rw [set, Bool.true_and]
    case isFalse clear => rw [Bool.eq_false_iff.mpr clear, Bool.false_and]
  have ok : (match portsServe (beginIssue s) [o.a, o.b] none with
      | .error e => .error e
      | .ok () =>
        let (a, b, _, t) := readSlots (beginIssue s) o 2
        let r := (List.range (laneCount o.fmt.toNat)).map (fun i => if predOn t o i then laneCond o.fmt.toNat o.limm.toNat (lane a (laneBits o.fmt.toNat) i)
          (lane b (laneBits o.fmt.toNat) i) else (false, 0))
        .ok (raiseFlags (wp t t.cur o.d.toNat (BitVec.ofNat 32 (packList 1 (r.map (fun e => e.1.toNat))))) t.cur (r.foldl (fun acc e => acc ||| e.2) 0)) : Res State) =
      .ok (wp v s.cur o.d.toNat (BitVec.ofNat 32 (packList 1 ((vcmpBits s o).map Bool.toNat)))) := by
    rw [fresh, portsServe_sources (.refl s) served, read]
    dsimp only
    rw [foldl_or_zero _ (fun e he => by
      obtain ⟨j, -, rfl⟩ := List.mem_map.mp he
      rw [each]), raiseFlags, if_pos rfl, pops.cur, vcmpBits]
    simp only [each, List.map_map]
    rfl
  have next : nextPc (wp v s.cur o.d.toNat (BitVec.ofNat 32 (packList 1 ((vcmpBits s o).map Bool.toNat)))) = nextPc v := by
    rw [nextPc, nextPc, pcOf, pcOf, wp_cur, wp_ctx]
  rw [show exec (.vcmp o) s = execVcmp o s from rfl, execVcmp]
  exact (runSeq_ok hi.2 ok).trans (by rw [next])

/-! ### Ports that are empty or full -/

section

variable {s : State} {o : OpV} (low : o.limm.toNat < 2048)
include low

theorem exec_vmov_lanes : exec (.vmov o) s = runSeq (.vmov o) s (fun t => laneOp t o 1 (fun _ a _ _ i => (lane a (laneBits o.fmt.toNat) i, 0))) := by
  change execVmov o s = _
  unfold execVmov
  simp only [Nat.not_le.mpr low, if_false]

end

theorem laneOp_error {t : State} {o : OpV} {n : Nat} {e : Stop} (f : State → Vec → Vec → Vec → Nat → Nat × Flags)
    (h : portsServe t (([o.a, o.b, o.c]).take n) (some o.d) = .error e) : laneOp t o n f = .error e := by
  rw [laneOp, h]

/-- Waiting at its instruction, a context has popped nothing. -/
theorem gives_stalled_popped {i : Instr} {s u : State} {w : Stall} {body : State → Res State} (hi : Issues i s) (he : exec i s = runSeq i s body)
    (hb : body (beginIssue s) = .error (.park w u)) (cur : u.cur = s.cur) (mem : u.mem = s.mem)
    (regs : ∀ e, (ctxOf u e).regs = (ctxOf s e).regs) (pc : (ctxOf u s.cur).pc = (ctxOf s s.cur).pc) (cores : u.cores = s.cores) :
    Gives i s (fun t => (ctxOf t s.cur).run = .stalled w ∧ pcOf t = pcOf s ∧ RegFrame s t [] [] ∧ Popped s t []) := by
  obtain ⟨t, ht, run, pcs, frame⟩ := gives_stalled hi he hb cur mem regs pc
  refine ⟨t, ht, run, pcs, frame, fun j _ => ?_, fun _ ⟨r, hr, _⟩ => absurd hr List.not_mem_nil⟩
  obtain rfl := Host.Outcome.next.inj (ht.symm.trans (he.trans (runSeq_park hi.2 hb)))
  rw [qInOf, coreAt, modCtx_cores, cores]
  rfl

theorem keepPop_ctx (u : State) (ports : List Nat) (e : Nat) :
    (ctxOf (keepPop u ports) e).regs = (ctxOf u e).regs ∧ (ctxOf (keepPop u ports) e).pc = (ctxOf u e).pc := by
  rw [keepPop, ctxOf_modCtx]
  split
  case isTrue same => rw [same]; exact ⟨rfl, rfl⟩
  case isFalse => exact ⟨rfl, rfl⟩

theorem queueLost_keepPop (u : State) (ports : List Nat) (k j : Nat) : queueLost (keepPop u ports) k j = queueLost u k j := rfl

section

variable {s u : State} (looked : Looked s u)
include looked

theorem queueLost_looked (k j : Nat) : queueLost u k j = queueLost s k j := by
  have killed : (coreAt u (accessOf k)).killed = (coreAt s (accessOf k)).killed := by rw [looked.core]
  have lost : (coreAt u k).queuesLost = (coreAt s k).queuesLost := by rw [looked.core]
  rw [queueLost, killed, lost, queueLost]

variable {r d : BitVec 6} (port : 48 ≤ r.toNat) (settled : unsettled s s.cur = false)
include port settled

theorem portsServe_behind (ahead : popAhead s [r.toNat - 48] = true) :
    portsServe u [r] (some d) = parkOn (.qPop (r.toNat - 48)) (keepPop u [r.toNat - 48]) := by
  have settled_ : Machine.unsettled u u.cur = false := by rw [looked.cur, looked.unsettled, settled]
  have first := (popAhead_looked looked [r.toNat - 48]).trans ahead
  simp [portsServe, port, settled_, first]

variable (empty : qInOf s (coreOf s.cur) (r.toNat - 48) = [])
include empty

/-- A pop of an empty queue (R78): the context waits behind those that came before it, or stops where the queue is lost. -/
theorem portsServe_empty (ahead : popAhead s [r.toNat - 48] = false) :
    portsServe u [r] (some d) = queueStop (keepPop u [r.toNat - 48]) (r.toNat - 48) (.qPop (r.toNat - 48)) := by
  have entries : qInOf u (coreOf u.cur) (r.toNat - 48) = [] := by rw [looked.cur, qInOf_looked looked, empty]
  have settled_ : Machine.unsettled u u.cur = false := by rw [looked.cur, looked.unsettled, settled]
  have first := (popAhead_looked looked [r.toNat - 48]).trans ahead
  simp [portsServe, port, settled_, first, shortPort, entries]

end

/-- A push to a full queue (R78). -/
theorem portsServe_full {s u : State} (looked : Looked s u) {r d : BitVec 6} (served : SourcesServed s [r]) (settled : unsettled s s.cur = false)
    (port : 48 ≤ d.toNat) (below : d.toNat < 52) (full : (qOutOf s (coreOf s.cur) (d.toNat - 48)).length = 16) :
    portsServe u [r] (some d) = queueStop (if (portsOf [r]).isEmpty then u else keepPop u (portsOf [r])) (d.toNat - 48) (.qPush (d.toNat - 48)) := by
  have none_ := portsServe_sources looked served
  have length : 16 ≤ (qOutOf u (coreOf u.cur) (d.toNat - 48)).length := by rw [looked.cur, qOutOf_looked looked, full]
  have settled_ : Machine.unsettled u u.cur = false := by rw [looked.cur, looked.unsettled, settled]
  obtain ⟨entries, ahead⟩ := served
  have first : (!(portsOf [r]).isEmpty && popAhead u (portsOf [r])) = false := by rw [popAhead_looked looked, portsOf, ahead, Bool.and_false]
  have fold : ([r].filter (fun r => 48 ≤ r.toNat)).map (fun r => r.toNat - 48) = portsOf [r] := rfl
  have short : shortPort (fun p => (qInOf u (coreOf u.cur) p).length) [] (portsOf [r]) = none := by
    refine shortPort_none _ _ _ (fun p hp => ?_)
    obtain ⟨x, hx, rfl⟩ := List.mem_map.mp hp
    obtain ⟨mem, high⟩ := List.mem_filter.mp hx
    have high : 48 ≤ x.toNat := by simpa using high
    rw [List.count_nil, Nat.zero_add, count_portsOf high, looked.cur, qInOf_looked looked]
    exact (entries x mem high).2
  simp only [portsServe, fold, settled_, Bool.false_and, Bool.false_eq_true, if_false, first, short, port, below, length, decide_true, Bool.and_self, if_true]

/-- Settles O35: integer comparisons lane by lane, the predicate instructions, and the gates of the q ports. -/
theorem predicatesAndQueuePorts : Obligations.PredicatesAndQueuePorts := by
  unfold Obligations.PredicatesAndQueuePorts
  refine ⟨?vcmp, ?logic, ?pmov, ?empty, ?full, ?lost⟩
  case vcmp =>
    intro o s int hi quiet served
    dsimp only
    obtain ⟨v, read, takes⟩ := readSlots_two (.refl s) served
    have lanes : isLaneFmt o.fmt.toNat = true := by
      have fields := accepts_of_issues hi
      simp only [accepts, Bool.and_eq_true] at fields
      exact fields.1.1.1.1.1.1.1
    have pops := takes.pops
    have acts : Acts s v [] := pops.acts (.of_looked hi.1 (.refl s))
    obtain ⟨next, frame, bits⟩ := writesPredicate_retire (i := .vcmp o) acts pops.mem o.d (BitVec.ofNat 32 (packList 1 ((vcmpBits s o).map Bool.toNat)))
    have frame_cur : (wp v s.cur o.d.toNat (BitVec.ofNat 32 (packList 1 ((vcmpBits s o).map Bool.toNat)))).cur = s.cur := (wp_cur _ _ _ _).trans pops.cur
    refine ⟨_, vcmp_body int lanes served read pops (beginIssue_of_quiet quiet) hi, next, frame, ?_, ?_, ?_⟩
    · refine popped_retire (.refl s) takes frame_cur (fun j => ?_) (by rw [wp_ctx])
      rw [qInOf, coreAt_wp, qInOf]
    · obtain ⟨pending, allot, -, -, -, shown⟩ := quiet
      intro r _
      rw [rv_retire (nextPc v) frame_cur (by rw [wp_ctx, pops.ctx, pending]) (by rw [wp_ctx, pops.ctx, allot]) (by rw [wp_ctx, pops.ctx, shown]), rv_wp, rv,
        pops.regs, rv]
    · intro j hj
      rw [bits]
      by_cases zero : o.d = 0
      · rw [if_pos zero, if_pos zero, BitVec.getLsbD_allOnes, decide_eq_true hj]
      · rw [if_neg zero, if_neg zero]
        exact vcmpBits_getLsbD s o hj
  case logic =>
    intro o s i g hk hi
    have fields := accepts_of_issues hi
    simp only [List.mem_cons, Prod.mk.injEq, List.not_mem_nil, or_false] at hk
    obtain ⟨rfl, rfl⟩ | ⟨rfl, rfl⟩ | ⟨rfl, rfl⟩ := hk
    all_goals
      simp only [accepts, predZero, Bool.and_eq_true, decide_eq_true_eq] at fields
      obtain ⟨⟨⟨⟨⟨⟨⟨⟨c, pred⟩, hold⟩, fmt⟩, rnd⟩, limm⟩, -⟩, -⟩, -⟩ := fields
      refine ⟨c, pred, hold, fmt, rnd, limm, ?_⟩
    · exact gives_predicate hi (exec_pand o s) (by simp only [beginIssue_cur, rp_beginIssue])
    · exact gives_predicate hi (exec_por o s) (by simp only [beginIssue_cur, rp_beginIssue])
    · exact gives_predicate hi (exec_pnot o s) (by simp only [beginIssue_cur, rp_beginIssue])
  case pmov =>
    intro o s hi
    have fields := accepts_of_issues hi
    simp only [accepts, predZero, Bool.and_eq_true, decide_eq_true_eq] at fields
    obtain ⟨⟨⟨⟨⟨⟨⟨⟨c, pred⟩, hold⟩, fmt⟩, rnd⟩, b⟩, limm⟩, -⟩, -⟩ := fields
    refine ⟨b, c, pred, hold, fmt, rnd, limm, fun low => ?_, fun two => ?_⟩
    · exact gives_predicate hi (exec_pmov_in low s) (by simp only [beginIssue_cur, rp_beginIssue, rg_beginIssue])
    · obtain ⟨t, ht, writes⟩ := gives_writes (fun t => (rp t t.cur o.a.toNat).setWidth 64) hi (exec_pmov_out two s) (by simp only [beginIssue_cur, rp_beginIssue])
      refine ⟨t, ht, ⟨writes.next, writes.frame⟩, writes.value.trans ?_⟩
      by_cases zero : o.d = 0
      · rw [if_pos zero, zero]
        rfl
      · have nonzero : o.d.toNat ≠ 0 := fun h => zero (BitVec.eq_of_toNat_eq h)
        rw [if_neg zero, if_neg nonzero]
  case empty =>
    intro o s hi low dLow port settled empty there
    have begun := beginIssue_looked s
    have parks : portsServe (beginIssue s) [o.a] (some o.d) = parkOn (.qPop (o.a.toNat - 48)) (keepPop (beginIssue s) [o.a.toNat - 48]) := by
      cases ahead : popAhead s [o.a.toNat - 48] with
      | true => exact portsServe_behind begun port settled ahead
      | false =>
        rw [portsServe_empty begun port settled empty ahead, queueStop, queueLost_keepPop, keepPop, modCtx_cur, beginIssue_cur, queueLost_looked begun, there,
          if_neg Bool.false_ne_true]
    exact gives_stalled_popped hi (exec_vmov_lanes low) (laneOp_error _ parks) (beginIssue_cur s) (beginIssue_mem s)
      (fun e => (keepPop_ctx _ _ e).1.trans (beginIssue_regs s e)) ((keepPop_ctx _ _ _).2.trans (beginIssue_pc s _)) (beginIssue_cores s)
  case full =>
    intro o s hi low port served settled full there
    have begun := beginIssue_looked s
    have below : o.d.toNat < 52 := by
      have fields := accepts_of_issues hi
      simp only [accepts, acceptsVmov, Bool.and_eq_true, Nat.not_le.mpr low, if_false, maskedDest, Bool.or_eq_true, decide_eq_true_eq] at fields
      omega
    have parks : portsServe (beginIssue s) [o.a] (some o.d) =
        parkOn (.qPush (o.d.toNat - 48)) (if (portsOf [o.a]).isEmpty then beginIssue s else keepPop (beginIssue s) (portsOf [o.a])) := by
      rw [portsServe_full begun served settled port below full, queueStop]
      have live (u : State) (hu : u = beginIssue s ∨ u = keepPop (beginIssue s) (portsOf [o.a])) : queueLost u (coreOf u.cur) (o.d.toNat - 48) = false := by
        obtain rfl | rfl := hu
        · rw [beginIssue_cur, queueLost_looked begun, there]
        · rw [queueLost_keepPop, keepPop, modCtx_cur, beginIssue_cur, queueLost_looked begun, there]
      rw [live _ (by split <;> simp), if_neg Bool.false_ne_true]
    refine gives_stalled_popped hi (exec_vmov_lanes low) (laneOp_error _ parks) ?_ ?_ (fun e => ?_) ?_ ?_ <;> split
    · exact beginIssue_cur s
    · exact beginIssue_cur s
    · exact beginIssue_mem s
    · exact beginIssue_mem s
    · exact beginIssue_regs s e
    · exact (keepPop_ctx _ _ e).1.trans (beginIssue_regs s e)
    · exact beginIssue_pc s _
    · exact (keepPop_ctx _ _ _).2.trans (beginIssue_pc s _)
    · exact beginIssue_cores s
    · exact beginIssue_cores s
  case lost =>
    intro o s hi low dLow port settled finished empty ahead there
    have begun := beginIssue_looked s
    have traps : portsServe (beginIssue s) [o.a] (some o.d) = trapWith cQueueLost (keepPop (beginIssue s) [o.a.toNat - 48]) := by
      rw [portsServe_empty begun port settled empty ahead, queueStop, queueLost_keepPop, keepPop, modCtx_cur, beginIssue_cur, queueLost_looked begun, there, if_pos rfl]
    rw [exec_vmov_lanes low]
    exact runSeq_takes hi (beginIssue_cur s) finished (laneOp_error _ traps)

end Sys2Proof.Machine
end

