-- ==== Sys2Proof/Proofs/MessageDelivery.lean ====
section
/-! SUPPORT. O51: what becomes of a message that arrives, is refused, backs off, or is given up. -/

namespace Sys2Proof.Machine

/-! ### The entries of messages -/

theorem msgOf_dropMsg (s : State) (id : Nat) : msgOf (dropMsg s id) id = none := by
  rw [msgOf, List.find?_eq_none]
  intro m hm
  simpa using (List.mem_filter.mp hm).2

theorem msgOf_id {s : State} {id : Nat} {f : MsgFlight} (h : msgOf s id = some f) : f.id = id := by
  have found := List.find?_some h
  simpa using found

/-- The entry that was changed is found as it was changed. -/
theorem msgOf_modMsg {s : State} {id : Nat} {f : MsgFlight} {g : MsgFlight → MsgFlight} (hg : ∀ m, (g m).id = m.id) (h : msgOf s id = some f) :
    msgOf (modMsg s id g) id = some (g f) := by
  have same : (fun m : MsgFlight => decide (m.id = id)) ∘ (fun m => if m.id = id then g m else m) = fun m => decide (m.id = id) := by
    funext m
    rw [Function.comp_apply]
    split
    · rw [hg]
    · rfl
  rw [msgOf] at h
  rw [msgOf, modMsg, List.find?_map, same, h, Option.map_some, if_pos (msgOf_id h)]

/-- What changes neither memory nor contexts leaves all that a context sees. -/
theorem outside_of_ctxs {s t : State} (mem : t.mem = s.mem) (ctxs : t.ctxs = s.ctxs) : Outside s t [] := by
  have at_ (e : Nat) : ctxOf t e = ctxOf s e := by rw [ctxOf, ctxs, ctxOf]
  exact ⟨fun a => memByte_congr mem a, fun e _ => by rw [at_]; exact ⟨rfl, rfl⟩⟩

theorem finishMsg_only (s : State) (m : Msg) : finishMsg s m = { s with groups := (finishMsg s m).groups } := by
  unfold finishMsg
  split <;> rfl

/-- A slot of an inbox is taken. -/
theorem inbox_putSlot (s : State) (k i : Nat) (m : Msg) (p : SlotPhase) : (coreAt (putSlot s k i m p) k).inbox = (coreAt s k).inbox ++
    [{ index := i, msg := m, phase := p, routine := 0, entry := 0, firstWords := none, secondWords := none, firstTokens := [], secondTokens := [], acct := 0, since := s.cycle }] := by
  rw [putSlot, coreAt_modCore_self]

/-- What the device makes of a notice (R137); it is the state's next unforced word that numbers it. -/
theorem deviceMsg_spec (s : State) (cls dest : Nat) (payload : List Word) : (deviceMsg s cls dest payload).1.cls = cls ∧
    (deviceMsg s cls dest payload).1.payload = payload ∧ (deviceMsg s cls dest payload).2 = { s with free := (deviceMsg s cls dest payload).2.free } :=
  ⟨rfl, rfl, rfl⟩

/-- The core that refuses a message counts it (R148). -/
theorem coreAt_refuse (s : State) (f : MsgFlight) (k code : Nat) : coreAt (refuse s f k code) k =
    { coreAt s k with counters := { (coreAt s k).counters with refused := (coreAt s k).counters.refused + 1 } } := by
  change coreAt (modCore s k (fun x => { x with counters := { x.counters with refused := x.counters.refused + 1 } })) k = _
  rw [coreAt_modCore_self]

/-- With no group and no launch that waits in the bridge, what arrives only frees its entry. -/
theorem accepted_alone {s : State} {f : MsgFlight} (group : f.msg.group = none) (bridge : s.host.waitingLaunches = []) : accepted s f = dropMsg s f.id := by
  have host : (dropMsg s f.id).host.waitingLaunches = [] := bridge
  rw [accepted, finishMsg, group, pumpHost, host]

theorem freeOrdinary_lt {s : State} {k i : Nat} (h : freeOrdinary s k = some i) : i < 60 := List.mem_range.mp (List.mem_of_find?_eq_some h)

theorem freeNotice_ge {s : State} {k i : Nat} (h : freeNotice s k = some i) : 60 ≤ i := by
  obtain ⟨j, -, rfl⟩ := List.mem_map.mp (List.mem_of_find?_eq_some h)
  omega

theorem freeOrdinary_of_arrival {s : State} {k i : Nat} {m : Msg} (h : arrivalAt s k m = .inl i) : freeOrdinary s k = some i := by
  unfold arrivalAt at h
  repeat' split at h
  case h_1 j found => rw [found, Sum.inl.inj h]
  all_goals exact absurd h (by simp)

/-! ### Arrival -/

section

variable {s : State} {id : Nat} {f : MsgFlight} (here : msgOf s id = some f) (flying : f.phase = .flying) (loose : f.msg.placed = none)
  (own : agentDevice f.msg.dest = s.device) (noLaunch : f.msg.cls ≠ 27) (due : f.due ≤ s.cycle) (order : inOrder s f = true)
include here flying loose own noLaunch due order

/-- What MESSAGE_ARRIVAL does with a message of this device that is due. -/
theorem messageArrival_meets : exec (.messageArrival id) s = .next (
    match arrivalAt s (coreOf (agentLocal f.msg.dest)) f.msg with
    | .inr code => refuse s f (coreOf (agentLocal f.msg.dest)) code
    | .inl i => accepted (putSlot s (coreOf (agentLocal f.msg.dest)) i { f.msg with attempts := f.msg.attempts + 1 } .waiting) f) := by
  change execMessageArrival id s = _
  unfold execMessageArrival
  simp only [here, flying, loose, own, noLaunch, order, Nat.not_lt.mpr due, ne_eq, not_true_eq_false, Option.isSome_none, decide_false, Bool.not_true,
    Bool.or_self, Bool.false_eq_true, if_false] <;> rfl

end

/-- Settles O51: each event by the branch of the message's phase, and the arrival by what it meets. -/
theorem messageDelivery : Obligations.MessageDelivery := by
  unfold Obligations.MessageDelivery
  refine ⟨?accept, ?refusal, ?meets, ?returns, ?retry, ?notice⟩
  case accept =>
    intro s id i f here flying loose own noLaunch due order group bridge
    dsimp only
    intro free
    refine ⟨_, messageArrival_meets here flying loose own noLaunch due order, ?_⟩
    rw [free]
    dsimp only
    rw [accepted_alone (s := putSlot s _ i _ .waiting) group bridge, msgOf_id here]
    exact ⟨outside_of_ctxs rfl rfl, msgOf_dropMsg _ _, _, inbox_putSlot s _ i _ _, rfl,
      freeOrdinary_lt (freeOrdinary_of_arrival free), rfl, rfl⟩
  case refusal =>
    intro s id code f here flying loose own noLaunch due order
    dsimp only
    intro refused
    refine ⟨_, messageArrival_meets here flying loose own noLaunch due order, ?_⟩
    rw [refused]
    dsimp only
    have met := coreAt_refuse s f (coreOf (agentLocal f.msg.dest)) code
    rw [refuse, msgOf_id here] at met ⊢
    exact ⟨outside_of_ctxs rfl rfl, ⟨_, msgOf_modMsg (fun _ => rfl) here, rfl, rfl⟩, by rw [met], by rw [met]⟩
  case meets =>
    intro s k m
    refine ⟨fun away => ?_, fun works firmware none_ => ?_, fun works served checked lease => ?_, fun works served checked lease stopped => ?_,
      fun works served unchecked full => ?_⟩
    · have off : takesWork s k = false := by
        obtain h | h | h := away
        · simp [takesWork, h]
        · simp [takesWork, h]
        · exact h
      simp [arrivalAt, off]
    · simp [arrivalAt, works, firmware, none_]
    all_goals obtain ⟨j, served⟩ := Option.ne_none_iff_exists'.mp served
    · simp [arrivalAt, works, served, checked, lease]
    · have away : namedAway s m = true := by obtain h | h := stopped <;> simp [namedAway, checked, h]
      simp [arrivalAt, works, served, lease, away]
    · simp [arrivalAt, works, served, unchecked, namedAway, full]
  case returns =>
    intro s id code f here phase due near
    have moved (u : State) (n : MsgPhase) (hu : msgOf u id = some f) (mem : u.mem = s.mem) (ctxs : u.ctxs = s.ctxs) :
        Outside s (setPhase u id n) [] ∧ ∃ g, msgOf (setPhase u id n) id = some g ∧ g.phase = n :=
      ⟨outside_of_ctxs mem ctxs, _, msgOf_modMsg (fun _ => rfl) hu, rfl⟩
    have finished : msgOf (finishMsg s f.msg) id = some f := by rw [finishMsg_only]; exact here
    have mem : (finishMsg s f.msg).mem = s.mem := by rw [finishMsg_only]
    have ctxs : (finishMsg s f.msg).ctxs = s.ctxs := by rw [finishMsg_only]
    refine ⟨_, rfl, ?_⟩
    simp only [here, phase, Nat.not_lt.mpr due, near, if_false]
    by_cases final : code ≠ 0
    · simp only [final, ne_eq, not_false_eq_true, if_true]
      exact moved _ _ finished mem ctxs
    · simp only [final, if_false]
      by_cases last : f.msg.pair = none ∧ 12 ≤ f.msg.attempts
      · simp only [last, Option.isNone_none, decide_true, Bool.and_self, and_self, if_true]
        exact moved _ _ finished mem ctxs
      · have more : (f.msg.pair.isNone && decide (12 ≤ f.msg.attempts)) = false := by
          rw [Bool.eq_false_iff]
          simpa using last
        simp only [more, last, Bool.false_eq_true, if_false]
        exact moved _ _ here rfl rfl
  case retry =>
    intro s id due f here phase past away
    refine ⟨_, rfl, ?_⟩
    simp only [here, phase, Nat.not_lt.mpr past, away, decide_false, Bool.or_self, Bool.false_eq_true, if_false]
    split
    · exact ⟨outside_of_ctxs rfl rfl, _, msgOf_modMsg (fun _ => rfl) here, rfl, rfl⟩
    · exact ⟨outside_of_ctxs rfl rfl, _, msgOf_modMsg (fun _ => rfl) here, rfl, rfl⟩
  case notice =>
    intro s id code k i f here phase due inside own at_ free
    have core : noticeCore s f.msg.sender (noticeClass code) = some k := at_
    refine ⟨_, rfl, ?_⟩
    simp only [here, phase, Nat.not_lt.mpr due, inside, own, core, free, ne_eq, not_true_eq_false, Bool.false_eq_true, if_false]
    obtain ⟨cls, payload, only⟩ := deviceMsg_spec s (noticeClass code) (agentId s.device (8 * k)) (noticePayload code f.msg)
    have noted : (coreAt (putSlot (dropMsg (deviceMsg s (noticeClass code) (agentId s.device (8 * k)) (noticePayload code f.msg)).2 id) k i
        (deviceMsg s (noticeClass code) (agentId s.device (8 * k)) (noticePayload code f.msg)).1 .waiting) k).inbox = _ := inbox_putSlot _ k i _ _
    split
    · exact ⟨outside_of_ctxs rfl rfl, msgOf_dropMsg _ _, _, (congrArg Core.inbox (coreAt_modCore_self _ k _)).trans noted, rfl, freeNotice_ge free, rfl, cls, payload⟩
    · exact ⟨outside_of_ctxs rfl rfl, msgOf_dropMsg _ _, _, noted, rfl, freeNotice_ge free, rfl, cls, payload⟩

end Sys2Proof.Machine
end

