-- ==== Sys2Proof/Proofs/ConcreteHost.lean ====
section
/-! SUPPORT. Refutations by a state that the model runs: a host write to the alias of a request record, and a device number beyond those of R15. -/

namespace Sys2Proof.Machine

/-! ### A request table under two addresses -/

/-- A commons region of 64 KiB. -/
def commonsAt (base : Nat) : Token := { base := base, lsize := 16, mode := .commons, holder := 0, lender := 0, opened := false, records := [], xfer := 0, acct := 0, taint := false, wr := false }

/-- An instance of one node, whose record stands at 0x20000. -/
def stepInstance : GraphRun := { die := 0, records := 0x20000, statuses := 0x30000, count := 1, acct := 0, nodes := [], faulted := none, live := true }

/-- The pages from 2^30 on are those from 0 on again. The STEP node of a live instance names the region at 0x10000 as its request table; the host
writes through the region at 2^30 + 0x10000. -/
def aliasedTable : State := { storing firstPages [(0x2008, 0xBC00000000000000), (0x20000, 0x5000000000000000), (0x20008, 0x10000)] with
  tokens := [(0x10000, some (commonsAt 0x10000)), (0x40010000, some (commonsAt 0x40010000))]
  graphs := [(0, some stepInstance)] }

/-- The bytes that the host writes. -/
def sectorOfOnes : List Byte := List.replicate 32 1

/-- Refutes O58: a byte of a request record is not written through an address of another region. -/
theorem not_aperture : ¬ Obligations.Aperture := by
  unfold Obligations.Aperture
  rintro ⟨-, writes, -⟩
  have place : hostPlace aliasedTable (aliasedTable.host.apbase.toNat + 0x40010000) true = some (0x10000, 256) := by decide +kernel
  have outside : inRequestTable aliasedTable (aliasedTable.host.apbase.toNat + 0x40010000) = false := by decide +kernel
  have reached : (reachL2 aliasedTable .host 256 0x10000 sectorOfOnes.length 5 true).1 = true := by decide +kernel
  have free : slotByte aliasedTable 0x10000 = false ∧ statusByte aliasedTable 0x10000 = false := by decide +kernel
  refine ((writes aliasedTable 0 0x40010000 0x10000 256 sectorOfOnes (by decide) rfl (by decide)).1 place outside reached (by decide)).passes
    (f := fun t => memByte t 0x10000 = 1) (fun t ht => decide_eq_true ?_) ?_
  · obtain ⟨bytes, -⟩ := ht
    have first := bytes 0 (by decide)
    rw [Nat.add_zero, free.1, free.2] at first
    exact first
  · decide +kernel

/-! ### A device number of more than 48 bits -/

/-- A region held by an apex core of device 1, context 0. -/
def heldByPeer : Token := { base := 0, lsize := 16, mode := .exclusive, holder := holderAgent (agentId 1 (8 * (16 * apexVertex 0 + 14))), lender := 0, opened := false, records := [], xfer := 0, acct := 0, taint := false, wr := false }

/-- The module counts itself as device 2^48 + 1, so that its apex core and that of device 1 have one holder word; device 1 has been silent. -/
def wideDevice : State := { State.reset with device := 2 ^ 48 + 1, cycle := 1600000, tokens := [(0, some heldByPeer)], accounts := [(0, { Account.reset with recovery := some 0 })] }

/-- Refutes O60: the claim leaves the holder word as it is, and with it the transfer count. -/
theorem not_powerAndFabric : ¬ Obligations.PowerAndFabric := by
  unfold Obligations.PowerAndFabric
  rintro ⟨-, -, -, -, -, -, -, -, -, -, -, -, claims, -⟩
  refine (claims wideDevice 1 (16 * apexVertex 0 + 14) 0 0 heldByPeer (by decide) (by decide) (by decide) (by decide +kernel) rfl rfl rfl
    (by decide) (by decide) (by decide) rfl rfl).passes (f := fun t => (sget none t.tokens 0).map (·.xfer) = some 1) (fun t ht => decide_eq_true ?_) ?_
  · obtain ⟨⟨u, found, -, -, -, count⟩, -⟩ := ht
    rw [found, Option.map_some, count]
    rfl
  · decide +kernel

end Sys2Proof.Machine
end

