-- ==== Sys2Proof/Proofs/Jobs.lean ====
section
/-! SUPPORT. O41: the job queue of a cluster, its completion table, and the contexts that wait there. -/

namespace Sys2Proof.Machine

/-! ### The end of an instruction leaves a cluster alone, but for sr.cflags -/

/-- What of a cluster an instruction's end leaves: all but the flags that are shown (R50). -/
def Cluster.kept (x : Cluster) : Cluster := { x with cflags := 0 }

theorem clusterKept_showFlags (s : State) (c v : Nat) : (clusterAt (showFlags s c) v).kept = (clusterAt s v).kept := by
  have raised (u : State) (w : Nat) (f : BitVec 5) : (clusterAt (modCluster u w (fun k => { k with cflags := k.cflags ||| f })) v).kept = (clusterAt u v).kept := by
    rw [clusterAt_modCluster]
    split
    case isTrue same => rw [same]; rfl
    case isFalse => rfl
  unfold showFlags
  dsimp only
  split
  · rfl
  · split
    · exact (raised _ _ _).trans (raised _ _ _)
    · exact raised _ _ _

theorem clusterKept_endGroup (s : State) (c v : Nat) : (clusterAt (endGroup s c) v).kept = (clusterAt s v).kept :=
  foldl_keeps (P := fun t => (clusterAt t v).kept = (clusterAt s v).kept)
    (fun t e h => (congrArg Cluster.kept (clusterAt_congr (applySreg_clusters t c e.1 e.2) v)).trans h) (ctxOf s c).pendingS (clusterKept_showFlags s c v)

theorem clusterKept_parkGroup (s : State) (c v : Nat) : (clusterAt (parkGroup s c) v).kept = (clusterAt s v).kept := by
  unfold parkGroup
  dsimp only
  split
  · exact clusterKept_endGroup s c v
  · split
    · exact clusterKept_endGroup s c v
    · exact (congrArg Cluster.kept (clusterAt_congr (stopCtx_clusters _ c _) v)).trans (clusterKept_endGroup s c v)

theorem clusterKept_retire (i : Instr) (s : State) (npc : Word) (v : Nat) : (clusterAt (retire i s npc) v).kept = (clusterAt s v).kept := by
  have charged : (chargeIssue i s).clusters = s.clusters := by rw [chargeIssue_only]
  have followed (x y : Ctx) (c : Nat) : (clusterAt (followCopy (setCtx (chargeIssue i s) c x) c y npc) v).kept = (clusterAt s v).kept :=
    congrArg Cluster.kept (clusterAt_congr (show (followCopy (setCtx (chargeIssue i s) c x) c y npc).clusters = s.clusters from
      (followCopy_clusters _ _ _ _).trans charged) v)
  unfold retire
  dsimp only
  split
  · exact congrArg Cluster.kept (clusterAt_congr charged v)
  · split
    · exact (clusterKept_parkGroup _ _ v).trans (followed _ _ _)
    · exact followed _ _ _

/-- A field of a cluster that the end of an instruction leaves alone. -/
theorem cluster_retire {α : Type} (f : Cluster → α) (hf : ∀ x, f x.kept = f x) (i : Instr) (s : State) (npc : Word) (v : Nat) :
    f (clusterAt (retire i s npc) v) = f (clusterAt s v) := by rw [← hf, clusterKept_retire, hf]

theorem clusterAt_beginIssue (s : State) (v : Nat) : clusterAt (beginIssue s) v = clusterAt s v := clusterAt_congr (beginIssue_clusters s) v

theorem clusterAt_wg (s : State) (c r : Nat) (x : Word) (v : Nat) : clusterAt (wg s c r x) v = clusterAt s v := by
  unfold wg
  split <;> rfl

/-! ### Contexts that are woken -/

/-- A state that differs in whether contexts wait, but in no context that is ready. -/
structure WakesOnly (s t : State) : Prop where
  only : t = { s with ctxs := t.ctxs }
  ctx : ∀ c, ctxOf t c = { ctxOf s c with run := (ctxOf t c).run }
  ready : ∀ c, (ctxOf s c).run = .ready → (ctxOf t c).run = .ready

namespace WakesOnly

theorem refl (s : State) : WakesOnly s s := ⟨rfl, fun _ => rfl, fun _ h => h⟩

theorem trans {s t u : State} (h : WakesOnly s t) (k : WakesOnly t u) : WakesOnly s u where
  only := by rw [k.only, h.only]
  ctx c := by rw [k.ctx c, h.ctx c]
  ready c hc := k.ready c (h.ready c hc)

variable {s u v : State} (h : WakesOnly u v)
include h

theorem cur : v.cur = u.cur := by rw [h.only]
theorem mem : v.mem = u.mem := by rw [h.only]
theorem clusters : v.clusters = u.clusters := by rw [h.only]

theorem acts {gs : List Nat} (ha : Acts s u gs) : Acts s v gs :=
  ha.same h.cur (fun e => by rw [h.ctx]) (by rw [h.ctx]) ((h.ready _ (by rw [ha.cur, ha.run])).trans (by rw [ha.cur, ha.run]))

end WakesOnly

theorem wakeStalls_wakes (s : State) (v : Nat) (p : Nat → Stall → Bool) : WakesOnly s (wakeStalls s v p) := by
  refine foldl_keeps (P := fun t => WakesOnly s t) (fun t i h => h.trans ?_) _ (.refl s)
  dsimp only
  split
  · split
    · refine ⟨rfl, fun c => ?_, fun c ready => ?_⟩
      · rw [ctxOf_modCtx]
        split
        case isTrue same => rw [same]
        case isFalse => rfl
      · rw [ctxOf_modCtx]
        split
        · rfl
        · exact ready
    · exact .refl t
  · exact .refl t

/-! ### Jobs that are handed out -/

/-- Nothing is handed out where no context waits. -/
theorem offerJobs_nobody {s : State} {v : Nat} (none_ : (clusterAt s v).nexters = []) (n : Nat) : offerJobs s v n = s := by
  cases n with
  | zero => rfl
  | succ n =>
    rw [offerJobs, none_]
    dsimp only [List.filter_nil]
    split
    · rename_i h
      cases h
    · rfl

/-- The job that JOB queues (R337). -/
def newJob (s : State) (o : OpE) : Job :=
  { id := (clusterAt s (vertOf s.cur)).jobCounter, entry := rg s s.cur o.a.toNat, arg0 := rg s s.cur o.b.toNat, arg1 := rg s s.cur o.c.toNat,
    submitter := s.cur, before := s.nextId, seq := s.nextId, code := 0, running := none, net := netOf s s.cur }

/-- The queue with one job more. -/
def jobQueued (s : State) (o : OpE) : State :=
  modCluster { s with nextId := s.nextId + 1 } (vertOf s.cur) (fun x => { x with jobCounter := x.jobCounter + 1, jobs := x.jobs ++ [newJob s o] })

theorem jobQueued_acts {s u : State} (h : Acts s u []) (o : OpE) : Acts s (jobQueued u o) [] := h.ctxs rfl rfl

/-- What JOB leaves where there is room in the queue and no context waits for a job (R141). -/
def jobGiven (t : State) (o : OpE) : State :=
  markCip (wg (jobQueued t o) t.cur o.d.toNat ((clusterAt t (vertOf t.cur)).jobCounter.setWidth 64)) t.cur

theorem job_body {s : State} {o : OpE} (free : FreeToAct s) (aligned : (rg s s.cur o.a.toNat).toNat % 8 = 0)
    (room : ((clusterAt s (vertOf s.cur)).jobs.filter (fun j => j.running.isNone)).length < 64) (nobody : (clusterAt s (vertOf s.cur)).nexters = [])
    (hi : Issues (.job o) s) : Gives (.job o) s (fun t => t = retire (.job o) (jobGiven (beginIssue s) o) (nextPc (jobGiven (beginIssue s) o))) := by
  have gate := outputGate_ok (beginIssue_looked s) free
  refine gives_retire hi (rfl : _ = execJob o s) ?_ rfl
  replace aligned : (rg (beginIssue s) (beginIssue s).cur o.a.toNat).toNat % 8 = 0 := by rw [beginIssue_cur, rg_beginIssue, aligned]
  replace room : ((clusterAt (beginIssue s) (vertOf (beginIssue s).cur)).jobs.filter (fun j => j.running.isNone)).length < 64 := by
    rw [beginIssue_cur, clusterAt_beginIssue]
    exact room
  have idle : (clusterAt (jobGiven (beginIssue s) o) (vertOf (beginIssue s).cur)).nexters = [] := by
    rw [jobGiven, markCip, clusterAt_modCtx, clusterAt_wg, jobQueued, clusterAt_modCluster_self]
    rw [beginIssue_cur]
    exact (congrArg Cluster.nexters (clusterAt_beginIssue s _)).trans nobody
  simp only [aligned, ne_eq, not_true_eq_false, if_false, gate, ok_bind, Nat.not_le.mpr room]
  exact congrArg Except.ok (offerJobs_nobody idle 8)

/-- A poll writes the status word, and at most takes a job out of the completion table (R141). -/
theorem pollJob_ok {t : State} (settled : settle t = .ok ()) (d : Nat) (w : Word) :
    ∃ k, pollJob t d w = .ok { wg t t.cur d (jobWord (clusterAt t (vertOf t.cur)) w) with clusters := k } := by
  unfold pollJob
  dsimp only
  split
  · split
    · exact ⟨_, rfl⟩
    · simp only [settled, ok_bind]
      exact ⟨_, rfl⟩
  · exact ⟨_, rfl⟩

/-- What stands in g[d] before the instruction ends is what the next one reads (R72). -/
theorem rg_retire_of {i : Instr} {s u : State} {gs : List Nat} {d : BitVec 6} {x npc : Word} (acts : Acts s u gs)
    (value : rg u s.cur d.toNat = if d.toNat = 0 then 0 else x) : rg (retire i u npc) s.cur d.toNat = if d = 0 then 0 else x := by
  have read := rg_retire i u npc d.toNat
  rw [acts.cur] at read
  rw [read, value]
  by_cases zero : d = 0
  · rw [if_pos zero, zero]
    rfl
  · have nonzero : d.toNat ≠ 0 := fun h => zero (BitVec.eq_of_toNat_eq h)
    rw [if_neg zero, if_neg nonzero]

/-- JPOLL, and JWAIT of a job that is over: the status word (R339). -/
theorem gives_polled {i : Instr} {s : State} {o : OpE} {body : State → Res State} (hi : Issues i s) (he : exec i s = runSeq i s body)
    (hb : body (beginIssue s) = pollJob (beginIssue s) o.d.toNat (rg s s.cur o.a.toNat)) (settled : unsettled s s.cur = false) :
    Gives i s (fun t => Proceeds s t [o.d.toNat] ∧
      rg t s.cur o.d.toNat = if o.d = 0 then 0 else jobWord (clusterAt s (vertOf s.cur)) (rg s s.cur o.a.toNat)) := by
  obtain ⟨k, ok⟩ := pollJob_ok (settle_ok (beginIssue_looked s) settled) o.d.toNat (rg s s.cur o.a.toNat)
  rw [beginIssue_cur, clusterAt_beginIssue] at ok
  have acts : Acts s { wg (beginIssue s) s.cur o.d.toNat (jobWord (clusterAt s (vertOf s.cur)) (rg s s.cur o.a.toNat)) with clusters := k } [o.d.toNat] :=
    (((Acts.of_looked hi.1 (beginIssue_looked s)).mono (List.nil_subset _)).wg _ (List.mem_singleton_self _)).ctxs rfl rfl
  exact gives_retire hi he (hb.trans ok) ⟨proceeds_retire acts ((wg_mem _ _ _ _).trans (beginIssue_mem s)), rg_retire_of acts (rg_wg_self (beginIssue s) s.cur o.d.toNat _)⟩

/-! ### A job handed to the one context that waits -/

/-- A context that waits at JNEXT gets the oldest job, which no fence of its submitter holds back (R180, R337). -/
def jobHanded (u : State) (v c seq : Nat) : State :=
  modCtx (modCluster u v (fun x => { x with nexters := [], jobs := x.jobs.map (fun i => if i.seq = seq then { i with running := some c } else i) })) c
    (fun x => { x with run := .ready, cooked := some (BitVec.ofNat 64 seq) })

theorem offerJobs_one {u : State} {v c : Nat} {j : Job} {l : List Job} (nexters : (clusterAt u v).nexters = [c]) (waits : (ctxOf u c).run = .stalled .jobQueueEmpty)
    (first : (clusterAt u v).jobs = j :: l) (queued : j.running = none)
    (unfenced : ∀ h ∈ u.flights, isFence h.op = true → h.ctx = j.submitter → j.before ≤ h.id) (n : Nat) : offerJobs u v (n + 1) = jobHanded u v c j.seq := by
  have free : u.flights.any (fun h => h.ctx = j.submitter && h.id < j.before && isFence h.op) = false := by
    rw [List.any_eq_false]
    intro h hh held
    simp only [Bool.and_eq_true, decide_eq_true_eq] at held
    obtain ⟨⟨own, before⟩, fence⟩ := held
    exact absurd (unfenced h hh fence own) (Nat.not_le.mpr before)
  have waiting : (clusterAt u v).nexters.filter (fun e => (ctxOf u e).run = .stalled .jobQueueEmpty) = [c] := by
    rw [nexters, List.filter_cons_of_pos (by simpa using waits), List.filter_nil]
  have oldest : (clusterAt u v).jobs.find? (fun i => i.running.isNone) = some j := by
    rw [first, List.find?_cons_of_pos (by rw [queued]; rfl)]
  have done : (clusterAt (jobHanded u v c j.seq) v).nexters = [] := by
    rw [jobHanded, clusterAt_modCtx, clusterAt_modCluster_self]
  rw [offerJobs]
  simp only [waiting, oldest, free, Bool.false_eq_true, if_false]
  exact offerJobs_nobody done n

/-! ### Registers in a row -/

theorem rg_wgs_below (c : Nat) (l : List Word) : ∀ (s : State) {r d : Nat}, d < r → rg (wgs s c r l) c d = rg s c d := by
  induction l with
  | nil => exact fun _ _ _ _ => rfl
  | cons x l ih =>
    intro s r d below
    rw [wgs, ih _ (Nat.lt_succ_of_lt below), rg_wg_ne _ _ _ (Nat.ne_of_lt below)]

theorem rgs_wgs (c : Nat) (l : List Word) : ∀ (s : State) {r : Nat}, 0 < r → rgs (wgs s c r l) c r l.length = l := by
  induction l with
  | nil => exact fun _ _ _ => rfl
  | cons x l ih =>
    intro s r pos
    have tail := ih (wg s c r x) (r := r + 1) (Nat.succ_pos _)
    have head : rg (wgs s c r (x :: l)) c r = x := by
      rw [wgs, rg_wgs_below c l _ (Nat.lt_succ_self r), rg_wg_self, if_neg (Nat.ne_of_gt pos)]
    rw [rgs, List.length_cons, List.range_succ_eq_map, List.map_cons, Nat.add_zero, head, List.map_map]
    refine congrArg (x :: ·) (Eq.trans ?_ tail)
    rw [rgs, wgs]
    refine List.map_congr_left (fun i _ => ?_)
    rw [Function.comp_apply, Nat.succ_eq_add_one, Nat.add_comm i 1, Nat.add_assoc]

theorem Acts.wgs {s : State} (l : List Word) : ∀ {u : State} {gs : List Nat} {r : Nat}, Acts s u gs → (∀ i, i < l.length → r + i ∈ gs) → Acts s (wgs u s.cur r l) gs := by
  induction l with
  | nil => exact fun h _ => h
  | cons x l ih =>
    intro u gs r h named
    exact ih (h.wg x (named 0 (Nat.succ_pos _))) (fun i hi => by
      rw [Nat.add_assoc, Nat.add_comm 1 i]
      exact named (i + 1) (Nat.succ_lt_succ hi))

/-! ### JNEXT and JDONE -/

/-- A context that waits at JNEXT for a job. -/
def jobAwaited (t : State) : State :=
  modCluster (modCtx t t.cur (fun x => { x with run := .stalled .jobQueueEmpty })) (vertOf t.cur) (fun x => { x with nexters := x.nexters.filter (· ≠ t.cur) ++ [t.cur] })

/-- What JNEXT writes of the job that it was handed (R337). -/
def jobTaken (u : State) (d : Nat) (j : Job) : State :=
  wakeStalls (modCtx (wgs u u.cur d [j.id.setWidth 64, j.entry, j.arg0, j.arg1, BitVec.ofNat 64 (agentOf u j.submitter)]) u.cur (fun x => { x with job := some j.id }))
    (vertOf u.cur) (fun _ w => w = .jobQueueFull)

theorem jobHanded_cur (t : State) (seq : Nat) : (jobHanded (jobAwaited t) (vertOf t.cur) t.cur seq).cur = t.cur := by
  rw [jobHanded, modCtx_cur, modCluster_cur, jobAwaited, modCluster_cur, modCtx_cur]

theorem jobHanded_mem (t : State) (seq : Nat) : (jobHanded (jobAwaited t) (vertOf t.cur) t.cur seq).mem = t.mem := by
  rw [jobHanded, modCtx_mem, modCluster_mem, jobAwaited, modCluster_mem, modCtx_mem]

theorem jobHanded_device (t : State) (seq : Nat) : (jobHanded (jobAwaited t) (vertOf t.cur) t.cur seq).device = t.device := by
  rw [jobHanded, modCtx_device, modCluster_device, jobAwaited, modCluster_device, modCtx_device]

section

variable {t : State} {j : Job} {l : List Job} (first : (clusterAt t (vertOf t.cur)).jobs = j :: l)
include first

/-- The job that it was handed stands in the queue as its own. -/
theorem takeJob_handed (small : j.seq < 2 ^ 64) (d : Nat) : takeJob (jobHanded (jobAwaited t) (vertOf t.cur) t.cur j.seq) d (BitVec.ofNat 64 j.seq).toNat =
    .ok (jobTaken (jobHanded (jobAwaited t) (vertOf t.cur) t.cur j.seq) d { j with running := some t.cur }) := by
  have seq : (BitVec.ofNat 64 j.seq).toNat = j.seq := by rw [BitVec.toNat_ofNat, Nat.mod_eq_of_lt small]
  have cur := jobHanded_cur t j.seq
  have found : (clusterAt (jobHanded (jobAwaited t) (vertOf t.cur) t.cur j.seq) (vertOf t.cur)).jobs.find? (fun i => i.seq = j.seq) = some { j with running := some t.cur } := by
    rw [jobHanded, clusterAt_modCtx, clusterAt_modCluster_self, jobAwaited, clusterAt_modCluster_self]
    change ((clusterAt t (vertOf t.cur)).jobs.map _).find? _ = _
    rw [first, List.map_cons, if_pos rfl, List.find?_cons_of_pos (by simp)]
  unfold takeJob
  simp only [seq, cur, found, jobTaken]

variable (queued : j.running = none) (unfenced : ∀ h ∈ t.flights, isFence h.op = true → h.ctx = j.submitter → j.before ≤ h.id)
  (nobody : (clusterAt t (vertOf t.cur)).nexters = [])
include queued unfenced nobody

theorem offerJobs_awaited : offerJobs (jobAwaited t) (vertOf t.cur) 8 = jobHanded (jobAwaited t) (vertOf t.cur) t.cur j.seq := by
  refine offerJobs_one (u := jobAwaited t) (l := l) ?_ ?_ ?_ queued (fun h hh => unfenced h hh) 7
  · rw [jobAwaited, clusterAt_modCluster_self]
    change (clusterAt t (vertOf t.cur)).nexters.filter _ ++ _ = _
    rw [nobody]
    rfl
  · rw [jobAwaited, ctxOf_modCluster, ctxOf_modCtx_self]
  · rw [jobAwaited, clusterAt_modCluster_self]
    exact first

end

theorem jobAwaited_ctx (t : State) (e : Nat) : (ctxOf (jobAwaited t) e).regs = (ctxOf t e).regs ∧ (ctxOf (jobAwaited t) e).pc = (ctxOf t e).pc := by
  rw [jobAwaited, ctxOf_modCluster, ctxOf_modCtx]
  split
  case isTrue same => rw [same]; exact ⟨rfl, rfl⟩
  case isFalse => exact ⟨rfl, rfl⟩

theorem jobHanded_ctx (u : State) (v c seq e : Nat) : (ctxOf (jobHanded u v c seq) e).regs = (ctxOf u e).regs ∧ (ctxOf (jobHanded u v c seq) e).pc = (ctxOf u e).pc := by
  rw [jobHanded, ctxOf_modCtx, ctxOf_modCluster, ctxOf_modCluster]
  split
  case isTrue same => rw [same]; exact ⟨rfl, rfl⟩
  case isFalse => exact ⟨rfl, rfl⟩

theorem jobHanded_acts {s t : State} (h : Acts s t []) (seq : Nat) : Acts s (jobHanded (jobAwaited t) (vertOf t.cur) t.cur seq) [] := by
  have cur := jobHanded_cur t seq
  refine h.same cur (fun e => (jobHanded_ctx _ _ _ _ e).1.trans (jobAwaited_ctx t e).1) ((jobHanded_ctx _ _ _ _ _).2.trans (jobAwaited_ctx t _).2) ?_
  rw [jobHanded, ctxOf_modCtx_self, h.cur, h.run]

/-- What JNEXT leaves: the job is held, and its words stand in five registers (R337). -/
theorem jobTaken_spec {i : Instr} {s u : State} {d : Nat} (acts : Acts s u (List.range' d 5)) (mem : u.mem = s.mem) (pos : 0 < d) (j : Job) :
    pcOf (retire i (jobTaken u d j) (nextPc (jobTaken u d j))) = pcOf s + 8 ∧ MemKept s (retire i (jobTaken u d j) (nextPc (jobTaken u d j))) ∧
      (ctxOf (retire i (jobTaken u d j) (nextPc (jobTaken u d j))) s.cur).job = some j.id ∧
      rgs (retire i (jobTaken u d j) (nextPc (jobTaken u d j))) s.cur d 5 = [j.id.setWidth 64, j.entry, j.arg0, j.arg1, BitVec.ofNat 64 (agentOf u j.submitter)] := by
  have wakes := wakeStalls_wakes (modCtx (wgs u u.cur d [j.id.setWidth 64, j.entry, j.arg0, j.arg1, BitVec.ofNat 64 (agentOf u j.submitter)]) u.cur
    (fun x => { x with job := some j.id })) (vertOf u.cur) (fun _ w => w = .jobQueueFull)
  change WakesOnly _ (jobTaken u d j) at wakes
  rw [acts.cur] at wakes
  have wrote := (acts.wgs (r := d) [j.id.setWidth 64, j.entry, j.arg0, j.arg1, BitVec.ofNat 64 (agentOf u j.submitter)] (fun n hn =>
    List.mem_range'_1.mpr ⟨Nat.le_add_right _ _, Nat.add_lt_add_left hn _⟩)).modCtx (c := s.cur) (f := fun x => { x with job := some j.id }) (fun _ => ⟨rfl, rfl, rfl⟩)
  have final := wakes.acts wrote
  refine ⟨pcOf_retire final, fun a => memByte_congr ?_ a, ?_, ?_⟩
  · rw [retire_mem, wakes.mem, modCtx_mem, wgs_mem, mem]
  · rw [ctx_retire Ctx.job (fun _ => rfl) _ _ final.cur, wakes.ctx, ctxOf_modCtx_self]
  · have read (r : Nat) : rg (retire i (jobTaken u d j) (nextPc (jobTaken u d j))) s.cur r =
        rg (wgs u s.cur d [j.id.setWidth 64, j.entry, j.arg0, j.arg1, BitVec.ofNat 64 (agentOf u j.submitter)]) s.cur r := by
      have same := rg_retire i (jobTaken u d j) (nextPc (jobTaken u d j)) r
      rw [final.cur] at same
      rw [same, rg, wakes.ctx, ctxOf_modCtx_self, rg]
    rw [rgs]
    simp only [read]
    exact rgs_wgs s.cur _ u pos

/-- The job that its context ends, with the code that it is given unless it faulted before (R338). -/
def endedOf (o : OpE) (j : Job) : Job := { j with running := none, code := if j.code = 0 then o.imm.toNat % 256 else j.code }

/-- What JDONE leaves: the one job stands in the completion table. -/
def jobEnded (t : State) (o : OpE) (j : Job) : State :=
  modCtx (modCluster t (vertOf t.cur) (fun x => { x with jobs := [], completed := x.completed ++ [endedOf o j] })) t.cur (fun x => { x with job := none })

theorem jobEnded_acts {s t : State} (h : Acts s t []) (o : OpE) (j : Job) : Acts s (jobEnded t o j) [] := by
  unfold jobEnded
  refine Acts.modCtx ?_ ?_
  · exact h.ctxs rfl rfl
  · exact fun _ => ⟨rfl, rfl, rfl⟩

theorem modCluster_congr {t : State} {v : Nat} {f g : Cluster → Cluster} (h : f (clusterAt t v) = g (clusterAt t v)) : modCluster t v f = modCluster t v g := by
  rw [modCluster, h, modCluster]

/-- Settles O41: each job instruction by what it makes of the queue and of the completion table. -/
theorem jobs : Obligations.Jobs := by
  unfold Obligations.Jobs
  refine ⟨?job, ?jpoll, ?jwait, ?waits, ?jnext, ?jdone⟩
  case job =>
    intro o s hi free aligned room nobody
    obtain ⟨t, ht, rfl⟩ := job_body free aligned room nobody hi
    have acts : Acts s (jobGiven (beginIssue s) o) [o.d.toNat] := by
      rw [jobGiven, beginIssue_cur]
      exact (((jobQueued_acts (.of_looked hi.1 (beginIssue_looked s)) o).mono (List.nil_subset _)).wg _ (List.mem_singleton_self _)).modCtx (fun _ => ⟨rfl, rfl, rfl⟩)
    refine ⟨_, ht, proceeds_retire acts ?_, rg_retire_of acts ?_, newJob (beginIssue s) o, ?_, ?_, ?_, ?_, ?_, beginIssue_cur s, rfl⟩
    · rw [jobGiven, markCip, modCtx_mem, wg_mem]
      exact beginIssue_mem s
    · rw [jobGiven, markCip, beginIssue_cur, clusterAt_beginIssue]
      refine Eq.trans ?_ (rg_wg_self (jobQueued (beginIssue s) o) s.cur o.d.toNat _)
      rw [rg, ctxOf_modCtx_self]
      rfl
    · rw [cluster_retire Cluster.jobs (fun _ => rfl), jobGiven, markCip, clusterAt_modCtx, clusterAt_wg, jobQueued, beginIssue_cur, clusterAt_modCluster_self]
      exact congrArg (fun k => k.jobs ++ [newJob (beginIssue s) o]) (clusterAt_beginIssue s _)
    · rw [newJob, beginIssue_cur, clusterAt_beginIssue]
    all_goals simp only [newJob, beginIssue_cur, rg_beginIssue]
  case jpoll => exact fun o s hi settled => gives_polled hi (rfl : _ = execJpoll o s) (by rw [beginIssue_cur, rg_beginIssue]) settled
  case jwait =>
    intro o s hi settled ended
    refine gives_polled hi (rfl : _ = execJwait o s) ?_ settled
    rw [beginIssue_cur, rg_beginIssue, clusterAt_beginIssue]
    dsimp only
    split
    · rename_i j found
      exact absurd found (ended j)
    · rfl
  case waits =>
    intro o s j hi found
    have waits := gives_stalled hi (rfl : _ = execJwait o s) (w := .jobWait j.id) (u := beginIssue s) ?_ (beginIssue_cur s) (beginIssue_mem s)
      (beginIssue_regs s) (beginIssue_pc s _)
    · obtain ⟨t, ht, run, -, frame⟩ := waits
      exact ⟨t, ht, run, frame⟩
    · rw [beginIssue_cur, rg_beginIssue, clusterAt_beginIssue]
      dsimp only
      rw [found]
      rfl
  case jnext =>
    intro o s j l hi settled uncooked first queued unfenced small nobody pos fits
    have begun := beginIssue_looked s
    have gate := settle_ok begun settled
    have acts := (jobHanded_acts (.of_looked hi.1 begun) j.seq).mono (List.nil_subset (List.range' o.d.toNat 5))
    have uncooked' : (ctxOf (beginIssue s) (beginIssue s).cur).cooked = none := by
      rw [beginIssue_cur, begun.ctx]
      exact uncooked
    have given := offerJobs_awaited (t := beginIssue s) (j := j) (l := l) (by rw [beginIssue_cur, clusterAt_beginIssue, first]) queued
      (by rw [beginIssue_flights]; exact unfenced) (by rw [beginIssue_cur, clusterAt_beginIssue, nobody])
    have taken := takeJob_handed (t := beginIssue s) (j := j) (l := l) (by rw [beginIssue_cur, clusterAt_beginIssue, first]) small o.d.toNat
    have cooked : (ctxOf (jobHanded (jobAwaited (beginIssue s)) (vertOf (beginIssue s).cur) (beginIssue s).cur j.seq) (beginIssue s).cur).cooked =
        some (BitVec.ofNat 64 j.seq) := by rw [jobHanded, ctxOf_modCtx_self]
    refine gives_retire (u := jobTaken (jobHanded (jobAwaited (beginIssue s)) (vertOf (beginIssue s).cur) (beginIssue s).cur j.seq) o.d.toNat
      { j with running := some (beginIssue s).cur }) hi (rfl : _ = execJnext o s) ?_ ?_
    · simp only [uncooked', gate, ok_bind]
      change (match (ctxOf (offerJobs (jobAwaited (beginIssue s)) (vertOf (beginIssue s).cur) 8) (beginIssue s).cur).cooked with
        | some q => takeJob (offerJobs (jobAwaited (beginIssue s)) (vertOf (beginIssue s).cur) 8) o.d.toNat q.toNat
        | none => parkOn .jobQueueEmpty (offerJobs (jobAwaited (beginIssue s)) (vertOf (beginIssue s).cur) 8)) = _
      rw [given, cooked]
      exact taken
    · generalize handed : jobHanded (jobAwaited (beginIssue s)) (vertOf (beginIssue s).cur) (beginIssue s).cur j.seq = u at acts
      have mem : u.mem = s.mem := by rw [← handed, jobHanded_mem, beginIssue_mem]
      have device : u.device = s.device := by rw [← handed, jobHanded_device, beginIssue_device]
      obtain ⟨next, memory, job, words⟩ := jobTaken_spec (i := .jnext o) acts mem pos { j with running := some (beginIssue s).cur }
      refine ⟨next, memory, job, ?_⟩
      rw [words, agentOf, device, agentOf]
  case jdone =>
    intro o s j hi settled noTransfer only running room
    have begun := beginIssue_looked s
    have gate := settle_ok begun settled
    have idle : (clusterAt (beginIssue s) (vertOf s.cur)).transfers = [] := by rw [clusterAt_beginIssue, noTransfer]
    have mine : (clusterAt (beginIssue s) (vertOf s.cur)).jobs = [j] := by rw [clusterAt_beginIssue, only]
    have done : (clusterAt (beginIssue s) (vertOf s.cur)).completed = (clusterAt s (vertOf s.cur)).completed := by rw [clusterAt_beginIssue]
    have wakes := wakeStalls_wakes (jobEnded (beginIssue s) o j) (vertOf s.cur) (fun _ w => w = .jobWait ((rg s s.cur o.a.toNat).setWidth 16))
    generalize woken : wakeStalls (jobEnded (beginIssue s) o j) (vertOf s.cur) (fun _ w => w = .jobWait ((rg s s.cur o.a.toNat).setWidth 16)) = u at wakes
    have acts : Acts s u [] := wakes.acts (jobEnded_acts (.of_looked hi.1 begun) o j)
    refine gives_retire (u := u) hi (rfl : _ = execJdone o s) ?_ ⟨proceeds_retire acts ?_, ?_, ?_, ?_⟩
    · rw [← woken]
      simp only [beginIssue_cur, rg_beginIssue, idle, List.any_nil, Bool.false_eq_true, if_false, gate, ok_bind, mine]
      have clusters : modCluster (beginIssue s) (vertOf s.cur) (fun x => { x with
          jobs := x.jobs.filter (fun j => j.running ≠ some s.cur)
          completed := (x.completed ++ ([j].filter (fun j => j.running = some s.cur)).map (endedOf o)).drop
            (x.completed.length + (([j].filter (fun j => j.running = some s.cur)).map (endedOf o)).length - 64) }) =
          modCluster (beginIssue s) (vertOf s.cur) (fun x => { x with jobs := [], completed := x.completed ++ [endedOf o j] }) := by
        refine modCluster_congr ?_
        have ended : ([j].filter (fun j => j.running = some s.cur)).map (endedOf o) = [endedOf o j] := by simp [running]
        have short : (clusterAt (beginIssue s) (vertOf s.cur)).completed.length + [endedOf o j].length - 64 = 0 := by
          rw [done, List.length_singleton]
          omega
        rw [ended, short, mine]
        simp [running]
      rw [jobEnded, beginIssue_cur, ← clusters]
      rfl
    · rw [wakes.mem, jobEnded, modCtx_mem, modCluster_mem, beginIssue_mem]
    · rw [ctx_retire Ctx.job (fun _ => rfl) _ _ acts.cur, wakes.ctx, jobEnded, beginIssue_cur, ctxOf_modCtx_self]
    · rw [cluster_retire Cluster.jobs (fun _ => rfl), clusterAt_congr wakes.clusters, jobEnded, clusterAt_modCtx, beginIssue_cur, clusterAt_modCluster_self]
    · rw [cluster_retire Cluster.completed (fun _ => rfl), clusterAt_congr wakes.clusters, jobEnded, clusterAt_modCtx, beginIssue_cur, clusterAt_modCluster_self]
      exact congrArg (· ++ _) done

end Sys2Proof.Machine
end

