-- ==== Sys2Proof/Proofs/Transfers.lean ====
section
/-! SUPPORT. O42: an engine instruction starts its transfer, and waits for it unless it is part of a job. -/

namespace Sys2Proof.Machine

theorem lockGate_ok {s u : State} (looked : Looked s u) (free : FreeToAct s) : lockGate u = .ok () := by
  have gate := outputGate_ok looked free
  have settled : Machine.unsettled u u.cur = false := by rw [looked.cur, looked.unsettled, free.1]
  unfold outputGate at gate
  rwa [settled, if_neg Bool.false_ne_true] at gate

/-- The transfer that an engine instruction starts (R340). -/
def transferOf (u : State) (op : EngineOp) (barrier : Word) : Transfer :=
  { id := u.nextId, ctx := u.cur, pc := pcOf u, job := (ctxOf u u.cur).job, group := (ctxOf u u.cur).groupNo
    due := u.cycle + 2 * farthest u (vertOf u.cur) (opSpans u op ++ (if barrier = 0 then [] else [barrier])) + 6
    op := op, step := 0, idx := [], got := [], barrier := barrier, owed := [] }

/-- The cluster's engine with one transfer more. -/
def transferAdded (u : State) (op : EngineOp) (barrier : Word) : State :=
  modCluster { u with nextId := u.nextId + 1 } (vertOf u.cur) (fun x => { x with transfers := x.transfers ++ [transferOf u op barrier] })

section

variable {s u : State} (looked : Looked s u) (free : FreeToAct s) (op : EngineOp) (barrier : Word)
include looked free

theorem startTransfer_inJob (inJob : (ctxOf s s.cur).job.isSome = true) (sound : jobFaulted s s.cur = false) (same : u.clusters = s.clusters) :
    startTransfer u op barrier = .ok (transferAdded u op barrier) := by
  have job : (ctxOf u u.cur).job.isSome = true := by rw [looked.cur, looked.ctx]; exact inJob
  have good : jobFaulted u u.cur = false := by
    rw [looked.cur, jobFaulted, clusterAt_congr same]
    exact sound
  unfold startTransfer
  simp only [lockGate_ok looked free, ok_bind, job, if_true, settle_ok looked free.1, good, Bool.false_eq_true, if_false]
  rfl

theorem startTransfer_waits (noJob : (ctxOf s s.cur).job = none) (uncooked : (ctxOf s s.cur).cooked = none) :
    startTransfer u op barrier = .error (.park .transfer (transferAdded u op barrier)) := by
  have job : (ctxOf u u.cur).job.isSome = false := by rw [looked.cur, looked.ctx]; exact Option.isSome_eq_false_iff.mpr (by rw [Option.isNone_iff_eq_none]; exact noJob)
  have first : (ctxOf u u.cur).cooked.isSome = false := by rw [looked.cur, looked.ctx]; exact Option.isSome_eq_false_iff.mpr (by rw [Option.isNone_iff_eq_none]; exact uncooked)
  unfold startTransfer
  simp only [lockGate_ok looked free, ok_bind, job, first, settle_ok looked free.1, Bool.false_eq_true, if_false]
  rfl

theorem startTransfer_goesOn (noJob : (ctxOf s s.cur).job = none) (cooked : (ctxOf s s.cur).cooked ≠ none) : startTransfer u op barrier = .ok u := by
  have job : (ctxOf u u.cur).job.isSome = false := by rw [looked.cur, looked.ctx]; exact Option.isSome_eq_false_iff.mpr (by rw [Option.isNone_iff_eq_none]; exact noJob)
  have over_ : (ctxOf u u.cur).cooked.isSome = true := by rw [looked.cur, looked.ctx]; exact Option.isSome_iff_ne_none.mpr cooked
  unfold startTransfer
  simp only [lockGate_ok looked free, ok_bind, job, over_, Bool.false_eq_true, if_false, if_true]

end

/-- An engine instruction whose operands are aligned starts its transfer (R341 to R345). -/
def StartsTransfer (i : Instr) (s : State) (op : EngineOp) (barrier : Word) : Prop :=
  ∃ body : State → Res State, exec i s = runSeq i s body ∧ body (beginIssue s) = startTransfer (beginIssue s) op barrier

/-- Settles O42: every engine instruction starts the transfer of its operands, and what then happens hangs on the job alone. -/
theorem transfers : Obligations.Transfers := by
  unfold Obligations.Transfers
  intro o s i ok op barrier
  dsimp only
  intro hk hi aligned free
  have begun := beginIssue_looked s
  have starts : StartsTransfer i s op barrier := by
    have core (x : Nat) : bits x 6 4 = x / 16 % 8 := by rw [bits, Nat.shiftRight_eq_div_pow]; rfl
    have bit (x : BitVec 16) (n : Nat) : nbit x.toNat n = x.getLsbD n := rfl
    simp only [List.mem_cons, Prod.mk.injEq, List.not_mem_nil, or_false] at hk
    obtain ⟨rfl, rfl, rfl, rfl⟩ | ⟨rfl, rfl, rfl, rfl⟩ | ⟨rfl, rfl, rfl, rfl⟩ | ⟨rfl, rfl, rfl, rfl⟩ | ⟨rfl, rfl, rfl, rfl⟩ | ⟨rfl, rfl, rfl, rfl⟩ := hk
    all_goals rw [decide_eq_true_eq] at aligned
    · refine ⟨_, (rfl : _ = execTload o s), ?_⟩
      simp only [beginIssue_cur, rg_beginIssue, aligned, ne_eq, not_true_eq_false, if_false]
    · obtain ⟨a, b, n, some_⟩ := aligned
      refine ⟨_, (rfl : _ = execBulk o s), ?_⟩
      simp only [beginIssue_cur, rg_beginIssue, a, b, n, some_, ne_eq, not_true_eq_false, if_false, bit]
    · obtain ⟨a, b, x⟩ := aligned
      refine ⟨_, (rfl : _ = execGather o s), ?_⟩
      have dest : (!o.imm.getLsbD 15 && decide ((rg s s.cur o.a.toNat).toNat % 64 ≠ 0)) = false := by
        obtain a | a := a <;> simp [a]
      simp only [beginIssue_cur, rg_beginIssue, bit, dest, b, x, core, ne_eq, not_true_eq_false, Bool.false_eq_true, if_false]
    · obtain ⟨a, b, x⟩ := aligned
      refine ⟨_, (rfl : _ = execScatter o s), ?_⟩
      simp only [beginIssue_cur, rg_beginIssue, a, b, x, ne_eq, not_true_eq_false, if_false]
    · obtain ⟨b, x⟩ := aligned
      refine ⟨_, (rfl : _ = execRgather o s), ?_⟩
      simp only [beginIssue_cur, rg_beginIssue, b, x, ne_eq, not_true_eq_false, if_false]
    · refine ⟨_, (rfl : _ = execQpush o s), ?_⟩
      simp only [beginIssue_cur, rg_beginIssue, aligned, ne_eq, not_true_eq_false, if_false, core, bit]
  obtain ⟨body, he, hb⟩ := starts
  have same := beginIssue_clusters s
  have acts : Acts s (transferAdded (beginIssue s) op barrier) [] := (Acts.of_looked hi.1 begun).ctxs rfl rfl
  have listed : (clusterAt (transferAdded (beginIssue s) op barrier) (vertOf s.cur)).transfers =
      (clusterAt s (vertOf s.cur)).transfers ++ [transferOf (beginIssue s) op barrier] := by
    rw [transferAdded, beginIssue_cur, clusterAt_modCluster_self]
    exact congrArg (fun k => k.transfers ++ [transferOf (beginIssue s) op barrier]) (clusterAt_beginIssue s _)
  have job : (transferOf (beginIssue s) op barrier).job = (ctxOf s s.cur).job := by rw [transferOf, beginIssue_cur, begun.ctx]
  refine ⟨fun inJob sound => ?_, fun noJob uncooked => ?_, fun noJob cooked => ?_⟩
  · refine gives_retire hi he (hb.trans (startTransfer_inJob begun free op barrier inJob sound same)) ⟨proceeds_retire acts (beginIssue_mem s),
      transferOf (beginIssue s) op barrier, ?_, rfl, beginIssue_cur s, job, rfl, rfl⟩
    rw [cluster_retire Cluster.transfers (fun _ => rfl), listed]
  · have waits := hb.trans (startTransfer_waits begun free op barrier noJob uncooked)
    obtain ⟨t, ht, run, -, frame⟩ := gives_stalled hi he waits acts.cur (beginIssue_mem s) (beginIssue_regs s) (beginIssue_pc s _)
    refine ⟨t, ht, run, frame, transferOf (beginIssue s) op barrier, ?_, rfl, job.trans noJob⟩
    obtain rfl := Host.Outcome.next.inj (ht.symm.trans (he.trans (runSeq_park hi.2 waits)))
    rw [clusterAt_modCtx, listed]
  · exact gives_retire hi he (hb.trans (startTransfer_goesOn begun free op barrier noJob cooked)) (proceeds_retire (.of_looked hi.1 begun) (beginIssue_mem s))

end Sys2Proof.Machine
end

