-- ==== Sys2Proof/Proofs/CacheLines.lean ====
section
/-! SUPPORT. What writing lines of a core's cache back, and dropping them, leaves alone (R97, R284). -/

namespace Sys2Proof.Machine

/-- A state that differs in lines of the caches of cores, and in memory and what is kept at its slices. -/
structure LinesOnly (s t : State) : Prop where
  only : t = { s with mem := t.mem, poisoned := t.poisoned, statPoison := t.statPoison, stamps := t.stamps, dies := t.dies, slices := t.slices, cores := t.cores }
  core : ∀ k, coreAt t k = { coreAt s k with dcache := (coreAt t k).dcache }

namespace LinesOnly

theorem refl (s : State) : LinesOnly s s := ⟨rfl, fun _ => rfl⟩

theorem trans {s t u : State} (h : LinesOnly s t) (k : LinesOnly t u) : LinesOnly s u where
  only := by rw [k.only, h.only]
  core c := by rw [k.core c, h.core c]

theorem foldl {β : Type} {f : State → β → State} (hf : ∀ t x, LinesOnly t (f t x)) (l : List β) (s : State) : LinesOnly s (l.foldl f s) :=
  foldl_keeps (P := fun t => LinesOnly s t) (fun t x h => h.trans (hf t x)) l (.refl s)

theorem of_placed {s t : State} (h : PlacedOnly s t) : LinesOnly s t where
  only := by rw [h.rest]
  core k := by rw [coreAt, h.rest]; rfl

theorem setLine (s : State) (k l : Nat) (x : Option Line) : LinesOnly s (setLine s k l x) where
  only := rfl
  core j := by
    rw [Machine.setLine, coreAt_modCore]
    split
    case isTrue same => rw [same]
    case isFalse => rfl

variable {s t : State} (h : LinesOnly s t)
include h

theorem cur : t.cur = s.cur := by rw [h.only]
theorem ctxs : t.ctxs = s.ctxs := by rw [h.only]
theorem flights : t.flights = s.flights := by rw [h.only]
theorem nextId : t.nextId = s.nextId := by rw [h.only]
theorem ctx (c : Nat) : ctxOf t c = ctxOf s c := by rw [ctxOf, h.ctxs, ctxOf]
theorem acts {r : State} {gs : List Nat} (ha : Acts r s gs) : Acts r t gs := ha.ctxs h.cur h.ctxs

end LinesOnly

theorem poisonSector_lines (s : State) (pa : Nat) : LinesOnly s (poisonSector s pa) := by
  unfold poisonSector
  split
  · exact .refl s
  · exact ⟨rfl, fun _ => rfl⟩

theorem writeBackLine_lines (s : State) (k l : Nat) : LinesOnly s (writeBackLine s k l) := by
  unfold writeBackLine
  split
  case h_1 => exact .refl s
  case h_2 x _ =>
    split
    · exact .refl s
    · split
      · exact (poisonSector_lines s _).trans (.setLine _ _ _ _)
      · have placed : LinesOnly s (performWrite (touchL2 s (x.home % 2048) (32 * l) 32 (x.home / 2048) true) (32 * l) (bytesOf x.data.toNat 32)) :=
          .of_placed ((touchL2_placed _ _ _ _ _ _).trans (performWrite_placed _ _ _))
        dsimp only
        refine LinesOnly.trans ?_ (.setLine _ _ _ _)
        split
        · exact placed.trans ⟨rfl, fun _ => rfl⟩
        · exact placed

theorem ousterLine_lines (s : State) (k l : Nat) : LinesOnly s (ousterLine s k l) := (writeBackLine_lines s k l).trans (.setLine _ _ _ _)

/-- What an access on path 1 makes of the lines of its span (R97). -/
theorem clearPath_lines (s : State) (k : Nat) (op : SliceOp) : LinesOnly s (clearPath s k op) := by
  refine .foldl (fun t p => .foldl (fun u l => ?_) _ t) _ s
  split
  · split
    · exact .refl u
    · exact ousterLine_lines u k l
  · exact .refl u

/-- An access leaves behind what its path makes of the cache: the context goes on. -/
theorem moves_sends_clear {i : Instr} {s u : State} (hr : (ctxOf s s.cur).run = .ready) (looked : Looked s u) {op : SliceOp} (own : remoteRef op = none)
    (path : Nat) (ordered posted : Bool) (home extra : Nat) (ea : Word) :
    let t := retire i (sendClear u s.cur path ordered posted home op extra ea) (nextPc (sendClear u s.cur path ordered posted home op extra ea))
    Moves s t [] ∧ Sends s t path ordered posted (home % 2048) op := by
  have lines := clearPath_lines u (coreOf s.cur) op
  have acts : Acts s (sendClear u s.cur path ordered posted home op extra ea) [] := (lines.acts (.of_looked hr looked)).ctxs rfl rfl
  refine ⟨moves_retire acts, ?_⟩
  have cur : (clearPath u (coreOf s.cur) op).cur = s.cur := lines.cur.trans looked.cur
  have sent := sends_retire (s := s) cur i (nextPc (sendClear u s.cur path ordered posted home op extra ea)) (lines.flights.trans looked.flights)
    (lines.nextId.trans looked.nextId) own path ordered posted home (extra + clearCost u (coreOf s.cur) op) ea false
  rw [cur] at sent
  exact sent

/-- The same, at the end of an instruction. -/
theorem gives_sends_clear {i : Instr} {s u : State} {body : State → Res State} (hi : Issues i s) (he : exec i s = runSeq i s body) (looked : Looked s u)
    {op : SliceOp} (own : remoteRef op = none) {path : Nat} {ordered posted : Bool} {home extra : Nat} {ea : Word}
    (hb : body (beginIssue s) = .ok (sendClear u s.cur path ordered posted home op extra ea)) :
    Gives i s (fun t => Moves s t [] ∧ Sends s t path ordered posted (home % 2048) op) :=
  gives_retire hi he hb (moves_sends_clear hi.1 looked own path ordered posted home extra ea)

end Sys2Proof.Machine
end

