-- ==== Sys2Proof/Proofs/BarriersAndBranchBits.lean ====
section
/-! SUPPORT. O43: BARI and WAITB on their way to the barrier's slice, and the queues of branch bits. -/

namespace Sys2Proof.Machine

/-- Where an instruction goes that changed what `Acts` says, and its frame. -/
theorem acts_retire {i : Instr} {s u : State} {gs : List Nat} (h : Acts s u gs) (mem : u.mem = s.mem) (npc : Word) :
    pcOf (retire i u npc) = npc ∧ RegFrame s (retire i u npc) gs [] := by
  refine ⟨?_, regFrame_retire h.cur mem h.g (fun r _ => h.p r) h.others⟩
  have pc := retire_pc i u npc (by rw [h.cur, h.run])
  rw [pcOf, retire_cur, pc]

/-! ### Queues of branch bits -/

theorem holdParked_cores (u : State) (k : Nat) (w : Stall) : (holdParked u k w).cores = u.cores := by
  unfold holdParked
  refine foldl_keeps (P := fun t => t.cores = u.cores) (fun t i same => ?_) _ rfl
  exact same

section

variable (u : State) (k : Nat) (up : Bool) (l : List Bool)

/-- What setting a queue of branch bits changes: the queue, and when the contexts parked on it may go on (R140). -/
theorem setBoq_acts {s : State} {gs : List Nat} (h : Acts s u gs) : Acts s (setBoq u k up l) gs := by
  have set := h.modCore k (fun y => if up then { y with boqToAccess := l } else { y with boqFromAccess := l })
  unfold setBoq
  dsimp only
  split <;> split
  · exact (holdParked_pops _ _ _).acts ((holdParked_pops _ _ _).acts set)
  · exact (holdParked_pops _ _ _).acts set
  · exact (holdParked_pops _ _ _).acts set
  · exact set

theorem setBoq_mem : (setBoq u k up l).mem = u.mem := by
  unfold setBoq
  dsimp only
  split <;> split
  · rw [(holdParked_pops _ _ _).mem, (holdParked_pops _ _ _).mem, modCore_mem]
  · rw [(holdParked_pops _ _ _).mem, modCore_mem]
  · rw [(holdParked_pops _ _ _).mem, modCore_mem]
  · rw [modCore_mem]

theorem coreAt_setBoq : coreAt (setBoq u k up l) k = if up then { coreAt u k with boqToAccess := l } else { coreAt u k with boqFromAccess := l } := by
  have cores : (setBoq u k up l).cores = (modCore u k (fun y => if up then { y with boqToAccess := l } else { y with boqFromAccess := l })).cores := by
    unfold setBoq
    dsimp only
    split <;> split <;> simp only [holdParked_cores]
  rw [coreAt, cores, ← coreAt, coreAt_modCore_self]

end

/-- BROQ: the oldest bit decides whether it transfers (R347). -/
def broqBody (o : OpE) (t : State) : Res (State × Word) := do
  let k := boqCore t.cur (o.c.toNat % 8)
  let up := !(isExecute (coreOf t.cur))
  settle t
  match boqOf t k up with
  | [] => boqStop t k (.branchPop k)
  | b :: r =>
    if b then transfer t (pcOf t + (o.imm.signExtend 64 <<< 3)) (markCip (setBoq t k up r) t.cur)
    else .ok (markCip (setBoq t k up r) t.cur, nextPc (markCip (setBoq t k up r) t.cur))

theorem exec_broq (o : OpE) (s : State) : exec (.broq o) s = run (.broq o) s (broqBody o) := rfl

/-- Settles O43: what leaves for the barrier's slice, and a queue of branch bits that has room, or an entry, or none. -/
theorem barriersAndBranchBits : Obligations.BarriersAndBranchBits := by
  unfold Obligations.BarriersAndBranchBits
  refine ⟨?bari, ?woken, ?waitb, ?boqp, ?broq, ?empty⟩
  case bari =>
    intro o s u w va pa leaf m hi free aligned translated checked
    have looked := ((beginIssue_looked s).trans (translate_looked translated)).trans (tokenCheck_looked checked)
    have sent := gives_sends_clear hi (rfl : _ = execBari o s) looked (op := .bari pa (rg s s.cur o.b.toNat)) rfl (path := 1) (ordered := true) (posted := false)
      (home := leafHome leaf pa) (extra := 0) (ea := rg s s.cur o.a.toNat) ?_
    · rw [leafHome_slice] at sent
      exact sent
    · simp only [beginIssue_cur, rg_beginIssue, aligned, ne_eq, not_true_eq_false, if_false, translated, ok_bind, checked, outputGate_ok looked free, looked.rg]
  case woken =>
    intro o s p hi cooked own
    refine ⟨_, (rfl : _ = execWaitb o s).trans (runSeq_ok hi.2 (t := wg (beginIssue s) s.cur o.d.toNat p) ?_), writes_retire hi.1 ?_⟩
    · have cooked' : (ctxOf (beginIssue s) s.cur).cooked = some p := by rw [(beginIssue_looked s).ctx]; exact cooked
      simp only [beginIssue_cur, rg_beginIssue, cooked', beginIssue_device, own, decide_true]
    · rw [nextPc, pcOf, wg_cur, beginIssue_cur, wg_ctx, beginIssue_pc, pcOf]
  case waitb =>
    intro o s u va pa leaf hi uncooked alone translated
    have looked := (beginIssue_looked s).trans (translate_looked translated)
    have uncooked' : (ctxOf (beginIssue s) s.cur).cooked = none := by rw [(beginIssue_looked s).ctx]; exact uncooked
    refine ⟨_, (rfl : _ = execWaitb o s).trans (runSeq_park hi.2 (w := .barrier pa)
      (t := sendFlight u s.cur 1 true false (leafHome leaf pa) (.waitb pa o.d.toNat) 0 (rg s s.cur o.a.toNat)) ?_), ?_, ?_⟩
    · simp only [beginIssue_cur, rg_beginIssue, uncooked', translated, ok_bind]
      rw [looked.flights]
      split
      case isTrue out =>
        obtain ⟨f, hf, mine⟩ := List.any_eq_true.mp out
        simp only [Bool.and_eq_true, decide_eq_true_eq] at mine
        have other := List.all_eq_true.mp alone f hf
        exact absurd mine.1 (of_decide_eq_true other)
      case isFalse => rfl
    · rw [sendFlight_cur, looked.cur, ctxOf_modCtx_self]
    · rw [Sends, modCtx_flights, sendFlight, ← looked.flights, ← looked.nextId, ← leafHome_slice]
      exact ⟨_, rfl, rfl, rfl, rfl, rfl, rfl, rfl, rfl, rfl⟩
  case boqp =>
    intro o s hi free execute room
    have begun := beginIssue_looked s
    have toAccess : (coreAt (beginIssue s) (coreOf s.cur)).boqToAccess = (coreAt s (coreOf s.cur)).boqToAccess := by rw [begun.core]
    have acts : Acts s (markCip (setBoq (beginIssue s) (coreOf s.cur) true
        ((coreAt s (coreOf s.cur)).boqToAccess ++ [decide (rg s s.cur o.a.toNat ≠ 0)])) s.cur) [] :=
      (setBoq_acts _ _ _ _ (.of_looked hi.1 begun)).modCtx (fun _ => ⟨rfl, rfl, rfl⟩)
    refine gives_retire hi (rfl : _ = execBoqp o s) ?_ ⟨proceeds_retire acts ?_, ?_⟩
    · have room' : ¬ 32 ≤ (boqOf (beginIssue s) (coreOf s.cur) true).length := by
        rw [boqOf, if_pos rfl, toAccess]
        omega
      simp only [beginIssue_cur, rg_beginIssue, boqCore, execute, if_true, outputGate_ok begun free, ok_bind, room', if_false]
      rw [boqOf, if_pos rfl, toAccess]
    · rw [markCip, modCtx_mem, setBoq_mem, beginIssue_mem]
    · rw [core_retire Core.boqToAccess (fun _ => rfl), markCip, coreAt_modCtx, coreAt_setBoq]
      rfl
  case broq =>
    intro o s b l hi settled execute entry target
    have begun := beginIssue_looked s
    have acts : Acts s (markCip (setBoq (beginIssue s) (coreOf s.cur) false l) s.cur) [] :=
      (setBoq_acts _ _ _ _ (.of_looked hi.1 begun)).modCtx (fun _ => ⟨rfl, rfl, rfl⟩)
    have ok : broqBody o (beginIssue s) = .ok (markCip (setBoq (beginIssue s) (coreOf s.cur) false l) s.cur,
        if b then pcOf s + o.imm.signExtend 64 * 8 else pcOf s + 8) := by
      have queue : boqOf (beginIssue s) (coreOf s.cur) false = b :: l := by
        rw [boqOf, begun.core]
        exact entry
      have shifted : pcOf (beginIssue s) + (o.imm.signExtend 64 <<< 3) = pcOf s + o.imm.signExtend 64 * 8 := by
        rw [pcOf_beginIssue, BitVec.shiftLeft_eq_mul_twoPow]
        rfl
      have next : nextPc (markCip (setBoq (beginIssue s) (coreOf s.cur) false l) s.cur) = pcOf s + 8 := by
        rw [nextPc, pcOf, acts.cur, acts.pc, pcOf]
      unfold broqBody
      simp only [beginIssue_cur, boqCore, execute, if_true, Bool.not_true, settle_ok begun settled, ok_bind, queue, shifted, next]
      cases b with
      | true => exact transfer_ok _ target
      | false => rfl
    obtain ⟨next, frame⟩ := acts_retire (i := .broq o) acts (by rw [markCip, modCtx_mem, setBoq_mem, beginIssue_mem])
      (if b then pcOf s + o.imm.signExtend 64 * 8 else pcOf s + 8)
    refine ⟨_, (rfl : _ = execBroq o s).trans (run_ok hi.2 ok), next, frame, ?_⟩
    rw [core_retire Core.boqFromAccess (fun _ => rfl), markCip, coreAt_modCtx, coreAt_setBoq]
    rfl
  case empty =>
    intro o s hi settled execute none_ live there
    have begun := beginIssue_looked s
    have ok : broqBody o (beginIssue s) = .error (.park (.branchPop (coreOf s.cur)) (beginIssue s)) := by
      have queue : boqOf (beginIssue s) (coreOf s.cur) false = [] := by
        rw [boqOf, begun.core]
        exact none_
      have killed : (coreAt (beginIssue s) (accessOf (coreOf s.cur))).killed = false := by rw [begun.core]; exact live
      have lost : (coreAt (beginIssue s) (coreOf s.cur)).queuesLost.contains branchPort = false := by rw [begun.core]; exact there
      unfold broqBody
      simp only [beginIssue_cur, boqCore, execute, if_true, Bool.not_true, settle_ok begun settled, ok_bind, queue, boqStop, killed, lost, Bool.or_self,
        Bool.false_eq_true, if_false]
      rfl
    exact gives_stalled hi (body := fun _ => .error (.park (.branchPop (coreOf s.cur)) (beginIssue s)))
      (((exec_broq o s).trans (run_park hi.2 ok)).trans (runSeq_park hi.2 rfl).symm) rfl (beginIssue_cur s) (beginIssue_mem s) (beginIssue_regs s) (beginIssue_pc s _)

end Sys2Proof.Machine
end

