-- ==== Sys2Proof/Proofs/SliceInstructions.lean ====
section
/-! SUPPORT. O29: stores, slice operations, conditional writes and sums on their way to the home slice of their address. -/

namespace Sys2Proof.Machine

/-! ### Targets -/

theorem trapAt_ne_ok {α : Type} {code : Nat} {a : Word} {s : State} {x : α} : (trapAt code a s : Res α) ≠ .ok x := by
  intro h
  cases h

/-- A part of a body that ended well, and the rest of it. -/
theorem bind_ok {α β : Type} {x : Res α} {f : α → Res β} {y : β} (h : (x >>= f) = .ok y) : ∃ a, x = .ok a ∧ f a = .ok y := by
  cases x with
  | error e => cases h
  | ok a => exact ⟨a, rfl, h⟩

/-- A target in memory is the translation of an aligned address, checked for a slice operation (R237, R238). -/
theorem sliceTarget_phys {s u : State} {ea : Word} {n va pa : Nat} {leaf : Word} (h : sliceTarget s ea n = .ok (.phys va pa leaf, u)) :
    ∃ v m, translate s ea .wr = .ok (.phys va pa leaf, v) ∧ tokenCheck v ea .sliceop 1 = .ok (m, u) := by
  unfold sliceTarget at h
  split at h
  · exact absurd h trapAt_ne_ok
  · obtain ⟨⟨tgt, v⟩, translated, rest⟩ := bind_ok h
    cases tgt with
    | phys a b l =>
      obtain ⟨⟨m, w⟩, checked, last⟩ := bind_ok rest
      cases last
      exact ⟨v, m, translated, checked⟩
    | remote r =>
      obtain ⟨_, _, last⟩ := bind_ok rest
      cases last
    | facet f b => exact absurd rest trapAt_ne_ok
    | scratch k b => exact absurd rest trapAt_ne_ok

theorem sliceTarget_looked {s u : State} {ea : Word} {n va pa : Nat} {leaf : Word} (h : sliceTarget s ea n = .ok (.phys va pa leaf, u)) : Looked s u := by
  obtain ⟨v, m, translated, checked⟩ := sliceTarget_phys h
  exact (translate_looked translated).trans (tokenCheck_looked checked)

/-- What translates to memory is of this device. -/
theorem translate_phys_own {s u : State} {ea : Word} {p : Perm} {va pa : Nat} {leaf : Word} (h : translate s ea p = .ok (.phys va pa leaf, u)) :
    ea.toNat / 2 ^ 53 = s.device := by
  by_contra abroad
  unfold translate at h
  simp only [ne_eq, abroad, not_false_eq_true, if_true] at h
  split at h
  · exact absurd h trapAt_ne_ok
  · cases h

theorem cmlsTargets_looked (l : List Nat) : ∀ {s u : State} {a : Nat} {ts : List (Nat × Nat × Word)}, cmlsTargets s a l = .ok (ts, u) → Looked s u := by
  induction l with
  | nil =>
    intro s u a ts h
    cases h
    exact .refl s
  | cons j l ih =>
    intro s u a ts h
    unfold cmlsTargets at h
    dsimp only at h
    split at h
    · exact absurd h trapAt_ne_ok
    · obtain ⟨⟨tgt, v⟩, translated, rest⟩ := bind_ok h
      cases tgt with
      | phys x b leaf =>
        obtain ⟨⟨m, w⟩, checked, rest⟩ := bind_ok rest
        obtain ⟨⟨r, y⟩, others, last⟩ := bind_ok rest
        cases last
        exact ((translate_looked translated).trans (tokenCheck_looked checked)).trans (ih others)
      | remote r => exact absurd rest trapAt_ne_ok
      | facet f b => exact absurd rest trapAt_ne_ok
      | scratch k b => exact absurd rest trapAt_ne_ok

/-! ### Posted accesses -/

section

variable {s u : State} (looked : Looked s u)
include looked

theorem lineOut_looked (k : Nat) (ls : List Nat) : lineOut u k ls = lineOut s k ls := by rw [lineOut, looked.flights, lineOut]

theorem pathClear_ok {op : SliceOp} (free : LinesFree s op) : pathClear u (coreOf s.cur) op = .ok () := by
  rw [pathClear, lineOut_looked looked, free]
  rfl

theorem postedCount_looked (k : Nat) : postedCount u k = postedCount s k := by rw [postedCount, looked.flights, postedCount]

variable (free : FreeToAct s)
include free

theorem post_outside (room : PostRoom s) (ordered : Bool) (va pa : Nat) (leaf : Word) {mk : Nat → SliceOp} (lines : LinesFree s (mk pa)) :
    post u (.phys va pa leaf) ordered mk = .ok (sendClear u s.cur 1 ordered true (leafHome leaf pa) (mk pa) 0) := by
  have few : ¬ 64 ≤ postedCount u (coreOf s.cur) := by
    rw [postedCount_looked looked]
    exact Nat.not_le.mpr room.2
  unfold post
  simp only [lockGate_ok looked free, ok_bind]
  rw [sendBuffer_outside looked.cur (by rw [looked.hmode, room.1]), postNow]
  simp only [looked.cur, pathClear_ok looked lines, few, if_false]

theorem post_inside (room : BufferRoom s) (ordered : Bool) (va pa : Nat) (leaf : Word) (mk : Nat → SliceOp) :
    post u (.phys va pa leaf) ordered mk = .ok (buffered u (.slice ordered (leafHome leaf pa) (mk pa))) := by
  unfold post
  simp only [lockGate_ok looked free, ok_bind]
  exact sendBuffer_inside looked.cur (looked.hmode _) (looked.sendBuf _) room _ _

end

/-! ### STS and STS.A -/

theorem readSlot_pops (t : State) (r : BitVec 6) : PopsOnly t (readSlot t r).2 := by
  unfold readSlot
  dsimp only
  split
  · exact .refl t
  · split
    · exact .refl t
    · dsimp only
      exact (setQIn_pops _ _ _ _).trans (modCtx_pops _ _ (fun _ => rfl))

/-- The region of an exclusive token that a store falls in (R114). -/
def ownedAt (u : State) (va : Nat) : Option Nat := if (tokenCovering u va).any (·.mode = .exclusive) then some va else none

/-- The notice that a posted store of an exclusive region gives (R114): at once outside handler mode, when the store leaves in it (R154). -/
def noticedBy (owned : Option Nat) (hmode : Bool) (t : State) : State :=
  match owned with
  | some va => if hmode then t else noticeStore t va
  | none => t

theorem noticeStore_only (t : State) (va : Nat) : noticeStore t va = { t with tokens := (noticeStore t va).tokens } := by
  unfold noticeStore
  split
  · split <;> rfl
  · rfl

theorem noticedBy_only (owned : Option Nat) (hmode : Bool) (t : State) : noticedBy owned hmode t = { t with tokens := (noticedBy owned hmode t).tokens } := by
  unfold noticedBy
  split
  · split
    · rfl
    · exact noticeStore_only _ _
  · rfl

/-- What a posted store leaves once it is on its way: the notice of the region, and the pop of its source. -/
def storedAfter (o : OpM) (owned : Option Nat) (hmode : Bool) (t : State) : State :=
  if o.width = 5 then (readSlot (noticedBy owned hmode t) o.d).2 else noticedBy owned hmode t

theorem storedAfter_acts {s t : State} {gs : List Nat} (h : Acts s t gs) (o : OpM) (owned : Option Nat) (hmode : Bool) :
    Acts s (storedAfter o owned hmode t) gs := by
  have noticed : Acts s (noticedBy owned hmode t) gs := h.ctxs (by rw [noticedBy_only]) (by rw [noticedBy_only])
  unfold storedAfter
  split
  · exact (readSlot_pops _ _).acts noticed
  · exact noticed

theorem storedAfter_rest (o : OpM) (owned : Option Nat) (hmode : Bool) (t : State) : (storedAfter o owned hmode t).flights = t.flights ∧
    ∀ c, (ctxOf (storedAfter o owned hmode t) c).sendBuf = (ctxOf t c).sendBuf := by
  have flights : (noticedBy owned hmode t).flights = t.flights := by rw [noticedBy_only]
  have ctx (c : Nat) : ctxOf (noticedBy owned hmode t) c = ctxOf t c := by rw [ctxOf, noticedBy_only, ctxOf]
  unfold storedAfter
  split
  · have pops := readSlot_pops (noticedBy owned hmode t) o.d
    exact ⟨pops.flights.trans flights, fun c => by rw [pops.ctx, ctx]⟩
  · exact ⟨flights, fun c => by rw [ctx]⟩

section

variable {s u : State} {o : OpM} {va pa : Nat} {leaf : Word} (free : FreeToAct s) (served : o.width = 5 → SourcesServed s [o.d])
  (target : sliceTarget (beginIssue s) (effAddr s s.cur o) (if o.width = 5 then 64 else 2 ^ o.width.toNat) = .ok (.phys va pa leaf, u))
include free served target

/-- The bytes that it stores. -/
def storeBytes (s : State) (o : OpM) : List Byte :=
  bytesOf (if o.width = 5 then (slotValue s [] o.d).toNat else (rg s s.cur o.d.toNat).toNat) (if o.width = 5 then 64 else 2 ^ o.width.toNat)

theorem postStore_posts (ordered : Bool) : postStore (beginIssue s) o ordered =
    (post u (.phys va pa leaf) ordered (fun pa => .write pa (storeBytes s o) (if (ctxOf s s.cur).hmode then ownedAt u va else none)) >>= fun t =>
      .ok (storedAfter o (ownedAt u va) (ctxOf t s.cur).hmode t)) := by
  have looked := (beginIssue_looked s).trans (sliceTarget_looked target)
  have own : (effAddr s s.cur o).toNat / 2 ^ 53 = (beginIssue s).device := by
    obtain ⟨v, m, translated, -⟩ := sliceTarget_phys target
    exact translate_phys_own translated
  have size : 2 ^ (if o.width = 5 then 6 else o.width.toNat) = if o.width = 5 then 64 else 2 ^ o.width.toNat := by split <;> rfl
  have addr : effAddr (beginIssue s) s.cur o = effAddr s s.cur o := by simp only [effAddr, rg_beginIssue]
  have regs : rg u s.cur o.d.toNat = rg s s.cur o.d.toNat := looked.rg _ _
  have mode : (ctxOf u s.cur).hmode = (ctxOf s s.cur).hmode := looked.hmode _
  unfold postStore
  by_cases wide : o.width = 5
  · obtain ⟨v, read, -⟩ := (Takes.nil u).readSlot o.d (fun port => by
      have enough := ((served wide).1 o.d (List.mem_singleton_self _) port).2
      rw [List.count_singleton_self] at enough
      rw [looked.cur, qInOf_looked looked, List.count_nil]
      exact enough)
    rw [slotValue_looked looked] at read
    simp only [wide, if_true] at target size
    simp only [beginIssue_cur, addr, own, ne_eq, not_true_eq_false, decide_false, Bool.and_false, Bool.false_eq_true, if_false, wide, if_true, size, target, ok_bind,
      settle_ok looked free.1, ite_self, portsServe_sources looked (served wide), read, mode, storeBytes, storedAfter, noticedBy, ownedAt] <;> rfl
  · simp only [wide, if_false] at target
    simp only [beginIssue_cur, addr, own, ne_eq, not_true_eq_false, decide_false, Bool.and_false, Bool.false_eq_true, if_false, wide, target, ok_bind,
      settle_ok looked free.1, ite_self, regs, mode, storeBytes, storedAfter, noticedBy, ownedAt] <;> rfl

end

/-- What the statement says of the region: a token of the exclusive mode covers the address. -/
theorem ownedAt_eq (u : State) (va : Nat) (d : Decidable (∃ e, tokenCovering u va = some e ∧ e.mode = .exclusive)) :
    @ite _ (∃ e, tokenCovering u va = some e ∧ e.mode = .exclusive) d (some va) none = ownedAt u va := by
  have iff : (∃ e, tokenCovering u va = some e ∧ e.mode = .exclusive) ↔ (tokenCovering u va).any (·.mode = .exclusive) = true := by
    rw [Option.any_eq_true]
    simp
  unfold ownedAt
  by_cases own : ∃ e, tokenCovering u va = some e ∧ e.mode = .exclusive
  · rw [if_pos own, if_pos (iff.mp own)]
  · rw [if_neg own, if_neg (fun h => own (iff.mpr h))]

/-! ### Flights and send buffers at the end -/

theorem sends_congr {s t w : State} {path : Nat} {ordered posted : Bool} {slice : Nat} {op : SliceOp} (same : w.flights = t.flights)
    (h : Sends s t path ordered posted slice op) : Sends s w path ordered posted slice op := by
  rw [Sends, same]
  exact h

theorem buffers_at {i : Instr} {s u : State} {e : Entry} {npc : Word} (cur : u.cur = s.cur) (h : (ctxOf u s.cur).sendBuf = (ctxOf s s.cur).sendBuf ++ [e]) :
    Buffers s (retire i u npc) e := by rw [Buffers, ctx_retire Ctx.sendBuf (fun _ => rfl) i npc cur, h]

theorem sendBuf_buffered {s u : State} (looked : Looked s u) (e : Entry) : (ctxOf (buffered u e) s.cur).sendBuf = (ctxOf s s.cur).sendBuf ++ [e] := by
  rw [buffered, looked.cur, ctxOf_modCtx_self, looked.sendBuf]

/-- An entry put into the send buffer: what `Moves` says. -/
theorem gives_moves_buffers {i : Instr} {s u : State} {body : State → Res State} {e : Entry} (hi : Issues i s) (he : exec i s = runSeq i s body) (looked : Looked s u)
    (hb : body (beginIssue s) = .ok (buffered u e)) : Gives i s (fun t => Moves s t [] ∧ Buffers s t e) :=
  gives_retire hi he hb ⟨moves_retire ((Acts.of_looked hi.1 looked).buffered e), buffers_at looked.cur (sendBuf_buffered looked e)⟩

/-- A posted store has left: what `Moves` and `Sends` say. -/
theorem stored_sent {i : Instr} {s u : State} (hr : (ctxOf s s.cur).run = .ready) (looked : Looked s u) (o : OpM) (owned : Option Nat) (hmode ordered : Bool)
    (home pa : Nat) (bs : List Byte) :
    let t := storedAfter o owned hmode (sendClear u s.cur 1 ordered true home (.write pa bs none) 0)
    Moves s (retire i t (nextPc t)) [] ∧ Sends s (retire i t (nextPc t)) 1 ordered true (home % 2048) (.write pa bs none) := by
  have lines := clearPath_lines u (coreOf s.cur) (.write pa bs none)
  have acts : Acts s (sendClear u s.cur 1 ordered true home (.write pa bs none) 0) [] := (lines.acts (.of_looked hr looked)).ctxs rfl rfl
  have sent := (moves_sends_clear (i := i) hr looked (op := .write pa bs none) rfl 1 ordered true home 0 0).2
  refine ⟨moves_retire (storedAfter_acts acts _ _ _), sends_congr ?_ sent⟩
  rw [retire_flights, retire_flights, (storedAfter_rest _ _ _ _).1]

/-! ### CMLS -/

/-- CMLS ended at the core with a code: nothing is tracked any more. -/
def endedWith (u : State) (c d r : Nat) : State := wg (modCtx u c (fun x => { x with track := [] })) c d (BitVec.ofNat 64 r)

theorem endedWith_cur (u : State) (c d r : Nat) : (endedWith u c d r).cur = u.cur := by rw [endedWith, wg_cur, modCtx_cur]
theorem endedWith_flights (u : State) (c d r : Nat) : (endedWith u c d r).flights = u.flights := by rw [endedWith, wg_flights]; rfl

theorem endedWith_retire {i : Instr} {s u : State} (hr : (ctxOf s s.cur).run = .ready) (looked : Looked s u) (d : BitVec 6) (r : Nat) :
    let t := retire i (endedWith u s.cur d.toNat r) (nextPc (endedWith u s.cur d.toNat r))
    Moves s t [d.toNat] ∧ rg t s.cur d.toNat = (if d = 0 then 0 else BitVec.ofNat 64 r) ∧ (ctxOf t s.cur).track = [] ∧ t.flights = s.flights := by
  have acts : Acts s (modCtx u s.cur (fun x => { x with track := [] })) [] := (Acts.of_looked hr looked).modCtx (fun _ => ⟨rfl, rfl, rfl⟩)
  refine ⟨moves_retire ((acts.mono (fun _ h => by cases h)).wg _ (List.mem_singleton_self _)), rg_retire_written _ _ _ _ looked.cur, ?_, ?_⟩
  · rw [ctx_retire Ctx.track (fun _ => rfl) i _ ((endedWith_cur _ _ _ _).trans looked.cur), endedWith, wg]
    split
    · rw [ctxOf_modCtx_self]
    · rw [ctxOf_modCtx_self, ctxOf_modCtx_self]
  · rw [retire_flights, endedWith_flights, looked.flights]

theorem trackBusy_looked {s u : State} (looked : Looked s u) (c : Nat) (cm : Bool) : trackBusy u c cm = trackBusy s c cm := by
  rw [trackBusy, looked.flights, trackBusy]

theorem track_looked {s u : State} (looked : Looked s u) (c : Nat) : (ctxOf u c).track = (ctxOf s c).track := by rw [looked.ctx]

/-! ### AGG -/

theorem aggNow_empty {s u : State} (looked : Looked s u) (unfenced : fenced s s.cur 1 = false) {pa : Nat} (lines : LinesFree s (.rmw pa 64 0 0 0 0))
    (empty : (coreAt s (coreOf s.cur)).agg = []) (home : Nat) (x : Word) :
    ∃ v, LinesOnly u v ∧ aggNow pa home x u = .ok (modCore v (coreOf s.cur) (fun y => { y with agg := [(pa, home, x, s.cycle + 256)] })) := by
  have none_ {v : State} (only : LinesOnly u v) : (coreAt v (coreOf s.cur)).agg = [] := by rw [only.core, looked.core, empty]
  have added {v : State} (only : LinesOnly u v) :
      aggAdd v s.cur pa home x = modCore v (coreOf s.cur) (fun y => { y with agg := [(pa, home, x, s.cycle + 256)] }) := by
    have cycle : v.cycle = s.cycle := by rw [only.only, looked.cycle]
    simp only [aggAdd, none_ only, List.any_nil, Bool.false_eq_true, if_false, List.length_nil, Nat.ofNat_pos, if_true, List.nil_append, cycle]
  have fits : aggFits u (coreOf s.cur) pa = true := by
    rw [aggFits, none_ (.refl u)]
    rfl
  unfold aggNow
  simp only [looked.cur, passFence_ok looked unfenced, ok_bind, fits, if_true]
  split
  · exact ⟨u, .refl u, congrArg Except.ok (added (.refl u))⟩
  · have only := clearPath_lines u (coreOf s.cur) (.rmw pa 64 0 0 0 0)
    refine ⟨_, only, ?_⟩
    rw [pathClear_ok looked lines, ok_bind, added only]

/-- Settles O29. -/
theorem sliceInstructions : Obligations.SliceInstructions := by
  unfold Obligations.SliceInstructions
  refine ⟨?store, ?slop, ?cmls, ?agg⟩
  case store =>
    intro o s u i ordered va pa leaf hk hi free served
    dsimp only
    intro target
    have looked := (beginIssue_looked s).trans (sliceTarget_looked target)
    have he : exec i s = runSeq i s (fun t => postStore t o ordered) := by
      simp only [List.mem_cons, Prod.mk.injEq, List.not_mem_nil, or_false] at hk
      obtain ⟨rfl, rfl⟩ | ⟨rfl, rfl⟩ := hk <;> rfl
    have posts := postStore_posts free served target ordered
    refine ⟨fun room lines => ?_, fun room => ?_⟩
    · simp only [room.1, Bool.false_eq_true, if_false] at posts
      rw [post_outside looked free room ordered va pa leaf (mk := fun pa => .write pa (storeBytes s o) none) lines, ok_bind] at posts
      rw [← leafHome_slice]
      exact gives_retire hi he posts (stored_sent hi.1 looked o (ownedAt u va) _ ordered (leafHome leaf pa) pa (storeBytes s o))
    · rw [post_inside looked free room ordered va pa leaf, ok_bind, room.1] at posts
      have acts := storedAfter_acts ((Acts.of_looked hi.1 looked).buffered (.slice ordered (leafHome leaf pa) (.write pa (storeBytes s o) (ownedAt u va)))) o (ownedAt u va)
      refine gives_retire hi he posts ⟨moves_retire (acts _), buffers_at (acts _).cur ?_⟩
      rw [if_pos rfl, (storedAfter_rest _ _ _ _).2, sendBuf_buffered looked, ownedAt_eq]
      rfl
  case slop =>
    intro o s u va pa leaf hi free
    dsimp only
    intro target
    have looked := (beginIssue_looked s).trans (sliceTarget_looked target)
    have base : baseAddr (beginIssue s) s.cur o = rg s s.cur o.a.toNat + o.offset.signExtend 64 := by rw [baseAddr, rg_beginIssue]
    refine ⟨fun zero room lines => ?_, fun zero room => ?_, fun some_ lines => ?_⟩
    · rw [← leafHome_slice]
      refine gives_sends_clear hi (rfl : _ = execSlop o s) looked rfl (extra := 0) (ea := 0) ?_
      have zeroNat : o.d.toNat = 0 := by rw [zero]; rfl
      simp only [beginIssue_cur, base, target, ok_bind, looked.rg, zeroNat, if_true]
      rw [zeroNat] at lines
      exact post_outside looked free room true va pa leaf lines
    · have zeroNat : o.d.toNat = 0 := by rw [zero]; rfl
      refine gives_moves_buffers hi (rfl : _ = execSlop o s) looked ?_
      simp only [beginIssue_cur, base, target, ok_bind, looked.rg, zeroNat, if_true]
      exact post_inside looked free room true va pa leaf _
    · rw [← leafHome_slice]
      have someNat : o.d.toNat ≠ 0 := fun h => some_ (BitVec.eq_of_toNat_eq h)
      refine gives_sends_clear hi (rfl : _ = execSlop o s) looked rfl (extra := 0) (ea := baseAddr u s.cur o) ?_
      simp only [beginIssue_cur, base, target, ok_bind, looked.rg, someNat, if_false, lockGate_ok looked free, pathClear_ok looked lines]
  case cmls =>
    intro o s u ts hi free unfenced busy targets
    have looked := (beginIssue_looked s).trans (cmlsTargets_looked _ targets)
    have gate := outputGate_ok looked free
    have idle : trackBusy u s.cur true = false := (trackBusy_looked looked _ _).trans busy
    have near (together : ∀ e ∈ ts, e.1 % 2048 = (ts.headD (0, 0, 0)).1 % 2048) : ts.any (fun e => e.1 % 2048 ≠ (ts.headD (0, 0, 0)).1 % 2048) = false := by
      rw [List.any_eq_false]
      exact fun e he => by rw [decide_eq_true_eq, not_not]; exact together e he
    refine ⟨fun apart => ?_, fun together untracked => ?_, fun together tracked lines => ?_⟩
    · refine gives_retire (u := endedWith u s.cur o.d.toNat 3) hi (rfl : _ = execCmls o s) ?_ (endedWith_retire hi.1 looked o.d 3)
      have apart_ : ts.any (fun e => e.1 % 2048 ≠ (ts.headD (0, 0, 0)).1 % 2048) = true := by
        simpa [List.any_eq_true] using apart
      simp only [beginIssue_cur, targets, ok_bind, gate, idle, Bool.false_eq_true, if_false, apart_, if_true, endedWith]
    · have strange : ts.any (fun e => !((ctxOf u s.cur).track.any (fun k => k.line = e.2.1 / 256))) = true := by
        obtain ⟨e, he, new⟩ := untracked
        rw [track_looked looked, List.any_eq_true]
        refine ⟨e, he, ?_⟩
        simpa using new
      refine gives_retire (u := endedWith u s.cur o.d.toNat 2) hi (rfl : _ = execCmls o s) ?_ (endedWith_retire hi.1 looked o.d 2)
      simp only [beginIssue_cur, targets, ok_bind, gate, idle, Bool.false_eq_true, if_false, near together, strange, if_true, endedWith]
    · have known : ts.any (fun e => !((ctxOf u s.cur).track.any (fun k => k.line = e.2.1 / 256))) = false := by
        rw [track_looked looked, List.any_eq_false]
        intro e he
        obtain ⟨k, mem, line⟩ := tracked e he
        simpa using ⟨k, mem, line⟩
      refine gives_sends_clear hi (rfl : _ = execCmls o s) looked rfl (extra := 2) (ea := 0) ?_
      simp only [beginIssue_cur, targets, ok_bind, gate, idle, Bool.false_eq_true, if_false, near together, known, pathClear_ok looked lines]
  case agg =>
    intro o s u va pa leaf hi free target
    have looked := (beginIssue_looked s).trans (sliceTarget_looked target)
    have base : baseAddr (beginIssue s) s.cur o = rg s s.cur o.a.toNat + o.offset.signExtend 64 := by rw [baseAddr, rg_beginIssue]
    have gate := outputGate_ok looked free
    refine ⟨fun outside unfenced lines empty => ?_, fun room => ?_⟩
    · obtain ⟨v, only, added⟩ := aggNow_empty looked unfenced lines empty (leafHome leaf pa) (rg s s.cur o.b.toNat)
      refine gives_retire hi (rfl : _ = execAgg o s) (u := modCore v (coreOf s.cur) (fun y => { y with agg := [(pa, leafHome leaf pa, rg s s.cur o.b.toNat, s.cycle + 256)] })) ?_
        ⟨moves_retire ((only.acts (.of_looked hi.1 looked)).modCore _ _), ?_, ?_⟩
      · simp only [beginIssue_cur, base, target, ok_bind, gate, looked.rg]
        rw [sendBuffer_outside looked.cur (by rw [looked.hmode, outside]), added]
      · rw [core_retire Core.agg (fun _ => rfl), coreAt_modCore_self]
      · rw [retire_flights]
        exact only.flights.trans looked.flights
    · refine gives_moves_buffers hi (rfl : _ = execAgg o s) looked ?_
      simp only [beginIssue_cur, base, target, ok_bind, gate, looked.rg]
      exact sendBuffer_inside looked.cur (looked.hmode _) (looked.sendBuf _) room _ _

end Sys2Proof.Machine
end

