-- ==== Sys2Proof/Proofs/AtSlices.lean ====
section
/-! SUPPORT. An access at its home slice: what asking for its sectors and giving its result leave alone (R97, R153, R161). -/

namespace Sys2Proof.Machine

/-! ### Sectors asked for -/

/-- A state that differs in what slices keep of lines, and in the selectors of dies. -/
structure SectorsOnly (s t : State) : Prop where
  only : t = { s with dies := t.dies, slices := t.slices }

namespace SectorsOnly

theorem refl (s : State) : SectorsOnly s s := ⟨rfl⟩
theorem trans {s t u : State} (h : SectorsOnly s t) (k : SectorsOnly t u) : SectorsOnly s u := ⟨by rw [k.only, h.only]⟩

variable {s t : State} (h : SectorsOnly s t)
include h

theorem mem : t.mem = s.mem := by rw [h.only]
theorem ctxs : t.ctxs = s.ctxs := by rw [h.only]
theorem cores : t.cores = s.cores := by rw [h.only]
theorem flights : t.flights = s.flights := by rw [h.only]
theorem stamps : t.stamps = s.stamps := by rw [h.only]
theorem cycle : t.cycle = s.cycle := by rw [h.only]
theorem cxlDown : t.cxlDown = s.cxlDown := by rw [h.only]
theorem ctx (c : Nat) : ctxOf t c = ctxOf s c := by rw [ctxOf, h.ctxs, ctxOf]
theorem core (k : Nat) : coreAt t k = coreAt s k := by rw [coreAt, h.cores, coreAt]
theorem rg (c r : Nat) : rg t c r = Machine.rg s c r := by rw [Machine.rg, h.ctx, Machine.rg]
theorem cxlGone (pa : Nat) : cxlGone t pa = Machine.cxlGone s pa := by rw [Machine.cxlGone, h.cxlDown, Machine.cxlGone]
theorem stampOf (pa : Nat) : stampOf t pa = Machine.stampOf s pa := by rw [Machine.stampOf, h.stamps, Machine.stampOf]
theorem kept : MemKept s t := memByte_congr h.mem
theorem readMem (pa n : Nat) : readMem t pa n = Machine.readMem s pa n := readMem_congr h.mem n pa

end SectorsOnly

theorem allocateL2_sectors (s : State) (slice line cls : Nat) : SectorsOnly s (allocateL2 s slice line cls) := ⟨rfl⟩
theorem modL2_sectors (s : State) (slice line : Nat) (f : L2Line → L2Line) : SectorsOnly s (modL2 s slice line f) := ⟨rfl⟩

theorem leaveMisses_sectors (s : State) (slice line : Nat) (who : Requester × BitVec 8) : SectorsOnly s (leaveMisses s slice line who) := by
  unfold leaveMisses
  dsimp only
  split
  · exact ⟨rfl⟩
  · exact .refl s

theorem reachL2_sectors (s : State) (who : Requester) (slice pa n cls : Nat) (write : Bool) : SectorsOnly s (reachL2 s who slice pa n cls write).2 := by
  unfold reachL2
  dsimp only
  split
  · exact .refl s
  · have made (b : Bool) : SectorsOnly s (if b then allocateL2 s slice (pa / 256) cls else s) := by
      split
      · exact allocateL2_sectors _ _ _ _
      · exact .refl s
    generalize (if write && pa % 32 = 0 && n % 32 = 0 then (0 : BitVec 8) else sectorMask pa n) = need
    split
    · exact made _
    · split
      · exact ((made _).trans (leaveMisses_sectors _ _ _ _)).trans (modL2_sectors _ _ _ _)
      · exact (made _).trans ⟨rfl⟩

theorem reachAll_sectors (s : State) (f : Flight Regs) : SectorsOnly s (reachAll s f).2 :=
  List.foldlRecOn (motive := fun a : Bool × State => SectorsOnly s a.2) (neededSpans s f) _ (SectorsOnly.refl s)
    (fun _ h _ _ => h.trans (reachL2_sectors _ _ _ _ _ _ _))

/-! ### Results given -/

theorem setLine_cores (s : State) (k l : Nat) (x : Option Line) : setLine s k l x = { s with cores := (setLine s k l x).cores } := rfl

/-- A state that differs from s in registers, times and flights of contexts, and in lines of caches and flags of clusters. -/
structure ResultOnly (s t : State) : Prop where
  only : t = { s with ctxs := t.ctxs, cores := t.cores, clusters := t.clusters, flights := t.flights }
  ctx : ∀ c, ctxOf t c = { ctxOf s c with regs := (ctxOf t c).regs, readyAt := (ctxOf t c).readyAt }
  core : ∀ k, coreAt t k = { coreAt s k with dcache := (coreAt t k).dcache }

namespace ResultOnly

theorem refl (s : State) : ResultOnly s s := ⟨rfl, fun _ => rfl, fun _ => rfl⟩

theorem trans {s t u : State} (h : ResultOnly s t) (k : ResultOnly t u) : ResultOnly s u where
  only := by rw [k.only, h.only]
  ctx c := by rw [k.ctx c, h.ctx c]
  core c := by rw [k.core c, h.core c]

variable {s t : State} (h : ResultOnly s t)
include h

theorem mem : t.mem = s.mem := by rw [h.only]
theorem stamps : t.stamps = s.stamps := by rw [h.only]
theorem kept : MemKept s t := memByte_congr h.mem
theorem readMem (pa n : Nat) : readMem t pa n = Machine.readMem s pa n := readMem_congr h.mem n pa
theorem stampOf (pa : Nat) : stampOf t pa = Machine.stampOf s pa := by rw [Machine.stampOf, h.stamps, Machine.stampOf]
theorem track (c : Nat) : (ctxOf t c).track = (ctxOf s c).track := by rw [h.ctx]
theorem killed (k : Nat) : (coreAt t k).killed = (coreAt s k).killed := by rw [h.core]

end ResultOnly

theorem setLine_result (s : State) (k l : Nat) (x : Option Line) : ResultOnly s (setLine s k l x) where
  only := rfl
  ctx _ := rfl
  core := (LinesOnly.setLine s k l x).core

theorem dropFlight_result (s : State) (id : Nat) : ResultOnly s (dropFlight s id) := ⟨rfl, fun _ => rfl, fun _ => rfl⟩

theorem showFlags_result (s : State) (c : Nat) : ResultOnly s (showFlags s c) where
  only := by
    unfold showFlags
    dsimp only
    split
    · rfl
    · split <;> rfl
  ctx e := by rw [ctxOf_showFlags]
  core k := by rw [coreAt_showFlags]

theorem endFlight_result (s : State) (f : Flight Regs) : ResultOnly s (endFlight s f) := (dropFlight_result s f.id).trans (showFlags_result _ _)

theorem wgs_result (c : Nat) (l : List Word) : ∀ (s : State) (r : Nat), ResultOnly s (wgs s c r l) := by
  induction l with
  | nil => exact fun s _ => .refl s
  | cons x l ih =>
    intro s r
    refine ResultOnly.trans (t := wg s c r x) ⟨?_, fun e => ?_, fun k => ?_⟩ (ih _ _)
    · rw [wg_only]
    · by_cases same : e = c
      · rw [same, wg_ctx]
      · rw [ctxOf_wg_ne s r x same]
    · rw [coreAt, wg_cores, coreAt]

theorem giveWords_result (s : State) (f : Flight Regs) (d : Nat) (l : List Word) : ResultOnly s (giveWords s f d l) := by
  unfold giveWords
  split
  · exact .refl s
  · have later : ResultOnly (wgs s f.ctx d l) (modCtx (wgs s f.ctx d l) f.ctx (fun y => { y with readyAt := max y.readyAt f.back })) :=
      ⟨rfl, fun c => by rw [ctxOf_modCtx]; split <;> simp [*], fun _ => rfl⟩
    exact ((wgs_result _ _ _ _).trans later).trans ⟨rfl, fun _ => rfl, fun _ => rfl⟩

/-- A returning write has dropped the core's own peeked copies of its lines (R153). -/
def peeksDropped (s : State) (f : Flight Regs) : State :=
  if opWrites f.op then
    (opSpan f.op).foldl (fun t p => (linesOf p.1 p.2).foldl (fun u a =>
      match lineOf u (coreOf f.ctx) a with | some x => if x.peeked then setLine u (coreOf f.ctx) a none else u | none => u) t) s
  else s

theorem peeksDropped_result (s : State) (f : Flight Regs) : ResultOnly s (peeksDropped s f) := by
  unfold peeksDropped
  split
  · refine foldl_keeps (P := fun t => ResultOnly s t) (fun t p h => foldl_keeps (P := fun t => ResultOnly s t) (fun u l h => ?_) _ h) _ (.refl s)
    split
    · split
      · exact h.trans (setLine_result _ _ _ _)
      · exact h
    · exact h
  · exact .refl s

theorem finishReturn_eq (s : State) (f : Flight Regs) (d : Nat) (l : List Word) : finishReturn s f d l = giveWords (endFlight (peeksDropped s f) f) f d l := rfl

theorem finishReturn_result (s : State) (f : Flight Regs) (d : Nat) (l : List Word) : ResultOnly s (finishReturn s f d l) :=
  ((peeksDropped_result s f).trans (endFlight_result _ f)).trans (giveWords_result _ _ _ _)

theorem rg_giveWords {s : State} {f : Flight Regs} (d : Nat) (x : Word) (alive : (coreAt s (coreOf f.ctx)).killed = false) :
    rg (giveWords s f d [x]) f.ctx d = if d = 0 then 0 else x := by
  have regs : (ctxOf (giveWords s f d [x]) f.ctx).regs = (ctxOf (wg s f.ctx d x) f.ctx).regs := by
    unfold giveWords
    rw [alive, if_neg Bool.false_ne_true]
    change (ctxOf (modCtx (wg s f.ctx d x) f.ctx (fun y => { y with readyAt := max y.readyAt f.back })) f.ctx).regs = _
    rw [ctxOf_modCtx_self]
  rw [← rg_wg_self s f.ctx d x, rg, rg, regs]

/-- The result of an access reads back (R72, R153). -/
theorem rg_finishReturn {s : State} {f : Flight Regs} (d : Nat) (x : Word) (alive : (coreAt s (coreOf f.ctx)).killed = false) :
    rg (finishReturn s f d [x]) f.ctx d = if d = 0 then 0 else x := by
  rw [finishReturn_eq]
  exact rg_giveWords d x (by rw [(endFlight_result _ f).killed, (peeksDropped_result s f).killed, alive])

@[simp] theorem markCip_mem (s : State) (c : Nat) : (markCip s c).mem = s.mem := rfl

/-! ### Bytes written -/

theorem bytesOf_getElem_getD (l : List Byte) {i : Nat} (h : i < l.length) : l.getD i 0 = l[i] := by simp [h]

theorem memByte_performWrite_outside (s : State) {pa a : Nat} {l : List Byte} (h : a < pa ∨ pa + l.length ≤ a) : memByte (performWrite s pa l) a = memByte s a := by
  rw [memByte, performWrite_mem]
  split
  · rfl
  · exact memByte_writeMem_outside l s pa a h

theorem memByte_performWrite_inside {s : State} {pa : Nat} {l : List Byte} (up : cxlGone s pa = false) {i : Nat} (h : i < l.length) :
    memByte (performWrite s pa l) (pa + i) = l[i] := by
  rw [memByte, performWrite_mem, up, if_neg Bool.false_ne_true]
  exact memByte_writeMem_inside l s pa i h

theorem readMem_performWrite {s : State} {pa : Nat} (x n : Nat) (up : cxlGone s pa = false) : readMem (performWrite s pa (bytesOf x n)) pa n = x % 2 ^ (8 * n) :=
  readMem_of_bytes n pa x (fun _ h => memByte_performWrite_inside up h)

theorem readMem_lt (s : State) (n : Nat) : ∀ pa, readMem s pa n < 2 ^ (8 * n) := by
  induction n with
  | zero => exact fun _ => Nat.one_pos
  | succ n ih =>
    intro pa
    have low := (memByte s pa).isLt
    have high := ih (pa + 1)
    rw [readMem, Nat.mul_succ, Nat.pow_add]
    omega

/-! ### The event -/

/-- What SLICE_ACCESS makes of an access that its slice may perform and whose sectors are there. -/
theorem sliceAccess_at {s u : State} {id : Nat} {f : Flight Regs} (h : AtSlice s id f u) (own : ownEvent f.op = false) :
    exec (.sliceAccess id) s = .next (performAccess u f) := by
  have nofault : f.fault.isSome = false := by
    have may := h.may
    simp only [mayPerform, Bool.and_eq_true] at may
    obtain ⟨⟨⟨⟨-, nofault⟩, -⟩, -⟩, -⟩ := may
    rw [Option.isNone_iff_eq_none] at nofault
    rw [nofault]
    rfl
  have up : (opSpan f.op).any (fun p => cxlGone s p.1) = false := by
    rw [List.any_eq_false]
    exact fun p hp => by rw [h.up p hp]; exact Bool.false_ne_true
  change execSliceAccess id s = _
  unfold execSliceAccess
  simp only [h.flight, nofault, own, h.may, up, h.there, Bool.false_or, Bool.not_true, Bool.false_eq_true, if_false, if_true]

theorem AtSlice.sectors {s u : State} {id : Nat} {f : Flight Regs} (h : AtSlice s id f u) : SectorsOnly s u := by
  have only := reachAll_sectors s f
  rwa [h.there] at only

end Sys2Proof.Machine
end

