-- ==== Sys2Proof/Proofs/SlicePerformance.lean ====
section
/-! SUPPORT. O46: slice operations, loads, stores, conditional writes and sums at their home slice (R239, R288, R292, R294, R295). -/

namespace Sys2Proof.Machine

/-! ### Slice operations -/

/-- The number of R239 for a word that stands in memory as a number. -/
def rmwNat (w op old v cmp : Nat) : Nat :=
  let sg := fun x : Nat => if x < 2 ^ (w - 1) then (x : Int) else (x : Int) - 2 ^ w
  match op with
  | 0 => (old + v) % 2 ^ w
  | 1 => if sg v < sg old then v else old
  | 2 => if sg old < sg v then v else old
  | 3 => old &&& v
  | 4 => old ||| v
  | 5 => old ^^^ v
  | 6 => v
  | _ => if old = cmp then v else old

/-- The signed number of a word, as the model reads it off. -/
theorem signed_ofNat {w x : Nat} (pos : 0 < w) (h : x < 2 ^ w) : (if x < 2 ^ (w - 1) then (x : Int) else (x : Int) - 2 ^ w) = (BitVec.ofNat w x).toInt := by
  have double : 2 ^ w = 2 * 2 ^ (w - 1) := by rw [← Nat.pow_succ', Nat.succ_eq_add_one, Nat.sub_add_cancel pos]
  rw [BitVec.toInt_eq_toNat_cond, BitVec.toNat_ofNat, Nat.mod_eq_of_lt h]
  by_cases low : x < 2 ^ (w - 1)
  · rw [if_pos low, if_pos (by omega)]
  · rw [if_neg low, if_neg (by omega)]
    push_cast
    rfl

theorem slt_ofNat {w x y : Nat} (pos : 0 < w) (hx : x < 2 ^ w) (hy : y < 2 ^ w) :
    (BitVec.ofNat w x).slt (BitVec.ofNat w y) = decide ((if x < 2 ^ (w - 1) then (x : Int) else (x : Int) - 2 ^ w) < if y < 2 ^ (w - 1) then (y : Int) else (y : Int) - 2 ^ w) := by
  rw [signed_ofNat pos hx, signed_ofNat pos hy]
  rfl

theorem ofNat_inj_of_lt {w x y : Nat} (hx : x < 2 ^ w) (hy : y < 2 ^ w) : BitVec.ofNat w x = BitVec.ofNat w y ↔ x = y := by
  rw [BitVec.toNat_eq, BitVec.toNat_ofNat, BitVec.toNat_ofNat, Nat.mod_eq_of_lt hx, Nat.mod_eq_of_lt hy]

theorem rmwNat_eq {w old v cmp : Nat} (pos : 0 < w) (hold : old < 2 ^ w) (hv : v < 2 ^ w) (hcmp : cmp < 2 ^ w) :
    ∀ op, BitVec.ofNat w (rmwNat w op old v cmp) = rmwNew w op (BitVec.ofNat w old) (BitVec.ofNat w v) (BitVec.ofNat w cmp)
  | 0 => (ofNat_mod w _).trans (BitVec.ofNat_add _ _)
  | 1 => by simp only [rmwNat, rmwNew, slt_ofNat pos hv hold, decide_eq_true_eq]; exact apply_ite _ _ _ _
  | 2 => by simp only [rmwNat, rmwNew, slt_ofNat pos hold hv, decide_eq_true_eq]; exact apply_ite _ _ _ _
  | 3 => BitVec.ofNat_and
  | 4 => BitVec.ofNat_or
  | 5 => BitVec.ofNat_xor
  | 6 => rfl
  | _ + 7 => by simp only [rmwNat, rmwNew, ofNat_inj_of_lt hold hcmp]; exact apply_ite _ _ _ _

theorem sliceRmw_eq (s : State) (pa w : Nat) (val cmp : Word) : ∀ op, sliceRmw s pa w op val cmp =
    let old := readMem s pa (w / 8)
    (old, if op < 7 ∨ old = cmp.toNat % 2 ^ w then performWrite s pa (bytesOf (rmwNat w op old (val.toNat % 2 ^ w) (cmp.toNat % 2 ^ w)) (w / 8)) else s)
  | 0 | 1 | 2 | 3 | 4 | 5 | 6 => by simp only [sliceRmw, rmwNat, Nat.reduceLT, true_or, if_true]
  | op + 7 => by
    have large : ¬ op + 7 < 7 := by omega
    simp only [sliceRmw, rmwNat, large, false_or]
    split <;> rfl

/-- What SLOP leaves in memory: the new value that R239 gives, in w bits. -/
theorem sliceRmw_new {s : State} {w : Nat} (hw : w = 32 ∨ w = 64) (pa op : Nat) (val cmp : Word) (up : cxlGone s pa = false) :
    BitVec.ofNat w (readMem (sliceRmw s pa w op val cmp).2 pa (w / 8)) =
      rmwNew w op (BitVec.ofNat w (readMem s pa (w / 8))) (val.setWidth w) (cmp.setWidth w) := by
  have pos : 0 < w := by omega
  have whole : 8 * (w / 8) = w := by omega
  have old : readMem s pa (w / 8) < 2 ^ w := by
    have small := readMem_lt s (w / 8) pa
    rwa [whole] at small
  have low (x : Word) : x.toNat % 2 ^ w < 2 ^ w := Nat.mod_lt _ (Nat.two_pow_pos w)
  have field (x : Word) : x.setWidth w = BitVec.ofNat w (x.toNat % 2 ^ w) := by rw [ofNat_mod, BitVec.ofNat_toNat]
  rw [field, field, ← rmwNat_eq pos old (low val) (low cmp), sliceRmw_eq]
  dsimp only
  split
  case isTrue => rw [readMem_performWrite _ (w / 8) up, whole, ofNat_mod]
  case isFalse kept =>
    obtain ⟨n, rfl⟩ : ∃ n, op = n + 7 := ⟨op - 7, by omega⟩
    simp only [rmwNat, not_or.mp kept, if_false]

theorem sliceRmw_old (s : State) (pa w op : Nat) (val cmp : Word) : (sliceRmw s pa w op val cmp).1 = readMem s pa (w / 8) := by rw [sliceRmw_eq]

/-- It writes at most the bytes of its word. -/
theorem sliceRmw_written (s : State) (pa w op : Nat) (val cmp : Word) :
    (sliceRmw s pa w op val cmp).2 = s ∨ ∃ x, (sliceRmw s pa w op val cmp).2 = performWrite s pa (bytesOf x (w / 8)) := by
  rw [sliceRmw_eq]
  dsimp only
  split
  · exact .inr ⟨_, rfl⟩
  · exact .inl rfl

/-! ### Loads -/

theorem extended_eq (n : Nat) (sx : Bool) (x : Nat) : extended n sx x =
    if n = 0 then 0 else if sx then (BitVec.ofNat (8 * n) x).signExtend 64 else (BitVec.ofNat (8 * n) x).setWidth 64 := by
  unfold extended
  by_cases zero : n = 0
  · subst zero
    rw [if_pos rfl, Nat.mul_zero, Nat.pow_zero, Nat.mod_one]
    cases sx <;> rfl
  · rw [if_neg zero]
    split
    · exact sextN_eq (by omega) x
    · exact ofNat_low _ x

theorem readLogged_empty {s : State} {c : Nat} (none_ : (ctxOf s c).writeLog = []) (n : Nat) : ∀ pa, readLogged s c pa n = readMem s pa n := by
  induction n with
  | zero => exact fun _ => rfl
  | succ n ih =>
    intro pa
    rw [readLogged, none_, ih, readMem]
    rfl

theorem trackLine_named (l : List Track) (line : Nat) (stamp : BitVec 16) : ∃ e ∈ trackLine l line stamp, e.line = line := by
  unfold trackLine
  split
  case isTrue known =>
    obtain ⟨e, he, same⟩ := List.any_eq_true.mp known
    refine ⟨_, List.mem_map_of_mem he, ?_⟩
    split
    · exact of_decide_eq_true same
    · exact of_decide_eq_true same
  case isFalse =>
    refine ⟨{ line := line, stamp := stamp, broken := false }, ?_, rfl⟩
    rw [List.drop_append_of_le_length (by omega)]
    exact List.mem_append_right _ (List.mem_singleton_self _)

/-- A line that enters a cache puts another out at most (R96). -/
theorem installLine_lines (s : State) (k l : Nat) (x : Line) : LinesOnly s (installLine s k l x) := by
  unfold installLine
  dsimp only
  refine LinesOnly.trans ?_ (.setLine _ _ _ _)
  split
  · exact .refl s
  · split
    · exact ousterLine_lines s k _
    · exact .refl s

theorem fillLine_lines (s : State) (k l home : Nat) (peeked : Bool) : LinesOnly s (fillLine s k l home peeked) := installLine_lines _ _ _ _

/-! ### Conditional writes -/

/-- One word of CMLS written. -/
def cmlsWord (t : State) (e : Nat × Word) : State := clearFull (writeMem t e.1 (bytesOf e.2.toNat 8)) e.1 8

theorem cmlsWord_placed (t : State) (e : Nat × Word) : PlacedOnly t (cmlsWord t e) := (writeMem_placed _ _ _).trans (clearFull_placed _ _ _)

theorem cmlsWords_outside (ts : List (Nat × Word)) : ∀ (s : State) (a : Nat), (∀ p ∈ ts, a < p.1 ∨ p.1 + 8 ≤ a) → memByte (ts.foldl cmlsWord s) a = memByte s a := by
  induction ts with
  | nil => exact fun _ _ _ => rfl
  | cons p ts ih =>
    intro s a out
    rw [List.foldl_cons, ih _ a (fun q hq => out q (List.mem_cons_of_mem _ hq)), memByte, cmlsWord, clearFull_mem]
    exact memByte_writeMem_outside _ s p.1 a (by simpa using out p List.mem_cons_self)

theorem cmlsWords_read (ts : List (Nat × Word)) : ∀ (s : State), (ts.map (·.1)).Pairwise (fun a b => a + 8 ≤ b ∨ b + 8 ≤ a) →
    ∀ p ∈ ts, readMem (ts.foldl cmlsWord s) p.1 8 = p.2.toNat := by
  induction ts with
  | nil => exact fun _ _ p hp => by cases hp
  | cons e ts ih =>
    intro s apart p hp
    obtain ⟨first, others⟩ := List.pairwise_cons.mp apart
    obtain rfl | hp := List.mem_cons.mp hp
    · have small : p.2.toNat % 2 ^ (8 * 8) = p.2.toNat := Nat.mod_eq_of_lt p.2.isLt
      rw [← small]
      refine readMem_of_bytes 8 p.1 p.2.toNat (fun i hi => ?_)
      have eight : i < 8 := by rwa [bytesOf_length] at hi
      rw [List.foldl_cons, cmlsWords_outside, memByte, cmlsWord, clearFull_mem]
      · exact memByte_writeMem_inside _ s p.1 i hi
      · intro q hq
        have := first q.1 (List.mem_map_of_mem hq)
        dsimp only at this
        omega
    · exact ih _ others p hp

/-- A state that differs in bytes of memory and marks of poison. -/
theorem writeMem_stamps (l : List Byte) : ∀ (s : State) (pa : Nat), (writeMem s pa l).stamps = s.stamps := by
  induction l with
  | nil => exact fun _ _ => rfl
  | cons b l ih => exact fun s pa => ih (setByte s pa b) (pa + 1)

theorem clearFull_stamps (s : State) (pa n : Nat) : (clearFull s pa n).stamps = s.stamps :=
  foldl_keeps (P := fun t => t.stamps = s.stamps) (fun t i h => by dsimp only; split <;> exact h) _ rfl

theorem cmlsWords_stamps (ts : List (Nat × Word)) (s : State) : (ts.foldl cmlsWord s).stamps = s.stamps :=
  foldl_keeps (P := fun t => t.stamps = s.stamps) (fun t e h => by rw [cmlsWord, clearFull_stamps, writeMem_stamps, h]) ts rfl

theorem cmlsWords_placed (ts : List (Nat × Word)) (s : State) : PlacedOnly s (ts.foldl cmlsWord s) := .foldl cmlsWord_placed ts s

/-- Lines named once each are stamped once each. -/
theorem stampOf_bumps (l : List Nat) : ∀ (s : State), l.Nodup → ∀ a, stampOf (l.foldl bumpLine s) a = stampOf s a + if a / 256 ∈ l then 1 else 0 := by
  induction l with
  | nil => intro s _ a; simp
  | cons x l ih =>
    intro s once a
    obtain ⟨new, once⟩ := List.nodup_cons.mp once
    rw [List.foldl_cons, ih _ once, stampOf, bumpLine, sget_sput]
    by_cases same : a / 256 = x
    · subst same
      simp [new, stampOf]
    · simp [same, stampOf]

theorem distinct_spec {α : Type} [DecidableEq α] (l : List α) : (distinct l).Nodup ∧ ∀ x, x ∈ distinct l ↔ x ∈ l := by
  suffices ∀ a : List α, a.Nodup → (l.foldl (fun a x => if a.contains x then a else a ++ [x]) a).Nodup ∧
      ∀ x, x ∈ l.foldl (fun a x => if a.contains x then a else a ++ [x]) a ↔ x ∈ a ∨ x ∈ l by
    simpa [distinct] using this [] List.nodup_nil
  induction l with
  | nil => intro a once; simp [once]
  | cons y l ih =>
    intro a once
    rw [List.foldl_cons]
    by_cases known : y ∈ a
    · obtain ⟨nodup, mem⟩ := ih a once
      rw [if_pos (List.contains_iff_mem.mpr known)]
      refine ⟨nodup, fun x => ?_⟩
      rw [mem, List.mem_cons]
      constructor
      · rintro (h | h) <;> simp [h]
      · rintro (h | rfl | h) <;> simp [*]
    · obtain ⟨nodup, mem⟩ := ih (a ++ [y]) (List.nodup_append.mpr ⟨once, by simp, by simp; exact fun x hx same => known (same ▸ hx)⟩)
      rw [if_neg (fun h => known (List.contains_iff_mem.mp h))]
      refine ⟨nodup, fun x => ?_⟩
      rw [mem, List.mem_append, List.mem_singleton, List.mem_cons, or_assoc]

/-! ### The clauses -/

section

variable {s u : State} {id : Nat} {f : Flight Regs} (h : AtSlice s id f u)
include h

theorem AtSlice.alive (alive : (coreAt s (coreOf f.ctx)).killed = false) : (coreAt u (coreOf f.ctx)).killed = false := by rw [h.sectors.core, alive]

theorem slop_performed {pa w op d : Nat} {val cmp : Word} (hop : f.op = .rmw pa w op val cmp d) (returns : f.posted = false) (hw : w = 32 ∨ w = 64)
    (bars : barsWrite u f.cls pa = false) (alive : (coreAt s (coreOf f.ctx)).killed = false) :
    Gives (.sliceAccess id) s (fun t => rg t f.ctx d = (if d = 0 then 0 else (BitVec.ofNat w (readMem s pa (w / 8))).signExtend 64) ∧
      BitVec.ofNat w (readMem t pa (w / 8)) = rmwNew w op (BitVec.ofNat w (readMem s pa (w / 8))) (val.setWidth w) (cmp.setWidth w) ∧
      ∀ a, a < pa ∨ pa + w / 8 ≤ a → memByte t a = memByte s a) := by
  have up : cxlGone u pa = false := by rw [h.sectors.cxlGone]; exact h.up (pa, w / 8) (by rw [hop]; exact List.mem_singleton_self _)
  have new := sliceRmw_new hw pa op val cmp up
  have old := sliceRmw_old u pa w op val cmp
  rw [h.sectors.readMem] at new old
  obtain ⟨v, performed⟩ : ∃ v, v = (sliceRmw u pa w op val cmp).2 := ⟨_, rfl⟩
  rw [← performed] at new
  have written : v = u ∨ ∃ x, v = performWrite u pa (bytesOf x (w / 8)) := performed ▸ sliceRmw_written u pa w op val cmp
  have outside (a : Nat) (out : a < pa ∨ pa + w / 8 ≤ a) : memByte v a = memByte s a := by
    obtain rfl | ⟨x, rfl⟩ := written
    · exact h.sectors.kept a
    · rw [memByte_performWrite_outside u (by rwa [bytesOf_length]), h.sectors.kept]
  have living : (coreAt v (coreOf f.ctx)).killed = false := by
    have cores : v.cores = u.cores := by
      obtain rfl | ⟨x, rfl⟩ := written
      · rfl
      · rw [(performWrite_placed u pa (bytesOf x (w / 8))).rest]
    rw [coreAt, cores]
    exact h.alive alive
  have access : performAccess u f = if d = 0 then finishReturn v f 0 [] else finishReturn (markCip v f.ctx) f d [sextN (readMem s pa (w / 8)) w] := by
    unfold performAccess
    simp only [hop, bars, returns, old, ← performed, Bool.false_eq_true, if_false]
  refine ⟨_, sliceAccess_at h (by rw [hop]; rfl), ?_⟩
  rw [access]
  by_cases zero : d = 0
  · have only := finishReturn_result v f 0 []
    rw [if_pos zero, if_pos zero]
    refine ⟨by rw [rg, if_pos zero], by rw [only.readMem, new], fun a out => (only.kept a).trans (outside a out)⟩
  · have only := finishReturn_result (markCip v f.ctx) f d [sextN (readMem s pa (w / 8)) w]
    rw [if_neg zero, if_neg zero]
    refine ⟨?_, ?_, fun a out => (only.kept a).trans (outside a out)⟩
    · rw [rg_finishReturn d _ (by exact living), if_neg zero, sextN_eq (by omega)]
    · rw [only.readMem, ← new, readMem_congr (markCip_mem v f.ctx)]

theorem tracked_performed {pa n d : Nat} {sx : Bool} (hop : f.op = .tracked pa n sx d) (clean : anyPoison u pa n = false) (unlogged : (ctxOf s f.ctx).writeLog = [])
    (alive : (coreAt s (coreOf f.ctx)).killed = false) :
    Gives (.sliceAccess id) s (fun t => MemKept s t ∧
      rg t f.ctx d = (if d = 0 then 0 else if n = 0 then 0 else
        if sx then (BitVec.ofNat (8 * n) (readMem s pa n)).signExtend 64 else (BitVec.ofNat (8 * n) (readMem s pa n)).setWidth 64) ∧
      ∃ e ∈ (ctxOf t f.ctx).track, e.line = pa / 256) := by
  obtain ⟨v, tracking⟩ : ∃ v, v = modCtx u f.ctx (fun x => { x with track := trackLine x.track (pa / 256) (stampOf u pa) }) := ⟨_, rfl⟩
  have access : performAccess u f = finishReturn v f d [extended n sx (readMem s pa n)] := by
    unfold performAccess
    simp only [hop, clean, Bool.false_eq_true, if_false, readLogged_empty (s := u) (c := f.ctx) (by rw [h.sectors.ctx, unlogged]), h.sectors.readMem, tracking]
  have only := finishReturn_result v f d [extended n sx (readMem s pa n)]
  refine ⟨_, sliceAccess_at h (by rw [hop]; rfl), ?_⟩
  rw [access]
  refine ⟨fun a => ?_, ?_, ?_⟩
  · rw [only.kept, tracking, ← h.sectors.kept a]
    rfl
  · rw [rg_finishReturn d _ (by rw [tracking]; exact h.alive alive), extended_eq]
  · rw [only.track, tracking, ctxOf_modCtx_self]
    exact trackLine_named _ _ _

theorem load_performed {pa n d : Nat} {sx : Bool} (hop : f.op = .load pa n sx d) (clean : anyPoison u pa n = false) (alive : (coreAt s (coreOf f.ctx)).killed = false) :
    Gives (.sliceAccess id) s (fun t => MemKept (fillLine u (coreOf f.ctx) (pa / 32) (f.slice + 2048 * f.cls) true) t ∧
      rg t f.ctx d = (if d = 0 then 0 else extended n sx (readMem s pa n))) := by
  have living := h.alive alive
  obtain ⟨v, filled⟩ : ∃ v, v = fillLine u (coreOf f.ctx) (pa / 32) (f.slice + 2048 * f.cls) true := ⟨_, rfl⟩
  have lines : (coreAt v (coreOf f.ctx)).killed = false := by rw [filled, (fillLine_lines _ _ _ _ _).core, living]
  have access : performAccess u f = finishReturn v f d [extended n sx (readMem s pa n)] := by
    unfold performAccess
    simp only [hop, living, clean, Bool.false_eq_true, if_false, h.sectors.readMem, filled]
  refine ⟨_, sliceAccess_at h (by rw [hop]; rfl), ?_⟩
  rw [access, ← filled]
  exact ⟨(finishReturn_result v f d _).kept, rg_finishReturn d _ lines⟩

theorem store_performed {pa : Nat} {data : List Byte} {first : Option Nat} (hop : f.op = .write pa data first) (posted : f.posted = true) (mine : f.ctx < 65536)
    (bars : ∀ i, i < data.length → barsWrite u f.cls (pa + i) = false) :
    Gives (.sliceAccess id) s (fun t => (∀ i, i < data.length → memByte t (pa + i) = data.getD i 0) ∧
      (∀ a, a < pa ∨ pa + data.length ≤ a → memByte t a = memByte s a) ∧ ∃ g ∈ t.flights, g.id = id ∧ g.done = true) := by
  have up : cxlGone u pa = false := by rw [h.sectors.cxlGone]; exact h.up (pa, data.length) (by rw [hop]; exact List.mem_singleton_self _)
  have whole : data.zipIdx.filter (fun e => !(barsWrite u f.cls (pa + e.2))) = data.zipIdx := by
    rw [List.filter_eq_self]
    intro e he
    rw [bars e.2 (by have := List.snd_lt_of_mem_zipIdx he; omega)]
    rfl
  have access : performAccess u f = setFlight (performWrite u pa data) { f with done := true } := by
    unfold performAccess
    simp only [hop, programWrite, whole, List.length_zipIdx, if_true, donePosted, posted, mine, decide_true, Bool.and_self]
  refine ⟨_, sliceAccess_at h (by rw [hop]; rfl), ?_⟩
  rw [access]
  refine ⟨fun i hi => ?_, fun a out => ?_, { f with done := true }, ?_, ?_, rfl⟩
  · rw [bytesOf_getElem_getD data hi]
    exact memByte_performWrite_inside up hi
  · rw [← h.sectors.kept a]
    exact memByte_performWrite_outside u out
  · have flights : (performWrite u pa data).flights = s.flights := by rw [(performWrite_placed u pa data).rest, h.sectors.flights]
    have mem : f ∈ s.flights := List.mem_of_find?_eq_some h.flight
    rw [setFlight, flights]
    exact List.mem_map.mpr ⟨f, mem, if_pos rfl⟩
  · exact (flightOf_id h.flight : f.id = id)

/-- CMLS at its slice when every tracked stamp still stands, or when one does not (R295). -/
theorem cmls_performed {d : Nat} {ts : List (Nat × Word)} (hop : f.op = .cmls ts d) (bars : ∀ p ∈ ts, barsWrite u f.cls p.1 = false)
    (alive : (coreAt s (coreOf f.ctx)).killed = false) :
    ((∀ p ∈ ts, ∃ e ∈ (ctxOf s f.ctx).track, e.line = p.1 / 256 ∧ e.broken = false ∧ e.stamp = stampOf s p.1) →
      (ts.map (·.1)).Pairwise (fun a b => a + 8 ≤ b ∨ b + 8 ≤ a) →
      Gives (.sliceAccess id) s (fun t => rg t f.ctx d = 0 ∧ (ctxOf t f.ctx).track = [] ∧ (∀ p ∈ ts, readMem t p.1 8 = p.2.toNat) ∧
        (∀ a, (∀ p ∈ ts, a < p.1 ∨ p.1 + 8 ≤ a) → memByte t a = memByte s a) ∧ (∀ p ∈ ts, stampOf t p.1 = stampOf s p.1 + 1) ∧
        ∀ a, (∀ p ∈ ts, p.1 / 256 ≠ a / 256) → stampOf t a = stampOf s a)) ∧
    ((∃ p ∈ ts, ∀ e ∈ (ctxOf s f.ctx).track, e.line = p.1 / 256 → e.broken = true ∨ e.stamp ≠ stampOf s p.1) →
      Gives (.sliceAccess id) s (fun t => MemKept s t ∧ rg t f.ctx d = (if d = 0 then 0 else 1) ∧ (ctxOf t f.ctx).track = [])) := by
  obtain ⟨v, cleared⟩ : ∃ v, v = modCtx u f.ctx (fun x => { x with track := [] }) := ⟨_, rfl⟩
  obtain ⟨good, hgood⟩ : ∃ good, good = ts.all (fun t => (ctxOf s f.ctx).track.any (fun e => e.line = t.1 / 256 && !e.broken && e.stamp = stampOf s t.1)) := ⟨_, rfl⟩
  have track : (ctxOf v f.ctx).track = [] := by rw [cleared, ctxOf_modCtx_self]
  have same (a : Nat) : memByte v a = memByte s a := by
    rw [cleared, ← h.sectors.kept a]
    rfl
  have living : (coreAt v (coreOf f.ctx)).killed = false := by
    rw [cleared]
    exact h.alive alive
  have stamps (a : Nat) : stampOf v a = stampOf s a := by
    rw [cleared, ← h.sectors.stampOf]
    rfl
  have kept : ts.filter (fun e => !(barsWrite v f.cls e.1) && !(cxlGone v e.1)) = ts := by
    rw [List.filter_eq_self]
    intro p hp
    have up : cxlGone v p.1 = false := by
      have up := h.up (p.1, 8) (by rw [hop]; exact List.mem_map_of_mem hp)
      rw [← h.sectors.cxlGone] at up
      rw [cleared]
      exact up
    have free : barsWrite v f.cls p.1 = false := by
      rw [cleared]
      exact bars p hp
    rw [up, free]
    rfl
  obtain ⟨w, bumped⟩ : ∃ w, w = (distinct (ts.map (fun t => t.1 / 256))).foldl bumpLine (ts.foldl cmlsWord v) := ⟨_, rfl⟩
  have cmls : performCmls u f.ctx f.cls ts = if good then (0, markCip w f.ctx) else (1, v) := by
    unfold performCmls
    simp only [h.sectors.ctx, h.sectors.stampOf, ← hgood, ← cleared, kept, bumped]
    cases good <;> rfl
  have access : performAccess u f = if good then finishReturn (markCip w f.ctx) f d [0] else finishReturn v f d [1] := by
    unfold performAccess
    simp only [hop, cmls]
    cases good <;> rfl
  refine ⟨fun tracked apart => ?_, fun broken => ?_⟩
  · have all_ : good = true := by
      rw [hgood, List.all_eq_true]
      intro p hp
      obtain ⟨e, he, line, sound, stamp⟩ := tracked p hp
      exact List.any_eq_true.mpr ⟨e, he, by simp [line, sound, stamp]⟩
    rw [all_, if_pos rfl] at access
    refine ⟨_, sliceAccess_at h (by rw [hop]; rfl), ?_⟩
    rw [access]
    have only := finishReturn_result (markCip w f.ctx) f d [0]
    obtain ⟨once, named⟩ := distinct_spec (ts.map (fun t => t.1 / 256))
    have mem : w.mem = (ts.foldl cmlsWord v).mem := by rw [bumped, foldl_mem bumpLine (fun _ _ => rfl)]
    have stamped (a : Nat) : stampOf (finishReturn (markCip w f.ctx) f d [0]) a = stampOf s a + if a / 256 ∈ ts.map (fun t => t.1 / 256) then 1 else 0 := by
      have words : stampOf (ts.foldl cmlsWord v) a = stampOf s a := by rw [stampOf, cmlsWords_stamps, ← stamps a, stampOf]
      rw [only.stampOf, ← words, ← if_congr (named (a / 256)) rfl rfl, ← stampOf_bumps _ _ once a, ← bumped]
      rfl
    refine ⟨?_, ?_, fun p hp => ?_, fun a out => ?_, fun p hp => ?_, fun a out => ?_⟩
    · have placed : PlacedOnly v w := bumped ▸ (cmlsWords_placed ts v).trans (.foldl bumpLine_placed _ _)
      rw [rg_finishReturn d _ (by change (coreAt w _).killed = false; rw [coreAt, placed.rest]; exact living), ite_self]
    · have ctxs : (ctxOf w f.ctx).track = [] := by
        have placed : PlacedOnly v w := bumped ▸ (cmlsWords_placed ts v).trans (.foldl bumpLine_placed _ _)
        rw [ctxOf, placed.rest]
        exact track
      rw [only.track, markCip, ctxOf_modCtx_self, ctxs]
    · rw [only.readMem, readMem_congr (markCip_mem w f.ctx), readMem_congr mem, cmlsWords_read ts v apart p hp]
    · rw [only.kept, memByte_congr (markCip_mem w f.ctx), memByte_congr mem, cmlsWords_outside ts v a out, same]
    · rw [stamped, if_pos (List.mem_map_of_mem (f := fun t : Nat × Word => t.1 / 256) hp)]
    · rw [stamped, if_neg, add_zero]
      intro hit
      obtain ⟨p, hp, line⟩ := List.mem_map.mp hit
      exact out p hp line
  · have some_ : good = false := by
      obtain ⟨p, hp, bad⟩ := broken
      rw [hgood, List.all_eq_false]
      refine ⟨p, hp, fun known => ?_⟩
      obtain ⟨e, he, fits⟩ := List.any_eq_true.mp known
      simp only [Bool.and_eq_true, decide_eq_true_eq, Bool.not_eq_true'] at fits
      obtain ⟨⟨line, sound⟩, stamp⟩ := fits
      obtain hb | hs := bad e he line
      · rw [sound] at hb
        exact Bool.false_ne_true hb
      · exact hs stamp
    rw [some_, if_neg Bool.false_ne_true] at access
    refine ⟨_, sliceAccess_at h (by rw [hop]; rfl), ?_⟩
    rw [access]
    have only := finishReturn_result v f d [1]
    exact ⟨fun a => (only.kept a).trans (same a), rg_finishReturn d _ living, (only.track _).trans track⟩

end

/-! ### Acknowledgements and sums -/

theorem showFlags_flights (s : State) (c : Nat) : (showFlags s c).flights = s.flights :=
  (congrArg State.flights (showFlags_rest s c) : (showFlags s c).rest.flights = s.rest.flights)

theorem showFlags_cores (s : State) (c : Nat) : (showFlags s c).cores = s.cores := by
  rw [showFlags_only]

theorem rg_endFlight (s : State) (f : Flight Regs) (c r : Nat) : rg (endFlight s f) c r = rg s c r := by
  rw [rg, endFlight, ctxOf_showFlags]
  rfl

/-- POSTED_STORE_ACK takes a performed store off (R292). -/
theorem posted_acked {s : State} {id : Nat} {f : Flight Regs} (here : flightOf s id = some f) (done : f.done = true) (posted : f.posted = true) :
    (f.back ≤ s.cycle → Gives (.postedStoreAck id) s (fun t => MemKept s t ∧ t.flights = s.flights.filter (fun g => g.id ≠ f.id) ∧ t.cores = s.cores ∧
      ∀ c r, rg t c r = rg s c r)) ∧
    (s.cycle < f.back → exec (.postedStoreAck id) s = .next s) := by
  refine ⟨fun back => ⟨endFlight s f, ?_, (endFlight_result s f).kept, ?_, ?_, rg_endFlight s f⟩, fun early => ?_⟩
  · change execPostedStoreAck id s = _
    simp only [execPostedStoreAck, here, done, posted, back, decide_true, Bool.and_self, if_true]
  · rw [endFlight, showFlags_flights]
    rfl
  · rw [endFlight, showFlags_cores]
    rfl
  · change execPostedStoreAck id s = _
    have out : ¬ f.back ≤ s.cycle := Nat.not_le.mpr early
    simp only [execPostedStoreAck, here, done, posted, out, decide_false, Bool.and_false, Bool.false_eq_true, if_false]

theorem clearPath_uncached {s : State} {k : Nat} {op : SliceOp} (none_ : ∀ p ∈ opSpan op, ∀ l ∈ linesOf p.1 p.2, lineOf s k l = none) : clearPath s k op = s := by
  refine List.foldlRecOn (motive := fun t => t = s) (opSpan op) _ rfl (fun t ht p hp => ?_)
  refine List.foldlRecOn (motive := fun t => t = s) (linesOf p.1 p.2) _ ht (fun u hu l hl => ?_)
  rw [hu, none_ p hp l hl]

/-- AGG_FLUSH sends the oldest sum (R294). -/
theorem sum_flushed {s : State} {k : Nat} {e : Nat × Nat × Word × Nat} {l : List (Nat × Nat × Word × Nat)} (here : (coreAt s k).agg = e :: l) (due : e.2.2.2 ≤ s.cycle)
    (room : aggRoom s k [e] = true) (own : e.1 < aggAbroad) (uncached : ∀ a ∈ linesOf e.1 8, lineOf s k a = none) :
    Gives (.aggFlush k) s (fun t => Outside s t [] ∧ (coreAt t k).agg = l ∧
      ∃ f, t.flights = s.flights ++ [f] ∧ f.posted = true ∧ f.slice = e.2.1 % 2048 ∧ f.op = .rmw e.1 64 0 e.2.2.1 0 0) := by
  have core : coreOf (8 * k) = k := Nat.mul_div_cancel_left k (by decide)
  have clear : clearPath s (coreOf (8 * k)) (.rmw e.1 64 0 e.2.2.1 0 0) = s := clearPath_uncached (fun p hp a ha => by
    obtain rfl := List.mem_singleton.mp hp
    rw [core]
    exact uncached a ha)
  have sent : aggSend s (8 * k) e = sendFlight s (8 * k) 7 false true e.2.1 (.rmw e.1 64 0 e.2.2.1 0 0) (0 + clearCost s (coreOf (8 * k)) (.rmw e.1 64 0 e.2.2.1 0 0)) 0 := by
    rw [aggSend, if_neg (Nat.not_le.mpr own), sendClear, clear]
  refine ⟨modCore (aggSend s (8 * k) e) k (fun x => { x with agg := l }), ?_, ?_, ?_, ?_⟩
  · change execAggFlush k s = _
    simp only [execAggFlush, here, due, room, decide_true, Bool.and_self, if_true]
  · rw [sent]
    exact ⟨fun _ => rfl, fun _ _ => ⟨rfl, rfl⟩⟩
  · rw [coreAt_modCore_self]
  · rw [sent]
    exact ⟨_, rfl, rfl, rfl, rfl⟩

/-- Settles O46: each access is followed through SLICE_ACCESS to the result that it gives. -/
theorem slicePerformance : Obligations.SlicePerformance := by
  unfold Obligations.SlicePerformance
  refine ⟨fun s u id pa w op d val cmp f h hop posted hw bars alive _ => slop_performed h hop posted hw bars alive,
    fun s u id pa n d sx f h hop clean unlogged alive => tracked_performed h hop clean unlogged alive,
    fun s u id pa n d sx f h hop clean alive => load_performed h hop clean alive,
    fun s u id pa data first f h hop posted mine bars => store_performed h hop posted mine bars,
    fun s u id d ts f h hop bars alive => cmls_performed h hop bars alive,
    fun s id f here done posted => posted_acked here done posted,
    fun s k e l here due room own uncached => sum_flushed here due room own uncached⟩

end Sys2Proof.Machine
end

