-- ==== Sys2Proof/Proofs/FillsAndWalks.lean ====
section
/-! SUPPORT. O48: lines and sectors that arrive, walks and token walks that end, errors (R91, R92, R96, R97, R112). -/

namespace Sys2Proof.Machine

/-! ### Waiting contexts of a core go on -/

/-- A state that differs in what contexts wait for. -/
structure WaitsOnly (s t : State) : Prop where
  only : t = { s with ctxs := t.ctxs }
  ctx : ∀ c, ctxOf t c = { ctxOf s c with run := (ctxOf t c).run, cooked := (ctxOf t c).cooked }

namespace WaitsOnly

theorem refl (s : State) : WaitsOnly s s := ⟨rfl, fun _ => rfl⟩

theorem trans {s t u : State} (h : WaitsOnly s t) (k : WaitsOnly t u) : WaitsOnly s u where
  only := by rw [k.only, h.only]
  ctx c := by rw [k.ctx c, h.ctx c]

variable {s t : State} (h : WaitsOnly s t)
include h

theorem mem : t.mem = s.mem := by rw [h.only]
theorem cores : t.cores = s.cores := by rw [h.only]
theorem outside : Outside s t [] := ⟨memByte_congr h.mem, fun e _ => by rw [h.ctx]; exact ⟨rfl, rfl⟩⟩
theorem core (k : Nat) : coreAt t k = coreAt s k := by rw [coreAt, h.cores, coreAt]
theorem lineOf (k l : Nat) : lineOf t k l = Machine.lineOf s k l := by rw [Machine.lineOf, h.core, Machine.lineOf]

end WaitsOnly

theorem outside_trans {s t u : State} (h : Outside s t []) (k : Outside t u []) : Outside s u [] :=
  ⟨fun a => (k.1 a).trans (h.1 a), fun e he => ⟨((k.2 e he).1).trans (h.2 e he).1, ((k.2 e he).2).trans (h.2 e he).2⟩⟩

theorem outside_of {s t : State} (mem : t.mem = s.mem) (ctxs : t.ctxs = s.ctxs) : Outside s t [] :=
  ⟨memByte_congr mem, fun e _ => by rw [ctxOf, ctxs]; exact ⟨rfl, rfl⟩⟩

/-- A context that waits for w goes on. -/
def wakeFrom (w : Stall) (mark : Bool) (x : Ctx) : Ctx := if x.run = .stalled w then { x with run := .ready, cooked := if mark then some 0 else x.cooked } else x

theorem wakeFrom_waits (w : Stall) (mark : Bool) (x : Ctx) : wakeFrom w mark x = { x with run := (wakeFrom w mark x).run, cooked := (wakeFrom w mark x).cooked } := by
  unfold wakeFrom
  split <;> rfl

theorem wakeFrom_ready {w : Stall} {mark : Bool} {x : Ctx} (waits : x.run = .stalled w ∨ x.run = .ready) : (wakeFrom w mark x).run = .ready := by
  unfold wakeFrom
  obtain waits | ready := waits
  · rw [if_pos waits]
  · rw [ready, if_neg (by simp), ready]

theorem wakeCore_waits (s : State) (k : Nat) (w : Stall) (mark : Bool) : WaitsOnly s (wakeCore s k w mark) := by
  refine foldl_keeps (P := fun t => WaitsOnly s t) (fun t i h => h.trans ⟨rfl, fun c => ?_⟩) _ (.refl s)
  rw [ctxOf_modCtx]
  split
  case isTrue same => rw [same]; exact wakeFrom_waits w mark _
  case isFalse => rfl

/-- Every context of the core that waited for w is ready (R96). -/
theorem wakeCore_ready {s : State} {k i : Nat} {w : Stall} (mark : Bool) (hi : i < 8) (waits : (ctxOf s (8 * k + i)).run = .stalled w) :
    (ctxOf (wakeCore s k w mark) (8 * k + i)).run = .ready := by
  suffices ∀ (l : List Nat) (t : State), (ctxOf t (8 * k + i)).run = .ready ∨ ((ctxOf t (8 * k + i)).run = .stalled w ∧ i ∈ l) →
      (ctxOf (l.foldl (fun t j => modCtx t (8 * k + j) (wakeFrom w mark)) t) (8 * k + i)).run = .ready from
    this (List.range 8) s (.inr ⟨waits, List.mem_range.mpr hi⟩)
  intro l
  induction l with
  | nil =>
    rintro t (ready | ⟨-, none_⟩)
    · exact ready
    · cases none_
  | cons j l ih =>
    intro t h
    rw [List.foldl_cons]
    apply ih
    rw [ctxOf_modCtx]
    by_cases same : i = j
    · subst same
      rw [if_pos rfl]
      exact .inl (wakeFrom_ready (by tauto))
    · rw [if_neg (by omega)]
      obtain ready | ⟨waits, named⟩ := h
      · exact .inl ready
      · exact .inr ⟨waits, (List.mem_cons.mp named).resolve_left same⟩

/-! ### Cache fills -/

theorem lineOf_setLine_self (s : State) (k l : Nat) (x : Option Line) : lineOf (setLine s k l x) k l = x := by
  rw [lineOf, setLine, coreAt_modCore_self]
  exact sget_sput_self _ _ _ _

/-- A line that a core did not hold stands in its cache with memory's bytes (R96). -/
theorem lineOf_fillLine (s : State) (k l home : Nat) (peeked : Bool) :
    ∃ x, lineOf (fillLine s k l home peeked) k l = some x ∧ x.data = BitVec.ofNat 256 (readMem s (32 * l) 32) ∧ x.peeked = peeked ∧ x.dirty = false := by
  unfold fillLine installLine
  dsimp only
  exact ⟨_, lineOf_setLine_self _ _ _ _, rfl, rfl, rfl⟩

/-- The fill is no longer waited for. -/
def fillGone (t : State) (k : Nat) (f : Fill) : State := modCore t k (fun x => { x with fills := removeFirst (fun g => g = f) x.fills })

theorem lineOf_fillGone (t : State) (k : Nat) (f : Fill) (l : Nat) : lineOf (fillGone t k f) k l = lineOf t k l := by
  rw [lineOf, fillGone, coreAt_modCore_self]
  rfl

section

variable {s : State} {k l : Nat} {f : Fill} (here : (coreAt s k).fills.find? (fun f => f.line = l && f.due ≤ s.cycle && !(fillHeld s f)) = some f)
include here

theorem lineFill_stale (stale : f.stale = true) : Gives (.lineFill k l) s (fun t => Outside s t [] ∧ lineOf t k l = lineOf s k l ∧
    (coreAt t k).fills = removeFirst (fun g => g = f) (coreAt s k).fills) := by
  have waits := wakeCore_waits (fillGone s k f) k (.fill l) false
  refine ⟨wakeCore (fillGone s k f) k (.fill l) false, ?_, outside_trans (outside_of rfl rfl) waits.outside, ?_, ?_⟩
  · change execLineFill k l s = _
    simp only [execLineFill, here, stale, if_true, fillGone]
  · rw [waits.lineOf, lineOf_fillGone]
  · rw [waits.core, fillGone, coreAt_modCore_self]

variable (fresh : f.stale = false) (there : (reachL2 s (.fill k l) (f.home % 2048) (32 * l) 32 (f.home / 2048) false).1 = true)
include fresh there

theorem lineFill_l2 (l2 : f.l2 = true) : Gives (.lineFill k l) s (fun t => Outside s t [] ∧ lineOf t k l = lineOf s k l) := by
  have sectors := reachL2_sectors s (.fill k l) (f.home % 2048) (32 * l) 32 (f.home / 2048) false
  refine ⟨fillGone (reachL2 s (.fill k l) (f.home % 2048) (32 * l) 32 (f.home / 2048) false).2 k f, ?_, outside_of sectors.mem sectors.ctxs, ?_⟩
  · change execLineFill k l s = _
    simp only [execLineFill, here, fresh, there, l2, Bool.false_eq_true, Bool.not_true, if_false, if_true, fillGone]
  · rw [lineOf_fillGone, lineOf, sectors.core, lineOf]

theorem lineFill_line (l2 : f.l2 = false) (new : lineOf s k l = none) :
    Gives (.lineFill k l) s (fun t => (∃ x, lineOf t k l = some x ∧ x.data = BitVec.ofNat 256 (readMem s (32 * l) 32) ∧ x.peeked = f.peeked ∧
        x.dirty = false) ∧
      ∀ i, i < 8 → (ctxOf s (8 * k + i)).run = .stalled (.fill l) → (ctxOf t (8 * k + i)).run = .ready) := by
  have sectors := reachL2_sectors s (.fill k l) (f.home % 2048) (32 * l) 32 (f.home / 2048) false
  obtain ⟨u, reached⟩ : ∃ u, u = (reachL2 s (.fill k l) (f.home % 2048) (32 * l) 32 (f.home / 2048) false).2 := ⟨_, rfl⟩
  rw [← reached] at sectors
  have missing : (lineOf u k l).isSome = false := by rw [lineOf, sectors.core, ← lineOf, new]; rfl
  have waits := wakeCore_waits (fillLine (fillGone u k f) k l f.home f.peeked) k (.fill l) true
  refine ⟨wakeCore (fillLine (fillGone u k f) k l f.home f.peeked) k (.fill l) true, ?_, ?_, fun i hi stalled => ?_⟩
  · change execLineFill k l s = _
    simp only [execLineFill, here, fresh, there, ← reached, l2, missing, Bool.false_eq_true, Bool.not_true, if_false, fillGone]
  · obtain ⟨x, hx, data, peeked, clean⟩ := lineOf_fillLine (fillGone u k f) k l f.home f.peeked
    exact ⟨x, by rw [waits.lineOf, hx], by rw [data, readMem_congr (s := s) (t := fillGone u k f) sectors.mem], peeked, clean⟩
  · refine wakeCore_ready true hi ?_
    rw [(fillLine_lines _ _ _ _ _).ctx]
    exact (congrArg Ctx.run (sectors.ctx _)).trans stalled

end

/-- An instruction line arrives (R96, R101). -/
theorem fetch_filled {s : State} {k l due home : Nat} (here : (coreAt s k).fetches.find? (fun f => f.1 = l) = some (l, due, home)) (time : due ≤ s.cycle)
    (there : (reachL2 s (.fetch k l) (home % 2048) (32 * l) 32 4 false).1 = true) :
    Gives (.instructionFetchFill k l) s (fun t =>
      (∃ b n, sget none (coreAt t k).icache l = some (BitVec.ofNat 256 (readMem s (32 * l) 32), b, n)) ∧
      ∀ i, i < 8 → (ctxOf s (8 * k + i)).run = .stalled (.fetch l) → (ctxOf t (8 * k + i)).run = .ready) := by
  have sectors := reachL2_sectors s (.fetch k l) (home % 2048) (32 * l) 32 4 false
  obtain ⟨u, reached⟩ : ∃ u, u = (reachL2 s (.fetch k l) (home % 2048) (32 * l) 32 4 false).2 := ⟨_, rfl⟩
  rw [← reached] at sectors
  obtain ⟨v, gone⟩ : ∃ v, v = modCore u k (fun x => { x with fetches := x.fetches.filter (fun f => f.1 ≠ l) }) := ⟨_, rfl⟩
  have waits := wakeCore_waits (installCode v k l) k (.fetch l) false
  have early : ¬ s.cycle < due := Nat.not_lt.mpr time
  refine ⟨wakeCore (installCode v k l) k (.fetch l) false, ?_, ?_, fun i hi stalled => wakeCore_ready false hi ?_⟩
  · change execInstructionFetchFill k l s = _
    simp only [execInstructionFetchFill, here, early, there, ← reached, gone, Bool.not_true, Bool.false_eq_true, if_false]
  · have mem : readMem v (32 * l) 32 = readMem s (32 * l) 32 := readMem_congr (by rw [gone]; exact sectors.mem) _ _
    rw [waits.core, installCode, coreAt_modCore_self, ← mem]
    dsimp only
    exact ⟨_, _, sget_sput_self _ _ _ _⟩
  · have ctx : ctxOf (installCode v k l) (8 * k + i) = ctxOf s (8 * k + i) := by
      rw [← sectors.ctx, gone]
      rfl
    rw [ctx, stalled]

/-! ### Misses at a slice -/

theorem miss_sent {s : State} {i : Nat} {m : Miss} {r : List Miss} (here : (sliceAt s i).misses = m :: r) (time : m.due ≤ s.cycle) (held : m.sent = false) :
    Gives (.l2ChannelCommand i m.line) s (fun t => Outside s t [] ∧
      (sliceAt t i).misses = { m with sent := true, due := s.cycle + channelTime s i m.line } :: r) := by
  refine ⟨_, rfl, outside_of rfl rfl, ?_⟩
  rw [sliceAt_setSlice_self, here]
  simp only [replaceFirst, held, time, decide_true, Bool.not_false, Bool.and_self, if_true]

/-- A way holds a line. -/
def wayHolds (line : Nat) (w : Option L2Line) : Bool := match w with | some x => x.line = line | none => false

theorem findWay_eq (l : List (Option L2Line)) (line : Nat) : findWay l line = (l.find? (wayHolds line)).join := by
  unfold findWay
  change (match l.find? (wayHolds line) with | some (some x) => some x | _ => none) = _
  cases l.find? (wayHolds line) with
  | none => rfl
  | some w => cases w <;> rfl

/-- What a line that a slice holds is changed to. -/
theorem findWay_modL2 {s : State} {i line : Nat} {f : L2Line → L2Line} {y : L2Line} (here : findWay (waysOf (sliceAt s i) (l2Set line)) line = some y)
    (same : ∀ z, (f z).line = z.line) : findWay (waysOf (sliceAt (modL2 s i line f) i) (l2Set line)) line = some (f y) := by
  obtain ⟨l, ways⟩ : ∃ l, l = waysOf (sliceAt s i) (l2Set line) := ⟨_, rfl⟩
  rw [← ways] at here
  obtain ⟨found, hit⟩ : l.find? (wayHolds line) = some (some y) ∧ y.line = line := by
    rw [findWay_eq] at here
    have found : l.find? (wayHolds line) = some (some y) := by
      cases h : l.find? (wayHolds line) with
      | none => rw [h] at here; cases here
      | some w => rw [h] at here; rw [show w = some y from here]
    have holds : wayHolds line (some y) = true := List.find?_some found
    exact ⟨found, of_decide_eq_true holds⟩
  obtain ⟨g, change⟩ : ∃ g : Option L2Line → Option L2Line, g = fun w => w.map (fun y => if y.line = line then f y else y) := ⟨_, rfl⟩
  have long : 16 ≤ (l.map g).length := by
    rw [List.length_map, ways, waysOf, List.length_append, List.length_replicate]
    omega
  have some_ : (l.map g).all (·.isNone) = false := by
    rw [List.all_eq_false]
    exact ⟨g (some y), List.mem_map_of_mem (List.mem_of_find?_eq_some found), by rw [change]; simp⟩
  have now : waysOf (sliceAt (modL2 s i line f) i) (l2Set line) = l.map g := by
    rw [modL2, sliceAt_setSlice_self, ← ways, ← change, waysOf, setWays, some_]
    simp only [Bool.false_eq_true, if_false, sget_sput_self, Nat.sub_eq_zero_of_le long, List.replicate_zero, List.append_nil]
  have keeps : wayHolds line ∘ g = wayHolds line := by
    funext w
    rw [change]
    cases w with
    | none => rfl
    | some z =>
      simp only [Function.comp_apply, Option.map_some, wayHolds]
      split
      · rw [same]
      · rfl
  rw [now, findWay_eq, List.find?_map, keeps, found, change]
  simp [hit]

theorem modL2_misses (s : State) (i line : Nat) (f : L2Line → L2Line) : (sliceAt (modL2 s i line f) i).misses = (sliceAt s i).misses := by
  rw [modL2, sliceAt_setSlice_self]
  rfl

theorem sectors_arrived {s : State} {i : Nat} {m : Miss} {r : List Miss} {y : L2Line} (here : (sliceAt s i).misses = m :: r) (time : m.due ≤ s.cycle) (sent : m.sent = true)
    (way : findWay (waysOf (sliceAt s i) (l2Set m.line)) m.line = some y) :
    Gives (.sectorArrival i m.line) s (fun t => Outside s t [] ∧ (sliceAt t i).misses = r ∧
      findWay (waysOf (sliceAt t i) (l2Set m.line)) m.line = some { y with valid := y.valid ||| m.sectors, owed := y.owed ++ m.joined }) := by
  obtain ⟨u, taken⟩ : ∃ u, u = setSlice s i { sliceAt s i with misses := r } := ⟨_, rfl⟩
  refine ⟨modL2 u i m.line (fun y => { y with valid := y.valid ||| m.sectors, owed := y.owed ++ m.joined }), ?_, ?_, ?_, ?_⟩
  · change execSectorArrival i m.line s = _
    simp only [execSectorArrival, here, List.find?_cons, sent, time, decide_true, Bool.and_self, removeFirst, if_true, taken]
  · rw [taken]
    exact outside_of rfl rfl
  · rw [modL2_misses, taken, sliceAt_setSlice_self]
  · refine findWay_modL2 ?_ (fun _ => rfl)
    rw [taken, sliceAt_setSlice_self]
    exact way

/-! ### Walks -/

/-- The oldest walk of a cluster is over: the next one is read. -/
def walkTaken (s : State) (v : Nat) : State := modCluster s v (fun x => { x with
  walks := x.walks.drop 1
  walkDue := match x.walks.drop 1 with | n :: _ => s.cycle + walkRead v n.2.2.2 n.2.2.1 n.2.1 | [] => s.cycle })

/-- A context that waits for the walk of a page goes on. -/
def walkWoken (va : Nat) (x : Ctx) : Ctx := if x.run = .stalled (.walk va) then { x with run := .ready } else x

/-- A context that waits for the walk of a page keeps the fault that it ended with. -/
def walkFailed (va code : Nat) (x : Ctx) : Ctx := if x.run = .stalled (.walk va) then { x with walkFails := (va, code) :: x.walkFails } else x

theorem mem_tlbUse (l : List TlbEntry) (e : TlbEntry) : e ∈ tlbUse l e := by
  rw [tlbUse]
  exact List.mem_cons_self
theorem mem_clusterUse (l : List TlbEntry) (e : TlbEntry) : e ∈ clusterUse l e := List.mem_cons_self

theorem coreAt_tlbFill (s : State) (k : Nat) (e : TlbEntry) : coreAt (tlbFill s k e) k = { coreAt s k with tlb := tlbUse (coreAt s k).tlb e } := by
  rw [tlbFill, coreAt_modCluster, coreAt_modCore_self]

theorem clusterAt_tlbFill (s : State) (k : Nat) (e : TlbEntry) (v : Nat) :
    clusterAt (tlbFill s k e) v = { clusterAt s v with tlb := if v = vertexOf k then clusterUse (clusterAt s v).tlb e else (clusterAt s v).tlb } := by
  rw [tlbFill, clusterAt_modCluster]
  by_cases same : v = vertexOf k
  · rw [if_pos same, if_pos same, same, clusterAt_modCore]
  · rw [if_neg same, if_neg same, clusterAt_modCore]

section

variable {u : State} {v c va : Nat} (l table : Nat) (core : c ≠ engineKey v) (alone : ∀ p ∈ (coreAt u (coreOf c)).prefs, ¬(p.1 = va ∧ p.2.1 = c))
include alone

theorem no_prefs : (coreAt u (coreOf c)).prefs.filter (fun p => p.1 = va && p.2.1 = c) = [] := by
  rw [List.filter_eq_nil_iff]
  intro p hp
  simpa using alone p hp

include core

theorem endWalk_leaf (page n : Nat) (pte : Word) (alive : (coreAt u (coreOf c)).killed = false) : endWalk u v (c, va, l, table) (.leaf page n pte) =
    modCtx (tlbFill (walkTaken u v) (coreOf c) { page := page, lsize := n, leaf := pte }) c (walkWoken va) := by
  have none_ := no_prefs alone
  unfold endWalk
  simp only [core, decide_false, Bool.false_eq_true, if_false, coreAt_modCluster, alive, coreAt_modCtx, coreAt_tlbFill, none_, List.isEmpty_nil, if_true, List.foldl_nil, ite_self]
  rfl

theorem endWalk_fault (code : Nat) : endWalk u v (c, va, l, table) (.fault code) = modCtx (modCtx (walkTaken u v) c (walkFailed va code)) c (walkWoken va) := by
  have none_ := no_prefs alone
  unfold endWalk
  simp only [core, decide_false, Bool.false_eq_true, if_false, coreAt_modCluster, coreAt_modCtx, none_, List.isEmpty_nil, if_true]
  rfl

end

theorem walkTaken_walks {u : State} {v : Nat} {w : Nat × Nat × Nat × Nat} {r : List (Nat × Nat × Nat × Nat)} (walks : (clusterAt u v).walks = w :: r) :
    (clusterAt (walkTaken u v) v).walks = r := by
  rw [walkTaken, clusterAt_modCluster_self, walks]
  rfl

theorem walkWoken_frame (va : Nat) (x : Ctx) : (walkWoken va x).regs = x.regs ∧ (walkWoken va x).pc = x.pc := by
  unfold walkWoken
  split <;> exact ⟨rfl, rfl⟩

theorem walkFailed_frame (va code : Nat) (x : Ctx) : (walkFailed va code x).regs = x.regs ∧ (walkFailed va code x).pc = x.pc := by
  unfold walkFailed
  split <;> exact ⟨rfl, rfl⟩

theorem outside_modCtx (s : State) (c : Nat) {f : Ctx → Ctx} (frame : ∀ x, (f x).regs = x.regs ∧ (f x).pc = x.pc) : Outside s (modCtx s c f) [] :=
  ⟨fun _ => rfl, fun e _ => by rw [ctxOf_modCtx]; split; exacts [by rename_i same; rw [same]; exact frame _, ⟨rfl, rfl⟩]⟩

section

variable {s : State} {v c va l table : Nat} {r : List (Nat × Nat × Nat × Nat)} (walks : (clusterAt s v).walks = (c, va, l, table) :: r)
  (core : c ≠ engineKey v) (alone : ∀ p ∈ (coreAt s (coreOf c)).prefs, ¬(p.1 = va ∧ p.2.1 = c)) (time : (clusterAt s v).walkDue ≤ s.cycle)
  (clean : isPoisoned s (entryAddr table l va) = false)
  (there : (reachL2 s (.walk v) (homeSlice true 0 (entryAddr table l va)) (entryAddr table l va) 8 4 false).1 = true)
include walks time clean there

/-- What the walker makes of the entry that it read. -/
theorem pageWalkRead_reads : ∃ u, SectorsOnly s u ∧ exec (.pageWalkRead v) s =
    .next (match readEntry s l va (readMem s (entryAddr table l va) 8) with
      | .error x => endWalk u v (c, va, l, table) x
      | .ok next => modCluster u v (fun x => { x with
          walks := (c, va, l + 1, next) :: x.walks.drop 1, walkDue := u.cycle + walkRead v next (l + 1) va })) := by
  have sectors := reachL2_sectors s (.walk v) (homeSlice true 0 (entryAddr table l va)) (entryAddr table l va) 8 4 false
  obtain ⟨u, reached⟩ : ∃ u, u = (reachL2 s (.walk v) (homeSlice true 0 (entryAddr table l va)) (entryAddr table l va) 8 4 false).2 := ⟨_, rfl⟩
  rw [← reached] at sectors
  have early : ¬ s.cycle < (clusterAt s v).walkDue := Nat.not_lt.mpr time
  have pure_ : isPoisoned u (entryAddr table l va) = false := by
    rw [← clean, isPoisoned, isPoisoned, sectors.cxlGone, sectors.only]
  have entry (e : Nat) : readEntry u l va e = readEntry s l va e := by rw [sectors.only]; rfl
  refine ⟨u, sectors, ?_⟩
  change execPageWalkRead v s = _
  simp only [execPageWalkRead, walks, early, there, ← reached, pure_, entry, sectors.readMem, Bool.not_true, Bool.false_eq_true, if_false] <;> rfl

theorem walk_goes_down (next : Nat) (entry : readEntry s l va (readMem s (entryAddr table l va) 8) = .ok next) :
    Gives (.pageWalkRead v) s (fun t => Outside s t [] ∧ (clusterAt t v).walks = (c, va, l + 1, next) :: r) := by
  obtain ⟨u, sectors, step⟩ := pageWalkRead_reads walks time clean there
  rw [entry] at step
  refine ⟨_, step, outside_of sectors.mem sectors.ctxs, ?_⟩
  have same : clusterAt u v = clusterAt s v := by rw [clusterAt, sectors.only, clusterAt]
  rw [clusterAt_modCluster_self, same, walks]
  rfl

include core alone

theorem walk_ends (page n : Nat) (pte : Word) (alive : (coreAt s (coreOf c)).killed = false)
    (entry : readEntry s l va (readMem s (entryAddr table l va) 8) = .error (.leaf page n pte)) :
    Gives (.pageWalkRead v) s (fun t => Outside s t [] ∧ (clusterAt t v).walks = r ∧
      { page := page, lsize := n, leaf := pte } ∈ (coreAt t (coreOf c)).tlb ∧ { page := page, lsize := n, leaf := pte } ∈ (clusterAt t (vertOf c)).tlb ∧
      ((ctxOf s c).run = .stalled (.walk va) → (ctxOf t c).run = .ready)) := by
  obtain ⟨u, sectors, step⟩ := pageWalkRead_reads walks time clean there
  rw [entry] at step
  have same : clusterAt u v = clusterAt s v := by rw [clusterAt, sectors.only, clusterAt]
  have home : vertOf c = vertexOf (coreOf c) := by
    unfold vertOf vertexOf coreOf
    omega
  have filled : Outside s (tlbFill (walkTaken u v) (coreOf c) { page := page, lsize := n, leaf := pte }) [] :=
    outside_trans (outside_of sectors.mem sectors.ctxs) (outside_of rfl rfl)
  refine ⟨_, step, ?_⟩
  dsimp only
  rw [endWalk_leaf l table core (by rw [sectors.core]; exact alone) page n pte (by rw [sectors.core, alive])]
  refine ⟨outside_trans filled (outside_modCtx _ c (walkWoken_frame va)), ?_, ?_, ?_, fun waits => ?_⟩
  · rw [clusterAt_modCtx, clusterAt_tlbFill]
    exact walkTaken_walks (same ▸ walks)
  · rw [coreAt_modCtx, coreAt_tlbFill]
    exact mem_tlbUse _ _
  · rw [clusterAt_modCtx, clusterAt_tlbFill, if_pos home]
    exact mem_clusterUse _ _
  · have ctx : ctxOf (tlbFill (walkTaken u v) (coreOf c) { page := page, lsize := n, leaf := pte }) c = ctxOf s c := by
      rw [tlbFill, ctxOf_modCluster, ctxOf_modCore, walkTaken, ctxOf_modCluster, sectors.ctx]
    rw [ctxOf_modCtx_self, ctx, walkWoken, if_pos waits]

theorem walk_fails (code : Nat) (entry : readEntry s l va (readMem s (entryAddr table l va) 8) = .error (.fault code)) (waits : (ctxOf s c).run = .stalled (.walk va)) :
    Gives (.pageWalkRead v) s (fun t => Outside s t [] ∧ (clusterAt t v).walks = r ∧ (ctxOf t c).run = .ready ∧ (va, code) ∈ (ctxOf t c).walkFails) := by
  obtain ⟨u, sectors, step⟩ := pageWalkRead_reads walks time clean there
  rw [entry] at step
  have same : clusterAt u v = clusterAt s v := by rw [clusterAt, sectors.only, clusterAt]
  have waits : (ctxOf (walkTaken u v) c).run = .stalled (.walk va) := (congrArg Ctx.run (sectors.ctx c)).trans waits
  have failed : walkWoken va (walkFailed va code (ctxOf (walkTaken u v) c)) =
      { ctxOf (walkTaken u v) c with run := .ready, walkFails := (va, code) :: (ctxOf (walkTaken u v) c).walkFails } := by
    rw [walkFailed, if_pos waits, walkWoken, if_pos waits]
  refine ⟨_, step, ?_⟩
  dsimp only
  rw [endWalk_fault l table core (by rw [sectors.core]; exact alone) code]
  refine ⟨outside_trans (outside_trans (outside_trans (outside_of sectors.mem sectors.ctxs) (t := walkTaken u v) (outside_of rfl rfl))
    (outside_modCtx _ c (walkFailed_frame va code))) (outside_modCtx _ c (walkWoken_frame va)), ?_, ?_, ?_⟩
  · rw [clusterAt_modCtx, clusterAt_modCtx]
    exact walkTaken_walks (same ▸ walks)
  · rw [ctxOf_modCtx_self, ctxOf_modCtx_self, failed]
  · rw [ctxOf_modCtx_self, ctxOf_modCtx_self, failed]
    exact List.mem_cons_self

end

/-! ### Token walks -/

/-- What a context keeps of a token walk for its instruction (R112). -/
def tokenKept (va code : Nat) (x : BitVec 32) (y : Ctx) : Ctx := { y with tokenFails := (va, code, x) :: y.tokenFails }

/-- A walk counts, when the cache of the core held no answer. -/
def walkCounted (s : State) (c va path : Nat) : State :=
  if (tokenHit s c path va).isSome then s
  else modCore s (coreOf c) (fun y => { y with counters := { y.counters with tokmiss := y.counters.tokmiss + 1 } })

theorem walkCounted_only (s : State) (c va path : Nat) : walkCounted s c va path = { s with cores := (walkCounted s c va path).cores } := by
  unfold walkCounted
  split <;> rfl

theorem killed_walkCounted (s : State) (c va path k : Nat) : (coreAt (walkCounted s c va path) k).killed = (coreAt s k).killed := by
  unfold walkCounted
  split
  · rfl
  · rw [coreAt_modCore]
    split
    case isTrue same => rw [same]
    case isFalse => rfl

/-! What stands on a token's holders and sharers is read from memory, the graphs and their registers. -/

section

variable {s t : State} (mem : t.mem = s.mem) (sizes : t.cxlSizes = s.cxlSizes) (root : t.root = s.root) (graphs : t.graphs = s.graphs)
  (regs : t.batchRegs = s.batchRegs) (device : t.device = s.device)
include mem sizes root graphs regs device

theorem recordHolders_congr (i : Nat) : recordHolders t i = recordHolders s i := by
  have steps : stepNumbers t i = stepNumbers s i := by
    simp only [stepNumbers, graphs, nodeKind, nodeParam, nodeWord_congr mem sizes root] <;> rfl
  have area (g : Nat) : slotArea t g = slotArea s g := by simp only [slotArea, regs, translateNow_congr mem sizes root]
  unfold recordHolders
  rw [steps]
  congr 1
  funext g
  rw [area]
  cases slotArea s g with
  | none => rfl
  | some a =>
    dsimp only
    refine List.filterMap_congr (fun j _ => ?_)
    rw [readMem_congr mem, translateNow_congr mem sizes root]
    split
    · rfl
    · split
      · rw [recordState, recordState, readMem_congr mem, device]
      · rfl

theorem holdsToken_congr (ws : List Word) (g : Option Nat) (k : Token) : holdsToken t ws g k = holdsToken s ws g k := by
  simp only [holdsToken, recordHolders_congr mem sizes root graphs regs device]

theorem sharesToken_congr (ws : List Word) (g : Option Nat) (k : Token) : sharesToken t ws g k = sharesToken s ws g k := by
  simp only [sharesToken, recordHolders_congr mem sizes root graphs regs device]
end

section

variable (s : State) (c va path : Nat)

theorem walkCounted_reads : tokenProbe (walkCounted s c va path) va = tokenProbe s va ∧ (∀ t, barred (walkCounted s c va path) t = barred s t) ∧
    (∀ ws g t, holdsToken (walkCounted s c va path) ws g t = holdsToken s ws g t) ∧ ∀ ws g t, sharesToken (walkCounted s c va path) ws g t = sharesToken s ws g t := by
  have killed := killed_walkCounted s c va path
  have only := walkCounted_only s c va path
  generalize walkCounted s c va path = u at killed only
  refine ⟨by rw [only]; rfl, fun t => ?_, fun ws g t => holdsToken_congr ?_ ?_ ?_ ?_ ?_ ?_ ws g t, fun ws g t => sharesToken_congr ?_ ?_ ?_ ?_ ?_ ?_ ws g t⟩
  · have device : u.device = s.device := by rw [only]
    rw [barred, orphaned, killed, device, barred, orphaned]
  all_goals rw [only]

theorem tokenWalkNow_none (none_ : tokenProbe s va = none) : tokenWalkNow s c va path = modCtx (walkCounted s c va path) c (tokenKept va cTokenNone 0) := by
  obtain ⟨probe, -, -, -⟩ := walkCounted_reads s c va path
  rw [none_] at probe
  unfold tokenWalkNow
  rw [← walkCounted]
  simp only [probe]
  rfl

theorem tokenWalkNow_barred {t : Token} {code : Nat} (here : tokenProbe s va = some t) (bars : barred s t = some code) :
    tokenWalkNow s c va path = modCtx (walkCounted s c va path) c (tokenKept va code t.xfer) := by
  obtain ⟨probe, barred_, -, -⟩ := walkCounted_reads s c va path
  rw [here] at probe
  unfold tokenWalkNow
  rw [← walkCounted]
  simp only [probe, barred_, bars]
  rfl

/-- The cache entry of a holder of an exclusive region. -/
def holderHit (s : State) (c path : Nat) (t : Token) : TokenHit :=
  { ctx := tokenTag c path, base := t.base, lsize := t.lsize, mode := t.mode, holds := true, shares := sharesToken s (holderWords s c path) (graphOfCtx s c) t, xfer := t.xfer }

theorem tokenWalkNow_held {t : Token} (here : tokenProbe s va = some t) (bars : barred s t = none) (mode : t.mode = .exclusive)
    (holds : holdsToken s (holderWords s c path) (graphOfCtx s c) t = true) : tokenWalkNow s c va path =
    modCtx (modCore (walkCounted s c va path) (coreOf c) (fun y => { y with
      tokenCache := (holderHit s c path t :: y.tokenCache.filter (fun z => !(z.ctx = tokenTag c path && z.base = t.base))).take 64 })) c (tokenKept va 0 t.xfer) := by
  obtain ⟨probe, barred_, holds_, shares⟩ := walkCounted_reads s c va path
  rw [here] at probe
  unfold tokenWalkNow
  rw [← walkCounted]
  simp only [probe, barred_, bars, holds_, shares, holds, mode, tokenFault, if_true, holderHit]
  rfl

end

theorem outside_tokenKept (s : State) (c va code : Nat) (x : BitVec 32) : Outside s (modCtx s c (tokenKept va code x)) [] := outside_modCtx s c (fun _ => ⟨rfl, rfl⟩)

theorem outside_readied (s : State) (c : Nat) : Outside s (modCtx s c (fun x => { x with run := .ready })) [] := outside_modCtx s c (fun _ => ⟨rfl, rfl⟩)

theorem outside_walkCounted (s : State) (c va path : Nat) : Outside s (walkCounted s c va path) [] :=
  outside_of (by rw [walkCounted_only]) (by rw [walkCounted_only])

section

variable {s : State} {c va path due : Nat} (waits : (ctxOf s c).run = .stalled (.tokenWalk va path due)) (time : due ≤ s.cycle)
include waits time

theorem tokenWalk_ends : exec (.tokenWalk c) s = .next (modCtx (tokenWalkNow s c va path) c (fun x => { x with run := .ready })) := by
  change execTokenWalk c s = _
  have early : ¬ s.cycle < due := Nat.not_lt.mpr time
  simp only [execTokenWalk, waits, early, if_false]

/-- A fault of the region is kept for the instruction (R112). -/
theorem tokenWalk_fails {code : Nat} {x : BitVec 32} (fails : tokenWalkNow s c va path = modCtx (walkCounted s c va path) c (tokenKept va code x)) :
    Gives (.tokenWalk c) s (fun t => Outside s t [] ∧ (ctxOf t c).run = .ready ∧ (va, code, x) ∈ (ctxOf t c).tokenFails) := by
  refine ⟨_, tokenWalk_ends waits time, ?_⟩
  rw [fails]
  refine ⟨outside_trans (outside_trans (outside_walkCounted s c va path) (outside_tokenKept _ _ _ _ _)) (outside_readied _ c), ?_, ?_⟩
  · rw [ctxOf_modCtx_self]
  · rw [ctxOf_modCtx_self, ctxOf_modCtx_self]
    exact List.mem_cons_self

theorem tokenWalk_fills {t : Token} (here : tokenProbe s va = some t) (bars : barred s t = none) (mode : t.mode = .exclusive)
    (holds : holdsToken s (holderWords s c path) (graphOfCtx s c) t = true) :
    Gives (.tokenWalk c) s (fun u => Outside s u [] ∧ (ctxOf u c).run = .ready ∧ ∃ e ∈ (coreAt u (coreOf c)).tokenCache, e.ctx = tokenTag c path ∧ e.base = t.base ∧
      e.lsize = t.lsize ∧ e.mode = .exclusive ∧ e.holds = true) := by
  refine ⟨_, tokenWalk_ends waits time, ?_⟩
  rw [tokenWalkNow_held s c va path here bars mode holds]
  refine ⟨outside_trans (outside_trans (outside_trans (outside_walkCounted s c va path) (outside_of rfl rfl)) (outside_tokenKept _ _ _ _ _)) (outside_readied _ c), ?_,
    holderHit s c path t, ?_, rfl, rfl, rfl, mode, rfl⟩
  · rw [ctxOf_modCtx_self]
  · rw [coreAt_modCtx, coreAt_modCtx, coreAt_modCore_self]
    exact List.mem_cons_self

end

/-! ### Errors -/

theorem uncorrectableError_marks {s : State} {pa : Nat} (here : backed s pa = true) (new : sget false s.poisoned (pa / 32) = false) :
    Gives (.uncorrectableError pa) s (fun t => Outside s t [] ∧ isPoisoned t pa = true ∧ t.statPoison = s.statPoison + 1 ∧ MemKept s t) := by
  have marks : poisonSector s pa = { s with poisoned := sput false s.poisoned (pa / 32) true, statPoison := s.statPoison + 1 } := by rw [poisonSector, new]; rfl
  refine ⟨poisonSector s pa, ?_, ?_⟩
  · change execUncorrectableError pa s = _
    rw [execUncorrectableError, if_pos here]
  · rw [marks]
    refine ⟨outside_of rfl rfl, ?_, rfl, fun _ => rfl⟩
    rw [isPoisoned, sget_sput_self, Bool.true_or]

/-- Settles O48: each event is followed through the line, sector, entry or page that it brings. -/
theorem fillsAndWalks : Obligations.FillsAndWalks := by
  unfold Obligations.FillsAndWalks
  refine ⟨fun s k l f here => ⟨lineFill_stale here, fun fresh there => ⟨lineFill_l2 here fresh there, lineFill_line here fresh there⟩⟩,
    fun s k l due home here time there => fetch_filled here time there,
    fun s i m r here time held => miss_sent here time held,
    fun s i m r y here time sent way => sectors_arrived here time sent way,
    fun s v c va l table r walks core alone time clean there => ⟨walk_goes_down walks time clean there,
      fun page n pte alive entry => walk_ends walks core alone time clean there page n pte alive entry,
      fun code entry waits => walk_fails walks core alone time clean there code entry waits⟩,
    fun s c va path due waits time => ⟨fun k here bars mode holds => tokenWalk_fills waits time here bars mode holds,
      fun none_ => tokenWalk_fails waits time (tokenWalkNow_none s c va path none_), fun k here bad => ?_⟩,
    fun s pa here new => uncorrectableError_marks here new⟩
  refine tokenWalk_fails waits time (tokenWalkNow_barred s c va path here ?_)
  rw [barred]
  by_cases taint : k.taint = true
  · rw [if_pos taint, if_pos taint]
  · rw [if_neg taint, if_neg taint, if_pos (bad.resolve_left taint)]

end Sys2Proof.Machine
end

