-- ==== Sys2Proof/Proofs/WaitsAndLimits.lean ====
section
/-! SUPPORT. O49: contexts that wait go on, and limits that run out (R80, R140, R143, R147, R188, R194, R213, R323). -/

namespace Sys2Proof.Machine

/-! ### Ends of groups and reports, for the other contexts -/

theorem ctxOf_showFlags_ne (s : State) {c e : Nat} (other : e ≠ c) : ctxOf (showFlags s c) e = ctxOf s e := by
  unfold showFlags
  dsimp only
  split
  · rfl
  · split <;> simp [ctxOf_modCtx, other]

theorem ctxOf_applySreg_ne (s : State) {c e : Nat} (n : Nat) (w : Word) (other : e ≠ c) : ctxOf (applySreg s c n w) e = ctxOf s e := by
  unfold applySreg
  split
  case h_1 =>
    dsimp only
    split
    · rfl
    · exact ctxOf_modCtx_ne s _ other
  case h_2 => exact ctxOf_modCtx_ne s _ other
  all_goals rfl

/-- The end of a context's group leaves the other contexts alone. -/
theorem ctxOf_endGroup_ne (s : State) {c e : Nat} (other : e ≠ c) : ctxOf (endGroup s c) e = ctxOf s e := by
  unfold endGroup
  dsimp only
  rw [ctxOf_modCtx_ne _ _ other, ← ctxOf_showFlags_ne s other]
  exact foldl_keeps (P := fun t => ctxOf t e = ctxOf (showFlags s c) e) (fun t x h => (ctxOf_applySreg_ne t x.1 x.2 other).trans h) _ rfl

theorem applySreg_dies (s : State) (c n : Nat) (w : Word) : (applySreg s c n w).dies = s.dies := by
  unfold applySreg
  split
  case h_1 =>
    dsimp only
    split <;> rfl
  all_goals rfl

theorem showFlags_dies (s : State) (c : Nat) : (showFlags s c).dies = s.dies := by
  rw [showFlags_only]

theorem endGroup_dies (s : State) (c : Nat) : (endGroup s c).dies = s.dies := by
  unfold endGroup
  exact foldl_keeps (P := fun t : State => t.dies = s.dies) (f := fun t (e : Nat × Word) => applySreg t c e.1 e.2)
    (fun t x h => (applySreg_dies t c x.1 x.2).trans h) (ctxOf s c).pendingS (showFlags_dies s c)

theorem outside_endGroup (s : State) (c : Nat) : Outside s (endGroup s c) [c] :=
  ⟨memByte_congr (endGroup_mem s c), fun e he => by rw [ctxOf_endGroup_ne s (fun same => he (by rw [same]; exact List.mem_singleton_self _))]; exact ⟨rfl, rfl⟩⟩

theorem outside_trans_of {s t u : State} {cs : List Nat} (h : Outside s t cs) (k : Outside t u cs) : Outside s u cs :=
  ⟨fun a => (k.1 a).trans (h.1 a), fun e he => ⟨((k.2 e he).1).trans (h.2 e he).1, ((k.2 e he).2).trans (h.2 e he).2⟩⟩

theorem outside_mono {s t : State} (cs : List Nat) (h : Outside s t []) : Outside s t cs := ⟨h.1, fun e _ => h.2 e (by simp)⟩

theorem hostWrite_ctxs (l : List Byte) : ∀ (s : State) (a : Nat), (hostWrite s a l).ctxs = s.ctxs := by
  induction l with
  | nil => exact fun _ _ => rfl
  | cons b l ih => intro s a; rw [hostWrite, ih]

theorem hostEvent_ctxs (s : State) (a b : Word) : (hostEvent s a b).ctxs = s.ctxs := by
  unfold hostEvent writeEvent
  repeat' split
  all_goals simp [hostWrite_ctxs]

theorem putRecord_ctxs (s : State) (k : Nat) (ws : List Word) : (putRecord s k ws).ctxs = s.ctxs := by
  unfold putRecord
  dsimp only
  split
  · rfl
  · rw [hostEvent_ctxs]
    rfl

theorem ctxOf_reportFor (s : State) (k o a : Nat) (p : Word) (f : FaultInfo) (e : Nat) : ctxOf (reportFor s k o a p f) e = ctxOf s e := by
  rw [ctxOf, reportFor, putRecord_ctxs]
  rfl

/-- With room in the fault queue of the die, a record without a context stands at its end (R200). -/
theorem faultQueue_reportFor {s : State} {k : Nat} (o a : Nat) (p : Word) (f : FaultInfo) (room : (dieAt s (dieOf (vertexOf k))).faultQueue.length < 256) :
    (dieAt (reportFor s k o a p f) (dieOf (vertexOf k))).faultQueue = (dieAt s (dieOf (vertexOf k))).faultQueue ++
      [recordWords f.code o f.reason false false a p f.addr 0 0 f.detail (f.xfer.setWidth 64)] := by
  have same : dieAt (countFault s k f.code) (dieOf (vertexOf k)) = dieAt s (dieOf (vertexOf k)) := rfl
  unfold reportFor putRecord
  simp only [same]
  rw [if_pos room, dieAt_setDie_self]

/-- A context stops, reported when its watchdog stopped it (R323). -/
theorem stopCtx_stops (s : State) (c : Nat) (dog : Bool) : Outside s (stopCtx s c dog) [] ∧
    ctxOf (stopCtx s c dog) c = { ctxOf s c with run := .stopped, stopWhy := none, popSince := none } := by
  have ctx (e : Nat) : ctxOf (stopCtx s c dog) e = ctxOf (modCtx s c (fun y => { y with run := .stopped, stopWhy := none, popSince := none })) e := by
    unfold stopCtx
    dsimp only
    split
    · exact ctxOf_reportCtx _ _ _ _ e
    · rfl
  refine ⟨⟨memByte_congr (stopCtx_mem s c dog), fun e _ => ?_⟩, by rw [ctx, ctxOf_modCtx_self]⟩
  rw [ctx, ctxOf_modCtx]
  split
  case isTrue same => rw [same]; exact ⟨rfl, rfl⟩
  case isFalse => exact ⟨rfl, rfl⟩

/-! ### Contexts that go on -/

section

variable {s : State} {c : Nat}

theorem contextReady_ends (here : (ctxOf s c).run = .groupEnd) (back : returning s c = false) (time : (ctxOf s c).readyAt ≤ s.cycle) (goes : (ctxOf s c).stopWhy = none) :
    exec (.contextReady c) s = .next (modCtx s c (fun y => { y with run := .ready })) := by
  change execContextReady c s = _
  have late : ¬ s.cycle < (ctxOf s c).readyAt := Nat.not_lt.mpr time
  simp only [execContextReady, here, back, late, goes, decide_false, Bool.or_self, Bool.false_eq_true, if_false]

theorem contextReady_stops (here : (ctxOf s c).run = .groupEnd) (back : returning s c = false) (time : (ctxOf s c).readyAt ≤ s.cycle) (asked : (ctxOf s c).stopWhy ≠ none) :
    Gives (.contextReady c) s (fun t => Outside s t [] ∧ (ctxOf t c).run = .stopped ∧ (ctxOf t c).pc = (ctxOf s c).pc) := by
  obtain ⟨dog, why⟩ := Option.ne_none_iff_exists'.mp asked
  obtain ⟨outside, ctx⟩ := stopCtx_stops s c dog
  have late : ¬ s.cycle < (ctxOf s c).readyAt := Nat.not_lt.mpr time
  refine ⟨stopCtx s c dog, ?_, outside, by rw [ctx], by rw [ctx]⟩
  change execContextReady c s = _
  simp only [execContextReady, here, back, late, why, decide_false, Bool.or_self, Bool.false_eq_true, if_false]

theorem contextReady_waits (here : (ctxOf s c).run = .groupEnd) (out : returning s c = true ∨ s.cycle < (ctxOf s c).readyAt) : exec (.contextReady c) s = .next s := by
  change execContextReady c s = _
  have waits : (returning s c || decide (s.cycle < (ctxOf s c).readyAt)) = true := by simpa using out
  simp only [execContextReady, here, waits, if_true]

theorem contextReady_retries {w : Stall} (here : (ctxOf s c).run = .stalled w) (may : retries s c w = true) :
    Gives (.contextReady c) s (fun t => Outside s t [] ∧ (ctxOf t c).run = .ready ∧ (ctxOf t c).pc = (ctxOf s c).pc ∧ (ctxOf t c).regs = (ctxOf s c).regs) := by
  have step : ∃ cooked : Ctx → Option Word, execContextReady c s = .next (modCtx s c (fun y => { y with run := .ready, cooked := cooked y })) := by
    simp only [execContextReady, here, may, Bool.not_true, Bool.false_eq_true, if_false]
    exact ⟨_, rfl⟩
  obtain ⟨cooked, step⟩ := step
  refine ⟨_, step, outside_modCtx s c (fun _ => ⟨rfl, rfl⟩), ?_, ?_, ?_⟩
  all_goals rw [ctxOf_modCtx_self]

/-- A context parked at a queue goes on exactly when its half has moved (R140). -/
theorem dataQueueResume_goes {j q : Nat} {w : Stall} {go : Prop} :
    let k := coreOf c
    let lost := (coreAt s (if isExecute k then accessOf k else q)).killed = true ∨ (coreAt s q).queuesLost.contains branchPort = true
    (w, go) ∈ [(Stall.qPop j, (queueLost s k j = true ∨ qInOf s k j ≠ []) ∧ popAhead { s with cur := c } [j] = false),
      (.qPush j, queueLost s k j = true ∨ (qOutOf s k j).length < 16),
      (.branchPop q, lost ∨ boqOf s q (!(isExecute k)) ≠ []), (.branchPush q, lost ∨ (boqOf s q (isExecute k)).length < 32)] →
    (ctxOf s c).run = .stalled w →
    (go → exec (.dataQueueResume c) s = .next (modCtx s c (fun x => { x with run := .ready }))) ∧
    (¬go → exec (.dataQueueResume c) s = .next s) := by
  dsimp only
  intro which here
  suffices ∀ b : Bool, (b = true ↔ go) → execDataQueueResume c s = .next (if b then modCtx s c (fun x => { x with run := .ready }) else s) →
      (go → exec (.dataQueueResume c) s = .next (modCtx s c (fun x => { x with run := .ready }))) ∧ (¬go → exec (.dataQueueResume c) s = .next s) by
    simp only [List.mem_cons, Prod.mk.injEq, List.not_mem_nil, or_false] at which
    obtain ⟨rfl, rfl⟩ | ⟨rfl, rfl⟩ | ⟨rfl, rfl⟩ | ⟨rfl, rfl⟩ := which
    · refine this ((queueLost s (coreOf c) j || !(qInOf s (coreOf c) j).isEmpty) && !(popAhead { s with cur := c } [j])) (by simp) ?_
      simp only [execDataQueueResume, here]
    · refine this (queueLost s (coreOf c) j || (qOutOf s (coreOf c) j).length < 16) (by simp) ?_
      simp only [execDataQueueResume, here]
    · refine this (((coreAt s (if isExecute (coreOf c) then accessOf (coreOf c) else q)).killed || (coreAt s q).queuesLost.contains branchPort) || !(boqOf s q !(isExecute (coreOf c))).isEmpty) (by simp) ?_
      simp only [execDataQueueResume, here]
    · refine this (((coreAt s (if isExecute (coreOf c) then accessOf (coreOf c) else q)).killed || (coreAt s q).queuesLost.contains branchPort) || (boqOf s q (isExecute (coreOf c))).length < 32) (by simp) ?_
      simp only [execDataQueueResume, here]
  intro b iff step
  refine ⟨fun h => ?_, fun h => ?_⟩
  · rw [iff.mpr h, if_pos rfl] at step
    exact step
  · rw [Bool.eq_false_iff.mpr (fun hb => h (iff.mp hb)), if_neg Bool.false_ne_true] at step
    exact step

/-- A context that waits for a neighbour register goes on when its presence bit is set, or the sending core is out, in its turn (R80). -/
theorem neighbourResume_reads {j : Nat} (here : (ctxOf s c).run = .stalled (.nRead j)) :
    let k := coreOf c
    let first := ((List.range 8).map (fun i => 8 * k + ((coreAt s k).turn + 1 + i) % 8)).find? (fun d => (ctxOf s d).run = .stalled (.nRead j))
    ((coreAt s k).npres.getLsbD j = true → first = some c → exec (.neighbourResume c) s = .next (modCtx s c (fun x => { x with run := .ready }))) ∧
    ((coreAt s k).npres.getLsbD j = false ∨ first ≠ some c → (coreAt s (feederOf k j)).killed = false → exec (.neighbourResume c) s = .next s) := by
  have bit : nbit (coreAt s (coreOf c)).npres.toNat j = (coreAt s (coreOf c)).npres.getLsbD j := rfl
  dsimp only
  refine ⟨fun present first => ?_, fun waits alive => ?_⟩
  · change execNeighbourResume c s = _
    simp only [execNeighbourResume, here, bit, present, first, decide_true, Bool.and_self, Bool.true_or, if_true]
  · change execNeighbourResume c s = _
    simp only [execNeighbourResume, here, bit, alive, Bool.or_false]
    rw [if_neg]
    rw [Bool.and_eq_true, decide_eq_true_eq]
    rintro ⟨present, first⟩
    obtain absent | other := waits
    · rw [absent] at present
      exact Bool.false_ne_true present
    · exact other first

/-- A waiting NPUT writes its value once the register is free and no earlier one of its core waits for it (R80, R317). -/
theorem neighbourResume_writes {k since : Nat} {o : OpE} {x : Word} (here : (ctxOf s c).run = .stalled (.nWrite k o x since)) (alive : (coreAt s k).killed = false) :
    let j := o.imm.toNat % 4
    ((coreAt s k).npres.getLsbD j = false → (∀ e ∈ putsWaiting s (coreOf c) k j, since ≤ e.1) →
      Gives (.neighbourResume c) s (fun t => MemKept s t ∧ (ctxOf t c).pc = (ctxOf s c).pc + 8 ∧ sget 0 (coreAt t k).n j = x ∧
        (coreAt t k).npres.getLsbD j = true)) ∧
    ((coreAt s k).npres.getLsbD j = true ∨ (∃ e ∈ putsWaiting s (coreOf c) k j, e.1 < since) → exec (.neighbourResume c) s = .next s) := by
  have bit (j : Nat) : nbit (coreAt s k).npres.toNat j = (coreAt s k).npres.getLsbD j := rfl
  dsimp only
  refine ⟨fun free first => ?_, fun waits => ?_⟩
  · have none_ : (putsWaiting s (coreOf c) k (o.imm.toNat % 4)).any (fun e => e.1 < since) = false := by
      rw [List.any_eq_false]
      exact fun e he => by simpa using first e he
    obtain ⟨u, put⟩ : ∃ u, u = putNeighbour { modCtx s c (fun x => { x with run := .ready }) with cur := c } k (o.imm.toNat % 4) x := ⟨_, rfl⟩
    have cur : u.cur = c := by rw [put]; rfl
    have run : (ctxOf u u.cur).run = .ready := by
      rw [cur, put]
      change (ctxOf (modCtx s c (fun x => { x with run := .ready })) c).run = _
      rw [ctxOf_modCtx_self]
    have core : coreAt u k = { coreAt s k with n := sput 0 (coreAt s k).n (o.imm.toNat % 4) x, npres := (coreAt s k).npres ||| (1 : BitVec 4) <<< (o.imm.toNat % 4) } := by
      rw [put, putNeighbour, coreAt_modCore_self]
      rfl
    refine ⟨retire (.nput o) u ((ctxOf s c).pc + 8), ?_, fun a => ?_, ?_, ?_, ?_⟩
    · change execNeighbourResume c s = _
      simp only [execNeighbourResume, here, alive, bit, free, none_, Bool.or_self, Bool.false_eq_true, if_false, put]
    · rw [memByte_congr (retire_mem _ _ _), put]
      rfl
    · have pc := retire_pc (.nput o) u ((ctxOf s c).pc + 8) run
      rwa [cur] at pc
    · rw [core_retire Core.n (fun _ => rfl), core]
      exact sget_sput_self _ _ _ _
    · rw [core_retire Core.npres (fun _ => rfl), core]
      have small : o.imm.toNat % 4 < 4 := Nat.mod_lt _ (by decide)
      generalize o.imm.toNat % 4 = j at small
      simp [small]
  · change execNeighbourResume c s = _
    simp only [execNeighbourResume, here, alive, bit, Bool.false_eq_true, if_false]
    rw [if_pos]
    rw [Bool.or_eq_true, List.any_eq_true]
    simpa using waits

/-! ### Outputs of lockstep contexts, chords -/

theorem lockstepOutput_agrees (pair : (ctxOf s c).lockstep = true) (here : (ctxOf s c).run = .stalled .lockstep) (time : (ctxOf s c).heldUntil ≤ s.cycle) :
    exec (.lockstepOutput c true) s = .next (modCtx s c (fun y => { y with run := .ready, lockPass := true })) := by
  change execLockstepOutput c true s = _
  have early : ¬ s.cycle < (ctxOf s c).heldUntil := Nat.not_lt.mpr time
  simp only [execLockstepOutput, pair, here, early, decide_true, decide_false, Bool.and_self, Bool.not_true, Bool.or_self, Bool.false_eq_true, if_false, if_true]

/-- Copies that disagree: the context traps with LOCKSTEP and its copy stops (R213). -/
theorem lockstepOutput_differs (pair : (ctxOf s c).lockstep = true) (here : (ctxOf s c).run = .stalled .lockstep) (time : (ctxOf s c).heldUntil ≤ s.cycle) :
    let d := dieOf (vertexOf (coreOf c))
    Gives (.lockstepOutput c false) s (fun t => Outside s t [c] ∧ (ctxOf t c).run = .trapped ∧ (ctxOf t (partnerOf c)).run = .stopped ∧
      (ctxOf t c).sendBuf = [] ∧ ((dieAt s d).faultQueue.length < 256 → (dieAt t d).faultQueue = (dieAt s d).faultQueue ++
        [recordWords cLockstep 3 0 false false (agentOf s c) (ctxOf s c).pc (outputAddr s c) 0 0 0 0])) := by
  dsimp only
  obtain ⟨u, report⟩ : ∃ u, u = reportFor s (coreOf c) 3 (agentOf s c) (ctxOf s c).pc { code := cLockstep, addr := outputAddr s c } := ⟨_, rfl⟩
  obtain ⟨v, trapped⟩ : ∃ v, v = modCtx (endGroup u c) c (fun y => { y with run := .trapped, skip := false, cooked := none, sendBuf := [] }) := ⟨_, rfl⟩
  have early : ¬ s.cycle < (ctxOf s c).heldUntil := Nat.not_lt.mpr time
  have ends : Outside s (endGroup u c) [c] := by
    refine outside_trans_of (outside_mono [c] ⟨fun a => ?_, fun e _ => ?_⟩) (outside_endGroup u c)
    · rw [report]
      exact memByte_congr (reportFor_mem _ _ _ _ _ _) a
    · rw [report, ctxOf_reportFor]
      exact ⟨rfl, rfl⟩
  refine ⟨modCtx v (partnerOf c) (fun y => { y with run := .stopped }), ?_, ⟨fun a => ends.1 a ▸ (by rw [trapped]; rfl), fun e he => ?_⟩, ?_, ?_, ?_, fun room => ?_⟩
  · change execLockstepOutput c false s = _
    simp only [execLockstepOutput, pair, here, early, decide_true, decide_false, Bool.and_self, Bool.not_true, Bool.or_self, Bool.false_eq_true, if_false, trapped, report]
  · have other : e ≠ c := fun same => he (by rw [same]; exact List.mem_singleton_self _)
    have regs : (ctxOf v e).regs = (ctxOf s e).regs ∧ (ctxOf v e).pc = (ctxOf s e).pc := by
      rw [trapped, ctxOf_modCtx_ne _ _ other]
      exact ends.2 e he
    rw [ctxOf_modCtx]
    split
    case isTrue same => rw [same] at regs; rw [same]; exact regs
    case isFalse => exact regs
  · rw [ctxOf_modCtx_ne _ _ (partnerOf_ne c).symm, trapped, ctxOf_modCtx_self]
  · rw [ctxOf_modCtx_self]
  · rw [ctxOf_modCtx_ne _ _ (partnerOf_ne c).symm, trapped, ctxOf_modCtx_self]
  · rw [dieAt_modCtx, trapped, dieAt_modCtx, dieAt, endGroup_dies, ← dieAt, report, faultQueue_reportFor _ _ _ _ room]
    rfl

theorem chordWordArrival_arrives {k due : Nat} {x : Option Vec} {l : List (Nat × Option Vec)} (here : (coreAt s k).portIn = (due, x) :: l) (time : due ≤ s.cycle) :
    exec (.chordWordArrival k) s = .next (modCore s k (fun y => { y with port := y.port ++ [x], portIn := l })) := by
  change execChordWordArrival k s = _
  have early : ¬ s.cycle < due := Nat.not_lt.mpr time
  simp only [execChordWordArrival, here, early, if_false]

/-! ### Limits -/

theorem budgetExpiry_waiting {e : Nat} {w : Stall} (limit : (ctxOf s c).budgetEnd = some e) (time : e ≤ s.cycle) (inside : (ctxOf s c).hmode = true)
    (here : (ctxOf s c).run = .stalled w) (still : w ≠ .transfer) (back : budgetWaits s c = false) :
    exec (.budgetExpiry c) s = .next (takeTrap (dropWaiter (if (ctxOf s c).tried then countEvent s c else s) c) c { code := cBudget }) := by
  change execBudgetExpiry c s = _
  have early : ¬ s.cycle < e := Nat.not_lt.mpr time
  simp only [execBudgetExpiry, limit, early, inside, here, if_true, if_false]
  rw [back, if_neg Bool.false_ne_true]

theorem budgetExpiry_groupEnd {e : Nat} (limit : (ctxOf s c).budgetEnd = some e) (time : e ≤ s.cycle) (inside : (ctxOf s c).hmode = true)
    (here : (ctxOf s c).run = .groupEnd) :
    (returning s c = false → (ctxOf s c).readyAt ≤ s.cycle → exec (.budgetExpiry c) s = .next (takeTrap s c { code := cBudget })) ∧
    (returning s c = true ∨ s.cycle < (ctxOf s c).readyAt → exec (.budgetExpiry c) s = .next s) := by
  have early : ¬ s.cycle < e := Nat.not_lt.mpr time
  refine ⟨fun back ready => ?_, fun out => ?_⟩
  · change execBudgetExpiry c s = _
    have late : ¬ s.cycle < (ctxOf s c).readyAt := Nat.not_lt.mpr ready
    simp only [execBudgetExpiry, limit, early, inside, here, back, late, decide_false, Bool.or_self, Bool.false_eq_true, if_true, if_false]
  · change execBudgetExpiry c s = _
    have waits : (returning s c || decide (s.cycle < (ctxOf s c).readyAt)) = true := by simpa using out
    simp only [execBudgetExpiry, limit, early, inside, here, waits, if_true, if_false]

theorem budgetExpiry_early {e : Nat} (limit : (ctxOf s c).budgetEnd = some e) (time : s.cycle < e) : exec (.budgetExpiry c) s = .next s := by
  change execBudgetExpiry c s = _
  simp only [execBudgetExpiry, limit, time, if_true]

/-- A gang member whose budget runs out stops, and its gang's pre-emption is asked for (R194). -/
theorem budgetExpiry_member {e g : Nat} {y : Gang} (limit : (ctxOf s c).budgetEnd = some e) (time : e ≤ s.cycle) (outside : (ctxOf s c).hmode = false)
    (member : (ctxOf s c).gang = some g) (gang : sget none s.gangs g = some y) (here : (ctxOf s c).run = .ready) :
    Gives (.budgetExpiry c) s (fun t => Outside s t [c] ∧ sget none t.gangs g = some { y with preempt := true } ∧ (ctxOf t c).run = .preempted) := by
  have early : ¬ s.cycle < e := Nat.not_lt.mpr time
  obtain ⟨u, asked⟩ : ∃ u, u = dropWaits (setGang s g (some { y with preempt := true })) c := ⟨_, rfl⟩
  refine ⟨modCtx (endGroup u c) c (fun z => { z with run := .preempted, popSince := none }), ?_, ?_, ?_, ?_⟩
  · change execBudgetExpiry c s = _
    simp only [execBudgetExpiry, limit, early, outside, member, gangAt, gang, here, Option.bind_some, Option.map_some, Bool.false_eq_true, if_false, asked]
  · refine outside_trans_of (outside_trans_of (outside_mono [c] (outside_of ?_ ?_)) (outside_endGroup u c)) (outside_mono [c] (outside_modCtx _ c (fun _ => ⟨rfl, rfl⟩)))
    all_goals rw [asked]; rfl
  · have gangs : (endGroup u c).gangs = u.gangs := (congrArg State.gangs (endGroup_rest_any u c) : (endGroup u c).rest.gangs = u.rest.gangs)
    change sget none (endGroup u c).gangs g = _
    have set_ (x : Option Gang) : (dropWaits (setGang s g x) c).gangs = sput none s.gangs g x := rfl
    rw [gangs, asked, set_, sget_sput_self]
  · rw [ctxOf_modCtx_self]

/-- The watchdog stops its context at the group end, and asks one that runs to stop there (R323). -/
theorem watchdogExpiry_acts {w : Nat} (limit : (ctxOf s c).watchdog = some w) (time : w ≤ s.cycle) :
    let d := dieOf (vertexOf (coreOf c));
    ((ctxOf s c).run = .groupEnd → Gives (.watchdogExpiry c) s (fun t => Outside s t [] ∧ (ctxOf t c).run = .stopped ∧ (ctxOf t c).watchdog = none ∧
      ((ctxOf s c).slot = none → (dieAt s d).faultQueue.length < 256 → (dieAt t d).faultQueue = (dieAt s d).faultQueue ++
        [recordWords cWatchdog 5 0 (ctxOf s c).cip (ctxOf s c).hmode (agentOf s c) (ctxOf s c).pc 0 0 0 0 0]))) ∧
    ((ctxOf s c).run = .ready → (ctxOf s c).group.len ≠ 0 →
      Gives (.watchdogExpiry c) s (fun t => Outside s t [] ∧ (ctxOf t c).run = .ready ∧ (ctxOf t c).stopWhy = some true ∧ (ctxOf t c).watchdog = none)) := by
  have early : ¬ s.cycle < w := Nat.not_lt.mpr time
  obtain ⟨u, off⟩ : ∃ u, u = modCtx s c (fun x => { x with watchdog := none }) := ⟨_, rfl⟩
  have frame : Outside s u [] := off ▸ outside_modCtx s c (fun _ => ⟨rfl, rfl⟩)
  have ctx : ctxOf u c = { ctxOf s c with watchdog := none } := by rw [off, ctxOf_modCtx_self]
  dsimp only
  refine ⟨fun here => ?_, fun here inGroup => ?_⟩
  · obtain ⟨stops, at_⟩ := stopCtx_stops u c true
    refine ⟨stopCtx u c true, ?_, outside_trans frame stops, by rw [at_], by rw [at_, ctx], fun slot room => ?_⟩
    · change execWatchdogExpiry c s = _
      simp only [execWatchdogExpiry, limit, early, if_false, ← off, ctx, here]
    · obtain ⟨v, stopped⟩ : ∃ v, v = modCtx u c (fun y => { y with run := .stopped, stopWhy := none, popSince := none }) := ⟨_, rfl⟩
      have now : ctxOf v c = { ctxOf s c with watchdog := none, run := .stopped, stopWhy := none, popSince := none } := by rw [stopped, ctxOf_modCtx_self, ctx]
      have dies : dieAt v (dieOf (vertOf c)) = dieAt s (dieOf (vertOf c)) := by rw [stopped, off]; rfl
      have device : agentOf v c = agentOf s c := by rw [stopped, off]; rfl
      rw [vertexOf_coreOf] at room
      rw [stopCtx, ← stopped, if_pos rfl, vertexOf_coreOf, faultQueue_reportCtx 5 _ (by rw [now, slot]) (by rw [dies]; exact room), dies, device, now]
      rfl
  · refine ⟨modCtx u c (fun x => { x with stopWhy := some true }), ?_, outside_trans frame (outside_modCtx u c (fun _ => ⟨rfl, rfl⟩)), ?_, ?_, ?_⟩
    · change execWatchdogExpiry c s = _
      simp only [execWatchdogExpiry, limit, early, if_false, ← off, ctx, here, inGroup]
    · rw [ctxOf_modCtx_self, ctx, here]
    · rw [ctxOf_modCtx_self]
    · rw [ctxOf_modCtx_self, ctx]

theorem chordTimeout_traps {since dest : Nat} (here : (ctxOf s c).run = .stalled (.chordOpen since dest)) (time : since + 2 ^ 20 ≤ s.cycle) (settled : unfinished s c = false) :
    exec (.chordTimeout c) s = .next (takeTrap (countEvent s c) c { code := cChordTimeout }) := by
  change execChordTimeout c s = _
  have late : ¬ s.cycle < since + 2 ^ 20 := Nat.not_lt.mpr time
  simp only [execChordTimeout, here, late, settled, decide_false, Bool.or_self, Bool.false_eq_true, if_false]

theorem chordTimeout_waits {since dest : Nat} (here : (ctxOf s c).run = .stalled (.chordOpen since dest)) (time : s.cycle < since + 2 ^ 20) :
    exec (.chordTimeout c) s = .next s := by
  change execChordTimeout c s = _
  simp only [execChordTimeout, here, time, decide_true, Bool.true_or, if_true]

end

/-- Settles O49: one lemma for each wait and each limit. -/
theorem waitsAndLimits : Obligations.WaitsAndLimits := by
  unfold Obligations.WaitsAndLimits
  exact ⟨fun s c here back time goes => contextReady_ends here back time goes,
    fun s c here back time asked => contextReady_stops here back time asked,
    fun s c here out => contextReady_waits here out,
    fun s c w here may => contextReady_retries here may,
    fun s c j q w go which here => dataQueueResume_goes which here,
    fun s c j here _ => neighbourResume_reads here,
    fun s c k since o x here alive => neighbourResume_writes here alive,
    fun s c pair here time => lockstepOutput_agrees pair here time,
    fun s c pair here time => lockstepOutput_differs pair here time,
    fun s k due x l here time => chordWordArrival_arrives here time,
    fun s c e w limit time inside here still back => budgetExpiry_waiting limit time inside here still back,
    fun s c e limit time inside here => budgetExpiry_groupEnd limit time inside here,
    fun s c e limit time => budgetExpiry_early limit time,
    fun s c e g y limit time outside member gang here => budgetExpiry_member limit time outside member gang here,
    fun s c w limit time => watchdogExpiry_acts limit time,
    fun s c since dest here time settled => chordTimeout_traps here time settled,
    fun s c since dest here time => chordTimeout_waits here time⟩

end Sys2Proof.Machine
end

