-- ==== Sys2Proof/Proofs/TrapEnds.lean ====
section
/-! SUPPORT. O56: the ends of a trap, killed cores and their containment (R200, R201, R203, R215 to R217). -/

namespace Sys2Proof.Machine

/-! ### What steps of the firmware leave alone -/

/-- A state that differs in cores and in the messages under way: what stood in an inbox may have gone, and no message is lost. -/
structure MailMoved (s t : State) : Prop where
  only : t = { s with cores := t.cores, messages := t.messages, nextId := t.nextId, cells := t.cells }
  inbox : ∀ k, ∀ q ∈ (coreAt t k).inbox, q ∈ (coreAt s k).inbox
  messages : ∀ g ∈ s.messages, g ∈ t.messages

namespace MailMoved

theorem refl (s : State) : MailMoved s s := ⟨rfl, fun _ _ h => h, fun _ h => h⟩

theorem trans {s t u : State} (h : MailMoved s t) (k : MailMoved t u) : MailMoved s u where
  only := by rw [k.only, h.only]
  inbox j q hq := h.inbox j q (k.inbox j q hq)
  messages g hg := k.messages g (h.messages g hg)

variable {s t : State} (h : MailMoved s t)
include h

theorem ctxs : t.ctxs = s.ctxs := by rw [h.only]
theorem mem : t.mem = s.mem := by rw [h.only]
theorem gangs : t.gangs = s.gangs := by rw [h.only]
theorem dies : t.dies = s.dies := by rw [h.only]
theorem ctx (c : Nat) : ctxOf t c = ctxOf s c := by rw [ctxOf, h.ctxs, ctxOf]

end MailMoved

theorem freeSlot_mail (s : State) (k i : Nat) : MailMoved s (freeSlot s k i) where
  only := rfl
  inbox j q hq := by
    rw [freeSlot, coreAt_modCore] at hq
    split at hq
    case isTrue same => rw [same]; exact (List.mem_filter.mp hq).1
    case isFalse => exact hq
  messages _ h := h

theorem noticeFlight_mail (s : State) (k code : Nat) (m : Msg) : MailMoved s (noticeFlight s k code m) :=
  ⟨rfl, fun _ _ h => h, fun _ h => List.mem_append_left _ h⟩

theorem modCore_mail (s : State) (k : Nat) {f : Core → Core} (hf : ∀ x, (f x).inbox = x.inbox) : MailMoved s (modCore s k f) where
  only := rfl
  inbox j q hq := by
    rw [coreAt_modCore] at hq
    split at hq
    case isTrue same => rw [hf] at hq; rw [same]; exact hq
    case isFalse => exact hq
  messages _ h := h

theorem releaseBlocks_mail (s : State) (p : PairRef) : MailMoved s (releaseBlocks s p) := by
  refine foldl_keeps (P := fun t => MailMoved s t) (fun t r h => h.trans ?_) _ (.refl s)
  split
  · exact ⟨rfl, fun _ _ h => h, fun _ h => h⟩
  · exact .refl t

theorem closeChord_mail (s : State) (c : Nat) : MailMoved s (closeChord s c) := by
  unfold closeChord
  dsimp only
  split
  · split
    · exact .refl s
    · split
      · exact modCore_mail s _ (fun _ => rfl)
      · refine MailMoved.trans (modCore_mail s _ ?_) (modCore_mail _ _ ?_)
        · exact fun _ => rfl
        · exact fun _ => rfl
  · exact .refl s

theorem keepHolds_mail (s : State) (k : Nat) : MailMoved s (keepHolds s k) := by
  unfold keepHolds
  split
  · exact .refl s
  · exact modCore_mail s k (fun _ => rfl)

theorem dropMessage_mail (s : State) (c : Nat) : MailMoved s (dropMessage s c) := by
  unfold dropMessage
  split
  · exact .refl s
  · refine MailMoved.trans ?_ ((freeSlot_mail _ _ _).trans (noticeFlight_mail _ _ _ _))
    split
    · exact releaseBlocks_mail _ _
    · exact .refl s

theorem releaseHandler_mail (s : State) (c : Nat) : MailMoved s (releaseHandler s c) := by
  have freed (t : State) : MailMoved t (match slotOf t c with | some q => freeSlot t (coreOf c) q.index | none => t) := by
    split
    · exact freeSlot_mail _ _ _
    · exact .refl t
  cases pair : (ctxOf s c).pair with
  | none =>
    simp only [releaseHandler, pair]
    exact freed s
  | some p =>
    by_cases committed : (ctxOf s c).committed = true
    · simp only [releaseHandler, pair, committed, if_true]
      exact freed s
    · simp only [releaseHandler, pair, committed]
      exact (releaseBlocks_mail s p).trans (freed _)

/-! ### Contexts made idle -/

/-- An idle context keeps its registers, modes, account and lease (R87, R185). -/
def idledCtx (x : Ctx) : Ctx := { Ctx.reset with
  regs := x.regs, pc := x.pc, allot := x.allot, rmode := x.rmode, acct := x.acct, lease := x.lease, groupNo := x.groupNo + 1
  run := if x.preemptAsked then .reserved else .idle }

theorem idleCtx_eq (s : State) (c : Nat) : idleCtx s c = modCtx (keepHolds s (coreOf c)) c idledCtx := rfl

theorem ctxOf_idleCtx (s : State) (c e : Nat) : ctxOf (idleCtx s c) e = if e = c then idledCtx (ctxOf s c) else ctxOf s e := by
  rw [idleCtx_eq, ctxOf_modCtx, (keepHolds_mail s _).ctx, (keepHolds_mail s _).ctx]

theorem outside_idleCtx (s : State) (c : Nat) : Outside s (idleCtx s c) [] :=
  outside_trans (outside_of (keepHolds_mail s _).mem (keepHolds_mail s _).ctxs) (outside_modCtx _ c (fun _ => ⟨rfl, rfl⟩))

theorem inbox_idleCtx (s : State) (c k : Nat) : (coreAt (idleCtx s c) k).inbox = (coreAt s k).inbox := by
  rw [idleCtx_eq, coreAt_modCtx, keepHolds]
  split
  · rfl
  · rw [coreAt_modCore]
    split
    case isTrue same => rw [same]
    case isFalse => rfl

theorem messages_idleCtx (s : State) (c : Nat) : (idleCtx s c).messages = s.messages := by
  rw [idleCtx_eq, keepHolds]
  split <;> rfl

/-- A raised lease turns the messages that name it away (R202). -/
theorem raiseLease_mail (s : State) (c : Nat) : MailMoved (modCtx s c (fun x => { x with lease := x.lease + 1 })) (raiseLease s c) :=
  foldl_keeps (P := fun t => MailMoved (modCtx s c (fun x => { x with lease := x.lease + 1 })) t)
    (fun _ q h => h.trans ((freeSlot_mail _ _ q.index).trans (noticeFlight_mail _ _ _ _))) _ (.refl _)

/-! ### The three ends of a trap -/

section

variable {s : State} {c : Nat}

theorem trapResume_resumes (held : heldByFault s c = true) (outside : (ctxOf s c).hmode = false) (alone : (ctxOf s c).lockstep = false) :
    Gives (.trapResume c) s (fun t => Outside s t [c] ∧ (ctxOf t c).run = (if returning s c then .groupEnd else .ready) ∧ (ctxOf t c).regs = (ctxOf s c).regs ∧ MemKept s t ∧
      (ctxOf t c).pc = if (ctxOf s c).skip then (ctxOf s c).pc + 8 else (ctxOf s c).pc) := by
  refine ⟨resumeTrap s c, ?_, ⟨fun _ => rfl, fun e he => ?_⟩, ?_, ?_, fun _ => rfl, ?_⟩
  · change execTrapResume c s = _
    simp only [execTrapResume, held, outside, alone, Bool.not_true, Bool.false_and, Bool.or_self, Bool.false_eq_true, if_false]
  · rw [resumeTrap, ctxOf_modCtx_ne _ _ (fun same => he (by rw [same]; exact List.mem_singleton_self _))]
    exact ⟨rfl, rfl⟩
  all_goals rw [resumeTrap, ctxOf_modCtx_self]
  rfl

theorem trapResume_handler (inside : (ctxOf s c).hmode = true) : exec (.trapResume c) s = .next s := by
  change execTrapResume c s = _
  simp only [execTrapResume, inside, Bool.or_true, Bool.true_or, if_true]

theorem trapRelease_releases (up : firmwareUp s c = true) (here : (ctxOf s c).run = .trapped) (inside : (ctxOf s c).hmode = true) (whole : (ctxOf s c).cip = false)
    (wanted : (ctxOf s c).preemptAsked = false) :
    Gives (.trapRelease c) s (fun t => Outside s t [] ∧ (ctxOf t c).run = .idle ∧ (ctxOf t c).hmode = false ∧ (ctxOf t c).lease = (ctxOf s c).lease ∧
      (coreAt t (coreOf c)).inbox = (coreAt s (coreOf c)).inbox) := by
  have now : ctxOf (idleCtx s c) c = idledCtx (ctxOf s c) := by rw [ctxOf_idleCtx, if_pos rfl]
  refine ⟨idleCtx s c, ?_, outside_idleCtx s c, ?_, ?_, ?_, inbox_idleCtx s c _⟩
  · change execTrapRelease c s = _
    simp only [execTrapRelease, up, here, inside, whole, decide_true, Bool.and_self, Bool.not_false, if_true, releaseTrap]
  · rw [now, idledCtx, wanted]
    rfl
  · rw [now]
    rfl
  · rw [now]
    rfl

theorem trapRelease_part (part : (ctxOf s c).cip = true) : exec (.trapRelease c) s = .next s := by
  change execTrapRelease c s = _
  simp only [execTrapRelease, part, Bool.not_true, Bool.and_false, Bool.false_eq_true, if_false]

/-- A retired context: what its core's inbox held may have gone, and no message is lost. -/
theorem trapRetire_retires (held : heldByFault s c = true) (nogang : (ctxOf s c).gang = none) (wanted : (ctxOf s c).preemptAsked = false) :
    ∃ t, exec (.trapRetire c) s = .next t ∧ Outside s t [] ∧ (ctxOf t c).run = .idle ∧ (ctxOf t c).hmode = false ∧ (ctxOf t c).lease = (ctxOf s c).lease + 1 ∧
      (∀ k, ∀ q ∈ (coreAt t k).inbox, q ∈ (coreAt (if (ctxOf s c).hmode then dropMessage s c else s) k).inbox) ∧
      ∀ g ∈ (if (ctxOf s c).hmode then dropMessage s c else s).messages, g ∈ t.messages := by
  obtain ⟨u, dropped⟩ : ∃ u, u = if (ctxOf s c).hmode then dropMessage s c else s := ⟨_, rfl⟩
  have first : MailMoved s u := by
    rw [dropped]
    split
    · exact dropMessage_mail s c
    · exact .refl s
  have mail := first.trans (closeChord_mail u c)
  obtain ⟨v, closed⟩ : ∃ v, v = closeChord u c := ⟨_, rfl⟩
  rw [← closed] at mail
  have alone : retireMember v c = v := by
    unfold retireMember
    simp only [mail.ctx, nogang, Option.bind_none]
  obtain ⟨w, idled⟩ : ∃ w, w = if (ctxOf s c).lockstep then idleCtx v (partnerOf c) else v := ⟨_, rfl⟩
  have still : Outside v w [] ∧ ctxOf w c = ctxOf s c ∧ (∀ k, (coreAt w k).inbox = (coreAt v k).inbox) ∧ w.messages = v.messages := by
    rw [idled]
    split
    · exact ⟨outside_idleCtx v _, by rw [ctxOf_idleCtx, if_neg (partnerOf_ne c).symm, mail.ctx], inbox_idleCtx v _, messages_idleCtx v _⟩
    · exact ⟨⟨fun _ => rfl, fun _ _ => ⟨rfl, rfl⟩⟩, mail.ctx c, fun _ => rfl, rfl⟩
  obtain ⟨frame, same, inbox, messages⟩ := still
  have raised := raiseLease_mail (idleCtx w c) c
  have now : ctxOf (raiseLease (idleCtx w c) c) c = { idledCtx (ctxOf s c) with lease := (ctxOf s c).lease + 1 } := by
    rw [raised.ctx, ctxOf_modCtx_self, ctxOf_idleCtx, if_pos rfl, same]
    rfl
  refine ⟨raiseLease (idleCtx w c) c, ?_, ?_, ?_, ?_, ?_, fun k q hq => ?_, fun g hg => ?_⟩
  · change execTrapRetire c s = _
    simp only [execTrapRetire, held, if_true, retireCtx, ← dropped, ← closed, alone, ← idled]
  · refine outside_trans (outside_of mail.mem mail.ctxs) (outside_trans frame (outside_trans (outside_idleCtx w c) (outside_trans ?_ (outside_of raised.mem raised.ctxs))))
    exact outside_modCtx _ c (fun _ => ⟨rfl, rfl⟩)
  · rw [now]
    change (if (ctxOf s c).preemptAsked then Run.reserved else .idle) = .idle
    rw [wanted]
    rfl
  · rw [now]
    rfl
  · rw [now]
  · have back := raised.inbox k q hq
    rw [coreAt_modCtx, inbox_idleCtx, inbox, closed] at back
    rw [← dropped]
    exact (closeChord_mail u c).inbox k q back
  · refine raised.messages g ?_
    change g ∈ (idleCtx w c).messages
    rw [messages_idleCtx, messages, closed]
    rw [← dropped] at hg
    exact (closeChord_mail u c).messages g hg

/-- A retired handler's message goes back to its sender as STALE (R201, R202). -/
theorem dropMessage_notice {q : Slot} (here : slotOf s c = some q) (plain : q.msg.pair = none) :
    (∀ r ∈ (coreAt (dropMessage s c) (coreOf c)).inbox, r.index ≠ q.index) ∧ ∃ g ∈ (dropMessage s c).messages, g.phase = .notice cStale ∧ g.msg = q.msg := by
  have drop : dropMessage s c = noticeFlight (freeSlot s (coreOf c) q.index) (coreOf c) cStale q.msg := by
    simp only [dropMessage, here, plain]
  rw [drop]
  refine ⟨fun r hr => ?_, _, List.mem_append_right _ (List.mem_singleton_self _), rfl, rfl⟩
  have hr : r ∈ (coreAt (freeSlot s (coreOf c) q.index) (coreOf c)).inbox := hr
  rw [freeSlot, coreAt_modCore_self] at hr
  simpa using (List.mem_filter.mp hr).2

end

/-! ### Fault records (R200) -/

theorem mem_sins {α : Type} {a : Nat} {v : α} {e : Nat × α} : ∀ {m : Store α}, e ∈ sins a v m → e = (a, v) ∨ e ∈ m
  | [], h => .inl (List.mem_singleton.mp h)
  | (k, w) :: m, h => by
    unfold sins at h
    split at h
    · obtain rfl | h := List.mem_cons.mp h
      · exact .inl rfl
      · exact .inr (List.mem_cons_of_mem _ h)
    · split at h
      · exact List.mem_cons.mp h
      · obtain rfl | h := List.mem_cons.mp h
        · exact .inr List.mem_cons_self
        · exact (mem_sins h).imp id (List.mem_cons_of_mem _)

/-- An entry of a store after a write: the one written, or an old one. -/
theorem mem_sput {α : Type} [DecidableEq α] {d : α} {m : Store α} {a : Nat} {v : α} {e : Nat × α} (h : e ∈ sput d m a v) : e = (a, v) ∨ e ∈ m := by
  unfold sput at h
  split at h
  · exact .inr (List.mem_filter.mp h).1
  · exact mem_sins h

/-- What a store reads is an entry of it, or the default. -/
theorem sget_mem {α : Type} (d : α) (a : Nat) : ∀ m : Store α, sget d m a = d ∨ (a, sget d m a) ∈ m
  | [] => .inl rfl
  | (k, w) :: m => by
    unfold sget
    split
    case isTrue same => exact .inr (by rw [same]; exact List.mem_cons_self)
    case isFalse => exact (sget_mem d a m).imp id (List.mem_cons_of_mem _)

/-- No core of the die keeps a record. -/
theorem keeperOf_none_iff {s : State} {d : Nat} : keeperOf s d = none ↔ ∀ e ∈ s.cores, dieOf (vertexOf e.1) = d → e.2.heldRecords = [] := by
  simp [keeperOf]

theorem keeperOf_modCore {s : State} {d : Nat} (k : Nat) {f : Core → Core} (hf : ∀ x, (f x).heldRecords = x.heldRecords) (none_ : keeperOf s d = none) :
    keeperOf (modCore s k f) d = none := by
  rw [keeperOf_none_iff] at none_ ⊢
  intro e he here
  obtain rfl | old := mem_sput he
  · rw [hf]
    obtain reset | held := sget_mem Core.reset k s.cores
    · rw [coreAt, reset]
      rfl
    · exact none_ _ held here
  · exact none_ e old here

theorem faultQueueDelivery_delivers {s : State} {d k i : Nat} {r : List Word} {l : List (List Word)} (queue : (dieAt s d).faultQueue = r :: l) (apex : apexOf s d = some k)
    (free : freeOrdinary s k = some i) (none_ : keeperOf s d = none) :
    Gives (.faultQueueDelivery d) s (fun t => Outside s t [] ∧ (dieAt t d).faultQueue = l ∧
      ∃ q ∈ (coreAt t k).inbox, q.index = i ∧ q.phase = .waiting ∧ q.msg.cls = 26 ∧ q.msg.payload = r) := by
  obtain ⟨m, hm⟩ : ∃ m, m = (deviceMsg s 26 (agentId s.device (8 * k)) r).1 := ⟨_, rfl⟩
  obtain ⟨u, hu⟩ : ∃ u, u = (deviceMsg s 26 (agentId s.device (8 * k)) r).2 := ⟨_, rfl⟩
  have only : u = { s with free := s.free + 1 } := hu
  have slot : recordSlot s k = some i := by rw [recordSlot, free]
  obtain ⟨v, put⟩ : ∃ v, v = setDie (putSlot (freeSlot u k i) k i m .waiting) d { dieAt u d with faultQueue := l } := ⟨_, rfl⟩
  have kept : keeperOf v d = none := by
    have moved : keeperOf (putSlot (freeSlot u k i) k i m .waiting) d = none :=
      keeperOf_modCore k (fun _ => rfl) (keeperOf_modCore k (fun _ => rfl) (by rw [only]; exact none_))
    rw [put]
    exact moved
  have whole : refillQueue v d = v := by rw [refillQueue, kept]
  refine ⟨v, ?_, outside_of (by rw [put, only]; rfl) (by rw [put, only]; rfl), ?_, ?_⟩
  · change execFaultQueueDelivery d s = _
    simp only [execFaultQueueDelivery, queue, apex, slot, ← hm, ← hu, ← put, whole]
  · rw [put, dieAt_setDie_self]
  · have inbox : ∃ q : Slot, q ∈ (coreAt v k).inbox ∧ q.index = i ∧ q.phase = .waiting ∧ q.msg = m := by
      rw [put, coreAt_setDie, putSlot, coreAt_modCore_self]
      exact ⟨_, List.mem_append_right _ (List.mem_singleton_self _), rfl, rfl, rfl⟩
    obtain ⟨q, hq, index, phase, msg⟩ := inbox
    exact ⟨q, hq, index, phase, by rw [msg, hm]; rfl, by rw [msg, hm]; rfl⟩

/-! ### Kills (R203, R215) -/

theorem foldl_uncache_mem (k : Nat) (l : List (Nat × Bool)) (s : State) :
    l.foldl (fun t b => uncache t k b.1) s = { s with cores := (l.foldl (fun t b => uncache t k b.1) s).cores } :=
  foldl_keeps (P := fun t : State => t = { s with cores := t.cores }) (f := fun t (b : Nat × Bool) => uncache t k b.1) (fun t b h => by rw [uncache, modCore, setCore, h]) l rfl

theorem returnTokens_only (s : State) (c : Nat) : returnTokens s c = { s with tokens := (returnTokens s c).tokens, cores := (returnTokens s c).cores } := by
  unfold returnTokens
  dsimp only
  split
  · rfl
  · split
    · rw [foldl_uncache_mem, moveTokens_only]
    · rfl

/-- What a context keeps of a kill: its lease, and which node it ran for (R215). -/
def killedCtx (x : Ctx) : Ctx := { Ctx.reset with lease := x.lease, gang := x.gang, member := x.member, pair := x.pair, run := .stopped }

/-- A kill of a context without a copy. -/
theorem killCtx_alone {s : State} {c : Nat} (alone : (ctxOf s c).lockstep = false) :
    killCtx s c = { s with tokens := (killCtx s c).tokens, cores := (killCtx s c).cores, ctxs := (killCtx s c).ctxs } ∧
      ∀ e, ctxOf (killCtx s c) e = if e = c then killedCtx (ctxOf s c) else ctxOf s e := by
  have same : loseLockstep s c = s := by simp only [loseLockstep, alone, Bool.not_false, if_true]
  have only := returnTokens_only s c
  have ctx (e : Nat) : ctxOf (returnTokens s c) e = ctxOf s e := by rw [ctxOf, only, ctxOf]
  refine ⟨?_, fun e => ?_⟩
  · unfold killCtx
    rw [same]
    dsimp only [setCtx, modCore, setCore]
    rw [only]
  · unfold killCtx
    rw [same]
    dsimp only
    rw [ctxOf_setCtx, ctx]
    split
    · rfl
    · rw [ctxOf_modCore, ctx]

theorem killedCtx_twice (x : Ctx) : killedCtx (killedCtx x) = killedCtx x := rfl

/-- Kills of contexts of a core, none of which has a copy. -/
theorem kills_ctxs (k : Nat) (l : List Nat) : ∀ s : State, (∀ i ∈ l, (ctxOf s (8 * k + i)).lockstep = false) →
    (l.foldl (fun t i => killCtx t (8 * k + i)) s = { s with
      tokens := (l.foldl (fun t i => killCtx t (8 * k + i)) s).tokens, cores := (l.foldl (fun t i => killCtx t (8 * k + i)) s).cores
      ctxs := (l.foldl (fun t i => killCtx t (8 * k + i)) s).ctxs }) ∧
    ∀ e, ((∃ i ∈ l, e = 8 * k + i) → ctxOf (l.foldl (fun t i => killCtx t (8 * k + i)) s) e = killedCtx (ctxOf s e)) ∧
      ((∀ i ∈ l, e ≠ 8 * k + i) → ctxOf (l.foldl (fun t i => killCtx t (8 * k + i)) s) e = ctxOf s e) := by
  induction l with
  | nil => exact fun s _ => ⟨rfl, fun e => ⟨fun ⟨_, hi, _⟩ => absurd hi List.not_mem_nil, fun _ => rfl⟩⟩
  | cons j l ih =>
    intro s alone
    obtain ⟨one, ctx⟩ := killCtx_alone (alone j List.mem_cons_self)
    have still (i : Nat) (hi : i ∈ l) : (ctxOf (killCtx s (8 * k + j)) (8 * k + i)).lockstep = false := by
      rw [ctx]
      split
      · rfl
      · exact alone i (List.mem_cons_of_mem _ hi)
    obtain ⟨rest, later⟩ := ih (killCtx s (8 * k + j)) still
    refine ⟨?_, fun e => ⟨fun h => ?_, fun h => ?_⟩⟩
    · rw [List.foldl_cons, rest, one]
    · rw [List.foldl_cons]
      by_cases again : ∃ i ∈ l, e = 8 * k + i
      · rw [(later e).1 again, ctx]
        split
        case isTrue same => rw [killedCtx_twice, same]
        case isFalse => rfl
      · obtain ⟨i, hi, same⟩ := h
        obtain rfl | hi := List.mem_cons.mp hi
        · rw [(later e).2 (fun i hi he => again ⟨i, hi, he⟩), ctx, if_pos same, same]
        · exact absurd ⟨i, hi, same⟩ again
    · rw [List.foldl_cons, (later e).2 (fun i hi => h i (List.mem_cons_of_mem _ hi)), ctx, if_neg (h j List.mem_cons_self)]

/-- A state that differs in cores. -/
def AtCores (s t : State) : Prop := t = { s with cores := t.cores }

theorem AtCores.modCore {s t : State} (h : AtCores s t) (k : Nat) (f : Core → Core) : AtCores s (modCore t k f) := by
  unfold AtCores at h ⊢
  rw [Machine.modCore, setCore, h]

theorem releaseRoutes_only (s : State) (k : Nat) : AtCores s (releaseRoutes s k) := by
  have none_ : AtCores s s := rfl
  unfold releaseRoutes
  cases (coreAt s k).chord with
  | none =>
    dsimp only
    split
    · exact (none_.modCore _ _).modCore _ _
    · exact none_
  | some r =>
    have chord := (none_.modCore r.dest (fun y => { y with portHolder := none, portDead := true, port := [], portIn := [] })).modCore k (fun x => { x with chord := none })
    dsimp only
    split
    · exact (chord.modCore _ _).modCore _ _
    · exact chord

/-- What a killed core has lost stays lost when its routes are released. -/
structure CoreLost (x : Core) : Prop where
  killed : x.killed = true
  sealed : x.sealed_ = true
  scratch : x.scratch = []
  tiles : x.tiles = []
  agg : x.agg = []

theorem CoreLost.modCore {s : State} {k : Nat} (h : CoreLost (coreAt s k)) (j : Nat) {f : Core → Core} (hf : ∀ x, CoreLost x → CoreLost (f x)) :
    CoreLost (coreAt (Machine.modCore s j f) k) := by
  rw [coreAt_modCore]
  split
  case isTrue same => rw [same] at h; exact hf _ h
  case isFalse => exact h

theorem CoreLost.releaseRoutes {s : State} {k : Nat} (h : CoreLost (coreAt s k)) : CoreLost (coreAt (Machine.releaseRoutes s k) k) := by
  have chord : ∀ (x : Core), CoreLost x → CoreLost { x with portHolder := none, portDead := true, port := [], portIn := [] } := fun x h => ⟨h.1, h.2, h.3, h.4, h.5⟩
  have own : ∀ (x : Core), CoreLost x → CoreLost { x with chord := none } := fun x h => ⟨h.1, h.2, h.3, h.4, h.5⟩
  have port : ∀ (x : Core), CoreLost x → CoreLost { x with portHolder := none, port := [], portIn := [] } := fun x h => ⟨h.1, h.2, h.3, h.4, h.5⟩
  have closing : ∀ (x : Core), CoreLost x → CoreLost (match x.chord with | some z => if z.closing then { x with chord := none } else x | none => x) := by
    intro x h
    split
    · split
      · exact own x h
      · exact h
    · exact h
  unfold Machine.releaseRoutes
  cases route : (coreAt s k).chord with
  | none =>
    dsimp only
    split
    · exact (h.modCore k port).modCore _ closing
    · exact h
  | some r =>
    have lost := (h.modCore r.dest chord).modCore k own
    dsimp only
    split
    · exact (lost.modCore k port).modCore _ closing
    · exact lost

theorem coreAt_reportFor (s : State) (k o a : Nat) (p : Word) (f : FaultInfo) (j : Nat) : coreAt (reportFor s k o a p f) j =
    { coreAt s j with counters := (coreAt (reportFor s k o a p f) j).counters, heldRecords := (coreAt (reportFor s k o a p f) j).heldRecords } := by
  have counted : coreAt (countFault s k f.code) j = { coreAt s j with counters := (coreAt (countFault s k f.code) j).counters } := by
    unfold countFault
    rw [coreAt_modCore]
    split
    case isTrue same => rw [same]
    case isFalse => rfl
  unfold reportFor
  rw [coreAt_putRecord, counted]

theorem hostWrite_dies (l : List Byte) : ∀ (s : State) (a : Nat), (hostWrite s a l).dies = s.dies := by
  induction l with
  | nil => exact fun _ _ => rfl
  | cons b l ih => exact fun _ _ => by rw [hostWrite, ih]

theorem hostEvent_dies (s : State) (a b : Word) : (hostEvent s a b).dies = s.dies := by
  unfold hostEvent writeEvent
  repeat' split
  all_goals simp [hostWrite_dies]

theorem coreKill_killed {s : State} {k : Nat} (b : Bool) (dead : (coreAt s k).killed = true) : exec (.coreKill k b) s = .next s := by
  change Host.Outcome.next (killCore s k _) = _
  unfold killCore
  simp only [dead, Bool.or_true, if_true]

section

variable {s : State} {k : Nat} (b : Bool) (exists_ : coreExists k = true) (alive : (coreAt s k).killed = false) (alone : ∀ i, i < 8 → (ctxOf s (8 * k + i)).lockstep = false)
  (nogang : gangsOn s k = [])

/-- The state in which the contexts of a core have stopped, and its record is still to be written. -/
structure Stopped (s t : State) (k : Nat) : Prop where
  mem : t.mem = s.mem
  dies : t.dies = s.dies
  device : t.device = s.device
  ctx : ∀ e, ((∃ i, i < 8 ∧ e = 8 * k + i) → ctxOf t e = killedCtx (ctxOf s e)) ∧ ((∀ i, i < 8 → e ≠ 8 * k + i) → ctxOf t e = ctxOf s e)
  core : CoreLost (coreAt t k)

/-- A core loses what it holds; accesses end, its routes are released, and of an access core the jobs end (R215, R216). -/
theorem Stopped.of_lost {s s2 : State} {k : Nat} (mem : s2.mem = s.mem) (dies : s2.dies = s.dies) (device : s2.device = s.device)
    (ctx : ∀ e, ((∃ i, i < 8 ∧ e = 8 * k + i) → ctxOf s2 e = killedCtx (ctxOf s e)) ∧ ((∀ i, i < 8 → e ≠ 8 * k + i) → ctxOf s2 e = ctxOf s e))
    {f : Core → Core} (hf : ∀ x, CoreLost (f x)) (l : List (Flight Regs)) (b : Bool) (g : Cluster → Cluster) :
    Stopped s (if b then modCluster (releaseRoutes { modCore s2 k f with flights := l } k) (vertexOf k) g else releaseRoutes { modCore s2 k f with flights := l } k) k := by
  obtain ⟨s3, h3⟩ : ∃ t, t = { modCore s2 k f with flights := l } := ⟨_, rfl⟩
  obtain ⟨s4, h4⟩ : ∃ t, t = releaseRoutes s3 k := ⟨_, rfl⟩
  obtain ⟨s5, h5⟩ : ∃ t, t = if b then modCluster s4 (vertexOf k) g else s4 := ⟨_, rfl⟩
  rw [← h3, ← h4, ← h5]
  have only3 : s3 = { s2 with cores := s3.cores, flights := s3.flights } := h3 ▸ rfl
  have only4 : s4 = { s3 with cores := s4.cores } := h4 ▸ releaseRoutes_only s3 k
  have only5 : s5 = { s4 with clusters := s5.clusters } := by
    rw [h5]
    split <;> rfl
  have first : CoreLost (coreAt s3 k) := by
    rw [h3]
    change CoreLost (coreAt (modCore s2 k f) k)
    rw [coreAt_modCore_self]
    exact hf _
  have second : CoreLost (coreAt s4 k) := h4 ▸ first.releaseRoutes
  have ctxs : s5.ctxs = s2.ctxs := by rw [only5, only4, only3]
  refine ⟨by rw [only5, only4, only3]; exact mem, by rw [only5, only4, only3]; exact dies, by rw [only5, only4, only3]; exact device, fun e => ?_, ?_⟩
  · rw [ctxOf, ctxs]
    exact ctx e
  · rw [coreAt, only5]
    exact second

include exists_ alive alone nogang

theorem killCore_stops (c : Nat) : ∃ t, Stopped s t k ∧ killCore s k c =
    let u := reportFor t k 0 (agentOf s c) (ctxOf s c).pc { code := cChecker }
    if isApex k && (coreAt u (k ^^^ 1)).killed then hostEvent u 4 (BitVec.ofNat 64 (dieOf (vertexOf k))) else u := by
  obtain ⟨s1, h1⟩ : ∃ t, t = (((List.range 8).map (8 * k + ·)).filter (fun i => (ctxOf s i).committed)).foldl releaseHandler s := ⟨_, rfl⟩
  have mail : MailMoved s s1 := h1 ▸ foldl_keeps (P := fun t => MailMoved s t) (fun t c h => h.trans (releaseHandler_mail t c)) _ (.refl s)
  obtain ⟨s2, h2⟩ : ∃ t, t = (List.range 8).foldl (fun t i => killCtx t (8 * k + i)) s1 := ⟨_, rfl⟩
  obtain ⟨rest, ctx⟩ := kills_ctxs k (List.range 8) s1 (fun i hi => by rw [mail.ctx]; exact alone i (List.mem_range.mp hi))
  rw [← h2] at rest ctx
  have gangs : gangsOn s2 k = [] := by
    rw [← nogang, gangsOn, gangsOn, rest, mail.gangs]
  have device : s2.device = s.device := by rw [rest, mail.only]
  have ctxs (e : Nat) : ((∃ i, i < 8 ∧ e = 8 * k + i) → ctxOf s2 e = killedCtx (ctxOf s e)) ∧ ((∀ i, i < 8 → e ≠ 8 * k + i) → ctxOf s2 e = ctxOf s e) := by
    refine ⟨fun named => ?_, fun other => ?_⟩
    · obtain ⟨i, hi, same⟩ := named
      rw [(ctx e).1 ⟨i, List.mem_range.mpr hi, same⟩, mail.ctx]
    · rw [(ctx e).2 (fun i hi => other i (List.mem_range.mp hi)), mail.ctx]
  have stop (f : Core → Core) (hf : ∀ x, CoreLost (f x)) := Stopped.of_lost (by rw [rest]; exact mail.mem) (by rw [rest]; exact mail.dies) device ctxs hf
  have stops : ∃ t, Stopped s t k ∧ killCore s k c =
      let u := reportFor t k 0 (agentOf t c) (ctxOf s c).pc { code := cChecker }
      if isApex k && (coreAt u (k ^^^ 1)).killed then hostEvent u 4 (BitVec.ofNat 64 (dieOf (vertexOf k))) else u := by
    unfold killCore
    simp only [exists_, alive, ← h1, ← h2, gangs, List.foldl_nil, Bool.not_true, Bool.or_self, Bool.false_eq_true, if_false]
    refine ⟨_, stop _ ?_ _ _ _, rfl⟩
    exact fun _ => ⟨rfl, rfl, rfl, rfl, rfl⟩
  obtain ⟨t, stopped, eq⟩ := stops
  have agent : agentOf t c = agentOf s c := by rw [agentOf, stopped.device, agentOf]
  rw [agent] at eq
  exact ⟨t, stopped, eq⟩

theorem coreKill_stops : Gives (.coreKill k b) s (fun t =>
    Outside s t ((List.range 8).map (8 * k + ·)) ∧ (coreAt t k).killed = true ∧ (coreAt t k).sealed_ = true ∧ (coreAt t k).scratch = [] ∧
      (coreAt t k).tiles = [] ∧ (coreAt t k).agg = [] ∧ MemKept s t ∧ ∀ i, i < 8 → (ctxOf t (8 * k + i)).run = .stopped ∧
        (ctxOf t (8 * k + i)).lease = (ctxOf s (8 * k + i)).lease ∧ ∀ r, rg t (8 * k + i) r = 0) := by
  obtain ⟨t, stopped, eq⟩ := killCore_stops exists_ alive alone nogang (8 * k + if b then (coreAt s k).turn else 0)
  obtain ⟨u, hu⟩ : ∃ u, u = reportFor t k 0 (agentOf s (8 * k + if b then (coreAt s k).turn else 0)) (ctxOf s (8 * k + if b then (coreAt s k).turn else 0)).pc { code := cChecker } := ⟨_, rfl⟩
  simp only [← hu] at eq
  obtain ⟨v, hv⟩ : ∃ v, v = if isApex k && (coreAt u (k ^^^ 1)).killed then hostEvent u 4 (BitVec.ofNat 64 (dieOf (vertexOf k))) else u := ⟨_, rfl⟩
  rw [← hv] at eq
  have same : v.ctxs = u.ctxs ∧ v.cores = u.cores ∧ v.mem = u.mem := by
    rw [hv]
    split
    · exact ⟨hostEvent_ctxs _ _ _, hostEvent_cores _ _ _, hostEvent_mem _ _ _⟩
    · exact ⟨rfl, rfl, rfl⟩
  obtain ⟨ctxs, cores, mem⟩ := same
  have ctx (e : Nat) : ctxOf v e = ctxOf t e := by rw [ctxOf, ctxs, ← ctxOf, hu, ctxOf_reportFor]
  have lost : CoreLost (coreAt v k) := by
    rw [coreAt, cores, ← coreAt, hu, coreAt_reportFor]
    exact ⟨stopped.core.1, stopped.core.2, stopped.core.3, stopped.core.4, stopped.core.5⟩
  have kept : MemKept s v := memByte_congr (by rw [mem, hu, reportFor_mem, stopped.mem])
  have here (i : Nat) (hi : i < 8) : ctxOf v (8 * k + i) = killedCtx (ctxOf s (8 * k + i)) := by
    rw [ctx]
    exact (stopped.ctx _).1 ⟨i, hi, rfl⟩
  refine ⟨v, by rw [← eq]; rfl, ⟨kept, fun e he => ?_⟩, lost.killed, lost.sealed, lost.scratch, lost.tiles, lost.agg, kept, fun i hi => ?_⟩
  · rw [ctx, (stopped.ctx e).2 (fun i hi same => he (List.mem_map.mpr ⟨i, List.mem_range.mpr hi, same.symm⟩))]
    exact ⟨rfl, rfl⟩
  · rw [here i hi]
    refine ⟨rfl, rfl, fun r => ?_⟩
    rw [rg, here i hi]
    split <;> rfl

theorem coreKill_reports (room : (dieAt s (dieOf (vertexOf k))).faultQueue.length < 256) :
    let c := 8 * k + if b then (coreAt s k).turn else 0
    Gives (.coreKill k b) s (fun t => (dieAt t (dieOf (vertexOf k))).faultQueue = (dieAt s (dieOf (vertexOf k))).faultQueue ++
      [[BitVec.ofNat 64 (0x1E * 2 ^ 56 + agentOf s c), (ctxOf s c).pc, 0, 0, 0, 0]]) := by
  intro c
  obtain ⟨t, stopped, eq⟩ := killCore_stops exists_ alive alone nogang c
  obtain ⟨u, hu⟩ : ∃ u, u = reportFor t k 0 (agentOf s c) (ctxOf s c).pc { code := cChecker } := ⟨_, rfl⟩
  simp only [← hu] at eq
  refine ⟨_, congrArg Host.Outcome.next eq, ?_⟩
  have die (d : Nat) : dieAt (if isApex k && (coreAt u (k ^^^ 1)).killed then hostEvent u 4 (BitVec.ofNat 64 (dieOf (vertexOf k))) else u) d = dieAt u d := by
    split
    · rw [dieAt, hostEvent_dies, dieAt]
    · rfl
  have old (d : Nat) : dieAt t d = dieAt s d := by rw [dieAt, stopped.dies, dieAt]
  change (dieAt _ _).faultQueue = _
  rw [die, hu, faultQueue_reportFor _ _ _ _ (by rw [old]; exact room), old]
  rfl

end

/-! ### Containment (R216) -/

/-- What the firmware's records of a killed core's work change: no context, core, cluster, graph or gang; no message is lost. -/
structure Aside (s t : State) : Prop where
  only : t = { s with
    mem := t.mem, poisoned := t.poisoned, stamps := t.stamps, slices := t.slices, dies := t.dies, tokens := t.tokens, accounts := t.accounts, cells := t.cells, wires := t.wires
    messages := t.messages, nextId := t.nextId, free := t.free, claimed := t.claimed, reclaimed := t.reclaimed }
  messages : ∀ g ∈ s.messages, g ∈ t.messages

namespace Aside

theorem refl (s : State) : Aside s s := ⟨rfl, fun _ h => h⟩

theorem trans {s t u : State} (h : Aside s t) (k : Aside t u) : Aside s u := ⟨by rw [k.only, h.only], fun g hg => k.messages g (h.messages g hg)⟩

theorem of_placed {s t : State} (h : PlacedOnly s t) : Aside s t := by
  rw [h.rest]
  exact ⟨rfl, fun _ h => h⟩

theorem foldl {α : Type} {f : State → α → State} (hf : ∀ t x, Aside t (f t x)) (s : State) (l : List α) : Aside s (l.foldl f s) :=
  foldl_keeps (P := fun t => Aside s t) (fun t x h => h.trans (hf t x)) l (.refl s)

variable {s t : State} (h : Aside s t)
include h

theorem cores : t.cores = s.cores := by rw [h.only]
theorem clusters : t.clusters = s.clusters := by rw [h.only]
theorem gangs : t.gangs = s.gangs := by rw [h.only]

end Aside

theorem sendMsg_aside (s : State) (h : MsgHome) (v : Nat) (p : MsgPhase) (m : Msg) : Aside s (sendMsg s h v p m) := ⟨rfl, fun _ h => List.mem_append_left _ h⟩

theorem noticeFlight_aside (s : State) (k code : Nat) (m : Msg) : Aside s (noticeFlight s k code m) := ⟨rfl, fun _ h => List.mem_append_left _ h⟩

theorem setToken_aside (s : State) (e : Token) : Aside s (setToken s e) := ⟨rfl, fun _ h => h⟩

theorem setItem_aside (s : State) (w : Bool) (a : Nat) (x : ItemState) : Aside s (setItem s w a x) := by
  unfold setItem
  split
  all_goals exact ⟨rfl, fun _ h => h⟩

theorem placeWrite_aside (s : State) (pa home : Nat) (l : List Byte) : Aside s (placeWrite s pa home l) := .of_placed (placeWrite_placed _ _ _ _)

theorem faultRecord_aside (s : State) (pa home : Nat) (g : Option Nat) (code : Nat) : Aside s (faultRecord s pa home g code) := by
  unfold faultRecord
  dsimp only
  split
  · exact placeWrite_aside _ _ _ _
  · exact (placeWrite_aside _ _ _ _).trans (placeWrite_aside _ _ _ _)

theorem taintOne_aside (graphs : List Nat) (s : State) (e : Token) : Aside s (taintOne graphs s e) := by
  unfold taintOne
  split
  · exact .refl s
  · split
    · exact .refl s
    · dsimp only
      split
      · exact (setToken_aside _ _).trans (faultRecord_aside _ _ _ _ _)
      · exact setToken_aside _ _

theorem taintRequests_aside (s : State) (k : Nat) : Aside s (taintRequests s k) := .foldl (taintOne_aside _) _ _

theorem claimCore_aside (s : State) (k : Nat) (me : Word) : Aside s (claimCore s k me).1 := by
  rw [claimCore_only]
  exact ⟨rfl, fun _ h => h⟩

theorem moveTokens_aside (s : State) (a b : Word) (l : List (Nat × Bool)) : Aside s (moveTokens s a b l) := by
  rw [moveTokens_only]
  exact ⟨rfl, fun _ h => h⟩

theorem giveBack_aside (s : State) (k i : Nat) (r : Word) (taken : Bool) (l : List (Nat × Bool)) : Aside s (giveBack s k i r taken l) := by
  unfold giveBack
  split
  · exact .refl s
  · dsimp only
    split
    · exact (moveTokens_aside _ _ _ _).trans (setItem_aside _ _ _ _)
    · exact moveTokens_aside _ _ _ _

theorem sendPairAs_aside (s : State) (v sender : Nat) (p : PairRef) : Aside s (sendPairAs s v sender p) := sendMsg_aside _ _ _ _ _

theorem drainSlot_aside (k : Nat) (s : State) (q : Slot) : Aside s (drainSlot k s q) := by
  unfold drainSlot
  split
  · exact ((giveBack_aside _ _ _ _ _ _).trans (giveBack_aside _ _ _ _ _ _)).trans (sendPairAs_aside _ _ _ _)
  · exact sendMsg_aside _ _ _ _ _
  · split
    · exact ⟨rfl, fun _ h => h⟩
    · exact noticeFlight_aside _ _ _ _

/-- A drained core holds no message, pair or reservoir item any more. -/
def emptied (x : Core) : Core := { x with inbox := [], deque := [], spill := [], stolen := [], stolenFrom := [], reservoir := [], requests := [] }

/-- The messages of the inbox go first, then the pairs of the deque. -/
theorem drainCore_order (s : State) (k : Nat) :
    Aside ((coreAt s k).deque.foldl (fun t p => sendPair t (vertexOf k) p) ((coreAt s k).inbox.foldl (drainSlot k) (modCore s k emptied))) (drainCore s k) := by
  refine .trans (.trans ?_ (.foldl (fun _ _ => sendPairAs_aside _ _ _ _) _ _)) (.foldl (fun _ _ => setItem_aside _ _ _ _) _ _)
  rw [List.foldl_append]
  exact .foldl (fun _ _ => sendPairAs_aside _ _ _ _) _ _

theorem drainCore_aside (s : State) (k : Nat) : Aside (modCore s k emptied) (drainCore s k) :=
  .trans (.trans (.foldl (drainSlot_aside k) _ _) (.foldl (fun _ _ => sendPairAs_aside _ _ _ _) _ _)) (drainCore_order s k)

theorem reportRegion_aside (s : State) (e : Token) (dead : Nat) : Aside s (reportRegion s e dead) := by
  unfold reportRegion
  split
  · exact ⟨rfl, fun _ h => h⟩
  · exact ⟨rfl, fun _ h => List.mem_append_left _ h⟩

theorem reportClaimed_aside (s : State) (dead : Nat → Bool) : Aside s (reportClaimed s dead) := by
  unfold reportClaimed
  refine Aside.trans (t := { s with claimed := s.claimed.filter (fun e => !(dead e.2)) }) ⟨rfl, fun _ h => h⟩ (.foldl (fun t e => ?_) _ _)
  split
  · exact reportRegion_aside _ _ _
  · exact .refl t

/-- The contexts of a contained core belong to no gang and no pair any more, and its cluster is unfit for gangs (R216). -/
def cutOff (s : State) (k : Nat) : State :=
  let s := (List.range 8).foldl (fun t i => modCtx t (8 * k + i) (fun x => { x with gang := none, pair := none })) s
  if isExecute k then modCluster s (vertexOf k) (fun x => { x with unfit := true }) else s

/-- The agents of a core, by which its claimed regions are reported. -/
def agentOn (s : State) (k : Nat) (w : Nat) : Bool := agentDevice w = s.device && coreOf (agentLocal w) = k

theorem cutOff_only (s : State) (k : Nat) : cutOff s k = { s with ctxs := (cutOff s k).ctxs, clusters := (cutOff s k).clusters } := by
  have ctxs : (List.range 8).foldl (fun t i => modCtx t (8 * k + i) (fun x => { x with gang := none, pair := none })) s =
      { s with ctxs := ((List.range 8).foldl (fun t i => modCtx t (8 * k + i) (fun x => { x with gang := none, pair := none })) s).ctxs } :=
    foldl_keeps (P := fun t : State => t = { s with ctxs := t.ctxs }) (fun t i h => by rw [modCtx, setCtx, h]) _ rfl
  unfold cutOff
  dsimp only
  split
  · rw [modCluster, setCluster, ctxs]
  · rw [ctxs]

/-- A word that names an agent in the holder field is of kind 1 and carries the agent's id. -/
theorem holderAgent_val {n : Nat} (h : n < 2 ^ 61) : holderKind (holderAgent n) = 1 ∧ holderVal (holderAgent n) = n := by
  simp only [holderKind, holderVal, holderAgent, BitVec.toNat_ofNat]
  omega

section

variable {s : State} {k a : Nat} (apex : apexOf s (dieOf (vertexOf k)) = some a) (dead : (coreAt s k).killed = true) (nogang : gangsOn s k = [])

/-- The core is sealed first. -/
def sealedCore (s : State) (k : Nat) : State := modCore s k (fun x => { x with sealed_ := true })

/-- The firmware then claims what the core held. -/
def claimedOf (s : State) (k a : Nat) : State :=
  let u := taintRequests (sealedCore s k) k
  noteClaimed (claimCore u k (holderAgent (agentOf u (8 * a)))).1 (claimCore u k (holderAgent (agentOf u (8 * a)))).2.2

theorem claimedOf_aside (s : State) (k a : Nat) : Aside (sealedCore s k) (claimedOf s k a) :=
  ((taintRequests_aside _ _).trans (claimCore_aside _ _ _)).trans ⟨rfl, fun _ h => h⟩

include apex dead nogang

/-- Containment of a killed core on which no gang runs. -/
theorem containment_eq : exec (.containment k) s = .next (reportClaimed (cutOff (drainCore (claimedOf s k a) k) k) (agentOn (cutOff (drainCore (claimedOf s k a) k) k) k)) := by
  have gangs : gangsOn (drainCore (claimedOf s k a) k) k = [] := by
    rw [← nogang, gangsOn, (drainCore_aside _ k).gangs]
    change (claimedOf s k a).gangs.filterMap _ = _
    rw [(claimedOf_aside s k a).gangs]
    rfl
  change execContainment k s = _
  unfold execContainment
  simp only [apex, dead, Bool.not_true, Bool.false_eq_true, if_false]
  change Host.Outcome.next (let t := (gangsOn (drainCore (claimedOf s k a) k) k).foldl (retireOn k) (drainCore (claimedOf s k a) k)
    reportClaimed (cutOff t k) (agentOn (cutOff t k) k)) = _
  rw [gangs]
  rfl

theorem containment_empties (execute : isExecute k = true) : Gives (.containment k) s (fun t => (coreAt t k).sealed_ = true ∧ (coreAt t k).inbox = [] ∧ (coreAt t k).deque = [] ∧
    (coreAt t k).spill = [] ∧ (coreAt t k).reservoir = [] ∧ (clusterAt t (vertexOf k)).unfit = true) := by
  obtain ⟨u, hu⟩ : ∃ u, u = drainCore (claimedOf s k a) k := ⟨_, rfl⟩
  obtain ⟨v, hv⟩ : ∃ v, v = cutOff u k := ⟨_, rfl⟩
  have drained : Aside (modCore (claimedOf s k a) k emptied) u := hu ▸ drainCore_aside _ k
  have core : coreAt u k = emptied { coreAt s k with sealed_ := true } := by
    rw [coreAt, drained.cores, ← coreAt, coreAt_modCore_self, coreAt, (claimedOf_aside s k a).cores, ← coreAt, sealedCore, coreAt_modCore_self]
  have last := reportClaimed_aside v (agentOn v k)
  have only : v = { u with ctxs := v.ctxs, clusters := v.clusters } := hv ▸ cutOff_only u k
  have here : coreAt (reportClaimed v (agentOn v k)) k = emptied { coreAt s k with sealed_ := true } := by
    rw [coreAt, last.cores, only, ← core, coreAt]
  refine ⟨reportClaimed v (agentOn v k), by rw [hv, hu]; exact containment_eq apex dead nogang, ?_⟩
  simp only [here]
  refine ⟨rfl, rfl, rfl, rfl, rfl, ?_⟩
  rw [clusterAt, last.clusters, ← clusterAt, hv, cutOff]
  simp only [execute, if_true, clusterAt_modCluster_self]

/-- What containment does beyond the records of the drained core: what it reports. -/
theorem containment_mail {g : MsgFlight} (sent : g ∈ (drainCore (claimedOf s k a) k).messages) : Gives (.containment k) s (fun t => g ∈ t.messages) := by
  refine ⟨_, containment_eq apex dead nogang, (reportClaimed_aside _ _).messages g ?_⟩
  rw [cutOff_only]
  exact sent

omit apex dead nogang in
/-- Without token entries the firmware claims nothing. -/
theorem claimedOf_nothing (notokens : s.tokens = []) : claimedOf s k a = { sealedCore s k with claimed := s.claimed ++ [] } := by
  have tainted : taintRequests (sealedCore s k) k = sealedCore s k := by
    have none_ : (sealedCore s k).tokens = [] := notokens
    rw [taintRequests, none_]
    rfl
  have claim (me : Word) : claimCore (sealedCore s k) k me = (sealedCore s k, 0, []) := by
    have none_ : (sealedCore s k).tokens = [] := notokens
    rw [claimCore, claimAll, none_]
    rfl
  simp only [claimedOf, tainted, claim]
  rfl

theorem containment_notice (notokens : s.tokens = []) {q : Slot} (inbox : (coreAt s k).inbox = [q]) (nopair : q.msg.pair = none) (unplaced : q.msg.placed = none)
    (plain : q.msg.cls ≠ 26) : Gives (.containment k) s (fun t => ∃ g ∈ t.messages, g.phase = .notice cDeadPeer ∧ g.msg = q.msg) := by
  obtain ⟨u, hu⟩ : ∃ u, u = claimedOf s k a := ⟨_, rfl⟩
  have core : (coreAt u k).inbox = [q] := by
    rw [hu, claimedOf_nothing notokens, ← inbox]
    change (coreAt (sealedCore s k) k).inbox = _
    rw [sealedCore, coreAt_modCore_self]
  have slot : drainSlot k (modCore u k emptied) q = noticeFlight (modCore u k emptied) k cDeadPeer q.msg := by
    simp only [drainSlot, nopair, unplaced, plain, if_false]
  have order := drainCore_order u k
  rw [core, List.foldl_cons, List.foldl_nil, slot] at order
  have sent := order.messages _ ((Aside.foldl (fun t p => sendPairAs_aside t (vertexOf k) _ p) _ _).messages _ (List.mem_append_right _ (List.mem_singleton_self _)))
  obtain ⟨t, run, here⟩ := containment_mail apex dead nogang (hu ▸ sent)
  exact ⟨t, run, _, here, rfl, rfl⟩

theorem containment_pair (notokens : s.tokens = []) {p : PairRef} (inbox : (coreAt s k).inbox = []) (deque : (coreAt s k).deque = [p]) :
    Gives (.containment k) s (fun t => ∃ g ∈ t.messages, g.msg.pair = some p ∧ g.msg.cls = 31 ∧ g.msg.placed.isSome = true) := by
  obtain ⟨u, hu⟩ : ∃ u, u = claimedOf s k a := ⟨_, rfl⟩
  have core : (coreAt u k).inbox = [] ∧ (coreAt u k).deque = [p] := by
    rw [hu, claimedOf_nothing notokens, ← inbox, ← deque]
    change (coreAt (sealedCore s k) k).inbox = _ ∧ (coreAt (sealedCore s k) k).deque = _
    rw [sealedCore, coreAt_modCore_self]
    exact ⟨rfl, rfl⟩
  have order := drainCore_order u k
  rw [core.1, core.2, List.foldl_nil, List.foldl_cons, List.foldl_nil] at order
  have sent := order.messages _ (List.mem_append_right _ (List.mem_singleton_self _))
  obtain ⟨t, run, here⟩ := containment_mail apex dead nogang (hu ▸ sent)
  exact ⟨t, run, _, here, rfl, rfl, rfl⟩

omit nogang in
/-- The apex core that claims is not the killed one. -/
theorem claimer_lives : a ≠ k := by
  intro same
  unfold apexOf at apex
  dsimp only at apex
  split at apex
  case isTrue live =>
    obtain rfl := Option.some.inj apex
    rw [same, dead] at live
    cases live
  case isFalse =>
    split at apex
    case isTrue live =>
      obtain rfl := Option.some.inj apex
      rw [same, dead] at live
      cases live
    case isFalse => cases apex

end

/-- What sends and items given back change. -/
def MailOnly (s t : State) : Prop := t = { s with messages := t.messages, nextId := t.nextId, cells := t.cells, wires := t.wires }

theorem MailOnly.trans {s t u : State} (h : MailOnly s t) (k : MailOnly t u) : MailOnly s u := by
  unfold MailOnly at h k ⊢
  rw [k, h]

theorem MailOnly.foldl {α : Type} {f : State → α → State} (hf : ∀ t x, MailOnly t (f t x)) (s : State) (l : List α) : MailOnly s (l.foldl f s) :=
  foldl_keeps (P := fun t => MailOnly s t) (fun t x h => h.trans (hf t x)) l rfl

/-- A core without messages is drained without a look at the tokens. -/
theorem drainCore_noInbox {s : State} {k : Nat} (inbox : (coreAt s k).inbox = []) : MailOnly (modCore s k emptied) (drainCore s k) := by
  have item (t : State) (w : Bool) (a : Nat) (x : ItemState) : MailOnly t (setItem t w a x) := by
    unfold setItem
    split <;> rfl
  have pair (t : State) (v sender : Nat) (p : PairRef) : MailOnly t (sendPairAs t v sender p) := rfl
  refine .trans (.trans ?_ (.foldl (fun _ _ => pair _ _ _ _) _ _)) (.foldl (fun _ _ => item _ _ _ _) _ _)
  rw [inbox]
  exact .foldl (fun _ _ => pair _ _ _ _) _ _

section

variable {s : State} {k a base : Nat} {t0 : Token} (apex : apexOf s (dieOf (vertexOf k)) = some a) (dead : (coreAt s k).killed = true)
  (gone : isDeadAgent s k t0.holder = true) (lender : t0.lender = 0)

include gone in
theorem isDeadAgent_parts : holderKind t0.holder = 1 ∧ holderVal t0.holder < 2 ^ 27 ∧ agentDevice (holderVal t0.holder) = s.device ∧ coreOf (agentLocal (holderVal t0.holder)) = k := by
  simp only [isDeadAgent, Bool.and_eq_true, decide_eq_true_eq] at gone
  obtain ⟨⟨⟨kind, small⟩, device⟩, core⟩ := gone
  exact ⟨kind, small, device, core⟩

include apex gone

/-- The agent that claims is one of this device, of the apex core. -/
theorem claimer_small : a < 8192 ∧ s.device < 2 ^ 11 := by
  obtain ⟨_, small, device, core⟩ := isDeadAgent_parts gone
  have limit : k < 8192 := by
    simp only [coreOf, agentLocal] at core
    omega
  have die : dieOf (vertexOf k) < 4 := by
    simp only [dieOf, vertexOf, vx, vy]
    omega
  have bound : a ≤ 16 * apexVertex (dieOf (vertexOf k)) + 15 := by
    unfold apexOf at apex
    dsimp only at apex
    split at apex
    · have := Option.some.inj apex
      omega
    · split at apex
      · have := Option.some.inj apex
        omega
      · cases apex
  simp only [agentDevice] at device
  simp only [apexVertex, mkVertex] at bound
  omega

include dead

theorem claimer_ne : holderAgent (agentOf s (8 * a)) ≠ t0.holder := by
  intro same
  obtain ⟨_, _, device, core⟩ := isDeadAgent_parts gone
  obtain ⟨small, dev⟩ := claimer_small apex gone
  have val : holderVal t0.holder = agentOf s (8 * a) := by
    rw [← same]
    refine (holderAgent_val ?_).2
    simp only [agentOf, agentId]
    omega
  rw [val] at core
  simp only [agentOf, agentId, coreOf, agentLocal] at core
  exact claimer_lives apex dead (by omega)

include lender

/-- The entry of a region whose holder is killed (R217). -/
theorem claimEntry_dead (slot : Word → Bool) :
    let me := holderAgent (agentOf s (8 * a))
    let u := claimEntry (isDeadAgent s k) slot me t0
    u.base = t0.base ∧ u.lsize = t0.lsize ∧ u.acct = t0.acct ∧ u.holder = me ∧ u.taint = (t0.taint || t0.wr) ∧ u.wr = false ∧ u.xfer = t0.xfer + 1 := by
  intro me u
  have other := claimer_ne apex dead gone
  have living : isDeadAgent s k 0 = false := rfl
  refine ⟨rfl, rfl, rfl, ?_, ?_, ?_, ?_⟩
  all_goals simp only [u, claimEntry, gone, lender, living, ne_eq, not_true, decide_false, Bool.false_and, Bool.true_or, Bool.true_and, Bool.not_true, Bool.and_false, Bool.false_eq_true, if_false, if_true]
  rw [if_neg]
  simp only [me, other, decide_false, Bool.false_and, Bool.false_eq_true, not_false_eq_true]

/-- The one entry of a device whose holder is killed is claimed, and kept for the report. -/
theorem claimedOf_one (tokens : s.tokens = [(base, some t0)]) (atBase : t0.base = base) (unclaimed : s.claimed = []) :
    ∃ u, u = claimEntry (isDeadAgent s k) (isDeadSlot s k) (holderAgent (agentOf s (8 * a))) t0 ∧
      claimedOf s k a = { setToken (sealedCore s k) u with claimed := [(base, holderVal t0.holder % 2 ^ 27)] } := by
  obtain ⟨u, hu⟩ : ∃ u, u = claimEntry (isDeadAgent s k) (isDeadSlot s k) (holderAgent (agentOf s (8 * a))) t0 := ⟨_, rfl⟩
  have parts := claimEntry_dead apex dead gone lender (isDeadSlot s k)
  dsimp only at parts
  rw [← hu] at parts
  obtain ⟨ubase, _, _, holder, _⟩ := parts
  obtain ⟨kind, _⟩ := isDeadAgent_parts gone
  have other := claimer_ne apex dead gone
  have changed : u ≠ t0 := fun same => other (by rw [← holder, same])
  have here : (sealedCore s k).tokens = [(base, some t0)] := tokens
  have tainted : taintRequests (sealedCore s k) k = sealedCore s k := by
    have norecord : recordOf (sealedCore s k) t0 = none := by
      simp only [recordOf, kind, ne_eq, OfNat.one_ne_ofNat, not_false_eq_true, decide_true, Bool.true_or, if_true]
    rw [taintRequests, here]
    change taintOne _ (sealedCore s k) t0 = _
    simp only [taintOne, norecord]
  have claim : claimCore (sealedCore s k) k (holderAgent (agentOf s (8 * a))) = (setToken (sealedCore s k) u, 1, [(u, t0.holder)]) := by
    rw [claimCore, claimAll, here]
    have agents : isDeadAgent (sealedCore s k) k = isDeadAgent s k := rfl
    have slots : isDeadSlot (sealedCore s k) k = isDeadSlot s k := rfl
    rw [List.foldl_cons, List.foldl_nil]
    dsimp only
    rw [agents, slots, ← hu, if_neg changed, holder]
    simp only [decide_true, ne_eq, other.symm, not_false_eq_true, Bool.and_self, if_true, List.nil_append, Nat.zero_add]
  have me : agentOf (sealedCore s k) (8 * a) = agentOf s (8 * a) := rfl
  refine ⟨u, hu, ?_⟩
  simp only [claimedOf, tainted, me, claim, noteClaimed, List.map_cons, List.map_nil, ubase, atBase]
  have none_ : (setToken (sealedCore s k) u).claimed = [] := unclaimed
  rw [none_, List.nil_append]

/-- A region whose holder is killed is claimed by an apex core of its die, and reported to its account's recovery agent (R217). -/
theorem containment_claims {r : Nat} (tokens : s.tokens = [(base, some t0)]) (atBase : t0.base = base) (nogangs : s.gangs = []) (unclaimed : s.claimed = [])
    (inbox : (coreAt s k).inbox = []) (recovery : (accountOf s t0.acct.toNat).recovery = some r) :
    Gives (.containment k) s (fun t => (∃ u, sget none t.tokens base = some u ∧ u.holder = holderAgent (agentOf s (8 * a)) ∧
        u.taint = (t0.taint || t0.wr) ∧ u.wr = false ∧ u.xfer = t0.xfer + 1) ∧
      ∃ m ∈ t.messages, m.msg.cls = 24 ∧ m.msg.dest = agentOf s (8 * r) ∧ m.msg.payload =
        [BitVec.ofNat 64 base, BitVec.ofNat 64 (t0.lsize + (t0.taint || t0.wr).toNat * 256), BitVec.ofNat 64 (holderVal t0.holder % 2 ^ 27), 0, 0, 0]) := by
  obtain ⟨u, hu, claimed⟩ := claimedOf_one apex dead gone lender tokens atBase unclaimed
  have parts := claimEntry_dead apex dead gone lender (isDeadSlot s k)
  dsimp only at parts
  rw [← hu] at parts
  obtain ⟨ubase, lsize, acct, holder, taint, wr, xfer⟩ := parts
  obtain ⟨_, small, device, core⟩ := isDeadAgent_parts gone
  obtain ⟨x, hx⟩ : ∃ x, x = claimedOf s k a := ⟨_, rfl⟩
  have aside : Aside (sealedCore s k) x := hx ▸ claimedOf_aside s k a
  rw [← hx] at claimed
  have empty : (coreAt x k).inbox = [] := by
    rw [coreAt, aside.cores, ← coreAt, sealedCore, coreAt_modCore_self]
    exact inbox
  obtain ⟨v, hv⟩ : ∃ v, v = cutOff (drainCore x k) k := ⟨_, rfl⟩
  have only : v = { drainCore x k with ctxs := v.ctxs, clusters := v.clusters } := hv ▸ cutOff_only (drainCore x k) k
  have mail := drainCore_noInbox empty
  unfold MailOnly at mail
  have entry : sget none v.tokens base = some u := by
    rw [only, mail, modCore_tokens, claimed, ← atBase, ← ubase]
    exact entry_setToken _ u
  have noted : v.claimed = [(base, holderVal t0.holder % 2 ^ 27)] := by
    rw [only, mail, modCore_claimed, claimed]
  have dev : v.device = s.device := by
    rw [only, mail, modCore_device, aside.only]
    rfl
  have accounts : v.accounts = s.accounts := by
    rw [only, mail, modCore_accounts, claimed]
    rfl
  have account : accountOf v u.acct.toNat = accountOf s t0.acct.toNat := by rw [acct, accountOf, accounts, accountOf]
  have mine : agentOn v k (holderVal t0.holder % 2 ^ 27) = true := by
    rw [Nat.mod_eq_of_lt small]
    simp only [agentOn, device, core, dev, decide_true, Bool.and_self]
  have report : reportClaimed v (agentOn v k) = reportRegion { v with claimed := [] } u (holderVal t0.holder % 2 ^ 27) := by
    simp only [reportClaimed, noted, List.filter_cons, mine, List.filter_nil, Bool.not_true, Bool.false_eq_true, if_true, if_false, List.foldl_cons, List.foldl_nil, entry]
  obtain ⟨m, hm⟩ : ∃ m, m = (deviceMsg { v with claimed := [] } 24 (agentId v.device (8 * r))
    [BitVec.ofNat 64 u.base, BitVec.ofNat 64 (u.lsize + u.taint.toNat * 256), BitVec.ofNat 64 (holderVal t0.holder % 2 ^ 27), 0, 0, 0]).1 := ⟨_, rfl⟩
  have sent : ∃ w, reportClaimed v (agentOn v k) = sendOut w .device (vertexOf r) m ∧ w.tokens = v.tokens := by
    have here : (accountOf { v with claimed := [] } u.acct.toNat).recovery = some r := by
      rw [← recovery, ← account]
      rfl
    rw [report, hm]
    simp only [reportRegion, here]
    exact ⟨_, rfl, rfl⟩
  obtain ⟨w, eq, same⟩ := sent
  have nogang : gangsOn s k = [] := by
    rw [gangsOn, nogangs]
    rfl
  refine ⟨reportClaimed v (agentOn v k), by rw [hv, hx]; exact containment_eq apex dead nogang, ⟨u, ?_, holder, taint, wr, xfer⟩, ?_⟩
  · rw [eq, sendOut, sendMsg, same, entry]
  · refine ⟨_, by rw [eq]; exact List.mem_append_right _ (List.mem_singleton_self _), ?_, ?_, ?_⟩
    all_goals dsimp only
    · rw [hm]
      rfl
    · rw [hm, agentOf, ← dev]
      rfl
    · rw [hm, ← taint, ← lsize, ← atBase, ← ubase]
      rfl

end

/-! ### Reclaimed regions (R217) -/

theorem outside_freeRegion (s : State) (e : Token) : Outside s (freeRegion s e) [] :=
  outside_of (by rw [freeRegion, setAccount_mem, dropToken_mem]) (by rw [freeRegion, setAccount_ctxs, dropToken_ctxs])

section

variable {s : State} {base k i h : Nat} {t0 : Token} {r : Report} (entry : sget none s.tokens base = some t0) (atBase : t0.base = base)
  (noted : s.reclaimed.find? (fun r => r.base = base) = some r)
include entry atBase noted

theorem regionRecovery_lends (answer : answerAt s t0 r true h = some (k, i)) (names : namesAgent h = true) :
    Gives (.regionRecovery base true h) s (fun t => Outside s t [] ∧ (∃ u, sget none t.tokens base = some u ∧ u.holder = holderAgent h ∧ u.taint = false) ∧
        t.reclaimed = removeFirst (fun x => x = r) s.reclaimed) := by
  obtain ⟨u, hu⟩ : ∃ u, u = { withHolder t0 (holderAgent h) t0.holder true with taint := false } := ⟨_, rfl⟩
  refine ⟨setToken { freeSlot s k i with reclaimed := removeFirst (fun x => x = r) s.reclaimed } u, ?_, ?_⟩
  · change execRegionRecovery base true h s = _
    simp only [execRegionRecovery, entry, noted, answer, names, Bool.not_true, Bool.false_eq_true, if_false, hu]
  · have place : u.base = base := by rw [hu, ← atBase]; rfl
    refine ⟨outside_of rfl rfl, ⟨u, ?_, by rw [hu]; rfl, by rw [hu]⟩, rfl⟩
    rw [← place]
    exact entry_setToken _ u

theorem regionRecovery_frees (answer : answerAt s t0 r false h = some (k, i)) :
    Gives (.regionRecovery base false h) s (fun t => Outside s t [] ∧ sget none t.tokens base = none) := by
  have answered : Outside s { freeSlot s k i with reclaimed := removeFirst (fun x => x = r) s.reclaimed } [] := outside_of rfl rfl
  refine ⟨freeRegion { freeSlot s k i with reclaimed := removeFirst (fun x => x = r) s.reclaimed } t0, ?_, outside_trans answered (outside_freeRegion _ t0), ?_⟩
  · change execRegionRecovery base false h s = _
    simp only [execRegionRecovery, entry, noted, answer, Bool.not_false, if_true]
  · rw [← atBase]
    exact entry_dropToken _ _

end

/-- Settles O56: the frame of each step of the firmware, a fold of kills over the contexts of a core, and the claim of one entry followed to its report. -/
theorem trapEndsAndKills : Obligations.TrapEndsAndKills := by
  unfold Obligations.TrapEndsAndKills
  refine ⟨fun _ _ => trapResume_resumes, fun _ _ => trapResume_handler, fun _ _ => trapRelease_releases, fun _ _ => trapRelease_part, ?_, ?_,
    fun _ _ _ _ _ _ => faultQueueDelivery_delivers, fun _ _ b => coreKill_stops b, fun _ _ b => coreKill_reports b, fun _ _ b => coreKill_killed b,
    fun _ _ _ apex dead execute nogang => containment_empties apex dead nogang execute, ?_, ?_, ?_⟩
  · intro s c held nogang wanted
    obtain ⟨t, run, frame, idle, outside, lease, _⟩ := trapRetire_retires held nogang wanted
    exact ⟨t, run, frame, idle, outside, lease, frame.1⟩
  · intro s c q held inside slot plain nogang wanted
    obtain ⟨t, run, frame, idle, _, _, inbox, messages⟩ := trapRetire_retires held nogang wanted
    obtain ⟨gone, g, sent, phase, msg⟩ := dropMessage_notice slot plain
    rw [if_pos inside] at messages inbox
    exact ⟨t, run, frame, idle, fun r hr => gone r (inbox _ r hr), g, messages g sent, phase, msg⟩
  · intro s k a base r t0 apex dead tokens atBase lender gone _ nogangs unclaimed inbox recovery
    exact containment_claims apex dead gone lender tokens atBase nogangs unclaimed inbox recovery
  · intro s k a apex dead notokens _ nogangs
    have nogang : gangsOn s k = [] := by
      rw [gangsOn, nogangs]
      rfl
    exact ⟨fun q inbox nopair unplaced plain => containment_notice apex dead nogang notokens inbox nopair unplaced plain,
      fun p inbox deque _ => containment_pair apex dead nogang notokens inbox deque⟩
  · intro s base k i h t0 r entry atBase noted
    exact ⟨fun answer names => regionRecovery_lends entry atBase noted answer names, fun answer => regionRecovery_frees entry atBase noted answer⟩

end Sys2Proof.Machine
end

