-- ==== Sys2Proof/Proofs/LatticeReads.lean ====
section
/-! SUPPORT. O40: results of lattice jobs, and the accumulator segments of a column group (R332 to R336). -/

namespace Sys2Proof.Machine

/-! ### Flags that are raised (R50) -/

/-- A state in which flags are raised or shown. -/
structure FlagsOnly (s t : State) : Prop where
  only : t = { s with ctxs := t.ctxs, clusters := t.clusters }
  ctx : ∀ c, ctxOf t c = { ctxOf s c with regs := { (ctxOf s c).regs with flags := (ctxOf t c).regs.flags, cf := (ctxOf t c).regs.cf } }
  col : ∀ v i, colOf t v i = colOf s v i

namespace FlagsOnly

variable {s t : State} (h : FlagsOnly s t)
include h

theorem cur : t.cur = s.cur := by rw [h.only]
theorem mem : t.mem = s.mem := by rw [h.only]
theorem flights : t.flights = s.flights := by rw [h.only]
theorem nextId : t.nextId = s.nextId := by rw [h.only]
theorem sendBuf (c : Nat) : (ctxOf t c).sendBuf = (ctxOf s c).sendBuf := by rw [h.ctx]
theorem hmode (c : Nat) : (ctxOf t c).hmode = (ctxOf s c).hmode := by rw [h.ctx]

theorem acts {o : State} {gs : List Nat} (k : Acts o s gs) : Acts o t gs where
  cur := h.cur.trans k.cur
  run := by rw [h.ctx]; exact k.run
  pc := by rw [h.ctx]; exact k.pc
  g r hr := by rw [← k.g r hr, rg, rg, h.ctx]
  p r := by rw [← k.p r, rp, rp, h.ctx]
  others e he := by
    obtain ⟨g, p⟩ := k.others e he
    exact ⟨fun r => by rw [← g r, rg, rg, h.ctx], fun r => by rw [← p r, rp, rp, h.ctx]⟩

end FlagsOnly

theorem flagsOnly_trans {s t u : State} (h : t = { s with ctxs := t.ctxs, clusters := t.clusters }) (k : u = { t with ctxs := u.ctxs, clusters := u.clusters }) :
    u = { s with ctxs := u.ctxs, clusters := u.clusters } := by rw [k, h]

theorem raiseFlags_flags (s : State) (c : Nat) (f : Flags) : FlagsOnly s (raiseFlags s c f) := by
  unfold raiseFlags
  split
  · exact ⟨rfl, fun _ => rfl, fun _ _ => rfl⟩
  · obtain ⟨u, hu⟩ : ∃ u, u = modCtx s c (fun k => { k with regs := { k.regs with flags := k.regs.flags ||| f, cf := k.regs.cf ||| f } }) := ⟨_, rfl⟩
    have raised (e : Nat) : ctxOf u e = { ctxOf s e with regs := { (ctxOf s e).regs with flags := (ctxOf u e).regs.flags, cf := (ctxOf u e).regs.cf } } := by
      rw [hu, ctxOf_modCtx]
      split
      case isTrue same => rw [same]
      case isFalse => rfl
    have only : u = { s with ctxs := u.ctxs, clusters := u.clusters } := by rw [hu]; rfl
    rw [← hu]
    refine ⟨flagsOnly_trans only (showFlags_only u c), fun e => ?_, fun v i => ?_⟩
    · rw [ctxOf_showFlags, raised]
    · rw [colOf_showFlags]
      exact colOf_congr (by rw [hu]; rfl) v i

/-! ### Results of a job: MWAIT, MDRAIN and MTERM (R332, R335, R336) -/

theorem gives_written {i : Instr} {s : State} {d : Nat} {x : Word} {body : State → Res State} (hi : Issues i s) (he : exec i s = runSeq i s body)
    (hb : body (beginIssue s) = .ok (wg (beginIssue s) s.cur d x)) : Gives i s (fun t => Writes s t d x) :=
  gives_retire hi he hb (writes_retire hi.1 (by rw [nextPc, pcOf, wg_cur, beginIssue_cur, wg_ctx, beginIssue_pc, pcOf]))

/-- The clusters, and the words that name a job, as an instruction sees them when it has begun. -/
theorem colOf_beginIssue (s : State) (v i : Nat) : colOf (beginIssue s) v i = colOf s v i := colOf_congr (beginIssue_clusters s) v i

/-- An instruction that waits without having changed anything. -/
theorem gives_parked {i : Instr} {s : State} {w : Stall} {body : State → Res State} (hi : Issues i s) (he : exec i s = runSeq i s body)
    (hb : body (beginIssue s) = .error (.park w (beginIssue s))) : Gives i s (fun t => (ctxOf t s.cur).run = .stalled w ∧ pcOf t = pcOf s ∧ RegFrame s t [] []) := by
  have looked := beginIssue_looked s
  exact gives_stalled hi he hb looked.cur looked.mem (fun e => by rw [looked.regs]) (looked.pc _)

section

variable {o : OpE} {s : State}

/-- The word that says that a job is unknown. -/
theorem unknownWord (w : Word) : BitVec.ofNat 64 (w.toNat % 2 ^ 16 * 2 ^ 48 + 4) = (w.setWidth 16).setWidth 64 <<< 48 ||| 4 := by
  refine BitVec.eq_of_toNat_eq ?_
  have or_eq := Nat.two_pow_add_eq_or_of_lt (show 4 < 2 ^ 48 by decide) (w.toNat % 2 ^ 16)
  have field : w.toNat % 2 ^ 16 < 2 ^ 16 := Nat.mod_lt _ (by decide)
  have low : w.toNat % 2 ^ 16 % 2 ^ 64 = w.toNat % 2 ^ 16 := Nat.mod_eq_of_lt (by omega)
  have high : w.toNat % 2 ^ 16 * 2 ^ 48 % 2 ^ 64 = 2 ^ 48 * (w.toNat % 2 ^ 16) := by omega
  rw [BitVec.toNat_ofNat, BitVec.toNat_or, BitVec.toNat_shiftLeft, BitVec.toNat_setWidth, BitVec.toNat_setWidth, low, Nat.shiftLeft_eq, high]
  have four : (4 : Word).toNat = 4 := rfl
  rw [four, ← or_eq, Nat.mod_eq_of_lt (by omega), Nat.mul_comm]

theorem mwait_waits (hi : Issues (.mwait o) s) (out : jobOut (clusterAt s (vertOf s.cur)) (rg s s.cur o.a.toNat) = true) :
    Gives (.mwait o) s (fun t => (ctxOf t s.cur).run = .stalled (.mwait ((rg s s.cur o.a.toNat).setWidth 16)) ∧ RegFrame s t [] []) := by
  obtain ⟨t, run, stalled, _, frame⟩ := gives_parked (w := .mwait ((rg s s.cur o.a.toNat).setWidth 16)) hi (rfl : _ = execMwait o s) (by
    simp only [beginIssue_cur, rg_beginIssue, clusterAt_beginIssue, out, if_true]
    rfl)
  exact ⟨t, run, stalled, frame⟩

theorem mwait_unknown (hi : Issues (.mwait o) s) (out : jobOut (clusterAt s (vertOf s.cur)) (rg s s.cur o.a.toNat) = false)
    (unknown : endedJob (clusterAt s (vertOf s.cur)) (rg s s.cur o.a.toNat) = none) :
    Gives (.mwait o) s (fun t => Writes s t o.d.toNat (((rg s s.cur o.a.toNat).setWidth 16).setWidth 64 <<< 48 ||| 4)) := by
  refine gives_written hi (rfl : _ = execMwait o s) ?_
  simp only [beginIssue_cur, rg_beginIssue, clusterAt_beginIssue, out, unknown, unknownWord, Bool.false_eq_true, if_false]

theorem mwait_ended {d : LatDone} (hi : Issues (.mwait o) s) (out : jobOut (clusterAt s (vertOf s.cur)) (rg s s.cur o.a.toNat) = false)
    (ended : endedJob (clusterAt s (vertOf s.cur)) (rg s s.cur o.a.toNat) = some d) (settled : unsettled s s.cur = false) :
    Gives (.mwait o) s (fun t => Proceeds s t [o.d.toNat] ∧ rg t s.cur o.d.toNat = (if o.d = 0 then 0 else
      BitVec.ofNat 64 (d.jid.toNat * 2 ^ 48 + d.code * 2 ^ 40 + d.wrap.toNat * 8 + if d.code = 0 then 2 else 3))) := by
  obtain ⟨u, hu⟩ : ∃ u, u = if d.owed.contains s.cur then
      modCluster (raiseFlags (beginIssue s) s.cur (d.flags.getD (coreNo (coreOf s.cur)) 0)) (vertOf s.cur) (fun x => { x with
        ended := x.ended.map (fun e => if e = d then { e with owed := e.owed.filter (· ≠ s.cur) } else e) })
    else beginIssue s := ⟨_, rfl⟩
  have looked := beginIssue_looked s
  have acts : Acts s u [] ∧ u.mem = s.mem := by
    have flags := raiseFlags_flags (beginIssue s) s.cur (d.flags.getD (coreNo (coreOf s.cur)) 0)
    rw [hu]
    split
    · exact ⟨(flags.acts (.of_looked hi.1 looked)).ctxs rfl rfl, flags.mem.trans looked.mem⟩
    · exact ⟨.of_looked hi.1 looked, looked.mem⟩
  obtain ⟨acts, mem⟩ := acts
  refine gives_retire (u := wg u s.cur o.d.toNat (BitVec.ofNat 64 (d.jid.toNat * 2 ^ 48 + d.code * 2 ^ 40 + d.wrap.toNat * 8 + if d.code = 0 then 2 else 3)))
    hi (rfl : _ = execMwait o s) ?_ ⟨proceeds_retire ((acts.mono (List.nil_subset _)).wg _ (List.mem_singleton_self _)) (by rw [wg_mem, mem]), ?_⟩
  · simp only [beginIssue_cur, rg_beginIssue, clusterAt_beginIssue, out, ended, settle_ok looked settled, Bool.false_eq_true, if_false]
    rw [hu]
    rfl
  · refine rg_retire_of ((acts.mono (List.nil_subset _)).wg _ (List.mem_singleton_self _)) ?_
    exact rg_wg_self _ _ _ _

theorem mdrain_written (hi : Issues (.mdrain o) s) (out : jobOut (clusterAt s (vertOf s.cur)) (rg s s.cur o.a.toNat) = false)
    (drained : ∀ e ∈ (colOf s (vertOf s.cur) (coreNo (coreOf s.cur))).segs, e.2.state ≠ .draining) :
    Gives (.mdrain o) s (fun t => Writes s t o.d.toNat (if endedJob (clusterAt s (vertOf s.cur)) (rg s s.cur o.a.toNat) = none ∧ (ctxOf s s.cur).tried = false then 0 else
      BitVec.ofNat 64 (sget 0 (colOf s (vertOf s.cur) (coreNo (coreOf s.cur))).written ((rg s s.cur o.a.toNat).toNat % 2 ^ 16)))) := by
  have looked := beginIssue_looked s
  have tried : (ctxOf (beginIssue s) s.cur).tried = (ctxOf s s.cur).tried := by rw [looked.ctx]
  have none_ : (colOf s (vertOf s.cur) (coreNo (coreOf s.cur))).segs.any (fun e => e.2.state = .draining && e.2.jid = (rg s s.cur o.a.toNat).setWidth 16) = false :=
    List.any_eq_false.mpr (fun e he h => drained e he (of_decide_eq_true (Bool.and_eq_true_iff.mp h).1))
  refine gives_written hi (rfl : _ = execMdrain o s) ?_
  simp only [beginIssue_cur, rg_beginIssue, clusterAt_beginIssue, colOf_beginIssue, out, tried, none_, Bool.false_eq_true, if_false]
  by_cases unknown : endedJob (clusterAt s (vertOf s.cur)) (rg s s.cur o.a.toNat) = none ∧ (ctxOf s s.cur).tried = false
  · rw [if_pos unknown, unknown.1, unknown.2]
    rfl
  · rw [if_neg unknown, if_neg]
    simpa using unknown

theorem mdrain_waits (hi : Issues (.mdrain o) s)
    (busy : jobOut (clusterAt s (vertOf s.cur)) (rg s s.cur o.a.toNat) = true ∨ (endedJob (clusterAt s (vertOf s.cur)) (rg s s.cur o.a.toNat) ≠ none ∧
      ∃ e ∈ (colOf s (vertOf s.cur) (coreNo (coreOf s.cur))).segs, e.2.state = .draining ∧ e.2.jid = (rg s s.cur o.a.toNat).setWidth 16)) :
    Gives (.mdrain o) s (fun t => (ctxOf t s.cur).run = .stalled (.mdrain ((rg s s.cur o.a.toNat).setWidth 16)) ∧ pcOf t = pcOf s ∧ RegFrame s t [] []) := by
  refine gives_parked hi (rfl : _ = execMdrain o s) ?_
  by_cases out : jobOut (clusterAt s (vertOf s.cur)) (rg s s.cur o.a.toNat) = true
  · simp only [beginIssue_cur, rg_beginIssue, clusterAt_beginIssue, out, if_true]
    rfl
  · obtain ⟨known, e, he, draining, jid⟩ := busy.resolve_left out
    have any : (colOf s (vertOf s.cur) (coreNo (coreOf s.cur))).segs.any (fun e => e.2.state = .draining && e.2.jid = (rg s s.cur o.a.toNat).setWidth 16) = true :=
      List.any_eq_true.mpr ⟨e, he, by simp [draining, jid]⟩
    have some_ : (endedJob (clusterAt s (vertOf s.cur)) (rg s s.cur o.a.toNat)).isNone = false := by
      simpa [Option.isSome_iff_ne_none] using known
    simp only [beginIssue_cur, rg_beginIssue, clusterAt_beginIssue, colOf_beginIssue, out, some_, any, Bool.false_and, Bool.false_eq_true, if_false, if_true]
    rfl

theorem mterm_reads (hi : Issues (.mterm o) s) :
    let g := colOf s (vertOf s.cur) (coreNo (coreOf s.cur))
    Gives (.mterm o) s (fun t => Writes s t o.d.toNat (match o.imm.toNat with
      | 0 => g.applied | 1 => g.dropped | 2 => g.idle | 3 => BitVec.ofNat 64 g.active.span | _ => BitVec.ofNat 64 g.shadow.span)) := by
  intro g
  refine gives_writes (fun t => let g := colOf t (vertOf t.cur) (coreNo (coreOf t.cur))
    match o.imm.toNat with
      | 0 => g.applied | 1 => g.dropped | 2 => g.idle | 3 => BitVec.ofNat 64 g.active.span | _ => BitVec.ofNat 64 g.shadow.span) hi rfl ?_
  simp only [beginIssue_cur, colOf_beginIssue]

end

/-! ### Accumulator segments and tile rows (R333) -/

theorem segOf_setSeg (s : State) (v i r : Nat) (x : Seg) (r' : Nat) : segOf (setSeg s v i r x) v i r' = if r' = r then x else segOf s v i r' := by
  rw [segOf, setSeg, colOf_setCol_self, sget_sput]
  rfl

theorem segOf_congr {s t : State} {v i : Nat} (h : colOf t v i = colOf s v i) (r : Nat) : segOf t v i r = segOf s v i r := by rw [segOf, h, segOf]

theorem tileRow_setTileRow (s : State) (k tile r : Nat) (x : BitVec 256) (r' : Nat) :
    tileRow (setTileRow s k tile r x) k tile r' = if r' = r then x else tileRow s k tile r' := by
  rw [tileRow, setTileRow, coreAt_modCore_self, sget_sput]
  by_cases same : r' = r
  · rw [same, if_pos rfl, if_pos rfl]
  · rw [if_neg (by omega), if_neg same, tileRow]

/-- A tile row written to both cores of a lockstep pair (R80). -/
theorem tileRow_keepTile (s : State) (c k tile r : Nat) (x : BitVec 256) (r' : Nat) :
    tileRow (keepTile s c k tile r x) k tile r' = if r' = r then x else tileRow s k tile r' := by
  have own := tileRow_setTileRow s k tile r x r'
  unfold keepTile
  dsimp only
  split
  · rw [tileRow, setTileRow, coreAt_modCore]
    by_cases here : k = coreOf (partnerOf c)
    · rw [if_pos here, ← here]
      have twice := tileRow_setTileRow (setTileRow s k tile r x) k tile r x r'
      rw [tileRow, setTileRow, coreAt_modCore_self] at twice
      rw [twice, own]
      split <;> rfl
    · rw [if_neg here, ← tileRow, own]
  · exact own

/-- A state that differs in cores and clusters: what an instruction on segments and tiles changes. -/
def UnitsOnly (s t : State) : Prop := t = { s with cores := t.cores, clusters := t.clusters }

namespace UnitsOnly

variable {s t u : State}

theorem refl (s : State) : UnitsOnly s s := rfl

theorem trans (h : UnitsOnly s t) (k : UnitsOnly t u) : UnitsOnly s u := by
  unfold UnitsOnly at h k ⊢
  rw [k, h]

variable (h : UnitsOnly s t)
include h

theorem mem : t.mem = s.mem := by rw [h]
theorem acts {o : State} {gs : List Nat} (k : Acts o s gs) : Acts o t gs := k.ctxs (by rw [h]) (by rw [h])

end UnitsOnly

theorem setSeg_units (s : State) (v i r : Nat) (x : Seg) : UnitsOnly s (setSeg s v i r x) := rfl

theorem keepTile_units (s : State) (c k tile r : Nat) (x : BitVec 256) : UnitsOnly s (keepTile s c k tile r x) := by
  unfold keepTile
  dsimp only
  split <;> rfl

theorem colOf_keepTile (s : State) (c k tile r : Nat) (x : BitVec 256) (v i : Nat) : colOf (keepTile s c k tile r x) v i = colOf s v i := by
  refine colOf_congr ?_ v i
  unfold keepTile
  dsimp only
  split <;> rfl

/-- Segments that are free or kept, and not poisoned, are open to an instruction (R333). -/
theorem openSegs_ok {s : State} {row n : Nat} {poison : Bool} (settled : unsettled s s.cur = false)
    (ready : segsReady s (vertOf s.cur) (coreNo (coreOf s.cur)) row n = true)
    (sound : poison = true → ∀ j, j < n → (segOf s (vertOf s.cur) (coreNo (coreOf s.cur)) (row + j)).poison = false) : openSegs (beginIssue s) row n poison = .ok () := by
  have looked := beginIssue_looked s
  have seg (r : Nat) : segOf (beginIssue s) (vertOf s.cur) (coreNo (coreOf s.cur)) r = segOf s (vertOf s.cur) (coreNo (coreOf s.cur)) r :=
    segOf_congr (colOf_beginIssue s _ _) r
  have open_ : segsReady (beginIssue s) (vertOf s.cur) (coreNo (coreOf s.cur)) row n = true := by
    rw [← ready, segsReady, segsReady]
    simp only [seg, looked.cycle]
  have clean : (poison && (List.range n).any (fun j => (segOf (beginIssue s) (vertOf s.cur) (coreNo (coreOf s.cur)) (row + j)).poison)) = false := by
    cases poison with
    | false => rfl
    | true =>
      rw [Bool.true_and, List.any_eq_false]
      intro j hj
      rw [seg, sound rfl j (List.mem_range.mp hj)]
      exact Bool.false_ne_true
  rw [openSegs, looked.cur, open_, clean]
  exact settle_ok looked settled

/-- What a fold over the first segments of a span keeps, and gives each of them. -/
theorem foldl_range {P : Nat → State → Prop} {f : State → Nat → State} {s : State} (start : P 0 s) (next : ∀ n t, P n t → P (n + 1) (f t n)) :
    ∀ n, P n ((List.range n).foldl f s)
  | 0 => start
  | n + 1 => by
    rw [List.range_succ, List.foldl_append]
    exact next n _ (foldl_range start next n)

section

variable {o : OpE} {s : State} {row : Nat}

/-- One segment that ALD reads into two rows of a tile (R333). -/
def aldStep (c k tile v row since : Nat) (u : State) (j : Nat) : State :=
  let x := segOf u v (coreNo k) (row + j)
  let u := keepTile (keepTile u c k tile (2 * j) (x.data.setWidth 256)) c k tile (2 * j + 1) (x.data.extractLsb' 256 256)
  setSeg u v (coreNo k) (row + j) { x with state := .kept, since := since }

theorem halves (x : Vec) : x.extractLsb' 256 256 ++ x.setWidth 256 = x := by
  refine BitVec.eq_of_getLsbD_eq (fun j hj => ?_)
  rw [BitVec.getLsbD_append]
  split
  case isTrue low => rw [BitVec.getLsbD_setWidth, decide_eq_true low, Bool.true_and]
  case isFalse high =>
    rw [BitVec.getLsbD_extractLsb', decide_eq_true (by omega), Bool.true_and]
    rw [Nat.add_sub_cancel' (Nat.le_of_not_lt high)]

/-- ALD has read the first n segments of its span. -/
structure AldDone (s : State) (v k tile row n : Nat) (u : State) : Prop where
  units : UnitsOnly s u
  later : ∀ j, n ≤ j → segOf u v (coreNo k) (row + j) = segOf s v (coreNo k) (row + j)
  rows : ∀ j, j < n → tileRow u k tile (2 * j) = (segOf s v (coreNo k) (row + j)).data.setWidth 256 ∧
    tileRow u k tile (2 * j + 1) = (segOf s v (coreNo k) (row + j)).data.extractLsb' 256 256

theorem aldStep_done {c k tile v since n : Nat} {u : State} (h : AldDone s v k tile row n u) : AldDone s v k tile row (n + 1) (aldStep c k tile v row since u n) := by
  obtain ⟨x, hx⟩ : ∃ x, x = segOf u v (coreNo k) (row + n) := ⟨_, rfl⟩
  obtain ⟨w, hw⟩ : ∃ w, w = keepTile (keepTile u c k tile (2 * n) (x.data.setWidth 256)) c k tile (2 * n + 1) (x.data.extractLsb' 256 256) := ⟨_, rfl⟩
  have step : aldStep c k tile v row since u n = setSeg w v (coreNo k) (row + n) { x with state := .kept, since := since } := by rw [aldStep, ← hx, hw]
  have col : colOf w v (coreNo k) = colOf u v (coreNo k) := by rw [hw, colOf_keepTile, colOf_keepTile]
  have read : x = segOf s v (coreNo k) (row + n) := hx.trans (h.later n (Nat.le_refl _))
  have tile_ (r : Nat) : tileRow w k tile r = if r = 2 * n + 1 then x.data.extractLsb' 256 256 else if r = 2 * n then x.data.setWidth 256 else tileRow u k tile r := by
    rw [hw, tileRow_keepTile, tileRow_keepTile]
  have units : UnitsOnly u w := hw ▸ (keepTile_units _ _ _ _ _ _).trans (keepTile_units _ _ _ _ _ _)
  rw [step]
  refine ⟨(h.units.trans units).trans (setSeg_units _ _ _ _ _), fun j hj => ?_, fun j hj => ?_⟩
  · rw [segOf_setSeg, if_neg (by omega), segOf_congr col, h.later j (by omega)]
  · change tileRow w k tile (2 * j) = _ ∧ tileRow w k tile (2 * j + 1) = _
    rw [tile_, tile_, if_neg (by omega)]
    by_cases last : j = n
    · rw [last, if_pos rfl, if_pos rfl, ← read]
      exact ⟨rfl, rfl⟩
    · rw [if_neg (by omega), if_neg (by omega), if_neg (by omega)]
      exact h.rows j (by omega)

theorem ald_reads {n : Nat} (hi : Issues (.ald o) s) (settled : unsettled s s.cur = false) (span : n = o.imm.toNat % 32 + 1) (place : row = (rg s s.cur o.c.toNat).toNat)
    (ready : segsReady s (vertOf s.cur) (coreNo (coreOf s.cur)) row n = true)
    (sound : ∀ j, j < n → (segOf s (vertOf s.cur) (coreNo (coreOf s.cur)) (row + j)).poison = false) :
    Gives (.ald o) s (fun t => Proceeds s t [] ∧ ∀ j, j < n →
      tileRow t (coreOf s.cur) o.d.toNat (2 * j + 1) ++ tileRow t (coreOf s.cur) o.d.toNat (2 * j) =
        (segOf s (vertOf s.cur) (coreNo (coreOf s.cur)) (row + j)).data) := by
  have looked := beginIssue_looked s
  obtain ⟨u, hu⟩ : ∃ u, u = (List.range n).foldl (aldStep s.cur (coreOf s.cur) o.d.toNat (vertOf s.cur) row (busyUntil (beginIssue s) n)) (beginIssue s) := ⟨_, rfl⟩
  have done : AldDone (beginIssue s) (vertOf s.cur) (coreOf s.cur) o.d.toNat row n u :=
    hu ▸ foldl_range (P := AldDone (beginIssue s) (vertOf s.cur) (coreOf s.cur) o.d.toNat row) ⟨.refl _, fun _ _ => rfl, fun _ h => absurd h (Nat.not_lt_zero _)⟩ (fun _ _ => aldStep_done) n
  have tile (r : Nat) : tileRow (retire (.ald o) u (nextPc u)) (coreOf s.cur) o.d.toNat r = tileRow u (coreOf s.cur) o.d.toNat r := by
    rw [tileRow, core_retire Core.tiles (fun _ => rfl), tileRow]
  refine gives_retire hi (rfl : _ = execAld o s) (u := u) ?_ ⟨proceeds_retire (done.units.acts (.of_looked hi.1 looked)) (done.units.mem.trans looked.mem), fun j hj => ?_⟩
  · simp only [beginIssue_cur, rg_beginIssue, ← place, ← span, openSegs_ok settled ready (fun _ => sound)]
    rw [hu]
    rfl
  · obtain ⟨low, high⟩ := done.rows j hj
    rw [tile, tile, low, high, halves, segOf_congr (colOf_beginIssue s _ _)]

/-- One segment that AST writes from two rows of a tile (R333). -/
def astStep (k tile v row since : Nat) (new : Vec → Vec → Vec) (u : State) (j : Nat) : State :=
  let x := segOf u v (coreNo k) (row + j)
  setSeg u v (coreNo k) (row + j) { x with state := .kept, since := since, data := new x.data (tileRow u k tile (2 * j + 1) ++ tileRow u k tile (2 * j)) }

/-- AST has written the first n segments of its span. -/
structure AstDone (s : State) (v k tile row : Nat) (new : Vec → Vec → Vec) (n : Nat) (u : State) : Prop where
  units : UnitsOnly s u
  tiles : ∀ r, tileRow u k tile r = tileRow s k tile r
  later : ∀ j, n ≤ j → segOf u v (coreNo k) (row + j) = segOf s v (coreNo k) (row + j)
  segs : ∀ j, j < n → (segOf u v (coreNo k) (row + j)).state = .kept ∧
    (segOf u v (coreNo k) (row + j)).data = new (segOf s v (coreNo k) (row + j)).data (tileRow s k tile (2 * j + 1) ++ tileRow s k tile (2 * j))

theorem astStep_done {k tile v since n : Nat} {new : Vec → Vec → Vec} {u : State} (h : AstDone s v k tile row new n u) :
    AstDone s v k tile row new (n + 1) (astStep k tile v row since new u n) := by
  refine ⟨h.units.trans (setSeg_units _ _ _ _ _), h.tiles, fun j hj => ?_, fun j hj => ?_⟩
  · rw [astStep, segOf_setSeg, if_neg (by omega), h.later j (by omega)]
  · rw [astStep, segOf_setSeg]
    by_cases last : j = n
    · rw [if_pos (by rw [last]), last, h.tiles, h.tiles, h.later n (Nat.le_refl _)]
      exact ⟨rfl, rfl⟩
    · rw [if_neg (by omega)]
      exact h.segs j (by omega)

theorem ast_writes {n : Nat} (hi : Issues (.ast o) s) (settled : unsettled s s.cur = false) (span : n = o.imm.toNat % 32 + 1) (place : row = (rg s s.cur o.c.toNat).toNat)
    (ready : segsReady s (vertOf s.cur) (coreNo (coreOf s.cur)) row n = true)
    (sound : ∀ j, j < n → (segOf s (vertOf s.cur) (coreNo (coreOf s.cur)) (row + j)).poison = false) :
    Gives (.ast o) s (fun t => Proceeds s t [] ∧ ∀ j, j < n →
      (segOf t (vertOf s.cur) (coreNo (coreOf s.cur)) (row + j)).state = .kept ∧
      (segOf t (vertOf s.cur) (coreNo (coreOf s.cur)) (row + j)).data =
        (fun x y => if o.imm.getLsbD 5 then addLanes (isIntFmt (colOf s (vertOf s.cur) (coreNo (coreOf s.cur))).active.fmt.toNat) x y else y)
          (segOf s (vertOf s.cur) (coreNo (coreOf s.cur)) (row + j)).data
          (tileRow s (coreOf s.cur) o.a.toNat (2 * j + 1) ++ tileRow s (coreOf s.cur) o.a.toNat (2 * j))) := by
  have looked := beginIssue_looked s
  obtain ⟨new, hnew⟩ : ∃ new : Vec → Vec → Vec, new = fun x y =>
    if o.imm.getLsbD 5 then addLanes (isIntFmt (colOf s (vertOf s.cur) (coreNo (coreOf s.cur))).active.fmt.toNat) x y else y := ⟨_, rfl⟩
  obtain ⟨u, hu⟩ : ∃ u, u = (List.range n).foldl (astStep (coreOf s.cur) o.a.toNat (vertOf s.cur) row (busyUntil (beginIssue s) n) new) (beginIssue s) := ⟨_, rfl⟩
  have done : AstDone (beginIssue s) (vertOf s.cur) (coreOf s.cur) o.a.toNat row new n u :=
    hu ▸ foldl_range (P := AstDone (beginIssue s) (vertOf s.cur) (coreOf s.cur) o.a.toNat row new) ⟨.refl _, fun _ => rfl, fun _ _ => rfl, fun _ h => absurd h (Nat.not_lt_zero _)⟩ (fun _ _ => astStep_done) n
  have seg (r : Nat) : segOf (retire (.ast o) u (nextPc u)) (vertOf s.cur) (coreNo (coreOf s.cur)) r = segOf u (vertOf s.cur) (coreNo (coreOf s.cur)) r :=
    segOf_congr (colOf_retire _ _ _ _ _) r
  have tile (r : Nat) : tileRow (beginIssue s) (coreOf s.cur) o.a.toNat r = tileRow s (coreOf s.cur) o.a.toNat r := by
    rw [tileRow, looked.core, tileRow]
  rw [← hnew]
  refine gives_retire hi (rfl : _ = execAst o s) (u := u) ?_ ⟨proceeds_retire (done.units.acts (.of_looked hi.1 looked)) (done.units.mem.trans looked.mem), fun j hj => ?_⟩
  · simp only [beginIssue_cur, rg_beginIssue, colOf_beginIssue, ← place, ← span, openSegs_ok settled ready (fun _ => sound)]
    rw [hu, hnew]
    rfl
  · obtain ⟨state, data⟩ := done.segs j hj
    rw [seg]
    refine ⟨state, ?_⟩
    rw [data, segOf_congr (colOf_beginIssue s _ _), tile, tile]

/-- MZERO has freed the first n segments of its span. -/
structure ZeroDone (s : State) (v i row n : Nat) (u : State) : Prop where
  units : UnitsOnly s u
  segs : ∀ j, j < n → segOf u v i (row + j) = Seg.reset

theorem mzero_frees (hi : Issues (.mzero o) s) (settled : unsettled s s.cur = false) (place : row = (rg s s.cur o.c.toNat).toNat)
    (ready : segsReady s (vertOf s.cur) (coreNo (coreOf s.cur)) row (o.imm.toNat + 1) = true) :
    Gives (.mzero o) s (fun t => Proceeds s t [] ∧ ∀ j, j ≤ o.imm.toNat →
      segOf t (vertOf s.cur) (coreNo (coreOf s.cur)) (row + j) = Seg.reset) := by
  have looked := beginIssue_looked s
  obtain ⟨u, hu⟩ : ∃ u, u = (List.range (o.imm.toNat + 1)).foldl (fun u j => setSeg u (vertOf s.cur) (coreNo (coreOf s.cur)) (row + j) Seg.reset) (beginIssue s) := ⟨_, rfl⟩
  have done : ZeroDone (beginIssue s) (vertOf s.cur) (coreNo (coreOf s.cur)) row (o.imm.toNat + 1) u := by
    rw [hu]
    refine foldl_range (P := ZeroDone (beginIssue s) (vertOf s.cur) (coreNo (coreOf s.cur)) row) ⟨.refl _, fun _ h => absurd h (Nat.not_lt_zero _)⟩ (fun n t h => ?_) _
    refine ⟨h.units.trans (setSeg_units _ _ _ _ _), fun j hj => ?_⟩
    rw [segOf_setSeg]
    split
    · rfl
    · exact h.segs j (by omega)
  refine gives_retire hi (rfl : _ = execMzero o s) (u := u) ?_ ⟨proceeds_retire (done.units.acts (.of_looked hi.1 looked)) (done.units.mem.trans looked.mem), fun j hj => ?_⟩
  · simp only [beginIssue_cur, rg_beginIssue, ← place, openSegs_ok (poison := false) settled ready (fun h => by cases h)]
    rw [hu]
    rfl
  · rw [segOf_congr (colOf_retire _ _ _ _ _), done.segs j (by omega)]

end

/-! ### Lanes, and the width of a rounded number (R49 to R51) -/

theorem packList_lt (b : Nat) : ∀ l : List Nat, packList b l < 2 ^ (b * l.length)
  | [] => Nat.one_pos
  | x :: l => by
    have head : x % 2 ^ b < 2 ^ b := Nat.mod_lt _ (Nat.two_pow_pos b)
    have tail := packList_lt b l
    rw [packList, List.length_cons, Nat.mul_succ, Nat.add_comm (b * l.length), Nat.pow_add]
    calc x % 2 ^ b + 2 ^ b * packList b l < 2 ^ b + 2 ^ b * packList b l := by omega
      _ = 2 ^ b * (packList b l + 1) := by rw [Nat.mul_succ, Nat.add_comm]
      _ ≤ 2 ^ b * 2 ^ (b * l.length) := Nat.mul_le_mul_left _ tail

theorem packList_shift (b : Nat) : ∀ (l : List Nat) (i : Nat), (packList b l >>> (b * i)) % 2 ^ b = l.getD i 0 % 2 ^ b
  | [], i => by rw [packList, Nat.zero_shiftRight]; rfl
  | x :: l, 0 => by
    rw [packList, Nat.mul_zero, Nat.shiftRight_zero, Nat.add_mul_mod_self_left, Nat.mod_mod]
    rfl
  | x :: l, i + 1 => by
    have head : x % 2 ^ b < 2 ^ b := Nat.mod_lt _ (Nat.two_pow_pos b)
    rw [Nat.mul_succ, Nat.add_comm (b * i), Nat.shiftRight_add, packList, Nat.shiftRight_eq_div_pow _ b, Nat.add_mul_div_left _ _ (Nat.two_pow_pos b),
      Nat.div_eq_of_lt head, Nat.zero_add, packList_shift b l i]
    rfl

/-- A lane of a register put together from its lanes. -/
theorem lane_packVec {b : Nat} {l : List Nat} (room : b * l.length ≤ 512) (i : Nat) : lane (packVec b l) b i = l.getD i 0 % 2 ^ b := by
  have small := Nat.lt_of_lt_of_le (packList_lt b l) (Nat.pow_le_pow_right Nat.two_pos room)
  rw [lane, packVec, BitVec.toNat_ofNat, Nat.mod_eq_of_lt small, packList_shift]

theorem lt_two_pow_bitLen (m : Nat) : m < 2 ^ bitLen m := by
  unfold bitLen
  split
  case isTrue zero => rw [zero]; exact Nat.one_pos
  case isFalse => exact Nat.lt_log2_self

/-- A rounded significand has at most one bit more than the places kept for it, and then it is a power of two. -/
theorem roundTo_le (mode : Nat) (neg : Bool) {m p : Nat} {e q : Int} (places : e + bitLen m - p ≤ q) : (roundTo mode neg m e q).1 ≤ 2 ^ p := by
  have top := lt_two_pow_bitLen m
  unfold roundTo
  split
  case isTrue exact_ =>
    have fits : bitLen m + (e - q).toNat ≤ p := by omega
    calc m * 2 ^ (e - q).toNat ≤ 2 ^ bitLen m * 2 ^ (e - q).toNat := Nat.mul_le_mul_right _ (Nat.le_of_lt top)
      _ = 2 ^ (bitLen m + (e - q).toNat) := (Nat.pow_add _ _ _).symm
      _ ≤ 2 ^ p := Nat.pow_le_pow_right (by decide) fits
  case isFalse cut =>
    have fits : bitLen m ≤ p + (q - e).toNat := by omega
    have quotient : m / 2 ^ (q - e).toNat < 2 ^ p := by
      refine Nat.div_lt_of_lt_mul ?_
      rw [Nat.mul_comm, ← Nat.pow_add]
      exact Nat.lt_of_lt_of_le top (Nat.pow_le_pow_right (by decide) fits)
    dsimp only
    split
    · exact quotient
    · exact Nat.le_of_lt quotient

/-- The exponent and fraction fields of a rounded number below the overflow bound. -/
def ieeeFields (k : Nat) (q : Int) : Nat := if k < 2 ^ 23 then k else (q + bitLen k - 1 + 127).toNat * 2 ^ 23 + (if bitLen k = 25 then 0 else k - 2 ^ 23)

theorem bitLen_eq {k n : Nat} (low : 2 ^ n ≤ k) (high : k < 2 ^ (n + 1)) : bitLen k = n + 1 := by
  have nonzero : k ≠ 0 := by
    have := Nat.two_pow_pos n
    omega
  rw [bitLen, if_neg nonzero, (Nat.log2_eq_iff nonzero).mpr ⟨low, high⟩]

theorem ieeeFields_lt {k : Nat} {q : Int} (small : k ≤ 2 ^ 24) (room : q + bitLen k - 1 < 128) : ieeeFields k q < 2 ^ 31 := by
  unfold ieeeFields
  split
  · omega
  case isFalse normal =>
    by_cases last : k = 2 ^ 24
    · have length : bitLen k = 25 := by rw [last]; exact bitLen_eq (Nat.le_refl _) (by decide)
      rw [length] at room ⊢
      rw [if_pos rfl]
      omega
    · have length : bitLen k = 24 := bitLen_eq (Nat.le_of_not_lt normal) (by omega)
      rw [length] at room ⊢
      rw [if_neg (by decide)]
      omega

theorem roundIeee_lt (mode : Nat) (neg : Bool) (m : Nat) (e : Int) : (roundIeee mode 13 neg m e).1 < 2 ^ 32 := by
  obtain ⟨q, hq⟩ : ∃ q : Int, q = max (e + bitLen m - 1 - 23) (1 - 127 - 23) := ⟨_, rfl⟩
  have small : (roundTo mode neg m e q).1 ≤ 2 ^ 24 := roundTo_le mode neg (by omega)
  have sign : signBit 13 neg ≤ 2 ^ 31 := by cases neg <;> decide
  have eq : (roundIeee mode 13 neg m e).1 = if (127 : Int) + 1 ≤ q + bitLen (roundTo mode neg m e q).1 - 1 then
      signBit 13 neg + (if mode = 1 || mode = 5 || (mode = 3 && !neg) || (mode = 4 && neg) then infBits 13 else infBits 13 - 1)
      else signBit 13 neg + ieeeFields (roundTo mode neg m e q).1 q := by
    have places : (fracBits 13 : Int) + 1 - 1 = 23 := by decide
    have width : fracBits 13 = 23 := rfl
    have bias_ : bias 13 = 127 := by decide
    unfold roundIeee
    dsimp only
    rw [places, bias_, ← hq, width]
    split
    · rfl
    · rfl
  rw [eq]
  split
  case isTrue =>
    have inf : infBits 13 < 2 ^ 31 := by decide
    split <;> omega
  case isFalse room =>
    have fields := ieeeFields_lt (q := q) small (by omega)
    omega

theorem roundNum_lt (mode : Nat) (b : Bool) (x : Num) : (roundNum mode 13 b x).1 < 2 ^ 32 := by
  have sign (neg : Bool) : signBit 13 neg ≤ 2 ^ 31 := by cases neg <;> decide
  have inf : infBits 13 < 2 ^ 31 := by decide
  unfold roundNum
  rw [if_pos (by decide)]
  cases x with
  | nan => exact (by decide : canonNan 13 < 2 ^ 32)
  | inf neg =>
    have := sign neg
    dsimp only
    omega
  | zero neg =>
    have := sign neg
    dsimp only
    omega
  | fin neg m e => exact roundIeee_lt mode neg m e

theorem lane_addLanes (int : Bool) (x y : Vec) {i : Nat} (hi : i < 16) : lane (addLanes int x y) 32 i =
    if int then (lane x 32 i + lane y 32 i) % 2 ^ 32 else (roundNum 1 13 false (nadd 1 (decodeIeee 13 (lane x 32 i)) (decodeIeee 13 (lane y 32 i))).1).1 := by
  rw [addLanes, lane_packVec (b := 32) (by simp), List.getD_eq_getElem _ _ (by simpa using hi), List.getElem_map, List.getElem_range]
  cases int with
  | true => rfl
  | false => exact Nat.mod_eq_of_lt (roundNum_lt 1 false _)

/-! ### MEMIT (R334) -/

theorem colOf_modCtx (s : State) (c : Nat) (f : Ctx → Ctx) (v i : Nat) : colOf (modCtx s c f) v i = colOf s v i := rfl

/-- The segment that MEMIT emitted is free. -/
theorem segOf_emitFree (s : State) (v i row : Nat) (wrote : Bool) : (segOf (emitFree s v i row wrote) v i row).state = .free := by
  unfold emitFree
  dsimp only
  rw [segOf, freeSegment, colOf_setCol_self, sget_sput_self]
  rfl

theorem emitFree_units (s : State) (v i row : Nat) (wrote : Bool) : UnitsOnly s (emitFree s v i row wrote) := by
  unfold emitFree
  dsimp only
  split <;> rfl

theorem emitBytes_looked {s u : State} (looked : Looked s u) (fmt : Nat) (x : Vec) : emitBytes u s.cur fmt x = emitBytes s s.cur fmt x := by
  have rmode : (ctxOf u s.cur).rmode = (ctxOf s s.cur).rmode := by rw [looked.ctx]
  simp only [emitBytes, rmode]

section

variable {o : OpE} {s : State} (hi : Issues (.memit o) s) (free : FreeToAct s)
include hi free

theorem memit_frees (outside : (ctxOf s s.cur).hmode = false) (nowhere : rg s s.cur o.a.toNat = 0) :
    Gives (.memit o) s (fun t => Proceeds s t [] ∧
      (segOf t (vertOf s.cur) (coreNo (coreOf s.cur)) (rg s s.cur o.c.toNat).toNat).state = .free ∧ t.flights = s.flights) := by
  have looked := beginIssue_looked s
  obtain ⟨u, hu⟩ : ∃ u, u = emitFree (beginIssue s) (vertOf s.cur) (coreNo (coreOf s.cur)) (rg s s.cur o.c.toNat).toNat false := ⟨_, rfl⟩
  have units : UnitsOnly (beginIssue s) u := hu ▸ emitFree_units _ _ _ _ _
  have flags := raiseFlags_flags u s.cur (emitBytes (beginIssue s) s.cur (o.imm.toNat % 16) (rv (beginIssue s) s.cur o.b.toNat)).2
  have here : (ctxOf (beginIssue s) s.cur).hmode = false := by rw [looked.hmode, outside]
  have flights : u.flights = s.flights := by
    rw [units]
    exact looked.flights
  refine gives_retire hi (rfl : _ = execMemit o s) (u := raiseFlags u s.cur (emitBytes (beginIssue s) s.cur (o.imm.toNat % 16) (rv (beginIssue s) s.cur o.b.toNat)).2) ?_
    ⟨proceeds_retire (flags.acts (units.acts (.of_looked hi.1 looked))) (flags.mem.trans (units.mem.trans looked.mem)), ?_, ?_⟩
  · simp only [beginIssue_cur, rg_beginIssue, nowhere, if_true, outputGate_ok looked free, sendBuffer, here, Bool.false_eq_true, if_false]
    rw [hu]
    rfl
  · rw [segOf_congr (colOf_retire _ _ _ _ _), segOf_congr (flags.col _ _), hu]
    exact segOf_emitFree _ _ _ _ _
  · rw [retire_flights, flags.flights, flights]

omit free in
/-- A handler's emission stands in its send buffer (R28, R334). -/
theorem memit_keeps {u : State} (looked : Looked s u) (e : Entry) {f : Flags} {body : State → Res State} (he : exec (.memit o) s = runSeq (.memit o) s body)
    (hb : body (beginIssue s) = .ok (raiseFlags (buffered u e) s.cur f)) :
    Gives (.memit o) s (fun t => Proceeds s t [] ∧ t.flights = s.flights ∧ Buffers s t e ∧ ∀ row,
      segOf t (vertOf s.cur) (coreNo (coreOf s.cur)) row = segOf s (vertOf s.cur) (coreNo (coreOf s.cur)) row) := by
  have flags := raiseFlags_flags (buffered u e) s.cur f
  have stood : (ctxOf (buffered u e) s.cur).sendBuf = (ctxOf s s.cur).sendBuf ++ [e] := by
    rw [buffered, looked.cur, ctxOf_modCtx_self, looked.sendBuf]
  have cur : (raiseFlags (buffered u e) s.cur f).cur = s.cur := flags.cur.trans looked.cur
  refine gives_retire hi he hb ⟨proceeds_retire (flags.acts ((Acts.of_looked hi.1 looked).buffered e)) (flags.mem.trans looked.mem), ?_, ?_, fun row => ?_⟩
  · rw [retire_flights, flags.flights]
    exact looked.flights
  · have kept := retire_sendBuf (.memit o) (raiseFlags (buffered u e) s.cur f) (nextPc (raiseFlags (buffered u e) s.cur f))
    rw [cur, flags.sendBuf, stood] at kept
    exact kept
  · refine segOf_congr ?_ row
    rw [colOf_retire, flags.col]
    change colOf u _ _ = _
    rw [colOf, looked.cluster]
    rfl

theorem memit_buffers_free (room : BufferRoom s) (nowhere : rg s s.cur o.a.toNat = 0) :
    Gives (.memit o) s (fun t => Proceeds s t [] ∧ Buffers s t (.memit (rg s s.cur o.c.toNat).toNat 0 0 []) ∧
      segOf t (vertOf s.cur) (coreNo (coreOf s.cur)) (rg s s.cur o.c.toNat).toNat =
        segOf s (vertOf s.cur) (coreNo (coreOf s.cur)) (rg s s.cur o.c.toNat).toNat) := by
  have looked := beginIssue_looked s
  obtain ⟨t, run, goes, _, stood, segs⟩ := memit_keeps hi looked (.memit (rg s s.cur o.c.toNat).toNat 0 0 []) (rfl : _ = execMemit o s)
    (f := (emitBytes (beginIssue s) s.cur (o.imm.toNat % 16) (rv (beginIssue s) s.cur o.b.toNat)).2) (by
      simp only [beginIssue_cur, rg_beginIssue, nowhere, if_true, outputGate_ok looked free, sendBuffer_inside looked.cur (looked.hmode _) (looked.sendBuf _) room]
      rfl)
  exact ⟨t, run, goes, stood, segs _⟩

section

variable {u w : State} {va pa : Nat} {leaf : Word} {m : Mode} (somewhere : rg s s.cur o.a.toNat ≠ 0)
  (aligned : (rg s s.cur o.a.toNat).toNat % (emitBytes s s.cur (o.imm.toNat % 16) (rv s s.cur o.b.toNat)).1.length = 0)
  (place : translate (beginIssue s) (rg s s.cur o.a.toNat) .wr = .ok (.phys va pa leaf, u)) (check : tokenCheck u (rg s s.cur o.a.toNat) .sliceop 3 = .ok (m, w))
include somewhere aligned place check

omit somewhere aligned hi free in
theorem memit_looked : Looked s w := ((beginIssue_looked s).trans (translate_looked place)).trans (tokenCheck_looked check)

theorem memit_sends (outside : (ctxOf s s.cur).hmode = false) : Gives (.memit o) s (fun t => Proceeds s t [] ∧
    Sends s t 3 true true (leafSlice leaf pa % 2048) (.write pa (emitBytes s s.cur (o.imm.toNat % 16) (rv s s.cur o.b.toNat)).1) ∧
    (segOf t (vertOf s.cur) (coreNo (coreOf s.cur)) (rg s s.cur o.c.toNat).toNat).state = .free) := by
  have looked := memit_looked place check
  have begun := beginIssue_looked s
  obtain ⟨data, hdata⟩ : ∃ d, d = emitBytes s s.cur (o.imm.toNat % 16) (rv s s.cur o.b.toNat) := ⟨_, rfl⟩
  obtain ⟨x, hx⟩ : ∃ x, x = raiseFlags w s.cur data.2 := ⟨_, rfl⟩
  have flags : FlagsOnly w x := hx ▸ raiseFlags_flags _ _ _
  obtain ⟨y, hy⟩ : ∃ y, y = sendFlight x s.cur 3 true true (leafHome leaf pa) (.write pa data.1) 0 := ⟨_, rfl⟩
  obtain ⟨z, hz⟩ : ∃ z, z = emitFree y (vertOf s.cur) (coreNo (coreOf s.cur)) (rg s s.cur o.c.toNat).toNat true := ⟨_, rfl⟩
  have units : UnitsOnly y z := hz ▸ emitFree_units _ _ _ _ _
  have acts : Acts s y [] := hy ▸ (flags.acts (.of_looked hi.1 looked)).sendFlight ..
  have mem : y.mem = s.mem := by
    rw [hy]
    exact flags.mem.trans looked.mem
  refine gives_retire hi (rfl : _ = execMemit o s) (u := z) ?_ ⟨proceeds_retire (units.acts acts) (units.mem.trans mem), ?_, ?_⟩
  · have there : (ctxOf w s.cur).hmode = false := by rw [looked.hmode, outside]
    have bytes := emitBytes_looked begun (o.imm.toNat % 16) (rv s s.cur o.b.toNat)
    rw [← hdata] at bytes aligned
    simp only [beginIssue_cur, rg_beginIssue, begun.rv, bytes, somewhere, aligned, if_false, place, check, ok_bind, ne_eq, not_true, outputGate_ok looked free, there, Bool.false_eq_true, ← hx, ← hy, ← hz]
  · have sent := sends_retire (s := s) (u := x) (flags.cur.trans looked.cur) (.memit o) (nextPc z) (flags.flights.trans looked.flights) (flags.nextId.trans looked.nextId)
      (op := .write pa data.1) rfl 3 true true (leafHome leaf pa) 0 0 false
    rw [flags.cur, looked.cur, ← hy, leafHome_slice] at sent
    rw [hdata] at sent
    exact sends_congr (by rw [retire_flights, retire_flights, units]) sent
  · rw [segOf_congr (colOf_retire _ _ _ _ _), hz]
    exact segOf_emitFree _ _ _ _ _

theorem memit_buffers (room : BufferRoom s) : Gives (.memit o) s (fun t => Proceeds s t [] ∧ t.flights = s.flights ∧
    Buffers s t (.memit (rg s s.cur o.c.toNat).toNat (leafHome leaf pa) pa (emitBytes s s.cur (o.imm.toNat % 16) (rv s s.cur o.b.toNat)).1) ∧
    segOf t (vertOf s.cur) (coreNo (coreOf s.cur)) (rg s s.cur o.c.toNat).toNat =
      segOf s (vertOf s.cur) (coreNo (coreOf s.cur)) (rg s s.cur o.c.toNat).toNat) := by
  have looked := memit_looked place check
  have begun := beginIssue_looked s
  obtain ⟨data, hdata⟩ : ∃ d, d = emitBytes s s.cur (o.imm.toNat % 16) (rv s s.cur o.b.toNat) := ⟨_, rfl⟩
  have bytes := emitBytes_looked begun (o.imm.toNat % 16) (rv s s.cur o.b.toNat)
  have there : (ctxOf w s.cur).hmode = true := by rw [looked.hmode, room.1]
  rw [← hdata] at bytes aligned
  obtain ⟨t, run, goes, flights, stood, segs⟩ := memit_keeps hi looked (.memit (rg s s.cur o.c.toNat).toNat (leafHome leaf pa) pa data.1) (rfl : _ = execMemit o s) (f := data.2) (by
      simp only [beginIssue_cur, rg_beginIssue, begun.rv, bytes, somewhere, aligned, if_false, place, check, ok_bind, ne_eq, not_true, outputGate_ok looked free, there, if_true,
        sendBuffer_inside looked.cur (looked.hmode _) (looked.sendBuf _) room])
  exact ⟨t, run, goes, flights, hdata ▸ stood, segs _⟩

end

end

/-- Settles O40: each instruction of a column group by its reads of the group, an induction over the segments of a span, and the width of a rounded sum. -/
theorem latticeReadsAndEmit : Obligations.LatticeReadsAndEmit := by
  unfold Obligations.LatticeReadsAndEmit
  refine ⟨fun _ _ => mwait_waits, fun _ _ => mwait_unknown, fun _ _ _ => mwait_ended, fun _ _ => mdrain_written, fun _ _ hi => mdrain_waits hi,
    fun _ _ _ _ => ald_reads, ?_, ?_, fun _ _ _ => mzero_frees, fun _ _ => mterm_reads, fun _ _ => memit_frees, ?_, fun _ _ => memit_buffers_free, fun _ _ _ => ⟨rfl, rfl⟩⟩
  · intro o s n row hi settled span plain place ready sound
    obtain ⟨t, run, goes, segs⟩ := ast_writes hi settled span place ready sound
    refine ⟨t, run, goes, fun j hj => ?_⟩
    obtain ⟨state, data⟩ := segs j hj
    exact ⟨state, by rw [data, plain]; rfl⟩
  · intro o s n row hi settled span adds place ready sound int
    obtain ⟨t, run, goes, segs⟩ := ast_writes hi settled span place ready sound
    refine ⟨t, run, goes, fun j hj => ?_⟩
    obtain ⟨state, data⟩ := segs j hj
    refine ⟨state, fun i hi => ?_⟩
    dsimp only
    rw [data, adds]
    exact lane_addLanes int _ _ hi
  · intro o s u w va pa leaf m hi free somewhere data aligned place check
    exact ⟨memit_sends hi free somewhere aligned place check, memit_buffers hi free somewhere aligned place check⟩

end Sys2Proof.Machine
end

