-- ==== Sys2Proof/Proofs/Starts.lean ====
section
/-! SUPPORT. O52: launches, the selector, the leaving of a handler's entries and the placement of work (R126, R183 to R187). -/

namespace Sys2Proof.Machine

/-! ### The first of those with the most -/

/-- The first of a list for which a measure is largest. -/
def firstMost (v : Nat → Nat) (l : List Nat) : Option Nat :=
  l.foldl (fun b j => match b with | some i => if v i < v j then some j else b | none => some j) none

theorem firstMost_concat (v : Nat → Nat) (l : List Nat) (j : Nat) :
    firstMost v (l ++ [j]) = match firstMost v l with | some i => if v i < v j then some j else some i | none => some j := by
  rw [firstMost, List.foldl_append, List.foldl_cons, List.foldl_nil, ← firstMost]
  cases firstMost v l <;> rfl

theorem firstMost_isSome {v : Nat → Nat} {l : List Nat} (h : l ≠ []) : (firstMost v l).isSome = true := by
  obtain ⟨l, j, rfl⟩ := List.eq_nil_or_concat' l |>.resolve_left h
  rw [firstMost_concat]
  cases firstMost v l with
  | none => rfl
  | some i =>
    dsimp only
    split <;> rfl

/-- It has the most, and of those with as much it stands first. -/
theorem firstMost_spec {v : Nat → Nat} {R : Nat → Nat → Prop} {l : List Nat} : l.Pairwise R → ∀ {x : Nat}, firstMost v l = some x →
    x ∈ l ∧ ∀ y ∈ l, v y < v x ∨ (v y = v x ∧ (y = x ∨ R x y)) := by
  induction l using List.reverseRecOn with
  | nil => exact fun _ _ h => by cases h
  | append_singleton l j ih =>
    intro order x found
    obtain ⟨before, _, last⟩ := List.pairwise_append.mp order
    rw [firstMost_concat] at found
    cases best : firstMost v l with
    | none =>
      have empty : l = [] := by
        by_contra some_
        have := firstMost_isSome (v := v) some_
        rw [best] at this
        cases this
      rw [best] at found
      obtain rfl := Option.some.inj found
      rw [empty]
      exact ⟨List.mem_append_right _ (List.mem_singleton_self _), fun y hy => .inr (by rw [List.mem_singleton.mp hy]; exact ⟨rfl, .inl rfl⟩)⟩
    | some i =>
      obtain ⟨here, most⟩ := ih before best
      rw [best] at found
      dsimp only at found
      split at found
      case isTrue more =>
        obtain rfl := Option.some.inj found
        refine ⟨List.mem_append_right _ (List.mem_singleton_self _), fun y hy => ?_⟩
        obtain hy | hy := List.mem_append.mp hy
        · left
          obtain less | ⟨same, _⟩ := most y hy <;> omega
        · rw [List.mem_singleton.mp hy]
          exact .inr ⟨rfl, .inl rfl⟩
      case isFalse more =>
        obtain rfl := Option.some.inj found
        refine ⟨List.mem_append_left _ here, fun y hy => ?_⟩
        obtain hy | hy := List.mem_append.mp hy
        · exact most y hy
        · obtain rfl := List.mem_singleton.mp hy
          by_cases less : v y < v i
          · exact .inl less
          · exact .inr ⟨by omega, .inr (last i here y (List.mem_singleton_self _))⟩

/-! ### The selector's choice (R126) -/

section

variable {s : State} {c : Nat}

/-- The routines of a core in the selector's order, from the one after the last on. -/
def routineOrder (s : State) (c : Nat) : List Nat := ((List.range 16).map (fun i => ((coreAt s (coreOf c)).last + 1 + i) % 16)).filter (hasWork s c)

theorem chooseRoutine_eq (s : State) (c : Nat) : chooseRoutine s c = firstMost (fun j => routinePrio (routineAt s (coreOf c) j)) (routineOrder s c) := rfl

/-- How far a routine stands behind the one after the last. -/
def turnOf (s : State) (c i : Nat) : Nat := (i + 15 - (coreAt s (coreOf c)).last % 16) % 16

theorem turnOf_order {s : State} {c i : Nat} (hi : i < 16) : turnOf s c (((coreAt s (coreOf c)).last + 1 + i) % 16) = i := by
  unfold turnOf
  omega

theorem routineOrder_pairwise (s : State) (c : Nat) : (routineOrder s c).Pairwise (fun i j => turnOf s c i < turnOf s c j) := by
  refine List.Pairwise.filter _ (List.pairwise_map.mpr ?_)
  refine List.Pairwise.imp_of_mem (fun hi hj lt => ?_) (List.pairwise_lt_range (n := 16))
  rw [turnOf_order (List.mem_range.mp hi), turnOf_order (List.mem_range.mp hj)]
  exact lt

theorem mem_routineOrder {j : Nat} : j ∈ routineOrder s c ↔ j < 16 ∧ hasWork s c j = true := by
  rw [routineOrder, List.mem_filter, List.mem_map]
  refine ⟨fun ⟨⟨i, _, here⟩, work⟩ => ⟨by omega, work⟩, fun ⟨small, work⟩ => ⟨⟨turnOf s c j, ?_, ?_⟩, work⟩⟩
  · exact List.mem_range.mpr (Nat.mod_lt _ (by decide))
  · unfold turnOf
    omega

/-- The bits of a mask to which others are added. -/
theorem nbit_foldl_or {α : Type} (p : α → Bool) (g : α → BitVec 16) {j : Nat} (l : List α) (m : BitVec 16)
    (clear : nbit (l.foldl (fun m x => if p x then m ||| g x else m) m).toNat j = false) :
    nbit m.toNat j = false ∧ ∀ x ∈ l, p x = true → nbit (g x).toNat j = false := by
  induction l generalizing m with
  | nil => exact ⟨clear, fun _ h => absurd h List.not_mem_nil⟩
  | cons y l ih =>
    rw [List.foldl_cons] at clear
    obtain ⟨head, tail⟩ := ih _ clear
    by_cases named : p y = true
    · rw [if_pos named] at head
      have both : nbit m.toNat j = false ∧ nbit (g y).toNat j = false := by
        rw [nbit, BitVec.toNat_or, Nat.testBit_or, Bool.or_eq_false_iff] at head
        exact head
      refine ⟨both.1, fun x hx hp => ?_⟩
      obtain rfl | hx := List.mem_cons.mp hx
      · exact both.2
      · exact tail x hx hp
    · rw [if_neg named] at head
      refine ⟨head, fun x hx hp => ?_⟩
      obtain rfl | hx := List.mem_cons.mp hx
      · exact absurd hp named
      · exact tail x hx hp

/-- A routine that the selector takes is not held (R126). -/
theorem not_held {k j : Nat} (hj : j < 16) (free : isHeld s k j = false) (settled : (coreAt s k).heldAt ≠ s.cycle + 1) :
    nbit (coreAt s k).hold.toNat j = false ∧ ∀ i, i < 8 → (ctxOf s (8 * k + i)).hmode = true → (ctxOf s (8 * k + i)).run ≠ .idle → (ctxOf s (8 * k + i)).run ≠ .reserved →
      nbit (routineHmask (routineAt s k (ctxOf s (8 * k + i)).routine)) j = false := by
  rw [isHeld, heldMask, if_neg settled] at free
  obtain ⟨hold, masks⟩ := nbit_foldl_or (fun i => (ctxOf s (8 * k + i)).hmode && (ctxOf s (8 * k + i)).run ≠ .idle && (ctxOf s (8 * k + i)).run ≠ .reserved)
    (fun i => BitVec.ofNat 16 (routineHmask (routineAt s k (ctxOf s (8 * k + i)).routine))) (List.range 8) (coreAt s k).hold free
  refine ⟨hold, fun i hi inside busy unreserved => ?_⟩
  have mask := masks i (List.mem_range.mpr hi) (by simp [inside, busy, unreserved])
  rw [nbit, BitVec.toNat_ofNat, Nat.testBit_mod_two_pow, decide_eq_true hj, Bool.true_and] at mask
  exact mask

theorem chooseRoutine_spec {j : Nat} (chosen : chooseRoutine s c = some j) :
    let k := coreOf c
    let w := routineAt s k
    let turn := fun i => (i + 15 - (coreAt s k).last % 16) % 16
    j < 16 ∧ routineValid (w j) = true ∧
      ((coreAt s k).heldAt ≠ s.cycle + 1 → nbit (coreAt s k).hold.toNat j = false ∧
        ∀ i, i < 8 → (ctxOf s (8 * k + i)).hmode = true → (ctxOf s (8 * k + i)).run ≠ .idle → (ctxOf s (8 * k + i)).run ≠ .reserved →
          nbit (routineHmask (w (ctxOf s (8 * k + i)).routine)) j = false) ∧
      (routineClass (w j) ≠ 30 → ∃ q ∈ (coreAt s k).inbox, q.msg.cls = routineClass (w j) ∧ q.phase = .waiting ∧ q.since < s.cycle ∧
        (q.msg.checked = true → agentLocal q.msg.dest = c)) ∧
      ∀ i, i < 16 → hasWork s c i = true → routinePrio (w i) < routinePrio (w j) ∨
        (routinePrio (w i) = routinePrio (w j) ∧ turn j ≤ turn i) := by
  intro k w turn
  rw [chooseRoutine_eq] at chosen
  obtain ⟨here, most⟩ := firstMost_spec (routineOrder_pairwise s c) chosen
  obtain ⟨small, work⟩ := mem_routineOrder.mp here
  simp only [hasWork, Bool.and_eq_true, Bool.not_eq_true'] at work
  obtain ⟨⟨valid, free⟩, waits⟩ := work
  refine ⟨small, valid, not_held small free, fun plain => ?_, fun i hi busy => ?_⟩
  · rw [if_neg plain] at waits
    obtain ⟨q, found⟩ := Option.isSome_iff_exists.mp waits
    have what := List.find?_some found
    simp only [Bool.and_eq_true, decide_eq_true_eq, Bool.or_eq_true, Bool.not_eq_true'] at what
    obtain ⟨⟨⟨⟨cls, phase⟩, since_⟩, _⟩, check⟩ := what
    exact ⟨q, List.mem_of_find?_eq_some found, cls, phase, since_, fun checked => check.resolve_left (by rw [checked]; exact Bool.noConfusion)⟩
  · obtain less | ⟨same, before⟩ := most i (mem_routineOrder.mpr ⟨hi, busy⟩)
    · exact .inl less
    · refine .inr ⟨same, ?_⟩
      obtain rfl | before := before
      · exact Nat.le_refl _
      · exact Nat.le_of_lt before

theorem chooseRoutine_isSome {i : Nat} (hi : i < 16) (work : hasWork s c i = true) : (chooseRoutine s c).isSome = true := by
  rw [chooseRoutine_eq]
  exact firstMost_isSome (List.ne_nil_of_mem (mem_routineOrder.mpr ⟨hi, work⟩))

/-- The core that takes work at its locus (R186). -/
theorem locusCore_spec {v k : Nat} (found : locusCore s v = some k) : k / 16 = v ∧ k % 16 < 8 ∧ takesWork s k = true ∧
    ∀ j, j < 8 → takesWork s (16 * v + j) = true → freeCount s (16 * v + j) < freeCount s k ∨ (freeCount s (16 * v + j) = freeCount s k ∧ k ≤ 16 * v + j) := by
  have found : firstMost (freeCount s) (((List.range 8).map (16 * v + ·)).filter (takesWork s)) = some k := found
  have order : (((List.range 8).map (16 * v + ·)).filter (takesWork s)).Pairwise (· < ·) := by
    refine List.Pairwise.filter _ (List.pairwise_map.mpr (List.Pairwise.imp ?_ (List.pairwise_lt_range (n := 8))))
    exact fun lt => Nat.add_lt_add_left lt _
  obtain ⟨here, most⟩ := firstMost_spec order found
  obtain ⟨named, takes⟩ := List.mem_filter.mp here
  obtain ⟨i, hi, rfl⟩ := List.mem_map.mp named
  have small := List.mem_range.mp hi
  refine ⟨by omega, by omega, takes, fun j hj work => ?_⟩
  obtain less | ⟨same, before⟩ := most (16 * v + j) (List.mem_filter.mpr ⟨List.mem_map.mpr ⟨j, List.mem_range.mpr hj, rfl⟩, work⟩)
  · exact .inl less
  · exact .inr ⟨same, by omega⟩

end

/-! ### A context starts (R87, R183) -/

/-- A context as it starts, before the pc and the words of its launch are set. -/
def startBase (s : State) (c : Nat) : Ctx := { Ctx.reset with
  allot := (coreAt s (coreOf c)).capacity, lease := (ctxOf s c).lease, run := .ready, groupNo := (ctxOf s c).groupNo + 1, readyAt := s.cycle + 1, heldUntil := s.cycle + 1, fresh := true }

/-- A state in which a context has started. -/
structure StartOnly (s t : State) (c : Nat) (x : Ctx) : Prop where
  only : t = { s with ctxs := t.ctxs, cores := t.cores }
  ctx : ∀ e, ctxOf t e = if e = c then x else ctxOf s e
  core : ∀ k, coreAt t k = { coreAt s k with heldAt := (coreAt t k).heldAt, heldWas := (coreAt t k).heldWas, victim := (coreAt t k).victim }

namespace StartOnly

variable {s t : State} {c : Nat} {x : Ctx} (h : StartOnly s t c x)
include h

theorem mem : t.mem = s.mem := by rw [h.only]
theorem messages : t.messages = s.messages := by rw [h.only]
theorem host : t.host = s.host := by rw [h.only]
theorem inbox (k : Nat) : (coreAt t k).inbox = (coreAt s k).inbox := by rw [h.core]
theorem self : ctxOf t c = x := by rw [h.ctx, if_pos rfl]
theorem outside : Outside s t [c] := by
  refine ⟨memByte_congr h.mem, fun e he => ?_⟩
  rw [h.ctx, if_neg (fun same => he (by rw [same]; exact List.mem_singleton_self _))]
  exact ⟨rfl, rfl⟩

end StartOnly

/-- A core that keeps all but what the selector and the stealer note of it. -/
def Core.noted (x y : Core) : Prop := y = { x with heldAt := y.heldAt, heldWas := y.heldWas, victim := y.victim }

theorem noted_modCore {s t : State} {j : Nat} {f : Core → Core} (hf : ∀ x, Core.noted x (f x)) (h : ∀ k, Core.noted (coreAt s k) (coreAt t k)) (k : Nat) :
    Core.noted (coreAt s k) (coreAt (modCore t j f) k) := by
  rw [coreAt_modCore]
  split
  case isTrue same =>
    rw [same]
    have first := h j
    have second := hf (coreAt t j)
    unfold Core.noted at first second ⊢
    rw [second, first]
  case isFalse => exact h k

theorem startCtx_starts (s : State) (c : Nat) (f : Ctx → Ctx) : StartOnly s (startCtx s c f) c (f (startBase s c)) := by
  obtain ⟨t, ht⟩ : ∃ t, t = keepHolds s (coreOf c) := ⟨_, rfl⟩
  have kept : t = { s with cores := t.cores } := by
    rw [ht, keepHolds]
    split <;> rfl
  have noted : ∀ k, Core.noted (coreAt s k) (coreAt t k) := by
    rw [ht, keepHolds]
    split
    · exact fun _ => rfl
    · exact noted_modCore (fun _ => rfl) (fun _ => rfl)
  have ctx (e : Nat) : ctxOf t e = ctxOf s e := by rw [ctxOf, kept, ctxOf]
  have capacity : (coreAt t (coreOf c)).capacity = (coreAt s (coreOf c)).capacity := by rw [noted]
  obtain ⟨u, hu⟩ : ∃ u, u = setCtx t c (f (startBase s c)) := ⟨_, rfl⟩
  have eq : startCtx s c f = stealEnds u (coreOf c) := by
    have cycle : t.cycle = s.cycle := by rw [kept]
    rw [hu, startBase, ← capacity, ← ctx, ← cycle, ht]
    rfl
  have last : stealEnds u (coreOf c) = u ∨ stealEnds u (coreOf c) = modCore u (coreOf c) (fun x => { x with victim := 0 }) := by
    unfold stealEnds
    split
    · exact .inl rfl
    · exact .inr rfl
  have only : u = { s with ctxs := u.ctxs, cores := u.cores } := by
    rw [hu, setCtx, kept]
  have here (e : Nat) : ctxOf u e = if e = c then f (startBase s c) else ctxOf s e := by rw [hu, ctxOf_setCtx, ctx]
  have cores (k : Nat) : Core.noted (coreAt s k) (coreAt u k) := by
    rw [hu]
    exact noted k
  rw [eq]
  obtain same | ends := last
  · rw [same]
    exact ⟨only, here, cores⟩
  · rw [ends]
    refine ⟨?_, here, noted_modCore (fun _ => rfl) cores⟩
    rw [modCore, setCore, only]

/-- A context that a launch has started (R183). -/
def launched (s : State) (c : Nat) (l : List Word) : Ctx := { startBase s c with
  pc := codePc s (l.getD 0 0).toNat, acct := (l.getD 3 0).setWidth 12
  regs := { Ctx.reset.regs with g := sput 0 (sput 0 [] 1 (l.getD 1 0)) 2 (l.getD 2 0) } }

theorem startLaunch_starts (s : State) (c : Nat) (l : List Word) : StartOnly s (startLaunch s c l) c (launched s c l) := startCtx_starts s c _

theorem sget_two_words (a b : Word) (r : Nat) : sget 0 (sput 0 (sput 0 [] 1 a) 2 b) r = if r = 2 then b else if r = 1 then a else 0 := by
  rw [sget_sput, sget_sput]
  rfl

section

variable {s t : State} {c : Nat} {a b : Word} (here : (ctxOf t c).regs.g = sput 0 (sput 0 [] 1 a) 2 b)
include here

theorem rg_two_words (r : Nat) : rg t c r = if r = 2 then b else if r = 1 then a else 0 := by
  rw [rg, here, sget_two_words]
  split
  case isTrue zero => rw [zero]; rfl
  case isFalse => rfl

theorem rg_first : rg t c 1 = a := rg_two_words here 1
theorem rg_second : rg t c 2 = b := rg_two_words here 2
theorem rg_later {r : Nat} (h : 2 < r) : rg t c r = 0 := by rw [rg_two_words here, if_neg (by omega), if_neg (by omega)]

end

theorem execLaunch_open {s : State} {id : Nat} {f : MsgFlight} (found : msgOf s id = some f) (flying : f.phase = .flying) (unplaced : f.msg.placed = none) (launch : f.msg.cls = 27)
    (device : agentDevice f.msg.dest = s.device) (due : f.due ≤ s.cycle) (order : inOrder s f = true) (takes : takesWork s (coreOf (agentLocal f.msg.dest)) = true)
    (ok : launchOk f.msg.payload = true) : execLaunch id s = .next (
      if f.home ≠ .host && isApex (coreOf (agentLocal f.msg.sender)) && apexReserved s (agentLocal f.msg.dest) then accepted (startLaunch s (agentLocal f.msg.dest) f.msg.payload) f
      else launchAt s f (coreOf (agentLocal f.msg.dest))) := by
  simp only [execLaunch, found, flying, unplaced, launch, device, order, takes, ok, Nat.not_lt.mpr due, Option.isSome_none, Bool.not_true, ne_eq, not_true, decide_false,
    Bool.or_self, Bool.false_eq_true, if_false]

/-- A message that has arrived is no longer under way. -/
theorem outside_dropMsg {s t : State} {cs : List Nat} (h : Outside s t cs) (id : Nat) : Outside s (dropMsg t id) cs := h

/-- What a launch gives its context. -/
structure LaunchedAt (s t : State) (c : Nat) (l : List Word) : Prop where
  run : (ctxOf t c).run = .ready
  hmode : (ctxOf t c).hmode = false
  pc : (ctxOf t c).pc = BitVec.ofNat 64 (s.device * 2 ^ 53 + (l.getD 0 0).toNat % 2 ^ 53)
  acct : (ctxOf t c).acct = (l.getD 3 0).setWidth 12
  first : rg t c 1 = l.getD 1 0
  second : rg t c 2 = l.getD 2 0
  later : ∀ r, 2 < r → rg t c r = 0
  vectors : ∀ r, rv t c r = 0
  rmode : (ctxOf t c).rmode = 1
  flags : (ctxOf t c).regs.flags = 0
  allot : (ctxOf t c).allot = (coreAt s (coreOf c)).capacity
  lease : (ctxOf t c).lease = (ctxOf s c).lease

theorem launchedAt_of {s t : State} {c : Nat} {l : List Word} (here : ctxOf t c = launched s c l) : LaunchedAt s t c l := by
  have words : (ctxOf t c).regs.g = sput 0 (sput 0 [] 1 (l.getD 1 0)) 2 (l.getD 2 0) := by rw [here, launched]
  refine ⟨by rw [here]; rfl, by rw [here]; rfl, by rw [here, launched, codePc], by rw [here, launched], rg_first words, rg_second words, fun r hr => rg_later words hr, fun r => ?_,
    by rw [here]; rfl, by rw [here]; rfl, by rw [here]; rfl, by rw [here]; rfl⟩
  rw [rv, here]
  rfl

/-- Where a launch goes that no apex core sent to a reserved context (R183). -/
theorem launchAt_idle {s : State} {f : MsgFlight} {k c : Nat} (first : waitingLaunch s k = none) (idle : idleOf s k = some c) (alone : f.msg.group = none) (bridge : s.host.waitingLaunches = []) :
    launchAt s f k = dropMsg (startLaunch s c f.msg.payload) f.id := by
  simp only [launchAt, first, idle, Option.isNone_none, if_true]
  exact accepted_alone alone (by rw [(startLaunch_starts s c f.msg.payload).host]; exact bridge)

theorem hostLaunch_only (s : State) (target : Word) (l : List Word) : hostLaunch s target l =
    { s with messages := (hostLaunch s target l).messages, nextId := (hostLaunch s target l).nextId, free := (hostLaunch s target l).free } := rfl

theorem pumpHost_only (s : State) : pumpHost s =
    { s with messages := (pumpHost s).messages, nextId := (pumpHost s).nextId, free := (pumpHost s).free, host := (pumpHost s).host } := by
  unfold pumpHost
  split
  · rfl
  · split
    · rw [hostLaunch_only]
    · rfl

/-- A message that is accepted changes neither a context nor an inbox (R139). -/
theorem accepted_only (s : State) (f : MsgFlight) : (accepted s f).mem = s.mem ∧ (accepted s f).ctxs = s.ctxs ∧ (accepted s f).cores = s.cores := by
  rw [accepted, pumpHost_only, finishMsg_only]
  exact ⟨rfl, rfl, rfl⟩

/-- A message that takes a slot stands there. -/
theorem putSlot_accepted (s : State) (k i : Nat) (m : Msg) (p : SlotPhase) (f : MsgFlight) : Outside s (accepted (putSlot s k i m p) f) [] ∧
    ∃ q ∈ (coreAt (accepted (putSlot s k i m p) f) k).inbox, q.index = i ∧ q.phase = p ∧ q.msg = m := by
  obtain ⟨mem, ctxs, cores⟩ := accepted_only (putSlot s k i m p) f
  refine ⟨outside_of mem ctxs, ?_⟩
  rw [coreAt, cores, ← coreAt, inbox_putSlot]
  exact ⟨_, List.mem_append_right _ (List.mem_singleton_self _), rfl, rfl, rfl⟩

section

variable {s : State} {id : Nat} {f : MsgFlight} (found : msgOf s id = some f) (flying : f.phase = .flying) (unplaced : f.msg.placed = none) (launch : f.msg.cls = 27)
  (device : agentDevice f.msg.dest = s.device) (due : f.due ≤ s.cycle) (order : inOrder s f = true)

include found flying unplaced launch device due order

theorem launch_reserved (alone : f.msg.group = none) (bridge : s.host.waitingLaunches = [])
    (inner : f.home ≠ .host) (apex : isApex (coreOf (agentLocal f.msg.sender)) = true) :
    let c := agentLocal f.msg.dest
    apexReserved s c = true → takesWork s (coreOf c) = true → launchOk f.msg.payload = true →
    Gives (.launch id) s (fun t => Outside s t [c] ∧ msgOf t id = none ∧ LaunchedAt s t c f.msg.payload ∧ (coreAt t (coreOf c)).inbox = (coreAt s (coreOf c)).inbox) := by
  intro c reserved takes ok
  obtain ⟨u, hu⟩ : ∃ u, u = startLaunch s c f.msg.payload := ⟨_, rfl⟩
  have start : StartOnly s u c (launched s c f.msg.payload) := hu ▸ startLaunch_starts s c f.msg.payload
  refine ⟨dropMsg u f.id, ?_, outside_dropMsg start.outside _, ?_, launchedAt_of start.self, start.inbox _⟩
  · change execLaunch id s = _
    rw [execLaunch_open found flying unplaced launch device due order takes ok]
    simp only [apex, inner, ne_eq, not_false_eq_true, decide_true, Bool.true_and]
    rw [reserved, if_pos rfl, ← hu, accepted_alone alone (by rw [start.host]; exact bridge)]
  · rw [msgOf_id found]
    exact msgOf_dropMsg _ _

theorem launch_starts {c : Nat} (alone : f.msg.group = none) (other : f.home = .host ∨ isApex (coreOf (agentLocal f.msg.sender)) = false) (bridge : s.host.waitingLaunches = []) :
    let k := coreOf (agentLocal f.msg.dest)
    launchOk f.msg.payload = true → waitingLaunch s k = none → idleOf s k = some c →
    Gives (.launch id) s (fun t => Outside s t [c] ∧ LaunchedAt s t c f.msg.payload) := by
  intro k ok first idle
  have takes : takesWork s k = true := by
    by_contra off
    rw [idleOf, Bool.eq_false_iff.mpr off] at idle
    cases idle
  obtain ⟨u, hu⟩ : ∃ u, u = startLaunch s c f.msg.payload := ⟨_, rfl⟩
  have start : StartOnly s u c (launched s c f.msg.payload) := hu ▸ startLaunch_starts s c f.msg.payload
  refine ⟨dropMsg u f.id, ?_, outside_dropMsg start.outside _, launchedAt_of start.self⟩
  change execLaunch id s = _
  rw [execLaunch_open found flying unplaced launch device due order takes ok, if_neg, launchAt_idle first idle alone bridge, hu]
  obtain host | plain := other
  · simp [host]
  · simp [plain]

/-- A launch without an idle context waits in a slot, or is refused plainly (R137, R183). -/
theorem launch_waits {i : Nat} (other : f.home = .host ∨ isApex (coreOf (agentLocal f.msg.sender)) = false) :
    let k := coreOf (agentLocal f.msg.dest)
    takesWork s k = true → launchOk f.msg.payload = true → idleOf s k = none ∨ waitingLaunch s k ≠ none →
    (freeOrdinary s k = some i → Gives (.launch id) s (fun t => Outside s t [] ∧ ∃ q ∈ (coreAt t k).inbox, q.index = i ∧ q.phase = .waiting ∧ q.msg.cls = 27)) ∧
    (freeOrdinary s k = none → Gives (.launch id) s (fun t => Outside s t [] ∧ ∃ g, msgOf t id = some g ∧ g.phase = .returning 0)) := by
  intro k takes ok full
  have open_ : exec (.launch id) s = .next (launchAt s f k) := by
    change execLaunch id s = _
    rw [execLaunch_open found flying unplaced launch device due order takes ok, if_neg]
    obtain host | plain := other
    · simp [host]
    · simp [plain]
  have none_ : (if (waitingLaunch s k).isNone then idleOf s k else none) = none := by
    split
    case isTrue first => exact full.resolve_right (fun some_ => some_ (Option.isNone_iff_eq_none.mp first))
    case isFalse => rfl
  refine ⟨fun free => ?_, fun taken => ?_⟩
  · obtain ⟨frame, q, here, index, phase, msg⟩ := putSlot_accepted s k i { f.msg with attempts := f.msg.attempts + 1 } .waiting f
    refine ⟨_, open_.trans ?_, frame, q, here, index, phase, by rw [msg]; exact launch⟩
    simp only [launchAt, none_, free]
  · have refused : ∃ g, msgOf (refuse s f k 0) id = some g ∧ g.phase = .returning 0 := by
      rw [refuse, returnMsg, msgOf_id found]
      refine ⟨_, msgOf_modMsg (f := f) ?_ ?_, ?_⟩
      · exact fun _ => rfl
      · exact found
      · rfl
    refine ⟨refuse s f k 0, open_.trans ?_, outside_of rfl rfl, refused⟩
    simp only [launchAt, none_, taken]

end

/-- A launch that waited starts when a context is idle (R183). -/
theorem waitingLaunch_starts {s : State} {k c : Nat} {q : Slot} (waits : waitingLaunch s k = some q) (idle : idleOf s k = some c) :
    Gives (.waitingLaunchStart k) s (fun t => Outside s t [c] ∧ (ctxOf t c).run = .ready ∧ rg t c 1 = q.msg.payload.getD 1 0 ∧ rg t c 2 = q.msg.payload.getD 2 0 ∧
      ∀ r ∈ (coreAt t k).inbox, r.index ≠ q.index) := by
  obtain ⟨u, hu⟩ : ∃ u, u = startLaunch (freeSlot s k q.index) c q.msg.payload := ⟨_, rfl⟩
  have start : StartOnly (freeSlot s k q.index) u c (launched (freeSlot s k q.index) c q.msg.payload) := hu ▸ startLaunch_starts _ c q.msg.payload
  have at_ := launchedAt_of start.self
  refine ⟨u, ?_, start.outside, at_.run, at_.first, at_.second, fun r hr => ?_⟩
  · change execWaitingLaunchStart k s = _
    simp only [execWaitingLaunchStart, waits, idle, hu]
  · rw [start.inbox, freeSlot, coreAt_modCore_self] at hr
    simpa using (List.mem_filter.mp hr).2

/-! ### The selector starts a handler (R86, R126) -/

section

variable {s : State} {k c j : Nat} (first : waitingLaunch s k = none) (fresh : (coreAt s k).selectedAt ≠ s.cycle + 1)
  (chosen : (idleContexts s k).findSome? (fun c => (chooseRoutine s c).map (fun j => (c, j))) = some (c, j))

include first fresh chosen in
theorem execRoutineSelect_open : exec (.routineSelect k) s = .next (startHandler (modCore s k (fun x => { x with selectedAt := s.cycle + 1 })) c j) := by
  change execRoutineSelect k s = _
  simp only [execRoutineSelect, first, fresh, chosen, Option.isSome_none, decide_false, Bool.or_self, Bool.false_eq_true, if_false]

/-- The state in which the selector has noted its choice. -/
def selected (s : State) (k c j : Nat) : State := modCore (modCore s k (fun x => { x with selectedAt := s.cycle + 1 })) (coreOf c) (fun x => { x with last := j })

theorem selected_cores (s : State) (k c j : Nat) : AtCores s (selected s k c j) := by
  have start : AtCores s s := rfl
  exact (start.modCore _ _).modCore _ _

theorem selected_core (s : State) (k c j e : Nat) : coreAt (selected s k c j) e = { coreAt s e with selectedAt := (coreAt (selected s k c j) e).selectedAt, last := (coreAt (selected s k c j) e).last } := by
  rw [selected, coreAt_modCore, coreAt_modCore, coreAt_modCore]
  split
  case isTrue same =>
    rw [same]
    split
    case isTrue own => rw [own]
    case isFalse => rfl
  case isFalse =>
    split
    case isTrue own => rw [own]
    case isFalse => rfl

/-- A context that a message has started as a handler. -/
def handling (s : State) (c j : Nat) (q : Slot) (w : Word × Word) : Ctx := { startBase s c with
  pc := codePc s (routineEntry w), hmode := true, routine := j, acct := BitVec.ofNat 12 (routineAcct w), budgetKept := some (2 ^ routineBudget w), slot := some q.index
  mapped := true, pair := none, regs := { Ctx.reset.regs with g := [] } }

include first fresh chosen

theorem routineSelect_message {q : Slot} (plain : routineClass (routineAt s (coreOf c) j) ≠ 30) (message : messageFor s c (routineClass (routineAt s (coreOf c) j)) = some q)
    (nopair : q.msg.pair = none) :
    let w := routineAt s (coreOf c) j
    Gives (.routineSelect k) s (fun t => Outside s t [c] ∧ (ctxOf t c).run = .ready ∧ (ctxOf t c).hmode = true ∧ (ctxOf t c).slot = some q.index ∧
      (ctxOf t c).mapped = true ∧ (ctxOf t c).cip = false ∧ (ctxOf t c).pc = BitVec.ofNat 64 (s.device * 2 ^ 53 + routineEntry w % 2 ^ 53) ∧
      (∀ r, rg t c r = 0) ∧ (ctxOf t c).routine = j ∧ (coreAt t (coreOf c)).last = j ∧ (ctxOf t c).acct = BitVec.ofNat 12 (routineAcct w) ∧
      (ctxOf t c).budgetEnd = none ∧ (ctxOf t c).budgetKept = some (2 ^ routineBudget w) ∧ (ctxOf t c).readyAt = s.cycle + 1) := by
  intro w
  obtain ⟨u, hu⟩ : ∃ u, u = modSlot (selected s k c j) (coreOf c) q.index (fun r => { r with phase := .running c, routine := j }) := ⟨_, rfl⟩
  obtain ⟨t, ht⟩ : ∃ t, t = startCtx u c (fun x => { x with
    pc := codePc u (routineEntry w), hmode := true, routine := j, acct := BitVec.ofNat 12 (routineAcct w), budgetKept := some (2 ^ routineBudget w), slot := some q.index
    mapped := true, pair := none, regs := { x.regs with g := [] } }) := ⟨_, rfl⟩
  have start : StartOnly u t c (handling u c j q w) := ht ▸ startCtx_starts u c _
  have cores : AtCores s u := hu ▸ (selected_cores s k c j).modCore _ _
  unfold AtCores at cores
  have cycle : u.cycle = s.cycle := by rw [cores]
  have device : u.device = s.device := by rw [cores]
  have routine (e : Nat) : routineAt (modCore s k (fun x => { x with selectedAt := s.cycle + 1 })) (coreOf c) e = routineAt s (coreOf c) e := by
    rw [routineAt, coreAt_modCore]
    split
    case isTrue own => rw [← own, routineAt]
    case isFalse => rfl
  have message : messageFor (selected s k c j) c (routineClass w) = some q := by
    rw [← message, messageFor, selected_core]
    rfl
  have eq : startHandler (modCore s k (fun x => { x with selectedAt := s.cycle + 1 })) c j = t := by
    unfold selected at message
    simp only [startHandler, routine, w, plain, message, nopair, if_false]
    rw [ht, hu]
    rfl
  have frame : Outside s u [] := outside_of (by rw [cores]) (by rw [cores])
  refine ⟨t, by rw [execRoutineSelect_open first fresh chosen, eq], ?_, ?_⟩
  · exact ⟨fun a => (start.outside.1 a).trans (frame.1 a), fun e he => ⟨((start.outside.2 e he).1).trans (frame.2 e (by simp)).1, ((start.outside.2 e he).2).trans (frame.2 e (by simp)).2⟩⟩
  · have zero (r : Nat) : rg t c r = 0 := by
      rw [rg, start.self]
      split <;> rfl
    have last : (coreAt t (coreOf c)).last = j := by
      rw [start.core, hu, modSlot, coreAt_modCore_self, selected, coreAt_modCore_self]
    rw [start.self, handling, codePc, startBase, cycle, device]
    exact ⟨rfl, rfl, rfl, rfl, rfl, rfl, zero, rfl, last, rfl, rfl, rfl, rfl⟩

theorem routineSelect_drain {row : Nat} {g : Seg} (drains : routineClass (routineAt s (coreOf c) j) = 30) (next : nextDrain s (coreOf c) = some (row, g)) :
    Gives (.routineSelect k) s (fun t => Outside s t [c] ∧ (ctxOf t c).run = .ready ∧ (ctxOf t c).hmode = true ∧ (ctxOf t c).drain = some (row, g.jid) ∧
      rg t c 1 = BitVec.ofNat 64 row ∧ rg t c 2 = BitVec.ofNat 64 g.batch ∧ rv t c 0 = g.data ∧ (∀ r, 2 < r → rg t c r = 0)) := by
  obtain ⟨x, hx⟩ : ∃ x, x = selected s k c j := ⟨_, rfl⟩
  obtain ⟨u, hu⟩ : ∃ u, u = setSeg x (vertexOf (coreOf c)) (coreNo (coreOf c)) row { g with started := true } := ⟨_, rfl⟩
  obtain ⟨f, hf⟩ : ∃ f : Ctx → Ctx, f = fun y => { y with
    pc := codePc u ((((clusterAt x (vertexOf (coreOf c))).ended.find? (fun e => e.jid = g.jid)).map (·.entry)).getD 0), hmode := true, routine := j
    acct := (((clusterAt x (vertexOf (coreOf c))).ended.find? (fun e => e.jid = g.jid)).bind (fun e => e.accts[coreNo (coreOf c)]?)).getD 0
    budgetKept := some (2 ^ routineBudget (routineAt s (coreOf c) j)), drain := some (row, g.jid)
    regs := { y.regs with g := sput 0 (sput 0 [] 1 (BitVec.ofNat 64 row)) 2 (BitVec.ofNat 64 g.batch), v := sput 0 [] 0 g.data } } := ⟨_, rfl⟩
  obtain ⟨t, ht⟩ : ∃ t, t = startCtx u c f := ⟨_, rfl⟩
  have start : StartOnly u t c (f (startBase u c)) := ht ▸ startCtx_starts u c f
  have self := start.self
  have cores : AtCores s x := hx ▸ selected_cores s k c j
  have units : UnitsOnly x u := hu ▸ setSeg_units _ _ _ _ _
  have routine (e : Nat) : routineAt (modCore s k (fun x => { x with selectedAt := s.cycle + 1 })) (coreOf c) e = routineAt s (coreOf c) e := by
    rw [routineAt, coreAt_modCore]
    split
    case isTrue own => rw [← own, routineAt]
    case isFalse => rfl
  have next : nextDrain x (coreOf c) = some (row, g) := by
    unfold AtCores at cores
    rw [← next, nextDrain, cores]
    rfl
  have eq : startHandler (modCore s k (fun x => { x with selectedAt := s.cycle + 1 })) c j = t := by
    rw [hx] at next
    unfold selected at next
    simp only [startHandler, routine, drains, next, if_true]
    rw [ht, hf, hu, hx]
    rfl
  have frame : Outside s u [] := by
    unfold AtCores at cores
    unfold UnitsOnly at units
    exact outside_of (by rw [units, cores]) (by rw [units, cores])
  have words : (ctxOf t c).regs.g = sput 0 (sput 0 [] 1 (BitVec.ofNat 64 row)) 2 (BitVec.ofNat 64 g.batch) := by rw [self, hf]
  refine ⟨t, by rw [execRoutineSelect_open first fresh chosen, eq], ?_, ?_, ?_, ?_, rg_first words, rg_second words, ?_, fun r hr => rg_later words hr⟩
  · exact ⟨fun a => (start.outside.1 a).trans (frame.1 a), fun e he => ⟨((start.outside.2 e he).1).trans (frame.2 e (by simp)).1, ((start.outside.2 e he).2).trans (frame.2 e (by simp)).2⟩⟩
  · rw [self, hf]
    rfl
  · rw [self, hf]
  · rw [self, hf]
  · rw [rv, self, hf]
    exact sget_sput_self _ _ _ _

end

/-! ### Entries leave, and a handler ends (R28, R185) -/

theorem releaseBlocks_only (s : State) (p : PairRef) : releaseBlocks s p = { s with cells := (releaseBlocks s p).cells } := by
  refine foldl_keeps (P := fun t : State => t = { s with cells := t.cells }) (fun t r h => ?_) _ rfl
  split
  · rw [h]
  · exact h

/-- A handler that ends sends nothing. -/
theorem releaseHandler_messages (s : State) (c : Nat) : (releaseHandler s c).messages = s.messages := by
  have freed (t : State) : (match slotOf t c with | some q => freeSlot t (coreOf c) q.index | none => t).messages = t.messages := by
    split <;> rfl
  cases pair : (ctxOf s c).pair with
  | none =>
    simp only [releaseHandler, pair]
    exact freed s
  | some p =>
    by_cases committed : (ctxOf s c).committed = true
    · simp only [releaseHandler, pair, committed, if_true]
      exact freed s
    · simp only [releaseHandler, pair, committed]
      refine (freed (releaseBlocks s p)).trans ?_
      rw [releaseBlocks_only]

/-- A context ends: it is idle, and so is its copy (R185). -/
theorem endContext_idles {s : State} {c : Nat} (wait : Nat) (wanted : (ctxOf s c).preemptAsked = false) :
    Outside s (endContext s c wait) [] ∧ (ctxOf (endContext s c wait) c).run = .idle ∧ (endContext s c wait).messages = s.messages := by
  obtain ⟨u, hu⟩ : ∃ u, u = (match (ctxOf s c).gang with
    | some g => match sget none s.gangs g with
      | some y => { s with gangs := sput none s.gangs g (some { y with ended := y.ended ++ [(ctxOf s c).member] }) }
      | none => s
    | none => s) := ⟨_, rfl⟩
  have gangs : u = { s with gangs := u.gangs } := by
    rw [hu]
    split
    · split <;> rfl
    · rfl
  obtain ⟨v, hv⟩ : ∃ v, v = if (ctxOf s c).lockstep then idleCtx u (partnerOf c) else u := ⟨_, rfl⟩
  have eq : endContext s c wait = modCtx (idleCtx v c) c (fun y => { y with readyAt := v.cycle + wait }) := by
    rw [hv, hu]
    rfl
  have ctx : ctxOf u c = ctxOf s c := by rw [ctxOf, gangs, ctxOf]
  have start : Outside s u [] := outside_of (by rw [gangs]) (by rw [gangs])
  have still : Outside u v [] ∧ ctxOf v c = ctxOf s c ∧ v.messages = s.messages := by
    have messages : u.messages = s.messages := by rw [gangs]
    rw [hv]
    split
    · exact ⟨outside_idleCtx u _, by rw [ctxOf_idleCtx, if_neg (partnerOf_ne c).symm, ctx], by rw [messages_idleCtx, messages]⟩
    · exact ⟨⟨fun _ => rfl, fun _ _ => ⟨rfl, rfl⟩⟩, ctx, messages⟩
  obtain ⟨frame, same, messages⟩ := still
  rw [eq]
  refine ⟨outside_trans (outside_trans start frame) (outside_trans (outside_idleCtx v c) (outside_modCtx _ c (fun _ => ⟨rfl, rfl⟩))), ?_, ?_⟩
  · rw [ctxOf_modCtx_self, ctxOf_idleCtx, if_pos rfl, same, idledCtx, wanted]
    rfl
  · rw [modCtx_messages, messages_idleCtx, messages]

section

variable {s : State} {c : Nat} {m : Msg} {l : List Entry} (leaving : (ctxOf s c).run = .leaving) (committed : (ctxOf s c).committed = true)
  (buffer : (ctxOf s c).sendBuf = .message m :: l)
include leaving committed buffer

theorem sendBufferEntryLeave_full (full : retryFull s (coreOf c) = true) : exec (.sendBufferEntryLeave c) s = .next s := by
  change execSendBufferEntryLeave c s = _
  by_cases early : s.cycle < (ctxOf s c).readyAt
  · simp only [execSendBufferEntryLeave, leaving, early, ne_eq, not_true, decide_false, decide_true, Bool.or_true, if_true]
  · simp only [execSendBufferEntryLeave, leaving, early, committed, buffer, flushFirst, leaveEntry, full, ne_eq, not_true, decide_false, Bool.or_self, Bool.or_true, Bool.not_true,
      Bool.false_eq_true, if_false, if_true]

/-- The state in which the oldest message has left (R28). -/
def messageLeft (s : State) (c : Nat) (m : Msg) (l : List Entry) : State :=
  modCtx (leaveMsg s (coreOf c) m) c (fun y => { y with sendBuf := l, readyAt := max y.readyAt (s.cycle + 1) })

omit leaving committed buffer in
theorem leaveMsg_sends (s : State) (k : Nat) (m : Msg) : leaveMsg s k m = { s with messages := (leaveMsg s k m).messages, nextId := (leaveMsg s k m).nextId, groups := (leaveMsg s k m).groups } ∧
    ∃ g, (leaveMsg s k m).messages = s.messages ++ [g] ∧ g.msg = m ∧ g.home = .core k := by
  unfold leaveMsg
  dsimp only
  split
  · rw [finishMsg_only]
    exact ⟨rfl, _, rfl, rfl, rfl⟩
  · exact ⟨rfl, _, rfl, rfl, rfl⟩

theorem sendBufferEntryLeave_left (due : (ctxOf s c).readyAt ≤ s.cycle) (alone : tokenOut s c = false) (room : retryFull s (coreOf c) = false) :
    exec (.sendBufferEntryLeave c) s = .next (if l.isEmpty then finishHandler (messageLeft s c m l) c else messageLeft s c m l) := by
  change execSendBufferEntryLeave c s = _
  simp only [execSendBufferEntryLeave, leaving, Nat.not_lt.mpr due, committed, buffer, flushFirst, leaveEntry, alone, room, moreCopies, ne_eq, not_true, decide_false, Bool.or_self,
    Bool.not_true, Bool.false_eq_true, if_false]
  rfl

theorem sendBufferEntryLeave_more (due : (ctxOf s c).readyAt ≤ s.cycle) (more : l ≠ []) (alone : tokenOut s c = false) (room : retryFull s (coreOf c) = false) :
    Gives (.sendBufferEntryLeave c) s (fun t => Outside s t [] ∧ (ctxOf t c).sendBuf = l ∧ (ctxOf t c).run = .leaving ∧ s.cycle + 1 ≤ (ctxOf t c).readyAt ∧
      ∃ g, t.messages = s.messages ++ [g] ∧ g.msg = m ∧ g.home = .core (coreOf c)) := by
  obtain ⟨u, hu⟩ : ∃ u, u = leaveMsg s (coreOf c) m := ⟨_, rfl⟩
  obtain ⟨only, g, sent, msg, home⟩ := leaveMsg_sends s (coreOf c) m
  rw [← hu] at only sent
  have ctxs : u.ctxs = s.ctxs := by rw [only]
  have ctx : ctxOf u c = ctxOf s c := by rw [ctxOf, ctxs, ctxOf]
  have nonempty : l.isEmpty = false := by cases l with | nil => exact absurd rfl more | cons => rfl
  refine ⟨messageLeft s c m l, ?_, ?_, ?_, ?_, ?_, g, ?_, msg, home⟩
  · rw [sendBufferEntryLeave_left leaving committed buffer due alone room, nonempty]
    rfl
  · rw [messageLeft, ← hu]
    exact outside_trans (outside_of (by rw [only]) ctxs) (outside_modCtx _ c (fun _ => ⟨rfl, rfl⟩))
  · rw [messageLeft, ctxOf_modCtx_self]
  · rw [messageLeft, ctxOf_modCtx_self, ← hu, ctx]
    exact leaving
  · rw [messageLeft, ctxOf_modCtx_self]
    exact Nat.le_max_right _ _
  · rw [messageLeft, ← hu]
    exact sent

omit buffer in
theorem sendBufferEntryLeave_last (buffer : (ctxOf s c).sendBuf = [.message m]) (due : (ctxOf s c).readyAt ≤ s.cycle) (alone : tokenOut s c = false)
    (room : retryFull s (coreOf c) = false) (wanted : (ctxOf s c).preemptAsked = false) :
    Gives (.sendBufferEntryLeave c) s (fun t => Outside s t [] ∧ (ctxOf t c).run = .idle ∧ ∃ g, t.messages = s.messages ++ [g] ∧ g.msg = m) := by
  obtain ⟨u, hu⟩ : ∃ u, u = leaveMsg s (coreOf c) m := ⟨_, rfl⟩
  obtain ⟨only, g, sent, msg, _⟩ := leaveMsg_sends s (coreOf c) m
  rw [← hu] at only sent
  have ctxs : u.ctxs = s.ctxs := by rw [only]
  have ctx : ctxOf u c = ctxOf s c := by rw [ctxOf, ctxs, ctxOf]
  obtain ⟨v, hv⟩ : ∃ v, v = messageLeft s c m [] := ⟨_, rfl⟩
  have left : v = modCtx u c (fun y => { y with sendBuf := [], readyAt := max y.readyAt (s.cycle + 1) }) := by rw [hv, messageLeft, hu]
  have mail := releaseHandler_mail v c
  have unwanted : (ctxOf (releaseHandler v c) c).preemptAsked = false := by
    rw [mail.ctx, left, ctxOf_modCtx_self, ctx]
    exact wanted
  obtain ⟨frame, idle, messages⟩ := endContext_idles 1 unwanted
  have first : Outside s v [] := by
    rw [left]
    exact outside_trans (outside_of (by rw [only]) ctxs) (outside_modCtx _ c (fun _ => ⟨rfl, rfl⟩))
  refine ⟨finishHandler v c, ?_, outside_trans first (outside_trans (outside_of mail.mem mail.ctxs) frame), idle, g, ?_, msg⟩
  · rw [sendBufferEntryLeave_left leaving committed buffer due alone room, hv]
    rfl
  · rw [finishHandler, messages, releaseHandler_messages, left, modCtx_messages, sent]

end

/-! ### Placement (R186) -/

/-- Where a placed item goes that has reached vertex v of its route. -/
def placedTo (s : State) (id locus radius : Nat) (f : MsgFlight) : State :=
  match takerOf s ((routeOf f.from_ locus).getD f.hops locus) locus radius f.msg.pair.isSome with
  | some k => joinLocus s f k
  | none =>
    if f.hops + 1 < (routeOf f.from_ locus).length then modMsg s id (fun g => { g with hops := g.hops + 1 })
    else match locusCore s locus with
    | some k => joinLocus s f k
    | none => returnMsg s id (if f.msg.pair.isSome then 0 else cDeadPeer) (latency f.from_ locus)

theorem accepted_gone {s : State} {f : MsgFlight} (alone : f.msg.group = none) (bridge : s.host.waitingLaunches = []) : msgOf (accepted s f) f.id = none := by
  rw [accepted_alone alone bridge]
  exact msgOf_dropMsg _ _

section

variable {s : State} {id locus radius : Nat} {f : MsgFlight} (found : msgOf s id = some f) (flying : f.phase = .flying) (placed : f.msg.placed = some (locus, radius, s.device))
  (due : f.due + latency f.from_ ((routeOf f.from_ locus).getD f.hops locus) ≤ s.cycle)
include found flying placed due

theorem execPairPlacement_open (ok : f.msg.pair.isNone = true → launchOk f.msg.payload = true) : exec (.pairPlacement id) s = .next (placedTo s id locus radius f) := by
  have arrived : ¬ s.cycle < f.due := by omega
  have fits : (f.msg.pair.isNone && !(launchOk f.msg.payload)) = false := by
    cases plain : f.msg.pair.isNone with
    | false => rfl
    | true => rw [ok plain]; rfl
  change execPairPlacement id s = _
  simp only [execPairPlacement, found, flying, placed, arrived, fits, Nat.not_lt.mpr due, ne_eq, not_true, if_false, Bool.false_eq_true]
  rfl

theorem pairPlacement_starts {k c : Nat} (plain : f.msg.pair = none) (ok : launchOk f.msg.payload = true)
    (taker : takerOf s ((routeOf f.from_ locus).getD f.hops locus) locus radius false = some k) (first : waitingLaunch s k = none) (idle : idleOf s k = some c)
    (alone : f.msg.group = none) (bridge : s.host.waitingLaunches = []) :
    Gives (.pairPlacement id) s (fun t => Outside s t [c] ∧ (ctxOf t c).run = .ready ∧ rg t c 1 = f.msg.payload.getD 1 0 ∧ msgOf t id = none) := by
  obtain ⟨u, hu⟩ : ∃ u, u = startLaunch s c f.msg.payload := ⟨_, rfl⟩
  have start : StartOnly s u c (launched s c f.msg.payload) := hu ▸ startLaunch_starts s c f.msg.payload
  have at_ : LaunchedAt s (dropMsg u f.id) c f.msg.payload := launchedAt_of start.self
  refine ⟨dropMsg u f.id, ?_, outside_dropMsg start.outside _, at_.run, at_.first, ?_⟩
  · rw [execPairPlacement_open found flying placed due (fun _ => ok)]
    simp only [placedTo, plain, Option.isSome_none, taker, joinLocus, launchAt_idle first idle alone bridge, hu]
  · rw [msgOf_id found]
    exact msgOf_dropMsg _ _

omit flying placed due in
/-- A placed pair that a core takes stands in its inbox (R186). -/
theorem joinLocus_pair {k i : Nat} {p : PairRef} (pair : f.msg.pair = some p) (serves : serving s k 31 ≠ none) (free : freeOrdinary s k = some i) (alone : f.msg.group = none)
    (bridge : s.host.waitingLaunches = []) : Outside s (joinLocus s f k) [] ∧ msgOf (joinLocus s f k) id = none ∧
      ∃ q ∈ (coreAt (joinLocus s f k) k).inbox, q.index = i ∧ q.phase = .pairWaiting ∧ q.msg.pair = some p := by
  have served : (serving s k 31).isNone = false := by
    obtain ⟨j, h⟩ := Option.ne_none_iff_exists'.mp serves
    rw [h]
    rfl
  have eq : joinLocus s f k = accepted (putSlot s k i { f.msg with attempts := f.msg.attempts + 1 } .pairWaiting) f := by
    simp only [joinLocus, pair, served, free, Bool.false_eq_true, if_false]
  obtain ⟨frame, q, here, index, phase, msg⟩ := putSlot_accepted s k i { f.msg with attempts := f.msg.attempts + 1 } .pairWaiting f
  rw [eq]
  refine ⟨frame, ?_, q, here, index, phase, by rw [msg]; exact pair⟩
  rw [← msgOf_id found]
  exact accepted_gone (s := putSlot s k i _ _) alone bridge

theorem pairPlacement_pair {k i : Nat} {p : PairRef} (pair : f.msg.pair = some p) :
    let v := (routeOf f.from_ locus).getD f.hops locus
    (takerOf s v locus radius true = some k → serving s k 31 ≠ none → freeOrdinary s k = some i → f.msg.group = none → s.host.waitingLaunches = [] →
      Gives (.pairPlacement id) s (fun t => Outside s t [] ∧ msgOf t id = none ∧ ∃ q ∈ (coreAt t k).inbox, q.index = i ∧ q.phase = .pairWaiting ∧ q.msg.pair = some p)) ∧
    (∀ m, takerOf s v locus radius true = none → (routeOf f.from_ locus).length ≤ f.hops + 1 → locusCore s locus = some m → serving s m 31 ≠ none →
      freeOrdinary s m = some i → f.msg.group = none → s.host.waitingLaunches = [] →
      Gives (.pairPlacement id) s (fun t => Outside s t [] ∧ msgOf t id = none ∧ ∃ q ∈ (coreAt t m).inbox, q.index = i ∧ q.phase = .pairWaiting ∧ q.msg.pair = some p)) ∧
    (takerOf s v locus radius true = none → f.hops + 1 < (routeOf f.from_ locus).length →
      Gives (.pairPlacement id) s (fun t => Outside s t [] ∧ msgOf t id = some { f with hops := f.hops + 1 } ∧ ∀ m, coreAt t m = coreAt s m)) := by
  intro v
  have open_ := execPairPlacement_open found flying placed due (fun none_ => by rw [pair] at none_; cases none_)
  rw [placedTo, pair, Option.isSome_some] at open_
  refine ⟨fun taker serves free alone bridge => ?_, fun m nobody atEnd core serves free alone bridge => ?_, fun nobody more => ?_⟩
  · refine ⟨joinLocus s f k, ?_, joinLocus_pair found pair serves free alone bridge⟩
    rw [open_, taker]
  · refine ⟨joinLocus s f m, ?_, joinLocus_pair found pair serves free alone bridge⟩
    rw [open_, nobody]
    simp only [Nat.not_lt.mpr atEnd, if_false, core]
  · refine ⟨modMsg s id (fun g => { g with hops := g.hops + 1 }), ?_, outside_of rfl rfl, ?_, fun _ => rfl⟩
    · rw [open_, nobody]
      simp only [more, if_true]
    · refine msgOf_modMsg (f := f) ?_ ?_
      · exact fun _ => rfl
      · exact found

end

/-- Settles O52: the choices as the first of those with the most, and what starting a context, leaving and placing change. -/
theorem starts : Obligations.Starts := by
  unfold Obligations.Starts
  refine ⟨fun _ _ _ => chooseRoutine_spec, fun _ _ _ => chooseRoutine_isSome, fun _ _ _ => locusCore_spec, ?_, ?_, ?_, fun _ _ _ _ => waitingLaunch_starts, ?_, ?_, ?_, ?_, ?_, ?_, ?_⟩
  · intro s id f found flying unplaced launch device alone bridge due order inner apex c reserved takes ok
    obtain ⟨t, run, frame, gone, at_, inbox⟩ := launch_reserved found flying unplaced launch device due order alone bridge inner apex reserved takes ok
    exact ⟨t, run, frame, gone, at_.run, at_.hmode, at_.pc, at_.first, at_.second, inbox⟩
  · intro s id c f found flying unplaced launch device alone other bridge due order k ok first idle
    obtain ⟨t, run, frame, at_⟩ := launch_starts found flying unplaced launch device due order alone other bridge ok first idle
    refine ⟨t, run, frame, at_.run, at_.hmode, at_.pc, at_.acct, at_.first, at_.second, at_.later, at_.vectors, at_.rmode, at_.flags, at_.allot, at_.lease⟩
  · intro s id i f found flying unplaced launch device other due order
    exact launch_waits found flying unplaced launch device due order other
  · intro s k c j q first fresh chosen w plain message nopair
    exact routineSelect_message first fresh chosen plain message nopair
  · intro s k c j row g first fresh chosen drains next
    exact routineSelect_drain first fresh chosen drains next
  · intro s c m l leaving due committed buffer more alone room
    exact sendBufferEntryLeave_more leaving committed buffer due more alone room
  · intro s c m leaving due committed buffer alone room wanted
    exact sendBufferEntryLeave_last leaving committed buffer due alone room wanted
  · intro s c m l leaving committed buffer full
    exact sendBufferEntryLeave_full leaving committed buffer full
  · intro s id k c locus radius f found flying plain placed ok v due taker first idle alone bridge
    exact pairPlacement_starts found flying placed due plain ok taker first idle alone bridge
  · intro s id k i locus radius p f found flying pair placed v due
    exact pairPlacement_pair found flying placed due pair

end Sys2Proof.Machine
end

