-- ==== Sys2Proof/Proofs/PairDispatch.lean ====
section
/-! SUPPORT. O53: the lookup of a rule, and a pair's way from a deque to a ready routine (R22, R27, R29, R122, R138). -/

namespace Sys2Proof.Machine

/-! ### The lookup of a rule (R122) -/

section

variable {s : State} {x y : Nat}

/-- The table wraps at its length. -/
theorem probeRules_congr (s : State) (x y : Nat) : ∀ (n : Nat) {h h' : Nat}, h % 2 ^ s.ruleLog = h' % 2 ^ s.ruleLog → probeRules s x y n h = probeRules s x y n h'
  | 0, _, _, _ => rfl
  | n + 1, h, h', same => by
    have next : (h + 1) % 2 ^ s.ruleLog = (h' + 1) % 2 ^ s.ruleLog := by rw [Nat.add_mod, same, ← Nat.add_mod]
    rw [probeRules, probeRules, same, probeRules_congr s x y n next]

/-- One probe of the table. -/
theorem probeRules_at {h w0 w1 : Nat} (here : RuleAt s h w0 w1) (n : Nat) : probeRules s x y (n + 1) h =
    if nbit w0 0 = false then none else if bits w0 63 48 = x ∧ bits w0 47 32 = y then some (BitVec.ofNat 64 w0, BitVec.ofNat 64 w1) else probeRules s x y n (h + 1) := by
  obtain ⟨pa, home, leaf, place, clean, first, second⟩ := here
  simp only [probeRules, place, clean, first, second, Bool.false_or, Bool.not_eq_true', Bool.and_eq_true, decide_eq_true_eq]

/-- An entry of the table that is valid and for other symbols. -/
def OtherRule (s : State) (x y h : Nat) : Prop := ∃ v0 v1, RuleAt s h v0 v1 ∧ nbit v0 0 = true ∧ ¬ RuleFor v0 x y

theorem probeRules_other {h : Nat} (other : OtherRule s x y h) (n : Nat) : probeRules s x y (n + 1) h = probeRules s x y n (h + 1) := by
  obtain ⟨v0, v1, here, valid, differs⟩ := other
  rw [probeRules_at here, if_neg (by rw [valid]; exact Bool.noConfusion), if_neg (fun same => differs ⟨valid, same⟩)]

theorem probeRules_skip {h : Nat} : ∀ (j : Nat) (n : Nat), (∀ i, i < j → OtherRule s x y (h + i)) → probeRules s x y (n + j) h = probeRules s x y n (h + j)
  | 0, _, _ => rfl
  | j + 1, n, others => by
    have skipped := probeRules_skip j (n + 1) (fun i hi => others i (Nat.lt_succ_of_lt hi))
    rw [show n + (j + 1) = n + 1 + j by omega, skipped, probeRules_other (others j (Nat.lt_succ_self j))]
    rfl

theorem ruleOf_eq (s : State) (x y : Nat) : ruleOf s x y = probeRules s x y 16 (x + 3 * y) := probeRules_congr s x y 16 (Nat.mod_mod _ _)

/-- The first matching entry is taken, and an invalid one ends the search. -/
theorem ruleOf_first {j w0 w1 : Nat} (hj : j < 16) (here : RuleAt s (x + 3 * y + j) w0 w1) (others : ∀ i, i < j → OtherRule s x y (x + 3 * y + i)) :
    (RuleFor w0 x y → ruleOf s x y = some (BitVec.ofNat 64 w0, BitVec.ofNat 64 w1)) ∧ (nbit w0 0 = false → ruleOf s x y = none) := by
  have probe : ruleOf s x y = probeRules s x y (15 - j + 1) (x + 3 * y + j) := by
    rw [ruleOf_eq, ← probeRules_skip j _ others]
    congr 1
    omega
  rw [probe, probeRules_at here]
  refine ⟨fun ⟨valid, first, second⟩ => ?_, fun invalid => if_pos invalid⟩
  rw [if_neg (by rw [valid]; exact Bool.noConfusion), if_pos ⟨first, second⟩]

theorem ruleOf_none (others : ∀ i, i < 16 → OtherRule s x y (x + 3 * y + i)) : ruleOf s x y = none := by
  rw [ruleOf_eq, ← Nat.zero_add 16, probeRules_skip 16 0 others]
  rfl

theorem ruleTime_cached {k : Nat} {r : Word × Word} (cached : (x, y, r) ∈ (coreAt s k).ruleCache) : ruleTime s k x y = 0 := by
  have any : (coreAt s k).ruleCache.any (fun e => e.1 = x && e.2.1 = y) = true := List.any_eq_true.mpr ⟨_, cached, by simp⟩
  rw [ruleTime, if_pos any]

theorem probeRules_coresOnly {u : State} (h : CoresOnly s u) (x y : Nat) : ∀ n a, probeRules u x y n a = probeRules s x y n a
  | 0, _ => rfl
  | n + 1, a => by
    have base : u.ruleBase = s.ruleBase := by rw [h]
    have log : u.ruleLog = s.ruleLog := by rw [h]
    have poison (pa : Nat) : anyPoison u pa 16 = anyPoison s pa 16 := by rw [h]; rfl
    simp only [probeRules, base, log, translateNow_coresOnly h, readMem_coresOnly h, poison, probeRules_coresOnly h x y n]

theorem ruleOf_coresOnly {u : State} (h : CoresOnly s u) (x y : Nat) : ruleOf u x y = ruleOf s x y := by
  have log : u.ruleLog = s.ruleLog := by rw [h]
  rw [ruleOf, log, probeRules_coresOnly h, ruleOf]

/-- A rule that is not cached is looked up in the table. -/
theorem ruleLookup_missed {k : Nat} (missed : ∀ e ∈ (coreAt s k).ruleCache, ¬ (e.1 = x ∧ e.2.1 = y)) : (ruleLookup s k x y).1 = ruleOf s x y := by
  have none_ : (coreAt s k).ruleCache.find? (fun e => e.1 = x && e.2.1 = y) = none := by
    rw [List.find?_eq_none]
    intro e he
    simpa using missed e he
  obtain ⟨u, hu⟩ : ∃ u, u = modCore s k (fun c => { c with counters := { c.counters with rulemiss := c.counters.rulemiss + 1 } }) := ⟨_, rfl⟩
  have same : ruleOf u x y = ruleOf s x y := ruleOf_coresOnly (by rw [hu]; rfl) x y
  simp only [ruleLookup, none_, ← hu]
  cases found : ruleOf u x y with
  | none => rw [← same, found]
  | some r => rw [← same, found]

theorem probeCount_skip {h : Nat} : ∀ (j : Nat) (n : Nat), (∀ i, i < j → OtherRule s x y (h + i)) → probeCount s x y (n + j) h = j + probeCount s x y n (h + j)
  | 0, _, _ => (Nat.zero_add _).symm
  | j + 1, n, others => by
    have skipped := probeCount_skip j (n + 1) (fun i hi => others i (Nat.lt_succ_of_lt hi))
    have missed : probeRules s x y 1 (h + j) = none := probeRules_other (others j (Nat.lt_succ_self j)) 0
    obtain ⟨v0, v1, ⟨pa, home, leaf, place, _, first, _⟩, valid, _⟩ := others j (Nat.lt_succ_self j)
    rw [show n + (j + 1) = n + 1 + j by omega, skipped]
    simp only [probeCount, missed, place, first, valid, if_true, Nat.add_assoc]

/-- The time of a lookup that finds its entry at the j-th probe (R123). -/
theorem ruleTime_missed {k j w0 w1 pa home : Nat} {leaf : Word} (missed : ∀ e ∈ (coreAt s k).ruleCache, ¬ (e.1 = x ∧ e.2.1 = y)) (hj : j < 16)
    (here : RuleAt s (x + 3 * y + j) w0 w1) (rule : RuleFor w0 x y) (others : ∀ i, i < j → OtherRule s x y (x + 3 * y + i))
    (place : translateNow s ((s.ruleBase + 16 * ((x + 3 * y) % 2 ^ s.ruleLog)) % 2 ^ 53) false = .ok (pa, home, leaf)) :
    ruleTime s k x y = 2 * latency (vertexOf k) (sliceVertex (home % 2048)) + 6 + (j + 1) - 1 := by
  have none_ : (coreAt s k).ruleCache.any (fun e => e.1 = x && e.2.1 = y) = false := by
    rw [List.any_eq_false]
    intro e he
    simpa using missed e he
  have last : probeRules s x y 1 (x + 3 * y + j) = some (BitVec.ofNat 64 w0, BitVec.ofNat 64 w1) := by
    rw [probeRules_at here, if_neg (by rw [rule.1]; exact Bool.noConfusion), if_pos rule.2]
  have count : probeCount s x y 16 (x + 3 * y) = j + 1 := by
    have skipped := probeCount_skip j (15 - j + 1) others
    rw [show 15 - j + 1 + j = 16 by omega] at skipped
    rw [skipped]
    simp only [probeCount, last]
  rw [ruleTime, none_, if_neg Bool.false_ne_true]
  simp only [place, count]

end

/-! ### Deques (R138) -/

section

variable {s : State} {k : Nat}

theorem unspill_empty {x : Core} (empty : x.spill = []) : unspill x = x := by
  have none_ : (x.deque.length < 64 && !x.spill.isEmpty) = false := by
    rw [empty]
    exact Bool.and_false _
  rw [unspill, none_]
  rfl

/-- The owner's pop: the newest pair takes a slot (R138). -/
theorem dequePop_pops {i j : Nat} {p : PairRef} (newest : (coreAt s k).deque.getLast? = some p) (free : freeOrdinary s k = some i) (routine : pairRoutine s k = some j)
    (idle : idleContexts s k ≠ []) (first : waitingLaunch s k = none) (alone : pairWaits s k = false) (quiet : ∀ c ∈ idleContexts s k, chooseRoutine s c = none)
    (empty : (coreAt s k).spill = []) :
    Gives (.dequePop k) s (fun t => Outside s t [] ∧ (coreAt t k).deque = (coreAt s k).deque.dropLast ∧
      ∃ q, (coreAt t k).inbox = (coreAt s k).inbox ++ [q] ∧ q.index = i ∧ q.phase = .pairWaiting ∧ q.msg.pair = some p ∧ q.msg.cls = 31) := by
  have pops : ownerPops s k = true := by
    have some_ : (idleContexts s k).isEmpty = false := by
      cases h : idleContexts s k with
      | nil => exact absurd h idle
      | cons => rfl
    have none_ : (idleContexts s k).any (fun c => (chooseRoutine s c).isSome) = false := by
      rw [List.any_eq_false]
      intro c hc
      rw [quiet c hc]
      exact Bool.false_ne_true
    rw [ownerPops, free, routine, some_, first, alone, none_]
    rfl
  obtain ⟨u, hu⟩ : ∃ u, u = modCore s k (fun x => unspill { x with deque := x.deque.dropLast }) := ⟨_, rfl⟩
  have core : coreAt u k = { coreAt s k with deque := (coreAt s k).deque.dropLast } := by
    rw [hu, coreAt_modCore_self]
    exact unspill_empty empty
  have cores : CoresOnly s u := by rw [hu]; rfl
  refine ⟨putSlot u k i (pairMsg s (vertexOf k) p) .pairWaiting, ?_, outside_of (by rw [putSlot, modCore_mem, cores]) (by rw [putSlot, modCore_ctxs, cores]), ?_, ?_⟩
  · change execDequePop k s = _
    simp only [execDequePop, newest, free, pops, Bool.not_true, Bool.false_eq_true, if_false, hu]
  · rw [putSlot, coreAt_modCore_self, core]
  · rw [inbox_putSlot, core]
    exact ⟨_, rfl, rfl, rfl, rfl, rfl⟩

/-- A state that differs in what a core notes of its steals. -/
structure ProbedOnly (s u : State) : Prop where
  only : CoresOnly s u
  core : ∀ e, coreAt u e = { coreAt s e with probed := (coreAt u e).probed, victim := (coreAt u e).victim }

namespace ProbedOnly

variable {s u : State} (h : ProbedOnly s u)
include h

theorem ctx (e : Nat) : ctxOf u e = ctxOf s e := by rw [ctxOf, h.only, ctxOf]
theorem cluster (e : Nat) : clusterAt u e = clusterAt s e := by rw [clusterAt, h.only, clusterAt]
theorem cycle : u.cycle = s.cycle := by rw [h.only]
theorem routines (e : Nat) : (coreAt u e).routines = (coreAt s e).routines := by rw [h.core]
theorem hold (e : Nat) : (coreAt u e).hold = (coreAt s e).hold := by rw [h.core]
theorem heldAt (e : Nat) : (coreAt u e).heldAt = (coreAt s e).heldAt := by rw [h.core]
theorem heldWas (e : Nat) : (coreAt u e).heldWas = (coreAt s e).heldWas := by rw [h.core]
theorem sealed (e : Nat) : (coreAt u e).sealed_ = (coreAt s e).sealed_ := by rw [h.core]
theorem killed (e : Nat) : (coreAt u e).killed = (coreAt s e).killed := by rw [h.core]
theorem capacity (e : Nat) : (coreAt u e).capacity = (coreAt s e).capacity := by rw [h.core]
theorem inbox (e : Nat) : (coreAt u e).inbox = (coreAt s e).inbox := by rw [h.core]
theorem last (e : Nat) : (coreAt u e).last = (coreAt s e).last := by rw [h.core]
theorem slotFree (e : Nat) : (coreAt u e).slotFree = (coreAt s e).slotFree := by rw [h.core]
theorem routine (e j : Nat) : routineAt u e j = routineAt s e j := by rw [routineAt, h.routines, routineAt]
theorem isHeld (e j : Nat) : isHeld u e j = Machine.isHeld s e j := by
  simp only [Machine.isHeld, heldMask, holdsNow, h.heldAt, h.heldWas, h.hold, h.ctx, h.cycle, h.routine]
theorem takesWork (e : Nat) : takesWork u e = Machine.takesWork s e := by
  simp only [Machine.takesWork, h.sealed, h.killed, h.capacity, h.cluster]
theorem idleOf (e : Nat) : idleOf u e = Machine.idleOf s e := by
  simp only [Machine.idleOf, h.takesWork, h.ctx, h.cycle]
theorem idleContexts (e : Nat) : idleContexts u e = Machine.idleContexts s e := by
  simp only [Machine.idleContexts, h.idleOf, h.ctx, h.cycle]
theorem messageFor (c cls : Nat) : messageFor u c cls = Machine.messageFor s c cls := by
  simp only [Machine.messageFor, slotHeld, h.inbox, h.ctx, h.cycle]
theorem nextDrain (e : Nat) : nextDrain u e = Machine.nextDrain s e := by
  simp only [Machine.nextDrain, colOf, h.cluster, h.cycle]
theorem hasWork : hasWork u = Machine.hasWork s := by
  funext c j
  simp only [Machine.hasWork, h.routine, h.isHeld, h.nextDrain, h.messageFor]
theorem chooseRoutine (c : Nat) : chooseRoutine u c = Machine.chooseRoutine s c := by
  simp only [Machine.chooseRoutine, h.hasWork, h.routine, h.last]
theorem slotOpen (e : Nat) : slotOpen u e = Machine.slotOpen s e := by
  funext i
  simp only [Machine.slotOpen, h.inbox, h.slotFree, h.cycle]
theorem ownerPops (e : Nat) : ownerPops u e = Machine.ownerPops s e := by
  simp only [Machine.ownerPops, freeOrdinary, pairRoutine, serving, waitingLaunch, pairWaits, h.slotOpen, h.routine, h.isHeld, h.idleContexts, h.inbox, h.chooseRoutine]

end ProbedOnly

/-- A stealer takes the oldest pair of its victim (R138). -/
theorem stealProbe_takes {v : Nat} {p : PairRef} {l : List PairRef} (execute : isExecute k = true) (turn : s.cycle % 64 = 8 * coreNo k) (fresh : (coreAt s k).probed ≠ s.cycle + 1)
    (may : mayStealNow s k = true) (victim : v = (victims k).getD ((coreAt s k).victim % (victims k).length) k) (other : v ≠ k) (oldest : (coreAt s v).deque = p :: l)
    (alive : (coreAt s v).killed = false) (near : distance (vertexOf v) (vertexOf k) ≤ p.radius) (spare : l ≠ [] ∨ ownerPops s v = false) (empty : (coreAt s v).spill = []) :
    Gives (.stealProbe k) s (fun t => Outside s t [] ∧ (coreAt t v).deque = l ∧ (coreAt t k).counters.steals = (coreAt s k).counters.steals + 1 ∧
      ∃ due, (coreAt t k).stolen = (coreAt s k).stolen ++ [(due, p)] ∧ s.cycle < due) := by
  obtain ⟨u, hu⟩ : ∃ u, u = modCore s k (fun x => { x with probed := s.cycle + 1, victim := ((coreAt s k).victim + 1) % (victims k).length }) := ⟨_, rfl⟩
  have cores : CoresOnly s u := by rw [hu]; rfl
  have there (e : Nat) (he : e ≠ k) : coreAt u e = coreAt s e := by rw [hu, coreAt_modCore, if_neg he]
  have probed : ProbedOnly s u := by
    refine ⟨cores, fun e => ?_⟩
    rw [hu, coreAt_modCore]
    split
    case isTrue same => rw [same]
    case isFalse => rfl
  have spare : (l.isEmpty && ownerPops u v) = false := by
    rw [probed.ownerPops]
    obtain some_ | no := spare
    · cases l with
      | nil => exact absurd rfl some_
      | cons => rfl
    · rw [no, Bool.and_false]
  obtain ⟨w, hw⟩ : ∃ w, w = modCore u v (fun x => unspill { x with deque := l }) := ⟨_, rfl⟩
  have core : coreAt w v = { coreAt s v with deque := l } := by
    rw [hw, coreAt_modCore_self, there v other]
    exact unspill_empty empty
  have cycle : w.cycle = s.cycle := by rw [hw, modCore_cycle, cores]
  refine ⟨modCore w k (fun x => { x with
    victim := 0, stolen := x.stolen ++ [(w.cycle + 2 * latency (vertexOf k) (vertexOf v) + 6, p)], stolenFrom := x.stolenFrom ++ [vertexOf v]
    counters := { x.counters with steals := x.counters.steals + 1 } }), ?_, outside_of ?_ ?_, ?_, ?_, w.cycle + 2 * latency (vertexOf k) (vertexOf v) + 6, ?_, by omega⟩
  · change execStealProbe k s = _
    simp only [execStealProbe, execute, turn, fresh, may, ← victim, ← hu, there v other, oldest, alive, spare, Nat.not_lt.mpr near, hw, Bool.not_true, ne_eq, not_true, decide_false,
      Bool.or_self, Bool.false_eq_true, if_false]
  · rw [modCore_mem, hw, modCore_mem, cores]
  · rw [modCore_ctxs, hw, modCore_ctxs, cores]
  · rw [coreAt_modCore, if_neg other, core]
  · rw [coreAt_modCore_self, hw, coreAt_modCore, if_neg other.symm, hu, coreAt_modCore_self]
  · rw [coreAt_modCore_self, hw, coreAt_modCore, if_neg other.symm, hu, coreAt_modCore_self]

theorem stealArrival_lands {due i : Nat} {p : PairRef} {l : List (Nat × PairRef)} (stolen : (coreAt s k).stolen = (due, p) :: l) (back : due ≤ s.cycle)
    (free : freeOrdinary s k = some i) :
    Gives (.stealArrival k) s (fun t => Outside s t [] ∧ (coreAt t k).stolen = l ∧
      ∃ q, (coreAt t k).inbox = (coreAt s k).inbox ++ [q] ∧ q.index = i ∧ q.phase = .pairWaiting ∧ q.msg.pair = some p) := by
  obtain ⟨u, hu⟩ : ∃ u, u = modCore s k (fun x => { x with stolen := l, stolenFrom := x.stolenFrom.drop 1 }) := ⟨_, rfl⟩
  refine ⟨putSlot u k i (pairMsg s ((coreAt s k).stolenFrom.headD (vertexOf k)) p) .pairWaiting, ?_, outside_of ?_ ?_, ?_, ?_⟩
  · change execStealArrival k s = _
    simp only [execStealArrival, stolen, free, Nat.not_lt.mpr back, if_false, hu]
  · rw [putSlot, modCore_mem, hu, modCore_mem]
  · rw [putSlot, modCore_ctxs, hu, modCore_ctxs]
  · rw [putSlot, coreAt_modCore_self, hu, coreAt_modCore_self]
  · rw [inbox_putSlot, hu, coreAt_modCore_self]
    exact ⟨_, rfl, rfl, rfl, rfl⟩


end

/-! ### The takes of a pair's cells (R22, R27) -/

section

variable {s : State} {k i : Nat} {p : PairRef}

/-- A slot whose pair is dispatched: its takes are out, and inline references have their words (R22). -/
def dispatched (s : State) (p : PairRef) (q : Slot) : Slot := { q with
  phase := .taking, since := s.cycle, firstWords := if refKind p.first = 1 then none else some (inlineWords p.first)
  secondWords := if refKind p.second = 1 then none else some (inlineWords p.second) }

theorem inlineWords_none_iff (r : Word) : (if refKind r = 1 then none else some (inlineWords r)) = none ↔ refKind r = 1 := by
  by_cases kind : refKind r = 1
  · simp only [kind, if_true]
  · simp only [kind, if_false, reduceCtorEq]

theorem inlineWords_three {r : Word} (kind : refKind r = 3) : (if refKind r = 1 then none else some (inlineWords r)) =
    some [BitVec.ofNat 64 (bits r.toNat 31 0 * 2 ^ 32 + 2 ^ 18 + bits r.toNat 47 32), 0, 0] := by
  rw [inlineWords, kind]
  rfl

theorem inlineWords_four {r : Word} (kind : refKind r = 4) : (if refKind r = 1 then none else some (inlineWords r)) = some [BitVec.ofNat 64 (bits r.toNat 15 0), 0, 0] := by
  rw [inlineWords, kind]
  rfl

theorem pairDispatch_takes (stands : ∃ q ∈ (coreAt s k).inbox, q.index = i)
    (pairs : ∀ q ∈ (coreAt s k).inbox, q.index = i → q.phase = .pairWaiting ∧ q.msg.pair = some p) :
    Gives (.pairDispatch k i) s (fun t => Outside s t [] ∧ (∃ q ∈ (coreAt t k).inbox, q.index = i) ∧
      ∀ q ∈ (coreAt t k).inbox, q.index = i → q.phase = .taking ∧ (q.firstWords = none ↔ refKind p.first = 1) ∧
        (q.secondWords = none ↔ refKind p.second = 1) ∧
        (refKind p.first = 3 → q.firstWords = some [BitVec.ofNat 64 (bits p.first.toNat 31 0 * 2 ^ 32 + 2 ^ 18 + bits p.first.toNat 47 32), 0, 0]) ∧
        (refKind p.first = 4 → q.firstWords = some [BitVec.ofNat 64 (bits p.first.toNat 15 0), 0, 0]) ∧
        (refKind p.second = 3 → q.secondWords = some [BitVec.ofNat 64 (bits p.second.toNat 31 0 * 2 ^ 32 + 2 ^ 18 + bits p.second.toNat 47 32), 0, 0]) ∧
        (refKind p.second = 4 → q.secondWords = some [BitVec.ofNat 64 (bits p.second.toNat 15 0), 0, 0])) := by
  obtain ⟨t, ht⟩ : ∃ t, exec (.pairDispatch k i) s = .next t := ⟨_, rfl⟩
  have mem : t.mem = s.mem := by
    cases ht
    rfl
  have ctxs : t.ctxs = s.ctxs := by
    cases ht
    rfl
  have inbox : (coreAt t k).inbox = (coreAt s k).inbox.map (fun q => if q.index = i then dispatched s p q else q) := by
    cases ht
    rw [modSlot, coreAt_modCore_self]
    refine List.map_congr_left (fun q hq => ?_)
    split
    case isTrue here =>
      obtain ⟨phase, pair⟩ := pairs q hq here
      simp only [phase, pair, dispatched]
    case isFalse => rfl
  refine ⟨t, ht, outside_of mem ctxs, ?_, fun q hq here => ?_⟩
  · obtain ⟨q, hq, here⟩ := stands
    rw [inbox]
    exact ⟨dispatched s p q, List.mem_map.mpr ⟨q, hq, if_pos here⟩, here⟩
  · rw [inbox] at hq
    obtain ⟨r, hr, rfl⟩ := List.mem_map.mp hq
    have same : r.index = i := by
      by_contra other
      rw [if_neg other] at here
      exact other here
    rw [if_pos same]
    exact ⟨rfl, inlineWords_none_iff _, inlineWords_none_iff _, inlineWords_three, inlineWords_four, inlineWords_three, inlineWords_four⟩

theorem cellTake_takes {pa home : Nat} {q : Slot} (inbox : (coreAt s k).inbox = [q]) (index : q.index = i) (taking : q.phase = .taking) (pair : q.msg.pair = some p)
    (out : q.firstWords = none) (device : refDevice p.first = s.device) (place : cellPlace s (refAddr p.first) = some (pa, home)) (heap : heapAt s.cellHeaps (refAddr p.first) ≠ none)
    (live : itemState s false (refAddr p.first) = .live) (due : q.since + takeHop s k p.first ≤ s.cycle)
    (here : (reachL2 s (.take k i false) (home % 2048) pa 24 (home / 2048) false).1 = true) (clean : anyPoison s pa 24 = false) :
    Gives (.cellTake k i false) s (fun t => Outside s t [] ∧ MemKept s t ∧ itemState t false (refAddr p.first) = .heldBack ∧
      ∃ r, (coreAt t k).inbox = [r] ∧ r.firstTokens = heldBy s (holderCell s.device (refAddr p.first)) ∧ r.firstWords = some [BitVec.ofNat 64 (readMem s pa 8),
        BitVec.ofNat 64 (readMem s (pa + 8) 8), BitVec.ofNat 64 (readMem s (pa + 16) 8)]) := by
  obtain ⟨u, hu⟩ : ∃ u, u = (reachL2 s (.take k i false) (home % 2048) pa 24 (home / 2048) false).2 := ⟨_, rfl⟩
  have sectors : SectorsOnly s u := hu ▸ reachL2_sectors _ _ _ _ _ _ _
  have reach : reachL2 s (.take k i false) (home % 2048) pa 24 (home / 2048) false = (true, u) := Prod.ext here hu.symm
  have found : (coreAt s k).inbox.find? (fun q => q.index = i) = some q := by
    rw [inbox]
    simp [index]
  have heaps : (heapAt u.cellHeaps (refAddr p.first)).isNone = false := by
    obtain ⟨x, hx⟩ := Option.ne_none_iff_exists'.mp heap
    rw [sectors.only, hx]
    rfl
  have item : itemState u false (refAddr p.first) = .live := by
    rw [sectors.only]
    exact live
  have poison : anyPoison u pa 24 = false := by
    rw [sectors.only]
    exact clean
  obtain ⟨v, hv⟩ : ∃ v, v = setItem u false (refAddr p.first) .heldBack := ⟨_, rfl⟩
  obtain ⟨l, hl⟩ : ∃ l, l = heldBy v (holderCell s.device (refAddr p.first)) := ⟨_, rfl⟩
  obtain ⟨w, hw⟩ : ∃ w, w = moveTokens v (holderCell s.device (refAddr p.first)) (holderSlot v.device k i) l := ⟨_, rfl⟩
  have tokens : w = { v with tokens := w.tokens } := hw ▸ moveTokens_only _ _ _ _
  have cells : v = { u with cells := v.cells } := by rw [hv]; rfl
  have held : l = heldBy s (holderCell s.device (refAddr p.first)) := by
    have same : v.tokens = s.tokens := by rw [cells, sectors.only]
    rw [hl, heldBy, same, heldBy]
  have mem : w.mem = s.mem := by rw [tokens, cells, sectors.only]
  have ctxs : w.ctxs = s.ctxs := by rw [tokens, cells, sectors.only]
  have core : coreAt w k = coreAt s k := by rw [coreAt, tokens, cells, sectors.only, coreAt]
  have words : (List.range 3).map (fun j => BitVec.ofNat 64 (readMem u (pa + 8 * j) 8)) =
      [BitVec.ofNat 64 (readMem s pa 8), BitVec.ofNat 64 (readMem s (pa + 8) 8), BitVec.ofNat 64 (readMem s (pa + 16) 8)] := by
    simp only [sectors.readMem]
    rfl
  refine ⟨giveTake w k i false [BitVec.ofNat 64 (readMem s pa 8), BitVec.ofNat 64 (readMem s (pa + 8) 8), BitVec.ofNat 64 (readMem s (pa + 16) 8)] l, ?_,
    outside_of mem ctxs, memByte_congr mem, ?_,
    { q with firstWords := some [BitVec.ofNat 64 (readMem s pa 8), BitVec.ofNat 64 (readMem s (pa + 8) 8), BitVec.ofNat 64 (readMem s (pa + 16) 8)], firstTokens := l }, ?_, held, rfl⟩
  · change execCellTake k i false s = _
    simp only [execCellTake, found, taking, pair, out, device, place, reach, heaps, item, poison, Nat.not_lt.mpr due, Option.isSome_none, decide_true, Bool.true_or, Bool.not_true, ne_eq,
      not_true, decide_false, Bool.or_self, Bool.false_eq_true, if_false]
    rw [words, ← hv, ← hl, ← hw]
  · have same : itemState w false (refAddr p.first) = itemState v false (refAddr p.first) := by rw [tokens]; rfl
    change itemState w false (refAddr p.first) = _
    rw [same, hv]
    simp only [itemState, setItem, Bool.false_eq_true, if_false, sget_sput_self]
  · rw [giveTake, modSlot, coreAt_modCore_self, core, inbox, List.map_cons, List.map_nil, if_pos index]
    rfl

end

/-! ### A pair whose cells are back (R29) -/

/-- A lookup changes the rule cache and the counters of its core. -/
theorem ruleLookup_cores (s : State) (k x y : Nat) : CoresOnly s (ruleLookup s k x y).2 ∧ ∀ j, (coreAt (ruleLookup s k x y).2 j).inbox = (coreAt s j).inbox := by
  have one (t : State) (f : Core → Core) (hf : ∀ z, (f z).inbox = z.inbox) (j : Nat) : (coreAt (modCore t k f) j).inbox = (coreAt t j).inbox := by
    rw [coreAt_modCore]
    split
    case isTrue same => rw [hf, same]
    case isFalse => rfl
  have start : AtCores s s := rfl
  change AtCores s (ruleLookup s k x y).2 ∧ _
  unfold ruleLookup
  dsimp only
  split
  · dsimp only
    refine ⟨start.modCore _ _, one _ _ ?_⟩
    exact fun _ => rfl
  · split
    · dsimp only
      refine ⟨start.modCore _ _, one _ _ ?_⟩
      exact fun _ => rfl
    · dsimp only
      refine ⟨(start.modCore _ _).modCore _ _, fun j => (one _ _ ?_ j).trans (one _ _ ?_ j)⟩
      · exact fun _ => rfl
      · exact fun _ => rfl

section

variable {s : State} {k i : Nat} {q r : Slot} {p : PairRef} {a b : List Word}

/-- A pair with a rule is ready, from the end of the lookup on (R29, R123). -/
theorem readyPair_waits {w0 w1 : Word} (inbox : (coreAt s k).inbox = [r]) (index : r.index = q.index)
    (rule : (ruleLookup s k ((a.headD 0).toNat % 65536) ((b.headD 0).toNat % 65536)).1 = some (w0, w1)) :
    Outside s (readyPair s k q p a b) [] ∧ ∃ acct, (coreAt (readyPair s k q p a b) k).inbox = [{ q with
      msg := { q.msg with payload := a ++ b }, phase := .waiting, since := s.cycle + ruleTime s k ((a.headD 0).toNat % 65536) ((b.headD 0).toNat % 65536)
      entry := w1.toNat % 2 ^ 53, acct := acct }] := by
  obtain ⟨u, hu⟩ : ∃ u, u = (ruleLookup s k ((a.headD 0).toNat % 65536) ((b.headD 0).toNat % 65536)).2 := ⟨_, rfl⟩
  obtain ⟨cores, same⟩ := ruleLookup_cores s k ((a.headD 0).toNat % 65536) ((b.headD 0).toNat % 65536)
  rw [← hu] at cores same
  have pair : ruleLookup s k ((a.headD 0).toNat % 65536) ((b.headD 0).toNat % 65536) = (some (w0, w1), u) := Prod.ext rule hu.symm
  obtain ⟨v, hv⟩ : ∃ v, v = if acctAbroad u p then { u with free := u.free + 1 } else u := ⟨_, rfl⟩
  have drawn : v.mem = s.mem ∧ v.ctxs = s.ctxs ∧ coreAt v k = coreAt u k := by
    rw [hv]
    split
    · exact ⟨by rw [cores], by rw [cores], rfl⟩
    · exact ⟨by rw [cores], by rw [cores], rfl⟩
  obtain ⟨mem, ctxs, core⟩ := drawn
  have cycle : u.cycle = s.cycle := by rw [cores]
  have eq : readyPair s k q p a b = modSlot v k q.index (fun _ => { q with
      msg := { q.msg with payload := a ++ b }, phase := .waiting, since := u.cycle + ruleTime s k ((a.headD 0).toNat % 65536) ((b.headD 0).toNat % 65536)
      entry := w1.toNat % 2 ^ 53, acct := pairAcct u k p }) := by
    simp only [readyPair, pair]
    rw [← hv]
  rw [eq]
  refine ⟨outside_of (by rw [modSlot, modCore_mem, mem]) (by rw [modSlot, modCore_ctxs, ctxs]), pairAcct u k p, ?_⟩
  rw [modSlot, coreAt_modCore_self, core, same, inbox, List.map_cons, List.map_nil, if_pos index, cycle]

/-- A pair without a rule stays at the inbox head (R29; log 25). -/
theorem readyPair_noRule (none_ : (ruleLookup s k ((a.headD 0).toNat % 65536) ((b.headD 0).toNat % 65536)).1 = none) :
    Outside s (readyPair s k q p a b) [] ∧ ∃ z l, (coreAt (readyPair s k q p a b) k).inbox = z :: l ∧ z.index = q.index ∧ z.phase = .noRule := by
  obtain ⟨u, hu⟩ : ∃ u, u = (ruleLookup s k ((a.headD 0).toNat % 65536) ((b.headD 0).toNat % 65536)).2 := ⟨_, rfl⟩
  obtain ⟨cores, _⟩ := ruleLookup_cores s k ((a.headD 0).toNat % 65536) ((b.headD 0).toNat % 65536)
  rw [← hu] at cores
  have pair : ruleLookup s k ((a.headD 0).toNat % 65536) ((b.headD 0).toNat % 65536) = (none, u) := Prod.ext none_ hu.symm
  have reported : ∃ f : FaultInfo, readyPair s k q p a b = modCore (reportFor u k 2 q.msg.sender 0 f) k (fun x => { x with
      inbox := { q with msg := { q.msg with payload := a ++ b }, phase := .noRule } :: x.inbox.filter (fun r => r.index ≠ q.index) }) := by
    simp only [readyPair, pair]
    exact ⟨_, rfl⟩
  obtain ⟨f, eq⟩ := reported
  rw [eq]
  refine ⟨outside_of (by rw [modCore_mem, reportFor_mem, cores]) ?_, { q with msg := { q.msg with payload := a ++ b }, phase := .noRule }, _, by rw [coreAt_modCore_self], rfl, rfl⟩
  rw [modCore_ctxs, reportFor, putRecord_ctxs, cores]
  rfl

/-- A reference whose take is given back stands again (R27; log 25). -/
theorem giveBack_only (s : State) (k i : Nat) (r : Word) (taken : Bool) (l : List (Nat × Bool)) :
    giveBack s k i r taken l = { s with tokens := (giveBack s k i r taken l).tokens, cells := (giveBack s k i r taken l).cells } := by
  have moved := moveTokens_only l s (holderSlot s.device k i) (holderCell (refDevice r) (refAddr r))
  unfold giveBack
  split
  · rfl
  · dsimp only
    split
    · rw [setItem, if_neg Bool.false_ne_true, moved]
    · rw [moved]

/-- An item that stands is not taken away by a give-back. -/
theorem giveBack_live (r : Word) (taken : Bool) (l : List (Nat × Bool)) {addr : Nat} (live : itemState s false addr = .live) :
    itemState (giveBack s k i r taken l) false addr = .live := by
  unfold giveBack
  split
  · exact live
  · obtain ⟨u, hu⟩ : ∃ u, u = moveTokens s (holderSlot s.device k i) (holderCell (refDevice r) (refAddr r)) l := ⟨_, rfl⟩
    have here : itemState u false addr = .live := by
      rw [hu, moveTokens_only]
      exact live
    rw [← hu]
    dsimp only
    split
    · simp only [itemState, setItem, Bool.false_eq_true, if_false] at here ⊢
      rw [sget_sput]
      split
      · rfl
      · exact here
    · exact here

/-- A block that was held back for a take stands again when the take is given back (R27). -/
theorem giveBack_stands {r : Word} (l : List (Nat × Bool)) (cell : refKind r = 1) (own : refDevice r = s.device) (held : itemState s false (refAddr r) = .heldBack) :
    itemState (giveBack s k i r true l) false (refAddr r) = .live := by
  obtain ⟨u, hu⟩ : ∃ u, u = moveTokens s (holderSlot s.device k i) (holderCell (refDevice r) (refAddr r)) l := ⟨_, rfl⟩
  have only : u = { s with tokens := u.tokens } := hu ▸ moveTokens_only _ _ _ _
  have here : itemState u false (refAddr r) = .heldBack := by
    rw [only]
    exact held
  have device : refDevice r = u.device := by rw [only, own]
  have eq : giveBack s k i r true l = setItem u false (refAddr r) .live := by
    simp only [giveBack, cell, ← hu, ← device, here, Bool.not_true, ne_eq, not_true, decide_false, decide_true, Bool.or_self, Bool.and_self, Bool.false_eq_true, if_false, if_true]
  rw [eq]
  simp only [itemState, setItem, Bool.false_eq_true, if_false, sget_sput_self]

end

theorem reportFor_rest (s : State) (k o a : Nat) (p : Word) (f : FaultInfo) : (reportFor s k o a p f).rest = s.rest := by
  rw [reportFor, putRecord_rest]
  rfl

section

variable {s : State} {k i : Nat} {p : PairRef} {q : Slot} {a b : List Word} (inbox : (coreAt s k).inbox = [q]) (index : q.index = i) (taking : q.phase = .taking)
  (pair : q.msg.pair = some p) (first : q.firstWords = some a) (second : q.secondWords = some b) (due : q.since + dispatchTime s k p ≤ s.cycle)
include inbox index taking pair first second due

theorem execPairSlotReady_good (good : badCell p a b = none) : exec (.pairSlotReady k i) s = .next (
    if wrongOrder s p ((a.headD 0).toNat % 65536) ((b.headD 0).toNat % 65536) then readyPair s k (swapSlot q) { p with first := p.second, second := p.first } b a
    else readyPair s k q p a b) := by
  have found : (coreAt s k).inbox.find? (fun q => q.index = i) = some q := by
    rw [inbox]
    simp [index]
  change execPairSlotReady k i s = _
  simp only [execPairSlotReady, found, taking, pair, first, second, good, Nat.not_lt.mpr due, if_false]

theorem execPairSlotReady_bad {ref : Word} (bad : badCell p a b = some ref) : exec (.pairSlotReady k i) s = .next (badTake s k q p ref cBadRef) := by
  have found : (coreAt s k).inbox.find? (fun q => q.index = i) = some q := by
    rw [inbox]
    simp [index]
  change execPairSlotReady k i s = _
  simp only [execPairSlotReady, found, taking, pair, first, second, bad, Nat.not_lt.mpr due, if_false]

theorem pairSlotReady_bad {ref : Word} (bad : badCell p a b = some ref) (cell : refKind p.first = 1) (own : refDevice p.first = s.device)
    (held : itemState s false (refAddr p.first) = .heldBack) :
    Gives (.pairSlotReady k i) s (fun t => Outside s t [] ∧ (coreAt t k).inbox = [] ∧ itemState t false (refAddr p.first) = .live) := by
  obtain ⟨u, hu⟩ : ∃ u, u = reportFor s k 2 q.msg.sender 0 { code := cBadRef, addr := ref } := ⟨_, rfl⟩
  obtain ⟨v, hv⟩ : ∃ v, v = giveBack u k q.index p.first true q.firstTokens := ⟨_, rfl⟩
  obtain ⟨w, hw⟩ : ∃ w, w = giveBack v k q.index p.second true q.secondTokens := ⟨_, rfl⟩
  have eq : badTake s k q p ref cBadRef = freeSlot w k q.index := by
    rw [hw, hv, hu, badTake, first, second]
    rfl
  have rest : u.rest = s.rest := by rw [hu, reportFor_rest]
  have mem : u.mem = s.mem := State.rest_mem rest
  have cells : u.cells = s.cells := (congrArg State.cells rest : u.rest.cells = s.rest.cells)
  have device : u.device = s.device := State.rest_device rest
  have ctxs : u.ctxs = s.ctxs := by
    rw [hu, reportFor, putRecord_ctxs]
    rfl
  have here : itemState u false (refAddr p.first) = .heldBack := by
    rw [← held]
    simp only [itemState, cells, Bool.false_eq_true, if_false]
  have stands : itemState v false (refAddr p.first) = .live := hv ▸ giveBack_stands _ cell (by rw [device, own]) here
  have last : itemState w false (refAddr p.first) = .live := hw ▸ giveBack_live _ _ _ stands
  have vonly : v = { u with tokens := v.tokens, cells := v.cells } := hv ▸ giveBack_only _ _ _ _ _ _
  have wonly : w = { v with tokens := w.tokens, cells := w.cells } := hw ▸ giveBack_only _ _ _ _ _ _
  have core : (coreAt w k).inbox = [q] := by
    have cores : w.cores = u.cores := by rw [wonly, vonly]
    rw [coreAt, cores, ← coreAt, hu, coreAt_reportFor]
    exact inbox
  refine ⟨freeSlot w k q.index, ?_, outside_of (by rw [freeSlot, modCore_mem, wonly, vonly, mem]) (by rw [freeSlot, modCore_ctxs, wonly, vonly, ctxs]), ?_, last⟩
  · rw [execPairSlotReady_bad inbox index taking pair first second due bad, eq]
  · rw [freeSlot, coreAt_modCore_self, core]
    simp

end

/-- Settles O53: the probes of a lookup by induction on the entries skipped, and each step of a pair by what it changes of its core. -/
theorem pairDispatch : Obligations.PairDispatch := by
  unfold Obligations.PairDispatch
  refine ⟨fun _ _ _ _ _ _ => ruleOf_first, fun _ _ _ => ruleOf_none, fun _ _ _ _ _ => ruleTime_cached, fun _ _ _ _ => ruleLookup_missed, ?_, fun _ _ _ _ _ => dequePop_pops,
    fun _ _ _ _ _ => stealProbe_takes, fun _ _ _ _ _ _ => stealArrival_lands, fun _ _ _ _ => pairDispatch_takes, fun _ _ _ _ _ _ _ => cellTake_takes, ?_⟩
  · intro s k x y j w0 w1 pa home leaf missed hj here rule others place
    exact ruleTime_missed missed hj here rule others place
  · intro s k i p q a b inbox index taking pair first second due x y r
    refine ⟨fun good ordered => ⟨fun w0 w1 rule => ?_, fun none_ => ?_⟩, fun w0 w1 good less cell abroad rule => ?_, fun ref bad cell own held => ?_⟩
    · obtain ⟨frame, acct, stands⟩ := readyPair_waits (p := p) inbox rfl rule
      refine ⟨readyPair s k q p a b, ?_, frame, _, stands, rfl, rfl, rfl, rfl⟩
      rw [execPairSlotReady_good inbox index taking pair first second due good, ordered]
      rfl
    · obtain ⟨frame, z, l, stands, place, phase⟩ := readyPair_noRule (q := q) (p := p) none_
      refine ⟨readyPair s k q p a b, ?_, frame, z, l, stands, place.trans index, phase⟩
      rw [execPairSlotReady_good inbox index taking pair first second due good, ordered]
      rfl
    · have wrong : wrongOrder s p x y = true := by
        simp [wrongOrder, cell, abroad, less]
      obtain ⟨frame, acct, stands⟩ := readyPair_waits (q := swapSlot q) (p := { p with first := p.second, second := p.first }) inbox rfl rule
      refine ⟨readyPair s k (swapSlot q) { p with first := p.second, second := p.first } b a, ?_, frame, _, stands, rfl, rfl, ?_, rfl, rfl, rfl⟩
      · rw [execPairSlotReady_good inbox index taking pair first second due good, if_pos wrong]
      · rw [swapSlot, pair]
        rfl
    · exact pairSlotReady_bad inbox index taking pair first second due bad cell own held

end Sys2Proof.Machine
end

