-- ==== Sys2Proof/Proofs/CachedLines.lean ====
section
/-! SUPPORT. O25 and O26: LD and ST of a line that is cached, and of the raw facet (R2, R30, R93, R237, R284). -/

namespace Sys2Proof.Machine

/-! ### The bytes of a line -/

/-- An access that does not cross a line touches one. -/
theorem linesOf_one {pa n : Nat} (pos : 0 < n) (within : pa % 32 + n ≤ 32) : linesOf pa n = [pa / 32] := by
  have count : (pa % 32 + n + 31) / 32 = 1 := by omega
  rw [linesOf, count]
  rfl

/-- An aligned access of up to eight bytes does not cross a line. -/
theorem aligned_within {ea pa w : Nat} (aligned : ea % 2 ^ w = 0) (narrow : w ≤ 3) (same : pa % 32 = ea % 32) : pa % 32 + 2 ^ w ≤ 32 := by
  rcases (by omega : w = 0 ∨ w = 1 ∨ w = 2 ∨ w = 3) with rfl | rfl | rfl | rfl <;> omega

/-- The field of 8 (n + 1) bits is its lowest byte and the rest. -/
theorem extract_toNat_step {w : Nat} (x : BitVec w) (j n : Nat) :
    (x.extractLsb' (8 * j) (8 * (n + 1))).toNat = (x.extractLsb' (8 * j) 8).toNat + 256 * (x.extractLsb' (8 * (j + 1)) (8 * n)).toNat := by
  simp only [BitVec.extractLsb'_toNat, Nat.shiftRight_eq_div_pow]
  have next : x.toNat / 2 ^ (8 * (j + 1)) = x.toNat / 2 ^ (8 * j) / 2 ^ 8 := by
    rw [Nat.div_div_eq_div_mul, ← Nat.pow_add]
    rfl
  rw [next, show 8 * (n + 1) = 8 + 8 * n by omega, Nat.pow_add, Nat.mod_mul]

theorem seeLines_cached {s : State} {c : Nat} {x : Line} (log : (ctxOf s c).writeLog = []) (n : Nat) : ∀ pa, pa % 32 + n ≤ 32 →
    lineOf s (coreOf c) (pa / 32) = some x → seeLines s c pa n = (x.data.extractLsb' (8 * (pa % 32)) (8 * n)).toNat := by
  induction n with
  | zero =>
    intro pa _ _
    simp [seeLines]
  | succ n ih =>
    intro pa within cached
    rw [seeLines, cached, log, extract_toNat_step]
    rcases Nat.eq_zero_or_pos n with rfl | pos
    · simp [seeLines, logOver]
    · have line : (pa + 1) / 32 = pa / 32 := by omega
      have place : (pa + 1) % 32 = pa % 32 + 1 := by omega
      rw [ih (pa + 1) (by omega) (by rw [line, cached]), place]
      rfl

theorem foldl_bytes_lt (f : Nat → Byte) (n : Nat) : (List.range n).foldl (fun acc i => acc + (f i).toNat * 2 ^ (8 * i)) 0 < 2 ^ (8 * n) := by
  induction n with
  | zero => simp
  | succ n ih =>
    rw [List.range_succ, List.foldl_append, List.foldl_cons, List.foldl_nil]
    have byte := (f n).isLt
    have wide : 2 ^ (8 * (n + 1)) = 2 ^ (8 * n) * 256 := by rw [Nat.mul_add, Nat.pow_add]
    have scaled : (f n).toNat * 2 ^ (8 * n) ≤ 255 * 2 ^ (8 * n) := Nat.mul_le_mul_right _ (by omega)
    omega

/-- What the load writes is the form of the statement's. -/
theorem loaded_eq (o : OpM) {n x : Nat} (pos : 0 < n) (low : x < 2 ^ (8 * n)) : loaded o.kind n x = loadedValue o n x := by
  unfold loaded loadedValue
  split
  · exact sextN_eq (by omega) x
  · apply BitVec.eq_of_toNat_eq
    simp [Nat.mod_eq_of_lt low]

/-! ### The way to a line that is ready -/

/-- A grant that the token cache holds and the mode allows. -/
theorem tokenCheck_granted {s : State} {ea : Word} {use : TokenUse} {path : Nat} {h : TokenHit} (idle : tokenOut s s.cur = false)
    (noFails : (ctxOf s s.cur).tokenFails = []) (grant : tokenHit s s.cur path (ea.toNat % 2 ^ 53) = some h) (alive : barredAt s (ea.toNat % 2 ^ 53) = none)
    (allowed : tokenFault h.mode h.holds h.shares use = none) : ∃ t, tokenCheck s ea use path = .ok (h.mode, t) := by
  unfold tokenCheck
  simp only [idle, Bool.false_eq_true, if_false, noFails, List.find?_nil, grant, alive, allowed]
  exact ⟨_, rfl⟩

/-- A change of a core's TLB leaves what is barred. -/
theorem barredAt_tlb (s : State) (k va : Nat) (f : Core → List TlbEntry) : barredAt (modCore s k (fun y => { y with tlb := f y })) va = barredAt s va := by
  have same : barred (modCore s k (fun y => { y with tlb := f y })) = barred s := by
    funext t
    have killed (j : Nat) : (coreAt (modCore s k (fun y => { y with tlb := f y })) j).killed = (coreAt s j).killed := by
      rw [coreAt_modCore]
      split
      case isTrue same => rw [same]
      case isFalse => rfl
    rw [barred, orphaned, killed, barred, orphaned, modCore_device]
  rw [barredAt, same, barredAt]
  rfl

theorem grantNow_modCore (s : State) (k : Nat) (f : Core → Core) : grantNow (modCore s k f) = grantNow s := by
  funext c path e
  simp only [grantNow, holdsToken_congr (s := s) (t := modCore s k f) rfl rfl rfl rfl rfl rfl, sharesToken_congr (s := s) (t := modCore s k f) rfl rfl rfl rfl rfl rfl]
  rfl

/-- A change of the core's TLB leaves what its token cache grants. -/
theorem tokenHit_tlb (s : State) (path va : Nat) (f : Core → List TlbEntry) :
    tokenHit (modCore s (coreOf s.cur) (fun y => { y with tlb := f y })) s.cur path va = tokenHit s s.cur path va := by
  rw [tokenHit, tokenHit, coreAt_modCore_self, grantNow_modCore]

section

variable {s : State} {ea : Word} {use : TokenUse} {p : Perm} {e : TlbEntry} {h : TokenHit} {x : Line} (ready : LineReady s ea use p e h x)
include ready

theorem LineReady.translate : Machine.translate s ea p = .ok (.phys (ea.toNat % 2 ^ 53) (leafPa e.page (ea.toNat % 2 ^ 53) e.leaf) e.leaf,
    modCore s (coreOf s.cur) (fun y => { y with tlb := tlbUse y.tlb e })) :=
  translate_found ready.own ready.below ready.noFail.1 (tlbLookup_core ready.page) ready.perm

theorem LineReady.tokenCheck : ∃ t, Machine.tokenCheck (modCore s (coreOf s.cur) (fun y => { y with tlb := tlbUse y.tlb e })) ea use 0 = .ok (h.mode, t) := by
  refine tokenCheck_granted ready.tokens ready.noFail.2 ?_ ?_ ready.allowed
  · rw [modCore_cur, tokenHit_tlb]
    exact ready.grant
  · rw [barredAt_tlb]
    exact ready.alive

omit ready in
/-- The state in which a ready access does its work differs from s in the lookup fields alone. -/
theorem checked_looked {t : State} {m : Mode} (checked : Machine.tokenCheck (modCore s (coreOf s.cur) (fun y => { y with tlb := tlbUse y.tlb e })) ea use 0 = .ok (m, t)) :
    Looked s t := (modCore_looked s _ (fun _ => rfl)).trans (tokenCheck_looked checked)

end

theorem lineOf_looked {s u : State} (h : Looked s u) (k l : Nat) : lineOf u k l = lineOf s k l := by rw [lineOf, h.core, lineOf]

section

variable {s u : State} {ea : Word} {use : TokenUse} {p : Perm} {e : TlbEntry} {h : TokenHit} {x : Line} {pa : Nat} (ready : LineReady s ea use p e h x)
  (at_ : pa = leafPa e.page (ea.toNat % 2 ^ 53) e.leaf) (looked : Looked s u)
include ready at_ looked

theorem LineReady.line : lineOf u (coreOf s.cur) (pa / 32) = some x := by
  rw [lineOf_looked looked, at_]
  exact ready.cached

theorem LineReady.free_ : lineBusy u (coreOf s.cur) (pa / 32) = false := by
  rw [lineBusy, looked.flights, at_]
  exact ready.free

theorem LineReady.out : lineOut u (coreOf s.cur) [pa / 32] = false := by
  rw [lineOut, looked.flights, at_]
  exact ready.alone

theorem LineReady.runs : lineWaits u s.cur [pa / 32] = false := by
  rw [lineWaits, ready.out at_ looked, looked.fenced, ready.fence]
  simp [ready.line at_ looked]

end

/-! ### LD -/

section

variable {s : State} {ea : Word} {e : TlbEntry} {h : TokenHit} {x : Line} {n pa : Nat} (ready : LineReady s ea .read .rd e h x)
  (at_ : pa = leafPa e.page (ea.toNat % 2 ^ 53) e.leaf) (aligned : ea.toNat % n = 0) (pos : 0 < n) (within : pa % 32 + n ≤ 32)
include ready at_ aligned pos within

theorem readPlace_ready : ∃ u, readPlace s ea n .read = .ok (.phys (ea.toNat % 2 ^ 53) pa e.leaf, u) ∧ Looked s u := by
  have ls := linesOf_one pos within
  unfold readPlace
  rw [if_neg (not_not.mpr aligned), ready.translate, ok_bind, ← at_]
  dsimp only
  rw [ls]
  split
  · obtain ⟨t, checked⟩ := ready.tokenCheck
    have looked := checked_looked checked
    refine ⟨t, ?_, looked⟩
    rw [checked, ok_bind, ok_bind]
    simp [looked.cur, ready.free_ at_ looked]
  · have looked : Looked s (modCore s (coreOf s.cur) (fun y => { y with tlb := tlbUse y.tlb e })) := modCore_looked s _ (fun _ => rfl)
    refine ⟨_, ?_, looked⟩
    rw [ok_bind]
    simp [ready.free_ at_ looked]

omit aligned in
theorem readAt_ready {u : State} (looked : Looked s u) (log : (ctxOf s s.cur).writeLog = []) :
    ∃ v, readAt u ea n (.phys (ea.toNat % 2 ^ 53) pa e.leaf) .read = .ok ((x.data.extractLsb' (8 * (pa % 32)) (8 * n)).toNat, notBefore v s.cur (u.cycle + 4)) ∧
      v = { u with cores := v.cores } := by
  have ls := linesOf_one pos within
  have cached := ready.line at_ looked
  have log' : (ctxOf u s.cur).writeLog = [] := by rw [looked.ctx, log]
  refine ⟨setLine u (coreOf s.cur) (pa / 32) (some { x with used := nextRank u (coreOf s.cur) (pa / 32) }), ?_, setLine_cores _ _ _ _⟩
  unfold readAt
  dsimp only
  rw [ls, looked.cur, ready.out at_ looked, if_neg Bool.false_ne_true, needLines, needHomes]
  simp only [List.map_cons, List.map_nil, List.find?_cons, List.find?_nil, cached, looked.cur, Option.isNone_some, ok_bind, List.any_cons, List.any_nil, ready.sound,
    Bool.or_false, Bool.false_eq_true, if_false, useLines, List.foldl_cons, List.foldl_nil, seeLines_cached log' n pa within cached]

theorem loadTo_ready (log : (ctxOf s s.cur).writeLog = []) (sx vec : Bool) (d : Nat) (give : Nat → State → State) :
    ∃ u v t, Looked s u ∧ v = { u with cores := v.cores } ∧ t = notBefore v s.cur (s.cycle + 4) ∧
      loadTo s ea n .read sx vec d give = .ok (give (x.data.extractLsb' (8 * (pa % 32)) (8 * n)).toNat t) := by
  obtain ⟨u, placed, looked⟩ := readPlace_ready ready at_ aligned pos within
  obtain ⟨v, read, only⟩ := readAt_ready ready at_ pos within looked log
  refine ⟨u, v, _, looked, only, rfl, ?_⟩
  unfold loadTo
  rw [placed, ok_bind]
  dsimp only
  rw [linesOf_one pos within, looked.cur, ready.runs at_ looked, if_neg Bool.false_ne_true, read, ok_bind, looked.cycle]

end

/-- A change of cores and of a context's times keeps what the context has done. -/
theorem Acts.timed {s u v : State} {gs : List Nat} (h : Acts s u gs) (only : v = { u with cores := v.cores }) (c n : Nat) : Acts s (notBefore v c n) gs :=
  (h.ctxs (v := v) (by rw [only]) (by rw [only])).modCtx (fun _ => ⟨rfl, rfl, rfl⟩)

/-- A load whose bytes are read in its step. -/
theorem gives_loaded {o : OpM} {s u v t : State} {y : Nat} (hi : Issues (.ld o) s) (quiet : Quiet s) (looked : Looked s u) (only : v = { u with cores := v.cores })
    (last : t = notBefore v s.cur (s.cycle + 4) ∨ t = v)
    (read : loadTo s (effAddr s s.cur o) (2 ^ o.width.toNat) .read (o.kind = 1) false o.d.toNat (fun x u => wg u u.cur o.d.toNat (loaded o.kind (2 ^ o.width.toNat) x)) =
      .ok (wg t s.cur o.d.toNat (loaded o.kind (2 ^ o.width.toNat) y))) :
    Gives (.ld o) s (fun t => Proceeds s t [o.d.toNat] ∧ rg t s.cur o.d.toNat = if o.d = 0 then 0 else loaded o.kind (2 ^ o.width.toNat) y) := by
  have acts : Acts s t [] ∧ t.mem = s.mem := by
    have base := Acts.of_looked hi.1 looked
    obtain rfl | rfl := last
    · exact ⟨base.timed only _ _, by rw [notBefore, modCtx_mem, only, looked.mem]⟩
    · exact ⟨base.ctxs (by rw [only]) (by rw [only]), by rw [only, looked.mem]⟩
  obtain ⟨acts, mem⟩ := acts
  refine gives_retire (u := wg t s.cur o.d.toNat (loaded o.kind (2 ^ o.width.toNat) y)) hi (rfl : _ = execLd o s) ?_
    ⟨proceeds_retire ((acts.mono (List.nil_subset _)).wg _ (List.mem_singleton_self _)) (by rw [wg_mem, mem]), rg_retire_written _ _ _ _ acts.cur⟩
  rw [beginIssue_of_quiet quiet]
  exact read

/-! ### The raw facet -/

/-- A byte of the raw facet is the scratchpad's (R93). -/
theorem facetDecode_raw {s : State} (log : (ctxOf s s.cur).writeLog = []) (i : Nat) : facetDecode s 0 i = (scratchByte s (coreOf s.cur) i).toNat := by
  have place : facetPos 0 i = 8 * i := rfl
  have byte := (scratchByte s (coreOf s.cur) i).isLt
  unfold facetDecode
  simp only [place, Nat.mul_mod_right, Nat.shiftRight_zero, if_true, Nat.mul_div_cancel_left i (by decide : 0 < 8), seeScratch, log, logOver, List.find?_nil]
  change _ % 2 ^ 8 = _
  omega

section

variable {s : State} {ea : Word} {n : Nat} (log : (ctxOf s s.cur).writeLog = []) (aligned : ea.toNat % n = 0) (execute : isExecute (coreOf s.cur) = true)
  (unfenced : fenced s s.cur 0 = false) (own : ea.toNat / 2 ^ 53 = s.device) (top : 0x1FFFFF00000000 ≤ ea.toNat % 2 ^ 53)
  (inside : ea.toNat % 2 ^ 53 - 0x1FFFFF00000000 + n ≤ 0x40000)
include aligned execute own top inside

theorem readPlace_raw : readPlace s ea n .read = .ok (.facet 0 (ea.toNat % 2 ^ 53 - 0x1FFFFF00000000), s) := by
  have facet : facetOf s ea = some 0 := by
    unfold facetOf
    have below : ea.toNat % 2 ^ 53 < 0x1FFFFF01000000 := by omega
    have first : (ea.toNat % 2 ^ 53 - 0x1FFFFF00000000) / 0x200000 = 0 := by omega
    simp only [own, top, below, first, decide_true, Bool.and_self, if_true]
  have place : (ea.toNat % 2 ^ 53 - 0x1FFFFF00000000) % 0x200000 = ea.toNat % 2 ^ 53 - 0x1FFFFF00000000 := by omega
  have translated : translate s ea .rd = .ok (.facet 0 (ea.toNat % 2 ^ 53 - 0x1FFFFF00000000), s) := by
    unfold translate
    simp only [own, top, facet, execute, place, ne_eq, not_true_eq_false, if_false, if_true, not_false_eq_true, reduceCtorEq, decide_true, Bool.and_self]
  unfold readPlace
  rw [if_neg (not_not.mpr aligned), translated, ok_bind]

include log unfenced

theorem loadTo_raw (sx vec : Bool) (d : Nat) (give : Nat → State → State) : loadTo s ea n .read sx vec d give =
    .ok (give ((List.range n).foldl (fun acc i => acc + (scratchByte s (coreOf s.cur) (ea.toNat % 2 ^ 53 - 0x1FFFFF00000000 + i)).toNat * 2 ^ (8 * i)) 0) s) := by
  have passes : passFence s 0 = .ok () := by rw [passFence, unfenced, if_neg Bool.false_ne_true]
  have checked : facetCheck s ea 0 (ea.toNat % 2 ^ 53 - 0x1FFFFF00000000) n = .ok () := by
    unfold facetCheck
    simp only [aligned, facetElem, facetRange, Nat.mod_one, ne_eq, not_true_eq_false, decide_false, Bool.or_self, Bool.false_eq_true, if_false, Nat.not_lt.mpr inside]
  unfold loadTo
  rw [readPlace_raw aligned execute own top inside, ok_bind]
  simp only [passes, ok_bind, readAt]
  rw [facetRead, checked]
  simp only [facetElem, Nat.div_one, Nat.mul_one, facetDecode_raw log, ok_bind]

end

/-- Settles O25: the byte order by `extract_toNat_step`, the way to the line by `loadTo_ready`, the raw facet by `loadTo_raw`. -/
theorem loadOfCachedLine : Obligations.LoadOfCachedLine := by
  unfold Obligations.LoadOfCachedLine
  refine ⟨?_, ?_⟩
  · intro o s e h x hi quiet log ea n pa aligned narrow same ready
    have pos : 0 < n := Nat.two_pow_pos _
    obtain ⟨u, v, t, looked, only, last, read⟩ := loadTo_ready (n := n) ready rfl aligned pos (aligned_within aligned narrow same) log (o.kind = 1) false o.d.toNat
      (fun y u => wg u u.cur o.d.toNat (loaded o.kind n y))
    have cur : t.cur = s.cur := by rw [last, notBefore, modCtx_cur, only, looked.cur]
    rw [cur] at read
    rw [← loaded_eq o pos (BitVec.isLt _)]
    exact gives_loaded hi quiet looked only (.inl last) read
  · intro o s hi quiet log ea n a aligned execute unfenced own top inside
    rw [← loaded_eq o (Nat.two_pow_pos _) (foldl_bytes_lt (fun i => scratchByte s (coreOf s.cur) (a + i)) n)]
    exact gives_loaded hi quiet (.refl s) rfl (.inr rfl) (loadTo_raw log aligned execute unfenced own top inside _ _ _ _)

/-! ### The bytes that a store writes into a line -/

/-- Byte i of a line's bits. -/
def byteIn (d : BitVec 256) (i : Nat) : Byte := d.extractLsb' (8 * i) 8

/-- A line's bits with byte j written. -/
def putByte (d : BitVec 256) (j : Nat) (b : Byte) : BitVec 256 := (d &&& ~~~((0xFF : BitVec 256) <<< (8 * j))) ||| (b.setWidth 256 <<< (8 * j))

/-- A line's bits with the bytes from j on written. -/
def putList (d : BitVec 256) (j : Nat) : List Byte → BitVec 256
  | [] => d
  | b :: l => putList (putByte d j b) (j + 1) l

theorem byteIn_bit (d : BitVec 256) {i r : Nat} (low : r < 8) : (byteIn d i).getLsbD r = d.getLsbD (8 * i + r) := by
  simp [byteIn, low]

theorem byteIn_putByte {i j : Nat} (b : Byte) (d : BitVec 256) (hi : i < 32) : byteIn (putByte d j b) i = if i = j then b else byteIn d i := by
  have ones (k : Nat) : (0xFF : BitVec 256).getLsbD k = decide (k < 8) := by
    have wide : (0xFF : BitVec 256) = (BitVec.allOnes 8).setWidth 256 := by decide
    rw [wide, BitVec.getLsbD_setWidth, BitVec.getLsbD_allOnes]
    simp only [Bool.and_eq_right_iff_imp, decide_eq_true_eq]
    omega
  refine BitVec.eq_of_getLsbD_eq (fun r low => ?_)
  have here : 8 * i + r < 256 := by omega
  rw [byteIn_bit _ low, putByte]
  simp only [BitVec.getLsbD_or, BitVec.getLsbD_and, BitVec.getLsbD_not, BitVec.getLsbD_shiftLeft, BitVec.getLsbD_setWidth, ones, here, decide_true, Bool.true_and]
  split
  case isTrue same =>
    have at_ : 8 * i + r - 8 * j = r := by omega
    have below : ¬ 8 * i + r < 8 * j := by omega
    have small : r < 256 := by omega
    simp [at_, below, low, small]
  case isFalse other =>
    rw [byteIn_bit _ low]
    rcases Nat.lt_or_gt_of_ne other with before | after
    · have below : 8 * i + r < 8 * j := by omega
      simp [below]
    · have far : ¬ 8 * i + r - 8 * j < 8 := by omega
      have none_ : b.getLsbD (8 * i + r - 8 * j) = false := BitVec.getLsbD_of_ge _ _ (by omega)
      simp [far, none_]

theorem byteIn_putList (l : List Byte) : ∀ (d : BitVec 256) {i j : Nat}, i < 32 → j + l.length ≤ 32 →
    byteIn (putList d j l) i = if j ≤ i ∧ i < j + l.length then l.getD (i - j) 0 else byteIn d i := by
  induction l with
  | nil =>
    intro d i j _ _
    rw [putList, if_neg]
    rintro ⟨above, below⟩
    simp only [List.length_nil, Nat.add_zero] at below
    omega
  | cons b l ih =>
    intro d i j hi fits
    rw [List.length_cons] at fits ⊢
    rw [putList, ih _ hi (by omega), byteIn_putByte b d hi]
    rcases Nat.lt_trichotomy i j with before | rfl | after
    · rw [if_neg (by omega), if_neg (by omega), if_neg (by omega)]
    · rw [if_neg (by omega), if_pos rfl, if_pos (by omega), Nat.sub_self, List.getD_cons_zero]
    · have index : i - j = (i - (j + 1)) + 1 := by omega
      rw [index, List.getD_cons_succ, if_neg (by omega : ¬ i = j)]
      exact if_congr (by omega) rfl rfl

/-- A field of a line whose bytes are those of a number is the number. -/
theorem extract_of_bytes {d : BitVec 256} {j n v : Nat} (bytes : ∀ k < n, byteIn d (j + k) = BitVec.ofNat 8 (v / 256 ^ k)) :
    d.extractLsb' (8 * j) (8 * n) = BitVec.ofNat (8 * n) v := by
  refine BitVec.eq_of_getLsbD_eq (fun i hi => ?_)
  have low : i % 8 < 8 := Nat.mod_lt _ (by decide)
  have split_ : 8 * (j + i / 8) + i % 8 = 8 * j + i := by omega
  have power : 256 ^ (i / 8) = 2 ^ (8 * (i / 8)) := by rw [Nat.pow_mul]
  have bit : (byteIn d (j + i / 8)).getLsbD (i % 8) = v.testBit i := by
    rw [bytes _ (by omega), BitVec.getLsbD_ofNat, power, Nat.testBit_div_two_pow, Nat.add_comm, Nat.div_add_mod]
    simp [low]
  rw [byteIn_bit _ low, split_] at bit
  rw [BitVec.getLsbD_ofNat, ← bit]
  simp [hi]

/-- The field that holds the bytes of a number. -/
theorem extract_putList (d : BitVec 256) {j n : Nat} (v : Nat) (fits : j + n ≤ 32) :
    (putList d j (bytesOf v n)).extractLsb' (8 * j) (8 * n) = BitVec.ofNat (8 * n) v := by
  refine extract_of_bytes (fun k hk => ?_)
  rw [byteIn_putList _ _ (by omega) (by rw [bytesOf_length]; exact fits), bytesOf_length, if_pos (by omega), Nat.add_sub_cancel_left,
    bytesOf_getElem_getD _ (by rw [bytesOf_length]; exact hk), bytesOf_getElem]

/-- The value of a store, of as many bits as it has bytes. -/
theorem ofNat_stored (w : Word) (n : Nat) : BitVec.ofNat (8 * n) (w.toNat % 2 ^ (8 * n)) = w.setWidth (8 * n) :=
  BitVec.eq_of_toNat_eq (by simp)

/-! ### One line of a core set -/

/-- Of the cores' caches, one line was set. -/
structure LineSet (s t : State) (k l : Nat) (y : Line) : Prop where
  only : t = { s with cores := t.cores }
  line : lineOf t k l = some y
  others : ∀ m, m ≠ l → lineOf t k m = lineOf s k m

namespace LineSet

variable {s t u : State} {k l : Nat} {y z : Line}

theorem refl (h : lineOf s k l = some y) : LineSet s s k l y := ⟨rfl, h, fun _ _ => rfl⟩

theorem trans (h : LineSet s t k l y) (g : LineSet t u k l z) : LineSet s u k l z where
  only := by rw [g.only, h.only]
  line := g.line
  others m hm := (g.others m hm).trans (h.others m hm)

end LineSet

theorem setLine_set (s : State) (k l : Nat) (y : Line) : LineSet s (setLine s k l (some y)) k l y where
  only := setLine_cores s k l _
  line := lineOf_setLine_self s k l _
  others m hm := by
    rw [lineOf, setLine, coreAt_modCore_self]
    exact sget_sput_ne none _ (some y) hm

theorem writeLines_set (k : Nat) (l : List Byte) : ∀ {s : State} {pa : Nat} {x : Line}, pa % 32 + l.length ≤ 32 → lineOf s k (pa / 32) = some x →
    LineSet s (writeLines s k pa l) k (pa / 32) { x with data := putList x.data (pa % 32) l, dirty := x.dirty || !l.isEmpty } := by
  induction l with
  | nil =>
    intro s pa x _ cached
    rw [putList, List.isEmpty_nil, Bool.not_true, Bool.or_false]
    exact .refl cached
  | cons b l ih =>
    intro s pa x within cached
    rw [List.length_cons] at within
    have first := setLine_set s k (pa / 32) { x with data := putByte x.data (pa % 32) b, dirty := true }
    have run : writeLines s k pa (b :: l) = writeLines (setLine s k (pa / 32) (some { x with data := putByte x.data (pa % 32) b, dirty := true })) k (pa + 1) l := by
      rw [writeLines, cached]
      rfl
    rw [run]
    cases l with
    | nil => simpa [writeLines, putList] using first
    | cons b' l' =>
      rw [List.length_cons] at within
      have line : (pa + 1) / 32 = pa / 32 := by omega
      have place : (pa + 1) % 32 = pa % 32 + 1 := by omega
      have rest := ih (s := setLine s k (pa / 32) (some { x with data := putByte x.data (pa % 32) b, dirty := true })) (pa := pa + 1)
        (by rw [place, List.length_cons]; omega) (by rw [line]; exact first.line)
      rw [line, place] at rest
      simpa [putList] using first.trans rest

/-- A store to bytes of one cached line writes them there, and marks the line. -/
theorem storeLines_set {s : State} {k va pa : Nat} {l : List Byte} {x : Line} (some_ : l ≠ []) (narrow : l.length < 32) (within : pa % 32 + l.length ≤ 32)
    (cached : lineOf s k (pa / 32) = some x) :
    ∃ y, LineSet (noticeStore s va) (storeLines s k va pa l) k (pa / 32) y ∧ y.data = putList x.data (pa % 32) l ∧ y.dirty = true := by
  have pos : 0 < l.length := List.length_pos_iff.mpr some_
  have noticed : lineOf (noticeStore s va) k (pa / 32) = some x := by rw [noticeStore_only, ← cached]; rfl
  have written := writeLines_set k l within noticed
  have uncovered : ¬ (pa ≤ 32 * (pa / 32) && 32 * (pa / 32) + 32 ≤ pa + l.length) = true := by
    rw [Bool.and_eq_true, decide_eq_true_eq, decide_eq_true_eq]
    omega
  unfold storeLines
  dsimp only
  rw [linesOf_one pos within, cleanLines, List.foldl_cons, List.foldl_nil, written.line]
  dsimp only
  rw [if_neg uncovered, useLines, List.foldl_cons, List.foldl_nil, written.line]
  exact ⟨_, written.trans (setLine_set _ _ _ _), rfl, by simp [some_]⟩

/-! ### The write log -/

/-- Bits set are bits cleared and then set. -/
theorem or_eq_andNot_or (m f : BitVec 256) : m ||| f = m &&& ~~~f ||| f := by
  refine BitVec.eq_of_getLsbD_eq (fun i _ => ?_)
  simp only [BitVec.getLsbD_or, BitVec.getLsbD_and, BitVec.getLsbD_not]
  cases f.getLsbD i <;> simp_all

/-- One byte in the entry of its line. -/
theorem logPut_entry (g : LogLine) {p : LogPlace} {home a : Nat} (v : Byte) (place : g.place = p) (line : g.line = a / 32) :
    logPut [g] p home a 0xFF v = [{ g with data := putByte g.data (a % 32) v, mask := putByte g.mask (a % 32) 0xFF }] := by
  have all : v &&& 0xFF = v := BitVec.and_allOnes
  have wide : (0xFF : Byte).setWidth 256 = (0xFF : BitVec 256) := by decide
  have set : putByte g.mask (a % 32) 0xFF = g.mask ||| (0xFF : BitVec 256) <<< (8 * (a % 32)) := by rw [putByte, wide, ← or_eq_andNot_or]
  have here : ([g].any fun e => e.place = p && e.line = a / 32) = true := by simp [place, line]
  unfold logPut
  dsimp only
  rw [if_pos here, all, List.map_cons, List.map_nil, if_pos (by simp [place, line]), wide, set, putByte]

/-- The first byte of its line opens an entry. -/
theorem logPut_empty (p : LogPlace) (home a : Nat) (v : Byte) :
    logPut [] p home a 0xFF v = [{ place := p, line := a / 32, home := home, data := putByte 0 (a % 32) v, mask := putByte 0 (a % 32) 0xFF }] := by
  have all : v &&& 0xFF = v := BitVec.and_allOnes
  have wide : (0xFF : Byte).setWidth 256 = (0xFF : BitVec 256) := by decide
  have clear (f x : BitVec 256) : 0 &&& f ||| x = x := by simp
  simp only [logPut, List.any_nil, Bool.false_eq_true, if_false, List.nil_append, all, putByte, wide, clear]

theorem logFold_entry {p : LogPlace} {home a : Nat} (l : List Byte) : ∀ (g : LogLine) (k : Nat), g.place = p → g.line = a / 32 → a % 32 + k + l.length ≤ 32 →
    (l.zipIdx k).foldl (fun r e => logPut r p home (a + e.2) 0xFF e.1) [g] =
      [{ g with data := putList g.data (a % 32 + k) l, mask := putList g.mask (a % 32 + k) (List.replicate l.length 0xFF) }] := by
  induction l with
  | nil => exact fun _ _ _ _ _ => rfl
  | cons b l ih =>
    intro g k place line fits
    rw [List.length_cons] at fits ⊢
    have same : (a + k) / 32 = a / 32 := by omega
    have at_ : (a + k) % 32 = a % 32 + k := by omega
    rw [List.zipIdx_cons, List.foldl_cons, logPut_entry g b place (line.trans same.symm), at_,
      ih { g with data := putByte g.data (a % 32 + k) b, mask := putByte g.mask (a % 32 + k) 0xFF } (k + 1) place line (by omega)]
    rfl

/-- A store of a handler with an empty log: one entry, with its bytes and their mask. -/
theorem logFold_empty (p : LogPlace) (home : Nat) {a : Nat} {l : List Byte} (some_ : l ≠ []) (fits : a % 32 + l.length ≤ 32) :
    l.zipIdx.foldl (fun r e => logPut r p home (a + e.2) 0xFF e.1) [] =
      [{ place := p, line := a / 32, home := home, data := putList 0 (a % 32) l, mask := putList 0 (a % 32) (List.replicate l.length 0xFF) }] := by
  cases l with
  | nil => exact absurd rfl some_
  | cons b l =>
    rw [List.length_cons] at fits
    rw [List.zipIdx_cons, List.foldl_cons, Nat.add_zero, logPut_empty,
      logFold_entry l { place := p, line := a / 32, home := home, data := putByte 0 (a % 32) b, mask := putByte 0 (a % 32) 0xFF } (0 + 1) rfl rfl (by omega)]
    rfl

theorem mask_bits {j n : Nat} (fits : j + n ≤ 32) {i : Nat} (hi : i < 256) :
    (putList 0 j (List.replicate n 0xFF)).getLsbD i = decide (8 * j ≤ i ∧ i < 8 * j + 8 * n) := by
  have low : i % 8 < 8 := Nat.mod_lt _ (by decide)
  have ones : ∀ r, r < 8 → (0xFF : Byte).getLsbD r = true := by decide
  have bit := byteIn_bit (putList 0 j (List.replicate n 0xFF)) (i := i / 8) low
  rw [Nat.div_add_mod, byteIn_putList _ _ (by omega) (by rw [List.length_replicate]; exact fits), List.length_replicate] at bit
  rw [← bit]
  split
  case isTrue here =>
    have there : i / 8 - j < n := by omega
    rw [bytesOf_getElem_getD _ (by rw [List.length_replicate]; exact there), List.getElem_replicate, ones _ low]
    exact (decide_eq_true (by omega)).symm
  case isFalse off =>
    have zero : (byteIn 0 (i / 8)).getLsbD (i % 8) = false := by simp [byteIn]
    rw [zero]
    exact (decide_eq_false (by omega)).symm

/-- An empty log has room for what does not cross a line. -/
theorem logFull_empty (p : LogPlace) {a n : Nat} (fits : a % 32 + n ≤ 32) : logFull [] p a n = false := by
  unfold logFull
  have most := List.length_filter_le (fun i => i % 32 = 0 && i < a % 32 + n && !(([] : List LogLine).any (fun e => e.place = p && e.line = (a + i) / 32)))
    (List.range (a % 32 + n + 31))
  rw [List.length_range] at most
  dsimp only
  rw [List.length_nil, Nat.zero_add, decide_eq_false_iff_not]
  omega

/-! ### ST -/

section

variable {s : State} {ea : Word} {e : TlbEntry} {h : TokenHit} {x : Line} {n v pa : Nat} (ready : LineReady s ea .write .wr e h x) (free : FreeToAct s)
  (at_ : pa = leafPa e.page (ea.toNat % 2 ^ 53) e.leaf) (aligned : ea.toNat % n = 0) (pos : 0 < n) (within : pa % 32 + n ≤ 32)
include ready free at_ aligned pos within

theorem memWrite_ready (outside : (ctxOf s s.cur).hmode = false) :
    ∃ u, Looked s u ∧ memWrite s ea n v = .ok (storeLines u (coreOf s.cur) (ea.toNat % 2 ^ 53) pa (bytesOf v n)) := by
  obtain ⟨t, checked⟩ := ready.tokenCheck
  have looked := checked_looked checked
  refine ⟨t, looked, ?_⟩
  have settled : Machine.unsettled t s.cur = false := by rw [looked.unsettled, free.1]
  have mode : (ctxOf t s.cur).hmode = false := by rw [looked.hmode, outside]
  unfold memWrite
  dsimp only
  rw [if_neg (not_not.mpr aligned), ready.translate, ok_bind, ← at_]
  dsimp only
  rw [checked, ok_bind]
  dsimp only
  rw [linesOf_one pos within, mode, if_neg Bool.false_ne_true, List.any_cons, List.any_nil, ready.free_ at_ looked, Bool.or_false, if_neg Bool.false_ne_true,
    lockGate_ok looked free, ok_bind, ready.runs at_ looked, settled, Bool.or_false, if_neg Bool.false_ne_true]

theorem memWrite_inside (inside : (ctxOf s s.cur).hmode = true) (log : (ctxOf s s.cur).writeLog = []) (clean : x.dirty = false) :
    ∃ u, Looked s u ∧ memWrite s ea n v = .ok (logBytes (noticeStore u (ea.toNat % 2 ^ 53)) .memory (leafHome e.leaf pa) pa n v) := by
  obtain ⟨t, checked⟩ := ready.tokenCheck
  have looked := checked_looked checked
  refine ⟨t, looked, ?_⟩
  have kept : writeBackLine (noticeStore t (ea.toNat % 2 ^ 53)) (coreOf s.cur) (pa / 32) = noticeStore t (ea.toNat % 2 ^ 53) := by
    have cached : lineOf (noticeStore t (ea.toNat % 2 ^ 53)) (coreOf s.cur) (pa / 32) = some x := by
      rw [noticeStore_only, ← ready.line at_ looked]
      rfl
    rw [writeBackLine, cached]
    simp [clean]
  have log' : (ctxOf t s.cur).writeLog = [] := by rw [looked.ctx, log]
  have mode : (ctxOf t s.cur).hmode = true := by rw [looked.hmode, inside]
  unfold memWrite
  dsimp only
  rw [if_neg (not_not.mpr aligned), ready.translate, ok_bind, ← at_]
  dsimp only
  rw [checked, ok_bind]
  dsimp only
  rw [linesOf_one pos within, mode, if_pos rfl, log', logFull_empty _ within, if_neg Bool.false_ne_true, outputGate_ok looked free, ok_bind, List.foldl_cons,
    List.foldl_nil, kept]

end

theorem lineOf_retire (i : Instr) (s : State) (npc : Word) (k l : Nat) : lineOf (retire i s npc) k l = lineOf s k l := by
  rw [lineOf, core_retire Core.dcache (fun _ => rfl), lineOf]

/-- Settles O26: the store's bytes in its line by `byteIn_putList`, the handler's in its log by `logFold_empty`. -/
theorem storeToCachedLine : Obligations.StoreToCachedLine := by
  unfold Obligations.StoreToCachedLine
  refine ⟨?outside, ?inside, ?misaligned⟩
  case outside =>
    intro o s e h x hi quiet free outside ea n pa aligned narrow same ready
    have pos : 0 < n := Nat.two_pow_pos _
    have within : pa % 32 + n ≤ 32 := aligned_within aligned narrow same
    have short : n < 32 := Nat.lt_of_le_of_lt (Nat.pow_le_pow_right (by decide) narrow) (by decide)
    obtain ⟨u, looked, run⟩ := memWrite_ready (v := (rg s s.cur o.d.toNat).toNat % 2 ^ (8 * n)) ready free rfl aligned pos within outside
    have some_ : bytesOf ((rg s s.cur o.d.toNat).toNat % 2 ^ (8 * n)) n ≠ [] := List.ne_nil_of_length_pos (by rw [bytesOf_length]; exact pos)
    obtain ⟨y, set, data, dirty⟩ := storeLines_set (va := ea.toNat % 2 ^ 53) some_ (by rw [bytesOf_length]; exact short) (by rw [bytesOf_length]; exact within)
      (ready.line rfl looked)
    generalize storeLines u (coreOf s.cur) (ea.toNat % 2 ^ 53) pa (bytesOf ((rg s s.cur o.d.toNat).toNat % 2 ^ (8 * n)) n) = w at run set
    have only := set.only
    rw [noticeStore_only] at only
    refine gives_retire (u := w) hi (rfl : _ = execSt o s) ?_ ⟨proceeds_retire ((Acts.of_looked hi.1 looked).ctxs (by rw [only]) (by rw [only])) ?_, ⟨y, ?_, dirty, ?_, ?_⟩, ?_⟩
    · rw [beginIssue_of_quiet quiet]
      exact run
    · rw [only, looked.mem]
    · rw [lineOf_retire, set.line]
    · rw [data, extract_putList _ _ within, ofNat_stored]
    · intro i hi off
      have bytes := byteIn_putList (bytesOf ((rg s s.cur o.d.toNat).toNat % 2 ^ (8 * n)) n) x.data hi (by rw [bytesOf_length]; exact within)
      rw [bytesOf_length, if_neg (by omega)] at bytes
      rw [data]
      exact bytes
    · intro l other
      rw [lineOf_retire, set.others l other, ← lineOf_looked looked, noticeStore_only]
      rfl
  case inside =>
    intro o s e h x hi quiet free inside ea n pa aligned narrow same ready clean log
    have pos : 0 < n := Nat.two_pow_pos _
    have within : pa % 32 + n ≤ 32 := aligned_within aligned narrow same
    obtain ⟨u, looked, run⟩ := memWrite_inside (v := (rg s s.cur o.d.toNat).toNat % 2 ^ (8 * n)) ready free rfl aligned pos within inside log clean
    have some_ : bytesOf ((rg s s.cur o.d.toNat).toNat % 2 ^ (8 * n)) n ≠ [] := List.ne_nil_of_length_pos (by rw [bytesOf_length]; exact pos)
    obtain ⟨w, hw⟩ : ∃ w, w = noticeStore u (ea.toNat % 2 ^ 53) := ⟨_, rfl⟩
    have only : w = { u with tokens := w.tokens } := hw ▸ noticeStore_only _ _
    have cur : w.cur = s.cur := by rw [only, looked.cur]
    have empty : (ctxOf w s.cur).writeLog = [] := by
      have kept : (ctxOf u s.cur).writeLog = [] := by rw [looked.ctx, log]
      rw [only]
      exact kept
    rw [← hw] at run
    obtain ⟨l, hl⟩ : ∃ l, l = logBytes w .memory (leafHome e.leaf pa) pa n ((rg s s.cur o.d.toNat).toNat % 2 ^ (8 * n)) := ⟨_, rfl⟩
    have acts : Acts s l [] := hl ▸ ((Acts.of_looked hi.1 looked).ctxs (v := w) (by rw [only]) (by rw [only])).modCtx (fun _ => ⟨rfl, rfl, rfl⟩)
    rw [← hl] at run
    refine gives_retire (u := l) hi (rfl : _ = execSt o s) ?_
      ⟨proceeds_retire acts ?_, ?_,
        { place := .memory, line := pa / 32, home := leafHome e.leaf pa, data := putList 0 (pa % 32) (bytesOf ((rg s s.cur o.d.toNat).toNat % 2 ^ (8 * n)) n),
          mask := putList 0 (pa % 32) (List.replicate (bytesOf ((rg s s.cur o.d.toNat).toNat % 2 ^ (8 * n)) n).length 0xFF) }, ?log, rfl, rfl, ?_, ?_⟩
    case log =>
      have kept := congrArg Ctx.writeLog (ctxKept_retire (.st o) l (nextPc l))
      rw [acts.cur] at kept
      refine kept.trans ?_
      change (ctxOf l s.cur).writeLog = _
      rw [hl, logBytes, cur, ctxOf_modCtx_self]
      dsimp only
      rw [empty, logFold_empty _ _ some_ (by rw [bytesOf_length]; exact within)]
    · rw [beginIssue_of_quiet quiet]
      exact run
    · rw [hl, logBytes, modCtx_mem, only, looked.mem]
    · rw [lineOf_retire, hl, logBytes, ← ready.line rfl looked, only]
      rfl
    · rw [extract_putList _ _ within, ofNat_stored]
    · intro i hi
      rw [bytesOf_length]
      exact mask_bits within hi
  case misaligned =>
    intro o s hi finished _ misaligned
    change execSt o s = _
    unfold execSt
    refine runSeq_takes (u := beginIssue s) hi (beginIssue_cur s) finished ?_
    rw [beginIssue_cur, memWrite]
    have ea : effAddr (beginIssue s) s.cur o = effAddr s s.cur o := by rw [effAddr, rg_beginIssue, rg_beginIssue, effAddr]
    rw [ea]
    exact if_pos misaligned

end Sys2Proof.Machine
end

