-- ==== Sys2Proof/Proofs/TransferAccess.lean ====
section
/-! SUPPORT. O50: the lines that a transfer reads and writes (R340 to R345). -/

namespace Sys2Proof.Machine

/-! ### What is barred from a program's writes -/

section

variable {s t : State} (mem : t.mem = s.mem) (sizes : t.cxlSizes = s.cxlSizes) (root : t.root = s.root) (graphs : t.graphs = s.graphs)
  (regs : t.batchRegs = s.batchRegs) (tokens : t.tokens = s.tokens)
include mem sizes root graphs regs tokens

theorem barsWrite_congr (cls pa : Nat) : barsWrite t cls pa = barsWrite s cls pa := by
  have live : liveGraphs t = liveGraphs s := by rw [liveGraphs, graphs, liveGraphs]
  have holds (va : Nat) : tableHolds t va pa = tableHolds s va pa := by
    simp only [tableHolds, tokenCovering, tokens, translateNow_congr mem sizes root]
  have area (g : Nat) : slotArea t g = slotArea s g := by simp only [slotArea, regs, translateNow_congr mem sizes root]
  have kind (r : GraphRun) (i : Nat) : nodeKind t r i = nodeKind s r i := by rw [nodeKind, nodeWord_congr mem sizes root, nodeKind]
  have record : recordByte t cls pa = recordByte s cls pa := by
    simp only [recordByte, live, kind, nodeWord_congr mem sizes root, holds]
  have status : statusByte t pa = statusByte s pa := by simp only [statusByte, live, translateNow_congr mem sizes root]
  simp only [barsWrite, record, slotByte, area, status]

end

/-! ### What an engine's look at an address changes -/

/-- A state that differs from s in TLBs, in what slices keep of lines, and in the words that other devices have given. -/
structure EngineLooked (s u : State) : Prop where
  only : u = { s with cores := u.cores, clusters := u.clusters, dies := u.dies, slices := u.slices, free := u.free }
  core : ∀ k, coreAt u k = { coreAt s k with tlb := (coreAt u k).tlb }
  cluster : ∀ v, clusterAt u v = { clusterAt s v with tlb := (clusterAt u v).tlb }

namespace EngineLooked

theorem refl (s : State) : EngineLooked s s := ⟨rfl, fun _ => rfl, fun _ => rfl⟩

theorem trans {s t u : State} (h : EngineLooked s t) (k : EngineLooked t u) : EngineLooked s u where
  only := by rw [k.only, h.only]
  core c := by rw [k.core c, h.core c]
  cluster v := by rw [k.cluster v, h.cluster v]

theorem of_sectors {s t : State} (h : SectorsOnly s t) : EngineLooked s t where
  only := by rw [h.only]
  core k := by rw [h.core]
  cluster v := by rw [h.only]; rfl

variable {s u : State} (h : EngineLooked s u)
include h

theorem mem : u.mem = s.mem := by rw [h.only]
theorem cycle : u.cycle = s.cycle := by rw [h.only]
theorem ctxs : u.ctxs = s.ctxs := by rw [h.only]
theorem ctx (c : Nat) : ctxOf u c = ctxOf s c := by rw [ctxOf, h.ctxs, ctxOf]
theorem kept : MemKept s u := memByte_congr h.mem
theorem cxlGone (pa : Nat) : cxlGone u pa = Machine.cxlGone s pa := by rw [Machine.cxlGone, h.only, Machine.cxlGone]
theorem barsWrite (cls pa : Nat) : barsWrite u cls pa = Machine.barsWrite s cls pa := by
  refine barsWrite_congr ?_ ?_ ?_ ?_ ?_ ?_ cls pa
  all_goals rw [h.only]
theorem transfers (v : Nat) : (clusterAt u v).transfers = (clusterAt s v).transfers := by rw [h.cluster]
theorem tileRow (k j r : Nat) : tileRow u k j r = Machine.tileRow s k j r := by rw [Machine.tileRow, h.core, Machine.tileRow]

end EngineLooked

theorem modCore_tlb (s : State) (k : Nat) (f : Core → List TlbEntry) : EngineLooked s (modCore s k (fun x => { x with tlb := f x })) where
  only := rfl
  core j := by
    rw [coreAt_modCore]
    split
    case isTrue same => rw [same]
    case isFalse => rfl
  cluster _ := rfl

theorem tlbLookup_engine {s u : State} {k va n : Nat} {e : TlbEntry} (found : tlbLookup s k va = some (e, n, u)) : EngineLooked s u := by
  unfold tlbLookup at found
  split at found
  case h_1 =>
    cases found
    exact modCore_tlb s k _
  case h_2 =>
    split at found
    case h_1 =>
      cases found
      refine (modCore_tlb s k _).trans ⟨rfl, fun _ => rfl, fun v => ?_⟩
      rw [tlbFill, clusterAt_modCluster]
      split
      case isTrue same => rw [same]
      case isFalse => rfl
    case h_2 => cases found

theorem engineTranslate_page {s u : State} {v va pa n : Nat} {p : Perm} {leaf : Word} (h : engineTranslate s v va p = (.page pa leaf n, u)) : EngineLooked s u := by
  unfold engineTranslate at h
  split at h
  · cases h
  · split at h
    · cases h
    · split at h
      case h_1 => cases h
      case h_2 found =>
        split at h
        · cases h
          exact tlbLookup_engine found
        · cases h

theorem engineAbroad_looked {s u : State} {ea : Word} {codes : List Nat} (h : engineAbroad s ea codes = .ok u) : EngineLooked s u := by
  unfold engineAbroad at h
  simp only [moveFault] at h
  split at h
  · cases h
  · split at h
    · cases h
    · split at h
      · cases h
      · split at h
        · cases h
        · split at h
          · cases h
          · cases h
            exact ⟨rfl, fun _ => rfl, fun _ => rfl⟩

theorem enginePlace_looked {s u : State} {v : Nat} {ea : Word} {write : Bool} {x : Target} (h : enginePlace s v ea write = .ok (x, u)) : EngineLooked s u := by
  unfold enginePlace at h
  dsimp only [moveFault] at h
  split at h
  · cases abroad : engineAbroad s ea (engineCodes write) with
    | error e =>
      rw [abroad] at h
      cases h
    | ok t =>
      rw [abroad] at h
      cases h
      exact engineAbroad_looked abroad
  · split at h
    · cases h
      exact .refl s
    · split at h
      · cases h
      · cases h
      case h_3 page =>
        split at h
        · cases h
        · split at h
          · cases h
            exact engineTranslate_page page
          · cases h

theorem engineRead_looked {s u : State} {v id : Nat} {ea : Word} {x : BitVec 256} (h : engineRead s v id ea = .ok (x, u)) : EngineLooked s u := by
  unfold engineRead at h
  split at h
  · cases h
  case h_2 placed =>
    rw [Except.ok.injEq, Prod.mk.injEq] at h
    exact h.2 ▸ enginePlace_looked placed
  case h_3 placed =>
    dsimp only [moveFault] at h
    split at h
    · cases h
    · split at h
      · cases h
      · rw [Except.ok.injEq, Prod.mk.injEq] at h
        exact h.2 ▸ (enginePlace_looked placed).trans (.of_sectors (reachL2_sectors _ _ _ _ _ _ _))
  case h_4 t _ _ placed =>
    rw [Except.ok.injEq, Prod.mk.injEq] at h
    have given : EngineLooked t { t with free := t.free + 4 } := ⟨rfl, fun _ => rfl, fun _ => rfl⟩
    exact h.2 ▸ (enginePlace_looked placed).trans given

/-! ### A line written -/

/-- A byte with the bits that a mask names replaced. -/
def maskedByte (old : Byte) (x m : BitVec 256) (i : Nat) : Byte := (old &&& ~~~(byteIn m i)) ||| (byteIn x i &&& byteIn m i)

theorem byteIn_ones {i : Nat} (hi : i < 32) : byteIn (BitVec.allOnes 256) i = 0xFF := by
  refine BitVec.eq_of_getLsbD_eq (fun r low => ?_)
  have ones : ∀ r, r < 8 → (0xFF : Byte).getLsbD r = true := by decide
  rw [byteIn_bit _ low, ones r low, BitVec.getLsbD_allOnes, decide_eq_true_eq]
  omega

theorem maskedByte_ones (old : Byte) (x : BitVec 256) {i : Nat} (hi : i < 32) : maskedByte old x (BitVec.allOnes 256) i = byteIn x i := by
  have none_ : ~~~(0xFF : Byte) = 0 := by decide
  have all (b : Byte) : b &&& 0xFF = b := BitVec.and_allOnes
  rw [maskedByte, byteIn_ones hi, none_, all]
  simp

theorem bytesOf_byteIn (x : BitVec 256) {i : Nat} (h : i < (bytesOf x.toNat 32).length) : (bytesOf x.toNat 32)[i] = byteIn x i := by
  apply BitVec.eq_of_toNat_eq
  rw [bytesOf_getElem, byteIn, BitVec.toNat_ofNat, BitVec.extractLsb'_toNat, Nat.shiftRight_eq_div_pow, Nat.pow_mul]

/-- What a program writes where nothing is barred. -/
theorem programWrite_open {s : State} {cls pa : Nat} {l : List Byte} (open_ : ∀ i, i < l.length → barsWrite s cls (pa + i) = false) :
    programWrite s cls pa l = performWrite s pa l := by
  have whole : l.zipIdx.filter (fun e => !(barsWrite s cls (pa + e.2))) = l.zipIdx := by
    refine List.filter_eq_self.mpr (fun e he => ?_)
    have below := (List.mem_zipIdx he).2.1
    rw [open_ e.2 (by omega)]
    rfl
  simp only [programWrite, whole, List.length_zipIdx, if_true]

/-- A state that differs from s in memory, its stamps and its poison marks. -/
structure BytesOnly (s t : State) : Prop where
  only : t = { s with mem := t.mem, poisoned := t.poisoned, stamps := t.stamps }

namespace BytesOnly

theorem refl (s : State) : BytesOnly s s := ⟨rfl⟩
theorem trans {s t u : State} (h : BytesOnly s t) (k : BytesOnly t u) : BytesOnly s u := ⟨by rw [k.only, h.only]⟩
theorem foldl {β : Type} {f : State → β → State} (hf : ∀ t x, BytesOnly t (f t x)) (l : List β) (s : State) : BytesOnly s (l.foldl f s) :=
  List.foldlRecOn (motive := fun u => BytesOnly s u) l f (refl s) (fun u h x _ => h.trans (hf u x))
theorem bumpLine (s : State) (l : Nat) : BytesOnly s (bumpLine s l) := ⟨rfl⟩
theorem setByte (s : State) (pa : Nat) (b : Byte) : BytesOnly s (setByte s pa b) := ⟨rfl⟩

end BytesOnly

theorem performWrite_bytes (s : State) (pa : Nat) (l : List Byte) : BytesOnly s (performWrite s pa l) := by
  have writes (l : List Byte) : ∀ (t : State) (pa : Nat), BytesOnly t (writeMem t pa l) := by
    induction l with
    | nil => exact fun t _ => .refl t
    | cons b l ih => exact fun t pa => (BytesOnly.setByte t pa b).trans (ih _ _)
  have clears (t : State) (n : Nat) : BytesOnly t (clearFull t pa n) := by
    refine .foldl (fun t i => ?_) _ _
    dsimp only
    split
    · exact ⟨rfl⟩
    · exact .refl t
  unfold performWrite
  split
  · exact .refl s
  · exact ((writes l s pa).trans (clears _ _)).trans (.foldl (fun t i => BytesOnly.bumpLine t _) _ _)

theorem memByte_setByte (s : State) (a e : Nat) (b : Byte) : memByte (setByte s a b) e = if e = a then b else memByte s e := by
  split
  case isTrue same => rw [same, memByte_setByte_self]
  case isFalse other => exact memByte_setByte_ne s b other

theorem memByte_setBytes {pa : Nat} {f : Nat → Byte → Byte} (n : Nat) : ∀ t : State,
    let w := (List.range n).foldl (fun t i => setByte t (pa + i) (f i (memByte t (pa + i)))) t
    (∀ i, i < n → memByte w (pa + i) = f i (memByte t (pa + i))) ∧ ∀ a, (a < pa ∨ pa + n ≤ a) → memByte w a = memByte t a := by
  induction n with
  | zero => exact fun t => ⟨fun i h => absurd h (Nat.not_lt_zero i), fun a _ => rfl⟩
  | succ n ih =>
    intro t
    obtain ⟨inside, outside⟩ := ih t
    dsimp only
    rw [List.range_succ, List.foldl_append, List.foldl_cons, List.foldl_nil]
    generalize (List.range n).foldl (fun t i => setByte t (pa + i) (f i (memByte t (pa + i)))) t = w at inside outside
    refine ⟨fun i hi => ?_, fun a ha => ?_⟩
    · rcases Nat.lt_succ_iff_lt_or_eq.mp hi with before | rfl
      · rw [memByte_setByte, if_neg (by omega), inside i before]
      · rw [memByte_setByte, if_pos rfl, outside (pa + i) (.inr (Nat.le_refl _))]
    · rw [memByte_setByte, if_neg (by omega), outside a (by omega)]

/-- What a transfer's write leaves: the line's bytes under the mask. -/
theorem engineWrite_writes {s : State} {v id pd : Nat} {ea : Word} (writes : EngineWrites s v id ea pd) (x m : BitVec 256) :
    ∃ w t, engineWrite s v id ea x m = .ok t ∧ EngineLooked s w ∧ BytesOnly w t ∧
      (∀ i, i < 32 → memByte t (pd + i) = maskedByte (memByte s (pd + i)) x m i) ∧ LineFrame s t pd := by
  obtain ⟨a, l, w, placed, up, open_, there⟩ := writes
  have looked := enginePlace_looked placed
  have sectors := reachL2_sectors w (.engine v id) (leafSlice l pd) pd 32 (leafClass l) true
  obtain ⟨u, hu⟩ : ∃ u, u = (reachL2 w (.engine v id) (leafSlice l pd) pd 32 (leafClass l) true).2 := ⟨_, rfl⟩
  rw [← hu] at sectors
  have both := looked.trans (.of_sectors sectors)
  have reached : reachL2 w (.engine v id) (leafSlice l pd) pd 32 (leafClass l) true = (true, u) := by
    rw [hu]
    exact Prod.ext there rfl
  have bars (i : Nat) (hi : i < 32) : barsWrite u (leafClass l) (pd + i) = false := by rw [(EngineLooked.of_sectors sectors).barsWrite, open_ i hi]
  have up' : cxlGone u pd = false := by rw [sectors.cxlGone, up]
  refine ⟨u, ?_⟩
  unfold engineWrite
  rw [placed]
  dsimp only
  rw [up, if_neg Bool.false_ne_true, reached]
  dsimp only
  rw [Bool.not_true, if_neg Bool.false_ne_true]
  split
  case isTrue ones =>
    refine ⟨_, rfl, both, ?_, fun i hi => ?_, fun e he => ?_⟩
    · rw [programWrite_open (fun i hi => bars i (by rwa [bytesOf_length] at hi))]
      exact performWrite_bytes _ _ _
    · rw [programWrite_open (fun i hi => bars i (by rwa [bytesOf_length] at hi)), memByte_performWrite_inside up' (by rwa [bytesOf_length]), ones, maskedByte_ones _ _ hi]
      exact bytesOf_byteIn x _
    · rw [programWrite_open (fun i hi => bars i (by rwa [bytesOf_length] at hi)), memByte_performWrite_outside _ (by rwa [bytesOf_length]), both.kept]
  case isFalse =>
    have whole : (List.range 32).filter (fun i => !(barsWrite u (leafClass l) (pd + i))) = List.range 32 := by
      refine List.filter_eq_self.mpr (fun i hi => ?_)
      rw [bars i (List.mem_range.mp hi)]
      rfl
    rw [whole]
    obtain ⟨inside, outside⟩ := memByte_setBytes (pa := pd) (f := fun i old => maskedByte old x m i) 32 u
    have bytes : BytesOnly u ((List.range 32).foldl (fun t i => setByte t (pd + i) (maskedByte (memByte t (pd + i)) x m i)) u) :=
      .foldl (fun t i => BytesOnly.setByte t _ _) _ u
    obtain ⟨z, hz⟩ : ∃ z, z = (List.range 32).foldl (fun t i => setByte t (pd + i) (maskedByte (memByte t (pd + i)) x m i)) u := ⟨_, rfl⟩
    rw [← hz] at inside outside bytes
    refine ⟨bumpLine z (pd / 256), ?_, both, bytes.trans (.bumpLine _ _), fun i hi => ?_, fun e he => ?_⟩
    · rw [hz]
      rfl
    · rw [← both.kept]
      exact inside i hi
    · rw [← both.kept]
      exact outside e he

end Sys2Proof.Machine
end

