-- ==== Sys2Proof/Proofs/TransferLines.lean ====
section
/-! SUPPORT. O50: one line of a transfer (R340 to R345). -/

namespace Sys2Proof.Machine

/-! ### The turn of a cluster's only transfer -/

/-- What the turn leaves of the state u in which the line has moved. -/
structure LineMoved (s u t : State) (v : Nat) (z : Transfer) (last : Bool) : Prop where
  mem : t.mem = u.mem
  core : ∀ k, coreAt t k = { coreAt u k with counters := (coreAt t k).counters }
  stream : (clusterAt t v).stream = (clusterAt u v).stream
  engine : (clusterAt t v).engine = (s.cycle, 1)
  goes : last = false → z.step < 2 ^ 64 → (clusterAt t v).transfers = [z]
  ends : last = true → z.owed = [] → (clusterAt t v).transfers = []

theorem endTransfer_stays {s : State} {v : Nat} {z : Transfer} (h : z.step < 2 ^ 64 ∨ z.owed ≠ []) : endTransfer s v z = s := by
  have stays : (z.step < 2 ^ 64 || !z.owed.isEmpty) = true := by
    rw [Bool.or_eq_true, decide_eq_true_eq]
    rcases h with step | owed
    · exact .inl step
    · exact .inr (by simpa using owed)
  rw [endTransfer, if_pos stays]

/-- A state that differs from s in counters of cores, and in contexts. -/
structure CountsOnly (s t : State) : Prop where
  mem : t.mem = s.mem
  core : ∀ k, coreAt t k = { coreAt s k with counters := (coreAt t k).counters }
  cluster : ∀ v, clusterAt t v = clusterAt s v

theorem CountsOnly.trans {s t u : State} (h : CountsOnly s t) (k : CountsOnly t u) : CountsOnly s u where
  mem := k.mem.trans h.mem
  core c := by rw [k.core, h.core]
  cluster v := (k.cluster v).trans (h.cluster v)

theorem modCore_counts (s : State) (k : Nat) (f : Core → Counters) : CountsOnly s (modCore s k (fun x => { x with counters := f x })) where
  mem := rfl
  core j := by
    rw [coreAt_modCore]
    split
    case isTrue same => rw [same]
    case isFalse => rfl
  cluster _ := rfl

theorem modCtxIf_counts (s : State) (b : Bool) (c : Nat) (f : Ctx → Ctx) : CountsOnly s (if b then modCtx s c f else s) := by
  split
  · exact ⟨rfl, fun _ => rfl, fun _ => rfl⟩
  · exact ⟨rfl, fun _ => rfl, fun _ => rfl⟩

/-- The end of a transfer takes it off its cluster's list, counts its bytes at a core, and lets its context go on. -/
theorem endTransfer_counts {s : State} {v : Nat} {z : Transfer} (over_ : 2 ^ 64 ≤ z.step) (none_ : z.owed = []) :
    CountsOnly (dropTransfer s v z.id) (endTransfer s v z) := by
  have ended : (z.step < 2 ^ 64 || !z.owed.isEmpty) = false := by
    rw [none_, decide_eq_false (Nat.not_lt.mpr over_)]
    rfl
  unfold endTransfer
  rw [ended, if_neg Bool.false_ne_true]
  dsimp only
  cases op : z.op with
  | bulk dst src n dup =>
    cases dup
    · exact modCtxIf_counts _ _ _ _
    · exact (modCore_counts _ _ _).trans (modCtxIf_counts _ _ _ _)
  | _ => exact modCtxIf_counts _ _ _ _

theorem transferLine_moves {s u : State} {v : Nat} {y z : Transfer} {last : Bool} (turn : EngineTurn s v y) (step : engineStep s v y = .ok (u, z, last))
    (id : z.id = y.id) (one : (clusterAt u v).transfers = [y]) : Gives (.accessTransferLine v) s (fun t => LineMoved s u t v z last) := by
  obtain ⟨only, may, fresh, -⟩ := turn
  obtain ⟨w, hw⟩ : ∃ w, w = rotateTransfer (modCluster u v (fun x => { x with engine := (s.cycle, 0 + 1) })) v (if last then allMoved z else z) := ⟨_, rfl⟩
  refine ⟨endTransfer w v (if last then allMoved z else z), ?_, ?_⟩
  · change execAccessTransferLine v s = _
    unfold execAccessTransferLine
    dsimp only
    rw [if_neg fresh, if_neg (by decide), only, List.find?_cons, may]
    dsimp only
    rw [step, hw]
  · have name : (if last then allMoved z else z).id = y.id := by
      split
      · exact id
      · exact id
    have list : clusterAt w v = { clusterAt u v with engine := (s.cycle, 1), transfers := [if last then allMoved z else z] } := by
      rw [hw, rotateTransfer, clusterAt_modCluster_self, clusterAt_modCluster_self]
      dsimp only
      rw [one, name]
      simp
    have base : w.mem = u.mem ∧ ∀ k, coreAt w k = coreAt u k := by
      rw [hw]
      exact ⟨rfl, fun _ => rfl⟩
    obtain ⟨mem, core⟩ := base
    by_cases stays : (if last then allMoved z else z).step < 2 ^ 64 ∨ (if last then allMoved z else z).owed ≠ []
    · rw [endTransfer_stays stays]
      refine ⟨mem, fun k => by rw [core], by rw [list], by rw [list], fun goes _ => by rw [list, goes, if_neg Bool.false_ne_true], fun ends owed => ?_⟩
      rw [ends, if_pos rfl] at stays
      exact absurd stays (by simp [allMoved, owed])
    · obtain ⟨long, none_⟩ := not_or.mp stays
      have counts := endTransfer_counts (s := w) (v := v) (Nat.not_lt.mp long) (not_not.mp none_)
      have ended : clusterAt (endTransfer w v (if last then allMoved z else z)) v = { clusterAt u v with engine := (s.cycle, 1), transfers := [] } := by
        rw [counts.cluster, dropTransfer, clusterAt_modCluster_self, list]
        simp
      refine ⟨counts.mem.trans mem, fun k => ?_, by rw [ended], by rw [ended], fun goes low => ?_, fun _ _ => by rw [ended]⟩
      · rw [counts.core, dropTransfer, coreAt_modCluster, core]
      · rw [goes, if_neg Bool.false_ne_true] at long
        exact absurd low long

/-! ### Bytes of a line read back -/

/-- A field of a line, read where the line was written. -/
theorem readMem_field {t : State} {pd : Nat} {x : BitVec 256} (bytes : ∀ i, i < 32 → memByte t (pd + i) = byteIn x i) (n : Nat) : ∀ j, j + n ≤ 32 →
    readMem t (pd + j) n = (x.extractLsb' (8 * j) (8 * n)).toNat := by
  induction n with
  | zero =>
    intro j _
    simp [readMem]
  | succ n ih =>
    intro j fits
    rw [readMem, bytes j (by omega), Nat.add_assoc, ih (j + 1) (by omega), extract_toNat_step, byteIn]

theorem readMem_line {t : State} {pd : Nat} {x : BitVec 256} (bytes : ∀ i, i < 32 → memByte t (pd + i) = byteIn x i) : readMem t pd 32 = x.toNat := by
  have field := readMem_field bytes 32 0 (by decide)
  rw [Nat.add_zero] at field
  rw [field]
  simp

@[simp] theorem moved_bind {α β : Type} (x : α) (f : α → Move β) : (Except.ok x >>= f : Move β) = f x := rfl

/-! ### Writes of whole lines: BULK, a drained queue, GATHER -/

section

variable {s u : State} {v pd : Nat} {y z : Transfer} {last : Bool} {ea : Word} {x : BitVec 256}

/-- A turn that writes a line whole. -/
theorem line_written (turn : EngineTurn s v y) (looked : EngineLooked s u) (writes : EngineWrites u v y.id ea pd) (id : z.id = y.id)
    (step : ∀ t, engineWrite u v y.id ea x (BitVec.allOnes 256) = .ok t → engineStep s v y = .ok (t, z, last)) :
    ∃ w, Gives (.accessTransferLine v) s (fun t => LineMoved s w t v z last ∧ (∀ i, i < 32 → memByte t (pd + i) = byteIn x i) ∧ LineFrame s t pd) := by
  obtain ⟨w, b, written, look, only, bytes, frame⟩ := engineWrite_writes writes x (BitVec.allOnes 256)
  have one : (clusterAt b v).transfers = [y] := by
    have same : clusterAt b v = clusterAt w v := by rw [only.only]; rfl
    rw [same, look.transfers, looked.transfers, turn.1]
  obtain ⟨t, run, moved⟩ := transferLine_moves turn (step b written) id one
  refine ⟨b, t, run, moved, fun i hi => ?_, fun e he => ?_⟩
  · rw [memByte_congr moved.mem, bytes i hi, maskedByte_ones _ _ hi]
  · rw [memByte_congr moved.mem, frame e he, looked.kept]

end

theorem bulk_moves {s u : State} {v n pd : Nat} {y : Transfer} {dst src : Word} {q : Bool} {x : BitVec 256} (turn : EngineTurn s v y) (op : y.op = .bulk dst src n q)
    (read : engineRead s v y.id (src + BitVec.ofNat 64 (32 * y.step)) = .ok (x, u)) (writes : EngineWrites u v y.id (dst + BitVec.ofNat 64 (32 * y.step)) pd) :
    Gives (.accessTransferLine v) s (fun t => readMem t pd 32 = x.toNat ∧ LineFrame s t pd ∧
      (clusterAt t v).engine = (s.cycle, 1) ∧ (n ≤ y.step + 1 → y.owed = [] → (clusterAt t v).transfers = []) ∧
      (y.step + 1 < n → (clusterAt t v).transfers = [{ y with step := y.step + 1 }])) := by
  obtain ⟨w, t, run, moved, bytes, frame⟩ := line_written (z := { y with step := y.step + 1 }) (last := decide (n ≤ y.step + 1)) (x := x) turn (engineRead_looked read) writes rfl
    (fun t written => by
      simp only [engineStep, op, read, moved_bind, written])
  exact ⟨t, run, readMem_line bytes, frame, moved.engine, fun last owed => moved.ends (decide_eq_true last) owed,
    fun more => moved.goes (decide_eq_false (by omega)) turn.2.2.2⟩

/-- A line of a drained queue, written. -/
theorem drained_moves {s : State} {v i pd core port : Nat} {y : Transfer} {ea : Word} (turn : EngineTurn s v y) (op : y.op = .qpush ea core port true)
    (at_ : y.step = i + 1) (writes : EngineWrites s v y.id (ea + BitVec.ofNat 64 (32 * i)) pd) :
    Gives (.accessTransferLine v) s (fun t => LineFrame s t pd ∧ readMem t pd 32 = (y.got.getD i (0, 0)).2.toNat) := by
  obtain ⟨w, t, run, moved, bytes, frame⟩ := line_written (z := { y with step := y.step + 1 }) (last := decide (2 ≤ y.step)) (x := (y.got.getD i (0, 0)).2) turn (.refl s)
    writes rfl (fun t written => by
      have start : ¬ y.step = 0 := by omega
      have back : y.step - 1 = i := by omega
      simp only [engineStep, op, start, back, if_true, if_false, moved_bind, written])
  exact ⟨t, run, frame, readMem_line bytes⟩

/-- The words that GATHER has read, lane by lane. -/
def gatheredWord (y : Transfer) (a : Word) : Nat :=
  match y.got.find? (fun e => e.1 = lineBase a) with
  | some e => (e.2.extractLsb' (8 * (a.toNat % 32)) 32).toNat
  | none => 0

theorem gathered_word {y : Transfer} {base : Word} (lanes : y.idx.length = 16) {i m : Nat} (hi : i < 2) (hm : m < 8) :
    (((gathered y base).getD i 0).extractLsb' (32 * m) 32).toNat = gatheredWord y (base + BitVec.ofInt 64 (4 * (BitVec.ofNat 32 (y.idx.getD (8 * i + m) 0)).toInt)) := by
  have small : ∀ a, gatheredWord y a < 2 ^ 32 := by
    intro a
    unfold gatheredWord
    split
    · exact BitVec.isLt _
    · exact Nat.two_pow_pos _
  obtain ⟨ws, hws⟩ : ∃ ws, ws = (laneList base y.idx).map (gatheredWord y) := ⟨_, rfl⟩
  have length : ws.length = 16 := by rw [hws, List.length_map, laneList, List.length_map, lanes]
  have word : ws.getD (8 * i + m) 0 = gatheredWord y (base + BitVec.ofInt 64 (4 * (BitVec.ofNat 32 (y.idx.getD (8 * i + m) 0)).toInt)) := by
    have here : 8 * i + m < y.idx.length := by omega
    rw [hws, toInt_ofNat_signedN (by decide)]
    simp [laneList, here]
  have field (l : List Nat) (hl : l.length ≤ 8) : ((BitVec.ofNat 256 (packList 32 l)).extractLsb' (32 * m) 32).toNat = l.getD m 0 % 2 ^ 32 := by
    have fits : packList 32 l < 2 ^ 256 := Nat.lt_of_lt_of_le (packList_lt 32 l) (Nat.pow_le_pow_right Nat.two_pos (by omega))
    rw [BitVec.extractLsb'_toNat, BitVec.toNat_ofNat, Nat.mod_eq_of_lt fits, packList_shift]
  have both : gathered y base = [BitVec.ofNat 256 (packList 32 (ws.take 8)), BitVec.ofNat 256 (packList 32 (ws.drop 8))] := by
    rw [hws]
    rfl
  rw [both, ← word]
  have low : ws.getD (8 * i + m) 0 < 2 ^ 32 := by
    rw [word]
    exact small _
  rcases (by omega : i = 0 ∨ i = 1) with rfl | rfl
  · rw [List.getD_cons_zero, field _ (by simp), ← Nat.mod_eq_of_lt low]
    simp [List.getD_eq_getElem?_getD, hm]
  · rw [List.getD_cons_succ, List.getD_cons_zero, field _ (by simp [length]), ← Nat.mod_eq_of_lt low]
    simp [List.getD_eq_getElem?_getD]

end Sys2Proof.Machine
end

