-- ==== Sys2Proof/Proofs/TransferKinds.lean ====
section
/-! SUPPORT. O50: the kinds of transfers (R341 to R345). -/

namespace Sys2Proof.Machine

/-! ### GATHER -/

section

variable {s : State} {v i : Nat} {y : Transfer} {dst base idx : Word} {port : Option (Nat × Nat)} (turn : EngineTurn s v y) (op : y.op = .gather dst base idx port)
include turn op

theorem gather_indices {u : State} {x : BitVec 256} (at_ : y.step = i) (first : i < 2) (read : engineRead s v y.id (idx + BitVec.ofNat 64 (32 * i)) = .ok (x, u)) :
    Gives (.accessTransferLine v) s (fun t => MemKept s t ∧ (clusterAt t v).transfers = [{ y with step := i + 1, idx := y.idx ++ lineWords x }]) := by
  have looked := engineRead_looked read
  obtain ⟨t, run, moved⟩ := transferLine_moves (z := { y with step := i + 1, idx := y.idx ++ lineWords x }) (last := false) turn
    (by simp only [engineStep, op, at_, first, if_true, read, moved_bind]) rfl (looked.transfers v ▸ turn.1)
  exact ⟨t, run, memByte_congr (moved.mem.trans looked.mem), moved.goes rfl (at_ ▸ turn.2.2.2)⟩

theorem gather_lines {u : State} {x : BitVec 256} (at_ : y.step = i + 2) (more : i < (distinct ((laneList base y.idx).map lineBase)).length)
    (read : engineRead s v y.id ((distinct ((laneList base y.idx).map lineBase)).getD i 0) = .ok (x, u)) :
    Gives (.accessTransferLine v) s (fun t => MemKept s t ∧
      (clusterAt t v).transfers = [{ y with step := i + 3, got := y.got ++ [((distinct ((laneList base y.idx).map lineBase)).getD i 0, x)] }]) := by
  have looked := engineRead_looked read
  have late : ¬ i + 2 < 2 := by omega
  have next : i + 2 + 1 = i + 3 := rfl
  obtain ⟨t, run, moved⟩ := transferLine_moves (z := { y with step := i + 3, got := y.got ++ [((distinct ((laneList base y.idx).map lineBase)).getD i 0, x)] })
    (last := false) turn (by simp only [engineStep, op, at_, late, if_false, Nat.add_sub_cancel, more, if_true, read, moved_bind, next]) rfl (looked.transfers v ▸ turn.1)
  exact ⟨t, run, memByte_congr (moved.mem.trans looked.mem), moved.goes rfl (by have long := turn.2.2.2; rw [at_] at long; exact long)⟩

theorem gather_writes {pd : Nat} (none_ : port = none) (at_ : y.step = (distinct ((laneList base y.idx).map lineBase)).length + 2 + i) (two : i < 2)
    (lanes : y.idx.length = 16) (writes : EngineWrites s v y.id (dst + BitVec.ofNat 64 (32 * i)) pd) :
    Gives (.accessTransferLine v) s (fun t => LineFrame s t pd ∧ ∀ m, m < 8 →
      let a := base + BitVec.ofInt 64 (4 * (BitVec.ofNat 32 (y.idx.getD (8 * i + m) 0)).toInt)
      ∀ e, y.got.find? (fun e => e.1 = BitVec.ofNat 64 (a.toNat / 32 * 32)) = some e →
        readMem t (pd + 4 * m) 4 = (e.2.extractLsb' (8 * (a.toNat % 32)) 32).toNat) := by
  obtain ⟨w, t, run, moved, bytes, frame⟩ := line_written (z := { y with step := y.step + 1 }) (last := decide (1 ≤ i)) (x := (gathered y base).getD i 0) turn (.refl s)
    writes rfl (fun t written => by
      have late : ¬ y.step < 2 := by omega
      have past : ¬ y.step - 2 < (distinct ((laneList base y.idx).map lineBase)).length := by omega
      have back : y.step - 2 - (distinct ((laneList base y.idx).map lineBase)).length = i := by omega
      simp only [engineStep, op, none_, late, past, back, if_false, moved_bind, written])
  refine ⟨t, run, frame, ?_⟩
  intro m hm a e found
  have field := readMem_field bytes 4 (4 * m) (by omega)
  have place : 8 * (4 * m) = 32 * m := by omega
  rw [place] at field
  have word : gatheredWord y a = (e.2.extractLsb' (8 * (a.toNat % 32)) 32).toNat := by
    have found' : y.got.find? (fun e => e.1 = lineBase a) = some e := found
    rw [gatheredWord, found']
  rw [field, gathered_word lanes two hm, ← word]

end

/-! ### Lines placed in tiles and in the stream buffer: TLOAD, RGATHER -/

/-- A state that differs from u in tiles and in the stream buffer. -/
structure PlacesOnly (u w : State) : Prop where
  mem : w.mem = u.mem
  ctxs : w.ctxs = u.ctxs
  transfers : ∀ v, (clusterAt w v).transfers = (clusterAt u v).transfers

theorem PlacesOnly.trans {s t u : State} (h : PlacesOnly s t) (k : PlacesOnly t u) : PlacesOnly s u :=
  ⟨k.mem.trans h.mem, k.ctxs.trans h.ctxs, fun v => (k.transfers v).trans (h.transfers v)⟩

/-- Row r of a tile, or bytes from r on in the stream buffer, hold the line x. -/
def PlaceHolds (t : State) (v : Nat) (p : Place) (r : Nat) (x : BitVec 256) : Prop :=
  match p with
  | .tile core tile row => tileRow t (16 * v + core) tile (row + r) = x
  | .stream o => ∀ b, b < 32 → sget 0 (clusterAt t v).stream (o + 32 * r + b) = x.extractLsb' (8 * b) 8

theorem sget_foldl_sput (f : Nat → Byte) (o n : Nat) (m : Store Byte) (a : Nat) :
    sget 0 ((List.range n).foldl (fun m i => sput 0 m (o + i) (f i)) m) a = if o ≤ a ∧ a < o + n then f (a - o) else sget 0 m a := by
  induction n with
  | zero =>
    rw [if_neg (by omega)]
    rfl
  | succ n ih =>
    rw [List.range_succ, List.foldl_append, List.foldl_cons, List.foldl_nil, sget_sput, ih]
    split
    case isTrue here =>
      rw [if_pos (by omega), here, Nat.add_sub_cancel_left]
    case isFalse other => exact if_congr (by omega) rfl rfl

section

variable {u : State} {c v : Nat} (home : vertOf c = v) (alone : (ctxOf u c).lockstep = false) (p : Place) (r : Nat) (x : BitVec 256)
include home alone

omit home in
theorem placeLine_only : PlacesOnly u (placeLine u c p (32 * r) x) := by
  unfold placeLine
  rw [alone, if_neg Bool.false_ne_true, List.foldl_cons, List.foldl_nil]
  cases p with
  | tile core tile row => exact ⟨rfl, rfl, fun _ => rfl⟩
  | stream o =>
    refine ⟨rfl, rfl, fun w => ?_⟩
    rw [clusterAt_modCluster]
    split
    case isTrue same => rw [same]
    case isFalse => rfl

theorem placeLine_holds : PlaceHolds (placeLine u c p (32 * r) x) v p r x := by
  unfold placeLine
  rw [alone, if_neg Bool.false_ne_true, List.foldl_cons, List.foldl_nil, home]
  cases p with
  | tile core tile row =>
    change tileRow (setTileRow u (16 * v + core) tile (row + 32 * r / 32) x) _ _ _ = _
    rw [Nat.mul_div_cancel_left r (by decide : 0 < 32), tileRow, setTileRow, coreAt_modCore_self, sget_sput_self]
  | stream o =>
    intro b hb
    rw [clusterAt_modCluster_self]
    dsimp only
    rw [sget_foldl_sput, if_pos (by omega), Nat.add_sub_cancel_left]

/-- A line placed elsewhere leaves a place that holds the same line. -/
theorem placeLine_keeps {q : Nat} (held : PlaceHolds u v p q x) : PlaceHolds (placeLine u c p (32 * r) x) v p q x := by
  unfold placeLine
  rw [alone, if_neg Bool.false_ne_true, List.foldl_cons, List.foldl_nil, home]
  cases p with
  | tile core tile row =>
    change tileRow (setTileRow u (16 * v + core) tile (row + 32 * r / 32) x) _ _ _ = _
    rw [Nat.mul_div_cancel_left r (by decide : 0 < 32), tileRow, setTileRow, coreAt_modCore_self, sget_sput]
    split
    · rfl
    · exact held
  | stream o =>
    intro b hb
    rw [clusterAt_modCluster_self]
    dsimp only
    rw [sget_foldl_sput]
    split
    case isTrue inside =>
      have same : o + 32 * q + b - (o + 32 * r) = b := by omega
      rw [same]
    case isFalse => exact held b hb

end

theorem placeLines_hold {c v : Nat} (home : vertOf c = v) (p : Place) (x : BitVec 256) (l : List Nat) : ∀ u : State, (ctxOf u c).lockstep = false →
    let w := l.foldl (fun u r => placeLine u c p (32 * r) x) u
    PlacesOnly u w ∧ (∀ q, PlaceHolds u v p q x → PlaceHolds w v p q x) ∧ ∀ r ∈ l, PlaceHolds w v p r x := by
  induction l with
  | nil => exact fun u _ => ⟨⟨rfl, rfl, fun _ => rfl⟩, fun _ h => h, fun _ h => absurd h List.not_mem_nil⟩
  | cons r l ih =>
    intro u alone
    have first := placeLine_only alone p r x
    have alone' : (ctxOf (placeLine u c p (32 * r) x) c).lockstep = false := by
      rw [ctxOf, first.ctxs]
      exact alone
    obtain ⟨only, keeps, holds⟩ := ih _ alone'
    refine ⟨first.trans only, fun q held => keeps q (placeLine_keeps home alone p r x held), fun q hq => ?_⟩
    rcases List.mem_cons.mp hq with rfl | later
    · exact keeps q (placeLine_holds home alone p q x)
    · exact holds q later

/-- What a turn leaves of the lines placed. -/
theorem LineMoved.holds {s u t : State} {v : Nat} {z : Transfer} {last : Bool} (moved : LineMoved s u t v z last) {p : Place} {r : Nat} {x : BitVec 256}
    (held : PlaceHolds u v p r x) : PlaceHolds t v p r x := by
  cases p with
  | tile core tile row =>
    rw [PlaceHolds, tileRow, moved.core]
    exact held
  | stream o =>
    intro b hb
    rw [moved.stream]
    exact held b hb

/-- The places of a line, as the statement says them. -/
theorem PlaceHolds.tile_stream {t : State} {v : Nat} {p : Place} {r : Nat} {x : BitVec 256} (held : PlaceHolds t v p r x) :
    (∀ core tile row, p = .tile core tile row → tileRow t (16 * v + core) tile (row + r) = x) ∧
      ∀ o, p = .stream o → ∀ i, i < 32 → sget 0 (clusterAt t v).stream (o + 32 * r + i) = x.extractLsb' (8 * i) 8 := by
  refine ⟨fun core tile row hp => ?_, fun o hp => ?_⟩
  · rw [hp] at held
    exact held
  · rw [hp] at held
    exact held

theorem tload_moves {s u : State} {v n : Nat} {y : Transfer} {src : Word} {dst : Place} {x : BitVec 256} (turn : EngineTurn s v y) (op : y.op = .tload src dst n)
    (read : engineRead s v y.id (src + BitVec.ofNat 64 (32 * y.step)) = .ok (x, u)) (home : vertOf y.ctx = v) (alone : (ctxOf u y.ctx).lockstep = false) :
    Gives (.accessTransferLine v) s (fun t => MemKept s t ∧
      (∀ core tile row, dst = .tile core tile row → tileRow t (16 * v + core) tile (row + y.step) = x) ∧
      (∀ o, dst = .stream o → ∀ i, i < 32 → sget 0 (clusterAt t v).stream (o + 32 * y.step + i) = x.extractLsb' (8 * i) 8) ∧
      (y.step + 1 < n → (clusterAt t v).transfers = [{ y with step := y.step + 1, owed := if y.barrier = 0 then [] else y.owed ++ [32] }])) := by
  have looked := engineRead_looked read
  have only := placeLine_only alone dst y.step x
  obtain ⟨t, run, moved⟩ := transferLine_moves (u := placeLine u y.ctx dst (32 * y.step) x)
    (z := { y with step := y.step + 1, owed := if y.barrier = 0 then [] else y.owed ++ [32] }) (last := decide (n ≤ y.step + 1)) turn
    (by simp only [engineStep, op, read, moved_bind]) rfl (by rw [only.transfers, looked.transfers, turn.1])
  obtain ⟨tile, stream⟩ := (moved.holds (placeLine_holds home alone dst y.step x)).tile_stream
  exact ⟨t, run, memByte_congr (moved.mem.trans (only.mem.trans looked.mem)), tile, stream, fun more => moved.goes (decide_eq_false (by omega)) turn.2.2.2⟩

theorem rgather_moves {s u : State} {v rows rowLines i : Nat} {y : Transfer} {base idx : Word} {dst : Place} {x : BitVec 256} (turn : EngineTurn s v y)
    (op : y.op = .rgather base idx rows rowLines dst) (at_ : y.step = (idx.toNat % 32 / 4 + rows + 7) / 8 + i) {list : List Nat}
    (hl : list = (y.idx.drop (idx.toNat % 32 / 4)).take rows) {row : Nat} (hrow : row = (distinct list).getD (i / rowLines) 0)
    (read : engineRead s v y.id (base + BitVec.ofNat 64 (row * (32 * rowLines)) + BitVec.ofNat 64 (32 * (i % rowLines))) = .ok (x, u))
    (home : vertOf y.ctx = v) (alone : (ctxOf u y.ctx).lockstep = false) :
    Gives (.accessTransferLine v) s (fun t => MemKept s t ∧ ∀ p, p < list.length → list.getD p 0 = row → PlaceHolds t v dst (p * rowLines + i % rowLines) x) := by
  have looked := engineRead_looked read
  have skip : idx.toNat - idx.toNat / 32 * 32 = idx.toNat % 32 := by omega
  have late : ¬ y.step < (idx.toNat % 32 / 4 + rows + 7) / 8 := by omega
  have back : y.step - (idx.toNat % 32 / 4 + rows + 7) / 8 = i := by omega
  obtain ⟨places, hp⟩ : ∃ places, places = list.zipIdx.filter (fun e => e.1 = row) := ⟨_, rfl⟩
  obtain ⟨only, -, holds⟩ := placeLines_hold home dst x (places.map (fun e => e.2 * rowLines + i % rowLines)) u alone
  rw [List.foldl_map] at only holds
  obtain ⟨t, run, moved⟩ := transferLine_moves (u := places.foldl (fun u e => placeLine u y.ctx dst (32 * (e.2 * rowLines + i % rowLines)) x) u)
    (z := { y with step := y.step + 1, owed := if y.barrier = 0 then [] else y.owed ++ [32 * places.length] })
    (last := decide ((distinct list).length * rowLines ≤ i + 1)) turn
    (by simp only [engineStep, op, skip, late, if_false, back, ← hl, ← hrow, read, moved_bind, ← hp]) rfl (by rw [only.transfers, looked.transfers, turn.1])
  refine ⟨t, run, memByte_congr (moved.mem.trans (only.mem.trans looked.mem)), fun p inside here => moved.holds (holds _ (List.mem_map.mpr ⟨(row, p), ?_, rfl⟩))⟩
  rw [hp, List.mem_filter]
  refine ⟨List.mem_zipIdx_iff_getElem?.mpr ?_, by simp⟩
  rw [List.getD_eq_getElem?_getD, List.getElem?_eq_getElem inside] at here
  rw [List.getElem?_eq_getElem inside, ← here]
  rfl

/-! ### SCATTER -/

/-- A line's bits with word q written. -/
def putWord (d : BitVec 256) (q w : Nat) : BitVec 256 := (d &&& ~~~((0xFFFFFFFF : BitVec 256) <<< (8 * (4 * q)))) ||| (BitVec.ofNat 256 w <<< (8 * (4 * q)))

theorem byteIn_putWord (d : BitVec 256) {q w k : Nat} (low : w < 2 ^ 32) (hk : k < 32) :
    byteIn (putWord d q w) k = if k / 4 = q then BitVec.ofNat 8 (w / 256 ^ (k % 4)) else byteIn d k := by
  have ones (j : Nat) : (0xFFFFFFFF : BitVec 256).getLsbD j = decide (j < 32) := by
    have wide : (0xFFFFFFFF : BitVec 256) = (BitVec.allOnes 32).setWidth 256 := by decide
    rw [wide, BitVec.getLsbD_setWidth, BitVec.getLsbD_allOnes]
    simp only [Bool.and_eq_right_iff_imp, decide_eq_true_eq]
    omega
  refine BitVec.eq_of_getLsbD_eq (fun r hr => ?_)
  have here : 8 * k + r < 256 := by omega
  rw [byteIn_bit _ hr, putWord]
  simp only [BitVec.getLsbD_or, BitVec.getLsbD_and, BitVec.getLsbD_not, BitVec.getLsbD_shiftLeft, BitVec.getLsbD_ofNat, ones, here, decide_true, Bool.true_and]
  split
  case isTrue same =>
    have from_ : 8 * k + r - 8 * (4 * q) = 8 * (k % 4) + r := by omega
    have above : ¬ 8 * k + r < 8 * (4 * q) := by omega
    have inside : 8 * (k % 4) + r < 32 := by omega
    have room : 8 * (k % 4) + r < 256 := by omega
    have power : 256 ^ (k % 4) = 2 ^ (8 * (k % 4)) := by rw [Nat.pow_mul]
    rw [from_, power, BitVec.getLsbD_ofNat, Nat.testBit_div_two_pow, Nat.add_comm r]
    simp [above, inside, room, hr]
  case isFalse other =>
    rw [byteIn_bit _ hr]
    rcases Nat.lt_or_ge (8 * k + r) (8 * (4 * q)) with before | after
    · simp [before]
    · have far : ¬ 8 * k + r - 8 * (4 * q) < 32 := by omega
      have none_ : w.testBit (8 * k + r - 8 * (4 * q)) = false :=
        Nat.testBit_lt_two_pow (Nat.lt_of_lt_of_le low (Nat.pow_le_pow_right Nat.two_pos (by omega)))
      simp [far, none_]

/-- One lane of SCATTER in a line: its word and its mask. -/
def scatterStep (line : Word) (a : BitVec 256 × BitVec 256) (e : Word × Nat) : BitVec 256 × BitVec 256 :=
  if lineBase e.1 ≠ line then a else (putWord a.1 (e.1.toNat % 32 / 4) e.2, putWord a.2 (e.1.toNat % 32 / 4) 0xFFFFFFFF)

theorem scattered_eq {y : Transfer} {base line : Word} (aligned : ∀ a ∈ laneList base y.idx, a.toNat % 4 = 0) :
    scattered y base line = ((laneList base y.idx).zip (y.got.flatMap (fun e => lineWords e.2))).foldl (scatterStep line) (0, 0) := by
  unfold scattered
  refine List.foldl_ext _ _ _ (fun a e he => ?_)
  have whole : e.1.toNat % 32 = 4 * (e.1.toNat % 32 / 4) := by
    have four := aligned e.1 (List.of_mem_zip he).1
    omega
  rw [scatterStep]
  split
  · rfl
  · dsimp only
    rw [putWord, putWord, ← whole, or_eq_andNot_or a.2]
    rfl

/-- A word of a line that no lane of a list writes stays. -/
theorem scatter_keeps {line : Word} {k : Nat} (hk : k < 32) (l : List (Word × Nat)) : ∀ a : BitVec 256 × BitVec 256,
    (∀ e ∈ l, lineBase e.1 = line → k / 4 ≠ e.1.toNat % 32 / 4) → (∀ e ∈ l, e.2 < 2 ^ 32) →
    byteIn (l.foldl (scatterStep line) a).1 k = byteIn a.1 k ∧ byteIn (l.foldl (scatterStep line) a).2 k = byteIn a.2 k := by
  induction l with
  | nil => exact fun _ _ _ => ⟨rfl, rfl⟩
  | cons e l ih =>
    intro a off low
    obtain ⟨data, mask⟩ := ih (scatterStep line a e) (fun d hd => off d (List.mem_cons_of_mem _ hd)) (fun d hd => low d (List.mem_cons_of_mem _ hd))
    rw [List.foldl_cons, data, mask, scatterStep]
    split
    case isTrue => exact ⟨rfl, rfl⟩
    case isFalse here =>
      have other := off e List.mem_cons_self (not_not.mp here)
      rw [byteIn_putWord _ (low e List.mem_cons_self) hk, if_neg other, byteIn_putWord _ (by decide) hk, if_neg other]
      exact ⟨rfl, rfl⟩

/-- The word of the last lane at its place stands in the line. -/
theorem scatter_writes {line : Word} {k : Nat} (hk : k < 32) {l r : List (Word × Nat)} {e : Word × Nat} (here : lineBase e.1 = line) (at_ : k / 4 = e.1.toNat % 32 / 4)
    (off : ∀ d ∈ r, lineBase d.1 = line → k / 4 ≠ d.1.toNat % 32 / 4) (low : ∀ d ∈ l ++ e :: r, d.2 < 2 ^ 32) :
    byteIn ((l ++ e :: r).foldl (scatterStep line) (0, 0)).1 k = BitVec.ofNat 8 (e.2 / 256 ^ (k % 4)) ∧
      byteIn ((l ++ e :: r).foldl (scatterStep line) (0, 0)).2 k = 0xFF := by
  obtain ⟨data, mask⟩ := scatter_keeps hk r (scatterStep line (l.foldl (scatterStep line) (0, 0)) e) off (fun d hd => low d (by simp [hd]))
  rw [List.foldl_append, List.foldl_cons, data, mask, scatterStep, if_neg (not_not.mpr here), byteIn_putWord _ (low e (by simp)) hk, if_pos at_,
    byteIn_putWord _ (by decide) hk, if_pos at_]
  have ones : ∀ j, j < 4 → BitVec.ofNat 8 (0xFFFFFFFF / 256 ^ j) = (0xFF : Byte) := by decide
  exact ⟨rfl, ones _ (Nat.mod_lt _ (by decide))⟩

theorem lane_aligned {base : Word} (aligned : base.toNat % 4 = 0) (i : Int) : (base + BitVec.ofInt 64 (4 * i)).toNat % 4 = 0 := by
  rw [BitVec.toNat_add, BitVec.toNat_ofInt]
  omega

/-- Lane m of SCATTER: its address and its word. -/
def scatterLane (y : Transfer) (base : Word) (m : Nat) : Word × Nat :=
  (base + BitVec.ofInt 64 (4 * (BitVec.ofNat 32 (y.idx.getD m 0)).toInt), ((y.got.getD (m / 8) (0, 0)).2.extractLsb' (32 * (m % 8)) 32).toNat)

theorem lineWords_flat {y : Transfer} (two : y.got.length = 2) : y.got.flatMap (fun e => lineWords e.2) =
    (List.range 16).map (fun m => ((y.got.getD (m / 8) (0, 0)).2.extractLsb' (32 * (m % 8)) 32).toNat) := by
  obtain ⟨a, b, hab⟩ := List.length_eq_two.mp two
  rw [hab]
  rfl

theorem scatterLanes {y : Transfer} {base : Word} (sixteen : y.idx.length = 16) (two : y.got.length = 2) :
    (laneList base y.idx).zip (y.got.flatMap (fun e => lineWords e.2)) = (List.range 16).map (scatterLane y base) := by
  rw [lineWords_flat two]
  refine List.ext_getElem (by simp [laneList, sixteen]) (fun m h1 h2 => ?_)
  rw [List.length_map, List.length_range] at h2
  have here : m < y.idx.length := by omega
  rw [List.getElem_zip, List.getElem_map, List.getElem_map, List.getElem_range, scatterLane, toInt_ofNat_signedN (by decide)]
  simp [laneList, here]

theorem lineBase_eq {a b : Word} (h : lineBase a = lineBase b) : a.toNat / 32 = b.toNat / 32 := by
  have same := congrArg BitVec.toNat h
  rw [lineBase, lineBase, BitVec.toNat_ofNat, BitVec.toNat_ofNat] at same
  have ha := a.isLt
  have hb := b.isLt
  omega

theorem scatter_moves {s : State} {v pd : Nat} {y : Transfer} {base data idx line : Word} (turn : EngineTurn s v y) (op : y.op = .scatter base data idx)
    (aligned : base.toNat % 4 = 0) (late : 4 ≤ y.step) (sixteen : y.idx.length = 16) (two : y.got.length = 2)
    (hline : line = (distinct ((laneList base y.idx).map lineBase)).getD (y.step - 4) 0) (writes : EngineWrites s v y.id line pd) :
    Gives (.accessTransferLine v) s (fun t => LineFrame s t pd ∧
      (∀ m, m < 16 → lineBase (scatterLane y base m).1 = line → (∀ k, m < k → k < 16 → (scatterLane y base k).1 ≠ (scatterLane y base m).1) →
        readMem t (pd + (scatterLane y base m).1.toNat % 32) 4 = (scatterLane y base m).2) ∧
      ∀ i, i < 32 → (∀ m, m < 16 → lineBase (scatterLane y base m).1 = line → i / 4 ≠ (scatterLane y base m).1.toNat % 32 / 4) → memByte t (pd + i) = memByte s (pd + i)) := by
  have low (m : Nat) : (scatterLane y base m).2 < 2 ^ 32 := BitVec.isLt _
  have four (m : Nat) : (scatterLane y base m).1.toNat % 4 = 0 := lane_aligned aligned _
  have lanes : ∀ a ∈ laneList base y.idx, a.toNat % 4 = 0 := by
    intro a ha
    obtain ⟨i, -, rfl⟩ := List.mem_map.mp ha
    exact lane_aligned aligned _
  have both := scattered_eq (line := line) lanes
  rw [scatterLanes sixteen two] at both
  obtain ⟨w, b, written, look, only, bytes, frame⟩ := engineWrite_writes writes (scattered y base line).1 (scattered y base line).2
  have notIndex : ¬ y.step < 2 := by omega
  have notData : ¬ y.step < 4 := by omega
  obtain ⟨t, run, moved⟩ := transferLine_moves (u := b) (z := { y with step := y.step + 1 }) (last := decide ((distinct ((laneList base y.idx).map lineBase)).length ≤ y.step - 3)) turn
    (by simp only [engineStep, op, notIndex, notData, if_false, ← hline, written, moved_bind]) rfl (by
      have same : clusterAt b v = clusterAt w v := by rw [only.only]; rfl
      rw [same, look.transfers, turn.1])
  have after (a : Nat) : memByte t a = memByte b a := memByte_congr moved.mem a
  refine ⟨t, run, fun e he => (after e).trans (frame e he), fun m hm inLine last => ?_, fun i hi off => ?_⟩
  · have cut : (List.range 16).map (scatterLane y base) = (List.range m).map (scatterLane y base) ++ scatterLane y base m ::
        ((List.range (15 - m)).map (fun j => scatterLane y base (m + 1 + j))) := by
      refine List.ext_getElem (by simp; omega) (fun k h1 h2 => ?_)
      rw [List.length_map, List.length_range] at h1
      rcases Nat.lt_trichotomy k m with before | rfl | behind
      · rw [List.getElem_append_left (by simpa using before)]
        simp
      · rw [List.getElem_append_right (by simp)]
        simp
      · obtain ⟨j, rfl⟩ := Nat.exists_eq_add_of_lt behind
        rw [List.getElem_append_right (by simp; omega)]
        have index : m + j + 1 - m = j + 1 := by omega
        have name : m + 1 + j = m + j + 1 := by omega
        simp [index, name]
    have field : ∀ j, j < 4 → memByte t (pd + (scatterLane y base m).1.toNat % 32 + j) = BitVec.ofNat 8 ((scatterLane y base m).2 / 256 ^ j) := by
      intro j hj
      have place := four m
      have word : ((scatterLane y base m).1.toNat % 32 + j) / 4 = (scatterLane y base m).1.toNat % 32 / 4 := by omega
      have byte : ((scatterLane y base m).1.toNat % 32 + j) % 4 = j := by omega
      obtain ⟨value, mask⟩ := scatter_writes (k := (scatterLane y base m).1.toNat % 32 + j) (l := (List.range m).map (scatterLane y base))
        (r := (List.range (15 - m)).map (fun j => scatterLane y base (m + 1 + j))) (by omega) inLine word (by
          intro d hd hline'
          obtain ⟨i, hi, rfl⟩ := List.mem_map.mp hd
          have other := last (m + 1 + i) (by omega) (by have := List.mem_range.mp hi; omega)
          have line' := lineBase_eq (hline'.trans inLine.symm)
          have there := four (m + 1 + i)
          intro same
          exact other (BitVec.eq_of_toNat_eq (by omega))) (by
          intro d hd
          rw [← cut] at hd
          obtain ⟨i, -, rfl⟩ := List.mem_map.mp hd
          exact low i)
      rw [← cut, ← both, byte] at value
      rw [← cut, ← both] at mask
      rw [Nat.add_assoc, after, bytes _ (by omega), maskedByte, value, mask]
      have none_ : ~~~(0xFF : Byte) = 0 := by decide
      have all (b : Byte) : b &&& 0xFF = b := BitVec.and_allOnes
      rw [none_, all]
      simp
    rw [readMem_of_bytes 4 _ (scatterLane y base m).2 (fun j hj => by rw [field j (by simpa using hj), bytesOf_getElem]), Nat.mod_eq_of_lt (low m)]
  · obtain ⟨-, mask⟩ := scatter_keeps hi ((List.range 16).map (scatterLane y base)) (0, 0) (by
      intro e he
      obtain ⟨m, hm, rfl⟩ := List.mem_map.mp he
      exact off m (List.mem_range.mp hm)) (by
      intro e he
      obtain ⟨m, -, rfl⟩ := List.mem_map.mp he
      exact low m)
    have zero : byteIn 0 i = 0 := by simp [byteIn]
    rw [← both, zero] at mask
    rw [after, bytes i hi, maskedByte, mask]
    have ones : ~~~(0 : Byte) = 0xFF := by decide
    have all (b : Byte) : b &&& 0xFF = b := BitVec.and_allOnes
    rw [ones, all]
    simp

/-! ### Queues -/

theorem holdParked_clusters (u : State) (k : Nat) (w : Stall) : (holdParked u k w).mem = u.mem ∧ (holdParked u k w).clusters = u.clusters ∧ (holdParked u k w).cores = u.cores := by
  unfold holdParked
  refine foldl_keeps (P := fun t => t.mem = u.mem ∧ t.clusters = u.clusters ∧ t.cores = u.cores) (fun t i same => ?_) _ ⟨rfl, rfl, rfl⟩
  exact same

/-- An entry put into a queue with room wakes no transfer. -/
theorem setQIn_room {s : State} {k j : Nat} (l : List Vec) (room : (qInOf s k j).length < 16) : (setQIn s k j l).mem = s.mem ∧ (setQIn s k j l).clusters = s.clusters := by
  have short : (16 ≤ (qInOf s k j).length && l.length < 16) = false := by
    rw [decide_eq_false (by omega), Bool.false_and]
  unfold setQIn
  dsimp only
  rw [short, if_neg Bool.false_ne_true]
  split
  · obtain ⟨mem, clusters, -⟩ := holdParked_clusters (modCore s k (fun x => { x with qIn := sput [] x.qIn j l })) k (.qPop j)
    exact ⟨mem, clusters⟩
  · exact ⟨rfl, rfl⟩

/-- An entry taken from a queue wakes no transfer. -/
theorem setQOut_rest {s : State} {k j : Nat} (l : List Vec) (some_ : qOutOf s k j ≠ []) :
    (setQOut s k j l).mem = s.mem ∧ (setQOut s k j l).clusters = s.clusters ∧ qOutOf (setQOut s k j l) k j = l := by
  have held : ((qOutOf s k j).isEmpty && !l.isEmpty) = false := by
    rw [List.isEmpty_eq_false_iff.mpr some_, Bool.false_and]
  have set : qOutOf (modCore s k (fun x => { x with qOut := sput [] x.qOut j l })) k j = l := by rw [qOutOf, coreAt_modCore_self, sget_sput_self]
  unfold setQOut
  dsimp only
  rw [held, if_neg Bool.false_ne_true]
  split
  · obtain ⟨mem, clusters, cores⟩ := holdParked_clusters (modCore s k (fun x => { x with qOut := sput [] x.qOut j l })) k (.qPush j)
    exact ⟨mem, clusters, by rw [qOutOf, coreAt, cores]; exact set⟩
  · exact ⟨rfl, rfl, set⟩

section

variable {s : State} {v core port : Nat} {y : Transfer} {ea : Word} (turn : EngineTurn s v y)
include turn

theorem qpush_pushes (op : y.op = .qpush ea core port false) (at_ : y.step = 2) (alive : (coreAt s core).killed = false)
    (stands : (coreAt s core).queuesLost.contains port = false) (room : (qInOf s core port).length < 16) :
    Gives (.accessTransferLine v) s (fun t => MemKept s t ∧ ∃ x, qInOf t core port = qInOf s core port ++ [x] ∧
      ∀ i, i < 2 → i < y.got.length → x.extractLsb' (256 * i) 256 = (y.got.getD i (0, 0)).2) := by
  obtain ⟨x, hx⟩ : ∃ x : Vec, x = BitVec.ofNat 512 (packList 256 (y.got.map (fun e => e.2.toNat))) := ⟨_, rfl⟩
  have pushed : enginePush s core port x = .ok (setQIn s core port (qInOf s core port ++ [x])) := by
    rw [enginePush, alive, stands, Bool.or_self, if_neg Bool.false_ne_true, if_neg (by omega)]
  obtain ⟨mem, clusters⟩ := setQIn_room (qInOf s core port ++ [x]) room
  obtain ⟨t, run, moved⟩ := transferLine_moves (u := setQIn s core port (qInOf s core port ++ [x])) (z := { y with step := y.step + 1 }) (last := true) turn
    (by simp [engineStep, op, at_, ← hx, pushed, moved_bind]) rfl (by rw [clusterAt, clusters]; exact turn.1)
  refine ⟨t, run, memByte_congr (moved.mem.trans mem), x, ?_, fun i hi inside => ?_⟩
  · rw [qInOf, moved.core]
    exact (qInOf_setQIn s core port _ port).trans (if_pos rfl)
  · have part : (packList 256 (y.got.map (fun e => e.2.toNat)) >>> (256 * i)) % 2 ^ 256 = (y.got.getD i (0, 0)).2.toNat := by
      rw [packList_shift]
      simp only [List.getD_eq_getElem?_getD, List.getElem?_map, List.getElem?_eq_getElem inside, Option.map_some, Option.getD_some]
      exact Nat.mod_eq_of_lt (BitVec.isLt _)
    apply BitVec.eq_of_toNat_eq
    rw [hx, BitVec.extractLsb'_toNat, BitVec.toNat_ofNat, ← part, Nat.shiftRight_eq_div_pow, Nat.shiftRight_eq_div_pow]
    rcases (by omega : i = 0 ∨ i = 1) with rfl | rfl <;> omega

theorem qpush_waits (op : y.op = .qpush ea core port false) (at_ : y.step = 2) (alive : (coreAt s core).killed = false)
    (stands : (coreAt s core).queuesLost.contains port = false) (full : (qInOf s core port).length = 16) :
    Gives (.accessTransferLine v) s (fun t => (clusterAt t v).transfers = [y] ∧ qInOf t core port = qInOf s core port) := by
  obtain ⟨only, may, fresh, -⟩ := turn
  have parked : engineStep s v y = .error .park := by
    have push (x : Vec) : enginePush s core port x = .error .park := by
      rw [enginePush, alive, stands, Bool.or_self, if_neg Bool.false_ne_true, if_pos (by omega)]
    simp only [engineStep, op, at_, push, Bool.false_eq_true, if_false, Nat.lt_irrefl]
    rfl
  refine ⟨modCluster s v (fun x => { x with transfers := y :: x.transfers.filter (fun z => z.id ≠ y.id) }), ?_, ?_, rfl⟩
  · change execAccessTransferLine v s = _
    unfold execAccessTransferLine
    dsimp only
    rw [if_neg fresh, if_neg (by decide), only, List.find?_cons, may]
    dsimp only
    rw [parked]
  · rw [clusterAt_modCluster_self, only]
    simp

theorem drain_takes (op : y.op = .qpush ea core port true) (at_ : y.step = 0) {x : Vec} {l : List Vec} (entries : qOutOf s core port = x :: l) :
    Gives (.accessTransferLine v) s (fun t => MemKept s t ∧ qOutOf t core port = l ∧
      (clusterAt t v).transfers = [{ y with step := 1, got := [(0, x.extractLsb' 0 256), (0, x.extractLsb' 256 256)] }]) := by
  obtain ⟨mem, clusters, taken⟩ := setQOut_rest l (by rw [entries]; exact List.cons_ne_nil x l)
  have low : x.setWidth 256 = x.extractLsb' 0 256 := BitVec.eq_of_toNat_eq (by simp)
  obtain ⟨t, run, moved⟩ := transferLine_moves (u := setQOut s core port l) (z := { y with step := 1, got := [(0, x.extractLsb' 0 256), (0, x.extractLsb' 256 256)] })
    (last := false) turn (by simp only [engineStep, op, at_, if_true, entries, low, Nat.zero_add]) rfl (by rw [clusterAt, clusters]; exact turn.1)
  refine ⟨t, run, memByte_congr (moved.mem.trans mem), ?_, moved.goes rfl (by decide : 1 < 2 ^ 64)⟩
  rw [qOutOf, moved.core]
  exact taken

end

/-- At most eight lines of a cluster a cycle (R340). -/
theorem transferLine_full {s : State} {v : Nat} (here : (clusterAt s v).engine.1 = s.cycle) (eight : 8 ≤ (clusterAt s v).engine.2) : exec (.accessTransferLine v) s = .next s := by
  change execAccessTransferLine v s = _
  unfold execAccessTransferLine
  dsimp only
  rw [if_pos here, if_pos eight]

theorem engineRead_mem {s w u : State} {v id va pa : Nat} {ea leaf : Word} (placed : enginePlace s v ea false = .ok (.phys va pa leaf, w))
    (there : reachL2 w (.engine v id) (leafSlice leaf pa) pa 32 (leafClass leaf) false = (true, u)) (sound : isPoisoned u pa = false) :
    engineRead s v id ea = .ok (BitVec.ofNat 256 (readMem u pa 32), u) := by
  unfold engineRead
  rw [placed]
  dsimp only
  rw [there]
  dsimp only
  rw [sound, Bool.not_true, if_neg Bool.false_ne_true, if_neg Bool.false_ne_true]

end Sys2Proof.Machine
end

