-- ==== Sys2Proof/Proofs/BarrierDeliveries.lean ====
section
/-! SUPPORT. O50: a delivery at a barrier, and the contexts that it wakes (R145, R346). -/

namespace Sys2Proof.Machine

/-! ### One waiter woken -/

/-- What a filter takes off a list and a search does not seek is not missed. -/
theorem find?_filter_kept {α : Type} {p q : α → Bool} : ∀ l : List α, (∀ x ∈ l, p x = true → q x = true) → (l.filter q).find? p = l.find? p
  | [], _ => rfl
  | x :: l, h => by
    have rest := find?_filter_kept l (fun y hy => h y (List.mem_cons_of_mem _ hy))
    rw [List.filter_cons]
    split
    case isTrue => rw [List.find?_cons, List.find?_cons, rest]
    case isFalse gone =>
      have other : p x = false := by
        by_contra seeks
        exact gone (h x List.mem_cons_self (by simpa using seeks))
      rw [List.find?_cons, other, rest]

section

variable {t : State} {v pa : Nat} {p : Word}

/-- The step that wakes the waiter of context i of a cluster. -/
def wakeWaiter (v pa : Nat) (p : Word) (t : State) (i : Nat) : State :=
  match waiterAt t (128 * v + i) pa with
  | some f => if (ctxOf t f.ctx).run = .stalled (.barrier pa) then endWait t f p else t
  | none => t

theorem waiterAt_spec {c : Nat} {f : Flight Regs} (found : waiterAt t c pa = some f) : f ∈ t.flights ∧ f.ctx = c := by
  refine ⟨List.mem_of_find?_eq_some found, ?_⟩
  have holds := List.find?_some found
  simp only [Bool.and_eq_true, decide_eq_true_eq] at holds
  exact holds.1.1

/-- A waiter that waits goes on, its access over. -/
theorem wakeWaiter_wakes {i : Nat} {f : Flight Regs} (found : waiterAt t (128 * v + i) pa = some f) (waits : (ctxOf t (128 * v + i)).run = .stalled (.barrier pa)) :
    let w := wakeWaiter v pa p t i
    (ctxOf w (128 * v + i)).run = .ready ∧ flightOf w f.id = none ∧ t.cycle + 2 * hop (128 * v + i) f.slice + 4 ≤ (ctxOf w (128 * v + i)).readyAt ∧
      (ctxOf w (128 * v + i)).cooked = some p := by
  obtain ⟨-, own⟩ := waiterAt_spec found
  have eq : wakeWaiter v pa p t i = endWait t f p := by
    rw [wakeWaiter, found]
    dsimp only
    rw [own, if_pos waits]
  dsimp only
  rw [eq, endWait, own, ctxOf_modCtx_self]
  refine ⟨rfl, ?_, Nat.le_max_right _ _, rfl⟩
  change (t.flights.filter _).find? _ = none
  rw [List.find?_eq_none]
  intro g hg
  rw [List.mem_filter] at hg
  simpa using hg.2

/-- What the step leaves: memory, the clusters, every other context and waiter. -/
structure WokeOnly (t w : State) (v pa i : Nat) : Prop where
  mem : w.mem = t.mem
  clusters : w.clusters = t.clusters
  cycle : w.cycle = t.cycle
  flights : w.flights.Sublist t.flights
  ctx : ∀ c, c ≠ 128 * v + i → ctxOf w c = ctxOf t c
  waiter : (t.flights.map (·.id)).Nodup → ∀ j, j ≠ i → waiterAt w (128 * v + j) pa = waiterAt t (128 * v + j) pa

theorem wakeWaiter_only (t : State) (v pa : Nat) (p : Word) (i : Nat) : WokeOnly t (wakeWaiter v pa p t i) v pa i := by
  have same : WokeOnly t t v pa i := ⟨rfl, rfl, rfl, List.Sublist.refl _, fun _ _ => rfl, fun _ _ _ => rfl⟩
  unfold wakeWaiter
  split
  case h_2 => exact same
  case h_1 f found =>
    split
    case isFalse => exact same
    case isTrue =>
      obtain ⟨mem, own⟩ := waiterAt_spec found
      refine ⟨rfl, rfl, rfl, List.filter_sublist, fun c hc => ?_, fun unique j hj => ?_⟩
      · rw [endWait, ctxOf_modCtx_ne _ _ (own ▸ hc)]
        rfl
      · change (t.flights.filter (fun g => g.id ≠ f.id)).find? _ = t.flights.find? _
        refine find?_filter_kept _ (fun g hg seeks => ?_)
        simp only [Bool.and_eq_true, decide_eq_true_eq] at seeks
        simp only [ne_eq, decide_not, Bool.not_eq_true', decide_eq_false_iff_not]
        intro alike
        have equal : g = f := List.inj_on_of_nodup_map unique hg mem alike
        have ctx : 128 * v + j = 128 * v + i := by rw [← seeks.1.1, equal, own]
        exact hj (by omega)

end

/-- The steps that wake the waiters of a list of contexts. -/
structure WokeAll (t w : State) (v pa : Nat) (p : Word) (l : List Nat) : Prop where
  mem : w.mem = t.mem
  clusters : w.clusters = t.clusters
  woken : (t.flights.map (·.id)).Nodup → ∀ i ∈ l, ∀ f, waiterAt t (128 * v + i) pa = some f → (ctxOf t (128 * v + i)).run = .stalled (.barrier pa) →
    (ctxOf w (128 * v + i)).run = .ready ∧ flightOf w f.id = none ∧ t.cycle + 2 * hop (128 * v + i) f.slice + 4 ≤ (ctxOf w (128 * v + i)).readyAt ∧
      (ctxOf w (128 * v + i)).cooked = some p

/-- An access that is over stays over while others are woken. -/
theorem wakeAll_flights (v pa : Nat) (p : Word) (l : List Nat) : ∀ t : State, (l.foldl (wakeWaiter v pa p) t).flights.Sublist t.flights ∧
    ∀ c, (∀ i ∈ l, c ≠ 128 * v + i) → ctxOf (l.foldl (wakeWaiter v pa p) t) c = ctxOf t c := by
  induction l with
  | nil => exact fun t => ⟨List.Sublist.refl _, fun _ _ => rfl⟩
  | cons i l ih =>
    intro t
    have step := wakeWaiter_only t v pa p i
    obtain ⟨flights, ctx⟩ := ih (wakeWaiter v pa p t i)
    exact ⟨flights.trans step.flights, fun c hc => (ctx c (fun j hj => hc j (List.mem_cons_of_mem _ hj))).trans (step.ctx c (hc i List.mem_cons_self))⟩

theorem wakeAll_woke (v pa : Nat) (p : Word) (l : List Nat) (each : l.Nodup) : ∀ t : State, WokeAll t (l.foldl (wakeWaiter v pa p) t) v pa p l := by
  induction l with
  | nil => exact fun t => ⟨rfl, rfl, fun _ _ h => absurd h List.not_mem_nil⟩
  | cons i l ih =>
    intro t
    obtain ⟨fresh, each⟩ := List.nodup_cons.mp each
    have step := wakeWaiter_only t v pa p i
    have rest := ih each (wakeWaiter v pa p t i)
    refine ⟨rest.mem.trans step.mem, rest.clusters.trans step.clusters, fun unique j hj f found waits => ?_⟩
    rw [List.foldl_cons]
    rcases List.mem_cons.mp hj with rfl | later
    · obtain ⟨run, over_, time, cooked⟩ := wakeWaiter_wakes (p := p) found waits
      obtain ⟨flights, ctx⟩ := wakeAll_flights v pa p l (wakeWaiter v pa p t j)
      have apart : ∀ k ∈ l, 128 * v + j ≠ 128 * v + k := by
        intro k hk same
        have alike : k = j := by omega
        exact fresh (alike ▸ hk)
      have kept := ctx (128 * v + j) apart
      refine ⟨(congrArg Ctx.run kept).trans run, ?_, kept ▸ time, (congrArg Ctx.cooked kept).trans cooked⟩
      rw [flightOf, List.find?_eq_none] at over_ ⊢
      exact fun g hg => over_ g (flights.subset hg)
    · have other : j ≠ i := fun same => fresh (same ▸ later)
      obtain ⟨run, over_, time, cooked⟩ := rest.woken (unique.sublist (step.flights.map _)) j later f ((step.waiter unique j other).trans found)
        (by rw [step.ctx _ (by omega), waits])
      exact ⟨run, over_, step.cycle ▸ time, cooked⟩

theorem wakeBarrier_woke (s : State) (v pa waiters : Nat) (p : Word) :
    WokeAll s (wakeBarrier s v pa waiters p) v pa p ((List.range 64).filter (nbit waiters)) :=
  wakeAll_woke v pa p _ (List.nodup_range.filter _) s

/-! ### The counter written -/

section

variable {s : State} {cls pa : Nat} {p : Word} (up : cxlGone s pa = false) (open_ : ∀ i, i < 16 → barsWrite s cls (pa + i) = false)
include up open_

theorem counter_written {n : Nat} (eight : 8 ≤ n) (most : n ≤ 16) : readMem (programWrite s cls pa (bytesOf p.toNat n)) pa 8 = p.toNat := by
  rw [programWrite_open (fun i hi => open_ i (by rw [bytesOf_length] at hi; omega))]
  have bytes : ∀ i (h : i < (bytesOf p.toNat 8).length), memByte (performWrite s pa (bytesOf p.toNat n)) (pa + i) = (bytesOf p.toNat 8)[i] := by
    intro i h
    rw [bytesOf_length] at h
    rw [memByte_performWrite_inside up (by rw [bytesOf_length]; omega), bytesOf_getElem, bytesOf_getElem]
  rw [readMem_of_bytes 8 pa p.toNat bytes]
  exact Nat.mod_eq_of_lt p.isLt

theorem mask_cleared : readMem (programWrite s cls pa (bytesOf p.toNat 16)) (pa + 8) 8 = 0 := by
  rw [programWrite_open (fun i hi => open_ i (by rwa [bytesOf_length] at hi))]
  have zero (i : Nat) : p.toNat / 256 ^ (8 + i) = 0 / 256 ^ i := by
    rw [Nat.zero_div]
    exact Nat.div_eq_of_lt (Nat.lt_of_lt_of_le p.isLt (Nat.pow_le_pow_right (by decide : 256 > 0) (by omega : 8 ≤ 8 + i)))
  have bytes : ∀ i (h : i < (bytesOf 0 8).length), memByte (performWrite s pa (bytesOf p.toNat 16)) (pa + 8 + i) = (bytesOf 0 8)[i] := by
    intro i h
    rw [bytesOf_length] at h
    rw [Nat.add_assoc, memByte_performWrite_inside up (by rw [bytesOf_length]; omega), bytesOf_getElem, bytesOf_getElem, zero]
  rw [readMem_of_bytes 8 (pa + 8) 0 bytes, Nat.zero_mod]

end

/-- The end of a transfer leaves memory, the accesses, and every context that does not wait for a transfer. -/
theorem endTransfer_leaves (s : State) (v : Nat) (z : Transfer) : (endTransfer s v z).mem = s.mem ∧ (endTransfer s v z).flights = s.flights ∧
    ∀ c, (ctxOf s c).run ≠ .stalled .transfer → ctxOf (endTransfer s v z) c = ctxOf s c := by
  have goes (t : State) (b : Bool) (f : Ctx → Ctx) (hmem : t.mem = s.mem) (hfl : t.flights = s.flights) (hctx : t.ctxs = s.ctxs) (hb : b = true → (ctxOf t z.ctx).run = .stalled .transfer) :
      (if b then modCtx t z.ctx f else t).mem = s.mem ∧ (if b then modCtx t z.ctx f else t).flights = s.flights ∧
        ∀ c, (ctxOf s c).run ≠ .stalled .transfer → ctxOf (if b then modCtx t z.ctx f else t) c = ctxOf s c := by
    have same (c : Nat) : ctxOf t c = ctxOf s c := by rw [ctxOf, hctx, ctxOf]
    cases b with
    | false => exact ⟨hmem, hfl, fun c _ => same c⟩
    | true =>
      refine ⟨hmem, hfl, fun c hc => ?_⟩
      have other : c ≠ z.ctx := fun eq => hc (by rw [eq, ← same, hb rfl])
      rw [if_pos rfl, ctxOf_modCtx_ne _ _ other, same]
  unfold endTransfer
  split
  · exact ⟨rfl, rfl, fun _ _ => rfl⟩
  · dsimp only
    cases op : z.op with
    | bulk dst src n dup =>
      cases dup
      · exact goes _ _ _ rfl rfl rfl (fun h => of_decide_eq_true (Bool.and_eq_true_iff.mp h).1)
      · exact goes _ _ _ rfl rfl rfl (fun h => of_decide_eq_true (Bool.and_eq_true_iff.mp h).1)
    | _ => exact goes _ _ _ rfl rfl rfl (fun h => of_decide_eq_true (Bool.and_eq_true_iff.mp h).1)

/-- A counter lowered to p, and above zero no more than that. -/
structure PendingSet (s t : State) (v pa : Nat) (p : Word) : Prop where
  clusters : t.clusters = s.clusters
  counter : readMem t pa 8 = p.toNat
  mask : p.toInt ≤ 0 → readMem t (pa + 8) 8 = 0
  woken : p.toInt ≤ 0 → (s.flights.map (·.id)).Nodup → ∀ i f, i < 64 → nbit (readMem s (pa + 8) 8) i = true → waiterAt s (128 * v + i) pa = some f →
    (ctxOf s (128 * v + i)).run = .stalled (.barrier pa) →
    (ctxOf t (128 * v + i)).run = .ready ∧ flightOf t f.id = none ∧ s.cycle + 2 * hop (128 * v + i) f.slice + 4 ≤ (ctxOf t (128 * v + i)).readyAt ∧
      (ctxOf t (128 * v + i)).cooked = some p

theorem setPending_set {s : State} {v cls pa : Nat} {p : Word} (up : cxlGone s pa = false) (open_ : ∀ i, i < 16 → barsWrite s cls (pa + i) = false) :
    PendingSet s (setPending s v cls pa p) v pa p := by
  have bytes (n : Nat) (most : n ≤ 16) : BytesOnly s (programWrite s cls pa (bytesOf p.toNat n)) := by
    rw [programWrite_open (fun i hi => open_ i (by rw [bytesOf_length] at hi; omega))]
    exact performWrite_bytes _ _ _
  unfold setPending
  split
  case isTrue positive =>
    refine ⟨by rw [(bytes 8 (by decide)).only], counter_written up open_ (Nat.le_refl _) (by decide), fun low => absurd positive (by omega), fun low => absurd positive (by omega)⟩
  case isFalse =>
    obtain ⟨w, hw⟩ : ∃ w, w = programWrite s cls pa (bytesOf p.toNat 16) := ⟨_, rfl⟩
    have only := bytes 16 (Nat.le_refl _)
    have counter := counter_written (p := p) up open_ (by decide : 8 ≤ 16) (Nat.le_refl _)
    have mask := mask_cleared (p := p) up open_
    rw [← hw] at only counter mask
    rw [← hw]
    have woke := wakeBarrier_woke w v pa (readMem s (pa + 8) 8) p
    have flights : w.flights = s.flights := by rw [only.only]
    have cycle : w.cycle = s.cycle := by rw [only.only]
    have ctx (c : Nat) : ctxOf w c = ctxOf s c := by rw [only.only]; rfl
    refine ⟨by rw [woke.clusters, only.only], (readMem_congr woke.mem 8 pa).trans counter, fun _ => (readMem_congr woke.mem 8 (pa + 8)).trans mask,
      fun _ unique i f hi bit found waits => ?_⟩
    have woken := woke.woken (by rw [flights]; exact unique) i (List.mem_filter.mpr ⟨List.mem_range.mpr hi, bit⟩) f
      (by rw [waiterAt, flights]; exact found) (by rw [ctx, waits])
    rw [cycle] at woken
    exact woken

theorem barrierDecrement_lowers {s u : State} {v n pa : Nat} {y : Transfer} {leaf : Word} {l : List Transfer} {r : List Nat} (first : (clusterAt s v).transfers = y :: l)
    (owes : y.owed = n :: r) (due : y.due ≤ s.cycle) (own : y.barrier.toNat / 2 ^ 53 = s.device)
    (page : engineTranslate s v (y.barrier.toNat % 2 ^ 53) .wr = (.page pa leaf 0, u))
    (there : (reachL2 u (.engine v y.id) (leafSlice leaf pa) pa 16 (leafClass leaf) true).1 = true) (up : cxlGone s pa = false) (sound : anyPoison s pa 16 = false)
    (open_ : ∀ i, i < 16 → barsWrite s (leafClass leaf) (pa + i) = false) :
    Gives (.barrierDecrement v) s (fun t => BitVec.ofNat 64 (readMem t pa 8) = BitVec.ofNat 64 (readMem s pa 8) - BitVec.ofNat 64 n ∧
      ((BitVec.ofNat 64 (readMem s pa 8) - BitVec.ofNat 64 n).toInt ≤ 0 → readMem t (pa + 8) 8 = 0 ∧ ((s.flights.map (·.id)).Nodup →
        ∀ i f, i < 64 → nbit (readMem s (pa + 8) 8) i = true → waiterAt s (128 * v + i) pa = some f → (ctxOf s (128 * v + i)).run = .stalled (.barrier pa) →
          (ctxOf t (128 * v + i)).run = .ready ∧ flightOf t f.id = none ∧ s.cycle + 2 * hop (128 * v + i) f.slice + 4 ≤ (ctxOf t (128 * v + i)).readyAt ∧
          (ctxOf t (128 * v + i)).cooked = some (BitVec.ofNat 64 (readMem s pa 8) - BitVec.ofNat 64 n))) ∧
      ((∀ x ∈ l, x.id ≠ y.id) → r ≠ [] → (clusterAt t v).transfers = { y with owed := r } :: l)) := by
  obtain ⟨p, hp⟩ : ∃ p, p = BitVec.ofNat 64 (readMem s pa 8) - BitVec.ofNat 64 n := ⟨_, rfl⟩
  obtain ⟨w, hw⟩ : ∃ w, w = (reachL2 u (.engine v y.id) (leafSlice leaf pa) pa 16 (leafClass leaf) true).2 := ⟨_, rfl⟩
  have looked : EngineLooked s w := (engineTranslate_page page).trans (.of_sectors (hw ▸ reachL2_sectors _ _ _ _ _ _ _))
  have reached : reachL2 u (.engine v y.id) (leafSlice leaf pa) pa 16 (leafClass leaf) true = (true, w) := by
    rw [hw]
    exact Prod.ext there rfl
  have gone (a : Nat) : isPoisoned w a = isPoisoned s a := by rw [isPoisoned, looked.cxlGone, looked.only, isPoisoned]
  have sound' : anyPoison w pa 16 = false := by
    rw [← sound, anyPoison, anyPoison]
    simp only [gone]
  have read : readMem w pa 8 = readMem s pa 8 := readMem_congr looked.mem 8 pa
  have set := setPending_set (s := w) (v := v) (p := p) ((looked.cxlGone pa).trans up) (fun i hi => (looked.barsWrite _ _).trans (open_ i hi))
  obtain ⟨z, hz⟩ : ∃ z, z = setPending w v (leafClass leaf) pa p := ⟨_, rfl⟩
  rw [← hz] at set
  obtain ⟨mem, flights, ctx⟩ := endTransfer_leaves (setTransfer z v { y with owed := r }) v { y with owed := r }
  have run : exec (.barrierDecrement v) s = .next (endTransfer (setTransfer z v { y with owed := r }) v { y with owed := r }) := by
    have seeks : (clusterAt s v).transfers.find? (fun t => !t.owed.isEmpty && t.due ≤ s.cycle) = some y := by
      rw [first, List.find?_cons, owes, decide_eq_true due]
      rfl
    change execBarrierDecrement v s = _
    unfold execBarrierDecrement
    rw [seeks]
    dsimp only
    rw [if_neg (not_not.mpr own), page]
    dsimp only
    rw [if_neg (not_not.mpr rfl), reached]
    dsimp only
    rw [Bool.not_true, if_neg Bool.false_ne_true, sound', if_neg Bool.false_ne_true, owes, read, hz, hp]
    rfl
  rw [← hp]
  refine ⟨_, run, ?_, fun low => ⟨?_, fun unique i f hi bit found waits => ?_⟩, fun others more => ?_⟩
  · rw [readMem_congr mem]
    change BitVec.ofNat 64 (readMem z pa 8) = _
    rw [set.counter, BitVec.ofNat_toNat, BitVec.setWidth_eq]
  · rw [readMem_congr mem]
    exact set.mask low
  · have flightsW : w.flights = s.flights := by rw [looked.only]
    obtain ⟨ready, over_, time, cooked⟩ := set.woken low (by rw [flightsW]; exact unique) i f hi (by rw [readMem_congr looked.mem]; exact bit)
      (by rw [waiterAt, flightsW]; exact found) (by rw [looked.ctx, waits])
    have same := ctx (128 * v + i) (by
      change (ctxOf z _).run ≠ _
      rw [ready]
      exact Run.noConfusion)
    refine ⟨(congrArg Ctx.run same).trans ready, ?_, ?_, (congrArg Ctx.cooked same).trans cooked⟩
    · rw [flightOf, flights]
      exact over_
    · rw [same, ← looked.cycle]
      exact time
  · rw [endTransfer_stays (.inr more), setTransfer, clusterAt_modCluster_self, clusterAt, set.clusters, ← clusterAt, looked.transfers, first]
    dsimp only
    rw [List.map_cons, if_pos rfl]
    refine congrArg (_ :: ·) ((List.map_congr_left (fun x hx => if_neg (others x hx))).trans (List.map_id'' (fun _ => rfl) l))

end Sys2Proof.Machine
end

