-- ==== Sys2Proof/Proofs/LatticeJobs.lean ====
section
/-! SUPPORT. O50: a lattice job starts, ends, and what it leaves in its rows (R66 to R68, R330). -/

namespace Sys2Proof.Machine

/-! ### Column groups set one by one -/

/-- Of cluster v, group i is F i of what it was, for the first n groups; nothing else differs. -/
structure GroupsSet (t w : State) (v n : Nat) (F : Nat → ColGroup → ColGroup) : Prop where
  only : w = { t with clusters := w.clusters }
  cluster : clusterAt w v = { clusterAt t v with groups := (clusterAt w v).groups }
  group : ∀ i, colOf w v i = if i < n then F i (colOf t v i) else colOf t v i

theorem foldSetCol (v : Nat) (F : Nat → ColGroup → ColGroup) (n : Nat) (t : State) :
    GroupsSet t ((List.range n).foldl (fun t i => setCol t v i (F i (colOf t v i))) t) v n F := by
  induction n with
  | zero => exact ⟨rfl, rfl, fun i => (if_neg (Nat.not_lt_zero i)).symm⟩
  | succ n ih =>
    rw [List.range_succ, List.foldl_append, List.foldl_cons, List.foldl_nil]
    generalize (List.range n).foldl (fun t i => setCol t v i (F i (colOf t v i))) t = w at ih
    refine ⟨?_, ?_, fun i => ?_⟩
    · have set (x : ColGroup) : setCol w v n x = { w with clusters := (setCol w v n x).clusters } := rfl
      rw [set, ih.only]
    · rw [setCol, clusterAt_modCluster_self, ih.cluster]
    · rw [colOf, setCol, clusterAt_modCluster_self]
      dsimp only
      rw [sget_sput, ← colOf, ih.group, ih.group]
      rcases Nat.lt_trichotomy i n with before | rfl | behind
      · rw [if_neg (by omega), if_pos before, if_pos (by omega)]
      · rw [if_pos rfl, if_neg (Nat.lt_irrefl i), if_pos (by omega)]
      · rw [if_neg (by omega), if_neg (by omega), if_neg (by omega)]

/-- Contexts that go on keep their registers and places. -/
theorem outside_wakes {s u t : State} (wakes : WakesOnly u t) (mem : u.mem = s.mem) (ctxs : u.ctxs = s.ctxs) : Outside s t [] := by
  refine ⟨memByte_congr (wakes.mem.trans mem), fun e _ => ?_⟩
  have same : ctxOf u e = ctxOf s e := by rw [ctxOf, ctxs, ctxOf]
  rw [wakes.ctx, same]
  exact ⟨rfl, rfl⟩

/-! ### The start of a job -/

/-- The segments of a job are busy from its start on. -/
def busySegs (row n : Nat) (m : Store Seg) : Store Seg :=
  (List.range n).foldl (fun m r => sput Seg.reset m (row + r) { sget Seg.reset m (row + r) with state := .busy }) m

theorem busySegs_busy (row n : Nat) (m : Store Seg) {r : Nat} (hr : r < n) : (sget Seg.reset (busySegs row n m) (row + r)).state = .busy := by
  induction n with
  | zero => exact absurd hr (Nat.not_lt_zero r)
  | succ n ih =>
    rw [busySegs, List.range_succ, List.foldl_append, List.foldl_cons, List.foldl_nil, ← busySegs, sget_sput]
    split
    case isTrue => rfl
    case isFalse other => exact ih (by omega)

/-- What the start of a job makes of a column group. -/
def startedGroup (j : LatJob) (g : ColGroup) : ColGroup :=
  { g with
    active := if nbit j.wordA.toNat 61 then g.shadow else g.active
    segs := busySegs (jobRow j.wordA) (jobV j.wordA) g.segs
    written := sput 0 g.written j.jid.toNat 0 }

theorem latticeJobStart_starts {s : State} {v : Nat} {j : LatJob} (pending : (clusterAt s v).pending = some j) (idle : (clusterAt s v).running = none)
    (due : j.start.getD 0 ≤ s.cycle) (ready : ∀ i, i < 8 → segsReady s v i (jobRow j.wordA) (jobV j.wordA) = true) (alone : (clusterAt s v).waiting = []) :
    Gives (.latticeJobStart v) s (fun t => Outside s t [] ∧ (clusterAt t v).running = some { j with start := some s.cycle } ∧ (clusterAt t v).pending = none ∧
      ∀ i, i < 8 → colOf t v i = startedGroup j (colOf s v i)) := by
  have set := foldSetCol v (fun _ => startedGroup j) 8 s
  obtain ⟨w, hw⟩ : ∃ w, w = (List.range 8).foldl (fun t i => setCol t v i (startedGroup j (colOf t v i))) s := ⟨_, rfl⟩
  rw [← hw] at set
  obtain ⟨u, hu⟩ : ∃ u, u = modCluster w v (fun x => { x with running := some { j with start := some s.cycle }, pending := none, waiting := x.waiting.drop 1 }) := ⟨_, rfl⟩
  have wakes := wakeStalls_wakes u v (fun _ w => w = .shadow)
  have cluster : clusterAt (wakeStalls u v (fun _ w => w = .shadow)) v = clusterAt u v := by rw [clusterAt, wakes.clusters, clusterAt]
  have all : ((List.range 8).all fun i => segsReady s v i (jobRow j.wordA) (jobV j.wordA)) = true :=
    List.all_eq_true.mpr (fun i hi => ready i (List.mem_range.mp hi))
  have cycle : w.cycle = s.cycle := by rw [set.only]
  refine ⟨wakeStalls u v (fun _ w => w = .shadow), ?_, outside_wakes wakes ?_ ?_, ?_, ?_, fun i hi => ?_⟩
  · have waiting : (clusterAt w v).waiting = [] := by rw [set.cluster, alone]
    have groups : (List.range 8).foldl (fun t i => setCol t v i { colOf t v i with
        active := if nbit j.wordA.toNat 61 then (colOf t v i).shadow else (colOf t v i).active
        segs := (List.range (jobV j.wordA)).foldl (fun m r => sput Seg.reset m (jobRow j.wordA + r) { sget Seg.reset m (jobRow j.wordA + r) with state := .busy }) (colOf t v i).segs
        written := sput 0 (colOf t v i).written j.jid.toNat 0 }) s = w := hw.symm
    change execLatticeJobStart v s = _
    unfold execLatticeJobStart
    rw [pending]
    dsimp only
    rw [idle, all, decide_eq_false (Nat.not_lt.mpr due)]
    rw [if_neg (by decide), groups, waiting, cycle, hu]
    rfl
  · rw [hu, modCluster_mem, set.only]
  · rw [hu, modCluster_ctxs, set.only]
  · rw [cluster, hu, clusterAt_modCluster_self]
  · rw [cluster, hu, clusterAt_modCluster_self]
  · rw [colOf, cluster, hu, clusterAt_modCluster_self]
    exact (set.group i).trans (if_pos hi)

/-! ### The rows of a job at its end -/

section

variable (s : State) (v i : Nat) (j : LatJob) (residue : Bool) (r : Nat) (g : ColGroup)

/-- The 512 bits of row r after its vector. -/
def endedData : Nat :=
  let old := if nbit j.wordA.toNat 59 then (sget Seg.reset g.segs (jobRow j.wordA + r)).data.toNat else 0
  if jobVector s v j r = 0 then old else (rowResult g j i old (jobVector s v j r)).1

/-- Whether row r is poisoned at the end. -/
def endedPoison : Bool := residue || (nbit j.wordA.toNat 59 && (sget Seg.reset g.segs (jobRow j.wordA + r)).poison)

/-- The segment of row r at the end of its job (R330). -/
def endedSeg : Seg :=
  if j.wordB = 0 then { Seg.reset with data := BitVec.ofNat 512 (endedData s v i j r g), state := .kept, poison := endedPoison j residue r g }
  else if mapZero j r || endedPoison j residue r g then { Seg.reset with poison := endedPoison j residue r g }
  else { data := BitVec.ofNat 512 (endedData s v i j r g), state := .draining, poison := false, jid := j.jid, started := false, since := s.cycle
         batch := if jobRagged j.wordA then j.maps.getD r 0 % 1024 else r }

theorem endRow_group : (endRow s v i j residue r g).1.segs = sput Seg.reset g.segs (jobRow j.wordA + r) (endedSeg s v i j residue r g) ∧
    (endRow s v i j residue r g).1.active = g.active := by
  have vector : (if mapZero j r then 0 else streamBits s v (bits j.wordA.toNat 41 32 * 64 + r * (8 * fmtBits (jobFmt j.wordA))) (8 * fmtBits (jobFmt j.wordA))) = jobVector s v j r := rfl
  unfold endRow endedSeg endedData endedPoison
  dsimp only
  rw [vector]
  by_cases zero : jobVector s v j r = 0
  · simp [zero]
  · simp [zero]

/-- A row's end depends on its own segment, and on the weights of its group. -/
theorem endedSeg_congr {g h : ColGroup} (seg : sget Seg.reset g.segs (jobRow j.wordA + r) = sget Seg.reset h.segs (jobRow j.wordA + r)) (active : g.active = h.active) :
    endedSeg s v i j residue r g = endedSeg s v i j residue r h := by
  have data : endedData s v i j r g = endedData s v i j r h := by
    unfold endedData rowResult
    simp only [seg, active]
  rw [endedSeg, endedSeg, data, endedPoison, endedPoison, seg]

end

/-- What the rows of a job leave of a column group: its weights, and the segments of the rows done. -/
structure RowsEnded (s : State) (v i : Nat) (j : LatJob) (residue : Bool) (n : Nat) (g h : ColGroup) : Prop where
  active : h.active = g.active
  row : ∀ r, sget Seg.reset h.segs (jobRow j.wordA + r) =
    if r < n then endedSeg s v i j residue r g else sget Seg.reset g.segs (jobRow j.wordA + r)

theorem endRows_ended (s : State) (v i : Nat) (j : LatJob) (residue : Bool) (n : Nat) : RowsEnded s v i j residue n (colOf s v i) (endRows s v i j residue n).1 := by
  induction n with
  | zero => exact ⟨rfl, fun r => (if_neg (Nat.not_lt_zero r)).symm⟩
  | succ n ih =>
    have next : (endRows s v i j residue (n + 1)).1 = (endRow s v i j residue n (endRows s v i j residue n).1).1 := by
      rw [endRows, List.range_succ, List.foldl_append, List.foldl_cons, List.foldl_nil, ← endRows]
    obtain ⟨segs, active⟩ := endRow_group s v i j residue n (endRows s v i j residue n).1
    rw [next]
    refine ⟨active.trans ih.active, fun r => ?_⟩
    rw [segs, sget_sput]
    rcases Nat.lt_trichotomy r n with before | rfl | behind
    · rw [if_neg (by omega), ih.row, if_pos before, if_pos (by omega)]
    · rw [if_pos rfl, if_pos (by omega)]
      exact endedSeg_congr s v i j residue r ((ih.row r).trans (if_neg (Nat.lt_irrefl r))) ih.active
    · rw [if_neg (by omega), ih.row, if_neg (by omega), if_neg (by omega)]

/-! ### The lanes of a row -/

theorem finites_sum (l : List LatVal) : ∀ a : Int, (finites l).foldl (fun a p => a + scaleUp p.1 p.2 0) a = a + (l.map latInt).sum := by
  induction l with
  | nil =>
    intro a
    simp [finites]
  | cons x l ih =>
    intro a
    have rest (b : Int) : (finites l).foldl (fun a p => a + scaleUp p.1 p.2 0) b = b + (l.map latInt).sum := ih b
    cases x with
    | fin m e =>
      by_cases zero : m = 0
      · have skip : finites (.fin m e :: l) = finites l := by simp [finites, zero]
        rw [skip, rest, List.map_cons, List.sum_cons, latInt, zero]
        simp [scaleUp]
      · have head : finites (.fin m e :: l) = (m, e) :: finites l := by simp [finites, zero]
        rw [head, List.foldl_cons, rest, List.map_cons, List.sum_cons, latInt, Int.add_assoc]
    | inf b =>
      have skip : finites (.inf b :: l) = finites l := by simp [finites]
      have none_ : latInt (.inf b) = 0 := rfl
      rw [skip, rest, List.map_cons, List.sum_cons, none_, Int.zero_add]
    | nan =>
      have skip : finites (.nan :: l) = finites l := by simp [finites]
      have none_ : latInt .nan = 0 := rfl
      rw [skip, rest, List.map_cons, List.sum_cons, none_, Int.zero_add]

/-- An integer accumulator after one vector, as the statement says it. -/
theorem intColumn_eq (sat : Bool) (acc : Nat) (l : List LatVal) : (intColumn sat acc l).1 % 2 ^ 32 =
    (BitVec.ofInt 32 (let x := (BitVec.ofNat 32 acc).toInt + (l.map latInt).sum
      if sat then max (-2 ^ 31) (min (2 ^ 31 - 1) x) else x)).toNat := by
  have sum := finites_sum l 0
  rw [Int.zero_add] at sum
  have low : (-2147483648 : Int) = -2 ^ 31 := by decide
  have high : (2147483647 : Int) = 2 ^ 31 - 1 := by decide
  rw [toInt_ofNat_signedN (by decide), BitVec.toNat_ofInt]
  unfold intColumn
  dsimp only
  rw [sum, low, high]
  exact Nat.mod_eq_of_lt (by omega)

section

variable {s : State} {v i : Nat} {j : LatJob} {r : Nat}

/-- The products of a lane, as the statement says them. -/
theorem rowProducts (n : Nat) : (((List.range 64).map (fun k => latOf (decodeElem (j.tables.getD i (0, 0)).1 (j.tables.getD i (0, 0)).2 (jobFmt j.wordA)
      ((jobVector s v j r >>> (fmtBits (jobFmt j.wordA) * k)) % 2 ^ fmtBits (jobFmt j.wordA))))).zipIdx).map
        (fun e => latMul e.1 (sget (.fin 0 0) (colOf s v i).active.weights (16 * e.2 + n))) = jobProducts s v i j r n := by
  refine List.ext_getElem (by simp [jobProducts]) (fun k h1 h2 => ?_)
  simp [jobProducts, Nat.shiftRight_eq_div_pow]

theorem lane_endedData {n : Nat} (hn : n < 16) : lane (BitVec.ofNat 512 (endedData s v i j r (colOf s v i))) 32 n = jobLane s v i j r n := by
  obtain ⟨seg, hseg⟩ : ∃ seg, seg = segOf s v i (jobRow j.wordA + r) := ⟨_, rfl⟩
  obtain ⟨old, hold⟩ : ∃ old, old = if nbit j.wordA.toNat 59 then seg.data.toNat else 0 := ⟨_, rfl⟩
  have oldLane : (old >>> (32 * n)) % 2 ^ 32 = if j.wordA.getLsbD 59 then lane seg.data 32 n else 0 := by
    rw [hold]
    change _ = if nbit j.wordA.toNat 59 then _ else _
    split
    · rfl
    · simp
  unfold endedData jobLane
  rw [← segOf, ← hseg]
  dsimp only
  rw [← hold, ← oldLane]
  split
  case isTrue =>
    have whole : (BitVec.ofNat 512 old).toNat = old := by
      rw [hold]
      split
      · rw [BitVec.ofNat_toNat, BitVec.setWidth_eq]
      · exact BitVec.toNat_zero
    rw [lane, whole]
  case isFalse =>
    unfold rowResult
    dsimp only
    rw [← packVec, lane_packVec (by simp)]
    have here : n < (List.range 16).length := by simpa using hn
    rw [List.map_map, List.getD_eq_getElem?_getD, List.getElem?_map, List.getElem?_eq_getElem here, List.getElem_range, Option.map_some, Option.getD_some]
    dsimp only [Function.comp_apply]
    rw [rowProducts]
    split
    case isTrue => exact intColumn_eq _ _ _
    case isFalse => rfl

end

/-! ### The end of a job -/

/-- The code that a job ends with. -/
def endCode (j : LatJob) (bad : Bool) : Nat := if bad then cResidue else if j.poison then cPoison else 0

/-- What the end of a job makes of a column group. -/
def jobEndGroup (s : State) (v : Nat) (j : LatJob) (bad : Bool) (i : Nat) : ColGroup :=
  let g := (endRows s v i j (endCode j bad ≠ 0) (jobV j.wordA)).1
  { g with idle := g.idle + BitVec.ofNat 64 (jobSpan s v j - jobV j.wordA * max 1 g.active.span) }

theorem modCore_cores_only (s : State) (k : Nat) (f : Core → Core) : modCore s k f = { s with cores := (modCore s k f).cores } := rfl

theorem drainsReady_cores (s : State) (v : Nat) (jid : BitVec 16) : drainsReady s v jid = { s with cores := (drainsReady s v jid).cores } := by
  refine foldl_keeps (P := fun t => t = { s with cores := t.cores }) (fun t i same => ?_) _ rfl
  split
  · rw [modCore_cores_only, same]
  · exact same

/-- The entry of a job that has ended. -/
def latDone (j : LatJob) (bad : Bool) (rs : List (ColGroup × Flags × Bool)) : LatDone :=
  { jid := j.jid, code := endCode j bad, wrap := rs.any (fun e => e.2.2), flags := rs.map (fun e => e.2.1), owed := j.members
    entry := j.wordB.toNat, graph := if jobRagged j.wordA then some (jobGraph j.wordC) else none
    accts := j.accts }

/-- What the end of a job leaves. -/
structure JobEnded (s t : State) (v : Nat) (j : LatJob) (bad : Bool) : Prop where
  outside : Outside s t []
  running : (clusterAt t v).running = none
  ended : ∃ d ∈ (clusterAt t v).ended, d.jid = j.jid ∧ d.code = endCode j bad
  row : ∀ i r, i < 8 → r < jobV j.wordA → segOf t v i (jobRow j.wordA + r) = endedSeg s v i j (endCode j bad ≠ 0) r (colOf s v i)

theorem latticeJobEnd_ends {s : State} {v : Nat} {j : LatJob} (bad : Bool) (running : (clusterAt s v).running = some j)
    (due : j.start.getD 0 + 18 + jobSpan s v j ≤ s.cycle) : Gives (.latticeJobEnd v bad) s (fun t => JobEnded s t v j bad) := by
  obtain ⟨w, hw⟩ : ∃ w, w = (List.range 8).foldl (fun t i => setCol t v i (jobEndGroup s v j bad i)) s := ⟨_, rfl⟩
  have set : GroupsSet s w v 8 (fun i _ => jobEndGroup s v j bad i) := hw ▸ foldSetCol v (fun i _ => jobEndGroup s v j bad i) 8 s
  obtain ⟨rs, hrs⟩ : ∃ rs, rs = (List.range 8).map (fun i => endRows s v i j (endCode j bad ≠ 0) (jobV j.wordA)) := ⟨_, rfl⟩
  have groups : rs.zipIdx.foldl (fun t e => setCol t v e.2 { e.1.1 with idle := e.1.1.idle + BitVec.ofNat 64 (jobSpan s v j - jobV j.wordA * max 1 e.1.1.active.span) }) s = w := by
    have pairs : rs.zipIdx = (List.range 8).map (fun i => (endRows s v i j (endCode j bad ≠ 0) (jobV j.wordA), i)) := by
      refine List.ext_getElem (by simp [hrs]) (fun k h1 h2 => ?_)
      simp [hrs]
    rw [pairs, List.foldl_map, hw]
    rfl
  obtain ⟨d, hd⟩ : ∃ d, d = latDone j bad rs := ⟨_, rfl⟩
  obtain ⟨x, hx⟩ : ∃ x, x = drainsReady (if endCode j bad ≠ 0 then countFault w (16 * v) (endCode j bad) else w) v j.jid := ⟨_, rfl⟩
  have counted : x = { w with cores := x.cores } := by
    have count : (if endCode j bad ≠ 0 then countFault w (16 * v) (endCode j bad) else w) =
        { w with cores := (if endCode j bad ≠ 0 then countFault w (16 * v) (endCode j bad) else w).cores } := by
      split <;> rfl
    rw [hx, drainsReady_cores, count]
  obtain ⟨l, hl⟩ : ∃ l, l = (clusterAt x v).ended ++ [d] := ⟨_, rfl⟩
  obtain ⟨z, hz⟩ : ∃ z, z = modCluster x v (fun y => { y with
    running := none, ended := (l.zipIdx.filter (fun e => l.length ≤ e.2 + 8 || jobDrains x v e.1.jid)).map (·.1) }) := ⟨_, rfl⟩
  have wakes := wakeStalls_wakes z v (fun _ w => match w with | .mwait k => k = j.jid | .mdrain k => k = j.jid | .segments _ _ => true | _ => false)
  obtain ⟨t, ht⟩ : ∃ t, t = wakeStalls z v (fun _ w => match w with | .mwait k => k = j.jid | .mdrain k => k = j.jid | .segments _ _ => true | _ => false) := ⟨_, rfl⟩
  rw [← ht] at wakes
  have cluster : clusterAt t v = clusterAt z v := by rw [clusterAt, wakes.clusters, clusterAt]
  refine ⟨t, ?_, outside_wakes wakes ?_ ?_, ?_, ⟨d, ?_, by rw [hd]; rfl, by rw [hd]; rfl⟩, fun i r hi hr => ?_⟩
  · change execLatticeJobEnd v bad s = _
    unfold execLatticeJobEnd
    rw [running]
    dsimp only
    rw [if_neg (Nat.not_lt.mpr due), ← endCode, ← hrs, groups, ← hx, ← latDone, ← hd, ← hl, ← hz, ht] <;> rfl
  · rw [hz, modCluster_mem, counted, set.only]
  · rw [hz, modCluster_ctxs, counted, set.only]
  · rw [cluster, hz, clusterAt_modCluster_self]
  · rw [cluster, hz, clusterAt_modCluster_self]
    refine List.mem_map.mpr ⟨(d, l.length - 1), List.mem_filter.mpr ⟨List.mem_zipIdx_iff_getElem?.mpr ?_, ?_⟩, rfl⟩
    · rw [hl]
      simp
    · rw [Bool.or_eq_true, decide_eq_true_eq]
      exact .inl (by omega)
  · have group : colOf t v i = jobEndGroup s v j bad i := by
      rw [colOf, cluster, hz, clusterAt_modCluster_self]
      dsimp only
      rw [← colOf, colOf_congr (by rw [counted] : x.clusters = w.clusters), set.group, if_pos hi]
    rw [segOf, group]
    exact ((endRows_ended s v i j _ (jobV j.wordA)).row r).trans (if_pos hr)

/-! ### A float accumulator after one vector -/

theorem finites_mem {l : List LatVal} {m e : Int} : (m, e) ∈ finites l ↔ LatVal.fin m e ∈ l ∧ m ≠ 0 := by
  rw [finites, List.mem_filterMap]
  constructor
  · rintro ⟨x, hx, made⟩
    cases x with
    | fin n f =>
      by_cases zero : n = 0
      · simp [zero] at made
      · simp only [zero, if_false, Option.some.injEq, Prod.mk.injEq] at made
        obtain ⟨rfl, rfl⟩ := made
        exact ⟨hx, zero⟩
    | inf b => cases made
    | nan => cases made
  · rintro ⟨hx, zero⟩
    exact ⟨_, hx, by simp [zero]⟩

theorem any_inf (l : List LatVal) (b : Bool) : l.any (fun p => p = .inf b) = decide (LatVal.inf b ∈ l) := by
  rw [Bool.eq_iff_iff, List.any_eq_true, decide_eq_true_eq]
  simp

theorem any_nan (l : List LatVal) : l.any (fun p => p = .nan) = decide (LatVal.nan ∈ l) := by
  rw [Bool.eq_iff_iff, List.any_eq_true, decide_eq_true_eq]
  simp

theorem floatColumn_invalid {acc : Nat} {l : List LatVal} (h : LatVal.nan ∈ l ∨ (LatVal.inf false ∈ l ∧ LatVal.inf true ∈ l)) : floatColumn acc l = (0x7FC00000, fNV) := by
  have bad : (l.any (fun p => p = .nan) || (l.any (fun p => p = .inf false) && l.any (fun p => p = .inf true))) = true := by
    rw [any_nan, any_inf, any_inf, Bool.or_eq_true, Bool.and_eq_true, decide_eq_true_eq, decide_eq_true_eq, decide_eq_true_eq]
    exact h
  unfold floatColumn
  dsimp only
  rw [if_pos bad]
  rfl

theorem floatColumn_inf {acc : Nat} {l : List LatVal} {b : Bool} (noNan : LatVal.nan ∉ l) (here : LatVal.inf b ∈ l) (other : LatVal.inf (!b) ∉ l) :
    floatColumn acc l = (if b then 0xFF800000 else 0x7F800000, 0) := by
  unfold floatColumn
  dsimp only
  rw [any_nan, any_inf, any_inf, decide_eq_false noNan]
  cases b with
  | false =>
    have other' : LatVal.inf true ∉ l := other
    rw [decide_eq_true here, decide_eq_false other']
    rfl
  | true =>
    have other' : LatVal.inf false ∉ l := other
    rw [decide_eq_true here, decide_eq_false other']
    rfl

/-- Without infinities and NaNs, what is rounded decides. -/
theorem floatColumn_finite {l : List LatVal} (finite : ∀ p ∈ l, ∃ m e, p = .fin m e) :
    (l.any (fun p => p = .nan) || (l.any (fun p => p = .inf false) && l.any (fun p => p = .inf true))) = false ∧
      (l.any (fun p => p = .inf false) || l.any (fun p => p = .inf true)) = false := by
  have noNan : LatVal.nan ∉ l := fun h => by
    obtain ⟨m, e, eq⟩ := finite _ h
    cases eq
  have noInf (b : Bool) : LatVal.inf b ∉ l := fun h => by
    obtain ⟨m, e, eq⟩ := finite _ h
    cases eq
  rw [any_nan, any_inf, any_inf, decide_eq_false noNan, decide_eq_false (noInf _), decide_eq_false (noInf _)]
  exact ⟨rfl, rfl⟩

theorem floatColumn_zeros {acc : Nat} {l : List LatVal} (zeros : ∀ p ∈ l, ∃ e, p = .fin 0 e) : floatColumn acc l = (acc, 0) := by
  obtain ⟨valid, noInf⟩ := floatColumn_finite (fun p hp => by
    obtain ⟨e, eq⟩ := zeros p hp
    exact ⟨0, e, eq⟩)
  have none_ : finites l = [] := by
    rw [List.eq_nil_iff_forall_not_mem]
    rintro ⟨m, e⟩ hp
    obtain ⟨here, nonzero⟩ := finites_mem.mp hp
    obtain ⟨f, eq⟩ := zeros _ here
    rw [LatVal.fin.injEq] at eq
    exact nonzero eq.1
  unfold floatColumn
  dsimp only
  rw [valid, noInf, if_neg Bool.false_ne_true, if_neg Bool.false_ne_true, none_]

/-- The top bits' maximum, as the fold computes it. -/
theorem foldl_max_spec {α : Type} (f : α → Int) (l : List α) : ∀ a : Int, (∀ x ∈ l, f x ≤ l.foldl (fun a p => max a (f p)) a) ∧ a ≤ l.foldl (fun a p => max a (f p)) a ∧
    (l.foldl (fun a p => max a (f p)) a = a ∨ ∃ x ∈ l, f x = l.foldl (fun a p => max a (f p)) a) := by
  induction l with
  | nil => exact fun a => ⟨fun x h => absurd h List.not_mem_nil, Int.le_refl a, .inl rfl⟩
  | cons y l ih =>
    intro a
    obtain ⟨above, least, attained⟩ := ih (max a (f y))
    rw [List.foldl_cons]
    refine ⟨fun x hx => ?_, by omega, ?_⟩
    · rcases List.mem_cons.mp hx with rfl | later
      · omega
      · exact above x later
    · rcases attained with start | ⟨x, hx, eq⟩
      · rcases (by omega : max a (f y) = a ∨ max a (f y) = f y) with h | h
        · exact .inl (start.trans h)
        · exact .inr ⟨y, List.mem_cons_self, (start.trans h).symm⟩
      · exact .inr ⟨x, List.mem_cons_of_mem _ hx, eq⟩

/-- A product truncated toward zero. -/
def cutOf (q : Int) : LatVal → Int × Bool
  | .fin m e => truncTo q (m, e)
  | _ => (0, false)

theorem floatAfter_eq (q : Int) (acc : Nat) (l : List LatVal) : floatAfter q acc l = (roundNum (if (l.map (cutOf q)).any (·.2) then 5 else 1) 13 false
    (nadd 1 (decodeIeee 13 acc) (numOf ((l.map (cutOf q)).map (·.1)).sum q false)).1).1 := rfl

/-- The truncated products: zeros add nothing to their sum, and are exact. -/
theorem cut_finites (q : Int) (l : List LatVal) (finite : ∀ p ∈ l, ∃ m e, p = .fin m e) :
    ((l.map (cutOf q)).map (·.1)).sum = (((finites l).map (truncTo q)).map (·.1)).sum ∧ (l.map (cutOf q)).any (·.2) = ((finites l).map (truncTo q)).any (·.2) := by
  induction l with
  | nil => exact ⟨rfl, rfl⟩
  | cons x l ih =>
    obtain ⟨sum, sticky⟩ := ih (fun p hp => finite p (List.mem_cons_of_mem _ hp))
    obtain ⟨m, e, rfl⟩ := finite x List.mem_cons_self
    by_cases zero : m = 0
    · have skip : finites (.fin m e :: l) = finites l := by simp [finites, zero]
      have exact_ : cutOf q (.fin m e) = (0, false) := by
        rw [zero, cutOf, truncTo]
        split
        · simp [scaleUp]
        · simp
      rw [skip, List.map_cons, List.map_cons, List.sum_cons, List.any_cons, sum, sticky, exact_]
      exact ⟨Int.zero_add _, Bool.false_or _⟩
    · have head : finites (.fin m e :: l) = (m, e) :: finites l := by simp [finites, zero]
      rw [head, List.map_cons, List.map_cons, List.map_cons, List.map_cons, List.sum_cons, List.sum_cons, List.any_cons, List.any_cons, sum, sticky]
      exact ⟨rfl, rfl⟩

theorem floatColumn_rounds {acc : Nat} {l : List LatVal} {q : Int} (most : ∀ p ∈ l, ∃ m e, p = .fin m e ∧ (m ≠ 0 → e + bitLen m.natAbs - 61 ≤ q))
    (attained : ∃ m e, .fin m e ∈ l ∧ m ≠ 0 ∧ e + bitLen m.natAbs - 61 = q) : (floatColumn acc l).1 = floatAfter q acc l := by
  have finite : ∀ p ∈ l, ∃ m e, p = .fin m e := fun p hp => by
    obtain ⟨m, e, eq, -⟩ := most p hp
    exact ⟨m, e, eq⟩
  obtain ⟨valid, noInf⟩ := floatColumn_finite finite
  obtain ⟨sum, sticky⟩ := cut_finites q l finite
  obtain ⟨m, e, here, nonzero, top⟩ := attained
  have inside := finites_mem.mpr ⟨here, nonzero⟩
  have below : ∀ p ∈ finites l, p.2 + bitLen p.1.natAbs - 1 ≤ q + 60 := by
    rintro ⟨n, f⟩ hp
    obtain ⟨listed, other⟩ := finites_mem.mp hp
    obtain ⟨n', f', eq, bound⟩ := most _ listed
    rw [LatVal.fin.injEq] at eq
    obtain ⟨rfl, rfl⟩ := eq
    have least := bound other
    dsimp only
    omega
  have sums (l : List (Int × Bool)) : ∀ a : Int, l.foldl (fun a p => a + p.1) a = a + (l.map (·.1)).sum := by
    induction l with
    | nil => simp
    | cons x l ih =>
      intro a
      rw [List.foldl_cons, ih, List.map_cons, List.sum_cons, Int.add_assoc]
  rw [floatAfter_eq]
  unfold floatColumn
  dsimp only
  rw [valid, noInf, if_neg Bool.false_ne_true, if_neg Bool.false_ne_true, sum, sticky]
  cases fs : finites l with
  | nil =>
    rw [fs] at inside
    exact absurd inside List.not_mem_nil
  | cons p0 rest =>
    have place : ((p0 :: rest).foldl (fun (a : Int) p => max a (p.2 + bitLen p.1.natAbs - 1)) (p0.2 + bitLen p0.1.natAbs - 1)) - 60 = q := by
      obtain ⟨above, -, found⟩ := foldl_max_spec (fun p : Int × Int => p.2 + bitLen p.1.natAbs - 1) (p0 :: rest) (p0.2 + bitLen p0.1.natAbs - 1)
      rw [fs] at below inside
      have least := above (m, e) inside
      dsimp only at least found
      rcases found with eq | ⟨x, hx, eq⟩
      · have first := below p0 List.mem_cons_self
        omega
      · have bound := below x hx
        omega
    change (roundNum _ 13 false _).1 = _
    rw [place, sums, Int.zero_add]

/-- Settles O50: the turns of transfers by `transferLine_moves`, a delivery by `barrierDecrement_lowers`, a job by its rows, a float sum by its largest product. -/
theorem enginesMove : Obligations.EnginesMove := by
  unfold Obligations.EnginesMove
  refine ⟨fun _ _ _ _ _ _ _ _ _ _ => bulk_moves, fun _ _ _ _ _ _ _ _ _ => engineRead_mem, fun _ _ _ _ _ _ _ _ => tload_moves, ?gather, ?scatter, ?rgather, ?queues,
    fun _ _ => transferLine_full, fun _ _ _ _ _ _ _ _ _ => barrierDecrement_lowers, ?start, ?ends, ?rows, ?sums⟩
  case gather =>
    intro s u v i y dst base idx port x turn op
    exact ⟨gather_indices turn op, gather_lines turn op, fun pd => gather_writes turn op⟩
  case scatter =>
    intro s v pd y base data idx line turn op aligned late sixteen two hline writes
    exact scatter_moves turn op aligned late sixteen two hline writes
  case rgather =>
    intro s u v rows rowLines i y base idx dst x turn op at_ _ list row read home alone
    obtain ⟨t, run, kept, holds⟩ := rgather_moves turn op at_ rfl rfl read home alone
    exact ⟨t, run, kept, fun p inside here => (holds p inside here).tile_stream⟩
  case queues =>
    intro s v core port y ea turn
    exact ⟨fun op at_ alive stands => ⟨qpush_pushes turn op at_ alive stands, qpush_waits turn op at_ alive stands⟩,
      fun op at_ x l => drain_takes turn op at_, fun i pd op at_ _ writes => drained_moves turn op at_ writes⟩
  case start =>
    intro s v j pending idle due ready alone
    obtain ⟨t, run, outside, running, none_, groups⟩ := latticeJobStart_starts pending idle due ready alone
    refine ⟨t, run, outside, running, none_, fun i hi => ⟨by rw [groups i hi]; rfl, fun r hr => ?_⟩⟩
    rw [segOf, groups i hi]
    exact busySegs_busy _ _ _ hr
  case ends =>
    intro s v j bad running due
    obtain ⟨t, run, ended⟩ := latticeJobEnd_ends bad running due
    refine ⟨t, run, ended.outside, ended.running, ended.ended, fun keeps i r hi hr => ?_, fun disagree i r hi hr => ?_, ended.outside.1⟩
    · rw [ended.row i r hi hr, endedSeg, if_pos keeps]
    · have residue : endedPoison j (endCode j bad ≠ 0) r (colOf s v i) = true := by
        have code : endCode j bad ≠ 0 := by
          rw [endCode, disagree, if_pos rfl]
          decide
        rw [endedPoison, decide_eq_true code, Bool.true_or]
      rw [ended.row i r hi hr, endedSeg, residue, Bool.or_true]
      split
      · rfl
      · rfl
  case rows =>
    intro s v i r j running due hi hr sound clean
    obtain ⟨t, run, ended⟩ := latticeJobEnd_ends false running due
    have code : endCode j false = 0 := by
      rw [endCode, sound]
      rfl
    have poison : endedPoison j (endCode j false ≠ 0) r (colOf s v i) = false := by
      rw [endedPoison, code]
      by_cases adds : nbit j.wordA.toNat 59 = true
      · rw [adds]
        exact clean adds
      · rw [Bool.eq_false_iff.mpr adds]
        rfl
    have seg := ended.row i r hi hr
    rw [endedSeg, poison, Bool.or_false] at seg
    refine ⟨t, run, ?_⟩
    dsimp only
    rw [seg]
    by_cases keeps : j.wordB = 0
    · rw [if_pos keeps]
      exact ⟨rfl, fun _ n hn => lane_endedData hn, fun drains => absurd keeps drains, fun drains => absurd keeps drains⟩
    · rw [if_neg keeps]
      by_cases zero : mapZero j r = true
      · rw [if_pos zero]
        refine ⟨rfl, fun h => ?_, fun _ _ => rfl, fun _ nonzero => ?_⟩
        · rcases h with h | h
          · exact absurd h keeps
          · rw [zero] at h
            cases h
        · rw [zero] at nonzero
          cases nonzero
      · rw [if_neg zero]
        exact ⟨rfl, fun _ n hn => lane_endedData hn, fun _ h => absurd h zero, fun _ _ => ⟨rfl, rfl, rfl, rfl, rfl⟩⟩
  case sums =>
    intro acc l
    exact ⟨floatColumn_invalid, fun b => floatColumn_inf, floatColumn_zeros, fun q => floatColumn_rounds⟩

end Sys2Proof.Machine
end

