-- ==== Sys2Proof/Proofs/HostQueues.lean ====
section
/-! SUPPORT. O59: what is written to host memory, and read back; events, launches, RESYNC (R184, R185, R385, R386). -/

namespace Sys2Proof.Machine

/-! ### Parts of a list of bytes -/

/-- Bytes k and on of l are m. -/
def ByteBlock (l : List Byte) (k : Nat) (m : List Byte) : Prop := ∃ p q, l = p ++ m ++ q ∧ p.length = k

namespace ByteBlock

variable {l m n : List Byte} {k j : Nat}

theorem whole (l : List Byte) : ByteBlock l 0 l := ⟨[], [], by simp, rfl⟩
theorem trans (h : ByteBlock l k m) (g : ByteBlock m j n) : ByteBlock l (k + j) n := by
  obtain ⟨p, q, rfl, hp⟩ := h
  obtain ⟨p', q', rfl, hp'⟩ := g
  exact ⟨p ++ p', q' ++ q, by simp, by simp [hp, hp']⟩
theorem left (l r : List Byte) : ByteBlock (l ++ r) 0 l := ⟨[], r, by simp, rfl⟩
theorem right (l r : List Byte) : ByteBlock (l ++ r) l.length r := ⟨l, [], by simp, rfl⟩

/-- Parts of one length, one behind the other. -/
theorem flatMap {α : Type} {f : α → List Byte} {len : Nat} (l : List α) (same : ∀ x ∈ l, (f x).length = len) {i : Nat} {x : α} (here : l[i]? = some x) :
    ByteBlock (l.flatMap f) (len * i) (f x) := by
  induction l generalizing i with
  | nil => cases here
  | cons y l ih =>
    rw [List.flatMap_cons]
    cases i with
    | zero =>
      rw [List.getElem?_cons_zero, Option.some.injEq] at here
      exact here ▸ left _ _
    | succ i =>
      have rest := (right (f y) (l.flatMap f)).trans (ih (fun z hz => same z (List.mem_cons_of_mem _ hz)) (by simpa using here))
      rw [same y List.mem_cons_self] at rest
      rwa [Nat.mul_succ, Nat.add_comm]

/-- One byte of a list given byte by byte. -/
theorem map (f : Nat → Byte) {c i : Nat} (hi : i < c) : ByteBlock ((List.range c).map f) i [f i] := by
  have one := flatMap (f := fun i => [f i]) (len := 1) (List.range c) (fun _ _ => rfl) (i := i) (x := i) (by simp [hi])
  rwa [Nat.one_mul, ← List.map_eq_flatMap] at one

end ByteBlock

/-! ### Host memory -/

/-- A byte of host memory. -/
def hostCell (s : State) (a : Nat) : Byte := sget 0 s.host.memory a

/-- Of the host's side, memory may differ. -/
theorem hostWrite_host (l : List Byte) : ∀ (s : State) (a : Nat), hostWrite s a l = { s with host := { s.host with memory := (hostWrite s a l).host.memory } } := by
  induction l with
  | nil => exact fun _ _ => rfl
  | cons b l ih =>
    intro s a
    rw [hostWrite, ih]

theorem hostCell_hostWrite (l : List Byte) : ∀ (s : State) (a e : Nat), hostCell (hostWrite s a l) e = if a ≤ e ∧ e < a + l.length then l.getD (e - a) 0 else hostCell s e := by
  induction l with
  | nil =>
    intro s a e
    rw [if_neg (by simp only [List.length_nil]; omega)]
    rfl
  | cons b l ih =>
    intro s a e
    rw [hostWrite, ih, List.length_cons]
    rcases Nat.lt_trichotomy e a with before | rfl | behind
    · rw [if_neg (by omega), if_neg (by omega), hostCell, sget_sput_ne _ _ _ (by omega)]
      rfl
    · rw [if_neg (by omega), if_pos (by omega), hostCell, sget_sput_self, Nat.sub_self]
      rfl
    · have index : e - a = (e - (a + 1)) + 1 := by omega
      rw [index, List.getD_cons_succ]
      refine if_congr (by omega) rfl ?_
      rw [hostCell, sget_sput_ne _ _ _ (by omega)]
      rfl

theorem hostRead_congr {s t : State} (n : Nat) : ∀ a, (∀ i, i < n → hostCell t (a + i) = hostCell s (a + i)) → hostRead t a n = hostRead s a n := by
  induction n with
  | zero => exact fun _ _ => rfl
  | succ n ih =>
    intro a same
    have first := same 0 (by omega)
    rw [Nat.add_zero] at first
    rw [hostRead, hostRead, ← hostCell, ← hostCell, first, ih (a + 1) (fun i hi => by
      have next := same (i + 1) (by omega)
      rwa [Nat.add_comm i, ← Nat.add_assoc] at next)]

theorem hostRead_of_bytes {t : State} (n : Nat) : ∀ a x, (∀ i, i < n → hostCell t (a + i) = BitVec.ofNat 8 (x / 256 ^ i)) → hostRead t a n = x % 2 ^ (8 * n) := by
  induction n with
  | zero =>
    intro a x _
    simp [hostRead, Nat.mod_one]
  | succ n ih =>
    intro a x bytes
    have first := bytes 0 (by omega)
    rw [Nat.add_zero, Nat.pow_zero, Nat.div_one] at first
    rw [hostRead, ← hostCell, first, ih (a + 1) (x / 256) (fun i hi => by
      have next := bytes (i + 1) (by omega)
      rwa [Nat.add_comm i, ← Nat.add_assoc, Nat.add_comm 1 i, Nat.pow_succ, Nat.mul_comm, ← Nat.div_div_eq_div_mul] at next)]
    rw [BitVec.toNat_ofNat, Nat.mul_add, Nat.add_comm (8 * n), Nat.pow_add, Nat.mod_mul]

/-- A number in the bytes written reads back. -/
theorem hostRead_written {s : State} {a k n x : Nat} {l : List Byte} (here : ByteBlock l k (bytesOf x n)) : hostRead (hostWrite s a l) (a + k) n = x % 2 ^ (8 * n) := by
  obtain ⟨p, q, rfl, hp⟩ := here
  refine hostRead_of_bytes n _ x (fun i hi => ?_)
  have inside : i < (bytesOf x n).length := by rwa [bytesOf_length]
  rw [hostCell_hostWrite, if_pos (by simp only [List.length_append, hp, bytesOf_length]; omega)]
  have index : a + k + i - a = p.length + i := by omega
  rw [index, List.append_assoc, List.getD_append_right _ _ _ _ (by omega), Nat.add_sub_cancel_left, List.getD_append _ _ _ _ inside, List.getD_eq_getElem _ _ inside, bytesOf_getElem]

theorem hostRead_word {s : State} {a k : Nat} {w : Word} {l : List Byte} (here : ByteBlock l k (bytesOf w.toNat 8)) : hostRead (hostWrite s a l) (a + k) 8 = w.toNat := by
  rw [hostRead_written here]
  exact Nat.mod_eq_of_lt w.isLt

theorem hostRead_byte {s : State} {a k : Nat} {b : Byte} {l : List Byte} (here : ByteBlock l k [b]) : hostRead (hostWrite s a l) (a + k) 1 = b.toNat := by
  have one : bytesOf b.toNat 1 = [b] := by simp [bytesOf]
  rw [hostRead_written (one.symm ▸ here)]
  exact Nat.mod_eq_of_lt b.isLt

theorem hostRead_outside {s : State} {a e n : Nat} {l : List Byte} (apart : e + n ≤ a ∨ a + l.length ≤ e) : hostRead (hostWrite s a l) e n = hostRead s e n :=
  hostRead_congr n e (fun i hi => by rw [hostCell_hostWrite, if_neg (by omega)])

/-! ### Events -/

/-- What an event changes of the host's side. -/
theorem writeEvent_host (s : State) (w0 w1 : Word) : writeEvent s w0 w1 = { s with host := { s.host with
    memory := (writeEvent s w0 w1).host.memory, evtail := BitVec.ofNat 32 ((s.host.evtail.toNat % 256 + 1) % 256), vectors := (writeEvent s w0 w1).host.vectors } } := by
  unfold writeEvent
  dsimp only
  rw [hostWrite_host]

theorem event_length (w0 w1 : Word) : (bytesOf w0.toNat 8 ++ bytesOf w1.toNat 8).length = 16 := by simp

theorem hostRead_event (s : State) (w0 w1 : Word) (a n : Nat) : hostRead (writeEvent s w0 w1) a n =
    hostRead (hostWrite s (s.host.evbase.toNat + 16 * (s.host.evtail.toNat % 256)) (bytesOf w0.toNat 8 ++ bytesOf w1.toNat 8)) a n := by
  obtain ⟨t, ht⟩ : ∃ t, t = hostWrite s (s.host.evbase.toNat + 16 * (s.host.evtail.toNat % 256)) (bytesOf w0.toNat 8 ++ bytesOf w1.toNat 8) := ⟨_, rfl⟩
  rw [writeEvent, ← ht]
  exact hostRead_congr n a (fun _ _ => rfl)

theorem writeEvent_told (s : State) (w0 w1 : Word) : Told s (writeEvent s w0 w1) w0 w1 := by
  have second : ByteBlock (bytesOf w0.toNat 8 ++ bytesOf w1.toNat 8) 8 (bytesOf w1.toNat 8) := by
    have right := ByteBlock.right (bytesOf w0.toNat 8) (bytesOf w1.toNat 8)
    rwa [bytesOf_length] at right
  refine ⟨?_, ?_, ?_⟩
  · rw [hostRead_event]
    have first := hostRead_word (s := s) (a := s.host.evbase.toNat + 16 * (s.host.evtail.toNat % 256)) (ByteBlock.left (bytesOf w0.toNat 8) (bytesOf w1.toNat 8))
    rwa [Nat.add_zero] at first
  · rw [hostRead_event]
    exact hostRead_word second
  · rw [writeEvent_host]
    dsimp only
    rw [BitVec.toNat_ofNat]
    omega

/-- An event leaves host memory outside its place. -/
theorem hostRead_writeEvent {s : State} {w0 w1 : Word} {e n : Nat}
    (apart : e + n ≤ s.host.evbase.toNat + 16 * (s.host.evtail.toNat % 256) ∨ s.host.evbase.toNat + 16 * (s.host.evtail.toNat % 256) + 16 ≤ e) :
    hostRead (writeEvent s w0 w1) e n = hostRead s e n := by
  rw [hostRead_event]
  exact hostRead_outside (by rwa [event_length])

/-- What was told stays told when the rest of the host's side changes. -/
theorem Told.host {s t u : State} {w0 w1 : Word} (h : Told s t w0 w1) (memory : u.host.memory = t.host.memory) (evtail : u.host.evtail = t.host.evtail) : Told s u w0 w1 := by
  obtain ⟨first, second, tail⟩ := h
  have reads (a n : Nat) : hostRead u a n = hostRead t a n := hostRead_congr n a (fun i _ => by rw [hostCell, memory, hostCell])
  exact ⟨by rw [reads, first], by rw [reads, second], by rw [evtail, tail]⟩

theorem Told.of {s s' t : State} {w0 w1 : Word} (h : Told s' t w0 w1) (evbase : s'.host.evbase = s.host.evbase) (evtail : s'.host.evtail = s.host.evtail) : Told s t w0 w1 := by
  rw [Told, ← evbase, ← evtail]
  exact h

end Sys2Proof.Machine
end

