-- ==== Sys2Proof/Proofs/HostCommands.lean ====
section
/-! SUPPORT. O59: launches of the host, RESYNC, and the commands of the ring (R184, R385, R386, R391 to R393, R398). -/

namespace Sys2Proof.Machine

/-! ### Launches -/

theorem outside_same {s t : State} (mem : t.mem = s.mem) (ctxs : t.ctxs = s.ctxs) : Outside s t [] := outside_of mem ctxs

theorem hostLaunch_sends {s : State} (fresh : ∀ m ∈ s.messages, m.id < s.nextId) (target : Word) (l : List Word) :
    ∃ m, (hostLaunch s target l).messages = s.messages ++ [m] ∧ m.home = .host ∧ m.msg.cls = 27 ∧ m.msg.payload = l ∧ m.msg.dest = target.toNat % 2 ^ 27 ∧
      (m.phase = .flying → s.cycle + 719 ≤ m.due) := by
  have old (g : MsgFlight → MsgFlight) : s.messages.map (fun m => if m.id = s.nextId then g m else m) = s.messages := by
    refine (List.map_congr_left (fun m hm => if_neg ?_)).trans (List.map_id' _)
    exact Nat.ne_of_lt (fresh m hm)
  unfold hostLaunch freeWord sendOut sendMsg modMsg
  dsimp only
  rw [List.map_append, old, List.map_cons, List.map_nil, if_pos rfl]
  refine ⟨_, rfl, ?_⟩
  split
  case isTrue =>
    rw [if_neg (by simp)]
    exact ⟨rfl, rfl, rfl, rfl, fun flying => by cases flying⟩
  case isFalse =>
    rw [if_pos rfl]
    exact ⟨rfl, rfl, rfl, rfl, fun _ => Nat.le_max_right _ _⟩

theorem ltarget_sends {s : State} {q : Nat} {w : Word} (free : heldBack s q = false) (none_ : s.host.waitingLaunches = []) (room : entriesOf s .host < 32)
    (fresh : ∀ m ∈ s.messages, m.id < s.nextId) : Gives (.ltarget q w) s (fun t => Outside s t [] ∧ ∃ m, t.messages = s.messages ++ [m] ∧ m.home = .host ∧ m.msg.cls = 27 ∧
      m.msg.payload = s.host.launch ∧ m.msg.dest = w.toNat % 2 ^ 27 ∧ (m.phase = .flying → s.cycle + 719 ≤ m.due)) := by
  refine ⟨hostLaunch s w s.host.launch, ?_, outside_same (by rw [hostLaunch_only]) (by rw [hostLaunch_only]), hostLaunch_sends fresh w _⟩
  change execLtarget q w s = _
  rw [execLtarget, free, if_neg Bool.false_ne_true, none_, decide_eq_true room]
  rfl

theorem ltarget_waits {s : State} {q : Nat} {w : Word} (free : heldBack s q = false) (none_ : s.host.waitingLaunches = []) (full : 32 ≤ entriesOf s .host) :
    Gives (.ltarget q w) s (fun t => Outside s t [] ∧ t.messages = s.messages ∧ t.host.waitingLaunches = [(q, w, s.host.launch)]) := by
  refine ⟨{ s with host := { s.host with waitingLaunches := [(q, w, s.host.launch)] } }, ?_, outside_same rfl rfl, rfl, rfl⟩
  change execLtarget q w s = _
  rw [execLtarget, free, if_neg Bool.false_ne_true, none_, decide_eq_false (Nat.not_lt.mpr full), Bool.false_and, if_neg Bool.false_ne_true]
  rfl

theorem hostLaunch_retries {s : State} {id due : Nat} {f : MsgFlight} (here : msgOf s id = some f) (home : f.home = .host) (phase : f.phase = .backoff due) (over_ : due ≤ s.cycle) :
    Gives (.hostLaunchRetry id) s (fun t => Outside s t [] ∧ ∃ g, msgOf t id = some g ∧ g.phase = .flying ∧ g.msg = f.msg) := by
  refine ⟨flyMsg s id, ?_, outside_same rfl rfl, _, msgOf_modMsg (f := f) ?_ ?_, rfl, rfl⟩
  · change execHostLaunchRetry id s = _
    rw [execHostLaunchRetry, here]
    dsimp only
    rw [home, phase]
    dsimp only
    rw [if_neg (Nat.not_lt.mpr over_)]
  · exact fun _ => rfl
  · exact here

/-! ### The event queue -/

theorem serveResync_none {s : State} (none_ : s.host.resync = none) : serveResync s = s := by rw [serveResync, none_]

theorem ringtail_written {s : State} {q : Nat} {w : Word} (free : heldBack s q = false) :
    exec (.ringtail q w) s = .next { s with host := { s.host with ringtail := w.setWidth 32 } } := by
  change execRingtail q w s = _
  rw [execRingtail, free, if_neg Bool.false_ne_true]

theorem writeBacklog_empty {s : State} (empty : s.host.backlog = []) (n : Nat) : writeBacklog n s = s := by
  cases n with
  | zero => rfl
  | succ n => rw [writeBacklog, empty]

theorem evhead_run {s t : State} {q : Nat} {w : Word} (free : heldBack s q = false)
    (run : serveResync (writeBacklog 256 { s with host := { s.host with evhead := w.setWidth 32 } }) = t) : exec (.evhead q w) s = .next t := by
  change execEvhead q w s = _
  rw [execEvhead, free, if_neg Bool.false_ne_true, run]

theorem evhead_written {s : State} {q : Nat} {w : Word} (free : heldBack s q = false) (empty : s.host.backlog = []) (none_ : s.host.resync = none) :
    exec (.evhead q w) s = .next { s with host := { s.host with evhead := w.setWidth 32 } } := by
  refine evhead_run free ?_
  rw [writeBacklog_empty (s := { s with host := { s.host with evhead := w.setWidth 32 } }) empty]
  exact serveResync_none none_

/-- One event waits, and has a place. -/
theorem writeBacklog_one {s : State} {e : Word × Word} (one : s.host.backlog = [e]) (room : eventsFull s = false) :
    writeBacklog 256 s = writeEvent { s with host := { s.host with backlog := [] } } e.1 e.2 := by
  have only := writeEvent_host { s with host := { s.host with backlog := [] } } e.1 e.2
  have empty : (writeEvent { s with host := { s.host with backlog := [] } } e.1 e.2).host.backlog = [] := by rw [only]
  rw [writeBacklog, one]
  dsimp only
  rw [room, if_neg Bool.false_ne_true, writeBacklog_empty empty]

theorem evhead_tells {s : State} {q : Nat} {w : Word} {e : Word × Word} (free : heldBack s q = false) (one : s.host.backlog = [e]) (none_ : s.host.resync = none)
    (room : (s.host.evtail.toNat + 1) % 256 ≠ (w.setWidth 32).toNat % 256) :
    Gives (.evhead q w) s (fun t => Outside s t [] ∧ t.host.backlog = [] ∧ Told s t e.1 e.2) := by
  obtain ⟨u, hu⟩ : ∃ u : State, u = { s with host := { s.host with evhead := w.setWidth 32, backlog := [] } } := ⟨_, rfl⟩
  have only := writeEvent_host u e.1 e.2
  refine ⟨writeEvent u e.1 e.2, evhead_run free ?_, outside_same (by rw [only, hu]) (by rw [only, hu]), by rw [only, hu],
    (writeEvent_told u e.1 e.2).of (by rw [hu]) (by rw [hu])⟩
  have idle : (writeEvent u e.1 e.2).host.resync = none := by rw [only, hu, ← none_]
  rw [writeBacklog_one (s := { s with host := { s.host with evhead := w.setWidth 32 } }) one (decide_eq_false room), ← hu, serveResync_none idle]

theorem completion_tells {s : State} {tag op status : Nat} {v : Word} (command : s.host.command = some (tag, op, status, v)) (apex : (apexOf s 0).isSome = true)
    (room : eventsFull s = false) (empty : s.host.backlog = []) (none_ : s.host.resync = none) (low : tag < 65536) :
    Gives (.hostCommandCompletion) s (fun t => Outside s t [] ∧ t.host.command = none ∧ Told s t (BitVec.ofNat 64 (tag * 2 ^ 8 + status * 2 ^ 24)) v) := by
  have only := writeEvent_host s (commandEvent tag status) v
  have word : commandEvent tag status = BitVec.ofNat 64 (tag * 2 ^ 8 + status * 2 ^ 24) := by rw [commandEvent, Nat.mod_eq_of_lt low]
  obtain ⟨u, hu⟩ : ∃ u, u = writeEvent s (commandEvent tag status) v := ⟨_, rfl⟩
  have told := writeEvent_told s (commandEvent tag status) v
  rw [← hu] at only told
  rw [word] at told
  refine ⟨{ u with host := { u.host with command := none } }, ?_, outside_same ?_ ?_, rfl, told.host rfl rfl⟩
  · have idle : ({ u with host := { u.host with command := none } } : State).host.resync = none := by rw [only, ← none_]
    have some_ : (apexOf s 0).isNone = false := by
      rw [Option.isNone_eq_false_iff]
      exact apex
    change execHostCommandCompletion s = _
    rw [execHostCommandCompletion, command]
    dsimp only
    rw [some_, room, empty, List.isEmpty_nil, Bool.not_true, Bool.or_self, Bool.or_self, if_neg Bool.false_ne_true, ← hu, serveResync_none idle]
  · exact (congrArg State.mem only).trans rfl
  · exact (congrArg State.ctxs only).trans rfl

/-! ### The summary -/

/-- The seven parts of the summary, with their sizes. -/
def summaryParts (s : State) : List (Nat × List Nat) :=
  [(64, headerPart s), (256, healthPart s), (1024, graphPart s), (512, batchPart s), (1024, regionPart s), (512, faultPart s), (256, jobPart s)]

/-- The bytes of one part. -/
def summaryPart (e : (Nat × List Nat) × Nat) : List Byte := (List.range e.1.1).map (Config.summaryByte e.2 e.1.2)

/-- The copy of the start record. -/
def summaryStart (s : State) : List (Word × Word) := s.startHeader :: (s.startRecord ++ List.replicate 27 (0, 0)).take 27

theorem summary_eq (s : State) : summary s =
    (summaryParts s).zipIdx.flatMap summaryPart ++ (summaryStart s).flatMap (fun e => bytesOf e.1.toNat 8 ++ bytesOf e.2.toNat 8) := rfl

theorem summaryPart_block (l : List (Nat × List Nat)) : ∀ (k j : Nat) {e : Nat × List Nat}, l[j]? = some e →
    ByteBlock ((l.zipIdx k).flatMap summaryPart) ((l.take j).map (·.1)).sum (summaryPart (e, k + j)) := by
  induction l with
  | nil => exact fun _ _ _ here => by cases here
  | cons x l ih =>
    intro k j e here
    rw [List.zipIdx_cons, List.flatMap_cons]
    cases j with
    | zero =>
      rw [List.getElem?_cons_zero, Option.some.injEq] at here
      exact here ▸ .left _ _
    | succ j =>
      have size : (summaryPart (x, k)).length = x.1 := by simp [summaryPart]
      have rest := (ByteBlock.right (summaryPart (x, k)) ((l.zipIdx (k + 1)).flatMap summaryPart)).trans (ih (k + 1) j (by simpa using here))
      rw [size] at rest
      rw [List.take_succ_cons, List.map_cons, List.sum_cons, ← Nat.add_assoc, Nat.add_right_comm]
      exact rest

theorem parts_length (l : List (Nat × List Nat)) : ∀ k, ((l.zipIdx k).flatMap summaryPart).length = (l.map (·.1)).sum := by
  induction l with
  | nil => exact fun _ => rfl
  | cons x l ih =>
    intro k
    rw [List.zipIdx_cons, List.flatMap_cons, List.length_append, ih, List.map_cons, List.sum_cons]
    simp [summaryPart]

theorem flatMap_length {α : Type} {f : α → List Byte} {len : Nat} (l : List α) (same : ∀ x ∈ l, (f x).length = len) : (l.flatMap f).length = len * l.length := by
  induction l with
  | nil => rfl
  | cons x l ih => rw [List.flatMap_cons, List.length_append, same x List.mem_cons_self, ih (fun y hy => same y (List.mem_cons_of_mem _ hy)), List.length_cons, Nat.mul_succ, Nat.add_comm]

theorem summaryStart_length (s : State) : (summaryStart s).length = 28 := by
  rw [summaryStart, List.length_cons, List.length_take, List.length_append, List.length_replicate, Nat.min_eq_left (by omega)]

/-- Where a part begins. -/
def summaryPlace (j : Nat) : Nat := (([64, 256, 1024, 512, 1024, 512, 256] : List Nat).take j).sum

theorem summaryParts_place (s : State) (j : Nat) : (((summaryParts s).take j).map (·.1)).sum = summaryPlace j := by
  rw [List.map_take, summaryPlace]
  rfl

theorem summaryParts_size (s : State) : ((summaryParts s).map (·.1)).sum = 3648 := by simp [summaryParts]

theorem summary_length (s : State) : (summary s).length = 4096 := by
  rw [summary_eq, List.length_append, parts_length, flatMap_length (len := 16) _ (fun e _ => event_length e.1 e.2), summaryStart_length, summaryParts_size]

/-- Every byte of the parts. -/
theorem summary_byte (s : State) {e : Nat × Nat × Nat × List Nat} (he : e ∈ [(0, 0, 64, headerPart s), (64, 1, 256, healthPart s), (320, 2, 1024, graphPart s), (1344, 3, 512, batchPart s),
    (1856, 4, 1024, regionPart s), (2880, 5, 512, faultPart s), (3392, 6, 256, jobPart s)]) {i : Nat} (hi : i < e.2.2.1) :
    ByteBlock (summary s) (e.1 + i) [Config.summaryByte e.2.1 e.2.2.2 i] := by
  have part (j k : Nat) (place : summaryPlace j = k) {x : Nat × List Nat} (here : (summaryParts s)[j]? = some x) (hx : i < x.1) :
      ByteBlock (summary s) (k + i) [Config.summaryByte j x.2 i] := by
    have block := ((ByteBlock.left ((summaryParts s).zipIdx.flatMap summaryPart) ((summaryStart s).flatMap (fun e => bytesOf e.1.toNat 8 ++ bytesOf e.2.toNat 8))).trans
      (summaryPart_block (summaryParts s) 0 j here)).trans (ByteBlock.map (Config.summaryByte (0 + j) x.2) hx)
    rwa [← summary_eq, Nat.zero_add, Nat.zero_add, summaryParts_place, place] at block
  simp only [List.mem_cons, List.not_mem_nil, or_false] at he
  rcases he with rfl | rfl | rfl | rfl | rfl | rfl | rfl
  · exact part 0 0 (by decide) rfl hi
  · exact part 1 64 (by decide) rfl hi
  · exact part 2 320 (by decide) rfl hi
  · exact part 3 1344 (by decide) rfl hi
  · exact part 4 1856 (by decide) rfl hi
  · exact part 5 2880 (by decide) rfl hi
  · exact part 6 3392 (by decide) rfl hi

/-- Every entry of the start record in it. -/
theorem summary_start (s : State) {i : Nat} {e : Word × Word} (here : (summaryStart s)[i]? = some e) :
    ByteBlock (summary s) (3648 + 16 * i) (bytesOf e.1.toNat 8) ∧ ByteBlock (summary s) (3656 + 16 * i) (bytesOf e.2.toNat 8) := by
  have entry := (ByteBlock.right ((summaryParts s).zipIdx.flatMap summaryPart) ((summaryStart s).flatMap (fun e => bytesOf e.1.toNat 8 ++ bytesOf e.2.toNat 8))).trans
    (ByteBlock.flatMap (len := 16) (summaryStart s) (fun e _ => event_length e.1 e.2) here)
  rw [← summary_eq, parts_length] at entry
  have first := entry.trans (.left _ _)
  have second := entry.trans (.right _ _)
  rw [bytesOf_length] at second
  rw [summaryParts_size, Nat.add_zero] at first
  rw [summaryParts_size] at second
  have eight : 3648 + 16 * i + 8 = 3656 + 16 * i := by omega
  exact ⟨first, eight ▸ second⟩

theorem summary_host (s : State) (h : HostSide) : summary { s with host := h } = summary s := by
  have parts : summaryParts { s with host := h } = summaryParts s := rfl
  rw [summary_eq, parts, summary_eq]
  rfl

/-! ### RESYNC -/

/-- The state with a summary written. -/
def summarised (s : State) (b : Word) (l : List Byte) : State := hostWrite { s with free := s.free + 1, host := { s.host with resync := some b } } b.toNat l

theorem summarised_host (s : State) (b : Word) (l : List Byte) :
    summarised s b l = { s with free := s.free + 1, host := { s.host with resync := some b, memory := (summarised s b l).host.memory } } :=
  hostWrite_host l { s with free := s.free + 1, host := { s.host with resync := some b } } b.toNat

/-- RESYNC is over. -/
def resyncOver (u : State) : State := { u with host := { u.host with resync := none } }

theorem Told.resyncOver {s u : State} {w0 w1 : Word} (h : Told s u w0 w1) : Told s (resyncOver u) w0 w1 := h.host rfl rfl
theorem hostRead_resyncOver (u : State) (a n : Nat) : hostRead (resyncOver u) a n = hostRead u a n := hostRead_congr n a (fun _ _ => rfl)
theorem resyncOver_outside {s u : State} (mem : u.mem = s.mem) (ctxs : u.ctxs = s.ctxs) : Outside s (resyncOver u) [] := outside_same mem ctxs

/-- The state with RESYNC's event written and RESYNC over. -/
def resynced (s : State) (b : Word) : State := resyncOver (writeEvent s 3 b)

theorem ringPending_summarised (s : State) (b : Word) (l : List Byte) : ringPending (summarised s b l) = ringPending s := by
  rw [ringPending, summarised_host, ringPending]

theorem resync_run {s : State} {q : Nat} {b : Word} (free : heldBack s q = false) (command : s.host.command = none) (empty : s.host.backlog = [])
    (apex : (apexOf s 0).isSome = true) (room : ringPending s + 1 ≤ eventRoom s) :
    exec (.resync q b) s = .next (resynced (abortRing (ringPending s) (summarised s b (summary s))) b) := by
  have some_ : (apexOf s 0).isNone = false := by
    rw [Option.isNone_eq_false_iff]
    exact apex
  obtain ⟨u, hu⟩ : ∃ u : State, u = { s with host := { s.host with resync := some b } } := ⟨_, rfl⟩
  have listed : summary u = summary s := hu ▸ summary_host s _
  have start : ({ u with free := u.free + 1 } : State) = { s with free := s.free + 1, host := { s.host with resync := some b } } := by rw [hu]
  have gate : (u.host.command.isSome || !u.host.backlog.isEmpty || (apexOf u 0).isNone || decide (eventRoom u < ringPending u + 1)) = false := by
    have command' : u.host.command = none := by rw [hu, ← command]
    have empty' : u.host.backlog = [] := by rw [hu, ← empty]
    have some' : (apexOf u 0).isNone = false := by
      rw [hu, ← some_]
      rfl
    have room' : ringPending u + 1 ≤ eventRoom u := by
      rw [hu]
      exact room
    rw [command', empty', some', decide_eq_false (Nat.not_lt.mpr room')]
    rfl
  have asked : u.host.resync = some b := by rw [hu]
  have serve : serveResync u = resynced (abortRing (ringPending s) (summarised s b (summary s))) b := by
    rw [serveResync, asked]
    dsimp only
    rw [gate, if_neg Bool.false_ne_true, listed, start, ← summarised, ringPending_summarised, ← resyncOver, ← resynced]
  change execResync q b s = _
  rw [execResync, free, if_neg Bool.false_ne_true, ← hu, serve]

theorem resynced_told (s : State) (b : Word) : Told s (resynced s b) 3 b := (writeEvent_told s 3 b).resyncOver

theorem resynced_outside (s : State) (b : Word) : Outside s (resynced s b) [] := by
  refine resyncOver_outside ?_ ?_
  · rw [writeEvent_host]
  · rw [writeEvent_host]

theorem resynced_resync (s : State) (b : Word) : (resynced s b).host.resync = none := by rw [resynced, resyncOver]

theorem resync_quiet {s : State} {q : Nat} {b : Word} (free : heldBack s q = false) (command : s.host.command = none) (empty : s.host.backlog = [])
    (apex : (apexOf s 0).isSome = true) (room : 1 ≤ eventRoom s) (none_ : ringPending s = 0) :
    exec (.resync q b) s = .next (resynced (summarised s b (summary s)) b) := by
  rw [resync_run free command empty apex (by omega), none_, abortRing]

theorem summarised_outside (s : State) (b : Word) (l : List Byte) : Outside s (summarised s b l) [] :=
  outside_same (by rw [summarised_host]) (by rw [summarised_host])

theorem resync_tells {s : State} {q : Nat} {b : Word} (free : heldBack s q = false) (command : s.host.command = none) (empty : s.host.backlog = [])
    (apex : (apexOf s 0).isSome = true) (room : 1 ≤ eventRoom s) (none_ : ringPending s = 0) :
    Gives (.resync q b) s (fun t => Outside s t [] ∧ t.host.resync = none ∧ Told s t 3 b) := by
  refine ⟨_, resync_quiet free command empty apex room none_, outside_trans (summarised_outside s b _) (resynced_outside _ b), resynced_resync _ b, ?_⟩
  exact (resynced_told (summarised s b (summary s)) b).of (by rw [summarised_host]) (by rw [summarised_host])

/-- What the summary wrote stands when the event goes elsewhere. -/
theorem hostRead_resynced {s : State} {b : Word} {l : List Byte} {k n : Nat} (apart : s.host.evbase.toNat + 4096 ≤ b.toNat ∨ b.toNat + 4096 ≤ s.host.evbase.toNat) (inside : k + n ≤ 4096) :
    hostRead (resynced (summarised s b l) b) (b.toNat + k) n = hostRead (summarised s b l) (b.toNat + k) n := by
  have evbase : (summarised s b l).host.evbase = s.host.evbase := by rw [summarised_host]
  have evtail : (summarised s b l).host.evtail = s.host.evtail := by rw [summarised_host]
  have event : hostRead (writeEvent (summarised s b l) 3 b) (b.toNat + k) n = hostRead (summarised s b l) (b.toNat + k) n := by
    refine hostRead_writeEvent ?_
    rw [evbase, evtail]
    omega
  rw [← event, resynced, hostRead_resyncOver]

/-- Entry i of the start record stands behind the header. -/
theorem summaryStart_entry (s : State) {i : Nat} (hi : i < 27) : (summaryStart s)[i + 1]? = some (s.startRecord.getD i (0, 0)) := by
  rw [summaryStart, List.getElem?_cons_succ, List.getElem?_take_of_lt hi, List.getD_eq_getElem?_getD]
  rcases Nat.lt_or_ge i s.startRecord.length with inside | behind
  · rw [List.getElem?_append_left inside, List.getElem?_eq_getElem inside]
    rfl
  · rw [List.getElem?_append_right behind, List.getElem?_eq_none behind, List.getElem?_replicate, if_pos (by omega)]
    rfl

theorem resync_summary {s : State} {q : Nat} {b : Word} (free : heldBack s q = false) (command : s.host.command = none) (empty : s.host.backlog = [])
    (apex : (apexOf s 0).isSome = true) (room : 1 ≤ eventRoom s) (none_ : ringPending s = 0)
    (apart : s.host.evbase.toNat + 4096 ≤ b.toNat ∨ b.toNat + 4096 ≤ s.host.evbase.toNat) :
    Gives (.resync q b) s (fun t =>
      (∀ e ∈ [(0, 0, 64, headerPart s), (64, 1, 256, healthPart s), (320, 2, 1024, graphPart s), (1344, 3, 512, batchPart s),
        (1856, 4, 1024, regionPart s), (2880, 5, 512, faultPart s), (3392, 6, 256, jobPart s)], ∀ i, i < e.2.2.1 →
          hostRead t (b.toNat + e.1 + i) 1 = (Config.summaryByte e.2.1 e.2.2.2 i).toNat) ∧
      hostRead t (b.toNat + 3648) 8 = s.startHeader.1.toNat ∧ hostRead t (b.toNat + 3656) 8 = s.startHeader.2.toNat ∧
      ∀ i, i < 27 → hostRead t (b.toNat + 3664 + 16 * i) 8 = (s.startRecord.getD i (0, 0)).1.toNat ∧
        hostRead t (b.toNat + 3672 + 16 * i) 8 = (s.startRecord.getD i (0, 0)).2.toNat) := by
  have word {k : Nat} {w : Word} (here : ByteBlock (summary s) k (bytesOf w.toNat 8)) (inside : k + 8 ≤ 4096) :
      hostRead (resynced (summarised s b (summary s)) b) (b.toNat + k) 8 = w.toNat := by
    rw [hostRead_resynced apart inside]
    exact hostRead_word here
  refine ⟨_, resync_quiet free command empty apex room none_, ?_, ?_, ?_, ?_⟩
  · intro e he i hi
    have inside : e.1 + i + 1 ≤ 4096 := by
      simp only [List.mem_cons, List.not_mem_nil, or_false] at he
      rcases he with rfl | rfl | rfl | rfl | rfl | rfl | rfl <;> simp only at hi ⊢ <;> omega
    rw [Nat.add_assoc, hostRead_resynced apart inside]
    exact hostRead_byte (summary_byte s he hi)
  · exact word (summary_start s (i := 0) rfl).1 (by omega)
  · exact word (summary_start s (i := 0) rfl).2 (by omega)
  · intro i hi
    obtain ⟨first, second⟩ := summary_start s (summaryStart_entry s hi)
    have one : b.toNat + (3648 + 16 * (i + 1)) = b.toNat + 3664 + 16 * i := by omega
    have two : b.toNat + (3656 + 16 * (i + 1)) = b.toNat + 3672 + 16 * i := by omega
    exact ⟨one ▸ word first (by omega), two ▸ word second (by omega)⟩

theorem resync_waits {s : State} {q : Nat} {b : Word} (free : heldBack s q = false) (command : s.host.command ≠ none) :
    exec (.resync q b) s = .next { s with host := { s.host with resync := some b } } := by
  have some_ : s.host.command.isSome = true := Option.isSome_iff_ne_none.mpr command
  have stays : serveResync { s with host := { s.host with resync := some b } } = { s with host := { s.host with resync := some b } } := by
    rw [serveResync]
    dsimp only
    rw [some_, Bool.true_or, Bool.true_or, Bool.true_or, if_pos rfl]
  change execResync q b s = _
  rw [execResync, free, if_neg Bool.false_ne_true, stays]

/-- The one entry that waits is ended as aborted, and RESYNC's event follows. -/
theorem resync_aborts {s : State} {q tag : Nat} {b : Word} (free : heldBack s q = false) (command : s.host.command = none) (empty : s.host.backlog = [])
    (apex : (apexOf s 0).isSome = true) (room : 2 ≤ eventRoom s) (one : ringPending s = 1) (htag : bits (ringWord s 0) 23 8 = tag)
    (apart : s.host.ringbase.toNat + 4096 ≤ b.toNat ∨ b.toNat + 4096 ≤ s.host.ringbase.toNat) :
    Gives (.resync q b) s (fun t => Outside s t [] ∧ t.host.resync = none ∧ t.host.ringhead.toNat = (s.host.ringhead.toNat % 64 + 1) % 64 ∧
      t.host.evtail.toNat = (s.host.evtail.toNat % 256 + 2) % 256 ∧
      hostRead t (s.host.evbase.toNat + 16 * (s.host.evtail.toNat % 256)) 8 = tag * 2 ^ 8 + 2 * 2 ^ 24 ∧
      hostRead t (s.host.evbase.toNat + 16 * ((s.host.evtail.toNat % 256 + 1) % 256)) 8 = 3) := by
  obtain ⟨u, hu⟩ : ∃ u, u = summarised s b (summary s) := ⟨_, rfl⟩
  have uonly := summarised_host s b (summary s)
  rw [← hu] at uonly
  have word : ringWord u 0 = ringWord s 0 := by
    have ringbase : u.host.ringbase = s.host.ringbase := by rw [uonly]
    have ringhead : u.host.ringhead = s.host.ringhead := by rw [uonly]
    rw [ringWord, ringWord, ringbase, ringhead, hu, summarised, hostRead_outside (by rw [summary_length]; omega)]
    exact hostRead_congr _ _ (fun _ _ => rfl)
  have small : tag < 65536 := by
    rw [← htag]
    exact Nat.mod_lt _ (by decide)
  -- the state after the entry's event
  obtain ⟨r, hr⟩ : ∃ r : State, r = (freeWord u).2 := ⟨_, rfl⟩
  obtain ⟨v, hv⟩ : ∃ v, v = writeEvent r (commandEvent tag 2) (freeWord u).1 := ⟨_, rfl⟩
  obtain ⟨x, hx⟩ : ∃ x : State, x = { v with host := { v.host with ringhead := BitVec.ofNat 32 ((v.host.ringhead.toNat % 64 + 1) % 64) } } := ⟨_, rfl⟩
  have ronly : r = { u with free := u.free + 1 } := hr
  have vonly := writeEvent_host r (commandEvent tag 2) (freeWord u).1
  rw [← hv] at vonly
  have aborted : abortRing 1 u = x := by
    have tag' : bits (ringWord r 0) 23 8 = tag := by rw [← htag, ← word, hr]; rfl
    rw [hx, hv, ← tag', hr]
    rfl
  have told := writeEvent_told r (commandEvent tag 2) (freeWord u).1
  rw [← hv] at told
  have told := Told.host (u := x) told (by rw [hx]) (by rw [hx])
  obtain ⟨first, -, tail⟩ := told
  have evbase : r.host.evbase = s.host.evbase := by rw [ronly, uonly]
  have evtail : r.host.evtail = s.host.evtail := by rw [ronly, uonly]
  have xbase : x.host.evbase = s.host.evbase := by rw [hx, vonly, evbase]
  rw [evtail] at tail
  rw [evbase, evtail] at first
  obtain ⟨next, -, tail'⟩ := resynced_told x b
  rw [xbase, tail] at next
  rw [tail] at tail'
  have vhead : v.host.ringhead = s.host.ringhead := by rw [vonly, ronly, uonly]
  refine ⟨resynced x b, ?_, outside_trans (outside_same ?_ ?_) (resynced_outside x b), resynced_resync x b, ?_, ?_, ?_, ?_⟩
  · rw [resync_run free command empty apex (by omega), one, ← hu, aborted]
  · rw [hx, vonly, ronly, uonly]
  · rw [hx, vonly, ronly, uonly]
  · have head : (resynced x b).host.ringhead = x.host.ringhead := by rw [resynced, resyncOver, writeEvent_host]
    rw [head, hx]
    dsimp only
    rw [vhead, BitVec.toNat_ofNat]
    omega
  · rw [tail']
    omega
  · have event : hostRead (resynced x b) (s.host.evbase.toNat + 16 * (s.host.evtail.toNat % 256)) 8 = hostRead x (s.host.evbase.toNat + 16 * (s.host.evtail.toNat % 256)) 8 := by
      rw [resynced, hostRead_resyncOver]
      refine hostRead_writeEvent ?_
      rw [xbase, tail]
      omega
    rw [event, first, commandEvent, Nat.mod_eq_of_lt small, BitVec.toNat_ofNat, Nat.mod_eq_of_lt (by omega)]
  · have index : (s.host.evtail.toNat % 256 + 1) % 256 % 256 = (s.host.evtail.toNat % 256 + 1) % 256 := Nat.mod_mod _ _
    rw [index] at next
    exact next

end Sys2Proof.Machine
end

