-- ==== Sys2Proof/Proofs/HostRing.lean ====
section
/-! SUPPORT. O59: the commands of the host's ring (R92, R385, R391 to R393, R398). -/

namespace Sys2Proof.Machine

/-! ### A command that is taken -/

/-- The command stands for its completion, its entry is taken. -/
def closeCommand (t : State) (op tag status : Nat) (v : Word) : State :=
  { t with host := { t.host with ringhead := BitVec.ofNat 32 ((t.host.ringhead.toNat % 64 + 1) % 64), command := some (tag, op, status, v) } }

/-- What a command changes beside its work. -/
structure Closed (t u : State) : Prop where
  only : u = { t with free := u.free, host := { t.host with ringhead := u.host.ringhead, command := u.host.command } }

namespace Closed

variable {s t u : State} (h : Closed t u)
include h

theorem outside (mem : t.mem = s.mem) (ctxs : t.ctxs = s.ctxs) : Outside s u [] := outside_same (by rw [h.only, ← mem]) (by rw [h.only, ← ctxs])
theorem hostRead (a n : Nat) : hostRead u a n = Machine.hostRead t a n := hostRead_congr n a (fun i _ => by rw [hostCell, h.only, hostCell])

end Closed

theorem closeCommand_closed (t : State) (op tag status : Nat) (v : Word) : Closed t (closeCommand t op tag status v) := ⟨rfl⟩

theorem closeCommand_taken {s t : State} (op tag status : Nat) (v : Word) (head : t.host.ringhead = s.host.ringhead) :
    Taken s (closeCommand t op tag status v) op tag status := by
  refine ⟨⟨v, rfl⟩, ?_⟩
  rw [closeCommand, ← head]
  dsimp only
  rw [BitVec.toNat_ofNat]
  omega

section
variable {s t : State} {op tag status : Nat} {operands : List Nat} {work : State → State × Nat × Option Word}

theorem startCommand_valued {v : Word} (c : Commanded s op tag operands) (does : work s = (t, status, some v)) :
    startCommand s op tag operands work = closeCommand t op tag status v := by
  rw [startCommand, c.1, c.2, does]
  rfl

/-- A command whose work gives no value. -/
theorem startCommand_runs (c : Commanded s op tag operands) (does : work s = (t, status, none)) (head : t.host.ringhead = s.host.ringhead) :
    ∃ u, startCommand s op tag operands work = u ∧ Taken s u op tag status ∧ Closed t u := by
  obtain ⟨r, hr⟩ : ∃ r : State, r = { t with free := t.free + 1 } := ⟨_, rfl⟩
  refine ⟨closeCommand r op tag status (Config.remoteWord t.free), ?_, closeCommand_taken op tag status _ (hr ▸ head), ⟨?_⟩⟩
  · rw [startCommand, c.1, c.2, does, hr]
    rfl
  · rw [hr]
    rfl

end

/-! ### UNMAP -/

/-- A TLB entry does not hold the address. -/
def tlbKeeps (va : Nat) (e : TlbEntry) : Bool := !(e.page ≤ va % 2 ^ 53 && va % 2 ^ 53 < e.page + 2 ^ e.lsize)

theorem tlbKeeps_iff (va : Nat) (e : TlbEntry) : tlbKeeps va e = true ↔ ¬(e.page ≤ va % 2 ^ 53 ∧ va % 2 ^ 53 < e.page + 2 ^ e.lsize) := by
  rw [tlbKeeps, Bool.not_eq_true', ← Bool.not_eq_true, Bool.and_eq_true, decide_eq_true_eq, decide_eq_true_eq]

/-- The TLBs of the cores, and of the clusters, lose what holds the address. -/
def dropCores (va : Nat) (l : List Nat) (t : State) : State := l.foldl (fun u k => modCore u k (fun x => { x with tlb := x.tlb.filter (tlbKeeps va) })) t
def dropClusters (va : Nat) (l : List Nat) (t : State) : State := l.foldl (fun u v => modCluster u v (fun x => { x with tlb := x.tlb.filter (tlbKeeps va) })) t

theorem dropCores_only (va : Nat) (l : List Nat) (t : State) : dropCores va l t = { t with cores := (dropCores va l t).cores } :=
  foldl_keeps (P := fun u => u = { t with cores := u.cores }) (fun u k h => by rw [h]; rfl) l rfl

theorem dropClusters_only (va : Nat) (l : List Nat) (t : State) : dropClusters va l t = { t with clusters := (dropClusters va l t).clusters } :=
  foldl_keeps (P := fun u => u = { t with clusters := u.clusters }) (fun u k h => by rw [h]; rfl) l rfl

theorem dropCores_tlb {va k : Nat} {e : TlbEntry} (l : List Nat) : ∀ {t : State}, e ∈ (coreAt (dropCores va l t) k).tlb → e ∈ (coreAt t k).tlb ∧ (k ∈ l → tlbKeeps va e = true) := by
  induction l with
  | nil => exact fun h => ⟨h, fun none_ => absurd none_ List.not_mem_nil⟩
  | cons j l ih =>
    intro t h
    obtain ⟨old, kept⟩ := ih h
    rcases eq_or_ne k j with rfl | other
    · rw [coreAt_modCore_self, List.mem_filter] at old
      exact ⟨old.1, fun _ => old.2⟩
    · rw [coreAt_modCore, if_neg other] at old
      exact ⟨old, fun here => kept ((List.mem_cons.mp here).resolve_left other)⟩

theorem dropClusters_tlb {va k : Nat} {e : TlbEntry} (l : List Nat) : ∀ {t : State}, e ∈ (clusterAt (dropClusters va l t) k).tlb → e ∈ (clusterAt t k).tlb ∧ (k ∈ l → tlbKeeps va e = true) := by
  induction l with
  | nil => exact fun h => ⟨h, fun none_ => absurd none_ List.not_mem_nil⟩
  | cons j l ih =>
    intro t h
    obtain ⟨old, kept⟩ := ih h
    rcases eq_or_ne k j with rfl | other
    · rw [clusterAt_modCluster_self, List.mem_filter] at old
      exact ⟨old.1, fun _ => old.2⟩
    · rw [clusterAt_modCluster_ne _ _ other] at old
      exact ⟨old, fun here => kept ((List.mem_cons.mp here).resolve_left other)⟩

/-- What is not stored is as at reset. -/
theorem sget_unstored {α : Type} (d : α) (m : Store α) {k : Nat} (none_ : k ∉ m.map (·.1)) : sget d m k = d := by
  induction m with
  | nil => rfl
  | cons x m ih =>
    rw [List.map_cons, List.mem_cons, not_or] at none_
    rw [sget, if_neg none_.1, ih none_.2]

theorem dropCores_all {va k : Nat} {e : TlbEntry} {t : State} (h : e ∈ (coreAt (dropCores va (t.cores.map (·.1)) t) k).tlb) : tlbKeeps va e = true := by
  obtain ⟨old, kept⟩ := dropCores_tlb _ h
  by_cases stored : k ∈ t.cores.map (·.1)
  · exact kept stored
  · rw [coreAt, sget_unstored _ _ stored] at old
    exact absurd old List.not_mem_nil

theorem dropClusters_all {va k : Nat} {e : TlbEntry} {t : State} (h : e ∈ (clusterAt (dropClusters va (t.clusters.map (·.1)) t) k).tlb) : tlbKeeps va e = true := by
  obtain ⟨old, kept⟩ := dropClusters_tlb _ h
  by_cases stored : k ∈ t.clusters.map (·.1)
  · exact kept stored
  · rw [clusterAt, sget_unstored _ _ stored] at old
    exact absurd old List.not_mem_nil

theorem unmap_done {s : State} {tag va a : Nat} (c : Commanded s 1 tag [s.root, va]) (leaf : leafPlace s (va % 2 ^ 53) 4 0 s.root = some a) (near : cxlGone s a = false) :
    Gives (.unmap tag s.root va) s (fun t => Taken s t 1 tag 0 ∧ readMem t a 8 = readMem s a 8 % 2 ^ 63 ∧
      (∀ k, ∀ e ∈ (coreAt t k).tlb, ¬(e.page ≤ va % 2 ^ 53 ∧ va % 2 ^ 53 < e.page + 2 ^ e.lsize)) ∧
      ∀ v, ∀ e ∈ (clusterAt t v).tlb, ¬(e.page ≤ va % 2 ^ 53 ∧ va % 2 ^ 53 < e.page + 2 ^ e.lsize)) := by
  obtain ⟨w, hw⟩ : ∃ w, w = placeWrite s a (homeSlice true 0 a + 2048 * 4) (bytesOf (readMem s a 8 % 2 ^ 63) 8) := ⟨_, rfl⟩
  have placed := (placeWrite_placed s a (homeSlice true 0 a + 2048 * 4) (bytesOf (readMem s a 8 % 2 ^ 63) 8)).rest
  rw [← hw] at placed
  have written : readMem w a 8 = readMem s a 8 % 2 ^ 63 := by
    have read := readMem_of_bytes (s := w) 8 a (readMem s a 8 % 2 ^ 63) (fun i hi => hw ▸ memByte_placeWrite_inside _ near hi)
    rw [read]
    omega
  obtain ⟨x, hx⟩ : ∃ x, x = dropCores va (w.cores.map (·.1)) w := ⟨_, rfl⟩
  have xonly := dropCores_only va (w.cores.map (·.1)) w
  obtain ⟨y, hy⟩ : ∃ y, y = dropClusters va (x.clusters.map (·.1)) x := ⟨_, rfl⟩
  have yonly := dropClusters_only va (x.clusters.map (·.1)) x
  rw [← hx] at xonly
  rw [← hy] at yonly
  have head : y.host.ringhead = s.host.ringhead := by rw [yonly, xonly, placed]
  obtain ⟨t, run, taken, closed⟩ := startCommand_runs (t := y) (work := fun t =>
    if s.root ≠ t.root then (t, 1, none)
    else
      let t := match leafPlace t (va % 2 ^ 53) 4 0 t.root with
        | some a => placeWrite t a (homeSlice true 0 a + 2048 * 4) (bytesOf (readMem t a 8 % 2 ^ 63) 8)
        | none => t
      let t := dropCores va (t.cores.map (·.1)) t
      (dropClusters va (t.clusters.map (·.1)) t, 0, none)) c (by
    dsimp only
    rw [if_neg (not_not_intro rfl), leaf]
    dsimp only
    rw [← hw, ← hx, ← hy]) head
  refine ⟨t, congrArg Host.Outcome.next run, taken, ?_, fun k e he => ?_, fun v e he => ?_⟩
  · rw [← written]
    exact readMem_congr (by rw [closed.only, yonly, xonly]) 8 a
  · rw [← tlbKeeps_iff]
    have core : coreAt t k = coreAt x k := by rw [coreAt, closed.only, yonly, coreAt]
    rw [core, hx] at he
    exact dropCores_all he
  · rw [← tlbKeeps_iff]
    have cluster : clusterAt t v = clusterAt y v := by rw [clusterAt, closed.only, clusterAt]
    rw [cluster, hy] at he
    exact dropClusters_all he

/-! ### QUOTA, CLRSTART, POWERLIM and codes without a command -/

theorem quota_set {s : State} {tag a n : Nat} (c : Commanded s 2 tag [a, n]) (pos : 0 < a) (low : a < 4096) (small : n < 2 ^ 32) (enough : (accountOf s a).charge ≤ n * 65536) :
    Gives (.quota tag a n) s (fun t => Outside s t [] ∧ Taken s t 2 tag 0 ∧ accountOf t a = { accountOf s a with quota := BitVec.ofNat 32 n }) := by
  obtain ⟨t, run, taken, closed⟩ := startCommand_runs (t := setAccount s a { accountOf s a with quota := BitVec.ofNat 32 n }) (status := 0) (work := fun t =>
    let x := accountOf t a
    if a = 0 || 4096 ≤ a || 2 ^ 32 ≤ n || n * 65536 < x.charge then (t, 1, none)
    else (setAccount t a { x with quota := BitVec.ofNat 32 n }, 0, none)) c (if_neg (by
      simp only [Bool.or_eq_true, decide_eq_true_eq]
      omega)) rfl
  refine ⟨t, congrArg Host.Outcome.next run, closed.outside rfl rfl, taken, ?_⟩
  rw [accountOf, closed.only, setAccount, sget_sput_self]

theorem quota_refused {s : State} {tag a n : Nat} (c : Commanded s 2 tag [a, n]) (short : n * 65536 < (accountOf s a).charge) :
    Gives (.quota tag a n) s (fun t => Outside s t [] ∧ Taken s t 2 tag 1 ∧ t.accounts = s.accounts) := by
  obtain ⟨t, run, taken, closed⟩ := startCommand_runs (t := s) (status := 1) (work := fun t =>
    let x := accountOf t a
    if a = 0 || 4096 ≤ a || 2 ^ 32 ≤ n || n * 65536 < x.charge then (t, 1, none)
    else (setAccount t a { x with quota := BitVec.ofNat 32 n }, 0, none)) c (if_pos (by
      rw [decide_eq_true short, Bool.or_true])) rfl
  exact ⟨t, congrArg Host.Outcome.next run, closed.outside rfl rfl, taken, by rw [closed.only]⟩

theorem unstick_sticky (e : Word × Word) : stepSticky (unstick e) = false := by
  have bit := testBit_setBits (x := e.1.toNat) (v := 0) (pos := 9) (n := 9) (len := 1) (by decide)
  rw [stepSticky, nbit, unstick, BitVec.toNat_ofNat, Nat.testBit_mod_two_pow, bit]
  simp

theorem unstick_outcome (e : Word × Word) : stepOutcome (unstick e) = stepOutcome e := by
  refine Nat.eq_of_testBit_eq (fun i => ?_)
  have bit := testBit_setBits (x := e.1.toNat) (v := 0) (pos := 9) (n := 10 + i) (len := 1) (by decide)
  rw [stepOutcome, stepOutcome, bits, bits, Nat.testBit_mod_two_pow, Nat.testBit_mod_two_pow, Nat.testBit_shiftRight, Nat.testBit_shiftRight, unstick, BitVec.toNat_ofNat,
    Nat.testBit_mod_two_pow, bit, if_neg (by omega)]
  by_cases inside : i < 2
  · rw [decide_eq_true (show 10 + i < 64 by omega), Bool.true_and]
  · rw [decide_eq_false (show ¬ i < 11 + 1 - 10 by omega), Bool.false_and, Bool.false_and]

theorem clrstart_clears {s : State} {tag : Nat} (c : Commanded s 4 tag []) :
    Gives (.clrstart tag) s (fun t => Outside s t [] ∧ Taken s t 4 tag 0 ∧ ∀ i, stepSticky (entryOf t i) = false ∧ stepOutcome (entryOf t i) = stepOutcome (entryOf s i)) := by
  obtain ⟨t, run, taken, closed⟩ := startCommand_runs (t := { s with startRecord := s.startRecord.map unstick }) (status := 0)
    (work := fun t => ({ t with startRecord := t.startRecord.map unstick }, 0, none)) c rfl rfl
  refine ⟨t, congrArg Host.Outcome.next run, closed.outside rfl rfl, taken, fun i => ?_⟩
  have entry : entryOf t i = (s.startRecord.map unstick).getD (i - 1) (0, 0) := by rw [entryOf, closed.only]
  have none_ : unstick (0, 0) = (0, 0) := by decide
  rw [← none_, List.getD_map] at entry
  rw [entry]
  exact ⟨unstick_sticky _, unstick_outcome _⟩

theorem powerlim_set {s : State} {tag w : Nat} (c : Commanded s 7 tag [w]) (low : 1800 ≤ w) (high : w ≤ 2600) :
    Gives (.powerlim tag w) s (fun t => Outside s t [] ∧ Taken s t 7 tag 0 ∧ t.powerLimit = w) := by
  obtain ⟨t, run, taken, closed⟩ := startCommand_runs (t := { s with powerLimit := w }) (status := 0)
    (work := fun t => if 1800 ≤ w && w ≤ 2600 then ({ t with powerLimit := w }, 0, none) else (t, 1, none)) c (if_pos (by simp [low, high])) rfl
  exact ⟨t, congrArg Host.Outcome.next run, closed.outside rfl rfl, taken, by rw [closed.only]⟩

theorem powerlim_refused {s : State} {tag w : Nat} (c : Commanded s 7 tag [w]) (out : w < 1800 ∨ 2600 < w) :
    Gives (.powerlim tag w) s (fun t => Outside s t [] ∧ Taken s t 7 tag 1 ∧ t.powerLimit = s.powerLimit) := by
  obtain ⟨t, run, taken, closed⟩ := startCommand_runs (t := s) (status := 1)
    (work := fun t => if 1800 ≤ w && w ≤ 2600 then ({ t with powerLimit := w }, 0, none) else (t, 1, none)) c (if_neg (by
      rw [Bool.and_eq_true, decide_eq_true_eq, decide_eq_true_eq]
      omega)) rfl
  exact ⟨t, congrArg Host.Outcome.next run, closed.outside rfl rfl, taken, by rw [closed.only]⟩

theorem unknownCommand_ends {s : State} {tag op : Nat} (c : Commanded s op tag []) (other : op = 0 ∨ 7 < op) (low : op < 256) :
    Gives (.unknownCommand tag op) s (fun t => Outside s t [] ∧ Taken s t op tag 3 ∧ t.mem = s.mem) := by
  obtain ⟨t, run, taken, closed⟩ := startCommand_runs (t := s) (status := 3) (work := fun t => (t, 3, none)) c rfl rfl
  refine ⟨t, ?_, closed.outside rfl rfl, taken, by rw [closed.only]⟩
  change execUnknownCommand tag op s = _
  rw [execUnknownCommand, if_neg (by
    simp only [Bool.or_eq_true, Bool.and_eq_true, decide_eq_true_eq]
    omega), run]

/-! ### FWSTAGE and ATTEST -/

theorem fwstage_stages {s : State} {tag a n : Nat} (c : Commanded s 5 tag [a, n]) :
    let image := bytesOf (hostRead s a n) n
    Gives (.fwstage tag a n) s (fun t => Outside s t [] ∧ Taken s t 5 tag (if imageOk s image then 0 else 1) ∧
      t.stagedImage = (imageOk s image || s.stagedImage) ∧ t.firmware = if imageOk s image then sput [] s.firmware (1 - s.firmwareSlot) image else s.firmware) := by
  intro image
  by_cases good : imageOk s image = true
  · obtain ⟨t, run, taken, closed⟩ := startCommand_runs (t := { s with firmware := sput [] s.firmware (1 - s.firmwareSlot) image, stagedImage := true }) (status := 0) (work := fun t =>
      let bytes := bytesOf (hostRead t a n) n
      if imageOk t bytes then ({ t with firmware := sput [] t.firmware (1 - t.firmwareSlot) bytes, stagedImage := true }, 0, none) else (t, 1, none)) c (if_pos good) rfl
    rw [if_pos good, if_pos good, good, Bool.true_or]
    exact ⟨t, congrArg Host.Outcome.next run, closed.outside rfl rfl, taken, by rw [closed.only], by rw [closed.only]⟩
  · obtain ⟨t, run, taken, closed⟩ := startCommand_runs (t := s) (status := 1) (work := fun t =>
      let bytes := bytesOf (hostRead t a n) n
      if imageOk t bytes then ({ t with firmware := sput [] t.firmware (1 - t.firmwareSlot) bytes, stagedImage := true }, 0, none) else (t, 1, none)) c (if_neg good) rfl
    rw [if_neg good, if_neg good, Bool.eq_false_iff.mpr good, Bool.false_or]
    exact ⟨t, congrArg Host.Outcome.next run, closed.outside rfl rfl, taken, by rw [closed.only], by rw [closed.only]⟩

theorem attestation_parts (s : State) (q : Nat) (nonce : List Byte) :
    (∀ i, i < 2668 → ByteBlock (attestation s q nonce) i [Config.signatureByte q nonce (sget [] s.firmware s.firmwareSlot) (recordBytes s) i]) ∧
    ByteBlock (attestation s q nonce) 2668 (bytesOf q 4) ∧ ByteBlock (attestation s q nonce) 2672 (bytesOf (32767 - q) 4) := by
  rw [attestation]
  generalize Config.signatureByte q nonce (sget [] s.firmware s.firmwareSlot) (recordBytes s) = f
  have size : ((List.range 2668).map f).length = 2668 := by rw [List.length_map, List.length_range]
  generalize hl : (List.range 2668).map f = l at size ⊢
  refine ⟨fun i hi => ?_, ?_, ?_⟩
  · have byte := ((ByteBlock.left (l ++ bytesOf q 4) (bytesOf (32767 - q) 4)).trans (.left _ _)).trans (hl ▸ ByteBlock.map f hi)
    rwa [Nat.zero_add] at byte
  · have leaf := (ByteBlock.left (l ++ bytesOf q 4) (bytesOf (32767 - q) 4)).trans (.right _ _)
    rwa [size, Nat.zero_add] at leaf
  · have left := ByteBlock.right (l ++ bytesOf q 4) (bytesOf (32767 - q) 4)
    rwa [List.length_append, size, bytesOf_length] at left

theorem attest_signs {s : State} {tag b : Nat} (c : Commanded s 6 tag [b]) (free : s.attestLeaf < 32768) :
    Gives (.attest tag b) s (fun t => Outside s t [] ∧ t.attestLeaf = s.attestLeaf + 1 ∧ Taken s t 6 tag 0 ∧
      t.host.command = some (tag, 6, 0, BitVec.ofNat 64 (32767 - s.attestLeaf)) ∧
      (∀ i, i < 2668 → hostRead t (b + 32 + i) 1 = (Config.signatureByte s.attestLeaf (bytesOf (hostRead s b 32) 32)
        (sget [] s.firmware s.firmwareSlot) (recordBytes s) i).toNat) ∧
      hostRead t (b + 2700) 4 = s.attestLeaf ∧ hostRead t (b + 2704) 4 = 32767 - s.attestLeaf) := by
  obtain ⟨l, hl⟩ : ∃ l, l = attestation s s.attestLeaf (bytesOf (hostRead s b 32) 32) := ⟨_, rfl⟩
  obtain ⟨signature, leaf, left⟩ := attestation_parts s s.attestLeaf (bytesOf (hostRead s b 32) 32)
  rw [← hl] at signature leaf left
  obtain ⟨w, hw⟩ : ∃ w, w = hostWrite { s with attestLeaf := s.attestLeaf + 1 } (b + 32) l := ⟨_, rfl⟩
  have only := hostWrite_host l { s with attestLeaf := s.attestLeaf + 1 } (b + 32)
  rw [← hw] at only
  have run := startCommand_valued (t := w) (status := 0) (v := BitVec.ofNat 64 (32767 - s.attestLeaf)) (work := fun t =>
    let q := t.attestLeaf
    if 32768 ≤ q then (t, 1, some 0)
    else (hostWrite { t with attestLeaf := q + 1 } (b + 32) (attestation t q (bytesOf (hostRead t b 32) 32)), 0, some (BitVec.ofNat 64 (32767 - q)))) c (by
      dsimp only
      rw [if_neg (Nat.not_le.mpr free), ← hl, ← hw])
  have closed := closeCommand_closed w 6 tag 0 (BitVec.ofNat 64 (32767 - s.attestLeaf))
  refine ⟨_, congrArg Host.Outcome.next run, closed.outside (by rw [only]) (by rw [only]), ?_, closeCommand_taken 6 tag 0 _ (by rw [only]), rfl, fun i hi => ?_, ?_, ?_⟩
  · rw [closed.only, only]
  · rw [closed.hostRead, hw]
    exact hostRead_byte (signature i hi)
  · have place : b + 2700 = b + 32 + 2668 := by omega
    rw [closed.hostRead, hw, place, hostRead_written leaf]
    omega
  · have place : b + 2704 = b + 32 + 2672 := by omega
    rw [closed.hostRead, hw, place, hostRead_written left]
    omega

theorem attest_refused {s : State} {tag b : Nat} (c : Commanded s 6 tag [b]) (used : 32768 ≤ s.attestLeaf) :
    Gives (.attest tag b) s (fun t => Outside s t [] ∧ t.attestLeaf = s.attestLeaf ∧ Taken s t 6 tag 1) := by
  have run := startCommand_valued (t := s) (status := 1) (v := 0) (work := fun t =>
    let q := t.attestLeaf
    if 32768 ≤ q then (t, 1, some 0)
    else (hostWrite { t with attestLeaf := q + 1 } (b + 32) (attestation t q (bytesOf (hostRead t b 32) 32)), 0, some (BitVec.ofNat 64 (32767 - q)))) c (if_pos used)
  exact ⟨_, congrArg Host.Outcome.next run, (closeCommand_closed s 6 tag 1 0).outside rfl rfl, rfl, closeCommand_taken 6 tag 1 0 rfl⟩

/-! ### TELEMETRY -/

/-- The block of one core of the vertex. -/
def telemetryCore (s : State) (x : Word) (k : Nat) : List Byte :=
  let v := vertexAt (bits x.toNat 1 0) (bits x.toNat 8 2)
  if 9 ≤ k && !(isApexVertex v) then bytesOf 0 512 else coreBlock (coreAt s (16 * v + (if 9 ≤ k then k + 5 else k))).counters

/-- The words of a core's block. -/
def counterWords (y : Counters) : List Word :=
  [y.issued, y.parked, y.bank, y.tokmiss, y.rulemiss, y.refused, y.retries, y.undeliv, y.steals, y.spills, y.dupbytes, y.checker]

theorem wordList_length (l : List Word) : (l.flatMap (fun w => bytesOf w.toNat 8)).length = 8 * l.length := flatMap_length l (fun _ _ => bytesOf_length _ _)

theorem wordList_block {l : List Word} {i : Nat} {w : Word} (here : l[i]? = some w) : ByteBlock (l.flatMap (fun w => bytesOf w.toNat 8)) (8 * i) (bytesOf w.toNat 8) :=
  ByteBlock.flatMap l (fun _ _ => bytesOf_length _ _) here

theorem coreBlock_word {y : Counters} {i : Nat} {w : Word} (here : (counterWords y)[i]? = some w) : ByteBlock (coreBlock y) (8 * i) (bytesOf w.toNat 8) := by
  have word := ((ByteBlock.left ((counterWords y).flatMap (fun w => bytesOf w.toNat 8) ++ bytesOf 0 160)
    ((List.range 64).flatMap (fun i => bytesOf (if i = 0 then 0 else (sget 0 y.faults i).toNat) 4))).trans (.left _ _)).trans (wordList_block here)
  rwa [Nat.zero_add] at word

theorem coreBlock_fault {y : Counters} {i : Nat} (pos : 1 ≤ i) (hi : i < 64) : ByteBlock (coreBlock y) (0x100 + 4 * i) (bytesOf (sget 0 y.faults i).toNat 4) := by
  have fault := (ByteBlock.right ((counterWords y).flatMap (fun w => bytesOf w.toNat 8) ++ bytesOf 0 160)
    ((List.range 64).flatMap (fun i => bytesOf (if i = 0 then 0 else (sget 0 y.faults i).toNat) 4))).trans
    (ByteBlock.flatMap (len := 4) (f := fun i => bytesOf (if i = 0 then 0 else (sget 0 y.faults i).toNat) 4) (List.range 64) (fun _ _ => bytesOf_length _ _) (i := i) (x := i) (by rw [List.getElem?_range hi]))
  rwa [List.length_append, wordList_length, bytesOf_length, if_neg (by omega)] at fault

theorem coreBlock_length (y : Counters) : (coreBlock y).length = 512 := by
  have words : (coreBlock y).length = (((counterWords y).flatMap (fun w => bytesOf w.toNat 8) ++ bytesOf 0 160) ++
    (List.range 64).flatMap (fun i => bytesOf (if i = 0 then 0 else (sget 0 y.faults i).toNat) 4)).length := rfl
  rw [words, List.length_append, List.length_append, wordList_length, bytesOf_length, flatMap_length (len := 4) _ (fun _ _ => bytesOf_length _ _), List.length_range]
  rfl

theorem telemetryCore_length (s : State) (x : Word) (k : Nat) : (telemetryCore s x k).length = 512 := by
  rw [telemetryCore]
  split
  · exact bytesOf_length _ _
  · exact coreBlock_length _

/-- What stands before the cores' blocks. -/
def telemetryHead (s : State) (n : Nat) : List Byte :=
  [s.statStopped, s.statHostdrop, s.statThermal, s.statPoison].flatMap (fun w => bytesOf w.toNat 8) ++ bytesOf 0 32 ++
    (List.range 4).flatMap (fun d => bytesOf (Config.powerReading d n).toNat 8 ++ bytesOf (Config.temperatureReading d n).toNat 8) ++ bytesOf 0 384

theorem telemetryHead_length (s : State) (n : Nat) : (telemetryHead s n).length = 512 := by
  rw [telemetryHead, List.length_append, List.length_append, List.length_append, wordList_length, bytesOf_length, bytesOf_length,
    flatMap_length (len := 16) _ (fun _ _ => event_length _ _), List.length_range]
  rfl

theorem telemetryBlock_eq (s : State) (x : Word) (n : Nat) : telemetryBlock s x n = telemetryHead s n ++ (List.range 11).flatMap (telemetryCore s x) ++ bytesOf 0 2048 := rfl

theorem telemetryBlock_word {s : State} {x : Word} {n i : Nat} {w : Word} (here : [s.statStopped, s.statHostdrop, s.statThermal, s.statPoison][i]? = some w) :
    ByteBlock (telemetryBlock s x n) (8 * i) (bytesOf w.toNat 8) := by
  rw [telemetryBlock_eq, telemetryHead]
  have word := (((((ByteBlock.left _ (bytesOf 0 2048)).trans (.left _ ((List.range 11).flatMap (telemetryCore s x)))).trans (.left _ (bytesOf 0 384))).trans
    (.left _ ((List.range 4).flatMap (fun d => bytesOf (Config.powerReading d n).toNat 8 ++ bytesOf (Config.temperatureReading d n).toNat 8)))).trans
    (.left _ (bytesOf 0 32))).trans (wordList_block here)
  rwa [Nat.zero_add] at word

theorem telemetryBlock_core {s : State} {x : Word} {n k : Nat} (hk : k < 11) : ByteBlock (telemetryBlock s x n) (0x200 + 0x200 * k) (telemetryCore s x k) := by
  have core := (ByteBlock.left (telemetryHead s n ++ (List.range 11).flatMap (telemetryCore s x)) (bytesOf 0 2048)).trans ((ByteBlock.right _ _).trans
    (ByteBlock.flatMap (len := 512) (List.range 11) (fun k _ => telemetryCore_length s x k) (i := k) (x := k) (by rw [List.getElem?_range hk])))
  rwa [← telemetryBlock_eq, telemetryHead_length, Nat.zero_add] at core

theorem telemetryCore_live {s : State} {x : Word} {k : Nat} (live : k < 9 ∨ isApexVertex (vertexAt (bits x.toNat 1 0) (bits x.toNat 8 2)) = true) :
    telemetryCore s x k = coreBlock (coreAt s (16 * vertexAt (bits x.toNat 1 0) (bits x.toNat 8 2) + if 9 ≤ k then k + 5 else k)).counters := by
  rw [telemetryCore, if_neg]
  rw [Bool.and_eq_true, decide_eq_true_eq, Bool.not_eq_true', not_and, Bool.not_eq_false]
  exact fun high => live.resolve_left (Nat.not_lt.mpr high)

theorem telemetryCore_dead {s : State} {x : Word} {k : Nat} (dead : ¬(k < 9 ∨ isApexVertex (vertexAt (bits x.toNat 1 0) (bits x.toNat 8 2)) = true)) :
    telemetryCore s x k = bytesOf 0 512 := by
  rw [not_or, Nat.not_lt, Bool.not_eq_true] at dead
  rw [telemetryCore, dead.2, decide_eq_true dead.1]
  rfl

theorem bytesOf_add (x m : Nat) : ∀ n, bytesOf x (n + m) = bytesOf x n ++ bytesOf (x / 256 ^ n) m := by
  intro n
  refine List.ext_getElem (by simp) (fun i h1 h2 => ?_)
  rw [List.getElem_append]
  split
  · rw [bytesOf_getElem, bytesOf_getElem]
  · next behind =>
    rw [bytesOf_length] at behind
    rw [bytesOf_getElem, bytesOf_getElem, Nat.div_div_eq_div_mul, ← Nat.pow_add]
    simp [Nat.add_sub_cancel' (Nat.not_lt.mp behind)]

/-- Eight bytes of zeros in zeros. -/
theorem zeros_block {i : Nat} (hi : i < 64) : ByteBlock (bytesOf 0 512) (8 * i) (bytesOf 0 8) := by
  have split : bytesOf 0 512 = bytesOf 0 (8 * i) ++ bytesOf 0 8 ++ bytesOf 0 (512 - 8 * i - 8) := by
    have size : 512 = 8 * i + 8 + (512 - 8 * i - 8) := by omega
    rw [congrArg (bytesOf 0) size, bytesOf_add, bytesOf_add, Nat.zero_div, Nat.zero_div]
  exact ⟨_, _, split, bytesOf_length _ _⟩

theorem telemetry_writes {s : State} {tag b : Nat} {x : Word} (c : Commanded s 3 tag [b, x.toNat]) (reserved : bits x.toNat 63 9 = 0) :
    Gives (.telemetry tag b x) s (fun t => Outside s t [] ∧ Taken s t 3 tag 0 ∧ hostRead t b 8 = s.statStopped.toNat ∧
      hostRead t (b + 8) 8 = s.statHostdrop.toNat ∧ hostRead t (b + 16) 8 = s.statThermal.toNat ∧ hostRead t (b + 24) 8 = s.statPoison.toNat ∧
      ∀ k, k < 11 → ∀ i e : Nat,
        let v := vertexAt (bits x.toNat 1 0) (bits x.toNat 8 2)
        let y := (coreAt s (16 * v + if 9 ≤ k then k + 5 else k)).counters
        let live := k < 9 ∨ isApexVertex v = true
        (live → [y.issued, y.parked, y.bank, y.tokmiss, y.rulemiss, y.refused, y.retries, y.undeliv, y.steals, y.spills, y.dupbytes, y.checker][i]? = some (BitVec.ofNat 64 e) →
          e < 2 ^ 64 → hostRead t (b + 0x200 + 0x200 * k + 8 * i) 8 = e) ∧
        (live → 1 ≤ i → i < 64 → hostRead t (b + 0x200 + 0x200 * k + 0x100 + 4 * i) 4 = (sget 0 y.faults i).toNat) ∧
        (¬ live → i < 64 → hostRead t (b + 0x200 + 0x200 * k + 8 * i) 8 = 0)) := by
  obtain ⟨l, hl⟩ : ∃ l, l = telemetryBlock s x s.free := ⟨_, rfl⟩
  have word {i : Nat} {w : Word} (here : [s.statStopped, s.statHostdrop, s.statThermal, s.statPoison][i]? = some w) : ByteBlock l (8 * i) (bytesOf w.toNat 8) := hl ▸ telemetryBlock_word here
  have core {k : Nat} (hk : k < 11) : ByteBlock l (0x200 + 0x200 * k) (telemetryCore s x k) := hl ▸ telemetryBlock_core hk
  obtain ⟨w, hw⟩ : ∃ w, w = hostWrite { s with free := s.free + 1 } b l := ⟨_, rfl⟩
  have only := hostWrite_host l { s with free := s.free + 1 } b
  rw [← hw] at only
  obtain ⟨t, run, taken, closed⟩ := startCommand_runs (t := w) (status := 0) (work := fun t =>
    if bits x.toNat 63 9 ≠ 0 then (t, 1, none)
    else (hostWrite { t with free := t.free + 1 } b (telemetryBlock t x t.free), 0, none)) c (by
      rw [if_neg (not_not_intro reserved), ← hl, ← hw]) (by rw [only])
  have read {k n y : Nat} (here : ByteBlock l k (bytesOf y n)) : hostRead t (b + k) n = y % 2 ^ (8 * n) := by
    rw [closed.hostRead, hw]
    exact hostRead_written here
  have readWord {k : Nat} {y : Word} (here : ByteBlock l k (bytesOf y.toNat 8)) : hostRead t (b + k) 8 = y.toNat := (read here).trans (Nat.mod_eq_of_lt y.isLt)
  refine ⟨t, congrArg Host.Outcome.next run, closed.outside (by rw [only]) (by rw [only]), taken, readWord (word (i := 0) rfl), readWord (word (i := 1) rfl),
    readWord (word (i := 2) rfl), readWord (word (i := 3) rfl), fun k hk i e => ⟨fun live here small => ?_, fun live pos hi => ?_, fun dead hi => ?_⟩⟩
  · have block := (telemetryCore_live (s := s) live ▸ core hk).trans (coreBlock_word here)
    have place : b + 0x200 + 0x200 * k + 8 * i = b + (0x200 + 0x200 * k + 8 * i) := by omega
    rw [place, readWord block, BitVec.toNat_ofNat, Nat.mod_eq_of_lt small]
  · have block := (telemetryCore_live (s := s) live ▸ core hk).trans (coreBlock_fault pos hi)
    have place : b + 0x200 + 0x200 * k + 0x100 + 4 * i = b + (0x200 + 0x200 * k + (0x100 + 4 * i)) := by omega
    rw [place, read block]
    exact Nat.mod_eq_of_lt (BitVec.isLt _)
  · have block := (telemetryCore_dead (s := s) dead ▸ core hk).trans (zeros_block hi)
    have place : b + 0x200 + 0x200 * k + 8 * i = b + (0x200 + 0x200 * k + 8 * i) := by omega
    rw [place, read block, Nat.zero_mod]

/-! ### The obligation -/

/-- Settles O59: each clause is the lemma of its event; host memory is read back byte by byte from what was written. -/
theorem hostQueuesAndCommands : Obligations.HostQueuesAndCommands := by
  unfold Obligations.HostQueuesAndCommands
  refine ⟨fun s q w free none_ => ⟨ltarget_sends free none_, ltarget_waits free none_⟩, fun s id due f here home phase over_ => hostLaunch_retries here home phase over_,
    fun s q w free => ringtail_written free, fun s q w free empty none_ => evhead_written free empty none_, fun s q w e free one none_ room => evhead_tells free one none_ room,
    fun s q b free command empty apex room none_ => resync_tells free command empty apex room none_,
    fun s q tag b free command empty apex room one htag apart => resync_aborts free command empty apex room one htag apart,
    fun s q b free command empty apex room none_ apart => resync_summary free command empty apex room none_ apart, fun s q b free command => resync_waits free command,
    fun s tag op status v command apex room empty none_ low _ => completion_tells command apex room empty none_ low,
    fun s tag va a c leaf near => unmap_done c leaf near, fun s tag a n c => ⟨quota_set c, quota_refused c⟩, fun s tag b x c reserved => telemetry_writes c reserved,
    fun s tag c => clrstart_clears c, fun s tag a n c => fwstage_stages c, fun s tag b c => ⟨attest_signs c, attest_refused c⟩,
    fun s tag w c => ⟨powerlim_set c, powerlim_refused c⟩, fun s tag op c other low => unknownCommand_ends c other low⟩

end Sys2Proof.Machine
end

