-- ==== Sys2Proof/Proofs/ControlBlocks.lean ====
section
/-! SUPPORT. O37: the bytes of a control block, as a core sees them, after values are written into it (Tables 13-4 to 13-6). -/

namespace Sys2Proof.Machine

/-! ### Bytes as a core sees them -/

theorem coreByte_congr {s t : State} {k : Nat} (lines : ∀ l, lineOf t k l = lineOf s k l) (mem : t.mem = s.mem) (a : Nat) : coreByte t k a = coreByte s k a := by
  rw [coreByte, lines, memByte_congr mem, coreByte]

@[simp] theorem memByte_setLine (s : State) (k l : Nat) (x : Option Line) (a : Nat) : memByte (setLine s k l x) a = memByte s a := rfl

/-- A line keeps its bytes. -/
theorem coreByte_setLine {s : State} {k l : Nat} {x y : Line} (here : lineOf s k l = some x) (data : y.data = x.data) (a : Nat) :
    coreByte (setLine s k l (some y)) k a = coreByte s k a := by
  have set := setLine_set s k l y
  rw [coreByte]
  rcases eq_or_ne (a / 32) l with same | other
  · rw [same, set.line, coreByte, same, here]
    dsimp only
    rw [data]
  · rw [set.others _ other, memByte_setLine, coreByte]

/-- One byte is written. -/
theorem coreByte_put (s : State) (k pa : Nat) (b : Byte) (a : Nat) : coreByte (writeLines s k pa [b]) k a = if a = pa then b else coreByte s k a := by
  rw [writeLines]
  cases here : lineOf s k (pa / 32) with
  | none =>
    have lines (l : Nat) : lineOf (setByte s pa b) k l = lineOf s k l := rfl
    dsimp only
    rw [writeLines, coreByte, lines]
    split_ifs with same
    · rw [same, here]
      exact sget_sput_self _ _ _ _
    · rw [coreByte, memByte, setByte, sget_sput_ne _ _ _ same]
      rfl
  | some x =>
    have set := setLine_set s k (pa / 32) { x with data := putByte x.data (pa % 32) b, dirty := true }
    dsimp only
    rw [writeLines, ← putByte, coreByte]
    rcases eq_or_ne (a / 32) (pa / 32) with same | other
    · rw [same, set.line]
      dsimp only
      rw [← byteIn, byteIn_putByte _ _ (Nat.mod_lt _ (by decide))]
      refine if_congr (by omega) rfl ?_
      rw [coreByte, same, here]
      rfl
    · rw [set.others _ other, memByte_setLine, if_neg (by rintro rfl; exact other rfl), coreByte]

theorem writeLines_cons (s : State) (k pa : Nat) (b : Byte) (l : List Byte) : writeLines s k pa (b :: l) = writeLines (writeLines s k pa [b]) k (pa + 1) l := rfl

theorem coreByte_writeLines (k : Nat) (l : List Byte) : ∀ (s : State) (pa a : Nat),
    coreByte (writeLines s k pa l) k a = if pa ≤ a ∧ a < pa + l.length then l.getD (a - pa) 0 else coreByte s k a := by
  induction l with
  | nil =>
    intro s pa a
    rw [if_neg (by rw [List.length_nil]; omega), writeLines]
  | cons b l ih =>
    intro s pa a
    rw [writeLines_cons, ih, coreByte_put, List.length_cons]
    rcases Nat.lt_trichotomy a pa with before | rfl | behind
    · rw [if_neg (by omega), if_neg (by omega), if_neg (by omega)]
    · rw [if_neg (by omega), if_pos rfl, if_pos (by omega), Nat.sub_self]
      rfl
    · have index : a - pa = (a - (pa + 1)) + 1 := by omega
      rw [index, List.getD_cons_succ, if_neg (by omega : ¬ a = pa)]
      exact if_congr (by omega) rfl rfl

theorem writeLines_lines (k : Nat) (l : List Byte) : ∀ (s : State) (pa : Nat), LinesOnly s (writeLines s k pa l) := by
  induction l with
  | nil => exact fun s _ => .refl s
  | cons b l ih =>
    intro s pa
    rw [writeLines]
    dsimp only
    refine LinesOnly.trans ?_ (ih _ _)
    split
    · exact .setLine _ _ _ _
    · exact ⟨rfl, fun _ => rfl⟩

theorem cleanLines_lines (s : State) (k pa n : Nat) (ls : List Nat) : LinesOnly s (cleanLines s k pa n ls) := by
  refine .foldl (fun t l => ?_) ls s
  split
  · split
    · exact .setLine _ _ _ _
    · exact .refl t
  · exact .refl t

theorem coreByte_cleanLines (s : State) (k pa n : Nat) (ls : List Nat) (a : Nat) : coreByte (cleanLines s k pa n ls) k a = coreByte s k a := by
  refine foldl_keeps (P := fun t => coreByte t k a = coreByte s k a) (fun t l same => ?_) ls rfl
  split
  case h_1 x here =>
    split
    · exact (coreByte_setLine here (by rfl) a).trans same
    · exact same
  case h_2 => exact same

theorem useLines_lines (s : State) (k : Nat) (ls : List Nat) : LinesOnly s (useLines s k ls) := by
  refine .foldl (fun t l => ?_) ls s
  split
  · exact .setLine _ _ _ _
  · exact .refl t

theorem coreByte_useLines (s : State) (k : Nat) (ls : List Nat) (a : Nat) : coreByte (useLines s k ls) k a = coreByte s k a := by
  refine foldl_keeps (P := fun t => coreByte t k a = coreByte s k a) (fun t l same => ?_) ls rfl
  split
  case h_1 x here => exact (coreByte_setLine here (by rfl) a).trans same
  case h_2 => exact same

/-! ### Values in a block -/

/-- The pieces of a block stand apart. -/
structure Pieces (places : List Nat) : Prop where
  nodup : places.Nodup
  aligned : ∀ a ∈ places, a % 256 = 0

/-- The byte at an offset of a block. -/
def blockByte (s : State) (k : Nat) (places : List Nat) (j : Nat) : Byte := coreByte s k (places.getD (j / 256) 0 + j % 256)

/-- Where a byte stands relative to a value within one piece. -/
theorem Pieces.within {places : List Nat} (h : Pieces places) {off n j : Nat} (fits : off % 256 + n ≤ 256) (inside : off / 256 < places.length) (hj : j / 256 < places.length) :
    (places.getD (off / 256) 0 + off % 256 ≤ places.getD (j / 256) 0 + j % 256 ∧ places.getD (j / 256) 0 + j % 256 < places.getD (off / 256) 0 + off % 256 + n) ↔
      off ≤ j ∧ j < off + n := by
  have first := h.aligned _ (List.getElem_mem inside)
  have second := h.aligned _ (List.getElem_mem hj)
  rw [List.getD_eq_getElem _ _ inside, List.getD_eq_getElem _ _ hj]
  rcases eq_or_ne (off / 256) (j / 256) with same | other
  · simp only [same]
    omega
  · have apart : places[off / 256] ≠ places[j / 256] := fun same => other ((h.nodup.getElem_inj_iff).mp same)
    constructor
    · intro both
      omega
    · intro both
      omega

/-- One value of a block: offset, size and number. -/
abbrev Value := Nat × Nat × Nat

/-- One value is written. -/
def putValue (places : List Nat) (k : Nat) (t : State) (e : Value) : State :=
  cleanLines (writeLines t k (places.getD (e.1 / 256) 0 + e.1 % 256) (bytesOf e.2.2 e.2.1)) k (places.getD (e.1 / 256) 0 + e.1 % 256) e.2.1
    (linesOf (places.getD (e.1 / 256) 0 + e.1 % 256) e.2.1)

theorem blockPut_here (s : State) (places : List Nat) (l : List Value) : blockPut s (.here places) l = l.foldl (putValue places (coreOf s.cur)) s := rfl

theorem putValue_lines (places : List Nat) (k : Nat) (t : State) (e : Value) : LinesOnly t (putValue places k t e) :=
  (writeLines_lines _ _ _ _).trans (cleanLines_lines _ _ _ _ _)

theorem blockPut_lines (s : State) (places : List Nat) (l : List Value) : LinesOnly s (blockPut s (.here places) l) :=
  .foldl (putValue_lines places _) l s

theorem blockByte_putValue {places : List Nat} (h : Pieces places) (k : Nat) (t : State) {e : Value} (fits : e.1 % 256 + e.2.1 ≤ 256) (inside : e.1 / 256 < places.length)
    {j : Nat} (hj : j / 256 < places.length) :
    blockByte (putValue places k t e) k places j = if e.1 ≤ j ∧ j < e.1 + e.2.1 then BitVec.ofNat 8 (e.2.2 / 256 ^ (j - e.1)) else blockByte t k places j := by
  rw [blockByte, putValue, coreByte_cleanLines, coreByte_writeLines, bytesOf_length]
  by_cases in_ : e.1 ≤ j ∧ j < e.1 + e.2.1
  · obtain ⟨low, high⟩ := (h.within fits inside hj).mpr in_
    rw [if_pos ⟨low, high⟩, if_pos in_]
    have index : places.getD (j / 256) 0 + j % 256 - (places.getD (e.1 / 256) 0 + e.1 % 256) = j - e.1 := by
      have piece : e.1 / 256 = j / 256 := by omega
      rw [piece]
      omega
    rw [index, List.getD_eq_getElem _ _ (by rw [bytesOf_length]; omega), bytesOf_getElem]
  · rw [if_neg ((h.within fits inside hj).not.mpr in_), if_neg in_, blockByte]

/-! ### Lists of values -/

/-- Values that follow one another from lo to hi, each within one piece. -/
structure Follows (l : List Value) (lo hi : Nat) : Prop where
  order : l.Pairwise (fun e f => e.1 + e.2.1 ≤ f.1)
  bounds : ∀ e ∈ l, lo ≤ e.1 ∧ e.1 + e.2.1 ≤ hi
  fits : ∀ e ∈ l, e.1 % 256 + e.2.1 ≤ 256

namespace Follows

theorem append {l m : List Value} {a b c : Nat} (h : Follows l a b) (g : Follows m b c) (ab : a ≤ b) (bc : b ≤ c) : Follows (l ++ m) a c where
  order := by
    refine List.pairwise_append.mpr ⟨h.order, g.order, fun e he f hf => ?_⟩
    obtain ⟨-, first⟩ := h.bounds e he
    obtain ⟨second, -⟩ := g.bounds f hf
    omega
  bounds e he := by
    rcases List.mem_append.mp he with left | right
    · obtain ⟨low, high⟩ := h.bounds e left
      omega
    · obtain ⟨low, high⟩ := g.bounds e right
      omega
  fits e he := (List.mem_append.mp he).elim (h.fits e) (g.fits e)

theorem one {off n x : Nat} (fits : off % 256 + n ≤ 256) : Follows [(off, n, x)] off (off + n) where
  order := List.pairwise_singleton _ _
  bounds e he := by
    rw [List.mem_singleton.mp he]
    exact ⟨Nat.le_refl _, Nat.le_refl _⟩
  fits e he := by
    rw [List.mem_singleton.mp he]
    exact fits

/-- Values of one size. -/
theorem row {off n m : Nat} (x : Nat → Nat) (size : n ∣ 256) (start : n ∣ off) : Follows ((List.range m).map (fun i => (off + n * i, n, x i))) off (off + n * m) where
  order := by
    refine List.pairwise_map.mpr (List.pairwise_lt_range.imp (fun {i j} less => ?_))
    have step : n * (i + 1) ≤ n * j := Nat.mul_le_mul_left n less
    rw [Nat.mul_succ] at step
    dsimp only
    omega
  bounds e he := by
    obtain ⟨i, hi, rfl⟩ := List.mem_map.mp he
    have step : n * (i + 1) ≤ n * m := Nat.mul_le_mul_left n (List.mem_range.mp hi)
    rw [Nat.mul_succ] at step
    dsimp only
    omega
  fits e he := by
    obtain ⟨i, hi, rfl⟩ := List.mem_map.mp he
    obtain ⟨q, hq⟩ := size
    obtain ⟨r, hr⟩ := start
    have pos : 0 < n := Nat.pos_of_ne_zero (by rintro rfl; omega)
    have some_ : 0 < q := Nat.pos_of_ne_zero (by rintro rfl; omega)
    have place : (off + n * i) % 256 = n * ((r + i) % q) := by rw [hr, ← Nat.mul_add, hq, Nat.mul_mod_mul_left]
    have below : n * ((r + i) % q + 1) ≤ n * q := Nat.mul_le_mul_left n (Nat.mod_lt _ some_)
    rw [Nat.mul_succ, ← hq] at below
    dsimp only
    rw [place]
    exact below

end Follows

/-- After values that follow one another, each stands in its place. -/
theorem blockByte_puts {places : List Nat} (h : Pieces places) (k hi : Nat) (size : hi ≤ 256 * places.length) (l : List Value) : ∀ {lo : Nat} (t : State), Follows l lo hi → ∀ {e : Value}, e ∈ l →
    ∀ {j : Nat}, e.1 ≤ j → j < e.1 + e.2.1 → blockByte (l.foldl (putValue places k) t) k places j = BitVec.ofNat 8 (e.2.2 / 256 ^ (j - e.1)) := by
  induction l using List.reverseRecOn with
  | nil => exact fun _ _ _ he => absurd he List.not_mem_nil
  | append_singleton l f ih =>
    intro lo t follows e he j low high
    obtain ⟨order, bounds, fits⟩ := follows
    obtain ⟨before, -, apart⟩ := List.pairwise_append.mp order
    have last := bounds f (List.mem_append_right l List.mem_cons_self)
    have here := bounds e he
    have small := fits f (List.mem_append_right l List.mem_cons_self)
    have piece (h0 : 0 < f.2.1) : f.1 / 256 < places.length := by omega
    rw [List.foldl_append, List.foldl_cons, List.foldl_nil]
    rcases Nat.eq_zero_or_pos f.2.1 with none_ | some_
    · have same : blockByte (putValue places k (l.foldl (putValue places k) t) f) k places j = blockByte (l.foldl (putValue places k) t) k places j := by
        rw [blockByte, putValue, coreByte_cleanLines, none_, bytesOf, writeLines, blockByte]
      rw [same]
      rcases List.mem_append.mp he with old | new
      · exact ih t ⟨before, fun e he => bounds e (List.mem_append_left _ he), fun e he => fits e (List.mem_append_left _ he)⟩ old low high
      · rw [List.mem_singleton.mp new] at low high
        omega
    · rw [blockByte_putValue h k _ small (piece some_) (by omega)]
      rcases List.mem_append.mp he with old | new
      · have ends := apart e old f List.mem_cons_self
        rw [if_neg (by omega)]
        exact ih t ⟨before, fun e he => bounds e (List.mem_append_left _ he), fun e he => fits e (List.mem_append_left _ he)⟩ old low high
      · rw [List.mem_singleton.mp new] at low high ⊢
        rw [if_pos ⟨low, high⟩]

/-- The same, in the terms of the statement. -/
theorem blockHolds_puts {places : List Nat} (h : Pieces places) (k : Nat) {lo hi : Nat} (size : hi ≤ 256 * places.length) {l : List Value} (t : State) (follows : Follows l lo hi)
    {off n x : Nat} (he : (off, n, x) ∈ l) : blockHolds (l.foldl (putValue places k) t) k places off n x := by
  intro i less
  have byte := blockByte_puts h k hi size l t follows he (j := off + i) (Nat.le_add_right _ _) (Nat.add_lt_add_left less _)
  rw [blockByte] at byte
  rw [byte, Nat.add_sub_cancel_left, Nat.pow_mul]

theorem blockHolds_congr {s t : State} {k : Nat} (same : ∀ a, coreByte t k a = coreByte s k a) {places : List Nat} {off n x : Nat} (h : blockHolds s k places off n x) :
    blockHolds t k places off n x := fun i hi => by rw [same, h i hi]

end Sys2Proof.Machine
end

