-- ==== Sys2Proof/Proofs/BlockOpening.lean ====
section
/-! SUPPORT. O37: opening a control block: what the checks on its places change, and a block that is ready (R113, R204, R237). -/

namespace Sys2Proof.Machine

/-! ### What opening a block changes -/

/-- Opening a block looks up its places, and then may fill lines. -/
def Opened (s u : State) : Prop := ∃ t, Looked s t ∧ LinesOnly t u

theorem fillNow_lines (s : State) (k l home : Nat) (peeked : Bool) : LinesOnly s (fillNow s k l home peeked) :=
  (LinesOnly.of_placed (touchL2_placed _ _ _ _ _ _)).trans (fillLine_lines _ _ _ _ _)

theorem needHomes_lines {s u : State} {l : List (Nat × Nat)} (h : needHomes s l = .ok u) : LinesOnly s u := by
  unfold needHomes at h
  dsimp only at h
  split at h
  case h_1 =>
    cases h
    exact .refl s
  case h_2 =>
    split at h
    case isTrue =>
      rw [Except.ok.injEq] at h
      rw [← h]
      refine .foldl (fun t b => ?_) l s
      split
      · exact fillNow_lines _ _ _ _ _
      · exact .refl t
    case isFalse => cases h

theorem blockPlaces_looked {ea : Word} {p : Perm} (n : Nat) : ∀ {s u : State} {l : List (Nat × Nat)}, blockPlaces s ea p n = .ok (l, u) → Looked s u := by
  induction n with
  | zero =>
    intro s u l h
    cases h
    exact .refl s
  | succ n ih =>
    intro s u l h
    rw [blockPlaces] at h
    obtain ⟨⟨target, t⟩, found, rest⟩ := bind_ok h
    have looked := translate_looked found
    dsimp only at rest
    split at rest
    case h_1 =>
      obtain ⟨v, checked, more⟩ := bind_ok rest
      obtain ⟨⟨m, w⟩, others, last⟩ := bind_ok more
      have token : Looked t v := by
        split at checked
        case isTrue =>
          obtain ⟨⟨mode, x⟩, granted, same⟩ := bind_ok checked
          cases same
          exact tokenCheck_looked granted
        case isFalse =>
          cases checked
          exact .refl t
      cases last
      exact (looked.trans token).trans (ih others)
    case h_2 => cases rest

theorem openBlock_opened {s u : State} {ea : Word} {p : Perm} {places : List Nat} {far : Nat} (h : openBlock s ea p = .ok (.here places, far, u)) : Opened s u := by
  unfold openBlock at h
  dsimp only at h
  obtain ⟨-, -, h⟩ := bind_ok h
  split at h
  case isTrue => cases h
  case isFalse =>
    split at h
    case isTrue =>
      split at h
      case h_1 => cases h
      case h_2 =>
        obtain ⟨⟨l, t⟩, -, same⟩ := bind_ok h
        cases same
    case isFalse =>
      obtain ⟨⟨l, t⟩, found, h⟩ := bind_ok h
      dsimp only at h
      split at h
      case isTrue => cases h
      case isFalse =>
        obtain ⟨v, filled, h⟩ := bind_ok h
        split at h
        case isTrue => cases h
        case isFalse =>
          cases h
          exact ⟨t, blockPlaces_looked _ found, needHomes_lines filled⟩

namespace Opened

variable {s u : State} (h : Opened s u)
include h

theorem cur : u.cur = s.cur := by
  obtain ⟨t, looked, lines⟩ := h
  rw [lines.cur, looked.cur]

theorem flights : u.flights = s.flights := by
  obtain ⟨t, looked, lines⟩ := h
  rw [lines.flights, looked.flights]

theorem device : u.device = s.device := by
  obtain ⟨t, looked, lines⟩ := h
  rw [lines.only, looked.device]

theorem ctx (c : Nat) : ctxOf u c = { ctxOf s c with
    late := (ctxOf u c).late, fresh := (ctxOf u c).fresh, budgetEnd := (ctxOf u c).budgetEnd, budgetKept := (ctxOf u c).budgetKept
    slotTokens := (ctxOf u c).slotTokens } := by
  obtain ⟨t, looked, lines⟩ := h
  rw [lines.ctx c]
  exact looked.ctx c

theorem unsettled (c : Nat) : Machine.unsettled u c = Machine.unsettled s c := by rw [Machine.unsettled, h.flights, Machine.unsettled]
theorem unfinished (c : Nat) : Machine.unfinished u c = Machine.unfinished s c := by rw [Machine.unfinished, h.flights, Machine.unfinished]

end Opened

/-! ### A block that is ready -/

/-- Lookups that all hit change the order of use in the cores alone. -/
structure HitsOnly (s u : State) : Prop where
  only : u = { s with cores := u.cores }
  core : ∀ k, coreAt u k = { coreAt s k with tlb := (coreAt u k).tlb, tokenCache := (coreAt u k).tokenCache }

namespace HitsOnly

theorem refl (s : State) : HitsOnly s s := ⟨rfl, fun _ => rfl⟩
theorem trans {s t u : State} (h : HitsOnly s t) (g : HitsOnly t u) : HitsOnly s u := ⟨by rw [g.only, h.only], fun k => by rw [g.core k, h.core k]⟩

theorem modCore (s : State) (k : Nat) {f : Core → Core} (hf : ∀ x, f x = { x with tlb := (f x).tlb, tokenCache := (f x).tokenCache }) : HitsOnly s (modCore s k f) :=
  ⟨rfl, (modCore_looked s k hf).core⟩

variable {s u : State} (h : HitsOnly s u)
include h

theorem ctx (c : Nat) : ctxOf u c = ctxOf s c := by rw [h.only]; rfl
theorem line (k l : Nat) : lineOf u k l = lineOf s k l := by rw [lineOf, h.core, lineOf]
theorem mem : u.mem = s.mem := by rw [h.only]
theorem cur : u.cur = s.cur := by rw [h.only]
theorem flights : u.flights = s.flights := by rw [h.only]

theorem barred (va : Nat) : barredAt u va = barredAt s va := by
  have same : Machine.barred u = Machine.barred s := by
    funext t
    have killed (j : Nat) : (coreAt u j).killed = (coreAt s j).killed := by rw [h.core]
    have device : u.device = s.device := by rw [h.only]
    rw [Machine.barred, orphaned, killed, device, Machine.barred, orphaned]
  have covering : tokenCovering u va = tokenCovering s va := by
    rw [h.only]
    rfl
  rw [barredAt, same, covering, barredAt]

theorem grantNow : Machine.grantNow u = Machine.grantNow s := by
  have tokens : u.tokens = s.tokens := by rw [h.only]
  funext c path e
  rw [h.only]
  simp only [Machine.grantNow, holdsToken_congr (s := s) (t := { s with cores := u.cores }) rfl rfl rfl rfl rfl rfl,
    sharesToken_congr (s := s) (t := { s with cores := u.cores }) rfl rfl rfl rfl rfl rfl]
  rfl

end HitsOnly

/-- What grants an access grants it again. -/
theorem grantNow_grantNow (s : State) (c path : Nat) (e : TokenHit) : grantNow s c path (grantNow s c path e) = grantNow s c path e := by
  cases found : sget none s.tokens e.base with
  | none =>
    have same : grantNow s c path e = e := by rw [grantNow, found]
    rw [same, same]
  | some t =>
    simp only [grantNow, found]
    split_ifs <;> rfl

/-- A grant that the cache gives names the address. -/
theorem tokenHit_covers {s : State} {c path va : Nat} {h : TokenHit} (hit : tokenHit s c path va = some h) :
    h.ctx = tokenTag c path ∧ h.base ≤ va ∧ va < h.base + 2 ^ h.lsize ∧ grantNow s c path h = h := by
  rw [tokenHit, Option.map_eq_some_iff] at hit
  obtain ⟨z, found, rfl⟩ := hit
  have named := List.find?_some found
  have same : (grantNow s c path z).ctx = z.ctx ∧ (grantNow s c path z).base = z.base ∧ (grantNow s c path z).lsize = z.lsize := by
    unfold grantNow
    split <;> exact ⟨rfl, rfl, rfl⟩
  obtain ⟨tag, base, size⟩ := same
  simp only [Bool.and_eq_true, decide_eq_true_eq] at named
  rw [tag, base, size, grantNow_grantNow]
  exact ⟨named.1.1, named.1.2, named.2, rfl⟩

theorem tlbFind_used {l : List TlbEntry} {e : TlbEntry} {va : Nat} (found : tlbFind l va = some e) (m : List TlbEntry) : tlbFind (tlbUse m e) va = some e := by
  have covers := List.find?_some found
  simp only [tlbFind, tlbUse, List.take_succ_cons, List.find?_cons, covers]

section

variable {s : State} {ea : Word} {p : Perm} {use : TokenUse} {e : TlbEntry} {h : TokenHit} (ready : BlockReady s ea p use e h)

/-- The lookups so far all hit, and the next will. -/
structure StillReady (s : State) (ea : Word) (e : TlbEntry) (h : TokenHit) (t : State) : Prop where
  hits : HitsOnly s t
  page : ∀ i, i < 80 → tlbFind (coreAt t (coreOf s.cur)).tlb (ea.toNat % 2 ^ 53 + 256 * i) = some e
  grant : ∀ i, i < 80 → tokenHit t s.cur 0 (ea.toNat % 2 ^ 53 + 256 * i) = some h

include ready

theorem BlockReady.start : StillReady s ea e h s := ⟨.refl s, ready.page, fun i hi => (ready.grant i hi).1⟩

theorem BlockReady.place {i : Nat} (hi : i < 80) : (ea + BitVec.ofNat 64 (256 * i)).toNat % 2 ^ 53 = ea.toNat % 2 ^ 53 + 256 * i ∧
    (ea + BitVec.ofNat 64 (256 * i)).toNat / 2 ^ 53 = s.device ∧ ea.toNat % 2 ^ 53 + 256 * i < 0x1FFFFF00000000 := by
  have below := ready.below
  have own := ready.own
  have wide := ea.isLt
  have sum : (ea + BitVec.ofNat 64 (256 * i)).toNat = ea.toNat + 256 * i := by
    rw [BitVec.toNat_add, BitVec.toNat_ofNat, Nat.mod_eq_of_lt (a := 256 * i) (by omega), Nat.mod_eq_of_lt (by omega)]
  rw [sum]
  omega

/-- One piece of the block is looked up. -/
theorem BlockReady.piece {t : State} (still : StillReady s ea e h t) {i : Nat} (hi : i < 80) :
    ∃ u, translate t (ea + BitVec.ofNat 64 (256 * i)) p = .ok (.phys (ea.toNat % 2 ^ 53 + 256 * i) (leafPa e.page (ea.toNat % 2 ^ 53 + 256 * i) e.leaf) e.leaf, u) ∧ StillReady s ea e h u := by
  obtain ⟨hits, page, grant⟩ := still
  obtain ⟨place, own, below⟩ := ready.place hi
  have found := page i hi
  refine ⟨modCore t (coreOf s.cur) (fun x => { x with tlb := tlbUse x.tlb e }), ?_, hits.trans (.modCore _ _ (fun _ => rfl)), fun j hj => ?_, fun j hj => ?_⟩
  · rw [← place] at found ⊢
    rw [← hits.cur] at found ⊢
    refine translate_found ?_ (place ▸ below) ?_ (tlbLookup_core found) ready.perm
    · rw [own, hits.only]
    · rw [hits.cur, hits.ctx]
      exact ready.noFail.1
  · rw [coreAt_modCore_self]
    exact tlbFind_used (page j hj) _
  · rw [← grant j hj, ← hits.cur, tokenHit_tlb]

/-- The grant of one piece is used. -/
theorem BlockReady.granted {t : State} (still : StillReady s ea e h t) {i : Nat} (hi : i < 80) :
    ∃ u, tokenCheck t (ea + BitVec.ofNat 64 (256 * i)) use 0 = .ok (h.mode, u) ∧ StillReady s ea e h u := by
  obtain ⟨hits, page, grant⟩ := still
  obtain ⟨place, -, -⟩ := ready.place hi
  refine ⟨modCore t (coreOf s.cur) (fun y => { y with tokenCache := h :: y.tokenCache.filter (fun z => !(z.ctx = h.ctx && z.base = h.base)) }), ?_,
    hits.trans (.modCore _ _ (fun _ => rfl)), fun j hj => ?_, fun j hj => ?_⟩
  · have noFails : (ctxOf t s.cur).tokenFails = [] := by rw [hits.ctx, ready.noFail.2]
    have idle : tokenOut t s.cur = false := by rw [tokenOut, hits.flights, ready.nothingOut]; rfl
    have alive : barredAt t (ea.toNat % 2 ^ 53 + 256 * i) = none := by rw [hits.barred, (ready.grant i hi).2]
    unfold tokenCheck
    simp only [hits.cur, idle, Bool.false_eq_true, if_false, noFails, List.find?_nil, place, grant i hi, alive, ready.allowed]
  · rw [coreAt_modCore_self]
    exact page j hj
  · obtain ⟨tag, low, high, same⟩ := tokenHit_covers (grant j hj)
    rw [tokenHit, coreAt_modCore_self, grantNow_modCore, List.find?_cons_of_pos (by rw [tag, decide_eq_true low, decide_eq_true high, decide_eq_true rfl]; rfl), Option.map_some, same]

/-- The last n pieces. -/
theorem BlockReady.places (write : p = .wr → use = .write) (read : p ≠ .wr → use = .read) (n : Nat) : n ≤ 80 → ∀ {t : State}, StillReady s ea e h t →
    ∃ l u, blockPlaces t ea p n = .ok (l, u) ∧ StillReady s ea e h u ∧ l.map (·.1) = (List.range' (80 - n) n).map (fun i => leafPa e.page (ea.toNat % 2 ^ 53 + 256 * i) e.leaf) := by
  induction n with
  | zero => exact fun _ t still => ⟨[], t, rfl, still, rfl⟩
  | succ n ih =>
    intro small t still
    obtain ⟨u, found, still⟩ := ready.piece still (show 79 - n < 80 by omega)
    have used : ∃ v, (if leafWr e.leaf then (do let (_, u) ← tokenCheck u (ea + BitVec.ofNat 64 (256 * (79 - n))) (if p = .wr then .write else .read) 0; .ok u) else .ok u : Res State) = .ok v ∧
        StillReady s ea e h v := by
      split
      case isTrue =>
        have kind : (if p = .wr then TokenUse.write else .read) = use := by
          split
          case isTrue same => exact (write same).symm
          case isFalse other => exact (read other).symm
        obtain ⟨v, granted, still⟩ := ready.granted still (show 79 - n < 80 by omega)
        refine ⟨v, ?_, still⟩
        rw [kind, granted]
        rfl
      case isFalse => exact ⟨u, rfl, still⟩
    obtain ⟨v, used, still⟩ := used
    obtain ⟨l, w, rest, still, listed⟩ := ih (by omega) still
    refine ⟨(leafPa e.page (ea.toNat % 2 ^ 53 + 256 * (79 - n)) e.leaf, leafHome e.leaf (leafPa e.page (ea.toNat % 2 ^ 53 + 256 * (79 - n)) e.leaf)) :: l, w, ?_, still, ?_⟩
    · rw [blockPlaces, found, ok_bind]
      dsimp only
      rw [used, ok_bind, rest]
      rfl
    · have first : 80 - (n + 1) = 79 - n := by omega
      have next : 79 - n + 1 = 80 - n := by omega
      rw [List.map_cons, listed, first, List.range'_succ, List.map_cons, next]

/-- A ready block opens in its step. -/
theorem BlockReady.opens (write : p = .wr → use = .write) (read : p ≠ .wr → use = .read) :
    ∃ far u, openBlock s ea p = .ok (.here (blockAt ea e), far, u) ∧ HitsOnly s u := by
  obtain ⟨l, u, found, ⟨hits, -, -⟩, listed⟩ := ready.places write read 80 (Nat.le_refl _) ready.start
  have all : l.map (·.1) = blockAt ea e := by rw [listed, Nat.sub_self, blockAt, List.range_eq_range']
  have unfenced : passFence s 0 = .ok () := by
    rw [passFence, fenced, ready.nothingOut]
    rfl
  have busy : ((blockLines (blockAt ea e)).any (fun a => lineBusy u (coreOf s.cur) a) || lineOut u (coreOf s.cur) (blockLines (blockAt ea e))) = false := by
    have none_ (a : Nat) : lineBusy u (coreOf s.cur) a = false := by rw [lineBusy, hits.flights, ready.nothingOut]; rfl
    have out (ls : List Nat) : lineOut u (coreOf s.cur) ls = false := by rw [lineOut, hits.flights, ready.nothingOut]; rfl
    rw [out, Bool.or_false, List.any_eq_false]
    exact fun a _ => by rw [none_ a]; exact Bool.false_ne_true
  have present : needHomes u (l.flatMap (fun e => (blockLines [e.1]).map (fun a => (a, e.2)))) = .ok u := by
    have none_ : (l.flatMap (fun e => (blockLines [e.1]).map (fun a => (a, e.2)))).find? (fun a => (lineOf u (coreOf s.cur) a.1).isNone) = none := by
      rw [List.find?_eq_none]
      intro a ha
      obtain ⟨x, hx, hy⟩ := List.mem_flatMap.mp ha
      obtain ⟨b, hb, rfl⟩ := List.mem_map.mp hy
      have line : b ∈ blockLines (blockAt ea e) := by
        rw [← all, blockLines, List.mem_flatMap]
        rw [blockLines, List.flatMap_cons, List.flatMap_nil, List.append_nil] at hb
        exact ⟨x.1, List.mem_map_of_mem hx, hb⟩
      have some_ := ready.cached b line
      rw [hits.line]
      rw [Option.isNone_eq_false_iff.mpr some_]
      exact Bool.false_ne_true
    rw [needHomes, hits.cur, none_]
  have clean {a : Nat} (ha : a ∈ readLinesOf (blockAt ea e) p) : ∃ x, lineOf u (coreOf s.cur) a = some x ∧ x.poison = false := by
    have line : a ∈ blockLines (blockAt ea e) := by
      rw [readLinesOf] at ha
      split at ha
      · exact List.mem_of_mem_take ha
      · exact ha
    obtain ⟨x, hx⟩ := Option.isSome_iff_exists.mp (ready.cached a line)
    exact ⟨x, by rw [hits.line, hx], ready.sound a ha x hx⟩
  refine ⟨l.foldl (fun m e => max m (hop u.cur e.2)) 0, u, ?_, hits⟩
  unfold openBlock
  dsimp only
  rw [unfenced, ok_bind, if_neg (not_not_intro ready.aligned), if_neg (not_not_intro ready.own), found, ok_bind]
  dsimp only
  rw [all, busy, if_neg Bool.false_ne_true, present, ok_bind]
  refine if_neg ?_
  rw [List.any_eq_true]
  rintro ⟨a, ha, bad⟩
  obtain ⟨x, hx, good⟩ := clean ha
  rw [hx] at bad
  dsimp only at bad
  rw [good] at bad
  exact Bool.false_ne_true bad

end

end Sys2Proof.Machine
end

