-- ==== Sys2Proof/Proofs/ContextSave.lean ====
section
/-! SUPPORT. O37: CTXSAVE: what it writes into the block, and the context that it saves (R204, R320). -/

namespace Sys2Proof.Machine

/-! ### The end of an instruction, for the other contexts -/

theorem ctxOf_parkGroup_ne (s : State) {c e : Nat} (other : e ≠ c) : ctxOf (parkGroup s c) e = ctxOf s e := by
  unfold parkGroup
  dsimp only
  split
  · exact ctxOf_endGroup_ne s other
  · split
    · rw [ctxOf_modCtx_ne _ _ other, ctxOf_endGroup_ne s other]
    · unfold stopCtx
      dsimp only
      split
      · rw [ctxOf_reportCtx, ctxOf_modCtx_ne _ _ other, ctxOf_endGroup_ne s other]
      · rw [ctxOf_modCtx_ne _ _ other, ctxOf_endGroup_ne s other]

/-- Without a trailing copy that follows, the end of an instruction leaves the other contexts alone. -/
theorem retire_apart {i : Instr} {u : State} {npc : Word} {e : Nat} (pass : (ctxOf u u.cur).lockPass = false) (other : e ≠ u.cur) :
    ctxOf (retire i u npc) e = ctxOf u e := by
  have follows (t : State) : followCopy t u.cur (ctxOf u u.cur) npc = t := by rw [followCopy, pass, if_neg Bool.false_ne_true]
  unfold retire
  dsimp only
  split
  · exact ctxOf_chargeIssue _ _ _
  · rw [follows]
    split
    · rw [ctxOf_parkGroup_ne _ other, ctxOf_setCtx_ne _ _ other, ctxOf_chargeIssue]
    · rw [ctxOf_setCtx_ne _ _ other, ctxOf_chargeIssue]

/-- An instruction of a context whose registers it left alone, whatever it did to others. -/
theorem moves_own {i : Instr} {s u : State} (cur : u.cur = s.cur) (run : (ctxOf u s.cur).run = .ready) (pc : (ctxOf u s.cur).pc = (ctxOf s s.cur).pc)
    (regs : (ctxOf u s.cur).regs = (ctxOf s s.cur).regs) : Moves s (retire i u (nextPc u)) [] where
  next := by
    have next := retire_pc i u (nextPc u) (by rw [cur, run])
    rw [pcOf, retire_cur, next, nextPc, pcOf, cur, pc, pcOf]
  cur := (retire_cur _ _ _).trans cur
  g r _ := by
    have g := rg_retire i u (nextPc u) r
    rw [cur] at g
    rw [g, rg, rg, regs]
  p r := by
    have p := rp_retire i u (nextPc u) r
    rw [cur] at p
    rw [p, rp, rp, regs]

theorem gangFault_ok (s u : State) (member : Option Nat) : gangFault s member (.ok u) = .ok u := by
  cases member <;> rfl

/-! ### What a block reads -/

theorem seeLines_congr {s t : State} {c : Nat} (lines : ∀ k l, lineOf t k l = lineOf s k l) (mem : t.mem = s.mem) (log : (ctxOf t c).writeLog = (ctxOf s c).writeLog) (n : Nat) :
    ∀ pa, seeLines t c pa n = seeLines s c pa n := by
  induction n with
  | zero => exact fun _ => rfl
  | succ n ih =>
    intro pa
    rw [seeLines, seeLines, lines, memByte_congr mem, log, ih]

theorem blockGet_congr {s t : State} (cur : t.cur = s.cur) (lines : ∀ k l, lineOf t k l = lineOf s k l) (mem : t.mem = s.mem)
    (log : (ctxOf t s.cur).writeLog = (ctxOf s s.cur).writeLog) (b : Block) (off n : Nat) : blockGet t b off n = blockGet s b off n := by
  cases b with
  | here places => rw [blockGet, blockGet, cur, seeLines_congr lines mem log]
  | abroad ref l => rfl

theorem HitsOnly.blockGet {s u : State} (h : HitsOnly s u) (b : Block) (off n : Nat) : Machine.blockGet u b off n = Machine.blockGet s b off n :=
  blockGet_congr h.cur h.line h.mem (by rw [h.ctx]) b off n

/-! ### The values of a block -/

theorem follows_header (s : State) (w live tmask feat lock : Nat) : Follows (blockHeader s w live tmask feat lock) 0 0x40 :=
  (((((Follows.one (off := 0) (n := 8) (by decide)).append (Follows.one (off := 8) (n := 8) (by decide)) (by decide) (by decide)).append
    (Follows.one (off := 16) (n := 8) (by decide)) (by decide) (by decide)).append (Follows.one (off := 24) (n := 8) (by decide)) (by decide) (by decide)).append
    (Follows.one (off := 32) (n := 32) (by decide)) (by decide) (by decide))

theorem Follows.mono {l : List Value} {lo hi hi' : Nat} (h : Follows l lo hi) (le : hi ≤ hi') : Follows l lo hi' :=
  { h with bounds := fun e he => ⟨(h.bounds e he).1, Nat.le_trans (h.bounds e he).2 le⟩ }

theorem follows_regs {s : State} {w : Nat} (tmask : Nat) (allot : (ctxOf s w).allot ≤ 48) : Follows (blockRegs s w tmask) 0x40 0x5000 := by
  have g := Follows.row (off := 0x40) (n := 8) (m := 64) (fun i => (rg s w i).toNat) (by decide) (by decide)
  have m := Follows.one (off := 0x240) (n := 64) (x := 0) (by decide)
  have p := Follows.row (off := 0x280) (n := 4) (m := 8) (fun i => (rp s w i).toNat) (by decide) (by decide)
  have modes := ((Follows.one (off := 0x2A0) (n := 8) (x := (ctxOf s w).rmode.toNat) (by decide)).append
    (Follows.one (off := 0x2A8) (n := 8) (x := (ctxOf s w).regs.flags.toNat) (by decide)) (by decide) (by decide)).append
    (Follows.one (off := 0x2B0) (n := 16) (x := 0) (by decide)) (by decide) (by decide)
  have v := (Follows.row (off := 0x2C0) (n := 64) (m := (ctxOf s w).allot) (fun i => (rv s w i).toNat) (by decide) (by decide)).mono (hi' := 0xEC0) (by omega)
  have rest := Follows.row (off := 0xEC0) (n := 32) (m := 10) (fun _ => 0) (by decide) (by decide)
  have tiles := Follows.row (off := 0x1000) (n := 32) (m := 512) (fun i => if nbit tmask (i / 64) then (tileRow s (coreOf w) (i / 64) (i % 64)).toNat else 0) (by decide) (by decide)
  exact (((((g.append m (by decide) (by decide)).append p (by decide) (by decide)).append modes (by decide) (by decide)).append v (by decide) (by decide)).append rest
    (by decide) (by decide)).append tiles (by decide) (by decide)

theorem follows_values {s : State} {b : Block} {w : Nat} (allot : (ctxOf s w).allot ≤ 48) : Follows (blockValues s b w) 0 0x5000 :=
  (follows_header _ _ _ _ _ _).append (follows_regs _ allot) (by decide) (by decide)

/-- The values depend on the context, on what its barriers and tiles are, and on the header that stands there. -/
theorem blockValues_tokens (s : State) (l : Store (Option Token)) (b : Block) (w : Nat) : blockValues { s with tokens := l } b w = blockValues s b w := by
  have reads (off n : Nat) : blockGet { s with tokens := l } b off n = blockGet s b off n := blockGet_congr (s := s) (t := { s with tokens := l }) rfl (fun _ _ => rfl) rfl rfl b off n
  rw [blockValues, reads, reads]
  rfl

section

variable {u x t : State} {k w : Nat} {places : List Nat} (allot : (ctxOf u w).allot ≤ 48) (pieces : Pieces places) (size : places.length = 80)
  (put : x = (blockValues u (.here places) w).foldl (putValue places k) t)
include allot pieces size put

theorem blockHolds_value {off n y : Nat} (here : (off, n, y) ∈ blockValues u (.here places) w) : blockHolds x k places off n y :=
  put ▸ blockHolds_puts pieces k (by rw [size]) t (follows_values allot) here

theorem blockHolds_reg {off n y : Nat} (here : (off, n, y) ∈ blockRegs u w (bits (blockGet u (.here places) 0 8) 15 8)) : blockHolds x k places off n y :=
  blockHolds_value allot pieces size put (List.mem_append_right _ here)

/-- What the values leave in the block (Tables 13-4 to 13-6). -/
theorem blockSaved_values : BlockSaved u x k w places (blockGet u (.here places) 0 8) (blockGet u (.here places) 8 8) := by
  obtain ⟨w0, hw0⟩ : ∃ n, n = blockGet u (.here places) 0 8 := ⟨_, rfl⟩
  obtain ⟨w1, hw1⟩ : ∃ n, n = blockGet u (.here places) 8 8 := ⟨_, rfl⟩
  have value {off n y : Nat} (here : (off, n, y) ∈ blockHeader u w (if bits w0 31 24 = 0 || (ctxOf u w).allot < bits w0 31 24 then (ctxOf u w).allot else bits w0 31 24)
      (bits w0 15 8) (w0 % 256) (w1 / 2 ^ 63)) : blockHolds x k places off n y := by
    rw [hw0, hw1] at here
    exact blockHolds_value allot pieces size put (List.mem_append_left _ here)
  have reg {off n y : Nat} (here : (off, n, y) ∈ blockRegs u w (bits w0 15 8)) : blockHolds x k places off n y := by
    rw [hw0] at here
    exact blockHolds_reg allot pieces size put here
  have row {off n m : Nat} (y : Nat → Nat) {i : Nat} (less : i < m) : (off + n * i, n, y i) ∈ (List.range m).map (fun i => (off + n * i, n, y i)) :=
    List.mem_map.mpr ⟨i, List.mem_range.mpr less, rfl⟩
  rw [← hw0, ← hw1]
  exact {
    word0 := by
      have live : (if bits w0 31 24 = 0 ∨ (ctxOf u w).allot < bits w0 31 24 then (ctxOf u w).allot else bits w0 31 24) =
          if bits w0 31 24 = 0 || (ctxOf u w).allot < bits w0 31 24 then (ctxOf u w).allot else bits w0 31 24 := if_congr (by simp) rfl rfl
      have byte : 2 ^ 8 = 256 := rfl
      rw [live, byte]
      exact value List.mem_cons_self
    word1 := by
      have header := value (off := 8) (n := 8) (List.mem_cons_of_mem _ List.mem_cons_self)
      cases hg : (ctxOf u w).gang with
      | none =>
        rw [hg] at header
        exact header
      | some g =>
        have one : (some g).isSome.toNat * 2 ^ 62 = 2 ^ 62 := Nat.one_mul _
        rw [hg, one, if_pos Option.isSome_some] at header
        rw [if_neg (Option.some_ne_none g), if_neg (Option.some_ne_none g)]
        exact header
    word2 := value (List.mem_cons_of_mem _ (List.mem_cons_of_mem _ List.mem_cons_self))
    word3 := by
      have at_ : (if atBarrier u w then 2 ^ 16 else 0) = (atBarrier u w).toNat * 2 ^ 16 := by
        cases atBarrier u w <;> rfl
      rw [at_]
      exact value (List.mem_cons_of_mem _ (List.mem_cons_of_mem _ (List.mem_cons_of_mem _ List.mem_cons_self)))
    words4 := value (List.mem_cons_of_mem _ (List.mem_cons_of_mem _ (List.mem_cons_of_mem _ (List.mem_cons_of_mem _ List.mem_cons_self))))
    g := fun r hr => reg (List.mem_append_left _ (List.mem_append_left _ (List.mem_append_left _ (List.mem_append_left _ (List.mem_append_left _ (List.mem_append_left _ (row (off := 0x40) (n := 8) (fun i => (rg u w i).toNat) hr)))))))
    m := reg (List.mem_append_left _ (List.mem_append_left _ (List.mem_append_left _ (List.mem_append_left _ (List.mem_append_left _ (List.mem_append_right _ List.mem_cons_self))))))
    p := fun r hr => reg (List.mem_append_left _ (List.mem_append_left _ (List.mem_append_left _ (List.mem_append_left _ (List.mem_append_right _ (row (off := 0x280) (n := 4) (fun i => (rp u w i).toNat) hr))))))
    rmode := reg (List.mem_append_left _ (List.mem_append_left _ (List.mem_append_left _ (List.mem_append_right _ List.mem_cons_self))))
    flags := reg (List.mem_append_left _ (List.mem_append_left _ (List.mem_append_left _ (List.mem_append_right _ (List.mem_cons_of_mem _ List.mem_cons_self)))))
    reserved := reg (List.mem_append_left _ (List.mem_append_left _ (List.mem_append_left _ (List.mem_append_right _ (List.mem_cons_of_mem _ (List.mem_cons_of_mem _ List.mem_cons_self))))))
    v := fun r hr => reg (List.mem_append_left _ (List.mem_append_left _ (List.mem_append_right _ (row (off := 0x2C0) (n := 64) (fun i => (rv u w i).toNat) hr))))
    rest := fun i hi => by
      have zeros := reg (List.mem_append_left _ (List.mem_append_right _ (row (off := 0xEC0) (n := 32) (fun _ => 0) (show i / 32 < 10 by omega)))) (i % 32) (Nat.mod_lt _ (by decide))
      have place : 0xEC0 + 32 * (i / 32) + i % 32 = 0xEC0 + i := by omega
      rw [place, Nat.zero_div] at zeros
      rw [zeros, Nat.zero_div]
    tiles := fun i hi => reg (List.mem_append_right _ (row (off := 0x1000) (n := 32) (fun i => if nbit (bits w0 15 8) (i / 64) then (tileRow u (coreOf w) (i / 64) (i % 64)).toNat else 0) hi)) }

end

theorem BlockSaved.congr {s x t : State} {k w : Nat} {places : List Nat} {w0 w1 : Nat} (same : ∀ a, coreByte t k a = coreByte x k a) (h : BlockSaved s x k w places w0 w1) :
    BlockSaved s t k w places w0 w1 where
  word0 := blockHolds_congr same h.word0
  word1 := blockHolds_congr same h.word1
  word2 := blockHolds_congr same h.word2
  word3 := blockHolds_congr same h.word3
  words4 := blockHolds_congr same h.words4
  g r hr := blockHolds_congr same (h.g r hr)
  m := blockHolds_congr same h.m
  p r hr := blockHolds_congr same (h.p r hr)
  rmode := blockHolds_congr same h.rmode
  flags := blockHolds_congr same h.flags
  reserved := blockHolds_congr same h.reserved
  v r hr := blockHolds_congr same (h.v r hr)
  rest := blockHolds_congr same h.rest
  tiles i hi := blockHolds_congr same (h.tiles i hi)

/-! ### The saved context -/

theorem leaveBarrier_only (s : State) (w : Nat) : leaveBarrier s w = { s with clusters := (leaveBarrier s w).clusters, gangs := (leaveBarrier s w).gangs } := by
  have only (t : State) (f : Cluster → Cluster) : modCluster t (vertOf w) f = { t with clusters := (modCluster t (vertOf w) f).clusters } := rfl
  unfold leaveBarrier
  dsimp only
  generalize hu : modCluster s (vertOf w) (fun x => { x with arrivals := x.arrivals.filter (fun e => e.1 ≠ w) }) = u
  have uonly : u = { s with clusters := u.clusters } := hu ▸ only _ _
  split
  · rw [uonly]
  · generalize hx : modCluster u (vertOf w) (fun x => { x with wired := x.wired.filter (fun e => e.1 ≠ w) }) = x
    have xonly : x = { s with clusters := x.clusters } := by
      have last : x = { u with clusters := x.clusters } := hx ▸ only _ _
      rw [last, uonly]
    split
    · rw [xonly]
    · split
      · rw [xonly]
      · rw [xonly]

/-- A context that is saved. -/
def savedCtx (y : Ctx) : Ctx :=
  { y with run := .savedOut, watchdog := none, track := [], latches := [], popSince := none, budgetEnd := none, budgetKept := none, barrierArrived := false, passBarrier := false, stopWhy := none }

theorem savedOut_alone {s : State} {w : Nat} (alone : (ctxOf s w).lockstep = false) : savedOut s w = modCtx (leaveBarrier s w) w savedCtx := by
  have same : (ctxOf (leaveBarrier s w) w).lockstep = false := by rw [leaveBarrier_only, ← alone]; rfl
  unfold savedOut
  dsimp only
  rw [same, if_neg Bool.false_ne_true]
  rfl

/-- What stopping a target changes: that context. -/
theorem stopTarget_only (s : State) (w : Nat) : ∃ f : Ctx → Ctx, (stopTarget s w).2 = s ∨ (stopTarget s w).2 = modCtx s w f ∧ (∀ x, (f x).lockstep = x.lockstep) := by
  unfold stopTarget
  dsimp only
  split
  · exact ⟨fun y => { y with run := .stopped }, .inr ⟨rfl, fun _ => rfl⟩⟩
  · split
    · exact ⟨fun y => { y with run := .stopped }, .inr ⟨rfl, fun _ => rfl⟩⟩
    · exact ⟨fun y => { y with stopWhy := if y.stopWhy = some true then some true else some false }, .inr ⟨rfl, fun _ => rfl⟩⟩
  · exact ⟨fun y => { y with run := .stopped }, .inr ⟨rfl, fun _ => rfl⟩⟩
  · exact ⟨id, .inl rfl⟩
  · exact ⟨id, .inl rfl⟩
  · exact ⟨id, .inl rfl⟩
  · exact ⟨id, .inl rfl⟩
  · exact ⟨fun y => { y with stopWhy := if y.stopWhy = some true then some true else some false }, .inr ⟨rfl, fun _ => rfl⟩⟩

/-- A context in which only what lookups change differs. -/
def OwnKept (x y : Ctx) : Prop :=
  y = { x with late := y.late, fresh := y.fresh, budgetEnd := y.budgetEnd, budgetKept := y.budgetKept, slotTokens := y.slotTokens }

/-- The context that saves another stands as it was, after the target is stopped and the block opened. -/
theorem stopped_opened {s v u : State} {w : Nat} {b : Bool} (still : stopTarget s w = (b, v)) (opened : Opened v u) :
    u.cur = s.cur ∧ u.flights = s.flights ∧ (ctxOf u w).lockstep = (ctxOf s w).lockstep ∧ ∀ e, e ≠ w → OwnKept (ctxOf s e) (ctxOf u e) := by
  obtain ⟨f, same | ⟨set, lock⟩⟩ := stopTarget_only s w
  · rw [still] at same
    dsimp only at same
    subst same
    exact ⟨opened.cur, opened.flights, by rw [opened.ctx], fun e _ => opened.ctx e⟩
  · rw [still] at set
    dsimp only at set
    refine ⟨by rw [opened.cur, set, modCtx_cur], by rw [opened.flights, set, modCtx_flights], ?_, fun e other => ?_⟩
    · rw [opened.ctx, set, ctxOf_modCtx_self]
      exact lock _
    · have own := opened.ctx e
      rw [set, ctxOf_modCtx_ne _ _ other] at own
      exact own

end Sys2Proof.Machine
end

