-- ==== Sys2Proof/Proofs/ContextSaveEnds.lean ====
section
/-! SUPPORT. O37: CTXSAVE in its step, and CTXSAVE that waits for its target (R320). -/

namespace Sys2Proof.Machine

/-- The home slices are told of the store. -/
def blockNoticed (s : State) (ea : Word) : State := (List.range 80).foldl (fun t i => noticeStore t (ea.toNat % 2 ^ 53 + 256 * i)) s

theorem blockNoticed_only (s : State) (ea : Word) : blockNoticed s ea = { s with tokens := (blockNoticed s ea).tokens } :=
  foldl_keeps (P := fun t => t = { s with tokens := t.tokens }) (fun t i h => by rw [noticeStore_only, h]) _ rfl

/-- The block written. -/
def blockWritten (s : State) (ea : Word) (places : List Nat) (w : Nat) : State :=
  useLines (blockPut (blockNoticed s ea) (.here places) (blockValues s (.here places) w)) (coreOf s.cur) (blockLines places)

theorem saveCtx_here (s : State) (ea : Word) (places : List Nat) (w : Nat) : saveCtx s ea (.here places) w = .ok (savedOut (blockWritten s ea places w) w) := by
  have run : saveCtx s ea (.here places) w =
      .ok (savedOut (useLines (blockPut (blockNoticed s ea) (.here places) (blockValues (blockNoticed s ea) (.here places) w)) (coreOf (blockNoticed s ea).cur) (blockLines places)) w) := rfl
  have values : blockValues (blockNoticed s ea) (.here places) w = blockValues s (.here places) w := by rw [blockNoticed_only, blockValues_tokens]
  have cur : (blockNoticed s ea).cur = s.cur := by rw [blockNoticed_only]
  rw [run, values, cur, blockWritten]

theorem blockWritten_lines (s : State) (ea : Word) (places : List Nat) (w : Nat) : LinesOnly (blockNoticed s ea) (blockWritten s ea places w) :=
  (blockPut_lines _ _ _).trans (useLines_lines _ _ _)

theorem blockWritten_ctx (s : State) (ea : Word) (places : List Nat) (w e : Nat) : ctxOf (blockWritten s ea places w) e = ctxOf s e := by
  rw [(blockWritten_lines s ea places w).ctx, ctxOf, blockNoticed_only, ctxOf]

/-- What stands in the block then. -/
theorem blockWritten_saved {u : State} (ea : Word) {places : List Nat} {w : Nat} (allot : (ctxOf u w).allot ≤ 48) (pieces : Pieces places) (size : places.length = 80) :
    BlockSaved u (blockWritten u ea places w) (coreOf u.cur) w places (blockGet u (.here places) 0 8) (blockGet u (.here places) 8 8) := by
  have cur : (blockNoticed u ea).cur = u.cur := by rw [blockNoticed_only]
  refine (blockSaved_values (k := coreOf u.cur) (t := blockNoticed u ea) allot pieces size rfl).congr (fun a => ?_)
  rw [blockWritten, coreByte_useLines, blockPut_here, cur]

section

variable {o : OpS} {s u v : State} {places : List Nat} {far w : Nat} (hi : Issues (.ctxsave o) s) (quiet : Quiet s) (named : contextNamed s (rg s s.cur o.d.toNat) = some w)
  (other : w ≠ s.cur) (fit : saveable s w = true) (free : FreeToAct s) (still : stopTarget s w = (true, v))
  (opened : openBlock v (rg s s.cur o.a.toNat) .wr = .ok (.here places, far, u)) (alone : (ctxOf s w).lockstep = false) (allot : (ctxOf u w).allot ≤ 48)
  (size : places.length = 80) (pieces : Pieces places)
include hi quiet named other fit free still opened alone allot size pieces

/-- A target that stands still, with a block that opens, is saved in the step. -/
theorem ctxsave_saves : ∃ t, exec (.ctxsave o) s = .next t ∧ Moves s t [] ∧ (ctxOf t w).run = .savedOut ∧ (ctxOf t w).watchdog = none ∧
    (ctxOf t w).regs = (ctxOf u w).regs ∧ BlockSaved u t (coreOf s.cur) w places (blockGet u (.here places) 0 8) (blockGet u (.here places) 8 8) := by
  have ready := hi.1
  have unstarted := beginIssue_of_quiet quiet
  obtain ⟨cur, -, lock, own⟩ := stopped_opened still (openBlock_opened opened)
  have mine := own s.cur other.symm
  obtain ⟨x, hx⟩ : ∃ x, x = blockWritten u (rg s s.cur o.a.toNat) places w := ⟨_, rfl⟩
  have xctx (e : Nat) : ctxOf x e = ctxOf u e := hx ▸ blockWritten_ctx u _ places w e
  have xcur : x.cur = s.cur := by
    rw [hx, (blockWritten_lines _ _ _ _).cur, blockNoticed_only, cur]
  have saved := savedOut_alone (s := x) (w := w) (by rw [xctx, lock, alone])
  have left := leaveBarrier_only x w
  obtain ⟨y, hy⟩ : ∃ y, y = leaveBarrier x w := ⟨_, rfl⟩
  rw [← hy] at left saved
  have yctx (e : Nat) : ctxOf y e = ctxOf u e := by
    rw [ctxOf, left, ← xctx, ctxOf]
  have ycur : y.cur = s.cur := by rw [left, xcur]
  obtain ⟨n, hn⟩ : ∃ n, n = u.cycle + blockCycles (ctxOf u w).allot (bits (blockGet u (.here places) 0 8) 15 8) + 2 * far + 6 := ⟨_, rfl⟩
  obtain ⟨f, hf⟩ : ∃ f, f = notBefore (markCip (modCtx y w savedCtx) s.cur) s.cur n := ⟨_, rfl⟩
  have fcur : f.cur = s.cur := by rw [hf, notBefore, markCip, modCtx_cur, modCtx_cur, modCtx_cur, ycur]
  have ftarget : ctxOf f w = savedCtx (ctxOf u w) := by
    rw [hf, notBefore, markCip, ctxOf_modCtx_ne _ _ other, ctxOf_modCtx_ne _ _ other, ctxOf_modCtx_self, yctx]
  have fown : ctxOf f s.cur = { ctxOf u s.cur with cip := (ctxOf f s.cur).cip, readyAt := (ctxOf f s.cur).readyAt } := by
    rw [hf, notBefore, markCip, ctxOf_modCtx_self, ctxOf_modCtx_self, ctxOf_modCtx_ne _ _ other.symm, yctx]
  obtain ⟨-, -, -, -, pass, -⟩ := quiet
  have run : exec (.ctxsave o) s = .next (retire (.ctxsave o) f (nextPc f)) := by
    change execCtxsave o s = _
    unfold execCtxsave
    refine runSeq_ok hi.2 ?_
    dsimp only
    rw [unstarted, named, Option.filter_some, if_pos fit]
    dsimp only
    rw [outputGate_ok (.refl s) free, ok_bind, still]
    dsimp only
    rw [Bool.not_true, if_neg Bool.false_ne_true, opened, ok_bind]
    dsimp only
    rw [saveCtx_here, ok_bind, ← hx, saved, ← hn, ← hf, gangFault_ok]
  refine ⟨_, run, moves_own fcur ?_ ?_ ?_, ?_, ?_, ?_, ?_⟩
  · rw [fown, mine, ready]
  · rw [fown, mine]
  · rw [fown, mine]
  · rw [retire_apart (by rw [fcur, fown, mine, pass]) (by rw [fcur]; exact other), ftarget, savedCtx]
  · rw [retire_apart (by rw [fcur, fown, mine, pass]) (by rw [fcur]; exact other), ftarget, savedCtx]
  · rw [retire_apart (by rw [fcur, fown, mine, pass]) (by rw [fcur]; exact other), ftarget, savedCtx]
  · have written := blockWritten_saved (u := u) (rg s s.cur o.a.toNat) allot pieces size
    rw [← hx, cur] at written
    refine written.congr (fun a => coreByte_congr (fun l => ?_) ?_ a)
    · rw [lineOf_retire, hf, lineOf, lineOf]
      have cores : (notBefore (markCip (modCtx y w savedCtx) s.cur) s.cur n).cores = x.cores := by
        rw [notBefore, markCip, modCtx_cores, modCtx_cores, modCtx_cores, left]
      rw [coreAt, cores, coreAt]
    · rw [retire_mem, hf, notBefore, markCip, modCtx_mem, modCtx_mem, modCtx_mem, left]

end

/-- CTXSAVE waits for a target that does not stand still. -/
theorem ctxsave_waits {o : OpS} {s v : State} {w : Nat} (hi : Issues (.ctxsave o) s) (named : contextNamed s (rg s s.cur o.d.toNat) = some w)
    (fit : saveable (beginIssue s) w = true) (free : FreeToAct s) (moving : stopTarget (beginIssue s) w = (false, v)) :
    Gives (.ctxsave o) s (fun t => (ctxOf t s.cur).run = .stalled (.stopping w)) := by
  have looked := beginIssue_looked s
  have device : (beginIssue s).device = s.device := looked.device
  have named' : contextNamed (beginIssue s) (rg s s.cur o.d.toNat) = some w := by rw [contextNamed, device, ← contextNamed, named]
  have cur : v.cur = s.cur := by
    obtain ⟨f, same | ⟨set, -⟩⟩ := stopTarget_only (beginIssue s) w
    · rw [moving] at same
      dsimp only at same
      rw [same, looked.cur]
    · rw [moving] at set
      dsimp only at set
      rw [set, modCtx_cur, looked.cur]
  refine ⟨modCtx v v.cur (fun x => { x with run := .stalled (.stopping w), tried := true }), ?_, ?_⟩
  · change execCtxsave o s = _
    unfold execCtxsave
    refine runSeq_park hi.2 ?_
    dsimp only
    rw [looked.cur, looked.rg, named', Option.filter_some, if_pos fit]
    dsimp only
    rw [outputGate_ok looked free, ok_bind, moving]
    rfl
  · dsimp only
    rw [cur, ctxOf_modCtx_self]

/-! ### A block that is ready -/

/-- A context that stands still already is left as it is. -/
theorem stopTarget_still {s : State} {w : Nat} (quiet : s.flights = []) (run : (ctxOf s w).run ∈ [Run.stopped, .held, .trapped, .preempted])
    (apart : (ctxOf s w).run = .stopped → ∀ j ∈ (clusterAt s (vertOf w)).waiting, w ∉ j.members) : stopTarget s w = (true, s) := by
  have back : returning s w = false := by
    rw [returning, quiet]
    rfl
  simp only [List.mem_cons, List.not_mem_nil, or_false] at run
  rcases run with stopped | held | trapped | preempted
  · have none_ : (clusterAt s (vertOf w)).waiting.any (fun j => j.members.contains w) = false := by
      rw [List.any_eq_false]
      intro j hj
      rw [List.contains_iff_mem]
      exact apart stopped j hj
    rw [stopTarget, stopped]
    dsimp only
    rw [back, none_]
    rfl
  · rw [stopTarget, held, back]
    rfl
  · rw [stopTarget, trapped, back]
    rfl
  · rw [stopTarget, preempted, back]
    rfl

theorem blockAt_size (ea : Word) (e : TlbEntry) : (blockAt ea e).length = 80 := by rw [blockAt, List.length_map, List.length_range]

theorem unsettled_none {s : State} (none_ : s.flights = []) (c : Nat) : unsettled s c = false := by
  rw [unsettled, none_]
  rfl

/-- What was saved as lookups left it was saved as it stood. -/
theorem BlockSaved.of_hits {s u t : State} {k w : Nat} {places : List Nat} (hits : HitsOnly s u)
    (h : BlockSaved u t k w places (blockGet u (.here places) 0 8) (blockGet u (.here places) 8 8)) :
    BlockSaved s t k w places (blockGet s (.here places) 0 8) (blockGet s (.here places) 8 8) := by
  have tiles (j r : Nat) : tileRow u (coreOf w) j r = tileRow s (coreOf w) j r := by rw [tileRow, hits.core, tileRow]
  rw [hits.blockGet, hits.blockGet] at h
  obtain ⟨cores, hc⟩ : ∃ cores, cores = u.cores := ⟨_, rfl⟩
  have only := hits.only
  rw [← hc] at only
  obtain ⟨word0, word1, word2, word3, words4, g, m, p, rmode, flags, reserved, v, rest, saved⟩ := h
  have last : ∀ i, i < 512 → blockHolds t k places (0x1000 + 32 * i) 32
      (if nbit (bits (blockGet s (.here places) 0 8) 15 8) (i / 64) then (tileRow s (coreOf w) (i / 64) (i % 64)).toNat else 0) := fun i hi => by
    rw [← tiles]
    exact saved i hi
  subst only
  exact ⟨word0, word1, word2, word3, words4, g, m, p, rmode, flags, reserved, v, rest, last⟩

theorem ctxsave_ready {o : OpS} {s : State} {w : Nat} {e : TlbEntry} {h : TokenHit} (hi : Issues (.ctxsave o) s) (quiet : Quiet s) (own : (ctxOf s s.cur).lockstep = false)
    (named : contextNamed s (rg s s.cur o.d.toNat) = some w) (other : w ≠ s.cur) (fit : saveable s w = true)
    (run : (ctxOf s w).run ∈ [Run.stopped, .held, .trapped, .preempted]) (alone : (ctxOf s w).lockstep = false)
    (apart : (ctxOf s w).run = .stopped → ∀ j ∈ (clusterAt s (vertOf w)).waiting, w ∉ j.members) (allot : (ctxOf s w).allot ≤ 48)
    (ready : BlockReady s (rg s s.cur o.a.toNat) .wr .write e h) :
    ∃ t, exec (.ctxsave o) s = .next t ∧ Moves s t [] ∧ (ctxOf t w).run = .savedOut ∧ (ctxOf t w).watchdog = none ∧ (ctxOf t w).regs = (ctxOf s w).regs ∧
      BlockSaved s t (coreOf s.cur) w (blockAt (rg s s.cur o.a.toNat) e) (blockGet s (.here (blockAt (rg s s.cur o.a.toNat) e)) 0 8)
        (blockGet s (.here (blockAt (rg s s.cur o.a.toNat) e)) 8 8) := by
  obtain ⟨far, u, opened, hits⟩ := ready.opens (fun _ => rfl) (fun no => absurd rfl no)
  obtain ⟨t, exec_, moves, saved, dog, regs, block⟩ := ctxsave_saves hi quiet named other fit ⟨unsettled_none ready.nothingOut _, .inl own⟩
    (stopTarget_still ready.nothingOut run apart) opened alone (by rw [hits.ctx]; exact allot) (blockAt_size _ _) ⟨ready.apart.1, ready.apart.2⟩
  exact ⟨t, exec_, moves, saved, dog, by rw [regs, hits.ctx], block.of_hits hits⟩

end Sys2Proof.Machine
end

