-- ==== Sys2Proof/Proofs/ContextRestore.lean ====
section
/-! SUPPORT. O37: what CTXREST takes from the block for its target (R205, R321). -/

namespace Sys2Proof.Machine

/-! ### What restoring changes -/

/-- Restoring context w changes that context, tiles, the record of gangs, and who steals. -/
structure Restoring (w : Nat) (s t : State) : Prop where
  only : t = { s with ctxs := t.ctxs, cores := t.cores, gangs := t.gangs }
  others : ∀ e, e ≠ w → ctxOf t e = ctxOf s e
  core : ∀ k, coreAt t k = { coreAt s k with tiles := (coreAt t k).tiles, victim := (coreAt t k).victim }

namespace Restoring

variable {w : Nat}

theorem refl (s : State) : Restoring w s s := ⟨rfl, fun _ _ => rfl, fun _ => rfl⟩

theorem trans {s t u : State} (h : Restoring w s t) (g : Restoring w t u) : Restoring w s u where
  only := by rw [g.only, h.only]
  others e he := by rw [g.others e he, h.others e he]
  core k := by rw [g.core k, h.core k]

theorem modCtx (s : State) (f : Ctx → Ctx) : Restoring w s (modCtx s w f) := ⟨rfl, fun _ other => ctxOf_modCtx_ne _ _ other, fun _ => rfl⟩

theorem setCtx (s : State) (x : Ctx) : Restoring w s (setCtx s w x) := ⟨rfl, fun _ other => ctxOf_setCtx_ne _ _ other, fun _ => rfl⟩

theorem modCore (s : State) (k : Nat) {f : Core → Core} (hf : ∀ x, f x = { x with tiles := (f x).tiles, victim := (f x).victim }) : Restoring w s (modCore s k f) where
  only := rfl
  others _ _ := rfl
  core j := by
    rw [coreAt_modCore]
    split
    case isTrue same => rw [same]; exact hf _
    case isFalse => rfl

theorem wg (s : State) (r : Nat) (x : Word) : Restoring w s (wg s w r x) := by
  unfold Machine.wg
  split
  · exact .refl s
  · exact .modCtx s _

theorem wp (s : State) (r : Nat) (x : BitVec 32) : Restoring w s (wp s w r x) := by
  unfold Machine.wp
  split
  · exact .refl s
  · exact .modCtx s _

theorem wv (s : State) (r : Nat) (x : Vec) : Restoring w s (wv s w r x) := .modCtx s _

theorem foldl {β : Type} {f : State → β → State} (hf : ∀ t x, Restoring w t (f t x)) (l : List β) (s : State) : Restoring w s (l.foldl f s) :=
  foldl_keeps (P := fun t => Restoring w s t) (fun t x h => h.trans (hf t x)) l (.refl s)

variable {s t : State} (h : Restoring w s t)
include h

theorem cur : t.cur = s.cur := by rw [h.only]
theorem mem : t.mem = s.mem := by rw [h.only]

/-- The block still reads the same, when another context restores. -/
theorem blockGet (other : w ≠ s.cur) (b : Block) (off n : Nat) : Machine.blockGet t b off n = Machine.blockGet s b off n :=
  blockGet_congr h.cur (fun k l => by rw [lineOf, h.core, lineOf]) h.mem (by rw [h.others _ other.symm]) b off n

theorem blockWord (other : w ≠ s.cur) (b : Block) (off : Nat) : Machine.blockWord t b off = Machine.blockWord s b off := by
  rw [Machine.blockWord, h.blockGet other, Machine.blockWord]

end Restoring

/-- A fold whose steps read what none of them changes. -/
theorem foldl_stable {β : Type} {P : State → Prop} {f g : State → β → State} (same : ∀ t x, P t → f t x = g t x) (keeps : ∀ t x, P t → P (g t x)) (l : List β) :
    ∀ {s : State}, P s → l.foldl f s = l.foldl g s := by
  induction l with
  | nil => exact fun _ => rfl
  | cons x l ih =>
    intro s start
    rw [List.foldl_cons, List.foldl_cons, same s x start, ih (keeps s x start)]

/-! ### Registers and tiles -/

section

variable (w : Nat)

/-- The g registers are written, g0 apart. -/
theorem foldl_wg (y : Nat → Word) (n : Nat) : ∀ s : State,
    let t := (List.range n).foldl (fun t i => wg t w i (y i)) s
    ctxOf t w = { ctxOf s w with regs := { (ctxOf s w).regs with g := (ctxOf t w).regs.g } } ∧ ∀ r, 0 < r → r < n → rg t w r = y r := by
  induction n with
  | zero => exact fun s => ⟨rfl, fun r _ hr => absurd hr (Nat.not_lt_zero r)⟩
  | succ n ih =>
    intro s
    obtain ⟨same, reads⟩ := ih s
    rw [List.range_succ, List.foldl_append, List.foldl_cons, List.foldl_nil]
    dsimp only at same reads ⊢
    generalize (List.range n).foldl (fun t i => wg t w i (y i)) s = t at same reads
    refine ⟨by rw [wg_ctx, same], fun r pos less => ?_⟩
    rcases eq_or_ne r n with rfl | other
    · rw [rg_wg_self, if_neg (Nat.ne_of_gt pos)]
    · rw [rg_wg_ne _ _ _ other, reads r pos (by omega)]

theorem foldl_wp (y : Nat → BitVec 32) (n : Nat) : ∀ s : State,
    let t := (List.range n).foldl (fun t i => wp t w i (y i)) s
    ctxOf t w = { ctxOf s w with regs := { (ctxOf s w).regs with p := (ctxOf t w).regs.p } } ∧ ∀ r, 0 < r → r < n → rp t w r = y r := by
  induction n with
  | zero => exact fun s => ⟨rfl, fun r _ hr => absurd hr (Nat.not_lt_zero r)⟩
  | succ n ih =>
    intro s
    obtain ⟨same, reads⟩ := ih s
    rw [List.range_succ, List.foldl_append, List.foldl_cons, List.foldl_nil]
    dsimp only at same reads ⊢
    generalize (List.range n).foldl (fun t i => wp t w i (y i)) s = t at same reads
    refine ⟨by rw [wp_ctx, same], fun r pos less => ?_⟩
    rcases eq_or_ne r n with rfl | other
    · rw [rp_wp_self, if_neg (Nat.ne_of_gt pos)]
    · rw [rp_wp_ne _ _ _ other, reads r pos (by omega)]

theorem wv_ctx (s : State) (r : Nat) (x : Vec) : ctxOf (wv s w r x) w = { ctxOf s w with regs := { (ctxOf s w).regs with v := (ctxOf (wv s w r x) w).regs.v } } := by
  rw [wv, ctxOf_modCtx_self]

theorem foldl_wv (y : Nat → Vec) (n : Nat) : ∀ s : State,
    let t := (List.range n).foldl (fun t i => wv t w i (y i)) s
    ctxOf t w = { ctxOf s w with regs := { (ctxOf s w).regs with v := (ctxOf t w).regs.v } } ∧ ∀ r, r < n → rv t w r = y r := by
  induction n with
  | zero => exact fun s => ⟨rfl, fun r hr => absurd hr (Nat.not_lt_zero r)⟩
  | succ n ih =>
    intro s
    obtain ⟨same, reads⟩ := ih s
    rw [List.range_succ, List.foldl_append, List.foldl_cons, List.foldl_nil]
    dsimp only at same reads ⊢
    generalize (List.range n).foldl (fun t i => wv t w i (y i)) s = t at same reads
    refine ⟨by rw [wv_ctx, same], fun r less => ?_⟩
    rcases eq_or_ne r n with rfl | other
    · rw [rv_wv_self]
    · rw [rv_wv_ne _ _ _ other, reads r (by omega)]

end

/-- The rows of the tiles that the mask names are written. -/
theorem foldl_tiles (k : Nat) (named : Nat → Bool) (y : Nat → BitVec 256) (n : Nat) : ∀ s : State,
    let t := (List.range n).foldl (fun t i => if named i then setTileRow t k (i / 64) (i % 64) (y i) else t) s
    t.ctxs = s.ctxs ∧ ∀ i, i < n → named i = true → tileRow t k (i / 64) (i % 64) = y i := by
  induction n with
  | zero => exact fun s => ⟨rfl, fun i hi => absurd hi (Nat.not_lt_zero i)⟩
  | succ n ih =>
    intro s
    obtain ⟨same, reads⟩ := ih s
    rw [List.range_succ, List.foldl_append, List.foldl_cons, List.foldl_nil]
    dsimp only at same reads ⊢
    generalize (List.range n).foldl (fun t i => if named i then setTileRow t k (i / 64) (i % 64) (y i) else t) s = t at same reads
    split
    case isTrue here =>
      refine ⟨by rw [setTileRow, modCore_ctxs, same], fun i less asked => ?_⟩
      rcases eq_or_ne i n with rfl | other
      · rw [setTileRow, tileRow, coreAt_modCore_self]
        exact sget_sput_self _ _ _ _
      · rw [← reads i (by omega) asked, setTileRow, tileRow, coreAt_modCore_self]
        exact sget_sput_ne _ _ _ (by omega)
    case isFalse none_ =>
      refine ⟨same, fun i less asked => ?_⟩
      rcases eq_or_ne i n with rfl | other
      · exact absurd asked none_
      · exact reads i (by omega) asked

/-! ### The restored context -/

/-- The target as the header of the block makes it. -/
def restoredCtx (s : State) (b : Block) (origin w allot : Nat) : Ctx :=
  { Ctx.reset with
    lease := (ctxOf s w).lease, groupNo := (ctxOf s w).groupNo + 1, allot := allot, pc := codePc s (blockGet s b 16 8)
    rmode := if (BitVec.ofNat 3 (blockGet s b 0x2A0 8)).toNat = 0 || 6 ≤ (BitVec.ofNat 3 (blockGet s b 0x2A0 8)).toNat then 1 else BitVec.ofNat 3 (blockGet s b 0x2A0 8)
    acct := BitVec.ofNat 12 (bits (blockGet s b 8 8) 43 32), lockstep := nbit (blockGet s b 8 8) 63
    gang := if nbit (blockGet s b 8 8) 62 then (ctxOf s origin).gang else none, member := bits (blockGet s b 24 8) 11 0
    barrierArrived := nbit (blockGet s b 24 8) 16
    budgetKept := if nbit (blockGet s b 8 8) 62 && bits (blockGet s b 8 8) 31 0 ≠ 0xFFFFFFFF then some (bits (blockGet s b 8 8) 31 0) else none, fresh := true
    regs := { Regs.reset with flags := BitVec.ofNat 5 (blockGet s b 0x2A8 8) }, run := .held }

/-- The registers are taken from the block. -/
def restoreRegs (s : State) (b : Block) (w allot : Nat) : State :=
  let s := (List.range 64).foldl (fun t i => wg t w i (blockWord t b (0x40 + 8 * i))) s
  let s := (List.range 8).foldl (fun t i => wp t w i (BitVec.ofNat 32 (blockGet t b (0x280 + 4 * i) 4))) s
  (List.range allot).foldl (fun t i => wv t w i (BitVec.ofNat 512 (blockGet t b (0x2C0 + 64 * i) 64))) s

/-- The tiles are taken from the block. -/
def restoreTiles (s : State) (b : Block) (w0 k : Nat) : State :=
  (List.range 512).foldl (fun t i =>
    if nbit (bits w0 15 8) (i / 64) then setTileRow t k (i / 64) (i % 64) (BitVec.ofNat 256 (blockGet t b (0x1000 + 32 * i) 32)) else t) s

/-- The gang's record names the target. -/
def restoreGang (s : State) (x : Ctx) (w : Nat) : State :=
  match x.gang with
  | none => s
  | some g => match sget none s.gangs g with
    | none => s
    | some y =>
      let l := y.members.map (fun m => if m.1 = x.member then (x.member, w) else m)
      let places := y.clusters.zipIdx.map (fun e => match l.find? (fun m => m.1 = x.member && m.1 / 8 = e.2) with | some m => vertOf m.2 | none => e.1)
      { s with gangs := sput none s.gangs g (some { y with members := l, clusters := places }) }

theorem restoreCtx_eq {s : State} {b : Block} {origin w allot : Nat} (alone : nbit (blockGet s b 8 8) 63 = false) :
    restoreCtx s b origin w allot =
      stealEnds (restoreGang (restoreTiles (restoreRegs (setCtx s w (restoredCtx s b origin w allot)) b w allot) b (blockGet s b 0 8) (coreOf w)) (restoredCtx s b origin w allot) w) (coreOf w) := by
  have lock : (restoredCtx s b origin w allot).lockstep = false := alone
  have run : restoreCtx s b origin w allot =
      let x := restoredCtx s b origin w allot
      let t := restoreRegs (setCtx s w x) b w allot
      let t := (coreOf w :: (if x.lockstep then [coreOf (partnerOf w)] else [])).foldl (fun u k => restoreTiles u b (blockGet s b 0 8) k) t
      let t := stealEnds (restoreGang t x w) (coreOf w)
      if x.lockstep then modCtx t (partnerOf w) (fun y => { ctxOf t w with run := .trailing, lease := y.lease }) else t := rfl
  rw [run]
  dsimp only
  rw [lock, if_neg Bool.false_ne_true, if_neg Bool.false_ne_true, List.foldl_cons, List.foldl_nil]

theorem restoreGang_restoring (s : State) (x : Ctx) (w : Nat) : Restoring w s (restoreGang s x w) := by
  unfold restoreGang
  split
  · exact .refl s
  · split
    · exact .refl s
    · exact ⟨rfl, fun _ _ => rfl, fun _ => rfl⟩

theorem restoreGang_ctxs (s : State) (x : Ctx) (w : Nat) : (restoreGang s x w).ctxs = s.ctxs ∧ (restoreGang s x w).cores = s.cores := by
  unfold restoreGang
  split
  · exact ⟨rfl, rfl⟩
  · split
    · exact ⟨rfl, rfl⟩
    · exact ⟨rfl, rfl⟩

theorem stealEnds_cases (s : State) (k : Nat) : stealEnds s k = s ∨ stealEnds s k = modCore s k (fun x => { x with victim := 0 }) := by
  unfold stealEnds
  split
  · exact .inl rfl
  · exact .inr rfl

theorem stealEnds_restoring (s : State) (k w : Nat) : Restoring w s (stealEnds s k) := by
  obtain same | set := stealEnds_cases s k
  · rw [same]
    exact .refl s
  · rw [set]
    exact .modCore s k (fun _ => rfl)

theorem restoreTiles_restoring (s : State) (b : Block) (w0 k w : Nat) : Restoring w s (restoreTiles s b w0 k) := by
  refine .foldl (fun t i => ?_) _ s
  split
  · exact .modCore t k (fun _ => rfl)
  · exact .refl t

theorem restoreRegs_restoring (s : State) (b : Block) (w allot : Nat) : Restoring w s (restoreRegs s b w allot) :=
  ((Restoring.foldl (fun t i => .wg t i _) _ s).trans (.foldl (fun t i => .wp t i _) _ _)).trans (.foldl (fun t i => .wv t i _) _ _)

section

variable {s : State} {b : Block} {w : Nat} (other : w ≠ s.cur)
include other

/-- The registers after they are taken from a block that another context reads. -/
theorem restoreRegs_reads (allot : Nat) :
    let t := restoreRegs s b w allot
    ctxOf t w = { ctxOf s w with regs := { (ctxOf s w).regs with g := (ctxOf t w).regs.g, p := (ctxOf t w).regs.p, v := (ctxOf t w).regs.v } } ∧
      (∀ r, 0 < r → r < 64 → rg t w r = blockWord s b (0x40 + 8 * r)) ∧ (∀ r, 0 < r → r < 8 → rp t w r = BitVec.ofNat 32 (blockGet s b (0x280 + 4 * r) 4)) ∧
      ∀ r, r < allot → rv t w r = BitVec.ofNat 512 (blockGet s b (0x2C0 + 64 * r) 64) := by
  obtain ⟨t, ht⟩ : ∃ t, t = (List.range 64).foldl (fun t i => wg t w i (blockWord s b (0x40 + 8 * i))) s := ⟨_, rfl⟩
  obtain ⟨u, hu⟩ : ∃ u, u = (List.range 8).foldl (fun t i => wp t w i (BitVec.ofNat 32 (blockGet s b (0x280 + 4 * i) 4))) t := ⟨_, rfl⟩
  obtain ⟨v, hv⟩ : ∃ v, v = (List.range allot).foldl (fun t i => wv t w i (BitVec.ofNat 512 (blockGet s b (0x2C0 + 64 * i) 64))) u := ⟨_, rfl⟩
  have first : Restoring w s t := ht ▸ .foldl (fun t i => .wg t i _) _ s
  have second : Restoring w s u := hu ▸ first.trans (.foldl (fun t i => .wp t i _) _ t)
  have run : restoreRegs s b w allot = v := by
    rw [restoreRegs, foldl_stable (P := Restoring w s) (g := fun t i => wg t w i (blockWord s b (0x40 + 8 * i))) (fun t i h => by rw [h.blockWord other]) (fun t i h => h.trans (.wg t i _)) _ (.refl s), ← ht,
      foldl_stable (P := Restoring w s) (g := fun t i => wp t w i (BitVec.ofNat 32 (blockGet s b (0x280 + 4 * i) 4))) (fun t i h => by rw [h.blockGet other]) (fun t i h => h.trans (.wp t i _)) _ first, ← hu,
      foldl_stable (P := Restoring w s) (g := fun t i => wv t w i (BitVec.ofNat 512 (blockGet s b (0x2C0 + 64 * i) 64))) (fun t i h => by rw [h.blockGet other]) (fun t i h => h.trans (.wv t i _)) _ second, ← hv]
  obtain ⟨g, reads⟩ := foldl_wg w (fun i => blockWord s b (0x40 + 8 * i)) 64 s
  obtain ⟨p, reads'⟩ := foldl_wp w (fun i => BitVec.ofNat 32 (blockGet s b (0x280 + 4 * i) 4)) 8 t
  obtain ⟨x, reads''⟩ := foldl_wv w (fun i => BitVec.ofNat 512 (blockGet s b (0x2C0 + 64 * i) 64)) allot u
  rw [← ht] at g reads
  rw [← hu] at p reads'
  rw [← hv] at x reads''
  rw [run]
  refine ⟨by rw [x, p, g], fun r pos less => ?_, fun r pos less => ?_, reads''⟩
  · rw [← reads r pos less, rg, rg, x, p]
  · rw [← reads' r pos less, rp, rp, x]

theorem restoreTiles_reads (w0 k : Nat) : (restoreTiles s b w0 k).ctxs = s.ctxs ∧
    ∀ i, i < 512 → nbit (bits w0 15 8) (i / 64) = true → tileRow (restoreTiles s b w0 k) k (i / 64) (i % 64) = BitVec.ofNat 256 (blockGet s b (0x1000 + 32 * i) 32) := by
  have run : restoreTiles s b w0 k = (List.range 512).foldl (fun t i =>
      if nbit (bits w0 15 8) (i / 64) then setTileRow t k (i / 64) (i % 64) (BitVec.ofNat 256 (blockGet s b (0x1000 + 32 * i) 32)) else t) s := by
    refine foldl_stable (P := Restoring w s) (fun t i h => by rw [h.blockGet other]) (fun t i h => h.trans ?_) _ (.refl s)
    split
    · exact .modCore t k (fun _ => rfl)
    · exact .refl t
  rw [run]
  exact foldl_tiles k (fun i => nbit (bits w0 15 8) (i / 64)) (fun i => BitVec.ofNat 256 (blockGet s b (0x1000 + 32 * i) 32)) 512 s

end

/-- What stands in the target then, from the state that the block was read in. -/
theorem restoreCtx_restored {s : State} {b : Block} {origin w n : Nat} (other : w ≠ s.cur) (alone : nbit (blockGet s b 8 8) 63 = false) :
    Restoring w s (restoreCtx s b origin w n) ∧ Restored s (restoreCtx s b origin w n) b w origin n ∧ (ctxOf (restoreCtx s b origin w n) w).run = .held := by
  obtain ⟨x, hx⟩ : ∃ x, x = restoredCtx s b origin w n := ⟨_, rfl⟩
  obtain ⟨q, hq⟩ : ∃ q, q = setCtx s w x := ⟨_, rfl⟩
  obtain ⟨r, hr⟩ : ∃ r, r = restoreRegs q b w n := ⟨_, rfl⟩
  obtain ⟨t, ht⟩ : ∃ t, t = restoreTiles r b (blockGet s b 0 8) (coreOf w) := ⟨_, rfl⟩
  obtain ⟨g, hg⟩ : ∃ g, g = restoreGang t x w := ⟨_, rfl⟩
  have run : restoreCtx s b origin w n = stealEnds g (coreOf w) := by rw [restoreCtx_eq alone, ← hx, ← hq, ← hr, ← ht, ← hg]
  have started : Restoring w s q := hq ▸ .setCtx s x
  have registers : Restoring w s r := hr ▸ started.trans (restoreRegs_restoring q b w n)
  have other' : w ≠ q.cur := by rw [started.cur]; exact other
  have other'' : w ≠ r.cur := by rw [registers.cur]; exact other
  obtain ⟨ctx, gs, ps, vs⟩ := restoreRegs_reads (b := b) other' n
  rw [← hr] at ctx gs ps vs
  obtain ⟨tctxs, tiles⟩ := restoreTiles_reads (b := b) other'' (blockGet s b 0 8) (coreOf w)
  rw [← ht] at tctxs tiles
  obtain ⟨gctxs, gcores⟩ := restoreGang_ctxs t x w
  rw [← hg] at gctxs gcores
  have last : ctxOf (stealEnds g (coreOf w)) w = ctxOf r w := by
    obtain same | set := stealEnds_cases g (coreOf w)
    · rw [same, ctxOf, gctxs, tctxs, ctxOf]
    · rw [set, ctxOf, modCore_ctxs, gctxs, tctxs, ctxOf]
  have rows (j i : Nat) : tileRow (stealEnds g (coreOf w)) (coreOf w) j i = tileRow t (coreOf w) j i := by
    obtain same | set := stealEnds_cases g (coreOf w)
    · rw [same, tileRow, coreAt, gcores, ← coreAt, tileRow]
    · rw [set, tileRow, coreAt_modCore_self, coreAt, gcores, ← coreAt, tileRow]
  have qx : ctxOf q w = x := by rw [hq, ctxOf_setCtx_self]
  rw [qx] at ctx
  refine ⟨?_, ?_, ?_⟩
  · rw [run, hg, ht]
    exact ((registers.trans (restoreTiles_restoring _ _ _ _ _)).trans (restoreGang_restoring _ _ _)).trans (stealEnds_restoring _ _ _)
  · rw [run]
    exact {
      g := fun i pos less => by rw [rg, last, ← rg, gs i pos less, started.blockWord other, blockWord]
      p := fun i pos less => by rw [rp, last, ← rp, ps i pos less, started.blockGet other]
      v := fun i less => by rw [rv, last, ← rv, vs i less, started.blockGet other]
      allot := by rw [last, ctx, hx, restoredCtx]
      pc := by rw [last, ctx, hx, restoredCtx]
      rmode := fun low high => by
        have small : blockGet s b 0x2A0 8 % 2 ^ 3 = blockGet s b 0x2A0 8 := Nat.mod_eq_of_lt (by omega)
        have plain : ¬ ((decide (blockGet s b 0x2A0 8 = 0) || decide (6 ≤ blockGet s b 0x2A0 8)) = true) := by
          rw [Bool.or_eq_true, decide_eq_true_eq, decide_eq_true_eq]
          omega
        rw [last, ctx, hx, restoredCtx]
        dsimp only
        rw [BitVec.toNat_ofNat, small, if_neg plain]
      flags := by rw [last, ctx, hx, restoredCtx]
      acct := by rw [last, ctx, hx, restoredCtx]
      gang := by rw [last, ctx, hx, restoredCtx]
      budget := by
        rw [last, ctx, hx, restoredCtx]
        refine ⟨rfl, if_congr ?_ rfl rfl⟩
        rw [Bool.and_eq_true, decide_eq_true_eq]
      member := by rw [last, ctx, hx, restoredCtx]
      tiles := fun i less named => by rw [rows, tiles i less named, registers.blockGet other] }
  · rw [run, last, ctx, hx, restoredCtx]

/-- What is restored stays so while the context and the tiles stay. -/
theorem Restored.congr {s t u : State} {b : Block} {w origin n : Nat} (h : Restored s t b w origin n)
    (ctx : ∃ r a, ctxOf u w = { ctxOf t w with run := r, barrierArrived := a }) (tiles : ∀ k, (coreAt u k).tiles = (coreAt t k).tiles) : Restored s u b w origin n := by
  obtain ⟨r, a, ctx⟩ := ctx
  obtain ⟨g, p, v, allot, pc, rmode, flags, acct, gang, budget, member, rows⟩ := h
  exact {
    g := fun i pos less => by rw [← g i pos less, rg, rg, ctx]
    p := fun i pos less => by rw [← p i pos less, rp, rp, ctx]
    v := fun i less => by rw [← v i less, rv, rv, ctx]
    allot := by rw [← allot, ctx]
    pc := by rw [← pc, ctx]
    rmode := fun low high => by rw [← rmode low high, ctx]
    flags := by rw [← flags, ctx]
    acct := by rw [← acct, ctx]
    gang := by rw [← gang, ctx]
    budget := ⟨by rw [ctx]; exact budget.1, by rw [ctx]; exact budget.2⟩
    member := by rw [← member, ctx]
    tiles := fun i less named => by rw [← rows i less named, tileRow, tileRow, tiles] }

end Sys2Proof.Machine
end

