-- ==== Sys2Proof/Proofs/ContextRestoreEnds.lean ====
section
/-! SUPPORT. O37: the context that was saved becomes idle, and GO starts what may start (R194, R206, R321). -/

namespace Sys2Proof.Machine

/-! ### The tokens and the context that was saved -/

/-- Passing tokens on from context e changes that context; the other contexts and the tiles stay. -/
structure PassesOn (e : Nat) (s t : State) : Prop where
  cur : t.cur = s.cur
  others : ∀ c, c ≠ e → ctxOf t c = ctxOf s c
  tiles : ∀ k, (coreAt t k).tiles = (coreAt s k).tiles

namespace PassesOn

variable {e : Nat}

theorem refl (s : State) : PassesOn e s s := ⟨rfl, fun _ _ => rfl, fun _ => rfl⟩
theorem trans {s t u : State} (h : PassesOn e s t) (g : PassesOn e t u) : PassesOn e s u :=
  ⟨by rw [g.cur, h.cur], fun c hc => by rw [g.others c hc, h.others c hc], fun k => by rw [g.tiles, h.tiles]⟩

theorem modCtx (s : State) (f : Ctx → Ctx) : PassesOn e s (modCtx s e f) := ⟨rfl, fun _ other => ctxOf_modCtx_ne _ _ other, fun _ => rfl⟩

end PassesOn

/-- The same, of a step that leaves every context. -/
structure Beside (s t : State) : Prop where
  cur : t.cur = s.cur
  ctxs : t.ctxs = s.ctxs
  tiles : ∀ k, (coreAt t k).tiles = (coreAt s k).tiles

namespace Beside

theorem refl (s : State) : Beside s s := ⟨rfl, rfl, fun _ => rfl⟩
theorem trans {s t u : State} (h : Beside s t) (g : Beside t u) : Beside s u := ⟨by rw [g.cur, h.cur], by rw [g.ctxs, h.ctxs], fun k => by rw [g.tiles, h.tiles]⟩

theorem foldl {β : Type} {f : State → β → State} (hf : ∀ t x, Beside t (f t x)) (l : List β) (s : State) : Beside s (l.foldl f s) :=
  foldl_keeps (P := fun t => Beside s t) (fun t x h => h.trans (hf t x)) l (.refl s)

theorem modCore (s : State) (k : Nat) {f : Core → Core} (hf : ∀ x, (f x).tiles = x.tiles) : Beside s (modCore s k f) where
  cur := rfl
  ctxs := rfl
  tiles j := by
    rw [coreAt_modCore]
    split
    case isTrue same => rw [same]; exact hf _
    case isFalse => rfl

theorem of_lines {s t : State} (h : LinesOnly s t) : Beside s t := ⟨h.cur, h.ctxs, fun k => by rw [h.core k]⟩

variable {s t : State} (h : Beside s t)
include h

theorem ctx (c : Nat) : ctxOf t c = ctxOf s c := by rw [ctxOf, h.ctxs, ctxOf]
theorem passes (e : Nat) : PassesOn e s t := ⟨h.cur, fun c _ => h.ctx c, h.tiles⟩

end Beside

theorem sliceRmw_lines (s : State) (pa w op : Nat) (x y : Word) : LinesOnly s (sliceRmw s pa w op x y).2 := by
  obtain same | ⟨z, written⟩ := sliceRmw_written s pa w op x y
  · rw [same]
    exact .refl s
  · rw [written]
    exact .of_placed (performWrite_placed _ _ _)

/-- A region leaves a core. -/
theorem leaveCore_beside (s : State) (k : Nat) (t : Token) : Beside s (leaveCore s k t) := by
  unfold leaveCore dropRegion flushLines
  dsimp only
  refine Beside.trans ?_ (.modCore _ k (fun _ => rfl))
  refine Beside.trans ?_ (.foldl (fun u l => .of_lines (.setLine _ _ _ _)) _ _)
  refine Beside.trans ?_ (.foldl (fun u a => ?_) _ _)
  · refine Beside.trans ?_ (.modCore _ k (fun _ => rfl))
    exact .foldl (fun u e => .of_lines ((LinesOnly.of_placed (touchL2_placed _ _ _ _ _ _)).trans (sliceRmw_lines _ _ _ _ _ _))) _ _
  · rw [if_neg Bool.false_ne_true]
    exact .of_lines (writeBackLine_lines _ _ _)

theorem moveTokens_beside (s : State) (a b : Word) (l : List (Nat × Bool)) : Beside s (moveTokens s a b l) := by
  rw [moveTokens_only]
  exact ⟨rfl, rfl, fun _ => rfl⟩

theorem keepHolds_beside (s : State) (k : Nat) : Beside s (keepHolds s k) := by
  unfold keepHolds
  split
  · exact .refl s
  · exact .modCore s k (fun _ => rfl)

/-- A new lease: the checked messages that wait for the old one go back. -/
theorem raiseLease_beside (s : State) (c : Nat) : Beside (modCtx s c (fun x => { x with lease := x.lease + 1 })) (raiseLease s c) := by
  refine .foldl (fun t q => ?_) _ _
  exact Beside.trans (t := freeSlot t (coreOf c) q.index) (.modCore t _ (fun _ => rfl)) ⟨rfl, rfl, fun _ => rfl⟩

/-- What stands in the cores of the saved context's regions leaves the core when the new one is another. -/
def originLeft (s : State) (origin w : Nat) : State :=
  if coreOf origin = coreOf w then s
  else (heldBy s (holderAgent (agentOf s origin))).foldl (fun t b => match sget none t.tokens b.1 with | some r => leaveCore t (coreOf origin) r | none => t) s

theorem originLeft_beside (s : State) (origin w : Nat) : Beside s (originLeft s origin w) := by
  unfold originLeft
  split
  · exact .refl s
  · refine .foldl (fun u b => ?_) _ s
    split
    · exact leaveCore_beside _ _ _
    · exact .refl u

/-- The context that was saved is idle, with a new lease. -/
theorem moveOrigin_moves {s : State} {origin w : Nat} (other : origin ≠ w) :
    PassesOn origin s (moveOrigin s origin w) ∧ (ctxOf (moveOrigin s origin w) origin).lease = (ctxOf s origin).lease + 1 ∧
      ((ctxOf s origin).preemptAsked = false → (ctxOf (moveOrigin s origin w) origin).run = .idle) := by
  obtain ⟨t, ht⟩ : ∃ t, t = (heldBy s (holderAgent (agentOf s origin))).foldl (fun t b => uncache t (coreOf origin) b.1)
      (moveTokens (originLeft s origin w) (holderAgent (agentOf s origin)) (holderAgent (agentOf (originLeft s origin w) w)) (heldBy s (holderAgent (agentOf s origin)))) := ⟨_, rfl⟩
  have run : moveOrigin s origin w = idleCtx (raiseLease (modCtx t origin (fun x => { x with gang := none })) origin) origin := by
    rw [moveOrigin, if_neg other, ht] <;> rfl
  have beside : Beside s t := by
    rw [ht]
    refine Beside.trans ?_ (.foldl (fun u b => ?_) _ _)
    · exact (originLeft_beside s origin w).trans (moveTokens_beside _ _ _ _)
    · exact .modCore u _ (fun _ => rfl)
  obtain ⟨x, hx⟩ : ∃ x, x = modCtx t origin (fun x => { x with gang := none }) := ⟨_, rfl⟩
  have raised := raiseLease_beside x origin
  have kept := keepHolds_beside (raiseLease x origin) (coreOf origin)
  have now : ctxOf (keepHolds (raiseLease x origin) (coreOf origin)) origin = { ctxOf s origin with gang := none, lease := (ctxOf s origin).lease + 1 } := by
    rw [kept.ctx, raised.ctx, ctxOf_modCtx_self, hx, ctxOf_modCtx_self, beside.ctx]
  rw [run, ← hx, idleCtx]
  refine ⟨?_, ?_, fun unasked => ?_⟩
  · exact ((((beside.passes origin).trans (hx ▸ .modCtx t _)).trans (.modCtx x _)).trans ((raised.trans kept).passes origin)).trans (.modCtx _ _)
  · rw [ctxOf_modCtx_self, now]
  · rw [ctxOf_modCtx_self, now]
    dsimp only
    rw [unasked, if_neg Bool.false_ne_true]

/-! ### GO -/

/-- Starting held contexts changes where they run and their barriers. -/
structure Starting (s t : State) : Prop where
  cur : t.cur = s.cur
  tiles : ∀ k, (coreAt t k).tiles = (coreAt s k).tiles
  ctx : ∀ c, ∃ r a, ctxOf t c = { ctxOf s c with run := r, barrierArrived := a }

namespace Starting

theorem refl (s : State) : Starting s s := ⟨rfl, fun _ => rfl, fun _ => ⟨_, _, rfl⟩⟩
theorem trans {s t u : State} (h : Starting s t) (g : Starting t u) : Starting s u where
  cur := by rw [g.cur, h.cur]
  tiles k := by rw [g.tiles, h.tiles]
  ctx c := by
    obtain ⟨r, a, first⟩ := h.ctx c
    obtain ⟨r', a', second⟩ := g.ctx c
    exact ⟨r', a', by rw [second, first]⟩

theorem of_beside {s t : State} (h : Beside s t) : Starting s t := ⟨h.cur, h.tiles, fun c => ⟨_, _, h.ctx c⟩⟩

end Starting

/-- A member that joins its barrier again keeps the contexts, but for what it remembers of the barrier. -/
theorem rejoinBarrier_kept (s : State) (w g : Nat) : (rejoinBarrier s w g).cur = s.cur ∧ (rejoinBarrier s w g).cores = s.cores ∧
    ((rejoinBarrier s w g).ctxs = s.ctxs ∨ rejoinBarrier s w g = modCtx s w (fun x => { x with barrierArrived := false })) := by
  have only (t : State) (f : Cluster → Cluster) : (modCluster t (vertOf w) f).cur = t.cur ∧ (modCluster t (vertOf w) f).cores = t.cores ∧ (modCluster t (vertOf w) f).ctxs = t.ctxs := ⟨rfl, rfl, rfl⟩
  unfold rejoinBarrier
  dsimp only
  split
  · exact ⟨rfl, rfl, .inr rfl⟩
  · rename_i scope _
    generalize hx : modCluster s (vertOf w) (fun x => { x with wired := x.wired ++ [(w, scope)] }) = x
    have xonly : x.cur = s.cur ∧ x.cores = s.cores ∧ x.ctxs = s.ctxs := hx ▸ only _ _
    obtain ⟨cur, cores, ctxs⟩ := xonly
    split
    · split
      · exact ⟨cur, cores, .inl ctxs⟩
      · exact ⟨cur, cores, .inl ctxs⟩
    · exact ⟨cur, cores, .inl ctxs⟩

theorem startHeld_starting (s : State) (w : Nat) : Starting s (startHeld s w) ∧ (ctxOf (startHeld s w) w).run = .ready ∧ ∀ e, e ≠ w → (ctxOf (startHeld s w) e).run = (ctxOf s e).run := by
  obtain ⟨t, ht⟩ : ∃ t, t = (match (ctxOf s w).gang with
    | some g => if (ctxOf s w).barrierArrived then rejoinBarrier s w g else s
    | none => s) := ⟨_, rfl⟩
  have run : startHeld s w = modCtx t w (fun x => { x with run := .ready }) := by
    rw [startHeld, ht] <;> rfl
  have kept : t.cur = s.cur ∧ t.cores = s.cores ∧ (t.ctxs = s.ctxs ∨ t = modCtx s w (fun x => { x with barrierArrived := false })) := by
    rw [ht]
    split
    · split
      · exact rejoinBarrier_kept _ _ _
      · exact ⟨rfl, rfl, .inl rfl⟩
    · exact ⟨rfl, rfl, .inl rfl⟩
  obtain ⟨cur, cores, ctxs⟩ := kept
  have own : ∃ a, ctxOf t w = { ctxOf s w with barrierArrived := a } := by
    obtain same | set := ctxs
    · exact ⟨_, by rw [ctxOf, same, ← ctxOf]⟩
    · exact ⟨false, by rw [set, ctxOf_modCtx_self]⟩
  have others (e : Nat) (he : e ≠ w) : ctxOf t e = ctxOf s e := by
    obtain same | set := ctxs
    · rw [ctxOf, same, ctxOf]
    · rw [set, ctxOf_modCtx_ne _ _ he]
  rw [run]
  refine ⟨⟨by rw [modCtx_cur, cur], fun k => by rw [coreAt_modCtx, coreAt, cores, coreAt], fun c => ?_⟩, by rw [ctxOf_modCtx_self], fun e he => by rw [ctxOf_modCtx_ne _ _ he, others e he]⟩
  rcases eq_or_ne c w with rfl | other
  · obtain ⟨a, own⟩ := own
    exact ⟨.ready, a, by rw [ctxOf_modCtx_self, own]⟩
  · exact ⟨_, _, by rw [ctxOf_modCtx_ne _ _ other, others c other]⟩

theorem startAll_starting (l : List Nat) : ∀ s : State, Starting s (l.foldl startHeld s) ∧ (∀ e ∈ l, (ctxOf (l.foldl startHeld s) e).run = .ready) ∧
    ∀ e, e ∉ l → (ctxOf (l.foldl startHeld s) e).run = (ctxOf s e).run := by
  induction l using List.reverseRecOn with
  | nil => exact fun s => ⟨.refl s, fun e he => absurd he List.not_mem_nil, fun e _ => rfl⟩
  | append_singleton l w ih =>
    intro s
    obtain ⟨start, ready, rest⟩ := ih s
    obtain ⟨last, now, others⟩ := startHeld_starting (l.foldl startHeld s) w
    rw [List.foldl_append, List.foldl_cons, List.foldl_nil]
    refine ⟨start.trans last, fun e he => ?_, fun e he => ?_⟩
    · rcases eq_or_ne e w with rfl | other
      · exact now
      · rw [others e other]
        exact ready e ((List.mem_append.mp he).resolve_right (fun same => other (List.mem_singleton.mp same)))
    · rw [List.mem_append, not_or, List.mem_singleton] at he
      rw [others e he.2, rest e he.1]

/-- What starts stood held. -/
theorem held_of_started {s : State} {l : List Nat} {e : Nat} (he : e ∈ ((l.filter (mayStart s)).flatMap (startsWith s)).dedup) : (ctxOf s e).run = .held := by
  obtain ⟨w, hw, he⟩ := List.mem_flatMap.mp (List.mem_dedup.mp he)
  have may := (List.mem_filter.mp hw).2
  rw [mayStart, Bool.and_eq_true, decide_eq_true_eq] at may
  obtain ⟨held, together⟩ := may
  rw [startsWith] at he
  cases hg : (ctxOf s w).gang.bind (fun g => sget none s.gangs g) with
  | none =>
    rw [hg, List.mem_singleton] at he
    rw [he, held]
  | some y =>
    rw [hg] at he together
    obtain ⟨m, hm, rfl⟩ := List.mem_map.mp he
    have all := List.all_eq_true.mp (Bool.and_eq_true_iff.mp together).1 m hm
    exact of_decide_eq_true all

theorem startRestored_starts (s : State) (k c : Nat) : Starting s (startRestored s k c) ∧
    (∀ e, (ctxOf s e).run ≠ .held → (ctxOf (startRestored s k c) e).run = (ctxOf s e).run) ∧
    ∀ w, (c, w) ∈ (coreAt s k).restored → (ctxOf s w).run = .held → (ctxOf s w).gang = none → (ctxOf (startRestored s k c) w).run = .ready := by
  obtain ⟨l, hl⟩ : ∃ l, l = (((((coreAt s k).restored.filter (fun e => e.1 = c)).map (·.2)).filter (mayStart s)).flatMap (startsWith s)).dedup := ⟨_, rfl⟩
  obtain ⟨start, ready, rest⟩ := startAll_starting l s
  have beside : Beside (l.foldl startHeld s) (startRestored s k c) := by
    rw [startRestored, ← hl]
    refine .foldl (fun t d => .foldl (fun u q => ?_) _ t) _ _
    exact .modCore u q (fun _ => rfl)
  refine ⟨start.trans (.of_beside beside), fun e free => ?_, fun w listed held alone => ?_⟩
  · rw [beside.ctx, rest e (fun he => free (held_of_started (hl ▸ he)))]
  · rw [beside.ctx]
    refine ready w ?_
    have single : startsWith s w = [w] := by rw [startsWith, alone]; rfl
    have may : mayStart s w = true := by rw [mayStart, held, alone]; rfl
    rw [hl, List.mem_dedup, List.mem_flatMap]
    refine ⟨w, List.mem_filter.mpr ⟨List.mem_map.mpr ⟨(c, w), List.mem_filter.mpr ⟨listed, decide_eq_true rfl⟩, rfl⟩, may⟩, ?_⟩
    rw [single]
    exact List.mem_singleton_self w

/-! ### CTXREST -/

/-- The rest of CTXREST once its target is restored. -/
def restored (r : State) (origin w c k : Nat) : State := markCip (modCore (moveOrigin r origin w) k (fun x => { x with restored := x.restored ++ [(c, w)] })) c

/-- With GO, what may start is started. -/
def restoredGo (go : Bool) (m : State) (k c : Nat) : State := if go then startRestored m k c else m

section

variable {o : OpS} {s u : State} {places : List Nat} {far w origin n : Nat} (hi : Issues (.ctxrest o) s) (quiet : Quiet s)
  (opened : openBlock s (rg s s.cur o.a.toNat) .rd = .ok (.here places, far, u)) (good : badBlock u (.here places) = false)
  (named : contextNamed s (rg s s.cur o.d.toNat) = some w) (named' : contextNamed s (rg s s.cur (o.d.toNat + 1)) = some origin) (other : w ≠ s.cur) (other' : origin ≠ s.cur)
  (idle : (ctxOf u w).run = .idle) (saved : (ctxOf u origin).run = .savedOut) (unasked : (ctxOf u origin).preemptAsked = false) (takes : takesWork u (coreOf w) = true)
  (unit : lacksUnit (coreOf w) (bits (blockGet u (.here places) 0 8) 5 0) = false) (alone : nbit (blockGet u (.here places) 8 8) 63 = false)
  (own : o.imm = 1 → nbit (blockGet u (.here places) 8 8) 62 = false)
  (allot : restoreAllot (coreAt u (coreOf w)).capacity (bits (blockGet u (.here places) 0 8) 23 16) (bits (blockGet u (.here places) 0 8) 31 24) = some n)
  (free : FreeToAct s) (finished : unfinished s origin = false) (apart : ∀ f ∈ s.flights, f.path = 7 → coreOf f.ctx ≠ coreOf origin)
include hi quiet opened good named named' other other' idle saved unasked takes unit alone own allot free finished apart

/-- A block that opens, and a target and an origin that fit: the target is restored in the step. -/
theorem ctxrest_restores : ∃ t, exec (.ctxrest o) s = .next t ∧ Moves s t [] ∧ (o.imm = 0 → (ctxOf t w).run = .held) ∧ (o.imm = 1 → (ctxOf t w).run = .ready) ∧
    Restored u t (.here places) w origin n ∧ (ctxOf t origin).run = .idle ∧ (ctxOf t origin).lease = (ctxOf u origin).lease + 1 := by
  have ready := hi.1
  have unstarted := beginIssue_of_quiet quiet
  have opens := openBlock_opened opened
  have mine := opens.ctx s.cur
  have apart' : w ≠ origin := by
    rintro rfl
    rw [idle] at saved
    cases saved
  have ucur : u.cur = s.cur := opens.cur
  have gate : outputGate u = .ok () := by
    refine outputGate_ok (.refl u) ⟨?_, ?_⟩
    · rw [opens.unsettled, ucur]
      exact free.1
    · rw [ucur, mine]
      exact free.2
  -- the states in their order
  obtain ⟨r, hr⟩ : ∃ r, r = restoreCtx u (.here places) origin w n := ⟨_, rfl⟩
  obtain ⟨restoring, restored_, held⟩ := restoreCtx_restored (origin := origin) (n := n) (b := .here places) (s := u) (by rw [ucur]; exact other) alone
  rw [← hr] at restoring restored_ held
  obtain ⟨moved, lease, becomes⟩ := moveOrigin_moves (s := r) (origin := origin) (w := w) apart'.symm
  have rorigin : ctxOf r origin = ctxOf u origin := restoring.others _ apart'.symm
  obtain ⟨mo, hmo⟩ : ∃ mo, mo = moveOrigin r origin w := ⟨_, rfl⟩
  rw [← hmo] at moved lease becomes
  obtain ⟨m, hm⟩ : ∃ m, m = restored r origin w s.cur (coreOf s.cur) := ⟨_, rfl⟩
  have mstep : m = markCip (modCore mo (coreOf s.cur) (fun x => { x with restored := x.restored ++ [(s.cur, w)] })) s.cur := by rw [hm, restored, hmo]
  have mothers (e : Nat) (he : e ≠ s.cur) : ctxOf m e = ctxOf mo e := by rw [mstep, markCip, ctxOf_modCtx_ne _ _ he, ctxOf_modCore]
  have mtiles (k : Nat) : (coreAt m k).tiles = (coreAt mo k).tiles := by
    rw [mstep, markCip, coreAt_modCtx]
    exact (Beside.modCore mo (coreOf s.cur) (f := fun x => { x with restored := x.restored ++ [(s.cur, w)] }) (fun _ => rfl)).tiles k
  have mown : ctxOf m s.cur = { ctxOf u s.cur with cip := (ctxOf m s.cur).cip } := by
    rw [mstep, markCip, ctxOf_modCtx_self, ctxOf_modCore, moved.others _ other'.symm, restoring.others _ other.symm]
  have mcur : m.cur = s.cur := by rw [mstep, markCip, modCtx_cur, modCore_cur, moved.cur, restoring.cur, ucur]
  have mheld : (ctxOf m w).run = .held := by rw [mothers w other, moved.others _ apart', held]
  have midle : (ctxOf m origin).run = .idle := by
    rw [mothers origin other']
    exact becomes (by rw [rorigin, unasked])
  obtain ⟨z, hz⟩ : ∃ z, z = restoredGo (nbit o.imm.toNat 0) m (coreOf s.cur) s.cur := ⟨_, rfl⟩
  have go := startRestored_starts m (coreOf s.cur) s.cur
  have starts : Starting m z ∧ (∀ e, (ctxOf m e).run ≠ .held → (ctxOf z e).run = (ctxOf m e).run) ∧ (o.imm = 1 → (ctxOf z w).run = .ready) ∧ (o.imm = 0 → (ctxOf z w).run = .held) := by
    rw [hz, restoredGo]
    split
    case isTrue bit =>
      refine ⟨go.1, go.2.1, fun one => ?_, fun zero => ?_⟩
      · refine go.2.2 w ?_ mheld ?_
        · rw [mstep, markCip, coreAt_modCtx, coreAt_modCore_self]
          exact List.mem_append_right _ List.mem_cons_self
        · rw [mothers w other, moved.others _ apart', restored_.gang, own one, if_neg Bool.false_ne_true]
      · rw [zero] at bit
        exact absurd bit (by decide)
    case isFalse bit =>
      refine ⟨.refl m, fun _ _ => rfl, fun one => ?_, fun _ => mheld⟩
      rw [one] at bit
      exact absurd (by decide) bit
  obtain ⟨starting, runs, one, zero⟩ := starts
  obtain ⟨time, htime⟩ : ∃ time, time = u.cycle + blockCycles n (bits (blockGet u (.here places) 0 8) 15 8) + 2 * far + 6 := ⟨_, rfl⟩
  obtain ⟨f, hf⟩ : ∃ f, f = notBefore z s.cur time := ⟨_, rfl⟩
  have fcur : f.cur = s.cur := by rw [hf, notBefore, modCtx_cur, starting.cur, mcur]
  have fothers (e : Nat) (he : e ≠ s.cur) : ctxOf f e = ctxOf z e := by rw [hf, notBefore, ctxOf_modCtx_ne _ _ he]
  have ftiles (k : Nat) : (coreAt f k).tiles = (coreAt m k).tiles := by rw [hf, notBefore, coreAt_modCtx, starting.tiles]
  obtain ⟨-, -, -, -, pass, -⟩ := quiet
  obtain ⟨x, a, zown⟩ := starting.ctx s.cur
  have zrun : (ctxOf z s.cur).run = .ready := by
    have mrun : (ctxOf m s.cur).run = .ready := by rw [mown, mine, ready]
    rw [runs s.cur (by rw [mrun]; decide), mrun]
  have fown : ctxOf f s.cur = { ctxOf z s.cur with readyAt := (ctxOf f s.cur).readyAt } := by rw [hf, notBefore, ctxOf_modCtx_self]
  have fpass : (ctxOf f f.cur).lockPass = false := by rw [fcur, fown, zown, mown, mine, pass]
  have after (e : Nat) (he : e ≠ s.cur) : ctxOf (retire (.ctxrest o) f (nextPc f)) e = ctxOf z e := by
    rw [retire_apart fpass (by rw [fcur]; exact he), fothers e he]
  have run : exec (.ctxrest o) s = .next (retire (.ctxrest o) f (nextPc f)) := by
    have fits : (!(decide ((ctxOf u w).run = .idle) || apexReserved u w || (decide (w = origin) && decide ((ctxOf u w).run = .savedOut))) ||
        decide ((ctxOf u origin).run ≠ .savedOut) || !(takesWork u (coreOf w))) = false := by
      rw [idle, saved, takes]
      rfl
    have quietFlights : (decide (w ≠ origin) && (unfinished u origin || u.flights.any (fun f => f.path = 7 && coreOf f.ctx = coreOf origin))) = false := by
      have none_ : u.flights.any (fun f => f.path = 7 && coreOf f.ctx = coreOf origin) = false := by
        rw [opens.flights, List.any_eq_false]
        intro g hg both
        rw [Bool.and_eq_true, decide_eq_true_eq, decide_eq_true_eq] at both
        exact apart g hg both.1 both.2
      rw [opens.unfinished, finished, none_, Bool.or_false, Bool.and_false]
    have same (x : Word) : contextNamed u x = contextNamed s x := by rw [contextNamed, opens.device, contextNamed]
    change execCtxrest o s = _
    unfold execCtxrest
    refine runSeq_ok hi.2 ?_
    dsimp only
    rw [unstarted, opened, ok_bind]
    dsimp only
    rw [good, if_neg Bool.false_ne_true, same, named, named']
    dsimp only
    rw [fits, if_neg Bool.false_ne_true, unit, if_neg Bool.false_ne_true, alone, Bool.false_and, if_neg Bool.false_ne_true, allot]
    dsimp only
    rw [gate, ok_bind, quietFlights, if_neg Bool.false_ne_true, ← hr, ← restored, ← hm, ← restoredGo, ← hz, ← htime, ← hf]
    exact gangFault_ok s f (some origin)
  refine ⟨_, run, moves_own fcur ?_ ?_ ?_, fun no => ?_, fun yes => ?_, ?_, ?_, ?_⟩
  · rw [fown, zrun]
  · rw [fown, zown, mown, mine]
  · rw [fown, zown, mown, mine]
  · rw [after w other, zero no]
  · rw [after w other, one yes]
  · refine restored_.congr ?_ (fun k => ?_)
    · obtain ⟨x, a, zw⟩ := starting.ctx w
      exact ⟨x, a, by rw [after w other, zw, mothers w other, moved.others _ apart']⟩
    · rw [core_retire Core.tiles (fun _ => rfl), ftiles, mtiles, moved.tiles]
  · rw [after origin other', runs origin (by rw [midle]; decide), midle]
  · obtain ⟨x, a, zo⟩ := starting.ctx origin
    rw [after origin other', zo]
    dsimp only
    rw [mothers origin other', lease, rorigin]

end

/-- What is restored from a block that lookups left as it was is restored from the block as it stood. -/
theorem Restored.of_hits {s u t : State} {b : Block} {w origin n : Nat} (hits : HitsOnly s u) (h : Restored u t b w origin n) : Restored s t b w origin n := by
  have device : u.device = s.device := by rw [hits.only]
  obtain ⟨g, p, v, allot, pc, rmode, flags, acct, gang, budget, member, rows⟩ := h
  simp only [hits.blockGet, hits.ctx, codePc, device] at g p v pc rmode flags acct gang budget member rows
  exact ⟨g, p, v, allot, pc, rmode, flags, acct, gang, budget, member, rows⟩

theorem badBlock_of_hits {s u : State} (hits : HitsOnly s u) (b : Block) : badBlock u b = badBlock s b := by
  simp only [badBlock, hits.blockGet]

/-- The same with a block that is ready. -/
theorem ctxrest_ready {o : OpS} {s : State} {w origin n : Nat} {e : TlbEntry} {h : TokenHit} (hi : Issues (.ctxrest o) s) (quiet : Quiet s) (mine : (ctxOf s s.cur).lockstep = false)
    (ready : BlockReady s (rg s s.cur o.a.toNat) .rd .read e h) (good : badBlock s (.here (blockAt (rg s s.cur o.a.toNat) e)) = false)
    (named : contextNamed s (rg s s.cur o.d.toNat) = some w) (named' : contextNamed s (rg s s.cur (o.d.toNat + 1)) = some origin) (other : w ≠ s.cur) (other' : origin ≠ s.cur)
    (idle : (ctxOf s w).run = .idle) (saved : (ctxOf s origin).run = .savedOut) (unasked : (ctxOf s origin).preemptAsked = false) (takes : takesWork s (coreOf w) = true)
    (unit : lacksUnit (coreOf w) (bits (blockGet s (.here (blockAt (rg s s.cur o.a.toNat) e)) 0 8) 5 0) = false)
    (alone : nbit (blockGet s (.here (blockAt (rg s s.cur o.a.toNat) e)) 8 8) 63 = false)
    (own : o.imm = 1 → nbit (blockGet s (.here (blockAt (rg s s.cur o.a.toNat) e)) 8 8) 62 = false)
    (allot : restoreAllot (coreAt s (coreOf w)).capacity (bits (blockGet s (.here (blockAt (rg s s.cur o.a.toNat) e)) 0 8) 23 16)
      (bits (blockGet s (.here (blockAt (rg s s.cur o.a.toNat) e)) 0 8) 31 24) = some n) :
    ∃ t, exec (.ctxrest o) s = .next t ∧ Moves s t [] ∧ (o.imm = 0 → (ctxOf t w).run = .held) ∧ (o.imm = 1 → (ctxOf t w).run = .ready) ∧
      Restored s t (.here (blockAt (rg s s.cur o.a.toNat) e)) w origin n ∧ (ctxOf t origin).run = .idle ∧ (ctxOf t origin).lease = (ctxOf s origin).lease + 1 := by
  obtain ⟨far, u, opened, hits⟩ := ready.opens (fun no => by cases no) (fun _ => rfl)
  have finished : unfinished s origin = false := by
    rw [unfinished, ready.nothingOut]
    rfl
  have work : takesWork u (coreOf w) = true := by
    have clusters (v : Nat) : clusterAt u v = clusterAt s v := by rw [hits.only]; rfl
    rw [Machine.takesWork, hits.core, clusters]
    exact takes
  obtain ⟨t, run, moves, zero, one, restored_, now, lease⟩ := ctxrest_restores hi quiet opened (by rw [badBlock_of_hits hits, good]) named named' other other'
    (by rw [hits.ctx, idle]) (by rw [hits.ctx, saved]) (by rw [hits.ctx, unasked]) work (by rw [hits.blockGet]; exact unit) (by rw [hits.blockGet]; exact alone)
    (fun go => by rw [hits.blockGet]; exact own go) (n := n) (by rw [hits.blockGet, hits.core]; exact allot) ⟨unsettled_none ready.nothingOut _, .inl mine⟩ finished
    (by rw [ready.nothingOut]; exact fun f hf => absurd hf List.not_mem_nil)
  exact ⟨t, run, moves, zero, one, restored_.of_hits hits, now, by rw [lease, hits.ctx]⟩

/-- Settles O37: a block that is ready opens in the step (`BlockReady.opens`); what is written into it reads back by `blockHolds_puts`, what is restored from it by
`restoreCtx_restored`. -/
theorem contextSaveRestore : Obligations.ContextSaveRestore := by
  unfold Obligations.ContextSaveRestore
  refine ⟨fun o s w e h hi quiet own named other fit run alone apart allot ready => ctxsave_ready hi quiet own named other fit run alone apart allot ready,
    fun o s w origin n e h hi quiet mine ready good named named' other other' idle saved unasked takes unit alone own allot =>
      ctxrest_ready hi quiet mine ready good named named' other other' idle saved unasked takes unit alone own allot,
    fun o s u v places far w hi quiet named other fit free still opened alone allot size nodup aligned => ?_,
    fun o s v w hi named fit free moving => ctxsave_waits hi named fit free moving,
    fun o s u places far w origin n hi quiet opened good named named' other other' idle saved unasked takes unit alone own allot free finished apart =>
      ctxrest_restores hi quiet opened good named named' other other' idle saved unasked takes unit alone own allot free finished apart⟩
  rw [beginIssue_of_quiet quiet] at still
  exact ctxsave_saves hi quiet named other fit free still opened alone allot size ⟨nodup, aligned⟩

end Sys2Proof.Machine
end

