-- ==== Sys2Proof/Proofs/MemoryForm.lean ====
section
/-! SUPPORT. The canonical form of memory (log 5) is kept: what it says of the state that a part of an operation leaves, and the operations on contexts, cores
and L2, up to traps and issue. -/

namespace Sys2Proof.Machine

/-! ### What an operation leaves in the form -/

/-- The state that a stopped instruction leaves. -/
def Stop.state : Stop → State
  | .park _ s => s
  | .trap _ s => s

/-- Memory is in its form in the state that a stopped instruction leaves. -/
abbrev Stop.Inv (e : Stop) : Prop := e.state.Inv

/-- Memory is in its form in the state that an engine's line performance leaves when it does not move its line. -/
def Halt.Inv : Halt → Prop
  | .wait _ s => s.Inv
  | .park => True
  | .fault _ s => s.Inv

/-- A part of an operation ends with what `P` says of its result, or stops with what `E` says of its stop. -/
def Leaves {ε α : Type} (E : ε → Prop) (P : α → Prop) : Except ε α → Prop
  | .ok a => P a
  | .error e => E e

/-- A part of an instruction keeps the form: in its result, as `P` says, and in the state that it leaves when it stops. -/
abbrev Ends {α : Type} (P : α → Prop) (r : Res α) : Prop := Leaves Stop.Inv P r

/-- A check leaves a state in the form when it stops the instruction. -/
abbrev Passes (r : Res Unit) : Prop := Ends (fun _ => True) r

/-- A line performance keeps the form. -/
abbrev Moving {α : Type} (P : α → Prop) (r : Move α) : Prop := Leaves Halt.Inv P r

/-- The next state of an outcome, where there is one, has memory in its form. -/
def Goes (o : Host.Outcome State Fault Refusal) : Prop := ∀ t, o = .next t → t.Inv

@[simp] theorem stop_park {w : Stall} {s : State} : (Stop.park w s).state = s := rfl
@[simp] theorem stop_trap {f : FaultInfo} {s : State} : (Stop.trap f s).state = s := rfl
@[simp] theorem goes_next {t : State} : Goes (.next t) ↔ t.Inv := ⟨fun h => h t rfl, fun h _ e => by cases e; exact h⟩

section

variable {ε α β : Type} {E : ε → Prop} {P Q : α → Prop} {R : β → Prop}

@[simp] theorem leaves_ok {a : α} : Leaves E P (.ok a) ↔ P a := .rfl
@[simp] theorem leaves_error {e : ε} : Leaves E P (.error e) ↔ E e := .rfl

theorem Leaves.bind {r : Except ε α} {g : α → Except ε β} (h : Leaves E P r) (k : ∀ a, P a → Leaves E R (g a)) : Leaves E R (r >>= g) := by
  cases r with
  | ok a => exact k a h
  | error e => exact h

theorem Leaves.map {r : Except ε α} {g : α → β} (h : Leaves E P r) (k : ∀ a, P a → R (g a)) : Leaves E R (r.map g) := by
  cases r with
  | ok a => exact k a h
  | error e => exact h

theorem Leaves.ite {c : Prop} [Decidable c] {r q : Except ε α} (hr : Leaves E P r) (hq : Leaves E P q) : Leaves E P (if c then r else q) := by
  split <;> assumption

theorem Leaves.ok {r : Except ε α} (h : Leaves E P r) {a : α} (e : r = .ok a) : P a := by
  rw [e] at h
  exact h

theorem Leaves.error {r : Except ε α} (h : Leaves E P r) {e : ε} (stop : r = .error e) : E e := by
  rw [stop] at h
  exact h

end

/-- An operation goes on behind a check. -/
theorem Leaves.next {β : Type} {R : β → Prop} {r : Res Unit} {g : Unit → Res β} (h : Passes r) (k : Ends R (g ())) : Ends R (r >>= g) :=
  h.bind fun _ _ => k

/-- An operation goes on behind a check that it makes under a condition. -/
theorem Leaves.guard {β : Type} {R : β → Prop} {c : Prop} [Decidable c] {r : Res Unit} {g : Unit → Res β} (h : Passes r) (k : Ends R (g ())) :
    Ends R (if c then r >>= g else g ()) := by
  split
  · exact h.next k
  · exact k

section

variable {α : Type} {P : α → Prop} {s : State}

@[simp] theorem trapWith_inv {code : Nat} : Ends P (trapWith code s) ↔ s.Inv := .rfl
@[simp] theorem trapAt_inv {code : Nat} {addr : Word} : Ends P (trapAt code addr s) ↔ s.Inv := .rfl
@[simp] theorem parkOn_inv {w : Stall} : Ends P (parkOn w s) ↔ s.Inv := .rfl

end

theorem inv_congr {s t : State} (e : t.mem = s.mem) (h : s.Inv) : t.Inv := by
  rw [State.Inv, e]
  exact h

theorem ite_inv {c : Prop} [Decidable c] {s t : State} (hs : s.Inv) (ht : t.Inv) : (if c then s else t).Inv := by split <;> assumption

/-- A fold whose every step keeps the form keeps it. -/
theorem foldl_inv {β : Type} {f : State → β → State} (hf : ∀ t x, t.Inv → (f t x).Inv) {l : List β} {s : State} (h : s.Inv) : (l.foldl f s).Inv :=
  foldl_wf f hf l h

@[simp] theorem setByte_inv {s : State} {pa : Nat} {b : Byte} (h : s.Inv) : (setByte s pa b).Inv := setByte_wf _ _ h
@[simp] theorem writeMem_inv {s : State} {pa : Nat} {l : List Byte} (h : s.Inv) : (writeMem s pa l).Inv := writeMem_wf _ _ h
@[simp] theorem performWrite_inv {s : State} {pa : Nat} {l : List Byte} (h : s.Inv) : (performWrite s pa l).Inv := performWrite_wf _ _ h
@[simp] theorem sliceRmw_inv {s : State} {pa w op : Nat} {x y : Word} (h : s.Inv) : (sliceRmw s pa w op x y).2.Inv := sliceRmw_wf _ _ _ _ _ h

@[simp] theorem setCol_mem (s : State) (v i : Nat) (x : ColGroup) : (setCol s v i x).mem = s.mem := rfl

@[simp] theorem notBefore_mem (s : State) (c n : Nat) : (notBefore s c n).mem = s.mem := rfl

@[simp] theorem freeWord_mem (s : State) : (freeWord s).2.mem = s.mem := rfl

@[simp] theorem raiseFlags_mem (s : State) (c : Nat) (f : BitVec 5) : (raiseFlags s c f).mem = s.mem := by
  unfold raiseFlags
  split <;> simp

@[simp] theorem moveSelector_mem (s : State) (slice line cls : Nat) : (moveSelector s slice line cls).mem = s.mem := rfl

@[simp] theorem allocateL2_mem (s : State) (slice line cls : Nat) : (allocateL2 s slice line cls).mem = s.mem := rfl

@[simp] theorem modL2_mem (s : State) (slice line : Nat) (f : L2Line → L2Line) : (modL2 s slice line f).mem = s.mem := rfl

@[simp] theorem leaveMisses_mem (s : State) (slice line : Nat) (who : Requester × BitVec 8) : (leaveMisses s slice line who).mem = s.mem := by
  unfold leaveMisses
  dsimp only
  repeat' split
  all_goals simp

@[simp] theorem reachL2_mem (s : State) (who : Requester) (slice pa n cls : Nat) (write : Bool) : (reachL2 s who slice pa n cls write).2.mem = s.mem := by
  rw [(reachL2_sectors s who slice pa n cls write).only]

@[simp] theorem placeWrite_inv {s : State} {pa home : Nat} {l : List Byte} (h : s.Inv) : (placeWrite s pa home l).Inv :=
  performWrite_inv (inv_congr (by simp) h)

@[simp] theorem uncache_mem (s : State) (k base : Nat) : (uncache s k base).mem = s.mem := rfl

@[simp] theorem modSlot_mem (s : State) (k i : Nat) (f : Slot → Slot) : (modSlot s k i f).mem = s.mem := rfl

@[simp] theorem freeSlot_mem (s : State) (k i : Nat) : (freeSlot s k i).mem = s.mem := rfl

@[simp] theorem releaseBlocks_mem (s : State) (p : PairRef) : (releaseBlocks s p).mem = s.mem := by rw [releaseBlocks_only]

@[simp] theorem keepHolds_mem (s : State) (k : Nat) : (keepHolds s k).mem = s.mem := by
  unfold keepHolds
  split <;> simp

@[simp] theorem stealEnds_mem (s : State) (k : Nat) : (stealEnds s k).mem = s.mem := by
  unfold stealEnds
  split <;> simp

@[simp] theorem startCtx_mem (s : State) (c : Nat) (f : Ctx → Ctx) : (startCtx s c f).mem = s.mem := by simp [startCtx]

@[simp] theorem idleCtx_mem (s : State) (c : Nat) : (idleCtx s c).mem = s.mem := by simp [idleCtx]

@[simp] theorem returnTokens_mem (s : State) (c : Nat) : (returnTokens s c).mem = s.mem := by rw [returnTokens_only]

@[simp] theorem rollback_mem (s : State) (c : Nat) : (rollback s c).mem = s.mem := by simp [rollback]

@[simp] theorem releaseHandler_mem (s : State) (c : Nat) : (releaseHandler s c).mem = s.mem := by
  unfold releaseHandler
  dsimp only
  repeat' split
  all_goals simp

@[simp] theorem messageToHead_mem (s : State) (c : Nat) : (messageToHead s c).mem = s.mem := by
  unfold messageToHead
  split <;> simp

@[simp] theorem freeSegment_mem (s : State) (v i row : Nat) : (freeSegment s v i row).mem = s.mem := rfl

@[simp] theorem faultRecord_inv {s : State} {pa home : Nat} {graph : Option Nat} {code : Nat} (h : s.Inv) : (faultRecord s pa home graph code).Inv := by
  unfold faultRecord
  dsimp only
  split
  · exact placeWrite_inv h
  · exact placeWrite_inv (placeWrite_inv h)

@[simp] theorem noticeFlight_mem (s : State) (k code : Nat) (m : Msg) : (noticeFlight s k code m).mem = s.mem := rfl

@[simp] theorem raiseLease_mem (s : State) (c : Nat) : (raiseLease s c).mem = s.mem := by
  unfold raiseLease
  exact foldl_mem _ (by intro t x; simp) _ _

@[simp] theorem poisonRequest_inv {s : State} {f : FaultInfo} (h : s.Inv) : (poisonRequest s f).Inv := by
  unfold poisonRequest
  split
  · exact h
  · split
    · exact h
    · split
      · exact h
      · split
        · exact h
        · exact ite_inv (faultRecord_inv h) h

@[simp] theorem poisonAt_inv {s : State} {va : Nat} (h : s.Inv) : (poisonAt s va).Inv := poisonRequest_inv h

/-- A trap that rolls a handler back leaves memory alone (R31). -/
theorem rolledBack_mem (s : State) (c : Nat) : (if (ctxOf s c).hmode then (if (ctxOf s c).cip then rollback s c else messageToHead (rollback s c) c) else s).mem = s.mem := by
  split
  · split <;> simp
  · rfl

@[simp] theorem takeTrap_inv {s : State} {c : Nat} {f : FaultInfo} (h : s.Inv) : (takeTrap s c f).Inv := by
  unfold takeTrap
  extract_lets a b x r z y w v i
  have hb : b.Inv := poisonRequest_inv (inv_congr (by simp [a]) h)
  have hw : w.Inv := inv_congr (by simp only [w, y, z, modCtx_mem]; exact rolledBack_mem b c) hb
  split
  · exact hw
  · extract_lets seg graph u k
    have hu : u.Inv := by
      unfold u
      split
      · exact hw
      · split
        · exact ite_inv (faultRecord_inv hw) hw
        · exact hw
    exact inv_congr (by simp [k]) hu

@[simp] theorem countEvent_mem (s : State) (c : Nat) : (countEvent s c).mem = s.mem := rfl

@[simp] theorem loseGang_inv {s : State} {g : Nat} (h : s.Inv) : (loseGang s g).Inv := by
  unfold loseGang
  split
  · exact h
  · refine foldl_inv (fun t m ht => ?_) h
    dsimp only
    obtain ⟨u, hu⟩ : ∃ u : State, u = if (ctxOf t m.2).gang = some g then
        modCluster t (vertOf m.2) (fun x => { x with arrivals := x.arrivals.filter (fun e => e.1 ≠ m.2), wired := x.wired.filter (fun e => e.1 ≠ m.2) }) else t := ⟨_, rfl⟩
    have hu' : u.Inv := by rw [hu]; split <;> exact ht
    rw [← hu]
    split
    · exact hu'
    · split
      · exact inv_congr (modCtx_mem _ _ _) (takeTrap_inv (inv_congr (by simp) hu'))
      · exact hu'

@[simp] theorem resumeTrap_mem (s : State) (c : Nat) : (resumeTrap s c).mem = s.mem := rfl

@[simp] theorem releaseTrap_mem (s : State) (c : Nat) : (releaseTrap s c).mem = s.mem := by simp [releaseTrap]

@[simp] theorem settleTables_mem (s : State) (k : Nat) : (settleTables s k).mem = s.mem := by
  unfold settleTables
  split <;> simp

@[simp] theorem takePort_mem (s : State) (c r due : Nat) : (takePort s c r due).mem = s.mem := rfl

@[simp] theorem resultAt_mem (s : State) (c r due : Nat) : (resultAt s c r due).mem = s.mem := rfl

@[simp] theorem lateResult_mem (s : State) (c id r due : Nat) : (lateResult s c id r due).mem = s.mem := by
  unfold lateResult
  extract_lets k first d moved u w
  have hw : w.mem = s.mem := (modCtx_mem _ _ _).trans ((takePort_mem ..).trans (modCore_mem _ _ _))
  exact (foldl_mem _ (fun _ _ => (modCtx_mem _ _ _).trans (modCore_mem _ _ _)) _ _).trans hw

theorem settle_inv {s : State} (h : s.Inv) : Passes (settle s) := by
  unfold settle
  split
  · exact h
  · trivial

theorem lockGate_inv {s : State} (h : s.Inv) : Passes (lockGate s) := by
  unfold lockGate
  dsimp only
  split
  · exact h
  · trivial

theorem outputGate_inv {s : State} (h : s.Inv) : Passes (outputGate s) := by
  unfold outputGate
  split
  · exact h
  · exact lockGate_inv h

@[simp] theorem faultNow_inv {f : FaultInfo} {s : State} (h : s.Inv) : (faultNow f s).Inv := by
  unfold faultNow
  split
  · exact h
  · exact takeTrap_inv h

@[simp] theorem faultIssued_inv {i : Instr} {f : FaultInfo} {s : State} (h : s.Inv) : (faultIssued i f s).Inv := by
  unfold faultIssued
  refine faultNow_inv ?_
  split
  · exact h
  · exact inv_congr (by simp) h

theorem run_inv {i : Instr} {s : State} {body : State → Res (State × Word)} (h : s.Inv) (hb : ∀ t, t.Inv → Ends (fun x => x.1.Inv) (body t)) : Goes (run i s body) := by
  unfold run
  split
  · rw [goes_next]
    split
    · exact faultIssued_inv h
    · exact faultNow_inv h
  · have begun : (beginIssue s).Inv := inv_congr (by simp) h
    split <;> rw [goes_next]
    case h_1 e => exact inv_congr (by simp) ((hb _ begun).ok e)
    case h_2 e => exact inv_congr (by simp) ((hb _ begun).error e)
    case h_3 e => exact faultIssued_inv ((hb _ begun).error e)

theorem runSeq_inv {i : Instr} {s : State} {body : State → Res State} (h : s.Inv) (hb : ∀ t, t.Inv → Ends State.Inv (body t)) : Goes (runSeq i s body) := by
  refine run_inv h fun t ht => ?_
  split
  case h_1 e => exact (hb t ht).ok e
  case h_2 e => exact (hb t ht).error e

theorem runPure_inv {i : Instr} {s : State} {body : State → State} (h : s.Inv) (hb : ∀ t, t.Inv → (body t).Inv) : Goes (runPure i s body) :=
  run_inv h hb

end Sys2Proof.Machine
end

