-- ==== Sys2Proof/Proofs/MemoryFormAccesses.lean ====
section
/-! SUPPORT. The canonical form of memory is kept by translation, the token check, the caches, the write log, loads and stores, accesses at a slice and their
faults, ports and lanes. -/

namespace Sys2Proof.Machine

theorem transfer_inv {s k : State} {t : Word} (h : s.Inv) (hk : k.Inv) : Ends (fun x => x.1.Inv) (transfer s t k) := by
  unfold transfer
  split
  · exact h
  · split
    · exact h
    · exact hk

@[simp] theorem tlbFill_mem (s : State) (k : Nat) (e : TlbEntry) : (tlbFill s k e).mem = s.mem := rfl

/-- A translation that a TLB gives changes the order of use and no memory. -/
theorem tlbLookup_mem {s u : State} {k va n : Nat} {e : TlbEntry} (found : tlbLookup s k va = some (e, n, u)) : u.mem = s.mem := by
  rw [(tlbLookup_engine found).only]

@[simp] theorem addLate_mem (s : State) (c n : Nat) : (addLate s c n).mem = s.mem := by
  unfold addLate
  split <;> simp

@[simp] theorem askWalk_mem (s : State) (c va : Nat) : (askWalk s c va).mem = s.mem := rfl

theorem translate_inv {s : State} {ea : Word} {p : Perm} (h : s.Inv) : Ends (fun x => x.2.Inv) (translate s ea p) := by
  unfold translate
  dsimp only
  split
  · split <;> exact h
  · split
    · split
      · split <;> exact h
      · split <;> exact h
    · split
      · exact h
      · split
        case h_1 => exact inv_congr (by simp) h
        case h_2 found =>
          have hu := inv_congr (tlbLookup_mem found) h
          split
          · exact inv_congr (by simp) hu
          · exact hu

theorem engineTranslate_inv {s : State} {v va : Nat} {p : Perm} (h : s.Inv) : (engineTranslate s v va p).2.Inv := by
  unfold engineTranslate
  split
  · exact h
  · split
    · exact h
    · split
      case h_1 => exact inv_congr (by simp) h
      case h_2 found =>
        have hu := inv_congr (tlbLookup_mem found) h
        split <;> exact hu

theorem askTokenWalk_inv {α : Type} {P : α → Prop} {s : State} {va path : Nat} (h : s.Inv) : Ends P (askTokenWalk s va path) := by
  unfold askTokenWalk
  dsimp only
  split
  · exact inv_congr (by simp) h
  · refine parkOn_inv.mpr (foldl_inv (fun t b ht => ?_) h)
    split
    case h_1 found => exact inv_congr (tlbLookup_mem found) ht
    case h_2 => exact ht

theorem tokenCheck_inv {s : State} {ea : Word} {u : TokenUse} {path : Nat} (h : s.Inv) : Ends (fun x => x.2.Inv) (tokenCheck s ea u path) := by
  unfold tokenCheck
  dsimp only
  split
  · exact h
  · split
    · split
      · exact h
      · split
        · split <;> exact h
        · exact askTokenWalk_inv (inv_congr (by simp) h)
    · split
      · split
        · exact h
        · split
          · exact h
          · exact askTokenWalk_inv h
      · exact askTokenWalk_inv h

@[simp] theorem tokenWalkNow_mem (s : State) (c va path : Nat) : (tokenWalkNow s c va path).mem = s.mem := by
  unfold tokenWalkNow
  dsimp only
  repeat' split
  all_goals simp

@[simp] theorem noticeStore_mem (s : State) (va : Nat) : (noticeStore s va).mem = s.mem := by rw [noticeStore_only]

@[simp] theorem logBytes_mem (s : State) (p : LogPlace) (home a n x : Nat) : (logBytes s p home a n x).mem = s.mem := rfl

@[simp] theorem setScratch_mem (s : State) (k o : Nat) (b : Byte) : (setScratch s k o b).mem = s.mem := rfl

@[simp] theorem keepScratch_mem (s : State) (c k o : Nat) (b : Byte) : (keepScratch s c k o b).mem = s.mem := by
  unfold keepScratch
  split <;> simp

@[simp] theorem putBits_mem (s : State) (p n v : Nat) : (putBits s p n v).mem = s.mem :=
  foldl_mem _ (by intro t i; dsimp only; split <;> simp) _ _

theorem facetCheck_inv {s : State} {ea : Word} {f o n : Nat} (h : s.Inv) : Passes (facetCheck s ea f o n) := by
  unfold facetCheck
  split
  · exact h
  · split
    · exact h
    · trivial

theorem facetRead_inv {s : State} {ea : Word} {f o n : Nat} (h : s.Inv) : Ends (fun _ => True) (facetRead s ea f o n) := by
  unfold facetRead
  split
  case h_1 e => exact (facetCheck_inv h).error e
  case h_2 => trivial

theorem facetWrite_inv {s : State} {ea : Word} {f o n x : Nat} (h : s.Inv) : Ends State.Inv (facetWrite s ea f o n x) := by
  unfold facetWrite
  split
  case h_1 e => exact (facetCheck_inv h).error e
  case h_2 =>
    dsimp only
    split
    · exact h
    · exact inv_congr (raiseFlags_mem _ _ _)
        (List.foldlRecOn (motive := fun a : State × Flags => a.1.Inv) _ _ h (fun a ha i _ => inv_congr (by simp) ha))

@[simp] theorem setLine_mem (s : State) (k l : Nat) (x : Option Line) : (setLine s k l x).mem = s.mem := rfl

theorem writeBackLine_inv {s : State} {k l : Nat} (h : s.Inv) : (writeBackLine s k l).Inv := by
  unfold writeBackLine
  split
  · exact h
  · split
    · exact h
    · split
      · exact inv_congr (by simp) h
      · refine inv_congr (setLine_mem _ _ _ _) ?_
        split
        all_goals exact performWrite_inv (inv_congr (by simp) h)

theorem installLine_inv {s : State} {k l : Nat} {x : Line} (h : s.Inv) : (installLine s k l x).Inv := by
  unfold installLine
  dsimp only
  refine inv_congr (setLine_mem _ _ _ _) ?_
  split
  · exact h
  · split
    · exact inv_congr (setLine_mem _ _ _ _) (writeBackLine_inv h)
    · exact h

theorem fillLine_inv {s : State} {k l home : Nat} {peeked : Bool} (h : s.Inv) : (fillLine s k l home peeked).Inv := installLine_inv h

theorem ousterLine_inv {s : State} {k l : Nat} (h : s.Inv) : (ousterLine s k l).Inv := inv_congr (setLine_mem _ _ _ _) (writeBackLine_inv h)

@[simp] theorem useLines_mem (s : State) (k : Nat) (l : List Nat) : (useLines s k l).mem = s.mem := by
  unfold useLines
  exact foldl_mem _ (by intro t x; split <;> simp) _ _

@[simp] theorem askFill_mem (s : State) (k c l home : Nat) (peeked l2 : Bool) (extra : Nat) : (askFill s k c l home peeked l2 extra).mem = s.mem := rfl

theorem fillNow_inv {s : State} {k l home : Nat} {peeked : Bool} (h : s.Inv) : (fillNow s k l home peeked).Inv := fillLine_inv (inv_congr (by simp) h)

theorem needHomes_inv {s : State} {l : List (Nat × Nat)} (h : s.Inv) : Ends State.Inv (needHomes s l) := by
  unfold needHomes
  dsimp only
  split
  · exact h
  · split
    · exact foldl_inv (fun t b ht => ite_inv (fillNow_inv ht) ht) h
    · exact inv_congr (by simp) h

theorem needLines_inv {s : State} {l : List Nat} {home : Nat} (h : s.Inv) : Ends State.Inv (needLines s l home) := needHomes_inv h

theorem passFence_inv {s : State} {path : Nat} (h : s.Inv) : Passes (passFence s path) := by
  unfold passFence
  split
  · exact h
  · trivial

theorem sendBuffer_inv {s : State} {e : Entry} {leave : State → Res State} (h : s.Inv) (hl : ∀ t, t.Inv → Ends State.Inv (leave t)) :
    Ends State.Inv (sendBuffer s e leave) := by
  unfold sendBuffer
  dsimp only
  split
  · split <;> exact h
  · exact hl s h

theorem remoteOk_inv {s : State} {ref : Word} (h : s.Inv) : Passes (remoteOk s ref) := by
  unfold remoteOk
  dsimp only
  split
  · exact h
  · split
    · exact h
    · split
      · exact h
      · trivial

theorem remoteRead_inv {s : State} {ref : Word} {n : Nat} {peek : Bool} (h : s.Inv) : Ends (fun x => x.2.Inv) (remoteRead s ref n peek) := by
  unfold remoteRead
  split
  · exact h
  · split
    case h_1 e => exact (remoteOk_inv h).error e
    case h_2 => exact inv_congr (by simp) h

theorem remoteCheck_inv {s : State} {ref : Word} {ask : RemoteAsk} (h : s.Inv) : Passes (remoteCheck s ref ask) := by
  unfold remoteCheck
  split
  · trivial
  · split
    case h_1 e => exact (remoteOk_inv h).error e
    case h_2 => exact inv_congr (by simp) h

@[simp] theorem sendSure_mem (s : State) (c path : Nat) (ordered posted : Bool) (slice : Nat) (op : SliceOp) : (sendSure s c path ordered posted slice op).mem = s.mem := by
  unfold sendSure
  split <;> simp

@[simp] theorem remoteStore_mem (s : State) (c : Nat) (posted : Bool) (ref : Word) (l : List (Nat × Byte)) : (remoteStore s c posted ref l).mem = s.mem := by simp [remoteStore]

@[simp] theorem forgetRemote_mem (s : State) (c : Nat) (ref : Word) (all : Bool) : (forgetRemote s c ref all).mem = s.mem := rfl

theorem readPlace_inv {s : State} {ea : Word} {n : Nat} {u : TokenUse} (h : s.Inv) : Ends (fun x => x.2.Inv) (readPlace s ea n u) := by
  unfold readPlace
  split
  · exact h
  · refine (translate_inv h).bind fun ⟨tgt, t⟩ ht => ?_
    dsimp only
    split
    · refine Leaves.bind (P := State.Inv) ?_ fun r hr => ?_
      · split
        · exact (tokenCheck_inv ht).bind fun _ hr => hr
        · exact ht
      · split <;> exact hr
    · exact ht

theorem readAt_inv {s : State} {ea : Word} {n : Nat} {tgt : Target} {u : TokenUse} (h : s.Inv) : Ends (fun x => x.2.Inv) (readAt s ea n tgt u) := by
  unfold readAt
  dsimp only
  split
  · exact (facetRead_inv h).bind fun _ _ => h
  · exact h
  · exact remoteRead_inv h
  · split
    · exact h
    · refine (needLines_inv h).bind fun t ht => ?_
      split
      · exact ht
      · exact inv_congr (by simp) ht

theorem memRead_inv {s : State} {ea : Word} {n : Nat} {u : TokenUse} (h : s.Inv) : Ends (fun x => x.2.Inv) (memRead s ea n u) :=
  (passFence_inv h).next ((readPlace_inv h).bind fun _ ht => readAt_inv ht)

theorem loadTo_inv {s : State} {ea : Word} {n : Nat} {u : TokenUse} {sx vec : Bool} {d : Nat} {give : Nat → State → State} (h : s.Inv)
    (hg : ∀ x t, t.Inv → (give x t).Inv) : Ends State.Inv (loadTo s ea n u sx vec d give) := by
  unfold loadTo
  refine (readPlace_inv h).bind fun ⟨tgt, t⟩ ht => ?_
  dsimp only
  split
  · split
    · exact inv_congr (by simp) ht
    · exact (readAt_inv ht).bind fun _ hr => hg _ _ hr
  · exact (passFence_inv ht).next ((readAt_inv ht).bind fun _ hr => hg _ _ hr)

theorem writeLines_inv {k : Nat} {l : List Byte} : ∀ {s : State} {pa : Nat}, s.Inv → (writeLines s k pa l).Inv := by
  induction l with
  | nil => exact fun h => h
  | cons b l ih =>
    intro s pa h
    rw [writeLines]
    refine ih ?_
    split
    · exact inv_congr (setLine_mem _ _ _ _) h
    · exact setByte_inv h

@[simp] theorem cleanLines_mem (s : State) (k pa n : Nat) (ls : List Nat) : (cleanLines s k pa n ls).mem = s.mem :=
  foldl_mem _ (by
    intro t l
    split
    · split <;> simp
    · rfl) _ _

theorem storeLines_inv {s : State} {k va pa : Nat} {l : List Byte} (h : s.Inv) : (storeLines s k va pa l).Inv :=
  inv_congr (useLines_mem _ _ _) (inv_congr (cleanLines_mem _ _ _ _ _) (writeLines_inv (inv_congr (noticeStore_mem s va) h)))

theorem memWrite_inv {s : State} {ea : Word} {n x : Nat} (h : s.Inv) : Ends State.Inv (memWrite s ea n x) := by
  unfold memWrite
  dsimp only
  split
  · exact h
  · refine (translate_inv h).bind fun ⟨tgt, t⟩ ht => ?_
    dsimp only
    split
    · exact (facetCheck_inv ht).next ((passFence_inv ht).next ((outputGate_inv ht).next (facetWrite_inv ht)))
    · split
      · split
        · exact ht
        · exact inv_congr (by simp) ht
      · exact (passFence_inv ht).next ((outputGate_inv ht).next (foldl_inv (fun r e hr => inv_congr (by simp) hr) ht))
    · refine (remoteOk_inv ht).next ?_
      split
      · refine (remoteCheck_inv ht).next ?_
        split
        · exact ht
        · exact inv_congr (by simp) ht
      · exact (lockGate_inv ht).next (inv_congr (by simp) ht)
    · refine (tokenCheck_inv ht).bind fun ⟨m, r⟩ hr => ?_
      dsimp only at hr ⊢
      split
      · split
        · exact hr
        · exact (outputGate_inv hr).next (inv_congr (logBytes_mem _ _ _ _ _ _) (foldl_inv (fun _ _ => writeBackLine_inv) (inv_congr (by simp) hr)))
      · split
        · exact hr
        · refine (lockGate_inv hr).next ?_
          split
          · exact inv_congr (by simp) hr
          · exact storeLines_inv hr

theorem sliceTarget_inv {s : State} {ea : Word} {n : Nat} (h : s.Inv) : Ends (fun x => x.2.Inv) (sliceTarget s ea n) := by
  unfold sliceTarget
  split
  · exact h
  · refine (translate_inv h).bind fun ⟨tgt, t⟩ ht => ?_
    dsimp only
    split
    · exact (tokenCheck_inv ht).bind fun _ hr => hr
    · exact (remoteOk_inv ht).bind fun _ _ => ht
    · exact ht

theorem clearPath_inv {s : State} {k : Nat} {op : SliceOp} (h : s.Inv) : (clearPath s k op).Inv := by
  refine foldl_inv (fun t p ht => foldl_inv (fun u l hu => ?_) ht) h
  split
  · exact ite_inv hu (ousterLine_inv hu)
  · exact hu

theorem sendClear_inv {s : State} {c path : Nat} {ordered posted : Bool} {slice : Nat} {op : SliceOp} {extra : Nat} {ea : Word} (h : s.Inv) :
    (sendClear s c path ordered posted slice op extra ea).Inv := inv_congr (sendFlight_mem ..) (clearPath_inv h)

theorem pathClear_inv {s : State} {k : Nat} {op : SliceOp} (h : s.Inv) : Passes (pathClear s k op) := by
  unfold pathClear
  split
  · exact h
  · trivial

theorem postNow_inv {path : Nat} {ordered : Bool} {slice : Nat} {op : SliceOp} {s : State} (h : s.Inv) : Ends State.Inv (postNow path ordered slice op s) := by
  unfold postNow
  split
  case h_1 e => exact (pathClear_inv h).error e
  case h_2 =>
    split
    · exact h
    · exact sendClear_inv h

@[simp] theorem giveWords_mem (s : State) (f : Flight Regs) (d : Nat) (l : List Word) : (giveWords s f d l).mem = s.mem := by
  unfold giveWords
  split <;> simp

@[simp] theorem giveVec_mem (s : State) (f : Flight Regs) (d : Nat) (x : Vec) : (giveVec s f d x).mem = s.mem := by
  unfold giveVec
  split <;> simp

@[simp] theorem giveResult_mem (s : State) (f : Flight Regs) (d : Nat) (x : Word) : (giveResult s f d x).mem = s.mem := by simp [giveResult]

@[simp] theorem setFlight_mem (s : State) (f : Flight Regs) : (setFlight s f).mem = s.mem := rfl

@[simp] theorem dropFlight_mem (s : State) (id : Nat) : (dropFlight s id).mem = s.mem := rfl

@[simp] theorem endFlight_mem (s : State) (f : Flight Regs) : (endFlight s f).mem = s.mem := by simp [endFlight]

@[simp] theorem donePosted_mem (s : State) (f : Flight Regs) : (donePosted s f).mem = s.mem := by
  unfold donePosted
  split <;> simp

theorem programWrite_inv {s : State} {cls pa : Nat} {l : List Byte} (h : s.Inv) : (programWrite s cls pa l).Inv := by
  unfold programWrite
  dsimp only
  split
  · exact performWrite_inv h
  · split
    · exact h
    · exact inv_congr (bumpLine_mem _ _) (foldl_inv (fun _ _ => setByte_inv) h)

theorem flightFault_inv {s : State} {f : Flight Regs} {i : FaultInfo} (h : s.Inv) : (flightFault s f i).Inv := by
  unfold flightFault
  split
  · exact h
  · split
    · exact h
    · exact takeTrap_inv (inv_congr (by simp) h)

@[simp] theorem loseLockstep_mem (s : State) (c : Nat) : (loseLockstep s c).mem = s.mem := by
  unfold loseLockstep
  dsimp only
  repeat' split
  all_goals simp

@[simp] theorem killCtx_mem (s : State) (c : Nat) : (killCtx s c).mem = s.mem := by simp [killCtx]

@[simp] theorem releaseRoutes_mem (s : State) (k : Nat) : (releaseRoutes s k).mem = s.mem := by
  unfold releaseRoutes
  dsimp only
  repeat' split
  all_goals simp

theorem killCore_inv {s : State} {k c : Nat} (h : s.Inv) : (killCore s k c).Inv := by
  unfold killCore
  split
  · exact h
  · extract_lets place left a b d e f r g m
    have ha : a.Inv := foldl_inv (fun t i ht => inv_congr (by simp) ht) h
    have hb : b.Inv := foldl_inv (fun t i ht => inv_congr (by simp) ht) ha
    have hd : d.Inv := foldl_inv (fun t g ht => loseGang_inv ht) hb
    have hr : r.Inv := inv_congr (by simp [r, f, e]) hd
    have hg : g.Inv := ite_inv (inv_congr (by simp) hr) hr
    have hm : m.Inv := inv_congr (by simp [m]) hg
    exact ite_inv (inv_congr (by simp) hm) hm

@[simp] theorem holdParked_mem (s : State) (k : Nat) (w : Stall) : (holdParked s k w).mem = s.mem := foldl_mem _ (fun _ _ => modCtx_mem _ _ _) _ _

@[simp] theorem holdEngine_mem (s : State) (k j : Nat) (out : Bool) : (holdEngine s k j out).mem = s.mem := rfl

@[simp] theorem setQIn_mem (s : State) (k j : Nat) (l : List Vec) : (setQIn s k j l).mem = s.mem := by
  unfold setQIn
  dsimp only
  repeat' split
  all_goals simp

@[simp] theorem setQOut_mem (s : State) (k j : Nat) (l : List Vec) : (setQOut s k j l).mem = s.mem := by
  unfold setQOut
  dsimp only
  repeat' split
  all_goals simp

theorem queueStop_inv {α : Type} {P : α → Prop} {s : State} {j : Nat} {w : Stall} (h : s.Inv) : Ends P (queueStop s j w) := by
  unfold queueStop
  split <;> exact h

@[simp] theorem keepPop_mem (s : State) (ports : List Nat) : (keepPop s ports).mem = s.mem := rfl

theorem portsServe_inv {s : State} {reads : List (BitVec 6)} {dest : Option (BitVec 6)} (h : s.Inv) : Passes (portsServe s reads dest) := by
  unfold portsServe
  extract_lets k ports w
  have hw : w.Inv := by
    unfold w
    split
    · exact h
    · exact inv_congr (by simp) h
  cases dest with
  | none =>
    dsimp only
    split
    · exact hw
    · split
      · exact hw
      · split
        · exact queueStop_inv hw
        · trivial
  | some d =>
    dsimp only
    split
    · exact hw
    · split
      · exact hw
      · split
        · exact queueStop_inv hw
        · split
          · exact queueStop_inv hw
          · split
            · exact lockGate_inv hw
            · trivial

@[simp] theorem readSlot_mem (s : State) (r : BitVec 6) : (readSlot s r).2.mem = s.mem := by
  unfold readSlot
  dsimp only
  split
  · rfl
  · split <;> simp

@[simp] theorem readSlots_mem (s : State) (o : OpV) (n : Nat) : (readSlots s o n).2.2.2.mem = s.mem := by
  have one (t : State) (m : Nat) (r : BitVec 6) : (if m ≤ n then readSlot t r else (0, t)).2.mem = t.mem := by
    split <;> simp
  unfold readSlots
  exact (one _ _ _).trans ((one _ _ _).trans (one _ _ _))

@[simp] theorem pushOut_mem (s : State) (j : Nat) (x : Vec) : (pushOut s j x).mem = s.mem := by simp [pushOut]

@[simp] theorem freeVec_mem (s : State) : (freeVec s).2.mem = s.mem := rfl

@[simp] theorem writeDest_mem (s : State) (d : BitVec 6) (b k : Nat) (l : List (Option Nat)) : (writeDest s d b k l).mem = s.mem := by
  unfold writeDest
  split
  · rfl
  · split <;> simp

theorem laneOp_inv {s : State} {o : OpV} {n : Nat} {f : State → Vec → Vec → Vec → Nat → Nat × Flags} (h : s.Inv) : Ends State.Inv (laneOp s o n f) := by
  unfold laneOp
  split
  case h_1 e => exact (portsServe_inv h).error e
  case h_2 =>
    obtain ⟨⟨a, b, x, t⟩, ht⟩ : ∃ r, r = readSlots s o n := ⟨_, rfl⟩
    have read : t.mem = s.mem := by rw [← readSlots_mem s o n, ← ht]
    rw [← ht]
    exact inv_congr (by simp [read]) h

theorem arith2_inv {s : State} {o : OpV} {fi : Int → Int → Int} {ff : Nat → Nat → Nat → Nat → Nat × Flags} (h : s.Inv) : Ends State.Inv (arith2 s o fi ff) := by
  unfold arith2
  exact laneOp_inv h

theorem lane1_inv {s : State} {o : OpV} {g : State → Nat → Nat × Flags} (h : s.Inv) : Ends State.Inv (lane1 s o g) := by
  unfold lane1
  exact laneOp_inv h

theorem bits2_inv {s : State} {o : OpV} {g : Nat → Nat → Nat} (h : s.Inv) : Ends State.Inv (bits2 s o g) := by
  unfold bits2
  exact laneOp_inv h

end Sys2Proof.Machine
end

