-- ==== Sys2Proof/Proofs/MemoryFormPrograms.lean ====
section
/-! SUPPORT. The canonical form of memory is kept by the memory instructions, sums, messages, pairs, control transfers, the ends of a handler, barriers of a
gang and chords. -/

namespace Sys2Proof.Machine

theorem execLd_inv {o : OpM} {s : State} (h : s.Inv) : Goes (execLd o s) := runSeq_inv h fun _ ht => loadTo_inv ht fun _ _ => inv_congr (wg_mem _ _ _ _)

theorem execSt_inv {o : OpM} {s : State} (h : s.Inv) : Goes (execSt o s) := runSeq_inv h fun _ => memWrite_inv

theorem execLdv_inv {o : OpM} {s : State} (h : s.Inv) : Goes (execLdv o s) := by
  refine runSeq_inv h fun t ht => ?_
  dsimp only
  split
  · exact loadTo_inv ht fun _ _ => inv_congr (by simp)
  · exact (memRead_inv ht).bind fun _ hr => (portsServe_inv hr).next (inv_congr (by simp) hr)

theorem checkAbroad_inv {s : State} {ea : Word} {ask : RemoteAsk} (h : s.Inv) : Passes (checkAbroad s ea ask) := by
  unfold checkAbroad
  split
  · exact h
  · split
    · exact h
    · exact remoteCheck_inv h

theorem execStv_inv {o : OpM} {s : State} (h : s.Inv) : Goes (execStv o s) := by
  refine runSeq_inv h fun t ht => ?_
  refine Leaves.guard (settle_inv ht) ?_
  refine Leaves.guard (checkAbroad_inv ht) ?_
  exact (memWrite_inv ht).bind fun _ hr => (portsServe_inv ht).next (inv_congr (readSlot_mem _ _) hr)

theorem readLanes_inv {size : Nat} {l : List Word} : ∀ {s : State}, s.Inv → Ends (fun x => x.2.Inv) (readLanes s size l) := by
  induction l with
  | nil => exact fun h => h
  | cons e l ih => exact fun h => (memRead_inv h).bind fun _ hr => (ih hr).bind fun _ hu => hu

theorem execLds_inv {o : OpM} {s : State} (h : s.Inv) : Goes (execLds o s) :=
  runSeq_inv h fun _ ht => (readLanes_inv ht).bind fun _ => inv_congr (by simp)

theorem execLdP_inv {o : OpM} {s : State} (h : s.Inv) : Goes (execLdP o s) := by
  refine runSeq_inv h fun t ht => ?_
  extract_lets c k n ea plain
  have hp (u : State) (hu : u.Inv) : Ends State.Inv (plain u) := loadTo_inv hu fun _ _ => inv_congr (wg_mem _ _ _ _)
  split
  · exact ht
  · refine (translate_inv ht).bind fun ⟨tgt, r⟩ hr => ?_
    dsimp only at hr ⊢
    split
    · split
      · exact hp r hr
      · refine (tokenCheck_inv hr).bind fun ⟨m, u⟩ hu => ?_
        dsimp only at hu ⊢
        split
        · exact hp u hu
        · split
          · split
            · exact hu
            · split
              · exact hu
              · exact inv_congr (by simp) hu
          · exact inv_congr (by simp) hu
    · exact hp r hr

theorem execLdt_inv {o : OpM} {s : State} (h : s.Inv) : Goes (execLdt o s) := by
  refine runSeq_inv h fun t ht => ?_
  dsimp only
  split
  · exact ht
  · split
    · exact ht
    · refine (translate_inv ht).bind fun ⟨tgt, r⟩ hr => ?_
      dsimp only at hr ⊢
      split
      · refine .ite hr (Leaves.bind (P := fun x => x.2.Inv) (.ite (tokenCheck_inv hr) (leaves_ok.mpr hr)) fun ⟨m, u⟩ hu => ?_)
        exact .ite hu ((pathClear_inv hu).next (sendClear_inv hu))
      · exact hr

@[simp] theorem prefLine_mem (s : State) (c va pa : Nat) (leaf : Word) (l2 : Bool) (late : Nat) : (prefLine s c va pa leaf l2 late).mem = s.mem := by
  unfold prefLine
  dsimp only
  repeat' split
  all_goals simp

theorem execPref_inv {o : OpM} {s : State} (h : s.Inv) : Goes (execPref o s) := by
  refine runPure_inv h fun t ht => ?_
  dsimp only
  split
  · exact ht
  · split
    case h_1 found =>
      have hu := inv_congr (tlbLookup_mem found) ht
      exact ite_inv (inv_congr (by simp) hu) hu
    case h_2 => exact inv_congr (by simp) ht

theorem rangePages_inv {c : Nat} {l : List (Nat × Nat)} : ∀ {s : State}, s.Inv → Ends State.Inv (rangePages s c l) := by
  induction l with
  | nil => exact fun h => h
  | cons p l ih =>
    intro s h
    rw [rangePages]
    split
    · exact ih h
    · split
      case h_1 => exact inv_congr (by simp) h
      case h_2 found => exact ih (inv_congr (by simp [tlbLookup_mem found]) h)

theorem execAcq_inv {o : OpM} {s : State} (h : s.Inv) : Goes (execAcq o s) := by
  refine runSeq_inv h fun t ht => ?_
  dsimp only
  split
  · exact ht
  · split
    · exact ht
    · refine (rangePages_inv ht).bind fun r hr => foldl_inv (fun u e hu => ?_) hr
      split
      · exact ite_inv hu hu
      · exact hu

theorem flushLines_inv {s : State} {k : Nat} {inv : Bool} {l : List Nat} (h : s.Inv) : (flushLines s k inv l).Inv :=
  foldl_inv (fun _ _ ht => ite_inv (ousterLine_inv ht) (writeBackLine_inv ht)) h

theorem execFlush_inv {o : OpM} {s : State} (h : s.Inv) : Goes (execFlush o s) := by
  refine runSeq_inv h fun t ht => ?_
  dsimp only
  split
  · exact ht
  · refine (outputGate_inv ht).next (sendBuffer_inv ht fun u hu => ?_)
    split
    · exact hu
    · split
      · exact hu
      · exact (passFence_inv hu).next ((rangePages_inv hu).bind fun r hr => inv_congr (notBefore_mem _ _ _) (flushLines_inv hr))

theorem post_inv {s : State} {tgt : Target} {ordered : Bool} {mk : Nat → SliceOp} (h : s.Inv) : Ends State.Inv (post s tgt ordered mk) := by
  refine (lockGate_inv h).next ?_
  split
  · refine Leaves.guard (remoteCheck_inv h) (sendBuffer_inv (inv_congr (by simp) h) fun u hu => ?_)
    split
    · exact hu
    · exact inv_congr (by simp) hu
  · exact sendBuffer_inv h fun _ => postNow_inv
  · exact h

theorem postStore_inv {s : State} {o : OpM} {ordered : Bool} (h : s.Inv) : Ends State.Inv (postStore s o ordered) := by
  unfold postStore
  refine Leaves.guard (checkAbroad_inv h) ?_
  refine (sliceTarget_inv h).bind fun ⟨tgt, t⟩ ht => ?_
  refine Leaves.guard (settle_inv ht) (Leaves.guard (portsServe_inv ht) ((post_inv ht).bind fun r hr => ?_))
  have noted {va : Option Nat} : (match va with
      | some va => if (ctxOf r s.cur).hmode then r else noticeStore r va
      | none => r).Inv := by
    split
    · exact ite_inv hr (inv_congr (by simp) hr)
    · exact hr
  exact ite_inv (inv_congr (readSlot_mem _ _) noted) noted

theorem execSlop_inv {o : OpM} {s : State} (h : s.Inv) : Goes (execSlop o s) := by
  refine runSeq_inv h fun t ht => ?_
  refine (sliceTarget_inv ht).bind fun ⟨tgt, r⟩ hr => ?_
  dsimp only
  split
  · exact post_inv hr
  · refine (lockGate_inv hr).next ?_
    split
    · exact inv_congr (by simp) hr
    · exact (pathClear_inv hr).next (sendClear_inv hr)
    · exact hr

theorem cmlsTargets_inv {a : Nat} {l : List Nat} : ∀ {s : State}, s.Inv → Ends (fun x => x.2.Inv) (cmlsTargets s a l) := by
  induction l with
  | nil => exact fun h => h
  | cons j l ih =>
    intro s h
    rw [cmlsTargets]
    dsimp only
    split
    · exact h
    · refine (translate_inv h).bind fun ⟨tgt, t⟩ ht => ?_
      dsimp only at ht ⊢
      split
      · exact (tokenCheck_inv ht).bind fun _ hr => (ih hr).bind fun _ hu => hu
      · exact ht

theorem execCmls_inv {o : OpM} {s : State} (h : s.Inv) : Goes (execCmls o s) := by
  refine runSeq_inv h fun t ht => ?_
  refine (cmlsTargets_inv ht).bind fun ⟨ts, r⟩ hr => (outputGate_inv hr).next ?_
  dsimp only at hr ⊢
  split
  · exact hr
  · split
    · exact inv_congr (by simp) hr
    · split
      · exact inv_congr (by simp) hr
      · exact (pathClear_inv hr).next (sendClear_inv hr)

theorem aggSend_inv {s : State} {c : Nat} {e : Nat × Nat × Word × Nat} (h : s.Inv) : (aggSend s c e).Inv :=
  ite_inv (inv_congr (by simp) h) (sendClear_inv h)

theorem aggAdd_inv {s : State} {c pa home : Nat} {x : Word} (h : s.Inv) : (aggAdd s c pa home x).Inv := by
  unfold aggAdd
  dsimp only
  split
  · exact inv_congr (modCore_mem _ _ _) h
  · refine inv_congr (modCore_mem _ _ _) ?_
    split
    · exact h
    · split
      · exact aggSend_inv h
      · exact h

theorem aggFlushAll_inv {s : State} {c : Nat} (h : s.Inv) : (aggFlushAll s c).Inv := inv_congr (modCore_mem _ _ _) (foldl_inv (fun _ _ => aggSend_inv) h)

theorem aggNow_inv {pa home : Nat} {x : Word} {s : State} (h : s.Inv) : Ends State.Inv (aggNow pa home x s) := by
  refine (passFence_inv h).next ?_
  dsimp only
  split
  · split
    · exact aggAdd_inv h
    · exact h
  · refine (pathClear_inv h).next ?_
    split
    · exact aggAdd_inv (clearPath_inv h)
    · exact h

theorem execAgg_inv {o : OpM} {s : State} (h : s.Inv) : Goes (execAgg o s) := by
  refine runSeq_inv h fun t ht => ?_
  refine (sliceTarget_inv ht).bind fun ⟨tgt, r⟩ hr => (outputGate_inv hr).next ?_
  dsimp only at hr ⊢
  split
  · exact (remoteCheck_inv hr).next (sendBuffer_inv (inv_congr (by simp) hr) fun _ => aggNow_inv)
  · exact sendBuffer_inv hr fun _ => aggNow_inv
  · exact hr

theorem execFence_inv {o : OpE} {s : State} (h : s.Inv) : Goes (execFence o s) := by
  refine runSeq_inv h fun t ht => ?_
  refine Leaves.guard (settle_inv ht) (sendBuffer_inv ht fun u hu => Leaves.guard (parkOn_inv.mpr hu) ?_)
  have hr : (if nbit (o.imm.toNat / 256) 1 then aggFlushAll u u.cur else u).Inv := ite_inv (aggFlushAll_inv hu) hu
  dsimp only
  split
  · exact hr
  · exact inv_congr (sendFlight_mem ..) hr

@[simp] theorem sendMsg_mem (s : State) (h : MsgHome) (v : Nat) (p : MsgPhase) (m : Msg) : (sendMsg s h v p m).mem = s.mem := rfl

@[simp] theorem modMsg_mem (s : State) (id : Nat) (g : MsgFlight → MsgFlight) : (modMsg s id g).mem = s.mem := rfl

@[simp] theorem setPhase_mem (s : State) (id : Nat) (p : MsgPhase) : (setPhase s id p).mem = s.mem := rfl

@[simp] theorem flyMsg_mem (s : State) (id : Nat) : (flyMsg s id).mem = s.mem := rfl

@[simp] theorem returnMsg_mem (s : State) (id code n : Nat) : (returnMsg s id code n).mem = s.mem := rfl

@[simp] theorem finishMsg_mem (s : State) (m : Msg) : (finishMsg s m).mem = s.mem := by
  unfold finishMsg
  split <;> simp

@[simp] theorem dropMsg_mem (s : State) (id : Nat) : (dropMsg s id).mem = s.mem := rfl

@[simp] theorem putSlot_mem (s : State) (k i : Nat) (m : Msg) (p : SlotPhase) : (putSlot s k i m p).mem = s.mem := rfl

@[simp] theorem startLaunch_mem (s : State) (c : Nat) (l : List Word) : (startLaunch s c l).mem = s.mem := by simp [startLaunch]

@[simp] theorem ruleLookup_mem (s : State) (k x y : Nat) : (ruleLookup s k x y).2.mem = s.mem := by
  rw [(ruleLookup_cores s k x y).1]

@[simp] theorem tellDeque_mem (s : State) (k : Nat) : (tellDeque s k).mem = s.mem := by
  unfold tellDeque
  dsimp only
  repeat' split
  all_goals simp

theorem putSpill_inv {s : State} {k i : Nat} {p : PairRef} (h : s.Inv) : (putSpill s k i p).Inv := by
  unfold putSpill
  split
  · exact h
  · split
    · exact h
    · exact placeWrite_inv h

theorem pushPair_inv {s : State} {k : Nat} {p : PairRef} (h : s.Inv) : (pushPair s k p).Inv :=
  ite_inv (inv_congr (modCore_mem _ _ _) h) (inv_congr (modCore_mem _ _ _) (foldl_inv (fun _ _ => putSpill_inv) h))

@[simp] theorem sendPairAs_mem (s : State) (v sender : Nat) (p : PairRef) : (sendPairAs s v sender p).mem = s.mem := rfl

@[simp] theorem sendPair_mem (s : State) (v : Nat) (p : PairRef) : (sendPair s v p).mem = s.mem := rfl

@[simp] theorem takeMsgid_mem (s : State) (k : Nat) : (takeMsgid s k).2.mem = s.mem := rfl

@[simp] theorem sendOut_mem (s : State) (h : MsgHome) (v : Nat) (m : Msg) : (sendOut s h v m).mem = s.mem := rfl

@[simp] theorem leaveMsg_mem (s : State) (k : Nat) (m : Msg) : (leaveMsg s k m).mem = s.mem := by
  unfold leaveMsg
  split <;> simp

theorem bufferMsg_inv {s : State} {m : Msg} (h : s.Inv) : Ends State.Inv (bufferMsg s m) := by
  refine (outputGate_inv h).next (sendBuffer_inv h fun t ht => ?_)
  split
  · exact ht
  · split
    · exact ht
    · exact inv_congr (by simp) ht

@[simp] theorem aluWrite_mem (s : State) (o : OpA) (f : AluIn → Int) : (aluWrite s o f).mem = s.mem := by simp [aluWrite]

theorem withDivider_inv {s : State} {time : Nat} {f : State → State} (h : s.Inv) (hf : ∀ t, t.Inv → (f t).Inv) : Ends State.Inv (withDivider s time f) := by
  unfold withDivider
  dsimp only
  split
  · exact h
  · exact hf _ (inv_congr (modCore_mem _ _ _) h)

theorem execBr_inv {o : OpB} {s : State} (h : s.Inv) : Goes (execBr o s) := by
  refine run_inv h fun t ht => ?_
  split
  · exact transfer_inv ht ht
  · exact ht

theorem execBrz_inv {o : OpB} {s : State} (h : s.Inv) : Goes (execBrz o s) := by
  refine run_inv h fun t ht => ?_
  split
  · exact transfer_inv ht ht
  · exact ht

theorem execJmp_inv {o : OpB} {s : State} (h : s.Inv) : Goes (execJmp o s) := run_inv h fun _ ht => transfer_inv ht ht

theorem execCall_inv {o : OpB} {s : State} (h : s.Inv) : Goes (execCall o s) := run_inv h fun _ ht => transfer_inv ht (inv_congr (wg_mem _ _ _ _) ht)

theorem execLoop_inv {o : OpB} {s : State} (h : s.Inv) : Goes (execLoop o s) := by
  refine run_inv h fun t ht => ?_
  have hu : (wg t t.cur o.a.toNat (rg t t.cur o.a.toNat - 1)).Inv := inv_congr (wg_mem _ _ _ _) ht
  dsimp only
  split
  · exact ht
  · split
    · exact transfer_inv ht hu
    · exact hu

theorem takeBack_inv {α : Type} {P : α → Prop} {s : State} {r : Res α} (h : s.Inv) (hr : Ends P r) : Ends P (takeBack s r) := by
  unfold takeBack
  split
  · exact h
  · exact h
  · exact hr

theorem execFork_inv {o : OpB} {s : State} (h : s.Inv) : Goes (execFork o s) := by
  refine runSeq_inv h fun t ht => ?_
  dsimp only
  split
  · exact ht
  · exact (outputGate_inv ht).next (takeBack_inv ht (bufferMsg_inv (inv_congr (takeMsgid_mem _ _) ht)))

theorem execJr_inv {o : OpA} {s : State} (h : s.Inv) : Goes (execJr o s) := run_inv h fun _ ht => transfer_inv ht (inv_congr (wg_mem _ _ _ _) ht)

theorem execRet_inv {o : OpA} {s : State} (h : s.Inv) : Goes (execRet o s) := run_inv h fun _ ht => transfer_inv ht ht

theorem commitLine_inv {s : State} {c : Nat} {e : LogLine} (h : s.Inv) : (commitLine s c e).Inv := by
  unfold commitLine
  dsimp only
  split
  · exact foldl_inv (fun u i hu => ite_inv hu (inv_congr (keepScratch_mem _ _ _ _ _) hu)) h
  · exact inv_congr (remoteStore_mem _ _ _ _ _) h
  · split
    · exact inv_congr (reportCtx_mem _ _ _ _) h
    · have hu : (if (lineOf s (coreOf c) e.line).isNone then fillNow s (coreOf c) e.line e.home false else s).Inv := ite_inv (fillNow_inv h) h
      split
      · exact inv_congr (setLine_mem _ _ _ _) hu
      · exact hu

theorem commitLog_inv {s : State} {c : Nat} (h : s.Inv) : (commitLog s c).Inv := inv_congr (modCtx_mem _ _ _) (foldl_inv (fun _ _ => commitLine_inv) h)

@[simp] theorem countShares_mem (s : State) (k : Nat) (l : List Entry) : (countShares s k l).mem = s.mem := by
  refine foldl_mem _ (fun t e => ?_) _ _
  dsimp only
  split
  · simp
  · split
    · split <;> simp
    · rfl
  · rfl

theorem commitHandler_inv {s : State} {c : Nat} (h : s.Inv) : (commitHandler s c).Inv := by
  unfold commitHandler
  extract_lets t x k u w y
  have ht : t.Inv := commitLog_inv h
  have hu : u.Inv := ite_inv (inv_congr (countShares_mem _ _ _) ht) ht
  have hw : w.Inv := by
    unfold w
    split
    · exact inv_congr (releaseBlocks_mem _ _) hu
    · exact hu
  have hy : y.Inv := inv_congr (modCtx_mem _ _ _) hw
  split
  · exact ite_inv hy (inv_congr (freeSegment_mem _ _ _ _) hy)
  · exact hy

@[simp] theorem endContext_mem (s : State) (c wait : Nat) : (endContext s c wait).mem = s.mem := by
  unfold endContext
  dsimp only
  repeat' split
  all_goals simp

@[simp] theorem finishHandler_mem (s : State) (c : Nat) : (finishHandler s c).mem = s.mem := by simp [finishHandler]

@[simp] theorem closeChord_mem (s : State) (c : Nat) : (closeChord s c).mem = s.mem := by
  unfold closeChord
  dsimp only
  repeat' split
  all_goals simp

theorem execHret_inv {o : OpE} {s : State} (h : s.Inv) : Goes (execHret o s) := by
  refine run_inv h fun t ht => ?_
  dsimp only
  split
  · split
    · exact ht
    · split
      · exact inv_congr (by simp) ht
      · exact ht
  · split
    · exact ht
    · split
      · exact ht
      · have hu : (aggFlushAll t t.cur).Inv := aggFlushAll_inv ht
        split
        · exact hu
        · exact inv_congr (by simp) hu

theorem execHabort_inv {o : OpE} {s : State} (h : s.Inv) : Goes (execHabort o s) := by
  refine run_inv h fun t ht => ?_
  dsimp only
  split
  · exact ht
  · split
    · exact ht
    · exact inv_congr (by simp) ht

@[simp] theorem endAborted_mem (s : State) (c : Nat) : (endAborted s c).mem = s.mem := by
  unfold endAborted
  dsimp only
  repeat' split
  all_goals simp

theorem changeHold_inv {s : State} {o : OpE} {f : BitVec 16 → BitVec 16} (h : s.Inv) : Ends State.Inv (changeHold s o f) :=
  (settle_inv h).next (inv_congr (by simp) h)

theorem execGyield_inv {o : OpE} {s : State} (h : s.Inv) : Goes (execGyield o s) := runPure_inv h fun _ ht => ite_inv ht ht

@[simp] theorem passMembers_mem (s : State) (l : List Nat) : (passMembers s l).mem = s.mem := by
  unfold passMembers
  exact foldl_mem _ (by intro t x; simp) _ _

theorem wiredComplete_inv {s : State} {v g : Nat} (h : s.Inv) : Ends State.Inv (wiredComplete s v g) := by
  unfold wiredComplete
  dsimp only
  split
  · exact foldl_inv (fun t c ht => takeTrap_inv (inv_congr (countEvent_mem _ _) ht)) (foldl_inv (fun t c ht => inv_congr (modCtx_mem _ _ _) ht) h)
  · split
    · exact inv_congr (by simp) h
    · split <;> exact h

theorem execGbar_inv {o : OpE} {s : State} (h : s.Inv) : Goes (execGbar o s) := by
  refine runSeq_inv h fun t ht => ?_
  have hu : (aggFlushAll t t.cur).Inv := aggFlushAll_inv ht
  refine .ite ht (.ite ht (.ite ht (.ite ht (.ite hu ?_))))
  refine .ite (parkOn_inv.mpr (inv_congr (by simp) hu)) ?_
  exact (wiredComplete_inv (inv_congr (by simp) hu)).bind fun r hr => inv_congr (modCtx_mem _ _ _) hr

theorem execSend_inv {o : OpE} {s : State} (h : s.Inv) : Goes (execSend o s) :=
  runSeq_inv h fun _ ht => (outputGate_inv ht).next (takeBack_inv ht (bufferMsg_inv (inv_congr (by simp) ht)))

theorem execMrel_inv {o : OpE} {s : State} (h : s.Inv) : Goes (execMrel o s) := by
  refine runSeq_inv h fun t ht => (settle_inv ht).next ?_
  dsimp only
  split
  · split
    · exact inv_congr (by simp) ht
    · exact ht
  · exact ht

theorem execChopen_inv {o : OpE} {s : State} (h : s.Inv) : Goes (execChopen o s) :=
  runSeq_inv h fun _ ht => .ite ht (.ite ht (.ite ht ((settle_inv ht).next (.ite ht (.ite ht (leaves_ok.mpr (inv_congr (by simp) ht)))))))

theorem faultReleasing_inv {α : Type} {P : α → Prop} {s : State} {code : Nat} {release : State → State} (h : s.Inv) (hr : (release s).Inv) :
    Ends P (faultReleasing s code release) := by
  unfold faultReleasing
  split
  · exact h
  · exact hr

theorem execChput_inv {o : OpE} {s : State} (h : s.Inv) : Goes (execChput o s) := by
  refine runSeq_inv h fun t ht => ?_
  dsimp only
  split
  · exact ht
  · split
    · exact faultReleasing_inv ht ht
    · refine (passFence_inv ht).next ((outputGate_inv ht).next ((portsServe_inv ht).next ?_))
      split
      · exact ht
      · exact inv_congr (by simp) ht

theorem execChget_inv {o : OpE} {s : State} (h : s.Inv) : Goes (execChget o s) := by
  refine runSeq_inv h fun t ht => .ite ht ((settle_inv ht).next ?_)
  have hu : (keepPop t [chordPort]).Inv := inv_congr (by simp) ht
  refine .ite hu ?_
  split
  · exact hu
  · exact inv_congr (by simp) hu
  · refine leaves_ok.mpr (inv_congr (wg_mem _ _ _ _) (inv_congr (wv_mem _ _ _ _) (inv_congr (modCore_mem _ _ _) ?_)))
    split <;> exact hu

theorem execChclose_inv {o : OpE} {s : State} (h : s.Inv) : Goes (execChclose o s) :=
  runSeq_inv h fun _ ht => (settle_inv ht).next (inv_congr (closeChord_mem _ _) ht)

theorem execChordWordArrival_inv {core : Nat} {s : State} (h : s.Inv) : Goes (execChordWordArrival core s) := by
  refine goes_next.mpr ?_
  split
  · exact h
  · exact ite_inv h h

theorem execChordTimeout_inv {c : Nat} {s : State} (h : s.Inv) : Goes (execChordTimeout c s) := by
  refine goes_next.mpr ?_
  split
  · exact ite_inv h (takeTrap_inv (inv_congr (countEvent_mem _ _) h))
  · exact h

@[simp] theorem putNeighbour_mem (s : State) (k j : Nat) (x : Word) : (putNeighbour s k j x).mem = s.mem := rfl

theorem execNput_inv {o : OpE} {s : State} (h : s.Inv) : Goes (execNput o s) := by
  refine runSeq_inv h fun t ht => ?_
  dsimp only
  split
  · exact ht
  · refine (outputGate_inv ht).next (sendBuffer_inv ht fun u hu => ?_)
    split
    · exact inv_congr (by simp) hu
    · exact hu

theorem execNeighbourResume_inv {c : Nat} {s : State} (h : s.Inv) : Goes (execNeighbourResume c s) := by
  refine goes_next.mpr ?_
  dsimp only
  split
  · exact ite_inv h h
  · split
    · exact h
    · exact ite_inv h (inv_congr (by simp) h)
  · exact h

@[simp] theorem freeRegion_mem (s : State) (t : Token) : (freeRegion s t).mem = s.mem := rfl

@[simp] theorem fillHolder_mem (s : State) (k : Nat) (t : Token) : (fillHolder s k t).mem = s.mem := by
  unfold fillHolder
  split <;> simp

@[simp] theorem dropRegion_mem (s : State) (k : Nat) (t : Token) : (dropRegion s k t).mem = s.mem := by
  unfold dropRegion
  exact foldl_mem _ (by intro t x; simp) _ _

@[simp] theorem dropLines_mem (s : State) (k : Nat) (o : TokenOp) (t : Token) : (dropLines s k o t).mem = s.mem := by
  unfold dropLines
  split <;> simp

@[simp] theorem sendToken_mem (s : State) (c : Nat) (posted : Bool) (o : TokenOp) (t : Token) : (sendToken s c posted o t).mem = s.mem := rfl

end Sys2Proof.Machine
end

