-- ==== Sys2Proof/Proofs/MemoryFormEngines.lean ====
section
/-! SUPPORT. The canonical form of memory is kept by token instructions, special registers, control blocks, the lattice, jobs, transfers and barriers. -/

namespace Sys2Proof.Machine

theorem tokenGate_inv {s : State} (h : s.Inv) : Passes (tokenGate s) := .ite (parkOn_inv.mpr h) (outputGate_inv h)

theorem tokenGateNow_inv {s : State} (h : s.Inv) : Passes (tokenGateNow s) := (passFence_inv h).next (tokenGate_inv h)

theorem tokenRemote_inv {s : State} {ea : Word} {d : Nat} {kind : TokenKind} {holder : Word} (h : s.Inv) : Ends State.Inv (tokenRemote s ea d kind holder) := by
  unfold tokenRemote
  refine Leaves.guard (leaves_error.mpr h) ((remoteOk_inv h).next ((tokenGate_inv h).next (Leaves.guard (remoteCheck_inv h) ?_)))
  have forgot : (forgetRemote s s.cur ea true).Inv := inv_congr (forgetRemote_mem _ _ _ _) h
  refine .ite ?_ (.ite (parkOn_inv.mpr forgot) (leaves_ok.mpr (inv_congr (by simp) forgot)))
  exact (sendBuffer_inv (inv_congr (freeWord_mem _) forgot) fun _ hu => leaves_ok.mpr hu).bind fun _ hu => inv_congr (wg_mem _ _ _ _) hu

theorem tokenInstr_inv {s : State} {o : OpA} {kind : TokenKind} (h : s.Inv) : Ends State.Inv (tokenInstr s o kind) := by
  have buffered {e : Entry} {x : Word} : Ends State.Inv (sendBuffer s e (fun u => .ok u) >>= fun u => .ok (wg u s.cur o.d.toNat x)) :=
    (sendBuffer_inv h fun _ hu => leaves_ok.mpr hu).bind fun _ hu => leaves_ok.mpr (inv_congr (wg_mem _ _ _ _) hu)
  have sums : Ends State.Inv (if sumsReady s (coreOf s.cur) then parkOn .flights (aggFlushAll s s.cur) else parkOn .storesFull s) :=
    .ite (parkOn_inv.mpr (aggFlushAll_inv h)) (parkOn_inv.mpr h)
  have sent {op : TokenOp} {t : Token} : Ends State.Inv (.ok (sendToken s s.cur false op t)) := leaves_ok.mpr (inv_congr (sendToken_mem _ _ _ _ _) h)
  unfold tokenInstr
  refine .ite (tokenRemote_inv h) ?_
  split <;> dsimp only
  case isTrue =>
    split
    · exact h
    · split
      · exact h
      · exact (tokenGate_inv h).next buffered
  case isFalse =>
    split
    · exact h
    · exact (tokenGate_inv h).next (.ite sums (.ite (parkOn_inv.mpr h) sent))

theorem execTkcarve_inv {o : OpA} {s : State} (h : s.Inv) : Goes (execTkcarve o s) := by
  refine runSeq_inv h fun t ht => .ite ht ?_
  split
  · exact ht
  · exact .ite ht ((tokenGateNow_inv ht).next (inv_congr (by simp) ht))

theorem execTkstat_inv {o : OpA} {s : State} (h : s.Inv) : Goes (execTkstat o s) :=
  runSeq_inv h fun _ ht => .ite ht (.ite ((remoteOk_inv ht).next (inv_congr (by simp) ht)) (leaves_ok.mpr (inv_congr (by simp) ht)))

theorem claimAll_mem (s : State) (dead slot : Word → Bool) (me : Word) : (claimAll s dead slot me).1.mem = s.mem := by
  refine List.foldlRecOn (motive := fun a : State × Nat × List (Token × Word) => a.1.mem = s.mem) _ _ rfl fun a ha e _ => ?_
  split
  · exact ha
  · dsimp only
    split
    · exact ha
    · exact (setToken_mem _ _).trans ha

@[simp] theorem claimCore_mem (s : State) (k : Nat) (me : Word) : (claimCore s k me).1.mem = s.mem := claimAll_mem _ _ _ _

@[simp] theorem noteClaimed_mem (s : State) (l : List (Token × Word)) : (noteClaimed s l).mem = s.mem := rfl

@[simp] theorem sendPlain_mem (s : State) (c home l : Nat) (o : TokenOp) : (sendPlain s c home l o).mem = s.mem := rfl

theorem execTkclaim_inv {o : OpA} {s : State} (h : s.Inv) : Goes (execTkclaim o s) :=
  runSeq_inv h fun _ ht => .ite ht ((tokenGate_inv ht).next (inv_congr (sendPlain_mem _ _ _ _ _) ht))

theorem execTkclean_inv {o : OpA} {s : State} (h : s.Inv) : Goes (execTkclean o s) := by
  refine runSeq_inv h fun t ht => .ite (tokenRemote_inv ht) ?_
  split
  · exact ht
  · exact (tokenGate_inv ht).next (inv_congr (sendPlain_mem _ _ _ _ _) ht)

theorem tokenFail_inv {s : State} {f : Flight Regs} {i : FaultInfo} (h : s.Inv) : (tokenFail s f i).Inv := ite_inv (inv_congr (dropFlight_mem _ _) h) (flightFault_inv h)

theorem execWriteBackAck_inv {id : Nat} {s : State} (h : s.Inv) : Goes (execWriteBackAck id s) := by
  refine goes_next.mpr ?_
  split
  · exact h
  · split
    · exact h
    · exact inv_congr (setFlight_mem _ _) (writeBackLine_inv h)

theorem execTokenEntryChange_inv {id : Nat} {s : State} (h : s.Inv) : Goes (execTokenEntryChange id s) := by
  refine goes_next.mpr ?_
  split
  · exact h
  · split
    · dsimp only
      refine ite_inv h (ite_inv (inv_congr (by simp) h) ?_)
      split
      · exact tokenFail_inv h
      · refine ite_inv (inv_congr (by simp) h) (ite_inv (inv_congr (by simp) h) ?_)
        split
        · exact tokenFail_inv h
        · have changed {v ws g k op r} : (dropFlight (applyToken (dropLines s k op r) ws g k op r) v).Inv :=
            inv_congr ((dropFlight_mem _ _).trans ((applyToken_mem _ _ _ _ _ _).trans (dropLines_mem _ _ _ _))) h
          exact ite_inv changed (inv_congr (giveResult_mem _ _ _ _) changed)
    · exact h

@[simp] theorem setTileRow_mem (s : State) (k j r : Nat) (x : BitVec 256) : (setTileRow s k j r x).mem = s.mem := rfl

theorem execSrd_inv {o : OpS} {s : State} (h : s.Inv) : Goes (execSrd o s) := by
  refine runSeq_inv h fun t ht => .ite ?_ (.ite (.ite ?_ (.ite ht ht)) (leaves_ok.mpr (inv_congr (wg_mem _ _ _ _) ht)))
  · exact leaves_ok.mpr (inv_congr (by simp) ht)
  · exact (settle_inv ht).next (inv_congr (by simp) ht)

@[simp] theorem windowWrite_mem (s : State) (w n : Nat) (x : Word) : (windowWrite s w n x).mem = s.mem := by
  unfold windowWrite
  split
  · rfl
  · split
    · exact (applySreg_mem ..).trans (settleTables_mem _ _)
    · split
      · split
        · exact modCtx_mem _ _ _
        · exact applySreg_mem ..
      · rfl

theorem execSwr_inv {o : OpS} {s : State} (h : s.Inv) : Goes (execSwr o s) :=
  runSeq_inv h fun _ ht => (settle_inv ht).next (.ite (leaves_ok.mpr (inv_congr (windowWrite_mem _ _ _ _) ht)) (leaves_ok.mpr (inv_congr (modCtx_mem _ _ _) ht)))

theorem execTrap_inv {o : OpS} {s : State} (h : s.Inv) : Goes (execTrap o s) := runSeq_inv h fun _ ht => ht

theorem execVgrow_inv {o : OpS} {s : State} (h : s.Inv) : Goes (execVgrow o s) :=
  runSeq_inv h fun _ ht => (settle_inv ht).next (leaves_ok.mpr (ite_inv ht (inv_congr (modCtx_mem _ _ _) ht)))

theorem execVshrink_inv {o : OpS} {s : State} (h : s.Inv) : Goes (execVshrink o s) :=
  runSeq_inv h fun _ ht => (settle_inv ht).next (leaves_ok.mpr (ite_inv ht (inv_congr (modCtx_mem _ _ _) ht)))

theorem execWdog_inv {o : OpS} {s : State} (h : s.Inv) : Goes (execWdog o s) :=
  runSeq_inv h fun _ ht => (settle_inv ht).next (leaves_ok.mpr (inv_congr (modCtx_mem _ _ _) ht))

theorem execWatchdogExpiry_inv {c : Nat} {s : State} (h : s.Inv) : Goes (execWatchdogExpiry c s) := by
  refine goes_next.mpr ?_
  split
  · exact h
  · refine ite_inv h ?_
    dsimp only
    split
    · exact inv_congr (by simp) h
    · exact ite_inv (inv_congr (by simp) h) (inv_congr (by simp) h)
    · exact inv_congr (by simp) h

theorem blockPlaces_inv {ea : Word} {p : Perm} {n : Nat} : ∀ {s : State}, s.Inv → Ends (fun x => x.2.Inv) (blockPlaces s ea p n) := by
  induction n with
  | zero => exact fun h => h
  | succ n ih =>
    intro s h
    rw [blockPlaces]
    refine (translate_inv h).bind fun ⟨tgt, t⟩ ht => ?_
    dsimp only at ht ⊢
    split
    · refine Leaves.bind (P := State.Inv) (.ite ?_ (leaves_ok.mpr ht)) fun r hr => (ih hr).bind fun _ hu => hu
      exact (tokenCheck_inv ht).bind fun _ hr => hr
    · exact ht

theorem readPieces_inv {ea : Word} {n : Nat} : ∀ {s : State} {i : Nat}, s.Inv → Ends (fun x => x.2.Inv) (readPieces s ea n i) := by
  induction n with
  | zero => exact fun h => h
  | succ n ih => exact fun h => (remoteRead_inv h).bind fun _ hr => (ih hr).bind fun _ hu => hu

theorem openBlock_inv {s : State} {ea : Word} {p : Perm} (h : s.Inv) : Ends (fun x => x.2.2.Inv) (openBlock s ea p) := by
  unfold openBlock
  refine (passFence_inv h).next (.ite h (.ite ?_ ?_))
  · split
    · exact h
    · exact (readPieces_inv h).bind fun _ hr => hr
  · refine (blockPlaces_inv h).bind fun ⟨l, t⟩ ht => .ite ht ?_
    exact (needHomes_inv ht).bind fun r hr => .ite hr (leaves_ok.mpr hr)

theorem gangFault_inv {s : State} {member : Option Nat} {r : Res State} (h : Ends State.Inv r) : Ends State.Inv (gangFault s member r) := by
  unfold gangFault
  split
  · exact .ite (leaves_ok.mpr (inv_congr (reportFor_mem _ _ _ _ _ _) h)) h
  · exact h

theorem blockPut_inv {s : State} {b : Block} {l : List (Nat × Nat × Nat)} (h : s.Inv) : (blockPut s b l).Inv := by
  unfold blockPut
  dsimp only
  split
  · exact foldl_inv (fun t e ht => inv_congr (cleanLines_mem _ _ _ _ _) (writeLines_inv ht)) h
  · exact foldl_inv (fun t e ht => inv_congr (remoteStore_mem _ _ _ _ _) ht) h

@[simp] theorem stopTarget_mem (s : State) (w : Nat) : (stopTarget s w).2.mem = s.mem := by
  unfold stopTarget
  dsimp only
  repeat' split
  all_goals rfl

@[simp] theorem leaveBarrier_mem (s : State) (w : Nat) : (leaveBarrier s w).mem = s.mem := by
  unfold leaveBarrier
  dsimp only
  repeat' split
  all_goals simp

@[simp] theorem savedOut_mem (s : State) (w : Nat) : (savedOut s w).mem = s.mem := by
  unfold savedOut
  dsimp only
  repeat' split
  all_goals simp

theorem saveCtx_inv {s : State} {ea : Word} {b : Block} {w : Nat} (h : s.Inv) : Ends State.Inv (saveCtx s ea b w) := by
  unfold saveCtx
  split
  · refine leaves_ok.mpr (inv_congr ((savedOut_mem _ _).trans (useLines_mem _ _ _)) (blockPut_inv ?_))
    exact foldl_inv (fun _ _ ht => inv_congr (noticeStore_mem _ _) ht) h
  · exact .ite (leaves_ok.mpr (inv_congr (savedOut_mem _ _) h)) (parkOn_inv.mpr (blockPut_inv h))

theorem execCtxsave_inv {o : OpS} {s : State} (h : s.Inv) : Goes (execCtxsave o s) := by
  refine runSeq_inv h fun t ht => gangFault_inv ?_
  split
  · exact (openBlock_inv ht).bind fun _ hr => hr
  · refine (outputGate_inv ht).next ?_
    have stopping {w : Nat} : (stopTarget t w).2.Inv := inv_congr (stopTarget_mem t w) ht
    exact .ite stopping ((openBlock_inv stopping).bind fun _ hr => (saveCtx_inv hr).bind fun _ hu => leaves_ok.mpr (inv_congr (by simp) hu))

@[simp] theorem rejoinBarrier_mem (s : State) (w g : Nat) : (rejoinBarrier s w g).mem = s.mem := by
  unfold rejoinBarrier
  dsimp only
  repeat' split
  all_goals simp

@[simp] theorem restoreCtx_mem (s : State) (b : Block) (origin w allot : Nat) : (restoreCtx s b origin w allot).mem = s.mem := by
  unfold restoreCtx
  extract_lets w0 w1 old isGang mode z q x t a p v m r u
  have ht : t.mem = s.mem := setCtx_mem _ _ _
  have hm : m.mem = s.mem := by
    refine (foldl_mem _ (fun a k => foldl_mem _ (fun a i => ?_) _ _) _ _).trans ?_
    · split <;> simp
    · exact (foldl_mem _ (fun _ _ => wv_mem _ _ _ _) _ _).trans ((foldl_mem _ (fun _ _ => wp_mem _ _ _ _) _ _).trans
        ((foldl_mem _ (fun _ _ => wg_mem _ _ _ _) _ _).trans ht))
  have hr : r.mem = s.mem := by
    unfold r
    split
    · exact hm
    · split <;> exact hm
  have hu : u.mem = s.mem := (stealEnds_mem _ _).trans hr
  split
  · exact (modCtx_mem _ _ _).trans hu
  · exact hu

theorem leaveCore_inv {s : State} {k : Nat} {t : Token} (h : s.Inv) : (leaveCore s k t).Inv :=
  inv_congr (dropRegion_mem _ _ _) (flushLines_inv (inv_congr (modCore_mem _ _ _) (foldl_inv (fun _ _ hu => sliceRmw_inv (inv_congr (by simp) hu)) h)))

theorem moveOrigin_inv {s : State} {origin w : Nat} (h : s.Inv) : (moveOrigin s origin w).Inv := by
  unfold moveOrigin
  refine ite_inv h ?_
  extract_lets a l t u r
  have ht : t.Inv := ite_inv h (foldl_inv (fun v b hv => by
    split
    · exact leaveCore_inv hv
    · exact hv) h)
  have hu : u.Inv := inv_congr (moveTokens_mem _ _ _ _) ht
  have hr : r.Inv := foldl_inv (fun v b hv => inv_congr (uncache_mem _ _ _) hv) hu
  exact inv_congr (by simp) hr

@[simp] theorem startHeld_mem (s : State) (w : Nat) : (startHeld s w).mem = s.mem := by
  unfold startHeld
  dsimp only
  repeat' split
  all_goals simp

@[simp] theorem startRestored_mem (s : State) (k c : Nat) : (startRestored s k c).mem = s.mem :=
  (foldl_mem _ (fun _ _ => foldl_mem _ (fun _ _ => modCore_mem _ _ _) _ _) _ _).trans (foldl_mem _ (fun _ _ => startHeld_mem _ _) _ _)

theorem execCtxrest_inv {o : OpS} {s : State} (h : s.Inv) : Goes (execCtxrest o s) := by
  refine runSeq_inv h fun t ht => gangFault_inv ((openBlock_inv ht).bind fun ⟨b, l, r⟩ hr => .ite hr ?_)
  dsimp only at hr ⊢
  split
  · refine .ite hr (.ite hr (.ite hr ?_))
    split
    · exact hr
    · refine (outputGate_inv hr).next (Leaves.guard (parkOn_inv.mpr hr) (leaves_ok.mpr (inv_congr (notBefore_mem _ _ _) ?_)))
      have moved {n origin w : Nat} : (moveOrigin (restoreCtx r b origin w n) origin w).Inv := moveOrigin_inv (inv_congr (restoreCtx_mem _ _ _ _ _) hr)
      have kept {f : Core → Core} {n origin w : Nat} := inv_congr ((markCip_mem (modCore _ (coreOf t.cur) f) t.cur).trans (modCore_mem _ _ _)) (moved (n := n) (origin := origin) (w := w))
      exact ite_inv (inv_congr (startRestored_mem _ _ _) kept) kept
  · exact hr

@[simp] theorem setSeg_mem (s : State) (v i row : Nat) (x : Seg) : (setSeg s v i row x).mem = s.mem := rfl

@[simp] theorem wakeStalls_mem (s : State) (v : Nat) (p : Nat → Stall → Bool) : (wakeStalls s v p).mem = s.mem := by rw [(wakeStalls_wakes s v p).only]

theorem execMstat_inv {o : OpE} {s : State} (h : s.Inv) : Goes (execMstat o s) :=
  runSeq_inv h fun _ ht => (passFence_inv ht).next (.ite ht (.ite ht ((settle_inv ht).next (inv_congr (by simp) ht))))

@[simp] theorem giveJid_mem (s : State) (j : LatJob) (except : Nat) : (giveJid s j except).mem = s.mem := by
  refine foldl_mem _ (fun t c => ?_) _ _
  split <;> simp

theorem latticeBarrier_inv {s : State} {v g : Nat} (h : s.Inv) : Ends State.Inv (latticeBarrier s v g) := by
  unfold latticeBarrier
  extract_lets l w t fault jid j r
  have ht : t.Inv := inv_congr (modCluster_mem _ _ _) h
  have stops (code : Nat) : Ends State.Inv (fault code) :=
    .ite (parkOn_inv.mpr h) (leaves_error.mpr (foldl_inv (fun u e hu => takeTrap_inv (inv_congr (countEvent_mem _ _) hu)) ht))
  have hr : r.Inv := inv_congr (modCluster_mem _ _ _) ht
  exact .ite (stops _) (.ite (stops _) (.ite (leaves_ok.mpr (inv_congr (by simp) hr)) (parkOn_inv.mpr (inv_congr (modCluster_mem _ _ _) hr))))

theorem execMgang_inv {o : OpE} {s : State} (h : s.Inv) : Goes (execMgang o s) := by
  refine runSeq_inv h fun t ht => ?_
  dsimp only
  split
  · exact inv_congr (wg_mem _ _ _ _) ht
  · refine .ite ht (.ite ht ((lockGate_inv ht).next (.ite (parkOn_inv.mpr (inv_congr (modCluster_mem _ _ _) ht)) ?_)))
    exact (latticeBarrier_inv (inv_congr (modCluster_mem _ _ _) ht)).bind fun _ hu => inv_congr (wg_mem _ _ _ _) hu

theorem execLatticeJobStart_inv {v : Nat} {s : State} (h : s.Inv) : Goes (execLatticeJobStart v s) := by
  refine goes_next.mpr ?_
  split
  · exact h
  · refine ite_inv h (inv_congr (wakeStalls_mem _ _ _) ?_)
    split
    · exact inv_congr ((giveJid_mem _ _ _).trans (modCluster_mem _ _ _)) (foldl_inv (fun _ _ ht => inv_congr (setCol_mem _ _ _ _) ht) h)
    · exact inv_congr (modCluster_mem _ _ _) (foldl_inv (fun _ _ ht => inv_congr (setCol_mem _ _ _ _) ht) h)

@[simp] theorem drainsReady_mem (s : State) (v : Nat) (jid : BitVec 16) : (drainsReady s v jid).mem = s.mem := by
  refine foldl_mem _ (fun t i => ?_) _ _
  split
  · exact modCore_mem _ _ _
  · rfl

theorem execLatticeJobEnd_inv {v : Nat} {disagree : Bool} {s : State} (h : s.Inv) : Goes (execLatticeJobEnd v disagree s) := by
  refine goes_next.mpr ?_
  split
  · exact h
  · refine ite_inv h (inv_congr ((wakeStalls_mem _ _ _).trans ((modCluster_mem _ _ _).trans (drainsReady_mem _ _ _))) ?_)
    refine ite_inv (inv_congr (countFault_mem _ _ _) ?_) ?_
    all_goals exact foldl_inv (fun t e ht => inv_congr (setCol_mem _ _ _ _) ht) h

theorem execMwait_inv {o : OpE} {s : State} (h : s.Inv) : Goes (execMwait o s) := by
  refine runSeq_inv h fun t ht => .ite ht ?_
  split
  · exact inv_congr (wg_mem _ _ _ _) ht
  · exact (settle_inv ht).next (leaves_ok.mpr (inv_congr (wg_mem _ _ _ _) (ite_inv (inv_congr (by simp) ht) ht)))

theorem execMdrain_inv {o : OpE} {s : State} (h : s.Inv) : Goes (execMdrain o s) := by
  refine runSeq_inv h fun t ht => ?_
  have answered (x : Word) : (wg t t.cur o.d.toNat x).Inv := inv_congr (wg_mem _ _ _ _) ht
  exact .ite ht (.ite (answered _) (.ite ht (answered _)))

@[simp] theorem emitFree_mem (s : State) (v i row : Nat) (wrote : Bool) : (emitFree s v i row wrote).mem = s.mem := by
  unfold emitFree
  dsimp only
  repeat' split
  all_goals simp

theorem execMemit_inv {o : OpE} {s : State} (h : s.Inv) : Goes (execMemit o s) := by
  refine runSeq_inv h fun t ht => .ite ?_ (.ite ht ((translate_inv ht).bind fun ⟨tgt, r⟩ hr => ?_))
  · refine (outputGate_inv ht).next ((sendBuffer_inv ht fun u hu => ?_).bind fun u hu => inv_congr (raiseFlags_mem _ _ _) hu)
    exact inv_congr (emitFree_mem _ _ _ _ _) hu
  · dsimp only at hr ⊢
    split
    · refine (tokenCheck_inv hr).bind fun ⟨m, u⟩ hu => (outputGate_inv hu).next (.ite ?_ (leaves_ok.mpr (inv_congr (by simp) hu)))
      exact (sendBuffer_inv hu fun _ hx => leaves_ok.mpr hx).bind fun _ hx => inv_congr (raiseFlags_mem _ _ _) hx
    · refine (remoteOk_inv hr).next ((outputGate_inv hr).next (.ite ?_ (leaves_ok.mpr (inv_congr (by simp) hr))))
      exact (sendBuffer_inv hr fun _ hx => leaves_ok.mpr hx).bind fun _ hx => inv_congr (raiseFlags_mem _ _ _) hx
    · exact hr

theorem openSegs_inv {s : State} {row n : Nat} {poison : Bool} (h : s.Inv) : Passes (openSegs s row n poison) :=
  .ite (parkOn_inv.mpr h) (.ite (trapWith_inv.mpr h) (settle_inv h))

@[simp] theorem keepTile_mem (s : State) (c k tile row : Nat) (x : BitVec 256) : (keepTile s c k tile row x).mem = s.mem := by
  unfold keepTile
  split <;> simp

theorem execAld_inv {o : OpE} {s : State} (h : s.Inv) : Goes (execAld o s) :=
  runSeq_inv h fun _ ht => (openSegs_inv ht).next (leaves_ok.mpr (foldl_inv (fun _ _ hu => inv_congr (by simp) hu) ht))

theorem execAst_inv {o : OpE} {s : State} (h : s.Inv) : Goes (execAst o s) :=
  runSeq_inv h fun _ ht => (openSegs_inv ht).next (leaves_ok.mpr (foldl_inv (fun _ _ hu => inv_congr (setSeg_mem _ _ _ _ _) hu) ht))

theorem execMzero_inv {o : OpE} {s : State} (h : s.Inv) : Goes (execMzero o s) :=
  runSeq_inv h fun _ ht => (openSegs_inv ht).next (leaves_ok.mpr (foldl_inv (fun _ _ hu => inv_congr (setSeg_mem _ _ _ _ _) hu) ht))

theorem execMterm_inv {o : OpE} {s : State} (h : s.Inv) : Goes (execMterm o s) := runPure_inv h fun _ ht => inv_congr (wg_mem _ _ _ _) ht

@[simp] theorem offerJobs_mem (v n : Nat) : ∀ s : State, (offerJobs s v n).mem = s.mem := by
  induction n with
  | zero => exact fun _ => rfl
  | succ n ih =>
    intro s
    rw [offerJobs]
    dsimp only
    split
    · split
      · rfl
      · rw [ih, modCtx_mem, modCluster_mem]
    · rfl

theorem execJob_inv {o : OpE} {s : State} (h : s.Inv) : Goes (execJob o s) :=
  runSeq_inv h fun _ ht => .ite ht ((outputGate_inv ht).next (.ite ht (leaves_ok.mpr (inv_congr (by simp) ht))))

theorem pollJob_inv {s : State} {d : Nat} {w : Word} (h : s.Inv) : Ends State.Inv (pollJob s d w) := by
  have answered (x : Word) : (wg s s.cur d x).Inv := inv_congr (wg_mem _ _ _ _) h
  unfold pollJob
  dsimp only
  split
  · exact .ite (answered _) ((settle_inv h).next (inv_congr (modCluster_mem _ _ _) (answered _)))
  · exact answered _

theorem execJwait_inv {o : OpE} {s : State} (h : s.Inv) : Goes (execJwait o s) := by
  refine runSeq_inv h fun t ht => ?_
  dsimp only
  split
  · exact ht
  · exact pollJob_inv ht

theorem takeJob_inv {s : State} {d seq : Nat} (h : s.Inv) : Ends State.Inv (takeJob s d seq) := by
  unfold takeJob
  dsimp only
  split
  · exact h
  · exact leaves_ok.mpr (inv_congr (by simp) h)

theorem execJnext_inv {o : OpE} {s : State} (h : s.Inv) : Goes (execJnext o s) := by
  refine runSeq_inv h fun t ht => ?_
  dsimp only
  split
  · exact takeJob_inv ht
  · refine (settle_inv ht).next ?_
    split
    · exact takeJob_inv (inv_congr (by simp) ht)
    · exact parkOn_inv.mpr (inv_congr (by simp) ht)

theorem execJdone_inv {o : OpE} {s : State} (h : s.Inv) : Goes (execJdone o s) :=
  runSeq_inv h fun _ ht => .ite ht ((settle_inv ht).next (leaves_ok.mpr (inv_congr (by simp) ht)))

theorem startTransfer_inv {s : State} {op : EngineOp} {barrier : Word} (h : s.Inv) : Ends State.Inv (startTransfer s op barrier) := by
  have added (f : Cluster → Cluster) : (modCluster { s with nextId := s.nextId + 1 } (vertOf s.cur) f).Inv := inv_congr (modCluster_mem _ _ _) h
  unfold startTransfer
  refine (lockGate_inv h).next (.ite ((settle_inv h).next (leaves_ok.mpr (ite_inv h (added _)))) (.ite h ((settle_inv h).next (parkOn_inv.mpr (added _)))))

theorem execTload_inv {o : OpE} {s : State} (h : s.Inv) : Goes (execTload o s) := runSeq_inv h fun _ ht => .ite ht (startTransfer_inv ht)

theorem execBulk_inv {o : OpE} {s : State} (h : s.Inv) : Goes (execBulk o s) :=
  runSeq_inv h fun _ ht => .ite ht (.ite ht (.ite ht (.ite ht (startTransfer_inv ht))))

theorem execGather_inv {o : OpE} {s : State} (h : s.Inv) : Goes (execGather o s) := runSeq_inv h fun _ ht => .ite ht (.ite ht (.ite ht (startTransfer_inv ht)))

theorem execScatter_inv {o : OpE} {s : State} (h : s.Inv) : Goes (execScatter o s) := runSeq_inv h fun _ ht => .ite ht (.ite ht (.ite ht (startTransfer_inv ht)))

theorem execRgather_inv {o : OpE} {s : State} (h : s.Inv) : Goes (execRgather o s) := runSeq_inv h fun _ ht => .ite ht (.ite ht (startTransfer_inv ht))

theorem execQpush_inv {o : OpE} {s : State} (h : s.Inv) : Goes (execQpush o s) := runSeq_inv h fun _ ht => .ite ht (startTransfer_inv ht)

@[simp] theorem moveFault_inv {α : Type} {P : α → Prop} {s : State} {code : Nat} {ea : Word} {xfer : BitVec 32} : Moving P (moveFault s code ea xfer) ↔ s.Inv := .rfl

theorem engineAbroad_inv {s : State} {ea : Word} {codes : List Nat} (h : s.Inv) : Moving State.Inv (engineAbroad s ea codes) :=
  .ite h (.ite h (.ite h (.ite h (.ite h h))))

theorem enginePlace_inv {s : State} {v : Nat} {ea : Word} {write : Bool} (h : s.Inv) : Moving (fun x => x.2.Inv) (enginePlace s v ea write) := by
  unfold enginePlace
  refine .ite ((engineAbroad_inv h).map fun _ ht => ht) (.ite h ?_)
  have found := engineTranslate_inv (v := v) (va := ea.toNat % 2 ^ 53) (p := if write then .wr else .rd) h
  split
  case h_1 e => rw [e] at found; exact found
  case h_2 e => rw [e] at found; exact found
  case h_3 e =>
    rw [e] at found
    dsimp only
    split
    · exact found
    · exact .ite found found

theorem engineRead_inv {s : State} {v id : Nat} {ea : Word} (h : s.Inv) : Moving (fun x => x.2.Inv) (engineRead s v id ea) := by
  have placed := enginePlace_inv (v := v) (ea := ea) (write := false) h
  unfold engineRead
  split
  case h_1 e => exact placed.error e
  case h_2 e => exact placed.ok e
  case h_3 e =>
    have reached {who slice pa n cls write} := inv_congr (reachL2_mem _ who slice pa n cls write) (placed.ok e)
    exact .ite reached (.ite reached reached)
  case h_4 e => exact placed.ok e

theorem engineWrite_inv {s : State} {v id : Nat} {ea : Word} {x mask : BitVec 256} (h : s.Inv) : Moving State.Inv (engineWrite s v id ea x mask) := by
  have placed := enginePlace_inv (v := v) (ea := ea) (write := true) h
  unfold engineWrite
  dsimp only
  split
  case h_1 e => exact placed.error e
  case h_2 e => exact leaves_ok.mpr (foldl_inv (fun t i ht => inv_congr (setScratch_mem _ _ _ _) ht) (placed.ok e))
  case h_3 e =>
    have reached {who slice pa n cls write} := inv_congr (reachL2_mem _ who slice pa n cls write) (placed.ok e)
    refine .ite (placed.ok e) (.ite reached (.ite (leaves_ok.mpr (programWrite_inv reached)) (leaves_ok.mpr (inv_congr (bumpLine_mem _ _) ?_))))
    exact foldl_inv (fun t i ht => setByte_inv ht) reached
  case h_4 e => exact placed.ok e

@[simp] theorem placeLine_mem (s : State) (c : Nat) (p : Place) (off : Nat) (x : BitVec 256) : (placeLine s c p off x).mem = s.mem := by
  refine foldl_mem _ (fun t v => ?_) _ _
  split
  · exact setTileRow_mem _ _ _ _ _
  · exact modCluster_mem _ _ _

theorem enginePush_inv {s : State} {core port : Nat} {x : Vec} (h : s.Inv) : Moving State.Inv (enginePush s core port x) :=
  .ite h (.ite trivial (leaves_ok.mpr (inv_congr (setQIn_mem _ _ _ _) h)))

theorem engineStep_inv {s : State} {v : Nat} {t : Transfer} (h : s.Inv) : Moving (fun x => x.1.Inv) (engineStep s v t) := by
  have reads {ea : Word} : Moving (fun x => x.2.Inv) (engineRead s v t.id ea) := engineRead_inv h
  have writes {ea : Word} {x mask : BitVec 256} : Moving State.Inv (engineWrite s v t.id ea x mask) := engineWrite_inv h
  have pushes {core port : Nat} {x : Vec} : Moving State.Inv (enginePush s core port x) := enginePush_inv h
  unfold engineStep
  dsimp only
  split
  · exact reads.bind fun _ hr => inv_congr (placeLine_mem _ _ _ _ _) hr
  · exact reads.bind fun _ hr => (engineWrite_inv hr).bind fun _ hu => hu
  · refine .ite (reads.bind fun _ hr => hr) (.ite (reads.bind fun _ hr => hr) ?_)
    split
    · exact pushes.bind fun _ hr => hr
    · exact writes.bind fun _ hr => hr
  · exact .ite (reads.bind fun _ hr => hr) (.ite (reads.bind fun _ hr => hr) (writes.bind fun _ hr => hr))
  · refine .ite (reads.bind fun _ hr => hr) (reads.bind fun _ hr => leaves_ok.mpr (foldl_inv (fun _ _ hu => inv_congr (placeLine_mem _ _ _ _ _) hu) hr))
  · refine .ite (.ite ?_ (writes.bind fun _ hr => hr)) (.ite (reads.bind fun _ hr => hr) (pushes.bind fun _ hr => hr))
    split
    · exact .ite h trivial
    · exact leaves_ok.mpr (inv_congr (setQOut_mem _ _ _ _) h)

@[simp] theorem setTransfer_mem (s : State) (v : Nat) (t : Transfer) : (setTransfer s v t).mem = s.mem := rfl

@[simp] theorem rotateTransfer_mem (s : State) (v : Nat) (t : Transfer) : (rotateTransfer s v t).mem = s.mem := rfl

@[simp] theorem dropTransfer_mem (s : State) (v id : Nat) : (dropTransfer s v id).mem = s.mem := rfl

@[simp] theorem endTransfer_mem (s : State) (v : Nat) (t : Transfer) : (endTransfer s v t).mem = s.mem := by
  unfold endTransfer
  dsimp only
  repeat' split
  all_goals simp

@[simp] theorem cutTransfer_mem (s : State) (v : Nat) (t : Transfer) : (cutTransfer s v t).mem = s.mem := by
  unfold cutTransfer
  split <;> simp

theorem failTransfer_inv {s : State} {v : Nat} {t : Transfer} {i : FaultInfo} (h : s.Inv) : (failTransfer s v t i).Inv := by
  unfold failTransfer
  split
  · have cut : (cutTransfer s v t).Inv := inv_congr (cutTransfer_mem _ _ _) h
    exact ite_inv (takeTrap_inv (inv_congr (countEvent_mem _ _) cut)) cut
  · extract_lets code u w r
    have hu : u.Inv := inv_congr (countFault_mem _ _ _) (poisonRequest_inv h)
    have hw : w.Inv := foldl_inv (fun a x ha => inv_congr (cutTransfer_mem _ _ _) ha) hu
    have hr : r.Inv := inv_congr (modCluster_mem _ _ _) hw
    exact ite_inv (inv_congr (modCtx_mem _ _ _) hr) hr

theorem execAccessTransferLine_inv {v : Nat} {s : State} (h : s.Inv) : Goes (execAccessTransferLine v s) := by
  refine goes_next.mpr (ite_inv h ?_)
  split
  · exact h
  case h_2 t _ =>
    have moved := engineStep_inv (v := v) (t := t) h
    split
    case h_1 e => exact inv_congr (rotateTransfer_mem _ _ _) (moved.error e : State.Inv _)
    case h_2 e => exact inv_congr (modCluster_mem _ _ _) h
    case h_3 e => exact ite_inv h (failTransfer_inv (moved.error e))
    case h_4 e => exact inv_congr (by simp) (moved.ok e)

@[simp] theorem endWait_mem (s : State) (f : Flight Regs) (p : Word) : (endWait s f p).mem = s.mem := rfl

@[simp] theorem wakeBarrier_mem (s : State) (v pa waiters : Nat) (p : Word) : (wakeBarrier s v pa waiters p).mem = s.mem := by
  refine foldl_mem _ (fun t i => ?_) _ _
  split
  · split
    · exact endWait_mem _ _ _
    · rfl
  · rfl

theorem setPending_inv {s : State} {v cls pa : Nat} {p : Word} (h : s.Inv) : (setPending s v cls pa p).Inv :=
  ite_inv (programWrite_inv h) (inv_congr (wakeBarrier_mem _ _ _ _ _) (programWrite_inv h))

theorem testBarrier_inv {s : State} {f : Flight Regs} {pa : Nat} (h : s.Inv) : (testBarrier s f pa).Inv :=
  ite_inv (flightFault_inv h) (ite_inv (inv_congr (setFlight_mem _ _) (programWrite_inv (inv_congr (touchL2_mem _ _ _ _ _ _) h))) (inv_congr (endWait_mem _ _ _) h))

theorem performBari_inv {s : State} {f : Flight Regs} {pa : Nat} {count : Word} (h : s.Inv) : (performBari s f pa count).Inv :=
  ite_inv (flightFault_inv h) (setPending_inv (inv_congr (by simp) h))

theorem execBarrierDecrement_inv {v : Nat} {s : State} (h : s.Inv) : Goes (execBarrierDecrement v s) := by
  refine goes_next.mpr ?_
  split
  · exact h
  case h_2 t _ =>
    have fails {u : State} {y : Transfer} {i : FaultInfo} (hu : u.Inv) : (if t.job.isNone && unfinished s t.ctx then s else failTransfer (setTransfer u v y) v y i).Inv :=
      ite_inv h (failTransfer_inv (inv_congr (setTransfer_mem _ _ _) hu))
    have abroad := engineAbroad_inv (ea := t.barrier) (codes := [cXlateMiss, cXlatePerm, cPoison]) h
    have here := engineTranslate_inv (v := v) (va := t.barrier.toNat % 2 ^ 53) (p := .wr) h
    refine ite_inv ?_ ?_
    · split
      case h_1 e => exact fails (abroad.error e)
      case h_2 e => exact (abroad.error e : State.Inv _)
      case h_3 e => exact h
      case h_4 e => exact inv_congr (by simp) (abroad.ok e : State.Inv _)
    · split
      case h_1 e => rw [e] at here; exact here
      case h_2 e => rw [e] at here; exact fails here
      case h_3 e =>
        rw [e] at here
        have reached {who slice pa n cls write} := inv_congr (reachL2_mem _ who slice pa n cls write) here
        exact ite_inv (inv_congr (setTransfer_mem _ _ _) here) (ite_inv reached (ite_inv (fails reached) (inv_congr ((endTransfer_mem _ _ _).trans (setTransfer_mem _ _ _)) (setPending_inv reached))))

theorem execBari_inv {o : OpE} {s : State} (h : s.Inv) : Goes (execBari o s) := by
  refine runSeq_inv h fun t ht => .ite ht ((translate_inv ht).bind fun ⟨tgt, r⟩ hr => ?_)
  dsimp only at hr ⊢
  split
  · exact (tokenCheck_inv hr).bind fun ⟨m, u⟩ hu => (outputGate_inv hu).next (sendClear_inv hu)
  · exact (remoteOk_inv hr).next ((outputGate_inv hr).next (inv_congr (by simp) hr))
  · exact hr

theorem execWaitb_inv {o : OpE} {s : State} (h : s.Inv) : Goes (execWaitb o s) := by
  refine runSeq_inv h fun t ht => ?_
  dsimp only
  split
  · exact inv_congr (wg_mem _ _ _ _) ht
  · refine (translate_inv ht).bind fun ⟨tgt, r⟩ hr => ?_
    dsimp only at hr ⊢
    split
    · exact .ite hr (parkOn_inv.mpr (inv_congr (by simp) hr))
    · exact (remoteRead_inv hr).bind fun ⟨x, u⟩ hu => inv_congr (wg_mem _ _ _ _) hu
    · exact hr

theorem boqStop_inv {α : Type} {P : α → Prop} {s : State} {k : Nat} {w : Stall} (h : s.Inv) : Ends P (boqStop s k w) := .ite (trapWith_inv.mpr h) (parkOn_inv.mpr h)

theorem execBoqp_inv {o : OpE} {s : State} (h : s.Inv) : Goes (execBoqp o s) :=
  runSeq_inv h fun _ ht => (outputGate_inv ht).next (.ite (boqStop_inv ht) (leaves_ok.mpr (inv_congr ((markCip_mem _ _).trans (setBoq_mem _ _ _ _)) ht)))

theorem execBroq_inv {o : OpE} {s : State} (h : s.Inv) : Goes (execBroq o s) := by
  refine run_inv h fun t ht => (settle_inv ht).next ?_
  dsimp only
  split
  · exact boqStop_inv ht
  · have popped (k : Nat) (up : Bool) (l : List Bool) : (markCip (setBoq t k up l) t.cur).Inv := inv_congr ((markCip_mem _ _).trans (setBoq_mem _ _ _ _)) ht
    exact .ite (transfer_inv ht (popped _ _ _)) (leaves_ok.mpr (popped _ _ _))

@[simp] theorem countParked_mem (s : State) (n : Nat) : (countParked s n).mem = s.mem := by
  refine foldl_mem _ (fun t e => ?_) _ _
  dsimp only
  split
  · exact modCore_mem _ _ _
  · rfl

@[simp] theorem passCycles_mem (s : State) (n : Nat) : (passCycles s n).mem = s.mem := by
  unfold passCycles
  split
  · rfl
  · split
    · rfl
    · exact countParked_mem _ _

@[simp] theorem installCode_mem (s : State) (k l : Nat) : (installCode s k l).mem = s.mem := rfl

end Sys2Proof.Machine
end

