-- ==== Sys2Proof/Proofs/MemoryFormSlices.lean ====
section
/-! SUPPORT. The canonical form of memory is kept by groups, request records, graphs, gangs, batches, cells, what a slice performs, fills, walks and limits. -/

namespace Sys2Proof.Machine

theorem codeAt_mem {s u : State} {k pa : Nat} {i : Instr} {bad : Bool} (h : codeAt s k pa = some (i, bad, u)) : u.mem = s.mem := by
  unfold codeAt at h
  split at h
  · cases h
  · cases h
    exact modCore_mem _ _ _

@[simp] theorem countMismatch_mem (s : State) (k : Nat) : (countMismatch s k).mem = s.mem := rfl

theorem readMembers_inv {n : Nat} : ∀ {s : State} {ea : Word}, s.Inv → Ends (fun x => x.2.Inv) (readMembers s ea n) := by
  induction n with
  | zero => exact fun h => h
  | succ n ih => exact fun h => (memRead_inv h).bind fun _ hr => (ih hr).bind fun _ hu => hu

theorem execGopen_inv {o : OpE} {s : State} (h : s.Inv) : Goes (execGopen o s) := by
  refine runSeq_inv h fun t ht => .ite ht ?_
  refine (memRead_inv ht).bind fun ⟨w0, _⟩ h0 => (memRead_inv h0).bind fun ⟨mlist, _⟩ h1 => (memRead_inv h1).bind fun ⟨w2, _⟩ h2 => (memRead_inv h2).bind fun ⟨dest, u⟩ hu => ?_
  refine .ite hu (.ite hu (.ite hu ((readMembers_inv hu).bind fun ⟨members, r⟩ hr => ?_)))
  refine Leaves.guard (trapAt_inv.mpr hr) (Leaves.guard (trapWith_inv.mpr hr) ((outputGate_inv hr).next (leaves_ok.mpr (inv_congr ?_ hr))))
  exact (notBefore_mem _ _ _).trans ((markCip_mem _ _).trans (setGroup_mem _ _ _))

@[simp] theorem sendCopy_mem (s : State) (c gid cls n : Nat) (pay : List Word) : (sendCopy s c gid cls n pay).mem = s.mem :=
  (leaveMsg_mem ..).trans ((setGroup_mem _ _ _).trans (takeMsgid_mem _ _))

@[simp] theorem sendCopies_mem (c gid cls : Nat) (pay : List Word) (fuel : Nat) :
    ∀ (s : State) (n : Nat), (sendCopies s c gid cls pay fuel n).2.mem = s.mem := by
  induction fuel with
  | zero => exact fun _ _ => rfl
  | succ fuel ih =>
    intro s n
    rw [sendCopies]
    split
    · rfl
    · exact (ih _ _).trans (sendCopy_mem _ _ _ _ _ _)

theorem execGsend_inv {o : OpE} {s : State} (h : s.Inv) : Goes (execGsend o s) := by
  refine runSeq_inv h fun t ht => .ite ht ((outputGate_inv ht).next (sendBuffer_inv ht fun u hu => .ite hu ?_))
  split
  case _ n r e =>
    have hr : r.Inv := inv_congr ((congrArg (fun x : Nat × State => x.2.mem) e).symm.trans (sendCopies_mem ..)) hu
    exact Leaves.ite (parkOn_inv.mpr (inv_congr (modCtx_mem _ _ _) hr)) (leaves_ok.mpr hr)

@[simp] theorem sendContribution_mem (s : State) (c gid m : Nat) (x : Word) : (sendContribution s c gid m x).mem = s.mem := rfl

theorem execGred_inv {o : OpE} {s : State} (h : s.Inv) : Goes (execGred o s) :=
  runSeq_inv h fun _ ht => .ite ht ((outputGate_inv ht).next (sendBuffer_inv ht fun _ hu => .ite hu (leaves_ok.mpr (inv_congr (sendContribution_mem ..) hu))))

theorem execGdrain_inv {o : OpE} {s : State} (h : s.Inv) : Goes (execGdrain o s) := runSeq_inv h fun _ ht => .ite ht ht

@[simp] theorem closeGroup_mem (s : State) (gid : Nat) : (closeGroup s gid).mem = s.mem := by
  unfold closeGroup
  dsimp only
  repeat' split
  all_goals simp

theorem execGclose_inv {o : OpE} {s : State} (h : s.Inv) : Goes (execGclose o s) :=
  runSeq_inv h fun _ ht => (outputGate_inv ht).next (sendBuffer_inv ht fun _ hu => leaves_ok.mpr (inv_congr (closeGroup_mem _ _) hu))

@[simp] theorem sendResult_mem (s : State) (gid : Nat) (e : GroupEntry) (x : Word) : (sendResult s gid e x).mem = s.mem := rfl

theorem performResult_inv {s : State} {f : Flight Regs} {gid pa : Nat} {x : Word} (h : s.Inv) : (performResult s f gid pa x).Inv := by
  unfold performResult
  extract_lets u _ m t
  have hu : u.Inv := inv_congr (endFlight_mem _ _) (programWrite_inv h)
  have ht : t.Inv := inv_congr (sendOut_mem ..) hu
  exact ite_inv (inv_congr (finishMsg_mem ..) ht) ht

@[simp] theorem contribute_mem (s : State) (gid m : Nat) (x : Word) : (contribute s gid m x).mem = s.mem := by
  unfold contribute
  dsimp only
  repeat' split
  all_goals simp

theorem recPuts_inv {s : State} {pa : Nat} {l : List (Nat × Nat × Nat × Nat)} (h : s.Inv) : (recPuts s pa l).Inv :=
  ite_inv h (inv_congr (bumpLine_mem _ _) (foldl_inv (fun _ _ => writeMem_inv) h))

theorem noteRecord_inv {s : State} {pa tok : Nat} {w : Word} (h : s.Inv) : (noteRecord s pa tok w).2.Inv := by
  unfold noteRecord
  extract_lets st seq pos m seqlen m' stop
  split
  · exact h
  · split
    · exact h
    · split
      · exact h
      · exact recPuts_inv h

theorem faultNote_inv {s : State} {pa home code : Nat} {w : Word} (h : s.Inv) : (faultNote s pa home code w).2.Inv := by
  unfold faultNote
  extract_lets st
  split
  · exact h
  · split
    · exact h
    · exact faultRecord_inv h

theorem requestOp_inv {s : State} {o : OpE} {mk : Nat → SliceOp} (h : s.Inv) : Ends State.Inv (requestOp s o mk) := by
  refine .ite h ((sliceTarget_inv h).bind fun ⟨tgt, r⟩ hr => (outputGate_inv hr).next ?_)
  dsimp only at hr ⊢
  split
  · exact sendClear_inv hr
  · exact inv_congr ((sendFlight_mem ..).trans (forgetRemote_mem _ _ _ _)) hr
  · exact hr

theorem execRqnote_inv {o : OpE} {s : State} (h : s.Inv) : Goes (execRqnote o s) := runSeq_inv h fun _ => requestOp_inv

theorem execRqflt_inv {o : OpE} {s : State} (h : s.Inv) : Goes (execRqflt o s) := runSeq_inv h fun _ => requestOp_inv

theorem execRqslot_inv {o : OpE} {s : State} (h : s.Inv) : Goes (execRqslot o s) := runSeq_inv h fun _ ht => leaves_ok.mpr (inv_congr (sendFlight_mem ..) ht)

theorem execGrlaunch_inv {o : OpE} {s : State} (h : s.Inv) : Goes (execGrlaunch o s) :=
  runSeq_inv h fun _ ht => .ite ht (.ite ht ((outputGate_inv ht).next (leaves_ok.mpr (inv_congr (sendFlight_mem ..) ht))))

theorem execGrsig_inv {o : OpE} {s : State} (h : s.Inv) : Goes (execGrsig o s) :=
  runSeq_inv h fun _ ht => (outputGate_inv ht).next (sendBuffer_inv ht fun _ hu => leaves_ok.mpr (inv_congr (sendFlight_mem ..) hu))

@[simp] theorem readRecords_mem (s : State) (records n : Nat) : (readRecords s records n).mem = s.mem := by
  unfold readRecords
  exact foldl_mem _ (by intro t x; split <;> simp) _ _

@[simp] theorem setGraph_mem (s : State) (gi : Nat) (g : GraphRun) : (setGraph s gi g).mem = s.mem := rfl

theorem setNode_inv {s : State} {gi i : Nat} {x : Node} (h : s.Inv) : (setNode s gi i x).Inv := by
  unfold setNode
  split
  · exact h
  · dsimp only
    split
    · exact placeWrite_inv (inv_congr (setGraph_mem _ _ _) h)
    · exact inv_congr (setGraph_mem _ _ _) h

@[simp] theorem settleGraph_mem (s : State) (gi : Nat) : (settleGraph s gi).mem = s.mem := by
  unfold settleGraph
  split
  · rfl
  · split
    · rfl
    · exact setGraph_mem _ _ _

theorem faultNode_inv {s : State} {gi i : Nat} {f : FaultInfo} {value : Nat} (h : s.Inv) : (faultNode s gi i f value).Inv := by
  unfold faultNode
  split
  · exact h
  · extract_lets _ u w k
    have hu : u.Inv := setNode_inv h
    have hw : w.Inv := by
      unfold w
      split
      · exact inv_congr (setGraph_mem _ _ _) hu
      · exact hu
    exact inv_congr ((settleGraph_mem _ _).trans (reportFor_mem ..)) hw

theorem launchGraph_inv {s : State} {c records statuses n : Nat} (h : s.Inv) : (launchGraph s c records statuses n).2.Inv := by
  unfold launchGraph
  split
  · exact h
  · extract_lets g u
    have hu : u.Inv := inv_congr (readRecords_mem _ _ _) (foldl_inv (fun _ _ => setNode_inv) (inv_congr (setGraph_mem _ _ _) h))
    dsimp only
    split
    · exact faultNode_inv hu
    · exact ite_inv (setNode_inv hu) (faultNode_inv hu)

theorem credit_inv {gi fuel : Nat} : ∀ {l : List (Nat × Bool)} {s : State}, s.Inv → (credit gi fuel l s).Inv := by
  induction fuel with
  | zero => exact fun h => h
  | succ fuel ih =>
    intro l s h
    cases l with
    | nil => exact h
    | cons e l =>
      rw [credit]
      split
      · exact h
      · exact ite_inv (ih h) (ite_inv (ih (setNode_inv h)) (ih (setNode_inv h)))

theorem skipNode_inv {s : State} {gi i : Nat} (h : s.Inv) : (skipNode s gi i).Inv := by
  unfold skipNode
  split
  · exact h
  · exact ite_inv h (credit_inv (setNode_inv h))

theorem completeNode_inv {s : State} {gi i : Nat} {take : Nat → Bool} (h : s.Inv) : (completeNode s gi i take).Inv := by
  unfold completeNode
  split
  · exact h
  · extract_lets succs taken left _ done again credited kind skipped
    have hagain : again.Inv := by
      refine foldl_inv (fun t j ht => ?_) (setNode_inv h)
      split
      · exact setNode_inv ht
      · exact ht
    have hcredited : credited.Inv := credit_inv hagain
    have hskipped : skipped.Inv := ite_inv (foldl_inv (fun _ _ => skipNode_inv) hcredited) hcredited
    exact inv_congr (settleGraph_mem _ _) hskipped

theorem flushRegion_inv {s : State} {cores : List Nat} {r : Token} (h : s.Inv) : (flushRegion s cores r).Inv := by
  unfold flushRegion
  extract_lets u
  have hu : u.Inv :=
    foldl_inv (fun _ _ ht => inv_congr ((uncache_mem ..).trans (dropRegion_mem ..)) (foldl_inv (fun _ _ => writeBackLine_inv) ht)) h
  split
  · exact ite_inv (inv_congr (setToken_mem _ _) hu) hu
  · exact hu

theorem nodeFlush_inv {s : State} {gi : Nat} {cores : List Nat} (h : s.Inv) : (nodeFlush s gi cores).Inv :=
  foldl_inv (fun _ _ ht => ite_inv (flushRegion_inv ht) ht) h

theorem signalNode_inv {s : State} {w : Word} (h : s.Inv) : (signalNode s w).Inv := by
  unfold signalNode
  dsimp only
  split
  · exact h
  · exact ite_inv (completeNode_inv (nodeFlush_inv h)) h

theorem execNodeEligible_inv {gi node : Nat} {s : State} (h : s.Inv) : Goes (execNodeEligible gi node s) := by
  refine goes_next.mpr ?_
  split
  · exact h
  · exact ite_inv (setNode_inv h) h

theorem execNodeEvaluate_inv {gi node : Nat} {s : State} (h : s.Inv) : Goes (execNodeEvaluate gi node s) := by
  refine goes_next.mpr ?_
  split
  · exact h
  · refine ite_inv h (ite_inv (faultNode_inv h) ?_)
    split
    · exact faultNode_inv h
    · refine ite_inv (completeNode_inv (setNode_inv h)) (ite_inv (ite_inv (faultNode_inv h) (completeNode_inv (setNode_inv h))) ?_)
      refine ite_inv (completeNode_inv (setNode_inv h)) (completeNode_inv (foldl_inv (fun t b ht => ?_) (setNode_inv h)))
      split
      · exact setNode_inv ht
      · exact ht

theorem startNode_inv {s : State} {gi node : Nat} {g : GraphRun} (h : s.Inv) : (startNode s gi node g).Inv := by
  unfold startNode
  extract_lets w kind _ u
  have hu : u.Inv := setNode_inv h
  refine ite_inv (faultNode_inv hu) (ite_inv ?_ (ite_inv (faultNode_inv hu) hu))
  split
  · exact faultNode_inv hu
  · exact ite_inv (faultNode_inv hu) hu

theorem execNodeStart_inv {die : Nat} {s : State} (h : s.Inv) : Goes (execNodeStart die s) := by
  refine goes_next.mpr ?_
  dsimp only
  split
  · exact h
  · refine ite_inv h ?_
    split
    · exact h
    · exact startNode_inv (inv_congr (setDie_mem _ _ _) h)

theorem execNetSeed_inv {gi node : Nat} {s : State} (h : s.Inv) : Goes (execNetSeed gi node s) := by
  refine goes_next.mpr ?_
  split
  · exact h
  · extract_lets x w root cell p
    exact ite_inv h (inv_congr (sendPair_mem _ _ _) (setNode_inv h))

@[simp] theorem setGang_mem (s : State) (i : Nat) (g : Option Gang) : (setGang s i g).mem = s.mem := rfl

theorem execGangReserve_inv {gang core : Nat} {s : State} (h : s.Inv) : Goes (execGangReserve gang core s) := by
  refine goes_next.mpr ?_
  split
  · exact h
  · split
    · exact ite_inv h (inv_congr ((setGang_mem _ _ _).trans ((stealEnds_mem _ _).trans (modCtx_mem _ _ _))) h)
    · exact h

@[simp] theorem startMember_mem (s : State) (gang : Nat) (g : Gang) (m c : Nat) : (startMember s gang g m c).mem = s.mem := by simp [startMember]

theorem execGangStart_inv {gang : Nat} {s : State} (h : s.Inv) : Goes (execGangStart gang s) := by
  refine goes_next.mpr ?_
  split
  · exact h
  · exact ite_inv h (foldl_inv (fun _ _ ht => inv_congr (startMember_mem ..) ht) (inv_congr (setGang_mem _ _ _) h))

theorem execGangPreempt_inv {gang : Nat} {s : State} (h : s.Inv) : Goes (execGangPreempt gang s) := by
  refine goes_next.mpr ?_
  split
  · exact h
  · exact ite_inv (inv_congr (setGang_mem _ _ _) h) h

theorem putBlock_inv {s : State} {va : Nat} {l : List (Nat × Nat × Nat)} (h : s.Inv) : (putBlock s va l).Inv := by
  refine foldl_inv (fun t e ht => ?_) h
  split
  · exact placeWrite_inv ht
  · exact ht

theorem clearBlock_inv {s : State} {d va : Nat} (h : s.Inv) : (clearBlock s d va).Inv := by
  refine foldl_inv (fun t i ht => ?_) h
  split
  · exact foldl_inv (fun _ _ hu => ousterLine_inv (ousterLine_inv hu)) ht
  · exact ht

theorem saveMember_inv {s : State} {d va c : Nat} (h : s.Inv) : (saveMember s d va c).Inv :=
  inv_congr (savedOut_mem _ _) (putBlock_inv (inv_congr (noticeStore_mem _ _) (clearBlock_inv h)))

theorem execGangSave_inv {gang block : Nat} {s : State} (h : s.Inv) : Goes (execGangSave gang block s) := by
  refine goes_next.mpr ?_
  split
  · exact h
  · refine ite_inv h ?_
    split
    · exact inv_congr (reportFor_mem ..) h
    · exact inv_congr (setGang_mem _ _ _) (foldl_inv (fun _ _ => saveMember_inv) h)

theorem execMeshBarrierComplete_inv {gang : Nat} {s : State} (h : s.Inv) : Goes (execMeshBarrierComplete gang s) := by
  refine goes_next.mpr ?_
  split
  · exact h
  · exact ite_inv h (inv_congr ((passMembers_mem _ _).trans (setGang_mem _ _ _)) h)

@[simp] theorem giveSlot_mem (s : State) (g count : Nat) (b : BatchRun) (i va off : Nat) : (giveSlot s g count b i va off).1.mem = s.mem := rfl

/-- A part of a batch's update keeps the form where it succeeds. -/
abbrev Succeeds {ε α : Type} (P : α → Prop) (r : Except ε α) : Prop := Leaves (fun _ => True) P r

theorem succeeds_true {ε α : Type} {r : Except ε α} : Succeeds (fun _ => True) r := by cases r <;> trivial

theorem readCopy_inv {s : State} {b : BatchRun} {va : Nat} (h : s.Inv) : Succeeds (fun x => x.1.Inv) (readCopy s b va) := by
  unfold readCopy
  split
  · trivial
  · exact inv_congr (touchL2_mem ..) h

theorem writeFields_inv {s : State} {va : Nat} {l : List (Nat × Nat × Nat × Nat)} (h : s.Inv) : Succeeds State.Inv (writeFields s va l) := by
  unfold writeFields
  split
  · trivial
  · exact .ite trivial (leaves_ok.mpr (recPuts_inv (foldl_inv (fun _ _ ht => inv_congr (touchL2_mem ..) ht) h)))

theorem batchAccess_inv {s : State} {g count : Nat} {b : BatchRun} {a : BatchAccess} (h : s.Inv) :
    Succeeds (fun x => x.1.Inv) (batchAccess s g count b a) := by
  cases a with
  | free va => exact (readCopy_inv h).bind fun _ hu => hu
  | fetch slot va => exact (readCopy_inv h).bind fun _ hu => hu
  | give i va off => exact (readCopy_inv h).bind fun _ hu => inv_congr (giveSlot_mem ..) hu
  | check i va => exact (readCopy_inv h).bind fun _ hu => hu
  | evict i va l =>
    exact (readCopy_inv h).bind fun _ hu => .ite ((writeFields_inv hu).bind fun _ hw => hw) ((writeFields_inv hu).bind fun _ hw => hw)
  | fields va l => exact (writeFields_inv h).bind fun _ hw => hw
  | unpage va => exact succeeds_true.bind fun _ _ => inv_congr (touchL2_mem ..) h
  | bytes va data => exact succeeds_true.bind fun _ _ => placeWrite_inv h
  | bit va i on => exact succeeds_true.bind fun _ _ => placeWrite_inv h

theorem batchDecide_inv {s : State} {g count : Nat} {b : BatchRun} (h : s.Inv) : Succeeds (fun x => x.1.Inv) (batchDecide s g count b) := by
  unfold batchDecide
  split
  · split <;> exact h
  · exact .ite h (succeeds_true.bind fun _ _ => inv_congr (touchL2_mem ..) h)
  · split <;> exact h
  · split <;> exact h
  · refine .ite h ?_
    split <;> exact h
  · exact h
  · exact h

theorem batchPiece_inv {s : State} {g count : Nat} {b : BatchRun} (h : s.Inv) : Succeeds (fun x => x.1.Inv) (batchPiece s g count b) := by
  unfold batchPiece
  split
  · exact batchAccess_inv h
  · exact batchDecide_inv h

theorem zeroFill_inv {s : State} {pa n : Nat} (h : s.Inv) : (zeroFill s pa n).Inv := inv_congr (clearFull_mem _ _ _) (ok_filter _ _ _ h)

@[simp] theorem setBatch_mem (s : State) (gi node : Nat) (b : Option BatchRun) : (setBatch s gi node b).mem = s.mem := rfl

theorem newBatch_inv {s : State} {g : Nat} {x : State × BatchRun} (h : s.Inv) (e : newBatch s g = .ok x) : x.1.Inv := by
  unfold newBatch at e
  dsimp only [bind, Except.bind] at e
  split at e
  · cases e
  · cases e
    exact inv_congr (touchL2_mem ..) h

theorem execBatchStep_inv {gi node : Nat} {s : State} (h : s.Inv) : Goes (execBatchStep gi node s) := by
  refine goes_next.mpr ?_
  split
  · exact h
  · refine ite_inv h ?_
    have keeps {b : Option BatchRun} : (setBatch s gi node b).Inv := inv_congr (setBatch_mem _ _ _ _) h
    have pieced {g count : Nat} {b : Option BatchRun} {x : State × BatchRun}
        (e : (match b with | some b => batchPiece s g count b | none => newBatch s g) = .ok x) : x.1.Inv := by
      cases b with
      | none => exact newBatch_inv h e
      | some b => exact (batchPiece_inv h).ok e
    dsimp only
    split
    case h_1 => exact faultNode_inv keeps
    case h_2 u b e =>
      have hu : u.Inv := pieced e
      exact ite_inv (setNode_inv (inv_congr (setBatch_mem _ _ _ _) hu)) (inv_congr (setBatch_mem _ _ _ _) hu)

theorem execNodeComplete_inv {gi node : Nat} {s : State} (h : s.Inv) : Goes (execNodeComplete gi node s) := by
  refine goes_next.mpr ?_
  split
  · exact h
  · refine ite_inv h ?_
    split
    · exact ite_inv (completeNode_inv h) h
    · split
      · exact ite_inv (completeNode_inv (nodeFlush_inv (inv_congr (setGang_mem _ _ _) h))) h
      · exact h
    · exact h

theorem execI4tab_inv {o : OpS} {s : State} (h : s.Inv) : Goes (execI4tab o s) := by
  refine runSeq_inv h fun t ht => .ite ht ((settle_inv ht).next ((memRead_inv ht).bind fun ⟨x, u⟩ hu => (memRead_inv hu).bind fun ⟨y, r⟩ hr => ?_))
  exact inv_congr ((notBefore_mem _ _ _).trans (modCore_mem _ _ _)) hr

@[simp] theorem askItems_mem (s : State) (k : Nat) (wire : Bool) (h n : Nat) : (askItems s k wire h n).mem = s.mem := rfl

theorem netAlloc_inv {s : State} {wire : Bool} {h : Nat} (hs : s.Inv) : Ends (fun x => x.2.Inv) (netAlloc s wire h) := by
  refine .ite hs ?_
  split
  · extract_lets u w
    have hu : u.Inv := inv_congr (modCore_mem _ _ _) hs
    have hw : w.Inv := ite_inv (inv_congr (modCtx_mem _ _ _) hu) hu
    exact leaves_ok.mpr (ite_inv (inv_congr (askItems_mem ..) hw) hw)
  · exact .ite hs (parkOn_inv.mpr (ite_inv hs (inv_congr (askItems_mem ..) hs)))

@[simp] theorem setItem_mem (s : State) (wire : Bool) (a : Nat) (x : ItemState) : (setItem s wire a x).mem = s.mem := by
  unfold setItem
  split <;> simp

theorem drawItem_inv {s : State} {wire : Bool} {a : Nat} (h : s.Inv) : (drawItem s wire a).Inv := by
  have drawn : (setItem s wire a .drawn).Inv := inv_congr (setItem_mem ..) h
  unfold drawItem
  refine ite_inv ?_ drawn
  split
  · exact ite_inv drawn (placeWrite_inv drawn)
  · exact drawn

@[simp] theorem wakeAlloc_mem (s : State) (k : Nat) (wire : Bool) (h : Nat) (found : Bool) : (wakeAlloc s k wire h found).mem = s.mem :=
  foldl_mem _ (fun _ _ => modCtx_mem _ _ _) _ _

@[simp] theorem takeArrivals_mem (s : State) (k : Nat) (l : List ((Bool × Nat × Nat) × Nat)) : (takeArrivals s k l).mem = s.mem := by
  unfold takeArrivals
  exact foldl_mem _ (by intro t x; simp) _ _

theorem execReservoirRefill_inv {core : Nat} {s : State} (h : s.Inv) : Goes (execReservoirRefill core s) := by
  refine goes_next.mpr (ite_inv (inv_congr (takeArrivals_mem ..) h) ?_)
  split
  · exact h
  · have drawn {l : List Nat} {wire : Bool} {f : Core → Core} : (l.foldl (fun t a => drawItem t wire a) (modCore s core f)).Inv :=
      foldl_inv (fun _ _ => drawItem_inv) (inv_congr (modCore_mem _ _ _) h)
    exact ite_inv (inv_congr ((wakeAlloc_mem ..).trans (modCore_mem _ _ _)) drawn) (inv_congr (modCore_mem _ _ _) drawn)

theorem postRoom_inv {s : State} (h : s.Inv) : Passes (postRoom s) := .ite trivial (.ite h trivial)

theorem orderedPost_inv {s : State} {home : Nat} {op : SliceOp} (h : s.Inv) : Ends State.Inv (orderedPost s home op) :=
  sendBuffer_inv h fun _ hu => leaves_ok.mpr (inv_congr (sendFlight_mem ..) hu)

theorem execCnew_inv {o : OpE} {s : State} (h : s.Inv) : Goes (execCnew o s) := by
  refine runSeq_inv h fun t ht => .ite ht (.ite ht (.ite ht ((outputGate_inv ht).next ((postRoom_inv ht).next ((netAlloc_inv ht).bind fun ⟨x, u⟩ hu => ?_)))))
  dsimp only at hu ⊢
  split
  · exact ht
  · exact (orderedPost_inv hu).bind fun _ hw => inv_congr (wg_mem _ _ _ _) hw

theorem execWnew_inv {o : OpE} {s : State} (h : s.Inv) : Goes (execWnew o s) :=
  runSeq_inv h fun _ ht => (settle_inv ht).next ((netAlloc_inv ht).bind fun _ hu => inv_congr (wg_mem _ _ _ _) hu)

theorem execCset_inv {o : OpE} {s : State} (h : s.Inv) : Goes (execCset o s) := by
  refine runSeq_inv h fun t ht => .ite ht ((translate_inv ht).bind fun ⟨tgt, r⟩ hr => ?_)
  refine .ite hr (.ite hr ((outputGate_inv hr).next ((postRoom_inv hr).next ?_)))
  dsimp only at hr ⊢
  split
  · exact orderedPost_inv hr
  · exact (remoteOk_inv hr).next (sendBuffer_inv hr fun _ hu => leaves_ok.mpr (inv_congr (sendFlight_mem ..) hu))
  · exact hr

theorem execLink_inv {o : OpE} {s : State} (h : s.Inv) : Goes (execLink o s) := by
  refine runSeq_inv h fun t ht => .ite ((translate_inv ht).bind fun ⟨tgt, r⟩ hr => ?_) ?_
  · dsimp only at hr ⊢
    split
    · exact hr
    · refine (outputGate_inv hr).next ((postRoom_inv hr).next ?_)
      split
      · exact orderedPost_inv hr
      · exact (remoteOk_inv hr).next (sendBuffer_inv hr fun _ hu => leaves_ok.mpr (inv_congr (sendFlight_mem ..) hu))
      · exact hr
  · split
    · exact ht
    · refine (outputGate_inv ht).next ((postRoom_inv ht).next (sendBuffer_inv ht fun u hu => ?_))
      exact .ite (leaves_ok.mpr (inv_congr (sendFlight_mem ..) hu)) (.ite (parkOn_inv.mpr (inv_congr (tellDeque_mem _ _) hu)) (leaves_ok.mpr (pushPair_inv hu)))

theorem execCxld_inv {o : OpE} {s : State} (h : s.Inv) : Goes (execCxld o s) := by
  refine runSeq_inv h fun t ht => .ite ht ((translate_inv ht).bind fun ⟨tgt, r⟩ hr => ?_)
  dsimp only at hr ⊢
  split
  · exact inv_congr (sendFlight_mem ..) hr
  · exact (remoteOk_inv hr).next (leaves_ok.mpr (inv_congr (sendFlight_mem ..) hr))
  · exact hr

theorem execCgrab_inv {o : OpE} {s : State} (h : s.Inv) : Goes (execCgrab o s) :=
  runSeq_inv h fun _ ht => (settle_inv ht).next (leaves_ok.mpr (inv_congr ((askItems_mem ..).trans (wg_mem _ _ _ _)) ht))

theorem reportCode_inv {s : State} {f : Flight Regs} {code : Nat} {ref : Word} (h : s.Inv) : (reportCode s f code ref).Inv := by
  have hu : (if code = cPoison then poisonAt s (refAddr ref) else s).Inv := ite_inv (poisonAt_inv h) h
  exact ite_inv (inv_congr (reportFor_mem ..) hu) (inv_congr (reportFor_mem ..) hu)

theorem reportSlice_inv {s : State} {f : Flight Regs} {ref : Word} (h : s.Inv) : (reportSlice s f ref).Inv := reportCode_inv h

theorem execCellWrite_inv {id : Nat} {s : State} (h : s.Inv) : Goes (execCellWrite id s) := by
  refine goes_next.mpr ?_
  split
  · exact h
  · refine ite_inv h ?_
    split
    · split
      · exact inv_congr (donePosted_mem _ _) (reportCode_inv h)
      · exact inv_congr ((donePosted_mem _ _).trans (setItem_mem ..)) (placeWrite_inv h)
    · split
      · exact inv_congr (donePosted_mem _ _) (reportCode_inv h)
      · refine ite_inv (inv_congr (donePosted_mem _ _) (reportSlice_inv h)) ?_
        exact ite_inv (inv_congr (reachL2_mem ..) h) (inv_congr (donePosted_mem _ _) (performWrite_inv (inv_congr (reachL2_mem ..) h)))
    · exact h

theorem linkFrom_inv {s : State} {f : Flight Regs} {a b : Word} (h : s.Inv) : (linkFrom s f a b).Inv := by
  refine ite_inv (ite_inv h ?_) (inv_congr (sendPair_mem ..) h)
  split
  · exact reportSlice_inv h
  · exact h

theorem execLinkSwap_inv {id : Nat} {s : State} (h : s.Inv) : Goes (execLinkSwap id s) := by
  refine goes_next.mpr ?_
  split
  · exact h
  · refine ite_inv h ?_
    split
    · exact ite_inv (inv_congr (dropFlight_mem _ _) (pushPair_inv h)) h
    · split
      · exact inv_congr (donePosted_mem _ _) (reportCode_inv h)
      · have reached {who slice pa n cls write} := inv_congr (reachL2_mem s who slice pa n cls write) h
        have done {who slice pa n cls write f} := inv_congr (donePosted_mem _ f) (@reached who slice pa n cls write)
        refine ite_inv reached (ite_inv (inv_congr (donePosted_mem _ _) (reportCode_inv reached)) (ite_inv (reportSlice_inv done) ?_))
        refine ite_inv (inv_congr (setItem_mem ..) (performWrite_inv done)) ?_
        have freed {who slice pa n cls write f l a} : (setItem (performWrite (donePosted (reachL2 s who slice pa n cls write).2 f) pa l) true a .free).Inv :=
          inv_congr (setItem_mem ..) (performWrite_inv done)
        exact ite_inv (reportSlice_inv freed) (linkFrom_inv freed)
    · exact h

@[simp] theorem reachAll_mem (s : State) (f : Flight Regs) : (reachAll s f).2.mem = s.mem := by rw [(reachAll_sectors s f).only]

@[simp] theorem finishReturn_mem (s : State) (f : Flight Regs) (d : Nat) (l : List Word) : (finishReturn s f d l).mem = s.mem := by
  refine (giveWords_mem ..).trans ((endFlight_mem _ _).trans ?_)
  split
  · refine foldl_mem _ (fun t p => foldl_mem _ (fun u a => ?_) _ _) _ _
    split
    · split
      · exact setLine_mem _ _ _ _
      · rfl
    · rfl
  · rfl

theorem performCmls_inv {s : State} {c cls : Nat} {ts : List (Nat × Word)} (h : s.Inv) : (performCmls s c cls ts).2.Inv := by
  have untracked {f : Ctx → Ctx} : (modCtx s c f).Inv := inv_congr (modCtx_mem _ _ _) h
  unfold performCmls
  dsimp only
  split
  · exact untracked
  · exact inv_congr (markCip_mem _ _)
      (foldl_inv (fun _ _ ht => inv_congr (bumpLine_mem _ _) ht) (foldl_inv (fun _ _ ht => inv_congr (clearFull_mem _ _ _) (writeMem_inv ht)) untracked))

@[simp] theorem peerSpoke_mem (s : State) (d : Nat) : (peerSpoke s d).mem = s.mem := rfl

@[simp] theorem remoteEnds_mem (s : State) (f : Flight Regs) : (remoteEnds s f).mem = s.mem := by
  unfold remoteEnds
  split <;> simp

theorem remoteFails_inv {s : State} {f : Flight Regs} {code : Nat} {ref : Word} (h : s.Inv) : (remoteFails s f code ref).Inv :=
  ite_inv (inv_congr ((donePosted_mem _ _).trans (remoteEnds_mem _ _)) (ite_inv (reportCode_inv h) h)) (flightFault_inv h)

theorem performRemote_inv {s : State} {f : Flight Regs} {ref : Word} (h : s.Inv) : (performRemote s f ref).Inv := by
  refine ite_inv h (ite_inv (remoteFails_inv h) (ite_inv (remoteFails_inv h) ?_))
  have spoke {n d : Nat} : (peerSpoke { s with free := n } d).Inv := inv_congr (peerSpoke_mem _ _) h
  refine ite_inv (remoteFails_inv spoke) ?_
  split
  · exact inv_congr ((modCtx_mem _ _ _).trans (endFlight_mem _ _)) spoke
  · refine inv_congr ((giveWords_mem ..).trans (endFlight_mem _ _)) (ite_inv (inv_congr (markCip_mem _ _) ?_) ?_)
    · exact spoke
    · exact spoke
  · exact inv_congr ((giveWords_mem ..).trans ((endFlight_mem _ _).trans (freeWord_mem _))) spoke
  · exact inv_congr ((donePosted_mem _ _).trans (remoteEnds_mem _ _)) spoke

theorem fillMissing_inv {s : State} {f : Flight Regs} {pa n : Nat} (h : s.Inv) : (fillMissing s f pa n).Inv :=
  ite_inv h (foldl_inv (fun _ _ ht => ite_inv ht (fillLine_inv ht)) h)

theorem performLoad_inv {s : State} {f : Flight Regs} {pa n : Nat} {sx vec : Bool} {d lo hi : Nat} (h : s.Inv) : (performLoad s f pa n sx vec d lo hi).Inv := by
  have filled : (fillMissing s f pa n).Inv := fillMissing_inv h
  have used {k : Nat} {l : List Nat} : (endFlight (useLines (fillMissing s f pa n) k l) f).Inv := inv_congr ((endFlight_mem _ _).trans (useLines_mem _ _ _)) filled
  exact ite_inv (flightFault_inv filled) (ite_inv (inv_congr (giveVec_mem ..) used) (inv_congr (giveResult_mem ..) used))

theorem performAccess_inv {s : State} {f : Flight Regs} (h : s.Inv) : (performAccess s f).Inv := by
  have faulted {i : FaultInfo} : (flightFault s f i).Inv := flightFault_inv h
  unfold performAccess
  dsimp only
  split
  · have filled {k l home} : (if (coreAt s (coreOf f.ctx)).killed then s else fillLine s k l home true).Inv := ite_inv h (fillLine_inv h)
    exact ite_inv (flightFault_inv filled) (inv_congr (finishReturn_mem ..) filled)
  · exact performLoad_inv h
  · exact inv_congr (endFlight_mem _ _) (storeLines_inv (fillMissing_inv h))
  · exact ite_inv faulted (inv_congr ((finishReturn_mem ..).trans (modCtx_mem _ _ _)) h)
  · have written {pa w op val cmp} : (if barsWrite s f.cls pa then s else (sliceRmw s pa w op val cmp).2).Inv := ite_inv h (sliceRmw_inv h)
    exact ite_inv (inv_congr (donePosted_mem _ _) written)
      (ite_inv (inv_congr (finishReturn_mem ..) written) (inv_congr ((finishReturn_mem ..).trans (markCip_mem _ _)) written))
  · exact inv_congr (donePosted_mem _ _) (programWrite_inv h)
  · exact inv_congr ((donePosted_mem _ _).trans (emitFree_mem ..)) (programWrite_inv h)
  · exact inv_congr (finishReturn_mem ..) (performCmls_inv h)
  · exact ite_inv faulted (ite_inv faulted (inv_congr (finishReturn_mem ..) h))
  · exact ite_inv faulted (inv_congr ((finishReturn_mem ..).trans (markCip_mem _ _)) (noteRecord_inv (inv_congr (touchL2_mem ..) h)))
  · exact ite_inv faulted (inv_congr ((finishReturn_mem ..).trans (markCip_mem _ _)) (faultNote_inv h))
  · split
    · exact ite_inv faulted (inv_congr (finishReturn_mem ..) h)
    · exact inv_congr (finishReturn_mem ..) h
  · exact inv_congr (finishReturn_mem ..) h
  · exact performBari_inv h
  · exact testBarrier_inv h
  · exact inv_congr ((donePosted_mem _ _).trans (contribute_mem ..)) h
  · exact performResult_inv h
  · exact inv_congr ((finishReturn_mem ..).trans (markCip_mem _ _)) (launchGraph_inv h)
  · exact ite_inv h (inv_congr (donePosted_mem _ _) (signalNode_inv h))
  · exact ite_inv h (inv_congr ((offerJobs_mem ..).trans ((giveWords_mem ..).trans (endFlight_mem _ _))) h)
  · exact performRemote_inv h
  · exact performRemote_inv h
  · exact performRemote_inv h
  · exact h

theorem execSliceAccess_inv {id : Nat} {s : State} (h : s.Inv) : Goes (execSliceAccess id s) := by
  refine goes_next.mpr ?_
  split
  · exact h
  · have reached {f} : (reachAll s f).2.Inv := inv_congr (reachAll_mem _ _) h
    refine ite_inv (flightFault_inv h) (ite_inv h (ite_inv (ite_inv (performAccess_inv (reportCode_inv h)) (flightFault_inv h)) ?_))
    exact ite_inv (performAccess_inv reached) reached

theorem execPostedStoreAck_inv {id : Nat} {s : State} (h : s.Inv) : Goes (execPostedStoreAck id s) := by
  refine goes_next.mpr ?_
  split
  · exact ite_inv (inv_congr (endFlight_mem _ _) h) h
  · exact h

theorem execAggFlush_inv {core : Nat} {s : State} (h : s.Inv) : Goes (execAggFlush core s) := by
  refine goes_next.mpr ?_
  split
  · exact ite_inv (inv_congr (modCore_mem _ _ _) (aggSend_inv h)) h
  · exact h

@[simp] theorem wakeCore_mem (s : State) (k : Nat) (w : Stall) (mark : Bool) : (wakeCore s k w mark).mem = s.mem := foldl_mem _ (fun _ _ => modCtx_mem _ _ _) _ _

theorem execLineFill_inv {core line : Nat} {s : State} (h : s.Inv) : Goes (execLineFill core line s) := by
  refine goes_next.mpr ?_
  split
  · exact h
  · have reached {who slice pa n cls write} := inv_congr (reachL2_mem s who slice pa n cls write) h
    have gone {who slice pa n cls write f} := inv_congr (modCore_mem _ core f) (@reached who slice pa n cls write)
    refine ite_inv (inv_congr ((wakeCore_mem ..).trans (modCore_mem _ _ _)) h) (ite_inv reached (ite_inv gone (inv_congr (wakeCore_mem ..) ?_)))
    exact ite_inv gone (fillLine_inv gone)

theorem execInstructionFetchFill_inv {core line : Nat} {s : State} (h : s.Inv) : Goes (execInstructionFetchFill core line s) := by
  refine goes_next.mpr ?_
  split
  · exact h
  · have reached {who slice pa n cls write} := inv_congr (reachL2_mem s who slice pa n cls write) h
    exact ite_inv h (ite_inv reached (inv_congr ((wakeCore_mem ..).trans ((installCode_mem ..).trans (modCore_mem _ _ _))) reached))

theorem execL2ChannelCommand_inv {slice line : Nat} {s : State} (h : s.Inv) : Goes (execL2ChannelCommand slice line s) :=
  goes_next.mpr (inv_congr (setSlice_mem _ _ _) h)

theorem execSectorArrival_inv {slice line : Nat} {s : State} (h : s.Inv) : Goes (execSectorArrival slice line s) := by
  refine goes_next.mpr ?_
  dsimp only
  split
  · exact h
  · exact inv_congr ((modL2_mem ..).trans (setSlice_mem _ _ _)) h

@[simp] theorem endWalk_mem (s : State) (v : Nat) (w : Nat × Nat × Nat × Nat) (r : Walk) : (endWalk s v w r).mem = s.mem := by
  unfold endWalk
  extract_lets engine k a b c mine d
  have hb : b.mem = s.mem := by
    unfold b
    split
    · split
      · exact modCluster_mem _ _ _
      · exact (tlbFill_mem _ _ _).trans (modCluster_mem _ _ _)
    · split
      · exact (modCluster_mem _ _ _).trans (modCluster_mem _ _ _)
      · exact (modCtx_mem _ _ _).trans (modCluster_mem _ _ _)
  have hc : c.mem = s.mem := by
    unfold c
    split
    · exact hb
    · exact (modCtx_mem _ _ _).trans hb
  have hd : d.mem = s.mem := by
    unfold d
    split
    · exact hc
    · exact (modCore_mem _ _ _).trans hc
  split
  · split
    · exact hd
    · exact (foldl_mem _ (fun _ _ => prefLine_mem ..) _ _).trans hd
  · exact hd

theorem execPageWalkRead_inv {vertex : Nat} {s : State} (h : s.Inv) : Goes (execPageWalkRead vertex s) := by
  refine goes_next.mpr ?_
  split
  · exact h
  · have reached {who slice pa n cls write} := inv_congr (reachL2_mem s who slice pa n cls write) h
    refine ite_inv h (ite_inv reached (ite_inv (inv_congr (endWalk_mem ..) reached) ?_))
    split
    · exact inv_congr (endWalk_mem ..) reached
    · exact inv_congr (modCluster_mem _ _ _) reached

theorem execTokenWalk_inv {c : Nat} {s : State} (h : s.Inv) : Goes (execTokenWalk c s) := by
  refine goes_next.mpr ?_
  split
  · exact ite_inv h (inv_congr ((modCtx_mem _ _ _).trans (tokenWalkNow_mem ..)) h)
  · exact h

theorem execUncorrectableError_inv {pa : Nat} {s : State} (h : s.Inv) : Goes (execUncorrectableError pa s) :=
  goes_next.mpr (ite_inv (inv_congr (poisonSector_mem _ _) h) h)

theorem execContextReady_inv {c : Nat} {s : State} (h : s.Inv) : Goes (execContextReady c s) := by
  refine goes_next.mpr ?_
  dsimp only
  split
  · refine ite_inv h ?_
    split
    · exact inv_congr (stopCtx_mem _ _ _) h
    · exact inv_congr (modCtx_mem _ _ _) h
  · exact ite_inv h (inv_congr (endAborted_mem _ _) h)
  · exact ite_inv h (inv_congr (modCtx_mem _ _ _) h)
  · exact h

theorem execDataQueueResume_inv {c : Nat} {s : State} (h : s.Inv) : Goes (execDataQueueResume c s) := by
  refine goes_next.mpr ?_
  extract_lets k go ahead other
  have hg : go.Inv := inv_congr (modCtx_mem _ _ _) h
  split
  · exact ite_inv hg h
  · exact ite_inv hg h
  · exact ite_inv hg h
  · exact ite_inv hg h
  · exact h

@[simp] theorem dropWaits_mem (s : State) (c : Nat) : (dropWaits s c).mem = s.mem := rfl

theorem dropWaiter_inv {s : State} {c : Nat} (h : s.Inv) : (dropWaiter s c).Inv := by
  refine foldl_inv (fun t f ht => ?_) h
  split
  · exact inv_congr (dropFlight_mem _ _) (ite_inv (placeWrite_inv ht) ht)
  · exact ht

theorem execBudgetExpiry_inv {c : Nat} {s : State} (h : s.Inv) : Goes (execBudgetExpiry c s) := by
  refine goes_next.mpr ?_
  dsimp only
  split
  · exact h
  · refine ite_inv h (ite_inv ?_ ?_)
    · have counted : (if (ctxOf s c).tried then countEvent s c else s).Inv := ite_inv (inv_congr (countEvent_mem _ _) h) h
      split
      · exact ite_inv h (takeTrap_inv counted)
      · exact ite_inv h (takeTrap_inv (dropWaiter_inv counted))
      · exact ite_inv h (takeTrap_inv h)
      · exact h
    · split
      · exact h
      · have asked {g y} : (setGang s g y).Inv := inv_congr (setGang_mem _ _ _) h
        have stopped {g y f} : (modCtx (endGroup (dropWaits (setGang s g y) c) c) c f).Inv :=
          inv_congr ((modCtx_mem _ _ _).trans ((endGroup_mem _ _).trans (dropWaits_mem _ _))) asked
        split
        · exact asked
        · exact asked
        · exact asked
        · exact asked
        · exact stopped
        · exact stopped
        · exact stopped
        · exact asked

theorem execLockstepOutput_inv {c : Nat} {agree : Bool} {s : State} (h : s.Inv) : Goes (execLockstepOutput c agree s) :=
  goes_next.mpr (ite_inv h (ite_inv (inv_congr (modCtx_mem _ _ _) h)
    (inv_congr ((modCtx_mem _ _ _).trans ((modCtx_mem _ _ _).trans ((endGroup_mem _ _).trans (reportFor_mem ..)))) h)))

end Sys2Proof.Machine
end

