-- ==== Sys2Proof/Proofs/MemoryFormDispatch.lean ====
section
/-! SUPPORT. The canonical form of memory is kept by the send buffer, messages, launches, pairs, ends of traps, kills, services, the aperture and host commands. -/

namespace Sys2Proof.Machine

/-- The state that an entry of a send buffer leaves, where it leaves, has memory in its form. -/
def Departs (r : Option State) : Prop := ∀ t, r = some t → t.Inv

theorem departs_none : Departs none := fun _ e => by cases e
@[simp] theorem departs_some {t : State} : Departs (some t) ↔ t.Inv := ⟨fun h => h t rfl, fun h _ e => by cases e; exact h⟩

theorem Departs.ite {c : Prop} [Decidable c] {r q : Option State} (hr : Departs r) (hq : Departs q) : Departs (if c then r else q) := by split <;> assumption

theorem Departs.map {r : Option State} {f : State → State} (hr : Departs r) (hf : ∀ t, t.Inv → (f t).Inv) : Departs (r.map f) := by
  cases r with
  | none => exact departs_none
  | some t => exact departs_some.mpr (hf t (departs_some.mp hr))

theorem leavePosted_inv {s : State} {c path : Nat} {ordered : Bool} {home : Nat} {op : SliceOp} (h : s.Inv) : Departs (leavePosted s c path ordered home op) :=
  .ite departs_none (departs_some.mpr (sendClear_inv h))

theorem leaveEntry_inv {s : State} {c : Nat} {e : Entry} (h : s.Inv) : Departs (leaveEntry s c e) := by
  have goes {t : State} (m : t.mem = s.mem) : Departs (some t) := departs_some.mpr (inv_congr m h)
  have stays : Departs (some s) := departs_some.mpr h
  have posted {path : Nat} {ordered : Bool} {home : Nat} {op : SliceOp} : Departs (leavePosted s c path ordered home op) := leavePosted_inv h
  unfold leaveEntry
  dsimp only
  split
  · split
    · refine .ite departs_none ?_
      split
      · exact stays
      · exact .ite departs_none (goes (sendToken_mem ..))
    · exact .ite departs_none posted
    · exact .ite departs_none posted
    · exact .ite departs_none (departs_some.mpr (pushPair_inv h))
    · exact .ite departs_none (.ite stays (.ite departs_none stays))
    · exact .ite departs_none (.ite stays (departs_some.mpr (inv_congr (notBefore_mem ..) (flushLines_inv h))))
    · exact .ite departs_none (goes (sendContribution_mem ..))
    · exact .ite departs_none (goes (sendFlight_mem ..))
    · exact .ite departs_none (posted.map fun _ ht => inv_congr (noticeStore_mem _ _) ht)
    · exact .ite departs_none posted
  · exact .ite departs_none (goes (leaveMsg_mem ..))
  · exact .ite departs_none (.ite (departs_some.mpr (aggAdd_inv h)) (.ite departs_none (departs_some.mpr (aggAdd_inv (clearPath_inv h)))))
  · exact .ite departs_none (.ite (goes (reportCtx_mem ..)) (.ite departs_none (goes (putNeighbour_mem ..))))
  · exact .ite departs_none (.ite (goes (emitFree_mem ..)) posted)
  · exact .ite stays (.ite departs_none (goes (sendCopy_mem ..)))
  · exact .ite departs_none (goes (closeGroup_mem ..))

theorem flushFirst_inv {s : State} {c : Nat} {e : Entry} (h : s.Inv) : (flushFirst s c e).Inv := by
  have hg : (if sumsReady s (coreOf c) then aggFlushAll s c else s).Inv := ite_inv (aggFlushAll_inv h) h
  unfold flushFirst
  dsimp only
  split
  · exact ite_inv hg h
  · split
    · exact ite_inv hg h
    · exact h
  · exact h

theorem execSendBufferEntryLeave_inv {c : Nat} {s : State} (h : s.Inv) : Goes (execSendBufferEntryLeave c s) := by
  refine goes_next.mpr (ite_inv h (ite_inv (ite_inv (inv_congr (finishHandler_mem ..) (commitHandler_inv h)) (commitHandler_inv h)) ?_))
  split
  · exact inv_congr (finishHandler_mem ..) h
  · dsimp only
    split
    · exact flushFirst_inv h
    case h_2 e =>
      have ht := leaveEntry_inv (flushFirst_inv h) _ e
      exact ite_inv (inv_congr ((finishHandler_mem ..).trans (modCtx_mem _ _ _)) ht) (inv_congr (modCtx_mem _ _ _) ht)

@[simp] theorem refuse_mem (s : State) (f : MsgFlight) (k code : Nat) : (refuse s f k code).mem = s.mem := rfl

@[simp] theorem hostLaunch_mem (s : State) (target : Word) (l : List Word) : (hostLaunch s target l).mem = s.mem := rfl

@[simp] theorem pumpHost_mem (s : State) : (pumpHost s).mem = s.mem := by
  unfold pumpHost
  dsimp only
  repeat' split
  all_goals simp

@[simp] theorem accepted_mem (s : State) (f : MsgFlight) : (accepted s f).mem = s.mem := by simp [accepted]

@[simp] theorem remoteArrival_mem (s : State) (f : MsgFlight) (d : Nat) : (remoteArrival s f d).mem = s.mem := by
  unfold remoteArrival
  dsimp only
  repeat' split
  all_goals simp

theorem execMessageArrival_inv {id : Nat} {s : State} (h : s.Inv) : Goes (execMessageArrival id s) := by
  refine goes_next.mpr ?_
  split
  · exact h
  · refine ite_inv h (ite_inv (inv_congr (remoteArrival_mem ..) h) (ite_inv h ?_))
    dsimp only
    split
    · exact inv_congr (refuse_mem ..) h
    · exact inv_congr ((accepted_mem ..).trans (putSlot_mem ..)) h

theorem execRefusalReturn_inv {id : Nat} {s : State} (h : s.Inv) : Goes (execRefusalReturn id s) := by
  refine goes_next.mpr ?_
  split
  · exact h
  · split
    · have told {i p m} : (setPhase (finishMsg s m) i p).Inv := inv_congr ((setPhase_mem ..).trans (finishMsg_mem ..)) h
      exact ite_inv h (ite_inv (inv_congr (dropMsg_mem ..) h) (ite_inv told (ite_inv told (inv_congr (setPhase_mem ..) h))))
    · exact h

theorem execMessageRetry_inv {id : Nat} {s : State} (h : s.Inv) : Goes (execMessageRetry id s) := by
  have flown : (flyMsg s id).Inv := inv_congr (flyMsg_mem ..) h
  refine goes_next.mpr ?_
  split
  · exact h
  · dsimp only
    split
    · refine ite_inv h ?_
      split
      · exact inv_congr (modCore_mem _ _ _) flown
      · exact flown
    · exact ite_inv flown h
    · exact h

@[simp] theorem deviceMsg_mem (s : State) (cls dest : Nat) (payload : List Word) : (deviceMsg s cls dest payload).2.mem = s.mem := rfl

theorem execNoticeDelivery_inv {id : Nat} {s : State} (h : s.Inv) : Goes (execNoticeDelivery id s) := by
  have dropped : (dropMsg s id).Inv := inv_congr (dropMsg_mem ..) h
  refine goes_next.mpr ?_
  split
  · exact h
  · split
    · refine ite_inv h (ite_inv (ite_inv h (inv_congr ((pumpHost_mem ..).trans (hostEvent_mem ..)) dropped)) (ite_inv dropped ?_))
      dsimp only
      split
      · exact h
      · split
        · exact h
        · have told {cls dest payload k i m q} : (putSlot (dropMsg (deviceMsg s cls dest payload).2 id) k i m q).Inv :=
            inv_congr ((putSlot_mem ..).trans ((dropMsg_mem ..).trans (deviceMsg_mem ..))) h
          exact ite_inv (inv_congr (modCore_mem _ _ _) told) told
    · exact h

@[simp] theorem launchAt_mem (s : State) (f : MsgFlight) (k : Nat) : (launchAt s f k).mem = s.mem := by
  unfold launchAt
  split <;> simp

theorem execLaunch_inv {id : Nat} {s : State} (h : s.Inv) : Goes (execLaunch id s) := by
  have refused {f k code} : (refuse s f k code).Inv := inv_congr (refuse_mem ..) h
  refine goes_next.mpr ?_
  split
  · exact h
  · exact ite_inv h (ite_inv refused (ite_inv refused (ite_inv (inv_congr ((accepted_mem ..).trans (startLaunch_mem ..)) h) (inv_congr (launchAt_mem ..) h))))

theorem execWaitingLaunchStart_inv {core : Nat} {s : State} (h : s.Inv) : Goes (execWaitingLaunchStart core s) := by
  refine goes_next.mpr ?_
  split
  · exact inv_congr ((startLaunch_mem ..).trans (freeSlot_mem ..)) h
  · exact h

@[simp] theorem startHandler_mem (s : State) (c j : Nat) : (startHandler s c j).mem = s.mem := by
  unfold startHandler
  dsimp only
  repeat' split
  all_goals simp

theorem execRoutineSelect_inv {core : Nat} {s : State} (h : s.Inv) : Goes (execRoutineSelect core s) := by
  refine goes_next.mpr (ite_inv h ?_)
  split
  · exact inv_congr ((startHandler_mem ..).trans (modCore_mem _ _ _)) h
  · exact h

theorem execDequePop_inv {core : Nat} {s : State} (h : s.Inv) : Goes (execDequePop core s) := by
  refine goes_next.mpr ?_
  split
  · exact ite_inv h (inv_congr ((putSlot_mem ..).trans (modCore_mem _ _ _)) h)
  · exact h

theorem execStealProbe_inv {core : Nat} {s : State} (h : s.Inv) : Goes (execStealProbe core s) := by
  have probed {f : Core → Core} : (modCore s core f).Inv := inv_congr (modCore_mem _ _ _) h
  refine goes_next.mpr (ite_inv h (ite_inv probed ?_))
  dsimp only
  split
  · exact probed
  · exact ite_inv probed (inv_congr ((modCore_mem _ _ _).trans (modCore_mem _ _ _)) probed)

theorem execStealArrival_inv {id : Nat} {s : State} (h : s.Inv) : Goes (execStealArrival id s) := by
  refine goes_next.mpr ?_
  split
  · exact ite_inv h (inv_congr ((putSlot_mem ..).trans (modCore_mem _ _ _)) h)
  · exact h

theorem execPairDispatch_inv {core slot : Nat} {s : State} (h : s.Inv) : Goes (execPairDispatch core slot s) := goes_next.mpr (inv_congr (modSlot_mem ..) h)

@[simp] theorem giveTake_mem (s : State) (k i : Nat) (second : Bool) (ws : List Word) (l : List (Nat × Bool)) : (giveTake s k i second ws l).mem = s.mem := rfl

@[simp] theorem giveBack_mem (s : State) (k i : Nat) (r : Word) (taken : Bool) (l : List (Nat × Bool)) : (giveBack s k i r taken l).mem = s.mem := by
  unfold giveBack
  split
  · rfl
  · dsimp only
    split
    · exact (setItem_mem ..).trans (moveTokens_mem ..)
    · exact moveTokens_mem ..

theorem badTake_inv {s : State} {k : Nat} {q : Slot} {p : PairRef} {ref : Word} {code : Nat} (h : s.Inv) : (badTake s k q p ref code).Inv := by
  have hu : (if code = cPoison then poisonAt s (refAddr ref) else s).Inv := ite_inv (poisonAt_inv h) h
  exact inv_congr ((freeSlot_mem ..).trans ((giveBack_mem ..).trans ((giveBack_mem ..).trans (reportFor_mem ..)))) hu

theorem execCellTake_inv {core slot : Nat} {second : Bool} {s : State} (h : s.Inv) : Goes (execCellTake core slot second s) := by
  have bad {q p ref code} : (badTake s core q p ref code).Inv := badTake_inv h
  have spoke {n d : Nat} : (peerSpoke { s with free := n } d).Inv := inv_congr (peerSpoke_mem ..) h
  have taken {t : State} (ht : t.Inv) {old new i ws l m} : (giveTake (moveTokens t old new m) core slot i ws l).Inv :=
    inv_congr ((giveTake_mem ..).trans (moveTokens_mem ..)) ht
  refine goes_next.mpr ?_
  split
  · exact h
  · split
    · dsimp only
      refine ite_inv h (ite_inv (ite_inv h (ite_inv bad (ite_inv bad (ite_inv (badTake_inv h) (taken spoke))))) ?_)
      split
      · exact bad
      · have reached {who slice pa n cls write} := inv_congr (reachL2_mem s who slice pa n cls write) h
        exact ite_inv reached (ite_inv (badTake_inv reached) (ite_inv (badTake_inv reached) (taken (inv_congr (setItem_mem ..) reached))))
    · exact h

theorem readyPair_inv {s : State} {core : Nat} {q : Slot} {p : PairRef} {a b : List Word} (h : s.Inv) : (readyPair s core q p a b).Inv := by
  unfold readyPair
  extract_lets x y late
  have looked := inv_congr (ruleLookup_mem s core x y) h
  generalize ruleLookup s core x y = l at looked ⊢
  obtain ⟨r, u⟩ := l
  dsimp only at looked ⊢
  split
  · exact inv_congr (modSlot_mem ..) (ite_inv looked looked)
  · exact inv_congr ((modCore_mem _ _ _).trans (reportFor_mem ..)) looked

theorem execPairSlotReady_inv {core slot : Nat} {s : State} (h : s.Inv) : Goes (execPairSlotReady core slot s) := by
  refine goes_next.mpr ?_
  split
  · exact h
  · split
    · refine ite_inv h ?_
      split
      · exact badTake_inv h
      · exact ite_inv (readyPair_inv h) (readyPair_inv h)
    · exact h

@[simp] theorem joinLocus_mem (s : State) (f : MsgFlight) (k : Nat) : (joinLocus s f k).mem = s.mem := by
  unfold joinLocus
  dsimp only
  repeat' split
  all_goals simp

theorem execPairPlacement_inv {id : Nat} {s : State} (h : s.Inv) : Goes (execPairPlacement id s) := by
  refine goes_next.mpr ?_
  split
  · exact h
  · split
    · refine ite_inv h (ite_inv (inv_congr (remoteArrival_mem ..) h) (ite_inv (inv_congr (returnMsg_mem ..) h) (ite_inv h ?_)))
      split
      · exact inv_congr (joinLocus_mem ..) h
      · refine ite_inv (inv_congr (modMsg_mem ..) h) ?_
        split
        · exact inv_congr (joinLocus_mem ..) h
        · exact inv_congr (returnMsg_mem ..) h
    · exact h

@[simp] theorem refillQueue_mem (s : State) (d : Nat) : (refillQueue s d).mem = s.mem := by
  unfold refillQueue
  dsimp only
  repeat' split
  all_goals simp

theorem execFaultQueueDelivery_inv {die : Nat} {s : State} (h : s.Inv) : Goes (execFaultQueueDelivery die s) := by
  refine goes_next.mpr ?_
  split
  · split
    · exact h
    · exact inv_congr ((refillQueue_mem ..).trans ((setDie_mem ..).trans ((putSlot_mem ..).trans (freeSlot_mem ..)))) h
  · exact h

theorem execTrapResume_inv {c : Nat} {s : State} (h : s.Inv) : Goes (execTrapResume c s) := goes_next.mpr (ite_inv h (inv_congr (resumeTrap_mem ..) h))

theorem execTrapRelease_inv {c : Nat} {s : State} (h : s.Inv) : Goes (execTrapRelease c s) := goes_next.mpr (ite_inv (inv_congr (releaseTrap_mem ..) h) h)

@[simp] theorem dropMessage_mem (s : State) (c : Nat) : (dropMessage s c).mem = s.mem := by
  unfold dropMessage
  dsimp only
  repeat' split
  all_goals simp

theorem retireMember_inv {s : State} {c : Nat} (h : s.Inv) : (retireMember s c).Inv := by
  unfold retireMember
  dsimp only
  split
  · exact h
  · exact loseGang_inv (inv_congr ((setGang_mem ..).trans ((modCtx_mem ..).trans (leaveBarrier_mem ..))) h)

theorem retireCtx_inv {s : State} {c : Nat} (h : s.Inv) : (retireCtx s c).Inv := by
  unfold retireCtx
  extract_lets x u w y
  have hu : u.Inv := ite_inv (inv_congr (dropMessage_mem ..) h) h
  have hw : w.Inv := retireMember_inv (inv_congr (closeChord_mem ..) hu)
  have hy : y.Inv := ite_inv (inv_congr (idleCtx_mem ..) hw) hw
  exact inv_congr ((raiseLease_mem ..).trans (idleCtx_mem ..)) hy

theorem execTrapRetire_inv {c : Nat} {s : State} (h : s.Inv) : Goes (execTrapRetire c s) := goes_next.mpr (ite_inv (retireCtx_inv h) h)

theorem execCoreKill_inv {core : Nat} {checker : Bool} {s : State} (h : s.Inv) : Goes (execCoreKill core checker s) := goes_next.mpr (killCore_inv h)

@[simp] theorem untakePair_mem (s : State) (k : Nat) (q : Slot) (p : PairRef) : (untakePair s k q p).mem = s.mem := by simp [untakePair]

@[simp] theorem drainSlot_mem (k : Nat) (s : State) (q : Slot) : (drainSlot k s q).mem = s.mem := by
  unfold drainSlot
  dsimp only
  repeat' split
  all_goals simp

@[simp] theorem drainCore_mem (s : State) (k : Nat) : (drainCore s k).mem = s.mem := by
  unfold drainCore
  extract_lets x a b c d
  have hb : b.mem = s.mem := (foldl_mem _ (fun _ _ => drainSlot_mem ..) _ _).trans (modCore_mem _ _ _)
  have hc : c.mem = s.mem := (foldl_mem _ (fun _ _ => sendPair_mem ..) _ _).trans hb
  have hd : d.mem = s.mem := (foldl_mem _ (fun _ _ => sendPairAs_mem ..) _ _).trans hc
  exact (foldl_mem _ (fun _ _ => setItem_mem ..) _ _).trans hd

theorem taintOne_inv {graphs : List Nat} {s : State} {t : Token} (h : s.Inv) : (taintOne graphs s t).Inv := by
  have tainted {u : Token} : (setToken s u).Inv := inv_congr (setToken_mem _ _) h
  unfold taintOne
  split
  · exact h
  · exact ite_inv h (ite_inv (faultRecord_inv tainted) tainted)

theorem taintRequests_inv {s : State} {k : Nat} (h : s.Inv) : (taintRequests s k).Inv := foldl_inv (fun _ _ => taintOne_inv) h

@[simp] theorem reportRegion_mem (s : State) (t : Token) (dead : Nat) : (reportRegion s t dead).mem = s.mem := by
  unfold reportRegion
  split
  · exact freeRegion_mem ..
  · exact sendOut_mem ..

@[simp] theorem reportClaimed_mem (s : State) (dead : Nat → Bool) : (reportClaimed s dead).mem = s.mem := by
  unfold reportClaimed
  exact foldl_mem _ (by intro t x; split <;> simp) _ _

theorem retireOn_inv {k : Nat} {s : State} {g : Nat} (h : s.Inv) : (retireOn k s g).Inv := by
  unfold retireOn
  split
  · exact h
  · exact loseGang_inv (inv_congr (setGang_mem ..) h)

theorem execContainment_inv {core : Nat} {s : State} (h : s.Inv) : Goes (execContainment core s) := by
  refine goes_next.mpr ?_
  split
  · exact h
  · refine ite_inv h ?_
    refine inv_congr (reportClaimed_mem _ _) (ite_inv (inv_congr (modCluster_mem _ _ _) ?_) ?_)
    all_goals
      refine inv_congr (foldl_mem _ (fun _ _ => modCtx_mem _ _ _) _ _) (foldl_inv (fun _ _ => retireOn_inv) ?_)
      refine inv_congr ((drainCore_mem ..).trans ((noteClaimed_mem ..).trans (claimCore_mem ..))) ?_
      exact taintRequests_inv (inv_congr (modCore_mem _ _ _) h)

theorem execRegionRecovery_inv {base : Nat} {clean : Bool} {holder : Nat} {s : State} (h : s.Inv) : Goes (execRegionRecovery base clean holder s) := by
  refine goes_next.mpr ?_
  split
  · split
    · exact h
    case h_2 k i _ =>
      have freed : (freeSlot s k i).Inv := inv_congr (freeSlot_mem ..) h
      exact ite_inv (inv_congr (freeRegion_mem ..) freed) (ite_inv freed (inv_congr (setToken_mem ..) freed))
  · exact h

theorem execRoutineWrite_inv {core index : Nat} {w0 w1 : Word} {s : State} (h : s.Inv) : Goes (execRoutineWrite core index w0 w1 s) :=
  goes_next.mpr (ite_inv h (inv_congr (modCore_mem _ _ _) h))

theorem writeRule_inv {s : State} {i : Nat} {w0 w1 : Word} (h : s.Inv) : (writeRule s i w0 w1).Inv := by
  unfold writeRule
  split
  · exact placeWrite_inv h
  · exact h

theorem execRuleAddition_inv {rules : List RuleWrite} {s : State} (h : s.Inv) : Goes (execRuleAddition rules s) :=
  goes_next.mpr (ite_inv (foldl_inv (fun _ _ => writeRule_inv) h) h)

theorem execRuleRemoval_inv {slots : List Nat} {s : State} (h : s.Inv) : Goes (execRuleRemoval slots s) :=
  goes_next.mpr (inv_congr (foldl_mem _ (fun _ _ => modCore_mem _ _ _) _ _) (foldl_inv (fun _ _ => writeRule_inv) h))

theorem execContextPreemptRequest_inv {c : Nat} {s : State} (h : s.Inv) : Goes (execContextPreemptRequest c s) :=
  goes_next.mpr (ite_inv h (ite_inv (inv_congr ((stealEnds_mem ..).trans (modCtx_mem ..)) h) (ite_inv (inv_congr (modCtx_mem ..) h) h)))

theorem execReservedContextRelease_inv {c : Nat} {s : State} (h : s.Inv) : Goes (execReservedContextRelease c s) :=
  goes_next.mpr (ite_inv (inv_congr (modCtx_mem ..) h) h)

@[simp] theorem addSpill_mem (s : State) (core base : Nat) : (addSpill s core base).mem = s.mem := rfl

theorem execSpillRegionAdd_inv {r : SpillRegion} {s : State} (h : s.Inv) : Goes (execSpillRegionAdd r s) :=
  goes_next.mpr (ite_inv h (inv_congr ((addSpill_mem ..).trans (setDie_mem ..)) h))

theorem execHeapLineRegistration_inv {wire : Bool} {heap base size account : Nat} {s : State} (h : s.Inv) :
    Goes (execHeapLineRegistration wire heap base size account s) := goes_next.mpr (ite_inv h (ite_inv h h))

theorem execAccountPoolAddition_inv {account base lsize : Nat} {s : State} (h : s.Inv) : Goes (execAccountPoolAddition account base lsize s) :=
  goes_next.mpr (ite_inv h (inv_congr (setAccount_mem ..) h))

/-- The stamps of a batch graph's slot area rise and its bytes stay. -/
theorem bumpLines_mem (s : State) (l n : Nat) : ((List.range n).foldl (fun t i => bumpLine t (l + i)) s).mem = s.mem :=
  foldl_mem _ (fun _ _ => bumpLine_mem ..) _ _

theorem registered_inv {s : State} {regs : Store Nat} {owners : Store Nat} (h : s.Inv) : ({ s with batchRegs := regs, batchOwners := owners } : State).Inv := h

theorem execBatchGraphRegisterWrite_inv {graph : Nat} {l : BatchLoad} {s : State} (h : s.Inv) : Goes (execBatchGraphRegisterWrite graph l s) := by
  refine goes_next.mpr (ite_inv h ?_)
  split
  · exact h
  · exact registered_inv (inv_congr (bumpLines_mem ..) (zeroFill_inv h))

@[simp] theorem hostReach_mem (s : State) (write : Bool) (l : List (Nat × Nat × Nat × Nat)) : (hostReach s write l).2.mem = s.mem :=
  List.foldlRecOn (motive := fun a : Bool × State => a.2.mem = s.mem) _ _ rfl fun _ ha _ _ => (reachL2_mem ..).trans ha

@[simp] theorem completeRead_mem (s : State) (requester status : Nat) (data : List Byte) : (completeRead s requester status data).mem = s.mem := rfl

theorem execApertureRead_inv {requester offset count : Nat} {s : State} (h : s.Inv) : Goes (execApertureRead requester offset count s) := by
  refine goes_next.mpr (ite_inv h ?_)
  split
  · exact inv_congr (completeRead_mem ..) h
  · have reached {w l} : (hostReach s w l).2.Inv := inv_congr (hostReach_mem ..) h
    exact ite_inv reached (inv_congr (completeRead_mem ..) reached)

theorem performPart_inv {s : State} {va pa : Nat} {data : List Byte} (h : s.Inv) : (performPart s va pa data).Inv := by
  have written {p l} : (programWrite s 0 p l).Inv := programWrite_inv h
  unfold performPart
  refine ite_inv ?_ ?_
  · dsimp only
    split
    · exact ite_inv (inv_congr (noticeStore_mem ..) written) written
    · exact written
  · have performed {p l} : (performWrite s p l).Inv := performWrite_inv h
    dsimp only
    split
    · exact h
    · exact ite_inv performed (ite_inv performed (ite_inv performed performed))

theorem tryPosted_inv {s : State} {va : Nat} {data : List Byte} (h : s.Inv) : (tryPosted s va data).2.Inv := by
  unfold tryPosted
  dsimp only
  split
  · exact h
  · split
    · exact h
    · have reached {w l} : (hostReach s w l).2.Inv := inv_congr (hostReach_mem ..) h
      exact ite_inv (foldl_inv (fun _ _ => performPart_inv) reached) reached

@[simp] theorem keepPosted_mem (s : State) (requester va : Nat) (data : List Byte) : (keepPosted s requester va data).mem = s.mem := rfl

theorem execApertureWrite_inv {requester offset : Nat} {data : List Byte} {s : State} (h : s.Inv) : Goes (execApertureWrite requester offset data s) :=
  goes_next.mpr (ite_inv h (ite_inv (inv_congr (keepPosted_mem ..) h) (ite_inv (tryPosted_inv h) (inv_congr (keepPosted_mem ..) (tryPosted_inv h)))))

theorem drainPosted_inv {s : State} (h : s.Inv) : (drainPosted s).Inv := by
  unfold drainPosted
  split
  · exact h
  · exact ite_inv (tryPosted_inv h) (tryPosted_inv h)

@[simp] theorem controlPart_mem (s : State) (offset : Nat) (data : List Byte) : (controlPart s offset data).mem = s.mem := by
  unfold controlPart
  dsimp only
  repeat' split
  all_goals simp

@[simp] theorem controlParts_mem (fuel : Nat) : ∀ (offset : Nat) (data : List Byte) (s : State), (controlParts fuel offset data s).mem = s.mem := by
  induction fuel with
  | zero => exact fun _ _ _ => rfl
  | succ fuel ih =>
    intro offset data s
    rw [controlParts]
    split
    · rfl
    · exact (ih ..).trans (controlPart_mem ..)

theorem execControlRegisterWrite_inv {requester offset : Nat} {data : List Byte} {s : State} (h : s.Inv) : Goes (execControlRegisterWrite requester offset data s) :=
  goes_next.mpr (ite_inv h (inv_congr (controlParts_mem ..) h))

theorem execLtarget_inv {requester : Nat} {target : Word} {s : State} (h : s.Inv) : Goes (execLtarget requester target s) :=
  goes_next.mpr (ite_inv h (ite_inv (inv_congr (hostLaunch_mem ..) h) h))

theorem execHostLaunchRetry_inv {id : Nat} {s : State} (h : s.Inv) : Goes (execHostLaunchRetry id s) := by
  refine goes_next.mpr ?_
  split
  · exact h
  · split
    · exact ite_inv h (inv_congr (flyMsg_mem ..) h)
    · exact h

theorem startCommand_inv {s : State} {opcode tag : Nat} {operands : List Nat} {work : State → State × Nat × Option Word} (h : s.Inv)
    (hw : ∀ t, t.Inv → (work t).1.Inv) : Goes (.next (startCommand s opcode tag operands work)) := by
  refine goes_next.mpr (ite_inv h ?_)
  have worked := hw s h
  generalize work s = r at worked ⊢
  obtain ⟨t, status, value⟩ := r
  cases value with
  | none => exact worked
  | some v => exact worked

theorem execUnmap_inv {tag root va : Nat} {s : State} (h : s.Inv) : Goes (execUnmap tag root va s) := by
  refine startCommand_inv h fun t ht => ?_
  dsimp only
  split
  · exact ht
  · refine inv_congr (foldl_mem _ (fun _ _ => modCluster_mem _ _ _) _ _) (inv_congr (foldl_mem _ (fun _ _ => modCore_mem _ _ _) _ _) ?_)
    split
    · exact placeWrite_inv ht
    · exact ht

theorem execQuota_inv {tag account units : Nat} {s : State} (h : s.Inv) : Goes (execQuota tag account units s) := by
  refine startCommand_inv h fun t ht => ?_
  dsimp only
  split
  · exact ht
  · exact inv_congr (setAccount_mem ..) ht

theorem execTelemetry_inv {tag buffer : Nat} {select : Word} {s : State} (h : s.Inv) : Goes (execTelemetry tag buffer select s) := by
  refine startCommand_inv h fun t ht => ?_
  split
  · exact ht
  · exact inv_congr (hostWrite_mem ..) ht

theorem execClrstart_inv {tag : Nat} {s : State} (h : s.Inv) : Goes (execClrstart tag s) := startCommand_inv h fun _ ht => ht

theorem execFwstage_inv {tag image size : Nat} {s : State} (h : s.Inv) : Goes (execFwstage tag image size s) := by
  refine startCommand_inv h fun t ht => ?_
  dsimp only
  split <;> exact ht

theorem execAttest_inv {tag buffer : Nat} {s : State} (h : s.Inv) : Goes (execAttest tag buffer s) := by
  refine startCommand_inv h fun t ht => ?_
  dsimp only
  split
  · exact ht
  · exact inv_congr (hostWrite_mem ..) ht

theorem execPowerlim_inv {tag watts : Nat} {s : State} (h : s.Inv) : Goes (execPowerlim tag watts s) := by
  refine startCommand_inv h fun t ht => ?_
  split <;> exact ht

end Sys2Proof.Machine
end

