-- ==== Sys2Proof/Proofs/MemoryFormOutside.lean ====
section
/-! SUPPORT. The canonical form of memory is kept by the host ring, links and peers, power and start-up, vector instructions and what comes from outside. -/

namespace Sys2Proof.Machine

theorem execUnknownCommand_inv {tag opcode : Nat} {s : State} (h : s.Inv) : Goes (execUnknownCommand tag opcode s) :=
  goes_next.mpr (ite_inv h (goes_next.mp (startCommand_inv h fun _ ht => ht)))

theorem host_inv {s : State} {x : HostSide} (h : s.Inv) : ({ s with host := x } : State).Inv := h
theorem free_inv {s : State} {n : Nat} (h : s.Inv) : ({ s with free := n } : State).Inv := h

theorem abortRing_inv (n : Nat) : ∀ {s : State}, s.Inv → (abortRing n s).Inv := by
  induction n with
  | zero => exact fun h => h
  | succ n ih =>
    intro s h
    rw [abortRing]
    exact ih (host_inv (inv_congr (writeEvent_mem ..) (inv_congr (freeWord_mem s) h)))

theorem serveResync_inv {s : State} (h : s.Inv) : (serveResync s).Inv := by
  unfold serveResync
  split
  · exact h
  · exact ite_inv h (host_inv (inv_congr (writeEvent_mem ..) (abortRing_inv _ (inv_congr (hostWrite_mem ..) (free_inv h)))))

theorem execResync_inv {requester : Nat} {buffer : Word} {s : State} (h : s.Inv) : Goes (execResync requester buffer s) :=
  goes_next.mpr (ite_inv h (serveResync_inv h))

theorem execRingtail_inv {requester : Nat} {value : Word} {s : State} (h : s.Inv) : Goes (execRingtail requester value s) := goes_next.mpr (ite_inv h h)

@[simp] theorem writeBacklog_mem (n : Nat) : ∀ s : State, (writeBacklog n s).mem = s.mem := by
  induction n with
  | zero => exact fun _ => rfl
  | succ n ih =>
    intro s
    rw [writeBacklog]
    split
    · rfl
    · split
      · rfl
      · exact (ih _).trans (writeEvent_mem ..)

theorem execEvhead_inv {requester : Nat} {value : Word} {s : State} (h : s.Inv) : Goes (execEvhead requester value s) :=
  goes_next.mpr (ite_inv h (serveResync_inv (inv_congr (writeBacklog_mem ..) h)))

theorem execHostCommandCompletion_inv {s : State} (h : s.Inv) : Goes (execHostCommandCompletion s) := by
  refine goes_next.mpr ?_
  split
  · exact h
  · exact ite_inv h (serveResync_inv (host_inv (inv_congr (writeEvent_mem ..) h)))

@[simp] theorem dropDirty_mem (s : State) (port : Nat) (l : Option L2Line) : (dropDirty s port l).1.mem = s.mem := by
  unfold dropDirty
  split
  · rfl
  · split
    · rfl
    · refine foldl_mem _ (fun t i => ?_) _ _
      split
      · exact poisonSector_mem ..
      · rfl

@[simp] theorem dropDirtySet_mem (s : State) (port slice set : Nat) : (dropDirtySet s port slice set).mem = s.mem := by
  have dropped (l : List (Option L2Line)) : (l.foldl (fun (a : State × List (Option L2Line)) y =>
      let (t, z) := dropDirty a.1 port y
      (t, a.2 ++ [z])) (s, [])).1.mem = s.mem :=
    List.foldlRecOn (motive := fun a : State × List (Option L2Line) => a.1.mem = s.mem) _ _ rfl fun _ ha _ _ => (dropDirty_mem ..).trans ha
  exact (setSlice_mem ..).trans (dropped _)

theorem execCxlLinkDown_inv {port : Nat} {s : State} (h : s.Inv) : Goes (execCxlLinkDown port s) :=
  goes_next.mpr (ite_inv h (inv_congr ((hostEvent_mem ..).trans (foldl_mem _ (fun _ _ => foldl_mem _ (fun _ _ => dropDirtySet_mem ..) _ _) _ s)) h))

theorem loseFlight_inv {s : State} {id : Nat} (h : s.Inv) : (loseFlight s id).Inv := by
  unfold loseFlight
  split
  · exact h
  · exact remoteFails_inv h

theorem loseTransfer_inv {s : State} {port id : Nat} (h : s.Inv) : (loseTransfer s port id).Inv := by
  unfold loseTransfer
  split
  · split
    · exact ite_inv (failTransfer_inv h) h
    · exact h
  · exact h

theorem loseTake_inv {s : State} {port n : Nat} (h : s.Inv) : (loseTake s port n).Inv := by
  unfold loseTake
  dsimp only
  split
  · exact h
  · split
    · exact ite_inv h (badTake_inv h)
    · exact h

theorem execRalquelPortDown_inv {port : Nat} {lost : List Nat} {s : State} (h : s.Inv) : Goes (execRalquelPortDown port lost s) :=
  goes_next.mpr (ite_inv h (foldl_inv (fun _ _ ht => ite_inv (loseTake_inv ht) (loseTransfer_inv ht)) (foldl_inv (fun _ _ => loseFlight_inv) h)))

theorem execStopNotice_inv {s : State} (h : s.Inv) : Goes (execStopNotice s) := goes_next.mpr (ite_inv h h)

theorem execStopNoticeReceived_inv {device : Nat} {s : State} (h : s.Inv) : Goes (execStopNoticeReceived device s) := by
  have spoke : (peerSpoke s device).Inv := inv_congr (peerSpoke_mem ..) h
  exact goes_next.mpr (ite_inv h (ite_inv spoke spoke))

theorem execPeerAnswersAgain_inv {device : Nat} {s : State} (h : s.Inv) : Goes (execPeerAnswersAgain device s) := by
  have spoke : (peerSpoke s device).Inv := inv_congr (peerSpoke_mem ..) h
  exact goes_next.mpr spoke

theorem execPeerLost_inv {device : Nat} {s : State} (h : s.Inv) : Goes (execPeerLost device s) := by
  refine goes_next.mpr (ite_inv h ?_)
  dsimp only
  split
  · exact inv_congr (hostEvent_mem ..) h
  · exact inv_congr ((reportClaimed_mem ..).trans ((noteClaimed_mem ..).trans ((claimAll_mem ..).trans (hostEvent_mem ..)))) h

@[simp] theorem thermalEvent_mem (s : State) (die cause : Nat) : (thermalEvent s die cause).mem = s.mem := by
  unfold thermalEvent
  dsimp only
  repeat' split
  all_goals simp

theorem execLimitReached_inv {die cause : Nat} {s : State} (h : s.Inv) : Goes (execLimitReached die cause s) :=
  goes_next.mpr (ite_inv (ite_inv (inv_congr (thermalEvent_mem ..) h) h) h)

theorem execEmergencyLimit_inv {die : Nat} {s : State} (h : s.Inv) : Goes (execEmergencyLimit die s) := by
  have told {n : Nat} : (thermalEvent { s with free := n } die 3).Inv := inv_congr (thermalEvent_mem ..) h
  exact goes_next.mpr (ite_inv h (ite_inv told h))

theorem execClockRestart_inv {s : State} (h : s.Inv) : Goes (execClockRestart s) := goes_next.mpr (ite_inv h h)

@[simp] theorem setEntry_mem (s : State) (i : Nat) (e : Word × Word) : (setEntry s i e).mem = s.mem := rfl

@[simp] theorem carveSpill_mem (s : State) (core base : Nat) : (carveSpill s core base).mem = s.mem := rfl

@[simp] theorem setCapacity_mem (s : State) (k n : Nat) : (setCapacity s k n).mem = s.mem :=
  (foldl_mem _ (fun _ _ => modCtx_mem _ _ _) _ _).trans (modCore_mem _ _ _)

@[simp] theorem stepEffect_mem (s : State) (cfg : StartConfig) (i outcome : Nat) : (stepEffect s cfg i outcome).mem = s.mem := by
  unfold stepEffect
  split
  · split <;> rfl
  · refine foldl_mem _ (fun t e => ?_) _ _
    split
    · exact setCapacity_mem ..
    · rfl
  · split
    · exact foldl_mem _ (fun _ _ => modCluster_mem _ _ _) _ _
    · rfl
  · refine foldl_mem _ (fun t e => ?_) _ _
    split
    · exact carveSpill_mem ..
    · rfl
  · split <;> rfl
  · split <;> rfl
  · rfl
  · rfl

@[simp] theorem startSteps_mem (cfg : StartConfig) (l : List (Bool × Nat × Nat)) : ∀ (i : Nat) (s : State), (startSteps cfg i l s).mem = s.mem := by
  induction l with
  | nil => exact fun _ _ => rfl
  | cons e l ih =>
    intro i s
    rw [startSteps]
    split
    · rfl
    · extract_lets o u
      have hu : u.mem = s.mem := setEntry_mem ..
      split
      · exact hu
      · exact (ih ..).trans ((stepEffect_mem ..).trans hu)

theorem powerOff_inv {s : State} (h : s.Inv) : (powerOff s).Inv := ok_filter _ _ _ h

theorem execStartUp_inv {cfg : StartConfig} {s : State} (h : s.Inv) : Goes (execStartUp cfg s) := goes_next.mpr (inv_congr (startSteps_mem ..) (powerOff_inv h))

theorem execPowerLoss_inv {step : Nat} {s : State} (h : s.Inv) : Goes (execPowerLoss step s) :=
  goes_next.mpr (ite_inv (inv_congr (setEntry_mem ..) (powerOff_inv h)) (powerOff_inv h))

theorem execVadd_inv {o : OpV} {s : State} (h : s.Inv) : Goes (execVadd o s) := runSeq_inv h fun _ => arith2_inv

theorem execVsub_inv {o : OpV} {s : State} (h : s.Inv) : Goes (execVsub o s) := runSeq_inv h fun _ => arith2_inv

theorem execVmul_inv {o : OpV} {s : State} (h : s.Inv) : Goes (execVmul o s) := runSeq_inv h fun _ => arith2_inv

theorem execVfma_inv {o : OpV} {s : State} (h : s.Inv) : Goes (execVfma o s) := runSeq_inv h fun _ => laneOp_inv

theorem execVmin_inv {o : OpV} {s : State} (h : s.Inv) : Goes (execVmin o s) := runSeq_inv h fun _ => arith2_inv

theorem execVmax_inv {o : OpV} {s : State} (h : s.Inv) : Goes (execVmax o s) := runSeq_inv h fun _ => arith2_inv

theorem execVabs_inv {o : OpV} {s : State} (h : s.Inv) : Goes (execVabs o s) := runSeq_inv h fun _ => lane1_inv

theorem execVneg_inv {o : OpV} {s : State} (h : s.Inv) : Goes (execVneg o s) := runSeq_inv h fun _ => lane1_inv

/-- Reads of q ports take what they read out of the queues and leave memory alone. -/
theorem readSlots_inv {s t : State} {o : OpV} {n : Nat} {a b x : Vec} (e : readSlots s o n = (a, b, x, t)) (h : s.Inv) : t.Inv :=
  inv_congr ((congrArg (fun r : Vec × Vec × Vec × State => r.2.2.2.mem) e).symm.trans (readSlots_mem ..)) h

theorem execVdot_inv {o : OpV} {s : State} (h : s.Inv) : Goes (execVdot o s) := by
  refine runSeq_inv h fun t ht => ?_
  split
  case h_1 e => exact (portsServe_inv ht).error e
  case h_2 =>
    split
    case h_1 e => exact inv_congr ((raiseFlags_mem ..).trans (writeDest_mem ..)) (readSlots_inv e ht)

theorem execVcmp_inv {o : OpV} {s : State} (h : s.Inv) : Goes (execVcmp o s) := by
  refine runSeq_inv h fun t ht => ?_
  split
  case h_1 e => exact (portsServe_inv ht).error e
  case h_2 =>
    split
    case h_1 e => exact inv_congr ((raiseFlags_mem ..).trans (wp_mem ..)) (readSlots_inv e ht)

theorem execVsel_inv {o : OpV} {s : State} (h : s.Inv) : Goes (execVsel o s) := by
  refine runSeq_inv h fun t ht => ?_
  split
  case h_1 e => exact (portsServe_inv ht).error e
  case h_2 =>
    split
    case h_1 e => exact inv_congr (writeDest_mem ..) (readSlots_inv e ht)

theorem execVcvt_inv {o : OpV} {s : State} (h : s.Inv) : Goes (execVcvt o s) := by
  refine runSeq_inv h fun t ht => ?_
  split
  case h_1 e => exact (portsServe_inv ht).error e
  case h_2 =>
    split
    case h_1 e => exact inv_congr ((raiseFlags_mem ..).trans (writeDest_mem ..)) (readSlots_inv e ht)

theorem execVred_inv {o : OpV} {s : State} (h : s.Inv) : Goes (execVred o s) := by
  refine runSeq_inv h fun t ht => ?_
  split
  case h_1 e => exact (portsServe_inv ht).error e
  case h_2 =>
    split
    case h_1 e => exact inv_congr ((raiseFlags_mem ..).trans (writeDest_mem ..)) (readSlots_inv e ht)

theorem execVperm_inv {o : OpV} {s : State} (h : s.Inv) : Goes (execVperm o s) := runSeq_inv h fun _ => laneOp_inv

theorem execVbcast_inv {o : OpV} {s : State} (h : s.Inv) : Goes (execVbcast o s) := runSeq_inv h fun _ ht => .ite (laneOp_inv ht) (laneOp_inv ht)

theorem execVmov_inv {o : OpV} {s : State} (h : s.Inv) : Goes (execVmov o s) := by
  refine runSeq_inv h fun t ht => .ite ?_ (laneOp_inv ht)
  split
  case h_1 e => exact (portsServe_inv ht).error e
  case h_2 =>
    split
    case h_1 e => exact inv_congr (wg_mem ..) (readSlots_inv e ht)

theorem execViota_inv {o : OpV} {s : State} (h : s.Inv) : Goes (execViota o s) := runSeq_inv h fun _ => laneOp_inv

theorem execVand_inv {o : OpV} {s : State} (h : s.Inv) : Goes (execVand o s) := runSeq_inv h fun _ => bits2_inv

theorem execVor_inv {o : OpV} {s : State} (h : s.Inv) : Goes (execVor o s) := runSeq_inv h fun _ => bits2_inv

theorem execVxor_inv {o : OpV} {s : State} (h : s.Inv) : Goes (execVxor o s) := runSeq_inv h fun _ => bits2_inv

theorem shiftOp_inv {s : State} {o : OpV} {g : Nat → Nat → Nat → Nat} (h : s.Inv) : Ends State.Inv (shiftOp s o g) := .ite (laneOp_inv h) (laneOp_inv h)

theorem execVshl_inv {o : OpV} {s : State} (h : s.Inv) : Goes (execVshl o s) := runSeq_inv h fun _ => shiftOp_inv

theorem execVshr_inv {o : OpV} {s : State} (h : s.Inv) : Goes (execVshr o s) := runSeq_inv h fun _ => shiftOp_inv

theorem funcOp_inv {s : State} {o : OpV} {g : Num → Num × Flags} (h : s.Inv) : Ends State.Inv (funcOp s o g) := by
  refine .ite (parkOn_inv.mpr h) ?_
  split
  case h_1 e => exact (lane1_inv h).error e
  case h_2 e => exact inv_congr (modCore_mem _ _ _) ((lane1_inv h).ok e)

theorem execVrcp_inv {o : OpV} {s : State} (h : s.Inv) : Goes (execVrcp o s) := runSeq_inv h fun _ => funcOp_inv

theorem execVrsq_inv {o : OpV} {s : State} (h : s.Inv) : Goes (execVrsq o s) := runSeq_inv h fun _ => funcOp_inv

theorem execVexp2_inv {o : OpV} {s : State} (h : s.Inv) : Goes (execVexp2 o s) := runSeq_inv h fun _ => funcOp_inv

theorem execVlog2_inv {o : OpV} {s : State} (h : s.Inv) : Goes (execVlog2 o s) := runSeq_inv h fun _ => funcOp_inv

theorem execPand_inv {o : OpV} {s : State} (h : s.Inv) : Goes (execPand o s) := runPure_inv h fun _ ht => inv_congr (wp_mem ..) ht

theorem execPor_inv {o : OpV} {s : State} (h : s.Inv) : Goes (execPor o s) := runPure_inv h fun _ ht => inv_congr (wp_mem ..) ht

theorem execPnot_inv {o : OpV} {s : State} (h : s.Inv) : Goes (execPnot o s) := runPure_inv h fun _ ht => inv_congr (wp_mem ..) ht

theorem execPmov_inv {o : OpV} {s : State} (h : s.Inv) : Goes (execPmov o s) :=
  runPure_inv h fun _ ht => ite_inv (inv_congr (wp_mem ..) ht) (ite_inv (inv_congr (wp_mem ..) ht) (inv_congr (wg_mem ..) ht))

@[simp] theorem controlRead_mem (requester offset count : Nat) (s : State) : (controlRead requester offset count s).mem = s.mem := by
  unfold controlRead
  split <;> simp

@[simp] theorem answer_mem (s : State) (agent code : Nat) (l : List Word) : (answer s agent code l).mem = s.mem := rfl

@[simp] theorem serveToken_mem (s : State) (agent va : Nat) (kind : TokenKind) (holder : Word) (xfer : BitVec 32) (again : Bool) :
    (serveToken s agent va kind holder xfer again).mem = s.mem := by
  unfold serveToken
  dsimp only
  split
  · exact answer_mem ..
  · split
    · exact answer_mem ..
    · split
      · exact answer_mem ..
      · split
        · exact answer_mem ..
        · split
          · exact answer_mem ..
          · exact (answer_mem ..).trans (applyToken_mem ..)

@[simp] theorem serveClean_mem (s : State) (agent va : Nat) : (serveClean s agent va).mem = s.mem := by
  unfold serveClean
  split <;> simp

theorem performServed_inv {s : State} {agent va pa cls : Nat} {what : PeerRequest} (h : s.Inv) : (performServed s agent va pa cls what).Inv := by
  unfold performServed
  split
  · exact inv_congr (answer_mem ..) h
  · refine inv_congr (answer_mem ..) ?_
    have written {p l} : (programWrite s cls p l).Inv := programWrite_inv h
    split
    · exact ite_inv (inv_congr (noticeStore_mem ..) written) written
    · exact written
  · exact inv_congr (answer_mem ..) (ite_inv h (sliceRmw_inv h))
  · exact h

theorem serveAccess_inv {s : State} {agent va : Nat} {what : PeerRequest} (h : s.Inv) : (serveAccess s agent va what).Inv := by
  unfold serveAccess
  obtain ⟨use, n⟩ := servedUse what
  dsimp only
  refine ite_inv (inv_congr (answer_mem ..) h) ?_
  split
  · exact inv_congr (answer_mem ..) h
  · split
    · exact inv_congr (answer_mem ..) h
    · have reached {who slice pa n cls write} := inv_congr (reachL2_mem s who slice pa n cls write) h
      exact ite_inv reached (ite_inv (inv_congr (answer_mem ..) (poisonAt_inv reached)) (performServed_inv reached))

@[simp] theorem injectFlight_mem (s : State) (home : Nat) (ea : Word) (op : SliceOp) : (injectFlight s home ea op).mem = s.mem := rfl

theorem serveTake_inv {s : State} {agent slot : Nat} {ref : Word} {pa home : Nat} (h : s.Inv) : (serveTake s agent slot ref pa home).Inv := by
  unfold serveTake
  extract_lets a
  split
  case h_1 ok u e =>
    have hu : u.Inv := inv_congr ((congrArg (fun r : Bool × State => r.2.mem) e).symm.trans (reachL2_mem ..)) h
    have told {c l} : (answer u agent c l).Inv := inv_congr (answer_mem ..) hu
    refine ite_inv hu (ite_inv told (ite_inv (inv_congr (answer_mem ..) (poisonAt_inv hu)) ?_))
    exact inv_congr ((answer_mem ..).trans ((moveTokens_mem ..).trans (setItem_mem ..))) hu

theorem serveNet_inv {s : State} {agent : Nat} {ref : Word} {what : PeerRequest} (h : s.Inv) : (serveNet s agent ref what).Inv := by
  have answered {c l} : (answer s agent c l).Inv := inv_congr (answer_mem ..) h
  have posted {home op c l} : (answer (injectFlight s home ref op) agent c l).Inv := inv_congr ((answer_mem ..).trans (injectFlight_mem ..)) h
  unfold serveNet
  extract_lets a
  split
  · exact answered
  · cases what with
    | cset w x => exact posted
    | link other => exact posted
    | cxld =>
      have reached {who slice pa n cls write} := inv_congr (reachL2_mem s who slice pa n cls write) h
      have told {who slice pa n cls write c l} : (answer (reachL2 s who slice pa n cls write).2 agent c l).Inv := inv_congr (answer_mem ..) reached
      exact ite_inv reached (ite_inv told (ite_inv (inv_congr (answer_mem ..) (poisonAt_inv reached)) told))
    | take slot => exact serveTake_inv h
    | release live => exact ite_inv (inv_congr (setItem_mem ..) h) h
    | load | store | rmw | token | clean | stat => exact h

theorem serve_inv {agent : Nat} {ref : Word} {what : PeerRequest} {s : State} (h : s.Inv) : (serve agent ref what s).Inv := by
  unfold serve
  extract_lets va mine net u
  split
  · exact h
  · have hu : u.Inv := inv_congr (peerSpoke_mem ..) h
    clear_value u
    have tokened {kind holder x again} : (serveToken u agent va kind holder x again).Inv := inv_congr (serveToken_mem ..) hu
    split
    · exact ite_inv (serveAccess_inv hu) hu
    · exact ite_inv (serveAccess_inv hu) hu
    · exact ite_inv (serveAccess_inv hu) hu
    · refine ite_inv hu ?_
      split <;> exact tokened
    · exact ite_inv (inv_congr (serveClean_mem ..) hu) hu
    · exact ite_inv (inv_congr (answer_mem ..) hu) hu
    · exact ite_inv (serveNet_inv hu) hu
    · exact ite_inv (serveNet_inv hu) hu
    · exact ite_inv (serveNet_inv hu) hu
    · exact ite_inv (serveNet_inv hu) hu
    · exact ite_inv (serveNet_inv hu) hu

@[simp] theorem arrive_mem (port : Nat) (a : Arrival) (s : State) : (arrive port a s).mem = s.mem := by
  unfold arrive
  split <;> simp

@[simp] theorem openRegion_mem (base : Nat) (s : State) : (openRegion base s).mem = s.mem := by
  unfold openRegion
  split
  · split
    · rfl
    · exact (foldl_mem _ (fun _ _ => uncache_mem ..) _ _).trans (setToken_mem ..)
  · rfl

@[simp] theorem clearCounters_mem (core : Option Nat) (s : State) : (clearCounters core s).mem = s.mem := by
  unfold clearCounters
  split <;> simp

@[simp] theorem setRecovery_mem (account core : Nat) (s : State) : (setRecovery account core s).mem = s.mem := by
  unfold setRecovery
  split <;> simp

@[simp] theorem foreignMove_mem (old new_ : Word) (s : State) : (foreignMove old new_ s).mem = s.mem := by
  unfold foreignMove
  extract_lets slotAgent cell slot
  split
  · exact moveTokens_mem ..
  · rfl

theorem makePath_inv {va : Nat} {tables : List Nat} {fuel : Nat} : ∀ {l table : Nat} {s : State} {x : Nat × State}, s.Inv →
    makePath va tables fuel l table s = some x → x.2.Inv := by
  induction fuel with
  | zero => exact fun _ e => by cases e
  | succ fuel ih =>
    intro l table s x h e
    rw [makePath] at e
    split at e
    · cases e
      exact h
    · extract_lets a at e
      split at e
      · exact ih h e
      · split at e
        · cases e
        · exact ih (performWrite_inv (zeroFill_inv h)) e
      · cases e

theorem loadPage_inv {va pa part : Nat} {tables : List Nat} {s : State} (h : s.Inv) : (loadPage va pa part tables s).Inv := by
  refine ite_inv h ?_
  split
  · exact h
  case h_2 e => exact ite_inv h (performWrite_inv (makePath_inv h e))

theorem loadRoutine_inv {s : State} {e : Nat × Word × Word} (h : s.Inv) : Departs (loadRoutine s e) :=
  .ite departs_none (departs_some.mpr (inv_congr (foldl_mem _ (fun _ _ => modCore_mem _ _ _) _ _) h))

theorem loadRoutines_inv {l : List (Nat × Word × Word)} {s : State} (h : s.Inv) : (loadRoutines l s).Inv := by
  have loaded : Departs (l.foldl (fun (a : Option State) e => a.bind (fun t => loadRoutine t e)) (some s)) := by
    refine List.foldlRecOn (motive := Departs) _ _ (departs_some.mpr h) fun a ha e _ => ?_
    cases a with
    | none => exact departs_none
    | some t => exact loadRoutine_inv (departs_some.mp ha)
  unfold loadRoutines
  generalize l.foldl (fun (a : Option State) e => a.bind (fun t => loadRoutine t e)) (some s) = r at loaded ⊢
  cases r with
  | none => exact h
  | some t => exact departs_some.mp loaded

theorem placeItem_inv {wire : Bool} {addr : Nat} {s : State} (h : s.Inv) : (placeItem wire addr s).Inv := ite_inv (inv_congr (setItem_mem ..) h) h

theorem loadRecord_inv {va : Nat} {words : List Word} {s : State} (h : s.Inv) : (loadRecord va words s).Inv := by
  unfold loadRecord
  split
  · exact ite_inv (performWrite_inv h) h
  · exact h

@[simp] theorem loseQueue_mem (core port : Nat) (s : State) : (loseQueue core port s).mem = s.mem := by
  unfold loseQueue
  split <;> simp

theorem outside_inv {o : External} {s : State} (h : s.Inv) : (outside o s).Inv := by
  refine ite_inv h ?_
  cases o with
  | controlRead requester offset count => exact inv_congr (controlRead_mem ..) h
  | serve agent ref what => exact serve_inv h
  | arrive port a => exact inv_congr (arrive_mem ..) h
  | openRegion base => exact inv_congr (openRegion_mem ..) h
  | clearCounters core => exact inv_congr (clearCounters_mem ..) h
  | setRecovery account core => exact inv_congr (setRecovery_mem ..) h
  | foreignMove old new_ => exact inv_congr (foreignMove_mem ..) h
  | loadPage va pa part tables => exact loadPage_inv h
  | loadRoutines l => exact loadRoutines_inv h
  | loadRecord va words => exact loadRecord_inv h
  | placeItem wire addr => exact placeItem_inv h
  | loseQueue core port => exact inv_congr (loseQueue_mem ..) h
  | drainPosted => exact drainPosted_inv h

end Sys2Proof.Machine
end

