-- ==== Sys2Proof/Proofs/MemoryFormStep.lean ====
section
/-! SUPPORT. The canonical form of memory is kept by every step: fetch and issue, then one arm for each instruction and event. -/

namespace Sys2Proof.Machine

/-- Memory is in its form in the state that a fetch or an issue leaves. -/
def Issued.Inv : Issued → Prop
  | .done s => s.Inv
  | .word _ s => s.Inv

@[simp] theorem issued_done {s : State} : (Issued.done s).Inv ↔ s.Inv := .rfl
@[simp] theorem issued_word {i : Instr} {s : State} : (Issued.word i s).Inv ↔ s.Inv := .rfl

theorem issued_ite {c : Prop} [Decidable c] {a b : Issued} (ha : a.Inv) (hb : b.Inv) : (if c then a else b).Inv := by split <;> assumption

theorem fetch_inv {s : State} (h : s.Inv) : (fetch s).Inv := by
  unfold fetch
  extract_lets c k pc va bad
  have hb {code : Nat} : (bad code).Inv := issued_done.mpr (faultNow_inv h)
  refine issued_ite hb ?_
  split
  · exact hb
  · split
    · exact issued_done.mpr (inv_congr ((modCtx_mem _ _ _).trans (askWalk_mem ..)) h)
    case h_2 e n t found =>
      have ht : (addLate t c n).Inv := inv_congr ((addLate_mem ..).trans (tlbLookup_mem found)) h
      refine issued_ite (issued_done.mpr (faultNow_inv ht)) ?_
      extract_lets pa
      split
      · exact issued_done.mpr (inv_congr ((modCtx_mem _ _ _).trans (modCore_mem _ _ _)) ht)
      case h_2 read =>
        have hu := inv_congr (codeAt_mem read) ht
        exact issued_ite (issued_done.mpr (faultNow_inv hu)) (issued_word.mpr hu)

theorem issue_inv {s : State} {k checker : Nat} (h : s.Inv) : (issue s k checker).Inv := by
  refine issued_ite h ?_
  split
  · exact h
  case h_2 c _ =>
    have turned {f : Core → Core} : (modCore (settleTables s k) k f).Inv := inv_congr ((modCore_mem _ _ _).trans (settleTables_mem ..)) h
    have fetched {f : Core → Core} : (fetch { modCore (settleTables s k) k f with cur := c }).Inv := fetch_inv (turned (f := f))
    split
    case h_1 e =>
      rw [← e]
      exact fetched
    case h_2 e =>
      have ht := issued_word.mp (e ▸ fetched)
      refine issued_ite (issued_word.mpr (inv_congr (modCore_mem _ _ _) ht)) (issued_ite (issued_word.mpr ?_) (issued_done.mpr ?_))
      · exact inv_congr ((addLate_mem ..).trans ((modCore_mem _ _ _).trans (countMismatch_mem ..))) ht
      · exact killCore_inv (inv_congr (countMismatch_mem ..) ht)

theorem runAlu_inv {i : Instr} {o : OpA} {f : AluIn → Int} {s : State} (h : s.Inv) : Goes (runPure i s (fun t => aluWrite t o f)) :=
  runPure_inv h fun _ ht => inv_congr (aluWrite_mem ..) ht

theorem execAdd_inv {o : OpA} {s : State} (h : s.Inv) : Goes (execAdd o s) := runAlu_inv h
theorem execSub_inv {o : OpA} {s : State} (h : s.Inv) : Goes (execSub o s) := runAlu_inv h
theorem execMul_inv {o : OpA} {s : State} (h : s.Inv) : Goes (execMul o s) := runAlu_inv h
theorem execMulh_inv {o : OpA} {s : State} (h : s.Inv) : Goes (execMulh o s) := runAlu_inv h
theorem execAnd_inv {o : OpA} {s : State} (h : s.Inv) : Goes (execAnd o s) := runAlu_inv h
theorem execOr_inv {o : OpA} {s : State} (h : s.Inv) : Goes (execOr o s) := runAlu_inv h
theorem execXor_inv {o : OpA} {s : State} (h : s.Inv) : Goes (execXor o s) := runAlu_inv h
theorem execAndn_inv {o : OpA} {s : State} (h : s.Inv) : Goes (execAndn o s) := runAlu_inv h
theorem execShl_inv {o : OpA} {s : State} (h : s.Inv) : Goes (execShl o s) := runAlu_inv h
theorem execShr_inv {o : OpA} {s : State} (h : s.Inv) : Goes (execShr o s) := runAlu_inv h
theorem execSar_inv {o : OpA} {s : State} (h : s.Inv) : Goes (execSar o s) := runAlu_inv h
theorem execRot_inv {o : OpA} {s : State} (h : s.Inv) : Goes (execRot o s) := runAlu_inv h
theorem execMin_inv {o : OpA} {s : State} (h : s.Inv) : Goes (execMin o s) := runAlu_inv h
theorem execMax_inv {o : OpA} {s : State} (h : s.Inv) : Goes (execMax o s) := runAlu_inv h
theorem execClz_inv {o : OpA} {s : State} (h : s.Inv) : Goes (execClz o s) := runAlu_inv h
theorem execCtz_inv {o : OpA} {s : State} (h : s.Inv) : Goes (execCtz o s) := runAlu_inv h
theorem execPopc_inv {o : OpA} {s : State} (h : s.Inv) : Goes (execPopc o s) := runAlu_inv h
theorem execSel_inv {o : OpA} {s : State} (h : s.Inv) : Goes (execSel o s) := runPure_inv h fun _ ht => inv_congr (wg_mem _ _ _ _) ht
theorem execCmp_inv {o : OpA} {s : State} (h : s.Inv) : Goes (execCmp o s) := runPure_inv h fun _ ht => inv_congr (wg_mem _ _ _ _) ht
theorem execSext_inv {o : OpA} {s : State} (h : s.Inv) : Goes (execSext o s) := runPure_inv h fun _ ht => inv_congr (wg_mem _ _ _ _) ht
theorem execBfx_inv {o : OpA} {s : State} (h : s.Inv) : Goes (execBfx o s) := runPure_inv h fun _ ht => inv_congr (wg_mem _ _ _ _) ht
theorem execBfi_inv {o : OpA} {s : State} (h : s.Inv) : Goes (execBfi o s) := runPure_inv h fun _ ht => inv_congr (wg_mem _ _ _ _) ht
theorem execLea_inv {o : OpA} {s : State} (h : s.Inv) : Goes (execLea o s) := runPure_inv h fun _ ht => inv_congr (wg_mem _ _ _ _) ht
theorem execAddi_inv {o : OpI} {s : State} (h : s.Inv) : Goes (execAddi o s) := runPure_inv h fun _ ht => inv_congr (wg_mem _ _ _ _) ht
theorem execMovi_inv {o : OpI} {s : State} (h : s.Inv) : Goes (execMovi o s) := runPure_inv h fun _ ht => inv_congr (wg_mem _ _ _ _) ht
theorem execMovhi_inv {o : OpI} {s : State} (h : s.Inv) : Goes (execMovhi o s) := runPure_inv h fun _ ht => inv_congr (wg_mem _ _ _ _) ht
theorem execDiv_inv {o : OpA} {s : State} (h : s.Inv) : Goes (execDiv o s) := runSeq_inv h fun _ ht => withDivider_inv ht fun _ hu => inv_congr (aluWrite_mem ..) hu
theorem execRem_inv {o : OpA} {s : State} (h : s.Inv) : Goes (execRem o s) := runSeq_inv h fun _ ht => withDivider_inv ht fun _ hu => inv_congr (aluWrite_mem ..) hu
theorem execSts_inv {o : OpM} {s : State} (h : s.Inv) : Goes (execSts o s) := runSeq_inv h fun _ => postStore_inv
theorem execStsA_inv {o : OpM} {s : State} (h : s.Inv) : Goes (execStsA o s) := runSeq_inv h fun _ => postStore_inv
theorem execHold_inv {o : OpE} {s : State} (h : s.Inv) : Goes (execHold o s) := runSeq_inv h fun _ => changeHold_inv
theorem execRelease_inv {o : OpE} {s : State} (h : s.Inv) : Goes (execRelease o s) := runSeq_inv h fun _ => changeHold_inv
theorem execYield_inv {o : OpE} {s : State} (h : s.Inv) : Goes (execYield o s) := runPure_inv h fun _ ht => inv_congr (modCtx_mem _ _ _) ht
theorem execNop_inv {o : OpE} {s : State} (h : s.Inv) : Goes (execNop o s) := runPure_inv h fun _ ht => ht
theorem execIllegalPattern_inv {o : Word} {s : State} (h : s.Inv) : Goes (execIllegalPattern o s) := runPure_inv h fun _ ht => ht
theorem execTklend_inv {o : OpA} {s : State} (h : s.Inv) : Goes (execTklend o s) := runSeq_inv h fun _ => tokenInstr_inv
theorem execTkret_inv {o : OpA} {s : State} (h : s.Inv) : Goes (execTkret o s) := runSeq_inv h fun _ => tokenInstr_inv
theorem execTksplit_inv {o : OpA} {s : State} (h : s.Inv) : Goes (execTksplit o s) := runSeq_inv h fun _ => tokenInstr_inv
theorem execTkjoin_inv {o : OpA} {s : State} (h : s.Inv) : Goes (execTkjoin o s) := runSeq_inv h fun _ => tokenInstr_inv
theorem execTkshare_inv {o : OpA} {s : State} (h : s.Inv) : Goes (execTkshare o s) := runSeq_inv h fun _ => tokenInstr_inv
theorem execTkdrop_inv {o : OpA} {s : State} (h : s.Inv) : Goes (execTkdrop o s) := runSeq_inv h fun _ => tokenInstr_inv
theorem execTkpark_inv {o : OpA} {s : State} (h : s.Inv) : Goes (execTkpark o s) := runSeq_inv h fun _ => tokenInstr_inv
theorem execJpoll_inv {o : OpE} {s : State} (h : s.Inv) : Goes (execJpoll o s) := runSeq_inv h fun _ => pollJob_inv

/-- Every instruction and every event keeps memory in its form. -/
theorem exec_inv {i : Instr} {s : State} (h : s.Inv) : Goes (exec i s) := by
  cases i with
  | add o => exact execAdd_inv h
  | sub o => exact execSub_inv h
  | mul o => exact execMul_inv h
  | mulh o => exact execMulh_inv h
  | and o => exact execAnd_inv h
  | or o => exact execOr_inv h
  | xor o => exact execXor_inv h
  | andn o => exact execAndn_inv h
  | shl o => exact execShl_inv h
  | shr o => exact execShr_inv h
  | sar o => exact execSar_inv h
  | rot o => exact execRot_inv h
  | min o => exact execMin_inv h
  | max o => exact execMax_inv h
  | clz o => exact execClz_inv h
  | ctz o => exact execCtz_inv h
  | popc o => exact execPopc_inv h
  | sel o => exact execSel_inv h
  | cmp o => exact execCmp_inv h
  | sext o => exact execSext_inv h
  | bfx o => exact execBfx_inv h
  | bfi o => exact execBfi_inv h
  | lea o => exact execLea_inv h
  | addi o => exact execAddi_inv h
  | movi o => exact execMovi_inv h
  | movhi o => exact execMovhi_inv h
  | div o => exact execDiv_inv h
  | rem o => exact execRem_inv h
  | sts o => exact execSts_inv h
  | stsA o => exact execStsA_inv h
  | hold o => exact execHold_inv h
  | release o => exact execRelease_inv h
  | yield o => exact execYield_inv h
  | nop o => exact execNop_inv h
  | illegalPattern w => exact execIllegalPattern_inv h
  | tklend o => exact execTklend_inv h
  | tkret o => exact execTkret_inv h
  | tksplit o => exact execTksplit_inv h
  | tkjoin o => exact execTkjoin_inv h
  | tkshare o => exact execTkshare_inv h
  | tkdrop o => exact execTkdrop_inv h
  | tkpark o => exact execTkpark_inv h
  | jpoll o => exact execJpoll_inv h
  | br o => exact execBr_inv h
  | brz o => exact execBrz_inv h
  | jmp o => exact execJmp_inv h
  | call o => exact execCall_inv h
  | loop o => exact execLoop_inv h
  | fork o => exact execFork_inv h
  | jr o => exact execJr_inv h
  | ret o => exact execRet_inv h
  | hret o => exact execHret_inv h
  | habort o => exact execHabort_inv h
  | gyield o => exact execGyield_inv h
  | gbar o => exact execGbar_inv h
  | ld o => exact execLd_inv h
  | st o => exact execSt_inv h
  | ldv o => exact execLdv_inv h
  | stv o => exact execStv_inv h
  | lds o => exact execLds_inv h
  | ldP o => exact execLdP_inv h
  | ldt o => exact execLdt_inv h
  | pref o => exact execPref_inv h
  | flush o => exact execFlush_inv h
  | acq o => exact execAcq_inv h
  | fence o => exact execFence_inv h
  | slop o => exact execSlop_inv h
  | cmls o => exact execCmls_inv h
  | agg o => exact execAgg_inv h
  | tkcarve o => exact execTkcarve_inv h
  | tkstat o => exact execTkstat_inv h
  | tkclaim o => exact execTkclaim_inv h
  | tkclean o => exact execTkclean_inv h
  | vadd o => exact execVadd_inv h
  | vsub o => exact execVsub_inv h
  | vmul o => exact execVmul_inv h
  | vfma o => exact execVfma_inv h
  | vmin o => exact execVmin_inv h
  | vmax o => exact execVmax_inv h
  | vabs o => exact execVabs_inv h
  | vneg o => exact execVneg_inv h
  | vdot o => exact execVdot_inv h
  | vcmp o => exact execVcmp_inv h
  | vsel o => exact execVsel_inv h
  | vcvt o => exact execVcvt_inv h
  | vred o => exact execVred_inv h
  | vperm o => exact execVperm_inv h
  | vbcast o => exact execVbcast_inv h
  | vmov o => exact execVmov_inv h
  | viota o => exact execViota_inv h
  | vand o => exact execVand_inv h
  | vor o => exact execVor_inv h
  | vxor o => exact execVxor_inv h
  | vshl o => exact execVshl_inv h
  | vshr o => exact execVshr_inv h
  | vrcp o => exact execVrcp_inv h
  | vrsq o => exact execVrsq_inv h
  | vexp2 o => exact execVexp2_inv h
  | vlog2 o => exact execVlog2_inv h
  | pand o => exact execPand_inv h
  | por o => exact execPor_inv h
  | pnot o => exact execPnot_inv h
  | pmov o => exact execPmov_inv h
  | i4tab o => exact execI4tab_inv h
  | cnew o => exact execCnew_inv h
  | cset o => exact execCset_inv h
  | wnew o => exact execWnew_inv h
  | link o => exact execLink_inv h
  | cxld o => exact execCxld_inv h
  | cgrab o => exact execCgrab_inv h
  | send o => exact execSend_inv h
  | mrel o => exact execMrel_inv h
  | chopen o => exact execChopen_inv h
  | chput o => exact execChput_inv h
  | chget o => exact execChget_inv h
  | chclose o => exact execChclose_inv h
  | nput o => exact execNput_inv h
  | srd o => exact execSrd_inv h
  | swr o => exact execSwr_inv h
  | trap o => exact execTrap_inv h
  | ctxsave o => exact execCtxsave_inv h
  | ctxrest o => exact execCtxrest_inv h
  | vgrow o => exact execVgrow_inv h
  | vshrink o => exact execVshrink_inv h
  | wdog o => exact execWdog_inv h
  | mstat o => exact execMstat_inv h
  | mgang o => exact execMgang_inv h
  | mwait o => exact execMwait_inv h
  | mdrain o => exact execMdrain_inv h
  | memit o => exact execMemit_inv h
  | ald o => exact execAld_inv h
  | ast o => exact execAst_inv h
  | mzero o => exact execMzero_inv h
  | mterm o => exact execMterm_inv h
  | job o => exact execJob_inv h
  | jwait o => exact execJwait_inv h
  | jnext o => exact execJnext_inv h
  | jdone o => exact execJdone_inv h
  | tload o => exact execTload_inv h
  | bulk o => exact execBulk_inv h
  | gather o => exact execGather_inv h
  | scatter o => exact execScatter_inv h
  | rgather o => exact execRgather_inv h
  | qpush o => exact execQpush_inv h
  | boqp o => exact execBoqp_inv h
  | broq o => exact execBroq_inv h
  | bari o => exact execBari_inv h
  | waitb o => exact execWaitb_inv h
  | gopen o => exact execGopen_inv h
  | gsend o => exact execGsend_inv h
  | gred o => exact execGred_inv h
  | gdrain o => exact execGdrain_inv h
  | gclose o => exact execGclose_inv h
  | rqnote o => exact execRqnote_inv h
  | rqflt o => exact execRqflt_inv h
  | rqslot o => exact execRqslot_inv h
  | grlaunch o => exact execGrlaunch_inv h
  | grsig o => exact execGrsig_inv h
  | contextReady c => exact execContextReady_inv h
  | budgetExpiry c => exact execBudgetExpiry_inv h
  | watchdogExpiry c => exact execWatchdogExpiry_inv h
  | faultQueueDelivery die => exact execFaultQueueDelivery_inv h
  | trapResume c => exact execTrapResume_inv h
  | trapRelease c => exact execTrapRelease_inv h
  | trapRetire c => exact execTrapRetire_inv h
  | messageArrival id => exact execMessageArrival_inv h
  | refusalReturn id => exact execRefusalReturn_inv h
  | messageRetry id => exact execMessageRetry_inv h
  | noticeDelivery id => exact execNoticeDelivery_inv h
  | sendBufferEntryLeave c => exact execSendBufferEntryLeave_inv h
  | launch id => exact execLaunch_inv h
  | waitingLaunchStart core => exact execWaitingLaunchStart_inv h
  | routineSelect core => exact execRoutineSelect_inv h
  | dequePop core => exact execDequePop_inv h
  | stealProbe core => exact execStealProbe_inv h
  | stealArrival id => exact execStealArrival_inv h
  | pairDispatch core slot => exact execPairDispatch_inv h
  | cellTake core slot second => exact execCellTake_inv h
  | pairSlotReady core slot => exact execPairSlotReady_inv h
  | linkSwap id => exact execLinkSwap_inv h
  | pairPlacement id => exact execPairPlacement_inv h
  | cellWrite id => exact execCellWrite_inv h
  | reservoirRefill core => exact execReservoirRefill_inv h
  | sliceAccess id => exact execSliceAccess_inv h
  | postedStoreAck id => exact execPostedStoreAck_inv h
  | aggFlush core => exact execAggFlush_inv h
  | lineFill core line => exact execLineFill_inv h
  | instructionFetchFill core line => exact execInstructionFetchFill_inv h
  | l2ChannelCommand slice line => exact execL2ChannelCommand_inv h
  | sectorArrival slice line => exact execSectorArrival_inv h
  | pageWalkRead vertex => exact execPageWalkRead_inv h
  | tokenWalk c => exact execTokenWalk_inv h
  | writeBackAck id => exact execWriteBackAck_inv h
  | tokenEntryChange id => exact execTokenEntryChange_inv h
  | latticeJobStart vertex => exact execLatticeJobStart_inv h
  | latticeJobEnd vertex disagree => exact execLatticeJobEnd_inv h
  | accessTransferLine vertex => exact execAccessTransferLine_inv h
  | barrierDecrement vertex => exact execBarrierDecrement_inv h
  | dataQueueResume c => exact execDataQueueResume_inv h
  | neighbourResume c => exact execNeighbourResume_inv h
  | meshBarrierComplete gang => exact execMeshBarrierComplete_inv h
  | chordWordArrival core => exact execChordWordArrival_inv h
  | chordTimeout c => exact execChordTimeout_inv h
  | nodeEligible gi node => exact execNodeEligible_inv h
  | nodeStart die => exact execNodeStart_inv h
  | nodeEvaluate gi node => exact execNodeEvaluate_inv h
  | netSeed gi node => exact execNetSeed_inv h
  | gangReserve gang core => exact execGangReserve_inv h
  | gangStart gang => exact execGangStart_inv h
  | batchStep gi node => exact execBatchStep_inv h
  | nodeComplete gi node => exact execNodeComplete_inv h
  | gangPreempt gang => exact execGangPreempt_inv h
  | gangSave gang block => exact execGangSave_inv h
  | lockstepOutput c agree => exact execLockstepOutput_inv h
  | coreKill core checker => exact execCoreKill_inv h
  | containment core => exact execContainment_inv h
  | regionRecovery base clean holder => exact execRegionRecovery_inv h
  | uncorrectableError pa => exact execUncorrectableError_inv h
  | ruleRemoval slots => exact execRuleRemoval_inv h
  | routineWrite core index w0 w1 => exact execRoutineWrite_inv h
  | apertureRead requester offset count => exact execApertureRead_inv h
  | apertureWrite requester offset data => exact execApertureWrite_inv h
  | controlRegisterWrite requester offset data => exact execControlRegisterWrite_inv h
  | ltarget requester target => exact execLtarget_inv h
  | hostLaunchRetry id => exact execHostLaunchRetry_inv h
  | ringtail requester value => exact execRingtail_inv h
  | evhead requester value => exact execEvhead_inv h
  | resync requester buffer => exact execResync_inv h
  | unmap tag root va => exact execUnmap_inv h
  | quota tag account units => exact execQuota_inv h
  | telemetry tag buffer select => exact execTelemetry_inv h
  | clrstart tag => exact execClrstart_inv h
  | fwstage tag image size => exact execFwstage_inv h
  | attest tag buffer => exact execAttest_inv h
  | powerlim tag watts => exact execPowerlim_inv h
  | unknownCommand tag opcode => exact execUnknownCommand_inv h
  | cxlLinkDown port => exact execCxlLinkDown_inv h
  | ralquelPortDown port lost => exact execRalquelPortDown_inv h
  | stopNotice => exact execStopNotice_inv h
  | stopNoticeReceived device => exact execStopNoticeReceived_inv h
  | peerLost device => exact execPeerLost_inv h
  | limitReached die cause => exact execLimitReached_inv h
  | emergencyLimit die => exact execEmergencyLimit_inv h
  | clockRestart => exact execClockRestart_inv h
  | startUp cfg => exact execStartUp_inv h
  | powerLoss step => exact execPowerLoss_inv h
  | hostCommandCompletion => exact execHostCommandCompletion_inv h
  | spillRegionAdd region => exact execSpillRegionAdd_inv h
  | peerAnswersAgain device => exact execPeerAnswersAgain_inv h
  | ruleAddition rules => exact execRuleAddition_inv h
  | contextPreemptRequest c => exact execContextPreemptRequest_inv h
  | reservedContextRelease c => exact execReservedContextRelease_inv h
  | heapLineRegistration wire heap base size account => exact execHeapLineRegistration_inv h
  | accountPoolAddition account base lsize => exact execAccountPoolAddition_inv h
  | batchGraphRegisterWrite graph load => exact execBatchGraphRegisterWrite_inv h

theorem Goes.ite {c : Prop} [Decidable c] {a b : Host.Outcome State Fault Refusal} (ha : Goes a) (hb : Goes b) : Goes (if c then a else b) := by
  split <;> assumption

theorem act_inv {a : Act} {s : State} (h : s.Inv) : Goes (act s a) := by
  cases a with
  | event e => exact .ite (goes_next.mpr h) (exec_inv h)
  | outside o => exact goes_next.mpr (outside_inv h)
  | issue k checker =>
    have issued := issue_inv (k := k) (checker := checker) h
    rw [act]
    generalize issue s k checker = r at issued ⊢
    cases r with
    | done t => exact goes_next.mpr issued
    | word i t => exact exec_inv issued

theorem step_inv {s : State} (h : s.Inv) : Goes (step s) := by
  unfold step
  split
  · exact act_inv (inv_congr (passCycles_mem ..) h)
  · exact act_inv (inv_congr (passCycles_mem ..) h)

/-- Settles O5: memory is written by single bytes and by filters of its entries alone, and both keep its form. -/
theorem stepKeepsMemoryForm : Obligations.StepKeepsMemoryForm := fun _ t h e => step_inv h t e

end Sys2Proof.Machine
end
